-- ==== Sys2Proof/Word.lean ====
section
/-! DEFINITION. The word types of the FHE6400 model and the sparse map that holds every register file and memory.
A sparse map lists only the entries that differ from what an unlisted key reads as, in rising key order, so equal
contents are equal lists. Its operations are in Machine/Maps.lean. -/

namespace Sys2Proof

/-- One byte. -/
abbrev Byte := BitVec 8

/-- One 32-bit word: a register, a fabric sample, a rod data word (R421, R147). -/
abbrev Word := BitVec 32

/-- One 64-bit word: a rod instruction (R174). -/
abbrev Word64 := BitVec 64

/-- A rod accumulator: L [31:0], H [63:32] and G [71:64] (R146). -/
abbrev Acc := BitVec 72

/-- A sparse map from natural keys, in the canonical form of `SMap.wf`. -/
abbrev SMap (α : Type) := List (Nat × α)

/-- A bit field of a register: its lowest bit and its width. -/
structure Fld where
  lo : Nat
  width : Nat
  deriving DecidableEq, Repr

end Sys2Proof
end

