-- ==== Sys2Proof/Syntax.lean ====
section
/-! DEFINITION. The commands of the FHE6400: one constructor of `Instr` for each row of spec/opcode_table.json, and the
operand types they carry. A register write carries the word written, a descriptor the queue-pair slot it came from, an
event the quantity the hardware measures or receives at it. -/

namespace Sys2Proof

/-- The two field dies (R20). -/
inductive Die where
  | a | b
  deriving DecidableEq, Repr

/-- A submission-queue slot: the queue pair and the slot index a descriptor came from (R428). -/
structure DescRef where
  qp : Fin 64
  slot : Fin 4096
  deriving DecidableEq, Repr

/-- The memory classes of Table 01-8, as SYS_ECC_CE counts them (R41, R56). -/
inductive MemClass where
  | rod | frame | gsram | dram | brass
  deriving DecidableEq, Repr

/-- What the error code finds in a word read (R41). -/
inductive EccResult where
  | good | correctable | uncorrectable
  deriving DecidableEq, Repr

/-- One burst asked of the bus matrix (R48, R51): its master, its byte address within the target, its beats of 64 bytes,
and the words written (none for a read). -/
structure BusReq where
  master : Fin 16
  addr : Nat
  beats : Fin 8
  data : Option (List Word)
  deriving DecidableEq, Repr


/-- A received biphase subframe (R124 to R127): its 24-bit sample, its validity, user and channel-status bits, and
whether a coding violation or a parity error was found in it. -/
structure Subframe where
  sample : BitVec 24
  v : Bool
  u : Bool
  c : Bool
  coding : Bool
  parity : Bool
  deriving DecidableEq, Repr

/-- Where a word is checked for errors (R41, Tables 01-8, 03-5 and 06-7): a memory of a class, the tags of a fabric buffer,
or the parameter memory of a mix bus, a direct route or a delay tap; which of them is told beside it. -/
inductive EccPlace where
  | mem (cls : MemClass) | tags | busParam | routeParam | tapParam | supervisor
  deriving DecidableEq, Repr

/-- A word of the fault collector's configuration (R484). -/
inductive ConfigWord where
  | ctrl | therm | mask (source : Fin 2048)
  deriving DecidableEq, Repr

/-- An upset of the collector's configuration: bits of one copy of a word are inverted (R484). -/
structure ConfigUpset where
  word : ConfigWord
  bits : BitVec 32
  deriving DecidableEq, Repr

/-- A transaction that has not completed (R52): its address, and the FAB_CLK cycles for which it has been outstanding. -/
structure MatrixWait where
  addr : Nat
  waited : Nat
  deriving DecidableEq, Repr

/-- How a rod's import list ended (R158, R167): cycles after the boundary, and the entry that timed out, if one did. -/
structure ImportReport where
  doneAt : Nat
  lost : Option (Fin 64)
  deriving DecidableEq, Repr

/-- How the export lists go (R159, R163, R167): the rods whose exports slip past the boundary, each with the first list entry
and the first channel of that entry that do, and rods with the export entry that times out. -/
structure ExportReport where
  late : List (Fin 64 × Fin 64 × Fin 64)
  lost : List (Fin 64 × Fin 64)
  deriving DecidableEq, Repr

/-- A copy of a CMD as it reaches a field die: its words, and the SEQs of the earlier sends of the same message. R331 makes
repeated CMDs act as one and gives the message no mark that says which message it repeats, so a delivery names it (log entry
113). -/
structure CmdCopy where
  words : List Nat
  copies : List Nat
  deriving DecidableEq, Repr

/-- A RAW_WRITE message as its words, and the tick of the channel's period at which it is accepted (R363, R375). -/
structure RawMessage where
  msg : CmdCopy
  tick : Nat
  deriving DecidableEq, Repr

/-- The tick of the period at which a trip is honoured, and whether it is the tick in which the safe state took the gates
low (R368, R370). -/
structure TripInstant where
  tick : Nat
  atSafe : Bool
  deriving DecidableEq, Repr

/-- What a neighbour tells of the stack beyond a HELLO's words (R454, R457, R470; how members learn it is left open: log
entry 50): the links between members, by their stack IDs, and whether the stack's start tally has applied. -/
structure StackView where
  links : List (Fin 8 × Fin 8)
  started : Bool
  deriving DecidableEq, Repr

/-- A HELLO as received: its words, and what its sender tells of the stack. -/
structure HelloIn where
  words : List Nat
  view : StackView
  deriving DecidableEq, Repr

/-- What a member adds to TIME_SYNC: its residence time of the message in 2^-16 ns, and its own estimate of its frequency
offset from the master (R74, R462). -/
structure SyncReport where
  residence : Fin 4294967296
  frequency : Int
  deriving DecidableEq, Repr


/-- The operations of the rod instruction set, by the mnemonics of chapter 05 (Tables 05-2 to 05-13). -/
inductive RodOp where
  | nop | ldi | movr
  | add | sub | addi | subi | cmp | and | or | xor | not | asl | asr | lsl | lsr | abs | neg | min | max | amax
  | clr | mova | adda | suba | nega | absa | shla | shra | rnda | sata | lda | ldal | ext | extl | extg | tsta
  | mpy | mac | msu | mpy2 | mac2 | msu2 | mpyx | macx
  | tap | tap2 | tapm
  | exp | bexp | norm | divs
  | rep | loop | endl | b | call | ret | rti | trap | endPass
  deriving DecidableEq, Repr

/-- The link condition of a network port is absent (R284): the port, and for how many microseconds it has been. -/
structure LinkGap where
  port : Fin 8
  us : Nat
  deriving DecidableEq, Repr

/-- What arrives with a frame at a network port (R286): its bytes without preamble and FCS, whether the FCS is right,
the FEC codewords corrected and not correctable since the last frame, and whether the port's frame buffer failed on it
(R322). -/
structure RxReport where
  bytes : List Byte
  fcsOk : Bool
  fecCorrected : Nat
  fecBad : Nat
  bufferBad : Bool
  deriving DecidableEq, Repr

/-- A frame of the supervisor's time servo (R302, R303): its queue, its bytes, and whether it is marked for one-step
stamping, with the ingress time of the request it answers (0 for a Sync). -/
structure ServoFrame where
  queue : Fin 8
  bytes : List Byte
  oneStep : Option Int
  deriving DecidableEq, Repr

/-- What the supervisor's servo reports at an update (R303): its offset estimate in 2^-16 ns before the slave port's
asymmetry, its frequency estimate in 0.1 ppm (R74), the grandmaster identity, and the states and mean path delays of the
ports. -/
structure ServoReport where
  offset : Int
  frequency : Int
  grandmaster : Nat
  states : List (Fin 6)
  delays : List Nat
  deriving DecidableEq, Repr



/-- The lanes of a field die's barrier and of its twin link, as lane events name them (R326, R346). -/
inductive Lane where
  | dl0 | dl1 | ul0 | ul1 | twin0 | twin1
  deriving DecidableEq, Repr

/-- The bits sampled from the sense bitstreams in one sample period, at 24 MHz (R383): VS and IS of the 32 channels and the
two rails, each as a number whose bit 0 is the first bit sampled. -/
structure SenseIn where
  vs : List Nat
  is : List Nat
  railP : Nat
  railN : Nat
  deriving DecidableEq, Repr

/-- A sense bitstream of a field die (R383). -/
inductive SenseStream where
  | vs (c : Fin 32) | is (c : Fin 32) | railP | railN | ts (m : Fin 4)
  deriving DecidableEq, Repr


/-- Where the ROM's work on the flash is cut short, by a fall of PFAIL_N or the loss of power that follows (R521, R524): in
the record of the power-cycle count, or in the sector copied after `n` others. -/
inductive RomCut where
  | record | sector (n : Nat)
  deriving DecidableEq, Repr

/-- What the OTP and the boot flash do at a start (R475, R502, R512): the OTP address that cannot be read, if one cannot,
whether the flash passes identification, and the sectors of a copy whose
read-back differs from the source once, and twice; and where the ROM is cut short. -/
structure RomFlash where
  otpBad : Option (BitVec 16)
  identified : Bool
  once : List Nat
  twice : List Nat
  cut : Option RomCut
  deriving DecidableEq, Repr

/-- The rates a PCI Express link trains to (R419). -/
inductive LinkSpeed where
  | gen2 | gen3 | gen4
  deriving DecidableEq, Repr

/-- The widths a PCI Express link trains to (R419). -/
inductive LinkWidth where
  | x1 | x2 | x4
  deriving DecidableEq, Repr

/-- What the host's configuration of the function sets (R419): Bus Master Enable, the power state D3hot, and where BAR0
lies in the host's address space (its 44 upper bits). -/
structure PcieControl where
  bme : Bool
  d3hot : Bool
  bar0 : BitVec 44
  deriving DecidableEq, Repr

/-- The commands of the block, in the order of spec/opcode_table.json. Each docstring gives the table's mnemonic and
its rule. -/
inductive Instr where
  /-- POWER_ON (R23): VDDIO33 rises through its threshold and the whole host die, brass island included, is reset. -/
  | powerOn (stackId : Fin 8) (recovLow : Bool)
  /-- POWER_DOWN (R548): VDDIO33 falls below 2.90 V, FAULT_N is driven low and the whole host die becomes unpowered. -/
  | powerDown
  /-- RST_N (R23): RST_N goes low and the host die is reset except the brass island and STK fields. -/
  | rstN (stackId : Fin 8) (recovLow : Bool)
  /-- HOST_RAIL_MONITOR (R548): A core, SRAM, SerDes or 1.8 V rail stays below its threshold for 1 µs and the host die enters the reset of RST_N until the rails recover for 1 ms. -/
  | hostRailMonitor (stackId : Fin 8) (recovLow : Bool)
  /-- PERST_N (R23): PERST_N goes low and resets the PCIe endpoint, the HIF block and all queue-pair state while audio keeps running. -/
  | perstN
  /-- FUNCTION_LEVEL_RESET (R419): A PCIe Function Level Reset acts as PERST_N does. -/
  | functionLevelReset
  /-- PCIE_LINK_DOWN (R450): The PCIe link leaves L0 other than by PERST_N and HIF source 0x480 is raised. -/
  | pcieLinkDown
  /-- CHIP_RESET (R478): 10 µs after a source with the CHIP_RESET reaction is raised, the host die takes the reset of RST_N. -/
  | chipReset (stackId : Fin 8) (recovLow : Bool)
  /-- PFAIL_FALL (R521): PFAIL_N stays low for 1 µs; flash work is suspended, the counters are saved and the waiting event records are committed. -/
  | pfailFall
  /-- PFAIL_RISE (R521): PFAIL_N returns high; suspended flash work resumes and the normal commit thresholds apply again. -/
  | pfailRise
  /-- XO_IN_LOST (R62): XO_IN shows no edge for 1 µs; the time counter stops, VALID clears and CLK source 0x040 is raised. -/
  | xoInLost
  /-- XO_IN_RETURN (R62): XO_IN edges return and the time counter resumes from its held value. -/
  | xoInReturn
  /-- BLOCK_BOUNDARY (R25): Disciplined time reaches the boundary of block n; the block index and period ordinal advance and every boundary action runs. -/
  | blockBoundary
  /-- ROD_PASS_START (R158): An ACTIVE rod starts its block program at 0x0000 at the end of the import window or when its own import list completes. -/
  | rodPassStart (g : Fin 64) (imports : ImportReport)
  /-- WARN_THRESHOLD (R153): A rod's compute-window cycle count reaches ROD_WARN.CYCLES and WARN becomes pending. -/
  | warnThreshold (g : Fin 64)
  /-- COMPUTE_BUDGET_END (R159): The compute budget ends; a rod that has not issued END fails with OVERRUN and the export window begins. -/
  | computeBudgetEnd (exports : ExportReport)
  /-- EXPORT_WINDOW_END (R258): After the export window the staged KIND 2 tally records of the coming boundary are written into frame SRAM. -/
  | exportWindowEnd
  /-- INTERRUPT_ACCEPT (R155): At an acceptance point a pending TRAP, WARN or MBOX interrupt is taken, saving PC and SR and issuing at its vector. -/
  | interruptAccept (g : Fin 64)
  /-- ROD_HALT (R157): With HALT_REQ set, the rod halts at its next acceptance point and its export lists are skipped. -/
  | rodHalt (g : Fin 64)
  /-- ROD_NOP (R176): The NOP instruction issues with its X and Y moves only. -/
  | rodNop (g : Fin 64)
  /-- LDI (R180): Load a 32-bit immediate into a numbered register. -/
  | rodLdi (g : Fin 64)
  /-- MOVR (R180): Copy one numbered register into another. -/
  | rodMovr (g : Fin 64)
  /-- ADD (R194): Saturating Q1.31 add of Da and b into DD, setting flags. -/
  | rodAdd (g : Fin 64)
  /-- SUB (R194): Saturating Q1.31 subtract of b from Da into DD, setting flags. -/
  | rodSub (g : Fin 64)
  /-- ADDI (R194): Add Da and b modulo 2^32 into DD. -/
  | rodAddi (g : Fin 64)
  /-- SUBI (R194): Subtract b from Da modulo 2^32 into DD. -/
  | rodSubi (g : Fin 64)
  /-- CMP (R194): Set the flags of Da minus b without writing a result. -/
  | rodCmp (g : Fin 64)
  /-- AND (R194): Bitwise AND of Da and b into DD. -/
  | rodAnd (g : Fin 64)
  /-- OR (R194): Bitwise OR of Da and b into DD. -/
  | rodOr (g : Fin 64)
  /-- XOR (R194): Bitwise XOR of Da and b into DD. -/
  | rodXor (g : Fin 64)
  /-- NOT (R194): Bitwise inverse of Da into DD. -/
  | rodNot (g : Fin 64)
  /-- ASL (R195): Arithmetic left shift of Da with Q1.31 overflow handling. -/
  | rodAsl (g : Fin 64)
  /-- ASR (R195): Arithmetic right shift of Da. -/
  | rodAsr (g : Fin 64)
  /-- LSL (R195): Logical left shift of Da. -/
  | rodLsl (g : Fin 64)
  /-- LSR (R195): Logical right shift of Da. -/
  | rodLsr (g : Fin 64)
  /-- ABS (R194): Saturating absolute value of Da into DD. -/
  | rodAbs (g : Fin 64)
  /-- NEG (R194): Saturating negation of Da into DD. -/
  | rodNeg (g : Fin 64)
  /-- MIN (R194): Smaller of Da and b, signed, into DD. -/
  | rodMin (g : Fin 64)
  /-- MAX (R194): Larger of Da and b, signed, into DD. -/
  | rodMax (g : Fin 64)
  /-- AMAX (R194): Larger of |Da| and b, signed, into DD. -/
  | rodAmax (g : Fin 64)
  /-- CLR (R196): Clear accumulator An. -/
  | rodClr (g : Fin 64)
  /-- MOVA (R196): Copy accumulator Am to An. -/
  | rodMova (g : Fin 64)
  /-- ADDA (R196): Add accumulator Am to An under the 72-bit fitting rules. -/
  | rodAdda (g : Fin 64)
  /-- SUBA (R196): Subtract accumulator Am from An. -/
  | rodSuba (g : Fin 64)
  /-- NEGA (R196): Write the negation of Am to An. -/
  | rodNega (g : Fin 64)
  /-- ABSA (R196): Write the magnitude of Am to An. -/
  | rodAbsa (g : Fin 64)
  /-- SHLA (R196): Write Am shifted left by K to An. -/
  | rodShla (g : Fin 64)
  /-- SHRA (R196): Write Am shifted right arithmetically by K to An. -/
  | rodShra (g : Fin 64)
  /-- RNDA (R196): Round Am at bit 32 into An and clear L. -/
  | rodRnda (g : Fin 64)
  /-- SATA (R196): Clamp Am to the Q1.31 range into An. -/
  | rodSata (g : Fin 64)
  /-- LDA (R196): Load a D register into the high part of An. -/
  | rodLda (g : Fin 64)
  /-- LDAL (R196): Load a D register into the low part of An, sign-extended. -/
  | rodLdal (g : Fin 64)
  /-- EXT (R192): Extract a rounded, saturated Q1.31 word from An with shift K into D. -/
  | rodExt (g : Fin 64)
  /-- EXTL (R196): Copy L of An into D. -/
  | rodExtl (g : Fin 64)
  /-- EXTG (R196): Copy G of An, sign-extended, into D. -/
  | rodExtg (g : Fin 64)
  /-- TSTA (R196): Set the flags from accumulator An. -/
  | rodTsta (g : Fin 64)
  /-- MPY (R197): An takes the product Da·Db. -/
  | rodMpy (g : Fin 64)
  /-- MAC (R197): An accumulates Da·Db. -/
  | rodMac (g : Fin 64)
  /-- MSU (R197): An subtracts Da·Db. -/
  | rodMsu (g : Fin 64)
  /-- MPY2 (R197): An takes the sum of two products. -/
  | rodMpy2 (g : Fin 64)
  /-- MAC2 (R197): An accumulates the sum of two products. -/
  | rodMac2 (g : Fin 64)
  /-- MSU2 (R197): An subtracts the sum of two products. -/
  | rodMsu2 (g : Fin 64)
  /-- MPYX (R197): Two products into An and its partner accumulator. -/
  | rodMpyx (g : Fin 64)
  /-- MACX (R197): Two products accumulated into An and its partner accumulator. -/
  | rodMacx (g : Fin 64)
  /-- TAP (R198): Tap rod multiplies an X and a Y operand straight from memory into An. -/
  | rodTap (g : Fin 64)
  /-- TAP2 (R198): Tap rod accumulates two memory-operand products into An. -/
  | rodTap2 (g : Fin 64)
  /-- TAPM (R199): Tap rod accumulates a product and moves the X word one place up the delay line. -/
  | rodTapm (g : Fin 64)
  /-- EXP (R200): Control rod writes the redundant-sign-bit count of Da to Dd. -/
  | rodExp (g : Fin 64)
  /-- BEXP (R200): Control rod lowers Dd to the redundant-sign-bit count of Da. -/
  | rodBexp (g : Fin 64)
  /-- NORM (R200): Control rod normalises An and writes the shift to Dd. -/
  | rodNorm (g : Fin 64)
  /-- DIVS (R201): Control rod performs one restoring division step on An. -/
  | rodDivs (g : Fin 64)
  /-- REP (R151): Repeat the following instruction a given number of times. -/
  | rodRep (g : Fin 64)
  /-- LOOP (R152): Push a zero-overhead loop level with count, start and end. -/
  | rodLoop (g : Fin 64)
  /-- ENDL (R152): Pop one loop level, failing with LOOP_UNF when none is active. -/
  | rodEndl (g : Fin 64)
  /-- B (R202): Conditional branch with three delay slots. -/
  | rodB (g : Fin 64)
  /-- CALL (R202): Conditional call writing the link register, with three delay slots. -/
  | rodCall (g : Fin 64)
  /-- RET (R202): Conditional return to the address in a D register. -/
  | rodRet (g : Fin 64)
  /-- RTI (R155): Return from interrupt, restoring PC and SR. -/
  | rodRti (g : Fin 64)
  /-- TRAP (R153): Make the software interrupt pending, or fail with ILLEGAL inside a handler. -/
  | rodTrap (g : Fin 64)
  /-- END (R178): End the rod's block pass. -/
  | rodEnd (g : Fin 64)
  /-- ILLEGAL_ENCODING (R176): An illegal encoding reached at run time fails the rod with cause ILLEGAL. -/
  | illegalEncoding (g : Fin 64)
  /-- ROD_CTRL_EN (R171): A write of ROD_CTRL.EN makes a loaded rod ACTIVE or READY at the second boundary after it. -/
  | rodCtrlEn (g : Fin 64) (w : Word)
  /-- HALT_REQ (R157): A write of ROD_CTRL.HALT_REQ requests a halt, or clears it to resume from 0x0000 at the next block start. -/
  | haltReq (g : Fin 64) (w : Word)
  /-- UNFENCE (R161): ROD_CTRL.UNFENCE returns a fenced rod to ACTIVE or READY if its ROD source STATUS is 0, and otherwise sets REFUSED. -/
  | unfence (g : Fin 64) (w : Word)
  /-- CLR_STATS (R173): ROD_CTRL.CLR_STATS clears ROD_CYC_MAX and ROD_OVR_CNT. -/
  | clrStats (g : Fin 64) (w : Word)
  /-- LOAD_PROGRAM (R170): Descriptor that checks and loads a rod program image into one frame. -/
  | loadProgram (d : DescRef) (image : Option (List Byte))
  /-- SAMPLE_SEND_INSTANT (R334): At each sample's send instant the barrier link engine sends the two SAMPLES messages of the field die. -/
  | sampleSendInstant (d : Die) (j : Fin 32)
  /-- FABRIC_WRITE (R101): A write to the fabric region is accepted, or discarded as non-owner or late. -/
  | fabricWrite (owner : Option (Fin 10 × Fin 4096)) (ch : Fin 1024) (buf : Fin 4) (j : Fin 32) (w : Word)
  /-- SYS_LOCK (R56): Writing 1 to SYS_LOCK.LOCK makes every RWL field read only until reset. -/
  | sysLock (w : Word)
  /-- SYS_BLKCFG_WRITE (R57): A write of FS or BLK is applied while stopped, or refused with REFUSED while running or threatening a tally. -/
  | sysBlkcfgWrite (w : Word)
  /-- PIPE_RUN_WRITE (R57): A write of SYS_PIPE.RUN arms the pipeline start or stop at a later boundary. -/
  | pipeRunWrite (w : Word)
  /-- SYS_BLKIDX_LO_READ (R56): Reading SYS_BLKIDX_LO latches INDEX_HI. -/
  | sysBlkidxLoRead
  /-- ECC_CE_CLR (R56): Writing CLR to a SYS_ECC_CE register clears its count. -/
  | eccCeClr (cls : MemClass) (w : Word)
  /-- PATROL_SCRUB (R41): The patrol scrub of a memory class reads, corrects and writes back its words at its period. -/
  | patrolScrub (place : EccPlace) (unit : Fin 2048) (addr : Nat) (ecc : EccResult)
  /-- BUS_REQUEST (R48): A master's request is arbitrated at a target port and granted one burst, or completes at once with an error. -/
  | busRequest (target : Fin 24) (arrivals : List BusReq) (elapsed : Nat) (ecc : EccResult)
  /-- MATRIX_TIMEOUT (R52): A transaction not completed within MTX_TIMEOUT completes with a timeout error and raises the master's MEM source. -/
  | matrixTimeout (master : Fin 16) (target : Fin 24) (wait : MatrixWait)
  /-- MTX_ERR_CLEAR (R58): Clearing MTX_ERR_INFO.VALID re-arms capture and clears MTX_ERR_CNT. -/
  | mtxErrClear (w : Word)
  /-- REF_ACTIVITY_LOST (R73): A candidate's loss condition holds, ACTIVE clears and the candidate disqualifies. -/
  | refActivityLost (c : Fin 22)
  /-- REF_FREQUENCY_GATE (R74): A candidate's frequency gate ends, FOFS is written and a reject disqualifies it. -/
  | refFrequencyGate (c : Fin 22) (offset : Int)
  /-- REF_QUALIFIED (R75): A candidate has stayed within ACCEPT for QUAL_TIME and qualifies. -/
  | refQualified (c : Fin 22)
  /-- REVERT_WAIT_EXPIRY (R76): A higher-priority candidate has stayed qualified for REVERT_WAIT and is selected under REVERT = 1. -/
  | revertWaitExpiry (c : Fin 22)
  /-- LOOP_UPDATE (R77): At a decimated reference event the clean-up loop forms e, updates the steer and takes its state transitions. -/
  | loopUpdate (phase : Int) (rate : Nat)
  /-- FAST_ACQUIRE_DWELL_END (R80): A fast-acquire dwell ends and the bandwidth narrows one code or the dwell restarts. -/
  | fastAcquireDwellEnd
  /-- HOLDOVER_EVALUATION (R88): Every 100 ms in HOLDOVER the steer is re-evaluated from the ageing and temperature model. -/
  | holdoverEvaluation
  /-- AGEING_REFIT (R90): Every hour the learned ageing slope A is refitted from the hourly means. -/
  | ageingRefit
  /-- TEMPERATURE_READING (R89): Every 100 ms the selected temperature source is read, and an open or shorted XO_TEMP switches source and raises REF 0x09C. -/
  | temperatureReading (die : BitVec 16) (diode : Option (BitVec 16))
  /-- REF_PSTEP (R86): Writing REF_PSTEP adds a phase step to REF_POFS, removed at the allowed rate. -/
  | refPstep (w : Word)
  /-- TIME_RATE_WRITE (R66): A host write of TIME_RATE re-bases time at the new rate, or is refused. -/
  | timeRateWrite (w : Word)
  /-- TIME_ADJ_GO (R69): Writing TIME_ADJ_GO submits a relative or absolute step request, or refuses an out-of-range absolute one. -/
  | timeAdjGo (w : Word)
  /-- FORCE (R68): Writing TIME_CTRL.FORCE arms force for the next step that would be refused. -/
  | force (w : Word)
  /-- FORCE_EXPIRY (R68): An armed FORCE clears itself 1 s after arming when no request used it. -/
  | forceExpiry
  /-- TIME_STEP_APPLY (R67): The step unit takes the oldest pending step request at a TIME_CLK tick and applies, forces or refuses it. -/
  | timeStepApply
  /-- SERVO_UPDATE (R303): The supervisor's IEEE 1588 servo updates its offset estimate for the NET candidate and may request a step. -/
  | servoUpdate (u : ServoReport)
  /-- TIME_NOW_FRAC_READ (R65): Reading TIME_NOW_FRAC latches the time fields from one tick. -/
  | timeNowFracRead
  /-- TIME_CNT_LO_READ (R65): Reading TIME_CNT_LO latches TIME_CNT_HI. -/
  | timeCntLoRead
  /-- TIME_BASE_CNT_LO_READ (R65): Reading TIME_BASE_CNT_LO latches the base count and the offset fields. -/
  | timeBaseCntLoRead
  /-- PPS_PULSE (R92): Time reaches a whole second plus OFS and PPS_OUT rises if enabled and gated. -/
  | ppsPulse
  /-- PPS_PULSE_END (R92): The PPS_OUT pulse width expires and the output falls. -/
  | ppsPulseEnd
  /-- TDM_MODE_WRITE (R116): A write of TDM_CTRL.MODE starts, stops or refuses a TDM port. -/
  | tdmModeWrite (n : Fin 16) (w : Word)
  /-- TDM_MASTER_FRAME_START (R107): A master port starts a frame on the grid or free-running divider and sends output sample k. -/
  | tdmMasterFrameStart (n : Fin 16) (j : Fin 32)
  /-- TDM_FRAME_RECEIVE (R111): A received TDM frame is given a sample index and its selected slots are written to their beads. -/
  | tdmFrameReceive (n : Fin 16) (pos : Int) (bclks : Nat) (slots : List Word)
  /-- TDM_RAW_ARM (R114): Writing TDM_RAW_CTRL.ARM clears WPTR and FRAMES and arms capture at the next FSYNC. -/
  | tdmRawArm (n : Fin 16) (w : Word)
  /-- PORT_QUALIFIED (R116): A follower or receiver has met the qualification conditions for QUAL × 10 ms and enters RUNNING. -/
  | portQualified (p : Fin 32)
  /-- PORT_CLOCK_LOST (R116): No edge or valid preamble for two frame periods sends a port to LOST and its beads become missing. -/
  | portClockLost (p : Fin 32)
  /-- PORT_FREQUENCY_GATE (R116): A port's 10 ms gate ends, FOFS is written and a rate beyond REJECT sends the port to QUALIFYING. -/
  | portFrequencyGate (p : Fin 32) (offset : Int)
  /-- FAB_AGRP_MEM_WRITE (R121): A write of alignment-group membership is applied or refused whole with GRP_REFUSED. -/
  | fabAgrpMemWrite (g : Fin 8) (w : Word)
  /-- FAB_MISS_CLR (R134): Writing FAB_MISS_CNT.CLR clears the missing-bead count. -/
  | fabMissClr (w : Word)
  /-- BPH_RX_EN_WRITE (R116): A write of BPH_RX_CTRL.EN starts or stops a biphase receiver. -/
  | bphRxEnWrite (n : Fin 16) (w : Word)
  /-- BPH_RX_FRAME (R124): A biphase frame is decoded and its subframes are written, repeated or marked invalid. -/
  | bphRxFrame (n : Fin 16) (pos : Int) (z : Bool) (misframe : Bool) (a : Subframe) (b : Subframe)
  /-- BPH_RX_CSSEQ_READ (R127): Reading BPH_RX_CSSEQ copies the latched blocks into the readable arrays. -/
  | bphRxCsseqRead (n : Fin 16)
  /-- BPH_TX_EN_WRITE (R128): A write of BPH_TX_CTRL.EN starts or stops a biphase transmitter. -/
  | bphTxEnWrite (n : Fin 16) (w : Word)
  /-- BPH_TX_FRAME (R128): A transmitter sends a frame carrying output sample k with validity, status and user bits. -/
  | bphTxFrame (n : Fin 16) (j : Fin 32)
  /-- BPH_TX_CSGO (R129): Writing BPH_TX_CSGO.GO copies the written arrays into the live arrays at the next Z preamble. -/
  | bphTxCsgo (n : Fin 16) (w : Word)
  /-- ASRC_LOCK (R131): A port's ratio estimator settles and its ASRC channels start writing beads, or a rate step clears LOCK. -/
  | asrcLock (p : Fin 32) (settled : Bool) (ratio : Word)
  /-- ROUTE_CFG (R222): Descriptor that writes a MIX_DR direct-route entry, or completes with INVALID_PARAM. -/
  | routeCfg (d : DescRef)
  /-- MIX_DR_ENGAGE_WRITE (R224): A write of MIX_DR_ENGAGE engages or disengages ENG = 2 routes at their next sample. -/
  | mixDrEngageWrite (hi : Bool) (w : Word)
  /-- VOX_HOLD_EXPIRY (R224): A voice-operated route disengages after VOX_HOLD ms with no sample above VOX_THR. -/
  | voxHoldExpiry (r : Fin 64)
  /-- MIX_MCLR_GO (R241): Writing MIX_MCLR.GO clears HOLD and OVER of a meter range at the end of the period. -/
  | mixMclrGo (w : Word)
  /-- MIX_CLIP_CLR (R244): Writing MIX_CLIPCNT.CLR clears the saturation count. -/
  | mixClipClr (w : Word)
  /-- TALLY_OPEN (R247): Descriptor that opens a FREE tally, or completes with BUSY_RETRY. -/
  | tallyOpen (d : DescRef)
  /-- TALLY_WRITE (R250): Descriptor that checks records and adds them to an OPEN tally's shadow memory, or aborts the tally. -/
  | tallyWrite (d : DescRef) (data : Option (List Byte))
  /-- TALLY_COMMIT (R253): Descriptor that fixes the boundary, checks the lead and validates a tally into ACCEPTED or PREPARED, or aborts it. -/
  | tallyCommit (d : DescRef)
  /-- TALLY_ABORT (R260): Descriptor that aborts a tally before its decision point, or completes with INVALID_PARAM. -/
  | tallyAbort (d : DescRef)
  /-- DECISION_POINT (R256): At D(n) each ACCEPTED tally is revalidated, its field acknowledgements and staging are confirmed, and a PREPARED part enters IN_DOUBT. -/
  | decisionPoint (bad : List (Fin 8 × Nat))
  /-- IN_DOUBT_QUERY (R267): Every QUERY_INT blocks an IN_DOUBT member asks the coordinator again for the decision. -/
  | inDoubtQuery (id : Fin 16)
  /-- SNP_FIRE (R272): Writing SNP_FIRE.GO causes a carry. -/
  | snpFire (w : Word)
  /-- CARRY_IN_EDGE (R272): A filtered edge of the selected polarity on CARRY_IN causes a carry. -/
  | carryInEdge (rising : Bool)
  /-- SNP_MATCH_REACHED (R278): Device time reaches SNP_MATCH and the armed match fires a carry and disarms. -/
  | snpMatchReached
  /-- STACK_CARRY_TIME (R277): Device time reaches a scheduled stack carry and the member latches with the stack tag. -/
  | stackCarryTime
  /-- SNP_MATCH_ARM (R278): Arming SNP_MATCH_CTRL for a past time sets MATCH_MISSED and raises SNP 0x2C1. -/
  | snpMatchArm (w : Word)
  /-- SNP_HOLD_WRITE (R273): Setting or clearing SNP_HOLD holds the presented bank or presents the latest one. -/
  | snpHoldWrite (w : Word)
  /-- CARRY_OUT_END (R279): The CARRY_OUT pulse width expires and the output falls. -/
  | carryOutEnd
  /-- FIELD_SECTION_TIMEOUT (R276): A field snapshot section not returned within 1 ms is marked invalid and raises SNP 0x2C3. -/
  | fieldSectionTimeout (die : Die)
  /-- SNAPSHOT_ARM (R464): Descriptor that arms a carry now, at a time or as a stack carry, and completes at the carry. -/
  | snapshotArm (d : DescRef)
  /-- SNAPSHOT_READ (R275): Descriptor that copies named snapshot sections into host memory. -/
  | snapshotRead (d : DescRef)
  /-- NET_MODE_WRITE (R284): A write of NET_CTRL.MODE or FEC restarts the PCS and flushes queued frames. -/
  | netModeWrite (p : Fin 8) (w : Word)
  /-- NET_LINK_UP (R284): The PCS has held synchronisation or block lock for 10 ms and LINK becomes 1. -/
  | netLinkUp (p : Fin 8)
  /-- NET_LINK_DOWN (R284): The link condition is absent for DOWN_US, LINK clears, queues are flushed and receive paths go DOWN. -/
  | netLinkDown (p : LinkGap)
  /-- FRAME_RECEIVE (R287): A received frame is checked, stamped and classified to pause logic, servo, stream engine, host or discard. -/
  | frameReceive (p : Fin 8) (r : RxReport)
  /-- PAUSE_EXPIRY (R295): A pause's quanta expire and transmission resumes. -/
  | pauseExpiry (p : Fin 8)
  /-- PAUSE_WATCHDOG (R296): A pause running longer than PAUSE_MAX is ended and the watchdog fires. -/
  | pauseWatchdog (p : Fin 8)
  /-- FRAME_TRANSMIT (R290): An idle port starts the head frame of the highest eligible queue. -/
  | frameTransmit (p : Fin 8) (servo : Option ServoFrame) (bufferBad : Bool)
  /-- TRANSMIT_COMPLETE (R299): A frame leaves the line, its egress stamp is taken and a finished NET_TX completes. -/
  | transmitComplete (p : Fin 8)
  /-- LAUNCH_LATE_DISCARD (R293): A head frame still waiting at L + LATE_MAX is discarded. -/
  | launchLateDiscard (p : Fin 8) (q : Fin 8)
  /-- NET_TX (R297): Descriptor that queues a host frame, possibly segmented, checksummed, stamped or with a launch time. -/
  | netTx (d : DescRef) (data : Option (List Byte))
  /-- NET_RX_POST (R288): Descriptor that posts a buffer for a host frame and completes when one is written. -/
  | netRxPost (d : DescRef)
  /-- NET_CNT_CLR (R324): Writing NET_CNT_CLR.GO clears the port counters. -/
  | netCntClr (p : Fin 8) (w : Word)
  /-- STREAM_CFG (R305): Descriptor that writes a stream entry other than EN, or completes with INVALID_PARAM. -/
  | streamCfg (d : DescRef) (data : Option (List Byte))
  /-- STREAM_BEAD_DEADLINE (R316): In the last 4 µs of a period each receive stream's bead is completed, gap-filled or declared missing. -/
  | streamBeadDeadline (bad : List (Fin 1024 × Fin 32))
  /-- STR_CLR (R325): Writing STR_CLR.GO clears the counters of a stream range at the next boundary. -/
  | strClr (w : Word)
  /-- BARRIER_LANE_LOCK (R326): A barrier or twin lane gains or loses block lock. -/
  | barrierLaneLock (d : Die) (lane : Lane) (headers : List Bool)
  /-- SAMPLES (R329): A field die accepts a SAMPLES message and stores its samples for their ticks. -/
  | samples (d : Die) (ws : List Nat)
  /-- PARAM (R566): A field die judges and stages a PARAM record and answers with an ACK. -/
  | param (d : Die) (ws : List Nat)
  /-- SEAL (R343): A SEAL message sets a sealed limit, and its END moves the die from UNSEALED to SAFE. -/
  | sealMsg (d : Die) (ws : List Nat)
  /-- BARRIER_HEARTBEAT (R333): A field die takes n, FS, BLK and epoch from HEARTBEAT and aligns its sample ticks. -/
  | barrierHeartbeat (d : Die) (ws : List Nat)
  /-- HOST_LOST (R333): Three boundaries pass without HEARTBEAT and the field die sets HOST_LOST. -/
  | hostLost (d : Die)
  /-- CMD_TALLY_COMMIT (R263): The field die marks a staged tally committed for its sample instant. -/
  | cmdTallyCommit (d : Die) (m : CmdCopy)
  /-- TALLY_DISCARD (R263): The field die discards the staged records of a tally. -/
  | tallyDiscard (d : Die) (m : CmdCopy)
  /-- CMD_CARRY (R336): The field die arms a snapshot latch at sample index k_c. -/
  | cmdCarry (d : Die) (m : CmdCopy)
  /-- FORCE_SAFE (R339): The field die drives every gate low at once and enters FORCED. -/
  | forceSafe (d : Die) (m : CmdCopy)
  /-- RELEASE (R341): The field die leaves FORCED and arms every LOSS_SAFE or OFF channel to re-arm. -/
  | release (d : Die) (m : CmdCopy)
  /-- CMD_READ (R332): The field die answers with a STATUS read reply of a register. -/
  | cmdRead (d : Die) (m : CmdCopy)
  /-- SEAL_TIGHTEN (R344): The field die moves a sealed limit only in its safe direction. -/
  | sealTighten (d : Die) (m : CmdCopy)
  /-- CMD_UNKNOWN (R332): A CMD with an undefined code is answered UNKNOWN_COMMAND. -/
  | cmdUnknown (d : Die) (ws : List Nat)
  /-- TRIP_CLEAR (R369): Named TRIPPED channels with trip input inactive enter REARMING. -/
  | tripClear (d : Die) (m : CmdCopy)
  /-- RAW_WRITE (R375): A raw PERIOD or DUTY write is held pending for pairing by generation. -/
  | rawWrite (d : Die) (m : RawMessage)
  /-- PWM_CNT_CLR (R377): Clears PWM_CHc_CNT of the named channels. -/
  | pwmCntClr (d : Die) (m : CmdCopy)
  /-- DIAG_SWEEP (R412): Starts a swept impedance measurement on named channels or answers STATE. -/
  | diagSweep (d : Die) (m : CmdCopy)
  /-- DIAG_ABORT (R412): Ends every running sweep, which fades back. -/
  | diagAbort (d : Die) (m : CmdCopy)
  /-- PROT_CLEAR (R414): Clears DC latches and starts a check for CH_SHORT on named channels. -/
  | protClear (d : Die) (m : CmdCopy)
  /-- ZREF_CAPTURE (R414): Copies each named channel's last valid pilot |Z| into DIAG_CHc_ZREF. -/
  | zrefCapture (d : Die) (m : CmdCopy)
  /-- FIELD_TICK (R333): At each sample tick a field die chooses each channel's input and runs the protection stages on it. -/
  | fieldTick (d : Die) (sense : SenseIn)
  /-- LOSS_HOLD_END (R340): A channel without usable samples ends HOLD after BLK ticks and starts FADE. -/
  | lossHoldEnd (d : Die) (c : Fin 32)
  /-- LOSS_FADE_END (R340): A channel's fade weight reaches zero and it enters IDLE. -/
  | lossFadeEnd (d : Die) (c : Fin 32)
  /-- LOSS_IDLE_END (R340): HOLD_IDLE expires and the channel enters LOSS_SAFE, gates low from the next valley. -/
  | lossIdleEnd (d : Die) (c : Fin 32)
  /-- LOSS_REARM (R341): A LOSS_SAFE channel re-arms after BLK consecutive usable ticks when allowed. -/
  | lossRearm (d : Die) (c : Fin 32)
  /-- TWIN_SAMPLES (R350): A driving die accepts a TWIN_SAMPLES message as the twin copy. -/
  | twinSamples (d : Die) (ws : List Nat)
  /-- TWIN_DIGEST (R349): A die compares the partner's digests with its own and updates MATCHED and DIV. -/
  | twinDigest (d : Die) (ws : List Nat)
  /-- TWIN_STATUS (R346): A die takes the partner's role, SAFE and EN from TWIN_STATUS and detects a role conflict. -/
  | twinStatus (d : Die) (ws : List Nat)
  /-- TWIN_STATUS_SEND (R346): Every 5 µs and on change each die sends TWIN_STATUS on both twin lanes. -/
  | twinStatusSend (d : Die)
  /-- TWIN_LINK_TIMEOUT (R346): No valid twin message for 12 µs takes the twin link down. -/
  | twinLinkTimeout (d : Die)
  /-- PWM_CLK_LOSS (R339): PWM_CLK stops or leaves its rate; gates go low within 20 ns and the die enters SAFE. -/
  | pwmClkLoss (d : Die)
  /-- FIELD_ROD_FAULT (R339): A field-die control rod fails or is halted and the die's gates go low at once. -/
  | fieldRodFault (d : Die)
  /-- FIELD_PLL_REF_CHANGE (R338): The field PLL changes its reference among lane, twin lane, holdover and none. -/
  | fieldPllRefChange (d : Die) (r : Fin 4)
  /-- FIELD_PLL_LOCK (R339): The field PLL locks again and a die made safe by clock loss may return to ACTIVE. -/
  | fieldPllLock (d : Die) (r : Fin 3)
  /-- FIELD_UNDERVOLTAGE (R339): A field supply falls below 2.90 V; gates go low within 50 ns and the die resets to UNSEALED. -/
  | fieldUndervoltage (d : Die)
  /-- FIELD_DIE_POWER_ON (R548): A field supply rises and the die starts UNSEALED with gates low. -/
  | fieldDiePowerOn (d : Die)
  /-- SENSE (R335): The barrier link engine writes a SENSE message's values into the VS and IS beads. -/
  | sense (d : Die) (ws : List Nat)
  /-- STATUS (R336): The host side accepts a STATUS message as die status, read reply or snapshot part. -/
  | status (d : Die) (ws : List Nat) (discarded : Option (Fin 16))
  /-- FAULT (R354): The host side accepts a FAULT message and raises the FLD source. -/
  | fault (d : Die) (ws : List Nat)
  /-- ACK (R331): The host side accepts an ACK for a PARAM, CMD or SEAL. -/
  | ack (d : Die) (ws : List Nat)
  /-- ACK_TIMEOUT (R331): No ACK arrives within ACK_TO, so the message is resent or ACK_FAIL is set. -/
  | ackTimeout (d : Die) (seq : Fin 65536)
  /-- DIAG_RESULT (R413): The host side accepts a DIAG_RESULT part of a sweep. -/
  | diagResult (d : Die) (ws : List Nat)
  /-- BARRIER_LINK_TIMEOUT (R337): No valid upstream message for LINK_TO or no die status for four blocks takes the barrier link out of UP. -/
  | barrierLinkTimeout (d : Die)
  /-- BAR_CNT_CLR (R356): Writing BAR_CNT_CLR.GO clears the barrier counters. -/
  | barCntClr (d : Die) (w : Word)
  /-- CARRIER_VALLEY (R363): A channel's carrier valley loads the compare values of the requantizer output and starts the period's gate edges. -/
  | carrierValley (d : Die) (c : Fin 32) (m : Fin 32)
  /-- TRIP_INPUT_CHANGE (R367): A change on CHn_TRIP_N passes the synchroniser and filter and changes TRIP_IN. -/
  | tripInputChange (d : Die) (c : Fin 32) (active : Bool)
  /-- TRIP_HONOURED (R368): Blanking ends with the trip still active and all four gates go low, latching TRIPPED or stopping the period. -/
  | tripHonoured (d : Die) (c : Fin 32) (trip : TripInstant)
  /-- READBACK_MISMATCH (R366): A gate ball differs from its driven level for 8 ticks and the channel trips with cause READBACK. -/
  | readbackMismatch (d : Die) (c : Fin 32) (t : Nat)
  /-- TRIP_QUIET_EXPIRY (R369): TRIP_IN stays inactive for TRIP_QUIET and a REARMING channel returns to RUNNING, RAW or DISABLED. -/
  | tripQuietExpiry (d : Die) (c : Fin 32)
  /-- RAW_PAIR_TIMEOUT (R375): An unpaired raw write applies alone after two carrier periods and sets PAIR_SPLIT. -/
  | rawPairTimeout (d : Die) (c : Fin 32) (duty : Bool)
  /-- OVERCURRENT (R400): A fast-path current output at or above OC_THR drives the gates low for the rest of the period. -/
  | overcurrent (d : Die) (c : Fin 32) (t : Nat) (bits : Nat)
  /-- CHECK_START (R402): A due check of a CH_SHORT channel starts at a valley with a 1 kHz test sine. -/
  | checkStart (d : Die) (c : Fin 32)
  /-- CHECK_END (R402): A check ends after 10 ms and passes or fails on the measured impedance. -/
  | checkEnd (d : Die) (c : Fin 32)
  /-- CHECK_DUE (R403): An automatic retry timer expires and a check becomes due. -/
  | checkDue (d : Die) (c : Fin 32)
  /-- THERMAL_MODEL_UPDATE (R386): Once per millisecond the coil and magnet model updates, fold-back targets move and shutdown latches are tested. -/
  | thermalModelUpdate (d : Die) (ones : List Nat)
  /-- SENSE_STREAM_BAD (R385): A sense bitstream shows no transition for 64 SCK periods and is replaced. -/
  | senseStreamBad (d : Die) (st : SenseStream)
  /-- SENSE_STREAM_GOOD (R385): A bad bitstream shows transitions for 1 ms and is good again. -/
  | senseStreamGood (d : Die) (st : SenseStream)
  /-- DC_OUT_DETECT (R398): Output DC at or above DC_THR for DC_TIME latches DC_OUT. -/
  | dcOutDetect (d : Die) (c : Fin 32)
  /-- DC_STREAM_DETECT (R399): Stream DC at or above DCS_THR for DCS_TIME latches DC_STREAM. -/
  | dcStreamDetect (d : Die) (c : Fin 32)
  /-- TRIM_UPDATE (R397): Every 100 ms the sensed-voltage trim is corrected. -/
  | trimUpdate (d : Die)
  /-- PILOT_WINDOW_END (R408): A pilot window of Fs samples ends and the impedance is measured and classified. -/
  | pilotWindowEnd (d : Die)
  /-- SWEEP_POINT_END (R411): A sweep point's measurement ends and the next point starts or the sweep ends. -/
  | sweepPointEnd (d : Die)
  /-- NOP (R439): Descriptor that completes at acceptance with block index and epoch. -/
  | nop (d : DescRef)
  /-- FENCE (R435): Descriptor accepted after all earlier ones complete and holding later ones until it completes. -/
  | fence (d : DescRef)
  /-- PARAM_READ (R438): Descriptor that reads consecutive parameter-table words or field registers into host memory. -/
  | paramRead (d : DescRef)
  /-- METER_READ (R241): Descriptor that writes a range of meter records to host memory. -/
  | meterRead (d : DescRef)
  /-- DIAG_RUN (R412): Descriptor that starts a sweep and completes when all result parts arrive. -/
  | diagRun (d : DescRef)
  /-- DIAG_RUN_TIMEOUT (R439): A DIAG_RUN without all parts after 20 s completes with TIMEOUT. -/
  | diagRunTimeout (d : DescRef)
  /-- EVENT_READ (R497): Descriptor that copies event records by number into host memory. -/
  | eventRead (d : DescRef)
  /-- TIME_SET (R67): Descriptor that submits a relative or absolute step request, optionally with force. -/
  | timeSet (d : DescRef)
  /-- FIELD_CMD (R439): Descriptor that sends a CMD to a field die and completes with its ACK. -/
  | fieldCmd (d : DescRef)
  /-- CONFIG_SAVE (R516): Descriptor that writes a configuration image into both store copies. -/
  | configSave (d : DescRef) (data : Option (List Byte))
  /-- UPDATE_BLOCK (R509): Descriptor that writes one block into the staging area. -/
  | updateBlock (d : DescRef) (data : Option (List Byte))
  /-- UPDATE_ACTIVATE (R510): Descriptor that checks the staged image and writes an activated boot header. -/
  | updateActivate (d : DescRef)
  /-- HIF_KICK (R426): Writing HIF_KICK.GO requests a doorbell page read. -/
  | hifKick (w : Word)
  /-- DOORBELL_READ (R426): The doorbell page is read and each queue pair's SQ_TAIL and CQ_HEAD are checked and taken. -/
  | doorbellRead (page : Option (List Byte))
  /-- DESCRIPTOR_FETCH (R433): A descriptor is fetched and accepted in turn when its queue pair has CQ room. -/
  | descriptorFetch (q : Fin 64) (bytes : Option (List Byte)) (bufferBad : Bool)
  /-- COMPLETION_WRITE (R430): A completion entry is written in SQ order with its phase when the CQ has room. -/
  | completionWrite (q : Fin 64)
  /-- MOD_TIME_EXPIRY (R449): MOD_TIME passes since the oldest unsignalled completion and the queue pair signals. -/
  | modTimeExpiry (q : Fin 64)
  /-- QUEUE_ENABLE (R424): EN written 1 with RECOVER = 0 puts a DISABLED queue pair in RUNNING. -/
  | queueEnable (q : Fin 64) (w : Word)
  /-- QUEUE_RECOVER (R447): EN written 1 with RECOVER = 1 completes the pending slots with ABORTED_RESET, then RUNNING. -/
  | queueRecover (q : Fin 64) (w : Word)
  /-- QUEUE_DISABLE (R445): EN written 0 moves a queue pair to DRAINING and aborts its waiting descriptors. -/
  | queueDisable (q : Fin 64) (w : Word)
  /-- BAR0_NARROW_WRITE (R421): A BAR0 write narrower than 32 bits is discarded and raises HIF 0x485. -/
  | bar0NarrowWrite
  /-- STACK_LINK_UP (R452): A stack link holds block and FEC lock for 1 ms and is UP. -/
  | stackLinkUp (l : Fin 4)
  /-- STACK_LINK_DOWN (R452): A stack link loses a lock for 10 µs and goes DOWN. -/
  | stackLinkDown (l : Fin 4)
  /-- HELLO_SEND (R456): Every 10 ms and at link UP a member sends HELLO on each link. -/
  | helloSend
  /-- HELLO (R457): A received HELLO updates the neighbour table and member map and may reveal a duplicate ID. -/
  | hello (l : Fin 4) (m : HelloIn)
  /-- DISCOVERY_WAIT_EXPIRY (R458): DISC_WAIT passes without a HEARTBEAT and the lowest reachable ID becomes master. -/
  | discoveryWaitExpiry
  /-- STACK_HEARTBEAT (R458): A received stack HEARTBEAT confirms the master, or makes a higher master yield. -/
  | stackHeartbeat (l : Fin 4) (ws : List Nat)
  /-- HEARTBEAT_WINDOW_EXPIRY (R459): A heartbeat fails to arrive within HB_WIN and the member counts a miss, taking over at its threshold. -/
  | heartbeatWindowExpiry
  /-- MEMBER_STATUS (R470): The master takes a member's epoch, loop state, RUNNING and in-doubt flag. -/
  | memberStatus (l : Fin 4) (ws : List Nat)
  /-- TIME_SYNC (R462): A member takes the stack time estimate for the STACK candidate and forwards TIME_SYNC. -/
  | timeSync (l : Fin 4) (ws : List Nat) (own : SyncReport)
  /-- DELAY_REQ (R462): A link end answers a delay request. -/
  | delayReq (l : Fin 4) (ws : List Nat)
  /-- DELAY_RESP (R462): A link end computes the link delay from a delay response. -/
  | delayResp (l : Fin 4) (ws : List Nat)
  /-- SUBSCRIBE (R466): An owner adds or cancels a reader's subscription to a local channel. -/
  | subscribe (l : Fin 4) (ws : List Nat)
  /-- BEADS (R467): The reader's stack link engine writes received remote beads with their tags. -/
  | beads (l : Fin 4) (ws : List Nat)
  /-- REMOTE_BEAD_DEADLINE (R467): A remote bead not arrived 4 µs before the boundary is missing and counted late. -/
  | remoteBeadDeadline
  /-- VOTE (R266): The coordinator takes a member's vote and decides COMMIT or ABORT. -/
  | vote (l : Fin 4) (ws : List Nat)
  /-- DECISION_LOG (R266): The successor logs the coordinator's decision and acknowledges it. -/
  | decisionLog (l : Fin 4) (ws : List Nat)
  /-- LOG_ACK (R266): The coordinator, holding the log acknowledgement, broadcasts the decision. -/
  | logAck (l : Fin 4) (ws : List Nat)
  /-- DECISION (R266): A member moves its part to ACCEPTED or aborts it with cause STACK. -/
  | decision (l : Fin 4) (ws : List Nat)
  /-- QUERY (R271): The addressee answers with the decision or whether it holds a COMMIT. -/
  | query (l : Fin 4) (ws : List Nat)
  /-- ANSWER (R269): An in-doubt part aborts, or moves to ACCEPTED with boundary j + 2. -/
  | answer (l : Fin 4) (ws : List Nat)
  /-- CARRY_SCHED (R277): A member arms a stack carry at the scheduled time or reports it missed. -/
  | carrySched (l : Fin 4) (ws : List Nat)
  /-- SPLIT_REPORT (R268): The coordinator takes a member's report of a split stack tally. -/
  | splitReport (l : Fin 4) (ws : List Nat)
  /-- START (R470): A member sets RUN and commits its part of the stack start tally. -/
  | stackStart (l : Fin 4) (ws : List Nat)
  /-- START_SEND (R470): The master sends START once every member reports LOCKED and none IN_DOUBT. -/
  | startSend
  /-- STACK_RETRANSMIT (R463): A vote, log, decision or query unanswered for 8 blocks is sent again. -/
  | stackRetransmit
  /-- HANDOVER (R461): Writing STK_CTRL.HANDOVER hands mastership eight blocks later, or is refused. -/
  | handover (w : Word)
  /-- FLT_FORCE (R486): Writing FLT_FORCE raises a source as its detector would, or is refused. -/
  | fltForce (w : Word)
  /-- FLT_STAT_CLEAR (R477): Writing 1 to STATUS bits clears them and their FAULT_N latches. -/
  | fltStatClear (g : Fin 64) (hi : Bool) (w : Word)
  /-- FLT_CLR_GRP (R477): Writing FLT_CLR_GRP.GO clears every STATUS bit of a group. -/
  | fltClrGrp (w : Word)
  /-- FLT_CFG (R480): Writing FLT_CFG sets the mask of the selected source, or is refused. -/
  | fltCfg (w : Word)
  /-- FLT_CFG_GRP (R480): Writing FLT_CFG_GRP.GO writes one mask to every existing non-FIXED source of a group. -/
  | fltCfgGrp (w : Word)
  /-- FLT_UNFENCE (R482): Writing FLT_UNFENCE lifts a unit's fence when its FENCE sources are clear, or sets REFUSED. -/
  | fltUnfence (w : Word)
  /-- FLT_SELFTEST (R485): The two-key sequence inverts one bit of FLT_CTRL's second copy. -/
  | fltSelftest (w : Word)
  /-- FLT_CNT_CLR (R500): Writing FLT_CNTg.CLR clears a group's raise count. -/
  | fltCntClr (g : Fin 64) (w : Word)
  /-- CONFIGURATION_SCAN (R484): The background scan finds a collector configuration mismatch and starts the self-trip path. -/
  | configurationScan (upset : Option ConfigUpset)
  /-- SELF_TRIP_RESET (R484): 1 ms after a mismatch the device takes CHIP_RESET and rewrites its collector configuration. -/
  | selfTripReset (stackId : Fin 8) (recovLow : Bool)
  /-- FAULT_N_MIN_EXPIRY (R481): FN_MIN ms pass and FAULT_N is released if no latch holds it. -/
  | faultNMinExpiry
  /-- THERMAL_SENSOR_READING (R475): A host-die or DRAM sensor reading reaches WARN, CRIT or 95 °C and raises its THERM source. -/
  | thermalSensorReading (sensor : Fin 5) (reading : Option (BitVec 16))
  /-- SUPERVISOR_WATCHDOG (R475): The supervisor watchdog expires and the supervisor restarts. -/
  | supervisorWatchdog
  /-- TOKEN_REFILL (R493): An event code's bucket gains a token every 60 / RATE s while below BURST. -/
  | tokenRefill (code : BitVec 16)
  /-- EVENT_COMMIT (R494): With 16 records waiting or the oldest 1 s old, the supervisor commits up to 16 records to flash. -/
  | eventCommit (failures : List Nat)
  /-- OPTIME_SAVE (R492): Every 60 s the operating time and log counters are saved to the counter region. -/
  | optimeSave (ok : Bool)
  /-- TIME_MARK (R491): Every 24 h of operating time a TIME_MARK event is recorded. -/
  | timeMark
  /-- EVR_HOST (R495): Writing EVR_HOST.GO records a host event. -/
  | evrHost (w : Word)
  /-- EVR_CLEAR (R499): The two-key sequence while unlocked starts erasing the log and advances EVR_EPOCH. -/
  | evrClear (w : Word)
  /-- LOG_ERASE_DONE (R499): The log erase completes and record 0 is LOG_CLEARED. -/
  | logEraseDone
  /-- EVR_OPTIME_F_READ (R492): Reading EVR_OPTIME_F latches EVR_OPTIME_S and EVR_PCC. -/
  | evrOptimeFRead
  /-- BOOT_ROM_START (R504): After power-on, RST_N or CHIP_RESET the ROM runs its start sequence. -/
  | bootRomStart (flash : RomFlash)
  /-- SUPERVISOR_START (R468): The supervisor starts and runs the member's start-up order. -/
  | supervisorStart
  /-- BOOT_MB_BLOCK (R515): Recovery mailbox OP 1 reads and stores one staging block. -/
  | bootMbBlock (w : Word) (data : Option (List Byte))
  /-- BOOT_MB_ACTIVATE (R515): Recovery mailbox OP 2 activates the staged image and continues from ROM step 6. -/
  | bootMbActivate (w : Word) (flash : RomFlash)
  /-- MGT_ADDRESS (R530): An address byte after START is compared and acknowledged, latching the page for a read. -/
  | mgtAddress (a : Fin 128) (read : Bool)
  /-- MGT_WRITE_BYTE (R533): A written data byte sets the pointer, is discarded, clears CAUSE bits or is stored. -/
  | mgtWriteByte (b : Byte)
  /-- MGT_READ_BYTE (R531): A byte is sent from the read latch at the pointer and the pointer advances. -/
  | mgtReadByte (nack : Bool)
  /-- MGT_STOP (R533): A STOP or repeated START ends a transfer and a controller write increments RX_SEQ. -/
  | mgtStop
  /-- MGT_BUS_ERROR (R534): A START or STOP inside a byte ends the transfer and raises MGT 0x582. -/
  | mgtBusError
  /-- MGT_SDA_TIMEOUT (R540): The target has held SDA low for SDA_MS and releases it, raising MGT 0x580. -/
  | mgtSdaTimeout
  /-- MGT_ATTENTION_PULSE (R537): With a request pending and the bus idle long enough, the target drives SDA low. -/
  | mgtAttentionPulse
  /-- MGT_PULSE_END (R537): The attention pulse reaches WIDTH_US, SDA is released and the request is cleared. -/
  | mgtPulseEnd
  /-- MGT_PULSE_ABANDON (R537): SCL falls during a pulse, which is abandoned with backoff and MGT 0x581. -/
  | mgtPulseAbandon
  /-- MGT_ATTN_REPEAT (R536): Every REPEAT seconds with an enabled CAUSE bit set a new request is made. -/
  | mgtAttnRepeat
  /-- MGT_ATTN_GO (R536): Writing MGT_ATTN.GO sets CAUSE bit 0 and may make a request. -/
  | mgtAttnGo (w : Word)
  /-- MGT_PAGE_REFRESH (R535): Every 10 ms the supervisor refreshes page bytes 0x00 to 0x41 and increments SEQ. -/
  | mgtPageRefresh
  /-- SUPERVISION_READ (R535): Every 100 ms the supervisor reads latch and load bits from the field dies into the page. -/
  | supervisionRead
  /-- MGT_HOSTBUF_WRITE (R535): A host write of MGT_HOSTBUF updates four page bytes together. -/
  | mgtHostbufWrite (n : Fin 16) (w : Word)
  /-- MGT_ADDR_WRITE (R530): A write of MGT_ADDR applies from the next START and records ADDR_CHANGED. -/
  | mgtAddrWrite (w : Word)
  /-- REGISTER_WRITE (R15): A write to a register with no behaviour of its own updates its fields under its access codes. -/
  | registerWrite (a : Fin 262144) (w : Word)
  /-- REF_ACTIVITY_RESTORED (R73): The first reference event after a candidate's loss sets REF_CSTATn.ACTIVE again so that it can requalify. -/
  | refActivityRestored (c : Fin 22)
  /-- MSYN_OUT_OF_LOCK (R93): The main synthesizer loses or regains lock, changing CLK_STAT.MSYN_LOCK and raising CLK source 0x041 on loss. -/
  | msynOutOfLock (locked : Bool)
  /-- TIME_PLL_OUT_OF_LOCK (R93): The time PLL loses or regains lock, changing CLK_STAT.TIME_PLL_LOCK and raising CLK source 0x042 on loss. -/
  | timePllOutOfLock (locked : Bool)
  /-- DRAM_LINK_FAILURE (R54): A DRAM channel's link or training fails and MEM source 0x514 + channel is raised. -/
  | dramLinkFailure (channel : Fin 4)
  /-- FIELD_ROD_RESTART (R339): All four field-die control rods run again, after a restart from firmware or a released JTAG halt, so a die made SAFE by a rod event can return to ACTIVE. -/
  | fieldRodRestart (d : Die)
  /-- PERST_N_RELEASE (R451): PERST_N rises, the PCIe endpoint leaves reset and a fault INT held pending sets the HIF_MISC_VEC pending bit. -/
  | perstNRelease
  /-- PCIE_LINK_TRAINED (R450): The PCIe link completes training, HIF_STAT.SPEED and WIDTH are set, and HIF source 0x481 is raised if below Gen4 x4. -/
  | pcieLinkTrained (speed : LinkSpeed) (width : LinkWidth) (ctl : PcieControl)
  /-- DIE_UNSEALED_TIMEOUT (R342): A field die still UNSEALED 1 s after its barrier link came UP raises BAR index 0x0A. -/
  | dieUnsealedTimeout (d : Die)
  /-- HOST_FLASH_WORK_DONE (R516): A CONFIG_SAVE, UPDATE_BLOCK or UPDATE_ACTIVATE finishes its flash erase, program and read-back and its descriptor completes. -/
  | hostFlashWorkDone (verified : Bool)
  /-- PROGRAM_LOAD_DONE (R170): A LOAD_PROGRAM finishes writing and re-checking its sections, the named rods leave LOADING for READY, ACTIVE or EMPTY, and the descriptor completes. -/
  | programLoadDone (f : Fin 8) (image : Option (List Byte))
  /-- PFAIL_SET_DONE (R521): The PFAIL_N set of Table 15-7 finishes, BOOT_PFAIL.ACTIVE clears, DONE sets and BOOT_PFAIL_TIME is written. -/
  | pfailSetDone (us : BitVec 16)
  deriving DecidableEq, Repr

end Sys2Proof
end

