-- ==== Sys2Proof/Decode.lean ====
section
/-! DEFINITION. The commands that words spell. Commands arrive as operations and events, not as words: every row of
spec/opcode_table.json has an empty list of fields, so no word spells a command. -/

namespace Sys2Proof

/-- The command a word spells by the table's bits: none, since the table gives no row bits. -/
def decodeTableWord (_nbits _w : Nat) : Option Instr := none

end Sys2Proof
end

