-- ==== Sys2Proof/Config.lean ====
section
/-! DEFINITION. What an implementation fixes and the free values: constants with no body, so that nothing proved in
this model can rest on their value. Each stands where the spec states an effect and leaves a value open; the log
entries named at each say so. -/

namespace Sys2Proof.Config

/-- A fresh free value of `w` bits: the `k`-th value the spec leaves open in a run (log entry 2). -/
opaque freeBits : (w : Nat) → (k : Nat) → BitVec w

/-- A fresh free value of any width, as an integer (log entry 2). -/
opaque freeInt : (k : Nat) → Int

/-- What a read of a BAR0 word outside the BOOT block gives in recovery mode (R421; log entry 162). -/
opaque deadRead : Nat → BitVec 32

/-- The natural frequency, in radians a second, of the clean-up loop at a bandwidth in mHz: R78 gives a proportional-integral
filter of damping 1 "at the bandwidth" and not which frequency of the loop its bandwidth names (log entry 10). -/
opaque loopOmega : Nat → Rat

/-- The 64 bytes of a snapshot section's header, as a number: Table 07-6 names what it holds and gives no places
(log entry 20). Its argument lists section, SEQ, CAUSE, VALID, device time, TIME count, block index, position, epoch and
tag. -/
opaque snapHeader : List Int → Nat

/-- A coefficient of the interpolator in the die's ROM, R358 giving the filter's shape and no coefficients (log entry 32).
Arguments: periods per sample, place in the first half of the filter. -/
opaque firTap : Nat → Nat → Rat

/-- Whether a value between two steps of a number format is rounded up: R359 and R380 give the value and not its rounding
(log entry 33). -/
opaque roundUp : Rat → Bool

/-- The share of the difference between input and output by which the first-order low-pass at 0.5 Hz of R398 and R399
moves at a sample, its discrete form being open within the bounds the model sets (log entry 34). Argument: rate in Hz. -/
opaque lowPassShare : Nat → Rat

/-- A coefficient of the Fs decimation path, R384 giving its linear phase and its delay and no coefficients (log entry 145).
Arguments: bits per sample, place in the first half of the filter. -/
opaque senseTap : Nat → Nat → Rat

/-- A bit of a sense stream from before a die's first tick (log entry 145). Arguments: stream, how many bits before it. -/
opaque earlyBit : Nat → Nat → Bool

/-- What a report reads where a cone model's state is not a number (log entry 30). -/
opaque nanMicrons : Int

end Sys2Proof.Config
end

