-- ==== Sys2Proof/Machine/Maps.lean ====
section
/-! DEFINITION. The operations on sparse maps and on bit fields of words. -/

namespace Sys2Proof.Machine
open Sys2Proof

/-- What a sparse map holds at a key: the listed value, or what an unlisted key reads as. -/
def mapGet {α : Type} (d : Nat → α) : SMap α → Nat → α
  | [], k => d k
  | (j, v) :: m, k => if k = j then v else if k < j then d k else mapGet d m k

/-- Insert or replace an entry, keeping keys rising. -/
def mapInsert {α : Type} : SMap α → Nat → α → SMap α
  | [], k, v => [(k, v)]
  | (j, w) :: m, k, v =>
    if k < j then (k, v) :: (j, w) :: m
    else if k = j then (k, v) :: m
    else (j, w) :: mapInsert m k v

/-- Remove the entry of a key, if any. -/
def mapErase {α : Type} : SMap α → Nat → SMap α
  | [], _ => []
  | (j, w) :: m, k =>
    if k < j then (j, w) :: m
    else if k = j then m
    else (j, w) :: mapErase m k

/-- Store a value at a key; storing what an unlisted key reads as removes the entry (the canonical form). -/
def mapSet {α : Type} [DecidableEq α] (d : Nat → α) (m : SMap α) (k : Nat) (v : α) : SMap α :=
  if v = d k then mapErase m k else mapInsert m k v

/-- Every key of a map is at least `lo`, keys rise strictly, and no entry equals what an unlisted key reads as. -/
def mapWfFrom {α : Type} [DecidableEq α] (d : Nat → α) : Nat → SMap α → Bool
  | _, [] => true
  | lo, (j, v) :: m => decide (lo ≤ j) && decide (v ≠ d j) && mapWfFrom d (j + 1) m

/-- The canonical form of a sparse map. -/
def mapWf {α : Type} [DecidableEq α] (d : Nat → α) (m : SMap α) : Bool := mapWfFrom d 0 m

/-- Keep the entries whose key satisfies a test; the others read as their default again. -/
def mapKeep {α : Type} (p : Nat → Bool) (m : SMap α) : SMap α := m.filter (fun e => p e.1)

/-- Rewrite every listed entry by a function that keeps the default where it is the default. -/
def mapRewrite {α : Type} [DecidableEq α] (d : Nat → α) (f : Nat → α → α) (m : SMap α) : SMap α :=
  m.filterMap (fun e => let v := f e.1 e.2; if v = d e.1 then none else some (e.1, v))

/-- Read a bit field of a word as a number. -/
def fldGet (f : Fld) (w : Word) : Nat := (w.toNat >>> f.lo) % 2 ^ f.width

/-- Replace a bit field of a word; a value too wide loses its high bits. -/
def fldPut (f : Fld) (v : Nat) (w : Word) : Word :=
  (w &&& ~~~(BitVec.ofNat 32 ((2 ^ f.width - 1) <<< f.lo))) ||| BitVec.ofNat 32 ((v % 2 ^ f.width) <<< f.lo)

/-- Read a bit field as a signed two's complement number. -/
def fldGetInt (f : Fld) (w : Word) : Int :=
  let v := fldGet f w
  if f.width ≠ 0 ∧ v ≥ 2 ^ (f.width - 1) then (v : Int) - 2 ^ f.width else v

/-- The value a field of a given width holds for an integer, modulo its width. -/
def wrapTo (width : Nat) (x : Int) : Nat := (x % (2 ^ width : Int)).toNat

/-- The number a two's complement field of a given width stands for. -/
def signed (width : Nat) (v : Nat) : Int :=
  let v := v % 2 ^ width
  if 2 * v ≥ 2 ^ width then (v : Int) - 2 ^ width else v

/-- An unsigned counter of a given width that stops at its largest value. -/
def satNat (width : Nat) (v : Nat) : Nat := min v (2 ^ width - 1)

/-- Clamp an integer to a signed two's complement range of a given width. -/
def satInt (width : Nat) (x : Int) : Int :=
  if x > 2 ^ (width - 1) - 1 then 2 ^ (width - 1) - 1
  else if x < -(2 ^ (width - 1)) then -(2 ^ (width - 1)) else x

/-- The byte list of a number, lowest byte first (R17). -/
def toBytes : Nat → Nat → List Byte
  | 0, _ => []
  | n + 1, v => BitVec.ofNat 8 v :: toBytes n (v / 256)

/-- The number a byte list spells, lowest byte first (R17). -/
def ofBytes : List Byte → Nat
  | [] => 0
  | b :: bs => b.toNat + 256 * ofBytes bs

/-- The number a byte list spells, highest byte first: network order (R17). -/
def ofBytesBE (bs : List Byte) : Nat := ofBytes bs.reverse

/-- Bytes `[at, at + n)` of a byte list, zero past its end. -/
def bytesAt (bs : List Byte) (pos n : Nat) : List Byte :=
  let got := (bs.drop pos).take n
  got ++ List.replicate (n - got.length) 0

/-- The little-endian number at an offset of a byte list. -/
def leAt (bs : List Byte) (pos n : Nat) : Nat := ofBytes (bytesAt bs pos n)

/-- The network-order number at an offset of a byte list. -/
def beAt (bs : List Byte) (pos n : Nat) : Nat := ofBytesBE (bytesAt bs pos n)

/-- Replace one element of a list, if the index is in range. -/
def listSet {α : Type} (l : List α) (i : Nat) (v : α) : List α := l.set i v

/-- Change the elements of a list that satisfy a test. -/
def listUpdate {α : Type} (p : α → Bool) (f : α → α) (l : List α) : List α :=
  l.map (fun a => if p a then f a else a)

/-- Bits `lo` and up of a number, `width` of them. -/
def bitsOf (v lo width : Nat) : Nat := (v >>> lo) % 2 ^ width

/-- One bit of a number. -/
def bitOf (v i : Nat) : Bool := v.testBit i

/-- One as 1 and false as 0. -/
def b2n (b : Bool) : Nat := if b then 1 else 0

/-- Apply a function for each element, threading a state. -/
def forEach {α σ : Type} (l : List α) (s : σ) (f : σ → α → σ) : σ := l.foldl f s

end Sys2Proof.Machine
end

