-- ==== Sys2Proof/Machine/RegMap.lean ====
section
/-! DEFINITION. The register map: the address of every BAR0 register (R420 and each block's own register table) and
of every field-die register (R355, R379, R417, R418), the place of every field, and the rows from which a register
access takes its access codes (R15), its value after reset and whether it survives the resets (STK and "kept"). -/

namespace Sys2Proof

/-- The access codes of Table 00-5 (R15). STK is a read-only field that survives every reset but power-on. -/
inductive AccessCode where
  | rw | ro | wo | w1c | rwl
  deriving DecidableEq, Repr

/-- One field of a register: its place, its access code, its value after reset and whether resets keep it. -/
structure FieldRow where
  lo : Nat
  width : Nat
  acc : AccessCode
  reset : Nat
  kept : Bool
  deriving DecidableEq, Repr

/-- One row of a register table: the first address, the strides and counts of its copies, and its fields. -/
structure RegRow where
  base : Nat
  dims : List (Nat × Nat)
  fields : List FieldRow
  deriving DecidableEq, Repr

namespace Reg

abbrev SYS_ID : Nat := 0x0
abbrev SYS_LOCK : Nat := 0x4
abbrev SYS_BLKCFG : Nat := 0x10
abbrev SYS_PIPE : Nat := 0x14
abbrev SYS_BLKIDX_LO : Nat := 0x18
abbrev SYS_BLKIDX_HI : Nat := 0x1C
abbrev SYS_EPOCH : Nat := 0x20
abbrev SYS_ORDINAL : Nat := 0x24
abbrev SYS_ECC_CE_ROD : Nat := 0x30
abbrev SYS_ECC_CE_FRAME : Nat := 0x34
abbrev SYS_ECC_CE_GSRAM : Nat := 0x38
abbrev SYS_ECC_CE_DRAM : Nat := 0x3C
abbrev SYS_ECC_CE_BRASS : Nat := 0x40
abbrev MTX_CTRL : Nat := 0x9000
abbrev MTX_AGE : Nat := 0x9004
abbrev MTX_TIMEOUT : Nat := 0x9008
abbrev MTX_FENCE_M : Nat := 0x9010
abbrev MTX_FENCE_T : Nat := 0x9014
abbrev MTX_ERR_INFO : Nat := 0x9020
abbrev MTX_ERR_CNT : Nat := 0x9024
abbrev MTX_PRI_LO (i : Nat) : Nat := 0x9100 + 0x8 * i
abbrev MTX_PRI_HI (i : Nat) : Nat := 0x9104 + 0x8 * i
abbrev CLK_STAT : Nat := 0x2000
abbrev REF_CTRL : Nat := 0x2010
abbrev REF_SEL : Nat := 0x2014
abbrev REF_STAT : Nat := 0x2018
abbrev REF_STEER : Nat := 0x201C
abbrev REF_FR_STEER : Nat := 0x2020
abbrev REF_PHERR : Nat := 0x2024
abbrev REF_BUILDOUT : Nat := 0x2028
abbrev REF_PSTEP : Nat := 0x202C
abbrev REF_POFS : Nat := 0x2030
abbrev REF_LOCKCFG : Nat := 0x2034
abbrev REF_LOCKCNT : Nat := 0x2038
abbrev REF_PULL : Nat := 0x203C
abbrev REF_LIMITS : Nat := 0x2040
abbrev REF_HOLDCFG : Nat := 0x2044
abbrev REF_TEMP : Nat := 0x2048
abbrev REF_TCOEF : Nat := 0x204C
abbrev REF_THETA0 : Nat := 0x2050
abbrev REF_AGE : Nat := 0x2054
abbrev REF_HOLDINFO_S : Nat := 0x2058
abbrev REF_HOLDINFO_T : Nat := 0x205C
abbrev REF_CAND (i : Nat) : Nat := 0x2080 + 0x4 * i
abbrev REF_CSTAT (i : Nat) : Nat := 0x2100 + 0x4 * i
abbrev TIME_CTRL : Nat := 0x3000
abbrev TIME_STAT : Nat := 0x3004
abbrev TIME_JUMP_MAX : Nat := 0x3008
abbrev TIME_REFUSED_NS : Nat := 0x300C
abbrev TIME_RATE : Nat := 0x3010
abbrev TIME_CNT_LO : Nat := 0x3018
abbrev TIME_CNT_HI : Nat := 0x301C
abbrev TIME_NOW_FRAC : Nat := 0x3020
abbrev TIME_NOW_NS : Nat := 0x3024
abbrev TIME_NOW_SEC_LO : Nat := 0x3028
abbrev TIME_NOW_SEC_HI : Nat := 0x302C
abbrev TIME_BASE_CNT_LO : Nat := 0x3030
abbrev TIME_BASE_CNT_HI : Nat := 0x3034
abbrev TIME_OFS_FRAC : Nat := 0x3038
abbrev TIME_OFS_NS : Nat := 0x303C
abbrev TIME_OFS_SEC_LO : Nat := 0x3040
abbrev TIME_OFS_SEC_HI : Nat := 0x3044
abbrev TIME_ADJ_NS : Nat := 0x3050
abbrev TIME_ADJ_FRAC : Nat := 0x3054
abbrev TIME_SETV_NS : Nat := 0x3058
abbrev TIME_SETV_SEC_LO : Nat := 0x305C
abbrev TIME_SETV_SEC_HI : Nat := 0x3060
abbrev TIME_ADJ_GO : Nat := 0x3064
abbrev TIME_PPS : Nat := 0x3070
abbrev TIME_PPS_W : Nat := 0x3074
abbrev FAB_CTRL : Nat := 0x28000
abbrev FAB_GEOM : Nat := 0x28004
abbrev FAB_STAT : Nat := 0x28008
abbrev FAB_NONOWNER : Nat := 0x2800C
abbrev FAB_MISS_CNT : Nat := 0x28010
abbrev FAB_PORTLIM : Nat := 0x28020
abbrev FAB_AGRP_MEM (i : Nat) : Nat := 0x28080 + 0x8 * i
abbrev FAB_AGRP_STAT (i : Nat) : Nat := 0x28084 + 0x8 * i
abbrev FAB_TAG (i : Nat) : Nat := 0x28400 + 0x4 * i
abbrev FAB_OWNER (i : Nat) : Nat := 0x29000 + 0x4 * i
abbrev TDM_CTRL (i : Nat) : Nat := 0x20000 + 0x400 * i
abbrev TDM_RATE (i : Nat) : Nat := 0x20004 + 0x400 * i
abbrev TDM_DIV (i : Nat) : Nat := 0x20008 + 0x400 * i
abbrev TDM_IN_MASK (i : Nat) : Nat := 0x2000C + 0x400 * i
abbrev TDM_OUT_MASK (i : Nat) : Nat := 0x20010 + 0x400 * i
abbrev TDM_CHBASE (i : Nat) : Nat := 0x20014 + 0x400 * i
abbrev TDM_STAT (i : Nat) : Nat := 0x20018 + 0x400 * i
abbrev TDM_FOFS (i : Nat) : Nat := 0x2001C + 0x400 * i
abbrev TDM_SLIPCNT (i : Nat) : Nat := 0x20020 + 0x400 * i
abbrev TDM_ERRCNT (i : Nat) : Nat := 0x20024 + 0x400 * i
abbrev TDM_REJOIN (i : Nat) : Nat := 0x20028 + 0x400 * i
abbrev TDM_PHASE (i : Nat) : Nat := 0x2002C + 0x400 * i
abbrev TDM_RAW_BASE (i : Nat) : Nat := 0x20040 + 0x400 * i
abbrev TDM_RAW_LEN (i : Nat) : Nat := 0x20044 + 0x400 * i
abbrev TDM_RAW_CTRL (i : Nat) : Nat := 0x20048 + 0x400 * i
abbrev TDM_RAW_WPTR (i : Nat) : Nat := 0x2004C + 0x400 * i
abbrev TDM_RAW_FRAMES (i : Nat) : Nat := 0x20050 + 0x400 * i
abbrev BPH_RX_CTRL (i : Nat) : Nat := 0x24000 + 0x100 * i
abbrev BPH_RX_RATE (i : Nat) : Nat := 0x24004 + 0x100 * i
abbrev BPH_RX_STAT (i : Nat) : Nat := 0x24008 + 0x100 * i
abbrev BPH_RX_FOFS (i : Nat) : Nat := 0x2400C + 0x100 * i
abbrev BPH_RX_ERRCNT (i : Nat) : Nat := 0x24010 + 0x100 * i
abbrev BPH_RX_SLIPCNT (i : Nat) : Nat := 0x24014 + 0x100 * i
abbrev BPH_RX_REJOIN (i : Nat) : Nat := 0x24018 + 0x100 * i
abbrev BPH_RX_PHASE (i : Nat) : Nat := 0x2401C + 0x100 * i
abbrev BPH_RX_CSSEQ (i : Nat) : Nat := 0x24020 + 0x100 * i
abbrev BPH_RX_CS_A (i : Nat) (j : Nat) : Nat := 0x24040 + 0x100 * i + 0x4 * j
abbrev BPH_RX_CS_B (i : Nat) (j : Nat) : Nat := 0x24058 + 0x100 * i + 0x4 * j
abbrev BPH_RX_U_A (i : Nat) (j : Nat) : Nat := 0x24080 + 0x100 * i + 0x4 * j
abbrev BPH_RX_U_B (i : Nat) (j : Nat) : Nat := 0x24098 + 0x100 * i + 0x4 * j
abbrev BPH_TX_CTRL (i : Nat) : Nat := 0x25000 + 0x100 * i
abbrev BPH_TX_STAT (i : Nat) : Nat := 0x25004 + 0x100 * i
abbrev BPH_TX_CSGO (i : Nat) : Nat := 0x25008 + 0x100 * i
abbrev BPH_TX_CS_A (i : Nat) (j : Nat) : Nat := 0x25040 + 0x100 * i + 0x4 * j
abbrev BPH_TX_CS_B (i : Nat) (j : Nat) : Nat := 0x25058 + 0x100 * i + 0x4 * j
abbrev BPH_TX_U_A (i : Nat) (j : Nat) : Nat := 0x25080 + 0x100 * i + 0x4 * j
abbrev BPH_TX_U_B (i : Nat) (j : Nat) : Nat := 0x25098 + 0x100 * i + 0x4 * j
abbrev ASRC_CH (i : Nat) : Nat := 0x26000 + 0x4 * i
abbrev ASRC_STAT (i : Nat) : Nat := 0x26100 + 0x4 * i
abbrev ASRC_RATIO (i : Nat) : Nat := 0x26180 + 0x4 * i
abbrev ROD_FSTAT (i : Nat) : Nat := 0x30000 + 0x1000 * i
abbrev ROD_FLINES (i : Nat) : Nat := 0x30004 + 0x1000 * i
abbrev ROD_FWORDS (i : Nat) : Nat := 0x30008 + 0x1000 * i
abbrev ROD_FIMPDONE (i : Nat) : Nat := 0x3000C + 0x1000 * i
abbrev ROD_CTRL (i : Nat) (j : Nat) : Nat := 0x30100 + 0x1000 * i + 0x100 * j
abbrev ROD_STAT (i : Nat) (j : Nat) : Nat := 0x30104 + 0x1000 * i + 0x100 * j
abbrev ROD_CAUSE (i : Nat) (j : Nat) : Nat := 0x30108 + 0x1000 * i + 0x100 * j
abbrev ROD_FAILIDX (i : Nat) (j : Nat) : Nat := 0x3010C + 0x1000 * i + 0x100 * j
abbrev ROD_CYC_LAST (i : Nat) (j : Nat) : Nat := 0x30110 + 0x1000 * i + 0x100 * j
abbrev ROD_CYC_MAX (i : Nat) (j : Nat) : Nat := 0x30114 + 0x1000 * i + 0x100 * j
abbrev ROD_WARN (i : Nat) (j : Nat) : Nat := 0x30118 + 0x1000 * i + 0x100 * j
abbrev ROD_IPEND (i : Nat) (j : Nat) : Nat := 0x3011C + 0x1000 * i + 0x100 * j
abbrev ROD_OVR_CNT (i : Nat) (j : Nat) : Nat := 0x30120 + 0x1000 * i + 0x100 * j
abbrev ROD_DECL (i : Nat) (j : Nat) : Nat := 0x30124 + 0x1000 * i + 0x100 * j
abbrev ROD_HOLDOFF (i : Nat) (j : Nat) : Nat := 0x30128 + 0x1000 * i + 0x100 * j
abbrev ROD_IMGID (i : Nat) (j : Nat) : Nat := 0x3012C + 0x1000 * i + 0x100 * j
abbrev ROD_PC (i : Nat) (j : Nat) : Nat := 0x30130 + 0x1000 * i + 0x100 * j
abbrev ROD_LISTS (i : Nat) (j : Nat) : Nat := 0x30134 + 0x1000 * i + 0x100 * j
abbrev MIX_CTRL : Nat := 0x38000
abbrev MIX_STAT : Nat := 0x38004
abbrev MIX_XPCNT : Nat := 0x38008
abbrev MIX_CYC : Nat := 0x3800C
abbrev MIX_CLIPCNT : Nat := 0x38010
abbrev MIX_MCFG : Nat := 0x38020
abbrev MIX_MCLR : Nat := 0x38024
abbrev MIX_DR_ENGAGE_LO : Nat := 0x38030
abbrev MIX_DR_ENGAGE_HI : Nat := 0x38034
abbrev MIX_DR_STATE_LO : Nat := 0x38038
abbrev MIX_DR_STATE_HI : Nat := 0x3803C
abbrev MIX_DR_LOST_LO : Nat := 0x38040
abbrev MIX_DR_LOST_HI : Nat := 0x38044
abbrev MIX_HPF_COEF (i : Nat) (j : Nat) (k : Nat) : Nat := 0x38400 + 0x50 * i + 0x14 * j + 0x4 * k
abbrev DLY_CTRL : Nat := 0x3C000
abbrev DLY_STAT : Nat := 0x3C004
abbrev DLY_LINES : Nat := 0x3C008
abbrev DLY_ALLOC : Nat := 0x3C00C
abbrev DLY_TAPS : Nat := 0x3C010
abbrev DLY_POISON_CNT : Nat := 0x3C014
abbrev DLY_ERR_TAP : Nat := 0x3C018
abbrev DLY_BW : Nat := 0x3C020
abbrev TLY_CTRL : Nat := 0x40000
abbrev TLY_STAT : Nat := 0x40004
abbrev TLY_SHADOW_FREE : Nat := 0x40008
abbrev TLY_LAST : Nat := 0x40010
abbrev TLY_LAST_LATE : Nat := 0x40014
abbrev TLY_ABORT_CNT : Nat := 0x40018
abbrev TLY_T_STAT (i : Nat) : Nat := 0x40100 + 0x20 * i
abbrev TLY_T_REC (i : Nat) : Nat := 0x40104 + 0x20 * i
abbrev TLY_T_TGT_LO (i : Nat) : Nat := 0x40108 + 0x20 * i
abbrev TLY_T_TGT_HI (i : Nat) : Nat := 0x4010C + 0x20 * i
abbrev TLY_T_XID (i : Nat) : Nat := 0x40110 + 0x20 * i
abbrev TLY_T_MEMBERS (i : Nat) : Nat := 0x40114 + 0x20 * i
abbrev SNP_CTRL : Nat := 0x44000
abbrev SNP_FIRE : Nat := 0x44004
abbrev SNP_HOLD : Nat := 0x44008
abbrev SNP_STAT : Nat := 0x4400C
abbrev SNP_SEQ : Nat := 0x44010
abbrev SNP_OVR_CNT : Nat := 0x44014
abbrev SNP_MATCH_NS : Nat := 0x44020
abbrev SNP_MATCH_SEC_LO : Nat := 0x44024
abbrev SNP_MATCH_SEC_HI : Nat := 0x44028
abbrev SNP_MATCH_CTRL : Nat := 0x4402C
abbrev SNP_CIN : Nat := 0x44030
abbrev SNP_COUT : Nat := 0x44034
abbrev SNP_FLT : Nat := 0x44038
abbrev SNP_T_NS : Nat := 0x44040
abbrev SNP_T_SEC_LO : Nat := 0x44044
abbrev SNP_T_SEC_HI : Nat := 0x44048
abbrev SNP_BLKIDX_LO : Nat := 0x4404C
abbrev SNP_BLKIDX_HI : Nat := 0x44050
abbrev SNP_EPOCH : Nat := 0x44054
abbrev SNP_POS : Nat := 0x44058
abbrev SNP_CNT_LO : Nat := 0x4405C
abbrev SNP_CNT_HI : Nat := 0x44060
abbrev SNP_STAG : Nat := 0x44064
abbrev NET_CTRL (i : Nat) : Nat := 0x10000 + 0x1000 * i
abbrev NET_STAT (i : Nat) : Nat := 0x10004 + 0x1000 * i
abbrev NET_MAC_LO (i : Nat) : Nat := 0x10008 + 0x1000 * i
abbrev NET_MAC_HI (i : Nat) : Nat := 0x1000C + 0x1000 * i
abbrev NET_IPV4 (i : Nat) : Nat := 0x10010 + 0x1000 * i
abbrev NET_MAXFRAME (i : Nat) : Nat := 0x10014 + 0x1000 * i
abbrev NET_PAUSE (i : Nat) : Nat := 0x10018 + 0x1000 * i
abbrev NET_LINK (i : Nat) : Nat := 0x1001C + 0x1000 * i
abbrev NET_RXQ (i : Nat) : Nat := 0x10020 + 0x1000 * i
abbrev NET_TSCORR (i : Nat) : Nat := 0x10024 + 0x1000 * i
abbrev NET_LT (i : Nat) : Nat := 0x10028 + 0x1000 * i
abbrev NET_Q_CTRL (i : Nat) (j : Nat) : Nat := 0x10040 + 0x1000 * i + 0x10 * j
abbrev NET_Q_SLOPE (i : Nat) (j : Nat) : Nat := 0x10044 + 0x1000 * i + 0x10 * j
abbrev NET_Q_HICRED (i : Nat) (j : Nat) : Nat := 0x10048 + 0x1000 * i + 0x10 * j
abbrev NET_Q_LOCRED (i : Nat) (j : Nat) : Nat := 0x1004C + 0x1000 * i + 0x10 * j
abbrev NET_MC_LO (i : Nat) (j : Nat) : Nat := 0x10100 + 0x1000 * i + 0x8 * j
abbrev NET_MC_HI (i : Nat) (j : Nat) : Nat := 0x10104 + 0x1000 * i + 0x8 * j
abbrev NET_RX_OK (i : Nat) : Nat := 0x10300 + 0x1000 * i
abbrev NET_RX_FCS (i : Nat) : Nat := 0x10304 + 0x1000 * i
abbrev NET_RX_LEN (i : Nat) : Nat := 0x10308 + 0x1000 * i
abbrev NET_RX_FILTERED (i : Nat) : Nat := 0x1030C + 0x1000 * i
abbrev NET_RX_NO_BUF (i : Nat) : Nat := 0x10310 + 0x1000 * i
abbrev NET_RX_PAUSE (i : Nat) : Nat := 0x10314 + 0x1000 * i
abbrev NET_TX_OK (i : Nat) : Nat := 0x10318 + 0x1000 * i
abbrev NET_TX_LATE_DROP (i : Nat) : Nat := 0x1031C + 0x1000 * i
abbrev NET_TX_FULL_DROP (i : Nat) : Nat := 0x10320 + 0x1000 * i
abbrev NET_WD_COUNT (i : Nat) : Nat := 0x10324 + 0x1000 * i
abbrev NET_FEC_CORR (i : Nat) : Nat := 0x10328 + 0x1000 * i
abbrev NET_FEC_UNCORR (i : Nat) : Nat := 0x1032C + 0x1000 * i
abbrev NET_CNT_CLR (i : Nat) : Nat := 0x10330 + 0x1000 * i
abbrev NET_PTP_PORT (i : Nat) : Nat := 0x10400 + 0x1000 * i
abbrev NET_PTP_PDLY (i : Nat) : Nat := 0x10404 + 0x1000 * i
abbrev NET_PTP_ASYM (i : Nat) : Nat := 0x10408 + 0x1000 * i
abbrev NET_PTP_CTRL : Nat := 0x10800
abbrev NET_PTP_CFG : Nat := 0x10804
abbrev NET_PTP_GM_LO : Nat := 0x10808
abbrev NET_PTP_GM_HI : Nat := 0x1080C
abbrev NET_PTP_OFS : Nat := 0x10810
abbrev NET_PTP_SLV : Nat := 0x10814
abbrev STR_CTRL : Nat := 0x18000
abbrev STR_STAT : Nat := 0x18004
abbrev STR_STORE : Nat := 0x18008
abbrev STR_RATE : Nat := 0x1800C
abbrev STR_LAST : Nat := 0x18010
abbrev STR_CLR : Nat := 0x18014
abbrev FLD_ID : Nat := 0x0
abbrev FLD_STAT : Nat := 0x1
abbrev FLD_EPOCH : Nat := 0x2
abbrev FLD_LOSS : Nat := 0x3
abbrev FLD_TWIN_CTRL : Nat := 0x4
abbrev FLD_TWIN_STAT : Nat := 0x5
abbrev FLD_USING_TWIN : Nat := 0x6
abbrev FLD_DIV : Nat := 0x7
abbrev FLD_MATCHED : Nat := 0x8
abbrev FLD_CHSTATE (i : Nat) : Nat := 0x10 + 0x1 * i
abbrev FLD_CNT_CRC : Nat := 0x20
abbrev FLD_CNT_DISCARD : Nat := 0x21
abbrev FLD_CNT_LATE : Nat := 0x22
abbrev FLD_CNT_SWITCH : Nat := 0x23
abbrev FLD_CNT_DIV : Nat := 0x24
abbrev BAR_CTRL (i : Nat) : Nat := 0x48000 + 0x1000 * i
abbrev BAR_TIMING (i : Nat) : Nat := 0x48004 + 0x1000 * i
abbrev BAR_STAT (i : Nat) : Nat := 0x48008 + 0x1000 * i
abbrev BAR_CNT_CRC (i : Nat) : Nat := 0x4800C + 0x1000 * i
abbrev BAR_CNT_GAP (i : Nat) : Nat := 0x48010 + 0x1000 * i
abbrev BAR_CNT_MISMATCH (i : Nat) : Nat := 0x48014 + 0x1000 * i
abbrev BAR_CNT_ACKFAIL (i : Nat) : Nat := 0x48018 + 0x1000 * i
abbrev BAR_CNT_LATE (i : Nat) : Nat := 0x4801C + 0x1000 * i
abbrev BAR_CNT_CLR (i : Nat) : Nat := 0x48020 + 0x1000 * i
abbrev BAR_USING_TWIN (i : Nat) : Nat := 0x48024 + 0x1000 * i
abbrev BAR_DIV (i : Nat) : Nat := 0x48028 + 0x1000 * i
abbrev BAR_EPOCH (i : Nat) : Nat := 0x4802C + 0x1000 * i
abbrev BAR_FAULT_LAST (i : Nat) : Nat := 0x48030 + 0x1000 * i
abbrev BAR_CHMAP (i : Nat) (j : Nat) : Nat := 0x48100 + 0x1000 * i + 0x4 * j
abbrev PWM_DIE_CTRL : Nat := 0x1000
abbrev PWM_DIE_STAT : Nat := 0x1001
abbrev PWM_CH_CTRL (i : Nat) : Nat := 0x1100 + 0x10 * i
abbrev PWM_CH_DT (i : Nat) : Nat := 0x1101 + 0x10 * i
abbrev PWM_CH_PHASE (i : Nat) : Nat := 0x1102 + 0x10 * i
abbrev PWM_CH_QUIET (i : Nat) : Nat := 0x1103 + 0x10 * i
abbrev PWM_CH_RAW_PER (i : Nat) : Nat := 0x1104 + 0x10 * i
abbrev PWM_CH_RAW_DUTY (i : Nat) : Nat := 0x1105 + 0x10 * i
abbrev PWM_CH_STAT (i : Nat) : Nat := 0x1106 + 0x10 * i
abbrev PWM_CH_CNT (i : Nat) : Nat := 0x1107 + 0x10 * i
abbrev PWM_CH_U (i : Nat) : Nat := 0x1108 + 0x10 * i
abbrev PRT_DIE_CTRL : Nat := 0x2000
abbrev PRT_SCALE : Nat := 0x2001
abbrev PRT_RAIL_SCALE : Nat := 0x2002
abbrev PRT_TS_SCALE : Nat := 0x2003
abbrev PRT_SUPPLY : Nat := 0x2004
abbrev PRT_PS_FOLD : Nat := 0x2005
abbrev PRT_PS_SHUT : Nat := 0x2006
abbrev PRT_FOLD_RATE : Nat := 0x2007
abbrev PRT_RAIL_STAT : Nat := 0x2008
abbrev PRT_TS01 : Nat := 0x2009
abbrev PRT_TS23 : Nat := 0x200A
abbrev PRT_SENSE_BAD : Nat := 0x200B
abbrev PRT_CH_CTRL (i : Nat) : Nat := 0x2100 + 0x20 * i
abbrev PRT_CH_OC (i : Nat) : Nat := 0x2101 + 0x20 * i
abbrev PRT_CH_TH (i : Nat) : Nat := 0x2102 + 0x20 * i
abbrev PRT_CH_TSHUT (i : Nat) : Nat := 0x2103 + 0x20 * i
abbrev PRT_CH_RTH_C (i : Nat) : Nat := 0x2104 + 0x20 * i
abbrev PRT_CH_RTH_M (i : Nat) : Nat := 0x2105 + 0x20 * i
abbrev PRT_CH_RE (i : Nat) : Nat := 0x2106 + 0x20 * i
abbrev PRT_CH_RECAL (i : Nat) : Nat := 0x2107 + 0x20 * i
abbrev PRT_CH_AMB (i : Nat) : Nat := 0x2108 + 0x20 * i
abbrev PRT_CH_XLIM (i : Nat) : Nat := 0x2109 + 0x20 * i
abbrev PRT_CH_DC (i : Nat) : Nat := 0x210A + 0x20 * i
abbrev PRT_CH_DCS (i : Nat) : Nat := 0x210B + 0x20 * i
abbrev PRT_CH_VOUT (i : Nat) : Nat := 0x210C + 0x20 * i
abbrev PRT_CH_CHECK (i : Nat) : Nat := 0x210D + 0x20 * i
abbrev PRT_CH_STAT (i : Nat) : Nat := 0x2110 + 0x20 * i
abbrev PRT_CH_TEMP (i : Nat) : Nat := 0x2111 + 0x20 * i
abbrev PRT_CH_CUT (i : Nat) : Nat := 0x2112 + 0x20 * i
abbrev PRT_CH_RE_NOW (i : Nat) : Nat := 0x2113 + 0x20 * i
abbrev PRT_CH_X (i : Nat) : Nat := 0x2114 + 0x20 * i
abbrev PRT_CH_CNT (i : Nat) : Nat := 0x2115 + 0x20 * i
abbrev PRT_CH_CLIP (i : Nat) : Nat := 0x2116 + 0x20 * i
abbrev PRT_CH_MMS (i : Nat) : Nat := 0x2800 + 0x20 * i
abbrev PRT_CH_RMS (i : Nat) : Nat := 0x2801 + 0x20 * i
abbrev PRT_CH_BL (i : Nat) (j : Nat) : Nat := 0x2802 + 0x20 * i + 0x1 * j
abbrev PRT_CH_KMS (i : Nat) (j : Nat) : Nat := 0x2807 + 0x20 * i + 0x1 * j
abbrev PRT_CH_LE (i : Nat) (j : Nat) : Nat := 0x280C + 0x20 * i + 0x1 * j
abbrev DIAG_CTRL : Nat := 0x3000
abbrev DIAG_FLOOR : Nat := 0x3001
abbrev DIAG_STAT : Nat := 0x3002
abbrev DIAG_CH_CTRL (i : Nat) : Nat := 0x3100 + 0x10 * i
abbrev DIAG_CH_ZREF (i : Nat) : Nat := 0x3101 + 0x10 * i
abbrev DIAG_CH_ZSREF (i : Nat) : Nat := 0x3102 + 0x10 * i
abbrev DIAG_CH_ZRE (i : Nat) : Nat := 0x3103 + 0x10 * i
abbrev DIAG_CH_ZIM (i : Nat) : Nat := 0x3104 + 0x10 * i
abbrev DIAG_CH_STAT (i : Nat) : Nat := 0x3105 + 0x10 * i
abbrev HIF_CTRL : Nat := 0x1000
abbrev HIF_STAT : Nat := 0x1004
abbrev HIF_DBPAGE_LO : Nat := 0x1008
abbrev HIF_DBPAGE_HI : Nat := 0x100C
abbrev HIF_KICK : Nat := 0x1010
abbrev HIF_MISC_VEC : Nat := 0x1014
abbrev HIF_ERR_INFO : Nat := 0x1018
abbrev HIF_ERR_ADDR_LO : Nat := 0x101C
abbrev HIF_ERR_ADDR_HI : Nat := 0x1020
abbrev HIF_QP_SQ_LO (i : Nat) : Nat := 0x1800 + 0x20 * i
abbrev HIF_QP_SQ_HI (i : Nat) : Nat := 0x1804 + 0x20 * i
abbrev HIF_QP_CQ_LO (i : Nat) : Nat := 0x1808 + 0x20 * i
abbrev HIF_QP_CQ_HI (i : Nat) : Nat := 0x180C + 0x20 * i
abbrev HIF_QP_CFG (i : Nat) : Nat := 0x1810 + 0x20 * i
abbrev HIF_QP_CTRL (i : Nat) : Nat := 0x1814 + 0x20 * i
abbrev HIF_QP_RESUME (i : Nat) : Nat := 0x1818 + 0x20 * i
abbrev HIF_QP_STAT (i : Nat) : Nat := 0x181C + 0x20 * i
abbrev STK_CTRL : Nat := 0x8000
abbrev STK_STAT : Nat := 0x8004
abbrev STK_MEMBERS : Nat := 0x8008
abbrev STK_HB : Nat := 0x800C
abbrev STK_LINK_STAT (i : Nat) : Nat := 0x8020 + 0x8 * i
abbrev STK_LINK_DELAY (i : Nat) : Nat := 0x8024 + 0x8 * i
abbrev STK_ROUTE : Nat := 0x8040
abbrev STK_TOFS : Nat := 0x8044
abbrev STK_CNT_CRC : Nat := 0x8050
abbrev STK_CNT_LATE : Nat := 0x8054
abbrev STK_CNT_TAKEOVER : Nat := 0x8058
abbrev FLT_CTRL : Nat := 0x4000
abbrev FLT_STAT : Nat := 0x4004
abbrev FLT_FIRST : Nat := 0x4008
abbrev FLT_LAST : Nat := 0x400C
abbrev FLT_SEL : Nat := 0x4010
abbrev FLT_CFG : Nat := 0x4014
abbrev FLT_CFG_GRP : Nat := 0x4018
abbrev FLT_FORCE : Nat := 0x401C
abbrev FLT_UNFENCE : Nat := 0x4020
abbrev FLT_CLR_GRP : Nat := 0x4024
abbrev FLT_SELFTEST : Nat := 0x4028
abbrev FLT_GSUM_LO : Nat := 0x4030
abbrev FLT_GSUM_HI : Nat := 0x4034
abbrev FLT_THERM : Nat := 0x4040
abbrev FLT_THERM_H01 : Nat := 0x4044
abbrev FLT_THERM_H23 : Nat := 0x4048
abbrev FLT_THERM_DRAM : Nat := 0x404C
abbrev FLT_STAT_LO (i : Nat) : Nat := 0x4200 + 0x8 * i
abbrev FLT_STAT_HI (i : Nat) : Nat := 0x4204 + 0x8 * i
abbrev FLT_CNT (i : Nat) : Nat := 0x4400 + 0x4 * i
abbrev EVR_STAT : Nat := 0x5000
abbrev EVR_COUNT : Nat := 0x5004
abbrev EVR_COMMITTED : Nat := 0x5008
abbrev EVR_DROPPED : Nat := 0x500C
abbrev EVR_BUF_DROP : Nat := 0x5010
abbrev EVR_SUPP_TOTAL : Nat := 0x5014
abbrev EVR_OPTIME_F : Nat := 0x5018
abbrev EVR_OPTIME_S : Nat := 0x501C
abbrev EVR_PCC : Nat := 0x5020
abbrev EVR_EPOCH : Nat := 0x5024
abbrev EVR_SEAL_SEL : Nat := 0x5028
abbrev EVR_SEAL : Nat := 0x502C
abbrev EVR_HOST_DATUM : Nat := 0x5030
abbrev EVR_HOST : Nat := 0x5034
abbrev EVR_CLEAR : Nat := 0x5038
abbrev EVR_RL_GRP (i : Nat) : Nat := 0x5100 + 0x4 * i
abbrev EVR_RL_OVR (i : Nat) : Nat := 0x5200 + 0x4 * i
abbrev BOOT_STAT : Nat := 0x6000
abbrev BOOT_FWVER : Nat := 0x6004
abbrev BOOT_ARB : Nat := 0x6008
abbrev BOOT_KEYS : Nat := 0x600C
abbrev BOOT_STAGE : Nat := 0x6010
abbrev BOOT_STAGE_HIGH : Nat := 0x6014
abbrev BOOT_STORE_GEN : Nat := 0x6018
abbrev BOOT_HDR_GEN : Nat := 0x601C
abbrev BOOT_CTRL : Nat := 0x6020
abbrev BOOT_PFAIL : Nat := 0x6024
abbrev BOOT_PFAIL_TIME : Nat := 0x6028
abbrev BOOT_MB_ADDR_LO : Nat := 0x6100
abbrev BOOT_MB_ADDR_HI : Nat := 0x6104
abbrev BOOT_MB_OFFSET : Nat := 0x6108
abbrev BOOT_MB_LEN : Nat := 0x610C
abbrev BOOT_MB_CRC : Nat := 0x6110
abbrev BOOT_MB_CMD : Nat := 0x6114
abbrev BOOT_MB_STAT : Nat := 0x6118
abbrev MGT_CTRL : Nat := 0x7000
abbrev MGT_ADDR : Nat := 0x7004
abbrev MGT_FILT : Nat := 0x7008
abbrev MGT_TIMEOUT : Nat := 0x700C
abbrev MGT_ATTN_CFG : Nat := 0x7010
abbrev MGT_ATTN : Nat := 0x7014
abbrev MGT_STAT : Nat := 0x7018
abbrev MGT_CNT : Nat := 0x701C
abbrev MGT_HOSTBUF (i : Nat) : Nat := 0x7080 + 0x4 * i
abbrev MGT_CTRLBUF (i : Nat) : Nat := 0x70C0 + 0x4 * i
abbrev MGT_PAGE (i : Nat) : Nat := 0x7100 + 0x4 * i

/-- MSI-X table entry `n`: message address low and high, data and vector control (R420). -/
abbrev MSIX_ADDR_LO (n : Nat) : Nat := 0xF0000 + 16 * n
abbrev MSIX_ADDR_HI (n : Nat) : Nat := 0xF0004 + 16 * n
abbrev MSIX_DATA (n : Nat) : Nat := 0xF0008 + 16 * n
abbrev MSIX_VCTRL (n : Nat) : Nat := 0xF000C + 16 * n
/-- The MSI-X pending-bit array, two words (R420). -/
abbrev MSIX_PBA (i : Nat) : Nat := 0xF8000 + 4 * i

end Reg

namespace F

abbrev SYS_ID_VARIANT : Fld := ⟨0, 4⟩
abbrev SYS_ID_STEP : Fld := ⟨4, 4⟩
abbrev SYS_ID_PART : Fld := ⟨16, 16⟩
abbrev SYS_LOCK_LOCK : Fld := ⟨0, 1⟩
abbrev SYS_BLKCFG_FS : Fld := ⟨0, 2⟩
abbrev SYS_BLKCFG_BLK : Fld := ⟨4, 2⟩
abbrev SYS_BLKCFG_REFUSED : Fld := ⟨31, 1⟩
abbrev SYS_PIPE_RUN : Fld := ⟨0, 1⟩
abbrev SYS_PIPE_RUNNING : Fld := ⟨1, 1⟩
abbrev SYS_PIPE_SLEW : Fld := ⟨2, 1⟩
abbrev SYS_PIPE_REBASED : Fld := ⟨3, 1⟩
abbrev SYS_BLKIDX_LO_INDEX_LO : Fld := ⟨0, 32⟩
abbrev SYS_BLKIDX_HI_INDEX_HI : Fld := ⟨0, 32⟩
abbrev SYS_EPOCH_EPOCH : Fld := ⟨0, 32⟩
abbrev SYS_ORDINAL_Q : Fld := ⟨0, 32⟩
abbrev SYS_ECC_CE_ROD_COUNT : Fld := ⟨0, 16⟩
abbrev SYS_ECC_CE_ROD_CLR : Fld := ⟨31, 1⟩
abbrev SYS_ECC_CE_FRAME_COUNT : Fld := ⟨0, 16⟩
abbrev SYS_ECC_CE_FRAME_CLR : Fld := ⟨31, 1⟩
abbrev SYS_ECC_CE_GSRAM_COUNT : Fld := ⟨0, 16⟩
abbrev SYS_ECC_CE_GSRAM_CLR : Fld := ⟨31, 1⟩
abbrev SYS_ECC_CE_DRAM_COUNT : Fld := ⟨0, 16⟩
abbrev SYS_ECC_CE_DRAM_CLR : Fld := ⟨31, 1⟩
abbrev SYS_ECC_CE_BRASS_COUNT : Fld := ⟨0, 16⟩
abbrev SYS_ECC_CE_BRASS_CLR : Fld := ⟨31, 1⟩
abbrev MTX_CTRL_AGE_EN : Fld := ⟨0, 1⟩
abbrev MTX_CTRL_PARK_EN : Fld := ⟨1, 1⟩
abbrev MTX_AGE_LIMIT : Fld := ⟨0, 16⟩
abbrev MTX_TIMEOUT_CYCLES : Fld := ⟨0, 16⟩
abbrev MTX_FENCE_M_MASTER : Fld := ⟨0, 16⟩
abbrev MTX_FENCE_T_TARGET : Fld := ⟨0, 24⟩
abbrev MTX_ERR_INFO_MASTER : Fld := ⟨0, 4⟩
abbrev MTX_ERR_INFO_TARGET : Fld := ⟨8, 5⟩
abbrev MTX_ERR_INFO_TYPE : Fld := ⟨16, 3⟩
abbrev MTX_ERR_INFO_VALID : Fld := ⟨31, 1⟩
abbrev MTX_ERR_CNT_COUNT : Fld := ⟨0, 16⟩
abbrev MTX_PRI_LO_PRI0 : Fld := ⟨0, 4⟩
abbrev MTX_PRI_LO_PRI1 : Fld := ⟨4, 4⟩
abbrev MTX_PRI_LO_PRI2 : Fld := ⟨8, 4⟩
abbrev MTX_PRI_LO_PRI3 : Fld := ⟨12, 4⟩
abbrev MTX_PRI_LO_PRI4 : Fld := ⟨16, 4⟩
abbrev MTX_PRI_LO_PRI5 : Fld := ⟨20, 4⟩
abbrev MTX_PRI_LO_PRI6 : Fld := ⟨24, 4⟩
abbrev MTX_PRI_LO_PRI7 : Fld := ⟨28, 4⟩
abbrev MTX_PRI_HI_PRI0 : Fld := ⟨0, 4⟩
abbrev MTX_PRI_HI_PRI1 : Fld := ⟨4, 4⟩
abbrev MTX_PRI_HI_PRI2 : Fld := ⟨8, 4⟩
abbrev MTX_PRI_HI_PRI3 : Fld := ⟨12, 4⟩
abbrev MTX_PRI_HI_PRI4 : Fld := ⟨16, 4⟩
abbrev MTX_PRI_HI_PRI5 : Fld := ⟨20, 4⟩
abbrev MTX_PRI_HI_PRI6 : Fld := ⟨24, 4⟩
abbrev MTX_PRI_HI_PRI7 : Fld := ⟨28, 4⟩
abbrev CLK_STAT_XO_OK : Fld := ⟨0, 1⟩
abbrev CLK_STAT_MSYN_LOCK : Fld := ⟨1, 1⟩
abbrev CLK_STAT_TIME_PLL_LOCK : Fld := ⟨2, 1⟩
abbrev CLK_STAT_STEER_LIM : Fld := ⟨3, 1⟩
abbrev REF_CTRL_EN : Fld := ⟨0, 1⟩
abbrev REF_CTRL_MODE : Fld := ⟨1, 1⟩
abbrev REF_CTRL_REVERT : Fld := ⟨2, 1⟩
abbrev REF_CTRL_TIME_FOLLOW : Fld := ⟨3, 1⟩
abbrev REF_CTRL_FAST_EN : Fld := ⟨4, 1⟩
abbrev REF_CTRL_HOLD_EN : Fld := ⟨5, 1⟩
abbrev REF_SEL_CAND : Fld := ⟨0, 5⟩
abbrev REF_STAT_STATE : Fld := ⟨0, 3⟩
abbrev REF_STAT_HIST_OK : Fld := ⟨3, 1⟩
abbrev REF_STAT_PSTEP_BUSY : Fld := ⟨4, 1⟩
abbrev REF_STAT_SEL : Fld := ⟨8, 5⟩
abbrev REF_STAT_BW_NOW : Fld := ⟨16, 5⟩
abbrev REF_STEER_S : Fld := ⟨0, 32⟩
abbrev REF_FR_STEER_S : Fld := ⟨0, 32⟩
abbrev REF_PHERR_E : Fld := ⟨0, 32⟩
abbrev REF_BUILDOUT_B : Fld := ⟨0, 32⟩
abbrev REF_PSTEP_X : Fld := ⟨0, 24⟩
abbrev REF_POFS_POFS : Fld := ⟨0, 32⟩
abbrev REF_LOCKCFG_LOCK_WIN : Fld := ⟨0, 16⟩
abbrev REF_LOCKCFG_UNLOCK_WIN : Fld := ⟨16, 16⟩
abbrev REF_LOCKCNT_LOCK_CNT : Fld := ⟨0, 8⟩
abbrev REF_PULL_PULL : Fld := ⟨0, 10⟩
abbrev REF_PULL_MAX_DF : Fld := ⟨16, 8⟩
abbrev REF_LIMITS_ACCEPT : Fld := ⟨0, 8⟩
abbrev REF_LIMITS_REJECT : Fld := ⟨8, 8⟩
abbrev REF_LIMITS_QUAL_TIME : Fld := ⟨16, 8⟩
abbrev REF_LIMITS_REVERT_WAIT : Fld := ⟨24, 8⟩
abbrev REF_HOLDCFG_HOLD_AVG : Fld := ⟨0, 12⟩
abbrev REF_HOLDCFG_HOLD_GUARD : Fld := ⟨16, 8⟩
abbrev REF_TEMP_SRC : Fld := ⟨0, 1⟩
abbrev REF_TEMP_XO_TEMP_BAD : Fld := ⟨1, 1⟩
abbrev REF_TEMP_THETA : Fld := ⟨16, 16⟩
abbrev REF_TCOEF_K1 : Fld := ⟨0, 16⟩
abbrev REF_TCOEF_K2 : Fld := ⟨16, 16⟩
abbrev REF_THETA0_THETA0 : Fld := ⟨0, 16⟩
abbrev REF_AGE_A : Fld := ⟨0, 16⟩
abbrev REF_AGE_AGE_MODE : Fld := ⟨16, 2⟩
abbrev REF_AGE_A_VALID : Fld := ⟨18, 1⟩
abbrev REF_AGE_AGE_WIN : Fld := ⟨24, 5⟩
abbrev REF_HOLDINFO_S_S_H : Fld := ⟨0, 32⟩
abbrev REF_HOLDINFO_T_THETA_H : Fld := ⟨0, 16⟩
abbrev REF_CAND_EN : Fld := ⟨0, 1⟩
abbrev REF_CAND_PRIO : Fld := ⟨4, 4⟩
abbrev REF_CAND_BW : Fld := ⟨8, 5⟩
abbrev REF_CAND_TYPE : Fld := ⟨16, 2⟩
abbrev REF_CAND_WC_RATE : Fld := ⟨18, 2⟩
abbrev REF_CSTAT_ACTIVE : Fld := ⟨0, 1⟩
abbrev REF_CSTAT_QUALIFIED : Fld := ⟨1, 1⟩
abbrev REF_CSTAT_STEP_REFUSED : Fld := ⟨2, 1⟩
abbrev REF_CSTAT_DISQ : Fld := ⟨3, 1⟩
abbrev REF_CSTAT_FOFS : Fld := ⟨16, 16⟩
abbrev TIME_CTRL_FORCE : Fld := ⟨0, 1⟩
abbrev TIME_CTRL_PPS_EN : Fld := ⟨1, 1⟩
abbrev TIME_CTRL_PPS_GATE : Fld := ⟨2, 1⟩
abbrev TIME_STAT_VALID : Fld := ⟨0, 1⟩
abbrev TIME_STAT_JUMP_REFUSED : Fld := ⟨1, 1⟩
abbrev TIME_STAT_FORCED : Fld := ⟨2, 1⟩
abbrev TIME_STAT_RATE_REFUSED : Fld := ⟨3, 1⟩
abbrev TIME_STAT_ADJ_BUSY : Fld := ⟨4, 1⟩
abbrev TIME_STAT_ARG_REFUSED : Fld := ⟨5, 1⟩
abbrev TIME_JUMP_MAX_NS : Fld := ⟨0, 32⟩
abbrev TIME_REFUSED_NS_DELTA : Fld := ⟨0, 32⟩
abbrev TIME_RATE_RHO : Fld := ⟨0, 32⟩
abbrev TIME_CNT_LO_CNT_LO : Fld := ⟨0, 32⟩
abbrev TIME_CNT_HI_CNT_HI : Fld := ⟨0, 32⟩
abbrev TIME_NOW_FRAC_FRAC : Fld := ⟨0, 16⟩
abbrev TIME_NOW_NS_NS : Fld := ⟨0, 30⟩
abbrev TIME_NOW_SEC_LO_SEC_LO : Fld := ⟨0, 32⟩
abbrev TIME_NOW_SEC_HI_SEC_HI : Fld := ⟨0, 16⟩
abbrev TIME_BASE_CNT_LO_BASE_LO : Fld := ⟨0, 32⟩
abbrev TIME_BASE_CNT_HI_BASE_HI : Fld := ⟨0, 32⟩
abbrev TIME_OFS_FRAC_FRAC : Fld := ⟨0, 16⟩
abbrev TIME_OFS_NS_NS : Fld := ⟨0, 30⟩
abbrev TIME_OFS_SEC_LO_SEC_LO : Fld := ⟨0, 32⟩
abbrev TIME_OFS_SEC_HI_SEC_HI : Fld := ⟨0, 16⟩
abbrev TIME_ADJ_NS_NS : Fld := ⟨0, 32⟩
abbrev TIME_ADJ_FRAC_FRAC : Fld := ⟨0, 16⟩
abbrev TIME_SETV_NS_NS : Fld := ⟨0, 30⟩
abbrev TIME_SETV_SEC_LO_SEC_LO : Fld := ⟨0, 32⟩
abbrev TIME_SETV_SEC_HI_SEC_HI : Fld := ⟨0, 16⟩
abbrev TIME_ADJ_GO_GO : Fld := ⟨0, 1⟩
abbrev TIME_ADJ_GO_ABS : Fld := ⟨1, 1⟩
abbrev TIME_PPS_OFS : Fld := ⟨0, 24⟩
abbrev TIME_PPS_W_WIDTH : Fld := ⟨0, 10⟩
abbrev FAB_CTRL_RESUME_RAMP : Fld := ⟨0, 1⟩
abbrev FAB_GEOM_BEAD_BYTES : Fld := ⟨0, 16⟩
abbrev FAB_GEOM_CHANNELS : Fld := ⟨16, 16⟩
abbrev FAB_STAT_NONOWNER : Fld := ⟨0, 1⟩
abbrev FAB_STAT_LATE : Fld := ⟨1, 1⟩
abbrev FAB_STAT_MISSING : Fld := ⟨2, 1⟩
abbrev FAB_STAT_POISON : Fld := ⟨3, 1⟩
abbrev FAB_STAT_GRP_REFUSED : Fld := ⟨4, 1⟩
abbrev FAB_NONOWNER_LAST_CH : Fld := ⟨0, 10⟩
abbrev FAB_NONOWNER_COUNT : Fld := ⟨16, 16⟩
abbrev FAB_MISS_CNT_COUNT : Fld := ⟨0, 31⟩
abbrev FAB_MISS_CNT_CLR : Fld := ⟨31, 1⟩
abbrev FAB_PORTLIM_ACCEPT : Fld := ⟨0, 8⟩
abbrev FAB_PORTLIM_REJECT : Fld := ⟨8, 8⟩
abbrev FAB_PORTLIM_QUAL : Fld := ⟨16, 8⟩
abbrev FAB_PORTLIM_ASRC_RANGE : Fld := ⟨24, 8⟩
abbrev FAB_AGRP_MEM_TDM : Fld := ⟨0, 16⟩
abbrev FAB_AGRP_MEM_BPH : Fld := ⟨16, 16⟩
abbrev FAB_AGRP_STAT_PHI0 : Fld := ⟨0, 16⟩
abbrev FAB_AGRP_STAT_PHASE_VALID : Fld := ⟨16, 1⟩
abbrev FAB_AGRP_STAT_SLIP : Fld := ⟨17, 1⟩
abbrev FAB_AGRP_STAT_REJOIN : Fld := ⟨18, 1⟩
abbrev FAB_TAG_TAGS : Fld := ⟨0, 32⟩
abbrev FAB_OWNER_INST : Fld := ⟨0, 12⟩
abbrev FAB_OWNER_CLASS : Fld := ⟨12, 4⟩
abbrev TDM_CTRL_MODE : Fld := ⟨0, 2⟩
abbrev TDM_CTRL_MASTER : Fld := ⟨2, 1⟩
abbrev TDM_CTRL_GRID : Fld := ⟨3, 1⟩
abbrev TDM_CTRL_WORD : Fld := ⟨4, 2⟩
abbrev TDM_CTRL_DLY1 : Fld := ⟨6, 1⟩
abbrev TDM_CTRL_FSW : Fld := ⟨7, 1⟩
abbrev TDM_CTRL_FS_POL : Fld := ⟨8, 1⟩
abbrev TDM_CTRL_BCLK_EDGE : Fld := ⟨9, 1⟩
abbrev TDM_CTRL_TRI : Fld := ⟨10, 1⟩
abbrev TDM_CTRL_ASRC : Fld := ⟨11, 1⟩
abbrev TDM_CTRL_SLOTS : Fld := ⟨16, 5⟩
abbrev TDM_RATE_NOM_HZ : Fld := ⟨0, 18⟩
abbrev TDM_DIV_FRAC : Fld := ⟨0, 24⟩
abbrev TDM_DIV_INT : Fld := ⟨24, 8⟩
abbrev TDM_IN_MASK_MASK : Fld := ⟨0, 32⟩
abbrev TDM_OUT_MASK_MASK : Fld := ⟨0, 32⟩
abbrev TDM_CHBASE_IN_BASE : Fld := ⟨0, 10⟩
abbrev TDM_CHBASE_OUT_BASE : Fld := ⟨16, 10⟩
abbrev TDM_STAT_STATE : Fld := ⟨0, 2⟩
abbrev TDM_STAT_REFUSED : Fld := ⟨2, 1⟩
abbrev TDM_STAT_MISFRAME : Fld := ⟨3, 1⟩
abbrev TDM_STAT_SLIP : Fld := ⟨4, 1⟩
abbrev TDM_STAT_REJOIN : Fld := ⟨5, 1⟩
abbrev TDM_STAT_RAW_FULL : Fld := ⟨6, 1⟩
abbrev TDM_STAT_FENCED : Fld := ⟨7, 1⟩
abbrev TDM_FOFS_FOFS : Fld := ⟨0, 32⟩
abbrev TDM_SLIPCNT_UNDER : Fld := ⟨0, 16⟩
abbrev TDM_SLIPCNT_OVER : Fld := ⟨16, 16⟩
abbrev TDM_ERRCNT_MISFRAME : Fld := ⟨0, 16⟩
abbrev TDM_ERRCNT_LOST : Fld := ⟨16, 16⟩
abbrev TDM_REJOIN_DROPPED : Fld := ⟨0, 16⟩
abbrev TDM_REJOIN_REPEATED : Fld := ⟨16, 16⟩
abbrev TDM_PHASE_PHI0 : Fld := ⟨0, 16⟩
abbrev TDM_PHASE_D2 : Fld := ⟨16, 1⟩
abbrev TDM_RAW_BASE_BASE : Fld := ⟨6, 26⟩
abbrev TDM_RAW_LEN_LEN : Fld := ⟨0, 25⟩
abbrev TDM_RAW_CTRL_PACK3 : Fld := ⟨0, 1⟩
abbrev TDM_RAW_CTRL_WRAP : Fld := ⟨1, 1⟩
abbrev TDM_RAW_CTRL_ARM : Fld := ⟨2, 1⟩
abbrev TDM_RAW_WPTR_WPTR : Fld := ⟨0, 25⟩
abbrev TDM_RAW_FRAMES_FRAMES : Fld := ⟨0, 32⟩
abbrev BPH_RX_CTRL_EN : Fld := ⟨0, 1⟩
abbrev BPH_RX_CTRL_ASRC : Fld := ⟨1, 1⟩
abbrev BPH_RX_CTRL_VAL_ACT : Fld := ⟨2, 1⟩
abbrev BPH_RX_CTRL_CH_BASE : Fld := ⟨16, 10⟩
abbrev BPH_RX_RATE_NOM_HZ : Fld := ⟨0, 18⟩
abbrev BPH_RX_STAT_STATE : Fld := ⟨0, 2⟩
abbrev BPH_RX_STAT_LOCK : Fld := ⟨2, 1⟩
abbrev BPH_RX_STAT_PRO : Fld := ⟨3, 1⟩
abbrev BPH_RX_STAT_CODE_ERR : Fld := ⟨4, 1⟩
abbrev BPH_RX_STAT_PARITY_ERR : Fld := ⟨5, 1⟩
abbrev BPH_RX_STAT_CRCC_ERR : Fld := ⟨6, 1⟩
abbrev BPH_RX_STAT_CS_NEW : Fld := ⟨7, 1⟩
abbrev BPH_RX_STAT_V_SEEN : Fld := ⟨8, 1⟩
abbrev BPH_RX_STAT_MISFRAME : Fld := ⟨9, 1⟩
abbrev BPH_RX_STAT_SLIP : Fld := ⟨10, 1⟩
abbrev BPH_RX_STAT_REJOIN : Fld := ⟨11, 1⟩
abbrev BPH_RX_FOFS_FOFS : Fld := ⟨0, 32⟩
abbrev BPH_RX_ERRCNT_ERR : Fld := ⟨0, 16⟩
abbrev BPH_RX_ERRCNT_MISFRAME : Fld := ⟨16, 16⟩
abbrev BPH_RX_SLIPCNT_UNDER : Fld := ⟨0, 16⟩
abbrev BPH_RX_SLIPCNT_OVER : Fld := ⟨16, 16⟩
abbrev BPH_RX_REJOIN_DROPPED : Fld := ⟨0, 16⟩
abbrev BPH_RX_REJOIN_REPEATED : Fld := ⟨16, 16⟩
abbrev BPH_RX_PHASE_PHI0 : Fld := ⟨0, 16⟩
abbrev BPH_RX_PHASE_D2 : Fld := ⟨16, 1⟩
abbrev BPH_RX_CSSEQ_SEQ : Fld := ⟨0, 32⟩
abbrev BPH_RX_CS_A_DATA : Fld := ⟨0, 32⟩
abbrev BPH_RX_CS_B_DATA : Fld := ⟨0, 32⟩
abbrev BPH_RX_U_A_DATA : Fld := ⟨0, 32⟩
abbrev BPH_RX_U_B_DATA : Fld := ⟨0, 32⟩
abbrev BPH_TX_CTRL_EN : Fld := ⟨0, 1⟩
abbrev BPH_TX_CTRL_CRCC_AUTO : Fld := ⟨1, 1⟩
abbrev BPH_TX_CTRL_V_SRC : Fld := ⟨2, 2⟩
abbrev BPH_TX_CTRL_CH_BASE : Fld := ⟨16, 10⟩
abbrev BPH_TX_STAT_RUNNING : Fld := ⟨0, 1⟩
abbrev BPH_TX_STAT_FENCED : Fld := ⟨1, 1⟩
abbrev BPH_TX_STAT_CS_PEND : Fld := ⟨2, 1⟩
abbrev BPH_TX_CSGO_GO : Fld := ⟨0, 1⟩
abbrev BPH_TX_CS_A_DATA : Fld := ⟨0, 32⟩
abbrev BPH_TX_CS_B_DATA : Fld := ⟨0, 32⟩
abbrev BPH_TX_U_A_DATA : Fld := ⟨0, 32⟩
abbrev BPH_TX_U_B_DATA : Fld := ⟨0, 32⟩
abbrev ASRC_CH_EN : Fld := ⟨0, 1⟩
abbrev ASRC_CH_SRC : Fld := ⟨1, 1⟩
abbrev ASRC_CH_PORT : Fld := ⟨2, 4⟩
abbrev ASRC_CH_SLOT : Fld := ⟨6, 5⟩
abbrev ASRC_CH_CH : Fld := ⟨16, 10⟩
abbrev ASRC_STAT_LOCK : Fld := ⟨0, 1⟩
abbrev ASRC_STAT_RANGE_ERR : Fld := ⟨1, 1⟩
abbrev ASRC_RATIO_RATIO : Fld := ⟨0, 32⟩
abbrev ROD_FSTAT_IMPORT_LATE : Fld := ⟨0, 1⟩
abbrev ROD_FSTAT_EXPORT_LATE : Fld := ⟨1, 1⟩
abbrev ROD_FSTAT_LOADING : Fld := ⟨2, 1⟩
abbrev ROD_FLINES_IMP : Fld := ⟨0, 16⟩
abbrev ROD_FLINES_EXP : Fld := ⟨16, 16⟩
abbrev ROD_FWORDS_IMP : Fld := ⟨0, 16⟩
abbrev ROD_FWORDS_EXP : Fld := ⟨16, 16⟩
abbrev ROD_FIMPDONE_CYCLES : Fld := ⟨0, 20⟩
abbrev ROD_CTRL_EN : Fld := ⟨0, 1⟩
abbrev ROD_CTRL_HALT_REQ : Fld := ⟨1, 1⟩
abbrev ROD_CTRL_UNFENCE : Fld := ⟨2, 1⟩
abbrev ROD_CTRL_CLR_STATS : Fld := ⟨3, 1⟩
abbrev ROD_STAT_STATE : Fld := ⟨0, 3⟩
abbrev ROD_STAT_KIND : Fld := ⟨3, 1⟩
abbrev ROD_STAT_FAILS : Fld := ⟨4, 2⟩
abbrev ROD_STAT_IN_PASS : Fld := ⟨6, 1⟩
abbrev ROD_CAUSE_CAUSE : Fld := ⟨0, 4⟩
abbrev ROD_CAUSE_PC : Fld := ⟨16, 13⟩
abbrev ROD_CAUSE_VALID : Fld := ⟨31, 1⟩
abbrev ROD_FAILIDX_INDEX : Fld := ⟨0, 32⟩
abbrev ROD_CYC_LAST_CYCLES : Fld := ⟨0, 20⟩
abbrev ROD_CYC_MAX_CYCLES : Fld := ⟨0, 20⟩
abbrev ROD_WARN_CYCLES : Fld := ⟨0, 20⟩
abbrev ROD_IPEND_TRAP : Fld := ⟨0, 1⟩
abbrev ROD_IPEND_WARN : Fld := ⟨1, 1⟩
abbrev ROD_IPEND_MBOX : Fld := ⟨2, 1⟩
abbrev ROD_OVR_CNT_OVERRUNS : Fld := ⟨0, 16⟩
abbrev ROD_OVR_CNT_FAILED : Fld := ⟨16, 16⟩
abbrev ROD_DECL_FIXED : Fld := ⟨0, 16⟩
abbrev ROD_DECL_PER_SAMPLE : Fld := ⟨16, 16⟩
abbrev ROD_HOLDOFF_ISSUES : Fld := ⟨0, 16⟩
abbrev ROD_IMGID_BUILD : Fld := ⟨0, 32⟩
abbrev ROD_PC_PC : Fld := ⟨0, 13⟩
abbrev ROD_LISTS_IMP_N : Fld := ⟨0, 7⟩
abbrev ROD_LISTS_EXP_N : Fld := ⟨8, 7⟩
abbrev MIX_CTRL_EN : Fld := ⟨0, 1⟩
abbrev MIX_CTRL_DR_EN : Fld := ⟨1, 1⟩
abbrev MIX_STAT_LATE : Fld := ⟨0, 1⟩
abbrev MIX_STAT_CLIP : Fld := ⟨1, 1⟩
abbrev MIX_STAT_FENCED : Fld := ⟨2, 1⟩
abbrev MIX_STAT_MCLR_BUSY : Fld := ⟨3, 1⟩
abbrev MIX_XPCNT_ACTIVE : Fld := ⟨0, 15⟩
abbrev MIX_CYC_CYCLES : Fld := ⟨0, 20⟩
abbrev MIX_CLIPCNT_COUNT : Fld := ⟨0, 31⟩
abbrev MIX_CLIPCNT_CLR : Fld := ⟨31, 1⟩
abbrev MIX_MCFG_HOLD_MS : Fld := ⟨0, 16⟩
abbrev MIX_MCFG_RMS_K : Fld := ⟨16, 4⟩
abbrev MIX_MCLR_FIRST : Fld := ⟨0, 11⟩
abbrev MIX_MCLR_LAST : Fld := ⟨16, 11⟩
abbrev MIX_MCLR_GO : Fld := ⟨31, 1⟩
abbrev MIX_DR_ENGAGE_LO_ENG : Fld := ⟨0, 32⟩
abbrev MIX_DR_ENGAGE_HI_ENG : Fld := ⟨0, 32⟩
abbrev MIX_DR_STATE_LO_ENGAGED : Fld := ⟨0, 32⟩
abbrev MIX_DR_STATE_HI_ENGAGED : Fld := ⟨0, 32⟩
abbrev MIX_DR_LOST_LO_LOST : Fld := ⟨0, 32⟩
abbrev MIX_DR_LOST_HI_LOST : Fld := ⟨0, 32⟩
abbrev MIX_HPF_COEF_COEF : Fld := ⟨0, 32⟩
abbrev DLY_CTRL_EN : Fld := ⟨0, 1⟩
abbrev DLY_STAT_LATE : Fld := ⟨0, 1⟩
abbrev DLY_STAT_POISON : Fld := ⟨1, 1⟩
abbrev DLY_STAT_FENCED : Fld := ⟨2, 1⟩
abbrev DLY_STAT_LINE_RESET : Fld := ⟨3, 1⟩
abbrev DLY_LINES_COUNT : Fld := ⟨0, 11⟩
abbrev DLY_ALLOC_LINES64 : Fld := ⟨0, 26⟩
abbrev DLY_TAPS_COUNT : Fld := ⟨0, 12⟩
abbrev DLY_POISON_CNT_COUNT : Fld := ⟨0, 16⟩
abbrev DLY_ERR_TAP_TAP : Fld := ⟨0, 11⟩
abbrev DLY_BW_BYTES : Fld := ⟨0, 32⟩
abbrev TLY_CTRL_QUERY_INT : Fld := ⟨0, 8⟩
abbrev TLY_STAT_IN_DOUBT : Fld := ⟨0, 16⟩
abbrev TLY_STAT_SPLIT : Fld := ⟨16, 1⟩
abbrev TLY_STAT_ABORTED : Fld := ⟨17, 1⟩
abbrev TLY_STAT_LATE : Fld := ⟨18, 1⟩
abbrev TLY_SHADOW_FREE_RECORDS : Fld := ⟨0, 19⟩
abbrev TLY_LAST_ID : Fld := ⟨0, 4⟩
abbrev TLY_LAST_CAUSE : Fld := ⟨8, 4⟩
abbrev TLY_LAST_OUTCOME : Fld := ⟨12, 2⟩
abbrev TLY_LAST_VALID : Fld := ⟨31, 1⟩
abbrev TLY_LAST_LATE_BLOCKS : Fld := ⟨0, 16⟩
abbrev TLY_ABORT_CNT_COUNT : Fld := ⟨0, 16⟩
abbrev TLY_T_STAT_STATE : Fld := ⟨0, 3⟩
abbrev TLY_T_STAT_SCOPE : Fld := ⟨3, 1⟩
abbrev TLY_T_STAT_LATE_OK : Fld := ⟨4, 1⟩
abbrev TLY_T_STAT_MODE : Fld := ⟨5, 2⟩
abbrev TLY_T_REC_RECORDS : Fld := ⟨0, 19⟩
abbrev TLY_T_TGT_LO_N_LO : Fld := ⟨0, 32⟩
abbrev TLY_T_TGT_HI_N_HI : Fld := ⟨0, 32⟩
abbrev TLY_T_XID_XID : Fld := ⟨0, 32⟩
abbrev TLY_T_MEMBERS_MASK : Fld := ⟨0, 8⟩
abbrev SNP_CTRL_REG_EN : Fld := ⟨0, 1⟩
abbrev SNP_CTRL_TALLY_EN : Fld := ⟨1, 1⟩
abbrev SNP_CTRL_FAULT_EN : Fld := ⟨2, 1⟩
abbrev SNP_CTRL_CIN_EN : Fld := ⟨3, 1⟩
abbrev SNP_CTRL_MATCH_EN : Fld := ⟨4, 1⟩
abbrev SNP_CTRL_STACK_EN : Fld := ⟨5, 1⟩
abbrev SNP_CTRL_COUT_EN : Fld := ⟨8, 1⟩
abbrev SNP_FIRE_GO : Fld := ⟨0, 1⟩
abbrev SNP_HOLD_HOLD : Fld := ⟨0, 1⟩
abbrev SNP_STAT_SNAP_VALID : Fld := ⟨0, 1⟩
abbrev SNP_STAT_HELD : Fld := ⟨1, 1⟩
abbrev SNP_STAT_OVERWRITTEN : Fld := ⟨2, 1⟩
abbrev SNP_STAT_MATCH_MISSED : Fld := ⟨3, 1⟩
abbrev SNP_STAT_CAUSE : Fld := ⟨8, 6⟩
abbrev SNP_SEQ_SEQ : Fld := ⟨0, 32⟩
abbrev SNP_OVR_CNT_COUNT : Fld := ⟨0, 16⟩
abbrev SNP_MATCH_NS_NS : Fld := ⟨0, 30⟩
abbrev SNP_MATCH_SEC_LO_SEC_LO : Fld := ⟨0, 32⟩
abbrev SNP_MATCH_SEC_HI_SEC_HI : Fld := ⟨0, 16⟩
abbrev SNP_MATCH_CTRL_ARM : Fld := ⟨0, 1⟩
abbrev SNP_CIN_POL : Fld := ⟨0, 1⟩
abbrev SNP_CIN_FILT : Fld := ⟨4, 4⟩
abbrev SNP_COUT_WIDTH : Fld := ⟨0, 16⟩
abbrev SNP_FLT_MATCH : Fld := ⟨0, 12⟩
abbrev SNP_FLT_MASK : Fld := ⟨16, 12⟩
abbrev SNP_T_NS_NS : Fld := ⟨0, 30⟩
abbrev SNP_T_SEC_LO_SEC_LO : Fld := ⟨0, 32⟩
abbrev SNP_T_SEC_HI_SEC_HI : Fld := ⟨0, 16⟩
abbrev SNP_BLKIDX_LO_INDEX_LO : Fld := ⟨0, 32⟩
abbrev SNP_BLKIDX_HI_INDEX_HI : Fld := ⟨0, 32⟩
abbrev SNP_EPOCH_EPOCH : Fld := ⟨0, 32⟩
abbrev SNP_POS_CYCLES : Fld := ⟨0, 19⟩
abbrev SNP_CNT_LO_CNT_LO : Fld := ⟨0, 32⟩
abbrev SNP_CNT_HI_CNT_HI : Fld := ⟨0, 32⟩
abbrev SNP_STAG_TAG : Fld := ⟨0, 32⟩
abbrev NET_CTRL_MODE : Fld := ⟨0, 2⟩
abbrev NET_CTRL_FEC : Fld := ⟨2, 2⟩
abbrev NET_CTRL_AN_EN : Fld := ⟨4, 1⟩
abbrev NET_CTRL_PROMISC : Fld := ⟨5, 1⟩
abbrev NET_CTRL_BCAST_EN : Fld := ⟨6, 1⟩
abbrev NET_CTRL_RX_HOST_EN : Fld := ⟨7, 1⟩
abbrev NET_CTRL_VLAN_ACCEPT : Fld := ⟨8, 2⟩
abbrev NET_CTRL_PVID : Fld := ⟨10, 12⟩
abbrev NET_STAT_LINK : Fld := ⟨0, 1⟩
abbrev NET_STAT_AN_DONE : Fld := ⟨1, 1⟩
abbrev NET_STAT_PAUSED : Fld := ⟨2, 1⟩
abbrev NET_STAT_LINK_CHG : Fld := ⟨3, 1⟩
abbrev NET_STAT_WD_FIRED : Fld := ⟨4, 1⟩
abbrev NET_STAT_FENCED : Fld := ⟨5, 1⟩
abbrev NET_STAT_REFUSED : Fld := ⟨6, 1⟩
abbrev NET_MAC_LO_MAC_LO : Fld := ⟨0, 32⟩
abbrev NET_MAC_HI_MAC_HI : Fld := ⟨0, 16⟩
abbrev NET_IPV4_ADDR : Fld := ⟨0, 32⟩
abbrev NET_MAXFRAME_BYTES : Fld := ⟨0, 14⟩
abbrev NET_PAUSE_PAUSE_MAX : Fld := ⟨0, 16⟩
abbrev NET_PAUSE_PAUSE_EN : Fld := ⟨16, 1⟩
abbrev NET_LINK_DOWN_US : Fld := ⟨0, 16⟩
abbrev NET_RXQ_QP : Fld := ⟨0, 6⟩
abbrev NET_TSCORR_RX : Fld := ⟨0, 16⟩
abbrev NET_TSCORR_TX : Fld := ⟨16, 16⟩
abbrev NET_LT_LATE_MAX : Fld := ⟨0, 16⟩
abbrev NET_Q_CTRL_LIMIT : Fld := ⟨0, 10⟩
abbrev NET_Q_CTRL_CBS_EN : Fld := ⟨16, 1⟩
abbrev NET_Q_SLOPE_IDLE_SLOPE : Fld := ⟨0, 32⟩
abbrev NET_Q_HICRED_HICRED : Fld := ⟨0, 32⟩
abbrev NET_Q_LOCRED_LOCRED : Fld := ⟨0, 32⟩
abbrev NET_MC_LO_ADDR_LO : Fld := ⟨0, 32⟩
abbrev NET_MC_HI_ADDR_HI : Fld := ⟨0, 16⟩
abbrev NET_MC_HI_EN : Fld := ⟨31, 1⟩
abbrev NET_RX_OK_COUNT : Fld := ⟨0, 32⟩
abbrev NET_RX_FCS_COUNT : Fld := ⟨0, 32⟩
abbrev NET_RX_LEN_COUNT : Fld := ⟨0, 32⟩
abbrev NET_RX_FILTERED_COUNT : Fld := ⟨0, 32⟩
abbrev NET_RX_NO_BUF_COUNT : Fld := ⟨0, 32⟩
abbrev NET_RX_PAUSE_COUNT : Fld := ⟨0, 32⟩
abbrev NET_TX_OK_COUNT : Fld := ⟨0, 32⟩
abbrev NET_TX_LATE_DROP_COUNT : Fld := ⟨0, 32⟩
abbrev NET_TX_FULL_DROP_COUNT : Fld := ⟨0, 32⟩
abbrev NET_WD_COUNT_COUNT : Fld := ⟨0, 32⟩
abbrev NET_FEC_CORR_COUNT : Fld := ⟨0, 32⟩
abbrev NET_FEC_UNCORR_COUNT : Fld := ⟨0, 32⟩
abbrev NET_CNT_CLR_GO : Fld := ⟨0, 1⟩
abbrev NET_PTP_PORT_EN : Fld := ⟨0, 1⟩
abbrev NET_PTP_PORT_MASTER_ONLY : Fld := ⟨1, 1⟩
abbrev NET_PTP_PORT_STATE : Fld := ⟨4, 3⟩
abbrev NET_PTP_PDLY_DELAY : Fld := ⟨0, 32⟩
abbrev NET_PTP_ASYM_ASYM : Fld := ⟨0, 32⟩
abbrev NET_PTP_CTRL_EN : Fld := ⟨0, 1⟩
abbrev NET_PTP_CTRL_PROFILE : Fld := ⟨1, 2⟩
abbrev NET_PTP_CTRL_ONE_STEP : Fld := ⟨3, 1⟩
abbrev NET_PTP_CTRL_UDP : Fld := ⟨4, 1⟩
abbrev NET_PTP_CTRL_SLAVE_ONLY : Fld := ⟨5, 1⟩
abbrev NET_PTP_CTRL_DOMAIN : Fld := ⟨8, 8⟩
abbrev NET_PTP_CTRL_PRIO1 : Fld := ⟨16, 8⟩
abbrev NET_PTP_CTRL_PRIO2 : Fld := ⟨24, 8⟩
abbrev NET_PTP_CFG_CLASS : Fld := ⟨0, 8⟩
abbrev NET_PTP_CFG_LOG_SYNC : Fld := ⟨8, 8⟩
abbrev NET_PTP_CFG_LOG_ANN : Fld := ⟨16, 8⟩
abbrev NET_PTP_CFG_LOG_DREQ : Fld := ⟨24, 8⟩
abbrev NET_PTP_GM_LO_GM_LO : Fld := ⟨0, 32⟩
abbrev NET_PTP_GM_HI_GM_HI : Fld := ⟨0, 32⟩
abbrev NET_PTP_OFS_OFS : Fld := ⟨0, 32⟩
abbrev NET_PTP_SLV_PORT : Fld := ⟨0, 3⟩
abbrev NET_PTP_SLV_SLAVE : Fld := ⟨3, 1⟩
abbrev STR_CTRL_EN : Fld := ⟨0, 1⟩
abbrev STR_STAT_LATE : Fld := ⟨0, 1⟩
abbrev STR_STAT_EARLY : Fld := ⟨1, 1⟩
abbrev STR_STAT_FORMAT : Fld := ⟨2, 1⟩
abbrev STR_STAT_GAP : Fld := ⟨3, 1⟩
abbrev STR_STAT_LOST : Fld := ⟨4, 1⟩
abbrev STR_STAT_TX_DROP : Fld := ⟨5, 1⟩
abbrev STR_STAT_FENCED : Fld := ⟨6, 1⟩
abbrev STR_STORE_BASE : Fld := ⟨22, 10⟩
abbrev STR_RATE_PPS : Fld := ⟨0, 25⟩
abbrev STR_LAST_STREAM : Fld := ⟨0, 10⟩
abbrev STR_LAST_EVENT : Fld := ⟨12, 4⟩
abbrev STR_LAST_VALID : Fld := ⟨31, 1⟩
abbrev STR_CLR_FIRST : Fld := ⟨0, 10⟩
abbrev STR_CLR_LAST : Fld := ⟨16, 10⟩
abbrev STR_CLR_GO : Fld := ⟨31, 1⟩
abbrev FLD_ID_DIE : Fld := ⟨0, 1⟩
abbrev FLD_ID_STEP : Fld := ⟨4, 4⟩
abbrev FLD_ID_PART : Fld := ⟨16, 16⟩
abbrev FLD_STAT_STATE : Fld := ⟨0, 3⟩
abbrev FLD_STAT_SEALED : Fld := ⟨3, 1⟩
abbrev FLD_STAT_DEFAULT_SEAL : Fld := ⟨4, 1⟩
abbrev FLD_STAT_LANES : Fld := ⟨5, 4⟩
abbrev FLD_STAT_PLL_REF : Fld := ⟨9, 2⟩
abbrev FLD_STAT_HOST_LOST : Fld := ⟨11, 1⟩
abbrev FLD_EPOCH_EPOCH : Fld := ⟨0, 32⟩
abbrev FLD_LOSS_HOLD_IDLE : Fld := ⟨0, 16⟩
abbrev FLD_LOSS_AUTO_REARM : Fld := ⟨16, 1⟩
abbrev FLD_TWIN_CTRL_EN : Fld := ⟨0, 1⟩
abbrev FLD_TWIN_CTRL_ROLE : Fld := ⟨1, 1⟩
abbrev FLD_TWIN_CTRL_REQ_MATCH : Fld := ⟨2, 1⟩
abbrev FLD_TWIN_CTRL_REVERT_BLOCKS : Fld := ⟨8, 8⟩
abbrev FLD_TWIN_STAT_TWIN_UP : Fld := ⟨0, 1⟩
abbrev FLD_TWIN_STAT_P_ROLE : Fld := ⟨1, 1⟩
abbrev FLD_TWIN_STAT_P_SAFE : Fld := ⟨2, 1⟩
abbrev FLD_TWIN_STAT_P_EN : Fld := ⟨3, 1⟩
abbrev FLD_TWIN_STAT_CONFLICT : Fld := ⟨4, 1⟩
abbrev FLD_USING_TWIN_MASK : Fld := ⟨0, 32⟩
abbrev FLD_DIV_MASK : Fld := ⟨0, 32⟩
abbrev FLD_MATCHED_MASK : Fld := ⟨0, 32⟩
abbrev FLD_CHSTATE_STATES : Fld := ⟨0, 32⟩
abbrev FLD_CNT_CRC_COUNT : Fld := ⟨0, 32⟩
abbrev FLD_CNT_DISCARD_COUNT : Fld := ⟨0, 32⟩
abbrev FLD_CNT_LATE_COUNT : Fld := ⟨0, 32⟩
abbrev FLD_CNT_SWITCH_COUNT : Fld := ⟨0, 32⟩
abbrev FLD_CNT_DIV_COUNT : Fld := ⟨0, 32⟩
abbrev BAR_CTRL_EN : Fld := ⟨0, 1⟩
abbrev BAR_CTRL_RETRIES : Fld := ⟨8, 4⟩
abbrev BAR_TIMING_LINK_TO : Fld := ⟨0, 16⟩
abbrev BAR_TIMING_ACK_TO : Fld := ⟨16, 16⟩
abbrev BAR_STAT_LINK : Fld := ⟨0, 2⟩
abbrev BAR_STAT_UL0 : Fld := ⟨2, 1⟩
abbrev BAR_STAT_UL1 : Fld := ⟨3, 1⟩
abbrev BAR_STAT_DL0 : Fld := ⟨4, 1⟩
abbrev BAR_STAT_DL1 : Fld := ⟨5, 1⟩
abbrev BAR_STAT_FENCED : Fld := ⟨6, 1⟩
abbrev BAR_STAT_SEALED : Fld := ⟨7, 1⟩
abbrev BAR_STAT_FLD_STATE : Fld := ⟨8, 3⟩
abbrev BAR_STAT_TWIN_UP : Fld := ⟨11, 1⟩
abbrev BAR_STAT_CRC_ERR : Fld := ⟨16, 1⟩
abbrev BAR_STAT_SEQ_GAP : Fld := ⟨17, 1⟩
abbrev BAR_STAT_MISMATCH : Fld := ⟨18, 1⟩
abbrev BAR_STAT_ACK_FAIL : Fld := ⟨19, 1⟩
abbrev BAR_STAT_SEND_LATE : Fld := ⟨20, 1⟩
abbrev BAR_CNT_CRC_COUNT : Fld := ⟨0, 32⟩
abbrev BAR_CNT_GAP_COUNT : Fld := ⟨0, 32⟩
abbrev BAR_CNT_MISMATCH_COUNT : Fld := ⟨0, 32⟩
abbrev BAR_CNT_ACKFAIL_COUNT : Fld := ⟨0, 32⟩
abbrev BAR_CNT_LATE_COUNT : Fld := ⟨0, 32⟩
abbrev BAR_CNT_CLR_GO : Fld := ⟨0, 1⟩
abbrev BAR_USING_TWIN_MASK : Fld := ⟨0, 32⟩
abbrev BAR_DIV_MASK : Fld := ⟨0, 32⟩
abbrev BAR_EPOCH_EPOCH : Fld := ⟨0, 32⟩
abbrev BAR_FAULT_LAST_INDEX : Fld := ⟨0, 6⟩
abbrev BAR_FAULT_LAST_CHANNEL : Fld := ⟨8, 8⟩
abbrev BAR_FAULT_LAST_VALID : Fld := ⟨31, 1⟩
abbrev BAR_CHMAP_CH : Fld := ⟨0, 10⟩
abbrev BAR_CHMAP_EN : Fld := ⟨31, 1⟩
abbrev PWM_DIE_CTRL_RUN : Fld := ⟨0, 1⟩
abbrev PWM_DIE_CTRL_CARRIER : Fld := ⟨1, 2⟩
abbrev PWM_DIE_CTRL_DITHER : Fld := ⟨3, 1⟩
abbrev PWM_DIE_STAT_N : Fld := ⟨0, 13⟩
abbrev PWM_DIE_STAT_J : Fld := ⟨16, 4⟩
abbrev PWM_CH_CTRL_EN : Fld := ⟨0, 1⟩
abbrev PWM_CH_CTRL_MODE : Fld := ⟨1, 1⟩
abbrev PWM_CH_CTRL_RAW : Fld := ⟨2, 1⟩
abbrev PWM_CH_CTRL_TRIP_LATCH : Fld := ⟨3, 1⟩
abbrev PWM_CH_CTRL_READBACK_EN : Fld := ⟨4, 1⟩
abbrev PWM_CH_CTRL_TRIP_FILT : Fld := ⟨8, 4⟩
abbrev PWM_CH_CTRL_BLANK : Fld := ⟨16, 10⟩
abbrev PWM_CH_DT_DT_RISE_A : Fld := ⟨0, 8⟩
abbrev PWM_CH_DT_DT_FALL_A : Fld := ⟨8, 8⟩
abbrev PWM_CH_DT_DT_RISE_B : Fld := ⟨16, 8⟩
abbrev PWM_CH_DT_DT_FALL_B : Fld := ⟨24, 8⟩
abbrev PWM_CH_PHASE_PH_OFS : Fld := ⟨0, 12⟩
abbrev PWM_CH_QUIET_TRIP_QUIET : Fld := ⟨0, 16⟩
abbrev PWM_CH_RAW_PER_PERIOD : Fld := ⟨0, 15⟩
abbrev PWM_CH_RAW_PER_GEN : Fld := ⟨28, 4⟩
abbrev PWM_CH_RAW_DUTY_VA : Fld := ⟨0, 14⟩
abbrev PWM_CH_RAW_DUTY_VB : Fld := ⟨14, 14⟩
abbrev PWM_CH_RAW_DUTY_GEN : Fld := ⟨28, 4⟩
abbrev PWM_CH_STAT_STATE : Fld := ⟨0, 3⟩
abbrev PWM_CH_STAT_TRIP_IN : Fld := ⟨3, 1⟩
abbrev PWM_CH_STAT_GATES_ON : Fld := ⟨4, 1⟩
abbrev PWM_CH_STAT_TRIP_STILL_ACTIVE : Fld := ⟨5, 1⟩
abbrev PWM_CH_STAT_PAIR_SPLIT : Fld := ⟨6, 1⟩
abbrev PWM_CH_STAT_PEND : Fld := ⟨8, 2⟩
abbrev PWM_CH_STAT_GEN : Fld := ⟨12, 4⟩
abbrev PWM_CH_STAT_TRIP_CAUSE : Fld := ⟨16, 2⟩
abbrev PWM_CH_CNT_TRIPS : Fld := ⟨0, 16⟩
abbrev PWM_CH_CNT_SPLITS : Fld := ⟨16, 16⟩
abbrev PWM_CH_U_U : Fld := ⟨0, 16⟩
abbrev PRT_DIE_CTRL_COMP_EN : Fld := ⟨0, 1⟩
abbrev PRT_DIE_CTRL_VTRIM_EN : Fld := ⟨1, 1⟩
abbrev PRT_SCALE_VS_FS : Fld := ⟨0, 16⟩
abbrev PRT_SCALE_IS_FS : Fld := ⟨16, 16⟩
abbrev PRT_RAIL_SCALE_RAIL_FS : Fld := ⟨0, 16⟩
abbrev PRT_RAIL_SCALE_RAIL_MIN : Fld := ⟨16, 16⟩
abbrev PRT_TS_SCALE_TS_OFS : Fld := ⟨0, 16⟩
abbrev PRT_TS_SCALE_TS_SPAN : Fld := ⟨16, 16⟩
abbrev PRT_SUPPLY_MARGIN : Fld := ⟨0, 16⟩
abbrev PRT_PS_FOLD_PS_FOLD : Fld := ⟨0, 16⟩
abbrev PRT_PS_FOLD_PS_MAX : Fld := ⟨16, 16⟩
abbrev PRT_PS_SHUT_PS_SHUT : Fld := ⟨0, 16⟩
abbrev PRT_PS_SHUT_PS_MAXCUT : Fld := ⟨16, 8⟩
abbrev PRT_FOLD_RATE_FOLD_RATE : Fld := ⟨0, 16⟩
abbrev PRT_RAIL_STAT_V_RAIL : Fld := ⟨0, 16⟩
abbrev PRT_RAIL_STAT_RAIL_LOW : Fld := ⟨16, 1⟩
abbrev PRT_RAIL_STAT_RAIL_BAD : Fld := ⟨17, 1⟩
abbrev PRT_TS01_TS0 : Fld := ⟨0, 16⟩
abbrev PRT_TS01_TS1 : Fld := ⟨16, 16⟩
abbrev PRT_TS23_TS2 : Fld := ⟨0, 16⟩
abbrev PRT_TS23_TS3 : Fld := ⟨16, 16⟩
abbrev PRT_SENSE_BAD_TS : Fld := ⟨0, 4⟩
abbrev PRT_SENSE_BAD_RAILP : Fld := ⟨4, 1⟩
abbrev PRT_SENSE_BAD_RAILN : Fld := ⟨5, 1⟩
abbrev PRT_CH_CTRL_TH_EN : Fld := ⟨0, 1⟩
abbrev PRT_CH_CTRL_RE_TRACK : Fld := ⟨1, 1⟩
abbrev PRT_CH_CTRL_X_EN : Fld := ⟨2, 1⟩
abbrev PRT_CH_CTRL_LIN_EN : Fld := ⟨3, 1⟩
abbrev PRT_CH_CTRL_AUTO_RETRY : Fld := ⟨4, 1⟩
abbrev PRT_CH_CTRL_AL : Fld := ⟨5, 1⟩
abbrev PRT_CH_OC_OC_THR : Fld := ⟨0, 16⟩
abbrev PRT_CH_OC_SHORT_N : Fld := ⟨16, 8⟩
abbrev PRT_CH_OC_SHORT_WIN : Fld := ⟨24, 5⟩
abbrev PRT_CH_TH_T_FOLD : Fld := ⟨0, 16⟩
abbrev PRT_CH_TH_T_MAX : Fld := ⟨16, 16⟩
abbrev PRT_CH_TSHUT_T_SHUT : Fld := ⟨0, 16⟩
abbrev PRT_CH_TSHUT_MAX_CUT : Fld := ⟨16, 8⟩
abbrev PRT_CH_RTH_C_RTH_C : Fld := ⟨0, 16⟩
abbrev PRT_CH_RTH_C_TAU_C : Fld := ⟨16, 16⟩
abbrev PRT_CH_RTH_M_RTH_M : Fld := ⟨0, 16⟩
abbrev PRT_CH_RTH_M_TAU_M : Fld := ⟨16, 16⟩
abbrev PRT_CH_RE_RE_REF : Fld := ⟨0, 32⟩
abbrev PRT_CH_RECAL_T_REF : Fld := ⟨0, 16⟩
abbrev PRT_CH_RECAL_RE_CAL : Fld := ⟨16, 16⟩
abbrev PRT_CH_AMB_T_AMB : Fld := ⟨0, 16⟩
abbrev PRT_CH_AMB_AMB_SRC : Fld := ⟨16, 3⟩
abbrev PRT_CH_XLIM_XLIM : Fld := ⟨0, 16⟩
abbrev PRT_CH_XLIM_XREL : Fld := ⟨16, 16⟩
abbrev PRT_CH_DC_DC_THR : Fld := ⟨0, 16⟩
abbrev PRT_CH_DC_DC_TIME : Fld := ⟨16, 16⟩
abbrev PRT_CH_DCS_DCS_THR : Fld := ⟨0, 16⟩
abbrev PRT_CH_DCS_DCS_TIME : Fld := ⟨16, 16⟩
abbrev PRT_CH_VOUT_V_FS_OUT : Fld := ⟨0, 16⟩
abbrev PRT_CH_VOUT_VOUT_MAX : Fld := ⟨16, 16⟩
abbrev PRT_CH_CHECK_CHECK_ZMIN : Fld := ⟨0, 32⟩
abbrev PRT_CH_STAT_THERM : Fld := ⟨0, 1⟩
abbrev PRT_CH_STAT_PS_HOT : Fld := ⟨1, 1⟩
abbrev PRT_CH_STAT_CH_SHORT : Fld := ⟨2, 1⟩
abbrev PRT_CH_STAT_DC_OUT : Fld := ⟨3, 1⟩
abbrev PRT_CH_STAT_DC_STREAM : Fld := ⟨4, 1⟩
abbrev PRT_CH_STAT_SENSE : Fld := ⟨5, 1⟩
abbrev PRT_CH_STAT_FINAL : Fld := ⟨6, 1⟩
abbrev PRT_CH_STAT_CHECKING : Fld := ⟨7, 1⟩
abbrev PRT_CH_STAT_VS_BAD : Fld := ⟨8, 1⟩
abbrev PRT_CH_STAT_IS_BAD : Fld := ⟨9, 1⟩
abbrev PRT_CH_STAT_FOLD : Fld := ⟨10, 1⟩
abbrev PRT_CH_STAT_X_ACT : Fld := ⟨11, 1⟩
abbrev PRT_CH_STAT_SUP_ACT : Fld := ⟨12, 1⟩
abbrev PRT_CH_STAT_RETRIES : Fld := ⟨14, 2⟩
abbrev PRT_CH_TEMP_T_COIL : Fld := ⟨0, 16⟩
abbrev PRT_CH_TEMP_T_MAG : Fld := ⟨16, 16⟩
abbrev PRT_CH_CUT_TH : Fld := ⟨0, 8⟩
abbrev PRT_CH_CUT_PS : Fld := ⟨8, 8⟩
abbrev PRT_CH_CUT_X : Fld := ⟨16, 8⟩
abbrev PRT_CH_CUT_S : Fld := ⟨24, 8⟩
abbrev PRT_CH_RE_NOW_RE : Fld := ⟨0, 32⟩
abbrev PRT_CH_X_X_NOW : Fld := ⟨0, 16⟩
abbrev PRT_CH_X_TRIM : Fld := ⟨16, 16⟩
abbrev PRT_CH_CNT_LIMITED : Fld := ⟨0, 16⟩
abbrev PRT_CH_CNT_SHORTS : Fld := ⟨16, 16⟩
abbrev PRT_CH_CLIP_COUNT : Fld := ⟨0, 32⟩
abbrev PRT_CH_MMS_MMS : Fld := ⟨0, 32⟩
abbrev PRT_CH_RMS_RMS : Fld := ⟨0, 32⟩
abbrev PRT_CH_BL_V : Fld := ⟨0, 32⟩
abbrev PRT_CH_KMS_V : Fld := ⟨0, 32⟩
abbrev PRT_CH_LE_V : Fld := ⟨0, 32⟩
abbrev DIAG_CTRL_PILOT_F : Fld := ⟨0, 1⟩
abbrev DIAG_CTRL_PILOT_LVL : Fld := ⟨8, 8⟩
abbrev DIAG_CTRL_SWEEP_LVL : Fld := ⟨16, 8⟩
abbrev DIAG_CTRL_CONFIRM : Fld := ⟨24, 4⟩
abbrev DIAG_FLOOR_I_FLOOR : Fld := ⟨0, 16⟩
abbrev DIAG_STAT_SWEEP_BUSY : Fld := ⟨0, 1⟩
abbrev DIAG_STAT_POINT : Fld := ⟨8, 6⟩
abbrev DIAG_STAT_RUN : Fld := ⟨16, 16⟩
abbrev DIAG_CH_CTRL_PILOT_EN : Fld := ⟨0, 1⟩
abbrev DIAG_CH_CTRL_N_REF : Fld := ⟨4, 4⟩
abbrev DIAG_CH_CTRL_TOL : Fld := ⟨8, 8⟩
abbrev DIAG_CH_CTRL_REF_POINT : Fld := ⟨16, 6⟩
abbrev DIAG_CH_ZREF_ZREF : Fld := ⟨0, 32⟩
abbrev DIAG_CH_ZSREF_ZSREF : Fld := ⟨0, 32⟩
abbrev DIAG_CH_ZRE_ZRE : Fld := ⟨0, 32⟩
abbrev DIAG_CH_ZIM_ZIM : Fld := ⟨0, 32⟩
abbrev DIAG_CH_STAT_CLASS : Fld := ⟨0, 3⟩
abbrev DIAG_CH_STAT_N_EST : Fld := ⟨3, 4⟩
abbrev DIAG_CH_STAT_VALID : Fld := ⟨7, 1⟩
abbrev DIAG_CH_STAT_PENDING : Fld := ⟨8, 3⟩
abbrev HIF_CTRL_SPLIT_PHASE : Fld := ⟨0, 1⟩
abbrev HIF_STAT_SPEED : Fld := ⟨0, 3⟩
abbrev HIF_STAT_WIDTH : Fld := ⟨3, 3⟩
abbrev HIF_STAT_BME : Fld := ⟨6, 1⟩
abbrev HIF_STAT_BAD_ACCESS : Fld := ⟨8, 1⟩
abbrev HIF_STAT_DMA_ERR : Fld := ⟨9, 1⟩
abbrev HIF_DBPAGE_LO_BASE_LO : Fld := ⟨9, 23⟩
abbrev HIF_DBPAGE_HI_BASE_HI : Fld := ⟨0, 32⟩
abbrev HIF_KICK_GO : Fld := ⟨0, 1⟩
abbrev HIF_MISC_VEC_VECTOR : Fld := ⟨0, 6⟩
abbrev HIF_ERR_INFO_QP : Fld := ⟨0, 6⟩
abbrev HIF_ERR_INFO_TYPE : Fld := ⟨8, 3⟩
abbrev HIF_ERR_INFO_VALID : Fld := ⟨31, 1⟩
abbrev HIF_ERR_ADDR_LO_ADDR_LO : Fld := ⟨0, 32⟩
abbrev HIF_ERR_ADDR_HI_ADDR_HI : Fld := ⟨0, 32⟩
abbrev HIF_QP_SQ_LO_BASE_LO : Fld := ⟨12, 20⟩
abbrev HIF_QP_SQ_HI_BASE_HI : Fld := ⟨0, 32⟩
abbrev HIF_QP_CQ_LO_BASE_LO : Fld := ⟨12, 20⟩
abbrev HIF_QP_CQ_HI_BASE_HI : Fld := ⟨0, 32⟩
abbrev HIF_QP_CFG_SQ_LOG2 : Fld := ⟨0, 4⟩
abbrev HIF_QP_CFG_CQ_LOG2 : Fld := ⟨4, 4⟩
abbrev HIF_QP_CFG_VECTOR : Fld := ⟨8, 6⟩
abbrev HIF_QP_CFG_IRQ_EN : Fld := ⟨14, 1⟩
abbrev HIF_QP_CFG_MOD_COUNT : Fld := ⟨16, 8⟩
abbrev HIF_QP_CFG_MOD_TIME : Fld := ⟨24, 8⟩
abbrev HIF_QP_CTRL_EN : Fld := ⟨0, 1⟩
abbrev HIF_QP_CTRL_RECOVER : Fld := ⟨1, 1⟩
abbrev HIF_QP_RESUME_SQ_IDX : Fld := ⟨0, 12⟩
abbrev HIF_QP_RESUME_CQ_IDX : Fld := ⟨16, 12⟩
abbrev HIF_QP_RESUME_PHASE : Fld := ⟨28, 1⟩
abbrev HIF_QP_STAT_STATE : Fld := ⟨0, 3⟩
abbrev HIF_QP_STAT_REFUSED : Fld := ⟨3, 1⟩
abbrev HIF_QP_STAT_ERR : Fld := ⟨4, 1⟩
abbrev HIF_QP_STAT_INFLIGHT : Fld := ⟨16, 13⟩
abbrev STK_CTRL_EN : Fld := ⟨0, 1⟩
abbrev STK_CTRL_HANDOVER : Fld := ⟨1, 1⟩
abbrev STK_CTRL_HANDOVER_ID : Fld := ⟨4, 3⟩
abbrev STK_CTRL_HB_WIN : Fld := ⟨8, 8⟩
abbrev STK_CTRL_DISC_WAIT : Fld := ⟨16, 8⟩
abbrev STK_STAT_MY_ID : Fld := ⟨0, 3⟩
abbrev STK_STAT_MASTER : Fld := ⟨3, 1⟩
abbrev STK_STAT_MASTER_ID : Fld := ⟨4, 3⟩
abbrev STK_STAT_SUCCESSOR : Fld := ⟨8, 3⟩
abbrev STK_STAT_FORMED : Fld := ⟨11, 1⟩
abbrev STK_STAT_DUP_ID : Fld := ⟨12, 1⟩
abbrev STK_STAT_TAKEOVER : Fld := ⟨13, 1⟩
abbrev STK_STAT_PARTITION : Fld := ⟨14, 1⟩
abbrev STK_STAT_REJOIN_STEP : Fld := ⟨15, 1⟩
abbrev STK_STAT_ODD_CABLING : Fld := ⟨16, 1⟩
abbrev STK_STAT_REFUSED : Fld := ⟨17, 1⟩
abbrev STK_MEMBERS_PRESENT : Fld := ⟨0, 8⟩
abbrev STK_MEMBERS_LOCKED : Fld := ⟨8, 8⟩
abbrev STK_HB_MISSED : Fld := ⟨0, 5⟩
abbrev STK_HB_MISS_CNT : Fld := ⟨16, 16⟩
abbrev STK_LINK_STAT_STATE : Fld := ⟨0, 2⟩
abbrev STK_LINK_STAT_FENCED : Fld := ⟨2, 1⟩
abbrev STK_LINK_STAT_PEER_VALID : Fld := ⟨3, 1⟩
abbrev STK_LINK_STAT_PEER_ID : Fld := ⟨4, 3⟩
abbrev STK_LINK_STAT_PEER_LINK : Fld := ⟨8, 2⟩
abbrev STK_LINK_DELAY_DELAY : Fld := ⟨0, 16⟩
abbrev STK_ROUTE_MAP : Fld := ⟨0, 24⟩
abbrev STK_TOFS_OFS : Fld := ⟨0, 32⟩
abbrev STK_CNT_CRC_COUNT : Fld := ⟨0, 32⟩
abbrev STK_CNT_LATE_COUNT : Fld := ⟨0, 32⟩
abbrev STK_CNT_TAKEOVER_COUNT : Fld := ⟨0, 16⟩
abbrev FLT_CTRL_INJ_EN : Fld := ⟨0, 1⟩
abbrev FLT_CTRL_FN_MIN : Fld := ⟨8, 8⟩
abbrev FLT_STAT_ACTIVE : Fld := ⟨0, 1⟩
abbrev FLT_STAT_FAULT_N_LOW : Fld := ⟨1, 1⟩
abbrev FLT_STAT_SELF_TRIP : Fld := ⟨2, 1⟩
abbrev FLT_STAT_REFUSED : Fld := ⟨3, 1⟩
abbrev FLT_FIRST_ID : Fld := ⟨0, 12⟩
abbrev FLT_FIRST_VALID : Fld := ⟨31, 1⟩
abbrev FLT_LAST_ID : Fld := ⟨0, 12⟩
abbrev FLT_LAST_FORCED : Fld := ⟨12, 1⟩
abbrev FLT_LAST_VALID : Fld := ⟨31, 1⟩
abbrev FLT_SEL_ID : Fld := ⟨0, 12⟩
abbrev FLT_CFG_MASK : Fld := ⟨0, 6⟩
abbrev FLT_CFG_EXISTS : Fld := ⟨8, 1⟩
abbrev FLT_CFG_FIXED : Fld := ⟨9, 1⟩
abbrev FLT_CFG_GRP_GROUP : Fld := ⟨0, 6⟩
abbrev FLT_CFG_GRP_MASK : Fld := ⟨8, 6⟩
abbrev FLT_CFG_GRP_GO : Fld := ⟨31, 1⟩
abbrev FLT_FORCE_ID : Fld := ⟨0, 12⟩
abbrev FLT_FORCE_GO : Fld := ⟨31, 1⟩
abbrev FLT_UNFENCE_ID : Fld := ⟨0, 12⟩
abbrev FLT_UNFENCE_GO : Fld := ⟨31, 1⟩
abbrev FLT_CLR_GRP_GROUP : Fld := ⟨0, 6⟩
abbrev FLT_CLR_GRP_GO : Fld := ⟨31, 1⟩
abbrev FLT_SELFTEST_KEY : Fld := ⟨0, 16⟩
abbrev FLT_GSUM_LO_GROUPS : Fld := ⟨0, 32⟩
abbrev FLT_GSUM_HI_GROUPS : Fld := ⟨0, 32⟩
abbrev FLT_THERM_WARN : Fld := ⟨0, 8⟩
abbrev FLT_THERM_CRIT : Fld := ⟨8, 8⟩
abbrev FLT_THERM_H01_H0 : Fld := ⟨0, 16⟩
abbrev FLT_THERM_H01_H1 : Fld := ⟨16, 16⟩
abbrev FLT_THERM_H23_H2 : Fld := ⟨0, 16⟩
abbrev FLT_THERM_H23_H3 : Fld := ⟨16, 16⟩
abbrev FLT_THERM_DRAM_DRAM : Fld := ⟨0, 16⟩
abbrev FLT_STAT_LO_STATUS : Fld := ⟨0, 32⟩
abbrev FLT_STAT_HI_STATUS : Fld := ⟨0, 32⟩
abbrev FLT_CNT_COUNT : Fld := ⟨0, 16⟩
abbrev FLT_CNT_CLR : Fld := ⟨31, 1⟩
abbrev EVR_STAT_LOG_FULL : Fld := ⟨0, 1⟩
abbrev EVR_STAT_BACKLOG : Fld := ⟨1, 1⟩
abbrev EVR_STAT_BUF_OVF : Fld := ⟨2, 1⟩
abbrev EVR_STAT_COMMIT_ERR : Fld := ⟨3, 1⟩
abbrev EVR_STAT_CLEAR_BUSY : Fld := ⟨4, 1⟩
abbrev EVR_COUNT_RECORDS : Fld := ⟨0, 19⟩
abbrev EVR_COMMITTED_RECORDS : Fld := ⟨0, 19⟩
abbrev EVR_DROPPED_COUNT : Fld := ⟨0, 32⟩
abbrev EVR_BUF_DROP_COUNT : Fld := ⟨0, 32⟩
abbrev EVR_SUPP_TOTAL_COUNT : Fld := ⟨0, 32⟩
abbrev EVR_OPTIME_F_FRAC : Fld := ⟨0, 8⟩
abbrev EVR_OPTIME_S_SEC : Fld := ⟨0, 32⟩
abbrev EVR_PCC_COUNT : Fld := ⟨0, 24⟩
abbrev EVR_EPOCH_EPOCH : Fld := ⟨0, 16⟩
abbrev EVR_SEAL_SEL_PAGE : Fld := ⟨0, 10⟩
abbrev EVR_SEAL_SEAL : Fld := ⟨0, 32⟩
abbrev EVR_HOST_DATUM_DATUM : Fld := ⟨0, 32⟩
abbrev EVR_HOST_N : Fld := ⟨0, 4⟩
abbrev EVR_HOST_INSTANCE : Fld := ⟨16, 10⟩
abbrev EVR_HOST_GO : Fld := ⟨31, 1⟩
abbrev EVR_CLEAR_KEY : Fld := ⟨0, 16⟩
abbrev EVR_RL_GRP_RATE : Fld := ⟨0, 8⟩
abbrev EVR_RL_GRP_BURST : Fld := ⟨8, 8⟩
abbrev EVR_RL_OVR_CODE : Fld := ⟨0, 16⟩
abbrev EVR_RL_OVR_RATE : Fld := ⟨16, 8⟩
abbrev EVR_RL_OVR_BURST : Fld := ⟨24, 8⟩
abbrev BOOT_STAT_MODE : Fld := ⟨0, 1⟩
abbrev BOOT_STAT_RCAUSE : Fld := ⟨1, 3⟩
abbrev BOOT_STAT_HDR : Fld := ⟨4, 1⟩
abbrev BOOT_STAT_COPY_RESUMED : Fld := ⟨5, 1⟩
abbrev BOOT_STAT_COPIED : Fld := ⟨6, 1⟩
abbrev BOOT_STAT_STORE_USED : Fld := ⟨7, 1⟩
abbrev BOOT_STAT_STORE0_BAD : Fld := ⟨8, 1⟩
abbrev BOOT_STAT_STORE1_BAD : Fld := ⟨9, 1⟩
abbrev BOOT_STAT_AUTOSTART : Fld := ⟨10, 1⟩
abbrev BOOT_STAT_FLASH_BUSY : Fld := ⟨11, 1⟩
abbrev BOOT_FWVER_VERSION : Fld := ⟨0, 32⟩
abbrev BOOT_ARB_STEPS : Fld := ⟨0, 7⟩
abbrev BOOT_KEYS_PRESENT : Fld := ⟨0, 4⟩
abbrev BOOT_KEYS_REVOKED : Fld := ⟨8, 4⟩
abbrev BOOT_STAGE_STATE : Fld := ⟨0, 2⟩
abbrev BOOT_STAGE_HIGH_BYTES : Fld := ⟨0, 25⟩
abbrev BOOT_STORE_GEN_GEN : Fld := ⟨0, 32⟩
abbrev BOOT_HDR_GEN_GEN : Fld := ⟨0, 32⟩
abbrev BOOT_CTRL_FLASH_WR_EN : Fld := ⟨0, 1⟩
abbrev BOOT_PFAIL_LEVEL : Fld := ⟨0, 1⟩
abbrev BOOT_PFAIL_ACTIVE : Fld := ⟨1, 1⟩
abbrev BOOT_PFAIL_DONE : Fld := ⟨2, 1⟩
abbrev BOOT_PFAIL_FALLS : Fld := ⟨16, 16⟩
abbrev BOOT_PFAIL_TIME_US : Fld := ⟨0, 16⟩
abbrev BOOT_MB_ADDR_LO_ADDR_LO : Fld := ⟨0, 32⟩
abbrev BOOT_MB_ADDR_HI_ADDR_HI : Fld := ⟨0, 32⟩
abbrev BOOT_MB_OFFSET_OFFSET : Fld := ⟨0, 32⟩
abbrev BOOT_MB_LEN_LEN : Fld := ⟨0, 32⟩
abbrev BOOT_MB_CRC_CRC : Fld := ⟨0, 32⟩
abbrev BOOT_MB_CMD_OP : Fld := ⟨0, 2⟩
abbrev BOOT_MB_CMD_GO : Fld := ⟨31, 1⟩
abbrev BOOT_MB_STAT_BUSY : Fld := ⟨0, 1⟩
abbrev BOOT_MB_STAT_STATUS : Fld := ⟨8, 8⟩
abbrev BOOT_MB_STAT_DONE : Fld := ⟨16, 16⟩
abbrev MGT_CTRL_EN : Fld := ⟨0, 1⟩
abbrev MGT_CTRL_AMODE : Fld := ⟨1, 1⟩
abbrev MGT_ADDR_ADDR0 : Fld := ⟨0, 7⟩
abbrev MGT_ADDR_MASK : Fld := ⟨8, 7⟩
abbrev MGT_ADDR_ADDR1 : Fld := ⟨16, 7⟩
abbrev MGT_FILT_LEN : Fld := ⟨0, 4⟩
abbrev MGT_TIMEOUT_SDA_MS : Fld := ⟨0, 8⟩
abbrev MGT_ATTN_CFG_WIDTH_US : Fld := ⟨0, 8⟩
abbrev MGT_ATTN_CFG_IDLE_US : Fld := ⟨8, 8⟩
abbrev MGT_ATTN_CFG_EN : Fld := ⟨16, 4⟩
abbrev MGT_ATTN_CFG_REPEAT : Fld := ⟨20, 4⟩
abbrev MGT_ATTN_GO : Fld := ⟨0, 1⟩
abbrev MGT_ATTN_PENDING : Fld := ⟨1, 1⟩
abbrev MGT_ATTN_SENT : Fld := ⟨2, 1⟩
abbrev MGT_ATTN_ABANDONED : Fld := ⟨3, 1⟩
abbrev MGT_ATTN_BACKOFF : Fld := ⟨4, 2⟩
abbrev MGT_ATTN_CAUSE : Fld := ⟨8, 4⟩
abbrev MGT_STAT_BUSY : Fld := ⟨0, 1⟩
abbrev MGT_STAT_RX_BUSY : Fld := ⟨1, 1⟩
abbrev MGT_STAT_FENCED : Fld := ⟨2, 1⟩
abbrev MGT_STAT_LAST_ADDR : Fld := ⟨8, 7⟩
abbrev MGT_STAT_RX_SEQ : Fld := ⟨16, 16⟩
abbrev MGT_CNT_TRANSFERS : Fld := ⟨0, 16⟩
abbrev MGT_CNT_ERRORS : Fld := ⟨16, 16⟩
abbrev MGT_HOSTBUF_DATA : Fld := ⟨0, 32⟩
abbrev MGT_CTRLBUF_DATA : Fld := ⟨0, 32⟩
abbrev MGT_PAGE_DATA : Fld := ⟨0, 32⟩

abbrev MSIX_VCTRL_MASK : Fld := ⟨0, 1⟩

end F

/-- The whole word as a field. -/
abbrev F.WORD : Fld := ⟨0, 32⟩

namespace Machine

/-- Table 01-13 (R56). -/
def rows01_13 : List RegRow := [
  ⟨0x0, [], [⟨0, 4, .ro, 0, false⟩, ⟨4, 4, .ro, 0, false⟩, ⟨16, 16, .ro, 0x6400, false⟩]⟩,
  ⟨0x4, [], [⟨0, 1, .rw, 0, false⟩]⟩,
  ⟨0x10, [], [⟨0, 2, .rwl, 1, false⟩, ⟨4, 2, .rwl, 1, false⟩, ⟨31, 1, .w1c, 0, false⟩]⟩,
  ⟨0x14, [], [⟨0, 1, .rw, 0, false⟩, ⟨1, 1, .ro, 0, false⟩, ⟨2, 1, .ro, 0, false⟩, ⟨3, 1, .w1c, 0, false⟩]⟩,
  ⟨0x18, [], [⟨0, 32, .ro, 0, false⟩]⟩,
  ⟨0x1C, [], [⟨0, 32, .ro, 0, false⟩]⟩,
  ⟨0x20, [], [⟨0, 32, .ro, 0, false⟩]⟩,
  ⟨0x24, [], [⟨0, 32, .ro, 0, false⟩]⟩,
  ⟨0x30, [], [⟨0, 16, .ro, 0, false⟩, ⟨31, 1, .wo, 0, false⟩]⟩,
  ⟨0x34, [], [⟨0, 16, .ro, 0, false⟩, ⟨31, 1, .wo, 0, false⟩]⟩,
  ⟨0x38, [], [⟨0, 16, .ro, 0, false⟩, ⟨31, 1, .wo, 0, false⟩]⟩,
  ⟨0x3C, [], [⟨0, 16, .ro, 0, false⟩, ⟨31, 1, .wo, 0, false⟩]⟩,
  ⟨0x40, [], [⟨0, 16, .ro, 0, false⟩, ⟨31, 1, .wo, 0, false⟩]⟩]

/-- Table 01-14 (R58). -/
def rows01_14 : List RegRow := [
  ⟨0x9000, [], [⟨0, 1, .rwl, 1, false⟩, ⟨1, 1, .rwl, 1, false⟩]⟩,
  ⟨0x9004, [], [⟨0, 16, .rwl, 0x200, false⟩]⟩,
  ⟨0x9008, [], [⟨0, 16, .rwl, 0x1000, false⟩]⟩,
  ⟨0x9010, [], [⟨0, 16, .ro, 0, false⟩]⟩,
  ⟨0x9014, [], [⟨0, 24, .ro, 0, false⟩]⟩,
  ⟨0x9020, [], [⟨0, 4, .ro, 0, false⟩, ⟨8, 5, .ro, 0, false⟩, ⟨16, 3, .ro, 0, false⟩, ⟨31, 1, .w1c, 0, false⟩]⟩,
  ⟨0x9024, [], [⟨0, 16, .ro, 0, false⟩]⟩,
  ⟨0x9100, [(0x8, 24)], [⟨0, 4, .rwl, 0, false⟩, ⟨4, 4, .rwl, 0, false⟩, ⟨8, 4, .rwl, 0, false⟩, ⟨12, 4, .rwl, 0, false⟩, ⟨16, 4, .rwl, 0, false⟩, ⟨20, 4, .rwl, 0, false⟩, ⟨24, 4, .rwl, 0, false⟩, ⟨28, 4, .rwl, 0, false⟩]⟩,
  ⟨0x9104, [(0x8, 24)], [⟨0, 4, .rwl, 0, false⟩, ⟨4, 4, .rwl, 0, false⟩, ⟨8, 4, .rwl, 0, false⟩, ⟨12, 4, .rwl, 0, false⟩, ⟨16, 4, .rwl, 0, false⟩, ⟨20, 4, .rwl, 0, false⟩, ⟨24, 4, .rwl, 0, false⟩, ⟨28, 4, .rwl, 0, false⟩]⟩]

/-- Table 02-7 (R94). -/
def rows02_7 : List RegRow := [
  ⟨0x2000, [], [⟨0, 1, .ro, 0, false⟩, ⟨1, 1, .ro, 0, false⟩, ⟨2, 1, .ro, 0, false⟩, ⟨3, 1, .ro, 0, false⟩]⟩,
  ⟨0x2010, [], [⟨0, 1, .rw, 0, false⟩, ⟨1, 1, .rw, 0, false⟩, ⟨2, 1, .rw, 0, false⟩, ⟨3, 1, .rwl, 1, false⟩, ⟨4, 1, .rw, 1, false⟩, ⟨5, 1, .rw, 1, false⟩]⟩,
  ⟨0x2014, [], [⟨0, 5, .rw, 4, false⟩]⟩,
  ⟨0x2018, [], [⟨0, 3, .ro, 0, false⟩, ⟨3, 1, .ro, 0, true⟩, ⟨4, 1, .ro, 0, false⟩, ⟨8, 5, .ro, 0x1F, false⟩, ⟨16, 5, .ro, 0, false⟩]⟩,
  ⟨0x201C, [], [⟨0, 32, .ro, 0, false⟩]⟩,
  ⟨0x2020, [], [⟨0, 32, .rw, 0, false⟩]⟩,
  ⟨0x2024, [], [⟨0, 32, .ro, 0, false⟩]⟩,
  ⟨0x2028, [], [⟨0, 32, .ro, 0, false⟩]⟩,
  ⟨0x202C, [], [⟨0, 24, .wo, 0, false⟩]⟩,
  ⟨0x2030, [], [⟨0, 32, .ro, 0, false⟩]⟩,
  ⟨0x2034, [], [⟨0, 16, .rw, 0x64, false⟩, ⟨16, 16, .rw, 0x3E8, false⟩]⟩,
  ⟨0x2038, [], [⟨0, 8, .rw, 0x10, false⟩]⟩,
  ⟨0x203C, [], [⟨0, 10, .rw, 0x32, false⟩, ⟨16, 8, .rw, 0xA, false⟩]⟩,
  ⟨0x2040, [], [⟨0, 8, .rw, 0x32, false⟩, ⟨8, 8, .rw, 0x64, false⟩, ⟨16, 8, .rw, 0x14, false⟩, ⟨24, 8, .rw, 0xA, false⟩]⟩,
  ⟨0x2044, [], [⟨0, 12, .rw, 0x258, false⟩, ⟨16, 8, .rw, 0xA, false⟩]⟩,
  ⟨0x2048, [], [⟨0, 1, .rw, 0, false⟩, ⟨1, 1, .ro, 0, false⟩, ⟨16, 16, .ro, 0, false⟩]⟩,
  ⟨0x204C, [], [⟨0, 16, .rw, 0, false⟩, ⟨16, 16, .rw, 0, false⟩]⟩,
  ⟨0x2050, [], [⟨0, 16, .rw, 0x190, false⟩]⟩,
  ⟨0x2054, [], [⟨0, 16, .rw, 0, true⟩, ⟨16, 2, .rw, 0, false⟩, ⟨18, 1, .ro, 0, true⟩, ⟨24, 5, .rw, 7, false⟩]⟩,
  ⟨0x2058, [], [⟨0, 32, .ro, 0, true⟩]⟩,
  ⟨0x205C, [], [⟨0, 16, .ro, 0, true⟩]⟩,
  ⟨0x2080, [(0x4, 22)], [⟨0, 1, .rw, 0, false⟩, ⟨4, 4, .rw, 0, false⟩, ⟨8, 5, .rw, 0, false⟩, ⟨16, 2, .rwl, 0, false⟩, ⟨18, 2, .rwl, 0, false⟩]⟩,
  ⟨0x2100, [(0x4, 22)], [⟨0, 1, .ro, 0, false⟩, ⟨1, 1, .ro, 0, false⟩, ⟨2, 1, .ro, 0, false⟩, ⟨3, 1, .w1c, 0, false⟩, ⟨16, 16, .ro, 0, false⟩]⟩]

/-- Table 02-8 (R95). -/
def rows02_8 : List RegRow := [
  ⟨0x3000, [], [⟨0, 1, .rw, 0, true⟩, ⟨1, 1, .rw, 0, true⟩, ⟨2, 1, .rw, 1, true⟩]⟩,
  ⟨0x3004, [], [⟨0, 1, .ro, 0, true⟩, ⟨1, 1, .w1c, 0, true⟩, ⟨2, 1, .w1c, 0, true⟩, ⟨3, 1, .w1c, 0, true⟩, ⟨4, 1, .ro, 0, true⟩, ⟨5, 1, .w1c, 0, true⟩]⟩,
  ⟨0x3008, [], [⟨0, 32, .rw, 0x3E8, true⟩]⟩,
  ⟨0x300C, [], [⟨0, 32, .ro, 0, true⟩]⟩,
  ⟨0x3010, [], [⟨0, 32, .rw, 0, true⟩]⟩,
  ⟨0x3018, [], [⟨0, 32, .ro, 0, true⟩]⟩,
  ⟨0x301C, [], [⟨0, 32, .ro, 0, true⟩]⟩,
  ⟨0x3020, [], [⟨0, 16, .ro, 0, true⟩]⟩,
  ⟨0x3024, [], [⟨0, 30, .ro, 0, true⟩]⟩,
  ⟨0x3028, [], [⟨0, 32, .ro, 0, true⟩]⟩,
  ⟨0x302C, [], [⟨0, 16, .ro, 0, true⟩]⟩,
  ⟨0x3030, [], [⟨0, 32, .ro, 0, true⟩]⟩,
  ⟨0x3034, [], [⟨0, 32, .ro, 0, true⟩]⟩,
  ⟨0x3038, [], [⟨0, 16, .ro, 0, true⟩]⟩,
  ⟨0x303C, [], [⟨0, 30, .ro, 0, true⟩]⟩,
  ⟨0x3040, [], [⟨0, 32, .ro, 0, true⟩]⟩,
  ⟨0x3044, [], [⟨0, 16, .ro, 0, true⟩]⟩,
  ⟨0x3050, [], [⟨0, 32, .rw, 0, true⟩]⟩,
  ⟨0x3054, [], [⟨0, 16, .rw, 0, true⟩]⟩,
  ⟨0x3058, [], [⟨0, 30, .rw, 0, true⟩]⟩,
  ⟨0x305C, [], [⟨0, 32, .rw, 0, true⟩]⟩,
  ⟨0x3060, [], [⟨0, 16, .rw, 0, true⟩]⟩,
  ⟨0x3064, [], [⟨0, 1, .wo, 0, true⟩, ⟨1, 1, .wo, 0, true⟩]⟩,
  ⟨0x3070, [], [⟨0, 24, .rw, 0, true⟩]⟩,
  ⟨0x3074, [], [⟨0, 10, .rw, 0x64, true⟩]⟩]

/-- Table 03-6 (R134). -/
def rows03_6 : List RegRow := [
  ⟨0x28000, [], [⟨0, 1, .rw, 1, false⟩]⟩,
  ⟨0x28004, [], [⟨0, 16, .ro, 0x20, false⟩, ⟨16, 16, .ro, 0x400, false⟩]⟩,
  ⟨0x28008, [], [⟨0, 1, .w1c, 0, false⟩, ⟨1, 1, .w1c, 0, false⟩, ⟨2, 1, .w1c, 0, false⟩, ⟨3, 1, .w1c, 0, false⟩, ⟨4, 1, .w1c, 0, false⟩]⟩,
  ⟨0x2800C, [], [⟨0, 10, .ro, 0, false⟩, ⟨16, 16, .ro, 0, false⟩]⟩,
  ⟨0x28010, [], [⟨0, 31, .ro, 0, false⟩, ⟨31, 1, .wo, 0, false⟩]⟩,
  ⟨0x28020, [], [⟨0, 8, .rw, 0x64, false⟩, ⟨8, 8, .rw, 0xC8, false⟩, ⟨16, 8, .rw, 0xA, false⟩, ⟨24, 8, .rw, 0x7D, false⟩]⟩,
  ⟨0x28080, [(0x8, 8)], [⟨0, 16, .rw, 0, false⟩, ⟨16, 16, .rw, 0, false⟩]⟩,
  ⟨0x28084, [(0x8, 8)], [⟨0, 16, .ro, 0, false⟩, ⟨16, 1, .ro, 0, false⟩, ⟨17, 1, .w1c, 0, false⟩, ⟨18, 1, .w1c, 0, false⟩]⟩,
  ⟨0x28400, [(0x4, 64)], [⟨0, 32, .ro, 0xFFFFFFFF, false⟩]⟩,
  ⟨0x29000, [(0x4, 1024)], [⟨0, 12, .ro, 0, false⟩, ⟨12, 4, .ro, 0, false⟩]⟩]

/-- Table 03-7 (R135). -/
def rows03_7 : List RegRow := [
  ⟨0x20000, [(0x400, 16)], [⟨0, 2, .rw, 0, false⟩, ⟨2, 1, .rw, 0, false⟩, ⟨3, 1, .rw, 1, false⟩, ⟨4, 2, .rw, 2, false⟩, ⟨6, 1, .rw, 0, false⟩, ⟨7, 1, .rw, 0, false⟩, ⟨8, 1, .rw, 0, false⟩, ⟨9, 1, .rw, 0, false⟩, ⟨10, 1, .rw, 0, false⟩, ⟨11, 1, .rw, 0, false⟩, ⟨16, 5, .rw, 0xF, false⟩]⟩,
  ⟨0x20004, [(0x400, 16)], [⟨0, 18, .rw, 0, false⟩]⟩,
  ⟨0x20008, [(0x400, 16)], [⟨0, 24, .rw, 0xA00000, false⟩, ⟨24, 8, .rw, 0xF, false⟩]⟩,
  ⟨0x2000C, [(0x400, 16)], [⟨0, 32, .rw, 0, false⟩]⟩,
  ⟨0x20010, [(0x400, 16)], [⟨0, 32, .rw, 0, false⟩]⟩,
  ⟨0x20014, [(0x400, 16)], [⟨0, 10, .rw, 0, false⟩, ⟨16, 10, .rw, 0, false⟩]⟩,
  ⟨0x20018, [(0x400, 16)], [⟨0, 2, .ro, 0, false⟩, ⟨2, 1, .w1c, 0, false⟩, ⟨3, 1, .w1c, 0, false⟩, ⟨4, 1, .w1c, 0, false⟩, ⟨5, 1, .w1c, 0, false⟩, ⟨6, 1, .w1c, 0, false⟩, ⟨7, 1, .ro, 0, false⟩]⟩,
  ⟨0x2001C, [(0x400, 16)], [⟨0, 32, .ro, 0, false⟩]⟩,
  ⟨0x20020, [(0x400, 16)], [⟨0, 16, .ro, 0, false⟩, ⟨16, 16, .ro, 0, false⟩]⟩,
  ⟨0x20024, [(0x400, 16)], [⟨0, 16, .ro, 0, false⟩, ⟨16, 16, .ro, 0, false⟩]⟩,
  ⟨0x20028, [(0x400, 16)], [⟨0, 16, .ro, 0, false⟩, ⟨16, 16, .ro, 0, false⟩]⟩,
  ⟨0x2002C, [(0x400, 16)], [⟨0, 16, .ro, 0, false⟩, ⟨16, 1, .ro, 0, false⟩]⟩,
  ⟨0x20040, [(0x400, 16)], [⟨6, 26, .rw, 0, false⟩]⟩,
  ⟨0x20044, [(0x400, 16)], [⟨0, 25, .rw, 0, false⟩]⟩,
  ⟨0x20048, [(0x400, 16)], [⟨0, 1, .rw, 0, false⟩, ⟨1, 1, .rw, 0, false⟩, ⟨2, 1, .wo, 0, false⟩]⟩,
  ⟨0x2004C, [(0x400, 16)], [⟨0, 25, .ro, 0, false⟩]⟩,
  ⟨0x20050, [(0x400, 16)], [⟨0, 32, .ro, 0, false⟩]⟩]

/-- Table 03-8 (R136). -/
def rows03_8 : List RegRow := [
  ⟨0x24000, [(0x100, 16)], [⟨0, 1, .rw, 0, false⟩, ⟨1, 1, .rw, 0, false⟩, ⟨2, 1, .rw, 0, false⟩, ⟨16, 10, .rw, 0, false⟩]⟩,
  ⟨0x24004, [(0x100, 16)], [⟨0, 18, .rw, 0, false⟩]⟩,
  ⟨0x24008, [(0x100, 16)], [⟨0, 2, .ro, 0, false⟩, ⟨2, 1, .ro, 0, false⟩, ⟨3, 1, .ro, 0, false⟩, ⟨4, 1, .w1c, 0, false⟩, ⟨5, 1, .w1c, 0, false⟩, ⟨6, 1, .w1c, 0, false⟩, ⟨7, 1, .w1c, 0, false⟩, ⟨8, 1, .w1c, 0, false⟩, ⟨9, 1, .w1c, 0, false⟩, ⟨10, 1, .w1c, 0, false⟩, ⟨11, 1, .w1c, 0, false⟩]⟩,
  ⟨0x2400C, [(0x100, 16)], [⟨0, 32, .ro, 0, false⟩]⟩,
  ⟨0x24010, [(0x100, 16)], [⟨0, 16, .ro, 0, false⟩, ⟨16, 16, .ro, 0, false⟩]⟩,
  ⟨0x24014, [(0x100, 16)], [⟨0, 16, .ro, 0, false⟩, ⟨16, 16, .ro, 0, false⟩]⟩,
  ⟨0x24018, [(0x100, 16)], [⟨0, 16, .ro, 0, false⟩, ⟨16, 16, .ro, 0, false⟩]⟩,
  ⟨0x2401C, [(0x100, 16)], [⟨0, 16, .ro, 0, false⟩, ⟨16, 1, .ro, 0, false⟩]⟩,
  ⟨0x24020, [(0x100, 16)], [⟨0, 32, .ro, 0, false⟩]⟩,
  ⟨0x24040, [(0x100, 16), (0x4, 6)], [⟨0, 32, .ro, 0, false⟩]⟩,
  ⟨0x24058, [(0x100, 16), (0x4, 6)], [⟨0, 32, .ro, 0, false⟩]⟩,
  ⟨0x24080, [(0x100, 16), (0x4, 6)], [⟨0, 32, .ro, 0, false⟩]⟩,
  ⟨0x24098, [(0x100, 16), (0x4, 6)], [⟨0, 32, .ro, 0, false⟩]⟩,
  ⟨0x25000, [(0x100, 16)], [⟨0, 1, .rw, 0, false⟩, ⟨1, 1, .rw, 1, false⟩, ⟨2, 2, .rw, 0, false⟩, ⟨16, 10, .rw, 0, false⟩]⟩,
  ⟨0x25004, [(0x100, 16)], [⟨0, 1, .ro, 0, false⟩, ⟨1, 1, .ro, 0, false⟩, ⟨2, 1, .ro, 0, false⟩]⟩,
  ⟨0x25008, [(0x100, 16)], [⟨0, 1, .wo, 0, false⟩]⟩,
  ⟨0x25040, [(0x100, 16), (0x4, 6)], [⟨0, 32, .rw, 0, false⟩]⟩,
  ⟨0x25058, [(0x100, 16), (0x4, 6)], [⟨0, 32, .rw, 0, false⟩]⟩,
  ⟨0x25080, [(0x100, 16), (0x4, 6)], [⟨0, 32, .rw, 0, false⟩]⟩,
  ⟨0x25098, [(0x100, 16), (0x4, 6)], [⟨0, 32, .rw, 0, false⟩]⟩,
  ⟨0x26000, [(0x4, 64)], [⟨0, 1, .rw, 0, false⟩, ⟨1, 1, .rw, 0, false⟩, ⟨2, 4, .rw, 0, false⟩, ⟨6, 5, .rw, 0, false⟩, ⟨16, 10, .rw, 0, false⟩]⟩,
  ⟨0x26100, [(0x4, 32)], [⟨0, 1, .ro, 0, false⟩, ⟨1, 1, .w1c, 0, false⟩]⟩,
  ⟨0x26180, [(0x4, 32)], [⟨0, 32, .ro, 0, false⟩]⟩]

/-- Table 04-13 (R173). -/
def rows04_13 : List RegRow := [
  ⟨0x30000, [(0x1000, 8)], [⟨0, 1, .w1c, 0, false⟩, ⟨1, 1, .w1c, 0, false⟩, ⟨2, 1, .ro, 0, false⟩]⟩,
  ⟨0x30004, [(0x1000, 8)], [⟨0, 16, .ro, 0, false⟩, ⟨16, 16, .ro, 0, false⟩]⟩,
  ⟨0x30008, [(0x1000, 8)], [⟨0, 16, .ro, 0, false⟩, ⟨16, 16, .ro, 0, false⟩]⟩,
  ⟨0x3000C, [(0x1000, 8)], [⟨0, 20, .ro, 0, false⟩]⟩,
  ⟨0x30100, [(0x1000, 8), (0x100, 8)], [⟨0, 1, .rw, 0, false⟩, ⟨1, 1, .rwl, 0, false⟩, ⟨2, 1, .wo, 0, false⟩, ⟨3, 1, .wo, 0, false⟩]⟩,
  ⟨0x30104, [(0x1000, 8), (0x100, 8)], [⟨0, 3, .ro, 0, false⟩, ⟨3, 1, .ro, 0, false⟩, ⟨4, 2, .ro, 0, false⟩, ⟨6, 1, .ro, 0, false⟩]⟩,
  ⟨0x30108, [(0x1000, 8), (0x100, 8)], [⟨0, 4, .ro, 0, false⟩, ⟨16, 13, .ro, 0, false⟩, ⟨31, 1, .w1c, 0, false⟩]⟩,
  ⟨0x3010C, [(0x1000, 8), (0x100, 8)], [⟨0, 32, .ro, 0, false⟩]⟩,
  ⟨0x30110, [(0x1000, 8), (0x100, 8)], [⟨0, 20, .ro, 0, false⟩]⟩,
  ⟨0x30114, [(0x1000, 8), (0x100, 8)], [⟨0, 20, .ro, 0, false⟩]⟩,
  ⟨0x30118, [(0x1000, 8), (0x100, 8)], [⟨0, 20, .rw, 0, false⟩]⟩,
  ⟨0x3011C, [(0x1000, 8), (0x100, 8)], [⟨0, 1, .ro, 0, false⟩, ⟨1, 1, .ro, 0, false⟩, ⟨2, 1, .ro, 0, false⟩]⟩,
  ⟨0x30120, [(0x1000, 8), (0x100, 8)], [⟨0, 16, .ro, 0, false⟩, ⟨16, 16, .ro, 0, false⟩]⟩,
  ⟨0x30124, [(0x1000, 8), (0x100, 8)], [⟨0, 16, .ro, 0, false⟩, ⟨16, 16, .ro, 0, false⟩]⟩,
  ⟨0x30128, [(0x1000, 8), (0x100, 8)], [⟨0, 16, .ro, 0, false⟩]⟩,
  ⟨0x3012C, [(0x1000, 8), (0x100, 8)], [⟨0, 32, .ro, 0, false⟩]⟩,
  ⟨0x30130, [(0x1000, 8), (0x100, 8)], [⟨0, 13, .ro, 0, false⟩]⟩,
  ⟨0x30134, [(0x1000, 8), (0x100, 8)], [⟨0, 7, .ro, 0, false⟩, ⟨8, 7, .ro, 0, false⟩]⟩]

/-- Table 06-7 (R244). -/
def rows06_7 : List RegRow := [
  ⟨0x38000, [], [⟨0, 1, .rw, 1, false⟩, ⟨1, 1, .rw, 1, false⟩]⟩,
  ⟨0x38004, [], [⟨0, 1, .w1c, 0, false⟩, ⟨1, 1, .w1c, 0, false⟩, ⟨2, 1, .ro, 0, false⟩, ⟨3, 1, .ro, 0, false⟩]⟩,
  ⟨0x38008, [], [⟨0, 15, .ro, 0, false⟩]⟩,
  ⟨0x3800C, [], [⟨0, 20, .ro, 0, false⟩]⟩,
  ⟨0x38010, [], [⟨0, 31, .ro, 0, false⟩, ⟨31, 1, .wo, 0, false⟩]⟩,
  ⟨0x38020, [], [⟨0, 16, .rw, 0x7D0, false⟩, ⟨16, 4, .rw, 7, false⟩]⟩,
  ⟨0x38024, [], [⟨0, 11, .rw, 0, false⟩, ⟨16, 11, .rw, 0, false⟩, ⟨31, 1, .wo, 0, false⟩]⟩,
  ⟨0x38030, [], [⟨0, 32, .rw, 0, false⟩]⟩,
  ⟨0x38034, [], [⟨0, 32, .rw, 0, false⟩]⟩,
  ⟨0x38038, [], [⟨0, 32, .ro, 0, false⟩]⟩,
  ⟨0x3803C, [], [⟨0, 32, .ro, 0, false⟩]⟩,
  ⟨0x38040, [], [⟨0, 32, .w1c, 0, false⟩]⟩,
  ⟨0x38044, [], [⟨0, 32, .w1c, 0, false⟩]⟩,
  ⟨0x38400, [(0x50, 3), (0x14, 4), (0x4, 5)], [⟨0, 32, .ro, 0, false⟩]⟩]

/-- Table 06-8 (R245). -/
def rows06_8 : List RegRow := [
  ⟨0x3C000, [], [⟨0, 1, .rw, 1, false⟩]⟩,
  ⟨0x3C004, [], [⟨0, 1, .w1c, 0, false⟩, ⟨1, 1, .w1c, 0, false⟩, ⟨2, 1, .ro, 0, false⟩, ⟨3, 1, .w1c, 0, false⟩]⟩,
  ⟨0x3C008, [], [⟨0, 11, .ro, 0, false⟩]⟩,
  ⟨0x3C00C, [], [⟨0, 26, .ro, 0, false⟩]⟩,
  ⟨0x3C010, [], [⟨0, 12, .ro, 0, false⟩]⟩,
  ⟨0x3C014, [], [⟨0, 16, .ro, 0, false⟩]⟩,
  ⟨0x3C018, [], [⟨0, 11, .ro, 0, false⟩]⟩,
  ⟨0x3C020, [], [⟨0, 32, .ro, 0, false⟩]⟩]

/-- Table 07-8 (R281). -/
def rows07_8 : List RegRow := [
  ⟨0x40000, [], [⟨0, 8, .rw, 0xC, false⟩]⟩,
  ⟨0x40004, [], [⟨0, 16, .ro, 0, false⟩, ⟨16, 1, .w1c, 0, false⟩, ⟨17, 1, .w1c, 0, false⟩, ⟨18, 1, .w1c, 0, false⟩]⟩,
  ⟨0x40008, [], [⟨0, 19, .ro, 0x40000, false⟩]⟩,
  ⟨0x40010, [], [⟨0, 4, .ro, 0, false⟩, ⟨8, 4, .ro, 0, false⟩, ⟨12, 2, .ro, 0, false⟩, ⟨31, 1, .w1c, 0, false⟩]⟩,
  ⟨0x40014, [], [⟨0, 16, .ro, 0, false⟩]⟩,
  ⟨0x40018, [], [⟨0, 16, .ro, 0, false⟩]⟩,
  ⟨0x40100, [(0x20, 16)], [⟨0, 3, .ro, 0, false⟩, ⟨3, 1, .ro, 0, false⟩, ⟨4, 1, .ro, 0, false⟩, ⟨5, 2, .ro, 0, false⟩]⟩,
  ⟨0x40104, [(0x20, 16)], [⟨0, 19, .ro, 0, false⟩]⟩,
  ⟨0x40108, [(0x20, 16)], [⟨0, 32, .ro, 0, false⟩]⟩,
  ⟨0x4010C, [(0x20, 16)], [⟨0, 32, .ro, 0, false⟩]⟩,
  ⟨0x40110, [(0x20, 16)], [⟨0, 32, .ro, 0, false⟩]⟩,
  ⟨0x40114, [(0x20, 16)], [⟨0, 8, .ro, 0, false⟩]⟩]

/-- Table 07-9 (R282). -/
def rows07_9 : List RegRow := [
  ⟨0x44000, [], [⟨0, 1, .rw, 1, false⟩, ⟨1, 1, .rw, 1, false⟩, ⟨2, 1, .rw, 0, false⟩, ⟨3, 1, .rw, 0, false⟩, ⟨4, 1, .rw, 0, false⟩, ⟨5, 1, .rw, 1, false⟩, ⟨8, 1, .rw, 0, false⟩]⟩,
  ⟨0x44004, [], [⟨0, 1, .wo, 0, false⟩]⟩,
  ⟨0x44008, [], [⟨0, 1, .rw, 0, false⟩]⟩,
  ⟨0x4400C, [], [⟨0, 1, .ro, 0, false⟩, ⟨1, 1, .ro, 0, false⟩, ⟨2, 1, .w1c, 0, false⟩, ⟨3, 1, .w1c, 0, false⟩, ⟨8, 6, .ro, 0, false⟩]⟩,
  ⟨0x44010, [], [⟨0, 32, .ro, 0, false⟩]⟩,
  ⟨0x44014, [], [⟨0, 16, .ro, 0, false⟩]⟩,
  ⟨0x44020, [], [⟨0, 30, .rw, 0, false⟩]⟩,
  ⟨0x44024, [], [⟨0, 32, .rw, 0, false⟩]⟩,
  ⟨0x44028, [], [⟨0, 16, .rw, 0, false⟩]⟩,
  ⟨0x4402C, [], [⟨0, 1, .rw, 0, false⟩]⟩,
  ⟨0x44030, [], [⟨0, 1, .rw, 0, false⟩, ⟨4, 4, .rw, 2, false⟩]⟩,
  ⟨0x44034, [], [⟨0, 16, .rw, 0x300, false⟩]⟩,
  ⟨0x44038, [], [⟨0, 12, .rw, 0, false⟩, ⟨16, 12, .rw, 0, false⟩]⟩,
  ⟨0x44040, [], [⟨0, 30, .ro, 0, false⟩]⟩,
  ⟨0x44044, [], [⟨0, 32, .ro, 0, false⟩]⟩,
  ⟨0x44048, [], [⟨0, 16, .ro, 0, false⟩]⟩,
  ⟨0x4404C, [], [⟨0, 32, .ro, 0, false⟩]⟩,
  ⟨0x44050, [], [⟨0, 32, .ro, 0, false⟩]⟩,
  ⟨0x44054, [], [⟨0, 32, .ro, 0, false⟩]⟩,
  ⟨0x44058, [], [⟨0, 19, .ro, 0, false⟩]⟩,
  ⟨0x4405C, [], [⟨0, 32, .ro, 0, false⟩]⟩,
  ⟨0x44060, [], [⟨0, 32, .ro, 0, false⟩]⟩,
  ⟨0x44064, [], [⟨0, 32, .ro, 0, false⟩]⟩]

/-- Table 08-10 (R324). -/
def rows08_10 : List RegRow := [
  ⟨0x10000, [(0x1000, 8)], [⟨0, 2, .rw, 0, false⟩, ⟨2, 2, .rw, 0, false⟩, ⟨4, 1, .rw, 1, false⟩, ⟨5, 1, .rw, 0, false⟩, ⟨6, 1, .rw, 1, false⟩, ⟨7, 1, .rw, 0, false⟩, ⟨8, 2, .rw, 0, false⟩, ⟨10, 12, .rw, 1, false⟩]⟩,
  ⟨0x10004, [(0x1000, 8)], [⟨0, 1, .ro, 0, false⟩, ⟨1, 1, .ro, 0, false⟩, ⟨2, 1, .ro, 0, false⟩, ⟨3, 1, .w1c, 0, false⟩, ⟨4, 1, .w1c, 0, false⟩, ⟨5, 1, .ro, 0, false⟩, ⟨6, 1, .w1c, 0, false⟩]⟩,
  ⟨0x10008, [(0x1000, 8)], [⟨0, 32, .rw, 0, false⟩]⟩,
  ⟨0x1000C, [(0x1000, 8)], [⟨0, 16, .rw, 0, false⟩]⟩,
  ⟨0x10010, [(0x1000, 8)], [⟨0, 32, .rw, 0, false⟩]⟩,
  ⟨0x10014, [(0x1000, 8)], [⟨0, 14, .rw, 0x5F2, false⟩]⟩,
  ⟨0x10018, [(0x1000, 8)], [⟨0, 16, .rw, 0x7D0, false⟩, ⟨16, 1, .rw, 1, false⟩]⟩,
  ⟨0x1001C, [(0x1000, 8)], [⟨0, 16, .rw, 0x64, false⟩]⟩,
  ⟨0x10020, [(0x1000, 8)], [⟨0, 6, .rw, 0, false⟩]⟩,
  ⟨0x10024, [(0x1000, 8)], [⟨0, 16, .rw, 0, false⟩, ⟨16, 16, .rw, 0, false⟩]⟩,
  ⟨0x10028, [(0x1000, 8)], [⟨0, 16, .rw, 0x14, false⟩]⟩,
  ⟨0x10040, [(0x1000, 8), (0x10, 8)], [⟨0, 10, .rw, 0x40, false⟩, ⟨16, 1, .rw, 0, false⟩]⟩,
  ⟨0x10044, [(0x1000, 8), (0x10, 8)], [⟨0, 32, .rw, 0, false⟩]⟩,
  ⟨0x10048, [(0x1000, 8), (0x10, 8)], [⟨0, 32, .rw, 0x7FFFFFFF, false⟩]⟩,
  ⟨0x1004C, [(0x1000, 8), (0x10, 8)], [⟨0, 32, .rw, 0x80000000, false⟩]⟩,
  ⟨0x10100, [(0x1000, 8), (0x8, 64)], [⟨0, 32, .rw, 0, false⟩]⟩,
  ⟨0x10104, [(0x1000, 8), (0x8, 64)], [⟨0, 16, .rw, 0, false⟩, ⟨31, 1, .rw, 0, false⟩]⟩,
  ⟨0x10300, [(0x1000, 8)], [⟨0, 32, .ro, 0, false⟩]⟩,
  ⟨0x10304, [(0x1000, 8)], [⟨0, 32, .ro, 0, false⟩]⟩,
  ⟨0x10308, [(0x1000, 8)], [⟨0, 32, .ro, 0, false⟩]⟩,
  ⟨0x1030C, [(0x1000, 8)], [⟨0, 32, .ro, 0, false⟩]⟩,
  ⟨0x10310, [(0x1000, 8)], [⟨0, 32, .ro, 0, false⟩]⟩,
  ⟨0x10314, [(0x1000, 8)], [⟨0, 32, .ro, 0, false⟩]⟩,
  ⟨0x10318, [(0x1000, 8)], [⟨0, 32, .ro, 0, false⟩]⟩,
  ⟨0x1031C, [(0x1000, 8)], [⟨0, 32, .ro, 0, false⟩]⟩,
  ⟨0x10320, [(0x1000, 8)], [⟨0, 32, .ro, 0, false⟩]⟩,
  ⟨0x10324, [(0x1000, 8)], [⟨0, 32, .ro, 0, false⟩]⟩,
  ⟨0x10328, [(0x1000, 8)], [⟨0, 32, .ro, 0, false⟩]⟩,
  ⟨0x1032C, [(0x1000, 8)], [⟨0, 32, .ro, 0, false⟩]⟩,
  ⟨0x10330, [(0x1000, 8)], [⟨0, 1, .wo, 0, false⟩]⟩,
  ⟨0x10400, [(0x1000, 8)], [⟨0, 1, .rw, 0, false⟩, ⟨1, 1, .rw, 0, false⟩, ⟨4, 3, .ro, 0, false⟩]⟩,
  ⟨0x10404, [(0x1000, 8)], [⟨0, 32, .ro, 0, false⟩]⟩,
  ⟨0x10408, [(0x1000, 8)], [⟨0, 32, .rw, 0, false⟩]⟩,
  ⟨0x10800, [], [⟨0, 1, .rwl, 0, false⟩, ⟨1, 2, .rwl, 2, false⟩, ⟨3, 1, .rw, 0, false⟩, ⟨4, 1, .rw, 1, false⟩, ⟨5, 1, .rw, 0, false⟩, ⟨8, 8, .rw, 0, false⟩, ⟨16, 8, .rw, 0x80, false⟩, ⟨24, 8, .rw, 0x80, false⟩]⟩,
  ⟨0x10804, [], [⟨0, 8, .rw, 0xF8, false⟩, ⟨8, 8, .rw, 0xFD, false⟩, ⟨16, 8, .rw, 0, false⟩, ⟨24, 8, .rw, 0, false⟩]⟩,
  ⟨0x10808, [], [⟨0, 32, .ro, 0, false⟩]⟩,
  ⟨0x1080C, [], [⟨0, 32, .ro, 0, false⟩]⟩,
  ⟨0x10810, [], [⟨0, 32, .ro, 0, false⟩]⟩,
  ⟨0x10814, [], [⟨0, 3, .ro, 0, false⟩, ⟨3, 1, .ro, 0, false⟩]⟩]

/-- Table 08-11 (R325). -/
def rows08_11 : List RegRow := [
  ⟨0x18000, [], [⟨0, 1, .rw, 1, false⟩]⟩,
  ⟨0x18004, [], [⟨0, 1, .w1c, 0, false⟩, ⟨1, 1, .w1c, 0, false⟩, ⟨2, 1, .w1c, 0, false⟩, ⟨3, 1, .w1c, 0, false⟩, ⟨4, 1, .w1c, 0, false⟩, ⟨5, 1, .w1c, 0, false⟩, ⟨6, 1, .ro, 0, false⟩]⟩,
  ⟨0x18008, [], [⟨22, 10, .rwl, 0, false⟩]⟩,
  ⟨0x1800C, [], [⟨0, 25, .ro, 0, false⟩]⟩,
  ⟨0x18010, [], [⟨0, 10, .ro, 0, false⟩, ⟨12, 4, .ro, 0, false⟩, ⟨31, 1, .w1c, 0, false⟩]⟩,
  ⟨0x18014, [], [⟨0, 10, .rw, 0, false⟩, ⟨16, 10, .rw, 0, false⟩, ⟨31, 1, .wo, 0, false⟩]⟩]

/-- Table 09-11 (R356). -/
def rows09_11 : List RegRow := [
  ⟨0x48000, [(0x1000, 2)], [⟨0, 1, .rw, 1, false⟩, ⟨8, 4, .rw, 3, false⟩]⟩,
  ⟨0x48004, [(0x1000, 2)], [⟨0, 16, .rw, 0x32, false⟩, ⟨16, 16, .rw, 0xA, false⟩]⟩,
  ⟨0x48008, [(0x1000, 2)], [⟨0, 2, .ro, 0, false⟩, ⟨2, 1, .ro, 0, false⟩, ⟨3, 1, .ro, 0, false⟩, ⟨4, 1, .ro, 0, false⟩, ⟨5, 1, .ro, 0, false⟩, ⟨6, 1, .ro, 0, false⟩, ⟨7, 1, .ro, 0, false⟩, ⟨8, 3, .ro, 0, false⟩, ⟨11, 1, .ro, 0, false⟩, ⟨16, 1, .w1c, 0, false⟩, ⟨17, 1, .w1c, 0, false⟩, ⟨18, 1, .w1c, 0, false⟩, ⟨19, 1, .w1c, 0, false⟩, ⟨20, 1, .w1c, 0, false⟩]⟩,
  ⟨0x4800C, [(0x1000, 2)], [⟨0, 32, .ro, 0, false⟩]⟩,
  ⟨0x48010, [(0x1000, 2)], [⟨0, 32, .ro, 0, false⟩]⟩,
  ⟨0x48014, [(0x1000, 2)], [⟨0, 32, .ro, 0, false⟩]⟩,
  ⟨0x48018, [(0x1000, 2)], [⟨0, 32, .ro, 0, false⟩]⟩,
  ⟨0x4801C, [(0x1000, 2)], [⟨0, 32, .ro, 0, false⟩]⟩,
  ⟨0x48020, [(0x1000, 2)], [⟨0, 1, .wo, 0, false⟩]⟩,
  ⟨0x48024, [(0x1000, 2)], [⟨0, 32, .ro, 0, false⟩]⟩,
  ⟨0x48028, [(0x1000, 2)], [⟨0, 32, .ro, 0, false⟩]⟩,
  ⟨0x4802C, [(0x1000, 2)], [⟨0, 32, .ro, 0, false⟩]⟩,
  ⟨0x48030, [(0x1000, 2)], [⟨0, 6, .ro, 0, false⟩, ⟨8, 8, .ro, 0, false⟩, ⟨31, 1, .w1c, 0, false⟩]⟩,
  ⟨0x48100, [(0x1000, 2), (0x4, 32)], [⟨0, 10, .rw, 0, false⟩, ⟨31, 1, .rw, 1, false⟩]⟩]

/-- Table 12-14 (R451). -/
def rows12_14 : List RegRow := [
  ⟨0x1000, [], [⟨0, 1, .rw, 0, false⟩]⟩,
  ⟨0x1004, [], [⟨0, 3, .ro, 0, false⟩, ⟨3, 3, .ro, 0, false⟩, ⟨6, 1, .ro, 0, false⟩, ⟨8, 1, .w1c, 0, false⟩, ⟨9, 1, .w1c, 0, false⟩]⟩,
  ⟨0x1008, [], [⟨9, 23, .rw, 0, false⟩]⟩,
  ⟨0x100C, [], [⟨0, 32, .rw, 0, false⟩]⟩,
  ⟨0x1010, [], [⟨0, 1, .wo, 0, false⟩]⟩,
  ⟨0x1014, [], [⟨0, 6, .rw, 0, false⟩]⟩,
  ⟨0x1018, [], [⟨0, 6, .ro, 0, false⟩, ⟨8, 3, .ro, 0, false⟩, ⟨31, 1, .w1c, 0, false⟩]⟩,
  ⟨0x101C, [], [⟨0, 32, .ro, 0, false⟩]⟩,
  ⟨0x1020, [], [⟨0, 32, .ro, 0, false⟩]⟩,
  ⟨0x1800, [(0x20, 64)], [⟨12, 20, .rw, 0, false⟩]⟩,
  ⟨0x1804, [(0x20, 64)], [⟨0, 32, .rw, 0, false⟩]⟩,
  ⟨0x1808, [(0x20, 64)], [⟨12, 20, .rw, 0, false⟩]⟩,
  ⟨0x180C, [(0x20, 64)], [⟨0, 32, .rw, 0, false⟩]⟩,
  ⟨0x1810, [(0x20, 64)], [⟨0, 4, .rw, 4, false⟩, ⟨4, 4, .rw, 4, false⟩, ⟨8, 6, .rw, 0, false⟩, ⟨14, 1, .rw, 0, false⟩, ⟨16, 8, .rw, 1, false⟩, ⟨24, 8, .rw, 0, false⟩]⟩,
  ⟨0x1814, [(0x20, 64)], [⟨0, 1, .rw, 0, false⟩, ⟨1, 1, .rw, 0, false⟩]⟩,
  ⟨0x1818, [(0x20, 64)], [⟨0, 12, .rw, 0, false⟩, ⟨16, 12, .rw, 0, false⟩, ⟨28, 1, .rw, 1, false⟩]⟩,
  ⟨0x181C, [(0x20, 64)], [⟨0, 3, .ro, 0, false⟩, ⟨3, 1, .w1c, 0, false⟩, ⟨4, 1, .w1c, 0, false⟩, ⟨16, 13, .ro, 0, false⟩]⟩]

/-- Table 13-6 (R472). -/
def rows13_6 : List RegRow := [
  ⟨0x8000, [], [⟨0, 1, .rwl, 1, false⟩, ⟨1, 1, .wo, 0, false⟩, ⟨4, 3, .rw, 0, false⟩, ⟨8, 8, .rw, 0x14, false⟩, ⟨16, 8, .rw, 0x32, false⟩]⟩,
  ⟨0x8004, [], [⟨0, 3, .ro, 0, false⟩, ⟨3, 1, .ro, 0, false⟩, ⟨4, 3, .ro, 0, false⟩, ⟨8, 3, .ro, 0, false⟩, ⟨11, 1, .ro, 0, false⟩, ⟨12, 1, .ro, 0, false⟩, ⟨13, 1, .w1c, 0, false⟩, ⟨14, 1, .w1c, 0, false⟩, ⟨15, 1, .w1c, 0, false⟩, ⟨16, 1, .ro, 0, false⟩, ⟨17, 1, .w1c, 0, false⟩]⟩,
  ⟨0x8008, [], [⟨0, 8, .ro, 0, false⟩, ⟨8, 8, .ro, 0, false⟩]⟩,
  ⟨0x800C, [], [⟨0, 5, .ro, 0, false⟩, ⟨16, 16, .ro, 0, true⟩]⟩,
  ⟨0x8020, [(0x8, 4)], [⟨0, 2, .ro, 0, false⟩, ⟨2, 1, .ro, 0, false⟩, ⟨3, 1, .ro, 0, false⟩, ⟨4, 3, .ro, 0, false⟩, ⟨8, 2, .ro, 0, false⟩]⟩,
  ⟨0x8024, [(0x8, 4)], [⟨0, 16, .ro, 0, false⟩]⟩,
  ⟨0x8040, [], [⟨0, 24, .ro, 0, false⟩]⟩,
  ⟨0x8044, [], [⟨0, 32, .ro, 0, false⟩]⟩,
  ⟨0x8050, [], [⟨0, 32, .ro, 0, false⟩]⟩,
  ⟨0x8054, [], [⟨0, 32, .ro, 0, false⟩]⟩,
  ⟨0x8058, [], [⟨0, 16, .ro, 0, true⟩]⟩]

/-- Table 14-12 (R500). -/
def rows14_12 : List RegRow := [
  ⟨0x4000, [], [⟨0, 1, .rwl, 0, true⟩, ⟨8, 8, .rwl, 1, true⟩]⟩,
  ⟨0x4004, [], [⟨0, 1, .ro, 0, false⟩, ⟨1, 1, .ro, 0, false⟩, ⟨2, 1, .w1c, 0, true⟩, ⟨3, 1, .w1c, 0, false⟩]⟩,
  ⟨0x4008, [], [⟨0, 12, .ro, 0, true⟩, ⟨31, 1, .w1c, 0, true⟩]⟩,
  ⟨0x400C, [], [⟨0, 12, .ro, 0, true⟩, ⟨12, 1, .ro, 0, true⟩, ⟨31, 1, .ro, 0, true⟩]⟩,
  ⟨0x4010, [], [⟨0, 12, .rw, 0, false⟩]⟩,
  ⟨0x4014, [], [⟨0, 6, .rwl, 0, true⟩, ⟨8, 1, .ro, 0, false⟩, ⟨9, 1, .ro, 0, false⟩]⟩,
  ⟨0x4018, [], [⟨0, 6, .rw, 0, false⟩, ⟨8, 6, .rw, 0, false⟩, ⟨31, 1, .wo, 0, false⟩]⟩,
  ⟨0x401C, [], [⟨0, 12, .wo, 0, false⟩, ⟨31, 1, .wo, 0, false⟩]⟩,
  ⟨0x4020, [], [⟨0, 12, .wo, 0, false⟩, ⟨31, 1, .wo, 0, false⟩]⟩,
  ⟨0x4024, [], [⟨0, 6, .wo, 0, false⟩, ⟨31, 1, .wo, 0, false⟩]⟩,
  ⟨0x4028, [], [⟨0, 16, .wo, 0, false⟩]⟩,
  ⟨0x4030, [], [⟨0, 32, .ro, 0, true⟩]⟩,
  ⟨0x4034, [], [⟨0, 32, .ro, 0, true⟩]⟩,
  ⟨0x4040, [], [⟨0, 8, .rwl, 0x69, true⟩, ⟨8, 8, .rwl, 0x73, true⟩]⟩,
  ⟨0x4044, [], [⟨0, 16, .ro, 0, false⟩, ⟨16, 16, .ro, 0, false⟩]⟩,
  ⟨0x4048, [], [⟨0, 16, .ro, 0, false⟩, ⟨16, 16, .ro, 0, false⟩]⟩,
  ⟨0x404C, [], [⟨0, 16, .ro, 0, false⟩]⟩,
  ⟨0x4200, [(0x8, 64)], [⟨0, 32, .w1c, 0, true⟩]⟩,
  ⟨0x4204, [(0x8, 64)], [⟨0, 32, .w1c, 0, true⟩]⟩,
  ⟨0x4400, [(0x4, 64)], [⟨0, 16, .ro, 0, true⟩, ⟨31, 1, .wo, 0, false⟩]⟩]

/-- Table 14-13 (R501). -/
def rows14_13 : List RegRow := [
  ⟨0x5000, [], [⟨0, 1, .ro, 0, true⟩, ⟨1, 1, .ro, 0, false⟩, ⟨2, 1, .w1c, 0, true⟩, ⟨3, 1, .w1c, 0, true⟩, ⟨4, 1, .ro, 0, false⟩]⟩,
  ⟨0x5004, [], [⟨0, 19, .ro, 0, true⟩]⟩,
  ⟨0x5008, [], [⟨0, 19, .ro, 0, true⟩]⟩,
  ⟨0x500C, [], [⟨0, 32, .ro, 0, true⟩]⟩,
  ⟨0x5010, [], [⟨0, 32, .ro, 0, true⟩]⟩,
  ⟨0x5014, [], [⟨0, 32, .ro, 0, true⟩]⟩,
  ⟨0x5018, [], [⟨0, 8, .ro, 0, true⟩]⟩,
  ⟨0x501C, [], [⟨0, 32, .ro, 0, true⟩]⟩,
  ⟨0x5020, [], [⟨0, 24, .ro, 0, true⟩]⟩,
  ⟨0x5024, [], [⟨0, 16, .ro, 0, true⟩]⟩,
  ⟨0x5028, [], [⟨0, 10, .rw, 0, false⟩]⟩,
  ⟨0x502C, [], [⟨0, 32, .ro, 0, false⟩]⟩,
  ⟨0x5030, [], [⟨0, 32, .rw, 0, false⟩]⟩,
  ⟨0x5034, [], [⟨0, 4, .rw, 0, false⟩, ⟨16, 10, .rw, 0, false⟩, ⟨31, 1, .wo, 0, false⟩]⟩,
  ⟨0x5038, [], [⟨0, 16, .wo, 0, false⟩]⟩,
  ⟨0x5100, [(0x4, 64)], [⟨0, 8, .rwl, 0x3C, true⟩, ⟨8, 8, .rwl, 0x10, true⟩]⟩,
  ⟨0x5200, [(0x4, 64)], [⟨0, 16, .rwl, 0, true⟩, ⟨16, 8, .rwl, 0x3C, true⟩, ⟨24, 8, .rwl, 0x10, true⟩]⟩]

/-- Table 15-10 (R527). -/
def rows15_10 : List RegRow := [
  ⟨0x6000, [], [⟨0, 1, .ro, 0, false⟩, ⟨1, 3, .ro, 0, false⟩, ⟨4, 1, .ro, 0, false⟩, ⟨5, 1, .ro, 0, false⟩, ⟨6, 1, .ro, 0, false⟩, ⟨7, 1, .ro, 0, false⟩, ⟨8, 1, .ro, 0, false⟩, ⟨9, 1, .ro, 0, false⟩, ⟨10, 1, .ro, 0, false⟩, ⟨11, 1, .ro, 0, false⟩]⟩,
  ⟨0x6004, [], [⟨0, 32, .ro, 0, false⟩]⟩,
  ⟨0x6008, [], [⟨0, 7, .ro, 0, false⟩]⟩,
  ⟨0x600C, [], [⟨0, 4, .ro, 0, false⟩, ⟨8, 4, .ro, 0, false⟩]⟩,
  ⟨0x6010, [], [⟨0, 2, .ro, 0, false⟩]⟩,
  ⟨0x6014, [], [⟨0, 25, .ro, 0, false⟩]⟩,
  ⟨0x6018, [], [⟨0, 32, .ro, 0, false⟩]⟩,
  ⟨0x601C, [], [⟨0, 32, .ro, 0, false⟩]⟩,
  ⟨0x6020, [], [⟨0, 1, .rwl, 1, false⟩]⟩,
  ⟨0x6024, [], [⟨0, 1, .ro, 0, false⟩, ⟨1, 1, .ro, 0, false⟩, ⟨2, 1, .w1c, 0, false⟩, ⟨16, 16, .ro, 0, false⟩]⟩,
  ⟨0x6028, [], [⟨0, 16, .ro, 0, false⟩]⟩,
  ⟨0x6100, [], [⟨0, 32, .rw, 0, false⟩]⟩,
  ⟨0x6104, [], [⟨0, 32, .rw, 0, false⟩]⟩,
  ⟨0x6108, [], [⟨0, 32, .rw, 0, false⟩]⟩,
  ⟨0x610C, [], [⟨0, 32, .rw, 0, false⟩]⟩,
  ⟨0x6110, [], [⟨0, 32, .rw, 0, false⟩]⟩,
  ⟨0x6114, [], [⟨0, 2, .rw, 0, false⟩, ⟨31, 1, .wo, 0, false⟩]⟩,
  ⟨0x6118, [], [⟨0, 1, .ro, 0, false⟩, ⟨8, 8, .ro, 0, false⟩, ⟨16, 16, .ro, 0, false⟩]⟩]

/-- Table 16-4 (R542). -/
def rows16_4 : List RegRow := [
  ⟨0x7000, [], [⟨0, 1, .rw, 1, false⟩, ⟨1, 1, .rwl, 0, false⟩]⟩,
  ⟨0x7004, [], [⟨0, 7, .rwl, 0, false⟩, ⟨8, 7, .rwl, 0x7F, false⟩, ⟨16, 7, .rwl, 0, false⟩]⟩,
  ⟨0x7008, [], [⟨0, 4, .rw, 4, false⟩]⟩,
  ⟨0x700C, [], [⟨0, 8, .rw, 0x19, false⟩]⟩,
  ⟨0x7010, [], [⟨0, 8, .rw, 0xA, false⟩, ⟨8, 8, .rw, 0x32, false⟩, ⟨16, 4, .rw, 0xF, false⟩, ⟨20, 4, .rw, 0, false⟩]⟩,
  ⟨0x7014, [], [⟨0, 1, .wo, 0, false⟩, ⟨1, 1, .ro, 0, false⟩, ⟨2, 1, .w1c, 0, false⟩, ⟨3, 1, .w1c, 0, false⟩, ⟨4, 2, .ro, 0, false⟩, ⟨8, 4, .ro, 0, false⟩]⟩,
  ⟨0x7018, [], [⟨0, 1, .ro, 0, false⟩, ⟨1, 1, .ro, 0, false⟩, ⟨2, 1, .ro, 0, false⟩, ⟨8, 7, .ro, 0, false⟩, ⟨16, 16, .ro, 0, false⟩]⟩,
  ⟨0x701C, [], [⟨0, 16, .ro, 0, false⟩, ⟨16, 16, .ro, 0, false⟩]⟩,
  ⟨0x7080, [(0x4, 16)], [⟨0, 32, .rw, 0, false⟩]⟩,
  ⟨0x70C0, [(0x4, 16)], [⟨0, 32, .ro, 0, false⟩]⟩,
  ⟨0x7100, [(0x4, 32)], [⟨0, 32, .ro, 0, false⟩]⟩]

/-- The MSI-X table and pending-bit array: every vector masked after a function reset (R451). -/
def rowsMsix : List RegRow := [
  ⟨0xF0000, [(16, 64)], [⟨2, 30, .rw, 0, false⟩]⟩,
  ⟨0xF0004, [(16, 64)], [⟨0, 32, .rw, 0, false⟩]⟩,
  ⟨0xF0008, [(16, 64)], [⟨0, 32, .rw, 0, false⟩]⟩,
  ⟨0xF000C, [(16, 64)], [⟨0, 1, .rw, 1, false⟩]⟩,
  ⟨0xF8000, [(4, 2)], [⟨0, 32, .ro, 0, false⟩]⟩]

/-- Every register of BAR0. -/
def hostRows : List RegRow :=
  rows01_13 ++ rows01_14 ++ rows02_7 ++ rows02_8 ++ rows03_6 ++ rows03_7 ++ rows03_8 ++ rows04_13 ++ rows06_7 ++ rows06_8 ++ rows07_8 ++ rows07_9 ++ rows08_10 ++ rows08_11 ++ rows09_11 ++ rows12_14 ++ rows13_6 ++ rows14_12 ++ rows14_13 ++ rows15_10 ++ rows16_4 ++ rowsMsix

/-- Table 09-10 (R355). -/
def rows09_10 : List RegRow := [
  ⟨0x0, [], [⟨0, 1, .ro, 0, false⟩, ⟨4, 4, .ro, 0, false⟩, ⟨16, 16, .ro, 0x640F, false⟩]⟩,
  ⟨0x1, [], [⟨0, 3, .ro, 0, false⟩, ⟨3, 1, .ro, 0, false⟩, ⟨4, 1, .ro, 0, false⟩, ⟨5, 4, .ro, 0, false⟩, ⟨9, 2, .ro, 3, false⟩, ⟨11, 1, .ro, 0, false⟩]⟩,
  ⟨0x2, [], [⟨0, 32, .ro, 0, false⟩]⟩,
  ⟨0x3, [], [⟨0, 16, .rw, 0x64, false⟩, ⟨16, 1, .rw, 1, false⟩]⟩,
  ⟨0x4, [], [⟨0, 1, .rw, 0, false⟩, ⟨1, 1, .rw, 1, false⟩, ⟨2, 1, .rw, 1, false⟩, ⟨8, 8, .rw, 0x18, false⟩]⟩,
  ⟨0x5, [], [⟨0, 1, .ro, 0, false⟩, ⟨1, 1, .ro, 0, false⟩, ⟨2, 1, .ro, 0, false⟩, ⟨3, 1, .ro, 0, false⟩, ⟨4, 1, .ro, 0, false⟩]⟩,
  ⟨0x6, [], [⟨0, 32, .ro, 0, false⟩]⟩,
  ⟨0x7, [], [⟨0, 32, .ro, 0, false⟩]⟩,
  ⟨0x8, [], [⟨0, 32, .ro, 0, false⟩]⟩,
  ⟨0x10, [(0x1, 4)], [⟨0, 32, .ro, 0, false⟩]⟩,
  ⟨0x20, [], [⟨0, 32, .ro, 0, false⟩]⟩,
  ⟨0x21, [], [⟨0, 32, .ro, 0, false⟩]⟩,
  ⟨0x22, [], [⟨0, 32, .ro, 0, false⟩]⟩,
  ⟨0x23, [], [⟨0, 32, .ro, 0, false⟩]⟩,
  ⟨0x24, [], [⟨0, 32, .ro, 0, false⟩]⟩]

/-- Table 10-8 (R379). -/
def rows10_8 : List RegRow := [
  ⟨0x1000, [], [⟨0, 1, .rw, 0, false⟩, ⟨1, 2, .rw, 0, false⟩, ⟨3, 1, .rw, 1, false⟩]⟩,
  ⟨0x1001, [], [⟨0, 13, .ro, 0x7D0, false⟩, ⟨16, 4, .ro, 0, false⟩]⟩,
  ⟨0x1100, [(0x10, 32)], [⟨0, 1, .rw, 0, false⟩, ⟨1, 1, .rw, 0, false⟩, ⟨2, 1, .rw, 0, false⟩, ⟨3, 1, .rw, 1, false⟩, ⟨4, 1, .rw, 1, false⟩, ⟨8, 4, .rw, 4, false⟩, ⟨16, 10, .rw, 0x96, false⟩]⟩,
  ⟨0x1101, [(0x10, 32)], [⟨0, 8, .rw, 0x28, false⟩, ⟨8, 8, .rw, 0x28, false⟩, ⟨16, 8, .rw, 0x28, false⟩, ⟨24, 8, .rw, 0x28, false⟩]⟩,
  ⟨0x1102, [(0x10, 32)], [⟨0, 12, .rw, 0, false⟩]⟩,
  ⟨0x1103, [(0x10, 32)], [⟨0, 16, .rw, 0x64, false⟩]⟩,
  ⟨0x1104, [(0x10, 32)], [⟨0, 15, .rw, 0x7D0, false⟩, ⟨28, 4, .rw, 0, false⟩]⟩,
  ⟨0x1105, [(0x10, 32)], [⟨0, 14, .rw, 0, false⟩, ⟨14, 14, .rw, 0, false⟩, ⟨28, 4, .rw, 0, false⟩]⟩,
  ⟨0x1106, [(0x10, 32)], [⟨0, 3, .ro, 0, false⟩, ⟨3, 1, .ro, 0, false⟩, ⟨4, 1, .ro, 0, false⟩, ⟨5, 1, .ro, 0, false⟩, ⟨6, 1, .w1c, 0, false⟩, ⟨8, 2, .ro, 0, false⟩, ⟨12, 4, .ro, 0, false⟩, ⟨16, 2, .ro, 0, false⟩]⟩,
  ⟨0x1107, [(0x10, 32)], [⟨0, 16, .ro, 0, false⟩, ⟨16, 16, .ro, 0, false⟩]⟩,
  ⟨0x1108, [(0x10, 32)], [⟨0, 16, .ro, 0, false⟩]⟩]

/-- Table 11-8 (R417). -/
def rows11_8 : List RegRow := [
  ⟨0x2000, [], [⟨0, 1, .rw, 0, false⟩, ⟨1, 1, .rw, 0, false⟩]⟩,
  ⟨0x2001, [], [⟨0, 16, .rw, 0x2710, false⟩, ⟨16, 16, .rw, 0x9C40, false⟩]⟩,
  ⟨0x2002, [], [⟨0, 16, .rw, 0x4E20, false⟩, ⟨16, 16, .rw, 0, false⟩]⟩,
  ⟨0x2003, [], [⟨0, 16, .rw, 0x640, false⟩, ⟨16, 16, .rw, 0x640, false⟩]⟩,
  ⟨0x2004, [], [⟨0, 16, .rw, 0xC8, false⟩]⟩,
  ⟨0x2005, [], [⟨0, 16, .rw, 0x500, false⟩, ⟨16, 16, .rw, 0x640, false⟩]⟩,
  ⟨0x2006, [], [⟨0, 16, .rw, 0x6E0, false⟩, ⟨16, 8, .rw, 0x18, false⟩]⟩,
  ⟨0x2007, [], [⟨0, 16, .rw, 0x3C, false⟩]⟩,
  ⟨0x2008, [], [⟨0, 16, .ro, 0, false⟩, ⟨16, 1, .ro, 0, false⟩, ⟨17, 1, .ro, 0, false⟩]⟩,
  ⟨0x2009, [], [⟨0, 16, .ro, 0, false⟩, ⟨16, 16, .ro, 0, false⟩]⟩,
  ⟨0x200A, [], [⟨0, 16, .ro, 0, false⟩, ⟨16, 16, .ro, 0, false⟩]⟩,
  ⟨0x200B, [], [⟨0, 4, .ro, 0, false⟩, ⟨4, 1, .ro, 0, false⟩, ⟨5, 1, .ro, 0, false⟩]⟩,
  ⟨0x2100, [(0x20, 32)], [⟨0, 1, .rw, 1, false⟩, ⟨1, 1, .rw, 0, false⟩, ⟨2, 1, .rw, 0, false⟩, ⟨3, 1, .rw, 0, false⟩, ⟨4, 1, .rw, 1, false⟩, ⟨5, 1, .rw, 0, false⟩]⟩,
  ⟨0x2101, [(0x20, 32)], [⟨0, 16, .rw, 0x7530, false⟩, ⟨16, 8, .rw, 0xE, false⟩, ⟨24, 5, .rw, 0x10, false⟩]⟩,
  ⟨0x2102, [(0x20, 32)], [⟨0, 16, .rw, 0xB40, false⟩, ⟨16, 16, .rw, 0xDC0, false⟩]⟩,
  ⟨0x2103, [(0x20, 32)], [⟨0, 16, .rw, 0xFA0, false⟩, ⟨16, 8, .rw, 0x30, false⟩]⟩,
  ⟨0x2104, [(0x20, 32)], [⟨0, 16, .rw, 0x96, false⟩, ⟨16, 16, .rw, 0x3E8, false⟩]⟩,
  ⟨0x2105, [(0x20, 32)], [⟨0, 16, .rw, 0xC8, false⟩, ⟨16, 16, .rw, 0x2328, false⟩]⟩,
  ⟨0x2106, [(0x20, 32)], [⟨0, 32, .rw, 0x60000, false⟩]⟩,
  ⟨0x2107, [(0x20, 32)], [⟨0, 16, .rw, 0x190, false⟩, ⟨16, 16, .rw, 0x4000, false⟩]⟩,
  ⟨0x2108, [(0x20, 32)], [⟨0, 16, .rw, 0x190, false⟩, ⟨16, 3, .rw, 0, false⟩]⟩,
  ⟨0x2109, [(0x20, 32)], [⟨0, 16, .rw, 0x1F40, false⟩, ⟨16, 16, .rw, 0x32, false⟩]⟩,
  ⟨0x210A, [(0x20, 32)], [⟨0, 16, .rw, 0x12C, false⟩, ⟨16, 16, .rw, 0x1F4, false⟩]⟩,
  ⟨0x210B, [(0x20, 32)], [⟨0, 16, .rw, 0x148, false⟩, ⟨16, 16, .rw, 0x3E8, false⟩]⟩,
  ⟨0x210C, [(0x20, 32)], [⟨0, 16, .rw, 0x1F40, false⟩, ⟨16, 16, .rw, 0x2710, false⟩]⟩,
  ⟨0x210D, [(0x20, 32)], [⟨0, 32, .rw, 0x10000, false⟩]⟩,
  ⟨0x2110, [(0x20, 32)], [⟨0, 1, .ro, 0, false⟩, ⟨1, 1, .ro, 0, false⟩, ⟨2, 1, .ro, 0, false⟩, ⟨3, 1, .ro, 0, false⟩, ⟨4, 1, .ro, 0, false⟩, ⟨5, 1, .ro, 0, false⟩, ⟨6, 1, .ro, 0, false⟩, ⟨7, 1, .ro, 0, false⟩, ⟨8, 1, .ro, 0, false⟩, ⟨9, 1, .ro, 0, false⟩, ⟨10, 1, .ro, 0, false⟩, ⟨11, 1, .ro, 0, false⟩, ⟨12, 1, .ro, 0, false⟩, ⟨14, 2, .ro, 0, false⟩]⟩,
  ⟨0x2111, [(0x20, 32)], [⟨0, 16, .ro, 0x190, false⟩, ⟨16, 16, .ro, 0x190, false⟩]⟩,
  ⟨0x2112, [(0x20, 32)], [⟨0, 8, .ro, 0, false⟩, ⟨8, 8, .ro, 0, false⟩, ⟨16, 8, .ro, 0, false⟩, ⟨24, 8, .ro, 0, false⟩]⟩,
  ⟨0x2113, [(0x20, 32)], [⟨0, 32, .ro, 0, false⟩]⟩,
  ⟨0x2114, [(0x20, 32)], [⟨0, 16, .ro, 0, false⟩, ⟨16, 16, .ro, 0, false⟩]⟩,
  ⟨0x2115, [(0x20, 32)], [⟨0, 16, .ro, 0, false⟩, ⟨16, 16, .ro, 0, false⟩]⟩,
  ⟨0x2116, [(0x20, 32)], [⟨0, 32, .ro, 0, false⟩]⟩,
  ⟨0x2800, [(0x20, 32)], [⟨0, 32, .rw, 0, false⟩]⟩,
  ⟨0x2801, [(0x20, 32)], [⟨0, 32, .rw, 0, false⟩]⟩,
  ⟨0x2802, [(0x20, 32), (0x1, 5)], [⟨0, 32, .rw, 0, false⟩]⟩,
  ⟨0x2807, [(0x20, 32), (0x1, 5)], [⟨0, 32, .rw, 0, false⟩]⟩,
  ⟨0x280C, [(0x20, 32), (0x1, 5)], [⟨0, 32, .rw, 0, false⟩]⟩]

/-- Table 11-9 (R418). -/
def rows11_9 : List RegRow := [
  ⟨0x3000, [], [⟨0, 1, .rw, 0, false⟩, ⟨8, 8, .rw, 0x28, false⟩, ⟨16, 8, .rw, 0x1E, false⟩, ⟨24, 4, .rw, 3, false⟩]⟩,
  ⟨0x3001, [], [⟨0, 16, .rw, 0xA, false⟩]⟩,
  ⟨0x3002, [], [⟨0, 1, .ro, 0, false⟩, ⟨8, 6, .ro, 0, false⟩, ⟨16, 16, .ro, 0, false⟩]⟩,
  ⟨0x3100, [(0x10, 32)], [⟨0, 1, .rw, 0, false⟩, ⟨4, 4, .rw, 1, false⟩, ⟨8, 8, .rw, 0xF, false⟩, ⟨16, 6, .rw, 0x14, false⟩]⟩,
  ⟨0x3101, [(0x10, 32)], [⟨0, 32, .rw, 0, false⟩]⟩,
  ⟨0x3102, [(0x10, 32)], [⟨0, 32, .rw, 0, false⟩]⟩,
  ⟨0x3103, [(0x10, 32)], [⟨0, 32, .ro, 0, false⟩]⟩,
  ⟨0x3104, [(0x10, 32)], [⟨0, 32, .ro, 0, false⟩]⟩,
  ⟨0x3105, [(0x10, 32)], [⟨0, 3, .ro, 0, false⟩, ⟨3, 4, .ro, 0, false⟩, ⟨7, 1, .ro, 0, false⟩, ⟨8, 3, .ro, 0, false⟩]⟩]

/-- Every register of a field die, at its 16-bit word address. -/
def fieldRows : List RegRow :=
  rows09_10 ++ rows10_8 ++ rows11_8 ++ rows11_9

/-- Whether an offset from a row's base is one of the row's copies. -/
def hitDims : List (Nat × Nat) → Nat → Bool
  | [], o => o == 0
  | (s, n) :: ds, o => decide (o / s < n) && hitDims ds (o % s)

/-- Whether a row holds an address. -/
def rowHolds (r : RegRow) (a : Nat) : Bool := decide (r.base ≤ a) && hitDims r.dims (a - r.base)

/-- The row of a register table that holds an address, if any. -/
def findRow (rows : List RegRow) (a : Nat) : Option RegRow := rows.find? (fun r => rowHolds r a)

/-- The value a row's fields hold after reset. -/
def rowReset (r : RegRow) : Word :=
  r.fields.foldl (fun w f => fldPut ⟨f.lo, f.width⟩ f.reset w) 0

/-- The bits of a row that survive RST_N and CHIP_RESET (R94, R95, R472, R500, R501). -/
def rowKept (r : RegRow) : Word :=
  r.fields.foldl (fun w f => if f.kept then fldPut ⟨f.lo, f.width⟩ (2 ^ f.width - 1) w else w) 0

/-- A write under a register's access codes (R15, R16): RW takes the value, RWL does so while SYS_LOCK is clear,
W1C clears where 1 is written, RO and WO fields store nothing. -/
def writeFields (fs : List FieldRow) (locked : Bool) (old new : Word) : Word :=
  fs.foldl (fun w f =>
    let p : Fld := ⟨f.lo, f.width⟩
    match f.acc with
    | .rw => fldPut p (fldGet p new) w
    | .rwl => if locked then w else fldPut p (fldGet p new) w
    | .w1c => fldPut p (fldGet p (old &&& ~~~new)) w
    | .ro => w
    | .wo => w) old

end Machine

end Sys2Proof
end

