-- ==== Sys2Proof/Machine/State.lean ====
section
/-! DEFINITION. The state of the FHE6400 as plain data: everything the spec gives the device and its field dies, the
queue of waiting commands, and the state right after power-on. -/

namespace Sys2Proof.Machine
open Sys2Proof

/-! ## Time, references and the clean-up loop (chapter 02) -/

/-- The origins of a step request (R67, R70); a request of the STACK candidate shares the servo's slot (log entry 12). -/
inductive StepOrigin where
  | servo | stack | adj | timeSet
  deriving DecidableEq, Repr

/-- A pending step request (R67). Times are in units of 2^-16 ns. -/
structure StepReq where
  origin : StepOrigin
  absolute : Bool
  value : Int
  force : Bool
  ref : Option DescRef
  deriving DecidableEq, Repr

/-- Device time: the counter, its base and the offset at that base (R63), in the brass island (R71); the last second that
PPS_OUT marked, its level and the count at which its pulse ends (R92), and the count at which FORCE was armed (R68). -/
structure TimeState where
  cnt : Nat
  base : Nat
  ofs : Int
  xoLost : Bool
  steps : List StepReq
  ppsLast : Option Int
  ppsHigh : Bool
  ppsEnd : Nat
  forceAt : Nat
  deriving DecidableEq, Repr

/-- The block boundary generator (R25, R27): the index of the block in progress, the whole blocks a step has yet to add,
the part of the grid offset not yet slewed out, in 2^-16 ns, and the boundaries to go until a start of the pipeline asked
for by SYS_PIPE.RUN (R57), and the count of TIME_CLK at the last boundary. `ordinal` is the period ordinal q, which
SYS_ORDINAL shows (R28). -/
structure GridState where
  index : Nat
  ordinal : BitVec 32
  extra : Int
  slew : Int
  startIn : Option Nat
  began : Nat
  deriving DecidableEq, Repr

/-- The clean-up loop (R77 to R91). Steers are in 2^-40, phases in 2^-16 ns, temperatures in 1/16 K, instants in counts of
TIME_CLK: when b was last reduced, when the loop last updated, when it last did so LOCKED, up to when the averages reach.
`freeStart`: the free-run steer still starts the loop (R83). `temps`: the temperatures in use since the averages were last
taken, each with the count until which it was; `goodSince` and `qualSince`: since when a candidate has been within ACCEPT,
and qualified (R75, R76); `dwellAt`: when the dwell of fast acquire began (R80). -/
structure LoopState where
  cand : Nat
  steer : Int
  integral : Rat
  phase : Int
  buildout : Rat
  buildAt : Nat
  bw : Nat
  fast : Bool
  dwellBad : Bool
  goodRun : Nat
  badRun : Nat
  everLocked : Bool
  pstepBusy : Bool
  freeStart : Bool
  lastUpdate : Nat
  lockedAt : Nat
  avgAt : Nat
  secTicks : Nat
  secSumS : Int
  secSumT : Int
  history : List (Int × Int)
  tHeld : Int
  hourSum : Rat
  hourN : Nat
  hourly : List (Nat × Rat)
  hours : Nat
  learnedA : Int
  temps : List (Int × Nat)
  goodSince : List (Nat × Nat)
  qualSince : List (Nat × Nat)
  dwellAt : Nat
  deriving DecidableEq, Repr

/-! ## The bus matrix (chapter 01) -/

/-- One target port of the bus matrix (R48 to R50): the requests waiting with their ages in FAB_CLK cycles, and the
master last granted, on which an idle port may stay parked. -/
structure PortState where
  waiting : List (BusReq × Nat)
  last : Nat
  deriving DecidableEq, Repr

/-! ## The fault collector and the event recorder (chapter 14) -/

/-- One event record before it is laid out in bytes (Table 14-7). -/
structure EvRec where
  code : Nat
  inst : Nat
  forced : Bool
  supp : Nat
  optime : Nat
  pcc : Nat
  datum : Nat
  deriving DecidableEq, Repr

/-- The token bucket of an event code (R493): tokens held, records suppressed since the last accepted one, the RATE and
BURST in force since its last record, when it last fell below BURST (recorder clock), and the tokens added since then. -/
structure Bucket where
  tokens : Nat
  suppressed : Nat
  rate : Nat
  burst : Nat
  since : Nat
  added : Nat
  deriving DecidableEq, Repr

/-- A raise or another event of a cycle whose raises are gathered (R476, R494): the source, or none for an event; the
event code, the instance, the datum. -/
structure HeldEvent where
  source : Option Nat
  code : Nat
  inst : Nat
  datum : Nat
  deriving DecidableEq, Repr

/-- The fault collector, in the brass island: reaction masks by source, FAULT_N latches, the FENCE raises that hold each
unit and the units held in reset until the next boundary (R482); `flips`: for each word of the configuration, the bits in
which its second copy does not match (R484; 0: FLT_CTRL, 1: FLT_THERM, 16 + n: the mask of source n); the keys in
progress, since when FAULT_N's least low time runs (R481; recorder clock), the sensors whose last reading failed (R475),
and what a boundary's cycle has raised so far, while it is gathered. -/
structure CollectorState where
  masks : SMap Nat
  latches : SMap Bool
  fencers : List (Nat × Nat)
  inReset : List Nat
  faultNHold : Option Nat
  flips : SMap Nat
  selfTripBusy : Bool
  chipReset : Option Nat
  intHeld : Bool
  testKey : Bool
  thermBelow : SMap Bool
  sensorBad : Nat
  held : Option (List HeldEvent)
  deriving DecidableEq, Repr

/-- Where the ring of the wear-levelled counters goes on: its next slot and SEQ (R519). -/
structure RingPlace where
  slot : Nat
  seq : Nat
  deriving DecidableEq, Repr

/-- The event recorder's front end, in the brass island, and what its supervisor part knows of the log region and of the
counters in the flash (R492 to R499, R519); `marked`: the operating time of the last TIME_MARK (R491). -/
structure RecorderState where
  buckets : SMap Bucket
  buffer : List EvRec
  optime : Nat
  optTicks : Nat
  pcc : Nat
  clearKey : Option Nat
  clearOld : Nat
  seals : SMap Word
  marked : Option Nat
  voids : List Nat
  ring : RingPlace
  deriving DecidableEq, Repr


/-! ## The sample fabric and the audio ports (chapter 03) -/

/-- What the fabric keeps for one bead of one buffer beside its words (R102 to R105): its tag, the last sample `hold` of
the channel's most recent bead that was not missing, the count of consecutive missing beads, the place of its first
sample in the fill fade and in the resume ramp (256: no ramp), and whether it was its owner's first (R103). -/
structure BeadInfo where
  tag : Nat
  hold : Word
  miss : Nat
  fade : Nat
  ramp : Nat
  first : Bool
  deriving DecidableEq, Repr

/-- A channel in the period in progress: the samples its owner has written (one bit each), whether one was repeated,
whether its owner declared the bead missing, and whether the owner changed at the boundary before it (R102, R103). -/
structure ChanState where
  written : Nat
  repaired : Bool
  declared : Bool
  restart : Bool
  tag : Option Nat
  deriving DecidableEq, Repr

/-- A receiving port beside its registers (R111 to R123): the last index given, the widened slip limit (1: after a slip
toward later frames, 2: after one toward earlier frames), the frame to be dropped after a short misframe, the misframes
of the last 16 frames, the first bead captured, the last sample of each of its channels, samples that wait for their
bead's period, whether it has been RUNNING as a group member, indices repeated since it left RUNNING, whether raw
capture is armed, the output of its last frame, consecutive good biphase frames, whether a receiver is fenced (R119), and
the gates of 10 ms that met the conditions of qualification without a break (R116). -/
structure RxPort where
  kPrev : Option Int
  wide : Nat
  skip : Bool
  misHist : Nat
  start : Int
  last : List Word
  early : List (Int × List (Option Word))
  been : Bool
  owed : Nat
  rawArmed : Bool
  outLast : List (Option Word)
  good : Nat
  fenced : Bool
  gates : Nat
  deriving DecidableEq, Repr

/-- The biphase side of a receiver (R127): for each channel the status and user bits since the last Z preamble, how many,
and whether the block has an error; the latched blocks, which reading BPH_RX_CSSEQ copies out. -/
structure CsBlock where
  cs : Nat
  user : Nat
  count : Nat
  bad : Bool
  open' : Bool
  latchedCs : Nat
  latchedUser : Nat
  deriving DecidableEq, Repr

/-- A biphase transmitter beside its registers: frames since EN, and the live arrays CS_A, CS_B, U_A, U_B (R128, R129). -/
structure TxPort where
  frame : Nat
  live : List Nat
  deriving DecidableEq, Repr


/-! ## Rods and frames (chapters 04 and 05) -/

/-- A place a rod instruction writes: a register by its number (Table 05-3), an accumulator, a word of X or Y, or a
word of the frame SRAM. -/
inductive RodLoc where
  | reg (n : Nat) | acc (n : Nat) | x (a : Nat) | y (a : Nat) | f (a : Nat)
  deriving DecidableEq, Repr

/-- How a write behaves beside another that lands in its cycle (R180, R190): an ordinary one, a sticky bit set in EX1,
or a sticky bit set in WB. -/
inductive WriteKind where
  | plain | stickyEx | stickyWb
  deriving DecidableEq, Repr

/-- A result in a rod's pipeline (R149): the cycle at whose end it lands, counted in issues, its place, the bits it
changes and their value. -/
structure RodWrite where
  land : Nat
  loc : RodLoc
  mask : Nat
  val : Nat
  kind : WriteKind
  deriving DecidableEq, Repr

/-- What a rod does in the period in progress: waits, runs its pass, ended it, or failed or was halted in it. -/
inductive RodPhase where
  | waiting | inPass | ended | stopped
  deriving DecidableEq, Repr

/-- A rod beside its ROD registers (R147 to R171): its P, X and Y memories, its registers by number and accumulators,
the number of the next issue, results in the pipeline, the next address, delay slots left and the transfer they end in
(with whether it is an RTI's), active loop levels, whether the next issue begins an iteration and whether it is repeated,
the phase of its block, cycles since the import window's end, its DMA lists, the image's masks, host writes of EN on
their way (boundaries to go and the value), boundaries before it may run again, and the frame SRAM banks that the accesses
of its last issue still wait for, in their order. -/
structure Rod where
  p : SMap Word64
  x : SMap Word
  y : SMap Word
  file : SMap Nat
  acc : SMap Nat
  n : Nat
  pend : List RodWrite
  pc : Nat
  slots : Nat
  target : Option (Nat × Bool)
  depth : Nat
  iter : Bool
  repeating : Bool
  phase : RodPhase
  cyc : Nat
  imports : List Nat
  exports : List Nat
  blkMask : Nat
  fsMask : Nat
  enPend : List (Nat × Bool)
  wait : Nat
  wants : List Nat
  deriving DecidableEq, Repr

/-- A LOAD_PROGRAM between its checks and its end (R170): the descriptor (none: the supervisor, or a host that was reset), the named rods and the first CRC. -/
structure LoadState where
  ref : Option DescRef
  rods : Nat
  crc : Nat
  deriving DecidableEq, Repr


/-! ## Mix matrix, direct routes, delay engine and meters (chapter 06) -/

/-- A gain on its way (R213): from `g0` to `g1` in `r` samples, `i` of them done. -/
structure Ramp where
  g0 : Int
  g1 : Int
  i : Nat
  r : Nat
  deriving DecidableEq, Repr

/-- A crosspoint at work (R213, R214): its connection and its gain. -/
structure XpRun where
  input : Nat
  bus : Nat
  gain : Ramp
  deriving DecidableEq, Repr

/-- A bus at work (R213, R218, R219): its gain, the automatic scale's glide, the limiter's envelope, and whether it was
enabled at the last boundary, so that its scale starts without a glide. -/
structure BusRun where
  gain : Ramp
  scale : Ramp
  env : Nat
  fresh : Bool
  deriving DecidableEq, Repr

/-- The history of an input high-pass filter (R208, R209). -/
structure HpfRun where
  x1 : Int
  x2 : Int
  y1 : Int
  y2 : Int
  deriving DecidableEq, Repr

/-- A direct route at work (R223 to R227): its gain, its limiter's envelope, its last sample, its voice hold and the
counter value at its last loud sample, and whether a fault fences it. -/
structure RouteRun where
  gain : Ramp
  env : Nat
  out : Word
  vox : Bool
  loudAt : Nat
  fenced : Bool
  deriving DecidableEq, Repr

/-- An accepted ROUTE_CFG that the direct-route unit has not taken up yet (R207): its route, whether it covers GAIN or RAMP,
and the words it writes. -/
structure RouteWrite where
  route : Nat
  gain : Bool
  words : List (Nat × Word)
  deriving DecidableEq, Repr

/-- A delay tap at work (R233, R234): its present delay and target in 2^-20 sample, and a crossfade: the old delay, the
samples done and its length. -/
structure TapRun where
  delay : Nat
  target : Nat
  fade : Option (Nat × Nat × Nat)
  deriving DecidableEq, Repr

/-- A meter (R239, R240): PEAK, HOLD, samples since HOLD was captured, OVER, the mean square in 2^-62 and the smallest
limiter gain; and the peak and mean square that a direct route's meter gathers in the period in progress. -/
structure Meter where
  peak : Nat
  hold : Nat
  age : Nat
  overs : Nat
  ms : Nat
  gain : Nat
  live : Nat
  msLive : Nat
  deriving DecidableEq, Repr



/-! ## Tallies and carry snapshots (chapter 07) -/

/-- A record of a tally (R248, Table 12-8): its KIND, the other bits of its target, its mask and its data, whether its
field die has acknowledged it (R256), and which of the shadow memory's records it is (R44, R248). -/
structure TallyRec where
  kind : Nat
  target : Nat
  mask : Word
  data : Word
  acked : Bool
  slot : Nat
  deriving DecidableEq, Repr

/-- A tally beside its registers (R246): its records in the order accepted, its TALLY_COMMIT, the CARRY bit, the boundary
asked for, whether D(n) has passed and its KIND 2 records are written, whether its shadow records hold an uncorrectable
error, the dies that received a PARAM of it, the block of its last query, whether PERST_N fell while it was not FREE, and
a TALLY_ABORT that waits for the coordinator (R266). -/
structure Tally where
  recs : List TallyRec
  commit : Option DescRef
  carry : Bool
  want : Nat
  decided : Bool
  framed : Bool
  eccBad : Bool
  sentA : Bool
  sentB : Bool
  asked : Nat
  perst : Bool
  abortRef : Option DescRef
  deriving DecidableEq, Repr

/-- A snapshot bank (R272 to R276): SEQ, CAUSE, device time, TIME count, block index, position, epoch and stack tag of
its carry, sections 1 to 7, and for each field die the sample index asked for, the parts returned and whether it is
marked invalid. -/
structure Bank where
  seq : Nat
  cause : Nat
  time : Int
  cnt : Nat
  index : Nat
  pos : Nat
  epoch : Nat
  stag : Nat
  sections : List (List Byte)
  kc : Nat
  parts : SMap (List Byte)
  invalidA : Bool
  invalidB : Bool
  deriving DecidableEq, Repr

/-- The snapshot logic beside its registers: whether a carry has been made, the last sequence number, the presented bank
and the latest one behind a hold, the SNAPSHOT_ARM that waits for the match, the stack carries scheduled (time, tag and
the descriptor that asked), CARRY_OUT with the TIME count of its last carry, and, while a boundary cycle runs, the
sources that have fired in it. -/
structure SnapState where
  valid : Bool
  seq : Nat
  presented : Bank
  latest : Option Bank
  armed : Option DescRef
  scheduled : List (Int × Nat × Option DescRef)
  coutHigh : Bool
  coutAt : Nat
  fired : Option Nat
  deriving DecidableEq, Repr



/-! ## Network ports and streams (chapter 08) -/

/-- What a frame in a transmit queue is for: segment `seg` of `total` of a NET_TX, a stream's packet on path A or B, or
nothing that waits for it (the time servo's frames, and segments whose NET_TX has completed). -/
inductive TxOwner where
  | host (d : DescRef) (seg total : Nat) | stream (t : Nat) (b : Bool) | unowned
  deriving DecidableEq, Repr

/-- A frame in a transmit queue: its bytes without preamble and FCS, its launch time, what put it there, whether an
egress stamp is asked for, and whether it is marked for one-step stamping with the ingress time it answers (R302). -/
structure TxFrame where
  bytes : List Byte
  launch : Option Int
  owner : TxOwner
  stamp : Bool
  oneStep : Option Int
  deriving DecidableEq, Repr

/-- A network port beside its registers (R289 to R301): its queues, the frame on the line and its queue, the start of
that frame and whether device time was valid then, the shapers' credits in bits and the TIME count they stand at, the TIME count at which the pause run started,
the one from which the last PAUSE's quanta run and those quanta, the one at which the last PAUSE arrived while PAUSE
frames are ignored, the errors counted toward the next NET source 0x301 (R322), and the NET_TX descriptors whose egress
stamp was lost (R301). -/
structure NetPort where
  queues : SMap (List TxFrame)
  line : Option (Nat × TxFrame)
  lineAt : Int
  lineValid : Bool
  credits : SMap Rat
  creditAt : Nat
  pauseAt : Option Nat
  pauseFrom : Option Nat
  pauseQuanta : Nat
  deafSince : Option Nat
  errs : Nat
  lostStamps : List DescRef
  deriving DecidableEq, Repr

/-- A receive stream beside its entry (R315 to R318): the last sequence number of each path, the blocks begun since each
path's last matched packet, the first arrivals of recent first indices (index, path B, ingress time), and for each block index
the channels taken whose talker tag was not GOOD; and the samples of the talker's last packet, 0 while none is known
(R306). -/
structure StrRx where
  seqA : Option Nat
  seqB : Option Nat
  heardA : Nat
  heardB : Nat
  firsts : List (Int × Bool × Int)
  badTags : List (Int × Nat)
  spp : Nat
  deriving DecidableEq, Repr

/-- A transmit stream beside its entry (R310, R319): sequence number, IPv4 identification, the index its next packet
starts at, and the samples of that packet already read, each with its channels in order. -/
structure StrTx where
  seq : Nat
  ident : Nat
  next : Option Nat
  acc : List (List Word)
  deriving DecidableEq, Repr



/-! ## The barrier on the host side (chapter 09) -/

/-- What a message that awaits its ACK was sent for (R331): a tally's record, a tally's CMD, a descriptor, one word of a
PARAM_READ, one channel of a DIAG_RUN, a limit the supervisor seals, the supervisor's `i`-th supervision READ (R535), or none of these. -/
inductive BarUse where
  | param (id ord : Nat) | tally (id : Nat) | command (d : DescRef) | read (d : DescRef) (k : Nat)
  | sweep (d : DescRef) | seal | watch (i : Nat) | other
  deriving DecidableEq, Repr

/-- A message sent downstream that awaits its ACK, with the SEQs of its earlier sendings and the TIME count of its last. -/
structure BarWait where
  seq : Nat
  type : Nat
  argA : Nat
  argB : Nat
  payload : List Nat
  tries : Nat
  sentAt : Nat
  before : List Nat
  use : BarUse
  deriving DecidableEq, Repr

/-- The supervision data the supervisor takes from a field die (R535): the latch, load and gate masks of the reading in
progress, and those of the last one that came whole. -/
structure LineWatch where
  latch : Nat
  load : Nat
  gate : Nat
  latches : Nat
  loads : Nat
  gates : Nat
  deriving DecidableEq, Repr

/-- A barrier link engine beside its registers: the last SEQ sent, the last accepted upstream message, the messages that
await an ACK, the read replies by address, the blocks since a die-status STATUS was accepted, the TIME counts
at which the last valid upstream message arrived and at which the link came UP, the discard count last reported, its
SENSE values: for instance 2c (VS) and 2c + 1 (IS) the last value of the bead before, if any; whether a die-status STATUS
has been accepted since the lanes locked, and the upstream messages discarded for another reason than their CRC; the
supervision data taken over the link; and for each upstream lane the sync headers tested and those not valid among them
(R326). -/
structure BarHost where
  txSeq : Nat
  rx : Option (Nat × List Nat)
  waits : List BarWait
  replies : SMap (Option Nat)
  blocks : Nat
  heardAt : Nat
  upAt : Option Nat
  discards : Option Nat
  sense : SMap (Option Word)
  status : Bool
  dropped : Nat
  watch : LineWatch
  sync : SMap (Nat × Nat)
  deriving DecidableEq, Repr



/-! ## The field dies (chapters 09 to 11) -/

/-- A SAMPLES or TWIN_SAMPLES message a die holds: sample index, half, ROUTE, VALID and the 16 samples. -/
structure SampleMsg where
  k : Nat
  half : Nat
  route : Nat
  valid : Nat
  words : List Nat
  deriving DecidableEq, Repr

/-- A staged PARAM record (R262, R331, R566): tally, boundary, ordinal, epoch after the tally, address, mask and data,
and whether the tally's commit has arrived. -/
structure StagedRec where
  id : Nat
  n : Nat
  ord : Nat
  epoch : Nat
  addr : Nat
  mask : Word
  data : Word
  committed : Bool
  deriving DecidableEq, Repr

/-- One half of a block's digests (R348). -/
structure DigestMsg where
  n : Nat
  half : Nat
  epoch : Nat
  comp : Nat
  digs : List Nat
  deriving DecidableEq, Repr

/-- One leg of a bridge (R365): its command (none while its gates do not run), its two gates, and the tick of the period
at which the delayed edge is due. -/
structure Leg where
  cmd : Option Bool
  hi : Bool
  lo : Bool
  due : Option Nat
  deriving DecidableEq, Repr

/-- A cone model instance (R392): excursion, velocity and current, each a binary32 word. -/
structure Cone where
  x : Word
  v : Word
  i : Word
  deriving DecidableEq, Repr

/-- Demodulation sums of VS and IS (R408), in 2^-111. -/
structure Demod where
  vRe : Int
  vIm : Int
  iRe : Int
  iIm : Int
  deriving DecidableEq, Repr

/-- A running check (R402): ticks so far, whether PROT_CLEAR asked for it, and its sums. -/
structure CheckRun where
  ticks : Nat
  host : Bool
  sums : Demod
  deriving DecidableEq, Repr

/-- A channel in a sweep (R411, R412): the place in its programme fade (256: out), the results so far (none: skipped or
not measured; else Re and Im in Q16.16 and whether the current lay below I_FLOOR), the sums of the point in progress, its status once it has ended,
and whether its results are sent. -/
structure SweepChan where
  fade : Nat
  points : List (Option (Int × Int × Bool))
  sums : Demod
  status : Option Nat
  told : Bool
  deriving DecidableEq, Repr

/-- The sweep of a die: its RUN, point and ticks within the point (or the fade before point 0), the sample index at
point 0, the phase in 2^-64 of a turn, and whether the point has been measured. -/
structure DieSweep where
  run : Nat
  point : Nat
  ticks : Nat
  fading : Bool
  start : Nat
  phase : Nat
  due : Bool
  deriving DecidableEq, Repr

/-- One channel of a field die beside its registers. Stream (R340, R341, R348, R351): the last sample that arrived, the
weight's step (256: 1.0), ticks in HOLD and in IDLE, consecutive usable ticks, whether RELEASE armed it, consecutive
matches, and the digest in progress. Modulator (R357 to R376): whether its gates are driven in this period, the
CTRL, DT and QUIET words in force, its legs, the gate edges of this period, the period's ticks, how long before it the
last edge lay, the tick of a trip in it, trips that did not latch, the step of the start ramp (256: none), the last five
inputs of the interpolator, the five errors (2^-20), the outputs of this and of the last sample's periods, raw writes
pending with the valleys each has seen, raw values due at the valley, whether they are a lone write and whether they miss
the next valley, raw values that a tally wrote, the raw words in force, missing ticks, the errors before the last sample,
whether the safe state took the gates low since the last valley, and whether a protection latch has held the gates since
they last ran (R404). Protection (R380 to R413): temperatures in °C, the sum of i² of this
millisecond, cuts in dB, envelope and gains, ticks for which the limiters have not acted, trim in dB, the sums of R397,
the model instances, the last i_q, the DC filters and how long they stood at their thresholds, whether this period is
limited, the limited periods before it, their number, the tick at which a check becomes due, whether a check asked for by the host
and an automatic one wait (R403), a running one, the pilot's sums, whether its window is good so far, the bounds of its cuts, the last valid |Z|,
a measured temperature for the next update, the run of equal classes, the sweep, and what the snapshot gathers (R415). -/
structure FieldChan where
  hold : Word
  pos : Nat
  held : Nat
  idle : Nat
  good : Nat
  armed : Bool
  run : Nat
  crc : Nat
  comp : Bool
  driven : Bool
  ctrl : Word
  dt : Word
  quiet : Word
  legA : Leg
  legB : Leg
  edges : List (Nat × Nat × Bool)
  per : Nat
  back : Option Nat
  tripAt : Option Nat
  soft : Nat
  start : Nat
  hist : List Word
  err : List Int
  us : List Int
  usPrev : List Int
  pendPer : Option Word
  pendDuty : Option Word
  duePer : Option Word
  dueDuty : Option Word
  dueLone : Bool
  dueNext : Bool
  agePer : Nat
  ageDuty : Nat
  tallyPer : Option Word
  tallyDuty : Option Word
  rawPer : Word
  rawDuty : Word
  missing : Nat
  err0 : List Int
  safeOff : Bool
  latched : Bool
  tc : Rat
  tm : Rat
  sumI : Rat
  cutC : Rat
  cutP : Rat
  env : Rat
  gx : Rat
  gs : Rat
  xOne : Nat
  sOne : Nat
  trim : Rat
  sumE : Rat
  sumS : Rat
  out : Cone
  pred : Cone
  ref : Cone
  iq : Word
  dcOut : Rat
  dcStr : Rat
  dcOutRun : Nat
  dcStrRun : Nat
  limited : Bool
  window : List Bool
  limits : Nat
  checkAt : Option Nat
  dueHost : Bool
  dueAuto : Bool
  check : Option CheckRun
  pilot : Demod
  pilotOk : Bool
  cuts : List (Rat × Rat)
  zpil : Option Nat
  meas : Option Rat
  clsRun : Nat
  sweep : Option SweepChan
  xpk : Nat
  vs2 : Nat
  is2 : Nat
  nRms : Nat
  limCnt : Nat
  deriving DecidableEq, Repr

/-- A field die beside the supervisor of its own (R20, R326 to R418): whether its supply is up and whether an
undervoltage is to be reported, its registers, sealed values S by register, whether its clock or a control rod makes it
safe, for each receive lane the sync headers tested and those not valid among them (R326), the last messages accepted
from the barrier and from the twin, its sequence numbers, FAULT messages that wait, FAULT messages lost and whether that is to be reported, the last HEARTBEATs
(block, epoch) with whether one came since the last block's first tick, boundaries without one, the FS and BLK codes,
the index of the next tick, ticks since reset, samples that wait for their ticks, staged records, tallies discarded and
not yet reported, carries that wait, its channels, digests of its own and of its partner, V_rail in volts, and what is
due at this tick: the thermal update, the trim update, the pilot window's end; TS0 to TS3 in °C, the sense bits of the
last ticks with their number a tick, the newest first (R384), the model words that this tick's records replaced (R417);
the sweep; the SEQs and results of the
CMDs acted on, the sample indices of the last sections latched, the dither index at reference period 0 of the present
sample, the reference period that the last valley lay in, whether the die has been ACTIVE (R361), and the lane mismatches of its barrier and of its twin link
(R329). -/
structure FieldDie where
  on : Bool
  uv : Bool
  regs : SMap Word
  seals : SMap Word
  clkBad : Bool
  rodBad : Bool
  sync : SMap (Nat × Nat)
  rx : Option (Nat × List Nat)
  twinRx : Option (Nat × List Nat)
  txSeq : Nat
  twinSeq : Nat
  faults : List (Nat × Nat × Nat × Nat)
  lost : Nat
  overflow : Bool
  beats : List (Nat × Nat)
  beatNew : Bool
  missed : Nat
  fs : Nat
  blkCode : Nat
  tick : Option Nat
  ticks : Nat
  own : List SampleMsg
  twin : List SampleMsg
  staged : List StagedRec
  discards : List Nat
  carries : List Nat
  chans : SMap FieldChan
  ownDig : List DigestMsg
  peerDig : List DigestMsg
  rail : Rat
  thermalDue : Bool
  trimDue : Bool
  pilotDue : Bool
  ts : List Rat
  sense : List (Nat × SenseIn)
  oldModel : List (Nat × Word)
  sweep : Option DieSweep
  did : List (Nat × Nat)
  latched : List Nat
  j : Nat
  period : Nat
  jOn : Bool
  differs : Nat
  twinDiffers : Nat
  deriving DecidableEq, Repr


/-! ## Host rings (chapter 12) -/

/-- A descriptor the device has fetched and whose completion entry is not yet written: its slot, its 64 bytes, whether
it has been accepted, and its status and RESULT once it is done (R433, R443). -/
structure Flight where
  slot : Nat
  bytes : List Byte
  accepted : Bool
  result : Option (Nat × Nat)
  deriving DecidableEq, Repr

/-- A queue pair beside its registers (R422, R424): the SQ fetch index, the CQ write index and its phase, the tail and
CQ head last read from a valid doorbell entry, the entries written and not yet shown consumed, the descriptors in flight
in SQ order, the completions not yet signalled and the TIME count of the oldest, whether EN was written 0 while
RECOVERING or in ERROR, whether DRAINING or RECOVERING has read its one doorbell entry, and for each descriptor posted
and not yet accepted, in SQ order, the number of the doorbell read that found it (R434). -/
structure QpState where
  fetch : Nat
  cq : Nat
  phase : Bool
  tail : Nat
  head : Nat
  unread : Nat
  flights : List Flight
  unsignalled : Nat
  oldest : Nat
  enOff : Bool
  tailRead : Bool
  due : List Nat
  deriving DecidableEq, Repr

/-- A queue pair after reset: disabled, nothing in flight. -/
def qpReset (_ : Nat) : QpState := ⟨0, 0, true, 0, 0, 0, [], 0, 0, false, false, []⟩

/-- The order of acceptance across queue pairs (R434): the doorbell reads that found something, the read whose
descriptors were last accepted from, and the queue pair after the last one that had its turn. -/
structure Turns where
  reads : Nat
  read : Nat
  next : Nat
  deriving DecidableEq, Repr

/-- A DIAG_RUN that waits for its results (R412, R413): its descriptor, die, channels, run, buffer, and the parts
received: each with 16 × channel + part, and the TIME count at its acceptance. -/
structure DiagRun where
  ref : DescRef
  die : Die
  mask : Nat
  run : Nat
  addr : Nat
  parts : SMap (List Nat)
  since : Nat
  deriving DecidableEq, Repr

/-- The PCI Express function beside its HIF registers (R419): whether it stands in D3hot, the 44 upper bits of BAR0, and
the writes to host memory that wait until the device may send them, oldest first. -/
structure PcieState where
  d3hot : Bool
  bar0 : BitVec 44
  waiting : List (Nat × List Byte)
  deriving DecidableEq, Repr

/-- The function after PERST_N: D0, no address, nothing waiting. -/
def pcieReset : PcieState := ⟨false, 0, []⟩



/-! ## Stacking (chapter 13) -/

/-- A vote the coordinator holds (R266): transaction, voter, yes, member mask and boundary. -/
structure StkVote where
  xid : Nat
  src : Nat
  yes : Bool
  mask : Nat
  n : Nat
  deriving DecidableEq, Repr

/-- A decision: transaction, COMMIT, boundary. -/
structure StkDecision where
  xid : Nat
  commit : Bool
  n : Nat
  deriving DecidableEq, Repr

/-- A stack message that waits for its answer (R463): addressee (8: broadcast), type, payload, the block of its last
sending, and its transaction. -/
structure StkWait where
  dst : Nat
  type : Nat
  payload : List Nat
  block : Nat
  xid : Nat
  deriving DecidableEq, Repr

/-- A query a new coordinator has asked of the surviving members (R271): transaction, who asked, members yet to answer. -/
structure StkInquiry where
  xid : Nat
  asker : Nat
  waiting : Nat
  deriving DecidableEq, Repr

/-- A stack member beside its registers: its sequence number, the broadcasts seen (sender, SEQ, TIME count), the neighbour
of each link (identity, MASTER), the member map a heartbeat gave, since when discovery waits (TIME count), the block whose
heartbeat last came or was missed, the links between members that each link's neighbour told, whether a part that it was
of has yielded and not yet agreed in time (R460), whether it joined after START (R470), the messages with a bad CRC,
the boundary at which a handover or a yield takes effect, the map entries subscribed (channel and SRC), the
subscriptions it serves (reader, channel), remote beads received in this period, the coordinator's votes, decisions and
the decision being logged, messages that wait for answers, inquiries, members' last reports, START messages sent and the
start tally's XID, and each link's delay as this end measured it from the last
request (2^-16 ns). -/
structure StkState where
  seq : Nat
  seen : List (Nat × Nat × Nat)
  peers : SMap (Nat × Bool)
  heardMap : Nat
  discover : Option Nat
  beat : Option Nat
  handover : Option (Nat × Nat)
  yieldTo : Option Nat
  subs : List (Nat × Nat)
  readers : List (Nat × Nat)
  arrived : List Nat
  votes : List StkVote
  decisions : List StkDecision
  logging : List StkDecision
  waits : List StkWait
  inquiries : List StkInquiry
  statusLocked : Nat
  statusDoubt : Nat
  starts : Nat
  startXid : Option Nat
  far : SMap (List (Fin 8 × Fin 8))
  healing : Bool
  lateJoin : Bool
  crcBad : Nat
  back : SMap Int
  deriving DecidableEq, Repr



/-! ## Boot, field update and loss of power (chapter 15) -/

/-- A piece of host flash work in progress (R509, R510, R513, R516): a save of a configuration image (with its
AUTOSTART flag), a block for the staging area at its offset, or an activation. -/
inductive FlashJob where
  | save (image : List Byte) (auto : Bool)
  | block (offset : Nat) (data : List Byte)
  | activate (length : Nat)
  deriving DecidableEq, Repr

/-- The ROM and the supervisor beside the BOOT registers: the OTP contents (die identity; the public key of each key
slot, 0 where it holds none; the revoked slots; the anti-rollback fuses blown), what the last reset sampled (power-on,
RECOV_N low, the CHIP_RESET source, self-trip), whether the ROM has started the supervisor, whether that runs, the host
flash work in progress and the descriptor it serves (none once the host was reset), the sectors copied at this start,
whether a start tally of this start has applied, whether the start was abandoned, the configuration section to go on with
while the store is being applied, the stored tally that is waited for with its outcome once it is known, the sections of
settings that wait for discovery (R468), whether the
supply came up and step 1 of the ROM has not ended (R560), whether the supervisor restarts (R475),
whether a reset of the host die's balls lasts, up to the end of step 1 of the ROM (R559), and whether the store's invalid copy
is yet to be rewritten (R518). -/
structure BootState where
  identity : Nat
  keys : List Nat
  revoked : Nat
  fuses : Nat
  powerOn : Bool
  recovLow : Bool
  cause : Nat
  selfTrip : Bool
  romUp : Bool
  supervisor : Bool
  work : Option (FlashJob × Option DescRef)
  copied : Option Nat
  started : Bool
  abandoned : Bool
  load : Option Nat
  loadTally : Option (Nat × Option Bool)
  coming : Bool
  restarting : Bool
  settings : List Nat
  resetting : Bool
  repairDue : Bool
  deriving DecidableEq, Repr

/-- The ROM and the supervisor after power-on of a part whose OTP is blank (log entry 40). -/
def bootReset : BootState where
  identity := 0
  keys := [0, 0, 0, 0]
  revoked := 0
  fuses := 0
  powerOn := true
  recovLow := false
  cause := 0xFFF
  selfTrip := false
  romUp := false
  supervisor := false
  work := none
  copied := none
  started := false
  abandoned := false
  load := none
  loadTally := none
  coming := true
  restarting := false
  settings := []
  resetting := true
  repairDue := false



/-! ## The management port (chapter 16) -/

/-- The transfer in progress at the management target (R531, R533): none; a write, with the bytes taken, whether one for
0x00 to 0xBF was discarded, and the first byte address stored; a read from the latch. -/
inductive MgtTransfer where
  | idle | writing (bytes : Nat) (discarded : Bool) (stored : Option Nat) | reading
  deriving DecidableEq, Repr

/-- The management target beside its registers: whether it answers, its pointer, the read latch, the transfer, since when
an attention pulse is on the bus, a cause set during it, whether the page was refreshed since the start, since when the bus
is idle (none: a START since the last STOP), when the last event of the transfer came, and from when REPEAT counts.
Instants are of the recorder's clock. -/
structure MgtState where
  answers : Bool
  pointer : Nat
  latch : List Byte
  transfer : MgtTransfer
  pulse : Option Nat
  again : Bool
  refreshed : Bool
  idleAt : Option Nat
  lastAt : Nat
  repeatAt : Nat
  deriving DecidableEq, Repr


/-! ## Messages that leave the device -/

/-- How a TDM frame leaves on the wire (R106): slot 0 one BCLK after the FSYNC leading edge, the BCLK periods that a master
holds FSYNC (0 for a follower, which takes it as an input), its leading edge falling, and outputs that change on the
rising BCLK edge. -/
structure TdmWave where
  delayed : Bool
  fsync : Nat
  falling : Bool
  rising : Bool
  deriving DecidableEq, Repr

/-- A message or signal the device sends. -/
inductive OutMsg where
  /-- An MSI-X message: vector, address and data (R449). -/
  | msix (vector addr : Nat) (data : Word)
  /-- FORCE_SAFE on both lanes of a die's barrier (R484). -/
  | forceSafe (die : Die)
  /-- A TDM frame of port `n`: one entry a slot, none where the slot is high-impedance (R106, R110). -/
  | tdmFrame (n : Nat) (wave : TdmWave) (slots : List (Option Word))
  /-- The outputs of a port stop, driven low: 0 to 15 TDM ports, 16 to 31 biphase transmitters (R119). -/
  | portLow (p : Nat)
  /-- A biphase frame of transmitter `n`: a Z preamble or not, and time slots 4 to 31 of its subframes (R128, R129). -/
  | bphFrame (n : Nat) (z : Bool) (a b : Nat)
  /-- A message down a die's barrier, as its 64-bit words, on both lanes (R328, R329). -/
  | barDown (die : Die) (words : List Nat)
  /-- A message on stack link `l`, as its 64-bit words (R455). -/
  | stack (l : Nat) (words : List Nat)
  /-- A frame of network port `p` on the line, without preamble and FCS (R297). -/
  | netFrame (p : Nat) (bytes : List Byte)
  /-- CARRY_OUT rises, or falls (R279). -/
  | carryOut (high : Bool)
  /-- A message up a die's barrier, as its 64-bit words, on both lanes (R328, R329). -/
  | barUp (die : Die) (words : List Nat)
  /-- What a die's STATUS says of a discarded tally, which Table 09-2 gives no place (R263, R566). -/
  | discardReport (die : Die) (id : Nat)
  /-- A message on a die's twin lanes (R346). -/
  | twin (die : Die) (words : List Nat)
  /-- The gate edges of a channel's period (R363, R365): tick, ball (0: GAH, 1: GAL, 2: GBH, 3: GBL), level. -/
  | gateEdges (die : Die) (ch : Nat) (edges : List (Nat × Nat × Bool))
  /-- A byte the management target sends in a read transfer (R531). -/
  | mgtByte (b : Byte)
  /-- The management target acknowledges an address or a byte, or does not (R529, R530, R533). -/
  | mgtAck (ack : Bool)
  /-- An attention pulse begins, SDA low, or ends (R537). -/
  | mgtSda (low : Bool)
  /-- All four gates of a channel go low (R368, R373). -/
  | gatesLow (die : Die) (ch : Nat)
  /-- SCK0 to SCK3 of a die run, or stand low (R383, R561). -/
  | sck (die : Die) (on : Bool)
  deriving DecidableEq, Repr

/-! ## The whole state -/

/-- Why a step stops: no command stops, so there is no reason. Every command the table lists has an effect or, where
its conditions do not hold, leaves the state as it is (log entry 3). -/
inductive Fault where
  deriving DecidableEq, Repr

/-- Why a command has no meaning. -/
inductive Refusal where
  /-- A command with no meaning yet, by its mnemonic. Raised by Dispatch alone; safe. -/
  | notModelled (mnemonic : String)
  deriving DecidableEq, Repr

/-- The state of the device. -/
structure State where
  variant : Nat
  powered : Bool
  perstLow : Bool
  pcieUp : Bool
  pcie : PcieState
  regs : SMap Word
  time : TimeState
  grid : GridState
  loop : LoopState
  collector : CollectorState
  recorder : RecorderState
  ports : SMap PortState
  gsram : SMap Word
  dram : SMap Word
  poison : SMap Bool
  beads : SMap BeadInfo
  chans : SMap ChanState
  rx : SMap RxPort
  cs : SMap CsBlock
  tx : SMap TxPort
  asrcLive : SMap Word
  params : SMap Word
  xps : SMap XpRun
  buses : SMap BusRun
  hpfs : SMap HpfRun
  peaks : SMap (List Nat)
  routes : SMap RouteRun
  fades : SMap (Nat × Nat)
  routeWait : List RouteWrite
  taps : SMap TapRun
  lines : SMap Nat
  meters : SMap Meter
  meterIndex : Nat
  meterClears : List (Nat × Nat)
  rods : SMap Rod
  frameMem : SMap Word
  banks : SMap (Nat × Nat)
  loads : List (Nat × LoadState)
  nets : SMap NetPort
  posted : List DescRef
  strRx : SMap StrRx
  strTx : SMap StrTx
  supplied : SMap Nat
  strClears : List (Nat × Nat)
  tallies : SMap Tally
  snap : SnapState
  barA : BarHost
  barB : BarHost
  dieA : FieldDie
  dieB : FieldDie
  chmapPrev : List Word
  chmapPlay : List Word
  stk : StkState
  mgt : MgtState
  flash : SMap Byte
  boot : BootState
  qps : SMap QpState
  diags : List DiagRun
  turns : Turns
  doorbell : Bool
  pageBad : Bool
  hostMem : List Host.Cell
  sent : List OutMsg
  pending : List Instr
  free : Nat
  deriving DecidableEq, Repr

/-- A field die after its supply rises: UNSEALED, its gates low (R342, R548). -/
def fieldDieReset : FieldDie where
  on := true
  uv := false
  regs := []
  seals := []
  clkBad := false
  rodBad := false
  sync := []
  rx := none
  twinRx := none
  txSeq := 0
  twinSeq := 0
  faults := []
  lost := 0
  overflow := false
  beats := []
  beatNew := false
  missed := 0
  fs := 0
  blkCode := 0
  tick := none
  ticks := 0
  own := []
  twin := []
  staged := []
  discards := []
  carries := []
  chans := []
  ownDig := []
  peerDig := []
  rail := 0
  thermalDue := false
  trimDue := false
  pilotDue := false
  ts := [0, 0, 0, 0]
  sense := []
  oldModel := []
  sweep := none
  did := []
  latched := []
  j := 0
  period := 0
  differs := 0
  jOn := false
  twinDiffers := 0

/-- Device time right after power-on: not set, the counter at zero (R63). -/
def timeReset : TimeState := ⟨0, 0, 0, false, [], none, false, 0, 0⟩

/-- The block generator right after reset. -/
def gridReset : GridState := ⟨0, 0, 0, 0, none, 0⟩

/-- The clean-up loop right after reset: no candidate chosen (code 0x1F), nothing learned (R77 to R91). -/
def loopReset : LoopState where
  cand := 0x1F
  steer := 0
  integral := 0
  phase := 0
  buildout := 0
  buildAt := 0
  bw := 0
  fast := false
  dwellBad := false
  goodRun := 0
  badRun := 0
  everLocked := false
  pstepBusy := false
  freeStart := true
  lastUpdate := 0
  lockedAt := 0
  avgAt := 0
  secTicks := 0
  secSumS := 0
  secSumT := 0
  history := []
  tHeld := 0
  hourSum := 0
  hourN := 0
  hourly := []
  hours := 0
  learnedA := 0
  temps := []
  goodSince := []
  qualSince := []
  dwellAt := 0

/-- The fault collector after power-on: nothing raised, every mask as Table 14-4 gives. -/
def collectorReset : CollectorState := ⟨[], [], [], [], none, [], false, none, false, false, [], 0, none⟩

/-- The event recorder after power-on: every bucket full, nothing waiting. -/
def recorderReset : RecorderState := ⟨[], [], 0, 0, 0, none, 0, [], none, [], ⟨0, 0⟩⟩

/-- A bank before any carry: every value is zero, and no field section is to come (R274). -/
def bankReset : Bank := ⟨0, 0, 0, 0, 0, 0, 0, 0, [], 0, [], true, true⟩

/-- The snapshot logic after reset: no carry yet (R272). -/
def snapshotReset : SnapState := ⟨false, 0, bankReset, none, none, [], false, 0, none⟩

/-- A barrier link engine after reset. -/
def barHostReset : BarHost := ⟨0, none, [], [], 0, 0, none, none, [], false, 0, ⟨0, 0, 0, 0, 0, 0⟩, []⟩

/-- A stack member after power-on. -/
def stackReset : StkState where
  seq := 0
  seen := []
  peers := []
  heardMap := 0
  discover := none
  beat := none
  handover := none
  yieldTo := none
  subs := []
  readers := []
  arrived := []
  votes := []
  decisions := []
  logging := []
  waits := []
  inquiries := []
  statusLocked := 0
  statusDoubt := 0
  starts := 0
  startXid := none
  far := []
  healing := false
  lateJoin := false
  crcBad := 0
  back := []

/-- The management target after reset (R528). -/
def mgtStateReset : MgtState := ⟨false, 0, [], .idle, none, false, false, some 0, 0, 0⟩

/-- The device right after power-on: every register at the value its table gives after reset, every memory without a
listed word, no command waiting. Of the orderable variants it is the one with both field dies (DESIGN CHOICE, log entry 61):
R1 lists three and no command changes which one a device is. -/
def State.reset : State where
  variant := 0
  powered := true
  perstLow := false
  pcieUp := false
  pcie := pcieReset
  regs := []
  time := timeReset
  grid := gridReset
  loop := loopReset
  collector := collectorReset
  recorder := recorderReset
  ports := []
  gsram := []
  dram := []
  poison := []
  beads := []
  chans := []
  rx := []
  cs := []
  tx := []
  asrcLive := []
  params := []
  xps := []
  buses := []
  hpfs := []
  peaks := []
  routes := []
  fades := []
  routeWait := []
  taps := []
  lines := []
  meters := []
  meterIndex := 0
  meterClears := []
  rods := []
  frameMem := []
  banks := []
  loads := []
  nets := []
  posted := []
  strRx := []
  strTx := []
  supplied := []
  strClears := []
  tallies := []
  snap := snapshotReset
  barA := barHostReset
  barB := barHostReset
  dieA := fieldDieReset
  dieB := fieldDieReset
  chmapPrev := []
  chmapPlay := []
  stk := stackReset
  mgt := mgtStateReset
  flash := []
  boot := bootReset
  qps := []
  diags := []
  turns := ⟨0, 0, 0⟩
  doorbell := false
  pageBad := false
  hostMem := []
  sent := []
  pending := []
  free := 0

end Sys2Proof.Machine
end

