-- ==== Sys2Proof/Machine/Ops.lean ====
section
/-! DEFINITION. The named operations every command uses: registers and their fields, free values, the block clock's
numbers, device time, host memory and the messages the device sends. -/

namespace Sys2Proof.Machine
open Sys2Proof

/-- The answer of a command. -/
abbrev Out := Host.Outcome State Fault Refusal

/-! ## Registers -/

/-- The register tables of BAR0 by address range, so that a register is found in its own block (R420). -/
def hostBlocks : List (Nat × Nat × List RegRow) := [
  (0x0, 0x1000, rows01_13), (0x1000, 0x2000, rows12_14), (0x2000, 0x3000, rows02_7), (0x3000, 0x4000, rows02_8),
  (0x4000, 0x5000, rows14_12), (0x5000, 0x6000, rows14_13), (0x6000, 0x7000, rows15_10), (0x7000, 0x8000, rows16_4),
  (0x8000, 0x9000, rows13_6), (0x9000, 0xA000, rows01_14), (0x10000, 0x18000, rows08_10),
  (0x18000, 0x20000, rows08_11), (0x20000, 0x24000, rows03_7), (0x24000, 0x28000, rows03_8),
  (0x28000, 0x30000, rows03_6), (0x30000, 0x38000, rows04_13), (0x38000, 0x3C000, rows06_7),
  (0x3C000, 0x40000, rows06_8), (0x40000, 0x44000, rows07_8), (0x44000, 0x48000, rows07_9),
  (0x48000, 0x4A000, rows09_11), (0xF0000, 0xF9000, rowsMsix)]

/-- The row that holds a BAR0 address, if a register lies there. -/
def hostRow (a : Nat) : Option RegRow :=
  match hostBlocks.find? (fun b => decide (b.1 ≤ a) && decide (a < b.2.1)) with
  | none => none
  | some b => findRow b.2.2 a

/-- Table 01-10: the priority after reset of master `m` at target `t`; 0 where they are not connected (R46, R47). -/
def matrixPriority (m t : Nat) : Nat :=
  if m < 8 then
    if t < 8 then (if t = m then 12 else 0) else if t < 16 then 12 else if t < 20 then 10 else 0
  else match m with
  | 8 => if 8 ≤ t ∧ t < 16 then 13 else if 16 ≤ t ∧ t < 20 then 9 else 0
  | 9 => if t < 20 then 4 else if t = 20 then 8 else 0
  | 10 => if t < 20 then 6 else if t = 20 then 9 else 15
  | 11 => if t < 16 then 14 else if t = 20 then 14 else 0
  | 12 => if 8 ≤ t ∧ t < 16 then 11 else if 16 ≤ t ∧ t < 20 then 12 else 0
  | 13 => if 8 ≤ t ∧ t < 16 then 15 else 0
  | 14 => if 8 ≤ t ∧ t < 16 then 15 else if 16 ≤ t ∧ t < 20 then 8 else 0
  | _ => if 8 ≤ t ∧ t < 16 then 13 else 0

/-- The MTX_PRI word of target `t` for masters `m0` to `m0 + 7` after reset (R46). -/
def priorityWord (t m0 : Nat) : Word :=
  (List.range 8).foldl (fun w k => fldPut ⟨4 * k, 4⟩ (matrixPriority (m0 + k) t) w) 0

/-- The bits of the MTX_PRI word of target `t` for masters `m0` to `m0 + 7` whose pair is connected (R47). -/
def connectedMask (t m0 : Nat) : Word :=
  (List.range 8).foldl (fun w k => if matrixPriority (m0 + k) t = 0 then w else fldPut ⟨4 * k, 4⟩ 15 w) 0

/-- The values after reset that are no constant of a register table: MTX_PRI (Table 01-10), the candidates' bandwidth
codes (R79, for TYPE = 0 that of word clock: DESIGN CHOICE, log entry 101), the live clock bits (R564), the field map (R567), the rods' kinds (R137) and PFAIL_N's level (log entry 53). -/
def hostResetSpecial (a : Nat) : Option Word :=
  if Reg.MTX_PRI_LO 0 ≤ a ∧ a < Reg.MTX_PRI_LO 24 then
    let t := (a - Reg.MTX_PRI_LO 0) / 8
    some (if (a - Reg.MTX_PRI_LO 0) % 8 = 0 then priorityWord t 0
      else if (a - Reg.MTX_PRI_LO 0) % 8 = 4 then priorityWord t 8 else 0)
  else if a = Reg.CLK_STAT then some 7
  else if Reg.REF_CAND 0 ≤ a ∧ a < Reg.REF_CAND 22 ∧ a % 4 = 0 then
    let n := (a - Reg.REF_CAND 0) / 4
    some (fldPut F.REF_CAND_BW (if n = 4 then 5 else if n = 5 then 15 else 12) 0)
  else if Reg.BAR_CHMAP 0 0 ≤ a ∧ a < Reg.BAR_CHMAP 0 32 ∧ a % 4 = 0 then
    some (fldPut F.BAR_CHMAP_EN 1 (BitVec.ofNat 32 ((a - Reg.BAR_CHMAP 0 0) / 4)))
  else if Reg.BAR_CHMAP 1 0 ≤ a ∧ a < Reg.BAR_CHMAP 1 32 ∧ a % 4 = 0 then
    some (fldPut F.BAR_CHMAP_EN 1 (BitVec.ofNat 32 (32 + (a - Reg.BAR_CHMAP 1 0) / 4)))
  else if Reg.ROD_STAT 0 0 ≤ a ∧ a < Reg.ROD_STAT 8 0 ∧ a % 0x1000 = 0x804 then some (fldPut F.ROD_STAT_KIND 1 0)
  else if a = Reg.MGT_ADDR then some 0x00487F48
  else if a = Reg.BOOT_PFAIL then some 1
  else none

/-- What a BAR0 register that nothing has written holds: its value after reset; no register, zero (R420). -/
def hostReset (a : Nat) : Word :=
  match hostResetSpecial a with
  | some w => w
  | none => match hostRow a with
    | none => 0
    | some r => rowReset r

/-- The stored word of a BAR0 register. -/
def rd (s : State) (a : Nat) : Word := mapGet hostReset s.regs a

/-- Store a whole BAR0 register. -/
def wr (s : State) (a : Nat) (w : Word) : State := { s with regs := mapSet hostReset s.regs a w }

/-- Read a field of a BAR0 register. -/
def rget (s : State) (a : Nat) (f : Fld) : Nat := fldGet f (rd s a)

/-- Read a signed field of a BAR0 register. -/
def rgetI (s : State) (a : Nat) (f : Fld) : Int := fldGetInt f (rd s a)

/-- Whether a one-bit field of a BAR0 register is set. -/
def ron (s : State) (a : Nat) (f : Fld) : Bool := rget s a f != 0

/-- Write a field of a BAR0 register. -/
def rput (s : State) (a : Nat) (f : Fld) (v : Nat) : State := wr s a (fldPut f v (rd s a))

/-- Write a signed field of a BAR0 register, saturated to the field. -/
def rputI (s : State) (a : Nat) (f : Fld) (v : Int) : State :=
  rput s a f (wrapTo f.width (satInt f.width v))

/-- Set a one-bit field. -/
def rset (s : State) (a : Nat) (f : Fld) : State := rput s a f 1

/-- Clear a field. -/
def rclr (s : State) (a : Nat) (f : Fld) : State := rput s a f 0

/-- Set or clear a one-bit field. -/
def rbit (s : State) (a : Nat) (f : Fld) (b : Bool) : State := rput s a f (b2n b)

/-- Add to a counter field that saturates. -/
def radd (s : State) (a : Nat) (f : Fld) (n : Nat) : State := rput s a f (satNat f.width (rget s a f + n))

/-- Write a register under its access codes, SYS_LOCK considered (R15, R56, R420). -/
def rwrite (s : State) (a : Nat) (w : Word) : State :=
  match hostRow a with
  | none => s
  | some r => wr s a (writeFields r.fields (ron s Reg.SYS_LOCK F.SYS_LOCK_LOCK) (rd s a) w)

/-- The bits of a row's fields with one of some access codes. -/
def accessMask (fs : List FieldRow) (codes : List AccessCode) : Word :=
  fs.foldl (fun w f => if codes.contains f.acc then fldPut ⟨f.lo, f.width⟩ (2 ^ f.width - 1) w else w) 0

/-- A mask sets no bit outside another. -/
def within (mask allowed : Word) : Bool := mask &&& ~~~allowed == 0

/-- Return the BAR0 registers of an address range to their reset values. -/
def resetRange (s : State) (lo hi : Nat) : State :=
  { s with regs := mapKeep (fun a => decide (a < lo) || decide (hi ≤ a)) s.regs }

/-- The bits of a BAR0 register that survive RST_N and CHIP_RESET: kept and STK fields (R71, R472, R500, R501), and
MIX_DR_ENGAGE (R244), and PFAIL_N's level and falls (R521, R527). -/
def hostKept (a : Nat) : Word :=
  if a = Reg.MIX_DR_ENGAGE_LO ∨ a = Reg.MIX_DR_ENGAGE_HI then BitVec.allOnes 32
  else if a = Reg.BOOT_PFAIL then 0xFFFF0001
  else match hostRow a with
    | none => 0
    | some r => rowKept r

/-- The registers after RST_N or CHIP_RESET: kept bits stay, the others take their reset values (Table 01-3). -/
def resetRegs (s : State) : State :=
  { s with regs := mapRewrite hostReset (fun a w => (w &&& hostKept a) ||| (hostReset a &&& ~~~(hostKept a))) s.regs }

/-! ## Free values -/

/-- Take a fresh free value (log entry 2). -/
def takeFree (s : State) (w : Nat) : BitVec w × State := (Config.freeBits w s.free, { s with free := s.free + 1 })

/-- Take a fresh free integer (log entry 2). -/
def takeFreeInt (s : State) : Int × State := (Config.freeInt s.free, { s with free := s.free + 1 })

/-! ## The block clock's numbers -/

/-- The sample rate in Hz: SYS_BLKCFG.FS (R56). -/
def fsHz (s : State) : Nat :=
  match rget s Reg.SYS_BLKCFG F.SYS_BLKCFG_FS with
  | 0 => 48000
  | 1 => 96000
  | _ => 192000

/-- The block length in samples: SYS_BLKCFG.BLK (R56). -/
def blk (s : State) : Nat := 4 * 2 ^ rget s Reg.SYS_BLKCFG F.SYS_BLKCFG_BLK

/-- One block in CORE_CLK cycles (R26). -/
def blockCycles (s : State) : Nat := blk s * 1536000000 / fsHz s

/-- The import and export windows in cycles (R26). -/
def windowCycles (s : State) : Nat := blockCycles s / 200

/-- The compute budget in cycles (R26). -/
def budgetCycles (s : State) : Nat := blockCycles s * 98 / 100

/-- The fabric's channels at the sample rate in force (R97). -/
def channels (s : State) : Nat := if fsHz s = 192000 then 512 else 1024

/-- Whether the pipeline is running. -/
def running (s : State) : Bool := ron s Reg.SYS_PIPE F.SYS_PIPE_RUNNING

/-- The period ordinal q (R28). -/
def ordinal (s : State) : Nat := s.grid.ordinal.toNat

/-! ## Device time (R63), in units of 2^-16 ns -/

/-- One second in units of 2^-16 ns. -/
def secUnits : Int := 65536000000000

/-- Device time wraps at 2^48 s, the range of its seconds field (R63; log entry 11). -/
def timeWrap (t : Int) : Int := t % (2 ^ 48 * secUnits)

/-- Disciplined time at counter value `c` (R63): T_b + (c − c_b) × 15,625 / 6,144 ns × (1 + ρ × 2^-40), truncated to
2^-16 ns. -/
def timeAt (s : State) (c : Nat) : Int :=
  let rho := rgetI s Reg.TIME_RATE F.TIME_RATE_RHO
  let n : Int := ((c : Int) - s.time.base) * 15625 * 32 * (2 ^ 40 + rho)
  timeWrap (s.time.ofs + Int.tdiv n (3 * 2 ^ 40))

/-- Disciplined time now. -/
def now (s : State) : Int := timeAt s s.time.cnt

/-- The boundary that comes next: the one after the present block, a re-base included (R27, R30). -/
def nextBoundary (s : State) : Nat := ((s.grid.index : Int) + 1 + s.grid.extra).toNat

/-- Whole seconds of a time. -/
def timeSec (t : Int) : Nat := (t / secUnits).toNat

/-- Nanoseconds within the second. -/
def timeNs (t : Int) : Nat := (t % secUnits / 65536).toNat

/-- The fraction of a nanosecond, in 2^-16 ns. -/
def timeFrac (t : Int) : Nat := (t % 65536).toNat

/-- A time from seconds and nanoseconds. -/
def mkTime (sec ns : Nat) : Int := (sec : Int) * secUnits + (ns : Int) * 65536

/-- The block index that device time gives by R24. -/
def indexOf (s : State) (t : Int) : Nat := (t * (fsHz s : Int) / (secUnits * (blk s : Int))).toNat

/-- The most that one boundary moves while the grid slews: 0.125 µs in units of 2^-16 ns (R27). -/
def slewStep : Int := 8192000

/-- What is left of a grid offset after `n` boundaries have moved. -/
def slewAfter (x : Int) (n : Nat) : Int :=
  if 0 ≤ x then max 0 (x - n * slewStep) else min 0 (x + n * slewStep)

/-- Whether a field die is fitted on this variant (R1, R3). -/
def diePresent (s : State) (d : Die) : Bool :=
  match d with
  | .a => decide (s.variant ≤ 1)
  | .b => s.variant == 0

/-- Whether a BAR0 address lies in the BAR block of a die that is not fitted (R3). -/
def absentBlock (s : State) (a : Nat) : Bool :=
  decide (0x48000 ≤ a) && decide (a < 0x4A000) && !diePresent s (if a < 0x49000 then .a else .b)

/-- A die's number: A is 0 and B is 1. -/
def dieNum : Die → Nat
  | .a => 0
  | .b => 1

/-- The dies, in order. -/
def allDies : List Die := [.a, .b]

/-- Whether host commands act: the host die is powered and not in recovery mode, in which only the BOOT block answers
(R421, R514). -/
def live (s : State) : Bool := s.powered && !ron s Reg.BOOT_STAT F.BOOT_STAT_MODE

/-- Answer the next state of a command on the host die; where the die cannot take it, the state is unchanged
(log entry 3). -/
def onHost (s : State) (f : State → State) : Out := .next (if live s then f s else s)

/-- Answer the next state of an event in the brass island, which runs whenever the host die is powered, in recovery mode
too (R62, R71, R514). -/
def onIsland (s : State) (f : State → State) : Out := .next (if s.powered then f s else s)

/-- Send a message out of the device (log entry 4). -/
def sendOut (s : State) (m : OutMsg) : State := { s with sent := m :: s.sent }

/-! ## Owning units (Table 14-5) -/

/-- The codes this model gives the owning units. -/
def unitTdm (n : Nat) : Nat := 0x100 + n
def unitBph (n : Nat) : Nat := 0x200 + n
def unitNet (p : Nat) : Nat := 0x300 + p
def unitStr : Nat := 0x400
def unitBus : Nat := 0x500
def unitRoute (r : Nat) : Nat := 0x600 + r
def unitDelay : Nat := 0x700
def unitBar (d : Die) : Nat := 0x800 + dieNum d
def unitStk (l : Nat) : Nat := 0x900 + l
def unitMaster (m : Nat) : Nat := 0xA00 + m
def unitMgt : Nat := 0xB00

/-- Whether a unit is held in reset until the next boundary (Table 14-3). -/
def inReset (s : State) (u : Nat) : Bool := s.collector.inReset.contains u

/-! ## Lists and time -/

/-- A list of numbers without repeats. -/
def distinct (l : List Nat) : List Nat := l.foldr (fun a acc => if acc.contains a then acc else a :: acc) []

/-- Cycles of TIME_CLK, or of the recorder's clock, in µs: `n` ticks last more than `us` µs, or at least so long (one tick is 15,625/6,144 ns). -/
def ticksExceed (n us : Nat) : Bool := decide (us * 393216 < n * 1000)
def ticksReach (n us : Nat) : Bool := decide (us * 393216 ≤ n * 1000)

/-! ## Host memory and descriptors -/

/-- The device may read and write host memory: the link is up, Bus Master Enable is set (Table 12-14) and the function is
in D0 (R419). -/
def mayDma (s : State) : Bool := s.pcieUp && ron s Reg.HIF_STAT F.HIF_STAT_BME && !s.pcie.d3hot

/-- A write lands in host memory (R442); an address past 2^64 wraps (log entry 5). -/
def hostPut (s : State) (addr : Nat) (bs : List Byte) : State :=
  { s with hostMem := (bs.foldl (fun (acc : List Host.Cell × Nat) b =>
      (mapSet (fun _ => (0 : Byte)) acc.1 (acc.2 % 2 ^ 64) b, acc.2 + 1)) (s.hostMem, addr)).1 }

/-- Write bytes to host memory as the device's DMA does (R442): while the device may not write, the write waits
(Table 12-14; log entry 161). -/
def hostWrite (s : State) (addr : Nat) (bs : List Byte) : State :=
  if mayDma s then hostPut s addr bs
  else { s with pcie := { s.pcie with waiting := s.pcie.waiting ++ [(addr, bs)] } }

/-- The writes that waited go out in their order once the device may write. -/
def flushWrites (s : State) : State :=
  if mayDma s then
    s.pcie.waiting.foldl (fun s e => hostPut s e.1 e.2) { s with pcie := { s.pcie with waiting := [] } }
  else s

/-- Completion statuses (Table 12-10). -/
def stOk : Nat := 0x00
def stAbortedReset : Nat := 0x01
def stRingDisabled : Nat := 0x02
def stInvalidOpcode : Nat := 0x03
def stInvalidParam : Nat := 0x04
def stTargetFenced : Nat := 0x05
def stTallyAborted : Nat := 0x06
def stTallyLate : Nat := 0x07
def stBusyRetry : Nat := 0x08
def stCrcFail : Nat := 0x09
def stSignatureFail : Nat := 0x0A
def stTimeout : Nat := 0x0B
def stNotReady : Nat := 0x0C

/-- A queue pair. -/
def qpAt (s : State) (n : Nat) : QpState := mapGet qpReset s.qps n

/-- Replace a queue pair. -/
def setQp (s : State) (n : Nat) (q : QpState) : State := { s with qps := mapSet qpReset s.qps n q }

/-- The descriptor in flight at a slot, if any. -/
def flightAt (s : State) (d : DescRef) : Option Flight :=
  (qpAt s d.qp).flights.find? (fun f => f.slot == d.slot.val)

/-- Complete a descriptor with a status and a RESULT; a descriptor completes once (R443). -/
def finish (s : State) (d : DescRef) (status result : Nat) : State :=
  let q := qpAt s d.qp
  setQp s d.qp { q with flights := q.flights.map (fun f =>
    if f.slot = d.slot.val ∧ f.result = none then { f with result := some (status, result % 2 ^ 64) } else f) }

/-- Complete a descriptor where there is one. -/
def finishOpt (s : State) (d : Option DescRef) (status result : Nat) : State :=
  match d with
  | none => s
  | some d => finish s d status result

/-! ## Interrupts (R449) -/

/-- Send or hold the message of an MSI-X vector: it is held pending while PCIe is down or the vector is masked. -/
def msixSignal (s : State) (v : Nat) : State :=
  if s.pcieUp && !ron s (Reg.MSIX_VCTRL v) F.MSIX_VCTRL_MASK then
    sendOut s (.msix v (rget s (Reg.MSIX_ADDR_LO v) F.WORD + 2 ^ 32 * rget s (Reg.MSIX_ADDR_HI v) F.WORD)
      (rd s (Reg.MSIX_DATA v)))
  else rput s (Reg.MSIX_PBA (v / 32)) ⟨v % 32, 1⟩ 1

/-- Send the message of a vector that is pending and can be sent now; its pending bit clears. -/
def msixPending (s : State) (v : Nat) : State :=
  if ron s (Reg.MSIX_PBA (v / 32)) ⟨v % 32, 1⟩ && s.pcieUp && !ron s (Reg.MSIX_VCTRL v) F.MSIX_VCTRL_MASK then
    let held := s.collector.intHeld && rget s Reg.HIF_MISC_VEC F.HIF_MISC_VEC_VECTOR != v
    msixSignal { rput s (Reg.MSIX_PBA (v / 32)) ⟨v % 32, 1⟩ 0 with collector := { s.collector with intHeld := held } } v
  else s

end Sys2Proof.Machine
end

