-- ==== Sys2Proof/Machine/Beads.lean ====
section
/-! DEFINITION. The sample fabric's data: memories, beads, owners, tags and fills (R96 to R105), and the raised-cosine
weights of R563. -/

namespace Sys2Proof.Machine
open Sys2Proof

/-! ## Raised-cosine weights (R563) -/

/-- π in units of 2^-80, to the nearest unit. -/
def piFix : Int := 3797952473636338580787994

/-- Terms of the cosine series: `x` squared, the term so far, and the next factor's index, all in 2^-80. -/
def cosTerms : Nat → Int → Int → Int → Int → Int
  | 0, _, _, _, acc => acc
  | n + 1, x2, term, k, acc =>
    let term := -(term * x2) / (2 ^ 80 * ((k + 1) * (k + 2)))
    cosTerms n x2 term (k + 2) (acc + term)

/-- cos(π i / n) in 2^-80, for i ≤ n; beyond a right angle by symmetry, so that the series converges. -/
def cosFix (i n : Nat) : Int :=
  let f (i : Nat) : Int :=
    let x := piFix * (i : Int) / (n : Int)
    cosTerms 24 (x * x / 2 ^ 80) (2 ^ 80) 0 (2 ^ 80)
  if 2 * i ≤ n then f i else -(f (n - i))

/-- The weight of step `i` of a fade over `n` samples: round(2^31 × 0.5 × (1 + cos(π i / n))), halves up; 0 past it. -/
def fadeWeight (i n : Nat) : Nat :=
  if i ≥ n then 0 else ((2 ^ 80 + cosFix i n + 2 ^ 49) / 2 ^ 50).toNat

/-- The weight of step `i` of a ramp over `n` samples: round(2^31 × 0.5 × (1 − cos(π i / n))); 1.0 past it. -/
def rampWeight (i n : Nat) : Nat :=
  if i ≥ n then 2 ^ 31 else ((2 ^ 80 - cosFix i n + 2 ^ 49) / 2 ^ 50).toNat

/-- A sample times a weight, to the nearest multiple of 2^-31, halves rounded up (R563). -/
def weighted (x : Word) (w : Nat) : Word := BitVec.ofInt 32 ((x.toInt * w + 2 ^ 30) / 2 ^ 31)

/-! ## Memories -/

/-- A word of global SRAM; words nothing has written read as zero (log entry 13). -/
def gsGet (s : State) (a : Nat) : Word := mapGet (fun _ => 0) s.gsram a

/-- Store a word of global SRAM; it is no longer poisoned. -/
def gsSet (s : State) (a : Nat) (w : Word) : State :=
  let s := { s with gsram := mapSet (fun _ => 0) s.gsram a w }
  if s.poison.isEmpty then s else { s with poison := mapErase s.poison a }

/-- The word of DRAM at a word address; words nothing has written read as zero (log entry 13). -/
def drGet (s : State) (a : Nat) : Word := mapGet (fun _ => 0) s.dram a

/-- The bytes of DRAM's usable capacity: 2 GiB (R43). -/
def dramBytes : Nat := 2 ^ 31

/-- Store a word of DRAM; nothing lies past its usable capacity. -/
def drSet (s : State) (a : Nat) (w : Word) : State :=
  if 4 * a < dramBytes then { s with dram := mapSet (fun _ => 0) s.dram a w } else s

/-- The key of a DRAM word among the poisoned words. -/
def dramPoisonKey (a : Nat) : Nat := 2 ^ 41 + a

/-- Store a DRAM word by an engine; the word is no longer poisoned. -/
def drStore (s : State) (a : Nat) (w : Word) : State :=
  drSet { s with poison := mapErase s.poison (dramPoisonKey a) } a w

/-- Store one byte of DRAM. -/
def drSetByte (s : State) (a : Nat) (b : Byte) : State :=
  drStore s (a / 4) (fldPut ⟨8 * (a % 4), 8⟩ b.toNat (drGet s (a / 4)))

/-- Store bytes of DRAM from an offset. -/
def drWriteBytes (s : State) (a : Nat) (bs : List Byte) : State :=
  (bs.foldl (fun (acc : State × Nat) b => (drSetByte acc.1 acc.2 b, acc.2 + 1)) (s, a)).1

/-- Read bytes of DRAM from an offset. -/
def drReadBytes (s : State) (a n : Nat) : List Byte :=
  (List.range n).map (fun i => BitVec.ofNat 8 (fldGet ⟨8 * ((a + i) % 4), 8⟩ (drGet s ((a + i) / 4))))

/-! ## Beads -/

/-- The word address of sample `j` of channel `c` in buffer `b`: sample words start at byte (b × 1,024 + c) × BLK × 4 (R96). -/
def beadWord (s : State) (b c j : Nat) : Nat := (b * 1024 + c) * blk s + j

/-- A bead nothing was written to: SILENT (Table 03-2). -/
def beadReset (_ : Nat) : BeadInfo := ⟨3, 0, 0, 0, 256, false⟩

/-- A channel at the start of a period: nothing written. -/
def chanReset (_ : Nat) : ChanState := ⟨0, false, false, false, none⟩

/-- What is kept for a bead. -/
def beadAt (s : State) (b c : Nat) : BeadInfo := mapGet beadReset s.beads (b * 1024 + c)

/-- Replace what is kept for a bead. -/
def setBead (s : State) (b c : Nat) (i : BeadInfo) : State :=
  { s with beads := mapSet beadReset s.beads (b * 1024 + c) i }

/-- A channel's state in this period. -/
def chanAt (s : State) (c : Nat) : ChanState := mapGet chanReset s.chans c

/-- Replace a channel's state. -/
def setChan (s : State) (c : Nat) (x : ChanState) : State := { s with chans := mapSet chanReset s.chans c x }

/-- The buffer written in this period and the one read (R34). -/
def writeBuf (s : State) : Nat := ordinal s % 4
def readBuf (s : State) : Nat := (ordinal s + 3) % 4

/-- Sample `j` of a bead as any reader finds it: fill values of a missing bead (R103), the ramp of R105, or its word. A
remote bead with its owner's tag FILLED is not missing here: it reads as the words that came (R467). -/
def beadSample (s : State) (b c j : Nat) : Word :=
  let i := beadAt s b c
  if i.tag = 3 then 0
  else if i.tag = 2 ∧ i.miss ≠ 0 then (if i.miss ≤ 1 then i.hold else weighted i.hold (fadeWeight (i.fade + j) 256))
  else weighted (gsGet s (beadWord s b c j)) (rampWeight (i.ramp + j) 256)

/-- Sample `j` of the bead a consumer reads in this period (R34). -/
def readSample (s : State) (c j : Nat) : Word := beadSample s (readBuf s) c j

/-- A whole bead as a consumer reads it. -/
def readBead (s : State) (c : Nat) : List Word := (List.range (blk s)).map (readSample s c)

/-- Producer classes (Table 03-1). -/
def clTdm : Nat := 1
def clBph : Nat := 2
def clAsrc : Nat := 3
def clStream : Nat := 4
def clRod : Nat := 5
def clMix : Nat := 6
def clDelay : Nat := 7
def clStack : Nat := 8
def clSense : Nat := 9

/-- A channel's owner: class and instance; channels that R97 makes unusable have none. -/
def ownerOf (s : State) (c : Nat) : Nat × Nat :=
  if c < channels s then
    (rget s (Reg.FAB_OWNER c) F.FAB_OWNER_CLASS, rget s (Reg.FAB_OWNER c) F.FAB_OWNER_INST)
  else (0, 0)

/-- Whether a unit owns a channel (R99). -/
def owns (s : State) (cls inst c : Nat) : Bool := cls != 0 && ownerOf s c == (cls, inst)

/-- The owner declares its bead of this period missing (R102). -/
def fabMissing (s : State) (cls inst c : Nat) : State :=
  if owns s cls inst c then setChan s c { chanAt s c with declared := true } else s

/-- Whether a word of global SRAM holds poison (R42). -/
def gsPoison (s : State) (a : Nat) : Bool := mapGet (fun _ => false) s.poison a

/-- Whether any word of a bead is poisoned. -/
def beadPoisoned (s : State) (b c : Nat) : Bool :=
  s.poison != [] && (List.range (blk s)).any (fun j => gsPoison s (beadWord s b c j))

/-- What a missing bead becomes after the bead before it: held, fading or silent (R103, R104). -/
def missingInfo (s : State) (prev : BeadInfo) (restart : Bool) : BeadInfo :=
  let m := if restart then 1 else prev.miss + 1
  let fade := if m ≤ 2 then 0 else prev.fade + blk s
  ⟨if m ≥ 2 ∧ fade ≥ 256 then 3 else 2, prev.hold, m, min fade 256, 256, restart⟩

/-- The word of FAB_TAGw: the tags of the beads that consumers read in this period (R104). -/
def tagWord (s : State) (w : Nat) : Word :=
  (List.range 16).foldl (fun acc i => fldPut ⟨2 * i, 2⟩ (beadAt s (readBuf s) (16 * w + i)).tag acc) 0

/-- A change of a channel's owner at a boundary: the count of missing beads restarts (R103). -/
def setOwner (s : State) (c : Nat) (w : Word) : State :=
  let s := if rd s (Reg.FAB_OWNER c) = w then s else setChan s c { chanAt s c with restart := true }
  wr s (Reg.FAB_OWNER c) w

end Sys2Proof.Machine
end

