-- ==== Sys2Proof/Machine/Crc.lean ====
section
/-! DEFINITION. The two redundancy codes: the CRC-32C of update blocks, images and stack messages (R455), and the CRC-16
of barrier messages (R328). -/

namespace Sys2Proof.Machine
open Sys2Proof

/-- One step of CRC-32C, bit-serial and reflected (polynomial 0x1EDC6F41). -/
def crc32cBit (c : Nat) : Nat → Nat
  | 0 => c
  | n + 1 => crc32cBit (if c % 2 = 1 then (c / 2) ^^^ 0x82F63B78 else c / 2) n

/-- The CRC-32C of a byte list: initial value and final inversion all ones (Table 04-10). -/
def crc32c (bs : List Byte) : Nat := (bs.foldl (fun c b => crc32cBit (c ^^^ b.toNat) 8) 0xFFFFFFFF) ^^^ 0xFFFFFFFF

/-- CRC-32C from a given initial register value (R348). -/
def crc32cFrom (c : Nat) (bs : List Byte) : Nat := bs.foldl (fun c b => crc32cBit (c ^^^ b.toNat) 8) c

/-- One bit into the CRC-16: polynomial 0x1021, most significant bit first (R328). -/
def crc16Bit (c : Nat) : Nat → Nat
  | 0 => c
  | n + 1 => crc16Bit (if c ≥ 0x8000 then (2 * c % 0x10000) ^^^ 0x1021 else 2 * c) n

/-- The CRC-16 of a byte list, initial value 0xFFFF, no final inversion (R328). -/
def crc16 (bs : List Byte) : Nat := bs.foldl (fun c b => crc16Bit (c ^^^ (b.toNat * 256)) 8) 0xFFFF

/-- The bytes of 64-bit words, each from byte 0 to byte 7. -/
def wordsBytes (ws : List Nat) : List Byte := (ws.map (toBytes 8)).flatten

end Sys2Proof.Machine
end

