-- ==== Sys2Proof/Machine/BarBase.lean ====
section
/-! DEFINITION. Barrier messages and the host side's link engines: their messages, what they send downstream and what
fences or resets them (R327 to R331, R334, R337, R482). -/

namespace Sys2Proof.Machine
open Sys2Proof

/-! ## Messages (R328) -/

/-- The message types of Table 09-2 and Table 09-7. -/
def btSamples : Nat := 1
def btParam : Nat := 2
def btCmd : Nat := 3
def btSeal : Nat := 4
def btHeartbeat : Nat := 5
def btSense : Nat := 8
def btStatus : Nat := 9
def btFault : Nat := 10
def btAck : Nat := 11
def btDiag : Nat := 12
def btTwinSamples : Nat := 13
def btTwinDigest : Nat := 14
def btTwinStatus : Nat := 15

/-- A header word (Table 09-1). -/
def barHeader (type len seq argA argB crc : Nat) : Nat :=
  type % 16 * 2 ^ 60 + len % 16 * 2 ^ 56 + seq % 65536 * 2 ^ 40 + argA % 65536 * 2 ^ 24 + argB % 256 * 2 ^ 16 + crc % 65536

/-- The words of a message: its header with the CRC over the whole of it, then its payload. -/
def barMessage (type argA argB seq : Nat) (payload : List Nat) : List Nat :=
  let head := barHeader type payload.length seq argA argB 0
  barHeader type payload.length seq argA argB (crc16 (wordsBytes (head :: payload))) :: payload

/-- Fields of a received message's header. -/
def msgType (ws : List Nat) : Nat := bitsOf (ws.headD 0) 60 4
def msgLen (ws : List Nat) : Nat := bitsOf (ws.headD 0) 56 4
def msgSeq (ws : List Nat) : Nat := bitsOf (ws.headD 0) 40 16
def msgArgA (ws : List Nat) : Nat := bitsOf (ws.headD 0) 24 16
def msgArgB (ws : List Nat) : Nat := bitsOf (ws.headD 0) 16 8
def msgCrc (ws : List Nat) : Nat := bitsOf (ws.headD 0) 0 16

/-- Payload word `n` of a received message. -/
def msgW (ws : List Nat) (n : Nat) : Nat := ws.getD (n + 1) 0

/-- A received message's CRC holds (R328). -/
def msgCrcOk (ws : List Nat) : Bool :=
  msgCrc ws == crc16 (wordsBytes ((ws.headD 0 - msgCrc ws) :: ws.tail))

/-- Every bit of a word outside a mask is zero. -/
def onlyBits (w mask : Nat) : Bool := w ||| mask == mask

/-- The low `n` bits. -/
def lowMask (n : Nat) : Nat := 2 ^ n - 1

/-- A sample index modulo 2^48 (Table 09-2) lies at or after the full index `k`; and how far. -/
def sinceSample (m k : Nat) : Nat := (m + 2 ^ 48 - k % 2 ^ 48) % 2 ^ 48
def fromSample (m k : Nat) : Bool := decide (sinceSample m k < 2 ^ 47)

/-! ## The link engines -/

/-- A die's link engine. -/
def barAt (s : State) (d : Die) : BarHost :=
  match d with
  | .a => s.barA
  | .b => s.barB

/-- Replace a die's link engine. -/
def setBar (s : State) (d : Die) (b : BarHost) : State :=
  match d with
  | .a => { s with barA := b }
  | .b => { s with barB := b }

/-- Link states of BAR_STAT.LINK (R337). -/
def lkDown : Nat := 0
def lkTraining : Nat := 1
def lkUp : Nat := 2

/-- A barrier's link state. -/
def barLink (s : State) (d : Die) : Nat := rget s (Reg.BAR_STAT (dieNum d)) F.BAR_STAT_LINK

/-- Whether a barrier's link is UP. -/
def barUp (s : State) (d : Die) : Bool := diePresent s d && barLink s d == lkUp

/-- Whether a link engine is fenced. -/
def barFenced (s : State) (d : Die) : Bool := ron s (Reg.BAR_STAT (dieNum d)) F.BAR_STAT_FENCED

/-- Whether a link engine sends messages at all, and not idle blocks only (R334, R478, R484). -/
def barSends (s : State) (d : Die) : Bool :=
  diePresent s d && ron s (Reg.BAR_CTRL (dieNum d)) F.BAR_CTRL_EN && !barFenced s d && !inReset s (unitBar d) &&
    !s.collector.selfTripBusy

/-- Put a message on both lanes; answers its SEQ (R329). -/
def barEmit (s : State) (d : Die) (type argA argB : Nat) (payload : List Nat) : State × Nat :=
  if !barSends s d then (s, (barAt s d).txSeq)
  else
    let b := barAt s d
    let seq := (b.txSeq + 1) % 65536
    (sendOut (setBar s d { b with txSeq := seq }) (.barDown d (barMessage type argA argB seq payload)), seq)

/-- Send a message that the die acknowledges, and wait for its ACK (R331). -/
def barAsk (s : State) (d : Die) (type argA argB : Nat) (payload : List Nat) (use : BarUse) : State :=
  let (s, seq) := barEmit s d type argA argB payload
  let b := barAt s d
  setBar s d { b with waits := b.waits ++ [⟨seq, type, argA, argB, payload, 0, s.time.cnt, [], use⟩] }

/-- Send a CMD. -/
def barCmd (s : State) (d : Die) (code argB : Nat) (payload : List Nat) (use : BarUse) : State :=
  barAsk s d btCmd code argB payload use

/-- No reply for an address is known any more. -/
def noReply (s : State) (d : Die) (a : Nat) : State :=
  setBar s d { barAt s d with replies := mapSet (fun _ => none) (barAt s d).replies a none }

/-- Send a READ of a field-die register (R332). -/
def barRead (s : State) (d : Die) (a : Nat) (use : BarUse) : State := barCmd (noReply s d a) d 6 0 [a] use

/-- The register of supervision READ `i`: for each channel in turn PRT_CHc_STAT, PWM_CHc_STAT and DIAG_CHc_STAT (R535). -/
def watchReg (i : Nat) : Nat :=
  match i % 3 with
  | 0 => Reg.PRT_CH_STAT (i / 3)
  | 1 => Reg.PWM_CH_STAT (i / 3)
  | _ => Reg.DIAG_CH_STAT (i / 3)

/-- Send supervision READ `i`. -/
def sendWatch (s : State) (d : Die) (i : Nat) : State := barRead s d (watchReg i) (.watch i)

/-- A fenced link engine's lanes are idle (R334, Table 14-5). -/
def barFence (s : State) (d : Die) : State := rset s (Reg.BAR_STAT (dieNum d)) F.BAR_STAT_FENCED

/-- A DIAG_RUN waits for no more results. -/
def dropDiag (s : State) (ref : DescRef) : State := { s with diags := s.diags.filter (fun r => r.ref != ref) }

/-- The CMD of a DIAG_RUN goes on for nobody. -/
def disownSweep (s : State) (d : DescRef) : State :=
  forEach allDies s (fun s die =>
    let b := barAt s die
    setBar s die { b with waits := b.waits.map (fun w => if w.use = .sweep d then { w with use := .other } else w) })

/-- What waited for the ACK of a message that is given up: its descriptor completes with TIMEOUT (R440). -/
def waitLost (s : State) (w : BarWait) : State :=
  match w.use with
  | .command ref => finish s ref stTimeout 0
  | .read ref k => finish s ref stTimeout k
  | .sweep ref => finish (dropDiag s ref) ref stTimeout 0
  | _ => s

/-- BLOCK_RESET of a link engine: it starts again and the link retrains (R337). -/
def barBlockReset (s : State) (d : Die) : State :=
  rput (setBar s d { barHostReset with watch := (barAt s d).watch, sync := (barAt s d).sync }) (Reg.BAR_STAT (dieNum d)) F.BAR_STAT_LINK
    (if ron s (Reg.BAR_STAT (dieNum d)) F.BAR_STAT_UL0 ∨ ron s (Reg.BAR_STAT (dieNum d)) F.BAR_STAT_UL1 then lkTraining
     else lkDown)

end Sys2Proof.Machine
end

