-- ==== Sys2Proof/Machine/Params.lean ====
section
/-! DEFINITION. The parameter tables outside BAR0 (R206, Tables 06-6, 08-9 and 13-7): their fields, reset values,
writable bits and accessors. -/

namespace Sys2Proof

/-- A field of a parameter table: its table, the word within the entry, and its bits. -/
structure PFld where
  table : Nat
  word : Nat
  fld : Fld
  deriving DecidableEq, Repr

end Sys2Proof

namespace Sys2Proof.P
open Sys2Proof

abbrev MIX_XP_IN : PFld := ⟨0x0801, 0, ⟨0, 10⟩⟩
abbrev MIX_XP_BUS : PFld := ⟨0x0801, 0, ⟨16, 8⟩⟩
abbrev MIX_XP_EN : PFld := ⟨0x0801, 0, ⟨31, 1⟩⟩
abbrev MIX_XP_GAIN : PFld := ⟨0x0801, 1, ⟨0, 32⟩⟩
abbrev MIX_XP_RAMP : PFld := ⟨0x0801, 2, ⟨0, 16⟩⟩
abbrev MIX_XP_CUR : PFld := ⟨0x0801, 3, ⟨0, 32⟩⟩
abbrev MIX_BUS_LAW : PFld := ⟨0x0802, 0, ⟨0, 2⟩⟩
abbrev MIX_BUS_ACT_MODE : PFld := ⟨0x0802, 0, ⟨2, 1⟩⟩
abbrev MIX_BUS_LIM_EN : PFld := ⟨0x0802, 0, ⟨3, 1⟩⟩
abbrev MIX_BUS_EN : PFld := ⟨0x0802, 0, ⟨4, 1⟩⟩
abbrev MIX_BUS_ACT_HOLD : PFld := ⟨0x0802, 0, ⟨8, 8⟩⟩
abbrev MIX_BUS_OUT : PFld := ⟨0x0802, 0, ⟨16, 10⟩⟩
abbrev MIX_BUS_GAIN : PFld := ⟨0x0802, 1, ⟨0, 32⟩⟩
abbrev MIX_BUS_RAMP : PFld := ⟨0x0802, 2, ⟨0, 16⟩⟩
abbrev MIX_BUS_ACT_THR : PFld := ⟨0x0802, 3, ⟨0, 32⟩⟩
abbrev MIX_BUS_LIM_THR : PFld := ⟨0x0802, 4, ⟨0, 32⟩⟩
abbrev MIX_BUS_LIM_KNEE : PFld := ⟨0x0802, 5, ⟨0, 32⟩⟩
abbrev MIX_BUS_LIM_REL : PFld := ⟨0x0802, 6, ⟨0, 32⟩⟩
abbrev MIX_BUS_N : PFld := ⟨0x0802, 7, ⟨0, 11⟩⟩
abbrev MIX_HPF_CUT : PFld := ⟨0x0803, 0, ⟨0, 3⟩⟩
abbrev MIX_DR_EN : PFld := ⟨0x0804, 0, ⟨0, 1⟩⟩
abbrev MIX_DR_SRC : PFld := ⟨0x0804, 0, ⟨1, 1⟩⟩
abbrev MIX_DR_PORT : PFld := ⟨0x0804, 0, ⟨2, 4⟩⟩
abbrev MIX_DR_SLOT : PFld := ⟨0x0804, 0, ⟨6, 5⟩⟩
abbrev MIX_DR_FCH : PFld := ⟨0x0804, 0, ⟨12, 6⟩⟩
abbrev MIX_DR_MODE : PFld := ⟨0x0804, 0, ⟨18, 2⟩⟩
abbrev MIX_DR_ENG : PFld := ⟨0x0804, 0, ⟨20, 2⟩⟩
abbrev MIX_DR_GAIN : PFld := ⟨0x0804, 1, ⟨0, 32⟩⟩
abbrev MIX_DR_RAMP : PFld := ⟨0x0804, 2, ⟨0, 16⟩⟩
abbrev MIX_DR_XFADE : PFld := ⟨0x0804, 2, ⟨16, 12⟩⟩
abbrev MIX_DR_DUCK : PFld := ⟨0x0804, 3, ⟨0, 32⟩⟩
abbrev MIX_DR_VOX_THR : PFld := ⟨0x0804, 4, ⟨0, 32⟩⟩
abbrev MIX_DR_VOX_HOLD : PFld := ⟨0x0804, 5, ⟨0, 16⟩⟩
abbrev MIX_DR_LIM_THR : PFld := ⟨0x0804, 6, ⟨0, 32⟩⟩
abbrev MIX_DR_LIM_KNEE : PFld := ⟨0x0804, 7, ⟨0, 32⟩⟩
abbrev MIX_DR_LIM_REL : PFld := ⟨0x0804, 8, ⟨0, 32⟩⟩
abbrev MIX_DR_ENGAGED : PFld := ⟨0x0804, 9, ⟨0, 1⟩⟩
abbrev MIX_DR_SRC_OK : PFld := ⟨0x0804, 9, ⟨1, 1⟩⟩
abbrev DLY_LINE_EN : PFld := ⟨0x0901, 0, ⟨0, 1⟩⟩
abbrev DLY_LINE_BASE : PFld := ⟨0x0901, 0, ⟨6, 26⟩⟩
abbrev DLY_LINE_LEN : PFld := ⟨0x0901, 1, ⟨0, 20⟩⟩
abbrev DLY_TAP_IN : PFld := ⟨0x0902, 0, ⟨0, 10⟩⟩
abbrev DLY_TAP_OUT : PFld := ⟨0x0902, 0, ⟨16, 10⟩⟩
abbrev DLY_TAP_EN : PFld := ⟨0x0902, 0, ⟨31, 1⟩⟩
abbrev DLY_TAP_DELAY_LO : PFld := ⟨0x0902, 1, ⟨0, 32⟩⟩
abbrev DLY_TAP_DELAY_HI : PFld := ⟨0x0902, 2, ⟨0, 3⟩⟩
abbrev DLY_TAP_GLIDE : PFld := ⟨0x0902, 2, ⟨16, 16⟩⟩
abbrev DLY_TAP_XFADE : PFld := ⟨0x0902, 3, ⟨0, 12⟩⟩
abbrev STR_RX_EN : PFld := ⟨0x0D01, 0, ⟨0, 1⟩⟩
abbrev STR_RX_FMT : PFld := ⟨0x0D01, 0, ⟨1, 2⟩⟩
abbrev STR_RX_B_EN : PFld := ⟨0x0D01, 0, ⟨3, 1⟩⟩
abbrev STR_RX_PORT_A : PFld := ⟨0x0D01, 0, ⟨4, 3⟩⟩
abbrev STR_RX_PORT_B : PFld := ⟨0x0D01, 0, ⟨7, 3⟩⟩
abbrev STR_RX_NCH : PFld := ⟨0x0D01, 0, ⟨10, 6⟩⟩
abbrev STR_RX_CH_BASE : PFld := ⟨0x0D01, 0, ⟨16, 10⟩⟩
abbrev STR_RX_FIRST : PFld := ⟨0x0D01, 0, ⟨26, 6⟩⟩
abbrev STR_RX_WIDTH : PFld := ⟨0x0D01, 1, ⟨0, 2⟩⟩
abbrev STR_RX_CPF : PFld := ⟨0x0D01, 1, ⟨8, 6⟩⟩
abbrev STR_RX_VID : PFld := ⟨0x0D01, 1, ⟨16, 12⟩⟩
abbrev STR_RX_KEY0 : PFld := ⟨0x0D01, 2, ⟨0, 32⟩⟩
abbrev STR_RX_KEY1 : PFld := ⟨0x0D01, 3, ⟨0, 32⟩⟩
abbrev STR_RX_SSRC : PFld := ⟨0x0D01, 4, ⟨0, 32⟩⟩
abbrev STR_RX_OFS : PFld := ⟨0x0D01, 5, ⟨0, 16⟩⟩
abbrev STR_RX_PATH_TO : PFld := ⟨0x0D01, 5, ⟨16, 8⟩⟩
abbrev STR_RX_SSRC_CHK : PFld := ⟨0x0D01, 5, ⟨24, 1⟩⟩
abbrev STR_RX_SKEW : PFld := ⟨0x0D01, 6, ⟨0, 12⟩⟩
abbrev STR_RX_LAT : PFld := ⟨0x0D01, 6, ⟨16, 5⟩⟩
abbrev STR_RX_RTP_OFS : PFld := ⟨0x0D01, 7, ⟨0, 32⟩⟩
abbrev STR_RX_STATE : PFld := ⟨0x0D01, 8, ⟨0, 2⟩⟩
abbrev STR_RX_A_UP : PFld := ⟨0x0D01, 8, ⟨2, 1⟩⟩
abbrev STR_RX_B_UP : PFld := ⟨0x0D01, 8, ⟨3, 1⟩⟩
abbrev STR_RX_SKEW_HI : PFld := ⟨0x0D01, 8, ⟨4, 1⟩⟩
abbrev STR_RX_EPOCH_DIFF : PFld := ⟨0x0D01, 8, ⟨5, 1⟩⟩
abbrev STR_RX_SKEW_MAX : PFld := ⟨0x0D01, 8, ⟨16, 12⟩⟩
abbrev STR_RX_USED_A : PFld := ⟨0x0D01, 9, ⟨0, 32⟩⟩
abbrev STR_RX_USED_B : PFld := ⟨0x0D01, 10, ⟨0, 32⟩⟩
abbrev STR_RX_DUP : PFld := ⟨0x0D01, 11, ⟨0, 32⟩⟩
abbrev STR_RX_LOST_A : PFld := ⟨0x0D01, 12, ⟨0, 32⟩⟩
abbrev STR_RX_LOST_B : PFld := ⟨0x0D01, 13, ⟨0, 32⟩⟩
abbrev STR_RX_OOO_A : PFld := ⟨0x0D01, 14, ⟨0, 16⟩⟩
abbrev STR_RX_OOO_B : PFld := ⟨0x0D01, 14, ⟨16, 16⟩⟩
abbrev STR_RX_LATE : PFld := ⟨0x0D01, 15, ⟨0, 32⟩⟩
abbrev STR_RX_EARLY : PFld := ⟨0x0D01, 16, ⟨0, 32⟩⟩
abbrev STR_RX_FORMAT : PFld := ⟨0x0D01, 17, ⟨0, 32⟩⟩
abbrev STR_RX_GAP_SAMPLES : PFld := ⟨0x0D01, 18, ⟨0, 32⟩⟩
abbrev STR_RX_MISSED_BEADS : PFld := ⟨0x0D01, 19, ⟨0, 32⟩⟩
abbrev STR_RX_SKEW_NOW : PFld := ⟨0x0D01, 20, ⟨0, 32⟩⟩
abbrev STR_TX_EN : PFld := ⟨0x0D02, 0, ⟨0, 1⟩⟩
abbrev STR_TX_FMT : PFld := ⟨0x0D02, 0, ⟨1, 2⟩⟩
abbrev STR_TX_DUAL : PFld := ⟨0x0D02, 0, ⟨3, 1⟩⟩
abbrev STR_TX_PORT_A : PFld := ⟨0x0D02, 0, ⟨4, 3⟩⟩
abbrev STR_TX_PORT_B : PFld := ⟨0x0D02, 0, ⟨7, 3⟩⟩
abbrev STR_TX_NCH : PFld := ⟨0x0D02, 0, ⟨10, 6⟩⟩
abbrev STR_TX_CH_BASE : PFld := ⟨0x0D02, 0, ⟨16, 10⟩⟩
abbrev STR_TX_QUEUE : PFld := ⟨0x0D02, 0, ⟨26, 3⟩⟩
abbrev STR_TX_PCP : PFld := ⟨0x0D02, 0, ⟨29, 3⟩⟩
abbrev STR_TX_WIDTH : PFld := ⟨0x0D02, 1, ⟨0, 2⟩⟩
abbrev STR_TX_SPP : PFld := ⟨0x0D02, 1, ⟨2, 8⟩⟩
abbrev STR_TX_VID : PFld := ⟨0x0D02, 1, ⟨12, 12⟩⟩
abbrev STR_TX_UNTAGGED : PFld := ⟨0x0D02, 1, ⟨24, 1⟩⟩
abbrev STR_TX_KEY0 : PFld := ⟨0x0D02, 2, ⟨0, 32⟩⟩
abbrev STR_TX_KEY1 : PFld := ⟨0x0D02, 3, ⟨0, 32⟩⟩
abbrev STR_TX_DMAC_LO : PFld := ⟨0x0D02, 4, ⟨0, 32⟩⟩
abbrev STR_TX_DMAC_HI : PFld := ⟨0x0D02, 5, ⟨0, 16⟩⟩
abbrev STR_TX_SPORT : PFld := ⟨0x0D02, 5, ⟨16, 16⟩⟩
abbrev STR_TX_LAUNCH_OFS : PFld := ⟨0x0D02, 6, ⟨0, 24⟩⟩
abbrev STR_TX_PRES_OFS : PFld := ⟨0x0D02, 7, ⟨0, 32⟩⟩
abbrev STR_TX_SSRC : PFld := ⟨0x0D02, 8, ⟨0, 32⟩⟩
abbrev STR_TX_TTL : PFld := ⟨0x0D02, 9, ⟨0, 8⟩⟩
abbrev STR_TX_DSCP : PFld := ⟨0x0D02, 9, ⟨8, 6⟩⟩
abbrev STR_TX_RUNNING : PFld := ⟨0x0D02, 10, ⟨0, 1⟩⟩
abbrev STR_TX_SENT_A : PFld := ⟨0x0D02, 11, ⟨0, 32⟩⟩
abbrev STR_TX_SENT_B : PFld := ⟨0x0D02, 12, ⟨0, 32⟩⟩
abbrev STR_TX_LATE_DROP : PFld := ⟨0x0D02, 13, ⟨0, 32⟩⟩
abbrev STR_TX_FULL_DROP : PFld := ⟨0x0D02, 14, ⟨0, 32⟩⟩
abbrev STK_MAP_SRC : PFld := ⟨0x1301, 0, ⟨0, 13⟩⟩
abbrev STK_MAP_EN : PFld := ⟨0x1301, 0, ⟨31, 1⟩⟩

end Sys2Proof.P

namespace Sys2Proof.Machine
open Sys2Proof

/-- The tables: identifier, entries and words per entry (Table 06-1, R305, R465). -/
def paramTables : List (Nat × Nat × Nat) := [
  (0x0801, 16384, 4),
  (0x0802, 256, 8),
  (0x0803, 1024, 1),
  (0x0804, 64, 10),
  (0x0901, 1024, 2),
  (0x0902, 2048, 4),
  (0x0D01, 512, 24),
  (0x0D02, 512, 16),
  (0x1301, 1024, 1)]

/-- What a word of an entry holds after power-on, RST_N or CHIP_RESET, where it is not zero (R243, R323). -/
def paramResets : List ((Nat × Nat) × Nat) := [
  ((0x0802, 0), 0x1808),
  ((0x0802, 1), 0x10000000),
  ((0x0802, 3), 0x20C49C),
  ((0x0802, 4), 0x78D6FC9E),
  ((0x0802, 5), 0x558C4BD4),
  ((0x0802, 6), 0x6D3A0),
  ((0x0804, 0), 0x200000),
  ((0x0804, 1), 0x10000000),
  ((0x0804, 2), 0x600000),
  ((0x0804, 3), 0x4000000),
  ((0x0804, 4), 0x67A9B2),
  ((0x0804, 5), 0x7D0),
  ((0x0804, 6), 0x78D6FC9E),
  ((0x0804, 7), 0x558C4BD4),
  ((0x0804, 8), 0x6D3A0),
  ((0x0D01, 1), 0x10001),
  ((0x0D01, 5), 0xC0000),
  ((0x0D01, 6), 0x20FA0),
  ((0x0D02, 0), 0x78000000),
  ((0x0D02, 1), 0x101D),
  ((0x0D02, 6), 0x1388),
  ((0x0D02, 9), 0x2210)]

/-- The writable bits of a word of an entry; fields marked RO ignore writes (R206). -/
def paramMasks : List ((Nat × Nat) × Nat) := [
  ((0x0801, 0), 0x80FF03FF),
  ((0x0801, 1), 0xFFFFFFFF),
  ((0x0801, 2), 0xFFFF),
  ((0x0802, 0), 0x3FFFF1F),
  ((0x0802, 1), 0xFFFFFFFF),
  ((0x0802, 2), 0xFFFF),
  ((0x0802, 3), 0xFFFFFFFF),
  ((0x0802, 4), 0xFFFFFFFF),
  ((0x0802, 5), 0xFFFFFFFF),
  ((0x0802, 6), 0xFFFFFFFF),
  ((0x0803, 0), 0x7),
  ((0x0804, 0), 0x3FF7FF),
  ((0x0804, 1), 0xFFFFFFFF),
  ((0x0804, 2), 0xFFFFFFF),
  ((0x0804, 3), 0xFFFFFFFF),
  ((0x0804, 4), 0xFFFFFFFF),
  ((0x0804, 5), 0xFFFF),
  ((0x0804, 6), 0xFFFFFFFF),
  ((0x0804, 7), 0xFFFFFFFF),
  ((0x0804, 8), 0xFFFFFFFF),
  ((0x0901, 0), 0xFFFFFFC1),
  ((0x0901, 1), 0xFFFFF),
  ((0x0902, 0), 0x83FF03FF),
  ((0x0902, 1), 0xFFFFFFFF),
  ((0x0902, 2), 0xFFFF0007),
  ((0x0902, 3), 0xFFF),
  ((0x0D01, 0), 0xFFFFFFFF),
  ((0x0D01, 1), 0xFFF3F03),
  ((0x0D01, 2), 0xFFFFFFFF),
  ((0x0D01, 3), 0xFFFFFFFF),
  ((0x0D01, 4), 0xFFFFFFFF),
  ((0x0D01, 5), 0x1FFFFFF),
  ((0x0D01, 6), 0x1F0FFF),
  ((0x0D01, 7), 0xFFFFFFFF),
  ((0x0D02, 0), 0xFFFFFFFF),
  ((0x0D02, 1), 0x1FFF3FF),
  ((0x0D02, 2), 0xFFFFFFFF),
  ((0x0D02, 3), 0xFFFFFFFF),
  ((0x0D02, 4), 0xFFFFFFFF),
  ((0x0D02, 5), 0xFFFFFFFF),
  ((0x0D02, 6), 0xFFFFFF),
  ((0x0D02, 7), 0xFFFFFFFF),
  ((0x0D02, 8), 0xFFFFFFFF),
  ((0x0D02, 9), 0x3FFF),
  ((0x1301, 0), 0x80001FFF)]

/-- Look a word up in a list by table and word. -/
def paramLookup (l : List ((Nat × Nat) × Nat)) (t w : Nat) : Nat :=
  match l.find? (fun e => e.1 == (t, w)) with
  | none => 0
  | some e => e.2

/-- The key of a table word: tables hold at most 2^20 entries of at most 64 words. -/
def paramKey (t e w : Nat) : Nat := t * 2 ^ 26 + e * 64 + w

/-- What a table word that nothing has written holds. -/
def paramReset (k : Nat) : Word := BitVec.ofNat 32 (paramLookup paramResets (k / 2 ^ 26) (k % 64))

/-- Whether a table, an entry and a word exist. -/
def paramExists (t e w : Nat) : Bool :=
  match paramTables.find? (fun r => r.1 == t) with
  | none => false
  | some r => decide (e < r.2.1) && decide (w < r.2.2)

/-- A word of a parameter table. -/
def pword (s : State) (t e w : Nat) : Word := mapGet paramReset s.params (paramKey t e w)

/-- Store a word of a parameter table. -/
def setPword (s : State) (t e w : Nat) (v : Word) : State :=
  { s with params := mapSet paramReset s.params (paramKey t e w) v }

/-- Write the writable bits of a mask in a table word (R206, R251). -/
def writePword (s : State) (t e w : Nat) (mask data : Word) : State :=
  let m := mask &&& BitVec.ofNat 32 (paramLookup paramMasks t w)
  setPword s t e w ((pword s t e w &&& ~~~m) ||| (data &&& m))

/-- A field of entry `e`. -/
def pget (s : State) (f : PFld) (e : Nat) : Nat := fldGet f.fld (pword s f.table e f.word)

/-- A signed field of entry `e`. -/
def pgetI (s : State) (f : PFld) (e : Nat) : Int := fldGetInt f.fld (pword s f.table e f.word)

/-- Whether a one-bit field of entry `e` is set. -/
def pon (s : State) (f : PFld) (e : Nat) : Bool := pget s f e != 0

/-- Store a field of entry `e`. -/
def pput (s : State) (f : PFld) (e v : Nat) : State :=
  setPword s f.table e f.word (fldPut f.fld v (pword s f.table e f.word))

/-- Add to a counter of entry `e`: one that wraps, and one that saturates (R323). -/
def paddWrap (s : State) (f : PFld) (e n : Nat) : State := pput s f e (pget s f e + n)
def paddSat (s : State) (f : PFld) (e n : Nat) : State := pput s f e (satNat f.fld.width (pget s f e + n))

/-- The entries of a table that some write has reached, in rising order: all others hold their reset values, in which no
entry is enabled. -/
def touchedEntries (s : State) (t : Nat) : List Nat :=
  ((s.params.filter (fun p => p.1 / 2 ^ 26 == t)).map (fun p => p.1 % 2 ^ 26 / 64)).foldr
    (fun e acc => if acc.head? = some e then acc else e :: acc) []

/-- The entries of a table whose EN field is set. -/
def enabledEntries (s : State) (f : PFld) : List Nat := (touchedEntries s f.table).filter (fun e => pon s f e)

end Sys2Proof.Machine
end

