-- ==== Sys2Proof/Machine/MixBase.lean ====
section
/-! DEFINITION. Gain ramps, the limiter law, the direct routes' and delay lines' state, and what stops the bus engine, a
route and the delay engine from outside (R213, R219, R224, R235, R482). -/

namespace Sys2Proof.Machine
open Sys2Proof

/-! ## Ramps (R213, R218) -/

/-- A gain that stands still. -/
def rampAt (g : Int) : Ramp := ⟨g, g, 0, 0⟩

/-- The gain of the i-th sample of a ramp: g0 + trunc((g1 − g0) × i / R), exactly g1 from i = R on. -/
def rampValue (x : Ramp) (i : Nat) : Int := if i ≥ x.r then x.g1 else x.g0 + Int.tdiv ((x.g1 - x.g0) * i) x.r

/-- The gain applied to the last sample. -/
def rampNow (x : Ramp) : Int := rampValue x x.i

/-- Step to the next sample; its gain is `rampNow` of the result. -/
def rampStep (x : Ramp) : Ramp := { x with i := min (x.i + 1) x.r }

/-- A new target over `r` samples from the present gain. -/
def rampTo (x : Ramp) (g : Int) (r : Nat) : Ramp := ⟨rampNow x, g, 0, r⟩

/-- The gains of the next samples, and the ramp after them. -/
def rampRun (x : Ramp) : Nat → List Int × Ramp
  | 0 => ([], x)
  | n + 1 =>
    let y := rampStep x
    let (gs, z) := rampRun y n
    (rampNow y :: gs, z)

/-- A sample times a Q4.28 gain, rounded half up at 2^-31 (R211, R215). -/
def timesGain (x g : Int) : Int := (x * g + 2 ^ 27) / 2 ^ 28

/-- A word saturated to Q1.31. -/
def satWord (x : Int) : Word := BitVec.ofInt 32 (satInt 32 x)

/-! ## The limiter (R219) -/

/-- One sample through the limiter with threshold `t`, knee `k` and release `rho`: the envelope, the output and the gain
in 2^-31 (2^31 where it does not act). -/
def limiter (t k rho e : Nat) (x : Int) : Nat × Int × Nat :=
  let e := max x.natAbs (e - e * rho / 2 ^ 31)
  if e ≤ k then (e, x, 2 ^ 31)
  else
    let o : Int := (t : Int) - ((t : Int) - k) * ((t : Int) - k) / ((e : Int) - 2 * k + t)
    let g : Int := o * 2 ^ 31 / e
    (e, Int.tdiv (x * g) (2 ^ 31), g.toNat)

/-- LIM_THR as it acts (R243). -/
def limThr (v : Nat) : Nat := min v 0x7FFFFFFF

/-! ## Meters (R238 to R241) -/

/-- A meter that has measured nothing. -/
def meterReset (_ : Nat) : Meter := ⟨0, 0, 0, 0, 0, 0, 0, 0⟩

/-- Meter `i` (Table 06-4). -/
def meterAt (s : State) (i : Nat) : Meter := mapGet meterReset s.meters i

/-- Replace meter `i`. -/
def setMeter (s : State) (i : Nat) (m : Meter) : State := { s with meters := mapSet meterReset s.meters i m }

/-- k of R240. -/
def rmsShift (s : State) : Nat := rget s Reg.MIX_MCFG F.MIX_MCFG_RMS_K + 6

/-- One sample into a mean square (R240). -/
def meanStep (k ms : Nat) (x : Int) : Nat := ((ms : Int) + (x * x - ms) / 2 ^ k).toNat

/-- The largest `r` with r² ≤ n, by bits from 2^(k − 1) down. -/
def isqrtBits (n : Nat) : Nat → Nat → Nat
  | 0, r => r
  | k + 1, r => isqrtBits n k (if (r + 2 ^ k) * (r + 2 ^ k) ≤ n then r + 2 ^ k else r)

/-- floor(√n) for n below 2^128. -/
def isqrt (n : Nat) : Nat := isqrtBits n 64 0

/-- The RMS a meter reads (R240). -/
def meterRms (m : Meter) : Nat := min (isqrt (2 * m.ms)) (2 ^ 32 - 1)

/-- A meter's record (R241). -/
def meterRecord (s : State) (i : Nat) : List Byte :=
  let m := meterAt s i
  let g := if 1024 ≤ i ∧ i < 1280 then min (m.gain / 2 ^ 15) 0xFFFF else 0
  toBytes 4 m.peak ++ toBytes 4 m.hold ++ toBytes 4 (meterRms m) ++ toBytes 4 (m.overs + 65536 * g)

/-! ## Direct routes -/

/-- A route with nothing received. -/
def routeReset (_ : Nat) : RouteRun := ⟨⟨0x10000000, 0x10000000, 0, 0⟩, 0, 0, false, 0, false⟩

/-- Route `r`. -/
def routeAt (s : State) (r : Nat) : RouteRun := mapGet routeReset s.routes r

/-- Replace route `r`. -/
def setRoute (s : State) (r : Nat) (x : RouteRun) : State := { s with routes := mapSet routeReset s.routes r x }

/-- The MIX_DR_STATE register and bit of a route. -/
def engagedReg (r : Nat) : Nat := if r < 32 then Reg.MIX_DR_STATE_LO else Reg.MIX_DR_STATE_HI
def routeEngaged (s : State) (r : Nat) : Bool := ron s (engagedReg r) ⟨r % 32, 1⟩
def setEngaged (s : State) (r : Nat) (b : Bool) : State := rbit s (engagedReg r) ⟨r % 32, 1⟩ b

/-- XFADE of a route; 0 acts as 1. -/
def routeXfade (s : State) (r : Nat) : Nat := max 1 (pget s P.MIX_DR_XFADE r)

/-- The source port of a route as a port number (0 to 15 TDM, 16 to 31 biphase). -/
def routePort (s : State) (r : Nat) : Nat := pget s P.MIX_DR_PORT r + 16 * pget s P.MIX_DR_SRC r

/-- The enabled routes fed by a port. -/
def routesOf (s : State) (p : Nat) : List Nat := (enabledEntries s P.MIX_DR_EN).filter (fun r => routePort s r == p)

/-- The routes that a port leaving RUNNING disengages; each sets its bit in MIX_DR_LOST (R226). -/
def lostRoutes (s : State) (p : Nat) : List Nat := (routesOf s p).filter (routeEngaged s)

/-- Disengage a route whose source is lost. -/
def loseRoute (s : State) (r : Nat) : State :=
  rset (setEngaged s r false) (if r < 32 then Reg.MIX_DR_LOST_LO else Reg.MIX_DR_LOST_HI) ⟨r % 32, 1⟩

/-- A route is fenced: disengaged and not re-engaged (Table 14-5). -/
def routeFence (s : State) (r : Nat) : State :=
  setRoute (setEngaged s r false) r { routeAt s r with fenced := true }

/-- BLOCK_RESET of a route: disengaged, its voice hold cleared. -/
def routeBlockReset (s : State) (r : Nat) : State :=
  setRoute (setEngaged s r false) r { routeAt s r with vox := false }

/-! ## The bus engine -/

/-- The bus engine is fenced: bus beads are not written (Table 14-5). -/
def busFence (s : State) : State := rset s Reg.MIX_STAT F.MIX_STAT_FENCED

/-- A ramp ended at its target. -/
def rampEnd (x : Ramp) : Ramp := rampAt x.g1

/-- BLOCK_RESET of the bus engine: every ramp and glide ended, limiter envelopes zero (Table 14-5). -/
def busBlockReset (s : State) : State :=
  { s with
    xps := s.xps.map (fun e => (e.1, { e.2 with gain := rampEnd e.2.gain })),
    buses := s.buses.map (fun e => (e.1, { e.2 with gain := rampEnd e.2.gain, scale := rampEnd e.2.scale, env := 0 })) }

/-! ## Delay lines (R228, R235) -/

/-- The word address in DRAM of a line's sample `i`. -/
def lineWord (s : State) (c i : Nat) : Nat := 16 * pget s P.DLY_LINE_BASE c + i

/-- The length of a line. -/
def lineLen (s : State) (c : Nat) : Nat := pget s P.DLY_LINE_LEN c

/-- Clear a line to zero (R235). -/
def clearLine (s : State) (c : Nat) : State :=
  let lo := lineWord s c 0
  let hi := lo + lineLen s c
  let s := { s with dram := mapKeep (fun a => decide (a < lo) || decide (hi ≤ a)) s.dram, lines := mapErase s.lines c }
  let s := { s with poison := mapKeep (fun k => decide (k < 2 ^ 41 + lo) || decide (2 ^ 41 + hi ≤ k)) s.poison }
  rset s Reg.DLY_STAT F.DLY_STAT_LINE_RESET

/-- Clear every enabled line. -/
def clearLines (s : State) : State := forEach (enabledEntries s P.DLY_LINE_EN) s clearLine

/-- The delay engine is fenced, and unfenced with its lines cleared (R237). -/
def delayFence (s : State) : State := rset s Reg.DLY_STAT F.DLY_STAT_FENCED
def delayUnfence (s : State) : State := clearLines (rclr s Reg.DLY_STAT F.DLY_STAT_FENCED)

end Sys2Proof.Machine
end

