-- ==== Sys2Proof/Machine/CarryOps.lean ====
section
/-! DEFINITION. The carry: what one trigger latches, and the two banks (R272 to R276, R279). -/

namespace Sys2Proof.Machine
open Sys2Proof

/-- The bits of SNP_CTRL and of CAUSE for each source (Table 07-9). -/
def csReg : Nat := 0
def csTally : Nat := 1
def csFault : Nat := 2
def csCin : Nat := 3
def csMatch : Nat := 4
def csStack : Nat := 5

/-- Whether a carry source is enabled. -/
def carryEnabled (s : State) (src : Nat) : Bool := ron s Reg.SNP_CTRL ⟨src, 1⟩

/-- The bytes of stored registers. -/
def regBytes (s : State) (as : List Nat) : List Byte := (as.map (fun a => toBytes 4 (rd s a).toNat)).flatten

/-- Pad a section with zeros. -/
def padTo (n : Nat) (bs : List Byte) : List Byte := bytesAt bs 0 n

/-- Section 7: the records of the streams (R321). -/
def streamSection (s : State) : List Byte :=
  let w (t e k : Nat) : List Byte := toBytes 4 (pword s t e k).toNat
  let rxRec (r : Nat) : List Byte := w 0x0D01 r 8 ++ w 0x0D01 r 18
    ++ toBytes 2 (pget s P.STR_RX_LOST_A r) ++ toBytes 2 (pget s P.STR_RX_LOST_B r) ++ w 0x0D01 r 15
  let txRec (t : Nat) : List Byte := w 0x0D02 t 10 ++ w 0x0D02 t 11 ++ w 0x0D02 t 13 ++ w 0x0D02 t 14
  ((List.range 512).map rxRec).flatten ++ ((List.range 512).map txRec).flatten

/-- Sections 1 to 7 as they stand (Table 07-6). -/
def sectionsNow (s : State) : List (List Byte) := [
  ((List.range 1344).map (meterRecord s)).flatten,
  ((List.range 64).map (fun w => toBytes 4 (tagWord s w).toNat)).flatten,
  padTo 128 (regBytes s ([Reg.REF_STAT, Reg.REF_STEER, Reg.REF_PHERR, Reg.REF_BUILDOUT, Reg.TIME_RATE]
    ++ (List.range 22).map Reg.REF_CSTAT)),
  ((List.range 16).map (fun n => regBytes s [Reg.TDM_STAT n, Reg.TDM_FOFS n, Reg.TDM_SLIPCNT n, Reg.TDM_ERRCNT n])).flatten
    ++ ((List.range 16).map (fun n =>
      regBytes s [Reg.BPH_RX_STAT n, Reg.BPH_RX_FOFS n, Reg.BPH_RX_SLIPCNT n, Reg.BPH_RX_ERRCNT n])).flatten,
  ((List.range 64).map (fun g => regBytes s [Reg.ROD_STAT (g / 8) (g % 8), Reg.ROD_CYC_LAST (g / 8) (g % 8)])).flatten,
  padTo 64 (regBytes s [Reg.MIX_STAT, Reg.MIX_CYC, Reg.MIX_CLIPCNT, Reg.DLY_STAT, Reg.DLY_BW]),
  streamSection s]

/-- The bytes of a section without its header. -/
def sectionBytes : List Nat := [0, 21504, 256, 128, 512, 512, 64, 16384, 1024, 1024]

/-- One block in FAB_CLK cycles. -/
def blockFabCycles (s : State) : Nat := blk s * 768000000 / fsHz s

/-- The position in the block in FAB_CLK cycles, from disciplined time (log entry 21). -/
def posNow (s : State) : Nat :=
  let start : Int := (s.grid.index : Int) * (blk s : Int) * secUnits / (fsHz s : Int)
  min (((now s - start) * 768 / 65536000).toNat) (blockFabCycles s - 1)

/-- ceil(T × Fs) for a time in 2^-16 ns (R332). -/
def sampleCeil (s : State) (t : Int) : Nat := (-((-(t * (fsHz s : Int))) / secUnits)).toNat

/-- The snapshot registers read from the presented bank (R273, R282). -/
def showBank (s : State) (b : Bank) : State :=
  let s := { s with snap := { s.snap with presented := b } }
  let s := rput (rput s Reg.SNP_STAT F.SNP_STAT_CAUSE b.cause) Reg.SNP_SEQ F.SNP_SEQ_SEQ b.seq
  let s := rput (rput s Reg.SNP_T_NS F.SNP_T_NS_NS (timeNs b.time)) Reg.SNP_T_SEC_LO F.SNP_T_SEC_LO_SEC_LO (timeSec b.time)
  let s := rput s Reg.SNP_T_SEC_HI F.SNP_T_SEC_HI_SEC_HI (timeSec b.time / 2 ^ 32)
  let s := rput (rput s Reg.SNP_BLKIDX_LO F.WORD b.index) Reg.SNP_BLKIDX_HI F.WORD (b.index / 2 ^ 32)
  let s := rput (rput s Reg.SNP_EPOCH F.WORD b.epoch) Reg.SNP_POS F.SNP_POS_CYCLES b.pos
  let s := rput (rput s Reg.SNP_CNT_LO F.WORD b.cnt) Reg.SNP_CNT_HI F.WORD (b.cnt / 2 ^ 32)
  rput s Reg.SNP_STAG F.WORD b.stag

/-- Ask a field die for its section at the carry's sample index (R276, R336). -/
def askField (s : State) (d : Die) (kc : Nat) : State :=
  if barUp s d then barCmd s d 3 0 [kc % 2 ^ 48] .other else s

/-- A carry in state `s` with its causes, position and tag; it latches what `old`, the state at the end of the cycle before,
holds. `rz` raises a source. -/
def carryFrom (rz : State → Nat → Nat → Nat → State) (old s : State) (cause pos stag : Nat) : State :=
  let seq := (s.snap.seq + 1) % 2 ^ 32
  let kc := sampleCeil old (now old)
  let b : Bank := ⟨seq, cause, now old, old.time.cnt, old.grid.index, pos, rget old Reg.SYS_EPOCH F.SYS_EPOCH_EPOCH, stag,
    sectionsNow old, kc, [], !diePresent s .a, !diePresent s .b⟩
  let s := rset { s with snap := { s.snap with seq := seq, valid := true } } Reg.SNP_STAT F.SNP_STAT_SNAP_VALID
  let s :=
    if ron s Reg.SNP_HOLD F.SNP_HOLD_HOLD then
      let again := s.snap.latest.isSome
      let s := { s with snap := { s.snap with latest := some b } }
      if again then
        rz (radd (rset s Reg.SNP_STAT F.SNP_STAT_OVERWRITTEN) Reg.SNP_OVR_CNT F.SNP_OVR_CNT_COUNT 1) 0x2C0 0x3FF 0
      else s
    else showBank s b
  let s := forEach (allDies.filter (diePresent s)) s (fun s d => askField s d kc)
  if ron s Reg.SNP_CTRL F.SNP_CTRL_COUT_EN then
    sendOut { s with snap := { s.snap with coutHigh := true, coutAt := s.time.cnt } } (.carryOut true)
  else s

/-- A carry of the state as it stands. -/
def carryWith (rz : State → Nat → Nat → Nat → State) (s : State) (cause pos stag : Nat) : State :=
  carryFrom rz s s cause pos stag

/-- An enabled source fires now; a disabled one makes no carry. In a boundary cycle it joins the cycle's one carry (R272). -/
def fireWith (rz : State → Nat → Nat → Nat → State) (s : State) (src stag : Nat) : State :=
  if !carryEnabled s src then s
  else match s.snap.fired with
  | none => carryWith rz s (2 ^ src) (posNow s) stag
  | some m => { s with snap := { s.snap with fired := some (m ||| 2 ^ src) } }

/-- A boundary cycle begins with the causes `m` that fire in it by their time: the sources that fire in it make one carry
(R272). -/
def openCycle (s : State) (m : Nat) : State := { s with snap := { s.snap with fired := some m } }

/-- The boundary cycle has ended: the carry of the sources that fired in it holds the state before it, at the last position
of the block that ended (Table 07-5, R282). -/
def closeCycle (rz : State → Nat → Nat → Nat → State) (old s : State) (stag : Nat) : State :=
  let cause := s.snap.fired.getD 0
  let s := { s with snap := { s.snap with fired := none } }
  if cause = 0 then s else carryFrom rz old s cause (blockFabCycles old - 1) stag

end Sys2Proof.Machine
end

