-- ==== Sys2Proof/Machine/MgtBase.lean ====
section
/-! DEFINITION. The management port's attention causes and its block reset (R529, R536). -/

namespace Sys2Proof.Machine
open Sys2Proof

/-- The clock of the brass island, which runs without XO_IN too: the cycles counted as operating time (R492). -/
def recorderNow (s : State) : Nat := 1536000 * s.recorder.optime + s.recorder.optTicks

/-- The causes that make requests and are set. -/
def mgtEnabled (s : State) : Nat := rget s Reg.MGT_ATTN F.MGT_ATTN_CAUSE &&& rget s Reg.MGT_ATTN_CFG F.MGT_ATTN_CFG_EN

/-- A request becomes pending; during a pulse, after it (R536, R537). -/
def mgtRequest (s : State) : State :=
  if s.mgt.pulse.isSome then { s with mgt := { s.mgt with again := true } } else rset s Reg.MGT_ATTN F.MGT_ATTN_PENDING

/-- Set a CAUSE bit; one that was clear and is enabled makes a request (R536). -/
def mgtCause (s : State) (i : Nat) : State :=
  let c := rget s Reg.MGT_ATTN F.MGT_ATTN_CAUSE
  if bitOf c i then s
  else
    let s := if mgtEnabled s = 0 then { s with mgt := { s.mgt with repeatAt := recorderNow s } } else s
    let s := rput s Reg.MGT_ATTN F.MGT_ATTN_CAUSE (c + 2 ^ i)
    if bitOf (rget s Reg.MGT_ATTN_CFG F.MGT_ATTN_CFG_EN) i then mgtRequest s else s

/-- SDA is released where an attention pulse holds it low: both lines are high from here (R528, R537). -/
def releaseSda (s : State) : State :=
  if s.mgt.pulse.isSome then sendOut { s with mgt := { s.mgt with pulse := none, idleAt := some (recorderNow s) } } (.mgtSda false) else s

/-- BLOCK_RESET of the port: the transfer ends, SDA is released, the pointer is 0 and no request is pending (R529). -/
def mgtBlockReset (s : State) : State :=
  let s := releaseSda s
  let s := { s with mgt := { s.mgt with pointer := 0, latch := [], transfer := .idle, pulse := none, again := false } }
  rclr (rclr (rclr s Reg.MGT_ATTN F.MGT_ATTN_PENDING) Reg.MGT_STAT F.MGT_STAT_BUSY) Reg.MGT_STAT F.MGT_STAT_RX_BUSY

end Sys2Proof.Machine
end

