-- ==== Sys2Proof/Machine/Recorder.lean ====
section
/-! DEFINITION. The event recorder's front end (R487 to R496) and the latching of a raised source with every reaction
that needs no owning unit (R474 to R481). -/

namespace Sys2Proof.Machine
open Sys2Proof

/-! ## Records -/

/-- The RATE and BURST of an event code (R493): the lowest matching override, else its group's entry; 0 acts as 1. -/
def rateLimit (s : State) (code : Nat) : Nat × Nat :=
  let hit := (List.range 64).find? (fun i =>
    code != 0 && rget s (Reg.EVR_RL_OVR i) F.EVR_RL_OVR_CODE == code)
  let rb := match hit with
    | some i => (rget s (Reg.EVR_RL_OVR i) F.EVR_RL_OVR_RATE, rget s (Reg.EVR_RL_OVR i) F.EVR_RL_OVR_BURST)
    | none => (rget s (Reg.EVR_RL_GRP (code / 256 % 64)) F.EVR_RL_GRP_RATE,
        rget s (Reg.EVR_RL_GRP (code / 256 % 64)) F.EVR_RL_GRP_BURST)
  (max rb.1 1, max rb.2 1)

/-- Every bucket is full at power-on, when each RATE is 60 and each BURST 16 (R493, R501). -/
def bucketFull (_ : Nat) : Bucket := ⟨16, 0, 60, 16, 0, 0⟩

/-- A code's bucket. -/
def bucketOf (s : State) (code : Nat) : Bucket := mapGet bucketFull s.recorder.buckets code

/-- Replace a code's bucket. -/
def setBucket (s : State) (code : Nat) (b : Bucket) : State :=
  { s with recorder := { s.recorder with buckets := mapSet bucketFull s.recorder.buckets code b } }

/-- A bucket with the tokens due by `now` added: one every 60 / RATE s since it last fell below BURST (R493). -/
def refilled (b : Bucket) (now : Nat) : Bucket :=
  if b.burst ≤ b.tokens then b
  else
    let due := (now - b.since) * b.rate / (60 * 393216000) - b.added
    { b with tokens := min b.burst (b.tokens + due), added := b.added + due }

/-- The bucket as a record finds it: due tokens are added first, and a changed RATE or BURST takes effect, with the tokens
held limited to the new BURST and the time to the next counted from here (R493; log entry 115). -/
def bucketAt (b : Bucket) (limit : Nat × Nat) (now : Nat) : Bucket :=
  let b := refilled b now
  let tokens := min b.tokens limit.2
  if limit = (b.rate, b.burst) ∧ tokens < b.burst then b
  else { b with tokens := tokens, rate := limit.1, burst := limit.2, since := now, added := 0 }

/-- The SUPP value of a suppressed count (R493): exact to 15; 16 to 31 name its power of two. -/
def suppCode (n : Nat) : Nat := if n ≤ 15 then n else min 31 (Nat.log2 n + 12)

/-- The codes exempt from rate limits (R491). -/
def exemptCode (code : Nat) : Bool := (0x1840 ≤ code && code ≤ 0x1843) || code == 0x1810

/-- The records the retention buffer holds (R494). -/
def bufferSize : Nat := 16384

/-- The records the log holds (R496). -/
def logSize : Nat := 262144

/-- How many of the buffer's records have a number (R494, R499). -/
def numbered (s : State) : Nat :=
  rget s Reg.EVR_COUNT F.EVR_COUNT_RECORDS - rget s Reg.EVR_COMMITTED F.EVR_COMMITTED_RECORDS

/-- Report a backlog of more than 64 waiting records (R494). -/
def setBacklog (s : State) : State :=
  rbit s Reg.EVR_STAT F.EVR_STAT_BACKLOG (decide (s.recorder.buffer.length > 64))

/-- Count records lost to a full log (R496). -/
def dropFull (s : State) (n : Nat) : State := radd s Reg.EVR_DROPPED F.EVR_DROPPED_COUNT n

/-- Put an accepted record into the retention buffer and number it (R494, R496, R499). The answer says whether the
buffer was full, so that the caller raises 0x604. -/
def enterBuffer (s : State) (r : EvRec) : State × Bool :=
  if ron s Reg.EVR_STAT F.EVR_STAT_LOG_FULL then (dropFull s 1, false)
  else if s.recorder.buffer.length ≥ bufferSize then
    (rset (radd s Reg.EVR_BUF_DROP F.EVR_BUF_DROP_COUNT 1) Reg.EVR_STAT F.EVR_STAT_BUF_OVF, true)
  else
    let s := { s with recorder := { s.recorder with buffer := s.recorder.buffer ++ [r] } }
    let c := rget s Reg.EVR_COUNT F.EVR_COUNT_RECORDS
    let s := if ron s Reg.EVR_STAT F.EVR_STAT_CLEAR_BUSY || decide (c ≥ logSize) then s
      else rput s Reg.EVR_COUNT F.EVR_COUNT_RECORDS (c + 1)
    (setBacklog s, false)

/-- Offer a record to the recorder (R493): it takes a token and enters the buffer, or is suppressed. -/
def offer (s : State) (code inst : Nat) (forced : Bool) (datum : Nat) : State × Bool :=
  let b := bucketAt (bucketOf s code) (rateLimit s code) (recorderNow s)
  let rec0 : EvRec := ⟨code, inst % 1024, forced, 0, s.recorder.optime, s.recorder.pcc, datum % 2 ^ 32⟩
  if exemptCode code then enterBuffer s rec0
  else if b.tokens = 0 then
    (radd (setBucket s code { b with suppressed := b.suppressed + 1 }) Reg.EVR_SUPP_TOTAL F.EVR_SUPP_TOTAL_COUNT 1, false)
  else enterBuffer (setBucket s code { b with tokens := b.tokens - 1, suppressed := 0 }) { rec0 with supp := suppCode b.suppressed }

/-- The 16 bytes of a record (Table 14-7). -/
def recBytes (r : EvRec) : List Byte :=
  toBytes 2 r.code ++ toBytes 2 (r.inst + 1024 * b2n r.forced + 2048 * r.supp) ++ toBytes 4 (r.optime / 256)
    ++ toBytes 1 (r.optime % 256) ++ toBytes 3 r.pcc ++ toBytes 4 r.datum

/-! ## Sources (R474) -/

/-- Whether index `i` of group `g` is defined by the table that Table 14-1 names. -/
def indexExists (g i : Nat) : Bool :=
  match g with
  | 0x01 | 0x03 | 0x0B | 0x16 => decide (i ≤ 3)
  | 0x02 => decide (i ≤ 0x15) || (decide (0x18 ≤ i) && decide (i ≤ 0x1C))
  | 0x04 => decide (i ≤ 4) || (decide (8 ≤ i) && decide (i ≤ 15))
  | 0x05 | 0x07 => decide (i < 64)
  | 0x06 => decide (i ≤ 0x31)
  | 0x08 => decide (i ≤ 2) || i == 0x20 || i == 0x21
  | 0x09 => decide (i ≤ 2)
  | 0x0A => decide (i ≤ 5)
  | 0x0C => decide (i < 64) && decide (i % 8 ≤ 5)
  | 0x0D | 0x12 => decide (i ≤ 6)
  | 0x0E | 0x0F => decide (i ≤ 0x0B)
  | 0x10 | 0x11 => i ∈ [0, 1, 3, 4, 5, 6] || (decide (8 ≤ i) && decide (i ≤ 15)) ||
      (decide (0x20 ≤ i) && decide (i ≤ 0x25)) || (decide (0x30 ≤ i) && decide (i ≤ 0x3F))
  | 0x13 => decide (i ≤ 0x0D)
  | 0x14 => decide (i ≤ 0x18) || (decide (0x20 ≤ i) && decide (i ≤ 0x30))
  | 0x15 => decide (i ≤ 7)
  | 0x17 => decide (i ≤ 9)
  | 0x18 => decide (i ≤ 6) || i == 0x10
  | _ => false

/-- Whether a source exists on this device (R474, R3). -/
def sourceExists (s : State) (id : Nat) : Bool :=
  let g := id / 64
  indexExists g (id % 64) &&
    (if g = 0x0E ∨ g = 0x10 then diePresent s .a else if g = 0x0F ∨ g = 0x11 then diePresent s .b else true)

/-- The source whose mask is fixed (Table 14-4). -/
def fixedSource : Nat := 0x610

/-- Reaction mask bits (Table 14-3). -/
def mInt : Nat := 1
def mNmi : Nat := 2
def mFence : Nat := 4
def mBlockReset : Nat := 8
def mChipReset : Nat := 16
def mFaultN : Nat := 32

/-- The mask of a source after power-on (R479, Table 14-4). -/
def maskReset (id : Nat) : Nat :=
  if id = 0x040 ∨ (0x5C4 ≤ id ∧ id ≤ 0x5C7) then mInt + mFaultN + mChipReset
  else if id = 0x041 ∨ (0x404 ≤ id ∧ id ≤ 0x406) ∨ (0x444 ≤ id ∧ id ≤ 0x446) ∨ id = 0x600 ∨ id = 0x601 then
    mInt + mFaultN
  else if 0x500 ≤ id ∧ id ≤ 0x518 then mInt + mNmi
  else if id = fixedSource then 0 else mInt

/-- The reaction mask of a source. -/
def maskOf (s : State) (id : Nat) : Nat := mapGet maskReset s.collector.masks id

/-- The STATUS register of a source and its bit. -/
def statusReg (id : Nat) : Nat :=
  if id % 64 < 32 then Reg.FLT_STAT_LO (id / 64 % 64) else Reg.FLT_STAT_HI (id / 64 % 64)

/-- The STATUS bit of a source. -/
def statusFld (id : Nat) : Fld := ⟨id % 32, 1⟩

/-- Whether a source's STATUS is 1. -/
def statusOf (s : State) (id : Nat) : Bool := ron s (statusReg id) (statusFld id)

/-- Whether any source of a group has STATUS 1. -/
def groupActive (s : State) (g : Nat) : Bool :=
  rd s (Reg.FLT_STAT_LO g) != 0 || rd s (Reg.FLT_STAT_HI g) != 0

/-- The datum of a fault-source record where Table 14-9 takes it from a register; `d` otherwise. -/
def faultDatum (s : State) (id inst d : Nat) : Nat :=
  let index := (rd s Reg.SYS_BLKIDX_LO).toNat
  match id / 64 with
  | 0x01 => (rd s Reg.CLK_STAT).toNat
  | 0x02 => if id ≤ 0x095 then (rd s (Reg.REF_CSTAT inst)).toNat else (rd s Reg.REF_STAT).toNat
  | 0x04 | 0x05 | 0x06 | 0x08 | 0x09 | 0x0D | 0x13 => index
  | 0x07 => (rd s (Reg.ROD_CAUSE (inst / 8) (inst % 8))).toNat
  | 0x0B => (rd s Reg.SNP_SEQ).toNat
  | 0x12 => (rd s Reg.HIF_ERR_ADDR_LO).toNat
  | _ => d

/-- FAULT_N is driven low while a latch is set, SELF_TRIP is 1 or its least low time runs (R481), and from power-on to
the end of step 1 of the ROM (R560). -/
def faultNLow (s : State) : Bool :=
  s.boot.coming || s.collector.faultNHold.isSome || !s.collector.latches.isEmpty || ron s Reg.FLT_STAT F.FLT_STAT_SELF_TRIP

/-- FLT_STAT.ACTIVE and FAULT_N_LOW follow the latches. -/
def refreshFaultN (s : State) : State :=
  let s := rbit s Reg.FLT_STAT F.FLT_STAT_ACTIVE ((List.range 64).any (groupActive s))
  rbit s Reg.FLT_STAT F.FLT_STAT_FAULT_N_LOW (faultNLow s)

/-- Drive FAULT_N low; if it was high, its least low time starts and the management port's cause FAULT is set (R481,
R536). -/
def driveFaultN (s : State) : State :=
  let low := faultNLow s
  if low then s else mgtCause { s with collector := { s.collector with faultNHold := some (recorderNow s) } } 1

/-- The signal of a fault INT: one message on HIF_MISC_VEC, held where PCIe is down or the vector masked (R478). -/
def faultInt (s : State) : State :=
  let v := rget s Reg.HIF_MISC_VEC F.HIF_MISC_VEC_VECTOR
  if s.pcieUp && !ron s (Reg.MSIX_VCTRL v) F.MSIX_VCTRL_MASK then msixSignal s v
  else
    let s := { s with collector := { s.collector with intHeld := true } }
    if s.perstLow then s else msixSignal s v

/-- Store a record, and if the buffer is full the record of 0x604's raise too, which may be dropped (R494). -/
def latchPlain (s : State) (id : Nat) (forced : Bool) : State :=
  let first := !statusOf s id
  let s := rset s (statusReg id) (statusFld id)
  let s := radd s (Reg.FLT_CNT (id / 64 % 64)) F.FLT_CNT_COUNT 1
  let s := if ron s Reg.FLT_FIRST F.FLT_FIRST_VALID then s
    else rset (rput s Reg.FLT_FIRST F.FLT_FIRST_ID id) Reg.FLT_FIRST F.FLT_FIRST_VALID
  let s := rset (rbit (rput s Reg.FLT_LAST F.FLT_LAST_ID id) Reg.FLT_LAST F.FLT_LAST_FORCED forced)
    Reg.FLT_LAST F.FLT_LAST_VALID
  if s.collector.selfTripBusy then s
  else
    let m := maskOf s id
    let s := if bitOf m 0 && first then faultInt s else s
    let s := if bitOf m 4 && s.collector.chipReset.isNone then
      { s with collector := { s.collector with chipReset := some id } } else s
    if bitOf m 5 then
      let s := driveFaultN s
      { s with collector := { s.collector with latches := mapSet (fun _ => false) s.collector.latches id true } }
    else s

/-- Store the record of an event; a full buffer raises SUP source 0x604, whose own record, and the context record of its
NMI reaction, may be dropped (R494). -/
def storeEvent (s : State) (code inst : Nat) (forced : Bool) (datum : Nat) : State :=
  let (s, full) := offer s code inst forced datum
  if full then
    let nmi := bitOf (maskOf s 0x604) 1 && !s.collector.selfTripBusy
    let s := (offer (refreshFaultN (latchPlain s 0x604 false)) 0x1804 0x3FF false 0).1
    if nmi then (offer s 0x1884 0x3FF false (s.time.cnt % 2 ^ 32)).1 else s
  else s

/-- Keep a raise or an event of a cycle that is gathered until its end. -/
def hold (s : State) (e : HeldEvent) : State :=
  { s with collector := { s.collector with held := s.collector.held.map (fun l => l ++ [e]) } }

/-- Of two raises or events of one cycle, the first goes after the second: sources go in ascending ID, each in the order it
came, and other events after them (R476, R494). -/
def beforeHeld (e x : HeldEvent) : Bool := decide (x.source.getD 2048 < e.source.getD 2048)

/-- Record an event; one of a boundary's cycle follows the cycle's raises (R494). -/
def recordEvent (s : State) (code inst : Nat) (forced : Bool) (datum : Nat) : State :=
  match s.collector.held with
  | none => storeEvent s code inst forced datum
  | some _ => hold s ⟨none, code, inst, datum⟩

/-- Start the self-protection path (R484, Table 14-6): FAULT_N low, SELF_TRIP and 0x610 set, its record stored, every
mask bypassed, FORCE_SAFE sent on both lanes of every barrier, CHIP_RESET one millisecond later. `forced`: FLT_FORCE brought
it about (R486). -/
def selfTrip (s : State) (forced : Bool) : State :=
  if s.collector.selfTripBusy then s
  else
    let s := { s with collector := { s.collector with selfTripBusy := true } }
    let s := rset (driveFaultN s) Reg.FLT_STAT F.FLT_STAT_SELF_TRIP
    let s := latchPlain s fixedSource forced
    let s := storeEvent s 0x1810 0x3FF forced 0
    refreshFaultN ((allDies.filter (diePresent s)).foldl (fun s d => sendOut s (.forceSafe d)) s)

/-- The words of the configuration as the keys of `flips`. -/
def ctrlKey : Nat := 0
def thermKey : Nat := 1
def maskKey (id : Nat) : Nat := 16 + id

/-- The bits of a word in which its second copy does not match it. -/
def flipsAt (s : State) (k : Nat) : Nat := mapGet (fun _ => 0) s.collector.flips k

/-- Set the bits in which a word's second copy does not match. -/
def setFlips (s : State) (k v : Nat) : State :=
  { s with collector := { s.collector with flips := mapSet (fun _ => 0) s.collector.flips k v } }

/-- A word of the configuration is compared with its second copy as it is used (R484). -/
def compareWord (s : State) (k : Nat) : State := if flipsAt s k = 0 then s else selfTrip s false

/-- FLT_CTRL is compared with its second copy at every use (R484). -/
def compareCtrl (s : State) : State := compareWord s ctrlKey

/-- The background scan compares every word (R484). -/
def compareAll (s : State) : State := if s.collector.flips.isEmpty then s else selfTrip s false

/-- Latch a raise (R476) with every reaction but FENCE and BLOCK_RESET, which the owning unit's file adds: STATUS, the
counters, FIRST and LAST, its record, an NMI context record, INT, CHIP_RESET and FAULT_N; HIF_STAT.DMA_ERR at 0x482 and
0x486 (Table 12-14). A source that does not exist
cannot be raised (R474). -/
def latch (s : State) (id inst datum : Nat) (forced : Bool) : State :=
  if !sourceExists s id then s
  else
    let code := id / 64 * 256 + id % 64
    let m := if s.collector.selfTripBusy then 0 else maskOf s id
    let s := latchPlain s id forced
    let s := if id = 0x482 ∨ id = 0x486 then rset s Reg.HIF_STAT F.HIF_STAT_DMA_ERR else s
    let s := storeEvent s code inst forced datum
    let s := if bitOf m 1 then storeEvent s (code + 0x80) inst forced (s.time.cnt % 2 ^ 32) else s
    refreshFaultN (if bitOf m 5 then compareCtrl s else s)

end Sys2Proof.Machine
end

