-- ==== Sys2Proof/Machine/Descriptors.lean ====
section
/-! DEFINITION. What every descriptor shares: its header and parameter layout (R428, R437, Tables 12-5 and 12-7), its
acceptance in submission order and in turns across queue pairs (R433 to R435), and its queue pair's state. -/

namespace Sys2Proof.Machine
open Sys2Proof

/-- Queue-pair states as HIF_QPn_STAT.STATE reads them (Table 12-14). -/
def qpDisabled : Nat := 0
def qpRunning : Nat := 1
def qpDraining : Nat := 2
def qpRecovering : Nat := 3
def qpError : Nat := 4

/-- The state of a queue pair. -/
def qpStateOf (s : State) (n : Nat) : Nat := rget s (Reg.HIF_QP_STAT n) F.HIF_QP_STAT_STATE

/-- The opcodes of Table 12-9. -/
def opcodes : List Nat :=
  [0x01, 0x02, 0x10, 0x11, 0x12, 0x13, 0x18, 0x20, 0x28, 0x29, 0x30, 0x31, 0x32, 0x38, 0x40, 0x48, 0x49, 0x50, 0x58,
   0x60, 0x61, 0x68]

/-- A parameter of a descriptor: bytes `pos` on, bits `lo` on, `w` bits (Table 12-7). -/
def par (bs : List Byte) (pos lo w : Nat) : Nat := bitsOf (leAt bs pos 8) lo w

/-- The bits a descriptor's parameters may use, as (first bit, width) pairs from its start (R437, Table 12-7). -/
def usedBits (op : Nat) (bs : List Byte) : List (Nat × Nat) :=
  match op with
  | 0x10 | 0x13 => [(64, 4)]
  | 0x11 => [(64, 4), (96, 32), (128, 64)]
  | 0x12 =>
    [(64, 9)]
      ++ (match par bs 8 4 2 with | 0 => [(128, 64)] | 1 => [(128, 48), (192, 30)] | _ => [])
      ++ (if par bs 8 6 1 = 1 then [(224, 32), (256, 8)] else [])
  | 0x18 => [(64, 4), (128, 64), (192, 32), (256, 64)]
  | 0x20 => [(64, 32), (128, 64)]
  | 0x28 => [(64, 6), (96, 10), (128, 320)]
  | 0x29 => [(64, 10), (96, if par bs 8 0 10 < 512 then 24 else 16), (128, 64)]
  | 0x30 =>
    [(64, 2)] ++ (if par bs 8 0 2 = 0 then [] else [(128, 48), (192, 30)])
      ++ (if par bs 8 0 2 = 2 then [(224, 32)] else [])
  | 0x31 => [(64, 10), (128, 64), (192, 32)]
  | 0x32 => [(64, 11), (96, 11), (128, 64)]
  | 0x38 => [(64, 1), (96, 32), (128, 16), (192, 64)]
  | 0x40 => [(64, 32), (96, 32), (128, 64)]
  | 0x48 =>
    [(64, 11), (96, 32), (128, 64)] ++ (if par bs 8 6 1 = 1 then [(192, 48), (256, 30)] else [])
      ++ (if par bs 8 10 1 = 1 then [(288, 8), (304, 16)] else []) ++ (if par bs 8 7 1 = 1 then [(320, 64)] else [])
  | 0x49 => [(64, 32), (128, 64)]
  | 0x50 => [(64, 2), (256, 16)] ++ (if par bs 8 0 1 = 1 then [(128, 48), (192, 30)] else [(128, 64)])
  | 0x58 => [(64, 32), (128, 64), (192, 32), (224, 1)]
  | 0x60 => [(64, 32), (96, 32), (128, 64), (192, 32)]
  | 0x61 => [(64, 32)]
  | 0x68 => [(64, 1), (80, 16), (96, 4)] ++ (if par bs 12 0 4 = 1 then [(128, 64)] else [])
  | _ => []

/-- Every bit outside the header and the used parameters is zero (R437, R441). -/
def reservedClear (op : Nat) (bs : List Byte) : Bool :=
  let v := leAt bs 0 64
  let mask := ((0, 9) :: (32, 32) :: usedBits op bs).foldl (fun m f => m ||| ((2 ^ f.2 - 1) <<< f.1)) 0
  v &&& mask == v

/-- The ranges and alignments that Table 12-7 gives a descriptor's fields. -/
def paramsInRange (op : Nat) (bs : List Byte) : Bool :=
  match op with
  | 0x11 => decide (1 ≤ leAt bs 12 4 ∧ leAt bs 12 4 ≤ 65536 ∧ leAt bs 16 8 % 16 = 0)
  | 0x12 => decide (par bs 8 4 2 ≤ 2)
  | 0x18 =>
    let kind := par bs 8 0 4
    let n := leAt bs 24 4
    decide ((kind = 1 ∧ 1 ≤ n ∧ n ≤ 4096) ∨ (kind = 3 ∧ 1 ≤ n ∧ n ≤ 16)) && decide (leAt bs 32 8 % 4 = 0) &&
      decide (par bs 16 60 4 = kind)
  | 0x20 => decide (leAt bs 16 8 % 8 = 0)
  | 0x29 => decide (leAt bs 16 8 % 4 = 0)
  | 0x30 => decide (par bs 8 0 2 ≤ 2)
  | 0x31 => decide (leAt bs 16 8 % 64 = 0)
  | 0x32 => decide (par bs 8 0 11 ≤ par bs 12 0 11 ∧ par bs 12 0 11 ≤ 1343 ∧ leAt bs 16 8 % 16 = 0)
  | 0x38 => decide (leAt bs 24 8 % 8 = 0)
  | 0x40 => decide (leAt bs 8 4 ≤ 262143 ∧ 1 ≤ leAt bs 12 4 ∧ leAt bs 12 4 ≤ 4096 ∧ leAt bs 16 8 % 16 = 0)
  | 0x48 => decide (par bs 8 7 1 = 0 ∨ leAt bs 40 8 % 16 = 0)
  | 0x49 => decide (64 ≤ leAt bs 8 4 ∧ leAt bs 8 4 ≤ 16384 ∧ leAt bs 8 4 % 64 = 0 ∧ leAt bs 16 8 % 64 = 0)
  | 0x58 => decide (1 ≤ leAt bs 8 4 ∧ leAt bs 8 4 ≤ 4190208 ∧ leAt bs 16 8 % 8 = 0)
  | 0x60 => decide (leAt bs 8 4 % 4096 = 0 ∧ 1 ≤ leAt bs 12 4 ∧ leAt bs 12 4 ≤ 65536)
  | 0x68 => decide (par bs 12 0 4 ≤ 1)
  | _ => true

/-- The opcode of a fetched descriptor. -/
def opcodeOf (f : Flight) : Nat := leAt f.bytes 0 1

/-- The depths of a queue pair's rings. -/
def sqDepth (s : State) (n : Nat) : Nat := 2 ^ rget s (Reg.HIF_QP_CFG n) F.HIF_QP_CFG_SQ_LOG2
def cqDepth (s : State) (n : Nat) : Nat := 2 ^ rget s (Reg.HIF_QP_CFG n) F.HIF_QP_CFG_CQ_LOG2

/-- A queue pair may fetch its next slot (R432, R436; Table 12-13). -/
def mayFetch (s : State) (n : Nat) : Bool :=
  let q := qpAt s n
  mayDma s && !s.pageBad && qpStateOf s n != qpDisabled && decide (q.fetch ≠ q.tail) &&
    decide (q.flights.length + q.unread < cqDepth s n) && q.flights.all (fun f => f.slot != q.fetch)

/-- A descriptor in flight waits to be accepted. -/
def flightWaits (f : Flight) : Bool := !f.accepted && f.result.isNone

/-- FENCE holds nothing back: no FENCE among the earlier descriptors of the queue pair runs, and a FENCE itself waits until
every earlier one has completed (R435). -/
def fenceAllows (before : List Flight) (f : Flight) : Bool :=
  before.all (fun g => opcodeOf g != 0x02 || g.result.isSome) && (opcodeOf f != 0x02 || before.all (fun g => g.result.isSome))

/-- A queue pair's next descriptor can be accepted as far as its own ring goes: it waits in flight and FENCE lets it
(R435), or it is still to be fetched and may be (R432, R436). -/
def canTurn (s : State) (n : Nat) : Bool :=
  let fs := (qpAt s n).flights
  match fs.find? flightWaits with
  | some f => fenceAllows (fs.takeWhile (fun g => !flightWaits g)) f
  | none => mayFetch s n

/-- A queue pair's next descriptor was found by doorbell read `read`. -/
def dueOf (s : State) (read n : Nat) : Bool := (qpAt s n).due.head? == some read

/-- The queue pairs that come before `n` when the turns stand at `next`: the rest of this turn, and where `n` has had its
turn already, the next turn up to it. -/
def turnsBefore (next n : Nat) : List Nat :=
  (List.range 64).filter (fun m => if next ≤ n then decide (next ≤ m ∧ m < n) else decide (next ≤ m ∨ m < n))

/-- It is a queue pair's turn (R434): no queue pair has a descriptor of an earlier doorbell read left, and every queue pair
that comes before it in the turns of this read has none left or cannot accept one now. -/
def myTurn (s : State) (n : Nat) : Bool :=
  match (qpAt s n).due.head? with
  | none => false
  | some read =>
    (List.range 64).all (fun m => match (qpAt s m).due.head? with | none => true | some x => decide (read ≤ x)) &&
      (turnsBefore (if s.turns.read = read then s.turns.next else 0) n).all (fun m => !dueOf s read m || !canTurn s m)

/-- Whether a descriptor in flight may be accepted now: earlier ones of its queue pair are accepted, FENCE lets it, and it
is its queue pair's turn (R433, R434, R435). -/
def acceptable (s : State) (d : DescRef) (op : Nat) : Bool :=
  match flightAt s d with
  | none => false
  | some f =>
    let before := (qpAt s d.qp).flights.takeWhile (fun g => g.slot != d.slot.val)
    flightWaits f && opcodeOf f == op && before.all (fun g => g.accepted || g.result.isSome) && fenceAllows before f &&
      myTurn s d.qp

/-- A queue pair's next descriptor is due no more. -/
def noLongerDue (q : QpState) : QpState := { q with due := q.due.drop 1 }

/-- The descriptor that is fetched next is due no more: it lies behind those that wait in flight (R434). -/
def fetchedNotDue (q : QpState) : QpState := { q with due := q.due.eraseIdx (q.flights.filter flightWaits).length }

/-- A queue pair has had its turn (R434). -/
def takeTurn (s : State) (n : Nat) : State :=
  match (qpAt s n).due.head? with
  | none => s
  | some read => setQp { s with turns := { s.turns with read := read, next := n + 1 } } n (noLongerDue (qpAt s n))

/-- Mark a descriptor accepted; its queue pair has had its turn. -/
def markAccepted (s : State) (d : DescRef) : State :=
  let s := takeTurn s d.qp
  let q := qpAt s d.qp
  setQp s d.qp { q with flights := q.flights.map (fun f => if f.slot = d.slot.val then { f with accepted := true } else f) }

/-- Accept a descriptor of an opcode and run its effect on its 64 bytes; a set reserved bit or a parameter out of its
range completes it with INVALID_PARAM (R437, R441). Where it cannot be accepted now the state is unchanged (log entry 3). -/
def accept (s : State) (d : DescRef) (op : Nat) (f : State → List Byte → State) : State :=
  if acceptable s d op then
    match flightAt s d with
    | none => s
    | some fl =>
      let s := markAccepted s d
      if reservedClear op fl.bytes && paramsInRange op fl.bytes then f s fl.bytes else finish s d stInvalidParam 0
  else s

/-- The answer of a descriptor command. -/
def onDesc (s : State) (d : DescRef) (op : Nat) (f : State → List Byte → State) : Out :=
  onHost s (fun s => accept s d op f)

end Sys2Proof.Machine
end

