-- ==== Sys2Proof/Machine/NetBase.lean ====
section
/-! DEFINITION. Network ports and streams as data, and what stops them from outside (R284, R285, R317, R318, R482). -/

namespace Sys2Proof.Machine
open Sys2Proof

/-- A port with empty queues. -/
def netReset (_ : Nat) : NetPort := ⟨[], none, 0, false, [], 0, none, none, 0, none, 0, []⟩

/-- Port `p` beside its registers. -/
def netAt (s : State) (p : Nat) : NetPort := mapGet netReset s.nets p

/-- Replace port `p`. -/
def setNet (s : State) (p : Nat) (x : NetPort) : State := { s with nets := mapSet netReset s.nets p x }

/-- Queue `q` of a port, head first. -/
def netQueue (s : State) (p q : Nat) : List TxFrame := mapGet (fun _ => []) (netAt s p).queues q

/-- Replace queue `q` of a port. -/
def setQueue (s : State) (p q : Nat) (fs : List TxFrame) : State :=
  setNet s p { netAt s p with queues := mapSet (fun _ => []) (netAt s p).queues q fs }

/-- Whether a port's link is up, and whether the port is fenced. -/
def netLink (s : State) (p : Nat) : Bool := ron s (Reg.NET_STAT p) F.NET_STAT_LINK
def netFenced (s : State) (p : Nat) : Bool := ron s (Reg.NET_STAT p) F.NET_STAT_FENCED

/-! ## Shapers (R291, R292) -/

/-- The line rate in b/s (Table 08-1). -/
def lineRate (s : State) (p : Nat) : Nat :=
  match rget s (Reg.NET_CTRL p) F.NET_CTRL_MODE with
  | 0 => 0
  | 1 => 1000000000
  | 2 => 10000000000
  | _ => 25000000000

/-- Device time is valid. -/
def timeValid (s : State) : Bool := ron s Reg.TIME_STAT F.TIME_STAT_VALID

/-- A frame is time-eligible at disciplined time `t` (R292, R294). -/
def timeEligible (s : State) (f : TxFrame) (t : Int) : Bool :=
  match f.launch with
  | none => true
  | some l => !timeValid s || decide (l - 8 * 65536 ≤ t)

/-- The credit of queue `q` in bits, held between LOCRED and HICRED (R291). -/
def clampCredit (s : State) (p q : Nat) (c : Rat) : Rat :=
  let lo : Rat := rgetI s (Reg.NET_Q_LOCRED p q) F.NET_Q_LOCRED_LOCRED
  let hi : Rat := rgetI s (Reg.NET_Q_HICRED p q) F.NET_Q_HICRED_HICRED
  max lo (min hi c)

/-- The credit of queue `q` after `dt` TIME_CLK ticks in which nothing at the port changed (R291). -/
def nextCredit (s : State) (p q dt : Nat) (c : Rat) : Rat :=
  let x := netAt s p
  let idle : Rat := (rget s (Reg.NET_Q_SLOPE p q) F.NET_Q_SLOPE_IDLE_SLOPE : Rat) * 1000
  let sec (n : Rat) : Rat := n / 393216000
  let own := match x.line with
    | some l => l.1 == q
    | none => false
  if own then clampCredit s p q (c + (idle - lineRate s p) * sec dt)
  else
    match (netQueue s p q).head? with
    | none => min c 0
    | some f =>
      if timeEligible s f (timeAt s x.creditAt) then clampCredit s p q (c + idle * sec dt)
      else
        match f.launch with
        | none => c
        | some l =>
          let late : Rat := ((now s - (l - 8 * 65536) : Int) : Rat) * 6144 / (15625 * 65536)
          if late ≤ 0 then min c 0 else clampCredit s p q (min c 0 + idle * sec (min late dt))

/-- Bring a port's credits to the present tick. -/
def updateCredits (s : State) (p : Nat) : State :=
  let x := netAt s p
  let dt := s.time.cnt - x.creditAt
  let put (m : SMap Rat) (q : Nat) : SMap Rat :=
    if ron s (Reg.NET_Q_CTRL p q) F.NET_Q_CTRL_CBS_EN then
      mapSet (fun _ => 0) m q (nextCredit s p q dt (mapGet (fun _ => 0) m q))
    else m
  setNet s p { x with credits := (List.range 8).foldl put x.credits, creditAt := s.time.cnt }

/-- The ports that shape a queue bring their credits to the present tick, before device time or its validity changes. -/
def settleCredits (s : State) : State :=
  forEach ((List.range 8).filter (fun p => (List.range 8).any (fun q => ron s (Reg.NET_Q_CTRL p q) F.NET_Q_CTRL_CBS_EN)))
    s updateCredits

/-! ## What ends a frame's wait from outside -/

/-- The end of a NET_TX before its last segment left: a status, and the segments transmitted (R299). Its other segments
leave every queue of the port. -/
def endNetTx (s : State) (p : Nat) (d : DescRef) (status sentSegs : Nat) : State :=
  let keep (f : TxFrame) : Bool := match f.owner with
    | .host e _ _ => e != d
    | _ => true
  let s := forEach (List.range 8) (updateCredits s p) (fun s q => setQueue s p q ((netQueue s p q).filter keep))
  finish s d status sentSegs

/-- Name the stream of the last STR event (Table 08-11). -/
def strEvent (s : State) (stream event : Nat) : State :=
  let s := rput (rput s Reg.STR_LAST F.STR_LAST_STREAM stream) Reg.STR_LAST F.STR_LAST_EVENT event
  rset s Reg.STR_LAST F.STR_LAST_VALID

/-- A transmit packet of stream `t` is discarded: STR source 0x345 (Table 08-8); `rz` raises a source. -/
def strTxDropWith (rz : State → Nat → Nat → Nat → State) (s : State) (t : Nat) : State :=
  rz (strEvent (rset s Reg.STR_STAT F.STR_STAT_TX_DROP) (512 + t) 7) 0x345 t 0

/-- Every queued frame of a port goes: a stream's is discarded, a NET_TX completes with NOT_READY (R284). -/
def netFlushWith (rz : State → Nat → Nat → Nat → State) (s : State) (p : Nat) : State :=
  let fs := ((List.range 8).map (netQueue s p)).flatten
  let s := updateCredits s p
  let s := setNet s p { netAt s p with queues := [] }
  forEach fs s (fun s f =>
    match f.owner with
    | .host d seg _ => finish s d stNotReady seg
    | .stream t _ => strTxDropWith rz s t
    | .unowned => s)

/-- A receive stream with nothing received. -/
def strRxReset (_ : Nat) : StrRx := ⟨none, none, 0, 0, [], [], 0⟩

/-- Receive stream `r` beside its entry. -/
def strRxAt (s : State) (r : Nat) : StrRx := mapGet strRxReset s.strRx r

/-- Replace receive stream `r`. -/
def setStrRx (s : State) (r : Nat) (x : StrRx) : State := { s with strRx := mapSet strRxReset s.strRx r x }

/-- Receive stream states (Table 08-6). -/
def srOff : Nat := 0
def srWait : Nat := 1
def srRunning : Nat := 2
def srLost : Nat := 3

/-- A path goes DOWN: its UP bit clears; the caller raises STR source 0x341 (R318). -/
def pathDown (s : State) (r : Nat) (b : Bool) : State :=
  strEvent (pput s (if b then P.STR_RX_B_UP else P.STR_RX_A_UP) r 0) r 2

/-- The paths that are UP on a port, as streams and whether each is path B. -/
def pathsOn (s : State) (p : Nat) : List (Nat × Bool) :=
  ((enabledEntries s P.STR_RX_EN).map (fun r =>
    (if pon s P.STR_RX_A_UP r && pget s P.STR_RX_PORT_A r == p then [(r, false)] else [])
      ++ (if pon s P.STR_RX_B_UP r && pget s P.STR_RX_PORT_B r == p then [(r, true)] else []))).flatten

/-- A port without its link: LINK clears, its queues are flushed and its paths go DOWN (R284, R318). -/
def linkClearWith (rz : State → Nat → Nat → Nat → State) (s : State) (p : Nat) : State :=
  if !netLink s p then s
  else
    let s := rset (rclr s (Reg.NET_STAT p) F.NET_STAT_LINK) (Reg.NET_STAT p) F.NET_STAT_LINK_CHG
    let s := rclr (netFlushWith rz s p) (Reg.NET_STAT p) F.NET_STAT_AN_DONE
    forEach (pathsOn s p) s (fun s x => rz (pathDown s x.1 x.2) 0x341 x.1 0)

/-- A port's link goes down (R284); `rz` raises a source. -/
def linkDownWith (rz : State → Nat → Nat → Nat → State) (s : State) (p : Nat) : State :=
  if netLink s p then rz (linkClearWith rz s p) (0x300 + 8 * p) p 0 else s

/-- A port is fenced (R285). -/
def netFence (s : State) (p : Nat) : State := rset s (Reg.NET_STAT p) F.NET_STAT_FENCED

/-- BLOCK_RESET of a port: OFF, NET_CTRL at its reset value, counters kept (Table 14-5). -/
def netBlockReset (rz : State → Nat → Nat → Nat → State) (s : State) (p : Nat) : State :=
  let s := resetRange (netFlushWith rz (linkClearWith rz s p) p) (Reg.NET_CTRL p) (Reg.NET_CTRL p + 4)
  let s := setNet s p { netAt s p with pauseAt := none, pauseFrom := none, pauseQuanta := 0, deafSince := none, credits := [] }
  forEach [F.NET_STAT_AN_DONE, F.NET_STAT_PAUSED, F.NET_STAT_FENCED] s (fun s f => rclr s (Reg.NET_STAT p) f)

/-- A receive stream's state. -/
def strState (s : State) (r : Nat) : Nat := pget s P.STR_RX_STATE r

/-- A receive stream enters OFF (Table 08-6). -/
def strOff (s : State) (r : Nat) : State :=
  setStrRx (pput (pput (pput s P.STR_RX_STATE r srOff) P.STR_RX_A_UP r 0) P.STR_RX_B_UP r 0) r (strRxReset r)

/-- Whether a queued frame is a stream's packet. -/
def ofStream (f : TxFrame) : Bool := match f.owner with
  | .stream _ _ => true
  | _ => false

/-- No stream packet is sent any more: those queued are discarded, each as a transmit packet discarded (Tables 08-11 and
14-5; that they do not wait is this model's choice: DESIGN CHOICE, log entry 109). -/
def dropStreamFrames (rz : State → Nat → Nat → Nat → State) (s : State) : State :=
  forEach ((List.range 64).map (fun i => (i / 8, i % 8))) s (fun s x =>
    let fs := netQueue s x.1 x.2
    let s := if fs.any ofStream then setQueue (updateCredits s x.1) x.1 x.2 (fs.filter (fun f => !ofStream f)) else s
    forEach fs s (fun s f => match f.owner with
      | .stream t _ => strTxDropWith rz s t
      | _ => s))

/-- No packet of a transmit stream is being built any more (Table 08-9). -/
def stopBuilding (s : State) : State := forEach (enabledEntries s P.STR_TX_EN) s (fun s t => pput s P.STR_TX_RUNNING t 0)

/-- The stream engine is fenced: every receive stream OFF and nothing sent (R317, Table 14-5). -/
def strFence (rz : State → Nat → Nat → Nat → State) (s : State) : State :=
  dropStreamFrames rz (rset (stopBuilding (forEach (enabledEntries s P.STR_RX_EN) s strOff)) Reg.STR_STAT F.STR_STAT_FENCED)

/-- The stream store's place in DRAM, in words (R313). -/
def strStoreWord (s : State) (c pos : Nat) : Nat := rget s Reg.STR_STORE F.STR_STORE_BASE * 2 ^ 20 + c * 1024 + pos

/-- BLOCK_RESET of the stream engine: the store cleared, entries kept (Table 14-5). -/
def strBlockReset (s : State) : State :=
  let lo := strStoreWord s 0 0
  { s with supplied := [], dram := mapKeep (fun a => decide (a < lo) || decide (lo + 1048576 ≤ a)) s.dram }

/-- Streams with EN = 1 enter WAIT when the engine may run again (Table 14-5, R317). -/
def strRestart (s : State) : State :=
  forEach ((enabledEntries s P.STR_RX_EN).filter (fun r => strState s r == srOff)) s
    (fun s r => pput s P.STR_RX_STATE r srWait)

end Sys2Proof.Machine
end

