-- ==== Sys2Proof/Machine/PortBase.lean ====
section
/-! DEFINITION. The audio ports' registers by port number (0 to 15 TDM, 16 to 31 biphase receivers) and what stops a
port (R116, R119). -/

namespace Sys2Proof.Machine
open Sys2Proof

/-- Port states (R116). -/
def ptOff : Nat := 0
def ptQualifying : Nat := 1
def ptRunning : Nat := 2
def ptLost : Nat := 3

/-- A port with nothing received. -/
def rxReset (_ : Nat) : RxPort := ⟨none, 0, false, 0, 0, [], [], false, 0, false, [], 0, false, 0⟩

/-- A receiving port's state beside its registers. -/
def rxAt (s : State) (p : Nat) : RxPort := mapGet rxReset s.rx p

/-- Replace a receiving port's state. -/
def setRx (s : State) (p : Nat) (x : RxPort) : State := { s with rx := mapSet rxReset s.rx p x }

/-- Whether a port is a TDM port. -/
def isTdm (p : Nat) : Bool := decide (p < 16)

/-- The port's status, counters and phase registers (Tables 03-7 and 03-8). -/
def ptStat (p : Nat) : Nat := if isTdm p then Reg.TDM_STAT p else Reg.BPH_RX_STAT (p - 16)
def ptSlipCnt (p : Nat) : Nat := if isTdm p then Reg.TDM_SLIPCNT p else Reg.BPH_RX_SLIPCNT (p - 16)
def ptRejoin (p : Nat) : Nat := if isTdm p then Reg.TDM_REJOIN p else Reg.BPH_RX_REJOIN (p - 16)
def ptPhase (p : Nat) : Nat := if isTdm p then Reg.TDM_PHASE p else Reg.BPH_RX_PHASE (p - 16)
def ptFofs (p : Nat) : Nat := if isTdm p then Reg.TDM_FOFS p else Reg.BPH_RX_FOFS (p - 16)

/-- The status bits that both kinds of port have. -/
def ptSlipBit (p : Nat) : Fld := if isTdm p then F.TDM_STAT_SLIP else F.BPH_RX_STAT_SLIP
def ptRejoinBit (p : Nat) : Fld := if isTdm p then F.TDM_STAT_REJOIN else F.BPH_RX_STAT_REJOIN
def ptMisBit (p : Nat) : Fld := if isTdm p then F.TDM_STAT_MISFRAME else F.BPH_RX_STAT_MISFRAME

/-- A port's state (R116). -/
def ptState (s : State) (p : Nat) : Nat := rget s (ptStat p) F.TDM_STAT_STATE

/-- Set a port's state. -/
def setPtState (s : State) (p st : Nat) : State := rput s (ptStat p) F.TDM_STAT_STATE st

/-- Whether a port's input goes through the ASRC. -/
def ptAsrc (s : State) (p : Nat) : Bool :=
  if isTdm p then ron s (Reg.TDM_CTRL p) F.TDM_CTRL_ASRC else ron s (Reg.BPH_RX_CTRL (p - 16)) F.BPH_RX_CTRL_ASRC

/-- A port's nominal frame rate in Hz (R109, R116): NOM_HZ with the ASRC, else Fs. -/
def ptNominal (s : State) (p : Nat) : Nat :=
  let n := if isTdm p then rget s (Reg.TDM_RATE p) F.TDM_RATE_NOM_HZ
    else rget s (Reg.BPH_RX_RATE (p - 16)) F.BPH_RX_RATE_NOM_HZ
  if ptAsrc s p && n != 0 then n else fsHz s

/-- Whether a TDM port is a clock master, and a master in grid mode (R107, R108). A master with GRID = 1 and another
nominal rate than Fs is in no mode the spec gives; it runs from its divider, as a free-running one (DESIGN CHOICE, log
entry 76). -/
def isMaster (s : State) (p : Nat) : Bool := isTdm p && ron s (Reg.TDM_CTRL p) F.TDM_CTRL_MASTER
def isGridMaster (s : State) (p : Nat) : Bool :=
  isMaster s p && ron s (Reg.TDM_CTRL p) F.TDM_CTRL_GRID && rget s (Reg.TDM_RATE p) F.TDM_RATE_NOM_HZ == 0

/-- The number of set bits of a mask below bit `n`. -/
def popBelow (mask n : Nat) : Nat := ((List.range n).filter (fun i => bitOf mask i)).length

/-- The input slots selected (R110). -/
def inSlots (s : State) (n : Nat) : List Nat :=
  (List.range 32).filter (fun i => bitOf (rget s (Reg.TDM_IN_MASK n) F.WORD) i)

/-- The fabric channels a port writes, in order (R110, R124); none with the ASRC or in raw capture (R114, R130). -/
def ptChannels (s : State) (p : Nat) : List Nat :=
  if ptAsrc s p then []
  else if isTdm p then
    if rget s (Reg.TDM_CTRL p) F.TDM_CTRL_MODE = 1 then
      (List.range (inSlots s p).length).map (fun i => rget s (Reg.TDM_CHBASE p) F.TDM_CHBASE_IN_BASE + i)
    else []
  else
    let b := rget s (Reg.BPH_RX_CTRL (p - 16)) F.BPH_RX_CTRL_CH_BASE
    [b, b + 1]

/-- A port's producer class and instance (Table 03-1). -/
def ptOwner (p : Nat) : Nat × Nat := if isTdm p then (clTdm, p) else (clBph, p - 16)

/-- The alignment group a port is a member of (R121). -/
def groupOf (s : State) (p : Nat) : Option Nat :=
  (List.range 8).find? (fun g => bitOf (rd s (Reg.FAB_AGRP_MEM g)).toNat p)

/-- A group none of whose members is RUNNING has no phase (R122). -/
def refreshGroup (s : State) (g : Nat) : State :=
  let mem := (rd s (Reg.FAB_AGRP_MEM g)).toNat
  if (List.range 32).any (fun p => bitOf mem p && ptState s p == ptRunning) then s
  else rclr s (Reg.FAB_AGRP_STAT g) F.FAB_AGRP_STAT_PHASE_VALID

/-- Re-evaluate the phase of a port's group. -/
def refreshGroupOf (s : State) (p : Nat) : State :=
  match groupOf s p with
  | none => s
  | some g => refreshGroup s g

/-- A port leaves RUNNING: what it learned goes, its samples already early are dropped; its group may lose its phase. -/
def leaveRunning (s : State) (p : Nat) (st : Nat) : State :=
  let x := rxAt s p
  refreshGroupOf (setRx (setPtState s p st) p { x with kPrev := none, wide := 0, skip := false, misHist := 0, early := [], good := 0, gates := 0 }) p

/-- A receiving port enters OFF (R116, R119): its bead of this period is declared missing; its estimator stops, and a TDM
port's outputs are low. -/
def rxOff (s : State) (p : Nat) : State :=
  let o := ptOwner p
  let s := if ptState s p = ptOff then s else forEach (ptChannels s p) s (fun s c => fabMissing s o.1 o.2 c)
  let s := rclr s (Reg.ASRC_STAT p) F.ASRC_STAT_LOCK
  let s := if isTdm p then s else rclr s (Reg.BPH_RX_STAT (p - 16)) F.BPH_RX_STAT_LOCK
  let s := if isTdm p && ptState s p != ptOff then sendOut s (.portLow p) else s
  let s := leaveRunning s p ptOff
  setRx s p { rxAt s p with rawArmed := false, outLast := [] }

/-- A transmitter with nothing sent. -/
def txReset (_ : Nat) : TxPort := ⟨0, [0, 0, 0, 0]⟩

/-- A transmitter's state beside its registers. -/
def txAt (s : State) (n : Nat) : TxPort := mapGet txReset s.tx n

/-- Replace a transmitter's state. -/
def setTx (s : State) (n : Nat) (x : TxPort) : State := { s with tx := mapSet txReset s.tx n x }

/-- A transmitter stops (R119). -/
def txOff (s : State) (n : Nat) : State :=
  if ron s (Reg.BPH_TX_STAT n) F.BPH_TX_STAT_RUNNING then
    sendOut (rclr s (Reg.BPH_TX_STAT n) F.BPH_TX_STAT_RUNNING) (.portLow (16 + n))
  else s

/-- TDM port `n` is fenced: OFF and FENCED (R119, R482). -/
def fenceTdm (s : State) (n : Nat) : State :=
  rset (rxOff s n) (Reg.TDM_STAT n) F.TDM_STAT_FENCED

/-- Biphase receiver and transmitter `n` are fenced: both OFF and FENCED (R119, R482). -/
def fenceBph (s : State) (n : Nat) : State :=
  let s := rxOff s (16 + n)
  let s := setRx s (16 + n) { rxAt s (16 + n) with fenced := true }
  rset (txOff s n) (Reg.BPH_TX_STAT n) F.BPH_TX_STAT_FENCED

/-- BLOCK_RESET of TDM port `n`: OFF, its registers at their reset values (Table 14-5). -/
def resetTdm (s : State) (n : Nat) : State :=
  let s := rxOff s n
  { resetRange s (Reg.TDM_CTRL n) (Reg.TDM_CTRL n + 0x400) with rx := mapErase s.rx n }

/-- BLOCK_RESET of biphase receiver and transmitter `n`: both OFF, their registers at their reset values. -/
def resetBph (s : State) (n : Nat) : State :=
  let s := txOff (rxOff s (16 + n)) n
  let s := resetRange (resetRange s (Reg.BPH_RX_CTRL n) (Reg.BPH_RX_CTRL n + 0x100)) (Reg.BPH_TX_CTRL n)
    (Reg.BPH_TX_CTRL n + 0x100)
  { s with rx := mapErase s.rx (16 + n), tx := mapErase s.tx n, cs := mapErase (mapErase s.cs (2 * n)) (2 * n + 1) }

end Sys2Proof.Machine
end

