-- ==== Sys2Proof/Machine/RefBase.lean ====
section
/-! DEFINITION. The reference candidates, the selector and what a lost candidate does to the clean-up loop (R72 to R76, R82,
R87, R120). -/

namespace Sys2Proof.Machine
open Sys2Proof

/-! ## Candidates and selection (R72 to R76) -/

/-- The value of REF_STAT.SEL while nothing is selected. -/
def noCand : Nat := 0x1F

/-- Loop states as REF_STAT.STATE reads them. -/
def stFreeRun : Nat := 0
def stAcquiring : Nat := 1
def stLocked : Nat := 2
def stHoldover : Nat := 3
def stLost : Nat := 4

/-- The loop's state. -/
def loopState (s : State) : Nat := rget s Reg.REF_STAT F.REF_STAT_STATE

/-- A candidate's TYPE: only candidates 0 to 3 have one (R72, R94). -/
def candType (s : State) (n : Nat) : Nat := if n < 4 then rget s (Reg.REF_CAND n) F.REF_CAND_TYPE else 0

/-- A candidate that is enabled and not of TYPE off (R75, R94). -/
def candEnabled (s : State) (n : Nat) : Bool :=
  ron s (Reg.REF_CAND n) F.REF_CAND_EN && (decide (4 ≤ n) || candType s n != 0)

/-- |FOFS| of a candidate in 0.1 ppm units. -/
def fofsAbs (s : State) (n : Nat) : Nat := (rgetI s (Reg.REF_CSTAT n) F.REF_CSTAT_FOFS).natAbs

/-- A candidate that is enabled and active with |FOFS| ≤ ACCEPT (R75). -/
def candGood (s : State) (n : Nat) : Bool :=
  candEnabled s n && ron s (Reg.REF_CSTAT n) F.REF_CSTAT_ACTIVE &&
    decide (fofsAbs s n ≤ 10 * rget s Reg.REF_LIMITS F.REF_LIMITS_ACCEPT)

/-- The count kept for a candidate, if there is one. -/
def sinceOf (l : List (Nat × Nat)) (n : Nat) : Option Nat := (l.find? (fun p => p.1 == n)).map Prod.snd

/-- Keep since when each candidate has been within ACCEPT, after anything that may change it (R75). -/
def noteCands (s : State) : State :=
  { s with loop := { s.loop with
    goodSince := ((List.range 22).filter (candGood s)).map (fun n => (n, (sinceOf s.loop.goodSince n).getD s.time.cnt)) } }

/-- A candidate the selector may choose. A qualified candidate that is then disabled keeps QUALIFIED and is not chosen
(DESIGN CHOICE, log entry 102: R75 lists no disqualification for it). -/
def candEligible (s : State) (n : Nat) : Bool :=
  decide (n < 22) && candEnabled s n && ron s (Reg.REF_CSTAT n) F.REF_CSTAT_QUALIFIED

/-- The eligible candidate of highest priority; a tie goes to the lower number (R76). -/
def bestCandidate (s : State) : Nat :=
  (List.range 22).foldl (fun best n =>
    if !candEligible s n then best
    else if best = noCand then n
    else if rget s (Reg.REF_CAND n) F.REF_CAND_PRIO > rget s (Reg.REF_CAND best) F.REF_CAND_PRIO then n else best) noCand

/-- The candidate the selector holds now (R76). -/
def selected (s : State) : Nat := rget s Reg.REF_STAT F.REF_STAT_SEL

/-- The selector's choice after a change (R76). -/
def chooseCandidate (s : State) : Nat :=
  if !ron s Reg.REF_CTRL F.REF_CTRL_EN then noCand
  else if ron s Reg.REF_CTRL F.REF_CTRL_MODE then
    let c := rget s Reg.REF_SEL F.REF_SEL_CAND
    if candEligible s c then c else noCand
  else if candEligible s (selected s) then selected s
  else bestCandidate s

/-- HOLD_AVG acts between 10 and 3,600 (R94). -/
def holdAvg (s : State) : Nat := min 3600 (max 10 (rget s Reg.REF_HOLDCFG F.REF_HOLDCFG_HOLD_AVG))

/-- HOLD_GUARD in seconds. -/
def holdGuard (s : State) : Nat := rget s Reg.REF_HOLDCFG F.REF_HOLDCFG_HOLD_GUARD

/-- TIME_CLK ticks in one second (R59). -/
def tickRate : Nat := 393216000

/-- Store s_h, θ_h and t_h from a full window of history; without one the stored values stay (R87). Means are rounded
down to whole units (DESIGN CHOICE, log entry 65: the spec gives no rounding). -/
def storeHold (s : State) : State :=
  let w := (s.loop.history.drop (holdGuard s)).take (holdAvg s)
  if w.length = holdAvg s then
    let n : Int := w.length
    let sh := (w.map (·.1)).foldl (· + ·) 0 / n
    let th := (w.map (·.2)).foldl (· + ·) 0 / n
    let s := rputI s Reg.REF_HOLDINFO_S F.REF_HOLDINFO_S_S_H sh
    let s := rputI s Reg.REF_HOLDINFO_T F.REF_HOLDINFO_T_THETA_H th
    { s with loop := { s.loop with
      tHeld := (s.loop.lockedAt : Int) - (tickRate : Int) * holdGuard s - (tickRate : Int) * holdAvg s / 2 } }
  else s

/-- Leave LOCKED or ACQUIRING for a state without a candidate. -/
def enterUnheld (s : State) (st : Nat) : State :=
  let s := storeHold s
  { rput s Reg.REF_STAT F.REF_STAT_STATE st with loop := { s.loop with history := [], goodRun := 0, badRun := 0, fast := false } }

/-- The transitions of Table 02-4 that a lost candidate causes (R82); `rz` raises a source. -/
def loopNoCandidateWith (rz : State → Nat → Nat → Nat → State) (s : State) : State :=
  let hold := ron s Reg.REF_STAT F.REF_STAT_HIST_OK && ron s Reg.REF_CTRL F.REF_CTRL_HOLD_EN
  let st := loopState s
  if st = stAcquiring ∨ st = stLocked then
    if hold then rz (enterUnheld s stHoldover) 0x099 0x3FF 0
    else if st = stLocked ∨ s.loop.everLocked then rz (enterUnheld s stLost) 0x09A 0x3FF 0
    else enterUnheld s stFreeRun
  else s

/-- Give the selector's choice effect: SEL changes, and a lost candidate moves the loop (R76, R82). -/
def selectCandidateWith (rz : State → Nat → Nat → Nat → State) (s : State) (c : Nat) : State :=
  if c = selected s then s
  else
    let s := rput s Reg.REF_STAT F.REF_STAT_SEL c
    if c = noCand then loopNoCandidateWith rz s else s

/-- Re-run the selector (R76). -/
def reselectWith (rz : State → Nat → Nat → Nat → State) (s : State) : State := selectCandidateWith rz s (chooseCandidate s)

/-- Disqualify a candidate (R75). -/
def disqualifyWith (rz : State → Nat → Nat → Nat → State) (s : State) (n : Nat) : State :=
  let s := noteCands s
  if ron s (Reg.REF_CSTAT n) F.REF_CSTAT_QUALIFIED then
    let s := { s with loop := { s.loop with qualSince := s.loop.qualSince.filter (fun p => p.1 != n) } }
    let s := rset (rclr s (Reg.REF_CSTAT n) F.REF_CSTAT_QUALIFIED) (Reg.REF_CSTAT n) F.REF_CSTAT_DISQ
    reselectWith rz (rz s (0x080 + n) n 0)
  else s

/-- A biphase receiver's LOCK bit is the activity of its reference candidate (R72, R120): ACTIVE follows it, and the
candidate disqualifies with it (R75). -/
def followLockWith (rz : State → Nat → Nat → Nat → State) (s : State) (n : Nat) : State :=
  let lock := ron s (Reg.BPH_RX_STAT n) F.BPH_RX_STAT_LOCK
  if lock == ron s (Reg.REF_CSTAT (6 + n)) F.REF_CSTAT_ACTIVE then s
  else
    let s := rbit s (Reg.REF_CSTAT (6 + n)) F.REF_CSTAT_ACTIVE lock
    if lock then noteCands s else disqualifyWith rz s (6 + n)

end Sys2Proof.Machine
end

