-- ==== Sys2Proof/Machine/RodBase.lean ====
section
/-! DEFINITION. Rods and frames as data: the instruction decoder (R174 to R181, R202), registers and memories with the
results still in the pipeline (R141 to R149), and what stops a rod from outside. -/

namespace Sys2Proof.Machine
open Sys2Proof

/-! ## Decoding (R175, R176) -/

/-- A move field (Table 05-4) uses a legal type and mode with its unused fields zero (R176, R181); `tap` says whether
its class takes type 6. -/
def moveOk (m : Nat) (tap : Bool) : Bool :=
  let areg := bitsOf m 11 2
  let mode := bitsOf m 8 3
  let reg := bitsOf m 4 4
  let src := bitsOf m 0 4
  match bitsOf m 13 3 with
  | 0 => !tap && areg == 0 && mode == 0 && reg == 0 && src == 0
  | 1 | 2 | 3 => !tap && mode != 7 && src == 0
  | 4 => !tap && mode != 7 && src == 0 && reg % 2 == 0
  | 5 => !tap && areg == 0 && mode == 0
  | 6 => tap && mode != 7 && reg == 0 && src == 0
  | _ => !tap && mode != 7 && reg == 0 && src == 0

/-- The X and Y move fields. -/
def xMove (w : Nat) : Nat := bitsOf w 16 16
def yMove (w : Nat) : Nat := bitsOf w 0 16

/-- Both moves are legal for a class without type 6. -/
def movesOk (w : Nat) : Bool := moveOk (xMove w) false && moveOk (yMove w) false

/-- The ALU operations by SUBOP (Table 05-8). -/
def aluOps : List RodOp :=
  [.add, .sub, .addi, .subi, .cmp, .and, .or, .xor, .not, .asl, .asr, .lsl, .lsr, .abs, .neg, .min, .max, .amax]

/-- The ACC operations by SUBOP (Table 05-9). -/
def accOps : List RodOp :=
  [.clr, .mova, .adda, .suba, .nega, .absa, .shla, .shra, .rnda, .sata, .lda, .ldal, .ext, .extl, .extg, .tsta]

/-- The MAC, tap and control-rod operations by SUBOP (Tables 05-10 to 05-12). -/
def macOps : List RodOp := [.mpy, .mac, .msu, .mpy2, .mac2, .msu2, .mpyx, .macx]
def tapOps : List RodOp := [.tap, .tap2, .tapm]
def ctlOps : List RodOp := [.exp, .bexp, .norm, .divs]

/-- An operation where a test holds. -/
def opIf (b : Bool) (o : Option RodOp) : Option RodOp := if b then o else none

/-- The operation of an instruction word on a rod of a kind; none for an illegal encoding (R176). -/
def decodeRod (control : Bool) (w : Nat) : Option RodOp :=
  let sub := bitsOf w 52 6
  match bitsOf w 58 6 with
  | 0x00 => opIf (bitsOf w 32 26 == 0 && movesOk w) (some .nop)
  | 0x01 => opIf (bitsOf w 32 20 == 0) (some .ldi)
  | 0x02 => opIf (bitsOf w 32 14 == 0 && movesOk w) (some .movr)
  | 0x04 => opIf ((bitOf w 51 || bitsOf w 32 7 == 0) && movesOk w) aluOps[sub]?
  | 0x08 => opIf (bitsOf w 32 6 == 0 && movesOk w) accOps[sub]?
  | 0x0C => opIf (bitsOf w 32 2 != 3 && movesOk w) macOps[sub]?
  | 0x10 => opIf (!control && bitsOf w 32 14 == 0 && bitsOf w 46 2 != 3 && moveOk (xMove w) true && moveOk (yMove w) true)
      tapOps[sub]?
  | 0x14 => opIf (control && bitsOf w 32 10 == 0 && movesOk w) ctlOps[sub]?
  | 0x18 => opIf (bitsOf w 42 11 == 0 && (if bitOf w 57 then bitsOf w 32 10 == 0 else bitsOf w 53 4 == 0) && movesOk w)
      (some .rep)
  | 0x19 => opIf (bitsOf w 45 8 == 0 && (if bitOf w 57 then movesOk w else moveOk (yMove w) false)) (some .loop)
  | 0x1A => opIf (bitsOf w 32 26 == 0 && movesOk w) (some .endl)
  | 0x20 => opIf (bitsOf w 54 4 != 15 && bitsOf w 45 4 == 0 && movesOk w) (some .b)
  | 0x21 => opIf (bitsOf w 54 4 != 15 && movesOk w) (some .call)
  | 0x22 => opIf (bitsOf w 54 4 != 15 && bitOf w 53 == false && bitsOf w 32 17 == 0 && movesOk w) (some .ret)
  | 0x23 => opIf (bitsOf w 32 26 == 0 && movesOk w) (some .rti)
  | 0x24 => opIf (bitsOf w 32 26 == 0 && movesOk w) (some .trap)
  | 0x3F => opIf (bitsOf w 0 58 == 0) (some .endPass)
  | _ => none

/-- The instructions that R150 keeps out of delay slots, repeats and loop ends. -/
def restricted : RodOp → Bool
  | .rep | .loop | .endl | .b | .call | .ret | .rti | .trap | .endPass => true
  | _ => false

/-! ## Rods (R137, R147) -/

/-- A rod after reset: empty, every register zero (R147), SR.SAT 1 (Table 04-4). -/
def rodReset (_ : Nat) : Rod :=
  { p := [], x := [], y := [], file := [(0x30, 1)], acc := [], n := 0, pend := [], pc := 0, slots := 0, target := none,
    depth := 0, iter := false, repeating := false, phase := .waiting, cyc := 0, imports := [], exports := [],
    blkMask := 0, fsMask := 0, enPend := [], wait := 0,
    wants := [] }

/-- Rod `g`. -/
def rodAt (s : State) (g : Nat) : Rod := mapGet rodReset s.rods g

/-- Replace rod `g`. -/
def setRod (s : State) (g : Nat) (r : Rod) : State := { s with rods := mapSet rodReset s.rods g r }

/-- A rod's frame, its number in it, and whether it is a control rod (Table 04-1). -/
def rodFrame (g : Nat) : Nat := g / 8
def rodNum (g : Nat) : Nat := g % 8
def isControl (g : Nat) : Bool := g % 8 == 7

/-- A rod's registers. -/
def rodReg (reg : Nat → Nat → Nat) (g : Nat) : Nat := reg (rodFrame g) (rodNum g)

/-- Rod states (Table 04-13). -/
def rdEmpty : Nat := 0
def rdLoading : Nat := 1
def rdReady : Nat := 2
def rdActive : Nat := 3
def rdHalted : Nat := 4
def rdFenced : Nat := 5

/-- ROD_STAT.STATE. -/
def rodState (s : State) (g : Nat) : Nat := rget s (rodReg Reg.ROD_STAT g) F.ROD_STAT_STATE

/-- ROD_CTRL.EN as it is in effect: a host's write counts from its second boundary on (R171). -/
def enNow (s : State) (g : Nat) : Bool :=
  match (rodAt s g).enPend with
  | [] => ron s (rodReg Reg.ROD_CTRL g) F.ROD_CTRL_EN
  | w :: _ => !w.2

/-- Set ROD_STAT.STATE; ROD_PC reads 0 in every state but HALTED (Table 04-13). -/
def setRodState (s : State) (g st : Nat) : State :=
  let s := rput s (rodReg Reg.ROD_STAT g) F.ROD_STAT_STATE st
  if st = rdHalted then s else rput s (rodReg Reg.ROD_PC g) F.ROD_PC_PC 0

/-! ## DMA lists (R163, R166) -/

/-- The fields of a DMA list entry (Table 04-9). -/
def dmaKind (e : Nat) : Nat := bitsOf e 0 2
def dmaY (e : Nat) : Bool := bitOf e 2
def dmaAddr (e : Nat) : Nat := bitsOf e 8 15
def dmaCh (e : Nat) : Nat := bitsOf e 32 10
def dmaNch (e : Nat) : Nat := bitsOf e 42 6
def dmaPitch (s : State) (e : Nat) : Nat := if bitsOf e 48 8 = 0 then blk s else bitsOf e 48 8
def dmaFaddr (e : Nat) : Nat := bitsOf e 32 19
def dmaWords (e : Nat) : Nat := bitsOf e 51 13

/-- The 64-byte lines a KIND 1 entry touches (R166): its channels' beads are one run in the buffer. -/
def entryLines (s : State) (e : Nat) : Nat :=
  if dmaKind e = 1 then
    let b := 4 * blk s
    ((dmaCh e + dmaNch e + 1) * b + 63) / 64 - dmaCh e * b / 64
  else 0

/-- The frame SRAM words a KIND 2 entry moves. -/
def entryWords (e : Nat) : Nat := if dmaKind e = 2 then dmaWords e + 1 else 0

/-- Sums over lists. -/
def linesOf (s : State) (es : List Nat) : Nat := (es.map (entryLines s)).foldl (· + ·) 0
def wordsOf (es : List Nat) : Nat := (es.map entryWords).foldl (· + ·) 0

/-- A rod's loaded list up to its end; a rod that is EMPTY or LOADING has none. -/
def loadedList (s : State) (g : Nat) (imp : Bool) : List Nat :=
  if rodState s g = rdEmpty ∨ rodState s g = rdLoading then []
  else (if imp then (rodAt s g).imports else (rodAt s g).exports).takeWhile (fun e => dmaKind e != 0)

/-- A frame's loaded lists. -/
def loadedLists (s : State) (f : Nat) (imp : Bool) : List Nat := (List.range 8).flatMap (fun r => loadedList s (8 * f + r) imp)

/-- The list counters of a frame and of its rods, as its rods stand (Table 04-13). -/
def refreshFrameCounts (s : State) (f : Nat) : State :=
  let imp := loadedLists s f true
  let exp := loadedLists s f false
  let s := forEach (List.range 8) s (fun s r =>
    let ls := Reg.ROD_LISTS f r
    let g := 8 * f + r
    rput (rput s ls F.ROD_LISTS_IMP_N (loadedList s g true).length) ls F.ROD_LISTS_EXP_N (loadedList s g false).length)
  let s := rput (rput s (Reg.ROD_FLINES f) F.ROD_FLINES_IMP (linesOf s imp)) (Reg.ROD_FLINES f) F.ROD_FLINES_EXP (linesOf s exp)
  rput (rput s (Reg.ROD_FWORDS f) F.ROD_FWORDS_IMP (wordsOf imp)) (Reg.ROD_FWORDS f) F.ROD_FWORDS_EXP (wordsOf exp)

/-- The counts of all frames, whose lines follow the block length (R166). -/
def refreshAllCounts (s : State) : State := forEach (List.range 8) s refreshFrameCounts

/-! ## Frame SRAM banks (R142) -/

/-- The last requester a bank served, and the first cycle in which it is free: of a frame's eight rods, and 8 for its
bus-matrix port. After reset rod 0 is served first (DESIGN CHOICE, log entry 158). -/
def bankAt (s : State) (f b : Nat) : Nat × Nat := mapGet (fun _ => (8, 0)) s.banks (8 * f + b)

/-- The bank and the cycle of a frame's next grant: the earliest access that waits and finds its bank free. None while a rod
in its pass could still ask as early. -/
def nextGrant (s : State) (f : Nat) : Option (Nat × Nat) :=
  let rods := (List.range 8).map (fun r => rodAt s (8 * f + r))
  match rods.filterMap (fun r => r.wants.head?.map (fun b => (b, max r.cyc (bankAt s f b).2))) with
  | [] => none
  | a :: as =>
    let m := as.foldl (fun x y => if y.2 < x.2 then y else x) a
    if rods.any (fun r => r.phase == .inPass && r.wants.isEmpty && decide (r.cyc + 1 ≤ m.2)) then none else some m

/-- Whether a request that touches bank `b` waits at a frame's bus-matrix port. -/
def portAsks (s : State) (f b : Nat) : Bool :=
  s.ports.any (fun p => p.1 == f && p.2.waiting.any (fun q =>
    (List.range (16 * (q.1.beats.val + 1))).any (fun i => (q.1.addr / 4 + i) % 8 == b)))

/-- One access of bank `b` in cycle `t`, round-robin among the rods that wait for it and the port. Where a request for
the bank waits at the port, whether its access falls in this cycle is a free value (log entry 2). -/
def grantBank (s : State) (f b t : Nat) : State :=
  let (port, s) := if portAsks s f b then let (v, s) := takeFree s 1; (v == 1, s) else (false, s)
  let asks (q : Nat) : Bool :=
    if q = 8 then port else (rodAt s (8 * f + q)).wants.head? == some b && decide ((rodAt s (8 * f + q)).cyc ≤ t)
  match ((List.range 9).map (fun i => ((bankAt s f b).1 + 1 + i) % 9)).find? asks with
  | none => s
  | some q =>
    let s := { s with banks := mapSet (fun _ => (8, 0)) s.banks (8 * f + b) (q, t + 1) }
    if q = 8 then s
    else
      let r := rodAt s (8 * f + q)
      setRod s (8 * f + q) { r with wants := r.wants.tail, cyc := t + 1 }

/-- The grants of a frame's banks that nothing still to come can change, at most `k` of them. -/
def settleBanks (f : Nat) : Nat → State → State
  | 0, s => s
  | k + 1, s =>
    match nextGrant s f with
    | none => s
    | some (b, t) => settleBanks f k (grantBank s f b t)

/-- All of them: eight rods with four accesses each at most, and the port once before each. -/
def settleFrame (s : State) (f : Nat) : State := settleBanks f 64 s

/-- A block starts with every bank free. -/
def freeBanks (s : State) : State :=
  { s with banks := s.banks.filterMap (fun e => if e.2.1 = 8 then none else some (e.1, e.2.1, 0)) }

/-- Set a rod's phase and with it ROD_STAT.IN_PASS; outside a pass the rod asks for no bank. -/
def setPhase' (s : State) (g : Nat) (ph : RodPhase) : State :=
  let s := rbit (setRod s g { rodAt s g with phase := ph, wants := [] }) (rodReg Reg.ROD_STAT g) F.ROD_STAT_IN_PASS (ph == .inPass)
  if ph = .inPass then s else settleFrame s (rodFrame g)

/-! ## Frame SRAM (R141, R144) -/

/-- The words of one frame SRAM. -/
def frameWords : Nat := 524288

/-- A word of a frame SRAM; words nothing has written read as zero (log entry 13). -/
def frameGet (s : State) (f w : Nat) : Word := mapGet (fun _ => 0) s.frameMem (f * frameWords + w)

/-- The key of a frame SRAM word among the poisoned words. -/
def framePoisonKey (f w : Nat) : Nat := 2 ^ 40 + f * frameWords + w

/-- Whether a frame SRAM word holds poison (R42). -/
def framePoisoned (s : State) (f w : Nat) : Bool := mapGet (fun _ => false) s.poison (framePoisonKey f w)

/-- Write a frame SRAM word; a mailbox word sets its rod's MBOX pending (R144). -/
def frameSet (s : State) (f w : Nat) (v : Word) : State :=
  let w := w % frameWords
  let s := { s with frameMem := mapSet (fun _ => 0) s.frameMem (f * frameWords + w) v }
  let s := if s.poison.isEmpty then s else { s with poison := mapErase s.poison (framePoisonKey f w) }
  if w ≥ 0x7FFF8 then rset s (Reg.ROD_IPEND f (w - 0x7FFF8)) F.ROD_IPEND_MBOX else s

/-! ## Results in the pipeline (R149) -/

/-- The order in which results take effect: by the cycle they land in, sticky bits last in it (R180, R193). -/
def writeKey (x : RodWrite) : Nat := 2 * x.land + (if x.kind = .plain then 0 else 1)

/-- Add a result to the pipeline, after those that take effect no later. -/
def insertWrite (x : RodWrite) : List RodWrite → List RodWrite
  | [] => [x]
  | y :: ys => if writeKey y ≤ writeKey x then y :: insertWrite x ys else x :: y :: ys

/-- A value with a result's bits replaced. -/
def applyBits (v : Nat) (x : RodWrite) : Nat := (v - (v &&& x.mask)) ||| (x.val &&& x.mask)

/-- What a reader in cycle `t` finds at a place whose landed value is `base`. -/
def seenAt (pend : List RodWrite) (loc : RodLoc) (t base : Nat) : Nat :=
  (pend.filter (fun x => x.loc == loc && decide (x.land < t))).foldl applyBits base

/-- A register as a reader in cycle `t` finds it. -/
def regSeen (r : Rod) (n t : Nat) : Nat := seenAt r.pend (.reg n) t (mapGet (fun _ => 0) r.file n)

/-- An accumulator as a reader in cycle `t` finds it. -/
def accSeen (r : Rod) (n t : Nat) : Int := signed 72 (seenAt r.pend (.acc n) t (mapGet (fun _ => 0) r.acc n))

/-- The width of a numbered register (Table 04-3). -/
def regWidth (n : Nat) : Nat :=
  if n < 0x10 then 32 else if n < 0x30 then 20
  else if n = 0x30 ∨ n = 0x32 then 32 else if n = 0x31 then 13 else if n = 0x33 then 10 else if n < 0x38 then 16 else 13

/-- Let one result take effect. -/
def landWrite (s : State) (g : Nat) (x : RodWrite) : State :=
  let r := rodAt s g
  match x.loc with
  | .reg n => setRod s g { r with file := mapSet (fun _ => 0) r.file n (applyBits (mapGet (fun _ => 0) r.file n) x) }
  | .acc n => setRod s g { r with acc := mapSet (fun _ => 0) r.acc n (applyBits (mapGet (fun _ => 0) r.acc n) x) }
  | .x a => setRod s g { r with x := mapSet (fun _ => 0) r.x a (BitVec.ofNat 32 x.val) }
  | .y a => setRod s g { r with y := mapSet (fun _ => 0) r.y a (BitVec.ofNat 32 x.val) }
  | .f a => frameSet s (rodFrame g) a (BitVec.ofNat 32 x.val)

/-- Let every result that lands before cycle `t` take effect. -/
def landBefore (s : State) (g t : Nat) : State :=
  let r := rodAt s g
  let now := r.pend.filter (fun x => decide (x.land < t))
  let s := forEach now s (fun s x => landWrite s g x)
  setRod s g { rodAt s g with pend := r.pend.filter (fun x => decide (t ≤ x.land)) }

/-- Let every result in the pipeline take effect: the instructions complete. -/
def landAll (s : State) (g : Nat) : State :=
  let r := rodAt s g
  let s := forEach r.pend s (fun s x => landWrite s g x)
  setRod s g { rodAt s g with pend := [] }

/-! ## Stopping a rod from outside -/

/-- A pass in progress stops and its pipeline is discarded. -/
def dropPass (s : State) (g : Nat) : State :=
  let ph := (rodAt s g).phase
  let s := setRod s g { rodAt s g with pend := [] }
  setPhase' s g (if ph = .inPass then .stopped else ph)

/-- A rod enters FENCED, whatever its state (R160, R482). -/
def rodFence (s : State) (g : Nat) : State := setRodState (dropPass s g) g rdFenced

/-- A load on frame `f` has ended. -/
def loadEnds (s : State) (f : Nat) : State :=
  rclr { s with loads := mapErase s.loads f } (Reg.ROD_FSTAT f) F.ROD_FSTAT_LOADING

/-- The rods a load names (R169). -/
def loadNames (l : LoadState) : List Nat := (List.range 8).filter (fun r => bitOf l.rods r)

/-- A load that fails leaves the rods it names EMPTY (R170). -/
def loadEmpties (s : State) (f : Nat) (l : LoadState) : State :=
  refreshFrameCounts (forEach (loadNames l) s (fun s r => setRodState s (8 * f + r) rdEmpty)) f

/-- A load in progress that names rod `g` ends: the rods it names are EMPTY, and it completes with CRC_FAIL (R483). -/
def abandonLoad (s : State) (g : Nat) : State :=
  match s.loads.find? (fun e => e.1 == rodFrame g && bitOf e.2.rods (rodNum g)) with
  | none => s
  | some e => finishOpt (loadEmpties (loadEnds s e.1) e.1 e.2) e.2.ref stCrcFail 0

/-- BLOCK_RESET returns a rod to EMPTY, as after reset but for ROD_CTRL (R161, R483, Table 14-5). -/
def rodEmpty (s : State) (g : Nat) : State :=
  let s := setRodState (dropPass (abandonLoad s g) g) g rdEmpty
  let s := setRod s g { rodReset g with enPend := (rodAt s g).enPend }
  refreshFrameCounts (rput s (rodReg Reg.ROD_STAT g) F.ROD_STAT_FAILS 0) (rodFrame g)

end Sys2Proof.Machine
end

