-- ==== Sys2Proof/Machine/StkBase.lean ====
section
/-! DEFINITION. Stack messages and how a member sends them (R454 to R456, R463). -/

namespace Sys2Proof.Machine
open Sys2Proof

/-- The message types of Table 13-2. -/
def smHello : Nat := 0x01
def smHeartbeat : Nat := 0x02
def smStatus : Nat := 0x03
def smTimeSync : Nat := 0x04
def smDelayReq : Nat := 0x05
def smDelayResp : Nat := 0x06
def smSubscribe : Nat := 0x07
def smBeads : Nat := 0x08
def smVote : Nat := 0x09
def smLog : Nat := 0x0A
def smLogAck : Nat := 0x0B
def smDecision : Nat := 0x0C
def smQuery : Nat := 0x0D
def smAnswer : Nat := 0x0E
def smCarry : Nat := 0x0F
def smSplit : Nat := 0x10
def smStart : Nat := 0x11

/-- The DST that stands for a broadcast in this model's calls. -/
def toAll : Nat := 8

/-- This member's stack ID. -/
def myId (s : State) : Nat := rget s Reg.STK_STAT F.STK_STAT_MY_ID

/-- Whether this member is master. -/
def isStkMaster (s : State) : Bool := ron s Reg.STK_STAT F.STK_STAT_MASTER

/-- The current master. -/
def masterId (s : State) : Nat := rget s Reg.STK_STAT F.STK_STAT_MASTER_ID

/-- The current successor. -/
def successorId (s : State) : Nat := rget s Reg.STK_STAT F.STK_STAT_SUCCESSOR

/-- The member map. -/
def stkMembers (s : State) : Nat := rget s Reg.STK_MEMBERS F.STK_MEMBERS_PRESENT

/-- Whether a stack link is UP. -/
def stkUp (s : State) (l : Nat) : Bool := rget s (Reg.STK_LINK_STAT l) F.STK_LINK_STAT_STATE == 2

/-- Whether a link carries messages: UP, the stack enabled, the link not fenced, and its transmitter no longer squelched as
from reset until the supervisor runs (R559). -/
def stkCarries (s : State) (l : Nat) : Bool :=
  s.boot.supervisor && stkUp s l && ron s Reg.STK_CTRL F.STK_CTRL_EN && !ron s (Reg.STK_LINK_STAT l) F.STK_LINK_STAT_FENCED

/-- Whether STK_ROUTE holds a route to member `d`, and its link (R454). -/
def routeValid (s : State) (d : Nat) : Bool := ron s Reg.STK_ROUTE ⟨3 * d + 2, 1⟩
def routeLink (s : State) (d : Nat) : Nat := rget s Reg.STK_ROUTE ⟨3 * d, 2⟩

/-- A message's words: header, payload, and the CRC-32C over both in a last word (R455). -/
def stkMessage (type src dst seq : Nat) (payload : List Nat) : List Nat :=
  let bc := if dst = toAll then 1 else 0
  let head := type % 256 * 2 ^ 56 + src % 8 * 2 ^ 53 + dst % 8 * 2 ^ 50 + bc * 2 ^ 49 + payload.length % 4096 * 2 ^ 36
    + seq % 2 ^ 32
  let body := head :: payload
  body ++ [crc32c (wordsBytes body)]

/-- Send a message's words on one link. -/
def stkOnLink (s : State) (l : Nat) (ws : List Nat) : State := if stkCarries s l then sendOut s (.stack l ws) else s

/-- Number and send a message on one link (HELLO, TIME_SYNC, DELAY_REQ and DELAY_RESP are of a link). -/
def stkLinkSend (s : State) (l type dst : Nat) (payload : List Nat) : State :=
  let seq := (s.stk.seq + 1) % 2 ^ 32
  let s := { s with stk := { s.stk with seq := seq } }
  stkOnLink s l (stkMessage type (myId s) dst seq payload)

/-- Number and send a message to a member, or to all. With a duplicate ID a member sends HELLO only (R457). -/
def stkSend (s : State) (dst type : Nat) (payload : List Nat) : State :=
  if ron s Reg.STK_STAT F.STK_STAT_DUP_ID then s
  else
    let seq := (s.stk.seq + 1) % 2 ^ 32
    let s := { s with stk := { s.stk with seq := seq } }
    let ws := stkMessage type (myId s) dst seq payload
    if dst = toAll then forEach [0, 1, 2, 3] s (fun s l => stkOnLink s l ws)
    else if routeValid s dst then stkOnLink s (routeLink s dst) ws
    else s

/-- Send a message that waits for an answer (R463). -/
def stkAsk (s : State) (dst type xid : Nat) (payload : List Nat) : State :=
  let s := stkSend s dst type payload
  { s with stk := { s.stk with waits := s.stk.waits ++ [⟨dst, type, payload, s.grid.index, xid⟩] } }

/-- Messages of a type about a transaction need no answer any more. -/
def stkAnswered (s : State) (type xid : Nat) : State :=
  { s with stk := { s.stk with waits := s.stk.waits.filter (fun w => !(w.type == type && w.xid == xid)) } }

end Sys2Proof.Machine
end

