-- ==== Sys2Proof/Machine/TallyBase.lean ====
section
/-! DEFINITION. Tallies as data: their states, records and outcomes, and how one ends (R246, R248, R260, R261, R263). -/

namespace Sys2Proof.Machine
open Sys2Proof

/-- Tally states (Table 07-1). -/
def tyFree : Nat := 0
def tyOpen : Nat := 1
def tyPrepared : Nat := 2
def tyAccepted : Nat := 3
def tyInDoubt : Nat := 4

/-- Abort causes (Table 07-3). -/
def acHost : Nat := 1
def acStruct : Nat := 2
def acShadowFull : Nat := 3
def acValidation : Nat := 4
def acConflict : Nat := 5
def acLead : Nat := 6
def acField : Nat := 7
def acStack : Nat := 8
def acBlocked : Nat := 9
def acReset : Nat := 10
def acShadowEcc : Nat := 11

/-- A tally that is FREE. -/
def tallyReset (_ : Nat) : Tally := ⟨[], none, false, 0, false, false, false, false, false, 0, false, none⟩

/-- Tally `id`. -/
def tallyAt (s : State) (id : Nat) : Tally := mapGet tallyReset s.tallies id

/-- Replace tally `id`. -/
def setTally (s : State) (id : Nat) (t : Tally) : State := { s with tallies := mapSet tallyReset s.tallies id t }

/-- The state of tally `id`. -/
def tyState (s : State) (id : Nat) : Nat := rget s (Reg.TLY_T_STAT id) F.TLY_T_STAT_STATE

/-- Set the state of tally `id`; TLY_STAT.IN_DOUBT follows. -/
def setTyState (s : State) (id st : Nat) : State :=
  let s := rput s (Reg.TLY_T_STAT id) F.TLY_T_STAT_STATE st
  rbit s Reg.TLY_STAT ⟨id, 1⟩ (st == tyInDoubt)

/-- Whether a tally is of stack scope. -/
def tyStack (s : State) (id : Nat) : Bool := ron s (Reg.TLY_T_STAT id) F.TLY_T_STAT_SCOPE

/-- The boundary of tally `id`. -/
def tyTarget (s : State) (id : Nat) : Nat := (rd s (Reg.TLY_T_TGT_LO id)).toNat + 2 ^ 32 * (rd s (Reg.TLY_T_TGT_HI id)).toNat

/-- Set the boundary of tally `id`. -/
def setTyTarget (s : State) (id n : Nat) : State :=
  wr (wr s (Reg.TLY_T_TGT_LO id) (BitVec.ofNat 32 n)) (Reg.TLY_T_TGT_HI id) (BitVec.ofNat 32 (n / 2 ^ 32))

/-- The transaction and the member mask of tally `id`. -/
def tyXid (s : State) (id : Nat) : Nat := (rd s (Reg.TLY_T_XID id)).toNat
def tyMask (s : State) (id : Nat) : Nat := rget s (Reg.TLY_T_MEMBERS id) F.TLY_T_MEMBERS_MASK

/-- The tally IDs. -/
def tallyIds : List Nat := List.range 16

/-- The shadow records of the device (R248). -/
def shadowRecords : Nat := 262144

/-- The record of the shadow memory that word `k` of global SRAM belongs to: the memory is the top 512 KiB of each bank
(Table 01-9), 32,768 records of 16 bytes a bank, in the order of the banks (DEDUCED: log entry 143). -/
def shadowSlot (k : Nat) : Option Nat :=
  let at' := k / 128 * 64 + k % 16 * 4
  if at' < 0x380000 then none else some (k / 16 % 8 * 32768 + (at' - 0x380000) / 16)

/-- The `n` lowest records of the shadow memory from `k` on that are not in use. -/
def freeSlots (used : List Nat) : Nat → Nat → List Nat
  | 0, _ => []
  | n + 1, k => if used.contains k then freeSlots used n (k + 1) else k :: freeSlots used n (k + 1)

/-- The shadow records in use. -/
def usedSlots (s : State) : List Nat := tallyIds.flatMap (fun id => (tallyAt s id).recs.map (fun r => r.slot))

/-- Records take the lowest shadow records that are free (R248; DESIGN CHOICE, log entry 143). -/
def placeRecords (s : State) (rs : List TallyRec) : List TallyRec :=
  let used := usedSlots s
  rs.zipWith (fun r k => { r with slot := k }) (freeSlots used (used.length + rs.length) 0)

/-- A record whose `j`-th word is written: the layout of Table 12-8 (R438). -/
def rewriteRecord (r : TallyRec) (j : Nat) (w : Word) : TallyRec :=
  let t := r.kind * 2 ^ 60 + r.target
  let put (t : Nat) : TallyRec := { r with kind := t / 2 ^ 60, target := t % 2 ^ 60 }
  match j with
  | 0 => put (t / 2 ^ 32 * 2 ^ 32 + w.toNat)
  | 1 => put (w.toNat * 2 ^ 32 + t % 2 ^ 32)
  | 2 => { r with mask := w }
  | _ => { r with data := w }

/-- Change the tallies that hold the shadow record of a word of global SRAM. -/
def onShadow (s : State) (k : Nat) (f : Tally → Nat → Tally) : State :=
  match shadowSlot k with
  | none => s
  | some n =>
    forEach (tallyIds.filter (fun id => (tallyAt s id).recs.any (fun r => r.slot == n))) s
      (fun s id => setTally s id (f (tallyAt s id) n))

/-- A word written into the shadow memory by a burst changes the record that lies there (R44). -/
def shadowWrite (s : State) (k : Nat) (w : Word) : State :=
  onShadow s k (fun t n => { t with recs := t.recs.map (fun r => if r.slot = n then rewriteRecord r (k % 4) w else r) })

/-- An uncorrectable error in a word of the shadow memory makes the records of its tally bad (Table 07-3). -/
def shadowBad (s : State) (k : Nat) : State := onShadow s k (fun t _ => { t with eccBad := true })

/-- TLY_SHADOW_FREE and the RECORDS registers follow the records held. -/
def countRecords (s : State) (id : Nat) : State :=
  let s := rput s (Reg.TLY_T_REC id) F.TLY_T_REC_RECORDS (tallyAt s id).recs.length
  rput s Reg.TLY_SHADOW_FREE F.TLY_SHADOW_FREE_RECORDS
    (shadowRecords - (tallyIds.map (fun i => (tallyAt s i).recs.length)).foldl (· + ·) 0)

/-- A tally becomes FREE and its records are released (R247, R260). -/
def freeTally (s : State) (id : Nat) : State := countRecords (setTally (setTyState s id tyFree) id (tallyReset id)) id

/-- The outcome of a stored tally that the supervisor waits for is noted (R518). -/
def noteStored (s : State) (id : Nat) (ok : Bool) : State :=
  match s.boot.loadTally with
  | some (i, none) => if i = id then { s with boot := { s.boot with loadTally := some (id, some ok) } } else s
  | _ => s

/-- The outcome of a tally in TLY_LAST (1: applied; 2: applied late; 3: aborted), and in the event log where PERST_N fell
while it was not FREE (R260, R261). -/
def tallyOutcome (s : State) (id outcome cause : Nat) : State :=
  let s := rput (rput s Reg.TLY_LAST F.TLY_LAST_ID id) Reg.TLY_LAST F.TLY_LAST_CAUSE cause
  let s := noteStored (rset (rput s Reg.TLY_LAST F.TLY_LAST_OUTCOME outcome) Reg.TLY_LAST F.TLY_LAST_VALID) id (outcome != 3)
  if (tallyAt s id).perst then recordEvent s 0x0A40 0x3FF false (id + 256 * cause + 4096 * outcome) else s

/-- Whether a message that awaits its ACK is of tally `id`. -/
def waitOfTally (id : Nat) (w : BarWait) : Bool :=
  match w.use with
  | .param i _ => i == id
  | .tally i => i == id
  | _ => false

/-- The die that received PARAMs of an aborted tally is told to discard them (R263). -/
def discardOn (s : State) (d : Die) (id : Nat) : State :=
  let b := barAt s d
  let s := setBar s d { b with waits := b.waits.filter (fun w => !waitOfTally id w) }
  barCmd s d 2 id [tyTarget s id] .other

/-- This member's vote on a transaction goes to the coordinator: to its own file where it is the coordinator (R266). -/
def castVote (s : State) (xid : Nat) (yes : Bool) (mask n : Nat) : State :=
  if isStkMaster s then { s with stk := { s.stk with votes := s.stk.votes ++ [⟨xid, myId s, yes, mask, n⟩] } }
  else stkAsk (stkAnswered s smVote xid) (masterId s) smVote xid [xid, mask + 2 ^ 8 * b2n yes + 2 ^ 16 * n]

/-- The vote of a tally's part. -/
def sendVote (s : State) (id : Nat) (yes : Bool) : State :=
  castVote s (tyXid s id) yes (tyMask s id) (tyTarget s id % 2 ^ 48)

/-- A part that aborts before its decision votes no (R266); SCOPE is set only once a commit is accepted. -/
def voteNo (s : State) (id cause : Nat) : State :=
  let st := tyState s id
  if tyStack s id && cause != acStack && (st == tyPrepared || st == tyOpen) then
    sendVote s id false
  else s

/-- A tally aborts with a cause (R260): its records go, its commit completes, its dies discard, a part votes no; `rz` raises a source. -/
def dropTallyWith (rz : State → Nat → Nat → Nat → State) (s : State) (id cause : Nat) : State :=
  let t := tallyAt s id
  let s := voteNo s id cause
  let s := if t.sentA then discardOn s .a id else s
  let s := if t.sentB then discardOn s .b id else s
  let s := tallyOutcome s id 3 cause
  let s := finishOpt s t.commit stTallyAborted cause
  let s := finishOpt s t.abortRef stOk 0
  let s := radd (rset s Reg.TLY_STAT F.TLY_STAT_ABORTED) Reg.TLY_ABORT_CNT F.TLY_ABORT_CNT_COUNT 1
  let s := freeTally s id
  if cause = acHost then s else rz s 0x280 id cause

/-- A tally that fails at its decision point: a stack-scope part is a split (R268). -/
def failPartWith (rz : State → Nat → Nat → Nat → State) (s : State) (id cause : Nat) : State :=
  if tyStack s id then
    let s := rz (rset s Reg.TLY_STAT F.TLY_STAT_SPLIT) 0x283 id cause
    let s := if isStkMaster s then s else stkSend s (masterId s) smSplit [tyXid s id, cause]
    dropTallyWith rz s id cause
  else dropTallyWith rz s id cause

/-- A tally whose field records cannot take effect aborts with cause FIELD (R262, R268, R337). -/
def failFieldWith (rz : State → Nat → Nat → Nat → State) (s : State) (id : Nat) : State :=
  if tyState s id = tyAccepted ∨ tyState s id = tyInDoubt then failPartWith rz s id acField else dropTallyWith rz s id acField

/-- The tallies with a PARAM that a die has not acknowledged. -/
def unacked (s : State) (d : Die) : List Nat :=
  tallyIds.filter (fun id => (barAt s d).waits.any (fun w => match w.use with | .param i _ => i == id | _ => false))

/-- Whether the tally engine is fenced: master M11 is (R482). -/
def tallyFenced (s : State) : Bool := ron s Reg.MTX_FENCE_M ⟨11, 1⟩

/-- A fence of the tally engine discards every tally that is not FREE (R482). -/
def dropAllWith (rz : State → Nat → Nat → Nat → State) (s : State) : State :=
  forEach (tallyIds.filter (fun id => tyState s id != tyFree)) s (fun s id => dropTallyWith rz s id acReset)

end Sys2Proof.Machine
end

