-- ==== Sys2Proof/Machine/Faults.lean ====
section
/-! DEFINITION. Raising a fault source with all its reactions: the fences and block resets of the owning units, the carry
of source FAULT, and the routes and tallies that a fence takes with it (R476 to R482, R272). -/

namespace Sys2Proof.Machine
open Sys2Proof

/-- The instance of a record to which none applies (Table 14-7). -/
def noInst : Nat := 0x3FF

/-! ## Owning units (Table 14-5) -/

/-- The owning unit of a source raised with an instance, if it has one; a rod's code is its number. -/
def owningUnit (id inst : Nat) : Option Nat :=
  if 0x1C0 ≤ id ∧ id ≤ 0x1FF then some (id - 0x1C0)
  else if 0x140 ≤ id ∧ id ≤ 0x17F then some (unitTdm ((id - 0x140) / 4))
  else if 0x180 ≤ id ∧ id ≤ 0x1AF then some (unitBph (id % 16))
  else if 0x300 ≤ id ∧ id ≤ 0x33F then some (unitNet ((id - 0x300) / 8))
  else if 0x340 ≤ id ∧ id ≤ 0x37F then some unitStr
  else if 0x200 ≤ id ∧ id ≤ 0x202 then some unitBus
  else if (id = 0x220 ∨ id = 0x221) ∧ inst < 64 then some (unitRoute inst)
  else if 0x240 ≤ id ∧ id ≤ 0x27F then some unitDelay
  else if 0x380 ≤ id ∧ id ≤ 0x3BF then some (unitBar .a)
  else if 0x3C0 ≤ id ∧ id ≤ 0x3FF then some (unitBar .b)
  else if 0x4C0 ≤ id ∧ id ≤ 0x4C7 then some (unitStk (id % 4))
  else if 0x520 ≤ id ∧ id ≤ 0x52F ∧ id ≠ 0x529 ∧ id ≠ 0x52A then some (unitMaster (id - 0x520))
  else if 0x580 ≤ id ∧ id ≤ 0x5BF then some unitMgt
  else none

/-- Whether a unit must stay fenced: some source whose mask held FENCE when it was raised still has STATUS 1 (R482). -/
def unitHeld (s : State) (u : Nat) : Bool := s.collector.fencers.any (fun f => f.1 == u && statusOf s f.2)

/-- The routes that a port takes with it when it leaves RUNNING (R226). -/
def portLeftWith (rz : State → Nat → Nat → Nat → State) (s : State) (p : Nat) : State :=
  forEach (lostRoutes s p) s (fun s r => rz (loseRoute s r) 0x220 r 0)

/-- Fence TDM port `n`, and biphase receiver and transmitter `n`, with what they take along (R119, R120, R226). -/
def fenceTdmWith (rz : State → Nat → Nat → Nat → State) (s : State) (n : Nat) : State := fenceTdm (portLeftWith rz s n) n
def fenceBphWith (rz : State → Nat → Nat → Nat → State) (s : State) (n : Nat) : State :=
  followLockWith rz (fenceBph (portLeftWith rz s (16 + n)) n) n

/-- Fencing M14 fences every audio port (R482). -/
def fencePorts (rz : State → Nat → Nat → Nat → State) (s : State) : State :=
  forEach (List.range 16) s (fun s n => fenceBphWith rz (fenceTdmWith rz s n) n)

/-- Fence a unit (Table 14-5). -/
def fenceUnit (rz : State → Nat → Nat → Nat → State) (s : State) (u : Nat) : State :=
  match u / 256 with
  | 0 => rodFence s u
  | 1 => fenceTdmWith rz s (u % 256)
  | 2 => fenceBphWith rz s (u % 256)
  | 3 => netFence s (u % 256)
  | 4 => strFence rz s
  | 5 => busFence s
  | 6 => routeFence s (u % 256)
  | 7 => delayFence s
  | 8 => barFence s (if u % 256 = 0 then .a else .b)
  | 9 => rset s (Reg.STK_LINK_STAT (u % 256)) F.STK_LINK_STAT_FENCED
  | 10 =>
    let s := rset s Reg.MTX_FENCE_M ⟨u % 256, 1⟩
    if u % 256 = 11 then dropAllWith rz s else if u % 256 = 14 then fencePorts rz s else s
  | _ => rset s Reg.MGT_STAT F.MGT_STAT_FENCED

/-- A stack link retrains (Table 14-5): one that was not TRAINING has changed state (R452), and its neighbour is unknown. -/
def stkRetrainWith (rz : State → Nat → Nat → Nat → State) (s : State) (l : Nat) : State :=
  let was := rget s (Reg.STK_LINK_STAT l) F.STK_LINK_STAT_STATE != 1
  let s := wr s (Reg.STK_LINK_STAT l) (fldPut F.STK_LINK_STAT_STATE 1 0)
  let s := { s with stk := { s.stk with peers := mapErase s.stk.peers l, far := mapErase s.stk.far l } }
  if was then rz s (0x4C0 + l) l 0 else s

/-- BLOCK_RESET of a link engine: one that was UP loses its link and raises BAR source index 0x04 (R337), the tallies with an
unacknowledged PARAM fail (R262), and what waited for an ACK or a reply is told so (log entry 163). -/
def resetBarWith (rz : State → Nat → Nat → Nat → State) (s : State) (d : Die) : State :=
  let was := barLink s d == lkUp
  let waits := (barAt s d).waits
  let late := unacked s d
  let s := barBlockReset (rclr s (Reg.BAR_STAT (dieNum d)) F.BAR_STAT_FENCED) d
  let s := forEach late s (failFieldWith rz)
  let s := forEach waits s waitLost
  if was then rz s (0x384 + 0x40 * dieNum d) noInst 0 else s

/-- Return a unit to its reset state, unfenced (Table 14-5); a bus master has no BLOCK_RESET. -/
def resetUnit (rz : State → Nat → Nat → Nat → State) (s : State) (u : Nat) : State :=
  match u / 256 with
  | 0 => rodEmpty s u
  | 1 => resetTdm (portLeftWith rz s (u % 256)) (u % 256)
  | 2 => followLockWith rz (resetBph (portLeftWith rz s (16 + u % 256)) (u % 256)) (u % 256)
  | 3 => netBlockReset rz s (u % 256)
  | 4 => strRestart (strBlockReset (rclr s Reg.STR_STAT F.STR_STAT_FENCED))
  | 5 => busBlockReset (rclr s Reg.MIX_STAT F.MIX_STAT_FENCED)
  | 6 =>
    let r := u % 256
    let s := routeBlockReset s r
    setRoute s r { routeAt s r with fenced := false }
  | 7 => clearLines (rclr s Reg.DLY_STAT F.DLY_STAT_FENCED)
  | 8 =>
    resetBarWith rz s (if u % 256 = 0 then .a else .b)
  | 9 => stkRetrainWith rz s (u % 256)
  | 10 => s
  | _ => mgtBlockReset (rclr s Reg.MGT_STAT F.MGT_STAT_FENCED)

/-- The FENCE or BLOCK_RESET reaction of a raise on its owning unit (R482). -/
def reactUnit (rz : State → Nat → Nat → Nat → State) (s : State) (id inst : Nat) : State :=
  let m := maskOf s id
  match owningUnit id inst with
  | none => s
  | some u =>
    if bitOf m 3 && u / 256 != 10 then
      let s := resetUnit rz s u
      { s with collector := { s.collector with
                fencers := s.collector.fencers.filter (fun f => f.1 != u), inReset := u :: s.collector.inReset } }
    else if bitOf m 2 then
      fenceUnit rz { s with collector := { s.collector with fencers := (u, id) :: s.collector.fencers } } u
    else s

/-- The carry of source FAULT, in the cycle in which the collector receives the source: before anything it brings about
(Table 07-5). -/
def reactCarry (rz : State → Nat → Nat → Nat → State) (s : State) (id : Nat) : State :=
  let m := rget s Reg.SNP_FLT F.SNP_FLT_MASK
  if carryEnabled s csFault && (id &&& m) == (rget s Reg.SNP_FLT F.SNP_FLT_MATCH &&& m) then fireWith rz s csFault 0 else s

/-- One raise with its datum: the carry it fires, its record and reactions, and its owning unit's; `rz` raises what it brings
about. The second copy of its mask is compared with the mask (R484). -/
def raiseBody (rz : State → Nat → Nat → Nat → State) (forced : Bool) (s : State) (id inst datum : Nat) : State :=
  let s := compareWord s (maskKey id)
  let s := latch (if s.collector.selfTripBusy then s else reactCarry rz s id) id inst datum forced
  if s.collector.selfTripBusy then s else reactUnit rz s id inst

/-- A raise with the raises it brings about, `k` deep; a source that does not exist cannot be raised (R474). -/
def raiseN : Nat → Bool → State → Nat → Nat → Nat → State
  | 0, forced, s, id, inst, d => latch s id inst (faultDatum s id inst d) forced
  | k + 1, forced, s, id, inst, d =>
    if sourceExists s id then raiseBody (raiseN k false) forced s id inst (faultDatum s id inst d) else s

/-- Raise a source (R476); in a boundary's cycle it waits for the others of the cycle. -/
def raise (s : State) (id inst d : Nat) : State :=
  if !sourceExists s id then s
  else match s.collector.held with
  | none => raiseN 3 false s id inst d
  | some _ => hold s ⟨some id, 0, inst, faultDatum s id inst d⟩

/-- Raise a source as FLT_FORCE does (R486). -/
def raiseForced (s : State) (id inst d : Nat) : State := raiseN 3 true s id inst d

/-- A boundary's cycle begins: what it raises is gathered (R476, R494). -/
def gatherRaises (s : State) : State := { s with collector := { s.collector with held := some [] } }

/-- What was gathered, with the sources first, in ascending order. -/
def inOrder (l : List HeldEvent) : List HeldEvent :=
  l.foldr (fun e acc => acc.takeWhile (beforeHeld e) ++ e :: acc.dropWhile (beforeHeld e)) []

/-- The cycle's raises are handled in ascending source ID, and its other events after them (R476, R494). -/
def flushRaises (s : State) : State :=
  let l := s.collector.held.getD []
  forEach (inOrder l) { s with collector := { s.collector with held := none } } (fun s e =>
    match e.source with
    | some id => raiseBody (raiseN 2 false) false s id e.inst e.datum
    | none => recordEvent s e.code e.inst false e.datum)

/-- Abort a tally (R260). -/
def abortTally (s : State) (id cause : Nat) : State := dropTallyWith raise s id cause

/-- The engaged routes of a port that leaves RUNNING disengage, and MIX source 0x220 is raised for each (R226). -/
def portLeft (s : State) (p : Nat) : State := portLeftWith raise s p

/-- A receiver's reference candidate follows its LOCK (R120). -/
def followLock (s : State) (n : Nat) : State := followLockWith raise s n

/-! ## The supervisor's restart (R475) -/

/-- The supervisor runs and does not restart. -/
def supervisorRuns (s : State) : Bool := s.boot.supervisor && !s.boot.restarting

/-- The servo starts again: every port that takes part listens, and none is a slave (R303, R475). -/
def restartServo (s : State) : State :=
  let part (p : Nat) : Bool := ron s Reg.NET_PTP_CTRL F.NET_PTP_CTRL_EN && ron s (Reg.NET_PTP_PORT p) F.NET_PTP_PORT_EN
  forEach ((List.range 8).filter part) (wr s Reg.NET_PTP_SLV 0) (fun s p => rput s (Reg.NET_PTP_PORT p) F.NET_PTP_PORT_STATE 1)

/-- The supervisor restarts and raises source `id`: a discovery in progress waits anew, the servo starts again, the commits
wait, and no other unit is reset. It runs again at SUPERVISOR_START (log entry 164). -/
def restartSupervisor (s : State) (id : Nat) : State :=
  let s := restartServo { s with
    boot := { s.boot with restarting := true }
    stk := { s.stk with discover := s.stk.discover.map (fun _ => s.time.cnt) }
    mgt := { s.mgt with refreshed := false } }
  raise s id noInst 0

/-! ## Host interface errors -/

/-- Hold the first HIF error (Table 12-14). -/
def holdHifError (s : State) (qp kind addr : Nat) : State :=
  if ron s Reg.HIF_ERR_INFO F.HIF_ERR_INFO_VALID then s
  else
    let s := rput (rput s Reg.HIF_ERR_INFO F.HIF_ERR_INFO_QP qp) Reg.HIF_ERR_INFO F.HIF_ERR_INFO_TYPE kind
    let s := rset s Reg.HIF_ERR_INFO F.HIF_ERR_INFO_VALID
    wr (wr s Reg.HIF_ERR_ADDR_LO (BitVec.ofNat 32 addr)) Reg.HIF_ERR_ADDR_HI (BitVec.ofNat 32 (addr / 2 ^ 32))

/-- An input buffer that cannot be read: HIF source 0x482, and the descriptor completes with INVALID_PARAM (R437). -/
def inputFailed (s : State) (d : DescRef) (addr : Nat) : State :=
  finish (raise (holdHifError s d.qp 1 addr) 0x482 d.qp 0) d stInvalidParam 0

/-- Take an input buffer of `n` bytes read from `addr`, or fail the descriptor (R437). -/
def withInput (s : State) (d : DescRef) (addr n : Nat) (data : Option (List Byte)) (f : State → List Byte → State) :
    State :=
  match data with
  | none => inputFailed s d addr
  | some bs => f s (bytesAt bs 0 n)

end Sys2Proof.Machine
end

