-- ==== Sys2Proof/Machine/Bus.lean ====
section
/-! DEFINITION. What the bus matrix does with a request before it arbitrates, and the host's accesses to BAR0 through
target T20 (R46, R47, R53, R54). -/

namespace Sys2Proof.Machine
open Sys2Proof

/-- The priority of a master at a target (R47). -/
def priorityOf (s : State) (m t : Nat) : Nat :=
  if m < 8 then rget s (Reg.MTX_PRI_LO t) ⟨4 * m, 4⟩ else rget s (Reg.MTX_PRI_HI t) ⟨4 * (m - 8), 4⟩

/-- The bytes behind a target (Table 01-7, Table 15-1). -/
def targetSize (t : Nat) : Nat :=
  if t < 8 then 2097152 else if t < 16 then 4194304 else if t < 20 then 536870912
  else if t = 20 then 1048576 else if t = 21 then 67108864 else if t = 22 then 262144 else 2 ^ 32

/-- Whether a master is fenced (R53). -/
def masterFenced (s : State) (m : Nat) : Bool := ron s Reg.MTX_FENCE_M ⟨m, 1⟩

/-- Capture an error and count it (Table 01-14). -/
def captureError (s : State) (m t kind : Nat) : State :=
  let s := radd s Reg.MTX_ERR_CNT F.MTX_ERR_CNT_COUNT 1
  if ron s Reg.MTX_ERR_INFO F.MTX_ERR_INFO_VALID then s
  else
    let s := rput (rput s Reg.MTX_ERR_INFO F.MTX_ERR_INFO_MASTER m) Reg.MTX_ERR_INFO F.MTX_ERR_INFO_TARGET t
    rset (rput s Reg.MTX_ERR_INFO F.MTX_ERR_INFO_TYPE kind) Reg.MTX_ERR_INFO F.MTX_ERR_INFO_VALID

/-- A request completes with an error (R53, R54): a decode error raises its source with the address. -/
def requestFails (s : State) (m t addr kind : Nat) : State :=
  let s := captureError s m t kind
  if kind = 1 then raise s 0x530 noInst (addr % 2 ^ 32) else s

/-- The error with which a request completes at once, if any: 1 decode, 3 master fenced, 4 target fenced (R47, R53). Which
one is reported where several apply is this model's choice: a fenced master before a fenced target before a decode error
(DESIGN CHOICE, log entry 97). -/
def requestError (s : State) (m t last : Nat) : Nat :=
  if masterFenced s m then 3
  else if ron s Reg.MTX_FENCE_T ⟨t, 1⟩ && m != 10 then 4
  else if priorityOf s m t = 0 ∨ targetSize t < last then 1
  else 0

/-- Whether the host's accesses reach the register space: M9 is not fenced, T20 is not, and their pair is enabled. -/
def barOpen (s : State) : Bool := requestError s 9 20 0 == 0

/-- A command that is an access of the host to BAR0 at address `a`: M9's request at T20, which completes with an error and
no effect where the pair is disabled or fenced (R46, R47, R53). -/
def onBar (s : State) (a : Nat) (f : State → State) : Out :=
  onHost s (fun s => if barOpen s then f s else requestFails s 9 20 a (requestError s 9 20 0))

end Sys2Proof.Machine
end

