-- ==== Sys2Proof/Machine/Fabric.lean ====
section
/-! DEFINITION. Writes to the sample fabric, missing beads and the boundary that closes a period's beads (R101 to R105). -/

namespace Sys2Proof.Machine
open Sys2Proof

/-- A write discarded because its unit is not the channel's owner (R101). -/
def nonOwner (s : State) (c : Nat) : State :=
  let s := rset s Reg.FAB_STAT F.FAB_STAT_NONOWNER
  let s := rput s Reg.FAB_NONOWNER F.FAB_NONOWNER_LAST_CH c
  raise (radd s Reg.FAB_NONOWNER F.FAB_NONOWNER_COUNT 1) 0x100 c 0

/-- A late write, discarded (R101). -/
def lateWrite (s : State) (c : Nat) : State := raise (rset s Reg.FAB_STAT F.FAB_STAT_LATE) 0x101 c 0

/-! ## The engines' requests to the matrix (R46, R47, R53)

What an engine does whose request completes with an error is this model's choice: a write is lost, a read of a bead gives
zeros, and the error is captured once for each 64-byte line (DESIGN CHOICE, log entry 108). -/

/-- The bus master that carries a producer class's writes; the mix matrix has its private port (R45, Table 01-10). -/
def producerMaster (cls inst : Nat) : Option Nat :=
  if cls = clTdm ∨ cls = clBph ∨ cls = clAsrc then some 14
  else if cls = clStream then some 8
  else if cls = clRod then some (inst / 8)
  else if cls = clDelay then some 12
  else if cls = clStack then some 15
  else if cls = clSense then some 13
  else none

/-- The target that holds a word of the fabric, and the byte there (R44). -/
def fabTarget (s : State) (b c j : Nat) : Nat := 8 + beadWord s b c j / 16 % 8
def fabByte (s : State) (b c j : Nat) : Nat := beadWord s b c j / 128 * 64 + beadWord s b c j % 16 * 4

/-- The target that holds a word of DRAM, and the byte there (log entry 70). -/
def dramTarget (w : Nat) : Nat := 16 + w / 2 ^ 27 % 4
def dramByte (w : Nat) : Nat := 4 * (w % 2 ^ 27)

/-- The error with which an engine's access of a fabric word completes, or 0; and of a DRAM word. -/
def fabError (s : State) (m b c j : Nat) : Nat := requestError s m (fabTarget s b c j) 0
def dramError (s : State) (m w : Nat) : Nat := requestError s m (dramTarget w) 0

/-- The matrix refuses a word of the bead that master `m` writes on channel `c` in this period, which stays unwritten. -/
def fabRefuses (s : State) (m c : Nat) : Bool :=
  running s && (List.range (blk s)).any (fun j => fabError s m (writeBuf s) c j != 0)

/-- An engine's access of sample `j` of a bead: its error, if any, is captured at the first sample of each line. -/
def noteAccess (s : State) (m b c j : Nat) : State :=
  let k := fabError s m b c j
  if k = 0 ∨ j % 16 ≠ 0 then s else requestFails s m (fabTarget s b c j) (fabByte s b c j) k

/-- An engine's access of a DRAM word. -/
def noteDram (s : State) (m w : Nat) : State :=
  let k := dramError s m w
  if k = 0 then s else requestFails s m (dramTarget w) (dramByte w) k

/-- Sample `j` of channel `c` as an engine reads it through the matrix. -/
def busSample (s : State) (m c j : Nat) : Word := if fabError s m (readBuf s) c j = 0 then readSample s c j else 0

/-- A whole bead as an engine reads it. -/
def busBead (s : State) (m c : Nat) : List Word := (List.range (blk s)).map (busSample s m c)

/-- The errors of reading a whole bead. -/
def noteBead (s : State) (m c : Nat) : State :=
  forEach (List.range (blk s)) s (fun s j => noteAccess s m (readBuf s) c j)

/-! ## Writes -/

/-- A producer's write of sample `j` of channel `c` into buffer `b`, checked as R101 says; while the pipeline is stopped
no producer writes beads (R57). -/
def fabWriteAt (s : State) (cls inst c b j : Nat) (w : Word) (repaired : Bool) : State :=
  let m := producerMaster cls inst
  if m.any (fun m => fabError s m b c j != 0) then noteAccess s (m.getD 0) b c j
  else if !owns s cls inst c then nonOwner s c
  else if b ≠ writeBuf s then lateWrite s c
  else if !running s then s
  else
    let x := chanAt s c
    let s := gsSet s (beadWord s b c j) w
    setChan s c { x with written := x.written ||| 2 ^ j, repaired := x.repaired || repaired }

/-- A producer's write in the buffer of this period. -/
def fabWrite (s : State) (cls inst c j : Nat) (w : Word) (repaired : Bool) : State :=
  fabWriteAt s cls inst c (writeBuf s) j w repaired

/-- Write a whole bead in the buffer of this period. -/
def fabWriteBead (s : State) (cls inst c : Nat) (ws : List Word) : State :=
  (ws.foldl (fun (acc : State × Nat) w => (fabWrite acc.1 cls inst c acc.2 w false, acc.2 + 1)) (s, 0)).1

/-- Count a missing bead and raise its source (R102). -/
def countMissing (s : State) (c : Nat) (poisoned : Bool) : State :=
  let s := radd s Reg.FAB_MISS_CNT F.FAB_MISS_CNT_COUNT 1
  let s := if poisoned then rset s Reg.FAB_STAT F.FAB_STAT_POISON else s
  raise (rset s Reg.FAB_STAT F.FAB_STAT_MISSING) (if poisoned then 0x103 else 0x102) c 0

/-- The bead of buffer `b` a consumer finds poisoned is missing from then on (R42, R102). -/
def poisonBead (s : State) (b c : Nat) : State :=
  let i := beadAt s b c
  if i.tag = 3 ∨ (i.tag = 2 ∧ i.miss ≠ 0) then s
  else countMissing (setBead s b c (missingInfo s (beadAt s ((b + 3) % 4) c) i.first)) c true

/-- A parity error in the tag memory of a buffer: its tags read FILLED (Table 03-5); what its beads read as stays. -/
def tagParity (s : State) (b : Nat) : State :=
  let s := forEach (List.range 1024) s (fun s c =>
    let i := beadAt s b c
    setBead s b c (if i.tag = 3 then { i with tag := 2, miss := max 2 i.miss, fade := 256 } else { i with tag := 2 }))
  raise s 0x104 noInst (s.grid.index % 2 ^ 32)

/-- A missing bead found at the boundary; those of periods that began while the pipeline was stopped are neither counted
nor raised (R57). -/
def noteMissing (s : State) (c : Nat) (poisoned : Bool) : State :=
  if running s then countMissing s c poisoned else s

/-- Close channel `c`'s bead at the boundary that ends the period (R102 to R105); a remote bead keeps its owner's tag
(R467). The sample h that fills a later missing bead is the last one as delivered, after the ramp of R105 (DESIGN CHOICE,
log entry 151). -/
def closeBead (s : State) (c : Nat) : State :=
  let b := writeBuf s
  let prev := beadAt s ((b + 3) % 4) c
  let x := chanAt s c
  if (ownerOf s c).1 = 0 then setBead s b c ⟨3, prev.hold, 0, 0, 256, false⟩
  else
    let poisoned := beadPoisoned s b c
    if x.declared || decide (x.written ≠ 2 ^ blk s - 1) || poisoned then
      noteMissing (setBead s b c (missingInfo s prev x.restart)) c poisoned
    else
      let ramp :=
        if !ron s Reg.FAB_CTRL F.FAB_CTRL_RESUME_RAMP then 256
        else if prev.tag ≥ 2 then 0
        else min 256 (prev.ramp + blk s)
      let far := x.tag.getD 0
      let i : BeadInfo := if 2 ≤ far then ⟨far, 0, 0, 0, 256, x.restart⟩
        else ⟨if x.repaired ∨ ramp < 256 then 1 else far, 0, 0, 0, ramp, x.restart⟩
      let s := setBead s b c i
      setBead s b c { i with hold := beadSample s b c (blk s - 1) }

/-- Close every bead of the period and start the next one with nothing written. -/
def closeBeads (s : State) : State :=
  { (List.range 1024).foldl closeBead s with chans := [] }

/-- The start of the pipeline clears the four buffers; every bead is SILENT and holds zero (R57). -/
def clearFabric (s : State) : State :=
  let kept (a : Nat) : Bool := decide (4096 * blk s ≤ a)
  { s with gsram := mapKeep kept s.gsram, poison := mapKeep kept s.poison, beads := [], chans := [] }

/-! ## Commands -/

/-- A write to the fabric region by a unit, or by the host or the supervisor (none), which never own a channel (R101). -/
def execFabricWrite (owner : Option (Fin 10 × Fin 4096)) (ch : Fin 1024) (buf : Fin 4) (j : Fin 32) (w : Word)
    (s : State) : Out :=
  onHost s (fun s =>
    if j.val ≥ blk s then s
    else match owner with
      | none => nonOwner s ch
      | some o => fabWriteAt s o.1 o.2 ch buf j w false)

/-- Writing FAB_MISS_CNT.CLR clears the count (R134). -/
def hostFabMissClr (w : Word) (s : State) : State :=
  if fldGet F.FAB_MISS_CNT_CLR w = 1 then rclr s Reg.FAB_MISS_CNT F.FAB_MISS_CNT_COUNT else s

/-- The access itself, through the bus matrix. -/
def execFabMissClr (w : Word) (s : State) : Out := onBar s Reg.FAB_MISS_CNT (fun s => hostFabMissClr w s)

end Sys2Proof.Machine
end

