-- ==== Sys2Proof/Machine/Reals.lean ====
section
/-! DEFINITION. The irrational functions of the field dies' formulas, in 2^-80: gains from decibels and back, square
roots, and sines (R390, R397, R408; log entry 31). -/

namespace Sys2Proof.Machine
open Sys2Proof

/-- A number in units of 2^-80, rounded down, and back. -/
def toFix (q : Rat) : Int := (q * 2 ^ 80).floor
def ofFix (x : Int) : Rat := mkRat x (2 ^ 80)

/-- Terms of the exponential series of -x: the term so far and the index of the next. -/
def expTerms : Nat → Int → Int → Int → Int → Int
  | 0, _, _, _, acc => acc
  | n + 1, x, term, k, acc =>
    let term := -(term * x) / (2 ^ 80 * k)
    expTerms n x term (k + 1) (acc + term)

/-- exp(-x) for x in 2^-80, 0 ≤ x < 12. -/
def expNeg (x : Int) : Int := expTerms 96 x (2 ^ 80) 1 (2 ^ 80)

/-- ln 10 in 2^-80. -/
def ln10Fix : Int := 2783654570780253816072539

/-- 10^(-cut / 20) of a cut in dB. -/
def dbGain (cut : Rat) : Rat :=
  if cut = 0 then 1 else ofFix (expNeg (toFix cut * ln10Fix / (20 * 2 ^ 80)))

/-- Terms of the series of artanh: the odd powers of y over their index. -/
def artanhTerms : Nat → Int → Int → Int → Int → Int
  | 0, _, _, _, acc => acc
  | n + 1, y2, p, k, acc => artanhTerms n y2 (p * y2 / 2 ^ 80) (k + 2) (acc + p / k)

/-- ln of a number m in 2^-80, 1 ≤ m ≤ 2. -/
def lnUnit (m : Int) : Int :=
  let y := (m - 2 ^ 80) * 2 ^ 80 / (m + 2 ^ 80)
  2 * artanhTerms 28 (y * y / 2 ^ 80) y 1 0

/-- ln 2 in 2^-80. -/
def ln2Fix : Int := 837963523372001241319908

/-- log10 of a positive number. -/
def log10 (q : Rat) : Rat :=
  let n := q.num.natAbs
  let e : Int := (Nat.log2 n : Int) - Nat.log2 q.den
  let m := if e ≥ 0 then q / 2 ^ e.toNat else q * 2 ^ (-e).toNat
  let (m, e) := if m < 1 then (m * 2, e - 1) else (m, e)
  mkRat (lnUnit (toFix m) + e * ln2Fix) 1 / ln10Fix

/-- The cut in dB that a gain up to 1 stands for; a gain of 0 is a cut beyond every report. -/
def cutOf (g : Rat) : Rat := if g ≤ 0 then 1000 else -20 * log10 g

/-- sin and cos of 2π t / n, in 2^-80, for any t. -/
def sinTurn (t n : Nat) : Int :=
  let t := 4 * (t % n) % (4 * n)
  let quarter (x : Nat) : Int := cosFix (n - x) (2 * n)
  if t ≤ n then quarter t else if t ≤ 2 * n then quarter (2 * n - t)
  else if t ≤ 3 * n then -quarter (t - 2 * n) else -quarter (4 * n - t)
def cosTurn (t n : Nat) : Int := sinTurn (4 * t + n) (4 * n)

/-- An integer square root by digits: the largest r with r² ≤ x, for x < 4^bits. -/
def rootDigits : Nat → Nat → Nat → Nat
  | 0, _, r => r
  | b + 1, x, r => let t := r + 2 ^ b; rootDigits b x (if t * t ≤ x then t else r)
def intRoot (x : Nat) : Nat := rootDigits (Nat.log2 x / 2 + 1) x 0

/-- A number rounded to the nearest integer, halves up. -/
def nearest (q : Rat) : Int := (q + mkRat 1 2).floor

end Sys2Proof.Machine
end

