-- ==== Sys2Proof/Machine/FieldBase.lean ====
section
/-! DEFINITION. The field dies: their registers, channels and messages, their reset, the gates and what holds them
(R326 to R331, R339, R355, R371 to R373, R379, R404, R417). -/

namespace Sys2Proof.Machine
open Sys2Proof

/-! ## Dies and their registers -/

/-- A die. -/
def dieAt (s : State) (d : Die) : FieldDie :=
  match d with
  | .a => s.dieA
  | .b => s.dieB

/-- Replace a die. -/
def setDie (s : State) (d : Die) (x : FieldDie) : State :=
  match d with
  | .a => { s with dieA := x }
  | .b => { s with dieB := x }

/-- The row of a field-die address, found in its own block (R330). -/
def fieldRow (a : Nat) : Option RegRow :=
  if a < 0x1000 then findRow rows09_10 a else if a < 0x2000 then findRow rows10_8 a
  else if a < 0x3000 then findRow rows11_8 a else findRow rows11_9 a

/-- What a field-die register that nothing has written holds: its value after the die's reset. -/
def fieldReset (a : Nat) : Word :=
  match fieldRow a with
  | none => 0
  | some r => rowReset r

/-- A stored field-die register, and its fields. -/
def frd (s : State) (d : Die) (a : Nat) : Word := mapGet fieldReset (dieAt s d).regs a
def fwr (s : State) (d : Die) (a : Nat) (w : Word) : State :=
  setDie s d { dieAt s d with regs := mapSet fieldReset (dieAt s d).regs a w }
def fget (s : State) (d : Die) (a : Nat) (f : Fld) : Nat := fldGet f (frd s d a)
def fgetI (s : State) (d : Die) (a : Nat) (f : Fld) : Int := fldGetInt f (frd s d a)
def fon (s : State) (d : Die) (a : Nat) (f : Fld) : Bool := fget s d a f != 0
def fput (s : State) (d : Die) (a : Nat) (f : Fld) (v : Nat) : State := fwr s d a (fldPut f v (frd s d a))
def fputI (s : State) (d : Die) (a : Nat) (f : Fld) (v : Int) : State := fput s d a f (wrapTo f.width (satInt f.width v))
def fbit (s : State) (d : Die) (a : Nat) (f : Fld) (b : Bool) : State := fput s d a f (b2n b)
def fadd (s : State) (d : Die) (a : Nat) (f : Fld) (n : Nat) : State := fput s d a f (satNat f.width (fget s d a f + n))

/-- What reading a field-die register answers: FLD_ID names its own die. -/
def fieldRead (s : State) (d : Die) (a : Nat) : Word :=
  if a = Reg.FLD_ID then fldPut F.FLD_ID_DIE (dieNum d) (frd s d a) else frd s d a

/-- The channels of a die. -/
def fchans : List Nat := List.range 32

/-- Legs and models at rest. -/
def legOff : Leg := ⟨none, false, false, none⟩
def coneRest : Cone := ⟨0, 0, 0⟩
def demodZero : Demod := ⟨0, 0, 0, 0⟩

/-- A channel after the die's reset: T_c = T_m = T_a, which T_AMB gives as 25 °C (R386). -/
def chanZero (_ : Nat) : FieldChan where
  hold := 0
  pos := 0
  held := 0
  idle := 0
  good := 0
  armed := false
  run := 0
  crc := 0
  comp := false
  driven := false
  ctrl := 0x00960418
  dt := 0x28282828
  quiet := 100
  legA := legOff
  legB := legOff
  edges := []
  per := 2000
  back := none
  tripAt := none
  soft := 0
  start := 256
  hist := []
  err := []
  us := []
  usPrev := []
  pendPer := none
  pendDuty := none
  duePer := none
  dueDuty := none
  dueLone := false
  dueNext := false
  agePer := 0
  ageDuty := 0
  tallyPer := none
  tallyDuty := none
  rawPer := 2000
  rawDuty := 0
  missing := 0
  err0 := []
  safeOff := false
  latched := false
  tc := 25
  tm := 25
  sumI := 0
  cutC := 0
  cutP := 0
  env := 0
  gx := 1
  gs := 1
  xOne := 0
  sOne := 0
  trim := 0
  sumE := 0
  sumS := 0
  out := coneRest
  pred := coneRest
  ref := coneRest
  iq := 0
  dcOut := 0
  dcStr := 0
  dcOutRun := 0
  dcStrRun := 0
  limited := false
  window := []
  limits := 0
  checkAt := none
  dueHost := false
  dueAuto := false
  check := none
  pilot := demodZero
  pilotOk := false
  cuts := []
  zpil := none
  meas := none
  clsRun := 0
  sweep := none
  xpk := 0
  vs2 := 0
  is2 := 0
  nRms := 0
  limCnt := 0

/-- A channel. -/
def fch (s : State) (d : Die) (c : Nat) : FieldChan := mapGet chanZero (dieAt s d).chans c

/-- Replace a channel. -/
def setFch (s : State) (d : Die) (c : Nat) (x : FieldChan) : State :=
  setDie s d { dieAt s d with chans := mapSet chanZero (dieAt s d).chans c x }

/-- A die after its power-on or undervoltage reset (R23, R355): UNSEALED, everything as the tables give it. -/
def dieReset (on uv : Bool) : FieldDie := { fieldDieReset with on := on, uv := uv }

/-! ## The die's numbers -/

/-- The sample rate and the block length the last HEARTBEAT gave (R333), by the codes of SYS_BLKCFG. -/
def dieFs (s : State) (d : Die) : Nat :=
  match (dieAt s d).fs with
  | 0 => 48000
  | 1 => 96000
  | _ => 192000
def dieBlk (s : State) (d : Die) : Nat := 4 * 2 ^ (dieAt s d).blkCode

/-- Die states (R355). -/
def fdUnsealed : Nat := 0
def fdSafe : Nat := 1
def fdActive : Nat := 2
def fdForced : Nat := 3
def fldState (s : State) (d : Die) : Nat := fget s d Reg.FLD_STAT F.FLD_STAT_STATE
def setFldState (s : State) (d : Die) (st : Nat) : State := fput s d Reg.FLD_STAT F.FLD_STAT_STATE st

/-- Stream states of a channel (R355). -/
def fcOff : Nat := 0
def fcOwn : Nat := 1
def fcTwin : Nat := 2
def fcHold : Nat := 3
def fcFade : Nat := 4
def fcIdle : Nat := 5
def fcLossSafe : Nat := 6
def fcState (s : State) (d : Die) (c : Nat) : Nat := fget s d (Reg.FLD_CHSTATE (c / 8)) ⟨4 * (c % 8), 4⟩

/-- Set a channel's stream state; FLD_USING_TWIN follows. -/
def setFcState (s : State) (d : Die) (c st : Nat) : State :=
  fput (fput s d (Reg.FLD_CHSTATE (c / 8)) ⟨4 * (c % 8), 4⟩ st) d Reg.FLD_USING_TWIN ⟨c, 1⟩ (b2n (st == fcTwin))

/-- Gate states of a channel (R379). -/
def pwDisabled : Nat := 0
def pwRunning : Nat := 1
def pwTripped : Nat := 2
def pwRearming : Nat := 3
def pwRaw : Nat := 4
def pwState (s : State) (d : Die) (c : Nat) : Nat := fget s d (Reg.PWM_CH_STAT c) F.PWM_CH_STAT_STATE
def setPwState (s : State) (d : Die) (c st : Nat) : State := fput s d (Reg.PWM_CH_STAT c) F.PWM_CH_STAT_STATE st

/-- Twinning and ROLE (R345). -/
def twinEn (s : State) (d : Die) : Bool := fon s d Reg.FLD_TWIN_CTRL F.FLD_TWIN_CTRL_EN
def isShadow (s : State) (d : Die) : Bool := twinEn s d && fon s d Reg.FLD_TWIN_CTRL F.FLD_TWIN_CTRL_ROLE
def twinUp (s : State) (d : Die) : Bool := fon s d Reg.FLD_TWIN_STAT F.FLD_TWIN_STAT_TWIN_UP

/-- Ticks of PWM_CLK in a carrier period, by CARRIER (Table 10-2). -/
def carrierN (code : Nat) : Nat := match code with | 0 => 2000 | 1 => 4000 | _ => 1000
def pwmN (s : State) (d : Die) : Nat := fget s d Reg.PWM_DIE_STAT F.PWM_DIE_STAT_N

/-- Carrier periods in a sample (R358). -/
def periodsPerSample (s : State) (d : Die) : Nat := 1536000000 / dieFs s d / pwmN s d

/-- The full-scale count F of a channel's MODE (R359). -/
def fullScale (s : State) (d : Die) (c : Nat) : Nat :=
  let h := pwmN s d / 2
  if fon s d (Reg.PWM_CH_CTRL c) F.PWM_CH_CTRL_MODE then h / 2 - 32 else h - 32

/-- F / H of a channel. -/
def fOverH (s : State) (d : Die) (c : Nat) : Rat := mkRat (fullScale s d c) (pwmN s d / 2)

/-- A Q1.31 word as a number. -/
def q31Rat (w : Word) : Rat := mkRat w.toInt (2 ^ 31)

/-! ## The requantizer (R358, R359) -/

/-- r(j): the four-bit reversal of the dither index. -/
def ditherRank (j : Nat) : Nat := ([0, 8, 4, 12, 2, 10, 6, 14, 1, 9, 5, 13, 3, 11, 7, 15] : List Nat).getD (j % 16) 0

/-- The quantizer on w in 2^-20 ticks. -/
def quantize (dither : Bool) (j : Nat) (w : Int) : Int :=
  if dither then
    let i := w / 2 ^ 20
    let f := (w % 2 ^ 20 * 16 / 2 ^ 20).toNat
    if f > ditherRank j then i + 1 else i
  else (w + 2 ^ 19) / 2 ^ 20

/-- One carrier period: the errors before it, newest first, and its input; answers u and the errors after it. -/
def requantStep (dither : Bool) (j : Nat) (err : List Int) (v : Int) : Int × List Int :=
  let e (i : Nat) : Int := err.getD i 0
  let w := v - 5 * e 0 + 10 * e 1 - 10 * e 2 + 5 * e 3 - e 4
  let u := quantize dither j w
  (u, ((u * 2 ^ 20 - w) :: err).take 5)

/-- A coefficient of the interpolator: a linear-phase FIR whose group delay is two input samples, so it is symmetric about
place 2l (R358; DEDUCED, log entry 32). -/
def firCoeff (l n : Nat) : Rat := if 4 * l < n then 0 else Config.firTap l (min n (4 * l - n))

/-- The channel's input signal two samples before period `m` of the newest sample (R358); `hist` is newest first. -/
def interpolated (hist : List Word) (l m : Nat) : Rat :=
  (List.range 5).foldl (fun y i => y + firCoeff l (i * l + m) * q31Rat (hist.getD i 0)) 0

/-- s = y × F in 2^-20 ticks (R359; its rounding: log entry 33). -/
def scaled (f : Nat) (y : Rat) : Int :=
  let v := y * f * 2 ^ 20
  let n : Int := v.floor
  if v = (n : Rat) then n else if Config.roundUp v then n + 1 else n

/-- The `l` carrier periods of a sample; `m` counts them and `j` gives their dither indices. -/
def requantRun (dither : Bool) (j : Nat → Nat) (l f : Nat) (hist : List Word) : Nat → Nat → List Int → List Int × List Int
  | 0, _, err => ([], err)
  | n + 1, m, err =>
    let (u, err) := requantStep dither (j m) err (scaled f (interpolated hist l m))
    let (us, err) := requantRun dither j l f hist n (m + 1) err
    (u :: us, err)

/-- The outputs of a channel's newest sample, from the errors before it, under given dither indices. -/
def requantWith (s : State) (d : Die) (c : Nat) (j : Nat → Nat) : State :=
  let x := fch s d c
  let l := periodsPerSample s d
  let (us, err) := requantRun (fon s d Reg.PWM_DIE_CTRL F.PWM_DIE_CTRL_DITHER) j l (fullScale s d c) x.hist l 0 x.err0
  setFch s d c { x with us := us, err := err }

/-- The dither index in reference period `m` of the present sample: 0 while the die has never been ACTIVE (R361; log
entry 146). -/
def ditherAt (s : State) (d : Die) (m : Nat) : Nat := if (dieAt s d).jOn then (dieAt s d).j + m else 0

/-- A channel's interpolator and requantizer take a sample (R358). -/
def requantSample (s : State) (d : Die) (c : Nat) (w : Word) : State :=
  let x := fch s d c
  let s := setFch s d c { x with hist := (w :: x.hist).take 5, usPrev := x.us, err0 := x.err }
  requantWith s d c (ditherAt s d)

/-! ## Messages from the die (R328 to R331, R336, R346) -/

/-- Whether the die's FAULT messages can be sent: the link is UP and the host die answers (R336, R337). -/
def faultsPass (s : State) (d : Die) : Bool := s.powered && barUp s d

/-- Send a message upstream. -/
def upSend (s : State) (d : Die) (type argA argB : Nat) (payload : List Nat) : State :=
  let x := dieAt s d
  let seq := (x.txSeq + 1) % 65536
  sendOut (setDie s d { x with txSeq := seq }) (.barUp d (barMessage type argA argB seq payload))

/-- Send a message on the twin lanes. -/
def twinSend (s : State) (d : Die) (type argA argB : Nat) (payload : List Nat) : State :=
  let x := dieAt s d
  let seq := (x.twinSeq + 1) % 65536
  sendOut (setDie s d { x with twinSeq := seq }) (.twin d (barMessage type argA argB seq payload))

/-- Send a FAULT message: source index, channel (0xFF: the die), sample index and datum. -/
def faultSend (s : State) (d : Die) (f : Nat × Nat × Nat × Nat) : State :=
  upSend s d btFault f.1 f.2.1 [f.2.2.1 % 2 ^ 48, f.2.2.2 % 2 ^ 32]

/-- The sample index of an event: that of the last tick (R336). -/
def dieIndex (s : State) (d : Die) : Nat := ((dieAt s d).tick.getD 1) - 1

/-- Raise an FLD source: its FAULT is sent or queued; the queue holds 32 (R336, R354). -/
def fldRaise (s : State) (d : Die) (idx ch datum : Nat) : State :=
  let f := (idx, ch, dieIndex s d, datum)
  let x := dieAt s d
  if faultsPass s d && x.faults.isEmpty then faultSend s d f
  else if x.faults.length < 32 then setDie s d { x with faults := x.faults ++ [f] }
  else setDie s d { x with lost := x.lost + 1, overflow := true }

/-- Send the queued FAULTs once the link is UP, and report an overflow (R336). -/
def faultFlush (s : State) (d : Die) : State :=
  if !faultsPass s d then s
  else
    let fs := (dieAt s d).faults
    let s := forEach fs (setDie s d { dieAt s d with faults := [] }) (fun s f => faultSend s d f)
    if (dieAt s d).overflow then
      fldRaise (setDie s d { dieAt s d with overflow := false }) d 0x0E 0xFF (dieAt s d).lost
    else s

/-- Answer a message with an ACK (R331). -/
def ackSend (s : State) (d : Die) (ws : List Nat) (result : Nat) : State := upSend s d btAck (msgSeq ws) result []

/-- ACK results (Table 09-3). -/
def akAccepted : Nat := 0
def akNotWritable : Nat := 1
def akSealLimit : Nat := 2
def akStagingFull : Nat := 3
def akTooLate : Nat := 4
def akUnknown : Nat := 5
def akSealed : Nat := 6
def akState : Nat := 7
def akBadArgument : Nat := 8

/-! ## Gates (R371 to R373, R404) -/

/-- The bits of PRT_CHc_STAT that are protection latches (Table 11-2). -/
def latchBits (s : State) (d : Die) (c : Nat) : Nat := (frd s d (Reg.PRT_CH_STAT c)).toNat % 64

/-- The latches that hold a channel's gates: a running check exempts CH_SHORT (R402). -/
def latchHolds (s : State) (d : Die) (c : Nat) : Bool :=
  if (fch s d c).check.isSome then latchBits s d c % 4 + latchBits s d c / 8 != 0 else latchBits s d c != 0

/-- Every gate condition of R373 but the latches. -/
def gateOthers (s : State) (d : Die) (c : Nat) : Bool :=
  fldState s d == fdActive && !isShadow s d &&
    (pwState s d c == pwRaw ||
      (pwState s d c == pwRunning && fcState s d c != fcOff && fcState s d c != fcLossSafe))

/-- Every gate condition of R373. -/
def gateOk (s : State) (d : Die) (c : Nat) : Bool := gateOthers s d c && !latchHolds s d c

/-- A channel's gates go low: the period's remaining edges do not occur. -/
def cutGates (s : State) (d : Die) (c : Nat) : State :=
  let x := fch s d c
  let s := setFch s d c { x with driven := false, legA := legOff, legB := legOff }
  if x.driven then sendOut s (.gatesLow d c) else s

/-- Gates low, and reported so; that they ran until this tick is kept for a trip in it (R370). -/
def gatesOff (s : State) (d : Die) (c : Nat) : State :=
  let on := fon s d (Reg.PWM_CH_STAT c) F.PWM_CH_STAT_GATES_ON
  let s := fbit (cutGates s d c) d (Reg.PWM_CH_STAT c) F.PWM_CH_STAT_GATES_ON false
  if on then setFch s d c { fch s d c with safeOff := true } else s

/-- Gates low from tick `t` of the period on (R370). -/
def cutGatesAt (s : State) (d : Die) (c t : Nat) : State :=
  let x := fch s d c
  cutGates (setFch s d c { x with edges := x.edges.filter (fun e => decide (e.1 < t)) }) d c

/-- SAFE_N is low while every channel's four gates are low (R339). -/
def dieSafe (s : State) (d : Die) : Bool := fchans.all (fun c => !(fch s d c).driven)

/-- A channel enters LOSS_SAFE (R340). -/
def enterLossSafe (s : State) (d : Die) (c : Nat) : State :=
  if fcState s d c = fcLossSafe then s
  else
    let x := fch s d c
    let s := setFch s d c { x with pos := 0, good := 0, armed := false }
    fldRaise (setFcState s d c fcLossSafe) d 0x01 c 0

/-- Every gate goes low at once, and the channels stand in LOSS_SAFE (R339). -/
def safeNow (s : State) (d : Die) : State :=
  let s := forEach fchans s (fun s c => gatesOff s d c)
  forEach (fchans.filter (fun c => fcState s d c != fcOff)) s (fun s c => enterLossSafe s d c)

/-- Whether an event of R339 holds the die safe: its channels do not re-arm. -/
def eventSafe (s : State) (d : Die) : Bool :=
  (dieAt s d).clkBad || (dieAt s d).rodBad || fldState s d == fdForced

/-- PWM_DIE_STAT.J: the dither index in the present reference period (R361). -/
def showJ (s : State) (d : Die) : State :=
  fput s d Reg.PWM_DIE_STAT F.PWM_DIE_STAT_J (ditherAt s d (dieAt s d).period % 16)

/-- The die enters ACTIVE within a sample: its dither index counts from the present reference period on (R361), for the
later periods of the sample too. -/
def enterActive (s : State) (d : Die) : State :=
  let x := dieAt s d
  let p := x.period
  let old := ditherAt s d
  let s := setDie s d { x with j := (16 - p % 16) % 16, jOn := true }
  let s := forEach (fchans.filter (fun c => !(fch s d c).us.isEmpty)) s
    (fun s c => requantWith s d c (fun m => if m ≤ p then old m else m - p))
  showJ (setFldState s d fdActive) d

/-- The die enters ACTIVE at a sample's tick, before the tick's samples are quantized (R361, R372). -/
def enterActiveAt (s : State) (d : Die) : State :=
  showJ (setFldState (setDie s d { dieAt s d with j := 0, jOn := true }) d fdActive) d

/-- The reference period that a valley or a tick lies in (R361). -/
def setPeriod (s : State) (d : Die) (m : Nat) : State := showJ (setDie s d { dieAt s d with period := m }) d

/-- The die leaves the safe state of an event when nothing holds it any more: to ACTIVE if RUN, else SAFE (R372). -/
def leaveSafe (s : State) (d : Die) : State :=
  if eventSafe s d || fldState s d == fdUnsealed then s
  else
    let s := forEach (fchans.filter (fun c => fcState s d c != fcOff)) s (fun s c =>
      setFch (setFcState s d c fcLossSafe) d c { fch s d c with pos := 0, good := 0 })
    if fon s d Reg.PWM_DIE_CTRL F.PWM_DIE_CTRL_RUN then enterActive s d else setFldState s d fdSafe

/-! ## The twin's status (R346, R353) -/

/-- ARG_A of TWIN_STATUS (Table 09-7). -/
def twinFlags (s : State) (d : Die) : Nat :=
  fget s d Reg.FLD_TWIN_CTRL F.FLD_TWIN_CTRL_ROLE + 2 * b2n (dieSafe s d) + 4 * b2n (twinEn s d)
    + 8 * fget s d Reg.FLD_TWIN_STAT F.FLD_TWIN_STAT_CONFLICT

/-- The channels that received VALID own samples at the last tick. -/
def ownValid (s : State) (d : Die) : Nat :=
  (dieAt s d).own.foldl (fun m x => if x.k = dieIndex s d % 2 ^ 48 then m ||| x.valid * 2 ^ (16 * x.half) else m) 0

/-- SCK0 to SCK3 run while PWM_CLK does, and stand low while the PLL has no reference (R383, R561). -/
def sckRuns (s : State) (d : Die) : Bool := (dieAt s d).on && fget s d Reg.FLD_STAT F.FLD_STAT_PLL_REF != 3

/-- SCK0 to SCK3 start or stop where the state `u` of `s` differs in that. -/
def sckFollow (s u : State) (d : Die) : State :=
  if sckRuns u d = sckRuns s d then u else sendOut u (.sck d (sckRuns u d))

/-- Send TWIN_STATUS. -/
def twinStatusSend (s : State) (d : Die) : State := twinSend s d btTwinStatus (twinFlags s d) 0 [ownValid s d]

/-- What follows every event on a die that made state `u` of `s`: queued FAULTs go once they can, and a change of anything
in the die's TWIN_STATUS is sent at once (R336, R346); SCK0 to SCK3 follow the clock (R383). -/
def settleDie (s u : State) (d : Die) : State :=
  let v := sckFollow s (faultFlush u d) d
  if twinFlags v d ≠ twinFlags s d ∨ ownValid v d ≠ ownValid s d then twinStatusSend v d else v

/-- A die that is on this variant and has power. -/
def dieHere (s : State) (d : Die) : Bool := diePresent s d && (dieAt s d).on

/-- Answer the next state of an event on a field die: nothing happens to a die that is absent or unpowered (log entry
3). -/
def onDie (s : State) (d : Die) (f : State → State) : Out :=
  .next (if dieHere s d then settleDie s (f s) d else s)

end Sys2Proof.Machine
end

