-- ==== Sys2Proof/Machine/FieldRx.lean ====
section
/-! DEFINITION. What a field die accepts from its barrier: the checks of a message, samples, heartbeats, staged records,
seals and the commands of Table 09-4 (R327 to R333, R336, R342 to R344, R347, R406, R566). -/

namespace Sys2Proof.Machine
open Sys2Proof

/-! ## Accepting a message (R327, R329) -/

/-- LEN, the bits of ARG_B and the bits of w0 that a CMD code uses (Tables 09-4, 10-6 and 11-5); none: not defined. -/
def cmdShape (code : Nat) : Option (Nat × Nat × Nat) :=
  match code with
  | 0x0001 => some (1, 0xFF, lowMask 64)
  | 0x0002 => some (1, 0xFF, lowMask 64)
  | 0x0003 => some (1, 0, lowMask 48)
  | 0x0004 => some (0, 0, 0)
  | 0x0005 => some (0, 0, 0)
  | 0x0006 => some (1, 0, lowMask 16)
  | 0x0007 => some (1, 0, 0xFFFFFFFF0000FFFF)
  | 0x0100 => some (1, 0, lowMask 32)
  | 0x0101 => some (1, 0, 0xFFFFFFFF0000003F)
  | 0x0102 => some (1, 0, lowMask 32)
  | 0x0200 => some (1, 0, lowMask 48)
  | 0x0201 => some (0, 0, 0)
  | 0x0202 => some (1, 0, lowMask 35)
  | 0x0203 => some (1, 0, lowMask 32)
  | _ => none

/-- A downstream message has its type's LEN and no reserved bit set (R327, Table 09-2). -/
def downShape (ws : List Nat) : Bool :=
  ws.length == msgLen ws + 1 &&
  match msgType ws with
  | 1 => msgLen ws == 9 && onlyBits (msgArgB ws) 1
  | 2 => msgLen ws == 3 && onlyBits (msgArgB ws) 15
  | 3 =>
    match cmdShape (msgArgA ws) with
    | none => true
    | some (len, argB, w0) => msgLen ws == len && onlyBits (msgArgB ws) argB && onlyBits (msgW ws 0) w0
  | 4 => msgLen ws == 1 && onlyBits (msgArgB ws) 1 && onlyBits (msgW ws 0) (lowMask 32)
  | 5 => msgLen ws == 2 && onlyBits (msgArgA ws) 31 && msgArgB ws == 0 && onlyBits (msgW ws 1) (lowMask 32)
  | _ => false

/-- A twin-lane message has its type's LEN and no reserved bit set (R346, Table 09-7). -/
def twinShape (ws : List Nat) : Bool :=
  ws.length == msgLen ws + 1 &&
  match msgType ws with
  | 13 => msgLen ws == 9 && onlyBits (msgArgB ws) 1
  | 14 => msgLen ws == 10 && msgArgA ws == 0 && onlyBits (msgArgB ws) 1 && onlyBits (msgW ws 1) (lowMask 48)
  | 15 => msgLen ws == 1 && onlyBits (msgArgA ws) 15 && msgArgB ws == 0 && onlyBits (msgW ws 0) (lowMask 32)
  | _ => false

/-- What R329 makes of a message after the last accepted one: accepted with the messages lost before it, or not. -/
def seqVerdict (last : Option (Nat × List Nat)) (seq : Nat) : Option Nat :=
  match last with
  | none => some 0
  | some (s, _) =>
    let d := (seq + 65536 - s) % 65536
    if 1 ≤ d ∧ d ≤ 32768 then some (d - 1) else none

/-- Count messages discarded or lost (R327, R329). -/
def countDiscard (s : State) (d : Die) (n : Nat) : State := fadd s d Reg.FLD_CNT_DISCARD F.FLD_CNT_DISCARD_COUNT n

/-- A second copy whose words differ from the accepted one counts as a lane mismatch (R329). -/
def laneDiffers (s : State) (d : Die) (twin : Bool) (ws : List Nat) : State :=
  let x := dieAt s d
  match if twin then x.twinRx else x.rx with
  | none => s
  | some (seq, first) =>
    if seq ≠ msgSeq ws ∨ first = ws then s
    else setDie s d (if twin then { x with twinDiffers := x.twinDiffers + 1 } else { x with differs := x.differs + 1 })

/-- The CMDs noted before a message of SEQ `seq` is accepted, less those whose SEQ has come round again. -/
def didBefore (x : FieldDie) (seq : Nat) : List (Nat × Nat) :=
  match x.rx with
  | none => x.did
  | some (s, _) =>
    let ahead (q : Nat) : Nat := (q + 65536 - s) % 65536
    x.did.filter (fun e => ahead e.1 = 0 || decide (ahead seq < ahead e.1))

/-- Take one copy of a message from a pair of lanes: whether it is accepted (R327, R329). -/
def fieldAccept (s : State) (d : Die) (twin : Bool) (ws : List Nat) : State × Bool :=
  if !msgCrcOk ws then (fadd s d Reg.FLD_CNT_CRC F.FLD_CNT_CRC_COUNT 1, false)
  else if !(if twin then twinShape ws else downShape ws) then (countDiscard s d 1, false)
  else
    let x := dieAt s d
    match seqVerdict (if twin then x.twinRx else x.rx) (msgSeq ws) with
    | none => (laneDiffers s d twin ws, false)
    | some lost =>
      let here := some (msgSeq ws, ws)
      let s := setDie s d
        (if twin then { x with twinRx := here } else { x with rx := here, did := didBefore x (msgSeq ws) })
      (if lost = 0 then s else countDiscard s d lost, true)

/-- A message arrives at a field die from one downstream lane. `mine` says whether it is of the command's kind; a
well-formed message of another kind is another command (log entry 3). -/
def onDown (s : State) (d : Die) (ws : List Nat) (mine : List Nat → Bool) (f : State → State) : Out :=
  onDie s d (fun s =>
    if msgCrcOk ws && downShape ws && !mine ws then s
    else
      let (s, ok) := fieldAccept s d false ws
      if ok then f s else s)

/-- A message arrives from one twin lane. -/
def onTwin (s : State) (d : Die) (ws : List Nat) (type : Nat) (f : State → State) : Out :=
  onDie s d (fun s =>
    if msgCrcOk ws && twinShape ws && msgType ws != type then s
    else
      let (s, ok) := fieldAccept s d true ws
      if ok then f s else s)

/-- A message of a type, and a CMD of a code. -/
def isType (t : Nat) (ws : List Nat) : Bool := msgType ws == t
def isCmd (code : Nat) (ws : List Nat) : Bool := msgType ws == btCmd && msgArgA ws == code

/-- The result of the earlier copy of a CMD, where the die acted on one: the host die sends a CMD again with another SEQ
(R331; log entry 113). A READ is answered each time. -/
def repeatOf (s : State) (d : Die) (m : CmdCopy) : Option Nat :=
  if msgArgA m.words = 6 then none
  else ((dieAt s d).did.find? (fun x => m.copies.contains x.1)).map (fun x => x.2)

/-- Note the SEQ and the result of a CMD. -/
def noteDid (s : State) (d : Die) (m : CmdCopy) (r : Nat) : State :=
  setDie s d { dieAt s d with did := (dieAt s d).did ++ [(msgSeq m.words, r)] }

/-- A CMD arrives; `f` acts on it and gives its ACK result. A repeated one has the effect of one (R331). -/
def onCmd (s : State) (d : Die) (code : Nat) (m : CmdCopy) (f : State → State × Nat) : Out :=
  onDown s d m.words (isCmd code) (fun s =>
    match repeatOf s d m with
    | some r => ackSend (noteDid s d m r) d m.words r
    | none => let (s, r) := f s; ackSend (noteDid s d m r) d m.words r)

/-! ## Samples and heartbeats (R329, R333, R347) -/

/-- The number of channels a VALID mask names. -/
def countBits (m : Nat) : Nat := ((List.range 16).filter (bitOf m)).length

/-- The samples of a SAMPLES or TWIN_SAMPLES message. -/
def sampleMsg (ws : List Nat) : SampleMsg :=
  ⟨bitsOf (msgW ws 0) 0 48, msgArgB ws % 2, msgArgA ws, bitsOf (msgW ws 0) 48 16,
    (List.range 16).map (fun i => bitsOf (msgW ws (1 + i / 2)) (32 * (i % 2)) 32)⟩

/-- A message's samples wait for their tick; late ones are counted and not used (R333). -/
def takeSamples (s : State) (d : Die) (twin : Bool) (ws : List Nat) : State :=
  let m := sampleMsg ws
  let x := dieAt s d
  match x.tick with
  | none => s
  | some k =>
    if !fromSample m.k k then fadd s d Reg.FLD_CNT_LATE F.FLD_CNT_LATE_COUNT (countBits m.valid)
    else
      let keep := (if twin then x.twin else x.own).filter (fun y => !(y.k == m.k && y.half == m.half))
      setDie s d (if twin then { x with twin := keep ++ [m] } else { x with own := keep ++ [m] })

/-- SAMPLES: a shadow whose barrier is UP forwards it unchanged (R347). -/
def execSamples (d : Die) (ws : List Nat) (s : State) : Out :=
  onDown s d ws (isType btSamples) (fun s =>
    let s := takeSamples s d false ws
    if isShadow s d && barUp s d then twinSend s d btTwinSamples (msgArgA ws) (msgArgB ws) ws.tail else s)

/-- BARRIER_HEARTBEAT: block, rate, block length and epoch; the ticks align to sample 0 of the bead before (R333). -/
def execBarrierHeartbeat (d : Die) (ws : List Nat) (s : State) : Out :=
  onDown s d ws (isType btHeartbeat) (fun s =>
    let x := dieAt s d
    let n := msgW ws 0
    let s := setDie s d { x with
      beats := ((n, bitsOf (msgW ws 1) 0 32) :: x.beats).take 3
      beatNew := true
      fs := min 2 (bitsOf (msgArgA ws) 1 2)
      blkCode := bitsOf (msgArgA ws) 3 2
      missed := 0
      tick := some ((n - 1) * (4 * 2 ^ bitsOf (msgArgA ws) 3 2)) }
    fbit s d Reg.FLD_STAT F.FLD_STAT_HOST_LOST false)

/-! ## Sealed limits (R342 to R344, R406) -/

/-- A sealed field: its place, whether its safe direction is up, whether it is signed, and its tightest value. -/
structure Limit where
  fld : Fld
  up : Bool
  sgn : Bool
  tight : Int
  deriving DecidableEq, Repr

/-- The sealed fields of a register (Table 11-3). -/
def limitsOf (a : Nat) : List Limit :=
  if a = Reg.PRT_PS_SHUT then
    [⟨F.PRT_PS_SHUT_PS_SHUT, false, true, 1120⟩, ⟨F.PRT_PS_SHUT_PS_MAXCUT, true, false, 255⟩]
  else if 0x2100 ≤ a ∧ a < 0x2500 then
    match (a - 0x2100) % 0x20 with
    | 0x01 => [⟨F.PRT_CH_OC_OC_THR, false, false, 100⟩, ⟨F.PRT_CH_OC_SHORT_N, false, false, 1⟩]
    | 0x03 => [⟨F.PRT_CH_TSHUT_T_SHUT, false, true, 640⟩, ⟨F.PRT_CH_TSHUT_MAX_CUT, true, false, 255⟩]
    | 0x09 => [⟨F.PRT_CH_XLIM_XLIM, false, false, 100⟩]
    | 0x0A => [⟨F.PRT_CH_DC_DC_THR, false, false, 10⟩, ⟨F.PRT_CH_DC_DC_TIME, false, false, 10⟩]
    | 0x0C => [⟨F.PRT_CH_VOUT_VOUT_MAX, false, false, 100⟩]
    | _ => []
  else []

/-- The registers that hold sealed fields. -/
def limitRegs : List Nat :=
  Reg.PRT_PS_SHUT :: (fchans.map (fun c => [Reg.PRT_CH_OC c, Reg.PRT_CH_TSHUT c, Reg.PRT_CH_XLIM c, Reg.PRT_CH_DC c,
    Reg.PRT_CH_VOUT c])).flatten

/-- A limit's value in a word. -/
def limitVal (l : Limit) (w : Word) : Int := if l.sgn then fldGetInt l.fld w else (fldGet l.fld w : Int)

/-- The first value lies beyond the second against the safe direction. -/
def looser (l : Limit) (w s : Word) : Bool :=
  if l.up then decide (limitVal l w < limitVal l s) else decide (limitVal l w > limitVal l s)

/-- A value lies beyond the tightest one, on the safe side (R406). -/
def pastTight (l : Limit) (w : Word) : Bool :=
  if l.up then decide (limitVal l w > l.tight) else decide (limitVal l w < l.tight)

/-- The sealed value S of a register. -/
def sealOf (s : State) (d : Die) (a : Nat) : Word := mapGet fieldReset (dieAt s d).seals a
def setSeal (s : State) (d : Die) (a : Nat) (w : Word) : State :=
  setDie s d { dieAt s d with seals := mapSet fieldReset (dieAt s d).seals a w }

/-- Copy some limits of a word into another. -/
def copyLimits (ls : List Limit) (src dst : Word) : Word :=
  ls.foldl (fun w l => fldPut l.fld (fldGet l.fld src) w) dst

/-- Every sealed field at its tightest value. -/
def allTightest (s : State) (d : Die) : Bool :=
  limitRegs.all (fun a => (limitsOf a).all (fun l => limitVal l (sealOf s d a) == l.tight))

/-- A SEAL sets S and W; the last one seals the die, which leaves UNSEALED for SAFE (R342, R343). -/
def sealStep (s : State) (d : Die) (a : Nat) (last : Bool) (w : Word) : State × Nat :=
  let ls := limitsOf a
  if fon s d Reg.FLD_STAT F.FLD_STAT_SEALED then (s, akSealed)
  else if ls.isEmpty then (s, akNotWritable)
  else if ls.any (fun l => pastTight l w) then (s, akBadArgument)
  else
    let s := setSeal s d a (copyLimits ls w (sealOf s d a))
    let s := fwr s d a (copyLimits ls w (frd s d a))
    if last then
      let s := fbit (fbit s d Reg.FLD_STAT F.FLD_STAT_SEALED true) d Reg.FLD_STAT F.FLD_STAT_DEFAULT_SEAL (allTightest s d)
      (setFldState s d fdSafe, akAccepted)
    else (s, akAccepted)

/-- SEAL (R342, R343). -/
def execSealMsg (d : Die) (ws : List Nat) (s : State) : Out :=
  onDown s d ws (isType btSeal) (fun s =>
    let (s, r) := sealStep s d (msgArgA ws) (bitOf (msgArgB ws) 0) (BitVec.ofNat 32 (msgW ws 0))
    ackSend s d ws r)

/-- SEAL_TIGHTEN: S moves only in the safe direction, and W with it (R344, R406). -/
def execSealTighten (d : Die) (m : CmdCopy) (s : State) : Out :=
  let ws := m.words
  onCmd s d 7 m (fun s =>
    let a := bitsOf (msgW ws 0) 0 16
    let w : Word := BitVec.ofNat 32 (bitsOf (msgW ws 0) 32 32)
    let ls := limitsOf a
    if ls.isEmpty then (s, akNotWritable)
    else if ls.any (fun l => pastTight l w) then (s, akBadArgument)
    else if ls.any (fun l => looser l w (sealOf s d a)) then (s, akSealLimit)
    else if !fon s d Reg.FLD_STAT F.FLD_STAT_SEALED then (s, akState)
    else
      let s := setSeal s d a (copyLimits ls w (sealOf s d a))
      (fwr s d a (copyLimits (ls.filter (fun l => looser l (frd s d a) w)) w (frd s d a)), akAccepted))

/-! ## Records (R331, R343, R355, R362, R374, R566) -/

/-- The word a record makes of a register: RW bits take the data under the mask, W1C bits clear where it writes 1. -/
def recWordOf (row : RegRow) (old mask data : Word) : Word :=
  writeFields row.fields false old ((old &&& ~~~mask &&& ~~~(accessMask row.fields [.w1c])) ||| (data &&& mask))

/-- The word a record makes of a register of a die. -/
def recResult (s : State) (d : Die) (r : StagedRec) : Word :=
  match fieldRow r.addr with
  | none => 0
  | some row => recWordOf row (frd s d r.addr) r.mask r.data

/-- A record's register as the record leaves it, without what that brings about: the projection of R566. -/
def recProject (s : State) (d : Die) (r : StagedRec) : State := fwr s d r.addr (recResult s d r)

/-- A binary32 word is finite. -/
def finiteWord (w : Word) : Bool := bitsOf w.toNat 23 8 != 255

/-- The value's range (BAD_ARGUMENT): Tables 10-8, 11-8 and 11-9. -/
def rangeOk (s : State) (d : Die) (a : Nat) (w : Word) : Bool :=
  if a = Reg.PWM_DIE_CTRL then fldGet F.PWM_DIE_CTRL_CARRIER w != 3
  else if a = Reg.PRT_PS_FOLD then decide (fldGetInt F.PRT_PS_FOLD_PS_FOLD w < fldGetInt F.PRT_PS_FOLD_PS_MAX w)
  else if a = Reg.DIAG_CTRL then
    decide (20 ≤ fldGet F.DIAG_CTRL_PILOT_LVL w ∧ fldGet F.DIAG_CTRL_PILOT_LVL w ≤ 80 ∧
      10 ≤ fldGet F.DIAG_CTRL_SWEEP_LVL w ∧ fldGet F.DIAG_CTRL_SWEEP_LVL w ≤ 80)
  else if (limitsOf a).any (fun l => pastTight l w) then false
  else if 0x1100 ≤ a ∧ a < 0x1300 then
    match (a - 0x1100) % 0x10 with
    | 0x2 => decide (fldGet F.PWM_CH_PHASE_PH_OFS w < carrierN (fget s d Reg.PWM_DIE_CTRL F.PWM_DIE_CTRL_CARRIER))
    | 0x4 =>
      let p := fldGet F.PWM_CH_RAW_PER_PERIOD w
      decide (p % 2 = 0 ∧ 200 ≤ p ∧ p ≤ 32766)
    | _ => true
  else if 0x2100 ≤ a ∧ a < 0x2500 then
    match (a - 0x2100) % 0x20 with
    | 0x01 => decide (fldGet F.PRT_CH_OC_SHORT_N w < max 1 (fldGet F.PRT_CH_OC_SHORT_WIN w))
    | 0x02 => decide (fldGetInt F.PRT_CH_TH_T_FOLD w < fldGetInt F.PRT_CH_TH_T_MAX w)
    | 0x06 => w != 0
    | 0x08 => decide (fldGet F.PRT_CH_AMB_AMB_SRC w ≤ 4)
    | _ => true
  else if 0x2800 ≤ a ∧ a < 0x2C00 then finiteWord w
  else true

/-- The seal of each field (R343, R406). -/
def sealOk (s : State) (d : Die) (a : Nat) (w : Word) : Bool :=
  (limitsOf a).all (fun l => !looser l w (sealOf s d a))

/-- Every channel is OFF or LOSS_SAFE (R353). -/
def allQuiet (s : State) (d : Die) : Bool :=
  fchans.all (fun c => fcState s d c == fcOff || fcState s d c == fcLossSafe)

/-- A channel's EN in force: while it is TRIPPED or REARMING a written EN = 0 waits (R371), but an earlier record of the same
tally counts as applied (R566). -/
def enInForce (s : State) (d : Die) (c : Nat) (earlier : List StagedRec) : Bool :=
  fon s d (Reg.PWM_CH_CTRL c) F.PWM_CH_CTRL_EN ||
    ((pwState s d c == pwTripped || pwState s d c == pwRearming) &&
      !earlier.any (fun r => r.addr == Reg.PWM_CH_CTRL c && bitOf r.mask.toNat 0))

/-- The present state lets a register take a word (R342, R353, R362, R374, R379); `earlier` holds the earlier records of the
tally. -/
def stateOk (s : State) (d : Die) (earlier : List StagedRec) (r : StagedRec) (w : Word) : Bool :=
  let old := frd s d r.addr
  if fldState s d = fdUnsealed then false
  else if r.addr = Reg.PWM_DIE_CTRL then
    fldGet F.PWM_DIE_CTRL_CARRIER w == fldGet F.PWM_DIE_CTRL_CARRIER old ||
      fchans.all (fun c => !enInForce s d c earlier)
  else if r.addr = Reg.FLD_TWIN_CTRL then
    let refused := bitOf r.mask.toNat 1 && fldGet F.FLD_TWIN_CTRL_ROLE w == 0 && twinUp s d &&
      !fon s d Reg.FLD_TWIN_STAT F.FLD_TWIN_STAT_P_ROLE && !fon s d Reg.FLD_TWIN_STAT F.FLD_TWIN_STAT_P_SAFE
    !refused && (fldGet F.FLD_TWIN_CTRL_EN w == fldGet F.FLD_TWIN_CTRL_EN old || allQuiet s d)
  else if 0x1100 ≤ r.addr ∧ r.addr < 0x1300 then
    let c := (r.addr - 0x1100) / 0x10
    let quiet := !enInForce s d c earlier
    match (r.addr - 0x1100) % 0x10 with
    | 0x0 => quiet || (fldGet F.PWM_CH_CTRL_MODE w == fldGet F.PWM_CH_CTRL_MODE old &&
        fldGet F.PWM_CH_CTRL_RAW w == fldGet F.PWM_CH_CTRL_RAW old)
    | 0x2 => quiet || w == old
    | _ => true
  else true

/-- The judgement of a record's value against a state, after the earlier records of its tally (R566): BAD_ARGUMENT,
SEAL_LIMIT, STATE, or ACCEPTED. -/
def judgeValue (s : State) (d : Die) (earlier : List StagedRec) (r : StagedRec) : Nat :=
  let w := recResult s d r
  if !rangeOk s d r.addr w then akBadArgument
  else if !sealOk s d r.addr w then akSealLimit
  else if !stateOk s d earlier r w then akState
  else akAccepted

/-- The order in which staged records apply: by boundary, tally and ordinal. -/
def recBefore (a b : StagedRec) : Bool :=
  decide (a.n < b.n) || (a.n == b.n && (decide (a.id < b.id) || (a.id == b.id && decide (a.ord < b.ord))))
def insertRec (r : StagedRec) : List StagedRec → List StagedRec
  | [] => [r]
  | x :: xs => if recBefore r x then r :: x :: xs else x :: insertRec r xs

/-- The judgement of a record when it is staged (R566). -/
def judgeParam (s : State) (d : Die) (r : StagedRec) (others : List StagedRec) : Nat :=
  let writable := match fieldRow r.addr with
    | none => false
    | some row => within r.mask (accessMask row.fields [.rw, .w1c])
  let late := match (dieAt s d).tick with
    | none => false
    | some k => decide (r.n * dieBlk s d < k)
  if !writable then akNotWritable
  else if late then akTooLate
  else if 2048 ≤ others.length then akStagingFull
  else
    let first := others.filter (fun x => decide (x.n < r.n) || (x.n == r.n && x.id == r.id && decide (x.ord < r.ord)))
    judgeValue (forEach first s (fun s x => recProject s d x)) d (first.filter (fun x => x.n == r.n && x.id == r.id)) r

/-- PARAM: the die judges and stages a record; a repeated one replaces it (R331, R566). -/
def execParam (d : Die) (ws : List Nat) (s : State) : Out :=
  onDown s d ws (isType btParam) (fun s =>
    let r : StagedRec := ⟨msgArgB ws % 16, msgW ws 0, bitsOf (msgW ws 1) 0 32, bitsOf (msgW ws 1) 32 32, msgArgA ws,
      BitVec.ofNat 32 (bitsOf (msgW ws 2) 32 32), BitVec.ofNat 32 (bitsOf (msgW ws 2) 0 32), false⟩
    let others := (dieAt s d).staged.filter (fun x => !(x.id == r.id && x.n == r.n && x.ord == r.ord))
    let res := judgeParam s d r others
    let s := if res = akAccepted then setDie s d { dieAt s d with staged := insertRec r others } else s
    ackSend s d ws res)

/-- CMD_TALLY_COMMIT (R263). -/
def execCmdTallyCommit (d : Die) (m : CmdCopy) (s : State) : Out :=
  let ws := m.words
  onCmd s d 1 m (fun s =>
    if 15 < msgArgB ws then (s, akBadArgument)
    else
      let x := dieAt s d
      let st := listUpdate (fun r => r.id == msgArgB ws && r.n == msgW ws 0) (fun r => { r with committed := true }) x.staged
      (setDie s d { x with staged := st }, akAccepted))

/-- TALLY_DISCARD (R263). -/
def execTallyDiscard (d : Die) (m : CmdCopy) (s : State) : Out :=
  let ws := m.words
  onCmd s d 2 m (fun s =>
    if 15 < msgArgB ws then (s, akBadArgument)
    else
      let x := dieAt s d
      (setDie s d { x with staged := x.staged.filter (fun r => !(r.id == msgArgB ws && r.n == msgW ws 0)) }, akAccepted))

/-! ## The other commands of Table 09-4 -/

/-- CMD_CARRY: a snapshot at the first tick whose index is at least k_c (R336); one whose k_c has been latched is a repeat
(R331). -/
def execCmdCarry (d : Die) (m : CmdCopy) (s : State) : Out :=
  let ws := m.words
  onCmd s d 3 m (fun s =>
    let x := dieAt s d
    if x.carries.contains (msgW ws 0) || x.latched.contains (msgW ws 0) then (s, akAccepted)
    else (setDie s d { x with carries := x.carries ++ [msgW ws 0] }, akAccepted))

/-- FORCE_SAFE (R339, R372): any state but UNSEALED becomes FORCED. -/
def execForceSafe (d : Die) (m : CmdCopy) (s : State) : Out :=
  onCmd s d 4 m (fun s =>
    if fldState s d = fdUnsealed then (safeNow s d, akState)
    else (safeNow (setFldState s d fdForced) d, akAccepted))

/-- RELEASE: the die leaves FORCED, and every LOSS_SAFE or OFF channel is armed (R341, R372). -/
def execRelease (d : Die) (m : CmdCopy) (s : State) : Out :=
  onCmd s d 5 m (fun s =>
    let s := if fldState s d = fdForced then leaveSafe (setFldState s d fdSafe) d else s
    (forEach (fchans.filter (fun c => fcState s d c == fcOff || fcState s d c == fcLossSafe)) s (fun s c =>
      setFch s d c { fch s d c with armed := true, good := 0 }), akAccepted))

/-- CMD_READ: a STATUS read reply (R332, R336). -/
def execCmdRead (d : Die) (m : CmdCopy) (s : State) : Out :=
  let ws := m.words
  onCmd s d 6 m (fun s =>
    let a := bitsOf (msgW ws 0) 0 16
    if (fieldRow a).isNone then (s, akNotWritable)
    else (upSend s d btStatus 1 0 [a + 2 ^ 32 * (fieldRead s d a).toNat, 0, 0], akAccepted))

/-- CMD_UNKNOWN: any other code is answered UNKNOWN_COMMAND (R332). -/
def execCmdUnknown (d : Die) (ws : List Nat) (s : State) : Out :=
  onDown s d ws (fun ws => msgType ws == btCmd && (cmdShape (msgArgA ws)).isNone) (fun s => ackSend s d ws akUnknown)

end Sys2Proof.Machine
end

