-- ==== Sys2Proof/Machine/FieldPwm.lean ====
section
/-! DEFINITION. The modulators of a field die: requantizer, carrier, dead time, trips, raw mode, checks of a shorted
line, and the clocks and supplies that hold a die safe (R338, R339, R357 to R378, R400 to R404). -/

namespace Sys2Proof.Machine
open Sys2Proof

/-! ## The output a valley loads -/

/-- The output a valley loads, if there is one (R363): `m` is the reference period of this sample at or after whose valley it
lies. A value completed one to four ticks before a valley waits for the next. -/
def loadedU (s : State) (d : Die) (c m : Nat) : Option Int :=
  let x := fch s d c
  let ofs := fget s d (Reg.PWM_CH_PHASE c) F.PWM_CH_PHASE_PH_OFS % pwmN s d
  let back := if 1 ≤ ofs ∧ ofs ≤ 4 then 2 else 1
  if x.usPrev.length + m < back then none else (x.usPrev ++ x.us)[x.usPrev.length + m - back]?

/-! ## Legs and dead time (R363, R365) -/

/-- The command changes of a leg in a period of 2H ticks with compare value v; `inv`: the command is the inverse. -/
def legChanges (h v : Int) (inv : Bool) : List (Nat × Bool) :=
  if v ≤ 0 then [(0, inv)]
  else if h ≤ v then [(0, !inv)]
  else [(0, inv), ((h - v).toNat, !inv), ((h + v).toNat, inv)]

/-- The delayed edge of a leg, if it comes before tick `t`. `ball` is its high side's; the next is its low side's. -/
def legSettle (ball t : Nat) (l : Leg) : Leg × List (Nat × Nat × Bool) :=
  match l.due with
  | none => (l, [])
  | some u =>
    if t ≤ u then (l, [])
    else if l.cmd = some true then ({ l with hi := true, due := none }, [(u, ball, true)])
    else ({ l with lo := true, due := none }, [(u, ball + 1, true)])

/-- A command change at tick `t`: one gate falls at once, the other rises after the dead time. -/
def legChange (ball rise fall : Nat) (l : Leg) (ch : Nat × Bool) : Leg × List (Nat × Nat × Bool) :=
  let (l, es) := legSettle ball ch.1 l
  if l.cmd = some ch.2 then (l, es)
  else if ch.2 then (⟨some true, l.hi, false, some (ch.1 + rise)⟩, es ++ (if l.lo then [(ch.1, ball + 1, false)] else []))
  else (⟨some false, false, l.lo, some (ch.1 + fall)⟩, es ++ (if l.hi then [(ch.1, ball, false)] else []))

/-- A leg through a period of `n` ticks; a delayed edge past its end is carried over. -/
def legPeriod (ball rise fall n : Nat) (l : Leg) (chs : List (Nat × Bool)) : Leg × List (Nat × Nat × Bool) :=
  let (l, es) := chs.foldl (fun (acc : Leg × List (Nat × Nat × Bool)) ch =>
    let (l, es) := legChange ball rise fall acc.1 ch
    (l, acc.2 ++ es)) (l, [])
  let (l, es2) := legSettle ball n l
  ({ l with due := l.due.map (fun u => u - n) }, es ++ es2)

/-- H and the compare values vA and vB of a channel's period (R363, R374), with leg B inverse in AD. -/
def compareValues (s : State) (d : Die) (c : Nat) (u : Int) : Int × Int × Int :=
  let x := fch s d c
  let ad := fldGet F.PWM_CH_CTRL_MODE x.ctrl = 1
  if pwState s d c = pwRaw then
    let h : Int := (fldGet F.PWM_CH_RAW_PER_PERIOD x.rawPer / 2 : Nat)
    let va := min h (fldGet F.PWM_CH_RAW_DUTY_VA x.rawDuty : Int)
    let vb := min h (fldGet F.PWM_CH_RAW_DUTY_VB x.rawDuty : Int)
    (h, va, if ad then va else vb)
  else
    let h : Int := (pwmN s d / 2 : Nat)
    if ad then (h, h / 2 + u, h / 2 + u)
    else
      let va := -((-(h + u)) / 2)
      (h, va, va - u)

/-- The gates run through a period from its valley on. -/
def runPeriod (s : State) (d : Die) (c : Nat) (u : Int) : State :=
  let x := fch s d c
  let (h, va, vb) := compareValues s d c u
  let n := (2 * h).toNat
  let dt (f : Fld) : Nat := fldGet f x.dt
  let ad := fldGet F.PWM_CH_CTRL_MODE x.ctrl = 1
  let (la, ea) := legPeriod 0 (dt F.PWM_CH_DT_DT_RISE_A) (dt F.PWM_CH_DT_DT_FALL_A) n x.legA (legChanges h va false)
  let (lb, eb) := legPeriod 2 (dt F.PWM_CH_DT_DT_RISE_B) (dt F.PWM_CH_DT_DT_FALL_B) n x.legB (legChanges h vb ad)
  let es := ea ++ eb
  sendOut (setFch s d c { x with driven := true, legA := la, legB := lb, edges := es, per := n }) (.gateEdges d c es)

/-! ## Limited periods, the short-circuit latch and its checks (R400 to R403) -/

/-- Ticks in a number of milliseconds. -/
def msTicks (s : State) (d : Die) (ms : Nat) : Nat := ms * dieFs s d / 1000

/-- A check fails (R402, R403): one asked for by PROT_CLEAR leaves the channel as it was. -/
def failCheck (s : State) (d : Die) (c : Nat) : State :=
  match (fch s d c).check with
  | none => s
  | some k =>
    let s := gatesOff (setFch s d c { fch s d c with check := none }) d c
    let s := fbit s d (Reg.PRT_CH_STAT c) F.PRT_CH_STAT_CHECKING false
    if k.host then fldRaise s d 0x39 c 0
    else
      let n := fget s d (Reg.PRT_CH_STAT c) F.PRT_CH_STAT_RETRIES + 1
      let s := fput s d (Reg.PRT_CH_STAT c) F.PRT_CH_STAT_RETRIES n
      let s := if 3 ≤ n then fbit s d (Reg.PRT_CH_STAT c) F.PRT_CH_STAT_FINAL true
        else setFch s d c { fch s d c with checkAt := some ((dieAt s d).ticks + msTicks s d (if n = 1 then 1000 else 10000)) }
      fldRaise s d 0x39 c n

/-- A check passes: CH_SHORT and FINAL clear, and programme ramps in (R402); the retry count stays until the next latch
(R401). -/
def passCheck (s : State) (d : Die) (c : Nat) : State :=
  let s := setFch s d c { fch s d c with check := none, checkAt := none, dueHost := false, dueAuto := false, start := 0 }
  let s := fbit (fbit s d (Reg.PRT_CH_STAT c) F.PRT_CH_STAT_CHECKING false) d (Reg.PRT_CH_STAT c) F.PRT_CH_STAT_CH_SHORT false
  fbit s d (Reg.PRT_CH_STAT c) F.PRT_CH_STAT_FINAL false

/-- A sweep ends for one channel with a status (R412, R413). -/
def stopSweepChan (s : State) (d : Die) (c st : Nat) : State :=
  let x := fch s d c
  match x.sweep with
  | none => s
  | some w => if w.status.isSome then s else setFch s d c { x with sweep := some { w with status := some st } }

/-- Set a protection latch (R404, R405): it fails a running check and ends the channel's sweep. -/
def setLatch (s : State) (d : Die) (c : Nat) (f : Fld) (idx : Nat) : State :=
  if fon s d (Reg.PRT_CH_STAT c) f then s
  else
    let s := setFch s d c { fch s d c with latched := true }
    let s := fldRaise (fbit s d (Reg.PRT_CH_STAT c) f true) d idx c 0
    stopSweepChan (failCheck s d c) d c 2

/-- Count a limited period, once (R400); it fails a running check (R402). -/
def limitPeriod (s : State) (d : Die) (c : Nat) : State :=
  let x := fch s d c
  if x.limited then s
  else
    let s := setFch s d c { x with limited := true, limits := x.limits + 1, limCnt := satNat 16 (x.limCnt + 1) }
    let s := fadd s d (Reg.PRT_CH_CNT c) F.PRT_CH_CNT_LIMITED 1
    let s := if (x.limits + 1) % 256 = 0 then fldRaise s d 0x37 c 0 else s
    failCheck s d c

/-- At each valley the limited periods of the last SHORT_WIN are counted (R401). -/
def countShorts (s : State) (d : Die) (c : Nat) : State :=
  let x := fch s d c
  let win := (x.limited :: x.window).take 31
  let s := setFch s d c { x with limited := false, window := win }
  let n := ((win.take (max 1 (fget s d (Reg.PRT_CH_OC c) F.PRT_CH_OC_SHORT_WIN))).filter id).length
  if n ≤ fget s d (Reg.PRT_CH_OC c) F.PRT_CH_OC_SHORT_N ∨ fon s d (Reg.PRT_CH_STAT c) F.PRT_CH_STAT_CH_SHORT then s
  else
    let s := gatesOff (setLatch s d c F.PRT_CH_STAT_CH_SHORT 0x38) d c
    let s := fput (fadd s d (Reg.PRT_CH_CNT c) F.PRT_CH_CNT_SHORTS 1) d (Reg.PRT_CH_STAT c) F.PRT_CH_STAT_RETRIES 0
    setFch s d c { fch s d c with checkAt := some ((dieAt s d).ticks + msTicks s d 100), dueHost := false, dueAuto := false }

/-- An automatic check becomes due, unless AUTO_RETRY is 0 or FINAL is set (R403). -/
def checkDue (s : State) (d : Die) (c : Nat) : State :=
  let x := fch s d c
  match x.checkAt with
  | none => s
  | some t =>
    if (dieAt s d).ticks < t then s
    else
      let auto := fon s d (Reg.PRT_CH_CTRL c) F.PRT_CH_CTRL_AUTO_RETRY && fon s d (Reg.PRT_CH_STAT c) F.PRT_CH_STAT_CH_SHORT
        && !fon s d (Reg.PRT_CH_STAT c) F.PRT_CH_STAT_FINAL
      setFch s d c { x with checkAt := none, dueAuto := x.dueAuto || auto }

/-- Whether a check asked for by the host waits, or an automatic one while AUTO_RETRY is 1 (R403). -/
def checkWaits (s : State) (d : Die) (c : Nat) : Bool :=
  (fch s d c).dueHost || (fch s d c).dueAuto && fon s d (Reg.PRT_CH_CTRL c) F.PRT_CH_CTRL_AUTO_RETRY

/-- A waiting check starts once every gate condition but CH_SHORT holds; the host's goes first, and an automatic one that
waits with it stays due (R402, R403). -/
def startCheck (s : State) (d : Die) (c : Nat) : State :=
  let x := fch s d c
  if checkWaits s d c && x.check.isNone && gateOthers s d c && latchBits s d c == 4 then
    let y : FieldChan := { x with dueHost := false, dueAuto := x.dueHost && x.dueAuto, check := some ⟨0, x.dueHost, demodZero⟩ }
    fbit (setFch s d c y) d (Reg.PRT_CH_STAT c) F.PRT_CH_STAT_CHECKING true
  else s

/-! ## Raw values (R374 to R376) -/

/-- PWM_CHc_STAT.PEND follows the pending writes. -/
def showPend (s : State) (d : Die) (c : Nat) : State :=
  let x := fch s d c
  fput s d (Reg.PWM_CH_STAT c) F.PWM_CH_STAT_PEND (b2n x.pendPer.isSome + 2 * b2n x.pendDuty.isSome)

/-- The raw words that apply at a valley, if any: a tally's, which drop a lone write, over a pair's or a lone write's (R375,
R376). -/
def rawDue (x : FieldChan) : Option (Word × Word) :=
  let byTally := x.tallyPer.isSome || x.tallyDuty.isSome
  let host := (x.duePer.isSome || x.dueDuty.isSome) && !x.dueNext && !(byTally && x.dueLone)
  let per := if host then x.duePer.getD x.rawPer else x.rawPer
  let duty := if host then x.dueDuty.getD x.rawDuty else x.rawDuty
  if byTally || host then some (x.tallyPer.getD per, x.tallyDuty.getD duty) else none

/-- Raw values that are due apply at the valley; a pair completed within the four ticks before it waits for the next; a
tally's values discard the pending lone writes (R363, R375, R376). -/
def applyRaw (s : State) (d : Die) (c : Nat) : State :=
  let x := fch s d c
  let x' : FieldChan := { x with dueNext := false, agePer := x.agePer + 1, ageDuty := x.ageDuty + 1 }
  match rawDue x with
  | none => setFch s d c x'
  | some (per, duty) =>
    let byTally := x.tallyPer.isSome || x.tallyDuty.isSome
    let dutyCame := x.tallyDuty.isSome || (x.tallyPer.isNone && x.dueDuty.isSome)
    let gen := if dutyCame then fldGet F.PWM_CH_RAW_DUTY_GEN duty else fldGet F.PWM_CH_RAW_PER_GEN per
    let y : FieldChan := { x' with rawPer := per, rawDuty := duty, tallyPer := none, tallyDuty := none }
    let y := if x.dueNext && !(byTally && x.dueLone) then y else { y with duePer := none, dueDuty := none, dueLone := false }
    let s := setFch s d c (if byTally then { y with pendPer := none, pendDuty := none } else y)
    let s := fwr (fwr s d (Reg.PWM_CH_RAW_PER c) per) d (Reg.PWM_CH_RAW_DUTY c) duty
    showPend (fput s d (Reg.PWM_CH_STAT c) F.PWM_CH_STAT_GEN gen) d c

/-! ## The valley (R363, R371, R373, R401) -/

/-- A channel's valley: limited periods are counted, settings written since the last one take effect, raw values apply,
and the gates run, go on or go low. -/
def valley (s : State) (d : Die) (c m : Nat) : State :=
  let s := setFch (setPeriod s d m) d c { fch s d c with safeOff := false }
  let s := startCheck (countShorts s d c) d c
  let x := fch s d c
  let back := match x.edges.reverse with
    | [] => x.back.map (fun b => b + x.per)
    | es => some (x.per - (es.foldl (fun a e => max a e.1) 0))
  let x := { x with ctrl := frd s d (Reg.PWM_CH_CTRL c), dt := frd s d (Reg.PWM_CH_DT c),
                    quiet := frd s d (Reg.PWM_CH_QUIET c), edges := [], back := back, tripAt := none }
  let s := applyRaw (setFch s d c x) d c
  let s := match loadedU s d c m with
    | some u => if pwState s d c = pwRaw then s else fputI s d (Reg.PWM_CH_U c) F.PWM_CH_U_U u
    | none => s
  let u := fgetI s d (Reg.PWM_CH_U c) F.PWM_CH_U_U
  if gateOk s d c then
    let x := fch s d c
    let fresh := !fon s d (Reg.PWM_CH_STAT c) F.PWM_CH_STAT_GATES_ON
    let ramp := fresh && pwState s d c == pwRunning && x.check.isNone && (x.latched || x.start == 256 && x.pos == 256)
    let s := setFch s d c { x with latched := false, start := if ramp then 0 else x.start }
    runPeriod (fbit s d (Reg.PWM_CH_STAT c) F.PWM_CH_STAT_GATES_ON true) d c u
  else
    let h := (compareValues s d c u).1
    let s := gatesOff s d c
    setFch s d c { fch s d c with per := (2 * h).toNat }

/-- CARRIER_VALLEY; where it coincides with a sample's tick it comes after the tick. -/
def execCarrierValley (d : Die) (c : Fin 32) (m : Fin 32) (s : State) : Out := onDie s d (fun s => valley s d c m)

/-! ## Trips (R366 to R370) -/

/-- TRIP_IN, and whether the channel's blanking lets a trip through at tick `t` of the period (R367). -/
def tripIn (s : State) (d : Die) (c : Nat) : Bool := fon s d (Reg.PWM_CH_STAT c) F.PWM_CH_STAT_TRIP_IN
def blanked (x : FieldChan) (t : Nat) : Bool :=
  let blank := fldGet F.PWM_CH_CTRL_BLANK x.ctrl
  x.edges.any (fun e => decide (e.1 < t) && decide (t < e.1 + blank)) ||
    (match x.back with
     | none => false
     | some b => decide (t + b < blank))

/-- A channel trips and latches with a cause. -/
def tripChan (s : State) (d : Die) (c t cause : Nat) : State :=
  let s := fbit (cutGatesAt s d c t) d (Reg.PWM_CH_STAT c) F.PWM_CH_STAT_GATES_ON false
  let s := fput (setPwState s d c pwTripped) d (Reg.PWM_CH_STAT c) F.PWM_CH_STAT_TRIP_CAUSE cause
  setFch s d c { fch s d c with tripAt := some t }

/-- TRIP_HONOURED (R367, R368): in the tick in which the safe state took the gates low the trip is recorded all the same
(R370). -/
def execTripHonoured (d : Die) (c : Fin 32) (trip : TripInstant) (s : State) : Out :=
  let t := trip.tick
  onDie s d (fun s =>
    let x := fch s d c
    let st := pwState s d c
    let on := fon s d (Reg.PWM_CH_STAT c) F.PWM_CH_STAT_GATES_ON || (trip.atSafe && x.safeOff)
    if !((st == pwRunning || st == pwRaw) && on && tripIn s d c) || blanked x t then s
    else
      let s := fadd s d (Reg.PWM_CH_CNT c) F.PWM_CH_CNT_TRIPS 1
      if fldGet F.PWM_CH_CTRL_TRIP_LATCH x.ctrl = 1 then fldRaise (tripChan s d c t 1) d 0x20 c 0
      else
        let s := cutGatesAt (setFch s d c { x with soft := x.soft + 1, tripAt := some t }) d c t
        let s := if (x.soft + 1) % 256 = 0 then fldRaise s d 0x21 c 0 else s
        limitPeriod s d c)

/-- READBACK_MISMATCH at tick `t` (R366, R368); with a trip of the same tick it counts once, as READBACK (R370). -/
def execReadbackMismatch (d : Die) (c : Fin 32) (t : Nat) (s : State) : Out :=
  onDie s d (fun s =>
    let x := fch s d c
    let st := pwState s d c
    if fldGet F.PWM_CH_CTRL_READBACK_EN x.ctrl = 0 then s
    else if st = pwTripped ∧ x.tripAt = some t then
      fldRaise (fput s d (Reg.PWM_CH_STAT c) F.PWM_CH_STAT_TRIP_CAUSE 2) d 0x23 c 0
    else if st = pwRunning ∨ st = pwRaw then
      let s := if x.tripAt = some t then s else fadd s d (Reg.PWM_CH_CNT c) F.PWM_CH_CNT_TRIPS 1
      fldRaise (fldRaise (tripChan s d c t 2) d 0x20 c 0) d 0x23 c 0
    else s)

/-- TRIP_INPUT_CHANGE: the filtered level of CHn_TRIP_N; in REARMING an active one trips again (R367, R369). -/
def execTripInputChange (d : Die) (c : Fin 32) (active : Bool) (s : State) : Out :=
  onDie s d (fun s =>
    let s := fbit s d (Reg.PWM_CH_STAT c) F.PWM_CH_STAT_TRIP_IN active
    if active && pwState s d c == pwRearming then
      fldRaise (tripChan (fadd s d (Reg.PWM_CH_CNT c) F.PWM_CH_CNT_TRIPS 1) d c 0 1) d 0x20 c 0
    else s)

/-- TRIP_QUIET_EXPIRY: TRIP_IN has stayed inactive for TRIP_QUIET (R369). -/
def execTripQuietExpiry (d : Die) (c : Fin 32) (s : State) : Out :=
  onDie s d (fun s =>
    if pwState s d c ≠ pwRearming ∨ tripIn s d c then s
    else if !fon s d (Reg.PWM_CH_CTRL c) F.PWM_CH_CTRL_EN then setPwState s d c pwDisabled
    else if fon s d (Reg.PWM_CH_CTRL c) F.PWM_CH_CTRL_RAW then setPwState s d c pwRaw
    else setFch (setPwState s d c pwRunning) d c { fch s d c with start := 0 })

/-- The channels a mask names. -/
def maskChans (m : Nat) : List Nat := fchans.filter (bitOf m)

/-- TRIP_CLEAR (R369). -/
def execTripClear (d : Die) (m : CmdCopy) (s : State) : Out :=
  let ws := m.words
  onCmd s d 0x100 m (fun s =>
    let named := (maskChans (msgW ws 0)).filter (fun c => pwState s d c == pwTripped)
    let stay := named.filter (tripIn s d)
    let s := forEach named s (fun s c =>
      if tripIn s d c then fldRaise (fbit s d (Reg.PWM_CH_STAT c) F.PWM_CH_STAT_TRIP_STILL_ACTIVE true) d 0x22 c 0
      else fbit (setPwState s d c pwRearming) d (Reg.PWM_CH_STAT c) F.PWM_CH_STAT_TRIP_STILL_ACTIVE false)
    (s, if stay.isEmpty then akAccepted else akState))

/-- RAW_WRITE: the word is taken as a write of its register (R375, Table 10-6).
A pair of one generation applies at the next valley that is more than four ticks away (R363). -/
def execRawWrite (d : Die) (m : RawMessage) (s : State) : Out :=
  let ws := m.msg.words
  onCmd s d 0x101 m.msg (fun s =>
    let c := bitsOf (msgW ws 0) 0 5
    let duty := bitOf (msgW ws 0) 5
    let a := if duty then Reg.PWM_CH_RAW_DUTY c else Reg.PWM_CH_RAW_PER c
    let w := match fieldRow a with
      | none => 0
      | some row => recWordOf row 0 (BitVec.allOnes 32) (BitVec.ofNat 32 (bitsOf (msgW ws 0) 32 32))
    if !rangeOk s d a w then (s, akBadArgument)
    else if pwState s d c ≠ pwRaw ∧ pwState s d c ≠ pwDisabled then (s, akState)
    else
      let x := fch s d c
      let per := if duty then x.pendPer else some w
      let dut := if duty then some w else x.pendDuty
      let gen (o : Option Word) : Option Nat := o.map (fldGet F.PWM_CH_RAW_PER_GEN)
      let x : FieldChan := if per.isSome && gen per == gen dut then
          { x with pendPer := none, pendDuty := none, duePer := per, dueDuty := dut, dueLone := false, dueNext := decide (x.per ≤ m.tick + 4) }
        else if duty then { x with pendDuty := dut, ageDuty := 0 }
        else { x with pendPer := per, agePer := 0 }
      (showPend (setFch s d c x) d c, akAccepted))

/-- A lone write is still pending after two carrier periods: its channel has passed two valleys since. -/
def rawAlone (x : FieldChan) (duty : Bool) : Bool :=
  if duty then x.pendDuty.isSome && decide (2 ≤ x.ageDuty) else x.pendPer.isSome && decide (2 ≤ x.agePer)

/-- RAW_PAIR_TIMEOUT: a lone write applies alone at the next valley (R375). -/
def execRawPairTimeout (d : Die) (c : Fin 32) (duty : Bool) (s : State) : Out :=
  onDie s d (fun s =>
    let x := fch s d c
    if !rawAlone x duty then s
    else
      let x : FieldChan := if duty then { x with dueDuty := x.pendDuty, pendDuty := none, dueLone := true }
        else { x with duePer := x.pendPer, pendPer := none, dueLone := true }
      let s := fbit (setFch s d c x) d (Reg.PWM_CH_STAT c) F.PWM_CH_STAT_PAIR_SPLIT true
      fldRaise (showPend (fadd s d (Reg.PWM_CH_CNT c) F.PWM_CH_CNT_SPLITS 1) d c) d 0x24 c 0)

/-- PWM_CNT_CLR (R377). -/
def execPwmCntClr (d : Die) (m : CmdCopy) (s : State) : Out :=
  onCmd s d 0x102 m (fun s => (forEach (maskChans (msgW m.words 0)) s (fun s c => fwr s d (Reg.PWM_CH_CNT c) 0), akAccepted))

/-- The weight of bit `i` of the 94 newest in a sinc3 decimator by 32, in 2^-15: the ways to write `i` as a sum of three
numbers below 32 (R384). -/
def sinc3 (i : Nat) : Nat :=
  ((List.range 32).map (fun a => ((List.range 32).filter (fun b => decide (a + b ≤ i ∧ i < a + b + 32))).length)).foldl (· + ·) 0

/-- A fast-path output from the 94 newest bits of an IS stream, bit 0 the oldest, in 2^-15: the ones less the zeros, each
at its weight (R383, R384). -/
def fastPath (bits : Nat) : Int :=
  (List.range 94).foldl (fun v i => if bitOf bits i then v + sinc3 i else v - sinc3 i) 0

/-- OVERCURRENT: a fast-path output at tick `t` of the period at or above OC_THR (R400), by the bits sampled from IS. -/
def execOvercurrent (d : Die) (c : Fin 32) (t : Nat) (bits : Nat) (s : State) : Out :=
  onDie s d (fun s =>
    let ma := (fastPath bits).natAbs * fget s d Reg.PRT_SCALE F.PRT_SCALE_IS_FS
    if !(fch s d c).driven || decide (ma < fget s d (Reg.PRT_CH_OC c) F.PRT_CH_OC_OC_THR * 2 ^ 15) then s
    else limitPeriod (cutGatesAt s d c t) d c)

/-- CHECK_DUE (R403) and CHECK_START (R402). -/
def execCheckDue (d : Die) (c : Fin 32) (s : State) : Out := onDie s d (fun s => checkDue s d c)
def execCheckStart (d : Die) (c : Fin 32) (s : State) : Out := onDie s d (fun s => startCheck s d c)

/-- PROT_CLEAR: DC latches clear, and a CH_SHORT channel starts a check at once (R403, R405, R414). -/
def execProtClear (d : Die) (m : CmdCopy) (s : State) : Out :=
  let ws := m.words
  onCmd s d 0x202 m (fun s =>
    let m := bitsOf (msgW ws 0) 0 32
    if m = 0 then (s, akBadArgument)
    else
      (forEach (maskChans m) s (fun s c =>
        let s := if bitOf (msgW ws 0) 32 && fon s d (Reg.PRT_CH_STAT c) F.PRT_CH_STAT_CH_SHORT then
            setFch s d c { fch s d c with dueHost := true } else s
        let s := if bitOf (msgW ws 0) 33 && fon s d (Reg.PRT_CH_STAT c) F.PRT_CH_STAT_DC_OUT then
            setFch (fbit s d (Reg.PRT_CH_STAT c) F.PRT_CH_STAT_DC_OUT false) d c { fch s d c with dcOutRun := 0 } else s
        if bitOf (msgW ws 0) 34 && fon s d (Reg.PRT_CH_STAT c) F.PRT_CH_STAT_DC_STREAM then
          setFch (fbit s d (Reg.PRT_CH_STAT c) F.PRT_CH_STAT_DC_STREAM false) d c { fch s d c with dcStrRun := 0 } else s),
        akAccepted))

/-! ## What an applied record brings about (R371, R372, R376) -/

/-- A change of a channel's EN or RAW; while it is TRIPPED or REARMING it waits (R371). -/
def ctrlApplied (s : State) (d : Die) (c : Nat) : State :=
  let en := fon s d (Reg.PWM_CH_CTRL c) F.PWM_CH_CTRL_EN
  let raw := fon s d (Reg.PWM_CH_CTRL c) F.PWM_CH_CTRL_RAW
  let st := pwState s d c
  if st = pwDisabled ∧ en then
    if raw then setPwState s d c pwRaw else setFch (setPwState s d c pwRunning) d c { fch s d c with start := 0 }
  else if (st = pwRunning ∨ st = pwRaw) ∧ !en then setPwState s d c pwDisabled
  else s

/-- The die's control: CARRIER takes effect with a valley at this tick, RUN moves the die between SAFE and ACTIVE. -/
def dieCtrlApplied (s : State) (d : Die) : State :=
  let s := fput s d Reg.PWM_DIE_STAT F.PWM_DIE_STAT_N (carrierN (fget s d Reg.PWM_DIE_CTRL F.PWM_DIE_CTRL_CARRIER))
  let run := fon s d Reg.PWM_DIE_CTRL F.PWM_DIE_CTRL_RUN
  if fldState s d = fdSafe ∧ run ∧ !eventSafe s d then enterActiveAt s d
  else if fldState s d = fdActive ∧ !run then setFldState s d fdSafe
  else s

/-- CONFLICT: both twins drive (R353). -/
def conflictCheck (s : State) (d : Die) : State :=
  let both := twinUp s d && twinEn s d && !isShadow s d && !fon s d Reg.FLD_TWIN_STAT F.FLD_TWIN_STAT_P_ROLE &&
    fon s d Reg.FLD_TWIN_STAT F.FLD_TWIN_STAT_P_EN
  let was := fon s d Reg.FLD_TWIN_STAT F.FLD_TWIN_STAT_CONFLICT
  let s := fbit s d Reg.FLD_TWIN_STAT F.FLD_TWIN_STAT_CONFLICT both
  if both && !was then fldRaise s d 0x0D 0xFF 0 else s

/-- The PLL's reference (R338). -/
def setPllRef (s : State) (d : Die) (r : Nat) : State :=
  if fget s d Reg.FLD_STAT F.FLD_STAT_PLL_REF = r then s
  else fldRaise (fput s d Reg.FLD_STAT F.FLD_STAT_PLL_REF r) d 0x03 0xFF r

/-- The reference that the locked lanes and FLD_TWIN_CTRL.EN choose: a downstream lane, a twin receive lane, or holdover
(R338). -/
def pllChoice (s : State) (d : Die) : Nat :=
  let lane (i : Nat) : Bool := fon s d Reg.FLD_STAT ⟨5 + i, 1⟩
  if lane 0 || lane 1 then 0 else if twinEn s d && (lane 2 || lane 3) then 1 else 2

/-- A PLL that runs from a reference follows the lanes (R338). -/
def followPll (s : State) (d : Die) : State :=
  if fget s d Reg.FLD_STAT F.FLD_STAT_PLL_REF = 3 then s else setPllRef s d (pllChoice s d)

/-- A model word that a record of this tick replaces acts until the tick is over (R417). -/
def keepModel (s : State) (d : Die) (a : Nat) : State :=
  let x := dieAt s d
  if x.oldModel.any (fun p => p.1 == a) then s else setDie s d { x with oldModel := x.oldModel ++ [(a, frd s d a)] }

/-- Apply a record (R264, R371). -/
def applyRecord (s : State) (d : Die) (r : StagedRec) : State :=
  let w := recResult s d r
  let c := (r.addr - 0x1100) / 0x10
  let s := if 0x2800 ≤ r.addr ∧ r.addr < 0x2C00 then keepModel s d r.addr else s
  let s := fwr s d r.addr w
  if r.addr = Reg.PWM_DIE_CTRL then dieCtrlApplied s d
  else if r.addr = Reg.FLD_TWIN_CTRL then followPll (conflictCheck s d) d
  else if 0x1100 ≤ r.addr ∧ r.addr < 0x1300 then
    let o := (r.addr - 0x1100) % 0x10
    if o = 0 then ctrlApplied s d c
    else if o = 4 then setFch s d c { fch s d c with tallyPer := some w }
    else if o = 5 then setFch s d c { fch s d c with tallyDuty := some w }
    else s
  else s

/-- Every record passes, each judged after the earlier ones of its tally (R566). -/
def judgeAll (s : State) (d : Die) (earlier : List StagedRec) : List StagedRec → Bool
  | [] => true
  | r :: rs => judgeValue s d earlier r == akAccepted && judgeAll (recProject s d r) d (earlier ++ [r]) rs

/-- The records of one tally at its sample instant: judged again, and applied or discarded whole (R263, R566). -/
def settleTallyRecs (s : State) (d : Die) (rs : List StagedRec) : State :=
  let good := rs.all (fun r => r.committed) && judgeAll s d [] rs
  match rs with
  | [] => s
  | r :: _ =>
    if good then fwr (forEach rs s (fun s r => applyRecord s d r)) d Reg.FLD_EPOCH (BitVec.ofNat 32 r.epoch)
    else setDie s d { dieAt s d with discards := (dieAt s d).discards ++ [r.id] }

/-- The staged tallies whose sample instant is tick `k` or earlier, by boundary and ID. -/
def applyStaged (s : State) (d : Die) (k : Nat) : State :=
  let x := dieAt s d
  let due := x.staged.filter (fun r => decide (r.n * dieBlk s d ≤ k))
  let s := setDie s d { x with staged := x.staged.filter (fun r => !decide (r.n * dieBlk s d ≤ k)) }
  let keys := due.foldl (fun ks r => if ks.contains (r.n, r.id) then ks else ks ++ [(r.n, r.id)]) []
  forEach keys s (fun s key => settleTallyRecs s d (due.filter (fun r => (r.n, r.id) == key)))

/-! ## Clocks, control rods and supplies (R338, R339, R548) -/

/-- HOST_LOST: three boundaries without HEARTBEAT; RAW channels trip (R333, Table 10-4). -/
def hostLost (s : State) (d : Die) : State :=
  if (dieAt s d).missed < 3 ∨ fon s d Reg.FLD_STAT F.FLD_STAT_HOST_LOST then s
  else
    let s := fldRaise (fbit s d Reg.FLD_STAT F.FLD_STAT_HOST_LOST true) d 0x0F 0xFF 0
    forEach (fchans.filter (fun c => pwState s d c == pwRaw)) s (fun s c => fldRaise (tripChan s d c 0 3) d 0x25 c 0)

/-- HOST_LOST as an event. -/
def execHostLost (d : Die) (s : State) : Out := onDie s d (fun s => hostLost s d)

/-- An event of R339 makes an ACTIVE die SAFE at once. -/
def makeSafe (s : State) (d : Die) : State :=
  safeNow (if fldState s d = fdActive then setFldState s d fdSafe else s) d

/-- PWM_CLK_LOSS (R339). -/
def execPwmClkLoss (d : Die) (s : State) : Out :=
  onDie s d (fun s =>
    let s := makeSafe (setDie s d { dieAt s d with clkBad := true }) d
    setPllRef (fldRaise s d 0x04 0xFF 0) d 3)

/-- FIELD_PLL_REF_CHANGE: to the reference that R338 gives, none while PWM_CLK is lost (log entry 3). -/
def execFieldPllRefChange (d : Die) (r : Fin 4) (s : State) : Out :=
  onDie s d (fun s => if r.val = (if (dieAt s d).clkBad then 3 else pllChoice s d) then setPllRef s d r else s)

/-- FIELD_PLL_LOCK: the PLL has locked again, to the reference that R338 gives (R339, R372; log entry 3). -/
def execFieldPllLock (d : Die) (r : Fin 3) (s : State) : Out :=
  onDie s d (fun s =>
    if r.val ≠ pllChoice s d then s else
    let was := (dieAt s d).clkBad
    let s := setPllRef (setDie s d { dieAt s d with clkBad := false }) d r
    if was then leaveSafe s d else s)

/-- FIELD_ROD_FAULT (R339). -/
def execFieldRodFault (d : Die) (s : State) : Out :=
  onDie s d (fun s => fldRaise (makeSafe (setDie s d { dieAt s d with rodBad := true }) d) d 0x05 0xFF 0)

/-- FIELD_ROD_RESTART: all four control rods run again (R339, R372). -/
def execFieldRodRestart (d : Die) (s : State) : Out :=
  onDie s d (fun s =>
    if (dieAt s d).rodBad then leaveSafe (setDie s d { dieAt s d with rodBad := false }) d else s)

/-- FIELD_UNDERVOLTAGE: the die resets, UNSEALED, and is dark until its supply rises (R339, R548); its twin lanes are
undriven and its SCK low (R561). -/
def execFieldUndervoltage (d : Die) (s : State) : Out :=
  .next (if dieHere s d then
    sckFollow s (setDie (forEach fchans s (fun s c => cutGates s d c)) d (dieReset false true)) d else s)

/-- FIELD_DIE_POWER_ON: the die starts UNSEALED; an undervoltage is reported when it next links (R339, R548). -/
def execFieldDiePowerOn (d : Die) (s : State) : Out :=
  .next (if diePresent s d && !(dieAt s d).on then
    let uv := (dieAt s d).uv
    let s := setDie s d (dieReset true false)
    if uv then faultFlush (fldRaise s d 0x06 0xFF 0) d else s
  else s)

end Sys2Proof.Machine
end

