-- ==== Sys2Proof/Machine/Carry.lean ====
section
/-! DEFINITION. The commands of carries and snapshots (R272 to R279, R464). -/

namespace Sys2Proof.Machine
open Sys2Proof

/-- A carry from an enabled source now. -/
def fire (s : State) (src stag : Nat) : State := fireWith raise s src stag

/-- A descriptor waiting for a carry completes with the carry's SEQ and tag, or with TIMEOUT where its source is
disabled (log entry 27). -/
def finishCarry (enabled : Bool) (s : State) (d : Option DescRef) (stag : Nat) : State :=
  if enabled then finishOpt s d stOk (s.snap.seq + 2 ^ 32 * stag) else finishOpt s d stTimeout 0

/-- A write of SNP_FIRE (R272). -/
def hostSnpFire (w : Word) (s : State) : State :=
  if fldGet F.SNP_FIRE_GO w = 1 then fire s csReg 0 else s

/-- The access itself, through the bus matrix. -/
def execSnpFire (w : Word) (s : State) : Out := onBar s Reg.SNP_FIRE (fun s => hostSnpFire w s)

/-- A filtered edge on CARRY_IN; it carries where its polarity is the one selected. -/
def execCarryInEdge (rising : Bool) (s : State) : Out :=
  onHost s (fun s => if ron s Reg.SNP_CIN F.SNP_CIN_POL != rising then fire s csCin 0 else s)

/-- SNP_MATCH as a time. -/
def matchTime (s : State) : Int :=
  mkTime (rget s Reg.SNP_MATCH_SEC_LO F.SNP_MATCH_SEC_LO_SEC_LO + 2 ^ 32 * rget s Reg.SNP_MATCH_SEC_HI F.SNP_MATCH_SEC_HI_SEC_HI)
    (rget s Reg.SNP_MATCH_NS F.SNP_MATCH_NS_NS)

/-- The armed match is missed (R278). -/
def matchMissed (s : State) : State :=
  raise (rset (rclr s Reg.SNP_MATCH_CTRL F.SNP_MATCH_CTRL_ARM) Reg.SNP_STAT F.SNP_STAT_MATCH_MISSED) 0x2C1 noInst 0

/-- A write of SNP_MATCH_CTRL (R278); disarming ends a SNAPSHOT_ARM that waits. -/
def hostSnpMatchArm (w : Word) (s : State) : State :=
  if fldGet F.SNP_MATCH_CTRL_ARM w = 0 then
    let d := s.snap.armed
    finishOpt { rclr s Reg.SNP_MATCH_CTRL F.SNP_MATCH_CTRL_ARM with snap := { s.snap with armed := none } } d stTimeout 0
  else if matchTime s < now s then matchMissed s
  else rset s Reg.SNP_MATCH_CTRL F.SNP_MATCH_CTRL_ARM

/-- The access itself, through the bus matrix. -/
def execSnpMatchArm (w : Word) (s : State) : Out := onBar s Reg.SNP_MATCH_CTRL (fun s => hostSnpMatchArm w s)

/-- The number of the first FAB_CLK cycle at or after a device time. -/
def fabCycle (t : Int) : Int := -((-(t * 768)) / 65536000)

/-- The armed match has fired: it is disarmed (R278). -/
def disarm (s : State) : State :=
  rclr { s with snap := { s.snap with armed := none } } Reg.SNP_MATCH_CTRL F.SNP_MATCH_CTRL_ARM

/-- The armed match falls in the cycle of device time `t`. -/
def matchAt (s : State) (t : Int) : Bool := ron s Reg.SNP_MATCH_CTRL F.SNP_MATCH_CTRL_ARM && fabCycle (matchTime s) == fabCycle t

/-- The stack carries scheduled for the cycle of device time `t`. -/
def stackAt (s : State) (t : Int) : List (Int × Nat × Option DescRef) :=
  s.snap.scheduled.filter (fun c => fabCycle c.1 == fabCycle t)

/-- The causes that these give a carry of that cycle, of the sources that are enabled (Table 07-5). -/
def timedCauses (s : State) (t : Int) : Nat :=
  2 ^ csMatch * b2n (matchAt s t && carryEnabled s csMatch) + 2 ^ csStack * b2n (!(stackAt s t).isEmpty && carryEnabled s csStack)

/-- The tag of that carry: the first stack carry's (R277). -/
def timedTag (s : State) (t : Int) : Nat :=
  if carryEnabled s csStack then ((stackAt s t).headD (0, 0, none)).2.1 else 0

/-- They have fired: the match is disarmed (R278), the stack carries wait no longer. -/
def clearTimed (s : State) (t : Int) : State :=
  let m := matchAt s t
  let s := { s with snap := { s.snap with scheduled := s.snap.scheduled.filter (fun c => fabCycle c.1 != fabCycle t) } }
  if m then disarm s else s

/-- Their descriptors complete in `u`, after the carry; `s` is the state before it. -/
def finishTimed (s u : State) (t : Int) : State :=
  let stag := timedTag s t
  let u := finishCarry (carryEnabled s csMatch) u (if matchAt s t then s.snap.armed else none) stag
  forEach (stackAt s t) u (fun u c => finishCarry (carryEnabled s csStack) u c.2.2 stag)

/-- The device time of the next boundary (R24). -/
def boundaryAt (s : State) : Int := (nextBoundary s : Int) * (blk s : Int) * secUnits / (fsHz s : Int)

/-- The carry of the cycle of device time `t`: of the armed match and of the stack carries scheduled for that cycle (Table
07-5, R272, R277). In the cycle of the next boundary they join that boundary's carry. -/
def timedCarry (s : State) (t : Int) : State :=
  if fabCycle t = fabCycle (boundaryAt s) then s
  else
    let u := clearTimed s t
    let u := if timedCauses s t = 0 then u else carryWith raise u (timedCauses s t) (posNow u) (timedTag s t)
    finishTimed s u t

/-- Device time reaches SNP_MATCH: a fired match disarms itself (R278). -/
def execSnpMatchReached (s : State) : Out :=
  onHost s (fun s =>
    if !ron s Reg.SNP_MATCH_CTRL F.SNP_MATCH_CTRL_ARM ∨ now s < matchTime s then s else timedCarry s (matchTime s))

/-- The first scheduled stack carry that is due fires with its tag (R277). -/
def execStackCarryTime (s : State) : Out :=
  onHost s (fun s =>
    match s.snap.scheduled.find? (fun c => decide (c.1 ≤ now s)) with
    | none => s
    | some c => timedCarry s c.1)

/-- Schedule a stack carry on this member, or report it missed (R277). -/
def scheduleCarry (s : State) (t : Int) (stag : Nat) (d : Option DescRef) : State :=
  if t < now s then finishOpt (raise (rset s Reg.SNP_STAT F.SNP_STAT_MATCH_MISSED) 0x2C2 noInst 0) d stTimeout 0
  else { s with snap := { s.snap with scheduled := s.snap.scheduled ++ [(t, stag, d)] } }

/-- A write of SNP_HOLD (R273). -/
def hostSnpHoldWrite (w : Word) (s : State) : State :=
  let s := rwrite s Reg.SNP_HOLD w
  let held := ron s Reg.SNP_HOLD F.SNP_HOLD_HOLD
  let s := rbit s Reg.SNP_STAT F.SNP_STAT_HELD held
  match s.snap.latest with
  | none => s
  | some b => if held then s else showBank { s with snap := { s.snap with latest := none } } b

/-- The access itself, through the bus matrix. -/
def execSnpHoldWrite (w : Word) (s : State) : Out := onBar s Reg.SNP_HOLD (fun s => hostSnpHoldWrite w s)

/-- CARRY_OUT has stayed high for WIDTH FAB_CLK cycles from 2 after the last carry, counted in TIME_CLK (R279); a FAB_CLK
cycle is 64 / 125 of a TIME_CLK cycle. -/
def coutOver (s : State) : Bool :=
  decide ((2 + max 1 (rget s Reg.SNP_COUT F.SNP_COUT_WIDTH)) * 64 ≤ (s.time.cnt - s.snap.coutAt) * 125)

/-- CARRY_OUT falls (R279). -/
def execCarryOutEnd (s : State) : Out :=
  onHost s (fun s =>
    if s.snap.coutHigh && coutOver s then sendOut { s with snap := { s.snap with coutHigh := false } } (.carryOut false) else s)

/-- The parts of a die's section that have arrived in a bank, by part. -/
def fieldParts (b : Bank) (d : Die) : List (List Byte) :=
  (List.range 16).map (fun p => mapGet (fun _ => []) b.parts (16 * dieNum d + p))

/-- A die's section has arrived whole, or is marked invalid. -/
def fieldReady (b : Bank) (d : Die) : Bool := (fieldParts b d).all (fun p => !p.isEmpty)
def fieldInvalid (b : Bank) (d : Die) : Bool := match d with | .a => b.invalidA | .b => b.invalidB

/-- Change both banks. -/
def changeBanks (s : State) (f : Bank → Bank) : State :=
  { s with snap := { s.snap with presented := f s.snap.presented, latest := s.snap.latest.map f } }

/-- A die's section of a bank has not come within 1 ms of the bank's carry. -/
def sectionLate (s : State) (die : Die) (b : Bank) : Bool :=
  !fieldReady b die && !fieldInvalid b die && decide (b.cnt + 393216 ≤ s.time.cnt)

/-- Mark a die's section invalid. -/
def markInvalid (die : Die) (b : Bank) : Bank :=
  match die with
  | .a => { b with invalidA := true }
  | .b => { b with invalidB := true }

/-- A field section not returned within 1 ms is marked invalid in its bank, and raised (R276). -/
def execFieldSectionTimeout (die : Die) (s : State) : Out :=
  onHost s (fun s =>
    let lateBanks := (s.snap.presented :: s.snap.latest.toList).filter (sectionLate s die)
    forEach lateBanks (changeBanks s (fun b => if sectionLate s die b then markInvalid die b else b))
      (fun s _ => raise s 0x2C3 (dieNum die) 0))

/-- SNAPSHOT_ARM (R277, R278, R464; Table 12-7); a stack carry less than 50 µs ahead is refused (log entry 28). -/
def execSnapshotArm (d : DescRef) (s : State) : Out :=
  onDesc s d 0x30 (fun s bs =>
    let t := mkTime (par bs 16 0 48) (par bs 24 0 30)
    match par bs 8 0 2 with
    | 0 => finishCarry (carryEnabled s csReg) (fire s csReg 0) (some d) 0
    | 1 =>
      if 999999999 < par bs 24 0 30 then finish s d stInvalidParam 0
      else if ron s Reg.SNP_MATCH_CTRL F.SNP_MATCH_CTRL_ARM then finish s d stBusyRetry 0
      else
        let s := rput s Reg.SNP_MATCH_NS F.SNP_MATCH_NS_NS (par bs 24 0 30)
        let s := rput s Reg.SNP_MATCH_SEC_LO F.SNP_MATCH_SEC_LO_SEC_LO (par bs 16 0 32)
        let s := rput s Reg.SNP_MATCH_SEC_HI F.SNP_MATCH_SEC_HI_SEC_HI (par bs 16 32 16)
        if t < now s then finish (matchMissed s) d stTimeout 0
        else rset { s with snap := { s.snap with armed := some d } } Reg.SNP_MATCH_CTRL F.SNP_MATCH_CTRL_ARM
    | _ =>
      let tag := leAt bs 28 4
      if 999999999 < par bs 24 0 30 || !isStkMaster s || decide (t < now s + 50000 * 65536) then finish s d stInvalidParam 0
      else
        let s := stkSend s toAll smCarry [par bs 16 0 48, par bs 24 0 30, tag]
        scheduleCarry s t tag (some d))

/-- The header of a section (Table 07-6): its places are opaque; before the first carry every value reads zero. -/
def sectionHeader (s : State) (b : Bank) (k : Nat) (valid : Bool) : List Byte :=
  if !s.snap.valid then List.replicate 64 0
  else toBytes 64 (Config.snapHeader [k, b.seq, b.cause, b2n valid, b.time, b.cnt, b.index, b.pos, b.epoch, b.stag] % 2 ^ 512)

/-- The bytes SNAPSHOT_READ writes for section `k` (R275). -/
def sectionOut (s : State) (b : Bank) (k : Nat) : List Byte :=
  match k with
  | 0 => sectionHeader s b 0 true
  | 8 => sectionHeader s b 8 (!b.invalidA) ++ padTo 1024 (fieldParts b .a).flatten
  | 9 => sectionHeader s b 9 (!b.invalidB) ++ padTo 1024 (fieldParts b .b).flatten
  | _ => sectionHeader s b k true ++ padTo (sectionBytes.getD k 0) (b.sections.getD (k - 1) [])

/-- SNAPSHOT_READ (R275, R276); a buffer too short for what it names is refused (log entry 29). Section 8 or 9 of a die that
is absent is returned zero-filled and marked invalid (DESIGN CHOICE, log entry 157). -/
def execSnapshotRead (d : DescRef) (s : State) : Out :=
  onDesc s d 0x31 (fun s bs =>
    let b := s.snap.presented
    let ks := (List.range 10).filter (bitOf (par bs 8 0 10))
    let waits (k : Nat) (die : Die) : Bool := ks.contains k && s.snap.valid && !fieldReady b die && !fieldInvalid b die
    let out := (ks.map (sectionOut s b)).flatten
    if waits 8 .a || waits 9 .b then finish s d stNotReady 0
    else if leAt bs 24 4 < out.length then finish s d stInvalidParam 0
    else finish (hostWrite s (leAt bs 16 8) out) d stOk (b.seq + 2 ^ 32 * b2n s.snap.valid))

end Sys2Proof.Machine
end

