-- ==== Sys2Proof/Machine/Flags.lean ====
section
/-! DEFINITION. The arithmetic of the rods: results, fitting, extraction and flags (R188 to R193), and the effect of each
rod operation on what it reads (R194 to R201). -/

namespace Sys2Proof.Machine
open Sys2Proof

/-! ## Status bits (Table 04-4) -/

def srZ : Nat := 2 ^ 8
def srN : Nat := 2 ^ 9
def srV : Nat := 2 ^ 10
def srC : Nat := 2 ^ 11
def srVS : Nat := 2 ^ 12
def srSS : Nat := 2 ^ 13
def srIE : Nat := 2 ^ 16
def srIenWarn : Nat := 2 ^ 17
def srIenMbox : Nat := 2 ^ 18
def srINH : Nat := 2 ^ 19

/-- The bits of SR that LDI and MOVR may write: all but the reserved ones and INH (R148, R180). -/
def srWritable : Nat := 0x00073F07

/-- Every bit of SR that is not reserved. -/
def srAll : Nat := 0x000F3F07

/-! ## Fitting and extraction -/

/-- An exact value fitted to 72 bits (R190): the value, and the sticky bits it sets. -/
def fit72 (sat : Bool) (x : Int) : Int × Nat :=
  if x < -(2 ^ 71) ∨ x > 2 ^ 71 - 1 then
    if sat then ((if x < 0 then -(2 ^ 71) else 2 ^ 71 - 1), srVS + srSS)
    else ((x + 2 ^ 71) % 2 ^ 72 - 2 ^ 71, srVS)
  else (x, 0)

/-- Round a value at bit 32, to a multiple of 2^32 (step 2 of R192). -/
def roundAt32 (rnd : Nat) (x : Int) : Int :=
  match rnd with
  | 0 => x / 2 ^ 32 * 2 ^ 32
  | 1 => (x + 2 ^ 31) / 2 ^ 32 * 2 ^ 32
  | _ =>
    let up := (x + 2 ^ 31) / 2 ^ 32
    let up := if x % 2 ^ 32 = 2 ^ 31 ∧ up % 2 = 1 then up - 1 else up
    up * 2 ^ 32

/-- Extraction of a word from an accumulator with a shift (R192): the word, and whether step 3 found it out of range. -/
def extract (sat : Bool) (rnd k : Nat) (v : Int) : Word × Bool :=
  let h := roundAt32 rnd (v * 2 ^ k) / 2 ^ 32
  if h > 2 ^ 31 - 1 then (if sat then 0x7FFFFFFF#32 else BitVec.ofInt 32 h, true)
  else if h < -(2 ^ 31) then (if sat then 0x80000000#32 else BitVec.ofInt 32 h, true)
  else (BitVec.ofInt 32 h, false)

/-- A Q1.31 result (R191): the word, whether it overflowed, and whether it was clamped. -/
def q31 (sat : Bool) (x : Int) : Word × Bool :=
  if x > 2 ^ 31 - 1 then (if sat then 0x7FFFFFFF#32 else BitVec.ofInt 32 x, true)
  else if x < -(2 ^ 31) then (if sat then 0x80000000#32 else BitVec.ofInt 32 x, true)
  else (BitVec.ofInt 32 x, false)

/-- The number of bits below the sign bit of a `w`-bit value that equal it (R200). -/
def redundantSign (w : Nat) (x : Int) : Nat :=
  let m := if x < 0 then (-x - 1).toNat else x.toNat
  w - 1 - (if m = 0 then 0 else Nat.log2 m + 1)

/-! ## What an operation reads and writes -/

/-- What an operation reads: its instruction word, D registers in EX1, accumulators forwarded and as another read finds
them (R149, R196), SR.SAT and SR.RND, and the tap operands X[a], X[next(a)], Y[b], Y[next(b)]. -/
structure RodEnv where
  w : Nat
  d : Nat → Word
  accF : Nat → Int
  accO : Nat → Int
  sat : Bool
  rnd : Nat
  x0 : Word
  x1 : Word
  y0 : Word
  y1 : Word

/-- What an operation writes: D registers at the end of EX1, accumulators in WB, flags, and sticky bits set in EX1 and
in WB. -/
structure RodResult where
  d : List (Nat × Word) := []
  a : List (Nat × Int) := []
  mask : Nat := 0
  val : Nat := 0
  stickyEx : Nat := 0
  stickyWb : Nat := 0

/-- Fields of the instruction word (R194, R196, R197, R198, R200). -/
def opDD (w : Nat) : Nat := bitsOf w 47 4
def opDA (w : Nat) : Nat := bitsOf w 43 4
def opDB (w : Nat) : Nat := bitsOf w 39 4
def opAN (w : Nat) : Nat := bitsOf w 50 2

/-- The second operand of an ALU instruction: a D register, or IMM11 sign-extended (R194). -/
def aluB (e : RodEnv) : Word :=
  if bitOf e.w 51 then BitVec.ofInt 32 (signed 11 (bitsOf e.w 32 11)) else e.d (opDB e.w)

/-- Its first operand. -/
def aluA (e : RodEnv) : Word := e.d (opDA e.w)

/-- Flags Z and N of a word. -/
def znOf (r : Word) : Nat := (if r = 0 then srZ else 0) + (if r.msb then srN else 0)

/-- An ALU result with flags: V and C where the instruction sets them; V sets VS as well (R193). -/
def aluResult (e : RodEnv) (r : Word) (v c : Option Bool) (clamped : Bool) : RodResult :=
  let mask := srZ + srN + (if v.isSome then srV else 0) + (if c.isSome then srC else 0)
  let val := znOf r + (if v = some true then srV else 0) + (if c = some true then srC else 0)
  { d := [(opDD e.w, r)], mask := mask, val := val,
    stickyEx := (if v = some true then srVS else 0) + (if clamped then srSS else 0) }

/-- ADD and SUB (R191, R194). -/
def effAdd (e : RodEnv) : RodResult :=
  let (r, v) := q31 e.sat ((aluA e).toInt + (aluB e).toInt)
  aluResult e r (some v) (some (decide ((aluA e).toNat + (aluB e).toNat ≥ 2 ^ 32))) (v && e.sat)
def effSub (e : RodEnv) : RodResult :=
  let (r, v) := q31 e.sat ((aluA e).toInt - (aluB e).toInt)
  aluResult e r (some v) (some (decide ((aluA e).toNat ≥ (aluB e).toNat))) (v && e.sat)

/-- ADDI, SUBI and CMP never saturate (R191). -/
def effAddi (e : RodEnv) : RodResult :=
  let x := (aluA e).toInt + (aluB e).toInt
  aluResult e (aluA e + aluB e) (some (q31 false x).2) (some (decide ((aluA e).toNat + (aluB e).toNat ≥ 2 ^ 32))) false
def effSubi (e : RodEnv) : RodResult :=
  let x := (aluA e).toInt - (aluB e).toInt
  aluResult e (aluA e - aluB e) (some (q31 false x).2) (some (decide ((aluA e).toNat ≥ (aluB e).toNat))) false
def effCmp (e : RodEnv) : RodResult := { effSubi e with d := [] }

/-- Logical operations: V is 0 and C is kept (Table 05-7). -/
def effAnd (e : RodEnv) : RodResult := aluResult e (aluA e &&& aluB e) (some false) none false
def effOr (e : RodEnv) : RodResult := aluResult e (aluA e ||| aluB e) (some false) none false
def effXor (e : RodEnv) : RodResult := aluResult e (aluA e ^^^ aluB e) (some false) none false
def effNot (e : RodEnv) : RodResult := aluResult e (~~~(aluA e)) (some false) none false

/-- The shift amount (R195). -/
def shiftC (e : RodEnv) : Nat := (aluB e).toNat % 64

/-- The last bit shifted out leftward or rightward; unchanged for 0, and 0 or the sign bit above 32 (R193). -/
def carryLeft (a : Word) (c : Nat) : Option Bool :=
  if c = 0 then none else if c ≤ 32 then some (bitOf a.toNat (32 - c)) else some false
def carryRight (a : Word) (c : Nat) (fill : Bool) : Option Bool :=
  if c = 0 then none else if c ≤ 32 then some (bitOf a.toNat (c - 1)) else some fill

/-- The shifts (R195, Table 05-7). -/
def effAsl (e : RodEnv) : RodResult :=
  let (r, v) := q31 e.sat ((aluA e).toInt * 2 ^ shiftC e)
  aluResult e r (some v) (carryLeft (aluA e) (shiftC e)) (v && e.sat)
def effAsr (e : RodEnv) : RodResult :=
  aluResult e (BitVec.ofInt 32 ((aluA e).toInt / 2 ^ shiftC e)) (some false)
    (carryRight (aluA e) (shiftC e) (aluA e).msb) false
def effLsl (e : RodEnv) : RodResult :=
  aluResult e (BitVec.ofNat 32 ((aluA e).toNat * 2 ^ shiftC e)) (some false) (carryLeft (aluA e) (shiftC e)) false
def effLsr (e : RodEnv) : RodResult :=
  aluResult e (BitVec.ofNat 32 ((aluA e).toNat / 2 ^ shiftC e)) (some false)
    (carryRight (aluA e) (shiftC e) false) false

/-- ABS and NEG overflow on 0x8000_0000 alone (Table 05-7). -/
def effAbs (e : RodEnv) : RodResult :=
  let (r, v) := q31 e.sat (aluA e).toInt.natAbs
  aluResult e r (some v) none (v && e.sat)
def effNeg (e : RodEnv) : RodResult :=
  let (r, v) := q31 e.sat (-(aluA e).toInt)
  aluResult e r (some v) none (v && e.sat)

/-- MIN, MAX and AMAX keep V and C (Table 05-7). -/
def effMin (e : RodEnv) : RodResult :=
  aluResult e (if (aluA e).toInt ≤ (aluB e).toInt then aluA e else aluB e) none none false
def effMax (e : RodEnv) : RodResult :=
  aluResult e (if (aluA e).toInt ≥ (aluB e).toInt then aluA e else aluB e) none none false
def effAmax (e : RodEnv) : RodResult :=
  let m := (q31 true (aluA e).toInt.natAbs).1
  aluResult e (if m.toInt ≥ (aluB e).toInt then m else aluB e) none none false

/-! ## ACC class (R196) -/

def opAM (w : Nat) : Nat := bitsOf w 48 2
def opD (w : Nat) : Nat := bitsOf w 44 4
def opK (w : Nat) : Nat := bitsOf w 38 6

/-- An accumulator result fitted under R190; its sticky bits are set in WB. -/
def accResult (e : RodEnv) (x : Int) : RodResult :=
  let (r, st) := fit72 e.sat x
  { a := [(opAN e.w, r)], stickyWb := st }

def effClr (e : RodEnv) : RodResult := { a := [(opAN e.w, 0)] }
def effMova (e : RodEnv) : RodResult := { a := [(opAN e.w, e.accF (opAM e.w))] }
def effAdda (e : RodEnv) : RodResult := accResult e (e.accF (opAN e.w) + e.accF (opAM e.w))
def effSuba (e : RodEnv) : RodResult := accResult e (e.accF (opAN e.w) - e.accF (opAM e.w))
def effNega (e : RodEnv) : RodResult := accResult e (-(e.accF (opAM e.w)))
def effAbsa (e : RodEnv) : RodResult := accResult e (e.accF (opAM e.w)).natAbs
def effShla (e : RodEnv) : RodResult := accResult e (e.accF (opAM e.w) * 2 ^ opK e.w)
def effShra (e : RodEnv) : RodResult := accResult e (e.accF (opAM e.w) / 2 ^ opK e.w)
def effRnda (e : RodEnv) : RodResult := accResult e (roundAt32 e.rnd (e.accF (opAM e.w)))

/-- SATA clamps whatever SR.SAT is (Table 05-9). -/
def effSata (e : RodEnv) : RodResult :=
  let v := e.accF (opAM e.w)
  if v ≥ 2 ^ 63 then { a := [(opAN e.w, 2 ^ 63 - 1)], stickyWb := srSS }
  else if v < -(2 ^ 63) then { a := [(opAN e.w, -(2 ^ 63))], stickyWb := srSS }
  else { a := [(opAN e.w, v)] }

def effLda (e : RodEnv) : RodResult := { a := [(opAN e.w, (e.d (opD e.w)).toInt * 2 ^ 32)] }
def effLdal (e : RodEnv) : RodResult := { a := [(opAN e.w, (e.d (opD e.w)).toInt)] }

/-- EXT sets Z, N and V; SS where it saturated (R192, Table 05-7). -/
def effExt (e : RodEnv) : RodResult :=
  let (r, out) := extract e.sat e.rnd (opK e.w) (e.accO (opAN e.w))
  { d := [(opD e.w, r)], mask := srZ + srN + srV, val := znOf r + (if out then srV else 0),
    stickyEx := (if out then srVS else 0) + (if out && e.sat then srSS else 0) }

def effExtl (e : RodEnv) : RodResult := { d := [(opD e.w, BitVec.ofInt 32 (e.accO (opAN e.w)))] }
def effExtg (e : RodEnv) : RodResult := { d := [(opD e.w, BitVec.ofInt 32 (e.accO (opAN e.w) / 2 ^ 64))] }

/-- TSTA (Table 05-7). -/
def effTsta (e : RodEnv) : RodResult :=
  let v := e.accO (opAN e.w)
  let out := decide (v < -(2 ^ 63)) || decide (v ≥ 2 ^ 63)
  { mask := srZ + srN + srV, val := (if v = 0 then srZ else 0) + (if v < 0 then srN else 0) + (if out then srV else 0),
    stickyEx := if out then srVS else 0 }

/-! ## MAC and tap classes (R189, R197, R198) -/

/-- The exponent s of PSH (R189). -/
def pshExp (psh : Nat) : Nat := match psh with | 0 => 1 | 1 => 2 | _ => 0

/-- A product of two words (R189). -/
def product (psh : Nat) (a b : Word) : Int := a.toInt * b.toInt * 2 ^ pshExp psh

/-- The products Da·Db and Dc·Dd of a MAC instruction. -/
def macP (e : RodEnv) : Int := product (bitsOf e.w 32 2) (e.d (bitsOf e.w 46 4)) (e.d (bitsOf e.w 42 4))
def macQ (e : RodEnv) : Int := product (bitsOf e.w 32 2) (e.d (bitsOf e.w 38 4)) (e.d (bitsOf e.w 34 4))

def effMpy (e : RodEnv) : RodResult := accResult e (macP e)
def effMac (e : RodEnv) : RodResult := accResult e (e.accF (opAN e.w) + macP e)
def effMsu (e : RodEnv) : RodResult := accResult e (e.accF (opAN e.w) - macP e)
def effMpy2 (e : RodEnv) : RodResult := accResult e (macP e + macQ e)
def effMac2 (e : RodEnv) : RodResult := accResult e (e.accF (opAN e.w) + macP e + macQ e)
def effMsu2 (e : RodEnv) : RodResult := accResult e (e.accF (opAN e.w) - macP e - macQ e)

/-- The accumulator whose number has bit 0 inverted. -/
def partner (n : Nat) : Nat := n ^^^ 1

/-- Two accumulators at once. -/
def accPair (e : RodEnv) (x y : Int) : RodResult :=
  let (r, st) := fit72 e.sat x
  let (r2, st2) := fit72 e.sat y
  { a := [(opAN e.w, r), (partner (opAN e.w), r2)], stickyWb := st ||| st2 }

def effMpyx (e : RodEnv) : RodResult := accPair e (macP e) (macQ e)
def effMacx (e : RodEnv) : RodResult :=
  accPair e (e.accF (opAN e.w) + macP e) (e.accF (partner (opAN e.w)) + macQ e)

/-- A tap instruction with its product term (R198). -/
def tapResult (e : RodEnv) (p : Int) : RodResult :=
  let p := if bitOf e.w 48 then -p else p
  accResult e (if bitOf e.w 49 then p else e.accF (opAN e.w) + p)

def tapProduct (e : RodEnv) (a b : Word) : Int := product (bitsOf e.w 46 2) a b
def effTap (e : RodEnv) : RodResult := tapResult e (tapProduct e e.x0 e.y0)
def effTap2 (e : RodEnv) : RodResult := tapResult e (tapProduct e e.x0 e.y0 + tapProduct e e.x1 e.y1)
def effTapm (e : RodEnv) : RodResult := effTap e

/-! ## Control-rod class (R200, R201) -/

def ctlDD (w : Nat) : Nat := bitsOf w 46 4
def ctlDA (w : Nat) : Nat := bitsOf w 42 4

/-- EXP and BEXP set Z from the result and clear N. -/
def expResult (e : RodEnv) (r : Word) : RodResult :=
  { d := [(ctlDD e.w, r)], mask := srZ + srN, val := if r = 0 then srZ else 0 }

def effExp (e : RodEnv) : RodResult := expResult e (BitVec.ofNat 32 (redundantSign 32 (e.d (ctlDA e.w)).toInt))

/-- BEXP lowers Dd, a two's complement integer, to the count (log entry 15). -/
def effBexp (e : RodEnv) : RodResult :=
  let k : Int := redundantSign 32 (e.d (ctlDA e.w)).toInt
  expResult e (BitVec.ofInt 32 (if (e.d (ctlDD e.w)).toInt ≤ k then (e.d (ctlDD e.w)).toInt else k))

/-- NORM reads An in EX1 and writes it in WB (Table 05-12). -/
def effNorm (e : RodEnv) : RodResult :=
  let v := e.accO (opAN e.w)
  let k : Int := (redundantSign 72 v : Int) - 8
  let r := if k ≥ 0 then v * 2 ^ k.toNat else v / 2 ^ (-k).toNat
  { d := [(ctlDD e.w, BitVec.ofInt 32 k)], a := [(opAN e.w, r)], mask := srZ + srN,
    val := (if v = 0 then srZ else 0) + (if v < 0 then srN else 0) }

/-- One step of restoring division (R201). -/
def effDivs (e : RodEnv) : RodResult :=
  let sh : Int := ((e.accF (opAN e.w) * 2 + 2 ^ 71) % 2 ^ 72) - 2 ^ 71
  let t := sh / 2 ^ 32 - (e.d (ctlDA e.w)).toInt
  let r := if t ≥ 0 then signed 40 (t % 2 ^ 40).toNat * 2 ^ 32 + (sh % 2 ^ 32 / 2 * 2 + 1) else sh
  { a := [(opAN e.w, r)] }

/-- An operation with its moves alone. -/
def effNone (_ : RodEnv) : RodResult := {}

end Sys2Proof.Machine
end

