-- ==== Sys2Proof/Machine/Operands.lean ====
section
/-! DEFINITION. The operand forms of the rods: address arithmetic, the X and Y moves, and tap operands (R181 to R187). -/

namespace Sys2Proof.Machine
open Sys2Proof

/-- mod(a, d) under buffer base `b` and length `l` (R185), a word address of 20 bits (Table 04-3). -/
def bufMod (b l a : Nat) (d : Int) : Nat :=
  if l ≠ 0 ∧ b ≤ a ∧ a < b + l then (b + (((a - b : Nat) : Int) + d) % (l : Int)).toNat % 2 ^ 20
  else (((a : Int) + d) % 2 ^ 20).toNat

/-- Reverse the lowest `k` bits of a number. -/
def revBits (k v : Nat) : Nat := (List.range k).foldl (fun acc i => acc + b2n (bitOf v i) * 2 ^ (k - 1 - i)) 0

/-- rev(a, m) with L = 2^k (R186): the sum of the low k bits with its carry running toward bit 0. -/
def revAdd (k a m : Nat) : Nat :=
  a - a % 2 ^ k + revBits k ((revBits k (a % 2 ^ k) + revBits k (m % 2 ^ k)) % 2 ^ k)

/-- Whether a length is a power of two from 2^1 to 2^19 (R186). -/
def revLength (l : Nat) : Bool := decide (2 ≤ l) && decide (l ≤ 2 ^ 19) && l == 2 ^ Nat.log2 l

/-- The effective address of a mode, and the address register afterwards (Table 05-6): a value, modifier, base, length. -/
def addressMode (mode a : Nat) (m : Int) (b l : Nat) : Nat × Nat :=
  match mode with
  | 0 => (a, a)
  | 1 => (a, bufMod b l a 1)
  | 2 => (a, bufMod b l a (-1))
  | 3 => (a, bufMod b l a m)
  | 4 => (a, bufMod b l a (-m))
  | 5 => (bufMod b l a m, a)
  | _ => (a, if revLength l then revAdd (Nat.log2 l) a (m % 2 ^ 20).toNat else (((a : Int) + m) % 2 ^ 20).toNat)

/-- What a move or an instruction has gathered: results, a failure with its cause and stage and the word address it met
it at, the banks of its frame SRAM accesses in their order (R142), and the tap operands it read. -/
structure Gather where
  writes : List RodWrite := []
  fail : Option (Nat × Nat) := none
  bad : Nat := 0
  frame : List Nat := []
  taps : List Word := []

/-- Failure causes (R172). -/
def caOverrun : Nat := 1
def caIllegal : Nat := 2
def caUnmapped : Nat := 3
def caLoopOvf : Nat := 4
def caLoopUnf : Nat := 5
def caPoison : Nat := 6
def caEccP : Nat := 7
def caEccX : Nat := 8
def caEccY : Nat := 9
def caDma : Nat := 10
def caConfig : Nat := 11

/-- The place of an X (`y` false) or Y word; none where the address is unmapped (Table 04-2). -/
def wordLoc (y : Bool) (a : Nat) : Option RodLoc :=
  if a < 0x8000 then some (if y then .y a else .x a)
  else if a < 0x80000 then none
  else some (.f (a - 0x80000))

/-- Read a word in MR of issue `r.n` (R142, R149): the word, or the cause of a failure. A store of the rod that the read
already finds has replaced poison (R42). -/
def readWord (s : State) (g : Nat) (y : Bool) (a : Nat) : Except Nat Word :=
  let r := rodAt s g
  match wordLoc y a with
  | none => .error caUnmapped
  | some loc =>
    let base : Word := match loc with
      | .x a => mapGet (fun _ => 0) r.x a
      | .y a => mapGet (fun _ => 0) r.y a
      | .f a => frameGet s (rodFrame g) a
      | _ => 0
    let bad : Bool := match loc with
      | .f a => framePoisoned s (rodFrame g) a && !r.pend.any (fun x => x.loc == .f a && decide (x.land < r.n + 4))
      | _ => false
    if bad then .error caPoison else .ok (BitVec.ofNat 32 (seenAt r.pend loc (r.n + 4) base.toNat))

/-- The bank of an access, where it reaches the frame SRAM (R142). -/
def bankOf (a : Nat) : List Nat := if 0x80000 ≤ a then [a % 8] else []

/-- The stage a failure cause is found in: an unmapped address in AG, poison in MR. -/
def causeStage (c : Nat) : Nat := if c = caUnmapped then 3 else 4

/-- Record a failure, unless an earlier one stands. -/
def gatherFail (c a : Nat) (acc : Gather) : Gather :=
  if acc.fail.isSome then acc else { acc with fail := some (c, causeStage c), bad := a }

/-- Record a load of a word into a D register. -/
def gatherLoad (s : State) (g : Nat) (y : Bool) (a reg : Nat) (acc : Gather) : Gather :=
  match readWord s g y a with
  | .error c => gatherFail c a acc
  | .ok v => { acc with writes := acc.writes ++ [⟨(rodAt s g).n + 6, .reg reg, 2 ^ 32 - 1, v.toNat, .plain⟩],
                        frame := acc.frame ++ bankOf a }

/-- Record a tap operand (R198). -/
def gatherTap (s : State) (g : Nat) (y : Bool) (a : Nat) (acc : Gather) : Gather :=
  match readWord s g y a with
  | .error c => gatherFail c a acc
  | .ok v => { acc with taps := acc.taps ++ [v], frame := acc.frame ++ bankOf a }

/-- Record a store of a word, which lands in WB. -/
def gatherStore (s : State) (g : Nat) (y : Bool) (a : Nat) (v : Word) (acc : Gather) : Gather :=
  match wordLoc y a with
  | none => gatherFail caUnmapped a acc
  | some loc => { acc with writes := acc.writes ++ [⟨(rodAt s g).n + 7, loc, 2 ^ 32 - 1, v.toNat, .plain⟩],
                           frame := acc.frame ++ bankOf a }

/-- The operation's own share of a move's tap: whether the second word is read too (TAP2), or the first is written one
place up (TAPM). -/
inductive TapForm where
  | none | pair | moveUp
  deriving DecidableEq, Repr

/-- Run one move field on X or Y (R181, R182, R187): it forms its address, post-modifies in AG and records its effect. -/
def runMove (s : State) (g : Nat) (y : Bool) (m : Nat) (tap : TapForm) (acc : Gather) : Gather :=
  let r := rodAt s g
  let n := bitsOf m 11 2
  let o := if y then 0x20 else 0x10
  let t := r.n + 3
  let a := regSeen r (o + n) t
  let md := signed 20 (regSeen r (o + 4 + n) t)
  let b := regSeen r (o + 8 + n) t
  let l := regSeen r (o + 12 + n) t
  let mode := bitsOf m 8 3
  let (ea, after) := addressMode mode a md b l
  let next := bufMod b l ea 1
  let reg := bitsOf m 4 4
  let post : Gather → Gather := fun acc =>
    if mode = 0 ∨ mode = 5 then acc
    else { acc with writes := acc.writes ++ [⟨r.n + 3, .reg (o + n), 2 ^ 20 - 1, after, .plain⟩] }
  let d (i : Nat) : Word := BitVec.ofNat 32 (regSeen r i (r.n + 5))
  match bitsOf m 13 3 with
  | 0 => acc
  | 1 => gatherLoad s g y ea reg (post acc)
  | 2 => gatherStore s g y ea (d reg) (post acc)
  | 3 =>
    let v := accSeen r (reg / 4) (r.n + 5)
    let sr := regSeen r 0x30 (r.n + 4)
    let acc := post acc
    match reg % 4 with
    | 0 =>
      let (w, out) := extract (bitOf sr 0) (bitsOf sr 1 2) 0 v
      let acc := gatherStore s g y ea w acc
      if out && bitOf sr 0 then
        { acc with writes := acc.writes ++ [⟨r.n + 5, .reg 0x30, srSS, srSS, .stickyEx⟩] }
      else acc
    | 1 => gatherStore s g y ea (BitVec.ofInt 32 v) acc
    | 2 => gatherStore s g y ea (BitVec.ofInt 32 (v / 2 ^ 64)) acc
    | _ => gatherStore s g y ea (BitVec.ofInt 32 (v / 2 ^ 32)) acc
  | 4 => gatherLoad s g y next (reg + 1) (gatherLoad s g y ea reg (post acc))
  | 5 =>
    { acc with writes := acc.writes ++ [⟨r.n + 5, .reg reg, 2 ^ 32 - 1, (d (bitsOf m 0 4)).toNat, .plain⟩] }
  | 6 =>
    let acc := gatherTap s g y ea (post acc)
    match tap with
    | .none => acc
    | .pair => gatherTap s g y next acc
    | .moveUp => if y then acc else gatherStore s g y next (acc.taps.getLastD 0) acc
  | _ => post acc

end Sys2Proof.Machine
end

