-- ==== Sys2Proof/Machine/Rods.lean ====
section
/-! DEFINITION. The rods at work: issue, loops, interrupts, halts, failures, passes and their DMA lists (R149 to R167,
R171, R177, R178, R202 to R205), and the meaning of every rod instruction. -/

namespace Sys2Proof.Machine
open Sys2Proof

/-! ## Failures (R159, R160) -/

/-- A rod's block fails with a cause at an address: its pipeline is discarded, the counters and ROD_CAUSE take it, its
source is raised, and a third failure in a row or an ECC cause fences it. -/
def failRod (s : State) (g cause pc : Nat) : State :=
  let s := setPhase' (dropPass s g) g .stopped
  let c := rodReg Reg.ROD_CAUSE g
  let s := rset (rput (rput s c F.ROD_CAUSE_CAUSE cause) c F.ROD_CAUSE_PC pc) c F.ROD_CAUSE_VALID
  let s := wr s (rodReg Reg.ROD_FAILIDX g) (rd s Reg.SYS_BLKIDX_LO)
  let s := rput s (rodReg Reg.ROD_CYC_LAST g) F.ROD_CYC_LAST_CYCLES 0xFFFFF
  let o := rodReg Reg.ROD_OVR_CNT g
  let s := radd s o F.ROD_OVR_CNT_FAILED 1
  let s := if cause = caOverrun then radd s o F.ROD_OVR_CNT_OVERRUNS 1 else s
  let s := radd s (rodReg Reg.ROD_STAT g) F.ROD_STAT_FAILS 1
  let ecc := cause == caEccP || cause == caEccX || cause == caEccY
  let s := if ecc || decide (rget s (rodReg Reg.ROD_STAT g) F.ROD_STAT_FAILS ≥ 3) then rodFence s g else s
  raise s (0x1C0 + g) g 0

/-- An instruction fails its rod in a pipeline stage: what landed before stays. -/
def failIssue (s : State) (g cause stage : Nat) : State :=
  failRod (landBefore s g ((rodAt s g).n + stage)) g cause (rodAt s g).pc

/-- A rod reads a poisoned frame SRAM word: the frame SRAM raises its MEM source (R41, R159). -/
def poisonRead (s : State) (g w : Nat) : State := raise s (0x508 + rodFrame g) noInst (4 * w)

/-- A move fails its rod with a cause in a stage, at a word address of X or Y. -/
def failMove (s : State) (g cause stage a : Nat) : State :=
  failIssue (if cause = caPoison then poisonRead s g (a - 0x80000) else s) g cause stage

/-! ## Acceptance points (R153, R154, R157) -/

/-- Whether the boundary before the next issue is an acceptance point. -/
def atAcceptance (r : Rod) : Bool := r.slots == 0 && !r.repeating && (r.depth == 0 || r.iter)

/-- SR as acceptance points see it. -/
def srNow (r : Rod) : Nat := regSeen r 0x30 (r.n + 5)

/-- The vector of the interrupt that would be taken now, and its pending bit (Table 04-7); handlers do not nest (R155). -/
def takeable (s : State) (g : Nat) : Option (Nat × Fld) :=
  let r := rodAt s g
  let ip := rodReg Reg.ROD_IPEND g
  let sr := srNow r
  if bitOf sr 19 then none
  else if ron s ip F.ROD_IPEND_TRAP then some (0x08, F.ROD_IPEND_TRAP)
  else if ron s ip F.ROD_IPEND_WARN && bitOf sr 16 && bitOf sr 17 then some (0x10, F.ROD_IPEND_WARN)
  else if ron s ip F.ROD_IPEND_MBOX && bitOf sr 16 && bitOf sr 18 then some (0x18, F.ROD_IPEND_MBOX)
  else none

/-- Whether a halt is asked for. -/
def haltAsked (s : State) (g : Nat) : Bool := ron s (rodReg Reg.ROD_CTRL g) F.ROD_CTRL_HALT_REQ

/-- Whether rod `g` issues its next instruction now: in its pass, no access waiting for its bank (R142,
R143), within its budget (R159), and not at an acceptance point
where a halt or an interrupt is taken instead. -/
def mayIssue (s : State) (g : Nat) : Bool :=
  (rodAt s g).phase == .inPass && (rodAt s g).wants.isEmpty && decide ((rodAt s g).cyc < budgetCycles s) && !(atAcceptance (rodAt s g) && (haltAsked s g || (takeable s g).isSome))

/-! ## Issue -/

/-- The instruction word at the next address. -/
def nextWord (r : Rod) : Nat := (mapGet (fun _ => (0 : Word64)) r.p r.pc).toNat

/-- Whether the next issue is one of the last three instructions of the innermost loop body (R150). -/
def inLoopTail (r : Rod) : Bool :=
  r.depth != 0 &&
    decide ((regSeen r (0x3B + r.depth) (r.n + 3) + 8192 - r.pc) % 8192 ≤ 2)

/-- The next address after an ordinary issue (R151, R152, R202, R205): a repeat, the loop-end test, a transfer at its
last delay slot, or the next word. A loop level whose LC is 0 at its end is left, as one whose LC is 1 (DESIGN CHOICE, log
entry 156). -/
def advance (r : Rod) : Rod :=
  let rpt := regSeen r 0x33 (r.n + 2)
  if r.repeating ∧ rpt > 1 then
    { r with pend := insertWrite ⟨r.n + 1, .reg 0x33, 0x3FF, rpt - 1, .plain⟩ r.pend }
  else
    let r := if r.repeating then
        { r with repeating := false, pend := insertWrite ⟨r.n + 1, .reg 0x33, 0x3FF, 0, .plain⟩ r.pend }
      else r
    let n := r.depth - 1
    let atEnd := r.depth != 0 && regSeen r (0x3C + n) (r.n + 3) == r.pc
    let lc := regSeen r (0x34 + n) (r.n + 3)
    let back := atEnd && decide (lc > 1)
    let ls := regSeen r (0x38 + n) (r.n + 3)
    let r := if back then { r with pend := insertWrite ⟨r.n + 2, .reg (0x34 + n), 0xFFFF, lc - 1, .plain⟩ r.pend }
      else if atEnd then { r with depth := n } else r
    let seq := if back then ls else (r.pc + 1) % 8192
    if r.slots = 1 then
      match r.target with
      | some (t, rti) => { r with pc := t, slots := 0, target := none, iter := rti }
      | none => { r with pc := seq, slots := 0, iter := back }
    else { r with pc := seq, slots := r.slots - 1, iter := back }

/-- Whether a rod runs a pass in this block. -/
def runsPass (s : State) (g : Nat) : Bool :=
  running s && rodState s g == rdActive && (rodAt s g).wait == 0 && (rodAt s g).phase == .waiting

/-- Count an issue and ask for the banks of its frame SRAM accesses, X first, from the next cycle on: each costs that cycle
and its wait (R142, R177). An access counts from its issue whatever stage it falls in (DESIGN CHOICE, log entry 158). -/
def countIssue (s : State) (g : Nat) (frame : List Nat) : State :=
  let r := rodAt s g
  settleFrame (setRod s g { r with n := r.n + 1, cyc := r.cyc + 1, wants := frame }) (rodFrame g)

/-- The share of a tap operation in its moves. -/
def tapForm : RodOp → TapForm
  | .tap2 => .pair
  | .tapm => .moveUp
  | _ => .none

/-- What the operation reads (R149, R182). -/
def envOf (r : Rod) (w : Nat) (gx gy : List Word) : RodEnv :=
  let sr := regSeen r 0x30 (r.n + 4)
  { w := w, d := fun i => BitVec.ofNat 32 (regSeen r i (r.n + 5)),
    accF := fun i => accSeen r i (r.n + 8), accO := fun i => accSeen r i (r.n + 5),
    sat := bitOf sr 0, rnd := bitsOf sr 1 2,
    x0 := gx.getD 0 0, x1 := gx.getD 1 0, y0 := gy.getD 0 0, y1 := gy.getD 1 0 }

/-- The pipeline writes of an operation's result. -/
def resultWrites (n : Nat) (x : RodResult) : List RodWrite :=
  x.d.map (fun p => ⟨n + 5, .reg p.1, 2 ^ 32 - 1, p.2.toNat, .plain⟩)
    ++ x.a.map (fun p => ⟨n + 7, .acc p.1, 2 ^ 72 - 1, wrapTo 72 p.2, .plain⟩)
    ++ (if x.mask = 0 then [] else [⟨n + 5, .reg 0x30, x.mask, x.val, .plain⟩])
    ++ (if x.stickyEx = 0 then [] else [⟨n + 5, .reg 0x30, x.stickyEx, x.stickyEx, .stickyEx⟩])
    ++ (if x.stickyWb = 0 then [] else [⟨n + 7, .reg 0x30, x.stickyWb, x.stickyWb, .stickyWb⟩])

/-- Put results into a rod's pipeline in order. -/
def addWrites (r : Rod) (ws : List RodWrite) : Rod := { r with pend := ws.foldl (fun p x => insertWrite x p) r.pend }

/-- The moves of an instruction word: X, then Y; none for LDI and END, and no X move for LOOP with an immediate count
(Table 05-2). -/
def gatherMoves (s : State) (g : Nat) (op : RodOp) (w : Nat) : Gather × Gather :=
  let none' : Gather := {}
  match op with
  | .ldi | .endPass => (none', none')
  | .loop =>
    (if bitOf w 57 then runMove s g false (xMove w) .none {} else none', runMove s g true (yMove w) .none {})
  | op => (runMove s g false (xMove w) (tapForm op) {}, runMove s g true (yMove w) (tapForm op) {})

/-- Whether rod `g` issues operation `op` next. -/
def issues (s : State) (g : Nat) (op : RodOp) : Bool :=
  mayIssue s g && decodeRod (isControl g) (nextWord (rodAt s g)) == some op

/-- Issue the next instruction if it is `op`: its moves run, its results enter the pipeline, then `control` gives the
next address. A restricted operation in a delay slot, a repeat or a loop's last three instructions fails (R150). Where
the rod does not issue `op` next the state is unchanged (log entry 3). -/
def issue (s : State) (g : Nat) (op : RodOp) (eff : RodEnv → RodResult) (control : Nat → Rod → Except Nat Rod) : State :=
  if !issues s g op then s
  else
    let s := landBefore s g ((rodAt s g).n + 2)
    let r := rodAt s g
    let w := nextWord r
    if restricted op && (decide (r.slots ≠ 0) || r.repeating || inLoopTail r) then failIssue s g caIllegal 2
    else
      let (gx, gy) := gatherMoves s g op w
      match (if gx.fail.isSome then gx.fail else gy.fail) with
      | some (c, st) => failMove s g c st (if gx.fail.isSome then gx.bad else gy.bad)
      | none =>
        let res := eff (envOf r w gx.taps gy.taps)
        match control w r with
        | .error c => failIssue s g c 2
        | .ok r' => countIssue (setRod s g (addWrites r' (resultWrites r.n res ++ gx.writes ++ gy.writes))) g (gx.frame ++ gy.frame)

/-- An instruction with no control flow of its own. -/
def plainControl (_ : Nat) (r : Rod) : Except Nat Rod := .ok (advance r)

/-- The answer of an ordinary instruction command. -/
def onIssue (s : State) (g : Nat) (op : RodOp) (eff : RodEnv → RodResult) : Out :=
  onHost s (fun s => issue s g op eff plainControl)

/-! ## Control flow (R151, R152, R202 to R204) -/

/-- Whether a condition holds on the flags as AG sees them (Table 05-14). -/
def condHolds (sr c : Nat) : Bool :=
  let z := bitOf sr 8
  let n := bitOf sr 9
  let v := bitOf sr 10
  match c with
  | 0 => true
  | 1 => z
  | 2 => !z
  | 3 => n
  | 4 => !n
  | 5 => v
  | 6 => !v
  | 7 => bitOf sr 11
  | 8 => !bitOf sr 11
  | 9 => !z && n == v
  | 10 => n == v
  | 11 => n != v
  | 12 => z || n != v
  | 13 => bitOf sr 13
  | _ => bitOf sr 12

/-- REP (R151): a count of 0 skips the next instruction. -/
def repControl (w : Nat) (r : Rod) : Except Nat Rod :=
  let c := if bitOf w 57 then regSeen r (bitsOf w 53 4) (r.n + 2) % 1024 else bitsOf w 32 10
  if c = 0 then .ok { r with pc := (r.pc + 2) % 8192, iter := false }
  else
    .ok { r with pc := (r.pc + 1) % 8192, repeating := true, iter := false,
                 pend := insertWrite ⟨r.n + 1, .reg 0x33, 0x3FF, c, .plain⟩ r.pend }

/-- The instruction belongs to an interrupt handler, which must not execute LOOP or ENDL (R155, R159). -/
def inHandler (r : Rod) : Bool := bitOf (regSeen r 0x30 (r.n + 2)) 19

/-- LOOP (R152): pushes a level; a fifth fails, a count of 0 skips the body. -/
def loopControl (w : Nat) (r : Rod) : Except Nat Rod :=
  let c := if bitOf w 57 then regSeen r (bitsOf w 53 4) (r.n + 2) % 65536 else bitsOf w 16 16
  let e := bitsOf w 32 13
  let start := (r.pc + 1) % 8192
  if inHandler r then .error caIllegal
  else if c = 0 then .ok { r with pc := (e + 1) % 8192, iter := false }
  else if r.depth ≥ 4 then .error caLoopOvf
  else
    let n := r.depth
    .ok (addWrites { r with pc := start, depth := n + 1, iter := true }
      [⟨r.n + 2, .reg (0x34 + n), 0xFFFF, c, .plain⟩, ⟨r.n + 2, .reg (0x38 + n), 0x1FFF, start, .plain⟩,
       ⟨r.n + 2, .reg (0x3C + n), 0x1FFF, e, .plain⟩])

/-- ENDL pops a level; with none active it fails (R152). -/
def endlControl (_ : Nat) (r : Rod) : Except Nat Rod :=
  if inHandler r then .error caIllegal else if r.depth = 0 then .error caLoopUnf else .ok { advance r with depth := r.depth - 1 }

/-- A transfer's three delay slots (R202), after its own issue. -/
def transfer (r : Rod) (taken : Bool) (t : Nat) (rti : Bool) : Rod :=
  { r with pc := (r.pc + 1) % 8192, slots := 3, iter := false, target := if taken then some (t % 8192, rti) else none }

/-- The flags as AG of this issue sees them (R204). -/
def srAG (r : Rod) : Nat := regSeen r 0x30 (r.n + 3)

/-- B and CALL (Table 05-13): CALL writes its link register whether or not it is taken. -/
def branchControl (link : Bool) (w : Nat) (r : Rod) : Except Nat Rod :=
  let t := if bitOf w 53 then regSeen r (bitsOf w 49 4) (r.n + 3) else bitsOf w 32 13
  let r' := transfer r (condHolds (srAG r) (bitsOf w 54 4)) t false
  .ok (if link then addWrites r' [⟨r.n + 5, .reg (bitsOf w 45 4), 2 ^ 32 - 1, (r.pc + 4) % 8192, .plain⟩] else r')

/-- RET (Table 05-13). -/
def retControl (w : Nat) (r : Rod) : Except Nat Rod :=
  .ok (transfer r (condHolds (srAG r) (bitsOf w 54 4)) (regSeen r (bitsOf w 49 4) (r.n + 3)) false)

/-- RTI restores PC from IPC and SR from ISR, with three delay slots (R155). -/
def rtiControl (_ : Nat) (r : Rod) : Except Nat Rod :=
  .ok (addWrites (transfer r true (regSeen r 0x31 (r.n + 3)) true)
    [⟨r.n + 5, .reg 0x30, srAll, regSeen r 0x32 (r.n + 5), .plain⟩])

/-! ## LDI and MOVR (R180, R565) -/

/-- SR as MOVR reads it: sticky bits set in WB are seen from the fifth instruction after (R190). -/
def srForMove (r : Rod) : Nat :=
  seenAt (r.pend.filter (fun x => x.kind != .stickyWb || decide (x.land < r.n + 3))) (.reg 0x30) (r.n + 5)
    (mapGet (fun _ => 0) r.file 0x30)

/-- The value MOVR reads from a register: XMn and YMn are sign-extended. -/
def moveSource (r : Rod) (n : Nat) : Nat :=
  let v := if n = 0x30 then srForMove r else regSeen r n (r.n + 5)
  if (0x14 ≤ n ∧ n ≤ 0x17) ∨ (0x24 ≤ n ∧ n ≤ 0x27) then wrapTo 32 (signed 20 v) else v

/-- The write of a numbered register by LDI or MOVR; RPT and read-only bits of SR ignore it. -/
def moveWrite (r : Rod) (n v : Nat) : List RodWrite :=
  if n = 0x33 then []
  else [⟨r.n + 5, .reg n, if n = 0x30 then srWritable else 2 ^ regWidth n - 1, v, .plain⟩]

/-- LDI and MOVR as control steps, since they write registers by number. -/
def ldiControl (w : Nat) (r : Rod) : Except Nat Rod :=
  .ok (advance (addWrites r (moveWrite r (bitsOf w 52 6) (bitsOf w 0 32))))
def movrControl (w : Nat) (r : Rod) : Except Nat Rod :=
  .ok (advance (addWrites r (moveWrite r (bitsOf w 52 6) (moveSource r (bitsOf w 46 6)))))

/-! ## Passes (R158 to R167) -/

/-- Store a word in X or Y. -/
def putXY (r : Rod) (y : Bool) (a : Nat) (v : Word) : Rod :=
  if y then { r with y := mapSet (fun _ => 0) r.y (a % 32768) v } else { r with x := mapSet (fun _ => 0) r.x (a % 32768) v }

/-- Read a word of X or Y. -/
def getXY (r : Rod) (y : Bool) (a : Nat) : Word :=
  mapGet (fun _ => 0) (if y then r.y else r.x) (a % 32768)

/-- A frame's DMA meets an error of the matrix on a list entry: captured, and raised as its master's (R167, R172). -/
def dmaError (s : State) (f t a kind : Nat) : State := raise (requestFails s f t a kind) (0x520 + f) f (a % 2 ^ 32)

/-- The target, byte and error of the first access of a list entry that the matrix refuses, if any: of the beads in buffer
`b`, or of the frame SRAM. -/
def entryError (s : State) (f e b : Nat) : Option (Nat × Nat × Nat) :=
  if dmaKind e = 1 then
    ((List.range (dmaNch e + 1)).flatMap (fun i => (List.range (blk s)).map (fun j => (dmaCh e + i, j)))).findSome? (fun x =>
      match fabError s f b x.1 x.2 with
      | 0 => none
      | k => some (fabTarget s b x.1 x.2, fabByte s b x.1 x.2, k))
  else match requestError s f f 0 with
    | 0 => none
    | k => some (f, 4 * dmaFaddr e, k)

/-- Run one import entry (R164). The answer names the cause of a failure. -/
def importEntry (s : State) (g e : Nat) : State × Option Nat :=
  match entryError s (rodFrame g) e (readBuf s) with
  | some (t, a, k) => (dmaError s (rodFrame g) t a k, some caDma)
  | none =>
  if dmaKind e = 1 then
    (setRod s g ((List.range (dmaNch e + 1)).foldl (fun r i =>
      (List.range (blk s)).foldl (fun r j =>
        putXY r (dmaY e) (dmaAddr e + i * dmaPitch s e + j) (readSample s (dmaCh e + i) j)) r) (rodAt s g)), none)
  else
    let ws := List.range (dmaWords e + 1)
    match ws.find? (fun i => framePoisoned s (rodFrame g) (dmaFaddr e + i)) with
    | some i => (poisonRead s g (dmaFaddr e + i), some caPoison)
    | none => (setRod s g (ws.foldl (fun r i => putXY r (dmaY e) (dmaAddr e + i) (frameGet s (rodFrame g) (dmaFaddr e + i)))
      (rodAt s g)), none)

/-- A list entry that does not complete within MTX_TIMEOUT: captured, and raised as its master's (R52, R167). -/
def entryTimeout (s : State) (g e b : Nat) : State :=
  let f := rodFrame g
  let t := if dmaKind e = 1 then fabTarget s b (dmaCh e) 0 else f
  let a := if dmaKind e = 1 then fabByte s b (dmaCh e) 0 else 4 * dmaFaddr e
  raise (captureError s f t 2) (0x520 + f) f (a % 2 ^ 32)

/-- Run an import list until an entry fails; `lost` counts down to the entry that times out, if one does. -/
def runImports (s : State) (g : Nat) (lost : Option Nat) : List Nat → State × Option Nat
  | [] => (s, none)
  | e :: es =>
    if dmaKind e = 0 then (s, none)
    else if lost = some 0 then (entryTimeout s g e (readBuf s), some caDma)
    else match importEntry s g e with
      | (s, some c) => (s, some c)
      | (s, none) => runImports s g (lost.map (· - 1)) es

/-- Run one export entry (R165); the beads of its channels from `late` on come after the boundary (R167). -/
def exportEntry (s : State) (g e : Nat) (late : Option Nat) : State :=
  let r := rodAt s g
  if dmaKind e = 1 then
    (List.range (dmaNch e + 1)).foldl (fun s i =>
      if late.any (fun k => decide (k ≤ i)) then
        rset (lateWrite s (dmaCh e + i)) (Reg.ROD_FSTAT (rodFrame g)) F.ROD_FSTAT_EXPORT_LATE
      else fabWriteBead s clRod g (dmaCh e + i)
        ((List.range (blk s)).map (fun j => getXY r (dmaY e) (dmaAddr e + i * dmaPitch s e + j)))) s
  else if dmaKind e = 2 then
    (List.range (dmaWords e + 1)).foldl (fun s i =>
      frameSet s (rodFrame g) (dmaFaddr e + i) (getXY r (dmaY e) (dmaAddr e + i))) s
  else s

/-- Where a list that comes late from entry `k`, channel `c` on stands at its next entry. -/
def nextLate : Option (Nat × Nat) → Option (Nat × Nat)
  | some (0, _) => some (0, 0)
  | some (k + 1, c) => some (k, c)
  | none => none

/-- The channel from which the entry at hand comes late. -/
def lateFrom : Option (Nat × Nat) → Option Nat
  | some (0, c) => some c
  | _ => none

/-- Run a rod's export entries; one that meets an error of the matrix fails the block (R167). -/
def runExports (s : State) (g : Nat) (late : Option (Nat × Nat)) (lost : Option Nat) : List Nat → State
  | [] => s
  | e :: es =>
    if lost = some 0 then failRod (entryTimeout s g e (writeBuf s)) g caDma (rodAt s g).pc
    else match entryError s (rodFrame g) e (writeBuf s) with
      | some (t, a, k) => failRod (dmaError s (rodFrame g) t a k) g caDma (rodAt s g).pc
      | none => runExports (exportEntry s g e (lateFrom late)) g (nextLate late) (lost.map (· - 1)) es

/-- Whether the block configuration is in a rod's image masks (R159). -/
def configOk (s : State) (r : Rod) : Bool :=
  bitOf r.blkMask (rget s Reg.SYS_BLKCFG F.SYS_BLKCFG_BLK) && bitOf r.fsMask (rget s Reg.SYS_BLKCFG F.SYS_BLKCFG_FS)

/-- Whether a frame's DMA master is fenced (R53, R167). -/
def dmaFenced (s : State) (f : Nat) : Bool := ron s Reg.MTX_FENCE_M ⟨f, 1⟩

/-- A rod at the start of a pass (Table 04-3). -/
def passStart (r : Rod) (late : Nat) : Rod :=
  let keep := mapKeep (fun n => decide (n < 0x33)) r.file
  let sr := mapGet (fun _ => 0) r.file 0x30
  { r with file := mapSet (fun _ => 0) keep 0x30 (sr - (sr &&& (srIE + srINH))), n := 0, pend := [], pc := 0, slots := 0,
           target := none, depth := 0, iter := false, repeating := false, cyc := 2 + late }

/-- The frame's DMA comes to rod `g`'s import list: the lists of the rods before it have run, and a list that ends within
the import window runs before any rod of the frame issues (R158, R163, R167). -/
def importsNow (s : State) (g doneAt : Nat) : Bool :=
  let f := 8 * rodFrame g
  (List.range (rodNum g)).all (fun r => !runsPass s (f + r)) &&
    (decide (windowCycles s < doneAt) ||
      (List.range 8).all (fun r => (rodAt s (f + r)).phase == .waiting || (rodAt s (f + r)).n == 0))

/-- The rod's import list runs and its pass starts (R158, R163, R164); `lost` names an entry that times out. -/
def startPass (s : State) (g doneAt : Nat) (lost : Option Nat) : State :=
  if !runsPass s g || !importsNow s g doneAt then s
  else if !configOk s (rodAt s g) then failRod s g caConfig 0
  else if dmaFenced s (rodFrame g) then failRod s g caDma 0
  else
    let (s, bad) := runImports s g lost (rodAt s g).imports
    let late := doneAt - windowCycles s
    let fr := rodFrame g
    let s := rput s (Reg.ROD_FIMPDONE fr) F.ROD_FIMPDONE_CYCLES (satNat 20 doneAt)
    let s := if late > 0 then rset s (Reg.ROD_FSTAT fr) F.ROD_FSTAT_IMPORT_LATE else s
    match bad with
    | some c => failRod s g c 0
    | none => setPhase' (setRod s g (passStart (rodAt s g) late)) g .inPass

/-- END: the pass ends; everything issued before completes (R158, R160, R178). -/
def endPass (s : State) (g : Nat) : State :=
  let s := setPhase' (landAll s g) g .ended
  let cyc := satNat 20 (rodAt s g).cyc
  let s := rput s (rodReg Reg.ROD_STAT g) F.ROD_STAT_FAILS 0
  let s := rput s (rodReg Reg.ROD_CYC_LAST g) F.ROD_CYC_LAST_CYCLES cyc
  rput s (rodReg Reg.ROD_CYC_MAX g) F.ROD_CYC_MAX_CYCLES (max cyc (rget s (rodReg Reg.ROD_CYC_MAX g) F.ROD_CYC_MAX_CYCLES))

/-- The compute budget ends for one rod: without END it fails (R159); a rod that has not started by then fails too. -/
def budgetEnd (s : State) (g : Nat) : State :=
  if (rodAt s g).phase = .inPass then
    failRod (landBefore s g (rodAt s g).n) g caOverrun (rodAt s g).pc
  else if runsPass s g then failRod s g caOverrun 0
  else s

/-- The export list of a rod whose pass ended (R163); one that slips past the boundary writes late, and with its DMA master
fenced the block fails (R167). -/
def exportRod (s : State) (g : Nat) (late : Option (Nat × Nat)) (lost : Option Nat) : State :=
  if (rodAt s g).phase = .ended ∧ rodState s g = rdActive then
    if dmaFenced s (rodFrame g) then failRod s g caDma (rodAt s g).pc
    else
      runExports s g late lost ((rodAt s g).exports.takeWhile (fun e => dmaKind e != 0))
  else s

/-- EN takes a value: READY turns ACTIVE, ACTIVE and HALTED turn READY (R171, Table 04-8). -/
def actEn (s : State) (g : Nat) (en : Bool) : State :=
  let st := rodState s g
  if en && st == rdReady then setRodState s g rdActive
  else if !en && (st == rdActive || st == rdHalted) then setRodState s g rdReady
  else s

/-- What a block start does to one rod (R153, R157, R161, R171). -/
def rodBoundary (s : State) (g : Nat) : State :=
  let s := rclr (rclr s (rodReg Reg.ROD_IPEND g) F.ROD_IPEND_TRAP) (rodReg Reg.ROD_IPEND g) F.ROD_IPEND_WARN
  let r := rodAt s g
  let s := forEach (r.enPend.filter (fun w => w.1 == 1)) s (fun s w => actEn s g w.2)
  let later := (r.enPend.filter (fun w => w.1 != 1)).map (fun w => (w.1 - 1, w.2))
  let s := setPhase' (setRod s g { rodAt s g with enPend := later, wait := r.wait - 1, n := 0 }) g .waiting
  if rodState s g = rdHalted ∧ !haltAsked s g then setRodState s g (if enNow s g then rdActive else rdReady)
  else s

/-- A tally's write of EN takes effect at its boundary (R171); a host's earlier write still on its way is overtaken
(DESIGN CHOICE, log entry 159). -/
def setRodEn (s : State) (g : Nat) (en : Bool) : State :=
  let s := rbit s (rodReg Reg.ROD_CTRL g) F.ROD_CTRL_EN en
  actEn (setRod s g { rodAt s g with enPend := [] }) g en

/-! ## Commands -/

/-- A rod's import list completes and its pass starts (R158). -/
def execRodPassStart (g : Fin 64) (imports : ImportReport) (s : State) : Out :=
  onHost s (fun s => startPass s g imports.doneAt (imports.lost.map Fin.val))

/-- The cycle count of the compute window reaches ROD_WARN.CYCLES (R153): of a rod that runs in this block, whether it waits
for its imports, issues or has ended. -/
def execWarnThreshold (g : Fin 64) (s : State) : Out :=
  onHost s (fun s =>
    let least := rget s (rodReg Reg.ROD_WARN g) F.ROD_WARN_CYCLES
    if running s ∧ rodState s g = rdActive ∧ least ≠ 0 ∧ ((rodAt s g).phase = .inPass → least ≤ (rodAt s g).cyc) then
      rset s (rodReg Reg.ROD_IPEND g) F.ROD_IPEND_WARN
    else s)

/-- The compute budget ends and the export window runs (R159, R163). -/
def execComputeBudgetEnd (exports : ExportReport) (s : State) : Out :=
  onHost s (fun s =>
    if !running s then s
    else
      let s := (List.range 64).foldl budgetEnd s
      (List.range 64).foldl (fun s g => exportRod s g ((exports.late.find? (fun l => l.1.val == g)).map (fun l => (l.2.1.val, l.2.2.val)))
        ((exports.lost.find? (fun x => x.1.val == g)).map (fun x => x.2.val))) s)

/-- An acceptance point with an interrupt to take (R155). -/
def execInterruptAccept (g : Fin 64) (s : State) : Out :=
  onHost s (fun s =>
    let r := rodAt s g
    if r.phase = .inPass ∧ r.wants = [] ∧ atAcceptance r ∧ !haltAsked s g then
      match takeable s g with
      | none => s
      | some (v, f) =>
        let s := landAll (rclr s (rodReg Reg.ROD_IPEND g) f) g
        let r := rodAt s g
        let sr := mapGet (fun _ => 0) r.file 0x30
        let file := mapSet (fun _ => 0) (mapSet (fun _ => 0) r.file 0x31 r.pc) 0x32 sr
        let file := mapSet (fun _ => 0) file 0x30 ((sr - (sr &&& srIE)) ||| srINH)
        settleFrame (setRod s g { r with file := file, pc := v, n := r.n + 3, cyc := r.cyc + 3, iter := false }) (rodFrame g)
    else s)

/-- The rod halts at its next acceptance point (R157). -/
def execRodHalt (g : Fin 64) (s : State) : Out :=
  onHost s (fun s =>
    let r := rodAt s g
    if r.phase = .inPass ∧ r.wants = [] ∧ atAcceptance r ∧ haltAsked s g then
      let s := setPhase' (landAll s g) g .stopped
      rput (setRodState s g rdHalted) (rodReg Reg.ROD_PC g) F.ROD_PC_PC r.pc
    else s)

/-- An illegal encoding reached at run time (R176). -/
def execIllegalEncoding (g : Fin 64) (s : State) : Out :=
  onHost s (fun s =>
    if mayIssue s g ∧ decodeRod (isControl g) (nextWord (rodAt s g)) = none then failIssue s g caIllegal 2 else s)

def execRodNop (g : Fin 64) (s : State) : Out := onIssue s g .nop effNone
def execRodLdi (g : Fin 64) (s : State) : Out := onHost s (fun s => issue s g .ldi effNone ldiControl)
def execRodMovr (g : Fin 64) (s : State) : Out := onHost s (fun s => issue s g .movr effNone movrControl)
def execRodAdd (g : Fin 64) (s : State) : Out := onIssue s g .add effAdd
def execRodSub (g : Fin 64) (s : State) : Out := onIssue s g .sub effSub
def execRodAddi (g : Fin 64) (s : State) : Out := onIssue s g .addi effAddi
def execRodSubi (g : Fin 64) (s : State) : Out := onIssue s g .subi effSubi
def execRodCmp (g : Fin 64) (s : State) : Out := onIssue s g .cmp effCmp
def execRodAnd (g : Fin 64) (s : State) : Out := onIssue s g .and effAnd
def execRodOr (g : Fin 64) (s : State) : Out := onIssue s g .or effOr
def execRodXor (g : Fin 64) (s : State) : Out := onIssue s g .xor effXor
def execRodNot (g : Fin 64) (s : State) : Out := onIssue s g .not effNot
def execRodAsl (g : Fin 64) (s : State) : Out := onIssue s g .asl effAsl
def execRodAsr (g : Fin 64) (s : State) : Out := onIssue s g .asr effAsr
def execRodLsl (g : Fin 64) (s : State) : Out := onIssue s g .lsl effLsl
def execRodLsr (g : Fin 64) (s : State) : Out := onIssue s g .lsr effLsr
def execRodAbs (g : Fin 64) (s : State) : Out := onIssue s g .abs effAbs
def execRodNeg (g : Fin 64) (s : State) : Out := onIssue s g .neg effNeg
def execRodMin (g : Fin 64) (s : State) : Out := onIssue s g .min effMin
def execRodMax (g : Fin 64) (s : State) : Out := onIssue s g .max effMax
def execRodAmax (g : Fin 64) (s : State) : Out := onIssue s g .amax effAmax
def execRodClr (g : Fin 64) (s : State) : Out := onIssue s g .clr effClr
def execRodMova (g : Fin 64) (s : State) : Out := onIssue s g .mova effMova
def execRodAdda (g : Fin 64) (s : State) : Out := onIssue s g .adda effAdda
def execRodSuba (g : Fin 64) (s : State) : Out := onIssue s g .suba effSuba
def execRodNega (g : Fin 64) (s : State) : Out := onIssue s g .nega effNega
def execRodAbsa (g : Fin 64) (s : State) : Out := onIssue s g .absa effAbsa
def execRodShla (g : Fin 64) (s : State) : Out := onIssue s g .shla effShla
def execRodShra (g : Fin 64) (s : State) : Out := onIssue s g .shra effShra
def execRodRnda (g : Fin 64) (s : State) : Out := onIssue s g .rnda effRnda
def execRodSata (g : Fin 64) (s : State) : Out := onIssue s g .sata effSata
def execRodLda (g : Fin 64) (s : State) : Out := onIssue s g .lda effLda
def execRodLdal (g : Fin 64) (s : State) : Out := onIssue s g .ldal effLdal
def execRodExt (g : Fin 64) (s : State) : Out := onIssue s g .ext effExt
def execRodExtl (g : Fin 64) (s : State) : Out := onIssue s g .extl effExtl
def execRodExtg (g : Fin 64) (s : State) : Out := onIssue s g .extg effExtg
def execRodTsta (g : Fin 64) (s : State) : Out := onIssue s g .tsta effTsta
def execRodMpy (g : Fin 64) (s : State) : Out := onIssue s g .mpy effMpy
def execRodMac (g : Fin 64) (s : State) : Out := onIssue s g .mac effMac
def execRodMsu (g : Fin 64) (s : State) : Out := onIssue s g .msu effMsu
def execRodMpy2 (g : Fin 64) (s : State) : Out := onIssue s g .mpy2 effMpy2
def execRodMac2 (g : Fin 64) (s : State) : Out := onIssue s g .mac2 effMac2
def execRodMsu2 (g : Fin 64) (s : State) : Out := onIssue s g .msu2 effMsu2
def execRodMpyx (g : Fin 64) (s : State) : Out := onIssue s g .mpyx effMpyx
def execRodMacx (g : Fin 64) (s : State) : Out := onIssue s g .macx effMacx
def execRodTap (g : Fin 64) (s : State) : Out := onIssue s g .tap effTap
def execRodTap2 (g : Fin 64) (s : State) : Out := onIssue s g .tap2 effTap2
def execRodTapm (g : Fin 64) (s : State) : Out := onIssue s g .tapm effTapm
def execRodExp (g : Fin 64) (s : State) : Out := onIssue s g .exp effExp
def execRodBexp (g : Fin 64) (s : State) : Out := onIssue s g .bexp effBexp
def execRodNorm (g : Fin 64) (s : State) : Out := onIssue s g .norm effNorm
def execRodDivs (g : Fin 64) (s : State) : Out := onIssue s g .divs effDivs
def execRodRep (g : Fin 64) (s : State) : Out := onHost s (fun s => issue s g .rep effNone repControl)
def execRodLoop (g : Fin 64) (s : State) : Out := onHost s (fun s => issue s g .loop effNone loopControl)
def execRodEndl (g : Fin 64) (s : State) : Out := onHost s (fun s => issue s g .endl effNone endlControl)
def execRodB (g : Fin 64) (s : State) : Out := onHost s (fun s => issue s g .b effNone (branchControl false))
def execRodCall (g : Fin 64) (s : State) : Out := onHost s (fun s => issue s g .call effNone (branchControl true))
def execRodRet (g : Fin 64) (s : State) : Out := onHost s (fun s => issue s g .ret effNone retControl)
def execRodRti (g : Fin 64) (s : State) : Out := onHost s (fun s => issue s g .rti effNone rtiControl)

/-- TRAP makes its interrupt pending; inside a handler it fails with ILLEGAL (R153). -/
def execRodTrap (g : Fin 64) (s : State) : Out :=
  onHost s (fun s =>
    if !issues s g .trap then s
    else if bitOf (srNow (rodAt s g)) 19 then failIssue s g caIllegal 2
    else
      let s := issue s g .trap effNone plainControl
      if (rodAt s g).phase = .inPass then rset s (rodReg Reg.ROD_IPEND g) F.ROD_IPEND_TRAP else s)

/-- END (R178). -/
def execRodEnd (g : Fin 64) (s : State) : Out :=
  onHost s (fun s =>
    if !issues s g .endPass then s
    else
      let s := issue s g .endPass effNone plainControl
      if (rodAt s g).phase = .inPass then endPass s g else s)

/-- A write of ROD_CTRL: EN takes effect at the second boundary after it (R171); SYS_LOCK guards HALT_REQ (R15). -/
def writeRodCtrl (s : State) (g : Nat) (w : Word) : State :=
  let a := rodReg Reg.ROD_CTRL g
  let old := ron s a F.ROD_CTRL_EN
  let s := rwrite s a w
  let en := ron s a F.ROD_CTRL_EN
  if en == old then s else setRod s g { rodAt s g with enPend := (rodAt s g).enPend ++ [(2, en)] }

/-- A write of ROD_CTRL.EN (R171). -/
def hostRodCtrlEn (g : Fin 64) (w : Word) (s : State) : State :=
  writeRodCtrl s g w

/-- The access itself, through the bus matrix. -/
def execRodCtrlEn (g : Fin 64) (w : Word) (s : State) : Out := onBar s (rodReg Reg.ROD_CTRL g) (fun s => hostRodCtrlEn g w s)

/-- A write of ROD_CTRL.HALT_REQ (R157). -/
def hostHaltReq (g : Fin 64) (w : Word) (s : State) : State :=
  rwrite s (rodReg Reg.ROD_CTRL g) (fldPut F.ROD_CTRL_EN (rget s (rodReg Reg.ROD_CTRL g) F.ROD_CTRL_EN) w)

/-- The access itself, through the bus matrix. -/
def execHaltReq (g : Fin 64) (w : Word) (s : State) : Out := onBar s (rodReg Reg.ROD_CTRL g) (fun s => hostHaltReq g w s)

/-- ROD_CTRL.UNFENCE (R161, R482): accepted only while the rod's source has STATUS 0. -/
def hostUnfence (g : Fin 64) (w : Word) (s : State) : State :=
  if fldGet F.ROD_CTRL_UNFENCE w = 0 ∨ rodState s g ≠ rdFenced then s
  else if statusOf s (0x1C0 + g.val) then rset s Reg.FLT_STAT F.FLT_STAT_REFUSED
  else
    let s := rput (setRodState s g (if enNow s g then rdActive else rdReady)) (rodReg Reg.ROD_STAT g) F.ROD_STAT_FAILS 0
    setRod s g { rodAt s g with wait := 2 }

/-- The access itself, through the bus matrix. -/
def execUnfence (g : Fin 64) (w : Word) (s : State) : Out := onBar s (rodReg Reg.ROD_CTRL g) (fun s => hostUnfence g w s)

/-- ROD_CTRL.CLR_STATS (R173). -/
def hostClrStats (g : Fin 64) (w : Word) (s : State) : State :=
  if fldGet F.ROD_CTRL_CLR_STATS w = 1 then
    wr (rput s (rodReg Reg.ROD_CYC_MAX g) F.ROD_CYC_MAX_CYCLES 0) (rodReg Reg.ROD_OVR_CNT g) 0
  else s

/-- The access itself, through the bus matrix. -/
def execClrStats (g : Fin 64) (w : Word) (s : State) : Out := onBar s (rodReg Reg.ROD_CTRL g) (fun s => hostClrStats g w s)

end Sys2Proof.Machine
end

