-- ==== Sys2Proof/Machine/Ecc.lean ====
section
/-! DEFINITION. What the memories' error codes find and what follows from it (R41, R42, Table 01-11). -/

namespace Sys2Proof.Machine
open Sys2Proof

/-- The SYS_ECC_CE register of a class. -/
def ecReg : MemClass → Nat
  | .rod => Reg.SYS_ECC_CE_ROD
  | .frame => Reg.SYS_ECC_CE_FRAME
  | .gsram => Reg.SYS_ECC_CE_GSRAM
  | .dram => Reg.SYS_ECC_CE_DRAM
  | .brass => Reg.SYS_ECC_CE_BRASS

/-- A correctable error is counted in its class (R41). -/
def correctable (s : State) (cls : MemClass) : State := radd s (ecReg cls) F.SYS_ECC_CE_ROD_COUNT 1

/-- The global SRAM word of byte `a` of bank `b`: lines of 64 bytes go round the eight banks (R44). -/
def bankWord (b a : Nat) : Nat := ((a / 64 * 8 + b) * 64 + a % 64) / 4

/-- The poison keys of the 64 bits that hold byte `addr` of a memory. The DRAM channels follow one another in the address
space, 512 MiB each (DESIGN CHOICE, log entry 70). -/
def poisonKeys (cls : MemClass) (unit addr : Nat) : List Nat :=
  let lo := addr / 8 * 2
  match cls with
  | .frame => [framePoisonKey unit lo, framePoisonKey unit (lo + 1)]
  | .gsram => [bankWord unit (4 * lo), bankWord unit (4 * lo) + 1]
  | .dram => [dramPoisonKey (unit * 2 ^ 27 + lo), dramPoisonKey (unit * 2 ^ 27 + lo + 1)]
  | _ => []

/-- The bytes of one memory of a class, and how many there are (Table 01-7). -/
def memSize (cls : MemClass) : Nat × Nat :=
  match cls with
  | .frame => (2097152, 8)
  | .gsram => (4194304, 8)
  | .dram => (536870912, 4)
  | .brass => (262144, 1)
  | .rod => (2 ^ 23, 8)

/-- The rod whose memory an address of class `rod` names, and the cause of an uncorrectable error there: the unit is the
frame, bits [22:20] the rod, bits [19:18] the memory (P, X, Y), the rest the byte in it (log entry 71). -/
def rodMemOf (unit addr : Nat) : Nat × Nat :=
  (8 * unit + bitsOf addr 20 3, match bitsOf addr 18 2 with | 0 => caEccP | 1 => caEccX | _ => caEccY)

/-- An uncorrectable error that a rod's access in its pass meets, or its frame DMA's reading of X and Y outside it: the rod
fails and is fenced (R41, R159, R160). -/
def rodMemError (s : State) (unit addr : Nat) : State :=
  let (g, cause) := rodMemOf unit addr
  if (rodAt s g).phase = .inPass then failIssue s g cause (if cause = caEccP then 1 else 4)
  else if rodState s g = rdActive ∧ cause ≠ caEccP then failRod s g cause (rodAt s g).pc
  else s

/-- A bead of a closed period that holds a poisoned word is a missing bead (R42, R102). -/
def poisonedBeads (s : State) (keys : List Nat) : State :=
  forEach keys s (fun s a =>
    let i := a / blk s
    if i < 4096 ∧ i / 1024 ≠ writeBuf s then poisonBead s (i / 1024) (i % 1024) else s)

/-- An uncorrectable error in a memory (R41, R42, Table 01-11): the data is poisoned, or the buffer's record dropped. -/
def uncorrectable (s : State) (cls : MemClass) (unit addr : Nat) : State :=
  let keys := poisonKeys cls unit addr
  let s := forEach keys s (fun s k => { s with poison := mapSet (fun _ => false) s.poison k true })
  match cls with
  | .frame => raise s (0x508 + unit) noInst (addr % 2 ^ 32)
  | .gsram => raise (poisonedBeads (forEach keys s shadowBad) keys) (0x500 + unit) noInst (addr % 2 ^ 32)
  | .dram => raise s (0x510 + unit) noInst (addr % 2 ^ 32)
  | .brass =>
    let i := addr / 16
    let waits := decide (i < s.recorder.buffer.length)
    let s := { s with recorder := { s.recorder with buffer := s.recorder.buffer.eraseIdx i } }
    let s := if waits then rput s Reg.EVR_COUNT F.EVR_COUNT_RECORDS (rget s Reg.EVR_COUNT F.EVR_COUNT_RECORDS - 1) else s
    let s := if waits then radd s Reg.EVR_BUF_DROP F.EVR_BUF_DROP_COUNT 1 else s
    raise (setBacklog s) 0x518 noInst (addr % 2 ^ 32)
  | .rod => rodMemError s unit addr

/-- What the error code finds at byte `addr` of a memory. -/
def eccFound (s : State) (cls : MemClass) (unit addr : Nat) (ecc : EccResult) : State :=
  match ecc with
  | .good => s
  | .correctable => correctable s cls
  | .uncorrectable => uncorrectable s cls unit addr

end Sys2Proof.Machine
end

