-- ==== Sys2Proof/Machine/NetOps.lean ====
section
/-! DEFINITION. What the network commands share: frame headers and checksums, time-stamp records, the shapers, transmit
queues and the counters of a port (R286 to R302). -/

namespace Sys2Proof.Machine
open Sys2Proof

/-! ## Numbers in network order -/

/-- The network-order bytes of a number (R17). -/
def toBytesBE (n v : Nat) : List Byte := (toBytes n v).reverse

/-- Replace `bs.length` bytes of a frame from an offset. -/
def bytesPut (frame : List Byte) (pos : Nat) (bs : List Byte) : List Byte :=
  frame.take pos ++ bs ++ frame.drop (pos + bs.length)

/-- The ones' complement sum of a byte list's 16-bit words in network order, folded to 16 bits (IPv4, TCP, UDP). -/
def onesSum : List Byte → Nat → Nat
  | [], acc => acc
  | [a], acc => let t := acc + a.toNat * 256; t % 65536 + t / 65536
  | a :: b :: rest, acc => let t := acc + a.toNat * 256 + b.toNat; onesSum rest (t % 65536 + t / 65536)

/-- The Internet checksum of a byte list. -/
def inetSum (bs : List Byte) : Nat := 65535 - onesSum bs 0 % 65536

/-! ## What a frame's headers say (R287) -/

/-- Whether the first Ethertype position holds a tag. -/
def frTagged (f : List Byte) : Bool := beAt f 12 2 == 0x8100

/-- The tag's VID and PCP; a frame without a tag has neither. -/
def frTagVid (f : List Byte) : Nat := if frTagged f then bitsOf (beAt f 14 2) 0 12 else 0
def frPcp (f : List Byte) : Nat := if frTagged f then bitsOf (beAt f 14 2) 13 3 else 0

/-- The VID a frame takes on port `p`: PVID where it carries none or VID 0. -/
def frVid (s : State) (p : Nat) (f : List Byte) : Nat :=
  if frTagVid f = 0 then rget s (Reg.NET_CTRL p) F.NET_CTRL_PVID else frTagVid f

/-- Where the octets after the Ethertype start, and the Ethertype. -/
def frBody (f : List Byte) : Nat := if frTagged f then 18 else 14
def frType (f : List Byte) : Nat := beAt f (frBody f - 2) 2

/-- An IPv4 header: its length, and whether the frame holds one whole. -/
def ipHl (f : List Byte) : Nat := bitsOf (beAt f (frBody f) 1) 0 4 * 4
def isIp (f : List Byte) : Bool :=
  frType f == 0x0800 && bitsOf (beAt f (frBody f) 1) 4 4 == 4 && decide (20 ≤ ipHl f) &&
    decide (frBody f + ipHl f ≤ f.length)

/-- An IPv4 packet is whole: not a fragment. -/
def ipWhole (f : List Byte) : Bool := beAt f (frBody f + 6) 2 &&& 0x3FFF == 0

/-- The IPv4 protocol, and where its transport header starts. -/
def ipProto (f : List Byte) : Nat := beAt f (frBody f + 9) 1
def l4At (f : List Byte) : Nat := frBody f + ipHl f

/-- The header checksum of an IPv4 packet holds. -/
def ipSumOk (f : List Byte) : Bool := inetSum (bytesAt f (frBody f) (ipHl f)) == 0

/-- A UDP packet over IPv4. -/
def isUdp (f : List Byte) : Bool := isIp f && ipWhole f && ipProto f == 17

/-- A frame of the Precision Time Protocol: Ethertype 0x88F7, or UDP to port 319 or 320. -/
def isPtp (f : List Byte) : Bool :=
  frType f == 0x88F7 || (isUdp f && (beAt f (l4At f + 2) 2 == 319 || beAt f (l4At f + 2) 2 == 320))

/-- The transport part of an IPv4 packet: as long as Total Length says. -/
def l4Bytes (f : List Byte) : List Byte :=
  let total := beAt f (frBody f + 2) 2
  (f.drop (l4At f)).take (total - ipHl f)

/-- The TCP or UDP checksum over the pseudo-header of an IPv4 packet, its checksum field as it stands. -/
def l4Sum (f : List Byte) : Nat :=
  let seg := l4Bytes f
  inetSum (bytesAt f (frBody f + 12) 8 ++ [0, BitVec.ofNat 8 (ipProto f)] ++ toBytesBE 2 seg.length ++ seg)

/-- Compute an IPv4 header checksum in place (R297). -/
def putIpSum (f : List Byte) : List Byte :=
  if isIp f then
    let f := bytesPut f (frBody f + 10) [0, 0]
    bytesPut f (frBody f + 10) (toBytesBE 2 (inetSum (bytesAt f (frBody f) (ipHl f))))
  else f

/-- Compute a TCP or UDP checksum in place; a computed UDP checksum of zero is sent as 0xFFFF (R297). -/
def putL4Sum (f : List Byte) : List Byte :=
  if !isIp f then f
  else
    let at' := if ipProto f = 17 then l4At f + 6 else l4At f + 16
    if ipProto f = 17 ∨ ipProto f = 6 then
      let f := bytesPut f at' [0, 0]
      let c := l4Sum f
      bytesPut f at' (toBytesBE 2 (if c = 0 ∧ ipProto f = 17 then 0xFFFF else c))
    else f

/-! ## Ports -/

/-- The largest frame with FCS (Table 08-10). -/
def maxFrame (s : State) (p : Nat) : Nat := max 1522 (min 9022 (rget s (Reg.NET_MAXFRAME p) F.NET_MAXFRAME_BYTES))

/-- The station address of a port, octet 0 lowest. -/
def stationMac (s : State) (p : Nat) : Nat :=
  rget s (Reg.NET_MAC_LO p) F.NET_MAC_LO_MAC_LO + 2 ^ 32 * rget s (Reg.NET_MAC_HI p) F.NET_MAC_HI_MAC_HI

/-- The PTP protocol is served by the supervisor (R303). -/
def ptpServed (s : State) : Bool := ron s Reg.NET_PTP_CTRL F.NET_PTP_CTRL_EN

/-! ## Time-stamp records (Table 08-3) -/

/-- The 16 bytes of a time-stamp record of frame `f` at port `p`. -/
def stampRecord (t : Int) (valid : Bool) (p : Nat) (egress oneStep : Bool) (f : List Byte) : List Byte :=
  toBytes 6 (timeSec t) ++ toBytes 4 (timeNs t + 2 ^ 31 * b2n valid) ++ toBytes 2 (timeFrac t)
    ++ toBytes 2 (p + 8 * b2n egress + 16 * b2n oneStep)
    ++ toBytes 2 (frTagVid f + 2 ^ 12 * frPcp f + 2 ^ 15 * b2n (frTagged f))

/-- Egress stamps of port `p` not yet delivered: those of NET_TX descriptors that were sent, whose stamp was not lost, and that
have no completion entry yet (R301). -/
def stampsHeld (s : State) (p : Nat) : Nat :=
  (s.qps.map (fun q => (q.2.flights.filter (fun f =>
    leAt f.bytes 0 1 == 0x48 && par f.bytes 8 7 1 == 1 && par f.bytes 8 0 3 == p && f.result.any (fun r => r.1 == stOk) &&
      !(netAt s p).lostStamps.any (fun d => d.qp.val == q.1 && d.slot.val == f.slot))).length)).foldl (· + ·) 0

/-! ## Launch times and shapers (R290 to R294) -/

/-- Whether queue `q` may start its head frame now (R290). -/
def eligible (s : State) (p q : Nat) : Bool :=
  match (netQueue s p q).head? with
  | none => false
  | some f => timeEligible s f (now s) &&
    (!ron s (Reg.NET_Q_CTRL p q) F.NET_Q_CTRL_CBS_EN || decide (0 ≤ mapGet (fun _ => (0 : Rat)) (netAt s p).credits q))

/-- The highest-numbered eligible queue. -/
def eligibleQueue (s : State) (p : Nat) : Option Nat := (List.range 8).reverse.find? (eligible s p)

/-- The CBS queues of a port are given more than 75% of its line rate (R291); a port that is off has no line rate
(Table 08-1), and its queues are held to the rate of the mode it is given. -/
def slopesExceed (s : State) (p : Nat) : Bool :=
  let sum := ((List.range 8).filter (fun q => ron s (Reg.NET_Q_CTRL p q) F.NET_Q_CTRL_CBS_EN)).map
    (fun q => rget s (Reg.NET_Q_SLOPE p q) F.NET_Q_SLOPE_IDLE_SLOPE)
  lineRate s p != 0 && decide (lineRate s p * 3 < sum.foldl (· + ·) 0 * 4000)

/-- A write of a queue's registers, refused where it would give its port's CBS queues too much (R291). -/
def writeNetQueue (s : State) (a : Nat) (w : Word) : State :=
  let p := (a - 0x10000) / 0x1000
  let s := updateCredits s p
  let t := rwrite s a w
  if slopesExceed t p then rset s (Reg.NET_STAT p) F.NET_STAT_REFUSED else t

/-! ## Queues (R289) -/

/-- The frames a queue may hold: LIMIT, 1 to 512. -/
def queueLimit (s : State) (p q : Nat) : Nat := max 1 (min 512 (rget s (Reg.NET_Q_CTRL p q) F.NET_Q_CTRL_LIMIT))

/-- The free places of a queue. -/
def queueRoom (s : State) (p q : Nat) : Nat := queueLimit s p q - (netQueue s p q).length

/-- Put a frame behind a queue. -/
def enqueue (s : State) (p q : Nat) (f : TxFrame) : State :=
  let s := updateCredits s p
  setQueue s p q (netQueue s p q ++ [f])

/-- A transmit packet of stream `t` is discarded (Table 08-8). -/
def strTxDrop (s : State) (t : Nat) : State := strTxDropWith raise s t

/-- A frame that finds its queue full (R289): counted, and a stream's in its stream. -/
def dropFullQueue (s : State) (p : Nat) (f : TxFrame) : State :=
  let s := radd s (Reg.NET_TX_FULL_DROP p) F.NET_TX_FULL_DROP_COUNT 1
  let s := raise s (0x303 + 8 * p) p (rd s (Reg.NET_TX_FULL_DROP p)).toNat
  match f.owner with
  | .stream t _ => strTxDrop (paddSat s P.STR_TX_FULL_DROP t 1) t
  | _ => s

/-- Queue a frame, or discard it at a full queue. -/
def enqueueOrDrop (s : State) (p q : Nat) (f : TxFrame) : State :=
  if queueRoom s p q = 0 then dropFullQueue s p f else enqueue s p q f

/-- A port goes on after a pause (R295, R296). -/
def endPause (s : State) (p : Nat) : State :=
  let s := rclr s (Reg.NET_STAT p) F.NET_STAT_PAUSED
  setNet s p { netAt s p with pauseAt := none, pauseFrom := none, pauseQuanta := 0 }

/-- A port's link goes down (R284). -/
def linkDown (s : State) (p : Nat) : State := linkDownWith raise s p

/-- Count `n` FCS errors or uncorrectable FEC codewords; every 256th raises NET source 0x301 + 8p with the counter of the
event as datum (R322, Table 14-9). -/
def countErrors (s : State) (p n datum : Nat) : State :=
  let e := (netAt s p).errs + n
  let s := setNet s p { netAt s p with errs := e % 256 }
  forEach (List.range (e / 256)) s (fun s _ => raise s (0x301 + 8 * p) p datum)

end Sys2Proof.Machine
end

