-- ==== Sys2Proof/Machine/Streams.lean ====
section
/-! DEFINITION. The stream engine (R305 to R321, R325): matching and reading packets, the store, bead completion, path
accounting, and building packets. -/

namespace Sys2Proof.Machine
open Sys2Proof

/-- Stream formats (Table 08-9). -/
def fmAaf : Nat := 0
def fmAes : Nat := 1
def fmNative : Nat := 2

/-- Bytes of a sample of WIDTH (R308). -/
def sampleBytes (width : Nat) : Nat := min 4 (width + 2)

/-- The first sample of block `b` ends a period at this disciplined time (R24, R25). -/
def blockTime (s : State) (b : Int) : Int := b * (blk s : Int) * secUnits / (fsHz s : Int)

/-- When the period of block `b`'s bead ends, as the grid stands: the boundary that follows it, a re-base and what is left of
a slew included (R25, R27, R314). -/
def periodEnd (s : State) (b : Int) : Int :=
  let index : Int := s.grid.index
  let n := if b = index then index + 1 + s.grid.extra else b + 1
  blockTime s n + slewAfter s.grid.slew (n - index - s.grid.extra).toNat

/-- The stream engine may run: STR_CTRL.EN = 1 and not fenced (R317). -/
def strRuns (s : State) : Bool := ron s Reg.STR_CTRL F.STR_CTRL_EN && !ron s Reg.STR_STAT F.STR_STAT_FENCED

/-! ## Packet rates (R306) -/

/-- The samples of a packet of stream `t`, and its channels. -/
def txSpp (s : State) (t : Nat) : Nat := pget s P.STR_TX_SPP t + 1
def txChannels (s : State) (t : Nat) : Nat := pget s P.STR_TX_NCH t + 1

/-- The samples of a receive stream's packets: as its talker sends them, 8 while that is unknown (R306). -/
def rxSpp (s : State) (r : Nat) : Nat := if (strRxAt s r).spp = 0 then 8 else (strRxAt s r).spp

/-- The packet rate of the enabled streams (R306). -/
def packetRate (s : State) : Rat :=
  let fs : Rat := fsHz s
  let rx := (enabledEntries s P.STR_RX_EN).map (fun r => fs / (rxSpp s r : Rat) * (if pon s P.STR_RX_B_EN r then 2 else 1))
  let tx := (enabledEntries s P.STR_TX_EN).map (fun t => fs / (txSpp s t : Rat) * (if pon s P.STR_TX_DUAL t then 2 else 1))
  (rx ++ tx).foldl (· + ·) 0

/-- STR_RATE follows the enabled streams. -/
def countRate (s : State) : State := rput s Reg.STR_RATE F.STR_RATE_PPS (satNat 25 (packetRate s).floor.toNat)

/-! ## Matching (R307) -/

/-- A frame arriving on port `p` meets the key of receive stream `r`. -/
def keyMatches (s : State) (p r : Nat) (f : List Byte) : Bool :=
  frVid s p f == pget s P.STR_RX_VID r &&
  (if pget s P.STR_RX_FMT r = fmAes then
    isUdp f && ipSumOk f &&
      beAt f (frBody f + 16) 4 == pget s P.STR_RX_KEY0 r &&
      beAt f (l4At f + 2) 2 == bitsOf (pget s P.STR_RX_KEY1 r) 0 16 &&
      (!pon s P.STR_RX_SSRC_CHK r || beAt f (l4At f + 16) 4 == pget s P.STR_RX_SSRC r)
  else
    frType f == 0x22F0 && beAt f (frBody f) 1 == (if pget s P.STR_RX_FMT r = fmNative then 0x7F else 0x02) &&
      leAt f (frBody f + 4) 8 == pget s P.STR_RX_KEY0 r + 2 ^ 32 * pget s P.STR_RX_KEY1 r)

/-- The receive stream a frame on port `p` matches, and whether it is its path B. -/
def matchStream (s : State) (p : Nat) (f : List Byte) : Option (Nat × Bool) :=
  (enabledEntries s P.STR_RX_EN).findSome? (fun r =>
    if !keyMatches s p r f then none
    else if pget s P.STR_RX_PORT_A r = p then some (r, false)
    else if pon s P.STR_RX_B_EN r && pget s P.STR_RX_PORT_B r == p then some (r, true)
    else none)

/-! ## Reading packets (R308 to R312) -/

/-- The sample rate codes that AAF carries: nsr (Table 08-4). -/
def nsrCode (s : State) : Nat := match fsHz s with | 48000 => 5 | 96000 => 7 | _ => 9

/-- A packet as its entry reads it: the index of its first sample, its samples, where they lie in the frame, the talker
tags of its channels (none where it carries none) and its EPOCH. -/
structure StrPacket where
  first : Int
  count : Nat
  pos : Nat
  tags : Option Nat
  epoch : Option Nat
  deriving DecidableEq, Repr

/-- The AAF packet of stream `r` (R309, R312); none where it breaks its entry's format. -/
def readAaf (s : State) (r : Nat) (f : List Byte) (tin : Int) : Option StrPacket :=
  let b := frBody f
  let w := pget s P.STR_RX_WIDTH r
  let ch := pget s P.STR_RX_CPF r + 1
  let o1 := beAt f (b + 1) 1
  let rate := beAt f (b + 17) 3
  let len := beAt f (b + 20) 2
  let unit := ch * sampleBytes w
  let ok := bitsOf o1 7 1 == 1 && bitsOf o1 4 3 == 0 && bitsOf o1 0 1 == 1 && beAt f (b + 16) 1 == 4 - w &&
    bitsOf rate 20 4 == nsrCode s && bitsOf rate 8 10 == ch && decide (1 ≤ bitsOf rate 0 8) &&
    decide (bitsOf rate 0 8 ≤ 8 * sampleBytes w) && len % unit == 0 && decide (0 < len) &&
    decide (b + 24 + len ≤ f.length) && bitsOf (beAt f (b + 22) 1) 4 1 == 0
  let tns := tin / 65536
  let tp := tns + signed 32 (wrapTo 32 ((beAt f (b + 12) 4 : Int) - tns))
  if ok then
    some ⟨(2 * tp * (fsHz s : Int) + 1000000000) / 2000000000 + pgetI s P.STR_RX_OFS r, len / unit, b + 24, none, none⟩
  else none

/-- The samples of a packet of 125 µs, 250 µs and 1 ms; AES67 has no other rates (R12, R310). -/
def aesPacketTimes (s : State) : List Nat :=
  if fsHz s = 48000 then [6, 12, 48] else if fsHz s = 96000 then [12, 24, 96] else []

/-- The AES67 packet of stream `r` (R310, R312). -/
def readAes (s : State) (r : Nat) (f : List Byte) (tin : Int) : Option StrPacket :=
  let u := l4At f
  let w := pget s P.STR_RX_WIDTH r
  let unit := (pget s P.STR_RX_CPF r + 1) * sampleBytes w
  let o0 := beAt f (u + 8) 1
  let h := 12 + 4 * bitsOf o0 0 4
  let ext := if bitsOf o0 4 1 = 1 then 4 + 4 * beAt f (u + 8 + h + 2) 2 else 0
  let udp := beAt f (u + 4) 2
  let padded := if bitsOf o0 5 1 = 1 then beAt f (u + udp - 1) 1 else 0
  let len := udp - 8 - h - ext - padded
  let ok := decide (u + udp ≤ f.length) && decide (8 + h + ext + padded < udp) && bitsOf o0 6 2 == 2 &&
    bitsOf (beAt f (u + 9) 1) 0 7 == bitsOf (pget s P.STR_RX_KEY1 r) 16 7 && len % unit == 0 &&
    (aesPacketTimes s).contains (len / unit) && decide (len ≤ 1440) &&
    (beAt f (u + 6) 2 == 0 || l4Sum f == 0)
  let sin := tin * (fsHz s : Int) / secUnits
  let ts := (beAt f (u + 12) 4 : Int) - pget s P.STR_RX_RTP_OFS r
  let idx := sin + signed 32 (wrapTo 32 (ts - sin))
  if ok then some ⟨idx + pgetI s P.STR_RX_OFS r, len / unit, u + 8 + h + ext, none, none⟩ else none

/-- The native packet of stream `r` (R311, R312). -/
def readNative (s : State) (r : Nat) (f : List Byte) : Option StrPacket :=
  let b := frBody f
  let w := pget s P.STR_RX_WIDTH r
  let ch := pget s P.STR_RX_CPF r + 1
  let o1 := beAt f (b + 1) 1
  let o17 := beAt f (b + 17) 1
  let len := beAt f (b + 18) 2
  let bt := 4 * 2 ^ bitsOf o17 2 2
  let pos := bitsOf (beAt f (b + 33) 1) 0 5
  let spp := beAt f (b + 34) 2
  let lat := max 1 (pget s P.STR_RX_LAT r)
  let ok := bitsOf o1 7 1 == 1 && bitsOf o1 4 3 == 0 && beAt f (b + 16) 1 == 1 &&
    ((bitsOf o17 0 2 == 0 && w == 2) || (bitsOf o17 0 2 == 1 && w == 1)) &&
    bitsOf o17 4 2 == rget s Reg.SYS_BLKCFG F.SYS_BLKCFG_FS && len == spp * ch * sampleBytes w &&
    bitsOf (beAt f (b + 32) 1) 0 6 + 1 == ch && decide (1 ≤ spp) && decide (spp ≤ 32) && bt % spp == 0 &&
    decide (pos + spp ≤ bt) && decide (b + 52 + len ≤ f.length)
  if ok then
    some ⟨(beAt f (b + 20) 8 * bt + pos + lat * blk s : Nat), spp, b + 52, some (beAt f (b + 36) 16),
      some (beAt f (b + 28) 4)⟩
  else none

/-- The packet a matched frame carries for stream `r`, by its format. -/
def readPacket (s : State) (r : Nat) (f : List Byte) (tin : Int) : Option StrPacket :=
  if pget s P.STR_RX_FMT r = fmAes then readAes s r f tin
  else if pget s P.STR_RX_FMT r = fmNative then readNative s r f
  else readAaf s r f tin

/-- A packet's sequence number, and its modulus (R318). -/
def packetSeq (s : State) (r : Nat) (f : List Byte) : Nat × Nat :=
  if pget s P.STR_RX_FMT r = fmAes then (beAt f (l4At f + 10) 2, 65536) else (beAt f (frBody f + 2) 1, 256)

/-- The sample of channel `i` at place `j` of a packet: big-endian, left-justified in Q1.31 (R308). -/
def packetSample (s : State) (r : Nat) (f : List Byte) (x : StrPacket) (i j : Nat) : Word :=
  let n := sampleBytes (pget s P.STR_RX_WIDTH r)
  BitVec.ofNat 32 (beAt f (x.pos + (j * (pget s P.STR_RX_CPF r + 1) + i) * n) n * 2 ^ (32 - 8 * n))

/-! ## Path accounting (R318) -/

/-- The path of a matched packet is heard: UP, its sequence number accounted. -/
def hearPath (s : State) (r : Nat) (pathB : Bool) (f : List Byte) : State :=
  let x := strRxAt s r
  let q := packetSeq s r f
  let last := if pathB then x.seqB else x.seqA
  let lost := if pathB then P.STR_RX_LOST_B else P.STR_RX_LOST_A
  let ooo := if pathB then P.STR_RX_OOO_B else P.STR_RX_OOO_A
  let d := match last with
    | none => 1
    | some l => (q.1 + q.2 - l % q.2) % q.2
  let fwd := decide (1 ≤ d ∧ d ≤ q.2 / 2)
  let s := if fwd then paddSat s lost r (d - 1) else paddSat s ooo r 1
  let keep := if fwd then some q.1 else last
  let x := if pathB then { x with seqB := keep, heardB := 0 } else { x with seqA := keep, heardA := 0 }
  setStrRx (pput s (if pathB then P.STR_RX_B_UP else P.STR_RX_A_UP) r 1) r x

/-- A copy of first index `k` arrives at `tin`: where the other path's copy came, the skew is its time less A's (R318). -/
def noteSkew (s : State) (r : Nat) (pathB : Bool) (k tin : Int) : State :=
  let x := strRxAt s r
  let recent := x.firsts.filter (fun e => decide (e.1 + 1024 > ((s.grid.index * blk s : Nat) : Int)))
  let s := setStrRx s r { x with firsts := if recent.any (fun e => e.1 == k && e.2.1 == pathB) then recent
    else (k, pathB, tin) :: recent }
  match recent.find? (fun e => e.1 == k && e.2.1 != pathB) with
  | none => s
  | some e =>
    let us := Int.tdiv (if pathB then tin - e.2.2 else e.2.2 - tin) 65536000
    let s := pput s P.STR_RX_SKEW_NOW r (wrapTo 32 us)
    let s := pput s P.STR_RX_SKEW_MAX r (satNat 12 (max (pget s P.STR_RX_SKEW_MAX r) us.natAbs))
    if us.natAbs > min 4000 (pget s P.STR_RX_SKEW r) then
      raise (strEvent (pput s P.STR_RX_SKEW_HI r 1) r 8) 0x341 r 0
    else s

/-! ## The store (R312 to R315) -/

/-- The key of a stored sample: fabric channel and position. -/
def storeKey (c : Nat) (k : Int) : Nat := c * 1024 + wrapTo 10 k

/-- What becomes of one sample of a packet: stored, later copy, early or late. -/
inductive StoreFate where
  | stored | copy | early | late
  deriving DecidableEq, Repr

/-- Judge sample index `k` of a packet that arrived at `tin` (R313 to R315); `c` is the stream's first channel. -/
def judgeSample (s : State) (c : Nat) (k tin : Int) : StoreFate :=
  let s0 : Int := (s.grid.index * blk s : Nat)
  if k - s0 > 1023 - (blk s : Int) then .early
  else if tin > periodEnd s (k / (blk s : Int)) - 4000 * 65536 then .late
  else if k < 0 ∨ mapGet (fun _ => 0) s.supplied (storeKey c k) = k.toNat + 1 then .copy
  else .stored

/-- Store the sample of index `k` of each channel that stream `r` takes. -/
def storeSample (s : State) (r : Nat) (f : List Byte) (x : StrPacket) (j : Nat) : State :=
  let k := x.first + j
  let base := pget s P.STR_RX_CH_BASE r
  let s := forEach (List.range (pget s P.STR_RX_NCH r + 1)) s (fun s i =>
    let w := packetSample s r f x (pget s P.STR_RX_FIRST r + i) j
    let s := drStore s (strStoreWord s (base + i) (wrapTo 10 k)) w
    { s with supplied := mapSet (fun _ => 0) s.supplied (storeKey (base + i) k) (k.toNat + 1) })
  match x.tags with
  | none => s
  | some t =>
    let bad := (List.range (pget s P.STR_RX_NCH r + 1)).filter
      (fun i => bitsOf t (126 - 2 * (pget s P.STR_RX_FIRST r + i)) 2 != 0)
    let mask := bad.foldl (fun m i => m ||| 2 ^ i) 0
    let y := strRxAt s r
    let b := k / (blk s : Int)
    let old := match y.badTags.find? (fun e => e.1 == b) with
      | some e => e.2
      | none => 0
    if mask = 0 then s
    else setStrRx s r { y with badTags := (b, old ||| mask) :: y.badTags.filter (fun e => e.1 != b) }

/-- The talker's packet size is that of its last packet (R306). -/
def noteSpp (s : State) (r n : Nat) : State :=
  if (strRxAt s r).spp = n then s else countRate (setStrRx s r { strRxAt s r with spp := n })

/-- A matched packet (R307, R312 to R315, R318). Samples that the matrix does not let the engine store are lost (log
entry 108). -/
def takePacket (s : State) (r : Nat) (pathB : Bool) (f : List Byte) (tin : Int) : State :=
  if strState s r = srOff ∨ inReset s unitStr then s
  else
    let s := hearPath s r pathB f
    match readPacket s r f tin with
    | none =>
      let s := strEvent (rset (paddSat s P.STR_RX_FORMAT r 1) Reg.STR_STAT F.STR_STAT_FORMAT) r 6
      raise s 0x344 r 0
    | some x =>
      let s := match x.epoch with
        | none => s
        | some e => pput s P.STR_RX_EPOCH_DIFF r (b2n (e != rget s Reg.SYS_EPOCH F.SYS_EPOCH_EPOCH))
      let s := noteSkew s r pathB x.first tin
      let s := noteSpp s r x.count
      let base := pget s P.STR_RX_CH_BASE r
      let judged := (List.range x.count).map (fun (j : Nat) => judgeSample s base (x.first + (j : Int)) tin)
      let store := strStoreWord s base 0
      let lost := judged.contains .stored && dramError s 8 store != 0
      let s := if lost then noteDram s 8 store else s
      let fates := if lost then judged.filter (fun e => e != .stored) else judged
      let s := forEach ((List.range x.count).zip fates) s
        (fun s e => if e.2 = .stored then storeSample s r f x e.1 else s)
      let s := if fates.contains .stored then paddWrap s (if pathB then P.STR_RX_USED_B else P.STR_RX_USED_A) r 1 else s
      let s := if judged.all (fun e => e == .copy) then paddWrap s P.STR_RX_DUP r 1 else s
      let s := if fates.contains .early then
          let s := strEvent (rset (paddSat s P.STR_RX_EARLY r 1) Reg.STR_STAT F.STR_STAT_EARLY) r 5
          raise s 0x343 r 0
        else s
      if fates.contains .late then
        let s := strEvent (rset (paddSat s P.STR_RX_LATE r 1) Reg.STR_STAT F.STR_STAT_LATE) r 4
        raise s 0x343 r 0
      else s

/-! ## Completing beads (R316, R317) -/

/-- Whether index `k` of channel `c` was supplied, and whether the stored word holds poison (R42, R316). -/
def suppliedAt (s : State) (c k : Nat) : Bool := mapGet (fun _ => 0) s.supplied (storeKey c k) == k + 1
def storePoisoned (s : State) (c k : Nat) : Bool :=
  mapGet (fun _ => false) s.poison (dramPoisonKey (strStoreWord s c (k % 1024)))

/-- The stored sample of channel `c` at index `k`, if it was supplied and its error code holds. -/
def storedSample (s : State) (c k : Nat) : Option Word :=
  if suppliedAt s c k && !storePoisoned s c k then some (drGet s (strStoreWord s c (k % 1024))) else none

/-- Fill the indices not supplied with the sample before them; the filled ones are counted (R316). -/
def fillGaps (before : Word) : List (Option Word) → List Word × Nat
  | [] => ([], 0)
  | some w :: rest => let r := fillGaps w rest; (w :: r.1, r.2)
  | none :: rest => let r := fillGaps before rest; (before :: r.1, r.2 + 1)

/-- Complete the bead of channel `i` of receive stream `r`; whether any of its samples was supplied (R316). -/
def completeStreamBead (s : State) (r i : Nat) : State × Bool :=
  let c := pget s P.STR_RX_CH_BASE r + i
  let s0 := s.grid.index * blk s
  let store := strStoreWord s c 0
  let shut := dramError s 8 store != 0 || fabError s 8 (writeBuf s) c 0 != 0
  let s := if shut then noteAccess (noteDram s 8 store) 8 (writeBuf s) c 0 else s
  let s := forEach ((List.range (blk s)).filter (fun j => suppliedAt s c (s0 + j) && storePoisoned s c (s0 + j))) s
    (fun s _ => raise s 0x346 r 0)
  let got := if shut then [] else (List.range (blk s)).map (fun j => storedSample s c (s0 + j))
  if got.all Option.isNone then
    (paddSat (fabMissing s clStream r c) P.STR_RX_MISSED_BEADS r 1, false)
  else
    let out := fillGaps (readSample s c (blk s - 1)) got
    let tagged := (strRxAt s r).badTags.any (fun e => e.1 == (s.grid.index : Int) && bitOf e.2 i)
    let s := forEach ((List.range out.1.length).zip out.1) s
      (fun s e => fabWrite s clStream r c e.1 e.2 (tagged || out.2 != 0))
    if out.2 = 0 then (s, true)
    else
      let s := strEvent (rset (paddSat s P.STR_RX_GAP_SAMPLES r out.2) Reg.STR_STAT F.STR_STAT_GAP) r 3
      (raise s 0x342 r 0, true)

/-- A block more has begun since a path's last matched packet; after PATH_TO whole blocks without one it goes DOWN (R318). -/
def pathTimeout (s : State) (r : Nat) (pathB : Bool) : State :=
  let x := strRxAt s r
  let n := (if pathB then x.heardB else x.heardA) + 1
  if !pon s (if pathB then P.STR_RX_B_UP else P.STR_RX_A_UP) r then s
  else if max 1 (pget s P.STR_RX_PATH_TO r) < n then raise (pathDown s r pathB) 0x341 r 0
  else setStrRx s r (if pathB then { x with heardB := n } else { x with heardA := n })

/-- The path time-outs of every receive stream at a boundary. -/
def pathTimeouts (s : State) : State :=
  forEach (enabledEntries s P.STR_RX_EN) s (fun s r => pathTimeout (pathTimeout s r false) r true)

/-- Whether a stream's beads of this period are already complete. -/
def streamDone (s : State) (r : Nat) : Bool :=
  let x := chanAt s (pget s P.STR_RX_CH_BASE r)
  x.declared || x.written != 0

/-- The last 4 µs of a period at receive stream `r` (R316 to R318). -/
def streamDeadline (s : State) (r : Nat) : State :=
  if streamDone s r then s
  else if strState s r = srOff then
    forEach (List.range (pget s P.STR_RX_NCH r + 1)) s
      (fun s i => fabMissing s clStream r (pget s P.STR_RX_CH_BASE r + i))
  else
    let out := (List.range (pget s P.STR_RX_NCH r + 1)).foldl
      (fun (acc : State × List Bool) i => let x := completeStreamBead acc.1 r i; (x.1, x.2 :: acc.2)) (s, [])
    let s := out.1
    let s := if strState s r = srRunning ∧ !out.2.all (fun b => b) then
        let s := pput s P.STR_RX_STATE r srLost
        raise (strEvent (rset s Reg.STR_STAT F.STR_STAT_LOST) r 1) 0x340 r 0
      else if out.2.any (fun b => b) then pput s P.STR_RX_STATE r srRunning
      else s
    let x := strRxAt s r
    setStrRx s r { x with badTags := x.badTags.filter (fun e => decide (e.1 > (s.grid.index : Int))) }

/-- The last 4 µs of a period; `bad` names stored samples of this period's beads in which the read finds an uncorrectable
error (R41, R316). -/
def execStreamBeadDeadline (bad : List (Fin 1024 × Fin 32)) (s : State) : Out :=
  onHost s (fun s =>
    if !running s then s
    else
      let s := forEach bad s (fun s e =>
        let w := strStoreWord s e.1 ((s.grid.index * blk s + e.2) % 1024)
        uncorrectable s .dram (w / 2 ^ 27 % 4) (dramByte w))
      forEach (enabledEntries s P.STR_RX_EN) s streamDeadline)

/-! ## Transmitting (R319, R320) -/

/-- A transmit stream with nothing built. -/
def strTxReset (_ : Nat) : StrTx := ⟨0, 0, none, []⟩

/-- Transmit stream `t` beside its entry. -/
def strTxAt (s : State) (t : Nat) : StrTx := mapGet strTxReset s.strTx t

/-- Replace transmit stream `t`. -/
def setStrTx (s : State) (t : Nat) (x : StrTx) : State := { s with strTx := mapSet strTxReset s.strTx t x }

/-- The launch time of the packet whose first index is `k` (R319). -/
def launchTime (s : State) (t k : Nat) : Int :=
  let at' := max (k + blk s) (blk s * ((k + txSpp s t - 1) / blk s + 1))
  (at' : Int) * secUnits / (fsHz s : Int) + (pget s P.STR_TX_LAUNCH_OFS t : Int) * 65536

/-- A sample truncated to WIDTH, in network order (R308). -/
def sampleOut (width : Nat) (w : Word) : List Byte := (toBytesBE 4 w.toNat).take (sampleBytes width)

/-- The 24 octets of the AAF header (Table 08-4). -/
def aafHeader (s : State) (t seq : Nat) (l : Int) : List Byte :=
  let w := pget s P.STR_TX_WIDTH t
  let ch := txChannels s t
  let ts := wrapTo 32 (l / 65536 + pget s P.STR_TX_PRES_OFS t)
  [0x02, 0x81, BitVec.ofNat 8 seq, 0] ++ toBytes 4 (pget s P.STR_TX_KEY0 t) ++ toBytes 4 (pget s P.STR_TX_KEY1 t)
    ++ toBytesBE 4 ts ++ toBytesBE 1 (4 - w) ++ toBytesBE 3 (nsrCode s * 2 ^ 20 + ch * 2 ^ 8 + 8 * sampleBytes w)
    ++ toBytesBE 2 (txSpp s t * ch * sampleBytes w) ++ [0, 0]

/-- The tags of a bead's channels as a native packet carries them: 16 octets (Table 08-5). -/
def nativeTags (s : State) (t : Nat) : Nat :=
  (List.range (txChannels s t)).foldl
    (fun acc i => acc + (beadAt s (readBuf s) (pget s P.STR_TX_CH_BASE t + i)).tag * 2 ^ (126 - 2 * i)) 0

/-- The 52 octets of the native header (Table 08-5); `wc` is its WIDTH code and `epoch` that of its block. -/
def nativeHeader (s : State) (t seq k wc epoch : Nat) (l : Int) : List Byte :=
  let w := pget s P.STR_TX_WIDTH t
  let ch := txChannels s t
  let b := rget s Reg.SYS_BLKCFG F.SYS_BLKCFG_BLK
  let fs := rget s Reg.SYS_BLKCFG F.SYS_BLKCFG_FS
  [0x7F, 0x81, BitVec.ofNat 8 seq, 0] ++ toBytes 4 (pget s P.STR_TX_KEY0 t) ++ toBytes 4 (pget s P.STR_TX_KEY1 t)
    ++ toBytesBE 4 (wrapTo 32 (l / 65536)) ++ [1] ++ toBytesBE 1 (wc + 4 * b + 16 * fs)
    ++ toBytesBE 2 (txSpp s t * ch * sampleBytes w) ++ toBytesBE 8 (k / blk s) ++ toBytesBE 4 epoch
    ++ toBytesBE 1 (ch - 1) ++ toBytesBE 1 (k % blk s) ++ toBytesBE 2 (txSpp s t) ++ toBytesBE 16 (nativeTags s t)

/-- The RTP packet in UDP in IPv4 (R310), sent from port `p`. -/
def aesPacket (s : State) (t p seq ident k : Nat) (payload : List Byte) : List Byte :=
  let key1 := pget s P.STR_TX_KEY1 t
  let rtp := [0x80] ++ toBytesBE 1 (bitsOf key1 16 7) ++ toBytesBE 2 seq
    ++ toBytesBE 4 (k + pget s P.STR_TX_PRES_OFS t) ++ toBytesBE 4 (pget s P.STR_TX_SSRC t) ++ payload
  let udp := toBytesBE 2 (pget s P.STR_TX_SPORT t) ++ toBytesBE 2 (bitsOf key1 0 16) ++ toBytesBE 2 (8 + rtp.length)
    ++ [0, 0] ++ rtp
  [0x45] ++ toBytesBE 1 (pget s P.STR_TX_DSCP t * 4) ++ toBytesBE 2 (20 + udp.length) ++ toBytesBE 2 ident ++ [0x40, 0]
    ++ toBytesBE 1 (pget s P.STR_TX_TTL t) ++ [17, 0, 0] ++ toBytesBE 4 (rget s (Reg.NET_IPV4 p) F.NET_IPV4_ADDR)
    ++ toBytesBE 4 (pget s P.STR_TX_KEY0 t) ++ udp

/-- The frame of stream `t` from port `p`: its MAC header and its packet (R319, R320). -/
def streamFrame (s : State) (t p seq ident k wc epoch : Nat) (l : Int) (payload : List Byte) : List Byte :=
  let fmt := pget s P.STR_TX_FMT t
  let mac := toBytes 4 (pget s P.STR_TX_DMAC_LO t) ++ toBytes 2 (pget s P.STR_TX_DMAC_HI t) ++ toBytes 6 (stationMac s p)
  let tag := if pon s P.STR_TX_UNTAGGED t then []
    else toBytesBE 2 0x8100 ++ toBytesBE 2 (pget s P.STR_TX_PCP t * 2 ^ 13 + pget s P.STR_TX_VID t)
  if fmt = fmAes then putL4Sum (putIpSum (mac ++ tag ++ toBytesBE 2 0x0800 ++ aesPacket s t p seq ident k payload))
  else mac ++ tag ++ toBytesBE 2 0x22F0
    ++ (if fmt = fmNative then nativeHeader s t seq k wc epoch l else aafHeader s t seq l) ++ payload

/-- Hand a packet of stream `t` to one port: where the link is down it is discarded (R284). -/
def sendStreamFrame (s : State) (t p : Nat) (b : Bool) (l : Int) (f : List Byte) : State :=
  if !netLink s p then strTxDrop s t
  else enqueueOrDrop s p (pget s P.STR_TX_QUEUE t) ⟨f, some l, .stream t b, false, none⟩

/-- Send the packet of stream `t` whose samples are complete; a native stream of 16-bit samples has no WIDTH code, so
the code it carries is a free value (log entry 22). -/
def sendStreamPacket (s : State) (t k epoch : Nat) : State :=
  let x := strTxAt s t
  let w := pget s P.STR_TX_WIDTH t
  let payload := (x.acc.map (fun frame => (frame.map (sampleOut w)).flatten)).flatten
  let l := launchTime s t k
  let fw := takeFree s 2
  let code := if w = 2 then (0, s) else if w = 1 then (1, s) else (fw.1.toNat, fw.2)
  let s := if pget s P.STR_TX_FMT t = fmNative then code.2 else s
  let m := if pget s P.STR_TX_FMT t = fmAes then 65536 else 256
  let s := setStrTx s t { x with seq := (x.seq + 1) % m, ident := (x.ident + 1) % 65536, next := some (k + txSpp s t), acc := [] }
  let pa := pget s P.STR_TX_PORT_A t
  let pb := pget s P.STR_TX_PORT_B t
  let s := sendStreamFrame s t pa false l (streamFrame s t pa x.seq x.ident k code.1 epoch l payload)
  if pon s P.STR_TX_DUAL t then
    sendStreamFrame s t pb true l (streamFrame s t pb x.seq x.ident k code.1 epoch l payload)
  else s

/-- The first packet start at or after index `k` (R319). -/
def packetStart (s : State) (t k : Nat) : Nat := (k + txSpp s t - 1) / txSpp s t * txSpp s t

/-- Transmit stream `t` reads sample `j` of block `b` (R319). -/
def streamReads (s : State) (t b epoch j : Nat) : State :=
  let k := b * blk s + j
  let x := strTxAt s t
  match x.next with
  | none => s
  | some n =>
    if k < n then s
    else
      let base := pget s P.STR_TX_CH_BASE t
      let frame := (List.range (txChannels s t)).map (fun i => busSample s 8 (base + i) j)
      let s := forEach (List.range (txChannels s t)) s (fun s i => noteAccess s 8 (readBuf s) (base + i) j)
      let s := setStrTx s t { x with acc := x.acc ++ [frame] }
      if x.acc.length + 1 = txSpp s t then sendStreamPacket s t n epoch else s

/-- The packets of stream `t` after the boundary that made block `b` readable; where block indices jumped, the stream
starts again at the block. -/
def transmitStream (s : State) (b epoch t : Nat) : State :=
  let x := strTxAt s t
  let fits := match x.next with
    | none => false
    | some n => n + x.acc.length == b * blk s || (x.acc.isEmpty && decide (b * blk s ≤ n) && decide (n < b * blk s + 2 * txSpp s t))
  let s := if fits then s else setStrTx s t { x with next := some (packetStart s t (b * blk s)), acc := [] }
  let s := pput s P.STR_TX_RUNNING t 1
  forEach (List.range (blk s)) s (fun s j => streamReads s t b epoch j)

/-- Every transmit stream after a boundary; `b` is the block that playout reads and `epoch` its configuration epoch. While the
pipeline is stopped no packet is built (R57). -/
def transmitStreams (s : State) (b epoch : Nat) : State :=
  forEach (enabledEntries s P.STR_TX_EN) s (fun s t =>
    if strRuns s && running s then transmitStream s b epoch t
    else pput (setStrTx s t { strTxAt s t with next := none, acc := [] }) P.STR_TX_RUNNING t 0)

/-! ## Settings (R305, R306) -/

/-- The frame a stream's packet takes with FCS and a tag: `n` samples. -/
def packetBytes (fmt n ch width : Nat) (tagged : Bool) : Nat :=
  14 + 4 * b2n tagged + (if fmt = fmAes then 40 else if fmt = fmNative then 52 else 24) + n * ch * sampleBytes width + 4

/-- Two receive streams share a match key on one port (R306, R307). -/
def sameKey (s : State) (r q : Nat) : Bool :=
  let ports (r : Nat) : List Nat :=
    pget s P.STR_RX_PORT_A r :: (if pon s P.STR_RX_B_EN r then [pget s P.STR_RX_PORT_B r] else [])
  let aes := pget s P.STR_RX_FMT r == fmAes
  (ports r).any (fun p => (ports q).contains p) && pget s P.STR_RX_VID r == pget s P.STR_RX_VID q &&
    pget s P.STR_RX_FMT r == pget s P.STR_RX_FMT q && pget s P.STR_RX_KEY0 r == pget s P.STR_RX_KEY0 q &&
    (if aes then
      bitsOf (pget s P.STR_RX_KEY1 r) 0 16 == bitsOf (pget s P.STR_RX_KEY1 q) 0 16 &&
        !(pon s P.STR_RX_SSRC_CHK r && pon s P.STR_RX_SSRC_CHK q && pget s P.STR_RX_SSRC r != pget s P.STR_RX_SSRC q)
    else pget s P.STR_RX_KEY1 r == pget s P.STR_RX_KEY1 q)

/-- An enabled receive stream satisfies R306. -/
def rxStreamOk (s : State) (r : Nat) : Bool :=
  let fmt := pget s P.STR_RX_FMT r
  let w := pget s P.STR_RX_WIDTH r
  let n := pget s P.STR_RX_NCH r
  let cpf := pget s P.STR_RX_CPF r
  let base := pget s P.STR_RX_CH_BASE r
  let fits (p : Nat) : Bool := decide (packetBytes fmt (rxSpp s r) (cpf + 1) w true ≤ maxFrame s p)
  fmt != 3 && w != 3 && (List.range (n + 1)).all (fun i => decide (base + i < channels s) && owns s clStream r (base + i)) &&
    decide (pget s P.STR_RX_FIRST r + n + 1 ≤ cpf + 1) &&
    (enabledEntries s P.STR_RX_EN).all (fun q => q == r || !sameKey s r q) &&
    (!pon s P.STR_RX_B_EN r || (pget s P.STR_RX_PORT_A r != pget s P.STR_RX_PORT_B r && fits (pget s P.STR_RX_PORT_B r))) &&
    fits (pget s P.STR_RX_PORT_A r) &&
    (fmt != fmAes || (decide (w ≤ 1) && (aesPacketTimes s).any (fun k => decide (k * (cpf + 1) * sampleBytes w ≤ 1440))))

/-- An enabled transmit stream satisfies R306 and R310. -/
def txStreamOk (s : State) (t : Nat) : Bool :=
  let fmt := pget s P.STR_TX_FMT t
  let w := pget s P.STR_TX_WIDTH t
  let spp := txSpp s t
  let bytes := packetBytes fmt spp (txChannels s t) w (!pon s P.STR_TX_UNTAGGED t)
  let fits (p : Nat) : Bool := decide (bytes ≤ maxFrame s p)
  fmt != 3 && w != 3 && decide (spp ≤ 192) && fits (pget s P.STR_TX_PORT_A t) &&
    (!pon s P.STR_TX_DUAL t || (pget s P.STR_TX_PORT_A t != pget s P.STR_TX_PORT_B t && fits (pget s P.STR_TX_PORT_B t))) &&
    (fmt != fmAes || (decide (w ≤ 1) && (aesPacketTimes s).contains spp && decide (spp * txChannels s t * sampleBytes w ≤ 1440)))

/-- Every enabled stream satisfies R306. -/
def streamsOk (s : State) : Bool :=
  (enabledEntries s P.STR_RX_EN).all (rxStreamOk s) && (enabledEntries s P.STR_TX_EN).all (txStreamOk s) &&
    decide (packetRate s ≤ 24576000)

/-- What an applied write of receive stream `r`'s EN brings about (Table 08-6); `was` is EN before it. -/
def rxStreamChanged (s : State) (r : Nat) (was : Bool) : State :=
  let on := pon s P.STR_RX_EN r
  countRate (if on && !was then
      let s := strOff s r
      if strRuns s then pput s P.STR_RX_STATE r srWait else s
    else if was && !on then strOff s r
    else s)

/-- What an applied write of transmit stream `t`'s EN brings about at boundary `n` (R319). -/
def txStreamChanged (s : State) (t : Nat) (was : Bool) (n : Nat) : State :=
  let on := pon s P.STR_TX_EN t
  countRate (if on && !was then setStrTx s t ⟨0, 0, some (packetStart s t ((n - 1) * blk s)), []⟩
    else if was && !on then setStrTx (pput s P.STR_TX_RUNNING t 0) t (strTxReset t)
    else s)

/-- A write of STR_CTRL: EN = 0 takes every receive stream to OFF and nothing more is sent; EN = 1 lets them wait again (R317, Table 08-11). -/
def writeStrCtrl (s : State) (w : Word) : State :=
  let s := rwrite s Reg.STR_CTRL w
  if strRuns s then strRestart s else dropStreamFrames raise (stopBuilding (forEach (enabledEntries s P.STR_RX_EN) s strOff))

/-! ## STR_CLR (R325) -/

/-- The counters of one stream, numbered as STR_LAST, are cleared. -/
def clearStream (s : State) (n : Nat) : State :=
  if n < 512 then
    forEach [P.STR_RX_SKEW_HI, P.STR_RX_SKEW_MAX, P.STR_RX_USED_A, P.STR_RX_USED_B, P.STR_RX_DUP, P.STR_RX_LOST_A,
      P.STR_RX_LOST_B, P.STR_RX_OOO_A, P.STR_RX_OOO_B, P.STR_RX_LATE, P.STR_RX_EARLY, P.STR_RX_FORMAT,
      P.STR_RX_GAP_SAMPLES, P.STR_RX_MISSED_BEADS] s (fun s f => pput s f n 0)
  else
    forEach [P.STR_TX_SENT_A, P.STR_TX_SENT_B, P.STR_TX_LATE_DROP, P.STR_TX_FULL_DROP] s (fun s f => pput s f (n - 512) 0)

/-- The clears that wait are done at a boundary. -/
def clearStreams (s : State) : State :=
  let todo := s.strClears
  forEach todo { s with strClears := [] } (fun s c =>
    forEach (List.range (max c.1 c.2 + 1 - c.1)) s (fun s i => clearStream s (c.1 + i)))

/-- A write of STR_CLR: GO clears the range's counters at the next boundary. -/
def hostStrClr (w : Word) (s : State) : State :=
  let s := rwrite s Reg.STR_CLR w
  if fldGet F.STR_CLR_GO w = 1 then
    { s with strClears := s.strClears ++ [(rget s Reg.STR_CLR F.STR_CLR_FIRST, rget s Reg.STR_CLR F.STR_CLR_LAST)] }
  else s

/-- The access itself, through the bus matrix. -/
def execStrClr (w : Word) (s : State) : Out := onBar s Reg.STR_CLR (fun s => hostStrClr w s)

end Sys2Proof.Machine
end

