-- ==== Sys2Proof/Machine/Time.lean ====
section
/-! DEFINITION. Device time, the reference candidates, the clean-up loop, holdover and PPS_OUT (chapter 02). -/

namespace Sys2Proof.Machine
open Sys2Proof

/-! ## Device time (R62 to R71) -/

/-- Re-base at this tick: T_b becomes the present time and c_b the present count (R64). -/
def rebase (s : State) (extra : Int) : State :=
  let t := now s
  let s := settleCredits s
  { s with time := { s.time with ofs := timeWrap (t + extra), base := s.time.cnt } }

/-- Change ρ with a re-base, so T does not move (R64). -/
def setRate (s : State) (rho : Int) : State := rputI (rebase s 0) Reg.TIME_RATE F.TIME_RATE_RHO rho

/-- The nearest integer to a rational, halves away from zero. -/
def roundHalfAway (q : Rat) : Int := if q ≥ 0 then (q + 1 / 2).floor else -(((-q) + 1 / 2).floor)

/-- The block grid takes a step of Δ (R27): whole blocks at the next boundary, the rest slewed out. -/
def stepGrid (s : State) (delta : Int) : State :=
  let bps : Rat := (delta : Rat) * (fsHz s : Rat) / ((secUnits : Rat) * (blk s : Rat))
  let k := roundHalfAway bps
  let phi : Int := Int.tdiv (delta * (fsHz s : Int) - k * secUnits * (blk s : Int)) (fsHz s : Int)
  let slew := s.grid.slew + phi
  rbit { s with grid := { s.grid with extra := s.grid.extra + k, slew := slew } } Reg.SYS_PIPE F.SYS_PIPE_SLEW
    (decide (slew ≠ 0))

/-- A time difference in ns, saturated to ±(2^31 − 1) (R67); parts of a ns are dropped towards zero (DESIGN CHOICE, log
entry 100: the spec gives no rounding). -/
def deltaNs (d : Int) : Int := max (-(2 ^ 31 - 1)) (min (2 ^ 31 - 1) (Int.tdiv d 65536))

/-- A request of the same slot as `o` (R70): the STACK candidate's share the servo's. -/
def sameSlot (o p : StepOrigin) : Bool :=
  o == p || (o == .servo && p == .stack) || (o == .stack && p == .servo)

/-- Whether the step unit holds a pending request of an origin (R70). -/
def stepPending (s : State) (o : StepOrigin) : Bool := s.time.steps.any (fun p => sameSlot p.origin o)

/-- Hand a request to the step unit (R70): a servo request replaces the pending one and takes its place in the order of
service (DESIGN CHOICE, log entry 148), others wait in order. -/
def submitStep (s : State) (r : StepReq) : State :=
  let replace := (r.origin == .servo || r.origin == .stack) && stepPending s r.origin
  let steps := if replace then s.time.steps.map (fun p => if sameSlot p.origin r.origin then r else p)
    else s.time.steps ++ [r]
  let s := { s with time := { s.time with steps := steps } }
  if r.origin = .adj then rset s Reg.TIME_STAT F.TIME_STAT_ADJ_BUSY else s

/-! ## Candidates and selection (R72 to R76) -/

/-- Give the selector's choice effect: SEL changes, and a lost candidate moves the loop (R76, R82). -/
def selectCandidate (s : State) (c : Nat) : State := selectCandidateWith raise s c

/-- Re-run the selector (R76). -/
def reselect (s : State) : State := reselectWith raise s

/-- Disqualify a candidate (R75). -/
def disqualify (s : State) (n : Nat) : State := disqualifyWith raise s n

/-- A candidate's frequency is measured, in 0.1 ppm units: FOFS, and a disqualification beyond REJECT, which below ACCEPT
acts as ACCEPT (R74, R75). -/
def frequencyGate (s : State) (n : Nat) (offset : Int) : State :=
  let s := noteCands (rputI s (Reg.REF_CSTAT n) F.REF_CSTAT_FOFS offset)
  let lim := max (rget s Reg.REF_LIMITS F.REF_LIMITS_REJECT) (rget s Reg.REF_LIMITS F.REF_LIMITS_ACCEPT)
  if fofsAbs s n > 10 * lim then disqualify s n else s

/-- Qualify a candidate that may qualify (R75). -/
def qualify (s : State) (n : Nat) : State :=
  if candGood s n && !ron s (Reg.REF_CSTAT n) F.REF_CSTAT_STEP_REFUSED then
    let l := s.loop
    let since := if ron s (Reg.REF_CSTAT n) F.REF_CSTAT_QUALIFIED then l.qualSince
      else (n, s.time.cnt) :: l.qualSince.filter (fun p => p.1 != n)
    reselect (rset { s with loop := { l with qualSince := since } } (Reg.REF_CSTAT n) F.REF_CSTAT_QUALIFIED)
  else s

/-- QUAL_TIME in ticks; for 1PPS no less than one gate of 16 s (R74, R75). -/
def qualTicks (s : State) (n : Nat) : Nat :=
  let q := rget s Reg.REF_LIMITS F.REF_LIMITS_QUAL_TIME * tickRate / 10
  if n < 4 ∧ candType s n = 3 then max q (16 * tickRate) else q

/-- Whether a count kept for a candidate lies a number of ticks back. -/
def stoodFor (s : State) (l : List (Nat × Nat)) (n ticks : Nat) : Bool :=
  match sinceOf l n with
  | none => false
  | some t => decide (t + ticks ≤ s.time.cnt)

/-- A refused step disqualifies the candidate that asked for it (R75). -/
def stepRefused (s : State) (n : Nat) : State :=
  if ron s (Reg.REF_CSTAT n) F.REF_CSTAT_QUALIFIED then
    disqualify (rset s (Reg.REF_CSTAT n) F.REF_CSTAT_STEP_REFUSED) n
  else s

/-- A candidate whose step is applied, or whose offset returned within the limit, qualifies again (R75). -/
def stepRestored (s : State) (n : Nat) : State :=
  if ron s (Reg.REF_CSTAT n) F.REF_CSTAT_STEP_REFUSED then
    qualify (rclr s (Reg.REF_CSTAT n) F.REF_CSTAT_STEP_REFUSED) n
  else s

/-- The candidate that a step's origin stands for. -/
def originCand (o : StepOrigin) : Option Nat :=
  match o with
  | .servo => some 4
  | .stack => some 5
  | _ => none

/-- The estimate of an absolute candidate's time, in 2^-16 ns, at one of its updates: it asks for a step while the estimate
is beyond TIME_JUMP_MAX or time is not valid, and an estimate within the limit restores it (R67, R68, R75). -/
def absoluteEstimate (s : State) (o : StepOrigin) (n : Nat) (est : Int) : State :=
  let jump : Int := rget s Reg.TIME_JUMP_MAX F.TIME_JUMP_MAX_NS
  if !ron s Reg.TIME_STAT F.TIME_STAT_VALID || decide ((jump * 65536).natAbs < est.natAbs) then
    submitStep s ⟨o, false, est, false, none⟩
  else stepRestored s n

/-! ## Step application (R67 to R70) -/

/-- TIME_STAT.VALID becomes 1: the events TIME_VALID and the first TIME_MARK (R491). -/
def becomeValid (s : State) : State :=
  if ron s Reg.TIME_STAT F.TIME_STAT_VALID then s
  else
    let s := rset (settleCredits s) Reg.TIME_STAT F.TIME_STAT_VALID
    let sec := timeSec (now s) % 2 ^ 32
    let s := recordEvent s 0x0340 noInst false sec
    recordEvent { s with recorder := { s.recorder with marked := some s.recorder.optime } } 0x1844 noInst false sec

/-- Apply a step of Δ. -/
def applyStep (s : State) (delta : Int) : State := becomeValid (stepGrid (rebase s delta) delta)

/-- The step unit takes the oldest pending request (R67, R68). -/
def runStep (s : State) : State :=
  match s.time.steps with
  | [] => s
  | r :: rest =>
    let s := { s with time := { s.time with steps := rest } }
    let s := if r.origin = .adj then rclr s Reg.TIME_STAT F.TIME_STAT_ADJ_BUSY else s
    let delta := if r.absolute then r.value - now s else r.value
    let ns := deltaNs delta
    let result := wrapTo 64 (Int.tdiv delta 65536)
    let jmax : Int := rget s Reg.TIME_JUMP_MAX F.TIME_JUMP_MAX_NS
    let cand := originCand r.origin
    let done (s : State) : State :=
      let s := match cand with | some n => stepRestored s n | none => s
      finishOpt s r.ref stOk result
    if !ron s Reg.TIME_STAT F.TIME_STAT_VALID || (decide (delta.natAbs ≤ (jmax * 65536).natAbs) && jmax != 0) then
      done (applyStep s delta)
    else if r.force || ron s Reg.TIME_CTRL F.TIME_CTRL_FORCE then
      let s := if r.force then s else rclr s Reg.TIME_CTRL F.TIME_CTRL_FORCE
      let s := rset (applyStep s delta) Reg.TIME_STAT F.TIME_STAT_FORCED
      done (raise s 0x0C1 noInst (wrapTo 32 ns))
    else
      let s := rset s Reg.TIME_STAT F.TIME_STAT_JUMP_REFUSED
      let s := rputI s Reg.TIME_REFUSED_NS F.TIME_REFUSED_NS_DELTA ns
      let s := raise s 0x0C0 noInst (wrapTo 32 ns)
      let s := match cand with | some n => stepRefused s n | none => s
      finishOpt s r.ref stInvalidParam result

/-! ## The clean-up loop (R77 to R91) -/

/-- The steer's limit, 250 ppm in 2^-40 (R61). -/
def steerLimit : Int := 274877907

/-- Clamp a steer to ±250 ppm. -/
def clampSteer (x : Int) : Int := max (-steerLimit) (min steerLimit x)

/-- Bandwidth codes in mHz (Table 02-3). -/
def bandwidthMilli (code : Nat) : Nat :=
  [1, 2, 5, 10, 20, 50, 100, 200, 500, 1000, 2000, 5000, 10000, 20000, 50000, 100000, 200000, 500000, 1000000].getD
    (min code 18) 1000000

/-- The widest code up to `code` whose bandwidth is at most a twentieth of the update rate (R79). -/
def limitCode (rate : Nat) : Nat → Nat
  | 0 => 0
  | c + 1 => if bandwidthMilli (c + 1) * 20 ≤ rate then c + 1 else limitCode rate c

/-- The candidate's own code, as R79 limits it. -/
def candCode (s : State) (n rate : Nat) : Nat := limitCode rate (min 18 (rget s (Reg.REF_CAND n) F.REF_CAND_BW))

/-- Whether a candidate is of type 10 MHz. -/
def isTenMhz (s : State) (n : Nat) : Bool := n < 4 && candType s n == 2

/-- The phase period P of a candidate, in seconds (R72): none for an absolute one; 10 MHz is taken modulo 100 ns. -/
def phasePeriod (s : State) (n : Nat) : Option Rat :=
  if n < 4 then
    match candType s n with
    | 1 => some (1 / (match rget s (Reg.REF_CAND n) F.REF_CAND_WC_RATE with | 1 => 96000 | 2 => 192000 | _ => 48000))
    | 2 => some (1 / 10000000)
    | _ => some 1
  else if n < 6 then none
  else
    let hz := rget s (Reg.BPH_RX_RATE (n - 6)) F.BPH_RX_RATE_NOM_HZ
    some (1 / (if hz = 0 then (fsHz s : Rat) else (hz : Rat)))

/-- Reduce a phase, in 2^-16 ns, modulo a candidate's period into (−P/2, P/2] (R77). -/
def reducePhase (s : State) (n : Nat) (e : Rat) : Int :=
  match phasePeriod s n with
  | none => e.floor
  | some p =>
    let pu : Rat := p * (secUnits : Rat)
    let k : Int := (e / pu + 1 / 2).ceil - 1
    (e - (k : Rat) * pu).floor

/-- LOCK_WIN and UNLOCK_WIN in ns as they act (R81, R94). -/
def lockWin (s : State) (n : Nat) : Nat := if isTenMhz s n then 5 else rget s Reg.REF_LOCKCFG F.REF_LOCKCFG_LOCK_WIN
def unlockWin (s : State) (n : Nat) : Nat :=
  if isTenMhz s n then 25
  else max (rget s Reg.REF_LOCKCFG F.REF_LOCKCFG_LOCK_WIN) (rget s Reg.REF_LOCKCFG F.REF_LOCKCFG_UNLOCK_WIN)

/-- LOCK_CNT; 0 acts as 1. -/
def lockCnt (s : State) : Nat := max 1 (rget s Reg.REF_LOCKCNT F.REF_LOCKCNT_LOCK_CNT)

/-- PULL in 0.1 ppm units; above 1,000 acts as 1,000. -/
def pullTenths (s : State) : Nat := min 1000 (rget s Reg.REF_PULL F.REF_PULL_PULL)

/-- The limit on the loop's proportional part, in 2^-40; PULL = 0 acts as 1 ppm (R78). -/
def pullLimit (s : State) : Int :=
  let p := pullTenths s
  ((if p = 0 then 10 else p : Nat) : Int) * 2 ^ 40 / 10000000

/-- Take a steer: clamped to ±250 ppm with STEER_LIM and CLK source 0x043, slew-limited while the pipeline runs (R61),
and written to TIME_RATE with TIME_FOLLOW = 1 (R66). -/
def setSteer (s : State) (x : Int) : State :=
  let beyond := decide (x.natAbs > steerLimit.natAbs)
  let x := clampSteer x
  let dt : Int := (s.time.cnt : Int) - s.loop.lastUpdate
  let df : Int := rget s Reg.REF_PULL F.REF_PULL_MAX_DF
  let d : Int := df * 2 ^ 40 * dt / (1000000 * tickRate)
  let x := if running s && df != 0 then max (s.loop.steer - d) (min (s.loop.steer + d) x) else x
  let was := ron s Reg.CLK_STAT F.CLK_STAT_STEER_LIM
  let s := rbit s Reg.CLK_STAT F.CLK_STAT_STEER_LIM beyond
  let s := if beyond && !was then raise s 0x043 noInst 0 else s
  let s := { s with loop := { s.loop with steer := x, lastUpdate := s.time.cnt } }
  let s := rputI s Reg.REF_STEER F.REF_STEER_S x
  if ron s Reg.REF_CTRL F.REF_CTRL_TIME_FOLLOW then setRate s x else s

/-- Store a phase error and a build-out and report them (R77, R84). -/
def setPhase (s : State) (e : Int) (b : Rat) : State :=
  let s := { s with loop := { s.loop with phase := e, buildout := b, buildAt := s.time.cnt } }
  let s := rputI s Reg.REF_PHERR F.REF_PHERR_E (Int.tdiv (e * 1000) 65536)
  rputI s Reg.REF_BUILDOUT F.REF_BUILDOUT_B (Int.tdiv b.floor 65536)

/-- Take a bandwidth code and report it (R79); a dwell is counted at one code (R80). -/
def setBw (s : State) (code : Nat) : State :=
  let at' := if code = s.loop.bw then s.loop.dwellAt else s.time.cnt
  { rput s Reg.REF_STAT F.REF_STAT_BW_NOW code with loop := { s.loop with bw := code, dwellAt := at' } }

/-- Bring the bandwidth in force under R79's limit for an update rate: fast acquire goes on while its code lies above the
candidate's own, which holds otherwise (R79, R80). -/
def limitBw (s : State) (n rate : Nat) : State :=
  let own := candCode s n rate
  let code := limitCode rate s.loop.bw
  if s.loop.fast && decide (own < code) then setBw s code
  else setBw { s with loop := { s.loop with fast := false } } own

/-- Start on a new candidate (R84, R85): the error measured with b = 0 becomes b, unless an absolute candidate is beyond
TIME_JUMP_MAX, which asks for a step instead. -/
def buildOut (s : State) (n : Nat) (e0 : Int) : State :=
  let jmax : Nat := rget s Reg.TIME_JUMP_MAX F.TIME_JUMP_MAX_NS
  let s := { s with loop := { s.loop with cand := n, goodRun := 0, badRun := 0 } }
  if (n == 4 || n == 5) && decide (e0.natAbs > jmax * 65536) then
    submitStep (setPhase s e0 0) ⟨if n = 4 then .servo else .stack, false, e0, false, none⟩
  else setPhase s 0 e0

/-- The build-out now: removed at the rate of R78 for a periodic or absolute candidate, kept for 10 MHz and with PULL = 0
(R85). -/
def decayBuildout (s : State) (n : Nat) : Rat :=
  let b := s.loop.buildout
  let p := pullTenths s
  if isTenMhz s n || p == 0 then b
  else
    let dt : Rat := (((s.time.cnt : Int) - s.loop.buildAt : Int) : Rat)
    let m : Rat := (p : Rat) / 10000000 * dt * (secUnits : Rat) / (tickRate : Rat)
    if b ≥ 0 then max 0 (b - m) else min 0 (b + m)

/-- The steer as the ageing fit takes it at a temperature, in ppb: without what the temperature terms account for (R90). -/
def ageSample (s : State) (theta : Int) : Rat :=
  let ppb : Rat := (s.loop.steer : Rat) * 1000000000 / 2 ^ 40
  let th : Rat := ((theta - rgetI s Reg.REF_THETA0 F.REF_THETA0_THETA0 : Int) : Rat) / 16
  let k1 : Rat := (rgetI s Reg.REF_TCOEF F.REF_TCOEF_K1 : Rat) / 256
  let k2 : Rat := (rgetI s Reg.REF_TCOEF F.REF_TCOEF_K2 : Rat) / 4096
  ppb - k1 * th - k2 * th * th

/-- The averages taken up to a count: the steer held since the last update and the temperature in use until then count for
its ticks, and each whole second gives its averages (R87, R90). -/
def keepUntil (s : State) (theta : Int) (t : Nat) : State :=
  let l := s.loop
  let need := holdAvg s + holdGuard s
  let dt := t - l.avgAt
  let left := tickRate - l.secTicks
  let l := { l with hourSum := l.hourSum + ageSample s theta * (dt : Rat), hourN := l.hourN + dt, avgAt := t }
  if dt < left then
    { s with loop := { l with secTicks := l.secTicks + dt, secSumS := l.secSumS + l.steer * dt, secSumT := l.secSumT + theta * dt } }
  else
    let first := ((l.secSumS + l.steer * left) / (tickRate : Int), (l.secSumT + theta * left) / (tickRate : Int))
    let rest := (dt - left) % tickRate
    let whole := List.replicate (min need ((dt - left) / tickRate)) (l.steer, theta)
    let h := (whole ++ first :: l.history).take need
    { s with loop := { l with history := h, secTicks := rest, secSumS := l.steer * rest, secSumT := theta * rest } }

/-- The averages kept while LOCKED, taken up to an update: each temperature in use since the last one counts for its own
time (R87, R89). -/
def keepHistory (s : State) : State :=
  let s := keepUntil (forEach s.loop.temps s (fun s p => keepUntil s p.1 p.2)) (rgetI s Reg.REF_TEMP F.REF_TEMP_THETA) s.time.cnt
  rbit { s with loop := { s.loop with temps := [], lockedAt := s.time.cnt } } Reg.REF_STAT F.REF_STAT_HIST_OK
    (ron s Reg.REF_STAT F.REF_STAT_HIST_OK || decide (s.loop.history.length = holdAvg s + holdGuard s))

/-- With TIME_FOLLOW = 1 an update that leaves the steer as it is writes it to TIME_RATE all the same (R66). -/
def followSteer (s : State) : State :=
  if ron s Reg.REF_CTRL F.REF_CTRL_TIME_FOLLOW then setRate s s.loop.steer else s

/-- Begin acquisition on a candidate (R80, R82): six codes above its own with FAST_EN. -/
def startAcquire (s : State) (n rate : Nat) (e0 : Int) : State :=
  let own := candCode s n rate
  let fast := ron s Reg.REF_CTRL F.REF_CTRL_FAST_EN
  let code := if fast then limitCode rate (min 18 (min 18 (rget s (Reg.REF_CAND n) F.REF_CAND_BW) + 6)) else own
  let s := rput (buildOut s n e0) Reg.REF_STAT F.REF_STAT_STATE stAcquiring
  let l := { s.loop with fast := fast && decide (code > own), dwellBad := false, freeStart := false, dwellAt := s.time.cnt }
  followSteer (setBw { s with loop := { l with integral := (l.steer : Rat), lastUpdate := s.time.cnt } } code)

/-- The loop becomes LOCKED (R82): the averages begin (R87). -/
def enterLocked (s : State) : State :=
  let s := rput s Reg.REF_STAT F.REF_STAT_STATE stLocked
  let l := { s.loop with everLocked := true, badRun := 0, fast := false, history := [] }
  { s with loop := { l with secTicks := 0, secSumS := 0, secSumT := 0, avgAt := s.time.cnt, lockedAt := s.time.cnt, temps := [] } }

/-- One ordinary update (R78 to R81, R87): the filter, with damping 1 at its frequency ω, whose proportional part is
2ω × e and whose integral part gathers ω² × e over the update's period; the steer; the lock tests; the averages. -/
def filterUpdate (s : State) (n rate : Nat) (e : Int) (b : Rat) : State :=
  let s := if loopState s = stLocked then keepHistory s else s
  let s := setPhase (limitBw s n rate) e b
  let own := candCode s n rate
  let w := Config.loopOmega (bandwidthMilli s.loop.bw)
  let es : Rat := (e : Rat) / (secUnits : Rat) * 2 ^ 40
  let integral := s.loop.integral + w * w * es * 1000 / (rate : Rat)
  let lim : Rat := (pullLimit s : Rat)
  let prop := max (-lim) (min lim (2 * w * es))
  let s := { s with loop := { s.loop with integral := integral } }
  let s := setSteer s (roundHalfAway (integral + prop))
  let good := decide (e.natAbs ≤ lockWin s n * 65536)
  let bad := decide (e.natAbs > unlockWin s n * 65536)
  let l := s.loop
  let l := { l with goodRun := if good && l.bw == own then l.goodRun + 1 else 0 }
  let l := { l with badRun := if bad then l.badRun + 1 else 0 }
  let l := { l with dwellBad := l.dwellBad || !good, pstepBusy := l.pstepBusy && !good }
  let s := rbit { s with loop := l } Reg.REF_STAT F.REF_STAT_PSTEP_BUSY l.pstepBusy
  if loopState s = stAcquiring ∧ l.goodRun ≥ lockCnt s then enterLocked s
  else if loopState s = stLocked ∧ l.badRun ≥ lockCnt s then
    let s := rput s Reg.REF_STAT F.REF_STAT_STATE stAcquiring
    raise { s with loop := { s.loop with goodRun := 0, badRun := 0 } } 0x098 noInst 0
  else s

/-- At a decimated reference event of the selected candidate (R77): acquisition, a hitless switch, or an update. -/
def loopStep (s : State) (phase : Int) (rate : Nat) : State :=
  let n := selected s
  if n = noCand then s
  else
    let pofs := rgetI s Reg.REF_POFS F.REF_POFS_POFS * 65536
    let e0 := reducePhase s n ((phase + pofs : Int) : Rat)
    let st := loopState s
    if st ≠ stAcquiring ∧ st ≠ stLocked then startAcquire s n rate e0
    else if s.loop.cand ≠ n then
      let s := followSteer (limitBw (buildOut (if st = stLocked then keepHistory s else s) n e0) n rate)
      if st = stLocked then raise s 0x09B noInst 0 else s
    else
      let b := decayBuildout s n
      filterUpdate s n rate (reducePhase s n (((phase + pofs : Int) : Rat) - b)) b

/-- The ageing slope in use, in 2^-8 ppb per day (R90). -/
def ageInUse (s : State) : Int :=
  match rget s Reg.REF_AGE F.REF_AGE_AGE_MODE with
  | 0 => if ron s Reg.REF_AGE F.REF_AGE_A_VALID then s.loop.learnedA else 0
  | 1 => rgetI s Reg.REF_AGE F.REF_AGE_A
  | _ => 0

/-- The holdover prediction of R88 in 2^-40 units, to the nearest unit. -/
def holdoverSteer (s : State) : Int :=
  let t : Rat := (((s.time.cnt : Int) - s.loop.tHeld : Int) : Rat) / (tickRate : Rat)
  let th : Rat := (rgetI s Reg.REF_TEMP F.REF_TEMP_THETA : Rat) / 16
  let thH : Rat := (rgetI s Reg.REF_HOLDINFO_T F.REF_HOLDINFO_T_THETA_H : Rat) / 16
  let th0 : Rat := (rgetI s Reg.REF_THETA0 F.REF_THETA0_THETA0 : Rat) / 16
  let k1 : Rat := (rgetI s Reg.REF_TCOEF F.REF_TCOEF_K1 : Rat) / 256
  let k2 : Rat := (rgetI s Reg.REF_TCOEF F.REF_TCOEF_K2 : Rat) / 4096
  let ppb : Rat := (ageInUse s : Rat) / 256 * t / 86400 + k1 * (th - thH)
    + k2 * ((th - th0) * (th - th0) - (thH - th0) * (thH - th0))
  rgetI s Reg.REF_HOLDINFO_S F.REF_HOLDINFO_S_S_H + roundHalfAway (ppb * 2 ^ 40 / 1000000000)

/-- The slope of a least-squares line through points, if the points are not all at one place. -/
def leastSquaresSlope (ps : List (Rat × Rat)) : Option Rat :=
  let n : Rat := ps.length
  let sx := (ps.map (·.1)).foldl (· + ·) 0
  let sy := (ps.map (·.2)).foldl (· + ·) 0
  let sxx := (ps.map (fun p => p.1 * p.1)).foldl (· + ·) 0
  let sxy := (ps.map (fun p => p.1 * p.2)).foldl (· + ·) 0
  let den := n * sxx - sx * sx
  if den = 0 then none else some ((n * sxy - sx * sy) / den)

/-- The hourly refit of the learned slope (R90), rounded to its field half away from zero (DESIGN CHOICE, log entry 65: the
spec gives no rounding). -/
def refitAge (s : State) : State :=
  let l := s.loop
  let win := min 30 (max 1 (rget s Reg.REF_AGE F.REF_AGE_AGE_WIN))
  let hours := l.hours + 1
  let pts := if l.hourN = 0 then l.hourly else (hours, l.hourSum / (l.hourN : Rat)) :: l.hourly
  let pts := pts.filter (fun p => decide (hours < p.1 + 24 * win))
  let s := { s with loop := { l with hours := hours, hourly := pts, hourSum := 0, hourN := 0 } }
  let s := rbit s Reg.REF_AGE F.REF_AGE_A_VALID (ron s Reg.REF_AGE F.REF_AGE_A_VALID || decide (pts.length ≥ 24))
  match leastSquaresSlope (pts.map (fun p => ((p.1 : Rat) / 24, p.2))) with
  | none => s
  | some a => { s with loop := { s.loop with learnedA := satInt 16 (roundHalfAway (a * 256)) } }

/-- The bits of REF_CANDn that candidates from 4 on do not have: TYPE and WC_RATE, which read zero (R94). -/
def candTypeMask : Word := fldPut F.REF_CAND_TYPE 3 (fldPut F.REF_CAND_WC_RATE 3 0)

/-- What a write of the REF register at `a` brings about beside its fields: fields that this candidate does not have stay
zero (R94), the free-run steer starts the loop until it first leaves FREE_RUN without history (R83; DEDUCED, log entry
99), the selector runs again, and HOLD_EN = 0 ends a holdover (R76, R82). -/
def afterRefWrite (s : State) (a : Nat) : State :=
  let s := if Reg.REF_CAND 4 ≤ a ∧ a < Reg.REF_CAND 22 then wr s a (rd s a &&& ~~~candTypeMask) else s
  let s := if a = Reg.REF_FR_STEER ∧ s.loop.freeStart ∧ loopState s = stFreeRun ∧ !ron s Reg.REF_STAT F.REF_STAT_HIST_OK then
      setSteer s (clampSteer (rgetI s Reg.REF_FR_STEER F.REF_FR_STEER_S))
    else s
  let s := reselect (noteCands s)
  if loopState s = stHoldover ∧ !ron s Reg.REF_CTRL F.REF_CTRL_HOLD_EN then
    rput s Reg.REF_STAT F.REF_STAT_STATE stLost
  else s

/-! ## Commands -/

/-- XO_IN shows no edge for 1 µs (R62). -/
def execXoInLost (s : State) : Out :=
  onIsland s (fun s =>
    let s := { s with time := { s.time with xoLost := true } }
    raise (rclr (rclr (settleCredits s) Reg.TIME_STAT F.TIME_STAT_VALID) Reg.CLK_STAT F.CLK_STAT_XO_OK) 0x040 noInst 0)

/-- XO_IN edges return (R62). -/
def execXoInReturn (s : State) : Out :=
  onIsland s (fun s => rset { s with time := { s.time with xoLost := false } } Reg.CLK_STAT F.CLK_STAT_XO_OK)

/-- The main synthesizer loses or regains lock (R93). -/
def execMsynOutOfLock (locked : Bool) (s : State) : Out :=
  onIsland s (fun s =>
    let s := rbit s Reg.CLK_STAT F.CLK_STAT_MSYN_LOCK locked
    if locked then s else raise s 0x041 noInst 0)

/-- The time PLL loses or regains lock (R93). -/
def execTimePllOutOfLock (locked : Bool) (s : State) : Out :=
  onIsland s (fun s =>
    let s := rbit s Reg.CLK_STAT F.CLK_STAT_TIME_PLL_LOCK locked
    if locked then s else raise s 0x042 noInst 0)

/-- A candidate's loss condition holds (R73, R75); the activity of a biphase candidate is its receiver's LOCK, which the
receiver's own events move (R120). -/
def execRefActivityLost (c : Fin 22) (s : State) : Out :=
  onHost s (fun s => if 6 ≤ c.val then s else disqualify (rclr s (Reg.REF_CSTAT c) F.REF_CSTAT_ACTIVE) c)

/-- The first reference event after a loss (R73); a biphase candidate's is its receiver's LOCK (R120). -/
def execRefActivityRestored (c : Fin 22) (s : State) : Out :=
  onHost s (fun s => if 6 ≤ c.val then s else noteCands (rset s (Reg.REF_CSTAT c) F.REF_CSTAT_ACTIVE))

/-- A frequency gate ends with an offset in 0.1 ppm units (R74, R75); the estimates of NET and STACK come with their own
updates, so they have no gate. -/
def execRefFrequencyGate (c : Fin 22) (offset : Int) (s : State) : Out :=
  onHost s (fun s => if c.val = 4 ∨ c.val = 5 then s else frequencyGate s c offset)

/-- A candidate has stayed within ACCEPT for QUAL_TIME (R75). -/
def execRefQualified (c : Fin 22) (s : State) : Out :=
  onHost s (fun s => if stoodFor s s.loop.goodSince c (qualTicks s c) then qualify s c else s)

/-- A higher-priority candidate has stayed qualified for REVERT_WAIT (R76). -/
def execRevertWaitExpiry (c : Fin 22) (s : State) : Out :=
  onHost s (fun s =>
    let cur := selected s
    if ron s Reg.REF_CTRL F.REF_CTRL_EN && !ron s Reg.REF_CTRL F.REF_CTRL_MODE && ron s Reg.REF_CTRL F.REF_CTRL_REVERT
        && candEligible s c && cur != noCand
        && stoodFor s s.loop.qualSince c (tickRate * rget s Reg.REF_LIMITS F.REF_LIMITS_REVERT_WAIT)
        && decide (rget s (Reg.REF_CAND c) F.REF_CAND_PRIO > rget s (Reg.REF_CAND cur) F.REF_CAND_PRIO) then
      selectCandidate s c
    else s)

/-- A decimated event of the selected candidate: `phase` is the time the event should mark minus the time at the event,
in 2^-16 ns, and `rate` the update rate in mHz (R77). -/
def execLoopUpdate (phase : Int) (rate : Nat) (s : State) : Out := onHost s (fun s => loopStep s phase rate)

/-- A dwell of fast acquire ends, 5 / (current bandwidth) seconds after it began (R80): the bandwidth narrows one code, or
the dwell restarts. -/
def execFastAcquireDwellEnd (s : State) : Out :=
  onHost s (fun s =>
    if !s.loop.fast || loopState s != stAcquiring ||
        decide ((s.time.cnt - s.loop.dwellAt) * bandwidthMilli s.loop.bw < 5000 * tickRate) then s
    else if s.loop.dwellBad then { s with loop := { s.loop with dwellBad := false, dwellAt := s.time.cnt } }
    else
      let code := s.loop.bw - 1
      let own := min 18 (rget s (Reg.REF_CAND s.loop.cand) F.REF_CAND_BW)
      setBw { s with loop := { s.loop with dwellBad := false, goodRun := 0, fast := decide (code > own) } } code)

/-- Every 100 ms in HOLDOVER the steer follows R88. -/
def execHoldoverEvaluation (s : State) : Out :=
  onHost s (fun s => if loopState s = stHoldover then setSteer s (holdoverSteer s) else s)

/-- Every hour the learned ageing slope is refitted (R90). -/
def execAgeingRefit (s : State) : Out := onHost s refitAge

/-- Every 100 ms the selected temperature source is read, in 1/16 K; `diode` is none where XO_TEMP is open or shorted, which
is noticed whatever SRC selects (R89). -/
def execTemperatureReading (die : BitVec 16) (diode : Option (BitVec 16)) (s : State) : Out :=
  onHost s (fun s =>
    let was := ron s Reg.REF_TEMP F.REF_TEMP_XO_TEMP_BAD
    let inUse := if ron s Reg.REF_TEMP F.REF_TEMP_SRC then diode.getD die else die
    let s := { s with loop := { s.loop with temps := s.loop.temps ++
      (if loopState s = stLocked then [(rgetI s Reg.REF_TEMP F.REF_TEMP_THETA, s.time.cnt)] else []) } }
    let s := rput s Reg.REF_TEMP F.REF_TEMP_THETA inUse.toNat
    let s := rbit s Reg.REF_TEMP F.REF_TEMP_XO_TEMP_BAD diode.isNone
    if diode.isNone && !was then raise s 0x09C noInst 0 else s)

/-- A write of REF_PSTEP adds its signed amount to REF_POFS (R86). -/
def hostRefPstep (w : Word) (s : State) : State :=
  let x := fldGetInt F.REF_PSTEP_X w
  let p := max (-(2 ^ 31 - 1)) (min (2 ^ 31 - 1) (rgetI s Reg.REF_POFS F.REF_POFS_POFS + x))
  let s := rputI s Reg.REF_POFS F.REF_POFS_POFS p
  rset { s with loop := { s.loop with pstepBusy := true } } Reg.REF_STAT F.REF_STAT_PSTEP_BUSY

/-- The access itself, through the bus matrix. -/
def execRefPstep (w : Word) (s : State) : Out := onBar s Reg.REF_PSTEP (fun s => hostRefPstep w s)

/-- A host write of TIME_RATE (R66). -/
def hostTimeRateWrite (w : Word) (s : State) : State :=
  if ron s Reg.REF_CTRL F.REF_CTRL_TIME_FOLLOW then rset s Reg.TIME_STAT F.TIME_STAT_RATE_REFUSED
  else if w.toInt.natAbs > steerLimit.natAbs then
    raise (rset s Reg.TIME_STAT F.TIME_STAT_RATE_REFUSED) 0x0C2 noInst w.toNat
  else setRate s w.toInt

/-- The access itself, through the bus matrix. -/
def execTimeRateWrite (w : Word) (s : State) : Out := onBar s Reg.TIME_RATE (fun s => hostTimeRateWrite w s)

/-- A write of TIME_ADJ_GO (R69, R70). -/
def hostTimeAdjGo (w : Word) (s : State) : State :=
  if fldGet F.TIME_ADJ_GO_GO w = 0 ∨ ron s Reg.TIME_STAT F.TIME_STAT_ADJ_BUSY then s
  else if fldGet F.TIME_ADJ_GO_ABS w = 1 then
    let ns := rget s Reg.TIME_SETV_NS F.TIME_SETV_NS_NS
    if ns > 999999999 then raise (rset s Reg.TIME_STAT F.TIME_STAT_ARG_REFUSED) 0x0C3 noInst ns
    else
      let sec := rget s Reg.TIME_SETV_SEC_LO F.TIME_SETV_SEC_LO_SEC_LO
        + 2 ^ 32 * rget s Reg.TIME_SETV_SEC_HI F.TIME_SETV_SEC_HI_SEC_HI
      submitStep s ⟨.adj, true, mkTime sec ns, false, none⟩
  else
    submitStep s ⟨.adj, false, rgetI s Reg.TIME_ADJ_NS F.TIME_ADJ_NS_NS * 65536
      + rget s Reg.TIME_ADJ_FRAC F.TIME_ADJ_FRAC_FRAC, false, none⟩

/-- The access itself, through the bus matrix. -/
def execTimeAdjGo (w : Word) (s : State) : Out := onBar s Reg.TIME_ADJ_GO (fun s => hostTimeAdjGo w s)

/-- A write of TIME_CTRL, whose FORCE bit arms force (R68). -/
def hostForce (w : Word) (s : State) : State :=
  let s := rwrite s Reg.TIME_CTRL w
  if fldGet F.TIME_CTRL_FORCE w = 1 then { s with time := { s.time with forceAt := s.time.cnt } } else s

/-- The access itself, through the bus matrix. -/
def execForce (w : Word) (s : State) : Out := onBar s Reg.TIME_CTRL (fun s => hostForce w s)

/-- An armed FORCE clears itself after 1 s (R68). -/
def execForceExpiry (s : State) : Out :=
  onIsland s (fun s => if s.time.forceAt + tickRate ≤ s.time.cnt then rclr s Reg.TIME_CTRL F.TIME_CTRL_FORCE else s)

/-- The step unit serves the oldest request at a tick (R70). -/
def execTimeStepApply (s : State) : Out := onIsland s runStep

/-- A TIME_SET descriptor (R67, R69; Table 12-7). While another's request is pending the unit has no room for it: it
completes with BUSY_RETRY (R70, Table 12-10; DEDUCED, log entry 98). -/
def execTimeSet (d : DescRef) (s : State) : Out :=
  onDesc s d 0x50 (fun s bs =>
    let force := par bs 8 1 1 == 1
    if par bs 8 0 1 = 1 then
      let ns := par bs 24 0 30
      if ns > 999999999 then finish s d stInvalidParam 0
      else if stepPending s .timeSet then finish s d stBusyRetry 0
      else submitStep s ⟨.timeSet, true, mkTime (par bs 16 0 48) ns + par bs 32 0 16, force, some d⟩
    else if stepPending s .timeSet then finish s d stBusyRetry 0
    else submitStep s ⟨.timeSet, false, signed 64 (leAt bs 16 8) * 65536 + par bs 32 0 16, force, some d⟩)

/-- Reading TIME_NOW_FRAC latches the time fields of one tick (R65). -/
def hostTimeNowFracRead (s : State) : State :=
  let t := now s
  let s := rput s Reg.TIME_NOW_FRAC F.TIME_NOW_FRAC_FRAC (timeFrac t)
  let s := rput s Reg.TIME_NOW_NS F.TIME_NOW_NS_NS (timeNs t)
  let s := rput s Reg.TIME_NOW_SEC_LO F.TIME_NOW_SEC_LO_SEC_LO (timeSec t)
  rput s Reg.TIME_NOW_SEC_HI F.TIME_NOW_SEC_HI_SEC_HI (timeSec t / 2 ^ 32)

/-- The access itself, through the bus matrix. -/
def execTimeNowFracRead (s : State) : Out := onBar s Reg.TIME_NOW_FRAC (fun s => hostTimeNowFracRead s)

/-- Reading TIME_CNT_LO latches TIME_CNT_HI (R65). -/
def hostTimeCntLoRead (s : State) : State :=
  rput (rput s Reg.TIME_CNT_LO F.TIME_CNT_LO_CNT_LO s.time.cnt)
    Reg.TIME_CNT_HI F.TIME_CNT_HI_CNT_HI (s.time.cnt / 2 ^ 32)

/-- The access itself, through the bus matrix. -/
def execTimeCntLoRead (s : State) : Out := onBar s Reg.TIME_CNT_LO (fun s => hostTimeCntLoRead s)

/-- Reading TIME_BASE_CNT_LO latches the base count and the four offset fields (R65). -/
def hostTimeBaseCntLoRead (s : State) : State :=
  let t := s.time.ofs
  let s := rput s Reg.TIME_BASE_CNT_LO F.TIME_BASE_CNT_LO_BASE_LO s.time.base
  let s := rput s Reg.TIME_BASE_CNT_HI F.TIME_BASE_CNT_HI_BASE_HI (s.time.base / 2 ^ 32)
  let s := rput s Reg.TIME_OFS_FRAC F.TIME_OFS_FRAC_FRAC (timeFrac t)
  let s := rput s Reg.TIME_OFS_NS F.TIME_OFS_NS_NS (timeNs t)
  let s := rput s Reg.TIME_OFS_SEC_LO F.TIME_OFS_SEC_LO_SEC_LO (timeSec t)
  rput s Reg.TIME_OFS_SEC_HI F.TIME_OFS_SEC_HI_SEC_HI (timeSec t / 2 ^ 32)

/-- The access itself, through the bus matrix. -/
def execTimeBaseCntLoRead (s : State) : Out := onBar s Reg.TIME_BASE_CNT_LO (fun s => hostTimeBaseCntLoRead s)

/-- Whether PPS_OUT may pulse (R92): its ball is low until the supervisor runs (R559). -/
def ppsGate (s : State) : Bool :=
  s.boot.supervisor && ron s Reg.TIME_CTRL F.TIME_CTRL_PPS_EN && ron s Reg.TIME_STAT F.TIME_STAT_VALID &&
    (!ron s Reg.TIME_CTRL F.TIME_CTRL_PPS_GATE || loopState s == stLocked)

/-- The latest whole second k with T ≥ k s + OFS. -/
def ppsSecond (s : State) : Int := (now s - rgetI s Reg.TIME_PPS F.TIME_PPS_OFS * 65536) / secUnits

/-- The length of a pulse in ticks: WIDTH ms, 0 acting as 1 and above 999 as 999 (R92, R95). -/
def ppsTicks (s : State) : Nat := 393216 * min 999 (max 1 (rget s Reg.TIME_PPS_W F.TIME_PPS_W_WIDTH))

/-- Time reaches a whole second plus OFS: PPS_OUT rises at the first tick, once for each second, and not for a second that
a step passed (R92). -/
def execPpsPulse (s : State) : Out :=
  onIsland s (fun s =>
    let k := ppsSecond s
    let thr := k * secUnits + rgetI s Reg.TIME_PPS F.TIME_PPS_OFS * 65536
    let first := decide (timeAt s (s.time.cnt - 1) < thr)
    let fresh := match s.time.ppsLast with | none => true | some j => decide (j < k)
    if ppsGate s && first && fresh then
      { s with time := { s.time with ppsLast := some k, ppsHigh := true, ppsEnd := s.time.cnt + ppsTicks s } }
    else s)

/-- The pulse width expires (R92). -/
def execPpsPulseEnd (s : State) : Out :=
  onIsland s (fun s => if s.time.ppsEnd ≤ s.time.cnt then { s with time := { s.time with ppsHigh := false } } else s)

end Sys2Proof.Machine
end

