-- ==== Sys2Proof/Machine/Net.lean ====
section
/-! DEFINITION. The commands of the network ports and of the time servo (R283 to R304, R324). -/

namespace Sys2Proof.Machine
open Sys2Proof

/-! ## Line modes and links (R283, R284) -/

/-- A write of NET_CTRL writes MODE and FEC, which restarts the PCS and flushes the queues (R284); it is refused where the
new mode's line rate is too low for the port's CBS queues (R291). -/
def writeNetCtrl (s : State) (p : Nat) (w : Word) : State :=
  let s := updateCredits s p
  let t := rwrite s (Reg.NET_CTRL p) w
  if slopesExceed t p then rset s (Reg.NET_STAT p) F.NET_STAT_REFUSED
  else netFlushWith raise (rclr t (Reg.NET_STAT p) F.NET_STAT_AN_DONE) p

/-- A port whose MODE is not off (Table 08-1). -/
def netOn (s : State) (p : Nat) : Bool := rget s (Reg.NET_CTRL p) F.NET_CTRL_MODE != 0

/-- A write of NET_CTRL (R284). -/
def hostNetModeWrite (p : Fin 8) (w : Word) (s : State) : State :=
  writeNetCtrl s p w

/-- The access itself, through the bus matrix. -/
def execNetModeWrite (p : Fin 8) (w : Word) (s : State) : Out := onBar s (Reg.NET_CTRL p) (fun s => hostNetModeWrite p w s)

/-- The PCS has held synchronisation or block lock for 10 ms: LINK becomes 1 (R284); a fenced port does not retrain
(R285). -/
def execNetLinkUp (p : Fin 8) (s : State) : Out :=
  onHost s (fun s =>
    let mode := rget s (Reg.NET_CTRL p) F.NET_CTRL_MODE
    if mode = 0 ∨ netFenced s p ∨ netLink s p ∨ inReset s (unitNet p) then s
    else
      let s := rset (rset s (Reg.NET_STAT p) F.NET_STAT_LINK) (Reg.NET_STAT p) F.NET_STAT_LINK_CHG
      rbit s (Reg.NET_STAT p) F.NET_STAT_AN_DONE (mode == 1 && ron s (Reg.NET_CTRL p) F.NET_CTRL_AN_EN))

/-- The link condition has been absent; for DOWN_US, of which 0 acts as 1, takes the link down (R284, Table 08-10). -/
def execNetLinkDown (p : LinkGap) (s : State) : Out :=
  onHost s (fun s => if p.us < max 1 (rget s (Reg.NET_LINK p.port) F.NET_LINK_DOWN_US) then s else linkDown s p.port)

/-! ## PAUSE (R295, R296) -/

/-- A PAUSE frame of `quanta` arrives. -/
def takePause (s : State) (p quanta : Nat) : State :=
  let maxUs := rget s (Reg.NET_PAUSE p) F.NET_PAUSE_PAUSE_MAX
  let x := netAt s p
  let deaf := match x.deafSince with
    | none => false
    | some c => !ticksReach (s.time.cnt - c) maxUs
  if !ron s (Reg.NET_PAUSE p) F.NET_PAUSE_PAUSE_EN ∨ maxUs = 0 then s
  else if deaf then setNet s p { x with deafSince := some s.time.cnt }
  else if quanta = 0 then endPause (setNet s p { x with deafSince := none }) p
  else
    let s := rset s (Reg.NET_STAT p) F.NET_STAT_PAUSED
    let start := match x.pauseAt with
      | some c => c
      | none => s.time.cnt
    setNet s p { x with
      deafSince := none, pauseAt := some start, pauseQuanta := quanta, pauseFrom := if x.line.isSome then none else some s.time.cnt }

/-- The quanta have expired: transmission resumes (R295). -/
def execPauseExpiry (p : Fin 8) (s : State) : Out :=
  onHost s (fun s =>
    let x := netAt s p
    match x.pauseFrom with
    | none => s
    | some c =>
      if x.pauseQuanta * 512 * 393216000 ≤ (s.time.cnt - c) * lineRate s p then endPause (updateCredits s p) p else s)

/-- A pause has run longer than PAUSE_MAX (R296). -/
def execPauseWatchdog (p : Fin 8) (s : State) : Out :=
  onHost s (fun s =>
    match (netAt s p).pauseAt with
    | none => s
    | some c =>
      if ticksExceed (s.time.cnt - c) (rget s (Reg.NET_PAUSE p) F.NET_PAUSE_PAUSE_MAX) then
        let s := endPause s p
        let s := setNet s p { netAt s p with deafSince := some s.time.cnt }
        let s := radd (rset s (Reg.NET_STAT p) F.NET_STAT_WD_FIRED) (Reg.NET_WD_COUNT p) F.NET_WD_COUNT_COUNT 1
        raise s (0x302 + 8 * p) p (rd s (Reg.NET_WD_COUNT p)).toNat
      else s)

/-! ## Receiving (R286 to R288, R300) -/

/-- The destination is the station address, broadcast or an enabled multicast entry, or every frame is taken (Table 08-2). -/
def addressed (s : State) (p : Nat) (f : List Byte) : Bool :=
  let dst := leAt f 0 6
  ron s (Reg.NET_CTRL p) F.NET_CTRL_PROMISC || dst == stationMac s p ||
    (dst == 2 ^ 48 - 1 && ron s (Reg.NET_CTRL p) F.NET_CTRL_BCAST_EN) ||
    (List.range 64).any (fun m => ron s (Reg.NET_MC_HI p m) F.NET_MC_HI_EN &&
      rget s (Reg.NET_MC_LO p m) F.NET_MC_LO_ADDR_LO + 2 ^ 32 * rget s (Reg.NET_MC_HI p m) F.NET_MC_HI_ADDR_HI == dst)

/-- The frame meets VLAN_ACCEPT (Table 08-10). -/
def vlanAccepted (s : State) (p : Nat) (f : List Byte) : Bool :=
  let vlan := frTagged f && frTagVid f != 0
  match rget s (Reg.NET_CTRL p) F.NET_CTRL_VLAN_ACCEPT with
  | 1 => vlan
  | 2 => !vlan
  | _ => true

/-- Count a frame that nothing takes. -/
def filtered (s : State) (p : Nat) : State := radd s (Reg.NET_RX_FILTERED p) F.NET_RX_FILTERED_COUNT 1

/-- A frame for the host goes into the next buffer posted on NET_RXQ's queue pair (R288). -/
def hostFrame (s : State) (p : Nat) (f : List Byte) (tin : Int) : State :=
  let qp := rget s (Reg.NET_RXQ p) F.NET_RXQ_QP
  match s.posted.find? (fun d => d.qp.val == qp) with
  | none => radd s (Reg.NET_RX_NO_BUF p) F.NET_RX_NO_BUF_COUNT 1
  | some d =>
    let s := { s with posted := s.posted.filter (fun e => e != d) }
    match flightAt s d with
    | none => s
    | some fl =>
      let room := leAt fl.bytes 8 4 - 16
      let addr := leAt fl.bytes 16 8
      let n := min room f.length
      let s := hostWrite s addr (stampRecord tin (timeValid s) p false false f)
      let s := hostWrite s (addr + 16) (f.take n)
      finish s d stOk (n + 2 ^ 14 * b2n (decide (room < f.length)) + 2 ^ 16 * p)

/-- A frame that passed R286 is classified (R287); `tin` is its ingress stamp. -/
def classify (s : State) (p : Nat) (f : List Byte) (tin : Int) : State :=
  if beAt f 12 2 = 0x8808 then
    if beAt f 14 2 = 1 then takePause (radd s (Reg.NET_RX_PAUSE p) F.NET_RX_PAUSE_COUNT 1) p (beAt f 16 2)
    else filtered s p
  else if !addressed s p f || !vlanAccepted s p f then filtered s p
  else if isPtp f && ptpServed s then s
  else
    match matchStream s p f with
    | some m => takePacket s m.1 m.2 f tin
    | none => if ron s (Reg.NET_CTRL p) F.NET_CTRL_RX_HOST_EN then hostFrame s p f tin else filtered s p

/-- The codewords that a frame's arrival corrected and could not correct: a port has FEC in MODE 3 only, and FEC = 3 acts as
0 (Table 08-10). -/
def fecCounts (s : State) (p : Nat) (r : RxReport) : Nat × Nat :=
  let fec := rget s (Reg.NET_CTRL p) F.NET_CTRL_FEC
  if rget s (Reg.NET_CTRL p) F.NET_CTRL_MODE = 3 ∧ (fec = 1 ∨ fec = 2) then (r.fecCorrected, r.fecBad) else (0, 0)

/-- A frame arrives at a port; the command stands at the instant its stamp marks (R286, R300; log entry 23). -/
def execFrameReceive (p : Fin 8) (r : RxReport) (s : State) : Out :=
  onHost s (fun s =>
    if !netOn s p || !netLink s p || netFenced s p then s
    else
      let (corrected, bad) := fecCounts s p r
      let s := radd s (Reg.NET_FEC_CORR p) F.NET_FEC_CORR_COUNT corrected
      let s := radd s (Reg.NET_FEC_UNCORR p) F.NET_FEC_UNCORR_COUNT bad
      let s := radd s (Reg.NET_RX_FCS p) F.NET_RX_FCS_COUNT (b2n (!r.fcsOk))
      let s := countErrors s p (bad + b2n (!r.fcsOk))
        (rd s (if r.fcsOk then Reg.NET_FEC_UNCORR p else Reg.NET_RX_FCS p)).toNat
      if !r.fcsOk then s
      else if r.bytes.length + 4 < 64 ∨ maxFrame s p < r.bytes.length + 4 then
        radd s (Reg.NET_RX_LEN p) F.NET_RX_LEN_COUNT 1
      else if r.bufferBad then raise s (0x305 + 8 * p) p 0
      else
        let s := rput s (Reg.NET_RX_OK p) F.NET_RX_OK_COUNT (rget s (Reg.NET_RX_OK p) F.NET_RX_OK_COUNT + 1)
        classify s p r.bytes (now s - rgetI s (Reg.NET_TSCORR p) F.NET_TSCORR_RX * 65536))

/-! ## Transmitting (R290 to R293, R299 to R302) -/

/-- Where a PTP message starts in a frame. -/
def ptpAt (f : List Byte) : Nat := if frType f = 0x88F7 then frBody f else l4At f + 8

/-- A frame marked for one-step stamping as it leaves at `t` (R302). -/
def oneStepFrame (f : List Byte) (ingress t : Int) : List Byte :=
  let a := ptpAt f
  let corr := beAt f (a + 8) 8
  let g := if bitsOf (beAt f a 1) 0 4 = 0 then
      bytesPut (bytesPut f (a + 34) (toBytesBE 6 (timeSec t) ++ toBytesBE 4 (timeNs t)))
        (a + 8) (toBytesBE 8 (corr + timeFrac t))
    else if bitsOf (beAt f a 1) 0 4 = 3 then bytesPut f (a + 8) (toBytesBE 8 (wrapTo 64 (corr + (t - ingress))))
    else f
  if isUdp g then bytesPut g (l4At g + 6) [0, 0] else g

/-- The egress time of the frame that starts now. -/
def egressTime (s : State) (p : Nat) : Int := now s - rgetI s (Reg.NET_TSCORR p) F.NET_TSCORR_TX * 65536

/-- A frame whose buffer failed is discarded as it would start (Table 08-8; the status of a NET_TX so lost is log
entry 24). -/
def dropBadFrame (s : State) (p : Nat) (f : TxFrame) : State :=
  let s := raise s (0x305 + 8 * p) p 0
  match f.owner with
  | .stream t _ => strTxDrop s t
  | .host d seg _ => endNetTx s p d stNotReady seg
  | .unowned => s

/-- Start the head frame of queue `q`: padded to 60 bytes, changed where it is marked for one-step stamping. -/
def startFrame (s : State) (p q : Nat) (bufferBad : Bool) : State :=
  match netQueue s p q with
  | [] => s
  | f :: rest =>
    let s := setQueue s p q rest
    if bufferBad then dropBadFrame s p f
    else
      let t := egressTime s p
      let bytes := match f.oneStep with
        | none => f.bytes
        | some i => oneStepFrame f.bytes i t
      let s := sendOut s (.netFrame p (bytes ++ List.replicate (60 - bytes.length) 0))
      setNet s p { netAt s p with line := some (q, { f with bytes := bytes }), lineAt := t, lineValid := timeValid s }

/-- The port may start a frame: it is on, its link is up, it is neither fenced nor paused, and it is idle. -/
def portFree (s : State) (p : Nat) : Bool :=
  netOn s p && netLink s p && !netFenced s p && !ron s (Reg.NET_STAT p) F.NET_STAT_PAUSED && (netAt s p).line.isNone

/-- A frame of the time servo is one it may send: of the profile's transport and delay mechanism, of the domain and the data-set values that NET_PTP_CTRL and
NET_PTP_CFG give it, a Delay_Resp giving the minimum delay request interval, and marked for one-step stamping only with ONE_STEP (R302, R303). Where a PTP message holds its domain,
its interval, its priorities and its class is IEEE 1588's (PRESUMED, log entry 111). -/
def servoFrameOk (s : State) (v : ServoFrame) : Bool :=
  let f := v.bytes
  let a := ptpAt f
  let kind := bitsOf (beAt f a 1) 0 4
  let layer2 := rget s Reg.NET_PTP_CTRL F.NET_PTP_CTRL_PROFILE == 1 || !ron s Reg.NET_PTP_CTRL F.NET_PTP_CTRL_UDP
  let cfg (r : Nat) (x : Fld) : Nat := rget s r x
  isPtp f && (frType f == 0x88F7) == layer2 &&
    beAt f (a + 4) 1 == cfg Reg.NET_PTP_CTRL F.NET_PTP_CTRL_DOMAIN &&
    (v.oneStep.isNone || ron s Reg.NET_PTP_CTRL F.NET_PTP_CTRL_ONE_STEP) &&
    !(if rget s Reg.NET_PTP_CTRL F.NET_PTP_CTRL_PROFILE = 1 then [1, 9] else [2, 3, 10]).contains kind &&
    (kind != 9 || beAt f (a + 33) 1 == cfg Reg.NET_PTP_CFG F.NET_PTP_CFG_LOG_DREQ) &&
    (kind != 0 || beAt f (a + 33) 1 == cfg Reg.NET_PTP_CFG F.NET_PTP_CFG_LOG_SYNC) &&
    (kind != 11 || (beAt f (a + 33) 1 == cfg Reg.NET_PTP_CFG F.NET_PTP_CFG_LOG_ANN &&
      (ron s Reg.NET_PTP_SLV F.NET_PTP_SLV_SLAVE ||
        (beAt f (a + 47) 1 == cfg Reg.NET_PTP_CTRL F.NET_PTP_CTRL_PRIO1 && beAt f (a + 48) 1 == cfg Reg.NET_PTP_CFG F.NET_PTP_CFG_CLASS
          && beAt f (a + 52) 1 == cfg Reg.NET_PTP_CTRL F.NET_PTP_CTRL_PRIO2))))

/-- An idle port starts the head frame of the highest eligible queue (R290); a frame of the time servo enters its queue
first. -/
def execFrameTransmit (p : Fin 8) (servo : Option ServoFrame) (bufferBad : Bool) (s : State) : Out :=
  onHost s (fun s =>
    let s := match servo with
      | none => s
      | some v =>
        if ptpServed s && netLink s p && ron s (Reg.NET_PTP_PORT p) F.NET_PTP_PORT_EN && servoFrameOk s v then
          enqueueOrDrop s p v.queue ⟨v.bytes, none, .unowned, false, v.oneStep⟩
        else s
    let s := updateCredits s p
    if !portFree s p then s
    else match eligibleQueue s p with
    | none => s
    | some q => startFrame s p q bufferBad)

/-- The egress record of a NET_TX goes to TS_ADDR; past 64 stamps not yet delivered it is lost (R301). -/
def egressRecord (s : State) (p : Nat) (d : DescRef) (f : TxFrame) : State :=
  match flightAt s d with
  | none => s
  | some fl =>
    let lost := decide (64 ≤ stampsHeld s p)
    let kept := (netAt s p).lostStamps.filter (fun e => e != d && (flightAt s e).isSome)
    let s := setNet s p { netAt s p with lostStamps := if lost then d :: kept else kept }
    let s := hostWrite s (leAt fl.bytes 40 8)
      (stampRecord (netAt s p).lineAt (!lost && (netAt s p).lineValid) p true false f.bytes)
    if lost then raise s (0x304 + 8 * p) p 0 else s

/-- A frame has left the line (R299, R301, R320). -/
def execTransmitComplete (p : Fin 8) (s : State) : Out :=
  onHost s (fun s =>
    match (netAt s p).line with
    | none => s
    | some l =>
      let f := l.2
      let s := updateCredits s p
      let x := netAt s p
      let s := setNet s p { x with line := none, pauseFrom := if x.pauseAt.isSome && x.pauseFrom.isNone then some s.time.cnt else x.pauseFrom }
      let s := rput s (Reg.NET_TX_OK p) F.NET_TX_OK_COUNT (rget s (Reg.NET_TX_OK p) F.NET_TX_OK_COUNT + 1)
      match f.owner with
      | .stream t b => paddWrap s (if b then P.STR_TX_SENT_B else P.STR_TX_SENT_A) t 1
      | .host d seg total =>
        if seg + 1 = total then finish (if f.stamp then egressRecord s p d f else s) d stOk total else s
      | .unowned => s)

/-- A head frame still waiting at L + LATE_MAX is discarded (R293). -/
def execLaunchLateDiscard (p : Fin 8) (q : Fin 8) (s : State) : Out :=
  onHost s (fun s =>
    let late := rget s (Reg.NET_LT p) F.NET_LT_LATE_MAX
    match netQueue s p q with
    | [] => s
    | f :: rest =>
      match f.launch with
      | none => s
      | some l =>
        if late = 0 ∨ !timeValid s ∨ now s < l + late * 65536000 then s
        else
          let s := setQueue (updateCredits s p) p q rest
          let s := radd s (Reg.NET_TX_LATE_DROP p) F.NET_TX_LATE_DROP_COUNT 1
          let s := raise s (0x303 + 8 * p) p (rd s (Reg.NET_TX_LATE_DROP p)).toNat
          match f.owner with
          | .stream t _ => strTxDrop (paddSat s P.STR_TX_LATE_DROP t 1) t
          | .host d seg _ => endNetTx s p d stTimeout seg
          | .unowned => s)

/-! ## Host sends (R297 to R299) -/

/-- The length of the Ethernet, IPv4 and TCP or UDP headers of a frame, where it has them. -/
def headerLength (f : List Byte) : Option Nat :=
  if !isIp f then none
  else if ipProto f = 17 then some (l4At f + 8)
  else if ipProto f = 6 then some (l4At f + bitsOf (beAt f (l4At f + 12) 1) 4 4 * 4)
  else none

/-- Segment `i` of `n` of a frame with header length `hl` and segment size `mss` (R298). -/
def segment (f : List Byte) (hl mss i n : Nat) : List Byte :=
  let piece := (f.drop (hl + i * mss)).take mss
  let h := f.take hl
  let b := frBody h
  let l := l4At h
  let udp := ipProto h == 17
  let h := bytesPut h (b + 2) (toBytesBE 2 (hl - b + piece.length))
  let h := bytesPut h (b + 4) (toBytesBE 2 (beAt f (b + 4) 2 + i))
  let h := if udp then bytesPut h (l + 4) (toBytesBE 2 (8 + piece.length))
    else
      let flags := beAt f (l + 13) 1
      let flags := if i + 1 = n then flags else flags &&& 0xF6
      let flags := if i = 0 then flags else flags &&& 0x7F
      bytesPut (bytesPut h (l + 4) (toBytesBE 4 (beAt f (l + 4) 4 + i * mss))) (l + 13) (toBytesBE 1 flags)
  putL4Sum (putIpSum (h ++ piece))

/-- The segments a NET_TX asks for satisfy R298. -/
def segmentsOk (s : State) (p hl mss : Nat) (f : List Byte) : Bool :=
  headerLength f == some hl && decide (hl < f.length) && decide (f.length - hl ≤ 262144) && decide (64 ≤ mss) &&
    decide (mss ≤ 9000) && decide (hl + min mss (f.length - hl) + 4 ≤ maxFrame s p)

/-- Queue a NET_TX's frames. A full queue ends it with BUSY_RETRY: where a segment is queued already, those queued are
still sent, and no descriptor waits for them (R289, R299; log entry 25). -/
def queueHost (s : State) (d : DescRef) (p q : Nat) (launch : Option Int) (stamp : Bool) (fs : List (List Byte)) : State :=
  let n := fs.length
  let room := queueRoom s p q
  let owner (i : Nat) : TxOwner := if n ≤ room then .host d i n else .unowned
  let s := forEach ((List.range n).zip (fs.take room)) s (fun s e =>
    enqueue s p q ⟨e.2, if e.1 = 0 then launch else none, owner e.1, stamp && e.1 + 1 == n, none⟩)
  if n ≤ room then s else finish s d stBusyRetry 0

/-- A NET_TX descriptor (R297 to R299); `data` is what its ADDR reads as. -/
def execNetTx (d : DescRef) (data : Option (List Byte)) (s : State) : Out :=
  onDesc s d 0x48 (fun s bs =>
    let p := par bs 8 0 3
    let flag (i : Nat) : Bool := par bs 8 i 1 == 1
    let launch : Option Int := if flag 6 then some (mkTime (par bs 24 0 48) (par bs 32 0 30)) else none
    let late := match launch with
      | none => false
      | some l => decide (l > now s + secUnits)
    withInput s d (leAt bs 16 8) (leAt bs 12 4) data (fun s f =>
      let hl := leAt bs 36 1
      let mss := leAt bs 38 2
      if late || (flag 6 && decide (999999999 < par bs 32 0 30)) || (isPtp f && ptpServed s) ||
          (if flag 10 then !segmentsOk s p hl mss f else decide (maxFrame s p < f.length + 4)) then
        finish s d stInvalidParam 0
      else if netFenced s p then finish s d stTargetFenced 0
      else if !netLink s p then finish s d stNotReady 0
      else
        let f := if flag 8 then putIpSum f else f
        let f := if flag 9 then putL4Sum f else f
        let n := (f.length - hl + mss - 1) / mss
        queueHost s d p (par bs 8 3 3) launch (flag 7)
          (if flag 10 then (List.range n).map (fun i => segment f hl mss i n) else [f])))

/-- A NET_RX_POST descriptor (R288); it finds its target fenced where every port that delivers to its queue pair is
(log entry 26). -/
def execNetRxPost (d : DescRef) (s : State) : Out :=
  onDesc s d 0x49 (fun s _ =>
    let ports := (List.range 8).filter (fun p => rget s (Reg.NET_RXQ p) F.NET_RXQ_QP == d.qp.val)
    if !ports.isEmpty && ports.all (netFenced s) then finish s d stTargetFenced 0
    else { s with posted := s.posted ++ [d] })

/-- A write of NET_CNT_CLR (Table 08-10). -/
def hostNetCntClr (p : Fin 8) (w : Word) (s : State) : State :=
  if fldGet F.NET_CNT_CLR_GO w = 1 then resetRange s (Reg.NET_RX_OK p) (Reg.NET_CNT_CLR p) else s

/-- The access itself, through the bus matrix. -/
def execNetCntClr (p : Fin 8) (w : Word) (s : State) : Out := onBar s (Reg.NET_CNT_CLR p) (fun s => hostNetCntClr p w s)

/-! ## The time servo (R303) -/

/-- Whether the servo may report a state of a port (R303, Table 08-10): only 0 where PTP or the port does not take part,
never master with SLAVE_ONLY, never slave with MASTER_ONLY. -/
def ptpStateOk (s : State) (p st : Nat) : Bool :=
  if !ron s (Reg.NET_PTP_PORT p) F.NET_PTP_PORT_EN then st == 0
  else !(st == 2 && ron s Reg.NET_PTP_CTRL F.NET_PTP_CTRL_SLAVE_ONLY)
    && !(st == 3 && ron s (Reg.NET_PTP_PORT p) F.NET_PTP_PORT_MASTER_ONLY)

/-- A write of NET_PTP_PORT or NET_PTP_CTRL: a port that no longer takes part is disabled, one that may no longer be what it
is listens (DESIGN CHOICE, log entry 160), and without its slave port the servo stops and the NET candidate is lost (R303,
Tables 02-2 and 08-10). -/
def afterPtpWrite (s : State) : State :=
  let off (p : Nat) : Bool := !ptpServed s || !ron s (Reg.NET_PTP_PORT p) F.NET_PTP_PORT_EN
  let state (p : Nat) : Nat := rget s (Reg.NET_PTP_PORT p) F.NET_PTP_PORT_STATE
  let next (p : Nat) : Nat := if off p then 0 else if ptpStateOk s p (state p) then state p else 1
  let stops := ron s Reg.NET_PTP_SLV F.NET_PTP_SLV_SLAVE && next (rget s Reg.NET_PTP_SLV F.NET_PTP_SLV_PORT) != 3
  let s := forEach ((List.range 8).map (fun p => (p, next p))) s (fun s e => rput s (Reg.NET_PTP_PORT e.1) F.NET_PTP_PORT_STATE e.2)
  if stops then disqualify (rclr (wr s Reg.NET_PTP_SLV 0) (Reg.REF_CSTAT 4) F.REF_CSTAT_ACTIVE) 4 else s

/-- The state that a report gives a port. -/
def reportedState (u : ServoReport) (p : Nat) : Nat := match u.states[p]? with | some st => st.val | none => 0

/-- An update of the supervisor's servo: the registers it reports in; with a slave port its estimates are those of the NET
candidate, which may ask for a step (R67, R68, R74, R75, R303). The slave port's asymmetry is added to the estimate
(PRESUMED, log entry 103). -/
def execServoUpdate (u : ServoReport) (s : State) : Out :=
  onHost s (fun s =>
    if !ptpServed s || s.boot.restarting || !(List.range 8).all (fun p => ptpStateOk s p (reportedState u p)) then s
    else
      let s := rput s Reg.NET_PTP_GM_LO F.NET_PTP_GM_LO_GM_LO u.grandmaster
      let s := rput s Reg.NET_PTP_GM_HI F.NET_PTP_GM_HI_GM_HI (u.grandmaster / 2 ^ 32)
      let s := forEach (List.range 8) s (fun s p =>
        let s := rput s (Reg.NET_PTP_PORT p) F.NET_PTP_PORT_STATE (reportedState u p)
        rput s (Reg.NET_PTP_PDLY p) F.NET_PTP_PDLY_DELAY (u.delays.getD p 0))
      match (List.range 8).find? (fun p => reportedState u p == 3) with
      | none => wr s Reg.NET_PTP_SLV 0
      | some p =>
        let s := rset (rput s Reg.NET_PTP_SLV F.NET_PTP_SLV_PORT p) Reg.NET_PTP_SLV F.NET_PTP_SLV_SLAVE
        let est := u.offset + rgetI s (Reg.NET_PTP_ASYM p) F.NET_PTP_ASYM_ASYM * 65536
        let s := rputI s Reg.NET_PTP_OFS F.NET_PTP_OFS_OFS (Int.tdiv est 65536)
        let s := rset s (Reg.REF_CSTAT 4) F.REF_CSTAT_ACTIVE
        absoluteEstimate (frequencyGate s 4 u.frequency) .servo 4 est)

end Sys2Proof.Machine
end

