-- ==== Sys2Proof/Machine/Delay.lean ====
section
/-! DEFINITION. The delay engine: its lines, taps, interpolation and poisoned reads (R228 to R237). -/

namespace Sys2Proof.Machine
open Sys2Proof

/-! ## Taps -/

/-- A tap that has not run. -/
def tapReset (_ : Nat) : TapRun := ⟨0, 0, none⟩

/-- Tap `t`. -/
def tapAt (s : State) (t : Nat) : TapRun := mapGet tapReset s.taps t

/-- Replace tap `t`. -/
def setTap (s : State) (t : Nat) (x : TapRun) : State := { s with taps := mapSet tapReset s.taps t x }

/-- DELAY of a tap in 2^-16 sample (R230). -/
def tapDelay (s : State) (t : Nat) : Nat := pget s P.DLY_TAP_DELAY_LO t + 2 ^ 32 * pget s P.DLY_TAP_DELAY_HI t

/-- One sample's delays before it is computed (R233, R234): a crossfade goes on; else the delay glides or jumps toward
its target. The crossfade holds the old delay, the sample's place in it and its length. -/
def tapStep (glide xfade target : Nat) (x : TapRun) : TapRun :=
  let free (x : TapRun) : TapRun :=
    if x.delay = target then { x with target := target }
    else if glide ≠ 0 then
      ⟨if x.delay < target then min target (x.delay + glide) else max target (x.delay - glide), target, none⟩
    else if xfade = 0 then ⟨target, target, none⟩
    else ⟨target, target, some (x.delay, 0, xfade)⟩
  match x.fade with
  | none => free x
  | some (old, i, n) => if i + 1 < n then { x with fade := some (old, i + 1, n) } else free { x with fade := none }

/-! ## Lines (R228) -/

/-- The ring position at which a line's next sample goes. -/
def linePos (s : State) (c : Nat) : Nat := mapGet (fun _ => 0) s.lines c

/-- Bytes more that the engine has read from or written to DRAM in this period. How they are counted is this model's
choice: the samples a line takes, and whole 64-byte lines otherwise (DESIGN CHOICE, log entry 106). -/
def moveBytes (s : State) (n : Nat) : State := radd s Reg.DLY_BW F.WORD n

/-- Append the channel's bead to its line, fill values included. -/
def appendLine (s : State) (c : Nat) : State :=
  forEach (busBead s 12 c) (noteDram (noteBead s 12 c) 12 (lineWord s c (linePos s c))) (fun s w =>
    let p := linePos s c
    let s := if dramError s 12 (lineWord s c p) = 0 then drStore s (lineWord s c p) w else s
    moveBytes { s with lines := mapSet (fun _ => 0) s.lines c ((p + 1) % lineLen s c) } 4)

/-! ## Interpolation (R231, R232) -/

/-- The Q1.31 words of 1/3 and 1/6. -/
def third : Int := 0x2AAAAAAB
def sixth : Int := 0x15555555

/-- A sample times a constant, in 2^-40, rounded half up. -/
def timesConst (x c : Int) : Int := (x * c + 2 ^ 21) / 2 ^ 22

/-- The fraction (2^-16) times a value in 2^-40, rounded half up. -/
def timesFrac (f : Nat) (c : Int) : Int := ((f : Int) * c + 2 ^ 15) / 2 ^ 16

/-- The interpolated sample. -/
def interpolate (f : Nat) (p q0 q1 q2 : Int) : Int :=
  let c0 := q0 * 2 ^ 9
  let c1 := q1 * 2 ^ 9 - timesConst p third - q0 * 2 ^ 8 - timesConst q2 sixth
  let c2 := (p + q1) * 2 ^ 8 - q0 * 2 ^ 9
  let c3 := timesConst (q2 - p) sixth + (q0 - q1) * 2 ^ 8
  let y := c0 + timesFrac f (c1 + timesFrac f (c2 + timesFrac f c3))
  satInt 32 ((y + 2 ^ 8) / 2 ^ 9)

/-- The DRAM word of the sample `back` samples before the line's sample at ring place `m`. -/
def tapWord (s : State) (c m back : Nat) : Nat :=
  let n := lineLen s c
  lineWord s c ((m + (back / n + 1) * n - back) % n)

/-- The DRAM words that one read at a delay uses (R231, R232). -/
def tapWords (s : State) (c m delay : Nat) : List Nat :=
  let i := delay / 2 ^ 20
  [tapWord s c m (i - 1), tapWord s c m i, tapWord s c m (i + 1), tapWord s c m (i + 2)]

/-- The sample that one read at a delay gives. -/
def tapRead (s : State) (c m delay : Nat) : Int :=
  let i := delay / 2 ^ 20
  let x (back : Nat) : Int := (drGet s (tapWord s c m back)).toInt
  let p := if i = 0 then satInt 32 (2 * x 0 - x 1) else x (i - 1)
  interpolate (delay / 16 % 2 ^ 16) p (x i) (x (i + 1)) (x (i + 2))

/-- The delays a tap reads at for one sample. -/
def tapDelays (x : TapRun) : List Nat :=
  match x.fade with
  | none => [x.delay]
  | some (old, _, _) => [x.delay, old]

/-- One output sample of a tap. -/
def tapSample (s : State) (c m : Nat) (x : TapRun) : Word :=
  let new := BitVec.ofInt 32 (tapRead s c m x.delay)
  match x.fade with
  | none => new
  | some (old, i, n) =>
    satWord ((weighted new (rampWeight i n)).toInt +
      (weighted (BitVec.ofInt 32 (tapRead s c m old)) (fadeWeight i n)).toInt)

/-- A tap's delays over a block: its state before each sample is computed, and after the block. -/
def tapSteps (glide xfade target : Nat) : Nat → TapRun → List TapRun × TapRun
  | 0, x => ([], x)
  | n + 1, x =>
    let y := tapStep glide xfade target x
    let (ys, z) := tapSteps glide xfade target n y
    (y :: ys, z)

/-- Zero the 64-byte line of DRAM that holds a word, and its poison (R236). -/
def zeroLine64 (s : State) (a : Nat) : State :=
  forEach ((List.range 16).map (16 * (a / 16) + ·)) s (fun s w => drStore s w 0)

/-- A 64-byte line that tap `t` read holds poison (R236): counted, raised and zeroed. -/
def poisonedLine (s : State) (t line : Nat) : State :=
  let s := rset (radd s Reg.DLY_POISON_CNT F.DLY_POISON_CNT_COUNT 1) Reg.DLY_STAT F.DLY_STAT_POISON
  zeroLine64 (moveBytes (raise s 0x241 t 0) 64) (16 * line)

/-- Poisoned reads of a tap (R236): its bead is missing and the lines are zeroed. -/
def tapPoisoned (s : State) (t : Nat) (bad : List Nat) : State :=
  let s := fabMissing s clDelay t (pget s P.DLY_TAP_OUT t)
  let s := rput s Reg.DLY_ERR_TAP F.DLY_ERR_TAP_TAP t
  forEach (distinct (bad.map (· / 16))) s (fun s l => poisonedLine s t l)

/-- A tap bead still unwritten at the boundary (R237). -/
def tapLate (s : State) (t : Nat) : State :=
  let s := rput (rset s Reg.DLY_STAT F.DLY_STAT_LATE) Reg.DLY_ERR_TAP F.DLY_ERR_TAP_TAP t
  raise s 0x240 t 0

/-- One enabled tap's period. -/
def runTap (s : State) (t : Nat) : State :=
  let c := pget s P.DLY_TAP_IN t
  let n := blk s
  let (xs, x) := tapSteps (pget s P.DLY_TAP_GLIDE t) (pget s P.DLY_TAP_XFADE t) (16 * tapDelay s t) n (tapAt s t)
  let len := lineLen s c
  let m (j : Nat) : Nat := (linePos s c + len - n + j) % len
  let ms := (List.range n).map m
  let used := (List.zipWith (fun m x => ((tapDelays x).map (tapWords s c m)).flatten) ms xs).flatten
  let bad := used.filter (fun a => mapGet (fun _ => false) s.poison (dramPoisonKey a))
  let s := moveBytes (setTap s t x) (64 * (distinct (used.map (· / 16))).length)
  match used.find? (fun a => dramError s 12 a != 0) with
  | some a => tapLate (noteDram s 12 a) t
  | none =>
  if bad.isEmpty then
    let out := pget s P.DLY_TAP_OUT t
    let s' := fabWriteBead s clDelay t out (List.zipWith (tapSample s c) ms xs)
    if fabRefuses s 12 out then tapLate s' t else s'
  else tapPoisoned s t bad

/-- The delay engine runs: enabled, not fenced and not held in reset (R237, Table 06-8). -/
def delayRuns (s : State) : Bool :=
  running s && ron s Reg.DLY_CTRL F.DLY_CTRL_EN && !ron s Reg.DLY_STAT F.DLY_STAT_FENCED && !inReset s unitDelay

/-- The delay engine's whole period, ended at the boundary. -/
def delayPeriod (s : State) : State :=
  let taps := enabledEntries s P.DLY_TAP_EN
  let s := wr s Reg.DLY_BW 0
  if delayRuns s then forEach taps (forEach (enabledEntries s P.DLY_LINE_EN) s appendLine) runTap
  else if running s then forEach taps s tapLate
  else s

/-! ## Settings -/

/-- The bytes of DRAM an enabled line takes: first and past the last (R228). -/
def lineSpan (s : State) (c : Nat) : Nat × Nat := (4 * lineWord s c 0, 4 * (lineWord s c 0 + lineLen s c))

/-- The enabled lines and taps satisfy R228 to R230. -/
def delayOk (s : State) : Bool :=
  let lines := enabledEntries s P.DLY_LINE_EN
  let spans := lines.map (lineSpan s)
  lines.all (fun c => lineLen s c % 16 == 0 && decide (64 ≤ lineLen s c) && decide (lineLen s c ≤ 524288) &&
      decide ((lineSpan s c).2 ≤ dramBytes)) &&
    decide (spans.Pairwise (fun a b => a.2 ≤ b.1 ∨ b.2 ≤ a.1)) &&
    (enabledEntries s P.DLY_TAP_EN).all (fun t =>
      let c := pget s P.DLY_TAP_IN t
      owns s clDelay t (pget s P.DLY_TAP_OUT t) && pon s P.DLY_LINE_EN c &&
        decide (tapDelay s t / 65536 + blk s + 3 ≤ lineLen s c))

/-- What a tally's write of a DLY_LINE entry brings about (R235). -/
def lineChanged (s0 s : State) (c : Nat) : State :=
  if !pon s P.DLY_LINE_EN c then { s with lines := mapErase s.lines c }
  else if !pon s0 P.DLY_LINE_EN c || pget s0 P.DLY_LINE_BASE c != pget s P.DLY_LINE_BASE c || lineLen s0 c != lineLen s c
  then clearLine s c
  else s

/-- What a tally's write of a DLY_TAP entry brings about: an enabled tap starts at its delay; one that runs goes on
toward its target (R233, R234). -/
def tapChanged (s0 s : State) (t : Nat) : State :=
  if !pon s P.DLY_TAP_EN t then { s with taps := mapErase s.taps t }
  else if !pon s0 P.DLY_TAP_EN t then setTap s t ⟨16 * tapDelay s t, 16 * tapDelay s t, none⟩
  else s

/-- The counts of Table 06-8 (R245). -/
def countDelay (s : State) : State :=
  let lines := enabledEntries s P.DLY_LINE_EN
  let s := rput s Reg.DLY_LINES F.DLY_LINES_COUNT lines.length
  let s := rput s Reg.DLY_ALLOC F.DLY_ALLOC_LINES64 (lines.foldl (fun n c => n + lineLen s c / 16) 0)
  rput s Reg.DLY_TAPS F.DLY_TAPS_COUNT (enabledEntries s P.DLY_TAP_EN).length

end Sys2Proof.Machine
end

