-- ==== Sys2Proof/Machine/Direct.lean ====
section
/-! DEFINITION. The direct routes: settings, engagement, and each sample's way to the barrier link engine (R222 to R227). -/

namespace Sys2Proof.Machine
open Sys2Proof

/-- ENG of a route; 3 acts as 2. -/
def routeEng (s : State) (r : Nat) : Nat := min 2 (pget s P.MIX_DR_ENG r)

/-- A route's ENG condition (R224), with its bit of MIX_DR_ENGAGE for ENG = 2. -/
def engCondition (s : State) (r : Nat) : Bool :=
  match routeEng s r with
  | 0 => true
  | 1 => (routeAt s r).vox
  | _ => ron s (if r < 32 then Reg.MIX_DR_ENGAGE_LO else Reg.MIX_DR_ENGAGE_HI) ⟨r % 32, 1⟩

/-- Whether a route may engage: enabled, its unit running, not fenced, its port RUNNING (R224, R244). -/
def mayEngage (s : State) (r : Nat) : Bool :=
  ron s Reg.MIX_CTRL F.MIX_CTRL_DR_EN && pon s P.MIX_DR_EN r && !(routeAt s r).fenced &&
    !inReset s (unitRoute r) && ptState s (routePort s r) == ptRunning

/-- Re-evaluate a route's engagement. -/
def evalRoute (s : State) (r : Nat) : State :=
  let want := mayEngage s r && engCondition s r
  if want == routeEngaged s r then s else setEngaged s r want

/-- One sample through a route: gain, limiter, meter and hand-over (R223). -/
def routeSample (s : State) (r : Nat) (w : Word) : State :=
  let x := routeAt s r
  let x := if w.toInt.natAbs ≥ pget s P.MIX_DR_VOX_THR r then { x with vox := true, loudAt := s.time.cnt } else x
  let g := rampStep x.gain
  let v := timesGain w.toInt (rampNow g)
  let (e, y, _) := limiter (limThr (pget s P.MIX_DR_LIM_THR r)) (pget s P.MIX_DR_LIM_KNEE r) (pget s P.MIX_DR_LIM_REL r)
    x.env v
  let s := setRoute s r { x with gain := g, env := e, out := satWord y }
  let m := meterAt s (1280 + r)
  let s := setMeter s (1280 + r) { m with msLive := meanStep (rmsShift s) m.msLive y, live := max m.live y.natAbs }
  evalRoute s r

/-! ## Settings (R222) -/

/-- The variant has the field channel's die (R3). -/
def fchPresent (s : State) (fch : Nat) : Bool := diePresent s (if fch < 32 then .a else .b)

/-- A route's entry satisfies R222; an entry that is not enabled is not checked for what enabling needs. -/
def routeOk (s : State) (r : Nat) : Bool :=
  !ptAsrc s (routePort s r) && fchPresent s (pget s P.MIX_DR_FCH r) &&
    (!pon s P.MIX_DR_EN r ||
      ((enabledEntries s P.MIX_DR_EN).all (fun q => q == r || pget s P.MIX_DR_FCH q != pget s P.MIX_DR_FCH r) &&
        decide (pget s P.MIX_DR_LIM_KNEE r ≤ limThr (pget s P.MIX_DR_LIM_THR r))))

/-- What a write of a route's entry brings about; `gain` says whether it covered a bit of GAIN or RAMP, `was` whether
the route was enabled. -/
def routeChanged (s : State) (r : Nat) (gain was : Bool) : State :=
  let x := routeAt s r
  let g := pgetI s P.MIX_DR_GAIN r
  let x := if !was && pon s P.MIX_DR_EN r then { x with gain := rampAt g, env := 0, vox := false }
    else if gain then { x with gain := rampTo x.gain g (pget s P.MIX_DR_RAMP r) } else x
  let s := setRoute s r x
  if routeEng s r = 2 ∧ pon s P.MIX_DR_EN r ∧ mayEngage s r then s else evalRoute s r

/-! ## ROUTE_CFG's settings (R207) -/

/-- The table with a waiting write in it. -/
def storeRoute (s : State) (x : RouteWrite) : State :=
  forEach x.words s (fun s w => writePword s 0x0804 x.route w.1 (BitVec.allOnes 32) w.2)

/-- The table with every waiting write in it: what PARAM_READ shows and what validation looks at. -/
def withWaiting (s : State) : State := forEach s.routeWait s storeRoute

/-- The unit takes up the waiting writes of some routes. -/
def takeUp (s : State) (pick : Nat → Bool) : State :=
  forEach (s.routeWait.filter (fun x => pick x.route)) { s with routeWait := s.routeWait.filter (fun x => !pick x.route) }
    (fun s x => routeChanged (storeRoute s x) x.route x.gain (pon s P.MIX_DR_EN x.route))

/-! ## Samples -/

/-- The routes that a received slot or subframe feeds. -/
def routesFed (s : State) (p slot : Nat) : List Nat := (routesOf s p).filter (fun r => pget s P.MIX_DR_SLOT r == slot)

/-- A received slot (`cls` 0) or subframe (`cls` 1) feeds the routes that take it (R223); a sample the unit handles takes
up the settings of ROUTE_CFG (R207). -/
def directSample (s : State) (cls inst slot : Nat) (w : Word) : State :=
  let p := inst + 16 * cls
  if !ron s Reg.MIX_CTRL F.MIX_CTRL_DR_EN || ((routesFed s p slot).isEmpty && (routesFed (withWaiting s) p slot).isEmpty)
  then s
  else
    let s := takeUp s (fun _ => true)
    forEach (routesFed s p slot) s (fun s r => routeSample s r w)

/-- The enabled route of a field channel, while it is engaged. -/
def engagedOn (s : State) (fch : Nat) : Option Nat :=
  (enabledEntries s P.MIX_DR_EN).find? (fun r => pget s P.MIX_DR_FCH r == fch && routeEngaged s r)

/-- The sample of a field channel `i` samples into the crossfade between its pipeline sample and route `r`, which is
engaged on it or not (R225). -/
def fadedSample (s : State) (r i : Nat) (eng : Bool) (pipe : Word) : Word :=
  let n := routeXfade s r
  let out := (routeAt s r).out
  if pget s P.MIX_DR_MODE r = 1 then
    let duck : Int := 2 ^ 28 + Int.tdiv ((pgetI s P.MIX_DR_DUCK r - 2 ^ 28) * i) n
    satWord (timesGain pipe.toInt duck + (if eng then out.toInt else 0))
  else satWord ((weighted out (rampWeight i n)).toInt + (weighted pipe (fadeWeight i n)).toInt)

/-- The sample a field channel is sent, given its pipeline sample; the crossfade moves on (R225). A route that leaves the
channel fades out before another fades in. -/
def fieldSample (s : State) (fch : Nat) (pipe : Word) : State × Word :=
  let eng := engagedOn s fch
  let old := mapGet (fun _ => (0, 0)) s.fades fch
  if eng.isNone ∧ old.2 = 0 then (s, pipe)
  else
    let r := if old.2 = 0 then eng.getD 0 else old.1
    let n := routeXfade s r
    let i := min old.2 n
    let on := eng == some r
    let next := if on then (r, min (i + 1) n) else if i ≤ 1 then (0, 0) else (r, i - 1)
    ({ s with fades := mapSet (fun _ => (0, 0)) s.fades fch next }, fadedSample s r i on pipe)

/-! ## Commands -/

/-- A write of MIX_DR_ENGAGE acts at each route's next sample (R224). -/
def hostMixDrEngageWrite (hi : Bool) (w : Word) (s : State) : State :=
  wr s (if hi then Reg.MIX_DR_ENGAGE_HI else Reg.MIX_DR_ENGAGE_LO) w

/-- The access itself, through the bus matrix. -/
def execMixDrEngageWrite (hi : Bool) (w : Word) (s : State) : Out := onBar s (if hi then Reg.MIX_DR_ENGAGE_HI else Reg.MIX_DR_ENGAGE_LO) (fun s => hostMixDrEngageWrite hi w s)

/-- VOX_HOLD ms have passed with no sample at or above VOX_THR (R224). -/
def execVoxHoldExpiry (r : Fin 64) (s : State) : Out :=
  onHost s (fun s =>
    let x := routeAt s r
    if x.vox && decide (x.loudAt + 393216 * pget s P.MIX_DR_VOX_HOLD r ≤ s.time.cnt) then evalRoute (setRoute s r { x with vox := false }) r else s)

end Sys2Proof.Machine
end

