-- ==== Sys2Proof/Machine/Mix.lean ====
section
/-! DEFINITION. The mix matrix: input high-pass filters, crosspoints, buses, and the meters (R207 to R221, R238 to R241). -/

namespace Sys2Proof.Machine
open Sys2Proof

/-! ## Input high-pass filters (R208, R209) -/

/-- The Q2.30 coefficients b0, b1, b2, a1, a2 at 48, 96 and 192 kHz for 20, 40, 80 and 120 Hz: the bilinear values of a
second-order Butterworth high-pass with pre-warping, to the nearest (R208, Table 06-7). -/
def hpfTable : List (List Int) := [
  [1071755951, -2143511901, 1071755951, -2143508228, 1069773750],
  [1069773750, -2139547500, 1069773750, -2139532835, 1065820340],
  [1065820340, -2131640679, 1065820340, -2131582238, 1057957296],
  [1061881538, -2123763076, 1061881538, -2123632067, 1050152262],
  [1072748428, -2145496855, 1072748428, -2145495936, 1071755951],
  [1071755951, -2143511901, 1071755951, -2143508228, 1069773750],
  [1069773750, -2139547500, 1069773750, -2139532835, 1065820340],
  [1067795215, -2135590430, 1067795215, -2135557497, 1061881540],
  [1073245011, -2146490022, 1073245011, -2146489792, 1072748428],
  [1072748428, -2145496855, 1072748428, -2145495936, 1071755951],
  [1071755951, -2143511901, 1071755951, -2143508228, 1069773750],
  [1070764392, -2141528783, 1070764392, -2141520527, 1067795215]
  ]

/-- The coefficient that MIX_HPF_COEF holds at rate code `f`, cut-off code `c + 1` and place `i` (R244). -/
def hpfCoef (f c i : Nat) : Int := (hpfTable.getD (4 * f + c) []).getD i 0

/-- A filter whose history is clear. -/
def hpfReset (_ : Nat) : HpfRun := ⟨0, 0, 0, 0⟩

/-- One sample through the filter of cut-off code `c + 1`. -/
def hpfStep (f c : Nat) (h : HpfRun) (x : Int) : HpfRun × Int :=
  let sum := hpfCoef f c 0 * x + hpfCoef f c 1 * h.x1 + hpfCoef f c 2 * h.x2 - hpfCoef f c 3 * h.y1 - hpfCoef f c 4 * h.y2
  let y := satInt 32 ((sum + 2 ^ 29) / 2 ^ 30)
  (⟨x, h.x1, y, h.y1⟩, y)

/-- A run of samples through a filter. -/
def hpfRun (f c : Nat) : HpfRun → List Int → HpfRun × List Int
  | h, [] => (h, [])
  | h, x :: xs =>
    let (h, y) := hpfStep f c h x
    let (h', ys) := hpfRun f c h xs
    (h', y :: ys)

/-- The cut-off of a channel: none where it is off; 5 to 7 act as 0. -/
def hpfCut (s : State) (c : Nat) : Option Nat :=
  let k := pget s P.MIX_HPF_CUT c
  if 1 ≤ k ∧ k ≤ 4 then some (k - 1) else none

/-- The matrix's input of channel `c` in this period. -/
def filterChannel (s : State) (c : Nat) : State × List Int :=
  let xs := (readBead s c).map BitVec.toInt
  match hpfCut s c with
  | none => (s, xs)
  | some k =>
    let (h, ys) := hpfRun (rget s Reg.SYS_BLKCFG F.SYS_BLKCFG_FS) k (mapGet hpfReset s.hpfs c) xs
    ({ s with hpfs := mapSet hpfReset s.hpfs c h }, ys)

/-- The largest magnitude of some samples. -/
def peakOf (xs : List Int) : Nat := xs.foldl (fun m x => max m x.natAbs) 0

/-- Drop the zeros at the end of a list of peaks. -/
def trimPeaks (l : List Nat) : List Nat := (l.reverse.dropWhile (· == 0)).reverse

/-- Keep the peak of a channel's filtered block beside those of the 255 blocks before it (R216). -/
def notePeak (s : State) (c : Nat) (xs : List Int) : State :=
  { s with peaks := mapSet (fun _ => []) s.peaks c (trimPeaks ((peakOf xs :: mapGet (fun _ => []) s.peaks c).take 256)) }

/-- Filter every usable channel; the answer's lists are by channel. -/
def filterAll (s : State) : Nat → State × List (List Int)
  | 0 => (s, [])
  | n + 1 =>
    let (s, xs) := filterChannel s (channels s - (n + 1))
    let (s, rest) := filterAll (notePeak s (channels s - (n + 1)) xs) n
    (s, xs :: rest)

/-! ## Crosspoints and buses -/

/-- An entry with no crosspoint at work: a bus that does not exist. -/
def xpReset (_ : Nat) : XpRun := ⟨0, 256, ⟨0, 0, 0, 0⟩⟩

/-- The crosspoint at work in entry `e`. -/
def xpAt (s : State) (e : Nat) : XpRun := mapGet xpReset s.xps e

/-- Replace the crosspoint at work in entry `e`. -/
def setXp (s : State) (e : Nat) (x : XpRun) : State := { s with xps := mapSet xpReset s.xps e x }

/-- A bus that has not run: gain and scale 1.0. -/
def busReset (_ : Nat) : BusRun := ⟨⟨2 ^ 28, 2 ^ 28, 0, 0⟩, ⟨2 ^ 31, 2 ^ 31, 0, 0⟩, 0, true⟩

/-- A bus. -/
def busAt (s : State) (b : Nat) : BusRun := mapGet busReset s.buses b

/-- Replace a bus. -/
def setBus (s : State) (b : Nat) (x : BusRun) : State := { s with buses := mapSet busReset s.buses b x }

/-- The samples of a glide of the automatic scale: 10 ms (R218). -/
def glideLen (s : State) : Nat := fsHz s / 100

/-- What a tally's write of a MIX_XP entry brings about from the commit boundary on (R213, R214): `s0` is the state
before it, `gain` says whether a record covered a bit of GAIN or RAMP. -/
def xpChanged (s0 s : State) (e : Nat) (gain : Bool) : State :=
  let x := xpAt s e
  let en0 := pon s0 P.MIX_XP_EN e
  let en1 := pon s P.MIX_XP_EN e
  let inp := pget s P.MIX_XP_IN e
  let bus := pget s P.MIX_XP_BUS e
  let r := pget s P.MIX_XP_RAMP e
  let g := pgetI s P.MIX_XP_GAIN e
  if pget s0 P.MIX_XP_IN e ≠ inp ∨ pget s0 P.MIX_XP_BUS e ≠ bus then
    if en1 then setXp s e ⟨inp, bus, ⟨0, g, 0, r⟩⟩
    else if x.bus = 256 then s
    else setXp s e ⟨inp, bus, rampAt 0⟩
  else if en1 then
    if !en0 || gain then setXp s e ⟨inp, bus, rampTo x.gain g r⟩ else s
  else if x.bus ≠ 256 ∧ (en0 || gain) then setXp s e ⟨inp, bus, rampTo x.gain 0 r⟩
  else s

/-- What a tally's write of a MIX_BUS entry brings about from the commit boundary on (R213, R218, R219). -/
def busChanged (s0 s : State) (b : Nat) (gain : Bool) : State :=
  let g := pgetI s P.MIX_BUS_GAIN b
  if !pon s P.MIX_BUS_EN b then { s with buses := mapErase s.buses b }
  else if !pon s0 P.MIX_BUS_EN b then setBus s b ⟨rampAt g, rampAt (2 ^ 31), 0, true⟩
  else
    let x := busAt s b
    let x := if gain then { x with gain := rampTo x.gain g (pget s P.MIX_BUS_RAMP b) } else x
    let x := if pget s0 P.MIX_BUS_LAW b = pget s P.MIX_BUS_LAW b then x
      else { x with scale := rampTo x.scale x.scale.g1 (glideLen s) }
    setBus s b x

/-- What a tally's write of a MIX_HPF entry brings about: a filter that was off starts with a clear history (R209). -/
def hpfChanged (s0 s : State) (c : Nat) : State :=
  if (hpfCut s0 c).isNone || (hpfCut s c).isNone then { s with hpfs := mapErase s.hpfs c } else s

/-- The crosspoints at work on a bus. -/
def busXps (s : State) (b : Nat) : List (Nat × XpRun) := s.xps.filter (fun e => e.2.bus == b)

/-- Whether a channel's filtered input was active in one of the last ACT_HOLD + 1 blocks (R216). -/
def inputActive (s : State) (b c : Nat) : Bool :=
  let thr := pget s P.MIX_BUS_ACT_THR b
  thr == 0 || ((mapGet (fun _ => []) s.peaks c).take (pget s P.MIX_BUS_ACT_HOLD b + 1)).any (fun p => decide (p ≥ thr))

/-- Whether a crosspoint counts among its bus's active inputs (R216). -/
def countsActive (s : State) (b : Nat) (x : XpRun) : Bool :=
  (x.gain.g1 != 0 || rampNow x.gain != 0) && (beadAt s (readBuf s) x.input).tag != 3 &&
    (!pon s P.MIX_BUS_ACT_MODE b || inputActive s b x.input)

/-- The scale target of a bus with `n` active inputs (Table 06-2). -/
def scaleTarget (law n : Nat) : Nat :=
  if n < 2 then 2 ^ 31
  else match law with
  | 1 => (2 ^ 32 + n) / (2 * n)
  | 2 =>
    let r := isqrt (2 ^ 62 / n)
    if (2 * r + 1) * (2 * r + 1) * n ≤ 2 ^ 64 then r + 1 else r
  | _ => 2 ^ 31

/-- Add two lists of samples. -/
def addSamples (a b : List Int) : List Int := List.zipWith (· + ·) a b

/-- The sums S of a bus's samples (R211). -/
def busSum (s : State) (ins : List (List Int)) (b : Nat) : List Int :=
  (busXps s b).foldl (fun acc e =>
    addSamples acc (List.zipWith timesGain (ins.getD e.2.input []) (rampRun e.2.gain (blk s)).1))
    (List.replicate (blk s) 0)

/-- The limiter over a bus's samples: outputs, the envelope after them and the smallest gain. -/
def limitRun (t k rho : Nat) : Nat → List Int → List Int × Nat × Nat
  | e, [] => ([], e, 2 ^ 31)
  | e, x :: xs =>
    let (e, y, g) := limiter t k rho e x
    let (ys, e', g') := limitRun t k rho e xs
    (y :: ys, e', min g g')

/-- Count a saturated bus sample (R220). -/
def countClip (s : State) (b : Nat) : State :=
  let s := rset (radd s Reg.MIX_CLIPCNT F.MIX_CLIPCNT_COUNT 1) Reg.MIX_STAT F.MIX_STAT_CLIP
  if rget s Reg.MIX_CLIPCNT F.MIX_CLIPCNT_COUNT % 256 = 0 then raise s 0x202 b 0 else s

/-- A bus's gain, scale and limiter over the sums of the block (R215 to R220): the bus after it, its outputs, the
samples x2 its meter measures and the smallest limiter gain; and the samples saturated. -/
def busBlock (s : State) (b : Nat) (x : BusRun) (k1 : Nat) (sums : List Int) :
    BusRun × List Int × List Int × Nat × Nat :=
  let scale := if x.fresh then rampAt k1 else if x.scale.g1 = k1 then x.scale else rampTo x.scale k1 (glideLen s)
  let (gs, gain) := rampRun x.gain sums.length
  let (ks, scale) := rampRun scale sums.length
  let x1 := List.zipWith (fun v g => satInt 48 (timesGain v g)) sums gs
  let x2 := List.zipWith (fun v k => (v * k + 2 ^ 30) / 2 ^ 31) x1 ks
  if pon s P.MIX_BUS_LIM_EN b then
    let (ys, env, g) := limitRun (limThr (pget s P.MIX_BUS_LIM_THR b)) (pget s P.MIX_BUS_LIM_KNEE b)
      (pget s P.MIX_BUS_LIM_REL b) x.env x2
    (⟨gain, scale, env, false⟩, ys, x2, g, 0)
  else
    (⟨gain, scale, x.env, false⟩, x2.map (satInt 32), x2, 2 ^ 31, (x2.filter (fun v => satInt 32 v != v)).length)

/-! ## Meters (R238 to R241) -/

/-- HOLD_MS in samples, if the hold ends at all. -/
def holdSamples (s : State) : Option Nat :=
  let ms := rget s Reg.MIX_MCFG F.MIX_MCFG_HOLD_MS
  if ms = 0xFFFF then none else some (ms * fsHz s / 1000)

/-- Close a period of meter `i` with its PEAK, its mean square and its smallest limiter gain. -/
def closeMeter (s : State) (i peak ms gain : Nat) (overs : Bool) : State :=
  let m := meterAt s i
  let (hold, age) :=
    if peak > m.hold then (peak, 0)
    else
      let age := m.age + blk s
      match holdSamples s with
      | none => (m.hold, age)
      | some h => (if age ≥ h then peak else m.hold, min age h)
  setMeter s i ⟨peak, hold, age, satNat 16 (m.overs + b2n overs), ms, gain, 0, ms⟩

/-- Measure a period's samples. -/
def measure (s : State) (i : Nat) (xs : List Int) (gain : Nat) : State :=
  let peak := peakOf xs
  closeMeter s i (min peak (2 ^ 32 - 1)) (xs.foldl (meanStep (rmsShift s)) (meterAt s i).ms) gain (decide (peak ≥ 2 ^ 31))

/-- The channel and direct-route meters at the end of a period. -/
def closeOtherMeters (s : State) : State :=
  let s := forEach (List.range 1024) s (fun s c => measure s c ((readBead s c).map BitVec.toInt) 0)
  forEach ((List.range 64).map (1280 + ·)) s (fun s i =>
    let m := meterAt s i
    closeMeter s i m.live m.msLive 0 (decide (m.live ≥ 2 ^ 31)))

/-- The clears that wait for the end of the period (R241). -/
def runMeterClears (s : State) : State :=
  let s := forEach s.meterClears s (fun s r =>
    forEach ((List.range 1344).filter (fun i => decide (r.1 ≤ i) && decide (i ≤ r.2))) s (fun s i =>
      setMeter s i { meterAt s i with hold := 0, age := 0, overs := 0 }))
  rclr { s with meterClears := [] } Reg.MIX_STAT F.MIX_STAT_MCLR_BUSY

/-! ## The period -/

/-- One enabled bus's period. -/
def runBus (s : State) (ins : List (List Int)) (b : Nat) : State :=
  let n := ((busXps s b).filter (fun e => countsActive s b e.2)).length
  let s := pput s P.MIX_BUS_N b n
  let sums := busSum s ins b
  let (x, ys, x2, g, clips) := busBlock s b (busAt s b) (scaleTarget (pget s P.MIX_BUS_LAW b) n) sums
  let s := forEach (List.range clips) (setBus s b x) (fun s _ => countClip s b)
  let s := measure s (1024 + b) x2 g
  fabWriteBead s clMix b (pget s P.MIX_BUS_OUT b) (ys.map (BitVec.ofInt 32))

/-- Step every crosspoint past the block: CUR reports its gain, and one that has ramped to zero ends (R213, R214). -/
def stepCrosspoints (s : State) : State :=
  forEach s.xps s (fun s e =>
    let g := (rampRun e.2.gain (blk s)).2
    let s := pput s P.MIX_XP_CUR e.1 (wrapTo 32 (rampNow g))
    if rampNow g = 0 ∧ !pon s P.MIX_XP_EN e.1 then { s with xps := mapErase s.xps e.1 }
    else setXp s e.1 { e.2 with gain := g })

/-- A bus bead still unwritten at the boundary (R210). -/
def busLate (s : State) (b : Nat) : State := raise (rset s Reg.MIX_STAT F.MIX_STAT_LATE) 0x200 b 0

/-- Whether the bus engine runs in this period. -/
def busRuns (s : State) : Bool :=
  running s && ron s Reg.MIX_CTRL F.MIX_CTRL_EN && !ron s Reg.MIX_STAT F.MIX_STAT_FENCED && !inReset s unitBus

/-- A bus meter's period of zero samples (R238). -/
def measureZeros (s : State) (b : Nat) : State := measure s (1024 + b) (List.replicate (blk s) 0) (2 ^ 31)

/-- The buses of a period, while they run; the others measure zeros. The cycles the matrix took are a free value within the
period (R210); a period in which it does not run takes none. -/
def busPeriod (s : State) (buses idle all : List Nat) : State :=
  if busRuns s then
    let (s, ins) := filterAll s (channels s)
    let s := forEach buses s (fun s b => runBus s ins b)
    let s := forEach idle (stepCrosspoints s) measureZeros
    let (v, s) := takeFree s 20
    rput s Reg.MIX_CYC F.MIX_CYC_CYCLES (v.toNat % (blockCycles s + 1))
  else
    let s := forEach all (rput s Reg.MIX_CYC F.MIX_CYC_CYCLES 0) measureZeros
    if running s then forEach buses s busLate else s

/-- The mix matrix's whole period, and every meter's, ended at the boundary. -/
def mixPeriod (s : State) : State :=
  let buses := enabledEntries s P.MIX_BUS_EN
  let s := closeOtherMeters { s with meterIndex := (rd s Reg.SYS_BLKIDX_LO).toNat }
  runMeterClears (busPeriod s buses ((List.range 256).filter (fun b => !buses.contains b)) (List.range 256))

/-! ## Settings (R212) -/

/-- The MIX_XP and MIX_BUS entries satisfy R212. -/
def mixOk (s : State) : Bool :=
  let xs := enabledEntries s P.MIX_XP_EN
  let pair (e : Nat) := pget s P.MIX_XP_IN e + 1024 * pget s P.MIX_XP_BUS e
  decide ((xs.map pair).Nodup) &&
    xs.all (fun e => pon s P.MIX_BUS_EN (pget s P.MIX_XP_BUS e) && decide (pget s P.MIX_XP_IN e < channels s)) &&
    (enabledEntries s P.MIX_BUS_EN).all (fun b => owns s clMix b (pget s P.MIX_BUS_OUT b) &&
      decide (pget s P.MIX_BUS_LIM_KNEE b ≤ limThr (pget s P.MIX_BUS_LIM_THR b)))

/-- MIX_XPCNT at a boundary (R244). -/
def countCrosspoints (s : State) : State :=
  rput s Reg.MIX_XPCNT F.MIX_XPCNT_ACTIVE (enabledEntries s P.MIX_XP_EN).length

/-! ## Commands -/

/-- A write of MIX_MCLR (R241): with GO the clear of its range waits for the end of the period. -/
def hostMixMclrGo (w : Word) (s : State) : State :=
  let s := rwrite s Reg.MIX_MCLR w
  if fldGet F.MIX_MCLR_GO w = 0 then s
  else
    let first := rget s Reg.MIX_MCLR F.MIX_MCLR_FIRST
    let last := max first (rget s Reg.MIX_MCLR F.MIX_MCLR_LAST)
    rset { s with meterClears := s.meterClears ++ [(first, last)] } Reg.MIX_STAT F.MIX_STAT_MCLR_BUSY

/-- The access itself, through the bus matrix. -/
def execMixMclrGo (w : Word) (s : State) : Out := onBar s Reg.MIX_MCLR (fun s => hostMixMclrGo w s)

/-- A write of MIX_CLIPCNT: CLR clears the count (R244). -/
def hostMixClipClr (w : Word) (s : State) : State :=
  if fldGet F.MIX_CLIPCNT_CLR w = 1 then rclr s Reg.MIX_CLIPCNT F.MIX_CLIPCNT_COUNT else s

/-- The access itself, through the bus matrix. -/
def execMixClipClr (w : Word) (s : State) : Out := onBar s Reg.MIX_CLIPCNT (fun s => hostMixClipClr w s)

/-- METER_READ (R241, Table 12-9): the records of a range of meters and the index of the last completed period. -/
def execMeterRead (d : DescRef) (s : State) : Out :=
  onDesc s d 0x32 (fun s bs =>
    let first := par bs 8 0 11
    let last := par bs 12 0 11
    let n := last - first + 1
    let s := hostWrite s (leAt bs 16 8) ((List.range n).map (fun i => meterRecord s (first + i))).flatten
    finish s d stOk (s.meterIndex + 2 ^ 32 * n))

end Sys2Proof.Machine
end

