-- ==== Sys2Proof/Machine/HoldOff.lean ====
section
/-! DEFINITION. The hold-off the loader computes from an image's P sections (R154, R156). -/

namespace Sys2Proof.Machine
open Sys2Proof

/-- The instruction an image places at an address; none where no P section reaches. -/
def codeAt (code : List (Nat × Nat)) (a : Nat) : Option Nat := (code.find? (fun e => e.1 == a % 8192)).map (·.2)

/-- A place on a path through code, before an issue: the address, the delay slots left with this one, the transfer they end
in, the active loops (start and end, innermost first), whether the issue begins an iteration of the innermost, and the
repeats left with this one. An RTI's target, which an interrupted program decides, is none. -/
structure PathPlace where
  pc : Option Nat
  slots : Nat
  target : Option (Option Nat)
  loops : List (Nat × Nat)
  first : Bool
  reps : Nat
  deriving DecidableEq, Repr

/-- The boundary before the issue is an acceptance point (R154, R155). -/
def placeAccepts (x : PathPlace) : Bool := x.slots == 0 && x.reps == 0 && (x.loops.isEmpty || x.first || x.pc.isNone)

/-- Where issue goes after an instruction that is not repeated: a transfer at its last delay slot, the loop-end test both
ways, or the next address. -/
def placeNext (x : PathPlace) (pc : Nat) : List PathPlace :=
  let seq (loops : List (Nat × Nat)) (dest : Nat) (first : Bool) : PathPlace :=
    if x.slots = 1 then
      match x.target with
      | some t => ⟨t, 0, none, loops, t.isNone, 0⟩
      | none => ⟨some dest, 0, none, loops, first, 0⟩
    else ⟨some dest, x.slots - 1, x.target, loops, first, 0⟩
  match x.loops with
  | (b, e) :: rest => if e = pc then [seq x.loops b true, seq rest ((pc + 1) % 8192) false]
    else [seq x.loops ((pc + 1) % 8192) false]
  | [] => [seq [] ((pc + 1) % 8192) false]

/-- The addresses a transfer may go to. A RET goes to any address after a CALL's delay slots, any other transfer by register
to any instruction (DESIGN CHOICE, log entry 16: R156 does not say what a register may hold). -/
def transferTargets (control : Bool) (code : List (Nat × Nat)) (op : RodOp) (w : Nat) : List Nat :=
  match op with
  | .ret => (code.filter (fun e => decodeRod control e.2 == some .call)).map (fun e => (e.1 + 4) % 8192)
  | _ => if bitOf w 53 then code.map Prod.fst else [bitsOf w 32 13]

/-- The places after an issue: every branch taken and not, every loop end passed and not, and a count in a register both
zero and the largest (R156). A path that leaves the P sections or reaches END ends. -/
def placeAfter (control : Bool) (code : List (Nat × Nat)) (x : PathPlace) : List PathPlace :=
  match x.pc with
  | none => []
  | some pc =>
    if x.reps > 1 then [{ x with reps := x.reps - 1 }]
    else match codeAt code pc with
    | none => []
    | some w => match decodeRod control w with
      | none | some .endPass => []
      | some .rep =>
        let again (n : Nat) : PathPlace := ⟨some ((pc + 1) % 8192), 0, none, x.loops, false, n⟩
        let skip : PathPlace := ⟨some ((pc + 2) % 8192), 0, none, x.loops, false, 0⟩
        if bitOf w 57 then [again 1023, skip] else if bitsOf w 32 10 = 0 then [skip] else [again (bitsOf w 32 10)]
      | some .loop =>
        let e := bitsOf w 32 13
        let skip : PathPlace := ⟨some ((e + 1) % 8192), 0, none, x.loops, false, 0⟩
        let start := (pc + 1) % 8192
        let body : List PathPlace := if x.loops.length < 4 then [⟨some start, 0, none, (start, e) :: x.loops, true, 0⟩] else []
        if bitOf w 57 then skip :: body else if bitsOf w 16 16 = 0 then [skip] else body
      | some .endl => placeNext { x with loops := x.loops.drop 1 } pc
      | some .rti => [⟨some ((pc + 1) % 8192), 3, some none, x.loops, false, 0⟩]
      | some .b | some .call | some .ret =>
        let op := (decodeRod control w).getD .b
        let slot (t : Option (Option Nat)) : PathPlace := ⟨some ((pc + 1) % 8192), 3, t, x.loops, false, 0⟩
        slot none :: (transferTargets control code op w).map (fun t => slot (some (some t)))
      | some _ => placeNext { x with reps := 0 } pc

/-- Places without repeats. -/
def samePlaces (xs : List PathPlace) : List PathPlace := xs.foldr (fun x acc => if acc.contains x then acc else x :: acc) []

/-- The places reached from `todo`, with those seen. -/
def placesFrom (control : Bool) (code : List (Nat × Nat)) : Nat → List PathPlace → List PathPlace → List PathPlace
  | 0, seen, _ => seen
  | n + 1, seen, todo =>
    let new := (samePlaces (todo.flatMap (placeAfter control code))).filter (fun x => !seen.contains x)
    if new.isEmpty then seen else placesFrom control code n (new ++ seen) new

/-- The longest run of issues from `xs` that meets no acceptance point after its first, up to the fuel. -/
def longestRun (control : Bool) (code : List (Nat × Nat)) : Nat → List PathPlace → Nat
  | 0, _ => 0
  | n + 1, xs =>
    let ys := samePlaces ((xs.flatMap (placeAfter control code)).filter (fun x => !placeAccepts x))
    if ys.isEmpty then 1 else 1 + longestRun control code n ys

/-- The hold-off of a rod's code: the longest run of issues between two acceptance points, over every path from the entry
and from the interrupt vectors; the field saturates (R153, R156; log entry 16). -/
def holdOff (control : Bool) (code : List (Nat × Nat)) : Nat :=
  let entry : List PathPlace :=
    ([0x00, 0x08, 0x10, 0x18].filter (fun a => (codeAt code a).isSome)).map (fun a => ⟨some a, 0, none, [], false, 0⟩)
  let starts := (placesFrom control code (2 ^ 32) entry entry).filter (fun x => placeAccepts x && x.pc.isSome)
  if starts.isEmpty then 0 else longestRun control code 65535 starts

end Sys2Proof.Machine
end

