-- ==== Sys2Proof/Machine/Loader.lean ====
section
/-! DEFINITION. Rod program images: the loader's checks, LOAD_PROGRAM and the end of a load (R166, R168 to R170). -/

namespace Sys2Proof.Machine
open Sys2Proof

/-- The CRC of an image, its CRC field taken as zero (Table 04-10). -/
def imageCrc (im : List Byte) : Nat := crc32c (im.take 0x30 ++ [0, 0, 0, 0] ++ im.drop 0x34)

/-- A section entry (Table 04-11). -/
structure Section where
  type : Nat
  rod : Nat
  zero : Nat
  dest : Nat
  len : Nat
  ofs : Nat
  deriving DecidableEq, Repr

/-- The section table of an image. -/
def imageSections (im : List Byte) : List Section :=
  (List.range (leAt im 0x0A 2)).map (fun i =>
    let o := 0x40 + 16 * i
    ⟨leAt im o 1, leAt im (o + 1) 1, leAt im (o + 2) 2, leAt im (o + 4) 4, leAt im (o + 8) 4, leAt im (o + 12) 4⟩)

/-- The bytes of a section. -/
def sectionData (im : List Byte) (c : Section) : List Byte := bytesAt im c.ofs c.len

/-- A section's words in its memory, or its list's entries: the first, how many, and how many there can be. -/
def sectionSpan (c : Section) : Nat × Nat × Nat :=
  match c.type with
  | 1 => (c.dest, c.len / 8, 8192)
  | 2 | 3 => (c.dest, c.len / 4, 32768)
  | 4 => (c.dest, c.len / 4, frameWords)
  | 5 | 6 => (0, c.len / 8, 64)
  | _ => (0, 1, 1)

/-- A section agrees with Table 04-11, lies in the image and in its memory, and names a loaded rod. -/
def sectionOk (im : List Byte) (rods : Nat) (c : Section) : Bool :=
  let (at', n, size) := sectionSpan c
  decide (1 ≤ c.type ∧ c.type ≤ 7) && c.zero == 0 && (c.type == 4 || (decide (c.rod < 8) && bitOf rods c.rod)) &&
    (decide (c.type ≤ 4) || c.dest == 0) &&
    (match c.type with
      | 1 => c.len % 8 == 0
      | 5 | 6 => c.len % 8 == 0 && decide (c.len ≤ 512)
      | 7 => c.len == 256
      | _ => c.len % 4 == 0) &&
    c.ofs % 8 == 0 && decide (c.ofs + c.len ≤ im.length) && decide (at' + n ≤ size)

/-- Whether two sections overlap in one memory (R169). -/
def sectionsOverlap (a b : Section) : Bool :=
  let (pa, na, _) := sectionSpan a
  let (pb, nb, _) := sectionSpan b
  a.type == b.type && (a.type == 4 || a.rod == b.rod) && na != 0 && nb != 0 && decide (pa < pb + nb) && decide (pb < pa + na)

/-- Whether no two of a list of sections overlap. -/
def noOverlap : List Section → Bool
  | [] => true
  | c :: cs => cs.all (fun d => !sectionsOverlap c d) && noOverlap cs

/-- The instructions of P sections of a rod by address. -/
def imageCode (im : List Byte) (r : Nat) : List (Nat × Nat) :=
  ((imageSections im).filter (fun c => c.type == 1 && c.rod == r)).flatMap (fun c =>
    (List.range (c.len / 8)).map (fun i => (c.dest + i, leAt im (c.ofs + 8 * i) 8)))

/-- Whether an image's instruction at an address is a restricted one. -/
def restrictedAt (control : Bool) (code : List (Nat × Nat)) (a : Nat) : Bool :=
  match codeAt code a with
  | none => false
  | some w => match decodeRod control w with
    | none => false
    | some o => restricted o

/-- One instruction of a P section obeys R138, R150 and R152. -/
def instructionOk (control : Bool) (code : List (Nat × Nat)) (e : Nat × Nat) : Bool :=
  let bad (a : Nat) : Bool := restrictedAt control code a
  match decodeRod control e.2 with
  | none => false
  | some .b | some .call | some .ret | some .rti => !bad (e.1 + 1) && !bad (e.1 + 2) && !bad (e.1 + 3)
  | some .rep => !bad (e.1 + 1)
  | some .loop =>
    let last := bitsOf e.2 32 13
    decide (3 ≤ (last + 8192 - e.1) % 8192) && !bad last && !bad (last + 8191) && !bad (last + 8190)
  | some _ => true

/-- A rod's P sections obey R138, R150 and R152 (R169). -/
def codeOk (im : List Byte) (r : Nat) : Bool :=
  let code := imageCode im r
  code.all (instructionOk (r == 7) code)

/-- A rod's list entries in an image: import (5) or export (6), up to its end (R163). -/
def imageList (im : List Byte) (type r : Nat) : List Nat :=
  (((imageSections im).filter (fun c => c.type == type && c.rod == r)).flatMap (fun c =>
    (List.range (c.len / 8)).map (fun i => leAt im (c.ofs + 8 * i) 8))).takeWhile (fun e => dmaKind e != 0)

/-- A list entry is valid (R169): a known kind, usable channels, within X or Y and within frame SRAM. -/
def entryOk (s : State) (e : Nat) : Bool :=
  if dmaKind e = 1 then
    decide (dmaCh e + dmaNch e < channels s) && decide (dmaAddr e + dmaNch e * dmaPitch s e + blk s ≤ 32768)
  else if dmaKind e = 2 then
    decide (dmaAddr e + dmaWords e < 32768) && decide (dmaFaddr e + dmaWords e < frameWords)
  else false

/-- A frame's lists, those of the rods in `rods` taken from an image. -/
def frameLists (s : State) (f : Nat) (imp : Bool) (im : List Byte) (rods : Nat) : List Nat :=
  (List.range 8).flatMap (fun r =>
    if bitOf rods r then imageList im (if imp then 5 else 6) r else loadedList s (8 * f + r) imp)

/-- The frame stays within R166's limits. -/
def limitsOk (s : State) (f : Nat) (im : List Byte) (rods : Nat) : Bool :=
  let c := blockCycles s
  let ok (es : List Nat) : Bool := decide (linesOf s es ≤ c / 1000) && decide (wordsOf es ≤ c / 250)
  ok (frameLists s f true im rods) && ok (frameLists s f false im rods)

/-- A header field breaks Table 04-10 other than MAGIC, VERSION and LENGTH. -/
def headerRestOk (im : List Byte) : Bool :=
  decide (leAt im 6 1 < 8) && decide (leAt im 8 1 < 16) && decide (leAt im 9 1 < 8) &&
    decide (1 ≤ leAt im 0x0A 2 ∧ leAt im 0x0A 2 ≤ 256) && leAt im 0x38 8 == 0 &&
    decide (0x40 + 16 * leAt im 0x0A 2 ≤ im.length)

/-- MAGIC, VERSION and LENGTH obey Table 04-10. -/
def headerFirstOk (im : List Byte) (len : Nat) : Bool :=
  leAt im 0 4 == 0x50545245 && leAt im 4 2 == 1 && leAt im 0x0C 4 == len && len % 8 == 0 && decide (len ≤ 8388608) &&
    decide (0x40 ≤ len)

/-- The register-init sections have zero where Table 04-11 says so. -/
def regInitOk (im : List Byte) : Bool :=
  (imageSections im).all (fun c => c.type != 7 ||
    (leAt im (c.ofs + 0xC4) 12 == 0 && (List.range 4).all (fun i => leAt im (c.ofs + 0xD0 + 12 * i + 9) 3 == 0)))

/-- The declared worst case fits the budget for every named rod. -/
def declOk (s : State) (im : List Byte) (rods : Nat) : Bool :=
  (List.range 8).all (fun r => !bitOf rods r ||
    decide (leAt im (0x10 + 2 * r) 2 + leAt im (0x20 + 2 * r) 2 * blk s ≤ budgetCycles s))

/-- The last of the loader's checks (R169). -/
def imageOk (s : State) (im : List Byte) : Bool :=
  let f := leAt im 6 1
  let rods := leAt im 7 1
  let cs := imageSections im
  headerRestOk im && cs.all (sectionOk im rods) && noOverlap cs && regInitOk im &&
    (List.range 8).all (fun r => codeOk im r) &&
    (List.range 8).all (fun r => ((imageList im 5 r) ++ (imageList im 6 r)).all (entryOk s)) &&
    limitsOk s f im rods && bitOf (leAt im 8 1) (rget s Reg.SYS_BLKCFG F.SYS_BLKCFG_BLK) &&
    bitOf (leAt im 9 1) (rget s Reg.SYS_BLKCFG F.SYS_BLKCFG_FS) && declOk s im rods

/-- The named rods enter LOADING: a pass stops, fences and failures go, memories, registers and lists are cleared (R170). -/
def beginLoad (s : State) (f rods : Nat) (l : LoadState) : State :=
  let s := (List.range 8).foldl (fun s r =>
    if bitOf rods r then
      let g := 8 * f + r
      let old := rodAt s g
      let s := setRodState (dropPass s g) g rdLoading
      let s := rput s (rodReg Reg.ROD_STAT g) F.ROD_STAT_FAILS 0
      let ph := (rodAt s g).phase
      setRod s g { rodReset g with file := [], phase := if ph = .ended then .stopped else ph, enPend := old.enPend }
    else s) s
  let s := refreshFrameCounts s f
  { rset s (Reg.ROD_FSTAT f) F.ROD_FSTAT_LOADING with loads := mapInsert s.loads f l }

/-- The loader's checks in their fixed order (R169), as the status they end in; `im` is the image as first read. -/
def loadVerdict (s : State) (len : Nat) (im : List Byte) : Nat :=
  let f := leAt im 6 1
  if s.loads.any (fun e => e.1 == f) then stBusyRetry
  else if !headerFirstOk im len then stInvalidParam
  else if imageCrc im ≠ leAt im 0x30 4 then stCrcFail
  else if !imageOk s im then stInvalidParam
  else if dmaFenced s f then stTargetFenced
  else stOk

/-- A checked image starts to load, or its descriptor ends with what the checks found. -/
def loadChecked (s : State) (d : DescRef) (len : Nat) (im : List Byte) : State :=
  let v := loadVerdict s len im
  if v = stOk then beginLoad s (leAt im 6 1) (leAt im 7 1) ⟨some d, leAt im 7 1, imageCrc im⟩ else finish s d v 0

/-- Write one section (R170). -/
def writeSection (s : State) (f : Nat) (im : List Byte) (c : Section) : State :=
  let g := 8 * f + c.rod
  let r := rodAt s g
  match c.type with
  | 1 => setRod s g { r with p := (List.range (c.len / 8)).foldl (fun m i =>
      mapSet (fun _ => (0 : Word64)) m (c.dest + i) (BitVec.ofNat 64 (leAt im (c.ofs + 8 * i) 8))) r.p }
  | 2 | 3 => setRod s g ((List.range (c.len / 4)).foldl (fun r i =>
      putXY r (c.type == 3) (c.dest + i) (BitVec.ofNat 32 (leAt im (c.ofs + 4 * i) 4))) r)
  | 4 => (List.range (c.len / 4)).foldl (fun s i =>
      frameSet s f (c.dest + i) (BitVec.ofNat 32 (leAt im (c.ofs + 4 * i) 4))) s
  | 5 => setRod s g { r with imports := imageList im 5 c.rod }
  | 6 => setRod s g { r with exports := imageList im 6 c.rod }
  | _ =>
    let file := (List.range 0x31).foldl (fun m n =>
      let v := leAt im (c.ofs + 4 * n) 4
      mapSet (fun _ => (0 : Nat)) m n (if n = 0x30 then v &&& srAll else v % 2 ^ regWidth n)) r.file
    let acc := (List.range 4).foldl (fun m n =>
      mapSet (fun _ => (0 : Nat)) m n (leAt im (c.ofs + 0xD0 + 12 * n) 9)) r.acc
    setRod s g { r with file := file, acc := acc }

/-- A loaded rod becomes READY, or ACTIVE with EN = 1 (R170, R171), its hold-off computed from the image (R156). -/
def rodLoaded (s : State) (f r : Nat) (im : List Byte) : State :=
  let g := 8 * f + r
  let en := ron s (rodReg Reg.ROD_CTRL g) F.ROD_CTRL_EN
  let s := setRod s g { rodAt s g with blkMask := leAt im 8 1, fsMask := leAt im 9 1, enPend := [] }
  let s := setRodState s g (if en then rdActive else rdReady)
  let dc := rodReg Reg.ROD_DECL g
  let s := rput (rput s dc F.ROD_DECL_FIXED (leAt im (0x10 + 2 * r) 2)) dc F.ROD_DECL_PER_SAMPLE (leAt im (0x20 + 2 * r) 2)
  let s := wr s (rodReg Reg.ROD_IMGID g) (BitVec.ofNat 32 (leAt im 0x34 4))
  rput s (rodReg Reg.ROD_HOLDOFF g) F.ROD_HOLDOFF_ISSUES (holdOff (r == 7) (imageCode im r))

/-- The load ends with the image as read a second time (R170); an unreadable or changed image leaves the rods EMPTY. -/
def endLoad (s : State) (f : Nat) (l : LoadState) (second : Option (List Byte)) : State :=
  let s := loadEnds s f
  match second with
  | none =>
    let s := loadEmpties s f l
    match l.ref with
    | none => s
    | some d => inputFailed s d (match flightAt s d with | none => 0 | some x => leAt x.bytes 16 8)
  | some im =>
    let s := forEach (imageSections im) s (fun s c =>
      if c.type = 4 ∨ (c.rod < 8 ∧ bitOf l.rods c.rod) then writeSection s f im c else s)
    if imageCrc im ≠ l.crc then finishOpt (loadEmpties s f l) l.ref stCrcFail 0
    else
      let s := forEach (loadNames l) s (fun s r => rodLoaded s f r im)
      finishOpt (refreshFrameCounts s f) l.ref stOk (f + 256 * l.rods)

/-- The supervisor loads a stored program (R518): the checks, then the whole load at once; a refused image loads
nothing. -/
def loadStored (s : State) (im : List Byte) : State × Bool :=
  let v := loadVerdict s im.length im
  if v = stOk then
    let l : LoadState := ⟨none, leAt im 7 1, imageCrc im⟩
    (endLoad (beginLoad s (leAt im 6 1) (leAt im 7 1) l) (leAt im 6 1) l (some im), true)
  else (s, false)

/-! ## Commands -/

/-- LOAD_PROGRAM with its image as the loader first reads it (R168, R169). -/
def execLoadProgram (d : DescRef) (image : Option (List Byte)) (s : State) : Out :=
  onDesc s d 0x20 (fun s bs =>
    let len := leAt bs 8 4
    withInput s d (leAt bs 16 8) len image (fun s im => loadChecked s d len im))

/-- A load finishes on frame `f`; `image` is the second reading (R170). -/
def execProgramLoadDone (f : Fin 8) (image : Option (List Byte)) (s : State) : Out :=
  onHost s (fun s =>
    match s.loads.find? (fun e => e.1 == f.val) with
    | none => s
    | some e => endLoad s f e.2 image)

end Sys2Proof.Machine
end

