-- ==== Sys2Proof/Machine/Ports.lean ====
section
/-! DEFINITION. The audio ports: TDM and biphase frames in and out, sample indices, port states, alignment groups and the
ASRC pool (R106 to R136). Positions on the sample grid are integers in 2^-16 sample. -/

namespace Sys2Proof.Machine
open Sys2Proof

/-! ## Sample indices and slips (R111, R113, R123) -/

/-- Half a sample, in 2^-16. -/
def halfSample : Int := 32768

/-- Round to a whole sample, halves upward. -/
def roundSample (x : Int) : Int := (x + halfSample) / 65536

/-- The bead that holds the sample of an index (R111). -/
def beadOfIndex (s : State) (k : Int) : Int := k / (blk s : Int)

/-- The FAB, TDM and BPH sources of a slip (Table 03-5). -/
def slipSource (p : Nat) : Nat := if isTdm p then 0x142 + 4 * p else 0x1A0 + (p - 16)

/-- A port that leaves the rate window or misframes too often raises this source (Table 03-3). -/
def windowSource (p : Nat) : Nat := if isTdm p then 0x143 + 4 * p else 0x1A0 + (p - 16)

/-- The number a source of a port names as its instance (Table 14-9). -/
def ptInst (p : Nat) : Nat := if isTdm p then p else p - 16

/-- What a realignment or a return of a group member adds (R123). -/
def memberMoved (s : State) (p dropped repeated : Nat) (rejoin : Bool) : State :=
  match groupOf s p with
  | none => s
  | some g =>
    let s := rset s (Reg.FAB_AGRP_STAT g) (if rejoin then F.FAB_AGRP_STAT_REJOIN else F.FAB_AGRP_STAT_SLIP)
    let s := rset s (ptStat p) (ptRejoinBit p)
    let s := radd (radd s (ptRejoin p) F.TDM_REJOIN_DROPPED dropped) (ptRejoin p) F.TDM_REJOIN_REPEATED repeated
    raise s (0x108 + g) p 0

/-- Underruns or overruns: counted, SLIP set, the source raised, and a group member realigns (R111, R123). -/
def slipped (s : State) (p under overs : Nat) : State :=
  let s := radd (radd s (ptSlipCnt p) F.TDM_SLIPCNT_UNDER under) (ptSlipCnt p) F.TDM_SLIPCNT_OVER overs
  let s := rset s (ptStat p) (ptSlipBit p)
  memberMoved (raise s (slipSource p) (ptInst p) 0) p overs under false

/-- The last sample of a port's `i`-th channel. -/
def lastOf (x : RxPort) (i : Nat) : Word := x.last.getD i 0

/-- Write the samples of an index into the beads of this period: none repeats the port's last sample (R113). -/
def writeNow (s : State) (p : Nat) (k : Int) (vals : List (Option Word)) : State :=
  let o := ptOwner p
  let j := (k % (blk s : Int)).toNat
  ((ptChannels s p).foldl (fun (acc : State × Nat) c =>
    let s := acc.1
    match vals.getD acc.2 none with
    | some w =>
      let x := rxAt s p
      let last := x.last ++ List.replicate (acc.2 + 1 - x.last.length) 0
      let s := setRx s p { x with last := last.set acc.2 w }
      (fabWrite s o.1 o.2 c j w false, acc.2 + 1)
    | none => (fabWrite s o.1 o.2 c j (lastOf (rxAt s p) acc.2) true, acc.2 + 1)) (s, 0)).1

/-- Give the samples of index `k` to their bead: written in its own period, held before it, late after it; capture
starts with the first bead that begins after the port entered RUNNING (R113, Table 03-3). -/
def placeSamples (s : State) (p : Nat) (k : Int) (vals : List (Option Word)) : State :=
  let n := beadOfIndex s k
  let x := rxAt s p
  if n < x.start then s
  else if n = s.grid.index then writeNow s p k vals
  else if n > s.grid.index then setRx s p { x with early := x.early ++ [(k, vals)] }
  else forEach (ptChannels s p) s (fun s c => lateWrite s c)

/-- Give the port's last sample to the indices from `k` on, at most one block of them in reach. -/
def repeatFrom (s : State) (p : Nat) (k : Int) : Nat → State
  | 0 => s
  | n + 1 => repeatFrom (placeSamples s p k []) p (k + 1) n

/-- D of R111: 1 for a grid master, else 2. -/
def offsetD (s : State) (p : Nat) : Int := if isGridMaster s p then 1 else 2

/-- φ0 in use. -/
def phaseOf (s : State) (p : Nat) : Int := rget s (ptPhase p) F.TDM_PHASE_PHI0

/-- The first frame after the entry to RUNNING sets φ0: zero for a grid master, the group's, or its own position's
fraction, which becomes the group's (R111, R122). -/
def learnPhase (s : State) (p : Nat) (pos : Int) : State :=
  let put (s : State) (v : Nat) : State :=
    rbit (rput s (ptPhase p) F.TDM_PHASE_PHI0 v) (ptPhase p) F.TDM_PHASE_D2 (!isGridMaster s p)
  if isGridMaster s p then put s 0
  else
    let own := (pos % 65536).toNat
    match groupOf s p with
    | none => put s own
    | some g =>
      if ron s (Reg.FAB_AGRP_STAT g) F.FAB_AGRP_STAT_PHASE_VALID then
        put s (rget s (Reg.FAB_AGRP_STAT g) F.FAB_AGRP_STAT_PHI0)
      else
        let s := rset (rput s (Reg.FAB_AGRP_STAT g) F.FAB_AGRP_STAT_PHI0 own) (Reg.FAB_AGRP_STAT g) F.FAB_AGRP_STAT_PHASE_VALID
        put s own

/-- Give a received frame its index (R111). The answer is the index, or none for a discarded frame. -/
def indexFrame (s : State) (p : Nat) (pos : Int) : State × Option Int :=
  match (rxAt s p).kPrev with
  | none =>
    let s := learnPhase s p pos
    let k := roundSample (pos - phaseOf s p) + offsetD s p
    (setRx s p { rxAt s p with kPrev := some k }, some k)
  | some kp =>
    let x := rxAt s p
    let dev := pos - phaseOf s p - (kp + 1 - offsetD s p) * 65536
    let hi : Int := if x.wide = 2 then 49152 else halfSample
    let lo : Int := if x.wide = 1 then -49152 else -halfSample
    if dev ≥ hi then
      let k := roundSample (pos - phaseOf s p) + offsetD s p
      let skipped := (k - kp - 1).toNat
      let first := max (kp + 1) (s.grid.index * (blk s : Int))
      let s := repeatFrom s p first (min (k - first).toNat (2 * blk s))
      let s := slipped s p skipped 0
      (setRx s p { rxAt s p with kPrev := some k, wide := 1 }, some k)
    else if dev < lo then (slipped (setRx s p { x with wide := 2 }) p 0 1, none)
    else
      let wide := if dev.natAbs ≤ 16384 then 0 else x.wide
      (setRx s p { x with kPrev := some (kp + 1), wide := wide }, some (kp + 1))

/-- The index of a frame whose samples go to the ASRC: it writes no bead, so none is skipped or discarded, and each frame
has the index that R111 gives a first one (DEDUCED, log entry 105). -/
def freeIndex (s : State) (p : Nat) (pos : Int) : State × Option Int :=
  match (rxAt s p).kPrev with
  | none => indexFrame s p pos
  | some _ =>
    let k := roundSample (pos - phaseOf s p) + offsetD s p
    (setRx s p { rxAt s p with kPrev := some k }, some k)

/-- Indices of this period that no frame has: the port writes its last sample and counts an underrun for each (R113). -/
def fillDeadline (s : State) (p : Nat) : State :=
  let x := rxAt s p
  let first := s.grid.index * (blk s : Int)
  if ptState s p ≠ ptRunning ∨ (s.grid.index : Int) < x.start ∨ (ptChannels s p).isEmpty ∨ !running s then s
  else
    let from' := match x.kPrev with | none => first | some k => max first (k + 1)
    let n := (first + (blk s : Int) - from').toNat
    if n = 0 then s
    else
      let s := slipped (repeatFrom s p from' n) p n 0
      match x.kPrev with
      | none => s
      | some _ => setRx s p { rxAt s p with kPrev := some (from' + n - 1) }

/-- At the start of a period the held samples of its bead are written (R113). -/
def placeEarly (s : State) (p : Nat) : State :=
  let x := rxAt s p
  if x.early.isEmpty then s
  else forEach x.early (setRx s p { x with early := [] }) (fun s e => placeSamples s p e.1 e.2)

/-! ## State transitions (Table 03-3) -/

/-- The rest of the current bead is written with the last sample (Table 03-3); a member owes the repeats to its return. -/
def completeBead (s : State) (p : Nat) : State :=
  let x := rxAt s p
  let first := s.grid.index * (blk s : Int)
  if (s.grid.index : Int) < x.start ∨ (ptChannels s p).isEmpty ∨ !running s then s
  else
    let from' := match x.kPrev with | none => first | some k => max first (k + 1)
    let n := (first + (blk s : Int) - from').toNat
    let s := repeatFrom s p from' n
    setRx s p { rxAt s p with owed := (rxAt s p).owed + n }

/-- A RUNNING port leaves for LOST or QUALIFYING and raises a source; its converter's LOCK clears with it and raises none of
its own (DESIGN CHOICE, log entry 152). -/
def dropOut (s : State) (p st src : Nat) : State :=
  let s := leaveRunning (completeBead (portLeft s p) p) p st
  raise (rclr s (Reg.ASRC_STAT p) F.ASRC_STAT_LOCK) src (ptInst p) 0

/-- A port enters RUNNING (Table 03-3, R123). -/
def enterRunning (s : State) (p : Nat) : State :=
  let s := setPtState s p ptRunning
  let x := rxAt s p
  let returns := x.been && (groupOf s p).isSome
  let s := if returns then memberMoved s p 0 x.owed true else s
  let s := setRx s p { rxAt s p with kPrev := none, start := s.grid.index + 1, been := (groupOf s p).isSome, owed := 0 }
  forEach (routesOf s p) s evalRoute

/-- One more frame in the history of misframes; a fourth misframe within 16 frames ends RUNNING (Table 03-3). -/
def noteFrame (s : State) (p : Nat) (mis : Bool) : State :=
  let x := rxAt s p
  let h := (2 * x.misHist + b2n mis) % 2 ^ 16
  let s := setRx s p { x with misHist := h }
  if mis && decide (ptState s p = ptRunning) && decide (popBelow h 16 ≥ 4) && !isGridMaster s p then
    dropOut s p ptQualifying (windowSource p)
  else s

/-- A misframe (R117): counted, MISFRAME set, its source raised; a qualification begins again (R116). -/
def misframe (s : State) (p : Nat) : State :=
  let s := setRx s p { rxAt s p with gates := 0 }
  let s := rset s (ptStat p) (ptMisBit p)
  if isTdm p then raise (radd s (Reg.TDM_ERRCNT p) F.TDM_ERRCNT_MISFRAME 1) (0x141 + 4 * p) p 0
  else raise (radd s (Reg.BPH_RX_ERRCNT (p - 16)) F.BPH_RX_ERRCNT_MISFRAME 1) (0x1A0 + (p - 16)) (p - 16) 0

/-- An edge or a valid preamble takes a LOST port to QUALIFYING (Table 03-3). -/
def wakeLost (s : State) (p : Nat) : State := if ptState s p = ptLost then setPtState s p ptQualifying else s

/-! ## Containment at the ports (R119, R482) -/

/-- Whether a port's MODE or EN write is ignored because its fence cannot be left; FLT_STAT.REFUSED is then set (R482). -/
def portHeld (s : State) (fenced : Bool) (unit : Nat) : Bool :=
  (fenced && unitHeld s unit) || inReset s unit || ron s Reg.MTX_FENCE_M ⟨14, 1⟩

/-! ## TDM -/

/-- The BCLK limit of R106 and the other conditions under which MODE = 1 or 2 may be written (R106, R108, R110); raw
capture maps no channels. A NOM_HZ without ASRC = 1, which it requires, refuses the write too (DESIGN CHOICE, log entry
154). -/
def tdmFormatOk (s : State) (n mode : Nat) : Bool :=
  let slots := rget s (Reg.TDM_CTRL n) F.TDM_CTRL_SLOTS + 1
  let div := max 15 (rget s (Reg.TDM_DIV n) F.TDM_DIV_INT) * 2 ^ 24 + rget s (Reg.TDM_DIV n) F.TDM_DIV_FRAC
  let free := isMaster s n && !isGridMaster s n
  let rateOk := if free then decide (768000000 * 2 ^ 24 ≤ 49152000 * div)
    else decide (slots * 32 * ptNominal s n ≤ 49152000)
  let inM := (rd s (Reg.TDM_IN_MASK n)).toNat
  let outM := (rd s (Reg.TDM_OUT_MASK n)).toNat
  let asrc := ptAsrc s n
  let inCount := popBelow inM 32
  let outCount := popBelow outM 32
  rateOk && (!free || (asrc && outM == 0)) && (asrc || rget s (Reg.TDM_RATE n) F.TDM_RATE_NOM_HZ == 0) &&
    decide (inM < 2 ^ slots) && decide (outM < 2 ^ slots) &&
    (mode != 1 || inCount == 0 || asrc || decide (rget s (Reg.TDM_CHBASE n) F.TDM_CHBASE_IN_BASE + inCount ≤ channels s)) &&
    (mode != 1 || outCount == 0 || decide (rget s (Reg.TDM_CHBASE n) F.TDM_CHBASE_OUT_BASE + outCount ≤ channels s))

/-- A write of TDM_CTRL (R116, R119, R135): the fields other than MODE in OFF only, then MODE. -/
def writeTdmCtrl (s : State) (n : Nat) (w : Word) : State :=
  let old := rd s (Reg.TDM_CTRL n)
  let refused (s : State) : State := rset s (Reg.TDM_STAT n) F.TDM_STAT_REFUSED
  let new := (w &&& 0x001F0FFF) ||| (old &&& ~~~0x001F0FFF)
  let off := decide (ptState s n = ptOff)
  let s := if off then wr s (Reg.TDM_CTRL n) (fldPut F.TDM_CTRL_MODE (fldGet F.TDM_CTRL_MODE old) new)
    else if fldPut F.TDM_CTRL_MODE 0 new = fldPut F.TDM_CTRL_MODE 0 old then s else refused s
  let mode := fldGet F.TDM_CTRL_MODE w
  let fenced := ron s (Reg.TDM_STAT n) F.TDM_STAT_FENCED
  if portHeld s fenced (unitTdm n) then rset s Reg.FLT_STAT F.FLT_STAT_REFUSED
  else
    let s := rclr s (Reg.TDM_STAT n) F.TDM_STAT_FENCED
    if mode = 0 ∨ mode = 3 then rput (rxOff (portLeft s n) n) (Reg.TDM_CTRL n) F.TDM_CTRL_MODE mode
    else if !tdmFormatOk s n mode then refused s
    else
      let s := rput s (Reg.TDM_CTRL n) F.TDM_CTRL_MODE mode
      if off then setPtState s n ptQualifying else s

/-- A grid master waiting for its block boundary starts there (Table 03-3). -/
def startGridMaster (s : State) (n : Nat) : State :=
  if ptState s n = ptQualifying ∧ isGridMaster s n then
    let s := enterRunning s n
    setRx s n { rxAt s n with start := s.grid.index }
  else s

/-- The width of a TDM word in bits (R106). -/
def tdmWord (s : State) (n : Nat) : Nat :=
  match rget s (Reg.TDM_CTRL n) F.TDM_CTRL_WORD with
  | 0 => 16
  | 1 => 24
  | _ => 32

/-- Keep the upper `bits` bits of a word. -/
def upperBits (bits : Nat) (w : Word) : Word := BitVec.ofNat 32 (w.toNat / 2 ^ (32 - bits) * 2 ^ (32 - bits))

/-- The output slots of a frame that carries output sample `k` (R106, R110, R112): mapped slots take their channel's
sample, truncated to WORD bits; others are driven 0 or left high-impedance. -/
def outSlots (s : State) (n : Nat) (sample : Nat → Word) : List (Option Word) :=
  let mask := if rget s (Reg.TDM_CTRL n) F.TDM_CTRL_MODE = 1 then (rd s (Reg.TDM_OUT_MASK n)).toNat else 0
  let base := rget s (Reg.TDM_CHBASE n) F.TDM_CHBASE_OUT_BASE
  (List.range (rget s (Reg.TDM_CTRL n) F.TDM_CTRL_SLOTS + 1)).map (fun i =>
    if bitOf mask i then some (upperBits (tdmWord s n) (sample (base + popBelow mask i)))
    else if ron s (Reg.TDM_CTRL n) F.TDM_CTRL_TRI then none else some 0)

/-- Output sample `k` of a channel: position k mod BLK of bead floor(k / BLK) − 1, in the buffer playout reads in its
period (R112), or in the one before for an index of the period just ended. -/
def outSample (s : State) (k : Int) (c : Nat) : Word :=
  if !running s ∨ c ≥ channels s then 0
  else
    let back := (s.grid.index - beadOfIndex s k).toNat
    let b := (ordinal s + 7 - back % 4) % 4
    let j := (k % (blk s : Int)).toNat
    if fabError s 14 b c j = 0 then beadSample s b c j else 0

/-- Write a frame's selected slots to DRAM (R114, R115); LEN acts as written, above 16 MiB too (DESIGN CHOICE, log entry
155). -/
def rawFrame (s : State) (n : Nat) (slots : List Word) : State :=
  let ctl := Reg.TDM_RAW_CTRL n
  let pack := ron s ctl F.TDM_RAW_CTRL_PACK3
  let bytes := ((inSlots s n).map (fun i =>
    let v := (slots.getD i 0).toNat / 256
    if pack then toBytes 3 v else toBytes 4 (256 * v))).flatten
  let wptr := rget s (Reg.TDM_RAW_WPTR n) F.TDM_RAW_WPTR_WPTR
  let len := rget s (Reg.TDM_RAW_LEN n) F.TDM_RAW_LEN_LEN
  let base := 64 * rget s (Reg.TDM_RAW_BASE n) F.TDM_RAW_BASE_BASE
  let put (s : State) (pos : Nat) : State :=
    if dramError s 14 ((base + pos) / 4) ≠ 0 then noteDram s 14 ((base + pos) / 4)
    else
    let s := rput (drWriteBytes s (base + pos) bytes) (Reg.TDM_RAW_WPTR n) F.TDM_RAW_WPTR_WPTR (pos + bytes.length)
    rput s (Reg.TDM_RAW_FRAMES n) F.TDM_RAW_FRAMES_FRAMES (rget s (Reg.TDM_RAW_FRAMES n) F.TDM_RAW_FRAMES_FRAMES + 1)
  if wptr + bytes.length ≤ len then put s wptr
  else if ron s ctl F.TDM_RAW_CTRL_WRAP then put s 0
  else
    let s := setRx s n { rxAt s n with rawArmed := false }
    raise (rset s (Reg.TDM_STAT n) F.TDM_STAT_RAW_FULL) (0x143 + 4 * n) n 0

/-- How a port's frame leaves on the wire (R106). -/
def tdmWave (s : State) (n : Nat) : TdmWave :=
  let a := Reg.TDM_CTRL n
  let half := 16 * (rget s a F.TDM_CTRL_SLOTS + 1)
  ⟨ron s a F.TDM_CTRL_DLY1, if !isMaster s n then 0 else if ron s a F.TDM_CTRL_FSW then half else 1,
    ron s a F.TDM_CTRL_FS_POL, ron s a F.TDM_CTRL_BCLK_EDGE⟩

/-- Feed every selected slot to the direct routes as it is received (R113, R222). -/
def feedDirect (s : State) (n : Nat) (slots : List Word) : State :=
  ((List.range slots.length).foldl (fun s i => directSample s 0 n i (slots.getD i 0)) s)

/-- A frame received in RUNNING, `slots` holding its slots' 32 bits: an input word is the slot's upper bits (R106), raw
capture stores the slot's upper 24 (R115), and the direct routes take it in normal service (R222). A follower in MODE 2 drives
its output slots with its last output frame, or as unselected ones where it has none (DESIGN CHOICE, log entry 153). -/
def tdmRunningFrame (s : State) (n : Nat) (pos : Int) (good short : Bool) (slots : List Word) : State :=
  let raw := decide (rget s (Reg.TDM_CTRL n) F.TDM_CTRL_MODE = 2)
  let words := slots.map (upperBits (tdmWord s n))
  let s := if good && !raw then feedDirect s n words else s
  let s := if raw && good && (rxAt s n).rawArmed then rawFrame s n slots else s
  let (s, k) := if raw then (s, none) else if ptAsrc s n then freeIndex s n pos else indexFrame s n pos
  let s := match k with
    | none => s
    | some k => if ptAsrc s n then s
      else placeSamples s n k (if good then (inSlots s n).map (fun i => some (words.getD i 0)) else [])
  let s := if isMaster s n then s
    else
      let out := match k with
        | none => if (rxAt s n).outLast.isEmpty then outSlots s n (fun _ => 0) else (rxAt s n).outLast
        | some k => outSlots s n (outSample s (k - 3))
      sendOut (setRx s n { rxAt s n with outLast := out }) (.tdmFrame n (tdmWave s n) out)
  let s := if good then s else setRx (misframe s n) n { rxAt (misframe s n) n with skip := short }
  noteFrame s n (!good)

/-- A frame received in QUALIFYING by a port that measures: only its misframes count (R116, R117). -/
def tdmQualifyingFrame (s : State) (n : Nat) (good short : Bool) : State :=
  if good || isGridMaster s n then s else setRx (misframe s n) n { rxAt (misframe s n) n with skip := short }

/-! ## Commands -/

/-- A write of TDM_CTRL with its MODE (R116). -/
def hostTdmModeWrite (n : Fin 16) (w : Word) (s : State) : State :=
  writeTdmCtrl s n w

/-- The access itself, through the bus matrix. -/
def execTdmModeWrite (n : Fin 16) (w : Word) (s : State) : Out := onBar s (Reg.TDM_CTRL n) (fun s => hostTdmModeWrite n w s)

/-- A master port starts a frame and sends output sample `j` of its bead (R107, R108, R112). -/
def execTdmMasterFrameStart (n : Fin 16) (j : Fin 32) (s : State) : Out :=
  onHost s (fun s =>
    if ptState s n = ptRunning ∧ isMaster s n ∧ j.val < blk s then
      sendOut s (.tdmFrame n (tdmWave s n) (outSlots s n (outSample s (s.grid.index * (blk s : Int) + (j.val : Int)))))
    else s)

/-- A TDM frame that began at grid position `pos`, with the BCLK periods to the next FSYNC leading edge and the 32 bits of
each of its slots, where DLY1, FS_POL and BCLK_EDGE place them (R106, R111, R117). -/
def execTdmFrameReceive (n : Fin 16) (pos : Int) (bclks : Nat) (slots : List Word) (s : State) : Out :=
  onHost s (fun s =>
    let nominal := (rget s (Reg.TDM_CTRL n) F.TDM_CTRL_SLOTS + 1) * 32
    let good := bclks == nominal
    let short := decide (bclks < nominal)
    if ptState s n = ptLost then wakeLost s n
    else if ptState s n = ptOff then s
    else if (rxAt s n).skip then setRx s n { rxAt s n with skip := false }
    else if ptState s n = ptQualifying then tdmQualifyingFrame s n good short
    else tdmRunningFrame s n pos good short slots)

/-- A write of TDM_RAW_CTRL; ARM clears the pointers and arms capture (R114). -/
def hostTdmRawArm (n : Fin 16) (w : Word) (s : State) : State :=
  let s := rwrite s (Reg.TDM_RAW_CTRL n) w
  if fldGet F.TDM_RAW_CTRL_ARM w = 1 then
    let s := rclr (rclr s (Reg.TDM_RAW_WPTR n) F.TDM_RAW_WPTR_WPTR) (Reg.TDM_RAW_FRAMES n) F.TDM_RAW_FRAMES_FRAMES
    setRx s n { rxAt s n with rawArmed := true }
  else s

/-- The access itself, through the bus matrix. -/
def execTdmRawArm (n : Fin 16) (w : Word) (s : State) : Out := onBar s (Reg.TDM_RAW_CTRL n) (fun s => hostTdmRawArm n w s)

/-- ASRC_RANGE in 0.1 ppm units; above 125 acts as 125. -/
def asrcRange (s : State) : Nat := min 125 (rget s Reg.FAB_PORTLIM F.FAB_PORTLIM_ASRC_RANGE) * 10000

/-- ACCEPT and REJECT in 0.1 ppm units (R116): REJECT below ACCEPT acts as ACCEPT; with the ASRC both act as ASRC_RANGE. -/
def portAccept (s : State) (p : Nat) : Nat :=
  if ptAsrc s p then asrcRange s else 10 * rget s Reg.FAB_PORTLIM F.FAB_PORTLIM_ACCEPT
def portReject (s : State) (p : Nat) : Nat :=
  if ptAsrc s p then asrcRange s
  else 10 * max (rget s Reg.FAB_PORTLIM F.FAB_PORTLIM_ACCEPT) (rget s Reg.FAB_PORTLIM F.FAB_PORTLIM_REJECT)

/-- The gates of 10 ms that qualification lasts; QUAL = 0 acts as 1 (R116, R134). -/
def qualGates (s : State) : Nat := max 1 (rget s Reg.FAB_PORTLIM F.FAB_PORTLIM_QUAL)

/-- A follower, receiver or free-running master that has met the conditions for QUAL gates without a break enters RUNNING
(Table 03-3). -/
def execPortQualified (p : Fin 32) (s : State) : Out :=
  onHost s (fun s =>
    if ptState s p = ptQualifying ∧ !isGridMaster s p ∧ qualGates s ≤ (rxAt s p).gates then enterRunning s p else s)

/-- No edge or valid preamble for two frame periods (Table 03-3); a master makes its own clocks. A receiver loses LOCK
in any state (R124), and a qualification begins again (R116). -/
def execPortClockLost (p : Fin 32) (s : State) : Out :=
  onHost s (fun s =>
    let s := if isTdm p then s
      else
        let s := setRx s p { rxAt s p with good := 0 }
        followLock (rclr s (Reg.BPH_RX_STAT (p.val - 16)) F.BPH_RX_STAT_LOCK) (p.val - 16)
    if isMaster s p then s
    else if ptState s p = ptRunning then
      if isTdm p then dropOut (radd s (Reg.TDM_ERRCNT p) F.TDM_ERRCNT_LOST 1) p ptLost (0x140 + 4 * p.val)
      else dropOut s p ptLost (0x180 + (p.val - 16))
    else setRx s p { rxAt s p with gates := 0 })

/-- A port's 10 ms gate ends with an offset in 0.1 ppm (R109, R116, R120, R131). -/
def execPortFrequencyGate (p : Fin 32) (offset : Int) (s : State) : Out :=
  onHost s (fun s =>
    let st := ptState s p
    if (st = ptRunning ∨ st = ptQualifying) ∧ !isGridMaster s p then
      let s := rputI s (ptFofs p) F.TDM_FOFS_FOFS offset
      let beyond := decide (offset.natAbs > portReject s p)
      let met := decide (offset.natAbs ≤ portAccept s p)
      let s := setRx s p { rxAt s p with gates := if met then (rxAt s p).gates + 1 else 0 }
      let s := if ptAsrc s p && st == ptRunning then
          let ratio := (ptNominal s p : Int) * (10000000 + offset) * 2 ^ 30 / (10000000 * (fsHz s : Int))
          rput s (Reg.ASRC_RATIO p) F.ASRC_RATIO_RATIO (min ratio.toNat (2 ^ 32 - 1))
        else s
      if beyond && st == ptRunning then
        let s := if ptAsrc s p then raise (rset s (Reg.ASRC_STAT p) F.ASRC_STAT_RANGE_ERR) 0x1B1 noInst 0 else s
        dropOut s p ptQualifying (windowSource p)
      else s
    else s)

/-- Whether a membership word satisfies R121. -/
def groupOk (s : State) (g : Nat) (w : Word) : Bool :=
  let mem := (List.range 32).filter (fun p => bitOf w.toNat p)
  let rates := mem.map (ptNominal s)
  mem.all (fun p => !ptAsrc s p && !isMaster s p) && rates.all (fun r => r == rates.headD 0) &&
    (List.range 8).all (fun h => h == g || rd s (Reg.FAB_AGRP_MEM h) &&& w == 0)

/-- A write of a group's membership, applied or refused whole (R121, R123). -/
def writeAgrpMem (s : State) (g : Nat) (w : Word) : State :=
  if !groupOk s g w then rset s Reg.FAB_STAT F.FAB_STAT_GRP_REFUSED
  else
    let old := (rd s (Reg.FAB_AGRP_MEM g)).toNat
    let joined := (List.range 32).filter (fun p => bitOf w.toNat p && !bitOf old p)
    let s := forEach joined s (fun s p => setRx s p { rxAt s p with been := false })
    refreshGroup (wr s (Reg.FAB_AGRP_MEM g) w) g

/-- A write of a group's membership. -/
def hostFabAgrpMemWrite (g : Fin 8) (w : Word) (s : State) : State :=
  writeAgrpMem s g w

/-- The access itself, through the bus matrix. -/
def execFabAgrpMemWrite (g : Fin 8) (w : Word) (s : State) : Out := onBar s (Reg.FAB_AGRP_MEM g) (fun s => hostFabAgrpMemWrite g w s)

/-! ## Biphase receivers -/

/-- A write of BPH_RX_CTRL (R116, R124, R136). EN is ignored where NOM_HZ is set without ASRC = 1 (DESIGN CHOICE, log entry
154). -/
def writeBphRxCtrl (s : State) (n : Nat) (w : Word) : State :=
  let a := Reg.BPH_RX_CTRL n
  let p := 16 + n
  let off := decide (ptState s p = ptOff)
  let s := if off then wr s a (fldPut F.BPH_RX_CTRL_EN (rget s a F.BPH_RX_CTRL_EN) (w &&& 0x03FF0007)) else s
  if portHeld s (rxAt s p).fenced (unitBph n) then rset s Reg.FLT_STAT F.FLT_STAT_REFUSED
  else
    let s := setRx s p { rxAt s p with fenced := false }
    if fldGet F.BPH_RX_CTRL_EN w = 0 then rclr (followLock (rxOff (portLeft s p) p) n) a F.BPH_RX_CTRL_EN
    else if rget s a F.BPH_RX_CTRL_CH_BASE > 1022 ∨ (!ptAsrc s p ∧ rget s (Reg.BPH_RX_RATE n) F.BPH_RX_RATE_NOM_HZ ≠ 0) then s
    else
      let s := rset s a F.BPH_RX_CTRL_EN
      if off then setPtState s p ptQualifying else s

/-- A channel's status and user blocks with nothing received. -/
def csReset (_ : Nat) : CsBlock := ⟨0, 0, 0, false, false, 0, 0⟩

/-- One step of the CRCC of R127: polynomial x^8 + x^4 + x^3 + x^2 + 1. -/
def crccStep (c : Nat) (bit : Bool) : Nat :=
  let top := bitOf c 7 != bit
  let c := (2 * c) % 256
  if top then c ^^^ 0x1D else c

/-- The CRCC over bytes 0 to 22 in the order received, initial value 0xFF, as byte 23 holds it (R127; log entry 14). -/
def crcc (block : Nat) : Nat :=
  let c := (List.range 184).foldl (fun c i => crccStep c (bitOf block i)) 0xFF
  (List.range 8).foldl (fun acc i => acc + b2n (bitOf c (7 - i)) * 2 ^ i) 0

/-- Store 24 bytes in the six words of an array. -/
def putArray (s : State) (at' : Nat → Nat) (v : Nat) : State :=
  (List.range 6).foldl (fun s j => wr s (at' j) (BitVec.ofNat 32 (v / 2 ^ (32 * j)))) s

/-- The 24 bytes of an array's six words. -/
def getArray (s : State) (at' : Nat → Nat) : Nat :=
  (List.range 6).foldl (fun acc j => acc + (rd s (at' j)).toNat * 2 ^ (32 * j)) 0

/-- Close a channel's block at a Z preamble (R127). -/
def closeBlock (s : State) (n ch : Nat) : State :=
  let key := 2 * n + ch
  let c := mapGet csReset s.cs key
  let fresh : CsBlock := ⟨0, 0, 0, false, true, c.latchedCs, c.latchedUser⟩
  let put (s : State) (c : CsBlock) : State := { s with cs := mapSet csReset s.cs key c }
  if !c.open' || c.count != 192 || c.bad then put s fresh
  else if bitOf c.cs 0 && crcc c.cs != bitsOf c.cs 184 8 then
  raise (rset (put s fresh) (Reg.BPH_RX_STAT n) F.BPH_RX_STAT_CRCC_ERR) (0x190 + n) n 0
  else
  let s := put s { fresh with latchedCs := c.cs, latchedUser := c.user }
  let s := if ch = 0 then rbit s (Reg.BPH_RX_STAT n) F.BPH_RX_STAT_PRO (bitOf c.cs 0) else s
  let s := rput s (Reg.BPH_RX_CSSEQ n) F.BPH_RX_CSSEQ_SEQ (rget s (Reg.BPH_RX_CSSEQ n) F.BPH_RX_CSSEQ_SEQ + 1)
  rset s (Reg.BPH_RX_STAT n) F.BPH_RX_STAT_CS_NEW

/-- Take one subframe's status and user bits (R127). -/
def takeBits (s : State) (n ch : Nat) (f : Subframe) : State :=
  let key := 2 * n + ch
  let c := mapGet csReset s.cs key
  if !c.open' then s
  else
  let c := { c with cs := c.cs + b2n f.c * 2 ^ c.count, user := c.user + b2n f.u * 2 ^ c.count }
  { s with cs := mapSet csReset s.cs key { c with count := c.count + 1, bad := c.bad || f.coding || f.parity } }

/-- The errors of a subframe (R125, R126). The answer says whether its sample is used. -/
def judgeSubframe (s : State) (n : Nat) (f : Subframe) : State × Bool :=
  let a := Reg.BPH_RX_STAT n
  let err := f.coding || f.parity
  let s := if f.coding then rset s a F.BPH_RX_STAT_CODE_ERR else s
  let s := if f.parity then rset s a F.BPH_RX_STAT_PARITY_ERR else s
  let s := if err then raise (radd s (Reg.BPH_RX_ERRCNT n) F.BPH_RX_ERRCNT_ERR 1) (0x190 + n) n 0 else s
  let s := if f.v then rset s a F.BPH_RX_STAT_V_SEEN else s
  (s, !err && !(f.v && ron s (Reg.BPH_RX_CTRL n) F.BPH_RX_CTRL_VAL_ACT))

/-- A received biphase frame in QUALIFYING or RUNNING; a misframe counts in either (R117). -/
def bphFrame (s : State) (n : Nat) (pos : Int) (z mis : Bool) (a b : Subframe) : State :=
  let p := 16 + n
  let x := rxAt s p
  let good := if mis then 0 else x.good + 1
  let s := setRx s p { x with good := good }
  let s := if good ≥ 8 then followLock (rset s (Reg.BPH_RX_STAT n) F.BPH_RX_STAT_LOCK) n else s
  let s := if z then closeBlock (closeBlock s n 0) n 1 else s
  let s := if mis then s else takeBits (takeBits s n 0 a) n 1 b
  let (s, okA) := if mis then (s, false) else judgeSubframe s n a
  let (s, okB) := if mis then (s, false) else judgeSubframe s n b
  if ptState s p ≠ ptRunning then (if mis then misframe s p else s)
  else
  let word (f : Subframe) : Word := BitVec.ofNat 32 (256 * f.sample.toNat)
  let s := if okA then directSample s 1 n 0 (word a) else s
  let s := if okB then directSample s 1 n 1 (word b) else s
  let s := if ptAsrc s p then s
    else
      let (s, k) := indexFrame s p pos
      match k with
      | none => s
      | some k => placeSamples s p k [if okA then some (word a) else none, if okB then some (word b) else none]
  noteFrame (if mis then misframe s p else s) p mis

/-- A biphase frame whose first preamble began at grid position `pos`: a Z preamble or not, a preamble out of its place,
and its subframes (R117, R124 to R127). The frame whose valid preamble takes a LOST receiver to QUALIFYING is received
(Table 03-3). -/
def execBphRxFrame (n : Fin 16) (pos : Int) (z misframe : Bool) (a b : Subframe) (s : State) : Out :=
  onHost s (fun s =>
  let st := ptState s (16 + n.val)
  if st = ptOff then s
  else if st = ptLost ∧ misframe then s
  else bphFrame (wakeLost s (16 + n.val)) n pos z misframe a b)

/-- Reading BPH_RX_CSSEQ copies the latched blocks into the readable arrays (R127). -/
def hostBphRxCsseqRead (n : Fin 16) (s : State) : State :=
  let a := mapGet csReset s.cs (2 * n.val)
  let b := mapGet csReset s.cs (2 * n.val + 1)
  let s := putArray (putArray s (Reg.BPH_RX_CS_A n) a.latchedCs) (Reg.BPH_RX_CS_B n) b.latchedCs
  putArray (putArray s (Reg.BPH_RX_U_A n) a.latchedUser) (Reg.BPH_RX_U_B n) b.latchedUser

/-- The access itself, through the bus matrix. -/
def execBphRxCsseqRead (n : Fin 16) (s : State) : Out := onBar s (Reg.BPH_RX_CSSEQ n) (fun s => hostBphRxCsseqRead n s)
/-! ## Biphase transmitters -/

/-- A write of BPH_TX_CTRL (R128, R136). -/
def writeBphTxCtrl (s : State) (n : Nat) (w : Word) : State :=
  let a := Reg.BPH_TX_CTRL n
  let en := rget s a F.BPH_TX_CTRL_EN
  let s := wr s a (fldPut F.BPH_TX_CTRL_EN en (w &&& 0x03FF000F))
  if portHeld s (ron s (Reg.BPH_TX_STAT n) F.BPH_TX_STAT_FENCED) (unitBph n) then rset s Reg.FLT_STAT F.FLT_STAT_REFUSED
  else
    let s := rclr s (Reg.BPH_TX_STAT n) F.BPH_TX_STAT_FENCED
    if fldGet F.BPH_TX_CTRL_EN w = 0 then rclr (txOff s n) a F.BPH_TX_CTRL_EN
    else if rget s a F.BPH_TX_CTRL_CH_BASE > 1022 then s
    else if ron s (Reg.BPH_TX_STAT n) F.BPH_TX_STAT_RUNNING then rset s a F.BPH_TX_CTRL_EN
    else
      let s := setTx s n { txAt s n with frame := 0 }
      rset (rset s a F.BPH_TX_CTRL_EN) (Reg.BPH_TX_STAT n) F.BPH_TX_STAT_RUNNING

/-- A write of BPH_TX_CTRL. -/
def hostBphTxEnWrite (n : Fin 16) (w : Word) (s : State) : State :=
  writeBphTxCtrl s n w

/-- The access itself, through the bus matrix. -/
def execBphTxEnWrite (n : Fin 16) (w : Word) (s : State) : Out := onBar s (Reg.BPH_TX_CTRL n) (fun s => hostBphTxEnWrite n w s)

/-- Time slots 4 to 31 of a subframe: the sample's upper 24 bits, V, U, C and even parity (R129). -/
def txSubframe (sample : Word) (v u c : Bool) : Nat :=
  let x := sample.toNat / 256 + b2n v * 2 ^ 24 + b2n u * 2 ^ 25 + b2n c * 2 ^ 26
  x + popBelow x 27 % 2 * 2 ^ 27

/-- The validity bit of a subframe (R129). -/
def txValidity (s : State) (n ch : Nat) : Bool :=
  match rget s (Reg.BPH_TX_CTRL n) F.BPH_TX_CTRL_V_SRC with
  | 1 => false
  | 2 => true
  | _ => (beadAt s (readBuf s) ch).tag != 0

/-- A transmitter's frame that carries position `j` of the bead playout reads (R112, R128, R129). -/
def txFrame (s : State) (n j : Nat) : State :=
  let z := (txAt s n).frame == 0
  let s := if z && ron s (Reg.BPH_TX_STAT n) F.BPH_TX_STAT_CS_PEND then
      let live := [getArray s (Reg.BPH_TX_CS_A n), getArray s (Reg.BPH_TX_CS_B n), getArray s (Reg.BPH_TX_U_A n),
        getArray s (Reg.BPH_TX_U_B n)]
      rclr (setTx s n { txAt s n with live := live }) (Reg.BPH_TX_STAT n) F.BPH_TX_STAT_CS_PEND
    else s
  let x := txAt s n
  let base := rget s (Reg.BPH_TX_CTRL n) F.BPH_TX_CTRL_CH_BASE
  let auto := ron s (Reg.BPH_TX_CTRL n) F.BPH_TX_CTRL_CRCC_AUTO
  let status (i : Nat) : Nat :=
    let c := x.live.getD i 0
    if auto && bitOf c 0 then c % 2 ^ 184 + crcc c * 2 ^ 184 else c
  let sub (i : Nat) : Nat :=
    txSubframe (outSample s (s.grid.index * (blk s : Int) + (j : Int)) (base + i)) (txValidity s n (base + i))
      (bitOf (x.live.getD (2 + i) 0) x.frame) (bitOf (status i) x.frame)
  sendOut (setTx s n { x with frame := (x.frame + 1) % 192 }) (.bphFrame n z (sub 0) (sub 1))

/-- A transmitter sends the frame of sample position `j` (R128). -/
def execBphTxFrame (n : Fin 16) (j : Fin 32) (s : State) : Out :=
  onHost s (fun s =>
    if ron s (Reg.BPH_TX_STAT n) F.BPH_TX_STAT_RUNNING ∧ j.val < blk s then txFrame s n j else s)

/-- Writing BPH_TX_CSGO.GO asks for a copy at the next Z preamble (R129). -/
def hostBphTxCsgo (n : Fin 16) (w : Word) (s : State) : State :=
  if fldGet F.BPH_TX_CSGO_GO w = 1 then rset s (Reg.BPH_TX_STAT n) F.BPH_TX_STAT_CS_PEND else s

/-- The access itself, through the bus matrix. -/
def execBphTxCsgo (n : Fin 16) (w : Word) (s : State) : Out := onBar s (Reg.BPH_TX_CSGO n) (fun s => hostBphTxCsgo n w s)

/-! ## The ASRC pool (R130 to R132) -/

/-- A port's ratio estimator settles with a ratio in Q2.30, or a rate step clears LOCK (R131). -/
def execAsrcLock (p : Fin 32) (settled : Bool) (ratio : Word) (s : State) : Out :=
  onHost s (fun s =>
    if settled then
      if ptState s p = ptRunning ∧ ptAsrc s p then
        wr (rset s (Reg.ASRC_STAT p) F.ASRC_STAT_LOCK) (Reg.ASRC_RATIO p) ratio
      else s
    else if ron s (Reg.ASRC_STAT p) F.ASRC_STAT_LOCK then
      raise (rclr s (Reg.ASRC_STAT p) F.ASRC_STAT_LOCK) 0x1B0 noInst 0
    else s)

/-- The ASRC channels' settings take effect at a block boundary (R130). -/
def latchAsrc (s : State) : State :=
  { s with asrcLive := (List.range 64).foldl (fun m k => mapSet (fun _ => (0 : Word)) m k (rd s (Reg.ASRC_CH k))) s.asrcLive }

/-- An active ASRC channel whose port runs with its estimator settled writes a bead; R132 gives its samples typical
figures only, so they are free values (log entry 2). -/
def asrcBead (s : State) (k : Nat) : State :=
  let w := mapGet (fun _ => (0 : Word)) s.asrcLive k
  let p := fldGet F.ASRC_CH_PORT w + 16 * fldGet F.ASRC_CH_SRC w
  if fldGet F.ASRC_CH_EN w = 1 ∧ ron s (Reg.ASRC_STAT p) F.ASRC_STAT_LOCK ∧ ptState s p = ptRunning ∧ ptAsrc s p then
    (List.range (blk s)).foldl (fun s j =>
      let (v, s) := takeFree s 32
      fabWrite s clAsrc k (fldGet F.ASRC_CH_CH w) j v false) s
  else s

/-- What the ports and the ASRC pool still write before a boundary (R113, R130). -/
def finishPorts (s : State) : State :=
  let s := (List.range 32).foldl fillDeadline s
  if running s then (List.range 64).foldl asrcBead s else s

/-- What the ports do at the start of a block (Table 03-3, R113, R130). -/
def beginPorts (s : State) : State :=
  let s := (List.range 16).foldl startGridMaster s
  latchAsrc ((List.range 32).foldl placeEarly s)

end Sys2Proof.Machine
end

