-- ==== Sys2Proof/Machine/RegWrite.lean ====
section
/-! DEFINITION. What a write of a BAR0 register brings about where the register has a behaviour that both the host's and
a tally's writes share (R116, R121, R171, R223, R249, R291, R317). -/

namespace Sys2Proof.Machine
open Sys2Proof

/-- A write of MIX_CTRL: DR_EN engages and disengages routes (R223). -/
def writeMixCtrl (s : State) (w : Word) : State :=
  let s := rwrite s Reg.MIX_CTRL w
  forEach (enabledEntries s P.MIX_DR_EN) s evalRoute

/-- The registers with a shared behaviour: the address and what a write of it does; none for any other register. -/
def sharedWrite (a : Nat) : Option (State → Word → State) :=
  let at' (f : Nat → Nat) (n : Nat) : Option Nat := (List.range n).find? (fun i => f i == a)
  if a = Reg.MIX_CTRL then some writeMixCtrl
  else if a = Reg.STR_CTRL then some writeStrCtrl
  else if a = Reg.NET_PTP_CTRL ∨ (Reg.NET_PTP_PORT 0 ≤ a ∧ a < 0x18000 ∧ a % 0x1000 = 0x400) then
    some (fun s w => afterPtpWrite (rwrite s a w))
  else if 0x10040 ≤ a ∧ a < 0x18000 ∧ a % 0x1000 < 0xC0 ∧ 0x40 ≤ a % 0x1000 then
    some (fun s w => writeNetQueue s a w)
  else match at' Reg.TDM_CTRL 16 with
  | some n => some (fun s w => writeTdmCtrl s n w)
  | none => match at' Reg.BPH_RX_CTRL 16 with
  | some n => some (fun s w => writeBphRxCtrl s n w)
  | none => match at' Reg.BPH_TX_CTRL 16 with
  | some n => some (fun s w => writeBphTxCtrl s n w)
  | none => match at' Reg.FAB_AGRP_MEM 8 with
  | some g => some (fun s w => writeAgrpMem s g w)
  | none => match at' Reg.NET_CTRL 8 with
  | some p => some (fun s w => writeNetCtrl s p w)
  | none => none

/-- A tally's write of a register at its boundary: the bits its mask covers take their data (R251, R257); the block
of an absent die ignores it (R3). -/
def tallyRegWrite (s : State) (a : Nat) (mask data : Word) : State :=
  let w := (rd s a &&& ~~~mask) ||| (data &&& mask)
  if absentBlock s a then s
  else if Reg.FAB_OWNER 0 ≤ a ∧ a < Reg.FAB_OWNER 1024 then setOwner s ((a - Reg.FAB_OWNER 0) / 4) w
  else match (List.range 64).find? (fun g => rodReg Reg.ROD_CTRL g == a) with
  | some g => setRodEn s g (fldGet F.ROD_CTRL_EN w == 1)
  | none => match sharedWrite a with
  | some f => f s w
  | none => wr s a w

end Sys2Proof.Machine
end

