-- ==== Sys2Proof/Machine/TallyOps.lean ====
section
/-! DEFINITION. What tallies hold and what they may do: the checks of a record, the projected state and its validation,
their field records, and the lead (R248 to R254, R262, R100, R465, R567). -/

namespace Sys2Proof.Machine
open Sys2Proof

/-! ## Records (R248 to R250, Table 12-8) -/

/-- The KIND 0 target's register, the parts of a KIND 1 target, a KIND 2 target and a KIND 3 target. -/
def recOffset (t : Nat) : Nat := bitsOf t 0 20
def recTable (t : Nat) : Nat := bitsOf t 32 16
def recEntry (t : Nat) : Nat := bitsOf t 8 16
def recWord (t : Nat) : Nat := bitsOf t 0 8
def recFrame (t : Nat) : Nat := bitsOf t 32 3
def recFrameWord (t : Nat) : Nat := bitsOf t 0 19
def recDie (t : Nat) : Die := if bitsOf t 32 1 = 0 then .a else .b
def recAddr (t : Nat) : Nat := bitsOf t 0 16

/-- The bits of a BAR0 register that a KIND 0 record may set in its mask (R249). -/
def tallyMask (s : State) (a : Nat) : Word :=
  let locked := ron s Reg.SYS_LOCK F.SYS_LOCK_LOCK
  let codes : List AccessCode := if locked then [.rw] else [.rw, .rwl]
  match hostRow a with
  | none => 0
  | some r =>
    let all := accessMask r.fields codes
    let one (f : Fld) : Word := all &&& fldPut f (2 ^ f.width - 1) 0
    if Reg.FAB_OWNER 0 ≤ a ∧ a < Reg.FAB_OWNER 1024 then 0xFFFF
    else if 0x28000 ≤ a ∧ a < 0x30000 then all
    else if 0x38000 ≤ a ∧ a < 0x40000 then all
    else if (List.range 16).any (fun n => Reg.TDM_CTRL n == a) then one F.TDM_CTRL_MODE
    else if (List.range 16).any (fun n => Reg.BPH_RX_CTRL n == a) then one F.BPH_RX_CTRL_EN
    else if (List.range 16).any (fun n => Reg.BPH_TX_CTRL n == a) then one F.BPH_TX_CTRL_EN
    else if (List.range 64).any (fun k => Reg.ASRC_CH k == a) then all
    else if (List.range 64).any (fun g => rodReg Reg.ROD_CTRL g == a) then one F.ROD_CTRL_EN
    else if (List.range 64).any (fun g => rodReg Reg.ROD_WARN g == a) then all
    else if Reg.BAR_CHMAP 0 0 ≤ a ∧ a < Reg.BAR_CHMAP 0 32 then all
    else if Reg.BAR_CHMAP 1 0 ≤ a ∧ a < Reg.BAR_CHMAP 1 32 then all
    else if 0x10000 ≤ a ∧ a < 0x18000 ∧ 0x40 ≤ a % 0x1000 ∧ a % 0x1000 < 0xC0 then all
    else 0

/-- The target uses no bit outside its kind's layout (Table 12-8). -/
def targetClean (r : TallyRec) : Bool :=
  match r.kind with
  | 0 => decide (r.target < 2 ^ 20)
  | 1 => r.target &&& (0xFFFF00FFFFFF : Nat) == r.target
  | 2 => r.target &&& (0x70007FFFF : Nat) == r.target
  | 3 => r.target &&& (0x10000FFFF : Nat) == r.target
  | 4 => r.target == 0
  | _ => false

/-- A record satisfies Table 07-2 and R249. -/
def recordOk (s : State) (r : TallyRec) : Bool :=
  targetClean r &&
  match r.kind with
  | 0 => recOffset r.target % 4 == 0 && within r.mask (tallyMask s (recOffset r.target)) && (hostRow (recOffset r.target)).isSome
  | 1 => paramExists (recTable r.target) (recEntry r.target) (recWord r.target)
  | 2 => true
  | 3 =>
    diePresent s (recDie r.target) &&
    match findRow fieldRows (recAddr r.target) with
    | none => false
    | some row => within r.mask (accessMask row.fields [.rw, .w1c])
  | 4 => r.mask == BitVec.allOnes 32
  | _ => false

/-- The record at place `i` of a buffer (Table 12-8). -/
def readRecord (bs : List Byte) (i : Nat) : TallyRec :=
  let t := leAt bs (16 * i) 8
  ⟨t / 2 ^ 60, t % 2 ^ 60, BitVec.ofNat 32 (leAt bs (16 * i + 8) 4), BitVec.ofNat 32 (leAt bs (16 * i + 12) 4), false, 0⟩

/-- The records of one kind, those that reach one word merged into one: each bit takes the data of the last record
whose mask covers it (R251). -/
def mergeKind (k : Nat) (rs : List TallyRec) : List TallyRec :=
  (rs.filter (fun r => r.kind == k)).foldl (fun acc r =>
    if acc.any (fun a => a.target == r.target) then
      acc.map (fun a => if a.target = r.target then
        { a with mask := a.mask ||| r.mask, data := (a.data &&& ~~~r.mask) ||| (r.data &&& r.mask) } else a)
    else acc ++ [r]) []

/-- The frame words a tally writes, as frame and word in one number. -/
def frameWordsOf (rs : List TallyRec) : List Nat :=
  (mergeKind 2 rs).map (fun r => recFrame r.target * frameWords + recFrameWord r.target)

/-- KIND 3 records of a die. -/
def fieldRecords (rs : List TallyRec) (d : Die) : List TallyRec :=
  rs.filter (fun r => r.kind == 3 && recDie r.target == d)

/-! ## The projected state (R254) -/

/-- The epoch after a tally applies (R31, R257). -/
def epochAfter (s : State) (rs : List TallyRec) : Nat :=
  match (rs.filter (fun r => r.kind == 4)).getLast? with
  | some r => r.data.toNat
  | none => rget s Reg.SYS_EPOCH F.SYS_EPOCH_EPOCH + 1

/-- A tally's settings in a projected state: its words hold its data and nothing else happens. -/
def projectTally (s : State) (rs : List TallyRec) : State :=
  let s := forEach (mergeKind 0 rs) s (fun s r =>
    let a := recOffset r.target
    wr s a ((rd s a &&& ~~~r.mask) ||| (r.data &&& r.mask)))
  let s := forEach (mergeKind 1 rs) s (fun s r =>
    writePword s (recTable r.target) (recEntry r.target) (recWord r.target) r.mask r.data)
  rput s Reg.SYS_EPOCH F.SYS_EPOCH_EPOCH (epochAfter s rs)

/-- The instances of a producer class (Table 03-1); none for a reserved class. -/
def classSize (cls : Nat) : Nat :=
  ([1, 16, 16, 64, 512, 64, 256, 2048, 1, 128] : List Nat).getD cls 0

/-- The channels whose FAB_OWNER entry a tally writes. -/
def ownersWritten (rs : List TallyRec) : List Nat :=
  (mergeKind 0 rs).filterMap (fun r =>
    let a := recOffset r.target
    if Reg.FAB_OWNER 0 ≤ a ∧ a < Reg.FAB_OWNER 1024 then some ((a - Reg.FAB_OWNER 0) / 4) else none)

/-- The values an entry takes record by record. -/
def ownerSteps (w : Word) (a : Nat) : List TallyRec → List Word
  | [] => []
  | r :: rs =>
    if r.kind = 0 ∧ recOffset r.target = a then
      let w := (w &&& ~~~r.mask) ||| (r.data &&& r.mask)
      w :: ownerSteps w a rs
    else ownerSteps w a rs

/-- A tally's ownership changes satisfy R100; `s0` is the state before it and `s1` the state after it. -/
def ownersOk (s0 s1 : State) (rs : List TallyRec) : Bool :=
  (ownersWritten rs).all (fun c =>
    let a := Reg.FAB_OWNER c
    let cls (w : Word) : Nat := fldGet F.FAB_OWNER_CLASS w
    let old := rd s0 a
    let new := rd s1 a
    decide (fldGet F.FAB_OWNER_INST new < classSize (cls new)) &&
      (cls new == 0 || (decide (c < channels s1) &&
        (cls old == 0 || old == new || (ownerSteps old a rs).any (fun w => cls w == 0)))))

/-- The STK_MAP entries satisfy R465. -/
def mapsOk (s : State) : Bool :=
  let es := enabledEntries s P.STK_MAP_EN
  es.all (fun c => owns s clStack 0 c && pget s P.STK_MAP_SRC c / 1024 != myId s &&
    decide (pget s P.STK_MAP_SRC c % 1024 < channels s)) &&
    decide (es.length ≤ if fsHz s = 192000 then 256 else 512)

/-- The BAR_CHMAP words a tally writes name usable channels (R567), and its alignment groups satisfy R121. -/
def wordsOk (s : State) (rs : List TallyRec) : Bool :=
  (mergeKind 0 rs).all (fun r =>
    let a := recOffset r.target
    let w := rd s a
    (!(decide (0x48000 ≤ a) && decide (a < 0x4A000)) || fldGet F.BAR_CHMAP_EN w == 0 ||
      decide (fldGet F.BAR_CHMAP_CH w < channels s)) &&
    match (List.range 8).find? (fun g => Reg.FAB_AGRP_MEM g == a) with
    | none => true
    | some g => groupOk s g w)

/-- The MIX_DR entries a tally writes satisfy R222. -/
def routesWritten (s : State) (rs : List TallyRec) : Bool :=
  ((mergeKind 1 rs).filter (fun r => recTable r.target == 0x0804)).all (fun r => routeOk s (recEntry r.target))

/-- At most 256 distinct words for any one frame (R254). -/
def frameWordsOk (ws : List Nat) : Bool :=
  (List.range 8).all (fun f => decide ((ws.filter (fun w => w / frameWords == f)).length ≤ 256))

/-- A tally with records `rs` passes validation: `s0` before it, `s1` after it, `ws` the frame words of its boundary. -/
def tallyValid (s0 s1 : State) (rs : List TallyRec) (ws : List Nat) : Bool :=
  ownersOk s0 s1 rs && wordsOk s1 rs && mixOk s1 && routesWritten s1 rs && delayOk s1 && streamsOk s1 && mapsOk s1 &&
    frameWordsOk ws

/-- Insert an ID by boundary and then by ID. -/
def insertTally (s : State) (id : Nat) : List Nat → List Nat
  | [] => [id]
  | j :: js =>
    if tyTarget s id < tyTarget s j ∨ (tyTarget s id = tyTarget s j ∧ id < j) then id :: j :: js
    else j :: insertTally s id js

/-- The tallies in some states, by boundary and then by ID. -/
def tallyOrder (s : State) (states : List Nat) : List Nat :=
  (tallyIds.filter (fun id => states.contains (tyState s id))).foldl (fun acc id => insertTally s id acc) []

/-- Where a validation stands: the projected state, the boundary, its frame words and the verdicts so far. -/
structure Projection where
  state : State
  boundary : Nat
  frames : List Nat
  verdicts : List (Nat × Bool)

/-- One tally more in a projection; one that fails is left out of it. -/
def projectNext (s : State) (p : Projection) (id : Nat) : Projection :=
  let rs := (tallyAt s id).recs
  let n := tyTarget s id
  let ws := distinct ((if n = p.boundary then p.frames else []) ++ frameWordsOf rs)
  let s1 := projectTally p.state rs
  if tallyValid p.state s1 rs ws then ⟨s1, n, ws, (id, true) :: p.verdicts⟩
  else { p with verdicts := (id, false) :: p.verdicts }

/-- The projection over tallies in order. -/
def projectOver (s : State) (ids : List Nat) : Projection := ids.foldl (projectNext s) ⟨withWaiting s, 0, [], []⟩

/-- The verdicts of every ACCEPTED or PREPARED tally (R254). -/
def verdicts (s : State) : List (Nat × Bool) := (projectOver s (tallyOrder s [tyAccepted, tyPrepared])).verdicts

/-- Whether a change from `s` to `s'` makes an ACCEPTED or PREPARED tally fail validation (R255, R305). -/
def threatens (s s' : State) : Bool :=
  let after := verdicts s'
  (verdicts s).any (fun v => v.2 && after.contains (v.1, false))

/-- The epoch the device will hold after tally `id` applies, as projected (R262). -/
def projectedEpoch (s : State) (id : Nat) : Nat :=
  let before := (tallyOrder s [tyAccepted, tyPrepared]).takeWhile (fun j => j != id)
  epochAfter (projectOver s before).state (tallyAt s id).recs % 2 ^ 32

/-! ## The lead (R253) -/

/-- The least boundary that meets the lead for a commit accepted in the present block. -/
def leadBoundary (s : State) (stack : Bool) (rs : List TallyRec) : Nat :=
  let a := s.grid.index
  let r := rs.length
  let f := max (fieldRecords rs .a).length (fieldRecords rs .b).length
  max (a + if stack then 4 else 2) (max (a + 1 + (r + 32767) / 32768) (a + 1 + (f + 63) / 64))

/-! ## Field records (R262, R263) -/

/-- Send the PARAM of record `i` of tally `id`; none is sent while the link is not UP (R337). -/
def sendParam (s : State) (id i epoch : Nat) (r : TallyRec) : State :=
  let d := recDie r.target
  if r.kind ≠ 3 ∨ !barUp s d then s
  else
    let s := barAsk s d btParam (recAddr r.target) id
      [tyTarget s id, epoch * 2 ^ 32 + i, r.mask.toNat * 2 ^ 32 + r.data.toNat] (.param id i)
    let t := tallyAt s id
    setTally s id (if d = .a then { t with sentA := true } else { t with sentB := true })

/-- Every die that holds field records of a tally has its link UP (R337). -/
def fieldReachable (s : State) (id : Nat) : Bool :=
  allDies.all (fun d => (fieldRecords (tallyAt s id).recs d).isEmpty || barUp s d)

/-- Send every PARAM of a tally; answers to earlier sendings no longer count. -/
def sendParams (s : State) (id : Nat) : State :=
  let s := forEach allDies s (fun s d => setBar s d { barAt s d with waits := (barAt s d).waits.filter (fun w => !waitOfTally id w) })
  let rs := (tallyAt s id).recs
  let e := projectedEpoch s id
  forEach ((List.range rs.length).zip rs) s (fun s x => sendParam s id x.1 e x.2)

/-- The CMD that commits a tally goes to each die that holds records of it (R263). -/
def sendCommits (s : State) (id : Nat) : State :=
  let rs := (tallyAt s id).recs
  forEach (allDies.filter (fun d => !(fieldRecords rs d).isEmpty)) s
    (fun s d => barCmd s d 1 id [tyTarget s id] (.tally id))

end Sys2Proof.Machine
end

