-- ==== Sys2Proof/Machine/Coordinator.lean ====
section
/-! DEFINITION. The coordinator of stack-scope tallies and what a member does with its decisions and answers (R266 to
R271). -/

namespace Sys2Proof.Machine
open Sys2Proof

/-- The part of a transaction on this member that waits for a decision. -/
def partOf (s : State) (xid : Nat) : Option Nat :=
  tallyIds.find? (fun id => tyStack s id && tyXid s id == xid && (tyState s id == tyPrepared || tyState s id == tyInDoubt))

/-- The decisions this member knows: the last 64 (R266). -/
def knownDecision (s : State) (xid : Nat) : Option StkDecision := s.stk.decisions.find? (fun d => d.xid == xid)

/-- Keep a decision. -/
def noteDecision (s : State) (d : StkDecision) : State :=
  { s with stk := { s.stk with decisions := (d :: s.stk.decisions.filter (fun e => e.xid != d.xid)).take 64 } }

/-- A part moves to ACCEPTED: from IN_DOUBT with boundary j + 2 and its field records sent again (R266, R269). -/
def acceptPart (s : State) (id : Nat) : State :=
  let late := tyState s id == tyInDoubt
  let t := tallyAt s id
  let s := finishOpt s t.abortRef stInvalidParam 0
  let s := setTally (setTyState s id tyAccepted) id { t with abortRef := none }
  if late then
    let s := setTyTarget s id (s.grid.index + 2)
    let t := tallyAt s id
    let s := setTally s id { t with
      decided := false, framed := false, recs := t.recs.map (fun r => { r with acked := false }) }
    sendParams s id
  else s

/-- A decision or an answer reaches this member's part (R266, R269). -/
def decidePart (s : State) (xid : Nat) (commit : Bool) : State :=
  let s := stkAnswered (stkAnswered s smVote xid) smQuery xid
  match partOf s xid with
  | none => s
  | some id => if commit then acceptPart s id else abortTally s id acStack

/-- The words of DECISION_LOG and DECISION (Table 13-2). -/
def decisionWords (d : StkDecision) : List Nat := [d.xid, 2 ^ 8 * b2n d.commit + 2 ^ 16 * d.n]

/-- A decision logged at the successor goes to every member (R266). -/
def announce (s : State) (d : StkDecision) : State :=
  let s := noteDecision s d
  let s := { s with stk := { s.stk with
            votes := s.stk.votes.filter (fun v => v.xid != d.xid)
            logging := s.stk.logging.filter (fun e => e.xid != d.xid) } }
  decidePart (stkAsk (stkAnswered s smLog d.xid) toAll smDecision d.xid (decisionWords d)) d.xid d.commit

/-- The coordinator's decision on a transaction it holds votes on, if it can decide (R266). -/
def verdictOf (s : State) (xid : Nat) : Option Bool :=
  let vs := s.stk.votes.filter (fun v => v.xid == xid)
  match vs with
  | [] => none
  | v :: _ =>
    let here := stkMembers s ||| 2 ^ myId s
    if vs.any (fun w => !w.yes || w.mask != v.mask || w.n != v.n) || (v.mask ||| here) != here then some false
    else if (List.range 8).all (fun k => !bitOf v.mask k || vs.any (fun w => w.src == k)) then some true
    else if v.n ≤ s.grid.index + 2 then some false
    else none

/-- The coordinator decides what it can: it logs each decision at its successor first; with no other member it decides
at once (R266, R271). -/
def coordinate (s : State) : State :=
  let xids := distinct (s.stk.votes.map (fun v => v.xid))
  let open' := xids.filter (fun x => (knownDecision s x).isNone && !s.stk.logging.any (fun d => d.xid == x))
  forEach open' s (fun s xid =>
    match verdictOf s xid with
    | none => s
    | some commit =>
      let n := match s.stk.votes.find? (fun v => v.xid == xid) with
        | some v => v.n
        | none => 0
      let d : StkDecision := ⟨xid, commit, n⟩
      if stkMembers s &&& (0xFF ^^^ 2 ^ myId s) = 0 then announce s d
      else
        let s := { s with stk := { s.stk with logging := s.stk.logging ++ [d] } }
        stkAsk s (successorId s) smLog xid (decisionWords d))

/-- Answer a query about a decision: COMMIT and unknown bits (Table 13-2). -/
def sendAnswer (s : State) (dst xid : Nat) (commit unknown : Bool) : State :=
  stkSend s dst smAnswer [xid, b2n commit + 2 * b2n unknown]

/-- Whether this member holds a COMMIT for a transaction: in its file, or by a part that a decision has ACCEPTED (R271). -/
def holdsCommit (s : State) (xid : Nat) : Bool :=
  (match knownDecision s xid with
   | some d => d.commit
   | none => false) ||
  tallyIds.any (fun id => tyStack s id && tyXid s id == xid && tyState s id == tyAccepted)

/-- The boundary of this member's part of a transaction, if it has one. -/
def partBoundary (s : State) (xid : Nat) : Nat :=
  match partOf s xid with
  | some id => tyTarget s id
  | none => 0

/-- The coordinator is asked for a decision: it answers from its file, or asks every other surviving member whether it
holds a COMMIT; with none left the answer is ABORT (R271). What it answers it keeps. `asker` is this member itself for its
own part. -/
def answerDecision (s : State) (asker xid : Nat) : State :=
  let reply (s : State) (commit : Bool) : State :=
    let s := if (knownDecision s xid).isSome then s else noteDecision s ⟨xid, commit, partBoundary s xid⟩
    if asker = myId s then decidePart s xid commit else sendAnswer s asker xid commit false
  match knownDecision s xid with
  | some d => reply s d.commit
  | none =>
    if holdsCommit s xid then reply s true else
    if s.stk.logging.any (fun d => d.xid == xid) || s.stk.votes.any (fun v => v.xid == xid && verdictOf s xid == none) then s
    else
      let others := stkMembers s &&& (0xFF ^^^ 2 ^ myId s) &&& (0xFF ^^^ 2 ^ asker)
      if others = 0 then reply s false
      else if s.stk.inquiries.any (fun q => q.xid == xid && q.asker == asker) then s
      else
        let s := { s with stk := { s.stk with inquiries := s.stk.inquiries ++ [⟨xid, asker, others⟩] } }
        forEach ((List.range 8).filter (bitOf others)) s (fun s k => stkAsk s k smQuery xid [xid, 1])

/-- An IN_DOUBT part asks the coordinator for the decision (R267). -/
def queryPart (s : State) (id : Nat) : State :=
  let xid := tyXid s id
  let s := setTally s id { tallyAt s id with asked := s.grid.index }
  if isStkMaster s then answerDecision s (myId s) xid
  else stkAsk (stkAnswered s smQuery xid) (masterId s) smQuery xid [xid, 0]

/-! ## Map entries (R465, R466) -/

/-- Ask the owner of stack-wide channel `src` for its beads, or cancel. -/
def sendSubscribe (s : State) (src : Nat) (on : Bool) : State :=
  stkSend s (src / 1024) smSubscribe [src % 1024 + 2 ^ 16 * b2n on]

/-- What an applied write of STK_MAP entry `c` brings about: its subscription follows it (R466). -/
def mapChanged (s0 s : State) (c : Nat) : State :=
  let old := if pon s0 P.STK_MAP_EN c then some (pget s0 P.STK_MAP_SRC c) else none
  let new := if pon s P.STK_MAP_EN c then some (pget s P.STK_MAP_SRC c) else none
  if old = new then s
  else
    let used (s : State) (src : Nat) : Bool := s.stk.subs.any (fun e => e.2 == src)
    let s := { s with stk := { s.stk with subs := s.stk.subs.filter (fun e => e.1 != c) } }
    let s := match old with
      | none => s
      | some src => if used s src then s else sendSubscribe s src false
    match new with
    | none => s
    | some src =>
      let s := if used s src then s else sendSubscribe s src true
      { s with stk := { s.stk with subs := (c, src) :: s.stk.subs } }

end Sys2Proof.Machine
end

