-- ==== Sys2Proof/Machine/Tally.lean ====
section
/-! DEFINITION. The tally commands, the decision point and what tallies do at a boundary (R246 to R271). -/

namespace Sys2Proof.Machine
open Sys2Proof

/-! ## Descriptors (R247 to R254, R260) -/

/-- A tally descriptor, where the tally engine is not fenced (Table 12-10). -/
def onTally (s : State) (d : DescRef) (op : Nat) (f : State → List Byte → Nat → State) : Out :=
  onDesc s d op (fun s bs => if tallyFenced s then finish s d stTargetFenced 0 else f s bs (par bs 8 0 4))

/-- A FREE tally becomes OPEN (R247). -/
def openTally (s : State) (id : Nat) : State :=
  let s := wr s (Reg.TLY_T_STAT id) 0
  let s := wr (wr s (Reg.TLY_T_XID id) 0) (Reg.TLY_T_MEMBERS id) 0
  setTyState (setTyTarget (setTally s id (tallyReset id)) id 0) id tyOpen

/-- TALLY_OPEN (R247). -/
def execTallyOpen (d : DescRef) (s : State) : Out :=
  onTally s d 0x10 (fun s _ id =>
    if tyState s id ≠ tyFree then finish s d stBusyRetry 0
    else finish (openTally s id) d stOk 0)

/-- The records of a TALLY_WRITE are checked and kept, or abort the tally (R250). -/
def writeRecords (s : State) (d : Option DescRef) (id count : Nat) (bs : List Byte) : State :=
  let rs := (List.range count).map (readRecord bs)
  match (List.range count).find? (fun i => !recordOk s (rs.getD i ⟨15, 0, 0, 0, false, 0⟩)) with
  | some i => finishOpt (abortTally s id acStruct) d stTallyAborted (acStruct + 2 ^ 32 * i)
  | none =>
    if rget s Reg.TLY_SHADOW_FREE F.TLY_SHADOW_FREE_RECORDS < count then
      finishOpt (abortTally s id acShadowFull) d stTallyAborted acShadowFull
    else
      let t := tallyAt s id
      let s := countRecords (setTally s id { t with recs := t.recs ++ placeRecords s rs }) id
      finishOpt s d stOk (tallyAt s id).recs.length

/-- Whether records name a field die that is not fitted (R3). -/
def namesAbsent (s : State) (rs : List TallyRec) : Bool := rs.any (fun r => r.kind == 3 && !diePresent s (recDie r.target))

/-- TALLY_WRITE; `data` is what its ADDR reads as (R248 to R251). One that names an absent die has no effect (R3). -/
def execTallyWrite (d : DescRef) (data : Option (List Byte)) (s : State) : Out :=
  onTally s d 0x11 (fun s bs id =>
    if tyState s id ≠ tyOpen then finish s d stInvalidParam 0
    else
      let count := leAt bs 12 4
      withInput s d (leAt bs 16 8) (16 * count) data (fun s rec =>
        if namesAbsent s ((List.range count).map (readRecord rec)) then finish s d stInvalidParam 0
        else writeRecords s (some d) id count rec))

/-- The boundary a commit asks for (R252); NEXT asks for the least that meets the lead. -/
def commitTarget (s : State) (bs : List Byte) (lead : Nat) : Nat :=
  match par bs 8 4 2 with
  | 0 => leAt bs 16 8
  | 1 =>
    let t := mkTime (par bs 16 0 48) (par bs 24 0 30)
    (-((-(t * (fsHz s : Int))) / (secUnits * (blk s : Int)))).toNat
  | _ => lead

/-- A commit that meets the lead is validated with the tallies that follow it (R254), and accepted or prepared; field
records whose link is not UP abort it (R337). -/
def validateCommit (s : State) (id : Nat) (stack : Bool) : State :=
  let s' := setTyState s id tyAccepted
  let vs := verdicts s'
  let after := ((tallyOrder s' [tyAccepted, tyPrepared]).dropWhile (fun j => j != id)).drop 1
  if vs.contains (id, false) then abortTally s id acValidation
  else if after.any (fun j => vs.contains (j, false)) then abortTally s id acConflict
  else if !fieldReachable s id then abortTally s id acField
  else if stack then sendVote (sendParams (setTyState s id tyPrepared) id) id true
  else sendParams s' id

/-- Commit an OPEN tally for boundary `want` (R252 to R254, R262, R265): the mode and options, the transaction and mask of
a stack-scope part, and the descriptor that waits for the outcome, if any. -/
def commitTally (s : State) (id : Nat) (ref : Option DescRef) (mode : Nat) (stack lateOk carry : Bool) (want xid mask : Nat) :
    State :=
  let t := tallyAt s id
  let least := leadBoundary s stack t.recs
  let missed := decide (want < least)
  let n := if missed && lateOk && !stack then least else want
  let s := rput (rput s (Reg.TLY_T_STAT id) F.TLY_T_STAT_SCOPE (b2n stack)) (Reg.TLY_T_STAT id) F.TLY_T_STAT_LATE_OK (b2n lateOk)
  let s := rput s (Reg.TLY_T_STAT id) F.TLY_T_STAT_MODE mode
  let s := if stack then
      wr (wr s (Reg.TLY_T_XID id) (BitVec.ofNat 32 xid)) (Reg.TLY_T_MEMBERS id) (BitVec.ofNat 32 (mask % 256))
    else s
  let s := setTyTarget (setTally s id { t with commit := ref, carry := carry, want := want }) id n
  if (stack && mode == 2) || (missed && !(lateOk && !stack)) then coordinate (abortTally s id acLead)
  else coordinate (validateCommit s id stack)

/-- TALLY_COMMIT (R252 to R254, R262, R265). -/
def execTallyCommit (d : DescRef) (s : State) : Out :=
  onTally s d 0x12 (fun s bs id =>
    if tyState s id ≠ tyOpen ∨ (par bs 8 4 2 = 1 ∧ 999999999 < par bs 24 0 30) then finish s d stInvalidParam 0
    else
      let stack := par bs 8 6 1 == 1
      let want := commitTarget s bs (leadBoundary s stack (tallyAt s id).recs)
      commitTally s id (some d) (par bs 8 4 2) stack (par bs 8 7 1 == 1) (par bs 8 8 1 == 1) want (leAt bs 28 4) (leAt bs 32 1))

/-- TALLY_ABORT (R256, R260, R266, R267): of a PREPARED part it votes no and waits for the coordinator; an ACCEPTED part's
coordinator has decided COMMIT. -/
def execTallyAbort (d : DescRef) (s : State) : Out :=
  onTally s d 0x13 (fun s _ id =>
    let st := tyState s id
    let t := tallyAt s id
    if st = tyFree ∨ st = tyInDoubt ∨ (st = tyAccepted ∧ (t.decided ∨ tyStack s id)) ∨ t.abortRef.isSome then finish s d stInvalidParam 0
    else if st = tyPrepared then
      if (match knownDecision s (tyXid s id) with | some e => e.commit | none => false) ||
          s.stk.logging.any (fun e => e.xid == tyXid s id && e.commit) then
        finish s d stInvalidParam 0
      else coordinate (sendVote (setTally s id { t with abortRef := some d }) id false)
    else finish (abortTally s id acHost) d stOk 0)

/-! ## The decision point (R256, R267, R268) -/

/-- A part that is still PREPARED enters IN_DOUBT (R267). -/
def enterDoubt (s : State) (id : Nat) : State :=
  let s := finishOpt s (tallyAt s id).abortRef stInvalidParam 0
  let s := setTally s id { tallyAt s id with abortRef := none }
  queryPart (raise (setTyState s id tyInDoubt) 0x282 id 0) id

/-- A tally that fails at its decision point: a stack-scope part is a split (R268). -/
def failPart (s : State) (id cause : Nat) : State := failPartWith raise s id cause

/-- An uncorrectable error in the tally shadow memory, at a byte of a bank's top 512 KiB (Tables 01-9, 01-11). -/
def shadowError (s : State) (x : Fin 8 × Nat) : State := uncorrectable s .gsram x.1 (0x380000 + x.2 % 0x80000)

/-- Judge an ACCEPTED tally (R256). -/
def judgeTally (s : State) (id : Nat) : State :=
  let t := tallyAt s id
  let before := (tallyOrder s [tyAccepted]).filter (fun j => j != id && (tallyAt s j).decided)
  let p := projectOver s before
  let rs := t.recs
  let ws := distinct ((if tyTarget s id = p.boundary then p.frames else []) ++ frameWordsOf rs)
  if !tallyValid p.state (projectTally p.state rs) rs ws then failPart s id acValidation
  else if !(rs.all (fun r => r.kind != 3 || r.acked)) then failPart s id acField
  else if t.eccBad then failPart (raise s 0x284 id acShadowEcc) id acShadowEcc
  else sendCommits (setTally s id { t with decided := true }) id

/-- The tallies of a boundary, or of one before it, that are in a state. -/
def dueTallies (s : State) (st n : Nat) : List Nat := (tallyOrder s [st]).filter (fun id => decide (tyTarget s id ≤ n))

/-- The decision point of boundary `n` (R256, R267). -/
def decisionPoint (s : State) (n : Nat) : State :=
  let s := forEach (dueTallies s tyPrepared n) s enterDoubt
  forEach ((dueTallies s tyAccepted n).filter (fun id => !(tallyAt s id).decided)) s
    (fun s id => judgeTally s id)

/-- D(n) of the boundary that comes next (R256); `bad` names the places where reading the shadow records meets an
uncorrectable error: the bank and the byte of its top 512 KiB. -/
def execDecisionPoint (bad : List (Fin 8 × Nat)) (s : State) : Out :=
  onHost s (fun s => coordinate (decisionPoint (forEach bad s shadowError) (nextBoundary s)))

/-- An IN_DOUBT part asks again every QUERY_INT blocks (R267). -/
def execInDoubtQuery (id : Fin 16) (s : State) : Out :=
  onHost s (fun s =>
    let wait := max 1 (rget s Reg.TLY_CTRL F.TLY_CTRL_QUERY_INT)
    if tyState s id = tyInDoubt ∧ (tallyAt s id).asked + wait ≤ s.grid.index then queryPart s id else s)

/-! ## At the boundary (R257 to R259, R269, R270) -/

/-- Write a tally's KIND 2 records into frame SRAM (R258). -/
def writeFrames (s : State) (id : Nat) : State :=
  let t := tallyAt s id
  if t.framed then s
  else
    let s := setTally s id { t with framed := true }
    forEach (mergeKind 2 t.recs) s (fun s r =>
      let f := recFrame r.target
      let w := recFrameWord r.target
      frameSet s f w ((frameGet s f w &&& ~~~r.mask) ||| (r.data &&& r.mask)))

/-- After the export window the coming boundary's KIND 2 records are written (R258); while a part is IN_DOUBT none is
(R270). -/
def execExportWindowEnd (s : State) : Out :=
  onHost s (fun s =>
    if tallyIds.any (fun id => tyState s id == tyInDoubt) then s
    else forEach ((dueTallies s tyAccepted (nextBoundary s)).filter (fun id => (tallyAt s id).decided)) s writeFrames)

/-- What the boundary finds before it applies anything: parts still PREPARED are in doubt; while any part is, tallies
whose boundary passes are BLOCKED (R270); the others not yet judged are judged. -/
def settleTallies (s : State) (n : Nat) : State :=
  let s := forEach (dueTallies s tyPrepared n) s enterDoubt
  if tallyIds.any (fun id => tyState s id == tyInDoubt) then
    forEach (dueTallies s tyAccepted n) s (fun s id => abortTally s id acBlocked)
  else decisionPoint s n

/-- Source TALLY fires at the boundary at which a tally with CARRY set applies (Table 07-5). -/
def tallyCarry (s : State) (n : Nat) : State :=
  if (dueTallies s tyAccepted n).any (fun id => (tallyAt s id).carry) then fireWith raise s csTally 0 else s

/-- An applied write of a parameter entry: what it brings about; `s0` is the state before it, `words` the words written
and `n` the boundary. -/
def entryChanged (s0 s : State) (table entry n : Nat) (words : List Nat) : State :=
  match table with
  | 0x0801 => xpChanged s0 s entry (words.any (fun w => w == 1 || w == 2))
  | 0x0802 => busChanged s0 s entry (words.any (fun w => w == 1 || w == 2))
  | 0x0803 => hpfChanged s0 s entry
  | 0x0804 => routeChanged s entry (words.any (fun w => w == 1 || w == 2)) (pon s0 P.MIX_DR_EN entry)
  | 0x0901 => lineChanged s0 s entry
  | 0x0902 => tapChanged s0 s entry
  | 0x0D01 => rxStreamChanged s entry (pon s0 P.STR_RX_EN entry)
  | 0x0D02 => txStreamChanged s entry (pon s0 P.STR_TX_EN entry) n
  | 0x1301 => mapChanged s0 s entry
  | _ => s

/-- Whether a record covers a bit of GAIN (word 1) or RAMP (word 2 [15:0]), or any bit of another word (R214). -/
def covers (r : TallyRec) : Bool := if recWord r.target = 2 then r.mask &&& 0xFFFF != 0 else r.mask != 0

/-- Apply a tally's KIND 1 records, entry by entry. -/
def applyEntries (s : State) (rs : List TallyRec) (n : Nat) : State :=
  let ms := mergeKind 1 rs
  forEach (distinct (ms.map (fun r => r.target / 256))) s (fun s e =>
    let here := ms.filter (fun r => r.target / 256 == e)
    let table := recTable (e * 256)
    let entry := recEntry (e * 256)
    let s := if table = 0x0804 then takeUp s (fun r => r == entry) else s
    let s1 := forEach here s (fun s r => writePword s table entry (recWord r.target) r.mask r.data)
    entryChanged s s1 table entry n ((here.filter covers).map (fun r => recWord r.target)))

/-- An ACCEPTED tally applies at boundary `n` (R257): its records, the epoch, its outcome and its completion. -/
def applyTally (s : State) (n id : Nat) : State :=
  let t := tallyAt s id
  let s := forEach (mergeKind 0 t.recs) s (fun s r => tallyRegWrite s (recOffset r.target) r.mask r.data)
  let s := applyEntries s t.recs n
  let s := writeFrames s id
  let s := rput s Reg.SYS_EPOCH F.SYS_EPOCH_EPOCH (epochAfter s t.recs)
  let late := n - t.want
  let s := tallyOutcome s id (if late = 0 then 1 else 2) 0
  let s := if late = 0 then finishOpt s t.commit stOk (n % 2 ^ 48)
    else
      let s := rput (rset s Reg.TLY_STAT F.TLY_STAT_LATE) Reg.TLY_LAST_LATE F.TLY_LAST_LATE_BLOCKS (satNat 16 late)
      finishOpt (raise s 0x281 id (satNat 16 late)) t.commit stTallyLate (n % 2 ^ 48 + 2 ^ 48 * satNat 16 late)
  freeTally s id

/-- The tallies of boundary `n` apply, unless a part is IN_DOUBT (R257, R270). -/
def applyTallies (s : State) (n : Nat) : State :=
  if tallyIds.any (fun id => tyState s id == tyInDoubt) then s
  else forEach ((dueTallies s tyAccepted n).filter (fun id => (tallyAt s id).decided)) s (fun s id => applyTally s n id)

/-! ## Settings outside tallies (R222, R255, R305) -/

/-- Write an entry's words from an image, where the mask names them. -/
def writeImage (s : State) (table entry words wmask : Nat) (image : List Byte) (skip : Word) : State :=
  forEach ((List.range words).filter (bitOf wmask)) s (fun s w =>
    writePword s table entry w (if w = 0 then ~~~skip else BitVec.allOnes 32) (BitVec.ofNat 32 (leAt image (4 * w) 4)))

/-- ROUTE_CFG (R207, R222, R255): the write waits for the first sample the direct-route unit handles. -/
def execRouteCfg (d : DescRef) (s : State) : Out :=
  onDesc s d 0x28 (fun s bs =>
    let r := par bs 8 0 6
    let wmask := par bs 12 0 10
    let words := ((List.range 10).filter (bitOf wmask)).map (fun w => (w, BitVec.ofNat 32 (leAt bs (16 + 4 * w) 4)))
    let s' := { s with routeWait := s.routeWait ++ [⟨r, bitOf wmask 1 || bitOf wmask 2, words⟩] }
    if !routeOk (withWaiting s') r || threatens s s' then finish s d stInvalidParam 0 else finish s' d stOk 0)

/-- STREAM_CFG; `data` is what its ADDR reads as; EN in the image is ignored (R305). -/
def execStreamCfg (d : DescRef) (data : Option (List Byte)) (s : State) : Out :=
  onDesc s d 0x29 (fun s bs =>
    let n := par bs 8 0 10
    let rx := decide (n < 512)
    withInput s d (leAt bs 16 8) (if rx then 96 else 64) data (fun s image =>
      let s' := if rx then writeImage s 0x0D01 n 24 (par bs 12 0 24) image 1
        else writeImage s 0x0D02 (n - 512) 16 (par bs 12 0 24) image 1
      if ron s Reg.STR_STAT F.STR_STAT_FENCED then finish s d stTargetFenced 0
      else if (if rx then pon s P.STR_RX_EN n else pon s P.STR_TX_EN (n - 512)) || threatens s s' then
        finish s d stInvalidParam 0
      else finish s' d stOk 0))

end Sys2Proof.Machine
end

