-- ==== Sys2Proof/Machine/Rings.lean ====
section
/-! DEFINITION. The queue pairs: their states, doorbells, fetching, completion entries and interrupts (R422 to R436,
R443 to R449). -/

namespace Sys2Proof.Machine
open Sys2Proof

/-! ## Queue pairs (R422 to R424) -/

/-- A 64-bit bus address held in two registers. -/
def busAddr (s : State) (lo hi : Nat) : Nat := (rd s lo).toNat + 2 ^ 32 * (rd s hi).toNat

/-- The bus address of an SQ slot, and of a CQ slot. -/
def slotAddr (s : State) (n i : Nat) : Nat := busAddr s (Reg.HIF_QP_SQ_LO n) (Reg.HIF_QP_SQ_HI n) + 64 * i
def entryAddr (s : State) (n i : Nat) : Nat := busAddr s (Reg.HIF_QP_CQ_LO n) (Reg.HIF_QP_CQ_HI n) + 16 * i

/-- The bus address of the doorbell page (R425). -/
def pageAddr (s : State) : Nat := busAddr s Reg.HIF_DBPAGE_LO Reg.HIF_DBPAGE_HI

/-- Replace a queue pair; HIF_QPn_STAT.INFLIGHT follows. -/
def setRing (s : State) (n : Nat) (q : QpState) : State :=
  rput (setQp s n q) (Reg.HIF_QP_STAT n) F.HIF_QP_STAT_INFLIGHT q.flights.length

/-- Enter a state of Table 12-3. -/
def setQpState (s : State) (n st : Nat) : State := rput s (Reg.HIF_QP_STAT n) F.HIF_QP_STAT_STATE st

/-- Some queue pair is not DISABLED. -/
def anyQueue (s : State) : Bool := (List.range 64).any (fun n => qpStateOf s n != qpDisabled)

/-- A boundary or a HIF_KICK asks for a read of the doorbell page (R426). -/
def askDoorbell (s : State) : State :=
  if anyQueue s && ron s Reg.HIF_STAT F.HIF_STAT_BME then { s with doorbell := true } else s

/-! ## Aborting what waits (R445, Table 12-11) -/

/-- Whether a NET_TX has a segment on the line or sent. -/
def netTxStarted (s : State) (d : DescRef) : Bool :=
  (List.range 8).any (fun p =>
    (match (netAt s p).line with
      | some l => (match l.2.owner with | .host e _ _ => e == d | _ => false)
      | none => false) ||
    (List.range 8).any (fun k => (netQueue s p k).head?.any (fun f => match f.owner with
      | .host e seg _ => e == d && seg != 0
      | _ => false)))

/-- Take a NET_TX's frames out of every queue. -/
def dropNetTx (s : State) (d : DescRef) : State :=
  forEach (List.range 8) s (fun s p => forEach (List.range 8) s (fun s k =>
    setQueue s p k ((netQueue s p k).filter (fun f => match f.owner with | .host e _ _ => e != d | _ => true))))

/-- An accepted descriptor that waits completes with ABORTED_RING_DISABLED, with the effect Table 12-11 gives; others run
to their end. -/
def abortWaiting (s : State) (d : DescRef) (op : Nat) : State :=
  match op with
  | 0x12 =>
    let s := forEach (tallyIds.filter (fun id => (tallyAt s id).commit == some d)) s (fun s id =>
      setTally s id { tallyAt s id with commit := none })
    finish s d stRingDisabled 0
  | 0x49 => finish { s with posted := s.posted.filter (fun e => e != d) } d stRingDisabled 0
  | 0x48 => if netTxStarted s d then s else finish (dropNetTx s d) d stRingDisabled 0
  | 0x30 =>
    let s := if s.snap.armed = some d then
        rclr { s with snap := { s.snap with armed := none } } Reg.SNP_MATCH_CTRL F.SNP_MATCH_CTRL_ARM
      else s
    let left := s.snap.scheduled.filter (fun c => c.2.2 != some d)
    finish { s with snap := { s.snap with scheduled := left } } d stRingDisabled 0
  | 0x38 => finish (dropDiag (disownSweep s d) d) d stRingDisabled 0
  | 0x02 => finish s d stRingDisabled 0
  | _ => s

/-- A slot of a queue pair as a descriptor reference. -/
def refOf (n : Fin 64) (f : Flight) : DescRef := ⟨n, Fin.ofNat 4096 f.slot⟩

/-- Every descriptor in flight that is not accepted, or accepted and waiting, completes (R445). -/
def abortFlights (s : State) (n : Fin 64) : State :=
  forEach ((qpAt s n).flights.filter (fun f => f.result.isNone)) s (fun s f =>
    if f.accepted then abortWaiting s (refOf n f) (opcodeOf f) else finish s (refOf n f) stRingDisabled 0)

/-- Enter DRAINING (R445). -/
def enterDraining (s : State) (n : Fin 64) : State :=
  let s := setQpState (rclr s (Reg.HIF_QP_CTRL n) F.HIF_QP_CTRL_EN) n qpDraining
  let s := setQp s n { qpAt s n with tailRead := false, enOff := true, due := [] }
  abortFlights { s with doorbell := true } n

/-- Enter ERROR (R448): HIF source 0x483. -/
def enterError (s : State) (n : Fin 64) : State :=
  let s := rset (setQpState s n qpError) (Reg.HIF_QP_STAT n) F.HIF_QP_STAT_ERR
  let s := setQp s n { qpAt s n with due := [] }
  abortFlights (raise s 0x483 n 0) n

/-- The transitions that wait for the last completion entry (Table 12-3). -/
def settleQueue (s : State) (n : Fin 64) : State :=
  let q := qpAt s n
  let empty := decide (q.fetch = q.tail) && q.flights.isEmpty
  let off (s : State) : State := setRing (setQpState s n qpDisabled) n (qpReset n)
  match qpStateOf s n with
  | 2 => if empty && q.tailRead then off s else s
  | 3 => if empty && q.tailRead then (if q.enOff then enterDraining s n else setQpState s n qpRunning) else s
  | 4 => if empty && q.enOff then off s else s
  | _ => s

/-! ## The control register (R423, R424, R447) -/

/-- A refused write sets REFUSED and changes nothing (R423). -/
def refuseQp (s : State) (n : Nat) : State := rset s (Reg.HIF_QP_STAT n) F.HIF_QP_STAT_REFUSED

/-- A depth code is 4 to 12. -/
def depthOk (c : Nat) : Bool := decide (4 ≤ c) && decide (c ≤ 12)

/-- EN written 1 in DISABLED. -/
def enableQueue (s : State) (n : Fin 64) (recover : Bool) : State :=
  if !depthOk (rget s (Reg.HIF_QP_CFG n) F.HIF_QP_CFG_SQ_LOG2) || !depthOk (rget s (Reg.HIF_QP_CFG n) F.HIF_QP_CFG_CQ_LOG2) then
    refuseQp s n
  else
    let s := rset s (Reg.HIF_QP_CTRL n) F.HIF_QP_CTRL_EN
    if recover then
      let sq := rget s (Reg.HIF_QP_RESUME n) F.HIF_QP_RESUME_SQ_IDX % sqDepth s n
      let cq := rget s (Reg.HIF_QP_RESUME n) F.HIF_QP_RESUME_CQ_IDX % cqDepth s n
      let phase := ron s (Reg.HIF_QP_RESUME n) F.HIF_QP_RESUME_PHASE
      let s := setRing (setQpState s n qpRecovering) n ⟨sq, cq, phase, sq, cq, 0, [], 0, 0, false, false, []⟩
      { s with doorbell := true }
    else setRing (setQpState s n qpRunning) n (qpReset n)

/-- A write of HIF_QPn_CTRL. -/
def writeQpCtrl (s : State) (n : Fin 64) (w : Word) : State :=
  let en := fldGet F.HIF_QP_CTRL_EN w == 1
  let recover := fldGet F.HIF_QP_CTRL_RECOVER w
  let st := qpStateOf s n
  if st = qpDisabled then
    let s := rput s (Reg.HIF_QP_CTRL n) F.HIF_QP_CTRL_RECOVER recover
    if en then enableQueue s n (recover == 1) else s
  else if recover ≠ rget s (Reg.HIF_QP_CTRL n) F.HIF_QP_CTRL_RECOVER then refuseQp s n
  else if en then s
  else if st = qpRunning then settleQueue (enterDraining s n) n
  else if st = qpDraining then s
  else
    let s := rclr s (Reg.HIF_QP_CTRL n) F.HIF_QP_CTRL_EN
    settleQueue (setQp s n { qpAt s n with enOff := true }) n

/-- A write of another register of a queue pair (R423); `keep` marks the bits that may change while it is not DISABLED. -/
def writeQpReg (s : State) (n a : Nat) (keep w : Word) : State :=
  let s' := rwrite s a w
  if qpStateOf s n = qpDisabled ∨ (rd s' a ^^^ rd s a) &&& ~~~keep = 0 then s' else refuseQp s n

/-! ## Doorbells (R425 to R427) -/

/-- An entry of the doorbell page breaks R427. -/
def badDoorbell (s : State) (n e : Nat) : Bool :=
  let q := qpAt s n
  let tail := bitsOf e 0 12
  let head := bitsOf e 16 12
  bitsOf e 12 4 != 0 || decide (2 ^ 28 ≤ e) || decide (sqDepth s n ≤ tail) || decide (cqDepth s n ≤ head) ||
    q.flights.any (fun f => f.slot == tail) || decide (q.unread < (head + cqDepth s n - q.head) % cqDepth s n)

/-- Doorbell read `read` has moved a queue pair's tail: what it found posted beyond the earlier reads is its own, and
what a smaller tail takes back is posted no more (R434). -/
def foundBy (depth read : Nat) (q : QpState) : QpState :=
  let posted := (q.flights.filter flightWaits).length + (q.tail + depth - q.fetch) % depth
  { q with due := q.due.take posted ++ List.replicate (posted - q.due.length) read }

/-- Take a queue pair's entry of the page that doorbell read `read` returned. -/
def takeDoorbell (s : State) (n : Fin 64) (e read : Nat) : State :=
  let st := qpStateOf s n
  let q := qpAt s n
  if st = qpDisabled then s
  else if badDoorbell s n e then
    if st = qpError then s else settleQueue (enterError (holdHifError s n 2 (pageAddr s + 8 * n)) n) n
  else
    let head := bitsOf e 16 12
    let q := { q with unread := q.unread - (head + cqDepth s n - q.head) % cqDepth s n, head := head }
    let q :=
      if st = qpRunning then foundBy (sqDepth s n) read { q with tail := bitsOf e 0 12 }
      else if (st = qpDraining ∨ st = qpRecovering) ∧ !q.tailRead then { q with tail := bitsOf e 0 12, tailRead := true }
      else q
    settleQueue (setQp s n q) n

/-- The queue pairs as numbers of their registers. -/
def allQueues : List (Fin 64) := (List.range 64).map (Fin.ofNat 64)

/-- A write of HIF_KICK (R426). -/
def hostHifKick (w : Word) (s : State) : State :=
  if fldGet F.HIF_KICK_GO w = 1 then askDoorbell s else s

/-- The access itself, through the bus matrix. -/
def execHifKick (w : Word) (s : State) : Out := onBar s Reg.HIF_KICK (fun s => hostHifKick w s)

/-- The page is read; `page` is what the 512 bytes read as, or none where the read fails (R426, Table 12-13). -/
def readDoorbell (s : State) (page : Option (List Byte)) : State :=
  if !s.doorbell || !mayDma s then s
  else if !anyQueue s then { s with doorbell := false }
  else
    let s := { s with doorbell := false }
    match page with
    | none => raise (holdHifError { s with pageBad := true } 0 3 (pageAddr s)) 0x486 noInst 0
    | some bs =>
      let s := { s with pageBad := false, turns := { s.turns with reads := s.turns.reads + 1 } }
      forEach allQueues s (fun s n => takeDoorbell s n (leAt bs (8 * n) 8) s.turns.reads)

/-- DOORBELL_READ (R426, R427). -/
def execDoorbellRead (page : Option (List Byte)) (s : State) : Out := onHost s (fun s => readDoorbell s page)

/-! ## Fetching (R431 to R436) -/

/-- Put a fetched descriptor in flight; one that completes as it is fetched is never accepted. -/
def addFlight (s : State) (n : Nat) (bytes : List Byte) (result : Option (Nat × Nat)) : State :=
  let q := if result.isSome then fetchedNotDue (qpAt s n) else qpAt s n
  setRing s n { q with fetch := (q.fetch + 1) % sqDepth s n, flights := q.flights ++ [⟨q.fetch, bytes, false, result⟩] }

/-- What becomes of a descriptor as it is fetched: a queue pair that is not RUNNING completes it (R445, R447, R448), and a
buffer error or an unknown opcode completes it in RUNNING (R439, Table 12-13). -/
def fetchResult (st : Nat) (bytes : List Byte) (bufferBad : Bool) : Option (Nat × Nat) :=
  if st = qpRecovering then some (stAbortedReset, 0)
  else if st ≠ qpRunning then some (stRingDisabled, 0)
  else if bufferBad then some (stInvalidParam, 0)
  else if opcodes.contains (leAt bytes 0 1) then none
  else some (stInvalidOpcode, 0)

/-- Fetch a queue pair's next slot; `bytes` is what it reads as. -/
def fetchNext (s : State) (n : Fin 64) (bytes : Option (List Byte)) (bufferBad : Bool) : State :=
  if !mayFetch s n then s
  else
    let st := qpStateOf s n
    let addr := slotAddr s n (qpAt s n).fetch
    match bytes with
    | none =>
      let s := raise (holdHifError s n 1 addr) 0x482 n 0
      if st = qpError then addFlight s n [] (some (stRingDisabled, 0)) else settleQueue (enterError s n) n
    | some bs =>
      let bs := bytesAt bs 0 64
      let s := if bufferBad then raise (holdHifError s n 4 addr) 0x484 n 0 else s
      addFlight s n bs (fetchResult st bs bufferBad)

/-- DESCRIPTOR_FETCH (R433). -/
def execDescriptorFetch (q : Fin 64) (bytes : Option (List Byte)) (bufferBad : Bool) (s : State) : Out :=
  onHost s (fun s => fetchNext s q bytes bufferBad)

/-! ## Completion entries and interrupts (R429 to R431, R449) -/

/-- The 16 bytes of a completion entry (Table 12-6). -/
def entryBytes (f : Flight) (status result : Nat) (phase : Bool) : List Byte :=
  toBytes 4 (leAt f.bytes 4 4) ++ toBytes 8 result ++ toBytes 2 f.slot ++ toBytes 1 status ++ toBytes 1 (b2n phase)

/-- Whether a queue pair signals interrupts. -/
def qpIrqEn (s : State) (n : Nat) : Bool := ron s (Reg.HIF_QP_CFG n) F.HIF_QP_CFG_IRQ_EN

/-- A queue pair signals on its vector, and its count starts again. -/
def signalQueue (s : State) (n : Nat) : State :=
  msixSignal (setQp s n { qpAt s n with unsignalled := 0 }) (rget s (Reg.HIF_QP_CFG n) F.HIF_QP_CFG_VECTOR)

/-- Count a completion and signal it where its descriptor or MOD_COUNT asks for it. -/
def countCompletion (s : State) (n : Nat) (irq : Bool) : State :=
  let q := qpAt s n
  let c := q.unsignalled + 1
  let s := setQp s n { q with unsignalled := c, oldest := if q.unsignalled = 0 then s.time.cnt else q.oldest }
  if qpIrqEn s n && (irq || decide (max 1 (rget s (Reg.HIF_QP_CFG n) F.HIF_QP_CFG_MOD_COUNT) ≤ c)) then signalQueue s n else s

/-- Write a completion entry to host memory: whole, or with its byte 15 in a write of its own (R430). -/
def putEntry (s : State) (addr : Nat) (bs : List Byte) : State :=
  if ron s Reg.HIF_CTRL F.HIF_CTRL_SPLIT_PHASE then hostWrite (hostWrite s addr (bs.take 15)) (addr + 15) (bs.drop 15)
  else hostWrite s addr bs

/-- Write the entry of the oldest descriptor in flight, where it is done and its CQ slot is consumed (R431, R433). -/
def writeCompletion (s : State) (n : Fin 64) : State :=
  let q := qpAt s n
  match q.flights with
  | [] => s
  | f :: rest =>
    match f.result with
    | none => s
    | some r =>
      if !mayDma s || decide (cqDepth s n ≤ q.unread) then s
      else
        let s := putEntry s (entryAddr s n q.cq) (entryBytes f r.1 r.2 q.phase)
        let wraps := decide (q.cq + 1 = cqDepth s n)
        let q := { q with flights := rest, cq := if wraps then 0 else q.cq + 1, phase := q.phase != wraps, unread := q.unread + 1 }
        settleQueue (countCompletion (setRing s n q) n (par f.bytes 1 0 1 == 1)) n

/-- COMPLETION_WRITE (R430). -/
def execCompletionWrite (q : Fin 64) (s : State) : Out := onHost s (fun s => writeCompletion s q)

/-- MOD_TIME has passed since the oldest unsignalled completion (R449). -/
def execModTimeExpiry (q : Fin 64) (s : State) : Out :=
  onHost s (fun s =>
    let t := rget s (Reg.HIF_QP_CFG q) F.HIF_QP_CFG_MOD_TIME
    if qpIrqEn s q && decide (t ≠ 0) && decide ((qpAt s q).unsignalled ≠ 0) &&
        ticksReach (s.time.cnt - (qpAt s q).oldest) (10 * t) then signalQueue s q
    else s)

/-- QUEUE_ENABLE: a write of HIF_QPn_CTRL (R424). -/
def hostQueueEnable (q : Fin 64) (w : Word) (s : State) : State :=
  writeQpCtrl s q w

/-- The access itself, through the bus matrix. -/
def execQueueEnable (q : Fin 64) (w : Word) (s : State) : Out := onBar s (Reg.HIF_QP_CTRL q) (fun s => hostQueueEnable q w s)

/-- QUEUE_RECOVER: a write of HIF_QPn_CTRL (R447). -/
def hostQueueRecover (q : Fin 64) (w : Word) (s : State) : State :=
  writeQpCtrl s q w

/-- The access itself, through the bus matrix. -/
def execQueueRecover (q : Fin 64) (w : Word) (s : State) : Out := onBar s (Reg.HIF_QP_CTRL q) (fun s => hostQueueRecover q w s)

/-- QUEUE_DISABLE: a write of HIF_QPn_CTRL (R445). -/
def hostQueueDisable (q : Fin 64) (w : Word) (s : State) : State :=
  writeQpCtrl s q w

/-- The access itself, through the bus matrix. -/
def execQueueDisable (q : Fin 64) (w : Word) (s : State) : Out := onBar s (Reg.HIF_QP_CTRL q) (fun s => hostQueueDisable q w s)

/-- A BAR0 write narrower than 32 bits is discarded (R421). -/
def execBar0NarrowWrite (s : State) : Out :=
  onHost s (fun s => raise (rset s Reg.HIF_STAT F.HIF_STAT_BAD_ACCESS) 0x485 noInst 0)

/-! ## Descriptors of this chapter -/

/-- NOP (Table 12-9). -/
def execNop (d : DescRef) (s : State) : Out :=
  onDesc s d 0x01 (fun s _ =>
    finish s d stOk (s.grid.index % 2 ^ 32 + 2 ^ 32 * rget s Reg.SYS_EPOCH F.SYS_EPOCH_EPOCH))

/-- FENCE (R435). -/
def execFence (d : DescRef) (s : State) : Out := onDesc s d 0x02 (fun s _ => finish s d stOk 0)

/-- A word of a table as PARAM_READ returns it: word 9 of a direct route reads its state (Table 06-6). -/
def paramShown (s : State) (t e w : Nat) : Word :=
  if t = 0x0804 ∧ w = 9 then
    BitVec.ofNat 32 (b2n (routeEngaged s e) + 2 * b2n (ptState s (routePort s e) == ptRunning))
  else pword (if t = 0x0804 then withWaiting s else s) t e w

/-- The entries of a table and the words of each. -/
def tableShape (t : Nat) : Option (Nat × Nat) :=
  match paramTables.find? (fun r => r.1 == t) with
  | none => none
  | some r => some r.2

/-- A KIND 1 PARAM_READ (R438, R444). -/
def readTable (s : State) (d : DescRef) (bs : List Byte) : State :=
  let target := leAt bs 16 8
  let t := recTable target
  let n := leAt bs 24 4
  match tableShape t with
  | none => finish s d stInvalidParam 0
  | some (entries, words) =>
    let i := recEntry target * words + recWord target
    if target &&& (0xF000FFFF00FFFFFF : Nat) ≠ target ∨ words ≤ recWord target ∨ entries ≤ recEntry target ∨ entries * words < i + n then
      finish s d stInvalidParam 0
    else
      let out := ((List.range n).map (fun k => toBytes 4 (paramShown s t ((i + k) / words) ((i + k) % words)).toNat)).flatten
      finish (hostWrite s (leAt bs 32 8) out) d stOk n

/-- Field work needs its die, and its barrier's link engine running and UP (R3, R440). -/
def onBarrier (s : State) (d : DescRef) (die : Die) (f : State → State) : State :=
  if !diePresent s die then finish s d stInvalidParam 0
  else if barFenced s die then finish s d stTargetFenced 0
  else if barLink s die ≠ lkUp then finish s d stNotReady 0
  else f s

/-- The die a descriptor names at a bit. -/
def dieBit (b : Nat) : Die := if b = 0 then .a else .b

/-- Send the READ of word `k` of a KIND 3 PARAM_READ (R332, R438). -/
def sendRead (s : State) (d : DescRef) (bs : List Byte) (k : Nat) : State :=
  let die := dieBit (par bs 20 0 1)
  barRead s die ((leAt bs 16 2 + k) % 65536) (.read d k)

/-- PARAM_READ (R438 to R440, R444). -/
def execParamRead (d : DescRef) (s : State) : Out :=
  onDesc s d 0x18 (fun s bs =>
    if par bs 8 0 4 = 1 then readTable s d bs
    else if leAt bs 16 8 &&& (0xF00000010000FFFF : Nat) ≠ leAt bs 16 8 then finish s d stInvalidParam 0
    else onBarrier s d (dieBit (par bs 20 0 1)) (fun s => sendRead s d bs 0))

/-- A code a FIELD_CMD may carry, with a payload count that fits it (R332, R439). -/
def fieldCodeOk (code words : Nat) : Bool :=
  ((decide (4 ≤ code) && decide (code ≤ 7)) || (decide (0x100 ≤ code) && decide (code ≤ 0x2FF))) &&
    match cmdShape code with
    | none => true
    | some x => x.1 == words

/-- FIELD_CMD (R439, R440). -/
def execFieldCmd (d : DescRef) (s : State) : Out :=
  onDesc s d 0x68 (fun s bs =>
    let die := dieBit (par bs 8 0 1)
    let code := leAt bs 10 2
    let words := par bs 12 0 4
    if !fieldCodeOk code words then finish s d stInvalidParam 0
    else onBarrier s d die (fun s =>
      let s := if code = 6 then noReply s die (leAt bs 16 8 % 65536) else s
      barCmd s die code 0 (if words = 1 then [leAt bs 16 8] else []) (.command d)))

/-! ## DIAG_RUN (R412, R413, R439) -/

/-- The channels a DIAG_RUN names. -/
def diagChannels (r : DiagRun) : List Nat := (List.range 32).filter (bitOf r.mask)

/-- A part of a channel, empty until it arrives. -/
def diagPart (r : DiagRun) (c p : Nat) : List Nat := mapGet (fun _ => []) r.parts (16 * c + p)

/-- Every part of every named channel has arrived. -/
def diagWhole (r : DiagRun) : Bool := (diagChannels r).all (fun c => (List.range 5).all (fun p => !(diagPart r c p).isEmpty))

/-- The channels whose STATUS is 0. -/
def diagGood (r : DiagRun) : Nat :=
  ((diagChannels r).map (fun c => if (diagPart r c 0).isEmpty || bitsOf ((diagPart r c 0).headD 0) 0 3 != 0 then 0 else 2 ^ c)).foldl (· + ·) 0

/-- Write the parts received in ascending channel order, 400 bytes a channel (R439). -/
def diagOut (s : State) (r : DiagRun) : State :=
  forEach ((List.range (diagChannels r).length).zip (diagChannels r)) s (fun s e =>
    forEach (List.range 5) s (fun s p =>
      hostWrite s (r.addr + 400 * e.1 + (if p = 0 then 0 else 16 + 96 * (p - 1))) (wordsBytes (diagPart r e.2 p))))

/-- A DIAG_RUN ends: what arrived is written, and it completes. -/
def endDiag (s : State) (r : DiagRun) (status : Nat) : State :=
  let s := { s with diags := s.diags.filter (fun x => x.ref != r.ref) }
  finish (diagOut s r) r.ref status (diagGood r)

/-- DIAG_RUN (R412). -/
def execDiagRun (d : DescRef) (s : State) : Out :=
  onDesc s d 0x38 (fun s bs =>
    let die := dieBit (par bs 8 0 1)
    let mask := leAt bs 12 4
    let run := leAt bs 16 2
    onBarrier s d die (fun s =>
      let s := { s with diags := s.diags ++ [⟨d, die, mask, run, leAt bs 24 8, [], s.time.cnt⟩] }
      barCmd s die 0x200 0 [mask + 2 ^ 32 * run] (.sweep d)))

/-- Twenty seconds have passed without all parts (Table 12-9). -/
def execDiagRunTimeout (d : DescRef) (s : State) : Out :=
  onHost s (fun s =>
    match s.diags.find? (fun r => r.ref == d) with
    | none => s
    | some r => if ticksReach (s.time.cnt - r.since) 20000000 then endDiag s r stTimeout else s)

end Sys2Proof.Machine
end

