-- ==== Sys2Proof/Machine/FlashBase.lean ====
section
/-! DEFINITION. The boot flash as bytes and its layout (R503, Table 15-1); an unlisted byte reads as erased flash. -/

namespace Sys2Proof.Machine
open Sys2Proof

/-- An erased byte. -/
def flashErased (_ : Nat) : Byte := 0xFF

/-- `n` bytes of flash from `a`. -/
def flashRead (s : State) (a n : Nat) : List Byte := (List.range n).map (fun i => mapGet flashErased s.flash (a + i))

/-- Program bytes at `a`. -/
def flashWrite (s : State) (a : Nat) (bs : List Byte) : State :=
  { s with flash := (bs.foldl (fun (acc : SMap Byte × Nat) b => (mapSet flashErased acc.1 acc.2 b, acc.2 + 1)) (s.flash, a)).1 }

/-- Erase `n` bytes from `a`. -/
def flashErase (s : State) (a n : Nat) : State :=
  { s with flash := mapKeep (fun k => decide (k < a) || decide (a + n ≤ k)) s.flash }

/-- Free bytes (log entry 2), as flash whose erase or program was cut short holds them. -/
def freeBytes (s : State) : Nat → List Byte × State
  | 0 => ([], s)
  | n + 1 =>
    let (b, s) := takeFree s 8
    let (bs, s) := freeBytes s n
    (b :: bs, s)

/-- Leave `n` bytes from `a` at free values. -/
def flashSpoil (s : State) (a n : Nat) : State :=
  let (bs, s) := freeBytes s n
  flashWrite s a bs

/-- The regions of Table 15-1. -/
def headerAt (b : Bool) : Nat := if b then 0x10000 else 0
def activeAt : Nat := 0x20000
def stagingAt : Nat := 0x1820000
def storeAt (copy : Nat) : Nat := 0x3020000 + 0x400000 * copy
def logAt : Nat := 0x3820000

/-- The bytes of an image region and of the log. -/
def imageMax : Nat := 25165824
def logBytes : Nat := 0x400000

end Sys2Proof.Machine
end

