-- ==== Sys2Proof/Machine/StoreBase.lean ====
section
/-! DEFINITION. The configuration store in flash: its copies, their sections and its limit set (R516 to R518). -/

namespace Sys2Proof.Machine
open Sys2Proof

/-- A store copy's header (R516): generation, length, image CRC and AUTOSTART. -/
structure StoreHeader where
  gen : Nat
  len : Nat
  crc : Nat
  auto : Bool

/-- The largest configuration image (Table 12-7). -/
def storeMax : Nat := 4190208

/-- The bytes of a store header. -/
def storeHeaderBytes (h : StoreHeader) : List Byte :=
  let b := toBytes 4 0x53544647 ++ toBytes 4 h.gen ++ toBytes 4 h.len ++ toBytes 4 h.crc ++ toBytes 4 (b2n h.auto)
  b ++ toBytes 4 (crc32c b)

/-- The image of a copy. -/
def storeImage (s : State) (c len : Nat) : List Byte := flashRead s (storeAt c + 0x1000) len

/-- The header of copy `c` where the copy is valid: its header CRC and its image CRC are correct (R516). -/
def storeCopy (s : State) (c : Nat) : Option StoreHeader :=
  let b := flashRead s (storeAt c) 24
  let h : StoreHeader := ⟨leAt b 4 4, leAt b 8 4, leAt b 12 4, bitOf (leAt b 16 4) 0⟩
  if leAt b 0 4 = 0x53544647 ∧ leAt b 20 4 = crc32c (b.take 20) ∧ h.len ≤ storeMax ∧ h.crc = crc32c (storeImage s c h.len) then
    some h
  else none

/-- The copy in use: the valid one with the higher GEN, copy 0 when they are equal (R518). -/
def storeInUse (s : State) : Option (Nat × StoreHeader) :=
  match storeCopy s 0, storeCopy s 1 with
  | some a, some b => if a.gen < b.gen then some (1, b) else some (0, a)
  | some a, none => some (0, a)
  | none, some b => some (1, b)
  | none, none => none

/-- The sections of an image: TYPE and data (R517); none where its structure fails. -/
def sectionsFrom : Nat → List Byte → Option (List (Nat × List Byte))
  | _, [] => some []
  | 0, _ => none
  | n + 1, bs =>
    let t := leAt bs 0 2
    let len := leAt bs 4 4
    let room := (len + 7) / 8 * 8
    if bs.length < 8 + room ∨ leAt bs 2 2 ≠ 0 ∨ !(decide (1 ≤ t) && decide (t ≤ 6)) ∨
        !(bytesAt bs (8 + len) (room - len)).all (· == 0) then none
    else match sectionsFrom n (bs.drop (8 + room)) with
      | none => none
      | some rest => some ((t, bytesAt bs 8 len) :: rest)

/-- The sections of a whole image: at most one each of RATE, SEAL and START (R517). -/
def storeSections (im : List Byte) : Option (List (Nat × List Byte)) :=
  match sectionsFrom im.length im with
  | none => none
  | some ss =>
    if [1, 2, 6].any (fun t => decide (1 < (ss.filter (fun x => x.1 == t)).length)) then none else some ss

/-- The sections of the copy in use; none at all where no copy is valid. -/
def configSections (s : State) : List (Nat × List Byte) :=
  match storeInUse s with
  | none => []
  | some (c, h) => (storeSections (storeImage s c h.len)).getD []

/-- The data of the section of a type that may appear once. -/
def configSection (s : State) (t : Nat) : Option (List Byte) :=
  match (configSections s).find? (fun x => x.1 == t) with
  | none => none
  | some x => some x.2

/-- A SEAL section's record for a register of a die: its value (Table 15-6). -/
def sealRecord (bs : List Byte) (d : Die) (a : Nat) : Option Word :=
  match (List.range (bs.length / 8)).find? (fun i => leAt bs (8 * i) 1 == dieNum d && leAt bs (8 * i + 2) 2 == a) with
  | none => none
  | some i => some (BitVec.ofNat 32 (leAt bs (8 * i + 4) 4))

/-- A value for every sealed limit of a die from the store, where the store holds a valid limit set (R342, R518). -/
def limitSet (s : State) : Option (List Byte) :=
  match configSection s 2 with
  | none => none
  | some bs =>
    if (allDies.filter (diePresent s)).all (fun d => limitRegs.all (fun a =>
        match sealRecord bs d a with
        | none => false
        | some w => (limitsOf a).all (fun l => !pastTight l w))) then some bs
    else none

/-- The word that holds every sealed field of a register at its tightest value. -/
def tightWord (a : Nat) : Word :=
  (limitsOf a).foldl (fun w l => fldPut l.fld (wrapTo l.fld.width l.tight) w) (fieldReset a)

end Sys2Proof.Machine
end

