-- ==== Sys2Proof/Machine/BarOps.lean ====
section
/-! DEFINITION. What the host die does with its barriers: lanes and links, the messages it accepts, acknowledgements,
sealing, samples and sense values (R326 to R337, R342, R354 to R356, R567). -/

namespace Sys2Proof.Machine
open Sys2Proof

/-! ## Sources and links -/

/-- BAR source index `i` of a die, and FLD source index `i` (Table 09-9). -/
def barSource (d : Die) (i : Nat) : Nat := 0x380 + 0x40 * dieNum d + i
def fldSource (d : Die) (i : Nat) : Nat := 0x400 + 0x40 * dieNum d + i

/-- The datum of a BAR source: the counter of its event, where the event has one (Table 14-9). -/
def barDatum (s : State) (d : Die) (i datum : Nat) : Nat :=
  match i with
  | 5 => (rd s (Reg.BAR_CNT_CRC (dieNum d))).toNat
  | 6 => (rd s (Reg.BAR_CNT_GAP (dieNum d))).toNat
  | 7 => (rd s (Reg.BAR_CNT_MISMATCH (dieNum d))).toNat
  | 8 => (rd s (Reg.BAR_CNT_ACKFAIL (dieNum d))).toNat
  | 9 => (rd s (Reg.BAR_CNT_LATE (dieNum d))).toNat
  | _ => datum

/-- Raise a BAR source. -/
def barRaise (s : State) (d : Die) (i datum : Nat) : State := raise s (barSource d i) noInst (barDatum s d i datum)

/-- Set BAR_STAT.LINK. -/
def setLink (s : State) (d : Die) (l : Nat) : State := rput s (Reg.BAR_STAT (dieNum d)) F.BAR_STAT_LINK l

/-- The link state without the UP conditions: TRAINING with a locked upstream lane, DOWN without (R337). -/
def laneLink (s : State) (d : Die) : Nat :=
  if ron s (Reg.BAR_STAT (dieNum d)) F.BAR_STAT_UL0 ∨ ron s (Reg.BAR_STAT (dieNum d)) F.BAR_STAT_UL1 then lkTraining else lkDown

/-- A tally whose field records cannot take effect aborts with cause FIELD (R262, R268, R337). -/
def failField (s : State) (id : Nat) : State := failFieldWith raise s id

/-- A link that was UP is lost (R337). -/
def linkLost (s : State) (d : Die) : State :=
  let s := setLink (setBar s d { barAt s d with upAt := none }) d (laneLink s d)
  let s := barRaise s d 4 0
  coordinate (forEach (unacked s d) s failField)

/-- An upstream lane gains or loses block lock (R326, R337). -/
def upperLock (s : State) (d : Die) (i : Nat) (locked : Bool) : State :=
  let f := if i = 0 then F.BAR_STAT_UL0 else F.BAR_STAT_UL1
  let was := ron s (Reg.BAR_STAT (dieNum d)) f
  let s := rbit s (Reg.BAR_STAT (dieNum d)) f locked
  let s := if barLink s d = lkUp then s else setLink s d (laneLink s d)
  let s := if laneLink s d = lkDown then setBar s d { barAt s d with status := false } else s
  if was && !locked then barRaise s d i 0 else s

/-- A lane that a field die receives gains or loses block lock; its PLL follows (R326, R338). -/
def lowerLock (s : State) (d : Die) (i : Nat) (locked : Bool) : State := followPll (fbit s d Reg.FLD_STAT ⟨5 + i, 1⟩ locked) d

/-- Block lock as one more sync header is tested, with the headers tested and those not valid so far: 64 valid ones in a
row give lock; a header that is not valid takes it where there is no lock, or where it is the 16th of 64 (R326; the numbers
are IEEE 802.3's: PRESUMED, log entry 137). -/
def lockStep (lock : Bool) (x : Nat × Nat) (valid : Bool) : Bool × Nat × Nat :=
  let n := x.1 + 1
  let bad := x.2 + b2n (!valid)
  if !valid && (!lock || bad == 16) then (false, 0, 0)
  else if n = 64 then (lock || bad == 0, 0, 0)
  else (lock, n, bad)

/-- A sync header arrives on an upstream lane. -/
def upperHeader (d : Die) (i : Nat) (s : State) (valid : Bool) : State :=
  let lock := ron s (Reg.BAR_STAT (dieNum d)) (if i = 0 then F.BAR_STAT_UL0 else F.BAR_STAT_UL1)
  let (now, x) := lockStep lock (mapGet (fun _ => (0, 0)) (barAt s d).sync i) valid
  let s := setBar s d { barAt s d with sync := mapSet (fun _ => (0, 0)) (barAt s d).sync i x }
  if now == lock then s else upperLock s d i now

/-- A sync header arrives on a lane that a field die receives. -/
def lowerHeader (d : Die) (i : Nat) (s : State) (valid : Bool) : State :=
  let lock := fon s d Reg.FLD_STAT ⟨5 + i, 1⟩
  let (now, x) := lockStep lock (mapGet (fun _ => (0, 0)) (dieAt s d).sync i) valid
  let s := setDie s d { dieAt s d with sync := mapSet (fun _ => (0, 0)) (dieAt s d).sync i x }
  if now == lock then s else lowerLock s d i now

/-- Sync headers arrive on a lane, each valid or not; the lane gains or loses block lock by them (R326). -/
def execBarrierLaneLock (d : Die) (lane : Lane) (headers : List Bool) (s : State) : Out :=
  let upper (i : Nat) : Out := onHost s (fun s => if !diePresent s d then s else forEach headers s (upperHeader d i))
  let lower (i : Nat) : Out := onDie s d (fun s => forEach headers s (lowerHeader d i))
  match lane with
  | .ul0 => upper 0
  | .ul1 => upper 1
  | .dl0 => lower 0
  | .dl1 => lower 1
  | .twin0 => lower 2
  | .twin1 => lower 3

/-- LINK_TO or two sample periods, whichever is longer, in TIME counts × 10^6 / 393,216,000 s (R337). -/
def linkSilent (s : State) (d : Die) : Bool :=
  let n := s.time.cnt - (barAt s d).heardAt
  ticksReach n (rget s (Reg.BAR_TIMING (dieNum d)) F.BAR_TIMING_LINK_TO) && decide (2 * 393216000 ≤ n * fsHz s)

/-- The link's time-outs (R337). -/
def execBarrierLinkTimeout (d : Die) (s : State) : Out :=
  onHost s (fun s => if barUp s d && (linkSilent s d || decide (4 ≤ (barAt s d).blocks)) then linkLost s d else s)

/-! ## Accepting an upstream message (R327, R329) -/

/-- An upstream message has its type's LEN and no reserved bit set (Table 09-2, R336, R413). -/
def upShape (ws : List Nat) : Bool :=
  ws.length == msgLen ws + 1 &&
  match msgType ws with
  | 8 => msgLen ws == 9 && msgArgA ws == 0 && onlyBits (msgArgB ws) 3 && onlyBits (msgW ws 0) (lowMask 48)
  | 9 =>
    msgArgB ws == 0 &&
      (if msgArgA ws = 0 then msgLen ws == 3 && onlyBits (msgW ws 1) 0xFFFFFFFFFFFF1FFF
       else if msgArgA ws = 1 then
         msgLen ws == 3 && onlyBits (msgW ws 0) 0xFFFFFFFF0000FFFF && msgW ws 1 == 0 && msgW ws 2 == 0
       else decide (0x100 ≤ msgArgA ws) && decide (msgArgA ws ≤ 0x10F) && msgLen ws == 9 && onlyBits (msgW ws 0) (lowMask 48))
  | 10 =>
    msgLen ws == 2 && onlyBits (msgArgA ws) 63 && (decide (msgArgB ws ≤ 31) || msgArgB ws == 255) &&
      onlyBits (msgW ws 0) (lowMask 48) && onlyBits (msgW ws 1) (lowMask 32)
  | 11 => msgLen ws == 0
  | 12 =>
    decide (msgArgB ws % 8 ≤ 4) && msgLen ws == (if msgArgB ws % 8 = 0 then 2 else 12) &&
      (msgArgB ws % 8 != 0 || (onlyBits (msgW ws 0) 0xFFFFFFFF00FFF707 && onlyBits (msgW ws 1) (lowMask 48)))
  | _ => false

/-- Count a CRC failure; every 256th is raised. -/
def badCrc (s : State) (d : Die) : State :=
  let a := Reg.BAR_CNT_CRC (dieNum d)
  let s := radd (rset s (Reg.BAR_STAT (dieNum d)) F.BAR_STAT_CRC_ERR) a F.BAR_CNT_CRC_COUNT 1
  if rget s a F.BAR_CNT_CRC_COUNT % 256 = 0 then barRaise s d 5 0 else s

/-- A copy that is not accepted: a second copy that differs from the first is a lane mismatch (R329). -/
def secondCopy (s : State) (d : Die) (ws : List Nat) : State :=
  match (barAt s d).rx with
  | none => s
  | some (seq, first) =>
    if seq = msgSeq ws ∧ first ≠ ws then
      let s := rset s (Reg.BAR_STAT (dieNum d)) F.BAR_STAT_MISMATCH
      barRaise (radd s (Reg.BAR_CNT_MISMATCH (dieNum d)) F.BAR_CNT_MISMATCH_COUNT 1) d 7 0
    else s

/-- Messages were lost before this one (R329). -/
def lostBefore (s : State) (d : Die) (n : Nat) : State :=
  if n = 0 then s
  else
    let s := rset s (Reg.BAR_STAT (dieNum d)) F.BAR_STAT_SEQ_GAP
    barRaise (radd s (Reg.BAR_CNT_GAP (dieNum d)) F.BAR_CNT_GAP_COUNT n) d 6 0

/-- Any valid upstream message brings the link UP while a die-status STATUS is known since the lanes locked and within the
last four blocks (R337). -/
def hearLink (s : State) (d : Die) : State :=
  let b := barAt s d
  if barLink s d ≠ lkUp ∧ !inReset s (unitBar d) ∧ b.status ∧ b.blocks < 4 then setLink (setBar s d { b with upAt := some s.time.cnt }) d lkUp else s

/-- Take one copy of a message from the upstream lanes: whether it is accepted. One discarded for its TYPE, LEN or reserved
fields is counted (R327). -/
def hostAccept (s : State) (d : Die) (ws : List Nat) : State × Bool :=
  if !msgCrcOk ws then (badCrc s d, false)
  else if !upShape ws then (setBar s d { barAt s d with dropped := (barAt s d).dropped + 1 }, false)
  else match seqVerdict (barAt s d).rx (msgSeq ws) with
  | none => (secondCopy s d ws, false)
  | some lost =>
    (hearLink (lostBefore (setBar s d { barAt s d with rx := some (msgSeq ws, ws), heardAt := s.time.cnt }) d lost) d, true)

/-- A message arrives at the host die from an upstream lane; a well-formed message of another type is another command
(log entry 3). -/
def onUp (s : State) (d : Die) (ws : List Nat) (type : Nat) (f : State → State) : Out :=
  onHost s (fun s =>
    if !diePresent s d || (msgCrcOk ws && upShape ws && msgType ws != type) then s
    else
      let (s, ok) := hostAccept s d ws
      if ok then f s else s)

/-! ## SENSE (R335) -/

/-- The channels that class 9 owns as an instance. -/
def senseChannels (s : State) (inst : Nat) : List Nat := (List.range 1024).filter (owns s clSense inst)

/-- A sense value of sample `k` goes into the bead of block floor(k / BLK); the bead of another block than the present
one takes none (log entry 46). -/
def senseValue (s : State) (inst k : Nat) (w : Word) : State :=
  forEach (senseChannels s inst) s (fun s c =>
    let j := sinceSample k (s.grid.index * blk s)
    if j < blk s then fabWrite s clSense inst c j w false else lateWrite s c)

/-- SENSE (R335). -/
def execSense (d : Die) (ws : List Nat) (s : State) : Out :=
  onUp s d ws btSense (fun s =>
    let k := msgW ws 0
    forEach (List.range 8) s (fun s i =>
      let c := 32 * dieNum d + 8 * msgArgB ws + i
      let v := msgW ws (1 + i)
      senseValue (senseValue s c k (BitVec.ofNat 32 v)) (64 + c) k (BitVec.ofNat 32 (v / 2 ^ 32))))

/-- The sense map's key of an instance: VS 2c, IS 2c + 1. -/
def senseKey (inst : Nat) : Nat := 2 * (inst % 32) + inst / 64

/-- Fill the indices of a sense bead that no value reached with the value before, from sample `j` on. -/
def fillSense (c inst : Nat) : List Nat → State → Word → State × Word
  | [], s, prev => (s, prev)
  | j :: js, s, prev =>
    if bitOf (chanAt s c).written j then fillSense c inst js s (gsGet s (beadWord s (writeBuf s) c j))
    else fillSense c inst js (fabWrite s clSense inst c j prev true) prev

/-- The deadline of the sense beads (R335): a bead with some values is completed. Without any value before, the first
one is free (log entry 2). -/
def senseDeadline (s : State) : State :=
  forEach ((List.range 1024).filter (fun c => (ownerOf s c).1 == clSense && decide ((chanAt s c).written ≠ 0))) s (fun s c =>
    let inst := (ownerOf s c).2
    let d : Die := if inst % 64 < 32 then .a else .b
    let (prev, s) := match mapGet (fun _ => none) (barAt s d).sense (senseKey inst) with
      | some w => (w, s)
      | none => if bitOf (chanAt s c).written 0 then (0, s) else takeFree s 32
    let (s, last) := fillSense c inst (List.range (blk s)) s prev
    setBar s d { barAt s d with sense := mapSet (fun _ => none) (barAt s d).sense (senseKey inst) (some last) })

/-! ## Sealing (R342, R343) -/

/-- The supervisor seals a die: one SEAL for every sealed limit, the last with END (R342). -/
def sealDie (s : State) (d : Die) : State :=
  let set := limitSet s
  let s := forEach limitRegs s (fun s a =>
    let w := match set with
      | none => tightWord a
      | some bs => (sealRecord bs d a).getD (tightWord a)
    barAsk s d btSeal a (if limitRegs.getLast? = some a then 1 else 0) [w.toNat] .seal)
  if set.isNone then barRaise s d 0x0A 0 else s

/-- The supervisor seals a die that reports SEALED = 0, once at a time (R343). -/
def sealIfAsked (s : State) (d : Die) (isSealed : Bool) : State :=
  if isSealed || !s.boot.supervisor || (barAt s d).waits.any (fun w => w.use == .seal) then s else sealDie s d

/-- A die has stayed UNSEALED for a second since its link came UP (R342). -/
def execDieUnsealedTimeout (d : Die) (s : State) : Out :=
  onHost s (fun s =>
    match (barAt s d).upAt with
    | none => s
    | some c =>
      if barUp s d && !ron s (Reg.BAR_STAT (dieNum d)) F.BAR_STAT_SEALED && ticksReach (s.time.cnt - c) 1000000 then
        barRaise (setBar s d { barAt s d with upAt := none }) d 0x0A 0
      else s)

/-! ## STATUS (R336) -/

/-- A downstream lane that the die reports unlocked. -/
def lowerLane (s : State) (d : Die) (f : Fld) (i : Nat) (locked : Bool) : State :=
  let was := ron s (Reg.BAR_STAT (dieNum d)) f || barLink s d != lkUp
  let s := rbit s (Reg.BAR_STAT (dieNum d)) f locked
  if was && !locked then barRaise s d i 0 else s

/-- A die-status STATUS: what it reports, the link's state, and sealing (R336, R337, R343). -/
def dieStatus (s : State) (d : Die) (ws : List Nat) : State :=
  let w1 := msgW ws 1
  let a := Reg.BAR_STAT (dieNum d)
  let s := lowerLane (lowerLane s d F.BAR_STAT_DL0 2 (bitOf w1 4)) d F.BAR_STAT_DL1 3 (bitOf w1 5)
  let s := rput (rbit (rbit s a F.BAR_STAT_SEALED (bitOf w1 3)) a F.BAR_STAT_TWIN_UP (bitOf w1 11)) a F.BAR_STAT_FLD_STATE (bitsOf w1 0 3)
  let s := rput s (Reg.BAR_USING_TWIN (dieNum d)) F.BAR_USING_TWIN_MASK (bitsOf w1 32 32)
  let s := rput s (Reg.BAR_DIV (dieNum d)) F.BAR_DIV_MASK (bitsOf (msgW ws 2) 0 32)
  let s := rput s (Reg.BAR_EPOCH (dieNum d)) F.BAR_EPOCH_EPOCH (bitsOf (msgW ws 2) 32 32)
  let n := bitsOf w1 16 16
  let b := barAt s d
  let more := match b.discards with
    | none => decide (n ≠ 0)
    | some m => decide (n ≠ m)
  let b := { b with discards := some n, blocks := 0, status := true }
  let s := if barLink s d = lkUp ∨ inReset s (unitBar d) then setBar s d b else setLink (setBar s d { b with upAt := some s.time.cnt }) d lkUp
  sealIfAsked (if more then barRaise s d 0x0B n else s) d (bitOf w1 3)

/-- A part of a field section (R276, R336): it joins the banks whose carry asked for its sample index. -/
def sectionPart (s : State) (d : Die) (p kc : Nat) (bytes : List Byte) : State :=
  changeBanks s (fun b =>
    if kc = b.kc % 2 ^ 48 ∧ !fieldInvalid b d then { b with parts := mapSet (fun _ => []) b.parts (16 * dieNum d + p) bytes } else b)

/-- STATUS; `discarded` names a tally whose records the die discarded at its sample instant (R263, R336; log entry 47). -/
def execStatus (d : Die) (ws : List Nat) (discarded : Option (Fin 16)) (s : State) : Out :=
  onUp s d ws btStatus (fun s =>
    let kind := msgArgA ws
    if kind = 0 then
      let s := dieStatus s d ws
      match discarded with
      | none => s
      | some id => raise s 0x285 id 0
    else if kind = 1 then
      setBar s d { barAt s d with
        replies := mapSet (fun _ => none) (barAt s d).replies (bitsOf (msgW ws 0) 0 16) (some (bitsOf (msgW ws 0) 32 32)) }
    else sectionPart s d (kind - 0x100) (msgW ws 0) (wordsBytes (ws.drop 2)))

/-! ## FAULT (R354) -/

/-- FAULT: the FLD source is raised and held in BAR_FAULT_LAST. -/
def execFault (d : Die) (ws : List Nat) (s : State) : Out :=
  onUp s d ws btFault (fun s =>
    let a := Reg.BAR_FAULT_LAST (dieNum d)
    let s := rset (rput (rput s a F.BAR_FAULT_LAST_INDEX (msgArgA ws)) a F.BAR_FAULT_LAST_CHANNEL (msgArgB ws)) a F.BAR_FAULT_LAST_VALID
    raise s (fldSource d (msgArgA ws)) (if msgArgB ws = 255 then noInst else msgArgB ws) (msgW ws 1))

/-! ## Acknowledgements (R331, R440) -/

/-- The value of the read reply for an address; a lost reply leaves it open (log entry 48). -/
def replyValue (s : State) (d : Die) (a : Nat) : State × Nat :=
  match mapGet (fun _ => none) (barAt s d).replies a with
  | some v => (s, v)
  | none => let (w, s) := takeFree s 32; (s, w.toNat)

/-- One word of a KIND 3 PARAM_READ has come: it is written, and the next one is asked for (R438, R440). -/
def readCame (s : State) (d : Die) (ref : DescRef) (k : Nat) : State :=
  match flightAt s ref with
  | none => s
  | some f =>
    let (s, v) := replyValue s d ((leAt f.bytes 16 2 + k) % 65536)
    let s := hostWrite s (leAt f.bytes 32 8 + 4 * k) (toBytes 4 v)
    if k + 1 = leAt f.bytes 24 4 then finish s ref stOk (k + 1)
    else if barFenced s d then finish s ref stTargetFenced (k + 1)
    else if barLink s d ≠ lkUp then finish s ref stNotReady (k + 1)
    else sendRead s ref f.bytes (k + 1)

/-- The answer to a supervision READ has come: its channel's part of the masks, then the next READ, or the whole is taken
(R535). -/
def watchCame (s : State) (d : Die) (i : Nat) : State :=
  let (s, v) := replyValue s d (watchReg i)
  let b := barAt s d
  let c := i / 3
  let hit := match i % 3 with
    | 0 => v % 64 != 0
    | 1 => v % 8 == pwTripped
    | _ => decide (2 ≤ v % 8) && decide (v % 8 ≤ 5)
  let put (m : Nat) : Nat := if hit then m ||| 2 ^ c else m
  let x := b.watch
  let x := if i % 3 = 2 then { x with load := put x.load } else { x with latch := put x.latch }
  let x := if i % 3 = 1 ∧ bitOf v 4 then { x with gate := x.gate ||| 2 ^ c } else x
  if i + 1 < 96 then
    let s := setBar s d { b with watch := x }
    if barUp s d && !barFenced s d then sendWatch s d (i + 1) else s
  else setBar s d { b with watch := { x with latches := x.latch, loads := x.load, gates := x.gate } }

/-- What the result of an acknowledged message brings about. -/
def acknowledged (s : State) (d : Die) (w : BarWait) (result : Nat) : State :=
  match w.use with
  | .param id ord =>
    if result = akAccepted then
      let t := tallyAt s id
      setTally s id { t with recs := (List.range t.recs.length).zipWith (fun i r => if i = ord then { r with acked := true } else r) t.recs }
    else coordinate (failField s id)
  | .command ref =>
    if result ≠ akAccepted then finish s ref stInvalidParam result
    else if w.argA = 6 then
      let (s, v) := replyValue s d (w.payload.headD 0 % 65536)
      finish s ref stOk (2 ^ 32 * v)
    else finish s ref stOk 0
  | .read ref k => if result = akAccepted then readCame s d ref k else finish s ref stInvalidParam (k + 2 ^ 32 * result)
  | .sweep ref => if result = akAccepted then s else finish (dropDiag s ref) ref stInvalidParam result
  | .tally _ => s
  | .watch i => if result = akAccepted then watchCame s d i else s
  | .seal => s
  | .other => s

/-- ACK: it answers the message of its SEQ (R331). -/
def execAck (d : Die) (ws : List Nat) (s : State) : Out :=
  onUp s d ws btAck (fun s =>
    let b := barAt s d
    match b.waits.find? (fun w => w.seq == msgArgA ws) with
    | none => s
    | some w => acknowledged (setBar s d { b with waits := b.waits.erase w }) d w (msgArgB ws))

/-- Send a message again, with a new SEQ (R331); no PARAM goes while the link is not UP (R337). -/
def resend (s : State) (d : Die) (w : BarWait) : State :=
  let (s, seq) := if w.type = btParam ∧ barLink s d ≠ lkUp then (s, w.seq) else barEmit s d w.type w.argA w.argB w.payload
  let b := barAt s d
  let w' := { w with seq := seq, tries := w.tries + 1, sentAt := s.time.cnt, before := w.seq :: w.before }
  setBar s d { b with waits := b.waits.replace w w' }

/-- A message whose retries are spent (R331, R440); a commit CMD of a tally raises TLY source 0x285 (Table 07-7). -/
def ackFailed (s : State) (d : Die) (w : BarWait) : State :=
  let b := barAt s d
  let s := setBar s d { b with waits := b.waits.erase w }
  let s := rset s (Reg.BAR_STAT (dieNum d)) F.BAR_STAT_ACK_FAIL
  let s := barRaise (radd s (Reg.BAR_CNT_ACKFAIL (dieNum d)) F.BAR_CNT_ACKFAIL_COUNT 1) d 8 0
  match w.use with
  | .tally id => raise s 0x285 id 0
  | _ => waitLost s w

/-- A message has waited ACK_TO for its ACK (R331). -/
def ackDue (s : State) (d : Die) (w : BarWait) : Bool :=
  ticksReach (s.time.cnt - w.sentAt) (max 1 (rget s (Reg.BAR_TIMING (dieNum d)) F.BAR_TIMING_ACK_TO))

/-- No ACK within ACK_TO (R331). -/
def execAckTimeout (d : Die) (seq : Fin 65536) (s : State) : Out :=
  onHost s (fun s =>
    match (barAt s d).waits.find? (fun w => w.seq == seq.val && ackDue s d w) with
    | none => s
    | some w =>
      if w.tries < rget s (Reg.BAR_CTRL (dieNum d)) F.BAR_CTRL_RETRIES then resend s d w
      else ackFailed s d w)

/-! ## DIAG_RESULT (R413) -/

/-- DIAG_RESULT: the part joins the DIAG_RUN that waits for it. -/
def execDiagResult (d : Die) (ws : List Nat) (s : State) : Out :=
  onUp s d ws btDiag (fun s =>
    let c := msgArgB ws / 8
    match s.diags.find? (fun r => r.die == d && r.run == msgArgA ws && bitOf r.mask c) with
    | none => s
    | some r =>
      let r' := { r with parts := mapSet (fun _ => []) r.parts (16 * c + msgArgB ws % 8) ws.tail }
      let s := { s with diags := s.diags.map (fun x => if x.ref = r.ref then r' else x) }
      if diagWhole r' then endDiag s r' stOk else s)

/-! ## Samples (R225, R334, R567) -/

/-- The BAR_CHMAP words in force, A before B (R567). -/
def chmapNow (s : State) : List Word :=
  (List.range 32).map (fun c => rd s (Reg.BAR_CHMAP 0 c)) ++ (List.range 32).map (fun c => rd s (Reg.BAR_CHMAP 1 c))

/-- The map the bead in play was made under. -/
def playMap (s : State) (fch : Nat) : Word := s.chmapPlay.getD fch 0

/-- The sample sent to field channel `fch` at position `j`: its value, whether it is VALID and whether a route gives it.
While the pipeline is stopped its part of a route's sample is the fill values of the mapped channel (R57, R227). -/
def sendSample (s : State) (fch j : Nat) : State × Nat × Bool × Bool :=
  let m := playMap s fch
  let pipe := running s && fldGet F.BAR_CHMAP_EN m == 1
  let c := fldGet F.BAR_CHMAP_CH m
  let mapped := decide (fldGet F.BAR_CHMAP_EN m = 1)
  let s := if mapped then noteAccess s 13 (readBuf s) c j else s
  let (s, w) := fieldSample s fch (if mapped then busSample s 13 c j else 0)
  let routed := (engagedOn s fch).isSome
  (s, if pipe || routed then w.toNat else 0, pipe || routed, routed)

/-- The samples of one half of a die, in channel order. -/
def halfSamples (d : Die) (h j : Nat) : List Nat → State → State × List (Nat × Bool × Bool)
  | [], s => (s, [])
  | i :: is, s =>
    let (s, x) := sendSample s (32 * dieNum d + 16 * h + i) j
    let (s, xs) := halfSamples d h j is s
    (s, x :: xs)

/-- A mask of the places where a test holds. -/
def placeMask (xs : List (Nat × Bool × Bool)) (p : Nat × Bool × Bool → Bool) : Nat :=
  ((List.range xs.length).zip xs).foldl (fun m e => if p e.2 then m + 2 ^ e.1 else m) 0

/-- Send the SAMPLES message of one half (Table 09-2). -/
def sendHalf (s : State) (d : Die) (h j k : Nat) : State :=
  let (s, xs) := halfSamples d h j (List.range 16) s
  let ws := (List.range 8).map (fun i => (xs.getD (2 * i) (0, false, false)).1 + 2 ^ 32 * (xs.getD (2 * i + 1) (0, false, false)).1)
  (barEmit s d btSamples (placeMask xs (fun x => x.2.2)) h ((placeMask xs (fun x => x.2.1) * 2 ^ 48 + k % 2 ^ 48) :: ws)).1

/-- A direct route to a die is engaged. -/
def dieRouted (s : State) (d : Die) : Bool :=
  (enabledEntries s P.MIX_DR_EN).any (fun r => pget s P.MIX_DR_FCH r / 32 == dieNum d && routeEngaged s r)

/-- The send instant of position `j` (R334): the two SAMPLES messages, or the instant is missed. -/
def sampleSend (s : State) (d : Die) (j : Nat) : State :=
  if !diePresent s d ∨ blk s ≤ j then s
  else
    let due := running s || dieRouted s d
    let k := (s.grid.index - 1) * blk s + j
    let s' := sendHalf (sendHalf s d 0 j k) d 1 j k
    if due && barSends s d then s'
    else
      let s := { s' with sent := s.sent, barA := s.barA, barB := s.barB }
      if !due then s
      else
        let s := rset s (Reg.BAR_STAT (dieNum d)) F.BAR_STAT_SEND_LATE
        barRaise (radd s (Reg.BAR_CNT_LATE (dieNum d)) F.BAR_CNT_LATE_COUNT 1) d 9 0

/-- SAMPLE_SEND_INSTANT (R334). -/
def execSampleSendInstant (d : Die) (j : Fin 32) (s : State) : Out := onHost s (fun s => sampleSend s d j)

/-- A write of BAR_CNT_CLR (Table 09-11). -/
def hostBarCntClr (d : Die) (w : Word) (s : State) : State :=
  if diePresent s d && fldGet F.BAR_CNT_CLR_GO w == 1 then
    resetRange s (Reg.BAR_CNT_CRC (dieNum d)) (Reg.BAR_CNT_CLR (dieNum d))
  else s

/-- The access itself, through the bus matrix. -/
def execBarCntClr (d : Die) (w : Word) (s : State) : Out := onBar s (Reg.BAR_CNT_CLR (dieNum d)) (fun s => hostBarCntClr d w s)

/-! ## At a boundary -/

/-- The HEARTBEAT of the block that begins, and the count of blocks without a die status (R333, R337). -/
def barBoundary (s : State) (d : Die) : State :=
  if !diePresent s d then s
  else
    let s := setBar s d { barAt s d with blocks := (barAt s d).blocks + 1 }
    let argA := b2n (running s) + 2 * rget s Reg.SYS_BLKCFG F.SYS_BLKCFG_FS + 8 * rget s Reg.SYS_BLKCFG F.SYS_BLKCFG_BLK
    (barEmit s d btHeartbeat argA 0 [s.grid.index, rget s Reg.SYS_EPOCH F.SYS_EPOCH_EPOCH]).1

end Sys2Proof.Machine
end

