-- ==== Sys2Proof/Machine/Collector.lean ====
section
/-! DEFINITION. The commands of the fault collector: clearing, masks, injection, leaving fences, self-protection and the
temperature sensors (R474 to R486, R500). -/

namespace Sys2Proof.Machine
open Sys2Proof

/-- A write of an FLT register ends a self-test sequence in progress (R485). -/
def endSelftest (s : State) : State := { s with collector := { s.collector with testKey := false } }

/-- A write of an FLT register other than FLT_SELFTEST. -/
def onFlt (s : State) (a : Nat) (f : State → State) : Out := onBar s a (fun s => f (endSelftest s))

/-! ## Clearing (R477, R481) -/

/-- Clear the STATUS of a source with its FAULT_N latch; no unit is held by it any more (R482). -/
def clearSource (s : State) (id : Nat) : State :=
  let s := rclr s (statusReg id) (statusFld id)
  { s with collector := { s.collector with
      latches := mapErase s.collector.latches id
      fencers := s.collector.fencers.filter (fun f => f.2 != id) } }

/-- Clear the sources of a group whose bits are set in a mask over its 64 indices. -/
def clearSources (s : State) (g mask : Nat) : State :=
  refreshFaultN (forEach ((List.range 64).filter (bitOf mask)) s (fun s i => clearSource s (64 * g + i)))

/-- A write of FLT_STATg: each 1 clears its bit (R477). -/
def hostFltStatClear (g : Fin 64) (hi : Bool) (w : Word) (s : State) : State :=
  clearSources s g (if hi then 2 ^ 32 * w.toNat else w.toNat)

/-- The access itself, through the bus matrix. -/
def execFltStatClear (g : Fin 64) (hi : Bool) (w : Word) (s : State) : Out := onFlt s ((if hi then Reg.FLT_STAT_HI else Reg.FLT_STAT_LO) g) (fun s => hostFltStatClear g hi w s)

/-- A write of FLT_CLR_GRP (R477). -/
def hostFltClrGrp (w : Word) (s : State) : State :=
  if fldGet F.FLT_CLR_GRP_GO w = 1 then clearSources s (fldGet F.FLT_CLR_GRP_GROUP w) (2 ^ 64 - 1) else s

/-- The access itself, through the bus matrix. -/
def execFltClrGrp (w : Word) (s : State) : Out := onFlt s Reg.FLT_CLR_GRP (fun s => hostFltClrGrp w s)

/-- A write of FLT_CNTg (R500). -/
def hostFltCntClr (g : Fin 64) (w : Word) (s : State) : State :=
  if fldGet F.FLT_CNT_CLR w = 1 then rclr s (Reg.FLT_CNT g) F.FLT_CNT_COUNT else s

/-- The access itself, through the bus matrix. -/
def execFltCntClr (g : Fin 64) (w : Word) (s : State) : Out := onFlt s (Reg.FLT_CNT g) (fun s => hostFltCntClr g w s)

/-! ## Masks (R479, R480) -/

/-- A write the collector turns away. -/
def fltRefuse (s : State) : State := rset s Reg.FLT_STAT F.FLT_STAT_REFUSED

/-- Store a source's mask, both copies of it (R484). -/
def setMask (s : State) (id m : Nat) : State :=
  { s with collector := { s.collector with
      masks := mapSet maskReset s.collector.masks id m
      flips := mapSet (fun _ => 0) s.collector.flips (maskKey id) 0 } }

/-- A write of FLT_CFG (R480); the mask is RWL. -/
def hostFltCfg (w : Word) (s : State) : State :=
  let id := rget s Reg.FLT_SEL F.FLT_SEL_ID
  if ron s Reg.SYS_LOCK F.SYS_LOCK_LOCK then s
  else if id = fixedSource ∨ !sourceExists s id then fltRefuse s
  else setMask s id (fldGet F.FLT_CFG_MASK w)

/-- The access itself, through the bus matrix. -/
def execFltCfg (w : Word) (s : State) : Out := onFlt s Reg.FLT_CFG (fun s => hostFltCfg w s)

/-- A write of FLT_CFG_GRP (R480); GO does nothing while SYS_LOCK is set. -/
def hostFltCfgGrp (w : Word) (s : State) : State :=
  let s := rwrite s Reg.FLT_CFG_GRP w
  if fldGet F.FLT_CFG_GRP_GO w = 0 ∨ ron s Reg.SYS_LOCK F.SYS_LOCK_LOCK then s
  else
    let ids := (List.range 64).map (fun i => 64 * fldGet F.FLT_CFG_GRP_GROUP w + i)
    forEach (ids.filter (fun id => sourceExists s id && id != fixedSource)) s
      (fun s id => setMask s id (fldGet F.FLT_CFG_GRP_MASK w))

/-- The access itself, through the bus matrix. -/
def execFltCfgGrp (w : Word) (s : State) : Out := onFlt s Reg.FLT_CFG_GRP (fun s => hostFltCfgGrp w s)

/-! ## Self-protection and injection (R484 to R486) -/

/-- The instance a forced raise carries: the one its source names, else none (Table 14-9; log entry 41). -/
def forcedInst (id : Nat) : Nat :=
  if 0x080 ≤ id ∧ id ≤ 0x095 then id - 0x080
  else if 0x140 ≤ id ∧ id ≤ 0x17F then (id - 0x140) / 4
  else if 0x180 ≤ id ∧ id ≤ 0x1AF then id % 16
  else if 0x1C0 ≤ id ∧ id ≤ 0x1FF then id - 0x1C0
  else if 0x300 ≤ id ∧ id ≤ 0x33F then (id - 0x300) / 8
  else if 0x4C0 ≤ id ∧ id ≤ 0x4C7 then id % 4
  else if 0x520 ≤ id ∧ id ≤ 0x52F then id - 0x520
  else if 0x5C0 ≤ id ∧ id ≤ 0x5C7 then id % 4
  else if id = 0x5C8 then 4
  else noInst

/-- The register and the field of a sensor's reading: H0 to H3, then the DRAM stack. -/
def thermPlace (n : Nat) : Nat × Fld :=
  match n with
  | 0 => (Reg.FLT_THERM_H01, F.FLT_THERM_H01_H0)
  | 1 => (Reg.FLT_THERM_H01, F.FLT_THERM_H01_H1)
  | 2 => (Reg.FLT_THERM_H23, F.FLT_THERM_H23_H2)
  | 3 => (Reg.FLT_THERM_H23, F.FLT_THERM_H23_H3)
  | _ => (Reg.FLT_THERM_DRAM, F.FLT_THERM_DRAM_DRAM)

/-- A sensor's reading in 1/16 K. -/
def thermOf (s : State) (n : Nat) : Int := rgetI s (thermPlace n).1 (thermPlace n).2

/-- The counter of a network event of port `p` (R490): the link's has none. -/
def netCounter (p i : Nat) : Nat :=
  match i with
  | 1 => Reg.NET_RX_FCS p
  | 2 => Reg.NET_WD_COUNT p
  | _ => Reg.NET_TX_LATE_DROP p

/-- The counter of a barrier event of the link engine `b` (R490). -/
def barCounter (b i : Nat) : Option Nat :=
  match i with
  | 5 => some (Reg.BAR_CNT_CRC b)
  | 6 => some (Reg.BAR_CNT_GAP b)
  | 7 => some (Reg.BAR_CNT_MISMATCH b)
  | 8 => some (Reg.BAR_CNT_ACKFAIL b)
  | 9 => some (Reg.BAR_CNT_LATE b)
  | _ => none

/-- The datum a forced raise carries where Table 14-9 gives a reading, a counter or a register as it stands; 0 where it
gives what only an event has (log entry 41). -/
def forcedDatum (s : State) (id : Nat) : Nat :=
  if id = 0x0C2 then (rd s Reg.TIME_REFUSED_NS).toNat
  else if 0x300 ≤ id ∧ id ≤ 0x33F ∧ 1 ≤ id % 8 ∧ id % 8 ≤ 3 then (rd s (netCounter ((id - 0x300) / 8) (id % 8))).toNat
  else if 0x380 ≤ id ∧ id ≤ 0x3FF then
    match barCounter ((id - 0x380) / 64) (id % 64) with
    | none => 0
    | some a => (rd s a).toNat
  else if 0x5C0 ≤ id ∧ id ≤ 0x5C7 then wrapTo 32 (thermOf s (id % 4))
  else if id = 0x5C8 then wrapTo 32 (thermOf s 4)
  else 0

/-- A write of FLT_FORCE (R486). -/
def hostFltForce (w : Word) (s : State) : State :=
  let id := fldGet F.FLT_FORCE_ID w
  if fldGet F.FLT_FORCE_GO w = 0 then s
  else
    let s := compareCtrl s
    if !ron s Reg.FLT_CTRL F.FLT_CTRL_INJ_EN || !sourceExists s id then fltRefuse s
    else if id = fixedSource then selfTrip s true
    else raiseForced s id (forcedInst id) (forcedDatum s id)

/-- The access itself, through the bus matrix. -/
def execFltForce (w : Word) (s : State) : Out := onFlt s Reg.FLT_FORCE (fun s => hostFltForce w s)

/-- A write of FLT_SELFTEST (R485): the second key after the first, while INJ_EN = 1, spoils FLT_CTRL's second copy. -/
def hostFltSelftest (w : Word) (s : State) : State :=
  let s := compareCtrl s
  let key := fldGet F.FLT_SELFTEST_KEY w
  let inj := ron s Reg.FLT_CTRL F.FLT_CTRL_INJ_EN
  if key = 0x5E1F ∧ inj then { s with collector := { s.collector with testKey := true } }
  else if key = 0xA1E5 ∧ inj ∧ s.collector.testKey then
    setFlips { s with collector := { s.collector with testKey := false } } ctrlKey (flipsAt s ctrlKey ^^^ 1)
  else { s with collector := { s.collector with testKey := false } }

/-- The access itself, through the bus matrix. -/
def execFltSelftest (w : Word) (s : State) : Out := onBar s Reg.FLT_SELFTEST (fun s => hostFltSelftest w s)

/-- The key of a configuration word and its width; a source that does not exist has no mask. -/
def configKey (s : State) (w : ConfigWord) : Option (Nat × Nat) :=
  match w with
  | .ctrl => some (ctrlKey, 32)
  | .therm => some (thermKey, 32)
  | .mask n => if sourceExists s n then some (maskKey n, 6) else none

/-- An upset inverts bits of one copy of a word. -/
def upsetConfig (s : State) (u : ConfigUpset) : State :=
  match configKey s u.word with
  | none => s
  | some (k, width) => setFlips s k (flipsAt s k ^^^ (u.bits.toNat % 2 ^ width))

/-- The background scan finds a pair that does not match: one that an upset or the self-test spoiled (R484). -/
def execConfigurationScan (upset : Option ConfigUpset) (s : State) : Out :=
  .next (if !s.powered then s
    else compareAll (match upset with
      | none => s
      | some u => upsetConfig s u))

/-- FAULT_N has been low for FN_MIN ms: it is released if nothing else holds it (R481). FN_MIN is compared as it is used
(R484). -/
def execFaultNMinExpiry (s : State) : Out :=
  .next (if !s.powered then s
    else
      let s := compareCtrl s
      match s.collector.faultNHold with
      | none => s
      | some c =>
        if ticksReach (recorderNow s - c) (1000 * max 1 (rget s Reg.FLT_CTRL F.FLT_CTRL_FN_MIN)) then
          refreshFaultN { s with collector := { s.collector with faultNHold := none } }
        else s)

/-! ## Leaving a fence (R482, Table 14-5) -/

/-- The audio ports that no source of their own holds lose their FENCED bits when M14 is unfenced (R482). -/
def unfencePorts (s : State) : State :=
  forEach (List.range 16) s (fun s n =>
    let s := if unitHeld s (unitTdm n) then s else rclr s (Reg.TDM_STAT n) F.TDM_STAT_FENCED
    if unitHeld s (unitBph n) then s
    else rclr (setRx s (16 + n) { rxAt s (16 + n) with fenced := false }) (Reg.BPH_TX_STAT n) F.BPH_TX_STAT_FENCED)

/-- Whether a unit is fenced, as its own status says. -/
def unitFenced (s : State) (u : Nat) : Bool :=
  match u / 256 with
  | 3 => ron s (Reg.NET_STAT (u % 256)) F.NET_STAT_FENCED
  | 4 => ron s Reg.STR_STAT F.STR_STAT_FENCED
  | 5 => ron s Reg.MIX_STAT F.MIX_STAT_FENCED
  | 6 => (routeAt s (u % 256)).fenced
  | 7 => ron s Reg.DLY_STAT F.DLY_STAT_FENCED
  | 8 => ron s (Reg.BAR_STAT (u % 256)) F.BAR_STAT_FENCED
  | 9 => ron s (Reg.STK_LINK_STAT (u % 256)) F.STK_LINK_STAT_FENCED
  | 10 => ron s Reg.MTX_FENCE_M ⟨u % 256, 1⟩
  | 11 => ron s Reg.MGT_STAT F.MGT_STAT_FENCED
  | _ => false

/-- A unit leaves its fence by FLT_UNFENCE. A network port retrains (R285): its link is not up until NET_LINK_UP, which is no
lost link, so NET source 0x300 + 8p is not raised (DESIGN CHOICE, log entry 110). -/
def unfenceUnit (s : State) (u : Nat) : State :=
  match u / 256 with
  | 3 => linkClearWith raise (rclr s (Reg.NET_STAT (u % 256)) F.NET_STAT_FENCED) (u % 256)
  | 4 => strRestart (rclr s Reg.STR_STAT F.STR_STAT_FENCED)
  | 5 => rclr s Reg.MIX_STAT F.MIX_STAT_FENCED
  | 6 => setRoute s (u % 256) { routeAt s (u % 256) with fenced := false }
  | 7 => delayUnfence s
  | 8 => rclr s (Reg.BAR_STAT (u % 256)) F.BAR_STAT_FENCED
  | 9 => rclr s (Reg.STK_LINK_STAT (u % 256)) F.STK_LINK_STAT_FENCED
  | 10 =>
    let s := rclr s Reg.MTX_FENCE_M ⟨u % 256, 1⟩
    if u % 256 = 14 then unfencePorts s else s
  | 11 => rclr s Reg.MGT_STAT F.MGT_STAT_FENCED
  | _ => s

/-- The units an ID names to FLT_UNFENCE: none for rods, audio ports and sources without a unit; a route's sources name
every fenced route (log entry 42). -/
def unfenceUnits (s : State) (id : Nat) : List Nat :=
  if id = 0x220 ∨ id = 0x221 then ((List.range 64).filter (fun r => (routeAt s r).fenced)).map unitRoute
  else match owningUnit id noInst with
    | none => []
    | some u => if 3 ≤ u / 256 then [u] else []

/-- A write of FLT_UNFENCE (R482). -/
def hostFltUnfence (w : Word) (s : State) : State :=
  let id := fldGet F.FLT_UNFENCE_ID w
  let us := unfenceUnits s id
  if fldGet F.FLT_UNFENCE_GO w = 0 then s
  else if !sourceExists s id || (us.isEmpty && id != 0x220 && id != 0x221) || us.any (unitHeld s) then fltRefuse s
  else forEach (us.filter (unitFenced s)) s unfenceUnit

/-- The access itself, through the bus matrix. -/
def execFltUnfence (w : Word) (s : State) : Out := onFlt s Reg.FLT_UNFENCE (fun s => hostFltUnfence w s)

/-! ## Temperatures (R475, R500) -/

/-- Whether a threshold's source is raised by a reading that reaches it: not again until the reading has fallen 5 K below
it (R475). -/
def thermJudge (s : State) (id inst : Nat) (reading thr : Int) (reached : Bool) : State :=
  let held := mapGet (fun _ => false) s.collector.thermBelow id
  let put (s : State) (b : Bool) : State :=
    { s with collector := { s.collector with thermBelow := mapSet (fun _ => false) s.collector.thermBelow id b } }
  if held then (if reading ≤ thr - 80 then put s false else s)
  else if reached then raise (put s true) id inst (wrapTo 32 reading)
  else s

/-- Which sensors gave a reading the last time. -/
def noteSensor (s : State) (n : Nat) (good : Bool) : State :=
  let m := s.collector.sensorBad - b2n (bitOf s.collector.sensorBad n) * 2 ^ n
  { s with collector := { s.collector with sensorBad := m + b2n (!good) * 2 ^ n } }

/-- The highest valid reading of the other sensors (R475); where none is valid, the spec gives none: a free value. -/
def highestValid (s : State) (n : Nat) : Int × State :=
  let others := (List.range 5).filter (fun k => k != n && !bitOf s.collector.sensorBad k)
  match others with
  | [] =>
    let (v, s) := takeFree s 16
    (v.toInt, s)
  | k :: rest => ((rest.map (thermOf s)).foldl max (thermOf s k), s)

/-- The sources that a reading raises (R475): FLT_THERM is compared with its second copy as it is used (R484). -/
def judgeReading (s : State) (n : Nat) (v : Int) : State :=
  if n = 4 then thermJudge s 0x5C8 4 v (16 * 95) (decide (16 * 95 < v))
  else
    let s := compareWord s thermKey
    let warn : Int := 16 * rget s Reg.FLT_THERM F.FLT_THERM_WARN
    let crit : Int := max warn (16 * rget s Reg.FLT_THERM F.FLT_THERM_CRIT)
    thermJudge (thermJudge s (0x5C0 + n) n v warn (decide (warn ≤ v))) (0x5C4 + n) n v crit (decide (crit ≤ v))

/-- A sensor gives a reading, or fails its self-check and counts as the highest valid one (R475); the sources are raised in
ascending order (R476). -/
def execThermalSensorReading (sensor : Fin 5) (reading : Option (BitVec 16)) (s : State) : Out :=
  .next (if !s.powered then s
    else
      let n := sensor.val
      let (v, s) := match reading with
        | some r => (r.toInt, s)
        | none => highestValid s n
      let s := noteSensor (rput s (thermPlace n).1 (thermPlace n).2 (wrapTo 16 v)) n reading.isSome
      let s := judgeReading s n v
      if reading.isNone then raise s 0x5C9 n (wrapTo 32 v) else s)

end Sys2Proof.Machine
end

