-- ==== Sys2Proof/Machine/Counters.lean ====
section
/-! DEFINITION. The wear-levelled counters: a ring of 32-byte records in the flash (R492, R519, R520), and what a start
finds in it and in the log region. -/

namespace Sys2Proof.Machine
open Sys2Proof

/-! ## The ring (R503, R519) -/

/-- Its place in the flash, its records, and the records of one 64 KiB sector. -/
def ringAt : Nat := 0x3C20000
def ringSlots : Nat := 32768
def sectorSlots : Nat := 2048

/-- The record types. -/
def ctPower : Nat := 1
def ctTime : Nat := 2
def ctEpoch : Nat := 3
def ctSeal : Nat := 4

/-- The bytes of a record's slot. -/
def ringBytes (s : State) (i : Nat) : List Byte := flashRead s (ringAt + 32 * i) 32

/-- The 32 bytes of a record. -/
def ringRecord (type seq : Nat) (payload : List Byte) : List Byte :=
  let b := toBytes 1 type ++ [0, 0, 0] ++ toBytes 4 seq ++ bytesAt payload 0 20
  b ++ toBytes 4 (crc32c b)

/-- A record of a known type whose CRC holds; any other is ignored. -/
def ringValid (bs : List Byte) : Bool :=
  decide (1 ≤ leAt bs 0 1 ∧ leAt bs 0 1 ≤ 4) && leAt bs 28 4 == crc32c (bs.take 28)

/-- The slots of a region of the flash in which anything is programmed, rising; each is `size` bytes. -/
def programmed (s : State) (start len size : Nat) : List Nat :=
  distinct ((s.flash.filter (fun e => decide (start ≤ e.1) && decide (e.1 < start + len))).map (fun e => (e.1 - start) / size))

/-- The valid records of the ring, as their slots. -/
def ringUsed (s : State) : List Nat := (programmed s ringAt 0x100000 32).filter (fun i => ringValid (ringBytes s i))

/-- A record's kind: its type, and for a seal its page (R519). -/
def ringKind (bs : List Byte) : Nat × Nat := (leAt bs 0 1, if leAt bs 0 1 = ctSeal then leAt bs 8 2 else 0)

/-- Of two records, the one with the higher SEQ. -/
def newerRecord (a : Option (List Byte)) (b : List Byte) : Option (List Byte) :=
  match a with
  | none => some b
  | some x => if leAt x 4 4 < leAt b 4 4 then some b else some x

/-- The current record of a kind: the valid one with the highest SEQ. -/
def ringCurrent (s : State) (kind : Nat × Nat) : Option (List Byte) :=
  ((ringUsed s).map (ringBytes s)).foldl (fun best b => if ringKind b = kind then newerRecord best b else best) none

/-- The newest record of all: the ring goes on after it. -/
def ringNewest (s : State) : Option Nat :=
  (ringUsed s).foldl (fun best i => match best with
    | none => some i
    | some j => if leAt (ringBytes s j) 4 4 < leAt (ringBytes s i) 4 4 then some i else some j) none

/-- The first slot from `i` on in which nothing is programmed: a record that was cut short is passed over. -/
def freeSlot (s : State) (i : Nat) : Nat :=
  let taken := programmed s ringAt 0x100000 32
  match (List.range (taken.length + 1)).find? (fun k => !taken.contains ((i + k) % ringSlots)) with
  | none => i % ringSlots
  | some k => (i + k) % ringSlots

/-- Where the next record goes, and its SEQ, as a scan of the region finds them. -/
def scanRing (s : State) : RingPlace :=
  match ringNewest s with
  | none => ⟨freeSlot s 0, 0⟩
  | some i => ⟨freeSlot s (i + 1), (leAt (ringBytes s i) 4 4 + 1) % 2 ^ 32⟩

/-- Program a record in the next slot. -/
def putRecord (s : State) (type : Nat) (payload : List Byte) : State :=
  let p := s.recorder.ring
  let s := flashWrite s (ringAt + 32 * p.slot) (ringRecord type p.seq payload)
  { s with recorder := { s.recorder with ring := ⟨(p.slot + 1) % ringSlots, (p.seq + 1) % 2 ^ 32⟩ } }

/-- The sector ahead of the one that records go to is erased, its current records copied forward first. -/
def keepAhead (s : State) : State :=
  let k := (s.recorder.ring.slot / sectorSlots + 1) % 16
  let mine := (ringUsed s).filter (fun i => i / sectorSlots == k && ringCurrent s (ringKind (ringBytes s i)) == some (ringBytes s i))
  let copies := mine.map (ringBytes s)
  let s := forEach copies s (fun s b => putRecord s (leAt b 0 1) (bytesAt b 8 20))
  flashErase s (ringAt + 0x10000 * k) 0x10000

/-- Append a record; entering a sector keeps the one after it erased. -/
def appendRecord (s : State) (type : Nat) (payload : List Byte) : State :=
  let s := putRecord s type payload
  if s.recorder.ring.slot % sectorSlots = 0 then keepAhead s else s

/-! ## What the records hold (R519; the places in the payload are the model's: log entry 114) -/

/-- The power-cycle count (R520). -/
def savePower (s : State) (n : Nat) : State := appendRecord s ctPower (toBytes 4 n)

/-- A record that is cut short is no valid one: its TYPE is programmed to zero among free bytes (R519, R520), and the next
record goes past it. -/
def spoilRecord (s : State) : State :=
  let a := ringAt + 32 * s.recorder.ring.slot
  let s := flashWrite (flashSpoil s a 32) a [0]
  { s with recorder := { s.recorder with ring := scanRing s } }

/-- The operating time and the log's counters (R492, R496). -/
def saveCounters (s : State) : State :=
  let t := s.recorder.optime
  appendRecord s ctTime (toBytes 4 (t / 256) ++ toBytes 1 (t % 256) ++ toBytes 3 (rget s Reg.EVR_COUNT F.EVR_COUNT_RECORDS)
    ++ toBytes 3 (rget s Reg.EVR_COMMITTED F.EVR_COMMITTED_RECORDS)
    ++ toBytes 1 (rget s Reg.EVR_STAT F.EVR_STAT_LOG_FULL) ++ toBytes 4 (rget s Reg.EVR_DROPPED F.EVR_DROPPED_COUNT))

/-- The log's epoch, and whether a clear is in progress (R499). -/
def saveEpoch (s : State) (clearing : Bool) : State :=
  appendRecord s ctEpoch (toBytes 2 (rget s Reg.EVR_EPOCH F.EVR_EPOCH_EPOCH) ++ toBytes 1 (b2n clearing))

/-- A page's seal (R498). -/
def saveSeal (s : State) (page : Nat) (v : Word) : State := appendRecord s ctSeal (toBytes 2 page ++ [0, 0] ++ toBytes 4 v.toNat)

/-- A field of the current record of a type; 0 where there is none. -/
def savedField (s : State) (type at' n : Nat) : Nat :=
  match ringCurrent s (type, 0) with
  | none => 0
  | some b => leAt b (8 + at') n

/-- The saved values. -/
def savedPower (s : State) : Nat := savedField s ctPower 0 4
def savedOptime (s : State) : Nat := 256 * savedField s ctTime 0 4 + savedField s ctTime 4 1
def savedFull (s : State) : Bool := savedField s ctTime 11 1 != 0
def savedDropped (s : State) : Nat := savedField s ctTime 12 4
def savedEpoch (s : State) : Nat := savedField s ctEpoch 0 2
def clearPending (s : State) : Bool := savedField s ctEpoch 2 1 != 0

/-! ## The log region (R494, R503) -/

/-- A slot of the log region that failed twice: all its bytes are 0x00. -/
def slotVoid (s : State) (i : Nat) : Bool := (flashRead s (logAt + 16 * i) 16).all (· == 0)

/-- The void slots, rising, and how many records the log holds: none while a clear is in progress (R499). -/
def scanVoids (s : State) : List Nat := if clearPending s then [] else (programmed s logAt logBytes 16).filter (slotVoid s)
def scanCommitted (s : State) : Nat :=
  if clearPending s then 0 else ((programmed s logAt logBytes 16).filter (fun i => !slotVoid s i)).length

/-- The seals of the pages that the log holds whole (R498). -/
def scanSeals (s : State) : SMap Word :=
  (List.range (scanCommitted s / 256)).foldl (fun m k => match ringCurrent s (ctSeal, k) with
    | none => m
    | some b => mapSet (fun _ => (0 : Word)) m k (BitVec.ofNat 32 (leAt b 12 4))) []

end Sys2Proof.Machine
end

