-- ==== Sys2Proof/Machine/Events.lean ====
section
/-! DEFINITION. The commands of the event recorder: rate limits, commits, saves, clears and reads (R489 to R499, R501). -/

namespace Sys2Proof.Machine
open Sys2Proof

/-! ## Rate limits and time (R491 to R493) -/

/-- A code's bucket gains the tokens that are due (R493). -/
def execTokenRefill (code : BitVec 16) (s : State) : Out :=
  .next (if s.powered then setBucket s code.toNat (refilled (bucketOf s code.toNat) (recorderNow s)) else s)

/-- The operating time and the log's counters are saved, or their save fails (R492, R496). -/
def execOptimeSave (ok : Bool) (s : State) : Out :=
  .next (if !s.boot.supervisor || !s.powered then s
    else if !ok then raise s 0x605 noInst 0
    else saveCounters s)

/-- 24 h in units of the operating time. -/
def dayOptime : Nat := 86400 * 256

/-- Every 24 h of operating time from TIME_VALID on a TIME_MARK is recorded (R491). -/
def execTimeMark (s : State) : Out :=
  .next (match s.recorder.marked with
    | none => s
    | some t =>
      if s.powered && decide (t + dayOptime ≤ s.recorder.optime) then
        recordEvent { s with recorder := { s.recorder with marked := some (t + dayOptime) } } 0x1844 noInst false
          (timeSec (now s) % 2 ^ 32)
      else s)

/-- Reading EVR_OPTIME_F latches the seconds and the power-cycle count of the same instant (R492). -/
def hostEvrOptimeFRead (s : State) : State :=
  let t := s.recorder.optime
  let s := rput (rput s Reg.EVR_OPTIME_F F.EVR_OPTIME_F_FRAC (t % 256)) Reg.EVR_OPTIME_S F.EVR_OPTIME_S_SEC (t / 256)
  rput s Reg.EVR_PCC F.EVR_PCC_COUNT s.recorder.pcc

/-- The access itself, through the bus matrix. -/
def execEvrOptimeFRead (s : State) : Out := onBar s Reg.EVR_OPTIME_F (fun s => hostEvrOptimeFRead s)

/-- A write of EVR_HOST (R495). -/
def hostEvrHost (w : Word) (s : State) : State :=
  let s := rwrite s Reg.EVR_HOST w
  if fldGet F.EVR_HOST_GO w = 1 then
    recordEvent s (0x18F0 + fldGet F.EVR_HOST_N w) (fldGet F.EVR_HOST_INSTANCE w) false
      (rget s Reg.EVR_HOST_DATUM F.EVR_HOST_DATUM_DATUM)
  else s

/-- The access itself, through the bus matrix. -/
def execEvrHost (w : Word) (s : State) : Out := onBar s Reg.EVR_HOST (fun s => hostEvrHost w s)

/-! ## Commits and seals (R494, R496, R498) -/

/-- The log slot of record `n`: the slots in order without the void ones (log entry 43). -/
def slotOf (voids : List Nat) (n : Nat) : Nat := voids.foldl (fun k v => if v ≤ k then k + 1 else k) n

/-- The bytes of a committed record. -/
def loggedBytes (s : State) (n : Nat) : List Byte := flashRead s (logAt + 16 * slotOf s.recorder.voids n) 16

/-- The seal of page `k` from the page's records (R498). -/
def sealPage (s : State) (k : Nat) : State :=
  let prev : Word := if k = 0 then 0 else mapGet (fun _ => (0 : Word)) s.recorder.seals (k - 1)
  let page := (List.range 256).flatMap (fun i => loggedBytes s (256 * k + i))
  let v := crc32c (toBytes 4 prev.toNat ++ toBytes 2 (rget s Reg.EVR_EPOCH F.EVR_EPOCH_EPOCH) ++ page)
  saveSeal { s with recorder := { s.recorder with seals := mapSet (fun _ => (0 : Word)) s.recorder.seals k (BitVec.ofNat 32 v) } }
    k (BitVec.ofNat 32 v)

/-- The log is full once its last record is committed: nothing waits for a number any more (R496). -/
def fillLog (s : State) : State :=
  let waiting := s.recorder.buffer.length
  let s := rset s Reg.EVR_STAT F.EVR_STAT_LOG_FULL
  let s := { s with recorder := { s.recorder with buffer := [] } }
  raise (setBacklog (dropFull s waiting)) 0x603 noInst 0

/-- Program the oldest waiting record into the next free slot. -/
def commitRecord (s : State) (r : EvRec) : State :=
  let n := rget s Reg.EVR_COMMITTED F.EVR_COMMITTED_RECORDS
  let s := flashWrite s (logAt + 16 * slotOf s.recorder.voids n) (recBytes r)
  let s := rput s Reg.EVR_COMMITTED F.EVR_COMMITTED_RECORDS (n + 1)
  let s := { s with recorder := { s.recorder with buffer := s.recorder.buffer.drop 1 } }
  let s := setBacklog s
  let s := if (n + 1) % 256 = 0 then sealPage s (n / 256) else s
  if n + 1 = logSize then fillLog s else s

/-- A slot that failed twice is void: all its bytes are 0x00, and the record goes to the next slot (R494). -/
def voidSlot (s : State) : State :=
  let slot := slotOf s.recorder.voids (rget s Reg.EVR_COMMITTED F.EVR_COMMITTED_RECORDS)
  let s := flashWrite s (logAt + 16 * slot) (List.replicate 16 0)
  let s := { s with recorder := { s.recorder with voids := s.recorder.voids ++ [slot] } }
  raise (rset s Reg.EVR_STAT F.EVR_STAT_COMMIT_ERR) 0x602 noInst (logAt + 16 * slot)

/-- Whether a record can be committed now: one with a number waits, a slot is left, and no clear runs. -/
def canCommit (s : State) : Bool :=
  decide (0 < numbered s) && decide (slotOf s.recorder.voids (rget s Reg.EVR_COMMITTED F.EVR_COMMITTED_RECORDS) < logSize) &&
    !ron s Reg.EVR_STAT F.EVR_STAT_CLEAR_BUSY

/-- Commit the oldest record if there is one. -/
def commitFront (s : State) : State :=
  match s.recorder.buffer with
  | [] => s
  | r :: _ => if canCommit s then commitRecord s r else s

/-- Commit up to `n` records; `fails` gives for each slot tried how often its program failed. -/
def commitRun : List Nat → Nat → State → State
  | [], n, s => (List.range n).foldl (fun s _ => commitFront s) s
  | f :: fs, n, s =>
    if n = 0 ∨ !canCommit s then s
    else if 2 ≤ f then commitRun fs n (voidSlot s)
    else commitRun fs (n - 1) (commitFront s)

/-- A commit starts when 16 records wait or the oldest is 1 s old; while PFAIL_N is low, at any record (R494, R521). -/
def commitDue (s : State) : Bool :=
  decide (16 ≤ numbered s) || !ron s Reg.BOOT_PFAIL F.BOOT_PFAIL_LEVEL ||
    (match s.recorder.buffer with
     | r :: _ => decide (r.optime + 256 ≤ s.recorder.optime)
     | [] => false)

/-- The supervisor commits the waiting records, up to 16 (R494). -/
def execEventCommit (failures : List Nat) (s : State) : Out :=
  .next (if s.powered && supervisorRuns s && commitDue s then commitRun failures (min 16 (numbered s)) s else s)

/-! ## Reading and clearing (R497, R499) -/

/-- The bytes of record `n`, committed or waiting. -/
def recordOut (s : State) (n : Nat) : List Byte :=
  let c := rget s Reg.EVR_COMMITTED F.EVR_COMMITTED_RECORDS
  if n < c then loggedBytes s n
  else match s.recorder.buffer[n - c]? with
    | none => []
    | some r => recBytes r

/-- EVENT_READ (R497). -/
def execEventRead (d : DescRef) (s : State) : Out :=
  onDesc s d 0x40 (fun s bs =>
    let first := leAt bs 8 4
    let total := rget s Reg.EVR_COUNT F.EVR_COUNT_RECORDS
    let n := min (leAt bs 12 4) (total - first)
    let s := hostWrite s (leAt bs 16 8) ((List.range n).flatMap (fun i => recordOut s (first + i)))
    finish s d stOk (n + 2 ^ 32 * total))

/-- A clear starts: the epoch advances and is saved, the counts return to 0 (R499). -/
def startClear (s : State) : State :=
  let old := rget s Reg.EVR_COUNT F.EVR_COUNT_RECORDS
  let s := radd s Reg.EVR_EPOCH F.EVR_EPOCH_EPOCH 1
  let s := rset s Reg.EVR_STAT F.EVR_STAT_CLEAR_BUSY
  let s := rclr (rclr (rclr s Reg.EVR_COUNT F.EVR_COUNT_RECORDS) Reg.EVR_COMMITTED F.EVR_COMMITTED_RECORDS)
    Reg.EVR_STAT F.EVR_STAT_LOG_FULL
  let s := saveEpoch { s with recorder := { s.recorder with clearKey := none, clearOld := old } } true
  rset s Reg.BOOT_STAT F.BOOT_STAT_FLASH_BUSY

/-- 1 ms in TIME_CLK cycles. -/
def millisecond : Nat := 393216

/-- A write of EVR_CLEAR (R499). -/
def hostEvrClear (w : Word) (s : State) : State :=
  let key := fldGet F.EVR_CLEAR_KEY w
  let setKey (s : State) (k : Option Nat) : State := { s with recorder := { s.recorder with clearKey := k } }
  if ron s Reg.SYS_LOCK F.SYS_LOCK_LOCK || ron s Reg.EVR_STAT F.EVR_STAT_CLEAR_BUSY then setKey s none
  else if key = 0xC1EA then setKey s (some s.time.cnt)
  else if key = 0x1EAC then
    match s.recorder.clearKey with
    | none => s
    | some t => if s.time.cnt ≤ t + millisecond then startClear s else setKey s none
  else setKey s none

/-- The access itself, through the bus matrix. -/
def execEvrClear (w : Word) (s : State) : Out := onBar s Reg.EVR_CLEAR (fun s => hostEvrClear w s)

/-- The erase ends: record 0 is LOG_CLEARED, and the records that waited follow it, numbered again (R499). With PFAIL_N low
the erase is suspended (R521). -/
def execLogEraseDone (s : State) : Out :=
  .next (if !s.powered || !ron s Reg.BOOT_PFAIL F.BOOT_PFAIL_LEVEL || !ron s Reg.EVR_STAT F.EVR_STAT_CLEAR_BUSY then s
    else
      let s := saveEpoch (flashErase s logAt logBytes) false
      let first : EvRec := ⟨0x1843, noInst, false, 0, s.recorder.optime, s.recorder.pcc, s.recorder.clearOld⟩
      let all := first :: s.recorder.buffer
      let lost := all.length - bufferSize
      let s := { s with
        recorder := { s.recorder with buffer := all.take bufferSize, seals := [], voids := [] } }
      let s := rclr s Reg.EVR_STAT F.EVR_STAT_CLEAR_BUSY
      let s := rput s Reg.EVR_COUNT F.EVR_COUNT_RECORDS s.recorder.buffer.length
      let s := rbit s Reg.BOOT_STAT F.BOOT_STAT_FLASH_BUSY s.boot.work.isSome
      let s := if lost = 0 then s
        else raise (rset (radd s Reg.EVR_BUF_DROP F.EVR_BUF_DROP_COUNT lost) Reg.EVR_STAT F.EVR_STAT_BUF_OVF) 0x604 noInst 0
      setBacklog s)

/-! ## The supervisor's watchdog (R475) -/

/-- SUPERVISOR_WATCHDOG (R475). -/
def execSupervisorWatchdog (s : State) : Out :=
  .next (if !s.powered || !s.boot.supervisor then s else restartSupervisor s 0x600)

end Sys2Proof.Machine
end

