-- ==== Sys2Proof/Machine/Matrix.lean ====
section
/-! DEFINITION. The SYS block, the memories' error codes and the bus matrix (R41, R42, R46 to R58). -/

namespace Sys2Proof.Machine
open Sys2Proof

/-! ## The SYS block (R56, R57) -/

/-- A write of SYS_LOCK: 1 sets it, and LOCKED is recorded (R56, R491). -/
def hostSysLock (w : Word) (s : State) : State :=
  if fldGet F.SYS_LOCK_LOCK w = 0 ∨ ron s Reg.SYS_LOCK F.SYS_LOCK_LOCK then s
  else recordEvent (rset s Reg.SYS_LOCK F.SYS_LOCK_LOCK) 0x1845 noInst false 0

/-- The access itself, through the bus matrix. -/
def execSysLock (w : Word) (s : State) : Out := onBar s Reg.SYS_LOCK (fun s => hostSysLock w s)

/-- The block index follows disciplined time by R24, as after a reset or a change of the grid. -/
def alignGrid (s : State) : State :=
  let n := indexOf s (now s)
  wr { s with grid := { s.grid with index := n, extra := 0, slew := 0 } } Reg.SYS_BLKIDX_LO (BitVec.ofNat 32 n)

/-- A write of SYS_BLKCFG (R57, R255): it is refused while the pipeline runs, for the reserved rate, and where a tally
would fail validation for it. At 192 kHz the channels 512 to 1,023 have no owner (R97). The counts of the DMA lists follow the block length,
and the packet rate the sample rate (R166, R325). -/
def writeBlkcfg (s : State) (w : Word) : State :=
  let a := Reg.SYS_BLKCFG
  let s := if fldGet F.SYS_BLKCFG_REFUSED w = 1 then rclr s a F.SYS_BLKCFG_REFUSED else s
  let fs := fldGet F.SYS_BLKCFG_FS w
  let bk := fldGet F.SYS_BLKCFG_BLK w
  if ron s Reg.SYS_LOCK F.SYS_LOCK_LOCK then s
  else
    let s' := rput (rput s a F.SYS_BLKCFG_FS fs) a F.SYS_BLKCFG_BLK bk
    if running s || fs == 3 || threatens s s' then rset s a F.SYS_BLKCFG_REFUSED
    else
      let s' := if fs = 2 then resetRange s' (Reg.FAB_OWNER 512) (Reg.FAB_OWNER 1024) else s'
      if fs = rget s a F.SYS_BLKCFG_FS ∧ bk = rget s a F.SYS_BLKCFG_BLK then s'
      else countRate (refreshAllCounts (alignGrid s'))

/-- SYS_BLKCFG_WRITE. -/
def hostSysBlkcfgWrite (w : Word) (s : State) : State :=
  writeBlkcfg s w

/-- The access itself, through the bus matrix. -/
def execSysBlkcfgWrite (w : Word) (s : State) : Out := onBar s Reg.SYS_BLKCFG (fun s => hostSysBlkcfgWrite w s)

/-- A write of SYS_PIPE (R57): RUN set while stopped starts the pipeline at the second boundary after it. -/
def writePipe (s : State) (w : Word) : State :=
  let before := ron s Reg.SYS_PIPE F.SYS_PIPE_RUN
  let s := rwrite s Reg.SYS_PIPE w
  let run := ron s Reg.SYS_PIPE F.SYS_PIPE_RUN
  if before == run then s
  else { s with grid := { s.grid with startIn := if run && !running s then some 2 else none } }

/-- PIPE_RUN_WRITE. -/
def hostPipeRunWrite (w : Word) (s : State) : State :=
  writePipe s w

/-- The access itself, through the bus matrix. -/
def execPipeRunWrite (w : Word) (s : State) : Out := onBar s Reg.SYS_PIPE (fun s => hostPipeRunWrite w s)

/-- Reading SYS_BLKIDX_LO latches INDEX_HI (R56). -/
def hostSysBlkidxLoRead (s : State) : State :=
  wr s Reg.SYS_BLKIDX_HI (BitVec.ofNat 32 (s.grid.index / 2 ^ 32))

/-- The access itself, through the bus matrix. -/
def execSysBlkidxLoRead (s : State) : Out := onBar s Reg.SYS_BLKIDX_LO (fun s => hostSysBlkidxLoRead s)

/-! ## Error codes (R41, R42) -/

/-- A write of a SYS_ECC_CE register. -/
def hostEccCeClr (cls : MemClass) (w : Word) (s : State) : State :=
  if fldGet F.SYS_ECC_CE_ROD_CLR w = 1 then rclr s (ecReg cls) F.SYS_ECC_CE_ROD_COUNT else s

/-- The access itself, through the bus matrix. -/
def execEccCeClr (cls : MemClass) (w : Word) (s : State) : Out := onBar s (ecReg cls) (fun s => hostEccCeClr cls w s)

/-- An uncorrectable error in a bus's parameters: its bead is missing for this period (Table 06-5). -/
def busParamError (s : State) (b : Nat) : State :=
  raise (fabMissing s clMix b (pget s P.MIX_BUS_OUT b)) 0x201 b 0

/-- An uncorrectable error in a tap's parameters: its bead is missing for this period (Table 06-5). -/
def tapParamError (s : State) (t : Nat) : State :=
  let s := fabMissing s clDelay t (pget s P.DLY_TAP_OUT t)
  raise (rput s Reg.DLY_ERR_TAP F.DLY_ERR_TAP_TAP t) 0x242 t 0

/-- An uncorrectable error in a route's parameters: the route disengages (Table 06-5). -/
def routeParamError (s : State) (r : Nat) : State := raise (setEngaged s r false) 0x221 r 0

/-- The patrol scrub, or the unit that uses it, reads a word (R41, R133, R242). The rod memories have no patrol scrub: for
them the finding is that of an access by the rod itself (log entry 71). -/
def execPatrolScrub (place : EccPlace) (unit : Fin 2048) (addr : Nat) (ecc : EccResult) (s : State) : Out :=
  .next (if !s.powered then s
    else match place with
    | .mem cls => if unit.val < (memSize cls).2 ∧ addr < (memSize cls).1 then eccFound s cls unit addr ecc else s
    | .tags => if ecc = .good ∨ 4 ≤ unit.val then s else tagParity s unit
    | .busParam => if ecc = .uncorrectable ∧ unit.val < 256 then busParamError s unit else s
    | .routeParam => if ecc = .uncorrectable ∧ unit.val < 64 then routeParamError s unit else s
    | .tapParam => if ecc = .uncorrectable then tapParamError s unit else s
    | .supervisor => if ecc = .uncorrectable ∧ s.boot.supervisor then restartSupervisor s 0x601 else s)

/-- A DRAM channel's link or training fails (Table 01-11). -/
def execDramLinkFailure (channel : Fin 4) (s : State) : Out :=
  .next (if s.powered then raise s (0x514 + channel) noInst 0 else s)

/-! ## The bus matrix (R46 to R54) -/

/-- A target port with nothing waiting. The spec names no master as the one last granted after a reset: M15, so that
round-robin and parking begin as if it had been (DESIGN CHOICE, log entry 69). -/
def portReset (_ : Nat) : PortState := ⟨[], 15⟩

/-- A target port, and its replacement. -/
def portAt (s : State) (t : Nat) : PortState := mapGet portReset s.ports t
def setPort (s : State) (t : Nat) (p : PortState) : State := { s with ports := mapSet portReset s.ports t p }

/-- A request arrives: it waits, or completes at once with an error (R47, R53, R54). -/
def arrive (s : State) (t : Nat) (r : BusReq) : State :=
  match requestError s r.master t (r.addr + 64 * (r.beats.val + 1)) with
  | 0 => setPort s t { portAt s t with waiting := (portAt s t).waiting ++ [(r, 0)] }
  | e => requestFails s r.master t r.addr e

/-- The cycles after which a transaction times out (R52, R58). -/
def timeoutCycles (s : State) : Nat := max 256 (rget s Reg.MTX_TIMEOUT F.MTX_TIMEOUT_CYCLES)

/-- A transaction of a master times out (R52): the error is captured and the master's MEM source is raised. -/
def transactionLost (s : State) (m t addr : Nat) : State :=
  raise (captureError s m t 2) (0x520 + m) m (addr % 2 ^ 32)

/-- Time passes at a port: what has waited too long times out, and what waits for a target that is fenced now completes
with an error, but for M10's (R52, R53). -/
def portAges (s : State) (t elapsed : Nat) : State :=
  let aged := (portAt s t).waiting.map (fun x => (x.1, x.2 + elapsed))
  let lost := aged.filter (fun x => decide (timeoutCycles s ≤ x.2))
  let rest := aged.filter (fun x => decide (x.2 < timeoutCycles s))
  let shut (x : BusReq × Nat) : Bool := ron s Reg.MTX_FENCE_T ⟨t, 1⟩ && x.1.master != 10
  let s := setPort s t { portAt s t with waiting := rest.filter (fun x => !shut x) }
  let s := forEach lost s (fun s x => transactionLost s x.1.master t x.1.addr)
  forEach (rest.filter shut) s (fun s x => requestFails s x.1.master t x.1.addr 4)

/-- The effective priority of a waiting request (R48). -/
def effective (s : State) (t : Nat) (x : BusReq × Nat) : Nat :=
  let limit := max 16 (rget s Reg.MTX_AGE F.MTX_AGE_LIMIT)
  if ron s Reg.MTX_CTRL F.MTX_CTRL_AGE_EN ∧ limit ≤ x.2 then 16 else priorityOf s x.1.master t

/-- How many masters after the one last granted a master comes (R49). -/
def turn (last m : Nat) : Nat := (m + 31 - last) % 16

/-- A request may be granted: its master is not fenced and its pair is enabled (R48). -/
def grantable (s : State) (t : Nat) (x : BusReq × Nat) : Bool :=
  !ron s Reg.MTX_FENCE_M ⟨x.1.master.val, 1⟩ && priorityOf s x.1.master t != 0

/-- The request a port grants (R48, R49), if one may be. -/
def winner (s : State) (t : Nat) : Option (BusReq × Nat) :=
  let p := portAt s t
  (p.waiting.filter (grantable s t)).foldl (fun best x =>
    match best with
    | none => some x
    | some y =>
      if effective s t y < effective s t x ∨
          (effective s t x = effective s t y ∧ turn p.last x.1.master < turn p.last y.1.master) then some x else some y) none

/-- The memory class and unit behind a target, where it is a memory (Table 01-7). -/
def targetMem (t : Nat) : Option (MemClass × Nat) :=
  if t < 8 then some (.frame, t) else if t < 16 then some (.gsram, t - 8) else if t < 20 then some (.dram, t - 16)
  else if t = 22 then some (.brass, 0) else none

/-- Whether a master writes for a channel's owner (Table 03-1, R46, R99): a frame's DMA for its rods, the stream engine,
the delay engine, the barrier, the audio ports and the stack link engine for their own; M9, M10 and M11 own none. -/
def writesFor (m : Nat) (o : Nat × Nat) : Bool :=
  if m < 8 then o.1 == clRod && o.2 / 8 == m
  else match m with
  | 8 => o.1 == clStream
  | 12 => o.1 == clDelay
  | 13 => o.1 == clSense
  | 14 => o.1 == clTdm || o.1 == clBph || o.1 == clAsrc
  | 15 => o.1 == clStack
  | _ => false

/-- A master's write of word `k` of global SRAM: in the fabric buffers it is checked as R101 says, each word of a burst on
its own (DESIGN CHOICE: log entry 144); in the shadow memory it changes the record there (R44). -/
def busGsram (s : State) (m k : Nat) (w : Word) : State :=
  if k < 4096 * blk s then
    let c := k / blk s % 1024
    let o := ownerOf s c
    if writesFor m o then fabWriteAt s o.1 o.2 c (k / blk s / 1024) (k % blk s) w false else nonOwner s c
  else shadowWrite (gsSet s k w) k w

/-- Write a word at byte `a` of a memory for a master. What the supervisor's firmware writes into the retention buffer has
no layout in the spec, and changes nothing here (log entry 44). -/
def burstWord (s : State) (cls : MemClass) (m unit a : Nat) (w : Word) : State :=
  match cls with
  | .frame => frameSet s unit (a / 4) w
  | .gsram => busGsram s m (bankWord unit a) w
  | .dram => drSet { s with poison := mapErase s.poison (dramPoisonKey (unit * 2 ^ 27 + a / 4)) } (unit * 2 ^ 27 + a / 4) w
  | _ => s

/-- Whether a burst of `n` words from byte `a` of a memory meets poison (R42). -/
def burstPoisoned (s : State) (cls : MemClass) (unit a n : Nat) : Bool :=
  (List.range n).any (fun i => (poisonKeys cls unit (a + 4 * i)).any (fun k => mapGet (fun _ => false) s.poison k))

/-- A granted burst at a memory (R51): words written, or a read with what the error code finds (R41, R42). -/
def memoryBurst (s : State) (t : Nat) (r : BusReq) (ecc : EccResult) : State :=
  match targetMem t with
  | none => s
  | some (cls, unit) =>
    match r.data with
    | some ws =>
      (ws.foldl (fun (acc : State × Nat) w => (burstWord acc.1 cls r.master unit acc.2 w, acc.2 + 4)) (s, r.addr)).1
    | none =>
      let poison := decide (ecc = .uncorrectable) || burstPoisoned s cls unit r.addr (16 * (r.beats.val + 1))
      let s := if poison then captureError s r.master t 5 else s
      eccFound s cls unit r.addr ecc

/-- A write of MTX_ERR_INFO (R58). -/
def hostMtxErrClear (w : Word) (s : State) : State :=
  if fldGet F.MTX_ERR_INFO_VALID w = 1 then
    rclr (rclr s Reg.MTX_ERR_INFO F.MTX_ERR_INFO_VALID) Reg.MTX_ERR_CNT F.MTX_ERR_CNT_COUNT
  else s

/-- The access itself, through the bus matrix. -/
def execMtxErrClear (w : Word) (s : State) : Out := onBar s Reg.MTX_ERR_INFO (fun s => hostMtxErrClear w s)

/-- A write of BPH_RX_CTRL (R116, R124). -/
def hostBphRxEnWrite (n : Fin 16) (w : Word) (s : State) : State :=
  writeBphRxCtrl s n w

/-- The access itself, through the bus matrix. -/
def execBphRxEnWrite (n : Fin 16) (w : Word) (s : State) : Out := onBar s (Reg.BPH_RX_CTRL n) (fun s => hostBphRxEnWrite n w s)

end Sys2Proof.Machine
end

