-- ==== Sys2Proof/Machine/Mgt.lean ====
section
/-! DEFINITION. The management two-wire port: transfers, the page, and attention (R528 to R542). -/

namespace Sys2Proof.Machine
open Sys2Proof

/-- A command at the port: it acts while the target answers, in recovery mode too (R528); else nothing is acknowledged
and the state is unchanged. -/
def onMgt (s : State) (f : State → State) : Out := .next (if s.powered && s.mgt.answers then f s else s)

/-- Replace the target's state. -/
def setMgt (s : State) (m : MgtState) : State := { s with mgt := m }

/-! ## The page (R535) -/

/-- One byte of a word. -/
def byteOf (w : Word) (i : Nat) : Byte := BitVec.ofNat 8 (w.toNat / 2 ^ (8 * i))

/-- A byte of the page as it stands: CAUSE is live, byte 0xC0 reads 0 (Table 16-1, Table 16-4). -/
def pageByte (s : State) (i : Nat) : Byte :=
  if i = 0x41 then BitVec.ofNat 8 (rget s Reg.MGT_ATTN F.MGT_ATTN_CAUSE)
  else if i < 0x80 then byteOf (rd s (Reg.MGT_PAGE (i / 4))) (i % 4)
  else if i < 0xC0 then byteOf (rd s (Reg.MGT_HOSTBUF ((i - 0x80) / 4))) (i % 4)
  else if i = 0xC0 then 0
  else byteOf (rd s (Reg.MGT_CTRLBUF ((i - 0xC0) / 4))) (i % 4)

/-- The whole page. -/
def pageNow (s : State) : List Byte := (List.range 256).map (pageByte s)

/-- Store bytes into the refreshed part of the page, lowest address first. -/
def putPage (s : State) (i : Nat) (bs : List Byte) : State :=
  (bs.foldl (fun (acc : State × Nat) b =>
    (rput acc.1 (Reg.MGT_PAGE (acc.2 / 4)) ⟨8 * (acc.2 % 4), 8⟩ b.toNat, acc.2 + 1)) (s, i)).1

/-! ## Transfers (R530 to R534) -/

/-- Whether the target acknowledges an address (R529, R530). -/
def mgtMatches (s : State) (a : Nat) : Bool :=
  let a0 := rget s Reg.MGT_ADDR F.MGT_ADDR_ADDR0
  let hit := if ron s Reg.MGT_CTRL F.MGT_CTRL_AMODE then a == a0 || a == rget s Reg.MGT_ADDR F.MGT_ADDR_ADDR1
    else (a ^^^ a0) &&& rget s Reg.MGT_ADDR F.MGT_ADDR_MASK == 0
  hit && !inReset s unitMgt && ron s Reg.MGT_CTRL F.MGT_CTRL_EN && !ron s Reg.MGT_STAT F.MGT_STAT_FENCED && decide (8 ≤ a) && decide (a < 0x78)

/-- A transfer ends: one that stored bytes advances RX_SEQ and is recorded (R533, Table 16-3). -/
def endTransfer (s : State) : State :=
  let stored := match s.mgt.transfer with
    | .writing _ _ first => first
    | _ => none
  let s := setMgt s { s.mgt with transfer := .idle }
  let s := rclr (rclr s Reg.MGT_STAT F.MGT_STAT_BUSY) Reg.MGT_STAT F.MGT_STAT_RX_BUSY
  match stored with
  | none => s
  | some a =>
    let n := (rget s Reg.MGT_STAT F.MGT_STAT_RX_SEQ + 1) % 65536
    recordEvent (rput s Reg.MGT_STAT F.MGT_STAT_RX_SEQ n) 0x1641 noInst false (n + 65536 * a)

/-- A START is on the bus: it is not idle (R537). -/
def busTaken (s : State) : State := setMgt s { s.mgt with idleAt := none, lastAt := recorderNow s }

/-- A STOP has ended what was on the bus: it is idle from here (R537). -/
def busIdle (s : State) : State := setMgt s { s.mgt with idleAt := some (recorderNow s) }

/-- A byte has passed in a transfer to the target. -/
def bytePassed (s : State) : State := setMgt s { s.mgt with lastAt := recorderNow s }

/-- An address byte after a START or repeated START (R530 to R532). -/
def mgtAddress (s : State) (a : Nat) (read : Bool) : State :=
  let s := endTransfer (busTaken s)
  if !mgtMatches s a then sendOut s (.mgtAck false)
  else
    let s := rput (rset s Reg.MGT_STAT F.MGT_STAT_BUSY) Reg.MGT_STAT F.MGT_STAT_LAST_ADDR a
    let s := rput s Reg.MGT_CNT F.MGT_CNT_TRANSFERS (rget s Reg.MGT_CNT F.MGT_CNT_TRANSFERS + 1)
    let s := sendOut s (.mgtAck true)
    if read then setMgt s { s.mgt with transfer := .reading, latch := pageNow s }
    else setMgt s { s.mgt with transfer := .writing 0 false none }

/-- The address byte after a START, or a repeated START. -/
def execMgtAddress (a : Fin 128) (read : Bool) (s : State) : Out := onMgt s (fun s => mgtAddress s a read)

/-- A written data byte past the first (R533). -/
def mgtStore (s : State) (n : Nat) (gone : Bool) (first : Option Nat) (b : Byte) : State :=
  let p := s.mgt.pointer
  let next (s : State) (gone : Bool) (first : Option Nat) : State :=
    setMgt s { s.mgt with pointer := (p + 1) % 256, transfer := .writing (n + 1) gone first }
  if p < 0xC0 then
    let s := next s true first
    if gone then s else raise s 0x583 noInst 0
  else if p = 0xC0 then
    let c := rget s Reg.MGT_ATTN F.MGT_ATTN_CAUSE
    next (rput s Reg.MGT_ATTN F.MGT_ATTN_CAUSE (c &&& (15 - b.toNat % 16))) gone first
  else
    let s := rput s (Reg.MGT_CTRLBUF ((p - 0xC0) / 4)) ⟨8 * (p % 4), 8⟩ b.toNat
    next (rset s Reg.MGT_STAT F.MGT_STAT_RX_BUSY) gone (if first.isSome then first else some p)

/-- A data byte of a write transfer (R531, R533). -/
def execMgtWriteByte (b : Byte) (s : State) : Out :=
  onMgt s (fun s =>
    match s.mgt.transfer with
    | .writing n gone first =>
      let s := sendOut (bytePassed s) (.mgtAck true)
      if n = 0 then setMgt s { s.mgt with pointer := b.toNat, transfer := .writing 1 gone first }
      else mgtStore s n gone first b
    | _ => s)

/-- A byte of a read transfer, from the latch; the controller's NACK ends it (R531, R532). -/
def execMgtReadByte (nack : Bool) (s : State) : Out :=
  onMgt s (fun s =>
    match s.mgt.transfer with
    | .reading =>
      let p := s.mgt.pointer
      let s := sendOut (bytePassed s) (.mgtByte (s.mgt.latch.getD p 0))
      let s := setMgt s { s.mgt with pointer := (p + 1) % 256 }
      if nack then endTransfer s else s
    | _ => s)

/-- A STOP ends the transfer (R533). -/
def execMgtStop (s : State) : Out := onMgt s (fun s => endTransfer (busIdle s))

/-- An error that ends the transfer is counted and raised (R534, R540, Table 16-4). -/
def mgtError (s : State) (id : Nat) : State :=
  if s.mgt.transfer = .idle then s else raise (radd (endTransfer s) Reg.MGT_CNT F.MGT_CNT_ERRORS 1) id noInst 0

/-- A STOP, or a START, inside a byte (R534). The bus is taken until its next STOP: one inside a byte is the MGT_STOP that
follows. -/
def execMgtBusError (s : State) : Out := onMgt s (fun s => mgtError (busTaken s) 0x582)

/-- SDA driven low for SDA_MS without a break (R540): no byte has passed for so long; the pointer is kept. -/
def execMgtSdaTimeout (s : State) : Out :=
  onMgt s (fun s =>
    if ticksReach (recorderNow s - s.mgt.lastAt) (1000 * max 1 (rget s Reg.MGT_TIMEOUT F.MGT_TIMEOUT_SDA_MS)) then mgtError s 0x580
    else s)

/-! ## Attention (R536, R537) -/

/-- The bus has been idle for IDLE_US × 2^a µs, at least 50 × 2^a (R537, Table 16-4). -/
def mgtIdle (s : State) : Bool :=
  match s.mgt.idleAt with
  | none => false
  | some c => ticksReach (recorderNow s - c)
      (max 50 (rget s Reg.MGT_ATTN_CFG F.MGT_ATTN_CFG_IDLE_US) * 2 ^ rget s Reg.MGT_ATTN F.MGT_ATTN_BACKOFF)

/-- A pending request is served once the bus has been idle for long enough (R537). -/
def execMgtAttentionPulse (s : State) : Out :=
  onMgt s (fun s =>
    if ron s Reg.MGT_ATTN F.MGT_ATTN_PENDING && s.mgt.pulse.isNone && s.mgt.transfer == .idle && mgtIdle s then
      sendOut (setMgt s { s.mgt with pulse := some (recorderNow s) }) (.mgtSda true)
    else s)

/-- SDA has been low for WIDTH_US: the pulse completes (R537). -/
def pulseEnd (s : State) : State :=
  let again := s.mgt.again
  let s := sendOut (busIdle (setMgt s { s.mgt with pulse := none, again := false })) (.mgtSda false)
  let s := rset (rclr s Reg.MGT_ATTN F.MGT_ATTN_PENDING) Reg.MGT_ATTN F.MGT_ATTN_SENT
  let s := recordEvent (rclr s Reg.MGT_ATTN F.MGT_ATTN_BACKOFF) 0x1642 noInst false (rget s Reg.MGT_ATTN F.MGT_ATTN_CAUSE)
  if again then mgtRequest s else s

/-- A pulse completes (R537). -/
def execMgtPulseEnd (s : State) : Out :=
  onMgt s (fun s =>
    match s.mgt.pulse with
    | none => s
    | some c =>
      if ticksReach (recorderNow s - c) (max 1 (rget s Reg.MGT_ATTN_CFG F.MGT_ATTN_CFG_WIDTH_US)) then pulseEnd s else s)

/-- SCL falls during a pulse: another transfer is on the bus, and the request stays pending (R537). -/
def execMgtPulseAbandon (s : State) : Out :=
  onMgt s (fun s =>
    if s.mgt.pulse.isNone then s
    else
      let s := sendOut (busTaken (setMgt s { s.mgt with pulse := none, again := false })) (.mgtSda false)
      let s := radd (rset s Reg.MGT_ATTN F.MGT_ATTN_ABANDONED) Reg.MGT_ATTN F.MGT_ATTN_BACKOFF 1
      raise s 0x581 noInst 0)

/-- REPEAT seconds have passed with an enabled cause set; a request that is pending is not duplicated (R536). -/
def execMgtAttnRepeat (s : State) : Out :=
  onMgt s (fun s =>
    let t := rget s Reg.MGT_ATTN_CFG F.MGT_ATTN_CFG_REPEAT
    if t ≠ 0 ∧ mgtEnabled s ≠ 0 ∧ ticksReach (recorderNow s - s.mgt.repeatAt) (1000000 * t) then
      let s := setMgt s { s.mgt with repeatAt := recorderNow s }
      if ron s Reg.MGT_ATTN F.MGT_ATTN_PENDING then s else mgtRequest s
    else s)

/-- A write of MGT_ATTN: its W1C bits clear, and GO sets cause HOST (R536). -/
def hostMgtAttnGo (w : Word) (s : State) : State :=
  let s := rwrite s Reg.MGT_ATTN w
  if fldGet F.MGT_ATTN_GO w = 1 then mgtCause s 0 else s

/-- The access itself, through the bus matrix. -/
def execMgtAttnGo (w : Word) (s : State) : Out := onBar s Reg.MGT_ATTN (fun s => hostMgtAttnGo w s)

/-! ## Refreshing the page (R535) -/

/-- A field die's byte: its state, SEALED and SAFE_N low, which is every channel's GATES_ON clear as last read over the
barrier (R20, R339; DEDUCED: log entry 49); 0xFF for an absent die. -/
def pageDie (s : State) (d : Die) : Nat :=
  if !diePresent s d then 0xFF
  else
    let a := Reg.BAR_STAT (dieNum d)
    rget s a F.BAR_STAT_FLD_STATE + 8 * rget s a F.BAR_STAT_SEALED +
      16 * b2n ((barAt s d).watch.gates == 0)

/-- SUMMARY. -/
def pageSummary (s : State) : Nat :=
  b2n (faultNLow s) + 2 * rget s Reg.BOOT_STAT F.BOOT_STAT_MODE + 4 * b2n (running s) +
    8 * rget s Reg.REF_STAT F.REF_STAT_STATE + 64 * rget s Reg.TIME_STAT F.TIME_STAT_VALID

/-- Bytes 0x00 to 0x09. -/
def pageHead (s : State) : List Byte :=
  let sysId := fldPut F.SYS_ID_VARIANT s.variant (rd s Reg.SYS_ID)
  toBytes 4 sysId.toNat ++ toBytes 4 (rd s Reg.BOOT_FWVER).toNat ++
    toBytes 1 (rget s Reg.STK_STAT F.STK_STAT_MY_ID + 8 * rget s Reg.STK_STAT F.STK_STAT_MASTER +
      16 * rget s Reg.STK_STAT F.STK_STAT_FORMED) ++ toBytes 1 (pageSummary s)

/-- Bytes 0x0A to 0x27. -/
def pageBody (s : State) : List Byte :=
  let held (a : Nat) : Nat := rget s a F.FLT_FIRST_ID + 2 ^ 15 * rget s a F.FLT_FIRST_VALID
  let gsum := (List.range 64).foldl (fun v g => v + 2 ^ g * b2n (groupActive s g)) 0
  let host := (List.range 3).foldl (fun v n => max v (thermReading s (n + 1))) (thermReading s 0)
  toBytes 1 (pageDie s .a) ++ toBytes 1 (pageDie s .b) ++ toBytes 2 (held Reg.FLT_FIRST) ++ toBytes 2 (held Reg.FLT_LAST) ++
    toBytes 8 gsum ++ toBytes 2 (wrapTo 16 host) ++ toBytes 2 (wrapTo 16 (thermReading s 4)) ++
    toBytes 4 (s.recorder.optime / 256) ++ toBytes 3 s.recorder.pcc ++ toBytes 1 ((rd s Reg.EVR_STAT).toNat % 32) ++
    toBytes 4 (timeSec (now s))
where
  /-- A sensor's reading: H0 to H3, then the DRAM stack. -/
  thermReading (s : State) (n : Nat) : Int :=
    match n with
    | 0 => rgetI s Reg.FLT_THERM_H01 F.FLT_THERM_H01_H0
    | 1 => rgetI s Reg.FLT_THERM_H01 F.FLT_THERM_H01_H1
    | 2 => rgetI s Reg.FLT_THERM_H23 F.FLT_THERM_H23_H2
    | 3 => rgetI s Reg.FLT_THERM_H23 F.FLT_THERM_H23_H3
    | _ => rgetI s Reg.FLT_THERM_DRAM F.FLT_THERM_DRAM_DRAM

/-- Store a supervision word; a bit that goes from 0 to 1 sets cause LINES (R536). -/
def putLines (s : State) (i v : Nat) : State :=
  let old := (rd s (Reg.MGT_PAGE i)).toNat
  let s := wr s (Reg.MGT_PAGE i) (BitVec.ofNat 32 v)
  if v &&& (2 ^ 32 - 1 - old) = 0 then s else mgtCause s 2

/-- Bytes 0x28 to 0x37: the supervision data last taken from each die; 0 for an absent one (R535). -/
def putSupervision (s : State) : State :=
  forEach allDies s (fun s d =>
    let x := if diePresent s d then (barAt s d).watch else ⟨0, 0, 0, 0, 0, 0⟩
    putLines (putLines s (10 + dieNum d) x.latches) (12 + dieNum d) x.loads)

/-- The supervisor refreshes the page; its first refresh sets cause RESTART (R535, R536). -/
def refreshPage (s : State) : State :=
  let s := putSupervision (putPage s 0 (pageHead s ++ pageBody s))
  let s := putPage s 0x40 [pageByte s 0x40 + 1]
  let s := if s.mgt.refreshed then s else mgtCause (setMgt s { s.mgt with refreshed := true }) 3
  putPage s 0x41 [pageByte s 0x41]

/-- Every 10 ms (R535). -/
def execMgtPageRefresh (s : State) : Out :=
  onMgt s (fun s => if supervisorRuns s then refreshPage s else s)

/-- Every 100 ms the supervisor begins to READ the supervision data of each die whose link is UP; a reading that is still
under way goes on (R535). -/
def execSupervisionRead (s : State) : Out :=
  onMgt s (fun s =>
    if !supervisorRuns s then s
    else forEach (allDies.filter (fun d => diePresent s d && barUp s d && !barFenced s d)) s (fun s d =>
      if (barAt s d).waits.any (fun w => match w.use with | .watch _ => true | _ => false) then s
      else
        let b := barAt s d
        sendWatch (setBar s d { b with watch := { b.watch with latch := 0, load := 0, gate := 0 } }) d 0))

/-! ## Host writes -/

/-- A write of MGT_HOSTBUF (R535). -/
def hostMgtHostbufWrite (n : Fin 16) (w : Word) (s : State) : State :=
  wr s (Reg.MGT_HOSTBUF n) w

/-- The access itself, through the bus matrix. -/
def execMgtHostbufWrite (n : Fin 16) (w : Word) (s : State) : Out := onBar s (Reg.MGT_HOSTBUF n) (fun s => hostMgtHostbufWrite n w s)

/-- A write of MGT_ADDR that changes it is recorded (R530). -/
def hostMgtAddrWrite (w : Word) (s : State) : State :=
  let old := rd s Reg.MGT_ADDR
  let s := rwrite s Reg.MGT_ADDR w
  if rd s Reg.MGT_ADDR = old then s else recordEvent s 0x1640 noInst false (rd s Reg.MGT_ADDR).toNat

/-- The access itself, through the bus matrix. -/
def execMgtAddrWrite (w : Word) (s : State) : Out := onBar s Reg.MGT_ADDR (fun s => hostMgtAddrWrite w s)

end Sys2Proof.Machine
end

