-- ==== Sys2Proof/Machine/Stack.lean ====
section
/-! DEFINITION. Stacking (chapter 13): links, discovery and mastership, stack time, the messages of stack-scope tallies,
remote channels and the start of a stack. -/

namespace Sys2Proof.Machine
open Sys2Proof

/-- Replace the stack member's state. -/
def setStk (s : State) (x : StkState) : State := { s with stk := x }

/-! ## Messages (R455, R456) -/

/-- Fields of a message's header. -/
def smType (ws : List Nat) : Nat := bitsOf (ws.headD 0) 56 8
def smSrc (ws : List Nat) : Nat := bitsOf (ws.headD 0) 53 3
def smDst (ws : List Nat) : Nat := bitsOf (ws.headD 0) 50 3
def smBc (ws : List Nat) : Bool := bitOf (ws.headD 0) 49
def smLen (ws : List Nat) : Nat := bitsOf (ws.headD 0) 36 12
def smSeq (ws : List Nat) : Nat := bitsOf (ws.headD 0) 0 32

/-- Payload word `n`. -/
def smW (ws : List Nat) (n : Nat) : Nat := ws.getD (n + 1) 0

/-- A message's CRC-32C holds (R455). -/
def smCrcOk (ws : List Nat) : Bool := ws.getLastD 0 == crc32c (wordsBytes ws.dropLast) && decide (2 ≤ ws.length)

/-- A message has one of the types of Table 13-2. -/
def smKnown (ws : List Nat) : Bool := decide (1 ≤ smType ws) && decide (smType ws ≤ 0x11)

/-- The payload words of a type; BEADS follows its own count. -/
def smWords (s : State) (ws : List Nat) : Nat :=
  match smType ws with
  | 0x04 => 3 | 0x06 => 4 | 0x07 => 1 | 0x0B => 1 | 0x0F => 3
  | 0x08 => 4 + (smW ws 1 % 64 + 1) * blk s / 2
  | _ => 2

/-- A message is well formed: its LEN is that of its type and of its words. -/
def smShape (s : State) (ws : List Nat) : Bool := ws.length == smLen ws + 2 && smLen ws == smWords s ws

/-- HELLO, TIME_SYNC, DELAY_REQ and DELAY_RESP are of one link and are not forwarded. -/
def smOfLink (ws : List Nat) : Bool := [smHello, smTimeSync, smDelayReq, smDelayResp].contains (smType ws)

/-- A link's receiver takes messages while the link is UP and the stack enabled. -/
def stkHears (s : State) (l : Nat) : Bool := stkUp s l && ron s Reg.STK_CTRL F.STK_CTRL_EN

/-- Whether a broadcast was seen within the last 1 ms; a member's own has been (R455). -/
def smSeen (s : State) (ws : List Nat) : Bool :=
  smSrc ws == myId s ||
    s.stk.seen.any (fun e => e.1 == smSrc ws && e.2.1 == smSeq ws && decide (s.time.cnt ≤ e.2.2 + 393216))

/-- Note a message as seen. -/
def noteSeen (s : State) (ws : List Nat) : State :=
  let old := s.stk.seen.filter (fun e => decide (s.time.cnt ≤ e.2.2 + 393216))
  setStk s { s.stk with seen := (smSrc ws, smSeq ws, s.time.cnt) :: old }

/-- Count a discarded message in STK_CNT_CRC; every 256th with a bad CRC is raised (R455, R456). -/
def badStkMessage (s : State) (l : Nat) (crc : Bool) : State :=
  let s := radd s Reg.STK_CNT_CRC F.STK_CNT_CRC_COUNT 1
  if !crc then s
  else
    let n := (s.stk.crcBad + 1) % 256
    let s := setStk s { s.stk with crcBad := n }
    if n = 0 then raise s (0x4C4 + l) l 0 else s

/-- Take a message from a link: what is forwarded, and whether this member takes it (R455, R457). -/
def stkTake (s : State) (l : Nat) (ws : List Nat) : State × Bool :=
  if !stkHears s l then (s, false)
  else if !smCrcOk ws then (badStkMessage s l true, false)
  else if !smKnown ws then (badStkMessage s l false, false)
  else if !smShape s ws || (ron s Reg.STK_STAT F.STK_STAT_DUP_ID && smType ws != smHello) then (s, false)
  else if smOfLink ws then (s, true)
  else if smBc ws then
    if smSeen s ws then (s, false)
    else (forEach ([0, 1, 2, 3].filter (fun k => k != l)) (noteSeen s ws) (fun s k => stkOnLink s k ws), true)
  else if smDst ws = myId s then (s, true)
  else if routeValid s (smDst ws) then (stkOnLink s (routeLink s (smDst ws)) ws, false)
  else (s, false)

/-- A message arrives on a link; a well-formed message of another type is another command (log entry 3). -/
def onStack (s : State) (l : Nat) (ws : List Nat) (type : Nat) (f : State → State) : Out :=
  onHost s (fun s =>
    if smCrcOk ws && smKnown ws && smShape s ws && smType ws != type then s
    else
      let (s, mine) := stkTake s l ws
      if mine then f s else s)

/-! ## The member map and routes (R454, R457) -/

/-- The neighbours that HELLOs gave: link and stack ID, over links that carry messages. -/
def neighbours (s : State) : List (Nat × Nat) :=
  ([0, 1, 2, 3].filter (fun l => stkCarries s l && ron s (Reg.STK_LINK_STAT l) F.STK_LINK_STAT_PEER_VALID)).map
    (fun l => (l, rget s (Reg.STK_LINK_STAT l) F.STK_LINK_STAT_PEER_ID))

/-- A stack of one: no link carries messages, or the stack ID is duplicated (R457, R458). -/
def stkAlone (s : State) : Bool :=
  ron s Reg.STK_STAT F.STK_STAT_DUP_ID || !([0, 1, 2, 3].any (fun l => stkHears s l))

/-- The links of the stack that this member knows, as pairs of stack IDs: its own, and those that the neighbours of its
links told (R457; log entry 50). -/
def stkGraph (s : State) : List (Nat × Nat) :=
  let near := neighbours s
  near.map (fun e => (myId s, e.2)) ++
    near.flatMap (fun e => (mapGet (fun _ => []) s.stk.far e.1).map (fun p => (p.1.val, p.2.val)))

/-- The members of a mask and those one link from them. -/
def oneLink (g : List (Nat × Nat)) (m : Nat) : Nat :=
  g.foldl (fun acc e =>
    let acc := if bitOf m e.1 then acc ||| 2 ^ e.2 else acc
    if bitOf m e.2 then acc ||| 2 ^ e.1 else acc) m

/-- The members at most `n` links from member `a`. -/
def withinLinks (g : List (Nat × Nat)) (a : Nat) : Nat → Nat
  | 0 => 2 ^ a
  | n + 1 => oneLink g (withinLinks g a n)

/-- The links of the shortest way from one member to another. -/
def linksBetween (g : List (Nat × Nat)) (a b : Nat) : Option Nat := (List.range 8).find? (fun n => bitOf (withinLinks g a n) b)

/-- The IDs this member can reach (R457). -/
def mapNow (s : State) : Nat := if stkAlone s then 2 ^ myId s else withinLinks (stkGraph s) (myId s) 7

/-- The IDs of a mask, rising. -/
def idsOf (m : Nat) : List Nat := (List.range 8).filter (bitOf m)

/-- The outgoing link of the shortest route to a member: ties to the lower link number (R454). -/
def bestLink (s : State) (d : Nat) : Option Nat :=
  (neighbours s).foldl (fun (best : Option (Nat × Nat)) e =>
    match linksBetween (stkGraph s) e.2 d, best with
    | none, _ => best
    | some n, none => some (n, e.1)
    | some n, some b => if n < b.1 then some (n, e.1) else best) none |>.map (fun b => b.2)

/-- STK_ROUTE from the neighbour table and the map. -/
def setRoutes (s : State) (m : Nat) : State :=
  forEach (List.range 8) s (fun s d =>
    let r := if d = myId s ∨ !bitOf m d then none else bestLink s d
    match r with
    | none => rput s Reg.STK_ROUTE ⟨3 * d, 3⟩ 0
    | some l => rput s Reg.STK_ROUTE ⟨3 * d, 3⟩ (4 + l))

/-- The cabling of R453 holds on a link to a neighbour. -/
def cabledRight (s : State) (m l id : Nat) : Bool :=
  let ids := idsOf (m ||| 2 ^ myId s)
  let i := ids.idxOf (myId s)
  let up := ids.getD ((i + 1) % ids.length) 0
  let down := ids.getD ((i + ids.length - 1) % ids.length) 0
  let far := rget s (Reg.STK_LINK_STAT l) F.STK_LINK_STAT_PEER_LINK
  match l with
  | 0 => id == up && far == 1
  | 1 => id == down && far == 0
  | _ => decide (2 ≤ far) && id != myId s && (ids.length == 2 || (id != up && id != down))

/-- The cabling is other than R453's: a link that is wrong, or a ring link without a neighbour where the map has more than
this member (log entry 166). -/
def oddCabling (s : State) (m : Nat) : Bool :=
  (neighbours s).any (fun e => !cabledRight s m e.1 e.2) ||
    (m != 2 ^ myId s && [0, 1].any (fun l => (neighbours s).all (fun e => e.1 != l)))

/-- The successor: the lowest ID of the map other than the master (R458). -/
def successorOf (m master : Nat) : Nat := ((idsOf m).filter (fun k => k != master)).headD 0

/-- Members that left the map: raised, their subscriptions dropped, their reports gone (R466, Table 13-5). -/
def membersLost (s : State) (lost : Nat) : State :=
  let s := setStk s { s.stk with
    readers := s.stk.readers.filter (fun e => !bitOf lost e.1)
    statusLocked := s.stk.statusLocked &&& (0xFF ^^^ lost), statusDoubt := s.stk.statusDoubt &&& (0xFF ^^^ lost) }
  forEach (idsOf lost) s (fun s k => raise s 0x4CC k 0)

/-- Owners reachable again: their channels are subscribed again (R466). -/
def membersBack (s : State) (back : Nat) : State :=
  forEach (distinct ((s.stk.subs.map (fun e => e.2)).filter (fun src => bitOf back (src / 1024)))) s
    (fun s src => sendSubscribe s src true)

/-- The map, the routes and the cabling follow the links (R453, R454, R457). -/
def refreshMap (s : State) : State :=
  let old := stkMembers s
  let m := mapNow s
  let s := setRoutes (rput s Reg.STK_MEMBERS F.STK_MEMBERS_PRESENT m) m
  let s := rbit s Reg.STK_STAT F.STK_STAT_ODD_CABLING (oddCabling s m)
  let s := rput s Reg.STK_MEMBERS F.STK_MEMBERS_LOCKED (rget s Reg.STK_MEMBERS F.STK_MEMBERS_LOCKED &&& m)
  let s := if isStkMaster s then rput s Reg.STK_STAT F.STK_STAT_SUCCESSOR (successorOf m (myId s)) else s
  membersBack (membersLost s (old &&& (0xFF ^^^ m) &&& (0xFF ^^^ 2 ^ myId s))) (m &&& (0xFF ^^^ old))

/-! ## Mastership (R458 to R461) -/

/-- A member's parts that wait for a decision vote again with the coordinator that now is (R463). -/
def voteAgain (s : State) : State :=
  forEach (tallyIds.filter (fun id => tyStack s id && tyState s id == tyPrepared)) s
    (fun s id => sendVote s id (tallyAt s id).abortRef.isNone)

/-- The STACK candidate is used no more (R459). -/
def dropStackTime (s : State) : State := disqualify (rclr s (Reg.REF_CSTAT 5) F.REF_CSTAT_ACTIVE) 5

/-- This member becomes master and coordinator. -/
def becomeMaster (s : State) : State :=
  let me := myId s
  let s := rput (rset s Reg.STK_STAT F.STK_STAT_MASTER) Reg.STK_STAT F.STK_STAT_MASTER_ID me
  let s := rclr s Reg.STK_HB F.STK_HB_MISSED
  let x := s.stk
  let s := setStk s { x with
    discover := none, starts := 0, startXid := none, heardMap := 0, handover := none, yieldTo := none
    waits := x.waits.filter (fun w => w.type != smVote && w.type != smQuery) }
  let s := rput s Reg.STK_STAT F.STK_STAT_SUCCESSOR (successorOf (mapNow s) me)
  coordinate (voteAgain (dropStackTime s))

/-- This member becomes a member under master `m`; it is no coordinator any more. -/
def becomeMember (s : State) (m : Nat) : State :=
  let s := rput (rclr s Reg.STK_STAT F.STK_STAT_MASTER) Reg.STK_STAT F.STK_STAT_MASTER_ID m
  let s := rclr s Reg.STK_MEMBERS F.STK_MEMBERS_LOCKED
  let x := s.stk
  let s := setStk s { x with
    votes := [], logging := [], inquiries := [], statusLocked := 0, statusDoubt := 0, handover := none
    yieldTo := none, startXid := none, heardMap := stkMembers s
    waits := x.waits.filter (fun w => w.type != smLog && w.type != smDecision) }
  voteAgain s

/-- A stack of one is its own master, and not FORMED: it will accept any master's heartbeat (R458, R460). -/
def standAlone (s : State) : State :=
  if !stkAlone s then s
  else
    let s := setStk s { s.stk with discover := none, heardMap := 0, peers := [], far := [], healing := false, lateJoin := false }
    let s := rclr s Reg.STK_STAT F.STK_STAT_FORMED
    if isStkMaster s then s else becomeMaster s

/-- Discovery begins: a stack of one whose first link is up looks for a master (R458). -/
def discover (s : State) : State :=
  if ron s Reg.STK_STAT F.STK_STAT_DUP_ID then s
  else setStk (rclr s Reg.STK_STAT F.STK_STAT_MASTER) { s.stk with discover := some s.time.cnt }

/-- A coordinator that gives up mastership hands its log to the next one; each decision is sent again until it is
acknowledged (R463). -/
def handLog (s : State) (m : Nat) (ds : List StkDecision) : State :=
  forEach ds s (fun s d => stkAsk s m smLog d.xid (decisionWords d))

/-- Mastership goes to another member, with the log (R460, R461, R463). -/
def giveUp (s : State) (m : Nat) : State := handLog (becomeMember s m) m (s.stk.decisions.reverse ++ s.stk.logging)

/-- This member takes over from a master whose heartbeats stopped (R459). -/
def takeOver (s : State) : State :=
  let s := rset s Reg.STK_STAT F.STK_STAT_TAKEOVER
  let s := radd s Reg.STK_CNT_TAKEOVER F.STK_CNT_TAKEOVER_COUNT 1
  raise (becomeMaster s) 0x4C8 noInst 0

/-! ## Links and HELLO (R452, R456, R457) -/

/-- Send HELLO on a link (Table 13-2). -/
def sendHello (s : State) (l : Nat) : State :=
  stkLinkSend s l smHello (rget s (Reg.STK_LINK_STAT l) F.STK_LINK_STAT_PEER_ID)
    [s.boot.identity % 2 ^ 64, myId s + 2 ^ 4 * l + 2 ^ 8 * b2n (isStkMaster s) + 2 ^ 16 * s.variant]

/-- A link has held block and FEC lock for 1 ms (R452), whether or not this end may send; discovery begins at the first link
of an enabled stack (R458). -/
def execStackLinkUp (l : Fin 4) (s : State) : Out :=
  onHost s (fun s =>
    if stkUp s l || inReset s (unitStk l) then s
    else
      let first := !([0, 1, 2, 3].any (stkHears s))
      let s := rput s (Reg.STK_LINK_STAT l) F.STK_LINK_STAT_STATE 2
      let s := raise s (0x4C0 + l) l 0
      let s := if first && stkHears s l then discover s else s
      sendHello s l)

/-- A link has been without a lock for 10 µs: one that was UP or TRAINING goes DOWN (R452). -/
def execStackLinkDown (l : Fin 4) (s : State) : Out :=
  onHost s (fun s =>
    if rget s (Reg.STK_LINK_STAT l) F.STK_LINK_STAT_STATE = 0 then s
    else
      let s := wr s (Reg.STK_LINK_STAT l) (fldPut F.STK_LINK_STAT_FENCED (rget s (Reg.STK_LINK_STAT l) F.STK_LINK_STAT_FENCED) 0)
      let s := setStk s { s.stk with peers := mapErase s.stk.peers l, far := mapErase s.stk.far l }
      standAlone (raise s (0x4C0 + l) l 0))

/-- Every 10 ms (R456). -/
def execHelloSend (s : State) : Out := onHost s (fun s => forEach [0, 1, 2, 3] s sendHello)

/-- A duplicate stack ID: this device runs alone (R457). -/
def duplicateId (s : State) : State :=
  if ron s Reg.STK_STAT F.STK_STAT_DUP_ID then s
  else
    let s := rset s Reg.STK_STAT F.STK_STAT_DUP_ID
    standAlone (rclr (raise s 0x4C9 noInst 0) Reg.STK_STAT F.STK_STAT_FORMED)

/-- What a neighbour tells of the stack is kept with its link; a member that hears of a start it was not part of has joined
after it (R470). -/
def noteView (s : State) (l : Nat) (v : StackView) : State :=
  setStk s { s.stk with
    far := mapSet (fun _ => []) s.stk.far l v.links
    lateJoin := v.started && !s.boot.started && s.stk.startXid.isNone && !isStkMaster s }

/-- HELLO (R457). -/
def execHello (l : Fin 4) (m : HelloIn) (s : State) : Out :=
  onStack s l m.words smHello (fun s =>
    let ws := m.words
    let id := smW ws 1 % 8
    let a := Reg.STK_LINK_STAT l
    let s := rput (rput (rset s a F.STK_LINK_STAT_PEER_VALID) a F.STK_LINK_STAT_PEER_ID id) a F.STK_LINK_STAT_PEER_LINK (bitsOf (smW ws 1) 4 2)
    let s := setStk s { s.stk with peers := mapSet (fun _ => (0, false)) s.stk.peers l (smW ws 0, bitOf (smW ws 1) 8) }
    let s := noteView s l m.view
    if id = myId s ∧ smW ws 0 ≠ s.boot.identity % 2 ^ 64 then duplicateId s else s)

/-- DISC_WAIT has passed without a heartbeat (R458). -/
def execDiscoveryWaitExpiry (s : State) : Out :=
  onHost s (fun s =>
    let waited := match s.stk.discover with
      | none => false
      | some c => ticksReach (s.time.cnt - c) (1000 * max 1 (rget s Reg.STK_CTRL F.STK_CTRL_DISC_WAIT))
    if waited && !s.boot.restarting && !stkAlone s && (idsOf (mapNow s)).headD 0 == myId s then refreshMap (becomeMaster s) else s)

/-! ## Heartbeats (R458 to R461) -/

/-- The map of a heartbeat: where this member itself comes back into it, others had lost it, and it subscribes again with
every owner; else with those that come back (R466). -/
def noteMap (s : State) (m : Nat) : State :=
  let back := m &&& (0xFF ^^^ s.stk.heardMap)
  membersBack (setStk s { s.stk with heardMap := m }) (if bitOf back (myId s) then m else back)

/-- A member accepts a heartbeat's sender as master; a handover names the next one (R458, R461). -/
def acceptBeat (s : State) (ws : List Nat) : State :=
  let w := smW ws 1
  let next := bitsOf w 16 3
  let noted (n : Nat) : Option Nat := if n = s.grid.index ∨ n = s.grid.index + 1 then some n else s.stk.beat
  let healed := ron s Reg.STK_STAT F.STK_STAT_FORMED && decide (smSrc ws ≠ masterId s) &&
    decide (rget s Reg.STK_HB F.STK_HB_MISSED < 3)
  let s := if healed then raise (rset s Reg.STK_STAT F.STK_STAT_PARTITION) 0x4CA noInst 0 else s
  let s := rput (rput s Reg.STK_STAT F.STK_STAT_MASTER_ID next) Reg.STK_STAT F.STK_STAT_SUCCESSOR (bitsOf w 8 3)
  let s := rclr (rset s Reg.STK_STAT F.STK_STAT_FORMED) Reg.STK_HB F.STK_HB_MISSED
  let s := noteMap s (w % 256)
  let s := setStk s { s.stk with beat := noted (smW ws 0), discover := none, healing := s.stk.healing || healed }
  let s := if healed then voteAgain s else s
  if next = myId s then becomeMaster s else s

/-- HEARTBEAT: a member accepts it from its master, from a lower one, or when it has none; a master that hears a lower
one yields at its next boundary (R458, R460). -/
def execStackHeartbeat (l : Fin 4) (ws : List Nat) (s : State) : Out :=
  onStack s l ws smHeartbeat (fun s =>
    let src := smSrc ws
    if isStkMaster s then
      if src < myId s then setStk s { s.stk with yieldTo := some src } else s
    else if !ron s Reg.STK_STAT F.STK_STAT_FORMED ∨ src ≤ masterId s ∨ 3 ≤ rget s Reg.STK_HB F.STK_HB_MISSED then
      acceptBeat s ws
    else s)

/-- The heartbeat of this block, or of the next where the master's boundary came first, has arrived or was missed. -/
def beatCame (s : State) : Bool := s.stk.beat == some s.grid.index || s.stk.beat == some (s.grid.index + 1)

/-- HB_WIN µs have passed since this member's boundary. -/
def beatDue (s : State) : Bool :=
  ticksReach (s.time.cnt - s.grid.began) (max 1 (rget s Reg.STK_CTRL F.STK_CTRL_HB_WIN))

/-- The heartbeat of this block has not arrived within HB_WIN (R459). -/
def execHeartbeatWindowExpiry (s : State) : Out :=
  onHost s (fun s =>
    if isStkMaster s || !ron s Reg.STK_STAT F.STK_STAT_FORMED || beatCame s || !beatDue s then s
    else
      let s := setStk s { s.stk with beat := some s.grid.index }
      let s := radd (radd s Reg.STK_HB F.STK_HB_MISSED 1) Reg.STK_HB F.STK_HB_MISS_CNT 1
      let s := raise s 0x4CD noInst 0
      let n := rget s Reg.STK_HB F.STK_HB_MISSED
      let s := if n = 3 then dropStackTime s else s
      let lower := (idsOf (stkMembers s &&& mapNow s)).filter (fun k => decide (k < myId s) && k != masterId s)
      if 3 + 3 * lower.length ≤ n then takeOver s else s)

/-- EN of STK_CTRL was written: without it the member is a stack of one; with it, links that are UP start discovery. -/
def stackEnabled (s : State) (was : Bool) : State :=
  if !was && [0, 1, 2, 3].any (stkHears s) then discover s else standAlone s

/-- A stack-scope tally is PREPARED or IN_DOUBT somewhere in the stack, as far as this master knows (R461). -/
def stackBusy (s : State) : Bool :=
  tallyIds.any (fun t => tyStack s t && (tyState s t == tyPrepared || tyState s t == tyInDoubt)) ||
    s.stk.statusDoubt &&& stkMembers s != 0 || !s.stk.votes.isEmpty || !s.stk.logging.isEmpty

/-- A write of STK_CTRL; HANDOVER on the master hands mastership over eight blocks later, or is refused (R461). -/
def hostHandover (w : Word) (s : State) : State :=
  let was := ron s Reg.STK_CTRL F.STK_CTRL_EN
  let s := stackEnabled (rwrite s Reg.STK_CTRL w) was
  if fldGet F.STK_CTRL_HANDOVER w = 0 then s
  else
    let id := rget s Reg.STK_CTRL F.STK_CTRL_HANDOVER_ID
    if !isStkMaster s || id == myId s || !bitOf (stkMembers s) id || !bitOf s.stk.statusLocked id || stackBusy s then
      rset s Reg.STK_STAT F.STK_STAT_REFUSED
    else setStk s { s.stk with handover := some (s.grid.index + 8, id) }

/-- The access itself, through the bus matrix. -/
def execHandover (w : Word) (s : State) : Out := onBar s Reg.STK_CTRL (fun s => hostHandover w s)

/-! ## Reports and time (R462, R470) -/

/-- MEMBER_STATUS (Table 13-2): the master keeps who is LOCKED and who reports a tally IN_DOUBT. -/
def execMemberStatus (l : Fin 4) (ws : List Nat) (s : State) : Out :=
  onStack s l ws smStatus (fun s =>
    if !isStkMaster s then s
    else
      let k := smSrc ws
      let put (m : Nat) (b : Bool) : Nat := (m &&& (0xFF ^^^ 2 ^ k)) + 2 ^ k * b2n b
      let locked := bitsOf (smW ws 1) 32 3 == stLocked
      let doubt := bitsOf (smW ws 1) 36 4 != 0
      let s := setStk s { s.stk with
        statusLocked := put s.stk.statusLocked locked, statusDoubt := put s.stk.statusDoubt doubt }
      rput s Reg.STK_MEMBERS F.STK_MEMBERS_LOCKED s.stk.statusLocked)

/-- A time as in TIME_SYNC: seconds; nanoseconds and fraction. -/
def timeWords (t : Int) : List Nat := [timeSec t % 2 ^ 48, timeNs t + 2 ^ 32 * timeFrac t]

/-- The time of two words. -/
def wordsTime (a b : Nat) : Int := mkTime (a % 2 ^ 48) (bitsOf b 0 30) + bitsOf b 32 16

/-- A link's measured delay in 2^-16 ns. -/
def linkDelay (s : State) (l : Nat) : Nat := rget s (Reg.STK_LINK_DELAY l) F.STK_LINK_DELAY_DELAY * 65536 / 10

/-- The STACK candidate's estimates, of time in 2^-16 ns and of frequency in 0.1 ppm, are taken: reported in ps, and
stepped where time is beyond TIME_JUMP_MAX or not valid (R460, R462, R67, R74). -/
def stackEstimate (s : State) (est freq : Int) : State :=
  if s.boot.restarting then s
  else
    let s := rputI s Reg.STK_TOFS F.STK_TOFS_OFS (Int.tdiv (est * 1000) 65536)
    let s := rset s (Reg.REF_CSTAT 5) F.REF_CSTAT_ACTIVE
    let jump : Int := rget s Reg.TIME_JUMP_MAX F.TIME_JUMP_MAX_NS
    let apart := ron s Reg.TIME_STAT F.TIME_STAT_VALID && decide ((jump * 65536).natAbs < est.natAbs)
    let s := if apart && s.stk.healing then rset s Reg.STK_STAT F.STK_STAT_REJOIN_STEP else s
    let s := setStk s { s.stk with healing := s.stk.healing && apart }
    absoluteEstimate (frequencyGate s 5 freq) .stack 5 est

/-- TIME_SYNC, with this member's estimate of its frequency offset from the master at this update (R74): the first copy of a block's message is taken and goes on over the other links, with each link's delay and
this member's residence time added (R462). -/
def execTimeSync (l : Fin 4) (ws : List Nat) (own : SyncReport) (s : State) : Out :=
  onStack s l ws smTimeSync (fun s =>
    if isStkMaster s || smSeen s ws || smSrc ws != masterId s then s
    else
      let s := noteSeen s ws
      let way : Nat := smW ws 2 % 2 ^ 32
      let s := stackEstimate s (wordsTime (smW ws 0) (smW ws 1) + (way : Int) - now s) own.frequency
      forEach ([0, 1, 2, 3].filter (fun k => k != l.val)) s (fun s k =>
        stkOnLink s k (stkMessage smTimeSync (smSrc ws) (smDst ws) (smSeq ws)
          [smW ws 0, smW ws 1, (way + own.residence + linkDelay s k) % 2 ^ 32])))

/-- DELAY_REQ: this end notes how long the request took by its own time, and answers with both times (R462). -/
def execDelayReq (l : Fin 4) (ws : List Nat) (s : State) : Out :=
  onStack s l ws smDelayReq (fun s =>
    let took := now s - wordsTime (smW ws 0) (smW ws 1)
    let s := setStk s { s.stk with back := mapSet (fun _ => 0) s.stk.back l took }
    stkLinkSend s l smDelayResp (smSrc ws) ([smW ws 0, smW ws 1] ++ timeWords (now s)))

/-- DELAY_RESP: the mean of the two directions is the link's delay, in 0.1 ns (R462). -/
def execDelayResp (l : Fin 4) (ws : List Nat) (s : State) : Out :=
  onStack s l ws smDelayResp (fun s =>
    let there := wordsTime (smW ws 2) (smW ws 3) - wordsTime (smW ws 0) (smW ws 1)
    let mean := (there + mapGet (fun _ => 0) s.stk.back l) / 2
    rput s (Reg.STK_LINK_DELAY l) F.STK_LINK_DELAY_DELAY (satNat 16 (mean * 10 / 65536).toNat))

/-! ## Remote channels (R465 to R467) -/

/-- SUBSCRIBE. -/
def execSubscribe (l : Fin 4) (ws : List Nat) (s : State) : Out :=
  onStack s l ws smSubscribe (fun s =>
    let e := (smSrc ws, smW ws 0 % 1024)
    let rest := s.stk.readers.filter (fun x => x != e)
    setStk s { s.stk with readers := if bitOf (smW ws 0) 16 then e :: rest else rest })

/-- The local channels that copy a stack-wide channel. -/
def copiesOf (s : State) (src : Nat) : List Nat :=
  (enabledEntries s P.STK_MAP_EN).filter (fun c => pget s P.STK_MAP_SRC c == src)

/-- Sample `j` of bead `i` of a BEADS message. -/
def beadsSample (s : State) (ws : List Nat) (i j : Nat) : Word :=
  let k := i * blk s + j
  BitVec.ofNat 32 (smW ws (4 + k / 2) / 2 ^ (32 * (k % 2)))

/-- The tag of bead `i`. -/
def beadsTag (ws : List Nat) (i : Nat) : Nat := bitsOf (smW ws (2 + i / 32)) (2 * (i % 32)) 2

/-- Write bead `i` of a BEADS message into a local channel: with its tag, or too late. -/
def writeRemote (s : State) (ws : List Nat) (i c : Nat) : State :=
  if smW ws 0 + 1 ≠ s.grid.index then lateWrite s c
  else
    let s := forEach (List.range (blk s)) s (fun s j => fabWrite s clStack 0 c j (beadsSample s ws i j) false)
    let s := if owns s clStack 0 c then setChan s c { chanAt s c with tag := some (beadsTag ws i) } else s
    setStk s { s.stk with arrived := c :: s.stk.arrived }

/-- BEADS. -/
def execBeads (l : Fin 4) (ws : List Nat) (s : State) : Out :=
  onStack s l ws smBeads (fun s =>
    forEach (List.range (smW ws 1 % 64 + 1)) s (fun s i =>
      forEach (copiesOf s (1024 * smSrc ws + bitsOf (smW ws 1) 16 10 + i)) s (fun s c => writeRemote s ws i c)))

/-- 4 µs before the boundary: remote beads that have not arrived are missing (R467). -/
def execRemoteBeadDeadline (s : State) : Out :=
  onHost s (fun s =>
    if !running s then s
    else
      forEach ((enabledEntries s P.STK_MAP_EN).filter (fun c => owns s clStack 0 c && !s.stk.arrived.contains c)) s (fun s c =>
        raise (radd (fabMissing s clStack 0 c) Reg.STK_CNT_LATE F.STK_CNT_LATE_COUNT 1) 0x4CB noInst 0))

/-- Consecutive channels gathered into runs of at most 64. -/
def channelRuns : List Nat → List (Nat × Nat)
  | [] => []
  | c :: cs =>
    match channelRuns cs with
    | (d, n) :: rest => if d = c + 1 ∧ n < 64 then (c, n + 1) :: rest else (c, 1) :: (d, n) :: rest
    | [] => [(c, 1)]

/-- The words of the samples of `n` beads from channel `c`, as consumers read them. -/
def beadsWords (s : State) (c n : Nat) : List Nat :=
  (List.range n).flatMap (fun i => (List.range (blk s / 2)).map (fun j =>
    (busSample s 15 (c + i) (2 * j)).toNat + 2 ^ 32 * (busSample s 15 (c + i) (2 * j + 1)).toNat))

/-- The tags word of beads `lo` to `lo + 31`. -/
def tagsWord (s : State) (c n lo : Nat) : Nat :=
  (List.range 32).foldl (fun w i => if lo + i < n then w + (beadAt s (readBuf s) (c + lo + i)).tag * 2 ^ (2 * i) else w) 0

/-- An owner sends the beads of the period before to each reader (R467). -/
def sendBeads (s : State) : State :=
  if !running s then s
  else
    forEach (List.range 8) s (fun s k =>
      let cs := (List.range 1024).filter (fun c => s.stk.readers.contains (k, c))
      forEach (channelRuns cs) s (fun s r =>
        stkSend (forEach (List.range r.2) s (fun s i => noteBead s 15 (r.1 + i))) k smBeads ([s.grid.index - 1, r.2 - 1 + 2 ^ 16 * r.1, tagsWord s r.1 r.2 0, tagsWord s r.1 r.2 32]
          ++ beadsWords s r.1 r.2)))

/-! ## Stack-scope tallies (R266 to R271, R463) -/

/-- VOTE: the coordinator keeps it and decides; one on a transaction already decided is answered. -/
def execVote (l : Fin 4) (ws : List Nat) (s : State) : Out :=
  onStack s l ws smVote (fun s =>
    if !isStkMaster s then s
    else
      let xid := smW ws 0 % 2 ^ 32
      match knownDecision s xid with
      | some d => stkSend s (smSrc ws) smDecision (decisionWords d)
      | none =>
        let w := smW ws 1
        let v : StkVote := ⟨xid, smSrc ws, bitOf w 8, w % 256, bitsOf w 16 48⟩
        let rest := s.stk.votes.filter (fun x => !(x.xid == xid && x.src == smSrc ws))
        coordinate (setStk s { s.stk with votes := rest ++ [v] }))

/-- The decision of a DECISION_LOG or DECISION message. -/
def decisionOf (ws : List Nat) : StkDecision := ⟨smW ws 0 % 2 ^ 32, bitOf (smW ws 1) 8, bitsOf (smW ws 1) 16 48⟩

/-- DECISION_LOG: the successor keeps the decision and acknowledges it. -/
def execDecisionLog (l : Fin 4) (ws : List Nat) (s : State) : Out :=
  onStack s l ws smLog (fun s => stkSend (noteDecision s (decisionOf ws)) (smSrc ws) smLogAck [smW ws 0])

/-- LOG_ACK: the decision goes to every member. -/
def execLogAck (l : Fin 4) (ws : List Nat) (s : State) : Out :=
  onStack s l ws smLogAck (fun s =>
    match s.stk.logging.find? (fun d => d.xid == smW ws 0 % 2 ^ 32) with
    | none => stkAnswered s smLog (smW ws 0 % 2 ^ 32)
    | some d => announce s d)

/-- DECISION. -/
def execDecision (l : Fin 4) (ws : List Nat) (s : State) : Out :=
  onStack s l ws smDecision (fun s =>
    let d := decisionOf ws
    decidePart (noteDecision s d) d.xid d.commit)

/-- QUERY: the coordinator answers with the decision; a member with whether it holds a COMMIT (R267, R271). -/
def execQuery (l : Fin 4) (ws : List Nat) (s : State) : Out :=
  onStack s l ws smQuery (fun s =>
    let xid := smW ws 0 % 2 ^ 32
    if bitOf (smW ws 1) 0 then
      sendAnswer s (smSrc ws) xid (holdsCommit s xid) ((knownDecision s xid).isNone && !holdsCommit s xid)
    else if isStkMaster s then answerDecision s (smSrc ws) xid
    else s)

/-- A member's answer to an inquiry of a new coordinator: COMMIT if any member holds one, ABORT once none is left to
answer (R271). -/
def answerInquiry (s : State) (src : Nat) (commit : Bool) (q : StkInquiry) : State :=
  let waiting := q.waiting &&& (0xFF ^^^ 2 ^ src)
  let others := s.stk.inquiries.filter (fun r => !(r.xid == q.xid && r.asker == q.asker))
  if commit || waiting == 0 then
    let s := setStk s { s.stk with inquiries := others }
    answerDecision (noteDecision s ⟨q.xid, commit, partBoundary s q.xid⟩) q.asker q.xid
  else setStk s { s.stk with inquiries := others ++ [{ q with waiting := waiting }] }

/-- ANSWER: a member keeps the decision it is given, and acts on it (R269, R271). -/
def execAnswer (l : Fin 4) (ws : List Nat) (s : State) : Out :=
  onStack s l ws smAnswer (fun s =>
    let xid := smW ws 0 % 2 ^ 32
    let commit := bitOf (smW ws 1) 0
    let unknown := bitOf (smW ws 1) 1
    let src := smSrc ws
    let asked := s.stk.inquiries.filter (fun q => q.xid == xid && bitOf q.waiting src)
    let waits := s.stk.waits.filter (fun w => !(w.type == smQuery && w.xid == xid && w.dst == src))
    let s := setStk s { s.stk with waits := waits }
    if !asked.isEmpty then forEach asked s (fun s q => answerInquiry s src (commit && !unknown) q)
    else if unknown then s
    else decidePart (noteDecision s ⟨xid, commit, partBoundary s xid⟩) xid commit)

/-- CARRY_SCHED (R277). -/
def execCarrySched (l : Fin 4) (ws : List Nat) (s : State) : Out :=
  onStack s l ws smCarry (fun s =>
    scheduleCarry s (mkTime (smW ws 0 % 2 ^ 48) (bitsOf (smW ws 1) 0 30)) (smW ws 2 % 2 ^ 32) none)

/-- SPLIT_REPORT: the coordinator has the report; the spec gives it nothing to do with it (R268; log entry 51). -/
def execSplitReport (l : Fin 4) (ws : List Nat) (s : State) : Out := onStack s l ws smSplit id

/-- Send a message that waits again, to the coordinator that now is (R463). -/
def sendAgain (s : State) (w : StkWait) : State :=
  let dst := if w.type = smVote then masterId s else if w.type ≠ smLog then w.dst else if isStkMaster s then successorId s else masterId s
  stkSend s dst w.type w.payload

/-- A message that waits has no purpose any more (R463). -/
def waitLapsed (s : State) (w : StkWait) : Bool :=
  if w.type = smDecision then decide (bitsOf (w.payload.getD 1 0) 16 48 ≤ s.grid.index)
  else if w.type = smVote then bitOf (w.payload.getD 1 0) 8 && (partOf s w.xid).isNone
  else if w.type = smLog then isStkMaster s && !s.stk.logging.any (fun d => d.xid == w.xid)
  else if bitOf (w.payload.getD 1 0) 0 then !s.stk.inquiries.any (fun q => q.xid == w.xid && bitOf q.waiting w.dst)
  else (partOf s w.xid).isNone

/-- Inquiries stop waiting for members that have left (R271). -/
def inquiriesLost (s : State) : State :=
  forEach s.stk.inquiries s (fun s q =>
    match (idsOf (q.waiting &&& (0xFF ^^^ stkMembers s))).head? with
    | none => s
    | some k => answerInquiry s k false q)

/-- Messages unanswered for 8 blocks are sent again; with no successor left a decision needs no log (R463). -/
def execStackRetransmit (s : State) : Out :=
  onHost s (fun s =>
    let s := setStk s { s.stk with waits := s.stk.waits.filter (fun w => !waitLapsed s w) }
    let due := s.stk.waits.filter (fun w => decide (w.block + 8 ≤ s.grid.index))
    let s := forEach due s sendAgain
    let waits := s.stk.waits.map (fun w => if w.block + 8 ≤ s.grid.index then { w with block := s.grid.index } else w)
    let s := inquiriesLost (setStk s { s.stk with waits := waits })
    if isStkMaster s && stkMembers s &&& (0xFF ^^^ 2 ^ myId s) == 0 then forEach s.stk.logging s announce else s)

/-! ## The start of a stack (R469, R470) -/

/-- Whether this member's stored configuration starts it: marked for autostart, all of it applied, and its start not
abandoned (R468, R518). -/
def autostarts (s : State) : Bool :=
  s.boot.supervisor && ron s Reg.BOOT_STAT F.BOOT_STAT_AUTOSTART && s.boot.load.isNone && s.boot.settings.isEmpty &&
    !s.boot.abandoned

/-- The start tally's records. -/
def startRecords (s : State) : List Byte := (configSection s 6).getD []

/-- SYS_PIPE.RUN is set if it is not yet. -/
def startPipe (s : State) : State := if ron s Reg.SYS_PIPE F.SYS_PIPE_RUN then s else writePipe s (fldPut F.SYS_PIPE_RUN 1 0)

/-- Open and fill the start tally, the lowest FREE one (log entry 52), and commit it for boundary `n`; `refused` is what
follows where that cannot be. -/
def commitStart (s : State) (stack : Bool) (n xid mask : Nat) (refused : State → State) : State :=
  match tallyIds.find? (fun id => tyState s id == tyFree) with
  | none => refused s
  | some id =>
    let bs := startRecords s
    let s := writeRecords (openTally s id) none id (bs.length / 16) bs
    if tyState s id = tyOpen then commitTally s id none 0 stack false false n xid mask else refused s

/-- This member's part of the start tally; one that cannot be opened or filled is a refusal: a vote against it (R266, R470). -/
def startPart (s : State) (n xid : Nat) : State :=
  let s := startPipe s
  let x := s.stk
  let s := setStk s { x with
    startXid := some xid, lateJoin := false
    decisions := x.decisions.filter (fun d => d.xid != xid), votes := x.votes.filter (fun v => v.xid != xid) }
  let mask := stkMembers s ||| 2 ^ myId s
  commitStart s true n xid mask (fun s => coordinate (castVote s xid false mask (n % 2 ^ 48)))

/-- A member that joined after START starts with a local tally, eight blocks ahead (R470; log entry 127). -/
def startAlone (s : State) : State :=
  let s := startPipe (setStk { s with boot := { s.boot with started := true } } { s.stk with lateJoin := false })
  commitStart s false (s.grid.index + 8) 0 0 id

/-- START. -/
def execStackStart (l : Fin 4) (ws : List Nat) (s : State) : Out :=
  onStack s l ws smStart (fun s => if autostarts s then startPart s (smW ws 0) (smW ws 1 % 2 ^ 32) else s)

/-- Every member of the map is LOCKED and none reports a tally IN_DOUBT. -/
def readyToStart (s : State) : Bool :=
  loopState s == stLocked && !tallyIds.any (fun id => tyState s id == tyInDoubt) && s.stk.statusDoubt &&& stkMembers s == 0 &&
    (idsOf (stkMembers s)).all (fun k => k == myId s || bitOf s.stk.statusLocked k)

/-- The master sends START and takes its own part; a member that joined after START starts by itself (R470). -/
def execStartSend (s : State) : Out :=
  onHost s (fun s =>
    if isStkMaster s && autostarts s && !s.boot.started && s.stk.startXid.isNone && readyToStart s then
      let n := s.grid.index + 8
      let xid := s.stk.starts
      let s := stkSend s toAll smStart [n, xid % 2 ^ 32]
      startPart (setStk s { s.stk with starts := xid + 1 }) n (xid % 2 ^ 32)
    else if !isStkMaster s && s.stk.lateJoin && autostarts s && !s.boot.started && loopState s == stLocked then startAlone s
    else s)

/-- The start tally's decision is known: started, or to be sent again (R470). -/
def checkStart (s : State) : State :=
  match s.stk.startXid with
  | none => s
  | some xid =>
    match knownDecision s xid with
    | none => s
    | some d =>
      setStk { s with boot := { s.boot with started := s.boot.started || d.commit } } { s.stk with startXid := none }

/-! ## At a boundary -/

/-- The master's heartbeat; one with a handover due names the new master (R461). -/
def sendBeat (s : State) (master : Nat) : State :=
  let succ := match s.stk.handover with
    | some h => h.2
    | none => successorId s
  let w := stkMembers s + 2 ^ 8 * succ + 2 ^ 16 * master + 2 ^ 24 * b2n (loopState s == stLocked)
  let s := stkSend s toAll smHeartbeat [s.grid.index % 2 ^ 64, w]
  if stkAlone s then s else rset s Reg.STK_STAT F.STK_STAT_FORMED

/-- The master's boundary: it yields, hands over, or sends its heartbeat and TIME_SYNC (R458 to R462). -/
def masterBoundary (s : State) : State :=
  match s.stk.yieldTo with
  | some m =>
    let s := giveUp s m
    let s := setStk s { s.stk with healing := true }
    raise (rset s Reg.STK_STAT F.STK_STAT_PARTITION) 0x4CA noInst 0
  | none =>
    match s.stk.handover with
    | some h =>
      if h.1 ≤ s.grid.index then giveUp (sendBeat s h.2) h.2 else sendBeat s (myId s)
    | none => sendBeat s (myId s)

/-- The stack ID at the far end of a link. -/
def peerOf (s : State) (l : Nat) : Nat := rget s (Reg.STK_LINK_STAT l) F.STK_LINK_STAT_PEER_ID

/-- The master's TIME_SYNC: one message of one SEQ on every link, each with that link's delay (R462). -/
def sendTimeSync (s : State) : State :=
  let seq := (s.stk.seq + 1) % 2 ^ 32
  forEach [0, 1, 2, 3] (setStk s { s.stk with seq := seq }) (fun s l =>
    stkOnLink s l (stkMessage smTimeSync (myId s) (peerOf s l) seq (timeWords (now s) ++ [linkDelay s l])))

/-- TIME_SYNC from the master, and the delay measurements of every link (R462). -/
def linkBoundary (s : State) : State :=
  if ron s Reg.STK_STAT F.STK_STAT_DUP_ID then s
  else
    forEach [0, 1, 2, 3] (if isStkMaster s then sendTimeSync s else s) (fun s l =>
      if stkCarries s l then stkLinkSend s l smDelayReq (peerOf s l) (timeWords (now s)) else s)

/-- A member's report to its master (Table 13-2). -/
def reportStatus (s : State) : State :=
  let doubt := tallyIds.any (fun id => tyState s id == tyInDoubt)
  stkSend s (masterId s) smStatus [s.grid.index % 2 ^ 64,
    rget s Reg.SYS_EPOCH F.SYS_EPOCH_EPOCH + 2 ^ 32 * loopState s + 2 ^ 35 * b2n (running s) + 2 ^ 36 * b2n doubt]

/-- What a stack member does at a boundary. -/
def stkBoundary (s : State) : State :=
  let s := standAlone s
  let s := refreshMap (setStk s { s.stk with arrived := [] })
  let s := if isStkMaster s then masterBoundary s else if ron s Reg.STK_STAT F.STK_STAT_FORMED then reportStatus s else s
  coordinate (checkStart (sendBeads (linkBoundary s)))

end Sys2Proof.Machine
end

