-- ==== Sys2Proof/Machine/BusWrite.lean ====
section
/-! DEFINITION. Any write of an aligned BAR0 word (R15, R420, R421): the registers with a behaviour of their own take it
as their commands do, every other one under its access codes; and what the registers that are only views read as. -/

namespace Sys2Proof.Machine
open Sys2Proof

/-- The copy `i` below `n` of a register that lies at an address, if one does. -/
def copyAt (f : Nat → Nat) (n : Nat) (a : Nat) : Option Nat := (List.range n).find? (fun i => f i == a)

/-- SYS (R56, R57). -/
def writeSys (s : State) (a : Nat) (w : Word) : State :=
  if a = Reg.SYS_LOCK then hostSysLock w s
  else if a = Reg.SYS_BLKCFG then writeBlkcfg s w
  else if a = Reg.SYS_PIPE then writePipe s w
  else match [MemClass.rod, .frame, .gsram, .dram, .brass].find? (fun c => ecReg c == a) with
  | some c => hostEccCeClr c w s
  | none => rwrite s a w

/-- HIF and its queue pairs (R423, R426). -/
def writeHif (s : State) (a : Nat) (w : Word) : State :=
  if a = Reg.HIF_KICK then hostHifKick w s
  else if a < Reg.HIF_QP_SQ_LO 0 then rwrite s a w
  else
    let n := Fin.ofNat 64 ((a - Reg.HIF_QP_SQ_LO 0) / 0x20)
    if a = Reg.HIF_QP_CTRL n then writeQpCtrl s n w
    else writeQpReg s n a (if a = Reg.HIF_QP_CFG n then 0xFFFFC000 else 0) w

/-- CLK and REF (R86, R90): the selector and the holdover follow a write; A takes a host's value in mode 1 only. -/
def writeRef (s : State) (a : Nat) (w : Word) : State :=
  if a = Reg.REF_PSTEP then hostRefPstep w s
  else if a = Reg.REF_AGE then
    let old := rget s a F.REF_AGE_A
    let s := rwrite s a w
    if rget s a F.REF_AGE_AGE_MODE = 1 then s else rput s a F.REF_AGE_A old
  else afterRefWrite (rwrite s a w) a

/-- TIME (R66, R68, R69). -/
def writeTime (s : State) (a : Nat) (w : Word) : State :=
  if a = Reg.TIME_RATE then hostTimeRateWrite w s
  else if a = Reg.TIME_ADJ_GO then hostTimeAdjGo w s
  else if a = Reg.TIME_CTRL then hostForce w s
  else rwrite s a w

/-- FLT (R477 to R486); a write of FLT_CTRL or FLT_THERM sets both copies of it (R484). -/
def writeFlt (s : State) (a : Nat) (w : Word) : State :=
  let t := endSelftest s
  if a = Reg.FLT_SELFTEST then hostFltSelftest w s
  else if a = Reg.FLT_CFG then hostFltCfg w t
  else if a = Reg.FLT_CFG_GRP then hostFltCfgGrp w t
  else if a = Reg.FLT_FORCE then hostFltForce w t
  else if a = Reg.FLT_UNFENCE then hostFltUnfence w t
  else if a = Reg.FLT_CLR_GRP then hostFltClrGrp w t
  else if Reg.FLT_STAT_LO 0 ≤ a ∧ a < Reg.FLT_STAT_LO 64 then
    hostFltStatClear (Fin.ofNat 64 ((a - Reg.FLT_STAT_LO 0) / 8)) (a % 8 == 4) w t
  else if Reg.FLT_CNT 0 ≤ a ∧ a < Reg.FLT_CNT 64 then
    hostFltCntClr (Fin.ofNat 64 ((a - Reg.FLT_CNT 0) / 4)) w t
  else
    let t := refreshFaultN (rwrite t a w)
    if ron s Reg.SYS_LOCK F.SYS_LOCK_LOCK then t
    else if a = Reg.FLT_CTRL then setFlips t ctrlKey 0
    else if a = Reg.FLT_THERM then setFlips t thermKey 0
    else t

/-- EVR (R495, R499). -/
def writeEvr (s : State) (a : Nat) (w : Word) : State :=
  if a = Reg.EVR_HOST then hostEvrHost w s
  else if a = Reg.EVR_CLEAR then hostEvrClear w s
  else rwrite s a w

/-- BOOT: outside recovery mode the mailbox ignores writes (R515). -/
def writeBoot (s : State) (a : Nat) (w : Word) : State :=
  if Reg.BOOT_MB_ADDR_LO ≤ a ∧ a ≤ Reg.BOOT_MB_STAT then s else rwrite s a w

/-- MGT (R530, R535, R536). -/
def writeMgt (s : State) (a : Nat) (w : Word) : State :=
  if a = Reg.MGT_ATTN then hostMgtAttnGo w s
  else if a = Reg.MGT_ADDR then hostMgtAddrWrite w s
  else rwrite s a w

/-- STK (R461). -/
def writeStk (s : State) (a : Nat) (w : Word) : State :=
  if a = Reg.STK_CTRL then hostHandover w s else rwrite s a w

/-- MTX (R47, R58): the fields of unconnected pairs ignore writes. -/
def writeMtx (s : State) (a : Nat) (w : Word) : State :=
  if a = Reg.MTX_ERR_INFO then hostMtxErrClear w s
  else if Reg.MTX_PRI_LO 0 ≤ a ∧ a < Reg.MTX_PRI_LO 24 then
    let t := (a - Reg.MTX_PRI_LO 0) / 8
    rwrite s a (w &&& connectedMask t (if a % 8 = 0 then 0 else 8))
  else rwrite s a w

/-- NET (R284, R291, R324). -/
def writeNet (s : State) (a : Nat) (w : Word) : State :=
  match copyAt Reg.NET_CNT_CLR 8 a with
  | some p => hostNetCntClr (Fin.ofNat 8 p) w s
  | none => rwrite s a w

/-- STR (R325). -/
def writeStr (s : State) (a : Nat) (w : Word) : State :=
  if a = Reg.STR_CLR then hostStrClr w s else rwrite s a w

/-- What clearing SLIP or REJOIN of a port's status clears beside it (Tables 03-7 and 03-8). -/
def writePtStat (s : State) (p : Nat) (w : Word) : State :=
  let s := rwrite s (ptStat p) w
  let s := if fldGet (ptSlipBit p) w = 1 then wr s (ptSlipCnt p) 0 else s
  if fldGet (ptRejoinBit p) w = 1 then wr s (ptRejoin p) 0 else s

/-- TDM (R114, R135): outside OFF the rate, the divider, the masks and the channel bases are refused; TDM_DIV is read only
in grid mode. -/
def writeTdm (s : State) (a : Nat) (w : Word) : State :=
  let n := (a - Reg.TDM_CTRL 0) / 0x400
  if a = Reg.TDM_STAT n then writePtStat s n w
  else if a = Reg.TDM_RAW_CTRL n then hostTdmRawArm (Fin.ofNat 16 n) w s
  else if Reg.TDM_RATE n ≤ a ∧ a ≤ Reg.TDM_CHBASE n then
    if ptState s n ≠ ptOff then rset s (Reg.TDM_STAT n) F.TDM_STAT_REFUSED
    else if a = Reg.TDM_DIV n ∧ isGridMaster s n then s
    else rwrite s a w
  else rwrite s a w

/-- BPH and ASRC (R129, R136). -/
def writeBph (s : State) (a : Nat) (w : Word) : State :=
  match copyAt Reg.BPH_RX_STAT 16 a with
  | some n => writePtStat s (16 + n) w
  | none => match copyAt Reg.BPH_RX_RATE 16 a with
  | some n => if ptState s (16 + n) = ptOff then rwrite s a w else s
  | none => match copyAt Reg.BPH_TX_CSGO 16 a with
  | some n => hostBphTxCsgo (Fin.ofNat 16 n) w s
  | none => rwrite s a w

/-- FAB (R134). -/
def writeFab (s : State) (a : Nat) (w : Word) : State :=
  if a = Reg.FAB_STAT then
    let s := rwrite s a w
    if fldGet F.FAB_STAT_NONOWNER w = 1 then rclr s Reg.FAB_NONOWNER F.FAB_NONOWNER_COUNT else s
  else if a = Reg.FAB_MISS_CNT then hostFabMissClr w s
  else rwrite s a w

/-- ROD (R157, R161, R171, R173). -/
def writeRod (s : State) (a : Nat) (w : Word) : State :=
  match copyAt (rodReg Reg.ROD_CTRL) 64 a with
  | some k =>
    let g := Fin.ofNat 64 k
    hostUnfence g w (hostClrStats g w (writeRodCtrl s g w))
  | none => rwrite s a w

/-- MIX (R224, R241, R244). -/
def writeMix (s : State) (a : Nat) (w : Word) : State :=
  if a = Reg.MIX_CLIPCNT then hostMixClipClr w s
  else if a = Reg.MIX_MCLR then hostMixMclrGo w s
  else if a = Reg.MIX_DR_ENGAGE_LO then hostMixDrEngageWrite false w s
  else if a = Reg.MIX_DR_ENGAGE_HI then hostMixDrEngageWrite true w s
  else rwrite s a w

/-- SNP (R272, R273, R278). -/
def writeSnp (s : State) (a : Nat) (w : Word) : State :=
  if a = Reg.SNP_FIRE then hostSnpFire w s
  else if a = Reg.SNP_HOLD then hostSnpHoldWrite w s
  else if a = Reg.SNP_MATCH_CTRL then hostSnpMatchArm w s
  else rwrite s a w

/-- BAR A and BAR B; the block of an absent die ignores writes (R3, R356). -/
def writeBar (s : State) (a : Nat) (w : Word) : State :=
  let d : Die := if a < Reg.BAR_CTRL 1 then .a else .b
  if absentBlock s a then s
  else if a = Reg.BAR_CNT_CLR (dieNum d) then hostBarCntClr d w s
  else rwrite s a w

/-- The MSI-X table: unmasking a vector sends the message that is pending (R449). -/
def writeMsix (s : State) (a : Nat) (w : Word) : State :=
  let s := rwrite s a w
  match copyAt Reg.MSIX_VCTRL 64 a with
  | some v => msixPending s v
  | none => s

/-- The blocks of BAR0 with the meaning of a write there. -/
def blockWrites : List (Nat × Nat × (State → Nat → Word → State)) := [
  (0x0, 0x1000, writeSys), (0x1000, 0x2000, writeHif), (0x2000, 0x3000, writeRef), (0x3000, 0x4000, writeTime),
  (0x4000, 0x5000, writeFlt), (0x5000, 0x6000, writeEvr), (0x6000, 0x7000, writeBoot),
  (0x7000, 0x8000, writeMgt), (0x8000, 0x9000, writeStk),
  (0x9000, 0xA000, writeMtx), (0x10000, 0x18000, writeNet), (0x18000, 0x20000, writeStr),
  (0x20000, 0x24000, writeTdm), (0x24000, 0x28000, writeBph), (0x28000, 0x30000, writeFab),
  (0x30000, 0x38000, writeRod), (0x38000, 0x3C000, writeMix), (0x44000, 0x48000, writeSnp),
  (0x48000, 0x4A000, writeBar), (0xF0000, 0xF8000, writeMsix)]

/-- A write of the BAR0 word at byte address `a` while the host commands act. -/
def busWrite (s : State) (a : Nat) (w : Word) : State :=
  match sharedWrite a with
  | some f => f s w
  | none => match blockWrites.find? (fun b => decide (b.1 ≤ a) && decide (a < b.2.1)) with
  | some b => b.2.2 s a w
  | none => rwrite s a w

/-- A write of the BOOT block while the boot ROM is in recovery mode (R514): the mailbox registers take it, BOOT_MB_CMD
among them, whose operations have commands of their own. -/
def recoveryWrite (s : State) (a : Nat) (w : Word) : State :=
  if 0x6000 ≤ a ∧ a < 0x7000 then rwrite s a w else s

/-- REGISTER_WRITE (R15, R420): `a` is the number of the 32-bit word. In recovery mode only the BOOT block answers
(R421); the recovery mailbox takes writes only then. Elsewhere the access goes through the bus matrix (R46, R47). -/
def execRegisterWrite (a : Fin 262144) (w : Word) (s : State) : Out :=
  let b := 4 * a.val
  .next (if !s.powered then s
    else if !live s then recoveryWrite s b w
    else if !barOpen s then requestFails s 9 20 b (requestError s 9 20 0)
    else busWrite s b w)

/-! ## Registers that are views -/

/-- What FLT_CFG reads for the source FLT_SEL selects (R480). -/
def readFltCfg (s : State) : Word :=
  let id := rget s Reg.FLT_SEL F.FLT_SEL_ID
  fldPut F.FLT_CFG_MASK (maskOf s id) (fldPut F.FLT_CFG_EXISTS (b2n (sourceExists s id))
    (fldPut F.FLT_CFG_FIXED (b2n (id == fixedSource)) 0))

/-- The groups from `g0` on that hold a STATUS bit, 32 of them. -/
def groupBits (s : State) (g0 : Nat) : Word :=
  (List.range 32).foldl (fun acc i => fldPut ⟨i, 1⟩ (b2n (groupActive s (g0 + i))) acc) 0

/-- The divider in use of a grid master: (768 MHz / Fs) / ((SLOTS + 1) × 32), whole part and 24 fraction bits (R107);
a whole part past its field shows modulo 256 (DESIGN CHOICE, log entry 104), and the fraction is rounded down (DESIGN CHOICE,
log entry 150). -/
def gridDivider (s : State) (n : Nat) : Word :=
  let slots := rget s (Reg.TDM_CTRL n) F.TDM_CTRL_SLOTS + 1
  BitVec.ofNat 32 (768000000 * 2 ^ 24 / (fsHz s * slots * 32))

/-- What a BAR0 word reads as outside recovery mode: the stored register, but for those that show what is kept elsewhere;
an absent die's block and an address where no register lies read zero (R3, R420). -/
def wordRead (s : State) (a : Nat) : Word :=
  if a = Reg.SYS_ID then fldPut F.SYS_ID_VARIANT s.variant (rd s a)
  else if a = Reg.SYS_ORDINAL then s.grid.ordinal
  else if a = Reg.FLT_CFG then readFltCfg s
  else if a = Reg.REF_AGE then fldPut F.REF_AGE_A (wrapTo 16 (ageInUse s)) (rd s a)
  else if a = Reg.FLT_GSUM_LO then groupBits s 0
  else if a = Reg.FLT_GSUM_HI then groupBits s 32
  else if a = Reg.EVR_SEAL then mapGet (fun _ => (0 : Word)) s.recorder.seals (rget s Reg.EVR_SEAL_SEL F.EVR_SEAL_SEL_PAGE)
  else if a = Reg.EVR_OPTIME_F then BitVec.ofNat 32 (s.recorder.optime % 256)
  else if a = Reg.FAB_GEOM then
    fldPut F.FAB_GEOM_CHANNELS (channels s) (fldPut F.FAB_GEOM_BEAD_BYTES (4 * blk s) 0)
  else if Reg.FAB_TAG 0 ≤ a ∧ a < Reg.FAB_TAG 64 then tagWord s ((a - Reg.FAB_TAG 0) / 4)
  else if Reg.MIX_HPF_COEF 0 0 0 ≤ a ∧ a < Reg.MIX_HPF_COEF 3 0 0 then
    let k := (a - Reg.MIX_HPF_COEF 0 0 0) / 4
    BitVec.ofInt 32 (hpfCoef (k / 20) (k / 5 % 4) (k % 5))
  else if absentBlock s a then 0
  else match copyAt Reg.TDM_DIV 16 a with
  | some n => if isGridMaster s n then gridDivider s n else rd s a
  | none => rd s a

/-- What a read of a BAR0 word answers: in recovery mode only the BOOT block answers (R421, R514), and what a read of
another word gives is left open (a free value, log entry 162). -/
def busRead (s : State) (a : Nat) : Word :=
  if ron s Reg.BOOT_STAT F.BOOT_STAT_MODE && !(decide (0x6000 ≤ a) && decide (a < 0x7000)) then Config.deadRead a
  else wordRead s a

/-- A read of `n` bytes within the word at `a`, from byte `lane`: the addressed bytes of the word (R421). -/
def busReadBytes (s : State) (a lane n : Nat) : List Byte := bytesAt (toBytes 4 (busRead s a).toNat) lane n

end Sys2Proof.Machine
end

