-- ==== Sys2Proof/Machine/P384.lean ====
section
/-! DEFINITION. The verification of an ECDSA signature on the curve P-384 as FIPS 186-5 gives it (R506, R507, Table
00-3; log entry 54). -/

namespace Sys2Proof.Machine
open Sys2Proof

/-- The field's prime. -/
def curveP : Nat := 2 ^ 384 - 2 ^ 128 - 2 ^ 96 + 2 ^ 32 - 1

/-- The order of the base point. -/
def curveN : Nat :=
  0xffffffffffffffffffffffffffffffffffffffffffffffffc7634d81f4372ddf581a0db248b0a77aecec196accc52973

/-- Difference in the field. -/
def subP (a b : Nat) : Nat := (a + (curveP - b % curveP)) % curveP

/-- A point in Jacobian coordinates: z = 0 is the point at infinity, any other stands for x / z², y / z³. -/
structure CurvePoint where
  x : Nat
  y : Nat
  z : Nat

/-- The base point. -/
def curveG : CurvePoint :=
  ⟨0xaa87ca22be8b05378eb1c71ef320ad746e1d3b628ba79b9859f741e082542a385502f25dbf55296c3a545e3872760ab7,
   0x3617de4a96262c6f5d9e98bf9292dc29f8f41dbd289a147ce9da3113b5f0b8c00a60b1ce1d7e819d7a431d7c90ea0e5f, 1⟩

/-- Twice a point, the curve's coefficient of x being -3. -/
def pointDouble (a : CurvePoint) : CurvePoint :=
  let zz := a.z * a.z % curveP
  let yy := a.y * a.y % curveP
  let m := 3 * (subP a.x zz * ((a.x + zz) % curveP)) % curveP
  let q := 4 * a.x * yy % curveP
  let x := subP (m * m) (2 * q)
  ⟨x, subP (m * subP q x) (8 * yy * yy), 2 * a.y * a.z % curveP⟩

/-- The sum of two points. -/
def pointAdd (a b : CurvePoint) : CurvePoint :=
  if a.z = 0 then b
  else if b.z = 0 then a
  else
    let za := a.z * a.z % curveP
    let zb := b.z * b.z % curveP
    let u := a.x * zb % curveP
    let w := a.y * (zb * b.z % curveP) % curveP
    let h := subP (b.x * za) u
    let r := subP (b.y * (za * a.z % curveP)) w
    if h = 0 then if r = 0 then pointDouble a else ⟨1, 1, 0⟩
    else
      let hh := h * h % curveP
      let hu := u * hh % curveP
      let hhh := h * hh % curveP
      let x := subP (r * r) (hhh + 2 * hu)
      ⟨x, subP (r * subP hu x) (w * hhh), a.z * b.z % curveP * h % curveP⟩

/-- `j`·a + `k`·b over the bits of the two factors, the highest of `bits` first. -/
def pointSum (j k : Nat) (a b : CurvePoint) : Nat → CurvePoint → CurvePoint
  | 0, acc => acc
  | bits + 1, acc =>
    let acc := pointDouble acc
    let acc := if j.testBit bits then pointAdd acc a else acc
    pointSum j k a b bits (if k.testBit bits then pointAdd acc b else acc)

/-- `a` to the power `e` modulo `m`, over the bits of `e`. -/
def powMod (m a e : Nat) : Nat → Nat → Nat
  | 0, acc => acc
  | bits + 1, acc => powMod m a e bits (acc * acc % m * (if e.testBit bits then a else 1) % m)

/-- The inverse of `a` modulo a prime `m` below 2^384. -/
def invMod (m a : Nat) : Nat := powMod m (a % m) (m - 2) 384 1

/-- Whether (r, s) is a valid signature of a digest of 48 bytes under a public key, the key being its point's x and y,
384 bits each, x the higher. -/
def ecdsaP384 (key digest r s : Nat) : Bool :=
  let w := invMod curveN s
  let q := pointSum (digest * w % curveN) (r * w % curveN) curveG ⟨key / 2 ^ 384, key % 2 ^ 384, 1⟩ 384 ⟨1, 1, 0⟩
  decide (1 ≤ r) && decide (r < curveN) && decide (1 ≤ s) && decide (s < curveN) && q.z != 0 &&
    q.x * invMod curveP (q.z * q.z) % curveP % curveN == r

end Sys2Proof.Machine
end

