-- ==== Sys2Proof/Machine/Sha384.lean ====
section
/-! DEFINITION. SHA-384 as FIPS 180-4 gives it, the digest of R506 (Table 00-3; log entry 54). -/

namespace Sys2Proof.Machine
open Sys2Proof

/-- A word of the digest's arithmetic. -/
abbrev ShaWord := BitVec 64

/-- The largest `r` below 2 to the `bits`, above the `r` found so far, whose `k`-th power is at most `x`. -/
def rootBelow (k x : Nat) : Nat → Nat → Nat
  | 0, r => r
  | bits + 1, r => rootBelow k x bits (if (r + 2 ^ bits) ^ k ≤ x then r + 2 ^ bits else r)

/-- The first 64 bits of the fraction of the `k`-th root of `p`. -/
def rootWord (k p : Nat) : ShaWord := BitVec.ofNat 64 (rootBelow k (p * 2 ^ (64 * k)) 68 0)

/-- The first 80 primes. -/
def shaPrimes : List Nat :=
  ((List.range 410).drop 2).filter (fun n => ((List.range 21).drop 2).all (fun d => n == d || n % d != 0))

/-- The round constants: from the cube roots of the first 80 primes. -/
def shaConstants : List ShaWord := shaPrimes.map (rootWord 3)

/-- The hash before the first block: from the square roots of the ninth to sixteenth prime. -/
def shaStart : List ShaWord := ((shaPrimes.drop 8).take 8).map (rootWord 2)

/-- One more word of the message schedule, the latest first. -/
def shaNext (w : List ShaWord) : ShaWord :=
  let x := w.getD 14 0
  let y := w.getD 1 0
  (y.rotateRight 19 ^^^ y.rotateRight 61 ^^^ (y >>> 6)) + w.getD 6 0 +
    (x.rotateRight 1 ^^^ x.rotateRight 8 ^^^ (x >>> 7)) + w.getD 15 0

/-- The message schedule of a block of 16 words: 80 words. -/
def shaSchedule (block : List ShaWord) : List ShaWord :=
  ((List.range 64).foldl (fun w _ => shaNext w :: w) block.reverse).reverse

/-- One round on the working words a to h, with the round's constant and its schedule word. -/
def shaRound (v : List ShaWord) (kw : ShaWord × ShaWord) : List ShaWord :=
  match v with
  | [a, b, c, d, e, f, g, h] =>
    let t := h + (e.rotateRight 14 ^^^ e.rotateRight 18 ^^^ e.rotateRight 41) + ((e &&& f) ^^^ (~~~e &&& g)) + kw.1 + kw.2
    let u := (a.rotateRight 28 ^^^ a.rotateRight 34 ^^^ a.rotateRight 39) + ((a &&& b) ^^^ (a &&& c) ^^^ (b &&& c))
    [t + u, a, b, c, d + t, e, f, g]
  | _ => v

/-- The hash after one block. -/
def shaBlock (hash block : List ShaWord) : List ShaWord :=
  List.zipWith (· + ·) hash ((shaConstants.zip (shaSchedule block)).foldl shaRound hash)

/-- A word from its bytes, the highest first. -/
def shaWord (bs : List (BitVec 8)) : ShaWord := bs.foldl (fun w b => (w <<< 8) ||| b.setWidth 64) 0

/-- The 16 words of a block of 128 bytes. -/
def shaWords (bs : List (BitVec 8)) : List ShaWord := (List.range 16).map (fun i => shaWord ((bs.drop (8 * i)).take 8))

/-- The message padded to whole blocks: a one bit, zeros, and its length in bits in 16 bytes. -/
def shaPadded (bs : List (BitVec 8)) : List (BitVec 8) :=
  let n := bs.length
  bs ++ [0x80] ++ List.replicate ((239 - n % 128) % 128) 0 ++
    (List.range 16).map (fun i => BitVec.ofNat 8 (8 * n / 256 ^ (15 - i)))

/-- The hash after `n` blocks. -/
def shaBlocks : Nat → List (BitVec 8) → List ShaWord → List ShaWord
  | 0, _, hash => hash
  | n + 1, bs, hash => shaBlocks n (bs.drop 128) (shaBlock hash (shaWords (bs.take 128)))

/-- The SHA-384 digest of bytes, as a number of 48 bytes, the first the highest. -/
def sha384 (bs : List (BitVec 8)) : Nat :=
  let m := shaPadded bs
  ((shaBlocks (m.length / 128) m shaStart).take 6).foldl (fun d w => d * 2 ^ 64 + w.toNat) 0

end Sys2Proof.Machine
end

