-- ==== Sys2Proof/Machine/BootBase.lean ====
section
/-! DEFINITION. Boot headers, firmware images and their verification, and the undoing of an activation (R502 to R508,
R511). -/

namespace Sys2Proof.Machine
open Sys2Proof

/-! ## Boot headers (R505, Table 15-3) -/

/-- A valid boot header, with its bytes. -/
structure BootHeader where
  gen : Nat
  length : Nat
  bytes : List Byte

/-- The bytes of header A or B up to its markers' end. -/
def headerBytes (s : State) (b : Bool) : List Byte := flashRead s (headerAt b) 0x80

/-- The bytes the header CRC covers. -/
def headerCovered (bs : List Byte) : List Byte := bytesAt bs 0 0x14 ++ bytesAt bs 0x18 0x30

/-- A header whose MAGIC and HCRC are correct. -/
def headerOf (s : State) (b : Bool) : Option BootHeader :=
  let bs := headerBytes s b
  if leAt bs 0 4 = 0x52484246 ∧ leAt bs 0x14 4 = crc32c (headerCovered bs) then some ⟨leAt bs 4 4, leAt bs 8 4, bs⟩ else none

/-- The valid header with the higher GEN; of equal ones, A. -/
def headerInUse (s : State) : Option (Bool × BootHeader) :=
  match headerOf s false, headerOf s true with
  | some a, some b => if a.gen < b.gen then some (true, b) else some (false, a)
  | some a, none => some (false, a)
  | none, some b => some (true, b)
  | none, none => none

/-- Header states: 0 none yet, 1 ACTIVATED, 2 COPYING, 3 COPIED, 4 ACTIVE: the latest STATE byte that reads 0x00. -/
def headerState (h : BootHeader) : Nat :=
  (List.range 4).foldl (fun st i => if leAt h.bytes (0x48 + i) 1 = 0 then i + 1 else st) 0

/-- A header whose image is yet to be copied. -/
def copyPending (h : BootHeader) : Bool := decide (1 ≤ headerState h) && decide (headerState h ≤ 3)

/-- Program a STATE byte of a header: 1 ACTIVATED to 4 ACTIVE. -/
def setHeaderState (s : State) (b : Bool) (st : Nat) : State := flashWrite s (headerAt b + 0x47 + st) [0]

/-- Whether MARKERS still names sector `i` as not copied. -/
def sectorDue (h : BootHeader) (i : Nat) : Bool := bitOf (leAt h.bytes (0x50 + i / 8) 1) (i % 8)

/-- Program a sector's MARKERS bit to 0. -/
def markSector (s : State) (b : Bool) (i : Nat) : State :=
  let a := headerAt b + 0x50 + i / 8
  flashWrite s a [mapGet flashErased s.flash a &&& ~~~(BitVec.ofNat 8 (2 ^ (i % 8)))]

/-- The header in use is reported, and an image that waits for its copy (R505, R512). -/
def noteHeader (s : State) (b : Bool) (h : BootHeader) : State :=
  let s := wr (rbit s Reg.BOOT_STAT F.BOOT_STAT_HDR b) Reg.BOOT_HDR_GEN (BitVec.ofNat 32 h.gen)
  if copyPending h then rput s Reg.BOOT_STAGE F.BOOT_STAGE_STATE 2 else s

/-! ## Images (R506, R507, Table 15-4) -/

/-- An image's fields, its signed bytes and its signature, as the region at `base` holds them. -/
def imLength (s : State) (base : Nat) : Nat := leAt (flashRead s (base + 8) 4) 0 4
def imVersion (s : State) (base : Nat) : Nat := leAt (flashRead s (base + 0xC) 4) 0 4
def imSlot (s : State) (base : Nat) : Nat := leAt (flashRead s (base + 6) 1) 0 1
def imArb (s : State) (base : Nat) : Nat := leAt (flashRead s (base + 7) 1) 0 1
def imRevoke (s : State) (base : Nat) : Nat := leAt (flashRead s (base + 0x13) 1) 0 1 % 16

/-- The SHA-384 of an image's signed bytes. -/
def imDigest (s : State) (base : Nat) : Nat := sha384 (flashRead s base (imLength s base - 128))

/-- MAGIC, VERSION, LENGTH and VARIANTS obey R507. -/
def imShapeOk (s : State) (base : Nat) : Bool :=
  let h := flashRead s base 0x40
  let len := imLength s base
  leAt h 0 4 == 0x49464845 && leAt h 4 2 == 1 && len % 4096 == 0 && decide (4096 ≤ len) && decide (len ≤ imageMax) &&
    bitOf (leAt h 0x12 1) s.variant

/-- The key is present and not revoked, the signature is valid under it, and ARB is at least STEPS and within Table 15-4's
0 to 64 (log entry 142). -/
def imTrusted (s : State) (base : Nat) : Bool :=
  let k := imSlot s base
  let sig := flashRead s (base + imLength s base - 128) 96
  let key := s.boot.keys.getD k 0
  decide (k < 4) && key != 0 && !bitOf s.boot.revoked k && decide (s.boot.fuses ≤ imArb s base) &&
    decide (imArb s base ≤ 64) && ecdsaP384 key (imDigest s base) (beAt sig 0 48) (beAt sig 48 48)

/-- Every section lies inside the image and matches its CRC-32C. -/
def imSectionsOk (s : State) (base : Nat) : Bool :=
  let n := leAt (flashRead s (base + 0x10) 2) 0 2
  (List.range n).all (fun i =>
    let e := flashRead s (base + 0x40 + 16 * i) 16
    let ofs := leAt e 4 4
    let len := leAt e 8 4
    decide (ofs + len ≤ imLength s base) && leAt e 12 4 == crc32c (flashRead s (base + ofs) len))

/-- The image at `base` under R507: OK, or the status of the check that fails first (R510). -/
def imVerdict (s : State) (base : Nat) : Nat :=
  if !imShapeOk s base then stInvalidParam
  else if !imTrusted s base then stSignatureFail
  else if !imSectionsOk s base then stCrcFail
  else stOk

/-! ## Undoing an activation (R511) -/

/-- BOOT_STAGE.STATE: 0 EMPTY, 1 LOADING, 2 ACTIVATED. -/
def stageState (s : State) : Nat := rget s Reg.BOOT_STAGE F.BOOT_STAGE_STATE

/-- Set BOOT_STAGE.STATE. -/
def setStage (s : State) (st : Nat) : State := rput s Reg.BOOT_STAGE F.BOOT_STAGE_STATE st

/-- The activated header's MAGIC goes to zero; the header before it rules again. In recovery mode, where the ROM may use
the activated header itself, HDR follows. -/
def undoActivation (s : State) : State :=
  if stageState s ≠ 2 then s
  else match headerInUse s with
  | none => setStage s 1
  | some (b, h) =>
    let s := flashWrite s (headerAt b) [0, 0, 0, 0]
    let s := if (rget s Reg.BOOT_STAT F.BOOT_STAT_HDR == 1) == b then
        match headerInUse s with
        | none => wr (rclr s Reg.BOOT_STAT F.BOOT_STAT_HDR) Reg.BOOT_HDR_GEN 0
        | some (c, g) => wr (rbit s Reg.BOOT_STAT F.BOOT_STAT_HDR c) Reg.BOOT_HDR_GEN (BitVec.ofNat 32 g.gen)
      else s
    recordEvent (setStage s 1) 0x1546 noInst false h.gen

/-- The header that an activation writes: the one not in use (R510). -/
def spareHeader (s : State) : Bool := rget s Reg.BOOT_STAT F.BOOT_STAT_HDR != 1

/-- Write the header of the staged image with GEN one above the header in use, and its ACTIVATED byte (R510). -/
def writeHeader (s : State) : State :=
  let b := spareHeader s
  let gen := (rd s Reg.BOOT_HDR_GEN).toNat + 1
  let head := toBytes 4 0x52484246 ++ toBytes 4 gen ++ toBytes 4 (imLength s stagingAt) ++ toBytes 4 (imVersion s stagingAt)
    ++ toBytes 1 (imArb s stagingAt) ++ toBytes 1 (imSlot s stagingAt) ++ [0, 0]
  let digest := (toBytes 48 (imDigest s stagingAt)).reverse
  let s := flashErase s (headerAt b) 0x10000
  let s := flashWrite s (headerAt b) (head ++ toBytes 4 (crc32c (head ++ digest)) ++ digest)
  setHeaderState s b 1

/-- A staged image that passed is activated: the header, the stage's state and the event (R510). -/
def activateStaged (s : State) : State :=
  let s := wr (setStage (writeHeader s) 2) Reg.BOOT_STAGE_HIGH 0
  recordEvent s 0x1541 noInst false (imVersion s stagingAt)

/-! ## The staging area (R509) -/

/-- Store a block: the sectors it touches are erased, and the block programmed. -/
def stageBlock (s : State) (offset : Nat) (data : List Byte) : State :=
  let first := offset / 4096 * 4096
  let last := (offset + data.length + 4095) / 4096 * 4096
  let s := flashWrite (flashErase s (stagingAt + first) (last - first)) (stagingAt + offset) data
  let high := max (rget s Reg.BOOT_STAGE_HIGH F.BOOT_STAGE_HIGH_BYTES) (offset + data.length)
  setStage (rput s Reg.BOOT_STAGE_HIGH F.BOOT_STAGE_HIGH_BYTES high) 1

/-- Check the staged image for an activation with LEN: a refusal undoes an activation and raises 0x545 (R510, R511). -/
def checkStaged (s : State) (len : Nat) : State × Nat :=
  let v := if len ≠ imLength s stagingAt then stInvalidParam else imVerdict s stagingAt
  if v = stOk then (s, v) else (raise (undoActivation s) 0x545 noInst 0, v)

/-- RESULT of an activation: the key slot and ARB (Table 12-9). -/
def activateResult (s : State) : Nat := imSlot s stagingAt + 256 * imArb s stagingAt

end Sys2Proof.Machine
end

