-- ==== Sys2Proof/Machine/FlashWork.lean ====
section
/-! DEFINITION. Flash work from the host: CONFIG_SAVE, UPDATE_BLOCK and UPDATE_ACTIVATE, its end and its abandonment, the
recovery mailbox's blocks, and PFAIL_N (R509 to R516, R521, R523). -/

namespace Sys2Proof.Machine
open Sys2Proof

/-! ## Acceptance (R513) -/

/-- Whether flash work from the host must wait: another piece runs, a log clear erases, or PFAIL_N is low. -/
def flashBusy (s : State) : Bool :=
  s.boot.work.isSome || ron s Reg.EVR_STAT F.EVR_STAT_CLEAR_BUSY || !ron s Reg.BOOT_PFAIL F.BOOT_PFAIL_LEVEL

/-- A flash descriptor, once R513 lets it run. -/
def onFlash (s : State) (d : DescRef) (op : Nat) (f : State → List Byte → State) : Out :=
  onDesc s d op (fun s bs =>
    if !ron s Reg.BOOT_CTRL F.BOOT_CTRL_FLASH_WR_EN then finish s d stInvalidParam 0
    else if flashBusy s then finish s d stBusyRetry 0
    else f s bs)

/-- A piece of work begins. -/
def startWork (s : State) (j : FlashJob) (d : DescRef) : State :=
  rset { s with boot := { s.boot with work := some (j, some d) } } Reg.BOOT_STAT F.BOOT_STAT_FLASH_BUSY

/-- CONFIG_SAVE; `data` is what its ADDR reads as (R516). -/
def execConfigSave (d : DescRef) (data : Option (List Byte)) (s : State) : Out :=
  onFlash s d 0x58 (fun s bs =>
    withInput s d (leAt bs 16 8) (leAt bs 8 4) data (fun s im =>
      if crc32c im ≠ leAt bs 24 4 then finish s d stCrcFail 0
      else if (storeSections im).isNone then finish s d stInvalidParam 0
      else startWork s (.save im (par bs 28 0 1 == 1)) d))

/-- UPDATE_BLOCK; `data` is what its ADDR reads as (R509, R511). -/
def execUpdateBlock (d : DescRef) (data : Option (List Byte)) (s : State) : Out :=
  onDesc s d 0x60 (fun s bs =>
    let offset := leAt bs 8 4
    let len := leAt bs 12 4
    if imageMax < offset + len ∨ !ron s Reg.BOOT_CTRL F.BOOT_CTRL_FLASH_WR_EN then finish s d stInvalidParam 0
    else if flashBusy s then finish s d stBusyRetry 0
    else
      let s := undoActivation s
      withInput s d (leAt bs 16 8) len data (fun s block =>
        if crc32c block ≠ leAt bs 24 4 then finish (raise s 0x545 noInst 0) d stCrcFail 0
        else startWork s (.block offset block) d))

/-- UPDATE_ACTIVATE (R510, R511): the checks, then the header's writing. -/
def execUpdateActivate (d : DescRef) (s : State) : Out :=
  onFlash s d 0x61 (fun s bs =>
    let (s, v) := checkStaged s (leAt bs 8 4)
    if v = stOk then startWork s (.activate (leAt bs 8 4)) d else finish s d v 0)

/-! ## The store's copies (R516) -/

/-- The highest valid GEN of the store, 0 where no copy is valid. -/
def storeGen (s : State) : Nat :=
  match storeInUse s with
  | none => 0
  | some (_, h) => h.gen

/-- The order in which the copies are written: copy 1 first when copy 0 holds the higher valid GEN. -/
def copyOrder (s : State) : List Nat :=
  match storeInUse s with
  | some (0, _) => match storeCopy s 1 with
    | some b => if b.gen < storeGen s then [1, 0] else [0, 1]
    | none => [1, 0]
  | _ => [0, 1]

/-- The bytes of a copy that an image of `len` bytes needs erased: its header sector and whole 64 KiB sectors. -/
def copySpan (len : Nat) : Nat := (0x1000 + len + 65535) / 65536 * 65536

/-- Write a whole copy: erased, the image, then the header. -/
def writeCopy (s : State) (h : StoreHeader) (im : List Byte) (c : Nat) : State :=
  let s := flashErase s (storeAt c) (copySpan im.length)
  flashWrite (flashWrite s (storeAt c + 0x1000) im) (storeAt c) (storeHeaderBytes h)

/-- A copy whose writing was cut short: it has no valid header, and its sectors hold free bytes. -/
def spoilCopy (s : State) (len c : Nat) : State :=
  flashErase (flashSpoil s (storeAt c) (copySpan len)) (storeAt c) 0x1000

/-- The header that a save of an image writes. -/
def saveHeader (s : State) (im : List Byte) (auto : Bool) : StoreHeader := ⟨storeGen s + 1, im.length, crc32c im, auto⟩

/-! ## The end of a piece of work (R509, R510, R516, R523) -/

/-- What a piece of work that is cut short leaves: the block's sectors, or the copy or header in progress, hold free
bytes, and no header that says otherwise (Table 15-8). Whether a save had written its first copy is free. -/
def spoilWork (s : State) : State :=
  match s.boot.work with
  | none => s
  | some (j, _) =>
    let s := match j with
      | .block offset data =>
        let first := offset / 4096 * 4096
        flashSpoil s (stagingAt + first) ((offset + data.length + 4095) / 4096 * 4096 - first)
      | .save im auto =>
        let (one, s) := takeFree s 1
        let h := saveHeader s im auto
        match copyOrder s with
        | [a, b] => if one = 1 then spoilCopy (writeCopy s h im a) im.length b else spoilCopy s im.length a
        | _ => s
      | .activate _ =>
        let a := headerAt (spareHeader s)
        setStage (flashErase (flashSpoil s a 0x10000) a 4) 1
    { s with boot := { s.boot with work := none } }

/-- BOOT_STAT.FLASH_BUSY follows the work and the log clear. -/
def refreshFlashBusy (s : State) : State :=
  rbit s Reg.BOOT_STAT F.BOOT_STAT_FLASH_BUSY (s.boot.work.isSome || ron s Reg.EVR_STAT F.EVR_STAT_CLEAR_BUSY)

/-- Work that was read back correctly takes effect; RESULT as Table 12-9 gives. -/
def finishWork (s : State) (j : FlashJob) : State × Nat :=
  match j with
  | .save im auto =>
    let h := saveHeader s im auto
    let s := (copyOrder s).foldl (fun s c => writeCopy s h im c) s
    (recordEvent (wr s Reg.BOOT_STORE_GEN (BitVec.ofNat 32 h.gen)) 0x1544 noInst false h.gen, h.gen)
  | .block offset data => (stageBlock s offset data, offset + data.length)
  | .activate _ => (activateStaged s, activateResult s)

/-! ## The recovery mailbox (R514, R515) -/

/-- Whether the boot ROM is in recovery mode. -/
def inRecovery (s : State) : Bool := s.powered && ron s Reg.BOOT_STAT F.BOOT_STAT_MODE && !s.boot.romUp

/-- An operation of the mailbox runs. -/
def mailboxBusy (s : State) : Bool := ron s Reg.BOOT_MB_STAT F.BOOT_MB_STAT_BUSY

/-- An operation of the mailbox ends: STATUS, and DONE counts. -/
def mailboxEnd (s : State) (status : Nat) : State :=
  let a := Reg.BOOT_MB_STAT
  rput (rput (rclr s a F.BOOT_MB_STAT_BUSY) a F.BOOT_MB_STAT_STATUS status) a F.BOOT_MB_STAT_DONE (rget s a F.BOOT_MB_STAT_DONE + 1)

/-- What UPDATE_BLOCK and UPDATE_ACTIVATE ask of the flash, for the mailbox. -/
def mailboxRefusal (s : State) : Option Nat :=
  if !ron s Reg.HIF_STAT F.HIF_STAT_BME then some stNotReady
  else if !ron s Reg.BOOT_CTRL F.BOOT_CTRL_FLASH_WR_EN then some stInvalidParam
  else if flashBusy s then some stBusyRetry
  else none

/-- BOOT_MB_BLOCK: a write of BOOT_MB_CMD with OP = 1 and GO; `data` is what the block's address reads as. BUSY is 1 until
the block is stored, which HOST_FLASH_WORK_DONE tells (log entry 56). -/
def execBootMbBlock (w : Word) (data : Option (List Byte)) (s : State) : Out :=
  .next (if !inRecovery s then s
    else
      let s := rwrite s Reg.BOOT_MB_CMD w
      let offset := (rd s Reg.BOOT_MB_OFFSET).toNat
      let len := (rd s Reg.BOOT_MB_LEN).toNat
      if fldGet F.BOOT_MB_CMD_GO w = 0 ∨ fldGet F.BOOT_MB_CMD_OP w ≠ 1 ∨ mailboxBusy s then s
      else if offset % 4096 ≠ 0 ∨ len = 0 ∨ 65536 < len ∨ imageMax < offset + len then mailboxEnd s stInvalidParam
      else match mailboxRefusal s with
      | some st => mailboxEnd s st
      | none =>
        let s := undoActivation s
        match data with
        | none => mailboxEnd (raise s 0x482 noInst 0) stInvalidParam
        | some bs =>
          let block := bytesAt bs 0 len
          if crc32c block ≠ (rd s Reg.BOOT_MB_CRC).toNat then mailboxEnd (raise s 0x545 noInst 0) stCrcFail
          else
            refreshFlashBusy (rset { s with boot := { s.boot with work := some (.block offset block, none) } }
              Reg.BOOT_MB_STAT F.BOOT_MB_STAT_BUSY))

/-- A piece of work is over: its descriptor completes, or the mailbox's operation ends. -/
def workOver (s : State) (d : Option DescRef) (status result : Nat) : State :=
  if inRecovery s then mailboxEnd s status else finishOpt s d status result

/-- HOST_FLASH_WORK_DONE: where the read-back does not agree the spec gives no status: a free one that is not OK, and the
flash as after work that is cut short (log entry 55). -/
def execHostFlashWorkDone (verified : Bool) (s : State) : Out :=
  .next (if !live s && !inRecovery s then s
    else match s.boot.work with
    | none => s
    | some (j, d) =>
      if verified then
        let (s, result) := finishWork { s with boot := { s.boot with work := none } } j
        workOver (refreshFlashBusy s) d stOk result
      else
        let (st, s) := takeFree (refreshFlashBusy (spoilWork s)) 8
        workOver s d (1 + st.toNat % 12) 0)

/-- After the start one invalid copy is rewritten from the other; with PFAIL_N low that waits for its rise (R518, R521). -/
def repairStore (s : State) : State :=
  let s := { s with boot := { s.boot with repairDue := false } }
  match storeInUse s with
  | none => s
  | some (c, h) =>
    if (storeCopy s (1 - c)).isSome then s
    else if !ron s Reg.BOOT_PFAIL F.BOOT_PFAIL_LEVEL then { s with boot := { s.boot with repairDue := true } }
    else recordEvent (writeCopy s h (storeImage s c h.len) (1 - c)) 0x1545 noInst false (1 - c)

/-! ## PFAIL_N (R521, R523) -/

/-- Work is abandoned at a fall of PFAIL_N: it completes with BUSY_RETRY (R523; the ROM's mailbox alike, log entry 56). -/
def abandonWork (s : State) : State :=
  match s.boot.work with
  | none => s
  | some (_, d) => workOver (refreshFlashBusy (spoilWork s)) d stBusyRetry 0

/-- What the supervisor does at a fall: it saves the counters and commits five pages at most. -/
def pfailSet (s : State) : State := if s.boot.supervisor then commitRun [] 80 (saveCounters s) else s

/-- PFAIL_FALL (Table 15-7): work from the host is abandoned; a fall while the set runs is counted and recorded, and neither
restarts nor repeats it. -/
def execPfailFall (s : State) : Out :=
  let a := Reg.BOOT_PFAIL
  .next (if !s.powered || !ron s a F.BOOT_PFAIL_LEVEL then s
    else
      let s := recordEvent (radd (rclr s a F.BOOT_PFAIL_LEVEL) a F.BOOT_PFAIL_FALLS 1) 0x1842 noInst false 0
      let s := abandonWork s
      if ron s a F.BOOT_PFAIL_ACTIVE then s else pfailSet (rset s a F.BOOT_PFAIL_ACTIVE))

/-- PFAIL_RISE: the thresholds of R494 apply again, and a repair of the store that waited runs (R518, R521). -/
def execPfailRise (s : State) : Out :=
  .next (if !s.powered then s
    else
      let s := rset s Reg.BOOT_PFAIL F.BOOT_PFAIL_LEVEL
      if s.boot.repairDue then repairStore s else s)

/-- PFAIL_SET_DONE: `us` is how long the set took. -/
def execPfailSetDone (us : BitVec 16) (s : State) : Out :=
  let a := Reg.BOOT_PFAIL
  .next (if s.powered && ron s a F.BOOT_PFAIL_ACTIVE then
      rput (rset (rclr s a F.BOOT_PFAIL_ACTIVE) a F.BOOT_PFAIL_DONE) Reg.BOOT_PFAIL_TIME F.BOOT_PFAIL_TIME_US us.toNat
    else s)

end Sys2Proof.Machine
end

