-- ==== Sys2Proof/Machine/Startup.lean ====
section
/-! DEFINITION. The boot ROM's sequence, recovery mode and the supervisor's start from the configuration store (R468,
R504 to R508, R512, R514 to R518, R520). -/

namespace Sys2Proof.Machine
open Sys2Proof

/-! ## The ROM (Table 15-2) -/

/-- Recovery mode with a cause (R514): 1 RECOV_N, 2 no valid image, 3 copy failed, 4 flash error. The page's first bytes
are written (R535). -/
def enterRecovery (s : State) (cause : Nat) : State :=
  let s := rset (rput s Reg.BOOT_STAT F.BOOT_STAT_RCAUSE cause) Reg.BOOT_STAT F.BOOT_STAT_MODE
  let s := { s with boot := { s.boot with romUp := false } }
  let s := raise s 0x542 noInst 0
  putPage s 0 (pageHead s)

/-- BOOT_ARB and BOOT_KEYS report the OTP. -/
def reportOtp (s : State) : State :=
  let present := ((List.range 4).filter (fun k => s.boot.keys.getD k 0 != 0)).map (2 ^ ·)
  let s := rput s Reg.BOOT_ARB F.BOOT_ARB_STEPS s.boot.fuses
  rput (rput s Reg.BOOT_KEYS F.BOOT_KEYS_PRESENT (present.foldl (· + ·) 0)) Reg.BOOT_KEYS F.BOOT_KEYS_REVOKED s.boot.revoked

/-- A copied image that passes: fuses up to its ARB, and the slots REVOKE names but its own (R508). -/
def burnFuses (s : State) : State :=
  let arb := imArb s activeAt
  let s := if s.boot.fuses < arb then raise { s with boot := { s.boot with fuses := arb } } 0x546 noInst 0 else s
  let own := imSlot s activeAt
  let mask := ((List.range 4).filter (fun k => bitOf (imRevoke s activeAt) k && k != own && !bitOf s.boot.revoked k)).map (2 ^ ·)
  let mask := mask.foldl (· + ·) 0
  let s := if mask = 0 then s
    else recordEvent { s with boot := { s.boot with revoked := s.boot.revoked + mask } } 0x1543 noInst false mask
  reportOtp s

/-- How a copy at this start ends: whole, with a sector that failed twice and its address, or cut short. -/
inductive CopyEnd where
  | whole | failed (at' : Nat) | cut

/-- Copy the sectors that the markers still name, from `i` on (R512); `left` is how many are copied before the ROM is cut
short, whose sector in progress then holds free bytes (R521, R524). -/
def copySectors (b : Bool) (twice : List Nat) : Nat → Nat → Option Nat → State → State × CopyEnd
  | 0, _, _, s => (s, .whole)
  | n + 1, i, left, s =>
    match headerOf s b with
    | none => (s, .whole)
    | some h =>
      if !sectorDue h i then copySectors b twice n (i + 1) left s
      else if left = some 0 then (flashSpoil s (activeAt + 65536 * i) 65536, .cut)
      else if twice.contains i then (flashSpoil s (activeAt + 65536 * i) 65536, .failed (activeAt + 65536 * i))
      else
        let src := flashRead s (stagingAt + 65536 * i) 65536
        let s := flashWrite (flashErase s (activeAt + 65536 * i) 65536) (activeAt + 65536 * i) src
        let s := { s with boot := { s.boot with copied := some (s.boot.copied.getD 0 + 1) } }
        copySectors b twice n (i + 1) (left.map (· - 1)) (markSector s b i)

/-- The supervisor's firmware is loaded and started (step 8). -/
def startFirmware (s : State) : State :=
  let v := imVersion s activeAt
  let s := wr { s with boot := { s.boot with romUp := true } } Reg.BOOT_FWVER (BitVec.ofNat 32 v)
  recordEvent s 0x1540 noInst false v

/-- Step 7 for an image copied at this start, and what follows it (R508, R512). -/
def acceptCopy (s : State) (b : Bool) : State :=
  let s := rset (setHeaderState s b 3) Reg.BOOT_STAT F.BOOT_STAT_COPIED
  if imVerdict s activeAt ≠ stOk then enterRecovery (raise s 0x540 noInst 0) 2
  else startFirmware (setStage (setHeaderState (burnFuses s) b 4) 0)

/-- The sectors that a run copies before it is cut short, if it is. -/
def cutAfter (flash : RomFlash) : Option Nat :=
  match flash.cut with
  | some (.sector n) => some n
  | _ => none

/-- Step 6 of a header whose image waits for its copy (R512). -/
def runCopy (s : State) (b : Bool) (h : BootHeader) (flash : RomFlash) : State :=
  let s := { s with boot := { s.boot with copied := some 0 } }
  let s := if headerState h = 2 then rset (raise s 0x541 noInst 0) Reg.BOOT_STAT F.BOOT_STAT_COPY_RESUMED else s
  let s := if headerState h = 1 then setHeaderState s b 2 else s
  match copySectors b flash.twice ((h.length + 65535) / 65536) 0 (cutAfter flash) s with
  | (s, .whole) => acceptCopy s b
  | (s, .failed a) => enterRecovery (raise s 0x547 noInst a) 3
  | (s, .cut) => s

/-- Steps 6 to 8. With PFAIL_N low no flash write starts, and a pending copy waits for the next BOOT_ROM_START (R521). -/
def romFromCopy (s : State) (flash : RomFlash) : State :=
  match headerInUse s with
  | none => enterRecovery s 2
  | some (b, h) =>
    let s := noteHeader s b h
    if copyPending h then
      if !ron s Reg.BOOT_PFAIL F.BOOT_PFAIL_LEVEL then s
      else if imVerdict s stagingAt ≠ stOk then enterRecovery (raise s 0x540 noInst 0) 3
      else runCopy s b h flash
    else if imVerdict s activeAt ≠ stOk then enterRecovery (raise s 0x540 noInst 0) 2
    else startFirmware s

/-- The power-cycle count after power-on (R520). -/
def countPower (s : State) : State :=
  if !s.boot.powerOn then s
  else
    let n := min 0xFFFFFF (savedPower s + 1)
    savePower { s with recorder := { s.recorder with pcc := n }, boot := { s.boot with powerOn := false } } n

/-- Recovery mode asked for by RECOV_N: the header in use is reported as step 5 would (R515). -/
def recoverAsked (s : State) : State :=
  enterRecovery (match headerInUse s with
    | none => s
    | some (b, h) => noteHeader s b h) 1

/-- Steps 3 to 8. The count's record comes before anything else is written or verified: with PFAIL_N low, and where it is
cut short, the ROM goes no further (R520, R521; log entry 168). -/
def romFromCount (s : State) (flash : RomFlash) : State :=
  if s.boot.powerOn && !ron s Reg.BOOT_PFAIL F.BOOT_PFAIL_LEVEL then s
  else if s.boot.powerOn && flash.cut == some .record then spoilRecord s
  else
    let s := countPower s
    if s.boot.recovLow then recoverAsked s else romFromCopy s flash

/-- Step 1 has ended: the balls leave their reset state (R559), FAULT_N follows the latches (R560), and the management
target answers from step 2 on (R528). -/
def romStepOne (s : State) : State :=
  let s := refreshFaultN { s with boot := { s.boot with coming := false, resetting := false } }
  reportOtp { s with mgt := { s.mgt with answers := true, idleAt := some (recorderNow s) } }

/-- BOOT_ROM_START (R504). -/
def execBootRomStart (flash : RomFlash) (s : State) : Out :=
  .next (if !s.powered || s.boot.romUp || s.boot.supervisor || ron s Reg.BOOT_STAT F.BOOT_STAT_MODE then s
    else
      let s := romStepOne s
      let s := match flash.otpBad with
        | none => s
        | some a => raise s 0x606 noInst a.toNat
      if !flash.identified then enterRecovery (raise s 0x547 noInst 0) 4 else romFromCount s flash)

/-- BOOT_MB_ACTIVATE: a write of BOOT_MB_CMD with OP = 2 and GO; on success the ROM goes on from step 6 at once, whatever
RECOV_N is (R515). -/
def execBootMbActivate (w : Word) (flash : RomFlash) (s : State) : Out :=
  .next (if !inRecovery s then s
    else
      let s := rwrite s Reg.BOOT_MB_CMD w
      if fldGet F.BOOT_MB_CMD_GO w = 0 ∨ fldGet F.BOOT_MB_CMD_OP w ≠ 2 ∨ mailboxBusy s then s
      else match mailboxRefusal s with
      | some st => mailboxEnd s st
      | none =>
        let (s, v) := checkStaged s (rd s Reg.BOOT_MB_LEN).toNat
        if v ≠ stOk then mailboxEnd s v
        else romFromCopy (mailboxEnd (activateStaged s) stOk) flash)

/-! ## The configuration store (R518) -/

/-- The flags that say a register write was refused. -/
def refusalFlags : List (Nat × Fld) :=
  [(Reg.SYS_BLKCFG, F.SYS_BLKCFG_REFUSED), (Reg.TIME_STAT, F.TIME_STAT_RATE_REFUSED), (Reg.TIME_STAT, F.TIME_STAT_ARG_REFUSED),
   (Reg.FAB_STAT, F.FAB_STAT_GRP_REFUSED), (Reg.FLT_STAT, F.FLT_STAT_REFUSED), (Reg.STK_STAT, F.STK_STAT_REFUSED)]
    ++ (List.range 16).map (fun n => (Reg.TDM_STAT n, F.TDM_STAT_REFUSED))
    ++ (List.range 8).map (fun p => (Reg.NET_STAT p, F.NET_STAT_REFUSED))
    ++ (List.range 64).map (fun q => (Reg.HIF_QP_STAT q, F.HIF_QP_STAT_REFUSED))

/-- Whether a write is refused: it sets one of those flags where all are clear, or EN of a biphase port does not take. -/
def writeRefused (s : State) (a : Nat) (w : Word) : Bool :=
  let t := busWrite (forEach refusalFlags s (fun s f => rclr s f.1 f.2)) a w
  refusalFlags.any (fun f => ron t f.1 f.2) ||
    (((copyAt Reg.BPH_RX_CTRL 16 a).isSome || (copyAt Reg.BPH_TX_CTRL 16 a).isSome) && fldGet ⟨0, 1⟩ w != rget t a ⟨0, 1⟩)

/-- A configuration section fails: the start is left to the host (R518). -/
def sectionFailed (s : State) (i : Nat) : State :=
  recordEvent { s with boot := { s.boot with abandoned := true } } 0x1547 noInst false i

/-- The pairs of BAR0 offset and value of a section. -/
def sectionPairs (bs : List Byte) : List (Nat × Word) :=
  (List.range (bs.length / 8)).map (fun i => (leAt bs (8 * i) 4, BitVec.ofNat 32 (leAt bs (8 * i + 4) 4)))

/-- A setting of step 6 of the start: of CLK and REF, TIME, STK or NET, and SYS_LOCK, which would close them (R468; log
entry 167). -/
def ofStepSix (a : Nat) : Bool :=
  (decide (0x2000 ≤ a) && decide (a < 0x4000)) || (decide (0x8000 ≤ a) && decide (a < 0x9000)) ||
    (decide (0x10000 ≤ a) && decide (a < 0x18000)) || a == Reg.SYS_LOCK

/-- Step 5 of the start has ended: no discovery waits; a member with no link UP is a stack of one (R458, R468). -/
def discovered (s : State) : Bool := s.stk.discover.isNone

/-- Writes of a REGS section in their order; one that is refused fails the section. -/
def applyPairs (s : State) (i : Nat) (ps : List (Nat × Word)) : State :=
  let (s, bad) := ps.foldl (fun (acc : State × Bool) p =>
    (busWrite acc.1 p.1 p.2, acc.2 || writeRefused acc.1 p.1 p.2)) (s, false)
  if bad then sectionFailed s i else s

/-- A REGS section; its settings of step 6 wait for step 5 (R468). -/
def applyRegs (s : State) (i : Nat) (bs : List Byte) : State :=
  let ps := sectionPairs bs
  if (discovered s && s.boot.settings.isEmpty) || !ps.any (fun p => ofStepSix p.1) then applyPairs s i ps
  else applyPairs { s with boot := { s.boot with settings := s.boot.settings ++ [i] } } i (ps.filter (fun p => !ofStepSix p.1))

/-- Step 6: the settings that waited, once discovery has ended. -/
def applySettings (s : State) : State :=
  if !discovered s then s
  else
    forEach s.boot.settings { s with boot := { s.boot with settings := [] } } (fun s i =>
      match (configSections s)[i]? with
      | none => s
      | some c => applyPairs s i ((sectionPairs c.2).filter (fun p => ofStepSix p.1)))

/-- A TALLY section: opened, filled and committed NEXT with LATE_OK. -/
def applyStoredTally (s : State) (bs : List Byte) : State :=
  let id := leAt bs 0 1 % 16
  let s := { s with boot := { s.boot with loadTally := some (id, none) } }
  if tyState s id ≠ tyFree ∨ tallyFenced s then noteStored s id false
  else
    let recs := bs.drop 8
    let s := writeRecords (openTally s id) none id (recs.length / 16) recs
    if tyState s id = tyOpen then
      commitTally s id none 2 false true false (leadBoundary s false (tallyAt s id).recs) 0 0
    else s

/-- The outcome of the stored tally that was waited for, if it is known: an abort fails its section. -/
def takeStored (s : State) (i : Nat) : Option State :=
  match s.boot.loadTally with
  | none => some s
  | some (_, none) => none
  | some (_, some ok) =>
    let s := { s with boot := { s.boot with loadTally := none } }
    some (if ok then s else sectionFailed s i)

/-- Go on with the store's sections, `n` at most: up to a tally whose outcome is not known yet, or to their end. -/
def loadStore : Nat → State → State
  | 0, s => s
  | n + 1, s =>
    match s.boot.load with
    | none => s
    | some i =>
      match takeStored s (i - 1) with
      | none => s
      | some s =>
        match (configSections s)[i]? with
        | none => repairStore { s with boot := { s.boot with load := none } }
        | some (type, bs) =>
          let s := { s with boot := { s.boot with load := some (i + 1) } }
          loadStore n (match type with
            | 3 => applyRegs s i bs
            | 4 =>
              let (s, ok) := loadStored s bs
              if ok then s else sectionFailed s i
            | 5 => applyStoredTally s bs
            | _ => s)

/-- The supervisor goes on with the store. -/
def continueLoad (s : State) : State :=
  let s := applySettings s
  if s.boot.load.isNone then s else loadStore ((configSections s).length + 1) s

/-- What the supervisor finds in the store at a start: BOOT_STAT, BOOT_STORE_GEN, and the sources of invalid copies. -/
def chooseStore (s : State) : State :=
  let a := Reg.BOOT_STAT
  let bad (c : Nat) : Bool := (storeCopy s c).isNone
  let s := rbit (rbit s a F.BOOT_STAT_STORE0_BAD (bad 0)) a F.BOOT_STAT_STORE1_BAD (bad 1)
  match storeInUse s with
  | none => raise s 0x544 noInst 0
  | some (c, h) =>
    let s := wr (rput (rbit s a F.BOOT_STAT_AUTOSTART h.auto) a F.BOOT_STAT_STORE_USED c) Reg.BOOT_STORE_GEN (BitVec.ofNat 32 h.gen)
    if (storeCopy s (1 - c)).isNone then raise s 0x543 noInst 0 else s

/-- The RATE section: writes inside the EVR block, before any other setting (R501, R518). -/
def applyRate (s : State) : State :=
  forEach (sectionPairs ((configSection s 1).getD [])) s (fun s p =>
    if 0x5000 ≤ p.1 ∧ p.1 < 0x6000 then busWrite s p.1 p.2 else s)

/-- A linked die that reports SEALED = 0 is sealed (R342, R343). -/
def sealLinked (s : State) : State :=
  forEach (allDies.filter (fun d => diePresent s d && rget s (Reg.BAR_STAT (dieNum d)) F.BAR_STAT_LINK == lkUp)) s
    (fun s d => sealIfAsked s d (ron s (Reg.BAR_STAT (dieNum d)) F.BAR_STAT_SEALED))

/-- SUPERVISOR_START (Table 13-3, R512, R515, R518): recovery mode ends and the mailbox reads zero; a copy of this start is
recorded; an interrupted log clear goes on (R499); the store is applied. -/
def execSupervisorStart (s : State) : Out :=
  .next (if !s.powered || !s.boot.romUp then s
    else if s.boot.supervisor then { s with boot := { s.boot with restarting := false } }
    else
      let s := rclr { s with boot := { s.boot with supervisor := true, load := some 0 } } Reg.BOOT_STAT F.BOOT_STAT_MODE
      let s := resetRange s Reg.BOOT_MB_ADDR_LO (Reg.BOOT_MB_STAT + 4)
      let s := match s.boot.copied with
        | none => s
        | some n => recordEvent s 0x1542 noInst false n
      let s := if clearPending s then
          refreshFlashBusy (rset s Reg.EVR_STAT F.EVR_STAT_CLEAR_BUSY)
        else s
      continueLoad (sealLinked (applyRate (chooseStore s))))

end Sys2Proof.Machine
end

