-- ==== Sys2Proof/Machine/Boundary.lean ====
section
/-! DEFINITION. The block boundary: what ends with a period and what begins with the next (R24 to R31, R34, R57, R257). -/

namespace Sys2Proof.Machine
open Sys2Proof

/-- The generator passes the boundary of block `n`: the index and the ordinal advance, a re-base is flagged and recorded,
and the grid slews (R24, R27, R28). -/
def advanceBlock (s : State) (n : Nat) : State :=
  let k := s.grid.extra
  let slew := slewAfter s.grid.slew 1
  let grid := { s.grid with index := n, ordinal := s.grid.ordinal + 1, extra := 0, slew := slew, began := s.time.cnt }
  let s := wr { s with grid := grid } Reg.SYS_BLKIDX_LO (BitVec.ofNat 32 n)
  let s := rbit s Reg.SYS_PIPE F.SYS_PIPE_SLEW (decide (slew ≠ 0))
  if k = 0 then s
  else recordEvent (rset s Reg.SYS_PIPE F.SYS_PIPE_REBASED) 0x0341 noInst false (wrapTo 32 k)

/-- The pipeline stops at the boundary after RUN was cleared, and starts at the second one after it was set: buffers
cleared, q = 0 (R57). -/
def startStop (s : State) : State :=
  if running s && !ron s Reg.SYS_PIPE F.SYS_PIPE_RUN then rclr s Reg.SYS_PIPE F.SYS_PIPE_RUNNING
  else match s.grid.startIn with
  | none => s
  | some (k + 2) => { s with grid := { s.grid with startIn := some (k + 1) } }
  | some _ =>
    let s := clearFabric { s with grid := { s.grid with startIn := none, ordinal := 0 } }
    rset s Reg.SYS_PIPE F.SYS_PIPE_RUNNING

/-- The field map of the block that begins is kept until the block that plays its beads has gone (R567). -/
def shiftMaps (s : State) : State :=
  { s with
    chmapPlay := s.chmapPrev
    chmapPrev := (List.range 64).map (fun k => rd s (Reg.BAR_CHMAP (k / 32) (k % 32))) }

/-- The period that ends: the engines' beads, what the ports and the barrier still owe, and every bead closed. -/
def endPeriod (s : State) : State := closeBeads (senseDeadline (delayPeriod (mixPeriod (finishPorts s))))

/-- Units held in reset are released (Table 14-3). -/
def releaseUnits (s : State) : State := { s with collector := { s.collector with inReset := [] } }

/-- The period that begins: the fabric's readers and the ports started, the rods, the counts, and the messages of the
boundary. `b` and `epoch` are the block that ended and its configuration epoch. -/
def beginPeriod (s : State) (b epoch : Nat) : State :=
  let s := shiftMaps s
  let s := beginPorts (pathTimeouts (transmitStreams s b epoch))
  let s := freeBanks (forEach (List.range 64) s rodBoundary)
  let s := clearStreams (countDelay (countCrosspoints s))
  let s := forEach allDies (stkBoundary s) barBoundary
  continueLoad (askDoorbell s)

/-- The boundary's cycle up to its end, with what it raises gathered: the tallies, what ends with the period, the index, and
what begins with the next one (R257, R476). -/
def crossBoundary (s : State) (n : Nat) : State :=
  let u := endPeriod (tallyCarry (settleTallies (gatherRaises s) n) n)
  beginPeriod (applyTallies (releaseUnits (startStop (advanceBlock u n))) n) s.grid.index (rget s Reg.SYS_EPOCH F.SYS_EPOCH_EPOCH)

/-- The boundary's cycle: its raises are handled in their order, and what fires in it makes one carry, a MATCH and stack
carries of that cycle among it, with the state before it (R272, R476). -/
def blockBoundary (s : State) : State :=
  let t := boundaryAt s
  let u := clearTimed (openCycle s (timedCauses s t)) t
  let u := closeCycle raise s (flushRaises (crossBoundary u (nextBoundary s))) (timedTag s t)
  finishTimed s u t

/-- BLOCK_BOUNDARY (R25): the boundary that comes next. -/
def execBlockBoundary (s : State) : Out := onHost s blockBoundary

end Sys2Proof.Machine
end

