-- ==== Sys2Proof/Machine/BusCmd.lean ====
section
/-! DEFINITION. The bus matrix's commands: a target port arbitrates and runs one burst, and a transaction that times out
(R46 to R54). -/

namespace Sys2Proof.Machine
open Sys2Proof

/-- A read of a BAR0 word where reading has an effect of its own: the words that latch others (R56, R95, R501, R136). -/
def busReadLatch (s : State) (a : Nat) : State :=
  if a = Reg.SYS_BLKIDX_LO then hostSysBlkidxLoRead s
  else if a = Reg.TIME_NOW_FRAC then hostTimeNowFracRead s
  else if a = Reg.TIME_CNT_LO then hostTimeCntLoRead s
  else if a = Reg.TIME_BASE_CNT_LO then hostTimeBaseCntLoRead s
  else if a = Reg.EVR_OPTIME_F then hostEvrOptimeFRead s
  else match copyAt Reg.BPH_RX_CSSEQ 16 a with
  | some n => hostBphRxCsseqRead (Fin.ofNat 16 n) s
  | none => s

/-- A granted burst at the register space: its words are written or read in order. -/
def registerBurst (s : State) (r : BusReq) : State :=
  if !live s then s
  else match r.data with
  | some ws => (ws.foldl (fun (acc : State × Nat) w => (busWrite acc.1 acc.2 w, acc.2 + 4)) (s, r.addr)).1
  | none => (List.range (16 * (r.beats.val + 1))).foldl (fun s i => busReadLatch s (r.addr + 4 * i)) s

/-- A granted burst runs (R51). What the supervisor's firmware does at the flash controller and the debug port changes by
commands of its own, if at all (log entry 44). -/
def runBurst (s : State) (t : Nat) (r : BusReq) (ecc : EccResult) : State :=
  if t = 20 then registerBurst s r else memoryBurst s t r ecc

/-- Grant one request and run its burst. -/
def grant (s : State) (t : Nat) (x : BusReq × Nat) (ecc : EccResult) : State :=
  runBurst (setPort s t ⟨(portAt s t).waiting.erase x, x.1.master⟩) t x.1 ecc

/-- A target port arbitrates `elapsed` FAB_CLK cycles after it last did, with requests that arrive (R48 to R53): an idle
port stays parked on its last master. -/
def execBusRequest (target : Fin 24) (arrivals : List BusReq) (elapsed : Nat) (ecc : EccResult) (s : State) : Out :=
  .next (if !s.powered then s
    else
      let t := target.val
      let s := portAges s t elapsed
      let p := portAt s t
      let s := forEach arrivals s (fun s r => arrive s t r)
      let parked := if p.waiting.isEmpty && ron s Reg.MTX_CTRL F.MTX_CTRL_PARK_EN then
        ((portAt s t).waiting.filter (grantable s t)).find? (fun x => x.1.master.val == p.last) else none
      match parked with
      | some x => grant s t x ecc
      | none => match winner s t with
        | some x => grant s t x ecc
        | none => s)

/-- A transaction has not completed within MTX_TIMEOUT (R52): one that waits at
its port leaves it, when the port's other requests have aged as long; one that a target took and has not answered ends
too. -/
def execMatrixTimeout (master : Fin 16) (target : Fin 24) (wait : MatrixWait) (s : State) : Out :=
  .next (if !s.powered || decide (wait.waited < timeoutCycles s) then s
    else
      let t := target.val
      match (portAt s t).waiting.find? (fun x => x.1.master == master && x.1.addr == wait.addr) with
      | some x => portAges s t (wait.waited - x.2)
      | none => transactionLost s master t wait.addr)

end Sys2Proof.Machine
end

