-- ==== Sys2Proof/Machine/Binary32.lean ====
section
/-! DEFINITION. IEEE 754 binary32 arithmetic on words, rounding to nearest even: the arithmetic of the cone models
(R392). A not-a-number result is 0x7FC00000 (log entry 30). -/

namespace Sys2Proof.Machine
open Sys2Proof

/-- The sign, exponent and fraction fields of a word. -/
def f32Neg (w : Word) : Bool := w.msb
def f32Exp (w : Word) : Nat := bitsOf w.toNat 23 8
def f32Frac (w : Word) : Nat := bitsOf w.toNat 0 23

/-- Finite, infinite and not-a-number words. -/
def f32Finite (w : Word) : Bool := f32Exp w != 255
def f32Inf (w : Word) : Bool := f32Exp w == 255 && f32Frac w == 0
def f32Nan (w : Word) : Bool := f32Exp w == 255 && f32Frac w != 0
def f32Zero (w : Word) : Bool := w.toNat % 2 ^ 31 == 0

/-- The number a finite word stands for. -/
def f32Rat (w : Word) : Rat :=
  let m : Nat := if f32Exp w = 0 then f32Frac w else f32Frac w + 2 ^ 23
  let e : Int := (max 1 (f32Exp w) : Nat) - 150
  let a : Rat := if e ≥ 0 then ((m * 2 ^ e.toNat : Nat) : Rat) else mkRat m (2 ^ (-e).toNat)
  if f32Neg w then -a else a

/-- A word from a sign and the bits below it. -/
def f32Word (neg : Bool) (bits : Nat) : Word := BitVec.ofNat 32 (bits + (if neg then 2 ^ 31 else 0))

/-- Infinity, zero and not a number. -/
def f32Infinity (neg : Bool) : Word := f32Word neg 0x7F800000
def f32ZeroOf (neg : Bool) : Word := f32Word neg 0
def f32NotANumber : Word := 0x7FC00000#32

/-- A natural quotient rounded to nearest, ties to even. -/
def divNearestEven (n d : Nat) : Nat :=
  let q := n / d
  let r := n % d
  if 2 * r > d ∨ (2 * r = d ∧ q % 2 = 1) then q + 1 else q

/-- The exponent of a positive fraction: the largest e with 2^e ≤ n / d. -/
def ratLog2 (n d : Nat) : Int :=
  let e : Int := (Nat.log2 n : Int) - Nat.log2 d
  let le (e : Int) : Bool := if e ≥ 0 then decide (d * 2 ^ e.toNat ≤ n) else decide (d ≤ n * 2 ^ (-e).toNat)
  if le e then e else e - 1

/-- The binary32 word nearest to a number; `neg` is the sign of a zero result. -/
def f32Round (neg : Bool) (q : Rat) : Word :=
  let n := q.num.natAbs
  let d := q.den
  if n = 0 then f32ZeroOf neg
  else
    let neg := decide (q.num < 0)
    let e := max (ratLog2 n d) (-126)
    let m := if e ≥ 23 then divNearestEven n (d * 2 ^ (e - 23).toNat) else divNearestEven (n * 2 ^ (23 - e).toNat) d
    let bits := (e + 126).toNat * 2 ^ 23 + m
    if bits ≥ 0x7F800000 then f32Infinity neg else f32Word neg bits

/-- The nearest word to a number. -/
def f32Of (q : Rat) : Word := f32Round false q

def f32Add (a b : Word) : Word :=
  if f32Nan a || f32Nan b then f32NotANumber
  else if f32Inf a then (if f32Inf b && f32Neg a != f32Neg b then f32NotANumber else a)
  else if f32Inf b then b
  else f32Round (f32Neg a && f32Neg b) (f32Rat a + f32Rat b)

def f32Negate (a : Word) : Word := a ^^^ 0x80000000#32

def f32Sub (a b : Word) : Word := if f32Nan b then f32NotANumber else f32Add a (f32Negate b)

def f32Mul (a b : Word) : Word :=
  let neg := f32Neg a != f32Neg b
  if f32Nan a || f32Nan b then f32NotANumber
  else if f32Inf a || f32Inf b then (if f32Zero a || f32Zero b then f32NotANumber else f32Infinity neg)
  else f32Round neg (f32Rat a * f32Rat b)

def f32Div (a b : Word) : Word :=
  let neg := f32Neg a != f32Neg b
  if f32Nan a || f32Nan b then f32NotANumber
  else if f32Inf a then (if f32Inf b then f32NotANumber else f32Infinity neg)
  else if f32Inf b then f32ZeroOf neg
  else if f32Zero b then (if f32Zero a then f32NotANumber else f32Infinity neg)
  else f32Round neg (f32Rat a / f32Rat b)

/-- a < b; false where either is not a number. -/
def f32Lt (a b : Word) : Bool :=
  if f32Nan a || f32Nan b then false
  else if f32Inf a then f32Neg a && !(f32Inf b && f32Neg b)
  else if f32Inf b then !f32Neg b
  else decide (f32Rat a < f32Rat b)

end Sys2Proof.Machine
end

