-- ==== Sys2Proof/Machine/FieldProt.lean ====
section
/-! DEFINITION. Loudspeaker protection on a field die: rails, cone models, the protection gains of a sample, the thermal
model, trim, pilot and latches (R380 to R399, R404 to R410). -/

namespace Sys2Proof.Machine
open Sys2Proof

/-! ## Quantities -/

/-- A field in hundredths, thousandths and sixteenths of its unit. -/
def inCenti (s : State) (d : Die) (a : Nat) (f : Fld) : Rat := mkRat (fget s d a f) 100
def inMilli (s : State) (d : Die) (a : Nat) (f : Fld) : Rat := mkRat (fget s d a f) 1000
def inKelvin (s : State) (d : Die) (a : Nat) (f : Fld) : Rat := mkRat (fgetI s d a f) 16

/-- V_rail, and V_rail as a divisor: no lower than 1 V (R382). -/
def vRail (s : State) (d : Die) : Rat := (dieAt s d).rail
def vRailLow (s : State) (d : Die) : Rat := max 1 (vRail s d)

/-- Volts of VS and amperes of IS (R383). -/
def voltsOf (s : State) (d : Die) (w : Word) : Rat := q31Rat w * inCenti s d Reg.PRT_SCALE F.PRT_SCALE_VS_FS
def ampsOf (s : State) (d : Die) (w : Word) : Rat := q31Rat w * inMilli s d Reg.PRT_SCALE F.PRT_SCALE_IS_FS

/-- Re in use (R387). -/
def reNow (s : State) (d : Die) (c : Nat) : Rat :=
  let al : Rat := if fon s d (Reg.PRT_CH_CTRL c) F.PRT_CH_CTRL_AL then mkRat 403 100000 else mkRat 393 100000
  mkRat (fget s d (Reg.PRT_CH_RE c) F.PRT_CH_RE_RE_REF) 65536 *
    (1 + al * ((fch s d c).tc - inKelvin s d (Reg.PRT_CH_RECAL c) F.PRT_CH_RECAL_T_REF))

/-- A Q16.16 report of a number, to the nearest, saturated to a signed word or to an unsigned one. -/
def q16 (q : Rat) : Int := nearest (q * 65536)
def q16U (q : Rat) : Nat := (min (2 ^ 32 - 1) (max 0 (q16 q))).toNat
def q16S (q : Rat) : Nat := wrapTo 32 (satInt 32 (q16 q))

/-- The TS input a channel belongs to, and its temperature field. -/
def tsFld (m : Nat) : Nat × Fld :=
  (if m < 2 then Reg.PRT_TS01 else Reg.PRT_TS23, ⟨16 * (m % 2), 16⟩)
def tsBad (s : State) (d : Die) (m : Nat) : Bool := fon s d Reg.PRT_SENSE_BAD ⟨m, 1⟩
def tsRead (s : State) (d : Die) (m : Nat) : Rat := (dieAt s d).ts.getD m 0

/-- TSm in °C; a bad one is taken as the highest valid value, or PS_MAX (R385). -/
def tsTemp (s : State) (d : Die) (m : Nat) : Rat :=
  if !tsBad s d m then tsRead s d m
  else
    match ((List.range 4).filter (fun i => !tsBad s d i)).map (tsRead s d) with
    | [] => inKelvin s d Reg.PRT_PS_FOLD F.PRT_PS_FOLD_PS_MAX
    | t :: ts => ts.foldl max t

/-- The ambient temperature of a channel (R386). -/
def ambient (s : State) (d : Die) (c : Nat) : Rat :=
  match fget s d (Reg.PRT_CH_AMB c) F.PRT_CH_AMB_AMB_SRC with
  | 0 => inKelvin s d (Reg.PRT_CH_AMB c) F.PRT_CH_AMB_T_AMB
  | m + 1 => tsTemp s d m

/-- The rails of a tick: V_rail, and RAIL_LOW with its hysteresis (R383, R385, R396). -/
def railStep (s : State) (d : Die) (p n : Word) : State :=
  let bad := fon s d Reg.PRT_SENSE_BAD F.PRT_SENSE_BAD_RAILP || fon s d Reg.PRT_SENSE_BAD F.PRT_SENSE_BAD_RAILN
  let low := inCenti s d Reg.PRT_RAIL_SCALE F.PRT_RAIL_SCALE_RAIL_MIN
  let v := if bad then low else (q31Rat p - q31Rat n) * inCenti s d Reg.PRT_RAIL_SCALE F.PRT_RAIL_SCALE_RAIL_FS
  let s := setDie s d { dieAt s d with rail := v }
  let s := fput s d Reg.PRT_RAIL_STAT F.PRT_RAIL_STAT_V_RAIL (min 65535 (max 0 (v * 100).floor).toNat)
  let was := fon s d Reg.PRT_RAIL_STAT F.PRT_RAIL_STAT_RAIL_LOW
  if v < low ∧ !was then fldRaise (fbit s d Reg.PRT_RAIL_STAT F.PRT_RAIL_STAT_RAIL_LOW true) d 0x36 0xFF 0
  else if was ∧ low + inCenti s d Reg.PRT_SUPPLY F.PRT_SUPPLY_MARGIN ≤ v then
    fbit s d Reg.PRT_RAIL_STAT F.PRT_RAIL_STAT_RAIL_LOW false
  else s

/-! ## Cone models (R392 to R394), in binary32 -/

/-- Σ c_j x^j, from j = 0 up, with powers by repeated products. -/
def polyTerms (x : Word) : List Word → Word → Word → Word
  | [], _, acc => acc
  | c :: cs, p, acc => polyTerms x cs (f32Mul p x) (f32Add acc (f32Mul c p))
def poly (cs : List Word) (x : Word) : Word :=
  match cs with
  | [] => 0
  | c :: cs => polyTerms x cs x c

/-- Its derivative: Σ j c_j x^(j-1). -/
def polySlope (cs : List Word) (x : Word) : Word :=
  poly ((List.range (cs.length - 1)).map (fun j => f32Mul (f32Of (j + 1 : Nat)) (cs.getD (j + 1) 0))) x

/-- A model word as this tick uses it: one that a record of the tick replaced acts once more (R417). -/
def modelWord (s : State) (d : Die) (a : Nat) : Word :=
  match (dieAt s d).oldModel.find? (fun p => p.1 == a) with
  | some p => p.2
  | none => frd s d a

/-- The model words of a channel. -/
def modelWords (s : State) (d : Die) (f : Nat → Nat → Nat) (c : Nat) : List Word :=
  (List.range 5).map (fun j => modelWord s d (f c j))

/-- Bl, Kms, Le and Le' at an excursion, or held constant (R392, R394). -/
structure ConeAt where
  bl : Word
  kms : Word
  le : Word
  leS : Word

def coneAt (s : State) (d : Die) (c : Nat) (const : Bool) (x : Word) : ConeAt :=
  let bl := modelWords s d Reg.PRT_CH_BL c
  let kms := modelWords s d Reg.PRT_CH_KMS c
  let le := modelWords s d Reg.PRT_CH_LE c
  if const then ⟨bl.headD 0, kms.headD 0, le.headD 0, 0⟩ else ⟨poly bl x, poly kms x, poly le x, polySlope le x⟩

/-- One tick of a cone model driven by `u` (R392). -/
def coneStep (s : State) (d : Die) (c : Nat) (const : Bool) (re u : Word) (k : Cone) : Cone :=
  let fs := dieFs s d
  let h := f32Of (mkRat 1 fs)
  let p := coneAt s d c const k.x
  let i :=
    if f32Lt (f32Mul p.le (f32Of fs)) (f32Mul (f32Of 4) re) then f32Div (f32Sub u (f32Mul p.bl k.v)) re
    else
      let e := f32Sub (f32Sub (f32Sub u (f32Mul re k.i)) (f32Mul p.bl k.v)) (f32Mul (f32Mul k.i p.leS) k.v)
      f32Add k.i (f32Div (f32Mul h e) p.le)
  let f := f32Sub (f32Sub (f32Mul p.bl i) (f32Mul (modelWord s d (Reg.PRT_CH_RMS c)) k.v)) (f32Mul p.kms k.x)
  let v := f32Add k.v (f32Div (f32Mul h f) (modelWord s d (Reg.PRT_CH_MMS c)))
  ⟨f32Add k.x (f32Mul h v), v, i⟩

/-- A model word as a number of metres; past every report where it is infinite (log entry 30). -/
def metres (w : Word) : Rat :=
  if f32Nan w then mkRat Config.nanMicrons 1000000
  else if f32Inf w then (if f32Neg w then -1000 else 1000)
  else f32Rat w

/-- Whether a channel's models run: MMS is not zero (R392). -/
def hasModel (s : State) (d : Die) (c : Nat) : Bool := !f32Zero (modelWord s d (Reg.PRT_CH_MMS c))

/-- The linearised sample x3 (R394), with the reference instance and i_q after it. -/
def linearise (s : State) (d : Die) (c : Nat) (re : Word) (vScale x2 : Rat) : Rat × Cone × Word :=
  let x := fch s d c
  let r := coneStep s d c true re (f32Of (x2 * vScale)) x.ref
  let fs := f32Of (dieFs s d)
  let a := f32Mul (f32Sub r.v x.ref.v) fs
  let p := coneAt s d c false r.x
  let bl0 := modelWord s d (Reg.PRT_CH_BL c 0)
  let absW (w : Word) : Word := w &&& 0x7FFFFFFF#32
  let iq := f32Div (f32Add (f32Add (f32Mul (modelWord s d (Reg.PRT_CH_MMS c)) a)
    (f32Mul (modelWord s d (Reg.PRT_CH_RMS c)) r.v)) (f32Mul p.kms r.x)) p.bl
  let u := f32Add (f32Add (f32Add (f32Mul re iq) (f32Mul (f32Mul p.le (f32Sub iq x.iq)) fs))
    (f32Mul (f32Mul iq p.leS) r.v)) (f32Mul p.bl r.v)
  if f32Lt (absW p.bl) (f32Mul (f32Of (mkRat 1 4)) (absW bl0)) then (x2, r, iq) else (metres u / vScale, r, iq)

/-! ## A sample through the protection stage (R380, R381, R393, R395) -/

/-- A gain that has just fallen below 1 after at least a second at 1 raises a source; answers the ticks at 1. -/
def gainWatch (s : State) (d : Die) (c : Nat) (g : Rat) (ones idx : Nat) : State × Nat :=
  if g = 1 then (s, ones + 1)
  else (if dieFs s d ≤ ones then fldRaise s d idx c 0 else s, 0)

/-- g_x from the prediction instance (R393). -/
def excursion (s : State) (d : Die) (c : Nat) (re : Word) (drive : Rat) : State :=
  let x := fch s d c
  if !(hasModel s d c && fon s d (Reg.PRT_CH_CTRL c) F.PRT_CH_CTRL_X_EN) then
    fbit (setFch s d c { x with gx := 1, xOne := x.xOne + 1 }) d (Reg.PRT_CH_STAT c) F.PRT_CH_STAT_X_ACT false
  else
    let p := coneStep s d c false re (f32Of drive) x.pred
    let rel := max 1 (fget s d (Reg.PRT_CH_XLIM c) F.PRT_CH_XLIM_XREL)
    let m := metres p.x
    let e := max (max m (-m)) (x.env * (1 - mkRat 1000 (rel * dieFs s d)))
    let lim := mkRat (fget s d (Reg.PRT_CH_XLIM c) F.PRT_CH_XLIM_XLIM) 1000000
    let g := if e ≤ lim then 1 else lim / e
    let (s, ones) := gainWatch s d c g x.xOne 0x34
    fbit (setFch s d c { fch s d c with pred := p, env := e, gx := g, xOne := ones }) d (Reg.PRT_CH_STAT c)
      F.PRT_CH_STAT_X_ACT (decide (g < 1))

/-- The supply limiter's next gain (R382, R395). -/
def supplyGain (s : State) (d : Die) (c : Nat) (x3t : Rat) : State :=
  let x := fch s d c
  if !fon s d Reg.PRT_DIE_CTRL F.PRT_DIE_CTRL_COMP_EN then
    fbit (setFch s d c { x with gs := 1, sOne := x.sOne + 1 }) d (Reg.PRT_CH_STAT c) F.PRT_CH_STAT_SUP_ACT false
  else
    let vAv := min (vRailLow s d * fOverH s d c - inCenti s d Reg.PRT_SUPPLY F.PRT_SUPPLY_MARGIN)
      (inCenti s d (Reg.PRT_CH_VOUT c) F.PRT_CH_VOUT_VOUT_MAX)
    let dem := max x3t (-x3t) * inCenti s d (Reg.PRT_CH_VOUT c) F.PRT_CH_VOUT_V_FS_OUT
    let gt := if vAv ≤ 0 then 0 else if dem ≤ vAv then 1 else vAv / dem
    let ms := if gt < x.gs then 1 else 500
    let g := x.gs + (gt - x.gs) * mkRat 1000 (ms * dieFs s d)
    let (s, ones) := gainWatch s d c g x.sOne 0x35
    fbit (setFch s d c { fch s d c with gs := g, sOne := ones }) d (Reg.PRT_CH_STAT c) F.PRT_CH_STAT_SUP_ACT (decide (g < 1))

/-- A number as a Q1.31 sample that lies within ± `bound`; one between two samples is rounded to either (R380; log entry
33). -/
def toSample (bound q : Rat) : Word :=
  let v := q * 2 ^ 31
  let n : Int := v.floor
  let m : Int := if v = (n : Rat) then n else if Config.roundUp v then n + 1 else n
  let b : Int := (bound * 2 ^ 31).floor
  BitVec.ofInt 32 (satInt 32 (max (-b) (min b m)))

/-- Whether the channel is under test: a sweep's points or a check replace its programme (R402, R411). -/
def underTest (s : State) (d : Die) (c : Nat) : Bool :=
  let x := fch s d c
  x.check.isSome ||
    (match x.sweep, (dieAt s d).sweep with
     | some w, some r => w.status.isNone && !r.fading
     | _, _ => false)

/-- Frequency of sweep point `i`, in 2^-40 Hz: 10 × 4,000^(i / 47) (R411). -/
def sweepFreq (i : Nat) : Nat :=
  let ln4000 := 3 * ln10Fix + 2 * ln2Fix
  (10 * (expNeg (-(ln4000 * i / 47))) / 2 ^ 40).toNat

/-- sin and cos of a phase in 2^-64 of a turn. -/
def sinPhase (p : Nat) : Int := sinTurn p (2 ^ 64)
def cosPhase (p : Nat) : Int := cosTurn p (2 ^ 64)

/-- The test signal of a channel under test at tick `k`. -/
def testSignal (s : State) (d : Die) (c k : Nat) : Rat :=
  if (fch s d c).check.isSome then mkRat 1 100 * ofFix (sinTurn (1000 * (k % dieFs s d)) (dieFs s d))
  else
    match (dieAt s d).sweep with
    | none => 0
    | some r => dbGain (fget s d Reg.DIAG_CTRL F.DIAG_CTRL_SWEEP_LVL) * ofFix (sinPhase r.phase)

/-- The pilot's frequency, whether it runs on a channel, and its sample (R407). -/
def pilotHz (s : State) (d : Die) : Nat := if fon s d Reg.DIAG_CTRL F.DIAG_CTRL_PILOT_F then 20000 else 12
def pilotRuns (s : State) (d : Die) (c : Nat) : Bool :=
  fon s d (Reg.DIAG_CH_CTRL c) F.DIAG_CH_CTRL_PILOT_EN && !isShadow s d && (fch s d c).check.isNone &&
    (fch s d c).sweep.isNone && fon s d (Reg.PWM_CH_STAT c) F.PWM_CH_STAT_GATES_ON && pwState s d c != pwRaw
def pilotSample (s : State) (d : Die) (c k : Nat) : Rat :=
  if !pilotRuns s d c then 0
  else dbGain (fget s d Reg.DIAG_CTRL F.DIAG_CTRL_PILOT_LVL) * ofFix (sinTurn (pilotHz s d * (k % dieFs s d)) (dieFs s d))

/-- The selected sample's weight while a sweep fades the programme out or back in (R412). -/
def sweepWeight (s : State) (d : Die) (c : Nat) : Nat :=
  match (fch s d c).sweep with
  | none => 2 ^ 31
  | some w =>
    if w.status.isSome then rampWeight w.fade 256
    else
      match (dieAt s d).sweep with
      | none => 2 ^ 31
      | some r => if r.fading then fadeWeight r.ticks 256 else 0

/-- Steps a to e for a channel's selected sample at tick `k`: x4 (R380). A RAW channel passes it unchanged (R381). A sweep's
fades weight the selected sample, which is the programme's Q1.31 sample (R412, R563; log entry 147). -/
def protectSample (s : State) (d : Die) (c k : Nat) (w : Word) : State × Word :=
  if pwState s d c = pwRaw then (s, w)
  else
    let f := fOverH s d c
    let comp := fon s d Reg.PRT_DIE_CTRL F.PRT_DIE_CTRL_COMP_EN
    let vfs := inCenti s d (Reg.PRT_CH_VOUT c) F.PRT_CH_VOUT_V_FS_OUT
    let re := f32Of (reNow s d c)
    let a := q31Rat (weighted w (sweepWeight s d c)) * dbGain (fch s d c).cutC * dbGain (fch s d c).cutP
    let s := excursion s d c re (a * (if comp then vfs else vRail s d * f))
    let x1 := if underTest s d c then testSignal s d c k else a * (fch s d c).gx
    let x2 := x1 + pilotSample s d c k
    let vScale := if comp then vfs else vRailLow s d * f
    let (x3, s) :=
      if hasModel s d c && fon s d (Reg.PRT_CH_CTRL c) F.PRT_CH_CTRL_LIN_EN && vScale != 0 then
        let (x3, r, iq) := linearise s d c re vScale x2
        (x3, setFch s d c { fch s d c with ref := r, iq := iq })
      else (x2, s)
    let x3t := x3 * dbGain (-(fch s d c).trim)
    let s := supplyGain s d c x3t
    let kc : Rat := if comp then vfs / (vRailLow s d * f) else 1
    let y := x3t * kc * (fch s d c).gs
    let bound := min 1 (inCenti s d (Reg.PRT_CH_VOUT c) F.PRT_CH_VOUT_VOUT_MAX / (vRailLow s d * f))
    let s := if bound < y ∨ y < -bound then fadd s d (Reg.PRT_CH_CLIP c) F.PRT_CH_CLIP_COUNT 1 else s
    (s, toSample bound y)

/-! ## What a tick measures -/

/-- The RMS word of a sum of squares (R415), scaled so that a full-scale sine reads 1.0 (R14). -/
def rmsOf (sum n : Nat) : Nat := if n = 0 then 0 else min (2 ^ 32 - 1) (intRoot (2 * sum / n))

/-- A first-order low-pass at 0.5 Hz after one more input: the output moves by a share of the difference that lies between
those of the backward and of the forward rule, π / (Fs + π) and π / Fs (R398, R399; log entry 34). -/
def lowPass (fs : Nat) (y x : Rat) : Rat :=
  let pi : Rat := 314159265 / 100000000
  y + max (pi / (fs + pi)) (min (pi / fs) (Config.lowPassShare fs)) * (x - y)

/-! ## The Fs decimation path (R383, R384) -/

/-- A coefficient of the path at `n` bits a sample, for the bit `i` back from the newest: linear phase with a delay of 8
samples makes it symmetric about place 8n. -/
def senseCoeff (n i : Nat) : Rat := if 16 * n < i then 0 else Config.senseTap n (min i (16 * n - i))

/-- The bit `i` back from the newest of a stream's sample periods, each its number of bits and its bits, the newest first;
`q` numbers the stream. -/
def bitBack (q : Nat) : List (Nat × Nat) → Nat → Bool
  | [], i => Config.earlyBit q i
  | (n, w) :: older, i => if i < n then bitOf w (n - 1 - i) else bitBack q older (i - n)

/-- The value the path gives: a stream of steady density d gives 2d − 1. -/
def fsPath (q n : Nat) (periods : List (Nat × Nat)) : Rat :=
  let is := List.range (16 * n + 1)
  is.foldl (fun v i => if bitBack q periods i then v + senseCoeff n i else v - senseCoeff n i) 0 /
    is.foldl (fun v i => v + senseCoeff n i) 0

/-- What the Fs path gives at a tick: VS and IS of the channels and the two rails, Q1.31. -/
structure Sensed where
  vs : List Word
  is : List Word
  railP : Word
  railN : Word

/-- The Fs path of every stream at the present tick. -/
def sensed (s : State) (d : Die) : Sensed :=
  let n := 24000000 / dieFs s d
  let at' (q : Nat) (f : SenseIn → Nat) : Word := toSample 1 (fsPath q n ((dieAt s d).sense.map (fun p => (p.1, f p.2))))
  ⟨fchans.map (fun c => at' c (fun i => i.vs.getD c 0)), fchans.map (fun c => at' (32 + c) (fun i => i.is.getD c 0)),
    at' 64 SenseIn.railP, at' 65 SenseIn.railN⟩

/-- The bits sampled in the sample period that ends at a tick join the stream; 65 periods reach back 8 samples and more at
every rate. -/
def takeSense (s : State) (d : Die) (i : SenseIn) : State :=
  setDie s d { dieAt s d with sense := ((24000000 / dieFs s d, i) :: (dieAt s d).sense).take 65 }

/-- A demodulation sum after one more pair of values, at an angle of given sine and cosine (R408). -/
def demodStep (m : Demod) (vs is : Word) (sn cs : Int) : Demod :=
  ⟨m.vRe + vs.toInt * cs, m.vIm - vs.toInt * sn, m.iRe + is.toInt * cs, m.iIm - is.toInt * sn⟩

/-- Z = V × VS_FS / (I × IS_FS) of a demodulation, in ohms; none where I is 0 (R408). -/
def impedance (s : State) (d : Die) (m : Demod) : Option (Rat × Rat) :=
  let q : Int := m.iRe * m.iRe + m.iIm * m.iIm
  let isFs := fget s d Reg.PRT_SCALE F.PRT_SCALE_IS_FS
  if q = 0 ∨ isFs = 0 then none
  else
    let k : Rat := mkRat (10 * fget s d Reg.PRT_SCALE F.PRT_SCALE_VS_FS) isFs
    some (k * mkRat (m.vRe * m.iRe + m.vIm * m.iIm) q.toNat, k * mkRat (m.vIm * m.iRe - m.vRe * m.iIm) q.toNat)

/-- |Z| in Q16.16. -/
def magnitude (z : Rat × Rat) : Nat :=
  let q := (z.1 * z.1 + z.2 * z.2) * 2 ^ 32
  min (2 ^ 32 - 1) (intRoot q.floor.toNat)

/-- The current a channel's thermal model uses (R388). -/
def coilCurrent (s : State) (d : Die) (c : Nat) (is x4 : Word) : Rat :=
  if isShadow s d || fon s d (Reg.PRT_CH_STAT c) F.PRT_CH_STAT_IS_BAD then
    if hasModel s d c then metres (fch s d c).out.i
    else if reNow s d c = 0 then 0 else q31Rat x4 * vRailLow s d * fOverH s d c / reNow s d c
  else ampsOf s d is

/-- A DC detector's count of consecutive ticks at or above its threshold. -/
def dcCount (y thr : Rat) (run : Nat) : Nat := if thr ≤ max y (-y) then run + 1 else 0

/-- Whether a DC detector has stood at its threshold for its time (R398, R399). -/
def dcOutDue (s : State) (d : Die) (c : Nat) : Bool :=
  let n := (fch s d c).dcOutRun
  n != 0 && decide (msTicks s d (fget s d (Reg.PRT_CH_DC c) F.PRT_CH_DC_DC_TIME) ≤ n)
def dcStreamDue (s : State) (d : Die) (c : Nat) : Bool :=
  let n := (fch s d c).dcStrRun
  n != 0 && decide (msTicks s d (max 1 (fget s d (Reg.PRT_CH_DCS c) F.PRT_CH_DCS_DCS_TIME)) ≤ n)

/-- DC_OUT sets its latch, with the gates low in the tick (R398, R404). -/
def dcOutLatch (s : State) (d : Die) (c : Nat) : State :=
  if dcOutDue s d c then gatesOff (setLatch s d c F.PRT_CH_STAT_DC_OUT 0x3A) d c else s

/-- DC_STREAM sets its latch (R399). -/
def dcStreamLatch (s : State) (d : Die) (c : Nat) : State :=
  if dcStreamDue s d c then setLatch s d c F.PRT_CH_STAT_DC_STREAM 0x3B else s

/-- DC_OUT_DETECT and DC_STREAM_DETECT. -/
def execDcOutDetect (d : Die) (c : Fin 32) (s : State) : Out := onDie s d (fun s => dcOutLatch s d c)
def execDcStreamDetect (d : Die) (c : Fin 32) (s : State) : Out := onDie s d (fun s => dcStreamLatch s d c)

/-- The bounds of the cuts of step a over a pilot window, and whether they stay within 1 dB (R408). -/
def cutBounds (bs : List (Rat × Rat)) (cuts : List Rat) : List (Rat × Rat) :=
  if bs.isEmpty then cuts.map (fun q => (q, q)) else (bs.zip cuts).map (fun p => (min p.1.1 p.2, max p.1.2 p.2))

/-- A cut in units of 0.25 dB (R381). -/
def cutUnits (q : Rat) : Nat := min 255 (max 0 (nearest (q * 4))).toNat

/-- PRT_CHc_CUT follows the gains, and PRT_CHc_RE_NOW Re in use (R381, R387). -/
def showGains (s : State) (d : Die) (c : Nat) : State :=
  let x := fch s d c
  let s := fwr s d (Reg.PRT_CH_CUT c) (BitVec.ofNat 32 (cutUnits x.cutC + 2 ^ 8 * cutUnits x.cutP + 2 ^ 16 * cutUnits (cutOf x.gx)
    + 2 ^ 24 * cutUnits (cutOf x.gs)))
  fwr s d (Reg.PRT_CH_RE_NOW c) (BitVec.ofNat 32 (q16U (reNow s d c)))

/-- What a channel's models and detectors take from a tick: sensed values, x4 and the tick index. -/
def observe (s : State) (d : Die) (c k : Nat) (vs is x4 : Word) : State :=
  let fs := dieFs s d
  let x := fch s d c
  let raw := pwState s d c == pwRaw
  let vOut := q31Rat x4 * vRail s d * fOverH s d c
  let out := if hasModel s d c && !raw then coneStep s d c false (f32Of (reNow s d c)) (f32Of vOut) x.out else x.out
  let um := nearest (metres out.x * 1000000)
  let s := setFch s d c { x with out := out }
  let i := coilCurrent s d c is x4
  let vBad := fon s d (Reg.PRT_CH_STAT c) F.PRT_CH_STAT_VS_BAD
  let iBad := fon s d (Reg.PRT_CH_STAT c) F.PRT_CH_STAT_IS_BAD
  let on := fon s d (Reg.PWM_CH_STAT c) F.PWM_CH_STAT_GATES_ON
  let dcO := if on && !vBad then lowPass fs x.dcOut (voltsOf s d vs) else 0
  let dcS := if raw then x.dcStr else lowPass fs x.dcStr (q31Rat x4)
  let pk := pilotHz s d * (k % fs)
  let ok := pilotRuns s d c && !vBad && !iBad
  let bs := cutBounds x.cuts [x.cutC, x.cutP, cutOf x.gx]
  let check := x.check.map (fun q =>
    let sums := if fs / 200 ≤ q.ticks then
        demodStep q.sums vs is (sinTurn (1000 * (k % fs)) fs) (cosTurn (1000 * (k % fs)) fs) else q.sums
    { q with ticks := q.ticks + 1, sums := sums })
  let x := fch s d c
  let s := setFch s d c { x with
    sumI := x.sumI + i * i
    sumE := x.sumE + vOut * vOut
    sumS := x.sumS + voltsOf s d vs * voltsOf s d vs
    dcOut := dcO
    dcOutRun := if on && !vBad then
      dcCount dcO (inCenti s d (Reg.PRT_CH_DC c) F.PRT_CH_DC_DC_THR) x.dcOutRun else 0
    dcStr := dcS
    dcStrRun := if raw then x.dcStrRun else
      dcCount dcS (mkRat (fget s d (Reg.PRT_CH_DCS c) F.PRT_CH_DCS_DCS_THR) 32768) x.dcStrRun
    pilot := if ok then demodStep x.pilot vs is (sinTurn pk fs) (cosTurn pk fs) else x.pilot
    pilotOk := x.pilotOk && ok && bs.all (fun b => decide (b.2 - b.1 ≤ 1))
    cuts := bs
    check := check
    xpk := max x.xpk (min 65535 um.natAbs)
    vs2 := x.vs2 + vs.toInt.natAbs ^ 2
    is2 := x.is2 + is.toInt.natAbs ^ 2
    nRms := x.nRms + 1 }
  fputI (showGains s d c) d (Reg.PRT_CH_X c) F.PRT_CH_X_X_NOW um

/-! ## Checks, thermal model, trim and pilot -/

/-- A check ends after 10 ms and passes on |Z| at 1 kHz of at least CHECK_ZMIN (R402). -/
def endCheck (s : State) (d : Die) (c : Nat) : State :=
  match (fch s d c).check with
  | none => s
  | some q =>
    if q.ticks < dieFs s d / 100 then s
    else
      let pass := match impedance s d q.sums with
        | none => true
        | some z => decide (fget s d (Reg.PRT_CH_CHECK c) F.PRT_CH_CHECK_CHECK_ZMIN ≤ magnitude z)
      if pass then passCheck s d c else failCheck s d c

/-- CHECK_END. -/
def execCheckEnd (d : Die) (c : Fin 32) (s : State) : Out := onDie s d (fun s => endCheck s d c)

/-- An applied cut moves toward its target (R390). -/
def moveCut (rate now target : Rat) : Rat :=
  if now < target then min target (now + rate) else max target (now - rate)

/-- A fold-back target: full × clamp((t − fold) / (top − fold), 0, 1). -/
def foldTarget (full t fold top : Rat) : Rat := full * max 0 (min 1 ((t - fold) / (top - fold)))

/-- A latch that clears by itself: set at or above one temperature, cleared at or below another (R391). -/
def heatLatch (s : State) (d : Die) (c : Nat) (f : Fld) (idx : Nat) (t shut fold : Rat) : State :=
  if shut ≤ t then setLatch s d c f idx
  else if t ≤ fold then fbit s d (Reg.PRT_CH_STAT c) f false
  else s

/-- One channel's thermal update (R386 to R391). -/
def thermalChan (s : State) (d : Die) (c : Nat) : State :=
  let x := fch s d c
  let n := dieFs s d / 1000
  let p := x.sumI / n * reNow s d c
  let rc := mkRat (max 1 (fget s d (Reg.PRT_CH_RTH_C c) F.PRT_CH_RTH_C_RTH_C)) 100
  let rm := mkRat (max 1 (fget s d (Reg.PRT_CH_RTH_M c) F.PRT_CH_RTH_M_RTH_M)) 100
  let tauC := mkRat (max 1 (fget s d (Reg.PRT_CH_RTH_C c) F.PRT_CH_RTH_C_TAU_C)) 100
  let tauM := mkRat (max 1 (fget s d (Reg.PRT_CH_RTH_M c) F.PRT_CH_RTH_M_TAU_M)) 10
  let dt : Rat := mkRat 1 1000
  let tc0 := match x.meas with
    | none => x.tc
    | some m => x.tc + (m - x.tc) / 4
  let tc := tc0 + dt / tauC * (rc * p - (tc0 - x.tm))
  let tm := x.tm + dt / tauM * (rm / rc * (tc - x.tm) - (x.tm - ambient s d c))
  let s := setFch s d c { x with tc := tc, tm := tm, sumI := 0, meas := none }
  let rate := mkRat (max 1 (fget s d Reg.PRT_FOLD_RATE F.PRT_FOLD_RATE_FOLD_RATE)) 10000
  let full := if fon s d (Reg.PRT_CH_CTRL c) F.PRT_CH_CTRL_TH_EN then
      mkRat (fget s d (Reg.PRT_CH_TSHUT c) F.PRT_CH_TSHUT_MAX_CUT) 4 else 0
  let tFold := inKelvin s d (Reg.PRT_CH_TH c) F.PRT_CH_TH_T_FOLD
  let cutC := moveCut rate x.cutC (foldTarget full tc tFold (inKelvin s d (Reg.PRT_CH_TH c) F.PRT_CH_TH_T_MAX))
  let ts := tsTemp s d (c / 8)
  let psFold := inKelvin s d Reg.PRT_PS_FOLD F.PRT_PS_FOLD_PS_FOLD
  let cutP := moveCut rate x.cutP (foldTarget (mkRat (fget s d Reg.PRT_PS_SHUT F.PRT_PS_SHUT_PS_MAXCUT) 4) ts psFold
    (inKelvin s d Reg.PRT_PS_FOLD F.PRT_PS_FOLD_PS_MAX))
  let s := setFch s d c { fch s d c with cutC := cutC, cutP := cutP }
  let s := if x.cutC = 0 ∧ cutC ≠ 0 then fldRaise s d 0x30 c 0 else s
  let s := if x.cutP = 0 ∧ cutP ≠ 0 then fldRaise s d 0x32 c 0 else s
  let s := fbit s d (Reg.PRT_CH_STAT c) F.PRT_CH_STAT_FOLD (decide (cutC ≠ 0))
  let s := heatLatch s d c F.PRT_CH_STAT_THERM 0x31 tc (inKelvin s d (Reg.PRT_CH_TSHUT c) F.PRT_CH_TSHUT_T_SHUT) tFold
  let s := heatLatch s d c F.PRT_CH_STAT_PS_HOT 0x33 ts (inKelvin s d Reg.PRT_PS_SHUT F.PRT_PS_SHUT_PS_SHUT) psFold
  let s := fputI s d (Reg.PRT_CH_TEMP c) F.PRT_CH_TEMP_T_COIL (tc * 16).floor
  let s := fputI s d (Reg.PRT_CH_TEMP c) F.PRT_CH_TEMP_T_MAG (tm * 16).floor
  showGains s d c

/-- The thermal update of a die, if one is due. -/
def thermalStep (s : State) (d : Die) : State :=
  if !(dieAt s d).thermalDue then s
  else forEach fchans (setDie s d { dieAt s d with thermalDue := false }) (fun s c => thermalChan s d c)

/-- The temperature of a TS stream with a number of ones among the 24,000 bits of a millisecond (R383, R384). -/
def tsValue (s : State) (d : Die) (ones : Nat) : Rat :=
  inKelvin s d Reg.PRT_TS_SCALE F.PRT_TS_SCALE_TS_OFS +
    (mkRat (min 24000 ones) 12000 - 1) * mkRat (fget s d Reg.PRT_TS_SCALE F.PRT_TS_SCALE_TS_SPAN) 16

/-- The TS values of a millisecond: kept as they are, and read rounded toward minus infinity (R383, R384, R417). -/
def takeTs (s : State) (d : Die) (ones : List Nat) : State :=
  let s := setDie s d { dieAt s d with ts := (List.range 4).map (fun m => tsValue s d (ones.getD m 0)) }
  forEach (List.range 4) s (fun s m => fputI s d (tsFld m).1 (tsFld m).2 (tsRead s d m * 16).floor)

/-- THERMAL_MODEL_UPDATE with the ones of each TS stream in the millisecond (R384, R386, R390, R391). -/
def execThermalModelUpdate (d : Die) (ones : List Nat) (s : State) : Out :=
  onDie s d (fun s => if !(dieAt s d).thermalDue then s else thermalStep (takeTs s d ones) d)

/-- The trim of a window of 100 ms (R397). -/
def trimStep (s : State) (d : Die) : State :=
  if !(dieAt s d).trimDue then s
  else forEach fchans (setDie s d { dieAt s d with trimDue := false }) (fun s c =>
    let x := fch s d c
    let held := !fon s d Reg.PRT_DIE_CTRL F.PRT_DIE_CTRL_VTRIM_EN || x.sweep.isSome || x.check.isSome ||
      fon s d (Reg.PRT_CH_STAT c) F.PRT_CH_STAT_VS_BAD || pwState s d c == pwRaw
    let n : Rat := mkRat (dieFs s d) 10
    let t := if held || decide (x.sumE < n) || decide (x.sumS ≤ 0) then x.trim
      else max (-1) (min 1 (x.trim + 10 * log10 (x.sumE / x.sumS) / 8))
    let s := setFch s d c { x with trim := t, sumE := 0, sumS := 0 }
    fputI s d (Reg.PRT_CH_X c) F.PRT_CH_X_TRIM (nearest (t * 100)))

/-- TRIM_UPDATE. -/
def execTrimUpdate (d : Die) (s : State) : Out := onDie s d (fun s => trimStep s d)

/-- The load class of an impedance against a reference (Table 11-4), and round(N_est). -/
def loadClass (s : State) (d : Die) (c : Nat) (open' : Bool) (zmag zref : Nat) : Nat × Nat :=
  let nRef := max 1 (fget s d (Reg.DIAG_CH_CTRL c) F.DIAG_CH_CTRL_N_REF)
  let tol := mkRat (fget s d (Reg.DIAG_CH_CTRL c) F.DIAG_CH_CTRL_TOL) 100
  if zmag = 0 then (if open' then 4 else 5, 15)
  else
    let est := mkRat (nRef * zref) zmag
    let n := (nearest est).toNat
    let dev := mkRat zmag zref - 1
    let cls := if open' || decide (est < mkRat 1 2) then 4
      else if (2 * nRef + 1 : Nat) ≤ est then 5
      else if n ≠ nRef then 3
      else if max dev (-dev) ≤ tol then 1
      else 2
    (cls, min 15 n)

/-- A result toward the confirmed class (R410). -/
def confirmClass (s : State) (d : Die) (c cls n : Nat) : State :=
  let x := fch s d c
  let run := if fget s d (Reg.DIAG_CH_STAT c) F.DIAG_CH_STAT_PENDING = cls then x.clsRun + 1 else 1
  let s := setFch s d c { x with clsRun := run }
  let s := fput (fput s d (Reg.DIAG_CH_STAT c) F.DIAG_CH_STAT_PENDING cls) d (Reg.DIAG_CH_STAT c) F.DIAG_CH_STAT_N_EST n
  if run < max 1 (fget s d Reg.DIAG_CTRL F.DIAG_CTRL_CONFIRM) ∨ fget s d (Reg.DIAG_CH_STAT c) F.DIAG_CH_STAT_CLASS = cls then s
  else fldRaise (fput s d (Reg.DIAG_CH_STAT c) F.DIAG_CH_STAT_CLASS cls) d 0x3C c (cls + 16 * n)

/-- A valid pilot measurement of a channel: its registers, its class and Re tracking (R389, R408, R409). -/
def pilotResult (s : State) (d : Die) (c : Nat) (z : Rat × Rat) (amp : Rat) : State :=
  let mag := magnitude z
  let s := fwr (fwr s d (Reg.DIAG_CH_ZRE c) (BitVec.ofNat 32 (q16S z.1))) d (Reg.DIAG_CH_ZIM c) (BitVec.ofNat 32 (q16S z.2))
  let s := setFch s d c { fch s d c with zpil := some mag }
  let zref := fget s d (Reg.DIAG_CH_ZREF c) F.DIAG_CH_ZREF_ZREF
  let s := if zref = 0 then s
    else
      let r := loadClass s d c (decide (amp < inMilli s d Reg.DIAG_FLOOR F.DIAG_FLOOR_I_FLOOR)) mag zref
      confirmClass s d c r.1 r.2
  if fon s d (Reg.PRT_CH_CTRL c) F.PRT_CH_CTRL_RE_TRACK && !fon s d Reg.DIAG_CTRL F.DIAG_CTRL_PILOT_F then
    let rm := mkRat (fgetI s d (Reg.PRT_CH_RECAL c) F.PRT_CH_RECAL_RE_CAL) 16384 * z.1
    let ref := mkRat (fget s d (Reg.PRT_CH_RE c) F.PRT_CH_RE_RE_REF) 65536
    let al : Rat := if fon s d (Reg.PRT_CH_CTRL c) F.PRT_CH_CTRL_AL then mkRat 403 100000 else mkRat 393 100000
    if rm < ref / 2 ∨ 3 * ref < rm then fldRaise s d 0x3F c 0
    else setFch s d c { fch s d c with
      meas := some (inKelvin s d (Reg.PRT_CH_RECAL c) F.PRT_CH_RECAL_T_REF + (rm / ref - 1) / al) }
  else s

/-- The end of a pilot window (R408): the sums start again. A valid window without current gives no impedance: Z is
then a free value (log entry 35). -/
def pilotStep (s : State) (d : Die) : State :=
  if !(dieAt s d).pilotDue then s
  else forEach fchans (setDie s d { dieAt s d with pilotDue := false }) (fun s c =>
    let x := fch s d c
    let fs := dieFs s d
    let i2 := intRoot ((x.pilot.iRe * x.pilot.iRe + x.pilot.iIm * x.pilot.iIm).toNat)
    let amp := mkRat (2 * i2) (fs * 2 ^ 111) * inMilli s d Reg.PRT_SCALE F.PRT_SCALE_IS_FS
    let s := setFch s d c { x with pilot := demodZero, pilotOk := true, cuts := [] }
    let s := fbit s d (Reg.DIAG_CH_STAT c) F.DIAG_CH_STAT_VALID x.pilotOk
    if !x.pilotOk then s
    else
      match impedance s d x.pilot with
      | some z => pilotResult s d c z amp
      | none =>
        let (a, s) := takeFreeInt s
        let (b, s) := takeFreeInt s
        pilotResult s d c (mkRat a 65536, mkRat b 65536) amp)

/-- PILOT_WINDOW_END. -/
def execPilotWindowEnd (d : Die) (s : State) : Out := onDie s d (fun s => pilotStep s d)

/-- ZREF_CAPTURE (R414). -/
def execZrefCapture (d : Die) (m : CmdCopy) (s : State) : Out :=
  let ws := m.words
  onCmd s d 0x203 m (fun s =>
    let cs := maskChans (msgW ws 0)
    if cs.isEmpty then (s, akBadArgument)
    else
      (forEach cs s (fun s c =>
        match (fch s d c).zpil with
        | none => s
        | some z => fwr s d (Reg.DIAG_CH_ZREF c) (BitVec.ofNat 32 z)),
        if cs.all (fun c => (fch s d c).zpil.isSome) then akAccepted else akState))

/-! ## Sense bitstreams (R385) -/

/-- A bitstream is bad: it is reported and replaced; a bad IS latches SENSE. -/
def execSenseStreamBad (d : Die) (st : SenseStream) (s : State) : Out :=
  onDie s d (fun s =>
    match st with
    | .vs c => if fon s d (Reg.PRT_CH_STAT c) F.PRT_CH_STAT_VS_BAD then s
      else fldRaise (fbit s d (Reg.PRT_CH_STAT c) F.PRT_CH_STAT_VS_BAD true) d 0x3E c 0
    | .is c => if fon s d (Reg.PRT_CH_STAT c) F.PRT_CH_STAT_IS_BAD then s
      else
        let s := fbit s d (Reg.PRT_CH_STAT c) F.PRT_CH_STAT_IS_BAD true
        setLatch s d c F.PRT_CH_STAT_SENSE 0x3E
    | .railP =>
      fldRaise (fbit (fbit s d Reg.PRT_SENSE_BAD F.PRT_SENSE_BAD_RAILP true) d Reg.PRT_RAIL_STAT F.PRT_RAIL_STAT_RAIL_BAD true)
        d 0x3E 0xFF 0
    | .railN =>
      fldRaise (fbit (fbit s d Reg.PRT_SENSE_BAD F.PRT_SENSE_BAD_RAILN true) d Reg.PRT_RAIL_STAT F.PRT_RAIL_STAT_RAIL_BAD true)
        d 0x3E 0xFF 0
    | .ts m => fldRaise (fbit s d Reg.PRT_SENSE_BAD ⟨m, 1⟩ true) d 0x3E 0xFF 0)

/-- A bitstream is good again; the SENSE latch clears by itself. -/
def execSenseStreamGood (d : Die) (st : SenseStream) (s : State) : Out :=
  onDie s d (fun s =>
    match st with
    | .vs c => fbit s d (Reg.PRT_CH_STAT c) F.PRT_CH_STAT_VS_BAD false
    | .is c => fbit (fbit s d (Reg.PRT_CH_STAT c) F.PRT_CH_STAT_IS_BAD false) d (Reg.PRT_CH_STAT c) F.PRT_CH_STAT_SENSE false
    | .railP =>
      fbit (fbit s d Reg.PRT_SENSE_BAD F.PRT_SENSE_BAD_RAILP false) d Reg.PRT_RAIL_STAT F.PRT_RAIL_STAT_RAIL_BAD
        (fon s d Reg.PRT_SENSE_BAD F.PRT_SENSE_BAD_RAILN)
    | .railN =>
      fbit (fbit s d Reg.PRT_SENSE_BAD F.PRT_SENSE_BAD_RAILN false) d Reg.PRT_RAIL_STAT F.PRT_RAIL_STAT_RAIL_BAD
        (fon s d Reg.PRT_SENSE_BAD F.PRT_SENSE_BAD_RAILP)
    | .ts m => fbit s d Reg.PRT_SENSE_BAD ⟨m, 1⟩ false)

end Sys2Proof.Machine
end

