-- ==== Sys2Proof/Machine/FieldTick.lean ====
section
/-! DEFINITION. A field die's sample tick: the choice of each channel's input, the loss sequence, digests, sweeps and
snapshots; and the twin link (R333, R335, R336, R340, R341, R345 to R353, R411 to R413, R415). -/

namespace Sys2Proof.Machine
open Sys2Proof

/-! ## The choice of the input (R340, R350, R351) -/

/-- A held message's sample of a channel at tick `k`, if VALID; and whether it came by a direct route. -/
def heldSample (ms : List SampleMsg) (k c : Nat) : Option (Word × Bool) :=
  match ms.find? (fun m => m.k == k % 2 ^ 48 && m.half == c / 16) with
  | none => none
  | some m => if bitOf m.valid (c % 16) then some (BitVec.ofNat 32 (m.words.getD (c % 16) 0), bitOf m.route (c % 16)) else none

/-- The own sample and the usable twin copy of a channel (R350). -/
def ownSample (s : State) (d : Die) (c k : Nat) : Option Word := (heldSample (dieAt s d).own k c).map Prod.fst
def twinSample (s : State) (d : Die) (c k : Nat) : Option Word :=
  if twinEn s d && !isShadow s d && twinUp s d && !fon s d Reg.FLD_TWIN_STAT F.FLD_TWIN_STAT_CONFLICT &&
      (fon s d Reg.FLD_MATCHED ⟨c, 1⟩ || !fon s d Reg.FLD_TWIN_CTRL F.FLD_TWIN_CTRL_REQ_MATCH) then
    (heldSample (dieAt s d).twin k c).map Prod.fst
  else none

/-- Whether a channel on the twin copy goes back to its own stream at this tick (R351). -/
def reverts (s : State) (d : Die) (c k : Nat) : Bool :=
  let n := fget s d Reg.FLD_TWIN_CTRL F.FLD_TWIN_CTRL_REVERT_BLOCKS
  k % dieBlk s d == 0 && n != 0 && decide (n ≤ (fch s d c).run)

/-- The sample a channel plays at tick `k`, and whether it is the twin copy. -/
def chooseSample (s : State) (d : Die) (c k : Nat) : Option (Word × Bool) :=
  let own := (ownSample s d c k).map (fun w => (w, false))
  let twin := (twinSample s d c k).map (fun w => (w, true))
  if fcState s d c = fcTwin ∧ !reverts s d c k then twin.orElse (fun _ => own) else own.orElse (fun _ => twin)

/-- A channel comes to play its own stream or the twin copy. -/
def enterPlay (s : State) (d : Die) (c : Nat) (twin : Bool) : State :=
  let was := fcState s d c
  let s := setFcState s d c (if twin then fcTwin else fcOwn)
  if twin ∧ was ≠ fcTwin then
    let s := setFch s d c { fch s d c with run := 0 }
    fldRaise (fadd s d Reg.FLD_CNT_SWITCH F.FLD_CNT_SWITCH_COUNT 1) d 0x0A c 0
  else if !twin ∧ was = fcTwin then fldRaise s d 0x0B c 0
  else s

/-! ## The loss sequence (Table 09-5, R341) -/

/-- The step of a channel whose ramp starts at its next tick. -/
def rampStart : Nat := 258

/-- The loss sequence acts on a channel unless it is RAW (R374). -/
def lossActs (s : State) (d : Die) (c : Nat) : Bool := pwState s d c != pwRaw

/-- HOLD ends after BLK ticks: the fade starts at the next one (its step is stored before it is applied). -/
def lossHoldEnd (s : State) (d : Die) (c : Nat) : State :=
  if lossActs s d c ∧ fcState s d c = fcHold ∧ dieBlk s d ≤ (fch s d c).held then
    setFch (setFcState s d c fcFade) d c { fch s d c with pos := 257 }
  else s

/-- The fade has played its last weight above zero: IDLE. -/
def lossFadeEnd (s : State) (d : Die) (c : Nat) : State :=
  if lossActs s d c ∧ fcState s d c = fcFade ∧ (fch s d c).pos ≤ 1 then
    setFch (setFcState s d c fcIdle) d c { fch s d c with idle := 0 }
  else s

/-- HOLD_IDLE in ticks; zero in holdover (R338). -/
def idleTicks (s : State) (d : Die) : Nat :=
  if fget s d Reg.FLD_STAT F.FLD_STAT_PLL_REF = 2 then 0
  else fget s d Reg.FLD_LOSS F.FLD_LOSS_HOLD_IDLE * dieFs s d / 1000

/-- HOLD_IDLE has passed: LOSS_SAFE. -/
def lossIdleEnd (s : State) (d : Die) (c : Nat) : State :=
  if lossActs s d c ∧ fcState s d c = fcIdle ∧ idleTicks s d ≤ (fch s d c).idle then enterLossSafe s d c else s

/-- A LOSS_SAFE or OFF channel re-arms after BLK consecutive usable ticks, by itself or after a RELEASE (R341); `k` is
the tick whose samples it plays or has played last. -/
def lossRearm (s : State) (d : Die) (c k : Nat) : State :=
  let x := fch s d c
  if lossActs s d c ∧ (fcState s d c = fcLossSafe ∨ fcState s d c = fcOff) ∧ dieBlk s d ≤ x.good ∧
      (fon s d Reg.FLD_LOSS F.FLD_LOSS_AUTO_REARM ∨ x.armed) ∧ !eventSafe s d then
    let s := setFch s d c { x with pos := rampStart, armed := false, good := 0 }
    enterPlay s d c ((ownSample s d c k).isNone && (twinSample s d c k).isSome)
  else s

/-- The transitions of the table as events. -/
def execLossHoldEnd (d : Die) (c : Fin 32) (s : State) : Out := onDie s d (fun s => lossHoldEnd s d c)
def execLossFadeEnd (d : Die) (c : Fin 32) (s : State) : Out := onDie s d (fun s => lossFadeEnd s d c)
def execLossIdleEnd (d : Die) (c : Fin 32) (s : State) : Out := onDie s d (fun s => lossIdleEnd s d c)
def execLossRearm (d : Die) (c : Fin 32) (s : State) : Out := onDie s d (fun s => lossRearm s d c (dieIndex s d))

/-- Those that are due at tick `k` and were not given as events; a fade ends where no usable sample reverses it. -/
def lossDue (s : State) (d : Die) (c k : Nat) : State :=
  let s := lossHoldEnd s d c
  let s := if (chooseSample s d c k).isNone then lossFadeEnd s d c else s
  lossRearm (lossIdleEnd s d c) d c k

/-- A usable sample at a tick (R341). -/
def playUsable (s : State) (d : Die) (c : Nat) (w : Word) (twin : Bool) : State × Option Word :=
  let st := fcState s d c
  let x : FieldChan := { fch s d c with hold := w }
  if st = fcOff ∨ st = fcLossSafe then (setFch s d c { x with good := x.good + 1 }, none)
  else if st = fcHold then (enterPlay (setFch s d c { x with pos := 256 }) d c twin, some w)
  else if st = fcIdle then (enterPlay (setFch s d c { x with pos := 0 }) d c twin, some (weighted w (rampWeight 0 256)))
  else
    let p : Nat := if x.pos = rampStart then 0 else min 256 (x.pos + 1)
    let s := setFch s d c { x with pos := p }
    let s := if st = fcFade ∧ p < 256 then s else enterPlay s d c twin
    (s, some (weighted w (rampWeight p 256)))

/-- No usable sample at a tick, which the channel counts (R340, R341). -/
def playMissing (s : State) (d : Die) (c : Nat) : State × Option Word :=
  let st := fcState s d c
  let x : FieldChan := { fch s d c with missing := (fch s d c).missing + 1 }
  if st = fcOff ∨ st = fcLossSafe then (setFch s d c { x with good := 0 }, none)
  else if st = fcHold then (setFch s d c { x with held := x.held + 1 }, some x.hold)
  else if st = fcIdle then (setFch s d c { x with idle := x.idle + 1 }, some 0)
  else if st ≠ fcFade ∧ x.pos = 256 then
    (fldRaise (setFch (setFcState s d c fcHold) d c { x with held := 1 }) d 0x00 c 0, some x.hold)
  else if x.pos ≤ 1 ∨ x.pos = rampStart then
    (setFch (setFcState s d c fcIdle) d c { x with pos := 0, idle := 1 }, some 0)
  else
    let p := x.pos - 1
    (setFch (setFcState s d c fcFade) d c { x with pos := p }, some (weighted x.hold (rampWeight p 256)))

/-- The stream stage of a channel at tick `k`; on a RAW channel the loss sequence does not act, and its values are computed
from the samples that come (R358, R374). -/
def playChan (s : State) (d : Die) (c k : Nat) : State × Option Word :=
  if !lossActs s d c then (s, (chooseSample s d c k).map (fun p => p.1))
  else match chooseSample s d c k with
  | some (w, twin) => playUsable s d c w twin
  | none => playMissing s d c

/-! ## Digests (R348, R349) -/

/-- A channel's digest takes the sample of tick `k`. -/
def digestChan (s : State) (d : Die) (c k : Nat) : State :=
  let x := fch s d c
  let x := if k % dieBlk s d = 0 then
      { x with crc := crc32cFrom (k / dieBlk s d % 2 ^ 32) [BitVec.ofNat 8 c], comp := true } else x
  let x := match heldSample (dieAt s d).own k c with
    | none => { x with crc := crc32cFrom x.crc (toBytes 4 0), comp := false }
    | some (w, route) => { x with crc := crc32cFrom x.crc (toBytes 4 w.toNat), comp := x.comp && !route }
  setFch s d c x

/-- Compare one half of a block, once both digests are here. -/
def compareDigests (s : State) (d : Die) (n half : Nat) : State :=
  let pick (l : List DigestMsg) : Option DigestMsg := l.find? (fun m => m.n == n && m.half == half)
  match pick (dieAt s d).ownDig, pick (dieAt s d).peerDig with
  | some a, some b =>
    if a.epoch ≠ b.epoch then s
    else forEach ((List.range 16).filter (fun i => bitOf a.comp i && bitOf b.comp i)) s (fun s i =>
      let c := 16 * half + i
      let same := a.digs.getD i 0 == b.digs.getD i 0
      let s := fbit (fbit s d Reg.FLD_MATCHED ⟨c, 1⟩ same) d Reg.FLD_DIV ⟨c, 1⟩ (!same)
      let s := setFch s d c { fch s d c with run := if same then (fch s d c).run + 1 else 0 }
      if same then s else fldRaise (fadd s d Reg.FLD_CNT_DIV F.FLD_CNT_DIV_COUNT 1) d 0x09 c 0)
  | _, _ => s

/-- The epoch of a block, from its HEARTBEAT. -/
def epochOf (s : State) (d : Die) (n : Nat) : Nat :=
  match (dieAt s d).beats.find? (fun b => b.1 == n) with
  | some b => b.2
  | none => (frd s d Reg.FLD_EPOCH).toNat

/-- The payload of TWIN_DIGEST (Table 09-7). -/
def digestWords (m : DigestMsg) : List Nat :=
  m.n :: (m.epoch + 2 ^ 32 * m.comp) :: (List.range 8).map (fun i => m.digs.getD (2 * i) 0 + 2 ^ 32 * m.digs.getD (2 * i + 1) 0)

/-- After the last tick of block `n`: both halves are kept and sent; digests of earlier blocks stay uncompared. -/
def digestBlock (s : State) (d : Die) (n : Nat) : State :=
  if !twinEn s d then s
  else
    let half (h : Nat) : DigestMsg :=
      let cs := (List.range 16).map (fun i => fch s d (16 * h + i))
      ⟨n, h, epochOf s d n, (cs.foldl (fun (acc : Nat × Nat) x => (acc.1 + 2 ^ acc.2 * b2n x.comp, acc.2 + 1)) (0, 0)).1,
        cs.map (fun x => x.crc ^^^ 0xFFFFFFFF)⟩
    let x := dieAt s d
    let s := setDie s d { x with ownDig := [half 0, half 1], peerDig := x.peerDig.filter (fun m => decide (n ≤ m.n)) }
    forEach [0, 1] s (fun s h =>
      compareDigests (twinSend s d btTwinDigest 0 h (digestWords (half h))) d n h)

/-! ## STATUS, SENSE and snapshots (R335, R336, R415) -/

/-- Die-status STATUS (R336), with the tallies it reports as discarded (R263, R566). -/
def statusSend (s : State) (d : Die) : State :=
  let x := dieAt s d
  let st := frd s d Reg.FLD_STAT
  let w1 := fldGet F.FLD_STAT_STATE st + 8 * fldGet F.FLD_STAT_SEALED st + 16 * fldGet F.FLD_STAT_LANES st
    + 2 ^ 8 * fldGet F.FLD_STAT_PLL_REF st + 2 ^ 10 * fldGet F.FLD_STAT_HOST_LOST st
    + 2 ^ 11 * fget s d Reg.FLD_TWIN_STAT F.FLD_TWIN_STAT_TWIN_UP + 2 ^ 12 * fget s d Reg.FLD_TWIN_STAT F.FLD_TWIN_STAT_P_SAFE
    + 2 ^ 16 * ((frd s d Reg.FLD_CNT_DISCARD).toNat % 2 ^ 16) + 2 ^ 32 * (frd s d Reg.FLD_USING_TWIN).toNat
  let n := match x.beats with | [] => 0 | b :: _ => b.1
  let s := forEach x.discards (setDie s d { x with discards := [] }) (fun s id => sendOut s (.discardReport d id))
  upSend s d btStatus 0 0 [n, w1, (frd s d Reg.FLD_DIV).toNat + 2 ^ 32 * (frd s d Reg.FLD_EPOCH).toNat]

/-- The four SENSE messages of a tick, while an upstream lane is locked (R337); their index counts in the block that
captures them, the one after the played bead's (Table 01-5; log entry 46). -/
def senseSend (s : State) (d : Die) (k : Nat) (i : Sensed) : State :=
  let st := Reg.BAR_STAT (dieNum d)
  if !ron s st F.BAR_STAT_UL0 && !ron s st F.BAR_STAT_UL1 then s
  else forEach [0, 1, 2, 3] s (fun s q =>
    upSend s d btSense 0 q (((k + dieBlk s d) % 2 ^ 48) :: (List.range 8).map (fun j =>
      (i.vs.getD (8 * q + j) 0).toNat + 2 ^ 32 * (i.is.getD (8 * q + j) 0).toNat)))

/-- A channel's snapshot record (Table 11-6). -/
def fieldRecord (s : State) (d : Die) (c : Nat) : List Byte :=
  let x := fch s d c
  let t (q : Rat) : List Byte := toBytes 2 (wrapTo 16 (satInt 16 (q * 16).floor))
  t x.tc ++ t x.tm ++ toBytes 4 (q16U (reNow s d c)) ++ toBytes 2 x.xpk
    ++ [x.cutC, x.cutP, cutOf x.gx, cutOf x.gs].map (fun q => BitVec.ofNat 8 (cutUnits q))
    ++ toBytes 2 (frd s d (Reg.PRT_CH_STAT c)).toNat ++ toBytes 4 (x.zpil.getD 0)
    ++ toBytes 4 (rmsOf x.vs2 x.nRms) ++ toBytes 4 (rmsOf x.is2 x.nRms) ++ toBytes 2 x.limCnt
    ++ toBytes 1 (fget s d (Reg.DIAG_CH_STAT c) F.DIAG_CH_STAT_CLASS + 16 * fget s d (Reg.DIAG_CH_STAT c) F.DIAG_CH_STAT_N_EST)
    ++ toBytes 1 (fget s d (Reg.PRT_CH_STAT c) F.PRT_CH_STAT_RETRIES)

/-- A carry's section is latched and returned in 16 parts; what counts from the previous carry starts again. -/
def latchSection (s : State) (d : Die) (kc : Nat) : State :=
  let sec := (fchans.map (fieldRecord s d)).flatten
  let s := forEach (List.range 16) s (fun s p =>
    upSend s d btStatus (0x100 + p) 0 (kc :: (List.range 8).map (fun j => leAt sec (64 * p + 8 * j) 8)))
  forEach fchans s (fun s c => setFch s d c { fch s d c with xpk := 0, vs2 := 0, is2 := 0, nRms := 0, limCnt := 0 })

/-- The carries whose sample index tick `k` has reached (R336). -/
def latchCarries (s : State) (d : Die) (k : Nat) : State :=
  let due := (dieAt s d).carries.filter (fun kc => !fromSample kc (k + 1))
  let s := setDie s d { dieAt s d with
    carries := (dieAt s d).carries.filter (fun kc => fromSample kc (k + 1)), latched := (due ++ (dieAt s d).latched).take 16 }
  forEach due s (fun s kc => latchSection s d kc)

/-! ## Sweeps (R411 to R413) -/

/-- Whether a sweep point is skipped: above 0.45 Fs. -/
def pointSkipped (s : State) (d : Die) (i : Nat) : Bool := decide (45 * dieFs s d * 2 ^ 40 < 100 * sweepFreq i)

/-- Ticks of settling, and ticks of a point's measurement: whole periods of the larger of 10 periods and 20 ms. -/
def settleTicks (s : State) (d : Die) : Nat := dieFs s d / 100
def pointTicks (s : State) (d : Die) (i : Nat) : Nat :=
  let f := sweepFreq i
  let p := max 10 ((f * 20 + 1000 * 2 ^ 40 - 1) / (1000 * 2 ^ 40))
  (p * dieFs s d * 2 ^ 40 + f - 1) / f

/-- The words of points 12(p − 1) to 12(p − 1) + 11 of a swept channel. -/
def pointWords (w : SweepChan) (p : Nat) : List Nat :=
  (List.range 12).map (fun j =>
    match (w.points.getD (12 * (p - 1) + j) none) with
    | none => 0x80000000 + 2 ^ 32 * 0x80000000
    | some (re, im, _) => wrapTo 32 re + 2 ^ 32 * wrapTo 32 im)

/-- |Z| of a point, in Q16.16. -/
def pointMag (p : Int × Int × Bool) : Nat := min (2 ^ 32 - 1) (intRoot (p.1 * p.1 + p.2.1 * p.2.1).toNat)

/-- Send a channel's five results and raise FLD index 0x3D (R412, R413). -/
def tellSweep (s : State) (d : Die) (c run start : Nat) : State :=
  let x := fch s d c
  match x.sweep with
  | none => s
  | some w =>
    match w.status with
    | none => s
    | some st =>
      if w.told then s
      else
        let i := min 47 (fget s d (Reg.DIAG_CH_CTRL c) F.DIAG_CH_CTRL_REF_POINT)
        let zs := fget s d (Reg.DIAG_CH_ZSREF c) F.DIAG_CH_ZSREF_ZSREF
        let ref := w.points.getD i none
        let mag := match ref with | none => 0 | some p => pointMag p
        let cls := match ref with
          | none => (0, 0)
          | some p => if zs = 0 then (0, 0) else loadClass s d c p.2.2 mag zs
        let valid := (w.points.filter Option.isSome).length
        let w0 := st + 2 ^ 8 * cls.1 + 2 ^ 12 * cls.2 + 2 ^ 16 * valid + 2 ^ 32 * mag
        let s := setFch s d c { x with sweep := some { w with told := true, fade := 0 } }
        let s := upSend s d btDiag run (8 * c) [w0, start % 2 ^ 48]
        let s := forEach [1, 2, 3, 4] s (fun s p => upSend s d btDiag run (8 * c + p) (pointWords w p))
        fldRaise s d 0x3D c st

/-- Channels whose sweep has ended send their results; with none left the sweep is over. -/
def tellSweeps (s : State) (d : Die) : State :=
  match (dieAt s d).sweep with
  | none => s
  | some r =>
    let s := forEach fchans s (fun s c => tellSweep s d c r.run r.start)
    if fchans.any (fun c => match (fch s d c).sweep with | none => false | some w => w.status.isNone) then s
    else fbit (setDie s d { dieAt s d with sweep := none }) d Reg.DIAG_STAT F.DIAG_STAT_SWEEP_BUSY false

/-- End the sweep of every channel that still runs, with a status. -/
def endSweeps (s : State) (d : Die) (st : Nat) : State :=
  tellSweeps (forEach fchans s (fun s c => stopSweepChan s d c st)) d

/-- A sweep point has been measured: its result, and the next point that is not skipped or the end. -/
def sweepPointEnd (s : State) (d : Die) : State :=
  match (dieAt s d).sweep with
  | none => s
  | some r =>
    if !r.due then s
    else
      let n := pointTicks s d r.point
      let floor := inMilli s d Reg.DIAG_FLOOR F.DIAG_FLOOR_I_FLOOR
      let isFs := inMilli s d Reg.PRT_SCALE F.PRT_SCALE_IS_FS
      let s := forEach fchans s (fun s c =>
        let x := fch s d c
        match x.sweep with
        | none => s
        | some w =>
          if w.status.isSome then s
          else
            let m := w.sums
            let amp := mkRat (2 * intRoot ((m.iRe * m.iRe + m.iIm * m.iIm).toNat)) (n * 2 ^ 111) * isFs
            let p := (impedance s d m).map (fun z => (satInt 32 (q16 z.1), satInt 32 (q16 z.2), decide (amp < floor)))
            setFch s d c { x with sweep := some { w with points := w.points ++ [p], sums := demodZero } })
      let next := ((List.range 48).drop (r.point + 1)).find? (fun i => !pointSkipped s d i)
      match next with
      | none => endSweeps (setDie s d { dieAt s d with sweep := some { r with due := false } }) d 0
      | some i =>
        let s := setDie s d { dieAt s d with sweep := some { r with point := i, ticks := 0, due := false } }
        fput s d Reg.DIAG_STAT F.DIAG_STAT_POINT i

/-- SWEEP_POINT_END. -/
def execSweepPointEnd (d : Die) (s : State) : Out := onDie s d (fun s => sweepPointEnd s d)

/-- A tick of the sweep, after the channels' samples of tick `k`. -/
def sweepTick (s : State) (d : Die) (k : Nat) (i : Sensed) : State :=
  let s := forEach fchans s (fun s c =>
    let x := fch s d c
    match x.sweep with
    | none => s
    | some w =>
      if w.status.isSome then
        setFch s d c { x with sweep := if 256 ≤ w.fade then none else some { w with fade := w.fade + 1 } }
      else
        match (dieAt s d).sweep with
        | none => s
        | some r =>
          if r.fading || decide (r.ticks < settleTicks s d) then s
          else setFch s d c { x with sweep := some { w with
            sums := demodStep w.sums (i.vs.getD c 0) (i.is.getD c 0) (sinPhase r.phase) (cosPhase r.phase) } })
  match (dieAt s d).sweep with
  | none => s
  | some r =>
    let r' : DieSweep :=
      if r.fading then
        if r.ticks + 1 < 256 then { r with ticks := r.ticks + 1 } else { r with ticks := 0, fading := false, start := k + 1 }
      else
        { r with ticks := r.ticks + 1,
                 phase := (r.phase + sweepFreq r.point * 2 ^ 24 / dieFs s d) % 2 ^ 64,
                 due := decide (settleTicks s d + pointTicks s d r.point ≤ r.ticks + 1) }
    setDie s d { dieAt s d with sweep := some r' }

/-- DIAG_SWEEP (R412). -/
def execDiagSweep (d : Die) (m : CmdCopy) (s : State) : Out :=
  let ws := m.words
  onCmd s d 0x200 m (fun s =>
    let cs := maskChans (msgW ws 0)
    let run := bitsOf (msgW ws 0) 32 16
    let fit (c : Nat) : Bool := fon s d (Reg.PWM_CH_STAT c) F.PWM_CH_STAT_GATES_ON &&
      (fcState s d c == fcOwn || fcState s d c == fcTwin)
    if cs.isEmpty then (s, akBadArgument)
    else if (dieAt s d).sweep.isSome || !cs.all fit || fon s d Reg.FLD_TWIN_CTRL F.FLD_TWIN_CTRL_ROLE then (s, akState)
    else
      let s := setDie s d { dieAt s d with sweep := some ⟨run, 0, 0, true, 0, 0, false⟩ }
      let s := forEach cs s (fun s c => setFch s d c { fch s d c with sweep := some ⟨0, [], demodZero, none, false⟩ })
      let s := fput (fbit s d Reg.DIAG_STAT F.DIAG_STAT_SWEEP_BUSY true) d Reg.DIAG_STAT F.DIAG_STAT_POINT 0
      (fput s d Reg.DIAG_STAT F.DIAG_STAT_RUN run, akAccepted))

/-- DIAG_ABORT (R412). -/
def execDiagAbort (d : Die) (m : CmdCopy) (s : State) : Out := onCmd s d 0x201 m (fun s => (endSweeps s d 1, akAccepted))

/-! ## The tick (R333) -/

/-- One channel at tick `k`. -/
def tickChan (s : State) (d : Die) (i : Sensed) (k c : Nat) : State :=
  let s := endCheck (checkDue (dcStreamLatch (dcOutLatch (lossDue s d c k) d c) d c) d c) d c
  let (s, sel) := playChan s d c k
  let (s, x4) := protectSample s d c k (sel.getD 0)
  let x := fch s d c
  let y := if x.start < 256 then weighted x4 (rampWeight x.start 256) else x4
  let s := setFch s d c { x with start := min 256 (x.start + 1) }
  let s := match sel with
    | none => setFch s d c { fch s d c with usPrev := (fch s d c).us, us := [] }
    | some _ => requantSample s d c y
  digestChan (observe s d c k (i.vs.getD c 0) (i.is.getD c 0) x4) d c k

/-- The first tick of a block: heartbeats are counted, the epoch follows, and STATUS goes up (R333, R336). -/
def blockTick (s : State) (d : Die) (k : Nat) : State :=
  let x := dieAt s d
  let s := setDie s d { x with beatNew := false, missed := if x.beatNew then 0 else x.missed + 1 }
  statusSend (fwr s d Reg.FLD_EPOCH (BitVec.ofNat 32 (epochOf s d (k / dieBlk s d)))) d

/-- What events at the last tick were not given is done now. -/
def tickDue (s : State) (d : Die) : State :=
  hostLost (tellSweeps (sweepPointEnd (pilotStep (trimStep (thermalStep s d) d) d) d) d) d

/-- The tick of sample `k` (R333). -/
def fieldTick (s : State) (d : Die) (k : Nat) (bits : SenseIn) : State :=
  let s := takeSense (tickDue s d) d bits
  let i := sensed s d
  let x := dieAt s d
  let s := setDie s d { x with tick := some (k + 1), own := x.own.filter (fun m => fromSample m.k k),
                               twin := x.twin.filter (fun m => fromSample m.k k)
                               j := if x.jOn then (x.j + periodsPerSample s d) % 16 else x.j }
  let s := setPeriod s d 0
  let first := k % dieBlk s d == 0
  let s := applyStaged (if first then blockTick s d k else s) d k
  let s := senseSend (railStep s d i.railP i.railN) d k i
  let s := fchans.foldl (fun s c => tickChan s d i k c) s
  let s := latchCarries (sweepTick s d k i) d k
  let s := if (k + 1) % dieBlk s d = 0 then digestBlock s d (k / dieBlk s d) else s
  let fs := dieFs s d
  let x := dieAt s d
  setDie s d { x with
    ticks := x.ticks + 1
    oldModel := []
    thermalDue := k % (fs / 1000) == 0
    trimDue := (k + 1) % (fs / 10) == 0
    pilotDue := (k + 1) % fs == 0 }

/-- FIELD_TICK with the bits the sense inputs gave since the last one; there is no tick before the first HEARTBEAT, nor while
PWM_CLK is lost. -/
def execFieldTick (d : Die) (sense : SenseIn) (s : State) : Out :=
  onDie s d (fun s =>
    match (dieAt s d).tick with
    | none => s
    | some k => if (dieAt s d).clkBad then s else fieldTick s d k sense)

/-! ## The twin link (R346 to R353) -/

/-- TWIN_SAMPLES: the twin copy, where this die drives (R350, R352). -/
def execTwinSamples (d : Die) (ws : List Nat) (s : State) : Out :=
  onTwin s d ws btTwinSamples (fun s => if twinEn s d && !isShadow s d then takeSamples s d true ws else s)

/-- TWIN_DIGEST: the partner's digests (R349). -/
def execTwinDigest (d : Die) (ws : List Nat) (s : State) : Out :=
  onTwin s d ws btTwinDigest (fun s =>
    let m : DigestMsg := ⟨msgW ws 0, msgArgB ws % 2, bitsOf (msgW ws 1) 0 32, bitsOf (msgW ws 1) 32 16,
      (List.range 16).map (fun i => bitsOf (msgW ws (2 + i / 2)) (32 * (i % 2)) 32)⟩
    let x := dieAt s d
    let s := setDie s d { x with peerDig := m :: x.peerDig.filter (fun y => !(y.n == m.n && y.half == m.half)) }
    if twinEn s d then compareDigests s d m.n m.half else s)

/-- TWIN_STATUS: the partner's role, SAFE and EN; the link is UP from it on (R346, R353). -/
def execTwinStatus (d : Die) (ws : List Nat) (s : State) : Out :=
  onTwin s d ws btTwinStatus (fun s =>
    let a := msgArgA ws
    let was := fon s d Reg.FLD_TWIN_STAT F.FLD_TWIN_STAT_P_SAFE
    let s := fbit s d Reg.FLD_TWIN_STAT F.FLD_TWIN_STAT_TWIN_UP true
    let s := fbit (fbit s d Reg.FLD_TWIN_STAT F.FLD_TWIN_STAT_P_ROLE (bitOf a 0)) d Reg.FLD_TWIN_STAT F.FLD_TWIN_STAT_P_SAFE (bitOf a 1)
    let s := fbit s d Reg.FLD_TWIN_STAT F.FLD_TWIN_STAT_P_EN (bitOf a 2)
    let s := if bitOf a 1 && !was then fldRaise s d 0x0C 0xFF 0 else s
    conflictCheck s d)

/-- TWIN_STATUS_SEND: every 5 µs (R346). -/
def execTwinStatusSend (d : Die) (s : State) : Out := onDie s d (fun s => twinStatusSend s d)

/-- TWIN_LINK_TIMEOUT: 12 µs without a valid twin message (R346, R353). -/
def execTwinLinkTimeout (d : Die) (s : State) : Out :=
  onDie s d (fun s =>
    if !twinUp s d then s
    else
      let s := fbit s d Reg.FLD_TWIN_STAT F.FLD_TWIN_STAT_TWIN_UP false
      conflictCheck (fldRaise (fldRaise s d 0x08 0xFF 0) d 0x0C 0xFF 0) d)

end Sys2Proof.Machine
end

