-- ==== Sys2Proof/Machine/Resets.lean ====
section
/-! DEFINITION. Power, the resets and the PCIe link (R22, R23, R71, R261, R419, R446, R450, R451, R478, R484, R491,
R548). -/

namespace Sys2Proof.Machine
open Sys2Proof

/-! ## What a PCIe reset takes (R446, R447, R451) -/

/-- Whether the first frame of a NET_TX still waits at a port: the descriptor has not started. -/
def notStarted (p : NetPort) (d : DescRef) : Bool :=
  p.queues.any (fun e => e.2.any (fun f => match f.owner with
    | .host x 0 _ => x == d
    | _ => false))

/-- A queued frame stays: one of a NET_TX that has not started is not sent (Table 12-11). -/
def keepFrame (p : NetPort) (f : TxFrame) : Bool :=
  match f.owner with
  | .host d _ _ => !notStarted p d
  | _ => true

/-- A frame that a NET_TX waited for has no owner any more. -/
def disownFrame (f : TxFrame) : TxFrame :=
  match f.owner with
  | .host _ _ _ => { f with owner := .unowned }
  | _ => f

/-- A port's frames after the rings are gone. -/
def dropPort (p : NetPort) : NetPort :=
  { p with
    queues := p.queues.map (fun e => (e.1, (e.2.filter (keepFrame p)).map disownFrame))
    line := p.line.map (fun l => (l.1, disownFrame l.2)), lostStamps := [] }

/-- A message that a descriptor waited for goes on for nobody. -/
def disownWait (w : BarWait) : BarWait :=
  match w.use with
  | .command _ | .read _ _ | .sweep _ => { w with use := .other }
  | _ => w

/-- A link engine's waiting messages after the rings are gone. -/
def dropBar (b : BarHost) : BarHost := { b with waits := b.waits.map disownWait }

/-- Step requests stay, and complete nothing. -/
def dropSteps (t : TimeState) : TimeState := { t with steps := t.steps.map (fun r => { r with ref := none }) }

/-- Every descriptor in flight ends without an entry (R447), with the effects of Table 12-11: a tally's commit goes on, a
carry that was armed is disarmed, a load, a step, a sweep and flash work go on for nobody, frames not started are not
sent, posted buffers are gone. -/
def dropDescriptors (s : State) : State :=
  let s := settleCredits (if s.snap.armed.isSome then rclr s Reg.SNP_MATCH_CTRL F.SNP_MATCH_CTRL_ARM else s)
  { s with
    time := dropSteps s.time
    loads := s.loads.map (fun e => (e.1, { e.2 with ref := none }))
    nets := mapRewrite netReset (fun _ p => dropPort p) s.nets
    posted := []
    tallies := mapRewrite tallyReset (fun _ t => { t with commit := none, abortRef := none }) s.tallies
    snap := { s.snap with armed := none, scheduled := s.snap.scheduled.filter (fun c => c.2.2.isNone) }
    barA := dropBar s.barA
    barB := dropBar s.barB
    boot := { s.boot with work := s.boot.work.map (fun w => (w.1, none)) }
    qps := []
    diags := []
    turns := ⟨0, 0, 0⟩
    doorbell := false
    pageBad := false
    pcie := pcieReset }

/-- A PCIe reset aborts the OPEN tallies with cause RESET; the outcome of every tally that is not FREE goes to the event
log (R261). -/
def resetTallies (s : State) : State :=
  let busy := tallyIds.filter (fun id => tyState s id != tyFree)
  let s := forEach busy s (fun s id => setTally s id { tallyAt s id with perst := true })
  forEach (busy.filter (fun id => tyState s id == tyOpen)) s (fun s id => abortTally s id acReset)

/-- A fault INT held pending sets its vector's pending bit once the endpoint has left reset (R451). -/
def pendHeld (s : State) : State :=
  if s.collector.intHeld && !s.perstLow then
    let v := rget s Reg.HIF_MISC_VEC F.HIF_MISC_VEC_VECTOR
    rput s (Reg.MSIX_PBA (v / 32)) ⟨v % 32, 1⟩ 1
  else s

/-- The PCIe endpoint, the HIF block, the MSI-X table and all queue-pair state are reset (R23, R451). -/
def endpointReset (s : State) : State :=
  let s := dropDescriptors (resetTallies s)
  resetRange (resetRange { s with pcieUp := false } 0x1000 0x2000) 0xF0000 0xF9000

/-- PERST_N. -/
def execPerstN (s : State) : Out := .next (if s.powered then { endpointReset s with perstLow := true } else s)

/-- FUNCTION_LEVEL_RESET (R419): as PERST_N; the endpoint leaves reset at once. -/
def execFunctionLevelReset (s : State) : Out :=
  .next (if s.powered && !s.perstLow then pendHeld (endpointReset s) else s)

/-- PERST_N_RELEASE (R451). -/
def execPerstNRelease (s : State) : Out :=
  .next (if s.powered && s.perstLow then pendHeld { s with perstLow := false } else s)

/-- PCIE_LINK_DOWN (R450): the link is left other than by PERST_N. -/
def execPcieLinkDown (s : State) : Out :=
  .next (if s.powered && s.pcieUp then
      let s := { s with pcieUp := false }
      let s := rclr (rclr (rclr s Reg.HIF_STAT F.HIF_STAT_SPEED) Reg.HIF_STAT F.HIF_STAT_WIDTH) Reg.HIF_STAT F.HIF_STAT_BME
      raise s 0x480 noInst 0
    else s)

/-- HIF_STAT.SPEED and WIDTH. -/
def speedCode : LinkSpeed → Nat
  | .gen2 => 2
  | .gen3 => 3
  | .gen4 => 4

/-- Lanes. -/
def widthCode : LinkWidth → Nat
  | .x1 => 1
  | .x2 => 2
  | .x4 => 4

/-- What the host's configuration of the function sets (R419); writes that waited for Bus Master Enable go out. -/
def setControl (s : State) (ctl : PcieControl) : State :=
  let s := rbit s Reg.HIF_STAT F.HIF_STAT_BME ctl.bme
  flushWrites { s with pcie := { s.pcie with d3hot := ctl.d3hot, bar0 := ctl.bar0 } }

/-- PCIE_LINK_TRAINED (R419, R450): messages that are pending and unmasked are sent. On a link that is up at this rate and
width already, only the configuration of the function has changed. -/
def execPcieLinkTrained (speed : LinkSpeed) (width : LinkWidth) (ctl : PcieControl) (s : State) : Out :=
  .next (if !s.powered || s.perstLow || s.boot.resetting then s
    else
      let a := Reg.HIF_STAT
      let same := s.pcieUp && rget s a F.HIF_STAT_SPEED == speedCode speed && rget s a F.HIF_STAT_WIDTH == widthCode width
      let s := rput (rput s a F.HIF_STAT_SPEED (speedCode speed)) a F.HIF_STAT_WIDTH (widthCode width)
      let s := forEach (List.range 64) (setControl { s with pcieUp := true } ctl) msixPending
      if same ∨ (speed = .gen4 ∧ width = .x4) then s else raise s 0x481 noInst 0)

/-! ## Power-on (R23, R492, R496) -/

/-- What the straps give after power-on, RST_N or CHIP_RESET (R457, R530). -/
def readStraps (s : State) (stackId : Nat) : State :=
  let a := Reg.MGT_ADDR
  rput (rput (rput s Reg.STK_STAT F.STK_STAT_MY_ID stackId) a F.MGT_ADDR_ADDR0 (0x48 + stackId)) a F.MGT_ADDR_ADDR1 (0x48 + stackId)

/-- The event registers that the counters and the log region give back (Table 14-13); records that waited are gone. A full
log's last record says that it is full where the save came too early. -/
def restoreLog (s : State) : State :=
  let n := scanCommitted s
  let s := rbit s Reg.EVR_STAT F.EVR_STAT_LOG_FULL ((savedFull s && !clearPending s) || n == logSize)
  let s := rput (rput s Reg.EVR_COUNT F.EVR_COUNT_RECORDS n) Reg.EVR_COMMITTED F.EVR_COMMITTED_RECORDS n
  let s := rput (rput s Reg.EVR_DROPPED F.EVR_DROPPED_COUNT (savedDropped s)) Reg.EVR_EPOCH F.EVR_EPOCH_EPOCH (savedEpoch s)
  rput (rput s Reg.EVR_OPTIME_S F.EVR_OPTIME_S_SEC (savedOptime s / 256)) Reg.EVR_PCC F.EVR_PCC_COUNT (savedPower s)

/-- What no reset of the host die touches: its variant, its pins, the field dies,
the flash and the OTP, the host's memory, what was sent, and the queue (R20, R23). -/
def keepOutside (s t : State) : State :=
  { t with
    variant := s.variant, perstLow := s.perstLow
    dieA := s.dieA, dieB := s.dieB, flash := s.flash
    boot := { bootReset with
      identity := s.boot.identity, keys := s.boot.keys, revoked := s.boot.revoked, fuses := s.boot.fuses }
    hostMem := s.hostMem, sent := s.sent, pending := s.pending, free := s.free }

/-- The first readings of the sensors, taken before any register can be read: they are free values (R564, log entry 2). -/
def firstReadings (s : State) : State :=
  let (h01, s) := takeFree s 32
  let (h23, s) := takeFree s 32
  let (hd, s) := takeFree s 16
  let (theta, s) := takeFree s 16
  let s := wr (wr s Reg.FLT_THERM_H01 h01) Reg.FLT_THERM_H23 h23
  rput (rput s Reg.FLT_THERM_DRAM F.FLT_THERM_DRAM_DRAM hd.toNat) Reg.REF_TEMP F.REF_TEMP_THETA theta.toNat

/-- The whole host die after power-on. Where a log clear was cut short, what its LOG_CLEARED will give as the old count is
free: the counters do not keep it (R499, R519). -/
def powerOn (s : State) (stackId : Nat) (recovLow : Bool) : State :=
  let (old, s) := takeFree (spoilWork s) 19
  let t := firstReadings (keepOutside s State.reset)
  let t := { t with
    recorder := { recorderReset with
      optime := savedOptime s, pcc := savedPower s, seals := scanSeals s, voids := scanVoids s, ring := scanRing s
      clearOld := if clearPending s then old.toNat else 0 }
    boot := { t.boot with recovLow := recovLow } }
  let t := alignGrid (readStraps (restoreLog t) stackId)
  recordEvent t 0x1840 noInst false (fldPut F.SYS_ID_VARIANT t.variant (rd t Reg.SYS_ID)).toNat

/-- POWER_ON. -/
def execPowerOn (stackId : Fin 8) (recovLow : Bool) (s : State) : Out := .next (powerOn s stackId recovLow)

/-- The balls enter their reset state, or lose their supply (R559, Table 17-8): SDA is released, CARRY_OUT falls, and the
audio outputs that were driven stop. -/
def releaseBalls (s : State) : State :=
  let s := releaseSda s
  let s := if s.snap.coutHigh then sendOut s (.carryOut false) else s
  forEach ((List.range 32).filter (fun p => ptState s p != ptOff)) s (fun s p => sendOut s (.portLow p))

/-- POWER_DOWN (R548): everything on the host die is lost but what the flash and the OTP hold; FAULT_N is driven low until
the supply is below 1.2 V, which is taken to be so one cycle later (R560; log entry 169). -/
def execPowerDown (s : State) : Out :=
  .next (if !s.powered then s
    else
      let s := spoilWork (releaseBalls s)
      let t := keepOutside s { State.reset with powered := false }
      rset t Reg.FLT_STAT F.FLT_STAT_FAULT_N_LOW)

/-! ## RST_N and CHIP_RESET (R23, R71, R472, R491) -/

/-- The loop after RST_N or CHIP_RESET: what the brass island keeps is the learned slope, its history and that the loop was
LOCKED since power-on (R71, R82); the steer starts at the holdover prediction of that moment where HIST_OK = 1, and at
REF_FR_STEER, which has been reset, otherwise (R83). Where HIST_OK = 1 and no entry to HOLDOVER or LOST has stored values
yet, the prediction uses the stored fields as they stand: S_H = 0, θ_h = 0 and t_h = count 0 (DESIGN CHOICE, log entry
149). -/
def keptLoop (s : State) : LoopState :=
  { loopReset with
    steer := if ron s Reg.REF_STAT F.REF_STAT_HIST_OK then clampSteer (holdoverSteer s) else 0
    lastUpdate := s.time.cnt, everLocked := s.loop.everLocked
    tHeld := s.loop.tHeld, hourSum := s.loop.hourSum, hourN := s.loop.hourN, hourly := s.loop.hourly
    hours := s.loop.hours, learnedA := s.loop.learnedA }

/-- The reset of RST_N: the host die but for the brass island and the STK fields; the DRAM stack is a die of its own, which
keeps its words and their poison (R20, R23). `cause` is the CHIP_RESET source, 0xFFF
for RST_N; the record of the reset comes first. FAULT_N stays low where step 1 after power-on has not ended (R560). -/
def hostDieReset (s : State) (stackId : Nat) (recovLow : Bool) (cause : Nat) (selfTripped : Bool) : State :=
  let s := spoilWork (releaseBalls s)
  let kept := keptLoop s
  let s := rputI (resetRegs s) Reg.REF_STEER F.REF_STEER_S kept.steer
  let t := keepOutside s State.reset
  let t := { t with
    regs := s.regs
    time := { dropSteps s.time with ppsHigh := false }
    loop := kept
    dram := s.dram, poison := mapKeep (fun k => decide (2 ^ 41 ≤ k)) s.poison
    collector := { s.collector with fencers := [], inReset := [], chipReset := none, testKey := false }
    recorder := { s.recorder with clearKey := none }
    boot := { t.boot with powerOn := false, coming := s.boot.coming, recovLow := recovLow, cause := cause, selfTrip := selfTripped } }
  let t := rbit (firstReadings t) Reg.CLK_STAT F.CLK_STAT_XO_OK (!s.time.xoLost)
  let t := pendHeld (alignGrid (readStraps t stackId))
  refreshFaultN (setBacklog (recordEvent t 0x1841 noInst false (cause + 65536 * b2n selfTripped)))

/-- RST_N. -/
def execRstN (stackId : Fin 8) (recovLow : Bool) (s : State) : Out :=
  .next (if s.powered then hostDieReset s stackId recovLow 0xFFF false else s)

/-- HOST_RAIL_MONITOR (R548): recorded as RST_N. -/
def execHostRailMonitor (stackId : Fin 8) (recovLow : Bool) (s : State) : Out :=
  .next (if s.powered then hostDieReset s stackId recovLow 0xFFF false else s)

/-- CHIP_RESET (R478): for the source whose reaction asked for it 10 µs before. -/
def execChipReset (stackId : Fin 8) (recovLow : Bool) (s : State) : Out :=
  .next (if !s.powered then s
    else match s.collector.chipReset with
    | none => s
    | some id => hostDieReset s stackId recovLow id false)

/-- SELF_TRIP_RESET (Table 14-6): CHIP_RESET, with every word of the collector's configuration at its power-on value. -/
def execSelfTripReset (stackId : Fin 8) (recovLow : Bool) (s : State) : Out :=
  .next (if !s.powered || !s.collector.selfTripBusy then s
    else
      let s := { s with collector := { s.collector with masks := [], flips := [], selfTripBusy := false } }
      let s := resetRange (resetRange s Reg.FLT_CTRL (Reg.FLT_CTRL + 4)) Reg.FLT_THERM (Reg.FLT_THERM + 4)
      hostDieReset s stackId recovLow fixedSource true)

end Sys2Proof.Machine
end

