-- ==== Sys2Proof/Machine/Dispatch.lean ====
section
/-! DEFINITION. One arm per command: what each command does to the state, by one direct call of its meaning. -/

namespace Sys2Proof.Machine
open Sys2Proof

def exec (i : Instr) (s : State) : Host.Outcome State Fault Refusal :=
  match i with
  | .powerOn stackId recovLow => Sys2Proof.Machine.execPowerOn stackId recovLow s
  | .powerDown => Sys2Proof.Machine.execPowerDown s
  | .rstN stackId recovLow => Sys2Proof.Machine.execRstN stackId recovLow s
  | .hostRailMonitor stackId recovLow => Sys2Proof.Machine.execHostRailMonitor stackId recovLow s
  | .perstN => Sys2Proof.Machine.execPerstN s
  | .functionLevelReset => Sys2Proof.Machine.execFunctionLevelReset s
  | .pcieLinkDown => Sys2Proof.Machine.execPcieLinkDown s
  | .chipReset stackId recovLow => Sys2Proof.Machine.execChipReset stackId recovLow s
  | .pfailFall => Sys2Proof.Machine.execPfailFall s
  | .pfailRise => Sys2Proof.Machine.execPfailRise s
  | .xoInLost => Sys2Proof.Machine.execXoInLost s
  | .xoInReturn => Sys2Proof.Machine.execXoInReturn s
  | .blockBoundary => Sys2Proof.Machine.execBlockBoundary s
  | .rodPassStart g imports => Sys2Proof.Machine.execRodPassStart g imports s
  | .warnThreshold g => Sys2Proof.Machine.execWarnThreshold g s
  | .computeBudgetEnd exports => Sys2Proof.Machine.execComputeBudgetEnd exports s
  | .exportWindowEnd => Sys2Proof.Machine.execExportWindowEnd s
  | .interruptAccept g => Sys2Proof.Machine.execInterruptAccept g s
  | .rodHalt g => Sys2Proof.Machine.execRodHalt g s
  | .rodNop g => Sys2Proof.Machine.execRodNop g s
  | .rodLdi g => Sys2Proof.Machine.execRodLdi g s
  | .rodMovr g => Sys2Proof.Machine.execRodMovr g s
  | .rodAdd g => Sys2Proof.Machine.execRodAdd g s
  | .rodSub g => Sys2Proof.Machine.execRodSub g s
  | .rodAddi g => Sys2Proof.Machine.execRodAddi g s
  | .rodSubi g => Sys2Proof.Machine.execRodSubi g s
  | .rodCmp g => Sys2Proof.Machine.execRodCmp g s
  | .rodAnd g => Sys2Proof.Machine.execRodAnd g s
  | .rodOr g => Sys2Proof.Machine.execRodOr g s
  | .rodXor g => Sys2Proof.Machine.execRodXor g s
  | .rodNot g => Sys2Proof.Machine.execRodNot g s
  | .rodAsl g => Sys2Proof.Machine.execRodAsl g s
  | .rodAsr g => Sys2Proof.Machine.execRodAsr g s
  | .rodLsl g => Sys2Proof.Machine.execRodLsl g s
  | .rodLsr g => Sys2Proof.Machine.execRodLsr g s
  | .rodAbs g => Sys2Proof.Machine.execRodAbs g s
  | .rodNeg g => Sys2Proof.Machine.execRodNeg g s
  | .rodMin g => Sys2Proof.Machine.execRodMin g s
  | .rodMax g => Sys2Proof.Machine.execRodMax g s
  | .rodAmax g => Sys2Proof.Machine.execRodAmax g s
  | .rodClr g => Sys2Proof.Machine.execRodClr g s
  | .rodMova g => Sys2Proof.Machine.execRodMova g s
  | .rodAdda g => Sys2Proof.Machine.execRodAdda g s
  | .rodSuba g => Sys2Proof.Machine.execRodSuba g s
  | .rodNega g => Sys2Proof.Machine.execRodNega g s
  | .rodAbsa g => Sys2Proof.Machine.execRodAbsa g s
  | .rodShla g => Sys2Proof.Machine.execRodShla g s
  | .rodShra g => Sys2Proof.Machine.execRodShra g s
  | .rodRnda g => Sys2Proof.Machine.execRodRnda g s
  | .rodSata g => Sys2Proof.Machine.execRodSata g s
  | .rodLda g => Sys2Proof.Machine.execRodLda g s
  | .rodLdal g => Sys2Proof.Machine.execRodLdal g s
  | .rodExt g => Sys2Proof.Machine.execRodExt g s
  | .rodExtl g => Sys2Proof.Machine.execRodExtl g s
  | .rodExtg g => Sys2Proof.Machine.execRodExtg g s
  | .rodTsta g => Sys2Proof.Machine.execRodTsta g s
  | .rodMpy g => Sys2Proof.Machine.execRodMpy g s
  | .rodMac g => Sys2Proof.Machine.execRodMac g s
  | .rodMsu g => Sys2Proof.Machine.execRodMsu g s
  | .rodMpy2 g => Sys2Proof.Machine.execRodMpy2 g s
  | .rodMac2 g => Sys2Proof.Machine.execRodMac2 g s
  | .rodMsu2 g => Sys2Proof.Machine.execRodMsu2 g s
  | .rodMpyx g => Sys2Proof.Machine.execRodMpyx g s
  | .rodMacx g => Sys2Proof.Machine.execRodMacx g s
  | .rodTap g => Sys2Proof.Machine.execRodTap g s
  | .rodTap2 g => Sys2Proof.Machine.execRodTap2 g s
  | .rodTapm g => Sys2Proof.Machine.execRodTapm g s
  | .rodExp g => Sys2Proof.Machine.execRodExp g s
  | .rodBexp g => Sys2Proof.Machine.execRodBexp g s
  | .rodNorm g => Sys2Proof.Machine.execRodNorm g s
  | .rodDivs g => Sys2Proof.Machine.execRodDivs g s
  | .rodRep g => Sys2Proof.Machine.execRodRep g s
  | .rodLoop g => Sys2Proof.Machine.execRodLoop g s
  | .rodEndl g => Sys2Proof.Machine.execRodEndl g s
  | .rodB g => Sys2Proof.Machine.execRodB g s
  | .rodCall g => Sys2Proof.Machine.execRodCall g s
  | .rodRet g => Sys2Proof.Machine.execRodRet g s
  | .rodRti g => Sys2Proof.Machine.execRodRti g s
  | .rodTrap g => Sys2Proof.Machine.execRodTrap g s
  | .rodEnd g => Sys2Proof.Machine.execRodEnd g s
  | .illegalEncoding g => Sys2Proof.Machine.execIllegalEncoding g s
  | .rodCtrlEn g w => Sys2Proof.Machine.execRodCtrlEn g w s
  | .haltReq g w => Sys2Proof.Machine.execHaltReq g w s
  | .unfence g w => Sys2Proof.Machine.execUnfence g w s
  | .clrStats g w => Sys2Proof.Machine.execClrStats g w s
  | .loadProgram d image => Sys2Proof.Machine.execLoadProgram d image s
  | .sampleSendInstant d j => Sys2Proof.Machine.execSampleSendInstant d j s
  | .fabricWrite owner ch buf j w => Sys2Proof.Machine.execFabricWrite owner ch buf j w s
  | .sysLock w => Sys2Proof.Machine.execSysLock w s
  | .sysBlkcfgWrite w => Sys2Proof.Machine.execSysBlkcfgWrite w s
  | .pipeRunWrite w => Sys2Proof.Machine.execPipeRunWrite w s
  | .sysBlkidxLoRead => Sys2Proof.Machine.execSysBlkidxLoRead s
  | .eccCeClr cls w => Sys2Proof.Machine.execEccCeClr cls w s
  | .patrolScrub place unit addr ecc => Sys2Proof.Machine.execPatrolScrub place unit addr ecc s
  | .busRequest target arrivals elapsed ecc => Sys2Proof.Machine.execBusRequest target arrivals elapsed ecc s
  | .matrixTimeout master target wait => Sys2Proof.Machine.execMatrixTimeout master target wait s
  | .mtxErrClear w => Sys2Proof.Machine.execMtxErrClear w s
  | .refActivityLost c => Sys2Proof.Machine.execRefActivityLost c s
  | .refFrequencyGate c offset => Sys2Proof.Machine.execRefFrequencyGate c offset s
  | .refQualified c => Sys2Proof.Machine.execRefQualified c s
  | .revertWaitExpiry c => Sys2Proof.Machine.execRevertWaitExpiry c s
  | .loopUpdate phase rate => Sys2Proof.Machine.execLoopUpdate phase rate s
  | .fastAcquireDwellEnd => Sys2Proof.Machine.execFastAcquireDwellEnd s
  | .holdoverEvaluation => Sys2Proof.Machine.execHoldoverEvaluation s
  | .ageingRefit => Sys2Proof.Machine.execAgeingRefit s
  | .temperatureReading die diode => Sys2Proof.Machine.execTemperatureReading die diode s
  | .refPstep w => Sys2Proof.Machine.execRefPstep w s
  | .timeRateWrite w => Sys2Proof.Machine.execTimeRateWrite w s
  | .timeAdjGo w => Sys2Proof.Machine.execTimeAdjGo w s
  | .force w => Sys2Proof.Machine.execForce w s
  | .forceExpiry => Sys2Proof.Machine.execForceExpiry s
  | .timeStepApply => Sys2Proof.Machine.execTimeStepApply s
  | .servoUpdate u => Sys2Proof.Machine.execServoUpdate u s
  | .timeNowFracRead => Sys2Proof.Machine.execTimeNowFracRead s
  | .timeCntLoRead => Sys2Proof.Machine.execTimeCntLoRead s
  | .timeBaseCntLoRead => Sys2Proof.Machine.execTimeBaseCntLoRead s
  | .ppsPulse => Sys2Proof.Machine.execPpsPulse s
  | .ppsPulseEnd => Sys2Proof.Machine.execPpsPulseEnd s
  | .tdmModeWrite n w => Sys2Proof.Machine.execTdmModeWrite n w s
  | .tdmMasterFrameStart n j => Sys2Proof.Machine.execTdmMasterFrameStart n j s
  | .tdmFrameReceive n pos bclks slots => Sys2Proof.Machine.execTdmFrameReceive n pos bclks slots s
  | .tdmRawArm n w => Sys2Proof.Machine.execTdmRawArm n w s
  | .portQualified p => Sys2Proof.Machine.execPortQualified p s
  | .portClockLost p => Sys2Proof.Machine.execPortClockLost p s
  | .portFrequencyGate p offset => Sys2Proof.Machine.execPortFrequencyGate p offset s
  | .fabAgrpMemWrite g w => Sys2Proof.Machine.execFabAgrpMemWrite g w s
  | .fabMissClr w => Sys2Proof.Machine.execFabMissClr w s
  | .bphRxEnWrite n w => Sys2Proof.Machine.execBphRxEnWrite n w s
  | .bphRxFrame n pos z misframe a b => Sys2Proof.Machine.execBphRxFrame n pos z misframe a b s
  | .bphRxCsseqRead n => Sys2Proof.Machine.execBphRxCsseqRead n s
  | .bphTxEnWrite n w => Sys2Proof.Machine.execBphTxEnWrite n w s
  | .bphTxFrame n j => Sys2Proof.Machine.execBphTxFrame n j s
  | .bphTxCsgo n w => Sys2Proof.Machine.execBphTxCsgo n w s
  | .asrcLock p settled ratio => Sys2Proof.Machine.execAsrcLock p settled ratio s
  | .routeCfg d => Sys2Proof.Machine.execRouteCfg d s
  | .mixDrEngageWrite hi w => Sys2Proof.Machine.execMixDrEngageWrite hi w s
  | .voxHoldExpiry r => Sys2Proof.Machine.execVoxHoldExpiry r s
  | .mixMclrGo w => Sys2Proof.Machine.execMixMclrGo w s
  | .mixClipClr w => Sys2Proof.Machine.execMixClipClr w s
  | .tallyOpen d => Sys2Proof.Machine.execTallyOpen d s
  | .tallyWrite d data => Sys2Proof.Machine.execTallyWrite d data s
  | .tallyCommit d => Sys2Proof.Machine.execTallyCommit d s
  | .tallyAbort d => Sys2Proof.Machine.execTallyAbort d s
  | .decisionPoint bad => Sys2Proof.Machine.execDecisionPoint bad s
  | .inDoubtQuery id => Sys2Proof.Machine.execInDoubtQuery id s
  | .snpFire w => Sys2Proof.Machine.execSnpFire w s
  | .carryInEdge rising => Sys2Proof.Machine.execCarryInEdge rising s
  | .snpMatchReached => Sys2Proof.Machine.execSnpMatchReached s
  | .stackCarryTime => Sys2Proof.Machine.execStackCarryTime s
  | .snpMatchArm w => Sys2Proof.Machine.execSnpMatchArm w s
  | .snpHoldWrite w => Sys2Proof.Machine.execSnpHoldWrite w s
  | .carryOutEnd => Sys2Proof.Machine.execCarryOutEnd s
  | .fieldSectionTimeout die => Sys2Proof.Machine.execFieldSectionTimeout die s
  | .snapshotArm d => Sys2Proof.Machine.execSnapshotArm d s
  | .snapshotRead d => Sys2Proof.Machine.execSnapshotRead d s
  | .netModeWrite p w => Sys2Proof.Machine.execNetModeWrite p w s
  | .netLinkUp p => Sys2Proof.Machine.execNetLinkUp p s
  | .netLinkDown p => Sys2Proof.Machine.execNetLinkDown p s
  | .frameReceive p r => Sys2Proof.Machine.execFrameReceive p r s
  | .pauseExpiry p => Sys2Proof.Machine.execPauseExpiry p s
  | .pauseWatchdog p => Sys2Proof.Machine.execPauseWatchdog p s
  | .frameTransmit p servo bufferBad => Sys2Proof.Machine.execFrameTransmit p servo bufferBad s
  | .transmitComplete p => Sys2Proof.Machine.execTransmitComplete p s
  | .launchLateDiscard p q => Sys2Proof.Machine.execLaunchLateDiscard p q s
  | .netTx d data => Sys2Proof.Machine.execNetTx d data s
  | .netRxPost d => Sys2Proof.Machine.execNetRxPost d s
  | .netCntClr p w => Sys2Proof.Machine.execNetCntClr p w s
  | .streamCfg d data => Sys2Proof.Machine.execStreamCfg d data s
  | .streamBeadDeadline bad => Sys2Proof.Machine.execStreamBeadDeadline bad s
  | .strClr w => Sys2Proof.Machine.execStrClr w s
  | .barrierLaneLock d lane headers => Sys2Proof.Machine.execBarrierLaneLock d lane headers s
  | .samples d ws => Sys2Proof.Machine.execSamples d ws s
  | .param d ws => Sys2Proof.Machine.execParam d ws s
  | .sealMsg d ws => Sys2Proof.Machine.execSealMsg d ws s
  | .barrierHeartbeat d ws => Sys2Proof.Machine.execBarrierHeartbeat d ws s
  | .hostLost d => Sys2Proof.Machine.execHostLost d s
  | .cmdTallyCommit d m => Sys2Proof.Machine.execCmdTallyCommit d m s
  | .tallyDiscard d m => Sys2Proof.Machine.execTallyDiscard d m s
  | .cmdCarry d m => Sys2Proof.Machine.execCmdCarry d m s
  | .forceSafe d m => Sys2Proof.Machine.execForceSafe d m s
  | .release d m => Sys2Proof.Machine.execRelease d m s
  | .cmdRead d m => Sys2Proof.Machine.execCmdRead d m s
  | .sealTighten d m => Sys2Proof.Machine.execSealTighten d m s
  | .cmdUnknown d ws => Sys2Proof.Machine.execCmdUnknown d ws s
  | .tripClear d m => Sys2Proof.Machine.execTripClear d m s
  | .rawWrite d m => Sys2Proof.Machine.execRawWrite d m s
  | .pwmCntClr d m => Sys2Proof.Machine.execPwmCntClr d m s
  | .diagSweep d m => Sys2Proof.Machine.execDiagSweep d m s
  | .diagAbort d m => Sys2Proof.Machine.execDiagAbort d m s
  | .protClear d m => Sys2Proof.Machine.execProtClear d m s
  | .zrefCapture d m => Sys2Proof.Machine.execZrefCapture d m s
  | .fieldTick d sense => Sys2Proof.Machine.execFieldTick d sense s
  | .lossHoldEnd d c => Sys2Proof.Machine.execLossHoldEnd d c s
  | .lossFadeEnd d c => Sys2Proof.Machine.execLossFadeEnd d c s
  | .lossIdleEnd d c => Sys2Proof.Machine.execLossIdleEnd d c s
  | .lossRearm d c => Sys2Proof.Machine.execLossRearm d c s
  | .twinSamples d ws => Sys2Proof.Machine.execTwinSamples d ws s
  | .twinDigest d ws => Sys2Proof.Machine.execTwinDigest d ws s
  | .twinStatus d ws => Sys2Proof.Machine.execTwinStatus d ws s
  | .twinStatusSend d => Sys2Proof.Machine.execTwinStatusSend d s
  | .twinLinkTimeout d => Sys2Proof.Machine.execTwinLinkTimeout d s
  | .pwmClkLoss d => Sys2Proof.Machine.execPwmClkLoss d s
  | .fieldRodFault d => Sys2Proof.Machine.execFieldRodFault d s
  | .fieldPllRefChange d r => Sys2Proof.Machine.execFieldPllRefChange d r s
  | .fieldPllLock d r => Sys2Proof.Machine.execFieldPllLock d r s
  | .fieldUndervoltage d => Sys2Proof.Machine.execFieldUndervoltage d s
  | .fieldDiePowerOn d => Sys2Proof.Machine.execFieldDiePowerOn d s
  | .sense d ws => Sys2Proof.Machine.execSense d ws s
  | .status d ws discarded => Sys2Proof.Machine.execStatus d ws discarded s
  | .fault d ws => Sys2Proof.Machine.execFault d ws s
  | .ack d ws => Sys2Proof.Machine.execAck d ws s
  | .ackTimeout d seq => Sys2Proof.Machine.execAckTimeout d seq s
  | .diagResult d ws => Sys2Proof.Machine.execDiagResult d ws s
  | .barrierLinkTimeout d => Sys2Proof.Machine.execBarrierLinkTimeout d s
  | .barCntClr d w => Sys2Proof.Machine.execBarCntClr d w s
  | .carrierValley d c m => Sys2Proof.Machine.execCarrierValley d c m s
  | .tripInputChange d c active => Sys2Proof.Machine.execTripInputChange d c active s
  | .tripHonoured d c trip => Sys2Proof.Machine.execTripHonoured d c trip s
  | .readbackMismatch d c t => Sys2Proof.Machine.execReadbackMismatch d c t s
  | .tripQuietExpiry d c => Sys2Proof.Machine.execTripQuietExpiry d c s
  | .rawPairTimeout d c duty => Sys2Proof.Machine.execRawPairTimeout d c duty s
  | .overcurrent d c t bits => Sys2Proof.Machine.execOvercurrent d c t bits s
  | .checkStart d c => Sys2Proof.Machine.execCheckStart d c s
  | .checkEnd d c => Sys2Proof.Machine.execCheckEnd d c s
  | .checkDue d c => Sys2Proof.Machine.execCheckDue d c s
  | .thermalModelUpdate d ones => Sys2Proof.Machine.execThermalModelUpdate d ones s
  | .senseStreamBad d st => Sys2Proof.Machine.execSenseStreamBad d st s
  | .senseStreamGood d st => Sys2Proof.Machine.execSenseStreamGood d st s
  | .dcOutDetect d c => Sys2Proof.Machine.execDcOutDetect d c s
  | .dcStreamDetect d c => Sys2Proof.Machine.execDcStreamDetect d c s
  | .trimUpdate d => Sys2Proof.Machine.execTrimUpdate d s
  | .pilotWindowEnd d => Sys2Proof.Machine.execPilotWindowEnd d s
  | .sweepPointEnd d => Sys2Proof.Machine.execSweepPointEnd d s
  | .nop d => Sys2Proof.Machine.execNop d s
  | .fence d => Sys2Proof.Machine.execFence d s
  | .paramRead d => Sys2Proof.Machine.execParamRead d s
  | .meterRead d => Sys2Proof.Machine.execMeterRead d s
  | .diagRun d => Sys2Proof.Machine.execDiagRun d s
  | .diagRunTimeout d => Sys2Proof.Machine.execDiagRunTimeout d s
  | .eventRead d => Sys2Proof.Machine.execEventRead d s
  | .timeSet d => Sys2Proof.Machine.execTimeSet d s
  | .fieldCmd d => Sys2Proof.Machine.execFieldCmd d s
  | .configSave d data => Sys2Proof.Machine.execConfigSave d data s
  | .updateBlock d data => Sys2Proof.Machine.execUpdateBlock d data s
  | .updateActivate d => Sys2Proof.Machine.execUpdateActivate d s
  | .hifKick w => Sys2Proof.Machine.execHifKick w s
  | .doorbellRead page => Sys2Proof.Machine.execDoorbellRead page s
  | .descriptorFetch q bytes bufferBad => Sys2Proof.Machine.execDescriptorFetch q bytes bufferBad s
  | .completionWrite q => Sys2Proof.Machine.execCompletionWrite q s
  | .modTimeExpiry q => Sys2Proof.Machine.execModTimeExpiry q s
  | .queueEnable q w => Sys2Proof.Machine.execQueueEnable q w s
  | .queueRecover q w => Sys2Proof.Machine.execQueueRecover q w s
  | .queueDisable q w => Sys2Proof.Machine.execQueueDisable q w s
  | .bar0NarrowWrite => Sys2Proof.Machine.execBar0NarrowWrite s
  | .stackLinkUp l => Sys2Proof.Machine.execStackLinkUp l s
  | .stackLinkDown l => Sys2Proof.Machine.execStackLinkDown l s
  | .helloSend => Sys2Proof.Machine.execHelloSend s
  | .hello l m => Sys2Proof.Machine.execHello l m s
  | .discoveryWaitExpiry => Sys2Proof.Machine.execDiscoveryWaitExpiry s
  | .stackHeartbeat l ws => Sys2Proof.Machine.execStackHeartbeat l ws s
  | .heartbeatWindowExpiry => Sys2Proof.Machine.execHeartbeatWindowExpiry s
  | .memberStatus l ws => Sys2Proof.Machine.execMemberStatus l ws s
  | .timeSync l ws own => Sys2Proof.Machine.execTimeSync l ws own s
  | .delayReq l ws => Sys2Proof.Machine.execDelayReq l ws s
  | .delayResp l ws => Sys2Proof.Machine.execDelayResp l ws s
  | .subscribe l ws => Sys2Proof.Machine.execSubscribe l ws s
  | .beads l ws => Sys2Proof.Machine.execBeads l ws s
  | .remoteBeadDeadline => Sys2Proof.Machine.execRemoteBeadDeadline s
  | .vote l ws => Sys2Proof.Machine.execVote l ws s
  | .decisionLog l ws => Sys2Proof.Machine.execDecisionLog l ws s
  | .logAck l ws => Sys2Proof.Machine.execLogAck l ws s
  | .decision l ws => Sys2Proof.Machine.execDecision l ws s
  | .query l ws => Sys2Proof.Machine.execQuery l ws s
  | .answer l ws => Sys2Proof.Machine.execAnswer l ws s
  | .carrySched l ws => Sys2Proof.Machine.execCarrySched l ws s
  | .splitReport l ws => Sys2Proof.Machine.execSplitReport l ws s
  | .stackStart l ws => Sys2Proof.Machine.execStackStart l ws s
  | .startSend => Sys2Proof.Machine.execStartSend s
  | .stackRetransmit => Sys2Proof.Machine.execStackRetransmit s
  | .handover w => Sys2Proof.Machine.execHandover w s
  | .fltForce w => Sys2Proof.Machine.execFltForce w s
  | .fltStatClear g hi w => Sys2Proof.Machine.execFltStatClear g hi w s
  | .fltClrGrp w => Sys2Proof.Machine.execFltClrGrp w s
  | .fltCfg w => Sys2Proof.Machine.execFltCfg w s
  | .fltCfgGrp w => Sys2Proof.Machine.execFltCfgGrp w s
  | .fltUnfence w => Sys2Proof.Machine.execFltUnfence w s
  | .fltSelftest w => Sys2Proof.Machine.execFltSelftest w s
  | .fltCntClr g w => Sys2Proof.Machine.execFltCntClr g w s
  | .configurationScan upset => Sys2Proof.Machine.execConfigurationScan upset s
  | .selfTripReset stackId recovLow => Sys2Proof.Machine.execSelfTripReset stackId recovLow s
  | .faultNMinExpiry => Sys2Proof.Machine.execFaultNMinExpiry s
  | .thermalSensorReading sensor reading => Sys2Proof.Machine.execThermalSensorReading sensor reading s
  | .supervisorWatchdog => Sys2Proof.Machine.execSupervisorWatchdog s
  | .tokenRefill code => Sys2Proof.Machine.execTokenRefill code s
  | .eventCommit failures => Sys2Proof.Machine.execEventCommit failures s
  | .optimeSave ok => Sys2Proof.Machine.execOptimeSave ok s
  | .timeMark => Sys2Proof.Machine.execTimeMark s
  | .evrHost w => Sys2Proof.Machine.execEvrHost w s
  | .evrClear w => Sys2Proof.Machine.execEvrClear w s
  | .logEraseDone => Sys2Proof.Machine.execLogEraseDone s
  | .evrOptimeFRead => Sys2Proof.Machine.execEvrOptimeFRead s
  | .bootRomStart flash => Sys2Proof.Machine.execBootRomStart flash s
  | .supervisorStart => Sys2Proof.Machine.execSupervisorStart s
  | .bootMbBlock w data => Sys2Proof.Machine.execBootMbBlock w data s
  | .bootMbActivate w flash => Sys2Proof.Machine.execBootMbActivate w flash s
  | .mgtAddress a read => Sys2Proof.Machine.execMgtAddress a read s
  | .mgtWriteByte b => Sys2Proof.Machine.execMgtWriteByte b s
  | .mgtReadByte nack => Sys2Proof.Machine.execMgtReadByte nack s
  | .mgtStop => Sys2Proof.Machine.execMgtStop s
  | .mgtBusError => Sys2Proof.Machine.execMgtBusError s
  | .mgtSdaTimeout => Sys2Proof.Machine.execMgtSdaTimeout s
  | .mgtAttentionPulse => Sys2Proof.Machine.execMgtAttentionPulse s
  | .mgtPulseEnd => Sys2Proof.Machine.execMgtPulseEnd s
  | .mgtPulseAbandon => Sys2Proof.Machine.execMgtPulseAbandon s
  | .mgtAttnRepeat => Sys2Proof.Machine.execMgtAttnRepeat s
  | .mgtAttnGo w => Sys2Proof.Machine.execMgtAttnGo w s
  | .mgtPageRefresh => Sys2Proof.Machine.execMgtPageRefresh s
  | .supervisionRead => Sys2Proof.Machine.execSupervisionRead s
  | .mgtHostbufWrite n w => Sys2Proof.Machine.execMgtHostbufWrite n w s
  | .mgtAddrWrite w => Sys2Proof.Machine.execMgtAddrWrite w s
  | .registerWrite a w => Sys2Proof.Machine.execRegisterWrite a w s
  | .refActivityRestored c => Sys2Proof.Machine.execRefActivityRestored c s
  | .msynOutOfLock locked => Sys2Proof.Machine.execMsynOutOfLock locked s
  | .timePllOutOfLock locked => Sys2Proof.Machine.execTimePllOutOfLock locked s
  | .dramLinkFailure channel => Sys2Proof.Machine.execDramLinkFailure channel s
  | .fieldRodRestart d => Sys2Proof.Machine.execFieldRodRestart d s
  | .perstNRelease => Sys2Proof.Machine.execPerstNRelease s
  | .pcieLinkTrained speed width ctl => Sys2Proof.Machine.execPcieLinkTrained speed width ctl s
  | .dieUnsealedTimeout d => Sys2Proof.Machine.execDieUnsealedTimeout d s
  | .hostFlashWorkDone verified => Sys2Proof.Machine.execHostFlashWorkDone verified s
  | .programLoadDone f image => Sys2Proof.Machine.execProgramLoadDone f image s
  | .pfailSetDone us => Sys2Proof.Machine.execPfailSetDone us s

end Sys2Proof.Machine
end

