-- ==== Sys2Proof/Machine/Step.lean ====
section
/-! DEFINITION. One step of the block: the command at the front of the queue, or a cycle of TIME_CLK on an empty queue. -/

namespace Sys2Proof.Machine
open Sys2Proof

/-- The operating time after one cycle: 1/256 s is 1,536,000 of them (R492). -/
def countOptime (r : RecorderState) : RecorderState :=
  if r.optTicks + 1 = 1536000 then { r with optTicks := 0, optime := r.optime + 1 } else { r with optTicks := r.optTicks + 1 }

/-- One TIME_CLK cycle: the counter advances while XO_IN runs; the operating time counts on without it (R62, R63, R492;
log entry 1). Without a supply FAULT_N is no longer driven (R560; log entry 169). -/
def tick (s : State) : State :=
  if !s.powered then rclr s Reg.FLT_STAT F.FLT_STAT_FAULT_N_LOW
  else
    let s := { s with recorder := countOptime s.recorder }
    if s.time.xoLost then s else { s with time := { s.time with cnt := (s.time.cnt + 1) % 2 ^ 64 } }

/-- Take the command at the front of the queue and run it with the queue's rest; on an empty queue a cycle of TIME_CLK
passes (log entry 1). -/
def step (s : State) : Host.Outcome State Fault Refusal :=
  match s.pending with
  | [] => .next (tick s)
  | c :: rest => exec c { s with pending := rest }

/-- Put the command that a word spells in front of the queue; the table gives no row bits, so no word spells one. -/
def State.withFetchWord (s : State) (nbits w : Nat) : State :=
  match decodeTableWord nbits w with
  | none => s
  | some c => { s with pending := c :: s.pending }

end Sys2Proof.Machine
end

