-- ==== Sys2Proof/Machine/Lane.lean ====
section
/-! DEFINITION. The coding of the barrier and twin lanes (R326, R328, R346): message words as 66-bit blocks under a
self-synchronous scrambler. The bits within a block go lowest first (PRESUMED from IEEE 802.3, log entry 137). -/

namespace Sys2Proof.Machine
open Sys2Proof

/-- A block: whether it is a data block (sync header 0b01) or a control block (0b10), and its 64 payload bits. -/
structure LaneBlock where
  data : Bool
  payload : Nat
  deriving DecidableEq, Repr

/-- The idle block: control, of type 0x1E with zero payload. -/
def idleBlock : LaneBlock := ⟨false, 0x1E⟩

/-- A message as its run of data blocks, closed by the idle block that at least separates two messages. -/
def messageBlocks (ws : List Nat) : List LaneBlock := ws.map (fun w => ⟨true, w % 2 ^ 64⟩) ++ [idleBlock]

/-- The payload bits of a block, lowest first. -/
def blockBits (b : LaneBlock) : List Bool := (List.range 64).map (bitOf b.payload)

/-- One bit through the scrambler x^58 + x^39 + 1; `st` holds the scrambled bits before it, the last first. -/
def scrambleBit (st : List Bool) (x : Bool) : Bool := (x != st.getD 38 false) != st.getD 57 false

/-- The scrambled bits of a bit sequence; sync headers are not scrambled. -/
def scramble (st : List Bool) : List Bool → List Bool
  | [] => []
  | x :: xs => let y := scrambleBit st x; y :: scramble ((y :: st).take 58) xs

/-- The bits a receiver finds: it needs only the 58 scrambled bits before each. -/
def descramble (st : List Bool) : List Bool → List Bool
  | [] => []
  | y :: ys => scrambleBit st y :: descramble ((y :: st).take 58) ys

/-- The messages that a block sequence carries: the runs of data blocks (R326). -/
def laneMessages : List LaneBlock → List Nat → List (List Nat)
  | [], _ => []
  | b :: bs, run =>
    if b.data then laneMessages bs (run ++ [b.payload])
    else if run.isEmpty then laneMessages bs [] else run :: laneMessages bs []

end Sys2Proof.Machine
end

