-- ==== Sys2Proof/Machine/MemoryForm.lean ====
section
/-! DEFINITION. The canonical form of the memories: registers, GSRAM, DRAM, frame SRAM, flash, host memory, rods. -/

namespace Sys2Proof.Machine
open Sys2Proof

/-- The canonical form, map by map: keys rise strictly and no entry equals what an unlisted key reads as. -/
def mapsWf (regs gsram dram frameMem : SMap Word) (flash : SMap Byte) (hostMem : List Host.Cell) (rods : SMap Rod) : Bool :=
  mapWf hostReset regs && mapWf (fun _ => 0) gsram && mapWf (fun _ => 0) dram && mapWf (fun _ => 0) frameMem &&
    mapWf flashErased flash && mapWf (fun _ => 0) hostMem && mapWf rodReset rods

/-- The memories of a state have their canonical form. -/
def Memory.wf (s : State) : Bool := mapsWf s.regs s.gsram s.dram s.frameMem s.flash s.hostMem s.rods

end Sys2Proof.Machine
end

