-- ==== Sys2Proof/Safety.lean ====
section
/-! DEFINITION. What a safe run is, and the conditions under which the statements let a command act. -/

namespace Sys2Proof.Safety
open Sys2Proof Sys2Proof.Machine

/-- A step goes on. -/
def goesOn (s : State) : Prop := ∃ t, step s = .next t

/-- The host's accesses reach the registers: the ROM has left the host die its BAR0, and the bus matrix lets M9 through to
T20 (R46, R47, R53, R514). -/
def hostMay (s : State) : Prop := live s = true ∧ barOpen s = true

/-- A descriptor with opcode `op` and bytes `bs` is in flight, may be accepted now, keeps every reserved bit zero and
every parameter in its range (R433, R435, R437). -/
def ready (s : State) (d : DescRef) (op : Nat) (bs : List Byte) : Prop :=
  live s = true ∧ acceptable s d op = true ∧ (flightAt s d).map Flight.bytes = some bs ∧
    reservedClear op bs = true ∧ paramsInRange op bs = true

/-- A message of the command's kind reaches a powered field die and is accepted as the first copy of its SEQ (R327,
R329). -/
def heardDown (s : State) (d : Die) (ws : List Nat) (mine : List Nat → Bool) : Prop :=
  dieHere s d = true ∧ mine ws = true ∧ (fieldAccept s d false ws).2 = true

/-- The state once a field die has accepted a downstream message. -/
def afterDown (s : State) (d : Die) (ws : List Nat) : State := (fieldAccept s d false ws).1

/-- A CMD of a code reaches a powered field die, which accepts it and has not acted on it before (R327, R329, R331). -/
def heardCmd (s : State) (d : Die) (m : CmdCopy) (code : Nat) : Prop :=
  heardDown s d m.words (isCmd code) ∧ repeatOf (afterDown s d m.words) d m = none

/-- The state once a field die has noted the result of a CMD and answered it (R331). -/
def answered (s : State) (d : Die) (m : CmdCopy) (r : Nat) : State := ackSend (noteDid s d m r) d m.words r

/-- A message of a type reaches a powered field die on its twin lanes and is accepted (R346). -/
def heardTwin (s : State) (d : Die) (ws : List Nat) (type : Nat) : Prop :=
  dieHere s d = true ∧ msgType ws = type ∧ (fieldAccept s d true ws).2 = true

/-- The state once a field die has accepted a twin message. -/
def afterTwin (s : State) (d : Die) (ws : List Nat) : State := (fieldAccept s d true ws).1

/-- A message of a type reaches the host die from a barrier and is accepted (R327, R329). -/
def heardUp (s : State) (d : Die) (ws : List Nat) (type : Nat) : Prop :=
  live s = true ∧ diePresent s d = true ∧ msgType ws = type ∧ (hostAccept s d ws).2 = true

/-- The state once the host die has accepted an upstream message. -/
def afterUp (s : State) (d : Die) (ws : List Nat) : State := (hostAccept s d ws).1

/-- A message of a type reaches link `l`, and this member takes it as one for itself (R455, R456). -/
def heardStack (s : State) (l : Nat) (ws : List Nat) (type : Nat) : Prop :=
  live s = true ∧ smType ws = type ∧ (stkTake s l ws).2 = true

/-- The state once a stack message has been taken: what it passed on and noted is done. -/
def afterStack (s : State) (l : Nat) (ws : List Nat) : State := (stkTake s l ws).1

/-- Rod `g` as an issue finds it: the results that land first have landed (R149). -/
def atIssue (s : State) (g : Nat) : State := landBefore s g ((rodAt s g).n + 2)

/-- Rod `g` issues `op` next, its moves meet no failure, and `op` stands where R150 allows it. -/
def clean (s : State) (g : Nat) (op : RodOp) : Prop :=
  live s = true ∧ issues s g op = true ∧
    (restricted op = true → (rodAt (atIssue s g) g).slots = 0 ∧ (rodAt (atIssue s g) g).repeating = false ∧
      inLoopTail (rodAt (atIssue s g) g) = false) ∧
    (gatherMoves (atIssue s g) g op (nextWord (rodAt (atIssue s g) g))).1.fail = none ∧
    (gatherMoves (atIssue s g) g op (nextWord (rodAt (atIssue s g) g))).2.fail = none

/-- The moves of the instruction that rod `g` issues. -/
def movesOf (s : State) (g : Nat) (op : RodOp) : Gather × Gather :=
  gatherMoves (atIssue s g) g op (nextWord (rodAt (atIssue s g) g))

/-- What the instruction that rod `g` issues reads. -/
def readsOf (s : State) (g : Nat) (op : RodOp) : RodEnv :=
  envOf (rodAt (atIssue s g) g) (nextWord (rodAt (atIssue s g) g)) (movesOf s g op).1.taps (movesOf s g op).2.taps

/-- The state after rod `g` has issued `op` with a result, `r` being the rod with its next address: the results of the
operation and of its moves are in the pipeline, and the issue is counted (R149, R177). -/
def issued (s : State) (g : Nat) (op : RodOp) (x : RodResult) (r : Rod) : State :=
  countIssue (setRod (atIssue s g) g (addWrites r
    (resultWrites (rodAt (atIssue s g) g).n x ++ (movesOf s g op).1.writes ++ (movesOf s g op).2.writes))) g
    ((movesOf s g op).1.frame ++ (movesOf s g op).2.frame)

/-- The state after rod `g` has issued an operation that leaves the sequence alone. -/
def ran (s : State) (g : Nat) (op : RodOp) (eff : RodEnv → RodResult) : State :=
  issued s g op (eff (readsOf s g op)) (advance (rodAt (atIssue s g) g))

/-- The command that issues an operation on a rod. -/
def issueOf (g : Fin 64) : RodOp → Instr
  | .nop => .rodNop g
  | .ldi => .rodLdi g
  | .movr => .rodMovr g
  | .add => .rodAdd g
  | .sub => .rodSub g
  | .addi => .rodAddi g
  | .subi => .rodSubi g
  | .cmp => .rodCmp g
  | .and => .rodAnd g
  | .or => .rodOr g
  | .xor => .rodXor g
  | .not => .rodNot g
  | .asl => .rodAsl g
  | .asr => .rodAsr g
  | .lsl => .rodLsl g
  | .lsr => .rodLsr g
  | .abs => .rodAbs g
  | .neg => .rodNeg g
  | .min => .rodMin g
  | .max => .rodMax g
  | .amax => .rodAmax g
  | .clr => .rodClr g
  | .mova => .rodMova g
  | .adda => .rodAdda g
  | .suba => .rodSuba g
  | .nega => .rodNega g
  | .absa => .rodAbsa g
  | .shla => .rodShla g
  | .shra => .rodShra g
  | .rnda => .rodRnda g
  | .sata => .rodSata g
  | .lda => .rodLda g
  | .ldal => .rodLdal g
  | .ext => .rodExt g
  | .extl => .rodExtl g
  | .extg => .rodExtg g
  | .tsta => .rodTsta g
  | .mpy => .rodMpy g
  | .mac => .rodMac g
  | .msu => .rodMsu g
  | .mpy2 => .rodMpy2 g
  | .mac2 => .rodMac2 g
  | .msu2 => .rodMsu2 g
  | .mpyx => .rodMpyx g
  | .macx => .rodMacx g
  | .tap => .rodTap g
  | .tap2 => .rodTap2 g
  | .tapm => .rodTapm g
  | .exp => .rodExp g
  | .bexp => .rodBexp g
  | .norm => .rodNorm g
  | .divs => .rodDivs g
  | .rep => .rodRep g
  | .loop => .rodLoop g
  | .endl => .rodEndl g
  | .b => .rodB g
  | .call => .rodCall g
  | .ret => .rodRet g
  | .rti => .rodRti g
  | .trap => .rodTrap g
  | .endPass => .rodEnd g

/-- Two rods that differ at most in the cycle they stand at and in the banks they wait for (R142). -/
def sameButBanks (r r' : Rod) : Prop := ∃ c w, r' = { r with cyc := c, wants := w }

/-- A register whose write has an effect beside its fields' own access codes, or is taken only in part: those that commands
of their own write, the selector's and the collector's, and those that a state of their unit can refuse (R15, R420). -/
def writeActs (a : Nat) : Bool :=
  (sharedWrite a).isSome || (decide (0x2000 ≤ a) && decide (a < 0x3000)) || (decide (0x4000 ≤ a) && decide (a < 0x5000)) ||
  (decide (Reg.HIF_QP_SQ_LO 0 ≤ a) && decide (a < 0x2000)) ||
  (decide (Reg.BOOT_MB_ADDR_LO ≤ a) && decide (a ≤ Reg.BOOT_MB_STAT)) ||
  (decide (Reg.MTX_PRI_LO 0 ≤ a) && decide (a < Reg.MTX_PRI_LO 24)) ||
  [Reg.SYS_LOCK, Reg.SYS_BLKCFG, Reg.SYS_PIPE, Reg.SYS_ECC_CE_ROD, Reg.SYS_ECC_CE_FRAME, Reg.SYS_ECC_CE_GSRAM,
    Reg.SYS_ECC_CE_DRAM, Reg.SYS_ECC_CE_BRASS, Reg.HIF_KICK, Reg.TIME_RATE, Reg.TIME_ADJ_GO, Reg.TIME_CTRL, Reg.EVR_HOST,
    Reg.EVR_CLEAR, Reg.MGT_ATTN, Reg.MGT_ADDR, Reg.STK_CTRL, Reg.MTX_ERR_INFO, Reg.STR_CLR, Reg.FAB_STAT,
    Reg.FAB_MISS_CNT, Reg.MIX_CLIPCNT, Reg.MIX_MCLR, Reg.MIX_DR_ENGAGE_LO, Reg.MIX_DR_ENGAGE_HI, Reg.SNP_FIRE,
    Reg.SNP_HOLD, Reg.SNP_MATCH_CTRL, Reg.BAR_CNT_CLR 0, Reg.BAR_CNT_CLR 1].contains a ||
  (copyAt Reg.NET_CNT_CLR 8 a).isSome || (copyAt Reg.TDM_STAT 16 a).isSome || (copyAt Reg.TDM_RAW_CTRL 16 a).isSome ||
  (List.range 16).any (fun n => decide (Reg.TDM_RATE n ≤ a) && decide (a ≤ Reg.TDM_CHBASE n)) ||
  (copyAt Reg.BPH_RX_STAT 16 a).isSome || (copyAt Reg.BPH_RX_RATE 16 a).isSome || (copyAt Reg.BPH_TX_CSGO 16 a).isSome ||
  (copyAt (rodReg Reg.ROD_CTRL) 64 a).isSome || (copyAt Reg.MSIX_VCTRL 64 a).isSome

/-- What a field holds after a write of its register, by its access code: RW takes the value written, RWL does so while
SYS_LOCK is clear, W1C clears the bits written as 1, RO and WO keep what they hold (R15). -/
def fieldAfter (f : FieldRow) (locked : Bool) (old new : Word) : Nat :=
  match f.acc with
  | .rw => fldGet ⟨f.lo, f.width⟩ new
  | .rwl => if locked then fldGet ⟨f.lo, f.width⟩ old else fldGet ⟨f.lo, f.width⟩ new
  | .w1c => fldGet ⟨f.lo, f.width⟩ (old &&& ~~~new)
  | .ro | .wo => fldGet ⟨f.lo, f.width⟩ old

/-- Every register but those named holds what it held. -/
def regsKept (s t : State) (but : List Nat) : Prop := ∀ a, a ∉ but → rd t a = rd s a

/-- The memories of the device and of the host hold what they held. -/
def memoriesKept (s t : State) : Prop :=
  t.gsram = s.gsram ∧ t.dram = s.dram ∧ t.frameMem = s.frameMem ∧ t.flash = s.flash ∧ t.hostMem = s.hostMem

end Sys2Proof.Safety
end

