-- ==== Sys2Proof/Certificates/Slice0/Obligations.lean ====
section
/-! DEFINITION. The statements for the provers. -/

open Sys2Proof Sys2Proof.Machine Sys2Proof.Safety

/-- Right after power-on nothing waits and nothing was sent, the memories list nothing and have their canonical form,
and every register of BAR0 reads its table's reset value: the bus priorities of Table 01-10, the candidates'
bandwidth codes, the clock bits. The field dies are powered and UNSEALED with every gate low, and no queue pair is
on. That the model starts with power present, and the priority of the listing where the tables give no value, are
its own choices (log entries 13, 53, 60 and 61). (R23, R46, R79, R342, R421, R564) -/
def Obligations.ResetState : Prop :=
  State.reset.powered = true ∧ State.reset.pending = [] ∧ State.reset.sent = [] ∧ Memory.wf State.reset = true ∧
  (∀ a, rd State.reset a = hostReset a) ∧ (∀ a, gsGet State.reset a = 0) ∧ (∀ a, drGet State.reset a = 0) ∧
  rget State.reset (Reg.MTX_PRI_LO 0) ⟨0, 4⟩ = 12 ∧ rget State.reset (Reg.MTX_PRI_LO 8) ⟨0, 4⟩ = 12 ∧
  rget State.reset (Reg.REF_CAND 4) F.REF_CAND_BW = 5 ∧ rget State.reset (Reg.REF_CAND 5) F.REF_CAND_BW = 15 ∧
  (rd State.reset Reg.CLK_STAT).toNat = 7 ∧
  (∀ d : Die, fldState State.reset d = fdUnsealed ∧ (dieAt State.reset d).on = true) ∧
  (∀ (d : Die) (c : Nat), (fch State.reset d c).driven = false) ∧
  (∀ q, qpAt State.reset q = qpReset q)

/-- In every state whose registers, GSRAM, DRAM, frame SRAM, flash, host memory and rods are listed in their canonical
form (keys rising, nothing listed that an unlisted key reads as), whatever command waits, the next state has the
form too. So equal memories are equal data, and a read after a write gives what was written. (R41, R101, R142, R420,
R442) -/
def Obligations.MemoryFormKept : Prop :=
  ∀ s t : State, Memory.wf s = true → step s = .next t → Memory.wf t = true

/-- Stepping a state with a command at the front of its queue is running that command on the state with the rest of the
queue. The spec names no queue: taking waiting commands first in, first out is the model's form (log entry 1).
(R420) -/
def Obligations.StepRunsFront : Prop :=
  ∀ (c : Instr) (s : State), step { s with pending := c :: s.pending } = exec c s

/-- A powered device with nothing waiting and XO_IN running adds one to the time counter modulo 2^64 and counts its
operating time; while XO_IN is lost the counter holds and the operating time counts on. Without power only FAULT_N
stops being driven. That a tick passes when nothing waits, and that FAULT_N is driven for one idle cycle after power
was lost, are the model's choices (log entries 1 and 169). In any powered state, recovery mode included, losing
XO_IN stops the counter, clears TIME_STAT.VALID and CLK_STAT.XO_OK and raises CLK source 0x040; its return sets
XO_OK. MSYN_LOCK and TIME_PLL_LOCK follow their synthesizers, whose loss raises 0x041 and 0x042. Nothing else
changes before the raise. A lost candidate among 0 to 5 is inactive and, if it was qualified, is disqualified with
DISQ and its REF source; a return makes it active; the activity of a biphase candidate is its receiver's LOCK, so
these events leave it as it is. A frequency gate of a candidate other than NET and STACK stores the offset and
disqualifies beyond the limit in force. A candidate that has met ACCEPT for QUAL_TIME becomes qualified and the
selector runs again; before that nothing happens. Where reversion is on, a better eligible candidate takes the
selection once it has been qualified for REVERT_WAIT, and not before. (R62, R63, R492, R93, R73, R74, R75, R76,
R120) -/
def Obligations.ClocksAndReferencesComplete : Prop :=
  ((∀ s : State, s.pending = [] → s.powered = true → s.time.xoLost = false →
    step s = .next { s with recorder := countOptime s.recorder, time := { s.time with cnt := (s.time.cnt + 1) % 2 ^ 64 } }) ∧
  (∀ s : State, s.pending = [] → s.powered = true → s.time.xoLost = true →
    step s = .next { s with recorder := countOptime s.recorder }) ∧
  (∀ s : State, s.pending = [] → s.powered = false → step s = .next (rclr s Reg.FLT_STAT F.FLT_STAT_FAULT_N_LOW))) ∧
  ((∀ s : State, s.powered = true → exec .xoInLost s =
    .next (raise (rclr (rclr (settleCredits { s with time := { s.time with xoLost := true } }) Reg.TIME_STAT F.TIME_STAT_VALID)
      Reg.CLK_STAT F.CLK_STAT_XO_OK) 0x040 noInst 0)) ∧
  (∀ s : State, s.powered = true → exec .xoInReturn s =
    .next (rset { s with time := { s.time with xoLost := false } } Reg.CLK_STAT F.CLK_STAT_XO_OK)) ∧
  (∀ (b : Bool) (s : State), s.powered = true → exec (.msynOutOfLock b) s =
    .next (if b then rset s Reg.CLK_STAT F.CLK_STAT_MSYN_LOCK
      else raise (rclr s Reg.CLK_STAT F.CLK_STAT_MSYN_LOCK) 0x041 noInst 0)) ∧
  (∀ (b : Bool) (s : State), s.powered = true → exec (.timePllOutOfLock b) s =
    .next (if b then rset s Reg.CLK_STAT F.CLK_STAT_TIME_PLL_LOCK
      else raise (rclr s Reg.CLK_STAT F.CLK_STAT_TIME_PLL_LOCK) 0x042 noInst 0))) ∧
  ((∀ (c : Fin 22) (s u v : State), live s = true → c.val < 6 →
    u = noteCands (rclr s (Reg.REF_CSTAT c) F.REF_CSTAT_ACTIVE) →
    ron u (Reg.REF_CSTAT c) F.REF_CSTAT_QUALIFIED = true →
    v = { u with loop := { u.loop with qualSince := u.loop.qualSince.filter (fun p => p.1 != c.val) } } →
    exec (.refActivityLost c) s = .next (reselect (raise (rset (rclr v
      (Reg.REF_CSTAT c) F.REF_CSTAT_QUALIFIED) (Reg.REF_CSTAT c) F.REF_CSTAT_DISQ) (0x080 + c.val) c.val 0))) ∧
  (∀ (c : Fin 22) (s u : State), live s = true → c.val < 6 → u = noteCands (rclr s (Reg.REF_CSTAT c) F.REF_CSTAT_ACTIVE) →
    ron u (Reg.REF_CSTAT c) F.REF_CSTAT_QUALIFIED = false → exec (.refActivityLost c) s = .next u) ∧
  (∀ (c : Fin 22) (s : State), live s = true → c.val < 6 →
    exec (.refActivityRestored c) s = .next (noteCands (rset s (Reg.REF_CSTAT c) F.REF_CSTAT_ACTIVE))) ∧
  (∀ (c : Fin 22) (s : State), 6 ≤ c.val →
    exec (.refActivityLost c) s = .next s ∧ exec (.refActivityRestored c) s = .next s) ∧
  (∀ (c : Fin 22) (x : Int) (s u : State), live s = true → c.val ≠ 4 ∧ c.val ≠ 5 → u = noteCands (rputI s (Reg.REF_CSTAT c) F.REF_CSTAT_FOFS x) →
    exec (.refFrequencyGate c x) s = .next
      (if 10 * max (rget u Reg.REF_LIMITS F.REF_LIMITS_REJECT) (rget u Reg.REF_LIMITS F.REF_LIMITS_ACCEPT) < fofsAbs u c
       then disqualify u c else u)) ∧
  (∀ (c : Fin 22) (l : List (Nat × Nat)) (s : State), live s = true → candEnabled s c = true →
    ron s (Reg.REF_CSTAT c) F.REF_CSTAT_ACTIVE = true →
    fofsAbs s c ≤ 10 * rget s Reg.REF_LIMITS F.REF_LIMITS_ACCEPT →
    ron s (Reg.REF_CSTAT c) F.REF_CSTAT_STEP_REFUSED = false →
    ron s (Reg.REF_CSTAT c) F.REF_CSTAT_QUALIFIED = false →
    stoodFor s s.loop.goodSince c (qualTicks s c) = true →
    l = (c.val, s.time.cnt) :: s.loop.qualSince.filter (fun p => p.1 != c.val) →
    exec (.refQualified c) s = .next (reselect (rset { s with loop := { s.loop with qualSince := l } }
      (Reg.REF_CSTAT c) F.REF_CSTAT_QUALIFIED))) ∧
  (∀ (c : Fin 22) (s : State), live s = true → stoodFor s s.loop.goodSince c (qualTicks s c) = false →
    exec (.refQualified c) s = .next s) ∧
  (∀ (c : Fin 22) (s : State), live s = true → ron s Reg.REF_CTRL F.REF_CTRL_EN = true →
    ron s Reg.REF_CTRL F.REF_CTRL_MODE = false → ron s Reg.REF_CTRL F.REF_CTRL_REVERT = true →
    candEligible s c = true → selected s ≠ noCand →
    stoodFor s s.loop.qualSince c (393216000 * rget s Reg.REF_LIMITS F.REF_LIMITS_REVERT_WAIT) = true →
    rget s (Reg.REF_CAND (selected s)) F.REF_CAND_PRIO < rget s (Reg.REF_CAND c) F.REF_CAND_PRIO →
    exec (.revertWaitExpiry c) s = .next (rput s Reg.REF_STAT F.REF_STAT_SEL c.val)) ∧
  (∀ (c : Fin 22) (s : State), live s = true →
    stoodFor s s.loop.qualSince c (393216000 * rget s Reg.REF_LIMITS F.REF_LIMITS_REVERT_WAIT) = false →
    exec (.revertWaitExpiry c) s = .next s))

/-- POWER_ON resets the whole host die, brass island included, and takes MY_ID from the straps; the field dies, the host
memory and what was sent stay. POWER_DOWN leaves every register but the driven FAULT_N at its reset value. RST_N and
HOST_RAIL_MONITOR reset the host die but keep device time, what the loop has learned and the DRAM stack, a die of
its own, and clear every memory of the host die; CHIP_RESET and the reset of a self-trip do the same for their
cause. That a reset clears the RAMs is the model's choice (log entry 13). (R23, R71, R478, R491, R548) -/
def Obligations.PowerAndResetComplete : Prop :=
  (∀ (k : Fin 8) (low : Bool) (s : State), ∃ t, exec (.powerOn k low) s = .next t ∧ t.powered = true ∧
    t.time = timeReset ∧ t.loop = loopReset ∧ t.collector = collectorReset ∧ t.dieA = s.dieA ∧ t.dieB = s.dieB ∧
    t.hostMem = s.hostMem ∧ t.sent = s.sent ∧ t.pending = s.pending ∧
    rget t Reg.STK_STAT F.STK_STAT_MY_ID = k.val ∧ t.gsram = [] ∧ t.rods = [] ∧ t.qps = []) ∧
  (∀ s : State, s.powered = true → ∃ t, exec .powerDown s = .next t ∧ t.powered = false ∧
    ron t Reg.FLT_STAT F.FLT_STAT_FAULT_N_LOW = true ∧ (∀ a, a ≠ Reg.FLT_STAT → rd t a = hostReset a) ∧
    t.flash = (spoilWork (releaseBalls s)).flash ∧ t.dieA = s.dieA ∧ t.dieB = s.dieB ∧ t.hostMem = s.hostMem ∧
    t.pending = s.pending) ∧
  (∀ (k : Fin 8) (low : Bool) (s : State), s.powered = true →
    ∃ t, exec (.rstN k low) s = .next t ∧ exec (.hostRailMonitor k low) s = .next t ∧ t.powered = true ∧
      t.time = { dropSteps s.time with ppsHigh := false } ∧ t.loop = keptLoop (spoilWork (releaseBalls s)) ∧ t.gsram = [] ∧ t.dram = s.dram ∧ t.frameMem = [] ∧
      t.rods = [] ∧ t.tallies = [] ∧ t.qps = [] ∧ t.dieA = s.dieA ∧ t.dieB = s.dieB ∧ t.flash = (spoilWork (releaseBalls s)).flash ∧
      t.hostMem = s.hostMem ∧ t.pending = s.pending) ∧
  (∀ (k : Fin 8) (low : Bool) (id : Nat) (s : State), s.powered = true → s.collector.chipReset = some id →
    exec (.chipReset k low) s = .next (hostDieReset s k low id false)) ∧
  (∀ (k : Fin 8) (low : Bool) (s : State), s.powered = true → s.collector.selfTripBusy = true →
    exec (.selfTripReset k low) s = .next (hostDieReset
      (resetRange (resetRange
        { s with collector := { s.collector with masks := [], flips := [], selfTripBusy := false } }
        Reg.FLT_CTRL (Reg.FLT_CTRL + 4)) Reg.FLT_THERM (Reg.FLT_THERM + 4)) k low fixedSource true))

/-- PERST_N and a Function Level Reset reset the endpoint: no queue pair, descriptor or posted buffer is left, every HIF
and MSI-X register reads its reset value, and the link is down. PERST_N stays low until it is released, when a fault
interrupt held meanwhile becomes pending. Leaving the link clears SPEED, WIDTH and BME and raises 0x480; a trained
link reports them, the host's BME, power state and BAR0 taking effect and the writes and interrupts that waited
going out, and raises 0x481 unless it trained at 16 GT/s on four lanes or retrained as it was; no link trains while
PERST_N is low or before ROM step 1 has ended. Clearing SPEED, WIDTH and BME is the model's choice (its log says
so). (R23, R419, R446, R447, R450, R451) -/
def Obligations.PcieLinkComplete : Prop :=
  (∀ s : State, s.powered = true → ∃ t, exec .perstN s = .next t ∧ t = { endpointReset s with perstLow := true } ∧
    t.pcieUp = false ∧ t.qps = [] ∧ t.diags = [] ∧ t.posted = [] ∧ t.doorbell = false ∧
    (∀ a, 0x1000 ≤ a ∧ a < 0x2000 ∨ 0xF0000 ≤ a ∧ a < 0xF9000 → rd t a = hostReset a)) ∧
  (∀ s : State, s.powered = true → s.perstLow = false →
    exec .functionLevelReset s = .next (pendHeld (endpointReset s))) ∧
  (∀ s : State, s.powered = true → s.perstLow = true →
    exec .perstNRelease s = .next (pendHeld { s with perstLow := false })) ∧
  (∀ s : State, s.powered = true → s.pcieUp = true →
    exec .pcieLinkDown s = .next (raise (rclr (rclr (rclr { s with pcieUp := false } Reg.HIF_STAT F.HIF_STAT_SPEED)
      Reg.HIF_STAT F.HIF_STAT_WIDTH) Reg.HIF_STAT F.HIF_STAT_BME) 0x480 noInst 0)) ∧
  (∀ (v : LinkSpeed) (w : LinkWidth) (ctl : PcieControl) (s u : State), s.powered = true → s.perstLow = false →
    s.boot.resetting = false →
    u = setControl { rput (rput s Reg.HIF_STAT F.HIF_STAT_SPEED (speedCode v)) Reg.HIF_STAT F.HIF_STAT_WIDTH (widthCode w)
      with pcieUp := true } ctl →
    exec (.pcieLinkTrained v w ctl) s = .next
      (if (s.pcieUp = true ∧ rget s Reg.HIF_STAT F.HIF_STAT_SPEED = speedCode v ∧
         rget s Reg.HIF_STAT F.HIF_STAT_WIDTH = widthCode w) ∨ v = .gen4 ∧ w = .x4
       then forEach (List.range 64) u msixPending
       else raise (forEach (List.range 64) u msixPending) 0x481 noInst 0)) ∧
  (∀ (v : LinkSpeed) (w : LinkWidth) (ctl : PcieControl) (s : State), s.perstLow = true ∨ s.boot.resetting = true →
    exec (.pcieLinkTrained v w ctl) s = .next s)

/-- A write of 1 locks and records LOCKED. A change of FS or BLK while stopped, to a rate that is not reserved and that
no pending tally forbids, is stored, the grid is aligned again, and the counts that follow the rate and the block
are made anew; at 192 kHz the channels 512 to 1,023 lose their owner first; while the pipeline runs any write of FS
and BLK is refused. RUN set while stopped starts the pipeline at the second boundary. Reading SYS_BLKIDX_LO latches
INDEX_HI. (R26, R56, R57, R97, R491) -/
def Obligations.SysComplete : Prop :=
  (∀ (w : Word) (s : State), hostMay s → fldGet F.SYS_LOCK_LOCK w = 1 → ron s Reg.SYS_LOCK F.SYS_LOCK_LOCK = false →
    exec (.sysLock w) s = .next (recordEvent (rset s Reg.SYS_LOCK F.SYS_LOCK_LOCK) 0x1845 0x3FF false 0)) ∧
  (∀ (w : Word) (s u : State), hostMay s → ron s Reg.SYS_LOCK F.SYS_LOCK_LOCK = false → running s = false →
    fldGet F.SYS_BLKCFG_REFUSED w = 0 → fldGet F.SYS_BLKCFG_FS w ≠ 3 →
    ¬(fldGet F.SYS_BLKCFG_FS w = rget s Reg.SYS_BLKCFG F.SYS_BLKCFG_FS ∧
      fldGet F.SYS_BLKCFG_BLK w = rget s Reg.SYS_BLKCFG F.SYS_BLKCFG_BLK) →
    u = rput (rput s Reg.SYS_BLKCFG F.SYS_BLKCFG_FS (fldGet F.SYS_BLKCFG_FS w)) Reg.SYS_BLKCFG F.SYS_BLKCFG_BLK
      (fldGet F.SYS_BLKCFG_BLK w) → threatens s u = false →
    exec (.sysBlkcfgWrite w) s = .next (countRate (refreshAllCounts (alignGrid (if fldGet F.SYS_BLKCFG_FS w = 2 then
      resetRange u (Reg.FAB_OWNER 512) (Reg.FAB_OWNER 1024) else u))))) ∧
  (∀ (w : Word) (s : State), hostMay s → ron s Reg.SYS_LOCK F.SYS_LOCK_LOCK = false → running s = true →
    fldGet F.SYS_BLKCFG_REFUSED w = 0 →
    exec (.sysBlkcfgWrite w) s = .next (rset s Reg.SYS_BLKCFG F.SYS_BLKCFG_REFUSED)) ∧
  (∀ (w : Word) (s u : State), hostMay s → u = rwrite s Reg.SYS_PIPE w → ron s Reg.SYS_PIPE F.SYS_PIPE_RUN = false →
    ron u Reg.SYS_PIPE F.SYS_PIPE_RUN = true → running u = false →
    exec (.pipeRunWrite w) s = .next { u with grid := { u.grid with startIn := some 2 } }) ∧
  (∀ (w : Word) (s u : State), hostMay s → u = rwrite s Reg.SYS_PIPE w → ron s Reg.SYS_PIPE F.SYS_PIPE_RUN = true →
    ron u Reg.SYS_PIPE F.SYS_PIPE_RUN = false →
    exec (.pipeRunWrite w) s = .next { u with grid := { u.grid with startIn := none } }) ∧
  (∀ s : State, hostMay s →
    exec .sysBlkidxLoRead s = .next (wr s Reg.SYS_BLKIDX_HI (BitVec.ofNat 32 (s.grid.index / 2 ^ 32))))

/-- A correctable error counts in its class, whose counter CLR clears; an uncorrectable word of frame SRAM, GSRAM or
DRAM is poisoned and raises its MEM source, the beads and tally records that lie in a word of GSRAM with it; one of
the brass RAM takes the waiting record that it held, counted as dropped; one of a rod's memory is met by the rod;
one of the supervisor's memory restarts the supervisor with 0x601; a good word changes nothing. A parity error in a
tag memory, and an uncorrectable error in the parameters of a bus, a tap or a route, raise their sources; of a
route, it disengages. A DRAM channel whose link fails raises its source. Where a rod's own access is reported, and
that DRAM channels follow one another, are the model's choices (log entries 70 and 71). (R41, R42, R56, R133, R242,
R475, R494) -/
def Obligations.MemoryErrorsComplete : Prop :=
  (∀ (c : MemClass) (u : Fin 2048) (a : Nat) (s : State), s.powered = true → u.val < (memSize c).2 → a < (memSize c).1 →
    exec (.patrolScrub (.mem c) u a .good) s = .next s ∧
    exec (.patrolScrub (.mem c) u a .correctable) s = .next (radd s (ecReg c) F.SYS_ECC_CE_ROD_COUNT 1)) ∧
  (∀ (u : Fin 2048) (a : Nat) (s : State) (m : SMap Bool), s.powered = true → u.val < 8 → a < 2097152 →
    m = mapSet (fun _ => false) (mapSet (fun _ => false) s.poison (framePoisonKey u (a / 8 * 2)) true) (framePoisonKey u (a / 8 * 2 + 1)) true →
    exec (.patrolScrub (.mem .frame) u a .uncorrectable) s = .next (raise { s with poison := m } (0x508 + u.val) noInst (a % 2 ^ 32))) ∧
  (∀ (u : Fin 2048) (a : Nat) (s : State) (m : SMap Bool), s.powered = true → u.val < 4 → a < 536870912 →
    m = mapSet (fun _ => false) (mapSet (fun _ => false) s.poison (dramPoisonKey (u.val * 2 ^ 27 + a / 8 * 2)) true) (dramPoisonKey (u.val * 2 ^ 27 + a / 8 * 2 + 1)) true →
    exec (.patrolScrub (.mem .dram) u a .uncorrectable) s = .next (raise { s with poison := m } (0x510 + u.val) noInst (a % 2 ^ 32))) ∧
  (∀ (b : Fin 2048) (a : Nat) (s : State), s.powered = true → b.val < 4 →
    exec (.patrolScrub .tags b a .uncorrectable) s = .next (tagParity s b)) ∧
  (∀ (b : Fin 2048) (a : Nat) (s : State), s.powered = true → b.val < 256 → exec (.patrolScrub .busParam b a .uncorrectable) s =
    .next (raise (fabMissing s clMix b (pget s P.MIX_BUS_OUT b)) 0x201 b 0)) ∧
  (∀ (r : Fin 2048) (a : Nat) (s : State), s.powered = true → r.val < 64 → exec (.patrolScrub .routeParam r a .uncorrectable) s =
    .next (raise (setEngaged s r false) 0x221 r 0)) ∧
  (∀ (k : Fin 2048) (a : Nat) (s : State), s.powered = true → exec (.patrolScrub .tapParam k a .uncorrectable) s =
    .next (raise (rput (fabMissing s clDelay k (pget s P.DLY_TAP_OUT k)) Reg.DLY_ERR_TAP F.DLY_ERR_TAP_TAP k) 0x242 k 0)) ∧
  (∀ (c : MemClass) (w : Word) (s : State), hostMay s → fldGet F.SYS_ECC_CE_ROD_CLR w = 1 →
    exec (.eccCeClr c w) s = .next (rclr s (ecReg c) F.SYS_ECC_CE_ROD_COUNT)) ∧
  (∀ (c : Fin 4) (s : State), s.powered = true →
    exec (.dramLinkFailure c) s = .next (raise s (0x514 + c.val) noInst 0)) ∧
  (∀ (u : Fin 2048) (a : Nat) (ks : List Nat) (s : State), s.powered = true → u.val < 8 → a < 4194304 →
    ks = [bankWord u (4 * (a / 8 * 2)), bankWord u (4 * (a / 8 * 2)) + 1] →
    exec (.patrolScrub (.mem .gsram) u a .uncorrectable) s = .next (raise (poisonedBeads (forEach ks
      { s with poison := ks.foldl (fun m k => mapSet (fun _ => false) m k true) s.poison } shadowBad) ks)
      (0x500 + u.val) noInst (a % 2 ^ 32))) ∧
  (∀ (a : Nat) (s u : State), s.powered = true → a < 262144 → a / 16 < s.recorder.buffer.length →
    u = { s with recorder := { s.recorder with buffer := s.recorder.buffer.eraseIdx (a / 16) } } →
    exec (.patrolScrub (.mem .brass) 0 a .uncorrectable) s = .next (raise (setBacklog (radd (rput u Reg.EVR_COUNT
      F.EVR_COUNT_RECORDS (rget u Reg.EVR_COUNT F.EVR_COUNT_RECORDS - 1)) Reg.EVR_BUF_DROP F.EVR_BUF_DROP_COUNT 1))
      0x518 noInst (a % 2 ^ 32))) ∧
  (∀ (u : Fin 2048) (a : Nat) (s : State), s.powered = true → u.val < 8 → a < 2 ^ 23 →
    exec (.patrolScrub (.mem .rod) u a .uncorrectable) s = .next (rodMemError s u a)) ∧
  (∀ (u : Fin 2048) (a : Nat) (s : State), s.powered = true → s.boot.supervisor = true →
    exec (.patrolScrub .supervisor u a .uncorrectable) s = .next (restartSupervisor s 0x601))

/-- A single request of an enabled, unfenced pair within its target, at a port where nothing waits, is granted at once
and its burst runs; one of a fenced master completes at once with its error captured and counted. A transaction a
target has taken and that is outstanding for MTX_TIMEOUT cycles is captured, and raises its master's source; before
that nothing happens. Writing 1 to MTX_ERR_INFO.VALID releases the capture and clears the count. (R47, R48, R51,
R52, R53, R58) -/
def Obligations.MatrixComplete : Prop :=
  (∀ (x : Fin 24) (r : BusReq) (n : Nat) (ecc : EccResult) (s u : State), s.powered = true →
    (portAt s x).waiting = [] → mapWf portReset s.ports = true → u = setPort s x { portAt s x with waiting := [] } →
    requestError u r.master x (r.addr + 64 * (r.beats.val + 1)) = 0 →
    exec (.busRequest x [r] n ecc) s =
      .next (runBurst (setPort (setPort u x { portAt u x with waiting := [(r, 0)] }) x ⟨[], r.master⟩) x r ecc)) ∧
  (∀ (x : Fin 24) (r : BusReq) (n : Nat) (ecc : EccResult) (s u : State), s.powered = true →
    (portAt s x).waiting = [] → mapWf portReset s.ports = true → u = setPort s x { portAt s x with waiting := [] } →
    requestError u r.master x (r.addr + 64 * (r.beats.val + 1)) = 3 →
    exec (.busRequest x [r] n ecc) s = .next (captureError u r.master x 3)) ∧
  (∀ (m : Fin 16) (x : Fin 24) (a n : Nat) (s : State), s.powered = true → timeoutCycles s ≤ n →
    (portAt s x).waiting = [] →
    exec (.matrixTimeout m x ⟨a, n⟩) s = .next (raise (captureError s m x 2) (0x520 + m.val) m (a % 2 ^ 32))) ∧
  (∀ (m : Fin 16) (x : Fin 24) (a n : Nat) (s : State), n < timeoutCycles s → exec (.matrixTimeout m x ⟨a, n⟩) s = .next s) ∧
  (∀ (w : Word) (s : State), hostMay s → fldGet F.MTX_ERR_INFO_VALID w = 1 → exec (.mtxErrClear w) s =
    .next (rclr (rclr s Reg.MTX_ERR_INFO F.MTX_ERR_INFO_VALID) Reg.MTX_ERR_CNT F.MTX_ERR_CNT_COUNT))

/-- A write of any register whose fields have no effect of their own is taken under its access codes: an RW field takes
the value written, an RWL field does so while SYS_LOCK is clear, a W1C field loses the bits written as 1, an RO or
WO field and every bit outside the fields stay, and no other register changes. A write of REF_CTRL also runs the
selector again. In recovery mode only the BOOT block takes writes; the mailbox registers take none outside it. A
write that the bus matrix does not let through to the registers has no effect but its error. (R15, R16, R46, R53,
R420, R421, R514) -/
def Obligations.RegisterWriteComplete : Prop :=
  (∀ (a : Fin 262144) (w : Word) (s : State), hostMay s → writeActs (4 * a.val) = false → absentBlock s (4 * a.val) = false →
    exec (.registerWrite a w) s = .next (rwrite s (4 * a.val) w)) ∧
  (∀ (a : Nat) (r : RegRow) (f : FieldRow) (w : Word) (s : State), Memory.wf s = true → hostRow a = some r → f ∈ r.fields →
    fldGet ⟨f.lo, f.width⟩ (rd (rwrite s a w) a) = fieldAfter f (ron s Reg.SYS_LOCK F.SYS_LOCK_LOCK) (rd s a) w) ∧
  (∀ (a i : Nat) (r : RegRow) (w : Word) (s : State), Memory.wf s = true → hostRow a = some r →
    (∀ f ∈ r.fields, i < f.lo ∨ f.lo + f.width ≤ i) → (rd (rwrite s a w) a).getLsbD i = (rd s a).getLsbD i) ∧
  (∀ (a b : Nat) (w : Word) (s : State), Memory.wf s = true → b ≠ a → rd (rwrite s a w) b = rd s b) ∧
  (∀ (a : Nat) (w : Word) (s : State), hostRow a = none → rwrite s a w = s) ∧
  (∀ (w : Word) (s : State), hostMay s →
    exec (.registerWrite ⟨Reg.REF_CTRL / 4, by decide⟩ w) s = .next (afterRefWrite (rwrite s Reg.REF_CTRL w) Reg.REF_CTRL)) ∧
  (∀ (w : Word) (s : State), hostMay s →
    exec (.registerWrite ⟨Reg.BOOT_MB_OFFSET / 4, by decide⟩ w) s = .next s) ∧
  (∀ (a : Fin 262144) (w : Word) (s : State), s.powered = true → live s = false → a.val < 0x1800 →
    exec (.registerWrite a w) s = .next s) ∧
  (∀ (a : Fin 262144) (w : Word) (s : State), s.powered = true → live s = false → 0x1800 ≤ a.val → a.val < 0x1C00 →
    exec (.registerWrite a w) s = .next (rwrite s (4 * a.val) w)) ∧
  (∀ (a : Fin 262144) (w : Word) (s : State), live s = true → barOpen s = false →
    exec (.registerWrite a w) s = .next (requestFails s 9 20 (4 * a.val) (requestError s 9 20 0)))

/-- BLOCK_BOUNDARY ends a period and begins the next. The cycle's MATCH and stack carries join what else fires in it;
decisions are settled, the boundary's one carry is made, what the engines and ports owe is written and every bead
closed; then the index becomes that of the next boundary, the ordinal advances by one, tallies apply and the next
period's work begins; what the cycle raised is handled in the order of R476. In the state after the command, while
no configuration store is being loaded (its registers may set the grid anew), the index is that of the boundary
passed, and unless a start was due the ordinal is one more than it was; a start sets RUNNING and the ordinal to 0.
The order of the actions within the cycle is the model's choice (log entry 119). (R24, R25, R27, R28, R57, R257,
R272, R476) -/
def Obligations.BoundaryComplete : Prop :=
  (∀ s u v w x : State, live s = true →
    u = clearTimed (openCycle s (timedCauses s (boundaryAt s))) (boundaryAt s) →
    v = endPeriod (tallyCarry (settleTallies (gatherRaises u) (nextBoundary s)) (nextBoundary s)) →
    w = applyTallies (releaseUnits (startStop (advanceBlock v (nextBoundary s)))) (nextBoundary s) →
    x = flushRaises (beginPeriod w u.grid.index (rget u Reg.SYS_EPOCH F.SYS_EPOCH_EPOCH)) →
    exec .blockBoundary s = .next (finishTimed s (closeCycle raise s x (timedTag s (boundaryAt s))) (boundaryAt s))) ∧
  (∀ s : State, live s = true → s.boot.load = none → s.boot.settings = [] →
    ∃ t, exec .blockBoundary s = .next t ∧ t.grid.index = nextBoundary s ∧ (s.grid.startIn = none → t.grid.ordinal = s.grid.ordinal + 1)) ∧
  (∀ (s : State) (n : Nat), (advanceBlock s n).grid.index = n ∧ (advanceBlock s n).grid.ordinal = s.grid.ordinal + 1 ∧
    (advanceBlock s n).grid.extra = 0 ∧ (advanceBlock s n).grid.slew = slewAfter s.grid.slew 1 ∧
    (advanceBlock s n).grid.began = s.time.cnt ∧ busRead (advanceBlock s n) Reg.SYS_ORDINAL = (if
      ron (advanceBlock s n) Reg.BOOT_STAT F.BOOT_STAT_MODE = true then Config.deadRead Reg.SYS_ORDINAL else s.grid.ordinal + 1) ∧
    (advanceBlock s n).gsram = s.gsram ∧ (advanceBlock s n).rods = s.rods ∧ (advanceBlock s n).dram = s.dram) ∧
  (∀ s : State, running s = false → s.grid.startIn = some 1 →
    ∃ t, startStop s = rset t Reg.SYS_PIPE F.SYS_PIPE_RUNNING ∧ t.grid.ordinal = 0 ∧ t.grid.startIn = none)

/-- The first update of a selected candidate starts acquisition with its error built out; an update of the candidate the
loop follows runs the filter on the error with the build-out removed. A clean dwell of 5 / (bandwidth in force)
seconds narrows the bandwidth by one code; before its end nothing happens. In HOLDOVER the steer follows the
prediction of R88. The hourly refit runs. A temperature reading of the selected source is stored, the one before it
kept for the averages of a LOCKED loop, and an open diode shows in XO_TEMP_BAD whatever is selected. (R77, R80, R82,
R84, R88, R89, R90) -/
def Obligations.LoopComplete : Prop :=
  (∀ (x : Int) (rate : Nat) (s : State), live s = true → selected s ≠ noCand → loopState s = stFreeRun →
    exec (.loopUpdate x rate) s = .next (startAcquire s (selected s) rate
      (reducePhase s (selected s) (x + rgetI s Reg.REF_POFS F.REF_POFS_POFS * 65536)))) ∧
  (∀ (x : Int) (rate : Nat) (s : State), live s = true → selected s ≠ noCand →
    loopState s = stAcquiring ∨ loopState s = stLocked → s.loop.cand = selected s →
    exec (.loopUpdate x rate) s = .next (filterUpdate s (selected s) rate
      (reducePhase s (selected s) (x + rgetI s Reg.REF_POFS F.REF_POFS_POFS * 65536 - decayBuildout s (selected s)))
      (decayBuildout s (selected s)))) ∧
  (∀ s : State, live s = true → s.loop.fast = true → loopState s = stAcquiring → s.loop.dwellBad = false →
    5000 * 393216000 ≤ (s.time.cnt - s.loop.dwellAt) * bandwidthMilli s.loop.bw → s.loop.bw ≠ 0 →
    exec .fastAcquireDwellEnd s = .next (rput
      { s with loop := { s.loop with
        dwellBad := false, goodRun := 0, bw := s.loop.bw - 1, dwellAt := s.time.cnt,
        fast := decide (s.loop.bw - 1 > min 18 (rget s (Reg.REF_CAND s.loop.cand) F.REF_CAND_BW)) } }
      Reg.REF_STAT F.REF_STAT_BW_NOW (s.loop.bw - 1))) ∧
  (∀ s : State, live s = true → (s.time.cnt - s.loop.dwellAt) * bandwidthMilli s.loop.bw < 5000 * 393216000 →
    exec .fastAcquireDwellEnd s = .next s) ∧
  (∀ s : State, live s = true → loopState s = stHoldover →
    exec .holdoverEvaluation s = .next (setSteer s (holdoverSteer s))) ∧
  (∀ s : State, live s = true → Memory.wf s = true → ∃ t, exec .ageingRefit s = .next t ∧ t.loop.hours = s.loop.hours + 1 ∧
    t.loop.hourN = 0 ∧ t.loop.hourSum = 0 ∧ regsKept s t [Reg.REF_AGE] ∧ memoriesKept s t) ∧
  (∀ (die v : BitVec 16) (s u : State), live s = true →
    u = { s with loop := { s.loop with temps := s.loop.temps ++
      (if loopState s = stLocked then [(rgetI s Reg.REF_TEMP F.REF_TEMP_THETA, s.time.cnt)] else []) } } →
    exec (.temperatureReading die (some v)) s = .next (rclr (rput u Reg.REF_TEMP F.REF_TEMP_THETA
      (if ron s Reg.REF_TEMP F.REF_TEMP_SRC then v else die).toNat) Reg.REF_TEMP F.REF_TEMP_XO_TEMP_BAD)) ∧
  (∀ (die : BitVec 16) (s u : State), live s = true → ron s Reg.REF_TEMP F.REF_TEMP_XO_TEMP_BAD = false →
    u = { s with loop := { s.loop with temps := s.loop.temps ++
      (if loopState s = stLocked then [(rgetI s Reg.REF_TEMP F.REF_TEMP_THETA, s.time.cnt)] else []) } } →
    exec (.temperatureReading die none) s = .next (raise (rset (rput u Reg.REF_TEMP F.REF_TEMP_THETA die.toNat)
      Reg.REF_TEMP F.REF_TEMP_XO_TEMP_BAD) 0x09C noInst 0)) ∧
  (∀ (w : Word) (s : State), hostMay s → exec (.refPstep w) s = .next
    (rset { rputI s Reg.REF_POFS F.REF_POFS_POFS (max (-(2 ^ 31 - 1)) (min (2 ^ 31 - 1)
        (rgetI s Reg.REF_POFS F.REF_POFS_POFS + fldGetInt F.REF_PSTEP_X w))) with
      loop := { s.loop with pstepBusy := true } } Reg.REF_STAT F.REF_STAT_PSTEP_BUSY))

/-- A rate within 250 ppm is taken with a re-base, the credits of the queues brought up to it first, while TIME_FOLLOW
is 0; a larger one sets RATE_REFUSED and raises 0x0C2. An accepted TIME_ADJ_GO or TIME_SET waits as a request, one
of each origin at a time; the step unit applies a step that is within TIME_JUMP_MAX, and refuses a larger one, with
force neither asked for nor armed, with JUMP_REFUSED and 0x0C0. FORCE is armed by a write and clears itself one
second later. The RESULT of a TIME_SET is the signed step in nanoseconds. Reading TIME_NOW_FRAC, TIME_CNT_LO or
TIME_BASE_CNT_LO latches every field of one tick. The first tick of a whole second plus OFS raises PPS_OUT once
where its gates hold, for WIDTH milliseconds, and the pulse ends when they are over. (R64, R66, R67, R68, R69, R70,
R65, R92, R95) -/
def Obligations.TimeComplete : Prop :=
  ((∀ (w : Word) (s u : State), hostMay s → ron s Reg.REF_CTRL F.REF_CTRL_TIME_FOLLOW = false →
    w.toInt.natAbs ≤ 274877907 → u = settleCredits s → exec (.timeRateWrite w) s =
      .next (rputI { u with time := { u.time with ofs := timeWrap (now s + 0), base := u.time.cnt } }
        Reg.TIME_RATE F.TIME_RATE_RHO w.toInt)) ∧
  (∀ (w : Word) (s : State), hostMay s → ron s Reg.REF_CTRL F.REF_CTRL_TIME_FOLLOW = false →
    274877907 < w.toInt.natAbs → exec (.timeRateWrite w) s =
      .next (raise (rset s Reg.TIME_STAT F.TIME_STAT_RATE_REFUSED) 0x0C2 noInst w.toNat)) ∧
  (∀ (w : Word) (s : State), hostMay s → fldGet F.TIME_ADJ_GO_GO w = 1 → fldGet F.TIME_ADJ_GO_ABS w = 0 →
    ron s Reg.TIME_STAT F.TIME_STAT_ADJ_BUSY = false → exec (.timeAdjGo w) s =
      .next (rset { s with time := { s.time with steps := s.time.steps ++ [⟨.adj, false,
        rgetI s Reg.TIME_ADJ_NS F.TIME_ADJ_NS_NS * 65536 + rget s Reg.TIME_ADJ_FRAC F.TIME_ADJ_FRAC_FRAC, false, none⟩] } }
        Reg.TIME_STAT F.TIME_STAT_ADJ_BUSY)) ∧
  (∀ (w : Word) (s u : State), hostMay s → u = rwrite s Reg.TIME_CTRL w → exec (.force w) s =
    .next (if fldGet F.TIME_CTRL_FORCE w = 1 then { u with time := { u.time with forceAt := s.time.cnt } } else u)) ∧
  (∀ s : State, s.powered = true → exec .forceExpiry s =
    .next (if s.time.forceAt + 393216000 ≤ s.time.cnt then rclr s Reg.TIME_CTRL F.TIME_CTRL_FORCE else s)) ∧
  (∀ (s : State) (v : Int) (d : DescRef) (rest : List StepReq), s.powered = true →
    s.time.steps = ⟨.timeSet, false, v, false, some d⟩ :: rest → ron s Reg.TIME_STAT F.TIME_STAT_VALID = true →
    v.natAbs ≤ rget s Reg.TIME_JUMP_MAX F.TIME_JUMP_MAX_NS * 65536 → rget s Reg.TIME_JUMP_MAX F.TIME_JUMP_MAX_NS ≠ 0 →
    exec .timeStepApply s = .next (finish (applyStep { s with time := { s.time with steps := rest } } v) d stOk
      (wrapTo 64 (Int.tdiv v 65536)))) ∧
  (∀ (s u : State) (v : Int) (d : DescRef) (rest : List StepReq), s.powered = true →
    s.time.steps = ⟨.timeSet, false, v, false, some d⟩ :: rest → ron s Reg.TIME_STAT F.TIME_STAT_VALID = true →
    ron s Reg.TIME_CTRL F.TIME_CTRL_FORCE = false →
    rget s Reg.TIME_JUMP_MAX F.TIME_JUMP_MAX_NS * 65536 < v.natAbs →
    u = rputI (rset { s with time := { s.time with steps := rest } } Reg.TIME_STAT F.TIME_STAT_JUMP_REFUSED)
      Reg.TIME_REFUSED_NS F.TIME_REFUSED_NS_DELTA (deltaNs v) →
    exec .timeStepApply s = .next (finish (raise u 0x0C0 noInst (wrapTo 32 (deltaNs v))) d stInvalidParam
      (wrapTo 64 (Int.tdiv v 65536)))) ∧
  (∀ (d : DescRef) (bs : List Byte) (s : State), ready s d 0x50 bs → par bs 8 0 1 = 0 → stepPending s .timeSet = false →
    exec (.timeSet d) s = .next { markAccepted s d with time := { s.time with steps := s.time.steps ++
      [⟨.timeSet, false, signed 64 (leAt bs 16 8) * 65536 + par bs 32 0 16, par bs 8 1 1 == 1, some d⟩] } }) ∧
  (∀ (d : DescRef) (bs : List Byte) (s : State), ready s d 0x50 bs → par bs 8 0 1 = 1 → par bs 24 0 30 ≤ 999999999 →
    stepPending s .timeSet = false →
    exec (.timeSet d) s = .next { markAccepted s d with time := { s.time with steps := s.time.steps ++
      [⟨.timeSet, true, mkTime (par bs 16 0 48) (par bs 24 0 30) + par bs 32 0 16, par bs 8 1 1 == 1, some d⟩] } })) ∧
  ((∀ s : State, hostMay s → exec .timeNowFracRead s = .next
    (rput (rput (rput (rput s Reg.TIME_NOW_FRAC F.TIME_NOW_FRAC_FRAC (timeFrac (now s)))
      Reg.TIME_NOW_NS F.TIME_NOW_NS_NS (timeNs (now s))) Reg.TIME_NOW_SEC_LO F.TIME_NOW_SEC_LO_SEC_LO (timeSec (now s)))
      Reg.TIME_NOW_SEC_HI F.TIME_NOW_SEC_HI_SEC_HI (timeSec (now s) / 2 ^ 32))) ∧
  (∀ s : State, hostMay s → exec .timeCntLoRead s = .next
    (rput (rput s Reg.TIME_CNT_LO F.TIME_CNT_LO_CNT_LO s.time.cnt) Reg.TIME_CNT_HI F.TIME_CNT_HI_CNT_HI
      (s.time.cnt / 2 ^ 32))) ∧
  (∀ s : State, hostMay s → exec .timeBaseCntLoRead s = .next
    (rput (rput (rput (rput (rput (rput s Reg.TIME_BASE_CNT_LO F.TIME_BASE_CNT_LO_BASE_LO s.time.base)
      Reg.TIME_BASE_CNT_HI F.TIME_BASE_CNT_HI_BASE_HI (s.time.base / 2 ^ 32))
      Reg.TIME_OFS_FRAC F.TIME_OFS_FRAC_FRAC (timeFrac s.time.ofs)) Reg.TIME_OFS_NS F.TIME_OFS_NS_NS (timeNs s.time.ofs))
      Reg.TIME_OFS_SEC_LO F.TIME_OFS_SEC_LO_SEC_LO (timeSec s.time.ofs))
      Reg.TIME_OFS_SEC_HI F.TIME_OFS_SEC_HI_SEC_HI (timeSec s.time.ofs / 2 ^ 32))) ∧
  (∀ s : State, s.powered = true → ppsGate s = true →
    timeAt s (s.time.cnt - 1) < ppsSecond s * secUnits + rgetI s Reg.TIME_PPS F.TIME_PPS_OFS * 65536 →
    (∀ j, s.time.ppsLast = some j → j < ppsSecond s) →
    exec .ppsPulse s = .next { s with time := { s.time with ppsLast := some (ppsSecond s), ppsHigh := true, ppsEnd := s.time.cnt + ppsTicks s } }) ∧
  (∀ s : State, s.powered = true → s.time.ppsEnd ≤ s.time.cnt →
    exec .ppsPulseEnd s = .next { s with time := { s.time with ppsHigh := false } }))

/-- A write by a channel's owner, to the buffer of this period while the pipeline runs, stores the sample and marks it
written, where the bus matrix takes the owner's requests; a write by another unit, the host or the supervisor is
discarded and counted with its channel and source 0x100; a write to another buffer is discarded with LATE and 0x101.
FAB_MISS_CNT.CLR clears the count, and a write of 0 there leaves it. (R53, R57, R101, R102, R134) -/
def Obligations.FabricComplete : Prop :=
  (∀ (cls : Fin 10) (inst : Fin 4096) (c : Fin 1024) (b : Fin 4) (j : Fin 32) (w : Word) (s : State), live s = true →
    j.val < blk s → owns s cls inst c = true → b.val = writeBuf s → running s = true →
    (∀ m, producerMaster cls inst = some m → fabError s m b c j = 0) →
    exec (.fabricWrite (some (cls, inst)) c b j w) s = .next (setChan (gsSet s (beadWord s b c j) w) c
      { chanAt s c with written := (chanAt s c).written ||| 2 ^ j.val })) ∧
  (∀ (cls : Fin 10) (inst : Fin 4096) (c : Fin 1024) (b : Fin 4) (j : Fin 32) (w : Word) (s : State), live s = true →
    j.val < blk s → owns s cls inst c = true → b.val ≠ writeBuf s →
    (∀ m, producerMaster cls inst = some m → fabError s m b c j = 0) →
    exec (.fabricWrite (some (cls, inst)) c b j w) s =
      .next (raise (rset s Reg.FAB_STAT F.FAB_STAT_LATE) 0x101 c 0)) ∧
  (∀ (cls : Fin 10) (inst : Fin 4096) (c : Fin 1024) (b : Fin 4) (j : Fin 32) (w : Word) (s : State), live s = true →
    j.val < blk s → owns s cls inst c = false →
    (∀ m, producerMaster cls inst = some m → fabError s m b c j = 0) →
    exec (.fabricWrite (some (cls, inst)) c b j w) s =
      .next (raise (radd (rput (rset s Reg.FAB_STAT F.FAB_STAT_NONOWNER) Reg.FAB_NONOWNER F.FAB_NONOWNER_LAST_CH c)
        Reg.FAB_NONOWNER F.FAB_NONOWNER_COUNT 1) 0x100 c 0)) ∧
  (∀ (c : Fin 1024) (b : Fin 4) (j : Fin 32) (w : Word) (s : State), live s = true → j.val < blk s →
    exec (.fabricWrite none c b j w) s =
      .next (raise (radd (rput (rset s Reg.FAB_STAT F.FAB_STAT_NONOWNER) Reg.FAB_NONOWNER F.FAB_NONOWNER_LAST_CH c)
        Reg.FAB_NONOWNER F.FAB_NONOWNER_COUNT 1) 0x100 c 0)) ∧
  (∀ (w : Word) (s : State), hostMay s → fldGet F.FAB_MISS_CNT_CLR w = 1 →
    exec (.fabMissClr w) s = .next (rclr s Reg.FAB_MISS_CNT F.FAB_MISS_CNT_COUNT)) ∧
  (∀ (w : Word) (s : State), hostMay s → fldGet F.FAB_MISS_CNT_CLR w = 0 → exec (.fabMissClr w) s = .next s)

/-- A write of TDM_CTRL with MODE 0 or 3 takes a running port that nothing holds OFF, with REFUSED where it would change
another field; with MODE 1 or 2, in OFF and with settings that R106 and R108 allow, it stores the fields and the
port is QUALIFYING. A running master sends the output sample of its bead; a running port takes a received frame, and
an edge wakes a LOST one. ARM clears the raw pointers and arms capture. (R107, R110, R111, R112, R114, R116, R117,
R119) -/
def Obligations.TdmComplete : Prop :=
  (∀ (n : Fin 16) (w : Word) (s u : State), hostMay s → fldGet F.TDM_CTRL_MODE w = 0 ∨ fldGet F.TDM_CTRL_MODE w = 3 →
    ptState s n ≠ ptOff → u = (if fldPut F.TDM_CTRL_MODE 0 ((w &&& 0x001F0FFF) ||| (rd s (Reg.TDM_CTRL n) &&& ~~~0x001F0FFF)) =
      fldPut F.TDM_CTRL_MODE 0 (rd s (Reg.TDM_CTRL n)) then s else rset s (Reg.TDM_STAT n) F.TDM_STAT_REFUSED) →
    portHeld u (ron u (Reg.TDM_STAT n) F.TDM_STAT_FENCED) (unitTdm n) = false →
    exec (.tdmModeWrite n w) s = .next (rput (rxOff (portLeft (rclr u (Reg.TDM_STAT n) F.TDM_STAT_FENCED) n) n)
      (Reg.TDM_CTRL n) F.TDM_CTRL_MODE (fldGet F.TDM_CTRL_MODE w))) ∧
  (∀ (n : Fin 16) (w : Word) (s u : State), hostMay s → ptState s n = ptOff →
    fldGet F.TDM_CTRL_MODE w = 1 ∨ fldGet F.TDM_CTRL_MODE w = 2 →
    u = wr s (Reg.TDM_CTRL n) (fldPut F.TDM_CTRL_MODE (fldGet F.TDM_CTRL_MODE (rd s (Reg.TDM_CTRL n)))
      ((w &&& 0x001F0FFF) ||| (rd s (Reg.TDM_CTRL n) &&& ~~~0x001F0FFF))) →
    portHeld u (ron u (Reg.TDM_STAT n) F.TDM_STAT_FENCED) (unitTdm n) = false →
    tdmFormatOk (rclr u (Reg.TDM_STAT n) F.TDM_STAT_FENCED) n (fldGet F.TDM_CTRL_MODE w) = true →
    exec (.tdmModeWrite n w) s = .next (setPtState (rput (rclr u (Reg.TDM_STAT n) F.TDM_STAT_FENCED) (Reg.TDM_CTRL n)
      F.TDM_CTRL_MODE (fldGet F.TDM_CTRL_MODE w)) n ptQualifying)) ∧
  (∀ (n : Fin 16) (j : Fin 32) (s : State), live s = true → ptState s n = ptRunning → isMaster s n = true →
    j.val < blk s → exec (.tdmMasterFrameStart n j) s = .next { s with
      sent := .tdmFrame n (tdmWave s n) (outSlots s n (outSample s (s.grid.index * (blk s : Int) + (j.val : Int)))) :: s.sent }) ∧
  (∀ (n : Fin 16) (pos : Int) (k : Nat) (ws : List Word) (s : State), live s = true → ptState s n = ptLost →
    exec (.tdmFrameReceive n pos k ws) s = .next (setPtState s n ptQualifying)) ∧
  (∀ (n : Fin 16) (pos : Int) (k nom : Nat) (ws : List Word) (s : State), live s = true → ptState s n = ptRunning →
    (rxAt s n).skip = false → nom = (rget s (Reg.TDM_CTRL n) F.TDM_CTRL_SLOTS + 1) * 32 →
    exec (.tdmFrameReceive n pos k ws) s = .next (tdmRunningFrame s n pos (k == nom) (decide (k < nom)) ws)) ∧
  (∀ (n : Fin 16) (w : Word) (s u : State), hostMay s → fldGet F.TDM_RAW_CTRL_ARM w = 1 →
    u = rclr (rclr (rwrite s (Reg.TDM_RAW_CTRL n) w) (Reg.TDM_RAW_WPTR n) F.TDM_RAW_WPTR_WPTR)
      (Reg.TDM_RAW_FRAMES n) F.TDM_RAW_FRAMES_FRAMES →
    exec (.tdmRawArm n w) s = .next (setRx u n { rxAt u n with rawArmed := true }))

/-- A QUALIFYING port that has met ACCEPT for QUAL gates in a row enters RUNNING; a running follower whose clock is lost
leaves for LOST with its source, and a biphase receiver loses LOCK and its candidate its activity; a gate stores the
offset and counts towards qualification while ACCEPT is met, and beyond REJECT ends RUNNING. A group's membership is
stored when R121 allows it and refused whole otherwise. A settled estimator sets LOCK with its ratio; a rate step
clears it with 0x1B0. (R109, R116, R120, R121, R123, R124, R130, R131) -/
def Obligations.PortStatesComplete : Prop :=
  (∀ (p : Fin 32) (s : State), live s = true → ptState s p = ptQualifying → isGridMaster s p = false →
    qualGates s ≤ (rxAt s p).gates → exec (.portQualified p) s = .next (enterRunning s p)) ∧
  (∀ (p : Fin 32) (s : State), live s = true → p.val < 16 → ptState s p = ptRunning → isMaster s p = false →
    exec (.portClockLost p) s =
      .next (dropOut (radd s (Reg.TDM_ERRCNT p) F.TDM_ERRCNT_LOST 1) p ptLost (0x140 + 4 * p.val))) ∧
  (∀ (p : Fin 32) (s u : State), live s = true → 16 ≤ p.val →
    u = followLock (rclr (setRx s p { rxAt s p with good := 0 }) (Reg.BPH_RX_STAT (p.val - 16)) F.BPH_RX_STAT_LOCK) (p.val - 16) →
    ptState u p = ptRunning → isMaster u p = false →
    exec (.portClockLost p) s = .next (dropOut u p ptLost (0x180 + (p.val - 16)))) ∧
  (∀ (p : Fin 32) (x : Int) (s u : State), live s = true → ptState s p = ptQualifying → isGridMaster s p = false →
    u = rputI s (ptFofs p) F.TDM_FOFS_FOFS x → exec (.portFrequencyGate p x) s = .next (setRx u p { rxAt u p with
      gates := if x.natAbs ≤ portAccept u p then (rxAt u p).gates + 1 else 0 })) ∧
  (∀ (p : Fin 32) (x : Int) (s u v : State), live s = true → ptState s p = ptRunning → isGridMaster s p = false →
    u = rputI s (ptFofs p) F.TDM_FOFS_FOFS x → ptAsrc u p = false →
    v = setRx u p { rxAt u p with gates := if x.natAbs ≤ portAccept u p then (rxAt u p).gates + 1 else 0 } →
    exec (.portFrequencyGate p x) s =
      .next (if portReject u p < x.natAbs then dropOut v p ptQualifying (windowSource p) else v)) ∧
  (∀ (g : Fin 8) (w : Word) (s : State), hostMay s → exec (.fabAgrpMemWrite g w) s = .next
    (if groupOk s g w then refreshGroup (wr (forEach ((List.range 32).filter (fun p => bitOf w.toNat p &&
        !bitOf (rd s (Reg.FAB_AGRP_MEM g)).toNat p)) s (fun s p => setRx s p { rxAt s p with been := false }))
        (Reg.FAB_AGRP_MEM g) w) g
     else rset s Reg.FAB_STAT F.FAB_STAT_GRP_REFUSED)) ∧
  (∀ (p : Fin 32) (x : Word) (s : State), live s = true → ptState s p = ptRunning → ptAsrc s p = true →
    exec (.asrcLock p true x) s =
      .next (wr (rset s (Reg.ASRC_STAT p) F.ASRC_STAT_LOCK) (Reg.ASRC_RATIO p) x)) ∧
  (∀ (p : Fin 32) (x : Word) (s : State), live s = true → ron s (Reg.ASRC_STAT p) F.ASRC_STAT_LOCK = true →
    exec (.asrcLock p false x) s = .next (raise (rclr s (Reg.ASRC_STAT p) F.ASRC_STAT_LOCK) 0x1B0 noInst 0))

/-- Clearing EN takes a receiver or a transmitter OFF; setting it in OFF with settings that the rules allow starts it. A
frame with a valid preamble wakes a LOST receiver and is taken, as is one in QUALIFYING or RUNNING. Reading
BPH_RX_CSSEQ copies the latched blocks. A running transmitter sends its next frame; CSGO asks for a copy at the next
Z preamble. (R116, R124, R127, R128, R129, R136) -/
def Obligations.BiphaseComplete : Prop :=
  (∀ (n : Fin 16) (w : Word) (s u : State), hostMay s → ptState s (16 + n.val) ≠ ptOff →
    portHeld s (rxAt s (16 + n.val)).fenced (unitBph n) = false → fldGet F.BPH_RX_CTRL_EN w = 0 →
    u = setRx s (16 + n.val) { rxAt s (16 + n.val) with fenced := false } →
    exec (.bphRxEnWrite n w) s =
      .next (rclr (followLock (rxOff (portLeft u (16 + n.val)) (16 + n.val)) n) (Reg.BPH_RX_CTRL n) F.BPH_RX_CTRL_EN)) ∧
  (∀ (n : Fin 16) (w : Word) (s u v : State), hostMay s → ptState s (16 + n.val) = ptOff →
    u = wr s (Reg.BPH_RX_CTRL n) (fldPut F.BPH_RX_CTRL_EN (rget s (Reg.BPH_RX_CTRL n) F.BPH_RX_CTRL_EN) (w &&& 0x03FF0007)) →
    portHeld u (rxAt u (16 + n.val)).fenced (unitBph n) = false → fldGet F.BPH_RX_CTRL_EN w = 1 →
    v = setRx u (16 + n.val) { rxAt u (16 + n.val) with fenced := false } →
    rget v (Reg.BPH_RX_CTRL n) F.BPH_RX_CTRL_CH_BASE ≤ 1022 →
    ptAsrc v (16 + n.val) = true ∨ rget v (Reg.BPH_RX_RATE n) F.BPH_RX_RATE_NOM_HZ = 0 →
    exec (.bphRxEnWrite n w) s =
      .next (setPtState (rset v (Reg.BPH_RX_CTRL n) F.BPH_RX_CTRL_EN) (16 + n.val) ptQualifying)) ∧
  (∀ (n : Fin 16) (pos : Int) (z : Bool) (a b : Subframe) (s : State), live s = true →
    ptState s (16 + n.val) = ptLost →
    exec (.bphRxFrame n pos z false a b) s = .next (bphFrame (setPtState s (16 + n.val) ptQualifying) n pos z false a b)) ∧
  (∀ (n : Fin 16) (pos : Int) (z mis : Bool) (a b : Subframe) (s : State), live s = true →
    ptState s (16 + n.val) = ptQualifying ∨ ptState s (16 + n.val) = ptRunning →
    exec (.bphRxFrame n pos z mis a b) s = .next (bphFrame s n pos z mis a b)) ∧
  (∀ (n : Fin 16) (s : State) (a b : CsBlock), hostMay s → a = mapGet csReset s.cs (2 * n.val) →
    b = mapGet csReset s.cs (2 * n.val + 1) → exec (.bphRxCsseqRead n) s =
      .next (putArray (putArray (putArray (putArray s (Reg.BPH_RX_CS_A n) a.latchedCs) (Reg.BPH_RX_CS_B n) b.latchedCs)
        (Reg.BPH_RX_U_A n) a.latchedUser) (Reg.BPH_RX_U_B n) b.latchedUser)) ∧
  (∀ (n : Fin 16) (w : Word) (s u v : State), hostMay s →
    u = wr s (Reg.BPH_TX_CTRL n) (fldPut F.BPH_TX_CTRL_EN (rget s (Reg.BPH_TX_CTRL n) F.BPH_TX_CTRL_EN) (w &&& 0x03FF000F)) →
    portHeld u (ron u (Reg.BPH_TX_STAT n) F.BPH_TX_STAT_FENCED) (unitBph n) = false →
    v = rclr u (Reg.BPH_TX_STAT n) F.BPH_TX_STAT_FENCED → fldGet F.BPH_TX_CTRL_EN w = 1 →
    rget v (Reg.BPH_TX_CTRL n) F.BPH_TX_CTRL_CH_BASE ≤ 1022 → ron v (Reg.BPH_TX_STAT n) F.BPH_TX_STAT_RUNNING = false →
    exec (.bphTxEnWrite n w) s = .next (rset (rset (setTx v n { txAt v n with frame := 0 })
      (Reg.BPH_TX_CTRL n) F.BPH_TX_CTRL_EN) (Reg.BPH_TX_STAT n) F.BPH_TX_STAT_RUNNING)) ∧
  (∀ (n : Fin 16) (j : Fin 32) (s : State), live s = true → ron s (Reg.BPH_TX_STAT n) F.BPH_TX_STAT_RUNNING = true →
    j.val < blk s → exec (.bphTxFrame n j) s = .next (txFrame s n j)) ∧
  (∀ (n : Fin 16) (w : Word) (s u v : State), hostMay s →
    u = wr s (Reg.BPH_TX_CTRL n) (fldPut F.BPH_TX_CTRL_EN (rget s (Reg.BPH_TX_CTRL n) F.BPH_TX_CTRL_EN) (w &&& 0x03FF000F)) →
    portHeld u (ron u (Reg.BPH_TX_STAT n) F.BPH_TX_STAT_FENCED) (unitBph n) = false →
    v = rclr u (Reg.BPH_TX_STAT n) F.BPH_TX_STAT_FENCED → fldGet F.BPH_TX_CTRL_EN w = 0 →
    exec (.bphTxEnWrite n w) s = .next (rclr (txOff v n) (Reg.BPH_TX_CTRL n) F.BPH_TX_CTRL_EN)) ∧
  (∀ (n : Fin 16) (w : Word) (s : State), hostMay s → fldGet F.BPH_TX_CSGO_GO w = 1 →
    exec (.bphTxCsgo n w) s = .next (rset s (Reg.BPH_TX_STAT n) F.BPH_TX_STAT_CS_PEND))

/-- A rod that issues an ALU instruction whose moves meet no failure puts its result and flags and its moves' results
into its pipeline, steps to the next address and counts the issue; NOP does its moves alone, LDI and MOVR write a
numbered register. (R149, R177, R180, R191, R193, R194, R195) -/
def Obligations.AluInstructionsComplete : Prop :=
  (∀ (g : Fin 64) (s : State), clean s g .nop → exec (.rodNop g) s = .next (ran s g .nop effNone)) ∧
  (∀ (g : Fin 64) (s : State) (r : Rod) (w : Nat), clean s g .ldi → r = rodAt (atIssue s g) g → w = nextWord r →
    exec (.rodLdi g) s = .next (issued s g .ldi {} (advance (addWrites r (moveWrite r (bitsOf w 52 6) (bitsOf w 0 32)))))) ∧
  (∀ (g : Fin 64) (s : State) (r : Rod) (w : Nat), clean s g .movr → r = rodAt (atIssue s g) g → w = nextWord r →
    exec (.rodMovr g) s =
      .next (issued s g .movr {} (advance (addWrites r (moveWrite r (bitsOf w 52 6) (moveSource r (bitsOf w 46 6))))))) ∧
  (∀ (g : Fin 64) (s : State), clean s g .add → exec (.rodAdd g) s = .next (ran s g .add effAdd)) ∧
  (∀ (g : Fin 64) (s : State), clean s g .sub → exec (.rodSub g) s = .next (ran s g .sub effSub)) ∧
  (∀ (g : Fin 64) (s : State), clean s g .addi → exec (.rodAddi g) s = .next (ran s g .addi effAddi)) ∧
  (∀ (g : Fin 64) (s : State), clean s g .subi → exec (.rodSubi g) s = .next (ran s g .subi effSubi)) ∧
  (∀ (g : Fin 64) (s : State), clean s g .cmp → exec (.rodCmp g) s = .next (ran s g .cmp effCmp)) ∧
  (∀ (g : Fin 64) (s : State), clean s g .and → exec (.rodAnd g) s = .next (ran s g .and effAnd)) ∧
  (∀ (g : Fin 64) (s : State), clean s g .or → exec (.rodOr g) s = .next (ran s g .or effOr)) ∧
  (∀ (g : Fin 64) (s : State), clean s g .xor → exec (.rodXor g) s = .next (ran s g .xor effXor)) ∧
  (∀ (g : Fin 64) (s : State), clean s g .not → exec (.rodNot g) s = .next (ran s g .not effNot)) ∧
  (∀ (g : Fin 64) (s : State), clean s g .asl → exec (.rodAsl g) s = .next (ran s g .asl effAsl)) ∧
  (∀ (g : Fin 64) (s : State), clean s g .asr → exec (.rodAsr g) s = .next (ran s g .asr effAsr)) ∧
  (∀ (g : Fin 64) (s : State), clean s g .lsl → exec (.rodLsl g) s = .next (ran s g .lsl effLsl)) ∧
  (∀ (g : Fin 64) (s : State), clean s g .lsr → exec (.rodLsr g) s = .next (ran s g .lsr effLsr)) ∧
  (∀ (g : Fin 64) (s : State), clean s g .abs → exec (.rodAbs g) s = .next (ran s g .abs effAbs)) ∧
  (∀ (g : Fin 64) (s : State), clean s g .neg → exec (.rodNeg g) s = .next (ran s g .neg effNeg)) ∧
  (∀ (g : Fin 64) (s : State), clean s g .min → exec (.rodMin g) s = .next (ran s g .min effMin)) ∧
  (∀ (g : Fin 64) (s : State), clean s g .max → exec (.rodMax g) s = .next (ran s g .max effMax)) ∧
  (∀ (g : Fin 64) (s : State), clean s g .amax → exec (.rodAmax g) s = .next (ran s g .amax effAmax))

/-- A rod that issues an accumulator instruction whose moves meet no failure puts its result and its moves' results into
its pipeline, steps to the next address and counts the issue. (R149, R177, R190, R192, R196) -/
def Obligations.AccInstructionsComplete : Prop :=
  (∀ (g : Fin 64) (s : State), clean s g .clr → exec (.rodClr g) s = .next (ran s g .clr effClr)) ∧
  (∀ (g : Fin 64) (s : State), clean s g .mova → exec (.rodMova g) s = .next (ran s g .mova effMova)) ∧
  (∀ (g : Fin 64) (s : State), clean s g .adda → exec (.rodAdda g) s = .next (ran s g .adda effAdda)) ∧
  (∀ (g : Fin 64) (s : State), clean s g .suba → exec (.rodSuba g) s = .next (ran s g .suba effSuba)) ∧
  (∀ (g : Fin 64) (s : State), clean s g .nega → exec (.rodNega g) s = .next (ran s g .nega effNega)) ∧
  (∀ (g : Fin 64) (s : State), clean s g .absa → exec (.rodAbsa g) s = .next (ran s g .absa effAbsa)) ∧
  (∀ (g : Fin 64) (s : State), clean s g .shla → exec (.rodShla g) s = .next (ran s g .shla effShla)) ∧
  (∀ (g : Fin 64) (s : State), clean s g .shra → exec (.rodShra g) s = .next (ran s g .shra effShra)) ∧
  (∀ (g : Fin 64) (s : State), clean s g .rnda → exec (.rodRnda g) s = .next (ran s g .rnda effRnda)) ∧
  (∀ (g : Fin 64) (s : State), clean s g .sata → exec (.rodSata g) s = .next (ran s g .sata effSata)) ∧
  (∀ (g : Fin 64) (s : State), clean s g .lda → exec (.rodLda g) s = .next (ran s g .lda effLda)) ∧
  (∀ (g : Fin 64) (s : State), clean s g .ldal → exec (.rodLdal g) s = .next (ran s g .ldal effLdal)) ∧
  (∀ (g : Fin 64) (s : State), clean s g .ext → exec (.rodExt g) s = .next (ran s g .ext effExt)) ∧
  (∀ (g : Fin 64) (s : State), clean s g .extl → exec (.rodExtl g) s = .next (ran s g .extl effExtl)) ∧
  (∀ (g : Fin 64) (s : State), clean s g .extg → exec (.rodExtg g) s = .next (ran s g .extg effExtg)) ∧
  (∀ (g : Fin 64) (s : State), clean s g .tsta → exec (.rodTsta g) s = .next (ran s g .tsta effTsta))

/-- A rod that issues a multiply, tap or control-rod instruction whose moves meet no failure puts its result and its
moves' results into its pipeline, steps to the next address and counts the issue. (R149, R177, R189, R197, R198,
R200, R201) -/
def Obligations.MacInstructionsComplete : Prop :=
  (∀ (g : Fin 64) (s : State), clean s g .mpy → exec (.rodMpy g) s = .next (ran s g .mpy effMpy)) ∧
  (∀ (g : Fin 64) (s : State), clean s g .mac → exec (.rodMac g) s = .next (ran s g .mac effMac)) ∧
  (∀ (g : Fin 64) (s : State), clean s g .msu → exec (.rodMsu g) s = .next (ran s g .msu effMsu)) ∧
  (∀ (g : Fin 64) (s : State), clean s g .mpy2 → exec (.rodMpy2 g) s = .next (ran s g .mpy2 effMpy2)) ∧
  (∀ (g : Fin 64) (s : State), clean s g .mac2 → exec (.rodMac2 g) s = .next (ran s g .mac2 effMac2)) ∧
  (∀ (g : Fin 64) (s : State), clean s g .msu2 → exec (.rodMsu2 g) s = .next (ran s g .msu2 effMsu2)) ∧
  (∀ (g : Fin 64) (s : State), clean s g .mpyx → exec (.rodMpyx g) s = .next (ran s g .mpyx effMpyx)) ∧
  (∀ (g : Fin 64) (s : State), clean s g .macx → exec (.rodMacx g) s = .next (ran s g .macx effMacx)) ∧
  (∀ (g : Fin 64) (s : State), clean s g .tap → exec (.rodTap g) s = .next (ran s g .tap effTap)) ∧
  (∀ (g : Fin 64) (s : State), clean s g .tap2 → exec (.rodTap2 g) s = .next (ran s g .tap2 effTap2)) ∧
  (∀ (g : Fin 64) (s : State), clean s g .tapm → exec (.rodTapm g) s = .next (ran s g .tapm effTapm)) ∧
  (∀ (g : Fin 64) (s : State), clean s g .exp → exec (.rodExp g) s = .next (ran s g .exp effExp)) ∧
  (∀ (g : Fin 64) (s : State), clean s g .bexp → exec (.rodBexp g) s = .next (ran s g .bexp effBexp)) ∧
  (∀ (g : Fin 64) (s : State), clean s g .norm → exec (.rodNorm g) s = .next (ran s g .norm effNorm)) ∧
  (∀ (g : Fin 64) (s : State), clean s g .divs → exec (.rodDivs g) s = .next (ran s g .divs effDivs))

/-- Where they stand where R150 allows: REP with a count of zero skips an instruction and otherwise repeats the next;
outside a handler LOOP pushes a level, or skips its body for zero, and ENDL pops one; B, CALL, RET and RTI set their
target three delay slots away, CALL writing its link register; TRAP makes its interrupt pending; END lets everything
issued complete and ends the pass. (R151, R152, R153, R155, R178, R202, R203) -/
def Obligations.FlowInstructionsComplete : Prop :=
  (∀ (g : Fin 64) (s : State) (r : Rod) (w c : Nat), clean s g .rep → r = rodAt (atIssue s g) g → w = nextWord r →
    c = (if bitOf w 57 then regSeen r (bitsOf w 53 4) (r.n + 2) % 1024 else bitsOf w 32 10) →
    exec (.rodRep g) s = .next (issued s g .rep {}
      (if c = 0 then { r with pc := (r.pc + 2) % 8192, iter := false }
       else { r with pc := (r.pc + 1) % 8192, repeating := true, iter := false,
                     pend := insertWrite ⟨r.n + 1, .reg 0x33, 0x3FF, c, .plain⟩ r.pend }))) ∧
  (∀ (g : Fin 64) (s : State) (r : Rod) (w c : Nat), clean s g .loop → r = rodAt (atIssue s g) g → w = nextWord r →
    c = (if bitOf w 57 then regSeen r (bitsOf w 53 4) (r.n + 2) % 65536 else bitsOf w 16 16) →
    inHandler r = false → c = 0 ∨ r.depth < 4 →
    exec (.rodLoop g) s = .next (issued s g .loop {}
      (if c = 0 then { r with pc := (bitsOf w 32 13 + 1) % 8192, iter := false }
       else addWrites { r with pc := (r.pc + 1) % 8192, depth := r.depth + 1, iter := true }
        [⟨r.n + 2, .reg (0x34 + r.depth), 0xFFFF, c, .plain⟩,
         ⟨r.n + 2, .reg (0x38 + r.depth), 0x1FFF, (r.pc + 1) % 8192, .plain⟩,
         ⟨r.n + 2, .reg (0x3C + r.depth), 0x1FFF, bitsOf w 32 13, .plain⟩]))) ∧
  (∀ (g : Fin 64) (s : State) (r : Rod), clean s g .endl → r = rodAt (atIssue s g) g → inHandler r = false → r.depth ≠ 0 →
    exec (.rodEndl g) s = .next (issued s g .endl {} { advance r with depth := r.depth - 1 })) ∧
  (∀ (g : Fin 64) (s : State) (r : Rod) (w t : Nat), clean s g .b → r = rodAt (atIssue s g) g → w = nextWord r →
    t = (if bitOf w 53 then regSeen r (bitsOf w 49 4) (r.n + 3) else bitsOf w 32 13) →
    exec (.rodB g) s = .next (issued s g .b {} (transfer r (condHolds (srAG r) (bitsOf w 54 4)) t false))) ∧
  (∀ (g : Fin 64) (s : State) (r : Rod) (w t : Nat), clean s g .call → r = rodAt (atIssue s g) g → w = nextWord r →
    t = (if bitOf w 53 then regSeen r (bitsOf w 49 4) (r.n + 3) else bitsOf w 32 13) →
    exec (.rodCall g) s = .next (issued s g .call {} (addWrites
      (transfer r (condHolds (srAG r) (bitsOf w 54 4)) t false)
      [⟨r.n + 5, .reg (bitsOf w 45 4), 2 ^ 32 - 1, (r.pc + 4) % 8192, .plain⟩]))) ∧
  (∀ (g : Fin 64) (s : State) (r : Rod) (w : Nat), clean s g .ret → r = rodAt (atIssue s g) g → w = nextWord r →
    exec (.rodRet g) s = .next (issued s g .ret {} (transfer r (condHolds (srAG r) (bitsOf w 54 4))
      (regSeen r (bitsOf w 49 4) (r.n + 3)) false))) ∧
  (∀ (g : Fin 64) (s : State) (r : Rod), clean s g .rti → r = rodAt (atIssue s g) g →
    exec (.rodRti g) s = .next (issued s g .rti {} (addWrites (transfer r true (regSeen r 0x31 (r.n + 3)) true)
      [⟨r.n + 5, .reg 0x30, srAll, regSeen r 0x32 (r.n + 5), .plain⟩]))) ∧
  (∀ (g : Fin 64) (s : State), Memory.wf s = true → clean s g .trap → bitOf (srNow (rodAt s g)) 19 = false →
    exec (.rodTrap g) s = .next (rset (ran s g .trap effNone) (rodReg Reg.ROD_IPEND g) F.ROD_IPEND_TRAP)) ∧
  (∀ (g : Fin 64) (s : State), Memory.wf s = true → clean s g .endPass →
    exec (.rodEnd g) s = .next (endPass (ran s g .endPass effNone) g))

/-- A pass whose imports come next runs its import list, reports when it ended, and begins at its entry; WARN becomes
pending at its threshold; the end of the compute budget fails every rod without END and runs the export lists; an
interrupt taken at an acceptance point saves PC and SR and issues at its vector; a halt stops the pass there; an
illegal encoding fails the rod. (R153, R155, R157, R158, R159, R163, R176) -/
def Obligations.PassCommandsComplete : Prop :=
  (∀ (g : Fin 64) (doneAt : Nat) (s u v : State), live s = true → runsPass s g = true → importsNow s g doneAt = true →
    configOk s (rodAt s g) = true → dmaFenced s (rodFrame g) = false →
    runImports s g none (rodAt s g).imports = (u, none) →
    v = rput u (Reg.ROD_FIMPDONE (rodFrame g)) F.ROD_FIMPDONE_CYCLES (satNat 20 doneAt) →
    doneAt ≤ windowCycles u → exec (.rodPassStart g ⟨doneAt, none⟩) s =
      .next (setPhase' (setRod v g (passStart (rodAt v g) 0)) g .inPass)) ∧
  (∀ (g : Fin 64) (doneAt : Nat) (lost : Option (Fin 64)) (s : State), live s = true → runsPass s g = true →
    importsNow s g doneAt = true → configOk s (rodAt s g) = false →
    exec (.rodPassStart g ⟨doneAt, lost⟩) s = .next (failRod s g caConfig 0)) ∧
  (∀ (g : Fin 64) (s : State), live s = true → running s = true → rodState s g = rdActive →
    rget s (rodReg Reg.ROD_WARN g) F.ROD_WARN_CYCLES ≠ 0 →
    ((rodAt s g).phase = .inPass → rget s (rodReg Reg.ROD_WARN g) F.ROD_WARN_CYCLES ≤ (rodAt s g).cyc) →
    exec (.warnThreshold g) s = .next (rset s (rodReg Reg.ROD_IPEND g) F.ROD_IPEND_WARN)) ∧
  (∀ (late : List (Fin 64 × Fin 64 × Fin 64)) (lost : List (Fin 64 × Fin 64)) (s : State), live s = true → running s = true →
    exec (.computeBudgetEnd ⟨late, lost⟩) s = .next ((List.range 64).foldl
      (fun s g => exportRod s g ((late.find? (fun l => l.1.val == g)).map (fun l => (l.2.1.val, l.2.2.val))) ((lost.find? (fun x => x.1.val == g)).map (fun x => x.2.val)))
      ((List.range 64).foldl budgetEnd s))) ∧
  (∀ (g : Fin 64) (v : Nat) (f : Fld) (s u : State) (r : Rod) (sr : Nat), live s = true →
    (rodAt s g).phase = .inPass → (rodAt s g).wants = [] → atAcceptance (rodAt s g) = true → haltAsked s g = false → takeable s g = some (v, f) →
    u = landAll (rclr s (rodReg Reg.ROD_IPEND g) f) g → r = rodAt u g → sr = mapGet (fun _ => 0) r.file 0x30 →
    exec (.interruptAccept g) s = .next (settleFrame (setRod u g { r with
      pc := v, n := r.n + 3, cyc := r.cyc + 3, iter := false,
      file := mapSet (fun _ => 0) (mapSet (fun _ => 0) (mapSet (fun _ => 0) r.file 0x31 r.pc) 0x32 sr) 0x30
        ((sr - (sr &&& srIE)) ||| srINH) }) (rodFrame g))) ∧
  (∀ (g : Fin 64) (s : State), live s = true → (rodAt s g).phase = .inPass → (rodAt s g).wants = [] →
    atAcceptance (rodAt s g) = true → haltAsked s g = true → exec (.rodHalt g) s = .next (rput (setRodState (setPhase' (landAll s g) g .stopped) g 4)
      (rodReg Reg.ROD_PC g) F.ROD_PC_PC (rodAt s g).pc)) ∧
  (∀ (g : Fin 64) (s : State), live s = true → mayIssue s g = true →
    decodeRod (isControl g) (nextWord (rodAt s g)) = none →
    exec (.illegalEncoding g) s = .next (failIssue s g 2 2))

/-- A write that changes ROD_CTRL.EN is stored and takes effect two boundaries later, each change in its turn; HALT_REQ
is stored beside it; UNFENCE returns a fenced rod whose source is clear, with its failures forgotten, and is refused
while the source has STATUS 1; CLR_STATS clears the statistics. A LOAD_PROGRAM whose image passes every check puts
the named rods into LOADING, and one that does not completes with what the first failed check gives; the load ends
with the second reading. (R157, R161, R168, R169, R170, R171, R173) -/
def Obligations.RodControlComplete : Prop :=
  (∀ (g : Fin 64) (w : Word) (s u : State), hostMay s → u = rwrite s (rodReg Reg.ROD_CTRL g) w →
    ron u (rodReg Reg.ROD_CTRL g) F.ROD_CTRL_EN ≠ ron s (rodReg Reg.ROD_CTRL g) F.ROD_CTRL_EN →
    exec (.rodCtrlEn g w) s = .next (setRod u g { rodAt u g with
      enPend := (rodAt u g).enPend ++ [(2, ron u (rodReg Reg.ROD_CTRL g) F.ROD_CTRL_EN)] })) ∧
  (∀ (g : Fin 64) (w : Word) (s : State), hostMay s → exec (.haltReq g w) s =
    .next (rwrite s (rodReg Reg.ROD_CTRL g) (fldPut F.ROD_CTRL_EN (rget s (rodReg Reg.ROD_CTRL g) F.ROD_CTRL_EN) w))) ∧
  (∀ (g : Fin 64) (w : Word) (s u : State), hostMay s → fldGet F.ROD_CTRL_UNFENCE w = 1 → rodState s g = 5 →
    statusOf s (0x1C0 + g.val) = false →
    u = rput (setRodState s g (if enNow s g then 3 else 2))
      (rodReg Reg.ROD_STAT g) F.ROD_STAT_FAILS 0 →
    exec (.unfence g w) s = .next (setRod u g { rodAt u g with wait := 2 })) ∧
  (∀ (g : Fin 64) (w : Word) (s : State), hostMay s → fldGet F.ROD_CTRL_UNFENCE w = 1 → rodState s g = 5 →
    statusOf s (0x1C0 + g.val) = true →
    exec (.unfence g w) s = .next (rset s Reg.FLT_STAT F.FLT_STAT_REFUSED)) ∧
  (∀ (g : Fin 64) (w : Word) (s : State), hostMay s → fldGet F.ROD_CTRL_CLR_STATS w = 1 →
    exec (.clrStats g w) s =
      .next (wr (rput s (rodReg Reg.ROD_CYC_MAX g) F.ROD_CYC_MAX_CYCLES 0) (rodReg Reg.ROD_OVR_CNT g) 0)) ∧
  (∀ (d : DescRef) (bs im : List Byte) (s : State), ready s d 0x20 bs → im.length = leAt bs 8 4 →
    loadVerdict (markAccepted s d) (leAt bs 8 4) im = stOk → exec (.loadProgram d (some im)) s =
      .next (beginLoad (markAccepted s d) (leAt im 6 1) (leAt im 7 1) ⟨some d, leAt im 7 1, imageCrc im⟩)) ∧
  (∀ (d : DescRef) (bs im : List Byte) (s : State), ready s d 0x20 bs → im.length = leAt bs 8 4 →
    loadVerdict (markAccepted s d) (leAt bs 8 4) im ≠ stOk → exec (.loadProgram d (some im)) s =
      .next (finish (markAccepted s d) d (loadVerdict (markAccepted s d) (leAt bs 8 4) im) 0)) ∧
  (∀ (f : Fin 8) (x : Option (List Byte)) (l : LoadState) (s : State), live s = true →
    s.loads.find? (fun e => e.1 == f.val) = some (f.val, l) →
    exec (.programLoadDone f x) s = .next (endLoad s f l x))

/-- One DIVS shifts the accumulator left by one in 72 bits, subtracts the sign-extended divisor from its upper 40 bits
exactly, and where the difference is not negative keeps it there modulo 2^40 and sets bit 0; it writes nothing else.
From a dividend N in H with L = 0, thirty-one steps by a divisor greater than N leave the quotient floor(N × 2^31 /
Da) in L and the remainder in H. (R201) -/
def Obligations.DivisionBySteps : Prop :=
  (∀ e : RodEnv, ∃ x, effDivs e = { a := [(opAN e.w, x)] } ∧
    ∀ sh t, sh = signed 72 (wrapTo 72 (e.accF (opAN e.w) * 2)) → t = sh / 2 ^ 32 - (e.d (ctlDA e.w)).toInt →
      x = if 0 ≤ t then signed 72 (wrapTo 72 (t * 2 ^ 32 + (sh % 2 ^ 32 - sh % 2 + 1))) else sh) ∧
  (∀ (e : RodEnv) (n q : Nat), n < q → q < 2 ^ 31 → (e.d (ctlDA e.w)).toNat = q →
    Nat.repeat (fun x : Int => ((effDivs { e with accF := fun _ => x }).a.map (·.2)).headD 0) 31 ((n : Int) * 2 ^ 32) =
      ((n * 2 ^ 31 % q : Nat) : Int) * 2 ^ 32 + ((n * 2 ^ 31 / q : Nat) : Int))

/-- Every rod instruction that issues without a failure leaves every part of the state but the rods, the registers, the
frame SRAMs with their poison and bank accounts, and the free values as it was. Another rod keeps everything but the
banks it waits for and the cycle it stands at. No register changes but the mailbox and trap bits of its frame and,
by END, the status and cycle counts of its own rod. No word of frame SRAM changes but those its earlier stores now
reach, and at END those that were still under way. It is about states whose memories have their canonical form,
which every step keeps (MemoryFormKept). (R142, R143, R144, R149, R153, R155) -/
def Obligations.RodFrame : Prop :=
  ∀ (g : Fin 64) (s t : State) (op : RodOp), Memory.wf s = true → clean s g op → exec (issueOf g op) s = .next t →
    (op = .trap → bitOf (srNow (rodAt s g)) 19 = false) → (op ≠ .endPass → (rodAt t g).phase = .inPass) →
    t = { s with rods := t.rods, regs := t.regs, frameMem := t.frameMem, poison := t.poison, banks := t.banks, free := t.free } ∧
    (∀ h, h ≠ g.val → sameButBanks (rodAt s h) (rodAt t h)) ∧
    (∀ a, (∀ k, k < 8 → a ≠ Reg.ROD_IPEND (rodFrame g) k) →
      (op = .endPass → a ∉ [rodReg Reg.ROD_STAT g, rodReg Reg.ROD_CYC_LAST g, rodReg Reg.ROD_CYC_MAX g]) → rd t a = rd s a) ∧
    (∀ k, (∀ x ∈ (rodAt s g).pend, ∀ w, x.loc = .f w → op = .endPass ∨ x.land < (rodAt s g).n + 2 →
      k ≠ rodFrame g * frameWords + w % frameWords) → mapGet (fun _ => 0) t.frameMem k = mapGet (fun _ => 0) s.frameMem k)

/-- Over all operands. ADD and SUB give the exact sum or difference in the Q1.31 range; outside it V and VS are set, and
the result is clamped with SS where SR.SAT = 1 and wraps where it is 0. Z and N follow the result, C is the carry
out of bit 31, or 1 where Da ≥ b unsigned. ASL multiplies by 2 to the shift amount in the same way, and its C is the
last bit shifted out. MPY gives the exact product, which always fits. ADDA is fitted to 72 bits. RNDA rounds at bit
32 by SR.RND and is fitted. SATA clamps to the Q1.31 range of accumulators whatever SR.SAT is. (R188, R189, R190,
R191, R192, R193, R194, R195, R196, R197) -/
def Obligations.ArithmeticLaws : Prop :=
  (∀ (e : RodEnv) (a b : Word) (x : Int), a = e.d (bitsOf e.w 43 4) → b = aluB e → x = a.toInt + b.toInt →
    ∃ r : Word, effAdd e = { d := [(opDD e.w, r)], mask := 0xF00, stickyEx :=
        (if -(2 ^ 31) ≤ x ∧ x < 2 ^ 31 then 0 else if e.sat = true then 0x3000 else 0x1000), val :=
        (if r = 0 then 0x100 else 0) + (if r.msb = true then 0x200 else 0) +
        (if -(2 ^ 31) ≤ x ∧ x < 2 ^ 31 then 0 else 0x400) + (if 2 ^ 32 ≤ a.toNat + b.toNat then 0x800 else 0) } ∧
      (-(2 ^ 31) ≤ x ∧ x < 2 ^ 31 → r.toInt = x) ∧ (2 ^ 31 ≤ x → r = if e.sat = true then 0x7FFFFFFF else a + b) ∧
      (x < -(2 ^ 31) → r = if e.sat = true then 0x80000000 else a + b)) ∧
  (∀ (e : RodEnv) (a b : Word) (x : Int), a = e.d (bitsOf e.w 43 4) → b = aluB e → x = a.toInt - b.toInt →
    ∃ r : Word, effSub e = { d := [(opDD e.w, r)], mask := 0xF00, stickyEx :=
        (if -(2 ^ 31) ≤ x ∧ x < 2 ^ 31 then 0 else if e.sat = true then 0x3000 else 0x1000), val :=
        (if r = 0 then 0x100 else 0) + (if r.msb = true then 0x200 else 0) +
        (if -(2 ^ 31) ≤ x ∧ x < 2 ^ 31 then 0 else 0x400) + (if b.toNat ≤ a.toNat then 0x800 else 0) } ∧
      (-(2 ^ 31) ≤ x ∧ x < 2 ^ 31 → r.toInt = x) ∧ (2 ^ 31 ≤ x → r = if e.sat = true then 0x7FFFFFFF else a - b) ∧
      (x < -(2 ^ 31) → r = if e.sat = true then 0x80000000 else a - b)) ∧
  (∀ (e : RodEnv) (a : Word) (c : Nat) (x : Int), a = e.d (bitsOf e.w 43 4) → c = (aluB e).toNat % 64 →
    x = a.toInt * 2 ^ c → ∃ r : Word, effAsl e = { d := [(opDD e.w, r)], mask := if c = 0 then 0x700 else 0xF00, stickyEx :=
        (if -(2 ^ 31) ≤ x ∧ x < 2 ^ 31 then 0 else if e.sat = true then 0x3000 else 0x1000), val :=
        (if r = 0 then 0x100 else 0) + (if r.msb = true then 0x200 else 0) +
        (if -(2 ^ 31) ≤ x ∧ x < 2 ^ 31 then 0 else 0x400) +
        (if 0 < c ∧ c ≤ 32 ∧ a.getLsbD (32 - c) = true then 0x800 else 0) } ∧
      (-(2 ^ 31) ≤ x ∧ x < 2 ^ 31 → r.toInt = x) ∧ (2 ^ 31 ≤ x → r = if e.sat = true then 0x7FFFFFFF else a <<< c) ∧
      (x < -(2 ^ 31) → r = if e.sat = true then 0x80000000 else a <<< c)) ∧
  (∀ (e : RodEnv) (a b : Word), a = e.d (bitsOf e.w 46 4) → b = e.d (bitsOf e.w 42 4) → effMpy e = { a := [(opAN e.w,
      a.toInt * b.toInt * (if bitsOf e.w 32 2 = 0 then 2 else if bitsOf e.w 32 2 = 1 then 4 else 1))] }) ∧
  (∀ (e : RodEnv) (x : Int), x = e.accF (opAN e.w) + e.accF (opAM e.w) →
    (-(2 ^ 71) ≤ x ∧ x < 2 ^ 71 → effAdda e = { a := [(opAN e.w, x)] }) ∧
    (2 ^ 71 ≤ x → e.sat = true → effAdda e = { a := [(opAN e.w, 2 ^ 71 - 1)], stickyWb := 0x3000 }) ∧
    (x < -(2 ^ 71) → e.sat = true → effAdda e = { a := [(opAN e.w, -(2 ^ 71))], stickyWb := 0x3000 }) ∧
    (x < -(2 ^ 71) ∨ 2 ^ 71 ≤ x → e.sat = false → ∃ y k : Int, effAdda e = { a := [(opAN e.w, y)], stickyWb := 0x1000 } ∧
      -(2 ^ 71) ≤ y ∧ y < 2 ^ 71 ∧ y = x + k * 2 ^ 72)) ∧
  (∀ (e : RodEnv) (v : Int), v = e.accF (opAM e.w) → ∃ q : Int,
    (e.rnd = 0 → q * 2 ^ 32 ≤ v ∧ v < q * 2 ^ 32 + 2 ^ 32) ∧
    (e.rnd = 1 → q * 2 ^ 32 - 2 ^ 31 ≤ v ∧ v < q * 2 ^ 32 + 2 ^ 31) ∧
    (2 ≤ e.rnd → q * 2 ^ 32 - 2 ^ 31 ≤ v ∧ v ≤ q * 2 ^ 32 + 2 ^ 31 ∧
      (v = q * 2 ^ 32 - 2 ^ 31 ∨ v = q * 2 ^ 32 + 2 ^ 31 → q % 2 = 0)) ∧
    (-(2 ^ 71) ≤ q * 2 ^ 32 ∧ q * 2 ^ 32 < 2 ^ 71 → effRnda e = { a := [(opAN e.w, q * 2 ^ 32)] }) ∧
    (2 ^ 71 ≤ q * 2 ^ 32 → e.sat = true → effRnda e = { a := [(opAN e.w, 2 ^ 71 - 1)], stickyWb := 0x3000 })) ∧
  (∀ (e : RodEnv) (v : Int), v = e.accF (opAM e.w) →
    (-(2 ^ 63) ≤ v ∧ v < 2 ^ 63 → effSata e = { a := [(opAN e.w, v)] }) ∧
    (2 ^ 63 ≤ v → effSata e = { a := [(opAN e.w, 2 ^ 63 - 1)], stickyWb := 0x2000 }) ∧
    (v < -(2 ^ 63) → effSata e = { a := [(opAN e.w, -(2 ^ 63))], stickyWb := 0x2000 }))

/-- Inside a buffer of length L that lies in the 20-bit space, post-modification by any amount gives an address of the
buffer, at the sum of the offset and the amount modulo L; outside every buffer it moves linearly modulo 2^20. A word
that lies in no memory is no place of a load, a tap or a store: the move fails with cause UNMAPPED. (R185) -/
def Obligations.BufferAddresses : Prop :=
  (∀ (b l a : Nat) (d : Int), b + l ≤ 2 ^ 20 → b ≤ a → a < b + l →
    bufMod b l a d = b + ((((a : Int) - b + d) % (l : Int)).toNat) ∧ b ≤ bufMod b l a d ∧ bufMod b l a d < b + l) ∧
  (∀ (b l a : Nat) (d : Int), l = 0 ∨ a < b ∨ b + l ≤ a → bufMod b l a d < 2 ^ 20 ∧
    ((bufMod b l a d : Nat) : Int) = ((a : Int) + d) % 2 ^ 20) ∧
  (∀ (s : State) (g : Nat) (y : Bool) (a r : Nat) (v : Word) (x : Gather), 0x8000 ≤ a → a < 0x80000 → x.fail = none →
    (gatherLoad s g y a r x).fail = some (caUnmapped, 3) ∧ (gatherTap s g y a x).fail = some (caUnmapped, 3) ∧
    (gatherStore s g y a v x).fail = some (caUnmapped, 3))

/-- A write of MIX_DR_ENGAGE is stored for each route's next sample. When VOX_HOLD milliseconds have passed with no loud
sample, a route's voice condition falls and its engagement is judged again. MIX_MCLR.GO queues the clear of its
range for the end of the period, and MIX_CLIPCNT.CLR clears its count. METER_READ writes the records of its range
and completes with the period they are of. A ROUTE_CFG whose entry satisfies R222 and threatens no pending tally
waits for the first sample the unit handles and completes OK; one that does not completes INVALID_PARAM and changes
nothing else. (R224, R207, R222, R241, R244, R255) -/
def Obligations.MixAndDirectComplete : Prop :=
  ((∀ (hi : Bool) (w : Word) (s : State), hostMay s → exec (.mixDrEngageWrite hi w) s =
    .next (wr s (if hi then Reg.MIX_DR_ENGAGE_HI else Reg.MIX_DR_ENGAGE_LO) w)) ∧
  (∀ (r : Fin 64) (s : State), live s = true → (routeAt s r).vox = true →
    (routeAt s r).loudAt + 393216 * pget s P.MIX_DR_VOX_HOLD r ≤ s.time.cnt → exec (.voxHoldExpiry r) s =
    .next (evalRoute (setRoute s r { routeAt s r with vox := false }) r))) ∧
  ((∀ (w : Word) (s u : State) (first : Nat), hostMay s → u = rwrite s Reg.MIX_MCLR w → fldGet F.MIX_MCLR_GO w = 1 →
    first = rget u Reg.MIX_MCLR F.MIX_MCLR_FIRST → exec (.mixMclrGo w) s = .next (rset { u with
      meterClears := u.meterClears ++ [(first, max first (rget u Reg.MIX_MCLR F.MIX_MCLR_LAST))] } Reg.MIX_STAT
      F.MIX_STAT_MCLR_BUSY)) ∧
  (∀ (w : Word) (s : State), hostMay s → fldGet F.MIX_CLIPCNT_CLR w = 1 →
    exec (.mixClipClr w) s = .next (rclr s Reg.MIX_CLIPCNT F.MIX_CLIPCNT_COUNT)) ∧
  (∀ (d : DescRef) (bs : List Byte) (n : Nat) (s u : State), ready s d 0x32 bs → u = markAccepted s d →
    n = par bs 12 0 11 - par bs 8 0 11 + 1 → exec (.meterRead d) s = .next (finish (hostWrite u (leAt bs 16 8)
      ((List.range n).map (fun i => meterRecord u (par bs 8 0 11 + i))).flatten) d stOk (s.meterIndex + 2 ^ 32 * n))) ∧
  (∀ (d : DescRef) (bs : List Byte) (r m : Nat) (s u v : State), ready s d 0x28 bs → u = markAccepted s d →
    r = par bs 8 0 6 → m = par bs 12 0 10 →
    v = { u with routeWait := u.routeWait ++ [⟨r, bitOf m 1 || bitOf m 2, ((List.range 10).filter (bitOf m)).map (fun w => (w, BitVec.ofNat 32 (leAt bs (16 + 4 * w) 4)))⟩] } →
    exec (.routeCfg d) s = .next (if routeOk (withWaiting v) r = true ∧ threatens u v = false then finish v d stOk 0
      else finish u d stInvalidParam 0)))

/-- SNP_FIRE.GO, an edge of the selected polarity on CARRY_IN, a match reached and a scheduled stack carry each make a
carry when their source is enabled; a reached match disarms itself; one whose cycle is the next boundary's is left
to BLOCK_BOUNDARY, where it joins what else fires. Arming a match that has passed sets MATCH_MISSED and raises
0x2C1. Releasing a hold shows the latest bank. CARRY_OUT falls when it has stayed high for WIDTH cycles. Outside a
boundary cycle each source makes a carry of its own unless it falls in the same cycle as another. The position
within the block is the model's reading (log entry 21). SNAPSHOT_ARM of kind 0 carries at once and completes with
the SEQ and tag; kind 1 arms the match at its time. SNAPSHOT_READ writes the sections asked for and completes with
the SEQ; it completes NOT_READY while a field section that was asked for is on its way. In each bank, a field
section not back within 1 ms of the carry is marked invalid with 0x2C3. Where the places of a section's header are,
the spec does not say: its bytes are an opaque function (log entry 20). (R272, R273, R277, R278, R279, R275, R276) -/
def Obligations.CarriesComplete : Prop :=
  ((∀ (w : Word) (s : State), hostMay s → s.snap.fired = none → fldGet F.SNP_FIRE_GO w = 1 → ron s Reg.SNP_CTRL ⟨0, 1⟩ = true →
    exec (.snpFire w) s = .next (carryWith raise s 1 (posNow s) 0)) ∧
  (∀ (w : Word) (s : State), hostMay s → fldGet F.SNP_FIRE_GO w = 1 → ron s Reg.SNP_CTRL ⟨0, 1⟩ = false →
    exec (.snpFire w) s = .next s) ∧
  (∀ (up : Bool) (s : State), live s = true → s.snap.fired = none → ron s Reg.SNP_CIN F.SNP_CIN_POL = !up → ron s Reg.SNP_CTRL ⟨3, 1⟩ = true →
    exec (.carryInEdge up) s = .next (carryWith raise s 8 (posNow s) 0)) ∧
  (∀ s u : State, live s = true → ron s Reg.SNP_MATCH_CTRL F.SNP_MATCH_CTRL_ARM = true → matchTime s ≤ now s →
    fabCycle (matchTime s) ≠ fabCycle (boundaryAt s) → s.snap.scheduled = [] → ron s Reg.SNP_CTRL ⟨4, 1⟩ = true →
    u = rclr { s with snap := { s.snap with armed := none } } Reg.SNP_MATCH_CTRL F.SNP_MATCH_CTRL_ARM →
    exec .snpMatchReached s = .next (finishCarry true (carryWith raise u 16 (posNow u) 0) s.snap.armed 0)) ∧
  (∀ (s u : State) (c : Int × Nat × Option DescRef), live s = true → s.snap.scheduled = [c] → c.1 ≤ now s →
    fabCycle c.1 ≠ fabCycle (boundaryAt s) →
    ron s Reg.SNP_MATCH_CTRL F.SNP_MATCH_CTRL_ARM = false → ron s Reg.SNP_CTRL ⟨5, 1⟩ = true →
    u = { s with snap := { s.snap with scheduled := [] } } →
    exec .stackCarryTime s = .next (finishCarry true (carryWith raise u 32 (posNow u) c.2.1) c.2.2 c.2.1)) ∧
  (∀ s : State, live s = true → fabCycle (matchTime s) = fabCycle (boundaryAt s) → exec .snpMatchReached s = .next s) ∧
  (∀ (w : Word) (s : State), hostMay s → fldGet F.SNP_MATCH_CTRL_ARM w = 1 → now s ≤ matchTime s →
    exec (.snpMatchArm w) s = .next (rset s Reg.SNP_MATCH_CTRL F.SNP_MATCH_CTRL_ARM)) ∧
  (∀ (w : Word) (s : State), hostMay s → fldGet F.SNP_MATCH_CTRL_ARM w = 1 → matchTime s < now s →
    exec (.snpMatchArm w) s = .next (raise (rset (rclr s Reg.SNP_MATCH_CTRL F.SNP_MATCH_CTRL_ARM)
      Reg.SNP_STAT F.SNP_STAT_MATCH_MISSED) 0x2C1 noInst 0)) ∧
  (∀ (w : Word) (s u : State) (b : Bank), hostMay s → u = rwrite s Reg.SNP_HOLD w →
    ron u Reg.SNP_HOLD F.SNP_HOLD_HOLD = false → s.snap.latest = some b →
    exec (.snpHoldWrite w) s = .next (showBank { rclr u Reg.SNP_STAT F.SNP_STAT_HELD with
      snap := { s.snap with latest := none } } b)) ∧
  (∀ s : State, live s = true → s.snap.coutHigh = true → coutOver s = true → exec .carryOutEnd s =
    .next { s with snap := { s.snap with coutHigh := false }, sent := .carryOut false :: s.sent })) ∧
  ((∀ (d : DescRef) (bs : List Byte) (s u t : State), ready s d 0x30 bs → par bs 8 0 2 = 0 → u = markAccepted s d →
    ron u Reg.SNP_CTRL ⟨0, 1⟩ = true → u.snap.fired = none → t = carryWith raise u 1 (posNow u) 0 →
    exec (.snapshotArm d) s = .next (finishCarry true t (some d) 0)) ∧
  (∀ (d : DescRef) (bs : List Byte) (s u : State), ready s d 0x30 bs → par bs 8 0 2 = 1 → par bs 24 0 30 ≤ 999999999 →
    ron (markAccepted s d) Reg.SNP_MATCH_CTRL F.SNP_MATCH_CTRL_ARM = false →
    u = rput (rput (rput (markAccepted s d) Reg.SNP_MATCH_NS F.SNP_MATCH_NS_NS (par bs 24 0 30))
      Reg.SNP_MATCH_SEC_LO F.SNP_MATCH_SEC_LO_SEC_LO (par bs 16 0 32))
      Reg.SNP_MATCH_SEC_HI F.SNP_MATCH_SEC_HI_SEC_HI (par bs 16 32 16) →
    now u ≤ mkTime (par bs 16 0 48) (par bs 24 0 30) → exec (.snapshotArm d) s =
      .next (rset { u with snap := { u.snap with armed := some d } } Reg.SNP_MATCH_CTRL F.SNP_MATCH_CTRL_ARM)) ∧
  (∀ (d : DescRef) (bs out : List Byte) (s : State), ready s d 0x31 bs →
    (∀ e ∈ [(8, Die.a), (9, Die.b)], par bs 8 e.1 1 = 1 → s.snap.valid = true →
      fieldReady s.snap.presented e.2 = true ∨ fieldInvalid s.snap.presented e.2 = true) →
    out = (((List.range 10).filter (bitOf (par bs 8 0 10))).map (sectionOut (markAccepted s d) s.snap.presented)).flatten →
    out.length ≤ leAt bs 24 4 → exec (.snapshotRead d) s =
      .next (finish (hostWrite (markAccepted s d) (leAt bs 16 8) out) d stOk
        (s.snap.presented.seq + 2 ^ 32 * b2n s.snap.valid))) ∧
  (∀ (d : DescRef) (bs : List Byte) (s : State) (k : Nat) (x : Die), ready s d 0x31 bs →
    (k, x) ∈ [(8, Die.a), (9, Die.b)] → par bs 8 k 1 = 1 → s.snap.valid = true →
    fieldReady s.snap.presented x = false → fieldInvalid s.snap.presented x = false →
    exec (.snapshotRead d) s = .next (finish (markAccepted s d) d stNotReady 0)) ∧
  (∀ (x : Die) (s : State), live s = true → exec (.fieldSectionTimeout x) s =
    .next (forEach ((s.snap.presented :: s.snap.latest.toList).filter (sectionLate s x))
      (changeBanks s (fun b => if sectionLate s x b then markInvalid x b else b)) (fun s _ => raise s 0x2C3 (dieNum x) 0))))

/-- TALLY_OPEN opens a FREE tally and completes OK, and completes BUSY_RETRY for another state. TALLY_WRITE takes
records of an OPEN tally that name no absent die, TALLY_COMMIT commits it with the boundary it asks for, TALLY_ABORT
ends one that is OPEN, or ACCEPTED and not decided, with cause HOST and completes OK. While the tally engine is
fenced each completes TARGET_FENCED. (R247, R248, R252, R254, R260, R482) -/
def Obligations.TallyDescriptorsComplete : Prop :=
  (∀ (d : DescRef) (bs : List Byte) (id : Nat) (s u : State), ready s d 0x10 bs → u = markAccepted s d →
    tallyFenced u = false → id = par bs 8 0 4 → tyState u id = 0 →
    exec (.tallyOpen d) s = .next (finish (openTally u id) d stOk 0)) ∧
  (∀ (d : DescRef) (bs : List Byte) (id : Nat) (s u : State), ready s d 0x10 bs → u = markAccepted s d →
    tallyFenced u = false → id = par bs 8 0 4 → tyState u id ≠ 0 →
    exec (.tallyOpen d) s = .next (finish u d stBusyRetry 0)) ∧
  (∀ (d : DescRef) (bs : List Byte) (s : State), ready s d 0x10 bs → tallyFenced (markAccepted s d) = true →
    exec (.tallyOpen d) s = .next (finish (markAccepted s d) d stTargetFenced 0)) ∧
  (∀ (d : DescRef) (bs : List Byte) (recs : Option (List Byte)) (s : State), ready s d 0x11 bs →
    tallyFenced (markAccepted s d) = true →
    exec (.tallyWrite d recs) s = .next (finish (markAccepted s d) d stTargetFenced 0)) ∧
  (∀ (d : DescRef) (bs : List Byte) (s : State), ready s d 0x12 bs → tallyFenced (markAccepted s d) = true →
    exec (.tallyCommit d) s = .next (finish (markAccepted s d) d stTargetFenced 0)) ∧
  (∀ (d : DescRef) (bs : List Byte) (s : State), ready s d 0x13 bs → tallyFenced (markAccepted s d) = true →
    exec (.tallyAbort d) s = .next (finish (markAccepted s d) d stTargetFenced 0)) ∧
  (∀ (d : DescRef) (bs recs : List Byte) (id : Nat) (s u : State), ready s d 0x11 bs → u = markAccepted s d →
    tallyFenced u = false → id = par bs 8 0 4 → tyState u id = 1 → recs.length = 16 * leAt bs 12 4 →
    namesAbsent u ((List.range (leAt bs 12 4)).map (readRecord recs)) = false →
    exec (.tallyWrite d (some recs)) s = .next (writeRecords u (some d) id (leAt bs 12 4) recs)) ∧
  (∀ (d : DescRef) (bs : List Byte) (id : Nat) (stack : Bool) (s u : State), ready s d 0x12 bs → u = markAccepted s d →
    tallyFenced u = false → id = par bs 8 0 4 → tyState u id = 1 → (par bs 8 4 2 = 1 → par bs 24 0 30 ≤ 999999999) →
    stack = (par bs 8 6 1 == 1) → exec (.tallyCommit d) s =
      .next (commitTally u id (some d) (par bs 8 4 2) stack (par bs 8 7 1 == 1) (par bs 8 8 1 == 1)
        (commitTarget u bs (leadBoundary u stack (tallyAt u id).recs)) (leAt bs 28 4) (leAt bs 32 1))) ∧
  (∀ (d : DescRef) (bs : List Byte) (id : Nat) (s u : State), ready s d 0x13 bs → u = markAccepted s d →
    tallyFenced u = false → id = par bs 8 0 4 → tyState u id = 1 ∨ tyState u id = 3 ∧ (tallyAt u id).decided = false ∧ tyStack u id = false →
    (tallyAt u id).abortRef = none → exec (.tallyAbort d) s = .next (finish (abortTally u id 1) d stOk 0))

/-- At a decision point records with an uncorrectable error are poisoned, the parts still PREPARED enter IN_DOUBT and
the undecided tallies due are judged. A part IN_DOUBT asks again after QUERY_INT blocks. After the export window the
decided tallies of the coming boundary write their frame records, unless a part is IN_DOUBT. (R256, R258, R267,
R270) -/
def Obligations.TallyTimesComplete : Prop :=
  (∀ (bad : List (Fin 8 × Nat)) (s u v : State), live s = true → u = forEach bad s shadowError →
    v = forEach (dueTallies u 2 (nextBoundary s)) u enterDoubt → exec (.decisionPoint bad) s = .next (coordinate
      (forEach ((dueTallies v 3 (nextBoundary s)).filter (fun id => !(tallyAt v id).decided)) v (fun s id => judgeTally s id)))) ∧
  (∀ (id : Fin 16) (s : State), live s = true → tyState s id = 4 →
    (tallyAt s id).asked + max 1 (rget s Reg.TLY_CTRL F.TLY_CTRL_QUERY_INT) ≤ s.grid.index →
    exec (.inDoubtQuery id) s = .next (queryPart s id)) ∧
  (∀ s : State, live s = true → tallyIds.any (fun id => tyState s id == 4) = false →
    exec .exportWindowEnd s = .next (forEach ((dueTallies s 3 (nextBoundary s)).filter (fun id => (tallyAt s id).decided))
      s writeFrames)) ∧
  (∀ s : State, live s = true → tallyIds.any (fun id => tyState s id == 4) = true → exec .exportWindowEnd s = .next s)

/-- A write of NET_CTRL stores its RW fields, restarts the PCS and flushes the port's queues; one after which the idle
slopes would exceed their share is refused. A link that comes up sets LINK and LINK_CHG, and AN_DONE with
auto-negotiation. A link gone for DOWN_US microseconds, 0 acting as 1, goes down: it clears LINK, sets LINK_CHG,
flushes the queues, takes the receive paths on the port DOWN and raises 0x300 + 8p. NET_CNT_CLR with GO returns
every counter of the port to its reset value. No other part of the state changes. (R283, R284, R291, R324) -/
def Obligations.NetworkLinksComplete : Prop :=
  (∀ (p : Fin 8) (w : Word) (s u : State), hostMay s → u = updateCredits s p →
    slopesExceed (rwrite u (Reg.NET_CTRL p) w) p = false → exec (.netModeWrite p w) s =
      .next (netFlushWith raise (rclr (rwrite u (Reg.NET_CTRL p) w) (Reg.NET_STAT p) F.NET_STAT_AN_DONE) p)) ∧
  (∀ (p : Fin 8) (w : Word) (s u : State), hostMay s → u = updateCredits s p →
    slopesExceed (rwrite u (Reg.NET_CTRL p) w) p = true →
    exec (.netModeWrite p w) s = .next (rset u (Reg.NET_STAT p) F.NET_STAT_REFUSED)) ∧
  (∀ (p : Fin 8) (s : State), live s = true → netLink s p = false → netFenced s p = false →
    rget s (Reg.NET_CTRL p) F.NET_CTRL_MODE ≠ 0 → inReset s (unitNet p) = false →
    exec (.netLinkUp p) s =
      .next (rbit (rset (rset s (Reg.NET_STAT p) F.NET_STAT_LINK) (Reg.NET_STAT p) F.NET_STAT_LINK_CHG)
        (Reg.NET_STAT p) F.NET_STAT_AN_DONE
        (rget s (Reg.NET_CTRL p) F.NET_CTRL_MODE == 1 &&
          ron (rset (rset s (Reg.NET_STAT p) F.NET_STAT_LINK) (Reg.NET_STAT p) F.NET_STAT_LINK_CHG)
            (Reg.NET_CTRL p) F.NET_CTRL_AN_EN))) ∧
  (∀ (p : Fin 8) (us : Nat) (s u : State), live s = true → netLink s p = true →
    max 1 (rget s (Reg.NET_LINK p) F.NET_LINK_DOWN_US) ≤ us →
    u = linkClearWith raise s p → exec (.netLinkDown ⟨p, us⟩) s = .next (raise u (0x300 + 8 * p) p 0)) ∧
  (∀ (p : Fin 8) (us : Nat) (s : State), us < max 1 (rget s (Reg.NET_LINK p) F.NET_LINK_DOWN_US) →
    exec (.netLinkDown ⟨p, us⟩) s = .next s) ∧
  (∀ (p : Fin 8) (w : Word) (s : State), hostMay s → w.toNat % 2 = 1 → mapWf hostReset s.regs = true →
    ∃ t, exec (.netCntClr p w) s = .next t ∧ t = { s with regs := t.regs } ∧
      ∀ a, rd t a = if Reg.NET_RX_OK p ≤ a ∧ a < Reg.NET_CNT_CLR p then hostReset a else rd s a)

/-- A received frame with a wrong FCS counts in RX_FCS, and one that passes counts in RX_OK, its corrected FEC codewords
counting where MODE is 3 with FEC 1 or 2, and goes to its one consumer with its corrected ingress stamp. An expired
pause ends; the watchdog ends a pause longer than PAUSE_MAX, sets WD_FIRED, counts WD_COUNT, and raises 0x302 + 8p.
A posted buffer is kept for its queue pair. An update of the time servo without a slave port writes its registers
and no time; one that reports a state its port may not have, or that comes while the supervisor restarts, changes
nothing. (R286, R287, R288, R295, R296, R303) -/
def Obligations.NetworkReceptionComplete : Prop :=
  (∀ (p : Fin 8) (bs : List Byte) (s : State), live s = true → netOn s p = true → netLink s p = true →
    netFenced s p = false → exec (.frameReceive p ⟨bs, false, 0, 0, false⟩) s =
      .next (countErrors (radd (radd (radd s (Reg.NET_FEC_CORR p) F.NET_FEC_CORR_COUNT 0) (Reg.NET_FEC_UNCORR p)
          F.NET_FEC_UNCORR_COUNT 0) (Reg.NET_RX_FCS p) F.NET_RX_FCS_COUNT 1) p 1
        (rd (radd (radd (radd s (Reg.NET_FEC_CORR p) F.NET_FEC_CORR_COUNT 0) (Reg.NET_FEC_UNCORR p)
          F.NET_FEC_UNCORR_COUNT 0) (Reg.NET_RX_FCS p) F.NET_RX_FCS_COUNT 1) (Reg.NET_RX_FCS p)).toNat)) ∧
  (∀ (p : Fin 8) (bs : List Byte) (corr c : Nat) (s u : State), live s = true → netOn s p = true → netLink s p = true →
    netFenced s p = false → c = (if rget s (Reg.NET_CTRL p) F.NET_CTRL_MODE = 3 ∧ (rget s (Reg.NET_CTRL p) F.NET_CTRL_FEC = 1 ∨
      rget s (Reg.NET_CTRL p) F.NET_CTRL_FEC = 2) then corr else 0) →
    u = countErrors (radd (radd (radd s (Reg.NET_FEC_CORR p) F.NET_FEC_CORR_COUNT c) (Reg.NET_FEC_UNCORR p)
      F.NET_FEC_UNCORR_COUNT 0) (Reg.NET_RX_FCS p) F.NET_RX_FCS_COUNT 0) p 0
      (rd (radd (radd (radd s (Reg.NET_FEC_CORR p) F.NET_FEC_CORR_COUNT c) (Reg.NET_FEC_UNCORR p)
        F.NET_FEC_UNCORR_COUNT 0) (Reg.NET_RX_FCS p) F.NET_RX_FCS_COUNT 0) (Reg.NET_FEC_UNCORR p)).toNat →
    60 ≤ bs.length → bs.length + 4 ≤ maxFrame u p →
    exec (.frameReceive p ⟨bs, true, corr, 0, false⟩) s =
      .next (classify (rput u (Reg.NET_RX_OK p) F.NET_RX_OK_COUNT (rget u (Reg.NET_RX_OK p) F.NET_RX_OK_COUNT + 1)) p bs
        (now (rput u (Reg.NET_RX_OK p) F.NET_RX_OK_COUNT (rget u (Reg.NET_RX_OK p) F.NET_RX_OK_COUNT + 1)) -
          rgetI (rput u (Reg.NET_RX_OK p) F.NET_RX_OK_COUNT (rget u (Reg.NET_RX_OK p) F.NET_RX_OK_COUNT + 1))
            (Reg.NET_TSCORR p) F.NET_TSCORR_RX * 65536))) ∧
  (∀ (p : Fin 8) (c : Nat) (s : State), live s = true → (netAt s p).pauseFrom = some c →
    (netAt s p).pauseQuanta * 512 * 393216000 ≤ (s.time.cnt - c) * lineRate s p →
    exec (.pauseExpiry p) s = .next (endPause (updateCredits s p) p)) ∧
  (∀ (p : Fin 8) (c : Nat) (s u : State), live s = true → (netAt s p).pauseAt = some c →
    rget s (Reg.NET_PAUSE p) F.NET_PAUSE_PAUSE_MAX * 393216 < (s.time.cnt - c) * 1000 →
    u = radd (rset (setNet (endPause s p) p { netAt (endPause s p) p with deafSince := some s.time.cnt })
      (Reg.NET_STAT p) F.NET_STAT_WD_FIRED) (Reg.NET_WD_COUNT p) F.NET_WD_COUNT_COUNT 1 →
    exec (.pauseWatchdog p) s = .next (raise u (0x302 + 8 * p) p (rd u (Reg.NET_WD_COUNT p)).toNat)) ∧
  (∀ (d : DescRef) (bs : List Byte) (s : State), ready s d 0x49 bs →
    (∀ p, p < 8 → netFenced (markAccepted s d) p = false) →
    exec (.netRxPost d) s = .next { markAccepted s d with posted := s.posted ++ [d] }) ∧
  (∀ (u : ServoReport) (s : State), live s = true → Memory.wf s = true → ptpServed s = true → s.boot.restarting = false → u.states = [] → u.delays = [] →
    ∃ t, exec (.servoUpdate u) s = .next t ∧ rd t Reg.NET_PTP_SLV = 0 ∧ t.time = s.time ∧ memoriesKept s t) ∧
  (∀ (u : ServoReport) (s : State) (p : Nat), p < 8 → ptpStateOk s p (reportedState u p) = false →
    exec (.servoUpdate u) s = .next s) ∧
  (∀ (u : ServoReport) (s : State), s.boot.restarting = true → exec (.servoUpdate u) s = .next s)

/-- An idle port starts the head frame of its highest eligible queue. The last segment's end completes its NET_TX with
the number of segments; a stream's frame counts in SENT_A or SENT_B of its stream. A head frame with a launch time
that waits past L + LATE_MAX is dropped, counted and raised; the NET_TX of a dropped frame completes with TIMEOUT
and the segments sent, and a stream packet so dropped counts in LATE_DROP of its stream; with LATE_MAX = 0 nothing
is dropped. A NET_TX whose parameters and link allow it enters its frames in its queue; with the link down it
completes NOT_READY. (R290, R293, R297, R298, R299, R320) -/
def Obligations.NetworkTransmissionComplete : Prop :=
  (∀ (p : Fin 8) (q : Nat) (b : Bool) (s u : State), live s = true → u = updateCredits s p → portFree u p = true →
    eligibleQueue u p = some q → exec (.frameTransmit p none b) s = .next (startFrame u p q b)) ∧
  (∀ (p : Fin 8) (q seg : Nat) (d : DescRef) (f : TxFrame) (s u v : State), live s = true → (netAt s p).line = some (q, f) →
    f.owner = .host d seg (seg + 1) → f.stamp = false → u = updateCredits s p →
    v = setNet u p { netAt u p with line := none, pauseFrom := if (netAt u p).pauseAt.isSome && (netAt u p).pauseFrom.isNone then some u.time.cnt else (netAt u p).pauseFrom } →
    exec (.transmitComplete p) s = .next (finish (rput v (Reg.NET_TX_OK p) F.NET_TX_OK_COUNT
      (rget v (Reg.NET_TX_OK p) F.NET_TX_OK_COUNT + 1)) d stOk (seg + 1))) ∧
  (∀ (p : Fin 8) (q t : Nat) (b : Bool) (f : TxFrame) (s u v : State), live s = true → (netAt s p).line = some (q, f) →
    f.owner = .stream t b → u = updateCredits s p →
    v = setNet u p { netAt u p with line := none, pauseFrom := if (netAt u p).pauseAt.isSome && (netAt u p).pauseFrom.isNone then some u.time.cnt else (netAt u p).pauseFrom } →
    exec (.transmitComplete p) s = .next (paddWrap (rput v (Reg.NET_TX_OK p) F.NET_TX_OK_COUNT
      (rget v (Reg.NET_TX_OK p) F.NET_TX_OK_COUNT + 1)) (if b then P.STR_TX_SENT_B else P.STR_TX_SENT_A) t 1)) ∧
  (∀ (p q : Fin 8) (f : TxFrame) (rest : List TxFrame) (l : Int) (s u : State), live s = true → netQueue s p q = f :: rest →
    f.launch = some l → f.owner = .unowned → rget s (Reg.NET_LT p) F.NET_LT_LATE_MAX ≠ 0 → timeValid s = true →
    l + rget s (Reg.NET_LT p) F.NET_LT_LATE_MAX * 65536000 ≤ now s →
    u = radd (setQueue (updateCredits s p) p q rest) (Reg.NET_TX_LATE_DROP p) F.NET_TX_LATE_DROP_COUNT 1 →
    exec (.launchLateDiscard p q) s = .next (raise u (0x303 + 8 * p) p (rd u (Reg.NET_TX_LATE_DROP p)).toNat)) ∧
  (∀ (p q : Fin 8) (f : TxFrame) (rest : List TxFrame) (l : Int) (t : Nat) (b : Bool) (s u v : State), live s = true →
    netQueue s p q = f :: rest → f.launch = some l → f.owner = .stream t b →
    rget s (Reg.NET_LT p) F.NET_LT_LATE_MAX ≠ 0 → timeValid s = true →
    l + rget s (Reg.NET_LT p) F.NET_LT_LATE_MAX * 65536000 ≤ now s →
    u = radd (setQueue (updateCredits s p) p q rest) (Reg.NET_TX_LATE_DROP p) F.NET_TX_LATE_DROP_COUNT 1 →
    v = raise u (0x303 + 8 * p) p (rd u (Reg.NET_TX_LATE_DROP p)).toNat →
    exec (.launchLateDiscard p q) s = .next (strTxDrop (paddSat v P.STR_TX_LATE_DROP t 1) t)) ∧
  (∀ (p q : Fin 8) (f : TxFrame) (rest : List TxFrame) (l : Int) (d : DescRef) (seg n : Nat) (s u v : State), live s = true →
    netQueue s p q = f :: rest → f.launch = some l → f.owner = .host d seg n →
    rget s (Reg.NET_LT p) F.NET_LT_LATE_MAX ≠ 0 → timeValid s = true →
    l + rget s (Reg.NET_LT p) F.NET_LT_LATE_MAX * 65536000 ≤ now s →
    u = radd (setQueue (updateCredits s p) p q rest) (Reg.NET_TX_LATE_DROP p) F.NET_TX_LATE_DROP_COUNT 1 →
    v = raise u (0x303 + 8 * p) p (rd u (Reg.NET_TX_LATE_DROP p)).toNat →
    exec (.launchLateDiscard p q) s = .next (endNetTx v p d stTimeout seg) ∧
      ∃ w, endNetTx v p d stTimeout seg = finish w d stTimeout seg) ∧
  (∀ (p q : Fin 8) (s : State), rget s (Reg.NET_LT p) F.NET_LT_LATE_MAX = 0 → exec (.launchLateDiscard p q) s = .next s) ∧
  (∀ (d : DescRef) (bs f : List Byte) (p : Nat) (s u : State), ready s d 0x48 bs → u = markAccepted s d → p = par bs 8 0 3 →
    par bs 8 6 1 = 0 → par bs 8 8 1 = 0 → par bs 8 9 1 = 0 → par bs 8 10 1 = 0 → f.length = leAt bs 12 4 → isPtp f = false →
    f.length + 4 ≤ maxFrame u p → netFenced u p = false → netLink u p = true →
    exec (.netTx d (some f)) s = .next (queueHost u d p (par bs 8 3 3) none (par bs 8 7 1 == 1) [f])) ∧
  (∀ (d : DescRef) (bs f : List Byte) (p : Nat) (s u : State), ready s d 0x48 bs → u = markAccepted s d → p = par bs 8 0 3 →
    par bs 8 6 1 = 0 → par bs 8 10 1 = 0 → f.length = leAt bs 12 4 → isPtp f = false →
    f.length + 4 ≤ maxFrame u p → netFenced u p = false → netLink u p = false →
    exec (.netTx d (some f)) s = .next (finish u d stNotReady 0))

/-- A STREAM_CFG for a stream that is not enabled writes its entry, EN apart, and completes OK; one for an enabled
stream completes INVALID_PARAM. In the last 4 µs of a running period stored samples with an uncorrectable error are
poisoned and the streams' beads are judged. STR_CLR.GO queues the clear of its range. (R41, R305, R316, R325) -/
def Obligations.StreamsComplete : Prop :=
  (∀ (d : DescRef) (bs im : List Byte) (n : Nat) (s u v : State), ready s d 0x29 bs → u = markAccepted s d →
    n = par bs 8 0 10 → n < 512 → im.length = 96 → ron u Reg.STR_STAT F.STR_STAT_FENCED = false →
    pon u P.STR_RX_EN n = false → v = writeImage u 0x0D01 n 24 (par bs 12 0 24) im 1 → threatens u v = false →
    exec (.streamCfg d (some im)) s = .next (finish v d stOk 0)) ∧
  (∀ (d : DescRef) (bs im : List Byte) (n : Nat) (s u v : State), ready s d 0x29 bs → u = markAccepted s d →
    n = par bs 8 0 10 → 512 ≤ n → im.length = 64 → ron u Reg.STR_STAT F.STR_STAT_FENCED = false →
    pon u P.STR_TX_EN (n - 512) = false → v = writeImage u 0x0D02 (n - 512) 16 (par bs 12 0 24) im 1 →
    threatens u v = false → exec (.streamCfg d (some im)) s = .next (finish v d stOk 0)) ∧
  (∀ (d : DescRef) (bs im : List Byte) (s u : State), ready s d 0x29 bs → u = markAccepted s d → par bs 8 0 10 < 512 →
    im.length = 96 → ron u Reg.STR_STAT F.STR_STAT_FENCED = false → pon u P.STR_RX_EN (par bs 8 0 10) = true →
    exec (.streamCfg d (some im)) s = .next (finish u d stInvalidParam 0)) ∧
  (∀ (d : DescRef) (bs im : List Byte) (s u : State), ready s d 0x29 bs → u = markAccepted s d → 512 ≤ par bs 8 0 10 →
    im.length = 64 → ron u Reg.STR_STAT F.STR_STAT_FENCED = false → pon u P.STR_TX_EN (par bs 8 0 10 - 512) = true →
    exec (.streamCfg d (some im)) s = .next (finish u d stInvalidParam 0)) ∧
  (∀ (bad : List (Fin 1024 × Fin 32)) (s u : State), live s = true → running s = true →
    u = forEach bad s (fun s e => uncorrectable s .dram (strStoreWord s e.1 ((s.grid.index * blk s + e.2) % 1024) / 2 ^ 27 % 4)
      (dramByte (strStoreWord s e.1 ((s.grid.index * blk s + e.2) % 1024)))) →
    exec (.streamBeadDeadline bad) s = .next (forEach (enabledEntries u P.STR_RX_EN) u streamDeadline)) ∧
  (∀ (w : Word) (s u : State), hostMay s → u = rwrite s Reg.STR_CLR w → fldGet F.STR_CLR_GO w = 1 →
    exec (.strClr w) s = .next { u with strClears := u.strClears ++
      [(rget u Reg.STR_CLR F.STR_CLR_FIRST, rget u Reg.STR_CLR F.STR_CLR_LAST)] })

/-- Each sync header that a lane receives takes part in its block lock in turn, at the host die for the upstream lanes
and at the field die for the others. The 64th valid header in a row locks an upstream lane, which shows in BAR_STAT,
and the link that is not UP trains; a sixteenth bad header of a window unlocks it and raises its source, and with
neither lane locked no die status is known any more; a bad header met without lock starts the count again.
Descrambling undoes scrambling, and from any other state all but the first 58 bits; the data blocks of messages and
the idle blocks between them give the messages back. A silent link, or one without a die status for four blocks,
leaves UP with its source and with the unacknowledged tallies. At a send instant both SAMPLES messages go. A message
without ACK is sent again while tries remain, and is given up after them. A die UNSEALED for a second raises its
source. BAR_CNT_CLR.GO clears the barrier's counters. (R326, R328, R331, R334, R337, R342, R356) -/
def Obligations.BarrierLinksComplete : Prop :=
  (∀ (d : Die) (s : State) (l : Lane) (i : Nat) (headers : List Bool), live s = true → diePresent s d = true →
    (l, i) ∈ [(Lane.ul0, 0), (Lane.ul1, 1)] →
    exec (.barrierLaneLock d l headers) s = .next (forEach headers s (upperHeader d i))) ∧
  (∀ (d : Die) (s : State) (l : Lane) (i : Nat) (headers : List Bool), dieHere s d = true →
    (l, i) ∈ [(Lane.dl0, 0), (Lane.dl1, 1), (Lane.twin0, 2), (Lane.twin1, 3)] →
    exec (.barrierLaneLock d l headers) s = .next (settleDie s (forEach headers s (lowerHeader d i)) d)) ∧
  (∀ (d : Die) (s u : State) (l : Lane) (f : Fld) (i : Nat), live s = true → diePresent s d = true →
    Memory.wf s = true → (l, f, i) ∈ [(Lane.ul0, F.BAR_STAT_UL0, 0), (Lane.ul1, F.BAR_STAT_UL1, 1)] → barLink s d ≠ lkUp →
    ron s (Reg.BAR_STAT (dieNum d)) f = false → mapGet (fun _ => (0, 0)) (barAt s d).sync i = (63, 0) →
    u = rbit (setBar s d { barAt s d with sync := mapSet (fun _ => (0, 0)) (barAt s d).sync i (0, 0) })
      (Reg.BAR_STAT (dieNum d)) f true →
    exec (.barrierLaneLock d l [true]) s = .next (setLink u d lkTraining)) ∧
  (∀ (d : Die) (s u : State) (l : Lane) (f : Fld) (i n : Nat), live s = true → diePresent s d = true →
    Memory.wf s = true → (l, f, i) ∈ [(Lane.ul0, F.BAR_STAT_UL0, 0), (Lane.ul1, F.BAR_STAT_UL1, 1)] → barLink s d = lkUp →
    ron s (Reg.BAR_STAT (dieNum d)) f = true → mapGet (fun _ => (0, 0)) (barAt s d).sync i = (n, 15) →
    u = rbit (setBar s d { barAt s d with sync := mapSet (fun _ => (0, 0)) (barAt s d).sync i (0, 0) })
      (Reg.BAR_STAT (dieNum d)) f false →
    exec (.barrierLaneLock d l [false]) s = .next (barRaise (if laneLink u d = lkDown then
      setBar u d { barAt u d with status := false } else u) d i 0)) ∧
  (∀ (d : Die) (s : State) (l : Lane) (f : Fld) (i : Nat), live s = true → diePresent s d = true →
    (l, f, i) ∈ [(Lane.ul0, F.BAR_STAT_UL0, 0), (Lane.ul1, F.BAR_STAT_UL1, 1)] →
    ron s (Reg.BAR_STAT (dieNum d)) f = false → exec (.barrierLaneLock d l [false]) s =
      .next (setBar s d { barAt s d with sync := mapSet (fun _ => (0, 0)) (barAt s d).sync i (0, 0) })) ∧
  (∀ (st far xs : List Bool), descramble st (scramble st xs) = xs ∧
    (descramble far (scramble st xs)).drop 58 = xs.drop 58) ∧
  (∀ (ms : List (List Nat)), (∀ m ∈ ms, m ≠ [] ∧ ∀ w ∈ m, w < 2 ^ 64) → laneMessages (ms.flatMap messageBlocks) [] = ms) ∧
  (∀ (d : Die) (s u : State), live s = true → barUp s d = true →
    (linkSilent s d = true ∨ 4 ≤ (barAt s d).blocks) → u = setBar s d { barAt s d with upAt := none } →
    exec (.barrierLinkTimeout d) s = .next (coordinate (forEach (unacked (barRaise (setLink u d (laneLink u d)) d 4 0) d)
      (barRaise (setLink u d (laneLink u d)) d 4 0) failField))) ∧
  (∀ (d : Die) (j : Fin 32) (s : State), live s = true → exec (.sampleSendInstant d j) s = .next (sampleSend s d j)) ∧
  (∀ (d : Die) (q : Fin 65536) (w : BarWait) (s : State), live s = true →
    (barAt s d).waits.find? (fun w => w.seq == q.val && ackDue s d w) = some w →
    (w.tries < rget s (Reg.BAR_CTRL (dieNum d)) F.BAR_CTRL_RETRIES →
      exec (.ackTimeout d q) s = .next (resend s d w)) ∧
    (rget s (Reg.BAR_CTRL (dieNum d)) F.BAR_CTRL_RETRIES ≤ w.tries →
      exec (.ackTimeout d q) s = .next (ackFailed s d w))) ∧
  (∀ (d : Die) (c : Nat) (s : State), live s = true → (barAt s d).upAt = some c → barUp s d = true →
    ron s (Reg.BAR_STAT (dieNum d)) F.BAR_STAT_SEALED = false → ticksReach (s.time.cnt - c) 1000000 = true →
    exec (.dieUnsealedTimeout d) s = .next (barRaise (setBar s d { barAt s d with upAt := none }) d 0x0A 0)) ∧
  (∀ (d : Die) (w : Word) (s : State), hostMay s → diePresent s d = true → fldGet F.BAR_CNT_CLR_GO w = 1 →
    exec (.barCntClr d w) s = .next (resetRange s (Reg.BAR_CNT_CRC (dieNum d)) (Reg.BAR_CNT_CLR (dieNum d))))

/-- An accepted SENSE gives each of its eight channels one VS and one IS value; STATUS shows the die's state, answers a
READ, or carries a part of its tally section; FAULT raises the field source with its channel and datum and is held
in BAR_FAULT_LAST; ACK ends the wait of its SEQ; a DIAG_RESULT joins the DIAG_RUN that waits for it. (R327, R329,
R331, R335, R336, R339, R413) -/
def Obligations.UpstreamMessagesComplete : Prop :=
  (∀ (d : Die) (ws : List Nat) (s : State), heardUp s d ws btSense →
    exec (.sense d ws) s = .next (forEach (List.range 8) (afterUp s d ws) (fun u i =>
      senseValue (senseValue u (32 * dieNum d + 8 * msgArgB ws + i) (msgW ws 0) (BitVec.ofNat 32 (msgW ws (1 + i))))
        (64 + (32 * dieNum d + 8 * msgArgB ws + i)) (msgW ws 0) (BitVec.ofNat 32 (msgW ws (1 + i) / 2 ^ 32))))) ∧
  (∀ (d : Die) (ws : List Nat) (o : Option (Fin 16)) (s u : State), heardUp s d ws btStatus → u = afterUp s d ws →
    (msgArgA ws = 0 → o = none → exec (.status d ws o) s = .next (dieStatus u d ws)) ∧
    (∀ i, msgArgA ws = 0 → o = some i → exec (.status d ws o) s = .next (raise (dieStatus u d ws) 0x285 i 0)) ∧
    (msgArgA ws = 1 → exec (.status d ws o) s = .next (setBar u d { barAt u d with
      replies := mapSet (fun _ => none) (barAt u d).replies (bitsOf (msgW ws 0) 0 16) (some (bitsOf (msgW ws 0) 32 32)) })) ∧
    (2 ≤ msgArgA ws → exec (.status d ws o) s =
      .next (sectionPart u d (msgArgA ws - 0x100) (msgW ws 0) (wordsBytes (ws.drop 2))))) ∧
  (∀ (d : Die) (ws : List Nat) (s u : State) (a : Nat), heardUp s d ws btFault → a = Reg.BAR_FAULT_LAST (dieNum d) →
    u = rset (rput (rput (afterUp s d ws) a F.BAR_FAULT_LAST_INDEX (msgArgA ws)) a F.BAR_FAULT_LAST_CHANNEL (msgArgB ws)) a
      F.BAR_FAULT_LAST_VALID →
    exec (.fault d ws) s = .next (raise u (0x400 + 0x40 * dieNum d + msgArgA ws)
      (if msgArgB ws = 255 then noInst else msgArgB ws) (msgW ws 1))) ∧
  (∀ (d : Die) (ws : List Nat) (w : BarWait) (s u : State), heardUp s d ws btAck → u = afterUp s d ws →
    (barAt u d).waits.find? (fun w => w.seq == msgArgA ws) = some w →
    exec (.ack d ws) s = .next (acknowledged (setBar u d { barAt u d with waits := (barAt u d).waits.erase w }) d w
      (msgArgB ws))) ∧
  (∀ (d : Die) (ws : List Nat) (r q : DiagRun) (s u v : State), heardUp s d ws btDiag → u = afterUp s d ws →
    u.diags.find? (fun r => r.die == d && r.run == msgArgA ws && bitOf r.mask (msgArgB ws / 8)) = some r →
    q = { r with parts := mapSet (fun _ => []) r.parts (16 * (msgArgB ws / 8) + msgArgB ws % 8) ws.tail } →
    v = { u with diags := u.diags.map (fun x => if x.ref = r.ref then q else x) } →
    exec (.diagResult d ws) s = .next (if diagWhole q then endDiag v q stOk else v))

/-- SAMPLES store their samples, and a shadow whose barrier is UP forwards them; HEARTBEAT gives the block, the rate,
the block length and the epoch, aligns the tick and clears HOST_LOST; PARAM stages a record that the die judges
good; SEAL sets a limit; a CMD of an unknown code is answered UNKNOWN_COMMAND; every PARAM, SEAL and CMD is answered
with an ACK. On the twin lanes samples are taken by a driving die, digests are kept and compared, and status makes
the link UP. (R329, R331, R332, R333, R343, R346, R347, R349, R350, R566) -/
def Obligations.FieldMessagesComplete : Prop :=
  (∀ (d : Die) (ws : List Nat) (s u : State), heardDown s d ws (isType btSamples) →
    u = takeSamples (afterDown s d ws) d false ws →
    exec (.samples d ws) s = .next (settleDie s (if isShadow u d = true ∧ barUp u d = true then
      twinSend u d btTwinSamples (msgArgA ws) (msgArgB ws) ws.tail else u) d)) ∧
  (∀ (d : Die) (ws : List Nat) (s u : State) (x : FieldDie), heardDown s d ws (isType btHeartbeat) → u = afterDown s d ws →
    x = { dieAt u d with beats := ((msgW ws 0, bitsOf (msgW ws 1) 0 32) :: (dieAt u d).beats).take 3, beatNew := true, fs := min 2 (bitsOf (msgArgA ws) 1 2), blkCode := bitsOf (msgArgA ws) 3 2, missed := 0, tick := some ((msgW ws 0 - 1) * (4 * 2 ^ bitsOf (msgArgA ws) 3 2)) } →
    exec (.barrierHeartbeat d ws) s =
      .next (settleDie s (fbit (setDie u d x) d Reg.FLD_STAT F.FLD_STAT_HOST_LOST false) d)) ∧
  (∀ (d : Die) (ws : List Nat) (s u : State) (x : State × Nat), heardDown s d ws (isType btSeal) → u = afterDown s d ws →
    x = sealStep u d (msgArgA ws) (bitOf (msgArgB ws) 0) (BitVec.ofNat 32 (msgW ws 0)) →
    exec (.sealMsg d ws) s = .next (settleDie s (ackSend x.1 d ws x.2) d)) ∧
  (∀ (d : Die) (ws : List Nat) (s u : State) (r : StagedRec) (o : List StagedRec), heardDown s d ws (isType btParam) →
    u = afterDown s d ws →
    r = ⟨msgArgB ws % 16, msgW ws 0, bitsOf (msgW ws 1) 0 32, bitsOf (msgW ws 1) 32 32, msgArgA ws,
      BitVec.ofNat 32 (bitsOf (msgW ws 2) 32 32), BitVec.ofNat 32 (bitsOf (msgW ws 2) 0 32), false⟩ →
    o = (dieAt u d).staged.filter (fun x => !(x.id == r.id && x.n == r.n && x.ord == r.ord)) →
    (judgeParam u d r o = akAccepted → exec (.param d ws) s =
      .next (settleDie s (ackSend (setDie u d { dieAt u d with staged := insertRec r o }) d ws akAccepted) d)) ∧
    (judgeParam u d r o ≠ akAccepted → exec (.param d ws) s =
      .next (settleDie s (ackSend u d ws (judgeParam u d r o)) d))) ∧
  (∀ (d : Die) (ws : List Nat) (s : State),
    heardDown s d ws (fun ws => msgType ws == btCmd && (cmdShape (msgArgA ws)).isNone) →
    exec (.cmdUnknown d ws) s = .next (settleDie s (ackSend (afterDown s d ws) d ws akUnknown) d)) ∧
  (∀ (d : Die) (ws : List Nat) (s u : State), heardTwin s d ws btTwinSamples → u = afterTwin s d ws →
    twinEn u d = true → isShadow u d = false →
    exec (.twinSamples d ws) s = .next (settleDie s (takeSamples u d true ws) d)) ∧
  (∀ (d : Die) (ws : List Nat) (s u v : State) (m : DigestMsg), heardTwin s d ws btTwinDigest → u = afterTwin s d ws →
    m = ⟨msgW ws 0, msgArgB ws % 2, bitsOf (msgW ws 1) 0 32, bitsOf (msgW ws 1) 32 16,
      (List.range 16).map (fun i => bitsOf (msgW ws (2 + i / 2)) (32 * (i % 2)) 32)⟩ →
    v = setDie u d { dieAt u d with peerDig := m :: (dieAt u d).peerDig.filter (fun y => !(y.n == m.n && y.half == m.half)) } →
    exec (.twinDigest d ws) s = .next (settleDie s (if twinEn v d = true then compareDigests v d m.n m.half else v) d)) ∧
  (∀ (d : Die) (ws : List Nat) (s u v : State), heardTwin s d ws btTwinStatus → u = afterTwin s d ws →
    v = fbit (fbit (fbit (fbit u d Reg.FLD_TWIN_STAT F.FLD_TWIN_STAT_TWIN_UP true) d Reg.FLD_TWIN_STAT
      F.FLD_TWIN_STAT_P_ROLE (bitOf (msgArgA ws) 0)) d Reg.FLD_TWIN_STAT F.FLD_TWIN_STAT_P_SAFE (bitOf (msgArgA ws) 1)) d
      Reg.FLD_TWIN_STAT F.FLD_TWIN_STAT_P_EN (bitOf (msgArgA ws) 2) →
    exec (.twinStatus d ws) s = .next (settleDie s (conflictCheck
      (if bitOf (msgArgA ws) 1 = true ∧ fon u d Reg.FLD_TWIN_STAT F.FLD_TWIN_STAT_P_SAFE = false then
        fldRaise v d 0x0C 0xFF 0 else v) d) d)) ∧
  (∀ (d : Die) (s : State), dieHere s d = true →
    exec (.twinStatusSend d) s = .next (settleDie s (twinStatusSend s d) d) ∧
    (twinUp s d = true → exec (.twinLinkTimeout d) s = .next (settleDie s (conflictCheck (fldRaise (fldRaise
      (fbit s d Reg.FLD_TWIN_STAT F.FLD_TWIN_STAT_TWIN_UP false) d 0x08 0xFF 0) d 0x0C 0xFF 0) d) d)))

/-- Each CMD that a die accepts has its effect and is answered with an ACK: a tally's records become committed or are
discarded; a CARRY instant is kept; FORCE_SAFE forces the safe state; RELEASE leaves FORCED and arms the channels;
READ is answered with the register; SEAL_TIGHTEN moves a sealed value and its working value; TRIP_CLEAR re-arms
tripped channels; RAW_WRITE pairs by generation, a pair completed in the last four ticks before a valley being left
for the next one; PWM_CNT_CLR zeroes counters; DIAG_SWEEP starts a sweep and DIAG_ABORT ends it; PROT_CLEAR clears
DC latches; ZREF_CAPTURE stores references. A CMD other than a READ that is sent again after it was acted on is only
answered again. (R263, R331, R336, R341, R344, R369, R372, R375, R377, R403, R412, R414) -/
def Obligations.FieldCommandsComplete : Prop :=
  (∀ (d : Die) (m : CmdCopy) (s u : State), heardCmd s d m 1 → u = afterDown s d m.words → msgArgB m.words ≤ 15 →
    exec (.cmdTallyCommit d m) s = .next (settleDie s (answered (setDie u d { dieAt u d with
      staged := listUpdate (fun r => r.id == msgArgB m.words && r.n == msgW m.words 0) (fun r => { r with committed := true })
        (dieAt u d).staged }) d m akAccepted) d)) ∧
  (∀ (d : Die) (m : CmdCopy) (s u : State), heardCmd s d m 2 → u = afterDown s d m.words → msgArgB m.words ≤ 15 →
    exec (.tallyDiscard d m) s = .next (settleDie s (answered (setDie u d { dieAt u d with
      staged := (dieAt u d).staged.filter (fun r => !(r.id == msgArgB m.words && r.n == msgW m.words 0)) }) d m akAccepted) d)) ∧
  (∀ (d : Die) (m : CmdCopy) (s u : State), heardCmd s d m 3 → u = afterDown s d m.words →
    (dieAt u d).carries.contains (msgW m.words 0) = false → (dieAt u d).latched.contains (msgW m.words 0) = false →
    exec (.cmdCarry d m) s = .next (settleDie s (answered (setDie u d { dieAt u d with
      carries := (dieAt u d).carries ++ [msgW m.words 0] }) d m akAccepted) d)) ∧
  (∀ (d : Die) (m : CmdCopy) (s u : State), heardCmd s d m 4 → u = afterDown s d m.words →
    (fldState u d = fdUnsealed → exec (.forceSafe d m) s = .next (settleDie s (answered (safeNow u d) d m akState) d)) ∧
    (fldState u d ≠ fdUnsealed → exec (.forceSafe d m) s =
      .next (settleDie s (answered (safeNow (setFldState u d fdForced) d) d m akAccepted) d))) ∧
  (∀ (d : Die) (m : CmdCopy) (s u v : State), heardCmd s d m 5 → u = afterDown s d m.words →
    v = (if fldState u d = fdForced then leaveSafe (setFldState u d fdSafe) d else u) →
    exec (.release d m) s = .next (settleDie s (answered
      (forEach (fchans.filter (fun c => fcState v d c == fcOff || fcState v d c == fcLossSafe)) v (fun v c =>
        setFch v d c { fch v d c with armed := true, good := 0 })) d m akAccepted) d)) ∧
  (∀ (d : Die) (m : CmdCopy) (s u : State) (a : Nat), heardCmd s d m 6 → u = afterDown s d m.words →
    a = bitsOf (msgW m.words 0) 0 16 → (fieldRow a).isSome = true →
    exec (.cmdRead d m) s = .next (settleDie s (answered (upSend u d btStatus 1 0
      [a + 2 ^ 32 * (fieldRead u d a).toNat, 0, 0]) d m akAccepted) d)) ∧
  (∀ (d : Die) (m : CmdCopy) (s u v : State) (a : Nat) (w : Word), heardCmd s d m 7 → u = afterDown s d m.words →
    a = bitsOf (msgW m.words 0) 0 16 → w = BitVec.ofNat 32 (bitsOf (msgW m.words 0) 32 32) → (limitsOf a).isEmpty = false →
    (∀ l ∈ limitsOf a, pastTight l w = false ∧ looser l w (sealOf u d a) = false) →
    fon u d Reg.FLD_STAT F.FLD_STAT_SEALED = true → v = setSeal u d a (copyLimits (limitsOf a) w (sealOf u d a)) →
    exec (.sealTighten d m) s = .next (settleDie s (answered (fwr v d a
      (copyLimits ((limitsOf a).filter (fun l => looser l (frd v d a) w)) w (frd v d a))) d m akAccepted) d)) ∧
  (∀ (d : Die) (m : CmdCopy) (s u : State) (l : List Nat), heardCmd s d m 0x100 → u = afterDown s d m.words →
    l = (maskChans (msgW m.words 0)).filter (fun c => pwState u d c == pwTripped) →
    exec (.tripClear d m) s = .next (settleDie s (answered (forEach l u (fun v c =>
      if tripIn v d c = true then fldRaise (fbit v d (Reg.PWM_CH_STAT c) F.PWM_CH_STAT_TRIP_STILL_ACTIVE true) d 0x22 c 0
      else fbit (setPwState v d c pwRearming) d (Reg.PWM_CH_STAT c) F.PWM_CH_STAT_TRIP_STILL_ACTIVE false)) d m
      (if l.any (tripIn u d) = true then akState else akAccepted)) d)) ∧
  (∀ (d : Die) (m : CmdCopy) (t a c : Nat) (duty : Bool) (s u : State) (w : Word) (row : RegRow) (x y : FieldChan)
    (per dut : Option Word), heardCmd s d m 0x101 → u = afterDown s d m.words → c = bitsOf (msgW m.words 0) 0 5 →
    bitOf (msgW m.words 0) 5 = duty → a = (if duty = true then Reg.PWM_CH_RAW_DUTY c else Reg.PWM_CH_RAW_PER c) →
    fieldRow a = some row → w = recWordOf row 0 (BitVec.allOnes 32) (BitVec.ofNat 32 (bitsOf (msgW m.words 0) 32 32)) →
    rangeOk u d a w = true → (pwState u d c = pwRaw ∨ pwState u d c = pwDisabled) → x = fch u d c →
    per = (if duty = true then x.pendPer else some w) → dut = (if duty = true then some w else x.pendDuty) →
    ((∃ p q, per = some p ∧ dut = some q ∧ fldGet F.PWM_CH_RAW_PER_GEN p = fldGet F.PWM_CH_RAW_DUTY_GEN q) →
      y = { x with pendPer := none, pendDuty := none, duePer := per, dueDuty := dut, dueLone := false, dueNext := decide (x.per ≤ t + 4) } →
      exec (.rawWrite d ⟨m, t⟩) s = .next (settleDie s (answered (showPend (setFch u d c y) d c) d m akAccepted) d)) ∧
    ((∀ p q, per = some p → dut = some q → fldGet F.PWM_CH_RAW_PER_GEN p ≠ fldGet F.PWM_CH_RAW_DUTY_GEN q) →
      y = (if duty = true then { x with pendDuty := dut, ageDuty := 0 } else { x with pendPer := per, agePer := 0 }) →
      exec (.rawWrite d ⟨m, t⟩) s = .next (settleDie s (answered (showPend (setFch u d c y) d c) d m akAccepted) d))) ∧
  (∀ (d : Die) (m : CmdCopy) (s : State), heardCmd s d m 0x102 →
    exec (.pwmCntClr d m) s = .next (settleDie s (answered (forEach (maskChans (msgW m.words 0)) (afterDown s d m.words)
      (fun u c => fwr u d (Reg.PWM_CH_CNT c) 0)) d m akAccepted) d)) ∧
  (∀ (d : Die) (m : CmdCopy) (s u v w : State), heardCmd s d m 0x200 → u = afterDown s d m.words →
    (maskChans (msgW m.words 0)).isEmpty = false → (dieAt u d).sweep = none →
    (∀ c ∈ maskChans (msgW m.words 0), fon u d (Reg.PWM_CH_STAT c) F.PWM_CH_STAT_GATES_ON = true ∧
      (fcState u d c = fcOwn ∨ fcState u d c = fcTwin)) → fon u d Reg.FLD_TWIN_CTRL F.FLD_TWIN_CTRL_ROLE = false →
    v = setDie u d { dieAt u d with sweep := some ⟨bitsOf (msgW m.words 0) 32 16, 0, 0, true, 0, 0, false⟩ } →
    w = forEach (maskChans (msgW m.words 0)) v (fun v c => setFch v d c { fch v d c with
      sweep := some ⟨0, [], demodZero, none, false⟩ }) →
    exec (.diagSweep d m) s = .next (settleDie s (answered (fput (fput (fbit w d Reg.DIAG_STAT F.DIAG_STAT_SWEEP_BUSY true) d
      Reg.DIAG_STAT F.DIAG_STAT_POINT 0) d Reg.DIAG_STAT F.DIAG_STAT_RUN (bitsOf (msgW m.words 0) 32 16)) d m akAccepted) d)) ∧
  (∀ (d : Die) (m : CmdCopy) (s : State), heardCmd s d m 0x201 →
    exec (.diagAbort d m) s = .next (settleDie s (answered (endSweeps (afterDown s d m.words) d 1) d m akAccepted) d)) ∧
  (∀ (d : Die) (m : CmdCopy) (s u : State), heardCmd s d m 0x202 → u = afterDown s d m.words →
    bitsOf (msgW m.words 0) 32 3 = 2 → bitsOf (msgW m.words 0) 0 32 ≠ 0 →
    exec (.protClear d m) s = .next (settleDie s (answered (forEach (maskChans (bitsOf (msgW m.words 0) 0 32)) u (fun v c =>
      if fon v d (Reg.PRT_CH_STAT c) F.PRT_CH_STAT_DC_OUT = true then
        setFch (fbit v d (Reg.PRT_CH_STAT c) F.PRT_CH_STAT_DC_OUT false) d c { fch v d c with dcOutRun := 0 }
      else v)) d m akAccepted) d)) ∧
  (∀ (d : Die) (m : CmdCopy) (s u : State), heardCmd s d m 0x202 → u = afterDown s d m.words →
    bitsOf (msgW m.words 0) 32 3 = 4 → bitsOf (msgW m.words 0) 0 32 ≠ 0 →
    exec (.protClear d m) s = .next (settleDie s (answered (forEach (maskChans (bitsOf (msgW m.words 0) 0 32)) u (fun v c =>
      if fon v d (Reg.PRT_CH_STAT c) F.PRT_CH_STAT_DC_STREAM = true then
        setFch (fbit v d (Reg.PRT_CH_STAT c) F.PRT_CH_STAT_DC_STREAM false) d c { fch v d c with dcStrRun := 0 }
      else v)) d m akAccepted) d)) ∧
  (∀ (d : Die) (m : CmdCopy) (s u : State), heardCmd s d m 0x202 → u = afterDown s d m.words →
    bitsOf (msgW m.words 0) 32 3 = 1 → bitsOf (msgW m.words 0) 0 32 ≠ 0 →
    exec (.protClear d m) s = .next (settleDie s (answered (forEach (maskChans (bitsOf (msgW m.words 0) 0 32)) u (fun v c =>
      if fon v d (Reg.PRT_CH_STAT c) F.PRT_CH_STAT_CH_SHORT = true then setFch v d c { fch v d c with dueHost := true }
      else v)) d m akAccepted) d)) ∧
  (∀ (d : Die) (m : CmdCopy) (s u : State) (c z : Nat), heardCmd s d m 0x203 → u = afterDown s d m.words →
    maskChans (msgW m.words 0) = [c] → (fch u d c).zpil = some z →
    exec (.zrefCapture d m) s = .next (settleDie s (answered (fwr u d (Reg.DIAG_CH_ZREF c) (BitVec.ofNat 32 z)) d m
      akAccepted) d)) ∧
  (∀ (d : Die) (m : CmdCopy) (t r : Nat) (s u : State) (x : Nat × Instr), u = afterDown s d m.words →
    x ∈ [(1, Instr.cmdTallyCommit d m), (2, .tallyDiscard d m), (3, .cmdCarry d m), (4, .forceSafe d m), (5, .release d m),
      (7, .sealTighten d m), (0x100, .tripClear d m), (0x101, .rawWrite d ⟨m, t⟩), (0x102, .pwmCntClr d m),
      (0x200, .diagSweep d m), (0x201, .diagAbort d m), (0x202, .protClear d m), (0x203, .zrefCapture d m)] →
    repeatOf u d m = some r → heardDown s d m.words (isCmd x.1) → exec x.2 s = .next (settleDie s (answered u d m r) d))

/-- A tick of a clocked die is taken. A stopped PWM_CLK, a control-rod fault and an undervoltage bring the safe state at
once with their sources, and the die leaves it when its clock and its rods run again. The PLL reference that the
locked lanes choose is shown and raised. A die that gets power starts UNSEALED, and reports an undervoltage. A
channel without samples that is not RAW goes from HOLD to FADE after BLK ticks, to IDLE after the last weight and to
LOSS_SAFE after HOLD_IDLE, and plays again after BLK usable ticks. Three boundaries without HEARTBEAT are HOST_LOST.
(R23, R333, R338, R339, R340, R341, R346, R355, R372, R374, R548) -/
def Obligations.FieldSafetyComplete : Prop :=
  (∀ (d : Die) (i : SenseIn) (k : Nat) (s : State), dieHere s d = true → (dieAt s d).tick = some k →
    (dieAt s d).clkBad = false → exec (.fieldTick d i) s = .next (settleDie s (fieldTick s d k i) d)) ∧
  (∀ (d : Die) (s u v : State), dieHere s d = true → u = setDie s d { dieAt s d with clkBad := true } →
    v = setDie s d { dieAt s d with rodBad := true } →
    exec (.pwmClkLoss d) s = .next (settleDie s (setPllRef (fldRaise (safeNow (if fldState u d = fdActive then
      setFldState u d fdSafe else u) d) d 0x04 0xFF 0) d 3) d) ∧
    exec (.fieldRodFault d) s = .next (settleDie s (fldRaise (safeNow (if fldState v d = fdActive then
      setFldState v d fdSafe else v) d) d 0x05 0xFF 0) d)) ∧
  (∀ (d : Die) (r : Fin 4) (s : State), dieHere s d = true → fget s d Reg.FLD_STAT F.FLD_STAT_PLL_REF ≠ r.val →
    r.val = (if (dieAt s d).clkBad = true then 3 else pllChoice s d) →
    exec (.fieldPllRefChange d r) s =
      .next (settleDie s (fldRaise (fput s d Reg.FLD_STAT F.FLD_STAT_PLL_REF r) d 0x03 0xFF r) d)) ∧
  (∀ (d : Die) (r : Fin 3) (s u : State), dieHere s d = true → (dieAt s d).clkBad = true → r.val = pllChoice s d →
    u = setDie s d { dieAt s d with clkBad := false } →
    exec (.fieldPllLock d r) s = .next (settleDie s (leaveSafe (setPllRef u d r) d) d)) ∧
  (∀ (d : Die) (s u : State), dieHere s d = true → (dieAt s d).rodBad = true →
    u = setDie s d { dieAt s d with rodBad := false } →
    exec (.fieldRodRestart d) s = .next (settleDie s (leaveSafe u d) d)) ∧
  (∀ (d : Die) (s : State), dieHere s d = true → exec (.fieldUndervoltage d) s =
    .next (sckFollow s (setDie (forEach fchans s (fun s c => cutGates s d c)) d (dieReset false true)) d)) ∧
  (∀ (d : Die) (s : State), diePresent s d = true → (dieAt s d).on = false →
    ((dieAt s d).uv = false → exec (.fieldDiePowerOn d) s = .next (setDie s d (dieReset true false))) ∧
    ((dieAt s d).uv = true → exec (.fieldDiePowerOn d) s =
      .next (faultFlush (fldRaise (setDie s d (dieReset true false)) d 0x06 0xFF 0) d))) ∧
  (∀ (d : Die) (c : Fin 32) (s : State), dieHere s d = true → lossActs s d c = true → fcState s d c = fcHold →
    dieBlk s d ≤ (fch s d c).held →
    exec (.lossHoldEnd d c) s = .next (settleDie s (setFch (setFcState s d c fcFade) d c { fch s d c with pos := 257 }) d)) ∧
  (∀ (d : Die) (c : Fin 32) (s : State), dieHere s d = true → lossActs s d c = true → fcState s d c = fcFade → (fch s d c).pos ≤ 1 →
    exec (.lossFadeEnd d c) s = .next (settleDie s (setFch (setFcState s d c fcIdle) d c { fch s d c with idle := 0 }) d)) ∧
  (∀ (d : Die) (c : Fin 32) (s : State), dieHere s d = true → lossActs s d c = true → fcState s d c = fcIdle →
    idleTicks s d ≤ (fch s d c).idle → exec (.lossIdleEnd d c) s = .next (settleDie s (enterLossSafe s d c) d)) ∧
  (∀ (d : Die) (c : Fin 32) (s u : State), dieHere s d = true → lossActs s d c = true → (fcState s d c = fcLossSafe ∨ fcState s d c = fcOff) →
    dieBlk s d ≤ (fch s d c).good → (fon s d Reg.FLD_LOSS F.FLD_LOSS_AUTO_REARM = true ∨ (fch s d c).armed = true) →
    eventSafe s d = false → u = setFch s d c { fch s d c with pos := rampStart, armed := false, good := 0 } →
    exec (.lossRearm d c) s = .next (settleDie s (enterPlay u d c
      ((ownSample u d c (dieIndex s d)).isNone && (twinSample u d c (dieIndex s d)).isSome)) d)) ∧
  (∀ (d : Die) (s u : State), dieHere s d = true → 3 ≤ (dieAt s d).missed →
    fon s d Reg.FLD_STAT F.FLD_STAT_HOST_LOST = false →
    u = fldRaise (fbit s d Reg.FLD_STAT F.FLD_STAT_HOST_LOST true) d 0x0F 0xFF 0 →
    exec (.hostLost d) s = .next (settleDie s (forEach (fchans.filter (fun c => pwState u d c == pwRaw)) u
      (fun s c => fldRaise (tripChan s d c 0 3) d 0x25 c 0)) d))

/-- A valley is taken. A trip with TRIP_LATCH = 1 latches the channel with its cause, and without it the gates go low to
the next valley. A trip in the tick of a safe-state entry is recorded too. A readback mismatch trips with cause
READBACK, counted once with a trip of the same tick. TRIP_IN follows its input, and an active one trips a REARMING
channel again; quiet for TRIP_QUIET it returns to DISABLED, RAW or RUNNING. A raw value still alone after its
channel has passed two valleys applies alone and is counted. A current at or above OC_THR drives the gates low and
limits the period. (R363, R366, R367, R368, R369, R370, R371, R375, R400) -/
def Obligations.ModulatorsComplete : Prop :=
  (∀ (d : Die) (c m : Fin 32) (s : State), dieHere s d = true →
    exec (.carrierValley d c m) s = .next (settleDie s (valley s d c m) d)) ∧
  (∀ (d : Die) (c : Fin 32) (t : Nat) (b : Bool) (s u : State), dieHere s d = true →
    (pwState s d c = pwRunning ∨ pwState s d c = pwRaw) → (fon s d (Reg.PWM_CH_STAT c) F.PWM_CH_STAT_GATES_ON = true ∨
      b = true ∧ (fch s d c).safeOff = true) → tripIn s d c = true →
    blanked (fch s d c) t = false → u = fadd s d (Reg.PWM_CH_CNT c) F.PWM_CH_CNT_TRIPS 1 →
    (fldGet F.PWM_CH_CTRL_TRIP_LATCH (fch s d c).ctrl = 1 →
      exec (.tripHonoured d c ⟨t, b⟩) s = .next (settleDie s (fldRaise (tripChan u d c t 1) d 0x20 c 0) d)) ∧
    (∀ (v : State) (x : FieldChan), fldGet F.PWM_CH_CTRL_TRIP_LATCH (fch s d c).ctrl ≠ 1 →
      x = { fch s d c with soft := (fch s d c).soft + 1, tripAt := some t } → v = cutGatesAt (setFch u d c x) d c t →
      exec (.tripHonoured d c ⟨t, b⟩) s = .next (settleDie s (limitPeriod
        (if x.soft % 256 = 0 then fldRaise v d 0x21 c 0 else v) d c) d))) ∧
  (∀ (d : Die) (c : Fin 32) (t : Nat) (s : State), dieHere s d = true →
    fldGet F.PWM_CH_CTRL_READBACK_EN (fch s d c).ctrl ≠ 0 →
    (pwState s d c = pwTripped → (fch s d c).tripAt = some t → exec (.readbackMismatch d c t) s =
      .next (settleDie s (fldRaise (fput s d (Reg.PWM_CH_STAT c) F.PWM_CH_STAT_TRIP_CAUSE 2) d 0x23 c 0) d)) ∧
    (pwState s d c = pwRunning ∨ pwState s d c = pwRaw → exec (.readbackMismatch d c t) s =
      .next (settleDie s (fldRaise (fldRaise (tripChan
        (if (fch s d c).tripAt = some t then s else fadd s d (Reg.PWM_CH_CNT c) F.PWM_CH_CNT_TRIPS 1) d c t 2)
        d 0x20 c 0) d 0x23 c 0) d))) ∧
  (∀ (d : Die) (c : Fin 32) (b : Bool) (s u : State), dieHere s d = true →
    u = fbit s d (Reg.PWM_CH_STAT c) F.PWM_CH_STAT_TRIP_IN b →
    (b = false ∨ pwState u d c ≠ pwRearming → exec (.tripInputChange d c b) s = .next (settleDie s u d)) ∧
    (b = true → pwState u d c = pwRearming → exec (.tripInputChange d c b) s = .next (settleDie s
      (fldRaise (tripChan (fadd u d (Reg.PWM_CH_CNT c) F.PWM_CH_CNT_TRIPS 1) d c 0 1) d 0x20 c 0) d))) ∧
  (∀ (d : Die) (c : Fin 32) (s : State), dieHere s d = true → pwState s d c = pwRearming → tripIn s d c = false →
    (fon s d (Reg.PWM_CH_CTRL c) F.PWM_CH_CTRL_EN = false →
      exec (.tripQuietExpiry d c) s = .next (settleDie s (setPwState s d c pwDisabled) d)) ∧
    (fon s d (Reg.PWM_CH_CTRL c) F.PWM_CH_CTRL_EN = true → fon s d (Reg.PWM_CH_CTRL c) F.PWM_CH_CTRL_RAW = true →
      exec (.tripQuietExpiry d c) s = .next (settleDie s (setPwState s d c pwRaw) d)) ∧
    (fon s d (Reg.PWM_CH_CTRL c) F.PWM_CH_CTRL_EN = true → fon s d (Reg.PWM_CH_CTRL c) F.PWM_CH_CTRL_RAW = false →
      exec (.tripQuietExpiry d c) s =
        .next (settleDie s (setFch (setPwState s d c pwRunning) d c { fch s d c with start := 0 }) d))) ∧
  (∀ (d : Die) (c : Fin 32) (duty : Bool) (s u : State) (x y : FieldChan), dieHere s d = true → x = fch s d c →
    rawAlone x duty = true →
    (duty = true → y = { x with dueDuty := x.pendDuty, pendDuty := none, dueLone := true }) →
    (duty = false → y = { x with duePer := x.pendPer, pendPer := none, dueLone := true }) →
    u = fbit (setFch s d c y) d (Reg.PWM_CH_STAT c) F.PWM_CH_STAT_PAIR_SPLIT true →
    exec (.rawPairTimeout d c duty) s = .next (settleDie s
      (fldRaise (showPend (fadd u d (Reg.PWM_CH_CNT c) F.PWM_CH_CNT_SPLITS 1) d c) d 0x24 c 0) d)) ∧
  (∀ (d : Die) (c : Fin 32) (t bits : Nat) (s : State), dieHere s d = true → (fch s d c).driven = true →
    fget s d (Reg.PRT_CH_OC c) F.PRT_CH_OC_OC_THR * 2 ^ 15 ≤ (fastPath bits).natAbs * fget s d Reg.PRT_SCALE F.PRT_SCALE_IS_FS →
    exec (.overcurrent d c t bits) s = .next (settleDie s (limitPeriod (cutGatesAt s d c t) d c) d))

/-- A leg whose gates are not both high, and whose high gate is the one its command names with no edge pending, stays so
through every period, whatever its compare value, its dead times and its command changes are. (R365) -/
def Obligations.LegsNeverOverlap : Prop :=
  ∀ (ball rise fall n : Nat) (l m : Leg) (chs : List (Nat × Bool)) (es : List (Nat × Nat × Bool)),
    (l.hi = true → l.cmd = some true ∧ l.due = none) → (l.lo = true → l.cmd = some false ∧ l.due = none) →
    (l.cmd = none → l.due = none) → legPeriod ball rise fall n l chs = (m, es) →
    ¬(m.hi = true ∧ m.lo = true) ∧ (m.hi = true → m.cmd = some true ∧ m.due = none) ∧
    (m.lo = true → m.cmd = some false ∧ m.due = none) ∧ (m.cmd = none → m.due = none)

/-- With dither or without, the output of a carrier period differs from the fifth-order filtered input by less than one
tick or by one tick exactly above it, and without dither by at most half a tick; the five newest errors are kept,
the newest first. (R358, R359) -/
def Obligations.RequantizerErrorBounded : Prop :=
  (∀ (dither : Bool) (j : Nat) (err : List Int) (v u : Int) (next : List Int),
    requantStep dither j err v = (u, next) → ∃ e : Int, next = (e :: err).take 5 ∧ -2 ^ 20 < e ∧ e ≤ 2 ^ 20 ∧
      u * 2 ^ 20 - e = v - 5 * err.getD 0 0 + 10 * err.getD 1 0 - 10 * err.getD 2 0 + 5 * err.getD 3 0 - err.getD 4 0) ∧
  (∀ (j : Nat) (err : List Int) (v u : Int) (next : List Int), requantStep false j err v = (u, next) →
    -2 ^ 19 < next.headD 0 ∧ next.headD 0 ≤ 2 ^ 19)

/-- A due check waits, starts at a valley and ends with its result. DC at the output latches DC_OUT with the gates low,
and DC in the stream latches DC_STREAM. The thermal update takes the sensor values and runs the models; the trim,
the pilot window and a sweep's point end when they are due. A bad bitstream is shown and raised once, a bad IS
latches SENSE, and a good one clears what it set. (R384, R385, R390, R391, R397, R398, R399, R402, R403, R404, R408,
R412) -/
def Obligations.ProtectionComplete : Prop :=
  (∀ (d : Die) (c : Fin 32) (t : Nat) (s : State), dieHere s d = true → (fch s d c).checkAt = some t →
    t ≤ (dieAt s d).ticks → exec (.checkDue d c) s = .next (settleDie s (setFch s d c { fch s d c with
      checkAt := none, dueAuto := (fch s d c).dueAuto || (fon s d (Reg.PRT_CH_CTRL c) F.PRT_CH_CTRL_AUTO_RETRY && fon s d (Reg.PRT_CH_STAT c) F.PRT_CH_STAT_CH_SHORT && !fon s d (Reg.PRT_CH_STAT c) F.PRT_CH_STAT_FINAL) }) d)) ∧
  (∀ (d : Die) (c : Fin 32) (s : State), dieHere s d = true → ((fch s d c).dueHost = true ∨
      (fch s d c).dueAuto = true ∧ fon s d (Reg.PRT_CH_CTRL c) F.PRT_CH_CTRL_AUTO_RETRY = true) →
    (fch s d c).check = none → gateOthers s d c = true → latchBits s d c = 4 →
    exec (.checkStart d c) s = .next (settleDie s (fbit (setFch s d c { fch s d c with dueHost := false, dueAuto := (fch s d c).dueHost && (fch s d c).dueAuto, check := some ⟨0, (fch s d c).dueHost, demodZero⟩ }) d (Reg.PRT_CH_STAT c) F.PRT_CH_STAT_CHECKING true) d)) ∧
  (∀ (d : Die) (c : Fin 32) (q : CheckRun) (s : State), dieHere s d = true → (fch s d c).check = some q →
    dieFs s d / 100 ≤ q.ticks → exec (.checkEnd d c) s = .next (settleDie s
      (match impedance s d q.sums with
        | none => passCheck s d c
        | some z => if fget s d (Reg.PRT_CH_CHECK c) F.PRT_CH_CHECK_CHECK_ZMIN ≤ magnitude z then passCheck s d c
          else failCheck s d c) d)) ∧
  (∀ (d : Die) (c : Fin 32) (s : State), dieHere s d = true → dcOutDue s d c = true →
    exec (.dcOutDetect d c) s = .next (settleDie s (gatesOff (setLatch s d c F.PRT_CH_STAT_DC_OUT 0x3A) d c) d)) ∧
  (∀ (d : Die) (c : Fin 32) (s : State), dieHere s d = true → dcStreamDue s d c = true →
    exec (.dcStreamDetect d c) s = .next (settleDie s (setLatch s d c F.PRT_CH_STAT_DC_STREAM 0x3B) d)) ∧
  (∀ (d : Die) (ones : List Nat) (s u : State), dieHere s d = true → (dieAt s d).thermalDue = true →
    u = setDie s d { dieAt s d with ts := (List.range 4).map (fun m => tsValue s d (ones.getD m 0)) } →
    exec (.thermalModelUpdate d ones) s = .next (settleDie s (thermalStep (forEach (List.range 4) u (fun s m =>
      fputI s d (tsFld m).1 (tsFld m).2 (tsRead s d m * 16).floor)) d) d)) ∧
  (∀ (d : Die) (s : State), dieHere s d = true →
    ((dieAt s d).trimDue = true → exec (.trimUpdate d) s = .next (settleDie s (trimStep s d) d)) ∧
    ((dieAt s d).pilotDue = true → exec (.pilotWindowEnd d) s = .next (settleDie s (pilotStep s d) d)) ∧
    (∀ r, (dieAt s d).sweep = some r → r.due = true →
      exec (.sweepPointEnd d) s = .next (settleDie s (sweepPointEnd s d) d))) ∧
  (∀ (d : Die) (c : Fin 32) (s : State), dieHere s d = true →
    fon s d (Reg.PRT_CH_STAT c) F.PRT_CH_STAT_VS_BAD = false → exec (.senseStreamBad d (.vs c)) s =
      .next (settleDie s (fldRaise (fbit s d (Reg.PRT_CH_STAT c) F.PRT_CH_STAT_VS_BAD true) d 0x3E c 0) d)) ∧
  (∀ (d : Die) (c : Fin 32) (s : State), dieHere s d = true →
    fon s d (Reg.PRT_CH_STAT c) F.PRT_CH_STAT_IS_BAD = false → exec (.senseStreamBad d (.is c)) s =
      .next (settleDie s (setLatch (fbit s d (Reg.PRT_CH_STAT c) F.PRT_CH_STAT_IS_BAD true) d c
        F.PRT_CH_STAT_SENSE 0x3E) d)) ∧
  (∀ (d : Die) (s : State) (x : SenseStream) (f : Fld), dieHere s d = true →
    (x, f) ∈ [(SenseStream.railP, F.PRT_SENSE_BAD_RAILP), (SenseStream.railN, F.PRT_SENSE_BAD_RAILN)] →
    exec (.senseStreamBad d x) s = .next (settleDie s (fldRaise (fbit (fbit s d Reg.PRT_SENSE_BAD f true) d
      Reg.PRT_RAIL_STAT F.PRT_RAIL_STAT_RAIL_BAD true) d 0x3E 0xFF 0) d)) ∧
  (∀ (d : Die) (m : Fin 4) (s : State), dieHere s d = true → exec (.senseStreamBad d (.ts m)) s =
    .next (settleDie s (fldRaise (fbit s d Reg.PRT_SENSE_BAD ⟨m, 1⟩ true) d 0x3E 0xFF 0) d)) ∧
  (∀ (d : Die) (c : Fin 32) (s : State), dieHere s d = true →
    exec (.senseStreamGood d (.vs c)) s =
      .next (settleDie s (fbit s d (Reg.PRT_CH_STAT c) F.PRT_CH_STAT_VS_BAD false) d) ∧
    exec (.senseStreamGood d (.is c)) s = .next (settleDie s (fbit (fbit s d (Reg.PRT_CH_STAT c)
      F.PRT_CH_STAT_IS_BAD false) d (Reg.PRT_CH_STAT c) F.PRT_CH_STAT_SENSE false) d)) ∧
  (∀ (d : Die) (m : Fin 4) (s : State), dieHere s d = true → exec (.senseStreamGood d (.ts m)) s =
    .next (settleDie s (fbit s d Reg.PRT_SENSE_BAD ⟨m, 1⟩ false) d)) ∧
  (∀ (d : Die) (s : State) (x : SenseStream) (f g : Fld), dieHere s d = true →
    (x, f, g) ∈ [(SenseStream.railP, F.PRT_SENSE_BAD_RAILP, F.PRT_SENSE_BAD_RAILN),
      (SenseStream.railN, F.PRT_SENSE_BAD_RAILN, F.PRT_SENSE_BAD_RAILP)] →
    exec (.senseStreamGood d x) s = .next (settleDie s (fbit (fbit s d Reg.PRT_SENSE_BAD f false) d Reg.PRT_RAIL_STAT
      F.PRT_RAIL_STAT_RAIL_BAD (fon s d Reg.PRT_SENSE_BAD g)) d))

/-- While an earlier descriptor of its queue pair has not completed, a FENCE is not accepted and its command leaves the
state as it is. While an earlier FENCE of its queue pair has not completed, no descriptor is accepted, and its
command is one with no effect where it is a NOP, a FENCE or any other. A FENCE accepted with every parameter good
completes OK and does nothing else. (R435) -/
def Obligations.FenceWaits : Prop :=
  (∀ (d : DescRef) (s : State), (∃ f ∈ (qpAt s d.qp).flights.takeWhile (fun f => f.slot != d.slot.val), f.result = none) →
    acceptable s d 0x02 = false ∧ exec (.fence d) s = .next s) ∧
  (∀ (d : DescRef) (s : State), (∃ f ∈ (qpAt s d.qp).flights.takeWhile (fun f => f.slot != d.slot.val),
    opcodeOf f = 0x02 ∧ f.result = none) →
    (∀ op, acceptable s d op = false) ∧ (∀ op k, onDesc s d op k = .next s)) ∧
  (∀ (d : DescRef) (bs : List Byte) (s : State), ready s d 0x02 bs →
    exec (.fence d) s = .next (finish (markAccepted s d) d stOk 0))

/-- With bus mastering on and a queue pair enabled a kick asks for the doorbell page, whose reading gives every queue
pair its entry; no descriptor is accepted while one that an earlier doorbell read found is left, or while a queue
pair that comes before in the turns of the same read can have its own accepted; a fetched descriptor is in flight,
one whose buffer cannot be read raises 0x484, and a failed read of the ring raises 0x482 and takes the queue pair to
ERROR; the front completion is written while the CQ has room, at the next CQ index, which after the last goes back
to 0 with PHASE inverted, and its queue is signalled when MOD_TIME ends. EN = 1 takes a DISABLED pair with allowed
depths to RUNNING, or with RECOVER = 1 to RECOVERING at the SQ index, the CQ index and the PHASE of HIF_QPn_RESUME;
EN = 0 takes a running one to DRAINING. A narrow write is discarded with BAD_ACCESS and 0x485. (R421, R424, R426,
R427, R430, R433, R434, R445, R447, R449) -/
def Obligations.RingsComplete : Prop :=
  (∀ (w : Word) (s : State), hostMay s → fldGet F.HIF_KICK_GO w = 1 → anyQueue s = true →
    ron s Reg.HIF_STAT F.HIF_STAT_BME = true → exec (.hifKick w) s = .next { s with doorbell := true }) ∧
  (∀ (bs : List Byte) (s u : State), live s = true → s.doorbell = true → mayDma s = true → anyQueue s = true →
    u = { s with doorbell := false, pageBad := false, turns := { s.turns with reads := s.turns.reads + 1 } } →
    exec (.doorbellRead (some bs)) s =
      .next (forEach allQueues u (fun s n => takeDoorbell s n (leAt bs (8 * n) 8) s.turns.reads))) ∧
  (∀ (d : DescRef) (op m r x : Nat) (s : State), m < 64 → (qpAt s d.qp).due.head? = some x → (qpAt s m).due.head? = some r →
    r < x ∨ r = x ∧ m ∈ turnsBefore (if s.turns.read = x then s.turns.next else 0) d.qp ∧ canTurn s m = true →
    acceptable s d op = false) ∧
  (∀ (q : Fin 64) (bs : List Byte) (s : State), live s = true → mayFetch s q = true → bs.length = 64 →
    exec (.descriptorFetch q (some bs) false) s = .next (addFlight s q bs (fetchResult (qpStateOf s q) bs false)) ∧
    exec (.descriptorFetch q (some bs) true) s = .next (addFlight
      (raise (holdHifError s q 4 (slotAddr s q (qpAt s q).fetch)) 0x484 q 0) q bs (fetchResult (qpStateOf s q) bs true)) ∧
    (qpStateOf s q ≠ 4 → exec (.descriptorFetch q none false) s = .next (settleQueue (enterError
      (raise (holdHifError s q 1 (slotAddr s q (qpAt s q).fetch)) 0x482 q 0) q) q))) ∧
  (∀ (q : Fin 64) (f : Flight) (rest : List Flight) (r : Nat × Nat) (s u : State) (x : QpState), live s = true →
    (qpAt s q).flights = f :: rest → f.result = some r → mayDma s = true → (qpAt s q).unread < cqDepth s q →
    u = putEntry s (entryAddr s q (qpAt s q).cq) (entryBytes f r.1 r.2 (qpAt s q).phase) →
    ((qpAt s q).cq + 1 ≠ cqDepth u q →
      x = { qpAt s q with flights := rest, cq := (qpAt s q).cq + 1, unread := (qpAt s q).unread + 1 }) →
    ((qpAt s q).cq + 1 = cqDepth u q →
      x = { qpAt s q with flights := rest, cq := 0, phase := !(qpAt s q).phase, unread := (qpAt s q).unread + 1 }) →
    exec (.completionWrite q) s = .next (settleQueue (countCompletion (setRing u q x) q (par f.bytes 1 0 1 == 1)) q)) ∧
  (∀ (q : Fin 64) (s : State), live s = true → qpIrqEn s q = true → rget s (Reg.HIF_QP_CFG q) F.HIF_QP_CFG_MOD_TIME ≠ 0 →
    (qpAt s q).unsignalled ≠ 0 →
    10 * rget s (Reg.HIF_QP_CFG q) F.HIF_QP_CFG_MOD_TIME * 393216 ≤ (s.time.cnt - (qpAt s q).oldest) * 1000 →
    exec (.modTimeExpiry q) s = .next (signalQueue s q)) ∧
  (∀ (q : Fin 64) (w : Word) (s u : State), hostMay s → qpStateOf s q = 0 → fldGet F.HIF_QP_CTRL_EN w = 1 →
    fldGet F.HIF_QP_CTRL_RECOVER w = 0 → u = rclr s (Reg.HIF_QP_CTRL q) F.HIF_QP_CTRL_RECOVER →
    depthOk (rget u (Reg.HIF_QP_CFG q) F.HIF_QP_CFG_SQ_LOG2) = true →
    depthOk (rget u (Reg.HIF_QP_CFG q) F.HIF_QP_CFG_CQ_LOG2) = true →
    exec (.queueEnable q w) s =
      .next (setRing (setQpState (rset u (Reg.HIF_QP_CTRL q) F.HIF_QP_CTRL_EN) q 1) q (qpReset q))) ∧
  (∀ (q : Fin 64) (w : Word) (s u : State), hostMay s → qpStateOf s q = 0 → fldGet F.HIF_QP_CTRL_EN w = 1 →
    fldGet F.HIF_QP_CTRL_RECOVER w = 1 →
    u = rput s (Reg.HIF_QP_CTRL q) F.HIF_QP_CTRL_RECOVER 1 →
    depthOk (rget u (Reg.HIF_QP_CFG q) F.HIF_QP_CFG_SQ_LOG2) = true →
    depthOk (rget u (Reg.HIF_QP_CFG q) F.HIF_QP_CFG_CQ_LOG2) = true →
    Memory.wf s = true → ∃ x, exec (.queueRecover q w) s = .next { setRing (setQpState (rset u (Reg.HIF_QP_CTRL q)
      F.HIF_QP_CTRL_EN) q 3) q x with doorbell := true } ∧
      x.fetch = rget s (Reg.HIF_QP_RESUME q) F.HIF_QP_RESUME_SQ_IDX % sqDepth s q ∧ x.tail = x.fetch ∧
      x.cq = rget s (Reg.HIF_QP_RESUME q) F.HIF_QP_RESUME_CQ_IDX % cqDepth s q ∧ x.head = x.cq ∧
      x.phase = ron s (Reg.HIF_QP_RESUME q) F.HIF_QP_RESUME_PHASE ∧ x.flights = [] ∧ x.unread = 0) ∧
  (∀ (q : Fin 64) (w : Word) (s : State), hostMay s → qpStateOf s q = 1 → fldGet F.HIF_QP_CTRL_EN w = 0 →
    fldGet F.HIF_QP_CTRL_RECOVER w = rget s (Reg.HIF_QP_CTRL q) F.HIF_QP_CTRL_RECOVER →
    exec (.queueDisable q w) s = .next (settleQueue (enterDraining s q) q)) ∧
  (∀ s : State, live s = true → exec .bar0NarrowWrite s =
    .next (raise (rset s Reg.HIF_STAT F.HIF_STAT_BAD_ACCESS) 0x485 0x3FF 0))

/-- NOP completes with the block index and the epoch, FENCE with zero. A PARAM_READ of the device's tables reads them;
one of a field die, a FIELD_CMD and a DIAG_RUN ask the die over its barrier while its link is UP, and complete
NOT_READY when it is not. A DIAG_RUN without all its parts after 20 s completes TIMEOUT. (R412, R435, R438, R439,
R440) -/
def Obligations.PlainDescriptorsComplete : Prop :=
  (∀ (d : DescRef) (bs : List Byte) (s : State), ready s d 0x01 bs → exec (.nop d) s = .next (finish (markAccepted s d) d 0
    (s.grid.index % 2 ^ 32 + 2 ^ 32 * rget (markAccepted s d) Reg.SYS_EPOCH F.SYS_EPOCH_EPOCH))) ∧
  (∀ (d : DescRef) (bs : List Byte) (s : State), ready s d 0x02 bs →
    exec (.fence d) s = .next (finish (markAccepted s d) d 0 0)) ∧
  (∀ (d : DescRef) (bs : List Byte) (s : State), ready s d 0x18 bs → par bs 8 0 4 = 1 →
    exec (.paramRead d) s = .next (readTable (markAccepted s d) d bs)) ∧
  (∀ (d : DescRef) (bs : List Byte) (x : Die) (s u : State), ready s d 0x18 bs → par bs 8 0 4 = 3 →
    leAt bs 16 8 &&& (0xF00000010000FFFF : Nat) = leAt bs 16 8 → u = markAccepted s d → x = dieBit (par bs 20 0 1) →
    diePresent u x = true → barFenced u x = false → barLink u x = lkUp →
    exec (.paramRead d) s = .next (sendRead u d bs 0)) ∧
  (∀ (d : DescRef) (bs : List Byte) (x : Die) (s u : State), ready s d 0x68 bs → u = markAccepted s d →
    x = dieBit (par bs 8 0 1) → fieldCodeOk (leAt bs 10 2) (par bs 12 0 4) = true → leAt bs 10 2 ≠ 6 →
    par bs 12 0 4 = 0 → diePresent u x = true → barFenced u x = false → barLink u x = lkUp →
    exec (.fieldCmd d) s = .next (barCmd u x (leAt bs 10 2) 0 [] (.command d))) ∧
  (∀ (d : DescRef) (bs : List Byte) (x : Die) (s u : State), ready s d 0x68 bs → u = markAccepted s d →
    x = dieBit (par bs 8 0 1) → fieldCodeOk (leAt bs 10 2) (par bs 12 0 4) = true → diePresent u x = true →
    barFenced u x = false → barLink u x ≠ lkUp → exec (.fieldCmd d) s = .next (finish u d stNotReady 0)) ∧
  (∀ (d : DescRef) (bs : List Byte) (x : Die) (s u : State), ready s d 0x18 bs → par bs 8 0 4 = 3 →
    leAt bs 16 8 &&& (0xF00000010000FFFF : Nat) = leAt bs 16 8 → u = markAccepted s d → x = dieBit (par bs 20 0 1) →
    diePresent u x = true → barFenced u x = false → barLink u x ≠ lkUp →
    exec (.paramRead d) s = .next (finish u d stNotReady 0)) ∧
  (∀ (d : DescRef) (bs : List Byte) (x : Die) (s u : State), ready s d 0x38 bs → u = markAccepted s d →
    x = dieBit (par bs 8 0 1) → diePresent u x = true → barFenced u x = false → barLink u x ≠ lkUp →
    exec (.diagRun d) s = .next (finish u d stNotReady 0)) ∧
  (∀ (d : DescRef) (bs : List Byte) (x : Die) (s u v : State), ready s d 0x38 bs → u = markAccepted s d →
    x = dieBit (par bs 8 0 1) → diePresent u x = true → barFenced u x = false → barLink u x = lkUp →
    v = { u with diags := u.diags ++ [⟨d, x, leAt bs 12 4, leAt bs 16 2, leAt bs 24 8, [], u.time.cnt⟩] } →
    exec (.diagRun d) s = .next (barCmd v x 0x200 0 [leAt bs 12 4 + 2 ^ 32 * leAt bs 16 2] (.sweep d))) ∧
  (∀ (d : DescRef) (r : DiagRun) (s : State), live s = true → s.diags.find? (fun r => r.ref == d) = some r →
    20000000 * 393216 ≤ (s.time.cnt - r.since) * 1000 →
    exec (.diagRunTimeout d) s = .next (endDiag s r stTimeout))

/-- A link that comes up raises its source and sends HELLO, and the first one starts discovery; one that goes down loses
its neighbour; HELLO goes out on every link. The lowest member that has waited DISC_WAIT becomes master. A missed
heartbeat is counted and raised. HANDOVER on a master that is free to hand over to a locked member takes effect
eight blocks later; it is refused where the member named is not reachable, not LOCKED or the master itself, where a
stack-scope tally is PREPARED or IN_DOUBT here or in the last report of a member, and on one that is no master. The
master that is ready sends START once; a LOCKED member that joined after it starts by itself. Unanswered messages go
out again. (R452, R456, R457, R458, R459, R461, R463, R470) -/
def Obligations.StackLinksComplete : Prop :=
  (∀ (l : Fin 4) (s u : State), live s = true → stkUp s l = false → inReset s (unitStk l) = false →
    u = raise (rput s (Reg.STK_LINK_STAT l) F.STK_LINK_STAT_STATE 2) (0x4C0 + l.val) l 0 →
    ([0, 1, 2, 3].any (stkHears s) = true → exec (.stackLinkUp l) s = .next (sendHello u l)) ∧
    ([0, 1, 2, 3].any (stkHears s) = false → stkHears u l = true → ron u Reg.STK_STAT F.STK_STAT_DUP_ID = false →
      exec (.stackLinkUp l) s = .next (sendHello (setStk (rclr u Reg.STK_STAT F.STK_STAT_MASTER)
        { u.stk with discover := some u.time.cnt }) l))) ∧
  (∀ (l : Fin 4) (s u : State), live s = true → rget s (Reg.STK_LINK_STAT l) F.STK_LINK_STAT_STATE ≠ 0 →
    u = wr s (Reg.STK_LINK_STAT l) (fldPut F.STK_LINK_STAT_FENCED (rget s (Reg.STK_LINK_STAT l) F.STK_LINK_STAT_FENCED) 0) →
    exec (.stackLinkDown l) s = .next (standAlone (raise (setStk u { u.stk with
      peers := mapErase u.stk.peers l, far := mapErase u.stk.far l }) (0x4C0 + l.val) l 0))) ∧
  (∀ s : State, live s = true → exec .helloSend s = .next (forEach [0, 1, 2, 3] s sendHello)) ∧
  (∀ (s : State) (c : Nat), live s = true → s.stk.discover = some c →
    ticksReach (s.time.cnt - c) (1000 * max 1 (rget s Reg.STK_CTRL F.STK_CTRL_DISC_WAIT)) = true →
    s.boot.restarting = false → stkAlone s = false → (idsOf (mapNow s)).headD 0 = myId s →
    exec .discoveryWaitExpiry s = .next (refreshMap (becomeMaster s))) ∧
  (∀ s u : State, live s = true → isStkMaster s = false → ron s Reg.STK_STAT F.STK_STAT_FORMED = true →
    beatCame s = false → beatDue s = true →
    u = raise (radd (radd { s with stk := { s.stk with beat := some s.grid.index } } Reg.STK_HB F.STK_HB_MISSED 1)
      Reg.STK_HB F.STK_HB_MISS_CNT 1) 0x4CD 0x3FF 0 → rget u Reg.STK_HB F.STK_HB_MISSED = 1 →
    exec .heartbeatWindowExpiry s = .next u) ∧
  (∀ (w : Word) (s u : State) (k : Nat), hostMay s →
    u = stackEnabled (rwrite s Reg.STK_CTRL w) (ron s Reg.STK_CTRL F.STK_CTRL_EN) → fldGet F.STK_CTRL_HANDOVER w = 1 →
    k = rget u Reg.STK_CTRL F.STK_CTRL_HANDOVER_ID → isStkMaster u = true → k ≠ myId u → bitOf (stkMembers u) k = true →
    bitOf u.stk.statusLocked k = true → u.stk.statusDoubt &&& stkMembers u = 0 → u.stk.votes = [] → u.stk.logging = [] →
    (∀ t ∈ tallyIds, tyStack u t = true → tyState u t ≠ tyPrepared ∧ tyState u t ≠ tyInDoubt) →
    exec (.handover w) s = .next { u with stk := { u.stk with handover := some (u.grid.index + 8, k) } }) ∧
  (∀ (w : Word) (s u : State) (k : Nat), hostMay s →
    u = stackEnabled (rwrite s Reg.STK_CTRL w) (ron s Reg.STK_CTRL F.STK_CTRL_EN) → fldGet F.STK_CTRL_HANDOVER w = 1 →
    k = rget u Reg.STK_CTRL F.STK_CTRL_HANDOVER_ID →
    (isStkMaster u = false ∨ bitOf (stkMembers u) k = false ∨ bitOf u.stk.statusLocked k = false ∨ k = myId u ∨
      (∃ t ∈ tallyIds, tyStack u t = true ∧ (tyState u t = tyPrepared ∨ tyState u t = tyInDoubt)) ∨
      u.stk.statusDoubt &&& stkMembers u ≠ 0) →
    exec (.handover w) s = .next (rset u Reg.STK_STAT F.STK_STAT_REFUSED)) ∧
  (∀ s : State, live s = true → isStkMaster s = false → s.stk.lateJoin = true → autostarts s = true →
    s.boot.started = false → loopState s = stLocked → exec .startSend s = .next (startAlone s)) ∧
  (∀ s u : State, live s = true → isStkMaster s = true → autostarts s = true → s.boot.started = false →
    s.stk.startXid = none → readyToStart s = true →
    u = stkSend s toAll smStart [s.grid.index + 8, s.stk.starts % 2 ^ 32] →
    exec .startSend s = .next (startPart { u with stk := { u.stk with starts := s.stk.starts + 1 } } (s.grid.index + 8)
      (s.stk.starts % 2 ^ 32))) ∧
  (∀ s u v w : State, live s = true →
    u = { s with stk := { s.stk with waits := s.stk.waits.filter (fun w => !waitLapsed s w) } } →
    v = forEach (u.stk.waits.filter (fun w => decide (w.block + 8 ≤ u.grid.index))) u sendAgain →
    w = inquiriesLost { v with stk := { v.stk with waits := v.stk.waits.map (fun w =>
      if w.block + 8 ≤ v.grid.index then { w with block := v.grid.index } else w) } } →
    exec .stackRetransmit s = .next (if isStkMaster w && stkMembers w &&& (0xFF ^^^ 2 ^ myId w) == 0 then
      forEach w.stk.logging w announce else w))

/-- Each message that this member takes for itself acts: HELLO notes the neighbour, and one with this member's ID from
another device makes this one a duplicate; a heartbeat from the master is accepted and a lower one makes a master
yield; MEMBER_STATUS is kept by the master; TIME_SYNC from the master gives the offset and the frequency and goes on
with the delays added; a delay request is answered and its response gives the link's delay; SUBSCRIBE adds a reader
or takes it away, BEADS fill the beads of its channels, and a remote bead that has not come at its deadline is
missing and counted. The layouts of the delay messages are the model's choice (its log says so). (R457, R458, R460,
R462, R466, R467) -/
def Obligations.StackMessagesComplete : Prop :=
  (∀ (l : Fin 4) (ws : List Nat) (view : StackView) (s t u v : State), heardStack s l ws smHello → u = afterStack s l ws →
    v = rput (rput (rset u (Reg.STK_LINK_STAT l) F.STK_LINK_STAT_PEER_VALID) (Reg.STK_LINK_STAT l) F.STK_LINK_STAT_PEER_ID
      (smW ws 1 % 8)) (Reg.STK_LINK_STAT l) F.STK_LINK_STAT_PEER_LINK (bitsOf (smW ws 1) 4 2) →
    t = noteView { v with stk := { v.stk with peers := mapSet (fun _ => (0, false)) v.stk.peers l (smW ws 0, bitOf (smW ws 1) 8) } } l view →
    (smW ws 1 % 8 ≠ myId t ∨ smW ws 0 = t.boot.identity % 2 ^ 64 → exec (.hello l ⟨ws, view⟩) s = .next t) ∧
    (smW ws 1 % 8 = myId t → smW ws 0 ≠ t.boot.identity % 2 ^ 64 → exec (.hello l ⟨ws, view⟩) s = .next (duplicateId t))) ∧
  (∀ (l : Fin 4) (ws : List Nat) (s u : State), heardStack s l ws smHeartbeat → u = afterStack s l ws →
    isStkMaster u = true → smSrc ws < myId u →
    exec (.stackHeartbeat l ws) s = .next { u with stk := { u.stk with yieldTo := some (smSrc ws) } }) ∧
  (∀ (l : Fin 4) (ws : List Nat) (s u : State), heardStack s l ws smHeartbeat → u = afterStack s l ws →
    isStkMaster u = false → (smSrc ws ≤ masterId u ∨ ron u Reg.STK_STAT F.STK_STAT_FORMED = false ∨
      3 ≤ rget u Reg.STK_HB F.STK_HB_MISSED) → exec (.stackHeartbeat l ws) s = .next (acceptBeat u ws)) ∧
  (∀ (l : Fin 4) (ws : List Nat) (s u v : State) (k : Nat), heardStack s l ws smStatus → u = afterStack s l ws →
    isStkMaster u = true → k = smSrc ws → v = { u with stk := { u.stk with statusLocked := (u.stk.statusLocked &&& (0xFF ^^^ 2 ^ k)) + 2 ^ k * b2n (bitsOf (smW ws 1) 32 3 == stLocked), statusDoubt := (u.stk.statusDoubt &&& (0xFF ^^^ 2 ^ k)) + 2 ^ k * b2n (bitsOf (smW ws 1) 36 4 != 0) } } →
    exec (.memberStatus l ws) s = .next (rput v Reg.STK_MEMBERS F.STK_MEMBERS_LOCKED v.stk.statusLocked)) ∧
  (∀ (l : Fin 4) (ws : List Nat) (n : Fin 4294967296) (f : Int) (s u : State), heardStack s l ws smTimeSync → u = afterStack s l ws →
    isStkMaster u = false → smSeen u ws = false → smSrc ws = masterId u →
    exec (.timeSync l ws ⟨n, f⟩) s = .next (forEach ([0, 1, 2, 3].filter (fun k => k != l.val))
      (stackEstimate (noteSeen u ws) (wordsTime (smW ws 0) (smW ws 1) + ((smW ws 2 % 2 ^ 32 : Nat) : Int) - now (noteSeen u ws)) f)
      (fun s k => stkOnLink s k (stkMessage smTimeSync (smSrc ws) (smDst ws) (smSeq ws)
        [smW ws 0, smW ws 1, (smW ws 2 % 2 ^ 32 + n + linkDelay s k) % 2 ^ 32])))) ∧
  (∀ (l : Fin 4) (ws : List Nat) (s u v : State), heardStack s l ws smDelayReq → u = afterStack s l ws →
    v = { u with stk := { u.stk with back := mapSet (fun _ => 0) u.stk.back l (now u - wordsTime (smW ws 0) (smW ws 1)) } } →
    exec (.delayReq l ws) s =
      .next (stkLinkSend v l smDelayResp (smSrc ws) ([smW ws 0, smW ws 1] ++ timeWords (now v)))) ∧
  (∀ (l : Fin 4) (ws : List Nat) (s u : State) (mean : Int), heardStack s l ws smDelayResp → u = afterStack s l ws →
    mean = (wordsTime (smW ws 2) (smW ws 3) - wordsTime (smW ws 0) (smW ws 1) + mapGet (fun _ => 0) u.stk.back l) / 2 →
    exec (.delayResp l ws) s =
      .next (rput u (Reg.STK_LINK_DELAY l) F.STK_LINK_DELAY_DELAY (satNat 16 (mean * 10 / 65536).toNat))) ∧
  (∀ (l : Fin 4) (ws : List Nat) (s u : State) (e : Nat × Nat) (rs : List (Nat × Nat)), heardStack s l ws smSubscribe → u = afterStack s l ws →
    e = (smSrc ws, smW ws 0 % 1024) → rs = u.stk.readers.filter (fun x => x != e) → exec (.subscribe l ws) s =
      .next { u with stk := { u.stk with readers := if bitOf (smW ws 0) 16 = true then e :: rs else rs } }) ∧
  (∀ (l : Fin 4) (ws : List Nat) (s : State), heardStack s l ws smBeads → exec (.beads l ws) s =
    .next (forEach (List.range (smW ws 1 % 64 + 1)) (afterStack s l ws) (fun s i =>
      forEach (copiesOf s (1024 * smSrc ws + bitsOf (smW ws 1) 16 10 + i)) s (fun s c => writeRemote s ws i c)))) ∧
  (∀ s : State, live s = true → running s = true → exec .remoteBeadDeadline s =
    .next (forEach ((enabledEntries s P.STK_MAP_EN).filter (fun c => owns s clStack 0 c && !s.stk.arrived.contains c)) s
      (fun s c => raise (radd (fabMissing s clStack 0 c) Reg.STK_CNT_LATE F.STK_CNT_LATE_COUNT 1) 0x4CB noInst 0)))

/-- The coordinator keeps a vote and decides, or answers one on a decided transaction; a member notes and acknowledges a
logged decision; the coordinator announces an acknowledged one; a decision settles the part; a query is answered; an
answer that knows is kept and settles the part, one that does not only ends the wait; a scheduled carry waits for
its time; a member with autostart starts its part on START. A SPLIT_REPORT leaves the coordinator as it was: the
spec gives it nothing to do (log entry 51). (R265, R266, R267, R268, R271, R277, R470) -/
def Obligations.StackTalliesComplete : Prop :=
  (∀ (l : Fin 4) (ws : List Nat) (s u : State) (v : StkVote), heardStack s l ws smVote → u = afterStack s l ws →
    isStkMaster u = true → knownDecision u (smW ws 0 % 2 ^ 32) = none →
    v = ⟨smW ws 0 % 2 ^ 32, smSrc ws, bitOf (smW ws 1) 8, smW ws 1 % 256, bitsOf (smW ws 1) 16 48⟩ →
    exec (.vote l ws) s = .next (coordinate { u with stk := { u.stk with
      votes := u.stk.votes.filter (fun x => !(x.xid == v.xid && x.src == v.src)) ++ [v] } })) ∧
  (∀ (l : Fin 4) (ws : List Nat) (s : State), heardStack s l ws smLog → exec (.decisionLog l ws) s =
    .next (stkSend (noteDecision (afterStack s l ws) (decisionOf ws)) (smSrc ws) smLogAck [smW ws 0])) ∧
  (∀ (l : Fin 4) (ws : List Nat) (d : StkDecision) (s : State), heardStack s l ws smLogAck →
    (afterStack s l ws).stk.logging.find? (fun d => d.xid == smW ws 0 % 2 ^ 32) = some d →
    exec (.logAck l ws) s = .next (announce (afterStack s l ws) d)) ∧
  (∀ (l : Fin 4) (ws : List Nat) (s : State), heardStack s l ws smDecision → exec (.decision l ws) s =
    .next (decidePart (noteDecision (afterStack s l ws) (decisionOf ws)) (decisionOf ws).xid (decisionOf ws).commit)) ∧
  (∀ (l : Fin 4) (ws : List Nat) (s : State), heardStack s l ws smQuery → bitOf (smW ws 1) 0 = false →
    isStkMaster (afterStack s l ws) = true →
    exec (.query l ws) s = .next (answerDecision (afterStack s l ws) (smSrc ws) (smW ws 0 % 2 ^ 32))) ∧
  (∀ (l : Fin 4) (ws : List Nat) (s u : State) (x : Nat), heardStack s l ws smQuery → u = afterStack s l ws →
    bitOf (smW ws 1) 0 = true → x = smW ws 0 % 2 ^ 32 → exec (.query l ws) s =
      .next (sendAnswer u (smSrc ws) x (holdsCommit u x) ((knownDecision u x).isNone && !holdsCommit u x))) ∧
  (∀ (l : Fin 4) (ws : List Nat) (s u v : State), heardStack s l ws smAnswer → u = afterStack s l ws →
    (u.stk.inquiries.filter (fun q => q.xid == smW ws 0 % 2 ^ 32 && bitOf q.waiting (smSrc ws))) = [] →
    v = { u with stk := { u.stk with waits := u.stk.waits.filter (fun w => !(w.type == smQuery && w.xid == smW ws 0 % 2 ^ 32 && w.dst == smSrc ws)) } } →
    (bitOf (smW ws 1) 1 = true → exec (.answer l ws) s = .next v) ∧
    (bitOf (smW ws 1) 1 = false → exec (.answer l ws) s = .next (decidePart (noteDecision v ⟨smW ws 0 % 2 ^ 32,
      bitOf (smW ws 1) 0, partBoundary v (smW ws 0 % 2 ^ 32)⟩) (smW ws 0 % 2 ^ 32) (bitOf (smW ws 1) 0)))) ∧
  (∀ (l : Fin 4) (ws : List Nat) (s u : State) (x : Int), heardStack s l ws smCarry → u = afterStack s l ws →
    x = mkTime (smW ws 0 % 2 ^ 48) (bitsOf (smW ws 1) 0 30) → now u ≤ x → exec (.carrySched l ws) s =
      .next { u with snap := { u.snap with scheduled := u.snap.scheduled ++ [(x, smW ws 2 % 2 ^ 32, none)] } }) ∧
  (∀ (l : Fin 4) (ws : List Nat) (s : State), heardStack s l ws smSplit →
    exec (.splitReport l ws) s = .next (afterStack s l ws)) ∧
  (∀ (l : Fin 4) (ws : List Nat) (s : State), heardStack s l ws smStart → autostarts (afterStack s l ws) = true →
    exec (.stackStart l ws) s = .next (startPart (afterStack s l ws) (smW ws 0) (smW ws 1 % 2 ^ 32)))

/-- Each 1 written to FLT_STATg clears its source with its latch, and FLT_CLR_GRP.GO clears a group. FLT_CNTg.CLR clears
its count. FLT_CFG stores the mask of the selected source, and is refused for the fixed source or one that does not
exist; FLT_CFG_GRP.GO stores a mask for every source of a group but the fixed one. A set SYS_LOCK keeps the masks.
(R477, R479, R480, R500) -/
def Obligations.FaultClearingComplete : Prop :=
  (∀ (g : Fin 64) (hi : Bool) (w : Word) (s : State), hostMay s → exec (.fltStatClear g hi w) s =
    .next (clearSources (endSelftest s) g (if hi then 2 ^ 32 * w.toNat else w.toNat))) ∧
  (∀ (w : Word) (s : State), hostMay s → fldGet F.FLT_CLR_GRP_GO w = 1 → exec (.fltClrGrp w) s =
    .next (clearSources (endSelftest s) (fldGet F.FLT_CLR_GRP_GROUP w) (2 ^ 64 - 1))) ∧
  (∀ (g : Fin 64) (w : Word) (s : State), hostMay s → fldGet F.FLT_CNT_CLR w = 1 → exec (.fltCntClr g w) s =
    .next (rclr (endSelftest s) (Reg.FLT_CNT g) F.FLT_CNT_COUNT)) ∧
  (∀ (w : Word) (id : Nat) (s u : State), hostMay s → u = endSelftest s → id = rget u Reg.FLT_SEL F.FLT_SEL_ID →
    ron u Reg.SYS_LOCK F.SYS_LOCK_LOCK = false → id ≠ 0x610 → sourceExists u id = true → exec (.fltCfg w) s =
      .next { u with collector := { u.collector with masks := mapSet maskReset u.collector.masks id (fldGet F.FLT_CFG_MASK w), flips := mapSet (fun _ => 0) u.collector.flips (maskKey id) 0 } }) ∧
  (∀ (w : Word) (id : Nat) (s u : State), hostMay s → u = endSelftest s → id = rget u Reg.FLT_SEL F.FLT_SEL_ID →
    ron u Reg.SYS_LOCK F.SYS_LOCK_LOCK = false → id = 0x610 ∨ sourceExists u id = false →
    exec (.fltCfg w) s = .next (rset u Reg.FLT_STAT F.FLT_STAT_REFUSED)) ∧
  (∀ (w : Word) (s u : State), hostMay s → u = rwrite (endSelftest s) Reg.FLT_CFG_GRP w →
    fldGet F.FLT_CFG_GRP_GO w = 1 → ron u Reg.SYS_LOCK F.SYS_LOCK_LOCK = false → exec (.fltCfgGrp w) s =
      .next (forEach (((List.range 64).map (fun i => 64 * fldGet F.FLT_CFG_GRP_GROUP w + i)).filter
        (fun id => sourceExists u id && id != 0x610)) u (fun s id => setMask s id (fldGet F.FLT_CFG_GRP_MASK w)))) ∧
  (∀ (w : Word) (s : State), hostMay s → ron (endSelftest s) Reg.SYS_LOCK F.SYS_LOCK_LOCK = true →
    exec (.fltCfg w) s = .next (endSelftest s)) ∧
  (∀ (w : Word) (s u : State), hostMay s → u = rwrite (endSelftest s) Reg.FLT_CFG_GRP w →
    ron u Reg.SYS_LOCK F.SYS_LOCK_LOCK = true → exec (.fltCfgGrp w) s = .next u)

/-- With INJ_EN a forced source is raised as forced, and 0x610 starts the self-protection path; without it, or for a
source that does not exist, FLT_FORCE is refused. The two self-test keys in turn invert a bit of FLT_CTRL's second
copy; an upset inverts bits of a copy of FLT_CTRL, of FLT_THERM or of a mask, and a scan that finds copies that
differ starts the self-protection path. FAULT_N is released when FN_MIN has passed and nothing holds it. FLT_UNFENCE
takes every fenced unit its source names out of its fence, and is refused while a raise still holds one. Which
instance a forced raise names is the model's choice (log entry 41). (R481, R482, R484, R485, R486) -/
def Obligations.FaultInjectionComplete : Prop :=
  (∀ (w : Word) (id : Nat) (s u : State), hostMay s → u = compareCtrl (endSelftest s) → id = fldGet F.FLT_FORCE_ID w →
    fldGet F.FLT_FORCE_GO w = 1 → ron u Reg.FLT_CTRL F.FLT_CTRL_INJ_EN = true → sourceExists u id = true →
    id ≠ 0x610 → exec (.fltForce w) s = .next (raiseForced u id (forcedInst id) (forcedDatum u id))) ∧
  (∀ (w : Word) (s u : State), hostMay s → u = compareCtrl (endSelftest s) → fldGet F.FLT_FORCE_ID w = 0x610 →
    fldGet F.FLT_FORCE_GO w = 1 → ron u Reg.FLT_CTRL F.FLT_CTRL_INJ_EN = true →
    exec (.fltForce w) s = .next (selfTrip u true)) ∧
  (∀ (w : Word) (s u : State), hostMay s → u = compareCtrl (endSelftest s) → fldGet F.FLT_FORCE_GO w = 1 →
    ron u Reg.FLT_CTRL F.FLT_CTRL_INJ_EN = false ∨ sourceExists u (fldGet F.FLT_FORCE_ID w) = false →
    exec (.fltForce w) s = .next (rset u Reg.FLT_STAT F.FLT_STAT_REFUSED)) ∧
  (∀ (w : Word) (s u : State), hostMay s → u = compareCtrl s → fldGet F.FLT_SELFTEST_KEY w = 0x5E1F →
    ron u Reg.FLT_CTRL F.FLT_CTRL_INJ_EN = true →
    exec (.fltSelftest w) s = .next { u with collector := { u.collector with testKey := true } }) ∧
  (∀ (w : Word) (s u : State), hostMay s → u = compareCtrl s → fldGet F.FLT_SELFTEST_KEY w = 0xA1E5 →
    ron u Reg.FLT_CTRL F.FLT_CTRL_INJ_EN = true → u.collector.testKey = true →
    exec (.fltSelftest w) s = .next (setFlips { u with collector := { u.collector with testKey := false } } ctrlKey
      (flipsAt u ctrlKey ^^^ 1))) ∧
  (∀ (x : ConfigUpset) (k n : Nat) (s u : State), s.powered = true → configKey s x.word = some (k, n) →
    u = setFlips s k (flipsAt s k ^^^ (x.bits.toNat % 2 ^ n)) → exec (.configurationScan (some x)) s =
      .next (if u.collector.flips.isEmpty then u else selfTrip u false)) ∧
  (∀ s : State, s.powered = true → exec (.configurationScan none) s =
    .next (if s.collector.flips.isEmpty then s else selfTrip s false)) ∧
  (∀ (s u : State) (c : Nat), s.powered = true → u = compareCtrl s → u.collector.faultNHold = some c →
    ticksReach (recorderNow u - c) (1000 * max 1 (rget u Reg.FLT_CTRL F.FLT_CTRL_FN_MIN)) = true →
    exec .faultNMinExpiry s = .next (refreshFaultN { u with collector := { u.collector with faultNHold := none } })) ∧
  (∀ (w : Word) (id : Nat) (us : List Nat) (s u : State), hostMay s → u = endSelftest s →
    id = fldGet F.FLT_UNFENCE_ID w → us = unfenceUnits u id → fldGet F.FLT_UNFENCE_GO w = 1 →
    sourceExists u id = true → us ≠ [] → us.any (unitHeld u) = false →
    exec (.fltUnfence w) s = .next (forEach (us.filter (unitFenced u)) u unfenceUnit)) ∧
  (∀ (w : Word) (id : Nat) (s u : State), hostMay s → u = endSelftest s → id = fldGet F.FLT_UNFENCE_ID w →
    fldGet F.FLT_UNFENCE_GO w = 1 → (unfenceUnits u id).any (unitHeld u) = true →
    exec (.fltUnfence w) s = .next (rset u Reg.FLT_STAT F.FLT_STAT_REFUSED))

/-- A reading of H0 to H3 is stored and judged against WARN and CRIT, one of the DRAM stack against 95 °C; a sensor that
failed takes the highest of the others and raises 0x5C9. The supervisor's watchdog raises 0x600. A refill adds the
tokens that are due, up to BURST. A save stores the operating time and the log's counters, or raises 0x605. A
TIME_MARK, one day of operating time after the one before or after TIME_VALID, carries the seconds of device time,
and reading EVR_OPTIME_F latches the operating time. (R475, R491, R492, R493, R496) -/
def Obligations.SensorsAndLimitsComplete : Prop :=
  (∀ (r : BitVec 16) (s u : State), s.powered = true →
    u = noteSensor (rput s Reg.FLT_THERM_DRAM F.FLT_THERM_DRAM_DRAM (wrapTo 16 r.toInt)) 4 true →
    exec (.thermalSensorReading 4 (some r)) s = .next (thermJudge u 0x5C8 4 r.toInt 1520 (decide (1520 < r.toInt)))) ∧
  (∀ (n : Fin 5) (r : BitVec 16) (s u : State) (warn crit : Int), s.powered = true → n.val < 4 →
    flipsAt s thermKey = 0 → u = noteSensor (rput s (thermPlace n).1 (thermPlace n).2 (wrapTo 16 r.toInt)) n true →
    warn = 16 * rget u Reg.FLT_THERM F.FLT_THERM_WARN → crit = max warn (16 * rget u Reg.FLT_THERM F.FLT_THERM_CRIT) →
    exec (.thermalSensorReading n (some r)) s = .next (thermJudge (thermJudge u (0x5C0 + n.val) n r.toInt warn
      (decide (warn ≤ r.toInt))) (0x5C4 + n.val) n r.toInt crit (decide (crit ≤ r.toInt)))) ∧
  (∀ (n : Fin 5) (k : Nat) (rest : List Nat) (v : Int) (s u : State), s.powered = true →
    (List.range 5).filter (fun k => k != n.val && !bitOf s.collector.sensorBad k) = k :: rest →
    v = (rest.map (thermOf s)).foldl max (thermOf s k) →
    u = noteSensor (rput s (thermPlace n).1 (thermPlace n).2 (wrapTo 16 v)) n false →
    exec (.thermalSensorReading n none) s = .next (raise (judgeReading u n v) 0x5C9 n (wrapTo 32 v))) ∧
  (∀ (s u : State) (x : StkState), s.powered = true → s.boot.supervisor = true →
    x = { s.stk with discover := s.stk.discover.map (fun _ => s.time.cnt) } →
    u = { s with boot := { s.boot with restarting := true }, stk := x, mgt := { s.mgt with refreshed := false } } →
    exec .supervisorWatchdog s = .next (raise (restartServo u) 0x600 noInst 0)) ∧
  (∀ (k : BitVec 16) (s : State), s.powered = true → exec (.tokenRefill k) s =
    .next (setBucket s k.toNat (refilled (bucketOf s k.toNat) (recorderNow s)))) ∧
  (∀ s : State, s.powered = true → s.boot.supervisor = true → exec (.optimeSave true) s = .next (saveCounters s)) ∧
  (∀ s : State, s.powered = true → s.boot.supervisor = true → exec (.optimeSave false) s =
    .next (raise s 0x605 noInst 0)) ∧
  (∀ (s : State) (t : Nat), s.powered = true → s.recorder.marked = some t → t + dayOptime ≤ s.recorder.optime →
    exec .timeMark s = .next (recordEvent { s with recorder := { s.recorder with marked := some (t + dayOptime) } } 0x1844 0x3FF
      false (timeSec (now s) % 2 ^ 32))) ∧
  (∀ s : State, hostMay s → exec .evrOptimeFRead s = .next (rput (rput (rput s Reg.EVR_OPTIME_F F.EVR_OPTIME_F_FRAC
    (s.recorder.optime % 256)) Reg.EVR_OPTIME_S F.EVR_OPTIME_S_SEC (s.recorder.optime / 256))
    Reg.EVR_PCC F.EVR_PCC_COUNT s.recorder.pcc))

/-- EVR_HOST.GO records a host event with its instance and datum. The supervisor commits the waiting records, when a
commit is due; EVENT_READ writes the records from FIRST on to host memory and completes with their number and the
total. The two clear keys within 1 ms start an erase, after which record 0 is LOG_CLEARED and the records that
waited follow it. (R494, R495, R497, R499) -/
def Obligations.EventLogComplete : Prop :=
  (∀ (w : Word) (s u : State), hostMay s → u = rwrite s Reg.EVR_HOST w → fldGet F.EVR_HOST_GO w = 1 →
    exec (.evrHost w) s = .next (recordEvent u (0x18F0 + fldGet F.EVR_HOST_N w) (fldGet F.EVR_HOST_INSTANCE w) false
      (rget u Reg.EVR_HOST_DATUM F.EVR_HOST_DATUM_DATUM))) ∧
  (∀ (fs : List Nat) (s : State), s.powered = true → supervisorRuns s = true → commitDue s = true →
    exec (.eventCommit fs) s = .next (commitRun fs (min 16 (numbered s)) s)) ∧
  (∀ (d : DescRef) (bs : List Byte) (n total : Nat) (s u : State), ready s d 0x40 bs → u = markAccepted s d →
    total = rget u Reg.EVR_COUNT F.EVR_COUNT_RECORDS → n = min (leAt bs 12 4) (total - leAt bs 8 4) →
    exec (.eventRead d) s = .next (finish (hostWrite u (leAt bs 16 8)
      ((List.range n).flatMap (fun i => recordOut u (leAt bs 8 4 + i)))) d stOk (n + 2 ^ 32 * total))) ∧
  (∀ (w : Word) (s : State), hostMay s → fldGet F.EVR_CLEAR_KEY w = 0xC1EA →
    ron s Reg.SYS_LOCK F.SYS_LOCK_LOCK = false → ron s Reg.EVR_STAT F.EVR_STAT_CLEAR_BUSY = false →
    exec (.evrClear w) s = .next { s with recorder := { s.recorder with clearKey := some s.time.cnt } }) ∧
  (∀ (w : Word) (c : Nat) (s : State), hostMay s → fldGet F.EVR_CLEAR_KEY w = 0x1EAC →
    ron s Reg.SYS_LOCK F.SYS_LOCK_LOCK = false → ron s Reg.EVR_STAT F.EVR_STAT_CLEAR_BUSY = false →
    s.recorder.clearKey = some c → s.time.cnt ≤ c + 393216 → exec (.evrClear w) s = .next (startClear s)) ∧
  (∀ s : State, s.powered = true → ron s Reg.EVR_STAT F.EVR_STAT_CLEAR_BUSY = true →
    ron s Reg.BOOT_PFAIL F.BOOT_PFAIL_LEVEL = true → s.recorder.buffer.length < 16384 → ∃ t, exec .logEraseDone s = .next t ∧
      t.recorder.buffer = ⟨0x1843, 0x3FF, false, 0, s.recorder.optime, s.recorder.pcc, s.recorder.clearOld⟩ :: s.recorder.buffer ∧
      t.recorder.voids = [] ∧ t.recorder.seals = [] ∧ t.gsram = s.gsram ∧ t.dram = s.dram ∧ t.hostMem = s.hostMem)

/-- A write of EVR_HOST with GO = 1 records an event with the code 0x18F0 + N, the INSTANCE written and the DATUM of
EVR_HOST_DATUM; with GO = 0 it records nothing. None of the sixteen codes is exempt from its token bucket: with a
token the record enters the buffer and the token is gone; without one it is counted as suppressed and the buffer is
as it was. (R495) -/
def Obligations.HostEventRecorded : Prop :=
  (∀ (w : Word) (s u : State), hostMay s → u = rwrite s Reg.EVR_HOST w → fldGet F.EVR_HOST_GO w = 1 →
    exec (.evrHost w) s = .next (recordEvent u (0x18F0 + fldGet F.EVR_HOST_N w) (fldGet F.EVR_HOST_INSTANCE w) false
      (rget u Reg.EVR_HOST_DATUM F.EVR_HOST_DATUM_DATUM))) ∧
  (∀ (w : Word) (s : State), hostMay s → fldGet F.EVR_HOST_GO w = 0 →
    exec (.evrHost w) s = .next (rwrite s Reg.EVR_HOST w)) ∧
  (∀ (n inst d : Nat) (s : State) (b : Bucket), n < 16 →
    b = bucketAt (bucketOf s (0x18F0 + n)) (rateLimit s (0x18F0 + n)) (recorderNow s) →
    (b.tokens = 0 → (offer s (0x18F0 + n) inst false d).1.recorder.buffer = s.recorder.buffer ∧
      (offer s (0x18F0 + n) inst false d).1.recorder.buckets =
        mapSet bucketFull s.recorder.buckets (0x18F0 + n) { b with suppressed := b.suppressed + 1 }) ∧
    (0 < b.tokens → s.recorder.buffer.length < bufferSize → ron s Reg.EVR_STAT F.EVR_STAT_LOG_FULL = false →
      (offer s (0x18F0 + n) inst false d).1.recorder.buffer = s.recorder.buffer ++
        [⟨0x18F0 + n, inst % 1024, false, suppCode b.suppressed, s.recorder.optime, s.recorder.pcc, d % 2 ^ 32⟩] ∧
      (offer s (0x18F0 + n) inst false d).1.recorder.buckets =
        mapSet bucketFull s.recorder.buckets (0x18F0 + n) { b with tokens := b.tokens - 1, suppressed := 0 }))

/-- When a source is raised its STATUS bit is 1, its group's counter has gone up by one (or stands at its largest
value), FLT_LAST names it with whether it was forced, and FLT_FIRST names it if it named none; no STATUS bit of
another source, and no counter of another group, changes. It is about states whose memories have their canonical
form, which every step keeps (MemoryFormKept). (R476, R477, R487) -/
def Obligations.RaiseMarksItsSource : Prop :=
  ∀ (s t : State) (id : Nat) (forced : Bool), Memory.wf s = true → id < 4096 → t = latchPlain s id forced →
    statusOf t id = true ∧
    rget t (Reg.FLT_CNT (id / 64)) F.FLT_CNT_COUNT = min (rget s (Reg.FLT_CNT (id / 64)) F.FLT_CNT_COUNT + 1)
      (2 ^ F.FLT_CNT_COUNT.width - 1) ∧
    rget t Reg.FLT_LAST F.FLT_LAST_ID = id ∧ ron t Reg.FLT_LAST F.FLT_LAST_VALID = true ∧
    ron t Reg.FLT_LAST F.FLT_LAST_FORCED = forced ∧
    (ron s Reg.FLT_FIRST F.FLT_FIRST_VALID = false →
      rget t Reg.FLT_FIRST F.FLT_FIRST_ID = id ∧ ron t Reg.FLT_FIRST F.FLT_FIRST_VALID = true) ∧
    (ron s Reg.FLT_FIRST F.FLT_FIRST_VALID = true → rd t Reg.FLT_FIRST = rd s Reg.FLT_FIRST) ∧
    (∀ k, k < 4096 → k ≠ id → statusOf t k = statusOf s k) ∧
    (∀ g, g < 64 → g ≠ id / 64 → rd t (Reg.FLT_CNT g) = rd s (Reg.FLT_CNT g))

/-- A fall of PFAIL_N clears LEVEL, is counted and recorded, abandons flash work in progress, and starts the
supervisor's set unless that already runs; a rise sets LEVEL, and a repair of the store that waited for it is done;
the end of the set stores its time. (R491, R521, R523) -/
def Obligations.PowerFailComplete : Prop :=
  (∀ s u : State, s.powered = true → ron s Reg.BOOT_PFAIL F.BOOT_PFAIL_LEVEL = true →
    u = recordEvent (radd (rclr s Reg.BOOT_PFAIL F.BOOT_PFAIL_LEVEL) Reg.BOOT_PFAIL F.BOOT_PFAIL_FALLS 1) 0x1842 0x3FF false 0 →
    exec .pfailFall s = .next (if ron (abandonWork u) Reg.BOOT_PFAIL F.BOOT_PFAIL_ACTIVE then abandonWork u
      else pfailSet (rset (abandonWork u) Reg.BOOT_PFAIL F.BOOT_PFAIL_ACTIVE))) ∧
  (∀ s : State, s.powered = true →
    (s.boot.repairDue = false → exec .pfailRise s = .next (rset s Reg.BOOT_PFAIL F.BOOT_PFAIL_LEVEL)) ∧
    (s.boot.repairDue = true → exec .pfailRise s = .next (repairStore (rset s Reg.BOOT_PFAIL F.BOOT_PFAIL_LEVEL)))) ∧
  (∀ (us : BitVec 16) (s : State), s.powered = true → ron s Reg.BOOT_PFAIL F.BOOT_PFAIL_ACTIVE = true →
    exec (.pfailSetDone us) s = .next (rput (rset (rclr s Reg.BOOT_PFAIL F.BOOT_PFAIL_ACTIVE) Reg.BOOT_PFAIL
      F.BOOT_PFAIL_DONE) Reg.BOOT_PFAIL_TIME F.BOOT_PFAIL_TIME_US us.toNat))

/-- The ROM reports the OTP, and an address of it that cannot be read with 0x606; it enters recovery mode with cause 4
for a flash that does not identify itself; it counts the power-on, for which it waits while PFAIL_N is low and whose
record a loss of power can spoil, and enters recovery mode with cause 1 for RECOV_N; otherwise it goes on with the
header in use. In recovery mode the mailbox takes a block that passes its checks, BUSY until it has been stored, and
activates a staged image where its verdict is OK, each ending with its status. The started supervisor ends recovery
mode, records a copy of this start, goes on with a log clear that was cut short and applies the configuration store.
(R504, R507, R511, R512, R514, R515, R518, R528) -/
def Obligations.BootComplete : Prop :=
  (∀ (f : RomFlash) (s u v w : State), s.powered = true → s.boot.romUp = false → s.boot.supervisor = false →
    ron s Reg.BOOT_STAT F.BOOT_STAT_MODE = false →
    u = refreshFaultN { s with boot := { s.boot with coming := false, resetting := false } } →
    v = reportOtp { u with mgt := { u.mgt with answers := true, idleAt := some (recorderNow u) } } →
    (f.otpBad = none → w = v) → (∀ a, f.otpBad = some a → w = raise v 0x606 noInst a.toNat) →
    (f.identified = false → exec (.bootRomStart f) s = .next (enterRecovery (raise w 0x547 noInst 0) 4)) ∧
    (f.identified = true → (w.boot.powerOn = false ∨ ron w Reg.BOOT_PFAIL F.BOOT_PFAIL_LEVEL = true ∧ f.cut ≠ some .record) →
      exec (.bootRomStart f) s = .next (if (countPower w).boot.recovLow = true then recoverAsked (countPower w)
        else romFromCopy (countPower w) f)) ∧
    (f.identified = true → w.boot.powerOn = true → ron w Reg.BOOT_PFAIL F.BOOT_PFAIL_LEVEL = true →
      f.cut = some .record → exec (.bootRomStart f) s = .next (spoilRecord w)) ∧
    (f.identified = true → w.boot.powerOn = true → ron w Reg.BOOT_PFAIL F.BOOT_PFAIL_LEVEL = false →
      exec (.bootRomStart f) s = .next w)) ∧
  (∀ s u v w : State, s.powered = true → s.boot.romUp = true → s.boot.supervisor = false →
    u = resetRange (rclr { s with boot := { s.boot with supervisor := true, load := some 0 } } Reg.BOOT_STAT
      F.BOOT_STAT_MODE) Reg.BOOT_MB_ADDR_LO (Reg.BOOT_MB_STAT + 4) →
    (s.boot.copied = none → v = u) → (∀ n, s.boot.copied = some n → v = recordEvent u 0x1542 noInst false n) →
    w = (if clearPending v = true then refreshFlashBusy (rset v Reg.EVR_STAT F.EVR_STAT_CLEAR_BUSY) else v) →
    exec .supervisorStart s = .next (continueLoad (sealLinked (applyRate (chooseStore w))))) ∧
  (∀ (w : Word) (bs : List Byte) (offset len : Nat) (s u v : State), inRecovery s = true → u = rwrite s Reg.BOOT_MB_CMD w →
    offset = (rd u Reg.BOOT_MB_OFFSET).toNat → len = (rd u Reg.BOOT_MB_LEN).toNat → fldGet F.BOOT_MB_CMD_GO w = 1 →
    fldGet F.BOOT_MB_CMD_OP w = 1 → offset % 4096 = 0 → len ≠ 0 → len ≤ 65536 → offset + len ≤ 25165824 →
    mailboxBusy u = false → mailboxRefusal u = none →
    crc32c (bytesAt bs 0 len) = (rd (undoActivation u) Reg.BOOT_MB_CRC).toNat → v = undoActivation u →
    exec (.bootMbBlock w (some bs)) s = .next (refreshFlashBusy (rset
      { v with boot := { v.boot with work := some (.block offset (bytesAt bs 0 len), none) } } Reg.BOOT_MB_STAT
      F.BOOT_MB_STAT_BUSY))) ∧
  (∀ (o : Nat) (bs : List Byte) (s u : State), inRecovery s = true → s.boot.work = some (.block o bs, none) →
    u = refreshFlashBusy (stageBlock { s with boot := { s.boot with work := none } } o bs) → inRecovery u = true →
    exec (.hostFlashWorkDone true) s = .next (mailboxEnd u stOk)) ∧
  (∀ (w : Word) (f : RomFlash) (s u : State) (v : Nat), inRecovery s = true → u = rwrite s Reg.BOOT_MB_CMD w →
    fldGet F.BOOT_MB_CMD_GO w = 1 → fldGet F.BOOT_MB_CMD_OP w = 2 → mailboxBusy u = false → mailboxRefusal u = none →
    v = (if (rd u Reg.BOOT_MB_LEN).toNat = imLength u stagingAt then imVerdict u stagingAt else stInvalidParam) →
    exec (.bootMbActivate w f) s = .next (if v = stOk then romFromCopy (mailboxEnd (activateStaged u) stOk) f
      else mailboxEnd (raise (undoActivation u) 0x545 noInst 0) v))

/-- With FLASH_WR_EN set and the flash free, a save, block or activation that passes its checks becomes the flash work
in progress with FLASH_BUSY set, an activation that fails them completing with what the first failed check gives;
without FLASH_WR_EN it completes INVALID_PARAM, and while other work runs BUSY_RETRY. Work that was read back
correctly takes effect and completes OK. What a failed read-back completes with is a free status of Table 12-10 that
is not OK (log entry 55). (R509, R510, R511, R513, R516) -/
def Obligations.FlashWorkComplete : Prop :=
  (∀ (d : DescRef) (bs im : List Byte) (s u : State), ready s d 0x58 bs → u = markAccepted s d →
    ron u Reg.BOOT_CTRL F.BOOT_CTRL_FLASH_WR_EN = true → flashBusy u = false → im.length = leAt bs 8 4 →
    crc32c im = leAt bs 24 4 → (storeSections im).isSome = true → exec (.configSave d (some im)) s =
      .next (rset { u with boot := { u.boot with work := some (.save im (par bs 28 0 1 == 1), some d) } }
        Reg.BOOT_STAT F.BOOT_STAT_FLASH_BUSY)) ∧
  (∀ (d : DescRef) (bs block : List Byte) (s u : State), ready s d 0x60 bs →
    ron (markAccepted s d) Reg.BOOT_CTRL F.BOOT_CTRL_FLASH_WR_EN = true → flashBusy (markAccepted s d) = false →
    leAt bs 8 4 + leAt bs 12 4 ≤ 25165824 → block.length = leAt bs 12 4 → crc32c block = leAt bs 24 4 →
    u = undoActivation (markAccepted s d) → exec (.updateBlock d (some block)) s =
      .next (rset { u with boot := { u.boot with work := some (.block (leAt bs 8 4) block, some d) } }
        Reg.BOOT_STAT F.BOOT_STAT_FLASH_BUSY)) ∧
  (∀ (d : DescRef) (bs : List Byte) (s u : State) (v : Nat), ready s d 0x61 bs → u = markAccepted s d →
    ron u Reg.BOOT_CTRL F.BOOT_CTRL_FLASH_WR_EN = true → flashBusy u = false →
    v = (if leAt bs 8 4 = imLength u stagingAt then imVerdict u stagingAt else stInvalidParam) →
    exec (.updateActivate d) s = .next (if v = stOk then rset { u with boot := { u.boot with
        work := some (.activate (leAt bs 8 4), some d) } } Reg.BOOT_STAT F.BOOT_STAT_FLASH_BUSY
      else finish (raise (undoActivation u) 0x545 noInst 0) d v 0)) ∧
  (∀ (d : DescRef) (bs : List Byte) (x : Option (List Byte)) (s u : State), u = markAccepted s d →
    ron u Reg.BOOT_CTRL F.BOOT_CTRL_FLASH_WR_EN = false →
    (ready s d 0x58 bs → exec (.configSave d x) s = .next (finish u d stInvalidParam 0)) ∧
    (ready s d 0x60 bs → exec (.updateBlock d x) s = .next (finish u d stInvalidParam 0)) ∧
    (ready s d 0x61 bs → exec (.updateActivate d) s = .next (finish u d stInvalidParam 0))) ∧
  (∀ (d : DescRef) (bs : List Byte) (x : Option (List Byte)) (s u : State), u = markAccepted s d →
    ron u Reg.BOOT_CTRL F.BOOT_CTRL_FLASH_WR_EN = true → flashBusy u = true →
    (ready s d 0x58 bs → exec (.configSave d x) s = .next (finish u d stBusyRetry 0)) ∧
    (ready s d 0x60 bs → leAt bs 8 4 + leAt bs 12 4 ≤ 25165824 →
      exec (.updateBlock d x) s = .next (finish u d stBusyRetry 0)) ∧
    (ready s d 0x61 bs → exec (.updateActivate d) s = .next (finish u d stBusyRetry 0))) ∧
  (∀ (im : List Byte) (auto : Bool) (d : Option DescRef) (s u v : State) (h : StoreHeader), live s = true →
    s.boot.work = some (.save im auto, d) → u = { s with boot := { s.boot with work := none } } →
    h = ⟨storeGen u + 1, im.length, crc32c im, auto⟩ → v = (copyOrder u).foldl (fun s c => writeCopy s h im c) u →
    exec (.hostFlashWorkDone true) s = .next (finishOpt (refreshFlashBusy (recordEvent
      (wr v Reg.BOOT_STORE_GEN (BitVec.ofNat 32 h.gen)) 0x1544 noInst false h.gen)) d stOk h.gen)) ∧
  (∀ (j : FlashJob) (d : Option DescRef) (s u : State) (st : BitVec 8), live s = true → s.boot.work = some (j, d) →
    (st, u) = takeFree (refreshFlashBusy (spoilWork s)) 8 →
    exec (.hostFlashWorkDone false) s = .next (finishOpt u d (1 + st.toNat % 12) 0)) ∧
  (∀ (o : Nat) (bs : List Byte) (d : Option DescRef) (s u : State), live s = true →
    s.boot.work = some (.block o bs, d) → u = stageBlock { s with boot := { s.boot with work := none } } o bs →
    exec (.hostFlashWorkDone true) s = .next (finishOpt (refreshFlashBusy u) d stOk (o + bs.length))) ∧
  (∀ (n : Nat) (d : Option DescRef) (s u : State), live s = true → s.boot.work = some (.activate n, d) →
    u = activateStaged { s with boot := { s.boot with work := none } } → exec (.hostFlashWorkDone true) s =
      .next (finishOpt (refreshFlashBusy u) d stOk (activateResult { s with boot := { s.boot with work := none } })))

/-- An address that matches is acknowledged, counted and begins a write, or a read with the page latched; one that does
not is not acknowledged. The first written byte sets the pointer, a later one below 0xC0 is discarded with 0x583,
one above it is stored in the controller buffer; a read byte comes from the latch and advances the pointer; STOP
ends the transfer. A START or STOP inside a byte, or SDA stuck low for SDA_MS, ends it with an error counted and its
source. A host buffer write is stored, and a changed MGT_ADDR is recorded. A pending request pulses SDA once the bus
has been idle for its time. The end of a pulse sets SENT, clears BACKOFF and records it; an abandoned pulse stays
pending with BACKOFF counted, ABANDONED set and 0x581. REPEAT asks again after its seconds while an enabled cause is
set and no request is pending, and GO sets cause HOST. The supervisor refreshes the page, and READs the supervision
data of the dies whose links are UP. (R529, R530, R531, R532, R533, R534, R540, R535, R536, R537) -/
def Obligations.ManagementComplete : Prop :=
  ((∀ (a : Fin 128) (r : Bool) (s : State), s.powered = true → s.mgt.answers = true → mgtMatches (endTransfer (busTaken s)) a = false →
    exec (.mgtAddress a r) s = .next (sendOut (endTransfer (busTaken s)) (.mgtAck false))) ∧
  (∀ (a : Fin 128) (s u v : State), s.powered = true → s.mgt.answers = true → u = endTransfer (busTaken s) → mgtMatches u a = true →
    v = rput (rset u Reg.MGT_STAT F.MGT_STAT_BUSY) Reg.MGT_STAT F.MGT_STAT_LAST_ADDR a →
    exec (.mgtAddress a false) s = .next { rput v Reg.MGT_CNT F.MGT_CNT_TRANSFERS (rget v Reg.MGT_CNT F.MGT_CNT_TRANSFERS + 1) with
      sent := .mgtAck true :: u.sent, mgt := { u.mgt with transfer := .writing 0 false none } }) ∧
  (∀ (a : Fin 128) (s u : State), s.powered = true → s.mgt.answers = true → u = endTransfer (busTaken s) → mgtMatches u a = true →
    Memory.wf s = true → ∃ t, exec (.mgtAddress a true) s = .next t ∧ t.mgt.transfer = .reading ∧ t.sent = .mgtAck true :: u.sent ∧
      t.mgt.pointer = u.mgt.pointer ∧ regsKept u t [Reg.MGT_STAT, Reg.MGT_CNT] ∧ memoriesKept u t) ∧
  (∀ (b : Byte) (g : Bool) (x : Option Nat) (s u : State), s.powered = true → s.mgt.answers = true →
    s.mgt.transfer = .writing 0 g x → u = bytePassed s → exec (.mgtWriteByte b) s = .next { u with
      sent := .mgtAck true :: s.sent, mgt := { u.mgt with pointer := b.toNat, transfer := .writing 1 g x } }) ∧
  (∀ (b : Byte) (n : Nat) (x : Option Nat) (s u : State), s.powered = true → s.mgt.answers = true → u = bytePassed s →
    s.mgt.transfer = .writing (n + 1) false x → s.mgt.pointer < 0xC0 → exec (.mgtWriteByte b) s = .next (raise { u with
      sent := .mgtAck true :: s.sent,
      mgt := { u.mgt with pointer := (s.mgt.pointer + 1) % 256, transfer := .writing (n + 2) true x } } 0x583 0x3FF 0)) ∧
  (∀ (b : Byte) (n p : Nat) (g : Bool) (x : Option Nat) (s u v : State), s.powered = true → s.mgt.answers = true →
    s.mgt.transfer = .writing (n + 1) g x → p = s.mgt.pointer → 0xC0 < p → u = sendOut (bytePassed s) (.mgtAck true) →
    v = rset (rput u (Reg.MGT_CTRLBUF ((p - 0xC0) / 4)) ⟨8 * (p % 4), 8⟩ b.toNat) Reg.MGT_STAT F.MGT_STAT_RX_BUSY →
    exec (.mgtWriteByte b) s = .next { v with mgt := { v.mgt with
      pointer := (p + 1) % 256, transfer := .writing (n + 2) g (if x.isSome = true then x else some p) } }) ∧
  (∀ s u : State, s.powered = true → s.mgt.answers = true → s.mgt.transfer = .reading → u = bytePassed s →
    exec (.mgtReadByte false) s = .next { u with sent := .mgtByte (s.mgt.latch.getD s.mgt.pointer 0) :: s.sent,
                                                 mgt := { u.mgt with pointer := (s.mgt.pointer + 1) % 256 } }) ∧
  (∀ s : State, s.powered = true → s.mgt.answers = true → exec .mgtStop s = .next (endTransfer (busIdle s))) ∧
  (∀ s u : State, s.powered = true → s.mgt.answers = true → s.mgt.transfer ≠ .idle → u = busTaken s →
    exec .mgtBusError s = .next (raise (radd (endTransfer u) Reg.MGT_CNT F.MGT_CNT_ERRORS 1) 0x582 0x3FF 0)) ∧
  (∀ s : State, s.powered = true → s.mgt.answers = true → s.mgt.transfer ≠ .idle →
    ticksReach (recorderNow s - s.mgt.lastAt) (1000 * max 1 (rget s Reg.MGT_TIMEOUT F.MGT_TIMEOUT_SDA_MS)) = true →
    exec .mgtSdaTimeout s = .next (raise (radd (endTransfer s) Reg.MGT_CNT F.MGT_CNT_ERRORS 1) 0x580 0x3FF 0)) ∧
  (∀ (n : Fin 16) (w : Word) (s : State), hostMay s →
    exec (.mgtHostbufWrite n w) s = .next (wr s (Reg.MGT_HOSTBUF n) w)) ∧
  (∀ (w : Word) (s u : State), hostMay s → u = rwrite s Reg.MGT_ADDR w → exec (.mgtAddrWrite w) s =
    .next (if rd u Reg.MGT_ADDR = rd s Reg.MGT_ADDR then u
      else recordEvent u 0x1640 0x3FF false (rd u Reg.MGT_ADDR).toNat))) ∧
  ((∀ s : State, s.powered = true → s.mgt.answers = true → ron s Reg.MGT_ATTN F.MGT_ATTN_PENDING = true →
    s.mgt.pulse = none → s.mgt.transfer = .idle → mgtIdle s = true → exec .mgtAttentionPulse s =
      .next { s with mgt := { s.mgt with pulse := some (recorderNow s) }, sent := .mgtSda true :: s.sent }) ∧
  (∀ (s : State) (c : Nat), s.powered = true → s.mgt.answers = true → s.mgt.pulse = some c →
    ticksReach (recorderNow s - c) (max 1 (rget s Reg.MGT_ATTN_CFG F.MGT_ATTN_CFG_WIDTH_US)) = true →
    exec .mgtPulseEnd s = .next (pulseEnd s)) ∧
  (∀ s u v : State, s.mgt.again = false → u = sendOut (busIdle { s with mgt := { s.mgt with pulse := none, again := false } })
      (.mgtSda false) →
    v = rset (rclr u Reg.MGT_ATTN F.MGT_ATTN_PENDING) Reg.MGT_ATTN F.MGT_ATTN_SENT →
    pulseEnd s = recordEvent (rclr v Reg.MGT_ATTN F.MGT_ATTN_BACKOFF) 0x1642 0x3FF false
      (rget v Reg.MGT_ATTN F.MGT_ATTN_CAUSE)) ∧
  (∀ (s u : State) (c : Nat), s.powered = true → s.mgt.answers = true → s.mgt.pulse = some c →
    u = sendOut (busTaken { s with mgt := { s.mgt with pulse := none, again := false } }) (.mgtSda false) →
    exec .mgtPulseAbandon s = .next (raise (radd (rset u Reg.MGT_ATTN F.MGT_ATTN_ABANDONED) Reg.MGT_ATTN
      F.MGT_ATTN_BACKOFF 1) 0x581 0x3FF 0)) ∧
  (∀ (s : State) (t : Nat), s.powered = true → s.mgt.answers = true → t = rget s Reg.MGT_ATTN_CFG F.MGT_ATTN_CFG_REPEAT → t ≠ 0 →
    mgtEnabled s ≠ 0 → ticksReach (recorderNow s - s.mgt.repeatAt) (1000000 * t) = true →
    exec .mgtAttnRepeat s = .next (if ron s Reg.MGT_ATTN F.MGT_ATTN_PENDING then setMgt s { s.mgt with repeatAt := recorderNow s }
      else mgtRequest (setMgt s { s.mgt with repeatAt := recorderNow s }))) ∧
  (∀ (w : Word) (s : State), hostMay s → exec (.mgtAttnGo w) s =
    .next (if fldGet F.MGT_ATTN_GO w = 1 then mgtCause (rwrite s Reg.MGT_ATTN w) 0 else rwrite s Reg.MGT_ATTN w)) ∧
  (∀ s : State, s.powered = true → s.mgt.answers = true → supervisorRuns s = true →
    exec .mgtPageRefresh s = .next (refreshPage s)) ∧
  (∀ s : State, s.powered = true → s.mgt.answers = true → supervisorRuns s = true → exec .supervisionRead s =
    .next (forEach (allDies.filter (fun d => diePresent s d && barUp s d && !barFenced s d)) s (fun s d =>
      if (barAt s d).waits.any (fun w => match w.use with | .watch _ => true | _ => false) then s
      else sendWatch (setBar s d { barAt s d with watch := { (barAt s d).watch with latch := 0, load := 0, gate := 0 } }) d 0))))
end

