-- ==== Sys2Proof/Laws/Commands.lean ====
section
/-! SUPPORT. What the operations that answer a command give under the conditions of Safety.lean. -/

namespace Sys2Proof.Machine
open Sys2Proof Sys2Proof.Safety

theorem onHost_live {s : State} {f : State → State} (h : live s = true) : onHost s f = .next (f s) := by
  simp [onHost, h]

theorem onIsland_powered {s : State} {f : State → State} (h : s.powered = true) : onIsland s f = .next (f s) := by
  simp [onIsland, h]

theorem onBar_may {s : State} {a : Nat} {f : State → State} (h : hostMay s) : onBar s a f = .next (f s) := by
  rw [onBar, onHost_live h.1, if_pos h.2]

theorem onFlt_may {s : State} {a : Nat} {f : State → State} (h : hostMay s) : onFlt s a f = .next (f (endSelftest s)) :=
  onBar_may h

theorem onMgt_answers {s : State} {f : State → State} (h : s.powered = true) (k : s.mgt.answers = true) :
    onMgt s f = .next (f s) := by
  simp [onMgt, h, k]

theorem onDie_here {s : State} {d : Die} {f : State → State} (h : dieHere s d = true) :
    onDie s d f = .next (settleDie s (f s) d) := by
  simp [onDie, h]

theorem onDown_heard {s : State} {d : Die} {ws : List Nat} {mine : List Nat → Bool} {f : State → State}
    (h : heardDown s d ws mine) : onDown s d ws mine f = .next (settleDie s (f (afterDown s d ws)) d) := by
  obtain ⟨h1, h2, h3⟩ := h
  rw [onDown, onDie_here h1]
  simp [h2, h3, afterDown]

theorem onCmd_heard {s : State} {d : Die} {code : Nat} {m : CmdCopy} {f : State → State × Nat}
    (h : heardCmd s d m code) : onCmd s d code m f =
      .next (settleDie s (answered (f (afterDown s d m.words)).1 d m (f (afterDown s d m.words)).2) d) := by
  rw [onCmd, onDown_heard h.1]
  simp [h.2, answered]

theorem onCmd_repeated {s : State} {d : Die} {code r : Nat} {m : CmdCopy} {f : State → State × Nat}
    (h : heardDown s d m.words (isCmd code)) (k : repeatOf (afterDown s d m.words) d m = some r) :
    onCmd s d code m f = .next (settleDie s (answered (afterDown s d m.words) d m r) d) := by
  rw [onCmd, onDown_heard h]
  simp [k, answered]

theorem onTwin_heard {s : State} {d : Die} {ws : List Nat} {type : Nat} {f : State → State}
    (h : heardTwin s d ws type) : onTwin s d ws type f = .next (settleDie s (f (afterTwin s d ws)) d) := by
  obtain ⟨h1, h2, h3⟩ := h
  rw [onTwin, onDie_here h1]
  simp [h2, h3, afterTwin]

theorem onUp_heard {s : State} {d : Die} {ws : List Nat} {type : Nat} {f : State → State}
    (h : heardUp s d ws type) : onUp s d ws type f = .next (f (afterUp s d ws)) := by
  obtain ⟨h1, h2, h3, h4⟩ := h
  rw [onUp, onHost_live h1]
  simp [h2, h3, h4, afterUp]

theorem onStack_heard {s : State} {l : Nat} {ws : List Nat} {type : Nat} {f : State → State}
    (h : heardStack s l ws type) : onStack s l ws type f = .next (f (afterStack s l ws)) := by
  obtain ⟨h1, h2, h3⟩ := h
  rw [onStack, onHost_live h1]
  simp [h2, h3, afterStack]

theorem onDesc_ready {s : State} {d : DescRef} {op : Nat} {bs : List Byte} {f : State → List Byte → State}
    (h : ready s d op bs) : onDesc s d op f = .next (f (markAccepted s d) bs) := by
  obtain ⟨h1, h2, h3, h4, h5⟩ := h
  rw [onDesc, onHost_live h1]
  cases hf : flightAt s d with
  | none => simp [hf] at h3
  | some fl =>
    simp only [hf, Option.map_some, Option.some.injEq] at h3
    subst h3
    simp [accept, h2, hf, h4, h5]

theorem onTally_ready {s : State} {d : DescRef} {op : Nat} {bs : List Byte} {f : State → List Byte → Nat → State}
    (h : ready s d op bs) : onTally s d op f = .next (if tallyFenced (markAccepted s d) then finish (markAccepted s d) d
      stTargetFenced 0 else f (markAccepted s d) bs (par bs 8 0 4)) := by
  rw [onTally, onDesc_ready h]

theorem onFlash_ready {s : State} {d : DescRef} {op : Nat} {bs : List Byte} {f : State → List Byte → State}
    (h : ready s d op bs) (w : ron (markAccepted s d) Reg.BOOT_CTRL F.BOOT_CTRL_FLASH_WR_EN = true)
    (b : flashBusy (markAccepted s d) = false) : onFlash s d op f = .next (f (markAccepted s d) bs) := by
  rw [onFlash, onDesc_ready h]
  simp [w, b]

end Sys2Proof.Machine
end

