-- ==== Sys2Proof/Laws/Maps.lean ====
section
/-! SUPPORT. The laws of sparse maps: every operation keeps the canonical form, and a read gives what was written. -/

namespace Sys2Proof.Machine
open Sys2Proof

theorem mapWfFrom_mono {α} [DecidableEq α] (d : Nat → α) : ∀ (m : SMap α) (a b : Nat), a ≤ b → mapWfFrom d b m = true → mapWfFrom d a m = true
  | [], _, _, _, _ => rfl
  | (j, v) :: m, a, b, h, w => by
    simp only [mapWfFrom, Bool.and_eq_true, decide_eq_true_eq] at w ⊢
    exact ⟨⟨by omega, w.1.2⟩, w.2⟩

theorem mapWfFrom_insert {α} [DecidableEq α] (d : Nat → α) (k : Nat) (v : α) (hv : v ≠ d k) : ∀ (m : SMap α) (lo : Nat),
    lo ≤ k → mapWfFrom d lo m = true → mapWfFrom d lo (mapInsert m k v) = true
  | [], lo, h, _ => by simp [mapInsert, mapWfFrom, h, hv]
  | (j, w) :: m, lo, h, hw => by
    simp only [mapWfFrom, Bool.and_eq_true, decide_eq_true_eq] at hw
    simp only [mapInsert]
    split
    · simp only [mapWfFrom, Bool.and_eq_true, decide_eq_true_eq]
      exact ⟨⟨h, hv⟩, ⟨by omega, hw.1.2⟩, hw.2⟩
    · split
      · subst_vars
        simp only [mapWfFrom, Bool.and_eq_true, decide_eq_true_eq]
        exact ⟨⟨h, hv⟩, hw.2⟩
      · simp only [mapWfFrom, Bool.and_eq_true, decide_eq_true_eq]
        exact ⟨hw.1, mapWfFrom_insert d k v hv m (j + 1) (by omega) hw.2⟩

theorem mapWfFrom_erase {α} [DecidableEq α] (d : Nat → α) (k : Nat) : ∀ (m : SMap α) (lo : Nat),
    mapWfFrom d lo m = true → mapWfFrom d lo (mapErase m k) = true
  | [], lo, _ => rfl
  | (j, w) :: m, lo, hw => by
    simp only [mapErase]
    have hw' := hw
    simp only [mapWfFrom, Bool.and_eq_true, decide_eq_true_eq] at hw'
    split
    · exact hw
    · split
      · exact mapWfFrom_mono d m lo (j + 1) (by omega) hw'.2
      · simp only [mapWfFrom, Bool.and_eq_true, decide_eq_true_eq]
        exact ⟨hw'.1, mapWfFrom_erase d k m (j + 1) hw'.2⟩

theorem mapWf_set {α} [DecidableEq α] {d : Nat → α} {m : SMap α} {k : Nat} {v : α} (h : mapWf d m = true) :
    mapWf d (mapSet d m k v) = true := by
  unfold mapSet; split
  · exact mapWfFrom_erase d k m 0 h
  · exact mapWfFrom_insert d k v ‹_› m 0 (Nat.zero_le _) h

theorem mapWf_erase {α} [DecidableEq α] {d : Nat → α} {m : SMap α} {k : Nat} (h : mapWf d m = true) :
    mapWf d (mapErase m k) = true := mapWfFrom_erase d k m 0 h

theorem mapWfFrom_keep {α} [DecidableEq α] (d : Nat → α) (p : Nat → Bool) : ∀ (m : SMap α) (lo : Nat),
    mapWfFrom d lo m = true → mapWfFrom d lo (mapKeep p m) = true
  | [], _, _ => rfl
  | (j, w) :: m, lo, hw => by
    simp only [mapWfFrom, Bool.and_eq_true, decide_eq_true_eq] at hw
    simp only [mapKeep, List.filter_cons]
    have ih := mapWfFrom_keep d p m
    split
    · simp only [mapWfFrom, Bool.and_eq_true, decide_eq_true_eq]
      exact ⟨hw.1, ih (j + 1) hw.2⟩
    · exact ih lo (mapWfFrom_mono d m lo (j + 1) (by omega) hw.2)

theorem mapWf_keep {α} [DecidableEq α] {d : Nat → α} {m : SMap α} {p : Nat → Bool} (h : mapWf d m = true) :
    mapWf d (mapKeep p m) = true := mapWfFrom_keep d p m 0 h

theorem mapWfFrom_rewrite {α} [DecidableEq α] (d : Nat → α) (f : Nat → α → α) : ∀ (m : SMap α) (lo : Nat),
    mapWfFrom d lo m = true → mapWfFrom d lo (mapRewrite d f m) = true
  | [], _, _ => rfl
  | (j, w) :: m, lo, hw => by
    simp only [mapWfFrom, Bool.and_eq_true, decide_eq_true_eq] at hw
    have ih := mapWfFrom_rewrite d f m
    simp only [mapRewrite, List.filterMap_cons] at ih ⊢
    by_cases h : f j w = d j
    · simp only [h, if_true]
      exact ih lo (mapWfFrom_mono d m lo (j + 1) (by omega) hw.2)
    · simp only [h, if_false, mapWfFrom, Bool.and_eq_true, decide_eq_true_eq]
      exact ⟨⟨hw.1.1, h⟩, ih (j + 1) hw.2⟩

theorem mapWf_rewrite {α} [DecidableEq α] {d : Nat → α} {m : SMap α} {f : Nat → α → α} (h : mapWf d m = true) :
    mapWf d (mapRewrite d f m) = true := mapWfFrom_rewrite d f m 0 h

theorem mapWf_write {β : Type} {d : Nat → Byte} {f : Nat → Nat} (bs : List β) (v : β → Byte) : ∀ (m : SMap Byte) (a : Nat),
    mapWf d m = true → mapWf d (bs.foldl (fun (acc : SMap Byte × Nat) b => (mapSet d acc.1 (f acc.2) (v b), acc.2 + 1)) (m, a)).1 = true := by
  induction bs with
  | nil => exact fun _ _ kept => kept
  | cons b bs ih => exact fun _ _ kept => ih _ _ (mapWf_set kept)

/-- What a map reads at a key that is below every key it lists. -/
theorem mapGet_below {α} [DecidableEq α] {d : Nat → α} : ∀ {m : SMap α} {lo k : Nat}, mapWfFrom d lo m = true → k < lo →
    mapGet d m k = d k
  | [], _, _, _, _ => rfl
  | (j, v) :: m, lo, k, w, h => by
    simp only [mapWfFrom, Bool.and_eq_true, decide_eq_true_eq] at w
    have h1 : k ≠ j := by omega
    have h2 : k < j := by omega
    simp [mapGet, h1, h2]

theorem mapGet_insert {α} (d : Nat → α) (k : Nat) (v : α) (k' : Nat) : ∀ (m : SMap α),
    mapGet d (mapInsert m k v) k' = if k' = k then v else mapGet d m k'
  | [] => by
    simp only [mapInsert, mapGet]
    split
    · rfl
    · split <;> rfl
  | (j, w) :: m => by
    have ih := mapGet_insert d k v k' m
    simp only [mapInsert]
    split
    · simp only [mapGet]
      split
      · rfl
      · split
        · have h1 : k' ≠ j := by omega
          have h2 : k' < j := by omega
          simp [h1, h2]
        · rfl
    · split
      · subst_vars
        simp only [mapGet]
        split <;> rfl
      · simp only [mapGet, ih]
        by_cases h : k' = j
        · have : k' ≠ k := by omega
          simp [h]
          omega
        · by_cases g : k' < j
          · have : k' ≠ k := by omega
            simp [h, g, this]
          · simp [h, g]

theorem mapGet_erase {α} [DecidableEq α] (d : Nat → α) (k : Nat) (k' : Nat) : ∀ (m : SMap α) (lo : Nat),
    mapWfFrom d lo m = true → mapGet d (mapErase m k) k' = if k' = k then d k else mapGet d m k'
  | [], _, _ => by
    simp only [mapErase, mapGet]
    split
    · subst_vars; rfl
    · rfl
  | (j, w) :: m, lo, hw => by
    have hw' := hw
    simp only [mapWfFrom, Bool.and_eq_true, decide_eq_true_eq] at hw'
    have ih := mapGet_erase d k k' m (j + 1) hw'.2
    simp only [mapErase]
    split
    · split
      · subst_vars
        exact mapGet_below (lo := j) (by simp only [mapWfFrom, Bool.and_eq_true, decide_eq_true_eq]; exact ⟨⟨by omega, hw'.1.2⟩, hw'.2⟩) ‹_›
      · rfl
    · split
      · subst_vars
        split
        · subst_vars; exact mapGet_below hw'.2 (by omega)
        · rename_i h
          simp only [mapGet, h, if_false]
          by_cases g : k' < j
          · simp only [g, if_true]; exact mapGet_below hw'.2 (by omega)
          · simp [g]
      · simp only [mapGet, ih]
        by_cases h : k' = j
        · have : k' ≠ k := by omega
          simp [h]
          omega
        · by_cases g : k' < j
          · by_cases e : k' = k
            · subst_vars; simp [h, g]
            · simp [h, g, e]
          · simp [h, g]

/-- Reading a map after a write: the written key gives the value, every other key what it gave. -/
theorem mapGet_set {α} [DecidableEq α] {d : Nat → α} {m : SMap α} {k : Nat} {v : α} (h : mapWf d m = true) (k' : Nat) :
    mapGet d (mapSet d m k v) k' = if k' = k then v else mapGet d m k' := by
  unfold mapSet
  split
  · rename_i e; rw [mapGet_erase d k k' m 0 h, ← e]
  · exact mapGet_insert d k v k' m

theorem mapGet_set_same {α} [DecidableEq α] {d : Nat → α} {m : SMap α} {k : Nat} {v : α} (h : mapWf d m = true) :
    mapGet d (mapSet d m k v) k = v := by rw [mapGet_set h]; simp

theorem mapGet_set_other {α} [DecidableEq α] {d : Nat → α} {m : SMap α} {k k' : Nat} {v : α} (h : mapWf d m = true)
    (n : k' ≠ k) : mapGet d (mapSet d m k v) k' = mapGet d m k' := by rw [mapGet_set h]; simp [n]

end Sys2Proof.Machine
end

