-- ==== Sys2Proof/Laws/MemoryForm.lean ====
section
/-! SUPPORT. What operations keep, under record updates, branches and folds: the canonical form of the memories, and the
place in the grid of blocks. `Keep q` names the two together, so that each operation needs one lemma; OW, PW and QW say it of
an answer, of a pair with the state first and of a pair with the state second. -/

namespace Sys2Proof.Machine
open Sys2Proof

/-- What is to be kept: the canonical form of the memories, and a place in the grid of blocks while no configuration store is
being loaded (its REGS sections may write SYS_BLKCFG and SYS_PIPE). -/
structure Kept where
  mem : Bool
  grid : Option GridState

/-- Only the canonical form of the memories. -/
abbrev memKept : Kept := ⟨true, none⟩

/-- The grid stands at the place to be kept, if there is one, and no store is being loaded. -/
def gridOk (q : Kept) (g : GridState) (load : Option Nat) (settings : List Nat) : Bool :=
  match q.grid with
  | none => true
  | some x => decide (g = x ∧ load = none ∧ settings = [])

/-- What is to be kept, said of the fields it is about. -/
def keepsMaps (q : Kept) (grid : GridState) (load : Option Nat) (settings : List Nat) (regs gsram dram frameMem : SMap Word)
    (flash : SMap Byte) (hostMem : List Host.Cell) (rods : SMap Rod) : Bool :=
  (!q.mem || mapsWf regs gsram dram frameMem flash hostMem rods) && gridOk q grid load settings

/-- A state has what is to be kept. -/
def Keep (q : Kept) (s : State) : Bool :=
  keepsMaps q s.grid s.boot.load s.boot.settings s.regs s.gsram s.dram s.frameMem s.flash s.hostMem s.rods

theorem keep_mem {s : State} : Keep memKept s = Memory.wf s := by
  simp [Keep, keepsMaps, gridOk, Memory.wf]

theorem keep_grid {x : GridState} {s : State} :
    Keep ⟨false, some x⟩ s = true ↔ s.grid = x ∧ s.boot.load = none ∧ s.boot.settings = [] := by
  simp [Keep, keepsMaps, gridOk]

theorem idle_of {m : Bool} {x : GridState} {s : State} (h : Keep ⟨m, some x⟩ s = true) :
    s.grid = x ∧ s.boot.load = none ∧ s.boot.settings = [] := by
  simp only [Keep, keepsMaps, gridOk, Bool.and_eq_true, decide_eq_true_eq] at h
  exact h.2

theorem keeps_of {q : Kept} {s : State} (h : Keep q s = true) :
    keepsMaps q s.grid s.boot.load s.boot.settings s.regs s.gsram s.dram s.frameMem s.flash s.hostMem s.rods = true := h

theorem wf_mk {q : Kept} {variant powered perstLow pcieUp pcie regs time grid loop collector recorder ports gsram dram poison beads chans rx cs tx asrcLive params xps buses hpfs peaks routes fades routeWait taps lines meters meterIndex meterClears rods frameMem banks loads nets posted strRx strTx supplied strClears tallies snap barA barB dieA dieB chmapPrev chmapPlay stk mgt flash boot qps diags turns doorbell pageBad hostMem sent pending free} :
    Keep q (State.mk variant powered perstLow pcieUp pcie regs time grid loop collector recorder ports gsram dram poison beads chans rx cs tx asrcLive params xps buses hpfs peaks routes fades routeWait taps lines meters meterIndex meterClears rods frameMem banks loads nets posted strRx strTx supplied strClears tallies snap barA barB dieA dieB chmapPrev chmapPlay stk mgt flash boot qps diags turns doorbell pageBad hostMem sent pending free) = keepsMaps q grid boot.load boot.settings regs gsram dram frameMem flash hostMem rods := rfl

theorem keeps_iff {q γ l z a b c e f g h} : keepsMaps q γ l z a b c e f g h = true ↔ (q.mem = true → mapWf hostReset a = true ∧
    mapWf (fun _ => 0) b = true ∧ mapWf (fun _ => 0) c = true ∧ mapWf (fun _ => 0) e = true ∧ mapWf flashErased f = true ∧
    mapWf (fun _ => 0) g = true ∧ mapWf rodReset h = true) ∧ gridOk q γ l z = true := by
  simp only [keepsMaps, mapsWf, Bool.and_eq_true, Bool.or_eq_true, Bool.not_eq_true', and_assoc]
  cases q.mem <;> simp

theorem keeps_regs {q γ l z a b c e f g h k v} (w : keepsMaps q γ l z a b c e f g h = true) :
    keepsMaps q γ l z (mapSet hostReset a k v) b c e f g h = true :=
  keeps_iff.2 ⟨fun m => by have := (keeps_iff.1 w).1 m; simp_all only [mapWf_set, and_self], (keeps_iff.1 w).2⟩

theorem keeps_gsram {q γ l z a b c e f g h k v} (w : keepsMaps q γ l z a b c e f g h = true) :
    keepsMaps q γ l z a (mapSet (fun _ => 0) b k v) c e f g h = true :=
  keeps_iff.2 ⟨fun m => by have := (keeps_iff.1 w).1 m; simp_all only [mapWf_set, and_self], (keeps_iff.1 w).2⟩

theorem keeps_dram {q γ l z a b c e f g h k v} (w : keepsMaps q γ l z a b c e f g h = true) :
    keepsMaps q γ l z a b (mapSet (fun _ => 0) c k v) e f g h = true :=
  keeps_iff.2 ⟨fun m => by have := (keeps_iff.1 w).1 m; simp_all only [mapWf_set, and_self], (keeps_iff.1 w).2⟩

theorem keeps_frame {q γ l z a b c e f g h k v} (w : keepsMaps q γ l z a b c e f g h = true) :
    keepsMaps q γ l z a b c (mapSet (fun _ => 0) e k v) f g h = true :=
  keeps_iff.2 ⟨fun m => by have := (keeps_iff.1 w).1 m; simp_all only [mapWf_set, and_self], (keeps_iff.1 w).2⟩

theorem keeps_rods {q γ l z a b c e f g h k v} (w : keepsMaps q γ l z a b c e f g h = true) :
    keepsMaps q γ l z a b c e f g (mapSet rodReset h k v) = true :=
  keeps_iff.2 ⟨fun m => by have := (keeps_iff.1 w).1 m; simp_all only [mapWf_set, and_self], (keeps_iff.1 w).2⟩

theorem keeps_regsKeep {q γ l z a b c e f g h p} (w : keepsMaps q γ l z a b c e f g h = true) :
    keepsMaps q γ l z (mapKeep p a) b c e f g h = true :=
  keeps_iff.2 ⟨fun m => by have := (keeps_iff.1 w).1 m; simp_all only [mapWf_keep, and_self], (keeps_iff.1 w).2⟩

theorem keeps_regsRewrite {q γ l z a b c e f g h p} (w : keepsMaps q γ l z a b c e f g h = true) :
    keepsMaps q γ l z (mapRewrite hostReset p a) b c e f g h = true :=
  keeps_iff.2 ⟨fun m => by have := (keeps_iff.1 w).1 m; simp_all only [mapWf_rewrite, and_self], (keeps_iff.1 w).2⟩

theorem keeps_gsramKeep {q γ l z a b c e f g h p} (w : keepsMaps q γ l z a b c e f g h = true) :
    keepsMaps q γ l z a (mapKeep p b) c e f g h = true :=
  keeps_iff.2 ⟨fun m => by have := (keeps_iff.1 w).1 m; simp_all only [mapWf_keep, and_self], (keeps_iff.1 w).2⟩

theorem keeps_dramKeep {q γ l z a b c e f g h p} (w : keepsMaps q γ l z a b c e f g h = true) :
    keepsMaps q γ l z a b (mapKeep p c) e f g h = true :=
  keeps_iff.2 ⟨fun m => by have := (keeps_iff.1 w).1 m; simp_all only [mapWf_keep, and_self], (keeps_iff.1 w).2⟩

theorem keeps_flashKeep {q γ l z a b c e f g h p} (w : keepsMaps q γ l z a b c e f g h = true) :
    keepsMaps q γ l z a b c e (mapKeep p f) g h = true :=
  keeps_iff.2 ⟨fun m => by have := (keeps_iff.1 w).1 m; simp_all only [mapWf_keep, and_self], (keeps_iff.1 w).2⟩

theorem keeps_move {γ γ' l l' z z' m a b c e f g h} (w : keepsMaps ⟨m, none⟩ γ l z a b c e f g h = true) :
    keepsMaps ⟨m, none⟩ γ' l' z' a b c e f g h = true := w

theorem keeps_host {q γ l z a b c e f g h x} (w : keepsMaps q γ l z a b c e f g h = true) (k : q.mem = true → mapWf (fun _ => 0) x = true) :
    keepsMaps q γ l z a b c e f x h = true :=
  keeps_iff.2 ⟨fun m => by have := (keeps_iff.1 w).1 m; have := k m; simp_all only [and_self], (keeps_iff.1 w).2⟩

theorem keeps_flash {q γ l z a b c e f g h x} (w : keepsMaps q γ l z a b c e f g h = true) (k : q.mem = true → mapWf flashErased x = true) :
    keepsMaps q γ l z a b c e x g h = true :=
  keeps_iff.2 ⟨fun m => by have := (keeps_iff.1 w).1 m; have := k m; simp_all only [and_self], (keeps_iff.1 w).2⟩

theorem wf_cut (p : Prop) {r : Prop} (h : p) (k : p → r) : r := k h
theorem wf_ite {qk : Kept} {c : Prop} [Decidable c] {a b : State} (h : Keep qk a = true) (k : Keep qk b = true) :
    Keep qk (if c then a else b) = true :=
  iteInduction (motive := fun r => Keep qk r = true) (fun _ => h) fun _ => k
theorem wf_forEach {qk : Kept} {α} {l : List α} {s : State} {f : State → α → State}
    (h : ∀ s a, Keep qk s = true → Keep qk (f s a) = true) (hs : Keep qk s = true) : Keep qk (forEach l s f) = true :=
  List.foldlRecOn l f hs fun u hu x _ => h u x hu
theorem wf_foldl {qk : Kept} {α} {l : List α} {s : State} {f : State → α → State}
    (h : ∀ s a, Keep qk s = true → Keep qk (f s a) = true) (hs : Keep qk s = true) : Keep qk (l.foldl f s) = true :=
  List.foldlRecOn l f hs fun u hu x _ => h u x hu
def OW (qk : Kept) (o : Out) : Prop := ∀ t, o = .next t → Keep qk t = true
theorem ow_next {qk : Kept} {s : State} (h : Keep qk s = true) : OW qk (.next s) := fun t e => by injection e with e; exact e ▸ h
theorem ow_ite {qk : Kept} {c : Prop} [Decidable c] {a b : Out} (h : OW qk a) (k : OW qk b) : OW qk (if c then a else b) := iteInduction (fun _ => h) fun _ => k
def PW (qk : Kept) {β : Type} (p : State × β) : Prop := Keep qk p.1 = true
theorem pw_mk {qk : Kept} {β : Type} {s : State} {b : β} (h : Keep qk s = true) : PW qk (s, b) := h
theorem pw_ite {qk : Kept} {β : Type} {c : Prop} [Decidable c] {a b : State × β} (h : PW qk a) (k : PW qk b) : PW qk (if c then a else b) :=
  iteInduction (fun _ => h) fun _ => k
theorem pw_e {qk : Kept} {β : Type} {p : State × β} {t : State} {b : β} (h : PW qk p) (e : p = (t, b)) : Keep qk t = true := by
  subst e; exact h
def QW (qk : Kept) {β : Type} (p : β × State) : Prop := Keep qk p.2 = true
theorem qw_mk {qk : Kept} {β : Type} {s : State} {b : β} (h : Keep qk s = true) : QW qk (b, s) := h
theorem qw_ite {qk : Kept} {β : Type} {c : Prop} [Decidable c] {a b : β × State} (h : QW qk a) (k : QW qk b) : QW qk (if c then a else b) :=
  iteInduction (fun _ => h) fun _ => k
theorem qw_e {qk : Kept} {β : Type} {p : β × State} {t : State} {b : β} (h : QW qk p) (e : p = (b, t)) : Keep qk t = true := by
  subst e; exact h
theorem wf_fst {qk : Kept} {β : Type} {s : State} {b : β} (h : Keep qk s = true) : Keep qk (s, b).1 = true := h
theorem wf_snd {qk : Kept} {β : Type} {s : State} {b : β} (h : Keep qk s = true) : Keep qk (b, s).2 = true := h
theorem wf_foldl1 {qk : Kept} {α β : Type} {l : List α} {p : State × β} {f : State × β → α → State × β}
    (h : ∀ s a, Keep qk s.1 = true → Keep qk (f s a).1 = true) (hs : Keep qk p.1 = true) : Keep qk (l.foldl f p).1 = true :=
  List.foldlRecOn (motive := fun (q : State × β) => Keep qk q.1 = true) l f hs fun q hq x _ => h q x hq
theorem pw_of {qk : Kept} {β : Type} {p : State × β} (h : Keep qk p.1 = true) : PW qk p := h
theorem of_pw {qk : Kept} {β : Type} {p : State × β} (h : PW qk p) : Keep qk p.1 = true := h
theorem of_qw {qk : Kept} {β : Type} {p : β × State} (h : QW qk p) : Keep qk p.2 = true := h
end Sys2Proof.Machine
end

