-- ==== Sys2Proof/Laws/KeepsOps.lean ====
section
/-! SUPPORT. The operations of Machine/Ops.lean keep what `Keep` names. -/

namespace Sys2Proof.Machine
open Sys2Proof
set_option linter.all false
set_option simprocs false

theorem wr_wf {qk : Kept} {s : State} {a : Nat} {w : Word} (h_s : Keep qk s = true) : Keep qk (wr s a w) = true := by
  unfold wr
  repeat' first
    | with_reducible assumption
    | with_reducible intro _
    | simp only [wf_mk]
    | with_reducible apply keeps_of
    | with_reducible apply keeps_regs
    | (extract_lets x; first | (refine wf_cut (Keep qk x = true) ?_ ?_; focus (subst x); rotate_left; focus (intro hx; generalize x = y at hx ⊢)) | skip)

theorem rput_wf {qk : Kept} {s : State} {a : Nat} {f : Fld} {v : Nat} (h_s : Keep qk s = true) : Keep qk (rput s a f v) = true := by
  unfold rput
  repeat' first
    | with_reducible assumption
    | with_reducible intro _
    | with_reducible apply wr_wf
    | simp only [wf_mk]
    | with_reducible apply keeps_of
    | (extract_lets x; first | (refine wf_cut (Keep qk x = true) ?_ ?_; focus (subst x); rotate_left; focus (intro hx; generalize x = y at hx ⊢)) | skip)

theorem rputI_wf {qk : Kept} {s : State} {a : Nat} {f : Fld} {v : Int} (h_s : Keep qk s = true) : Keep qk (rputI s a f v) = true := by
  unfold rputI
  repeat' first
    | with_reducible assumption
    | with_reducible intro _
    | with_reducible apply rput_wf
    | simp only [wf_mk]
    | with_reducible apply keeps_of
    | (extract_lets x; first | (refine wf_cut (Keep qk x = true) ?_ ?_; focus (subst x); rotate_left; focus (intro hx; generalize x = y at hx ⊢)) | skip)

theorem rset_wf {qk : Kept} {s : State} {a : Nat} {f : Fld} (h_s : Keep qk s = true) : Keep qk (rset s a f) = true := by
  unfold rset
  repeat' first
    | with_reducible assumption
    | with_reducible intro _
    | with_reducible apply rput_wf
    | simp only [wf_mk]
    | with_reducible apply keeps_of
    | (extract_lets x; first | (refine wf_cut (Keep qk x = true) ?_ ?_; focus (subst x); rotate_left; focus (intro hx; generalize x = y at hx ⊢)) | skip)

theorem rclr_wf {qk : Kept} {s : State} {a : Nat} {f : Fld} (h_s : Keep qk s = true) : Keep qk (rclr s a f) = true := by
  unfold rclr
  repeat' first
    | with_reducible assumption
    | with_reducible intro _
    | with_reducible apply rput_wf
    | simp only [wf_mk]
    | with_reducible apply keeps_of
    | (extract_lets x; first | (refine wf_cut (Keep qk x = true) ?_ ?_; focus (subst x); rotate_left; focus (intro hx; generalize x = y at hx ⊢)) | skip)

theorem rbit_wf {qk : Kept} {s : State} {a : Nat} {f : Fld} {b : Bool} (h_s : Keep qk s = true) : Keep qk (rbit s a f b) = true := by
  unfold rbit
  repeat' first
    | with_reducible assumption
    | with_reducible intro _
    | with_reducible apply rput_wf
    | simp only [wf_mk]
    | with_reducible apply keeps_of
    | (extract_lets x; first | (refine wf_cut (Keep qk x = true) ?_ ?_; focus (subst x); rotate_left; focus (intro hx; generalize x = y at hx ⊢)) | skip)

theorem radd_wf {qk : Kept} {s : State} {a : Nat} {f : Fld} {n : Nat} (h_s : Keep qk s = true) : Keep qk (radd s a f n) = true := by
  unfold radd
  repeat' first
    | with_reducible assumption
    | with_reducible intro _
    | with_reducible apply rput_wf
    | simp only [wf_mk]
    | with_reducible apply keeps_of
    | (extract_lets x; first | (refine wf_cut (Keep qk x = true) ?_ ?_; focus (subst x); rotate_left; focus (intro hx; generalize x = y at hx ⊢)) | skip)

theorem rwrite_wf {qk : Kept} {s : State} {a : Nat} {w : Word} (h_s : Keep qk s = true) : Keep qk (rwrite s a w) = true := by
  unfold rwrite
  repeat' first
    | with_reducible assumption
    | with_reducible intro _
    | with_reducible apply wr_wf
    | simp only [wf_mk]
    | with_reducible apply keeps_of
    | (extract_lets x; first | (refine wf_cut (Keep qk x = true) ?_ ?_; focus (subst x); rotate_left; focus (intro hx; generalize x = y at hx ⊢)) | skip)
    | split

theorem resetRange_wf {qk : Kept} {s : State} {lo hi : Nat} (h_s : Keep qk s = true) : Keep qk (resetRange s lo hi) = true := by
  unfold resetRange
  repeat' first
    | with_reducible assumption
    | with_reducible intro _
    | simp only [wf_mk]
    | with_reducible apply keeps_of
    | with_reducible apply keeps_regsKeep
    | with_reducible apply keeps_gsramKeep
    | with_reducible apply keeps_dramKeep
    | with_reducible apply keeps_flashKeep
    | (extract_lets x; first | (refine wf_cut (Keep qk x = true) ?_ ?_; focus (subst x); rotate_left; focus (intro hx; generalize x = y at hx ⊢)) | skip)

theorem resetRegs_wf {qk : Kept} {s : State} (h_s : Keep qk s = true) : Keep qk (resetRegs s) = true := by
  unfold resetRegs
  repeat' first
    | with_reducible assumption
    | with_reducible intro _
    | simp only [wf_mk]
    | with_reducible apply keeps_of
    | with_reducible apply keeps_regsRewrite
    | (extract_lets x; first | (refine wf_cut (Keep qk x = true) ?_ ?_; focus (subst x); rotate_left; focus (intro hx; generalize x = y at hx ⊢)) | skip)

theorem takeFree_wf {qk : Kept} {s : State} {w : Nat} (h_s : Keep qk s = true) : QW qk (takeFree s w) := by
  unfold takeFree
  repeat' first
    | with_reducible assumption
    | with_reducible intro _
    | with_reducible apply qw_mk
    | simp only [wf_mk]
    | with_reducible apply keeps_of
    | (extract_lets x; first | (refine wf_cut (Keep qk x = true) ?_ ?_; focus (subst x); rotate_left; focus (intro hx; generalize x = y at hx ⊢)) | skip)
theorem takeFree_e {qk : Kept} {s : State} {w : Nat} {zt : State} {zb} (e : (takeFree s w) = (zb, zt)) (h_s : Keep qk s = true) : Keep qk zt = true := qw_e (takeFree_wf h_s) e
theorem takeFree_p {qk : Kept} {s : State} {w : Nat} (h_s : Keep qk s = true) : Keep qk (takeFree s w).2 = true := takeFree_wf h_s

theorem takeFreeInt_wf {qk : Kept} {s : State} (h_s : Keep qk s = true) : QW qk (takeFreeInt s) := by
  unfold takeFreeInt
  repeat' first
    | with_reducible assumption
    | with_reducible intro _
    | with_reducible apply qw_mk
    | simp only [wf_mk]
    | with_reducible apply keeps_of
    | (extract_lets x; first | (refine wf_cut (Keep qk x = true) ?_ ?_; focus (subst x); rotate_left; focus (intro hx; generalize x = y at hx ⊢)) | skip)
theorem takeFreeInt_e {qk : Kept} {s : State} {zt : State} {zb} (e : (takeFreeInt s) = (zb, zt)) (h_s : Keep qk s = true) : Keep qk zt = true := qw_e (takeFreeInt_wf h_s) e
theorem takeFreeInt_p {qk : Kept} {s : State} (h_s : Keep qk s = true) : Keep qk (takeFreeInt s).2 = true := takeFreeInt_wf h_s

theorem onHost_wf {qk : Kept} {s : State} {f : State → State} (h_s : Keep qk s = true) (h_f : ∀ (a0 : State), Keep qk a0 = true → Keep qk (f a0) = true) : OW qk (onHost s f) := by
  unfold onHost
  repeat' first
    | with_reducible assumption
    | with_reducible intro _
    | with_reducible apply h_f
    | with_reducible apply of_pw
    | with_reducible apply ow_ite
    | with_reducible apply wf_ite
    | with_reducible apply ow_next
    | simp only [wf_mk]
    | with_reducible apply keeps_of
    | (extract_lets x; first | (refine wf_cut (Keep qk x = true) ?_ ?_; focus (subst x); rotate_left; focus (intro hx; generalize x = y at hx ⊢)) | skip)

theorem onIsland_wf {qk : Kept} {s : State} {f : State → State} (h_s : Keep qk s = true) (h_f : ∀ (a0 : State), Keep qk a0 = true → Keep qk (f a0) = true) : OW qk (onIsland s f) := by
  unfold onIsland
  repeat' first
    | with_reducible assumption
    | with_reducible intro _
    | with_reducible apply h_f
    | with_reducible apply of_pw
    | with_reducible apply ow_ite
    | with_reducible apply wf_ite
    | with_reducible apply ow_next
    | simp only [wf_mk]
    | with_reducible apply keeps_of
    | (extract_lets x; first | (refine wf_cut (Keep qk x = true) ?_ ?_; focus (subst x); rotate_left; focus (intro hx; generalize x = y at hx ⊢)) | skip)

theorem sendOut_wf {qk : Kept} {s : State} {m : OutMsg} (h_s : Keep qk s = true) : Keep qk (sendOut s m) = true := by
  unfold sendOut
  repeat' first
    | with_reducible assumption
    | with_reducible intro _
    | simp only [wf_mk]
    | with_reducible apply keeps_of
    | (extract_lets x; first | (refine wf_cut (Keep qk x = true) ?_ ?_; focus (subst x); rotate_left; focus (intro hx; generalize x = y at hx ⊢)) | skip)

theorem hostPut_wf {qk : Kept} {s : State} {addr : Nat} {bs : List Byte} (h_s : Keep qk s = true) :
    Keep qk (hostPut s addr bs) = true :=
  keeps_host h_s (fun m => mapWf_write (f := fun a => a % 2 ^ 64) bs (fun b => b) s.hostMem addr ((keeps_iff.1 h_s).1 m).2.2.2.2.2.1)

theorem hostWrite_wf {qk : Kept} {s : State} {addr : Nat} {bs : List Byte} (h_s : Keep qk s = true) : Keep qk (hostWrite s addr bs) = true := by
  unfold hostWrite
  repeat' first
    | with_reducible assumption
    | with_reducible intro _
    | with_reducible apply hostPut_wf
    | with_reducible apply wf_ite
    | simp only [wf_mk]
    | with_reducible apply keeps_of
    | (extract_lets x; first | (refine wf_cut (Keep qk x = true) ?_ ?_; focus (subst x); rotate_left; focus (intro hx; generalize x = y at hx ⊢)) | skip)

theorem flushWrites_wf {qk : Kept} {s : State} (h_s : Keep qk s = true) : Keep qk (flushWrites s) = true := by
  unfold flushWrites
  repeat' first
    | with_reducible assumption
    | with_reducible intro _
    | with_reducible apply hostPut_wf
    | with_reducible apply wf_foldl
    | with_reducible apply wf_foldl1
    | with_reducible apply wf_ite
    | simp only [wf_mk]
    | with_reducible apply keeps_of
    | (extract_lets x; first | (refine wf_cut (Keep qk x = true) ?_ ?_; focus (subst x); rotate_left; focus (intro hx; generalize x = y at hx ⊢)) | skip)
    | dsimp -zeta only

theorem setQp_wf {qk : Kept} {s : State} {n : Nat} {q : QpState} (h_s : Keep qk s = true) : Keep qk (setQp s n q) = true := by
  unfold setQp
  repeat' first
    | with_reducible assumption
    | with_reducible intro _
    | simp only [wf_mk]
    | with_reducible apply keeps_of
    | (extract_lets x; first | (refine wf_cut (Keep qk x = true) ?_ ?_; focus (subst x); rotate_left; focus (intro hx; generalize x = y at hx ⊢)) | skip)

theorem finish_wf {qk : Kept} {s : State} {d : DescRef} {status result : Nat} (h_s : Keep qk s = true) : Keep qk (finish s d status result) = true := by
  unfold finish
  repeat' first
    | with_reducible assumption
    | with_reducible intro _
    | with_reducible apply setQp_wf
    | with_reducible apply wf_ite
    | simp only [wf_mk]
    | with_reducible apply keeps_of
    | (extract_lets x; first | (refine wf_cut (Keep qk x = true) ?_ ?_; focus (subst x); rotate_left; focus (intro hx; generalize x = y at hx ⊢)) | skip)

theorem finishOpt_wf {qk : Kept} {s : State} {d : Option DescRef} {status result : Nat} (h_s : Keep qk s = true) : Keep qk (finishOpt s d status result) = true := by
  unfold finishOpt
  repeat' first
    | with_reducible assumption
    | with_reducible intro _
    | with_reducible apply finish_wf
    | simp only [wf_mk]
    | with_reducible apply keeps_of
    | (extract_lets x; first | (refine wf_cut (Keep qk x = true) ?_ ?_; focus (subst x); rotate_left; focus (intro hx; generalize x = y at hx ⊢)) | skip)
    | split

theorem msixSignal_wf {qk : Kept} {s : State} {v : Nat} (h_s : Keep qk s = true) : Keep qk (msixSignal s v) = true := by
  unfold msixSignal
  repeat' first
    | with_reducible assumption
    | with_reducible intro _
    | with_reducible apply rput_wf
    | with_reducible apply sendOut_wf
    | with_reducible apply wf_ite
    | simp only [wf_mk]
    | with_reducible apply keeps_of
    | (extract_lets x; first | (refine wf_cut (Keep qk x = true) ?_ ?_; focus (subst x); rotate_left; focus (intro hx; generalize x = y at hx ⊢)) | skip)

theorem msixPending_wf {qk : Kept} {s : State} {v : Nat} (h_s : Keep qk s = true) : Keep qk (msixPending s v) = true := by
  unfold msixPending
  repeat' first
    | with_reducible assumption
    | with_reducible intro _
    | with_reducible apply rput_wf
    | with_reducible apply msixSignal_wf
    | with_reducible apply wf_ite
    | simp only [wf_mk]
    | with_reducible apply keeps_of
    | (extract_lets x; first | (refine wf_cut (Keep qk x = true) ?_ ?_; focus (subst x); rotate_left; focus (intro hx; generalize x = y at hx ⊢)) | skip)

end Sys2Proof.Machine
end

