-- ==== Sys2Proof/Laws/KeepsBarBase.lean ====
section
/-! SUPPORT. The operations of Machine/BarBase.lean keep what `Keep` names. -/

namespace Sys2Proof.Machine
open Sys2Proof
set_option linter.all false
set_option simprocs false

theorem setBar_wf {qk : Kept} {s : State} {d : Die} {b : BarHost} (h_s : Keep qk s = true) : Keep qk (setBar s d b) = true := by
  unfold setBar
  repeat' first
    | with_reducible assumption
    | with_reducible intro _
    | simp only [wf_mk]
    | with_reducible apply keeps_of
    | (extract_lets x; first | (refine wf_cut (Keep qk x = true) ?_ ?_; focus (subst x); rotate_left; focus (intro hx; generalize x = y at hx ⊢)) | skip)
    | split

theorem barEmit_wf {qk : Kept} {s : State} {d : Die} {type argA argB : Nat} {payload : List Nat} (h_s : Keep qk s = true) : PW qk (barEmit s d type argA argB payload) := by
  unfold barEmit
  repeat' first
    | with_reducible assumption
    | with_reducible intro _
    | with_reducible apply sendOut_wf
    | with_reducible apply setBar_wf
    | with_reducible apply pw_ite
    | with_reducible apply wf_ite
    | with_reducible apply pw_mk
    | simp only [wf_mk]
    | with_reducible apply keeps_of
    | (extract_lets x; first | (refine wf_cut (Keep qk x = true) ?_ ?_; focus (subst x); rotate_left; focus (intro hx; generalize x = y at hx ⊢)) | skip)
theorem barEmit_e {qk : Kept} {s : State} {d : Die} {type argA argB : Nat} {payload : List Nat} {zt : State} {zb} (e : (barEmit s d type argA argB payload) = (zt, zb)) (h_s : Keep qk s = true) : Keep qk zt = true := pw_e (barEmit_wf h_s) e
theorem barEmit_p {qk : Kept} {s : State} {d : Die} {type argA argB : Nat} {payload : List Nat} (h_s : Keep qk s = true) : Keep qk (barEmit s d type argA argB payload).1 = true := barEmit_wf h_s

theorem barAsk_wf {qk : Kept} {s : State} {d : Die} {type argA argB : Nat} {payload : List Nat} {use : BarUse} (h_s : Keep qk s = true) : Keep qk (barAsk s d type argA argB payload use) = true := by
  unfold barAsk
  repeat' first
    | with_reducible assumption
    | with_reducible intro _
    | with_reducible apply setBar_wf
    | refine barEmit_e (by with_reducible assumption) ?_
    | with_reducible apply barEmit_p
    | with_reducible apply barEmit_wf
    | simp only [wf_mk]
    | with_reducible apply keeps_of
    | (extract_lets x; first | (refine wf_cut (Keep qk x = true) ?_ ?_; focus (subst x); rotate_left; focus (intro hx; generalize x = y at hx ⊢)) | skip)
    | split

theorem barCmd_wf {qk : Kept} {s : State} {d : Die} {code argB : Nat} {payload : List Nat} {use : BarUse} (h_s : Keep qk s = true) : Keep qk (barCmd s d code argB payload use) = true := by
  unfold barCmd
  repeat' first
    | with_reducible assumption
    | with_reducible intro _
    | with_reducible apply barAsk_wf
    | simp only [wf_mk]
    | with_reducible apply keeps_of
    | (extract_lets x; first | (refine wf_cut (Keep qk x = true) ?_ ?_; focus (subst x); rotate_left; focus (intro hx; generalize x = y at hx ⊢)) | skip)

theorem noReply_wf {qk : Kept} {s : State} {d : Die} {a : Nat} (h_s : Keep qk s = true) : Keep qk (noReply s d a) = true := by
  unfold noReply
  repeat' first
    | with_reducible assumption
    | with_reducible intro _
    | with_reducible apply setBar_wf
    | simp only [wf_mk]
    | with_reducible apply keeps_of
    | (extract_lets x; first | (refine wf_cut (Keep qk x = true) ?_ ?_; focus (subst x); rotate_left; focus (intro hx; generalize x = y at hx ⊢)) | skip)

theorem barRead_wf {qk : Kept} {s : State} {d : Die} {a : Nat} {use : BarUse} (h_s : Keep qk s = true) : Keep qk (barRead s d a use) = true := by
  unfold barRead
  repeat' first
    | with_reducible assumption
    | with_reducible intro _
    | with_reducible apply barCmd_wf
    | with_reducible apply noReply_wf
    | simp only [wf_mk]
    | with_reducible apply keeps_of
    | (extract_lets x; first | (refine wf_cut (Keep qk x = true) ?_ ?_; focus (subst x); rotate_left; focus (intro hx; generalize x = y at hx ⊢)) | skip)

theorem sendWatch_wf {qk : Kept} {s : State} {d : Die} {i : Nat} (h_s : Keep qk s = true) : Keep qk (sendWatch s d i) = true := by
  unfold sendWatch
  repeat' first
    | with_reducible assumption
    | with_reducible intro _
    | with_reducible apply barRead_wf
    | simp only [wf_mk]
    | with_reducible apply keeps_of
    | (extract_lets x; first | (refine wf_cut (Keep qk x = true) ?_ ?_; focus (subst x); rotate_left; focus (intro hx; generalize x = y at hx ⊢)) | skip)

theorem barFence_wf {qk : Kept} {s : State} {d : Die} (h_s : Keep qk s = true) : Keep qk (barFence s d) = true := by
  unfold barFence
  repeat' first
    | with_reducible assumption
    | with_reducible intro _
    | with_reducible apply rset_wf
    | simp only [wf_mk]
    | with_reducible apply keeps_of
    | (extract_lets x; first | (refine wf_cut (Keep qk x = true) ?_ ?_; focus (subst x); rotate_left; focus (intro hx; generalize x = y at hx ⊢)) | skip)

theorem dropDiag_wf {qk : Kept} {s : State} {ref : DescRef} (h_s : Keep qk s = true) : Keep qk (dropDiag s ref) = true := by
  unfold dropDiag
  repeat' first
    | with_reducible assumption
    | with_reducible intro _
    | simp only [wf_mk]
    | with_reducible apply keeps_of
    | (extract_lets x; first | (refine wf_cut (Keep qk x = true) ?_ ?_; focus (subst x); rotate_left; focus (intro hx; generalize x = y at hx ⊢)) | skip)

theorem disownSweep_wf {qk : Kept} {s : State} {d : DescRef} (h_s : Keep qk s = true) : Keep qk (disownSweep s d) = true := by
  unfold disownSweep
  repeat' first
    | with_reducible assumption
    | with_reducible intro _
    | with_reducible apply setBar_wf
    | with_reducible apply wf_forEach
    | with_reducible apply wf_ite
    | simp only [wf_mk]
    | with_reducible apply keeps_of
    | (extract_lets x; first | (refine wf_cut (Keep qk x = true) ?_ ?_; focus (subst x); rotate_left; focus (intro hx; generalize x = y at hx ⊢)) | skip)

theorem waitLost_wf {qk : Kept} {s : State} {w : BarWait} (h_s : Keep qk s = true) : Keep qk (waitLost s w) = true := by
  unfold waitLost
  repeat' first
    | with_reducible assumption
    | with_reducible intro _
    | with_reducible apply finish_wf
    | with_reducible apply dropDiag_wf
    | simp only [wf_mk]
    | with_reducible apply keeps_of
    | (extract_lets x; first | (refine wf_cut (Keep qk x = true) ?_ ?_; focus (subst x); rotate_left; focus (intro hx; generalize x = y at hx ⊢)) | skip)
    | split

theorem barBlockReset_wf {qk : Kept} {s : State} {d : Die} (h_s : Keep qk s = true) : Keep qk (barBlockReset s d) = true := by
  unfold barBlockReset
  repeat' first
    | with_reducible assumption
    | with_reducible intro _
    | with_reducible apply rput_wf
    | with_reducible apply setBar_wf
    | with_reducible apply wf_ite
    | simp only [wf_mk]
    | with_reducible apply keeps_of
    | (extract_lets x; first | (refine wf_cut (Keep qk x = true) ?_ ?_; focus (subst x); rotate_left; focus (intro hx; generalize x = y at hx ⊢)) | skip)

end Sys2Proof.Machine
end

