-- ==== Sys2Proof/Laws/KeepsBeads.lean ====
section
/-! SUPPORT. The operations of Machine/Beads.lean keep what `Keep` names. -/

namespace Sys2Proof.Machine
open Sys2Proof
set_option linter.all false
set_option simprocs false

theorem gsSet_wf {qk : Kept} {s : State} {a : Nat} {w : Word} (h_s : Keep qk s = true) : Keep qk (gsSet s a w) = true := by
  unfold gsSet
  repeat' first
    | with_reducible assumption
    | with_reducible intro _
    | with_reducible apply wf_ite
    | simp only [wf_mk]
    | with_reducible apply keeps_of
    | with_reducible apply keeps_gsram
    | (extract_lets x; first | (refine wf_cut (Keep qk x = true) ?_ ?_; focus (subst x); rotate_left; focus (intro hx; generalize x = y at hx ⊢)) | skip)

theorem drSet_wf {qk : Kept} {s : State} {a : Nat} {w : Word} (h_s : Keep qk s = true) : Keep qk (drSet s a w) = true := by
  unfold drSet
  repeat' first
    | with_reducible assumption
    | with_reducible intro _
    | with_reducible apply wf_ite
    | simp only [wf_mk]
    | with_reducible apply keeps_of
    | with_reducible apply keeps_dram
    | (extract_lets x; first | (refine wf_cut (Keep qk x = true) ?_ ?_; focus (subst x); rotate_left; focus (intro hx; generalize x = y at hx ⊢)) | skip)

theorem drStore_wf {qk : Kept} {s : State} {a : Nat} {w : Word} (h_s : Keep qk s = true) : Keep qk (drStore s a w) = true := by
  unfold drStore
  repeat' first
    | with_reducible assumption
    | with_reducible intro _
    | with_reducible apply drSet_wf
    | simp only [wf_mk]
    | with_reducible apply keeps_of
    | (extract_lets x; first | (refine wf_cut (Keep qk x = true) ?_ ?_; focus (subst x); rotate_left; focus (intro hx; generalize x = y at hx ⊢)) | skip)

theorem drSetByte_wf {qk : Kept} {s : State} {a : Nat} {b : Byte} (h_s : Keep qk s = true) : Keep qk (drSetByte s a b) = true := by
  unfold drSetByte
  repeat' first
    | with_reducible assumption
    | with_reducible intro _
    | with_reducible apply drStore_wf
    | simp only [wf_mk]
    | with_reducible apply keeps_of
    | (extract_lets x; first | (refine wf_cut (Keep qk x = true) ?_ ?_; focus (subst x); rotate_left; focus (intro hx; generalize x = y at hx ⊢)) | skip)

theorem drWriteBytes_wf {qk : Kept} {s : State} {a : Nat} {bs : List Byte} (h_s : Keep qk s = true) : Keep qk (drWriteBytes s a bs) = true := by
  unfold drWriteBytes
  repeat' first
    | with_reducible assumption
    | with_reducible intro _
    | with_reducible apply drSetByte_wf
    | with_reducible apply wf_foldl
    | with_reducible apply wf_foldl1
    | simp only [wf_mk]
    | with_reducible apply keeps_of
    | (extract_lets x; first | (refine wf_cut (Keep qk x = true) ?_ ?_; focus (subst x); rotate_left; focus (intro hx; generalize x = y at hx ⊢)) | skip)
    | dsimp -zeta only
    | split

theorem setBead_wf {qk : Kept} {s : State} {b c : Nat} {i : BeadInfo} (h_s : Keep qk s = true) : Keep qk (setBead s b c i) = true := by
  unfold setBead
  repeat' first
    | with_reducible assumption
    | with_reducible intro _
    | simp only [wf_mk]
    | with_reducible apply keeps_of
    | (extract_lets x; first | (refine wf_cut (Keep qk x = true) ?_ ?_; focus (subst x); rotate_left; focus (intro hx; generalize x = y at hx ⊢)) | skip)

theorem setChan_wf {qk : Kept} {s : State} {c : Nat} {x : ChanState} (h_s : Keep qk s = true) : Keep qk (setChan s c x) = true := by
  unfold setChan
  repeat' first
    | with_reducible assumption
    | with_reducible intro _
    | simp only [wf_mk]
    | with_reducible apply keeps_of
    | (extract_lets x; first | (refine wf_cut (Keep qk x = true) ?_ ?_; focus (subst x); rotate_left; focus (intro hx; generalize x = y at hx ⊢)) | skip)

theorem fabMissing_wf {qk : Kept} {s : State} {cls inst c : Nat} (h_s : Keep qk s = true) : Keep qk (fabMissing s cls inst c) = true := by
  unfold fabMissing
  repeat' first
    | with_reducible assumption
    | with_reducible intro _
    | with_reducible apply setChan_wf
    | with_reducible apply wf_ite
    | simp only [wf_mk]
    | with_reducible apply keeps_of
    | (extract_lets x; first | (refine wf_cut (Keep qk x = true) ?_ ?_; focus (subst x); rotate_left; focus (intro hx; generalize x = y at hx ⊢)) | skip)

theorem setOwner_wf {qk : Kept} {s : State} {c : Nat} {w : Word} (h_s : Keep qk s = true) : Keep qk (setOwner s c w) = true := by
  unfold setOwner
  repeat' first
    | with_reducible assumption
    | with_reducible intro _
    | with_reducible apply wr_wf
    | with_reducible apply setChan_wf
    | with_reducible apply wf_ite
    | simp only [wf_mk]
    | with_reducible apply keeps_of
    | (extract_lets x; first | (refine wf_cut (Keep qk x = true) ?_ ?_; focus (subst x); rotate_left; focus (intro hx; generalize x = y at hx ⊢)) | skip)

end Sys2Proof.Machine
end

