-- ==== Sys2Proof/Laws/KeepsParams.lean ====
section
/-! SUPPORT. The operations of Machine/Params.lean keep what `Keep` names. -/

namespace Sys2Proof.Machine
open Sys2Proof
set_option linter.all false
set_option simprocs false

theorem setPword_wf {qk : Kept} {s : State} {t e w : Nat} {v : Word} (h_s : Keep qk s = true) : Keep qk (setPword s t e w v) = true := by
  unfold setPword
  repeat' first
    | with_reducible assumption
    | with_reducible intro _
    | simp only [wf_mk]
    | with_reducible apply keeps_of
    | (extract_lets x; first | (refine wf_cut (Keep qk x = true) ?_ ?_; focus (subst x); rotate_left; focus (intro hx; generalize x = y at hx ⊢)) | skip)

theorem writePword_wf {qk : Kept} {s : State} {t e w : Nat} {mask data : Word} (h_s : Keep qk s = true) : Keep qk (writePword s t e w mask data) = true := by
  unfold writePword
  repeat' first
    | with_reducible assumption
    | with_reducible intro _
    | with_reducible apply setPword_wf
    | simp only [wf_mk]
    | with_reducible apply keeps_of
    | (extract_lets x; first | (refine wf_cut (Keep qk x = true) ?_ ?_; focus (subst x); rotate_left; focus (intro hx; generalize x = y at hx ⊢)) | skip)

theorem pput_wf {qk : Kept} {s : State} {f : PFld} {e v : Nat} (h_s : Keep qk s = true) : Keep qk (pput s f e v) = true := by
  unfold pput
  repeat' first
    | with_reducible assumption
    | with_reducible intro _
    | with_reducible apply setPword_wf
    | simp only [wf_mk]
    | with_reducible apply keeps_of
    | (extract_lets x; first | (refine wf_cut (Keep qk x = true) ?_ ?_; focus (subst x); rotate_left; focus (intro hx; generalize x = y at hx ⊢)) | skip)

theorem paddWrap_wf {qk : Kept} {s : State} {f : PFld} {e n : Nat} (h_s : Keep qk s = true) : Keep qk (paddWrap s f e n) = true := by
  unfold paddWrap
  repeat' first
    | with_reducible assumption
    | with_reducible intro _
    | with_reducible apply pput_wf
    | simp only [wf_mk]
    | with_reducible apply keeps_of
    | (extract_lets x; first | (refine wf_cut (Keep qk x = true) ?_ ?_; focus (subst x); rotate_left; focus (intro hx; generalize x = y at hx ⊢)) | skip)

theorem paddSat_wf {qk : Kept} {s : State} {f : PFld} {e n : Nat} (h_s : Keep qk s = true) : Keep qk (paddSat s f e n) = true := by
  unfold paddSat
  repeat' first
    | with_reducible assumption
    | with_reducible intro _
    | with_reducible apply pput_wf
    | simp only [wf_mk]
    | with_reducible apply keeps_of
    | (extract_lets x; first | (refine wf_cut (Keep qk x = true) ?_ ?_; focus (subst x); rotate_left; focus (intro hx; generalize x = y at hx ⊢)) | skip)

end Sys2Proof.Machine
end

