-- ==== Sys2Proof/Laws/KeepsMixBase.lean ====
section
/-! SUPPORT. The operations of Machine/MixBase.lean keep what `Keep` names. -/

namespace Sys2Proof.Machine
open Sys2Proof
set_option linter.all false
set_option simprocs false

theorem setMeter_wf {qk : Kept} {s : State} {i : Nat} {m : Meter} (h_s : Keep qk s = true) : Keep qk (setMeter s i m) = true := by
  unfold setMeter
  repeat' first
    | with_reducible assumption
    | with_reducible intro _
    | simp only [wf_mk]
    | with_reducible apply keeps_of
    | (extract_lets x; first | (refine wf_cut (Keep qk x = true) ?_ ?_; focus (subst x); rotate_left; focus (intro hx; generalize x = y at hx ⊢)) | skip)

theorem setRoute_wf {qk : Kept} {s : State} {r : Nat} {x : RouteRun} (h_s : Keep qk s = true) : Keep qk (setRoute s r x) = true := by
  unfold setRoute
  repeat' first
    | with_reducible assumption
    | with_reducible intro _
    | simp only [wf_mk]
    | with_reducible apply keeps_of
    | (extract_lets x; first | (refine wf_cut (Keep qk x = true) ?_ ?_; focus (subst x); rotate_left; focus (intro hx; generalize x = y at hx ⊢)) | skip)

theorem setEngaged_wf {qk : Kept} {s : State} {r : Nat} {b : Bool} (h_s : Keep qk s = true) : Keep qk (setEngaged s r b) = true := by
  unfold setEngaged
  repeat' first
    | with_reducible assumption
    | with_reducible intro _
    | with_reducible apply rbit_wf
    | simp only [wf_mk]
    | with_reducible apply keeps_of
    | (extract_lets x; first | (refine wf_cut (Keep qk x = true) ?_ ?_; focus (subst x); rotate_left; focus (intro hx; generalize x = y at hx ⊢)) | skip)

theorem loseRoute_wf {qk : Kept} {s : State} {r : Nat} (h_s : Keep qk s = true) : Keep qk (loseRoute s r) = true := by
  unfold loseRoute
  repeat' first
    | with_reducible assumption
    | with_reducible intro _
    | with_reducible apply rset_wf
    | with_reducible apply setEngaged_wf
    | with_reducible apply wf_ite
    | simp only [wf_mk]
    | with_reducible apply keeps_of
    | (extract_lets x; first | (refine wf_cut (Keep qk x = true) ?_ ?_; focus (subst x); rotate_left; focus (intro hx; generalize x = y at hx ⊢)) | skip)

theorem routeFence_wf {qk : Kept} {s : State} {r : Nat} (h_s : Keep qk s = true) : Keep qk (routeFence s r) = true := by
  unfold routeFence
  repeat' first
    | with_reducible assumption
    | with_reducible intro _
    | with_reducible apply setRoute_wf
    | with_reducible apply setEngaged_wf
    | simp only [wf_mk]
    | with_reducible apply keeps_of
    | (extract_lets x; first | (refine wf_cut (Keep qk x = true) ?_ ?_; focus (subst x); rotate_left; focus (intro hx; generalize x = y at hx ⊢)) | skip)

theorem routeBlockReset_wf {qk : Kept} {s : State} {r : Nat} (h_s : Keep qk s = true) : Keep qk (routeBlockReset s r) = true := by
  unfold routeBlockReset
  repeat' first
    | with_reducible assumption
    | with_reducible intro _
    | with_reducible apply setRoute_wf
    | with_reducible apply setEngaged_wf
    | simp only [wf_mk]
    | with_reducible apply keeps_of
    | (extract_lets x; first | (refine wf_cut (Keep qk x = true) ?_ ?_; focus (subst x); rotate_left; focus (intro hx; generalize x = y at hx ⊢)) | skip)

theorem busFence_wf {qk : Kept} {s : State} (h_s : Keep qk s = true) : Keep qk (busFence s) = true := by
  unfold busFence
  repeat' first
    | with_reducible assumption
    | with_reducible intro _
    | with_reducible apply rset_wf
    | simp only [wf_mk]
    | with_reducible apply keeps_of
    | (extract_lets x; first | (refine wf_cut (Keep qk x = true) ?_ ?_; focus (subst x); rotate_left; focus (intro hx; generalize x = y at hx ⊢)) | skip)

theorem busBlockReset_wf {qk : Kept} {s : State} (h_s : Keep qk s = true) : Keep qk (busBlockReset s) = true := by
  unfold busBlockReset
  repeat' first
    | with_reducible assumption
    | with_reducible intro _
    | simp only [wf_mk]
    | with_reducible apply keeps_of
    | (extract_lets x; first | (refine wf_cut (Keep qk x = true) ?_ ?_; focus (subst x); rotate_left; focus (intro hx; generalize x = y at hx ⊢)) | skip)
    | dsimp -zeta only

theorem clearLine_wf {qk : Kept} {s : State} {c : Nat} (h_s : Keep qk s = true) : Keep qk (clearLine s c) = true := by
  unfold clearLine
  repeat' first
    | with_reducible assumption
    | with_reducible intro _
    | with_reducible apply rset_wf
    | simp only [wf_mk]
    | with_reducible apply keeps_of
    | with_reducible apply keeps_dram
    | with_reducible apply keeps_regsKeep
    | with_reducible apply keeps_gsramKeep
    | with_reducible apply keeps_dramKeep
    | with_reducible apply keeps_flashKeep
    | (extract_lets x; first | (refine wf_cut (Keep qk x = true) ?_ ?_; focus (subst x); rotate_left; focus (intro hx; generalize x = y at hx ⊢)) | skip)

theorem clearLines_wf {qk : Kept} {s : State} (h_s : Keep qk s = true) : Keep qk (clearLines s) = true := by
  unfold clearLines
  repeat' first
    | with_reducible assumption
    | with_reducible intro _
    | with_reducible apply clearLine_wf
    | with_reducible apply wf_forEach
    | simp only [wf_mk]
    | with_reducible apply keeps_of
    | (extract_lets x; first | (refine wf_cut (Keep qk x = true) ?_ ?_; focus (subst x); rotate_left; focus (intro hx; generalize x = y at hx ⊢)) | skip)

theorem delayFence_wf {qk : Kept} {s : State} (h_s : Keep qk s = true) : Keep qk (delayFence s) = true := by
  unfold delayFence
  repeat' first
    | with_reducible assumption
    | with_reducible intro _
    | with_reducible apply rset_wf
    | simp only [wf_mk]
    | with_reducible apply keeps_of
    | (extract_lets x; first | (refine wf_cut (Keep qk x = true) ?_ ?_; focus (subst x); rotate_left; focus (intro hx; generalize x = y at hx ⊢)) | skip)

theorem delayUnfence_wf {qk : Kept} {s : State} (h_s : Keep qk s = true) : Keep qk (delayUnfence s) = true := by
  unfold delayUnfence
  repeat' first
    | with_reducible assumption
    | with_reducible intro _
    | with_reducible apply rclr_wf
    | with_reducible apply clearLines_wf
    | simp only [wf_mk]
    | with_reducible apply keeps_of
    | (extract_lets x; first | (refine wf_cut (Keep qk x = true) ?_ ?_; focus (subst x); rotate_left; focus (intro hx; generalize x = y at hx ⊢)) | skip)

end Sys2Proof.Machine
end

