-- ==== Sys2Proof/Laws/KeepsCarryOps.lean ====
section
/-! SUPPORT. The operations of Machine/CarryOps.lean keep what `Keep` names. -/

namespace Sys2Proof.Machine
open Sys2Proof
set_option linter.all false
set_option simprocs false

theorem showBank_wf {qk : Kept} {s : State} {b : Bank} (h_s : Keep qk s = true) : Keep qk (showBank s b) = true := by
  unfold showBank
  repeat' first
    | with_reducible assumption
    | with_reducible intro _
    | with_reducible apply rput_wf
    | simp only [wf_mk]
    | with_reducible apply keeps_of
    | (extract_lets x; first | (refine wf_cut (Keep qk x = true) ?_ ?_; focus (subst x); rotate_left; focus (intro hx; generalize x = y at hx ⊢)) | skip)

theorem askField_wf {qk : Kept} {s : State} {d : Die} {kc : Nat} (h_s : Keep qk s = true) : Keep qk (askField s d kc) = true := by
  unfold askField
  repeat' first
    | with_reducible assumption
    | with_reducible intro _
    | with_reducible apply barCmd_wf
    | with_reducible apply wf_ite
    | simp only [wf_mk]
    | with_reducible apply keeps_of
    | (extract_lets x; first | (refine wf_cut (Keep qk x = true) ?_ ?_; focus (subst x); rotate_left; focus (intro hx; generalize x = y at hx ⊢)) | skip)

theorem carryFrom_wf {qk : Kept} {rz : State → Nat → Nat → Nat → State} {old s : State} {cause pos stag : Nat} (h_rz : ∀ (a0 : State) (a1 : Nat) (a2 : Nat) (a3 : Nat), Keep qk a0 = true → Keep qk (rz a0 a1 a2 a3) = true) (h_old : Keep qk old = true) (h_s : Keep qk s = true) : Keep qk (carryFrom rz old s cause pos stag) = true := by
  unfold carryFrom
  repeat' first
    | with_reducible assumption
    | with_reducible intro _
    | with_reducible apply h_rz
    | with_reducible apply of_pw
    | with_reducible apply rset_wf
    | with_reducible apply radd_wf
    | with_reducible apply sendOut_wf
    | with_reducible apply showBank_wf
    | with_reducible apply askField_wf
    | with_reducible apply wf_forEach
    | with_reducible apply wf_ite
    | simp only [wf_mk]
    | with_reducible apply keeps_of
    | (extract_lets x; first | (refine wf_cut (Keep qk x = true) ?_ ?_; focus (subst x); rotate_left; focus (intro hx; generalize x = y at hx ⊢)) | skip)

theorem carryWith_wf {qk : Kept} {rz : State → Nat → Nat → Nat → State} {s : State} {cause pos stag : Nat} (h_rz : ∀ (a0 : State) (a1 : Nat) (a2 : Nat) (a3 : Nat), Keep qk a0 = true → Keep qk (rz a0 a1 a2 a3) = true) (h_s : Keep qk s = true) : Keep qk (carryWith rz s cause pos stag) = true := by
  unfold carryWith
  repeat' first
    | with_reducible assumption
    | with_reducible intro _
    | with_reducible apply h_rz
    | with_reducible apply of_pw
    | with_reducible apply carryFrom_wf
    | simp only [wf_mk]
    | with_reducible apply keeps_of
    | (extract_lets x; first | (refine wf_cut (Keep qk x = true) ?_ ?_; focus (subst x); rotate_left; focus (intro hx; generalize x = y at hx ⊢)) | skip)

theorem fireWith_wf {qk : Kept} {rz : State → Nat → Nat → Nat → State} {s : State} {src stag : Nat} (h_rz : ∀ (a0 : State) (a1 : Nat) (a2 : Nat) (a3 : Nat), Keep qk a0 = true → Keep qk (rz a0 a1 a2 a3) = true) (h_s : Keep qk s = true) : Keep qk (fireWith rz s src stag) = true := by
  unfold fireWith
  repeat' first
    | with_reducible assumption
    | with_reducible intro _
    | with_reducible apply h_rz
    | with_reducible apply of_pw
    | with_reducible apply carryWith_wf
    | with_reducible apply wf_ite
    | simp only [wf_mk]
    | with_reducible apply keeps_of
    | (extract_lets x; first | (refine wf_cut (Keep qk x = true) ?_ ?_; focus (subst x); rotate_left; focus (intro hx; generalize x = y at hx ⊢)) | skip)
    | split

theorem openCycle_wf {qk : Kept} {s : State} {m : Nat} (h_s : Keep qk s = true) : Keep qk (openCycle s m) = true := by
  unfold openCycle
  repeat' first
    | with_reducible assumption
    | with_reducible intro _
    | simp only [wf_mk]
    | with_reducible apply keeps_of
    | (extract_lets x; first | (refine wf_cut (Keep qk x = true) ?_ ?_; focus (subst x); rotate_left; focus (intro hx; generalize x = y at hx ⊢)) | skip)

theorem closeCycle_wf {qk : Kept} {rz : State → Nat → Nat → Nat → State} {old s : State} {stag : Nat} (h_rz : ∀ (a0 : State) (a1 : Nat) (a2 : Nat) (a3 : Nat), Keep qk a0 = true → Keep qk (rz a0 a1 a2 a3) = true) (h_old : Keep qk old = true) (h_s : Keep qk s = true) : Keep qk (closeCycle rz old s stag) = true := by
  unfold closeCycle
  repeat' first
    | with_reducible assumption
    | with_reducible intro _
    | with_reducible apply h_rz
    | with_reducible apply of_pw
    | with_reducible apply carryFrom_wf
    | with_reducible apply wf_ite
    | simp only [wf_mk]
    | with_reducible apply keeps_of
    | (extract_lets x; first | (refine wf_cut (Keep qk x = true) ?_ ?_; focus (subst x); rotate_left; focus (intro hx; generalize x = y at hx ⊢)) | skip)

end Sys2Proof.Machine
end

