-- ==== Sys2Proof/Laws/KeepsMgtBase.lean ====
section
/-! SUPPORT. The operations of Machine/MgtBase.lean keep what `Keep` names. -/

namespace Sys2Proof.Machine
open Sys2Proof
set_option linter.all false
set_option simprocs false

theorem mgtRequest_wf {qk : Kept} {s : State} (h_s : Keep qk s = true) : Keep qk (mgtRequest s) = true := by
  unfold mgtRequest
  repeat' first
    | with_reducible assumption
    | with_reducible intro _
    | with_reducible apply rset_wf
    | with_reducible apply wf_ite
    | simp only [wf_mk]
    | with_reducible apply keeps_of
    | (extract_lets x; first | (refine wf_cut (Keep qk x = true) ?_ ?_; focus (subst x); rotate_left; focus (intro hx; generalize x = y at hx ⊢)) | skip)

theorem mgtCause_wf {qk : Kept} {s : State} {i : Nat} (h_s : Keep qk s = true) : Keep qk (mgtCause s i) = true := by
  unfold mgtCause
  repeat' first
    | with_reducible assumption
    | with_reducible intro _
    | with_reducible apply rput_wf
    | with_reducible apply mgtRequest_wf
    | with_reducible apply wf_ite
    | simp only [wf_mk]
    | with_reducible apply keeps_of
    | (extract_lets x; first | (refine wf_cut (Keep qk x = true) ?_ ?_; focus (subst x); rotate_left; focus (intro hx; generalize x = y at hx ⊢)) | skip)

theorem releaseSda_wf {qk : Kept} {s : State} (h_s : Keep qk s = true) : Keep qk (releaseSda s) = true := by
  unfold releaseSda
  repeat' first
    | with_reducible assumption
    | with_reducible intro _
    | with_reducible apply sendOut_wf
    | with_reducible apply wf_ite
    | simp only [wf_mk]
    | with_reducible apply keeps_of
    | (extract_lets x; first | (refine wf_cut (Keep qk x = true) ?_ ?_; focus (subst x); rotate_left; focus (intro hx; generalize x = y at hx ⊢)) | skip)

theorem mgtBlockReset_wf {qk : Kept} {s : State} (h_s : Keep qk s = true) : Keep qk (mgtBlockReset s) = true := by
  unfold mgtBlockReset
  repeat' first
    | with_reducible assumption
    | with_reducible intro _
    | with_reducible apply rclr_wf
    | with_reducible apply releaseSda_wf
    | with_reducible apply latch_wf
    | simp only [wf_mk]
    | with_reducible apply keeps_of
    | (extract_lets x; first | (refine wf_cut (Keep qk x = true) ?_ ?_; focus (subst x); rotate_left; focus (intro hx; generalize x = y at hx ⊢)) | skip)

end Sys2Proof.Machine
end

