-- ==== Sys2Proof/Laws/KeepsRecorder.lean ====
section
/-! SUPPORT. The operations of Machine/Recorder.lean keep what `Keep` names. -/

namespace Sys2Proof.Machine
open Sys2Proof
set_option linter.all false
set_option simprocs false

theorem setBucket_wf {qk : Kept} {s : State} {code : Nat} {b : Bucket} (h_s : Keep qk s = true) : Keep qk (setBucket s code b) = true := by
  unfold setBucket
  repeat' first
    | with_reducible assumption
    | with_reducible intro _
    | simp only [wf_mk]
    | with_reducible apply keeps_of
    | (extract_lets x; first | (refine wf_cut (Keep qk x = true) ?_ ?_; focus (subst x); rotate_left; focus (intro hx; generalize x = y at hx ⊢)) | skip)

theorem setBacklog_wf {qk : Kept} {s : State} (h_s : Keep qk s = true) : Keep qk (setBacklog s) = true := by
  unfold setBacklog
  repeat' first
    | with_reducible assumption
    | with_reducible intro _
    | with_reducible apply rbit_wf
    | simp only [wf_mk]
    | with_reducible apply keeps_of
    | (extract_lets x; first | (refine wf_cut (Keep qk x = true) ?_ ?_; focus (subst x); rotate_left; focus (intro hx; generalize x = y at hx ⊢)) | skip)

theorem dropFull_wf {qk : Kept} {s : State} {n : Nat} (h_s : Keep qk s = true) : Keep qk (dropFull s n) = true := by
  unfold dropFull
  repeat' first
    | with_reducible assumption
    | with_reducible intro _
    | with_reducible apply radd_wf
    | simp only [wf_mk]
    | with_reducible apply keeps_of
    | (extract_lets x; first | (refine wf_cut (Keep qk x = true) ?_ ?_; focus (subst x); rotate_left; focus (intro hx; generalize x = y at hx ⊢)) | skip)

theorem enterBuffer_wf {qk : Kept} {s : State} {r : EvRec} (h_s : Keep qk s = true) : PW qk (enterBuffer s r) := by
  unfold enterBuffer
  repeat' first
    | with_reducible assumption
    | with_reducible intro _
    | with_reducible apply rput_wf
    | with_reducible apply rset_wf
    | with_reducible apply radd_wf
    | with_reducible apply setBacklog_wf
    | with_reducible apply dropFull_wf
    | with_reducible apply pw_ite
    | with_reducible apply wf_ite
    | with_reducible apply pw_mk
    | simp only [wf_mk]
    | with_reducible apply keeps_of
    | (extract_lets x; first | (refine wf_cut (Keep qk x = true) ?_ ?_; focus (subst x); rotate_left; focus (intro hx; generalize x = y at hx ⊢)) | skip)
theorem enterBuffer_e {qk : Kept} {s : State} {r : EvRec} {zt : State} {zb} (e : (enterBuffer s r) = (zt, zb)) (h_s : Keep qk s = true) : Keep qk zt = true := pw_e (enterBuffer_wf h_s) e
theorem enterBuffer_p {qk : Kept} {s : State} {r : EvRec} (h_s : Keep qk s = true) : Keep qk (enterBuffer s r).1 = true := enterBuffer_wf h_s

theorem offer_wf {qk : Kept} {s : State} {code inst : Nat} {forced : Bool} {datum : Nat} (h_s : Keep qk s = true) : PW qk (offer s code inst forced datum) := by
  unfold offer
  repeat' first
    | with_reducible assumption
    | with_reducible intro _
    | with_reducible apply radd_wf
    | with_reducible apply setBucket_wf
    | refine enterBuffer_e (by with_reducible assumption) ?_
    | with_reducible apply enterBuffer_p
    | with_reducible apply enterBuffer_wf
    | with_reducible apply pw_ite
    | with_reducible apply wf_ite
    | with_reducible apply pw_mk
    | simp only [wf_mk]
    | with_reducible apply keeps_of
    | (extract_lets x; first | (refine wf_cut (Keep qk x = true) ?_ ?_; focus (subst x); rotate_left; focus (intro hx; generalize x = y at hx ⊢)) | skip)
    | split
theorem offer_e {qk : Kept} {s : State} {code inst : Nat} {forced : Bool} {datum : Nat} {zt : State} {zb} (e : (offer s code inst forced datum) = (zt, zb)) (h_s : Keep qk s = true) : Keep qk zt = true := pw_e (offer_wf h_s) e
theorem offer_p {qk : Kept} {s : State} {code inst : Nat} {forced : Bool} {datum : Nat} (h_s : Keep qk s = true) : Keep qk (offer s code inst forced datum).1 = true := offer_wf h_s

theorem refreshFaultN_wf {qk : Kept} {s : State} (h_s : Keep qk s = true) : Keep qk (refreshFaultN s) = true := by
  unfold refreshFaultN
  repeat' first
    | with_reducible assumption
    | with_reducible intro _
    | with_reducible apply rbit_wf
    | simp only [wf_mk]
    | with_reducible apply keeps_of
    | (extract_lets x; first | (refine wf_cut (Keep qk x = true) ?_ ?_; focus (subst x); rotate_left; focus (intro hx; generalize x = y at hx ⊢)) | skip)

theorem driveFaultN_wf {qk : Kept} {s : State} (h_s : Keep qk s = true) : Keep qk (driveFaultN s) = true := by
  unfold driveFaultN
  repeat' first
    | with_reducible assumption
    | with_reducible intro _
    | with_reducible apply mgtCause_wf
    | with_reducible apply wf_ite
    | simp only [wf_mk]
    | with_reducible apply keeps_of
    | (extract_lets x; first | (refine wf_cut (Keep qk x = true) ?_ ?_; focus (subst x); rotate_left; focus (intro hx; generalize x = y at hx ⊢)) | skip)

theorem faultInt_wf {qk : Kept} {s : State} (h_s : Keep qk s = true) : Keep qk (faultInt s) = true := by
  unfold faultInt
  repeat' first
    | with_reducible assumption
    | with_reducible intro _
    | with_reducible apply msixSignal_wf
    | with_reducible apply wf_ite
    | simp only [wf_mk]
    | with_reducible apply keeps_of
    | (extract_lets x; first | (refine wf_cut (Keep qk x = true) ?_ ?_; focus (subst x); rotate_left; focus (intro hx; generalize x = y at hx ⊢)) | skip)

theorem latchPlain_wf {qk : Kept} {s : State} {id : Nat} {forced : Bool} (h_s : Keep qk s = true) : Keep qk (latchPlain s id forced) = true := by
  unfold latchPlain
  repeat' first
    | with_reducible assumption
    | with_reducible intro _
    | with_reducible apply rput_wf
    | with_reducible apply rset_wf
    | with_reducible apply rbit_wf
    | with_reducible apply radd_wf
    | with_reducible apply driveFaultN_wf
    | with_reducible apply faultInt_wf
    | with_reducible apply wf_ite
    | simp only [wf_mk]
    | with_reducible apply keeps_of
    | (extract_lets x; first | (refine wf_cut (Keep qk x = true) ?_ ?_; focus (subst x); rotate_left; focus (intro hx; generalize x = y at hx ⊢)) | skip)

theorem storeEvent_wf {qk : Kept} {s : State} {code inst : Nat} {forced : Bool} {datum : Nat} (h_s : Keep qk s = true) : Keep qk (storeEvent s code inst forced datum) = true := by
  unfold storeEvent
  repeat' first
    | with_reducible assumption
    | with_reducible intro _
    | refine offer_e (by with_reducible assumption) ?_
    | with_reducible apply offer_p
    | with_reducible apply offer_wf
    | with_reducible apply refreshFaultN_wf
    | with_reducible apply latchPlain_wf
    | with_reducible apply wf_ite
    | simp only [wf_mk]
    | with_reducible apply keeps_of
    | (extract_lets x; first | (refine wf_cut (Keep qk x = true) ?_ ?_; focus (subst x); rotate_left; focus (intro hx; generalize x = y at hx ⊢)) | skip)
    | dsimp -zeta only
    | split

theorem hold_wf {qk : Kept} {s : State} {e : HeldEvent} (h_s : Keep qk s = true) : Keep qk (hold s e) = true := by
  unfold hold
  repeat' first
    | with_reducible assumption
    | with_reducible intro _
    | simp only [wf_mk]
    | with_reducible apply keeps_of
    | (extract_lets x; first | (refine wf_cut (Keep qk x = true) ?_ ?_; focus (subst x); rotate_left; focus (intro hx; generalize x = y at hx ⊢)) | skip)

theorem recordEvent_wf {qk : Kept} {s : State} {code inst : Nat} {forced : Bool} {datum : Nat} (h_s : Keep qk s = true) : Keep qk (recordEvent s code inst forced datum) = true := by
  unfold recordEvent
  repeat' first
    | with_reducible assumption
    | with_reducible intro _
    | with_reducible apply storeEvent_wf
    | with_reducible apply hold_wf
    | simp only [wf_mk]
    | with_reducible apply keeps_of
    | (extract_lets x; first | (refine wf_cut (Keep qk x = true) ?_ ?_; focus (subst x); rotate_left; focus (intro hx; generalize x = y at hx ⊢)) | skip)
    | split

theorem selfTrip_wf {qk : Kept} {s : State} {forced : Bool} (h_s : Keep qk s = true) : Keep qk (selfTrip s forced) = true := by
  unfold selfTrip
  repeat' first
    | with_reducible assumption
    | with_reducible intro _
    | with_reducible apply rset_wf
    | with_reducible apply sendOut_wf
    | with_reducible apply refreshFaultN_wf
    | with_reducible apply driveFaultN_wf
    | with_reducible apply latchPlain_wf
    | with_reducible apply storeEvent_wf
    | with_reducible apply wf_foldl
    | with_reducible apply wf_foldl1
    | with_reducible apply wf_ite
    | simp only [wf_mk]
    | with_reducible apply keeps_of
    | (extract_lets x; first | (refine wf_cut (Keep qk x = true) ?_ ?_; focus (subst x); rotate_left; focus (intro hx; generalize x = y at hx ⊢)) | skip)
    | dsimp -zeta only

theorem setFlips_wf {qk : Kept} {s : State} {k v : Nat} (h_s : Keep qk s = true) : Keep qk (setFlips s k v) = true := by
  unfold setFlips
  repeat' first
    | with_reducible assumption
    | with_reducible intro _
    | simp only [wf_mk]
    | with_reducible apply keeps_of
    | (extract_lets x; first | (refine wf_cut (Keep qk x = true) ?_ ?_; focus (subst x); rotate_left; focus (intro hx; generalize x = y at hx ⊢)) | skip)

theorem compareWord_wf {qk : Kept} {s : State} {k : Nat} (h_s : Keep qk s = true) : Keep qk (compareWord s k) = true := by
  unfold compareWord
  repeat' first
    | with_reducible assumption
    | with_reducible intro _
    | with_reducible apply selfTrip_wf
    | with_reducible apply wf_ite
    | simp only [wf_mk]
    | with_reducible apply keeps_of
    | (extract_lets x; first | (refine wf_cut (Keep qk x = true) ?_ ?_; focus (subst x); rotate_left; focus (intro hx; generalize x = y at hx ⊢)) | skip)

theorem compareCtrl_wf {qk : Kept} {s : State} (h_s : Keep qk s = true) : Keep qk (compareCtrl s) = true := by
  unfold compareCtrl
  repeat' first
    | with_reducible assumption
    | with_reducible intro _
    | with_reducible apply compareWord_wf
    | simp only [wf_mk]
    | with_reducible apply keeps_of
    | (extract_lets x; first | (refine wf_cut (Keep qk x = true) ?_ ?_; focus (subst x); rotate_left; focus (intro hx; generalize x = y at hx ⊢)) | skip)

theorem compareAll_wf {qk : Kept} {s : State} (h_s : Keep qk s = true) : Keep qk (compareAll s) = true := by
  unfold compareAll
  repeat' first
    | with_reducible assumption
    | with_reducible intro _
    | with_reducible apply selfTrip_wf
    | with_reducible apply wf_ite
    | simp only [wf_mk]
    | with_reducible apply keeps_of
    | (extract_lets x; first | (refine wf_cut (Keep qk x = true) ?_ ?_; focus (subst x); rotate_left; focus (intro hx; generalize x = y at hx ⊢)) | skip)

theorem latch_wf {qk : Kept} {s : State} {id inst datum : Nat} {forced : Bool} (h_s : Keep qk s = true) : Keep qk (latch s id inst datum forced) = true := by
  unfold latch
  repeat' first
    | with_reducible assumption
    | with_reducible intro _
    | with_reducible apply rset_wf
    | with_reducible apply refreshFaultN_wf
    | with_reducible apply latchPlain_wf
    | with_reducible apply storeEvent_wf
    | with_reducible apply compareCtrl_wf
    | with_reducible apply wf_ite
    | simp only [wf_mk]
    | with_reducible apply keeps_of
    | (extract_lets x; first | (refine wf_cut (Keep qk x = true) ?_ ?_; focus (subst x); rotate_left; focus (intro hx; generalize x = y at hx ⊢)) | skip)

end Sys2Proof.Machine
end

