-- ==== Sys2Proof/Laws/KeepsDescriptors.lean ====
section
/-! SUPPORT. The operations of Machine/Descriptors.lean keep what `Keep` names. -/

namespace Sys2Proof.Machine
open Sys2Proof
set_option linter.all false
set_option simprocs false

theorem takeTurn_wf {qk : Kept} {s : State} {n : Nat} (h_s : Keep qk s = true) : Keep qk (takeTurn s n) = true := by
  unfold takeTurn
  repeat' first
    | with_reducible assumption
    | with_reducible intro _
    | with_reducible apply setQp_wf
    | simp only [wf_mk]
    | with_reducible apply keeps_of
    | (extract_lets x; first | (refine wf_cut (Keep qk x = true) ?_ ?_; focus (subst x); rotate_left; focus (intro hx; generalize x = y at hx ⊢)) | skip)
    | split

theorem markAccepted_wf {qk : Kept} {s : State} {d : DescRef} (h_s : Keep qk s = true) : Keep qk (markAccepted s d) = true := by
  unfold markAccepted
  repeat' first
    | with_reducible assumption
    | with_reducible intro _
    | with_reducible apply setQp_wf
    | with_reducible apply takeTurn_wf
    | with_reducible apply wf_ite
    | simp only [wf_mk]
    | with_reducible apply keeps_of
    | (extract_lets x; first | (refine wf_cut (Keep qk x = true) ?_ ?_; focus (subst x); rotate_left; focus (intro hx; generalize x = y at hx ⊢)) | skip)

theorem accept_wf {qk : Kept} {s : State} {d : DescRef} {op : Nat} {f : State → List Byte → State} (h_s : Keep qk s = true) (h_f : ∀ (a0 : State) (a1 : List Byte), Keep qk a0 = true → Keep qk (f a0 a1) = true) : Keep qk (accept s d op f) = true := by
  unfold accept
  repeat' first
    | with_reducible assumption
    | with_reducible intro _
    | with_reducible apply h_f
    | with_reducible apply of_pw
    | with_reducible apply finish_wf
    | with_reducible apply markAccepted_wf
    | with_reducible apply wf_ite
    | simp only [wf_mk]
    | with_reducible apply keeps_of
    | (extract_lets x; first | (refine wf_cut (Keep qk x = true) ?_ ?_; focus (subst x); rotate_left; focus (intro hx; generalize x = y at hx ⊢)) | skip)
    | split

theorem onDesc_wf {qk : Kept} {s : State} {d : DescRef} {op : Nat} {f : State → List Byte → State} (h_s : Keep qk s = true) (h_f : ∀ (a0 : State) (a1 : List Byte), Keep qk a0 = true → Keep qk (f a0 a1) = true) : OW qk (onDesc s d op f) := by
  unfold onDesc
  repeat' first
    | with_reducible assumption
    | with_reducible intro _
    | with_reducible apply h_f
    | with_reducible apply of_pw
    | with_reducible apply onHost_wf
    | with_reducible apply accept_wf
    | with_reducible apply ow_next
    | simp only [wf_mk]
    | with_reducible apply keeps_of
    | (extract_lets x; first | (refine wf_cut (Keep qk x = true) ?_ ?_; focus (subst x); rotate_left; focus (intro hx; generalize x = y at hx ⊢)) | skip)

end Sys2Proof.Machine
end

