-- ==== Sys2Proof/Laws/KeepsNetBase.lean ====
section
/-! SUPPORT. The operations of Machine/NetBase.lean keep what `Keep` names. -/

namespace Sys2Proof.Machine
open Sys2Proof
set_option linter.all false
set_option simprocs false

theorem setNet_wf {qk : Kept} {s : State} {p : Nat} {x : NetPort} (h_s : Keep qk s = true) : Keep qk (setNet s p x) = true := by
  unfold setNet
  repeat' first
    | with_reducible assumption
    | with_reducible intro _
    | simp only [wf_mk]
    | with_reducible apply keeps_of
    | (extract_lets x; first | (refine wf_cut (Keep qk x = true) ?_ ?_; focus (subst x); rotate_left; focus (intro hx; generalize x = y at hx ⊢)) | skip)

theorem setQueue_wf {qk : Kept} {s : State} {p q : Nat} {fs : List TxFrame} (h_s : Keep qk s = true) : Keep qk (setQueue s p q fs) = true := by
  unfold setQueue
  repeat' first
    | with_reducible assumption
    | with_reducible intro _
    | with_reducible apply setNet_wf
    | simp only [wf_mk]
    | with_reducible apply keeps_of
    | (extract_lets x; first | (refine wf_cut (Keep qk x = true) ?_ ?_; focus (subst x); rotate_left; focus (intro hx; generalize x = y at hx ⊢)) | skip)

theorem updateCredits_wf {qk : Kept} {s : State} {p : Nat} (h_s : Keep qk s = true) : Keep qk (updateCredits s p) = true := by
  unfold updateCredits
  repeat' first
    | with_reducible assumption
    | with_reducible intro _
    | with_reducible apply setNet_wf
    | with_reducible apply wf_foldl
    | with_reducible apply wf_foldl1
    | with_reducible apply wf_ite
    | simp only [wf_mk]
    | with_reducible apply keeps_of
    | (extract_lets x; first | (refine wf_cut (Keep qk x = true) ?_ ?_; focus (subst x); rotate_left; focus (intro hx; generalize x = y at hx ⊢)) | skip)
    | dsimp -zeta only

theorem settleCredits_wf {qk : Kept} {s : State} (h_s : Keep qk s = true) : Keep qk (settleCredits s) = true := by
  unfold settleCredits
  repeat' first
    | with_reducible assumption
    | with_reducible intro _
    | with_reducible apply updateCredits_wf
    | with_reducible apply wf_forEach
    | simp only [wf_mk]
    | with_reducible apply keeps_of
    | (extract_lets x; first | (refine wf_cut (Keep qk x = true) ?_ ?_; focus (subst x); rotate_left; focus (intro hx; generalize x = y at hx ⊢)) | skip)

theorem endNetTx_wf {qk : Kept} {s : State} {p : Nat} {d : DescRef} {status sentSegs : Nat} (h_s : Keep qk s = true) : Keep qk (endNetTx s p d status sentSegs) = true := by
  unfold endNetTx
  repeat' first
    | with_reducible assumption
    | with_reducible intro _
    | with_reducible apply finish_wf
    | with_reducible apply setQueue_wf
    | with_reducible apply updateCredits_wf
    | with_reducible apply wf_forEach
    | simp only [wf_mk]
    | with_reducible apply keeps_of
    | (extract_lets x; first | (refine wf_cut (Keep qk x = true) ?_ ?_; focus (subst x); rotate_left; focus (intro hx; generalize x = y at hx ⊢)) | skip)
    | split

theorem strEvent_wf {qk : Kept} {s : State} {stream event : Nat} (h_s : Keep qk s = true) : Keep qk (strEvent s stream event) = true := by
  unfold strEvent
  repeat' first
    | with_reducible assumption
    | with_reducible intro _
    | with_reducible apply rput_wf
    | with_reducible apply rset_wf
    | simp only [wf_mk]
    | with_reducible apply keeps_of
    | (extract_lets x; first | (refine wf_cut (Keep qk x = true) ?_ ?_; focus (subst x); rotate_left; focus (intro hx; generalize x = y at hx ⊢)) | skip)

theorem strTxDropWith_wf {qk : Kept} {rz : State → Nat → Nat → Nat → State} {s : State} {t : Nat} (h_rz : ∀ (a0 : State) (a1 : Nat) (a2 : Nat) (a3 : Nat), Keep qk a0 = true → Keep qk (rz a0 a1 a2 a3) = true) (h_s : Keep qk s = true) : Keep qk (strTxDropWith rz s t) = true := by
  unfold strTxDropWith
  repeat' first
    | with_reducible assumption
    | with_reducible intro _
    | with_reducible apply h_rz
    | with_reducible apply of_pw
    | with_reducible apply rset_wf
    | with_reducible apply strEvent_wf
    | simp only [wf_mk]
    | with_reducible apply keeps_of
    | (extract_lets x; first | (refine wf_cut (Keep qk x = true) ?_ ?_; focus (subst x); rotate_left; focus (intro hx; generalize x = y at hx ⊢)) | skip)

theorem netFlushWith_wf {qk : Kept} {rz : State → Nat → Nat → Nat → State} {s : State} {p : Nat} (h_rz : ∀ (a0 : State) (a1 : Nat) (a2 : Nat) (a3 : Nat), Keep qk a0 = true → Keep qk (rz a0 a1 a2 a3) = true) (h_s : Keep qk s = true) : Keep qk (netFlushWith rz s p) = true := by
  unfold netFlushWith
  repeat' first
    | with_reducible assumption
    | with_reducible intro _
    | with_reducible apply h_rz
    | with_reducible apply of_pw
    | with_reducible apply finish_wf
    | with_reducible apply setNet_wf
    | with_reducible apply updateCredits_wf
    | with_reducible apply strTxDropWith_wf
    | with_reducible apply wf_forEach
    | simp only [wf_mk]
    | with_reducible apply keeps_of
    | (extract_lets x; first | (refine wf_cut (Keep qk x = true) ?_ ?_; focus (subst x); rotate_left; focus (intro hx; generalize x = y at hx ⊢)) | skip)
    | split

theorem setStrRx_wf {qk : Kept} {s : State} {r : Nat} {x : StrRx} (h_s : Keep qk s = true) : Keep qk (setStrRx s r x) = true := by
  unfold setStrRx
  repeat' first
    | with_reducible assumption
    | with_reducible intro _
    | simp only [wf_mk]
    | with_reducible apply keeps_of
    | (extract_lets x; first | (refine wf_cut (Keep qk x = true) ?_ ?_; focus (subst x); rotate_left; focus (intro hx; generalize x = y at hx ⊢)) | skip)

theorem pathDown_wf {qk : Kept} {s : State} {r : Nat} {b : Bool} (h_s : Keep qk s = true) : Keep qk (pathDown s r b) = true := by
  unfold pathDown
  repeat' first
    | with_reducible assumption
    | with_reducible intro _
    | with_reducible apply pput_wf
    | with_reducible apply strEvent_wf
    | with_reducible apply wf_ite
    | simp only [wf_mk]
    | with_reducible apply keeps_of
    | (extract_lets x; first | (refine wf_cut (Keep qk x = true) ?_ ?_; focus (subst x); rotate_left; focus (intro hx; generalize x = y at hx ⊢)) | skip)

theorem linkClearWith_wf {qk : Kept} {rz : State → Nat → Nat → Nat → State} {s : State} {p : Nat} (h_rz : ∀ (a0 : State) (a1 : Nat) (a2 : Nat) (a3 : Nat), Keep qk a0 = true → Keep qk (rz a0 a1 a2 a3) = true) (h_s : Keep qk s = true) : Keep qk (linkClearWith rz s p) = true := by
  unfold linkClearWith
  repeat' first
    | with_reducible assumption
    | with_reducible intro _
    | with_reducible apply h_rz
    | with_reducible apply of_pw
    | with_reducible apply rset_wf
    | with_reducible apply rclr_wf
    | with_reducible apply netFlushWith_wf
    | with_reducible apply pathDown_wf
    | with_reducible apply wf_forEach
    | with_reducible apply wf_ite
    | simp only [wf_mk]
    | with_reducible apply keeps_of
    | (extract_lets x; first | (refine wf_cut (Keep qk x = true) ?_ ?_; focus (subst x); rotate_left; focus (intro hx; generalize x = y at hx ⊢)) | skip)
    | dsimp -zeta only

theorem linkDownWith_wf {qk : Kept} {rz : State → Nat → Nat → Nat → State} {s : State} {p : Nat} (h_rz : ∀ (a0 : State) (a1 : Nat) (a2 : Nat) (a3 : Nat), Keep qk a0 = true → Keep qk (rz a0 a1 a2 a3) = true) (h_s : Keep qk s = true) : Keep qk (linkDownWith rz s p) = true := by
  unfold linkDownWith
  repeat' first
    | with_reducible assumption
    | with_reducible intro _
    | with_reducible apply h_rz
    | with_reducible apply of_pw
    | with_reducible apply linkClearWith_wf
    | with_reducible apply wf_ite
    | simp only [wf_mk]
    | with_reducible apply keeps_of
    | (extract_lets x; first | (refine wf_cut (Keep qk x = true) ?_ ?_; focus (subst x); rotate_left; focus (intro hx; generalize x = y at hx ⊢)) | skip)

theorem netFence_wf {qk : Kept} {s : State} {p : Nat} (h_s : Keep qk s = true) : Keep qk (netFence s p) = true := by
  unfold netFence
  repeat' first
    | with_reducible assumption
    | with_reducible intro _
    | with_reducible apply rset_wf
    | simp only [wf_mk]
    | with_reducible apply keeps_of
    | (extract_lets x; first | (refine wf_cut (Keep qk x = true) ?_ ?_; focus (subst x); rotate_left; focus (intro hx; generalize x = y at hx ⊢)) | skip)

theorem netBlockReset_wf {qk : Kept} {rz : State → Nat → Nat → Nat → State} {s : State} {p : Nat} (h_rz : ∀ (a0 : State) (a1 : Nat) (a2 : Nat) (a3 : Nat), Keep qk a0 = true → Keep qk (rz a0 a1 a2 a3) = true) (h_s : Keep qk s = true) : Keep qk (netBlockReset rz s p) = true := by
  unfold netBlockReset
  repeat' first
    | with_reducible assumption
    | with_reducible intro _
    | with_reducible apply h_rz
    | with_reducible apply of_pw
    | with_reducible apply rclr_wf
    | with_reducible apply resetRange_wf
    | with_reducible apply setNet_wf
    | with_reducible apply netFlushWith_wf
    | with_reducible apply linkClearWith_wf
    | with_reducible apply wf_forEach
    | simp only [wf_mk]
    | with_reducible apply keeps_of
    | (extract_lets x; first | (refine wf_cut (Keep qk x = true) ?_ ?_; focus (subst x); rotate_left; focus (intro hx; generalize x = y at hx ⊢)) | skip)

theorem strOff_wf {qk : Kept} {s : State} {r : Nat} (h_s : Keep qk s = true) : Keep qk (strOff s r) = true := by
  unfold strOff
  repeat' first
    | with_reducible assumption
    | with_reducible intro _
    | with_reducible apply pput_wf
    | with_reducible apply setStrRx_wf
    | simp only [wf_mk]
    | with_reducible apply keeps_of
    | (extract_lets x; first | (refine wf_cut (Keep qk x = true) ?_ ?_; focus (subst x); rotate_left; focus (intro hx; generalize x = y at hx ⊢)) | skip)

theorem dropStreamFrames_wf {qk : Kept} {rz : State → Nat → Nat → Nat → State} {s : State} (h_rz : ∀ (a0 : State) (a1 : Nat) (a2 : Nat) (a3 : Nat), Keep qk a0 = true → Keep qk (rz a0 a1 a2 a3) = true) (h_s : Keep qk s = true) : Keep qk (dropStreamFrames rz s) = true := by
  unfold dropStreamFrames
  repeat' first
    | with_reducible assumption
    | with_reducible intro _
    | with_reducible apply h_rz
    | with_reducible apply of_pw
    | with_reducible apply setQueue_wf
    | with_reducible apply updateCredits_wf
    | with_reducible apply strTxDropWith_wf
    | with_reducible apply wf_forEach
    | with_reducible apply wf_ite
    | simp only [wf_mk]
    | with_reducible apply keeps_of
    | (extract_lets x; first | (refine wf_cut (Keep qk x = true) ?_ ?_; focus (subst x); rotate_left; focus (intro hx; generalize x = y at hx ⊢)) | skip)
    | dsimp -zeta only
    | split

theorem stopBuilding_wf {qk : Kept} {s : State} (h_s : Keep qk s = true) : Keep qk (stopBuilding s) = true := by
  unfold stopBuilding
  repeat' first
    | with_reducible assumption
    | with_reducible intro _
    | with_reducible apply pput_wf
    | with_reducible apply wf_forEach
    | simp only [wf_mk]
    | with_reducible apply keeps_of
    | (extract_lets x; first | (refine wf_cut (Keep qk x = true) ?_ ?_; focus (subst x); rotate_left; focus (intro hx; generalize x = y at hx ⊢)) | skip)

theorem strFence_wf {qk : Kept} {rz : State → Nat → Nat → Nat → State} {s : State} (h_rz : ∀ (a0 : State) (a1 : Nat) (a2 : Nat) (a3 : Nat), Keep qk a0 = true → Keep qk (rz a0 a1 a2 a3) = true) (h_s : Keep qk s = true) : Keep qk (strFence rz s) = true := by
  unfold strFence
  repeat' first
    | with_reducible assumption
    | with_reducible intro _
    | with_reducible apply h_rz
    | with_reducible apply of_pw
    | with_reducible apply rset_wf
    | with_reducible apply strOff_wf
    | with_reducible apply dropStreamFrames_wf
    | with_reducible apply stopBuilding_wf
    | with_reducible apply wf_forEach
    | simp only [wf_mk]
    | with_reducible apply keeps_of
    | (extract_lets x; first | (refine wf_cut (Keep qk x = true) ?_ ?_; focus (subst x); rotate_left; focus (intro hx; generalize x = y at hx ⊢)) | skip)

theorem strBlockReset_wf {qk : Kept} {s : State} (h_s : Keep qk s = true) : Keep qk (strBlockReset s) = true := by
  unfold strBlockReset
  repeat' first
    | with_reducible assumption
    | with_reducible intro _
    | simp only [wf_mk]
    | with_reducible apply keeps_of
    | with_reducible apply keeps_dram
    | with_reducible apply keeps_regsKeep
    | with_reducible apply keeps_gsramKeep
    | with_reducible apply keeps_dramKeep
    | with_reducible apply keeps_flashKeep
    | (extract_lets x; first | (refine wf_cut (Keep qk x = true) ?_ ?_; focus (subst x); rotate_left; focus (intro hx; generalize x = y at hx ⊢)) | skip)

theorem strRestart_wf {qk : Kept} {s : State} (h_s : Keep qk s = true) : Keep qk (strRestart s) = true := by
  unfold strRestart
  repeat' first
    | with_reducible assumption
    | with_reducible intro _
    | with_reducible apply pput_wf
    | with_reducible apply wf_forEach
    | simp only [wf_mk]
    | with_reducible apply keeps_of
    | (extract_lets x; first | (refine wf_cut (Keep qk x = true) ?_ ?_; focus (subst x); rotate_left; focus (intro hx; generalize x = y at hx ⊢)) | skip)

end Sys2Proof.Machine
end

