-- ==== Sys2Proof/Laws/KeepsPortBase.lean ====
section
/-! SUPPORT. The operations of Machine/PortBase.lean keep what `Keep` names. -/

namespace Sys2Proof.Machine
open Sys2Proof
set_option linter.all false
set_option simprocs false

theorem setRx_wf {qk : Kept} {s : State} {p : Nat} {x : RxPort} (h_s : Keep qk s = true) : Keep qk (setRx s p x) = true := by
  unfold setRx
  repeat' first
    | with_reducible assumption
    | with_reducible intro _
    | simp only [wf_mk]
    | with_reducible apply keeps_of
    | (extract_lets x; first | (refine wf_cut (Keep qk x = true) ?_ ?_; focus (subst x); rotate_left; focus (intro hx; generalize x = y at hx ⊢)) | skip)

theorem setPtState_wf {qk : Kept} {s : State} {p st : Nat} (h_s : Keep qk s = true) : Keep qk (setPtState s p st) = true := by
  unfold setPtState
  repeat' first
    | with_reducible assumption
    | with_reducible intro _
    | with_reducible apply rput_wf
    | simp only [wf_mk]
    | with_reducible apply keeps_of
    | (extract_lets x; first | (refine wf_cut (Keep qk x = true) ?_ ?_; focus (subst x); rotate_left; focus (intro hx; generalize x = y at hx ⊢)) | skip)

theorem refreshGroup_wf {qk : Kept} {s : State} {g : Nat} (h_s : Keep qk s = true) : Keep qk (refreshGroup s g) = true := by
  unfold refreshGroup
  repeat' first
    | with_reducible assumption
    | with_reducible intro _
    | with_reducible apply rclr_wf
    | with_reducible apply wf_ite
    | simp only [wf_mk]
    | with_reducible apply keeps_of
    | (extract_lets x; first | (refine wf_cut (Keep qk x = true) ?_ ?_; focus (subst x); rotate_left; focus (intro hx; generalize x = y at hx ⊢)) | skip)

theorem refreshGroupOf_wf {qk : Kept} {s : State} {p : Nat} (h_s : Keep qk s = true) : Keep qk (refreshGroupOf s p) = true := by
  unfold refreshGroupOf
  repeat' first
    | with_reducible assumption
    | with_reducible intro _
    | with_reducible apply refreshGroup_wf
    | simp only [wf_mk]
    | with_reducible apply keeps_of
    | (extract_lets x; first | (refine wf_cut (Keep qk x = true) ?_ ?_; focus (subst x); rotate_left; focus (intro hx; generalize x = y at hx ⊢)) | skip)
    | split

theorem leaveRunning_wf {qk : Kept} {s : State} {p : Nat} {st : Nat} (h_s : Keep qk s = true) : Keep qk (leaveRunning s p st) = true := by
  unfold leaveRunning
  repeat' first
    | with_reducible assumption
    | with_reducible intro _
    | with_reducible apply setRx_wf
    | with_reducible apply setPtState_wf
    | with_reducible apply refreshGroupOf_wf
    | simp only [wf_mk]
    | with_reducible apply keeps_of
    | (extract_lets x; first | (refine wf_cut (Keep qk x = true) ?_ ?_; focus (subst x); rotate_left; focus (intro hx; generalize x = y at hx ⊢)) | skip)

theorem rxOff_wf {qk : Kept} {s : State} {p : Nat} (h_s : Keep qk s = true) : Keep qk (rxOff s p) = true := by
  unfold rxOff
  repeat' first
    | with_reducible assumption
    | with_reducible intro _
    | with_reducible apply rclr_wf
    | with_reducible apply sendOut_wf
    | with_reducible apply fabMissing_wf
    | with_reducible apply setRx_wf
    | with_reducible apply leaveRunning_wf
    | with_reducible apply wf_forEach
    | with_reducible apply wf_ite
    | simp only [wf_mk]
    | with_reducible apply keeps_of
    | (extract_lets x; first | (refine wf_cut (Keep qk x = true) ?_ ?_; focus (subst x); rotate_left; focus (intro hx; generalize x = y at hx ⊢)) | skip)
    | dsimp -zeta only

theorem setTx_wf {qk : Kept} {s : State} {n : Nat} {x : TxPort} (h_s : Keep qk s = true) : Keep qk (setTx s n x) = true := by
  unfold setTx
  repeat' first
    | with_reducible assumption
    | with_reducible intro _
    | simp only [wf_mk]
    | with_reducible apply keeps_of
    | (extract_lets x; first | (refine wf_cut (Keep qk x = true) ?_ ?_; focus (subst x); rotate_left; focus (intro hx; generalize x = y at hx ⊢)) | skip)

theorem txOff_wf {qk : Kept} {s : State} {n : Nat} (h_s : Keep qk s = true) : Keep qk (txOff s n) = true := by
  unfold txOff
  repeat' first
    | with_reducible assumption
    | with_reducible intro _
    | with_reducible apply rclr_wf
    | with_reducible apply sendOut_wf
    | with_reducible apply wf_ite
    | simp only [wf_mk]
    | with_reducible apply keeps_of
    | (extract_lets x; first | (refine wf_cut (Keep qk x = true) ?_ ?_; focus (subst x); rotate_left; focus (intro hx; generalize x = y at hx ⊢)) | skip)

theorem fenceTdm_wf {qk : Kept} {s : State} {n : Nat} (h_s : Keep qk s = true) : Keep qk (fenceTdm s n) = true := by
  unfold fenceTdm
  repeat' first
    | with_reducible assumption
    | with_reducible intro _
    | with_reducible apply rset_wf
    | with_reducible apply rxOff_wf
    | simp only [wf_mk]
    | with_reducible apply keeps_of
    | (extract_lets x; first | (refine wf_cut (Keep qk x = true) ?_ ?_; focus (subst x); rotate_left; focus (intro hx; generalize x = y at hx ⊢)) | skip)

theorem fenceBph_wf {qk : Kept} {s : State} {n : Nat} (h_s : Keep qk s = true) : Keep qk (fenceBph s n) = true := by
  unfold fenceBph
  repeat' first
    | with_reducible assumption
    | with_reducible intro _
    | with_reducible apply rset_wf
    | with_reducible apply setRx_wf
    | with_reducible apply rxOff_wf
    | with_reducible apply txOff_wf
    | simp only [wf_mk]
    | with_reducible apply keeps_of
    | (extract_lets x; first | (refine wf_cut (Keep qk x = true) ?_ ?_; focus (subst x); rotate_left; focus (intro hx; generalize x = y at hx ⊢)) | skip)

theorem resetTdm_wf {qk : Kept} {s : State} {n : Nat} (h_s : Keep qk s = true) : Keep qk (resetTdm s n) = true := by
  unfold resetTdm
  repeat' first
    | with_reducible assumption
    | with_reducible intro _
    | with_reducible apply resetRange_wf
    | with_reducible apply rxOff_wf
    | simp only [wf_mk]
    | with_reducible apply keeps_of
    | (extract_lets x; first | (refine wf_cut (Keep qk x = true) ?_ ?_; focus (subst x); rotate_left; focus (intro hx; generalize x = y at hx ⊢)) | skip)

theorem resetBph_wf {qk : Kept} {s : State} {n : Nat} (h_s : Keep qk s = true) : Keep qk (resetBph s n) = true := by
  unfold resetBph
  repeat' first
    | with_reducible assumption
    | with_reducible intro _
    | with_reducible apply resetRange_wf
    | with_reducible apply rxOff_wf
    | with_reducible apply txOff_wf
    | simp only [wf_mk]
    | with_reducible apply keeps_of
    | (extract_lets x; first | (refine wf_cut (Keep qk x = true) ?_ ?_; focus (subst x); rotate_left; focus (intro hx; generalize x = y at hx ⊢)) | skip)

end Sys2Proof.Machine
end

