-- ==== Sys2Proof/Laws/KeepsRefBase.lean ====
section
/-! SUPPORT. The operations of Machine/RefBase.lean keep what `Keep` names. -/

namespace Sys2Proof.Machine
open Sys2Proof
set_option linter.all false
set_option simprocs false

theorem noteCands_wf {qk : Kept} {s : State} (h_s : Keep qk s = true) : Keep qk (noteCands s) = true := by
  unfold noteCands
  repeat' first
    | with_reducible assumption
    | with_reducible intro _
    | simp only [wf_mk]
    | with_reducible apply keeps_of
    | (extract_lets x; first | (refine wf_cut (Keep qk x = true) ?_ ?_; focus (subst x); rotate_left; focus (intro hx; generalize x = y at hx ⊢)) | skip)

theorem storeHold_wf {qk : Kept} {s : State} (h_s : Keep qk s = true) : Keep qk (storeHold s) = true := by
  unfold storeHold
  repeat' first
    | with_reducible assumption
    | with_reducible intro _
    | with_reducible apply rputI_wf
    | with_reducible apply wf_foldl
    | with_reducible apply wf_foldl1
    | with_reducible apply wf_ite
    | simp only [wf_mk]
    | with_reducible apply keeps_of
    | (extract_lets x; first | (refine wf_cut (Keep qk x = true) ?_ ?_; focus (subst x); rotate_left; focus (intro hx; generalize x = y at hx ⊢)) | skip)
    | dsimp -zeta only

theorem enterUnheld_wf {qk : Kept} {s : State} {st : Nat} (h_s : Keep qk s = true) : Keep qk (enterUnheld s st) = true := by
  unfold enterUnheld
  repeat' first
    | with_reducible assumption
    | with_reducible intro _
    | with_reducible apply rput_wf
    | with_reducible apply storeHold_wf
    | simp only [wf_mk]
    | with_reducible apply keeps_of
    | (extract_lets x; first | (refine wf_cut (Keep qk x = true) ?_ ?_; focus (subst x); rotate_left; focus (intro hx; generalize x = y at hx ⊢)) | skip)

theorem loopNoCandidateWith_wf {qk : Kept} {rz : State → Nat → Nat → Nat → State} {s : State} (h_rz : ∀ (a0 : State) (a1 : Nat) (a2 : Nat) (a3 : Nat), Keep qk a0 = true → Keep qk (rz a0 a1 a2 a3) = true) (h_s : Keep qk s = true) : Keep qk (loopNoCandidateWith rz s) = true := by
  unfold loopNoCandidateWith
  repeat' first
    | with_reducible assumption
    | with_reducible intro _
    | with_reducible apply h_rz
    | with_reducible apply of_pw
    | with_reducible apply hold_wf
    | with_reducible apply enterUnheld_wf
    | with_reducible apply wf_ite
    | simp only [wf_mk]
    | with_reducible apply keeps_of
    | (extract_lets x; first | (refine wf_cut (Keep qk x = true) ?_ ?_; focus (subst x); rotate_left; focus (intro hx; generalize x = y at hx ⊢)) | skip)

theorem selectCandidateWith_wf {qk : Kept} {rz : State → Nat → Nat → Nat → State} {s : State} {c : Nat} (h_rz : ∀ (a0 : State) (a1 : Nat) (a2 : Nat) (a3 : Nat), Keep qk a0 = true → Keep qk (rz a0 a1 a2 a3) = true) (h_s : Keep qk s = true) : Keep qk (selectCandidateWith rz s c) = true := by
  unfold selectCandidateWith
  repeat' first
    | with_reducible assumption
    | with_reducible intro _
    | with_reducible apply h_rz
    | with_reducible apply of_pw
    | with_reducible apply rput_wf
    | with_reducible apply loopNoCandidateWith_wf
    | with_reducible apply wf_ite
    | simp only [wf_mk]
    | with_reducible apply keeps_of
    | (extract_lets x; first | (refine wf_cut (Keep qk x = true) ?_ ?_; focus (subst x); rotate_left; focus (intro hx; generalize x = y at hx ⊢)) | skip)

theorem reselectWith_wf {qk : Kept} {rz : State → Nat → Nat → Nat → State} {s : State} (h_rz : ∀ (a0 : State) (a1 : Nat) (a2 : Nat) (a3 : Nat), Keep qk a0 = true → Keep qk (rz a0 a1 a2 a3) = true) (h_s : Keep qk s = true) : Keep qk (reselectWith rz s) = true := by
  unfold reselectWith
  repeat' first
    | with_reducible assumption
    | with_reducible intro _
    | with_reducible apply h_rz
    | with_reducible apply of_pw
    | with_reducible apply selectCandidateWith_wf
    | simp only [wf_mk]
    | with_reducible apply keeps_of
    | (extract_lets x; first | (refine wf_cut (Keep qk x = true) ?_ ?_; focus (subst x); rotate_left; focus (intro hx; generalize x = y at hx ⊢)) | skip)

theorem disqualifyWith_wf {qk : Kept} {rz : State → Nat → Nat → Nat → State} {s : State} {n : Nat} (h_rz : ∀ (a0 : State) (a1 : Nat) (a2 : Nat) (a3 : Nat), Keep qk a0 = true → Keep qk (rz a0 a1 a2 a3) = true) (h_s : Keep qk s = true) : Keep qk (disqualifyWith rz s n) = true := by
  unfold disqualifyWith
  repeat' first
    | with_reducible assumption
    | with_reducible intro _
    | with_reducible apply h_rz
    | with_reducible apply of_pw
    | with_reducible apply rset_wf
    | with_reducible apply rclr_wf
    | with_reducible apply noteCands_wf
    | with_reducible apply reselectWith_wf
    | with_reducible apply wf_ite
    | simp only [wf_mk]
    | with_reducible apply keeps_of
    | (extract_lets x; first | (refine wf_cut (Keep qk x = true) ?_ ?_; focus (subst x); rotate_left; focus (intro hx; generalize x = y at hx ⊢)) | skip)
    | dsimp -zeta only

theorem followLockWith_wf {qk : Kept} {rz : State → Nat → Nat → Nat → State} {s : State} {n : Nat} (h_rz : ∀ (a0 : State) (a1 : Nat) (a2 : Nat) (a3 : Nat), Keep qk a0 = true → Keep qk (rz a0 a1 a2 a3) = true) (h_s : Keep qk s = true) : Keep qk (followLockWith rz s n) = true := by
  unfold followLockWith
  repeat' first
    | with_reducible assumption
    | with_reducible intro _
    | with_reducible apply h_rz
    | with_reducible apply of_pw
    | with_reducible apply rbit_wf
    | with_reducible apply noteCands_wf
    | with_reducible apply disqualifyWith_wf
    | with_reducible apply wf_ite
    | simp only [wf_mk]
    | with_reducible apply keeps_of
    | (extract_lets x; first | (refine wf_cut (Keep qk x = true) ?_ ?_; focus (subst x); rotate_left; focus (intro hx; generalize x = y at hx ⊢)) | skip)

end Sys2Proof.Machine
end

