-- ==== Sys2Proof/Laws/KeepsRodBase.lean ====
section
/-! SUPPORT. The operations of Machine/RodBase.lean keep what `Keep` names. -/

namespace Sys2Proof.Machine
open Sys2Proof
set_option linter.all false
set_option simprocs false

theorem setRod_wf {qk : Kept} {s : State} {g : Nat} {r : Rod} (h_s : Keep qk s = true) : Keep qk (setRod s g r) = true := by
  unfold setRod
  repeat' first
    | with_reducible assumption
    | with_reducible intro _
    | simp only [wf_mk]
    | with_reducible apply keeps_of
    | with_reducible apply keeps_rods
    | (extract_lets x; first | (refine wf_cut (Keep qk x = true) ?_ ?_; focus (subst x); rotate_left; focus (intro hx; generalize x = y at hx ⊢)) | skip)

theorem setRodState_wf {qk : Kept} {s : State} {g st : Nat} (h_s : Keep qk s = true) : Keep qk (setRodState s g st) = true := by
  unfold setRodState
  repeat' first
    | with_reducible assumption
    | with_reducible intro _
    | with_reducible apply rput_wf
    | with_reducible apply wf_ite
    | simp only [wf_mk]
    | with_reducible apply keeps_of
    | (extract_lets x; first | (refine wf_cut (Keep qk x = true) ?_ ?_; focus (subst x); rotate_left; focus (intro hx; generalize x = y at hx ⊢)) | skip)

theorem refreshFrameCounts_wf {qk : Kept} {s : State} {f : Nat} (h_s : Keep qk s = true) : Keep qk (refreshFrameCounts s f) = true := by
  unfold refreshFrameCounts
  repeat' first
    | with_reducible assumption
    | with_reducible intro _
    | with_reducible apply rput_wf
    | with_reducible apply wf_forEach
    | simp only [wf_mk]
    | with_reducible apply keeps_of
    | (extract_lets x; first | (refine wf_cut (Keep qk x = true) ?_ ?_; focus (subst x); rotate_left; focus (intro hx; generalize x = y at hx ⊢)) | skip)

theorem refreshAllCounts_wf {qk : Kept} {s : State} (h_s : Keep qk s = true) : Keep qk (refreshAllCounts s) = true := by
  unfold refreshAllCounts
  repeat' first
    | with_reducible assumption
    | with_reducible intro _
    | with_reducible apply refreshFrameCounts_wf
    | with_reducible apply wf_forEach
    | simp only [wf_mk]
    | with_reducible apply keeps_of
    | (extract_lets x; first | (refine wf_cut (Keep qk x = true) ?_ ?_; focus (subst x); rotate_left; focus (intro hx; generalize x = y at hx ⊢)) | skip)

theorem grantBank_wf {qk : Kept} {s : State} {f b t : Nat} (h_s : Keep qk s = true) : Keep qk (grantBank s f b t) = true := by
  unfold grantBank
  repeat' first
    | with_reducible assumption
    | with_reducible intro _
    | refine takeFree_e (by with_reducible assumption) ?_
    | with_reducible apply takeFree_p
    | with_reducible apply takeFree_wf
    | with_reducible apply setRod_wf
    | with_reducible apply wf_ite
    | simp only [wf_mk]
    | with_reducible apply keeps_of
    | (extract_lets x; first | (refine wf_cut (Keep qk x = true) ?_ ?_; focus (subst x); rotate_left; focus (intro hx; generalize x = y at hx ⊢)) | skip)
    | dsimp -zeta only
    | split

theorem settleBanks_wf {qk : Kept} {f : Nat} : ∀ {k : Nat} {s : State}, Keep qk s = true → Keep qk (settleBanks f k s) = true
  | 0, s, h => h
  | k + 1, s, h => by
    unfold settleBanks
    split
    · exact h
    · exact settleBanks_wf (grantBank_wf h)

theorem settleFrame_wf {qk : Kept} {s : State} {f : Nat} (h_s : Keep qk s = true) : Keep qk (settleFrame s f) = true := by
  unfold settleFrame
  repeat' first
    | with_reducible assumption
    | with_reducible intro _
    | with_reducible apply settleBanks_wf
    | simp only [wf_mk]
    | with_reducible apply keeps_of
    | (extract_lets x; first | (refine wf_cut (Keep qk x = true) ?_ ?_; focus (subst x); rotate_left; focus (intro hx; generalize x = y at hx ⊢)) | skip)

theorem freeBanks_wf {qk : Kept} {s : State} (h_s : Keep qk s = true) : Keep qk (freeBanks s) = true := by
  unfold freeBanks
  repeat' first
    | with_reducible assumption
    | with_reducible intro _
    | with_reducible apply wf_ite
    | simp only [wf_mk]
    | with_reducible apply keeps_of
    | (extract_lets x; first | (refine wf_cut (Keep qk x = true) ?_ ?_; focus (subst x); rotate_left; focus (intro hx; generalize x = y at hx ⊢)) | skip)
    | dsimp -zeta only

theorem setPhase'_wf {qk : Kept} {s : State} {g : Nat} {ph : RodPhase} (h_s : Keep qk s = true) : Keep qk (setPhase' s g ph) = true := by
  unfold setPhase'
  repeat' first
    | with_reducible assumption
    | with_reducible intro _
    | with_reducible apply rbit_wf
    | with_reducible apply setRod_wf
    | with_reducible apply settleFrame_wf
    | with_reducible apply wf_ite
    | simp only [wf_mk]
    | with_reducible apply keeps_of
    | (extract_lets x; first | (refine wf_cut (Keep qk x = true) ?_ ?_; focus (subst x); rotate_left; focus (intro hx; generalize x = y at hx ⊢)) | skip)

theorem frameSet_wf {qk : Kept} {s : State} {f w : Nat} {v : Word} (h_s : Keep qk s = true) : Keep qk (frameSet s f w v) = true := by
  unfold frameSet
  repeat' first
    | with_reducible assumption
    | with_reducible intro _
    | with_reducible apply rset_wf
    | with_reducible apply wf_ite
    | simp only [wf_mk]
    | with_reducible apply keeps_of
    | with_reducible apply keeps_frame
    | (extract_lets x; first | (refine wf_cut (Keep qk x = true) ?_ ?_; focus (subst x); rotate_left; focus (intro hx; generalize x = y at hx ⊢)) | skip)

theorem landWrite_wf {qk : Kept} {s : State} {g : Nat} {x : RodWrite} (h_s : Keep qk s = true) : Keep qk (landWrite s g x) = true := by
  unfold landWrite
  repeat' first
    | with_reducible assumption
    | with_reducible intro _
    | with_reducible apply setRod_wf
    | with_reducible apply frameSet_wf
    | simp only [wf_mk]
    | with_reducible apply keeps_of
    | (extract_lets x; first | (refine wf_cut (Keep qk x = true) ?_ ?_; focus (subst x); rotate_left; focus (intro hx; generalize x = y at hx ⊢)) | skip)
    | split

theorem landBefore_wf {qk : Kept} {s : State} {g t : Nat} (h_s : Keep qk s = true) : Keep qk (landBefore s g t) = true := by
  unfold landBefore
  repeat' first
    | with_reducible assumption
    | with_reducible intro _
    | with_reducible apply setRod_wf
    | with_reducible apply landWrite_wf
    | with_reducible apply wf_forEach
    | simp only [wf_mk]
    | with_reducible apply keeps_of
    | (extract_lets x; first | (refine wf_cut (Keep qk x = true) ?_ ?_; focus (subst x); rotate_left; focus (intro hx; generalize x = y at hx ⊢)) | skip)

theorem landAll_wf {qk : Kept} {s : State} {g : Nat} (h_s : Keep qk s = true) : Keep qk (landAll s g) = true := by
  unfold landAll
  repeat' first
    | with_reducible assumption
    | with_reducible intro _
    | with_reducible apply setRod_wf
    | with_reducible apply landWrite_wf
    | with_reducible apply wf_forEach
    | simp only [wf_mk]
    | with_reducible apply keeps_of
    | (extract_lets x; first | (refine wf_cut (Keep qk x = true) ?_ ?_; focus (subst x); rotate_left; focus (intro hx; generalize x = y at hx ⊢)) | skip)

theorem dropPass_wf {qk : Kept} {s : State} {g : Nat} (h_s : Keep qk s = true) : Keep qk (dropPass s g) = true := by
  unfold dropPass
  repeat' first
    | with_reducible assumption
    | with_reducible intro _
    | with_reducible apply setRod_wf
    | with_reducible apply setPhase'_wf
    | with_reducible apply wf_ite
    | simp only [wf_mk]
    | with_reducible apply keeps_of
    | (extract_lets x; first | (refine wf_cut (Keep qk x = true) ?_ ?_; focus (subst x); rotate_left; focus (intro hx; generalize x = y at hx ⊢)) | skip)

theorem rodFence_wf {qk : Kept} {s : State} {g : Nat} (h_s : Keep qk s = true) : Keep qk (rodFence s g) = true := by
  unfold rodFence
  repeat' first
    | with_reducible assumption
    | with_reducible intro _
    | with_reducible apply setRodState_wf
    | with_reducible apply dropPass_wf
    | simp only [wf_mk]
    | with_reducible apply keeps_of
    | (extract_lets x; first | (refine wf_cut (Keep qk x = true) ?_ ?_; focus (subst x); rotate_left; focus (intro hx; generalize x = y at hx ⊢)) | skip)

theorem loadEnds_wf {qk : Kept} {s : State} {f : Nat} (h_s : Keep qk s = true) : Keep qk (loadEnds s f) = true := by
  unfold loadEnds
  repeat' first
    | with_reducible assumption
    | with_reducible intro _
    | with_reducible apply rclr_wf
    | simp only [wf_mk]
    | with_reducible apply keeps_of
    | (extract_lets x; first | (refine wf_cut (Keep qk x = true) ?_ ?_; focus (subst x); rotate_left; focus (intro hx; generalize x = y at hx ⊢)) | skip)

theorem loadEmpties_wf {qk : Kept} {s : State} {f : Nat} {l : LoadState} (h_s : Keep qk s = true) : Keep qk (loadEmpties s f l) = true := by
  unfold loadEmpties
  repeat' first
    | with_reducible assumption
    | with_reducible intro _
    | with_reducible apply setRodState_wf
    | with_reducible apply refreshFrameCounts_wf
    | with_reducible apply wf_forEach
    | simp only [wf_mk]
    | with_reducible apply keeps_of
    | (extract_lets x; first | (refine wf_cut (Keep qk x = true) ?_ ?_; focus (subst x); rotate_left; focus (intro hx; generalize x = y at hx ⊢)) | skip)

theorem abandonLoad_wf {qk : Kept} {s : State} {g : Nat} (h_s : Keep qk s = true) : Keep qk (abandonLoad s g) = true := by
  unfold abandonLoad
  repeat' first
    | with_reducible assumption
    | with_reducible intro _
    | with_reducible apply finishOpt_wf
    | with_reducible apply loadEnds_wf
    | with_reducible apply loadEmpties_wf
    | simp only [wf_mk]
    | with_reducible apply keeps_of
    | (extract_lets x; first | (refine wf_cut (Keep qk x = true) ?_ ?_; focus (subst x); rotate_left; focus (intro hx; generalize x = y at hx ⊢)) | skip)
    | dsimp -zeta only
    | split

theorem rodEmpty_wf {qk : Kept} {s : State} {g : Nat} (h_s : Keep qk s = true) : Keep qk (rodEmpty s g) = true := by
  unfold rodEmpty
  repeat' first
    | with_reducible assumption
    | with_reducible intro _
    | with_reducible apply rput_wf
    | with_reducible apply setRod_wf
    | with_reducible apply setRodState_wf
    | with_reducible apply refreshFrameCounts_wf
    | with_reducible apply dropPass_wf
    | with_reducible apply abandonLoad_wf
    | simp only [wf_mk]
    | with_reducible apply keeps_of
    | (extract_lets x; first | (refine wf_cut (Keep qk x = true) ?_ ?_; focus (subst x); rotate_left; focus (intro hx; generalize x = y at hx ⊢)) | skip)

end Sys2Proof.Machine
end

