-- ==== Sys2Proof/Laws/KeepsStkBase.lean ====
section
/-! SUPPORT. The operations of Machine/StkBase.lean keep what `Keep` names. -/

namespace Sys2Proof.Machine
open Sys2Proof
set_option linter.all false
set_option simprocs false

theorem stkOnLink_wf {qk : Kept} {s : State} {l : Nat} {ws : List Nat} (h_s : Keep qk s = true) : Keep qk (stkOnLink s l ws) = true := by
  unfold stkOnLink
  repeat' first
    | with_reducible assumption
    | with_reducible intro _
    | with_reducible apply sendOut_wf
    | with_reducible apply wf_ite
    | simp only [wf_mk]
    | with_reducible apply keeps_of
    | (extract_lets x; first | (refine wf_cut (Keep qk x = true) ?_ ?_; focus (subst x); rotate_left; focus (intro hx; generalize x = y at hx ⊢)) | skip)

theorem stkLinkSend_wf {qk : Kept} {s : State} {l type dst : Nat} {payload : List Nat} (h_s : Keep qk s = true) : Keep qk (stkLinkSend s l type dst payload) = true := by
  unfold stkLinkSend
  repeat' first
    | with_reducible assumption
    | with_reducible intro _
    | with_reducible apply stkOnLink_wf
    | simp only [wf_mk]
    | with_reducible apply keeps_of
    | (extract_lets x; first | (refine wf_cut (Keep qk x = true) ?_ ?_; focus (subst x); rotate_left; focus (intro hx; generalize x = y at hx ⊢)) | skip)

theorem stkSend_wf {qk : Kept} {s : State} {dst type : Nat} {payload : List Nat} (h_s : Keep qk s = true) : Keep qk (stkSend s dst type payload) = true := by
  unfold stkSend
  repeat' first
    | with_reducible assumption
    | with_reducible intro _
    | with_reducible apply stkOnLink_wf
    | with_reducible apply wf_forEach
    | with_reducible apply wf_ite
    | simp only [wf_mk]
    | with_reducible apply keeps_of
    | (extract_lets x; first | (refine wf_cut (Keep qk x = true) ?_ ?_; focus (subst x); rotate_left; focus (intro hx; generalize x = y at hx ⊢)) | skip)

theorem stkAsk_wf {qk : Kept} {s : State} {dst type xid : Nat} {payload : List Nat} (h_s : Keep qk s = true) : Keep qk (stkAsk s dst type xid payload) = true := by
  unfold stkAsk
  repeat' first
    | with_reducible assumption
    | with_reducible intro _
    | with_reducible apply stkSend_wf
    | simp only [wf_mk]
    | with_reducible apply keeps_of
    | (extract_lets x; first | (refine wf_cut (Keep qk x = true) ?_ ?_; focus (subst x); rotate_left; focus (intro hx; generalize x = y at hx ⊢)) | skip)

theorem stkAnswered_wf {qk : Kept} {s : State} {type xid : Nat} (h_s : Keep qk s = true) : Keep qk (stkAnswered s type xid) = true := by
  unfold stkAnswered
  repeat' first
    | with_reducible assumption
    | with_reducible intro _
    | simp only [wf_mk]
    | with_reducible apply keeps_of
    | (extract_lets x; first | (refine wf_cut (Keep qk x = true) ?_ ?_; focus (subst x); rotate_left; focus (intro hx; generalize x = y at hx ⊢)) | skip)

end Sys2Proof.Machine
end

