-- ==== Sys2Proof/Laws/KeepsTallyBase.lean ====
section
/-! SUPPORT. The operations of Machine/TallyBase.lean keep what `Keep` names. -/

namespace Sys2Proof.Machine
open Sys2Proof
set_option linter.all false
set_option simprocs false

theorem setTally_wf {qk : Kept} {s : State} {id : Nat} {t : Tally} (h_s : Keep qk s = true) : Keep qk (setTally s id t) = true := by
  unfold setTally
  repeat' first
    | with_reducible assumption
    | with_reducible intro _
    | simp only [wf_mk]
    | with_reducible apply keeps_of
    | (extract_lets x; first | (refine wf_cut (Keep qk x = true) ?_ ?_; focus (subst x); rotate_left; focus (intro hx; generalize x = y at hx ⊢)) | skip)

theorem setTyState_wf {qk : Kept} {s : State} {id st : Nat} (h_s : Keep qk s = true) : Keep qk (setTyState s id st) = true := by
  unfold setTyState
  repeat' first
    | with_reducible assumption
    | with_reducible intro _
    | with_reducible apply rput_wf
    | with_reducible apply rbit_wf
    | simp only [wf_mk]
    | with_reducible apply keeps_of
    | (extract_lets x; first | (refine wf_cut (Keep qk x = true) ?_ ?_; focus (subst x); rotate_left; focus (intro hx; generalize x = y at hx ⊢)) | skip)

theorem setTyTarget_wf {qk : Kept} {s : State} {id n : Nat} (h_s : Keep qk s = true) : Keep qk (setTyTarget s id n) = true := by
  unfold setTyTarget
  repeat' first
    | with_reducible assumption
    | with_reducible intro _
    | with_reducible apply wr_wf
    | simp only [wf_mk]
    | with_reducible apply keeps_of
    | (extract_lets x; first | (refine wf_cut (Keep qk x = true) ?_ ?_; focus (subst x); rotate_left; focus (intro hx; generalize x = y at hx ⊢)) | skip)

theorem onShadow_wf {qk : Kept} {s : State} {k : Nat} {f : Tally → Nat → Tally} (h_s : Keep qk s = true) : Keep qk (onShadow s k f) = true := by
  unfold onShadow
  repeat' first
    | with_reducible assumption
    | with_reducible intro _
    | with_reducible apply setTally_wf
    | with_reducible apply wf_forEach
    | simp only [wf_mk]
    | with_reducible apply keeps_of
    | (extract_lets x; first | (refine wf_cut (Keep qk x = true) ?_ ?_; focus (subst x); rotate_left; focus (intro hx; generalize x = y at hx ⊢)) | skip)
    | split

theorem shadowWrite_wf {qk : Kept} {s : State} {k : Nat} {w : Word} (h_s : Keep qk s = true) : Keep qk (shadowWrite s k w) = true := by
  unfold shadowWrite
  repeat' first
    | with_reducible assumption
    | with_reducible intro _
    | with_reducible apply onShadow_wf
    | with_reducible apply wf_ite
    | simp only [wf_mk]
    | with_reducible apply keeps_of
    | (extract_lets x; first | (refine wf_cut (Keep qk x = true) ?_ ?_; focus (subst x); rotate_left; focus (intro hx; generalize x = y at hx ⊢)) | skip)

theorem shadowBad_wf {qk : Kept} {s : State} {k : Nat} (h_s : Keep qk s = true) : Keep qk (shadowBad s k) = true := by
  unfold shadowBad
  repeat' first
    | with_reducible assumption
    | with_reducible intro _
    | with_reducible apply onShadow_wf
    | simp only [wf_mk]
    | with_reducible apply keeps_of
    | (extract_lets x; first | (refine wf_cut (Keep qk x = true) ?_ ?_; focus (subst x); rotate_left; focus (intro hx; generalize x = y at hx ⊢)) | skip)

theorem countRecords_wf {qk : Kept} {s : State} {id : Nat} (h_s : Keep qk s = true) : Keep qk (countRecords s id) = true := by
  unfold countRecords
  repeat' first
    | with_reducible assumption
    | with_reducible intro _
    | with_reducible apply rput_wf
    | with_reducible apply wf_foldl
    | with_reducible apply wf_foldl1
    | simp only [wf_mk]
    | with_reducible apply keeps_of
    | (extract_lets x; first | (refine wf_cut (Keep qk x = true) ?_ ?_; focus (subst x); rotate_left; focus (intro hx; generalize x = y at hx ⊢)) | skip)
    | dsimp -zeta only

theorem freeTally_wf {qk : Kept} {s : State} {id : Nat} (h_s : Keep qk s = true) : Keep qk (freeTally s id) = true := by
  unfold freeTally
  repeat' first
    | with_reducible assumption
    | with_reducible intro _
    | with_reducible apply setTally_wf
    | with_reducible apply setTyState_wf
    | with_reducible apply countRecords_wf
    | simp only [wf_mk]
    | with_reducible apply keeps_of
    | (extract_lets x; first | (refine wf_cut (Keep qk x = true) ?_ ?_; focus (subst x); rotate_left; focus (intro hx; generalize x = y at hx ⊢)) | skip)

theorem noteStored_wf {qk : Kept} {s : State} {id : Nat} {ok : Bool} (h_s : Keep qk s = true) : Keep qk (noteStored s id ok) = true := by
  unfold noteStored
  repeat' first
    | with_reducible assumption
    | with_reducible intro _
    | with_reducible apply wf_ite
    | simp only [wf_mk]
    | with_reducible apply keeps_of
    | (extract_lets x; first | (refine wf_cut (Keep qk x = true) ?_ ?_; focus (subst x); rotate_left; focus (intro hx; generalize x = y at hx ⊢)) | skip)
    | split

theorem tallyOutcome_wf {qk : Kept} {s : State} {id outcome cause : Nat} (h_s : Keep qk s = true) : Keep qk (tallyOutcome s id outcome cause) = true := by
  unfold tallyOutcome
  repeat' first
    | with_reducible assumption
    | with_reducible intro _
    | with_reducible apply rput_wf
    | with_reducible apply rset_wf
    | with_reducible apply recordEvent_wf
    | with_reducible apply noteStored_wf
    | with_reducible apply wf_ite
    | simp only [wf_mk]
    | with_reducible apply keeps_of
    | (extract_lets x; first | (refine wf_cut (Keep qk x = true) ?_ ?_; focus (subst x); rotate_left; focus (intro hx; generalize x = y at hx ⊢)) | skip)

theorem discardOn_wf {qk : Kept} {s : State} {d : Die} {id : Nat} (h_s : Keep qk s = true) : Keep qk (discardOn s d id) = true := by
  unfold discardOn
  repeat' first
    | with_reducible assumption
    | with_reducible intro _
    | with_reducible apply setBar_wf
    | with_reducible apply barCmd_wf
    | simp only [wf_mk]
    | with_reducible apply keeps_of
    | (extract_lets x; first | (refine wf_cut (Keep qk x = true) ?_ ?_; focus (subst x); rotate_left; focus (intro hx; generalize x = y at hx ⊢)) | skip)

theorem castVote_wf {qk : Kept} {s : State} {xid : Nat} {yes : Bool} {mask n : Nat} (h_s : Keep qk s = true) : Keep qk (castVote s xid yes mask n) = true := by
  unfold castVote
  repeat' first
    | with_reducible assumption
    | with_reducible intro _
    | with_reducible apply stkAsk_wf
    | with_reducible apply stkAnswered_wf
    | with_reducible apply wf_ite
    | simp only [wf_mk]
    | with_reducible apply keeps_of
    | (extract_lets x; first | (refine wf_cut (Keep qk x = true) ?_ ?_; focus (subst x); rotate_left; focus (intro hx; generalize x = y at hx ⊢)) | skip)

theorem sendVote_wf {qk : Kept} {s : State} {id : Nat} {yes : Bool} (h_s : Keep qk s = true) : Keep qk (sendVote s id yes) = true := by
  unfold sendVote
  repeat' first
    | with_reducible assumption
    | with_reducible intro _
    | with_reducible apply castVote_wf
    | simp only [wf_mk]
    | with_reducible apply keeps_of
    | (extract_lets x; first | (refine wf_cut (Keep qk x = true) ?_ ?_; focus (subst x); rotate_left; focus (intro hx; generalize x = y at hx ⊢)) | skip)

theorem voteNo_wf {qk : Kept} {s : State} {id cause : Nat} (h_s : Keep qk s = true) : Keep qk (voteNo s id cause) = true := by
  unfold voteNo
  repeat' first
    | with_reducible assumption
    | with_reducible intro _
    | with_reducible apply sendVote_wf
    | with_reducible apply wf_ite
    | simp only [wf_mk]
    | with_reducible apply keeps_of
    | (extract_lets x; first | (refine wf_cut (Keep qk x = true) ?_ ?_; focus (subst x); rotate_left; focus (intro hx; generalize x = y at hx ⊢)) | skip)

theorem dropTallyWith_wf {qk : Kept} {rz : State → Nat → Nat → Nat → State} {s : State} {id cause : Nat} (h_rz : ∀ (a0 : State) (a1 : Nat) (a2 : Nat) (a3 : Nat), Keep qk a0 = true → Keep qk (rz a0 a1 a2 a3) = true) (h_s : Keep qk s = true) : Keep qk (dropTallyWith rz s id cause) = true := by
  unfold dropTallyWith
  repeat' first
    | with_reducible assumption
    | with_reducible intro _
    | with_reducible apply h_rz
    | with_reducible apply of_pw
    | with_reducible apply rset_wf
    | with_reducible apply radd_wf
    | with_reducible apply finishOpt_wf
    | with_reducible apply freeTally_wf
    | with_reducible apply tallyOutcome_wf
    | with_reducible apply discardOn_wf
    | with_reducible apply voteNo_wf
    | with_reducible apply wf_ite
    | simp only [wf_mk]
    | with_reducible apply keeps_of
    | (extract_lets x; first | (refine wf_cut (Keep qk x = true) ?_ ?_; focus (subst x); rotate_left; focus (intro hx; generalize x = y at hx ⊢)) | skip)

theorem failPartWith_wf {qk : Kept} {rz : State → Nat → Nat → Nat → State} {s : State} {id cause : Nat} (h_rz : ∀ (a0 : State) (a1 : Nat) (a2 : Nat) (a3 : Nat), Keep qk a0 = true → Keep qk (rz a0 a1 a2 a3) = true) (h_s : Keep qk s = true) : Keep qk (failPartWith rz s id cause) = true := by
  unfold failPartWith
  repeat' first
    | with_reducible assumption
    | with_reducible intro _
    | with_reducible apply h_rz
    | with_reducible apply of_pw
    | with_reducible apply rset_wf
    | with_reducible apply stkSend_wf
    | with_reducible apply dropTallyWith_wf
    | with_reducible apply wf_ite
    | simp only [wf_mk]
    | with_reducible apply keeps_of
    | (extract_lets x; first | (refine wf_cut (Keep qk x = true) ?_ ?_; focus (subst x); rotate_left; focus (intro hx; generalize x = y at hx ⊢)) | skip)

theorem failFieldWith_wf {qk : Kept} {rz : State → Nat → Nat → Nat → State} {s : State} {id : Nat} (h_rz : ∀ (a0 : State) (a1 : Nat) (a2 : Nat) (a3 : Nat), Keep qk a0 = true → Keep qk (rz a0 a1 a2 a3) = true) (h_s : Keep qk s = true) : Keep qk (failFieldWith rz s id) = true := by
  unfold failFieldWith
  repeat' first
    | with_reducible assumption
    | with_reducible intro _
    | with_reducible apply h_rz
    | with_reducible apply of_pw
    | with_reducible apply dropTallyWith_wf
    | with_reducible apply failPartWith_wf
    | with_reducible apply wf_ite
    | simp only [wf_mk]
    | with_reducible apply keeps_of
    | (extract_lets x; first | (refine wf_cut (Keep qk x = true) ?_ ?_; focus (subst x); rotate_left; focus (intro hx; generalize x = y at hx ⊢)) | skip)

theorem dropAllWith_wf {qk : Kept} {rz : State → Nat → Nat → Nat → State} {s : State} (h_rz : ∀ (a0 : State) (a1 : Nat) (a2 : Nat) (a3 : Nat), Keep qk a0 = true → Keep qk (rz a0 a1 a2 a3) = true) (h_s : Keep qk s = true) : Keep qk (dropAllWith rz s) = true := by
  unfold dropAllWith
  repeat' first
    | with_reducible assumption
    | with_reducible intro _
    | with_reducible apply h_rz
    | with_reducible apply of_pw
    | with_reducible apply dropTallyWith_wf
    | with_reducible apply wf_forEach
    | simp only [wf_mk]
    | with_reducible apply keeps_of
    | (extract_lets x; first | (refine wf_cut (Keep qk x = true) ?_ ?_; focus (subst x); rotate_left; focus (intro hx; generalize x = y at hx ⊢)) | skip)

end Sys2Proof.Machine
end

