-- ==== Sys2Proof/Laws/KeepsFaults.lean ====
section
/-! SUPPORT. The operations of Machine/Faults.lean keep what `Keep` names. -/

namespace Sys2Proof.Machine
open Sys2Proof
set_option linter.all false
set_option simprocs false

theorem portLeftWith_wf {qk : Kept} {rz : State → Nat → Nat → Nat → State} {s : State} {p : Nat} (h_rz : ∀ (a0 : State) (a1 : Nat) (a2 : Nat) (a3 : Nat), Keep qk a0 = true → Keep qk (rz a0 a1 a2 a3) = true) (h_s : Keep qk s = true) : Keep qk (portLeftWith rz s p) = true := by
  unfold portLeftWith
  repeat' first
    | with_reducible assumption
    | with_reducible intro _
    | with_reducible apply h_rz
    | with_reducible apply of_pw
    | with_reducible apply loseRoute_wf
    | with_reducible apply wf_forEach
    | simp only [wf_mk]
    | with_reducible apply keeps_of
    | (extract_lets x; first | (refine wf_cut (Keep qk x = true) ?_ ?_; focus (subst x); rotate_left; focus (intro hx; generalize x = y at hx ⊢)) | skip)

theorem fenceTdmWith_wf {qk : Kept} {rz : State → Nat → Nat → Nat → State} {s : State} {n : Nat} (h_rz : ∀ (a0 : State) (a1 : Nat) (a2 : Nat) (a3 : Nat), Keep qk a0 = true → Keep qk (rz a0 a1 a2 a3) = true) (h_s : Keep qk s = true) : Keep qk (fenceTdmWith rz s n) = true := by
  unfold fenceTdmWith
  repeat' first
    | with_reducible assumption
    | with_reducible intro _
    | with_reducible apply h_rz
    | with_reducible apply of_pw
    | with_reducible apply fenceTdm_wf
    | with_reducible apply portLeftWith_wf
    | simp only [wf_mk]
    | with_reducible apply keeps_of
    | (extract_lets x; first | (refine wf_cut (Keep qk x = true) ?_ ?_; focus (subst x); rotate_left; focus (intro hx; generalize x = y at hx ⊢)) | skip)

theorem fenceBphWith_wf {qk : Kept} {rz : State → Nat → Nat → Nat → State} {s : State} {n : Nat} (h_rz : ∀ (a0 : State) (a1 : Nat) (a2 : Nat) (a3 : Nat), Keep qk a0 = true → Keep qk (rz a0 a1 a2 a3) = true) (h_s : Keep qk s = true) : Keep qk (fenceBphWith rz s n) = true := by
  unfold fenceBphWith
  repeat' first
    | with_reducible assumption
    | with_reducible intro _
    | with_reducible apply h_rz
    | with_reducible apply of_pw
    | with_reducible apply fenceBph_wf
    | with_reducible apply followLockWith_wf
    | with_reducible apply portLeftWith_wf
    | simp only [wf_mk]
    | with_reducible apply keeps_of
    | (extract_lets x; first | (refine wf_cut (Keep qk x = true) ?_ ?_; focus (subst x); rotate_left; focus (intro hx; generalize x = y at hx ⊢)) | skip)

theorem fencePorts_wf {qk : Kept} {rz : State → Nat → Nat → Nat → State} {s : State} (h_rz : ∀ (a0 : State) (a1 : Nat) (a2 : Nat) (a3 : Nat), Keep qk a0 = true → Keep qk (rz a0 a1 a2 a3) = true) (h_s : Keep qk s = true) : Keep qk (fencePorts rz s) = true := by
  unfold fencePorts
  repeat' first
    | with_reducible assumption
    | with_reducible intro _
    | with_reducible apply h_rz
    | with_reducible apply of_pw
    | with_reducible apply fenceTdmWith_wf
    | with_reducible apply fenceBphWith_wf
    | with_reducible apply wf_forEach
    | simp only [wf_mk]
    | with_reducible apply keeps_of
    | (extract_lets x; first | (refine wf_cut (Keep qk x = true) ?_ ?_; focus (subst x); rotate_left; focus (intro hx; generalize x = y at hx ⊢)) | skip)

theorem fenceUnit_wf {qk : Kept} {rz : State → Nat → Nat → Nat → State} {s : State} {u : Nat} (h_rz : ∀ (a0 : State) (a1 : Nat) (a2 : Nat) (a3 : Nat), Keep qk a0 = true → Keep qk (rz a0 a1 a2 a3) = true) (h_s : Keep qk s = true) : Keep qk (fenceUnit rz s u) = true := by
  unfold fenceUnit
  repeat' first
    | with_reducible assumption
    | with_reducible intro _
    | with_reducible apply h_rz
    | with_reducible apply of_pw
    | with_reducible apply rset_wf
    | with_reducible apply barFence_wf
    | with_reducible apply routeFence_wf
    | with_reducible apply busFence_wf
    | with_reducible apply delayFence_wf
    | with_reducible apply netFence_wf
    | with_reducible apply strFence_wf
    | with_reducible apply rodFence_wf
    | with_reducible apply dropAllWith_wf
    | with_reducible apply fenceTdmWith_wf
    | with_reducible apply fenceBphWith_wf
    | with_reducible apply fencePorts_wf
    | with_reducible apply wf_ite
    | simp only [wf_mk]
    | with_reducible apply keeps_of
    | (extract_lets x; first | (refine wf_cut (Keep qk x = true) ?_ ?_; focus (subst x); rotate_left; focus (intro hx; generalize x = y at hx ⊢)) | skip)
    | split

theorem stkRetrainWith_wf {qk : Kept} {rz : State → Nat → Nat → Nat → State} {s : State} {l : Nat} (h_rz : ∀ (a0 : State) (a1 : Nat) (a2 : Nat) (a3 : Nat), Keep qk a0 = true → Keep qk (rz a0 a1 a2 a3) = true) (h_s : Keep qk s = true) : Keep qk (stkRetrainWith rz s l) = true := by
  unfold stkRetrainWith
  repeat' first
    | with_reducible assumption
    | with_reducible intro _
    | with_reducible apply h_rz
    | with_reducible apply of_pw
    | with_reducible apply wr_wf
    | with_reducible apply wf_ite
    | simp only [wf_mk]
    | with_reducible apply keeps_of
    | (extract_lets x; first | (refine wf_cut (Keep qk x = true) ?_ ?_; focus (subst x); rotate_left; focus (intro hx; generalize x = y at hx ⊢)) | skip)

theorem resetBarWith_wf {qk : Kept} {rz : State → Nat → Nat → Nat → State} {s : State} {d : Die} (h_rz : ∀ (a0 : State) (a1 : Nat) (a2 : Nat) (a3 : Nat), Keep qk a0 = true → Keep qk (rz a0 a1 a2 a3) = true) (h_s : Keep qk s = true) : Keep qk (resetBarWith rz s d) = true := by
  unfold resetBarWith
  repeat' first
    | with_reducible assumption
    | with_reducible intro _
    | with_reducible apply h_rz
    | with_reducible apply of_pw
    | with_reducible apply rclr_wf
    | with_reducible apply waitLost_wf
    | with_reducible apply barBlockReset_wf
    | with_reducible apply failFieldWith_wf
    | with_reducible apply wf_forEach
    | with_reducible apply wf_ite
    | simp only [wf_mk]
    | with_reducible apply keeps_of
    | (extract_lets x; first | (refine wf_cut (Keep qk x = true) ?_ ?_; focus (subst x); rotate_left; focus (intro hx; generalize x = y at hx ⊢)) | skip)

theorem resetUnit_wf {qk : Kept} {rz : State → Nat → Nat → Nat → State} {s : State} {u : Nat} (h_rz : ∀ (a0 : State) (a1 : Nat) (a2 : Nat) (a3 : Nat), Keep qk a0 = true → Keep qk (rz a0 a1 a2 a3) = true) (h_s : Keep qk s = true) : Keep qk (resetUnit rz s u) = true := by
  unfold resetUnit
  repeat' first
    | with_reducible assumption
    | with_reducible intro _
    | with_reducible apply h_rz
    | with_reducible apply of_pw
    | with_reducible apply rclr_wf
    | with_reducible apply setRoute_wf
    | with_reducible apply routeBlockReset_wf
    | with_reducible apply busBlockReset_wf
    | with_reducible apply clearLines_wf
    | with_reducible apply mgtBlockReset_wf
    | with_reducible apply netBlockReset_wf
    | with_reducible apply strBlockReset_wf
    | with_reducible apply strRestart_wf
    | with_reducible apply resetTdm_wf
    | with_reducible apply resetBph_wf
    | with_reducible apply followLockWith_wf
    | with_reducible apply rodEmpty_wf
    | with_reducible apply portLeftWith_wf
    | with_reducible apply stkRetrainWith_wf
    | with_reducible apply resetBarWith_wf
    | with_reducible apply wf_ite
    | simp only [wf_mk]
    | with_reducible apply keeps_of
    | (extract_lets x; first | (refine wf_cut (Keep qk x = true) ?_ ?_; focus (subst x); rotate_left; focus (intro hx; generalize x = y at hx ⊢)) | skip)
    | split

theorem reactUnit_wf {qk : Kept} {rz : State → Nat → Nat → Nat → State} {s : State} {id inst : Nat} (h_rz : ∀ (a0 : State) (a1 : Nat) (a2 : Nat) (a3 : Nat), Keep qk a0 = true → Keep qk (rz a0 a1 a2 a3) = true) (h_s : Keep qk s = true) : Keep qk (reactUnit rz s id inst) = true := by
  unfold reactUnit
  repeat' first
    | with_reducible assumption
    | with_reducible intro _
    | with_reducible apply h_rz
    | with_reducible apply of_pw
    | with_reducible apply fenceUnit_wf
    | with_reducible apply resetUnit_wf
    | with_reducible apply wf_ite
    | simp only [wf_mk]
    | with_reducible apply keeps_of
    | (extract_lets x; first | (refine wf_cut (Keep qk x = true) ?_ ?_; focus (subst x); rotate_left; focus (intro hx; generalize x = y at hx ⊢)) | skip)
    | dsimp -zeta only
    | split

theorem reactCarry_wf {qk : Kept} {rz : State → Nat → Nat → Nat → State} {s : State} {id : Nat} (h_rz : ∀ (a0 : State) (a1 : Nat) (a2 : Nat) (a3 : Nat), Keep qk a0 = true → Keep qk (rz a0 a1 a2 a3) = true) (h_s : Keep qk s = true) : Keep qk (reactCarry rz s id) = true := by
  unfold reactCarry
  repeat' first
    | with_reducible assumption
    | with_reducible intro _
    | with_reducible apply h_rz
    | with_reducible apply of_pw
    | with_reducible apply fireWith_wf
    | with_reducible apply wf_ite
    | simp only [wf_mk]
    | with_reducible apply keeps_of
    | (extract_lets x; first | (refine wf_cut (Keep qk x = true) ?_ ?_; focus (subst x); rotate_left; focus (intro hx; generalize x = y at hx ⊢)) | skip)

theorem raiseBody_wf {qk : Kept} {rz : State → Nat → Nat → Nat → State} {forced : Bool} {s : State} {id inst datum : Nat} (h_rz : ∀ (a0 : State) (a1 : Nat) (a2 : Nat) (a3 : Nat), Keep qk a0 = true → Keep qk (rz a0 a1 a2 a3) = true) (h_s : Keep qk s = true) : Keep qk (raiseBody rz forced s id inst datum) = true := by
  unfold raiseBody
  repeat' first
    | with_reducible assumption
    | with_reducible intro _
    | with_reducible apply h_rz
    | with_reducible apply of_pw
    | with_reducible apply compareWord_wf
    | with_reducible apply latch_wf
    | with_reducible apply reactUnit_wf
    | with_reducible apply reactCarry_wf
    | with_reducible apply wf_ite
    | simp only [wf_mk]
    | with_reducible apply keeps_of
    | (extract_lets x; first | (refine wf_cut (Keep qk x = true) ?_ ?_; focus (subst x); rotate_left; focus (intro hx; generalize x = y at hx ⊢)) | skip)

theorem raiseN_wf {qk : Kept} : ∀ {n : Nat} {x : Bool} {s : State} {a b c : Nat}, Keep qk s = true → Keep qk (raiseN n x s a b c) = true
  | 0, x, s, a, b, c, h => latch_wf h
  | n + 1, x, s, a, b, c, h => wf_ite (raiseBody_wf (fun _ _ _ _ ht => raiseN_wf ht) h) h

theorem raise_wf {qk : Kept} {s : State} {id inst d : Nat} (h_s : Keep qk s = true) : Keep qk (raise s id inst d) = true := by
  unfold raise
  repeat' first
    | with_reducible assumption
    | with_reducible intro _
    | with_reducible apply hold_wf
    | with_reducible apply raiseN_wf
    | with_reducible apply wf_ite
    | simp only [wf_mk]
    | with_reducible apply keeps_of
    | (extract_lets x; first | (refine wf_cut (Keep qk x = true) ?_ ?_; focus (subst x); rotate_left; focus (intro hx; generalize x = y at hx ⊢)) | skip)
    | split

theorem raiseForced_wf {qk : Kept} {s : State} {id inst d : Nat} (h_s : Keep qk s = true) : Keep qk (raiseForced s id inst d) = true := by
  unfold raiseForced
  repeat' first
    | with_reducible assumption
    | with_reducible intro _
    | with_reducible apply raiseN_wf
    | simp only [wf_mk]
    | with_reducible apply keeps_of
    | (extract_lets x; first | (refine wf_cut (Keep qk x = true) ?_ ?_; focus (subst x); rotate_left; focus (intro hx; generalize x = y at hx ⊢)) | skip)

theorem gatherRaises_wf {qk : Kept} {s : State} (h_s : Keep qk s = true) : Keep qk (gatherRaises s) = true := by
  unfold gatherRaises
  repeat' first
    | with_reducible assumption
    | with_reducible intro _
    | simp only [wf_mk]
    | with_reducible apply keeps_of
    | (extract_lets x; first | (refine wf_cut (Keep qk x = true) ?_ ?_; focus (subst x); rotate_left; focus (intro hx; generalize x = y at hx ⊢)) | skip)

theorem flushRaises_wf {qk : Kept} {s : State} (h_s : Keep qk s = true) : Keep qk (flushRaises s) = true := by
  unfold flushRaises
  repeat' first
    | with_reducible assumption
    | with_reducible intro _
    | with_reducible apply recordEvent_wf
    | with_reducible apply raiseBody_wf
    | with_reducible apply raiseN_wf
    | with_reducible apply wf_forEach
    | simp only [wf_mk]
    | with_reducible apply keeps_of
    | (extract_lets x; first | (refine wf_cut (Keep qk x = true) ?_ ?_; focus (subst x); rotate_left; focus (intro hx; generalize x = y at hx ⊢)) | skip)
    | split

theorem abortTally_wf {qk : Kept} {s : State} {id cause : Nat} (h_s : Keep qk s = true) : Keep qk (abortTally s id cause) = true := by
  unfold abortTally
  repeat' first
    | with_reducible assumption
    | with_reducible intro _
    | with_reducible apply dropTallyWith_wf
    | with_reducible apply raise_wf
    | simp only [wf_mk]
    | with_reducible apply keeps_of
    | (extract_lets x; first | (refine wf_cut (Keep qk x = true) ?_ ?_; focus (subst x); rotate_left; focus (intro hx; generalize x = y at hx ⊢)) | skip)

theorem portLeft_wf {qk : Kept} {s : State} {p : Nat} (h_s : Keep qk s = true) : Keep qk (portLeft s p) = true := by
  unfold portLeft
  repeat' first
    | with_reducible assumption
    | with_reducible intro _
    | with_reducible apply portLeftWith_wf
    | with_reducible apply raise_wf
    | simp only [wf_mk]
    | with_reducible apply keeps_of
    | (extract_lets x; first | (refine wf_cut (Keep qk x = true) ?_ ?_; focus (subst x); rotate_left; focus (intro hx; generalize x = y at hx ⊢)) | skip)

theorem followLock_wf {qk : Kept} {s : State} {n : Nat} (h_s : Keep qk s = true) : Keep qk (followLock s n) = true := by
  unfold followLock
  repeat' first
    | with_reducible assumption
    | with_reducible intro _
    | with_reducible apply followLockWith_wf
    | with_reducible apply raise_wf
    | simp only [wf_mk]
    | with_reducible apply keeps_of
    | (extract_lets x; first | (refine wf_cut (Keep qk x = true) ?_ ?_; focus (subst x); rotate_left; focus (intro hx; generalize x = y at hx ⊢)) | skip)

theorem restartServo_wf {qk : Kept} {s : State} (h_s : Keep qk s = true) : Keep qk (restartServo s) = true := by
  unfold restartServo
  repeat' first
    | with_reducible assumption
    | with_reducible intro _
    | with_reducible apply wr_wf
    | with_reducible apply rput_wf
    | with_reducible apply wf_forEach
    | simp only [wf_mk]
    | with_reducible apply keeps_of
    | (extract_lets x; first | (refine wf_cut (Keep qk x = true) ?_ ?_; focus (subst x); rotate_left; focus (intro hx; generalize x = y at hx ⊢)) | skip)

theorem restartSupervisor_wf {qk : Kept} {s : State} {id : Nat} (h_s : Keep qk s = true) : Keep qk (restartSupervisor s id) = true := by
  unfold restartSupervisor
  repeat' first
    | with_reducible assumption
    | with_reducible intro _
    | with_reducible apply raise_wf
    | with_reducible apply restartServo_wf
    | with_reducible apply discover_wf
    | simp only [wf_mk]
    | with_reducible apply keeps_of
    | (extract_lets x; first | (refine wf_cut (Keep qk x = true) ?_ ?_; focus (subst x); rotate_left; focus (intro hx; generalize x = y at hx ⊢)) | skip)

theorem holdHifError_wf {qk : Kept} {s : State} {qp kind addr : Nat} (h_s : Keep qk s = true) : Keep qk (holdHifError s qp kind addr) = true := by
  unfold holdHifError
  repeat' first
    | with_reducible assumption
    | with_reducible intro _
    | with_reducible apply wr_wf
    | with_reducible apply rput_wf
    | with_reducible apply rset_wf
    | with_reducible apply wf_ite
    | simp only [wf_mk]
    | with_reducible apply keeps_of
    | (extract_lets x; first | (refine wf_cut (Keep qk x = true) ?_ ?_; focus (subst x); rotate_left; focus (intro hx; generalize x = y at hx ⊢)) | skip)

theorem inputFailed_wf {qk : Kept} {s : State} {d : DescRef} {addr : Nat} (h_s : Keep qk s = true) : Keep qk (inputFailed s d addr) = true := by
  unfold inputFailed
  repeat' first
    | with_reducible assumption
    | with_reducible intro _
    | with_reducible apply finish_wf
    | with_reducible apply raise_wf
    | with_reducible apply holdHifError_wf
    | simp only [wf_mk]
    | with_reducible apply keeps_of
    | (extract_lets x; first | (refine wf_cut (Keep qk x = true) ?_ ?_; focus (subst x); rotate_left; focus (intro hx; generalize x = y at hx ⊢)) | skip)

theorem withInput_wf {qk : Kept} {s : State} {d : DescRef} {addr n : Nat} {data : Option (List Byte)} {f : State → List Byte → State} (h_s : Keep qk s = true) (h_f : ∀ (a0 : State) (a1 : List Byte), Keep qk a0 = true → Keep qk (f a0 a1) = true) : Keep qk (withInput s d addr n data f) = true := by
  unfold withInput
  repeat' first
    | with_reducible assumption
    | with_reducible intro _
    | with_reducible apply h_f
    | with_reducible apply of_pw
    | with_reducible apply inputFailed_wf
    | simp only [wf_mk]
    | with_reducible apply keeps_of
    | (extract_lets x; first | (refine wf_cut (Keep qk x = true) ?_ ?_; focus (subst x); rotate_left; focus (intro hx; generalize x = y at hx ⊢)) | skip)
    | split

end Sys2Proof.Machine
end

