-- ==== Sys2Proof/Laws/KeepsBus.lean ====
section
/-! SUPPORT. The operations of Machine/Bus.lean keep what `Keep` names. -/

namespace Sys2Proof.Machine
open Sys2Proof
set_option linter.all false
set_option simprocs false

theorem captureError_wf {qk : Kept} {s : State} {m t kind : Nat} (h_s : Keep qk s = true) : Keep qk (captureError s m t kind) = true := by
  unfold captureError
  repeat' first
    | with_reducible assumption
    | with_reducible intro _
    | with_reducible apply rput_wf
    | with_reducible apply rset_wf
    | with_reducible apply radd_wf
    | with_reducible apply wf_ite
    | simp only [wf_mk]
    | with_reducible apply keeps_of
    | (extract_lets x; first | (refine wf_cut (Keep qk x = true) ?_ ?_; focus (subst x); rotate_left; focus (intro hx; generalize x = y at hx ⊢)) | skip)

theorem requestFails_wf {qk : Kept} {s : State} {m t addr kind : Nat} (h_s : Keep qk s = true) : Keep qk (requestFails s m t addr kind) = true := by
  unfold requestFails
  repeat' first
    | with_reducible assumption
    | with_reducible intro _
    | with_reducible apply raise_wf
    | with_reducible apply captureError_wf
    | with_reducible apply wf_ite
    | simp only [wf_mk]
    | with_reducible apply keeps_of
    | (extract_lets x; first | (refine wf_cut (Keep qk x = true) ?_ ?_; focus (subst x); rotate_left; focus (intro hx; generalize x = y at hx ⊢)) | skip)

theorem onBar_wf {qk : Kept} {s : State} {a : Nat} {f : State → State} (h_s : Keep qk s = true) (h_f : ∀ (a0 : State), Keep qk a0 = true → Keep qk (f a0) = true) : OW qk (onBar s a f) := by
  unfold onBar
  repeat' first
    | with_reducible assumption
    | with_reducible intro _
    | with_reducible apply h_f
    | with_reducible apply of_pw
    | with_reducible apply onHost_wf
    | with_reducible apply requestFails_wf
    | with_reducible apply ow_ite
    | with_reducible apply wf_ite
    | with_reducible apply ow_next
    | simp only [wf_mk]
    | with_reducible apply keeps_of
    | (extract_lets x; first | (refine wf_cut (Keep qk x = true) ?_ ?_; focus (subst x); rotate_left; focus (intro hx; generalize x = y at hx ⊢)) | skip)

end Sys2Proof.Machine
end

