-- ==== Sys2Proof/Laws/KeepsFieldBase.lean ====
section
/-! SUPPORT. The operations of Machine/FieldBase.lean keep what `Keep` names. -/

namespace Sys2Proof.Machine
open Sys2Proof
set_option linter.all false
set_option simprocs false

theorem setDie_wf {qk : Kept} {s : State} {d : Die} {x : FieldDie} (h_s : Keep qk s = true) : Keep qk (setDie s d x) = true := by
  unfold setDie
  repeat' first
    | with_reducible assumption
    | with_reducible intro _
    | simp only [wf_mk]
    | with_reducible apply keeps_of
    | (extract_lets x; first | (refine wf_cut (Keep qk x = true) ?_ ?_; focus (subst x); rotate_left; focus (intro hx; generalize x = y at hx ⊢)) | skip)
    | split

theorem fwr_wf {qk : Kept} {s : State} {d : Die} {a : Nat} {w : Word} (h_s : Keep qk s = true) : Keep qk (fwr s d a w) = true := by
  unfold fwr
  repeat' first
    | with_reducible assumption
    | with_reducible intro _
    | with_reducible apply setDie_wf
    | simp only [wf_mk]
    | with_reducible apply keeps_of
    | (extract_lets x; first | (refine wf_cut (Keep qk x = true) ?_ ?_; focus (subst x); rotate_left; focus (intro hx; generalize x = y at hx ⊢)) | skip)

theorem fput_wf {qk : Kept} {s : State} {d : Die} {a : Nat} {f : Fld} {v : Nat} (h_s : Keep qk s = true) : Keep qk (fput s d a f v) = true := by
  unfold fput
  repeat' first
    | with_reducible assumption
    | with_reducible intro _
    | with_reducible apply fwr_wf
    | simp only [wf_mk]
    | with_reducible apply keeps_of
    | (extract_lets x; first | (refine wf_cut (Keep qk x = true) ?_ ?_; focus (subst x); rotate_left; focus (intro hx; generalize x = y at hx ⊢)) | skip)

theorem fputI_wf {qk : Kept} {s : State} {d : Die} {a : Nat} {f : Fld} {v : Int} (h_s : Keep qk s = true) : Keep qk (fputI s d a f v) = true := by
  unfold fputI
  repeat' first
    | with_reducible assumption
    | with_reducible intro _
    | with_reducible apply fput_wf
    | simp only [wf_mk]
    | with_reducible apply keeps_of
    | (extract_lets x; first | (refine wf_cut (Keep qk x = true) ?_ ?_; focus (subst x); rotate_left; focus (intro hx; generalize x = y at hx ⊢)) | skip)

theorem fbit_wf {qk : Kept} {s : State} {d : Die} {a : Nat} {f : Fld} {b : Bool} (h_s : Keep qk s = true) : Keep qk (fbit s d a f b) = true := by
  unfold fbit
  repeat' first
    | with_reducible assumption
    | with_reducible intro _
    | with_reducible apply fput_wf
    | simp only [wf_mk]
    | with_reducible apply keeps_of
    | (extract_lets x; first | (refine wf_cut (Keep qk x = true) ?_ ?_; focus (subst x); rotate_left; focus (intro hx; generalize x = y at hx ⊢)) | skip)

theorem fadd_wf {qk : Kept} {s : State} {d : Die} {a : Nat} {f : Fld} {n : Nat} (h_s : Keep qk s = true) : Keep qk (fadd s d a f n) = true := by
  unfold fadd
  repeat' first
    | with_reducible assumption
    | with_reducible intro _
    | with_reducible apply fput_wf
    | simp only [wf_mk]
    | with_reducible apply keeps_of
    | (extract_lets x; first | (refine wf_cut (Keep qk x = true) ?_ ?_; focus (subst x); rotate_left; focus (intro hx; generalize x = y at hx ⊢)) | skip)

theorem setFch_wf {qk : Kept} {s : State} {d : Die} {c : Nat} {x : FieldChan} (h_s : Keep qk s = true) : Keep qk (setFch s d c x) = true := by
  unfold setFch
  repeat' first
    | with_reducible assumption
    | with_reducible intro _
    | with_reducible apply setDie_wf
    | simp only [wf_mk]
    | with_reducible apply keeps_of
    | (extract_lets x; first | (refine wf_cut (Keep qk x = true) ?_ ?_; focus (subst x); rotate_left; focus (intro hx; generalize x = y at hx ⊢)) | skip)

theorem setFldState_wf {qk : Kept} {s : State} {d : Die} {st : Nat} (h_s : Keep qk s = true) : Keep qk (setFldState s d st) = true := by
  unfold setFldState
  repeat' first
    | with_reducible assumption
    | with_reducible intro _
    | with_reducible apply fput_wf
    | simp only [wf_mk]
    | with_reducible apply keeps_of
    | (extract_lets x; first | (refine wf_cut (Keep qk x = true) ?_ ?_; focus (subst x); rotate_left; focus (intro hx; generalize x = y at hx ⊢)) | skip)

theorem setFcState_wf {qk : Kept} {s : State} {d : Die} {c st : Nat} (h_s : Keep qk s = true) : Keep qk (setFcState s d c st) = true := by
  unfold setFcState
  repeat' first
    | with_reducible assumption
    | with_reducible intro _
    | with_reducible apply fput_wf
    | simp only [wf_mk]
    | with_reducible apply keeps_of
    | (extract_lets x; first | (refine wf_cut (Keep qk x = true) ?_ ?_; focus (subst x); rotate_left; focus (intro hx; generalize x = y at hx ⊢)) | skip)

theorem setPwState_wf {qk : Kept} {s : State} {d : Die} {c st : Nat} (h_s : Keep qk s = true) : Keep qk (setPwState s d c st) = true := by
  unfold setPwState
  repeat' first
    | with_reducible assumption
    | with_reducible intro _
    | with_reducible apply fput_wf
    | simp only [wf_mk]
    | with_reducible apply keeps_of
    | (extract_lets x; first | (refine wf_cut (Keep qk x = true) ?_ ?_; focus (subst x); rotate_left; focus (intro hx; generalize x = y at hx ⊢)) | skip)

theorem requantWith_wf {qk : Kept} {s : State} {d : Die} {c : Nat} {j : Nat → Nat} (h_s : Keep qk s = true) : Keep qk (requantWith s d c j) = true := by
  unfold requantWith
  repeat' first
    | with_reducible assumption
    | with_reducible intro _
    | with_reducible apply setFch_wf
    | simp only [wf_mk]
    | with_reducible apply keeps_of
    | (extract_lets x; first | (refine wf_cut (Keep qk x = true) ?_ ?_; focus (subst x); rotate_left; focus (intro hx; generalize x = y at hx ⊢)) | skip)
    | split

theorem requantSample_wf {qk : Kept} {s : State} {d : Die} {c : Nat} {w : Word} (h_s : Keep qk s = true) : Keep qk (requantSample s d c w) = true := by
  unfold requantSample
  repeat' first
    | with_reducible assumption
    | with_reducible intro _
    | with_reducible apply setFch_wf
    | with_reducible apply requantWith_wf
    | simp only [wf_mk]
    | with_reducible apply keeps_of
    | (extract_lets x; first | (refine wf_cut (Keep qk x = true) ?_ ?_; focus (subst x); rotate_left; focus (intro hx; generalize x = y at hx ⊢)) | skip)

theorem upSend_wf {qk : Kept} {s : State} {d : Die} {type argA argB : Nat} {payload : List Nat} (h_s : Keep qk s = true) : Keep qk (upSend s d type argA argB payload) = true := by
  unfold upSend
  repeat' first
    | with_reducible assumption
    | with_reducible intro _
    | with_reducible apply sendOut_wf
    | with_reducible apply setDie_wf
    | simp only [wf_mk]
    | with_reducible apply keeps_of
    | (extract_lets x; first | (refine wf_cut (Keep qk x = true) ?_ ?_; focus (subst x); rotate_left; focus (intro hx; generalize x = y at hx ⊢)) | skip)

theorem twinSend_wf {qk : Kept} {s : State} {d : Die} {type argA argB : Nat} {payload : List Nat} (h_s : Keep qk s = true) : Keep qk (twinSend s d type argA argB payload) = true := by
  unfold twinSend
  repeat' first
    | with_reducible assumption
    | with_reducible intro _
    | with_reducible apply sendOut_wf
    | with_reducible apply setDie_wf
    | simp only [wf_mk]
    | with_reducible apply keeps_of
    | (extract_lets x; first | (refine wf_cut (Keep qk x = true) ?_ ?_; focus (subst x); rotate_left; focus (intro hx; generalize x = y at hx ⊢)) | skip)

theorem faultSend_wf {qk : Kept} {s : State} {d : Die} {f : Nat × Nat × Nat × Nat} (h_s : Keep qk s = true) : Keep qk (faultSend s d f) = true := by
  unfold faultSend
  repeat' first
    | with_reducible assumption
    | with_reducible intro _
    | with_reducible apply upSend_wf
    | simp only [wf_mk]
    | with_reducible apply keeps_of
    | (extract_lets x; first | (refine wf_cut (Keep qk x = true) ?_ ?_; focus (subst x); rotate_left; focus (intro hx; generalize x = y at hx ⊢)) | skip)
    | dsimp -zeta only

theorem fldRaise_wf {qk : Kept} {s : State} {d : Die} {idx ch datum : Nat} (h_s : Keep qk s = true) : Keep qk (fldRaise s d idx ch datum) = true := by
  unfold fldRaise
  repeat' first
    | with_reducible assumption
    | with_reducible intro _
    | with_reducible apply setDie_wf
    | with_reducible apply faultSend_wf
    | with_reducible apply wf_ite
    | simp only [wf_mk]
    | with_reducible apply keeps_of
    | (extract_lets x; first | (refine wf_cut (Keep qk x = true) ?_ ?_; focus (subst x); rotate_left; focus (intro hx; generalize x = y at hx ⊢)) | skip)

theorem faultFlush_wf {qk : Kept} {s : State} {d : Die} (h_s : Keep qk s = true) : Keep qk (faultFlush s d) = true := by
  unfold faultFlush
  repeat' first
    | with_reducible assumption
    | with_reducible intro _
    | with_reducible apply setDie_wf
    | with_reducible apply faultSend_wf
    | with_reducible apply fldRaise_wf
    | with_reducible apply wf_forEach
    | with_reducible apply wf_ite
    | simp only [wf_mk]
    | with_reducible apply keeps_of
    | (extract_lets x; first | (refine wf_cut (Keep qk x = true) ?_ ?_; focus (subst x); rotate_left; focus (intro hx; generalize x = y at hx ⊢)) | skip)

theorem ackSend_wf {qk : Kept} {s : State} {d : Die} {ws : List Nat} {result : Nat} (h_s : Keep qk s = true) : Keep qk (ackSend s d ws result) = true := by
  unfold ackSend
  repeat' first
    | with_reducible assumption
    | with_reducible intro _
    | with_reducible apply upSend_wf
    | simp only [wf_mk]
    | with_reducible apply keeps_of
    | (extract_lets x; first | (refine wf_cut (Keep qk x = true) ?_ ?_; focus (subst x); rotate_left; focus (intro hx; generalize x = y at hx ⊢)) | skip)

theorem cutGates_wf {qk : Kept} {s : State} {d : Die} {c : Nat} (h_s : Keep qk s = true) : Keep qk (cutGates s d c) = true := by
  unfold cutGates
  repeat' first
    | with_reducible assumption
    | with_reducible intro _
    | with_reducible apply sendOut_wf
    | with_reducible apply setFch_wf
    | with_reducible apply wf_ite
    | simp only [wf_mk]
    | with_reducible apply keeps_of
    | (extract_lets x; first | (refine wf_cut (Keep qk x = true) ?_ ?_; focus (subst x); rotate_left; focus (intro hx; generalize x = y at hx ⊢)) | skip)

theorem gatesOff_wf {qk : Kept} {s : State} {d : Die} {c : Nat} (h_s : Keep qk s = true) : Keep qk (gatesOff s d c) = true := by
  unfold gatesOff
  repeat' first
    | with_reducible assumption
    | with_reducible intro _
    | with_reducible apply fbit_wf
    | with_reducible apply setFch_wf
    | with_reducible apply cutGates_wf
    | with_reducible apply wf_ite
    | simp only [wf_mk]
    | with_reducible apply keeps_of
    | (extract_lets x; first | (refine wf_cut (Keep qk x = true) ?_ ?_; focus (subst x); rotate_left; focus (intro hx; generalize x = y at hx ⊢)) | skip)

theorem cutGatesAt_wf {qk : Kept} {s : State} {d : Die} {c t : Nat} (h_s : Keep qk s = true) : Keep qk (cutGatesAt s d c t) = true := by
  unfold cutGatesAt
  repeat' first
    | with_reducible assumption
    | with_reducible intro _
    | with_reducible apply setFch_wf
    | with_reducible apply cutGates_wf
    | simp only [wf_mk]
    | with_reducible apply keeps_of
    | (extract_lets x; first | (refine wf_cut (Keep qk x = true) ?_ ?_; focus (subst x); rotate_left; focus (intro hx; generalize x = y at hx ⊢)) | skip)
    | dsimp -zeta only

theorem enterLossSafe_wf {qk : Kept} {s : State} {d : Die} {c : Nat} (h_s : Keep qk s = true) : Keep qk (enterLossSafe s d c) = true := by
  unfold enterLossSafe
  repeat' first
    | with_reducible assumption
    | with_reducible intro _
    | with_reducible apply setFch_wf
    | with_reducible apply setFcState_wf
    | with_reducible apply fldRaise_wf
    | with_reducible apply wf_ite
    | simp only [wf_mk]
    | with_reducible apply keeps_of
    | (extract_lets x; first | (refine wf_cut (Keep qk x = true) ?_ ?_; focus (subst x); rotate_left; focus (intro hx; generalize x = y at hx ⊢)) | skip)

theorem safeNow_wf {qk : Kept} {s : State} {d : Die} (h_s : Keep qk s = true) : Keep qk (safeNow s d) = true := by
  unfold safeNow
  repeat' first
    | with_reducible assumption
    | with_reducible intro _
    | with_reducible apply gatesOff_wf
    | with_reducible apply enterLossSafe_wf
    | with_reducible apply wf_forEach
    | simp only [wf_mk]
    | with_reducible apply keeps_of
    | (extract_lets x; first | (refine wf_cut (Keep qk x = true) ?_ ?_; focus (subst x); rotate_left; focus (intro hx; generalize x = y at hx ⊢)) | skip)

theorem showJ_wf {qk : Kept} {s : State} {d : Die} (h_s : Keep qk s = true) : Keep qk (showJ s d) = true := by
  unfold showJ
  repeat' first
    | with_reducible assumption
    | with_reducible intro _
    | with_reducible apply fput_wf
    | simp only [wf_mk]
    | with_reducible apply keeps_of
    | (extract_lets x; first | (refine wf_cut (Keep qk x = true) ?_ ?_; focus (subst x); rotate_left; focus (intro hx; generalize x = y at hx ⊢)) | skip)

theorem enterActive_wf {qk : Kept} {s : State} {d : Die} (h_s : Keep qk s = true) : Keep qk (enterActive s d) = true := by
  unfold enterActive
  repeat' first
    | with_reducible assumption
    | with_reducible intro _
    | with_reducible apply setDie_wf
    | with_reducible apply setFldState_wf
    | with_reducible apply requantWith_wf
    | with_reducible apply showJ_wf
    | with_reducible apply wf_forEach
    | with_reducible apply wf_ite
    | simp only [wf_mk]
    | with_reducible apply keeps_of
    | (extract_lets x; first | (refine wf_cut (Keep qk x = true) ?_ ?_; focus (subst x); rotate_left; focus (intro hx; generalize x = y at hx ⊢)) | skip)

theorem enterActiveAt_wf {qk : Kept} {s : State} {d : Die} (h_s : Keep qk s = true) : Keep qk (enterActiveAt s d) = true := by
  unfold enterActiveAt
  repeat' first
    | with_reducible assumption
    | with_reducible intro _
    | with_reducible apply setDie_wf
    | with_reducible apply setFldState_wf
    | with_reducible apply showJ_wf
    | simp only [wf_mk]
    | with_reducible apply keeps_of
    | (extract_lets x; first | (refine wf_cut (Keep qk x = true) ?_ ?_; focus (subst x); rotate_left; focus (intro hx; generalize x = y at hx ⊢)) | skip)

theorem setPeriod_wf {qk : Kept} {s : State} {d : Die} {m : Nat} (h_s : Keep qk s = true) : Keep qk (setPeriod s d m) = true := by
  unfold setPeriod
  repeat' first
    | with_reducible assumption
    | with_reducible intro _
    | with_reducible apply setDie_wf
    | with_reducible apply showJ_wf
    | simp only [wf_mk]
    | with_reducible apply keeps_of
    | (extract_lets x; first | (refine wf_cut (Keep qk x = true) ?_ ?_; focus (subst x); rotate_left; focus (intro hx; generalize x = y at hx ⊢)) | skip)

theorem leaveSafe_wf {qk : Kept} {s : State} {d : Die} (h_s : Keep qk s = true) : Keep qk (leaveSafe s d) = true := by
  unfold leaveSafe
  repeat' first
    | with_reducible assumption
    | with_reducible intro _
    | with_reducible apply setFch_wf
    | with_reducible apply setFldState_wf
    | with_reducible apply setFcState_wf
    | with_reducible apply enterActive_wf
    | with_reducible apply wf_forEach
    | with_reducible apply wf_ite
    | simp only [wf_mk]
    | with_reducible apply keeps_of
    | (extract_lets x; first | (refine wf_cut (Keep qk x = true) ?_ ?_; focus (subst x); rotate_left; focus (intro hx; generalize x = y at hx ⊢)) | skip)

theorem sckFollow_wf {qk : Kept} {s u : State} {d : Die} (h_s : Keep qk s = true) (h_u : Keep qk u = true) : Keep qk (sckFollow s u d) = true := by
  unfold sckFollow
  repeat' first
    | with_reducible assumption
    | with_reducible intro _
    | with_reducible apply sendOut_wf
    | with_reducible apply wf_ite
    | simp only [wf_mk]
    | with_reducible apply keeps_of
    | (extract_lets x; first | (refine wf_cut (Keep qk x = true) ?_ ?_; focus (subst x); rotate_left; focus (intro hx; generalize x = y at hx ⊢)) | skip)

theorem twinStatusSend_wf {qk : Kept} {s : State} {d : Die} (h_s : Keep qk s = true) : Keep qk (twinStatusSend s d) = true := by
  unfold twinStatusSend
  repeat' first
    | with_reducible assumption
    | with_reducible intro _
    | with_reducible apply twinSend_wf
    | simp only [wf_mk]
    | with_reducible apply keeps_of
    | (extract_lets x; first | (refine wf_cut (Keep qk x = true) ?_ ?_; focus (subst x); rotate_left; focus (intro hx; generalize x = y at hx ⊢)) | skip)

theorem settleDie_wf {qk : Kept} {s u : State} {d : Die} (h_s : Keep qk s = true) (h_u : Keep qk u = true) : Keep qk (settleDie s u d) = true := by
  unfold settleDie
  repeat' first
    | with_reducible assumption
    | with_reducible intro _
    | with_reducible apply faultFlush_wf
    | with_reducible apply sckFollow_wf
    | with_reducible apply twinStatusSend_wf
    | with_reducible apply wf_ite
    | simp only [wf_mk]
    | with_reducible apply keeps_of
    | (extract_lets x; first | (refine wf_cut (Keep qk x = true) ?_ ?_; focus (subst x); rotate_left; focus (intro hx; generalize x = y at hx ⊢)) | skip)

theorem onDie_wf {qk : Kept} {s : State} {d : Die} {f : State → State} (h_s : Keep qk s = true) (h_f : ∀ (a0 : State), Keep qk a0 = true → Keep qk (f a0) = true) : OW qk (onDie s d f) := by
  unfold onDie
  repeat' first
    | with_reducible assumption
    | with_reducible intro _
    | with_reducible apply h_f
    | with_reducible apply of_pw
    | with_reducible apply settleDie_wf
    | with_reducible apply ow_ite
    | with_reducible apply wf_ite
    | with_reducible apply ow_next
    | simp only [wf_mk]
    | with_reducible apply keeps_of
    | (extract_lets x; first | (refine wf_cut (Keep qk x = true) ?_ ?_; focus (subst x); rotate_left; focus (intro hx; generalize x = y at hx ⊢)) | skip)

end Sys2Proof.Machine
end

