-- ==== Sys2Proof/Laws/KeepsMgt.lean ====
section
/-! SUPPORT. The operations of Machine/Mgt.lean keep what `Keep` names. -/

namespace Sys2Proof.Machine
open Sys2Proof
set_option linter.all false
set_option simprocs false

theorem onMgt_wf {qk : Kept} {s : State} {f : State → State} (h_s : Keep qk s = true) (h_f : ∀ (a0 : State), Keep qk a0 = true → Keep qk (f a0) = true) : OW qk (onMgt s f) := by
  unfold onMgt
  repeat' first
    | with_reducible assumption
    | with_reducible intro _
    | with_reducible apply h_f
    | with_reducible apply of_pw
    | with_reducible apply ow_ite
    | with_reducible apply wf_ite
    | with_reducible apply ow_next
    | simp only [wf_mk]
    | with_reducible apply keeps_of
    | (extract_lets x; first | (refine wf_cut (Keep qk x = true) ?_ ?_; focus (subst x); rotate_left; focus (intro hx; generalize x = y at hx ⊢)) | skip)

theorem setMgt_wf {qk : Kept} {s : State} {m : MgtState} (h_s : Keep qk s = true) : Keep qk (setMgt s m) = true := by
  unfold setMgt
  repeat' first
    | with_reducible assumption
    | with_reducible intro _
    | simp only [wf_mk]
    | with_reducible apply keeps_of
    | (extract_lets x; first | (refine wf_cut (Keep qk x = true) ?_ ?_; focus (subst x); rotate_left; focus (intro hx; generalize x = y at hx ⊢)) | skip)

theorem putPage_wf {qk : Kept} {s : State} {i : Nat} {bs : List Byte} (h_s : Keep qk s = true) : Keep qk (putPage s i bs) = true := by
  unfold putPage
  repeat' first
    | with_reducible assumption
    | with_reducible intro _
    | with_reducible apply rput_wf
    | with_reducible apply wf_foldl
    | with_reducible apply wf_foldl1
    | simp only [wf_mk]
    | with_reducible apply keeps_of
    | (extract_lets x; first | (refine wf_cut (Keep qk x = true) ?_ ?_; focus (subst x); rotate_left; focus (intro hx; generalize x = y at hx ⊢)) | skip)
    | dsimp -zeta only
    | split

theorem endTransfer_wf {qk : Kept} {s : State} (h_s : Keep qk s = true) : Keep qk (endTransfer s) = true := by
  unfold endTransfer
  repeat' first
    | with_reducible assumption
    | with_reducible intro _
    | with_reducible apply rput_wf
    | with_reducible apply rclr_wf
    | with_reducible apply recordEvent_wf
    | with_reducible apply setMgt_wf
    | simp only [wf_mk]
    | with_reducible apply keeps_of
    | (extract_lets x; first | (refine wf_cut (Keep qk x = true) ?_ ?_; focus (subst x); rotate_left; focus (intro hx; generalize x = y at hx ⊢)) | skip)
    | split

theorem busTaken_wf {qk : Kept} {s : State} (h_s : Keep qk s = true) : Keep qk (busTaken s) = true := by
  unfold busTaken
  repeat' first
    | with_reducible assumption
    | with_reducible intro _
    | with_reducible apply setMgt_wf
    | simp only [wf_mk]
    | with_reducible apply keeps_of
    | (extract_lets x; first | (refine wf_cut (Keep qk x = true) ?_ ?_; focus (subst x); rotate_left; focus (intro hx; generalize x = y at hx ⊢)) | skip)

theorem busIdle_wf {qk : Kept} {s : State} (h_s : Keep qk s = true) : Keep qk (busIdle s) = true := by
  unfold busIdle
  repeat' first
    | with_reducible assumption
    | with_reducible intro _
    | with_reducible apply setMgt_wf
    | simp only [wf_mk]
    | with_reducible apply keeps_of
    | (extract_lets x; first | (refine wf_cut (Keep qk x = true) ?_ ?_; focus (subst x); rotate_left; focus (intro hx; generalize x = y at hx ⊢)) | skip)

theorem bytePassed_wf {qk : Kept} {s : State} (h_s : Keep qk s = true) : Keep qk (bytePassed s) = true := by
  unfold bytePassed
  repeat' first
    | with_reducible assumption
    | with_reducible intro _
    | with_reducible apply setMgt_wf
    | simp only [wf_mk]
    | with_reducible apply keeps_of
    | (extract_lets x; first | (refine wf_cut (Keep qk x = true) ?_ ?_; focus (subst x); rotate_left; focus (intro hx; generalize x = y at hx ⊢)) | skip)

theorem mgtAddress_wf {qk : Kept} {s : State} {a : Nat} {read : Bool} (h_s : Keep qk s = true) : Keep qk (mgtAddress s a read) = true := by
  unfold mgtAddress
  repeat' first
    | with_reducible assumption
    | with_reducible intro _
    | with_reducible apply rput_wf
    | with_reducible apply rset_wf
    | with_reducible apply sendOut_wf
    | with_reducible apply latch_wf
    | with_reducible apply setMgt_wf
    | with_reducible apply endTransfer_wf
    | with_reducible apply busTaken_wf
    | with_reducible apply wf_ite
    | simp only [wf_mk]
    | with_reducible apply keeps_of
    | (extract_lets x; first | (refine wf_cut (Keep qk x = true) ?_ ?_; focus (subst x); rotate_left; focus (intro hx; generalize x = y at hx ⊢)) | skip)

theorem execMgtAddress_wf {qk : Kept} {a : Fin 128} {read : Bool} {s : State} (h_s : Keep qk s = true) : OW qk (execMgtAddress a read s) := by
  unfold execMgtAddress
  repeat' first
    | with_reducible assumption
    | with_reducible intro _
    | with_reducible apply onMgt_wf
    | with_reducible apply mgtAddress_wf
    | with_reducible apply ow_next
    | simp only [wf_mk]
    | with_reducible apply keeps_of
    | (extract_lets x; first | (refine wf_cut (Keep qk x = true) ?_ ?_; focus (subst x); rotate_left; focus (intro hx; generalize x = y at hx ⊢)) | skip)

theorem mgtStore_wf {qk : Kept} {s : State} {n : Nat} {gone : Bool} {first : Option Nat} {b : Byte} (h_s : Keep qk s = true) : Keep qk (mgtStore s n gone first b) = true := by
  unfold mgtStore
  repeat' first
    | with_reducible assumption
    | with_reducible intro _
    | with_reducible apply rput_wf
    | with_reducible apply rset_wf
    | with_reducible apply raise_wf
    | with_reducible apply setMgt_wf
    | with_reducible apply wf_ite
    | simp only [wf_mk]
    | with_reducible apply keeps_of
    | (extract_lets x; first | (refine wf_cut (Keep qk x = true) ?_ ?_; focus (subst x); rotate_left; focus (intro hx; generalize x = y at hx ⊢)) | skip)

theorem execMgtWriteByte_wf {qk : Kept} {b : Byte} {s : State} (h_s : Keep qk s = true) : OW qk (execMgtWriteByte b s) := by
  unfold execMgtWriteByte
  repeat' first
    | with_reducible assumption
    | with_reducible intro _
    | with_reducible apply sendOut_wf
    | with_reducible apply onMgt_wf
    | with_reducible apply setMgt_wf
    | with_reducible apply bytePassed_wf
    | with_reducible apply mgtStore_wf
    | with_reducible apply ow_ite
    | with_reducible apply wf_ite
    | with_reducible apply ow_next
    | simp only [wf_mk]
    | with_reducible apply keeps_of
    | (extract_lets x; first | (refine wf_cut (Keep qk x = true) ?_ ?_; focus (subst x); rotate_left; focus (intro hx; generalize x = y at hx ⊢)) | skip)
    | split

theorem execMgtReadByte_wf {qk : Kept} {nack : Bool} {s : State} (h_s : Keep qk s = true) : OW qk (execMgtReadByte nack s) := by
  unfold execMgtReadByte
  repeat' first
    | with_reducible assumption
    | with_reducible intro _
    | with_reducible apply sendOut_wf
    | with_reducible apply onMgt_wf
    | with_reducible apply setMgt_wf
    | with_reducible apply endTransfer_wf
    | with_reducible apply bytePassed_wf
    | with_reducible apply ow_ite
    | with_reducible apply wf_ite
    | with_reducible apply ow_next
    | simp only [wf_mk]
    | with_reducible apply keeps_of
    | (extract_lets x; first | (refine wf_cut (Keep qk x = true) ?_ ?_; focus (subst x); rotate_left; focus (intro hx; generalize x = y at hx ⊢)) | skip)
    | split

theorem execMgtStop_wf {qk : Kept} {s : State} (h_s : Keep qk s = true) : OW qk (execMgtStop s) := by
  unfold execMgtStop
  repeat' first
    | with_reducible assumption
    | with_reducible intro _
    | with_reducible apply onMgt_wf
    | with_reducible apply endTransfer_wf
    | with_reducible apply busIdle_wf
    | with_reducible apply ow_next
    | simp only [wf_mk]
    | with_reducible apply keeps_of
    | (extract_lets x; first | (refine wf_cut (Keep qk x = true) ?_ ?_; focus (subst x); rotate_left; focus (intro hx; generalize x = y at hx ⊢)) | skip)

theorem mgtError_wf {qk : Kept} {s : State} {id : Nat} (h_s : Keep qk s = true) : Keep qk (mgtError s id) = true := by
  unfold mgtError
  repeat' first
    | with_reducible assumption
    | with_reducible intro _
    | with_reducible apply radd_wf
    | with_reducible apply raise_wf
    | with_reducible apply endTransfer_wf
    | with_reducible apply wf_ite
    | simp only [wf_mk]
    | with_reducible apply keeps_of
    | (extract_lets x; first | (refine wf_cut (Keep qk x = true) ?_ ?_; focus (subst x); rotate_left; focus (intro hx; generalize x = y at hx ⊢)) | skip)

theorem execMgtBusError_wf {qk : Kept} {s : State} (h_s : Keep qk s = true) : OW qk (execMgtBusError s) := by
  unfold execMgtBusError
  repeat' first
    | with_reducible assumption
    | with_reducible intro _
    | with_reducible apply onMgt_wf
    | with_reducible apply busTaken_wf
    | with_reducible apply mgtError_wf
    | with_reducible apply ow_next
    | simp only [wf_mk]
    | with_reducible apply keeps_of
    | (extract_lets x; first | (refine wf_cut (Keep qk x = true) ?_ ?_; focus (subst x); rotate_left; focus (intro hx; generalize x = y at hx ⊢)) | skip)

theorem execMgtSdaTimeout_wf {qk : Kept} {s : State} (h_s : Keep qk s = true) : OW qk (execMgtSdaTimeout s) := by
  unfold execMgtSdaTimeout
  repeat' first
    | with_reducible assumption
    | with_reducible intro _
    | with_reducible apply onMgt_wf
    | with_reducible apply mgtError_wf
    | with_reducible apply ow_ite
    | with_reducible apply wf_ite
    | with_reducible apply ow_next
    | simp only [wf_mk]
    | with_reducible apply keeps_of
    | (extract_lets x; first | (refine wf_cut (Keep qk x = true) ?_ ?_; focus (subst x); rotate_left; focus (intro hx; generalize x = y at hx ⊢)) | skip)

theorem execMgtAttentionPulse_wf {qk : Kept} {s : State} (h_s : Keep qk s = true) : OW qk (execMgtAttentionPulse s) := by
  unfold execMgtAttentionPulse
  repeat' first
    | with_reducible assumption
    | with_reducible intro _
    | with_reducible apply sendOut_wf
    | with_reducible apply onMgt_wf
    | with_reducible apply setMgt_wf
    | with_reducible apply ow_ite
    | with_reducible apply wf_ite
    | with_reducible apply ow_next
    | simp only [wf_mk]
    | with_reducible apply keeps_of
    | (extract_lets x; first | (refine wf_cut (Keep qk x = true) ?_ ?_; focus (subst x); rotate_left; focus (intro hx; generalize x = y at hx ⊢)) | skip)

theorem pulseEnd_wf {qk : Kept} {s : State} (h_s : Keep qk s = true) : Keep qk (pulseEnd s) = true := by
  unfold pulseEnd
  repeat' first
    | with_reducible assumption
    | with_reducible intro _
    | with_reducible apply rset_wf
    | with_reducible apply rclr_wf
    | with_reducible apply sendOut_wf
    | with_reducible apply mgtRequest_wf
    | with_reducible apply recordEvent_wf
    | with_reducible apply setMgt_wf
    | with_reducible apply busIdle_wf
    | with_reducible apply wf_ite
    | simp only [wf_mk]
    | with_reducible apply keeps_of
    | (extract_lets x; first | (refine wf_cut (Keep qk x = true) ?_ ?_; focus (subst x); rotate_left; focus (intro hx; generalize x = y at hx ⊢)) | skip)

theorem execMgtPulseEnd_wf {qk : Kept} {s : State} (h_s : Keep qk s = true) : OW qk (execMgtPulseEnd s) := by
  unfold execMgtPulseEnd
  repeat' first
    | with_reducible assumption
    | with_reducible intro _
    | with_reducible apply onMgt_wf
    | with_reducible apply pulseEnd_wf
    | with_reducible apply ow_ite
    | with_reducible apply wf_ite
    | with_reducible apply ow_next
    | simp only [wf_mk]
    | with_reducible apply keeps_of
    | (extract_lets x; first | (refine wf_cut (Keep qk x = true) ?_ ?_; focus (subst x); rotate_left; focus (intro hx; generalize x = y at hx ⊢)) | skip)
    | split

theorem execMgtPulseAbandon_wf {qk : Kept} {s : State} (h_s : Keep qk s = true) : OW qk (execMgtPulseAbandon s) := by
  unfold execMgtPulseAbandon
  repeat' first
    | with_reducible assumption
    | with_reducible intro _
    | with_reducible apply rset_wf
    | with_reducible apply radd_wf
    | with_reducible apply sendOut_wf
    | with_reducible apply raise_wf
    | with_reducible apply onMgt_wf
    | with_reducible apply setMgt_wf
    | with_reducible apply busTaken_wf
    | with_reducible apply ow_ite
    | with_reducible apply wf_ite
    | with_reducible apply ow_next
    | simp only [wf_mk]
    | with_reducible apply keeps_of
    | (extract_lets x; first | (refine wf_cut (Keep qk x = true) ?_ ?_; focus (subst x); rotate_left; focus (intro hx; generalize x = y at hx ⊢)) | skip)

theorem execMgtAttnRepeat_wf {qk : Kept} {s : State} (h_s : Keep qk s = true) : OW qk (execMgtAttnRepeat s) := by
  unfold execMgtAttnRepeat
  repeat' first
    | with_reducible assumption
    | with_reducible intro _
    | with_reducible apply mgtRequest_wf
    | with_reducible apply onMgt_wf
    | with_reducible apply setMgt_wf
    | with_reducible apply ow_ite
    | with_reducible apply wf_ite
    | with_reducible apply ow_next
    | simp only [wf_mk]
    | with_reducible apply keeps_of
    | (extract_lets x; first | (refine wf_cut (Keep qk x = true) ?_ ?_; focus (subst x); rotate_left; focus (intro hx; generalize x = y at hx ⊢)) | skip)

theorem hostMgtAttnGo_wf {qk : Kept} {w : Word} {s : State} (h_s : Keep qk s = true) : Keep qk (hostMgtAttnGo w s) = true := by
  unfold hostMgtAttnGo
  repeat' first
    | with_reducible assumption
    | with_reducible intro _
    | with_reducible apply rwrite_wf
    | with_reducible apply mgtCause_wf
    | with_reducible apply wf_ite
    | simp only [wf_mk]
    | with_reducible apply keeps_of
    | (extract_lets x; first | (refine wf_cut (Keep qk x = true) ?_ ?_; focus (subst x); rotate_left; focus (intro hx; generalize x = y at hx ⊢)) | skip)

theorem execMgtAttnGo_wf {qk : Kept} {w : Word} {s : State} (h_s : Keep qk s = true) : OW qk (execMgtAttnGo w s) := by
  unfold execMgtAttnGo
  repeat' first
    | with_reducible assumption
    | with_reducible intro _
    | with_reducible apply onBar_wf
    | with_reducible apply hostMgtAttnGo_wf
    | with_reducible apply ow_next
    | simp only [wf_mk]
    | with_reducible apply keeps_of
    | (extract_lets x; first | (refine wf_cut (Keep qk x = true) ?_ ?_; focus (subst x); rotate_left; focus (intro hx; generalize x = y at hx ⊢)) | skip)

theorem putLines_wf {qk : Kept} {s : State} {i v : Nat} (h_s : Keep qk s = true) : Keep qk (putLines s i v) = true := by
  unfold putLines
  repeat' first
    | with_reducible assumption
    | with_reducible intro _
    | with_reducible apply wr_wf
    | with_reducible apply mgtCause_wf
    | with_reducible apply wf_ite
    | simp only [wf_mk]
    | with_reducible apply keeps_of
    | (extract_lets x; first | (refine wf_cut (Keep qk x = true) ?_ ?_; focus (subst x); rotate_left; focus (intro hx; generalize x = y at hx ⊢)) | skip)

theorem putSupervision_wf {qk : Kept} {s : State} (h_s : Keep qk s = true) : Keep qk (putSupervision s) = true := by
  unfold putSupervision
  repeat' first
    | with_reducible assumption
    | with_reducible intro _
    | with_reducible apply putLines_wf
    | with_reducible apply wf_forEach
    | with_reducible apply wf_ite
    | simp only [wf_mk]
    | with_reducible apply keeps_of
    | (extract_lets x; first | (refine wf_cut (Keep qk x = true) ?_ ?_; focus (subst x); rotate_left; focus (intro hx; generalize x = y at hx ⊢)) | skip)

theorem refreshPage_wf {qk : Kept} {s : State} (h_s : Keep qk s = true) : Keep qk (refreshPage s) = true := by
  unfold refreshPage
  repeat' first
    | with_reducible assumption
    | with_reducible intro _
    | with_reducible apply mgtCause_wf
    | with_reducible apply setMgt_wf
    | with_reducible apply putPage_wf
    | with_reducible apply putSupervision_wf
    | with_reducible apply wf_ite
    | simp only [wf_mk]
    | with_reducible apply keeps_of
    | (extract_lets x; first | (refine wf_cut (Keep qk x = true) ?_ ?_; focus (subst x); rotate_left; focus (intro hx; generalize x = y at hx ⊢)) | skip)

theorem execMgtPageRefresh_wf {qk : Kept} {s : State} (h_s : Keep qk s = true) : OW qk (execMgtPageRefresh s) := by
  unfold execMgtPageRefresh
  repeat' first
    | with_reducible assumption
    | with_reducible intro _
    | with_reducible apply onMgt_wf
    | with_reducible apply refreshPage_wf
    | with_reducible apply ow_ite
    | with_reducible apply wf_ite
    | with_reducible apply ow_next
    | simp only [wf_mk]
    | with_reducible apply keeps_of
    | (extract_lets x; first | (refine wf_cut (Keep qk x = true) ?_ ?_; focus (subst x); rotate_left; focus (intro hx; generalize x = y at hx ⊢)) | skip)

theorem execSupervisionRead_wf {qk : Kept} {s : State} (h_s : Keep qk s = true) : OW qk (execSupervisionRead s) := by
  unfold execSupervisionRead
  repeat' first
    | with_reducible assumption
    | with_reducible intro _
    | with_reducible apply setBar_wf
    | with_reducible apply sendWatch_wf
    | with_reducible apply latch_wf
    | with_reducible apply onMgt_wf
    | with_reducible apply wf_forEach
    | with_reducible apply ow_ite
    | with_reducible apply wf_ite
    | with_reducible apply ow_next
    | simp only [wf_mk]
    | with_reducible apply keeps_of
    | (extract_lets x; first | (refine wf_cut (Keep qk x = true) ?_ ?_; focus (subst x); rotate_left; focus (intro hx; generalize x = y at hx ⊢)) | skip)
    | split

theorem hostMgtHostbufWrite_wf {qk : Kept} {n : Fin 16} {w : Word} {s : State} (h_s : Keep qk s = true) : Keep qk (hostMgtHostbufWrite n w s) = true := by
  unfold hostMgtHostbufWrite
  repeat' first
    | with_reducible assumption
    | with_reducible intro _
    | with_reducible apply wr_wf
    | simp only [wf_mk]
    | with_reducible apply keeps_of
    | (extract_lets x; first | (refine wf_cut (Keep qk x = true) ?_ ?_; focus (subst x); rotate_left; focus (intro hx; generalize x = y at hx ⊢)) | skip)

theorem execMgtHostbufWrite_wf {qk : Kept} {n : Fin 16} {w : Word} {s : State} (h_s : Keep qk s = true) : OW qk (execMgtHostbufWrite n w s) := by
  unfold execMgtHostbufWrite
  repeat' first
    | with_reducible assumption
    | with_reducible intro _
    | with_reducible apply onBar_wf
    | with_reducible apply hostMgtHostbufWrite_wf
    | with_reducible apply ow_next
    | simp only [wf_mk]
    | with_reducible apply keeps_of
    | (extract_lets x; first | (refine wf_cut (Keep qk x = true) ?_ ?_; focus (subst x); rotate_left; focus (intro hx; generalize x = y at hx ⊢)) | skip)

theorem hostMgtAddrWrite_wf {qk : Kept} {w : Word} {s : State} (h_s : Keep qk s = true) : Keep qk (hostMgtAddrWrite w s) = true := by
  unfold hostMgtAddrWrite
  repeat' first
    | with_reducible assumption
    | with_reducible intro _
    | with_reducible apply rwrite_wf
    | with_reducible apply recordEvent_wf
    | with_reducible apply wf_ite
    | simp only [wf_mk]
    | with_reducible apply keeps_of
    | (extract_lets x; first | (refine wf_cut (Keep qk x = true) ?_ ?_; focus (subst x); rotate_left; focus (intro hx; generalize x = y at hx ⊢)) | skip)

theorem execMgtAddrWrite_wf {qk : Kept} {w : Word} {s : State} (h_s : Keep qk s = true) : OW qk (execMgtAddrWrite w s) := by
  unfold execMgtAddrWrite
  repeat' first
    | with_reducible assumption
    | with_reducible intro _
    | with_reducible apply onBar_wf
    | with_reducible apply hostMgtAddrWrite_wf
    | with_reducible apply ow_next
    | simp only [wf_mk]
    | with_reducible apply keeps_of
    | (extract_lets x; first | (refine wf_cut (Keep qk x = true) ?_ ?_; focus (subst x); rotate_left; focus (intro hx; generalize x = y at hx ⊢)) | skip)

end Sys2Proof.Machine
end

