-- ==== Sys2Proof/Laws/KeepsFabric.lean ====
section
/-! SUPPORT. The operations of Machine/Fabric.lean keep what `Keep` names. -/

namespace Sys2Proof.Machine
open Sys2Proof
set_option linter.all false
set_option simprocs false

theorem nonOwner_wf {qk : Kept} {s : State} {c : Nat} (h_s : Keep qk s = true) : Keep qk (nonOwner s c) = true := by
  unfold nonOwner
  repeat' first
    | with_reducible assumption
    | with_reducible intro _
    | with_reducible apply rput_wf
    | with_reducible apply rset_wf
    | with_reducible apply radd_wf
    | with_reducible apply raise_wf
    | simp only [wf_mk]
    | with_reducible apply keeps_of
    | (extract_lets x; first | (refine wf_cut (Keep qk x = true) ?_ ?_; focus (subst x); rotate_left; focus (intro hx; generalize x = y at hx ⊢)) | skip)

theorem lateWrite_wf {qk : Kept} {s : State} {c : Nat} (h_s : Keep qk s = true) : Keep qk (lateWrite s c) = true := by
  unfold lateWrite
  repeat' first
    | with_reducible assumption
    | with_reducible intro _
    | with_reducible apply rset_wf
    | with_reducible apply raise_wf
    | simp only [wf_mk]
    | with_reducible apply keeps_of
    | (extract_lets x; first | (refine wf_cut (Keep qk x = true) ?_ ?_; focus (subst x); rotate_left; focus (intro hx; generalize x = y at hx ⊢)) | skip)

theorem noteAccess_wf {qk : Kept} {s : State} {m b c j : Nat} (h_s : Keep qk s = true) : Keep qk (noteAccess s m b c j) = true := by
  unfold noteAccess
  repeat' first
    | with_reducible assumption
    | with_reducible intro _
    | with_reducible apply requestFails_wf
    | with_reducible apply wf_ite
    | simp only [wf_mk]
    | with_reducible apply keeps_of
    | (extract_lets x; first | (refine wf_cut (Keep qk x = true) ?_ ?_; focus (subst x); rotate_left; focus (intro hx; generalize x = y at hx ⊢)) | skip)

theorem noteDram_wf {qk : Kept} {s : State} {m w : Nat} (h_s : Keep qk s = true) : Keep qk (noteDram s m w) = true := by
  unfold noteDram
  repeat' first
    | with_reducible assumption
    | with_reducible intro _
    | with_reducible apply requestFails_wf
    | with_reducible apply wf_ite
    | simp only [wf_mk]
    | with_reducible apply keeps_of
    | (extract_lets x; first | (refine wf_cut (Keep qk x = true) ?_ ?_; focus (subst x); rotate_left; focus (intro hx; generalize x = y at hx ⊢)) | skip)

theorem noteBead_wf {qk : Kept} {s : State} {m c : Nat} (h_s : Keep qk s = true) : Keep qk (noteBead s m c) = true := by
  unfold noteBead
  repeat' first
    | with_reducible assumption
    | with_reducible intro _
    | with_reducible apply noteAccess_wf
    | with_reducible apply wf_forEach
    | simp only [wf_mk]
    | with_reducible apply keeps_of
    | (extract_lets x; first | (refine wf_cut (Keep qk x = true) ?_ ?_; focus (subst x); rotate_left; focus (intro hx; generalize x = y at hx ⊢)) | skip)

theorem fabWriteAt_wf {qk : Kept} {s : State} {cls inst c b j : Nat} {w : Word} {repaired : Bool} (h_s : Keep qk s = true) : Keep qk (fabWriteAt s cls inst c b j w repaired) = true := by
  unfold fabWriteAt
  repeat' first
    | with_reducible assumption
    | with_reducible intro _
    | with_reducible apply gsSet_wf
    | with_reducible apply setChan_wf
    | with_reducible apply nonOwner_wf
    | with_reducible apply lateWrite_wf
    | with_reducible apply noteAccess_wf
    | with_reducible apply wf_ite
    | simp only [wf_mk]
    | with_reducible apply keeps_of
    | (extract_lets x; first | (refine wf_cut (Keep qk x = true) ?_ ?_; focus (subst x); rotate_left; focus (intro hx; generalize x = y at hx ⊢)) | skip)

theorem fabWrite_wf {qk : Kept} {s : State} {cls inst c j : Nat} {w : Word} {repaired : Bool} (h_s : Keep qk s = true) : Keep qk (fabWrite s cls inst c j w repaired) = true := by
  unfold fabWrite
  repeat' first
    | with_reducible assumption
    | with_reducible intro _
    | with_reducible apply fabWriteAt_wf
    | simp only [wf_mk]
    | with_reducible apply keeps_of
    | (extract_lets x; first | (refine wf_cut (Keep qk x = true) ?_ ?_; focus (subst x); rotate_left; focus (intro hx; generalize x = y at hx ⊢)) | skip)

theorem fabWriteBead_wf {qk : Kept} {s : State} {cls inst c : Nat} {ws : List Word} (h_s : Keep qk s = true) : Keep qk (fabWriteBead s cls inst c ws) = true := by
  unfold fabWriteBead
  repeat' first
    | with_reducible assumption
    | with_reducible intro _
    | with_reducible apply fabWrite_wf
    | with_reducible apply wf_foldl
    | with_reducible apply wf_foldl1
    | simp only [wf_mk]
    | with_reducible apply keeps_of
    | (extract_lets x; first | (refine wf_cut (Keep qk x = true) ?_ ?_; focus (subst x); rotate_left; focus (intro hx; generalize x = y at hx ⊢)) | skip)
    | dsimp -zeta only
    | split

theorem countMissing_wf {qk : Kept} {s : State} {c : Nat} {poisoned : Bool} (h_s : Keep qk s = true) : Keep qk (countMissing s c poisoned) = true := by
  unfold countMissing
  repeat' first
    | with_reducible assumption
    | with_reducible intro _
    | with_reducible apply rset_wf
    | with_reducible apply radd_wf
    | with_reducible apply raise_wf
    | with_reducible apply wf_ite
    | simp only [wf_mk]
    | with_reducible apply keeps_of
    | (extract_lets x; first | (refine wf_cut (Keep qk x = true) ?_ ?_; focus (subst x); rotate_left; focus (intro hx; generalize x = y at hx ⊢)) | skip)

theorem poisonBead_wf {qk : Kept} {s : State} {b c : Nat} (h_s : Keep qk s = true) : Keep qk (poisonBead s b c) = true := by
  unfold poisonBead
  repeat' first
    | with_reducible assumption
    | with_reducible intro _
    | with_reducible apply setBead_wf
    | with_reducible apply countMissing_wf
    | with_reducible apply wf_ite
    | simp only [wf_mk]
    | with_reducible apply keeps_of
    | (extract_lets x; first | (refine wf_cut (Keep qk x = true) ?_ ?_; focus (subst x); rotate_left; focus (intro hx; generalize x = y at hx ⊢)) | skip)

theorem tagParity_wf {qk : Kept} {s : State} {b : Nat} (h_s : Keep qk s = true) : Keep qk (tagParity s b) = true := by
  unfold tagParity
  repeat' first
    | with_reducible assumption
    | with_reducible intro _
    | with_reducible apply setBead_wf
    | with_reducible apply raise_wf
    | with_reducible apply wf_forEach
    | with_reducible apply wf_ite
    | simp only [wf_mk]
    | with_reducible apply keeps_of
    | (extract_lets x; first | (refine wf_cut (Keep qk x = true) ?_ ?_; focus (subst x); rotate_left; focus (intro hx; generalize x = y at hx ⊢)) | skip)

theorem noteMissing_wf {qk : Kept} {s : State} {c : Nat} {poisoned : Bool} (h_s : Keep qk s = true) : Keep qk (noteMissing s c poisoned) = true := by
  unfold noteMissing
  repeat' first
    | with_reducible assumption
    | with_reducible intro _
    | with_reducible apply countMissing_wf
    | with_reducible apply wf_ite
    | simp only [wf_mk]
    | with_reducible apply keeps_of
    | (extract_lets x; first | (refine wf_cut (Keep qk x = true) ?_ ?_; focus (subst x); rotate_left; focus (intro hx; generalize x = y at hx ⊢)) | skip)

theorem closeBead_wf {qk : Kept} {s : State} {c : Nat} (h_s : Keep qk s = true) : Keep qk (closeBead s c) = true := by
  unfold closeBead
  repeat' first
    | with_reducible assumption
    | with_reducible intro _
    | with_reducible apply setBead_wf
    | with_reducible apply hold_wf
    | with_reducible apply noteMissing_wf
    | with_reducible apply wf_ite
    | simp only [wf_mk]
    | with_reducible apply keeps_of
    | (extract_lets x; first | (refine wf_cut (Keep qk x = true) ?_ ?_; focus (subst x); rotate_left; focus (intro hx; generalize x = y at hx ⊢)) | skip)
    | dsimp -zeta only

theorem wf_chans {qk : Kept} {x : State} {c : SMap ChanState} (h : Keep qk x = true) : Keep qk { x with chans := c } = true := h
theorem closeBeads_wf {qk : Kept} {s : State} (h_s : Keep qk s = true) : Keep qk (closeBeads s) = true :=
  wf_chans (c := []) (wf_foldl (fun _ _ h => closeBead_wf h) h_s)

theorem clearFabric_wf {qk : Kept} {s : State} (h_s : Keep qk s = true) : Keep qk (clearFabric s) = true := by
  unfold clearFabric
  repeat' first
    | with_reducible assumption
    | with_reducible intro _
    | simp only [wf_mk]
    | with_reducible apply keeps_of
    | with_reducible apply keeps_gsram
    | with_reducible apply keeps_regsKeep
    | with_reducible apply keeps_gsramKeep
    | with_reducible apply keeps_dramKeep
    | with_reducible apply keeps_flashKeep
    | (extract_lets x; first | (refine wf_cut (Keep qk x = true) ?_ ?_; focus (subst x); rotate_left; focus (intro hx; generalize x = y at hx ⊢)) | skip)

theorem execFabricWrite_wf {qk : Kept} {owner : Option (Fin 10 × Fin 4096)} {ch : Fin 1024} {buf : Fin 4} {j : Fin 32} {w : Word} {s : State} (h_s : Keep qk s = true) : OW qk (execFabricWrite owner ch buf j w s) := by
  unfold execFabricWrite
  repeat' first
    | with_reducible assumption
    | with_reducible intro _
    | with_reducible apply onHost_wf
    | with_reducible apply nonOwner_wf
    | with_reducible apply fabWriteAt_wf
    | with_reducible apply ow_ite
    | with_reducible apply wf_ite
    | with_reducible apply ow_next
    | simp only [wf_mk]
    | with_reducible apply keeps_of
    | (extract_lets x; first | (refine wf_cut (Keep qk x = true) ?_ ?_; focus (subst x); rotate_left; focus (intro hx; generalize x = y at hx ⊢)) | skip)
    | dsimp -zeta only
    | split

theorem hostFabMissClr_wf {qk : Kept} {w : Word} {s : State} (h_s : Keep qk s = true) : Keep qk (hostFabMissClr w s) = true := by
  unfold hostFabMissClr
  repeat' first
    | with_reducible assumption
    | with_reducible intro _
    | with_reducible apply rclr_wf
    | with_reducible apply wf_ite
    | simp only [wf_mk]
    | with_reducible apply keeps_of
    | (extract_lets x; first | (refine wf_cut (Keep qk x = true) ?_ ?_; focus (subst x); rotate_left; focus (intro hx; generalize x = y at hx ⊢)) | skip)

theorem execFabMissClr_wf {qk : Kept} {w : Word} {s : State} (h_s : Keep qk s = true) : OW qk (execFabMissClr w s) := by
  unfold execFabMissClr
  repeat' first
    | with_reducible assumption
    | with_reducible intro _
    | with_reducible apply onBar_wf
    | with_reducible apply hostFabMissClr_wf
    | with_reducible apply ow_next
    | simp only [wf_mk]
    | with_reducible apply keeps_of
    | (extract_lets x; first | (refine wf_cut (Keep qk x = true) ?_ ?_; focus (subst x); rotate_left; focus (intro hx; generalize x = y at hx ⊢)) | skip)

end Sys2Proof.Machine
end

