-- ==== Sys2Proof/Laws/KeepsFieldRx.lean ====
section
/-! SUPPORT. The operations of Machine/FieldRx.lean keep what `Keep` names. -/

namespace Sys2Proof.Machine
open Sys2Proof
set_option linter.all false
set_option simprocs false

theorem countDiscard_wf {qk : Kept} {s : State} {d : Die} {n : Nat} (h_s : Keep qk s = true) : Keep qk (countDiscard s d n) = true := by
  unfold countDiscard
  repeat' first
    | with_reducible assumption
    | with_reducible intro _
    | with_reducible apply fadd_wf
    | simp only [wf_mk]
    | with_reducible apply keeps_of
    | (extract_lets x; first | (refine wf_cut (Keep qk x = true) ?_ ?_; focus (subst x); rotate_left; focus (intro hx; generalize x = y at hx ⊢)) | skip)

theorem laneDiffers_wf {qk : Kept} {s : State} {d : Die} {twin : Bool} {ws : List Nat} (h_s : Keep qk s = true) : Keep qk (laneDiffers s d twin ws) = true := by
  unfold laneDiffers
  repeat' first
    | with_reducible assumption
    | with_reducible intro _
    | with_reducible apply setDie_wf
    | with_reducible apply wf_ite
    | simp only [wf_mk]
    | with_reducible apply keeps_of
    | (extract_lets x; first | (refine wf_cut (Keep qk x = true) ?_ ?_; focus (subst x); rotate_left; focus (intro hx; generalize x = y at hx ⊢)) | skip)
    | split

theorem fieldAccept_wf {qk : Kept} {s : State} {d : Die} {twin : Bool} {ws : List Nat} (h_s : Keep qk s = true) : PW qk (fieldAccept s d twin ws) := by
  unfold fieldAccept
  repeat' first
    | with_reducible assumption
    | with_reducible intro _
    | with_reducible apply setDie_wf
    | with_reducible apply fadd_wf
    | with_reducible apply countDiscard_wf
    | with_reducible apply laneDiffers_wf
    | with_reducible apply pw_ite
    | with_reducible apply wf_ite
    | with_reducible apply pw_mk
    | simp only [wf_mk]
    | with_reducible apply keeps_of
    | (extract_lets x; first | (refine wf_cut (Keep qk x = true) ?_ ?_; focus (subst x); rotate_left; focus (intro hx; generalize x = y at hx ⊢)) | skip)
    | split
theorem fieldAccept_e {qk : Kept} {s : State} {d : Die} {twin : Bool} {ws : List Nat} {zt : State} {zb} (e : (fieldAccept s d twin ws) = (zt, zb)) (h_s : Keep qk s = true) : Keep qk zt = true := pw_e (fieldAccept_wf h_s) e
theorem fieldAccept_p {qk : Kept} {s : State} {d : Die} {twin : Bool} {ws : List Nat} (h_s : Keep qk s = true) : Keep qk (fieldAccept s d twin ws).1 = true := fieldAccept_wf h_s

theorem onDown_wf {qk : Kept} {s : State} {d : Die} {ws : List Nat} {mine : List Nat → Bool} {f : State → State} (h_s : Keep qk s = true) (h_f : ∀ (a0 : State), Keep qk a0 = true → Keep qk (f a0) = true) : OW qk (onDown s d ws mine f) := by
  unfold onDown
  repeat' first
    | with_reducible assumption
    | with_reducible intro _
    | with_reducible apply h_f
    | with_reducible apply of_pw
    | with_reducible apply onDie_wf
    | refine fieldAccept_e (by with_reducible assumption) ?_
    | with_reducible apply fieldAccept_p
    | with_reducible apply fieldAccept_wf
    | with_reducible apply ow_ite
    | with_reducible apply wf_ite
    | with_reducible apply ow_next
    | simp only [wf_mk]
    | with_reducible apply keeps_of
    | (extract_lets x; first | (refine wf_cut (Keep qk x = true) ?_ ?_; focus (subst x); rotate_left; focus (intro hx; generalize x = y at hx ⊢)) | skip)
    | split

theorem onTwin_wf {qk : Kept} {s : State} {d : Die} {ws : List Nat} {type : Nat} {f : State → State} (h_s : Keep qk s = true) (h_f : ∀ (a0 : State), Keep qk a0 = true → Keep qk (f a0) = true) : OW qk (onTwin s d ws type f) := by
  unfold onTwin
  repeat' first
    | with_reducible assumption
    | with_reducible intro _
    | with_reducible apply h_f
    | with_reducible apply of_pw
    | with_reducible apply onDie_wf
    | refine fieldAccept_e (by with_reducible assumption) ?_
    | with_reducible apply fieldAccept_p
    | with_reducible apply fieldAccept_wf
    | with_reducible apply ow_ite
    | with_reducible apply wf_ite
    | with_reducible apply ow_next
    | simp only [wf_mk]
    | with_reducible apply keeps_of
    | (extract_lets x; first | (refine wf_cut (Keep qk x = true) ?_ ?_; focus (subst x); rotate_left; focus (intro hx; generalize x = y at hx ⊢)) | skip)
    | split

theorem noteDid_wf {qk : Kept} {s : State} {d : Die} {m : CmdCopy} {r : Nat} (h_s : Keep qk s = true) : Keep qk (noteDid s d m r) = true := by
  unfold noteDid
  repeat' first
    | with_reducible assumption
    | with_reducible intro _
    | with_reducible apply setDie_wf
    | simp only [wf_mk]
    | with_reducible apply keeps_of
    | (extract_lets x; first | (refine wf_cut (Keep qk x = true) ?_ ?_; focus (subst x); rotate_left; focus (intro hx; generalize x = y at hx ⊢)) | skip)

theorem onCmd_wf {qk : Kept} {s : State} {d : Die} {code : Nat} {m : CmdCopy} {f : State → State × Nat} (h_s : Keep qk s = true) (h_f : ∀ (a0 : State), Keep qk a0 = true → PW qk (f a0)) : OW qk (onCmd s d code m f) := by
  unfold onCmd
  repeat' first
    | with_reducible assumption
    | with_reducible intro _
    | with_reducible apply h_f
    | with_reducible apply of_pw
    | with_reducible apply ackSend_wf
    | with_reducible apply onDown_wf
    | with_reducible apply noteDid_wf
    | with_reducible apply ow_next
    | simp only [wf_mk]
    | with_reducible apply keeps_of
    | (extract_lets x; first | (refine wf_cut (Keep qk x = true) ?_ ?_; focus (subst x); rotate_left; focus (intro hx; generalize x = y at hx ⊢)) | skip)
    | split

theorem takeSamples_wf {qk : Kept} {s : State} {d : Die} {twin : Bool} {ws : List Nat} (h_s : Keep qk s = true) : Keep qk (takeSamples s d twin ws) = true := by
  unfold takeSamples
  repeat' first
    | with_reducible assumption
    | with_reducible intro _
    | with_reducible apply setDie_wf
    | with_reducible apply fadd_wf
    | with_reducible apply wf_ite
    | simp only [wf_mk]
    | with_reducible apply keeps_of
    | (extract_lets x; first | (refine wf_cut (Keep qk x = true) ?_ ?_; focus (subst x); rotate_left; focus (intro hx; generalize x = y at hx ⊢)) | skip)
    | split

theorem execSamples_wf {qk : Kept} {d : Die} {ws : List Nat} {s : State} (h_s : Keep qk s = true) : OW qk (execSamples d ws s) := by
  unfold execSamples
  repeat' first
    | with_reducible assumption
    | with_reducible intro _
    | with_reducible apply twinSend_wf
    | with_reducible apply onDown_wf
    | with_reducible apply takeSamples_wf
    | with_reducible apply ow_ite
    | with_reducible apply wf_ite
    | with_reducible apply ow_next
    | simp only [wf_mk]
    | with_reducible apply keeps_of
    | (extract_lets x; first | (refine wf_cut (Keep qk x = true) ?_ ?_; focus (subst x); rotate_left; focus (intro hx; generalize x = y at hx ⊢)) | skip)

theorem execBarrierHeartbeat_wf {qk : Kept} {d : Die} {ws : List Nat} {s : State} (h_s : Keep qk s = true) : OW qk (execBarrierHeartbeat d ws s) := by
  unfold execBarrierHeartbeat
  repeat' first
    | with_reducible assumption
    | with_reducible intro _
    | with_reducible apply setDie_wf
    | with_reducible apply fbit_wf
    | with_reducible apply onDown_wf
    | with_reducible apply tick_wf
    | with_reducible apply ow_next
    | simp only [wf_mk]
    | with_reducible apply keeps_of
    | (extract_lets x; first | (refine wf_cut (Keep qk x = true) ?_ ?_; focus (subst x); rotate_left; focus (intro hx; generalize x = y at hx ⊢)) | skip)

theorem setSeal_wf {qk : Kept} {s : State} {d : Die} {a : Nat} {w : Word} (h_s : Keep qk s = true) : Keep qk (setSeal s d a w) = true := by
  unfold setSeal
  repeat' first
    | with_reducible assumption
    | with_reducible intro _
    | with_reducible apply setDie_wf
    | simp only [wf_mk]
    | with_reducible apply keeps_of
    | (extract_lets x; first | (refine wf_cut (Keep qk x = true) ?_ ?_; focus (subst x); rotate_left; focus (intro hx; generalize x = y at hx ⊢)) | skip)

theorem sealStep_wf {qk : Kept} {s : State} {d : Die} {a : Nat} {last : Bool} {w : Word} (h_s : Keep qk s = true) : PW qk (sealStep s d a last w) := by
  unfold sealStep
  repeat' first
    | with_reducible assumption
    | with_reducible intro _
    | with_reducible apply fwr_wf
    | with_reducible apply fbit_wf
    | with_reducible apply setFldState_wf
    | with_reducible apply setSeal_wf
    | with_reducible apply pw_ite
    | with_reducible apply wf_ite
    | with_reducible apply pw_mk
    | simp only [wf_mk]
    | with_reducible apply keeps_of
    | (extract_lets x; first | (refine wf_cut (Keep qk x = true) ?_ ?_; focus (subst x); rotate_left; focus (intro hx; generalize x = y at hx ⊢)) | skip)
theorem sealStep_e {qk : Kept} {s : State} {d : Die} {a : Nat} {last : Bool} {w : Word} {zt : State} {zb} (e : (sealStep s d a last w) = (zt, zb)) (h_s : Keep qk s = true) : Keep qk zt = true := pw_e (sealStep_wf h_s) e
theorem sealStep_p {qk : Kept} {s : State} {d : Die} {a : Nat} {last : Bool} {w : Word} (h_s : Keep qk s = true) : Keep qk (sealStep s d a last w).1 = true := sealStep_wf h_s

theorem execSealMsg_wf {qk : Kept} {d : Die} {ws : List Nat} {s : State} (h_s : Keep qk s = true) : OW qk (execSealMsg d ws s) := by
  unfold execSealMsg
  repeat' first
    | with_reducible assumption
    | with_reducible intro _
    | with_reducible apply ackSend_wf
    | with_reducible apply onDown_wf
    | refine sealStep_e (by with_reducible assumption) ?_
    | with_reducible apply sealStep_p
    | with_reducible apply sealStep_wf
    | with_reducible apply ow_next
    | simp only [wf_mk]
    | with_reducible apply keeps_of
    | (extract_lets x; first | (refine wf_cut (Keep qk x = true) ?_ ?_; focus (subst x); rotate_left; focus (intro hx; generalize x = y at hx ⊢)) | skip)
    | split

theorem execSealTighten_wf {qk : Kept} {d : Die} {m : CmdCopy} {s : State} (h_s : Keep qk s = true) : OW qk (execSealTighten d m s) := by
  unfold execSealTighten
  repeat' first
    | with_reducible assumption
    | with_reducible intro _
    | with_reducible apply fwr_wf
    | with_reducible apply onCmd_wf
    | with_reducible apply setSeal_wf
    | with_reducible apply ow_ite
    | with_reducible apply wf_ite
    | with_reducible apply pw_ite
    | with_reducible apply pw_mk
    | with_reducible apply ow_next
    | simp only [wf_mk]
    | with_reducible apply keeps_of
    | (extract_lets x; first | (refine wf_cut (Keep qk x = true) ?_ ?_; focus (subst x); rotate_left; focus (intro hx; generalize x = y at hx ⊢)) | skip)

theorem recProject_wf {qk : Kept} {s : State} {d : Die} {r : StagedRec} (h_s : Keep qk s = true) : Keep qk (recProject s d r) = true := by
  unfold recProject
  repeat' first
    | with_reducible assumption
    | with_reducible intro _
    | with_reducible apply fwr_wf
    | simp only [wf_mk]
    | with_reducible apply keeps_of
    | (extract_lets x; first | (refine wf_cut (Keep qk x = true) ?_ ?_; focus (subst x); rotate_left; focus (intro hx; generalize x = y at hx ⊢)) | skip)

theorem execParam_wf {qk : Kept} {d : Die} {ws : List Nat} {s : State} (h_s : Keep qk s = true) : OW qk (execParam d ws s) := by
  unfold execParam
  repeat' first
    | with_reducible assumption
    | with_reducible intro _
    | with_reducible apply setDie_wf
    | with_reducible apply ackSend_wf
    | with_reducible apply onDown_wf
    | with_reducible apply ow_ite
    | with_reducible apply wf_ite
    | with_reducible apply ow_next
    | simp only [wf_mk]
    | with_reducible apply keeps_of
    | (extract_lets x; first | (refine wf_cut (Keep qk x = true) ?_ ?_; focus (subst x); rotate_left; focus (intro hx; generalize x = y at hx ⊢)) | skip)

theorem execCmdTallyCommit_wf {qk : Kept} {d : Die} {m : CmdCopy} {s : State} (h_s : Keep qk s = true) : OW qk (execCmdTallyCommit d m s) := by
  unfold execCmdTallyCommit
  repeat' first
    | with_reducible assumption
    | with_reducible intro _
    | with_reducible apply setDie_wf
    | with_reducible apply onCmd_wf
    | with_reducible apply ow_ite
    | with_reducible apply wf_ite
    | with_reducible apply pw_ite
    | with_reducible apply pw_mk
    | with_reducible apply ow_next
    | simp only [wf_mk]
    | with_reducible apply keeps_of
    | (extract_lets x; first | (refine wf_cut (Keep qk x = true) ?_ ?_; focus (subst x); rotate_left; focus (intro hx; generalize x = y at hx ⊢)) | skip)

theorem execTallyDiscard_wf {qk : Kept} {d : Die} {m : CmdCopy} {s : State} (h_s : Keep qk s = true) : OW qk (execTallyDiscard d m s) := by
  unfold execTallyDiscard
  repeat' first
    | with_reducible assumption
    | with_reducible intro _
    | with_reducible apply setDie_wf
    | with_reducible apply onCmd_wf
    | with_reducible apply ow_ite
    | with_reducible apply wf_ite
    | with_reducible apply pw_ite
    | with_reducible apply pw_mk
    | with_reducible apply ow_next
    | simp only [wf_mk]
    | with_reducible apply keeps_of
    | (extract_lets x; first | (refine wf_cut (Keep qk x = true) ?_ ?_; focus (subst x); rotate_left; focus (intro hx; generalize x = y at hx ⊢)) | skip)

theorem execCmdCarry_wf {qk : Kept} {d : Die} {m : CmdCopy} {s : State} (h_s : Keep qk s = true) : OW qk (execCmdCarry d m s) := by
  unfold execCmdCarry
  repeat' first
    | with_reducible assumption
    | with_reducible intro _
    | with_reducible apply setDie_wf
    | with_reducible apply onCmd_wf
    | with_reducible apply ow_ite
    | with_reducible apply wf_ite
    | with_reducible apply pw_ite
    | with_reducible apply pw_mk
    | with_reducible apply ow_next
    | simp only [wf_mk]
    | with_reducible apply keeps_of
    | (extract_lets x; first | (refine wf_cut (Keep qk x = true) ?_ ?_; focus (subst x); rotate_left; focus (intro hx; generalize x = y at hx ⊢)) | skip)

theorem execForceSafe_wf {qk : Kept} {d : Die} {m : CmdCopy} {s : State} (h_s : Keep qk s = true) : OW qk (execForceSafe d m s) := by
  unfold execForceSafe
  repeat' first
    | with_reducible assumption
    | with_reducible intro _
    | with_reducible apply setFldState_wf
    | with_reducible apply safeNow_wf
    | with_reducible apply onCmd_wf
    | with_reducible apply ow_ite
    | with_reducible apply wf_ite
    | with_reducible apply pw_ite
    | with_reducible apply pw_mk
    | with_reducible apply ow_next
    | simp only [wf_mk]
    | with_reducible apply keeps_of
    | (extract_lets x; first | (refine wf_cut (Keep qk x = true) ?_ ?_; focus (subst x); rotate_left; focus (intro hx; generalize x = y at hx ⊢)) | skip)

theorem execRelease_wf {qk : Kept} {d : Die} {m : CmdCopy} {s : State} (h_s : Keep qk s = true) : OW qk (execRelease d m s) := by
  unfold execRelease
  repeat' first
    | with_reducible assumption
    | with_reducible intro _
    | with_reducible apply setFch_wf
    | with_reducible apply setFldState_wf
    | with_reducible apply leaveSafe_wf
    | with_reducible apply onCmd_wf
    | with_reducible apply wf_forEach
    | with_reducible apply ow_ite
    | with_reducible apply wf_ite
    | with_reducible apply pw_ite
    | with_reducible apply pw_mk
    | with_reducible apply ow_next
    | simp only [wf_mk]
    | with_reducible apply keeps_of
    | (extract_lets x; first | (refine wf_cut (Keep qk x = true) ?_ ?_; focus (subst x); rotate_left; focus (intro hx; generalize x = y at hx ⊢)) | skip)

theorem execCmdRead_wf {qk : Kept} {d : Die} {m : CmdCopy} {s : State} (h_s : Keep qk s = true) : OW qk (execCmdRead d m s) := by
  unfold execCmdRead
  repeat' first
    | with_reducible assumption
    | with_reducible intro _
    | with_reducible apply upSend_wf
    | with_reducible apply onCmd_wf
    | with_reducible apply ow_ite
    | with_reducible apply wf_ite
    | with_reducible apply pw_ite
    | with_reducible apply pw_mk
    | with_reducible apply ow_next
    | simp only [wf_mk]
    | with_reducible apply keeps_of
    | (extract_lets x; first | (refine wf_cut (Keep qk x = true) ?_ ?_; focus (subst x); rotate_left; focus (intro hx; generalize x = y at hx ⊢)) | skip)

theorem execCmdUnknown_wf {qk : Kept} {d : Die} {ws : List Nat} {s : State} (h_s : Keep qk s = true) : OW qk (execCmdUnknown d ws s) := by
  unfold execCmdUnknown
  repeat' first
    | with_reducible assumption
    | with_reducible intro _
    | with_reducible apply ackSend_wf
    | with_reducible apply onDown_wf
    | with_reducible apply ow_next
    | simp only [wf_mk]
    | with_reducible apply keeps_of
    | (extract_lets x; first | (refine wf_cut (Keep qk x = true) ?_ ?_; focus (subst x); rotate_left; focus (intro hx; generalize x = y at hx ⊢)) | skip)

end Sys2Proof.Machine
end

