-- ==== Sys2Proof/Laws/KeepsFieldPwm.lean ====
section
/-! SUPPORT. The operations of Machine/FieldPwm.lean keep what `Keep` names. -/

namespace Sys2Proof.Machine
open Sys2Proof
set_option linter.all false
set_option simprocs false

theorem runPeriod_wf {qk : Kept} {s : State} {d : Die} {c : Nat} {u : Int} (h_s : Keep qk s = true) : Keep qk (runPeriod s d c u) = true := by
  unfold runPeriod
  repeat' first
    | with_reducible assumption
    | with_reducible intro _
    | with_reducible apply sendOut_wf
    | with_reducible apply setFch_wf
    | simp only [wf_mk]
    | with_reducible apply keeps_of
    | (extract_lets x; first | (refine wf_cut (Keep qk x = true) ?_ ?_; focus (subst x); rotate_left; focus (intro hx; generalize x = y at hx ⊢)) | skip)
    | split

theorem failCheck_wf {qk : Kept} {s : State} {d : Die} {c : Nat} (h_s : Keep qk s = true) : Keep qk (failCheck s d c) = true := by
  unfold failCheck
  repeat' first
    | with_reducible assumption
    | with_reducible intro _
    | with_reducible apply fput_wf
    | with_reducible apply fbit_wf
    | with_reducible apply setFch_wf
    | with_reducible apply fldRaise_wf
    | with_reducible apply gatesOff_wf
    | with_reducible apply wf_ite
    | simp only [wf_mk]
    | with_reducible apply keeps_of
    | (extract_lets x; first | (refine wf_cut (Keep qk x = true) ?_ ?_; focus (subst x); rotate_left; focus (intro hx; generalize x = y at hx ⊢)) | skip)
    | split

theorem passCheck_wf {qk : Kept} {s : State} {d : Die} {c : Nat} (h_s : Keep qk s = true) : Keep qk (passCheck s d c) = true := by
  unfold passCheck
  repeat' first
    | with_reducible assumption
    | with_reducible intro _
    | with_reducible apply fbit_wf
    | with_reducible apply setFch_wf
    | simp only [wf_mk]
    | with_reducible apply keeps_of
    | (extract_lets x; first | (refine wf_cut (Keep qk x = true) ?_ ?_; focus (subst x); rotate_left; focus (intro hx; generalize x = y at hx ⊢)) | skip)

theorem stopSweepChan_wf {qk : Kept} {s : State} {d : Die} {c st : Nat} (h_s : Keep qk s = true) : Keep qk (stopSweepChan s d c st) = true := by
  unfold stopSweepChan
  repeat' first
    | with_reducible assumption
    | with_reducible intro _
    | with_reducible apply setFch_wf
    | with_reducible apply wf_ite
    | simp only [wf_mk]
    | with_reducible apply keeps_of
    | (extract_lets x; first | (refine wf_cut (Keep qk x = true) ?_ ?_; focus (subst x); rotate_left; focus (intro hx; generalize x = y at hx ⊢)) | skip)
    | split

theorem setLatch_wf {qk : Kept} {s : State} {d : Die} {c : Nat} {f : Fld} {idx : Nat} (h_s : Keep qk s = true) : Keep qk (setLatch s d c f idx) = true := by
  unfold setLatch
  repeat' first
    | with_reducible assumption
    | with_reducible intro _
    | with_reducible apply fbit_wf
    | with_reducible apply setFch_wf
    | with_reducible apply fldRaise_wf
    | with_reducible apply failCheck_wf
    | with_reducible apply stopSweepChan_wf
    | with_reducible apply wf_ite
    | simp only [wf_mk]
    | with_reducible apply keeps_of
    | (extract_lets x; first | (refine wf_cut (Keep qk x = true) ?_ ?_; focus (subst x); rotate_left; focus (intro hx; generalize x = y at hx ⊢)) | skip)

theorem limitPeriod_wf {qk : Kept} {s : State} {d : Die} {c : Nat} (h_s : Keep qk s = true) : Keep qk (limitPeriod s d c) = true := by
  unfold limitPeriod
  repeat' first
    | with_reducible assumption
    | with_reducible intro _
    | with_reducible apply fadd_wf
    | with_reducible apply setFch_wf
    | with_reducible apply fldRaise_wf
    | with_reducible apply failCheck_wf
    | with_reducible apply wf_ite
    | simp only [wf_mk]
    | with_reducible apply keeps_of
    | (extract_lets x; first | (refine wf_cut (Keep qk x = true) ?_ ?_; focus (subst x); rotate_left; focus (intro hx; generalize x = y at hx ⊢)) | skip)

theorem countShorts_wf {qk : Kept} {s : State} {d : Die} {c : Nat} (h_s : Keep qk s = true) : Keep qk (countShorts s d c) = true := by
  unfold countShorts
  repeat' first
    | with_reducible assumption
    | with_reducible intro _
    | with_reducible apply fput_wf
    | with_reducible apply fadd_wf
    | with_reducible apply setFch_wf
    | with_reducible apply gatesOff_wf
    | with_reducible apply setLatch_wf
    | with_reducible apply wf_ite
    | simp only [wf_mk]
    | with_reducible apply keeps_of
    | (extract_lets x; first | (refine wf_cut (Keep qk x = true) ?_ ?_; focus (subst x); rotate_left; focus (intro hx; generalize x = y at hx ⊢)) | skip)

theorem checkDue_wf {qk : Kept} {s : State} {d : Die} {c : Nat} (h_s : Keep qk s = true) : Keep qk (checkDue s d c) = true := by
  unfold checkDue
  repeat' first
    | with_reducible assumption
    | with_reducible intro _
    | with_reducible apply setFch_wf
    | with_reducible apply wf_ite
    | simp only [wf_mk]
    | with_reducible apply keeps_of
    | (extract_lets x; first | (refine wf_cut (Keep qk x = true) ?_ ?_; focus (subst x); rotate_left; focus (intro hx; generalize x = y at hx ⊢)) | skip)
    | split

theorem startCheck_wf {qk : Kept} {s : State} {d : Die} {c : Nat} (h_s : Keep qk s = true) : Keep qk (startCheck s d c) = true := by
  unfold startCheck
  repeat' first
    | with_reducible assumption
    | with_reducible intro _
    | with_reducible apply fbit_wf
    | with_reducible apply setFch_wf
    | with_reducible apply wf_ite
    | simp only [wf_mk]
    | with_reducible apply keeps_of
    | (extract_lets x; first | (refine wf_cut (Keep qk x = true) ?_ ?_; focus (subst x); rotate_left; focus (intro hx; generalize x = y at hx ⊢)) | skip)

theorem showPend_wf {qk : Kept} {s : State} {d : Die} {c : Nat} (h_s : Keep qk s = true) : Keep qk (showPend s d c) = true := by
  unfold showPend
  repeat' first
    | with_reducible assumption
    | with_reducible intro _
    | with_reducible apply fput_wf
    | simp only [wf_mk]
    | with_reducible apply keeps_of
    | (extract_lets x; first | (refine wf_cut (Keep qk x = true) ?_ ?_; focus (subst x); rotate_left; focus (intro hx; generalize x = y at hx ⊢)) | skip)

theorem applyRaw_wf {qk : Kept} {s : State} {d : Die} {c : Nat} (h_s : Keep qk s = true) : Keep qk (applyRaw s d c) = true := by
  unfold applyRaw
  repeat' first
    | with_reducible assumption
    | with_reducible intro _
    | with_reducible apply fwr_wf
    | with_reducible apply fput_wf
    | with_reducible apply setFch_wf
    | with_reducible apply showPend_wf
    | with_reducible apply wf_ite
    | simp only [wf_mk]
    | with_reducible apply keeps_of
    | (extract_lets x; first | (refine wf_cut (Keep qk x = true) ?_ ?_; focus (subst x); rotate_left; focus (intro hx; generalize x = y at hx ⊢)) | skip)
    | split

theorem valley_wf {qk : Kept} {s : State} {d : Die} {c m : Nat} (h_s : Keep qk s = true) : Keep qk (valley s d c m) = true := by
  unfold valley
  repeat' first
    | with_reducible assumption
    | with_reducible intro _
    | with_reducible apply fputI_wf
    | with_reducible apply fbit_wf
    | with_reducible apply setFch_wf
    | with_reducible apply gatesOff_wf
    | with_reducible apply setPeriod_wf
    | with_reducible apply runPeriod_wf
    | with_reducible apply countShorts_wf
    | with_reducible apply startCheck_wf
    | with_reducible apply applyRaw_wf
    | with_reducible apply wf_foldl
    | with_reducible apply wf_foldl1
    | with_reducible apply wf_ite
    | simp only [wf_mk]
    | with_reducible apply keeps_of
    | (extract_lets x; first | (refine wf_cut (Keep qk x = true) ?_ ?_; focus (subst x); rotate_left; focus (intro hx; generalize x = y at hx ⊢)) | skip)
    | dsimp -zeta only
    | split

theorem execCarrierValley_wf {qk : Kept} {d : Die} {c : Fin 32} {m : Fin 32} {s : State} (h_s : Keep qk s = true) : OW qk (execCarrierValley d c m s) := by
  unfold execCarrierValley
  repeat' first
    | with_reducible assumption
    | with_reducible intro _
    | with_reducible apply onDie_wf
    | with_reducible apply valley_wf
    | with_reducible apply ow_next
    | simp only [wf_mk]
    | with_reducible apply keeps_of
    | (extract_lets x; first | (refine wf_cut (Keep qk x = true) ?_ ?_; focus (subst x); rotate_left; focus (intro hx; generalize x = y at hx ⊢)) | skip)

theorem tripChan_wf {qk : Kept} {s : State} {d : Die} {c t cause : Nat} (h_s : Keep qk s = true) : Keep qk (tripChan s d c t cause) = true := by
  unfold tripChan
  repeat' first
    | with_reducible assumption
    | with_reducible intro _
    | with_reducible apply fput_wf
    | with_reducible apply fbit_wf
    | with_reducible apply setFch_wf
    | with_reducible apply setPwState_wf
    | with_reducible apply cutGatesAt_wf
    | simp only [wf_mk]
    | with_reducible apply keeps_of
    | (extract_lets x; first | (refine wf_cut (Keep qk x = true) ?_ ?_; focus (subst x); rotate_left; focus (intro hx; generalize x = y at hx ⊢)) | skip)

theorem execTripHonoured_wf {qk : Kept} {d : Die} {c : Fin 32} {trip : TripInstant} {s : State} (h_s : Keep qk s = true) : OW qk (execTripHonoured d c trip s) := by
  unfold execTripHonoured
  repeat' first
    | with_reducible assumption
    | with_reducible intro _
    | with_reducible apply fadd_wf
    | with_reducible apply setFch_wf
    | with_reducible apply fldRaise_wf
    | with_reducible apply cutGatesAt_wf
    | with_reducible apply onDie_wf
    | with_reducible apply limitPeriod_wf
    | with_reducible apply tripChan_wf
    | with_reducible apply ow_ite
    | with_reducible apply wf_ite
    | with_reducible apply ow_next
    | simp only [wf_mk]
    | with_reducible apply keeps_of
    | (extract_lets x; first | (refine wf_cut (Keep qk x = true) ?_ ?_; focus (subst x); rotate_left; focus (intro hx; generalize x = y at hx ⊢)) | skip)

theorem execReadbackMismatch_wf {qk : Kept} {d : Die} {c : Fin 32} {t : Nat} {s : State} (h_s : Keep qk s = true) : OW qk (execReadbackMismatch d c t s) := by
  unfold execReadbackMismatch
  repeat' first
    | with_reducible assumption
    | with_reducible intro _
    | with_reducible apply fput_wf
    | with_reducible apply fadd_wf
    | with_reducible apply fldRaise_wf
    | with_reducible apply onDie_wf
    | with_reducible apply tripChan_wf
    | with_reducible apply ow_ite
    | with_reducible apply wf_ite
    | with_reducible apply ow_next
    | simp only [wf_mk]
    | with_reducible apply keeps_of
    | (extract_lets x; first | (refine wf_cut (Keep qk x = true) ?_ ?_; focus (subst x); rotate_left; focus (intro hx; generalize x = y at hx ⊢)) | skip)

theorem execTripInputChange_wf {qk : Kept} {d : Die} {c : Fin 32} {active : Bool} {s : State} (h_s : Keep qk s = true) : OW qk (execTripInputChange d c active s) := by
  unfold execTripInputChange
  repeat' first
    | with_reducible assumption
    | with_reducible intro _
    | with_reducible apply fbit_wf
    | with_reducible apply fadd_wf
    | with_reducible apply fldRaise_wf
    | with_reducible apply onDie_wf
    | with_reducible apply tripChan_wf
    | with_reducible apply ow_ite
    | with_reducible apply wf_ite
    | with_reducible apply ow_next
    | simp only [wf_mk]
    | with_reducible apply keeps_of
    | (extract_lets x; first | (refine wf_cut (Keep qk x = true) ?_ ?_; focus (subst x); rotate_left; focus (intro hx; generalize x = y at hx ⊢)) | skip)

theorem execTripQuietExpiry_wf {qk : Kept} {d : Die} {c : Fin 32} {s : State} (h_s : Keep qk s = true) : OW qk (execTripQuietExpiry d c s) := by
  unfold execTripQuietExpiry
  repeat' first
    | with_reducible assumption
    | with_reducible intro _
    | with_reducible apply setFch_wf
    | with_reducible apply setPwState_wf
    | with_reducible apply onDie_wf
    | with_reducible apply ow_ite
    | with_reducible apply wf_ite
    | with_reducible apply ow_next
    | simp only [wf_mk]
    | with_reducible apply keeps_of
    | (extract_lets x; first | (refine wf_cut (Keep qk x = true) ?_ ?_; focus (subst x); rotate_left; focus (intro hx; generalize x = y at hx ⊢)) | skip)

theorem execTripClear_wf {qk : Kept} {d : Die} {m : CmdCopy} {s : State} (h_s : Keep qk s = true) : OW qk (execTripClear d m s) := by
  unfold execTripClear
  repeat' first
    | with_reducible assumption
    | with_reducible intro _
    | with_reducible apply fbit_wf
    | with_reducible apply setPwState_wf
    | with_reducible apply fldRaise_wf
    | with_reducible apply onCmd_wf
    | with_reducible apply wf_forEach
    | with_reducible apply ow_ite
    | with_reducible apply wf_ite
    | with_reducible apply pw_ite
    | with_reducible apply pw_mk
    | with_reducible apply ow_next
    | simp only [wf_mk]
    | with_reducible apply keeps_of
    | (extract_lets x; first | (refine wf_cut (Keep qk x = true) ?_ ?_; focus (subst x); rotate_left; focus (intro hx; generalize x = y at hx ⊢)) | skip)

theorem execRawWrite_wf {qk : Kept} {d : Die} {m : RawMessage} {s : State} (h_s : Keep qk s = true) : OW qk (execRawWrite d m s) := by
  unfold execRawWrite
  repeat' first
    | with_reducible assumption
    | with_reducible intro _
    | with_reducible apply setFch_wf
    | with_reducible apply onCmd_wf
    | with_reducible apply showPend_wf
    | with_reducible apply ow_ite
    | with_reducible apply wf_ite
    | with_reducible apply pw_ite
    | with_reducible apply pw_mk
    | with_reducible apply ow_next
    | simp only [wf_mk]
    | with_reducible apply keeps_of
    | (extract_lets x; first | (refine wf_cut (Keep qk x = true) ?_ ?_; focus (subst x); rotate_left; focus (intro hx; generalize x = y at hx ⊢)) | skip)
    | split

theorem execRawPairTimeout_wf {qk : Kept} {d : Die} {c : Fin 32} {duty : Bool} {s : State} (h_s : Keep qk s = true) : OW qk (execRawPairTimeout d c duty s) := by
  unfold execRawPairTimeout
  repeat' first
    | with_reducible assumption
    | with_reducible intro _
    | with_reducible apply fbit_wf
    | with_reducible apply fadd_wf
    | with_reducible apply setFch_wf
    | with_reducible apply fldRaise_wf
    | with_reducible apply onDie_wf
    | with_reducible apply showPend_wf
    | with_reducible apply ow_ite
    | with_reducible apply wf_ite
    | with_reducible apply ow_next
    | simp only [wf_mk]
    | with_reducible apply keeps_of
    | (extract_lets x; first | (refine wf_cut (Keep qk x = true) ?_ ?_; focus (subst x); rotate_left; focus (intro hx; generalize x = y at hx ⊢)) | skip)

theorem execPwmCntClr_wf {qk : Kept} {d : Die} {m : CmdCopy} {s : State} (h_s : Keep qk s = true) : OW qk (execPwmCntClr d m s) := by
  unfold execPwmCntClr
  repeat' first
    | with_reducible assumption
    | with_reducible intro _
    | with_reducible apply fwr_wf
    | with_reducible apply onCmd_wf
    | with_reducible apply wf_forEach
    | with_reducible apply pw_ite
    | with_reducible apply pw_mk
    | with_reducible apply ow_next
    | simp only [wf_mk]
    | with_reducible apply keeps_of
    | (extract_lets x; first | (refine wf_cut (Keep qk x = true) ?_ ?_; focus (subst x); rotate_left; focus (intro hx; generalize x = y at hx ⊢)) | skip)

theorem execOvercurrent_wf {qk : Kept} {d : Die} {c : Fin 32} {t : Nat} {bits : Nat} {s : State} (h_s : Keep qk s = true) : OW qk (execOvercurrent d c t bits s) := by
  unfold execOvercurrent
  repeat' first
    | with_reducible assumption
    | with_reducible intro _
    | with_reducible apply cutGatesAt_wf
    | with_reducible apply onDie_wf
    | with_reducible apply limitPeriod_wf
    | with_reducible apply ow_ite
    | with_reducible apply wf_ite
    | with_reducible apply ow_next
    | simp only [wf_mk]
    | with_reducible apply keeps_of
    | (extract_lets x; first | (refine wf_cut (Keep qk x = true) ?_ ?_; focus (subst x); rotate_left; focus (intro hx; generalize x = y at hx ⊢)) | skip)

theorem execCheckDue_wf {qk : Kept} {d : Die} {c : Fin 32} {s : State} (h_s : Keep qk s = true) : OW qk (execCheckDue d c s) := by
  unfold execCheckDue
  repeat' first
    | with_reducible assumption
    | with_reducible intro _
    | with_reducible apply onDie_wf
    | with_reducible apply checkDue_wf
    | with_reducible apply ow_next
    | simp only [wf_mk]
    | with_reducible apply keeps_of
    | (extract_lets x; first | (refine wf_cut (Keep qk x = true) ?_ ?_; focus (subst x); rotate_left; focus (intro hx; generalize x = y at hx ⊢)) | skip)

theorem execCheckStart_wf {qk : Kept} {d : Die} {c : Fin 32} {s : State} (h_s : Keep qk s = true) : OW qk (execCheckStart d c s) := by
  unfold execCheckStart
  repeat' first
    | with_reducible assumption
    | with_reducible intro _
    | with_reducible apply onDie_wf
    | with_reducible apply startCheck_wf
    | with_reducible apply ow_next
    | simp only [wf_mk]
    | with_reducible apply keeps_of
    | (extract_lets x; first | (refine wf_cut (Keep qk x = true) ?_ ?_; focus (subst x); rotate_left; focus (intro hx; generalize x = y at hx ⊢)) | skip)

theorem execProtClear_wf {qk : Kept} {d : Die} {m : CmdCopy} {s : State} (h_s : Keep qk s = true) : OW qk (execProtClear d m s) := by
  unfold execProtClear
  repeat' first
    | with_reducible assumption
    | with_reducible intro _
    | with_reducible apply fbit_wf
    | with_reducible apply setFch_wf
    | with_reducible apply onCmd_wf
    | with_reducible apply wf_forEach
    | with_reducible apply ow_ite
    | with_reducible apply wf_ite
    | with_reducible apply pw_ite
    | with_reducible apply pw_mk
    | with_reducible apply ow_next
    | simp only [wf_mk]
    | with_reducible apply keeps_of
    | (extract_lets x; first | (refine wf_cut (Keep qk x = true) ?_ ?_; focus (subst x); rotate_left; focus (intro hx; generalize x = y at hx ⊢)) | skip)

theorem ctrlApplied_wf {qk : Kept} {s : State} {d : Die} {c : Nat} (h_s : Keep qk s = true) : Keep qk (ctrlApplied s d c) = true := by
  unfold ctrlApplied
  repeat' first
    | with_reducible assumption
    | with_reducible intro _
    | with_reducible apply setFch_wf
    | with_reducible apply setPwState_wf
    | with_reducible apply wf_ite
    | simp only [wf_mk]
    | with_reducible apply keeps_of
    | (extract_lets x; first | (refine wf_cut (Keep qk x = true) ?_ ?_; focus (subst x); rotate_left; focus (intro hx; generalize x = y at hx ⊢)) | skip)

theorem dieCtrlApplied_wf {qk : Kept} {s : State} {d : Die} (h_s : Keep qk s = true) : Keep qk (dieCtrlApplied s d) = true := by
  unfold dieCtrlApplied
  repeat' first
    | with_reducible assumption
    | with_reducible intro _
    | with_reducible apply fput_wf
    | with_reducible apply setFldState_wf
    | with_reducible apply enterActiveAt_wf
    | with_reducible apply wf_ite
    | simp only [wf_mk]
    | with_reducible apply keeps_of
    | (extract_lets x; first | (refine wf_cut (Keep qk x = true) ?_ ?_; focus (subst x); rotate_left; focus (intro hx; generalize x = y at hx ⊢)) | skip)

theorem conflictCheck_wf {qk : Kept} {s : State} {d : Die} (h_s : Keep qk s = true) : Keep qk (conflictCheck s d) = true := by
  unfold conflictCheck
  repeat' first
    | with_reducible assumption
    | with_reducible intro _
    | with_reducible apply fbit_wf
    | with_reducible apply fldRaise_wf
    | with_reducible apply wf_ite
    | simp only [wf_mk]
    | with_reducible apply keeps_of
    | (extract_lets x; first | (refine wf_cut (Keep qk x = true) ?_ ?_; focus (subst x); rotate_left; focus (intro hx; generalize x = y at hx ⊢)) | skip)

theorem setPllRef_wf {qk : Kept} {s : State} {d : Die} {r : Nat} (h_s : Keep qk s = true) : Keep qk (setPllRef s d r) = true := by
  unfold setPllRef
  repeat' first
    | with_reducible assumption
    | with_reducible intro _
    | with_reducible apply fput_wf
    | with_reducible apply fldRaise_wf
    | with_reducible apply wf_ite
    | simp only [wf_mk]
    | with_reducible apply keeps_of
    | (extract_lets x; first | (refine wf_cut (Keep qk x = true) ?_ ?_; focus (subst x); rotate_left; focus (intro hx; generalize x = y at hx ⊢)) | skip)

theorem followPll_wf {qk : Kept} {s : State} {d : Die} (h_s : Keep qk s = true) : Keep qk (followPll s d) = true := by
  unfold followPll
  repeat' first
    | with_reducible assumption
    | with_reducible intro _
    | with_reducible apply setPllRef_wf
    | with_reducible apply wf_ite
    | simp only [wf_mk]
    | with_reducible apply keeps_of
    | (extract_lets x; first | (refine wf_cut (Keep qk x = true) ?_ ?_; focus (subst x); rotate_left; focus (intro hx; generalize x = y at hx ⊢)) | skip)

theorem keepModel_wf {qk : Kept} {s : State} {d : Die} {a : Nat} (h_s : Keep qk s = true) : Keep qk (keepModel s d a) = true := by
  unfold keepModel
  repeat' first
    | with_reducible assumption
    | with_reducible intro _
    | with_reducible apply setDie_wf
    | with_reducible apply wf_ite
    | simp only [wf_mk]
    | with_reducible apply keeps_of
    | (extract_lets x; first | (refine wf_cut (Keep qk x = true) ?_ ?_; focus (subst x); rotate_left; focus (intro hx; generalize x = y at hx ⊢)) | skip)
    | dsimp -zeta only

theorem applyRecord_wf {qk : Kept} {s : State} {d : Die} {r : StagedRec} (h_s : Keep qk s = true) : Keep qk (applyRecord s d r) = true := by
  unfold applyRecord
  repeat' first
    | with_reducible assumption
    | with_reducible intro _
    | with_reducible apply fwr_wf
    | with_reducible apply setFch_wf
    | with_reducible apply ctrlApplied_wf
    | with_reducible apply dieCtrlApplied_wf
    | with_reducible apply conflictCheck_wf
    | with_reducible apply followPll_wf
    | with_reducible apply keepModel_wf
    | with_reducible apply wf_ite
    | simp only [wf_mk]
    | with_reducible apply keeps_of
    | (extract_lets x; first | (refine wf_cut (Keep qk x = true) ?_ ?_; focus (subst x); rotate_left; focus (intro hx; generalize x = y at hx ⊢)) | skip)

theorem settleTallyRecs_wf {qk : Kept} {s : State} {d : Die} {rs : List StagedRec} (h_s : Keep qk s = true) : Keep qk (settleTallyRecs s d rs) = true := by
  unfold settleTallyRecs
  repeat' first
    | with_reducible assumption
    | with_reducible intro _
    | with_reducible apply setDie_wf
    | with_reducible apply fwr_wf
    | with_reducible apply applyRecord_wf
    | with_reducible apply wf_forEach
    | with_reducible apply wf_ite
    | simp only [wf_mk]
    | with_reducible apply keeps_of
    | (extract_lets x; first | (refine wf_cut (Keep qk x = true) ?_ ?_; focus (subst x); rotate_left; focus (intro hx; generalize x = y at hx ⊢)) | skip)
    | split

theorem applyStaged_wf {qk : Kept} {s : State} {d : Die} {k : Nat} (h_s : Keep qk s = true) : Keep qk (applyStaged s d k) = true := by
  unfold applyStaged
  repeat' first
    | with_reducible assumption
    | with_reducible intro _
    | with_reducible apply setDie_wf
    | with_reducible apply settleTallyRecs_wf
    | with_reducible apply wf_forEach
    | with_reducible apply wf_foldl
    | with_reducible apply wf_foldl1
    | with_reducible apply wf_ite
    | simp only [wf_mk]
    | with_reducible apply keeps_of
    | (extract_lets x; first | (refine wf_cut (Keep qk x = true) ?_ ?_; focus (subst x); rotate_left; focus (intro hx; generalize x = y at hx ⊢)) | skip)
    | dsimp -zeta only

theorem hostLost_wf {qk : Kept} {s : State} {d : Die} (h_s : Keep qk s = true) : Keep qk (hostLost s d) = true := by
  unfold hostLost
  repeat' first
    | with_reducible assumption
    | with_reducible intro _
    | with_reducible apply fbit_wf
    | with_reducible apply fldRaise_wf
    | with_reducible apply tripChan_wf
    | with_reducible apply wf_forEach
    | with_reducible apply wf_ite
    | simp only [wf_mk]
    | with_reducible apply keeps_of
    | (extract_lets x; first | (refine wf_cut (Keep qk x = true) ?_ ?_; focus (subst x); rotate_left; focus (intro hx; generalize x = y at hx ⊢)) | skip)

theorem execHostLost_wf {qk : Kept} {d : Die} {s : State} (h_s : Keep qk s = true) : OW qk (execHostLost d s) := by
  unfold execHostLost
  repeat' first
    | with_reducible assumption
    | with_reducible intro _
    | with_reducible apply onDie_wf
    | with_reducible apply hostLost_wf
    | with_reducible apply ow_next
    | simp only [wf_mk]
    | with_reducible apply keeps_of
    | (extract_lets x; first | (refine wf_cut (Keep qk x = true) ?_ ?_; focus (subst x); rotate_left; focus (intro hx; generalize x = y at hx ⊢)) | skip)

theorem makeSafe_wf {qk : Kept} {s : State} {d : Die} (h_s : Keep qk s = true) : Keep qk (makeSafe s d) = true := by
  unfold makeSafe
  repeat' first
    | with_reducible assumption
    | with_reducible intro _
    | with_reducible apply setFldState_wf
    | with_reducible apply safeNow_wf
    | with_reducible apply wf_ite
    | simp only [wf_mk]
    | with_reducible apply keeps_of
    | (extract_lets x; first | (refine wf_cut (Keep qk x = true) ?_ ?_; focus (subst x); rotate_left; focus (intro hx; generalize x = y at hx ⊢)) | skip)

theorem execPwmClkLoss_wf {qk : Kept} {d : Die} {s : State} (h_s : Keep qk s = true) : OW qk (execPwmClkLoss d s) := by
  unfold execPwmClkLoss
  repeat' first
    | with_reducible assumption
    | with_reducible intro _
    | with_reducible apply setDie_wf
    | with_reducible apply fldRaise_wf
    | with_reducible apply onDie_wf
    | with_reducible apply setPllRef_wf
    | with_reducible apply makeSafe_wf
    | with_reducible apply ow_next
    | simp only [wf_mk]
    | with_reducible apply keeps_of
    | (extract_lets x; first | (refine wf_cut (Keep qk x = true) ?_ ?_; focus (subst x); rotate_left; focus (intro hx; generalize x = y at hx ⊢)) | skip)

theorem execFieldPllRefChange_wf {qk : Kept} {d : Die} {r : Fin 4} {s : State} (h_s : Keep qk s = true) : OW qk (execFieldPllRefChange d r s) := by
  unfold execFieldPllRefChange
  repeat' first
    | with_reducible assumption
    | with_reducible intro _
    | with_reducible apply onDie_wf
    | with_reducible apply setPllRef_wf
    | with_reducible apply ow_ite
    | with_reducible apply wf_ite
    | with_reducible apply ow_next
    | simp only [wf_mk]
    | with_reducible apply keeps_of
    | (extract_lets x; first | (refine wf_cut (Keep qk x = true) ?_ ?_; focus (subst x); rotate_left; focus (intro hx; generalize x = y at hx ⊢)) | skip)

theorem execFieldPllLock_wf {qk : Kept} {d : Die} {r : Fin 3} {s : State} (h_s : Keep qk s = true) : OW qk (execFieldPllLock d r s) := by
  unfold execFieldPllLock
  repeat' first
    | with_reducible assumption
    | with_reducible intro _
    | with_reducible apply setDie_wf
    | with_reducible apply leaveSafe_wf
    | with_reducible apply onDie_wf
    | with_reducible apply setPllRef_wf
    | with_reducible apply ow_ite
    | with_reducible apply wf_ite
    | with_reducible apply ow_next
    | simp only [wf_mk]
    | with_reducible apply keeps_of
    | (extract_lets x; first | (refine wf_cut (Keep qk x = true) ?_ ?_; focus (subst x); rotate_left; focus (intro hx; generalize x = y at hx ⊢)) | skip)

theorem execFieldRodFault_wf {qk : Kept} {d : Die} {s : State} (h_s : Keep qk s = true) : OW qk (execFieldRodFault d s) := by
  unfold execFieldRodFault
  repeat' first
    | with_reducible assumption
    | with_reducible intro _
    | with_reducible apply setDie_wf
    | with_reducible apply fldRaise_wf
    | with_reducible apply onDie_wf
    | with_reducible apply makeSafe_wf
    | with_reducible apply ow_next
    | simp only [wf_mk]
    | with_reducible apply keeps_of
    | (extract_lets x; first | (refine wf_cut (Keep qk x = true) ?_ ?_; focus (subst x); rotate_left; focus (intro hx; generalize x = y at hx ⊢)) | skip)

theorem execFieldRodRestart_wf {qk : Kept} {d : Die} {s : State} (h_s : Keep qk s = true) : OW qk (execFieldRodRestart d s) := by
  unfold execFieldRodRestart
  repeat' first
    | with_reducible assumption
    | with_reducible intro _
    | with_reducible apply setDie_wf
    | with_reducible apply leaveSafe_wf
    | with_reducible apply onDie_wf
    | with_reducible apply ow_ite
    | with_reducible apply wf_ite
    | with_reducible apply ow_next
    | simp only [wf_mk]
    | with_reducible apply keeps_of
    | (extract_lets x; first | (refine wf_cut (Keep qk x = true) ?_ ?_; focus (subst x); rotate_left; focus (intro hx; generalize x = y at hx ⊢)) | skip)

theorem execFieldUndervoltage_wf {qk : Kept} {d : Die} {s : State} (h_s : Keep qk s = true) : OW qk (execFieldUndervoltage d s) := by
  unfold execFieldUndervoltage
  repeat' first
    | with_reducible assumption
    | with_reducible intro _
    | with_reducible apply setDie_wf
    | with_reducible apply cutGates_wf
    | with_reducible apply sckFollow_wf
    | with_reducible apply wf_forEach
    | with_reducible apply ow_ite
    | with_reducible apply wf_ite
    | with_reducible apply ow_next
    | simp only [wf_mk]
    | with_reducible apply keeps_of
    | (extract_lets x; first | (refine wf_cut (Keep qk x = true) ?_ ?_; focus (subst x); rotate_left; focus (intro hx; generalize x = y at hx ⊢)) | skip)

theorem execFieldDiePowerOn_wf {qk : Kept} {d : Die} {s : State} (h_s : Keep qk s = true) : OW qk (execFieldDiePowerOn d s) := by
  unfold execFieldDiePowerOn
  repeat' first
    | with_reducible assumption
    | with_reducible intro _
    | with_reducible apply setDie_wf
    | with_reducible apply fldRaise_wf
    | with_reducible apply faultFlush_wf
    | with_reducible apply ow_ite
    | with_reducible apply wf_ite
    | with_reducible apply ow_next
    | simp only [wf_mk]
    | with_reducible apply keeps_of
    | (extract_lets x; first | (refine wf_cut (Keep qk x = true) ?_ ?_; focus (subst x); rotate_left; focus (intro hx; generalize x = y at hx ⊢)) | skip)

end Sys2Proof.Machine
end

