-- ==== Sys2Proof/Laws/KeepsCarry.lean ====
section
/-! SUPPORT. The operations of Machine/Carry.lean keep what `Keep` names. -/

namespace Sys2Proof.Machine
open Sys2Proof
set_option linter.all false
set_option simprocs false

theorem fire_wf {qk : Kept} {s : State} {src stag : Nat} (h_s : Keep qk s = true) : Keep qk (fire s src stag) = true := by
  unfold fire
  repeat' first
    | with_reducible assumption
    | with_reducible intro _
    | with_reducible apply fireWith_wf
    | with_reducible apply raise_wf
    | simp only [wf_mk]
    | with_reducible apply keeps_of
    | (extract_lets x; first | (refine wf_cut (Keep qk x = true) ?_ ?_; focus (subst x); rotate_left; focus (intro hx; generalize x = y at hx ⊢)) | skip)

theorem finishCarry_wf {qk : Kept} {enabled : Bool} {s : State} {d : Option DescRef} {stag : Nat} (h_s : Keep qk s = true) : Keep qk (finishCarry enabled s d stag) = true := by
  unfold finishCarry
  repeat' first
    | with_reducible assumption
    | with_reducible intro _
    | with_reducible apply finishOpt_wf
    | with_reducible apply wf_ite
    | simp only [wf_mk]
    | with_reducible apply keeps_of
    | (extract_lets x; first | (refine wf_cut (Keep qk x = true) ?_ ?_; focus (subst x); rotate_left; focus (intro hx; generalize x = y at hx ⊢)) | skip)

theorem hostSnpFire_wf {qk : Kept} {w : Word} {s : State} (h_s : Keep qk s = true) : Keep qk (hostSnpFire w s) = true := by
  unfold hostSnpFire
  repeat' first
    | with_reducible assumption
    | with_reducible intro _
    | with_reducible apply fire_wf
    | with_reducible apply wf_ite
    | simp only [wf_mk]
    | with_reducible apply keeps_of
    | (extract_lets x; first | (refine wf_cut (Keep qk x = true) ?_ ?_; focus (subst x); rotate_left; focus (intro hx; generalize x = y at hx ⊢)) | skip)

theorem execSnpFire_wf {qk : Kept} {w : Word} {s : State} (h_s : Keep qk s = true) : OW qk (execSnpFire w s) := by
  unfold execSnpFire
  repeat' first
    | with_reducible assumption
    | with_reducible intro _
    | with_reducible apply onBar_wf
    | with_reducible apply hostSnpFire_wf
    | with_reducible apply ow_next
    | simp only [wf_mk]
    | with_reducible apply keeps_of
    | (extract_lets x; first | (refine wf_cut (Keep qk x = true) ?_ ?_; focus (subst x); rotate_left; focus (intro hx; generalize x = y at hx ⊢)) | skip)

theorem execCarryInEdge_wf {qk : Kept} {rising : Bool} {s : State} (h_s : Keep qk s = true) : OW qk (execCarryInEdge rising s) := by
  unfold execCarryInEdge
  repeat' first
    | with_reducible assumption
    | with_reducible intro _
    | with_reducible apply onHost_wf
    | with_reducible apply fire_wf
    | with_reducible apply ow_ite
    | with_reducible apply wf_ite
    | with_reducible apply ow_next
    | simp only [wf_mk]
    | with_reducible apply keeps_of
    | (extract_lets x; first | (refine wf_cut (Keep qk x = true) ?_ ?_; focus (subst x); rotate_left; focus (intro hx; generalize x = y at hx ⊢)) | skip)

theorem matchMissed_wf {qk : Kept} {s : State} (h_s : Keep qk s = true) : Keep qk (matchMissed s) = true := by
  unfold matchMissed
  repeat' first
    | with_reducible assumption
    | with_reducible intro _
    | with_reducible apply rset_wf
    | with_reducible apply rclr_wf
    | with_reducible apply raise_wf
    | simp only [wf_mk]
    | with_reducible apply keeps_of
    | (extract_lets x; first | (refine wf_cut (Keep qk x = true) ?_ ?_; focus (subst x); rotate_left; focus (intro hx; generalize x = y at hx ⊢)) | skip)

theorem hostSnpMatchArm_wf {qk : Kept} {w : Word} {s : State} (h_s : Keep qk s = true) : Keep qk (hostSnpMatchArm w s) = true := by
  unfold hostSnpMatchArm
  repeat' first
    | with_reducible assumption
    | with_reducible intro _
    | with_reducible apply rset_wf
    | with_reducible apply rclr_wf
    | with_reducible apply finishOpt_wf
    | with_reducible apply matchMissed_wf
    | with_reducible apply wf_ite
    | simp only [wf_mk]
    | with_reducible apply keeps_of
    | (extract_lets x; first | (refine wf_cut (Keep qk x = true) ?_ ?_; focus (subst x); rotate_left; focus (intro hx; generalize x = y at hx ⊢)) | skip)
    | split

theorem execSnpMatchArm_wf {qk : Kept} {w : Word} {s : State} (h_s : Keep qk s = true) : OW qk (execSnpMatchArm w s) := by
  unfold execSnpMatchArm
  repeat' first
    | with_reducible assumption
    | with_reducible intro _
    | with_reducible apply onBar_wf
    | with_reducible apply hostSnpMatchArm_wf
    | with_reducible apply ow_next
    | simp only [wf_mk]
    | with_reducible apply keeps_of
    | (extract_lets x; first | (refine wf_cut (Keep qk x = true) ?_ ?_; focus (subst x); rotate_left; focus (intro hx; generalize x = y at hx ⊢)) | skip)

theorem disarm_wf {qk : Kept} {s : State} (h_s : Keep qk s = true) : Keep qk (disarm s) = true := by
  unfold disarm
  repeat' first
    | with_reducible assumption
    | with_reducible intro _
    | with_reducible apply rclr_wf
    | simp only [wf_mk]
    | with_reducible apply keeps_of
    | (extract_lets x; first | (refine wf_cut (Keep qk x = true) ?_ ?_; focus (subst x); rotate_left; focus (intro hx; generalize x = y at hx ⊢)) | skip)

theorem clearTimed_wf {qk : Kept} {s : State} {t : Int} (h_s : Keep qk s = true) : Keep qk (clearTimed s t) = true := by
  unfold clearTimed
  repeat' first
    | with_reducible assumption
    | with_reducible intro _
    | with_reducible apply disarm_wf
    | with_reducible apply wf_ite
    | simp only [wf_mk]
    | with_reducible apply keeps_of
    | (extract_lets x; first | (refine wf_cut (Keep qk x = true) ?_ ?_; focus (subst x); rotate_left; focus (intro hx; generalize x = y at hx ⊢)) | skip)
    | dsimp -zeta only
    | split

theorem finishTimed_wf {qk : Kept} {s u : State} {t : Int} (h_s : Keep qk s = true) (h_u : Keep qk u = true) : Keep qk (finishTimed s u t) = true := by
  unfold finishTimed
  repeat' first
    | with_reducible assumption
    | with_reducible intro _
    | with_reducible apply finishCarry_wf
    | with_reducible apply wf_forEach
    | with_reducible apply wf_ite
    | simp only [wf_mk]
    | with_reducible apply keeps_of
    | (extract_lets x; first | (refine wf_cut (Keep qk x = true) ?_ ?_; focus (subst x); rotate_left; focus (intro hx; generalize x = y at hx ⊢)) | skip)
    | split

theorem timedCarry_wf {qk : Kept} {s : State} {t : Int} (h_s : Keep qk s = true) : Keep qk (timedCarry s t) = true := by
  unfold timedCarry
  repeat' first
    | with_reducible assumption
    | with_reducible intro _
    | with_reducible apply carryWith_wf
    | with_reducible apply raise_wf
    | with_reducible apply clearTimed_wf
    | with_reducible apply finishTimed_wf
    | with_reducible apply wf_ite
    | simp only [wf_mk]
    | with_reducible apply keeps_of
    | (extract_lets x; first | (refine wf_cut (Keep qk x = true) ?_ ?_; focus (subst x); rotate_left; focus (intro hx; generalize x = y at hx ⊢)) | skip)

theorem execSnpMatchReached_wf {qk : Kept} {s : State} (h_s : Keep qk s = true) : OW qk (execSnpMatchReached s) := by
  unfold execSnpMatchReached
  repeat' first
    | with_reducible assumption
    | with_reducible intro _
    | with_reducible apply onHost_wf
    | with_reducible apply timedCarry_wf
    | with_reducible apply ow_ite
    | with_reducible apply wf_ite
    | with_reducible apply ow_next
    | simp only [wf_mk]
    | with_reducible apply keeps_of
    | (extract_lets x; first | (refine wf_cut (Keep qk x = true) ?_ ?_; focus (subst x); rotate_left; focus (intro hx; generalize x = y at hx ⊢)) | skip)
    | split

theorem execStackCarryTime_wf {qk : Kept} {s : State} (h_s : Keep qk s = true) : OW qk (execStackCarryTime s) := by
  unfold execStackCarryTime
  repeat' first
    | with_reducible assumption
    | with_reducible intro _
    | with_reducible apply onHost_wf
    | with_reducible apply timedCarry_wf
    | with_reducible apply ow_next
    | simp only [wf_mk]
    | with_reducible apply keeps_of
    | (extract_lets x; first | (refine wf_cut (Keep qk x = true) ?_ ?_; focus (subst x); rotate_left; focus (intro hx; generalize x = y at hx ⊢)) | skip)
    | dsimp -zeta only
    | split

theorem scheduleCarry_wf {qk : Kept} {s : State} {t : Int} {stag : Nat} {d : Option DescRef} (h_s : Keep qk s = true) : Keep qk (scheduleCarry s t stag d) = true := by
  unfold scheduleCarry
  repeat' first
    | with_reducible assumption
    | with_reducible intro _
    | with_reducible apply rset_wf
    | with_reducible apply finishOpt_wf
    | with_reducible apply raise_wf
    | with_reducible apply wf_ite
    | simp only [wf_mk]
    | with_reducible apply keeps_of
    | (extract_lets x; first | (refine wf_cut (Keep qk x = true) ?_ ?_; focus (subst x); rotate_left; focus (intro hx; generalize x = y at hx ⊢)) | skip)

theorem hostSnpHoldWrite_wf {qk : Kept} {w : Word} {s : State} (h_s : Keep qk s = true) : Keep qk (hostSnpHoldWrite w s) = true := by
  unfold hostSnpHoldWrite
  repeat' first
    | with_reducible assumption
    | with_reducible intro _
    | with_reducible apply rbit_wf
    | with_reducible apply rwrite_wf
    | with_reducible apply showBank_wf
    | with_reducible apply wf_ite
    | simp only [wf_mk]
    | with_reducible apply keeps_of
    | (extract_lets x; first | (refine wf_cut (Keep qk x = true) ?_ ?_; focus (subst x); rotate_left; focus (intro hx; generalize x = y at hx ⊢)) | skip)
    | split

theorem execSnpHoldWrite_wf {qk : Kept} {w : Word} {s : State} (h_s : Keep qk s = true) : OW qk (execSnpHoldWrite w s) := by
  unfold execSnpHoldWrite
  repeat' first
    | with_reducible assumption
    | with_reducible intro _
    | with_reducible apply onBar_wf
    | with_reducible apply hostSnpHoldWrite_wf
    | with_reducible apply ow_next
    | simp only [wf_mk]
    | with_reducible apply keeps_of
    | (extract_lets x; first | (refine wf_cut (Keep qk x = true) ?_ ?_; focus (subst x); rotate_left; focus (intro hx; generalize x = y at hx ⊢)) | skip)

theorem execCarryOutEnd_wf {qk : Kept} {s : State} (h_s : Keep qk s = true) : OW qk (execCarryOutEnd s) := by
  unfold execCarryOutEnd
  repeat' first
    | with_reducible assumption
    | with_reducible intro _
    | with_reducible apply onHost_wf
    | with_reducible apply sendOut_wf
    | with_reducible apply ow_ite
    | with_reducible apply wf_ite
    | with_reducible apply ow_next
    | simp only [wf_mk]
    | with_reducible apply keeps_of
    | (extract_lets x; first | (refine wf_cut (Keep qk x = true) ?_ ?_; focus (subst x); rotate_left; focus (intro hx; generalize x = y at hx ⊢)) | skip)

theorem changeBanks_wf {qk : Kept} {s : State} {f : Bank → Bank} (h_s : Keep qk s = true) : Keep qk (changeBanks s f) = true := by
  unfold changeBanks
  repeat' first
    | with_reducible assumption
    | with_reducible intro _
    | simp only [wf_mk]
    | with_reducible apply keeps_of
    | (extract_lets x; first | (refine wf_cut (Keep qk x = true) ?_ ?_; focus (subst x); rotate_left; focus (intro hx; generalize x = y at hx ⊢)) | skip)

theorem execFieldSectionTimeout_wf {qk : Kept} {die : Die} {s : State} (h_s : Keep qk s = true) : OW qk (execFieldSectionTimeout die s) := by
  unfold execFieldSectionTimeout
  repeat' first
    | with_reducible assumption
    | with_reducible intro _
    | with_reducible apply onHost_wf
    | with_reducible apply raise_wf
    | with_reducible apply changeBanks_wf
    | with_reducible apply wf_forEach
    | with_reducible apply ow_ite
    | with_reducible apply wf_ite
    | with_reducible apply ow_next
    | simp only [wf_mk]
    | with_reducible apply keeps_of
    | (extract_lets x; first | (refine wf_cut (Keep qk x = true) ?_ ?_; focus (subst x); rotate_left; focus (intro hx; generalize x = y at hx ⊢)) | skip)

theorem execSnapshotArm_wf {qk : Kept} {d : DescRef} {s : State} (h_s : Keep qk s = true) : OW qk (execSnapshotArm d s) := by
  unfold execSnapshotArm
  repeat' first
    | with_reducible assumption
    | with_reducible intro _
    | with_reducible apply rput_wf
    | with_reducible apply rset_wf
    | with_reducible apply finish_wf
    | with_reducible apply onDesc_wf
    | with_reducible apply stkSend_wf
    | with_reducible apply fire_wf
    | with_reducible apply finishCarry_wf
    | with_reducible apply matchMissed_wf
    | with_reducible apply scheduleCarry_wf
    | with_reducible apply ow_ite
    | with_reducible apply wf_ite
    | with_reducible apply ow_next
    | simp only [wf_mk]
    | with_reducible apply keeps_of
    | (extract_lets x; first | (refine wf_cut (Keep qk x = true) ?_ ?_; focus (subst x); rotate_left; focus (intro hx; generalize x = y at hx ⊢)) | skip)
    | split

theorem execSnapshotRead_wf {qk : Kept} {d : DescRef} {s : State} (h_s : Keep qk s = true) : OW qk (execSnapshotRead d s) := by
  unfold execSnapshotRead
  repeat' first
    | with_reducible assumption
    | with_reducible intro _
    | with_reducible apply hostWrite_wf
    | with_reducible apply finish_wf
    | with_reducible apply onDesc_wf
    | with_reducible apply ow_ite
    | with_reducible apply wf_ite
    | with_reducible apply ow_next
    | simp only [wf_mk]
    | with_reducible apply keeps_of
    | (extract_lets x; first | (refine wf_cut (Keep qk x = true) ?_ ?_; focus (subst x); rotate_left; focus (intro hx; generalize x = y at hx ⊢)) | skip)

end Sys2Proof.Machine
end

