-- ==== Sys2Proof/Laws/KeepsRods.lean ====
section
/-! SUPPORT. The operations of Machine/Rods.lean keep what `Keep` names. -/

namespace Sys2Proof.Machine
open Sys2Proof
set_option linter.all false
set_option simprocs false

theorem failRod_wf {qk : Kept} {s : State} {g cause pc : Nat} (h_s : Keep qk s = true) : Keep qk (failRod s g cause pc) = true := by
  unfold failRod
  repeat' first
    | with_reducible assumption
    | with_reducible intro _
    | with_reducible apply wr_wf
    | with_reducible apply rput_wf
    | with_reducible apply rset_wf
    | with_reducible apply radd_wf
    | with_reducible apply setPhase'_wf
    | with_reducible apply dropPass_wf
    | with_reducible apply rodFence_wf
    | with_reducible apply raise_wf
    | with_reducible apply wf_ite
    | simp only [wf_mk]
    | with_reducible apply keeps_of
    | (extract_lets x; first | (refine wf_cut (Keep qk x = true) ?_ ?_; focus (subst x); rotate_left; focus (intro hx; generalize x = y at hx ⊢)) | skip)

theorem failIssue_wf {qk : Kept} {s : State} {g cause stage : Nat} (h_s : Keep qk s = true) : Keep qk (failIssue s g cause stage) = true := by
  unfold failIssue
  repeat' first
    | with_reducible assumption
    | with_reducible intro _
    | with_reducible apply landBefore_wf
    | with_reducible apply failRod_wf
    | simp only [wf_mk]
    | with_reducible apply keeps_of
    | (extract_lets x; first | (refine wf_cut (Keep qk x = true) ?_ ?_; focus (subst x); rotate_left; focus (intro hx; generalize x = y at hx ⊢)) | skip)

theorem poisonRead_wf {qk : Kept} {s : State} {g w : Nat} (h_s : Keep qk s = true) : Keep qk (poisonRead s g w) = true := by
  unfold poisonRead
  repeat' first
    | with_reducible assumption
    | with_reducible intro _
    | with_reducible apply raise_wf
    | simp only [wf_mk]
    | with_reducible apply keeps_of
    | (extract_lets x; first | (refine wf_cut (Keep qk x = true) ?_ ?_; focus (subst x); rotate_left; focus (intro hx; generalize x = y at hx ⊢)) | skip)

theorem failMove_wf {qk : Kept} {s : State} {g cause stage a : Nat} (h_s : Keep qk s = true) : Keep qk (failMove s g cause stage a) = true := by
  unfold failMove
  repeat' first
    | with_reducible assumption
    | with_reducible intro _
    | with_reducible apply failIssue_wf
    | with_reducible apply poisonRead_wf
    | with_reducible apply wf_ite
    | simp only [wf_mk]
    | with_reducible apply keeps_of
    | (extract_lets x; first | (refine wf_cut (Keep qk x = true) ?_ ?_; focus (subst x); rotate_left; focus (intro hx; generalize x = y at hx ⊢)) | skip)

theorem countIssue_wf {qk : Kept} {s : State} {g : Nat} {frame : List Nat} (h_s : Keep qk s = true) : Keep qk (countIssue s g frame) = true := by
  unfold countIssue
  repeat' first
    | with_reducible assumption
    | with_reducible intro _
    | with_reducible apply setRod_wf
    | with_reducible apply settleFrame_wf
    | simp only [wf_mk]
    | with_reducible apply keeps_of
    | (extract_lets x; first | (refine wf_cut (Keep qk x = true) ?_ ?_; focus (subst x); rotate_left; focus (intro hx; generalize x = y at hx ⊢)) | skip)

theorem issue_wf {qk : Kept} {s : State} {g : Nat} {op : RodOp} {eff : RodEnv → RodResult} {control : Nat → Rod → Except Nat Rod} (h_s : Keep qk s = true) : Keep qk (issue s g op eff control) = true := by
  unfold issue
  repeat' first
    | with_reducible assumption
    | with_reducible intro _
    | with_reducible apply setRod_wf
    | with_reducible apply landBefore_wf
    | with_reducible apply failIssue_wf
    | with_reducible apply failMove_wf
    | with_reducible apply countIssue_wf
    | with_reducible apply wf_ite
    | simp only [wf_mk]
    | with_reducible apply keeps_of
    | (extract_lets x; first | (refine wf_cut (Keep qk x = true) ?_ ?_; focus (subst x); rotate_left; focus (intro hx; generalize x = y at hx ⊢)) | skip)
    | split

theorem onIssue_wf {qk : Kept} {s : State} {g : Nat} {op : RodOp} {eff : RodEnv → RodResult} (h_s : Keep qk s = true) : OW qk (onIssue s g op eff) := by
  unfold onIssue
  repeat' first
    | with_reducible assumption
    | with_reducible intro _
    | with_reducible apply onHost_wf
    | with_reducible apply issue_wf
    | with_reducible apply ow_next
    | simp only [wf_mk]
    | with_reducible apply keeps_of
    | (extract_lets x; first | (refine wf_cut (Keep qk x = true) ?_ ?_; focus (subst x); rotate_left; focus (intro hx; generalize x = y at hx ⊢)) | skip)

theorem dmaError_wf {qk : Kept} {s : State} {f t a kind : Nat} (h_s : Keep qk s = true) : Keep qk (dmaError s f t a kind) = true := by
  unfold dmaError
  repeat' first
    | with_reducible assumption
    | with_reducible intro _
    | with_reducible apply raise_wf
    | with_reducible apply requestFails_wf
    | simp only [wf_mk]
    | with_reducible apply keeps_of
    | (extract_lets x; first | (refine wf_cut (Keep qk x = true) ?_ ?_; focus (subst x); rotate_left; focus (intro hx; generalize x = y at hx ⊢)) | skip)

theorem importEntry_wf {qk : Kept} {s : State} {g e : Nat} (h_s : Keep qk s = true) : PW qk (importEntry s g e) := by
  unfold importEntry
  repeat' first
    | with_reducible assumption
    | with_reducible intro _
    | with_reducible apply setRod_wf
    | with_reducible apply poisonRead_wf
    | with_reducible apply dmaError_wf
    | with_reducible apply wf_foldl
    | with_reducible apply wf_foldl1
    | with_reducible apply pw_ite
    | with_reducible apply wf_ite
    | with_reducible apply pw_mk
    | simp only [wf_mk]
    | with_reducible apply keeps_of
    | (extract_lets x; first | (refine wf_cut (Keep qk x = true) ?_ ?_; focus (subst x); rotate_left; focus (intro hx; generalize x = y at hx ⊢)) | skip)
    | dsimp -zeta only
    | split
theorem importEntry_e {qk : Kept} {s : State} {g e : Nat} {zt : State} {zb} (e : (importEntry s g e) = (zt, zb)) (h_s : Keep qk s = true) : Keep qk zt = true := pw_e (importEntry_wf h_s) e
theorem importEntry_p {qk : Kept} {s : State} {g e : Nat} (h_s : Keep qk s = true) : Keep qk (importEntry s g e).1 = true := importEntry_wf h_s

theorem entryTimeout_wf {qk : Kept} {s : State} {g e b : Nat} (h_s : Keep qk s = true) : Keep qk (entryTimeout s g e b) = true := by
  unfold entryTimeout
  repeat' first
    | with_reducible assumption
    | with_reducible intro _
    | with_reducible apply raise_wf
    | with_reducible apply captureError_wf
    | with_reducible apply wf_ite
    | simp only [wf_mk]
    | with_reducible apply keeps_of
    | (extract_lets x; first | (refine wf_cut (Keep qk x = true) ?_ ?_; focus (subst x); rotate_left; focus (intro hx; generalize x = y at hx ⊢)) | skip)

theorem runImports_wf {qk : Kept} : ∀ {l : List Nat} {s : State} {g : Nat} {lost : Option Nat}, Keep qk s = true → PW qk (runImports s g lost l)
  | [], s, g, lost, h => h
  | e :: es, s, g, lost, h => by
    unfold runImports
    refine pw_ite h (pw_ite (pw_mk (entryTimeout_wf h)) ?_)
    have h1 := importEntry_wf (g := g) (e := e) h
    split
    · rename_i he; exact pw_mk (pw_e h1 he)
    · rename_i he; exact runImports_wf (pw_e h1 he)
theorem runImports_e {qk : Kept} {s : State} {g : Nat} {lost : Option Nat} {l : List Nat} {zt : State} {zb} (e : (runImports s g lost l) = (zt, zb)) (h_s : Keep qk s = true) : Keep qk zt = true := pw_e (runImports_wf h_s) e
theorem runImports_p {qk : Kept} {s : State} {g : Nat} {lost : Option Nat} {l : List Nat} (h_s : Keep qk s = true) : Keep qk (runImports s g lost l).1 = true := runImports_wf h_s

theorem exportEntry_wf {qk : Kept} {s : State} {g e : Nat} {late : Option Nat} (h_s : Keep qk s = true) : Keep qk (exportEntry s g e late) = true := by
  unfold exportEntry
  repeat' first
    | with_reducible assumption
    | with_reducible intro _
    | with_reducible apply rset_wf
    | with_reducible apply frameSet_wf
    | with_reducible apply lateWrite_wf
    | with_reducible apply fabWriteBead_wf
    | with_reducible apply wf_foldl
    | with_reducible apply wf_foldl1
    | with_reducible apply wf_ite
    | simp only [wf_mk]
    | with_reducible apply keeps_of
    | (extract_lets x; first | (refine wf_cut (Keep qk x = true) ?_ ?_; focus (subst x); rotate_left; focus (intro hx; generalize x = y at hx ⊢)) | skip)
    | dsimp -zeta only

theorem runExports_wf {qk : Kept} : ∀ {l : List Nat} {s : State} {g : Nat} {late : Option (Nat × Nat)} {lost : Option Nat}, Keep qk s = true →
    Keep qk (runExports s g late lost l) = true
  | [], s, g, late, lost, h => h
  | e :: es, s, g, late, lost, h => by
    unfold runExports
    refine wf_ite (failRod_wf (entryTimeout_wf h)) ?_
    split
    · exact failRod_wf (dmaError_wf h)
    · exact runExports_wf (exportEntry_wf h)

theorem startPass_wf {qk : Kept} {s : State} {g doneAt : Nat} {lost : Option Nat} (h_s : Keep qk s = true) : Keep qk (startPass s g doneAt lost) = true := by
  unfold startPass
  repeat' first
    | with_reducible assumption
    | with_reducible intro _
    | with_reducible apply rput_wf
    | with_reducible apply rset_wf
    | with_reducible apply setRod_wf
    | with_reducible apply setPhase'_wf
    | with_reducible apply failRod_wf
    | refine runImports_e (by with_reducible assumption) ?_
    | with_reducible apply runImports_p
    | with_reducible apply runImports_wf
    | with_reducible apply wf_ite
    | simp only [wf_mk]
    | with_reducible apply keeps_of
    | (extract_lets x; first | (refine wf_cut (Keep qk x = true) ?_ ?_; focus (subst x); rotate_left; focus (intro hx; generalize x = y at hx ⊢)) | skip)
    | split

theorem endPass_wf {qk : Kept} {s : State} {g : Nat} (h_s : Keep qk s = true) : Keep qk (endPass s g) = true := by
  unfold endPass
  repeat' first
    | with_reducible assumption
    | with_reducible intro _
    | with_reducible apply rput_wf
    | with_reducible apply setPhase'_wf
    | with_reducible apply landAll_wf
    | simp only [wf_mk]
    | with_reducible apply keeps_of
    | (extract_lets x; first | (refine wf_cut (Keep qk x = true) ?_ ?_; focus (subst x); rotate_left; focus (intro hx; generalize x = y at hx ⊢)) | skip)

theorem budgetEnd_wf {qk : Kept} {s : State} {g : Nat} (h_s : Keep qk s = true) : Keep qk (budgetEnd s g) = true := by
  unfold budgetEnd
  repeat' first
    | with_reducible assumption
    | with_reducible intro _
    | with_reducible apply landBefore_wf
    | with_reducible apply failRod_wf
    | with_reducible apply wf_ite
    | simp only [wf_mk]
    | with_reducible apply keeps_of
    | (extract_lets x; first | (refine wf_cut (Keep qk x = true) ?_ ?_; focus (subst x); rotate_left; focus (intro hx; generalize x = y at hx ⊢)) | skip)

theorem exportRod_wf {qk : Kept} {s : State} {g : Nat} {late : Option (Nat × Nat)} {lost : Option Nat} (h_s : Keep qk s = true) : Keep qk (exportRod s g late lost) = true := by
  unfold exportRod
  repeat' first
    | with_reducible assumption
    | with_reducible intro _
    | with_reducible apply failRod_wf
    | with_reducible apply runExports_wf
    | with_reducible apply wf_ite
    | simp only [wf_mk]
    | with_reducible apply keeps_of
    | (extract_lets x; first | (refine wf_cut (Keep qk x = true) ?_ ?_; focus (subst x); rotate_left; focus (intro hx; generalize x = y at hx ⊢)) | skip)

theorem actEn_wf {qk : Kept} {s : State} {g : Nat} {en : Bool} (h_s : Keep qk s = true) : Keep qk (actEn s g en) = true := by
  unfold actEn
  repeat' first
    | with_reducible assumption
    | with_reducible intro _
    | with_reducible apply setRodState_wf
    | with_reducible apply wf_ite
    | simp only [wf_mk]
    | with_reducible apply keeps_of
    | (extract_lets x; first | (refine wf_cut (Keep qk x = true) ?_ ?_; focus (subst x); rotate_left; focus (intro hx; generalize x = y at hx ⊢)) | skip)

theorem rodBoundary_wf {qk : Kept} {s : State} {g : Nat} (h_s : Keep qk s = true) : Keep qk (rodBoundary s g) = true := by
  unfold rodBoundary
  repeat' first
    | with_reducible assumption
    | with_reducible intro _
    | with_reducible apply rclr_wf
    | with_reducible apply setRod_wf
    | with_reducible apply setRodState_wf
    | with_reducible apply setPhase'_wf
    | with_reducible apply actEn_wf
    | with_reducible apply wf_forEach
    | with_reducible apply wf_ite
    | simp only [wf_mk]
    | with_reducible apply keeps_of
    | (extract_lets x; first | (refine wf_cut (Keep qk x = true) ?_ ?_; focus (subst x); rotate_left; focus (intro hx; generalize x = y at hx ⊢)) | skip)
    | dsimp -zeta only

theorem setRodEn_wf {qk : Kept} {s : State} {g : Nat} {en : Bool} (h_s : Keep qk s = true) : Keep qk (setRodEn s g en) = true := by
  unfold setRodEn
  repeat' first
    | with_reducible assumption
    | with_reducible intro _
    | with_reducible apply rbit_wf
    | with_reducible apply setRod_wf
    | with_reducible apply actEn_wf
    | simp only [wf_mk]
    | with_reducible apply keeps_of
    | (extract_lets x; first | (refine wf_cut (Keep qk x = true) ?_ ?_; focus (subst x); rotate_left; focus (intro hx; generalize x = y at hx ⊢)) | skip)

theorem execRodPassStart_wf {qk : Kept} {g : Fin 64} {imports : ImportReport} {s : State} (h_s : Keep qk s = true) : OW qk (execRodPassStart g imports s) := by
  unfold execRodPassStart
  repeat' first
    | with_reducible assumption
    | with_reducible intro _
    | with_reducible apply onHost_wf
    | with_reducible apply startPass_wf
    | with_reducible apply ow_next
    | simp only [wf_mk]
    | with_reducible apply keeps_of
    | (extract_lets x; first | (refine wf_cut (Keep qk x = true) ?_ ?_; focus (subst x); rotate_left; focus (intro hx; generalize x = y at hx ⊢)) | skip)

theorem execWarnThreshold_wf {qk : Kept} {g : Fin 64} {s : State} (h_s : Keep qk s = true) : OW qk (execWarnThreshold g s) := by
  unfold execWarnThreshold
  repeat' first
    | with_reducible assumption
    | with_reducible intro _
    | with_reducible apply rset_wf
    | with_reducible apply onHost_wf
    | with_reducible apply ow_ite
    | with_reducible apply wf_ite
    | with_reducible apply ow_next
    | simp only [wf_mk]
    | with_reducible apply keeps_of
    | (extract_lets x; first | (refine wf_cut (Keep qk x = true) ?_ ?_; focus (subst x); rotate_left; focus (intro hx; generalize x = y at hx ⊢)) | skip)

theorem execComputeBudgetEnd_wf {qk : Kept} {exports : ExportReport} {s : State} (h_s : Keep qk s = true) : OW qk (execComputeBudgetEnd exports s) := by
  unfold execComputeBudgetEnd
  repeat' first
    | with_reducible assumption
    | with_reducible intro _
    | with_reducible apply onHost_wf
    | with_reducible apply budgetEnd_wf
    | with_reducible apply exportRod_wf
    | with_reducible apply wf_foldl
    | with_reducible apply wf_foldl1
    | with_reducible apply ow_ite
    | with_reducible apply wf_ite
    | with_reducible apply ow_next
    | simp only [wf_mk]
    | with_reducible apply keeps_of
    | (extract_lets x; first | (refine wf_cut (Keep qk x = true) ?_ ?_; focus (subst x); rotate_left; focus (intro hx; generalize x = y at hx ⊢)) | skip)
    | dsimp -zeta only

theorem execInterruptAccept_wf {qk : Kept} {g : Fin 64} {s : State} (h_s : Keep qk s = true) : OW qk (execInterruptAccept g s) := by
  unfold execInterruptAccept
  repeat' first
    | with_reducible assumption
    | with_reducible intro _
    | with_reducible apply rclr_wf
    | with_reducible apply onHost_wf
    | with_reducible apply setRod_wf
    | with_reducible apply settleFrame_wf
    | with_reducible apply landAll_wf
    | with_reducible apply ow_ite
    | with_reducible apply wf_ite
    | with_reducible apply ow_next
    | simp only [wf_mk]
    | with_reducible apply keeps_of
    | (extract_lets x; first | (refine wf_cut (Keep qk x = true) ?_ ?_; focus (subst x); rotate_left; focus (intro hx; generalize x = y at hx ⊢)) | skip)
    | split

theorem execRodHalt_wf {qk : Kept} {g : Fin 64} {s : State} (h_s : Keep qk s = true) : OW qk (execRodHalt g s) := by
  unfold execRodHalt
  repeat' first
    | with_reducible assumption
    | with_reducible intro _
    | with_reducible apply rput_wf
    | with_reducible apply onHost_wf
    | with_reducible apply setRodState_wf
    | with_reducible apply setPhase'_wf
    | with_reducible apply landAll_wf
    | with_reducible apply ow_ite
    | with_reducible apply wf_ite
    | with_reducible apply ow_next
    | simp only [wf_mk]
    | with_reducible apply keeps_of
    | (extract_lets x; first | (refine wf_cut (Keep qk x = true) ?_ ?_; focus (subst x); rotate_left; focus (intro hx; generalize x = y at hx ⊢)) | skip)

theorem execIllegalEncoding_wf {qk : Kept} {g : Fin 64} {s : State} (h_s : Keep qk s = true) : OW qk (execIllegalEncoding g s) := by
  unfold execIllegalEncoding
  repeat' first
    | with_reducible assumption
    | with_reducible intro _
    | with_reducible apply onHost_wf
    | with_reducible apply failIssue_wf
    | with_reducible apply ow_ite
    | with_reducible apply wf_ite
    | with_reducible apply ow_next
    | simp only [wf_mk]
    | with_reducible apply keeps_of
    | (extract_lets x; first | (refine wf_cut (Keep qk x = true) ?_ ?_; focus (subst x); rotate_left; focus (intro hx; generalize x = y at hx ⊢)) | skip)

theorem execRodNop_wf {qk : Kept} {g : Fin 64} {s : State} (h_s : Keep qk s = true) : OW qk (execRodNop g s) := by
  unfold execRodNop
  repeat' first
    | with_reducible assumption
    | with_reducible intro _
    | with_reducible apply onIssue_wf
    | with_reducible apply ow_next
    | simp only [wf_mk]
    | with_reducible apply keeps_of
    | (extract_lets x; first | (refine wf_cut (Keep qk x = true) ?_ ?_; focus (subst x); rotate_left; focus (intro hx; generalize x = y at hx ⊢)) | skip)

theorem execRodLdi_wf {qk : Kept} {g : Fin 64} {s : State} (h_s : Keep qk s = true) : OW qk (execRodLdi g s) := by
  unfold execRodLdi
  repeat' first
    | with_reducible assumption
    | with_reducible intro _
    | with_reducible apply onHost_wf
    | with_reducible apply issue_wf
    | with_reducible apply ow_next
    | simp only [wf_mk]
    | with_reducible apply keeps_of
    | (extract_lets x; first | (refine wf_cut (Keep qk x = true) ?_ ?_; focus (subst x); rotate_left; focus (intro hx; generalize x = y at hx ⊢)) | skip)

theorem execRodMovr_wf {qk : Kept} {g : Fin 64} {s : State} (h_s : Keep qk s = true) : OW qk (execRodMovr g s) := by
  unfold execRodMovr
  repeat' first
    | with_reducible assumption
    | with_reducible intro _
    | with_reducible apply onHost_wf
    | with_reducible apply issue_wf
    | with_reducible apply ow_next
    | simp only [wf_mk]
    | with_reducible apply keeps_of
    | (extract_lets x; first | (refine wf_cut (Keep qk x = true) ?_ ?_; focus (subst x); rotate_left; focus (intro hx; generalize x = y at hx ⊢)) | skip)

theorem execRodAdd_wf {qk : Kept} {g : Fin 64} {s : State} (h_s : Keep qk s = true) : OW qk (execRodAdd g s) := by
  unfold execRodAdd
  repeat' first
    | with_reducible assumption
    | with_reducible intro _
    | with_reducible apply onIssue_wf
    | with_reducible apply ow_next
    | simp only [wf_mk]
    | with_reducible apply keeps_of
    | (extract_lets x; first | (refine wf_cut (Keep qk x = true) ?_ ?_; focus (subst x); rotate_left; focus (intro hx; generalize x = y at hx ⊢)) | skip)

theorem execRodSub_wf {qk : Kept} {g : Fin 64} {s : State} (h_s : Keep qk s = true) : OW qk (execRodSub g s) := by
  unfold execRodSub
  repeat' first
    | with_reducible assumption
    | with_reducible intro _
    | with_reducible apply onIssue_wf
    | with_reducible apply ow_next
    | simp only [wf_mk]
    | with_reducible apply keeps_of
    | (extract_lets x; first | (refine wf_cut (Keep qk x = true) ?_ ?_; focus (subst x); rotate_left; focus (intro hx; generalize x = y at hx ⊢)) | skip)

theorem execRodAddi_wf {qk : Kept} {g : Fin 64} {s : State} (h_s : Keep qk s = true) : OW qk (execRodAddi g s) := by
  unfold execRodAddi
  repeat' first
    | with_reducible assumption
    | with_reducible intro _
    | with_reducible apply onIssue_wf
    | with_reducible apply ow_next
    | simp only [wf_mk]
    | with_reducible apply keeps_of
    | (extract_lets x; first | (refine wf_cut (Keep qk x = true) ?_ ?_; focus (subst x); rotate_left; focus (intro hx; generalize x = y at hx ⊢)) | skip)

theorem execRodSubi_wf {qk : Kept} {g : Fin 64} {s : State} (h_s : Keep qk s = true) : OW qk (execRodSubi g s) := by
  unfold execRodSubi
  repeat' first
    | with_reducible assumption
    | with_reducible intro _
    | with_reducible apply onIssue_wf
    | with_reducible apply ow_next
    | simp only [wf_mk]
    | with_reducible apply keeps_of
    | (extract_lets x; first | (refine wf_cut (Keep qk x = true) ?_ ?_; focus (subst x); rotate_left; focus (intro hx; generalize x = y at hx ⊢)) | skip)

theorem execRodCmp_wf {qk : Kept} {g : Fin 64} {s : State} (h_s : Keep qk s = true) : OW qk (execRodCmp g s) := by
  unfold execRodCmp
  repeat' first
    | with_reducible assumption
    | with_reducible intro _
    | with_reducible apply onIssue_wf
    | with_reducible apply ow_next
    | simp only [wf_mk]
    | with_reducible apply keeps_of
    | (extract_lets x; first | (refine wf_cut (Keep qk x = true) ?_ ?_; focus (subst x); rotate_left; focus (intro hx; generalize x = y at hx ⊢)) | skip)

theorem execRodAnd_wf {qk : Kept} {g : Fin 64} {s : State} (h_s : Keep qk s = true) : OW qk (execRodAnd g s) := by
  unfold execRodAnd
  repeat' first
    | with_reducible assumption
    | with_reducible intro _
    | with_reducible apply onIssue_wf
    | with_reducible apply ow_next
    | simp only [wf_mk]
    | with_reducible apply keeps_of
    | (extract_lets x; first | (refine wf_cut (Keep qk x = true) ?_ ?_; focus (subst x); rotate_left; focus (intro hx; generalize x = y at hx ⊢)) | skip)

theorem execRodOr_wf {qk : Kept} {g : Fin 64} {s : State} (h_s : Keep qk s = true) : OW qk (execRodOr g s) := by
  unfold execRodOr
  repeat' first
    | with_reducible assumption
    | with_reducible intro _
    | with_reducible apply onIssue_wf
    | with_reducible apply ow_next
    | simp only [wf_mk]
    | with_reducible apply keeps_of
    | (extract_lets x; first | (refine wf_cut (Keep qk x = true) ?_ ?_; focus (subst x); rotate_left; focus (intro hx; generalize x = y at hx ⊢)) | skip)

theorem execRodXor_wf {qk : Kept} {g : Fin 64} {s : State} (h_s : Keep qk s = true) : OW qk (execRodXor g s) := by
  unfold execRodXor
  repeat' first
    | with_reducible assumption
    | with_reducible intro _
    | with_reducible apply onIssue_wf
    | with_reducible apply ow_next
    | simp only [wf_mk]
    | with_reducible apply keeps_of
    | (extract_lets x; first | (refine wf_cut (Keep qk x = true) ?_ ?_; focus (subst x); rotate_left; focus (intro hx; generalize x = y at hx ⊢)) | skip)

theorem execRodNot_wf {qk : Kept} {g : Fin 64} {s : State} (h_s : Keep qk s = true) : OW qk (execRodNot g s) := by
  unfold execRodNot
  repeat' first
    | with_reducible assumption
    | with_reducible intro _
    | with_reducible apply onIssue_wf
    | with_reducible apply ow_next
    | simp only [wf_mk]
    | with_reducible apply keeps_of
    | (extract_lets x; first | (refine wf_cut (Keep qk x = true) ?_ ?_; focus (subst x); rotate_left; focus (intro hx; generalize x = y at hx ⊢)) | skip)

theorem execRodAsl_wf {qk : Kept} {g : Fin 64} {s : State} (h_s : Keep qk s = true) : OW qk (execRodAsl g s) := by
  unfold execRodAsl
  repeat' first
    | with_reducible assumption
    | with_reducible intro _
    | with_reducible apply onIssue_wf
    | with_reducible apply ow_next
    | simp only [wf_mk]
    | with_reducible apply keeps_of
    | (extract_lets x; first | (refine wf_cut (Keep qk x = true) ?_ ?_; focus (subst x); rotate_left; focus (intro hx; generalize x = y at hx ⊢)) | skip)

theorem execRodAsr_wf {qk : Kept} {g : Fin 64} {s : State} (h_s : Keep qk s = true) : OW qk (execRodAsr g s) := by
  unfold execRodAsr
  repeat' first
    | with_reducible assumption
    | with_reducible intro _
    | with_reducible apply onIssue_wf
    | with_reducible apply ow_next
    | simp only [wf_mk]
    | with_reducible apply keeps_of
    | (extract_lets x; first | (refine wf_cut (Keep qk x = true) ?_ ?_; focus (subst x); rotate_left; focus (intro hx; generalize x = y at hx ⊢)) | skip)

theorem execRodLsl_wf {qk : Kept} {g : Fin 64} {s : State} (h_s : Keep qk s = true) : OW qk (execRodLsl g s) := by
  unfold execRodLsl
  repeat' first
    | with_reducible assumption
    | with_reducible intro _
    | with_reducible apply onIssue_wf
    | with_reducible apply ow_next
    | simp only [wf_mk]
    | with_reducible apply keeps_of
    | (extract_lets x; first | (refine wf_cut (Keep qk x = true) ?_ ?_; focus (subst x); rotate_left; focus (intro hx; generalize x = y at hx ⊢)) | skip)

theorem execRodLsr_wf {qk : Kept} {g : Fin 64} {s : State} (h_s : Keep qk s = true) : OW qk (execRodLsr g s) := by
  unfold execRodLsr
  repeat' first
    | with_reducible assumption
    | with_reducible intro _
    | with_reducible apply onIssue_wf
    | with_reducible apply ow_next
    | simp only [wf_mk]
    | with_reducible apply keeps_of
    | (extract_lets x; first | (refine wf_cut (Keep qk x = true) ?_ ?_; focus (subst x); rotate_left; focus (intro hx; generalize x = y at hx ⊢)) | skip)

theorem execRodAbs_wf {qk : Kept} {g : Fin 64} {s : State} (h_s : Keep qk s = true) : OW qk (execRodAbs g s) := by
  unfold execRodAbs
  repeat' first
    | with_reducible assumption
    | with_reducible intro _
    | with_reducible apply onIssue_wf
    | with_reducible apply ow_next
    | simp only [wf_mk]
    | with_reducible apply keeps_of
    | (extract_lets x; first | (refine wf_cut (Keep qk x = true) ?_ ?_; focus (subst x); rotate_left; focus (intro hx; generalize x = y at hx ⊢)) | skip)

theorem execRodNeg_wf {qk : Kept} {g : Fin 64} {s : State} (h_s : Keep qk s = true) : OW qk (execRodNeg g s) := by
  unfold execRodNeg
  repeat' first
    | with_reducible assumption
    | with_reducible intro _
    | with_reducible apply onIssue_wf
    | with_reducible apply ow_next
    | simp only [wf_mk]
    | with_reducible apply keeps_of
    | (extract_lets x; first | (refine wf_cut (Keep qk x = true) ?_ ?_; focus (subst x); rotate_left; focus (intro hx; generalize x = y at hx ⊢)) | skip)

theorem execRodMin_wf {qk : Kept} {g : Fin 64} {s : State} (h_s : Keep qk s = true) : OW qk (execRodMin g s) := by
  unfold execRodMin
  repeat' first
    | with_reducible assumption
    | with_reducible intro _
    | with_reducible apply onIssue_wf
    | with_reducible apply ow_next
    | simp only [wf_mk]
    | with_reducible apply keeps_of
    | (extract_lets x; first | (refine wf_cut (Keep qk x = true) ?_ ?_; focus (subst x); rotate_left; focus (intro hx; generalize x = y at hx ⊢)) | skip)

theorem execRodMax_wf {qk : Kept} {g : Fin 64} {s : State} (h_s : Keep qk s = true) : OW qk (execRodMax g s) := by
  unfold execRodMax
  repeat' first
    | with_reducible assumption
    | with_reducible intro _
    | with_reducible apply onIssue_wf
    | with_reducible apply ow_next
    | simp only [wf_mk]
    | with_reducible apply keeps_of
    | (extract_lets x; first | (refine wf_cut (Keep qk x = true) ?_ ?_; focus (subst x); rotate_left; focus (intro hx; generalize x = y at hx ⊢)) | skip)

theorem execRodAmax_wf {qk : Kept} {g : Fin 64} {s : State} (h_s : Keep qk s = true) : OW qk (execRodAmax g s) := by
  unfold execRodAmax
  repeat' first
    | with_reducible assumption
    | with_reducible intro _
    | with_reducible apply onIssue_wf
    | with_reducible apply ow_next
    | simp only [wf_mk]
    | with_reducible apply keeps_of
    | (extract_lets x; first | (refine wf_cut (Keep qk x = true) ?_ ?_; focus (subst x); rotate_left; focus (intro hx; generalize x = y at hx ⊢)) | skip)

theorem execRodClr_wf {qk : Kept} {g : Fin 64} {s : State} (h_s : Keep qk s = true) : OW qk (execRodClr g s) := by
  unfold execRodClr
  repeat' first
    | with_reducible assumption
    | with_reducible intro _
    | with_reducible apply onIssue_wf
    | with_reducible apply ow_next
    | simp only [wf_mk]
    | with_reducible apply keeps_of
    | (extract_lets x; first | (refine wf_cut (Keep qk x = true) ?_ ?_; focus (subst x); rotate_left; focus (intro hx; generalize x = y at hx ⊢)) | skip)

theorem execRodMova_wf {qk : Kept} {g : Fin 64} {s : State} (h_s : Keep qk s = true) : OW qk (execRodMova g s) := by
  unfold execRodMova
  repeat' first
    | with_reducible assumption
    | with_reducible intro _
    | with_reducible apply onIssue_wf
    | with_reducible apply ow_next
    | simp only [wf_mk]
    | with_reducible apply keeps_of
    | (extract_lets x; first | (refine wf_cut (Keep qk x = true) ?_ ?_; focus (subst x); rotate_left; focus (intro hx; generalize x = y at hx ⊢)) | skip)

theorem execRodAdda_wf {qk : Kept} {g : Fin 64} {s : State} (h_s : Keep qk s = true) : OW qk (execRodAdda g s) := by
  unfold execRodAdda
  repeat' first
    | with_reducible assumption
    | with_reducible intro _
    | with_reducible apply onIssue_wf
    | with_reducible apply ow_next
    | simp only [wf_mk]
    | with_reducible apply keeps_of
    | (extract_lets x; first | (refine wf_cut (Keep qk x = true) ?_ ?_; focus (subst x); rotate_left; focus (intro hx; generalize x = y at hx ⊢)) | skip)

theorem execRodSuba_wf {qk : Kept} {g : Fin 64} {s : State} (h_s : Keep qk s = true) : OW qk (execRodSuba g s) := by
  unfold execRodSuba
  repeat' first
    | with_reducible assumption
    | with_reducible intro _
    | with_reducible apply onIssue_wf
    | with_reducible apply ow_next
    | simp only [wf_mk]
    | with_reducible apply keeps_of
    | (extract_lets x; first | (refine wf_cut (Keep qk x = true) ?_ ?_; focus (subst x); rotate_left; focus (intro hx; generalize x = y at hx ⊢)) | skip)

theorem execRodNega_wf {qk : Kept} {g : Fin 64} {s : State} (h_s : Keep qk s = true) : OW qk (execRodNega g s) := by
  unfold execRodNega
  repeat' first
    | with_reducible assumption
    | with_reducible intro _
    | with_reducible apply onIssue_wf
    | with_reducible apply ow_next
    | simp only [wf_mk]
    | with_reducible apply keeps_of
    | (extract_lets x; first | (refine wf_cut (Keep qk x = true) ?_ ?_; focus (subst x); rotate_left; focus (intro hx; generalize x = y at hx ⊢)) | skip)

theorem execRodAbsa_wf {qk : Kept} {g : Fin 64} {s : State} (h_s : Keep qk s = true) : OW qk (execRodAbsa g s) := by
  unfold execRodAbsa
  repeat' first
    | with_reducible assumption
    | with_reducible intro _
    | with_reducible apply onIssue_wf
    | with_reducible apply ow_next
    | simp only [wf_mk]
    | with_reducible apply keeps_of
    | (extract_lets x; first | (refine wf_cut (Keep qk x = true) ?_ ?_; focus (subst x); rotate_left; focus (intro hx; generalize x = y at hx ⊢)) | skip)

theorem execRodShla_wf {qk : Kept} {g : Fin 64} {s : State} (h_s : Keep qk s = true) : OW qk (execRodShla g s) := by
  unfold execRodShla
  repeat' first
    | with_reducible assumption
    | with_reducible intro _
    | with_reducible apply onIssue_wf
    | with_reducible apply ow_next
    | simp only [wf_mk]
    | with_reducible apply keeps_of
    | (extract_lets x; first | (refine wf_cut (Keep qk x = true) ?_ ?_; focus (subst x); rotate_left; focus (intro hx; generalize x = y at hx ⊢)) | skip)

theorem execRodShra_wf {qk : Kept} {g : Fin 64} {s : State} (h_s : Keep qk s = true) : OW qk (execRodShra g s) := by
  unfold execRodShra
  repeat' first
    | with_reducible assumption
    | with_reducible intro _
    | with_reducible apply onIssue_wf
    | with_reducible apply ow_next
    | simp only [wf_mk]
    | with_reducible apply keeps_of
    | (extract_lets x; first | (refine wf_cut (Keep qk x = true) ?_ ?_; focus (subst x); rotate_left; focus (intro hx; generalize x = y at hx ⊢)) | skip)

theorem execRodRnda_wf {qk : Kept} {g : Fin 64} {s : State} (h_s : Keep qk s = true) : OW qk (execRodRnda g s) := by
  unfold execRodRnda
  repeat' first
    | with_reducible assumption
    | with_reducible intro _
    | with_reducible apply onIssue_wf
    | with_reducible apply ow_next
    | simp only [wf_mk]
    | with_reducible apply keeps_of
    | (extract_lets x; first | (refine wf_cut (Keep qk x = true) ?_ ?_; focus (subst x); rotate_left; focus (intro hx; generalize x = y at hx ⊢)) | skip)

theorem execRodSata_wf {qk : Kept} {g : Fin 64} {s : State} (h_s : Keep qk s = true) : OW qk (execRodSata g s) := by
  unfold execRodSata
  repeat' first
    | with_reducible assumption
    | with_reducible intro _
    | with_reducible apply onIssue_wf
    | with_reducible apply ow_next
    | simp only [wf_mk]
    | with_reducible apply keeps_of
    | (extract_lets x; first | (refine wf_cut (Keep qk x = true) ?_ ?_; focus (subst x); rotate_left; focus (intro hx; generalize x = y at hx ⊢)) | skip)

theorem execRodLda_wf {qk : Kept} {g : Fin 64} {s : State} (h_s : Keep qk s = true) : OW qk (execRodLda g s) := by
  unfold execRodLda
  repeat' first
    | with_reducible assumption
    | with_reducible intro _
    | with_reducible apply onIssue_wf
    | with_reducible apply ow_next
    | simp only [wf_mk]
    | with_reducible apply keeps_of
    | (extract_lets x; first | (refine wf_cut (Keep qk x = true) ?_ ?_; focus (subst x); rotate_left; focus (intro hx; generalize x = y at hx ⊢)) | skip)

theorem execRodLdal_wf {qk : Kept} {g : Fin 64} {s : State} (h_s : Keep qk s = true) : OW qk (execRodLdal g s) := by
  unfold execRodLdal
  repeat' first
    | with_reducible assumption
    | with_reducible intro _
    | with_reducible apply onIssue_wf
    | with_reducible apply ow_next
    | simp only [wf_mk]
    | with_reducible apply keeps_of
    | (extract_lets x; first | (refine wf_cut (Keep qk x = true) ?_ ?_; focus (subst x); rotate_left; focus (intro hx; generalize x = y at hx ⊢)) | skip)

theorem execRodExt_wf {qk : Kept} {g : Fin 64} {s : State} (h_s : Keep qk s = true) : OW qk (execRodExt g s) := by
  unfold execRodExt
  repeat' first
    | with_reducible assumption
    | with_reducible intro _
    | with_reducible apply onIssue_wf
    | with_reducible apply ow_next
    | simp only [wf_mk]
    | with_reducible apply keeps_of
    | (extract_lets x; first | (refine wf_cut (Keep qk x = true) ?_ ?_; focus (subst x); rotate_left; focus (intro hx; generalize x = y at hx ⊢)) | skip)

theorem execRodExtl_wf {qk : Kept} {g : Fin 64} {s : State} (h_s : Keep qk s = true) : OW qk (execRodExtl g s) := by
  unfold execRodExtl
  repeat' first
    | with_reducible assumption
    | with_reducible intro _
    | with_reducible apply onIssue_wf
    | with_reducible apply ow_next
    | simp only [wf_mk]
    | with_reducible apply keeps_of
    | (extract_lets x; first | (refine wf_cut (Keep qk x = true) ?_ ?_; focus (subst x); rotate_left; focus (intro hx; generalize x = y at hx ⊢)) | skip)

theorem execRodExtg_wf {qk : Kept} {g : Fin 64} {s : State} (h_s : Keep qk s = true) : OW qk (execRodExtg g s) := by
  unfold execRodExtg
  repeat' first
    | with_reducible assumption
    | with_reducible intro _
    | with_reducible apply onIssue_wf
    | with_reducible apply ow_next
    | simp only [wf_mk]
    | with_reducible apply keeps_of
    | (extract_lets x; first | (refine wf_cut (Keep qk x = true) ?_ ?_; focus (subst x); rotate_left; focus (intro hx; generalize x = y at hx ⊢)) | skip)

theorem execRodTsta_wf {qk : Kept} {g : Fin 64} {s : State} (h_s : Keep qk s = true) : OW qk (execRodTsta g s) := by
  unfold execRodTsta
  repeat' first
    | with_reducible assumption
    | with_reducible intro _
    | with_reducible apply onIssue_wf
    | with_reducible apply ow_next
    | simp only [wf_mk]
    | with_reducible apply keeps_of
    | (extract_lets x; first | (refine wf_cut (Keep qk x = true) ?_ ?_; focus (subst x); rotate_left; focus (intro hx; generalize x = y at hx ⊢)) | skip)

theorem execRodMpy_wf {qk : Kept} {g : Fin 64} {s : State} (h_s : Keep qk s = true) : OW qk (execRodMpy g s) := by
  unfold execRodMpy
  repeat' first
    | with_reducible assumption
    | with_reducible intro _
    | with_reducible apply onIssue_wf
    | with_reducible apply ow_next
    | simp only [wf_mk]
    | with_reducible apply keeps_of
    | (extract_lets x; first | (refine wf_cut (Keep qk x = true) ?_ ?_; focus (subst x); rotate_left; focus (intro hx; generalize x = y at hx ⊢)) | skip)

theorem execRodMac_wf {qk : Kept} {g : Fin 64} {s : State} (h_s : Keep qk s = true) : OW qk (execRodMac g s) := by
  unfold execRodMac
  repeat' first
    | with_reducible assumption
    | with_reducible intro _
    | with_reducible apply onIssue_wf
    | with_reducible apply ow_next
    | simp only [wf_mk]
    | with_reducible apply keeps_of
    | (extract_lets x; first | (refine wf_cut (Keep qk x = true) ?_ ?_; focus (subst x); rotate_left; focus (intro hx; generalize x = y at hx ⊢)) | skip)

theorem execRodMsu_wf {qk : Kept} {g : Fin 64} {s : State} (h_s : Keep qk s = true) : OW qk (execRodMsu g s) := by
  unfold execRodMsu
  repeat' first
    | with_reducible assumption
    | with_reducible intro _
    | with_reducible apply onIssue_wf
    | with_reducible apply ow_next
    | simp only [wf_mk]
    | with_reducible apply keeps_of
    | (extract_lets x; first | (refine wf_cut (Keep qk x = true) ?_ ?_; focus (subst x); rotate_left; focus (intro hx; generalize x = y at hx ⊢)) | skip)

theorem execRodMpy2_wf {qk : Kept} {g : Fin 64} {s : State} (h_s : Keep qk s = true) : OW qk (execRodMpy2 g s) := by
  unfold execRodMpy2
  repeat' first
    | with_reducible assumption
    | with_reducible intro _
    | with_reducible apply onIssue_wf
    | with_reducible apply ow_next
    | simp only [wf_mk]
    | with_reducible apply keeps_of
    | (extract_lets x; first | (refine wf_cut (Keep qk x = true) ?_ ?_; focus (subst x); rotate_left; focus (intro hx; generalize x = y at hx ⊢)) | skip)

theorem execRodMac2_wf {qk : Kept} {g : Fin 64} {s : State} (h_s : Keep qk s = true) : OW qk (execRodMac2 g s) := by
  unfold execRodMac2
  repeat' first
    | with_reducible assumption
    | with_reducible intro _
    | with_reducible apply onIssue_wf
    | with_reducible apply ow_next
    | simp only [wf_mk]
    | with_reducible apply keeps_of
    | (extract_lets x; first | (refine wf_cut (Keep qk x = true) ?_ ?_; focus (subst x); rotate_left; focus (intro hx; generalize x = y at hx ⊢)) | skip)

theorem execRodMsu2_wf {qk : Kept} {g : Fin 64} {s : State} (h_s : Keep qk s = true) : OW qk (execRodMsu2 g s) := by
  unfold execRodMsu2
  repeat' first
    | with_reducible assumption
    | with_reducible intro _
    | with_reducible apply onIssue_wf
    | with_reducible apply ow_next
    | simp only [wf_mk]
    | with_reducible apply keeps_of
    | (extract_lets x; first | (refine wf_cut (Keep qk x = true) ?_ ?_; focus (subst x); rotate_left; focus (intro hx; generalize x = y at hx ⊢)) | skip)

theorem execRodMpyx_wf {qk : Kept} {g : Fin 64} {s : State} (h_s : Keep qk s = true) : OW qk (execRodMpyx g s) := by
  unfold execRodMpyx
  repeat' first
    | with_reducible assumption
    | with_reducible intro _
    | with_reducible apply onIssue_wf
    | with_reducible apply ow_next
    | simp only [wf_mk]
    | with_reducible apply keeps_of
    | (extract_lets x; first | (refine wf_cut (Keep qk x = true) ?_ ?_; focus (subst x); rotate_left; focus (intro hx; generalize x = y at hx ⊢)) | skip)

theorem execRodMacx_wf {qk : Kept} {g : Fin 64} {s : State} (h_s : Keep qk s = true) : OW qk (execRodMacx g s) := by
  unfold execRodMacx
  repeat' first
    | with_reducible assumption
    | with_reducible intro _
    | with_reducible apply onIssue_wf
    | with_reducible apply ow_next
    | simp only [wf_mk]
    | with_reducible apply keeps_of
    | (extract_lets x; first | (refine wf_cut (Keep qk x = true) ?_ ?_; focus (subst x); rotate_left; focus (intro hx; generalize x = y at hx ⊢)) | skip)

theorem execRodTap_wf {qk : Kept} {g : Fin 64} {s : State} (h_s : Keep qk s = true) : OW qk (execRodTap g s) := by
  unfold execRodTap
  repeat' first
    | with_reducible assumption
    | with_reducible intro _
    | with_reducible apply onIssue_wf
    | with_reducible apply ow_next
    | simp only [wf_mk]
    | with_reducible apply keeps_of
    | (extract_lets x; first | (refine wf_cut (Keep qk x = true) ?_ ?_; focus (subst x); rotate_left; focus (intro hx; generalize x = y at hx ⊢)) | skip)

theorem execRodTap2_wf {qk : Kept} {g : Fin 64} {s : State} (h_s : Keep qk s = true) : OW qk (execRodTap2 g s) := by
  unfold execRodTap2
  repeat' first
    | with_reducible assumption
    | with_reducible intro _
    | with_reducible apply onIssue_wf
    | with_reducible apply ow_next
    | simp only [wf_mk]
    | with_reducible apply keeps_of
    | (extract_lets x; first | (refine wf_cut (Keep qk x = true) ?_ ?_; focus (subst x); rotate_left; focus (intro hx; generalize x = y at hx ⊢)) | skip)

theorem execRodTapm_wf {qk : Kept} {g : Fin 64} {s : State} (h_s : Keep qk s = true) : OW qk (execRodTapm g s) := by
  unfold execRodTapm
  repeat' first
    | with_reducible assumption
    | with_reducible intro _
    | with_reducible apply onIssue_wf
    | with_reducible apply ow_next
    | simp only [wf_mk]
    | with_reducible apply keeps_of
    | (extract_lets x; first | (refine wf_cut (Keep qk x = true) ?_ ?_; focus (subst x); rotate_left; focus (intro hx; generalize x = y at hx ⊢)) | skip)

theorem execRodExp_wf {qk : Kept} {g : Fin 64} {s : State} (h_s : Keep qk s = true) : OW qk (execRodExp g s) := by
  unfold execRodExp
  repeat' first
    | with_reducible assumption
    | with_reducible intro _
    | with_reducible apply onIssue_wf
    | with_reducible apply ow_next
    | simp only [wf_mk]
    | with_reducible apply keeps_of
    | (extract_lets x; first | (refine wf_cut (Keep qk x = true) ?_ ?_; focus (subst x); rotate_left; focus (intro hx; generalize x = y at hx ⊢)) | skip)

theorem execRodBexp_wf {qk : Kept} {g : Fin 64} {s : State} (h_s : Keep qk s = true) : OW qk (execRodBexp g s) := by
  unfold execRodBexp
  repeat' first
    | with_reducible assumption
    | with_reducible intro _
    | with_reducible apply onIssue_wf
    | with_reducible apply ow_next
    | simp only [wf_mk]
    | with_reducible apply keeps_of
    | (extract_lets x; first | (refine wf_cut (Keep qk x = true) ?_ ?_; focus (subst x); rotate_left; focus (intro hx; generalize x = y at hx ⊢)) | skip)

theorem execRodNorm_wf {qk : Kept} {g : Fin 64} {s : State} (h_s : Keep qk s = true) : OW qk (execRodNorm g s) := by
  unfold execRodNorm
  repeat' first
    | with_reducible assumption
    | with_reducible intro _
    | with_reducible apply onIssue_wf
    | with_reducible apply ow_next
    | simp only [wf_mk]
    | with_reducible apply keeps_of
    | (extract_lets x; first | (refine wf_cut (Keep qk x = true) ?_ ?_; focus (subst x); rotate_left; focus (intro hx; generalize x = y at hx ⊢)) | skip)

theorem execRodDivs_wf {qk : Kept} {g : Fin 64} {s : State} (h_s : Keep qk s = true) : OW qk (execRodDivs g s) := by
  unfold execRodDivs
  repeat' first
    | with_reducible assumption
    | with_reducible intro _
    | with_reducible apply onIssue_wf
    | with_reducible apply ow_next
    | simp only [wf_mk]
    | with_reducible apply keeps_of
    | (extract_lets x; first | (refine wf_cut (Keep qk x = true) ?_ ?_; focus (subst x); rotate_left; focus (intro hx; generalize x = y at hx ⊢)) | skip)

theorem execRodRep_wf {qk : Kept} {g : Fin 64} {s : State} (h_s : Keep qk s = true) : OW qk (execRodRep g s) := by
  unfold execRodRep
  repeat' first
    | with_reducible assumption
    | with_reducible intro _
    | with_reducible apply onHost_wf
    | with_reducible apply issue_wf
    | with_reducible apply ow_next
    | simp only [wf_mk]
    | with_reducible apply keeps_of
    | (extract_lets x; first | (refine wf_cut (Keep qk x = true) ?_ ?_; focus (subst x); rotate_left; focus (intro hx; generalize x = y at hx ⊢)) | skip)

theorem execRodLoop_wf {qk : Kept} {g : Fin 64} {s : State} (h_s : Keep qk s = true) : OW qk (execRodLoop g s) := by
  unfold execRodLoop
  repeat' first
    | with_reducible assumption
    | with_reducible intro _
    | with_reducible apply onHost_wf
    | with_reducible apply issue_wf
    | with_reducible apply ow_next
    | simp only [wf_mk]
    | with_reducible apply keeps_of
    | (extract_lets x; first | (refine wf_cut (Keep qk x = true) ?_ ?_; focus (subst x); rotate_left; focus (intro hx; generalize x = y at hx ⊢)) | skip)

theorem execRodEndl_wf {qk : Kept} {g : Fin 64} {s : State} (h_s : Keep qk s = true) : OW qk (execRodEndl g s) := by
  unfold execRodEndl
  repeat' first
    | with_reducible assumption
    | with_reducible intro _
    | with_reducible apply onHost_wf
    | with_reducible apply issue_wf
    | with_reducible apply ow_next
    | simp only [wf_mk]
    | with_reducible apply keeps_of
    | (extract_lets x; first | (refine wf_cut (Keep qk x = true) ?_ ?_; focus (subst x); rotate_left; focus (intro hx; generalize x = y at hx ⊢)) | skip)

theorem execRodB_wf {qk : Kept} {g : Fin 64} {s : State} (h_s : Keep qk s = true) : OW qk (execRodB g s) := by
  unfold execRodB
  repeat' first
    | with_reducible assumption
    | with_reducible intro _
    | with_reducible apply onHost_wf
    | with_reducible apply issue_wf
    | with_reducible apply ow_next
    | simp only [wf_mk]
    | with_reducible apply keeps_of
    | (extract_lets x; first | (refine wf_cut (Keep qk x = true) ?_ ?_; focus (subst x); rotate_left; focus (intro hx; generalize x = y at hx ⊢)) | skip)

theorem execRodCall_wf {qk : Kept} {g : Fin 64} {s : State} (h_s : Keep qk s = true) : OW qk (execRodCall g s) := by
  unfold execRodCall
  repeat' first
    | with_reducible assumption
    | with_reducible intro _
    | with_reducible apply onHost_wf
    | with_reducible apply issue_wf
    | with_reducible apply ow_next
    | simp only [wf_mk]
    | with_reducible apply keeps_of
    | (extract_lets x; first | (refine wf_cut (Keep qk x = true) ?_ ?_; focus (subst x); rotate_left; focus (intro hx; generalize x = y at hx ⊢)) | skip)

theorem execRodRet_wf {qk : Kept} {g : Fin 64} {s : State} (h_s : Keep qk s = true) : OW qk (execRodRet g s) := by
  unfold execRodRet
  repeat' first
    | with_reducible assumption
    | with_reducible intro _
    | with_reducible apply onHost_wf
    | with_reducible apply issue_wf
    | with_reducible apply ow_next
    | simp only [wf_mk]
    | with_reducible apply keeps_of
    | (extract_lets x; first | (refine wf_cut (Keep qk x = true) ?_ ?_; focus (subst x); rotate_left; focus (intro hx; generalize x = y at hx ⊢)) | skip)

theorem execRodRti_wf {qk : Kept} {g : Fin 64} {s : State} (h_s : Keep qk s = true) : OW qk (execRodRti g s) := by
  unfold execRodRti
  repeat' first
    | with_reducible assumption
    | with_reducible intro _
    | with_reducible apply onHost_wf
    | with_reducible apply issue_wf
    | with_reducible apply ow_next
    | simp only [wf_mk]
    | with_reducible apply keeps_of
    | (extract_lets x; first | (refine wf_cut (Keep qk x = true) ?_ ?_; focus (subst x); rotate_left; focus (intro hx; generalize x = y at hx ⊢)) | skip)

theorem execRodTrap_wf {qk : Kept} {g : Fin 64} {s : State} (h_s : Keep qk s = true) : OW qk (execRodTrap g s) := by
  unfold execRodTrap
  repeat' first
    | with_reducible assumption
    | with_reducible intro _
    | with_reducible apply rset_wf
    | with_reducible apply onHost_wf
    | with_reducible apply failIssue_wf
    | with_reducible apply issue_wf
    | with_reducible apply ow_ite
    | with_reducible apply wf_ite
    | with_reducible apply ow_next
    | simp only [wf_mk]
    | with_reducible apply keeps_of
    | (extract_lets x; first | (refine wf_cut (Keep qk x = true) ?_ ?_; focus (subst x); rotate_left; focus (intro hx; generalize x = y at hx ⊢)) | skip)

theorem execRodEnd_wf {qk : Kept} {g : Fin 64} {s : State} (h_s : Keep qk s = true) : OW qk (execRodEnd g s) := by
  unfold execRodEnd
  repeat' first
    | with_reducible assumption
    | with_reducible intro _
    | with_reducible apply onHost_wf
    | with_reducible apply issue_wf
    | with_reducible apply endPass_wf
    | with_reducible apply ow_ite
    | with_reducible apply wf_ite
    | with_reducible apply ow_next
    | simp only [wf_mk]
    | with_reducible apply keeps_of
    | (extract_lets x; first | (refine wf_cut (Keep qk x = true) ?_ ?_; focus (subst x); rotate_left; focus (intro hx; generalize x = y at hx ⊢)) | skip)

theorem writeRodCtrl_wf {qk : Kept} {s : State} {g : Nat} {w : Word} (h_s : Keep qk s = true) : Keep qk (writeRodCtrl s g w) = true := by
  unfold writeRodCtrl
  repeat' first
    | with_reducible assumption
    | with_reducible intro _
    | with_reducible apply rwrite_wf
    | with_reducible apply setRod_wf
    | with_reducible apply wf_ite
    | simp only [wf_mk]
    | with_reducible apply keeps_of
    | (extract_lets x; first | (refine wf_cut (Keep qk x = true) ?_ ?_; focus (subst x); rotate_left; focus (intro hx; generalize x = y at hx ⊢)) | skip)

theorem hostRodCtrlEn_wf {qk : Kept} {g : Fin 64} {w : Word} {s : State} (h_s : Keep qk s = true) : Keep qk (hostRodCtrlEn g w s) = true := by
  unfold hostRodCtrlEn
  repeat' first
    | with_reducible assumption
    | with_reducible intro _
    | with_reducible apply writeRodCtrl_wf
    | simp only [wf_mk]
    | with_reducible apply keeps_of
    | (extract_lets x; first | (refine wf_cut (Keep qk x = true) ?_ ?_; focus (subst x); rotate_left; focus (intro hx; generalize x = y at hx ⊢)) | skip)

theorem execRodCtrlEn_wf {qk : Kept} {g : Fin 64} {w : Word} {s : State} (h_s : Keep qk s = true) : OW qk (execRodCtrlEn g w s) := by
  unfold execRodCtrlEn
  repeat' first
    | with_reducible assumption
    | with_reducible intro _
    | with_reducible apply onBar_wf
    | with_reducible apply hostRodCtrlEn_wf
    | with_reducible apply ow_next
    | simp only [wf_mk]
    | with_reducible apply keeps_of
    | (extract_lets x; first | (refine wf_cut (Keep qk x = true) ?_ ?_; focus (subst x); rotate_left; focus (intro hx; generalize x = y at hx ⊢)) | skip)

theorem hostHaltReq_wf {qk : Kept} {g : Fin 64} {w : Word} {s : State} (h_s : Keep qk s = true) : Keep qk (hostHaltReq g w s) = true := by
  unfold hostHaltReq
  repeat' first
    | with_reducible assumption
    | with_reducible intro _
    | with_reducible apply rwrite_wf
    | simp only [wf_mk]
    | with_reducible apply keeps_of
    | (extract_lets x; first | (refine wf_cut (Keep qk x = true) ?_ ?_; focus (subst x); rotate_left; focus (intro hx; generalize x = y at hx ⊢)) | skip)

theorem execHaltReq_wf {qk : Kept} {g : Fin 64} {w : Word} {s : State} (h_s : Keep qk s = true) : OW qk (execHaltReq g w s) := by
  unfold execHaltReq
  repeat' first
    | with_reducible assumption
    | with_reducible intro _
    | with_reducible apply onBar_wf
    | with_reducible apply hostHaltReq_wf
    | with_reducible apply ow_next
    | simp only [wf_mk]
    | with_reducible apply keeps_of
    | (extract_lets x; first | (refine wf_cut (Keep qk x = true) ?_ ?_; focus (subst x); rotate_left; focus (intro hx; generalize x = y at hx ⊢)) | skip)

theorem hostUnfence_wf {qk : Kept} {g : Fin 64} {w : Word} {s : State} (h_s : Keep qk s = true) : Keep qk (hostUnfence g w s) = true := by
  unfold hostUnfence
  repeat' first
    | with_reducible assumption
    | with_reducible intro _
    | with_reducible apply rput_wf
    | with_reducible apply rset_wf
    | with_reducible apply setRod_wf
    | with_reducible apply setRodState_wf
    | with_reducible apply wf_ite
    | simp only [wf_mk]
    | with_reducible apply keeps_of
    | (extract_lets x; first | (refine wf_cut (Keep qk x = true) ?_ ?_; focus (subst x); rotate_left; focus (intro hx; generalize x = y at hx ⊢)) | skip)

theorem execUnfence_wf {qk : Kept} {g : Fin 64} {w : Word} {s : State} (h_s : Keep qk s = true) : OW qk (execUnfence g w s) := by
  unfold execUnfence
  repeat' first
    | with_reducible assumption
    | with_reducible intro _
    | with_reducible apply onBar_wf
    | with_reducible apply hostUnfence_wf
    | with_reducible apply ow_next
    | simp only [wf_mk]
    | with_reducible apply keeps_of
    | (extract_lets x; first | (refine wf_cut (Keep qk x = true) ?_ ?_; focus (subst x); rotate_left; focus (intro hx; generalize x = y at hx ⊢)) | skip)

theorem hostClrStats_wf {qk : Kept} {g : Fin 64} {w : Word} {s : State} (h_s : Keep qk s = true) : Keep qk (hostClrStats g w s) = true := by
  unfold hostClrStats
  repeat' first
    | with_reducible assumption
    | with_reducible intro _
    | with_reducible apply wr_wf
    | with_reducible apply rput_wf
    | with_reducible apply wf_ite
    | simp only [wf_mk]
    | with_reducible apply keeps_of
    | (extract_lets x; first | (refine wf_cut (Keep qk x = true) ?_ ?_; focus (subst x); rotate_left; focus (intro hx; generalize x = y at hx ⊢)) | skip)

theorem execClrStats_wf {qk : Kept} {g : Fin 64} {w : Word} {s : State} (h_s : Keep qk s = true) : OW qk (execClrStats g w s) := by
  unfold execClrStats
  repeat' first
    | with_reducible assumption
    | with_reducible intro _
    | with_reducible apply onBar_wf
    | with_reducible apply hostClrStats_wf
    | with_reducible apply ow_next
    | simp only [wf_mk]
    | with_reducible apply keeps_of
    | (extract_lets x; first | (refine wf_cut (Keep qk x = true) ?_ ?_; focus (subst x); rotate_left; focus (intro hx; generalize x = y at hx ⊢)) | skip)

end Sys2Proof.Machine
end

