-- ==== Sys2Proof/Laws/KeepsEcc.lean ====
section
/-! SUPPORT. The operations of Machine/Ecc.lean keep what `Keep` names. -/

namespace Sys2Proof.Machine
open Sys2Proof
set_option linter.all false
set_option simprocs false

theorem correctable_wf {qk : Kept} {s : State} {cls : MemClass} (h_s : Keep qk s = true) : Keep qk (correctable s cls) = true := by
  unfold correctable
  repeat' first
    | with_reducible assumption
    | with_reducible intro _
    | with_reducible apply radd_wf
    | simp only [wf_mk]
    | with_reducible apply keeps_of
    | (extract_lets x; first | (refine wf_cut (Keep qk x = true) ?_ ?_; focus (subst x); rotate_left; focus (intro hx; generalize x = y at hx ⊢)) | skip)

theorem rodMemError_wf {qk : Kept} {s : State} {unit addr : Nat} (h_s : Keep qk s = true) : Keep qk (rodMemError s unit addr) = true := by
  unfold rodMemError
  repeat' first
    | with_reducible assumption
    | with_reducible intro _
    | with_reducible apply failRod_wf
    | with_reducible apply failIssue_wf
    | with_reducible apply wf_ite
    | simp only [wf_mk]
    | with_reducible apply keeps_of
    | (extract_lets x; first | (refine wf_cut (Keep qk x = true) ?_ ?_; focus (subst x); rotate_left; focus (intro hx; generalize x = y at hx ⊢)) | skip)
    | split

theorem poisonedBeads_wf {qk : Kept} {s : State} {keys : List Nat} (h_s : Keep qk s = true) : Keep qk (poisonedBeads s keys) = true := by
  unfold poisonedBeads
  repeat' first
    | with_reducible assumption
    | with_reducible intro _
    | with_reducible apply poisonBead_wf
    | with_reducible apply wf_forEach
    | with_reducible apply wf_ite
    | simp only [wf_mk]
    | with_reducible apply keeps_of
    | (extract_lets x; first | (refine wf_cut (Keep qk x = true) ?_ ?_; focus (subst x); rotate_left; focus (intro hx; generalize x = y at hx ⊢)) | skip)

theorem uncorrectable_wf {qk : Kept} {s : State} {cls : MemClass} {unit addr : Nat} (h_s : Keep qk s = true) : Keep qk (uncorrectable s cls unit addr) = true := by
  unfold uncorrectable
  repeat' first
    | with_reducible assumption
    | with_reducible intro _
    | with_reducible apply rput_wf
    | with_reducible apply radd_wf
    | with_reducible apply setBacklog_wf
    | with_reducible apply shadowBad_wf
    | with_reducible apply raise_wf
    | with_reducible apply rodMemError_wf
    | with_reducible apply poisonedBeads_wf
    | with_reducible apply wf_forEach
    | with_reducible apply wf_ite
    | simp only [wf_mk]
    | with_reducible apply keeps_of
    | (extract_lets x; first | (refine wf_cut (Keep qk x = true) ?_ ?_; focus (subst x); rotate_left; focus (intro hx; generalize x = y at hx ⊢)) | skip)
    | split

theorem eccFound_wf {qk : Kept} {s : State} {cls : MemClass} {unit addr : Nat} {ecc : EccResult} (h_s : Keep qk s = true) : Keep qk (eccFound s cls unit addr ecc) = true := by
  unfold eccFound
  repeat' first
    | with_reducible assumption
    | with_reducible intro _
    | with_reducible apply correctable_wf
    | with_reducible apply uncorrectable_wf
    | simp only [wf_mk]
    | with_reducible apply keeps_of
    | (extract_lets x; first | (refine wf_cut (Keep qk x = true) ?_ ?_; focus (subst x); rotate_left; focus (intro hx; generalize x = y at hx ⊢)) | skip)
    | split

end Sys2Proof.Machine
end

