-- ==== Sys2Proof/Laws/KeepsNetOps.lean ====
section
/-! SUPPORT. The operations of Machine/NetOps.lean keep what `Keep` names. -/

namespace Sys2Proof.Machine
open Sys2Proof
set_option linter.all false
set_option simprocs false

theorem writeNetQueue_wf {qk : Kept} {s : State} {a : Nat} {w : Word} (h_s : Keep qk s = true) : Keep qk (writeNetQueue s a w) = true := by
  unfold writeNetQueue
  repeat' first
    | with_reducible assumption
    | with_reducible intro _
    | with_reducible apply rset_wf
    | with_reducible apply rwrite_wf
    | with_reducible apply updateCredits_wf
    | with_reducible apply wf_ite
    | simp only [wf_mk]
    | with_reducible apply keeps_of
    | (extract_lets x; first | (refine wf_cut (Keep qk x = true) ?_ ?_; focus (subst x); rotate_left; focus (intro hx; generalize x = y at hx ⊢)) | skip)

theorem enqueue_wf {qk : Kept} {s : State} {p q : Nat} {f : TxFrame} (h_s : Keep qk s = true) : Keep qk (enqueue s p q f) = true := by
  unfold enqueue
  repeat' first
    | with_reducible assumption
    | with_reducible intro _
    | with_reducible apply setQueue_wf
    | with_reducible apply updateCredits_wf
    | simp only [wf_mk]
    | with_reducible apply keeps_of
    | (extract_lets x; first | (refine wf_cut (Keep qk x = true) ?_ ?_; focus (subst x); rotate_left; focus (intro hx; generalize x = y at hx ⊢)) | skip)

theorem strTxDrop_wf {qk : Kept} {s : State} {t : Nat} (h_s : Keep qk s = true) : Keep qk (strTxDrop s t) = true := by
  unfold strTxDrop
  repeat' first
    | with_reducible assumption
    | with_reducible intro _
    | with_reducible apply strTxDropWith_wf
    | with_reducible apply raise_wf
    | simp only [wf_mk]
    | with_reducible apply keeps_of
    | (extract_lets x; first | (refine wf_cut (Keep qk x = true) ?_ ?_; focus (subst x); rotate_left; focus (intro hx; generalize x = y at hx ⊢)) | skip)

theorem dropFullQueue_wf {qk : Kept} {s : State} {p : Nat} {f : TxFrame} (h_s : Keep qk s = true) : Keep qk (dropFullQueue s p f) = true := by
  unfold dropFullQueue
  repeat' first
    | with_reducible assumption
    | with_reducible intro _
    | with_reducible apply radd_wf
    | with_reducible apply paddSat_wf
    | with_reducible apply raise_wf
    | with_reducible apply strTxDrop_wf
    | simp only [wf_mk]
    | with_reducible apply keeps_of
    | (extract_lets x; first | (refine wf_cut (Keep qk x = true) ?_ ?_; focus (subst x); rotate_left; focus (intro hx; generalize x = y at hx ⊢)) | skip)
    | split

theorem enqueueOrDrop_wf {qk : Kept} {s : State} {p q : Nat} {f : TxFrame} (h_s : Keep qk s = true) : Keep qk (enqueueOrDrop s p q f) = true := by
  unfold enqueueOrDrop
  repeat' first
    | with_reducible assumption
    | with_reducible intro _
    | with_reducible apply enqueue_wf
    | with_reducible apply dropFullQueue_wf
    | with_reducible apply wf_ite
    | simp only [wf_mk]
    | with_reducible apply keeps_of
    | (extract_lets x; first | (refine wf_cut (Keep qk x = true) ?_ ?_; focus (subst x); rotate_left; focus (intro hx; generalize x = y at hx ⊢)) | skip)

theorem endPause_wf {qk : Kept} {s : State} {p : Nat} (h_s : Keep qk s = true) : Keep qk (endPause s p) = true := by
  unfold endPause
  repeat' first
    | with_reducible assumption
    | with_reducible intro _
    | with_reducible apply rclr_wf
    | with_reducible apply setNet_wf
    | simp only [wf_mk]
    | with_reducible apply keeps_of
    | (extract_lets x; first | (refine wf_cut (Keep qk x = true) ?_ ?_; focus (subst x); rotate_left; focus (intro hx; generalize x = y at hx ⊢)) | skip)

theorem linkDown_wf {qk : Kept} {s : State} {p : Nat} (h_s : Keep qk s = true) : Keep qk (linkDown s p) = true := by
  unfold linkDown
  repeat' first
    | with_reducible assumption
    | with_reducible intro _
    | with_reducible apply linkDownWith_wf
    | with_reducible apply raise_wf
    | simp only [wf_mk]
    | with_reducible apply keeps_of
    | (extract_lets x; first | (refine wf_cut (Keep qk x = true) ?_ ?_; focus (subst x); rotate_left; focus (intro hx; generalize x = y at hx ⊢)) | skip)

theorem countErrors_wf {qk : Kept} {s : State} {p n datum : Nat} (h_s : Keep qk s = true) : Keep qk (countErrors s p n datum) = true := by
  unfold countErrors
  repeat' first
    | with_reducible assumption
    | with_reducible intro _
    | with_reducible apply setNet_wf
    | with_reducible apply raise_wf
    | with_reducible apply wf_forEach
    | simp only [wf_mk]
    | with_reducible apply keeps_of
    | (extract_lets x; first | (refine wf_cut (Keep qk x = true) ?_ ?_; focus (subst x); rotate_left; focus (intro hx; generalize x = y at hx ⊢)) | skip)

end Sys2Proof.Machine
end

