-- ==== Sys2Proof/Laws/KeepsStreams.lean ====
section
/-! SUPPORT. The operations of Machine/Streams.lean keep what `Keep` names. -/

namespace Sys2Proof.Machine
open Sys2Proof
set_option linter.all false
set_option simprocs false

theorem countRate_wf {qk : Kept} {s : State} (h_s : Keep qk s = true) : Keep qk (countRate s) = true := by
  unfold countRate
  repeat' first
    | with_reducible assumption
    | with_reducible intro _
    | with_reducible apply rput_wf
    | simp only [wf_mk]
    | with_reducible apply keeps_of
    | (extract_lets x; first | (refine wf_cut (Keep qk x = true) ?_ ?_; focus (subst x); rotate_left; focus (intro hx; generalize x = y at hx ⊢)) | skip)

theorem hearPath_wf {qk : Kept} {s : State} {r : Nat} {pathB : Bool} {f : List Byte} (h_s : Keep qk s = true) : Keep qk (hearPath s r pathB f) = true := by
  unfold hearPath
  repeat' first
    | with_reducible assumption
    | with_reducible intro _
    | with_reducible apply pput_wf
    | with_reducible apply paddSat_wf
    | with_reducible apply setStrRx_wf
    | with_reducible apply wf_ite
    | simp only [wf_mk]
    | with_reducible apply keeps_of
    | (extract_lets x; first | (refine wf_cut (Keep qk x = true) ?_ ?_; focus (subst x); rotate_left; focus (intro hx; generalize x = y at hx ⊢)) | skip)
    | dsimp -zeta only
    | split

theorem noteSkew_wf {qk : Kept} {s : State} {r : Nat} {pathB : Bool} {k tin : Int} (h_s : Keep qk s = true) : Keep qk (noteSkew s r pathB k tin) = true := by
  unfold noteSkew
  repeat' first
    | with_reducible assumption
    | with_reducible intro _
    | with_reducible apply pput_wf
    | with_reducible apply strEvent_wf
    | with_reducible apply setStrRx_wf
    | with_reducible apply raise_wf
    | with_reducible apply wf_ite
    | simp only [wf_mk]
    | with_reducible apply keeps_of
    | (extract_lets x; first | (refine wf_cut (Keep qk x = true) ?_ ?_; focus (subst x); rotate_left; focus (intro hx; generalize x = y at hx ⊢)) | skip)
    | dsimp -zeta only
    | split

theorem wf_supplied {qk : Kept} {x : State} {c : SMap Nat} (h : Keep qk x = true) : Keep qk { x with supplied := c } = true := h
theorem storeSample_wf {qk : Kept} {s : State} {r : Nat} {f : List Byte} {x : StrPacket} {j : Nat} (h_s : Keep qk s = true) :
    Keep qk (storeSample s r f x j) = true := by
  unfold storeSample
  have h1 : ∀ g : State → Nat → State, (∀ s i, Keep qk s = true → Keep qk (g s i) = true) →
      Keep qk (forEach (List.range (pget s P.STR_RX_NCH r + 1)) s g) = true := fun g hg => wf_forEach hg h_s
  extract_lets k base s1
  have h2 : Keep qk s1 = true := h1 _ (fun _ _ h => wf_supplied (drSet_wf h))
  generalize s1 = y at h2 ⊢
  split
  · exact h2
  · extract_lets
    exact wf_ite h2 (setStrRx_wf h2)

theorem noteSpp_wf {qk : Kept} {s : State} {r n : Nat} (h_s : Keep qk s = true) : Keep qk (noteSpp s r n) = true := by
  unfold noteSpp
  repeat' first
    | with_reducible assumption
    | with_reducible intro _
    | with_reducible apply setStrRx_wf
    | with_reducible apply countRate_wf
    | with_reducible apply wf_ite
    | simp only [wf_mk]
    | with_reducible apply keeps_of
    | (extract_lets x; first | (refine wf_cut (Keep qk x = true) ?_ ?_; focus (subst x); rotate_left; focus (intro hx; generalize x = y at hx ⊢)) | skip)

theorem takePacket_wf {qk : Kept} {s : State} {r : Nat} {pathB : Bool} {f : List Byte} {tin : Int} (h_s : Keep qk s = true) : Keep qk (takePacket s r pathB f tin) = true := by
  unfold takePacket
  repeat' first
    | with_reducible assumption
    | with_reducible intro _
    | with_reducible apply rset_wf
    | with_reducible apply pput_wf
    | with_reducible apply paddWrap_wf
    | with_reducible apply paddSat_wf
    | with_reducible apply strEvent_wf
    | with_reducible apply raise_wf
    | with_reducible apply noteDram_wf
    | with_reducible apply hearPath_wf
    | with_reducible apply noteSkew_wf
    | with_reducible apply storeSample_wf
    | with_reducible apply noteSpp_wf
    | with_reducible apply wf_forEach
    | with_reducible apply wf_ite
    | simp only [wf_mk]
    | with_reducible apply keeps_of
    | (extract_lets x; first | (refine wf_cut (Keep qk x = true) ?_ ?_; focus (subst x); rotate_left; focus (intro hx; generalize x = y at hx ⊢)) | skip)
    | dsimp -zeta only
    | split

theorem completeStreamBead_wf {qk : Kept} {s : State} {r i : Nat} (h_s : Keep qk s = true) : PW qk (completeStreamBead s r i) := by
  unfold completeStreamBead
  repeat' first
    | with_reducible assumption
    | with_reducible intro _
    | with_reducible apply rset_wf
    | with_reducible apply fabMissing_wf
    | with_reducible apply paddSat_wf
    | with_reducible apply strEvent_wf
    | with_reducible apply raise_wf
    | with_reducible apply noteAccess_wf
    | with_reducible apply noteDram_wf
    | with_reducible apply fabWrite_wf
    | with_reducible apply wf_forEach
    | with_reducible apply pw_ite
    | with_reducible apply wf_ite
    | with_reducible apply pw_mk
    | simp only [wf_mk]
    | with_reducible apply keeps_of
    | (extract_lets x; first | (refine wf_cut (Keep qk x = true) ?_ ?_; focus (subst x); rotate_left; focus (intro hx; generalize x = y at hx ⊢)) | skip)
    | dsimp -zeta only
theorem completeStreamBead_e {qk : Kept} {s : State} {r i : Nat} {zt : State} {zb} (e : (completeStreamBead s r i) = (zt, zb)) (h_s : Keep qk s = true) : Keep qk zt = true := pw_e (completeStreamBead_wf h_s) e
theorem completeStreamBead_p {qk : Kept} {s : State} {r i : Nat} (h_s : Keep qk s = true) : Keep qk (completeStreamBead s r i).1 = true := completeStreamBead_wf h_s

theorem pathTimeout_wf {qk : Kept} {s : State} {r : Nat} {pathB : Bool} (h_s : Keep qk s = true) : Keep qk (pathTimeout s r pathB) = true := by
  unfold pathTimeout
  repeat' first
    | with_reducible assumption
    | with_reducible intro _
    | with_reducible apply setStrRx_wf
    | with_reducible apply pathDown_wf
    | with_reducible apply raise_wf
    | with_reducible apply wf_ite
    | simp only [wf_mk]
    | with_reducible apply keeps_of
    | (extract_lets x; first | (refine wf_cut (Keep qk x = true) ?_ ?_; focus (subst x); rotate_left; focus (intro hx; generalize x = y at hx ⊢)) | skip)

theorem pathTimeouts_wf {qk : Kept} {s : State} (h_s : Keep qk s = true) : Keep qk (pathTimeouts s) = true := by
  unfold pathTimeouts
  repeat' first
    | with_reducible assumption
    | with_reducible intro _
    | with_reducible apply pathTimeout_wf
    | with_reducible apply wf_forEach
    | simp only [wf_mk]
    | with_reducible apply keeps_of
    | (extract_lets x; first | (refine wf_cut (Keep qk x = true) ?_ ?_; focus (subst x); rotate_left; focus (intro hx; generalize x = y at hx ⊢)) | skip)

theorem streamDeadline_wf {qk : Kept} {s : State} {r : Nat} (h_s : Keep qk s = true) : Keep qk (streamDeadline s r) = true := by
  unfold streamDeadline
  repeat' first
    | with_reducible assumption
    | with_reducible intro _
    | with_reducible apply rset_wf
    | with_reducible apply fabMissing_wf
    | with_reducible apply pput_wf
    | with_reducible apply strEvent_wf
    | with_reducible apply setStrRx_wf
    | with_reducible apply raise_wf
    | refine completeStreamBead_e (by with_reducible assumption) ?_
    | with_reducible apply completeStreamBead_p
    | with_reducible apply completeStreamBead_wf
    | with_reducible apply wf_forEach
    | with_reducible apply wf_foldl
    | with_reducible apply wf_foldl1
    | with_reducible apply wf_ite
    | simp only [wf_mk]
    | with_reducible apply keeps_of
    | (extract_lets x; first | (refine wf_cut (Keep qk x = true) ?_ ?_; focus (subst x); rotate_left; focus (intro hx; generalize x = y at hx ⊢)) | skip)
    | dsimp -zeta only
    | split

theorem execStreamBeadDeadline_wf {qk : Kept} {bad : List (Fin 1024 × Fin 32)} {s : State} (h_s : Keep qk s = true) : OW qk (execStreamBeadDeadline bad s) := by
  unfold execStreamBeadDeadline
  repeat' first
    | with_reducible assumption
    | with_reducible intro _
    | with_reducible apply onHost_wf
    | with_reducible apply uncorrectable_wf
    | with_reducible apply streamDeadline_wf
    | with_reducible apply wf_forEach
    | with_reducible apply ow_ite
    | with_reducible apply wf_ite
    | with_reducible apply ow_next
    | simp only [wf_mk]
    | with_reducible apply keeps_of
    | (extract_lets x; first | (refine wf_cut (Keep qk x = true) ?_ ?_; focus (subst x); rotate_left; focus (intro hx; generalize x = y at hx ⊢)) | skip)
    | dsimp -zeta only

theorem setStrTx_wf {qk : Kept} {s : State} {t : Nat} {x : StrTx} (h_s : Keep qk s = true) : Keep qk (setStrTx s t x) = true := by
  unfold setStrTx
  repeat' first
    | with_reducible assumption
    | with_reducible intro _
    | simp only [wf_mk]
    | with_reducible apply keeps_of
    | (extract_lets x; first | (refine wf_cut (Keep qk x = true) ?_ ?_; focus (subst x); rotate_left; focus (intro hx; generalize x = y at hx ⊢)) | skip)

theorem sendStreamFrame_wf {qk : Kept} {s : State} {t p : Nat} {b : Bool} {l : Int} {f : List Byte} (h_s : Keep qk s = true) : Keep qk (sendStreamFrame s t p b l f) = true := by
  unfold sendStreamFrame
  repeat' first
    | with_reducible assumption
    | with_reducible intro _
    | with_reducible apply strTxDrop_wf
    | with_reducible apply enqueueOrDrop_wf
    | with_reducible apply wf_ite
    | simp only [wf_mk]
    | with_reducible apply keeps_of
    | (extract_lets x; first | (refine wf_cut (Keep qk x = true) ?_ ?_; focus (subst x); rotate_left; focus (intro hx; generalize x = y at hx ⊢)) | skip)

theorem sendStreamPacket_wf {qk : Kept} {s : State} {t k epoch : Nat} (h_s : Keep qk s = true) : Keep qk (sendStreamPacket s t k epoch) = true := by
  unfold sendStreamPacket
  repeat' first
    | with_reducible assumption
    | with_reducible intro _
    | refine takeFree_e (by with_reducible assumption) ?_
    | with_reducible apply takeFree_p
    | with_reducible apply takeFree_wf
    | with_reducible apply setStrTx_wf
    | with_reducible apply sendStreamFrame_wf
    | with_reducible apply wf_ite
    | simp only [wf_mk]
    | with_reducible apply keeps_of
    | (extract_lets x; first | (refine wf_cut (Keep qk x = true) ?_ ?_; focus (subst x); rotate_left; focus (intro hx; generalize x = y at hx ⊢)) | skip)
    | dsimp -zeta only
    | split

theorem streamReads_wf {qk : Kept} {s : State} {t b epoch j : Nat} (h_s : Keep qk s = true) : Keep qk (streamReads s t b epoch j) = true := by
  unfold streamReads
  repeat' first
    | with_reducible assumption
    | with_reducible intro _
    | with_reducible apply noteAccess_wf
    | with_reducible apply setStrTx_wf
    | with_reducible apply sendStreamPacket_wf
    | with_reducible apply wf_forEach
    | with_reducible apply wf_ite
    | simp only [wf_mk]
    | with_reducible apply keeps_of
    | (extract_lets x; first | (refine wf_cut (Keep qk x = true) ?_ ?_; focus (subst x); rotate_left; focus (intro hx; generalize x = y at hx ⊢)) | skip)
    | split

theorem transmitStream_wf {qk : Kept} {s : State} {b epoch t : Nat} (h_s : Keep qk s = true) : Keep qk (transmitStream s b epoch t) = true := by
  unfold transmitStream
  repeat' first
    | with_reducible assumption
    | with_reducible intro _
    | with_reducible apply pput_wf
    | with_reducible apply setStrTx_wf
    | with_reducible apply streamReads_wf
    | with_reducible apply wf_forEach
    | with_reducible apply wf_ite
    | simp only [wf_mk]
    | with_reducible apply keeps_of
    | (extract_lets x; first | (refine wf_cut (Keep qk x = true) ?_ ?_; focus (subst x); rotate_left; focus (intro hx; generalize x = y at hx ⊢)) | skip)
    | split

theorem transmitStreams_wf {qk : Kept} {s : State} {b epoch : Nat} (h_s : Keep qk s = true) : Keep qk (transmitStreams s b epoch) = true := by
  unfold transmitStreams
  repeat' first
    | with_reducible assumption
    | with_reducible intro _
    | with_reducible apply pput_wf
    | with_reducible apply setStrTx_wf
    | with_reducible apply transmitStream_wf
    | with_reducible apply wf_forEach
    | with_reducible apply wf_ite
    | simp only [wf_mk]
    | with_reducible apply keeps_of
    | (extract_lets x; first | (refine wf_cut (Keep qk x = true) ?_ ?_; focus (subst x); rotate_left; focus (intro hx; generalize x = y at hx ⊢)) | skip)

theorem rxStreamChanged_wf {qk : Kept} {s : State} {r : Nat} {was : Bool} (h_s : Keep qk s = true) : Keep qk (rxStreamChanged s r was) = true := by
  unfold rxStreamChanged
  repeat' first
    | with_reducible assumption
    | with_reducible intro _
    | with_reducible apply pput_wf
    | with_reducible apply strOff_wf
    | with_reducible apply countRate_wf
    | with_reducible apply wf_ite
    | simp only [wf_mk]
    | with_reducible apply keeps_of
    | (extract_lets x; first | (refine wf_cut (Keep qk x = true) ?_ ?_; focus (subst x); rotate_left; focus (intro hx; generalize x = y at hx ⊢)) | skip)

theorem txStreamChanged_wf {qk : Kept} {s : State} {t : Nat} {was : Bool} {n : Nat} (h_s : Keep qk s = true) : Keep qk (txStreamChanged s t was n) = true := by
  unfold txStreamChanged
  repeat' first
    | with_reducible assumption
    | with_reducible intro _
    | with_reducible apply pput_wf
    | with_reducible apply countRate_wf
    | with_reducible apply setStrTx_wf
    | with_reducible apply wf_ite
    | simp only [wf_mk]
    | with_reducible apply keeps_of
    | (extract_lets x; first | (refine wf_cut (Keep qk x = true) ?_ ?_; focus (subst x); rotate_left; focus (intro hx; generalize x = y at hx ⊢)) | skip)

theorem writeStrCtrl_wf {qk : Kept} {s : State} {w : Word} (h_s : Keep qk s = true) : Keep qk (writeStrCtrl s w) = true := by
  unfold writeStrCtrl
  repeat' first
    | with_reducible assumption
    | with_reducible intro _
    | with_reducible apply rwrite_wf
    | with_reducible apply strOff_wf
    | with_reducible apply dropStreamFrames_wf
    | with_reducible apply stopBuilding_wf
    | with_reducible apply strRestart_wf
    | with_reducible apply raise_wf
    | with_reducible apply wf_forEach
    | with_reducible apply wf_ite
    | simp only [wf_mk]
    | with_reducible apply keeps_of
    | (extract_lets x; first | (refine wf_cut (Keep qk x = true) ?_ ?_; focus (subst x); rotate_left; focus (intro hx; generalize x = y at hx ⊢)) | skip)

theorem clearStream_wf {qk : Kept} {s : State} {n : Nat} (h_s : Keep qk s = true) : Keep qk (clearStream s n) = true := by
  unfold clearStream
  repeat' first
    | with_reducible assumption
    | with_reducible intro _
    | with_reducible apply pput_wf
    | with_reducible apply wf_forEach
    | with_reducible apply wf_ite
    | simp only [wf_mk]
    | with_reducible apply keeps_of
    | (extract_lets x; first | (refine wf_cut (Keep qk x = true) ?_ ?_; focus (subst x); rotate_left; focus (intro hx; generalize x = y at hx ⊢)) | skip)

theorem clearStreams_wf {qk : Kept} {s : State} (h_s : Keep qk s = true) : Keep qk (clearStreams s) = true := by
  unfold clearStreams
  repeat' first
    | with_reducible assumption
    | with_reducible intro _
    | with_reducible apply clearStream_wf
    | with_reducible apply wf_forEach
    | simp only [wf_mk]
    | with_reducible apply keeps_of
    | (extract_lets x; first | (refine wf_cut (Keep qk x = true) ?_ ?_; focus (subst x); rotate_left; focus (intro hx; generalize x = y at hx ⊢)) | skip)
    | dsimp -zeta only

theorem hostStrClr_wf {qk : Kept} {w : Word} {s : State} (h_s : Keep qk s = true) : Keep qk (hostStrClr w s) = true := by
  unfold hostStrClr
  repeat' first
    | with_reducible assumption
    | with_reducible intro _
    | with_reducible apply rwrite_wf
    | with_reducible apply wf_ite
    | simp only [wf_mk]
    | with_reducible apply keeps_of
    | (extract_lets x; first | (refine wf_cut (Keep qk x = true) ?_ ?_; focus (subst x); rotate_left; focus (intro hx; generalize x = y at hx ⊢)) | skip)

theorem execStrClr_wf {qk : Kept} {w : Word} {s : State} (h_s : Keep qk s = true) : OW qk (execStrClr w s) := by
  unfold execStrClr
  repeat' first
    | with_reducible assumption
    | with_reducible intro _
    | with_reducible apply onBar_wf
    | with_reducible apply hostStrClr_wf
    | with_reducible apply ow_next
    | simp only [wf_mk]
    | with_reducible apply keeps_of
    | (extract_lets x; first | (refine wf_cut (Keep qk x = true) ?_ ?_; focus (subst x); rotate_left; focus (intro hx; generalize x = y at hx ⊢)) | skip)

end Sys2Proof.Machine
end

