-- ==== Sys2Proof/Laws/KeepsTime.lean ====
section
/-! SUPPORT. The operations of Machine/Time.lean keep what `Keep` names. -/

namespace Sys2Proof.Machine
open Sys2Proof
set_option linter.all false
set_option simprocs false

theorem rebase_wf {qk : Kept} {s : State} {extra : Int} (h_s : Keep qk s = true) : Keep qk (rebase s extra) = true := by
  unfold rebase
  repeat' first
    | with_reducible assumption
    | with_reducible intro _
    | with_reducible apply settleCredits_wf
    | simp only [wf_mk]
    | with_reducible apply keeps_of
    | (extract_lets x; first | (refine wf_cut (Keep qk x = true) ?_ ?_; focus (subst x); rotate_left; focus (intro hx; generalize x = y at hx ⊢)) | skip)

theorem setRate_wf {qk : Kept} {s : State} {rho : Int} (h_s : Keep qk s = true) : Keep qk (setRate s rho) = true := by
  unfold setRate
  repeat' first
    | with_reducible assumption
    | with_reducible intro _
    | with_reducible apply rputI_wf
    | with_reducible apply rebase_wf
    | simp only [wf_mk]
    | with_reducible apply keeps_of
    | (extract_lets x; first | (refine wf_cut (Keep qk x = true) ?_ ?_; focus (subst x); rotate_left; focus (intro hx; generalize x = y at hx ⊢)) | skip)

theorem stepGrid_wf {qm : Bool} {s : State} {delta : Int} (h_s : Keep ⟨qm, none⟩ s = true) : Keep ⟨qm, none⟩ (stepGrid s delta) = true := by
  unfold stepGrid
  repeat' first
    | with_reducible assumption
    | with_reducible intro _
    | with_reducible apply rbit_wf
    | simp only [wf_mk]
    | with_reducible apply keeps_of
    | with_reducible apply keeps_move (γ := s.grid)
    | (extract_lets x; first | (refine wf_cut (Keep ⟨qm, none⟩ x = true) ?_ ?_; focus (subst x); rotate_left; focus (intro hx; generalize x = y at hx ⊢)) | skip)

theorem submitStep_wf {qk : Kept} {s : State} {r : StepReq} (h_s : Keep qk s = true) : Keep qk (submitStep s r) = true := by
  unfold submitStep
  repeat' first
    | with_reducible assumption
    | with_reducible intro _
    | with_reducible apply rset_wf
    | with_reducible apply wf_ite
    | simp only [wf_mk]
    | with_reducible apply keeps_of
    | (extract_lets x; first | (refine wf_cut (Keep qk x = true) ?_ ?_; focus (subst x); rotate_left; focus (intro hx; generalize x = y at hx ⊢)) | skip)

theorem selectCandidate_wf {qk : Kept} {s : State} {c : Nat} (h_s : Keep qk s = true) : Keep qk (selectCandidate s c) = true := by
  unfold selectCandidate
  repeat' first
    | with_reducible assumption
    | with_reducible intro _
    | with_reducible apply selectCandidateWith_wf
    | with_reducible apply raise_wf
    | simp only [wf_mk]
    | with_reducible apply keeps_of
    | (extract_lets x; first | (refine wf_cut (Keep qk x = true) ?_ ?_; focus (subst x); rotate_left; focus (intro hx; generalize x = y at hx ⊢)) | skip)

theorem reselect_wf {qk : Kept} {s : State} (h_s : Keep qk s = true) : Keep qk (reselect s) = true := by
  unfold reselect
  repeat' first
    | with_reducible assumption
    | with_reducible intro _
    | with_reducible apply reselectWith_wf
    | with_reducible apply raise_wf
    | simp only [wf_mk]
    | with_reducible apply keeps_of
    | (extract_lets x; first | (refine wf_cut (Keep qk x = true) ?_ ?_; focus (subst x); rotate_left; focus (intro hx; generalize x = y at hx ⊢)) | skip)

theorem disqualify_wf {qk : Kept} {s : State} {n : Nat} (h_s : Keep qk s = true) : Keep qk (disqualify s n) = true := by
  unfold disqualify
  repeat' first
    | with_reducible assumption
    | with_reducible intro _
    | with_reducible apply disqualifyWith_wf
    | with_reducible apply raise_wf
    | simp only [wf_mk]
    | with_reducible apply keeps_of
    | (extract_lets x; first | (refine wf_cut (Keep qk x = true) ?_ ?_; focus (subst x); rotate_left; focus (intro hx; generalize x = y at hx ⊢)) | skip)

theorem frequencyGate_wf {qk : Kept} {s : State} {n : Nat} {offset : Int} (h_s : Keep qk s = true) : Keep qk (frequencyGate s n offset) = true := by
  unfold frequencyGate
  repeat' first
    | with_reducible assumption
    | with_reducible intro _
    | with_reducible apply rputI_wf
    | with_reducible apply noteCands_wf
    | with_reducible apply disqualify_wf
    | with_reducible apply wf_ite
    | simp only [wf_mk]
    | with_reducible apply keeps_of
    | (extract_lets x; first | (refine wf_cut (Keep qk x = true) ?_ ?_; focus (subst x); rotate_left; focus (intro hx; generalize x = y at hx ⊢)) | skip)

theorem qualify_wf {qk : Kept} {s : State} {n : Nat} (h_s : Keep qk s = true) : Keep qk (qualify s n) = true := by
  unfold qualify
  repeat' first
    | with_reducible assumption
    | with_reducible intro _
    | with_reducible apply rset_wf
    | with_reducible apply reselect_wf
    | with_reducible apply wf_ite
    | simp only [wf_mk]
    | with_reducible apply keeps_of
    | (extract_lets x; first | (refine wf_cut (Keep qk x = true) ?_ ?_; focus (subst x); rotate_left; focus (intro hx; generalize x = y at hx ⊢)) | skip)
    | dsimp -zeta only

theorem stepRefused_wf {qk : Kept} {s : State} {n : Nat} (h_s : Keep qk s = true) : Keep qk (stepRefused s n) = true := by
  unfold stepRefused
  repeat' first
    | with_reducible assumption
    | with_reducible intro _
    | with_reducible apply rset_wf
    | with_reducible apply disqualify_wf
    | with_reducible apply wf_ite
    | simp only [wf_mk]
    | with_reducible apply keeps_of
    | (extract_lets x; first | (refine wf_cut (Keep qk x = true) ?_ ?_; focus (subst x); rotate_left; focus (intro hx; generalize x = y at hx ⊢)) | skip)

theorem stepRestored_wf {qk : Kept} {s : State} {n : Nat} (h_s : Keep qk s = true) : Keep qk (stepRestored s n) = true := by
  unfold stepRestored
  repeat' first
    | with_reducible assumption
    | with_reducible intro _
    | with_reducible apply rclr_wf
    | with_reducible apply qualify_wf
    | with_reducible apply wf_ite
    | simp only [wf_mk]
    | with_reducible apply keeps_of
    | (extract_lets x; first | (refine wf_cut (Keep qk x = true) ?_ ?_; focus (subst x); rotate_left; focus (intro hx; generalize x = y at hx ⊢)) | skip)

theorem absoluteEstimate_wf {qk : Kept} {s : State} {o : StepOrigin} {n : Nat} {est : Int} (h_s : Keep qk s = true) : Keep qk (absoluteEstimate s o n est) = true := by
  unfold absoluteEstimate
  repeat' first
    | with_reducible assumption
    | with_reducible intro _
    | with_reducible apply submitStep_wf
    | with_reducible apply stepRestored_wf
    | with_reducible apply wf_ite
    | simp only [wf_mk]
    | with_reducible apply keeps_of
    | (extract_lets x; first | (refine wf_cut (Keep qk x = true) ?_ ?_; focus (subst x); rotate_left; focus (intro hx; generalize x = y at hx ⊢)) | skip)

theorem becomeValid_wf {qk : Kept} {s : State} (h_s : Keep qk s = true) : Keep qk (becomeValid s) = true := by
  unfold becomeValid
  repeat' first
    | with_reducible assumption
    | with_reducible intro _
    | with_reducible apply rset_wf
    | with_reducible apply recordEvent_wf
    | with_reducible apply settleCredits_wf
    | with_reducible apply wf_ite
    | simp only [wf_mk]
    | with_reducible apply keeps_of
    | (extract_lets x; first | (refine wf_cut (Keep qk x = true) ?_ ?_; focus (subst x); rotate_left; focus (intro hx; generalize x = y at hx ⊢)) | skip)

theorem applyStep_wf {qm : Bool} {s : State} {delta : Int} (h_s : Keep ⟨qm, none⟩ s = true) : Keep ⟨qm, none⟩ (applyStep s delta) = true := by
  unfold applyStep
  repeat' first
    | with_reducible assumption
    | with_reducible intro _
    | with_reducible apply rebase_wf
    | with_reducible apply stepGrid_wf
    | with_reducible apply becomeValid_wf
    | simp only [wf_mk]
    | with_reducible apply keeps_of
    | (extract_lets x; first | (refine wf_cut (Keep ⟨qm, none⟩ x = true) ?_ ?_; focus (subst x); rotate_left; focus (intro hx; generalize x = y at hx ⊢)) | skip)

theorem runStep_wf {qm : Bool} {s : State} (h_s : Keep ⟨qm, none⟩ s = true) : Keep ⟨qm, none⟩ (runStep s) = true := by
  unfold runStep
  repeat' first
    | with_reducible assumption
    | with_reducible intro _
    | with_reducible apply rputI_wf
    | with_reducible apply rset_wf
    | with_reducible apply rclr_wf
    | with_reducible apply finishOpt_wf
    | with_reducible apply raise_wf
    | with_reducible apply stepRefused_wf
    | with_reducible apply stepRestored_wf
    | with_reducible apply applyStep_wf
    | with_reducible apply wf_ite
    | simp only [wf_mk]
    | with_reducible apply keeps_of
    | (extract_lets x; first | (refine wf_cut (Keep ⟨qm, none⟩ x = true) ?_ ?_; focus (subst x); rotate_left; focus (intro hx; generalize x = y at hx ⊢)) | skip)
    | split

theorem setSteer_wf {qk : Kept} {s : State} {x : Int} (h_s : Keep qk s = true) : Keep qk (setSteer s x) = true := by
  unfold setSteer
  repeat' first
    | with_reducible assumption
    | with_reducible intro _
    | with_reducible apply rputI_wf
    | with_reducible apply rbit_wf
    | with_reducible apply raise_wf
    | with_reducible apply setRate_wf
    | with_reducible apply wf_ite
    | simp only [wf_mk]
    | with_reducible apply keeps_of
    | (extract_lets x; first | (refine wf_cut (Keep qk x = true) ?_ ?_; focus (subst x); rotate_left; focus (intro hx; generalize x = y at hx ⊢)) | skip)

theorem setPhase_wf {qk : Kept} {s : State} {e : Int} {b : Rat} (h_s : Keep qk s = true) : Keep qk (setPhase s e b) = true := by
  unfold setPhase
  repeat' first
    | with_reducible assumption
    | with_reducible intro _
    | with_reducible apply rputI_wf
    | simp only [wf_mk]
    | with_reducible apply keeps_of
    | (extract_lets x; first | (refine wf_cut (Keep qk x = true) ?_ ?_; focus (subst x); rotate_left; focus (intro hx; generalize x = y at hx ⊢)) | skip)

theorem setBw_wf {qk : Kept} {s : State} {code : Nat} (h_s : Keep qk s = true) : Keep qk (setBw s code) = true := by
  unfold setBw
  repeat' first
    | with_reducible assumption
    | with_reducible intro _
    | with_reducible apply rput_wf
    | with_reducible apply wf_ite
    | simp only [wf_mk]
    | with_reducible apply keeps_of
    | (extract_lets x; first | (refine wf_cut (Keep qk x = true) ?_ ?_; focus (subst x); rotate_left; focus (intro hx; generalize x = y at hx ⊢)) | skip)

theorem limitBw_wf {qk : Kept} {s : State} {n rate : Nat} (h_s : Keep qk s = true) : Keep qk (limitBw s n rate) = true := by
  unfold limitBw
  repeat' first
    | with_reducible assumption
    | with_reducible intro _
    | with_reducible apply setBw_wf
    | with_reducible apply wf_ite
    | simp only [wf_mk]
    | with_reducible apply keeps_of
    | (extract_lets x; first | (refine wf_cut (Keep qk x = true) ?_ ?_; focus (subst x); rotate_left; focus (intro hx; generalize x = y at hx ⊢)) | skip)

theorem buildOut_wf {qk : Kept} {s : State} {n : Nat} {e0 : Int} (h_s : Keep qk s = true) : Keep qk (buildOut s n e0) = true := by
  unfold buildOut
  repeat' first
    | with_reducible assumption
    | with_reducible intro _
    | with_reducible apply submitStep_wf
    | with_reducible apply setPhase_wf
    | with_reducible apply wf_ite
    | simp only [wf_mk]
    | with_reducible apply keeps_of
    | (extract_lets x; first | (refine wf_cut (Keep qk x = true) ?_ ?_; focus (subst x); rotate_left; focus (intro hx; generalize x = y at hx ⊢)) | skip)

theorem keepUntil_wf {qk : Kept} {s : State} {theta : Int} {t : Nat} (h_s : Keep qk s = true) : Keep qk (keepUntil s theta t) = true := by
  unfold keepUntil
  repeat' first
    | with_reducible assumption
    | with_reducible intro _
    | with_reducible apply wf_ite
    | simp only [wf_mk]
    | with_reducible apply keeps_of
    | (extract_lets x; first | (refine wf_cut (Keep qk x = true) ?_ ?_; focus (subst x); rotate_left; focus (intro hx; generalize x = y at hx ⊢)) | skip)

theorem keepHistory_wf {qk : Kept} {s : State} (h_s : Keep qk s = true) : Keep qk (keepHistory s) = true := by
  unfold keepHistory
  repeat' first
    | with_reducible assumption
    | with_reducible intro _
    | with_reducible apply rbit_wf
    | with_reducible apply keepUntil_wf
    | with_reducible apply wf_forEach
    | simp only [wf_mk]
    | with_reducible apply keeps_of
    | (extract_lets x; first | (refine wf_cut (Keep qk x = true) ?_ ?_; focus (subst x); rotate_left; focus (intro hx; generalize x = y at hx ⊢)) | skip)
    | dsimp -zeta only

theorem followSteer_wf {qk : Kept} {s : State} (h_s : Keep qk s = true) : Keep qk (followSteer s) = true := by
  unfold followSteer
  repeat' first
    | with_reducible assumption
    | with_reducible intro _
    | with_reducible apply setRate_wf
    | with_reducible apply wf_ite
    | simp only [wf_mk]
    | with_reducible apply keeps_of
    | (extract_lets x; first | (refine wf_cut (Keep qk x = true) ?_ ?_; focus (subst x); rotate_left; focus (intro hx; generalize x = y at hx ⊢)) | skip)

theorem startAcquire_wf {qk : Kept} {s : State} {n rate : Nat} {e0 : Int} (h_s : Keep qk s = true) : Keep qk (startAcquire s n rate e0) = true := by
  unfold startAcquire
  repeat' first
    | with_reducible assumption
    | with_reducible intro _
    | with_reducible apply rput_wf
    | with_reducible apply setBw_wf
    | with_reducible apply buildOut_wf
    | with_reducible apply followSteer_wf
    | with_reducible apply wf_ite
    | simp only [wf_mk]
    | with_reducible apply keeps_of
    | (extract_lets x; first | (refine wf_cut (Keep qk x = true) ?_ ?_; focus (subst x); rotate_left; focus (intro hx; generalize x = y at hx ⊢)) | skip)

theorem enterLocked_wf {qk : Kept} {s : State} (h_s : Keep qk s = true) : Keep qk (enterLocked s) = true := by
  unfold enterLocked
  repeat' first
    | with_reducible assumption
    | with_reducible intro _
    | with_reducible apply rput_wf
    | simp only [wf_mk]
    | with_reducible apply keeps_of
    | (extract_lets x; first | (refine wf_cut (Keep qk x = true) ?_ ?_; focus (subst x); rotate_left; focus (intro hx; generalize x = y at hx ⊢)) | skip)

theorem filterUpdate_wf {qk : Kept} {s : State} {n rate : Nat} {e : Int} {b : Rat} (h_s : Keep qk s = true) : Keep qk (filterUpdate s n rate e b) = true := by
  unfold filterUpdate
  repeat' first
    | with_reducible assumption
    | with_reducible intro _
    | with_reducible apply rput_wf
    | with_reducible apply rbit_wf
    | with_reducible apply raise_wf
    | with_reducible apply setSteer_wf
    | with_reducible apply setPhase_wf
    | with_reducible apply limitBw_wf
    | with_reducible apply keepHistory_wf
    | with_reducible apply enterLocked_wf
    | with_reducible apply wf_ite
    | simp only [wf_mk]
    | with_reducible apply keeps_of
    | (extract_lets x; first | (refine wf_cut (Keep qk x = true) ?_ ?_; focus (subst x); rotate_left; focus (intro hx; generalize x = y at hx ⊢)) | skip)

theorem loopStep_wf {qk : Kept} {s : State} {phase : Int} {rate : Nat} (h_s : Keep qk s = true) : Keep qk (loopStep s phase rate) = true := by
  unfold loopStep
  repeat' first
    | with_reducible assumption
    | with_reducible intro _
    | with_reducible apply raise_wf
    | with_reducible apply limitBw_wf
    | with_reducible apply buildOut_wf
    | with_reducible apply keepHistory_wf
    | with_reducible apply followSteer_wf
    | with_reducible apply startAcquire_wf
    | with_reducible apply filterUpdate_wf
    | with_reducible apply wf_ite
    | simp only [wf_mk]
    | with_reducible apply keeps_of
    | (extract_lets x; first | (refine wf_cut (Keep qk x = true) ?_ ?_; focus (subst x); rotate_left; focus (intro hx; generalize x = y at hx ⊢)) | skip)

theorem refitAge_wf {qk : Kept} {s : State} (h_s : Keep qk s = true) : Keep qk (refitAge s) = true := by
  unfold refitAge
  repeat' first
    | with_reducible assumption
    | with_reducible intro _
    | with_reducible apply rbit_wf
    | with_reducible apply wf_ite
    | simp only [wf_mk]
    | with_reducible apply keeps_of
    | (extract_lets x; first | (refine wf_cut (Keep qk x = true) ?_ ?_; focus (subst x); rotate_left; focus (intro hx; generalize x = y at hx ⊢)) | skip)
    | dsimp -zeta only
    | split

theorem afterRefWrite_wf {qk : Kept} {s : State} {a : Nat} (h_s : Keep qk s = true) : Keep qk (afterRefWrite s a) = true := by
  unfold afterRefWrite
  repeat' first
    | with_reducible assumption
    | with_reducible intro _
    | with_reducible apply wr_wf
    | with_reducible apply rput_wf
    | with_reducible apply noteCands_wf
    | with_reducible apply reselect_wf
    | with_reducible apply setSteer_wf
    | with_reducible apply wf_ite
    | simp only [wf_mk]
    | with_reducible apply keeps_of
    | (extract_lets x; first | (refine wf_cut (Keep qk x = true) ?_ ?_; focus (subst x); rotate_left; focus (intro hx; generalize x = y at hx ⊢)) | skip)

theorem execXoInLost_wf {qk : Kept} {s : State} (h_s : Keep qk s = true) : OW qk (execXoInLost s) := by
  unfold execXoInLost
  repeat' first
    | with_reducible assumption
    | with_reducible intro _
    | with_reducible apply rclr_wf
    | with_reducible apply onIsland_wf
    | with_reducible apply settleCredits_wf
    | with_reducible apply raise_wf
    | with_reducible apply ow_next
    | simp only [wf_mk]
    | with_reducible apply keeps_of
    | (extract_lets x; first | (refine wf_cut (Keep qk x = true) ?_ ?_; focus (subst x); rotate_left; focus (intro hx; generalize x = y at hx ⊢)) | skip)

theorem execXoInReturn_wf {qk : Kept} {s : State} (h_s : Keep qk s = true) : OW qk (execXoInReturn s) := by
  unfold execXoInReturn
  repeat' first
    | with_reducible assumption
    | with_reducible intro _
    | with_reducible apply rset_wf
    | with_reducible apply onIsland_wf
    | with_reducible apply ow_next
    | simp only [wf_mk]
    | with_reducible apply keeps_of
    | (extract_lets x; first | (refine wf_cut (Keep qk x = true) ?_ ?_; focus (subst x); rotate_left; focus (intro hx; generalize x = y at hx ⊢)) | skip)

theorem execMsynOutOfLock_wf {qk : Kept} {locked : Bool} {s : State} (h_s : Keep qk s = true) : OW qk (execMsynOutOfLock locked s) := by
  unfold execMsynOutOfLock
  repeat' first
    | with_reducible assumption
    | with_reducible intro _
    | with_reducible apply rbit_wf
    | with_reducible apply onIsland_wf
    | with_reducible apply raise_wf
    | with_reducible apply ow_ite
    | with_reducible apply wf_ite
    | with_reducible apply ow_next
    | simp only [wf_mk]
    | with_reducible apply keeps_of
    | (extract_lets x; first | (refine wf_cut (Keep qk x = true) ?_ ?_; focus (subst x); rotate_left; focus (intro hx; generalize x = y at hx ⊢)) | skip)

theorem execTimePllOutOfLock_wf {qk : Kept} {locked : Bool} {s : State} (h_s : Keep qk s = true) : OW qk (execTimePllOutOfLock locked s) := by
  unfold execTimePllOutOfLock
  repeat' first
    | with_reducible assumption
    | with_reducible intro _
    | with_reducible apply rbit_wf
    | with_reducible apply onIsland_wf
    | with_reducible apply raise_wf
    | with_reducible apply ow_ite
    | with_reducible apply wf_ite
    | with_reducible apply ow_next
    | simp only [wf_mk]
    | with_reducible apply keeps_of
    | (extract_lets x; first | (refine wf_cut (Keep qk x = true) ?_ ?_; focus (subst x); rotate_left; focus (intro hx; generalize x = y at hx ⊢)) | skip)

theorem execRefActivityLost_wf {qk : Kept} {c : Fin 22} {s : State} (h_s : Keep qk s = true) : OW qk (execRefActivityLost c s) := by
  unfold execRefActivityLost
  repeat' first
    | with_reducible assumption
    | with_reducible intro _
    | with_reducible apply rclr_wf
    | with_reducible apply onHost_wf
    | with_reducible apply disqualify_wf
    | with_reducible apply ow_ite
    | with_reducible apply wf_ite
    | with_reducible apply ow_next
    | simp only [wf_mk]
    | with_reducible apply keeps_of
    | (extract_lets x; first | (refine wf_cut (Keep qk x = true) ?_ ?_; focus (subst x); rotate_left; focus (intro hx; generalize x = y at hx ⊢)) | skip)

theorem execRefActivityRestored_wf {qk : Kept} {c : Fin 22} {s : State} (h_s : Keep qk s = true) : OW qk (execRefActivityRestored c s) := by
  unfold execRefActivityRestored
  repeat' first
    | with_reducible assumption
    | with_reducible intro _
    | with_reducible apply rset_wf
    | with_reducible apply onHost_wf
    | with_reducible apply noteCands_wf
    | with_reducible apply ow_ite
    | with_reducible apply wf_ite
    | with_reducible apply ow_next
    | simp only [wf_mk]
    | with_reducible apply keeps_of
    | (extract_lets x; first | (refine wf_cut (Keep qk x = true) ?_ ?_; focus (subst x); rotate_left; focus (intro hx; generalize x = y at hx ⊢)) | skip)

theorem execRefFrequencyGate_wf {qk : Kept} {c : Fin 22} {offset : Int} {s : State} (h_s : Keep qk s = true) : OW qk (execRefFrequencyGate c offset s) := by
  unfold execRefFrequencyGate
  repeat' first
    | with_reducible assumption
    | with_reducible intro _
    | with_reducible apply onHost_wf
    | with_reducible apply frequencyGate_wf
    | with_reducible apply ow_ite
    | with_reducible apply wf_ite
    | with_reducible apply ow_next
    | simp only [wf_mk]
    | with_reducible apply keeps_of
    | (extract_lets x; first | (refine wf_cut (Keep qk x = true) ?_ ?_; focus (subst x); rotate_left; focus (intro hx; generalize x = y at hx ⊢)) | skip)

theorem execRefQualified_wf {qk : Kept} {c : Fin 22} {s : State} (h_s : Keep qk s = true) : OW qk (execRefQualified c s) := by
  unfold execRefQualified
  repeat' first
    | with_reducible assumption
    | with_reducible intro _
    | with_reducible apply onHost_wf
    | with_reducible apply qualify_wf
    | with_reducible apply ow_ite
    | with_reducible apply wf_ite
    | with_reducible apply ow_next
    | simp only [wf_mk]
    | with_reducible apply keeps_of
    | (extract_lets x; first | (refine wf_cut (Keep qk x = true) ?_ ?_; focus (subst x); rotate_left; focus (intro hx; generalize x = y at hx ⊢)) | skip)

theorem execRevertWaitExpiry_wf {qk : Kept} {c : Fin 22} {s : State} (h_s : Keep qk s = true) : OW qk (execRevertWaitExpiry c s) := by
  unfold execRevertWaitExpiry
  repeat' first
    | with_reducible assumption
    | with_reducible intro _
    | with_reducible apply onHost_wf
    | with_reducible apply selectCandidate_wf
    | with_reducible apply ow_ite
    | with_reducible apply wf_ite
    | with_reducible apply ow_next
    | simp only [wf_mk]
    | with_reducible apply keeps_of
    | (extract_lets x; first | (refine wf_cut (Keep qk x = true) ?_ ?_; focus (subst x); rotate_left; focus (intro hx; generalize x = y at hx ⊢)) | skip)

theorem execLoopUpdate_wf {qk : Kept} {phase : Int} {rate : Nat} {s : State} (h_s : Keep qk s = true) : OW qk (execLoopUpdate phase rate s) := by
  unfold execLoopUpdate
  repeat' first
    | with_reducible assumption
    | with_reducible intro _
    | with_reducible apply onHost_wf
    | with_reducible apply loopStep_wf
    | with_reducible apply ow_next
    | simp only [wf_mk]
    | with_reducible apply keeps_of
    | (extract_lets x; first | (refine wf_cut (Keep qk x = true) ?_ ?_; focus (subst x); rotate_left; focus (intro hx; generalize x = y at hx ⊢)) | skip)

theorem execFastAcquireDwellEnd_wf {qk : Kept} {s : State} (h_s : Keep qk s = true) : OW qk (execFastAcquireDwellEnd s) := by
  unfold execFastAcquireDwellEnd
  repeat' first
    | with_reducible assumption
    | with_reducible intro _
    | with_reducible apply onHost_wf
    | with_reducible apply setBw_wf
    | with_reducible apply ow_ite
    | with_reducible apply wf_ite
    | with_reducible apply ow_next
    | simp only [wf_mk]
    | with_reducible apply keeps_of
    | (extract_lets x; first | (refine wf_cut (Keep qk x = true) ?_ ?_; focus (subst x); rotate_left; focus (intro hx; generalize x = y at hx ⊢)) | skip)

theorem execHoldoverEvaluation_wf {qk : Kept} {s : State} (h_s : Keep qk s = true) : OW qk (execHoldoverEvaluation s) := by
  unfold execHoldoverEvaluation
  repeat' first
    | with_reducible assumption
    | with_reducible intro _
    | with_reducible apply onHost_wf
    | with_reducible apply setSteer_wf
    | with_reducible apply ow_ite
    | with_reducible apply wf_ite
    | with_reducible apply ow_next
    | simp only [wf_mk]
    | with_reducible apply keeps_of
    | (extract_lets x; first | (refine wf_cut (Keep qk x = true) ?_ ?_; focus (subst x); rotate_left; focus (intro hx; generalize x = y at hx ⊢)) | skip)

theorem execAgeingRefit_wf {qk : Kept} {s : State} (h_s : Keep qk s = true) : OW qk (execAgeingRefit s) := by
  unfold execAgeingRefit
  repeat' first
    | with_reducible assumption
    | with_reducible intro _
    | with_reducible apply onHost_wf
    | with_reducible apply refitAge_wf
    | with_reducible apply ow_next
    | simp only [wf_mk]
    | with_reducible apply keeps_of
    | (extract_lets x; first | (refine wf_cut (Keep qk x = true) ?_ ?_; focus (subst x); rotate_left; focus (intro hx; generalize x = y at hx ⊢)) | skip)

theorem execTemperatureReading_wf {qk : Kept} {die : BitVec 16} {diode : Option (BitVec 16)} {s : State} (h_s : Keep qk s = true) : OW qk (execTemperatureReading die diode s) := by
  unfold execTemperatureReading
  repeat' first
    | with_reducible assumption
    | with_reducible intro _
    | with_reducible apply rput_wf
    | with_reducible apply rbit_wf
    | with_reducible apply onHost_wf
    | with_reducible apply raise_wf
    | with_reducible apply ow_ite
    | with_reducible apply wf_ite
    | with_reducible apply ow_next
    | simp only [wf_mk]
    | with_reducible apply keeps_of
    | (extract_lets x; first | (refine wf_cut (Keep qk x = true) ?_ ?_; focus (subst x); rotate_left; focus (intro hx; generalize x = y at hx ⊢)) | skip)

theorem hostRefPstep_wf {qk : Kept} {w : Word} {s : State} (h_s : Keep qk s = true) : Keep qk (hostRefPstep w s) = true := by
  unfold hostRefPstep
  repeat' first
    | with_reducible assumption
    | with_reducible intro _
    | with_reducible apply rputI_wf
    | with_reducible apply rset_wf
    | simp only [wf_mk]
    | with_reducible apply keeps_of
    | (extract_lets x; first | (refine wf_cut (Keep qk x = true) ?_ ?_; focus (subst x); rotate_left; focus (intro hx; generalize x = y at hx ⊢)) | skip)

theorem execRefPstep_wf {qk : Kept} {w : Word} {s : State} (h_s : Keep qk s = true) : OW qk (execRefPstep w s) := by
  unfold execRefPstep
  repeat' first
    | with_reducible assumption
    | with_reducible intro _
    | with_reducible apply onBar_wf
    | with_reducible apply hostRefPstep_wf
    | with_reducible apply ow_next
    | simp only [wf_mk]
    | with_reducible apply keeps_of
    | (extract_lets x; first | (refine wf_cut (Keep qk x = true) ?_ ?_; focus (subst x); rotate_left; focus (intro hx; generalize x = y at hx ⊢)) | skip)

theorem hostTimeRateWrite_wf {qk : Kept} {w : Word} {s : State} (h_s : Keep qk s = true) : Keep qk (hostTimeRateWrite w s) = true := by
  unfold hostTimeRateWrite
  repeat' first
    | with_reducible assumption
    | with_reducible intro _
    | with_reducible apply rset_wf
    | with_reducible apply raise_wf
    | with_reducible apply setRate_wf
    | with_reducible apply wf_ite
    | simp only [wf_mk]
    | with_reducible apply keeps_of
    | (extract_lets x; first | (refine wf_cut (Keep qk x = true) ?_ ?_; focus (subst x); rotate_left; focus (intro hx; generalize x = y at hx ⊢)) | skip)

theorem execTimeRateWrite_wf {qk : Kept} {w : Word} {s : State} (h_s : Keep qk s = true) : OW qk (execTimeRateWrite w s) := by
  unfold execTimeRateWrite
  repeat' first
    | with_reducible assumption
    | with_reducible intro _
    | with_reducible apply onBar_wf
    | with_reducible apply hostTimeRateWrite_wf
    | with_reducible apply ow_next
    | simp only [wf_mk]
    | with_reducible apply keeps_of
    | (extract_lets x; first | (refine wf_cut (Keep qk x = true) ?_ ?_; focus (subst x); rotate_left; focus (intro hx; generalize x = y at hx ⊢)) | skip)

theorem hostTimeAdjGo_wf {qk : Kept} {w : Word} {s : State} (h_s : Keep qk s = true) : Keep qk (hostTimeAdjGo w s) = true := by
  unfold hostTimeAdjGo
  repeat' first
    | with_reducible assumption
    | with_reducible intro _
    | with_reducible apply rset_wf
    | with_reducible apply raise_wf
    | with_reducible apply submitStep_wf
    | with_reducible apply wf_ite
    | simp only [wf_mk]
    | with_reducible apply keeps_of
    | (extract_lets x; first | (refine wf_cut (Keep qk x = true) ?_ ?_; focus (subst x); rotate_left; focus (intro hx; generalize x = y at hx ⊢)) | skip)

theorem execTimeAdjGo_wf {qk : Kept} {w : Word} {s : State} (h_s : Keep qk s = true) : OW qk (execTimeAdjGo w s) := by
  unfold execTimeAdjGo
  repeat' first
    | with_reducible assumption
    | with_reducible intro _
    | with_reducible apply onBar_wf
    | with_reducible apply hostTimeAdjGo_wf
    | with_reducible apply ow_next
    | simp only [wf_mk]
    | with_reducible apply keeps_of
    | (extract_lets x; first | (refine wf_cut (Keep qk x = true) ?_ ?_; focus (subst x); rotate_left; focus (intro hx; generalize x = y at hx ⊢)) | skip)

theorem hostForce_wf {qk : Kept} {w : Word} {s : State} (h_s : Keep qk s = true) : Keep qk (hostForce w s) = true := by
  unfold hostForce
  repeat' first
    | with_reducible assumption
    | with_reducible intro _
    | with_reducible apply rwrite_wf
    | with_reducible apply wf_ite
    | simp only [wf_mk]
    | with_reducible apply keeps_of
    | (extract_lets x; first | (refine wf_cut (Keep qk x = true) ?_ ?_; focus (subst x); rotate_left; focus (intro hx; generalize x = y at hx ⊢)) | skip)

theorem execForce_wf {qk : Kept} {w : Word} {s : State} (h_s : Keep qk s = true) : OW qk (execForce w s) := by
  unfold execForce
  repeat' first
    | with_reducible assumption
    | with_reducible intro _
    | with_reducible apply onBar_wf
    | with_reducible apply hostForce_wf
    | with_reducible apply ow_next
    | simp only [wf_mk]
    | with_reducible apply keeps_of
    | (extract_lets x; first | (refine wf_cut (Keep qk x = true) ?_ ?_; focus (subst x); rotate_left; focus (intro hx; generalize x = y at hx ⊢)) | skip)

theorem execForceExpiry_wf {qk : Kept} {s : State} (h_s : Keep qk s = true) : OW qk (execForceExpiry s) := by
  unfold execForceExpiry
  repeat' first
    | with_reducible assumption
    | with_reducible intro _
    | with_reducible apply rclr_wf
    | with_reducible apply onIsland_wf
    | with_reducible apply ow_ite
    | with_reducible apply wf_ite
    | with_reducible apply ow_next
    | simp only [wf_mk]
    | with_reducible apply keeps_of
    | (extract_lets x; first | (refine wf_cut (Keep qk x = true) ?_ ?_; focus (subst x); rotate_left; focus (intro hx; generalize x = y at hx ⊢)) | skip)

theorem execTimeStepApply_wf {qm : Bool} {s : State} (h_s : Keep ⟨qm, none⟩ s = true) : OW ⟨qm, none⟩ (execTimeStepApply s) := by
  unfold execTimeStepApply
  repeat' first
    | with_reducible assumption
    | with_reducible intro _
    | with_reducible apply onIsland_wf
    | with_reducible apply runStep_wf
    | with_reducible apply ow_next
    | simp only [wf_mk]
    | with_reducible apply keeps_of
    | (extract_lets x; first | (refine wf_cut (Keep ⟨qm, none⟩ x = true) ?_ ?_; focus (subst x); rotate_left; focus (intro hx; generalize x = y at hx ⊢)) | skip)

theorem execTimeSet_wf {qk : Kept} {d : DescRef} {s : State} (h_s : Keep qk s = true) : OW qk (execTimeSet d s) := by
  unfold execTimeSet
  repeat' first
    | with_reducible assumption
    | with_reducible intro _
    | with_reducible apply finish_wf
    | with_reducible apply onDesc_wf
    | with_reducible apply submitStep_wf
    | with_reducible apply ow_ite
    | with_reducible apply wf_ite
    | with_reducible apply ow_next
    | simp only [wf_mk]
    | with_reducible apply keeps_of
    | (extract_lets x; first | (refine wf_cut (Keep qk x = true) ?_ ?_; focus (subst x); rotate_left; focus (intro hx; generalize x = y at hx ⊢)) | skip)

theorem hostTimeNowFracRead_wf {qk : Kept} {s : State} (h_s : Keep qk s = true) : Keep qk (hostTimeNowFracRead s) = true := by
  unfold hostTimeNowFracRead
  repeat' first
    | with_reducible assumption
    | with_reducible intro _
    | with_reducible apply rput_wf
    | simp only [wf_mk]
    | with_reducible apply keeps_of
    | (extract_lets x; first | (refine wf_cut (Keep qk x = true) ?_ ?_; focus (subst x); rotate_left; focus (intro hx; generalize x = y at hx ⊢)) | skip)

theorem execTimeNowFracRead_wf {qk : Kept} {s : State} (h_s : Keep qk s = true) : OW qk (execTimeNowFracRead s) := by
  unfold execTimeNowFracRead
  repeat' first
    | with_reducible assumption
    | with_reducible intro _
    | with_reducible apply onBar_wf
    | with_reducible apply hostTimeNowFracRead_wf
    | with_reducible apply ow_next
    | simp only [wf_mk]
    | with_reducible apply keeps_of
    | (extract_lets x; first | (refine wf_cut (Keep qk x = true) ?_ ?_; focus (subst x); rotate_left; focus (intro hx; generalize x = y at hx ⊢)) | skip)

theorem hostTimeCntLoRead_wf {qk : Kept} {s : State} (h_s : Keep qk s = true) : Keep qk (hostTimeCntLoRead s) = true := by
  unfold hostTimeCntLoRead
  repeat' first
    | with_reducible assumption
    | with_reducible intro _
    | with_reducible apply rput_wf
    | simp only [wf_mk]
    | with_reducible apply keeps_of
    | (extract_lets x; first | (refine wf_cut (Keep qk x = true) ?_ ?_; focus (subst x); rotate_left; focus (intro hx; generalize x = y at hx ⊢)) | skip)

theorem execTimeCntLoRead_wf {qk : Kept} {s : State} (h_s : Keep qk s = true) : OW qk (execTimeCntLoRead s) := by
  unfold execTimeCntLoRead
  repeat' first
    | with_reducible assumption
    | with_reducible intro _
    | with_reducible apply onBar_wf
    | with_reducible apply hostTimeCntLoRead_wf
    | with_reducible apply ow_next
    | simp only [wf_mk]
    | with_reducible apply keeps_of
    | (extract_lets x; first | (refine wf_cut (Keep qk x = true) ?_ ?_; focus (subst x); rotate_left; focus (intro hx; generalize x = y at hx ⊢)) | skip)

theorem hostTimeBaseCntLoRead_wf {qk : Kept} {s : State} (h_s : Keep qk s = true) : Keep qk (hostTimeBaseCntLoRead s) = true := by
  unfold hostTimeBaseCntLoRead
  repeat' first
    | with_reducible assumption
    | with_reducible intro _
    | with_reducible apply rput_wf
    | simp only [wf_mk]
    | with_reducible apply keeps_of
    | (extract_lets x; first | (refine wf_cut (Keep qk x = true) ?_ ?_; focus (subst x); rotate_left; focus (intro hx; generalize x = y at hx ⊢)) | skip)

theorem execTimeBaseCntLoRead_wf {qk : Kept} {s : State} (h_s : Keep qk s = true) : OW qk (execTimeBaseCntLoRead s) := by
  unfold execTimeBaseCntLoRead
  repeat' first
    | with_reducible assumption
    | with_reducible intro _
    | with_reducible apply onBar_wf
    | with_reducible apply hostTimeBaseCntLoRead_wf
    | with_reducible apply ow_next
    | simp only [wf_mk]
    | with_reducible apply keeps_of
    | (extract_lets x; first | (refine wf_cut (Keep qk x = true) ?_ ?_; focus (subst x); rotate_left; focus (intro hx; generalize x = y at hx ⊢)) | skip)

theorem execPpsPulse_wf {qk : Kept} {s : State} (h_s : Keep qk s = true) : OW qk (execPpsPulse s) := by
  unfold execPpsPulse
  repeat' first
    | with_reducible assumption
    | with_reducible intro _
    | with_reducible apply onIsland_wf
    | with_reducible apply ow_ite
    | with_reducible apply wf_ite
    | with_reducible apply ow_next
    | simp only [wf_mk]
    | with_reducible apply keeps_of
    | (extract_lets x; first | (refine wf_cut (Keep qk x = true) ?_ ?_; focus (subst x); rotate_left; focus (intro hx; generalize x = y at hx ⊢)) | skip)
    | split

theorem execPpsPulseEnd_wf {qk : Kept} {s : State} (h_s : Keep qk s = true) : OW qk (execPpsPulseEnd s) := by
  unfold execPpsPulseEnd
  repeat' first
    | with_reducible assumption
    | with_reducible intro _
    | with_reducible apply onIsland_wf
    | with_reducible apply ow_ite
    | with_reducible apply wf_ite
    | with_reducible apply ow_next
    | simp only [wf_mk]
    | with_reducible apply keeps_of
    | (extract_lets x; first | (refine wf_cut (Keep qk x = true) ?_ ?_; focus (subst x); rotate_left; focus (intro hx; generalize x = y at hx ⊢)) | skip)

end Sys2Proof.Machine
end

