-- ==== Sys2Proof/Laws/KeepsNet.lean ====
section
/-! SUPPORT. The operations of Machine/Net.lean keep what `Keep` names. -/

namespace Sys2Proof.Machine
open Sys2Proof
set_option linter.all false
set_option simprocs false

theorem writeNetCtrl_wf {qk : Kept} {s : State} {p : Nat} {w : Word} (h_s : Keep qk s = true) : Keep qk (writeNetCtrl s p w) = true := by
  unfold writeNetCtrl
  repeat' first
    | with_reducible assumption
    | with_reducible intro _
    | with_reducible apply rset_wf
    | with_reducible apply rclr_wf
    | with_reducible apply rwrite_wf
    | with_reducible apply updateCredits_wf
    | with_reducible apply netFlushWith_wf
    | with_reducible apply raise_wf
    | with_reducible apply wf_ite
    | simp only [wf_mk]
    | with_reducible apply keeps_of
    | (extract_lets x; first | (refine wf_cut (Keep qk x = true) ?_ ?_; focus (subst x); rotate_left; focus (intro hx; generalize x = y at hx ⊢)) | skip)

theorem hostNetModeWrite_wf {qk : Kept} {p : Fin 8} {w : Word} {s : State} (h_s : Keep qk s = true) : Keep qk (hostNetModeWrite p w s) = true := by
  unfold hostNetModeWrite
  repeat' first
    | with_reducible assumption
    | with_reducible intro _
    | with_reducible apply writeNetCtrl_wf
    | simp only [wf_mk]
    | with_reducible apply keeps_of
    | (extract_lets x; first | (refine wf_cut (Keep qk x = true) ?_ ?_; focus (subst x); rotate_left; focus (intro hx; generalize x = y at hx ⊢)) | skip)

theorem execNetModeWrite_wf {qk : Kept} {p : Fin 8} {w : Word} {s : State} (h_s : Keep qk s = true) : OW qk (execNetModeWrite p w s) := by
  unfold execNetModeWrite
  repeat' first
    | with_reducible assumption
    | with_reducible intro _
    | with_reducible apply onBar_wf
    | with_reducible apply hostNetModeWrite_wf
    | with_reducible apply ow_next
    | simp only [wf_mk]
    | with_reducible apply keeps_of
    | (extract_lets x; first | (refine wf_cut (Keep qk x = true) ?_ ?_; focus (subst x); rotate_left; focus (intro hx; generalize x = y at hx ⊢)) | skip)

theorem execNetLinkUp_wf {qk : Kept} {p : Fin 8} {s : State} (h_s : Keep qk s = true) : OW qk (execNetLinkUp p s) := by
  unfold execNetLinkUp
  repeat' first
    | with_reducible assumption
    | with_reducible intro _
    | with_reducible apply rset_wf
    | with_reducible apply rbit_wf
    | with_reducible apply onHost_wf
    | with_reducible apply ow_ite
    | with_reducible apply wf_ite
    | with_reducible apply ow_next
    | simp only [wf_mk]
    | with_reducible apply keeps_of
    | (extract_lets x; first | (refine wf_cut (Keep qk x = true) ?_ ?_; focus (subst x); rotate_left; focus (intro hx; generalize x = y at hx ⊢)) | skip)

theorem execNetLinkDown_wf {qk : Kept} {p : LinkGap} {s : State} (h_s : Keep qk s = true) : OW qk (execNetLinkDown p s) := by
  unfold execNetLinkDown
  repeat' first
    | with_reducible assumption
    | with_reducible intro _
    | with_reducible apply onHost_wf
    | with_reducible apply linkDown_wf
    | with_reducible apply ow_ite
    | with_reducible apply wf_ite
    | with_reducible apply ow_next
    | simp only [wf_mk]
    | with_reducible apply keeps_of
    | (extract_lets x; first | (refine wf_cut (Keep qk x = true) ?_ ?_; focus (subst x); rotate_left; focus (intro hx; generalize x = y at hx ⊢)) | skip)

theorem takePause_wf {qk : Kept} {s : State} {p quanta : Nat} (h_s : Keep qk s = true) : Keep qk (takePause s p quanta) = true := by
  unfold takePause
  repeat' first
    | with_reducible assumption
    | with_reducible intro _
    | with_reducible apply rset_wf
    | with_reducible apply setNet_wf
    | with_reducible apply endPause_wf
    | with_reducible apply wf_ite
    | simp only [wf_mk]
    | with_reducible apply keeps_of
    | (extract_lets x; first | (refine wf_cut (Keep qk x = true) ?_ ?_; focus (subst x); rotate_left; focus (intro hx; generalize x = y at hx ⊢)) | skip)
    | split

theorem execPauseExpiry_wf {qk : Kept} {p : Fin 8} {s : State} (h_s : Keep qk s = true) : OW qk (execPauseExpiry p s) := by
  unfold execPauseExpiry
  repeat' first
    | with_reducible assumption
    | with_reducible intro _
    | with_reducible apply onHost_wf
    | with_reducible apply updateCredits_wf
    | with_reducible apply endPause_wf
    | with_reducible apply ow_ite
    | with_reducible apply wf_ite
    | with_reducible apply ow_next
    | simp only [wf_mk]
    | with_reducible apply keeps_of
    | (extract_lets x; first | (refine wf_cut (Keep qk x = true) ?_ ?_; focus (subst x); rotate_left; focus (intro hx; generalize x = y at hx ⊢)) | skip)
    | split

theorem execPauseWatchdog_wf {qk : Kept} {p : Fin 8} {s : State} (h_s : Keep qk s = true) : OW qk (execPauseWatchdog p s) := by
  unfold execPauseWatchdog
  repeat' first
    | with_reducible assumption
    | with_reducible intro _
    | with_reducible apply rset_wf
    | with_reducible apply radd_wf
    | with_reducible apply onHost_wf
    | with_reducible apply setNet_wf
    | with_reducible apply raise_wf
    | with_reducible apply endPause_wf
    | with_reducible apply ow_ite
    | with_reducible apply wf_ite
    | with_reducible apply ow_next
    | simp only [wf_mk]
    | with_reducible apply keeps_of
    | (extract_lets x; first | (refine wf_cut (Keep qk x = true) ?_ ?_; focus (subst x); rotate_left; focus (intro hx; generalize x = y at hx ⊢)) | skip)
    | split

theorem filtered_wf {qk : Kept} {s : State} {p : Nat} (h_s : Keep qk s = true) : Keep qk (filtered s p) = true := by
  unfold filtered
  repeat' first
    | with_reducible assumption
    | with_reducible intro _
    | with_reducible apply radd_wf
    | simp only [wf_mk]
    | with_reducible apply keeps_of
    | (extract_lets x; first | (refine wf_cut (Keep qk x = true) ?_ ?_; focus (subst x); rotate_left; focus (intro hx; generalize x = y at hx ⊢)) | skip)

theorem hostFrame_wf {qk : Kept} {s : State} {p : Nat} {f : List Byte} {tin : Int} (h_s : Keep qk s = true) : Keep qk (hostFrame s p f tin) = true := by
  unfold hostFrame
  repeat' first
    | with_reducible assumption
    | with_reducible intro _
    | with_reducible apply radd_wf
    | with_reducible apply hostWrite_wf
    | with_reducible apply finish_wf
    | simp only [wf_mk]
    | with_reducible apply keeps_of
    | (extract_lets x; first | (refine wf_cut (Keep qk x = true) ?_ ?_; focus (subst x); rotate_left; focus (intro hx; generalize x = y at hx ⊢)) | skip)
    | split

theorem classify_wf {qk : Kept} {s : State} {p : Nat} {f : List Byte} {tin : Int} (h_s : Keep qk s = true) : Keep qk (classify s p f tin) = true := by
  unfold classify
  repeat' first
    | with_reducible assumption
    | with_reducible intro _
    | with_reducible apply radd_wf
    | with_reducible apply takePacket_wf
    | with_reducible apply takePause_wf
    | with_reducible apply filtered_wf
    | with_reducible apply hostFrame_wf
    | with_reducible apply wf_ite
    | simp only [wf_mk]
    | with_reducible apply keeps_of
    | (extract_lets x; first | (refine wf_cut (Keep qk x = true) ?_ ?_; focus (subst x); rotate_left; focus (intro hx; generalize x = y at hx ⊢)) | skip)
    | dsimp -zeta only
    | split

theorem execFrameReceive_wf {qk : Kept} {p : Fin 8} {r : RxReport} {s : State} (h_s : Keep qk s = true) : OW qk (execFrameReceive p r s) := by
  unfold execFrameReceive
  repeat' first
    | with_reducible assumption
    | with_reducible intro _
    | with_reducible apply rput_wf
    | with_reducible apply radd_wf
    | with_reducible apply onHost_wf
    | with_reducible apply raise_wf
    | with_reducible apply countErrors_wf
    | with_reducible apply classify_wf
    | with_reducible apply ow_ite
    | with_reducible apply wf_ite
    | with_reducible apply ow_next
    | simp only [wf_mk]
    | with_reducible apply keeps_of
    | (extract_lets x; first | (refine wf_cut (Keep qk x = true) ?_ ?_; focus (subst x); rotate_left; focus (intro hx; generalize x = y at hx ⊢)) | skip)
    | split

theorem dropBadFrame_wf {qk : Kept} {s : State} {p : Nat} {f : TxFrame} (h_s : Keep qk s = true) : Keep qk (dropBadFrame s p f) = true := by
  unfold dropBadFrame
  repeat' first
    | with_reducible assumption
    | with_reducible intro _
    | with_reducible apply endNetTx_wf
    | with_reducible apply raise_wf
    | with_reducible apply strTxDrop_wf
    | simp only [wf_mk]
    | with_reducible apply keeps_of
    | (extract_lets x; first | (refine wf_cut (Keep qk x = true) ?_ ?_; focus (subst x); rotate_left; focus (intro hx; generalize x = y at hx ⊢)) | skip)
    | split

theorem startFrame_wf {qk : Kept} {s : State} {p q : Nat} {bufferBad : Bool} (h_s : Keep qk s = true) : Keep qk (startFrame s p q bufferBad) = true := by
  unfold startFrame
  repeat' first
    | with_reducible assumption
    | with_reducible intro _
    | with_reducible apply sendOut_wf
    | with_reducible apply setNet_wf
    | with_reducible apply setQueue_wf
    | with_reducible apply dropBadFrame_wf
    | with_reducible apply wf_ite
    | simp only [wf_mk]
    | with_reducible apply keeps_of
    | (extract_lets x; first | (refine wf_cut (Keep qk x = true) ?_ ?_; focus (subst x); rotate_left; focus (intro hx; generalize x = y at hx ⊢)) | skip)
    | split

theorem execFrameTransmit_wf {qk : Kept} {p : Fin 8} {servo : Option ServoFrame} {bufferBad : Bool} {s : State} (h_s : Keep qk s = true) : OW qk (execFrameTransmit p servo bufferBad s) := by
  unfold execFrameTransmit
  repeat' first
    | with_reducible assumption
    | with_reducible intro _
    | with_reducible apply onHost_wf
    | with_reducible apply updateCredits_wf
    | with_reducible apply enqueueOrDrop_wf
    | with_reducible apply startFrame_wf
    | with_reducible apply ow_ite
    | with_reducible apply wf_ite
    | with_reducible apply ow_next
    | simp only [wf_mk]
    | with_reducible apply keeps_of
    | (extract_lets x; first | (refine wf_cut (Keep qk x = true) ?_ ?_; focus (subst x); rotate_left; focus (intro hx; generalize x = y at hx ⊢)) | skip)
    | split

theorem egressRecord_wf {qk : Kept} {s : State} {p : Nat} {d : DescRef} {f : TxFrame} (h_s : Keep qk s = true) : Keep qk (egressRecord s p d f) = true := by
  unfold egressRecord
  repeat' first
    | with_reducible assumption
    | with_reducible intro _
    | with_reducible apply hostWrite_wf
    | with_reducible apply setNet_wf
    | with_reducible apply raise_wf
    | with_reducible apply wf_ite
    | simp only [wf_mk]
    | with_reducible apply keeps_of
    | (extract_lets x; first | (refine wf_cut (Keep qk x = true) ?_ ?_; focus (subst x); rotate_left; focus (intro hx; generalize x = y at hx ⊢)) | skip)
    | split

theorem execTransmitComplete_wf {qk : Kept} {p : Fin 8} {s : State} (h_s : Keep qk s = true) : OW qk (execTransmitComplete p s) := by
  unfold execTransmitComplete
  repeat' first
    | with_reducible assumption
    | with_reducible intro _
    | with_reducible apply rput_wf
    | with_reducible apply onHost_wf
    | with_reducible apply finish_wf
    | with_reducible apply paddWrap_wf
    | with_reducible apply setNet_wf
    | with_reducible apply updateCredits_wf
    | with_reducible apply egressRecord_wf
    | with_reducible apply ow_ite
    | with_reducible apply wf_ite
    | with_reducible apply ow_next
    | simp only [wf_mk]
    | with_reducible apply keeps_of
    | (extract_lets x; first | (refine wf_cut (Keep qk x = true) ?_ ?_; focus (subst x); rotate_left; focus (intro hx; generalize x = y at hx ⊢)) | skip)
    | split

theorem execLaunchLateDiscard_wf {qk : Kept} {p : Fin 8} {q : Fin 8} {s : State} (h_s : Keep qk s = true) : OW qk (execLaunchLateDiscard p q s) := by
  unfold execLaunchLateDiscard
  repeat' first
    | with_reducible assumption
    | with_reducible intro _
    | with_reducible apply radd_wf
    | with_reducible apply onHost_wf
    | with_reducible apply paddSat_wf
    | with_reducible apply setQueue_wf
    | with_reducible apply updateCredits_wf
    | with_reducible apply endNetTx_wf
    | with_reducible apply raise_wf
    | with_reducible apply strTxDrop_wf
    | with_reducible apply ow_ite
    | with_reducible apply wf_ite
    | with_reducible apply ow_next
    | simp only [wf_mk]
    | with_reducible apply keeps_of
    | (extract_lets x; first | (refine wf_cut (Keep qk x = true) ?_ ?_; focus (subst x); rotate_left; focus (intro hx; generalize x = y at hx ⊢)) | skip)
    | split

theorem queueHost_wf {qk : Kept} {s : State} {d : DescRef} {p q : Nat} {launch : Option Int} {stamp : Bool} {fs : List (List Byte)} (h_s : Keep qk s = true) : Keep qk (queueHost s d p q launch stamp fs) = true := by
  unfold queueHost
  repeat' first
    | with_reducible assumption
    | with_reducible intro _
    | with_reducible apply finish_wf
    | with_reducible apply enqueue_wf
    | with_reducible apply wf_forEach
    | with_reducible apply wf_ite
    | simp only [wf_mk]
    | with_reducible apply keeps_of
    | (extract_lets x; first | (refine wf_cut (Keep qk x = true) ?_ ?_; focus (subst x); rotate_left; focus (intro hx; generalize x = y at hx ⊢)) | skip)
    | dsimp -zeta only

theorem execNetTx_wf {qk : Kept} {d : DescRef} {data : Option (List Byte)} {s : State} (h_s : Keep qk s = true) : OW qk (execNetTx d data s) := by
  unfold execNetTx
  repeat' first
    | with_reducible assumption
    | with_reducible intro _
    | with_reducible apply finish_wf
    | with_reducible apply onDesc_wf
    | with_reducible apply withInput_wf
    | with_reducible apply queueHost_wf
    | with_reducible apply ow_ite
    | with_reducible apply wf_ite
    | with_reducible apply ow_next
    | simp only [wf_mk]
    | with_reducible apply keeps_of
    | (extract_lets x; first | (refine wf_cut (Keep qk x = true) ?_ ?_; focus (subst x); rotate_left; focus (intro hx; generalize x = y at hx ⊢)) | skip)
    | split

theorem execNetRxPost_wf {qk : Kept} {d : DescRef} {s : State} (h_s : Keep qk s = true) : OW qk (execNetRxPost d s) := by
  unfold execNetRxPost
  repeat' first
    | with_reducible assumption
    | with_reducible intro _
    | with_reducible apply finish_wf
    | with_reducible apply onDesc_wf
    | with_reducible apply ow_ite
    | with_reducible apply wf_ite
    | with_reducible apply ow_next
    | simp only [wf_mk]
    | with_reducible apply keeps_of
    | (extract_lets x; first | (refine wf_cut (Keep qk x = true) ?_ ?_; focus (subst x); rotate_left; focus (intro hx; generalize x = y at hx ⊢)) | skip)

theorem hostNetCntClr_wf {qk : Kept} {p : Fin 8} {w : Word} {s : State} (h_s : Keep qk s = true) : Keep qk (hostNetCntClr p w s) = true := by
  unfold hostNetCntClr
  repeat' first
    | with_reducible assumption
    | with_reducible intro _
    | with_reducible apply resetRange_wf
    | with_reducible apply wf_ite
    | simp only [wf_mk]
    | with_reducible apply keeps_of
    | (extract_lets x; first | (refine wf_cut (Keep qk x = true) ?_ ?_; focus (subst x); rotate_left; focus (intro hx; generalize x = y at hx ⊢)) | skip)

theorem execNetCntClr_wf {qk : Kept} {p : Fin 8} {w : Word} {s : State} (h_s : Keep qk s = true) : OW qk (execNetCntClr p w s) := by
  unfold execNetCntClr
  repeat' first
    | with_reducible assumption
    | with_reducible intro _
    | with_reducible apply onBar_wf
    | with_reducible apply hostNetCntClr_wf
    | with_reducible apply ow_next
    | simp only [wf_mk]
    | with_reducible apply keeps_of
    | (extract_lets x; first | (refine wf_cut (Keep qk x = true) ?_ ?_; focus (subst x); rotate_left; focus (intro hx; generalize x = y at hx ⊢)) | skip)

theorem afterPtpWrite_wf {qk : Kept} {s : State} (h_s : Keep qk s = true) : Keep qk (afterPtpWrite s) = true := by
  unfold afterPtpWrite
  repeat' first
    | with_reducible assumption
    | with_reducible intro _
    | with_reducible apply wr_wf
    | with_reducible apply rput_wf
    | with_reducible apply rclr_wf
    | with_reducible apply disqualify_wf
    | with_reducible apply wf_forEach
    | with_reducible apply wf_ite
    | simp only [wf_mk]
    | with_reducible apply keeps_of
    | (extract_lets x; first | (refine wf_cut (Keep qk x = true) ?_ ?_; focus (subst x); rotate_left; focus (intro hx; generalize x = y at hx ⊢)) | skip)
    | dsimp -zeta only

theorem execServoUpdate_wf {qk : Kept} {u : ServoReport} {s : State} (h_s : Keep qk s = true) : OW qk (execServoUpdate u s) := by
  unfold execServoUpdate
  repeat' first
    | with_reducible assumption
    | with_reducible intro _
    | with_reducible apply wr_wf
    | with_reducible apply rput_wf
    | with_reducible apply rputI_wf
    | with_reducible apply rset_wf
    | with_reducible apply onHost_wf
    | with_reducible apply frequencyGate_wf
    | with_reducible apply absoluteEstimate_wf
    | with_reducible apply wf_forEach
    | with_reducible apply ow_ite
    | with_reducible apply wf_ite
    | with_reducible apply ow_next
    | simp only [wf_mk]
    | with_reducible apply keeps_of
    | (extract_lets x; first | (refine wf_cut (Keep qk x = true) ?_ ?_; focus (subst x); rotate_left; focus (intro hx; generalize x = y at hx ⊢)) | skip)
    | split

end Sys2Proof.Machine
end

