-- ==== Sys2Proof/Laws/KeepsDelay.lean ====
section
/-! SUPPORT. The operations of Machine/Delay.lean keep what `Keep` names. -/

namespace Sys2Proof.Machine
open Sys2Proof
set_option linter.all false
set_option simprocs false

theorem setTap_wf {qk : Kept} {s : State} {t : Nat} {x : TapRun} (h_s : Keep qk s = true) : Keep qk (setTap s t x) = true := by
  unfold setTap
  repeat' first
    | with_reducible assumption
    | with_reducible intro _
    | simp only [wf_mk]
    | with_reducible apply keeps_of
    | (extract_lets x; first | (refine wf_cut (Keep qk x = true) ?_ ?_; focus (subst x); rotate_left; focus (intro hx; generalize x = y at hx ⊢)) | skip)

theorem moveBytes_wf {qk : Kept} {s : State} {n : Nat} (h_s : Keep qk s = true) : Keep qk (moveBytes s n) = true := by
  unfold moveBytes
  repeat' first
    | with_reducible assumption
    | with_reducible intro _
    | with_reducible apply radd_wf
    | simp only [wf_mk]
    | with_reducible apply keeps_of
    | (extract_lets x; first | (refine wf_cut (Keep qk x = true) ?_ ?_; focus (subst x); rotate_left; focus (intro hx; generalize x = y at hx ⊢)) | skip)

theorem appendLine_wf {qk : Kept} {s : State} {c : Nat} (h_s : Keep qk s = true) : Keep qk (appendLine s c) = true := by
  unfold appendLine
  repeat' first
    | with_reducible assumption
    | with_reducible intro _
    | with_reducible apply drStore_wf
    | with_reducible apply noteDram_wf
    | with_reducible apply noteBead_wf
    | with_reducible apply moveBytes_wf
    | with_reducible apply wf_forEach
    | with_reducible apply wf_ite
    | simp only [wf_mk]
    | with_reducible apply keeps_of
    | (extract_lets x; first | (refine wf_cut (Keep qk x = true) ?_ ?_; focus (subst x); rotate_left; focus (intro hx; generalize x = y at hx ⊢)) | skip)

theorem zeroLine64_wf {qk : Kept} {s : State} {a : Nat} (h_s : Keep qk s = true) : Keep qk (zeroLine64 s a) = true := by
  unfold zeroLine64
  repeat' first
    | with_reducible assumption
    | with_reducible intro _
    | with_reducible apply drStore_wf
    | with_reducible apply wf_forEach
    | simp only [wf_mk]
    | with_reducible apply keeps_of
    | (extract_lets x; first | (refine wf_cut (Keep qk x = true) ?_ ?_; focus (subst x); rotate_left; focus (intro hx; generalize x = y at hx ⊢)) | skip)

theorem poisonedLine_wf {qk : Kept} {s : State} {t line : Nat} (h_s : Keep qk s = true) : Keep qk (poisonedLine s t line) = true := by
  unfold poisonedLine
  repeat' first
    | with_reducible assumption
    | with_reducible intro _
    | with_reducible apply rset_wf
    | with_reducible apply radd_wf
    | with_reducible apply raise_wf
    | with_reducible apply moveBytes_wf
    | with_reducible apply zeroLine64_wf
    | simp only [wf_mk]
    | with_reducible apply keeps_of
    | (extract_lets x; first | (refine wf_cut (Keep qk x = true) ?_ ?_; focus (subst x); rotate_left; focus (intro hx; generalize x = y at hx ⊢)) | skip)

theorem tapPoisoned_wf {qk : Kept} {s : State} {t : Nat} {bad : List Nat} (h_s : Keep qk s = true) : Keep qk (tapPoisoned s t bad) = true := by
  unfold tapPoisoned
  repeat' first
    | with_reducible assumption
    | with_reducible intro _
    | with_reducible apply rput_wf
    | with_reducible apply fabMissing_wf
    | with_reducible apply poisonedLine_wf
    | with_reducible apply wf_forEach
    | simp only [wf_mk]
    | with_reducible apply keeps_of
    | (extract_lets x; first | (refine wf_cut (Keep qk x = true) ?_ ?_; focus (subst x); rotate_left; focus (intro hx; generalize x = y at hx ⊢)) | skip)

theorem tapLate_wf {qk : Kept} {s : State} {t : Nat} (h_s : Keep qk s = true) : Keep qk (tapLate s t) = true := by
  unfold tapLate
  repeat' first
    | with_reducible assumption
    | with_reducible intro _
    | with_reducible apply rput_wf
    | with_reducible apply rset_wf
    | with_reducible apply raise_wf
    | simp only [wf_mk]
    | with_reducible apply keeps_of
    | (extract_lets x; first | (refine wf_cut (Keep qk x = true) ?_ ?_; focus (subst x); rotate_left; focus (intro hx; generalize x = y at hx ⊢)) | skip)

theorem runTap_wf {qk : Kept} {s : State} {t : Nat} (h_s : Keep qk s = true) : Keep qk (runTap s t) = true := by
  unfold runTap
  repeat' first
    | with_reducible assumption
    | with_reducible intro _
    | with_reducible apply noteDram_wf
    | with_reducible apply fabWriteBead_wf
    | with_reducible apply setTap_wf
    | with_reducible apply moveBytes_wf
    | with_reducible apply tapPoisoned_wf
    | with_reducible apply tapLate_wf
    | with_reducible apply wf_ite
    | simp only [wf_mk]
    | with_reducible apply keeps_of
    | (extract_lets x; first | (refine wf_cut (Keep qk x = true) ?_ ?_; focus (subst x); rotate_left; focus (intro hx; generalize x = y at hx ⊢)) | skip)
    | split

theorem delayPeriod_wf {qk : Kept} {s : State} (h_s : Keep qk s = true) : Keep qk (delayPeriod s) = true := by
  unfold delayPeriod
  repeat' first
    | with_reducible assumption
    | with_reducible intro _
    | with_reducible apply wr_wf
    | with_reducible apply appendLine_wf
    | with_reducible apply tapLate_wf
    | with_reducible apply runTap_wf
    | with_reducible apply wf_forEach
    | with_reducible apply wf_ite
    | simp only [wf_mk]
    | with_reducible apply keeps_of
    | (extract_lets x; first | (refine wf_cut (Keep qk x = true) ?_ ?_; focus (subst x); rotate_left; focus (intro hx; generalize x = y at hx ⊢)) | skip)

theorem lineChanged_wf {qk : Kept} {s0 s : State} {c : Nat} (h_s0 : Keep qk s0 = true) (h_s : Keep qk s = true) : Keep qk (lineChanged s0 s c) = true := by
  unfold lineChanged
  repeat' first
    | with_reducible assumption
    | with_reducible intro _
    | with_reducible apply clearLine_wf
    | with_reducible apply wf_ite
    | simp only [wf_mk]
    | with_reducible apply keeps_of
    | (extract_lets x; first | (refine wf_cut (Keep qk x = true) ?_ ?_; focus (subst x); rotate_left; focus (intro hx; generalize x = y at hx ⊢)) | skip)

theorem tapChanged_wf {qk : Kept} {s0 s : State} {t : Nat} (h_s0 : Keep qk s0 = true) (h_s : Keep qk s = true) : Keep qk (tapChanged s0 s t) = true := by
  unfold tapChanged
  repeat' first
    | with_reducible assumption
    | with_reducible intro _
    | with_reducible apply setTap_wf
    | with_reducible apply wf_ite
    | simp only [wf_mk]
    | with_reducible apply keeps_of
    | (extract_lets x; first | (refine wf_cut (Keep qk x = true) ?_ ?_; focus (subst x); rotate_left; focus (intro hx; generalize x = y at hx ⊢)) | skip)

theorem countDelay_wf {qk : Kept} {s : State} (h_s : Keep qk s = true) : Keep qk (countDelay s) = true := by
  unfold countDelay
  repeat' first
    | with_reducible assumption
    | with_reducible intro _
    | with_reducible apply rput_wf
    | with_reducible apply wf_foldl
    | with_reducible apply wf_foldl1
    | simp only [wf_mk]
    | with_reducible apply keeps_of
    | (extract_lets x; first | (refine wf_cut (Keep qk x = true) ?_ ?_; focus (subst x); rotate_left; focus (intro hx; generalize x = y at hx ⊢)) | skip)
    | dsimp -zeta only

end Sys2Proof.Machine
end

