-- ==== Sys2Proof/Laws/KeepsDirect.lean ====
section
/-! SUPPORT. The operations of Machine/Direct.lean keep what `Keep` names. -/

namespace Sys2Proof.Machine
open Sys2Proof
set_option linter.all false
set_option simprocs false

theorem evalRoute_wf {qk : Kept} {s : State} {r : Nat} (h_s : Keep qk s = true) : Keep qk (evalRoute s r) = true := by
  unfold evalRoute
  repeat' first
    | with_reducible assumption
    | with_reducible intro _
    | with_reducible apply setEngaged_wf
    | with_reducible apply wf_ite
    | simp only [wf_mk]
    | with_reducible apply keeps_of
    | (extract_lets x; first | (refine wf_cut (Keep qk x = true) ?_ ?_; focus (subst x); rotate_left; focus (intro hx; generalize x = y at hx ⊢)) | skip)

theorem routeSample_wf {qk : Kept} {s : State} {r : Nat} {w : Word} (h_s : Keep qk s = true) : Keep qk (routeSample s r w) = true := by
  unfold routeSample
  repeat' first
    | with_reducible assumption
    | with_reducible intro _
    | with_reducible apply setMeter_wf
    | with_reducible apply setRoute_wf
    | with_reducible apply evalRoute_wf
    | with_reducible apply wf_ite
    | simp only [wf_mk]
    | with_reducible apply keeps_of
    | (extract_lets x; first | (refine wf_cut (Keep qk x = true) ?_ ?_; focus (subst x); rotate_left; focus (intro hx; generalize x = y at hx ⊢)) | skip)
    | split

theorem routeChanged_wf {qk : Kept} {s : State} {r : Nat} {gain was : Bool} (h_s : Keep qk s = true) : Keep qk (routeChanged s r gain was) = true := by
  unfold routeChanged
  repeat' first
    | with_reducible assumption
    | with_reducible intro _
    | with_reducible apply setRoute_wf
    | with_reducible apply evalRoute_wf
    | with_reducible apply wf_ite
    | simp only [wf_mk]
    | with_reducible apply keeps_of
    | (extract_lets x; first | (refine wf_cut (Keep qk x = true) ?_ ?_; focus (subst x); rotate_left; focus (intro hx; generalize x = y at hx ⊢)) | skip)

theorem storeRoute_wf {qk : Kept} {s : State} {x : RouteWrite} (h_s : Keep qk s = true) : Keep qk (storeRoute s x) = true := by
  unfold storeRoute
  repeat' first
    | with_reducible assumption
    | with_reducible intro _
    | with_reducible apply writePword_wf
    | with_reducible apply wf_forEach
    | simp only [wf_mk]
    | with_reducible apply keeps_of
    | (extract_lets x; first | (refine wf_cut (Keep qk x = true) ?_ ?_; focus (subst x); rotate_left; focus (intro hx; generalize x = y at hx ⊢)) | skip)
    | dsimp -zeta only

theorem withWaiting_wf {qk : Kept} {s : State} (h_s : Keep qk s = true) : Keep qk (withWaiting s) = true := by
  unfold withWaiting
  repeat' first
    | with_reducible assumption
    | with_reducible intro _
    | with_reducible apply storeRoute_wf
    | with_reducible apply wf_forEach
    | simp only [wf_mk]
    | with_reducible apply keeps_of
    | (extract_lets x; first | (refine wf_cut (Keep qk x = true) ?_ ?_; focus (subst x); rotate_left; focus (intro hx; generalize x = y at hx ⊢)) | skip)

theorem takeUp_wf {qk : Kept} {s : State} {pick : Nat → Bool} (h_s : Keep qk s = true) : Keep qk (takeUp s pick) = true := by
  unfold takeUp
  repeat' first
    | with_reducible assumption
    | with_reducible intro _
    | with_reducible apply routeChanged_wf
    | with_reducible apply storeRoute_wf
    | with_reducible apply wf_forEach
    | simp only [wf_mk]
    | with_reducible apply keeps_of
    | (extract_lets x; first | (refine wf_cut (Keep qk x = true) ?_ ?_; focus (subst x); rotate_left; focus (intro hx; generalize x = y at hx ⊢)) | skip)

theorem directSample_wf {qk : Kept} {s : State} {cls inst slot : Nat} {w : Word} (h_s : Keep qk s = true) : Keep qk (directSample s cls inst slot w) = true := by
  unfold directSample
  repeat' first
    | with_reducible assumption
    | with_reducible intro _
    | with_reducible apply routeSample_wf
    | with_reducible apply withWaiting_wf
    | with_reducible apply takeUp_wf
    | with_reducible apply wf_forEach
    | with_reducible apply wf_ite
    | simp only [wf_mk]
    | with_reducible apply keeps_of
    | (extract_lets x; first | (refine wf_cut (Keep qk x = true) ?_ ?_; focus (subst x); rotate_left; focus (intro hx; generalize x = y at hx ⊢)) | skip)

theorem fieldSample_wf {qk : Kept} {s : State} {fch : Nat} {pipe : Word} (h_s : Keep qk s = true) : PW qk (fieldSample s fch pipe) := by
  unfold fieldSample
  repeat' first
    | with_reducible assumption
    | with_reducible intro _
    | with_reducible apply pw_ite
    | with_reducible apply wf_ite
    | with_reducible apply pw_mk
    | simp only [wf_mk]
    | with_reducible apply keeps_of
    | (extract_lets x; first | (refine wf_cut (Keep qk x = true) ?_ ?_; focus (subst x); rotate_left; focus (intro hx; generalize x = y at hx ⊢)) | skip)
    | dsimp -zeta only
theorem fieldSample_e {qk : Kept} {s : State} {fch : Nat} {pipe : Word} {zt : State} {zb} (e : (fieldSample s fch pipe) = (zt, zb)) (h_s : Keep qk s = true) : Keep qk zt = true := pw_e (fieldSample_wf h_s) e
theorem fieldSample_p {qk : Kept} {s : State} {fch : Nat} {pipe : Word} (h_s : Keep qk s = true) : Keep qk (fieldSample s fch pipe).1 = true := fieldSample_wf h_s

theorem hostMixDrEngageWrite_wf {qk : Kept} {hi : Bool} {w : Word} {s : State} (h_s : Keep qk s = true) : Keep qk (hostMixDrEngageWrite hi w s) = true := by
  unfold hostMixDrEngageWrite
  repeat' first
    | with_reducible assumption
    | with_reducible intro _
    | with_reducible apply wr_wf
    | with_reducible apply wf_ite
    | simp only [wf_mk]
    | with_reducible apply keeps_of
    | (extract_lets x; first | (refine wf_cut (Keep qk x = true) ?_ ?_; focus (subst x); rotate_left; focus (intro hx; generalize x = y at hx ⊢)) | skip)

theorem execMixDrEngageWrite_wf {qk : Kept} {hi : Bool} {w : Word} {s : State} (h_s : Keep qk s = true) : OW qk (execMixDrEngageWrite hi w s) := by
  unfold execMixDrEngageWrite
  repeat' first
    | with_reducible assumption
    | with_reducible intro _
    | with_reducible apply onBar_wf
    | with_reducible apply hostMixDrEngageWrite_wf
    | with_reducible apply ow_ite
    | with_reducible apply wf_ite
    | with_reducible apply ow_next
    | simp only [wf_mk]
    | with_reducible apply keeps_of
    | (extract_lets x; first | (refine wf_cut (Keep qk x = true) ?_ ?_; focus (subst x); rotate_left; focus (intro hx; generalize x = y at hx ⊢)) | skip)

theorem execVoxHoldExpiry_wf {qk : Kept} {r : Fin 64} {s : State} (h_s : Keep qk s = true) : OW qk (execVoxHoldExpiry r s) := by
  unfold execVoxHoldExpiry
  repeat' first
    | with_reducible assumption
    | with_reducible intro _
    | with_reducible apply onHost_wf
    | with_reducible apply setRoute_wf
    | with_reducible apply evalRoute_wf
    | with_reducible apply ow_ite
    | with_reducible apply wf_ite
    | with_reducible apply ow_next
    | simp only [wf_mk]
    | with_reducible apply keeps_of
    | (extract_lets x; first | (refine wf_cut (Keep qk x = true) ?_ ?_; focus (subst x); rotate_left; focus (intro hx; generalize x = y at hx ⊢)) | skip)

end Sys2Proof.Machine
end

