-- ==== Sys2Proof/Laws/KeepsMix.lean ====
section
/-! SUPPORT. The operations of Machine/Mix.lean keep what `Keep` names. -/

namespace Sys2Proof.Machine
open Sys2Proof
set_option linter.all false
set_option simprocs false

theorem filterChannel_wf {qk : Kept} {s : State} {c : Nat} (h_s : Keep qk s = true) : PW qk (filterChannel s c) := by
  unfold filterChannel
  repeat' first
    | with_reducible assumption
    | with_reducible intro _
    | with_reducible apply pw_mk
    | simp only [wf_mk]
    | with_reducible apply keeps_of
    | (extract_lets x; first | (refine wf_cut (Keep qk x = true) ?_ ?_; focus (subst x); rotate_left; focus (intro hx; generalize x = y at hx ⊢)) | skip)
    | split
theorem filterChannel_e {qk : Kept} {s : State} {c : Nat} {zt : State} {zb} (e : (filterChannel s c) = (zt, zb)) (h_s : Keep qk s = true) : Keep qk zt = true := pw_e (filterChannel_wf h_s) e
theorem filterChannel_p {qk : Kept} {s : State} {c : Nat} (h_s : Keep qk s = true) : Keep qk (filterChannel s c).1 = true := filterChannel_wf h_s

theorem notePeak_wf {qk : Kept} {s : State} {c : Nat} {xs : List Int} (h_s : Keep qk s = true) : Keep qk (notePeak s c xs) = true := by
  unfold notePeak
  repeat' first
    | with_reducible assumption
    | with_reducible intro _
    | simp only [wf_mk]
    | with_reducible apply keeps_of
    | (extract_lets x; first | (refine wf_cut (Keep qk x = true) ?_ ?_; focus (subst x); rotate_left; focus (intro hx; generalize x = y at hx ⊢)) | skip)

theorem filterAll_wf {qk : Kept} : ∀ {s : State} {n : Nat}, Keep qk s = true → PW qk (filterAll s n)
  | s, 0, h => h
  | s, n + 1, h => by
    unfold filterAll
    exact pw_mk (of_pw (filterAll_wf (n := n) (notePeak_wf (of_pw (filterChannel_wf h)))))
theorem filterAll_e {qk : Kept} {s : State} {n : Nat} {zt : State} {zb} (e : (filterAll s n) = (zt, zb)) (h_s : Keep qk s = true) : Keep qk zt = true := pw_e (filterAll_wf h_s) e
theorem filterAll_p {qk : Kept} {s : State} {n : Nat} (h_s : Keep qk s = true) : Keep qk (filterAll s n).1 = true := filterAll_wf h_s

theorem setXp_wf {qk : Kept} {s : State} {e : Nat} {x : XpRun} (h_s : Keep qk s = true) : Keep qk (setXp s e x) = true := by
  unfold setXp
  repeat' first
    | with_reducible assumption
    | with_reducible intro _
    | simp only [wf_mk]
    | with_reducible apply keeps_of
    | (extract_lets x; first | (refine wf_cut (Keep qk x = true) ?_ ?_; focus (subst x); rotate_left; focus (intro hx; generalize x = y at hx ⊢)) | skip)

theorem setBus_wf {qk : Kept} {s : State} {b : Nat} {x : BusRun} (h_s : Keep qk s = true) : Keep qk (setBus s b x) = true := by
  unfold setBus
  repeat' first
    | with_reducible assumption
    | with_reducible intro _
    | simp only [wf_mk]
    | with_reducible apply keeps_of
    | (extract_lets x; first | (refine wf_cut (Keep qk x = true) ?_ ?_; focus (subst x); rotate_left; focus (intro hx; generalize x = y at hx ⊢)) | skip)

theorem xpChanged_wf {qk : Kept} {s0 s : State} {e : Nat} {gain : Bool} (h_s0 : Keep qk s0 = true) (h_s : Keep qk s = true) : Keep qk (xpChanged s0 s e gain) = true := by
  unfold xpChanged
  repeat' first
    | with_reducible assumption
    | with_reducible intro _
    | with_reducible apply setXp_wf
    | with_reducible apply wf_ite
    | simp only [wf_mk]
    | with_reducible apply keeps_of
    | (extract_lets x; first | (refine wf_cut (Keep qk x = true) ?_ ?_; focus (subst x); rotate_left; focus (intro hx; generalize x = y at hx ⊢)) | skip)

theorem busChanged_wf {qk : Kept} {s0 s : State} {b : Nat} {gain : Bool} (h_s0 : Keep qk s0 = true) (h_s : Keep qk s = true) : Keep qk (busChanged s0 s b gain) = true := by
  unfold busChanged
  repeat' first
    | with_reducible assumption
    | with_reducible intro _
    | with_reducible apply setBus_wf
    | with_reducible apply wf_ite
    | simp only [wf_mk]
    | with_reducible apply keeps_of
    | (extract_lets x; first | (refine wf_cut (Keep qk x = true) ?_ ?_; focus (subst x); rotate_left; focus (intro hx; generalize x = y at hx ⊢)) | skip)

theorem hpfChanged_wf {qk : Kept} {s0 s : State} {c : Nat} (h_s0 : Keep qk s0 = true) (h_s : Keep qk s = true) : Keep qk (hpfChanged s0 s c) = true := by
  unfold hpfChanged
  repeat' first
    | with_reducible assumption
    | with_reducible intro _
    | with_reducible apply wf_ite
    | simp only [wf_mk]
    | with_reducible apply keeps_of
    | (extract_lets x; first | (refine wf_cut (Keep qk x = true) ?_ ?_; focus (subst x); rotate_left; focus (intro hx; generalize x = y at hx ⊢)) | skip)

theorem countClip_wf {qk : Kept} {s : State} {b : Nat} (h_s : Keep qk s = true) : Keep qk (countClip s b) = true := by
  unfold countClip
  repeat' first
    | with_reducible assumption
    | with_reducible intro _
    | with_reducible apply rset_wf
    | with_reducible apply radd_wf
    | with_reducible apply raise_wf
    | with_reducible apply wf_ite
    | simp only [wf_mk]
    | with_reducible apply keeps_of
    | (extract_lets x; first | (refine wf_cut (Keep qk x = true) ?_ ?_; focus (subst x); rotate_left; focus (intro hx; generalize x = y at hx ⊢)) | skip)

theorem closeMeter_wf {qk : Kept} {s : State} {i peak ms gain : Nat} {overs : Bool} (h_s : Keep qk s = true) : Keep qk (closeMeter s i peak ms gain overs) = true := by
  unfold closeMeter
  repeat' first
    | with_reducible assumption
    | with_reducible intro _
    | with_reducible apply setMeter_wf
    | with_reducible apply hold_wf
    | with_reducible apply wf_ite
    | simp only [wf_mk]
    | with_reducible apply keeps_of
    | (extract_lets x; first | (refine wf_cut (Keep qk x = true) ?_ ?_; focus (subst x); rotate_left; focus (intro hx; generalize x = y at hx ⊢)) | skip)
    | split

theorem measure_wf {qk : Kept} {s : State} {i : Nat} {xs : List Int} {gain : Nat} (h_s : Keep qk s = true) : Keep qk (measure s i xs gain) = true := by
  unfold measure
  repeat' first
    | with_reducible assumption
    | with_reducible intro _
    | with_reducible apply closeMeter_wf
    | with_reducible apply wf_foldl
    | with_reducible apply wf_foldl1
    | simp only [wf_mk]
    | with_reducible apply keeps_of
    | (extract_lets x; first | (refine wf_cut (Keep qk x = true) ?_ ?_; focus (subst x); rotate_left; focus (intro hx; generalize x = y at hx ⊢)) | skip)
    | dsimp -zeta only

theorem closeOtherMeters_wf {qk : Kept} {s : State} (h_s : Keep qk s = true) : Keep qk (closeOtherMeters s) = true := by
  unfold closeOtherMeters
  repeat' first
    | with_reducible assumption
    | with_reducible intro _
    | with_reducible apply closeMeter_wf
    | with_reducible apply measure_wf
    | with_reducible apply wf_forEach
    | simp only [wf_mk]
    | with_reducible apply keeps_of
    | (extract_lets x; first | (refine wf_cut (Keep qk x = true) ?_ ?_; focus (subst x); rotate_left; focus (intro hx; generalize x = y at hx ⊢)) | skip)

theorem runMeterClears_wf {qk : Kept} {s : State} (h_s : Keep qk s = true) : Keep qk (runMeterClears s) = true := by
  unfold runMeterClears
  repeat' first
    | with_reducible assumption
    | with_reducible intro _
    | with_reducible apply rclr_wf
    | with_reducible apply setMeter_wf
    | with_reducible apply hold_wf
    | with_reducible apply wf_forEach
    | simp only [wf_mk]
    | with_reducible apply keeps_of
    | (extract_lets x; first | (refine wf_cut (Keep qk x = true) ?_ ?_; focus (subst x); rotate_left; focus (intro hx; generalize x = y at hx ⊢)) | skip)
    | dsimp -zeta only

theorem runBus_wf {qk : Kept} {s : State} {ins : List (List Int)} {b : Nat} (h_s : Keep qk s = true) : Keep qk (runBus s ins b) = true := by
  unfold runBus
  repeat' first
    | with_reducible assumption
    | with_reducible intro _
    | with_reducible apply pput_wf
    | with_reducible apply fabWriteBead_wf
    | with_reducible apply setBus_wf
    | with_reducible apply countClip_wf
    | with_reducible apply measure_wf
    | with_reducible apply wf_forEach
    | simp only [wf_mk]
    | with_reducible apply keeps_of
    | (extract_lets x; first | (refine wf_cut (Keep qk x = true) ?_ ?_; focus (subst x); rotate_left; focus (intro hx; generalize x = y at hx ⊢)) | skip)
    | split

theorem stepCrosspoints_wf {qk : Kept} {s : State} (h_s : Keep qk s = true) : Keep qk (stepCrosspoints s) = true := by
  unfold stepCrosspoints
  repeat' first
    | with_reducible assumption
    | with_reducible intro _
    | with_reducible apply pput_wf
    | with_reducible apply setXp_wf
    | with_reducible apply wf_forEach
    | with_reducible apply wf_ite
    | simp only [wf_mk]
    | with_reducible apply keeps_of
    | (extract_lets x; first | (refine wf_cut (Keep qk x = true) ?_ ?_; focus (subst x); rotate_left; focus (intro hx; generalize x = y at hx ⊢)) | skip)
    | dsimp -zeta only

theorem busLate_wf {qk : Kept} {s : State} {b : Nat} (h_s : Keep qk s = true) : Keep qk (busLate s b) = true := by
  unfold busLate
  repeat' first
    | with_reducible assumption
    | with_reducible intro _
    | with_reducible apply rset_wf
    | with_reducible apply raise_wf
    | simp only [wf_mk]
    | with_reducible apply keeps_of
    | (extract_lets x; first | (refine wf_cut (Keep qk x = true) ?_ ?_; focus (subst x); rotate_left; focus (intro hx; generalize x = y at hx ⊢)) | skip)

theorem measureZeros_wf {qk : Kept} {s : State} {b : Nat} (h_s : Keep qk s = true) : Keep qk (measureZeros s b) = true := by
  unfold measureZeros
  repeat' first
    | with_reducible assumption
    | with_reducible intro _
    | with_reducible apply measure_wf
    | simp only [wf_mk]
    | with_reducible apply keeps_of
    | (extract_lets x; first | (refine wf_cut (Keep qk x = true) ?_ ?_; focus (subst x); rotate_left; focus (intro hx; generalize x = y at hx ⊢)) | skip)

theorem busPeriod_wf {qk : Kept} {s : State} {buses idle all : List Nat} (h_s : Keep qk s = true) : Keep qk (busPeriod s buses idle all) = true := by
  unfold busPeriod
  repeat' first
    | with_reducible assumption
    | with_reducible intro _
    | with_reducible apply rput_wf
    | refine takeFree_e (by with_reducible assumption) ?_
    | with_reducible apply takeFree_p
    | with_reducible apply takeFree_wf
    | refine filterAll_e (by with_reducible assumption) ?_
    | with_reducible apply filterAll_p
    | with_reducible apply filterAll_wf
    | with_reducible apply runBus_wf
    | with_reducible apply stepCrosspoints_wf
    | with_reducible apply busLate_wf
    | with_reducible apply measureZeros_wf
    | with_reducible apply wf_forEach
    | with_reducible apply wf_ite
    | simp only [wf_mk]
    | with_reducible apply keeps_of
    | (extract_lets x; first | (refine wf_cut (Keep qk x = true) ?_ ?_; focus (subst x); rotate_left; focus (intro hx; generalize x = y at hx ⊢)) | skip)
    | split

theorem mixPeriod_wf {qk : Kept} {s : State} (h_s : Keep qk s = true) : Keep qk (mixPeriod s) = true := by
  unfold mixPeriod
  repeat' first
    | with_reducible assumption
    | with_reducible intro _
    | with_reducible apply closeOtherMeters_wf
    | with_reducible apply runMeterClears_wf
    | with_reducible apply busPeriod_wf
    | simp only [wf_mk]
    | with_reducible apply keeps_of
    | (extract_lets x; first | (refine wf_cut (Keep qk x = true) ?_ ?_; focus (subst x); rotate_left; focus (intro hx; generalize x = y at hx ⊢)) | skip)

theorem countCrosspoints_wf {qk : Kept} {s : State} (h_s : Keep qk s = true) : Keep qk (countCrosspoints s) = true := by
  unfold countCrosspoints
  repeat' first
    | with_reducible assumption
    | with_reducible intro _
    | with_reducible apply rput_wf
    | simp only [wf_mk]
    | with_reducible apply keeps_of
    | (extract_lets x; first | (refine wf_cut (Keep qk x = true) ?_ ?_; focus (subst x); rotate_left; focus (intro hx; generalize x = y at hx ⊢)) | skip)

theorem hostMixMclrGo_wf {qk : Kept} {w : Word} {s : State} (h_s : Keep qk s = true) : Keep qk (hostMixMclrGo w s) = true := by
  unfold hostMixMclrGo
  repeat' first
    | with_reducible assumption
    | with_reducible intro _
    | with_reducible apply rset_wf
    | with_reducible apply rwrite_wf
    | with_reducible apply wf_ite
    | simp only [wf_mk]
    | with_reducible apply keeps_of
    | (extract_lets x; first | (refine wf_cut (Keep qk x = true) ?_ ?_; focus (subst x); rotate_left; focus (intro hx; generalize x = y at hx ⊢)) | skip)

theorem execMixMclrGo_wf {qk : Kept} {w : Word} {s : State} (h_s : Keep qk s = true) : OW qk (execMixMclrGo w s) := by
  unfold execMixMclrGo
  repeat' first
    | with_reducible assumption
    | with_reducible intro _
    | with_reducible apply onBar_wf
    | with_reducible apply hostMixMclrGo_wf
    | with_reducible apply ow_next
    | simp only [wf_mk]
    | with_reducible apply keeps_of
    | (extract_lets x; first | (refine wf_cut (Keep qk x = true) ?_ ?_; focus (subst x); rotate_left; focus (intro hx; generalize x = y at hx ⊢)) | skip)

theorem hostMixClipClr_wf {qk : Kept} {w : Word} {s : State} (h_s : Keep qk s = true) : Keep qk (hostMixClipClr w s) = true := by
  unfold hostMixClipClr
  repeat' first
    | with_reducible assumption
    | with_reducible intro _
    | with_reducible apply rclr_wf
    | with_reducible apply wf_ite
    | simp only [wf_mk]
    | with_reducible apply keeps_of
    | (extract_lets x; first | (refine wf_cut (Keep qk x = true) ?_ ?_; focus (subst x); rotate_left; focus (intro hx; generalize x = y at hx ⊢)) | skip)

theorem execMixClipClr_wf {qk : Kept} {w : Word} {s : State} (h_s : Keep qk s = true) : OW qk (execMixClipClr w s) := by
  unfold execMixClipClr
  repeat' first
    | with_reducible assumption
    | with_reducible intro _
    | with_reducible apply onBar_wf
    | with_reducible apply hostMixClipClr_wf
    | with_reducible apply ow_next
    | simp only [wf_mk]
    | with_reducible apply keeps_of
    | (extract_lets x; first | (refine wf_cut (Keep qk x = true) ?_ ?_; focus (subst x); rotate_left; focus (intro hx; generalize x = y at hx ⊢)) | skip)

theorem execMeterRead_wf {qk : Kept} {d : DescRef} {s : State} (h_s : Keep qk s = true) : OW qk (execMeterRead d s) := by
  unfold execMeterRead
  repeat' first
    | with_reducible assumption
    | with_reducible intro _
    | with_reducible apply hostWrite_wf
    | with_reducible apply finish_wf
    | with_reducible apply onDesc_wf
    | with_reducible apply ow_next
    | simp only [wf_mk]
    | with_reducible apply keeps_of
    | (extract_lets x; first | (refine wf_cut (Keep qk x = true) ?_ ?_; focus (subst x); rotate_left; focus (intro hx; generalize x = y at hx ⊢)) | skip)

end Sys2Proof.Machine
end

