-- ==== Sys2Proof/Laws/KeepsLoader.lean ====
section
/-! SUPPORT. The operations of Machine/Loader.lean keep what `Keep` names. -/

namespace Sys2Proof.Machine
open Sys2Proof
set_option linter.all false
set_option simprocs false

theorem beginLoad_wf {qk : Kept} {s : State} {f rods : Nat} {l : LoadState} (h_s : Keep qk s = true) : Keep qk (beginLoad s f rods l) = true := by
  unfold beginLoad
  repeat' first
    | with_reducible assumption
    | with_reducible intro _
    | with_reducible apply rput_wf
    | with_reducible apply rset_wf
    | with_reducible apply setRod_wf
    | with_reducible apply setRodState_wf
    | with_reducible apply refreshFrameCounts_wf
    | with_reducible apply dropPass_wf
    | with_reducible apply wf_foldl
    | with_reducible apply wf_foldl1
    | with_reducible apply wf_ite
    | simp only [wf_mk]
    | with_reducible apply keeps_of
    | (extract_lets x; first | (refine wf_cut (Keep qk x = true) ?_ ?_; focus (subst x); rotate_left; focus (intro hx; generalize x = y at hx ⊢)) | skip)
    | dsimp -zeta only

theorem loadChecked_wf {qk : Kept} {s : State} {d : DescRef} {len : Nat} {im : List Byte} (h_s : Keep qk s = true) : Keep qk (loadChecked s d len im) = true := by
  unfold loadChecked
  repeat' first
    | with_reducible assumption
    | with_reducible intro _
    | with_reducible apply finish_wf
    | with_reducible apply beginLoad_wf
    | with_reducible apply wf_ite
    | simp only [wf_mk]
    | with_reducible apply keeps_of
    | (extract_lets x; first | (refine wf_cut (Keep qk x = true) ?_ ?_; focus (subst x); rotate_left; focus (intro hx; generalize x = y at hx ⊢)) | skip)

theorem writeSection_wf {qk : Kept} {s : State} {f : Nat} {im : List Byte} {c : Section} (h_s : Keep qk s = true) : Keep qk (writeSection s f im c) = true := by
  unfold writeSection
  repeat' first
    | with_reducible assumption
    | with_reducible intro _
    | with_reducible apply setRod_wf
    | with_reducible apply frameSet_wf
    | with_reducible apply wf_foldl
    | with_reducible apply wf_foldl1
    | with_reducible apply wf_ite
    | simp only [wf_mk]
    | with_reducible apply keeps_of
    | (extract_lets x; first | (refine wf_cut (Keep qk x = true) ?_ ?_; focus (subst x); rotate_left; focus (intro hx; generalize x = y at hx ⊢)) | skip)
    | dsimp -zeta only
    | split

theorem rodLoaded_wf {qk : Kept} {s : State} {f r : Nat} {im : List Byte} (h_s : Keep qk s = true) : Keep qk (rodLoaded s f r im) = true := by
  unfold rodLoaded
  repeat' first
    | with_reducible assumption
    | with_reducible intro _
    | with_reducible apply wr_wf
    | with_reducible apply rput_wf
    | with_reducible apply setRod_wf
    | with_reducible apply setRodState_wf
    | with_reducible apply wf_ite
    | simp only [wf_mk]
    | with_reducible apply keeps_of
    | (extract_lets x; first | (refine wf_cut (Keep qk x = true) ?_ ?_; focus (subst x); rotate_left; focus (intro hx; generalize x = y at hx ⊢)) | skip)

theorem endLoad_wf {qk : Kept} {s : State} {f : Nat} {l : LoadState} {second : Option (List Byte)} (h_s : Keep qk s = true) : Keep qk (endLoad s f l second) = true := by
  unfold endLoad
  repeat' first
    | with_reducible assumption
    | with_reducible intro _
    | with_reducible apply finishOpt_wf
    | with_reducible apply refreshFrameCounts_wf
    | with_reducible apply loadEnds_wf
    | with_reducible apply loadEmpties_wf
    | with_reducible apply inputFailed_wf
    | with_reducible apply writeSection_wf
    | with_reducible apply rodLoaded_wf
    | with_reducible apply wf_forEach
    | with_reducible apply wf_ite
    | simp only [wf_mk]
    | with_reducible apply keeps_of
    | (extract_lets x; first | (refine wf_cut (Keep qk x = true) ?_ ?_; focus (subst x); rotate_left; focus (intro hx; generalize x = y at hx ⊢)) | skip)
    | split

theorem loadStored_wf {qk : Kept} {s : State} {im : List Byte} (h_s : Keep qk s = true) : PW qk (loadStored s im) := by
  unfold loadStored
  repeat' first
    | with_reducible assumption
    | with_reducible intro _
    | with_reducible apply beginLoad_wf
    | with_reducible apply endLoad_wf
    | with_reducible apply pw_ite
    | with_reducible apply wf_ite
    | with_reducible apply pw_mk
    | simp only [wf_mk]
    | with_reducible apply keeps_of
    | (extract_lets x; first | (refine wf_cut (Keep qk x = true) ?_ ?_; focus (subst x); rotate_left; focus (intro hx; generalize x = y at hx ⊢)) | skip)
theorem loadStored_e {qk : Kept} {s : State} {im : List Byte} {zt : State} {zb} (e : (loadStored s im) = (zt, zb)) (h_s : Keep qk s = true) : Keep qk zt = true := pw_e (loadStored_wf h_s) e
theorem loadStored_p {qk : Kept} {s : State} {im : List Byte} (h_s : Keep qk s = true) : Keep qk (loadStored s im).1 = true := loadStored_wf h_s

theorem execLoadProgram_wf {qk : Kept} {d : DescRef} {image : Option (List Byte)} {s : State} (h_s : Keep qk s = true) : OW qk (execLoadProgram d image s) := by
  unfold execLoadProgram
  repeat' first
    | with_reducible assumption
    | with_reducible intro _
    | with_reducible apply onDesc_wf
    | with_reducible apply withInput_wf
    | with_reducible apply loadChecked_wf
    | with_reducible apply ow_next
    | simp only [wf_mk]
    | with_reducible apply keeps_of
    | (extract_lets x; first | (refine wf_cut (Keep qk x = true) ?_ ?_; focus (subst x); rotate_left; focus (intro hx; generalize x = y at hx ⊢)) | skip)

theorem execProgramLoadDone_wf {qk : Kept} {f : Fin 8} {image : Option (List Byte)} {s : State} (h_s : Keep qk s = true) : OW qk (execProgramLoadDone f image s) := by
  unfold execProgramLoadDone
  repeat' first
    | with_reducible assumption
    | with_reducible intro _
    | with_reducible apply onHost_wf
    | with_reducible apply endLoad_wf
    | with_reducible apply ow_next
    | simp only [wf_mk]
    | with_reducible apply keeps_of
    | (extract_lets x; first | (refine wf_cut (Keep qk x = true) ?_ ?_; focus (subst x); rotate_left; focus (intro hx; generalize x = y at hx ⊢)) | skip)
    | dsimp -zeta only
    | split

end Sys2Proof.Machine
end

