-- ==== Sys2Proof/Laws/KeepsPorts.lean ====
section
/-! SUPPORT. The operations of Machine/Ports.lean keep what `Keep` names. -/

namespace Sys2Proof.Machine
open Sys2Proof
set_option linter.all false
set_option simprocs false

theorem memberMoved_wf {qk : Kept} {s : State} {p dropped repeated : Nat} {rejoin : Bool} (h_s : Keep qk s = true) : Keep qk (memberMoved s p dropped repeated rejoin) = true := by
  unfold memberMoved
  repeat' first
    | with_reducible assumption
    | with_reducible intro _
    | with_reducible apply rset_wf
    | with_reducible apply radd_wf
    | with_reducible apply raise_wf
    | with_reducible apply wf_ite
    | simp only [wf_mk]
    | with_reducible apply keeps_of
    | (extract_lets x; first | (refine wf_cut (Keep qk x = true) ?_ ?_; focus (subst x); rotate_left; focus (intro hx; generalize x = y at hx ⊢)) | skip)
    | split

theorem slipped_wf {qk : Kept} {s : State} {p under overs : Nat} (h_s : Keep qk s = true) : Keep qk (slipped s p under overs) = true := by
  unfold slipped
  repeat' first
    | with_reducible assumption
    | with_reducible intro _
    | with_reducible apply rset_wf
    | with_reducible apply radd_wf
    | with_reducible apply raise_wf
    | with_reducible apply memberMoved_wf
    | simp only [wf_mk]
    | with_reducible apply keeps_of
    | (extract_lets x; first | (refine wf_cut (Keep qk x = true) ?_ ?_; focus (subst x); rotate_left; focus (intro hx; generalize x = y at hx ⊢)) | skip)

theorem writeNow_wf {qk : Kept} {s : State} {p : Nat} {k : Int} {vals : List (Option Word)} (h_s : Keep qk s = true) : Keep qk (writeNow s p k vals) = true := by
  unfold writeNow
  repeat' first
    | with_reducible assumption
    | with_reducible intro _
    | with_reducible apply setRx_wf
    | with_reducible apply fabWrite_wf
    | with_reducible apply wf_foldl
    | with_reducible apply wf_foldl1
    | simp only [wf_mk]
    | with_reducible apply keeps_of
    | (extract_lets x; first | (refine wf_cut (Keep qk x = true) ?_ ?_; focus (subst x); rotate_left; focus (intro hx; generalize x = y at hx ⊢)) | skip)
    | dsimp -zeta only
    | split

theorem placeSamples_wf {qk : Kept} {s : State} {p : Nat} {k : Int} {vals : List (Option Word)} (h_s : Keep qk s = true) : Keep qk (placeSamples s p k vals) = true := by
  unfold placeSamples
  repeat' first
    | with_reducible assumption
    | with_reducible intro _
    | with_reducible apply setRx_wf
    | with_reducible apply lateWrite_wf
    | with_reducible apply writeNow_wf
    | with_reducible apply wf_forEach
    | with_reducible apply wf_ite
    | simp only [wf_mk]
    | with_reducible apply keeps_of
    | (extract_lets x; first | (refine wf_cut (Keep qk x = true) ?_ ?_; focus (subst x); rotate_left; focus (intro hx; generalize x = y at hx ⊢)) | skip)

theorem repeatFrom_wf {qk : Kept} : ∀ {n : Nat} {s : State} {p : Nat} {k : Int}, Keep qk s = true → Keep qk (repeatFrom s p k n) = true
  | 0, s, p, k, h => h
  | n + 1, s, p, k, h => repeatFrom_wf (n := n) (placeSamples_wf h)

theorem learnPhase_wf {qk : Kept} {s : State} {p : Nat} {pos : Int} (h_s : Keep qk s = true) : Keep qk (learnPhase s p pos) = true := by
  unfold learnPhase
  repeat' first
    | with_reducible assumption
    | with_reducible intro _
    | with_reducible apply rput_wf
    | with_reducible apply rset_wf
    | with_reducible apply rbit_wf
    | with_reducible apply wf_ite
    | simp only [wf_mk]
    | with_reducible apply keeps_of
    | (extract_lets x; first | (refine wf_cut (Keep qk x = true) ?_ ?_; focus (subst x); rotate_left; focus (intro hx; generalize x = y at hx ⊢)) | skip)
    | split

theorem indexFrame_wf {qk : Kept} {s : State} {p : Nat} {pos : Int} (h_s : Keep qk s = true) : PW qk (indexFrame s p pos) := by
  unfold indexFrame
  repeat' first
    | with_reducible assumption
    | with_reducible intro _
    | with_reducible apply setRx_wf
    | with_reducible apply slipped_wf
    | with_reducible apply repeatFrom_wf
    | with_reducible apply learnPhase_wf
    | with_reducible apply pw_ite
    | with_reducible apply wf_ite
    | with_reducible apply pw_mk
    | simp only [wf_mk]
    | with_reducible apply keeps_of
    | (extract_lets x; first | (refine wf_cut (Keep qk x = true) ?_ ?_; focus (subst x); rotate_left; focus (intro hx; generalize x = y at hx ⊢)) | skip)
    | split
theorem indexFrame_e {qk : Kept} {s : State} {p : Nat} {pos : Int} {zt : State} {zb} (e : (indexFrame s p pos) = (zt, zb)) (h_s : Keep qk s = true) : Keep qk zt = true := pw_e (indexFrame_wf h_s) e
theorem indexFrame_p {qk : Kept} {s : State} {p : Nat} {pos : Int} (h_s : Keep qk s = true) : Keep qk (indexFrame s p pos).1 = true := indexFrame_wf h_s

theorem freeIndex_wf {qk : Kept} {s : State} {p : Nat} {pos : Int} (h_s : Keep qk s = true) : PW qk (freeIndex s p pos) := by
  unfold freeIndex
  repeat' first
    | with_reducible assumption
    | with_reducible intro _
    | with_reducible apply setRx_wf
    | refine indexFrame_e (by with_reducible assumption) ?_
    | with_reducible apply indexFrame_p
    | with_reducible apply indexFrame_wf
    | with_reducible apply pw_mk
    | simp only [wf_mk]
    | with_reducible apply keeps_of
    | (extract_lets x; first | (refine wf_cut (Keep qk x = true) ?_ ?_; focus (subst x); rotate_left; focus (intro hx; generalize x = y at hx ⊢)) | skip)
    | split
theorem freeIndex_e {qk : Kept} {s : State} {p : Nat} {pos : Int} {zt : State} {zb} (e : (freeIndex s p pos) = (zt, zb)) (h_s : Keep qk s = true) : Keep qk zt = true := pw_e (freeIndex_wf h_s) e
theorem freeIndex_p {qk : Kept} {s : State} {p : Nat} {pos : Int} (h_s : Keep qk s = true) : Keep qk (freeIndex s p pos).1 = true := freeIndex_wf h_s

theorem fillDeadline_wf {qk : Kept} {s : State} {p : Nat} (h_s : Keep qk s = true) : Keep qk (fillDeadline s p) = true := by
  unfold fillDeadline
  repeat' first
    | with_reducible assumption
    | with_reducible intro _
    | with_reducible apply setRx_wf
    | with_reducible apply slipped_wf
    | with_reducible apply repeatFrom_wf
    | with_reducible apply wf_ite
    | simp only [wf_mk]
    | with_reducible apply keeps_of
    | (extract_lets x; first | (refine wf_cut (Keep qk x = true) ?_ ?_; focus (subst x); rotate_left; focus (intro hx; generalize x = y at hx ⊢)) | skip)
    | split

theorem placeEarly_wf {qk : Kept} {s : State} {p : Nat} (h_s : Keep qk s = true) : Keep qk (placeEarly s p) = true := by
  unfold placeEarly
  repeat' first
    | with_reducible assumption
    | with_reducible intro _
    | with_reducible apply setRx_wf
    | with_reducible apply placeSamples_wf
    | with_reducible apply wf_forEach
    | with_reducible apply wf_ite
    | simp only [wf_mk]
    | with_reducible apply keeps_of
    | (extract_lets x; first | (refine wf_cut (Keep qk x = true) ?_ ?_; focus (subst x); rotate_left; focus (intro hx; generalize x = y at hx ⊢)) | skip)
    | dsimp -zeta only

theorem completeBead_wf {qk : Kept} {s : State} {p : Nat} (h_s : Keep qk s = true) : Keep qk (completeBead s p) = true := by
  unfold completeBead
  repeat' first
    | with_reducible assumption
    | with_reducible intro _
    | with_reducible apply setRx_wf
    | with_reducible apply repeatFrom_wf
    | with_reducible apply wf_ite
    | simp only [wf_mk]
    | with_reducible apply keeps_of
    | (extract_lets x; first | (refine wf_cut (Keep qk x = true) ?_ ?_; focus (subst x); rotate_left; focus (intro hx; generalize x = y at hx ⊢)) | skip)
    | split

theorem dropOut_wf {qk : Kept} {s : State} {p st src : Nat} (h_s : Keep qk s = true) : Keep qk (dropOut s p st src) = true := by
  unfold dropOut
  repeat' first
    | with_reducible assumption
    | with_reducible intro _
    | with_reducible apply rclr_wf
    | with_reducible apply leaveRunning_wf
    | with_reducible apply raise_wf
    | with_reducible apply portLeft_wf
    | with_reducible apply completeBead_wf
    | simp only [wf_mk]
    | with_reducible apply keeps_of
    | (extract_lets x; first | (refine wf_cut (Keep qk x = true) ?_ ?_; focus (subst x); rotate_left; focus (intro hx; generalize x = y at hx ⊢)) | skip)

theorem enterRunning_wf {qk : Kept} {s : State} {p : Nat} (h_s : Keep qk s = true) : Keep qk (enterRunning s p) = true := by
  unfold enterRunning
  repeat' first
    | with_reducible assumption
    | with_reducible intro _
    | with_reducible apply setRx_wf
    | with_reducible apply setPtState_wf
    | with_reducible apply evalRoute_wf
    | with_reducible apply memberMoved_wf
    | with_reducible apply wf_forEach
    | with_reducible apply wf_ite
    | simp only [wf_mk]
    | with_reducible apply keeps_of
    | (extract_lets x; first | (refine wf_cut (Keep qk x = true) ?_ ?_; focus (subst x); rotate_left; focus (intro hx; generalize x = y at hx ⊢)) | skip)

theorem noteFrame_wf {qk : Kept} {s : State} {p : Nat} {mis : Bool} (h_s : Keep qk s = true) : Keep qk (noteFrame s p mis) = true := by
  unfold noteFrame
  repeat' first
    | with_reducible assumption
    | with_reducible intro _
    | with_reducible apply setRx_wf
    | with_reducible apply dropOut_wf
    | with_reducible apply wf_ite
    | simp only [wf_mk]
    | with_reducible apply keeps_of
    | (extract_lets x; first | (refine wf_cut (Keep qk x = true) ?_ ?_; focus (subst x); rotate_left; focus (intro hx; generalize x = y at hx ⊢)) | skip)

theorem misframe_wf {qk : Kept} {s : State} {p : Nat} (h_s : Keep qk s = true) : Keep qk (misframe s p) = true := by
  unfold misframe
  repeat' first
    | with_reducible assumption
    | with_reducible intro _
    | with_reducible apply rset_wf
    | with_reducible apply radd_wf
    | with_reducible apply setRx_wf
    | with_reducible apply raise_wf
    | with_reducible apply wf_ite
    | simp only [wf_mk]
    | with_reducible apply keeps_of
    | (extract_lets x; first | (refine wf_cut (Keep qk x = true) ?_ ?_; focus (subst x); rotate_left; focus (intro hx; generalize x = y at hx ⊢)) | skip)

theorem wakeLost_wf {qk : Kept} {s : State} {p : Nat} (h_s : Keep qk s = true) : Keep qk (wakeLost s p) = true := by
  unfold wakeLost
  repeat' first
    | with_reducible assumption
    | with_reducible intro _
    | with_reducible apply setPtState_wf
    | with_reducible apply wf_ite
    | simp only [wf_mk]
    | with_reducible apply keeps_of
    | (extract_lets x; first | (refine wf_cut (Keep qk x = true) ?_ ?_; focus (subst x); rotate_left; focus (intro hx; generalize x = y at hx ⊢)) | skip)

theorem writeTdmCtrl_wf {qk : Kept} {s : State} {n : Nat} {w : Word} (h_s : Keep qk s = true) : Keep qk (writeTdmCtrl s n w) = true := by
  unfold writeTdmCtrl
  repeat' first
    | with_reducible assumption
    | with_reducible intro _
    | with_reducible apply wr_wf
    | with_reducible apply rput_wf
    | with_reducible apply rset_wf
    | with_reducible apply rclr_wf
    | with_reducible apply setPtState_wf
    | with_reducible apply rxOff_wf
    | with_reducible apply portLeft_wf
    | with_reducible apply wf_ite
    | simp only [wf_mk]
    | with_reducible apply keeps_of
    | (extract_lets x; first | (refine wf_cut (Keep qk x = true) ?_ ?_; focus (subst x); rotate_left; focus (intro hx; generalize x = y at hx ⊢)) | skip)

theorem startGridMaster_wf {qk : Kept} {s : State} {n : Nat} (h_s : Keep qk s = true) : Keep qk (startGridMaster s n) = true := by
  unfold startGridMaster
  repeat' first
    | with_reducible assumption
    | with_reducible intro _
    | with_reducible apply setRx_wf
    | with_reducible apply enterRunning_wf
    | with_reducible apply wf_ite
    | simp only [wf_mk]
    | with_reducible apply keeps_of
    | (extract_lets x; first | (refine wf_cut (Keep qk x = true) ?_ ?_; focus (subst x); rotate_left; focus (intro hx; generalize x = y at hx ⊢)) | skip)

theorem rawFrame_wf {qk : Kept} {s : State} {n : Nat} {slots : List Word} (h_s : Keep qk s = true) : Keep qk (rawFrame s n slots) = true := by
  unfold rawFrame
  repeat' first
    | with_reducible assumption
    | with_reducible intro _
    | with_reducible apply rput_wf
    | with_reducible apply rset_wf
    | with_reducible apply drWriteBytes_wf
    | with_reducible apply setRx_wf
    | with_reducible apply raise_wf
    | with_reducible apply noteDram_wf
    | with_reducible apply wf_ite
    | simp only [wf_mk]
    | with_reducible apply keeps_of
    | (extract_lets x; first | (refine wf_cut (Keep qk x = true) ?_ ?_; focus (subst x); rotate_left; focus (intro hx; generalize x = y at hx ⊢)) | skip)

theorem feedDirect_wf {qk : Kept} {s : State} {n : Nat} {slots : List Word} (h_s : Keep qk s = true) : Keep qk (feedDirect s n slots) = true := by
  unfold feedDirect
  repeat' first
    | with_reducible assumption
    | with_reducible intro _
    | with_reducible apply directSample_wf
    | with_reducible apply wf_foldl
    | with_reducible apply wf_foldl1
    | simp only [wf_mk]
    | with_reducible apply keeps_of
    | (extract_lets x; first | (refine wf_cut (Keep qk x = true) ?_ ?_; focus (subst x); rotate_left; focus (intro hx; generalize x = y at hx ⊢)) | skip)
    | dsimp -zeta only

theorem tdmRunningFrame_wf {qk : Kept} {s : State} {n : Nat} {pos : Int} {good short : Bool} {slots : List Word} (h_s : Keep qk s = true) : Keep qk (tdmRunningFrame s n pos good short slots) = true := by
  unfold tdmRunningFrame
  repeat' first
    | with_reducible assumption
    | with_reducible intro _
    | with_reducible apply sendOut_wf
    | with_reducible apply setRx_wf
    | with_reducible apply placeSamples_wf
    | refine indexFrame_e (by with_reducible assumption) ?_
    | with_reducible apply indexFrame_p
    | with_reducible apply indexFrame_wf
    | refine freeIndex_e (by with_reducible assumption) ?_
    | with_reducible apply freeIndex_p
    | with_reducible apply freeIndex_wf
    | with_reducible apply noteFrame_wf
    | with_reducible apply misframe_wf
    | with_reducible apply rawFrame_wf
    | with_reducible apply feedDirect_wf
    | with_reducible apply wf_ite
    | simp only [wf_mk]
    | with_reducible apply keeps_of
    | (extract_lets x; first | (refine wf_cut (Keep qk x = true) ?_ ?_; focus (subst x); rotate_left; focus (intro hx; generalize x = y at hx ⊢)) | skip)
    | split

theorem tdmQualifyingFrame_wf {qk : Kept} {s : State} {n : Nat} {good short : Bool} (h_s : Keep qk s = true) : Keep qk (tdmQualifyingFrame s n good short) = true := by
  unfold tdmQualifyingFrame
  repeat' first
    | with_reducible assumption
    | with_reducible intro _
    | with_reducible apply setRx_wf
    | with_reducible apply misframe_wf
    | with_reducible apply wf_ite
    | simp only [wf_mk]
    | with_reducible apply keeps_of
    | (extract_lets x; first | (refine wf_cut (Keep qk x = true) ?_ ?_; focus (subst x); rotate_left; focus (intro hx; generalize x = y at hx ⊢)) | skip)

theorem hostTdmModeWrite_wf {qk : Kept} {n : Fin 16} {w : Word} {s : State} (h_s : Keep qk s = true) : Keep qk (hostTdmModeWrite n w s) = true := by
  unfold hostTdmModeWrite
  repeat' first
    | with_reducible assumption
    | with_reducible intro _
    | with_reducible apply writeTdmCtrl_wf
    | simp only [wf_mk]
    | with_reducible apply keeps_of
    | (extract_lets x; first | (refine wf_cut (Keep qk x = true) ?_ ?_; focus (subst x); rotate_left; focus (intro hx; generalize x = y at hx ⊢)) | skip)

theorem execTdmModeWrite_wf {qk : Kept} {n : Fin 16} {w : Word} {s : State} (h_s : Keep qk s = true) : OW qk (execTdmModeWrite n w s) := by
  unfold execTdmModeWrite
  repeat' first
    | with_reducible assumption
    | with_reducible intro _
    | with_reducible apply onBar_wf
    | with_reducible apply hostTdmModeWrite_wf
    | with_reducible apply ow_next
    | simp only [wf_mk]
    | with_reducible apply keeps_of
    | (extract_lets x; first | (refine wf_cut (Keep qk x = true) ?_ ?_; focus (subst x); rotate_left; focus (intro hx; generalize x = y at hx ⊢)) | skip)

theorem execTdmMasterFrameStart_wf {qk : Kept} {n : Fin 16} {j : Fin 32} {s : State} (h_s : Keep qk s = true) : OW qk (execTdmMasterFrameStart n j s) := by
  unfold execTdmMasterFrameStart
  repeat' first
    | with_reducible assumption
    | with_reducible intro _
    | with_reducible apply onHost_wf
    | with_reducible apply sendOut_wf
    | with_reducible apply ow_ite
    | with_reducible apply wf_ite
    | with_reducible apply ow_next
    | simp only [wf_mk]
    | with_reducible apply keeps_of
    | (extract_lets x; first | (refine wf_cut (Keep qk x = true) ?_ ?_; focus (subst x); rotate_left; focus (intro hx; generalize x = y at hx ⊢)) | skip)

theorem execTdmFrameReceive_wf {qk : Kept} {n : Fin 16} {pos : Int} {bclks : Nat} {slots : List Word} {s : State} (h_s : Keep qk s = true) : OW qk (execTdmFrameReceive n pos bclks slots s) := by
  unfold execTdmFrameReceive
  repeat' first
    | with_reducible assumption
    | with_reducible intro _
    | with_reducible apply onHost_wf
    | with_reducible apply setRx_wf
    | with_reducible apply wakeLost_wf
    | with_reducible apply tdmRunningFrame_wf
    | with_reducible apply tdmQualifyingFrame_wf
    | with_reducible apply ow_ite
    | with_reducible apply wf_ite
    | with_reducible apply ow_next
    | simp only [wf_mk]
    | with_reducible apply keeps_of
    | (extract_lets x; first | (refine wf_cut (Keep qk x = true) ?_ ?_; focus (subst x); rotate_left; focus (intro hx; generalize x = y at hx ⊢)) | skip)

theorem hostTdmRawArm_wf {qk : Kept} {n : Fin 16} {w : Word} {s : State} (h_s : Keep qk s = true) : Keep qk (hostTdmRawArm n w s) = true := by
  unfold hostTdmRawArm
  repeat' first
    | with_reducible assumption
    | with_reducible intro _
    | with_reducible apply rclr_wf
    | with_reducible apply rwrite_wf
    | with_reducible apply setRx_wf
    | with_reducible apply wf_ite
    | simp only [wf_mk]
    | with_reducible apply keeps_of
    | (extract_lets x; first | (refine wf_cut (Keep qk x = true) ?_ ?_; focus (subst x); rotate_left; focus (intro hx; generalize x = y at hx ⊢)) | skip)

theorem execTdmRawArm_wf {qk : Kept} {n : Fin 16} {w : Word} {s : State} (h_s : Keep qk s = true) : OW qk (execTdmRawArm n w s) := by
  unfold execTdmRawArm
  repeat' first
    | with_reducible assumption
    | with_reducible intro _
    | with_reducible apply onBar_wf
    | with_reducible apply hostTdmRawArm_wf
    | with_reducible apply ow_next
    | simp only [wf_mk]
    | with_reducible apply keeps_of
    | (extract_lets x; first | (refine wf_cut (Keep qk x = true) ?_ ?_; focus (subst x); rotate_left; focus (intro hx; generalize x = y at hx ⊢)) | skip)

theorem execPortQualified_wf {qk : Kept} {p : Fin 32} {s : State} (h_s : Keep qk s = true) : OW qk (execPortQualified p s) := by
  unfold execPortQualified
  repeat' first
    | with_reducible assumption
    | with_reducible intro _
    | with_reducible apply onHost_wf
    | with_reducible apply enterRunning_wf
    | with_reducible apply ow_ite
    | with_reducible apply wf_ite
    | with_reducible apply ow_next
    | simp only [wf_mk]
    | with_reducible apply keeps_of
    | (extract_lets x; first | (refine wf_cut (Keep qk x = true) ?_ ?_; focus (subst x); rotate_left; focus (intro hx; generalize x = y at hx ⊢)) | skip)

theorem execPortClockLost_wf {qk : Kept} {p : Fin 32} {s : State} (h_s : Keep qk s = true) : OW qk (execPortClockLost p s) := by
  unfold execPortClockLost
  repeat' first
    | with_reducible assumption
    | with_reducible intro _
    | with_reducible apply rclr_wf
    | with_reducible apply radd_wf
    | with_reducible apply onHost_wf
    | with_reducible apply setRx_wf
    | with_reducible apply followLock_wf
    | with_reducible apply dropOut_wf
    | with_reducible apply ow_ite
    | with_reducible apply wf_ite
    | with_reducible apply ow_next
    | simp only [wf_mk]
    | with_reducible apply keeps_of
    | (extract_lets x; first | (refine wf_cut (Keep qk x = true) ?_ ?_; focus (subst x); rotate_left; focus (intro hx; generalize x = y at hx ⊢)) | skip)

theorem execPortFrequencyGate_wf {qk : Kept} {p : Fin 32} {offset : Int} {s : State} (h_s : Keep qk s = true) : OW qk (execPortFrequencyGate p offset s) := by
  unfold execPortFrequencyGate
  repeat' first
    | with_reducible assumption
    | with_reducible intro _
    | with_reducible apply rput_wf
    | with_reducible apply rputI_wf
    | with_reducible apply rset_wf
    | with_reducible apply onHost_wf
    | with_reducible apply setRx_wf
    | with_reducible apply raise_wf
    | with_reducible apply dropOut_wf
    | with_reducible apply ow_ite
    | with_reducible apply wf_ite
    | with_reducible apply ow_next
    | simp only [wf_mk]
    | with_reducible apply keeps_of
    | (extract_lets x; first | (refine wf_cut (Keep qk x = true) ?_ ?_; focus (subst x); rotate_left; focus (intro hx; generalize x = y at hx ⊢)) | skip)

theorem writeAgrpMem_wf {qk : Kept} {s : State} {g : Nat} {w : Word} (h_s : Keep qk s = true) : Keep qk (writeAgrpMem s g w) = true := by
  unfold writeAgrpMem
  repeat' first
    | with_reducible assumption
    | with_reducible intro _
    | with_reducible apply wr_wf
    | with_reducible apply rset_wf
    | with_reducible apply setRx_wf
    | with_reducible apply refreshGroup_wf
    | with_reducible apply wf_forEach
    | with_reducible apply wf_ite
    | simp only [wf_mk]
    | with_reducible apply keeps_of
    | (extract_lets x; first | (refine wf_cut (Keep qk x = true) ?_ ?_; focus (subst x); rotate_left; focus (intro hx; generalize x = y at hx ⊢)) | skip)

theorem hostFabAgrpMemWrite_wf {qk : Kept} {g : Fin 8} {w : Word} {s : State} (h_s : Keep qk s = true) : Keep qk (hostFabAgrpMemWrite g w s) = true := by
  unfold hostFabAgrpMemWrite
  repeat' first
    | with_reducible assumption
    | with_reducible intro _
    | with_reducible apply writeAgrpMem_wf
    | simp only [wf_mk]
    | with_reducible apply keeps_of
    | (extract_lets x; first | (refine wf_cut (Keep qk x = true) ?_ ?_; focus (subst x); rotate_left; focus (intro hx; generalize x = y at hx ⊢)) | skip)

theorem execFabAgrpMemWrite_wf {qk : Kept} {g : Fin 8} {w : Word} {s : State} (h_s : Keep qk s = true) : OW qk (execFabAgrpMemWrite g w s) := by
  unfold execFabAgrpMemWrite
  repeat' first
    | with_reducible assumption
    | with_reducible intro _
    | with_reducible apply onBar_wf
    | with_reducible apply hostFabAgrpMemWrite_wf
    | with_reducible apply ow_next
    | simp only [wf_mk]
    | with_reducible apply keeps_of
    | (extract_lets x; first | (refine wf_cut (Keep qk x = true) ?_ ?_; focus (subst x); rotate_left; focus (intro hx; generalize x = y at hx ⊢)) | skip)

theorem writeBphRxCtrl_wf {qk : Kept} {s : State} {n : Nat} {w : Word} (h_s : Keep qk s = true) : Keep qk (writeBphRxCtrl s n w) = true := by
  unfold writeBphRxCtrl
  repeat' first
    | with_reducible assumption
    | with_reducible intro _
    | with_reducible apply wr_wf
    | with_reducible apply rset_wf
    | with_reducible apply rclr_wf
    | with_reducible apply setRx_wf
    | with_reducible apply setPtState_wf
    | with_reducible apply rxOff_wf
    | with_reducible apply portLeft_wf
    | with_reducible apply followLock_wf
    | with_reducible apply wf_ite
    | simp only [wf_mk]
    | with_reducible apply keeps_of
    | (extract_lets x; first | (refine wf_cut (Keep qk x = true) ?_ ?_; focus (subst x); rotate_left; focus (intro hx; generalize x = y at hx ⊢)) | skip)

theorem putArray_wf {qk : Kept} {s : State} {at' : Nat → Nat} {v : Nat} (h_s : Keep qk s = true) : Keep qk (putArray s at' v) = true := by
  unfold putArray
  repeat' first
    | with_reducible assumption
    | with_reducible intro _
    | with_reducible apply wr_wf
    | with_reducible apply wf_foldl
    | with_reducible apply wf_foldl1
    | simp only [wf_mk]
    | with_reducible apply keeps_of
    | (extract_lets x; first | (refine wf_cut (Keep qk x = true) ?_ ?_; focus (subst x); rotate_left; focus (intro hx; generalize x = y at hx ⊢)) | skip)
    | dsimp -zeta only

theorem closeBlock_wf {qk : Kept} {s : State} {n ch : Nat} (h_s : Keep qk s = true) : Keep qk (closeBlock s n ch) = true := by
  unfold closeBlock
  repeat' first
    | with_reducible assumption
    | with_reducible intro _
    | with_reducible apply rput_wf
    | with_reducible apply rset_wf
    | with_reducible apply rbit_wf
    | with_reducible apply raise_wf
    | with_reducible apply wf_ite
    | simp only [wf_mk]
    | with_reducible apply keeps_of
    | (extract_lets x; first | (refine wf_cut (Keep qk x = true) ?_ ?_; focus (subst x); rotate_left; focus (intro hx; generalize x = y at hx ⊢)) | skip)

theorem takeBits_wf {qk : Kept} {s : State} {n ch : Nat} {f : Subframe} (h_s : Keep qk s = true) : Keep qk (takeBits s n ch f) = true := by
  unfold takeBits
  repeat' first
    | with_reducible assumption
    | with_reducible intro _
    | with_reducible apply wf_ite
    | simp only [wf_mk]
    | with_reducible apply keeps_of
    | (extract_lets x; first | (refine wf_cut (Keep qk x = true) ?_ ?_; focus (subst x); rotate_left; focus (intro hx; generalize x = y at hx ⊢)) | skip)

theorem judgeSubframe_wf {qk : Kept} {s : State} {n : Nat} {f : Subframe} (h_s : Keep qk s = true) : PW qk (judgeSubframe s n f) := by
  unfold judgeSubframe
  repeat' first
    | with_reducible assumption
    | with_reducible intro _
    | with_reducible apply rset_wf
    | with_reducible apply radd_wf
    | with_reducible apply raise_wf
    | with_reducible apply pw_ite
    | with_reducible apply wf_ite
    | with_reducible apply pw_mk
    | simp only [wf_mk]
    | with_reducible apply keeps_of
    | (extract_lets x; first | (refine wf_cut (Keep qk x = true) ?_ ?_; focus (subst x); rotate_left; focus (intro hx; generalize x = y at hx ⊢)) | skip)
theorem judgeSubframe_e {qk : Kept} {s : State} {n : Nat} {f : Subframe} {zt : State} {zb} (e : (judgeSubframe s n f) = (zt, zb)) (h_s : Keep qk s = true) : Keep qk zt = true := pw_e (judgeSubframe_wf h_s) e
theorem judgeSubframe_p {qk : Kept} {s : State} {n : Nat} {f : Subframe} (h_s : Keep qk s = true) : Keep qk (judgeSubframe s n f).1 = true := judgeSubframe_wf h_s

theorem bphFrame_wf {qk : Kept} {s : State} {n : Nat} {pos : Int} {z mis : Bool} {a b : Subframe} (h_s : Keep qk s = true) :
    Keep qk (bphFrame s n pos z mis a b) = true := by
  unfold bphFrame
  extract_lets p x good s1 s2 s3 s4
  have h1 : Keep qk s1 = true := setRx_wf h_s
  have h2 : Keep qk s2 = true := wf_ite (followLock_wf (rset_wf h1)) h1
  have h3 : Keep qk s3 = true := wf_ite (closeBlock_wf (closeBlock_wf h2)) h2
  have h4 : Keep qk s4 = true := wf_ite h3 (takeBits_wf (takeBits_wf h3))
  generalize s4 = y at h4 ⊢
  have hj : ∀ (t : State) (f : Subframe), Keep qk t = true → PW qk (if mis = true then (t, false) else judgeSubframe t n f) :=
    fun t f ht => pw_ite (pw_mk ht) (judgeSubframe_wf ht)
  have hA := hj y a h4
  revert hA
  rcases (if mis = true then (y, false) else judgeSubframe y n a) with ⟨t, okA⟩
  intro hA
  have hB := hj t b hA
  revert hB
  dsimp -zeta only
  rcases (if mis = true then (t, false) else judgeSubframe t n b) with ⟨u, okB⟩
  intro hB
  have hd : ∀ (t : State) (i : Nat) (w : Word), Keep qk t = true → Keep qk (directSample t 1 n i w) = true :=
    fun _ _ _ ht => directSample_wf ht
  have hn : ∀ t : State, Keep qk t = true → Keep qk (noteFrame (if mis = true then misframe t p else t) p mis) = true :=
    fun t ht => noteFrame_wf (wf_ite (misframe_wf ht) ht)
  refine wf_ite (wf_ite (misframe_wf hB) hB) ?_
  have h5 : ∀ w v : Word, Keep qk (if okB = true then directSample (if okA = true then directSample u 1 n 0 w else u) 1 n 1 v
      else if okA = true then directSample u 1 n 0 w else u) = true :=
    fun w v => wf_ite (hd _ _ _ (wf_ite (hd _ _ _ hB) hB)) (wf_ite (hd _ _ _ hB) hB)
  refine hn _ (wf_ite (h5 _ _) ?_)
  have hi := indexFrame_wf (p := p) (pos := pos) (h5 (BitVec.ofNat 32 (256 * a.sample.toNat)) (BitVec.ofNat 32 (256 * b.sample.toNat)))
  revert hi
  rcases indexFrame _ p pos with ⟨v, k⟩
  intro hi
  cases k with
  | none => exact hi
  | some k => exact placeSamples_wf hi

theorem execBphRxFrame_wf {qk : Kept} {n : Fin 16} {pos : Int} {z misframe : Bool} {a b : Subframe} {s : State} (h_s : Keep qk s = true) : OW qk (execBphRxFrame n pos z misframe a b s) := by
  unfold execBphRxFrame
  repeat' first
    | with_reducible assumption
    | with_reducible intro _
    | with_reducible apply onHost_wf
    | with_reducible apply misframe_wf
    | with_reducible apply wakeLost_wf
    | with_reducible apply bphFrame_wf
    | with_reducible apply ow_ite
    | with_reducible apply wf_ite
    | with_reducible apply ow_next
    | simp only [wf_mk]
    | with_reducible apply keeps_of
    | (extract_lets x; first | (refine wf_cut (Keep qk x = true) ?_ ?_; focus (subst x); rotate_left; focus (intro hx; generalize x = y at hx ⊢)) | skip)

theorem hostBphRxCsseqRead_wf {qk : Kept} {n : Fin 16} {s : State} (h_s : Keep qk s = true) : Keep qk (hostBphRxCsseqRead n s) = true := by
  unfold hostBphRxCsseqRead
  repeat' first
    | with_reducible assumption
    | with_reducible intro _
    | with_reducible apply putArray_wf
    | simp only [wf_mk]
    | with_reducible apply keeps_of
    | (extract_lets x; first | (refine wf_cut (Keep qk x = true) ?_ ?_; focus (subst x); rotate_left; focus (intro hx; generalize x = y at hx ⊢)) | skip)

theorem execBphRxCsseqRead_wf {qk : Kept} {n : Fin 16} {s : State} (h_s : Keep qk s = true) : OW qk (execBphRxCsseqRead n s) := by
  unfold execBphRxCsseqRead
  repeat' first
    | with_reducible assumption
    | with_reducible intro _
    | with_reducible apply onBar_wf
    | with_reducible apply hostBphRxCsseqRead_wf
    | with_reducible apply ow_next
    | simp only [wf_mk]
    | with_reducible apply keeps_of
    | (extract_lets x; first | (refine wf_cut (Keep qk x = true) ?_ ?_; focus (subst x); rotate_left; focus (intro hx; generalize x = y at hx ⊢)) | skip)

theorem writeBphTxCtrl_wf {qk : Kept} {s : State} {n : Nat} {w : Word} (h_s : Keep qk s = true) : Keep qk (writeBphTxCtrl s n w) = true := by
  unfold writeBphTxCtrl
  repeat' first
    | with_reducible assumption
    | with_reducible intro _
    | with_reducible apply wr_wf
    | with_reducible apply rset_wf
    | with_reducible apply rclr_wf
    | with_reducible apply setTx_wf
    | with_reducible apply txOff_wf
    | with_reducible apply wf_ite
    | simp only [wf_mk]
    | with_reducible apply keeps_of
    | (extract_lets x; first | (refine wf_cut (Keep qk x = true) ?_ ?_; focus (subst x); rotate_left; focus (intro hx; generalize x = y at hx ⊢)) | skip)

theorem hostBphTxEnWrite_wf {qk : Kept} {n : Fin 16} {w : Word} {s : State} (h_s : Keep qk s = true) : Keep qk (hostBphTxEnWrite n w s) = true := by
  unfold hostBphTxEnWrite
  repeat' first
    | with_reducible assumption
    | with_reducible intro _
    | with_reducible apply writeBphTxCtrl_wf
    | simp only [wf_mk]
    | with_reducible apply keeps_of
    | (extract_lets x; first | (refine wf_cut (Keep qk x = true) ?_ ?_; focus (subst x); rotate_left; focus (intro hx; generalize x = y at hx ⊢)) | skip)

theorem execBphTxEnWrite_wf {qk : Kept} {n : Fin 16} {w : Word} {s : State} (h_s : Keep qk s = true) : OW qk (execBphTxEnWrite n w s) := by
  unfold execBphTxEnWrite
  repeat' first
    | with_reducible assumption
    | with_reducible intro _
    | with_reducible apply onBar_wf
    | with_reducible apply hostBphTxEnWrite_wf
    | with_reducible apply ow_next
    | simp only [wf_mk]
    | with_reducible apply keeps_of
    | (extract_lets x; first | (refine wf_cut (Keep qk x = true) ?_ ?_; focus (subst x); rotate_left; focus (intro hx; generalize x = y at hx ⊢)) | skip)

theorem txFrame_wf {qk : Kept} {s : State} {n j : Nat} (h_s : Keep qk s = true) : Keep qk (txFrame s n j) = true := by
  unfold txFrame
  repeat' first
    | with_reducible assumption
    | with_reducible intro _
    | with_reducible apply rclr_wf
    | with_reducible apply sendOut_wf
    | with_reducible apply setTx_wf
    | with_reducible apply bphFrame_wf
    | with_reducible apply wf_ite
    | simp only [wf_mk]
    | with_reducible apply keeps_of
    | (extract_lets x; first | (refine wf_cut (Keep qk x = true) ?_ ?_; focus (subst x); rotate_left; focus (intro hx; generalize x = y at hx ⊢)) | skip)

theorem execBphTxFrame_wf {qk : Kept} {n : Fin 16} {j : Fin 32} {s : State} (h_s : Keep qk s = true) : OW qk (execBphTxFrame n j s) := by
  unfold execBphTxFrame
  repeat' first
    | with_reducible assumption
    | with_reducible intro _
    | with_reducible apply onHost_wf
    | with_reducible apply txFrame_wf
    | with_reducible apply ow_ite
    | with_reducible apply wf_ite
    | with_reducible apply ow_next
    | simp only [wf_mk]
    | with_reducible apply keeps_of
    | (extract_lets x; first | (refine wf_cut (Keep qk x = true) ?_ ?_; focus (subst x); rotate_left; focus (intro hx; generalize x = y at hx ⊢)) | skip)

theorem hostBphTxCsgo_wf {qk : Kept} {n : Fin 16} {w : Word} {s : State} (h_s : Keep qk s = true) : Keep qk (hostBphTxCsgo n w s) = true := by
  unfold hostBphTxCsgo
  repeat' first
    | with_reducible assumption
    | with_reducible intro _
    | with_reducible apply rset_wf
    | with_reducible apply wf_ite
    | simp only [wf_mk]
    | with_reducible apply keeps_of
    | (extract_lets x; first | (refine wf_cut (Keep qk x = true) ?_ ?_; focus (subst x); rotate_left; focus (intro hx; generalize x = y at hx ⊢)) | skip)

theorem execBphTxCsgo_wf {qk : Kept} {n : Fin 16} {w : Word} {s : State} (h_s : Keep qk s = true) : OW qk (execBphTxCsgo n w s) := by
  unfold execBphTxCsgo
  repeat' first
    | with_reducible assumption
    | with_reducible intro _
    | with_reducible apply onBar_wf
    | with_reducible apply hostBphTxCsgo_wf
    | with_reducible apply ow_next
    | simp only [wf_mk]
    | with_reducible apply keeps_of
    | (extract_lets x; first | (refine wf_cut (Keep qk x = true) ?_ ?_; focus (subst x); rotate_left; focus (intro hx; generalize x = y at hx ⊢)) | skip)

theorem execAsrcLock_wf {qk : Kept} {p : Fin 32} {settled : Bool} {ratio : Word} {s : State} (h_s : Keep qk s = true) : OW qk (execAsrcLock p settled ratio s) := by
  unfold execAsrcLock
  repeat' first
    | with_reducible assumption
    | with_reducible intro _
    | with_reducible apply wr_wf
    | with_reducible apply rset_wf
    | with_reducible apply rclr_wf
    | with_reducible apply onHost_wf
    | with_reducible apply raise_wf
    | with_reducible apply ow_ite
    | with_reducible apply wf_ite
    | with_reducible apply ow_next
    | simp only [wf_mk]
    | with_reducible apply keeps_of
    | (extract_lets x; first | (refine wf_cut (Keep qk x = true) ?_ ?_; focus (subst x); rotate_left; focus (intro hx; generalize x = y at hx ⊢)) | skip)

theorem latchAsrc_wf {qk : Kept} {s : State} (h_s : Keep qk s = true) : Keep qk (latchAsrc s) = true := by
  unfold latchAsrc
  repeat' first
    | with_reducible assumption
    | with_reducible intro _
    | with_reducible apply wf_foldl
    | with_reducible apply wf_foldl1
    | simp only [wf_mk]
    | with_reducible apply keeps_of
    | (extract_lets x; first | (refine wf_cut (Keep qk x = true) ?_ ?_; focus (subst x); rotate_left; focus (intro hx; generalize x = y at hx ⊢)) | skip)
    | dsimp -zeta only

theorem asrcBead_wf {qk : Kept} {s : State} {k : Nat} (h_s : Keep qk s = true) : Keep qk (asrcBead s k) = true := by
  unfold asrcBead
  repeat' first
    | with_reducible assumption
    | with_reducible intro _
    | refine takeFree_e (by with_reducible assumption) ?_
    | with_reducible apply takeFree_p
    | with_reducible apply takeFree_wf
    | with_reducible apply fabWrite_wf
    | with_reducible apply wf_foldl
    | with_reducible apply wf_foldl1
    | with_reducible apply wf_ite
    | simp only [wf_mk]
    | with_reducible apply keeps_of
    | (extract_lets x; first | (refine wf_cut (Keep qk x = true) ?_ ?_; focus (subst x); rotate_left; focus (intro hx; generalize x = y at hx ⊢)) | skip)
    | dsimp -zeta only
    | split

theorem finishPorts_wf {qk : Kept} {s : State} (h_s : Keep qk s = true) : Keep qk (finishPorts s) = true := by
  unfold finishPorts
  repeat' first
    | with_reducible assumption
    | with_reducible intro _
    | with_reducible apply fillDeadline_wf
    | with_reducible apply asrcBead_wf
    | with_reducible apply wf_foldl
    | with_reducible apply wf_foldl1
    | with_reducible apply wf_ite
    | simp only [wf_mk]
    | with_reducible apply keeps_of
    | (extract_lets x; first | (refine wf_cut (Keep qk x = true) ?_ ?_; focus (subst x); rotate_left; focus (intro hx; generalize x = y at hx ⊢)) | skip)
    | dsimp -zeta only

theorem beginPorts_wf {qk : Kept} {s : State} (h_s : Keep qk s = true) : Keep qk (beginPorts s) = true := by
  unfold beginPorts
  repeat' first
    | with_reducible assumption
    | with_reducible intro _
    | with_reducible apply placeEarly_wf
    | with_reducible apply startGridMaster_wf
    | with_reducible apply latchAsrc_wf
    | with_reducible apply wf_foldl
    | with_reducible apply wf_foldl1
    | simp only [wf_mk]
    | with_reducible apply keeps_of
    | (extract_lets x; first | (refine wf_cut (Keep qk x = true) ?_ ?_; focus (subst x); rotate_left; focus (intro hx; generalize x = y at hx ⊢)) | skip)
    | dsimp -zeta only

end Sys2Proof.Machine
end

