-- ==== Sys2Proof/Laws/KeepsRegWrite.lean ====
section
/-! SUPPORT. The operations of Machine/RegWrite.lean keep what `Keep` names. -/

namespace Sys2Proof.Machine
open Sys2Proof
set_option linter.all false
set_option simprocs false

theorem writeMixCtrl_wf {qk : Kept} {s : State} {w : Word} (h_s : Keep qk s = true) : Keep qk (writeMixCtrl s w) = true := by
  unfold writeMixCtrl
  repeat' first
    | with_reducible assumption
    | with_reducible intro _
    | with_reducible apply rwrite_wf
    | with_reducible apply evalRoute_wf
    | with_reducible apply wf_forEach
    | simp only [wf_mk]
    | with_reducible apply keeps_of
    | (extract_lets x; first | (refine wf_cut (Keep qk x = true) ?_ ?_; focus (subst x); rotate_left; focus (intro hx; generalize x = y at hx ⊢)) | skip)

theorem some_wf {qk : Kept} {f g : State → Word → State} (e : some f = some g) {s : State} {w : Word} (h : Keep qk (f s w) = true) :
    Keep qk (g s w) = true := by cases e; exact h
theorem sharedWrite_wf {qk : Kept} {a : Nat} {f : State → Word → State} (e : sharedWrite a = some f) {s : State} {w : Word}
    (h : Keep qk s = true) : Keep qk (f s w) = true := by
  unfold sharedWrite at e
  extract_lets pick at e
  generalize pick = p at e
  split at e
  · exact some_wf e (writeMixCtrl_wf h)
  split at e
  · exact some_wf e (writeStrCtrl_wf h)
  split at e
  · exact some_wf e (afterPtpWrite_wf (rwrite_wf h))
  split at e
  · exact some_wf e (writeNetQueue_wf h)
  split at e
  · exact some_wf e (writeTdmCtrl_wf h)
  split at e
  · exact some_wf e (writeBphRxCtrl_wf h)
  split at e
  · exact some_wf e (writeBphTxCtrl_wf h)
  split at e
  · exact some_wf e (writeAgrpMem_wf h)
  split at e
  · exact some_wf e (writeNetCtrl_wf h)
  · cases e

theorem tallyRegWrite_wf {qk : Kept} {s : State} {a : Nat} {mask data : Word} (h : Keep qk s = true) :
    Keep qk (tallyRegWrite s a mask data) = true := by
  unfold tallyRegWrite
  extract_lets w
  generalize w = v
  refine wf_ite h (wf_ite (setOwner_wf h) ?_)
  split
  · exact setRodEn_wf h
  · split
    · rename_i e; exact sharedWrite_wf e h
    · exact wr_wf h

end Sys2Proof.Machine
end

