-- ==== Sys2Proof/Laws/KeepsTallyOps.lean ====
section
/-! SUPPORT. The operations of Machine/TallyOps.lean keep what `Keep` names. -/

namespace Sys2Proof.Machine
open Sys2Proof
set_option linter.all false
set_option simprocs false

theorem projectTally_wf {qk : Kept} {s : State} {rs : List TallyRec} (h_s : Keep qk s = true) : Keep qk (projectTally s rs) = true := by
  unfold projectTally
  repeat' first
    | with_reducible assumption
    | with_reducible intro _
    | with_reducible apply wr_wf
    | with_reducible apply rput_wf
    | with_reducible apply writePword_wf
    | with_reducible apply wf_forEach
    | simp only [wf_mk]
    | with_reducible apply keeps_of
    | (extract_lets x; first | (refine wf_cut (Keep qk x = true) ?_ ?_; focus (subst x); rotate_left; focus (intro hx; generalize x = y at hx ⊢)) | skip)

theorem sendParam_wf {qk : Kept} {s : State} {id i epoch : Nat} {r : TallyRec} (h_s : Keep qk s = true) : Keep qk (sendParam s id i epoch r) = true := by
  unfold sendParam
  repeat' first
    | with_reducible assumption
    | with_reducible intro _
    | with_reducible apply barAsk_wf
    | with_reducible apply setTally_wf
    | with_reducible apply wf_ite
    | simp only [wf_mk]
    | with_reducible apply keeps_of
    | (extract_lets x; first | (refine wf_cut (Keep qk x = true) ?_ ?_; focus (subst x); rotate_left; focus (intro hx; generalize x = y at hx ⊢)) | skip)

theorem sendParams_wf {qk : Kept} {s : State} {id : Nat} (h_s : Keep qk s = true) : Keep qk (sendParams s id) = true := by
  unfold sendParams
  repeat' first
    | with_reducible assumption
    | with_reducible intro _
    | with_reducible apply setBar_wf
    | with_reducible apply sendParam_wf
    | with_reducible apply wf_forEach
    | simp only [wf_mk]
    | with_reducible apply keeps_of
    | (extract_lets x; first | (refine wf_cut (Keep qk x = true) ?_ ?_; focus (subst x); rotate_left; focus (intro hx; generalize x = y at hx ⊢)) | skip)
    | dsimp -zeta only

theorem sendCommits_wf {qk : Kept} {s : State} {id : Nat} (h_s : Keep qk s = true) : Keep qk (sendCommits s id) = true := by
  unfold sendCommits
  repeat' first
    | with_reducible assumption
    | with_reducible intro _
    | with_reducible apply barCmd_wf
    | with_reducible apply wf_forEach
    | simp only [wf_mk]
    | with_reducible apply keeps_of
    | (extract_lets x; first | (refine wf_cut (Keep qk x = true) ?_ ?_; focus (subst x); rotate_left; focus (intro hx; generalize x = y at hx ⊢)) | skip)

end Sys2Proof.Machine
end

