-- ==== Sys2Proof/Laws/KeepsCoordinator.lean ====
section
/-! SUPPORT. The operations of Machine/Coordinator.lean keep what `Keep` names. -/

namespace Sys2Proof.Machine
open Sys2Proof
set_option linter.all false
set_option simprocs false

theorem noteDecision_wf {qk : Kept} {s : State} {d : StkDecision} (h_s : Keep qk s = true) : Keep qk (noteDecision s d) = true := by
  unfold noteDecision
  repeat' first
    | with_reducible assumption
    | with_reducible intro _
    | simp only [wf_mk]
    | with_reducible apply keeps_of
    | (extract_lets x; first | (refine wf_cut (Keep qk x = true) ?_ ?_; focus (subst x); rotate_left; focus (intro hx; generalize x = y at hx ⊢)) | skip)

theorem acceptPart_wf {qk : Kept} {s : State} {id : Nat} (h_s : Keep qk s = true) : Keep qk (acceptPart s id) = true := by
  unfold acceptPart
  repeat' first
    | with_reducible assumption
    | with_reducible intro _
    | with_reducible apply finishOpt_wf
    | with_reducible apply setTally_wf
    | with_reducible apply setTyState_wf
    | with_reducible apply setTyTarget_wf
    | with_reducible apply sendParams_wf
    | with_reducible apply wf_ite
    | simp only [wf_mk]
    | with_reducible apply keeps_of
    | (extract_lets x; first | (refine wf_cut (Keep qk x = true) ?_ ?_; focus (subst x); rotate_left; focus (intro hx; generalize x = y at hx ⊢)) | skip)

theorem decidePart_wf {qk : Kept} {s : State} {xid : Nat} {commit : Bool} (h_s : Keep qk s = true) : Keep qk (decidePart s xid commit) = true := by
  unfold decidePart
  repeat' first
    | with_reducible assumption
    | with_reducible intro _
    | with_reducible apply stkAnswered_wf
    | with_reducible apply abortTally_wf
    | with_reducible apply acceptPart_wf
    | with_reducible apply wf_ite
    | simp only [wf_mk]
    | with_reducible apply keeps_of
    | (extract_lets x; first | (refine wf_cut (Keep qk x = true) ?_ ?_; focus (subst x); rotate_left; focus (intro hx; generalize x = y at hx ⊢)) | skip)
    | split

theorem announce_wf {qk : Kept} {s : State} {d : StkDecision} (h_s : Keep qk s = true) : Keep qk (announce s d) = true := by
  unfold announce
  repeat' first
    | with_reducible assumption
    | with_reducible intro _
    | with_reducible apply stkAsk_wf
    | with_reducible apply stkAnswered_wf
    | with_reducible apply noteDecision_wf
    | with_reducible apply decidePart_wf
    | simp only [wf_mk]
    | with_reducible apply keeps_of
    | (extract_lets x; first | (refine wf_cut (Keep qk x = true) ?_ ?_; focus (subst x); rotate_left; focus (intro hx; generalize x = y at hx ⊢)) | skip)

theorem coordinate_wf {qk : Kept} {s : State} (h_s : Keep qk s = true) : Keep qk (coordinate s) = true := by
  unfold coordinate
  repeat' first
    | with_reducible assumption
    | with_reducible intro _
    | with_reducible apply stkAsk_wf
    | with_reducible apply announce_wf
    | with_reducible apply wf_forEach
    | with_reducible apply wf_ite
    | simp only [wf_mk]
    | with_reducible apply keeps_of
    | (extract_lets x; first | (refine wf_cut (Keep qk x = true) ?_ ?_; focus (subst x); rotate_left; focus (intro hx; generalize x = y at hx ⊢)) | skip)
    | split

theorem sendAnswer_wf {qk : Kept} {s : State} {dst xid : Nat} {commit unknown : Bool} (h_s : Keep qk s = true) : Keep qk (sendAnswer s dst xid commit unknown) = true := by
  unfold sendAnswer
  repeat' first
    | with_reducible assumption
    | with_reducible intro _
    | with_reducible apply stkSend_wf
    | simp only [wf_mk]
    | with_reducible apply keeps_of
    | (extract_lets x; first | (refine wf_cut (Keep qk x = true) ?_ ?_; focus (subst x); rotate_left; focus (intro hx; generalize x = y at hx ⊢)) | skip)

theorem answerDecision_wf {qk : Kept} {s : State} {asker xid : Nat} (h_s : Keep qk s = true) : Keep qk (answerDecision s asker xid) = true := by
  unfold answerDecision
  repeat' first
    | with_reducible assumption
    | with_reducible intro _
    | with_reducible apply stkAsk_wf
    | with_reducible apply noteDecision_wf
    | with_reducible apply decidePart_wf
    | with_reducible apply sendAnswer_wf
    | with_reducible apply wf_forEach
    | with_reducible apply wf_ite
    | simp only [wf_mk]
    | with_reducible apply keeps_of
    | (extract_lets x; first | (refine wf_cut (Keep qk x = true) ?_ ?_; focus (subst x); rotate_left; focus (intro hx; generalize x = y at hx ⊢)) | skip)
    | split

theorem queryPart_wf {qk : Kept} {s : State} {id : Nat} (h_s : Keep qk s = true) : Keep qk (queryPart s id) = true := by
  unfold queryPart
  repeat' first
    | with_reducible assumption
    | with_reducible intro _
    | with_reducible apply stkAsk_wf
    | with_reducible apply stkAnswered_wf
    | with_reducible apply setTally_wf
    | with_reducible apply answerDecision_wf
    | with_reducible apply wf_ite
    | simp only [wf_mk]
    | with_reducible apply keeps_of
    | (extract_lets x; first | (refine wf_cut (Keep qk x = true) ?_ ?_; focus (subst x); rotate_left; focus (intro hx; generalize x = y at hx ⊢)) | skip)

theorem sendSubscribe_wf {qk : Kept} {s : State} {src : Nat} {on : Bool} (h_s : Keep qk s = true) : Keep qk (sendSubscribe s src on) = true := by
  unfold sendSubscribe
  repeat' first
    | with_reducible assumption
    | with_reducible intro _
    | with_reducible apply stkSend_wf
    | simp only [wf_mk]
    | with_reducible apply keeps_of
    | (extract_lets x; first | (refine wf_cut (Keep qk x = true) ?_ ?_; focus (subst x); rotate_left; focus (intro hx; generalize x = y at hx ⊢)) | skip)

theorem mapChanged_wf {qk : Kept} {s0 s : State} {c : Nat} (h_s0 : Keep qk s0 = true) (h_s : Keep qk s = true) : Keep qk (mapChanged s0 s c) = true := by
  unfold mapChanged
  repeat' first
    | with_reducible assumption
    | with_reducible intro _
    | with_reducible apply sendSubscribe_wf
    | with_reducible apply wf_ite
    | simp only [wf_mk]
    | with_reducible apply keeps_of
    | (extract_lets x; first | (refine wf_cut (Keep qk x = true) ?_ ?_; focus (subst x); rotate_left; focus (intro hx; generalize x = y at hx ⊢)) | skip)
    | dsimp -zeta only
    | split

end Sys2Proof.Machine
end

