-- ==== Sys2Proof/Laws/KeepsTally.lean ====
section
/-! SUPPORT. The operations of Machine/Tally.lean keep what `Keep` names. -/

namespace Sys2Proof.Machine
open Sys2Proof
set_option linter.all false
set_option simprocs false

theorem onTally_wf {qk : Kept} {s : State} {d : DescRef} {op : Nat} {f : State → List Byte → Nat → State} (h_s : Keep qk s = true) (h_f : ∀ (a0 : State) (a1 : List Byte) (a2 : Nat), Keep qk a0 = true → Keep qk (f a0 a1 a2) = true) : OW qk (onTally s d op f) := by
  unfold onTally
  repeat' first
    | with_reducible assumption
    | with_reducible intro _
    | with_reducible apply h_f
    | with_reducible apply of_pw
    | with_reducible apply finish_wf
    | with_reducible apply onDesc_wf
    | with_reducible apply ow_ite
    | with_reducible apply wf_ite
    | with_reducible apply ow_next
    | simp only [wf_mk]
    | with_reducible apply keeps_of
    | (extract_lets x; first | (refine wf_cut (Keep qk x = true) ?_ ?_; focus (subst x); rotate_left; focus (intro hx; generalize x = y at hx ⊢)) | skip)

theorem openTally_wf {qk : Kept} {s : State} {id : Nat} (h_s : Keep qk s = true) : Keep qk (openTally s id) = true := by
  unfold openTally
  repeat' first
    | with_reducible assumption
    | with_reducible intro _
    | with_reducible apply wr_wf
    | with_reducible apply setTally_wf
    | with_reducible apply setTyState_wf
    | with_reducible apply setTyTarget_wf
    | simp only [wf_mk]
    | with_reducible apply keeps_of
    | (extract_lets x; first | (refine wf_cut (Keep qk x = true) ?_ ?_; focus (subst x); rotate_left; focus (intro hx; generalize x = y at hx ⊢)) | skip)

theorem execTallyOpen_wf {qk : Kept} {d : DescRef} {s : State} (h_s : Keep qk s = true) : OW qk (execTallyOpen d s) := by
  unfold execTallyOpen
  repeat' first
    | with_reducible assumption
    | with_reducible intro _
    | with_reducible apply finish_wf
    | with_reducible apply onTally_wf
    | with_reducible apply openTally_wf
    | with_reducible apply ow_ite
    | with_reducible apply wf_ite
    | with_reducible apply ow_next
    | simp only [wf_mk]
    | with_reducible apply keeps_of
    | (extract_lets x; first | (refine wf_cut (Keep qk x = true) ?_ ?_; focus (subst x); rotate_left; focus (intro hx; generalize x = y at hx ⊢)) | skip)

theorem writeRecords_wf {qk : Kept} {s : State} {d : Option DescRef} {id count : Nat} {bs : List Byte} (h_s : Keep qk s = true) : Keep qk (writeRecords s d id count bs) = true := by
  unfold writeRecords
  repeat' first
    | with_reducible assumption
    | with_reducible intro _
    | with_reducible apply finishOpt_wf
    | with_reducible apply setTally_wf
    | with_reducible apply countRecords_wf
    | with_reducible apply abortTally_wf
    | with_reducible apply wf_ite
    | simp only [wf_mk]
    | with_reducible apply keeps_of
    | (extract_lets x; first | (refine wf_cut (Keep qk x = true) ?_ ?_; focus (subst x); rotate_left; focus (intro hx; generalize x = y at hx ⊢)) | skip)
    | split

theorem execTallyWrite_wf {qk : Kept} {d : DescRef} {data : Option (List Byte)} {s : State} (h_s : Keep qk s = true) : OW qk (execTallyWrite d data s) := by
  unfold execTallyWrite
  repeat' first
    | with_reducible assumption
    | with_reducible intro _
    | with_reducible apply finish_wf
    | with_reducible apply withInput_wf
    | with_reducible apply onTally_wf
    | with_reducible apply writeRecords_wf
    | with_reducible apply ow_ite
    | with_reducible apply wf_ite
    | with_reducible apply ow_next
    | simp only [wf_mk]
    | with_reducible apply keeps_of
    | (extract_lets x; first | (refine wf_cut (Keep qk x = true) ?_ ?_; focus (subst x); rotate_left; focus (intro hx; generalize x = y at hx ⊢)) | skip)

theorem validateCommit_wf {qk : Kept} {s : State} {id : Nat} {stack : Bool} (h_s : Keep qk s = true) : Keep qk (validateCommit s id stack) = true := by
  unfold validateCommit
  repeat' first
    | with_reducible assumption
    | with_reducible intro _
    | with_reducible apply setTyState_wf
    | with_reducible apply sendVote_wf
    | with_reducible apply abortTally_wf
    | with_reducible apply sendParams_wf
    | with_reducible apply wf_ite
    | simp only [wf_mk]
    | with_reducible apply keeps_of
    | (extract_lets x; first | (refine wf_cut (Keep qk x = true) ?_ ?_; focus (subst x); rotate_left; focus (intro hx; generalize x = y at hx ⊢)) | skip)

theorem commitTally_wf {qk : Kept} {s : State} {id : Nat} {ref : Option DescRef} {mode : Nat} {stack lateOk carry : Bool} {want xid mask : Nat} (h_s : Keep qk s = true) : Keep qk (commitTally s id ref mode stack lateOk carry want xid mask) = true := by
  unfold commitTally
  repeat' first
    | with_reducible assumption
    | with_reducible intro _
    | with_reducible apply wr_wf
    | with_reducible apply rput_wf
    | with_reducible apply setTally_wf
    | with_reducible apply setTyTarget_wf
    | with_reducible apply abortTally_wf
    | with_reducible apply coordinate_wf
    | with_reducible apply validateCommit_wf
    | with_reducible apply wf_ite
    | simp only [wf_mk]
    | with_reducible apply keeps_of
    | (extract_lets x; first | (refine wf_cut (Keep qk x = true) ?_ ?_; focus (subst x); rotate_left; focus (intro hx; generalize x = y at hx ⊢)) | skip)

theorem execTallyCommit_wf {qk : Kept} {d : DescRef} {s : State} (h_s : Keep qk s = true) : OW qk (execTallyCommit d s) := by
  unfold execTallyCommit
  repeat' first
    | with_reducible assumption
    | with_reducible intro _
    | with_reducible apply finish_wf
    | with_reducible apply onTally_wf
    | with_reducible apply commitTally_wf
    | with_reducible apply ow_ite
    | with_reducible apply wf_ite
    | with_reducible apply ow_next
    | simp only [wf_mk]
    | with_reducible apply keeps_of
    | (extract_lets x; first | (refine wf_cut (Keep qk x = true) ?_ ?_; focus (subst x); rotate_left; focus (intro hx; generalize x = y at hx ⊢)) | skip)

theorem execTallyAbort_wf {qk : Kept} {d : DescRef} {s : State} (h_s : Keep qk s = true) : OW qk (execTallyAbort d s) := by
  unfold execTallyAbort
  repeat' first
    | with_reducible assumption
    | with_reducible intro _
    | with_reducible apply finish_wf
    | with_reducible apply setTally_wf
    | with_reducible apply sendVote_wf
    | with_reducible apply abortTally_wf
    | with_reducible apply coordinate_wf
    | with_reducible apply onTally_wf
    | with_reducible apply ow_ite
    | with_reducible apply wf_ite
    | with_reducible apply ow_next
    | simp only [wf_mk]
    | with_reducible apply keeps_of
    | (extract_lets x; first | (refine wf_cut (Keep qk x = true) ?_ ?_; focus (subst x); rotate_left; focus (intro hx; generalize x = y at hx ⊢)) | skip)
    | split

theorem enterDoubt_wf {qk : Kept} {s : State} {id : Nat} (h_s : Keep qk s = true) : Keep qk (enterDoubt s id) = true := by
  unfold enterDoubt
  repeat' first
    | with_reducible assumption
    | with_reducible intro _
    | with_reducible apply finishOpt_wf
    | with_reducible apply setTally_wf
    | with_reducible apply setTyState_wf
    | with_reducible apply raise_wf
    | with_reducible apply queryPart_wf
    | simp only [wf_mk]
    | with_reducible apply keeps_of
    | (extract_lets x; first | (refine wf_cut (Keep qk x = true) ?_ ?_; focus (subst x); rotate_left; focus (intro hx; generalize x = y at hx ⊢)) | skip)

theorem failPart_wf {qk : Kept} {s : State} {id cause : Nat} (h_s : Keep qk s = true) : Keep qk (failPart s id cause) = true := by
  unfold failPart
  repeat' first
    | with_reducible assumption
    | with_reducible intro _
    | with_reducible apply failPartWith_wf
    | with_reducible apply raise_wf
    | simp only [wf_mk]
    | with_reducible apply keeps_of
    | (extract_lets x; first | (refine wf_cut (Keep qk x = true) ?_ ?_; focus (subst x); rotate_left; focus (intro hx; generalize x = y at hx ⊢)) | skip)

theorem shadowError_wf {qk : Kept} {s : State} {x : Fin 8 × Nat} (h_s : Keep qk s = true) : Keep qk (shadowError s x) = true := by
  unfold shadowError
  repeat' first
    | with_reducible assumption
    | with_reducible intro _
    | with_reducible apply uncorrectable_wf
    | simp only [wf_mk]
    | with_reducible apply keeps_of
    | (extract_lets x; first | (refine wf_cut (Keep qk x = true) ?_ ?_; focus (subst x); rotate_left; focus (intro hx; generalize x = y at hx ⊢)) | skip)
    | dsimp -zeta only

theorem judgeTally_wf {qk : Kept} {s : State} {id : Nat} (h_s : Keep qk s = true) : Keep qk (judgeTally s id) = true := by
  unfold judgeTally
  repeat' first
    | with_reducible assumption
    | with_reducible intro _
    | with_reducible apply setTally_wf
    | with_reducible apply raise_wf
    | with_reducible apply projectTally_wf
    | with_reducible apply sendCommits_wf
    | with_reducible apply failPart_wf
    | with_reducible apply wf_ite
    | simp only [wf_mk]
    | with_reducible apply keeps_of
    | (extract_lets x; first | (refine wf_cut (Keep qk x = true) ?_ ?_; focus (subst x); rotate_left; focus (intro hx; generalize x = y at hx ⊢)) | skip)

theorem decisionPoint_wf {qk : Kept} {s : State} {n : Nat} (h_s : Keep qk s = true) : Keep qk (decisionPoint s n) = true := by
  unfold decisionPoint
  repeat' first
    | with_reducible assumption
    | with_reducible intro _
    | with_reducible apply enterDoubt_wf
    | with_reducible apply judgeTally_wf
    | with_reducible apply wf_forEach
    | simp only [wf_mk]
    | with_reducible apply keeps_of
    | (extract_lets x; first | (refine wf_cut (Keep qk x = true) ?_ ?_; focus (subst x); rotate_left; focus (intro hx; generalize x = y at hx ⊢)) | skip)

theorem execDecisionPoint_wf {qk : Kept} {bad : List (Fin 8 × Nat)} {s : State} (h_s : Keep qk s = true) : OW qk (execDecisionPoint bad s) := by
  unfold execDecisionPoint
  repeat' first
    | with_reducible assumption
    | with_reducible intro _
    | with_reducible apply onHost_wf
    | with_reducible apply coordinate_wf
    | with_reducible apply shadowError_wf
    | with_reducible apply decisionPoint_wf
    | with_reducible apply wf_forEach
    | with_reducible apply ow_next
    | simp only [wf_mk]
    | with_reducible apply keeps_of
    | (extract_lets x; first | (refine wf_cut (Keep qk x = true) ?_ ?_; focus (subst x); rotate_left; focus (intro hx; generalize x = y at hx ⊢)) | skip)

theorem execInDoubtQuery_wf {qk : Kept} {id : Fin 16} {s : State} (h_s : Keep qk s = true) : OW qk (execInDoubtQuery id s) := by
  unfold execInDoubtQuery
  repeat' first
    | with_reducible assumption
    | with_reducible intro _
    | with_reducible apply onHost_wf
    | with_reducible apply queryPart_wf
    | with_reducible apply ow_ite
    | with_reducible apply wf_ite
    | with_reducible apply ow_next
    | simp only [wf_mk]
    | with_reducible apply keeps_of
    | (extract_lets x; first | (refine wf_cut (Keep qk x = true) ?_ ?_; focus (subst x); rotate_left; focus (intro hx; generalize x = y at hx ⊢)) | skip)

theorem writeFrames_wf {qk : Kept} {s : State} {id : Nat} (h_s : Keep qk s = true) : Keep qk (writeFrames s id) = true := by
  unfold writeFrames
  repeat' first
    | with_reducible assumption
    | with_reducible intro _
    | with_reducible apply frameSet_wf
    | with_reducible apply setTally_wf
    | with_reducible apply wf_forEach
    | with_reducible apply wf_ite
    | simp only [wf_mk]
    | with_reducible apply keeps_of
    | (extract_lets x; first | (refine wf_cut (Keep qk x = true) ?_ ?_; focus (subst x); rotate_left; focus (intro hx; generalize x = y at hx ⊢)) | skip)

theorem execExportWindowEnd_wf {qk : Kept} {s : State} (h_s : Keep qk s = true) : OW qk (execExportWindowEnd s) := by
  unfold execExportWindowEnd
  repeat' first
    | with_reducible assumption
    | with_reducible intro _
    | with_reducible apply onHost_wf
    | with_reducible apply writeFrames_wf
    | with_reducible apply wf_forEach
    | with_reducible apply ow_ite
    | with_reducible apply wf_ite
    | with_reducible apply ow_next
    | simp only [wf_mk]
    | with_reducible apply keeps_of
    | (extract_lets x; first | (refine wf_cut (Keep qk x = true) ?_ ?_; focus (subst x); rotate_left; focus (intro hx; generalize x = y at hx ⊢)) | skip)

theorem settleTallies_wf {qk : Kept} {s : State} {n : Nat} (h_s : Keep qk s = true) : Keep qk (settleTallies s n) = true := by
  unfold settleTallies
  repeat' first
    | with_reducible assumption
    | with_reducible intro _
    | with_reducible apply abortTally_wf
    | with_reducible apply enterDoubt_wf
    | with_reducible apply decisionPoint_wf
    | with_reducible apply wf_forEach
    | with_reducible apply wf_ite
    | simp only [wf_mk]
    | with_reducible apply keeps_of
    | (extract_lets x; first | (refine wf_cut (Keep qk x = true) ?_ ?_; focus (subst x); rotate_left; focus (intro hx; generalize x = y at hx ⊢)) | skip)

theorem tallyCarry_wf {qk : Kept} {s : State} {n : Nat} (h_s : Keep qk s = true) : Keep qk (tallyCarry s n) = true := by
  unfold tallyCarry
  repeat' first
    | with_reducible assumption
    | with_reducible intro _
    | with_reducible apply fireWith_wf
    | with_reducible apply raise_wf
    | with_reducible apply wf_ite
    | simp only [wf_mk]
    | with_reducible apply keeps_of
    | (extract_lets x; first | (refine wf_cut (Keep qk x = true) ?_ ?_; focus (subst x); rotate_left; focus (intro hx; generalize x = y at hx ⊢)) | skip)

theorem entryChanged_wf {qk : Kept} {s0 s : State} {table entry n : Nat} {words : List Nat} (h_s0 : Keep qk s0 = true) (h_s : Keep qk s = true) : Keep qk (entryChanged s0 s table entry n words) = true := by
  unfold entryChanged
  repeat' first
    | with_reducible assumption
    | with_reducible intro _
    | with_reducible apply rxStreamChanged_wf
    | with_reducible apply txStreamChanged_wf
    | with_reducible apply lineChanged_wf
    | with_reducible apply tapChanged_wf
    | with_reducible apply routeChanged_wf
    | with_reducible apply xpChanged_wf
    | with_reducible apply busChanged_wf
    | with_reducible apply hpfChanged_wf
    | with_reducible apply mapChanged_wf
    | simp only [wf_mk]
    | with_reducible apply keeps_of
    | (extract_lets x; first | (refine wf_cut (Keep qk x = true) ?_ ?_; focus (subst x); rotate_left; focus (intro hx; generalize x = y at hx ⊢)) | skip)
    | split

theorem applyEntries_wf {qk : Kept} {s : State} {rs : List TallyRec} {n : Nat} (h_s : Keep qk s = true) : Keep qk (applyEntries s rs n) = true := by
  unfold applyEntries
  repeat' first
    | with_reducible assumption
    | with_reducible intro _
    | with_reducible apply writePword_wf
    | with_reducible apply takeUp_wf
    | with_reducible apply entryChanged_wf
    | with_reducible apply wf_forEach
    | with_reducible apply wf_ite
    | simp only [wf_mk]
    | with_reducible apply keeps_of
    | (extract_lets x; first | (refine wf_cut (Keep qk x = true) ?_ ?_; focus (subst x); rotate_left; focus (intro hx; generalize x = y at hx ⊢)) | skip)

theorem applyTally_wf {qk : Kept} {s : State} {n id : Nat} (h_s : Keep qk s = true) : Keep qk (applyTally s n id) = true := by
  unfold applyTally
  repeat' first
    | with_reducible assumption
    | with_reducible intro _
    | with_reducible apply rput_wf
    | with_reducible apply rset_wf
    | with_reducible apply finishOpt_wf
    | with_reducible apply freeTally_wf
    | with_reducible apply tallyOutcome_wf
    | with_reducible apply raise_wf
    | with_reducible apply tallyRegWrite_wf
    | with_reducible apply writeFrames_wf
    | with_reducible apply applyEntries_wf
    | with_reducible apply wf_forEach
    | with_reducible apply wf_ite
    | simp only [wf_mk]
    | with_reducible apply keeps_of
    | (extract_lets x; first | (refine wf_cut (Keep qk x = true) ?_ ?_; focus (subst x); rotate_left; focus (intro hx; generalize x = y at hx ⊢)) | skip)

theorem applyTallies_wf {qk : Kept} {s : State} {n : Nat} (h_s : Keep qk s = true) : Keep qk (applyTallies s n) = true := by
  unfold applyTallies
  repeat' first
    | with_reducible assumption
    | with_reducible intro _
    | with_reducible apply applyTally_wf
    | with_reducible apply wf_forEach
    | with_reducible apply wf_ite
    | simp only [wf_mk]
    | with_reducible apply keeps_of
    | (extract_lets x; first | (refine wf_cut (Keep qk x = true) ?_ ?_; focus (subst x); rotate_left; focus (intro hx; generalize x = y at hx ⊢)) | skip)

theorem writeImage_wf {qk : Kept} {s : State} {table entry words wmask : Nat} {image : List Byte} {skip : Word} (h_s : Keep qk s = true) : Keep qk (writeImage s table entry words wmask image skip) = true := by
  unfold writeImage
  repeat' first
    | with_reducible assumption
    | with_reducible intro _
    | with_reducible apply writePword_wf
    | with_reducible apply wf_forEach
    | with_reducible apply wf_ite
    | simp only [wf_mk]
    | with_reducible apply keeps_of
    | (extract_lets x; first | (refine wf_cut (Keep qk x = true) ?_ ?_; focus (subst x); rotate_left; focus (intro hx; generalize x = y at hx ⊢)) | skip)

theorem execRouteCfg_wf {qk : Kept} {d : DescRef} {s : State} (h_s : Keep qk s = true) : OW qk (execRouteCfg d s) := by
  unfold execRouteCfg
  repeat' first
    | with_reducible assumption
    | with_reducible intro _
    | with_reducible apply finish_wf
    | with_reducible apply onDesc_wf
    | with_reducible apply withWaiting_wf
    | with_reducible apply ow_ite
    | with_reducible apply wf_ite
    | with_reducible apply ow_next
    | simp only [wf_mk]
    | with_reducible apply keeps_of
    | (extract_lets x; first | (refine wf_cut (Keep qk x = true) ?_ ?_; focus (subst x); rotate_left; focus (intro hx; generalize x = y at hx ⊢)) | skip)

theorem execStreamCfg_wf {qk : Kept} {d : DescRef} {data : Option (List Byte)} {s : State} (h_s : Keep qk s = true) : OW qk (execStreamCfg d data s) := by
  unfold execStreamCfg
  repeat' first
    | with_reducible assumption
    | with_reducible intro _
    | with_reducible apply finish_wf
    | with_reducible apply onDesc_wf
    | with_reducible apply withInput_wf
    | with_reducible apply writeImage_wf
    | with_reducible apply ow_ite
    | with_reducible apply wf_ite
    | with_reducible apply ow_next
    | simp only [wf_mk]
    | with_reducible apply keeps_of
    | (extract_lets x; first | (refine wf_cut (Keep qk x = true) ?_ ?_; focus (subst x); rotate_left; focus (intro hx; generalize x = y at hx ⊢)) | skip)

end Sys2Proof.Machine
end

