-- ==== Sys2Proof/Laws/KeepsRings.lean ====
section
/-! SUPPORT. The operations of Machine/Rings.lean keep what `Keep` names. -/

namespace Sys2Proof.Machine
open Sys2Proof
set_option linter.all false
set_option simprocs false

theorem setRing_wf {qk : Kept} {s : State} {n : Nat} {q : QpState} (h_s : Keep qk s = true) : Keep qk (setRing s n q) = true := by
  unfold setRing
  repeat' first
    | with_reducible assumption
    | with_reducible intro _
    | with_reducible apply rput_wf
    | with_reducible apply setQp_wf
    | simp only [wf_mk]
    | with_reducible apply keeps_of
    | (extract_lets x; first | (refine wf_cut (Keep qk x = true) ?_ ?_; focus (subst x); rotate_left; focus (intro hx; generalize x = y at hx ⊢)) | skip)

theorem setQpState_wf {qk : Kept} {s : State} {n st : Nat} (h_s : Keep qk s = true) : Keep qk (setQpState s n st) = true := by
  unfold setQpState
  repeat' first
    | with_reducible assumption
    | with_reducible intro _
    | with_reducible apply rput_wf
    | simp only [wf_mk]
    | with_reducible apply keeps_of
    | (extract_lets x; first | (refine wf_cut (Keep qk x = true) ?_ ?_; focus (subst x); rotate_left; focus (intro hx; generalize x = y at hx ⊢)) | skip)

theorem askDoorbell_wf {qk : Kept} {s : State} (h_s : Keep qk s = true) : Keep qk (askDoorbell s) = true := by
  unfold askDoorbell
  repeat' first
    | with_reducible assumption
    | with_reducible intro _
    | with_reducible apply wf_ite
    | simp only [wf_mk]
    | with_reducible apply keeps_of
    | (extract_lets x; first | (refine wf_cut (Keep qk x = true) ?_ ?_; focus (subst x); rotate_left; focus (intro hx; generalize x = y at hx ⊢)) | skip)

theorem dropNetTx_wf {qk : Kept} {s : State} {d : DescRef} (h_s : Keep qk s = true) : Keep qk (dropNetTx s d) = true := by
  unfold dropNetTx
  repeat' first
    | with_reducible assumption
    | with_reducible intro _
    | with_reducible apply setQueue_wf
    | with_reducible apply wf_forEach
    | simp only [wf_mk]
    | with_reducible apply keeps_of
    | (extract_lets x; first | (refine wf_cut (Keep qk x = true) ?_ ?_; focus (subst x); rotate_left; focus (intro hx; generalize x = y at hx ⊢)) | skip)
    | split

theorem abortWaiting_wf {qk : Kept} {s : State} {d : DescRef} {op : Nat} (h_s : Keep qk s = true) : Keep qk (abortWaiting s d op) = true := by
  unfold abortWaiting
  repeat' first
    | with_reducible assumption
    | with_reducible intro _
    | with_reducible apply rclr_wf
    | with_reducible apply finish_wf
    | with_reducible apply dropDiag_wf
    | with_reducible apply disownSweep_wf
    | with_reducible apply setTally_wf
    | with_reducible apply dropNetTx_wf
    | with_reducible apply wf_forEach
    | with_reducible apply wf_ite
    | simp only [wf_mk]
    | with_reducible apply keeps_of
    | (extract_lets x; first | (refine wf_cut (Keep qk x = true) ?_ ?_; focus (subst x); rotate_left; focus (intro hx; generalize x = y at hx ⊢)) | skip)
    | split

theorem abortFlights_wf {qk : Kept} {s : State} {n : Fin 64} (h_s : Keep qk s = true) : Keep qk (abortFlights s n) = true := by
  unfold abortFlights
  repeat' first
    | with_reducible assumption
    | with_reducible intro _
    | with_reducible apply finish_wf
    | with_reducible apply abortWaiting_wf
    | with_reducible apply wf_forEach
    | with_reducible apply wf_ite
    | simp only [wf_mk]
    | with_reducible apply keeps_of
    | (extract_lets x; first | (refine wf_cut (Keep qk x = true) ?_ ?_; focus (subst x); rotate_left; focus (intro hx; generalize x = y at hx ⊢)) | skip)

theorem enterDraining_wf {qk : Kept} {s : State} {n : Fin 64} (h_s : Keep qk s = true) : Keep qk (enterDraining s n) = true := by
  unfold enterDraining
  repeat' first
    | with_reducible assumption
    | with_reducible intro _
    | with_reducible apply rclr_wf
    | with_reducible apply setQp_wf
    | with_reducible apply setQpState_wf
    | with_reducible apply abortFlights_wf
    | simp only [wf_mk]
    | with_reducible apply keeps_of
    | (extract_lets x; first | (refine wf_cut (Keep qk x = true) ?_ ?_; focus (subst x); rotate_left; focus (intro hx; generalize x = y at hx ⊢)) | skip)

theorem enterError_wf {qk : Kept} {s : State} {n : Fin 64} (h_s : Keep qk s = true) : Keep qk (enterError s n) = true := by
  unfold enterError
  repeat' first
    | with_reducible assumption
    | with_reducible intro _
    | with_reducible apply rset_wf
    | with_reducible apply setQp_wf
    | with_reducible apply raise_wf
    | with_reducible apply setQpState_wf
    | with_reducible apply abortFlights_wf
    | simp only [wf_mk]
    | with_reducible apply keeps_of
    | (extract_lets x; first | (refine wf_cut (Keep qk x = true) ?_ ?_; focus (subst x); rotate_left; focus (intro hx; generalize x = y at hx ⊢)) | skip)

theorem settleQueue_wf {qk : Kept} {s : State} {n : Fin 64} (h_s : Keep qk s = true) : Keep qk (settleQueue s n) = true := by
  unfold settleQueue
  repeat' first
    | with_reducible assumption
    | with_reducible intro _
    | with_reducible apply setRing_wf
    | with_reducible apply setQpState_wf
    | with_reducible apply enterDraining_wf
    | with_reducible apply wf_ite
    | simp only [wf_mk]
    | with_reducible apply keeps_of
    | (extract_lets x; first | (refine wf_cut (Keep qk x = true) ?_ ?_; focus (subst x); rotate_left; focus (intro hx; generalize x = y at hx ⊢)) | skip)
    | split

theorem refuseQp_wf {qk : Kept} {s : State} {n : Nat} (h_s : Keep qk s = true) : Keep qk (refuseQp s n) = true := by
  unfold refuseQp
  repeat' first
    | with_reducible assumption
    | with_reducible intro _
    | with_reducible apply rset_wf
    | simp only [wf_mk]
    | with_reducible apply keeps_of
    | (extract_lets x; first | (refine wf_cut (Keep qk x = true) ?_ ?_; focus (subst x); rotate_left; focus (intro hx; generalize x = y at hx ⊢)) | skip)

theorem enableQueue_wf {qk : Kept} {s : State} {n : Fin 64} {recover : Bool} (h_s : Keep qk s = true) : Keep qk (enableQueue s n recover) = true := by
  unfold enableQueue
  repeat' first
    | with_reducible assumption
    | with_reducible intro _
    | with_reducible apply rset_wf
    | with_reducible apply setRing_wf
    | with_reducible apply setQpState_wf
    | with_reducible apply refuseQp_wf
    | with_reducible apply wf_ite
    | simp only [wf_mk]
    | with_reducible apply keeps_of
    | (extract_lets x; first | (refine wf_cut (Keep qk x = true) ?_ ?_; focus (subst x); rotate_left; focus (intro hx; generalize x = y at hx ⊢)) | skip)

theorem writeQpCtrl_wf {qk : Kept} {s : State} {n : Fin 64} {w : Word} (h_s : Keep qk s = true) : Keep qk (writeQpCtrl s n w) = true := by
  unfold writeQpCtrl
  repeat' first
    | with_reducible assumption
    | with_reducible intro _
    | with_reducible apply rput_wf
    | with_reducible apply rclr_wf
    | with_reducible apply setQp_wf
    | with_reducible apply enterDraining_wf
    | with_reducible apply settleQueue_wf
    | with_reducible apply refuseQp_wf
    | with_reducible apply enableQueue_wf
    | with_reducible apply wf_ite
    | simp only [wf_mk]
    | with_reducible apply keeps_of
    | (extract_lets x; first | (refine wf_cut (Keep qk x = true) ?_ ?_; focus (subst x); rotate_left; focus (intro hx; generalize x = y at hx ⊢)) | skip)

theorem writeQpReg_wf {qk : Kept} {s : State} {n a : Nat} {keep w : Word} (h_s : Keep qk s = true) : Keep qk (writeQpReg s n a keep w) = true := by
  unfold writeQpReg
  repeat' first
    | with_reducible assumption
    | with_reducible intro _
    | with_reducible apply rwrite_wf
    | with_reducible apply refuseQp_wf
    | with_reducible apply wf_ite
    | simp only [wf_mk]
    | with_reducible apply keeps_of
    | (extract_lets x; first | (refine wf_cut (Keep qk x = true) ?_ ?_; focus (subst x); rotate_left; focus (intro hx; generalize x = y at hx ⊢)) | skip)

theorem takeDoorbell_wf {qk : Kept} {s : State} {n : Fin 64} {e read : Nat} (h_s : Keep qk s = true) : Keep qk (takeDoorbell s n e read) = true := by
  unfold takeDoorbell
  repeat' first
    | with_reducible assumption
    | with_reducible intro _
    | with_reducible apply setQp_wf
    | with_reducible apply holdHifError_wf
    | with_reducible apply enterError_wf
    | with_reducible apply settleQueue_wf
    | with_reducible apply wf_ite
    | simp only [wf_mk]
    | with_reducible apply keeps_of
    | (extract_lets x; first | (refine wf_cut (Keep qk x = true) ?_ ?_; focus (subst x); rotate_left; focus (intro hx; generalize x = y at hx ⊢)) | skip)

theorem hostHifKick_wf {qk : Kept} {w : Word} {s : State} (h_s : Keep qk s = true) : Keep qk (hostHifKick w s) = true := by
  unfold hostHifKick
  repeat' first
    | with_reducible assumption
    | with_reducible intro _
    | with_reducible apply askDoorbell_wf
    | with_reducible apply wf_ite
    | simp only [wf_mk]
    | with_reducible apply keeps_of
    | (extract_lets x; first | (refine wf_cut (Keep qk x = true) ?_ ?_; focus (subst x); rotate_left; focus (intro hx; generalize x = y at hx ⊢)) | skip)

theorem execHifKick_wf {qk : Kept} {w : Word} {s : State} (h_s : Keep qk s = true) : OW qk (execHifKick w s) := by
  unfold execHifKick
  repeat' first
    | with_reducible assumption
    | with_reducible intro _
    | with_reducible apply onBar_wf
    | with_reducible apply hostHifKick_wf
    | with_reducible apply ow_next
    | simp only [wf_mk]
    | with_reducible apply keeps_of
    | (extract_lets x; first | (refine wf_cut (Keep qk x = true) ?_ ?_; focus (subst x); rotate_left; focus (intro hx; generalize x = y at hx ⊢)) | skip)

theorem readDoorbell_wf {qk : Kept} {s : State} {page : Option (List Byte)} (h_s : Keep qk s = true) : Keep qk (readDoorbell s page) = true := by
  unfold readDoorbell
  repeat' first
    | with_reducible assumption
    | with_reducible intro _
    | with_reducible apply raise_wf
    | with_reducible apply holdHifError_wf
    | with_reducible apply takeDoorbell_wf
    | with_reducible apply wf_forEach
    | with_reducible apply wf_ite
    | simp only [wf_mk]
    | with_reducible apply keeps_of
    | (extract_lets x; first | (refine wf_cut (Keep qk x = true) ?_ ?_; focus (subst x); rotate_left; focus (intro hx; generalize x = y at hx ⊢)) | skip)
    | split

theorem execDoorbellRead_wf {qk : Kept} {page : Option (List Byte)} {s : State} (h_s : Keep qk s = true) : OW qk (execDoorbellRead page s) := by
  unfold execDoorbellRead
  repeat' first
    | with_reducible assumption
    | with_reducible intro _
    | with_reducible apply onHost_wf
    | with_reducible apply readDoorbell_wf
    | with_reducible apply ow_next
    | simp only [wf_mk]
    | with_reducible apply keeps_of
    | (extract_lets x; first | (refine wf_cut (Keep qk x = true) ?_ ?_; focus (subst x); rotate_left; focus (intro hx; generalize x = y at hx ⊢)) | skip)

theorem addFlight_wf {qk : Kept} {s : State} {n : Nat} {bytes : List Byte} {result : Option (Nat × Nat)} (h_s : Keep qk s = true) : Keep qk (addFlight s n bytes result) = true := by
  unfold addFlight
  repeat' first
    | with_reducible assumption
    | with_reducible intro _
    | with_reducible apply setRing_wf
    | with_reducible apply wf_ite
    | simp only [wf_mk]
    | with_reducible apply keeps_of
    | (extract_lets x; first | (refine wf_cut (Keep qk x = true) ?_ ?_; focus (subst x); rotate_left; focus (intro hx; generalize x = y at hx ⊢)) | skip)

theorem fetchNext_wf {qk : Kept} {s : State} {n : Fin 64} {bytes : Option (List Byte)} {bufferBad : Bool} (h_s : Keep qk s = true) : Keep qk (fetchNext s n bytes bufferBad) = true := by
  unfold fetchNext
  repeat' first
    | with_reducible assumption
    | with_reducible intro _
    | with_reducible apply raise_wf
    | with_reducible apply holdHifError_wf
    | with_reducible apply enterError_wf
    | with_reducible apply settleQueue_wf
    | with_reducible apply addFlight_wf
    | with_reducible apply wf_ite
    | simp only [wf_mk]
    | with_reducible apply keeps_of
    | (extract_lets x; first | (refine wf_cut (Keep qk x = true) ?_ ?_; focus (subst x); rotate_left; focus (intro hx; generalize x = y at hx ⊢)) | skip)
    | split

theorem execDescriptorFetch_wf {qk : Kept} {q : Fin 64} {bytes : Option (List Byte)} {bufferBad : Bool} {s : State} (h_s : Keep qk s = true) : OW qk (execDescriptorFetch q bytes bufferBad s) := by
  unfold execDescriptorFetch
  repeat' first
    | with_reducible assumption
    | with_reducible intro _
    | with_reducible apply onHost_wf
    | with_reducible apply fetchNext_wf
    | with_reducible apply ow_next
    | simp only [wf_mk]
    | with_reducible apply keeps_of
    | (extract_lets x; first | (refine wf_cut (Keep qk x = true) ?_ ?_; focus (subst x); rotate_left; focus (intro hx; generalize x = y at hx ⊢)) | skip)

theorem signalQueue_wf {qk : Kept} {s : State} {n : Nat} (h_s : Keep qk s = true) : Keep qk (signalQueue s n) = true := by
  unfold signalQueue
  repeat' first
    | with_reducible assumption
    | with_reducible intro _
    | with_reducible apply setQp_wf
    | with_reducible apply msixSignal_wf
    | simp only [wf_mk]
    | with_reducible apply keeps_of
    | (extract_lets x; first | (refine wf_cut (Keep qk x = true) ?_ ?_; focus (subst x); rotate_left; focus (intro hx; generalize x = y at hx ⊢)) | skip)

theorem countCompletion_wf {qk : Kept} {s : State} {n : Nat} {irq : Bool} (h_s : Keep qk s = true) : Keep qk (countCompletion s n irq) = true := by
  unfold countCompletion
  repeat' first
    | with_reducible assumption
    | with_reducible intro _
    | with_reducible apply setQp_wf
    | with_reducible apply signalQueue_wf
    | with_reducible apply wf_ite
    | simp only [wf_mk]
    | with_reducible apply keeps_of
    | (extract_lets x; first | (refine wf_cut (Keep qk x = true) ?_ ?_; focus (subst x); rotate_left; focus (intro hx; generalize x = y at hx ⊢)) | skip)

theorem putEntry_wf {qk : Kept} {s : State} {addr : Nat} {bs : List Byte} (h_s : Keep qk s = true) : Keep qk (putEntry s addr bs) = true := by
  unfold putEntry
  repeat' first
    | with_reducible assumption
    | with_reducible intro _
    | with_reducible apply hostWrite_wf
    | with_reducible apply wf_ite
    | simp only [wf_mk]
    | with_reducible apply keeps_of
    | (extract_lets x; first | (refine wf_cut (Keep qk x = true) ?_ ?_; focus (subst x); rotate_left; focus (intro hx; generalize x = y at hx ⊢)) | skip)

theorem writeCompletion_wf {qk : Kept} {s : State} {n : Fin 64} (h_s : Keep qk s = true) : Keep qk (writeCompletion s n) = true := by
  unfold writeCompletion
  repeat' first
    | with_reducible assumption
    | with_reducible intro _
    | with_reducible apply setRing_wf
    | with_reducible apply settleQueue_wf
    | with_reducible apply countCompletion_wf
    | with_reducible apply putEntry_wf
    | with_reducible apply wf_ite
    | simp only [wf_mk]
    | with_reducible apply keeps_of
    | (extract_lets x; first | (refine wf_cut (Keep qk x = true) ?_ ?_; focus (subst x); rotate_left; focus (intro hx; generalize x = y at hx ⊢)) | skip)
    | dsimp -zeta only
    | split

theorem execCompletionWrite_wf {qk : Kept} {q : Fin 64} {s : State} (h_s : Keep qk s = true) : OW qk (execCompletionWrite q s) := by
  unfold execCompletionWrite
  repeat' first
    | with_reducible assumption
    | with_reducible intro _
    | with_reducible apply onHost_wf
    | with_reducible apply writeCompletion_wf
    | with_reducible apply ow_next
    | simp only [wf_mk]
    | with_reducible apply keeps_of
    | (extract_lets x; first | (refine wf_cut (Keep qk x = true) ?_ ?_; focus (subst x); rotate_left; focus (intro hx; generalize x = y at hx ⊢)) | skip)

theorem execModTimeExpiry_wf {qk : Kept} {q : Fin 64} {s : State} (h_s : Keep qk s = true) : OW qk (execModTimeExpiry q s) := by
  unfold execModTimeExpiry
  repeat' first
    | with_reducible assumption
    | with_reducible intro _
    | with_reducible apply onHost_wf
    | with_reducible apply signalQueue_wf
    | with_reducible apply ow_ite
    | with_reducible apply wf_ite
    | with_reducible apply ow_next
    | simp only [wf_mk]
    | with_reducible apply keeps_of
    | (extract_lets x; first | (refine wf_cut (Keep qk x = true) ?_ ?_; focus (subst x); rotate_left; focus (intro hx; generalize x = y at hx ⊢)) | skip)

theorem hostQueueEnable_wf {qk : Kept} {q : Fin 64} {w : Word} {s : State} (h_s : Keep qk s = true) : Keep qk (hostQueueEnable q w s) = true := by
  unfold hostQueueEnable
  repeat' first
    | with_reducible assumption
    | with_reducible intro _
    | with_reducible apply writeQpCtrl_wf
    | simp only [wf_mk]
    | with_reducible apply keeps_of
    | (extract_lets x; first | (refine wf_cut (Keep qk x = true) ?_ ?_; focus (subst x); rotate_left; focus (intro hx; generalize x = y at hx ⊢)) | skip)

theorem execQueueEnable_wf {qk : Kept} {q : Fin 64} {w : Word} {s : State} (h_s : Keep qk s = true) : OW qk (execQueueEnable q w s) := by
  unfold execQueueEnable
  repeat' first
    | with_reducible assumption
    | with_reducible intro _
    | with_reducible apply onBar_wf
    | with_reducible apply hostQueueEnable_wf
    | with_reducible apply ow_next
    | simp only [wf_mk]
    | with_reducible apply keeps_of
    | (extract_lets x; first | (refine wf_cut (Keep qk x = true) ?_ ?_; focus (subst x); rotate_left; focus (intro hx; generalize x = y at hx ⊢)) | skip)

theorem hostQueueRecover_wf {qk : Kept} {q : Fin 64} {w : Word} {s : State} (h_s : Keep qk s = true) : Keep qk (hostQueueRecover q w s) = true := by
  unfold hostQueueRecover
  repeat' first
    | with_reducible assumption
    | with_reducible intro _
    | with_reducible apply writeQpCtrl_wf
    | simp only [wf_mk]
    | with_reducible apply keeps_of
    | (extract_lets x; first | (refine wf_cut (Keep qk x = true) ?_ ?_; focus (subst x); rotate_left; focus (intro hx; generalize x = y at hx ⊢)) | skip)

theorem execQueueRecover_wf {qk : Kept} {q : Fin 64} {w : Word} {s : State} (h_s : Keep qk s = true) : OW qk (execQueueRecover q w s) := by
  unfold execQueueRecover
  repeat' first
    | with_reducible assumption
    | with_reducible intro _
    | with_reducible apply onBar_wf
    | with_reducible apply hostQueueRecover_wf
    | with_reducible apply ow_next
    | simp only [wf_mk]
    | with_reducible apply keeps_of
    | (extract_lets x; first | (refine wf_cut (Keep qk x = true) ?_ ?_; focus (subst x); rotate_left; focus (intro hx; generalize x = y at hx ⊢)) | skip)

theorem hostQueueDisable_wf {qk : Kept} {q : Fin 64} {w : Word} {s : State} (h_s : Keep qk s = true) : Keep qk (hostQueueDisable q w s) = true := by
  unfold hostQueueDisable
  repeat' first
    | with_reducible assumption
    | with_reducible intro _
    | with_reducible apply writeQpCtrl_wf
    | simp only [wf_mk]
    | with_reducible apply keeps_of
    | (extract_lets x; first | (refine wf_cut (Keep qk x = true) ?_ ?_; focus (subst x); rotate_left; focus (intro hx; generalize x = y at hx ⊢)) | skip)

theorem execQueueDisable_wf {qk : Kept} {q : Fin 64} {w : Word} {s : State} (h_s : Keep qk s = true) : OW qk (execQueueDisable q w s) := by
  unfold execQueueDisable
  repeat' first
    | with_reducible assumption
    | with_reducible intro _
    | with_reducible apply onBar_wf
    | with_reducible apply hostQueueDisable_wf
    | with_reducible apply ow_next
    | simp only [wf_mk]
    | with_reducible apply keeps_of
    | (extract_lets x; first | (refine wf_cut (Keep qk x = true) ?_ ?_; focus (subst x); rotate_left; focus (intro hx; generalize x = y at hx ⊢)) | skip)

theorem execBar0NarrowWrite_wf {qk : Kept} {s : State} (h_s : Keep qk s = true) : OW qk (execBar0NarrowWrite s) := by
  unfold execBar0NarrowWrite
  repeat' first
    | with_reducible assumption
    | with_reducible intro _
    | with_reducible apply rset_wf
    | with_reducible apply onHost_wf
    | with_reducible apply raise_wf
    | with_reducible apply ow_next
    | simp only [wf_mk]
    | with_reducible apply keeps_of
    | (extract_lets x; first | (refine wf_cut (Keep qk x = true) ?_ ?_; focus (subst x); rotate_left; focus (intro hx; generalize x = y at hx ⊢)) | skip)

theorem execNop_wf {qk : Kept} {d : DescRef} {s : State} (h_s : Keep qk s = true) : OW qk (execNop d s) := by
  unfold execNop
  repeat' first
    | with_reducible assumption
    | with_reducible intro _
    | with_reducible apply finish_wf
    | with_reducible apply onDesc_wf
    | with_reducible apply ow_next
    | simp only [wf_mk]
    | with_reducible apply keeps_of
    | (extract_lets x; first | (refine wf_cut (Keep qk x = true) ?_ ?_; focus (subst x); rotate_left; focus (intro hx; generalize x = y at hx ⊢)) | skip)

theorem execFence_wf {qk : Kept} {d : DescRef} {s : State} (h_s : Keep qk s = true) : OW qk (execFence d s) := by
  unfold execFence
  repeat' first
    | with_reducible assumption
    | with_reducible intro _
    | with_reducible apply finish_wf
    | with_reducible apply onDesc_wf
    | with_reducible apply ow_next
    | simp only [wf_mk]
    | with_reducible apply keeps_of
    | (extract_lets x; first | (refine wf_cut (Keep qk x = true) ?_ ?_; focus (subst x); rotate_left; focus (intro hx; generalize x = y at hx ⊢)) | skip)

theorem readTable_wf {qk : Kept} {s : State} {d : DescRef} {bs : List Byte} (h_s : Keep qk s = true) : Keep qk (readTable s d bs) = true := by
  unfold readTable
  repeat' first
    | with_reducible assumption
    | with_reducible intro _
    | with_reducible apply hostWrite_wf
    | with_reducible apply finish_wf
    | with_reducible apply wf_ite
    | simp only [wf_mk]
    | with_reducible apply keeps_of
    | (extract_lets x; first | (refine wf_cut (Keep qk x = true) ?_ ?_; focus (subst x); rotate_left; focus (intro hx; generalize x = y at hx ⊢)) | skip)
    | split

theorem onBarrier_wf {qk : Kept} {s : State} {d : DescRef} {die : Die} {f : State → State} (h_s : Keep qk s = true) (h_f : ∀ (a0 : State), Keep qk a0 = true → Keep qk (f a0) = true) : Keep qk (onBarrier s d die f) = true := by
  unfold onBarrier
  repeat' first
    | with_reducible assumption
    | with_reducible intro _
    | with_reducible apply h_f
    | with_reducible apply of_pw
    | with_reducible apply finish_wf
    | with_reducible apply wf_ite
    | simp only [wf_mk]
    | with_reducible apply keeps_of
    | (extract_lets x; first | (refine wf_cut (Keep qk x = true) ?_ ?_; focus (subst x); rotate_left; focus (intro hx; generalize x = y at hx ⊢)) | skip)

theorem sendRead_wf {qk : Kept} {s : State} {d : DescRef} {bs : List Byte} {k : Nat} (h_s : Keep qk s = true) : Keep qk (sendRead s d bs k) = true := by
  unfold sendRead
  repeat' first
    | with_reducible assumption
    | with_reducible intro _
    | with_reducible apply barRead_wf
    | simp only [wf_mk]
    | with_reducible apply keeps_of
    | (extract_lets x; first | (refine wf_cut (Keep qk x = true) ?_ ?_; focus (subst x); rotate_left; focus (intro hx; generalize x = y at hx ⊢)) | skip)

theorem execParamRead_wf {qk : Kept} {d : DescRef} {s : State} (h_s : Keep qk s = true) : OW qk (execParamRead d s) := by
  unfold execParamRead
  repeat' first
    | with_reducible assumption
    | with_reducible intro _
    | with_reducible apply finish_wf
    | with_reducible apply onDesc_wf
    | with_reducible apply readTable_wf
    | with_reducible apply onBarrier_wf
    | with_reducible apply sendRead_wf
    | with_reducible apply ow_ite
    | with_reducible apply wf_ite
    | with_reducible apply ow_next
    | simp only [wf_mk]
    | with_reducible apply keeps_of
    | (extract_lets x; first | (refine wf_cut (Keep qk x = true) ?_ ?_; focus (subst x); rotate_left; focus (intro hx; generalize x = y at hx ⊢)) | skip)

theorem execFieldCmd_wf {qk : Kept} {d : DescRef} {s : State} (h_s : Keep qk s = true) : OW qk (execFieldCmd d s) := by
  unfold execFieldCmd
  repeat' first
    | with_reducible assumption
    | with_reducible intro _
    | with_reducible apply finish_wf
    | with_reducible apply barCmd_wf
    | with_reducible apply noReply_wf
    | with_reducible apply onDesc_wf
    | with_reducible apply onBarrier_wf
    | with_reducible apply ow_ite
    | with_reducible apply wf_ite
    | with_reducible apply ow_next
    | simp only [wf_mk]
    | with_reducible apply keeps_of
    | (extract_lets x; first | (refine wf_cut (Keep qk x = true) ?_ ?_; focus (subst x); rotate_left; focus (intro hx; generalize x = y at hx ⊢)) | skip)

theorem diagOut_wf {qk : Kept} {s : State} {r : DiagRun} (h_s : Keep qk s = true) : Keep qk (diagOut s r) = true := by
  unfold diagOut
  repeat' first
    | with_reducible assumption
    | with_reducible intro _
    | with_reducible apply hostWrite_wf
    | with_reducible apply wf_forEach
    | with_reducible apply wf_ite
    | simp only [wf_mk]
    | with_reducible apply keeps_of
    | (extract_lets x; first | (refine wf_cut (Keep qk x = true) ?_ ?_; focus (subst x); rotate_left; focus (intro hx; generalize x = y at hx ⊢)) | skip)
    | dsimp -zeta only

theorem endDiag_wf {qk : Kept} {s : State} {r : DiagRun} {status : Nat} (h_s : Keep qk s = true) : Keep qk (endDiag s r status) = true := by
  unfold endDiag
  repeat' first
    | with_reducible assumption
    | with_reducible intro _
    | with_reducible apply finish_wf
    | with_reducible apply diagOut_wf
    | simp only [wf_mk]
    | with_reducible apply keeps_of
    | (extract_lets x; first | (refine wf_cut (Keep qk x = true) ?_ ?_; focus (subst x); rotate_left; focus (intro hx; generalize x = y at hx ⊢)) | skip)

theorem execDiagRun_wf {qk : Kept} {d : DescRef} {s : State} (h_s : Keep qk s = true) : OW qk (execDiagRun d s) := by
  unfold execDiagRun
  repeat' first
    | with_reducible assumption
    | with_reducible intro _
    | with_reducible apply barCmd_wf
    | with_reducible apply onDesc_wf
    | with_reducible apply onBarrier_wf
    | with_reducible apply ow_next
    | simp only [wf_mk]
    | with_reducible apply keeps_of
    | (extract_lets x; first | (refine wf_cut (Keep qk x = true) ?_ ?_; focus (subst x); rotate_left; focus (intro hx; generalize x = y at hx ⊢)) | skip)

theorem execDiagRunTimeout_wf {qk : Kept} {d : DescRef} {s : State} (h_s : Keep qk s = true) : OW qk (execDiagRunTimeout d s) := by
  unfold execDiagRunTimeout
  repeat' first
    | with_reducible assumption
    | with_reducible intro _
    | with_reducible apply onHost_wf
    | with_reducible apply endDiag_wf
    | with_reducible apply ow_ite
    | with_reducible apply wf_ite
    | with_reducible apply ow_next
    | simp only [wf_mk]
    | with_reducible apply keeps_of
    | (extract_lets x; first | (refine wf_cut (Keep qk x = true) ?_ ?_; focus (subst x); rotate_left; focus (intro hx; generalize x = y at hx ⊢)) | skip)
    | split

end Sys2Proof.Machine
end

