-- ==== Sys2Proof/Laws/KeepsFlashBase.lean ====
section
/-! SUPPORT. The operations of Machine/FlashBase.lean keep what `Keep` names. -/

namespace Sys2Proof.Machine
open Sys2Proof
set_option linter.all false
set_option simprocs false

theorem flashWrite_wf {qk : Kept} {s : State} {a : Nat} {bs : List Byte} (h_s : Keep qk s = true) : Keep qk (flashWrite s a bs) = true :=
  keeps_flash h_s (fun m => mapWf_write (f := fun a => a) bs (fun b => b) s.flash a ((keeps_iff.1 h_s).1 m).2.2.2.2.1)

theorem flashErase_wf {qk : Kept} {s : State} {a n : Nat} (h_s : Keep qk s = true) : Keep qk (flashErase s a n) = true := by
  unfold flashErase
  repeat' first
    | with_reducible assumption
    | with_reducible intro _
    | simp only [wf_mk]
    | with_reducible apply keeps_of
    | with_reducible apply keeps_regsKeep
    | with_reducible apply keeps_gsramKeep
    | with_reducible apply keeps_dramKeep
    | with_reducible apply keeps_flashKeep
    | (extract_lets x; first | (refine wf_cut (Keep qk x = true) ?_ ?_; focus (subst x); rotate_left; focus (intro hx; generalize x = y at hx ⊢)) | skip)

theorem freeBytes_wf {qk : Kept} : ∀ {s : State} {n : Nat}, Keep qk s = true → QW qk (freeBytes s n)
  | s, 0, h => h
  | s, n + 1, h => by
    unfold freeBytes
    exact qw_mk (of_qw (freeBytes_wf (n := n) (of_qw (takeFree_wf (w := 8) h))))
theorem freeBytes_e {qk : Kept} {s : State} {n : Nat} {zt : State} {zb} (e : (freeBytes s n) = (zb, zt)) (h_s : Keep qk s = true) : Keep qk zt = true := qw_e (freeBytes_wf h_s) e
theorem freeBytes_p {qk : Kept} {s : State} {n : Nat} (h_s : Keep qk s = true) : Keep qk (freeBytes s n).2 = true := freeBytes_wf h_s

theorem flashSpoil_wf {qk : Kept} {s : State} {a n : Nat} (h_s : Keep qk s = true) : Keep qk (flashSpoil s a n) = true := by
  unfold flashSpoil
  repeat' first
    | with_reducible assumption
    | with_reducible intro _
    | with_reducible apply flashWrite_wf
    | refine freeBytes_e (by with_reducible assumption) ?_
    | with_reducible apply freeBytes_p
    | with_reducible apply freeBytes_wf
    | simp only [wf_mk]
    | with_reducible apply keeps_of
    | (extract_lets x; first | (refine wf_cut (Keep qk x = true) ?_ ?_; focus (subst x); rotate_left; focus (intro hx; generalize x = y at hx ⊢)) | skip)
    | split

end Sys2Proof.Machine
end

