-- ==== Sys2Proof/Laws/KeepsBarOps.lean ====
section
/-! SUPPORT. The operations of Machine/BarOps.lean keep what `Keep` names. -/

namespace Sys2Proof.Machine
open Sys2Proof
set_option linter.all false
set_option simprocs false

theorem barRaise_wf {qk : Kept} {s : State} {d : Die} {i datum : Nat} (h_s : Keep qk s = true) : Keep qk (barRaise s d i datum) = true := by
  unfold barRaise
  repeat' first
    | with_reducible assumption
    | with_reducible intro _
    | with_reducible apply raise_wf
    | simp only [wf_mk]
    | with_reducible apply keeps_of
    | (extract_lets x; first | (refine wf_cut (Keep qk x = true) ?_ ?_; focus (subst x); rotate_left; focus (intro hx; generalize x = y at hx ⊢)) | skip)

theorem setLink_wf {qk : Kept} {s : State} {d : Die} {l : Nat} (h_s : Keep qk s = true) : Keep qk (setLink s d l) = true := by
  unfold setLink
  repeat' first
    | with_reducible assumption
    | with_reducible intro _
    | with_reducible apply rput_wf
    | simp only [wf_mk]
    | with_reducible apply keeps_of
    | (extract_lets x; first | (refine wf_cut (Keep qk x = true) ?_ ?_; focus (subst x); rotate_left; focus (intro hx; generalize x = y at hx ⊢)) | skip)

theorem failField_wf {qk : Kept} {s : State} {id : Nat} (h_s : Keep qk s = true) : Keep qk (failField s id) = true := by
  unfold failField
  repeat' first
    | with_reducible assumption
    | with_reducible intro _
    | with_reducible apply failFieldWith_wf
    | with_reducible apply raise_wf
    | simp only [wf_mk]
    | with_reducible apply keeps_of
    | (extract_lets x; first | (refine wf_cut (Keep qk x = true) ?_ ?_; focus (subst x); rotate_left; focus (intro hx; generalize x = y at hx ⊢)) | skip)

theorem linkLost_wf {qk : Kept} {s : State} {d : Die} (h_s : Keep qk s = true) : Keep qk (linkLost s d) = true := by
  unfold linkLost
  repeat' first
    | with_reducible assumption
    | with_reducible intro _
    | with_reducible apply setBar_wf
    | with_reducible apply coordinate_wf
    | with_reducible apply barRaise_wf
    | with_reducible apply setLink_wf
    | with_reducible apply failField_wf
    | with_reducible apply wf_forEach
    | simp only [wf_mk]
    | with_reducible apply keeps_of
    | (extract_lets x; first | (refine wf_cut (Keep qk x = true) ?_ ?_; focus (subst x); rotate_left; focus (intro hx; generalize x = y at hx ⊢)) | skip)

theorem upperLock_wf {qk : Kept} {s : State} {d : Die} {i : Nat} {locked : Bool} (h_s : Keep qk s = true) : Keep qk (upperLock s d i locked) = true := by
  unfold upperLock
  repeat' first
    | with_reducible assumption
    | with_reducible intro _
    | with_reducible apply rbit_wf
    | with_reducible apply setBar_wf
    | with_reducible apply barRaise_wf
    | with_reducible apply setLink_wf
    | with_reducible apply wf_ite
    | simp only [wf_mk]
    | with_reducible apply keeps_of
    | (extract_lets x; first | (refine wf_cut (Keep qk x = true) ?_ ?_; focus (subst x); rotate_left; focus (intro hx; generalize x = y at hx ⊢)) | skip)

theorem lowerLock_wf {qk : Kept} {s : State} {d : Die} {i : Nat} {locked : Bool} (h_s : Keep qk s = true) : Keep qk (lowerLock s d i locked) = true := by
  unfold lowerLock
  repeat' first
    | with_reducible assumption
    | with_reducible intro _
    | with_reducible apply fbit_wf
    | with_reducible apply followPll_wf
    | simp only [wf_mk]
    | with_reducible apply keeps_of
    | (extract_lets x; first | (refine wf_cut (Keep qk x = true) ?_ ?_; focus (subst x); rotate_left; focus (intro hx; generalize x = y at hx ⊢)) | skip)

theorem upperHeader_wf {qk : Kept} {d : Die} {i : Nat} {s : State} {valid : Bool} (h_s : Keep qk s = true) : Keep qk (upperHeader d i s valid) = true := by
  unfold upperHeader
  repeat' first
    | with_reducible assumption
    | with_reducible intro _
    | with_reducible apply setBar_wf
    | with_reducible apply upperLock_wf
    | with_reducible apply wf_ite
    | simp only [wf_mk]
    | with_reducible apply keeps_of
    | (extract_lets x; first | (refine wf_cut (Keep qk x = true) ?_ ?_; focus (subst x); rotate_left; focus (intro hx; generalize x = y at hx ⊢)) | skip)
    | split

theorem lowerHeader_wf {qk : Kept} {d : Die} {i : Nat} {s : State} {valid : Bool} (h_s : Keep qk s = true) : Keep qk (lowerHeader d i s valid) = true := by
  unfold lowerHeader
  repeat' first
    | with_reducible assumption
    | with_reducible intro _
    | with_reducible apply setDie_wf
    | with_reducible apply lowerLock_wf
    | with_reducible apply wf_ite
    | simp only [wf_mk]
    | with_reducible apply keeps_of
    | (extract_lets x; first | (refine wf_cut (Keep qk x = true) ?_ ?_; focus (subst x); rotate_left; focus (intro hx; generalize x = y at hx ⊢)) | skip)
    | split

theorem execBarrierLaneLock_wf {qk : Kept} {d : Die} {lane : Lane} {headers : List Bool} {s : State} (h_s : Keep qk s = true) : OW qk (execBarrierLaneLock d lane headers s) := by
  unfold execBarrierLaneLock
  repeat' first
    | with_reducible assumption
    | with_reducible intro _
    | with_reducible apply onHost_wf
    | with_reducible apply onDie_wf
    | with_reducible apply upperHeader_wf
    | with_reducible apply lowerHeader_wf
    | with_reducible apply wf_forEach
    | with_reducible apply ow_ite
    | with_reducible apply wf_ite
    | with_reducible apply ow_next
    | simp only [wf_mk]
    | with_reducible apply keeps_of
    | (extract_lets x; first | (refine wf_cut (Keep qk x = true) ?_ ?_; focus (subst x); rotate_left; focus (intro hx; generalize x = y at hx ⊢)) | skip)
    | split

theorem execBarrierLinkTimeout_wf {qk : Kept} {d : Die} {s : State} (h_s : Keep qk s = true) : OW qk (execBarrierLinkTimeout d s) := by
  unfold execBarrierLinkTimeout
  repeat' first
    | with_reducible assumption
    | with_reducible intro _
    | with_reducible apply onHost_wf
    | with_reducible apply linkLost_wf
    | with_reducible apply ow_ite
    | with_reducible apply wf_ite
    | with_reducible apply ow_next
    | simp only [wf_mk]
    | with_reducible apply keeps_of
    | (extract_lets x; first | (refine wf_cut (Keep qk x = true) ?_ ?_; focus (subst x); rotate_left; focus (intro hx; generalize x = y at hx ⊢)) | skip)

theorem badCrc_wf {qk : Kept} {s : State} {d : Die} (h_s : Keep qk s = true) : Keep qk (badCrc s d) = true := by
  unfold badCrc
  repeat' first
    | with_reducible assumption
    | with_reducible intro _
    | with_reducible apply rset_wf
    | with_reducible apply radd_wf
    | with_reducible apply barRaise_wf
    | with_reducible apply wf_ite
    | simp only [wf_mk]
    | with_reducible apply keeps_of
    | (extract_lets x; first | (refine wf_cut (Keep qk x = true) ?_ ?_; focus (subst x); rotate_left; focus (intro hx; generalize x = y at hx ⊢)) | skip)

theorem secondCopy_wf {qk : Kept} {s : State} {d : Die} {ws : List Nat} (h_s : Keep qk s = true) : Keep qk (secondCopy s d ws) = true := by
  unfold secondCopy
  repeat' first
    | with_reducible assumption
    | with_reducible intro _
    | with_reducible apply rset_wf
    | with_reducible apply radd_wf
    | with_reducible apply barRaise_wf
    | with_reducible apply wf_ite
    | simp only [wf_mk]
    | with_reducible apply keeps_of
    | (extract_lets x; first | (refine wf_cut (Keep qk x = true) ?_ ?_; focus (subst x); rotate_left; focus (intro hx; generalize x = y at hx ⊢)) | skip)
    | split

theorem lostBefore_wf {qk : Kept} {s : State} {d : Die} {n : Nat} (h_s : Keep qk s = true) : Keep qk (lostBefore s d n) = true := by
  unfold lostBefore
  repeat' first
    | with_reducible assumption
    | with_reducible intro _
    | with_reducible apply rset_wf
    | with_reducible apply radd_wf
    | with_reducible apply barRaise_wf
    | with_reducible apply wf_ite
    | simp only [wf_mk]
    | with_reducible apply keeps_of
    | (extract_lets x; first | (refine wf_cut (Keep qk x = true) ?_ ?_; focus (subst x); rotate_left; focus (intro hx; generalize x = y at hx ⊢)) | skip)

theorem hearLink_wf {qk : Kept} {s : State} {d : Die} (h_s : Keep qk s = true) : Keep qk (hearLink s d) = true := by
  unfold hearLink
  repeat' first
    | with_reducible assumption
    | with_reducible intro _
    | with_reducible apply setBar_wf
    | with_reducible apply setLink_wf
    | with_reducible apply wf_ite
    | simp only [wf_mk]
    | with_reducible apply keeps_of
    | (extract_lets x; first | (refine wf_cut (Keep qk x = true) ?_ ?_; focus (subst x); rotate_left; focus (intro hx; generalize x = y at hx ⊢)) | skip)

theorem hostAccept_wf {qk : Kept} {s : State} {d : Die} {ws : List Nat} (h_s : Keep qk s = true) : PW qk (hostAccept s d ws) := by
  unfold hostAccept
  repeat' first
    | with_reducible assumption
    | with_reducible intro _
    | with_reducible apply setBar_wf
    | with_reducible apply badCrc_wf
    | with_reducible apply secondCopy_wf
    | with_reducible apply lostBefore_wf
    | with_reducible apply hearLink_wf
    | with_reducible apply pw_ite
    | with_reducible apply wf_ite
    | with_reducible apply pw_mk
    | simp only [wf_mk]
    | with_reducible apply keeps_of
    | (extract_lets x; first | (refine wf_cut (Keep qk x = true) ?_ ?_; focus (subst x); rotate_left; focus (intro hx; generalize x = y at hx ⊢)) | skip)
    | split
theorem hostAccept_e {qk : Kept} {s : State} {d : Die} {ws : List Nat} {zt : State} {zb} (e : (hostAccept s d ws) = (zt, zb)) (h_s : Keep qk s = true) : Keep qk zt = true := pw_e (hostAccept_wf h_s) e
theorem hostAccept_p {qk : Kept} {s : State} {d : Die} {ws : List Nat} (h_s : Keep qk s = true) : Keep qk (hostAccept s d ws).1 = true := hostAccept_wf h_s

theorem onUp_wf {qk : Kept} {s : State} {d : Die} {ws : List Nat} {type : Nat} {f : State → State} (h_s : Keep qk s = true) (h_f : ∀ (a0 : State), Keep qk a0 = true → Keep qk (f a0) = true) : OW qk (onUp s d ws type f) := by
  unfold onUp
  repeat' first
    | with_reducible assumption
    | with_reducible intro _
    | with_reducible apply h_f
    | with_reducible apply of_pw
    | with_reducible apply onHost_wf
    | refine hostAccept_e (by with_reducible assumption) ?_
    | with_reducible apply hostAccept_p
    | with_reducible apply hostAccept_wf
    | with_reducible apply ow_ite
    | with_reducible apply wf_ite
    | with_reducible apply ow_next
    | simp only [wf_mk]
    | with_reducible apply keeps_of
    | (extract_lets x; first | (refine wf_cut (Keep qk x = true) ?_ ?_; focus (subst x); rotate_left; focus (intro hx; generalize x = y at hx ⊢)) | skip)
    | split

theorem senseValue_wf {qk : Kept} {s : State} {inst k : Nat} {w : Word} (h_s : Keep qk s = true) : Keep qk (senseValue s inst k w) = true := by
  unfold senseValue
  repeat' first
    | with_reducible assumption
    | with_reducible intro _
    | with_reducible apply lateWrite_wf
    | with_reducible apply fabWrite_wf
    | with_reducible apply wf_forEach
    | with_reducible apply wf_ite
    | simp only [wf_mk]
    | with_reducible apply keeps_of
    | (extract_lets x; first | (refine wf_cut (Keep qk x = true) ?_ ?_; focus (subst x); rotate_left; focus (intro hx; generalize x = y at hx ⊢)) | skip)

theorem execSense_wf {qk : Kept} {d : Die} {ws : List Nat} {s : State} (h_s : Keep qk s = true) : OW qk (execSense d ws s) := by
  unfold execSense
  repeat' first
    | with_reducible assumption
    | with_reducible intro _
    | with_reducible apply onUp_wf
    | with_reducible apply senseValue_wf
    | with_reducible apply wf_forEach
    | with_reducible apply ow_next
    | simp only [wf_mk]
    | with_reducible apply keeps_of
    | (extract_lets x; first | (refine wf_cut (Keep qk x = true) ?_ ?_; focus (subst x); rotate_left; focus (intro hx; generalize x = y at hx ⊢)) | skip)

theorem fillSense_wf {qk : Kept} : ∀ {l : List Nat} {c inst : Nat} {s : State} {w : Word}, Keep qk s = true → PW qk (fillSense c inst l s w)
  | [], c, inst, s, w, h => h
  | j :: js, c, inst, s, w, h => by
    unfold fillSense
    split
    · exact fillSense_wf h
    · exact fillSense_wf (fabWrite_wf h)
theorem fillSense_e {qk : Kept} {c inst : Nat} {l : List Nat} {s : State} {w : Word} {zt : State} {zb} (e : (fillSense c inst l s w) = (zt, zb)) (h_s : Keep qk s = true) : Keep qk zt = true := pw_e (fillSense_wf h_s) e
theorem fillSense_p {qk : Kept} {c inst : Nat} {l : List Nat} {s : State} {w : Word} (h_s : Keep qk s = true) : Keep qk (fillSense c inst l s w).1 = true := fillSense_wf h_s

theorem senseDeadline_wf {qk : Kept} {s : State} (h_s : Keep qk s = true) : Keep qk (senseDeadline s) = true := by
  unfold senseDeadline
  repeat' first
    | with_reducible assumption
    | with_reducible intro _
    | refine takeFree_e (by with_reducible assumption) ?_
    | with_reducible apply takeFree_p
    | with_reducible apply takeFree_wf
    | with_reducible apply setBar_wf
    | refine fillSense_e (by with_reducible assumption) ?_
    | with_reducible apply fillSense_p
    | with_reducible apply fillSense_wf
    | with_reducible apply wf_forEach
    | with_reducible apply wf_ite
    | simp only [wf_mk]
    | with_reducible apply keeps_of
    | (extract_lets x; first | (refine wf_cut (Keep qk x = true) ?_ ?_; focus (subst x); rotate_left; focus (intro hx; generalize x = y at hx ⊢)) | skip)
    | dsimp -zeta only
    | split

theorem sealDie_wf {qk : Kept} {s : State} {d : Die} (h_s : Keep qk s = true) : Keep qk (sealDie s d) = true := by
  unfold sealDie
  repeat' first
    | with_reducible assumption
    | with_reducible intro _
    | with_reducible apply barAsk_wf
    | with_reducible apply barRaise_wf
    | with_reducible apply wf_forEach
    | with_reducible apply wf_ite
    | simp only [wf_mk]
    | with_reducible apply keeps_of
    | (extract_lets x; first | (refine wf_cut (Keep qk x = true) ?_ ?_; focus (subst x); rotate_left; focus (intro hx; generalize x = y at hx ⊢)) | skip)
    | split

theorem sealIfAsked_wf {qk : Kept} {s : State} {d : Die} {isSealed : Bool} (h_s : Keep qk s = true) : Keep qk (sealIfAsked s d isSealed) = true := by
  unfold sealIfAsked
  repeat' first
    | with_reducible assumption
    | with_reducible intro _
    | with_reducible apply sealDie_wf
    | with_reducible apply wf_ite
    | simp only [wf_mk]
    | with_reducible apply keeps_of
    | (extract_lets x; first | (refine wf_cut (Keep qk x = true) ?_ ?_; focus (subst x); rotate_left; focus (intro hx; generalize x = y at hx ⊢)) | skip)

theorem execDieUnsealedTimeout_wf {qk : Kept} {d : Die} {s : State} (h_s : Keep qk s = true) : OW qk (execDieUnsealedTimeout d s) := by
  unfold execDieUnsealedTimeout
  repeat' first
    | with_reducible assumption
    | with_reducible intro _
    | with_reducible apply onHost_wf
    | with_reducible apply setBar_wf
    | with_reducible apply barRaise_wf
    | with_reducible apply ow_ite
    | with_reducible apply wf_ite
    | with_reducible apply ow_next
    | simp only [wf_mk]
    | with_reducible apply keeps_of
    | (extract_lets x; first | (refine wf_cut (Keep qk x = true) ?_ ?_; focus (subst x); rotate_left; focus (intro hx; generalize x = y at hx ⊢)) | skip)
    | split

theorem lowerLane_wf {qk : Kept} {s : State} {d : Die} {f : Fld} {i : Nat} {locked : Bool} (h_s : Keep qk s = true) : Keep qk (lowerLane s d f i locked) = true := by
  unfold lowerLane
  repeat' first
    | with_reducible assumption
    | with_reducible intro _
    | with_reducible apply rbit_wf
    | with_reducible apply barRaise_wf
    | with_reducible apply wf_ite
    | simp only [wf_mk]
    | with_reducible apply keeps_of
    | (extract_lets x; first | (refine wf_cut (Keep qk x = true) ?_ ?_; focus (subst x); rotate_left; focus (intro hx; generalize x = y at hx ⊢)) | skip)

theorem dieStatus_wf {qk : Kept} {s : State} {d : Die} {ws : List Nat} (h_s : Keep qk s = true) : Keep qk (dieStatus s d ws) = true := by
  unfold dieStatus
  repeat' first
    | with_reducible assumption
    | with_reducible intro _
    | with_reducible apply rput_wf
    | with_reducible apply rbit_wf
    | with_reducible apply setBar_wf
    | with_reducible apply barRaise_wf
    | with_reducible apply setLink_wf
    | with_reducible apply sealIfAsked_wf
    | with_reducible apply lowerLane_wf
    | with_reducible apply wf_ite
    | simp only [wf_mk]
    | with_reducible apply keeps_of
    | (extract_lets x; first | (refine wf_cut (Keep qk x = true) ?_ ?_; focus (subst x); rotate_left; focus (intro hx; generalize x = y at hx ⊢)) | skip)
    | split

theorem sectionPart_wf {qk : Kept} {s : State} {d : Die} {p kc : Nat} {bytes : List Byte} (h_s : Keep qk s = true) : Keep qk (sectionPart s d p kc bytes) = true := by
  unfold sectionPart
  repeat' first
    | with_reducible assumption
    | with_reducible intro _
    | with_reducible apply changeBanks_wf
    | with_reducible apply wf_ite
    | simp only [wf_mk]
    | with_reducible apply keeps_of
    | (extract_lets x; first | (refine wf_cut (Keep qk x = true) ?_ ?_; focus (subst x); rotate_left; focus (intro hx; generalize x = y at hx ⊢)) | skip)

theorem execStatus_wf {qk : Kept} {d : Die} {ws : List Nat} {discarded : Option (Fin 16)} {s : State} (h_s : Keep qk s = true) : OW qk (execStatus d ws discarded s) := by
  unfold execStatus
  repeat' first
    | with_reducible assumption
    | with_reducible intro _
    | with_reducible apply setBar_wf
    | with_reducible apply raise_wf
    | with_reducible apply onUp_wf
    | with_reducible apply dieStatus_wf
    | with_reducible apply sectionPart_wf
    | with_reducible apply ow_ite
    | with_reducible apply wf_ite
    | with_reducible apply ow_next
    | simp only [wf_mk]
    | with_reducible apply keeps_of
    | (extract_lets x; first | (refine wf_cut (Keep qk x = true) ?_ ?_; focus (subst x); rotate_left; focus (intro hx; generalize x = y at hx ⊢)) | skip)
    | split

theorem execFault_wf {qk : Kept} {d : Die} {ws : List Nat} {s : State} (h_s : Keep qk s = true) : OW qk (execFault d ws s) := by
  unfold execFault
  repeat' first
    | with_reducible assumption
    | with_reducible intro _
    | with_reducible apply rput_wf
    | with_reducible apply rset_wf
    | with_reducible apply raise_wf
    | with_reducible apply onUp_wf
    | with_reducible apply ow_ite
    | with_reducible apply wf_ite
    | with_reducible apply ow_next
    | simp only [wf_mk]
    | with_reducible apply keeps_of
    | (extract_lets x; first | (refine wf_cut (Keep qk x = true) ?_ ?_; focus (subst x); rotate_left; focus (intro hx; generalize x = y at hx ⊢)) | skip)

theorem replyValue_wf {qk : Kept} {s : State} {d : Die} {a : Nat} (h_s : Keep qk s = true) : PW qk (replyValue s d a) := by
  unfold replyValue
  repeat' first
    | with_reducible assumption
    | with_reducible intro _
    | refine takeFree_e (by with_reducible assumption) ?_
    | with_reducible apply takeFree_p
    | with_reducible apply takeFree_wf
    | with_reducible apply pw_mk
    | simp only [wf_mk]
    | with_reducible apply keeps_of
    | (extract_lets x; first | (refine wf_cut (Keep qk x = true) ?_ ?_; focus (subst x); rotate_left; focus (intro hx; generalize x = y at hx ⊢)) | skip)
    | split
theorem replyValue_e {qk : Kept} {s : State} {d : Die} {a : Nat} {zt : State} {zb} (e : (replyValue s d a) = (zt, zb)) (h_s : Keep qk s = true) : Keep qk zt = true := pw_e (replyValue_wf h_s) e
theorem replyValue_p {qk : Kept} {s : State} {d : Die} {a : Nat} (h_s : Keep qk s = true) : Keep qk (replyValue s d a).1 = true := replyValue_wf h_s

theorem readCame_wf {qk : Kept} {s : State} {d : Die} {ref : DescRef} {k : Nat} (h_s : Keep qk s = true) : Keep qk (readCame s d ref k) = true := by
  unfold readCame
  repeat' first
    | with_reducible assumption
    | with_reducible intro _
    | with_reducible apply hostWrite_wf
    | with_reducible apply finish_wf
    | with_reducible apply sendRead_wf
    | refine replyValue_e (by with_reducible assumption) ?_
    | with_reducible apply replyValue_p
    | with_reducible apply replyValue_wf
    | with_reducible apply wf_ite
    | simp only [wf_mk]
    | with_reducible apply keeps_of
    | (extract_lets x; first | (refine wf_cut (Keep qk x = true) ?_ ?_; focus (subst x); rotate_left; focus (intro hx; generalize x = y at hx ⊢)) | skip)
    | split

theorem watchCame_wf {qk : Kept} {s : State} {d : Die} {i : Nat} (h_s : Keep qk s = true) : Keep qk (watchCame s d i) = true := by
  unfold watchCame
  repeat' first
    | with_reducible assumption
    | with_reducible intro _
    | with_reducible apply setBar_wf
    | with_reducible apply sendWatch_wf
    | with_reducible apply latch_wf
    | refine replyValue_e (by with_reducible assumption) ?_
    | with_reducible apply replyValue_p
    | with_reducible apply replyValue_wf
    | with_reducible apply wf_ite
    | simp only [wf_mk]
    | with_reducible apply keeps_of
    | (extract_lets x; first | (refine wf_cut (Keep qk x = true) ?_ ?_; focus (subst x); rotate_left; focus (intro hx; generalize x = y at hx ⊢)) | skip)
    | split

theorem acknowledged_wf {qk : Kept} {s : State} {d : Die} {w : BarWait} {result : Nat} (h_s : Keep qk s = true) : Keep qk (acknowledged s d w result) = true := by
  unfold acknowledged
  repeat' first
    | with_reducible assumption
    | with_reducible intro _
    | with_reducible apply finish_wf
    | with_reducible apply dropDiag_wf
    | with_reducible apply setTally_wf
    | with_reducible apply coordinate_wf
    | with_reducible apply failField_wf
    | refine replyValue_e (by with_reducible assumption) ?_
    | with_reducible apply replyValue_p
    | with_reducible apply replyValue_wf
    | with_reducible apply readCame_wf
    | with_reducible apply watchCame_wf
    | with_reducible apply wf_ite
    | simp only [wf_mk]
    | with_reducible apply keeps_of
    | (extract_lets x; first | (refine wf_cut (Keep qk x = true) ?_ ?_; focus (subst x); rotate_left; focus (intro hx; generalize x = y at hx ⊢)) | skip)
    | split

theorem execAck_wf {qk : Kept} {d : Die} {ws : List Nat} {s : State} (h_s : Keep qk s = true) : OW qk (execAck d ws s) := by
  unfold execAck
  repeat' first
    | with_reducible assumption
    | with_reducible intro _
    | with_reducible apply setBar_wf
    | with_reducible apply onUp_wf
    | with_reducible apply acknowledged_wf
    | with_reducible apply ow_next
    | simp only [wf_mk]
    | with_reducible apply keeps_of
    | (extract_lets x; first | (refine wf_cut (Keep qk x = true) ?_ ?_; focus (subst x); rotate_left; focus (intro hx; generalize x = y at hx ⊢)) | skip)
    | split

theorem resend_wf {qk : Kept} {s : State} {d : Die} {w : BarWait} (h_s : Keep qk s = true) : Keep qk (resend s d w) = true := by
  unfold resend
  repeat' first
    | with_reducible assumption
    | with_reducible intro _
    | with_reducible apply setBar_wf
    | refine barEmit_e (by with_reducible assumption) ?_
    | with_reducible apply barEmit_p
    | with_reducible apply barEmit_wf
    | with_reducible apply wf_ite
    | simp only [wf_mk]
    | with_reducible apply keeps_of
    | (extract_lets x; first | (refine wf_cut (Keep qk x = true) ?_ ?_; focus (subst x); rotate_left; focus (intro hx; generalize x = y at hx ⊢)) | skip)
    | split

theorem ackFailed_wf {qk : Kept} {s : State} {d : Die} {w : BarWait} (h_s : Keep qk s = true) : Keep qk (ackFailed s d w) = true := by
  unfold ackFailed
  repeat' first
    | with_reducible assumption
    | with_reducible intro _
    | with_reducible apply rset_wf
    | with_reducible apply radd_wf
    | with_reducible apply setBar_wf
    | with_reducible apply waitLost_wf
    | with_reducible apply raise_wf
    | with_reducible apply barRaise_wf
    | simp only [wf_mk]
    | with_reducible apply keeps_of
    | (extract_lets x; first | (refine wf_cut (Keep qk x = true) ?_ ?_; focus (subst x); rotate_left; focus (intro hx; generalize x = y at hx ⊢)) | skip)
    | split

theorem execAckTimeout_wf {qk : Kept} {d : Die} {seq : Fin 65536} {s : State} (h_s : Keep qk s = true) : OW qk (execAckTimeout d seq s) := by
  unfold execAckTimeout
  repeat' first
    | with_reducible assumption
    | with_reducible intro _
    | with_reducible apply onHost_wf
    | with_reducible apply resend_wf
    | with_reducible apply ackFailed_wf
    | with_reducible apply ow_ite
    | with_reducible apply wf_ite
    | with_reducible apply ow_next
    | simp only [wf_mk]
    | with_reducible apply keeps_of
    | (extract_lets x; first | (refine wf_cut (Keep qk x = true) ?_ ?_; focus (subst x); rotate_left; focus (intro hx; generalize x = y at hx ⊢)) | skip)
    | split

theorem execDiagResult_wf {qk : Kept} {d : Die} {ws : List Nat} {s : State} (h_s : Keep qk s = true) : OW qk (execDiagResult d ws s) := by
  unfold execDiagResult
  repeat' first
    | with_reducible assumption
    | with_reducible intro _
    | with_reducible apply endDiag_wf
    | with_reducible apply onUp_wf
    | with_reducible apply ow_ite
    | with_reducible apply wf_ite
    | with_reducible apply ow_next
    | simp only [wf_mk]
    | with_reducible apply keeps_of
    | (extract_lets x; first | (refine wf_cut (Keep qk x = true) ?_ ?_; focus (subst x); rotate_left; focus (intro hx; generalize x = y at hx ⊢)) | skip)
    | split

theorem sendSample_wf {qk : Kept} {s : State} {fch j : Nat} (h_s : Keep qk s = true) : PW qk (sendSample s fch j) := by
  unfold sendSample
  repeat' first
    | with_reducible assumption
    | with_reducible intro _
    | with_reducible apply noteAccess_wf
    | refine fieldSample_e (by with_reducible assumption) ?_
    | with_reducible apply fieldSample_p
    | with_reducible apply fieldSample_wf
    | with_reducible apply pw_ite
    | with_reducible apply wf_ite
    | with_reducible apply pw_mk
    | simp only [wf_mk]
    | with_reducible apply keeps_of
    | (extract_lets x; first | (refine wf_cut (Keep qk x = true) ?_ ?_; focus (subst x); rotate_left; focus (intro hx; generalize x = y at hx ⊢)) | skip)
    | split
theorem sendSample_e {qk : Kept} {s : State} {fch j : Nat} {zt : State} {zb} (e : (sendSample s fch j) = (zt, zb)) (h_s : Keep qk s = true) : Keep qk zt = true := pw_e (sendSample_wf h_s) e
theorem sendSample_p {qk : Kept} {s : State} {fch j : Nat} (h_s : Keep qk s = true) : Keep qk (sendSample s fch j).1 = true := sendSample_wf h_s

theorem halfSamples_wf {qk : Kept} : ∀ {l : List Nat} {d : Die} {a j : Nat} {s : State}, Keep qk s = true → PW qk (halfSamples d a j l s)
  | [], d, a, j, s, h => h
  | i :: is, d, a, j, s, h => by
    unfold halfSamples
    exact pw_mk (of_pw (halfSamples_wf (l := is) (of_pw (sendSample_wf h))))
theorem halfSamples_e {qk : Kept} {d : Die} {a j : Nat} {l : List Nat} {s : State} {zt : State} {zb} (e : (halfSamples d a j l s) = (zt, zb)) (h_s : Keep qk s = true) : Keep qk zt = true := pw_e (halfSamples_wf h_s) e
theorem halfSamples_p {qk : Kept} {d : Die} {a j : Nat} {l : List Nat} {s : State} (h_s : Keep qk s = true) : Keep qk (halfSamples d a j l s).1 = true := halfSamples_wf h_s

theorem sendHalf_wf {qk : Kept} {s : State} {d : Die} {h j k : Nat} (h_s : Keep qk s = true) : Keep qk (sendHalf s d h j k) = true := by
  unfold sendHalf
  repeat' first
    | with_reducible assumption
    | with_reducible intro _
    | refine barEmit_e (by with_reducible assumption) ?_
    | with_reducible apply barEmit_p
    | with_reducible apply barEmit_wf
    | refine halfSamples_e (by with_reducible assumption) ?_
    | with_reducible apply halfSamples_p
    | with_reducible apply halfSamples_wf
    | simp only [wf_mk]
    | with_reducible apply keeps_of
    | (extract_lets x; first | (refine wf_cut (Keep qk x = true) ?_ ?_; focus (subst x); rotate_left; focus (intro hx; generalize x = y at hx ⊢)) | skip)
    | dsimp -zeta only
    | split

theorem sampleSend_wf {qk : Kept} {s : State} {d : Die} {j : Nat} (h_s : Keep qk s = true) : Keep qk (sampleSend s d j) = true := by
  unfold sampleSend
  repeat' first
    | with_reducible assumption
    | with_reducible intro _
    | with_reducible apply rset_wf
    | with_reducible apply radd_wf
    | with_reducible apply barRaise_wf
    | with_reducible apply sendHalf_wf
    | with_reducible apply wf_ite
    | simp only [wf_mk]
    | with_reducible apply keeps_of
    | (extract_lets x; first | (refine wf_cut (Keep qk x = true) ?_ ?_; focus (subst x); rotate_left; focus (intro hx; generalize x = y at hx ⊢)) | skip)

theorem execSampleSendInstant_wf {qk : Kept} {d : Die} {j : Fin 32} {s : State} (h_s : Keep qk s = true) : OW qk (execSampleSendInstant d j s) := by
  unfold execSampleSendInstant
  repeat' first
    | with_reducible assumption
    | with_reducible intro _
    | with_reducible apply onHost_wf
    | with_reducible apply sampleSend_wf
    | with_reducible apply ow_next
    | simp only [wf_mk]
    | with_reducible apply keeps_of
    | (extract_lets x; first | (refine wf_cut (Keep qk x = true) ?_ ?_; focus (subst x); rotate_left; focus (intro hx; generalize x = y at hx ⊢)) | skip)

theorem hostBarCntClr_wf {qk : Kept} {d : Die} {w : Word} {s : State} (h_s : Keep qk s = true) : Keep qk (hostBarCntClr d w s) = true := by
  unfold hostBarCntClr
  repeat' first
    | with_reducible assumption
    | with_reducible intro _
    | with_reducible apply resetRange_wf
    | with_reducible apply wf_ite
    | simp only [wf_mk]
    | with_reducible apply keeps_of
    | (extract_lets x; first | (refine wf_cut (Keep qk x = true) ?_ ?_; focus (subst x); rotate_left; focus (intro hx; generalize x = y at hx ⊢)) | skip)

theorem execBarCntClr_wf {qk : Kept} {d : Die} {w : Word} {s : State} (h_s : Keep qk s = true) : OW qk (execBarCntClr d w s) := by
  unfold execBarCntClr
  repeat' first
    | with_reducible assumption
    | with_reducible intro _
    | with_reducible apply onBar_wf
    | with_reducible apply hostBarCntClr_wf
    | with_reducible apply ow_next
    | simp only [wf_mk]
    | with_reducible apply keeps_of
    | (extract_lets x; first | (refine wf_cut (Keep qk x = true) ?_ ?_; focus (subst x); rotate_left; focus (intro hx; generalize x = y at hx ⊢)) | skip)

theorem barBoundary_wf {qk : Kept} {s : State} {d : Die} (h_s : Keep qk s = true) : Keep qk (barBoundary s d) = true := by
  unfold barBoundary
  repeat' first
    | with_reducible assumption
    | with_reducible intro _
    | with_reducible apply setBar_wf
    | refine barEmit_e (by with_reducible assumption) ?_
    | with_reducible apply barEmit_p
    | with_reducible apply barEmit_wf
    | with_reducible apply wf_ite
    | simp only [wf_mk]
    | with_reducible apply keeps_of
    | (extract_lets x; first | (refine wf_cut (Keep qk x = true) ?_ ?_; focus (subst x); rotate_left; focus (intro hx; generalize x = y at hx ⊢)) | skip)
    | dsimp -zeta only
    | split

end Sys2Proof.Machine
end

