-- ==== Sys2Proof/Laws/KeepsBootBase.lean ====
section
/-! SUPPORT. The operations of Machine/BootBase.lean keep what `Keep` names. -/

namespace Sys2Proof.Machine
open Sys2Proof
set_option linter.all false
set_option simprocs false

theorem setHeaderState_wf {qk : Kept} {s : State} {b : Bool} {st : Nat} (h_s : Keep qk s = true) : Keep qk (setHeaderState s b st) = true := by
  unfold setHeaderState
  repeat' first
    | with_reducible assumption
    | with_reducible intro _
    | with_reducible apply flashWrite_wf
    | simp only [wf_mk]
    | with_reducible apply keeps_of
    | (extract_lets x; first | (refine wf_cut (Keep qk x = true) ?_ ?_; focus (subst x); rotate_left; focus (intro hx; generalize x = y at hx ⊢)) | skip)

theorem markSector_wf {qk : Kept} {s : State} {b : Bool} {i : Nat} (h_s : Keep qk s = true) : Keep qk (markSector s b i) = true := by
  unfold markSector
  repeat' first
    | with_reducible assumption
    | with_reducible intro _
    | with_reducible apply flashWrite_wf
    | simp only [wf_mk]
    | with_reducible apply keeps_of
    | (extract_lets x; first | (refine wf_cut (Keep qk x = true) ?_ ?_; focus (subst x); rotate_left; focus (intro hx; generalize x = y at hx ⊢)) | skip)

theorem noteHeader_wf {qk : Kept} {s : State} {b : Bool} {h : BootHeader} (h_s : Keep qk s = true) : Keep qk (noteHeader s b h) = true := by
  unfold noteHeader
  repeat' first
    | with_reducible assumption
    | with_reducible intro _
    | with_reducible apply wr_wf
    | with_reducible apply rput_wf
    | with_reducible apply rbit_wf
    | with_reducible apply wf_ite
    | simp only [wf_mk]
    | with_reducible apply keeps_of
    | (extract_lets x; first | (refine wf_cut (Keep qk x = true) ?_ ?_; focus (subst x); rotate_left; focus (intro hx; generalize x = y at hx ⊢)) | skip)

theorem setStage_wf {qk : Kept} {s : State} {st : Nat} (h_s : Keep qk s = true) : Keep qk (setStage s st) = true := by
  unfold setStage
  repeat' first
    | with_reducible assumption
    | with_reducible intro _
    | with_reducible apply rput_wf
    | simp only [wf_mk]
    | with_reducible apply keeps_of
    | (extract_lets x; first | (refine wf_cut (Keep qk x = true) ?_ ?_; focus (subst x); rotate_left; focus (intro hx; generalize x = y at hx ⊢)) | skip)

theorem undoActivation_wf {qk : Kept} {s : State} (h_s : Keep qk s = true) : Keep qk (undoActivation s) = true := by
  unfold undoActivation
  repeat' first
    | with_reducible assumption
    | with_reducible intro _
    | with_reducible apply wr_wf
    | with_reducible apply rclr_wf
    | with_reducible apply rbit_wf
    | with_reducible apply recordEvent_wf
    | with_reducible apply flashWrite_wf
    | with_reducible apply setStage_wf
    | with_reducible apply wf_ite
    | simp only [wf_mk]
    | with_reducible apply keeps_of
    | (extract_lets x; first | (refine wf_cut (Keep qk x = true) ?_ ?_; focus (subst x); rotate_left; focus (intro hx; generalize x = y at hx ⊢)) | skip)
    | split

theorem writeHeader_wf {qk : Kept} {s : State} (h_s : Keep qk s = true) : Keep qk (writeHeader s) = true := by
  unfold writeHeader
  repeat' first
    | with_reducible assumption
    | with_reducible intro _
    | with_reducible apply flashWrite_wf
    | with_reducible apply flashErase_wf
    | with_reducible apply setHeaderState_wf
    | simp only [wf_mk]
    | with_reducible apply keeps_of
    | (extract_lets x; first | (refine wf_cut (Keep qk x = true) ?_ ?_; focus (subst x); rotate_left; focus (intro hx; generalize x = y at hx ⊢)) | skip)

theorem activateStaged_wf {qk : Kept} {s : State} (h_s : Keep qk s = true) : Keep qk (activateStaged s) = true := by
  unfold activateStaged
  repeat' first
    | with_reducible assumption
    | with_reducible intro _
    | with_reducible apply wr_wf
    | with_reducible apply recordEvent_wf
    | with_reducible apply setStage_wf
    | with_reducible apply writeHeader_wf
    | simp only [wf_mk]
    | with_reducible apply keeps_of
    | (extract_lets x; first | (refine wf_cut (Keep qk x = true) ?_ ?_; focus (subst x); rotate_left; focus (intro hx; generalize x = y at hx ⊢)) | skip)

theorem stageBlock_wf {qk : Kept} {s : State} {offset : Nat} {data : List Byte} (h_s : Keep qk s = true) : Keep qk (stageBlock s offset data) = true := by
  unfold stageBlock
  repeat' first
    | with_reducible assumption
    | with_reducible intro _
    | with_reducible apply rput_wf
    | with_reducible apply flashWrite_wf
    | with_reducible apply flashErase_wf
    | with_reducible apply setStage_wf
    | simp only [wf_mk]
    | with_reducible apply keeps_of
    | (extract_lets x; first | (refine wf_cut (Keep qk x = true) ?_ ?_; focus (subst x); rotate_left; focus (intro hx; generalize x = y at hx ⊢)) | skip)

theorem checkStaged_wf {qk : Kept} {s : State} {len : Nat} (h_s : Keep qk s = true) : PW qk (checkStaged s len) := by
  unfold checkStaged
  repeat' first
    | with_reducible assumption
    | with_reducible intro _
    | with_reducible apply raise_wf
    | with_reducible apply undoActivation_wf
    | with_reducible apply pw_ite
    | with_reducible apply wf_ite
    | with_reducible apply pw_mk
    | simp only [wf_mk]
    | with_reducible apply keeps_of
    | (extract_lets x; first | (refine wf_cut (Keep qk x = true) ?_ ?_; focus (subst x); rotate_left; focus (intro hx; generalize x = y at hx ⊢)) | skip)
theorem checkStaged_e {qk : Kept} {s : State} {len : Nat} {zt : State} {zb} (e : (checkStaged s len) = (zt, zb)) (h_s : Keep qk s = true) : Keep qk zt = true := pw_e (checkStaged_wf h_s) e
theorem checkStaged_p {qk : Kept} {s : State} {len : Nat} (h_s : Keep qk s = true) : Keep qk (checkStaged s len).1 = true := checkStaged_wf h_s

end Sys2Proof.Machine
end

