-- ==== Sys2Proof/Laws/KeepsCollector.lean ====
section
/-! SUPPORT. The operations of Machine/Collector.lean keep what `Keep` names. -/

namespace Sys2Proof.Machine
open Sys2Proof
set_option linter.all false
set_option simprocs false

theorem endSelftest_wf {qk : Kept} {s : State} (h_s : Keep qk s = true) : Keep qk (endSelftest s) = true := by
  unfold endSelftest
  repeat' first
    | with_reducible assumption
    | with_reducible intro _
    | simp only [wf_mk]
    | with_reducible apply keeps_of
    | (extract_lets x; first | (refine wf_cut (Keep qk x = true) ?_ ?_; focus (subst x); rotate_left; focus (intro hx; generalize x = y at hx ⊢)) | skip)

theorem onFlt_wf {qk : Kept} {s : State} {a : Nat} {f : State → State} (h_s : Keep qk s = true) (h_f : ∀ (a0 : State), Keep qk a0 = true → Keep qk (f a0) = true) : OW qk (onFlt s a f) := by
  unfold onFlt
  repeat' first
    | with_reducible assumption
    | with_reducible intro _
    | with_reducible apply h_f
    | with_reducible apply of_pw
    | with_reducible apply onBar_wf
    | with_reducible apply endSelftest_wf
    | with_reducible apply ow_next
    | simp only [wf_mk]
    | with_reducible apply keeps_of
    | (extract_lets x; first | (refine wf_cut (Keep qk x = true) ?_ ?_; focus (subst x); rotate_left; focus (intro hx; generalize x = y at hx ⊢)) | skip)

theorem clearSource_wf {qk : Kept} {s : State} {id : Nat} (h_s : Keep qk s = true) : Keep qk (clearSource s id) = true := by
  unfold clearSource
  repeat' first
    | with_reducible assumption
    | with_reducible intro _
    | with_reducible apply rclr_wf
    | simp only [wf_mk]
    | with_reducible apply keeps_of
    | (extract_lets x; first | (refine wf_cut (Keep qk x = true) ?_ ?_; focus (subst x); rotate_left; focus (intro hx; generalize x = y at hx ⊢)) | skip)

theorem clearSources_wf {qk : Kept} {s : State} {g mask : Nat} (h_s : Keep qk s = true) : Keep qk (clearSources s g mask) = true := by
  unfold clearSources
  repeat' first
    | with_reducible assumption
    | with_reducible intro _
    | with_reducible apply refreshFaultN_wf
    | with_reducible apply clearSource_wf
    | with_reducible apply wf_forEach
    | simp only [wf_mk]
    | with_reducible apply keeps_of
    | (extract_lets x; first | (refine wf_cut (Keep qk x = true) ?_ ?_; focus (subst x); rotate_left; focus (intro hx; generalize x = y at hx ⊢)) | skip)

theorem hostFltStatClear_wf {qk : Kept} {g : Fin 64} {hi : Bool} {w : Word} {s : State} (h_s : Keep qk s = true) : Keep qk (hostFltStatClear g hi w s) = true := by
  unfold hostFltStatClear
  repeat' first
    | with_reducible assumption
    | with_reducible intro _
    | with_reducible apply clearSources_wf
    | with_reducible apply wf_ite
    | simp only [wf_mk]
    | with_reducible apply keeps_of
    | (extract_lets x; first | (refine wf_cut (Keep qk x = true) ?_ ?_; focus (subst x); rotate_left; focus (intro hx; generalize x = y at hx ⊢)) | skip)

theorem execFltStatClear_wf {qk : Kept} {g : Fin 64} {hi : Bool} {w : Word} {s : State} (h_s : Keep qk s = true) : OW qk (execFltStatClear g hi w s) := by
  unfold execFltStatClear
  repeat' first
    | with_reducible assumption
    | with_reducible intro _
    | with_reducible apply onFlt_wf
    | with_reducible apply hostFltStatClear_wf
    | with_reducible apply ow_ite
    | with_reducible apply wf_ite
    | with_reducible apply ow_next
    | simp only [wf_mk]
    | with_reducible apply keeps_of
    | (extract_lets x; first | (refine wf_cut (Keep qk x = true) ?_ ?_; focus (subst x); rotate_left; focus (intro hx; generalize x = y at hx ⊢)) | skip)

theorem hostFltClrGrp_wf {qk : Kept} {w : Word} {s : State} (h_s : Keep qk s = true) : Keep qk (hostFltClrGrp w s) = true := by
  unfold hostFltClrGrp
  repeat' first
    | with_reducible assumption
    | with_reducible intro _
    | with_reducible apply clearSources_wf
    | with_reducible apply wf_ite
    | simp only [wf_mk]
    | with_reducible apply keeps_of
    | (extract_lets x; first | (refine wf_cut (Keep qk x = true) ?_ ?_; focus (subst x); rotate_left; focus (intro hx; generalize x = y at hx ⊢)) | skip)

theorem execFltClrGrp_wf {qk : Kept} {w : Word} {s : State} (h_s : Keep qk s = true) : OW qk (execFltClrGrp w s) := by
  unfold execFltClrGrp
  repeat' first
    | with_reducible assumption
    | with_reducible intro _
    | with_reducible apply onFlt_wf
    | with_reducible apply hostFltClrGrp_wf
    | with_reducible apply ow_next
    | simp only [wf_mk]
    | with_reducible apply keeps_of
    | (extract_lets x; first | (refine wf_cut (Keep qk x = true) ?_ ?_; focus (subst x); rotate_left; focus (intro hx; generalize x = y at hx ⊢)) | skip)

theorem hostFltCntClr_wf {qk : Kept} {g : Fin 64} {w : Word} {s : State} (h_s : Keep qk s = true) : Keep qk (hostFltCntClr g w s) = true := by
  unfold hostFltCntClr
  repeat' first
    | with_reducible assumption
    | with_reducible intro _
    | with_reducible apply rclr_wf
    | with_reducible apply wf_ite
    | simp only [wf_mk]
    | with_reducible apply keeps_of
    | (extract_lets x; first | (refine wf_cut (Keep qk x = true) ?_ ?_; focus (subst x); rotate_left; focus (intro hx; generalize x = y at hx ⊢)) | skip)

theorem execFltCntClr_wf {qk : Kept} {g : Fin 64} {w : Word} {s : State} (h_s : Keep qk s = true) : OW qk (execFltCntClr g w s) := by
  unfold execFltCntClr
  repeat' first
    | with_reducible assumption
    | with_reducible intro _
    | with_reducible apply onFlt_wf
    | with_reducible apply hostFltCntClr_wf
    | with_reducible apply ow_next
    | simp only [wf_mk]
    | with_reducible apply keeps_of
    | (extract_lets x; first | (refine wf_cut (Keep qk x = true) ?_ ?_; focus (subst x); rotate_left; focus (intro hx; generalize x = y at hx ⊢)) | skip)

theorem fltRefuse_wf {qk : Kept} {s : State} (h_s : Keep qk s = true) : Keep qk (fltRefuse s) = true := by
  unfold fltRefuse
  repeat' first
    | with_reducible assumption
    | with_reducible intro _
    | with_reducible apply rset_wf
    | simp only [wf_mk]
    | with_reducible apply keeps_of
    | (extract_lets x; first | (refine wf_cut (Keep qk x = true) ?_ ?_; focus (subst x); rotate_left; focus (intro hx; generalize x = y at hx ⊢)) | skip)

theorem setMask_wf {qk : Kept} {s : State} {id m : Nat} (h_s : Keep qk s = true) : Keep qk (setMask s id m) = true := by
  unfold setMask
  repeat' first
    | with_reducible assumption
    | with_reducible intro _
    | simp only [wf_mk]
    | with_reducible apply keeps_of
    | (extract_lets x; first | (refine wf_cut (Keep qk x = true) ?_ ?_; focus (subst x); rotate_left; focus (intro hx; generalize x = y at hx ⊢)) | skip)

theorem hostFltCfg_wf {qk : Kept} {w : Word} {s : State} (h_s : Keep qk s = true) : Keep qk (hostFltCfg w s) = true := by
  unfold hostFltCfg
  repeat' first
    | with_reducible assumption
    | with_reducible intro _
    | with_reducible apply fltRefuse_wf
    | with_reducible apply setMask_wf
    | with_reducible apply wf_ite
    | simp only [wf_mk]
    | with_reducible apply keeps_of
    | (extract_lets x; first | (refine wf_cut (Keep qk x = true) ?_ ?_; focus (subst x); rotate_left; focus (intro hx; generalize x = y at hx ⊢)) | skip)

theorem execFltCfg_wf {qk : Kept} {w : Word} {s : State} (h_s : Keep qk s = true) : OW qk (execFltCfg w s) := by
  unfold execFltCfg
  repeat' first
    | with_reducible assumption
    | with_reducible intro _
    | with_reducible apply onFlt_wf
    | with_reducible apply hostFltCfg_wf
    | with_reducible apply ow_next
    | simp only [wf_mk]
    | with_reducible apply keeps_of
    | (extract_lets x; first | (refine wf_cut (Keep qk x = true) ?_ ?_; focus (subst x); rotate_left; focus (intro hx; generalize x = y at hx ⊢)) | skip)

theorem hostFltCfgGrp_wf {qk : Kept} {w : Word} {s : State} (h_s : Keep qk s = true) : Keep qk (hostFltCfgGrp w s) = true := by
  unfold hostFltCfgGrp
  repeat' first
    | with_reducible assumption
    | with_reducible intro _
    | with_reducible apply rwrite_wf
    | with_reducible apply setMask_wf
    | with_reducible apply wf_forEach
    | with_reducible apply wf_ite
    | simp only [wf_mk]
    | with_reducible apply keeps_of
    | (extract_lets x; first | (refine wf_cut (Keep qk x = true) ?_ ?_; focus (subst x); rotate_left; focus (intro hx; generalize x = y at hx ⊢)) | skip)

theorem execFltCfgGrp_wf {qk : Kept} {w : Word} {s : State} (h_s : Keep qk s = true) : OW qk (execFltCfgGrp w s) := by
  unfold execFltCfgGrp
  repeat' first
    | with_reducible assumption
    | with_reducible intro _
    | with_reducible apply onFlt_wf
    | with_reducible apply hostFltCfgGrp_wf
    | with_reducible apply ow_next
    | simp only [wf_mk]
    | with_reducible apply keeps_of
    | (extract_lets x; first | (refine wf_cut (Keep qk x = true) ?_ ?_; focus (subst x); rotate_left; focus (intro hx; generalize x = y at hx ⊢)) | skip)

theorem hostFltForce_wf {qk : Kept} {w : Word} {s : State} (h_s : Keep qk s = true) : Keep qk (hostFltForce w s) = true := by
  unfold hostFltForce
  repeat' first
    | with_reducible assumption
    | with_reducible intro _
    | with_reducible apply selfTrip_wf
    | with_reducible apply compareCtrl_wf
    | with_reducible apply raiseForced_wf
    | with_reducible apply fltRefuse_wf
    | with_reducible apply wf_ite
    | simp only [wf_mk]
    | with_reducible apply keeps_of
    | (extract_lets x; first | (refine wf_cut (Keep qk x = true) ?_ ?_; focus (subst x); rotate_left; focus (intro hx; generalize x = y at hx ⊢)) | skip)

theorem execFltForce_wf {qk : Kept} {w : Word} {s : State} (h_s : Keep qk s = true) : OW qk (execFltForce w s) := by
  unfold execFltForce
  repeat' first
    | with_reducible assumption
    | with_reducible intro _
    | with_reducible apply onFlt_wf
    | with_reducible apply hostFltForce_wf
    | with_reducible apply ow_next
    | simp only [wf_mk]
    | with_reducible apply keeps_of
    | (extract_lets x; first | (refine wf_cut (Keep qk x = true) ?_ ?_; focus (subst x); rotate_left; focus (intro hx; generalize x = y at hx ⊢)) | skip)

theorem hostFltSelftest_wf {qk : Kept} {w : Word} {s : State} (h_s : Keep qk s = true) : Keep qk (hostFltSelftest w s) = true := by
  unfold hostFltSelftest
  repeat' first
    | with_reducible assumption
    | with_reducible intro _
    | with_reducible apply setFlips_wf
    | with_reducible apply compareCtrl_wf
    | with_reducible apply wf_ite
    | simp only [wf_mk]
    | with_reducible apply keeps_of
    | (extract_lets x; first | (refine wf_cut (Keep qk x = true) ?_ ?_; focus (subst x); rotate_left; focus (intro hx; generalize x = y at hx ⊢)) | skip)

theorem execFltSelftest_wf {qk : Kept} {w : Word} {s : State} (h_s : Keep qk s = true) : OW qk (execFltSelftest w s) := by
  unfold execFltSelftest
  repeat' first
    | with_reducible assumption
    | with_reducible intro _
    | with_reducible apply onBar_wf
    | with_reducible apply hostFltSelftest_wf
    | with_reducible apply ow_next
    | simp only [wf_mk]
    | with_reducible apply keeps_of
    | (extract_lets x; first | (refine wf_cut (Keep qk x = true) ?_ ?_; focus (subst x); rotate_left; focus (intro hx; generalize x = y at hx ⊢)) | skip)

theorem upsetConfig_wf {qk : Kept} {s : State} {u : ConfigUpset} (h_s : Keep qk s = true) : Keep qk (upsetConfig s u) = true := by
  unfold upsetConfig
  repeat' first
    | with_reducible assumption
    | with_reducible intro _
    | with_reducible apply setFlips_wf
    | simp only [wf_mk]
    | with_reducible apply keeps_of
    | (extract_lets x; first | (refine wf_cut (Keep qk x = true) ?_ ?_; focus (subst x); rotate_left; focus (intro hx; generalize x = y at hx ⊢)) | skip)
    | split

theorem execConfigurationScan_wf {qk : Kept} {upset : Option ConfigUpset} {s : State} (h_s : Keep qk s = true) : OW qk (execConfigurationScan upset s) := by
  unfold execConfigurationScan
  repeat' first
    | with_reducible assumption
    | with_reducible intro _
    | with_reducible apply compareAll_wf
    | with_reducible apply upsetConfig_wf
    | with_reducible apply ow_ite
    | with_reducible apply wf_ite
    | with_reducible apply ow_next
    | simp only [wf_mk]
    | with_reducible apply keeps_of
    | (extract_lets x; first | (refine wf_cut (Keep qk x = true) ?_ ?_; focus (subst x); rotate_left; focus (intro hx; generalize x = y at hx ⊢)) | skip)
    | split

theorem execFaultNMinExpiry_wf {qk : Kept} {s : State} (h_s : Keep qk s = true) : OW qk (execFaultNMinExpiry s) := by
  unfold execFaultNMinExpiry
  repeat' first
    | with_reducible assumption
    | with_reducible intro _
    | with_reducible apply refreshFaultN_wf
    | with_reducible apply compareCtrl_wf
    | with_reducible apply ow_ite
    | with_reducible apply wf_ite
    | with_reducible apply ow_next
    | simp only [wf_mk]
    | with_reducible apply keeps_of
    | (extract_lets x; first | (refine wf_cut (Keep qk x = true) ?_ ?_; focus (subst x); rotate_left; focus (intro hx; generalize x = y at hx ⊢)) | skip)
    | split

theorem unfencePorts_wf {qk : Kept} {s : State} (h_s : Keep qk s = true) : Keep qk (unfencePorts s) = true := by
  unfold unfencePorts
  repeat' first
    | with_reducible assumption
    | with_reducible intro _
    | with_reducible apply rclr_wf
    | with_reducible apply setRx_wf
    | with_reducible apply wf_forEach
    | with_reducible apply wf_ite
    | simp only [wf_mk]
    | with_reducible apply keeps_of
    | (extract_lets x; first | (refine wf_cut (Keep qk x = true) ?_ ?_; focus (subst x); rotate_left; focus (intro hx; generalize x = y at hx ⊢)) | skip)

theorem unfenceUnit_wf {qk : Kept} {s : State} {u : Nat} (h_s : Keep qk s = true) : Keep qk (unfenceUnit s u) = true := by
  unfold unfenceUnit
  repeat' first
    | with_reducible assumption
    | with_reducible intro _
    | with_reducible apply rclr_wf
    | with_reducible apply setRoute_wf
    | with_reducible apply delayUnfence_wf
    | with_reducible apply linkClearWith_wf
    | with_reducible apply strRestart_wf
    | with_reducible apply raise_wf
    | with_reducible apply unfencePorts_wf
    | with_reducible apply wf_ite
    | simp only [wf_mk]
    | with_reducible apply keeps_of
    | (extract_lets x; first | (refine wf_cut (Keep qk x = true) ?_ ?_; focus (subst x); rotate_left; focus (intro hx; generalize x = y at hx ⊢)) | skip)
    | split

theorem hostFltUnfence_wf {qk : Kept} {w : Word} {s : State} (h_s : Keep qk s = true) : Keep qk (hostFltUnfence w s) = true := by
  unfold hostFltUnfence
  repeat' first
    | with_reducible assumption
    | with_reducible intro _
    | with_reducible apply fltRefuse_wf
    | with_reducible apply unfenceUnit_wf
    | with_reducible apply wf_forEach
    | with_reducible apply wf_ite
    | simp only [wf_mk]
    | with_reducible apply keeps_of
    | (extract_lets x; first | (refine wf_cut (Keep qk x = true) ?_ ?_; focus (subst x); rotate_left; focus (intro hx; generalize x = y at hx ⊢)) | skip)

theorem execFltUnfence_wf {qk : Kept} {w : Word} {s : State} (h_s : Keep qk s = true) : OW qk (execFltUnfence w s) := by
  unfold execFltUnfence
  repeat' first
    | with_reducible assumption
    | with_reducible intro _
    | with_reducible apply onFlt_wf
    | with_reducible apply hostFltUnfence_wf
    | with_reducible apply ow_next
    | simp only [wf_mk]
    | with_reducible apply keeps_of
    | (extract_lets x; first | (refine wf_cut (Keep qk x = true) ?_ ?_; focus (subst x); rotate_left; focus (intro hx; generalize x = y at hx ⊢)) | skip)

theorem thermJudge_wf {qk : Kept} {s : State} {id inst : Nat} {reading thr : Int} {reached : Bool} (h_s : Keep qk s = true) : Keep qk (thermJudge s id inst reading thr reached) = true := by
  unfold thermJudge
  repeat' first
    | with_reducible assumption
    | with_reducible intro _
    | with_reducible apply raise_wf
    | with_reducible apply wf_ite
    | simp only [wf_mk]
    | with_reducible apply keeps_of
    | (extract_lets x; first | (refine wf_cut (Keep qk x = true) ?_ ?_; focus (subst x); rotate_left; focus (intro hx; generalize x = y at hx ⊢)) | skip)

theorem noteSensor_wf {qk : Kept} {s : State} {n : Nat} {good : Bool} (h_s : Keep qk s = true) : Keep qk (noteSensor s n good) = true := by
  unfold noteSensor
  repeat' first
    | with_reducible assumption
    | with_reducible intro _
    | simp only [wf_mk]
    | with_reducible apply keeps_of
    | (extract_lets x; first | (refine wf_cut (Keep qk x = true) ?_ ?_; focus (subst x); rotate_left; focus (intro hx; generalize x = y at hx ⊢)) | skip)

theorem highestValid_wf {qk : Kept} {s : State} {n : Nat} (h_s : Keep qk s = true) : QW qk (highestValid s n) := by
  unfold highestValid
  repeat' first
    | with_reducible assumption
    | with_reducible intro _
    | refine takeFree_e (by with_reducible assumption) ?_
    | with_reducible apply takeFree_p
    | with_reducible apply takeFree_wf
    | with_reducible apply wf_foldl
    | with_reducible apply wf_foldl1
    | with_reducible apply qw_mk
    | simp only [wf_mk]
    | with_reducible apply keeps_of
    | (extract_lets x; first | (refine wf_cut (Keep qk x = true) ?_ ?_; focus (subst x); rotate_left; focus (intro hx; generalize x = y at hx ⊢)) | skip)
    | dsimp -zeta only
    | split
theorem highestValid_e {qk : Kept} {s : State} {n : Nat} {zt : State} {zb} (e : (highestValid s n) = (zb, zt)) (h_s : Keep qk s = true) : Keep qk zt = true := qw_e (highestValid_wf h_s) e
theorem highestValid_p {qk : Kept} {s : State} {n : Nat} (h_s : Keep qk s = true) : Keep qk (highestValid s n).2 = true := highestValid_wf h_s

theorem judgeReading_wf {qk : Kept} {s : State} {n : Nat} {v : Int} (h_s : Keep qk s = true) : Keep qk (judgeReading s n v) = true := by
  unfold judgeReading
  repeat' first
    | with_reducible assumption
    | with_reducible intro _
    | with_reducible apply compareWord_wf
    | with_reducible apply thermJudge_wf
    | with_reducible apply wf_ite
    | simp only [wf_mk]
    | with_reducible apply keeps_of
    | (extract_lets x; first | (refine wf_cut (Keep qk x = true) ?_ ?_; focus (subst x); rotate_left; focus (intro hx; generalize x = y at hx ⊢)) | skip)

theorem execThermalSensorReading_wf {qk : Kept} {sensor : Fin 5} {reading : Option (BitVec 16)} {s : State} (h_s : Keep qk s = true) : OW qk (execThermalSensorReading sensor reading s) := by
  unfold execThermalSensorReading
  repeat' first
    | with_reducible assumption
    | with_reducible intro _
    | with_reducible apply rput_wf
    | with_reducible apply raise_wf
    | with_reducible apply noteSensor_wf
    | refine highestValid_e (by with_reducible assumption) ?_
    | with_reducible apply highestValid_p
    | with_reducible apply highestValid_wf
    | with_reducible apply judgeReading_wf
    | with_reducible apply ow_ite
    | with_reducible apply wf_ite
    | with_reducible apply ow_next
    | simp only [wf_mk]
    | with_reducible apply keeps_of
    | (extract_lets x; first | (refine wf_cut (Keep qk x = true) ?_ ?_; focus (subst x); rotate_left; focus (intro hx; generalize x = y at hx ⊢)) | skip)
    | dsimp -zeta only
    | split

end Sys2Proof.Machine
end

