-- ==== Sys2Proof/Laws/KeepsCounters.lean ====
section
/-! SUPPORT. The operations of Machine/Counters.lean keep what `Keep` names. -/

namespace Sys2Proof.Machine
open Sys2Proof
set_option linter.all false
set_option simprocs false

theorem putRecord_wf {qk : Kept} {s : State} {type : Nat} {payload : List Byte} (h_s : Keep qk s = true) : Keep qk (putRecord s type payload) = true := by
  unfold putRecord
  repeat' first
    | with_reducible assumption
    | with_reducible intro _
    | with_reducible apply flashWrite_wf
    | simp only [wf_mk]
    | with_reducible apply keeps_of
    | (extract_lets x; first | (refine wf_cut (Keep qk x = true) ?_ ?_; focus (subst x); rotate_left; focus (intro hx; generalize x = y at hx ⊢)) | skip)

theorem keepAhead_wf {qk : Kept} {s : State} (h_s : Keep qk s = true) : Keep qk (keepAhead s) = true := by
  unfold keepAhead
  repeat' first
    | with_reducible assumption
    | with_reducible intro _
    | with_reducible apply flashErase_wf
    | with_reducible apply putRecord_wf
    | with_reducible apply wf_forEach
    | simp only [wf_mk]
    | with_reducible apply keeps_of
    | (extract_lets x; first | (refine wf_cut (Keep qk x = true) ?_ ?_; focus (subst x); rotate_left; focus (intro hx; generalize x = y at hx ⊢)) | skip)

theorem appendRecord_wf {qk : Kept} {s : State} {type : Nat} {payload : List Byte} (h_s : Keep qk s = true) : Keep qk (appendRecord s type payload) = true := by
  unfold appendRecord
  repeat' first
    | with_reducible assumption
    | with_reducible intro _
    | with_reducible apply putRecord_wf
    | with_reducible apply keepAhead_wf
    | with_reducible apply wf_ite
    | simp only [wf_mk]
    | with_reducible apply keeps_of
    | (extract_lets x; first | (refine wf_cut (Keep qk x = true) ?_ ?_; focus (subst x); rotate_left; focus (intro hx; generalize x = y at hx ⊢)) | skip)

theorem savePower_wf {qk : Kept} {s : State} {n : Nat} (h_s : Keep qk s = true) : Keep qk (savePower s n) = true := by
  unfold savePower
  repeat' first
    | with_reducible assumption
    | with_reducible intro _
    | with_reducible apply appendRecord_wf
    | simp only [wf_mk]
    | with_reducible apply keeps_of
    | (extract_lets x; first | (refine wf_cut (Keep qk x = true) ?_ ?_; focus (subst x); rotate_left; focus (intro hx; generalize x = y at hx ⊢)) | skip)

theorem spoilRecord_wf {qk : Kept} {s : State} (h_s : Keep qk s = true) : Keep qk (spoilRecord s) = true := by
  unfold spoilRecord
  repeat' first
    | with_reducible assumption
    | with_reducible intro _
    | with_reducible apply flashWrite_wf
    | with_reducible apply flashSpoil_wf
    | simp only [wf_mk]
    | with_reducible apply keeps_of
    | (extract_lets x; first | (refine wf_cut (Keep qk x = true) ?_ ?_; focus (subst x); rotate_left; focus (intro hx; generalize x = y at hx ⊢)) | skip)

theorem saveCounters_wf {qk : Kept} {s : State} (h_s : Keep qk s = true) : Keep qk (saveCounters s) = true := by
  unfold saveCounters
  repeat' first
    | with_reducible assumption
    | with_reducible intro _
    | with_reducible apply appendRecord_wf
    | simp only [wf_mk]
    | with_reducible apply keeps_of
    | (extract_lets x; first | (refine wf_cut (Keep qk x = true) ?_ ?_; focus (subst x); rotate_left; focus (intro hx; generalize x = y at hx ⊢)) | skip)

theorem saveEpoch_wf {qk : Kept} {s : State} {clearing : Bool} (h_s : Keep qk s = true) : Keep qk (saveEpoch s clearing) = true := by
  unfold saveEpoch
  repeat' first
    | with_reducible assumption
    | with_reducible intro _
    | with_reducible apply appendRecord_wf
    | simp only [wf_mk]
    | with_reducible apply keeps_of
    | (extract_lets x; first | (refine wf_cut (Keep qk x = true) ?_ ?_; focus (subst x); rotate_left; focus (intro hx; generalize x = y at hx ⊢)) | skip)

theorem saveSeal_wf {qk : Kept} {s : State} {page : Nat} {v : Word} (h_s : Keep qk s = true) : Keep qk (saveSeal s page v) = true := by
  unfold saveSeal
  repeat' first
    | with_reducible assumption
    | with_reducible intro _
    | with_reducible apply appendRecord_wf
    | simp only [wf_mk]
    | with_reducible apply keeps_of
    | (extract_lets x; first | (refine wf_cut (Keep qk x = true) ?_ ?_; focus (subst x); rotate_left; focus (intro hx; generalize x = y at hx ⊢)) | skip)

end Sys2Proof.Machine
end

