-- ==== Sys2Proof/Laws/KeepsEvents.lean ====
section
/-! SUPPORT. The operations of Machine/Events.lean keep what `Keep` names. -/

namespace Sys2Proof.Machine
open Sys2Proof
set_option linter.all false
set_option simprocs false

theorem execTokenRefill_wf {qk : Kept} {code : BitVec 16} {s : State} (h_s : Keep qk s = true) : OW qk (execTokenRefill code s) := by
  unfold execTokenRefill
  repeat' first
    | with_reducible assumption
    | with_reducible intro _
    | with_reducible apply setBucket_wf
    | with_reducible apply ow_ite
    | with_reducible apply wf_ite
    | with_reducible apply ow_next
    | simp only [wf_mk]
    | with_reducible apply keeps_of
    | (extract_lets x; first | (refine wf_cut (Keep qk x = true) ?_ ?_; focus (subst x); rotate_left; focus (intro hx; generalize x = y at hx ⊢)) | skip)

theorem execOptimeSave_wf {qk : Kept} {ok : Bool} {s : State} (h_s : Keep qk s = true) : OW qk (execOptimeSave ok s) := by
  unfold execOptimeSave
  repeat' first
    | with_reducible assumption
    | with_reducible intro _
    | with_reducible apply raise_wf
    | with_reducible apply saveCounters_wf
    | with_reducible apply ow_ite
    | with_reducible apply wf_ite
    | with_reducible apply ow_next
    | simp only [wf_mk]
    | with_reducible apply keeps_of
    | (extract_lets x; first | (refine wf_cut (Keep qk x = true) ?_ ?_; focus (subst x); rotate_left; focus (intro hx; generalize x = y at hx ⊢)) | skip)

theorem execTimeMark_wf {qk : Kept} {s : State} (h_s : Keep qk s = true) : OW qk (execTimeMark s) := by
  unfold execTimeMark
  repeat' first
    | with_reducible assumption
    | with_reducible intro _
    | with_reducible apply recordEvent_wf
    | with_reducible apply ow_ite
    | with_reducible apply wf_ite
    | with_reducible apply ow_next
    | simp only [wf_mk]
    | with_reducible apply keeps_of
    | (extract_lets x; first | (refine wf_cut (Keep qk x = true) ?_ ?_; focus (subst x); rotate_left; focus (intro hx; generalize x = y at hx ⊢)) | skip)
    | split

theorem hostEvrOptimeFRead_wf {qk : Kept} {s : State} (h_s : Keep qk s = true) : Keep qk (hostEvrOptimeFRead s) = true := by
  unfold hostEvrOptimeFRead
  repeat' first
    | with_reducible assumption
    | with_reducible intro _
    | with_reducible apply rput_wf
    | simp only [wf_mk]
    | with_reducible apply keeps_of
    | (extract_lets x; first | (refine wf_cut (Keep qk x = true) ?_ ?_; focus (subst x); rotate_left; focus (intro hx; generalize x = y at hx ⊢)) | skip)

theorem execEvrOptimeFRead_wf {qk : Kept} {s : State} (h_s : Keep qk s = true) : OW qk (execEvrOptimeFRead s) := by
  unfold execEvrOptimeFRead
  repeat' first
    | with_reducible assumption
    | with_reducible intro _
    | with_reducible apply onBar_wf
    | with_reducible apply hostEvrOptimeFRead_wf
    | with_reducible apply ow_next
    | simp only [wf_mk]
    | with_reducible apply keeps_of
    | (extract_lets x; first | (refine wf_cut (Keep qk x = true) ?_ ?_; focus (subst x); rotate_left; focus (intro hx; generalize x = y at hx ⊢)) | skip)

theorem hostEvrHost_wf {qk : Kept} {w : Word} {s : State} (h_s : Keep qk s = true) : Keep qk (hostEvrHost w s) = true := by
  unfold hostEvrHost
  repeat' first
    | with_reducible assumption
    | with_reducible intro _
    | with_reducible apply rwrite_wf
    | with_reducible apply recordEvent_wf
    | with_reducible apply wf_ite
    | simp only [wf_mk]
    | with_reducible apply keeps_of
    | (extract_lets x; first | (refine wf_cut (Keep qk x = true) ?_ ?_; focus (subst x); rotate_left; focus (intro hx; generalize x = y at hx ⊢)) | skip)

theorem execEvrHost_wf {qk : Kept} {w : Word} {s : State} (h_s : Keep qk s = true) : OW qk (execEvrHost w s) := by
  unfold execEvrHost
  repeat' first
    | with_reducible assumption
    | with_reducible intro _
    | with_reducible apply onBar_wf
    | with_reducible apply hostEvrHost_wf
    | with_reducible apply ow_next
    | simp only [wf_mk]
    | with_reducible apply keeps_of
    | (extract_lets x; first | (refine wf_cut (Keep qk x = true) ?_ ?_; focus (subst x); rotate_left; focus (intro hx; generalize x = y at hx ⊢)) | skip)

theorem sealPage_wf {qk : Kept} {s : State} {k : Nat} (h_s : Keep qk s = true) : Keep qk (sealPage s k) = true := by
  unfold sealPage
  repeat' first
    | with_reducible assumption
    | with_reducible intro _
    | with_reducible apply saveSeal_wf
    | with_reducible apply wf_ite
    | simp only [wf_mk]
    | with_reducible apply keeps_of
    | (extract_lets x; first | (refine wf_cut (Keep qk x = true) ?_ ?_; focus (subst x); rotate_left; focus (intro hx; generalize x = y at hx ⊢)) | skip)

theorem fillLog_wf {qk : Kept} {s : State} (h_s : Keep qk s = true) : Keep qk (fillLog s) = true := by
  unfold fillLog
  repeat' first
    | with_reducible assumption
    | with_reducible intro _
    | with_reducible apply rset_wf
    | with_reducible apply setBacklog_wf
    | with_reducible apply dropFull_wf
    | with_reducible apply raise_wf
    | simp only [wf_mk]
    | with_reducible apply keeps_of
    | (extract_lets x; first | (refine wf_cut (Keep qk x = true) ?_ ?_; focus (subst x); rotate_left; focus (intro hx; generalize x = y at hx ⊢)) | skip)

theorem commitRecord_wf {qk : Kept} {s : State} {r : EvRec} (h_s : Keep qk s = true) : Keep qk (commitRecord s r) = true := by
  unfold commitRecord
  repeat' first
    | with_reducible assumption
    | with_reducible intro _
    | with_reducible apply rput_wf
    | with_reducible apply setBacklog_wf
    | with_reducible apply flashWrite_wf
    | with_reducible apply sealPage_wf
    | with_reducible apply fillLog_wf
    | with_reducible apply wf_ite
    | simp only [wf_mk]
    | with_reducible apply keeps_of
    | (extract_lets x; first | (refine wf_cut (Keep qk x = true) ?_ ?_; focus (subst x); rotate_left; focus (intro hx; generalize x = y at hx ⊢)) | skip)

theorem voidSlot_wf {qk : Kept} {s : State} (h_s : Keep qk s = true) : Keep qk (voidSlot s) = true := by
  unfold voidSlot
  repeat' first
    | with_reducible assumption
    | with_reducible intro _
    | with_reducible apply rset_wf
    | with_reducible apply raise_wf
    | with_reducible apply flashWrite_wf
    | simp only [wf_mk]
    | with_reducible apply keeps_of
    | (extract_lets x; first | (refine wf_cut (Keep qk x = true) ?_ ?_; focus (subst x); rotate_left; focus (intro hx; generalize x = y at hx ⊢)) | skip)

theorem commitFront_wf {qk : Kept} {s : State} (h_s : Keep qk s = true) : Keep qk (commitFront s) = true := by
  unfold commitFront
  repeat' first
    | with_reducible assumption
    | with_reducible intro _
    | with_reducible apply commitRecord_wf
    | with_reducible apply wf_ite
    | simp only [wf_mk]
    | with_reducible apply keeps_of
    | (extract_lets x; first | (refine wf_cut (Keep qk x = true) ?_ ?_; focus (subst x); rotate_left; focus (intro hx; generalize x = y at hx ⊢)) | skip)
    | split

theorem commitRun_wf {qk : Kept} : ∀ {l : List Nat} {n : Nat} {s : State}, Keep qk s = true → Keep qk (commitRun l n s) = true
  | [], n, s, h => by unfold commitRun; exact wf_foldl (fun _ _ h => commitFront_wf h) h
  | f :: fs, n, s, h => by
    unfold commitRun
    split
    · exact h
    · split
      · exact commitRun_wf (voidSlot_wf h)
      · exact commitRun_wf (commitFront_wf h)

theorem execEventCommit_wf {qk : Kept} {failures : List Nat} {s : State} (h_s : Keep qk s = true) : OW qk (execEventCommit failures s) := by
  unfold execEventCommit
  repeat' first
    | with_reducible assumption
    | with_reducible intro _
    | with_reducible apply commitRun_wf
    | with_reducible apply ow_ite
    | with_reducible apply wf_ite
    | with_reducible apply ow_next
    | simp only [wf_mk]
    | with_reducible apply keeps_of
    | (extract_lets x; first | (refine wf_cut (Keep qk x = true) ?_ ?_; focus (subst x); rotate_left; focus (intro hx; generalize x = y at hx ⊢)) | skip)

theorem execEventRead_wf {qk : Kept} {d : DescRef} {s : State} (h_s : Keep qk s = true) : OW qk (execEventRead d s) := by
  unfold execEventRead
  repeat' first
    | with_reducible assumption
    | with_reducible intro _
    | with_reducible apply hostWrite_wf
    | with_reducible apply finish_wf
    | with_reducible apply onDesc_wf
    | with_reducible apply ow_next
    | simp only [wf_mk]
    | with_reducible apply keeps_of
    | (extract_lets x; first | (refine wf_cut (Keep qk x = true) ?_ ?_; focus (subst x); rotate_left; focus (intro hx; generalize x = y at hx ⊢)) | skip)

theorem startClear_wf {qk : Kept} {s : State} (h_s : Keep qk s = true) : Keep qk (startClear s) = true := by
  unfold startClear
  repeat' first
    | with_reducible assumption
    | with_reducible intro _
    | with_reducible apply rset_wf
    | with_reducible apply rclr_wf
    | with_reducible apply radd_wf
    | with_reducible apply saveEpoch_wf
    | simp only [wf_mk]
    | with_reducible apply keeps_of
    | (extract_lets x; first | (refine wf_cut (Keep qk x = true) ?_ ?_; focus (subst x); rotate_left; focus (intro hx; generalize x = y at hx ⊢)) | skip)

theorem hostEvrClear_wf {qk : Kept} {w : Word} {s : State} (h_s : Keep qk s = true) : Keep qk (hostEvrClear w s) = true := by
  unfold hostEvrClear
  repeat' first
    | with_reducible assumption
    | with_reducible intro _
    | with_reducible apply startClear_wf
    | with_reducible apply wf_ite
    | simp only [wf_mk]
    | with_reducible apply keeps_of
    | (extract_lets x; first | (refine wf_cut (Keep qk x = true) ?_ ?_; focus (subst x); rotate_left; focus (intro hx; generalize x = y at hx ⊢)) | skip)
    | split

theorem execEvrClear_wf {qk : Kept} {w : Word} {s : State} (h_s : Keep qk s = true) : OW qk (execEvrClear w s) := by
  unfold execEvrClear
  repeat' first
    | with_reducible assumption
    | with_reducible intro _
    | with_reducible apply onBar_wf
    | with_reducible apply hostEvrClear_wf
    | with_reducible apply ow_next
    | simp only [wf_mk]
    | with_reducible apply keeps_of
    | (extract_lets x; first | (refine wf_cut (Keep qk x = true) ?_ ?_; focus (subst x); rotate_left; focus (intro hx; generalize x = y at hx ⊢)) | skip)

theorem execLogEraseDone_wf {qk : Kept} {s : State} (h_s : Keep qk s = true) : OW qk (execLogEraseDone s) := by
  unfold execLogEraseDone
  repeat' first
    | with_reducible assumption
    | with_reducible intro _
    | with_reducible apply rput_wf
    | with_reducible apply rset_wf
    | with_reducible apply rclr_wf
    | with_reducible apply rbit_wf
    | with_reducible apply radd_wf
    | with_reducible apply setBacklog_wf
    | with_reducible apply raise_wf
    | with_reducible apply flashErase_wf
    | with_reducible apply saveEpoch_wf
    | with_reducible apply ow_ite
    | with_reducible apply wf_ite
    | with_reducible apply ow_next
    | simp only [wf_mk]
    | with_reducible apply keeps_of
    | (extract_lets x; first | (refine wf_cut (Keep qk x = true) ?_ ?_; focus (subst x); rotate_left; focus (intro hx; generalize x = y at hx ⊢)) | skip)

theorem execSupervisorWatchdog_wf {qk : Kept} {s : State} (h_s : Keep qk s = true) : OW qk (execSupervisorWatchdog s) := by
  unfold execSupervisorWatchdog
  repeat' first
    | with_reducible assumption
    | with_reducible intro _
    | with_reducible apply restartSupervisor_wf
    | with_reducible apply ow_ite
    | with_reducible apply wf_ite
    | with_reducible apply ow_next
    | simp only [wf_mk]
    | with_reducible apply keeps_of
    | (extract_lets x; first | (refine wf_cut (Keep qk x = true) ?_ ?_; focus (subst x); rotate_left; focus (intro hx; generalize x = y at hx ⊢)) | skip)

end Sys2Proof.Machine
end

