-- ==== Sys2Proof/Laws/KeepsMatrix.lean ====
section
/-! SUPPORT. The operations of Machine/Matrix.lean keep what `Keep` names. -/

namespace Sys2Proof.Machine
open Sys2Proof
set_option linter.all false
set_option simprocs false

theorem hostSysLock_wf {qk : Kept} {w : Word} {s : State} (h_s : Keep qk s = true) : Keep qk (hostSysLock w s) = true := by
  unfold hostSysLock
  repeat' first
    | with_reducible assumption
    | with_reducible intro _
    | with_reducible apply rset_wf
    | with_reducible apply recordEvent_wf
    | with_reducible apply wf_ite
    | simp only [wf_mk]
    | with_reducible apply keeps_of
    | (extract_lets x; first | (refine wf_cut (Keep qk x = true) ?_ ?_; focus (subst x); rotate_left; focus (intro hx; generalize x = y at hx ⊢)) | skip)

theorem execSysLock_wf {qk : Kept} {w : Word} {s : State} (h_s : Keep qk s = true) : OW qk (execSysLock w s) := by
  unfold execSysLock
  repeat' first
    | with_reducible assumption
    | with_reducible intro _
    | with_reducible apply onBar_wf
    | with_reducible apply hostSysLock_wf
    | with_reducible apply ow_next
    | simp only [wf_mk]
    | with_reducible apply keeps_of
    | (extract_lets x; first | (refine wf_cut (Keep qk x = true) ?_ ?_; focus (subst x); rotate_left; focus (intro hx; generalize x = y at hx ⊢)) | skip)

theorem alignGrid_wf {qm : Bool} {s : State} (h_s : Keep ⟨qm, none⟩ s = true) : Keep ⟨qm, none⟩ (alignGrid s) = true := by
  unfold alignGrid
  repeat' first
    | with_reducible assumption
    | with_reducible intro _
    | with_reducible apply wr_wf
    | simp only [wf_mk]
    | with_reducible apply keeps_of
    | with_reducible apply keeps_move (γ := s.grid)
    | (extract_lets x; first | (refine wf_cut (Keep ⟨qm, none⟩ x = true) ?_ ?_; focus (subst x); rotate_left; focus (intro hx; generalize x = y at hx ⊢)) | skip)

theorem writeBlkcfg_wf {qm : Bool} {s : State} {w : Word} (h_s : Keep ⟨qm, none⟩ s = true) : Keep ⟨qm, none⟩ (writeBlkcfg s w) = true := by
  unfold writeBlkcfg
  repeat' first
    | with_reducible assumption
    | with_reducible intro _
    | with_reducible apply rput_wf
    | with_reducible apply rset_wf
    | with_reducible apply rclr_wf
    | with_reducible apply resetRange_wf
    | with_reducible apply refreshAllCounts_wf
    | with_reducible apply countRate_wf
    | with_reducible apply alignGrid_wf
    | with_reducible apply wf_ite
    | simp only [wf_mk]
    | with_reducible apply keeps_of
    | (extract_lets x; first | (refine wf_cut (Keep ⟨qm, none⟩ x = true) ?_ ?_; focus (subst x); rotate_left; focus (intro hx; generalize x = y at hx ⊢)) | skip)

theorem hostSysBlkcfgWrite_wf {qm : Bool} {w : Word} {s : State} (h_s : Keep ⟨qm, none⟩ s = true) : Keep ⟨qm, none⟩ (hostSysBlkcfgWrite w s) = true := by
  unfold hostSysBlkcfgWrite
  repeat' first
    | with_reducible assumption
    | with_reducible intro _
    | with_reducible apply writeBlkcfg_wf
    | simp only [wf_mk]
    | with_reducible apply keeps_of
    | (extract_lets x; first | (refine wf_cut (Keep ⟨qm, none⟩ x = true) ?_ ?_; focus (subst x); rotate_left; focus (intro hx; generalize x = y at hx ⊢)) | skip)

theorem execSysBlkcfgWrite_wf {qm : Bool} {w : Word} {s : State} (h_s : Keep ⟨qm, none⟩ s = true) : OW ⟨qm, none⟩ (execSysBlkcfgWrite w s) := by
  unfold execSysBlkcfgWrite
  repeat' first
    | with_reducible assumption
    | with_reducible intro _
    | with_reducible apply onBar_wf
    | with_reducible apply hostSysBlkcfgWrite_wf
    | with_reducible apply ow_next
    | simp only [wf_mk]
    | with_reducible apply keeps_of
    | (extract_lets x; first | (refine wf_cut (Keep ⟨qm, none⟩ x = true) ?_ ?_; focus (subst x); rotate_left; focus (intro hx; generalize x = y at hx ⊢)) | skip)

theorem writePipe_wf {qm : Bool} {s : State} {w : Word} (h_s : Keep ⟨qm, none⟩ s = true) : Keep ⟨qm, none⟩ (writePipe s w) = true := by
  unfold writePipe
  repeat' first
    | with_reducible assumption
    | with_reducible intro _
    | with_reducible apply rwrite_wf
    | with_reducible apply wf_ite
    | exact keeps_move (keeps_of (by first | with_reducible assumption | exact rwrite_wf h_s))
    | simp only [wf_mk]
    | with_reducible apply keeps_of
    | (extract_lets x; first | (refine wf_cut (Keep ⟨qm, none⟩ x = true) ?_ ?_; focus (subst x); rotate_left; focus (intro hx; generalize x = y at hx ⊢)) | skip)

theorem hostPipeRunWrite_wf {qm : Bool} {w : Word} {s : State} (h_s : Keep ⟨qm, none⟩ s = true) : Keep ⟨qm, none⟩ (hostPipeRunWrite w s) = true := by
  unfold hostPipeRunWrite
  repeat' first
    | with_reducible assumption
    | with_reducible intro _
    | with_reducible apply writePipe_wf
    | simp only [wf_mk]
    | with_reducible apply keeps_of
    | (extract_lets x; first | (refine wf_cut (Keep ⟨qm, none⟩ x = true) ?_ ?_; focus (subst x); rotate_left; focus (intro hx; generalize x = y at hx ⊢)) | skip)

theorem execPipeRunWrite_wf {qm : Bool} {w : Word} {s : State} (h_s : Keep ⟨qm, none⟩ s = true) : OW ⟨qm, none⟩ (execPipeRunWrite w s) := by
  unfold execPipeRunWrite
  repeat' first
    | with_reducible assumption
    | with_reducible intro _
    | with_reducible apply onBar_wf
    | with_reducible apply hostPipeRunWrite_wf
    | with_reducible apply ow_next
    | simp only [wf_mk]
    | with_reducible apply keeps_of
    | (extract_lets x; first | (refine wf_cut (Keep ⟨qm, none⟩ x = true) ?_ ?_; focus (subst x); rotate_left; focus (intro hx; generalize x = y at hx ⊢)) | skip)

theorem hostSysBlkidxLoRead_wf {qk : Kept} {s : State} (h_s : Keep qk s = true) : Keep qk (hostSysBlkidxLoRead s) = true := by
  unfold hostSysBlkidxLoRead
  repeat' first
    | with_reducible assumption
    | with_reducible intro _
    | with_reducible apply wr_wf
    | simp only [wf_mk]
    | with_reducible apply keeps_of
    | (extract_lets x; first | (refine wf_cut (Keep qk x = true) ?_ ?_; focus (subst x); rotate_left; focus (intro hx; generalize x = y at hx ⊢)) | skip)

theorem execSysBlkidxLoRead_wf {qk : Kept} {s : State} (h_s : Keep qk s = true) : OW qk (execSysBlkidxLoRead s) := by
  unfold execSysBlkidxLoRead
  repeat' first
    | with_reducible assumption
    | with_reducible intro _
    | with_reducible apply onBar_wf
    | with_reducible apply hostSysBlkidxLoRead_wf
    | with_reducible apply ow_next
    | simp only [wf_mk]
    | with_reducible apply keeps_of
    | (extract_lets x; first | (refine wf_cut (Keep qk x = true) ?_ ?_; focus (subst x); rotate_left; focus (intro hx; generalize x = y at hx ⊢)) | skip)

theorem hostEccCeClr_wf {qk : Kept} {cls : MemClass} {w : Word} {s : State} (h_s : Keep qk s = true) : Keep qk (hostEccCeClr cls w s) = true := by
  unfold hostEccCeClr
  repeat' first
    | with_reducible assumption
    | with_reducible intro _
    | with_reducible apply rclr_wf
    | with_reducible apply wf_ite
    | simp only [wf_mk]
    | with_reducible apply keeps_of
    | (extract_lets x; first | (refine wf_cut (Keep qk x = true) ?_ ?_; focus (subst x); rotate_left; focus (intro hx; generalize x = y at hx ⊢)) | skip)

theorem execEccCeClr_wf {qk : Kept} {cls : MemClass} {w : Word} {s : State} (h_s : Keep qk s = true) : OW qk (execEccCeClr cls w s) := by
  unfold execEccCeClr
  repeat' first
    | with_reducible assumption
    | with_reducible intro _
    | with_reducible apply onBar_wf
    | with_reducible apply hostEccCeClr_wf
    | with_reducible apply ow_next
    | simp only [wf_mk]
    | with_reducible apply keeps_of
    | (extract_lets x; first | (refine wf_cut (Keep qk x = true) ?_ ?_; focus (subst x); rotate_left; focus (intro hx; generalize x = y at hx ⊢)) | skip)

theorem busParamError_wf {qk : Kept} {s : State} {b : Nat} (h_s : Keep qk s = true) : Keep qk (busParamError s b) = true := by
  unfold busParamError
  repeat' first
    | with_reducible assumption
    | with_reducible intro _
    | with_reducible apply fabMissing_wf
    | with_reducible apply raise_wf
    | simp only [wf_mk]
    | with_reducible apply keeps_of
    | (extract_lets x; first | (refine wf_cut (Keep qk x = true) ?_ ?_; focus (subst x); rotate_left; focus (intro hx; generalize x = y at hx ⊢)) | skip)

theorem tapParamError_wf {qk : Kept} {s : State} {t : Nat} (h_s : Keep qk s = true) : Keep qk (tapParamError s t) = true := by
  unfold tapParamError
  repeat' first
    | with_reducible assumption
    | with_reducible intro _
    | with_reducible apply rput_wf
    | with_reducible apply fabMissing_wf
    | with_reducible apply raise_wf
    | simp only [wf_mk]
    | with_reducible apply keeps_of
    | (extract_lets x; first | (refine wf_cut (Keep qk x = true) ?_ ?_; focus (subst x); rotate_left; focus (intro hx; generalize x = y at hx ⊢)) | skip)

theorem routeParamError_wf {qk : Kept} {s : State} {r : Nat} (h_s : Keep qk s = true) : Keep qk (routeParamError s r) = true := by
  unfold routeParamError
  repeat' first
    | with_reducible assumption
    | with_reducible intro _
    | with_reducible apply setEngaged_wf
    | with_reducible apply raise_wf
    | simp only [wf_mk]
    | with_reducible apply keeps_of
    | (extract_lets x; first | (refine wf_cut (Keep qk x = true) ?_ ?_; focus (subst x); rotate_left; focus (intro hx; generalize x = y at hx ⊢)) | skip)

theorem execPatrolScrub_wf {qk : Kept} {place : EccPlace} {unit : Fin 2048} {addr : Nat} {ecc : EccResult} {s : State} (h_s : Keep qk s = true) : OW qk (execPatrolScrub place unit addr ecc s) := by
  unfold execPatrolScrub
  repeat' first
    | with_reducible assumption
    | with_reducible intro _
    | with_reducible apply restartSupervisor_wf
    | with_reducible apply tagParity_wf
    | with_reducible apply uncorrectable_wf
    | with_reducible apply eccFound_wf
    | with_reducible apply busParamError_wf
    | with_reducible apply tapParamError_wf
    | with_reducible apply routeParamError_wf
    | with_reducible apply ow_ite
    | with_reducible apply wf_ite
    | with_reducible apply ow_next
    | simp only [wf_mk]
    | with_reducible apply keeps_of
    | (extract_lets x; first | (refine wf_cut (Keep qk x = true) ?_ ?_; focus (subst x); rotate_left; focus (intro hx; generalize x = y at hx ⊢)) | skip)
    | dsimp -zeta only
    | split

theorem execDramLinkFailure_wf {qk : Kept} {channel : Fin 4} {s : State} (h_s : Keep qk s = true) : OW qk (execDramLinkFailure channel s) := by
  unfold execDramLinkFailure
  repeat' first
    | with_reducible assumption
    | with_reducible intro _
    | with_reducible apply raise_wf
    | with_reducible apply ow_ite
    | with_reducible apply wf_ite
    | with_reducible apply ow_next
    | simp only [wf_mk]
    | with_reducible apply keeps_of
    | (extract_lets x; first | (refine wf_cut (Keep qk x = true) ?_ ?_; focus (subst x); rotate_left; focus (intro hx; generalize x = y at hx ⊢)) | skip)

theorem setPort_wf {qk : Kept} {s : State} {t : Nat} {p : PortState} (h_s : Keep qk s = true) : Keep qk (setPort s t p) = true := by
  unfold setPort
  repeat' first
    | with_reducible assumption
    | with_reducible intro _
    | simp only [wf_mk]
    | with_reducible apply keeps_of
    | (extract_lets x; first | (refine wf_cut (Keep qk x = true) ?_ ?_; focus (subst x); rotate_left; focus (intro hx; generalize x = y at hx ⊢)) | skip)

theorem arrive_wf {qk : Kept} {s : State} {t : Nat} {r : BusReq} (h_s : Keep qk s = true) : Keep qk (arrive s t r) = true := by
  unfold arrive
  repeat' first
    | with_reducible assumption
    | with_reducible intro _
    | with_reducible apply requestFails_wf
    | with_reducible apply setPort_wf
    | simp only [wf_mk]
    | with_reducible apply keeps_of
    | (extract_lets x; first | (refine wf_cut (Keep qk x = true) ?_ ?_; focus (subst x); rotate_left; focus (intro hx; generalize x = y at hx ⊢)) | skip)
    | split

theorem transactionLost_wf {qk : Kept} {s : State} {m t addr : Nat} (h_s : Keep qk s = true) : Keep qk (transactionLost s m t addr) = true := by
  unfold transactionLost
  repeat' first
    | with_reducible assumption
    | with_reducible intro _
    | with_reducible apply raise_wf
    | with_reducible apply captureError_wf
    | simp only [wf_mk]
    | with_reducible apply keeps_of
    | (extract_lets x; first | (refine wf_cut (Keep qk x = true) ?_ ?_; focus (subst x); rotate_left; focus (intro hx; generalize x = y at hx ⊢)) | skip)

theorem portAges_wf {qk : Kept} {s : State} {t elapsed : Nat} (h_s : Keep qk s = true) : Keep qk (portAges s t elapsed) = true := by
  unfold portAges
  repeat' first
    | with_reducible assumption
    | with_reducible intro _
    | with_reducible apply requestFails_wf
    | with_reducible apply setPort_wf
    | with_reducible apply transactionLost_wf
    | with_reducible apply wf_forEach
    | simp only [wf_mk]
    | with_reducible apply keeps_of
    | (extract_lets x; first | (refine wf_cut (Keep qk x = true) ?_ ?_; focus (subst x); rotate_left; focus (intro hx; generalize x = y at hx ⊢)) | skip)
    | dsimp -zeta only

theorem busGsram_wf {qk : Kept} {s : State} {m k : Nat} {w : Word} (h_s : Keep qk s = true) : Keep qk (busGsram s m k w) = true := by
  unfold busGsram
  repeat' first
    | with_reducible assumption
    | with_reducible intro _
    | with_reducible apply gsSet_wf
    | with_reducible apply shadowWrite_wf
    | with_reducible apply nonOwner_wf
    | with_reducible apply fabWriteAt_wf
    | with_reducible apply wf_ite
    | simp only [wf_mk]
    | with_reducible apply keeps_of
    | (extract_lets x; first | (refine wf_cut (Keep qk x = true) ?_ ?_; focus (subst x); rotate_left; focus (intro hx; generalize x = y at hx ⊢)) | skip)
    | dsimp -zeta only

theorem burstWord_wf {qk : Kept} {s : State} {cls : MemClass} {m unit a : Nat} {w : Word} (h_s : Keep qk s = true) : Keep qk (burstWord s cls m unit a w) = true := by
  unfold burstWord
  repeat' first
    | with_reducible assumption
    | with_reducible intro _
    | with_reducible apply drSet_wf
    | with_reducible apply frameSet_wf
    | with_reducible apply busGsram_wf
    | simp only [wf_mk]
    | with_reducible apply keeps_of
    | (extract_lets x; first | (refine wf_cut (Keep qk x = true) ?_ ?_; focus (subst x); rotate_left; focus (intro hx; generalize x = y at hx ⊢)) | skip)
    | split

theorem memoryBurst_wf {qk : Kept} {s : State} {t : Nat} {r : BusReq} {ecc : EccResult} (h_s : Keep qk s = true) : Keep qk (memoryBurst s t r ecc) = true := by
  unfold memoryBurst
  repeat' first
    | with_reducible assumption
    | with_reducible intro _
    | with_reducible apply captureError_wf
    | with_reducible apply uncorrectable_wf
    | with_reducible apply eccFound_wf
    | with_reducible apply burstWord_wf
    | with_reducible apply wf_foldl
    | with_reducible apply wf_foldl1
    | with_reducible apply wf_ite
    | simp only [wf_mk]
    | with_reducible apply keeps_of
    | (extract_lets x; first | (refine wf_cut (Keep qk x = true) ?_ ?_; focus (subst x); rotate_left; focus (intro hx; generalize x = y at hx ⊢)) | skip)
    | dsimp -zeta only
    | split

theorem hostMtxErrClear_wf {qk : Kept} {w : Word} {s : State} (h_s : Keep qk s = true) : Keep qk (hostMtxErrClear w s) = true := by
  unfold hostMtxErrClear
  repeat' first
    | with_reducible assumption
    | with_reducible intro _
    | with_reducible apply rclr_wf
    | with_reducible apply wf_ite
    | simp only [wf_mk]
    | with_reducible apply keeps_of
    | (extract_lets x; first | (refine wf_cut (Keep qk x = true) ?_ ?_; focus (subst x); rotate_left; focus (intro hx; generalize x = y at hx ⊢)) | skip)

theorem execMtxErrClear_wf {qk : Kept} {w : Word} {s : State} (h_s : Keep qk s = true) : OW qk (execMtxErrClear w s) := by
  unfold execMtxErrClear
  repeat' first
    | with_reducible assumption
    | with_reducible intro _
    | with_reducible apply onBar_wf
    | with_reducible apply hostMtxErrClear_wf
    | with_reducible apply ow_next
    | simp only [wf_mk]
    | with_reducible apply keeps_of
    | (extract_lets x; first | (refine wf_cut (Keep qk x = true) ?_ ?_; focus (subst x); rotate_left; focus (intro hx; generalize x = y at hx ⊢)) | skip)

theorem hostBphRxEnWrite_wf {qk : Kept} {n : Fin 16} {w : Word} {s : State} (h_s : Keep qk s = true) : Keep qk (hostBphRxEnWrite n w s) = true := by
  unfold hostBphRxEnWrite
  repeat' first
    | with_reducible assumption
    | with_reducible intro _
    | with_reducible apply writeBphRxCtrl_wf
    | simp only [wf_mk]
    | with_reducible apply keeps_of
    | (extract_lets x; first | (refine wf_cut (Keep qk x = true) ?_ ?_; focus (subst x); rotate_left; focus (intro hx; generalize x = y at hx ⊢)) | skip)

theorem execBphRxEnWrite_wf {qk : Kept} {n : Fin 16} {w : Word} {s : State} (h_s : Keep qk s = true) : OW qk (execBphRxEnWrite n w s) := by
  unfold execBphRxEnWrite
  repeat' first
    | with_reducible assumption
    | with_reducible intro _
    | with_reducible apply onBar_wf
    | with_reducible apply hostBphRxEnWrite_wf
    | with_reducible apply ow_next
    | simp only [wf_mk]
    | with_reducible apply keeps_of
    | (extract_lets x; first | (refine wf_cut (Keep qk x = true) ?_ ?_; focus (subst x); rotate_left; focus (intro hx; generalize x = y at hx ⊢)) | skip)

end Sys2Proof.Machine
end

