-- ==== Sys2Proof/Laws/KeepsStack.lean ====
section
/-! SUPPORT. The operations of Machine/Stack.lean keep what `Keep` names. -/

namespace Sys2Proof.Machine
open Sys2Proof
set_option linter.all false
set_option simprocs false

theorem setStk_wf {qk : Kept} {s : State} {x : StkState} (h_s : Keep qk s = true) : Keep qk (setStk s x) = true := by
  unfold setStk
  repeat' first
    | with_reducible assumption
    | with_reducible intro _
    | simp only [wf_mk]
    | with_reducible apply keeps_of
    | (extract_lets x; first | (refine wf_cut (Keep qk x = true) ?_ ?_; focus (subst x); rotate_left; focus (intro hx; generalize x = y at hx ⊢)) | skip)

theorem noteSeen_wf {qk : Kept} {s : State} {ws : List Nat} (h_s : Keep qk s = true) : Keep qk (noteSeen s ws) = true := by
  unfold noteSeen
  repeat' first
    | with_reducible assumption
    | with_reducible intro _
    | with_reducible apply setStk_wf
    | simp only [wf_mk]
    | with_reducible apply keeps_of
    | (extract_lets x; first | (refine wf_cut (Keep qk x = true) ?_ ?_; focus (subst x); rotate_left; focus (intro hx; generalize x = y at hx ⊢)) | skip)

theorem badStkMessage_wf {qk : Kept} {s : State} {l : Nat} {crc : Bool} (h_s : Keep qk s = true) : Keep qk (badStkMessage s l crc) = true := by
  unfold badStkMessage
  repeat' first
    | with_reducible assumption
    | with_reducible intro _
    | with_reducible apply radd_wf
    | with_reducible apply raise_wf
    | with_reducible apply setStk_wf
    | with_reducible apply wf_ite
    | simp only [wf_mk]
    | with_reducible apply keeps_of
    | (extract_lets x; first | (refine wf_cut (Keep qk x = true) ?_ ?_; focus (subst x); rotate_left; focus (intro hx; generalize x = y at hx ⊢)) | skip)

theorem stkTake_wf {qk : Kept} {s : State} {l : Nat} {ws : List Nat} (h_s : Keep qk s = true) : PW qk (stkTake s l ws) := by
  unfold stkTake
  repeat' first
    | with_reducible assumption
    | with_reducible intro _
    | with_reducible apply stkOnLink_wf
    | with_reducible apply noteSeen_wf
    | with_reducible apply badStkMessage_wf
    | with_reducible apply wf_forEach
    | with_reducible apply pw_ite
    | with_reducible apply wf_ite
    | with_reducible apply pw_mk
    | simp only [wf_mk]
    | with_reducible apply keeps_of
    | (extract_lets x; first | (refine wf_cut (Keep qk x = true) ?_ ?_; focus (subst x); rotate_left; focus (intro hx; generalize x = y at hx ⊢)) | skip)
theorem stkTake_e {qk : Kept} {s : State} {l : Nat} {ws : List Nat} {zt : State} {zb} (e : (stkTake s l ws) = (zt, zb)) (h_s : Keep qk s = true) : Keep qk zt = true := pw_e (stkTake_wf h_s) e
theorem stkTake_p {qk : Kept} {s : State} {l : Nat} {ws : List Nat} (h_s : Keep qk s = true) : Keep qk (stkTake s l ws).1 = true := stkTake_wf h_s

theorem onStack_wf {qk : Kept} {s : State} {l : Nat} {ws : List Nat} {type : Nat} {f : State → State} (h_s : Keep qk s = true) (h_f : ∀ (a0 : State), Keep qk a0 = true → Keep qk (f a0) = true) : OW qk (onStack s l ws type f) := by
  unfold onStack
  repeat' first
    | with_reducible assumption
    | with_reducible intro _
    | with_reducible apply h_f
    | with_reducible apply of_pw
    | with_reducible apply onHost_wf
    | refine stkTake_e (by with_reducible assumption) ?_
    | with_reducible apply stkTake_p
    | with_reducible apply stkTake_wf
    | with_reducible apply ow_ite
    | with_reducible apply wf_ite
    | with_reducible apply ow_next
    | simp only [wf_mk]
    | with_reducible apply keeps_of
    | (extract_lets x; first | (refine wf_cut (Keep qk x = true) ?_ ?_; focus (subst x); rotate_left; focus (intro hx; generalize x = y at hx ⊢)) | skip)
    | split

theorem setRoutes_wf {qk : Kept} {s : State} {m : Nat} (h_s : Keep qk s = true) : Keep qk (setRoutes s m) = true := by
  unfold setRoutes
  repeat' first
    | with_reducible assumption
    | with_reducible intro _
    | with_reducible apply rput_wf
    | with_reducible apply wf_forEach
    | with_reducible apply wf_ite
    | simp only [wf_mk]
    | with_reducible apply keeps_of
    | (extract_lets x; first | (refine wf_cut (Keep qk x = true) ?_ ?_; focus (subst x); rotate_left; focus (intro hx; generalize x = y at hx ⊢)) | skip)
    | split

theorem membersLost_wf {qk : Kept} {s : State} {lost : Nat} (h_s : Keep qk s = true) : Keep qk (membersLost s lost) = true := by
  unfold membersLost
  repeat' first
    | with_reducible assumption
    | with_reducible intro _
    | with_reducible apply raise_wf
    | with_reducible apply setStk_wf
    | with_reducible apply wf_forEach
    | simp only [wf_mk]
    | with_reducible apply keeps_of
    | (extract_lets x; first | (refine wf_cut (Keep qk x = true) ?_ ?_; focus (subst x); rotate_left; focus (intro hx; generalize x = y at hx ⊢)) | skip)
    | dsimp -zeta only

theorem membersBack_wf {qk : Kept} {s : State} {back : Nat} (h_s : Keep qk s = true) : Keep qk (membersBack s back) = true := by
  unfold membersBack
  repeat' first
    | with_reducible assumption
    | with_reducible intro _
    | with_reducible apply sendSubscribe_wf
    | with_reducible apply wf_forEach
    | simp only [wf_mk]
    | with_reducible apply keeps_of
    | (extract_lets x; first | (refine wf_cut (Keep qk x = true) ?_ ?_; focus (subst x); rotate_left; focus (intro hx; generalize x = y at hx ⊢)) | skip)

theorem refreshMap_wf {qk : Kept} {s : State} (h_s : Keep qk s = true) : Keep qk (refreshMap s) = true := by
  unfold refreshMap
  repeat' first
    | with_reducible assumption
    | with_reducible intro _
    | with_reducible apply rput_wf
    | with_reducible apply rbit_wf
    | with_reducible apply setRoutes_wf
    | with_reducible apply membersLost_wf
    | with_reducible apply membersBack_wf
    | with_reducible apply wf_ite
    | simp only [wf_mk]
    | with_reducible apply keeps_of
    | (extract_lets x; first | (refine wf_cut (Keep qk x = true) ?_ ?_; focus (subst x); rotate_left; focus (intro hx; generalize x = y at hx ⊢)) | skip)

theorem voteAgain_wf {qk : Kept} {s : State} (h_s : Keep qk s = true) : Keep qk (voteAgain s) = true := by
  unfold voteAgain
  repeat' first
    | with_reducible assumption
    | with_reducible intro _
    | with_reducible apply sendVote_wf
    | with_reducible apply wf_forEach
    | simp only [wf_mk]
    | with_reducible apply keeps_of
    | (extract_lets x; first | (refine wf_cut (Keep qk x = true) ?_ ?_; focus (subst x); rotate_left; focus (intro hx; generalize x = y at hx ⊢)) | skip)

theorem dropStackTime_wf {qk : Kept} {s : State} (h_s : Keep qk s = true) : Keep qk (dropStackTime s) = true := by
  unfold dropStackTime
  repeat' first
    | with_reducible assumption
    | with_reducible intro _
    | with_reducible apply rclr_wf
    | with_reducible apply disqualify_wf
    | simp only [wf_mk]
    | with_reducible apply keeps_of
    | (extract_lets x; first | (refine wf_cut (Keep qk x = true) ?_ ?_; focus (subst x); rotate_left; focus (intro hx; generalize x = y at hx ⊢)) | skip)

theorem becomeMaster_wf {qk : Kept} {s : State} (h_s : Keep qk s = true) : Keep qk (becomeMaster s) = true := by
  unfold becomeMaster
  repeat' first
    | with_reducible assumption
    | with_reducible intro _
    | with_reducible apply rput_wf
    | with_reducible apply rset_wf
    | with_reducible apply rclr_wf
    | with_reducible apply coordinate_wf
    | with_reducible apply setStk_wf
    | with_reducible apply voteAgain_wf
    | with_reducible apply dropStackTime_wf
    | with_reducible apply discover_wf
    | simp only [wf_mk]
    | with_reducible apply keeps_of
    | (extract_lets x; first | (refine wf_cut (Keep qk x = true) ?_ ?_; focus (subst x); rotate_left; focus (intro hx; generalize x = y at hx ⊢)) | skip)

theorem becomeMember_wf {qk : Kept} {s : State} {m : Nat} (h_s : Keep qk s = true) : Keep qk (becomeMember s m) = true := by
  unfold becomeMember
  repeat' first
    | with_reducible assumption
    | with_reducible intro _
    | with_reducible apply rput_wf
    | with_reducible apply rclr_wf
    | with_reducible apply setStk_wf
    | with_reducible apply voteAgain_wf
    | simp only [wf_mk]
    | with_reducible apply keeps_of
    | (extract_lets x; first | (refine wf_cut (Keep qk x = true) ?_ ?_; focus (subst x); rotate_left; focus (intro hx; generalize x = y at hx ⊢)) | skip)

theorem standAlone_wf {qk : Kept} {s : State} (h_s : Keep qk s = true) : Keep qk (standAlone s) = true := by
  unfold standAlone
  repeat' first
    | with_reducible assumption
    | with_reducible intro _
    | with_reducible apply rclr_wf
    | with_reducible apply setStk_wf
    | with_reducible apply becomeMaster_wf
    | with_reducible apply discover_wf
    | with_reducible apply wf_ite
    | simp only [wf_mk]
    | with_reducible apply keeps_of
    | (extract_lets x; first | (refine wf_cut (Keep qk x = true) ?_ ?_; focus (subst x); rotate_left; focus (intro hx; generalize x = y at hx ⊢)) | skip)

theorem discover_wf {qk : Kept} {s : State} (h_s : Keep qk s = true) : Keep qk (discover s) = true := by
  unfold discover
  repeat' first
    | with_reducible assumption
    | with_reducible intro _
    | with_reducible apply rclr_wf
    | with_reducible apply setStk_wf
    | with_reducible apply wf_ite
    | simp only [wf_mk]
    | with_reducible apply keeps_of
    | (extract_lets x; first | (refine wf_cut (Keep qk x = true) ?_ ?_; focus (subst x); rotate_left; focus (intro hx; generalize x = y at hx ⊢)) | skip)

theorem handLog_wf {qk : Kept} {s : State} {m : Nat} {ds : List StkDecision} (h_s : Keep qk s = true) : Keep qk (handLog s m ds) = true := by
  unfold handLog
  repeat' first
    | with_reducible assumption
    | with_reducible intro _
    | with_reducible apply stkAsk_wf
    | with_reducible apply wf_forEach
    | simp only [wf_mk]
    | with_reducible apply keeps_of
    | (extract_lets x; first | (refine wf_cut (Keep qk x = true) ?_ ?_; focus (subst x); rotate_left; focus (intro hx; generalize x = y at hx ⊢)) | skip)

theorem giveUp_wf {qk : Kept} {s : State} {m : Nat} (h_s : Keep qk s = true) : Keep qk (giveUp s m) = true := by
  unfold giveUp
  repeat' first
    | with_reducible assumption
    | with_reducible intro _
    | with_reducible apply becomeMember_wf
    | with_reducible apply handLog_wf
    | simp only [wf_mk]
    | with_reducible apply keeps_of
    | (extract_lets x; first | (refine wf_cut (Keep qk x = true) ?_ ?_; focus (subst x); rotate_left; focus (intro hx; generalize x = y at hx ⊢)) | skip)

theorem takeOver_wf {qk : Kept} {s : State} (h_s : Keep qk s = true) : Keep qk (takeOver s) = true := by
  unfold takeOver
  repeat' first
    | with_reducible assumption
    | with_reducible intro _
    | with_reducible apply rset_wf
    | with_reducible apply radd_wf
    | with_reducible apply raise_wf
    | with_reducible apply becomeMaster_wf
    | simp only [wf_mk]
    | with_reducible apply keeps_of
    | (extract_lets x; first | (refine wf_cut (Keep qk x = true) ?_ ?_; focus (subst x); rotate_left; focus (intro hx; generalize x = y at hx ⊢)) | skip)

theorem sendHello_wf {qk : Kept} {s : State} {l : Nat} (h_s : Keep qk s = true) : Keep qk (sendHello s l) = true := by
  unfold sendHello
  repeat' first
    | with_reducible assumption
    | with_reducible intro _
    | with_reducible apply stkLinkSend_wf
    | simp only [wf_mk]
    | with_reducible apply keeps_of
    | (extract_lets x; first | (refine wf_cut (Keep qk x = true) ?_ ?_; focus (subst x); rotate_left; focus (intro hx; generalize x = y at hx ⊢)) | skip)

theorem execStackLinkUp_wf {qk : Kept} {l : Fin 4} {s : State} (h_s : Keep qk s = true) : OW qk (execStackLinkUp l s) := by
  unfold execStackLinkUp
  repeat' first
    | with_reducible assumption
    | with_reducible intro _
    | with_reducible apply rput_wf
    | with_reducible apply onHost_wf
    | with_reducible apply raise_wf
    | with_reducible apply discover_wf
    | with_reducible apply sendHello_wf
    | with_reducible apply ow_ite
    | with_reducible apply wf_ite
    | with_reducible apply ow_next
    | simp only [wf_mk]
    | with_reducible apply keeps_of
    | (extract_lets x; first | (refine wf_cut (Keep qk x = true) ?_ ?_; focus (subst x); rotate_left; focus (intro hx; generalize x = y at hx ⊢)) | skip)

theorem execStackLinkDown_wf {qk : Kept} {l : Fin 4} {s : State} (h_s : Keep qk s = true) : OW qk (execStackLinkDown l s) := by
  unfold execStackLinkDown
  repeat' first
    | with_reducible assumption
    | with_reducible intro _
    | with_reducible apply wr_wf
    | with_reducible apply onHost_wf
    | with_reducible apply raise_wf
    | with_reducible apply setStk_wf
    | with_reducible apply standAlone_wf
    | with_reducible apply ow_ite
    | with_reducible apply wf_ite
    | with_reducible apply ow_next
    | simp only [wf_mk]
    | with_reducible apply keeps_of
    | (extract_lets x; first | (refine wf_cut (Keep qk x = true) ?_ ?_; focus (subst x); rotate_left; focus (intro hx; generalize x = y at hx ⊢)) | skip)

theorem execHelloSend_wf {qk : Kept} {s : State} (h_s : Keep qk s = true) : OW qk (execHelloSend s) := by
  unfold execHelloSend
  repeat' first
    | with_reducible assumption
    | with_reducible intro _
    | with_reducible apply onHost_wf
    | with_reducible apply sendHello_wf
    | with_reducible apply wf_forEach
    | with_reducible apply ow_next
    | simp only [wf_mk]
    | with_reducible apply keeps_of
    | (extract_lets x; first | (refine wf_cut (Keep qk x = true) ?_ ?_; focus (subst x); rotate_left; focus (intro hx; generalize x = y at hx ⊢)) | skip)

theorem duplicateId_wf {qk : Kept} {s : State} (h_s : Keep qk s = true) : Keep qk (duplicateId s) = true := by
  unfold duplicateId
  repeat' first
    | with_reducible assumption
    | with_reducible intro _
    | with_reducible apply rset_wf
    | with_reducible apply rclr_wf
    | with_reducible apply raise_wf
    | with_reducible apply standAlone_wf
    | with_reducible apply wf_ite
    | simp only [wf_mk]
    | with_reducible apply keeps_of
    | (extract_lets x; first | (refine wf_cut (Keep qk x = true) ?_ ?_; focus (subst x); rotate_left; focus (intro hx; generalize x = y at hx ⊢)) | skip)

theorem noteView_wf {qk : Kept} {s : State} {l : Nat} {v : StackView} (h_s : Keep qk s = true) : Keep qk (noteView s l v) = true := by
  unfold noteView
  repeat' first
    | with_reducible assumption
    | with_reducible intro _
    | with_reducible apply setStk_wf
    | simp only [wf_mk]
    | with_reducible apply keeps_of
    | (extract_lets x; first | (refine wf_cut (Keep qk x = true) ?_ ?_; focus (subst x); rotate_left; focus (intro hx; generalize x = y at hx ⊢)) | skip)

theorem execHello_wf {qk : Kept} {l : Fin 4} {m : HelloIn} {s : State} (h_s : Keep qk s = true) : OW qk (execHello l m s) := by
  unfold execHello
  repeat' first
    | with_reducible assumption
    | with_reducible intro _
    | with_reducible apply rput_wf
    | with_reducible apply rset_wf
    | with_reducible apply setStk_wf
    | with_reducible apply onStack_wf
    | with_reducible apply duplicateId_wf
    | with_reducible apply noteView_wf
    | with_reducible apply ow_ite
    | with_reducible apply wf_ite
    | with_reducible apply ow_next
    | simp only [wf_mk]
    | with_reducible apply keeps_of
    | (extract_lets x; first | (refine wf_cut (Keep qk x = true) ?_ ?_; focus (subst x); rotate_left; focus (intro hx; generalize x = y at hx ⊢)) | skip)

theorem execDiscoveryWaitExpiry_wf {qk : Kept} {s : State} (h_s : Keep qk s = true) : OW qk (execDiscoveryWaitExpiry s) := by
  unfold execDiscoveryWaitExpiry
  repeat' first
    | with_reducible assumption
    | with_reducible intro _
    | with_reducible apply onHost_wf
    | with_reducible apply refreshMap_wf
    | with_reducible apply becomeMaster_wf
    | with_reducible apply ow_ite
    | with_reducible apply wf_ite
    | with_reducible apply ow_next
    | simp only [wf_mk]
    | with_reducible apply keeps_of
    | (extract_lets x; first | (refine wf_cut (Keep qk x = true) ?_ ?_; focus (subst x); rotate_left; focus (intro hx; generalize x = y at hx ⊢)) | skip)
    | split

theorem noteMap_wf {qk : Kept} {s : State} {m : Nat} (h_s : Keep qk s = true) : Keep qk (noteMap s m) = true := by
  unfold noteMap
  repeat' first
    | with_reducible assumption
    | with_reducible intro _
    | with_reducible apply setStk_wf
    | with_reducible apply membersBack_wf
    | with_reducible apply wf_ite
    | simp only [wf_mk]
    | with_reducible apply keeps_of
    | (extract_lets x; first | (refine wf_cut (Keep qk x = true) ?_ ?_; focus (subst x); rotate_left; focus (intro hx; generalize x = y at hx ⊢)) | skip)

theorem acceptBeat_wf {qk : Kept} {s : State} {ws : List Nat} (h_s : Keep qk s = true) : Keep qk (acceptBeat s ws) = true := by
  unfold acceptBeat
  repeat' first
    | with_reducible assumption
    | with_reducible intro _
    | with_reducible apply rput_wf
    | with_reducible apply rset_wf
    | with_reducible apply rclr_wf
    | with_reducible apply raise_wf
    | with_reducible apply setStk_wf
    | with_reducible apply voteAgain_wf
    | with_reducible apply becomeMaster_wf
    | with_reducible apply discover_wf
    | with_reducible apply noteMap_wf
    | with_reducible apply wf_ite
    | simp only [wf_mk]
    | with_reducible apply keeps_of
    | (extract_lets x; first | (refine wf_cut (Keep qk x = true) ?_ ?_; focus (subst x); rotate_left; focus (intro hx; generalize x = y at hx ⊢)) | skip)

theorem execStackHeartbeat_wf {qk : Kept} {l : Fin 4} {ws : List Nat} {s : State} (h_s : Keep qk s = true) : OW qk (execStackHeartbeat l ws s) := by
  unfold execStackHeartbeat
  repeat' first
    | with_reducible assumption
    | with_reducible intro _
    | with_reducible apply setStk_wf
    | with_reducible apply onStack_wf
    | with_reducible apply acceptBeat_wf
    | with_reducible apply ow_ite
    | with_reducible apply wf_ite
    | with_reducible apply ow_next
    | simp only [wf_mk]
    | with_reducible apply keeps_of
    | (extract_lets x; first | (refine wf_cut (Keep qk x = true) ?_ ?_; focus (subst x); rotate_left; focus (intro hx; generalize x = y at hx ⊢)) | skip)

theorem execHeartbeatWindowExpiry_wf {qk : Kept} {s : State} (h_s : Keep qk s = true) : OW qk (execHeartbeatWindowExpiry s) := by
  unfold execHeartbeatWindowExpiry
  repeat' first
    | with_reducible assumption
    | with_reducible intro _
    | with_reducible apply radd_wf
    | with_reducible apply onHost_wf
    | with_reducible apply raise_wf
    | with_reducible apply setStk_wf
    | with_reducible apply dropStackTime_wf
    | with_reducible apply takeOver_wf
    | with_reducible apply ow_ite
    | with_reducible apply wf_ite
    | with_reducible apply ow_next
    | simp only [wf_mk]
    | with_reducible apply keeps_of
    | (extract_lets x; first | (refine wf_cut (Keep qk x = true) ?_ ?_; focus (subst x); rotate_left; focus (intro hx; generalize x = y at hx ⊢)) | skip)

theorem stackEnabled_wf {qk : Kept} {s : State} {was : Bool} (h_s : Keep qk s = true) : Keep qk (stackEnabled s was) = true := by
  unfold stackEnabled
  repeat' first
    | with_reducible assumption
    | with_reducible intro _
    | with_reducible apply standAlone_wf
    | with_reducible apply discover_wf
    | with_reducible apply wf_ite
    | simp only [wf_mk]
    | with_reducible apply keeps_of
    | (extract_lets x; first | (refine wf_cut (Keep qk x = true) ?_ ?_; focus (subst x); rotate_left; focus (intro hx; generalize x = y at hx ⊢)) | skip)

theorem hostHandover_wf {qk : Kept} {w : Word} {s : State} (h_s : Keep qk s = true) : Keep qk (hostHandover w s) = true := by
  unfold hostHandover
  repeat' first
    | with_reducible assumption
    | with_reducible intro _
    | with_reducible apply rset_wf
    | with_reducible apply rwrite_wf
    | with_reducible apply setStk_wf
    | with_reducible apply stackEnabled_wf
    | with_reducible apply wf_ite
    | simp only [wf_mk]
    | with_reducible apply keeps_of
    | (extract_lets x; first | (refine wf_cut (Keep qk x = true) ?_ ?_; focus (subst x); rotate_left; focus (intro hx; generalize x = y at hx ⊢)) | skip)

theorem execHandover_wf {qk : Kept} {w : Word} {s : State} (h_s : Keep qk s = true) : OW qk (execHandover w s) := by
  unfold execHandover
  repeat' first
    | with_reducible assumption
    | with_reducible intro _
    | with_reducible apply onBar_wf
    | with_reducible apply hostHandover_wf
    | with_reducible apply ow_next
    | simp only [wf_mk]
    | with_reducible apply keeps_of
    | (extract_lets x; first | (refine wf_cut (Keep qk x = true) ?_ ?_; focus (subst x); rotate_left; focus (intro hx; generalize x = y at hx ⊢)) | skip)

theorem execMemberStatus_wf {qk : Kept} {l : Fin 4} {ws : List Nat} {s : State} (h_s : Keep qk s = true) : OW qk (execMemberStatus l ws s) := by
  unfold execMemberStatus
  repeat' first
    | with_reducible assumption
    | with_reducible intro _
    | with_reducible apply rput_wf
    | with_reducible apply setStk_wf
    | with_reducible apply onStack_wf
    | with_reducible apply ow_ite
    | with_reducible apply wf_ite
    | with_reducible apply ow_next
    | simp only [wf_mk]
    | with_reducible apply keeps_of
    | (extract_lets x; first | (refine wf_cut (Keep qk x = true) ?_ ?_; focus (subst x); rotate_left; focus (intro hx; generalize x = y at hx ⊢)) | skip)

theorem stackEstimate_wf {qk : Kept} {s : State} {est freq : Int} (h_s : Keep qk s = true) : Keep qk (stackEstimate s est freq) = true := by
  unfold stackEstimate
  repeat' first
    | with_reducible assumption
    | with_reducible intro _
    | with_reducible apply rputI_wf
    | with_reducible apply rset_wf
    | with_reducible apply frequencyGate_wf
    | with_reducible apply absoluteEstimate_wf
    | with_reducible apply setStk_wf
    | with_reducible apply wf_ite
    | simp only [wf_mk]
    | with_reducible apply keeps_of
    | (extract_lets x; first | (refine wf_cut (Keep qk x = true) ?_ ?_; focus (subst x); rotate_left; focus (intro hx; generalize x = y at hx ⊢)) | skip)

theorem execTimeSync_wf {qk : Kept} {l : Fin 4} {ws : List Nat} {own : SyncReport} {s : State} (h_s : Keep qk s = true) : OW qk (execTimeSync l ws own s) := by
  unfold execTimeSync
  repeat' first
    | with_reducible assumption
    | with_reducible intro _
    | with_reducible apply stkOnLink_wf
    | with_reducible apply noteSeen_wf
    | with_reducible apply onStack_wf
    | with_reducible apply stackEstimate_wf
    | with_reducible apply wf_forEach
    | with_reducible apply ow_ite
    | with_reducible apply wf_ite
    | with_reducible apply ow_next
    | simp only [wf_mk]
    | with_reducible apply keeps_of
    | (extract_lets x; first | (refine wf_cut (Keep qk x = true) ?_ ?_; focus (subst x); rotate_left; focus (intro hx; generalize x = y at hx ⊢)) | skip)

theorem execDelayReq_wf {qk : Kept} {l : Fin 4} {ws : List Nat} {s : State} (h_s : Keep qk s = true) : OW qk (execDelayReq l ws s) := by
  unfold execDelayReq
  repeat' first
    | with_reducible assumption
    | with_reducible intro _
    | with_reducible apply stkLinkSend_wf
    | with_reducible apply setStk_wf
    | with_reducible apply onStack_wf
    | with_reducible apply ow_next
    | simp only [wf_mk]
    | with_reducible apply keeps_of
    | (extract_lets x; first | (refine wf_cut (Keep qk x = true) ?_ ?_; focus (subst x); rotate_left; focus (intro hx; generalize x = y at hx ⊢)) | skip)

theorem execDelayResp_wf {qk : Kept} {l : Fin 4} {ws : List Nat} {s : State} (h_s : Keep qk s = true) : OW qk (execDelayResp l ws s) := by
  unfold execDelayResp
  repeat' first
    | with_reducible assumption
    | with_reducible intro _
    | with_reducible apply rput_wf
    | with_reducible apply onStack_wf
    | with_reducible apply ow_next
    | simp only [wf_mk]
    | with_reducible apply keeps_of
    | (extract_lets x; first | (refine wf_cut (Keep qk x = true) ?_ ?_; focus (subst x); rotate_left; focus (intro hx; generalize x = y at hx ⊢)) | skip)

theorem execSubscribe_wf {qk : Kept} {l : Fin 4} {ws : List Nat} {s : State} (h_s : Keep qk s = true) : OW qk (execSubscribe l ws s) := by
  unfold execSubscribe
  repeat' first
    | with_reducible assumption
    | with_reducible intro _
    | with_reducible apply setStk_wf
    | with_reducible apply onStack_wf
    | with_reducible apply ow_ite
    | with_reducible apply wf_ite
    | with_reducible apply ow_next
    | simp only [wf_mk]
    | with_reducible apply keeps_of
    | (extract_lets x; first | (refine wf_cut (Keep qk x = true) ?_ ?_; focus (subst x); rotate_left; focus (intro hx; generalize x = y at hx ⊢)) | skip)

theorem writeRemote_wf {qk : Kept} {s : State} {ws : List Nat} {i c : Nat} (h_s : Keep qk s = true) : Keep qk (writeRemote s ws i c) = true := by
  unfold writeRemote
  repeat' first
    | with_reducible assumption
    | with_reducible intro _
    | with_reducible apply setChan_wf
    | with_reducible apply lateWrite_wf
    | with_reducible apply fabWrite_wf
    | with_reducible apply setStk_wf
    | with_reducible apply wf_forEach
    | with_reducible apply wf_ite
    | simp only [wf_mk]
    | with_reducible apply keeps_of
    | (extract_lets x; first | (refine wf_cut (Keep qk x = true) ?_ ?_; focus (subst x); rotate_left; focus (intro hx; generalize x = y at hx ⊢)) | skip)

theorem execBeads_wf {qk : Kept} {l : Fin 4} {ws : List Nat} {s : State} (h_s : Keep qk s = true) : OW qk (execBeads l ws s) := by
  unfold execBeads
  repeat' first
    | with_reducible assumption
    | with_reducible intro _
    | with_reducible apply onStack_wf
    | with_reducible apply writeRemote_wf
    | with_reducible apply wf_forEach
    | with_reducible apply ow_next
    | simp only [wf_mk]
    | with_reducible apply keeps_of
    | (extract_lets x; first | (refine wf_cut (Keep qk x = true) ?_ ?_; focus (subst x); rotate_left; focus (intro hx; generalize x = y at hx ⊢)) | skip)

theorem execRemoteBeadDeadline_wf {qk : Kept} {s : State} (h_s : Keep qk s = true) : OW qk (execRemoteBeadDeadline s) := by
  unfold execRemoteBeadDeadline
  repeat' first
    | with_reducible assumption
    | with_reducible intro _
    | with_reducible apply radd_wf
    | with_reducible apply onHost_wf
    | with_reducible apply fabMissing_wf
    | with_reducible apply raise_wf
    | with_reducible apply wf_forEach
    | with_reducible apply ow_ite
    | with_reducible apply wf_ite
    | with_reducible apply ow_next
    | simp only [wf_mk]
    | with_reducible apply keeps_of
    | (extract_lets x; first | (refine wf_cut (Keep qk x = true) ?_ ?_; focus (subst x); rotate_left; focus (intro hx; generalize x = y at hx ⊢)) | skip)

theorem sendBeads_wf {qk : Kept} {s : State} (h_s : Keep qk s = true) : Keep qk (sendBeads s) = true := by
  unfold sendBeads
  repeat' first
    | with_reducible assumption
    | with_reducible intro _
    | with_reducible apply stkSend_wf
    | with_reducible apply noteBead_wf
    | with_reducible apply wf_forEach
    | with_reducible apply wf_ite
    | simp only [wf_mk]
    | with_reducible apply keeps_of
    | (extract_lets x; first | (refine wf_cut (Keep qk x = true) ?_ ?_; focus (subst x); rotate_left; focus (intro hx; generalize x = y at hx ⊢)) | skip)
    | dsimp -zeta only

theorem execVote_wf {qk : Kept} {l : Fin 4} {ws : List Nat} {s : State} (h_s : Keep qk s = true) : OW qk (execVote l ws s) := by
  unfold execVote
  repeat' first
    | with_reducible assumption
    | with_reducible intro _
    | with_reducible apply stkSend_wf
    | with_reducible apply coordinate_wf
    | with_reducible apply setStk_wf
    | with_reducible apply onStack_wf
    | with_reducible apply ow_ite
    | with_reducible apply wf_ite
    | with_reducible apply ow_next
    | simp only [wf_mk]
    | with_reducible apply keeps_of
    | (extract_lets x; first | (refine wf_cut (Keep qk x = true) ?_ ?_; focus (subst x); rotate_left; focus (intro hx; generalize x = y at hx ⊢)) | skip)
    | split

theorem execDecisionLog_wf {qk : Kept} {l : Fin 4} {ws : List Nat} {s : State} (h_s : Keep qk s = true) : OW qk (execDecisionLog l ws s) := by
  unfold execDecisionLog
  repeat' first
    | with_reducible assumption
    | with_reducible intro _
    | with_reducible apply stkSend_wf
    | with_reducible apply noteDecision_wf
    | with_reducible apply onStack_wf
    | with_reducible apply ow_next
    | simp only [wf_mk]
    | with_reducible apply keeps_of
    | (extract_lets x; first | (refine wf_cut (Keep qk x = true) ?_ ?_; focus (subst x); rotate_left; focus (intro hx; generalize x = y at hx ⊢)) | skip)

theorem execLogAck_wf {qk : Kept} {l : Fin 4} {ws : List Nat} {s : State} (h_s : Keep qk s = true) : OW qk (execLogAck l ws s) := by
  unfold execLogAck
  repeat' first
    | with_reducible assumption
    | with_reducible intro _
    | with_reducible apply stkAnswered_wf
    | with_reducible apply announce_wf
    | with_reducible apply onStack_wf
    | with_reducible apply ow_next
    | simp only [wf_mk]
    | with_reducible apply keeps_of
    | (extract_lets x; first | (refine wf_cut (Keep qk x = true) ?_ ?_; focus (subst x); rotate_left; focus (intro hx; generalize x = y at hx ⊢)) | skip)
    | split

theorem execDecision_wf {qk : Kept} {l : Fin 4} {ws : List Nat} {s : State} (h_s : Keep qk s = true) : OW qk (execDecision l ws s) := by
  unfold execDecision
  repeat' first
    | with_reducible assumption
    | with_reducible intro _
    | with_reducible apply noteDecision_wf
    | with_reducible apply decidePart_wf
    | with_reducible apply onStack_wf
    | with_reducible apply ow_next
    | simp only [wf_mk]
    | with_reducible apply keeps_of
    | (extract_lets x; first | (refine wf_cut (Keep qk x = true) ?_ ?_; focus (subst x); rotate_left; focus (intro hx; generalize x = y at hx ⊢)) | skip)

theorem execQuery_wf {qk : Kept} {l : Fin 4} {ws : List Nat} {s : State} (h_s : Keep qk s = true) : OW qk (execQuery l ws s) := by
  unfold execQuery
  repeat' first
    | with_reducible assumption
    | with_reducible intro _
    | with_reducible apply sendAnswer_wf
    | with_reducible apply answerDecision_wf
    | with_reducible apply onStack_wf
    | with_reducible apply ow_ite
    | with_reducible apply wf_ite
    | with_reducible apply ow_next
    | simp only [wf_mk]
    | with_reducible apply keeps_of
    | (extract_lets x; first | (refine wf_cut (Keep qk x = true) ?_ ?_; focus (subst x); rotate_left; focus (intro hx; generalize x = y at hx ⊢)) | skip)

theorem answerInquiry_wf {qk : Kept} {s : State} {src : Nat} {commit : Bool} {q : StkInquiry} (h_s : Keep qk s = true) : Keep qk (answerInquiry s src commit q) = true := by
  unfold answerInquiry
  repeat' first
    | with_reducible assumption
    | with_reducible intro _
    | with_reducible apply noteDecision_wf
    | with_reducible apply answerDecision_wf
    | with_reducible apply setStk_wf
    | with_reducible apply wf_ite
    | simp only [wf_mk]
    | with_reducible apply keeps_of
    | (extract_lets x; first | (refine wf_cut (Keep qk x = true) ?_ ?_; focus (subst x); rotate_left; focus (intro hx; generalize x = y at hx ⊢)) | skip)

theorem execAnswer_wf {qk : Kept} {l : Fin 4} {ws : List Nat} {s : State} (h_s : Keep qk s = true) : OW qk (execAnswer l ws s) := by
  unfold execAnswer
  repeat' first
    | with_reducible assumption
    | with_reducible intro _
    | with_reducible apply noteDecision_wf
    | with_reducible apply decidePart_wf
    | with_reducible apply setStk_wf
    | with_reducible apply onStack_wf
    | with_reducible apply answerInquiry_wf
    | with_reducible apply wf_forEach
    | with_reducible apply ow_ite
    | with_reducible apply wf_ite
    | with_reducible apply ow_next
    | simp only [wf_mk]
    | with_reducible apply keeps_of
    | (extract_lets x; first | (refine wf_cut (Keep qk x = true) ?_ ?_; focus (subst x); rotate_left; focus (intro hx; generalize x = y at hx ⊢)) | skip)

theorem execCarrySched_wf {qk : Kept} {l : Fin 4} {ws : List Nat} {s : State} (h_s : Keep qk s = true) : OW qk (execCarrySched l ws s) := by
  unfold execCarrySched
  repeat' first
    | with_reducible assumption
    | with_reducible intro _
    | with_reducible apply scheduleCarry_wf
    | with_reducible apply onStack_wf
    | with_reducible apply ow_next
    | simp only [wf_mk]
    | with_reducible apply keeps_of
    | (extract_lets x; first | (refine wf_cut (Keep qk x = true) ?_ ?_; focus (subst x); rotate_left; focus (intro hx; generalize x = y at hx ⊢)) | skip)

theorem execSplitReport_wf {qk : Kept} {l : Fin 4} {ws : List Nat} {s : State} (h_s : Keep qk s = true) : OW qk (execSplitReport l ws s) := by
  unfold execSplitReport
  repeat' first
    | with_reducible assumption
    | with_reducible intro _
    | with_reducible apply onStack_wf
    | with_reducible apply ow_next
    | ((show Keep qk _ = true; assumption))
    | simp only [id]
    | simp only [wf_mk]
    | with_reducible apply keeps_of
    | (extract_lets x; first | (refine wf_cut (Keep qk x = true) ?_ ?_; focus (subst x); rotate_left; focus (intro hx; generalize x = y at hx ⊢)) | skip)

theorem sendAgain_wf {qk : Kept} {s : State} {w : StkWait} (h_s : Keep qk s = true) : Keep qk (sendAgain s w) = true := by
  unfold sendAgain
  repeat' first
    | with_reducible assumption
    | with_reducible intro _
    | with_reducible apply stkSend_wf
    | with_reducible apply wf_ite
    | simp only [wf_mk]
    | with_reducible apply keeps_of
    | (extract_lets x; first | (refine wf_cut (Keep qk x = true) ?_ ?_; focus (subst x); rotate_left; focus (intro hx; generalize x = y at hx ⊢)) | skip)

theorem inquiriesLost_wf {qk : Kept} {s : State} (h_s : Keep qk s = true) : Keep qk (inquiriesLost s) = true := by
  unfold inquiriesLost
  repeat' first
    | with_reducible assumption
    | with_reducible intro _
    | with_reducible apply answerInquiry_wf
    | with_reducible apply wf_forEach
    | simp only [wf_mk]
    | with_reducible apply keeps_of
    | (extract_lets x; first | (refine wf_cut (Keep qk x = true) ?_ ?_; focus (subst x); rotate_left; focus (intro hx; generalize x = y at hx ⊢)) | skip)
    | split

theorem execStackRetransmit_wf {qk : Kept} {s : State} (h_s : Keep qk s = true) : OW qk (execStackRetransmit s) := by
  unfold execStackRetransmit
  repeat' first
    | with_reducible assumption
    | with_reducible intro _
    | with_reducible apply onHost_wf
    | with_reducible apply announce_wf
    | with_reducible apply setStk_wf
    | with_reducible apply sendAgain_wf
    | with_reducible apply inquiriesLost_wf
    | with_reducible apply wf_forEach
    | with_reducible apply ow_ite
    | with_reducible apply wf_ite
    | with_reducible apply ow_next
    | simp only [wf_mk]
    | with_reducible apply keeps_of
    | (extract_lets x; first | (refine wf_cut (Keep qk x = true) ?_ ?_; focus (subst x); rotate_left; focus (intro hx; generalize x = y at hx ⊢)) | skip)

theorem startPipe_wf {qm : Bool} {s : State} (h_s : Keep ⟨qm, none⟩ s = true) : Keep ⟨qm, none⟩ (startPipe s) = true := by
  unfold startPipe
  repeat' first
    | with_reducible assumption
    | with_reducible intro _
    | with_reducible apply writePipe_wf
    | with_reducible apply wf_ite
    | simp only [wf_mk]
    | with_reducible apply keeps_of
    | (extract_lets x; first | (refine wf_cut (Keep ⟨qm, none⟩ x = true) ?_ ?_; focus (subst x); rotate_left; focus (intro hx; generalize x = y at hx ⊢)) | skip)

theorem commitStart_wf {qk : Kept} {s : State} {stack : Bool} {n xid mask : Nat} {refused : State → State} (h_s : Keep qk s = true) (h_refused : ∀ (a0 : State), Keep qk a0 = true → Keep qk (refused a0) = true) : Keep qk (commitStart s stack n xid mask refused) = true := by
  unfold commitStart
  repeat' first
    | with_reducible assumption
    | with_reducible intro _
    | with_reducible apply h_refused
    | with_reducible apply of_pw
    | with_reducible apply openTally_wf
    | with_reducible apply writeRecords_wf
    | with_reducible apply commitTally_wf
    | with_reducible apply wf_ite
    | simp only [wf_mk]
    | with_reducible apply keeps_of
    | (extract_lets x; first | (refine wf_cut (Keep qk x = true) ?_ ?_; focus (subst x); rotate_left; focus (intro hx; generalize x = y at hx ⊢)) | skip)
    | split

theorem startPart_wf {qm : Bool} {s : State} {n xid : Nat} (h_s : Keep ⟨qm, none⟩ s = true) : Keep ⟨qm, none⟩ (startPart s n xid) = true := by
  unfold startPart
  repeat' first
    | with_reducible assumption
    | with_reducible intro _
    | with_reducible apply castVote_wf
    | with_reducible apply coordinate_wf
    | with_reducible apply setStk_wf
    | with_reducible apply startPipe_wf
    | with_reducible apply commitStart_wf
    | simp only [wf_mk]
    | with_reducible apply keeps_of
    | (extract_lets x; first | (refine wf_cut (Keep ⟨qm, none⟩ x = true) ?_ ?_; focus (subst x); rotate_left; focus (intro hx; generalize x = y at hx ⊢)) | skip)

theorem startAlone_wf {qm : Bool} {s : State} (h_s : Keep ⟨qm, none⟩ s = true) : Keep ⟨qm, none⟩ (startAlone s) = true := by
  unfold startAlone
  repeat' first
    | with_reducible assumption
    | with_reducible intro _
    | with_reducible apply setStk_wf
    | with_reducible apply startPipe_wf
    | with_reducible apply commitStart_wf
    | assumption
    | simp only [wf_mk]
    | with_reducible apply keeps_of
    | (extract_lets x; first | (refine wf_cut (Keep ⟨qm, none⟩ x = true) ?_ ?_; focus (subst x); rotate_left; focus (intro hx; generalize x = y at hx ⊢)) | skip)

theorem execStackStart_wf {qm : Bool} {l : Fin 4} {ws : List Nat} {s : State} (h_s : Keep ⟨qm, none⟩ s = true) : OW ⟨qm, none⟩ (execStackStart l ws s) := by
  unfold execStackStart
  repeat' first
    | with_reducible assumption
    | with_reducible intro _
    | with_reducible apply onStack_wf
    | with_reducible apply startPart_wf
    | with_reducible apply ow_ite
    | with_reducible apply wf_ite
    | with_reducible apply ow_next
    | simp only [wf_mk]
    | with_reducible apply keeps_of
    | (extract_lets x; first | (refine wf_cut (Keep ⟨qm, none⟩ x = true) ?_ ?_; focus (subst x); rotate_left; focus (intro hx; generalize x = y at hx ⊢)) | skip)

theorem execStartSend_wf {qm : Bool} {s : State} (h_s : Keep ⟨qm, none⟩ s = true) : OW ⟨qm, none⟩ (execStartSend s) := by
  unfold execStartSend
  repeat' first
    | with_reducible assumption
    | with_reducible intro _
    | with_reducible apply onHost_wf
    | with_reducible apply stkSend_wf
    | with_reducible apply setStk_wf
    | with_reducible apply startPart_wf
    | with_reducible apply startAlone_wf
    | with_reducible apply ow_ite
    | with_reducible apply wf_ite
    | with_reducible apply ow_next
    | simp only [wf_mk]
    | with_reducible apply keeps_of
    | (extract_lets x; first | (refine wf_cut (Keep ⟨qm, none⟩ x = true) ?_ ?_; focus (subst x); rotate_left; focus (intro hx; generalize x = y at hx ⊢)) | skip)

theorem checkStart_wf {qk : Kept} {s : State} (h_s : Keep qk s = true) : Keep qk (checkStart s) = true := by
  unfold checkStart
  repeat' first
    | with_reducible assumption
    | with_reducible intro _
    | with_reducible apply setStk_wf
    | simp only [wf_mk]
    | with_reducible apply keeps_of
    | (extract_lets x; first | (refine wf_cut (Keep qk x = true) ?_ ?_; focus (subst x); rotate_left; focus (intro hx; generalize x = y at hx ⊢)) | skip)
    | split

theorem sendBeat_wf {qk : Kept} {s : State} {master : Nat} (h_s : Keep qk s = true) : Keep qk (sendBeat s master) = true := by
  unfold sendBeat
  repeat' first
    | with_reducible assumption
    | with_reducible intro _
    | with_reducible apply rset_wf
    | with_reducible apply stkSend_wf
    | with_reducible apply wf_ite
    | simp only [wf_mk]
    | with_reducible apply keeps_of
    | (extract_lets x; first | (refine wf_cut (Keep qk x = true) ?_ ?_; focus (subst x); rotate_left; focus (intro hx; generalize x = y at hx ⊢)) | skip)
    | split

theorem masterBoundary_wf {qk : Kept} {s : State} (h_s : Keep qk s = true) : Keep qk (masterBoundary s) = true := by
  unfold masterBoundary
  repeat' first
    | with_reducible assumption
    | with_reducible intro _
    | with_reducible apply rset_wf
    | with_reducible apply raise_wf
    | with_reducible apply setStk_wf
    | with_reducible apply giveUp_wf
    | with_reducible apply sendBeat_wf
    | with_reducible apply wf_ite
    | simp only [wf_mk]
    | with_reducible apply keeps_of
    | (extract_lets x; first | (refine wf_cut (Keep qk x = true) ?_ ?_; focus (subst x); rotate_left; focus (intro hx; generalize x = y at hx ⊢)) | skip)
    | dsimp -zeta only
    | split

theorem sendTimeSync_wf {qk : Kept} {s : State} (h_s : Keep qk s = true) : Keep qk (sendTimeSync s) = true := by
  unfold sendTimeSync
  repeat' first
    | with_reducible assumption
    | with_reducible intro _
    | with_reducible apply stkOnLink_wf
    | with_reducible apply setStk_wf
    | with_reducible apply wf_forEach
    | simp only [wf_mk]
    | with_reducible apply keeps_of
    | (extract_lets x; first | (refine wf_cut (Keep qk x = true) ?_ ?_; focus (subst x); rotate_left; focus (intro hx; generalize x = y at hx ⊢)) | skip)

theorem linkBoundary_wf {qk : Kept} {s : State} (h_s : Keep qk s = true) : Keep qk (linkBoundary s) = true := by
  unfold linkBoundary
  repeat' first
    | with_reducible assumption
    | with_reducible intro _
    | with_reducible apply stkLinkSend_wf
    | with_reducible apply sendTimeSync_wf
    | with_reducible apply wf_forEach
    | with_reducible apply wf_ite
    | simp only [wf_mk]
    | with_reducible apply keeps_of
    | (extract_lets x; first | (refine wf_cut (Keep qk x = true) ?_ ?_; focus (subst x); rotate_left; focus (intro hx; generalize x = y at hx ⊢)) | skip)

theorem reportStatus_wf {qk : Kept} {s : State} (h_s : Keep qk s = true) : Keep qk (reportStatus s) = true := by
  unfold reportStatus
  repeat' first
    | with_reducible assumption
    | with_reducible intro _
    | with_reducible apply stkSend_wf
    | simp only [wf_mk]
    | with_reducible apply keeps_of
    | (extract_lets x; first | (refine wf_cut (Keep qk x = true) ?_ ?_; focus (subst x); rotate_left; focus (intro hx; generalize x = y at hx ⊢)) | skip)

theorem stkBoundary_wf {qk : Kept} {s : State} (h_s : Keep qk s = true) : Keep qk (stkBoundary s) = true := by
  unfold stkBoundary
  repeat' first
    | with_reducible assumption
    | with_reducible intro _
    | with_reducible apply coordinate_wf
    | with_reducible apply setStk_wf
    | with_reducible apply refreshMap_wf
    | with_reducible apply standAlone_wf
    | with_reducible apply sendBeads_wf
    | with_reducible apply checkStart_wf
    | with_reducible apply masterBoundary_wf
    | with_reducible apply linkBoundary_wf
    | with_reducible apply reportStatus_wf
    | with_reducible apply wf_ite
    | simp only [wf_mk]
    | with_reducible apply keeps_of
    | (extract_lets x; first | (refine wf_cut (Keep qk x = true) ?_ ?_; focus (subst x); rotate_left; focus (intro hx; generalize x = y at hx ⊢)) | skip)

end Sys2Proof.Machine
end

