-- ==== Sys2Proof/Laws/KeepsBusWrite.lean ====
section
/-! SUPPORT. The operations of Machine/BusWrite.lean keep what `Keep` names. -/

namespace Sys2Proof.Machine
open Sys2Proof
set_option linter.all false
set_option simprocs false

theorem writeSys_wf {qm : Bool} {s : State} {a : Nat} {w : Word} (h_s : Keep ⟨qm, none⟩ s = true) : Keep ⟨qm, none⟩ (writeSys s a w) = true := by
  unfold writeSys
  repeat' first
    | with_reducible assumption
    | with_reducible intro _
    | with_reducible apply rwrite_wf
    | with_reducible apply hostSysLock_wf
    | with_reducible apply writeBlkcfg_wf
    | with_reducible apply writePipe_wf
    | with_reducible apply hostEccCeClr_wf
    | with_reducible apply wf_ite
    | simp only [wf_mk]
    | with_reducible apply keeps_of
    | (extract_lets x; first | (refine wf_cut (Keep ⟨qm, none⟩ x = true) ?_ ?_; focus (subst x); rotate_left; focus (intro hx; generalize x = y at hx ⊢)) | skip)
    | split

theorem writeHif_wf {qk : Kept} {s : State} {a : Nat} {w : Word} (h_s : Keep qk s = true) : Keep qk (writeHif s a w) = true := by
  unfold writeHif
  repeat' first
    | with_reducible assumption
    | with_reducible intro _
    | with_reducible apply rwrite_wf
    | with_reducible apply writeQpCtrl_wf
    | with_reducible apply writeQpReg_wf
    | with_reducible apply hostHifKick_wf
    | with_reducible apply wf_ite
    | simp only [wf_mk]
    | with_reducible apply keeps_of
    | (extract_lets x; first | (refine wf_cut (Keep qk x = true) ?_ ?_; focus (subst x); rotate_left; focus (intro hx; generalize x = y at hx ⊢)) | skip)

theorem writeRef_wf {qk : Kept} {s : State} {a : Nat} {w : Word} (h_s : Keep qk s = true) : Keep qk (writeRef s a w) = true := by
  unfold writeRef
  repeat' first
    | with_reducible assumption
    | with_reducible intro _
    | with_reducible apply rput_wf
    | with_reducible apply rwrite_wf
    | with_reducible apply afterRefWrite_wf
    | with_reducible apply hostRefPstep_wf
    | with_reducible apply wf_ite
    | simp only [wf_mk]
    | with_reducible apply keeps_of
    | (extract_lets x; first | (refine wf_cut (Keep qk x = true) ?_ ?_; focus (subst x); rotate_left; focus (intro hx; generalize x = y at hx ⊢)) | skip)

theorem writeTime_wf {qk : Kept} {s : State} {a : Nat} {w : Word} (h_s : Keep qk s = true) : Keep qk (writeTime s a w) = true := by
  unfold writeTime
  repeat' first
    | with_reducible assumption
    | with_reducible intro _
    | with_reducible apply rwrite_wf
    | with_reducible apply hostTimeRateWrite_wf
    | with_reducible apply hostTimeAdjGo_wf
    | with_reducible apply hostForce_wf
    | with_reducible apply wf_ite
    | simp only [wf_mk]
    | with_reducible apply keeps_of
    | (extract_lets x; first | (refine wf_cut (Keep qk x = true) ?_ ?_; focus (subst x); rotate_left; focus (intro hx; generalize x = y at hx ⊢)) | skip)

theorem writeFlt_wf {qk : Kept} {s : State} {a : Nat} {w : Word} (h_s : Keep qk s = true) : Keep qk (writeFlt s a w) = true := by
  unfold writeFlt
  repeat' first
    | with_reducible assumption
    | with_reducible intro _
    | with_reducible apply rwrite_wf
    | with_reducible apply refreshFaultN_wf
    | with_reducible apply setFlips_wf
    | with_reducible apply endSelftest_wf
    | with_reducible apply hostFltStatClear_wf
    | with_reducible apply hostFltClrGrp_wf
    | with_reducible apply hostFltCntClr_wf
    | with_reducible apply hostFltCfg_wf
    | with_reducible apply hostFltCfgGrp_wf
    | with_reducible apply hostFltForce_wf
    | with_reducible apply hostFltSelftest_wf
    | with_reducible apply hostFltUnfence_wf
    | with_reducible apply wf_ite
    | simp only [wf_mk]
    | with_reducible apply keeps_of
    | (extract_lets x; first | (refine wf_cut (Keep qk x = true) ?_ ?_; focus (subst x); rotate_left; focus (intro hx; generalize x = y at hx ⊢)) | skip)

theorem writeEvr_wf {qk : Kept} {s : State} {a : Nat} {w : Word} (h_s : Keep qk s = true) : Keep qk (writeEvr s a w) = true := by
  unfold writeEvr
  repeat' first
    | with_reducible assumption
    | with_reducible intro _
    | with_reducible apply rwrite_wf
    | with_reducible apply hostEvrHost_wf
    | with_reducible apply hostEvrClear_wf
    | with_reducible apply wf_ite
    | simp only [wf_mk]
    | with_reducible apply keeps_of
    | (extract_lets x; first | (refine wf_cut (Keep qk x = true) ?_ ?_; focus (subst x); rotate_left; focus (intro hx; generalize x = y at hx ⊢)) | skip)

theorem writeBoot_wf {qk : Kept} {s : State} {a : Nat} {w : Word} (h_s : Keep qk s = true) : Keep qk (writeBoot s a w) = true := by
  unfold writeBoot
  repeat' first
    | with_reducible assumption
    | with_reducible intro _
    | with_reducible apply rwrite_wf
    | with_reducible apply wf_ite
    | simp only [wf_mk]
    | with_reducible apply keeps_of
    | (extract_lets x; first | (refine wf_cut (Keep qk x = true) ?_ ?_; focus (subst x); rotate_left; focus (intro hx; generalize x = y at hx ⊢)) | skip)

theorem writeMgt_wf {qk : Kept} {s : State} {a : Nat} {w : Word} (h_s : Keep qk s = true) : Keep qk (writeMgt s a w) = true := by
  unfold writeMgt
  repeat' first
    | with_reducible assumption
    | with_reducible intro _
    | with_reducible apply rwrite_wf
    | with_reducible apply hostMgtAttnGo_wf
    | with_reducible apply hostMgtAddrWrite_wf
    | with_reducible apply wf_ite
    | simp only [wf_mk]
    | with_reducible apply keeps_of
    | (extract_lets x; first | (refine wf_cut (Keep qk x = true) ?_ ?_; focus (subst x); rotate_left; focus (intro hx; generalize x = y at hx ⊢)) | skip)

theorem writeStk_wf {qk : Kept} {s : State} {a : Nat} {w : Word} (h_s : Keep qk s = true) : Keep qk (writeStk s a w) = true := by
  unfold writeStk
  repeat' first
    | with_reducible assumption
    | with_reducible intro _
    | with_reducible apply rwrite_wf
    | with_reducible apply hostHandover_wf
    | with_reducible apply wf_ite
    | simp only [wf_mk]
    | with_reducible apply keeps_of
    | (extract_lets x; first | (refine wf_cut (Keep qk x = true) ?_ ?_; focus (subst x); rotate_left; focus (intro hx; generalize x = y at hx ⊢)) | skip)

theorem writeMtx_wf {qk : Kept} {s : State} {a : Nat} {w : Word} (h_s : Keep qk s = true) : Keep qk (writeMtx s a w) = true := by
  unfold writeMtx
  repeat' first
    | with_reducible assumption
    | with_reducible intro _
    | with_reducible apply rwrite_wf
    | with_reducible apply hostMtxErrClear_wf
    | with_reducible apply wf_ite
    | simp only [wf_mk]
    | with_reducible apply keeps_of
    | (extract_lets x; first | (refine wf_cut (Keep qk x = true) ?_ ?_; focus (subst x); rotate_left; focus (intro hx; generalize x = y at hx ⊢)) | skip)

theorem writeNet_wf {qk : Kept} {s : State} {a : Nat} {w : Word} (h_s : Keep qk s = true) : Keep qk (writeNet s a w) = true := by
  unfold writeNet
  repeat' first
    | with_reducible assumption
    | with_reducible intro _
    | with_reducible apply rwrite_wf
    | with_reducible apply hostNetCntClr_wf
    | simp only [wf_mk]
    | with_reducible apply keeps_of
    | (extract_lets x; first | (refine wf_cut (Keep qk x = true) ?_ ?_; focus (subst x); rotate_left; focus (intro hx; generalize x = y at hx ⊢)) | skip)
    | split

theorem writeStr_wf {qk : Kept} {s : State} {a : Nat} {w : Word} (h_s : Keep qk s = true) : Keep qk (writeStr s a w) = true := by
  unfold writeStr
  repeat' first
    | with_reducible assumption
    | with_reducible intro _
    | with_reducible apply rwrite_wf
    | with_reducible apply hostStrClr_wf
    | with_reducible apply wf_ite
    | simp only [wf_mk]
    | with_reducible apply keeps_of
    | (extract_lets x; first | (refine wf_cut (Keep qk x = true) ?_ ?_; focus (subst x); rotate_left; focus (intro hx; generalize x = y at hx ⊢)) | skip)

theorem writePtStat_wf {qk : Kept} {s : State} {p : Nat} {w : Word} (h_s : Keep qk s = true) : Keep qk (writePtStat s p w) = true := by
  unfold writePtStat
  repeat' first
    | with_reducible assumption
    | with_reducible intro _
    | with_reducible apply wr_wf
    | with_reducible apply rwrite_wf
    | with_reducible apply wf_ite
    | simp only [wf_mk]
    | with_reducible apply keeps_of
    | (extract_lets x; first | (refine wf_cut (Keep qk x = true) ?_ ?_; focus (subst x); rotate_left; focus (intro hx; generalize x = y at hx ⊢)) | skip)

theorem writeTdm_wf {qk : Kept} {s : State} {a : Nat} {w : Word} (h_s : Keep qk s = true) : Keep qk (writeTdm s a w) = true := by
  unfold writeTdm
  repeat' first
    | with_reducible assumption
    | with_reducible intro _
    | with_reducible apply rset_wf
    | with_reducible apply rwrite_wf
    | with_reducible apply hostTdmRawArm_wf
    | with_reducible apply writePtStat_wf
    | with_reducible apply wf_ite
    | simp only [wf_mk]
    | with_reducible apply keeps_of
    | (extract_lets x; first | (refine wf_cut (Keep qk x = true) ?_ ?_; focus (subst x); rotate_left; focus (intro hx; generalize x = y at hx ⊢)) | skip)

theorem writeBph_wf {qk : Kept} {s : State} {a : Nat} {w : Word} (h_s : Keep qk s = true) : Keep qk (writeBph s a w) = true := by
  unfold writeBph
  repeat' first
    | with_reducible assumption
    | with_reducible intro _
    | with_reducible apply rwrite_wf
    | with_reducible apply hostBphTxCsgo_wf
    | with_reducible apply writePtStat_wf
    | with_reducible apply wf_ite
    | simp only [wf_mk]
    | with_reducible apply keeps_of
    | (extract_lets x; first | (refine wf_cut (Keep qk x = true) ?_ ?_; focus (subst x); rotate_left; focus (intro hx; generalize x = y at hx ⊢)) | skip)
    | split

theorem writeFab_wf {qk : Kept} {s : State} {a : Nat} {w : Word} (h_s : Keep qk s = true) : Keep qk (writeFab s a w) = true := by
  unfold writeFab
  repeat' first
    | with_reducible assumption
    | with_reducible intro _
    | with_reducible apply rclr_wf
    | with_reducible apply rwrite_wf
    | with_reducible apply hostFabMissClr_wf
    | with_reducible apply wf_ite
    | simp only [wf_mk]
    | with_reducible apply keeps_of
    | (extract_lets x; first | (refine wf_cut (Keep qk x = true) ?_ ?_; focus (subst x); rotate_left; focus (intro hx; generalize x = y at hx ⊢)) | skip)

theorem writeRod_wf {qk : Kept} {s : State} {a : Nat} {w : Word} (h_s : Keep qk s = true) : Keep qk (writeRod s a w) = true := by
  unfold writeRod
  repeat' first
    | with_reducible assumption
    | with_reducible intro _
    | with_reducible apply rwrite_wf
    | with_reducible apply writeRodCtrl_wf
    | with_reducible apply hostUnfence_wf
    | with_reducible apply hostClrStats_wf
    | simp only [wf_mk]
    | with_reducible apply keeps_of
    | (extract_lets x; first | (refine wf_cut (Keep qk x = true) ?_ ?_; focus (subst x); rotate_left; focus (intro hx; generalize x = y at hx ⊢)) | skip)
    | split

theorem writeMix_wf {qk : Kept} {s : State} {a : Nat} {w : Word} (h_s : Keep qk s = true) : Keep qk (writeMix s a w) = true := by
  unfold writeMix
  repeat' first
    | with_reducible assumption
    | with_reducible intro _
    | with_reducible apply rwrite_wf
    | with_reducible apply hostMixDrEngageWrite_wf
    | with_reducible apply hostMixMclrGo_wf
    | with_reducible apply hostMixClipClr_wf
    | with_reducible apply wf_ite
    | simp only [wf_mk]
    | with_reducible apply keeps_of
    | (extract_lets x; first | (refine wf_cut (Keep qk x = true) ?_ ?_; focus (subst x); rotate_left; focus (intro hx; generalize x = y at hx ⊢)) | skip)

theorem writeSnp_wf {qk : Kept} {s : State} {a : Nat} {w : Word} (h_s : Keep qk s = true) : Keep qk (writeSnp s a w) = true := by
  unfold writeSnp
  repeat' first
    | with_reducible assumption
    | with_reducible intro _
    | with_reducible apply rwrite_wf
    | with_reducible apply hostSnpFire_wf
    | with_reducible apply hostSnpMatchArm_wf
    | with_reducible apply hostSnpHoldWrite_wf
    | with_reducible apply wf_ite
    | simp only [wf_mk]
    | with_reducible apply keeps_of
    | (extract_lets x; first | (refine wf_cut (Keep qk x = true) ?_ ?_; focus (subst x); rotate_left; focus (intro hx; generalize x = y at hx ⊢)) | skip)

theorem writeBar_wf {qk : Kept} {s : State} {a : Nat} {w : Word} (h_s : Keep qk s = true) : Keep qk (writeBar s a w) = true := by
  unfold writeBar
  repeat' first
    | with_reducible assumption
    | with_reducible intro _
    | with_reducible apply rwrite_wf
    | with_reducible apply hostBarCntClr_wf
    | with_reducible apply wf_ite
    | simp only [wf_mk]
    | with_reducible apply keeps_of
    | (extract_lets x; first | (refine wf_cut (Keep qk x = true) ?_ ?_; focus (subst x); rotate_left; focus (intro hx; generalize x = y at hx ⊢)) | skip)

theorem writeMsix_wf {qk : Kept} {s : State} {a : Nat} {w : Word} (h_s : Keep qk s = true) : Keep qk (writeMsix s a w) = true := by
  unfold writeMsix
  repeat' first
    | with_reducible assumption
    | with_reducible intro _
    | with_reducible apply rwrite_wf
    | with_reducible apply msixPending_wf
    | simp only [wf_mk]
    | with_reducible apply keeps_of
    | (extract_lets x; first | (refine wf_cut (Keep qk x = true) ?_ ?_; focus (subst x); rotate_left; focus (intro hx; generalize x = y at hx ⊢)) | skip)
    | split

theorem blockWrites_wf {qm : Bool} {b : Nat × Nat × (State → Nat → Word → State)} (m : b ∈ blockWrites) :
    ∀ {s : State} {a : Nat} {w : Word}, Keep ⟨qm, none⟩ s = true → Keep ⟨qm, none⟩ (b.2.2 s a w) = true := by
  have step : ∀ {x y f} {l : List (Nat × Nat × (State → Nat → Word → State))},
      (∀ {s a w}, Keep ⟨qm, none⟩ s = true → Keep ⟨qm, none⟩ (f s a w) = true) →
      (b ∈ l → ∀ {s a w}, Keep ⟨qm, none⟩ s = true → Keep ⟨qm, none⟩ (b.2.2 s a w) = true) →
      b ∈ (x, y, f) :: l → ∀ {s : State} {a : Nat} {w : Word}, Keep ⟨qm, none⟩ s = true → Keep ⟨qm, none⟩ (b.2.2 s a w) = true := by
    intro x y f l hf hl hm
    rcases List.mem_cons.1 hm with e | hm
    · subst e; exact hf
    · exact hl hm
  revert m
  exact step writeSys_wf (step writeHif_wf (step writeRef_wf (step writeTime_wf (step writeFlt_wf (step writeEvr_wf
    (step writeBoot_wf (step writeMgt_wf (step writeStk_wf (step writeMtx_wf (step writeNet_wf (step writeStr_wf (step writeTdm_wf
    (step writeBph_wf (step writeFab_wf (step writeRod_wf (step writeMix_wf (step writeSnp_wf (step writeBar_wf
    (step writeMsix_wf (fun m => absurd m List.not_mem_nil))))))))))))))))))))

theorem busWrite_wf {qm : Bool} {s : State} {a : Nat} {w : Word} (h : Keep ⟨qm, none⟩ s = true) : Keep ⟨qm, none⟩ (busWrite s a w) = true := by
  unfold busWrite
  split
  · rename_i e; exact sharedWrite_wf e h
  · split
    · rename_i e; exact blockWrites_wf (List.mem_of_find?_eq_some e) h
    · exact rwrite_wf h

theorem recoveryWrite_wf {qk : Kept} {s : State} {a : Nat} {w : Word} (h_s : Keep qk s = true) : Keep qk (recoveryWrite s a w) = true := by
  unfold recoveryWrite
  repeat' first
    | with_reducible assumption
    | with_reducible intro _
    | with_reducible apply rwrite_wf
    | with_reducible apply wf_ite
    | simp only [wf_mk]
    | with_reducible apply keeps_of
    | (extract_lets x; first | (refine wf_cut (Keep qk x = true) ?_ ?_; focus (subst x); rotate_left; focus (intro hx; generalize x = y at hx ⊢)) | skip)

theorem execRegisterWrite_wf {qm : Bool} {a : Fin 262144} {w : Word} {s : State} (h_s : Keep ⟨qm, none⟩ s = true) : OW ⟨qm, none⟩ (execRegisterWrite a w s) := by
  unfold execRegisterWrite
  repeat' first
    | with_reducible assumption
    | with_reducible intro _
    | with_reducible apply requestFails_wf
    | with_reducible apply busWrite_wf
    | with_reducible apply recoveryWrite_wf
    | with_reducible apply ow_ite
    | with_reducible apply wf_ite
    | with_reducible apply ow_next
    | simp only [wf_mk]
    | with_reducible apply keeps_of
    | (extract_lets x; first | (refine wf_cut (Keep ⟨qm, none⟩ x = true) ?_ ?_; focus (subst x); rotate_left; focus (intro hx; generalize x = y at hx ⊢)) | skip)

end Sys2Proof.Machine
end

