-- ==== Sys2Proof/Laws/KeepsFlashWork.lean ====
section
/-! SUPPORT. The operations of Machine/FlashWork.lean keep what `Keep` names. -/

namespace Sys2Proof.Machine
open Sys2Proof
set_option linter.all false
set_option simprocs false

theorem onFlash_wf {qk : Kept} {s : State} {d : DescRef} {op : Nat} {f : State → List Byte → State} (h_s : Keep qk s = true) (h_f : ∀ (a0 : State) (a1 : List Byte), Keep qk a0 = true → Keep qk (f a0 a1) = true) : OW qk (onFlash s d op f) := by
  unfold onFlash
  repeat' first
    | with_reducible assumption
    | with_reducible intro _
    | with_reducible apply h_f
    | with_reducible apply of_pw
    | with_reducible apply finish_wf
    | with_reducible apply onDesc_wf
    | with_reducible apply ow_ite
    | with_reducible apply wf_ite
    | with_reducible apply ow_next
    | simp only [wf_mk]
    | with_reducible apply keeps_of
    | (extract_lets x; first | (refine wf_cut (Keep qk x = true) ?_ ?_; focus (subst x); rotate_left; focus (intro hx; generalize x = y at hx ⊢)) | skip)

theorem startWork_wf {qk : Kept} {s : State} {j : FlashJob} {d : DescRef} (h_s : Keep qk s = true) : Keep qk (startWork s j d) = true := by
  unfold startWork
  repeat' first
    | with_reducible assumption
    | with_reducible intro _
    | with_reducible apply rset_wf
    | simp only [wf_mk]
    | with_reducible apply keeps_of
    | (extract_lets x; first | (refine wf_cut (Keep qk x = true) ?_ ?_; focus (subst x); rotate_left; focus (intro hx; generalize x = y at hx ⊢)) | skip)

theorem execConfigSave_wf {qk : Kept} {d : DescRef} {data : Option (List Byte)} {s : State} (h_s : Keep qk s = true) : OW qk (execConfigSave d data s) := by
  unfold execConfigSave
  repeat' first
    | with_reducible assumption
    | with_reducible intro _
    | with_reducible apply finish_wf
    | with_reducible apply withInput_wf
    | with_reducible apply onFlash_wf
    | with_reducible apply startWork_wf
    | with_reducible apply ow_ite
    | with_reducible apply wf_ite
    | with_reducible apply ow_next
    | simp only [wf_mk]
    | with_reducible apply keeps_of
    | (extract_lets x; first | (refine wf_cut (Keep qk x = true) ?_ ?_; focus (subst x); rotate_left; focus (intro hx; generalize x = y at hx ⊢)) | skip)

theorem execUpdateBlock_wf {qk : Kept} {d : DescRef} {data : Option (List Byte)} {s : State} (h_s : Keep qk s = true) : OW qk (execUpdateBlock d data s) := by
  unfold execUpdateBlock
  repeat' first
    | with_reducible assumption
    | with_reducible intro _
    | with_reducible apply finish_wf
    | with_reducible apply onDesc_wf
    | with_reducible apply raise_wf
    | with_reducible apply withInput_wf
    | with_reducible apply undoActivation_wf
    | with_reducible apply startWork_wf
    | with_reducible apply ow_ite
    | with_reducible apply wf_ite
    | with_reducible apply ow_next
    | simp only [wf_mk]
    | with_reducible apply keeps_of
    | (extract_lets x; first | (refine wf_cut (Keep qk x = true) ?_ ?_; focus (subst x); rotate_left; focus (intro hx; generalize x = y at hx ⊢)) | skip)

theorem execUpdateActivate_wf {qk : Kept} {d : DescRef} {s : State} (h_s : Keep qk s = true) : OW qk (execUpdateActivate d s) := by
  unfold execUpdateActivate
  repeat' first
    | with_reducible assumption
    | with_reducible intro _
    | with_reducible apply finish_wf
    | refine checkStaged_e (by with_reducible assumption) ?_
    | with_reducible apply checkStaged_p
    | with_reducible apply checkStaged_wf
    | with_reducible apply onFlash_wf
    | with_reducible apply startWork_wf
    | with_reducible apply ow_ite
    | with_reducible apply wf_ite
    | with_reducible apply ow_next
    | simp only [wf_mk]
    | with_reducible apply keeps_of
    | (extract_lets x; first | (refine wf_cut (Keep qk x = true) ?_ ?_; focus (subst x); rotate_left; focus (intro hx; generalize x = y at hx ⊢)) | skip)
    | split

theorem writeCopy_wf {qk : Kept} {s : State} {h : StoreHeader} {im : List Byte} {c : Nat} (h_s : Keep qk s = true) : Keep qk (writeCopy s h im c) = true := by
  unfold writeCopy
  repeat' first
    | with_reducible assumption
    | with_reducible intro _
    | with_reducible apply flashWrite_wf
    | with_reducible apply flashErase_wf
    | simp only [wf_mk]
    | with_reducible apply keeps_of
    | (extract_lets x; first | (refine wf_cut (Keep qk x = true) ?_ ?_; focus (subst x); rotate_left; focus (intro hx; generalize x = y at hx ⊢)) | skip)

theorem spoilCopy_wf {qk : Kept} {s : State} {len c : Nat} (h_s : Keep qk s = true) : Keep qk (spoilCopy s len c) = true := by
  unfold spoilCopy
  repeat' first
    | with_reducible assumption
    | with_reducible intro _
    | with_reducible apply flashErase_wf
    | with_reducible apply flashSpoil_wf
    | simp only [wf_mk]
    | with_reducible apply keeps_of
    | (extract_lets x; first | (refine wf_cut (Keep qk x = true) ?_ ?_; focus (subst x); rotate_left; focus (intro hx; generalize x = y at hx ⊢)) | skip)

theorem spoilWork_wf {qk : Kept} {s : State} (h_s : Keep qk s = true) : Keep qk (spoilWork s) = true := by
  unfold spoilWork
  repeat' first
    | with_reducible assumption
    | with_reducible intro _
    | refine takeFree_e (by with_reducible assumption) ?_
    | with_reducible apply takeFree_p
    | with_reducible apply takeFree_wf
    | with_reducible apply flashErase_wf
    | with_reducible apply flashSpoil_wf
    | with_reducible apply setStage_wf
    | with_reducible apply writeCopy_wf
    | with_reducible apply spoilCopy_wf
    | with_reducible apply wf_ite
    | simp only [wf_mk]
    | with_reducible apply keeps_of
    | (extract_lets x; first | (refine wf_cut (Keep qk x = true) ?_ ?_; focus (subst x); rotate_left; focus (intro hx; generalize x = y at hx ⊢)) | skip)
    | split

theorem refreshFlashBusy_wf {qk : Kept} {s : State} (h_s : Keep qk s = true) : Keep qk (refreshFlashBusy s) = true := by
  unfold refreshFlashBusy
  repeat' first
    | with_reducible assumption
    | with_reducible intro _
    | with_reducible apply rbit_wf
    | simp only [wf_mk]
    | with_reducible apply keeps_of
    | (extract_lets x; first | (refine wf_cut (Keep qk x = true) ?_ ?_; focus (subst x); rotate_left; focus (intro hx; generalize x = y at hx ⊢)) | skip)

theorem finishWork_wf {qk : Kept} {s : State} {j : FlashJob} (h_s : Keep qk s = true) : PW qk (finishWork s j) := by
  unfold finishWork
  repeat' first
    | with_reducible assumption
    | with_reducible intro _
    | with_reducible apply wr_wf
    | with_reducible apply recordEvent_wf
    | with_reducible apply activateStaged_wf
    | with_reducible apply stageBlock_wf
    | with_reducible apply writeCopy_wf
    | with_reducible apply wf_foldl
    | with_reducible apply wf_foldl1
    | with_reducible apply pw_mk
    | simp only [wf_mk]
    | with_reducible apply keeps_of
    | (extract_lets x; first | (refine wf_cut (Keep qk x = true) ?_ ?_; focus (subst x); rotate_left; focus (intro hx; generalize x = y at hx ⊢)) | skip)
    | dsimp -zeta only
    | split
theorem finishWork_e {qk : Kept} {s : State} {j : FlashJob} {zt : State} {zb} (e : (finishWork s j) = (zt, zb)) (h_s : Keep qk s = true) : Keep qk zt = true := pw_e (finishWork_wf h_s) e
theorem finishWork_p {qk : Kept} {s : State} {j : FlashJob} (h_s : Keep qk s = true) : Keep qk (finishWork s j).1 = true := finishWork_wf h_s

theorem mailboxEnd_wf {qk : Kept} {s : State} {status : Nat} (h_s : Keep qk s = true) : Keep qk (mailboxEnd s status) = true := by
  unfold mailboxEnd
  repeat' first
    | with_reducible assumption
    | with_reducible intro _
    | with_reducible apply rput_wf
    | with_reducible apply rclr_wf
    | simp only [wf_mk]
    | with_reducible apply keeps_of
    | (extract_lets x; first | (refine wf_cut (Keep qk x = true) ?_ ?_; focus (subst x); rotate_left; focus (intro hx; generalize x = y at hx ⊢)) | skip)

theorem execBootMbBlock_wf {qk : Kept} {w : Word} {data : Option (List Byte)} {s : State} (h_s : Keep qk s = true) : OW qk (execBootMbBlock w data s) := by
  unfold execBootMbBlock
  repeat' first
    | with_reducible assumption
    | with_reducible intro _
    | with_reducible apply rset_wf
    | with_reducible apply rwrite_wf
    | with_reducible apply raise_wf
    | with_reducible apply undoActivation_wf
    | with_reducible apply refreshFlashBusy_wf
    | with_reducible apply mailboxEnd_wf
    | with_reducible apply ow_ite
    | with_reducible apply wf_ite
    | with_reducible apply ow_next
    | simp only [wf_mk]
    | with_reducible apply keeps_of
    | (extract_lets x; first | (refine wf_cut (Keep qk x = true) ?_ ?_; focus (subst x); rotate_left; focus (intro hx; generalize x = y at hx ⊢)) | skip)
    | split

theorem workOver_wf {qk : Kept} {s : State} {d : Option DescRef} {status result : Nat} (h_s : Keep qk s = true) : Keep qk (workOver s d status result) = true := by
  unfold workOver
  repeat' first
    | with_reducible assumption
    | with_reducible intro _
    | with_reducible apply finishOpt_wf
    | with_reducible apply mailboxEnd_wf
    | with_reducible apply wf_ite
    | simp only [wf_mk]
    | with_reducible apply keeps_of
    | (extract_lets x; first | (refine wf_cut (Keep qk x = true) ?_ ?_; focus (subst x); rotate_left; focus (intro hx; generalize x = y at hx ⊢)) | skip)

theorem execHostFlashWorkDone_wf {qk : Kept} {verified : Bool} {s : State} (h_s : Keep qk s = true) : OW qk (execHostFlashWorkDone verified s) := by
  unfold execHostFlashWorkDone
  repeat' first
    | with_reducible assumption
    | with_reducible intro _
    | refine takeFree_e (by with_reducible assumption) ?_
    | with_reducible apply takeFree_p
    | with_reducible apply takeFree_wf
    | with_reducible apply spoilWork_wf
    | with_reducible apply refreshFlashBusy_wf
    | refine finishWork_e (by with_reducible assumption) ?_
    | with_reducible apply finishWork_p
    | with_reducible apply finishWork_wf
    | with_reducible apply workOver_wf
    | with_reducible apply ow_ite
    | with_reducible apply wf_ite
    | with_reducible apply ow_next
    | simp only [wf_mk]
    | with_reducible apply keeps_of
    | (extract_lets x; first | (refine wf_cut (Keep qk x = true) ?_ ?_; focus (subst x); rotate_left; focus (intro hx; generalize x = y at hx ⊢)) | skip)
    | split

theorem repairStore_wf {qk : Kept} {s : State} (h_s : Keep qk s = true) : Keep qk (repairStore s) = true := by
  unfold repairStore
  repeat' first
    | with_reducible assumption
    | with_reducible intro _
    | with_reducible apply recordEvent_wf
    | with_reducible apply writeCopy_wf
    | with_reducible apply wf_ite
    | simp only [wf_mk]
    | with_reducible apply keeps_of
    | (extract_lets x; first | (refine wf_cut (Keep qk x = true) ?_ ?_; focus (subst x); rotate_left; focus (intro hx; generalize x = y at hx ⊢)) | skip)
    | split

theorem abandonWork_wf {qk : Kept} {s : State} (h_s : Keep qk s = true) : Keep qk (abandonWork s) = true := by
  unfold abandonWork
  repeat' first
    | with_reducible assumption
    | with_reducible intro _
    | with_reducible apply spoilWork_wf
    | with_reducible apply refreshFlashBusy_wf
    | with_reducible apply workOver_wf
    | simp only [wf_mk]
    | with_reducible apply keeps_of
    | (extract_lets x; first | (refine wf_cut (Keep qk x = true) ?_ ?_; focus (subst x); rotate_left; focus (intro hx; generalize x = y at hx ⊢)) | skip)
    | split

theorem pfailSet_wf {qk : Kept} {s : State} (h_s : Keep qk s = true) : Keep qk (pfailSet s) = true := by
  unfold pfailSet
  repeat' first
    | with_reducible assumption
    | with_reducible intro _
    | with_reducible apply saveCounters_wf
    | with_reducible apply commitRun_wf
    | with_reducible apply wf_ite
    | simp only [wf_mk]
    | with_reducible apply keeps_of
    | (extract_lets x; first | (refine wf_cut (Keep qk x = true) ?_ ?_; focus (subst x); rotate_left; focus (intro hx; generalize x = y at hx ⊢)) | skip)

theorem execPfailFall_wf {qk : Kept} {s : State} (h_s : Keep qk s = true) : OW qk (execPfailFall s) := by
  unfold execPfailFall
  repeat' first
    | with_reducible assumption
    | with_reducible intro _
    | with_reducible apply rset_wf
    | with_reducible apply rclr_wf
    | with_reducible apply radd_wf
    | with_reducible apply recordEvent_wf
    | with_reducible apply abandonWork_wf
    | with_reducible apply pfailSet_wf
    | with_reducible apply ow_ite
    | with_reducible apply wf_ite
    | with_reducible apply ow_next
    | simp only [wf_mk]
    | with_reducible apply keeps_of
    | (extract_lets x; first | (refine wf_cut (Keep qk x = true) ?_ ?_; focus (subst x); rotate_left; focus (intro hx; generalize x = y at hx ⊢)) | skip)

theorem execPfailRise_wf {qk : Kept} {s : State} (h_s : Keep qk s = true) : OW qk (execPfailRise s) := by
  unfold execPfailRise
  repeat' first
    | with_reducible assumption
    | with_reducible intro _
    | with_reducible apply rset_wf
    | with_reducible apply repairStore_wf
    | with_reducible apply ow_ite
    | with_reducible apply wf_ite
    | with_reducible apply ow_next
    | simp only [wf_mk]
    | with_reducible apply keeps_of
    | (extract_lets x; first | (refine wf_cut (Keep qk x = true) ?_ ?_; focus (subst x); rotate_left; focus (intro hx; generalize x = y at hx ⊢)) | skip)

theorem execPfailSetDone_wf {qk : Kept} {us : BitVec 16} {s : State} (h_s : Keep qk s = true) : OW qk (execPfailSetDone us s) := by
  unfold execPfailSetDone
  repeat' first
    | with_reducible assumption
    | with_reducible intro _
    | with_reducible apply rput_wf
    | with_reducible apply rset_wf
    | with_reducible apply rclr_wf
    | with_reducible apply ow_ite
    | with_reducible apply wf_ite
    | with_reducible apply ow_next
    | simp only [wf_mk]
    | with_reducible apply keeps_of
    | (extract_lets x; first | (refine wf_cut (Keep qk x = true) ?_ ?_; focus (subst x); rotate_left; focus (intro hx; generalize x = y at hx ⊢)) | skip)

end Sys2Proof.Machine
end

