-- ==== Sys2Proof/Laws/KeepsStartup.lean ====
section
/-! SUPPORT. The operations of Machine/Startup.lean keep what `Keep` names. -/

namespace Sys2Proof.Machine
open Sys2Proof
set_option linter.all false
set_option simprocs false

theorem enterRecovery_wf {qk : Kept} {s : State} {cause : Nat} (h_s : Keep qk s = true) : Keep qk (enterRecovery s cause) = true := by
  unfold enterRecovery
  repeat' first
    | with_reducible assumption
    | with_reducible intro _
    | with_reducible apply rput_wf
    | with_reducible apply rset_wf
    | with_reducible apply raise_wf
    | with_reducible apply putPage_wf
    | simp only [wf_mk]
    | with_reducible apply keeps_of
    | (extract_lets x; first | (refine wf_cut (Keep qk x = true) ?_ ?_; focus (subst x); rotate_left; focus (intro hx; generalize x = y at hx ⊢)) | skip)

theorem reportOtp_wf {qk : Kept} {s : State} (h_s : Keep qk s = true) : Keep qk (reportOtp s) = true := by
  unfold reportOtp
  repeat' first
    | with_reducible assumption
    | with_reducible intro _
    | with_reducible apply rput_wf
    | with_reducible apply wf_foldl
    | with_reducible apply wf_foldl1
    | simp only [wf_mk]
    | with_reducible apply keeps_of
    | (extract_lets x; first | (refine wf_cut (Keep qk x = true) ?_ ?_; focus (subst x); rotate_left; focus (intro hx; generalize x = y at hx ⊢)) | skip)
    | dsimp -zeta only

theorem burnFuses_wf {qk : Kept} {s : State} (h_s : Keep qk s = true) : Keep qk (burnFuses s) = true := by
  unfold burnFuses
  repeat' first
    | with_reducible assumption
    | with_reducible intro _
    | with_reducible apply recordEvent_wf
    | with_reducible apply raise_wf
    | with_reducible apply reportOtp_wf
    | with_reducible apply wf_foldl
    | with_reducible apply wf_foldl1
    | with_reducible apply wf_ite
    | simp only [wf_mk]
    | with_reducible apply keeps_of
    | (extract_lets x; first | (refine wf_cut (Keep qk x = true) ?_ ?_; focus (subst x); rotate_left; focus (intro hx; generalize x = y at hx ⊢)) | skip)
    | dsimp -zeta only

theorem wf_boot {qm : Bool} {x : State} {b : BootState} (h : Keep ⟨qm, none⟩ x = true) : Keep ⟨qm, none⟩ { x with boot := b } = true := h
theorem copySectors_wf {qm : Bool} : ∀ {n i : Nat} {b : Bool} {l : List Nat} {left : Option Nat} {s : State}, Keep ⟨qm, none⟩ s = true →
    PW ⟨qm, none⟩ (copySectors b l n i left s)
  | 0, i, b, l, left, s, h => h
  | n + 1, i, b, l, left, s, h => by
    unfold copySectors
    split
    · exact h
    · refine pw_ite (copySectors_wf h) (pw_ite (pw_mk (flashSpoil_wf h)) (pw_ite (pw_mk (flashSpoil_wf h)) ?_))
      exact copySectors_wf (markSector_wf (wf_boot (flashWrite_wf (flashErase_wf h))))
theorem copySectors_e {qm : Bool} {b : Bool} {l : List Nat} {n i : Nat} {left : Option Nat} {s : State} {zt : State} {zb} (e : (copySectors b l n i left s) = (zt, zb)) (h_s : Keep ⟨qm, none⟩ s = true) : Keep ⟨qm, none⟩ zt = true := pw_e (copySectors_wf h_s) e
theorem copySectors_p {qm : Bool} {b : Bool} {l : List Nat} {n i : Nat} {left : Option Nat} {s : State} (h_s : Keep ⟨qm, none⟩ s = true) : Keep ⟨qm, none⟩ (copySectors b l n i left s).1 = true := copySectors_wf h_s

theorem startFirmware_wf {qk : Kept} {s : State} (h_s : Keep qk s = true) : Keep qk (startFirmware s) = true := by
  unfold startFirmware
  repeat' first
    | with_reducible assumption
    | with_reducible intro _
    | with_reducible apply wr_wf
    | with_reducible apply recordEvent_wf
    | simp only [wf_mk]
    | with_reducible apply keeps_of
    | (extract_lets x; first | (refine wf_cut (Keep qk x = true) ?_ ?_; focus (subst x); rotate_left; focus (intro hx; generalize x = y at hx ⊢)) | skip)

theorem acceptCopy_wf {qk : Kept} {s : State} {b : Bool} (h_s : Keep qk s = true) : Keep qk (acceptCopy s b) = true := by
  unfold acceptCopy
  repeat' first
    | with_reducible assumption
    | with_reducible intro _
    | with_reducible apply rset_wf
    | with_reducible apply raise_wf
    | with_reducible apply setHeaderState_wf
    | with_reducible apply setStage_wf
    | with_reducible apply enterRecovery_wf
    | with_reducible apply burnFuses_wf
    | with_reducible apply startFirmware_wf
    | with_reducible apply wf_ite
    | simp only [wf_mk]
    | with_reducible apply keeps_of
    | (extract_lets x; first | (refine wf_cut (Keep qk x = true) ?_ ?_; focus (subst x); rotate_left; focus (intro hx; generalize x = y at hx ⊢)) | skip)

theorem runCopy_wf {qm : Bool} {s : State} {b : Bool} {h : BootHeader} {flash : RomFlash} (h_s : Keep ⟨qm, none⟩ s = true) : Keep ⟨qm, none⟩ (runCopy s b h flash) = true := by
  unfold runCopy
  repeat' first
    | with_reducible assumption
    | with_reducible intro _
    | with_reducible apply rset_wf
    | with_reducible apply raise_wf
    | with_reducible apply setHeaderState_wf
    | with_reducible apply enterRecovery_wf
    | refine copySectors_e (by with_reducible assumption) ?_
    | with_reducible apply copySectors_p
    | with_reducible apply copySectors_wf
    | with_reducible apply acceptCopy_wf
    | with_reducible apply wf_ite
    | simp only [wf_mk]
    | with_reducible apply keeps_of
    | (extract_lets x; first | (refine wf_cut (Keep ⟨qm, none⟩ x = true) ?_ ?_; focus (subst x); rotate_left; focus (intro hx; generalize x = y at hx ⊢)) | skip)
    | split

theorem romFromCopy_wf {qm : Bool} {s : State} {flash : RomFlash} (h_s : Keep ⟨qm, none⟩ s = true) : Keep ⟨qm, none⟩ (romFromCopy s flash) = true := by
  unfold romFromCopy
  repeat' first
    | with_reducible assumption
    | with_reducible intro _
    | with_reducible apply raise_wf
    | with_reducible apply noteHeader_wf
    | with_reducible apply enterRecovery_wf
    | with_reducible apply startFirmware_wf
    | with_reducible apply runCopy_wf
    | with_reducible apply wf_ite
    | simp only [wf_mk]
    | with_reducible apply keeps_of
    | (extract_lets x; first | (refine wf_cut (Keep ⟨qm, none⟩ x = true) ?_ ?_; focus (subst x); rotate_left; focus (intro hx; generalize x = y at hx ⊢)) | skip)
    | split

theorem countPower_wf {s : State} (h_s : Keep memKept s = true) : Keep memKept (countPower s) = true := by
  unfold countPower
  repeat' first
    | with_reducible assumption
    | with_reducible intro _
    | with_reducible apply savePower_wf
    | with_reducible apply powerOn_wf
    | with_reducible apply wf_ite
    | simp only [wf_mk]
    | with_reducible apply keeps_of
    | (extract_lets x; first | (refine wf_cut (Keep memKept x = true) ?_ ?_; focus (subst x); rotate_left; focus (intro hx; generalize x = y at hx ⊢)) | skip)

theorem recoverAsked_wf {qk : Kept} {s : State} (h_s : Keep qk s = true) : Keep qk (recoverAsked s) = true := by
  unfold recoverAsked
  repeat' first
    | with_reducible assumption
    | with_reducible intro _
    | with_reducible apply noteHeader_wf
    | with_reducible apply enterRecovery_wf
    | simp only [wf_mk]
    | with_reducible apply keeps_of
    | (extract_lets x; first | (refine wf_cut (Keep qk x = true) ?_ ?_; focus (subst x); rotate_left; focus (intro hx; generalize x = y at hx ⊢)) | skip)
    | split

theorem romFromCount_wf {s : State} {flash : RomFlash} (h_s : Keep memKept s = true) : Keep memKept (romFromCount s flash) = true := by
  unfold romFromCount
  repeat' first
    | with_reducible assumption
    | with_reducible intro _
    | with_reducible apply spoilRecord_wf
    | with_reducible apply romFromCopy_wf
    | with_reducible apply countPower_wf
    | with_reducible apply recoverAsked_wf
    | with_reducible apply wf_ite
    | simp only [wf_mk]
    | with_reducible apply keeps_of
    | (extract_lets x; first | (refine wf_cut (Keep memKept x = true) ?_ ?_; focus (subst x); rotate_left; focus (intro hx; generalize x = y at hx ⊢)) | skip)

theorem romStepOne_wf {qk : Kept} {s : State} (h_s : Keep qk s = true) : Keep qk (romStepOne s) = true := by
  unfold romStepOne
  repeat' first
    | with_reducible assumption
    | with_reducible intro _
    | with_reducible apply refreshFaultN_wf
    | with_reducible apply reportOtp_wf
    | simp only [wf_mk]
    | with_reducible apply keeps_of
    | (extract_lets x; first | (refine wf_cut (Keep qk x = true) ?_ ?_; focus (subst x); rotate_left; focus (intro hx; generalize x = y at hx ⊢)) | skip)

theorem execBootRomStart_wf {flash : RomFlash} {s : State} (h_s : Keep memKept s = true) : OW memKept (execBootRomStart flash s) := by
  unfold execBootRomStart
  repeat' first
    | with_reducible assumption
    | with_reducible intro _
    | with_reducible apply raise_wf
    | with_reducible apply enterRecovery_wf
    | with_reducible apply romFromCount_wf
    | with_reducible apply romStepOne_wf
    | with_reducible apply ow_ite
    | with_reducible apply wf_ite
    | with_reducible apply ow_next
    | simp only [wf_mk]
    | with_reducible apply keeps_of
    | (extract_lets x; first | (refine wf_cut (Keep memKept x = true) ?_ ?_; focus (subst x); rotate_left; focus (intro hx; generalize x = y at hx ⊢)) | skip)
    | split

theorem execBootMbActivate_wf {qm : Bool} {w : Word} {flash : RomFlash} {s : State} (h_s : Keep ⟨qm, none⟩ s = true) : OW ⟨qm, none⟩ (execBootMbActivate w flash s) := by
  unfold execBootMbActivate
  repeat' first
    | with_reducible assumption
    | with_reducible intro _
    | with_reducible apply rwrite_wf
    | with_reducible apply activateStaged_wf
    | refine checkStaged_e (by with_reducible assumption) ?_
    | with_reducible apply checkStaged_p
    | with_reducible apply checkStaged_wf
    | with_reducible apply mailboxEnd_wf
    | with_reducible apply romFromCopy_wf
    | with_reducible apply ow_ite
    | with_reducible apply wf_ite
    | with_reducible apply ow_next
    | simp only [wf_mk]
    | with_reducible apply keeps_of
    | (extract_lets x; first | (refine wf_cut (Keep ⟨qm, none⟩ x = true) ?_ ?_; focus (subst x); rotate_left; focus (intro hx; generalize x = y at hx ⊢)) | skip)
    | split

theorem sectionFailed_wf {qk : Kept} {s : State} {i : Nat} (h_s : Keep qk s = true) : Keep qk (sectionFailed s i) = true := by
  unfold sectionFailed
  repeat' first
    | with_reducible assumption
    | with_reducible intro _
    | with_reducible apply recordEvent_wf
    | simp only [wf_mk]
    | with_reducible apply keeps_of
    | (extract_lets x; first | (refine wf_cut (Keep qk x = true) ?_ ?_; focus (subst x); rotate_left; focus (intro hx; generalize x = y at hx ⊢)) | skip)

theorem applyPairs_wf {qm : Bool} {s : State} {i : Nat} {ps : List (Nat × Word)} (h_s : Keep ⟨qm, none⟩ s = true) : Keep ⟨qm, none⟩ (applyPairs s i ps) = true := by
  unfold applyPairs
  repeat' first
    | with_reducible assumption
    | with_reducible intro _
    | with_reducible apply busWrite_wf
    | with_reducible apply sectionFailed_wf
    | with_reducible apply wf_foldl
    | with_reducible apply wf_foldl1
    | with_reducible apply wf_ite
    | simp only [wf_mk]
    | with_reducible apply keeps_of
    | (extract_lets x; first | (refine wf_cut (Keep ⟨qm, none⟩ x = true) ?_ ?_; focus (subst x); rotate_left; focus (intro hx; generalize x = y at hx ⊢)) | skip)
    | dsimp -zeta only
    | split

theorem applyRegs_wf {qm : Bool} {s : State} {i : Nat} {bs : List Byte} (h_s : Keep ⟨qm, none⟩ s = true) : Keep ⟨qm, none⟩ (applyRegs s i bs) = true := by
  unfold applyRegs
  repeat' first
    | with_reducible assumption
    | with_reducible intro _
    | with_reducible apply applyPairs_wf
    | with_reducible apply wf_ite
    | simp only [wf_mk]
    | with_reducible apply keeps_of
    | with_reducible apply keeps_move (γ := s.grid)
    | (extract_lets x; first | (refine wf_cut (Keep ⟨qm, none⟩ x = true) ?_ ?_; focus (subst x); rotate_left; focus (intro hx; generalize x = y at hx ⊢)) | skip)
    | dsimp -zeta only

theorem applySettings_wf {qm : Bool} {s : State} (h_s : Keep ⟨qm, none⟩ s = true) : Keep ⟨qm, none⟩ (applySettings s) = true := by
  unfold applySettings
  repeat' first
    | with_reducible assumption
    | with_reducible intro _
    | with_reducible apply applyPairs_wf
    | with_reducible apply wf_forEach
    | with_reducible apply wf_ite
    | simp only [wf_mk]
    | with_reducible apply keeps_of
    | with_reducible apply keeps_move (γ := s.grid)
    | (extract_lets x; first | (refine wf_cut (Keep ⟨qm, none⟩ x = true) ?_ ?_; focus (subst x); rotate_left; focus (intro hx; generalize x = y at hx ⊢)) | skip)
    | dsimp -zeta only
    | split

theorem applyStoredTally_wf {qk : Kept} {s : State} {bs : List Byte} (h_s : Keep qk s = true) : Keep qk (applyStoredTally s bs) = true := by
  unfold applyStoredTally
  repeat' first
    | with_reducible assumption
    | with_reducible intro _
    | with_reducible apply noteStored_wf
    | with_reducible apply openTally_wf
    | with_reducible apply writeRecords_wf
    | with_reducible apply commitTally_wf
    | with_reducible apply wf_ite
    | simp only [wf_mk]
    | with_reducible apply keeps_of
    | (extract_lets x; first | (refine wf_cut (Keep qk x = true) ?_ ?_; focus (subst x); rotate_left; focus (intro hx; generalize x = y at hx ⊢)) | skip)

theorem takeStored_wf {qk : Kept} {s t : State} {i : Nat} (e : takeStored s i = some t) (h : Keep qk s = true) : Keep qk t = true := by
  unfold takeStored at e
  split at e
  · injection e with e; exact e ▸ h
  · cases e
  · injection e with e
    rw [← e]
    exact wf_ite h (sectionFailed_wf h)

theorem loadStore_wf {qm : Bool} : ∀ {n : Nat} {s : State}, Keep ⟨qm, none⟩ s = true → Keep ⟨qm, none⟩ (loadStore n s) = true
  | 0, s, h => h
  | n + 1, s, h => by
    unfold loadStore
    split
    · exact h
    · split
      · exact h
      · rename_i t ht
        have h1 := takeStored_wf ht h
        split
        · exact repairStore_wf (wf_boot h1)
        · refine loadStore_wf ?_
          split
          · exact applyRegs_wf (wf_boot h1)
          · split
            rename_i hl
            have h2 := loadStored_e hl (wf_boot h1)
            exact wf_ite h2 (sectionFailed_wf h2)
          · exact applyStoredTally_wf (wf_boot h1)
          · exact wf_boot h1

theorem continueLoad_wf {qk : Kept} {s : State} (h_s : Keep qk s = true) : Keep qk (continueLoad s) = true := by
  obtain ⟨m, _ | x⟩ := qk
  · have h := applySettings_wf h_s
    unfold continueLoad
    exact wf_ite h (loadStore_wf h)
  · have e := (idle_of h_s).2
    have k : continueLoad s = s ∨ continueLoad s = { s with boot := { s.boot with settings := [] } } := by
      unfold continueLoad applySettings
      rw [e.2]
      by_cases d : discovered s = true <;> simp [d, e.1, forEach]
    rcases k with k | k <;> rw [k]
    · exact h_s
    · have a := keeps_of h_s
      rw [e.2] at a
      exact a

theorem chooseStore_wf {qk : Kept} {s : State} (h_s : Keep qk s = true) : Keep qk (chooseStore s) = true := by
  unfold chooseStore
  repeat' first
    | with_reducible assumption
    | with_reducible intro _
    | with_reducible apply wr_wf
    | with_reducible apply rput_wf
    | with_reducible apply rbit_wf
    | with_reducible apply raise_wf
    | with_reducible apply wf_ite
    | simp only [wf_mk]
    | with_reducible apply keeps_of
    | (extract_lets x; first | (refine wf_cut (Keep qk x = true) ?_ ?_; focus (subst x); rotate_left; focus (intro hx; generalize x = y at hx ⊢)) | skip)
    | split

theorem applyRate_wf {qm : Bool} {s : State} (h_s : Keep ⟨qm, none⟩ s = true) : Keep ⟨qm, none⟩ (applyRate s) = true := by
  unfold applyRate
  repeat' first
    | with_reducible assumption
    | with_reducible intro _
    | with_reducible apply busWrite_wf
    | with_reducible apply wf_forEach
    | with_reducible apply wf_ite
    | simp only [wf_mk]
    | with_reducible apply keeps_of
    | (extract_lets x; first | (refine wf_cut (Keep ⟨qm, none⟩ x = true) ?_ ?_; focus (subst x); rotate_left; focus (intro hx; generalize x = y at hx ⊢)) | skip)
    | dsimp -zeta only

theorem sealLinked_wf {qk : Kept} {s : State} (h_s : Keep qk s = true) : Keep qk (sealLinked s) = true := by
  unfold sealLinked
  repeat' first
    | with_reducible assumption
    | with_reducible intro _
    | with_reducible apply sealIfAsked_wf
    | with_reducible apply wf_forEach
    | simp only [wf_mk]
    | with_reducible apply keeps_of
    | (extract_lets x; first | (refine wf_cut (Keep qk x = true) ?_ ?_; focus (subst x); rotate_left; focus (intro hx; generalize x = y at hx ⊢)) | skip)

theorem execSupervisorStart_wf {qm : Bool} {s : State} (h_s : Keep ⟨qm, none⟩ s = true) : OW ⟨qm, none⟩ (execSupervisorStart s) := by
  unfold execSupervisorStart
  repeat' first
    | with_reducible assumption
    | with_reducible intro _
    | with_reducible apply rset_wf
    | with_reducible apply rclr_wf
    | with_reducible apply resetRange_wf
    | with_reducible apply recordEvent_wf
    | with_reducible apply refreshFlashBusy_wf
    | with_reducible apply continueLoad_wf
    | with_reducible apply chooseStore_wf
    | with_reducible apply applyRate_wf
    | with_reducible apply sealLinked_wf
    | with_reducible apply ow_ite
    | with_reducible apply wf_ite
    | with_reducible apply ow_next
    | simp only [wf_mk]
    | with_reducible apply keeps_of
    | with_reducible apply keeps_move (γ := s.grid)
    | (extract_lets x; first | (refine wf_cut (Keep ⟨qm, none⟩ x = true) ?_ ?_; focus (subst x); rotate_left; focus (intro hx; generalize x = y at hx ⊢)) | skip)
    | split

end Sys2Proof.Machine
end

