-- ==== Sys2Proof/Laws/KeepsBoundary.lean ====
section
/-! SUPPORT. The operations of Machine/Boundary.lean keep what `Keep` names. -/

namespace Sys2Proof.Machine
open Sys2Proof
set_option linter.all false
set_option simprocs false

theorem advanceBlock_wf {qm : Bool} {s : State} {n : Nat} (h_s : Keep ⟨qm, none⟩ s = true) : Keep ⟨qm, none⟩ (advanceBlock s n) = true := by
  unfold advanceBlock
  repeat' first
    | with_reducible assumption
    | with_reducible intro _
    | with_reducible apply wr_wf
    | with_reducible apply rset_wf
    | with_reducible apply rbit_wf
    | with_reducible apply recordEvent_wf
    | with_reducible apply wf_ite
    | simp only [wf_mk]
    | with_reducible apply keeps_of
    | with_reducible apply keeps_move (γ := s.grid)
    | (extract_lets x; first | (refine wf_cut (Keep ⟨qm, none⟩ x = true) ?_ ?_; focus (subst x); rotate_left; focus (intro hx; generalize x = y at hx ⊢)) | skip)

theorem startStop_wf {qm : Bool} {s : State} (h_s : Keep ⟨qm, none⟩ s = true) : Keep ⟨qm, none⟩ (startStop s) = true := by
  unfold startStop
  repeat' first
    | with_reducible assumption
    | with_reducible intro _
    | with_reducible apply rset_wf
    | with_reducible apply rclr_wf
    | with_reducible apply clearFabric_wf
    | with_reducible apply wf_ite
    | simp only [wf_mk]
    | with_reducible apply keeps_of
    | with_reducible apply keeps_move (γ := s.grid)
    | (extract_lets x; first | (refine wf_cut (Keep ⟨qm, none⟩ x = true) ?_ ?_; focus (subst x); rotate_left; focus (intro hx; generalize x = y at hx ⊢)) | skip)
    | split

theorem shiftMaps_wf {qk : Kept} {s : State} (h_s : Keep qk s = true) : Keep qk (shiftMaps s) = true := by
  unfold shiftMaps
  repeat' first
    | with_reducible assumption
    | with_reducible intro _
    | simp only [wf_mk]
    | with_reducible apply keeps_of
    | (extract_lets x; first | (refine wf_cut (Keep qk x = true) ?_ ?_; focus (subst x); rotate_left; focus (intro hx; generalize x = y at hx ⊢)) | skip)

theorem endPeriod_wf {qk : Kept} {s : State} (h_s : Keep qk s = true) : Keep qk (endPeriod s) = true := by
  unfold endPeriod
  repeat' first
    | with_reducible assumption
    | with_reducible intro _
    | with_reducible apply closeBeads_wf
    | with_reducible apply delayPeriod_wf
    | with_reducible apply mixPeriod_wf
    | with_reducible apply finishPorts_wf
    | with_reducible apply senseDeadline_wf
    | simp only [wf_mk]
    | with_reducible apply keeps_of
    | (extract_lets x; first | (refine wf_cut (Keep qk x = true) ?_ ?_; focus (subst x); rotate_left; focus (intro hx; generalize x = y at hx ⊢)) | skip)

theorem releaseUnits_wf {qk : Kept} {s : State} (h_s : Keep qk s = true) : Keep qk (releaseUnits s) = true := by
  unfold releaseUnits
  repeat' first
    | with_reducible assumption
    | with_reducible intro _
    | simp only [wf_mk]
    | with_reducible apply keeps_of
    | (extract_lets x; first | (refine wf_cut (Keep qk x = true) ?_ ?_; focus (subst x); rotate_left; focus (intro hx; generalize x = y at hx ⊢)) | skip)

theorem beginPeriod_wf {qk : Kept} {s : State} {b epoch : Nat} (h_s : Keep qk s = true) : Keep qk (beginPeriod s b epoch) = true := by
  unfold beginPeriod
  repeat' first
    | with_reducible assumption
    | with_reducible intro _
    | with_reducible apply freeBanks_wf
    | with_reducible apply rodBoundary_wf
    | with_reducible apply pathTimeouts_wf
    | with_reducible apply transmitStreams_wf
    | with_reducible apply clearStreams_wf
    | with_reducible apply countDelay_wf
    | with_reducible apply countCrosspoints_wf
    | with_reducible apply beginPorts_wf
    | with_reducible apply askDoorbell_wf
    | with_reducible apply barBoundary_wf
    | with_reducible apply stkBoundary_wf
    | with_reducible apply continueLoad_wf
    | with_reducible apply shiftMaps_wf
    | with_reducible apply wf_forEach
    | simp only [wf_mk]
    | with_reducible apply keeps_of
    | (extract_lets x; first | (refine wf_cut (Keep qk x = true) ?_ ?_; focus (subst x); rotate_left; focus (intro hx; generalize x = y at hx ⊢)) | skip)

theorem crossBoundary_wf {qm : Bool} {s : State} {n : Nat} (h_s : Keep ⟨qm, none⟩ s = true) : Keep ⟨qm, none⟩ (crossBoundary s n) = true := by
  unfold crossBoundary
  repeat' first
    | with_reducible assumption
    | with_reducible intro _
    | with_reducible apply gatherRaises_wf
    | with_reducible apply settleTallies_wf
    | with_reducible apply tallyCarry_wf
    | with_reducible apply applyTallies_wf
    | with_reducible apply advanceBlock_wf
    | with_reducible apply startStop_wf
    | with_reducible apply endPeriod_wf
    | with_reducible apply releaseUnits_wf
    | with_reducible apply beginPeriod_wf
    | simp only [wf_mk]
    | with_reducible apply keeps_of
    | (extract_lets x; first | (refine wf_cut (Keep ⟨qm, none⟩ x = true) ?_ ?_; focus (subst x); rotate_left; focus (intro hx; generalize x = y at hx ⊢)) | skip)

theorem blockBoundary_wf {qm : Bool} {s : State} (h_s : Keep ⟨qm, none⟩ s = true) : Keep ⟨qm, none⟩ (blockBoundary s) = true := by
  unfold blockBoundary
  repeat' first
    | with_reducible assumption
    | with_reducible intro _
    | with_reducible apply openCycle_wf
    | with_reducible apply closeCycle_wf
    | with_reducible apply raise_wf
    | with_reducible apply flushRaises_wf
    | with_reducible apply clearTimed_wf
    | with_reducible apply finishTimed_wf
    | with_reducible apply crossBoundary_wf
    | simp only [wf_mk]
    | with_reducible apply keeps_of
    | (extract_lets x; first | (refine wf_cut (Keep ⟨qm, none⟩ x = true) ?_ ?_; focus (subst x); rotate_left; focus (intro hx; generalize x = y at hx ⊢)) | skip)

theorem execBlockBoundary_wf {qm : Bool} {s : State} (h_s : Keep ⟨qm, none⟩ s = true) : OW ⟨qm, none⟩ (execBlockBoundary s) := by
  unfold execBlockBoundary
  repeat' first
    | with_reducible assumption
    | with_reducible intro _
    | with_reducible apply onHost_wf
    | with_reducible apply blockBoundary_wf
    | with_reducible apply ow_next
    | simp only [wf_mk]
    | with_reducible apply keeps_of
    | (extract_lets x; first | (refine wf_cut (Keep ⟨qm, none⟩ x = true) ?_ ?_; focus (subst x); rotate_left; focus (intro hx; generalize x = y at hx ⊢)) | skip)

end Sys2Proof.Machine
end

