-- ==== Sys2Proof/Laws/KeepsBusCmd.lean ====
section
/-! SUPPORT. The operations of Machine/BusCmd.lean keep what `Keep` names. -/

namespace Sys2Proof.Machine
open Sys2Proof
set_option linter.all false
set_option simprocs false

theorem busReadLatch_wf {qk : Kept} {s : State} {a : Nat} (h_s : Keep qk s = true) : Keep qk (busReadLatch s a) = true := by
  unfold busReadLatch
  repeat' first
    | with_reducible assumption
    | with_reducible intro _
    | with_reducible apply hostTimeNowFracRead_wf
    | with_reducible apply hostTimeCntLoRead_wf
    | with_reducible apply hostTimeBaseCntLoRead_wf
    | with_reducible apply hostBphRxCsseqRead_wf
    | with_reducible apply hostEvrOptimeFRead_wf
    | with_reducible apply hostSysBlkidxLoRead_wf
    | with_reducible apply wf_ite
    | simp only [wf_mk]
    | with_reducible apply keeps_of
    | (extract_lets x; first | (refine wf_cut (Keep qk x = true) ?_ ?_; focus (subst x); rotate_left; focus (intro hx; generalize x = y at hx ⊢)) | skip)
    | split

theorem registerBurst_wf {qm : Bool} {s : State} {r : BusReq} (h_s : Keep ⟨qm, none⟩ s = true) : Keep ⟨qm, none⟩ (registerBurst s r) = true := by
  unfold registerBurst
  repeat' first
    | with_reducible assumption
    | with_reducible intro _
    | with_reducible apply busWrite_wf
    | with_reducible apply busReadLatch_wf
    | with_reducible apply wf_foldl
    | with_reducible apply wf_foldl1
    | with_reducible apply wf_ite
    | simp only [wf_mk]
    | with_reducible apply keeps_of
    | (extract_lets x; first | (refine wf_cut (Keep ⟨qm, none⟩ x = true) ?_ ?_; focus (subst x); rotate_left; focus (intro hx; generalize x = y at hx ⊢)) | skip)
    | dsimp -zeta only
    | split

theorem runBurst_wf {qm : Bool} {s : State} {t : Nat} {r : BusReq} {ecc : EccResult} (h_s : Keep ⟨qm, none⟩ s = true) : Keep ⟨qm, none⟩ (runBurst s t r ecc) = true := by
  unfold runBurst
  repeat' first
    | with_reducible assumption
    | with_reducible intro _
    | with_reducible apply memoryBurst_wf
    | with_reducible apply registerBurst_wf
    | with_reducible apply wf_ite
    | simp only [wf_mk]
    | with_reducible apply keeps_of
    | (extract_lets x; first | (refine wf_cut (Keep ⟨qm, none⟩ x = true) ?_ ?_; focus (subst x); rotate_left; focus (intro hx; generalize x = y at hx ⊢)) | skip)

theorem grant_wf {qm : Bool} {s : State} {t : Nat} {x : BusReq × Nat} {ecc : EccResult} (h_s : Keep ⟨qm, none⟩ s = true) : Keep ⟨qm, none⟩ (grant s t x ecc) = true := by
  unfold grant
  repeat' first
    | with_reducible assumption
    | with_reducible intro _
    | with_reducible apply setPort_wf
    | with_reducible apply runBurst_wf
    | simp only [wf_mk]
    | with_reducible apply keeps_of
    | (extract_lets x; first | (refine wf_cut (Keep ⟨qm, none⟩ x = true) ?_ ?_; focus (subst x); rotate_left; focus (intro hx; generalize x = y at hx ⊢)) | skip)
    | dsimp -zeta only

theorem execBusRequest_wf {qm : Bool} {target : Fin 24} {arrivals : List BusReq} {elapsed : Nat} {ecc : EccResult} {s : State} (h_s : Keep ⟨qm, none⟩ s = true) : OW ⟨qm, none⟩ (execBusRequest target arrivals elapsed ecc s) := by
  unfold execBusRequest
  repeat' first
    | with_reducible assumption
    | with_reducible intro _
    | with_reducible apply arrive_wf
    | with_reducible apply portAges_wf
    | with_reducible apply grant_wf
    | with_reducible apply wf_forEach
    | with_reducible apply ow_ite
    | with_reducible apply wf_ite
    | with_reducible apply ow_next
    | simp only [wf_mk]
    | with_reducible apply keeps_of
    | (extract_lets x; first | (refine wf_cut (Keep ⟨qm, none⟩ x = true) ?_ ?_; focus (subst x); rotate_left; focus (intro hx; generalize x = y at hx ⊢)) | skip)
    | dsimp -zeta only
    | split

theorem execMatrixTimeout_wf {qk : Kept} {master : Fin 16} {target : Fin 24} {wait : MatrixWait} {s : State} (h_s : Keep qk s = true) : OW qk (execMatrixTimeout master target wait s) := by
  unfold execMatrixTimeout
  repeat' first
    | with_reducible assumption
    | with_reducible intro _
    | with_reducible apply transactionLost_wf
    | with_reducible apply portAges_wf
    | with_reducible apply ow_ite
    | with_reducible apply wf_ite
    | with_reducible apply ow_next
    | simp only [wf_mk]
    | with_reducible apply keeps_of
    | (extract_lets x; first | (refine wf_cut (Keep qk x = true) ?_ ?_; focus (subst x); rotate_left; focus (intro hx; generalize x = y at hx ⊢)) | skip)
    | dsimp -zeta only
    | split

end Sys2Proof.Machine
end

