-- ==== Sys2Proof/Laws/KeepsFieldProt.lean ====
section
/-! SUPPORT. The operations of Machine/FieldProt.lean keep what `Keep` names. -/

namespace Sys2Proof.Machine
open Sys2Proof
set_option linter.all false
set_option simprocs false

theorem railStep_wf {qk : Kept} {s : State} {d : Die} {p n : Word} (h_s : Keep qk s = true) : Keep qk (railStep s d p n) = true := by
  unfold railStep
  repeat' first
    | with_reducible assumption
    | with_reducible intro _
    | with_reducible apply setDie_wf
    | with_reducible apply fput_wf
    | with_reducible apply fbit_wf
    | with_reducible apply fldRaise_wf
    | with_reducible apply wf_ite
    | simp only [wf_mk]
    | with_reducible apply keeps_of
    | (extract_lets x; first | (refine wf_cut (Keep qk x = true) ?_ ?_; focus (subst x); rotate_left; focus (intro hx; generalize x = y at hx ⊢)) | skip)

theorem gainWatch_wf {qk : Kept} {s : State} {d : Die} {c : Nat} {g : Rat} {ones idx : Nat} (h_s : Keep qk s = true) : PW qk (gainWatch s d c g ones idx) := by
  unfold gainWatch
  repeat' first
    | with_reducible assumption
    | with_reducible intro _
    | with_reducible apply fldRaise_wf
    | with_reducible apply pw_ite
    | with_reducible apply wf_ite
    | with_reducible apply pw_mk
    | simp only [wf_mk]
    | with_reducible apply keeps_of
    | (extract_lets x; first | (refine wf_cut (Keep qk x = true) ?_ ?_; focus (subst x); rotate_left; focus (intro hx; generalize x = y at hx ⊢)) | skip)
theorem gainWatch_e {qk : Kept} {s : State} {d : Die} {c : Nat} {g : Rat} {ones idx : Nat} {zt : State} {zb} (e : (gainWatch s d c g ones idx) = (zt, zb)) (h_s : Keep qk s = true) : Keep qk zt = true := pw_e (gainWatch_wf h_s) e
theorem gainWatch_p {qk : Kept} {s : State} {d : Die} {c : Nat} {g : Rat} {ones idx : Nat} (h_s : Keep qk s = true) : Keep qk (gainWatch s d c g ones idx).1 = true := gainWatch_wf h_s

theorem excursion_wf {qk : Kept} {s : State} {d : Die} {c : Nat} {re : Word} {drive : Rat} (h_s : Keep qk s = true) : Keep qk (excursion s d c re drive) = true := by
  unfold excursion
  repeat' first
    | with_reducible assumption
    | with_reducible intro _
    | with_reducible apply fbit_wf
    | with_reducible apply setFch_wf
    | refine gainWatch_e (by with_reducible assumption) ?_
    | with_reducible apply gainWatch_p
    | with_reducible apply gainWatch_wf
    | with_reducible apply wf_ite
    | simp only [wf_mk]
    | with_reducible apply keeps_of
    | (extract_lets x; first | (refine wf_cut (Keep qk x = true) ?_ ?_; focus (subst x); rotate_left; focus (intro hx; generalize x = y at hx ⊢)) | skip)
    | split

theorem supplyGain_wf {qk : Kept} {s : State} {d : Die} {c : Nat} {x3t : Rat} (h_s : Keep qk s = true) : Keep qk (supplyGain s d c x3t) = true := by
  unfold supplyGain
  repeat' first
    | with_reducible assumption
    | with_reducible intro _
    | with_reducible apply fbit_wf
    | with_reducible apply setFch_wf
    | refine gainWatch_e (by with_reducible assumption) ?_
    | with_reducible apply gainWatch_p
    | with_reducible apply gainWatch_wf
    | with_reducible apply wf_ite
    | simp only [wf_mk]
    | with_reducible apply keeps_of
    | (extract_lets x; first | (refine wf_cut (Keep qk x = true) ?_ ?_; focus (subst x); rotate_left; focus (intro hx; generalize x = y at hx ⊢)) | skip)
    | split

theorem protectSample_wf {qk : Kept} {s : State} {d : Die} {c k : Nat} {w : Word} (h_s : Keep qk s = true) : PW qk (protectSample s d c k w) := by
  unfold protectSample
  repeat' first
    | with_reducible assumption
    | with_reducible intro _
    | with_reducible apply fadd_wf
    | with_reducible apply setFch_wf
    | with_reducible apply excursion_wf
    | with_reducible apply supplyGain_wf
    | with_reducible apply pw_ite
    | with_reducible apply wf_ite
    | with_reducible apply pw_mk
    | simp only [wf_mk]
    | with_reducible apply keeps_of
    | (extract_lets x; first | (refine wf_cut (Keep qk x = true) ?_ ?_; focus (subst x); rotate_left; focus (intro hx; generalize x = y at hx ⊢)) | skip)
    | split
theorem protectSample_e {qk : Kept} {s : State} {d : Die} {c k : Nat} {w : Word} {zt : State} {zb} (e : (protectSample s d c k w) = (zt, zb)) (h_s : Keep qk s = true) : Keep qk zt = true := pw_e (protectSample_wf h_s) e
theorem protectSample_p {qk : Kept} {s : State} {d : Die} {c k : Nat} {w : Word} (h_s : Keep qk s = true) : Keep qk (protectSample s d c k w).1 = true := protectSample_wf h_s

theorem takeSense_wf {qk : Kept} {s : State} {d : Die} {i : SenseIn} (h_s : Keep qk s = true) : Keep qk (takeSense s d i) = true := by
  unfold takeSense
  repeat' first
    | with_reducible assumption
    | with_reducible intro _
    | with_reducible apply setDie_wf
    | simp only [wf_mk]
    | with_reducible apply keeps_of
    | (extract_lets x; first | (refine wf_cut (Keep qk x = true) ?_ ?_; focus (subst x); rotate_left; focus (intro hx; generalize x = y at hx ⊢)) | skip)

theorem dcOutLatch_wf {qk : Kept} {s : State} {d : Die} {c : Nat} (h_s : Keep qk s = true) : Keep qk (dcOutLatch s d c) = true := by
  unfold dcOutLatch
  repeat' first
    | with_reducible assumption
    | with_reducible intro _
    | with_reducible apply gatesOff_wf
    | with_reducible apply setLatch_wf
    | with_reducible apply wf_ite
    | simp only [wf_mk]
    | with_reducible apply keeps_of
    | (extract_lets x; first | (refine wf_cut (Keep qk x = true) ?_ ?_; focus (subst x); rotate_left; focus (intro hx; generalize x = y at hx ⊢)) | skip)

theorem dcStreamLatch_wf {qk : Kept} {s : State} {d : Die} {c : Nat} (h_s : Keep qk s = true) : Keep qk (dcStreamLatch s d c) = true := by
  unfold dcStreamLatch
  repeat' first
    | with_reducible assumption
    | with_reducible intro _
    | with_reducible apply setLatch_wf
    | with_reducible apply wf_ite
    | simp only [wf_mk]
    | with_reducible apply keeps_of
    | (extract_lets x; first | (refine wf_cut (Keep qk x = true) ?_ ?_; focus (subst x); rotate_left; focus (intro hx; generalize x = y at hx ⊢)) | skip)

theorem execDcOutDetect_wf {qk : Kept} {d : Die} {c : Fin 32} {s : State} (h_s : Keep qk s = true) : OW qk (execDcOutDetect d c s) := by
  unfold execDcOutDetect
  repeat' first
    | with_reducible assumption
    | with_reducible intro _
    | with_reducible apply onDie_wf
    | with_reducible apply dcOutLatch_wf
    | with_reducible apply ow_next
    | simp only [wf_mk]
    | with_reducible apply keeps_of
    | (extract_lets x; first | (refine wf_cut (Keep qk x = true) ?_ ?_; focus (subst x); rotate_left; focus (intro hx; generalize x = y at hx ⊢)) | skip)

theorem execDcStreamDetect_wf {qk : Kept} {d : Die} {c : Fin 32} {s : State} (h_s : Keep qk s = true) : OW qk (execDcStreamDetect d c s) := by
  unfold execDcStreamDetect
  repeat' first
    | with_reducible assumption
    | with_reducible intro _
    | with_reducible apply onDie_wf
    | with_reducible apply dcStreamLatch_wf
    | with_reducible apply ow_next
    | simp only [wf_mk]
    | with_reducible apply keeps_of
    | (extract_lets x; first | (refine wf_cut (Keep qk x = true) ?_ ?_; focus (subst x); rotate_left; focus (intro hx; generalize x = y at hx ⊢)) | skip)

theorem showGains_wf {qk : Kept} {s : State} {d : Die} {c : Nat} (h_s : Keep qk s = true) : Keep qk (showGains s d c) = true := by
  unfold showGains
  repeat' first
    | with_reducible assumption
    | with_reducible intro _
    | with_reducible apply fwr_wf
    | simp only [wf_mk]
    | with_reducible apply keeps_of
    | (extract_lets x; first | (refine wf_cut (Keep qk x = true) ?_ ?_; focus (subst x); rotate_left; focus (intro hx; generalize x = y at hx ⊢)) | skip)

theorem observe_wf {qk : Kept} {s : State} {d : Die} {c k : Nat} {vs is x4 : Word} (h_s : Keep qk s = true) : Keep qk (observe s d c k vs is x4) = true := by
  unfold observe
  repeat' first
    | with_reducible assumption
    | with_reducible intro _
    | with_reducible apply fputI_wf
    | with_reducible apply setFch_wf
    | with_reducible apply showGains_wf
    | with_reducible apply wf_ite
    | simp only [wf_mk]
    | with_reducible apply keeps_of
    | (extract_lets x; first | (refine wf_cut (Keep qk x = true) ?_ ?_; focus (subst x); rotate_left; focus (intro hx; generalize x = y at hx ⊢)) | skip)
    | dsimp -zeta only

theorem endCheck_wf {qk : Kept} {s : State} {d : Die} {c : Nat} (h_s : Keep qk s = true) : Keep qk (endCheck s d c) = true := by
  unfold endCheck
  repeat' first
    | with_reducible assumption
    | with_reducible intro _
    | with_reducible apply failCheck_wf
    | with_reducible apply passCheck_wf
    | with_reducible apply wf_ite
    | simp only [wf_mk]
    | with_reducible apply keeps_of
    | (extract_lets x; first | (refine wf_cut (Keep qk x = true) ?_ ?_; focus (subst x); rotate_left; focus (intro hx; generalize x = y at hx ⊢)) | skip)
    | split

theorem execCheckEnd_wf {qk : Kept} {d : Die} {c : Fin 32} {s : State} (h_s : Keep qk s = true) : OW qk (execCheckEnd d c s) := by
  unfold execCheckEnd
  repeat' first
    | with_reducible assumption
    | with_reducible intro _
    | with_reducible apply onDie_wf
    | with_reducible apply endCheck_wf
    | with_reducible apply ow_next
    | simp only [wf_mk]
    | with_reducible apply keeps_of
    | (extract_lets x; first | (refine wf_cut (Keep qk x = true) ?_ ?_; focus (subst x); rotate_left; focus (intro hx; generalize x = y at hx ⊢)) | skip)

theorem heatLatch_wf {qk : Kept} {s : State} {d : Die} {c : Nat} {f : Fld} {idx : Nat} {t shut fold : Rat} (h_s : Keep qk s = true) : Keep qk (heatLatch s d c f idx t shut fold) = true := by
  unfold heatLatch
  repeat' first
    | with_reducible assumption
    | with_reducible intro _
    | with_reducible apply fbit_wf
    | with_reducible apply setLatch_wf
    | with_reducible apply wf_ite
    | simp only [wf_mk]
    | with_reducible apply keeps_of
    | (extract_lets x; first | (refine wf_cut (Keep qk x = true) ?_ ?_; focus (subst x); rotate_left; focus (intro hx; generalize x = y at hx ⊢)) | skip)

theorem thermalChan_wf {qk : Kept} {s : State} {d : Die} {c : Nat} (h_s : Keep qk s = true) : Keep qk (thermalChan s d c) = true := by
  unfold thermalChan
  repeat' first
    | with_reducible assumption
    | with_reducible intro _
    | with_reducible apply fputI_wf
    | with_reducible apply fbit_wf
    | with_reducible apply setFch_wf
    | with_reducible apply fldRaise_wf
    | with_reducible apply showGains_wf
    | with_reducible apply heatLatch_wf
    | with_reducible apply wf_ite
    | simp only [wf_mk]
    | with_reducible apply keeps_of
    | (extract_lets x; first | (refine wf_cut (Keep qk x = true) ?_ ?_; focus (subst x); rotate_left; focus (intro hx; generalize x = y at hx ⊢)) | skip)
    | split

theorem thermalStep_wf {qk : Kept} {s : State} {d : Die} (h_s : Keep qk s = true) : Keep qk (thermalStep s d) = true := by
  unfold thermalStep
  repeat' first
    | with_reducible assumption
    | with_reducible intro _
    | with_reducible apply setDie_wf
    | with_reducible apply thermalChan_wf
    | with_reducible apply wf_forEach
    | with_reducible apply wf_ite
    | simp only [wf_mk]
    | with_reducible apply keeps_of
    | (extract_lets x; first | (refine wf_cut (Keep qk x = true) ?_ ?_; focus (subst x); rotate_left; focus (intro hx; generalize x = y at hx ⊢)) | skip)

theorem takeTs_wf {qk : Kept} {s : State} {d : Die} {ones : List Nat} (h_s : Keep qk s = true) : Keep qk (takeTs s d ones) = true := by
  unfold takeTs
  repeat' first
    | with_reducible assumption
    | with_reducible intro _
    | with_reducible apply setDie_wf
    | with_reducible apply fputI_wf
    | with_reducible apply wf_forEach
    | simp only [wf_mk]
    | with_reducible apply keeps_of
    | (extract_lets x; first | (refine wf_cut (Keep qk x = true) ?_ ?_; focus (subst x); rotate_left; focus (intro hx; generalize x = y at hx ⊢)) | skip)
    | dsimp -zeta only

theorem execThermalModelUpdate_wf {qk : Kept} {d : Die} {ones : List Nat} {s : State} (h_s : Keep qk s = true) : OW qk (execThermalModelUpdate d ones s) := by
  unfold execThermalModelUpdate
  repeat' first
    | with_reducible assumption
    | with_reducible intro _
    | with_reducible apply onDie_wf
    | with_reducible apply thermalStep_wf
    | with_reducible apply takeTs_wf
    | with_reducible apply ow_ite
    | with_reducible apply wf_ite
    | with_reducible apply ow_next
    | simp only [wf_mk]
    | with_reducible apply keeps_of
    | (extract_lets x; first | (refine wf_cut (Keep qk x = true) ?_ ?_; focus (subst x); rotate_left; focus (intro hx; generalize x = y at hx ⊢)) | skip)

theorem trimStep_wf {qk : Kept} {s : State} {d : Die} (h_s : Keep qk s = true) : Keep qk (trimStep s d) = true := by
  unfold trimStep
  repeat' first
    | with_reducible assumption
    | with_reducible intro _
    | with_reducible apply setDie_wf
    | with_reducible apply fputI_wf
    | with_reducible apply setFch_wf
    | with_reducible apply wf_forEach
    | with_reducible apply wf_ite
    | simp only [wf_mk]
    | with_reducible apply keeps_of
    | (extract_lets x; first | (refine wf_cut (Keep qk x = true) ?_ ?_; focus (subst x); rotate_left; focus (intro hx; generalize x = y at hx ⊢)) | skip)

theorem execTrimUpdate_wf {qk : Kept} {d : Die} {s : State} (h_s : Keep qk s = true) : OW qk (execTrimUpdate d s) := by
  unfold execTrimUpdate
  repeat' first
    | with_reducible assumption
    | with_reducible intro _
    | with_reducible apply onDie_wf
    | with_reducible apply trimStep_wf
    | with_reducible apply ow_next
    | simp only [wf_mk]
    | with_reducible apply keeps_of
    | (extract_lets x; first | (refine wf_cut (Keep qk x = true) ?_ ?_; focus (subst x); rotate_left; focus (intro hx; generalize x = y at hx ⊢)) | skip)

theorem confirmClass_wf {qk : Kept} {s : State} {d : Die} {c cls n : Nat} (h_s : Keep qk s = true) : Keep qk (confirmClass s d c cls n) = true := by
  unfold confirmClass
  repeat' first
    | with_reducible assumption
    | with_reducible intro _
    | with_reducible apply fput_wf
    | with_reducible apply setFch_wf
    | with_reducible apply fldRaise_wf
    | with_reducible apply wf_ite
    | simp only [wf_mk]
    | with_reducible apply keeps_of
    | (extract_lets x; first | (refine wf_cut (Keep qk x = true) ?_ ?_; focus (subst x); rotate_left; focus (intro hx; generalize x = y at hx ⊢)) | skip)

theorem pilotResult_wf {qk : Kept} {s : State} {d : Die} {c : Nat} {z : Rat × Rat} {amp : Rat} (h_s : Keep qk s = true) : Keep qk (pilotResult s d c z amp) = true := by
  unfold pilotResult
  repeat' first
    | with_reducible assumption
    | with_reducible intro _
    | with_reducible apply fwr_wf
    | with_reducible apply setFch_wf
    | with_reducible apply fldRaise_wf
    | with_reducible apply confirmClass_wf
    | with_reducible apply wf_ite
    | simp only [wf_mk]
    | with_reducible apply keeps_of
    | (extract_lets x; first | (refine wf_cut (Keep qk x = true) ?_ ?_; focus (subst x); rotate_left; focus (intro hx; generalize x = y at hx ⊢)) | skip)
    | dsimp -zeta only

theorem pilotStep_wf {qk : Kept} {s : State} {d : Die} (h_s : Keep qk s = true) : Keep qk (pilotStep s d) = true := by
  unfold pilotStep
  repeat' first
    | with_reducible assumption
    | with_reducible intro _
    | refine takeFreeInt_e (by with_reducible assumption) ?_
    | with_reducible apply takeFreeInt_p
    | with_reducible apply takeFreeInt_wf
    | with_reducible apply setDie_wf
    | with_reducible apply fbit_wf
    | with_reducible apply setFch_wf
    | with_reducible apply pilotResult_wf
    | with_reducible apply wf_forEach
    | with_reducible apply wf_ite
    | simp only [wf_mk]
    | with_reducible apply keeps_of
    | (extract_lets x; first | (refine wf_cut (Keep qk x = true) ?_ ?_; focus (subst x); rotate_left; focus (intro hx; generalize x = y at hx ⊢)) | skip)
    | split

theorem execPilotWindowEnd_wf {qk : Kept} {d : Die} {s : State} (h_s : Keep qk s = true) : OW qk (execPilotWindowEnd d s) := by
  unfold execPilotWindowEnd
  repeat' first
    | with_reducible assumption
    | with_reducible intro _
    | with_reducible apply onDie_wf
    | with_reducible apply pilotStep_wf
    | with_reducible apply ow_next
    | simp only [wf_mk]
    | with_reducible apply keeps_of
    | (extract_lets x; first | (refine wf_cut (Keep qk x = true) ?_ ?_; focus (subst x); rotate_left; focus (intro hx; generalize x = y at hx ⊢)) | skip)

theorem execZrefCapture_wf {qk : Kept} {d : Die} {m : CmdCopy} {s : State} (h_s : Keep qk s = true) : OW qk (execZrefCapture d m s) := by
  unfold execZrefCapture
  repeat' first
    | with_reducible assumption
    | with_reducible intro _
    | with_reducible apply fwr_wf
    | with_reducible apply onCmd_wf
    | with_reducible apply wf_forEach
    | with_reducible apply ow_ite
    | with_reducible apply wf_ite
    | with_reducible apply pw_ite
    | with_reducible apply pw_mk
    | with_reducible apply ow_next
    | simp only [wf_mk]
    | with_reducible apply keeps_of
    | (extract_lets x; first | (refine wf_cut (Keep qk x = true) ?_ ?_; focus (subst x); rotate_left; focus (intro hx; generalize x = y at hx ⊢)) | skip)
    | split

theorem execSenseStreamBad_wf {qk : Kept} {d : Die} {st : SenseStream} {s : State} (h_s : Keep qk s = true) : OW qk (execSenseStreamBad d st s) := by
  unfold execSenseStreamBad
  repeat' first
    | with_reducible assumption
    | with_reducible intro _
    | with_reducible apply fbit_wf
    | with_reducible apply fldRaise_wf
    | with_reducible apply onDie_wf
    | with_reducible apply setLatch_wf
    | with_reducible apply ow_ite
    | with_reducible apply wf_ite
    | with_reducible apply ow_next
    | simp only [wf_mk]
    | with_reducible apply keeps_of
    | (extract_lets x; first | (refine wf_cut (Keep qk x = true) ?_ ?_; focus (subst x); rotate_left; focus (intro hx; generalize x = y at hx ⊢)) | skip)
    | split

theorem execSenseStreamGood_wf {qk : Kept} {d : Die} {st : SenseStream} {s : State} (h_s : Keep qk s = true) : OW qk (execSenseStreamGood d st s) := by
  unfold execSenseStreamGood
  repeat' first
    | with_reducible assumption
    | with_reducible intro _
    | with_reducible apply fbit_wf
    | with_reducible apply onDie_wf
    | with_reducible apply ow_next
    | simp only [wf_mk]
    | with_reducible apply keeps_of
    | (extract_lets x; first | (refine wf_cut (Keep qk x = true) ?_ ?_; focus (subst x); rotate_left; focus (intro hx; generalize x = y at hx ⊢)) | skip)
    | split

end Sys2Proof.Machine
end

