-- ==== Sys2Proof/Laws/KeepsFieldTick.lean ====
section
/-! SUPPORT. The operations of Machine/FieldTick.lean keep what `Keep` names. -/

namespace Sys2Proof.Machine
open Sys2Proof
set_option linter.all false
set_option simprocs false

theorem enterPlay_wf {qk : Kept} {s : State} {d : Die} {c : Nat} {twin : Bool} (h_s : Keep qk s = true) : Keep qk (enterPlay s d c twin) = true := by
  unfold enterPlay
  repeat' first
    | with_reducible assumption
    | with_reducible intro _
    | with_reducible apply fadd_wf
    | with_reducible apply setFch_wf
    | with_reducible apply setFcState_wf
    | with_reducible apply fldRaise_wf
    | with_reducible apply wf_ite
    | simp only [wf_mk]
    | with_reducible apply keeps_of
    | (extract_lets x; first | (refine wf_cut (Keep qk x = true) ?_ ?_; focus (subst x); rotate_left; focus (intro hx; generalize x = y at hx ⊢)) | skip)

theorem lossHoldEnd_wf {qk : Kept} {s : State} {d : Die} {c : Nat} (h_s : Keep qk s = true) : Keep qk (lossHoldEnd s d c) = true := by
  unfold lossHoldEnd
  repeat' first
    | with_reducible assumption
    | with_reducible intro _
    | with_reducible apply setFch_wf
    | with_reducible apply setFcState_wf
    | with_reducible apply wf_ite
    | simp only [wf_mk]
    | with_reducible apply keeps_of
    | (extract_lets x; first | (refine wf_cut (Keep qk x = true) ?_ ?_; focus (subst x); rotate_left; focus (intro hx; generalize x = y at hx ⊢)) | skip)

theorem lossFadeEnd_wf {qk : Kept} {s : State} {d : Die} {c : Nat} (h_s : Keep qk s = true) : Keep qk (lossFadeEnd s d c) = true := by
  unfold lossFadeEnd
  repeat' first
    | with_reducible assumption
    | with_reducible intro _
    | with_reducible apply setFch_wf
    | with_reducible apply setFcState_wf
    | with_reducible apply wf_ite
    | simp only [wf_mk]
    | with_reducible apply keeps_of
    | (extract_lets x; first | (refine wf_cut (Keep qk x = true) ?_ ?_; focus (subst x); rotate_left; focus (intro hx; generalize x = y at hx ⊢)) | skip)

theorem lossIdleEnd_wf {qk : Kept} {s : State} {d : Die} {c : Nat} (h_s : Keep qk s = true) : Keep qk (lossIdleEnd s d c) = true := by
  unfold lossIdleEnd
  repeat' first
    | with_reducible assumption
    | with_reducible intro _
    | with_reducible apply enterLossSafe_wf
    | with_reducible apply wf_ite
    | simp only [wf_mk]
    | with_reducible apply keeps_of
    | (extract_lets x; first | (refine wf_cut (Keep qk x = true) ?_ ?_; focus (subst x); rotate_left; focus (intro hx; generalize x = y at hx ⊢)) | skip)

theorem lossRearm_wf {qk : Kept} {s : State} {d : Die} {c k : Nat} (h_s : Keep qk s = true) : Keep qk (lossRearm s d c k) = true := by
  unfold lossRearm
  repeat' first
    | with_reducible assumption
    | with_reducible intro _
    | with_reducible apply setFch_wf
    | with_reducible apply enterPlay_wf
    | with_reducible apply wf_ite
    | simp only [wf_mk]
    | with_reducible apply keeps_of
    | (extract_lets x; first | (refine wf_cut (Keep qk x = true) ?_ ?_; focus (subst x); rotate_left; focus (intro hx; generalize x = y at hx ⊢)) | skip)

theorem execLossHoldEnd_wf {qk : Kept} {d : Die} {c : Fin 32} {s : State} (h_s : Keep qk s = true) : OW qk (execLossHoldEnd d c s) := by
  unfold execLossHoldEnd
  repeat' first
    | with_reducible assumption
    | with_reducible intro _
    | with_reducible apply onDie_wf
    | with_reducible apply lossHoldEnd_wf
    | with_reducible apply ow_next
    | simp only [wf_mk]
    | with_reducible apply keeps_of
    | (extract_lets x; first | (refine wf_cut (Keep qk x = true) ?_ ?_; focus (subst x); rotate_left; focus (intro hx; generalize x = y at hx ⊢)) | skip)

theorem execLossFadeEnd_wf {qk : Kept} {d : Die} {c : Fin 32} {s : State} (h_s : Keep qk s = true) : OW qk (execLossFadeEnd d c s) := by
  unfold execLossFadeEnd
  repeat' first
    | with_reducible assumption
    | with_reducible intro _
    | with_reducible apply onDie_wf
    | with_reducible apply lossFadeEnd_wf
    | with_reducible apply ow_next
    | simp only [wf_mk]
    | with_reducible apply keeps_of
    | (extract_lets x; first | (refine wf_cut (Keep qk x = true) ?_ ?_; focus (subst x); rotate_left; focus (intro hx; generalize x = y at hx ⊢)) | skip)

theorem execLossIdleEnd_wf {qk : Kept} {d : Die} {c : Fin 32} {s : State} (h_s : Keep qk s = true) : OW qk (execLossIdleEnd d c s) := by
  unfold execLossIdleEnd
  repeat' first
    | with_reducible assumption
    | with_reducible intro _
    | with_reducible apply onDie_wf
    | with_reducible apply lossIdleEnd_wf
    | with_reducible apply ow_next
    | simp only [wf_mk]
    | with_reducible apply keeps_of
    | (extract_lets x; first | (refine wf_cut (Keep qk x = true) ?_ ?_; focus (subst x); rotate_left; focus (intro hx; generalize x = y at hx ⊢)) | skip)

theorem execLossRearm_wf {qk : Kept} {d : Die} {c : Fin 32} {s : State} (h_s : Keep qk s = true) : OW qk (execLossRearm d c s) := by
  unfold execLossRearm
  repeat' first
    | with_reducible assumption
    | with_reducible intro _
    | with_reducible apply onDie_wf
    | with_reducible apply lossRearm_wf
    | with_reducible apply ow_next
    | simp only [wf_mk]
    | with_reducible apply keeps_of
    | (extract_lets x; first | (refine wf_cut (Keep qk x = true) ?_ ?_; focus (subst x); rotate_left; focus (intro hx; generalize x = y at hx ⊢)) | skip)

theorem lossDue_wf {qk : Kept} {s : State} {d : Die} {c k : Nat} (h_s : Keep qk s = true) : Keep qk (lossDue s d c k) = true := by
  unfold lossDue
  repeat' first
    | with_reducible assumption
    | with_reducible intro _
    | with_reducible apply lossHoldEnd_wf
    | with_reducible apply lossFadeEnd_wf
    | with_reducible apply lossIdleEnd_wf
    | with_reducible apply lossRearm_wf
    | with_reducible apply wf_ite
    | simp only [wf_mk]
    | with_reducible apply keeps_of
    | (extract_lets x; first | (refine wf_cut (Keep qk x = true) ?_ ?_; focus (subst x); rotate_left; focus (intro hx; generalize x = y at hx ⊢)) | skip)

theorem playUsable_wf {qk : Kept} {s : State} {d : Die} {c : Nat} {w : Word} {twin : Bool} (h_s : Keep qk s = true) : PW qk (playUsable s d c w twin) := by
  unfold playUsable
  repeat' first
    | with_reducible assumption
    | with_reducible intro _
    | with_reducible apply hold_wf
    | with_reducible apply setFch_wf
    | with_reducible apply enterPlay_wf
    | with_reducible apply pw_ite
    | with_reducible apply wf_ite
    | with_reducible apply pw_mk
    | simp only [wf_mk]
    | with_reducible apply keeps_of
    | (extract_lets x; first | (refine wf_cut (Keep qk x = true) ?_ ?_; focus (subst x); rotate_left; focus (intro hx; generalize x = y at hx ⊢)) | skip)
theorem playUsable_e {qk : Kept} {s : State} {d : Die} {c : Nat} {w : Word} {twin : Bool} {zt : State} {zb} (e : (playUsable s d c w twin) = (zt, zb)) (h_s : Keep qk s = true) : Keep qk zt = true := pw_e (playUsable_wf h_s) e
theorem playUsable_p {qk : Kept} {s : State} {d : Die} {c : Nat} {w : Word} {twin : Bool} (h_s : Keep qk s = true) : Keep qk (playUsable s d c w twin).1 = true := playUsable_wf h_s

theorem playMissing_wf {qk : Kept} {s : State} {d : Die} {c : Nat} (h_s : Keep qk s = true) : PW qk (playMissing s d c) := by
  unfold playMissing
  repeat' first
    | with_reducible assumption
    | with_reducible intro _
    | with_reducible apply setFch_wf
    | with_reducible apply setFcState_wf
    | with_reducible apply fldRaise_wf
    | with_reducible apply pw_ite
    | with_reducible apply wf_ite
    | with_reducible apply pw_mk
    | simp only [wf_mk]
    | with_reducible apply keeps_of
    | (extract_lets x; first | (refine wf_cut (Keep qk x = true) ?_ ?_; focus (subst x); rotate_left; focus (intro hx; generalize x = y at hx ⊢)) | skip)
theorem playMissing_e {qk : Kept} {s : State} {d : Die} {c : Nat} {zt : State} {zb} (e : (playMissing s d c) = (zt, zb)) (h_s : Keep qk s = true) : Keep qk zt = true := pw_e (playMissing_wf h_s) e
theorem playMissing_p {qk : Kept} {s : State} {d : Die} {c : Nat} (h_s : Keep qk s = true) : Keep qk (playMissing s d c).1 = true := playMissing_wf h_s

theorem playChan_wf {qk : Kept} {s : State} {d : Die} {c k : Nat} (h_s : Keep qk s = true) : PW qk (playChan s d c k) := by
  unfold playChan
  repeat' first
    | with_reducible assumption
    | with_reducible intro _
    | refine playUsable_e (by with_reducible assumption) ?_
    | with_reducible apply playUsable_p
    | with_reducible apply playUsable_wf
    | refine playMissing_e (by with_reducible assumption) ?_
    | with_reducible apply playMissing_p
    | with_reducible apply playMissing_wf
    | with_reducible apply pw_ite
    | with_reducible apply wf_ite
    | with_reducible apply pw_mk
    | simp only [wf_mk]
    | with_reducible apply keeps_of
    | (extract_lets x; first | (refine wf_cut (Keep qk x = true) ?_ ?_; focus (subst x); rotate_left; focus (intro hx; generalize x = y at hx ⊢)) | skip)
    | dsimp -zeta only
    | split
theorem playChan_e {qk : Kept} {s : State} {d : Die} {c k : Nat} {zt : State} {zb} (e : (playChan s d c k) = (zt, zb)) (h_s : Keep qk s = true) : Keep qk zt = true := pw_e (playChan_wf h_s) e
theorem playChan_p {qk : Kept} {s : State} {d : Die} {c k : Nat} (h_s : Keep qk s = true) : Keep qk (playChan s d c k).1 = true := playChan_wf h_s

theorem digestChan_wf {qk : Kept} {s : State} {d : Die} {c k : Nat} (h_s : Keep qk s = true) : Keep qk (digestChan s d c k) = true := by
  unfold digestChan
  repeat' first
    | with_reducible assumption
    | with_reducible intro _
    | with_reducible apply setFch_wf
    | with_reducible apply wf_ite
    | simp only [wf_mk]
    | with_reducible apply keeps_of
    | (extract_lets x; first | (refine wf_cut (Keep qk x = true) ?_ ?_; focus (subst x); rotate_left; focus (intro hx; generalize x = y at hx ⊢)) | skip)
    | split

theorem compareDigests_wf {qk : Kept} {s : State} {d : Die} {n half : Nat} (h_s : Keep qk s = true) : Keep qk (compareDigests s d n half) = true := by
  unfold compareDigests
  repeat' first
    | with_reducible assumption
    | with_reducible intro _
    | with_reducible apply fbit_wf
    | with_reducible apply fadd_wf
    | with_reducible apply setFch_wf
    | with_reducible apply fldRaise_wf
    | with_reducible apply wf_forEach
    | with_reducible apply wf_ite
    | simp only [wf_mk]
    | with_reducible apply keeps_of
    | (extract_lets x; first | (refine wf_cut (Keep qk x = true) ?_ ?_; focus (subst x); rotate_left; focus (intro hx; generalize x = y at hx ⊢)) | skip)
    | split

theorem digestBlock_wf {qk : Kept} {s : State} {d : Die} {n : Nat} (h_s : Keep qk s = true) : Keep qk (digestBlock s d n) = true := by
  unfold digestBlock
  repeat' first
    | with_reducible assumption
    | with_reducible intro _
    | with_reducible apply setDie_wf
    | with_reducible apply twinSend_wf
    | with_reducible apply compareDigests_wf
    | with_reducible apply wf_forEach
    | with_reducible apply wf_foldl
    | with_reducible apply wf_foldl1
    | with_reducible apply wf_ite
    | simp only [wf_mk]
    | with_reducible apply keeps_of
    | (extract_lets x; first | (refine wf_cut (Keep qk x = true) ?_ ?_; focus (subst x); rotate_left; focus (intro hx; generalize x = y at hx ⊢)) | skip)
    | dsimp -zeta only
    | split

theorem statusSend_wf {qk : Kept} {s : State} {d : Die} (h_s : Keep qk s = true) : Keep qk (statusSend s d) = true := by
  unfold statusSend
  repeat' first
    | with_reducible assumption
    | with_reducible intro _
    | with_reducible apply sendOut_wf
    | with_reducible apply setDie_wf
    | with_reducible apply upSend_wf
    | with_reducible apply wf_forEach
    | simp only [wf_mk]
    | with_reducible apply keeps_of
    | (extract_lets x; first | (refine wf_cut (Keep qk x = true) ?_ ?_; focus (subst x); rotate_left; focus (intro hx; generalize x = y at hx ⊢)) | skip)
    | dsimp -zeta only
    | split

theorem senseSend_wf {qk : Kept} {s : State} {d : Die} {k : Nat} {i : Sensed} (h_s : Keep qk s = true) : Keep qk (senseSend s d k i) = true := by
  unfold senseSend
  repeat' first
    | with_reducible assumption
    | with_reducible intro _
    | with_reducible apply upSend_wf
    | with_reducible apply wf_forEach
    | with_reducible apply wf_ite
    | simp only [wf_mk]
    | with_reducible apply keeps_of
    | (extract_lets x; first | (refine wf_cut (Keep qk x = true) ?_ ?_; focus (subst x); rotate_left; focus (intro hx; generalize x = y at hx ⊢)) | skip)

theorem latchSection_wf {qk : Kept} {s : State} {d : Die} {kc : Nat} (h_s : Keep qk s = true) : Keep qk (latchSection s d kc) = true := by
  unfold latchSection
  repeat' first
    | with_reducible assumption
    | with_reducible intro _
    | with_reducible apply setFch_wf
    | with_reducible apply upSend_wf
    | with_reducible apply wf_forEach
    | simp only [wf_mk]
    | with_reducible apply keeps_of
    | (extract_lets x; first | (refine wf_cut (Keep qk x = true) ?_ ?_; focus (subst x); rotate_left; focus (intro hx; generalize x = y at hx ⊢)) | skip)

theorem latchCarries_wf {qk : Kept} {s : State} {d : Die} {k : Nat} (h_s : Keep qk s = true) : Keep qk (latchCarries s d k) = true := by
  unfold latchCarries
  repeat' first
    | with_reducible assumption
    | with_reducible intro _
    | with_reducible apply setDie_wf
    | with_reducible apply latchSection_wf
    | with_reducible apply wf_forEach
    | simp only [wf_mk]
    | with_reducible apply keeps_of
    | (extract_lets x; first | (refine wf_cut (Keep qk x = true) ?_ ?_; focus (subst x); rotate_left; focus (intro hx; generalize x = y at hx ⊢)) | skip)

theorem tellSweep_wf {qk : Kept} {s : State} {d : Die} {c run start : Nat} (h_s : Keep qk s = true) : Keep qk (tellSweep s d c run start) = true := by
  unfold tellSweep
  repeat' first
    | with_reducible assumption
    | with_reducible intro _
    | with_reducible apply setFch_wf
    | with_reducible apply upSend_wf
    | with_reducible apply fldRaise_wf
    | with_reducible apply wf_forEach
    | with_reducible apply wf_ite
    | simp only [wf_mk]
    | with_reducible apply keeps_of
    | (extract_lets x; first | (refine wf_cut (Keep qk x = true) ?_ ?_; focus (subst x); rotate_left; focus (intro hx; generalize x = y at hx ⊢)) | skip)
    | dsimp -zeta only
    | split

theorem tellSweeps_wf {qk : Kept} {s : State} {d : Die} (h_s : Keep qk s = true) : Keep qk (tellSweeps s d) = true := by
  unfold tellSweeps
  repeat' first
    | with_reducible assumption
    | with_reducible intro _
    | with_reducible apply setDie_wf
    | with_reducible apply fbit_wf
    | with_reducible apply tellSweep_wf
    | with_reducible apply wf_forEach
    | with_reducible apply wf_ite
    | simp only [wf_mk]
    | with_reducible apply keeps_of
    | (extract_lets x; first | (refine wf_cut (Keep qk x = true) ?_ ?_; focus (subst x); rotate_left; focus (intro hx; generalize x = y at hx ⊢)) | skip)
    | split

theorem endSweeps_wf {qk : Kept} {s : State} {d : Die} {st : Nat} (h_s : Keep qk s = true) : Keep qk (endSweeps s d st) = true := by
  unfold endSweeps
  repeat' first
    | with_reducible assumption
    | with_reducible intro _
    | with_reducible apply stopSweepChan_wf
    | with_reducible apply tellSweeps_wf
    | with_reducible apply wf_forEach
    | simp only [wf_mk]
    | with_reducible apply keeps_of
    | (extract_lets x; first | (refine wf_cut (Keep qk x = true) ?_ ?_; focus (subst x); rotate_left; focus (intro hx; generalize x = y at hx ⊢)) | skip)

theorem sweepPointEnd_wf {qk : Kept} {s : State} {d : Die} (h_s : Keep qk s = true) : Keep qk (sweepPointEnd s d) = true := by
  unfold sweepPointEnd
  repeat' first
    | with_reducible assumption
    | with_reducible intro _
    | with_reducible apply setDie_wf
    | with_reducible apply fput_wf
    | with_reducible apply setFch_wf
    | with_reducible apply endSweeps_wf
    | with_reducible apply wf_forEach
    | with_reducible apply wf_ite
    | simp only [wf_mk]
    | with_reducible apply keeps_of
    | (extract_lets x; first | (refine wf_cut (Keep qk x = true) ?_ ?_; focus (subst x); rotate_left; focus (intro hx; generalize x = y at hx ⊢)) | skip)
    | dsimp -zeta only
    | split

theorem execSweepPointEnd_wf {qk : Kept} {d : Die} {s : State} (h_s : Keep qk s = true) : OW qk (execSweepPointEnd d s) := by
  unfold execSweepPointEnd
  repeat' first
    | with_reducible assumption
    | with_reducible intro _
    | with_reducible apply onDie_wf
    | with_reducible apply sweepPointEnd_wf
    | with_reducible apply ow_next
    | simp only [wf_mk]
    | with_reducible apply keeps_of
    | (extract_lets x; first | (refine wf_cut (Keep qk x = true) ?_ ?_; focus (subst x); rotate_left; focus (intro hx; generalize x = y at hx ⊢)) | skip)

theorem sweepTick_wf {qk : Kept} {s : State} {d : Die} {k : Nat} {i : Sensed} (h_s : Keep qk s = true) : Keep qk (sweepTick s d k i) = true := by
  unfold sweepTick
  repeat' first
    | with_reducible assumption
    | with_reducible intro _
    | with_reducible apply setDie_wf
    | with_reducible apply setFch_wf
    | with_reducible apply wf_forEach
    | with_reducible apply wf_ite
    | simp only [wf_mk]
    | with_reducible apply keeps_of
    | (extract_lets x; first | (refine wf_cut (Keep qk x = true) ?_ ?_; focus (subst x); rotate_left; focus (intro hx; generalize x = y at hx ⊢)) | skip)
    | split

theorem execDiagSweep_wf {qk : Kept} {d : Die} {m : CmdCopy} {s : State} (h_s : Keep qk s = true) : OW qk (execDiagSweep d m s) := by
  unfold execDiagSweep
  repeat' first
    | with_reducible assumption
    | with_reducible intro _
    | with_reducible apply setDie_wf
    | with_reducible apply fput_wf
    | with_reducible apply fbit_wf
    | with_reducible apply setFch_wf
    | with_reducible apply onCmd_wf
    | with_reducible apply wf_forEach
    | with_reducible apply ow_ite
    | with_reducible apply wf_ite
    | with_reducible apply pw_ite
    | with_reducible apply pw_mk
    | with_reducible apply ow_next
    | simp only [wf_mk]
    | with_reducible apply keeps_of
    | (extract_lets x; first | (refine wf_cut (Keep qk x = true) ?_ ?_; focus (subst x); rotate_left; focus (intro hx; generalize x = y at hx ⊢)) | skip)

theorem execDiagAbort_wf {qk : Kept} {d : Die} {m : CmdCopy} {s : State} (h_s : Keep qk s = true) : OW qk (execDiagAbort d m s) := by
  unfold execDiagAbort
  repeat' first
    | with_reducible assumption
    | with_reducible intro _
    | with_reducible apply onCmd_wf
    | with_reducible apply endSweeps_wf
    | with_reducible apply pw_ite
    | with_reducible apply pw_mk
    | with_reducible apply ow_next
    | simp only [wf_mk]
    | with_reducible apply keeps_of
    | (extract_lets x; first | (refine wf_cut (Keep qk x = true) ?_ ?_; focus (subst x); rotate_left; focus (intro hx; generalize x = y at hx ⊢)) | skip)

theorem tickChan_wf {qk : Kept} {s : State} {d : Die} {i : Sensed} {k c : Nat} (h_s : Keep qk s = true) : Keep qk (tickChan s d i k c) = true := by
  unfold tickChan
  repeat' first
    | with_reducible assumption
    | with_reducible intro _
    | with_reducible apply setFch_wf
    | with_reducible apply requantSample_wf
    | with_reducible apply checkDue_wf
    | refine protectSample_e (by with_reducible assumption) ?_
    | with_reducible apply protectSample_p
    | with_reducible apply protectSample_wf
    | with_reducible apply dcOutLatch_wf
    | with_reducible apply dcStreamLatch_wf
    | with_reducible apply observe_wf
    | with_reducible apply endCheck_wf
    | with_reducible apply lossDue_wf
    | refine playChan_e (by with_reducible assumption) ?_
    | with_reducible apply playChan_p
    | with_reducible apply playChan_wf
    | with_reducible apply digestChan_wf
    | with_reducible apply wf_ite
    | simp only [wf_mk]
    | with_reducible apply keeps_of
    | (extract_lets x; first | (refine wf_cut (Keep qk x = true) ?_ ?_; focus (subst x); rotate_left; focus (intro hx; generalize x = y at hx ⊢)) | skip)
    | split

theorem blockTick_wf {qk : Kept} {s : State} {d : Die} {k : Nat} (h_s : Keep qk s = true) : Keep qk (blockTick s d k) = true := by
  unfold blockTick
  repeat' first
    | with_reducible assumption
    | with_reducible intro _
    | with_reducible apply setDie_wf
    | with_reducible apply fwr_wf
    | with_reducible apply statusSend_wf
    | with_reducible apply wf_ite
    | simp only [wf_mk]
    | with_reducible apply keeps_of
    | (extract_lets x; first | (refine wf_cut (Keep qk x = true) ?_ ?_; focus (subst x); rotate_left; focus (intro hx; generalize x = y at hx ⊢)) | skip)

theorem tickDue_wf {qk : Kept} {s : State} {d : Die} (h_s : Keep qk s = true) : Keep qk (tickDue s d) = true := by
  unfold tickDue
  repeat' first
    | with_reducible assumption
    | with_reducible intro _
    | with_reducible apply hostLost_wf
    | with_reducible apply thermalStep_wf
    | with_reducible apply trimStep_wf
    | with_reducible apply pilotStep_wf
    | with_reducible apply tellSweeps_wf
    | with_reducible apply sweepPointEnd_wf
    | simp only [wf_mk]
    | with_reducible apply keeps_of
    | (extract_lets x; first | (refine wf_cut (Keep qk x = true) ?_ ?_; focus (subst x); rotate_left; focus (intro hx; generalize x = y at hx ⊢)) | skip)

theorem fieldTick_wf {qk : Kept} {s : State} {d : Die} {k : Nat} {bits : SenseIn} (h_s : Keep qk s = true) : Keep qk (fieldTick s d k bits) = true := by
  unfold fieldTick
  repeat' first
    | with_reducible assumption
    | with_reducible intro _
    | with_reducible apply setDie_wf
    | with_reducible apply setPeriod_wf
    | with_reducible apply applyStaged_wf
    | with_reducible apply railStep_wf
    | with_reducible apply takeSense_wf
    | with_reducible apply digestBlock_wf
    | with_reducible apply senseSend_wf
    | with_reducible apply latchCarries_wf
    | with_reducible apply sweepTick_wf
    | with_reducible apply tickChan_wf
    | with_reducible apply blockTick_wf
    | with_reducible apply tickDue_wf
    | with_reducible apply tick_wf
    | with_reducible apply wf_foldl
    | with_reducible apply wf_foldl1
    | with_reducible apply wf_ite
    | simp only [wf_mk]
    | with_reducible apply keeps_of
    | (extract_lets x; first | (refine wf_cut (Keep qk x = true) ?_ ?_; focus (subst x); rotate_left; focus (intro hx; generalize x = y at hx ⊢)) | skip)
    | dsimp -zeta only

theorem execFieldTick_wf {qk : Kept} {d : Die} {sense : SenseIn} {s : State} (h_s : Keep qk s = true) : OW qk (execFieldTick d sense s) := by
  unfold execFieldTick
  repeat' first
    | with_reducible assumption
    | with_reducible intro _
    | with_reducible apply onDie_wf
    | with_reducible apply fieldTick_wf
    | with_reducible apply tick_wf
    | with_reducible apply ow_ite
    | with_reducible apply wf_ite
    | with_reducible apply ow_next
    | simp only [wf_mk]
    | with_reducible apply keeps_of
    | (extract_lets x; first | (refine wf_cut (Keep qk x = true) ?_ ?_; focus (subst x); rotate_left; focus (intro hx; generalize x = y at hx ⊢)) | skip)
    | split

theorem execTwinSamples_wf {qk : Kept} {d : Die} {ws : List Nat} {s : State} (h_s : Keep qk s = true) : OW qk (execTwinSamples d ws s) := by
  unfold execTwinSamples
  repeat' first
    | with_reducible assumption
    | with_reducible intro _
    | with_reducible apply onTwin_wf
    | with_reducible apply takeSamples_wf
    | with_reducible apply ow_ite
    | with_reducible apply wf_ite
    | with_reducible apply ow_next
    | simp only [wf_mk]
    | with_reducible apply keeps_of
    | (extract_lets x; first | (refine wf_cut (Keep qk x = true) ?_ ?_; focus (subst x); rotate_left; focus (intro hx; generalize x = y at hx ⊢)) | skip)

theorem execTwinDigest_wf {qk : Kept} {d : Die} {ws : List Nat} {s : State} (h_s : Keep qk s = true) : OW qk (execTwinDigest d ws s) := by
  unfold execTwinDigest
  repeat' first
    | with_reducible assumption
    | with_reducible intro _
    | with_reducible apply setDie_wf
    | with_reducible apply onTwin_wf
    | with_reducible apply compareDigests_wf
    | with_reducible apply ow_ite
    | with_reducible apply wf_ite
    | with_reducible apply ow_next
    | simp only [wf_mk]
    | with_reducible apply keeps_of
    | (extract_lets x; first | (refine wf_cut (Keep qk x = true) ?_ ?_; focus (subst x); rotate_left; focus (intro hx; generalize x = y at hx ⊢)) | skip)

theorem execTwinStatus_wf {qk : Kept} {d : Die} {ws : List Nat} {s : State} (h_s : Keep qk s = true) : OW qk (execTwinStatus d ws s) := by
  unfold execTwinStatus
  repeat' first
    | with_reducible assumption
    | with_reducible intro _
    | with_reducible apply fbit_wf
    | with_reducible apply fldRaise_wf
    | with_reducible apply onTwin_wf
    | with_reducible apply conflictCheck_wf
    | with_reducible apply ow_ite
    | with_reducible apply wf_ite
    | with_reducible apply ow_next
    | simp only [wf_mk]
    | with_reducible apply keeps_of
    | (extract_lets x; first | (refine wf_cut (Keep qk x = true) ?_ ?_; focus (subst x); rotate_left; focus (intro hx; generalize x = y at hx ⊢)) | skip)

theorem execTwinStatusSend_wf {qk : Kept} {d : Die} {s : State} (h_s : Keep qk s = true) : OW qk (execTwinStatusSend d s) := by
  unfold execTwinStatusSend
  repeat' first
    | with_reducible assumption
    | with_reducible intro _
    | with_reducible apply twinStatusSend_wf
    | with_reducible apply onDie_wf
    | with_reducible apply ow_next
    | simp only [wf_mk]
    | with_reducible apply keeps_of
    | (extract_lets x; first | (refine wf_cut (Keep qk x = true) ?_ ?_; focus (subst x); rotate_left; focus (intro hx; generalize x = y at hx ⊢)) | skip)

theorem execTwinLinkTimeout_wf {qk : Kept} {d : Die} {s : State} (h_s : Keep qk s = true) : OW qk (execTwinLinkTimeout d s) := by
  unfold execTwinLinkTimeout
  repeat' first
    | with_reducible assumption
    | with_reducible intro _
    | with_reducible apply fbit_wf
    | with_reducible apply fldRaise_wf
    | with_reducible apply onDie_wf
    | with_reducible apply conflictCheck_wf
    | with_reducible apply ow_ite
    | with_reducible apply wf_ite
    | with_reducible apply ow_next
    | simp only [wf_mk]
    | with_reducible apply keeps_of
    | (extract_lets x; first | (refine wf_cut (Keep qk x = true) ?_ ?_; focus (subst x); rotate_left; focus (intro hx; generalize x = y at hx ⊢)) | skip)

end Sys2Proof.Machine
end

