-- ==== Sys2Proof/Laws/KeepsResets.lean ====
section
/-! SUPPORT. The operations of Machine/Resets.lean keep what `Keep` names. -/

namespace Sys2Proof.Machine
open Sys2Proof
set_option linter.all false
set_option simprocs false

theorem dropDescriptors_wf {qk : Kept} {s : State} (h_s : Keep qk s = true) : Keep qk (dropDescriptors s) = true := by
  unfold dropDescriptors
  repeat' first
    | with_reducible assumption
    | with_reducible intro _
    | with_reducible apply rclr_wf
    | with_reducible apply settleCredits_wf
    | with_reducible apply wf_ite
    | simp only [wf_mk]
    | with_reducible apply keeps_of
    | with_reducible apply keeps_regsRewrite
    | (extract_lets x; first | (refine wf_cut (Keep qk x = true) ?_ ?_; focus (subst x); rotate_left; focus (intro hx; generalize x = y at hx ⊢)) | skip)
    | dsimp -zeta only

theorem resetTallies_wf {qk : Kept} {s : State} (h_s : Keep qk s = true) : Keep qk (resetTallies s) = true := by
  unfold resetTallies
  repeat' first
    | with_reducible assumption
    | with_reducible intro _
    | with_reducible apply setTally_wf
    | with_reducible apply abortTally_wf
    | with_reducible apply wf_forEach
    | simp only [wf_mk]
    | with_reducible apply keeps_of
    | (extract_lets x; first | (refine wf_cut (Keep qk x = true) ?_ ?_; focus (subst x); rotate_left; focus (intro hx; generalize x = y at hx ⊢)) | skip)

theorem pendHeld_wf {qk : Kept} {s : State} (h_s : Keep qk s = true) : Keep qk (pendHeld s) = true := by
  unfold pendHeld
  repeat' first
    | with_reducible assumption
    | with_reducible intro _
    | with_reducible apply rput_wf
    | with_reducible apply wf_ite
    | simp only [wf_mk]
    | with_reducible apply keeps_of
    | (extract_lets x; first | (refine wf_cut (Keep qk x = true) ?_ ?_; focus (subst x); rotate_left; focus (intro hx; generalize x = y at hx ⊢)) | skip)

theorem endpointReset_wf {qk : Kept} {s : State} (h_s : Keep qk s = true) : Keep qk (endpointReset s) = true := by
  unfold endpointReset
  repeat' first
    | with_reducible assumption
    | with_reducible intro _
    | with_reducible apply resetRange_wf
    | with_reducible apply dropDescriptors_wf
    | with_reducible apply resetTallies_wf
    | simp only [wf_mk]
    | with_reducible apply keeps_of
    | (extract_lets x; first | (refine wf_cut (Keep qk x = true) ?_ ?_; focus (subst x); rotate_left; focus (intro hx; generalize x = y at hx ⊢)) | skip)

theorem execPerstN_wf {qk : Kept} {s : State} (h_s : Keep qk s = true) : OW qk (execPerstN s) := by
  unfold execPerstN
  repeat' first
    | with_reducible assumption
    | with_reducible intro _
    | with_reducible apply endpointReset_wf
    | with_reducible apply ow_ite
    | with_reducible apply wf_ite
    | with_reducible apply ow_next
    | simp only [wf_mk]
    | with_reducible apply keeps_of
    | (extract_lets x; first | (refine wf_cut (Keep qk x = true) ?_ ?_; focus (subst x); rotate_left; focus (intro hx; generalize x = y at hx ⊢)) | skip)

theorem execFunctionLevelReset_wf {qk : Kept} {s : State} (h_s : Keep qk s = true) : OW qk (execFunctionLevelReset s) := by
  unfold execFunctionLevelReset
  repeat' first
    | with_reducible assumption
    | with_reducible intro _
    | with_reducible apply pendHeld_wf
    | with_reducible apply endpointReset_wf
    | with_reducible apply ow_ite
    | with_reducible apply wf_ite
    | with_reducible apply ow_next
    | simp only [wf_mk]
    | with_reducible apply keeps_of
    | (extract_lets x; first | (refine wf_cut (Keep qk x = true) ?_ ?_; focus (subst x); rotate_left; focus (intro hx; generalize x = y at hx ⊢)) | skip)

theorem execPerstNRelease_wf {qk : Kept} {s : State} (h_s : Keep qk s = true) : OW qk (execPerstNRelease s) := by
  unfold execPerstNRelease
  repeat' first
    | with_reducible assumption
    | with_reducible intro _
    | with_reducible apply pendHeld_wf
    | with_reducible apply ow_ite
    | with_reducible apply wf_ite
    | with_reducible apply ow_next
    | simp only [wf_mk]
    | with_reducible apply keeps_of
    | (extract_lets x; first | (refine wf_cut (Keep qk x = true) ?_ ?_; focus (subst x); rotate_left; focus (intro hx; generalize x = y at hx ⊢)) | skip)

theorem execPcieLinkDown_wf {qk : Kept} {s : State} (h_s : Keep qk s = true) : OW qk (execPcieLinkDown s) := by
  unfold execPcieLinkDown
  repeat' first
    | with_reducible assumption
    | with_reducible intro _
    | with_reducible apply rclr_wf
    | with_reducible apply raise_wf
    | with_reducible apply ow_ite
    | with_reducible apply wf_ite
    | with_reducible apply ow_next
    | simp only [wf_mk]
    | with_reducible apply keeps_of
    | (extract_lets x; first | (refine wf_cut (Keep qk x = true) ?_ ?_; focus (subst x); rotate_left; focus (intro hx; generalize x = y at hx ⊢)) | skip)

theorem setControl_wf {qk : Kept} {s : State} {ctl : PcieControl} (h_s : Keep qk s = true) : Keep qk (setControl s ctl) = true := by
  unfold setControl
  repeat' first
    | with_reducible assumption
    | with_reducible intro _
    | with_reducible apply rbit_wf
    | with_reducible apply flushWrites_wf
    | simp only [wf_mk]
    | with_reducible apply keeps_of
    | (extract_lets x; first | (refine wf_cut (Keep qk x = true) ?_ ?_; focus (subst x); rotate_left; focus (intro hx; generalize x = y at hx ⊢)) | skip)

theorem execPcieLinkTrained_wf {qk : Kept} {speed : LinkSpeed} {width : LinkWidth} {ctl : PcieControl} {s : State} (h_s : Keep qk s = true) : OW qk (execPcieLinkTrained speed width ctl s) := by
  unfold execPcieLinkTrained
  repeat' first
    | with_reducible assumption
    | with_reducible intro _
    | with_reducible apply rput_wf
    | with_reducible apply msixPending_wf
    | with_reducible apply raise_wf
    | with_reducible apply setControl_wf
    | with_reducible apply wf_forEach
    | with_reducible apply ow_ite
    | with_reducible apply wf_ite
    | with_reducible apply ow_next
    | simp only [wf_mk]
    | with_reducible apply keeps_of
    | (extract_lets x; first | (refine wf_cut (Keep qk x = true) ?_ ?_; focus (subst x); rotate_left; focus (intro hx; generalize x = y at hx ⊢)) | skip)

theorem readStraps_wf {qk : Kept} {s : State} {stackId : Nat} (h_s : Keep qk s = true) : Keep qk (readStraps s stackId) = true := by
  unfold readStraps
  repeat' first
    | with_reducible assumption
    | with_reducible intro _
    | with_reducible apply rput_wf
    | simp only [wf_mk]
    | with_reducible apply keeps_of
    | (extract_lets x; first | (refine wf_cut (Keep qk x = true) ?_ ?_; focus (subst x); rotate_left; focus (intro hx; generalize x = y at hx ⊢)) | skip)

theorem restoreLog_wf {qk : Kept} {s : State} (h_s : Keep qk s = true) : Keep qk (restoreLog s) = true := by
  unfold restoreLog
  repeat' first
    | with_reducible assumption
    | with_reducible intro _
    | with_reducible apply rput_wf
    | with_reducible apply rbit_wf
    | simp only [wf_mk]
    | with_reducible apply keeps_of
    | (extract_lets x; first | (refine wf_cut (Keep qk x = true) ?_ ?_; focus (subst x); rotate_left; focus (intro hx; generalize x = y at hx ⊢)) | skip)

theorem reset_wf : Keep memKept State.reset = true := rfl
theorem keepOutside_wf {s t : State} (h_s : Keep memKept s = true) (h_t : Keep memKept t = true) : Keep memKept (keepOutside s t) = true := by
  have lasting := (keeps_iff.1 (keeps_of h_s)).1 rfl
  have lost := (keeps_iff.1 (keeps_of h_t)).1 rfl
  unfold keepOutside
  simp only [wf_mk]
  refine keeps_iff.2 ⟨fun _ => ?_, rfl⟩
  simp_all only [and_self]

theorem firstReadings_wf {qk : Kept} {s : State} (h_s : Keep qk s = true) : Keep qk (firstReadings s) = true := by
  unfold firstReadings
  repeat' first
    | with_reducible assumption
    | with_reducible intro _
    | with_reducible apply wr_wf
    | with_reducible apply rput_wf
    | refine takeFree_e (by with_reducible assumption) ?_
    | with_reducible apply takeFree_p
    | with_reducible apply takeFree_wf
    | simp only [wf_mk]
    | with_reducible apply keeps_of
    | (extract_lets x; first | (refine wf_cut (Keep qk x = true) ?_ ?_; focus (subst x); rotate_left; focus (intro hx; generalize x = y at hx ⊢)) | skip)
    | split

theorem powerOn_wf {s : State} {stackId : Nat} {recovLow : Bool} (h_s : Keep memKept s = true) : Keep memKept (powerOn s stackId recovLow) = true := by
  unfold powerOn
  repeat' first
    | with_reducible assumption
    | with_reducible intro _
    | refine takeFree_e (by with_reducible assumption) ?_
    | with_reducible apply takeFree_p
    | with_reducible apply takeFree_wf
    | with_reducible apply recordEvent_wf
    | with_reducible apply alignGrid_wf
    | with_reducible apply spoilWork_wf
    | with_reducible apply readStraps_wf
    | with_reducible apply restoreLog_wf
    | with_reducible apply keepOutside_wf
    | with_reducible apply firstReadings_wf
    | with_reducible apply wf_ite
    | with_reducible exact reset_wf
    | simp only [wf_mk]
    | with_reducible apply keeps_of
    | (extract_lets x; first | (refine wf_cut (Keep memKept x = true) ?_ ?_; focus (subst x); rotate_left; focus (intro hx; generalize x = y at hx ⊢)) | skip)
    | split

theorem execPowerOn_wf {stackId : Fin 8} {recovLow : Bool} {s : State} (h_s : Keep memKept s = true) : OW memKept (execPowerOn stackId recovLow s) := by
  unfold execPowerOn
  repeat' first
    | with_reducible assumption
    | with_reducible intro _
    | with_reducible apply powerOn_wf
    | with_reducible apply ow_next
    | simp only [wf_mk]
    | with_reducible apply keeps_of
    | (extract_lets x; first | (refine wf_cut (Keep memKept x = true) ?_ ?_; focus (subst x); rotate_left; focus (intro hx; generalize x = y at hx ⊢)) | skip)

theorem releaseBalls_wf {qk : Kept} {s : State} (h_s : Keep qk s = true) : Keep qk (releaseBalls s) = true := by
  unfold releaseBalls
  repeat' first
    | with_reducible assumption
    | with_reducible intro _
    | with_reducible apply sendOut_wf
    | with_reducible apply releaseSda_wf
    | with_reducible apply wf_forEach
    | with_reducible apply wf_ite
    | simp only [wf_mk]
    | with_reducible apply keeps_of
    | (extract_lets x; first | (refine wf_cut (Keep qk x = true) ?_ ?_; focus (subst x); rotate_left; focus (intro hx; generalize x = y at hx ⊢)) | skip)

theorem execPowerDown_wf {s : State} (h_s : Keep memKept s = true) : OW memKept (execPowerDown s) := by
  unfold execPowerDown
  repeat' first
    | with_reducible assumption
    | with_reducible intro _
    | with_reducible apply rset_wf
    | with_reducible apply spoilWork_wf
    | with_reducible apply keepOutside_wf
    | with_reducible apply releaseBalls_wf
    | with_reducible apply ow_ite
    | with_reducible apply wf_ite
    | with_reducible apply ow_next
    | exact reset_wf
    | simp only [wf_mk]
    | with_reducible apply keeps_of
    | (extract_lets x; first | (refine wf_cut (Keep memKept x = true) ?_ ?_; focus (subst x); rotate_left; focus (intro hx; generalize x = y at hx ⊢)) | skip)

theorem wf_regsOf {s t : State} {p : SMap Bool} {a : TimeState} {b : LoopState} {c : CollectorState} {e : RecorderState}
    {f : BootState} (h : Keep memKept s = true) (k : Keep memKept t = true) :
    Keep memKept { t with regs := s.regs, time := a, loop := b, dram := s.dram, poison := p, collector := c, recorder := e, boot := f } = true := by
  have x := (keeps_iff.1 (keeps_of h)).1 rfl
  have y := (keeps_iff.1 (keeps_of k)).1 rfl
  exact keeps_iff.2 ⟨fun _ => ⟨x.1, y.2.1, x.2.2.1, y.2.2.2⟩, rfl⟩
theorem hostDieReset_wf {s : State} {stackId : Nat} {recovLow : Bool} {cause : Nat} {selfTripped : Bool}
    (h_s : Keep memKept s = true) : Keep memKept (hostDieReset s stackId recovLow cause selfTripped) = true := by
  unfold hostDieReset
  extract_lets s0 kept s1 t1
  have h1 : Keep memKept s1 = true := rputI_wf (resetRegs_wf (spoilWork_wf (releaseBalls_wf h_s)))
  have h2 : Keep memKept t1 = true := keepOutside_wf h1 reset_wf
  refine refreshFaultN_wf (setBacklog_wf (recordEvent_wf (pendHeld_wf (alignGrid_wf (readStraps_wf (rbit_wf (firstReadings_wf ?_)))))))
  exact wf_regsOf h1 h2

theorem execRstN_wf {stackId : Fin 8} {recovLow : Bool} {s : State} (h_s : Keep memKept s = true) : OW memKept (execRstN stackId recovLow s) := by
  unfold execRstN
  repeat' first
    | with_reducible assumption
    | with_reducible intro _
    | with_reducible apply hostDieReset_wf
    | with_reducible apply ow_ite
    | with_reducible apply wf_ite
    | with_reducible apply ow_next
    | simp only [wf_mk]
    | with_reducible apply keeps_of
    | (extract_lets x; first | (refine wf_cut (Keep memKept x = true) ?_ ?_; focus (subst x); rotate_left; focus (intro hx; generalize x = y at hx ⊢)) | skip)

theorem execHostRailMonitor_wf {stackId : Fin 8} {recovLow : Bool} {s : State} (h_s : Keep memKept s = true) : OW memKept (execHostRailMonitor stackId recovLow s) := by
  unfold execHostRailMonitor
  repeat' first
    | with_reducible assumption
    | with_reducible intro _
    | with_reducible apply hostDieReset_wf
    | with_reducible apply ow_ite
    | with_reducible apply wf_ite
    | with_reducible apply ow_next
    | simp only [wf_mk]
    | with_reducible apply keeps_of
    | (extract_lets x; first | (refine wf_cut (Keep memKept x = true) ?_ ?_; focus (subst x); rotate_left; focus (intro hx; generalize x = y at hx ⊢)) | skip)

theorem execChipReset_wf {stackId : Fin 8} {recovLow : Bool} {s : State} (h_s : Keep memKept s = true) : OW memKept (execChipReset stackId recovLow s) := by
  unfold execChipReset
  repeat' first
    | with_reducible assumption
    | with_reducible intro _
    | with_reducible apply hostDieReset_wf
    | with_reducible apply ow_ite
    | with_reducible apply wf_ite
    | with_reducible apply ow_next
    | simp only [wf_mk]
    | with_reducible apply keeps_of
    | (extract_lets x; first | (refine wf_cut (Keep memKept x = true) ?_ ?_; focus (subst x); rotate_left; focus (intro hx; generalize x = y at hx ⊢)) | skip)
    | split

theorem execSelfTripReset_wf {stackId : Fin 8} {recovLow : Bool} {s : State} (h_s : Keep memKept s = true) : OW memKept (execSelfTripReset stackId recovLow s) := by
  unfold execSelfTripReset
  repeat' first
    | with_reducible assumption
    | with_reducible intro _
    | with_reducible apply resetRange_wf
    | with_reducible apply hostDieReset_wf
    | with_reducible apply ow_ite
    | with_reducible apply wf_ite
    | with_reducible apply ow_next
    | simp only [wf_mk]
    | with_reducible apply keeps_of
    | (extract_lets x; first | (refine wf_cut (Keep memKept x = true) ?_ ?_; focus (subst x); rotate_left; focus (intro hx; generalize x = y at hx ⊢)) | skip)

end Sys2Proof.Machine
end

