-- ==== Sys2Proof/Laws/KeepsStep.lean ====
section
/-! SUPPORT. The operations of Machine/Step.lean keep what `Keep` names. -/

namespace Sys2Proof.Machine
open Sys2Proof
set_option linter.all false
set_option simprocs false

theorem tick_wf {qk : Kept} {s : State} (h_s : Keep qk s = true) : Keep qk (tick s) = true := by
  unfold tick
  repeat' first
    | with_reducible assumption
    | with_reducible intro _
    | with_reducible apply rclr_wf
    | with_reducible apply wf_ite
    | simp only [wf_mk]
    | with_reducible apply keeps_of
    | (extract_lets x; first | (refine wf_cut (Keep qk x = true) ?_ ?_; focus (subst x); rotate_left; focus (intro hx; generalize x = y at hx ⊢)) | skip)

theorem State.withFetchWord_wf {qk : Kept} {s : State} {nbits w : Nat} (h_s : Keep qk s = true) : Keep qk (State.withFetchWord s nbits w) = true := by
  unfold State.withFetchWord
  repeat' first
    | with_reducible assumption
    | with_reducible intro _
    | simp only [wf_mk]
    | with_reducible apply keeps_of
    | (extract_lets x; first | (refine wf_cut (Keep qk x = true) ?_ ?_; focus (subst x); rotate_left; focus (intro hx; generalize x = y at hx ⊢)) | skip)
    | split

end Sys2Proof.Machine
end

