-- ==== Sys2Proof/Laws/Registers.lean ====
section
/-! SUPPORT. Reading a register or one of its fields after a register or a field was written. -/

namespace Sys2Proof.Machine
open Sys2Proof

theorem fldGet_testBit (f : Fld) (w : Word) (i : Nat) :
    (fldGet f w).testBit i = (decide (i < f.width) && w.getLsbD (f.lo + i)) := by
  rw [fldGet, Nat.testBit_mod_two_pow, Nat.testBit_shiftRight, BitVec.getLsbD]

theorem fldPut_getLsbD (f : Fld) (v : Nat) (w : Word) (i : Nat) (hi : i < 32) :
    (fldPut f v w).getLsbD i = if f.lo ≤ i ∧ i < f.lo + f.width then v.testBit (i - f.lo) else w.getLsbD i := by
  simp only [fldPut, BitVec.getLsbD_or, BitVec.getLsbD_and, BitVec.getLsbD_not, BitVec.getLsbD_ofNat, hi, decide_true,
    Bool.true_and, Nat.testBit_shiftLeft, Nat.testBit_two_pow_sub_one, Nat.testBit_mod_two_pow]
  by_cases h1 : f.lo ≤ i
  · by_cases h2 : i < f.lo + f.width
    · have h3 : i - f.lo < f.width := by omega
      simp [h1, h2, h3]
    · have h3 : ¬ i - f.lo < f.width := by omega
      simp [h1, h2, h3]
  · simp [h1]

/-- A field reads what was put into it. -/
theorem fldGet_fldPut_same {f : Fld} {v : Nat} {w : Word} (h : f.lo + f.width ≤ 32) :
    fldGet f (fldPut f v w) = v % 2 ^ f.width := by
  apply Nat.eq_of_testBit_eq
  intro i
  rw [fldGet_testBit, Nat.testBit_mod_two_pow]
  by_cases hi : i < f.width
  · rw [fldPut_getLsbD f v w (f.lo + i) (by omega), if_pos (by omega)]
    simp
  · simp [hi]

/-- A field reads what it read when another, apart from it, is written. -/
theorem fldGet_fldPut_other {f g : Fld} {v : Nat} {w : Word} (h : g.lo + g.width ≤ 32)
    (k : f.lo + f.width ≤ g.lo ∨ g.lo + g.width ≤ f.lo) : fldGet g (fldPut f v w) = fldGet g w := by
  apply Nat.eq_of_testBit_eq
  intro i
  rw [fldGet_testBit, fldGet_testBit]
  by_cases hi : i < g.width
  · rw [fldPut_getLsbD f v w (g.lo + i) (by omega), if_neg (by omega)]
  · simp [hi]

theorem wf_regs {s : State} (h : Memory.wf s = true) : mapWf hostReset s.regs = true := ((keeps_iff.mp (keep_mem.trans h)).1 rfl).1

/-- A register reads what was written to it. -/
theorem rd_wr_same {s : State} {a : Nat} {w : Word} (h : Memory.wf s = true) : rd (wr s a w) a = w :=
  mapGet_set_same (wf_regs h)

/-- A register reads what it read when another is written. -/
theorem rd_wr_other {s : State} {a b : Nat} {w : Word} (h : Memory.wf s = true) (n : b ≠ a) : rd (wr s a w) b = rd s b :=
  mapGet_set_other (wf_regs h) n

theorem rd_rput_other {s : State} {a b : Nat} {f : Fld} {v : Nat} (h : Memory.wf s = true) (n : b ≠ a) :
    rd (rput s a f v) b = rd s b := rd_wr_other h n

/-- A field of a register reads what was put into it. -/
theorem rget_rput_same {s : State} {a : Nat} {f : Fld} {v : Nat} (h : Memory.wf s = true) (k : f.lo + f.width ≤ 32) :
    rget (rput s a f v) a f = v % 2 ^ f.width := by
  rw [rget, rput, rd_wr_same h, fldGet_fldPut_same k]

/-- A field of the same register apart from the one written reads what it read. -/
theorem rget_rput_field {s : State} {a : Nat} {f g : Fld} {v : Nat} (h : Memory.wf s = true) (k : g.lo + g.width ≤ 32)
    (n : f.lo + f.width ≤ g.lo ∨ g.lo + g.width ≤ f.lo) : rget (rput s a f v) a g = rget s a g := by
  rw [rget, rput, rd_wr_same h, fldGet_fldPut_other k n, rget]

/-- A field of another register reads what it read. -/
theorem rget_rput_other {s : State} {a b : Nat} {f g : Fld} {v : Nat} (h : Memory.wf s = true) (n : b ≠ a) :
    rget (rput s a f v) b g = rget s b g := by
  rw [rget, rget, rd_rput_other h n]

theorem ron_rput_field {s : State} {a : Nat} {f g : Fld} {v : Nat} (h : Memory.wf s = true) (k : g.lo + g.width ≤ 32)
    (n : f.lo + f.width ≤ g.lo ∨ g.lo + g.width ≤ f.lo) : ron (rput s a f v) a g = ron s a g := by
  rw [ron, rget_rput_field h k n, ron]

theorem ron_rput_other {s : State} {a b : Nat} {f g : Fld} {v : Nat} (h : Memory.wf s = true) (n : b ≠ a) :
    ron (rput s a f v) b g = ron s b g := by
  rw [ron, rget_rput_other h n, ron]

theorem ron_rbit_same {s : State} {a : Nat} {f : Fld} {b : Bool} (h : Memory.wf s = true) (k : f.lo + f.width ≤ 32)
    (w : f.width ≠ 0) : ron (rbit s a f b) a f = b := by
  rw [ron, rbit, rget_rput_same h k]
  cases b with
  | false => simp [b2n]
  | true =>
    have : 2 ^ 1 ≤ 2 ^ f.width := Nat.pow_le_pow_right (by decide) (by omega)
    rw [b2n, if_pos rfl, Nat.mod_eq_of_lt (by omega)]
    rfl

theorem ron_rset_same {s : State} {a : Nat} {f : Fld} (h : Memory.wf s = true) (k : f.lo + f.width ≤ 32)
    (w : f.width ≠ 0) : ron (rset s a f) a f = true := ron_rbit_same (b := true) h k w

theorem ron_rclr_same {s : State} {a : Nat} {f : Fld} (h : Memory.wf s = true) (k : f.lo + f.width ≤ 32) :
    ron (rclr s a f) a f = false := by
  rw [ron, rclr, rget_rput_same h k]
  simp

end Sys2Proof.Machine
end

