-- ==== Sys2Proof/Laws/Rods.lean ====
section
/-! SUPPORT. What a rod's pipeline and the issue of a rod instruction do: one lemma for each, cited in place of the
definitions. -/

namespace Sys2Proof.Machine
open Sys2Proof Sys2Proof.Safety

theorem wf_rods {s : State} (h : Memory.wf s = true) : mapWf rodReset s.rods = true := by
  simp only [Memory.wf, mapsWf, Bool.and_eq_true] at h
  exact h.2

theorem rodAt_setRod_same {s : State} {g : Nat} {r : Rod} (h : mapWf rodReset s.rods = true) :
    rodAt (setRod s g r) g = r := mapGet_set_same h

theorem rodAt_setRod_other {s : State} {g k : Nat} {r : Rod} (h : mapWf rodReset s.rods = true) (n : k ≠ g) :
    rodAt (setRod s g r) k = rodAt s k := mapGet_set_other h n

theorem rods_setRod {s : State} {g : Nat} {r : Rod} (h : mapWf rodReset s.rods = true) :
    mapWf rodReset (setRod s g r).rods = true := mapWf_set h

theorem rods_frameSet (s : State) (f w : Nat) (v : Word) : (frameSet s f w v).rods = s.rods := by
  have r (u : State) (a : Nat) (x : Fld) : (rset u a x).rods = u.rods := rfl
  simp only [frameSet, apply_ite State.rods, r, ite_self]

/-- What the rest of rod `g` is while its results land: everything but its memories, its registers and its pipeline. -/
def sameRod (r r' : Rod) : Prop :=
  r'.p = r.p ∧ r'.n = r.n ∧ r'.pc = r.pc ∧ r'.slots = r.slots ∧ r'.target = r.target ∧ r'.depth = r.depth ∧
    r'.iter = r.iter ∧ r'.repeating = r.repeating ∧ r'.phase = r.phase ∧ r'.cyc = r.cyc

theorem sameRod_refl (r : Rod) : sameRod r r := by simp [sameRod]

/-- A result that takes effect changes no other rod, and of its own rod a register, an accumulator or a memory word. -/
theorem landWrite_rods {s : State} {g : Nat} {x : RodWrite} (h : mapWf rodReset s.rods = true) :
    mapWf rodReset (landWrite s g x).rods = true ∧ (∀ k, k ≠ g → rodAt (landWrite s g x) k = rodAt s k) ∧
      sameRod (rodAt s g) (rodAt (landWrite s g x) g) := by
  unfold landWrite
  dsimp only
  split
  case h_5 =>
    refine ⟨by rw [rods_frameSet]; exact h, fun k _ => by simp [rodAt, rods_frameSet], ?_⟩
    simp [rodAt, rods_frameSet, sameRod]
  all_goals
    refine ⟨rods_setRod h, fun k n => rodAt_setRod_other h n, ?_⟩
    rw [rodAt_setRod_same h]
    simp [sameRod]

theorem landAllOf_rods {g : Nat} : ∀ (ws : List RodWrite) {s : State}, mapWf rodReset s.rods = true →
    mapWf rodReset (forEach ws s (fun s x => landWrite s g x)).rods = true ∧
      (∀ k, k ≠ g → rodAt (forEach ws s (fun s x => landWrite s g x)) k = rodAt s k) ∧
      sameRod (rodAt s g) (rodAt (forEach ws s (fun s x => landWrite s g x)) g)
  | [], s, h => ⟨h, fun _ _ => rfl, sameRod_refl _⟩
  | w :: ws, s, h => by
    have a := landWrite_rods (g := g) (x := w) h
    have b := landAllOf_rods (g := g) ws a.1
    refine ⟨b.1, fun k n => (b.2.1 k n).trans (a.2.1 k n), ?_⟩
    have c := a.2.2
    have d := b.2.2
    simp only [sameRod] at c d ⊢
    simp only [forEach, List.foldl_cons] at d ⊢
    simp only [c, d, and_self]

/-- Letting results land changes no other rod, and of its own rod only registers, accumulators, memories and the
pipeline. -/
theorem landBefore_rods {s : State} {g t : Nat} (h : mapWf rodReset s.rods = true) :
    mapWf rodReset (landBefore s g t).rods = true ∧ (∀ k, k ≠ g → rodAt (landBefore s g t) k = rodAt s k) ∧
      sameRod (rodAt s g) (rodAt (landBefore s g t) g) ∧
      (rodAt (landBefore s g t) g).pend = (rodAt s g).pend.filter (fun x => decide (t ≤ x.land)) := by
  have a := landAllOf_rods (g := g) ((rodAt s g).pend.filter (fun x => decide (x.land < t))) h
  unfold landBefore
  dsimp only
  refine ⟨rods_setRod a.1, fun k n => (rodAt_setRod_other a.1 n).trans (a.2.1 k n), ?_, ?_⟩
  · rw [rodAt_setRod_same a.1]; exact a.2.2
  · rw [rodAt_setRod_same a.1]

theorem sameButBanks_refl (r : Rod) : sameButBanks r r := ⟨r.cyc, r.wants, rfl⟩

theorem sameButBanks_trans {a b c : Rod} (h : sameButBanks a b) (k : sameButBanks b c) : sameButBanks a c := by
  obtain ⟨_, _, rfl⟩ := h
  obtain ⟨n, w, rfl⟩ := k
  exact ⟨n, w, rfl⟩

/-- Rods at whose keys nothing but the bank accounts moved. -/
def banksOnly (s t : State) : Prop := mapWf rodReset t.rods = true ∧ ∀ k, sameButBanks (rodAt s k) (rodAt t k)

theorem banksOnly_of_rods {s t : State} (h : mapWf rodReset s.rods = true) (e : t.rods = s.rods) : banksOnly s t :=
  ⟨by rw [e]; exact h, fun k => by unfold rodAt; rw [e]; exact sameButBanks_refl _⟩

theorem banksOnly_setRod {s t : State} {g c : Nat} {w : List Nat} (h : banksOnly s t) :
    banksOnly s (setRod t g { rodAt t g with cyc := c, wants := w }) := by
  refine ⟨rods_setRod h.1, fun k => ?_⟩
  by_cases n : k = g
  · subst n
    rw [rodAt_setRod_same h.1]
    exact sameButBanks_trans (h.2 k) ⟨c, w, rfl⟩
  · rw [rodAt_setRod_other h.1 n]
    exact h.2 k

/-- A bank's grant moves only the accounts of the rod it serves. -/
theorem grantBank_rods {s : State} {f b t : Nat} (h : mapWf rodReset s.rods = true) : banksOnly s (grantBank s f b t) := by
  unfold grantBank
  have free : ∀ c : Prop, [Decidable c] → (if c then (let (v, u) := takeFree s 1; (v == 1, u)) else (false, s)).2.rods = s.rods := by
    intro c _
    split <;> rfl
  have e := free (portAsks s f b = true)
  revert e
  generalize (if portAsks s f b = true then _ else _ : Bool × State) = y
  obtain ⟨port, u⟩ := y
  intro e
  dsimp only at e ⊢
  split
  · exact banksOnly_of_rods h e
  · split
    · exact banksOnly_of_rods h e
    · exact banksOnly_setRod (t := { u with banks := _ }) (banksOnly_of_rods h e)

theorem settleBanks_rods {f : Nat} : ∀ {n : Nat} {s : State}, mapWf rodReset s.rods = true → banksOnly s (settleBanks f n s)
  | 0, s, h => banksOnly_of_rods h rfl
  | n + 1, s, h => by
    unfold settleBanks
    split
    · exact banksOnly_of_rods h rfl
    · rename_i b t _
      have a := grantBank_rods (f := f) (b := b) (t := t) h
      have c := settleBanks_rods (f := f) (n := n) a.1
      exact ⟨c.1, fun k => sameButBanks_trans (a.2 k) (c.2 k)⟩

/-- Counting an issue moves the other rods at most in their bank accounts, and of its own rod also the count. -/
theorem countIssue_rods {s : State} {g : Nat} {frame : List Nat} (h : mapWf rodReset s.rods = true) :
    mapWf rodReset (countIssue s g frame).rods = true ∧
      (∀ k, k ≠ g → sameButBanks (rodAt s k) (rodAt (countIssue s g frame) k)) ∧
      sameButBanks { rodAt s g with n := (rodAt s g).n + 1 } (rodAt (countIssue s g frame) g) := by
  have h1 : mapWf rodReset (setRod s g { rodAt s g with n := (rodAt s g).n + 1, cyc := (rodAt s g).cyc + 1, wants := frame }).rods = true :=
    rods_setRod h
  have a := settleBanks_rods (f := rodFrame g) (n := 64) h1
  refine ⟨a.1, fun k n => ?_, ?_⟩
  · have b := a.2 k
    rw [rodAt_setRod_other h n] at b
    exact b
  · have b := a.2 g
    rw [rodAt_setRod_same h] at b
    exact sameButBanks_trans ⟨_, _, rfl⟩ b

/-- An issue that meets no failure and whose control step answers `r'` puts its results in the pipeline of `r'` and is
counted. -/
theorem issue_clean {s : State} {g : Nat} {op : RodOp} {eff : RodEnv → RodResult} {control : Nat → Rod → Except Nat Rod}
    {r' : Rod} (h : clean s g op)
    (k : control (nextWord (rodAt (atIssue s g) g)) (rodAt (atIssue s g) g) = .ok r') :
    issue s g op eff control = issued s g op (eff (readsOf s g op)) r' := by
  obtain ⟨-, h2, h3, h4, h5⟩ := h
  have r0 : (restricted op && (decide ((rodAt (atIssue s g) g).slots ≠ 0) || (rodAt (atIssue s g) g).repeating ||
      inLoopTail (rodAt (atIssue s g) g))) = false := by
    cases hr : restricted op with
    | false => rfl
    | true => obtain ⟨a, b, c⟩ := h3 hr; simp [a, b, c]
  unfold atIssue at *
  unfold issue issued readsOf movesOf atIssue
  simp only [h2, r0, h4, h5, k, Bool.not_true, Bool.false_eq_true, if_false, Option.isSome_none]

/-- The answer of an ordinary instruction command under the same conditions. -/
theorem onIssue_clean {s : State} {g : Nat} {op : RodOp} {eff : RodEnv → RodResult} (h : clean s g op) :
    onIssue s g op eff = .next (ran s g op eff) := by
  rw [onIssue, onHost_live h.1, issue_clean h rfl]
  rfl

end Sys2Proof.Machine
end

