-- ==== Sys2Proof/Laws/State.lean ====
section
/-! SUPPORT. What each update of the state leaves as it was and what it sets: one lemma for each field and each update,
so that no proof unfolds a record update. -/

namespace Sys2Proof.Machine
open Sys2Proof

/-! ## Writing registers -/

@[simp] theorem wr_variant (s : State) (a : Nat) (w : Word) : (wr s a w).variant = s.variant := rfl
@[simp] theorem wr_powered (s : State) (a : Nat) (w : Word) : (wr s a w).powered = s.powered := rfl
@[simp] theorem wr_perstLow (s : State) (a : Nat) (w : Word) : (wr s a w).perstLow = s.perstLow := rfl
@[simp] theorem wr_pcieUp (s : State) (a : Nat) (w : Word) : (wr s a w).pcieUp = s.pcieUp := rfl
@[simp] theorem wr_pcie (s : State) (a : Nat) (w : Word) : (wr s a w).pcie = s.pcie := rfl
@[simp] theorem wr_time (s : State) (a : Nat) (w : Word) : (wr s a w).time = s.time := rfl
@[simp] theorem wr_grid (s : State) (a : Nat) (w : Word) : (wr s a w).grid = s.grid := rfl
@[simp] theorem wr_loop (s : State) (a : Nat) (w : Word) : (wr s a w).loop = s.loop := rfl
@[simp] theorem wr_collector (s : State) (a : Nat) (w : Word) : (wr s a w).collector = s.collector := rfl
@[simp] theorem wr_recorder (s : State) (a : Nat) (w : Word) : (wr s a w).recorder = s.recorder := rfl
@[simp] theorem wr_ports (s : State) (a : Nat) (w : Word) : (wr s a w).ports = s.ports := rfl
@[simp] theorem wr_gsram (s : State) (a : Nat) (w : Word) : (wr s a w).gsram = s.gsram := rfl
@[simp] theorem wr_dram (s : State) (a : Nat) (w : Word) : (wr s a w).dram = s.dram := rfl
@[simp] theorem wr_poison (s : State) (a : Nat) (w : Word) : (wr s a w).poison = s.poison := rfl
@[simp] theorem wr_beads (s : State) (a : Nat) (w : Word) : (wr s a w).beads = s.beads := rfl
@[simp] theorem wr_chans (s : State) (a : Nat) (w : Word) : (wr s a w).chans = s.chans := rfl
@[simp] theorem wr_rx (s : State) (a : Nat) (w : Word) : (wr s a w).rx = s.rx := rfl
@[simp] theorem wr_cs (s : State) (a : Nat) (w : Word) : (wr s a w).cs = s.cs := rfl
@[simp] theorem wr_tx (s : State) (a : Nat) (w : Word) : (wr s a w).tx = s.tx := rfl
@[simp] theorem wr_asrcLive (s : State) (a : Nat) (w : Word) : (wr s a w).asrcLive = s.asrcLive := rfl
@[simp] theorem wr_params (s : State) (a : Nat) (w : Word) : (wr s a w).params = s.params := rfl
@[simp] theorem wr_xps (s : State) (a : Nat) (w : Word) : (wr s a w).xps = s.xps := rfl
@[simp] theorem wr_buses (s : State) (a : Nat) (w : Word) : (wr s a w).buses = s.buses := rfl
@[simp] theorem wr_hpfs (s : State) (a : Nat) (w : Word) : (wr s a w).hpfs = s.hpfs := rfl
@[simp] theorem wr_peaks (s : State) (a : Nat) (w : Word) : (wr s a w).peaks = s.peaks := rfl
@[simp] theorem wr_routes (s : State) (a : Nat) (w : Word) : (wr s a w).routes = s.routes := rfl
@[simp] theorem wr_fades (s : State) (a : Nat) (w : Word) : (wr s a w).fades = s.fades := rfl
@[simp] theorem wr_routeWait (s : State) (a : Nat) (w : Word) : (wr s a w).routeWait = s.routeWait := rfl
@[simp] theorem wr_taps (s : State) (a : Nat) (w : Word) : (wr s a w).taps = s.taps := rfl
@[simp] theorem wr_lines (s : State) (a : Nat) (w : Word) : (wr s a w).lines = s.lines := rfl
@[simp] theorem wr_meters (s : State) (a : Nat) (w : Word) : (wr s a w).meters = s.meters := rfl
@[simp] theorem wr_meterIndex (s : State) (a : Nat) (w : Word) : (wr s a w).meterIndex = s.meterIndex := rfl
@[simp] theorem wr_meterClears (s : State) (a : Nat) (w : Word) : (wr s a w).meterClears = s.meterClears := rfl
@[simp] theorem wr_rods (s : State) (a : Nat) (w : Word) : (wr s a w).rods = s.rods := rfl
@[simp] theorem wr_frameMem (s : State) (a : Nat) (w : Word) : (wr s a w).frameMem = s.frameMem := rfl
@[simp] theorem wr_banks (s : State) (a : Nat) (w : Word) : (wr s a w).banks = s.banks := rfl
@[simp] theorem wr_loads (s : State) (a : Nat) (w : Word) : (wr s a w).loads = s.loads := rfl
@[simp] theorem wr_nets (s : State) (a : Nat) (w : Word) : (wr s a w).nets = s.nets := rfl
@[simp] theorem wr_posted (s : State) (a : Nat) (w : Word) : (wr s a w).posted = s.posted := rfl
@[simp] theorem wr_strRx (s : State) (a : Nat) (w : Word) : (wr s a w).strRx = s.strRx := rfl
@[simp] theorem wr_strTx (s : State) (a : Nat) (w : Word) : (wr s a w).strTx = s.strTx := rfl
@[simp] theorem wr_supplied (s : State) (a : Nat) (w : Word) : (wr s a w).supplied = s.supplied := rfl
@[simp] theorem wr_strClears (s : State) (a : Nat) (w : Word) : (wr s a w).strClears = s.strClears := rfl
@[simp] theorem wr_tallies (s : State) (a : Nat) (w : Word) : (wr s a w).tallies = s.tallies := rfl
@[simp] theorem wr_snap (s : State) (a : Nat) (w : Word) : (wr s a w).snap = s.snap := rfl
@[simp] theorem wr_barA (s : State) (a : Nat) (w : Word) : (wr s a w).barA = s.barA := rfl
@[simp] theorem wr_barB (s : State) (a : Nat) (w : Word) : (wr s a w).barB = s.barB := rfl
@[simp] theorem wr_dieA (s : State) (a : Nat) (w : Word) : (wr s a w).dieA = s.dieA := rfl
@[simp] theorem wr_dieB (s : State) (a : Nat) (w : Word) : (wr s a w).dieB = s.dieB := rfl
@[simp] theorem wr_chmapPrev (s : State) (a : Nat) (w : Word) : (wr s a w).chmapPrev = s.chmapPrev := rfl
@[simp] theorem wr_chmapPlay (s : State) (a : Nat) (w : Word) : (wr s a w).chmapPlay = s.chmapPlay := rfl
@[simp] theorem wr_stk (s : State) (a : Nat) (w : Word) : (wr s a w).stk = s.stk := rfl
@[simp] theorem wr_mgt (s : State) (a : Nat) (w : Word) : (wr s a w).mgt = s.mgt := rfl
@[simp] theorem wr_flash (s : State) (a : Nat) (w : Word) : (wr s a w).flash = s.flash := rfl
@[simp] theorem wr_boot (s : State) (a : Nat) (w : Word) : (wr s a w).boot = s.boot := rfl
@[simp] theorem wr_qps (s : State) (a : Nat) (w : Word) : (wr s a w).qps = s.qps := rfl
@[simp] theorem wr_diags (s : State) (a : Nat) (w : Word) : (wr s a w).diags = s.diags := rfl
@[simp] theorem wr_turns (s : State) (a : Nat) (w : Word) : (wr s a w).turns = s.turns := rfl
@[simp] theorem wr_doorbell (s : State) (a : Nat) (w : Word) : (wr s a w).doorbell = s.doorbell := rfl
@[simp] theorem wr_pageBad (s : State) (a : Nat) (w : Word) : (wr s a w).pageBad = s.pageBad := rfl
@[simp] theorem wr_hostMem (s : State) (a : Nat) (w : Word) : (wr s a w).hostMem = s.hostMem := rfl
@[simp] theorem wr_sent (s : State) (a : Nat) (w : Word) : (wr s a w).sent = s.sent := rfl
@[simp] theorem wr_pending (s : State) (a : Nat) (w : Word) : (wr s a w).pending = s.pending := rfl
@[simp] theorem wr_free (s : State) (a : Nat) (w : Word) : (wr s a w).free = s.free := rfl
@[simp] theorem wr_regs (s : State) (a : Nat) (w : Word) : (wr s a w).regs = mapSet hostReset s.regs a w := rfl
@[simp] theorem rput_variant (s : State) (a : Nat) (f : Fld) (v : Nat) : (rput s a f v).variant = s.variant := rfl
@[simp] theorem rput_powered (s : State) (a : Nat) (f : Fld) (v : Nat) : (rput s a f v).powered = s.powered := rfl
@[simp] theorem rput_perstLow (s : State) (a : Nat) (f : Fld) (v : Nat) : (rput s a f v).perstLow = s.perstLow := rfl
@[simp] theorem rput_pcieUp (s : State) (a : Nat) (f : Fld) (v : Nat) : (rput s a f v).pcieUp = s.pcieUp := rfl
@[simp] theorem rput_pcie (s : State) (a : Nat) (f : Fld) (v : Nat) : (rput s a f v).pcie = s.pcie := rfl
@[simp] theorem rput_time (s : State) (a : Nat) (f : Fld) (v : Nat) : (rput s a f v).time = s.time := rfl
@[simp] theorem rput_grid (s : State) (a : Nat) (f : Fld) (v : Nat) : (rput s a f v).grid = s.grid := rfl
@[simp] theorem rput_loop (s : State) (a : Nat) (f : Fld) (v : Nat) : (rput s a f v).loop = s.loop := rfl
@[simp] theorem rput_collector (s : State) (a : Nat) (f : Fld) (v : Nat) : (rput s a f v).collector = s.collector := rfl
@[simp] theorem rput_recorder (s : State) (a : Nat) (f : Fld) (v : Nat) : (rput s a f v).recorder = s.recorder := rfl
@[simp] theorem rput_ports (s : State) (a : Nat) (f : Fld) (v : Nat) : (rput s a f v).ports = s.ports := rfl
@[simp] theorem rput_gsram (s : State) (a : Nat) (f : Fld) (v : Nat) : (rput s a f v).gsram = s.gsram := rfl
@[simp] theorem rput_dram (s : State) (a : Nat) (f : Fld) (v : Nat) : (rput s a f v).dram = s.dram := rfl
@[simp] theorem rput_poison (s : State) (a : Nat) (f : Fld) (v : Nat) : (rput s a f v).poison = s.poison := rfl
@[simp] theorem rput_beads (s : State) (a : Nat) (f : Fld) (v : Nat) : (rput s a f v).beads = s.beads := rfl
@[simp] theorem rput_chans (s : State) (a : Nat) (f : Fld) (v : Nat) : (rput s a f v).chans = s.chans := rfl
@[simp] theorem rput_rx (s : State) (a : Nat) (f : Fld) (v : Nat) : (rput s a f v).rx = s.rx := rfl
@[simp] theorem rput_cs (s : State) (a : Nat) (f : Fld) (v : Nat) : (rput s a f v).cs = s.cs := rfl
@[simp] theorem rput_tx (s : State) (a : Nat) (f : Fld) (v : Nat) : (rput s a f v).tx = s.tx := rfl
@[simp] theorem rput_asrcLive (s : State) (a : Nat) (f : Fld) (v : Nat) : (rput s a f v).asrcLive = s.asrcLive := rfl
@[simp] theorem rput_params (s : State) (a : Nat) (f : Fld) (v : Nat) : (rput s a f v).params = s.params := rfl
@[simp] theorem rput_xps (s : State) (a : Nat) (f : Fld) (v : Nat) : (rput s a f v).xps = s.xps := rfl
@[simp] theorem rput_buses (s : State) (a : Nat) (f : Fld) (v : Nat) : (rput s a f v).buses = s.buses := rfl
@[simp] theorem rput_hpfs (s : State) (a : Nat) (f : Fld) (v : Nat) : (rput s a f v).hpfs = s.hpfs := rfl
@[simp] theorem rput_peaks (s : State) (a : Nat) (f : Fld) (v : Nat) : (rput s a f v).peaks = s.peaks := rfl
@[simp] theorem rput_routes (s : State) (a : Nat) (f : Fld) (v : Nat) : (rput s a f v).routes = s.routes := rfl
@[simp] theorem rput_fades (s : State) (a : Nat) (f : Fld) (v : Nat) : (rput s a f v).fades = s.fades := rfl
@[simp] theorem rput_routeWait (s : State) (a : Nat) (f : Fld) (v : Nat) : (rput s a f v).routeWait = s.routeWait := rfl
@[simp] theorem rput_taps (s : State) (a : Nat) (f : Fld) (v : Nat) : (rput s a f v).taps = s.taps := rfl
@[simp] theorem rput_lines (s : State) (a : Nat) (f : Fld) (v : Nat) : (rput s a f v).lines = s.lines := rfl
@[simp] theorem rput_meters (s : State) (a : Nat) (f : Fld) (v : Nat) : (rput s a f v).meters = s.meters := rfl
@[simp] theorem rput_meterIndex (s : State) (a : Nat) (f : Fld) (v : Nat) : (rput s a f v).meterIndex = s.meterIndex :=
  rfl
@[simp] theorem rput_meterClears (s : State) (a : Nat) (f : Fld) (v : Nat) : (rput s a f v).meterClears = s.meterClears :=
  rfl
@[simp] theorem rput_rods (s : State) (a : Nat) (f : Fld) (v : Nat) : (rput s a f v).rods = s.rods := rfl
@[simp] theorem rput_frameMem (s : State) (a : Nat) (f : Fld) (v : Nat) : (rput s a f v).frameMem = s.frameMem := rfl
@[simp] theorem rput_banks (s : State) (a : Nat) (f : Fld) (v : Nat) : (rput s a f v).banks = s.banks := rfl
@[simp] theorem rput_loads (s : State) (a : Nat) (f : Fld) (v : Nat) : (rput s a f v).loads = s.loads := rfl
@[simp] theorem rput_nets (s : State) (a : Nat) (f : Fld) (v : Nat) : (rput s a f v).nets = s.nets := rfl
@[simp] theorem rput_posted (s : State) (a : Nat) (f : Fld) (v : Nat) : (rput s a f v).posted = s.posted := rfl
@[simp] theorem rput_strRx (s : State) (a : Nat) (f : Fld) (v : Nat) : (rput s a f v).strRx = s.strRx := rfl
@[simp] theorem rput_strTx (s : State) (a : Nat) (f : Fld) (v : Nat) : (rput s a f v).strTx = s.strTx := rfl
@[simp] theorem rput_supplied (s : State) (a : Nat) (f : Fld) (v : Nat) : (rput s a f v).supplied = s.supplied := rfl
@[simp] theorem rput_strClears (s : State) (a : Nat) (f : Fld) (v : Nat) : (rput s a f v).strClears = s.strClears := rfl
@[simp] theorem rput_tallies (s : State) (a : Nat) (f : Fld) (v : Nat) : (rput s a f v).tallies = s.tallies := rfl
@[simp] theorem rput_snap (s : State) (a : Nat) (f : Fld) (v : Nat) : (rput s a f v).snap = s.snap := rfl
@[simp] theorem rput_barA (s : State) (a : Nat) (f : Fld) (v : Nat) : (rput s a f v).barA = s.barA := rfl
@[simp] theorem rput_barB (s : State) (a : Nat) (f : Fld) (v : Nat) : (rput s a f v).barB = s.barB := rfl
@[simp] theorem rput_dieA (s : State) (a : Nat) (f : Fld) (v : Nat) : (rput s a f v).dieA = s.dieA := rfl
@[simp] theorem rput_dieB (s : State) (a : Nat) (f : Fld) (v : Nat) : (rput s a f v).dieB = s.dieB := rfl
@[simp] theorem rput_chmapPrev (s : State) (a : Nat) (f : Fld) (v : Nat) : (rput s a f v).chmapPrev = s.chmapPrev := rfl
@[simp] theorem rput_chmapPlay (s : State) (a : Nat) (f : Fld) (v : Nat) : (rput s a f v).chmapPlay = s.chmapPlay := rfl
@[simp] theorem rput_stk (s : State) (a : Nat) (f : Fld) (v : Nat) : (rput s a f v).stk = s.stk := rfl
@[simp] theorem rput_mgt (s : State) (a : Nat) (f : Fld) (v : Nat) : (rput s a f v).mgt = s.mgt := rfl
@[simp] theorem rput_flash (s : State) (a : Nat) (f : Fld) (v : Nat) : (rput s a f v).flash = s.flash := rfl
@[simp] theorem rput_boot (s : State) (a : Nat) (f : Fld) (v : Nat) : (rput s a f v).boot = s.boot := rfl
@[simp] theorem rput_qps (s : State) (a : Nat) (f : Fld) (v : Nat) : (rput s a f v).qps = s.qps := rfl
@[simp] theorem rput_diags (s : State) (a : Nat) (f : Fld) (v : Nat) : (rput s a f v).diags = s.diags := rfl
@[simp] theorem rput_turns (s : State) (a : Nat) (f : Fld) (v : Nat) : (rput s a f v).turns = s.turns := rfl
@[simp] theorem rput_doorbell (s : State) (a : Nat) (f : Fld) (v : Nat) : (rput s a f v).doorbell = s.doorbell := rfl
@[simp] theorem rput_pageBad (s : State) (a : Nat) (f : Fld) (v : Nat) : (rput s a f v).pageBad = s.pageBad := rfl
@[simp] theorem rput_hostMem (s : State) (a : Nat) (f : Fld) (v : Nat) : (rput s a f v).hostMem = s.hostMem := rfl
@[simp] theorem rput_sent (s : State) (a : Nat) (f : Fld) (v : Nat) : (rput s a f v).sent = s.sent := rfl
@[simp] theorem rput_pending (s : State) (a : Nat) (f : Fld) (v : Nat) : (rput s a f v).pending = s.pending := rfl
@[simp] theorem rput_free (s : State) (a : Nat) (f : Fld) (v : Nat) : (rput s a f v).free = s.free := rfl
@[simp] theorem rputI_variant (s : State) (a : Nat) (f : Fld) (v : Int) : (rputI s a f v).variant = s.variant := rfl
@[simp] theorem rputI_powered (s : State) (a : Nat) (f : Fld) (v : Int) : (rputI s a f v).powered = s.powered := rfl
@[simp] theorem rputI_perstLow (s : State) (a : Nat) (f : Fld) (v : Int) : (rputI s a f v).perstLow = s.perstLow := rfl
@[simp] theorem rputI_pcieUp (s : State) (a : Nat) (f : Fld) (v : Int) : (rputI s a f v).pcieUp = s.pcieUp := rfl
@[simp] theorem rputI_pcie (s : State) (a : Nat) (f : Fld) (v : Int) : (rputI s a f v).pcie = s.pcie := rfl
@[simp] theorem rputI_time (s : State) (a : Nat) (f : Fld) (v : Int) : (rputI s a f v).time = s.time := rfl
@[simp] theorem rputI_grid (s : State) (a : Nat) (f : Fld) (v : Int) : (rputI s a f v).grid = s.grid := rfl
@[simp] theorem rputI_loop (s : State) (a : Nat) (f : Fld) (v : Int) : (rputI s a f v).loop = s.loop := rfl
@[simp] theorem rputI_collector (s : State) (a : Nat) (f : Fld) (v : Int) : (rputI s a f v).collector = s.collector :=
  rfl
@[simp] theorem rputI_recorder (s : State) (a : Nat) (f : Fld) (v : Int) : (rputI s a f v).recorder = s.recorder := rfl
@[simp] theorem rputI_ports (s : State) (a : Nat) (f : Fld) (v : Int) : (rputI s a f v).ports = s.ports := rfl
@[simp] theorem rputI_gsram (s : State) (a : Nat) (f : Fld) (v : Int) : (rputI s a f v).gsram = s.gsram := rfl
@[simp] theorem rputI_dram (s : State) (a : Nat) (f : Fld) (v : Int) : (rputI s a f v).dram = s.dram := rfl
@[simp] theorem rputI_poison (s : State) (a : Nat) (f : Fld) (v : Int) : (rputI s a f v).poison = s.poison := rfl
@[simp] theorem rputI_beads (s : State) (a : Nat) (f : Fld) (v : Int) : (rputI s a f v).beads = s.beads := rfl
@[simp] theorem rputI_chans (s : State) (a : Nat) (f : Fld) (v : Int) : (rputI s a f v).chans = s.chans := rfl
@[simp] theorem rputI_rx (s : State) (a : Nat) (f : Fld) (v : Int) : (rputI s a f v).rx = s.rx := rfl
@[simp] theorem rputI_cs (s : State) (a : Nat) (f : Fld) (v : Int) : (rputI s a f v).cs = s.cs := rfl
@[simp] theorem rputI_tx (s : State) (a : Nat) (f : Fld) (v : Int) : (rputI s a f v).tx = s.tx := rfl
@[simp] theorem rputI_asrcLive (s : State) (a : Nat) (f : Fld) (v : Int) : (rputI s a f v).asrcLive = s.asrcLive := rfl
@[simp] theorem rputI_params (s : State) (a : Nat) (f : Fld) (v : Int) : (rputI s a f v).params = s.params := rfl
@[simp] theorem rputI_xps (s : State) (a : Nat) (f : Fld) (v : Int) : (rputI s a f v).xps = s.xps := rfl
@[simp] theorem rputI_buses (s : State) (a : Nat) (f : Fld) (v : Int) : (rputI s a f v).buses = s.buses := rfl
@[simp] theorem rputI_hpfs (s : State) (a : Nat) (f : Fld) (v : Int) : (rputI s a f v).hpfs = s.hpfs := rfl
@[simp] theorem rputI_peaks (s : State) (a : Nat) (f : Fld) (v : Int) : (rputI s a f v).peaks = s.peaks := rfl
@[simp] theorem rputI_routes (s : State) (a : Nat) (f : Fld) (v : Int) : (rputI s a f v).routes = s.routes := rfl
@[simp] theorem rputI_fades (s : State) (a : Nat) (f : Fld) (v : Int) : (rputI s a f v).fades = s.fades := rfl
@[simp] theorem rputI_routeWait (s : State) (a : Nat) (f : Fld) (v : Int) : (rputI s a f v).routeWait = s.routeWait :=
  rfl
@[simp] theorem rputI_taps (s : State) (a : Nat) (f : Fld) (v : Int) : (rputI s a f v).taps = s.taps := rfl
@[simp] theorem rputI_lines (s : State) (a : Nat) (f : Fld) (v : Int) : (rputI s a f v).lines = s.lines := rfl
@[simp] theorem rputI_meters (s : State) (a : Nat) (f : Fld) (v : Int) : (rputI s a f v).meters = s.meters := rfl
@[simp] theorem rputI_meterIndex (s : State) (a : Nat) (f : Fld) (v : Int) : (rputI s a f v).meterIndex = s.meterIndex :=
  rfl
@[simp] theorem rputI_meterClears (s : State) (a : Nat) (f : Fld) (v : Int) : (rputI s a f v).meterClears = s.meterClears :=
  rfl
@[simp] theorem rputI_rods (s : State) (a : Nat) (f : Fld) (v : Int) : (rputI s a f v).rods = s.rods := rfl
@[simp] theorem rputI_frameMem (s : State) (a : Nat) (f : Fld) (v : Int) : (rputI s a f v).frameMem = s.frameMem := rfl
@[simp] theorem rputI_banks (s : State) (a : Nat) (f : Fld) (v : Int) : (rputI s a f v).banks = s.banks := rfl
@[simp] theorem rputI_loads (s : State) (a : Nat) (f : Fld) (v : Int) : (rputI s a f v).loads = s.loads := rfl
@[simp] theorem rputI_nets (s : State) (a : Nat) (f : Fld) (v : Int) : (rputI s a f v).nets = s.nets := rfl
@[simp] theorem rputI_posted (s : State) (a : Nat) (f : Fld) (v : Int) : (rputI s a f v).posted = s.posted := rfl
@[simp] theorem rputI_strRx (s : State) (a : Nat) (f : Fld) (v : Int) : (rputI s a f v).strRx = s.strRx := rfl
@[simp] theorem rputI_strTx (s : State) (a : Nat) (f : Fld) (v : Int) : (rputI s a f v).strTx = s.strTx := rfl
@[simp] theorem rputI_supplied (s : State) (a : Nat) (f : Fld) (v : Int) : (rputI s a f v).supplied = s.supplied := rfl
@[simp] theorem rputI_strClears (s : State) (a : Nat) (f : Fld) (v : Int) : (rputI s a f v).strClears = s.strClears :=
  rfl
@[simp] theorem rputI_tallies (s : State) (a : Nat) (f : Fld) (v : Int) : (rputI s a f v).tallies = s.tallies := rfl
@[simp] theorem rputI_snap (s : State) (a : Nat) (f : Fld) (v : Int) : (rputI s a f v).snap = s.snap := rfl
@[simp] theorem rputI_barA (s : State) (a : Nat) (f : Fld) (v : Int) : (rputI s a f v).barA = s.barA := rfl
@[simp] theorem rputI_barB (s : State) (a : Nat) (f : Fld) (v : Int) : (rputI s a f v).barB = s.barB := rfl
@[simp] theorem rputI_dieA (s : State) (a : Nat) (f : Fld) (v : Int) : (rputI s a f v).dieA = s.dieA := rfl
@[simp] theorem rputI_dieB (s : State) (a : Nat) (f : Fld) (v : Int) : (rputI s a f v).dieB = s.dieB := rfl
@[simp] theorem rputI_chmapPrev (s : State) (a : Nat) (f : Fld) (v : Int) : (rputI s a f v).chmapPrev = s.chmapPrev :=
  rfl
@[simp] theorem rputI_chmapPlay (s : State) (a : Nat) (f : Fld) (v : Int) : (rputI s a f v).chmapPlay = s.chmapPlay :=
  rfl
@[simp] theorem rputI_stk (s : State) (a : Nat) (f : Fld) (v : Int) : (rputI s a f v).stk = s.stk := rfl
@[simp] theorem rputI_mgt (s : State) (a : Nat) (f : Fld) (v : Int) : (rputI s a f v).mgt = s.mgt := rfl
@[simp] theorem rputI_flash (s : State) (a : Nat) (f : Fld) (v : Int) : (rputI s a f v).flash = s.flash := rfl
@[simp] theorem rputI_boot (s : State) (a : Nat) (f : Fld) (v : Int) : (rputI s a f v).boot = s.boot := rfl
@[simp] theorem rputI_qps (s : State) (a : Nat) (f : Fld) (v : Int) : (rputI s a f v).qps = s.qps := rfl
@[simp] theorem rputI_diags (s : State) (a : Nat) (f : Fld) (v : Int) : (rputI s a f v).diags = s.diags := rfl
@[simp] theorem rputI_turns (s : State) (a : Nat) (f : Fld) (v : Int) : (rputI s a f v).turns = s.turns := rfl
@[simp] theorem rputI_doorbell (s : State) (a : Nat) (f : Fld) (v : Int) : (rputI s a f v).doorbell = s.doorbell := rfl
@[simp] theorem rputI_pageBad (s : State) (a : Nat) (f : Fld) (v : Int) : (rputI s a f v).pageBad = s.pageBad := rfl
@[simp] theorem rputI_hostMem (s : State) (a : Nat) (f : Fld) (v : Int) : (rputI s a f v).hostMem = s.hostMem := rfl
@[simp] theorem rputI_sent (s : State) (a : Nat) (f : Fld) (v : Int) : (rputI s a f v).sent = s.sent := rfl
@[simp] theorem rputI_pending (s : State) (a : Nat) (f : Fld) (v : Int) : (rputI s a f v).pending = s.pending := rfl
@[simp] theorem rputI_free (s : State) (a : Nat) (f : Fld) (v : Int) : (rputI s a f v).free = s.free := rfl
@[simp] theorem rset_variant (s : State) (a : Nat) (f : Fld) : (rset s a f).variant = s.variant := rfl
@[simp] theorem rset_powered (s : State) (a : Nat) (f : Fld) : (rset s a f).powered = s.powered := rfl
@[simp] theorem rset_perstLow (s : State) (a : Nat) (f : Fld) : (rset s a f).perstLow = s.perstLow := rfl
@[simp] theorem rset_pcieUp (s : State) (a : Nat) (f : Fld) : (rset s a f).pcieUp = s.pcieUp := rfl
@[simp] theorem rset_pcie (s : State) (a : Nat) (f : Fld) : (rset s a f).pcie = s.pcie := rfl
@[simp] theorem rset_time (s : State) (a : Nat) (f : Fld) : (rset s a f).time = s.time := rfl
@[simp] theorem rset_grid (s : State) (a : Nat) (f : Fld) : (rset s a f).grid = s.grid := rfl
@[simp] theorem rset_loop (s : State) (a : Nat) (f : Fld) : (rset s a f).loop = s.loop := rfl
@[simp] theorem rset_collector (s : State) (a : Nat) (f : Fld) : (rset s a f).collector = s.collector := rfl
@[simp] theorem rset_recorder (s : State) (a : Nat) (f : Fld) : (rset s a f).recorder = s.recorder := rfl
@[simp] theorem rset_ports (s : State) (a : Nat) (f : Fld) : (rset s a f).ports = s.ports := rfl
@[simp] theorem rset_gsram (s : State) (a : Nat) (f : Fld) : (rset s a f).gsram = s.gsram := rfl
@[simp] theorem rset_dram (s : State) (a : Nat) (f : Fld) : (rset s a f).dram = s.dram := rfl
@[simp] theorem rset_poison (s : State) (a : Nat) (f : Fld) : (rset s a f).poison = s.poison := rfl
@[simp] theorem rset_beads (s : State) (a : Nat) (f : Fld) : (rset s a f).beads = s.beads := rfl
@[simp] theorem rset_chans (s : State) (a : Nat) (f : Fld) : (rset s a f).chans = s.chans := rfl
@[simp] theorem rset_rx (s : State) (a : Nat) (f : Fld) : (rset s a f).rx = s.rx := rfl
@[simp] theorem rset_cs (s : State) (a : Nat) (f : Fld) : (rset s a f).cs = s.cs := rfl
@[simp] theorem rset_tx (s : State) (a : Nat) (f : Fld) : (rset s a f).tx = s.tx := rfl
@[simp] theorem rset_asrcLive (s : State) (a : Nat) (f : Fld) : (rset s a f).asrcLive = s.asrcLive := rfl
@[simp] theorem rset_params (s : State) (a : Nat) (f : Fld) : (rset s a f).params = s.params := rfl
@[simp] theorem rset_xps (s : State) (a : Nat) (f : Fld) : (rset s a f).xps = s.xps := rfl
@[simp] theorem rset_buses (s : State) (a : Nat) (f : Fld) : (rset s a f).buses = s.buses := rfl
@[simp] theorem rset_hpfs (s : State) (a : Nat) (f : Fld) : (rset s a f).hpfs = s.hpfs := rfl
@[simp] theorem rset_peaks (s : State) (a : Nat) (f : Fld) : (rset s a f).peaks = s.peaks := rfl
@[simp] theorem rset_routes (s : State) (a : Nat) (f : Fld) : (rset s a f).routes = s.routes := rfl
@[simp] theorem rset_fades (s : State) (a : Nat) (f : Fld) : (rset s a f).fades = s.fades := rfl
@[simp] theorem rset_routeWait (s : State) (a : Nat) (f : Fld) : (rset s a f).routeWait = s.routeWait := rfl
@[simp] theorem rset_taps (s : State) (a : Nat) (f : Fld) : (rset s a f).taps = s.taps := rfl
@[simp] theorem rset_lines (s : State) (a : Nat) (f : Fld) : (rset s a f).lines = s.lines := rfl
@[simp] theorem rset_meters (s : State) (a : Nat) (f : Fld) : (rset s a f).meters = s.meters := rfl
@[simp] theorem rset_meterIndex (s : State) (a : Nat) (f : Fld) : (rset s a f).meterIndex = s.meterIndex := rfl
@[simp] theorem rset_meterClears (s : State) (a : Nat) (f : Fld) : (rset s a f).meterClears = s.meterClears := rfl
@[simp] theorem rset_rods (s : State) (a : Nat) (f : Fld) : (rset s a f).rods = s.rods := rfl
@[simp] theorem rset_frameMem (s : State) (a : Nat) (f : Fld) : (rset s a f).frameMem = s.frameMem := rfl
@[simp] theorem rset_banks (s : State) (a : Nat) (f : Fld) : (rset s a f).banks = s.banks := rfl
@[simp] theorem rset_loads (s : State) (a : Nat) (f : Fld) : (rset s a f).loads = s.loads := rfl
@[simp] theorem rset_nets (s : State) (a : Nat) (f : Fld) : (rset s a f).nets = s.nets := rfl
@[simp] theorem rset_posted (s : State) (a : Nat) (f : Fld) : (rset s a f).posted = s.posted := rfl
@[simp] theorem rset_strRx (s : State) (a : Nat) (f : Fld) : (rset s a f).strRx = s.strRx := rfl
@[simp] theorem rset_strTx (s : State) (a : Nat) (f : Fld) : (rset s a f).strTx = s.strTx := rfl
@[simp] theorem rset_supplied (s : State) (a : Nat) (f : Fld) : (rset s a f).supplied = s.supplied := rfl
@[simp] theorem rset_strClears (s : State) (a : Nat) (f : Fld) : (rset s a f).strClears = s.strClears := rfl
@[simp] theorem rset_tallies (s : State) (a : Nat) (f : Fld) : (rset s a f).tallies = s.tallies := rfl
@[simp] theorem rset_snap (s : State) (a : Nat) (f : Fld) : (rset s a f).snap = s.snap := rfl
@[simp] theorem rset_barA (s : State) (a : Nat) (f : Fld) : (rset s a f).barA = s.barA := rfl
@[simp] theorem rset_barB (s : State) (a : Nat) (f : Fld) : (rset s a f).barB = s.barB := rfl
@[simp] theorem rset_dieA (s : State) (a : Nat) (f : Fld) : (rset s a f).dieA = s.dieA := rfl
@[simp] theorem rset_dieB (s : State) (a : Nat) (f : Fld) : (rset s a f).dieB = s.dieB := rfl
@[simp] theorem rset_chmapPrev (s : State) (a : Nat) (f : Fld) : (rset s a f).chmapPrev = s.chmapPrev := rfl
@[simp] theorem rset_chmapPlay (s : State) (a : Nat) (f : Fld) : (rset s a f).chmapPlay = s.chmapPlay := rfl
@[simp] theorem rset_stk (s : State) (a : Nat) (f : Fld) : (rset s a f).stk = s.stk := rfl
@[simp] theorem rset_mgt (s : State) (a : Nat) (f : Fld) : (rset s a f).mgt = s.mgt := rfl
@[simp] theorem rset_flash (s : State) (a : Nat) (f : Fld) : (rset s a f).flash = s.flash := rfl
@[simp] theorem rset_boot (s : State) (a : Nat) (f : Fld) : (rset s a f).boot = s.boot := rfl
@[simp] theorem rset_qps (s : State) (a : Nat) (f : Fld) : (rset s a f).qps = s.qps := rfl
@[simp] theorem rset_diags (s : State) (a : Nat) (f : Fld) : (rset s a f).diags = s.diags := rfl
@[simp] theorem rset_turns (s : State) (a : Nat) (f : Fld) : (rset s a f).turns = s.turns := rfl
@[simp] theorem rset_doorbell (s : State) (a : Nat) (f : Fld) : (rset s a f).doorbell = s.doorbell := rfl
@[simp] theorem rset_pageBad (s : State) (a : Nat) (f : Fld) : (rset s a f).pageBad = s.pageBad := rfl
@[simp] theorem rset_hostMem (s : State) (a : Nat) (f : Fld) : (rset s a f).hostMem = s.hostMem := rfl
@[simp] theorem rset_sent (s : State) (a : Nat) (f : Fld) : (rset s a f).sent = s.sent := rfl
@[simp] theorem rset_pending (s : State) (a : Nat) (f : Fld) : (rset s a f).pending = s.pending := rfl
@[simp] theorem rset_free (s : State) (a : Nat) (f : Fld) : (rset s a f).free = s.free := rfl
@[simp] theorem rclr_variant (s : State) (a : Nat) (f : Fld) : (rclr s a f).variant = s.variant := rfl
@[simp] theorem rclr_powered (s : State) (a : Nat) (f : Fld) : (rclr s a f).powered = s.powered := rfl
@[simp] theorem rclr_perstLow (s : State) (a : Nat) (f : Fld) : (rclr s a f).perstLow = s.perstLow := rfl
@[simp] theorem rclr_pcieUp (s : State) (a : Nat) (f : Fld) : (rclr s a f).pcieUp = s.pcieUp := rfl
@[simp] theorem rclr_pcie (s : State) (a : Nat) (f : Fld) : (rclr s a f).pcie = s.pcie := rfl
@[simp] theorem rclr_time (s : State) (a : Nat) (f : Fld) : (rclr s a f).time = s.time := rfl
@[simp] theorem rclr_grid (s : State) (a : Nat) (f : Fld) : (rclr s a f).grid = s.grid := rfl
@[simp] theorem rclr_loop (s : State) (a : Nat) (f : Fld) : (rclr s a f).loop = s.loop := rfl
@[simp] theorem rclr_collector (s : State) (a : Nat) (f : Fld) : (rclr s a f).collector = s.collector := rfl
@[simp] theorem rclr_recorder (s : State) (a : Nat) (f : Fld) : (rclr s a f).recorder = s.recorder := rfl
@[simp] theorem rclr_ports (s : State) (a : Nat) (f : Fld) : (rclr s a f).ports = s.ports := rfl
@[simp] theorem rclr_gsram (s : State) (a : Nat) (f : Fld) : (rclr s a f).gsram = s.gsram := rfl
@[simp] theorem rclr_dram (s : State) (a : Nat) (f : Fld) : (rclr s a f).dram = s.dram := rfl
@[simp] theorem rclr_poison (s : State) (a : Nat) (f : Fld) : (rclr s a f).poison = s.poison := rfl
@[simp] theorem rclr_beads (s : State) (a : Nat) (f : Fld) : (rclr s a f).beads = s.beads := rfl
@[simp] theorem rclr_chans (s : State) (a : Nat) (f : Fld) : (rclr s a f).chans = s.chans := rfl
@[simp] theorem rclr_rx (s : State) (a : Nat) (f : Fld) : (rclr s a f).rx = s.rx := rfl
@[simp] theorem rclr_cs (s : State) (a : Nat) (f : Fld) : (rclr s a f).cs = s.cs := rfl
@[simp] theorem rclr_tx (s : State) (a : Nat) (f : Fld) : (rclr s a f).tx = s.tx := rfl
@[simp] theorem rclr_asrcLive (s : State) (a : Nat) (f : Fld) : (rclr s a f).asrcLive = s.asrcLive := rfl
@[simp] theorem rclr_params (s : State) (a : Nat) (f : Fld) : (rclr s a f).params = s.params := rfl
@[simp] theorem rclr_xps (s : State) (a : Nat) (f : Fld) : (rclr s a f).xps = s.xps := rfl
@[simp] theorem rclr_buses (s : State) (a : Nat) (f : Fld) : (rclr s a f).buses = s.buses := rfl
@[simp] theorem rclr_hpfs (s : State) (a : Nat) (f : Fld) : (rclr s a f).hpfs = s.hpfs := rfl
@[simp] theorem rclr_peaks (s : State) (a : Nat) (f : Fld) : (rclr s a f).peaks = s.peaks := rfl
@[simp] theorem rclr_routes (s : State) (a : Nat) (f : Fld) : (rclr s a f).routes = s.routes := rfl
@[simp] theorem rclr_fades (s : State) (a : Nat) (f : Fld) : (rclr s a f).fades = s.fades := rfl
@[simp] theorem rclr_routeWait (s : State) (a : Nat) (f : Fld) : (rclr s a f).routeWait = s.routeWait := rfl
@[simp] theorem rclr_taps (s : State) (a : Nat) (f : Fld) : (rclr s a f).taps = s.taps := rfl
@[simp] theorem rclr_lines (s : State) (a : Nat) (f : Fld) : (rclr s a f).lines = s.lines := rfl
@[simp] theorem rclr_meters (s : State) (a : Nat) (f : Fld) : (rclr s a f).meters = s.meters := rfl
@[simp] theorem rclr_meterIndex (s : State) (a : Nat) (f : Fld) : (rclr s a f).meterIndex = s.meterIndex := rfl
@[simp] theorem rclr_meterClears (s : State) (a : Nat) (f : Fld) : (rclr s a f).meterClears = s.meterClears := rfl
@[simp] theorem rclr_rods (s : State) (a : Nat) (f : Fld) : (rclr s a f).rods = s.rods := rfl
@[simp] theorem rclr_frameMem (s : State) (a : Nat) (f : Fld) : (rclr s a f).frameMem = s.frameMem := rfl
@[simp] theorem rclr_banks (s : State) (a : Nat) (f : Fld) : (rclr s a f).banks = s.banks := rfl
@[simp] theorem rclr_loads (s : State) (a : Nat) (f : Fld) : (rclr s a f).loads = s.loads := rfl
@[simp] theorem rclr_nets (s : State) (a : Nat) (f : Fld) : (rclr s a f).nets = s.nets := rfl
@[simp] theorem rclr_posted (s : State) (a : Nat) (f : Fld) : (rclr s a f).posted = s.posted := rfl
@[simp] theorem rclr_strRx (s : State) (a : Nat) (f : Fld) : (rclr s a f).strRx = s.strRx := rfl
@[simp] theorem rclr_strTx (s : State) (a : Nat) (f : Fld) : (rclr s a f).strTx = s.strTx := rfl
@[simp] theorem rclr_supplied (s : State) (a : Nat) (f : Fld) : (rclr s a f).supplied = s.supplied := rfl
@[simp] theorem rclr_strClears (s : State) (a : Nat) (f : Fld) : (rclr s a f).strClears = s.strClears := rfl
@[simp] theorem rclr_tallies (s : State) (a : Nat) (f : Fld) : (rclr s a f).tallies = s.tallies := rfl
@[simp] theorem rclr_snap (s : State) (a : Nat) (f : Fld) : (rclr s a f).snap = s.snap := rfl
@[simp] theorem rclr_barA (s : State) (a : Nat) (f : Fld) : (rclr s a f).barA = s.barA := rfl
@[simp] theorem rclr_barB (s : State) (a : Nat) (f : Fld) : (rclr s a f).barB = s.barB := rfl
@[simp] theorem rclr_dieA (s : State) (a : Nat) (f : Fld) : (rclr s a f).dieA = s.dieA := rfl
@[simp] theorem rclr_dieB (s : State) (a : Nat) (f : Fld) : (rclr s a f).dieB = s.dieB := rfl
@[simp] theorem rclr_chmapPrev (s : State) (a : Nat) (f : Fld) : (rclr s a f).chmapPrev = s.chmapPrev := rfl
@[simp] theorem rclr_chmapPlay (s : State) (a : Nat) (f : Fld) : (rclr s a f).chmapPlay = s.chmapPlay := rfl
@[simp] theorem rclr_stk (s : State) (a : Nat) (f : Fld) : (rclr s a f).stk = s.stk := rfl
@[simp] theorem rclr_mgt (s : State) (a : Nat) (f : Fld) : (rclr s a f).mgt = s.mgt := rfl
@[simp] theorem rclr_flash (s : State) (a : Nat) (f : Fld) : (rclr s a f).flash = s.flash := rfl
@[simp] theorem rclr_boot (s : State) (a : Nat) (f : Fld) : (rclr s a f).boot = s.boot := rfl
@[simp] theorem rclr_qps (s : State) (a : Nat) (f : Fld) : (rclr s a f).qps = s.qps := rfl
@[simp] theorem rclr_diags (s : State) (a : Nat) (f : Fld) : (rclr s a f).diags = s.diags := rfl
@[simp] theorem rclr_turns (s : State) (a : Nat) (f : Fld) : (rclr s a f).turns = s.turns := rfl
@[simp] theorem rclr_doorbell (s : State) (a : Nat) (f : Fld) : (rclr s a f).doorbell = s.doorbell := rfl
@[simp] theorem rclr_pageBad (s : State) (a : Nat) (f : Fld) : (rclr s a f).pageBad = s.pageBad := rfl
@[simp] theorem rclr_hostMem (s : State) (a : Nat) (f : Fld) : (rclr s a f).hostMem = s.hostMem := rfl
@[simp] theorem rclr_sent (s : State) (a : Nat) (f : Fld) : (rclr s a f).sent = s.sent := rfl
@[simp] theorem rclr_pending (s : State) (a : Nat) (f : Fld) : (rclr s a f).pending = s.pending := rfl
@[simp] theorem rclr_free (s : State) (a : Nat) (f : Fld) : (rclr s a f).free = s.free := rfl
@[simp] theorem rbit_variant (s : State) (a : Nat) (f : Fld) (b : Bool) : (rbit s a f b).variant = s.variant := rfl
@[simp] theorem rbit_powered (s : State) (a : Nat) (f : Fld) (b : Bool) : (rbit s a f b).powered = s.powered := rfl
@[simp] theorem rbit_perstLow (s : State) (a : Nat) (f : Fld) (b : Bool) : (rbit s a f b).perstLow = s.perstLow := rfl
@[simp] theorem rbit_pcieUp (s : State) (a : Nat) (f : Fld) (b : Bool) : (rbit s a f b).pcieUp = s.pcieUp := rfl
@[simp] theorem rbit_pcie (s : State) (a : Nat) (f : Fld) (b : Bool) : (rbit s a f b).pcie = s.pcie := rfl
@[simp] theorem rbit_time (s : State) (a : Nat) (f : Fld) (b : Bool) : (rbit s a f b).time = s.time := rfl
@[simp] theorem rbit_grid (s : State) (a : Nat) (f : Fld) (b : Bool) : (rbit s a f b).grid = s.grid := rfl
@[simp] theorem rbit_loop (s : State) (a : Nat) (f : Fld) (b : Bool) : (rbit s a f b).loop = s.loop := rfl
@[simp] theorem rbit_collector (s : State) (a : Nat) (f : Fld) (b : Bool) : (rbit s a f b).collector = s.collector :=
  rfl
@[simp] theorem rbit_recorder (s : State) (a : Nat) (f : Fld) (b : Bool) : (rbit s a f b).recorder = s.recorder := rfl
@[simp] theorem rbit_ports (s : State) (a : Nat) (f : Fld) (b : Bool) : (rbit s a f b).ports = s.ports := rfl
@[simp] theorem rbit_gsram (s : State) (a : Nat) (f : Fld) (b : Bool) : (rbit s a f b).gsram = s.gsram := rfl
@[simp] theorem rbit_dram (s : State) (a : Nat) (f : Fld) (b : Bool) : (rbit s a f b).dram = s.dram := rfl
@[simp] theorem rbit_poison (s : State) (a : Nat) (f : Fld) (b : Bool) : (rbit s a f b).poison = s.poison := rfl
@[simp] theorem rbit_beads (s : State) (a : Nat) (f : Fld) (b : Bool) : (rbit s a f b).beads = s.beads := rfl
@[simp] theorem rbit_chans (s : State) (a : Nat) (f : Fld) (b : Bool) : (rbit s a f b).chans = s.chans := rfl
@[simp] theorem rbit_rx (s : State) (a : Nat) (f : Fld) (b : Bool) : (rbit s a f b).rx = s.rx := rfl
@[simp] theorem rbit_cs (s : State) (a : Nat) (f : Fld) (b : Bool) : (rbit s a f b).cs = s.cs := rfl
@[simp] theorem rbit_tx (s : State) (a : Nat) (f : Fld) (b : Bool) : (rbit s a f b).tx = s.tx := rfl
@[simp] theorem rbit_asrcLive (s : State) (a : Nat) (f : Fld) (b : Bool) : (rbit s a f b).asrcLive = s.asrcLive := rfl
@[simp] theorem rbit_params (s : State) (a : Nat) (f : Fld) (b : Bool) : (rbit s a f b).params = s.params := rfl
@[simp] theorem rbit_xps (s : State) (a : Nat) (f : Fld) (b : Bool) : (rbit s a f b).xps = s.xps := rfl
@[simp] theorem rbit_buses (s : State) (a : Nat) (f : Fld) (b : Bool) : (rbit s a f b).buses = s.buses := rfl
@[simp] theorem rbit_hpfs (s : State) (a : Nat) (f : Fld) (b : Bool) : (rbit s a f b).hpfs = s.hpfs := rfl
@[simp] theorem rbit_peaks (s : State) (a : Nat) (f : Fld) (b : Bool) : (rbit s a f b).peaks = s.peaks := rfl
@[simp] theorem rbit_routes (s : State) (a : Nat) (f : Fld) (b : Bool) : (rbit s a f b).routes = s.routes := rfl
@[simp] theorem rbit_fades (s : State) (a : Nat) (f : Fld) (b : Bool) : (rbit s a f b).fades = s.fades := rfl
@[simp] theorem rbit_routeWait (s : State) (a : Nat) (f : Fld) (b : Bool) : (rbit s a f b).routeWait = s.routeWait :=
  rfl
@[simp] theorem rbit_taps (s : State) (a : Nat) (f : Fld) (b : Bool) : (rbit s a f b).taps = s.taps := rfl
@[simp] theorem rbit_lines (s : State) (a : Nat) (f : Fld) (b : Bool) : (rbit s a f b).lines = s.lines := rfl
@[simp] theorem rbit_meters (s : State) (a : Nat) (f : Fld) (b : Bool) : (rbit s a f b).meters = s.meters := rfl
@[simp] theorem rbit_meterIndex (s : State) (a : Nat) (f : Fld) (b : Bool) : (rbit s a f b).meterIndex = s.meterIndex :=
  rfl
@[simp] theorem rbit_meterClears (s : State) (a : Nat) (f : Fld) (b : Bool) : (rbit s a f b).meterClears = s.meterClears :=
  rfl
@[simp] theorem rbit_rods (s : State) (a : Nat) (f : Fld) (b : Bool) : (rbit s a f b).rods = s.rods := rfl
@[simp] theorem rbit_frameMem (s : State) (a : Nat) (f : Fld) (b : Bool) : (rbit s a f b).frameMem = s.frameMem := rfl
@[simp] theorem rbit_banks (s : State) (a : Nat) (f : Fld) (b : Bool) : (rbit s a f b).banks = s.banks := rfl
@[simp] theorem rbit_loads (s : State) (a : Nat) (f : Fld) (b : Bool) : (rbit s a f b).loads = s.loads := rfl
@[simp] theorem rbit_nets (s : State) (a : Nat) (f : Fld) (b : Bool) : (rbit s a f b).nets = s.nets := rfl
@[simp] theorem rbit_posted (s : State) (a : Nat) (f : Fld) (b : Bool) : (rbit s a f b).posted = s.posted := rfl
@[simp] theorem rbit_strRx (s : State) (a : Nat) (f : Fld) (b : Bool) : (rbit s a f b).strRx = s.strRx := rfl
@[simp] theorem rbit_strTx (s : State) (a : Nat) (f : Fld) (b : Bool) : (rbit s a f b).strTx = s.strTx := rfl
@[simp] theorem rbit_supplied (s : State) (a : Nat) (f : Fld) (b : Bool) : (rbit s a f b).supplied = s.supplied := rfl
@[simp] theorem rbit_strClears (s : State) (a : Nat) (f : Fld) (b : Bool) : (rbit s a f b).strClears = s.strClears :=
  rfl
@[simp] theorem rbit_tallies (s : State) (a : Nat) (f : Fld) (b : Bool) : (rbit s a f b).tallies = s.tallies := rfl
@[simp] theorem rbit_snap (s : State) (a : Nat) (f : Fld) (b : Bool) : (rbit s a f b).snap = s.snap := rfl
@[simp] theorem rbit_barA (s : State) (a : Nat) (f : Fld) (b : Bool) : (rbit s a f b).barA = s.barA := rfl
@[simp] theorem rbit_barB (s : State) (a : Nat) (f : Fld) (b : Bool) : (rbit s a f b).barB = s.barB := rfl
@[simp] theorem rbit_dieA (s : State) (a : Nat) (f : Fld) (b : Bool) : (rbit s a f b).dieA = s.dieA := rfl
@[simp] theorem rbit_dieB (s : State) (a : Nat) (f : Fld) (b : Bool) : (rbit s a f b).dieB = s.dieB := rfl
@[simp] theorem rbit_chmapPrev (s : State) (a : Nat) (f : Fld) (b : Bool) : (rbit s a f b).chmapPrev = s.chmapPrev :=
  rfl
@[simp] theorem rbit_chmapPlay (s : State) (a : Nat) (f : Fld) (b : Bool) : (rbit s a f b).chmapPlay = s.chmapPlay :=
  rfl
@[simp] theorem rbit_stk (s : State) (a : Nat) (f : Fld) (b : Bool) : (rbit s a f b).stk = s.stk := rfl
@[simp] theorem rbit_mgt (s : State) (a : Nat) (f : Fld) (b : Bool) : (rbit s a f b).mgt = s.mgt := rfl
@[simp] theorem rbit_flash (s : State) (a : Nat) (f : Fld) (b : Bool) : (rbit s a f b).flash = s.flash := rfl
@[simp] theorem rbit_boot (s : State) (a : Nat) (f : Fld) (b : Bool) : (rbit s a f b).boot = s.boot := rfl
@[simp] theorem rbit_qps (s : State) (a : Nat) (f : Fld) (b : Bool) : (rbit s a f b).qps = s.qps := rfl
@[simp] theorem rbit_diags (s : State) (a : Nat) (f : Fld) (b : Bool) : (rbit s a f b).diags = s.diags := rfl
@[simp] theorem rbit_turns (s : State) (a : Nat) (f : Fld) (b : Bool) : (rbit s a f b).turns = s.turns := rfl
@[simp] theorem rbit_doorbell (s : State) (a : Nat) (f : Fld) (b : Bool) : (rbit s a f b).doorbell = s.doorbell := rfl
@[simp] theorem rbit_pageBad (s : State) (a : Nat) (f : Fld) (b : Bool) : (rbit s a f b).pageBad = s.pageBad := rfl
@[simp] theorem rbit_hostMem (s : State) (a : Nat) (f : Fld) (b : Bool) : (rbit s a f b).hostMem = s.hostMem := rfl
@[simp] theorem rbit_sent (s : State) (a : Nat) (f : Fld) (b : Bool) : (rbit s a f b).sent = s.sent := rfl
@[simp] theorem rbit_pending (s : State) (a : Nat) (f : Fld) (b : Bool) : (rbit s a f b).pending = s.pending := rfl
@[simp] theorem rbit_free (s : State) (a : Nat) (f : Fld) (b : Bool) : (rbit s a f b).free = s.free := rfl
@[simp] theorem radd_variant (s : State) (a : Nat) (f : Fld) (n : Nat) : (radd s a f n).variant = s.variant := rfl
@[simp] theorem radd_powered (s : State) (a : Nat) (f : Fld) (n : Nat) : (radd s a f n).powered = s.powered := rfl
@[simp] theorem radd_perstLow (s : State) (a : Nat) (f : Fld) (n : Nat) : (radd s a f n).perstLow = s.perstLow := rfl
@[simp] theorem radd_pcieUp (s : State) (a : Nat) (f : Fld) (n : Nat) : (radd s a f n).pcieUp = s.pcieUp := rfl
@[simp] theorem radd_pcie (s : State) (a : Nat) (f : Fld) (n : Nat) : (radd s a f n).pcie = s.pcie := rfl
@[simp] theorem radd_time (s : State) (a : Nat) (f : Fld) (n : Nat) : (radd s a f n).time = s.time := rfl
@[simp] theorem radd_grid (s : State) (a : Nat) (f : Fld) (n : Nat) : (radd s a f n).grid = s.grid := rfl
@[simp] theorem radd_loop (s : State) (a : Nat) (f : Fld) (n : Nat) : (radd s a f n).loop = s.loop := rfl
@[simp] theorem radd_collector (s : State) (a : Nat) (f : Fld) (n : Nat) : (radd s a f n).collector = s.collector := rfl
@[simp] theorem radd_recorder (s : State) (a : Nat) (f : Fld) (n : Nat) : (radd s a f n).recorder = s.recorder := rfl
@[simp] theorem radd_ports (s : State) (a : Nat) (f : Fld) (n : Nat) : (radd s a f n).ports = s.ports := rfl
@[simp] theorem radd_gsram (s : State) (a : Nat) (f : Fld) (n : Nat) : (radd s a f n).gsram = s.gsram := rfl
@[simp] theorem radd_dram (s : State) (a : Nat) (f : Fld) (n : Nat) : (radd s a f n).dram = s.dram := rfl
@[simp] theorem radd_poison (s : State) (a : Nat) (f : Fld) (n : Nat) : (radd s a f n).poison = s.poison := rfl
@[simp] theorem radd_beads (s : State) (a : Nat) (f : Fld) (n : Nat) : (radd s a f n).beads = s.beads := rfl
@[simp] theorem radd_chans (s : State) (a : Nat) (f : Fld) (n : Nat) : (radd s a f n).chans = s.chans := rfl
@[simp] theorem radd_rx (s : State) (a : Nat) (f : Fld) (n : Nat) : (radd s a f n).rx = s.rx := rfl
@[simp] theorem radd_cs (s : State) (a : Nat) (f : Fld) (n : Nat) : (radd s a f n).cs = s.cs := rfl
@[simp] theorem radd_tx (s : State) (a : Nat) (f : Fld) (n : Nat) : (radd s a f n).tx = s.tx := rfl
@[simp] theorem radd_asrcLive (s : State) (a : Nat) (f : Fld) (n : Nat) : (radd s a f n).asrcLive = s.asrcLive := rfl
@[simp] theorem radd_params (s : State) (a : Nat) (f : Fld) (n : Nat) : (radd s a f n).params = s.params := rfl
@[simp] theorem radd_xps (s : State) (a : Nat) (f : Fld) (n : Nat) : (radd s a f n).xps = s.xps := rfl
@[simp] theorem radd_buses (s : State) (a : Nat) (f : Fld) (n : Nat) : (radd s a f n).buses = s.buses := rfl
@[simp] theorem radd_hpfs (s : State) (a : Nat) (f : Fld) (n : Nat) : (radd s a f n).hpfs = s.hpfs := rfl
@[simp] theorem radd_peaks (s : State) (a : Nat) (f : Fld) (n : Nat) : (radd s a f n).peaks = s.peaks := rfl
@[simp] theorem radd_routes (s : State) (a : Nat) (f : Fld) (n : Nat) : (radd s a f n).routes = s.routes := rfl
@[simp] theorem radd_fades (s : State) (a : Nat) (f : Fld) (n : Nat) : (radd s a f n).fades = s.fades := rfl
@[simp] theorem radd_routeWait (s : State) (a : Nat) (f : Fld) (n : Nat) : (radd s a f n).routeWait = s.routeWait := rfl
@[simp] theorem radd_taps (s : State) (a : Nat) (f : Fld) (n : Nat) : (radd s a f n).taps = s.taps := rfl
@[simp] theorem radd_lines (s : State) (a : Nat) (f : Fld) (n : Nat) : (radd s a f n).lines = s.lines := rfl
@[simp] theorem radd_meters (s : State) (a : Nat) (f : Fld) (n : Nat) : (radd s a f n).meters = s.meters := rfl
@[simp] theorem radd_meterIndex (s : State) (a : Nat) (f : Fld) (n : Nat) : (radd s a f n).meterIndex = s.meterIndex :=
  rfl
@[simp] theorem radd_meterClears (s : State) (a : Nat) (f : Fld) (n : Nat) : (radd s a f n).meterClears = s.meterClears :=
  rfl
@[simp] theorem radd_rods (s : State) (a : Nat) (f : Fld) (n : Nat) : (radd s a f n).rods = s.rods := rfl
@[simp] theorem radd_frameMem (s : State) (a : Nat) (f : Fld) (n : Nat) : (radd s a f n).frameMem = s.frameMem := rfl
@[simp] theorem radd_banks (s : State) (a : Nat) (f : Fld) (n : Nat) : (radd s a f n).banks = s.banks := rfl
@[simp] theorem radd_loads (s : State) (a : Nat) (f : Fld) (n : Nat) : (radd s a f n).loads = s.loads := rfl
@[simp] theorem radd_nets (s : State) (a : Nat) (f : Fld) (n : Nat) : (radd s a f n).nets = s.nets := rfl
@[simp] theorem radd_posted (s : State) (a : Nat) (f : Fld) (n : Nat) : (radd s a f n).posted = s.posted := rfl
@[simp] theorem radd_strRx (s : State) (a : Nat) (f : Fld) (n : Nat) : (radd s a f n).strRx = s.strRx := rfl
@[simp] theorem radd_strTx (s : State) (a : Nat) (f : Fld) (n : Nat) : (radd s a f n).strTx = s.strTx := rfl
@[simp] theorem radd_supplied (s : State) (a : Nat) (f : Fld) (n : Nat) : (radd s a f n).supplied = s.supplied := rfl
@[simp] theorem radd_strClears (s : State) (a : Nat) (f : Fld) (n : Nat) : (radd s a f n).strClears = s.strClears := rfl
@[simp] theorem radd_tallies (s : State) (a : Nat) (f : Fld) (n : Nat) : (radd s a f n).tallies = s.tallies := rfl
@[simp] theorem radd_snap (s : State) (a : Nat) (f : Fld) (n : Nat) : (radd s a f n).snap = s.snap := rfl
@[simp] theorem radd_barA (s : State) (a : Nat) (f : Fld) (n : Nat) : (radd s a f n).barA = s.barA := rfl
@[simp] theorem radd_barB (s : State) (a : Nat) (f : Fld) (n : Nat) : (radd s a f n).barB = s.barB := rfl
@[simp] theorem radd_dieA (s : State) (a : Nat) (f : Fld) (n : Nat) : (radd s a f n).dieA = s.dieA := rfl
@[simp] theorem radd_dieB (s : State) (a : Nat) (f : Fld) (n : Nat) : (radd s a f n).dieB = s.dieB := rfl
@[simp] theorem radd_chmapPrev (s : State) (a : Nat) (f : Fld) (n : Nat) : (radd s a f n).chmapPrev = s.chmapPrev := rfl
@[simp] theorem radd_chmapPlay (s : State) (a : Nat) (f : Fld) (n : Nat) : (radd s a f n).chmapPlay = s.chmapPlay := rfl
@[simp] theorem radd_stk (s : State) (a : Nat) (f : Fld) (n : Nat) : (radd s a f n).stk = s.stk := rfl
@[simp] theorem radd_mgt (s : State) (a : Nat) (f : Fld) (n : Nat) : (radd s a f n).mgt = s.mgt := rfl
@[simp] theorem radd_flash (s : State) (a : Nat) (f : Fld) (n : Nat) : (radd s a f n).flash = s.flash := rfl
@[simp] theorem radd_boot (s : State) (a : Nat) (f : Fld) (n : Nat) : (radd s a f n).boot = s.boot := rfl
@[simp] theorem radd_qps (s : State) (a : Nat) (f : Fld) (n : Nat) : (radd s a f n).qps = s.qps := rfl
@[simp] theorem radd_diags (s : State) (a : Nat) (f : Fld) (n : Nat) : (radd s a f n).diags = s.diags := rfl
@[simp] theorem radd_turns (s : State) (a : Nat) (f : Fld) (n : Nat) : (radd s a f n).turns = s.turns := rfl
@[simp] theorem radd_doorbell (s : State) (a : Nat) (f : Fld) (n : Nat) : (radd s a f n).doorbell = s.doorbell := rfl
@[simp] theorem radd_pageBad (s : State) (a : Nat) (f : Fld) (n : Nat) : (radd s a f n).pageBad = s.pageBad := rfl
@[simp] theorem radd_hostMem (s : State) (a : Nat) (f : Fld) (n : Nat) : (radd s a f n).hostMem = s.hostMem := rfl
@[simp] theorem radd_sent (s : State) (a : Nat) (f : Fld) (n : Nat) : (radd s a f n).sent = s.sent := rfl
@[simp] theorem radd_pending (s : State) (a : Nat) (f : Fld) (n : Nat) : (radd s a f n).pending = s.pending := rfl
@[simp] theorem radd_free (s : State) (a : Nat) (f : Fld) (n : Nat) : (radd s a f n).free = s.free := rfl
@[simp] theorem resetRange_variant (s : State) (lo hi : Nat) : (resetRange s lo hi).variant = s.variant := rfl
@[simp] theorem resetRange_powered (s : State) (lo hi : Nat) : (resetRange s lo hi).powered = s.powered := rfl
@[simp] theorem resetRange_perstLow (s : State) (lo hi : Nat) : (resetRange s lo hi).perstLow = s.perstLow := rfl
@[simp] theorem resetRange_pcieUp (s : State) (lo hi : Nat) : (resetRange s lo hi).pcieUp = s.pcieUp := rfl
@[simp] theorem resetRange_pcie (s : State) (lo hi : Nat) : (resetRange s lo hi).pcie = s.pcie := rfl
@[simp] theorem resetRange_time (s : State) (lo hi : Nat) : (resetRange s lo hi).time = s.time := rfl
@[simp] theorem resetRange_grid (s : State) (lo hi : Nat) : (resetRange s lo hi).grid = s.grid := rfl
@[simp] theorem resetRange_loop (s : State) (lo hi : Nat) : (resetRange s lo hi).loop = s.loop := rfl
@[simp] theorem resetRange_collector (s : State) (lo hi : Nat) : (resetRange s lo hi).collector = s.collector := rfl
@[simp] theorem resetRange_recorder (s : State) (lo hi : Nat) : (resetRange s lo hi).recorder = s.recorder := rfl
@[simp] theorem resetRange_ports (s : State) (lo hi : Nat) : (resetRange s lo hi).ports = s.ports := rfl
@[simp] theorem resetRange_gsram (s : State) (lo hi : Nat) : (resetRange s lo hi).gsram = s.gsram := rfl
@[simp] theorem resetRange_dram (s : State) (lo hi : Nat) : (resetRange s lo hi).dram = s.dram := rfl
@[simp] theorem resetRange_poison (s : State) (lo hi : Nat) : (resetRange s lo hi).poison = s.poison := rfl
@[simp] theorem resetRange_beads (s : State) (lo hi : Nat) : (resetRange s lo hi).beads = s.beads := rfl
@[simp] theorem resetRange_chans (s : State) (lo hi : Nat) : (resetRange s lo hi).chans = s.chans := rfl
@[simp] theorem resetRange_rx (s : State) (lo hi : Nat) : (resetRange s lo hi).rx = s.rx := rfl
@[simp] theorem resetRange_cs (s : State) (lo hi : Nat) : (resetRange s lo hi).cs = s.cs := rfl
@[simp] theorem resetRange_tx (s : State) (lo hi : Nat) : (resetRange s lo hi).tx = s.tx := rfl
@[simp] theorem resetRange_asrcLive (s : State) (lo hi : Nat) : (resetRange s lo hi).asrcLive = s.asrcLive := rfl
@[simp] theorem resetRange_params (s : State) (lo hi : Nat) : (resetRange s lo hi).params = s.params := rfl
@[simp] theorem resetRange_xps (s : State) (lo hi : Nat) : (resetRange s lo hi).xps = s.xps := rfl
@[simp] theorem resetRange_buses (s : State) (lo hi : Nat) : (resetRange s lo hi).buses = s.buses := rfl
@[simp] theorem resetRange_hpfs (s : State) (lo hi : Nat) : (resetRange s lo hi).hpfs = s.hpfs := rfl
@[simp] theorem resetRange_peaks (s : State) (lo hi : Nat) : (resetRange s lo hi).peaks = s.peaks := rfl
@[simp] theorem resetRange_routes (s : State) (lo hi : Nat) : (resetRange s lo hi).routes = s.routes := rfl
@[simp] theorem resetRange_fades (s : State) (lo hi : Nat) : (resetRange s lo hi).fades = s.fades := rfl
@[simp] theorem resetRange_routeWait (s : State) (lo hi : Nat) : (resetRange s lo hi).routeWait = s.routeWait := rfl
@[simp] theorem resetRange_taps (s : State) (lo hi : Nat) : (resetRange s lo hi).taps = s.taps := rfl
@[simp] theorem resetRange_lines (s : State) (lo hi : Nat) : (resetRange s lo hi).lines = s.lines := rfl
@[simp] theorem resetRange_meters (s : State) (lo hi : Nat) : (resetRange s lo hi).meters = s.meters := rfl
@[simp] theorem resetRange_meterIndex (s : State) (lo hi : Nat) : (resetRange s lo hi).meterIndex = s.meterIndex := rfl
@[simp] theorem resetRange_meterClears (s : State) (lo hi : Nat) : (resetRange s lo hi).meterClears = s.meterClears :=
  rfl
@[simp] theorem resetRange_rods (s : State) (lo hi : Nat) : (resetRange s lo hi).rods = s.rods := rfl
@[simp] theorem resetRange_frameMem (s : State) (lo hi : Nat) : (resetRange s lo hi).frameMem = s.frameMem := rfl
@[simp] theorem resetRange_banks (s : State) (lo hi : Nat) : (resetRange s lo hi).banks = s.banks := rfl
@[simp] theorem resetRange_loads (s : State) (lo hi : Nat) : (resetRange s lo hi).loads = s.loads := rfl
@[simp] theorem resetRange_nets (s : State) (lo hi : Nat) : (resetRange s lo hi).nets = s.nets := rfl
@[simp] theorem resetRange_posted (s : State) (lo hi : Nat) : (resetRange s lo hi).posted = s.posted := rfl
@[simp] theorem resetRange_strRx (s : State) (lo hi : Nat) : (resetRange s lo hi).strRx = s.strRx := rfl
@[simp] theorem resetRange_strTx (s : State) (lo hi : Nat) : (resetRange s lo hi).strTx = s.strTx := rfl
@[simp] theorem resetRange_supplied (s : State) (lo hi : Nat) : (resetRange s lo hi).supplied = s.supplied := rfl
@[simp] theorem resetRange_strClears (s : State) (lo hi : Nat) : (resetRange s lo hi).strClears = s.strClears := rfl
@[simp] theorem resetRange_tallies (s : State) (lo hi : Nat) : (resetRange s lo hi).tallies = s.tallies := rfl
@[simp] theorem resetRange_snap (s : State) (lo hi : Nat) : (resetRange s lo hi).snap = s.snap := rfl
@[simp] theorem resetRange_barA (s : State) (lo hi : Nat) : (resetRange s lo hi).barA = s.barA := rfl
@[simp] theorem resetRange_barB (s : State) (lo hi : Nat) : (resetRange s lo hi).barB = s.barB := rfl
@[simp] theorem resetRange_dieA (s : State) (lo hi : Nat) : (resetRange s lo hi).dieA = s.dieA := rfl
@[simp] theorem resetRange_dieB (s : State) (lo hi : Nat) : (resetRange s lo hi).dieB = s.dieB := rfl
@[simp] theorem resetRange_chmapPrev (s : State) (lo hi : Nat) : (resetRange s lo hi).chmapPrev = s.chmapPrev := rfl
@[simp] theorem resetRange_chmapPlay (s : State) (lo hi : Nat) : (resetRange s lo hi).chmapPlay = s.chmapPlay := rfl
@[simp] theorem resetRange_stk (s : State) (lo hi : Nat) : (resetRange s lo hi).stk = s.stk := rfl
@[simp] theorem resetRange_mgt (s : State) (lo hi : Nat) : (resetRange s lo hi).mgt = s.mgt := rfl
@[simp] theorem resetRange_flash (s : State) (lo hi : Nat) : (resetRange s lo hi).flash = s.flash := rfl
@[simp] theorem resetRange_boot (s : State) (lo hi : Nat) : (resetRange s lo hi).boot = s.boot := rfl
@[simp] theorem resetRange_qps (s : State) (lo hi : Nat) : (resetRange s lo hi).qps = s.qps := rfl
@[simp] theorem resetRange_diags (s : State) (lo hi : Nat) : (resetRange s lo hi).diags = s.diags := rfl
@[simp] theorem resetRange_turns (s : State) (lo hi : Nat) : (resetRange s lo hi).turns = s.turns := rfl
@[simp] theorem resetRange_doorbell (s : State) (lo hi : Nat) : (resetRange s lo hi).doorbell = s.doorbell := rfl
@[simp] theorem resetRange_pageBad (s : State) (lo hi : Nat) : (resetRange s lo hi).pageBad = s.pageBad := rfl
@[simp] theorem resetRange_hostMem (s : State) (lo hi : Nat) : (resetRange s lo hi).hostMem = s.hostMem := rfl
@[simp] theorem resetRange_sent (s : State) (lo hi : Nat) : (resetRange s lo hi).sent = s.sent := rfl
@[simp] theorem resetRange_pending (s : State) (lo hi : Nat) : (resetRange s lo hi).pending = s.pending := rfl
@[simp] theorem resetRange_free (s : State) (lo hi : Nat) : (resetRange s lo hi).free = s.free := rfl

/-! ## Replacing an entry of a map, or a part -/

@[simp] theorem setRod_variant (s : State) (g : Nat) (r : Rod) : (setRod s g r).variant = s.variant := rfl
@[simp] theorem setRod_powered (s : State) (g : Nat) (r : Rod) : (setRod s g r).powered = s.powered := rfl
@[simp] theorem setRod_perstLow (s : State) (g : Nat) (r : Rod) : (setRod s g r).perstLow = s.perstLow := rfl
@[simp] theorem setRod_pcieUp (s : State) (g : Nat) (r : Rod) : (setRod s g r).pcieUp = s.pcieUp := rfl
@[simp] theorem setRod_pcie (s : State) (g : Nat) (r : Rod) : (setRod s g r).pcie = s.pcie := rfl
@[simp] theorem setRod_regs (s : State) (g : Nat) (r : Rod) : (setRod s g r).regs = s.regs := rfl
@[simp] theorem setRod_time (s : State) (g : Nat) (r : Rod) : (setRod s g r).time = s.time := rfl
@[simp] theorem setRod_grid (s : State) (g : Nat) (r : Rod) : (setRod s g r).grid = s.grid := rfl
@[simp] theorem setRod_loop (s : State) (g : Nat) (r : Rod) : (setRod s g r).loop = s.loop := rfl
@[simp] theorem setRod_collector (s : State) (g : Nat) (r : Rod) : (setRod s g r).collector = s.collector := rfl
@[simp] theorem setRod_recorder (s : State) (g : Nat) (r : Rod) : (setRod s g r).recorder = s.recorder := rfl
@[simp] theorem setRod_ports (s : State) (g : Nat) (r : Rod) : (setRod s g r).ports = s.ports := rfl
@[simp] theorem setRod_gsram (s : State) (g : Nat) (r : Rod) : (setRod s g r).gsram = s.gsram := rfl
@[simp] theorem setRod_dram (s : State) (g : Nat) (r : Rod) : (setRod s g r).dram = s.dram := rfl
@[simp] theorem setRod_poison (s : State) (g : Nat) (r : Rod) : (setRod s g r).poison = s.poison := rfl
@[simp] theorem setRod_beads (s : State) (g : Nat) (r : Rod) : (setRod s g r).beads = s.beads := rfl
@[simp] theorem setRod_chans (s : State) (g : Nat) (r : Rod) : (setRod s g r).chans = s.chans := rfl
@[simp] theorem setRod_rx (s : State) (g : Nat) (r : Rod) : (setRod s g r).rx = s.rx := rfl
@[simp] theorem setRod_cs (s : State) (g : Nat) (r : Rod) : (setRod s g r).cs = s.cs := rfl
@[simp] theorem setRod_tx (s : State) (g : Nat) (r : Rod) : (setRod s g r).tx = s.tx := rfl
@[simp] theorem setRod_asrcLive (s : State) (g : Nat) (r : Rod) : (setRod s g r).asrcLive = s.asrcLive := rfl
@[simp] theorem setRod_params (s : State) (g : Nat) (r : Rod) : (setRod s g r).params = s.params := rfl
@[simp] theorem setRod_xps (s : State) (g : Nat) (r : Rod) : (setRod s g r).xps = s.xps := rfl
@[simp] theorem setRod_buses (s : State) (g : Nat) (r : Rod) : (setRod s g r).buses = s.buses := rfl
@[simp] theorem setRod_hpfs (s : State) (g : Nat) (r : Rod) : (setRod s g r).hpfs = s.hpfs := rfl
@[simp] theorem setRod_peaks (s : State) (g : Nat) (r : Rod) : (setRod s g r).peaks = s.peaks := rfl
@[simp] theorem setRod_routes (s : State) (g : Nat) (r : Rod) : (setRod s g r).routes = s.routes := rfl
@[simp] theorem setRod_fades (s : State) (g : Nat) (r : Rod) : (setRod s g r).fades = s.fades := rfl
@[simp] theorem setRod_routeWait (s : State) (g : Nat) (r : Rod) : (setRod s g r).routeWait = s.routeWait := rfl
@[simp] theorem setRod_taps (s : State) (g : Nat) (r : Rod) : (setRod s g r).taps = s.taps := rfl
@[simp] theorem setRod_lines (s : State) (g : Nat) (r : Rod) : (setRod s g r).lines = s.lines := rfl
@[simp] theorem setRod_meters (s : State) (g : Nat) (r : Rod) : (setRod s g r).meters = s.meters := rfl
@[simp] theorem setRod_meterIndex (s : State) (g : Nat) (r : Rod) : (setRod s g r).meterIndex = s.meterIndex := rfl
@[simp] theorem setRod_meterClears (s : State) (g : Nat) (r : Rod) : (setRod s g r).meterClears = s.meterClears := rfl
@[simp] theorem setRod_frameMem (s : State) (g : Nat) (r : Rod) : (setRod s g r).frameMem = s.frameMem := rfl
@[simp] theorem setRod_banks (s : State) (g : Nat) (r : Rod) : (setRod s g r).banks = s.banks := rfl
@[simp] theorem setRod_loads (s : State) (g : Nat) (r : Rod) : (setRod s g r).loads = s.loads := rfl
@[simp] theorem setRod_nets (s : State) (g : Nat) (r : Rod) : (setRod s g r).nets = s.nets := rfl
@[simp] theorem setRod_posted (s : State) (g : Nat) (r : Rod) : (setRod s g r).posted = s.posted := rfl
@[simp] theorem setRod_strRx (s : State) (g : Nat) (r : Rod) : (setRod s g r).strRx = s.strRx := rfl
@[simp] theorem setRod_strTx (s : State) (g : Nat) (r : Rod) : (setRod s g r).strTx = s.strTx := rfl
@[simp] theorem setRod_supplied (s : State) (g : Nat) (r : Rod) : (setRod s g r).supplied = s.supplied := rfl
@[simp] theorem setRod_strClears (s : State) (g : Nat) (r : Rod) : (setRod s g r).strClears = s.strClears := rfl
@[simp] theorem setRod_tallies (s : State) (g : Nat) (r : Rod) : (setRod s g r).tallies = s.tallies := rfl
@[simp] theorem setRod_snap (s : State) (g : Nat) (r : Rod) : (setRod s g r).snap = s.snap := rfl
@[simp] theorem setRod_barA (s : State) (g : Nat) (r : Rod) : (setRod s g r).barA = s.barA := rfl
@[simp] theorem setRod_barB (s : State) (g : Nat) (r : Rod) : (setRod s g r).barB = s.barB := rfl
@[simp] theorem setRod_dieA (s : State) (g : Nat) (r : Rod) : (setRod s g r).dieA = s.dieA := rfl
@[simp] theorem setRod_dieB (s : State) (g : Nat) (r : Rod) : (setRod s g r).dieB = s.dieB := rfl
@[simp] theorem setRod_chmapPrev (s : State) (g : Nat) (r : Rod) : (setRod s g r).chmapPrev = s.chmapPrev := rfl
@[simp] theorem setRod_chmapPlay (s : State) (g : Nat) (r : Rod) : (setRod s g r).chmapPlay = s.chmapPlay := rfl
@[simp] theorem setRod_stk (s : State) (g : Nat) (r : Rod) : (setRod s g r).stk = s.stk := rfl
@[simp] theorem setRod_mgt (s : State) (g : Nat) (r : Rod) : (setRod s g r).mgt = s.mgt := rfl
@[simp] theorem setRod_flash (s : State) (g : Nat) (r : Rod) : (setRod s g r).flash = s.flash := rfl
@[simp] theorem setRod_boot (s : State) (g : Nat) (r : Rod) : (setRod s g r).boot = s.boot := rfl
@[simp] theorem setRod_qps (s : State) (g : Nat) (r : Rod) : (setRod s g r).qps = s.qps := rfl
@[simp] theorem setRod_diags (s : State) (g : Nat) (r : Rod) : (setRod s g r).diags = s.diags := rfl
@[simp] theorem setRod_turns (s : State) (g : Nat) (r : Rod) : (setRod s g r).turns = s.turns := rfl
@[simp] theorem setRod_doorbell (s : State) (g : Nat) (r : Rod) : (setRod s g r).doorbell = s.doorbell := rfl
@[simp] theorem setRod_pageBad (s : State) (g : Nat) (r : Rod) : (setRod s g r).pageBad = s.pageBad := rfl
@[simp] theorem setRod_hostMem (s : State) (g : Nat) (r : Rod) : (setRod s g r).hostMem = s.hostMem := rfl
@[simp] theorem setRod_sent (s : State) (g : Nat) (r : Rod) : (setRod s g r).sent = s.sent := rfl
@[simp] theorem setRod_pending (s : State) (g : Nat) (r : Rod) : (setRod s g r).pending = s.pending := rfl
@[simp] theorem setRod_free (s : State) (g : Nat) (r : Rod) : (setRod s g r).free = s.free := rfl
@[simp] theorem setRod_rods (s : State) (g : Nat) (r : Rod) : (setRod s g r).rods = mapSet rodReset s.rods g r := rfl
@[simp] theorem setPort_variant (s : State) (t : Nat) (p : PortState) : (setPort s t p).variant = s.variant := rfl
@[simp] theorem setPort_powered (s : State) (t : Nat) (p : PortState) : (setPort s t p).powered = s.powered := rfl
@[simp] theorem setPort_perstLow (s : State) (t : Nat) (p : PortState) : (setPort s t p).perstLow = s.perstLow := rfl
@[simp] theorem setPort_pcieUp (s : State) (t : Nat) (p : PortState) : (setPort s t p).pcieUp = s.pcieUp := rfl
@[simp] theorem setPort_pcie (s : State) (t : Nat) (p : PortState) : (setPort s t p).pcie = s.pcie := rfl
@[simp] theorem setPort_regs (s : State) (t : Nat) (p : PortState) : (setPort s t p).regs = s.regs := rfl
@[simp] theorem setPort_time (s : State) (t : Nat) (p : PortState) : (setPort s t p).time = s.time := rfl
@[simp] theorem setPort_grid (s : State) (t : Nat) (p : PortState) : (setPort s t p).grid = s.grid := rfl
@[simp] theorem setPort_loop (s : State) (t : Nat) (p : PortState) : (setPort s t p).loop = s.loop := rfl
@[simp] theorem setPort_collector (s : State) (t : Nat) (p : PortState) : (setPort s t p).collector = s.collector := rfl
@[simp] theorem setPort_recorder (s : State) (t : Nat) (p : PortState) : (setPort s t p).recorder = s.recorder := rfl
@[simp] theorem setPort_gsram (s : State) (t : Nat) (p : PortState) : (setPort s t p).gsram = s.gsram := rfl
@[simp] theorem setPort_dram (s : State) (t : Nat) (p : PortState) : (setPort s t p).dram = s.dram := rfl
@[simp] theorem setPort_poison (s : State) (t : Nat) (p : PortState) : (setPort s t p).poison = s.poison := rfl
@[simp] theorem setPort_beads (s : State) (t : Nat) (p : PortState) : (setPort s t p).beads = s.beads := rfl
@[simp] theorem setPort_chans (s : State) (t : Nat) (p : PortState) : (setPort s t p).chans = s.chans := rfl
@[simp] theorem setPort_rx (s : State) (t : Nat) (p : PortState) : (setPort s t p).rx = s.rx := rfl
@[simp] theorem setPort_cs (s : State) (t : Nat) (p : PortState) : (setPort s t p).cs = s.cs := rfl
@[simp] theorem setPort_tx (s : State) (t : Nat) (p : PortState) : (setPort s t p).tx = s.tx := rfl
@[simp] theorem setPort_asrcLive (s : State) (t : Nat) (p : PortState) : (setPort s t p).asrcLive = s.asrcLive := rfl
@[simp] theorem setPort_params (s : State) (t : Nat) (p : PortState) : (setPort s t p).params = s.params := rfl
@[simp] theorem setPort_xps (s : State) (t : Nat) (p : PortState) : (setPort s t p).xps = s.xps := rfl
@[simp] theorem setPort_buses (s : State) (t : Nat) (p : PortState) : (setPort s t p).buses = s.buses := rfl
@[simp] theorem setPort_hpfs (s : State) (t : Nat) (p : PortState) : (setPort s t p).hpfs = s.hpfs := rfl
@[simp] theorem setPort_peaks (s : State) (t : Nat) (p : PortState) : (setPort s t p).peaks = s.peaks := rfl
@[simp] theorem setPort_routes (s : State) (t : Nat) (p : PortState) : (setPort s t p).routes = s.routes := rfl
@[simp] theorem setPort_fades (s : State) (t : Nat) (p : PortState) : (setPort s t p).fades = s.fades := rfl
@[simp] theorem setPort_routeWait (s : State) (t : Nat) (p : PortState) : (setPort s t p).routeWait = s.routeWait := rfl
@[simp] theorem setPort_taps (s : State) (t : Nat) (p : PortState) : (setPort s t p).taps = s.taps := rfl
@[simp] theorem setPort_lines (s : State) (t : Nat) (p : PortState) : (setPort s t p).lines = s.lines := rfl
@[simp] theorem setPort_meters (s : State) (t : Nat) (p : PortState) : (setPort s t p).meters = s.meters := rfl
@[simp] theorem setPort_meterIndex (s : State) (t : Nat) (p : PortState) : (setPort s t p).meterIndex = s.meterIndex :=
  rfl
@[simp] theorem setPort_meterClears (s : State) (t : Nat) (p : PortState) : (setPort s t p).meterClears = s.meterClears :=
  rfl
@[simp] theorem setPort_rods (s : State) (t : Nat) (p : PortState) : (setPort s t p).rods = s.rods := rfl
@[simp] theorem setPort_frameMem (s : State) (t : Nat) (p : PortState) : (setPort s t p).frameMem = s.frameMem := rfl
@[simp] theorem setPort_banks (s : State) (t : Nat) (p : PortState) : (setPort s t p).banks = s.banks := rfl
@[simp] theorem setPort_loads (s : State) (t : Nat) (p : PortState) : (setPort s t p).loads = s.loads := rfl
@[simp] theorem setPort_nets (s : State) (t : Nat) (p : PortState) : (setPort s t p).nets = s.nets := rfl
@[simp] theorem setPort_posted (s : State) (t : Nat) (p : PortState) : (setPort s t p).posted = s.posted := rfl
@[simp] theorem setPort_strRx (s : State) (t : Nat) (p : PortState) : (setPort s t p).strRx = s.strRx := rfl
@[simp] theorem setPort_strTx (s : State) (t : Nat) (p : PortState) : (setPort s t p).strTx = s.strTx := rfl
@[simp] theorem setPort_supplied (s : State) (t : Nat) (p : PortState) : (setPort s t p).supplied = s.supplied := rfl
@[simp] theorem setPort_strClears (s : State) (t : Nat) (p : PortState) : (setPort s t p).strClears = s.strClears := rfl
@[simp] theorem setPort_tallies (s : State) (t : Nat) (p : PortState) : (setPort s t p).tallies = s.tallies := rfl
@[simp] theorem setPort_snap (s : State) (t : Nat) (p : PortState) : (setPort s t p).snap = s.snap := rfl
@[simp] theorem setPort_barA (s : State) (t : Nat) (p : PortState) : (setPort s t p).barA = s.barA := rfl
@[simp] theorem setPort_barB (s : State) (t : Nat) (p : PortState) : (setPort s t p).barB = s.barB := rfl
@[simp] theorem setPort_dieA (s : State) (t : Nat) (p : PortState) : (setPort s t p).dieA = s.dieA := rfl
@[simp] theorem setPort_dieB (s : State) (t : Nat) (p : PortState) : (setPort s t p).dieB = s.dieB := rfl
@[simp] theorem setPort_chmapPrev (s : State) (t : Nat) (p : PortState) : (setPort s t p).chmapPrev = s.chmapPrev := rfl
@[simp] theorem setPort_chmapPlay (s : State) (t : Nat) (p : PortState) : (setPort s t p).chmapPlay = s.chmapPlay := rfl
@[simp] theorem setPort_stk (s : State) (t : Nat) (p : PortState) : (setPort s t p).stk = s.stk := rfl
@[simp] theorem setPort_mgt (s : State) (t : Nat) (p : PortState) : (setPort s t p).mgt = s.mgt := rfl
@[simp] theorem setPort_flash (s : State) (t : Nat) (p : PortState) : (setPort s t p).flash = s.flash := rfl
@[simp] theorem setPort_boot (s : State) (t : Nat) (p : PortState) : (setPort s t p).boot = s.boot := rfl
@[simp] theorem setPort_qps (s : State) (t : Nat) (p : PortState) : (setPort s t p).qps = s.qps := rfl
@[simp] theorem setPort_diags (s : State) (t : Nat) (p : PortState) : (setPort s t p).diags = s.diags := rfl
@[simp] theorem setPort_turns (s : State) (t : Nat) (p : PortState) : (setPort s t p).turns = s.turns := rfl
@[simp] theorem setPort_doorbell (s : State) (t : Nat) (p : PortState) : (setPort s t p).doorbell = s.doorbell := rfl
@[simp] theorem setPort_pageBad (s : State) (t : Nat) (p : PortState) : (setPort s t p).pageBad = s.pageBad := rfl
@[simp] theorem setPort_hostMem (s : State) (t : Nat) (p : PortState) : (setPort s t p).hostMem = s.hostMem := rfl
@[simp] theorem setPort_sent (s : State) (t : Nat) (p : PortState) : (setPort s t p).sent = s.sent := rfl
@[simp] theorem setPort_pending (s : State) (t : Nat) (p : PortState) : (setPort s t p).pending = s.pending := rfl
@[simp] theorem setPort_free (s : State) (t : Nat) (p : PortState) : (setPort s t p).free = s.free := rfl
@[simp] theorem setPort_ports (s : State) (t : Nat) (p : PortState) : (setPort s t p).ports = mapSet portReset s.ports t p :=
  rfl
@[simp] theorem setChan_variant (s : State) (c : Nat) (x : ChanState) : (setChan s c x).variant = s.variant := rfl
@[simp] theorem setChan_powered (s : State) (c : Nat) (x : ChanState) : (setChan s c x).powered = s.powered := rfl
@[simp] theorem setChan_perstLow (s : State) (c : Nat) (x : ChanState) : (setChan s c x).perstLow = s.perstLow := rfl
@[simp] theorem setChan_pcieUp (s : State) (c : Nat) (x : ChanState) : (setChan s c x).pcieUp = s.pcieUp := rfl
@[simp] theorem setChan_pcie (s : State) (c : Nat) (x : ChanState) : (setChan s c x).pcie = s.pcie := rfl
@[simp] theorem setChan_regs (s : State) (c : Nat) (x : ChanState) : (setChan s c x).regs = s.regs := rfl
@[simp] theorem setChan_time (s : State) (c : Nat) (x : ChanState) : (setChan s c x).time = s.time := rfl
@[simp] theorem setChan_grid (s : State) (c : Nat) (x : ChanState) : (setChan s c x).grid = s.grid := rfl
@[simp] theorem setChan_loop (s : State) (c : Nat) (x : ChanState) : (setChan s c x).loop = s.loop := rfl
@[simp] theorem setChan_collector (s : State) (c : Nat) (x : ChanState) : (setChan s c x).collector = s.collector := rfl
@[simp] theorem setChan_recorder (s : State) (c : Nat) (x : ChanState) : (setChan s c x).recorder = s.recorder := rfl
@[simp] theorem setChan_ports (s : State) (c : Nat) (x : ChanState) : (setChan s c x).ports = s.ports := rfl
@[simp] theorem setChan_gsram (s : State) (c : Nat) (x : ChanState) : (setChan s c x).gsram = s.gsram := rfl
@[simp] theorem setChan_dram (s : State) (c : Nat) (x : ChanState) : (setChan s c x).dram = s.dram := rfl
@[simp] theorem setChan_poison (s : State) (c : Nat) (x : ChanState) : (setChan s c x).poison = s.poison := rfl
@[simp] theorem setChan_beads (s : State) (c : Nat) (x : ChanState) : (setChan s c x).beads = s.beads := rfl
@[simp] theorem setChan_rx (s : State) (c : Nat) (x : ChanState) : (setChan s c x).rx = s.rx := rfl
@[simp] theorem setChan_cs (s : State) (c : Nat) (x : ChanState) : (setChan s c x).cs = s.cs := rfl
@[simp] theorem setChan_tx (s : State) (c : Nat) (x : ChanState) : (setChan s c x).tx = s.tx := rfl
@[simp] theorem setChan_asrcLive (s : State) (c : Nat) (x : ChanState) : (setChan s c x).asrcLive = s.asrcLive := rfl
@[simp] theorem setChan_params (s : State) (c : Nat) (x : ChanState) : (setChan s c x).params = s.params := rfl
@[simp] theorem setChan_xps (s : State) (c : Nat) (x : ChanState) : (setChan s c x).xps = s.xps := rfl
@[simp] theorem setChan_buses (s : State) (c : Nat) (x : ChanState) : (setChan s c x).buses = s.buses := rfl
@[simp] theorem setChan_hpfs (s : State) (c : Nat) (x : ChanState) : (setChan s c x).hpfs = s.hpfs := rfl
@[simp] theorem setChan_peaks (s : State) (c : Nat) (x : ChanState) : (setChan s c x).peaks = s.peaks := rfl
@[simp] theorem setChan_routes (s : State) (c : Nat) (x : ChanState) : (setChan s c x).routes = s.routes := rfl
@[simp] theorem setChan_fades (s : State) (c : Nat) (x : ChanState) : (setChan s c x).fades = s.fades := rfl
@[simp] theorem setChan_routeWait (s : State) (c : Nat) (x : ChanState) : (setChan s c x).routeWait = s.routeWait := rfl
@[simp] theorem setChan_taps (s : State) (c : Nat) (x : ChanState) : (setChan s c x).taps = s.taps := rfl
@[simp] theorem setChan_lines (s : State) (c : Nat) (x : ChanState) : (setChan s c x).lines = s.lines := rfl
@[simp] theorem setChan_meters (s : State) (c : Nat) (x : ChanState) : (setChan s c x).meters = s.meters := rfl
@[simp] theorem setChan_meterIndex (s : State) (c : Nat) (x : ChanState) : (setChan s c x).meterIndex = s.meterIndex :=
  rfl
@[simp] theorem setChan_meterClears (s : State) (c : Nat) (x : ChanState) : (setChan s c x).meterClears = s.meterClears :=
  rfl
@[simp] theorem setChan_rods (s : State) (c : Nat) (x : ChanState) : (setChan s c x).rods = s.rods := rfl
@[simp] theorem setChan_frameMem (s : State) (c : Nat) (x : ChanState) : (setChan s c x).frameMem = s.frameMem := rfl
@[simp] theorem setChan_banks (s : State) (c : Nat) (x : ChanState) : (setChan s c x).banks = s.banks := rfl
@[simp] theorem setChan_loads (s : State) (c : Nat) (x : ChanState) : (setChan s c x).loads = s.loads := rfl
@[simp] theorem setChan_nets (s : State) (c : Nat) (x : ChanState) : (setChan s c x).nets = s.nets := rfl
@[simp] theorem setChan_posted (s : State) (c : Nat) (x : ChanState) : (setChan s c x).posted = s.posted := rfl
@[simp] theorem setChan_strRx (s : State) (c : Nat) (x : ChanState) : (setChan s c x).strRx = s.strRx := rfl
@[simp] theorem setChan_strTx (s : State) (c : Nat) (x : ChanState) : (setChan s c x).strTx = s.strTx := rfl
@[simp] theorem setChan_supplied (s : State) (c : Nat) (x : ChanState) : (setChan s c x).supplied = s.supplied := rfl
@[simp] theorem setChan_strClears (s : State) (c : Nat) (x : ChanState) : (setChan s c x).strClears = s.strClears := rfl
@[simp] theorem setChan_tallies (s : State) (c : Nat) (x : ChanState) : (setChan s c x).tallies = s.tallies := rfl
@[simp] theorem setChan_snap (s : State) (c : Nat) (x : ChanState) : (setChan s c x).snap = s.snap := rfl
@[simp] theorem setChan_barA (s : State) (c : Nat) (x : ChanState) : (setChan s c x).barA = s.barA := rfl
@[simp] theorem setChan_barB (s : State) (c : Nat) (x : ChanState) : (setChan s c x).barB = s.barB := rfl
@[simp] theorem setChan_dieA (s : State) (c : Nat) (x : ChanState) : (setChan s c x).dieA = s.dieA := rfl
@[simp] theorem setChan_dieB (s : State) (c : Nat) (x : ChanState) : (setChan s c x).dieB = s.dieB := rfl
@[simp] theorem setChan_chmapPrev (s : State) (c : Nat) (x : ChanState) : (setChan s c x).chmapPrev = s.chmapPrev := rfl
@[simp] theorem setChan_chmapPlay (s : State) (c : Nat) (x : ChanState) : (setChan s c x).chmapPlay = s.chmapPlay := rfl
@[simp] theorem setChan_stk (s : State) (c : Nat) (x : ChanState) : (setChan s c x).stk = s.stk := rfl
@[simp] theorem setChan_mgt (s : State) (c : Nat) (x : ChanState) : (setChan s c x).mgt = s.mgt := rfl
@[simp] theorem setChan_flash (s : State) (c : Nat) (x : ChanState) : (setChan s c x).flash = s.flash := rfl
@[simp] theorem setChan_boot (s : State) (c : Nat) (x : ChanState) : (setChan s c x).boot = s.boot := rfl
@[simp] theorem setChan_qps (s : State) (c : Nat) (x : ChanState) : (setChan s c x).qps = s.qps := rfl
@[simp] theorem setChan_diags (s : State) (c : Nat) (x : ChanState) : (setChan s c x).diags = s.diags := rfl
@[simp] theorem setChan_turns (s : State) (c : Nat) (x : ChanState) : (setChan s c x).turns = s.turns := rfl
@[simp] theorem setChan_doorbell (s : State) (c : Nat) (x : ChanState) : (setChan s c x).doorbell = s.doorbell := rfl
@[simp] theorem setChan_pageBad (s : State) (c : Nat) (x : ChanState) : (setChan s c x).pageBad = s.pageBad := rfl
@[simp] theorem setChan_hostMem (s : State) (c : Nat) (x : ChanState) : (setChan s c x).hostMem = s.hostMem := rfl
@[simp] theorem setChan_sent (s : State) (c : Nat) (x : ChanState) : (setChan s c x).sent = s.sent := rfl
@[simp] theorem setChan_pending (s : State) (c : Nat) (x : ChanState) : (setChan s c x).pending = s.pending := rfl
@[simp] theorem setChan_free (s : State) (c : Nat) (x : ChanState) : (setChan s c x).free = s.free := rfl
@[simp] theorem setChan_chans (s : State) (c : Nat) (x : ChanState) : (setChan s c x).chans = mapSet chanReset s.chans c x :=
  rfl
@[simp] theorem setTap_variant (s : State) (t : Nat) (x : TapRun) : (setTap s t x).variant = s.variant := rfl
@[simp] theorem setTap_powered (s : State) (t : Nat) (x : TapRun) : (setTap s t x).powered = s.powered := rfl
@[simp] theorem setTap_perstLow (s : State) (t : Nat) (x : TapRun) : (setTap s t x).perstLow = s.perstLow := rfl
@[simp] theorem setTap_pcieUp (s : State) (t : Nat) (x : TapRun) : (setTap s t x).pcieUp = s.pcieUp := rfl
@[simp] theorem setTap_pcie (s : State) (t : Nat) (x : TapRun) : (setTap s t x).pcie = s.pcie := rfl
@[simp] theorem setTap_regs (s : State) (t : Nat) (x : TapRun) : (setTap s t x).regs = s.regs := rfl
@[simp] theorem setTap_time (s : State) (t : Nat) (x : TapRun) : (setTap s t x).time = s.time := rfl
@[simp] theorem setTap_grid (s : State) (t : Nat) (x : TapRun) : (setTap s t x).grid = s.grid := rfl
@[simp] theorem setTap_loop (s : State) (t : Nat) (x : TapRun) : (setTap s t x).loop = s.loop := rfl
@[simp] theorem setTap_collector (s : State) (t : Nat) (x : TapRun) : (setTap s t x).collector = s.collector := rfl
@[simp] theorem setTap_recorder (s : State) (t : Nat) (x : TapRun) : (setTap s t x).recorder = s.recorder := rfl
@[simp] theorem setTap_ports (s : State) (t : Nat) (x : TapRun) : (setTap s t x).ports = s.ports := rfl
@[simp] theorem setTap_gsram (s : State) (t : Nat) (x : TapRun) : (setTap s t x).gsram = s.gsram := rfl
@[simp] theorem setTap_dram (s : State) (t : Nat) (x : TapRun) : (setTap s t x).dram = s.dram := rfl
@[simp] theorem setTap_poison (s : State) (t : Nat) (x : TapRun) : (setTap s t x).poison = s.poison := rfl
@[simp] theorem setTap_beads (s : State) (t : Nat) (x : TapRun) : (setTap s t x).beads = s.beads := rfl
@[simp] theorem setTap_chans (s : State) (t : Nat) (x : TapRun) : (setTap s t x).chans = s.chans := rfl
@[simp] theorem setTap_rx (s : State) (t : Nat) (x : TapRun) : (setTap s t x).rx = s.rx := rfl
@[simp] theorem setTap_cs (s : State) (t : Nat) (x : TapRun) : (setTap s t x).cs = s.cs := rfl
@[simp] theorem setTap_tx (s : State) (t : Nat) (x : TapRun) : (setTap s t x).tx = s.tx := rfl
@[simp] theorem setTap_asrcLive (s : State) (t : Nat) (x : TapRun) : (setTap s t x).asrcLive = s.asrcLive := rfl
@[simp] theorem setTap_params (s : State) (t : Nat) (x : TapRun) : (setTap s t x).params = s.params := rfl
@[simp] theorem setTap_xps (s : State) (t : Nat) (x : TapRun) : (setTap s t x).xps = s.xps := rfl
@[simp] theorem setTap_buses (s : State) (t : Nat) (x : TapRun) : (setTap s t x).buses = s.buses := rfl
@[simp] theorem setTap_hpfs (s : State) (t : Nat) (x : TapRun) : (setTap s t x).hpfs = s.hpfs := rfl
@[simp] theorem setTap_peaks (s : State) (t : Nat) (x : TapRun) : (setTap s t x).peaks = s.peaks := rfl
@[simp] theorem setTap_routes (s : State) (t : Nat) (x : TapRun) : (setTap s t x).routes = s.routes := rfl
@[simp] theorem setTap_fades (s : State) (t : Nat) (x : TapRun) : (setTap s t x).fades = s.fades := rfl
@[simp] theorem setTap_routeWait (s : State) (t : Nat) (x : TapRun) : (setTap s t x).routeWait = s.routeWait := rfl
@[simp] theorem setTap_lines (s : State) (t : Nat) (x : TapRun) : (setTap s t x).lines = s.lines := rfl
@[simp] theorem setTap_meters (s : State) (t : Nat) (x : TapRun) : (setTap s t x).meters = s.meters := rfl
@[simp] theorem setTap_meterIndex (s : State) (t : Nat) (x : TapRun) : (setTap s t x).meterIndex = s.meterIndex := rfl
@[simp] theorem setTap_meterClears (s : State) (t : Nat) (x : TapRun) : (setTap s t x).meterClears = s.meterClears :=
  rfl
@[simp] theorem setTap_rods (s : State) (t : Nat) (x : TapRun) : (setTap s t x).rods = s.rods := rfl
@[simp] theorem setTap_frameMem (s : State) (t : Nat) (x : TapRun) : (setTap s t x).frameMem = s.frameMem := rfl
@[simp] theorem setTap_banks (s : State) (t : Nat) (x : TapRun) : (setTap s t x).banks = s.banks := rfl
@[simp] theorem setTap_loads (s : State) (t : Nat) (x : TapRun) : (setTap s t x).loads = s.loads := rfl
@[simp] theorem setTap_nets (s : State) (t : Nat) (x : TapRun) : (setTap s t x).nets = s.nets := rfl
@[simp] theorem setTap_posted (s : State) (t : Nat) (x : TapRun) : (setTap s t x).posted = s.posted := rfl
@[simp] theorem setTap_strRx (s : State) (t : Nat) (x : TapRun) : (setTap s t x).strRx = s.strRx := rfl
@[simp] theorem setTap_strTx (s : State) (t : Nat) (x : TapRun) : (setTap s t x).strTx = s.strTx := rfl
@[simp] theorem setTap_supplied (s : State) (t : Nat) (x : TapRun) : (setTap s t x).supplied = s.supplied := rfl
@[simp] theorem setTap_strClears (s : State) (t : Nat) (x : TapRun) : (setTap s t x).strClears = s.strClears := rfl
@[simp] theorem setTap_tallies (s : State) (t : Nat) (x : TapRun) : (setTap s t x).tallies = s.tallies := rfl
@[simp] theorem setTap_snap (s : State) (t : Nat) (x : TapRun) : (setTap s t x).snap = s.snap := rfl
@[simp] theorem setTap_barA (s : State) (t : Nat) (x : TapRun) : (setTap s t x).barA = s.barA := rfl
@[simp] theorem setTap_barB (s : State) (t : Nat) (x : TapRun) : (setTap s t x).barB = s.barB := rfl
@[simp] theorem setTap_dieA (s : State) (t : Nat) (x : TapRun) : (setTap s t x).dieA = s.dieA := rfl
@[simp] theorem setTap_dieB (s : State) (t : Nat) (x : TapRun) : (setTap s t x).dieB = s.dieB := rfl
@[simp] theorem setTap_chmapPrev (s : State) (t : Nat) (x : TapRun) : (setTap s t x).chmapPrev = s.chmapPrev := rfl
@[simp] theorem setTap_chmapPlay (s : State) (t : Nat) (x : TapRun) : (setTap s t x).chmapPlay = s.chmapPlay := rfl
@[simp] theorem setTap_stk (s : State) (t : Nat) (x : TapRun) : (setTap s t x).stk = s.stk := rfl
@[simp] theorem setTap_mgt (s : State) (t : Nat) (x : TapRun) : (setTap s t x).mgt = s.mgt := rfl
@[simp] theorem setTap_flash (s : State) (t : Nat) (x : TapRun) : (setTap s t x).flash = s.flash := rfl
@[simp] theorem setTap_boot (s : State) (t : Nat) (x : TapRun) : (setTap s t x).boot = s.boot := rfl
@[simp] theorem setTap_qps (s : State) (t : Nat) (x : TapRun) : (setTap s t x).qps = s.qps := rfl
@[simp] theorem setTap_diags (s : State) (t : Nat) (x : TapRun) : (setTap s t x).diags = s.diags := rfl
@[simp] theorem setTap_turns (s : State) (t : Nat) (x : TapRun) : (setTap s t x).turns = s.turns := rfl
@[simp] theorem setTap_doorbell (s : State) (t : Nat) (x : TapRun) : (setTap s t x).doorbell = s.doorbell := rfl
@[simp] theorem setTap_pageBad (s : State) (t : Nat) (x : TapRun) : (setTap s t x).pageBad = s.pageBad := rfl
@[simp] theorem setTap_hostMem (s : State) (t : Nat) (x : TapRun) : (setTap s t x).hostMem = s.hostMem := rfl
@[simp] theorem setTap_sent (s : State) (t : Nat) (x : TapRun) : (setTap s t x).sent = s.sent := rfl
@[simp] theorem setTap_pending (s : State) (t : Nat) (x : TapRun) : (setTap s t x).pending = s.pending := rfl
@[simp] theorem setTap_free (s : State) (t : Nat) (x : TapRun) : (setTap s t x).free = s.free := rfl
@[simp] theorem setTap_taps (s : State) (t : Nat) (x : TapRun) : (setTap s t x).taps = mapSet tapReset s.taps t x := rfl
@[simp] theorem setXp_variant (s : State) (e : Nat) (x : XpRun) : (setXp s e x).variant = s.variant := rfl
@[simp] theorem setXp_powered (s : State) (e : Nat) (x : XpRun) : (setXp s e x).powered = s.powered := rfl
@[simp] theorem setXp_perstLow (s : State) (e : Nat) (x : XpRun) : (setXp s e x).perstLow = s.perstLow := rfl
@[simp] theorem setXp_pcieUp (s : State) (e : Nat) (x : XpRun) : (setXp s e x).pcieUp = s.pcieUp := rfl
@[simp] theorem setXp_pcie (s : State) (e : Nat) (x : XpRun) : (setXp s e x).pcie = s.pcie := rfl
@[simp] theorem setXp_regs (s : State) (e : Nat) (x : XpRun) : (setXp s e x).regs = s.regs := rfl
@[simp] theorem setXp_time (s : State) (e : Nat) (x : XpRun) : (setXp s e x).time = s.time := rfl
@[simp] theorem setXp_grid (s : State) (e : Nat) (x : XpRun) : (setXp s e x).grid = s.grid := rfl
@[simp] theorem setXp_loop (s : State) (e : Nat) (x : XpRun) : (setXp s e x).loop = s.loop := rfl
@[simp] theorem setXp_collector (s : State) (e : Nat) (x : XpRun) : (setXp s e x).collector = s.collector := rfl
@[simp] theorem setXp_recorder (s : State) (e : Nat) (x : XpRun) : (setXp s e x).recorder = s.recorder := rfl
@[simp] theorem setXp_ports (s : State) (e : Nat) (x : XpRun) : (setXp s e x).ports = s.ports := rfl
@[simp] theorem setXp_gsram (s : State) (e : Nat) (x : XpRun) : (setXp s e x).gsram = s.gsram := rfl
@[simp] theorem setXp_dram (s : State) (e : Nat) (x : XpRun) : (setXp s e x).dram = s.dram := rfl
@[simp] theorem setXp_poison (s : State) (e : Nat) (x : XpRun) : (setXp s e x).poison = s.poison := rfl
@[simp] theorem setXp_beads (s : State) (e : Nat) (x : XpRun) : (setXp s e x).beads = s.beads := rfl
@[simp] theorem setXp_chans (s : State) (e : Nat) (x : XpRun) : (setXp s e x).chans = s.chans := rfl
@[simp] theorem setXp_rx (s : State) (e : Nat) (x : XpRun) : (setXp s e x).rx = s.rx := rfl
@[simp] theorem setXp_cs (s : State) (e : Nat) (x : XpRun) : (setXp s e x).cs = s.cs := rfl
@[simp] theorem setXp_tx (s : State) (e : Nat) (x : XpRun) : (setXp s e x).tx = s.tx := rfl
@[simp] theorem setXp_asrcLive (s : State) (e : Nat) (x : XpRun) : (setXp s e x).asrcLive = s.asrcLive := rfl
@[simp] theorem setXp_params (s : State) (e : Nat) (x : XpRun) : (setXp s e x).params = s.params := rfl
@[simp] theorem setXp_buses (s : State) (e : Nat) (x : XpRun) : (setXp s e x).buses = s.buses := rfl
@[simp] theorem setXp_hpfs (s : State) (e : Nat) (x : XpRun) : (setXp s e x).hpfs = s.hpfs := rfl
@[simp] theorem setXp_peaks (s : State) (e : Nat) (x : XpRun) : (setXp s e x).peaks = s.peaks := rfl
@[simp] theorem setXp_routes (s : State) (e : Nat) (x : XpRun) : (setXp s e x).routes = s.routes := rfl
@[simp] theorem setXp_fades (s : State) (e : Nat) (x : XpRun) : (setXp s e x).fades = s.fades := rfl
@[simp] theorem setXp_routeWait (s : State) (e : Nat) (x : XpRun) : (setXp s e x).routeWait = s.routeWait := rfl
@[simp] theorem setXp_taps (s : State) (e : Nat) (x : XpRun) : (setXp s e x).taps = s.taps := rfl
@[simp] theorem setXp_lines (s : State) (e : Nat) (x : XpRun) : (setXp s e x).lines = s.lines := rfl
@[simp] theorem setXp_meters (s : State) (e : Nat) (x : XpRun) : (setXp s e x).meters = s.meters := rfl
@[simp] theorem setXp_meterIndex (s : State) (e : Nat) (x : XpRun) : (setXp s e x).meterIndex = s.meterIndex := rfl
@[simp] theorem setXp_meterClears (s : State) (e : Nat) (x : XpRun) : (setXp s e x).meterClears = s.meterClears := rfl
@[simp] theorem setXp_rods (s : State) (e : Nat) (x : XpRun) : (setXp s e x).rods = s.rods := rfl
@[simp] theorem setXp_frameMem (s : State) (e : Nat) (x : XpRun) : (setXp s e x).frameMem = s.frameMem := rfl
@[simp] theorem setXp_banks (s : State) (e : Nat) (x : XpRun) : (setXp s e x).banks = s.banks := rfl
@[simp] theorem setXp_loads (s : State) (e : Nat) (x : XpRun) : (setXp s e x).loads = s.loads := rfl
@[simp] theorem setXp_nets (s : State) (e : Nat) (x : XpRun) : (setXp s e x).nets = s.nets := rfl
@[simp] theorem setXp_posted (s : State) (e : Nat) (x : XpRun) : (setXp s e x).posted = s.posted := rfl
@[simp] theorem setXp_strRx (s : State) (e : Nat) (x : XpRun) : (setXp s e x).strRx = s.strRx := rfl
@[simp] theorem setXp_strTx (s : State) (e : Nat) (x : XpRun) : (setXp s e x).strTx = s.strTx := rfl
@[simp] theorem setXp_supplied (s : State) (e : Nat) (x : XpRun) : (setXp s e x).supplied = s.supplied := rfl
@[simp] theorem setXp_strClears (s : State) (e : Nat) (x : XpRun) : (setXp s e x).strClears = s.strClears := rfl
@[simp] theorem setXp_tallies (s : State) (e : Nat) (x : XpRun) : (setXp s e x).tallies = s.tallies := rfl
@[simp] theorem setXp_snap (s : State) (e : Nat) (x : XpRun) : (setXp s e x).snap = s.snap := rfl
@[simp] theorem setXp_barA (s : State) (e : Nat) (x : XpRun) : (setXp s e x).barA = s.barA := rfl
@[simp] theorem setXp_barB (s : State) (e : Nat) (x : XpRun) : (setXp s e x).barB = s.barB := rfl
@[simp] theorem setXp_dieA (s : State) (e : Nat) (x : XpRun) : (setXp s e x).dieA = s.dieA := rfl
@[simp] theorem setXp_dieB (s : State) (e : Nat) (x : XpRun) : (setXp s e x).dieB = s.dieB := rfl
@[simp] theorem setXp_chmapPrev (s : State) (e : Nat) (x : XpRun) : (setXp s e x).chmapPrev = s.chmapPrev := rfl
@[simp] theorem setXp_chmapPlay (s : State) (e : Nat) (x : XpRun) : (setXp s e x).chmapPlay = s.chmapPlay := rfl
@[simp] theorem setXp_stk (s : State) (e : Nat) (x : XpRun) : (setXp s e x).stk = s.stk := rfl
@[simp] theorem setXp_mgt (s : State) (e : Nat) (x : XpRun) : (setXp s e x).mgt = s.mgt := rfl
@[simp] theorem setXp_flash (s : State) (e : Nat) (x : XpRun) : (setXp s e x).flash = s.flash := rfl
@[simp] theorem setXp_boot (s : State) (e : Nat) (x : XpRun) : (setXp s e x).boot = s.boot := rfl
@[simp] theorem setXp_qps (s : State) (e : Nat) (x : XpRun) : (setXp s e x).qps = s.qps := rfl
@[simp] theorem setXp_diags (s : State) (e : Nat) (x : XpRun) : (setXp s e x).diags = s.diags := rfl
@[simp] theorem setXp_turns (s : State) (e : Nat) (x : XpRun) : (setXp s e x).turns = s.turns := rfl
@[simp] theorem setXp_doorbell (s : State) (e : Nat) (x : XpRun) : (setXp s e x).doorbell = s.doorbell := rfl
@[simp] theorem setXp_pageBad (s : State) (e : Nat) (x : XpRun) : (setXp s e x).pageBad = s.pageBad := rfl
@[simp] theorem setXp_hostMem (s : State) (e : Nat) (x : XpRun) : (setXp s e x).hostMem = s.hostMem := rfl
@[simp] theorem setXp_sent (s : State) (e : Nat) (x : XpRun) : (setXp s e x).sent = s.sent := rfl
@[simp] theorem setXp_pending (s : State) (e : Nat) (x : XpRun) : (setXp s e x).pending = s.pending := rfl
@[simp] theorem setXp_free (s : State) (e : Nat) (x : XpRun) : (setXp s e x).free = s.free := rfl
@[simp] theorem setXp_xps (s : State) (e : Nat) (x : XpRun) : (setXp s e x).xps = mapSet xpReset s.xps e x := rfl
@[simp] theorem setBus_variant (s : State) (b : Nat) (x : BusRun) : (setBus s b x).variant = s.variant := rfl
@[simp] theorem setBus_powered (s : State) (b : Nat) (x : BusRun) : (setBus s b x).powered = s.powered := rfl
@[simp] theorem setBus_perstLow (s : State) (b : Nat) (x : BusRun) : (setBus s b x).perstLow = s.perstLow := rfl
@[simp] theorem setBus_pcieUp (s : State) (b : Nat) (x : BusRun) : (setBus s b x).pcieUp = s.pcieUp := rfl
@[simp] theorem setBus_pcie (s : State) (b : Nat) (x : BusRun) : (setBus s b x).pcie = s.pcie := rfl
@[simp] theorem setBus_regs (s : State) (b : Nat) (x : BusRun) : (setBus s b x).regs = s.regs := rfl
@[simp] theorem setBus_time (s : State) (b : Nat) (x : BusRun) : (setBus s b x).time = s.time := rfl
@[simp] theorem setBus_grid (s : State) (b : Nat) (x : BusRun) : (setBus s b x).grid = s.grid := rfl
@[simp] theorem setBus_loop (s : State) (b : Nat) (x : BusRun) : (setBus s b x).loop = s.loop := rfl
@[simp] theorem setBus_collector (s : State) (b : Nat) (x : BusRun) : (setBus s b x).collector = s.collector := rfl
@[simp] theorem setBus_recorder (s : State) (b : Nat) (x : BusRun) : (setBus s b x).recorder = s.recorder := rfl
@[simp] theorem setBus_ports (s : State) (b : Nat) (x : BusRun) : (setBus s b x).ports = s.ports := rfl
@[simp] theorem setBus_gsram (s : State) (b : Nat) (x : BusRun) : (setBus s b x).gsram = s.gsram := rfl
@[simp] theorem setBus_dram (s : State) (b : Nat) (x : BusRun) : (setBus s b x).dram = s.dram := rfl
@[simp] theorem setBus_poison (s : State) (b : Nat) (x : BusRun) : (setBus s b x).poison = s.poison := rfl
@[simp] theorem setBus_beads (s : State) (b : Nat) (x : BusRun) : (setBus s b x).beads = s.beads := rfl
@[simp] theorem setBus_chans (s : State) (b : Nat) (x : BusRun) : (setBus s b x).chans = s.chans := rfl
@[simp] theorem setBus_rx (s : State) (b : Nat) (x : BusRun) : (setBus s b x).rx = s.rx := rfl
@[simp] theorem setBus_cs (s : State) (b : Nat) (x : BusRun) : (setBus s b x).cs = s.cs := rfl
@[simp] theorem setBus_tx (s : State) (b : Nat) (x : BusRun) : (setBus s b x).tx = s.tx := rfl
@[simp] theorem setBus_asrcLive (s : State) (b : Nat) (x : BusRun) : (setBus s b x).asrcLive = s.asrcLive := rfl
@[simp] theorem setBus_params (s : State) (b : Nat) (x : BusRun) : (setBus s b x).params = s.params := rfl
@[simp] theorem setBus_xps (s : State) (b : Nat) (x : BusRun) : (setBus s b x).xps = s.xps := rfl
@[simp] theorem setBus_hpfs (s : State) (b : Nat) (x : BusRun) : (setBus s b x).hpfs = s.hpfs := rfl
@[simp] theorem setBus_peaks (s : State) (b : Nat) (x : BusRun) : (setBus s b x).peaks = s.peaks := rfl
@[simp] theorem setBus_routes (s : State) (b : Nat) (x : BusRun) : (setBus s b x).routes = s.routes := rfl
@[simp] theorem setBus_fades (s : State) (b : Nat) (x : BusRun) : (setBus s b x).fades = s.fades := rfl
@[simp] theorem setBus_routeWait (s : State) (b : Nat) (x : BusRun) : (setBus s b x).routeWait = s.routeWait := rfl
@[simp] theorem setBus_taps (s : State) (b : Nat) (x : BusRun) : (setBus s b x).taps = s.taps := rfl
@[simp] theorem setBus_lines (s : State) (b : Nat) (x : BusRun) : (setBus s b x).lines = s.lines := rfl
@[simp] theorem setBus_meters (s : State) (b : Nat) (x : BusRun) : (setBus s b x).meters = s.meters := rfl
@[simp] theorem setBus_meterIndex (s : State) (b : Nat) (x : BusRun) : (setBus s b x).meterIndex = s.meterIndex := rfl
@[simp] theorem setBus_meterClears (s : State) (b : Nat) (x : BusRun) : (setBus s b x).meterClears = s.meterClears :=
  rfl
@[simp] theorem setBus_rods (s : State) (b : Nat) (x : BusRun) : (setBus s b x).rods = s.rods := rfl
@[simp] theorem setBus_frameMem (s : State) (b : Nat) (x : BusRun) : (setBus s b x).frameMem = s.frameMem := rfl
@[simp] theorem setBus_banks (s : State) (b : Nat) (x : BusRun) : (setBus s b x).banks = s.banks := rfl
@[simp] theorem setBus_loads (s : State) (b : Nat) (x : BusRun) : (setBus s b x).loads = s.loads := rfl
@[simp] theorem setBus_nets (s : State) (b : Nat) (x : BusRun) : (setBus s b x).nets = s.nets := rfl
@[simp] theorem setBus_posted (s : State) (b : Nat) (x : BusRun) : (setBus s b x).posted = s.posted := rfl
@[simp] theorem setBus_strRx (s : State) (b : Nat) (x : BusRun) : (setBus s b x).strRx = s.strRx := rfl
@[simp] theorem setBus_strTx (s : State) (b : Nat) (x : BusRun) : (setBus s b x).strTx = s.strTx := rfl
@[simp] theorem setBus_supplied (s : State) (b : Nat) (x : BusRun) : (setBus s b x).supplied = s.supplied := rfl
@[simp] theorem setBus_strClears (s : State) (b : Nat) (x : BusRun) : (setBus s b x).strClears = s.strClears := rfl
@[simp] theorem setBus_tallies (s : State) (b : Nat) (x : BusRun) : (setBus s b x).tallies = s.tallies := rfl
@[simp] theorem setBus_snap (s : State) (b : Nat) (x : BusRun) : (setBus s b x).snap = s.snap := rfl
@[simp] theorem setBus_barA (s : State) (b : Nat) (x : BusRun) : (setBus s b x).barA = s.barA := rfl
@[simp] theorem setBus_barB (s : State) (b : Nat) (x : BusRun) : (setBus s b x).barB = s.barB := rfl
@[simp] theorem setBus_dieA (s : State) (b : Nat) (x : BusRun) : (setBus s b x).dieA = s.dieA := rfl
@[simp] theorem setBus_dieB (s : State) (b : Nat) (x : BusRun) : (setBus s b x).dieB = s.dieB := rfl
@[simp] theorem setBus_chmapPrev (s : State) (b : Nat) (x : BusRun) : (setBus s b x).chmapPrev = s.chmapPrev := rfl
@[simp] theorem setBus_chmapPlay (s : State) (b : Nat) (x : BusRun) : (setBus s b x).chmapPlay = s.chmapPlay := rfl
@[simp] theorem setBus_stk (s : State) (b : Nat) (x : BusRun) : (setBus s b x).stk = s.stk := rfl
@[simp] theorem setBus_mgt (s : State) (b : Nat) (x : BusRun) : (setBus s b x).mgt = s.mgt := rfl
@[simp] theorem setBus_flash (s : State) (b : Nat) (x : BusRun) : (setBus s b x).flash = s.flash := rfl
@[simp] theorem setBus_boot (s : State) (b : Nat) (x : BusRun) : (setBus s b x).boot = s.boot := rfl
@[simp] theorem setBus_qps (s : State) (b : Nat) (x : BusRun) : (setBus s b x).qps = s.qps := rfl
@[simp] theorem setBus_diags (s : State) (b : Nat) (x : BusRun) : (setBus s b x).diags = s.diags := rfl
@[simp] theorem setBus_turns (s : State) (b : Nat) (x : BusRun) : (setBus s b x).turns = s.turns := rfl
@[simp] theorem setBus_doorbell (s : State) (b : Nat) (x : BusRun) : (setBus s b x).doorbell = s.doorbell := rfl
@[simp] theorem setBus_pageBad (s : State) (b : Nat) (x : BusRun) : (setBus s b x).pageBad = s.pageBad := rfl
@[simp] theorem setBus_hostMem (s : State) (b : Nat) (x : BusRun) : (setBus s b x).hostMem = s.hostMem := rfl
@[simp] theorem setBus_sent (s : State) (b : Nat) (x : BusRun) : (setBus s b x).sent = s.sent := rfl
@[simp] theorem setBus_pending (s : State) (b : Nat) (x : BusRun) : (setBus s b x).pending = s.pending := rfl
@[simp] theorem setBus_free (s : State) (b : Nat) (x : BusRun) : (setBus s b x).free = s.free := rfl
@[simp] theorem setBus_buses (s : State) (b : Nat) (x : BusRun) : (setBus s b x).buses = mapSet busReset s.buses b x :=
  rfl
@[simp] theorem setMeter_variant (s : State) (i : Nat) (m : Meter) : (setMeter s i m).variant = s.variant := rfl
@[simp] theorem setMeter_powered (s : State) (i : Nat) (m : Meter) : (setMeter s i m).powered = s.powered := rfl
@[simp] theorem setMeter_perstLow (s : State) (i : Nat) (m : Meter) : (setMeter s i m).perstLow = s.perstLow := rfl
@[simp] theorem setMeter_pcieUp (s : State) (i : Nat) (m : Meter) : (setMeter s i m).pcieUp = s.pcieUp := rfl
@[simp] theorem setMeter_pcie (s : State) (i : Nat) (m : Meter) : (setMeter s i m).pcie = s.pcie := rfl
@[simp] theorem setMeter_regs (s : State) (i : Nat) (m : Meter) : (setMeter s i m).regs = s.regs := rfl
@[simp] theorem setMeter_time (s : State) (i : Nat) (m : Meter) : (setMeter s i m).time = s.time := rfl
@[simp] theorem setMeter_grid (s : State) (i : Nat) (m : Meter) : (setMeter s i m).grid = s.grid := rfl
@[simp] theorem setMeter_loop (s : State) (i : Nat) (m : Meter) : (setMeter s i m).loop = s.loop := rfl
@[simp] theorem setMeter_collector (s : State) (i : Nat) (m : Meter) : (setMeter s i m).collector = s.collector := rfl
@[simp] theorem setMeter_recorder (s : State) (i : Nat) (m : Meter) : (setMeter s i m).recorder = s.recorder := rfl
@[simp] theorem setMeter_ports (s : State) (i : Nat) (m : Meter) : (setMeter s i m).ports = s.ports := rfl
@[simp] theorem setMeter_gsram (s : State) (i : Nat) (m : Meter) : (setMeter s i m).gsram = s.gsram := rfl
@[simp] theorem setMeter_dram (s : State) (i : Nat) (m : Meter) : (setMeter s i m).dram = s.dram := rfl
@[simp] theorem setMeter_poison (s : State) (i : Nat) (m : Meter) : (setMeter s i m).poison = s.poison := rfl
@[simp] theorem setMeter_beads (s : State) (i : Nat) (m : Meter) : (setMeter s i m).beads = s.beads := rfl
@[simp] theorem setMeter_chans (s : State) (i : Nat) (m : Meter) : (setMeter s i m).chans = s.chans := rfl
@[simp] theorem setMeter_rx (s : State) (i : Nat) (m : Meter) : (setMeter s i m).rx = s.rx := rfl
@[simp] theorem setMeter_cs (s : State) (i : Nat) (m : Meter) : (setMeter s i m).cs = s.cs := rfl
@[simp] theorem setMeter_tx (s : State) (i : Nat) (m : Meter) : (setMeter s i m).tx = s.tx := rfl
@[simp] theorem setMeter_asrcLive (s : State) (i : Nat) (m : Meter) : (setMeter s i m).asrcLive = s.asrcLive := rfl
@[simp] theorem setMeter_params (s : State) (i : Nat) (m : Meter) : (setMeter s i m).params = s.params := rfl
@[simp] theorem setMeter_xps (s : State) (i : Nat) (m : Meter) : (setMeter s i m).xps = s.xps := rfl
@[simp] theorem setMeter_buses (s : State) (i : Nat) (m : Meter) : (setMeter s i m).buses = s.buses := rfl
@[simp] theorem setMeter_hpfs (s : State) (i : Nat) (m : Meter) : (setMeter s i m).hpfs = s.hpfs := rfl
@[simp] theorem setMeter_peaks (s : State) (i : Nat) (m : Meter) : (setMeter s i m).peaks = s.peaks := rfl
@[simp] theorem setMeter_routes (s : State) (i : Nat) (m : Meter) : (setMeter s i m).routes = s.routes := rfl
@[simp] theorem setMeter_fades (s : State) (i : Nat) (m : Meter) : (setMeter s i m).fades = s.fades := rfl
@[simp] theorem setMeter_routeWait (s : State) (i : Nat) (m : Meter) : (setMeter s i m).routeWait = s.routeWait := rfl
@[simp] theorem setMeter_taps (s : State) (i : Nat) (m : Meter) : (setMeter s i m).taps = s.taps := rfl
@[simp] theorem setMeter_lines (s : State) (i : Nat) (m : Meter) : (setMeter s i m).lines = s.lines := rfl
@[simp] theorem setMeter_meterIndex (s : State) (i : Nat) (m : Meter) : (setMeter s i m).meterIndex = s.meterIndex :=
  rfl
@[simp] theorem setMeter_meterClears (s : State) (i : Nat) (m : Meter) : (setMeter s i m).meterClears = s.meterClears :=
  rfl
@[simp] theorem setMeter_rods (s : State) (i : Nat) (m : Meter) : (setMeter s i m).rods = s.rods := rfl
@[simp] theorem setMeter_frameMem (s : State) (i : Nat) (m : Meter) : (setMeter s i m).frameMem = s.frameMem := rfl
@[simp] theorem setMeter_banks (s : State) (i : Nat) (m : Meter) : (setMeter s i m).banks = s.banks := rfl
@[simp] theorem setMeter_loads (s : State) (i : Nat) (m : Meter) : (setMeter s i m).loads = s.loads := rfl
@[simp] theorem setMeter_nets (s : State) (i : Nat) (m : Meter) : (setMeter s i m).nets = s.nets := rfl
@[simp] theorem setMeter_posted (s : State) (i : Nat) (m : Meter) : (setMeter s i m).posted = s.posted := rfl
@[simp] theorem setMeter_strRx (s : State) (i : Nat) (m : Meter) : (setMeter s i m).strRx = s.strRx := rfl
@[simp] theorem setMeter_strTx (s : State) (i : Nat) (m : Meter) : (setMeter s i m).strTx = s.strTx := rfl
@[simp] theorem setMeter_supplied (s : State) (i : Nat) (m : Meter) : (setMeter s i m).supplied = s.supplied := rfl
@[simp] theorem setMeter_strClears (s : State) (i : Nat) (m : Meter) : (setMeter s i m).strClears = s.strClears := rfl
@[simp] theorem setMeter_tallies (s : State) (i : Nat) (m : Meter) : (setMeter s i m).tallies = s.tallies := rfl
@[simp] theorem setMeter_snap (s : State) (i : Nat) (m : Meter) : (setMeter s i m).snap = s.snap := rfl
@[simp] theorem setMeter_barA (s : State) (i : Nat) (m : Meter) : (setMeter s i m).barA = s.barA := rfl
@[simp] theorem setMeter_barB (s : State) (i : Nat) (m : Meter) : (setMeter s i m).barB = s.barB := rfl
@[simp] theorem setMeter_dieA (s : State) (i : Nat) (m : Meter) : (setMeter s i m).dieA = s.dieA := rfl
@[simp] theorem setMeter_dieB (s : State) (i : Nat) (m : Meter) : (setMeter s i m).dieB = s.dieB := rfl
@[simp] theorem setMeter_chmapPrev (s : State) (i : Nat) (m : Meter) : (setMeter s i m).chmapPrev = s.chmapPrev := rfl
@[simp] theorem setMeter_chmapPlay (s : State) (i : Nat) (m : Meter) : (setMeter s i m).chmapPlay = s.chmapPlay := rfl
@[simp] theorem setMeter_stk (s : State) (i : Nat) (m : Meter) : (setMeter s i m).stk = s.stk := rfl
@[simp] theorem setMeter_mgt (s : State) (i : Nat) (m : Meter) : (setMeter s i m).mgt = s.mgt := rfl
@[simp] theorem setMeter_flash (s : State) (i : Nat) (m : Meter) : (setMeter s i m).flash = s.flash := rfl
@[simp] theorem setMeter_boot (s : State) (i : Nat) (m : Meter) : (setMeter s i m).boot = s.boot := rfl
@[simp] theorem setMeter_qps (s : State) (i : Nat) (m : Meter) : (setMeter s i m).qps = s.qps := rfl
@[simp] theorem setMeter_diags (s : State) (i : Nat) (m : Meter) : (setMeter s i m).diags = s.diags := rfl
@[simp] theorem setMeter_turns (s : State) (i : Nat) (m : Meter) : (setMeter s i m).turns = s.turns := rfl
@[simp] theorem setMeter_doorbell (s : State) (i : Nat) (m : Meter) : (setMeter s i m).doorbell = s.doorbell := rfl
@[simp] theorem setMeter_pageBad (s : State) (i : Nat) (m : Meter) : (setMeter s i m).pageBad = s.pageBad := rfl
@[simp] theorem setMeter_hostMem (s : State) (i : Nat) (m : Meter) : (setMeter s i m).hostMem = s.hostMem := rfl
@[simp] theorem setMeter_sent (s : State) (i : Nat) (m : Meter) : (setMeter s i m).sent = s.sent := rfl
@[simp] theorem setMeter_pending (s : State) (i : Nat) (m : Meter) : (setMeter s i m).pending = s.pending := rfl
@[simp] theorem setMeter_free (s : State) (i : Nat) (m : Meter) : (setMeter s i m).free = s.free := rfl
@[simp] theorem setMeter_meters (s : State) (i : Nat) (m : Meter) : (setMeter s i m).meters = mapSet meterReset s.meters i m :=
  rfl
@[simp] theorem setRoute_variant (s : State) (r : Nat) (x : RouteRun) : (setRoute s r x).variant = s.variant := rfl
@[simp] theorem setRoute_powered (s : State) (r : Nat) (x : RouteRun) : (setRoute s r x).powered = s.powered := rfl
@[simp] theorem setRoute_perstLow (s : State) (r : Nat) (x : RouteRun) : (setRoute s r x).perstLow = s.perstLow := rfl
@[simp] theorem setRoute_pcieUp (s : State) (r : Nat) (x : RouteRun) : (setRoute s r x).pcieUp = s.pcieUp := rfl
@[simp] theorem setRoute_pcie (s : State) (r : Nat) (x : RouteRun) : (setRoute s r x).pcie = s.pcie := rfl
@[simp] theorem setRoute_regs (s : State) (r : Nat) (x : RouteRun) : (setRoute s r x).regs = s.regs := rfl
@[simp] theorem setRoute_time (s : State) (r : Nat) (x : RouteRun) : (setRoute s r x).time = s.time := rfl
@[simp] theorem setRoute_grid (s : State) (r : Nat) (x : RouteRun) : (setRoute s r x).grid = s.grid := rfl
@[simp] theorem setRoute_loop (s : State) (r : Nat) (x : RouteRun) : (setRoute s r x).loop = s.loop := rfl
@[simp] theorem setRoute_collector (s : State) (r : Nat) (x : RouteRun) : (setRoute s r x).collector = s.collector :=
  rfl
@[simp] theorem setRoute_recorder (s : State) (r : Nat) (x : RouteRun) : (setRoute s r x).recorder = s.recorder := rfl
@[simp] theorem setRoute_ports (s : State) (r : Nat) (x : RouteRun) : (setRoute s r x).ports = s.ports := rfl
@[simp] theorem setRoute_gsram (s : State) (r : Nat) (x : RouteRun) : (setRoute s r x).gsram = s.gsram := rfl
@[simp] theorem setRoute_dram (s : State) (r : Nat) (x : RouteRun) : (setRoute s r x).dram = s.dram := rfl
@[simp] theorem setRoute_poison (s : State) (r : Nat) (x : RouteRun) : (setRoute s r x).poison = s.poison := rfl
@[simp] theorem setRoute_beads (s : State) (r : Nat) (x : RouteRun) : (setRoute s r x).beads = s.beads := rfl
@[simp] theorem setRoute_chans (s : State) (r : Nat) (x : RouteRun) : (setRoute s r x).chans = s.chans := rfl
@[simp] theorem setRoute_rx (s : State) (r : Nat) (x : RouteRun) : (setRoute s r x).rx = s.rx := rfl
@[simp] theorem setRoute_cs (s : State) (r : Nat) (x : RouteRun) : (setRoute s r x).cs = s.cs := rfl
@[simp] theorem setRoute_tx (s : State) (r : Nat) (x : RouteRun) : (setRoute s r x).tx = s.tx := rfl
@[simp] theorem setRoute_asrcLive (s : State) (r : Nat) (x : RouteRun) : (setRoute s r x).asrcLive = s.asrcLive := rfl
@[simp] theorem setRoute_params (s : State) (r : Nat) (x : RouteRun) : (setRoute s r x).params = s.params := rfl
@[simp] theorem setRoute_xps (s : State) (r : Nat) (x : RouteRun) : (setRoute s r x).xps = s.xps := rfl
@[simp] theorem setRoute_buses (s : State) (r : Nat) (x : RouteRun) : (setRoute s r x).buses = s.buses := rfl
@[simp] theorem setRoute_hpfs (s : State) (r : Nat) (x : RouteRun) : (setRoute s r x).hpfs = s.hpfs := rfl
@[simp] theorem setRoute_peaks (s : State) (r : Nat) (x : RouteRun) : (setRoute s r x).peaks = s.peaks := rfl
@[simp] theorem setRoute_fades (s : State) (r : Nat) (x : RouteRun) : (setRoute s r x).fades = s.fades := rfl
@[simp] theorem setRoute_routeWait (s : State) (r : Nat) (x : RouteRun) : (setRoute s r x).routeWait = s.routeWait :=
  rfl
@[simp] theorem setRoute_taps (s : State) (r : Nat) (x : RouteRun) : (setRoute s r x).taps = s.taps := rfl
@[simp] theorem setRoute_lines (s : State) (r : Nat) (x : RouteRun) : (setRoute s r x).lines = s.lines := rfl
@[simp] theorem setRoute_meters (s : State) (r : Nat) (x : RouteRun) : (setRoute s r x).meters = s.meters := rfl
@[simp] theorem setRoute_meterIndex (s : State) (r : Nat) (x : RouteRun) : (setRoute s r x).meterIndex = s.meterIndex :=
  rfl
@[simp] theorem setRoute_meterClears (s : State) (r : Nat) (x : RouteRun) : (setRoute s r x).meterClears = s.meterClears :=
  rfl
@[simp] theorem setRoute_rods (s : State) (r : Nat) (x : RouteRun) : (setRoute s r x).rods = s.rods := rfl
@[simp] theorem setRoute_frameMem (s : State) (r : Nat) (x : RouteRun) : (setRoute s r x).frameMem = s.frameMem := rfl
@[simp] theorem setRoute_banks (s : State) (r : Nat) (x : RouteRun) : (setRoute s r x).banks = s.banks := rfl
@[simp] theorem setRoute_loads (s : State) (r : Nat) (x : RouteRun) : (setRoute s r x).loads = s.loads := rfl
@[simp] theorem setRoute_nets (s : State) (r : Nat) (x : RouteRun) : (setRoute s r x).nets = s.nets := rfl
@[simp] theorem setRoute_posted (s : State) (r : Nat) (x : RouteRun) : (setRoute s r x).posted = s.posted := rfl
@[simp] theorem setRoute_strRx (s : State) (r : Nat) (x : RouteRun) : (setRoute s r x).strRx = s.strRx := rfl
@[simp] theorem setRoute_strTx (s : State) (r : Nat) (x : RouteRun) : (setRoute s r x).strTx = s.strTx := rfl
@[simp] theorem setRoute_supplied (s : State) (r : Nat) (x : RouteRun) : (setRoute s r x).supplied = s.supplied := rfl
@[simp] theorem setRoute_strClears (s : State) (r : Nat) (x : RouteRun) : (setRoute s r x).strClears = s.strClears :=
  rfl
@[simp] theorem setRoute_tallies (s : State) (r : Nat) (x : RouteRun) : (setRoute s r x).tallies = s.tallies := rfl
@[simp] theorem setRoute_snap (s : State) (r : Nat) (x : RouteRun) : (setRoute s r x).snap = s.snap := rfl
@[simp] theorem setRoute_barA (s : State) (r : Nat) (x : RouteRun) : (setRoute s r x).barA = s.barA := rfl
@[simp] theorem setRoute_barB (s : State) (r : Nat) (x : RouteRun) : (setRoute s r x).barB = s.barB := rfl
@[simp] theorem setRoute_dieA (s : State) (r : Nat) (x : RouteRun) : (setRoute s r x).dieA = s.dieA := rfl
@[simp] theorem setRoute_dieB (s : State) (r : Nat) (x : RouteRun) : (setRoute s r x).dieB = s.dieB := rfl
@[simp] theorem setRoute_chmapPrev (s : State) (r : Nat) (x : RouteRun) : (setRoute s r x).chmapPrev = s.chmapPrev :=
  rfl
@[simp] theorem setRoute_chmapPlay (s : State) (r : Nat) (x : RouteRun) : (setRoute s r x).chmapPlay = s.chmapPlay :=
  rfl
@[simp] theorem setRoute_stk (s : State) (r : Nat) (x : RouteRun) : (setRoute s r x).stk = s.stk := rfl
@[simp] theorem setRoute_mgt (s : State) (r : Nat) (x : RouteRun) : (setRoute s r x).mgt = s.mgt := rfl
@[simp] theorem setRoute_flash (s : State) (r : Nat) (x : RouteRun) : (setRoute s r x).flash = s.flash := rfl
@[simp] theorem setRoute_boot (s : State) (r : Nat) (x : RouteRun) : (setRoute s r x).boot = s.boot := rfl
@[simp] theorem setRoute_qps (s : State) (r : Nat) (x : RouteRun) : (setRoute s r x).qps = s.qps := rfl
@[simp] theorem setRoute_diags (s : State) (r : Nat) (x : RouteRun) : (setRoute s r x).diags = s.diags := rfl
@[simp] theorem setRoute_turns (s : State) (r : Nat) (x : RouteRun) : (setRoute s r x).turns = s.turns := rfl
@[simp] theorem setRoute_doorbell (s : State) (r : Nat) (x : RouteRun) : (setRoute s r x).doorbell = s.doorbell := rfl
@[simp] theorem setRoute_pageBad (s : State) (r : Nat) (x : RouteRun) : (setRoute s r x).pageBad = s.pageBad := rfl
@[simp] theorem setRoute_hostMem (s : State) (r : Nat) (x : RouteRun) : (setRoute s r x).hostMem = s.hostMem := rfl
@[simp] theorem setRoute_sent (s : State) (r : Nat) (x : RouteRun) : (setRoute s r x).sent = s.sent := rfl
@[simp] theorem setRoute_pending (s : State) (r : Nat) (x : RouteRun) : (setRoute s r x).pending = s.pending := rfl
@[simp] theorem setRoute_free (s : State) (r : Nat) (x : RouteRun) : (setRoute s r x).free = s.free := rfl
@[simp] theorem setRoute_routes (s : State) (r : Nat) (x : RouteRun) : (setRoute s r x).routes = mapSet routeReset s.routes r x :=
  rfl
@[simp] theorem setNet_variant (s : State) (p : Nat) (x : NetPort) : (setNet s p x).variant = s.variant := rfl
@[simp] theorem setNet_powered (s : State) (p : Nat) (x : NetPort) : (setNet s p x).powered = s.powered := rfl
@[simp] theorem setNet_perstLow (s : State) (p : Nat) (x : NetPort) : (setNet s p x).perstLow = s.perstLow := rfl
@[simp] theorem setNet_pcieUp (s : State) (p : Nat) (x : NetPort) : (setNet s p x).pcieUp = s.pcieUp := rfl
@[simp] theorem setNet_pcie (s : State) (p : Nat) (x : NetPort) : (setNet s p x).pcie = s.pcie := rfl
@[simp] theorem setNet_regs (s : State) (p : Nat) (x : NetPort) : (setNet s p x).regs = s.regs := rfl
@[simp] theorem setNet_time (s : State) (p : Nat) (x : NetPort) : (setNet s p x).time = s.time := rfl
@[simp] theorem setNet_grid (s : State) (p : Nat) (x : NetPort) : (setNet s p x).grid = s.grid := rfl
@[simp] theorem setNet_loop (s : State) (p : Nat) (x : NetPort) : (setNet s p x).loop = s.loop := rfl
@[simp] theorem setNet_collector (s : State) (p : Nat) (x : NetPort) : (setNet s p x).collector = s.collector := rfl
@[simp] theorem setNet_recorder (s : State) (p : Nat) (x : NetPort) : (setNet s p x).recorder = s.recorder := rfl
@[simp] theorem setNet_ports (s : State) (p : Nat) (x : NetPort) : (setNet s p x).ports = s.ports := rfl
@[simp] theorem setNet_gsram (s : State) (p : Nat) (x : NetPort) : (setNet s p x).gsram = s.gsram := rfl
@[simp] theorem setNet_dram (s : State) (p : Nat) (x : NetPort) : (setNet s p x).dram = s.dram := rfl
@[simp] theorem setNet_poison (s : State) (p : Nat) (x : NetPort) : (setNet s p x).poison = s.poison := rfl
@[simp] theorem setNet_beads (s : State) (p : Nat) (x : NetPort) : (setNet s p x).beads = s.beads := rfl
@[simp] theorem setNet_chans (s : State) (p : Nat) (x : NetPort) : (setNet s p x).chans = s.chans := rfl
@[simp] theorem setNet_rx (s : State) (p : Nat) (x : NetPort) : (setNet s p x).rx = s.rx := rfl
@[simp] theorem setNet_cs (s : State) (p : Nat) (x : NetPort) : (setNet s p x).cs = s.cs := rfl
@[simp] theorem setNet_tx (s : State) (p : Nat) (x : NetPort) : (setNet s p x).tx = s.tx := rfl
@[simp] theorem setNet_asrcLive (s : State) (p : Nat) (x : NetPort) : (setNet s p x).asrcLive = s.asrcLive := rfl
@[simp] theorem setNet_params (s : State) (p : Nat) (x : NetPort) : (setNet s p x).params = s.params := rfl
@[simp] theorem setNet_xps (s : State) (p : Nat) (x : NetPort) : (setNet s p x).xps = s.xps := rfl
@[simp] theorem setNet_buses (s : State) (p : Nat) (x : NetPort) : (setNet s p x).buses = s.buses := rfl
@[simp] theorem setNet_hpfs (s : State) (p : Nat) (x : NetPort) : (setNet s p x).hpfs = s.hpfs := rfl
@[simp] theorem setNet_peaks (s : State) (p : Nat) (x : NetPort) : (setNet s p x).peaks = s.peaks := rfl
@[simp] theorem setNet_routes (s : State) (p : Nat) (x : NetPort) : (setNet s p x).routes = s.routes := rfl
@[simp] theorem setNet_fades (s : State) (p : Nat) (x : NetPort) : (setNet s p x).fades = s.fades := rfl
@[simp] theorem setNet_routeWait (s : State) (p : Nat) (x : NetPort) : (setNet s p x).routeWait = s.routeWait := rfl
@[simp] theorem setNet_taps (s : State) (p : Nat) (x : NetPort) : (setNet s p x).taps = s.taps := rfl
@[simp] theorem setNet_lines (s : State) (p : Nat) (x : NetPort) : (setNet s p x).lines = s.lines := rfl
@[simp] theorem setNet_meters (s : State) (p : Nat) (x : NetPort) : (setNet s p x).meters = s.meters := rfl
@[simp] theorem setNet_meterIndex (s : State) (p : Nat) (x : NetPort) : (setNet s p x).meterIndex = s.meterIndex := rfl
@[simp] theorem setNet_meterClears (s : State) (p : Nat) (x : NetPort) : (setNet s p x).meterClears = s.meterClears :=
  rfl
@[simp] theorem setNet_rods (s : State) (p : Nat) (x : NetPort) : (setNet s p x).rods = s.rods := rfl
@[simp] theorem setNet_frameMem (s : State) (p : Nat) (x : NetPort) : (setNet s p x).frameMem = s.frameMem := rfl
@[simp] theorem setNet_banks (s : State) (p : Nat) (x : NetPort) : (setNet s p x).banks = s.banks := rfl
@[simp] theorem setNet_loads (s : State) (p : Nat) (x : NetPort) : (setNet s p x).loads = s.loads := rfl
@[simp] theorem setNet_posted (s : State) (p : Nat) (x : NetPort) : (setNet s p x).posted = s.posted := rfl
@[simp] theorem setNet_strRx (s : State) (p : Nat) (x : NetPort) : (setNet s p x).strRx = s.strRx := rfl
@[simp] theorem setNet_strTx (s : State) (p : Nat) (x : NetPort) : (setNet s p x).strTx = s.strTx := rfl
@[simp] theorem setNet_supplied (s : State) (p : Nat) (x : NetPort) : (setNet s p x).supplied = s.supplied := rfl
@[simp] theorem setNet_strClears (s : State) (p : Nat) (x : NetPort) : (setNet s p x).strClears = s.strClears := rfl
@[simp] theorem setNet_tallies (s : State) (p : Nat) (x : NetPort) : (setNet s p x).tallies = s.tallies := rfl
@[simp] theorem setNet_snap (s : State) (p : Nat) (x : NetPort) : (setNet s p x).snap = s.snap := rfl
@[simp] theorem setNet_barA (s : State) (p : Nat) (x : NetPort) : (setNet s p x).barA = s.barA := rfl
@[simp] theorem setNet_barB (s : State) (p : Nat) (x : NetPort) : (setNet s p x).barB = s.barB := rfl
@[simp] theorem setNet_dieA (s : State) (p : Nat) (x : NetPort) : (setNet s p x).dieA = s.dieA := rfl
@[simp] theorem setNet_dieB (s : State) (p : Nat) (x : NetPort) : (setNet s p x).dieB = s.dieB := rfl
@[simp] theorem setNet_chmapPrev (s : State) (p : Nat) (x : NetPort) : (setNet s p x).chmapPrev = s.chmapPrev := rfl
@[simp] theorem setNet_chmapPlay (s : State) (p : Nat) (x : NetPort) : (setNet s p x).chmapPlay = s.chmapPlay := rfl
@[simp] theorem setNet_stk (s : State) (p : Nat) (x : NetPort) : (setNet s p x).stk = s.stk := rfl
@[simp] theorem setNet_mgt (s : State) (p : Nat) (x : NetPort) : (setNet s p x).mgt = s.mgt := rfl
@[simp] theorem setNet_flash (s : State) (p : Nat) (x : NetPort) : (setNet s p x).flash = s.flash := rfl
@[simp] theorem setNet_boot (s : State) (p : Nat) (x : NetPort) : (setNet s p x).boot = s.boot := rfl
@[simp] theorem setNet_qps (s : State) (p : Nat) (x : NetPort) : (setNet s p x).qps = s.qps := rfl
@[simp] theorem setNet_diags (s : State) (p : Nat) (x : NetPort) : (setNet s p x).diags = s.diags := rfl
@[simp] theorem setNet_turns (s : State) (p : Nat) (x : NetPort) : (setNet s p x).turns = s.turns := rfl
@[simp] theorem setNet_doorbell (s : State) (p : Nat) (x : NetPort) : (setNet s p x).doorbell = s.doorbell := rfl
@[simp] theorem setNet_pageBad (s : State) (p : Nat) (x : NetPort) : (setNet s p x).pageBad = s.pageBad := rfl
@[simp] theorem setNet_hostMem (s : State) (p : Nat) (x : NetPort) : (setNet s p x).hostMem = s.hostMem := rfl
@[simp] theorem setNet_sent (s : State) (p : Nat) (x : NetPort) : (setNet s p x).sent = s.sent := rfl
@[simp] theorem setNet_pending (s : State) (p : Nat) (x : NetPort) : (setNet s p x).pending = s.pending := rfl
@[simp] theorem setNet_free (s : State) (p : Nat) (x : NetPort) : (setNet s p x).free = s.free := rfl
@[simp] theorem setNet_nets (s : State) (p : Nat) (x : NetPort) : (setNet s p x).nets = mapSet netReset s.nets p x :=
  rfl
@[simp] theorem setStrRx_variant (s : State) (r : Nat) (x : StrRx) : (setStrRx s r x).variant = s.variant := rfl
@[simp] theorem setStrRx_powered (s : State) (r : Nat) (x : StrRx) : (setStrRx s r x).powered = s.powered := rfl
@[simp] theorem setStrRx_perstLow (s : State) (r : Nat) (x : StrRx) : (setStrRx s r x).perstLow = s.perstLow := rfl
@[simp] theorem setStrRx_pcieUp (s : State) (r : Nat) (x : StrRx) : (setStrRx s r x).pcieUp = s.pcieUp := rfl
@[simp] theorem setStrRx_pcie (s : State) (r : Nat) (x : StrRx) : (setStrRx s r x).pcie = s.pcie := rfl
@[simp] theorem setStrRx_regs (s : State) (r : Nat) (x : StrRx) : (setStrRx s r x).regs = s.regs := rfl
@[simp] theorem setStrRx_time (s : State) (r : Nat) (x : StrRx) : (setStrRx s r x).time = s.time := rfl
@[simp] theorem setStrRx_grid (s : State) (r : Nat) (x : StrRx) : (setStrRx s r x).grid = s.grid := rfl
@[simp] theorem setStrRx_loop (s : State) (r : Nat) (x : StrRx) : (setStrRx s r x).loop = s.loop := rfl
@[simp] theorem setStrRx_collector (s : State) (r : Nat) (x : StrRx) : (setStrRx s r x).collector = s.collector := rfl
@[simp] theorem setStrRx_recorder (s : State) (r : Nat) (x : StrRx) : (setStrRx s r x).recorder = s.recorder := rfl
@[simp] theorem setStrRx_ports (s : State) (r : Nat) (x : StrRx) : (setStrRx s r x).ports = s.ports := rfl
@[simp] theorem setStrRx_gsram (s : State) (r : Nat) (x : StrRx) : (setStrRx s r x).gsram = s.gsram := rfl
@[simp] theorem setStrRx_dram (s : State) (r : Nat) (x : StrRx) : (setStrRx s r x).dram = s.dram := rfl
@[simp] theorem setStrRx_poison (s : State) (r : Nat) (x : StrRx) : (setStrRx s r x).poison = s.poison := rfl
@[simp] theorem setStrRx_beads (s : State) (r : Nat) (x : StrRx) : (setStrRx s r x).beads = s.beads := rfl
@[simp] theorem setStrRx_chans (s : State) (r : Nat) (x : StrRx) : (setStrRx s r x).chans = s.chans := rfl
@[simp] theorem setStrRx_rx (s : State) (r : Nat) (x : StrRx) : (setStrRx s r x).rx = s.rx := rfl
@[simp] theorem setStrRx_cs (s : State) (r : Nat) (x : StrRx) : (setStrRx s r x).cs = s.cs := rfl
@[simp] theorem setStrRx_tx (s : State) (r : Nat) (x : StrRx) : (setStrRx s r x).tx = s.tx := rfl
@[simp] theorem setStrRx_asrcLive (s : State) (r : Nat) (x : StrRx) : (setStrRx s r x).asrcLive = s.asrcLive := rfl
@[simp] theorem setStrRx_params (s : State) (r : Nat) (x : StrRx) : (setStrRx s r x).params = s.params := rfl
@[simp] theorem setStrRx_xps (s : State) (r : Nat) (x : StrRx) : (setStrRx s r x).xps = s.xps := rfl
@[simp] theorem setStrRx_buses (s : State) (r : Nat) (x : StrRx) : (setStrRx s r x).buses = s.buses := rfl
@[simp] theorem setStrRx_hpfs (s : State) (r : Nat) (x : StrRx) : (setStrRx s r x).hpfs = s.hpfs := rfl
@[simp] theorem setStrRx_peaks (s : State) (r : Nat) (x : StrRx) : (setStrRx s r x).peaks = s.peaks := rfl
@[simp] theorem setStrRx_routes (s : State) (r : Nat) (x : StrRx) : (setStrRx s r x).routes = s.routes := rfl
@[simp] theorem setStrRx_fades (s : State) (r : Nat) (x : StrRx) : (setStrRx s r x).fades = s.fades := rfl
@[simp] theorem setStrRx_routeWait (s : State) (r : Nat) (x : StrRx) : (setStrRx s r x).routeWait = s.routeWait := rfl
@[simp] theorem setStrRx_taps (s : State) (r : Nat) (x : StrRx) : (setStrRx s r x).taps = s.taps := rfl
@[simp] theorem setStrRx_lines (s : State) (r : Nat) (x : StrRx) : (setStrRx s r x).lines = s.lines := rfl
@[simp] theorem setStrRx_meters (s : State) (r : Nat) (x : StrRx) : (setStrRx s r x).meters = s.meters := rfl
@[simp] theorem setStrRx_meterIndex (s : State) (r : Nat) (x : StrRx) : (setStrRx s r x).meterIndex = s.meterIndex :=
  rfl
@[simp] theorem setStrRx_meterClears (s : State) (r : Nat) (x : StrRx) : (setStrRx s r x).meterClears = s.meterClears :=
  rfl
@[simp] theorem setStrRx_rods (s : State) (r : Nat) (x : StrRx) : (setStrRx s r x).rods = s.rods := rfl
@[simp] theorem setStrRx_frameMem (s : State) (r : Nat) (x : StrRx) : (setStrRx s r x).frameMem = s.frameMem := rfl
@[simp] theorem setStrRx_banks (s : State) (r : Nat) (x : StrRx) : (setStrRx s r x).banks = s.banks := rfl
@[simp] theorem setStrRx_loads (s : State) (r : Nat) (x : StrRx) : (setStrRx s r x).loads = s.loads := rfl
@[simp] theorem setStrRx_nets (s : State) (r : Nat) (x : StrRx) : (setStrRx s r x).nets = s.nets := rfl
@[simp] theorem setStrRx_posted (s : State) (r : Nat) (x : StrRx) : (setStrRx s r x).posted = s.posted := rfl
@[simp] theorem setStrRx_strTx (s : State) (r : Nat) (x : StrRx) : (setStrRx s r x).strTx = s.strTx := rfl
@[simp] theorem setStrRx_supplied (s : State) (r : Nat) (x : StrRx) : (setStrRx s r x).supplied = s.supplied := rfl
@[simp] theorem setStrRx_strClears (s : State) (r : Nat) (x : StrRx) : (setStrRx s r x).strClears = s.strClears := rfl
@[simp] theorem setStrRx_tallies (s : State) (r : Nat) (x : StrRx) : (setStrRx s r x).tallies = s.tallies := rfl
@[simp] theorem setStrRx_snap (s : State) (r : Nat) (x : StrRx) : (setStrRx s r x).snap = s.snap := rfl
@[simp] theorem setStrRx_barA (s : State) (r : Nat) (x : StrRx) : (setStrRx s r x).barA = s.barA := rfl
@[simp] theorem setStrRx_barB (s : State) (r : Nat) (x : StrRx) : (setStrRx s r x).barB = s.barB := rfl
@[simp] theorem setStrRx_dieA (s : State) (r : Nat) (x : StrRx) : (setStrRx s r x).dieA = s.dieA := rfl
@[simp] theorem setStrRx_dieB (s : State) (r : Nat) (x : StrRx) : (setStrRx s r x).dieB = s.dieB := rfl
@[simp] theorem setStrRx_chmapPrev (s : State) (r : Nat) (x : StrRx) : (setStrRx s r x).chmapPrev = s.chmapPrev := rfl
@[simp] theorem setStrRx_chmapPlay (s : State) (r : Nat) (x : StrRx) : (setStrRx s r x).chmapPlay = s.chmapPlay := rfl
@[simp] theorem setStrRx_stk (s : State) (r : Nat) (x : StrRx) : (setStrRx s r x).stk = s.stk := rfl
@[simp] theorem setStrRx_mgt (s : State) (r : Nat) (x : StrRx) : (setStrRx s r x).mgt = s.mgt := rfl
@[simp] theorem setStrRx_flash (s : State) (r : Nat) (x : StrRx) : (setStrRx s r x).flash = s.flash := rfl
@[simp] theorem setStrRx_boot (s : State) (r : Nat) (x : StrRx) : (setStrRx s r x).boot = s.boot := rfl
@[simp] theorem setStrRx_qps (s : State) (r : Nat) (x : StrRx) : (setStrRx s r x).qps = s.qps := rfl
@[simp] theorem setStrRx_diags (s : State) (r : Nat) (x : StrRx) : (setStrRx s r x).diags = s.diags := rfl
@[simp] theorem setStrRx_turns (s : State) (r : Nat) (x : StrRx) : (setStrRx s r x).turns = s.turns := rfl
@[simp] theorem setStrRx_doorbell (s : State) (r : Nat) (x : StrRx) : (setStrRx s r x).doorbell = s.doorbell := rfl
@[simp] theorem setStrRx_pageBad (s : State) (r : Nat) (x : StrRx) : (setStrRx s r x).pageBad = s.pageBad := rfl
@[simp] theorem setStrRx_hostMem (s : State) (r : Nat) (x : StrRx) : (setStrRx s r x).hostMem = s.hostMem := rfl
@[simp] theorem setStrRx_sent (s : State) (r : Nat) (x : StrRx) : (setStrRx s r x).sent = s.sent := rfl
@[simp] theorem setStrRx_pending (s : State) (r : Nat) (x : StrRx) : (setStrRx s r x).pending = s.pending := rfl
@[simp] theorem setStrRx_free (s : State) (r : Nat) (x : StrRx) : (setStrRx s r x).free = s.free := rfl
@[simp] theorem setStrRx_strRx (s : State) (r : Nat) (x : StrRx) : (setStrRx s r x).strRx = mapSet strRxReset s.strRx r x :=
  rfl
@[simp] theorem setStrTx_variant (s : State) (t : Nat) (x : StrTx) : (setStrTx s t x).variant = s.variant := rfl
@[simp] theorem setStrTx_powered (s : State) (t : Nat) (x : StrTx) : (setStrTx s t x).powered = s.powered := rfl
@[simp] theorem setStrTx_perstLow (s : State) (t : Nat) (x : StrTx) : (setStrTx s t x).perstLow = s.perstLow := rfl
@[simp] theorem setStrTx_pcieUp (s : State) (t : Nat) (x : StrTx) : (setStrTx s t x).pcieUp = s.pcieUp := rfl
@[simp] theorem setStrTx_pcie (s : State) (t : Nat) (x : StrTx) : (setStrTx s t x).pcie = s.pcie := rfl
@[simp] theorem setStrTx_regs (s : State) (t : Nat) (x : StrTx) : (setStrTx s t x).regs = s.regs := rfl
@[simp] theorem setStrTx_time (s : State) (t : Nat) (x : StrTx) : (setStrTx s t x).time = s.time := rfl
@[simp] theorem setStrTx_grid (s : State) (t : Nat) (x : StrTx) : (setStrTx s t x).grid = s.grid := rfl
@[simp] theorem setStrTx_loop (s : State) (t : Nat) (x : StrTx) : (setStrTx s t x).loop = s.loop := rfl
@[simp] theorem setStrTx_collector (s : State) (t : Nat) (x : StrTx) : (setStrTx s t x).collector = s.collector := rfl
@[simp] theorem setStrTx_recorder (s : State) (t : Nat) (x : StrTx) : (setStrTx s t x).recorder = s.recorder := rfl
@[simp] theorem setStrTx_ports (s : State) (t : Nat) (x : StrTx) : (setStrTx s t x).ports = s.ports := rfl
@[simp] theorem setStrTx_gsram (s : State) (t : Nat) (x : StrTx) : (setStrTx s t x).gsram = s.gsram := rfl
@[simp] theorem setStrTx_dram (s : State) (t : Nat) (x : StrTx) : (setStrTx s t x).dram = s.dram := rfl
@[simp] theorem setStrTx_poison (s : State) (t : Nat) (x : StrTx) : (setStrTx s t x).poison = s.poison := rfl
@[simp] theorem setStrTx_beads (s : State) (t : Nat) (x : StrTx) : (setStrTx s t x).beads = s.beads := rfl
@[simp] theorem setStrTx_chans (s : State) (t : Nat) (x : StrTx) : (setStrTx s t x).chans = s.chans := rfl
@[simp] theorem setStrTx_rx (s : State) (t : Nat) (x : StrTx) : (setStrTx s t x).rx = s.rx := rfl
@[simp] theorem setStrTx_cs (s : State) (t : Nat) (x : StrTx) : (setStrTx s t x).cs = s.cs := rfl
@[simp] theorem setStrTx_tx (s : State) (t : Nat) (x : StrTx) : (setStrTx s t x).tx = s.tx := rfl
@[simp] theorem setStrTx_asrcLive (s : State) (t : Nat) (x : StrTx) : (setStrTx s t x).asrcLive = s.asrcLive := rfl
@[simp] theorem setStrTx_params (s : State) (t : Nat) (x : StrTx) : (setStrTx s t x).params = s.params := rfl
@[simp] theorem setStrTx_xps (s : State) (t : Nat) (x : StrTx) : (setStrTx s t x).xps = s.xps := rfl
@[simp] theorem setStrTx_buses (s : State) (t : Nat) (x : StrTx) : (setStrTx s t x).buses = s.buses := rfl
@[simp] theorem setStrTx_hpfs (s : State) (t : Nat) (x : StrTx) : (setStrTx s t x).hpfs = s.hpfs := rfl
@[simp] theorem setStrTx_peaks (s : State) (t : Nat) (x : StrTx) : (setStrTx s t x).peaks = s.peaks := rfl
@[simp] theorem setStrTx_routes (s : State) (t : Nat) (x : StrTx) : (setStrTx s t x).routes = s.routes := rfl
@[simp] theorem setStrTx_fades (s : State) (t : Nat) (x : StrTx) : (setStrTx s t x).fades = s.fades := rfl
@[simp] theorem setStrTx_routeWait (s : State) (t : Nat) (x : StrTx) : (setStrTx s t x).routeWait = s.routeWait := rfl
@[simp] theorem setStrTx_taps (s : State) (t : Nat) (x : StrTx) : (setStrTx s t x).taps = s.taps := rfl
@[simp] theorem setStrTx_lines (s : State) (t : Nat) (x : StrTx) : (setStrTx s t x).lines = s.lines := rfl
@[simp] theorem setStrTx_meters (s : State) (t : Nat) (x : StrTx) : (setStrTx s t x).meters = s.meters := rfl
@[simp] theorem setStrTx_meterIndex (s : State) (t : Nat) (x : StrTx) : (setStrTx s t x).meterIndex = s.meterIndex :=
  rfl
@[simp] theorem setStrTx_meterClears (s : State) (t : Nat) (x : StrTx) : (setStrTx s t x).meterClears = s.meterClears :=
  rfl
@[simp] theorem setStrTx_rods (s : State) (t : Nat) (x : StrTx) : (setStrTx s t x).rods = s.rods := rfl
@[simp] theorem setStrTx_frameMem (s : State) (t : Nat) (x : StrTx) : (setStrTx s t x).frameMem = s.frameMem := rfl
@[simp] theorem setStrTx_banks (s : State) (t : Nat) (x : StrTx) : (setStrTx s t x).banks = s.banks := rfl
@[simp] theorem setStrTx_loads (s : State) (t : Nat) (x : StrTx) : (setStrTx s t x).loads = s.loads := rfl
@[simp] theorem setStrTx_nets (s : State) (t : Nat) (x : StrTx) : (setStrTx s t x).nets = s.nets := rfl
@[simp] theorem setStrTx_posted (s : State) (t : Nat) (x : StrTx) : (setStrTx s t x).posted = s.posted := rfl
@[simp] theorem setStrTx_strRx (s : State) (t : Nat) (x : StrTx) : (setStrTx s t x).strRx = s.strRx := rfl
@[simp] theorem setStrTx_supplied (s : State) (t : Nat) (x : StrTx) : (setStrTx s t x).supplied = s.supplied := rfl
@[simp] theorem setStrTx_strClears (s : State) (t : Nat) (x : StrTx) : (setStrTx s t x).strClears = s.strClears := rfl
@[simp] theorem setStrTx_tallies (s : State) (t : Nat) (x : StrTx) : (setStrTx s t x).tallies = s.tallies := rfl
@[simp] theorem setStrTx_snap (s : State) (t : Nat) (x : StrTx) : (setStrTx s t x).snap = s.snap := rfl
@[simp] theorem setStrTx_barA (s : State) (t : Nat) (x : StrTx) : (setStrTx s t x).barA = s.barA := rfl
@[simp] theorem setStrTx_barB (s : State) (t : Nat) (x : StrTx) : (setStrTx s t x).barB = s.barB := rfl
@[simp] theorem setStrTx_dieA (s : State) (t : Nat) (x : StrTx) : (setStrTx s t x).dieA = s.dieA := rfl
@[simp] theorem setStrTx_dieB (s : State) (t : Nat) (x : StrTx) : (setStrTx s t x).dieB = s.dieB := rfl
@[simp] theorem setStrTx_chmapPrev (s : State) (t : Nat) (x : StrTx) : (setStrTx s t x).chmapPrev = s.chmapPrev := rfl
@[simp] theorem setStrTx_chmapPlay (s : State) (t : Nat) (x : StrTx) : (setStrTx s t x).chmapPlay = s.chmapPlay := rfl
@[simp] theorem setStrTx_stk (s : State) (t : Nat) (x : StrTx) : (setStrTx s t x).stk = s.stk := rfl
@[simp] theorem setStrTx_mgt (s : State) (t : Nat) (x : StrTx) : (setStrTx s t x).mgt = s.mgt := rfl
@[simp] theorem setStrTx_flash (s : State) (t : Nat) (x : StrTx) : (setStrTx s t x).flash = s.flash := rfl
@[simp] theorem setStrTx_boot (s : State) (t : Nat) (x : StrTx) : (setStrTx s t x).boot = s.boot := rfl
@[simp] theorem setStrTx_qps (s : State) (t : Nat) (x : StrTx) : (setStrTx s t x).qps = s.qps := rfl
@[simp] theorem setStrTx_diags (s : State) (t : Nat) (x : StrTx) : (setStrTx s t x).diags = s.diags := rfl
@[simp] theorem setStrTx_turns (s : State) (t : Nat) (x : StrTx) : (setStrTx s t x).turns = s.turns := rfl
@[simp] theorem setStrTx_doorbell (s : State) (t : Nat) (x : StrTx) : (setStrTx s t x).doorbell = s.doorbell := rfl
@[simp] theorem setStrTx_pageBad (s : State) (t : Nat) (x : StrTx) : (setStrTx s t x).pageBad = s.pageBad := rfl
@[simp] theorem setStrTx_hostMem (s : State) (t : Nat) (x : StrTx) : (setStrTx s t x).hostMem = s.hostMem := rfl
@[simp] theorem setStrTx_sent (s : State) (t : Nat) (x : StrTx) : (setStrTx s t x).sent = s.sent := rfl
@[simp] theorem setStrTx_pending (s : State) (t : Nat) (x : StrTx) : (setStrTx s t x).pending = s.pending := rfl
@[simp] theorem setStrTx_free (s : State) (t : Nat) (x : StrTx) : (setStrTx s t x).free = s.free := rfl
@[simp] theorem setStrTx_strTx (s : State) (t : Nat) (x : StrTx) : (setStrTx s t x).strTx = mapSet strTxReset s.strTx t x :=
  rfl
@[simp] theorem setRx_variant (s : State) (p : Nat) (x : RxPort) : (setRx s p x).variant = s.variant := rfl
@[simp] theorem setRx_powered (s : State) (p : Nat) (x : RxPort) : (setRx s p x).powered = s.powered := rfl
@[simp] theorem setRx_perstLow (s : State) (p : Nat) (x : RxPort) : (setRx s p x).perstLow = s.perstLow := rfl
@[simp] theorem setRx_pcieUp (s : State) (p : Nat) (x : RxPort) : (setRx s p x).pcieUp = s.pcieUp := rfl
@[simp] theorem setRx_pcie (s : State) (p : Nat) (x : RxPort) : (setRx s p x).pcie = s.pcie := rfl
@[simp] theorem setRx_regs (s : State) (p : Nat) (x : RxPort) : (setRx s p x).regs = s.regs := rfl
@[simp] theorem setRx_time (s : State) (p : Nat) (x : RxPort) : (setRx s p x).time = s.time := rfl
@[simp] theorem setRx_grid (s : State) (p : Nat) (x : RxPort) : (setRx s p x).grid = s.grid := rfl
@[simp] theorem setRx_loop (s : State) (p : Nat) (x : RxPort) : (setRx s p x).loop = s.loop := rfl
@[simp] theorem setRx_collector (s : State) (p : Nat) (x : RxPort) : (setRx s p x).collector = s.collector := rfl
@[simp] theorem setRx_recorder (s : State) (p : Nat) (x : RxPort) : (setRx s p x).recorder = s.recorder := rfl
@[simp] theorem setRx_ports (s : State) (p : Nat) (x : RxPort) : (setRx s p x).ports = s.ports := rfl
@[simp] theorem setRx_gsram (s : State) (p : Nat) (x : RxPort) : (setRx s p x).gsram = s.gsram := rfl
@[simp] theorem setRx_dram (s : State) (p : Nat) (x : RxPort) : (setRx s p x).dram = s.dram := rfl
@[simp] theorem setRx_poison (s : State) (p : Nat) (x : RxPort) : (setRx s p x).poison = s.poison := rfl
@[simp] theorem setRx_beads (s : State) (p : Nat) (x : RxPort) : (setRx s p x).beads = s.beads := rfl
@[simp] theorem setRx_chans (s : State) (p : Nat) (x : RxPort) : (setRx s p x).chans = s.chans := rfl
@[simp] theorem setRx_cs (s : State) (p : Nat) (x : RxPort) : (setRx s p x).cs = s.cs := rfl
@[simp] theorem setRx_tx (s : State) (p : Nat) (x : RxPort) : (setRx s p x).tx = s.tx := rfl
@[simp] theorem setRx_asrcLive (s : State) (p : Nat) (x : RxPort) : (setRx s p x).asrcLive = s.asrcLive := rfl
@[simp] theorem setRx_params (s : State) (p : Nat) (x : RxPort) : (setRx s p x).params = s.params := rfl
@[simp] theorem setRx_xps (s : State) (p : Nat) (x : RxPort) : (setRx s p x).xps = s.xps := rfl
@[simp] theorem setRx_buses (s : State) (p : Nat) (x : RxPort) : (setRx s p x).buses = s.buses := rfl
@[simp] theorem setRx_hpfs (s : State) (p : Nat) (x : RxPort) : (setRx s p x).hpfs = s.hpfs := rfl
@[simp] theorem setRx_peaks (s : State) (p : Nat) (x : RxPort) : (setRx s p x).peaks = s.peaks := rfl
@[simp] theorem setRx_routes (s : State) (p : Nat) (x : RxPort) : (setRx s p x).routes = s.routes := rfl
@[simp] theorem setRx_fades (s : State) (p : Nat) (x : RxPort) : (setRx s p x).fades = s.fades := rfl
@[simp] theorem setRx_routeWait (s : State) (p : Nat) (x : RxPort) : (setRx s p x).routeWait = s.routeWait := rfl
@[simp] theorem setRx_taps (s : State) (p : Nat) (x : RxPort) : (setRx s p x).taps = s.taps := rfl
@[simp] theorem setRx_lines (s : State) (p : Nat) (x : RxPort) : (setRx s p x).lines = s.lines := rfl
@[simp] theorem setRx_meters (s : State) (p : Nat) (x : RxPort) : (setRx s p x).meters = s.meters := rfl
@[simp] theorem setRx_meterIndex (s : State) (p : Nat) (x : RxPort) : (setRx s p x).meterIndex = s.meterIndex := rfl
@[simp] theorem setRx_meterClears (s : State) (p : Nat) (x : RxPort) : (setRx s p x).meterClears = s.meterClears := rfl
@[simp] theorem setRx_rods (s : State) (p : Nat) (x : RxPort) : (setRx s p x).rods = s.rods := rfl
@[simp] theorem setRx_frameMem (s : State) (p : Nat) (x : RxPort) : (setRx s p x).frameMem = s.frameMem := rfl
@[simp] theorem setRx_banks (s : State) (p : Nat) (x : RxPort) : (setRx s p x).banks = s.banks := rfl
@[simp] theorem setRx_loads (s : State) (p : Nat) (x : RxPort) : (setRx s p x).loads = s.loads := rfl
@[simp] theorem setRx_nets (s : State) (p : Nat) (x : RxPort) : (setRx s p x).nets = s.nets := rfl
@[simp] theorem setRx_posted (s : State) (p : Nat) (x : RxPort) : (setRx s p x).posted = s.posted := rfl
@[simp] theorem setRx_strRx (s : State) (p : Nat) (x : RxPort) : (setRx s p x).strRx = s.strRx := rfl
@[simp] theorem setRx_strTx (s : State) (p : Nat) (x : RxPort) : (setRx s p x).strTx = s.strTx := rfl
@[simp] theorem setRx_supplied (s : State) (p : Nat) (x : RxPort) : (setRx s p x).supplied = s.supplied := rfl
@[simp] theorem setRx_strClears (s : State) (p : Nat) (x : RxPort) : (setRx s p x).strClears = s.strClears := rfl
@[simp] theorem setRx_tallies (s : State) (p : Nat) (x : RxPort) : (setRx s p x).tallies = s.tallies := rfl
@[simp] theorem setRx_snap (s : State) (p : Nat) (x : RxPort) : (setRx s p x).snap = s.snap := rfl
@[simp] theorem setRx_barA (s : State) (p : Nat) (x : RxPort) : (setRx s p x).barA = s.barA := rfl
@[simp] theorem setRx_barB (s : State) (p : Nat) (x : RxPort) : (setRx s p x).barB = s.barB := rfl
@[simp] theorem setRx_dieA (s : State) (p : Nat) (x : RxPort) : (setRx s p x).dieA = s.dieA := rfl
@[simp] theorem setRx_dieB (s : State) (p : Nat) (x : RxPort) : (setRx s p x).dieB = s.dieB := rfl
@[simp] theorem setRx_chmapPrev (s : State) (p : Nat) (x : RxPort) : (setRx s p x).chmapPrev = s.chmapPrev := rfl
@[simp] theorem setRx_chmapPlay (s : State) (p : Nat) (x : RxPort) : (setRx s p x).chmapPlay = s.chmapPlay := rfl
@[simp] theorem setRx_stk (s : State) (p : Nat) (x : RxPort) : (setRx s p x).stk = s.stk := rfl
@[simp] theorem setRx_mgt (s : State) (p : Nat) (x : RxPort) : (setRx s p x).mgt = s.mgt := rfl
@[simp] theorem setRx_flash (s : State) (p : Nat) (x : RxPort) : (setRx s p x).flash = s.flash := rfl
@[simp] theorem setRx_boot (s : State) (p : Nat) (x : RxPort) : (setRx s p x).boot = s.boot := rfl
@[simp] theorem setRx_qps (s : State) (p : Nat) (x : RxPort) : (setRx s p x).qps = s.qps := rfl
@[simp] theorem setRx_diags (s : State) (p : Nat) (x : RxPort) : (setRx s p x).diags = s.diags := rfl
@[simp] theorem setRx_turns (s : State) (p : Nat) (x : RxPort) : (setRx s p x).turns = s.turns := rfl
@[simp] theorem setRx_doorbell (s : State) (p : Nat) (x : RxPort) : (setRx s p x).doorbell = s.doorbell := rfl
@[simp] theorem setRx_pageBad (s : State) (p : Nat) (x : RxPort) : (setRx s p x).pageBad = s.pageBad := rfl
@[simp] theorem setRx_hostMem (s : State) (p : Nat) (x : RxPort) : (setRx s p x).hostMem = s.hostMem := rfl
@[simp] theorem setRx_sent (s : State) (p : Nat) (x : RxPort) : (setRx s p x).sent = s.sent := rfl
@[simp] theorem setRx_pending (s : State) (p : Nat) (x : RxPort) : (setRx s p x).pending = s.pending := rfl
@[simp] theorem setRx_free (s : State) (p : Nat) (x : RxPort) : (setRx s p x).free = s.free := rfl
@[simp] theorem setRx_rx (s : State) (p : Nat) (x : RxPort) : (setRx s p x).rx = mapSet rxReset s.rx p x := rfl
@[simp] theorem setTx_variant (s : State) (n : Nat) (x : TxPort) : (setTx s n x).variant = s.variant := rfl
@[simp] theorem setTx_powered (s : State) (n : Nat) (x : TxPort) : (setTx s n x).powered = s.powered := rfl
@[simp] theorem setTx_perstLow (s : State) (n : Nat) (x : TxPort) : (setTx s n x).perstLow = s.perstLow := rfl
@[simp] theorem setTx_pcieUp (s : State) (n : Nat) (x : TxPort) : (setTx s n x).pcieUp = s.pcieUp := rfl
@[simp] theorem setTx_pcie (s : State) (n : Nat) (x : TxPort) : (setTx s n x).pcie = s.pcie := rfl
@[simp] theorem setTx_regs (s : State) (n : Nat) (x : TxPort) : (setTx s n x).regs = s.regs := rfl
@[simp] theorem setTx_time (s : State) (n : Nat) (x : TxPort) : (setTx s n x).time = s.time := rfl
@[simp] theorem setTx_grid (s : State) (n : Nat) (x : TxPort) : (setTx s n x).grid = s.grid := rfl
@[simp] theorem setTx_loop (s : State) (n : Nat) (x : TxPort) : (setTx s n x).loop = s.loop := rfl
@[simp] theorem setTx_collector (s : State) (n : Nat) (x : TxPort) : (setTx s n x).collector = s.collector := rfl
@[simp] theorem setTx_recorder (s : State) (n : Nat) (x : TxPort) : (setTx s n x).recorder = s.recorder := rfl
@[simp] theorem setTx_ports (s : State) (n : Nat) (x : TxPort) : (setTx s n x).ports = s.ports := rfl
@[simp] theorem setTx_gsram (s : State) (n : Nat) (x : TxPort) : (setTx s n x).gsram = s.gsram := rfl
@[simp] theorem setTx_dram (s : State) (n : Nat) (x : TxPort) : (setTx s n x).dram = s.dram := rfl
@[simp] theorem setTx_poison (s : State) (n : Nat) (x : TxPort) : (setTx s n x).poison = s.poison := rfl
@[simp] theorem setTx_beads (s : State) (n : Nat) (x : TxPort) : (setTx s n x).beads = s.beads := rfl
@[simp] theorem setTx_chans (s : State) (n : Nat) (x : TxPort) : (setTx s n x).chans = s.chans := rfl
@[simp] theorem setTx_rx (s : State) (n : Nat) (x : TxPort) : (setTx s n x).rx = s.rx := rfl
@[simp] theorem setTx_cs (s : State) (n : Nat) (x : TxPort) : (setTx s n x).cs = s.cs := rfl
@[simp] theorem setTx_asrcLive (s : State) (n : Nat) (x : TxPort) : (setTx s n x).asrcLive = s.asrcLive := rfl
@[simp] theorem setTx_params (s : State) (n : Nat) (x : TxPort) : (setTx s n x).params = s.params := rfl
@[simp] theorem setTx_xps (s : State) (n : Nat) (x : TxPort) : (setTx s n x).xps = s.xps := rfl
@[simp] theorem setTx_buses (s : State) (n : Nat) (x : TxPort) : (setTx s n x).buses = s.buses := rfl
@[simp] theorem setTx_hpfs (s : State) (n : Nat) (x : TxPort) : (setTx s n x).hpfs = s.hpfs := rfl
@[simp] theorem setTx_peaks (s : State) (n : Nat) (x : TxPort) : (setTx s n x).peaks = s.peaks := rfl
@[simp] theorem setTx_routes (s : State) (n : Nat) (x : TxPort) : (setTx s n x).routes = s.routes := rfl
@[simp] theorem setTx_fades (s : State) (n : Nat) (x : TxPort) : (setTx s n x).fades = s.fades := rfl
@[simp] theorem setTx_routeWait (s : State) (n : Nat) (x : TxPort) : (setTx s n x).routeWait = s.routeWait := rfl
@[simp] theorem setTx_taps (s : State) (n : Nat) (x : TxPort) : (setTx s n x).taps = s.taps := rfl
@[simp] theorem setTx_lines (s : State) (n : Nat) (x : TxPort) : (setTx s n x).lines = s.lines := rfl
@[simp] theorem setTx_meters (s : State) (n : Nat) (x : TxPort) : (setTx s n x).meters = s.meters := rfl
@[simp] theorem setTx_meterIndex (s : State) (n : Nat) (x : TxPort) : (setTx s n x).meterIndex = s.meterIndex := rfl
@[simp] theorem setTx_meterClears (s : State) (n : Nat) (x : TxPort) : (setTx s n x).meterClears = s.meterClears := rfl
@[simp] theorem setTx_rods (s : State) (n : Nat) (x : TxPort) : (setTx s n x).rods = s.rods := rfl
@[simp] theorem setTx_frameMem (s : State) (n : Nat) (x : TxPort) : (setTx s n x).frameMem = s.frameMem := rfl
@[simp] theorem setTx_banks (s : State) (n : Nat) (x : TxPort) : (setTx s n x).banks = s.banks := rfl
@[simp] theorem setTx_loads (s : State) (n : Nat) (x : TxPort) : (setTx s n x).loads = s.loads := rfl
@[simp] theorem setTx_nets (s : State) (n : Nat) (x : TxPort) : (setTx s n x).nets = s.nets := rfl
@[simp] theorem setTx_posted (s : State) (n : Nat) (x : TxPort) : (setTx s n x).posted = s.posted := rfl
@[simp] theorem setTx_strRx (s : State) (n : Nat) (x : TxPort) : (setTx s n x).strRx = s.strRx := rfl
@[simp] theorem setTx_strTx (s : State) (n : Nat) (x : TxPort) : (setTx s n x).strTx = s.strTx := rfl
@[simp] theorem setTx_supplied (s : State) (n : Nat) (x : TxPort) : (setTx s n x).supplied = s.supplied := rfl
@[simp] theorem setTx_strClears (s : State) (n : Nat) (x : TxPort) : (setTx s n x).strClears = s.strClears := rfl
@[simp] theorem setTx_tallies (s : State) (n : Nat) (x : TxPort) : (setTx s n x).tallies = s.tallies := rfl
@[simp] theorem setTx_snap (s : State) (n : Nat) (x : TxPort) : (setTx s n x).snap = s.snap := rfl
@[simp] theorem setTx_barA (s : State) (n : Nat) (x : TxPort) : (setTx s n x).barA = s.barA := rfl
@[simp] theorem setTx_barB (s : State) (n : Nat) (x : TxPort) : (setTx s n x).barB = s.barB := rfl
@[simp] theorem setTx_dieA (s : State) (n : Nat) (x : TxPort) : (setTx s n x).dieA = s.dieA := rfl
@[simp] theorem setTx_dieB (s : State) (n : Nat) (x : TxPort) : (setTx s n x).dieB = s.dieB := rfl
@[simp] theorem setTx_chmapPrev (s : State) (n : Nat) (x : TxPort) : (setTx s n x).chmapPrev = s.chmapPrev := rfl
@[simp] theorem setTx_chmapPlay (s : State) (n : Nat) (x : TxPort) : (setTx s n x).chmapPlay = s.chmapPlay := rfl
@[simp] theorem setTx_stk (s : State) (n : Nat) (x : TxPort) : (setTx s n x).stk = s.stk := rfl
@[simp] theorem setTx_mgt (s : State) (n : Nat) (x : TxPort) : (setTx s n x).mgt = s.mgt := rfl
@[simp] theorem setTx_flash (s : State) (n : Nat) (x : TxPort) : (setTx s n x).flash = s.flash := rfl
@[simp] theorem setTx_boot (s : State) (n : Nat) (x : TxPort) : (setTx s n x).boot = s.boot := rfl
@[simp] theorem setTx_qps (s : State) (n : Nat) (x : TxPort) : (setTx s n x).qps = s.qps := rfl
@[simp] theorem setTx_diags (s : State) (n : Nat) (x : TxPort) : (setTx s n x).diags = s.diags := rfl
@[simp] theorem setTx_turns (s : State) (n : Nat) (x : TxPort) : (setTx s n x).turns = s.turns := rfl
@[simp] theorem setTx_doorbell (s : State) (n : Nat) (x : TxPort) : (setTx s n x).doorbell = s.doorbell := rfl
@[simp] theorem setTx_pageBad (s : State) (n : Nat) (x : TxPort) : (setTx s n x).pageBad = s.pageBad := rfl
@[simp] theorem setTx_hostMem (s : State) (n : Nat) (x : TxPort) : (setTx s n x).hostMem = s.hostMem := rfl
@[simp] theorem setTx_sent (s : State) (n : Nat) (x : TxPort) : (setTx s n x).sent = s.sent := rfl
@[simp] theorem setTx_pending (s : State) (n : Nat) (x : TxPort) : (setTx s n x).pending = s.pending := rfl
@[simp] theorem setTx_free (s : State) (n : Nat) (x : TxPort) : (setTx s n x).free = s.free := rfl
@[simp] theorem setTx_tx (s : State) (n : Nat) (x : TxPort) : (setTx s n x).tx = mapSet txReset s.tx n x := rfl
@[simp] theorem setQp_variant (s : State) (n : Nat) (q : QpState) : (setQp s n q).variant = s.variant := rfl
@[simp] theorem setQp_powered (s : State) (n : Nat) (q : QpState) : (setQp s n q).powered = s.powered := rfl
@[simp] theorem setQp_perstLow (s : State) (n : Nat) (q : QpState) : (setQp s n q).perstLow = s.perstLow := rfl
@[simp] theorem setQp_pcieUp (s : State) (n : Nat) (q : QpState) : (setQp s n q).pcieUp = s.pcieUp := rfl
@[simp] theorem setQp_pcie (s : State) (n : Nat) (q : QpState) : (setQp s n q).pcie = s.pcie := rfl
@[simp] theorem setQp_regs (s : State) (n : Nat) (q : QpState) : (setQp s n q).regs = s.regs := rfl
@[simp] theorem setQp_time (s : State) (n : Nat) (q : QpState) : (setQp s n q).time = s.time := rfl
@[simp] theorem setQp_grid (s : State) (n : Nat) (q : QpState) : (setQp s n q).grid = s.grid := rfl
@[simp] theorem setQp_loop (s : State) (n : Nat) (q : QpState) : (setQp s n q).loop = s.loop := rfl
@[simp] theorem setQp_collector (s : State) (n : Nat) (q : QpState) : (setQp s n q).collector = s.collector := rfl
@[simp] theorem setQp_recorder (s : State) (n : Nat) (q : QpState) : (setQp s n q).recorder = s.recorder := rfl
@[simp] theorem setQp_ports (s : State) (n : Nat) (q : QpState) : (setQp s n q).ports = s.ports := rfl
@[simp] theorem setQp_gsram (s : State) (n : Nat) (q : QpState) : (setQp s n q).gsram = s.gsram := rfl
@[simp] theorem setQp_dram (s : State) (n : Nat) (q : QpState) : (setQp s n q).dram = s.dram := rfl
@[simp] theorem setQp_poison (s : State) (n : Nat) (q : QpState) : (setQp s n q).poison = s.poison := rfl
@[simp] theorem setQp_beads (s : State) (n : Nat) (q : QpState) : (setQp s n q).beads = s.beads := rfl
@[simp] theorem setQp_chans (s : State) (n : Nat) (q : QpState) : (setQp s n q).chans = s.chans := rfl
@[simp] theorem setQp_rx (s : State) (n : Nat) (q : QpState) : (setQp s n q).rx = s.rx := rfl
@[simp] theorem setQp_cs (s : State) (n : Nat) (q : QpState) : (setQp s n q).cs = s.cs := rfl
@[simp] theorem setQp_tx (s : State) (n : Nat) (q : QpState) : (setQp s n q).tx = s.tx := rfl
@[simp] theorem setQp_asrcLive (s : State) (n : Nat) (q : QpState) : (setQp s n q).asrcLive = s.asrcLive := rfl
@[simp] theorem setQp_params (s : State) (n : Nat) (q : QpState) : (setQp s n q).params = s.params := rfl
@[simp] theorem setQp_xps (s : State) (n : Nat) (q : QpState) : (setQp s n q).xps = s.xps := rfl
@[simp] theorem setQp_buses (s : State) (n : Nat) (q : QpState) : (setQp s n q).buses = s.buses := rfl
@[simp] theorem setQp_hpfs (s : State) (n : Nat) (q : QpState) : (setQp s n q).hpfs = s.hpfs := rfl
@[simp] theorem setQp_peaks (s : State) (n : Nat) (q : QpState) : (setQp s n q).peaks = s.peaks := rfl
@[simp] theorem setQp_routes (s : State) (n : Nat) (q : QpState) : (setQp s n q).routes = s.routes := rfl
@[simp] theorem setQp_fades (s : State) (n : Nat) (q : QpState) : (setQp s n q).fades = s.fades := rfl
@[simp] theorem setQp_routeWait (s : State) (n : Nat) (q : QpState) : (setQp s n q).routeWait = s.routeWait := rfl
@[simp] theorem setQp_taps (s : State) (n : Nat) (q : QpState) : (setQp s n q).taps = s.taps := rfl
@[simp] theorem setQp_lines (s : State) (n : Nat) (q : QpState) : (setQp s n q).lines = s.lines := rfl
@[simp] theorem setQp_meters (s : State) (n : Nat) (q : QpState) : (setQp s n q).meters = s.meters := rfl
@[simp] theorem setQp_meterIndex (s : State) (n : Nat) (q : QpState) : (setQp s n q).meterIndex = s.meterIndex := rfl
@[simp] theorem setQp_meterClears (s : State) (n : Nat) (q : QpState) : (setQp s n q).meterClears = s.meterClears := rfl
@[simp] theorem setQp_rods (s : State) (n : Nat) (q : QpState) : (setQp s n q).rods = s.rods := rfl
@[simp] theorem setQp_frameMem (s : State) (n : Nat) (q : QpState) : (setQp s n q).frameMem = s.frameMem := rfl
@[simp] theorem setQp_banks (s : State) (n : Nat) (q : QpState) : (setQp s n q).banks = s.banks := rfl
@[simp] theorem setQp_loads (s : State) (n : Nat) (q : QpState) : (setQp s n q).loads = s.loads := rfl
@[simp] theorem setQp_nets (s : State) (n : Nat) (q : QpState) : (setQp s n q).nets = s.nets := rfl
@[simp] theorem setQp_posted (s : State) (n : Nat) (q : QpState) : (setQp s n q).posted = s.posted := rfl
@[simp] theorem setQp_strRx (s : State) (n : Nat) (q : QpState) : (setQp s n q).strRx = s.strRx := rfl
@[simp] theorem setQp_strTx (s : State) (n : Nat) (q : QpState) : (setQp s n q).strTx = s.strTx := rfl
@[simp] theorem setQp_supplied (s : State) (n : Nat) (q : QpState) : (setQp s n q).supplied = s.supplied := rfl
@[simp] theorem setQp_strClears (s : State) (n : Nat) (q : QpState) : (setQp s n q).strClears = s.strClears := rfl
@[simp] theorem setQp_tallies (s : State) (n : Nat) (q : QpState) : (setQp s n q).tallies = s.tallies := rfl
@[simp] theorem setQp_snap (s : State) (n : Nat) (q : QpState) : (setQp s n q).snap = s.snap := rfl
@[simp] theorem setQp_barA (s : State) (n : Nat) (q : QpState) : (setQp s n q).barA = s.barA := rfl
@[simp] theorem setQp_barB (s : State) (n : Nat) (q : QpState) : (setQp s n q).barB = s.barB := rfl
@[simp] theorem setQp_dieA (s : State) (n : Nat) (q : QpState) : (setQp s n q).dieA = s.dieA := rfl
@[simp] theorem setQp_dieB (s : State) (n : Nat) (q : QpState) : (setQp s n q).dieB = s.dieB := rfl
@[simp] theorem setQp_chmapPrev (s : State) (n : Nat) (q : QpState) : (setQp s n q).chmapPrev = s.chmapPrev := rfl
@[simp] theorem setQp_chmapPlay (s : State) (n : Nat) (q : QpState) : (setQp s n q).chmapPlay = s.chmapPlay := rfl
@[simp] theorem setQp_stk (s : State) (n : Nat) (q : QpState) : (setQp s n q).stk = s.stk := rfl
@[simp] theorem setQp_mgt (s : State) (n : Nat) (q : QpState) : (setQp s n q).mgt = s.mgt := rfl
@[simp] theorem setQp_flash (s : State) (n : Nat) (q : QpState) : (setQp s n q).flash = s.flash := rfl
@[simp] theorem setQp_boot (s : State) (n : Nat) (q : QpState) : (setQp s n q).boot = s.boot := rfl
@[simp] theorem setQp_diags (s : State) (n : Nat) (q : QpState) : (setQp s n q).diags = s.diags := rfl
@[simp] theorem setQp_turns (s : State) (n : Nat) (q : QpState) : (setQp s n q).turns = s.turns := rfl
@[simp] theorem setQp_doorbell (s : State) (n : Nat) (q : QpState) : (setQp s n q).doorbell = s.doorbell := rfl
@[simp] theorem setQp_pageBad (s : State) (n : Nat) (q : QpState) : (setQp s n q).pageBad = s.pageBad := rfl
@[simp] theorem setQp_hostMem (s : State) (n : Nat) (q : QpState) : (setQp s n q).hostMem = s.hostMem := rfl
@[simp] theorem setQp_sent (s : State) (n : Nat) (q : QpState) : (setQp s n q).sent = s.sent := rfl
@[simp] theorem setQp_pending (s : State) (n : Nat) (q : QpState) : (setQp s n q).pending = s.pending := rfl
@[simp] theorem setQp_free (s : State) (n : Nat) (q : QpState) : (setQp s n q).free = s.free := rfl
@[simp] theorem setQp_qps (s : State) (n : Nat) (q : QpState) : (setQp s n q).qps = mapSet qpReset s.qps n q := rfl
@[simp] theorem setTally_variant (s : State) (id : Nat) (t : Tally) : (setTally s id t).variant = s.variant := rfl
@[simp] theorem setTally_powered (s : State) (id : Nat) (t : Tally) : (setTally s id t).powered = s.powered := rfl
@[simp] theorem setTally_perstLow (s : State) (id : Nat) (t : Tally) : (setTally s id t).perstLow = s.perstLow := rfl
@[simp] theorem setTally_pcieUp (s : State) (id : Nat) (t : Tally) : (setTally s id t).pcieUp = s.pcieUp := rfl
@[simp] theorem setTally_pcie (s : State) (id : Nat) (t : Tally) : (setTally s id t).pcie = s.pcie := rfl
@[simp] theorem setTally_regs (s : State) (id : Nat) (t : Tally) : (setTally s id t).regs = s.regs := rfl
@[simp] theorem setTally_time (s : State) (id : Nat) (t : Tally) : (setTally s id t).time = s.time := rfl
@[simp] theorem setTally_grid (s : State) (id : Nat) (t : Tally) : (setTally s id t).grid = s.grid := rfl
@[simp] theorem setTally_loop (s : State) (id : Nat) (t : Tally) : (setTally s id t).loop = s.loop := rfl
@[simp] theorem setTally_collector (s : State) (id : Nat) (t : Tally) : (setTally s id t).collector = s.collector := rfl
@[simp] theorem setTally_recorder (s : State) (id : Nat) (t : Tally) : (setTally s id t).recorder = s.recorder := rfl
@[simp] theorem setTally_ports (s : State) (id : Nat) (t : Tally) : (setTally s id t).ports = s.ports := rfl
@[simp] theorem setTally_gsram (s : State) (id : Nat) (t : Tally) : (setTally s id t).gsram = s.gsram := rfl
@[simp] theorem setTally_dram (s : State) (id : Nat) (t : Tally) : (setTally s id t).dram = s.dram := rfl
@[simp] theorem setTally_poison (s : State) (id : Nat) (t : Tally) : (setTally s id t).poison = s.poison := rfl
@[simp] theorem setTally_beads (s : State) (id : Nat) (t : Tally) : (setTally s id t).beads = s.beads := rfl
@[simp] theorem setTally_chans (s : State) (id : Nat) (t : Tally) : (setTally s id t).chans = s.chans := rfl
@[simp] theorem setTally_rx (s : State) (id : Nat) (t : Tally) : (setTally s id t).rx = s.rx := rfl
@[simp] theorem setTally_cs (s : State) (id : Nat) (t : Tally) : (setTally s id t).cs = s.cs := rfl
@[simp] theorem setTally_tx (s : State) (id : Nat) (t : Tally) : (setTally s id t).tx = s.tx := rfl
@[simp] theorem setTally_asrcLive (s : State) (id : Nat) (t : Tally) : (setTally s id t).asrcLive = s.asrcLive := rfl
@[simp] theorem setTally_params (s : State) (id : Nat) (t : Tally) : (setTally s id t).params = s.params := rfl
@[simp] theorem setTally_xps (s : State) (id : Nat) (t : Tally) : (setTally s id t).xps = s.xps := rfl
@[simp] theorem setTally_buses (s : State) (id : Nat) (t : Tally) : (setTally s id t).buses = s.buses := rfl
@[simp] theorem setTally_hpfs (s : State) (id : Nat) (t : Tally) : (setTally s id t).hpfs = s.hpfs := rfl
@[simp] theorem setTally_peaks (s : State) (id : Nat) (t : Tally) : (setTally s id t).peaks = s.peaks := rfl
@[simp] theorem setTally_routes (s : State) (id : Nat) (t : Tally) : (setTally s id t).routes = s.routes := rfl
@[simp] theorem setTally_fades (s : State) (id : Nat) (t : Tally) : (setTally s id t).fades = s.fades := rfl
@[simp] theorem setTally_routeWait (s : State) (id : Nat) (t : Tally) : (setTally s id t).routeWait = s.routeWait := rfl
@[simp] theorem setTally_taps (s : State) (id : Nat) (t : Tally) : (setTally s id t).taps = s.taps := rfl
@[simp] theorem setTally_lines (s : State) (id : Nat) (t : Tally) : (setTally s id t).lines = s.lines := rfl
@[simp] theorem setTally_meters (s : State) (id : Nat) (t : Tally) : (setTally s id t).meters = s.meters := rfl
@[simp] theorem setTally_meterIndex (s : State) (id : Nat) (t : Tally) : (setTally s id t).meterIndex = s.meterIndex :=
  rfl
@[simp] theorem setTally_meterClears (s : State) (id : Nat) (t : Tally) : (setTally s id t).meterClears = s.meterClears :=
  rfl
@[simp] theorem setTally_rods (s : State) (id : Nat) (t : Tally) : (setTally s id t).rods = s.rods := rfl
@[simp] theorem setTally_frameMem (s : State) (id : Nat) (t : Tally) : (setTally s id t).frameMem = s.frameMem := rfl
@[simp] theorem setTally_banks (s : State) (id : Nat) (t : Tally) : (setTally s id t).banks = s.banks := rfl
@[simp] theorem setTally_loads (s : State) (id : Nat) (t : Tally) : (setTally s id t).loads = s.loads := rfl
@[simp] theorem setTally_nets (s : State) (id : Nat) (t : Tally) : (setTally s id t).nets = s.nets := rfl
@[simp] theorem setTally_posted (s : State) (id : Nat) (t : Tally) : (setTally s id t).posted = s.posted := rfl
@[simp] theorem setTally_strRx (s : State) (id : Nat) (t : Tally) : (setTally s id t).strRx = s.strRx := rfl
@[simp] theorem setTally_strTx (s : State) (id : Nat) (t : Tally) : (setTally s id t).strTx = s.strTx := rfl
@[simp] theorem setTally_supplied (s : State) (id : Nat) (t : Tally) : (setTally s id t).supplied = s.supplied := rfl
@[simp] theorem setTally_strClears (s : State) (id : Nat) (t : Tally) : (setTally s id t).strClears = s.strClears := rfl
@[simp] theorem setTally_snap (s : State) (id : Nat) (t : Tally) : (setTally s id t).snap = s.snap := rfl
@[simp] theorem setTally_barA (s : State) (id : Nat) (t : Tally) : (setTally s id t).barA = s.barA := rfl
@[simp] theorem setTally_barB (s : State) (id : Nat) (t : Tally) : (setTally s id t).barB = s.barB := rfl
@[simp] theorem setTally_dieA (s : State) (id : Nat) (t : Tally) : (setTally s id t).dieA = s.dieA := rfl
@[simp] theorem setTally_dieB (s : State) (id : Nat) (t : Tally) : (setTally s id t).dieB = s.dieB := rfl
@[simp] theorem setTally_chmapPrev (s : State) (id : Nat) (t : Tally) : (setTally s id t).chmapPrev = s.chmapPrev := rfl
@[simp] theorem setTally_chmapPlay (s : State) (id : Nat) (t : Tally) : (setTally s id t).chmapPlay = s.chmapPlay := rfl
@[simp] theorem setTally_stk (s : State) (id : Nat) (t : Tally) : (setTally s id t).stk = s.stk := rfl
@[simp] theorem setTally_mgt (s : State) (id : Nat) (t : Tally) : (setTally s id t).mgt = s.mgt := rfl
@[simp] theorem setTally_flash (s : State) (id : Nat) (t : Tally) : (setTally s id t).flash = s.flash := rfl
@[simp] theorem setTally_boot (s : State) (id : Nat) (t : Tally) : (setTally s id t).boot = s.boot := rfl
@[simp] theorem setTally_qps (s : State) (id : Nat) (t : Tally) : (setTally s id t).qps = s.qps := rfl
@[simp] theorem setTally_diags (s : State) (id : Nat) (t : Tally) : (setTally s id t).diags = s.diags := rfl
@[simp] theorem setTally_turns (s : State) (id : Nat) (t : Tally) : (setTally s id t).turns = s.turns := rfl
@[simp] theorem setTally_doorbell (s : State) (id : Nat) (t : Tally) : (setTally s id t).doorbell = s.doorbell := rfl
@[simp] theorem setTally_pageBad (s : State) (id : Nat) (t : Tally) : (setTally s id t).pageBad = s.pageBad := rfl
@[simp] theorem setTally_hostMem (s : State) (id : Nat) (t : Tally) : (setTally s id t).hostMem = s.hostMem := rfl
@[simp] theorem setTally_sent (s : State) (id : Nat) (t : Tally) : (setTally s id t).sent = s.sent := rfl
@[simp] theorem setTally_pending (s : State) (id : Nat) (t : Tally) : (setTally s id t).pending = s.pending := rfl
@[simp] theorem setTally_free (s : State) (id : Nat) (t : Tally) : (setTally s id t).free = s.free := rfl
@[simp] theorem setTally_tallies (s : State) (id : Nat) (t : Tally) : (setTally s id t).tallies = mapSet tallyReset s.tallies id t :=
  rfl
@[simp] theorem setPword_variant (s : State) (t e w : Nat) (v : Word) : (setPword s t e w v).variant = s.variant := rfl
@[simp] theorem setPword_powered (s : State) (t e w : Nat) (v : Word) : (setPword s t e w v).powered = s.powered := rfl
@[simp] theorem setPword_perstLow (s : State) (t e w : Nat) (v : Word) : (setPword s t e w v).perstLow = s.perstLow :=
  rfl
@[simp] theorem setPword_pcieUp (s : State) (t e w : Nat) (v : Word) : (setPword s t e w v).pcieUp = s.pcieUp := rfl
@[simp] theorem setPword_pcie (s : State) (t e w : Nat) (v : Word) : (setPword s t e w v).pcie = s.pcie := rfl
@[simp] theorem setPword_regs (s : State) (t e w : Nat) (v : Word) : (setPword s t e w v).regs = s.regs := rfl
@[simp] theorem setPword_time (s : State) (t e w : Nat) (v : Word) : (setPword s t e w v).time = s.time := rfl
@[simp] theorem setPword_grid (s : State) (t e w : Nat) (v : Word) : (setPword s t e w v).grid = s.grid := rfl
@[simp] theorem setPword_loop (s : State) (t e w : Nat) (v : Word) : (setPword s t e w v).loop = s.loop := rfl
@[simp] theorem setPword_collector (s : State) (t e w : Nat) (v : Word) : (setPword s t e w v).collector = s.collector :=
  rfl
@[simp] theorem setPword_recorder (s : State) (t e w : Nat) (v : Word) : (setPword s t e w v).recorder = s.recorder :=
  rfl
@[simp] theorem setPword_ports (s : State) (t e w : Nat) (v : Word) : (setPword s t e w v).ports = s.ports := rfl
@[simp] theorem setPword_gsram (s : State) (t e w : Nat) (v : Word) : (setPword s t e w v).gsram = s.gsram := rfl
@[simp] theorem setPword_dram (s : State) (t e w : Nat) (v : Word) : (setPword s t e w v).dram = s.dram := rfl
@[simp] theorem setPword_poison (s : State) (t e w : Nat) (v : Word) : (setPword s t e w v).poison = s.poison := rfl
@[simp] theorem setPword_beads (s : State) (t e w : Nat) (v : Word) : (setPword s t e w v).beads = s.beads := rfl
@[simp] theorem setPword_chans (s : State) (t e w : Nat) (v : Word) : (setPword s t e w v).chans = s.chans := rfl
@[simp] theorem setPword_rx (s : State) (t e w : Nat) (v : Word) : (setPword s t e w v).rx = s.rx := rfl
@[simp] theorem setPword_cs (s : State) (t e w : Nat) (v : Word) : (setPword s t e w v).cs = s.cs := rfl
@[simp] theorem setPword_tx (s : State) (t e w : Nat) (v : Word) : (setPword s t e w v).tx = s.tx := rfl
@[simp] theorem setPword_asrcLive (s : State) (t e w : Nat) (v : Word) : (setPword s t e w v).asrcLive = s.asrcLive :=
  rfl
@[simp] theorem setPword_xps (s : State) (t e w : Nat) (v : Word) : (setPword s t e w v).xps = s.xps := rfl
@[simp] theorem setPword_buses (s : State) (t e w : Nat) (v : Word) : (setPword s t e w v).buses = s.buses := rfl
@[simp] theorem setPword_hpfs (s : State) (t e w : Nat) (v : Word) : (setPword s t e w v).hpfs = s.hpfs := rfl
@[simp] theorem setPword_peaks (s : State) (t e w : Nat) (v : Word) : (setPword s t e w v).peaks = s.peaks := rfl
@[simp] theorem setPword_routes (s : State) (t e w : Nat) (v : Word) : (setPword s t e w v).routes = s.routes := rfl
@[simp] theorem setPword_fades (s : State) (t e w : Nat) (v : Word) : (setPword s t e w v).fades = s.fades := rfl
@[simp] theorem setPword_routeWait (s : State) (t e w : Nat) (v : Word) : (setPword s t e w v).routeWait = s.routeWait :=
  rfl
@[simp] theorem setPword_taps (s : State) (t e w : Nat) (v : Word) : (setPword s t e w v).taps = s.taps := rfl
@[simp] theorem setPword_lines (s : State) (t e w : Nat) (v : Word) : (setPword s t e w v).lines = s.lines := rfl
@[simp] theorem setPword_meters (s : State) (t e w : Nat) (v : Word) : (setPword s t e w v).meters = s.meters := rfl
@[simp] theorem setPword_meterIndex (s : State) (t e w : Nat) (v : Word) : (setPword s t e w v).meterIndex = s.meterIndex :=
  rfl
@[simp] theorem setPword_meterClears (s : State) (t e w : Nat) (v : Word) : (setPword s t e w v).meterClears = s.meterClears :=
  rfl
@[simp] theorem setPword_rods (s : State) (t e w : Nat) (v : Word) : (setPword s t e w v).rods = s.rods := rfl
@[simp] theorem setPword_frameMem (s : State) (t e w : Nat) (v : Word) : (setPword s t e w v).frameMem = s.frameMem :=
  rfl
@[simp] theorem setPword_banks (s : State) (t e w : Nat) (v : Word) : (setPword s t e w v).banks = s.banks := rfl
@[simp] theorem setPword_loads (s : State) (t e w : Nat) (v : Word) : (setPword s t e w v).loads = s.loads := rfl
@[simp] theorem setPword_nets (s : State) (t e w : Nat) (v : Word) : (setPword s t e w v).nets = s.nets := rfl
@[simp] theorem setPword_posted (s : State) (t e w : Nat) (v : Word) : (setPword s t e w v).posted = s.posted := rfl
@[simp] theorem setPword_strRx (s : State) (t e w : Nat) (v : Word) : (setPword s t e w v).strRx = s.strRx := rfl
@[simp] theorem setPword_strTx (s : State) (t e w : Nat) (v : Word) : (setPword s t e w v).strTx = s.strTx := rfl
@[simp] theorem setPword_supplied (s : State) (t e w : Nat) (v : Word) : (setPword s t e w v).supplied = s.supplied :=
  rfl
@[simp] theorem setPword_strClears (s : State) (t e w : Nat) (v : Word) : (setPword s t e w v).strClears = s.strClears :=
  rfl
@[simp] theorem setPword_tallies (s : State) (t e w : Nat) (v : Word) : (setPword s t e w v).tallies = s.tallies := rfl
@[simp] theorem setPword_snap (s : State) (t e w : Nat) (v : Word) : (setPword s t e w v).snap = s.snap := rfl
@[simp] theorem setPword_barA (s : State) (t e w : Nat) (v : Word) : (setPword s t e w v).barA = s.barA := rfl
@[simp] theorem setPword_barB (s : State) (t e w : Nat) (v : Word) : (setPword s t e w v).barB = s.barB := rfl
@[simp] theorem setPword_dieA (s : State) (t e w : Nat) (v : Word) : (setPword s t e w v).dieA = s.dieA := rfl
@[simp] theorem setPword_dieB (s : State) (t e w : Nat) (v : Word) : (setPword s t e w v).dieB = s.dieB := rfl
@[simp] theorem setPword_chmapPrev (s : State) (t e w : Nat) (v : Word) : (setPword s t e w v).chmapPrev = s.chmapPrev :=
  rfl
@[simp] theorem setPword_chmapPlay (s : State) (t e w : Nat) (v : Word) : (setPword s t e w v).chmapPlay = s.chmapPlay :=
  rfl
@[simp] theorem setPword_stk (s : State) (t e w : Nat) (v : Word) : (setPword s t e w v).stk = s.stk := rfl
@[simp] theorem setPword_mgt (s : State) (t e w : Nat) (v : Word) : (setPword s t e w v).mgt = s.mgt := rfl
@[simp] theorem setPword_flash (s : State) (t e w : Nat) (v : Word) : (setPword s t e w v).flash = s.flash := rfl
@[simp] theorem setPword_boot (s : State) (t e w : Nat) (v : Word) : (setPword s t e w v).boot = s.boot := rfl
@[simp] theorem setPword_qps (s : State) (t e w : Nat) (v : Word) : (setPword s t e w v).qps = s.qps := rfl
@[simp] theorem setPword_diags (s : State) (t e w : Nat) (v : Word) : (setPword s t e w v).diags = s.diags := rfl
@[simp] theorem setPword_turns (s : State) (t e w : Nat) (v : Word) : (setPword s t e w v).turns = s.turns := rfl
@[simp] theorem setPword_doorbell (s : State) (t e w : Nat) (v : Word) : (setPword s t e w v).doorbell = s.doorbell :=
  rfl
@[simp] theorem setPword_pageBad (s : State) (t e w : Nat) (v : Word) : (setPword s t e w v).pageBad = s.pageBad := rfl
@[simp] theorem setPword_hostMem (s : State) (t e w : Nat) (v : Word) : (setPword s t e w v).hostMem = s.hostMem := rfl
@[simp] theorem setPword_sent (s : State) (t e w : Nat) (v : Word) : (setPword s t e w v).sent = s.sent := rfl
@[simp] theorem setPword_pending (s : State) (t e w : Nat) (v : Word) : (setPword s t e w v).pending = s.pending := rfl
@[simp] theorem setPword_free (s : State) (t e w : Nat) (v : Word) : (setPword s t e w v).free = s.free := rfl
@[simp] theorem setPword_params (s : State) (t e w : Nat) (v : Word) : (setPword s t e w v).params = mapSet paramReset s.params (paramKey t e w) v :=
  rfl
@[simp] theorem setStk_variant (s : State) (x : StkState) : (setStk s x).variant = s.variant := rfl
@[simp] theorem setStk_powered (s : State) (x : StkState) : (setStk s x).powered = s.powered := rfl
@[simp] theorem setStk_perstLow (s : State) (x : StkState) : (setStk s x).perstLow = s.perstLow := rfl
@[simp] theorem setStk_pcieUp (s : State) (x : StkState) : (setStk s x).pcieUp = s.pcieUp := rfl
@[simp] theorem setStk_pcie (s : State) (x : StkState) : (setStk s x).pcie = s.pcie := rfl
@[simp] theorem setStk_regs (s : State) (x : StkState) : (setStk s x).regs = s.regs := rfl
@[simp] theorem setStk_time (s : State) (x : StkState) : (setStk s x).time = s.time := rfl
@[simp] theorem setStk_grid (s : State) (x : StkState) : (setStk s x).grid = s.grid := rfl
@[simp] theorem setStk_loop (s : State) (x : StkState) : (setStk s x).loop = s.loop := rfl
@[simp] theorem setStk_collector (s : State) (x : StkState) : (setStk s x).collector = s.collector := rfl
@[simp] theorem setStk_recorder (s : State) (x : StkState) : (setStk s x).recorder = s.recorder := rfl
@[simp] theorem setStk_ports (s : State) (x : StkState) : (setStk s x).ports = s.ports := rfl
@[simp] theorem setStk_gsram (s : State) (x : StkState) : (setStk s x).gsram = s.gsram := rfl
@[simp] theorem setStk_dram (s : State) (x : StkState) : (setStk s x).dram = s.dram := rfl
@[simp] theorem setStk_poison (s : State) (x : StkState) : (setStk s x).poison = s.poison := rfl
@[simp] theorem setStk_beads (s : State) (x : StkState) : (setStk s x).beads = s.beads := rfl
@[simp] theorem setStk_chans (s : State) (x : StkState) : (setStk s x).chans = s.chans := rfl
@[simp] theorem setStk_rx (s : State) (x : StkState) : (setStk s x).rx = s.rx := rfl
@[simp] theorem setStk_cs (s : State) (x : StkState) : (setStk s x).cs = s.cs := rfl
@[simp] theorem setStk_tx (s : State) (x : StkState) : (setStk s x).tx = s.tx := rfl
@[simp] theorem setStk_asrcLive (s : State) (x : StkState) : (setStk s x).asrcLive = s.asrcLive := rfl
@[simp] theorem setStk_params (s : State) (x : StkState) : (setStk s x).params = s.params := rfl
@[simp] theorem setStk_xps (s : State) (x : StkState) : (setStk s x).xps = s.xps := rfl
@[simp] theorem setStk_buses (s : State) (x : StkState) : (setStk s x).buses = s.buses := rfl
@[simp] theorem setStk_hpfs (s : State) (x : StkState) : (setStk s x).hpfs = s.hpfs := rfl
@[simp] theorem setStk_peaks (s : State) (x : StkState) : (setStk s x).peaks = s.peaks := rfl
@[simp] theorem setStk_routes (s : State) (x : StkState) : (setStk s x).routes = s.routes := rfl
@[simp] theorem setStk_fades (s : State) (x : StkState) : (setStk s x).fades = s.fades := rfl
@[simp] theorem setStk_routeWait (s : State) (x : StkState) : (setStk s x).routeWait = s.routeWait := rfl
@[simp] theorem setStk_taps (s : State) (x : StkState) : (setStk s x).taps = s.taps := rfl
@[simp] theorem setStk_lines (s : State) (x : StkState) : (setStk s x).lines = s.lines := rfl
@[simp] theorem setStk_meters (s : State) (x : StkState) : (setStk s x).meters = s.meters := rfl
@[simp] theorem setStk_meterIndex (s : State) (x : StkState) : (setStk s x).meterIndex = s.meterIndex := rfl
@[simp] theorem setStk_meterClears (s : State) (x : StkState) : (setStk s x).meterClears = s.meterClears := rfl
@[simp] theorem setStk_rods (s : State) (x : StkState) : (setStk s x).rods = s.rods := rfl
@[simp] theorem setStk_frameMem (s : State) (x : StkState) : (setStk s x).frameMem = s.frameMem := rfl
@[simp] theorem setStk_banks (s : State) (x : StkState) : (setStk s x).banks = s.banks := rfl
@[simp] theorem setStk_loads (s : State) (x : StkState) : (setStk s x).loads = s.loads := rfl
@[simp] theorem setStk_nets (s : State) (x : StkState) : (setStk s x).nets = s.nets := rfl
@[simp] theorem setStk_posted (s : State) (x : StkState) : (setStk s x).posted = s.posted := rfl
@[simp] theorem setStk_strRx (s : State) (x : StkState) : (setStk s x).strRx = s.strRx := rfl
@[simp] theorem setStk_strTx (s : State) (x : StkState) : (setStk s x).strTx = s.strTx := rfl
@[simp] theorem setStk_supplied (s : State) (x : StkState) : (setStk s x).supplied = s.supplied := rfl
@[simp] theorem setStk_strClears (s : State) (x : StkState) : (setStk s x).strClears = s.strClears := rfl
@[simp] theorem setStk_tallies (s : State) (x : StkState) : (setStk s x).tallies = s.tallies := rfl
@[simp] theorem setStk_snap (s : State) (x : StkState) : (setStk s x).snap = s.snap := rfl
@[simp] theorem setStk_barA (s : State) (x : StkState) : (setStk s x).barA = s.barA := rfl
@[simp] theorem setStk_barB (s : State) (x : StkState) : (setStk s x).barB = s.barB := rfl
@[simp] theorem setStk_dieA (s : State) (x : StkState) : (setStk s x).dieA = s.dieA := rfl
@[simp] theorem setStk_dieB (s : State) (x : StkState) : (setStk s x).dieB = s.dieB := rfl
@[simp] theorem setStk_chmapPrev (s : State) (x : StkState) : (setStk s x).chmapPrev = s.chmapPrev := rfl
@[simp] theorem setStk_chmapPlay (s : State) (x : StkState) : (setStk s x).chmapPlay = s.chmapPlay := rfl
@[simp] theorem setStk_mgt (s : State) (x : StkState) : (setStk s x).mgt = s.mgt := rfl
@[simp] theorem setStk_flash (s : State) (x : StkState) : (setStk s x).flash = s.flash := rfl
@[simp] theorem setStk_boot (s : State) (x : StkState) : (setStk s x).boot = s.boot := rfl
@[simp] theorem setStk_qps (s : State) (x : StkState) : (setStk s x).qps = s.qps := rfl
@[simp] theorem setStk_diags (s : State) (x : StkState) : (setStk s x).diags = s.diags := rfl
@[simp] theorem setStk_turns (s : State) (x : StkState) : (setStk s x).turns = s.turns := rfl
@[simp] theorem setStk_doorbell (s : State) (x : StkState) : (setStk s x).doorbell = s.doorbell := rfl
@[simp] theorem setStk_pageBad (s : State) (x : StkState) : (setStk s x).pageBad = s.pageBad := rfl
@[simp] theorem setStk_hostMem (s : State) (x : StkState) : (setStk s x).hostMem = s.hostMem := rfl
@[simp] theorem setStk_sent (s : State) (x : StkState) : (setStk s x).sent = s.sent := rfl
@[simp] theorem setStk_pending (s : State) (x : StkState) : (setStk s x).pending = s.pending := rfl
@[simp] theorem setStk_free (s : State) (x : StkState) : (setStk s x).free = s.free := rfl
@[simp] theorem setStk_stk (s : State) (x : StkState) : (setStk s x).stk = x := rfl
@[simp] theorem setMgt_variant (s : State) (m : MgtState) : (setMgt s m).variant = s.variant := rfl
@[simp] theorem setMgt_powered (s : State) (m : MgtState) : (setMgt s m).powered = s.powered := rfl
@[simp] theorem setMgt_perstLow (s : State) (m : MgtState) : (setMgt s m).perstLow = s.perstLow := rfl
@[simp] theorem setMgt_pcieUp (s : State) (m : MgtState) : (setMgt s m).pcieUp = s.pcieUp := rfl
@[simp] theorem setMgt_pcie (s : State) (m : MgtState) : (setMgt s m).pcie = s.pcie := rfl
@[simp] theorem setMgt_regs (s : State) (m : MgtState) : (setMgt s m).regs = s.regs := rfl
@[simp] theorem setMgt_time (s : State) (m : MgtState) : (setMgt s m).time = s.time := rfl
@[simp] theorem setMgt_grid (s : State) (m : MgtState) : (setMgt s m).grid = s.grid := rfl
@[simp] theorem setMgt_loop (s : State) (m : MgtState) : (setMgt s m).loop = s.loop := rfl
@[simp] theorem setMgt_collector (s : State) (m : MgtState) : (setMgt s m).collector = s.collector := rfl
@[simp] theorem setMgt_recorder (s : State) (m : MgtState) : (setMgt s m).recorder = s.recorder := rfl
@[simp] theorem setMgt_ports (s : State) (m : MgtState) : (setMgt s m).ports = s.ports := rfl
@[simp] theorem setMgt_gsram (s : State) (m : MgtState) : (setMgt s m).gsram = s.gsram := rfl
@[simp] theorem setMgt_dram (s : State) (m : MgtState) : (setMgt s m).dram = s.dram := rfl
@[simp] theorem setMgt_poison (s : State) (m : MgtState) : (setMgt s m).poison = s.poison := rfl
@[simp] theorem setMgt_beads (s : State) (m : MgtState) : (setMgt s m).beads = s.beads := rfl
@[simp] theorem setMgt_chans (s : State) (m : MgtState) : (setMgt s m).chans = s.chans := rfl
@[simp] theorem setMgt_rx (s : State) (m : MgtState) : (setMgt s m).rx = s.rx := rfl
@[simp] theorem setMgt_cs (s : State) (m : MgtState) : (setMgt s m).cs = s.cs := rfl
@[simp] theorem setMgt_tx (s : State) (m : MgtState) : (setMgt s m).tx = s.tx := rfl
@[simp] theorem setMgt_asrcLive (s : State) (m : MgtState) : (setMgt s m).asrcLive = s.asrcLive := rfl
@[simp] theorem setMgt_params (s : State) (m : MgtState) : (setMgt s m).params = s.params := rfl
@[simp] theorem setMgt_xps (s : State) (m : MgtState) : (setMgt s m).xps = s.xps := rfl
@[simp] theorem setMgt_buses (s : State) (m : MgtState) : (setMgt s m).buses = s.buses := rfl
@[simp] theorem setMgt_hpfs (s : State) (m : MgtState) : (setMgt s m).hpfs = s.hpfs := rfl
@[simp] theorem setMgt_peaks (s : State) (m : MgtState) : (setMgt s m).peaks = s.peaks := rfl
@[simp] theorem setMgt_routes (s : State) (m : MgtState) : (setMgt s m).routes = s.routes := rfl
@[simp] theorem setMgt_fades (s : State) (m : MgtState) : (setMgt s m).fades = s.fades := rfl
@[simp] theorem setMgt_routeWait (s : State) (m : MgtState) : (setMgt s m).routeWait = s.routeWait := rfl
@[simp] theorem setMgt_taps (s : State) (m : MgtState) : (setMgt s m).taps = s.taps := rfl
@[simp] theorem setMgt_lines (s : State) (m : MgtState) : (setMgt s m).lines = s.lines := rfl
@[simp] theorem setMgt_meters (s : State) (m : MgtState) : (setMgt s m).meters = s.meters := rfl
@[simp] theorem setMgt_meterIndex (s : State) (m : MgtState) : (setMgt s m).meterIndex = s.meterIndex := rfl
@[simp] theorem setMgt_meterClears (s : State) (m : MgtState) : (setMgt s m).meterClears = s.meterClears := rfl
@[simp] theorem setMgt_rods (s : State) (m : MgtState) : (setMgt s m).rods = s.rods := rfl
@[simp] theorem setMgt_frameMem (s : State) (m : MgtState) : (setMgt s m).frameMem = s.frameMem := rfl
@[simp] theorem setMgt_banks (s : State) (m : MgtState) : (setMgt s m).banks = s.banks := rfl
@[simp] theorem setMgt_loads (s : State) (m : MgtState) : (setMgt s m).loads = s.loads := rfl
@[simp] theorem setMgt_nets (s : State) (m : MgtState) : (setMgt s m).nets = s.nets := rfl
@[simp] theorem setMgt_posted (s : State) (m : MgtState) : (setMgt s m).posted = s.posted := rfl
@[simp] theorem setMgt_strRx (s : State) (m : MgtState) : (setMgt s m).strRx = s.strRx := rfl
@[simp] theorem setMgt_strTx (s : State) (m : MgtState) : (setMgt s m).strTx = s.strTx := rfl
@[simp] theorem setMgt_supplied (s : State) (m : MgtState) : (setMgt s m).supplied = s.supplied := rfl
@[simp] theorem setMgt_strClears (s : State) (m : MgtState) : (setMgt s m).strClears = s.strClears := rfl
@[simp] theorem setMgt_tallies (s : State) (m : MgtState) : (setMgt s m).tallies = s.tallies := rfl
@[simp] theorem setMgt_snap (s : State) (m : MgtState) : (setMgt s m).snap = s.snap := rfl
@[simp] theorem setMgt_barA (s : State) (m : MgtState) : (setMgt s m).barA = s.barA := rfl
@[simp] theorem setMgt_barB (s : State) (m : MgtState) : (setMgt s m).barB = s.barB := rfl
@[simp] theorem setMgt_dieA (s : State) (m : MgtState) : (setMgt s m).dieA = s.dieA := rfl
@[simp] theorem setMgt_dieB (s : State) (m : MgtState) : (setMgt s m).dieB = s.dieB := rfl
@[simp] theorem setMgt_chmapPrev (s : State) (m : MgtState) : (setMgt s m).chmapPrev = s.chmapPrev := rfl
@[simp] theorem setMgt_chmapPlay (s : State) (m : MgtState) : (setMgt s m).chmapPlay = s.chmapPlay := rfl
@[simp] theorem setMgt_stk (s : State) (m : MgtState) : (setMgt s m).stk = s.stk := rfl
@[simp] theorem setMgt_flash (s : State) (m : MgtState) : (setMgt s m).flash = s.flash := rfl
@[simp] theorem setMgt_boot (s : State) (m : MgtState) : (setMgt s m).boot = s.boot := rfl
@[simp] theorem setMgt_qps (s : State) (m : MgtState) : (setMgt s m).qps = s.qps := rfl
@[simp] theorem setMgt_diags (s : State) (m : MgtState) : (setMgt s m).diags = s.diags := rfl
@[simp] theorem setMgt_turns (s : State) (m : MgtState) : (setMgt s m).turns = s.turns := rfl
@[simp] theorem setMgt_doorbell (s : State) (m : MgtState) : (setMgt s m).doorbell = s.doorbell := rfl
@[simp] theorem setMgt_pageBad (s : State) (m : MgtState) : (setMgt s m).pageBad = s.pageBad := rfl
@[simp] theorem setMgt_hostMem (s : State) (m : MgtState) : (setMgt s m).hostMem = s.hostMem := rfl
@[simp] theorem setMgt_sent (s : State) (m : MgtState) : (setMgt s m).sent = s.sent := rfl
@[simp] theorem setMgt_pending (s : State) (m : MgtState) : (setMgt s m).pending = s.pending := rfl
@[simp] theorem setMgt_free (s : State) (m : MgtState) : (setMgt s m).free = s.free := rfl
@[simp] theorem setMgt_mgt (s : State) (m : MgtState) : (setMgt s m).mgt = m := rfl
@[simp] theorem sendOut_variant (s : State) (m : OutMsg) : (sendOut s m).variant = s.variant := rfl
@[simp] theorem sendOut_powered (s : State) (m : OutMsg) : (sendOut s m).powered = s.powered := rfl
@[simp] theorem sendOut_perstLow (s : State) (m : OutMsg) : (sendOut s m).perstLow = s.perstLow := rfl
@[simp] theorem sendOut_pcieUp (s : State) (m : OutMsg) : (sendOut s m).pcieUp = s.pcieUp := rfl
@[simp] theorem sendOut_pcie (s : State) (m : OutMsg) : (sendOut s m).pcie = s.pcie := rfl
@[simp] theorem sendOut_regs (s : State) (m : OutMsg) : (sendOut s m).regs = s.regs := rfl
@[simp] theorem sendOut_time (s : State) (m : OutMsg) : (sendOut s m).time = s.time := rfl
@[simp] theorem sendOut_grid (s : State) (m : OutMsg) : (sendOut s m).grid = s.grid := rfl
@[simp] theorem sendOut_loop (s : State) (m : OutMsg) : (sendOut s m).loop = s.loop := rfl
@[simp] theorem sendOut_collector (s : State) (m : OutMsg) : (sendOut s m).collector = s.collector := rfl
@[simp] theorem sendOut_recorder (s : State) (m : OutMsg) : (sendOut s m).recorder = s.recorder := rfl
@[simp] theorem sendOut_ports (s : State) (m : OutMsg) : (sendOut s m).ports = s.ports := rfl
@[simp] theorem sendOut_gsram (s : State) (m : OutMsg) : (sendOut s m).gsram = s.gsram := rfl
@[simp] theorem sendOut_dram (s : State) (m : OutMsg) : (sendOut s m).dram = s.dram := rfl
@[simp] theorem sendOut_poison (s : State) (m : OutMsg) : (sendOut s m).poison = s.poison := rfl
@[simp] theorem sendOut_beads (s : State) (m : OutMsg) : (sendOut s m).beads = s.beads := rfl
@[simp] theorem sendOut_chans (s : State) (m : OutMsg) : (sendOut s m).chans = s.chans := rfl
@[simp] theorem sendOut_rx (s : State) (m : OutMsg) : (sendOut s m).rx = s.rx := rfl
@[simp] theorem sendOut_cs (s : State) (m : OutMsg) : (sendOut s m).cs = s.cs := rfl
@[simp] theorem sendOut_tx (s : State) (m : OutMsg) : (sendOut s m).tx = s.tx := rfl
@[simp] theorem sendOut_asrcLive (s : State) (m : OutMsg) : (sendOut s m).asrcLive = s.asrcLive := rfl
@[simp] theorem sendOut_params (s : State) (m : OutMsg) : (sendOut s m).params = s.params := rfl
@[simp] theorem sendOut_xps (s : State) (m : OutMsg) : (sendOut s m).xps = s.xps := rfl
@[simp] theorem sendOut_buses (s : State) (m : OutMsg) : (sendOut s m).buses = s.buses := rfl
@[simp] theorem sendOut_hpfs (s : State) (m : OutMsg) : (sendOut s m).hpfs = s.hpfs := rfl
@[simp] theorem sendOut_peaks (s : State) (m : OutMsg) : (sendOut s m).peaks = s.peaks := rfl
@[simp] theorem sendOut_routes (s : State) (m : OutMsg) : (sendOut s m).routes = s.routes := rfl
@[simp] theorem sendOut_fades (s : State) (m : OutMsg) : (sendOut s m).fades = s.fades := rfl
@[simp] theorem sendOut_routeWait (s : State) (m : OutMsg) : (sendOut s m).routeWait = s.routeWait := rfl
@[simp] theorem sendOut_taps (s : State) (m : OutMsg) : (sendOut s m).taps = s.taps := rfl
@[simp] theorem sendOut_lines (s : State) (m : OutMsg) : (sendOut s m).lines = s.lines := rfl
@[simp] theorem sendOut_meters (s : State) (m : OutMsg) : (sendOut s m).meters = s.meters := rfl
@[simp] theorem sendOut_meterIndex (s : State) (m : OutMsg) : (sendOut s m).meterIndex = s.meterIndex := rfl
@[simp] theorem sendOut_meterClears (s : State) (m : OutMsg) : (sendOut s m).meterClears = s.meterClears := rfl
@[simp] theorem sendOut_rods (s : State) (m : OutMsg) : (sendOut s m).rods = s.rods := rfl
@[simp] theorem sendOut_frameMem (s : State) (m : OutMsg) : (sendOut s m).frameMem = s.frameMem := rfl
@[simp] theorem sendOut_banks (s : State) (m : OutMsg) : (sendOut s m).banks = s.banks := rfl
@[simp] theorem sendOut_loads (s : State) (m : OutMsg) : (sendOut s m).loads = s.loads := rfl
@[simp] theorem sendOut_nets (s : State) (m : OutMsg) : (sendOut s m).nets = s.nets := rfl
@[simp] theorem sendOut_posted (s : State) (m : OutMsg) : (sendOut s m).posted = s.posted := rfl
@[simp] theorem sendOut_strRx (s : State) (m : OutMsg) : (sendOut s m).strRx = s.strRx := rfl
@[simp] theorem sendOut_strTx (s : State) (m : OutMsg) : (sendOut s m).strTx = s.strTx := rfl
@[simp] theorem sendOut_supplied (s : State) (m : OutMsg) : (sendOut s m).supplied = s.supplied := rfl
@[simp] theorem sendOut_strClears (s : State) (m : OutMsg) : (sendOut s m).strClears = s.strClears := rfl
@[simp] theorem sendOut_tallies (s : State) (m : OutMsg) : (sendOut s m).tallies = s.tallies := rfl
@[simp] theorem sendOut_snap (s : State) (m : OutMsg) : (sendOut s m).snap = s.snap := rfl
@[simp] theorem sendOut_barA (s : State) (m : OutMsg) : (sendOut s m).barA = s.barA := rfl
@[simp] theorem sendOut_barB (s : State) (m : OutMsg) : (sendOut s m).barB = s.barB := rfl
@[simp] theorem sendOut_dieA (s : State) (m : OutMsg) : (sendOut s m).dieA = s.dieA := rfl
@[simp] theorem sendOut_dieB (s : State) (m : OutMsg) : (sendOut s m).dieB = s.dieB := rfl
@[simp] theorem sendOut_chmapPrev (s : State) (m : OutMsg) : (sendOut s m).chmapPrev = s.chmapPrev := rfl
@[simp] theorem sendOut_chmapPlay (s : State) (m : OutMsg) : (sendOut s m).chmapPlay = s.chmapPlay := rfl
@[simp] theorem sendOut_stk (s : State) (m : OutMsg) : (sendOut s m).stk = s.stk := rfl
@[simp] theorem sendOut_mgt (s : State) (m : OutMsg) : (sendOut s m).mgt = s.mgt := rfl
@[simp] theorem sendOut_flash (s : State) (m : OutMsg) : (sendOut s m).flash = s.flash := rfl
@[simp] theorem sendOut_boot (s : State) (m : OutMsg) : (sendOut s m).boot = s.boot := rfl
@[simp] theorem sendOut_qps (s : State) (m : OutMsg) : (sendOut s m).qps = s.qps := rfl
@[simp] theorem sendOut_diags (s : State) (m : OutMsg) : (sendOut s m).diags = s.diags := rfl
@[simp] theorem sendOut_turns (s : State) (m : OutMsg) : (sendOut s m).turns = s.turns := rfl
@[simp] theorem sendOut_doorbell (s : State) (m : OutMsg) : (sendOut s m).doorbell = s.doorbell := rfl
@[simp] theorem sendOut_pageBad (s : State) (m : OutMsg) : (sendOut s m).pageBad = s.pageBad := rfl
@[simp] theorem sendOut_hostMem (s : State) (m : OutMsg) : (sendOut s m).hostMem = s.hostMem := rfl
@[simp] theorem sendOut_pending (s : State) (m : OutMsg) : (sendOut s m).pending = s.pending := rfl
@[simp] theorem sendOut_free (s : State) (m : OutMsg) : (sendOut s m).free = s.free := rfl
@[simp] theorem sendOut_sent (s : State) (m : OutMsg) : (sendOut s m).sent = m :: s.sent := rfl
@[simp] theorem hostPut_variant (s : State) (a : Nat) (bs : List Byte) : (hostPut s a bs).variant = s.variant := rfl
@[simp] theorem hostPut_powered (s : State) (a : Nat) (bs : List Byte) : (hostPut s a bs).powered = s.powered := rfl
@[simp] theorem hostPut_perstLow (s : State) (a : Nat) (bs : List Byte) : (hostPut s a bs).perstLow = s.perstLow := rfl
@[simp] theorem hostPut_pcieUp (s : State) (a : Nat) (bs : List Byte) : (hostPut s a bs).pcieUp = s.pcieUp := rfl
@[simp] theorem hostPut_pcie (s : State) (a : Nat) (bs : List Byte) : (hostPut s a bs).pcie = s.pcie := rfl
@[simp] theorem hostPut_regs (s : State) (a : Nat) (bs : List Byte) : (hostPut s a bs).regs = s.regs := rfl
@[simp] theorem hostPut_time (s : State) (a : Nat) (bs : List Byte) : (hostPut s a bs).time = s.time := rfl
@[simp] theorem hostPut_grid (s : State) (a : Nat) (bs : List Byte) : (hostPut s a bs).grid = s.grid := rfl
@[simp] theorem hostPut_loop (s : State) (a : Nat) (bs : List Byte) : (hostPut s a bs).loop = s.loop := rfl
@[simp] theorem hostPut_collector (s : State) (a : Nat) (bs : List Byte) : (hostPut s a bs).collector = s.collector :=
  rfl
@[simp] theorem hostPut_recorder (s : State) (a : Nat) (bs : List Byte) : (hostPut s a bs).recorder = s.recorder := rfl
@[simp] theorem hostPut_ports (s : State) (a : Nat) (bs : List Byte) : (hostPut s a bs).ports = s.ports := rfl
@[simp] theorem hostPut_gsram (s : State) (a : Nat) (bs : List Byte) : (hostPut s a bs).gsram = s.gsram := rfl
@[simp] theorem hostPut_dram (s : State) (a : Nat) (bs : List Byte) : (hostPut s a bs).dram = s.dram := rfl
@[simp] theorem hostPut_poison (s : State) (a : Nat) (bs : List Byte) : (hostPut s a bs).poison = s.poison := rfl
@[simp] theorem hostPut_beads (s : State) (a : Nat) (bs : List Byte) : (hostPut s a bs).beads = s.beads := rfl
@[simp] theorem hostPut_chans (s : State) (a : Nat) (bs : List Byte) : (hostPut s a bs).chans = s.chans := rfl
@[simp] theorem hostPut_rx (s : State) (a : Nat) (bs : List Byte) : (hostPut s a bs).rx = s.rx := rfl
@[simp] theorem hostPut_cs (s : State) (a : Nat) (bs : List Byte) : (hostPut s a bs).cs = s.cs := rfl
@[simp] theorem hostPut_tx (s : State) (a : Nat) (bs : List Byte) : (hostPut s a bs).tx = s.tx := rfl
@[simp] theorem hostPut_asrcLive (s : State) (a : Nat) (bs : List Byte) : (hostPut s a bs).asrcLive = s.asrcLive := rfl
@[simp] theorem hostPut_params (s : State) (a : Nat) (bs : List Byte) : (hostPut s a bs).params = s.params := rfl
@[simp] theorem hostPut_xps (s : State) (a : Nat) (bs : List Byte) : (hostPut s a bs).xps = s.xps := rfl
@[simp] theorem hostPut_buses (s : State) (a : Nat) (bs : List Byte) : (hostPut s a bs).buses = s.buses := rfl
@[simp] theorem hostPut_hpfs (s : State) (a : Nat) (bs : List Byte) : (hostPut s a bs).hpfs = s.hpfs := rfl
@[simp] theorem hostPut_peaks (s : State) (a : Nat) (bs : List Byte) : (hostPut s a bs).peaks = s.peaks := rfl
@[simp] theorem hostPut_routes (s : State) (a : Nat) (bs : List Byte) : (hostPut s a bs).routes = s.routes := rfl
@[simp] theorem hostPut_fades (s : State) (a : Nat) (bs : List Byte) : (hostPut s a bs).fades = s.fades := rfl
@[simp] theorem hostPut_routeWait (s : State) (a : Nat) (bs : List Byte) : (hostPut s a bs).routeWait = s.routeWait :=
  rfl
@[simp] theorem hostPut_taps (s : State) (a : Nat) (bs : List Byte) : (hostPut s a bs).taps = s.taps := rfl
@[simp] theorem hostPut_lines (s : State) (a : Nat) (bs : List Byte) : (hostPut s a bs).lines = s.lines := rfl
@[simp] theorem hostPut_meters (s : State) (a : Nat) (bs : List Byte) : (hostPut s a bs).meters = s.meters := rfl
@[simp] theorem hostPut_meterIndex (s : State) (a : Nat) (bs : List Byte) : (hostPut s a bs).meterIndex = s.meterIndex :=
  rfl
@[simp] theorem hostPut_meterClears (s : State) (a : Nat) (bs : List Byte) : (hostPut s a bs).meterClears = s.meterClears :=
  rfl
@[simp] theorem hostPut_rods (s : State) (a : Nat) (bs : List Byte) : (hostPut s a bs).rods = s.rods := rfl
@[simp] theorem hostPut_frameMem (s : State) (a : Nat) (bs : List Byte) : (hostPut s a bs).frameMem = s.frameMem := rfl
@[simp] theorem hostPut_banks (s : State) (a : Nat) (bs : List Byte) : (hostPut s a bs).banks = s.banks := rfl
@[simp] theorem hostPut_loads (s : State) (a : Nat) (bs : List Byte) : (hostPut s a bs).loads = s.loads := rfl
@[simp] theorem hostPut_nets (s : State) (a : Nat) (bs : List Byte) : (hostPut s a bs).nets = s.nets := rfl
@[simp] theorem hostPut_posted (s : State) (a : Nat) (bs : List Byte) : (hostPut s a bs).posted = s.posted := rfl
@[simp] theorem hostPut_strRx (s : State) (a : Nat) (bs : List Byte) : (hostPut s a bs).strRx = s.strRx := rfl
@[simp] theorem hostPut_strTx (s : State) (a : Nat) (bs : List Byte) : (hostPut s a bs).strTx = s.strTx := rfl
@[simp] theorem hostPut_supplied (s : State) (a : Nat) (bs : List Byte) : (hostPut s a bs).supplied = s.supplied := rfl
@[simp] theorem hostPut_strClears (s : State) (a : Nat) (bs : List Byte) : (hostPut s a bs).strClears = s.strClears :=
  rfl
@[simp] theorem hostPut_tallies (s : State) (a : Nat) (bs : List Byte) : (hostPut s a bs).tallies = s.tallies := rfl
@[simp] theorem hostPut_snap (s : State) (a : Nat) (bs : List Byte) : (hostPut s a bs).snap = s.snap := rfl
@[simp] theorem hostPut_barA (s : State) (a : Nat) (bs : List Byte) : (hostPut s a bs).barA = s.barA := rfl
@[simp] theorem hostPut_barB (s : State) (a : Nat) (bs : List Byte) : (hostPut s a bs).barB = s.barB := rfl
@[simp] theorem hostPut_dieA (s : State) (a : Nat) (bs : List Byte) : (hostPut s a bs).dieA = s.dieA := rfl
@[simp] theorem hostPut_dieB (s : State) (a : Nat) (bs : List Byte) : (hostPut s a bs).dieB = s.dieB := rfl
@[simp] theorem hostPut_chmapPrev (s : State) (a : Nat) (bs : List Byte) : (hostPut s a bs).chmapPrev = s.chmapPrev :=
  rfl
@[simp] theorem hostPut_chmapPlay (s : State) (a : Nat) (bs : List Byte) : (hostPut s a bs).chmapPlay = s.chmapPlay :=
  rfl
@[simp] theorem hostPut_stk (s : State) (a : Nat) (bs : List Byte) : (hostPut s a bs).stk = s.stk := rfl
@[simp] theorem hostPut_mgt (s : State) (a : Nat) (bs : List Byte) : (hostPut s a bs).mgt = s.mgt := rfl
@[simp] theorem hostPut_flash (s : State) (a : Nat) (bs : List Byte) : (hostPut s a bs).flash = s.flash := rfl
@[simp] theorem hostPut_boot (s : State) (a : Nat) (bs : List Byte) : (hostPut s a bs).boot = s.boot := rfl
@[simp] theorem hostPut_qps (s : State) (a : Nat) (bs : List Byte) : (hostPut s a bs).qps = s.qps := rfl
@[simp] theorem hostPut_diags (s : State) (a : Nat) (bs : List Byte) : (hostPut s a bs).diags = s.diags := rfl
@[simp] theorem hostPut_turns (s : State) (a : Nat) (bs : List Byte) : (hostPut s a bs).turns = s.turns := rfl
@[simp] theorem hostPut_doorbell (s : State) (a : Nat) (bs : List Byte) : (hostPut s a bs).doorbell = s.doorbell := rfl
@[simp] theorem hostPut_pageBad (s : State) (a : Nat) (bs : List Byte) : (hostPut s a bs).pageBad = s.pageBad := rfl
@[simp] theorem hostPut_sent (s : State) (a : Nat) (bs : List Byte) : (hostPut s a bs).sent = s.sent := rfl
@[simp] theorem hostPut_pending (s : State) (a : Nat) (bs : List Byte) : (hostPut s a bs).pending = s.pending := rfl
@[simp] theorem hostPut_free (s : State) (a : Nat) (bs : List Byte) : (hostPut s a bs).free = s.free := rfl
@[simp] theorem flashWrite_variant (s : State) (a : Nat) (bs : List Byte) : (flashWrite s a bs).variant = s.variant :=
  rfl
@[simp] theorem flashWrite_powered (s : State) (a : Nat) (bs : List Byte) : (flashWrite s a bs).powered = s.powered :=
  rfl
@[simp] theorem flashWrite_perstLow (s : State) (a : Nat) (bs : List Byte) : (flashWrite s a bs).perstLow = s.perstLow :=
  rfl
@[simp] theorem flashWrite_pcieUp (s : State) (a : Nat) (bs : List Byte) : (flashWrite s a bs).pcieUp = s.pcieUp := rfl
@[simp] theorem flashWrite_pcie (s : State) (a : Nat) (bs : List Byte) : (flashWrite s a bs).pcie = s.pcie := rfl
@[simp] theorem flashWrite_regs (s : State) (a : Nat) (bs : List Byte) : (flashWrite s a bs).regs = s.regs := rfl
@[simp] theorem flashWrite_time (s : State) (a : Nat) (bs : List Byte) : (flashWrite s a bs).time = s.time := rfl
@[simp] theorem flashWrite_grid (s : State) (a : Nat) (bs : List Byte) : (flashWrite s a bs).grid = s.grid := rfl
@[simp] theorem flashWrite_loop (s : State) (a : Nat) (bs : List Byte) : (flashWrite s a bs).loop = s.loop := rfl
@[simp] theorem flashWrite_collector (s : State) (a : Nat) (bs : List Byte) : (flashWrite s a bs).collector = s.collector :=
  rfl
@[simp] theorem flashWrite_recorder (s : State) (a : Nat) (bs : List Byte) : (flashWrite s a bs).recorder = s.recorder :=
  rfl
@[simp] theorem flashWrite_ports (s : State) (a : Nat) (bs : List Byte) : (flashWrite s a bs).ports = s.ports := rfl
@[simp] theorem flashWrite_gsram (s : State) (a : Nat) (bs : List Byte) : (flashWrite s a bs).gsram = s.gsram := rfl
@[simp] theorem flashWrite_dram (s : State) (a : Nat) (bs : List Byte) : (flashWrite s a bs).dram = s.dram := rfl
@[simp] theorem flashWrite_poison (s : State) (a : Nat) (bs : List Byte) : (flashWrite s a bs).poison = s.poison := rfl
@[simp] theorem flashWrite_beads (s : State) (a : Nat) (bs : List Byte) : (flashWrite s a bs).beads = s.beads := rfl
@[simp] theorem flashWrite_chans (s : State) (a : Nat) (bs : List Byte) : (flashWrite s a bs).chans = s.chans := rfl
@[simp] theorem flashWrite_rx (s : State) (a : Nat) (bs : List Byte) : (flashWrite s a bs).rx = s.rx := rfl
@[simp] theorem flashWrite_cs (s : State) (a : Nat) (bs : List Byte) : (flashWrite s a bs).cs = s.cs := rfl
@[simp] theorem flashWrite_tx (s : State) (a : Nat) (bs : List Byte) : (flashWrite s a bs).tx = s.tx := rfl
@[simp] theorem flashWrite_asrcLive (s : State) (a : Nat) (bs : List Byte) : (flashWrite s a bs).asrcLive = s.asrcLive :=
  rfl
@[simp] theorem flashWrite_params (s : State) (a : Nat) (bs : List Byte) : (flashWrite s a bs).params = s.params := rfl
@[simp] theorem flashWrite_xps (s : State) (a : Nat) (bs : List Byte) : (flashWrite s a bs).xps = s.xps := rfl
@[simp] theorem flashWrite_buses (s : State) (a : Nat) (bs : List Byte) : (flashWrite s a bs).buses = s.buses := rfl
@[simp] theorem flashWrite_hpfs (s : State) (a : Nat) (bs : List Byte) : (flashWrite s a bs).hpfs = s.hpfs := rfl
@[simp] theorem flashWrite_peaks (s : State) (a : Nat) (bs : List Byte) : (flashWrite s a bs).peaks = s.peaks := rfl
@[simp] theorem flashWrite_routes (s : State) (a : Nat) (bs : List Byte) : (flashWrite s a bs).routes = s.routes := rfl
@[simp] theorem flashWrite_fades (s : State) (a : Nat) (bs : List Byte) : (flashWrite s a bs).fades = s.fades := rfl
@[simp] theorem flashWrite_routeWait (s : State) (a : Nat) (bs : List Byte) : (flashWrite s a bs).routeWait = s.routeWait :=
  rfl
@[simp] theorem flashWrite_taps (s : State) (a : Nat) (bs : List Byte) : (flashWrite s a bs).taps = s.taps := rfl
@[simp] theorem flashWrite_lines (s : State) (a : Nat) (bs : List Byte) : (flashWrite s a bs).lines = s.lines := rfl
@[simp] theorem flashWrite_meters (s : State) (a : Nat) (bs : List Byte) : (flashWrite s a bs).meters = s.meters := rfl
@[simp] theorem flashWrite_meterIndex (s : State) (a : Nat) (bs : List Byte) : (flashWrite s a bs).meterIndex = s.meterIndex :=
  rfl
@[simp] theorem flashWrite_meterClears (s : State) (a : Nat) (bs : List Byte) : (flashWrite s a bs).meterClears = s.meterClears :=
  rfl
@[simp] theorem flashWrite_rods (s : State) (a : Nat) (bs : List Byte) : (flashWrite s a bs).rods = s.rods := rfl
@[simp] theorem flashWrite_frameMem (s : State) (a : Nat) (bs : List Byte) : (flashWrite s a bs).frameMem = s.frameMem :=
  rfl
@[simp] theorem flashWrite_banks (s : State) (a : Nat) (bs : List Byte) : (flashWrite s a bs).banks = s.banks := rfl
@[simp] theorem flashWrite_loads (s : State) (a : Nat) (bs : List Byte) : (flashWrite s a bs).loads = s.loads := rfl
@[simp] theorem flashWrite_nets (s : State) (a : Nat) (bs : List Byte) : (flashWrite s a bs).nets = s.nets := rfl
@[simp] theorem flashWrite_posted (s : State) (a : Nat) (bs : List Byte) : (flashWrite s a bs).posted = s.posted := rfl
@[simp] theorem flashWrite_strRx (s : State) (a : Nat) (bs : List Byte) : (flashWrite s a bs).strRx = s.strRx := rfl
@[simp] theorem flashWrite_strTx (s : State) (a : Nat) (bs : List Byte) : (flashWrite s a bs).strTx = s.strTx := rfl
@[simp] theorem flashWrite_supplied (s : State) (a : Nat) (bs : List Byte) : (flashWrite s a bs).supplied = s.supplied :=
  rfl
@[simp] theorem flashWrite_strClears (s : State) (a : Nat) (bs : List Byte) : (flashWrite s a bs).strClears = s.strClears :=
  rfl
@[simp] theorem flashWrite_tallies (s : State) (a : Nat) (bs : List Byte) : (flashWrite s a bs).tallies = s.tallies :=
  rfl
@[simp] theorem flashWrite_snap (s : State) (a : Nat) (bs : List Byte) : (flashWrite s a bs).snap = s.snap := rfl
@[simp] theorem flashWrite_barA (s : State) (a : Nat) (bs : List Byte) : (flashWrite s a bs).barA = s.barA := rfl
@[simp] theorem flashWrite_barB (s : State) (a : Nat) (bs : List Byte) : (flashWrite s a bs).barB = s.barB := rfl
@[simp] theorem flashWrite_dieA (s : State) (a : Nat) (bs : List Byte) : (flashWrite s a bs).dieA = s.dieA := rfl
@[simp] theorem flashWrite_dieB (s : State) (a : Nat) (bs : List Byte) : (flashWrite s a bs).dieB = s.dieB := rfl
@[simp] theorem flashWrite_chmapPrev (s : State) (a : Nat) (bs : List Byte) : (flashWrite s a bs).chmapPrev = s.chmapPrev :=
  rfl
@[simp] theorem flashWrite_chmapPlay (s : State) (a : Nat) (bs : List Byte) : (flashWrite s a bs).chmapPlay = s.chmapPlay :=
  rfl
@[simp] theorem flashWrite_stk (s : State) (a : Nat) (bs : List Byte) : (flashWrite s a bs).stk = s.stk := rfl
@[simp] theorem flashWrite_mgt (s : State) (a : Nat) (bs : List Byte) : (flashWrite s a bs).mgt = s.mgt := rfl
@[simp] theorem flashWrite_boot (s : State) (a : Nat) (bs : List Byte) : (flashWrite s a bs).boot = s.boot := rfl
@[simp] theorem flashWrite_qps (s : State) (a : Nat) (bs : List Byte) : (flashWrite s a bs).qps = s.qps := rfl
@[simp] theorem flashWrite_diags (s : State) (a : Nat) (bs : List Byte) : (flashWrite s a bs).diags = s.diags := rfl
@[simp] theorem flashWrite_turns (s : State) (a : Nat) (bs : List Byte) : (flashWrite s a bs).turns = s.turns := rfl
@[simp] theorem flashWrite_doorbell (s : State) (a : Nat) (bs : List Byte) : (flashWrite s a bs).doorbell = s.doorbell :=
  rfl
@[simp] theorem flashWrite_pageBad (s : State) (a : Nat) (bs : List Byte) : (flashWrite s a bs).pageBad = s.pageBad :=
  rfl
@[simp] theorem flashWrite_hostMem (s : State) (a : Nat) (bs : List Byte) : (flashWrite s a bs).hostMem = s.hostMem :=
  rfl
@[simp] theorem flashWrite_sent (s : State) (a : Nat) (bs : List Byte) : (flashWrite s a bs).sent = s.sent := rfl
@[simp] theorem flashWrite_pending (s : State) (a : Nat) (bs : List Byte) : (flashWrite s a bs).pending = s.pending :=
  rfl
@[simp] theorem flashWrite_free (s : State) (a : Nat) (bs : List Byte) : (flashWrite s a bs).free = s.free := rfl
@[simp] theorem flashErase_variant (s : State) (a n : Nat) : (flashErase s a n).variant = s.variant := rfl
@[simp] theorem flashErase_powered (s : State) (a n : Nat) : (flashErase s a n).powered = s.powered := rfl
@[simp] theorem flashErase_perstLow (s : State) (a n : Nat) : (flashErase s a n).perstLow = s.perstLow := rfl
@[simp] theorem flashErase_pcieUp (s : State) (a n : Nat) : (flashErase s a n).pcieUp = s.pcieUp := rfl
@[simp] theorem flashErase_pcie (s : State) (a n : Nat) : (flashErase s a n).pcie = s.pcie := rfl
@[simp] theorem flashErase_regs (s : State) (a n : Nat) : (flashErase s a n).regs = s.regs := rfl
@[simp] theorem flashErase_time (s : State) (a n : Nat) : (flashErase s a n).time = s.time := rfl
@[simp] theorem flashErase_grid (s : State) (a n : Nat) : (flashErase s a n).grid = s.grid := rfl
@[simp] theorem flashErase_loop (s : State) (a n : Nat) : (flashErase s a n).loop = s.loop := rfl
@[simp] theorem flashErase_collector (s : State) (a n : Nat) : (flashErase s a n).collector = s.collector := rfl
@[simp] theorem flashErase_recorder (s : State) (a n : Nat) : (flashErase s a n).recorder = s.recorder := rfl
@[simp] theorem flashErase_ports (s : State) (a n : Nat) : (flashErase s a n).ports = s.ports := rfl
@[simp] theorem flashErase_gsram (s : State) (a n : Nat) : (flashErase s a n).gsram = s.gsram := rfl
@[simp] theorem flashErase_dram (s : State) (a n : Nat) : (flashErase s a n).dram = s.dram := rfl
@[simp] theorem flashErase_poison (s : State) (a n : Nat) : (flashErase s a n).poison = s.poison := rfl
@[simp] theorem flashErase_beads (s : State) (a n : Nat) : (flashErase s a n).beads = s.beads := rfl
@[simp] theorem flashErase_chans (s : State) (a n : Nat) : (flashErase s a n).chans = s.chans := rfl
@[simp] theorem flashErase_rx (s : State) (a n : Nat) : (flashErase s a n).rx = s.rx := rfl
@[simp] theorem flashErase_cs (s : State) (a n : Nat) : (flashErase s a n).cs = s.cs := rfl
@[simp] theorem flashErase_tx (s : State) (a n : Nat) : (flashErase s a n).tx = s.tx := rfl
@[simp] theorem flashErase_asrcLive (s : State) (a n : Nat) : (flashErase s a n).asrcLive = s.asrcLive := rfl
@[simp] theorem flashErase_params (s : State) (a n : Nat) : (flashErase s a n).params = s.params := rfl
@[simp] theorem flashErase_xps (s : State) (a n : Nat) : (flashErase s a n).xps = s.xps := rfl
@[simp] theorem flashErase_buses (s : State) (a n : Nat) : (flashErase s a n).buses = s.buses := rfl
@[simp] theorem flashErase_hpfs (s : State) (a n : Nat) : (flashErase s a n).hpfs = s.hpfs := rfl
@[simp] theorem flashErase_peaks (s : State) (a n : Nat) : (flashErase s a n).peaks = s.peaks := rfl
@[simp] theorem flashErase_routes (s : State) (a n : Nat) : (flashErase s a n).routes = s.routes := rfl
@[simp] theorem flashErase_fades (s : State) (a n : Nat) : (flashErase s a n).fades = s.fades := rfl
@[simp] theorem flashErase_routeWait (s : State) (a n : Nat) : (flashErase s a n).routeWait = s.routeWait := rfl
@[simp] theorem flashErase_taps (s : State) (a n : Nat) : (flashErase s a n).taps = s.taps := rfl
@[simp] theorem flashErase_lines (s : State) (a n : Nat) : (flashErase s a n).lines = s.lines := rfl
@[simp] theorem flashErase_meters (s : State) (a n : Nat) : (flashErase s a n).meters = s.meters := rfl
@[simp] theorem flashErase_meterIndex (s : State) (a n : Nat) : (flashErase s a n).meterIndex = s.meterIndex := rfl
@[simp] theorem flashErase_meterClears (s : State) (a n : Nat) : (flashErase s a n).meterClears = s.meterClears := rfl
@[simp] theorem flashErase_rods (s : State) (a n : Nat) : (flashErase s a n).rods = s.rods := rfl
@[simp] theorem flashErase_frameMem (s : State) (a n : Nat) : (flashErase s a n).frameMem = s.frameMem := rfl
@[simp] theorem flashErase_banks (s : State) (a n : Nat) : (flashErase s a n).banks = s.banks := rfl
@[simp] theorem flashErase_loads (s : State) (a n : Nat) : (flashErase s a n).loads = s.loads := rfl
@[simp] theorem flashErase_nets (s : State) (a n : Nat) : (flashErase s a n).nets = s.nets := rfl
@[simp] theorem flashErase_posted (s : State) (a n : Nat) : (flashErase s a n).posted = s.posted := rfl
@[simp] theorem flashErase_strRx (s : State) (a n : Nat) : (flashErase s a n).strRx = s.strRx := rfl
@[simp] theorem flashErase_strTx (s : State) (a n : Nat) : (flashErase s a n).strTx = s.strTx := rfl
@[simp] theorem flashErase_supplied (s : State) (a n : Nat) : (flashErase s a n).supplied = s.supplied := rfl
@[simp] theorem flashErase_strClears (s : State) (a n : Nat) : (flashErase s a n).strClears = s.strClears := rfl
@[simp] theorem flashErase_tallies (s : State) (a n : Nat) : (flashErase s a n).tallies = s.tallies := rfl
@[simp] theorem flashErase_snap (s : State) (a n : Nat) : (flashErase s a n).snap = s.snap := rfl
@[simp] theorem flashErase_barA (s : State) (a n : Nat) : (flashErase s a n).barA = s.barA := rfl
@[simp] theorem flashErase_barB (s : State) (a n : Nat) : (flashErase s a n).barB = s.barB := rfl
@[simp] theorem flashErase_dieA (s : State) (a n : Nat) : (flashErase s a n).dieA = s.dieA := rfl
@[simp] theorem flashErase_dieB (s : State) (a n : Nat) : (flashErase s a n).dieB = s.dieB := rfl
@[simp] theorem flashErase_chmapPrev (s : State) (a n : Nat) : (flashErase s a n).chmapPrev = s.chmapPrev := rfl
@[simp] theorem flashErase_chmapPlay (s : State) (a n : Nat) : (flashErase s a n).chmapPlay = s.chmapPlay := rfl
@[simp] theorem flashErase_stk (s : State) (a n : Nat) : (flashErase s a n).stk = s.stk := rfl
@[simp] theorem flashErase_mgt (s : State) (a n : Nat) : (flashErase s a n).mgt = s.mgt := rfl
@[simp] theorem flashErase_boot (s : State) (a n : Nat) : (flashErase s a n).boot = s.boot := rfl
@[simp] theorem flashErase_qps (s : State) (a n : Nat) : (flashErase s a n).qps = s.qps := rfl
@[simp] theorem flashErase_diags (s : State) (a n : Nat) : (flashErase s a n).diags = s.diags := rfl
@[simp] theorem flashErase_turns (s : State) (a n : Nat) : (flashErase s a n).turns = s.turns := rfl
@[simp] theorem flashErase_doorbell (s : State) (a n : Nat) : (flashErase s a n).doorbell = s.doorbell := rfl
@[simp] theorem flashErase_pageBad (s : State) (a n : Nat) : (flashErase s a n).pageBad = s.pageBad := rfl
@[simp] theorem flashErase_hostMem (s : State) (a n : Nat) : (flashErase s a n).hostMem = s.hostMem := rfl
@[simp] theorem flashErase_sent (s : State) (a n : Nat) : (flashErase s a n).sent = s.sent := rfl
@[simp] theorem flashErase_pending (s : State) (a n : Nat) : (flashErase s a n).pending = s.pending := rfl
@[simp] theorem flashErase_free (s : State) (a n : Nat) : (flashErase s a n).free = s.free := rfl
@[simp] theorem setBucket_variant (s : State) (code : Nat) (b : Bucket) : (setBucket s code b).variant = s.variant :=
  rfl
@[simp] theorem setBucket_powered (s : State) (code : Nat) (b : Bucket) : (setBucket s code b).powered = s.powered :=
  rfl
@[simp] theorem setBucket_perstLow (s : State) (code : Nat) (b : Bucket) : (setBucket s code b).perstLow = s.perstLow :=
  rfl
@[simp] theorem setBucket_pcieUp (s : State) (code : Nat) (b : Bucket) : (setBucket s code b).pcieUp = s.pcieUp := rfl
@[simp] theorem setBucket_pcie (s : State) (code : Nat) (b : Bucket) : (setBucket s code b).pcie = s.pcie := rfl
@[simp] theorem setBucket_regs (s : State) (code : Nat) (b : Bucket) : (setBucket s code b).regs = s.regs := rfl
@[simp] theorem setBucket_time (s : State) (code : Nat) (b : Bucket) : (setBucket s code b).time = s.time := rfl
@[simp] theorem setBucket_grid (s : State) (code : Nat) (b : Bucket) : (setBucket s code b).grid = s.grid := rfl
@[simp] theorem setBucket_loop (s : State) (code : Nat) (b : Bucket) : (setBucket s code b).loop = s.loop := rfl
@[simp] theorem setBucket_collector (s : State) (code : Nat) (b : Bucket) : (setBucket s code b).collector = s.collector :=
  rfl
@[simp] theorem setBucket_ports (s : State) (code : Nat) (b : Bucket) : (setBucket s code b).ports = s.ports := rfl
@[simp] theorem setBucket_gsram (s : State) (code : Nat) (b : Bucket) : (setBucket s code b).gsram = s.gsram := rfl
@[simp] theorem setBucket_dram (s : State) (code : Nat) (b : Bucket) : (setBucket s code b).dram = s.dram := rfl
@[simp] theorem setBucket_poison (s : State) (code : Nat) (b : Bucket) : (setBucket s code b).poison = s.poison := rfl
@[simp] theorem setBucket_beads (s : State) (code : Nat) (b : Bucket) : (setBucket s code b).beads = s.beads := rfl
@[simp] theorem setBucket_chans (s : State) (code : Nat) (b : Bucket) : (setBucket s code b).chans = s.chans := rfl
@[simp] theorem setBucket_rx (s : State) (code : Nat) (b : Bucket) : (setBucket s code b).rx = s.rx := rfl
@[simp] theorem setBucket_cs (s : State) (code : Nat) (b : Bucket) : (setBucket s code b).cs = s.cs := rfl
@[simp] theorem setBucket_tx (s : State) (code : Nat) (b : Bucket) : (setBucket s code b).tx = s.tx := rfl
@[simp] theorem setBucket_asrcLive (s : State) (code : Nat) (b : Bucket) : (setBucket s code b).asrcLive = s.asrcLive :=
  rfl
@[simp] theorem setBucket_params (s : State) (code : Nat) (b : Bucket) : (setBucket s code b).params = s.params := rfl
@[simp] theorem setBucket_xps (s : State) (code : Nat) (b : Bucket) : (setBucket s code b).xps = s.xps := rfl
@[simp] theorem setBucket_buses (s : State) (code : Nat) (b : Bucket) : (setBucket s code b).buses = s.buses := rfl
@[simp] theorem setBucket_hpfs (s : State) (code : Nat) (b : Bucket) : (setBucket s code b).hpfs = s.hpfs := rfl
@[simp] theorem setBucket_peaks (s : State) (code : Nat) (b : Bucket) : (setBucket s code b).peaks = s.peaks := rfl
@[simp] theorem setBucket_routes (s : State) (code : Nat) (b : Bucket) : (setBucket s code b).routes = s.routes := rfl
@[simp] theorem setBucket_fades (s : State) (code : Nat) (b : Bucket) : (setBucket s code b).fades = s.fades := rfl
@[simp] theorem setBucket_routeWait (s : State) (code : Nat) (b : Bucket) : (setBucket s code b).routeWait = s.routeWait :=
  rfl
@[simp] theorem setBucket_taps (s : State) (code : Nat) (b : Bucket) : (setBucket s code b).taps = s.taps := rfl
@[simp] theorem setBucket_lines (s : State) (code : Nat) (b : Bucket) : (setBucket s code b).lines = s.lines := rfl
@[simp] theorem setBucket_meters (s : State) (code : Nat) (b : Bucket) : (setBucket s code b).meters = s.meters := rfl
@[simp] theorem setBucket_meterIndex (s : State) (code : Nat) (b : Bucket) : (setBucket s code b).meterIndex = s.meterIndex :=
  rfl
@[simp] theorem setBucket_meterClears (s : State) (code : Nat) (b : Bucket) : (setBucket s code b).meterClears = s.meterClears :=
  rfl
@[simp] theorem setBucket_rods (s : State) (code : Nat) (b : Bucket) : (setBucket s code b).rods = s.rods := rfl
@[simp] theorem setBucket_frameMem (s : State) (code : Nat) (b : Bucket) : (setBucket s code b).frameMem = s.frameMem :=
  rfl
@[simp] theorem setBucket_banks (s : State) (code : Nat) (b : Bucket) : (setBucket s code b).banks = s.banks := rfl
@[simp] theorem setBucket_loads (s : State) (code : Nat) (b : Bucket) : (setBucket s code b).loads = s.loads := rfl
@[simp] theorem setBucket_nets (s : State) (code : Nat) (b : Bucket) : (setBucket s code b).nets = s.nets := rfl
@[simp] theorem setBucket_posted (s : State) (code : Nat) (b : Bucket) : (setBucket s code b).posted = s.posted := rfl
@[simp] theorem setBucket_strRx (s : State) (code : Nat) (b : Bucket) : (setBucket s code b).strRx = s.strRx := rfl
@[simp] theorem setBucket_strTx (s : State) (code : Nat) (b : Bucket) : (setBucket s code b).strTx = s.strTx := rfl
@[simp] theorem setBucket_supplied (s : State) (code : Nat) (b : Bucket) : (setBucket s code b).supplied = s.supplied :=
  rfl
@[simp] theorem setBucket_strClears (s : State) (code : Nat) (b : Bucket) : (setBucket s code b).strClears = s.strClears :=
  rfl
@[simp] theorem setBucket_tallies (s : State) (code : Nat) (b : Bucket) : (setBucket s code b).tallies = s.tallies :=
  rfl
@[simp] theorem setBucket_snap (s : State) (code : Nat) (b : Bucket) : (setBucket s code b).snap = s.snap := rfl
@[simp] theorem setBucket_barA (s : State) (code : Nat) (b : Bucket) : (setBucket s code b).barA = s.barA := rfl
@[simp] theorem setBucket_barB (s : State) (code : Nat) (b : Bucket) : (setBucket s code b).barB = s.barB := rfl
@[simp] theorem setBucket_dieA (s : State) (code : Nat) (b : Bucket) : (setBucket s code b).dieA = s.dieA := rfl
@[simp] theorem setBucket_dieB (s : State) (code : Nat) (b : Bucket) : (setBucket s code b).dieB = s.dieB := rfl
@[simp] theorem setBucket_chmapPrev (s : State) (code : Nat) (b : Bucket) : (setBucket s code b).chmapPrev = s.chmapPrev :=
  rfl
@[simp] theorem setBucket_chmapPlay (s : State) (code : Nat) (b : Bucket) : (setBucket s code b).chmapPlay = s.chmapPlay :=
  rfl
@[simp] theorem setBucket_stk (s : State) (code : Nat) (b : Bucket) : (setBucket s code b).stk = s.stk := rfl
@[simp] theorem setBucket_mgt (s : State) (code : Nat) (b : Bucket) : (setBucket s code b).mgt = s.mgt := rfl
@[simp] theorem setBucket_flash (s : State) (code : Nat) (b : Bucket) : (setBucket s code b).flash = s.flash := rfl
@[simp] theorem setBucket_boot (s : State) (code : Nat) (b : Bucket) : (setBucket s code b).boot = s.boot := rfl
@[simp] theorem setBucket_qps (s : State) (code : Nat) (b : Bucket) : (setBucket s code b).qps = s.qps := rfl
@[simp] theorem setBucket_diags (s : State) (code : Nat) (b : Bucket) : (setBucket s code b).diags = s.diags := rfl
@[simp] theorem setBucket_turns (s : State) (code : Nat) (b : Bucket) : (setBucket s code b).turns = s.turns := rfl
@[simp] theorem setBucket_doorbell (s : State) (code : Nat) (b : Bucket) : (setBucket s code b).doorbell = s.doorbell :=
  rfl
@[simp] theorem setBucket_pageBad (s : State) (code : Nat) (b : Bucket) : (setBucket s code b).pageBad = s.pageBad :=
  rfl
@[simp] theorem setBucket_hostMem (s : State) (code : Nat) (b : Bucket) : (setBucket s code b).hostMem = s.hostMem :=
  rfl
@[simp] theorem setBucket_sent (s : State) (code : Nat) (b : Bucket) : (setBucket s code b).sent = s.sent := rfl
@[simp] theorem setBucket_pending (s : State) (code : Nat) (b : Bucket) : (setBucket s code b).pending = s.pending :=
  rfl
@[simp] theorem setBucket_free (s : State) (code : Nat) (b : Bucket) : (setBucket s code b).free = s.free := rfl
@[simp] theorem setFlips_variant (s : State) (id m : Nat) : (setFlips s id m).variant = s.variant := rfl
@[simp] theorem setFlips_powered (s : State) (id m : Nat) : (setFlips s id m).powered = s.powered := rfl
@[simp] theorem setFlips_perstLow (s : State) (id m : Nat) : (setFlips s id m).perstLow = s.perstLow := rfl
@[simp] theorem setFlips_pcieUp (s : State) (id m : Nat) : (setFlips s id m).pcieUp = s.pcieUp := rfl
@[simp] theorem setFlips_pcie (s : State) (id m : Nat) : (setFlips s id m).pcie = s.pcie := rfl
@[simp] theorem setFlips_regs (s : State) (id m : Nat) : (setFlips s id m).regs = s.regs := rfl
@[simp] theorem setFlips_time (s : State) (id m : Nat) : (setFlips s id m).time = s.time := rfl
@[simp] theorem setFlips_grid (s : State) (id m : Nat) : (setFlips s id m).grid = s.grid := rfl
@[simp] theorem setFlips_loop (s : State) (id m : Nat) : (setFlips s id m).loop = s.loop := rfl
@[simp] theorem setFlips_recorder (s : State) (id m : Nat) : (setFlips s id m).recorder = s.recorder := rfl
@[simp] theorem setFlips_ports (s : State) (id m : Nat) : (setFlips s id m).ports = s.ports := rfl
@[simp] theorem setFlips_gsram (s : State) (id m : Nat) : (setFlips s id m).gsram = s.gsram := rfl
@[simp] theorem setFlips_dram (s : State) (id m : Nat) : (setFlips s id m).dram = s.dram := rfl
@[simp] theorem setFlips_poison (s : State) (id m : Nat) : (setFlips s id m).poison = s.poison := rfl
@[simp] theorem setFlips_beads (s : State) (id m : Nat) : (setFlips s id m).beads = s.beads := rfl
@[simp] theorem setFlips_chans (s : State) (id m : Nat) : (setFlips s id m).chans = s.chans := rfl
@[simp] theorem setFlips_rx (s : State) (id m : Nat) : (setFlips s id m).rx = s.rx := rfl
@[simp] theorem setFlips_cs (s : State) (id m : Nat) : (setFlips s id m).cs = s.cs := rfl
@[simp] theorem setFlips_tx (s : State) (id m : Nat) : (setFlips s id m).tx = s.tx := rfl
@[simp] theorem setFlips_asrcLive (s : State) (id m : Nat) : (setFlips s id m).asrcLive = s.asrcLive := rfl
@[simp] theorem setFlips_params (s : State) (id m : Nat) : (setFlips s id m).params = s.params := rfl
@[simp] theorem setFlips_xps (s : State) (id m : Nat) : (setFlips s id m).xps = s.xps := rfl
@[simp] theorem setFlips_buses (s : State) (id m : Nat) : (setFlips s id m).buses = s.buses := rfl
@[simp] theorem setFlips_hpfs (s : State) (id m : Nat) : (setFlips s id m).hpfs = s.hpfs := rfl
@[simp] theorem setFlips_peaks (s : State) (id m : Nat) : (setFlips s id m).peaks = s.peaks := rfl
@[simp] theorem setFlips_routes (s : State) (id m : Nat) : (setFlips s id m).routes = s.routes := rfl
@[simp] theorem setFlips_fades (s : State) (id m : Nat) : (setFlips s id m).fades = s.fades := rfl
@[simp] theorem setFlips_routeWait (s : State) (id m : Nat) : (setFlips s id m).routeWait = s.routeWait := rfl
@[simp] theorem setFlips_taps (s : State) (id m : Nat) : (setFlips s id m).taps = s.taps := rfl
@[simp] theorem setFlips_lines (s : State) (id m : Nat) : (setFlips s id m).lines = s.lines := rfl
@[simp] theorem setFlips_meters (s : State) (id m : Nat) : (setFlips s id m).meters = s.meters := rfl
@[simp] theorem setFlips_meterIndex (s : State) (id m : Nat) : (setFlips s id m).meterIndex = s.meterIndex := rfl
@[simp] theorem setFlips_meterClears (s : State) (id m : Nat) : (setFlips s id m).meterClears = s.meterClears := rfl
@[simp] theorem setFlips_rods (s : State) (id m : Nat) : (setFlips s id m).rods = s.rods := rfl
@[simp] theorem setFlips_frameMem (s : State) (id m : Nat) : (setFlips s id m).frameMem = s.frameMem := rfl
@[simp] theorem setFlips_banks (s : State) (id m : Nat) : (setFlips s id m).banks = s.banks := rfl
@[simp] theorem setFlips_loads (s : State) (id m : Nat) : (setFlips s id m).loads = s.loads := rfl
@[simp] theorem setFlips_nets (s : State) (id m : Nat) : (setFlips s id m).nets = s.nets := rfl
@[simp] theorem setFlips_posted (s : State) (id m : Nat) : (setFlips s id m).posted = s.posted := rfl
@[simp] theorem setFlips_strRx (s : State) (id m : Nat) : (setFlips s id m).strRx = s.strRx := rfl
@[simp] theorem setFlips_strTx (s : State) (id m : Nat) : (setFlips s id m).strTx = s.strTx := rfl
@[simp] theorem setFlips_supplied (s : State) (id m : Nat) : (setFlips s id m).supplied = s.supplied := rfl
@[simp] theorem setFlips_strClears (s : State) (id m : Nat) : (setFlips s id m).strClears = s.strClears := rfl
@[simp] theorem setFlips_tallies (s : State) (id m : Nat) : (setFlips s id m).tallies = s.tallies := rfl
@[simp] theorem setFlips_snap (s : State) (id m : Nat) : (setFlips s id m).snap = s.snap := rfl
@[simp] theorem setFlips_barA (s : State) (id m : Nat) : (setFlips s id m).barA = s.barA := rfl
@[simp] theorem setFlips_barB (s : State) (id m : Nat) : (setFlips s id m).barB = s.barB := rfl
@[simp] theorem setFlips_dieA (s : State) (id m : Nat) : (setFlips s id m).dieA = s.dieA := rfl
@[simp] theorem setFlips_dieB (s : State) (id m : Nat) : (setFlips s id m).dieB = s.dieB := rfl
@[simp] theorem setFlips_chmapPrev (s : State) (id m : Nat) : (setFlips s id m).chmapPrev = s.chmapPrev := rfl
@[simp] theorem setFlips_chmapPlay (s : State) (id m : Nat) : (setFlips s id m).chmapPlay = s.chmapPlay := rfl
@[simp] theorem setFlips_stk (s : State) (id m : Nat) : (setFlips s id m).stk = s.stk := rfl
@[simp] theorem setFlips_mgt (s : State) (id m : Nat) : (setFlips s id m).mgt = s.mgt := rfl
@[simp] theorem setFlips_flash (s : State) (id m : Nat) : (setFlips s id m).flash = s.flash := rfl
@[simp] theorem setFlips_boot (s : State) (id m : Nat) : (setFlips s id m).boot = s.boot := rfl
@[simp] theorem setFlips_qps (s : State) (id m : Nat) : (setFlips s id m).qps = s.qps := rfl
@[simp] theorem setFlips_diags (s : State) (id m : Nat) : (setFlips s id m).diags = s.diags := rfl
@[simp] theorem setFlips_turns (s : State) (id m : Nat) : (setFlips s id m).turns = s.turns := rfl
@[simp] theorem setFlips_doorbell (s : State) (id m : Nat) : (setFlips s id m).doorbell = s.doorbell := rfl
@[simp] theorem setFlips_pageBad (s : State) (id m : Nat) : (setFlips s id m).pageBad = s.pageBad := rfl
@[simp] theorem setFlips_hostMem (s : State) (id m : Nat) : (setFlips s id m).hostMem = s.hostMem := rfl
@[simp] theorem setFlips_sent (s : State) (id m : Nat) : (setFlips s id m).sent = s.sent := rfl
@[simp] theorem setFlips_pending (s : State) (id m : Nat) : (setFlips s id m).pending = s.pending := rfl
@[simp] theorem setFlips_free (s : State) (id m : Nat) : (setFlips s id m).free = s.free := rfl
@[simp] theorem setMask_variant (s : State) (id m : Nat) : (setMask s id m).variant = s.variant := rfl
@[simp] theorem setMask_powered (s : State) (id m : Nat) : (setMask s id m).powered = s.powered := rfl
@[simp] theorem setMask_perstLow (s : State) (id m : Nat) : (setMask s id m).perstLow = s.perstLow := rfl
@[simp] theorem setMask_pcieUp (s : State) (id m : Nat) : (setMask s id m).pcieUp = s.pcieUp := rfl
@[simp] theorem setMask_pcie (s : State) (id m : Nat) : (setMask s id m).pcie = s.pcie := rfl
@[simp] theorem setMask_regs (s : State) (id m : Nat) : (setMask s id m).regs = s.regs := rfl
@[simp] theorem setMask_time (s : State) (id m : Nat) : (setMask s id m).time = s.time := rfl
@[simp] theorem setMask_grid (s : State) (id m : Nat) : (setMask s id m).grid = s.grid := rfl
@[simp] theorem setMask_loop (s : State) (id m : Nat) : (setMask s id m).loop = s.loop := rfl
@[simp] theorem setMask_recorder (s : State) (id m : Nat) : (setMask s id m).recorder = s.recorder := rfl
@[simp] theorem setMask_ports (s : State) (id m : Nat) : (setMask s id m).ports = s.ports := rfl
@[simp] theorem setMask_gsram (s : State) (id m : Nat) : (setMask s id m).gsram = s.gsram := rfl
@[simp] theorem setMask_dram (s : State) (id m : Nat) : (setMask s id m).dram = s.dram := rfl
@[simp] theorem setMask_poison (s : State) (id m : Nat) : (setMask s id m).poison = s.poison := rfl
@[simp] theorem setMask_beads (s : State) (id m : Nat) : (setMask s id m).beads = s.beads := rfl
@[simp] theorem setMask_chans (s : State) (id m : Nat) : (setMask s id m).chans = s.chans := rfl
@[simp] theorem setMask_rx (s : State) (id m : Nat) : (setMask s id m).rx = s.rx := rfl
@[simp] theorem setMask_cs (s : State) (id m : Nat) : (setMask s id m).cs = s.cs := rfl
@[simp] theorem setMask_tx (s : State) (id m : Nat) : (setMask s id m).tx = s.tx := rfl
@[simp] theorem setMask_asrcLive (s : State) (id m : Nat) : (setMask s id m).asrcLive = s.asrcLive := rfl
@[simp] theorem setMask_params (s : State) (id m : Nat) : (setMask s id m).params = s.params := rfl
@[simp] theorem setMask_xps (s : State) (id m : Nat) : (setMask s id m).xps = s.xps := rfl
@[simp] theorem setMask_buses (s : State) (id m : Nat) : (setMask s id m).buses = s.buses := rfl
@[simp] theorem setMask_hpfs (s : State) (id m : Nat) : (setMask s id m).hpfs = s.hpfs := rfl
@[simp] theorem setMask_peaks (s : State) (id m : Nat) : (setMask s id m).peaks = s.peaks := rfl
@[simp] theorem setMask_routes (s : State) (id m : Nat) : (setMask s id m).routes = s.routes := rfl
@[simp] theorem setMask_fades (s : State) (id m : Nat) : (setMask s id m).fades = s.fades := rfl
@[simp] theorem setMask_routeWait (s : State) (id m : Nat) : (setMask s id m).routeWait = s.routeWait := rfl
@[simp] theorem setMask_taps (s : State) (id m : Nat) : (setMask s id m).taps = s.taps := rfl
@[simp] theorem setMask_lines (s : State) (id m : Nat) : (setMask s id m).lines = s.lines := rfl
@[simp] theorem setMask_meters (s : State) (id m : Nat) : (setMask s id m).meters = s.meters := rfl
@[simp] theorem setMask_meterIndex (s : State) (id m : Nat) : (setMask s id m).meterIndex = s.meterIndex := rfl
@[simp] theorem setMask_meterClears (s : State) (id m : Nat) : (setMask s id m).meterClears = s.meterClears := rfl
@[simp] theorem setMask_rods (s : State) (id m : Nat) : (setMask s id m).rods = s.rods := rfl
@[simp] theorem setMask_frameMem (s : State) (id m : Nat) : (setMask s id m).frameMem = s.frameMem := rfl
@[simp] theorem setMask_banks (s : State) (id m : Nat) : (setMask s id m).banks = s.banks := rfl
@[simp] theorem setMask_loads (s : State) (id m : Nat) : (setMask s id m).loads = s.loads := rfl
@[simp] theorem setMask_nets (s : State) (id m : Nat) : (setMask s id m).nets = s.nets := rfl
@[simp] theorem setMask_posted (s : State) (id m : Nat) : (setMask s id m).posted = s.posted := rfl
@[simp] theorem setMask_strRx (s : State) (id m : Nat) : (setMask s id m).strRx = s.strRx := rfl
@[simp] theorem setMask_strTx (s : State) (id m : Nat) : (setMask s id m).strTx = s.strTx := rfl
@[simp] theorem setMask_supplied (s : State) (id m : Nat) : (setMask s id m).supplied = s.supplied := rfl
@[simp] theorem setMask_strClears (s : State) (id m : Nat) : (setMask s id m).strClears = s.strClears := rfl
@[simp] theorem setMask_tallies (s : State) (id m : Nat) : (setMask s id m).tallies = s.tallies := rfl
@[simp] theorem setMask_snap (s : State) (id m : Nat) : (setMask s id m).snap = s.snap := rfl
@[simp] theorem setMask_barA (s : State) (id m : Nat) : (setMask s id m).barA = s.barA := rfl
@[simp] theorem setMask_barB (s : State) (id m : Nat) : (setMask s id m).barB = s.barB := rfl
@[simp] theorem setMask_dieA (s : State) (id m : Nat) : (setMask s id m).dieA = s.dieA := rfl
@[simp] theorem setMask_dieB (s : State) (id m : Nat) : (setMask s id m).dieB = s.dieB := rfl
@[simp] theorem setMask_chmapPrev (s : State) (id m : Nat) : (setMask s id m).chmapPrev = s.chmapPrev := rfl
@[simp] theorem setMask_chmapPlay (s : State) (id m : Nat) : (setMask s id m).chmapPlay = s.chmapPlay := rfl
@[simp] theorem setMask_stk (s : State) (id m : Nat) : (setMask s id m).stk = s.stk := rfl
@[simp] theorem setMask_mgt (s : State) (id m : Nat) : (setMask s id m).mgt = s.mgt := rfl
@[simp] theorem setMask_flash (s : State) (id m : Nat) : (setMask s id m).flash = s.flash := rfl
@[simp] theorem setMask_boot (s : State) (id m : Nat) : (setMask s id m).boot = s.boot := rfl
@[simp] theorem setMask_qps (s : State) (id m : Nat) : (setMask s id m).qps = s.qps := rfl
@[simp] theorem setMask_diags (s : State) (id m : Nat) : (setMask s id m).diags = s.diags := rfl
@[simp] theorem setMask_turns (s : State) (id m : Nat) : (setMask s id m).turns = s.turns := rfl
@[simp] theorem setMask_doorbell (s : State) (id m : Nat) : (setMask s id m).doorbell = s.doorbell := rfl
@[simp] theorem setMask_pageBad (s : State) (id m : Nat) : (setMask s id m).pageBad = s.pageBad := rfl
@[simp] theorem setMask_hostMem (s : State) (id m : Nat) : (setMask s id m).hostMem = s.hostMem := rfl
@[simp] theorem setMask_sent (s : State) (id m : Nat) : (setMask s id m).sent = s.sent := rfl
@[simp] theorem setMask_pending (s : State) (id m : Nat) : (setMask s id m).pending = s.pending := rfl
@[simp] theorem setMask_free (s : State) (id m : Nat) : (setMask s id m).free = s.free := rfl

/-! ## The two dies -/

@[simp] theorem setBar_variant (s : State) (d : Die) (b : BarHost) : (setBar s d b).variant = s.variant :=
  by cases d <;> rfl
@[simp] theorem setBar_powered (s : State) (d : Die) (b : BarHost) : (setBar s d b).powered = s.powered :=
  by cases d <;> rfl
@[simp] theorem setBar_perstLow (s : State) (d : Die) (b : BarHost) : (setBar s d b).perstLow = s.perstLow :=
  by cases d <;> rfl
@[simp] theorem setBar_pcieUp (s : State) (d : Die) (b : BarHost) : (setBar s d b).pcieUp = s.pcieUp :=
  by cases d <;> rfl
@[simp] theorem setBar_pcie (s : State) (d : Die) (b : BarHost) : (setBar s d b).pcie = s.pcie := by cases d <;> rfl
@[simp] theorem setBar_regs (s : State) (d : Die) (b : BarHost) : (setBar s d b).regs = s.regs := by cases d <;> rfl
@[simp] theorem setBar_time (s : State) (d : Die) (b : BarHost) : (setBar s d b).time = s.time := by cases d <;> rfl
@[simp] theorem setBar_grid (s : State) (d : Die) (b : BarHost) : (setBar s d b).grid = s.grid := by cases d <;> rfl
@[simp] theorem setBar_loop (s : State) (d : Die) (b : BarHost) : (setBar s d b).loop = s.loop := by cases d <;> rfl
@[simp] theorem setBar_collector (s : State) (d : Die) (b : BarHost) : (setBar s d b).collector = s.collector :=
  by cases d <;> rfl
@[simp] theorem setBar_recorder (s : State) (d : Die) (b : BarHost) : (setBar s d b).recorder = s.recorder :=
  by cases d <;> rfl
@[simp] theorem setBar_ports (s : State) (d : Die) (b : BarHost) : (setBar s d b).ports = s.ports := by cases d <;> rfl
@[simp] theorem setBar_gsram (s : State) (d : Die) (b : BarHost) : (setBar s d b).gsram = s.gsram := by cases d <;> rfl
@[simp] theorem setBar_dram (s : State) (d : Die) (b : BarHost) : (setBar s d b).dram = s.dram := by cases d <;> rfl
@[simp] theorem setBar_poison (s : State) (d : Die) (b : BarHost) : (setBar s d b).poison = s.poison :=
  by cases d <;> rfl
@[simp] theorem setBar_beads (s : State) (d : Die) (b : BarHost) : (setBar s d b).beads = s.beads := by cases d <;> rfl
@[simp] theorem setBar_chans (s : State) (d : Die) (b : BarHost) : (setBar s d b).chans = s.chans := by cases d <;> rfl
@[simp] theorem setBar_rx (s : State) (d : Die) (b : BarHost) : (setBar s d b).rx = s.rx := by cases d <;> rfl
@[simp] theorem setBar_cs (s : State) (d : Die) (b : BarHost) : (setBar s d b).cs = s.cs := by cases d <;> rfl
@[simp] theorem setBar_tx (s : State) (d : Die) (b : BarHost) : (setBar s d b).tx = s.tx := by cases d <;> rfl
@[simp] theorem setBar_asrcLive (s : State) (d : Die) (b : BarHost) : (setBar s d b).asrcLive = s.asrcLive :=
  by cases d <;> rfl
@[simp] theorem setBar_params (s : State) (d : Die) (b : BarHost) : (setBar s d b).params = s.params :=
  by cases d <;> rfl
@[simp] theorem setBar_xps (s : State) (d : Die) (b : BarHost) : (setBar s d b).xps = s.xps := by cases d <;> rfl
@[simp] theorem setBar_buses (s : State) (d : Die) (b : BarHost) : (setBar s d b).buses = s.buses := by cases d <;> rfl
@[simp] theorem setBar_hpfs (s : State) (d : Die) (b : BarHost) : (setBar s d b).hpfs = s.hpfs := by cases d <;> rfl
@[simp] theorem setBar_peaks (s : State) (d : Die) (b : BarHost) : (setBar s d b).peaks = s.peaks := by cases d <;> rfl
@[simp] theorem setBar_routes (s : State) (d : Die) (b : BarHost) : (setBar s d b).routes = s.routes :=
  by cases d <;> rfl
@[simp] theorem setBar_fades (s : State) (d : Die) (b : BarHost) : (setBar s d b).fades = s.fades := by cases d <;> rfl
@[simp] theorem setBar_routeWait (s : State) (d : Die) (b : BarHost) : (setBar s d b).routeWait = s.routeWait :=
  by cases d <;> rfl
@[simp] theorem setBar_taps (s : State) (d : Die) (b : BarHost) : (setBar s d b).taps = s.taps := by cases d <;> rfl
@[simp] theorem setBar_lines (s : State) (d : Die) (b : BarHost) : (setBar s d b).lines = s.lines := by cases d <;> rfl
@[simp] theorem setBar_meters (s : State) (d : Die) (b : BarHost) : (setBar s d b).meters = s.meters :=
  by cases d <;> rfl
@[simp] theorem setBar_meterIndex (s : State) (d : Die) (b : BarHost) : (setBar s d b).meterIndex = s.meterIndex :=
  by cases d <;> rfl
@[simp] theorem setBar_meterClears (s : State) (d : Die) (b : BarHost) : (setBar s d b).meterClears = s.meterClears :=
  by cases d <;> rfl
@[simp] theorem setBar_rods (s : State) (d : Die) (b : BarHost) : (setBar s d b).rods = s.rods := by cases d <;> rfl
@[simp] theorem setBar_frameMem (s : State) (d : Die) (b : BarHost) : (setBar s d b).frameMem = s.frameMem :=
  by cases d <;> rfl
@[simp] theorem setBar_banks (s : State) (d : Die) (b : BarHost) : (setBar s d b).banks = s.banks := by cases d <;> rfl
@[simp] theorem setBar_loads (s : State) (d : Die) (b : BarHost) : (setBar s d b).loads = s.loads := by cases d <;> rfl
@[simp] theorem setBar_nets (s : State) (d : Die) (b : BarHost) : (setBar s d b).nets = s.nets := by cases d <;> rfl
@[simp] theorem setBar_posted (s : State) (d : Die) (b : BarHost) : (setBar s d b).posted = s.posted :=
  by cases d <;> rfl
@[simp] theorem setBar_strRx (s : State) (d : Die) (b : BarHost) : (setBar s d b).strRx = s.strRx := by cases d <;> rfl
@[simp] theorem setBar_strTx (s : State) (d : Die) (b : BarHost) : (setBar s d b).strTx = s.strTx := by cases d <;> rfl
@[simp] theorem setBar_supplied (s : State) (d : Die) (b : BarHost) : (setBar s d b).supplied = s.supplied :=
  by cases d <;> rfl
@[simp] theorem setBar_strClears (s : State) (d : Die) (b : BarHost) : (setBar s d b).strClears = s.strClears :=
  by cases d <;> rfl
@[simp] theorem setBar_tallies (s : State) (d : Die) (b : BarHost) : (setBar s d b).tallies = s.tallies :=
  by cases d <;> rfl
@[simp] theorem setBar_snap (s : State) (d : Die) (b : BarHost) : (setBar s d b).snap = s.snap := by cases d <;> rfl
@[simp] theorem setBar_dieA (s : State) (d : Die) (b : BarHost) : (setBar s d b).dieA = s.dieA := by cases d <;> rfl
@[simp] theorem setBar_dieB (s : State) (d : Die) (b : BarHost) : (setBar s d b).dieB = s.dieB := by cases d <;> rfl
@[simp] theorem setBar_chmapPrev (s : State) (d : Die) (b : BarHost) : (setBar s d b).chmapPrev = s.chmapPrev :=
  by cases d <;> rfl
@[simp] theorem setBar_chmapPlay (s : State) (d : Die) (b : BarHost) : (setBar s d b).chmapPlay = s.chmapPlay :=
  by cases d <;> rfl
@[simp] theorem setBar_stk (s : State) (d : Die) (b : BarHost) : (setBar s d b).stk = s.stk := by cases d <;> rfl
@[simp] theorem setBar_mgt (s : State) (d : Die) (b : BarHost) : (setBar s d b).mgt = s.mgt := by cases d <;> rfl
@[simp] theorem setBar_flash (s : State) (d : Die) (b : BarHost) : (setBar s d b).flash = s.flash := by cases d <;> rfl
@[simp] theorem setBar_boot (s : State) (d : Die) (b : BarHost) : (setBar s d b).boot = s.boot := by cases d <;> rfl
@[simp] theorem setBar_qps (s : State) (d : Die) (b : BarHost) : (setBar s d b).qps = s.qps := by cases d <;> rfl
@[simp] theorem setBar_diags (s : State) (d : Die) (b : BarHost) : (setBar s d b).diags = s.diags := by cases d <;> rfl
@[simp] theorem setBar_turns (s : State) (d : Die) (b : BarHost) : (setBar s d b).turns = s.turns := by cases d <;> rfl
@[simp] theorem setBar_doorbell (s : State) (d : Die) (b : BarHost) : (setBar s d b).doorbell = s.doorbell :=
  by cases d <;> rfl
@[simp] theorem setBar_pageBad (s : State) (d : Die) (b : BarHost) : (setBar s d b).pageBad = s.pageBad :=
  by cases d <;> rfl
@[simp] theorem setBar_hostMem (s : State) (d : Die) (b : BarHost) : (setBar s d b).hostMem = s.hostMem :=
  by cases d <;> rfl
@[simp] theorem setBar_sent (s : State) (d : Die) (b : BarHost) : (setBar s d b).sent = s.sent := by cases d <;> rfl
@[simp] theorem setBar_pending (s : State) (d : Die) (b : BarHost) : (setBar s d b).pending = s.pending :=
  by cases d <;> rfl
@[simp] theorem setBar_free (s : State) (d : Die) (b : BarHost) : (setBar s d b).free = s.free := by cases d <;> rfl
@[simp] theorem setDie_variant (s : State) (d : Die) (x : FieldDie) : (setDie s d x).variant = s.variant :=
  by cases d <;> rfl
@[simp] theorem setDie_powered (s : State) (d : Die) (x : FieldDie) : (setDie s d x).powered = s.powered :=
  by cases d <;> rfl
@[simp] theorem setDie_perstLow (s : State) (d : Die) (x : FieldDie) : (setDie s d x).perstLow = s.perstLow :=
  by cases d <;> rfl
@[simp] theorem setDie_pcieUp (s : State) (d : Die) (x : FieldDie) : (setDie s d x).pcieUp = s.pcieUp :=
  by cases d <;> rfl
@[simp] theorem setDie_pcie (s : State) (d : Die) (x : FieldDie) : (setDie s d x).pcie = s.pcie := by cases d <;> rfl
@[simp] theorem setDie_regs (s : State) (d : Die) (x : FieldDie) : (setDie s d x).regs = s.regs := by cases d <;> rfl
@[simp] theorem setDie_time (s : State) (d : Die) (x : FieldDie) : (setDie s d x).time = s.time := by cases d <;> rfl
@[simp] theorem setDie_grid (s : State) (d : Die) (x : FieldDie) : (setDie s d x).grid = s.grid := by cases d <;> rfl
@[simp] theorem setDie_loop (s : State) (d : Die) (x : FieldDie) : (setDie s d x).loop = s.loop := by cases d <;> rfl
@[simp] theorem setDie_collector (s : State) (d : Die) (x : FieldDie) : (setDie s d x).collector = s.collector :=
  by cases d <;> rfl
@[simp] theorem setDie_recorder (s : State) (d : Die) (x : FieldDie) : (setDie s d x).recorder = s.recorder :=
  by cases d <;> rfl
@[simp] theorem setDie_ports (s : State) (d : Die) (x : FieldDie) : (setDie s d x).ports = s.ports := by cases d <;> rfl
@[simp] theorem setDie_gsram (s : State) (d : Die) (x : FieldDie) : (setDie s d x).gsram = s.gsram := by cases d <;> rfl
@[simp] theorem setDie_dram (s : State) (d : Die) (x : FieldDie) : (setDie s d x).dram = s.dram := by cases d <;> rfl
@[simp] theorem setDie_poison (s : State) (d : Die) (x : FieldDie) : (setDie s d x).poison = s.poison :=
  by cases d <;> rfl
@[simp] theorem setDie_beads (s : State) (d : Die) (x : FieldDie) : (setDie s d x).beads = s.beads := by cases d <;> rfl
@[simp] theorem setDie_chans (s : State) (d : Die) (x : FieldDie) : (setDie s d x).chans = s.chans := by cases d <;> rfl
@[simp] theorem setDie_rx (s : State) (d : Die) (x : FieldDie) : (setDie s d x).rx = s.rx := by cases d <;> rfl
@[simp] theorem setDie_cs (s : State) (d : Die) (x : FieldDie) : (setDie s d x).cs = s.cs := by cases d <;> rfl
@[simp] theorem setDie_tx (s : State) (d : Die) (x : FieldDie) : (setDie s d x).tx = s.tx := by cases d <;> rfl
@[simp] theorem setDie_asrcLive (s : State) (d : Die) (x : FieldDie) : (setDie s d x).asrcLive = s.asrcLive :=
  by cases d <;> rfl
@[simp] theorem setDie_params (s : State) (d : Die) (x : FieldDie) : (setDie s d x).params = s.params :=
  by cases d <;> rfl
@[simp] theorem setDie_xps (s : State) (d : Die) (x : FieldDie) : (setDie s d x).xps = s.xps := by cases d <;> rfl
@[simp] theorem setDie_buses (s : State) (d : Die) (x : FieldDie) : (setDie s d x).buses = s.buses := by cases d <;> rfl
@[simp] theorem setDie_hpfs (s : State) (d : Die) (x : FieldDie) : (setDie s d x).hpfs = s.hpfs := by cases d <;> rfl
@[simp] theorem setDie_peaks (s : State) (d : Die) (x : FieldDie) : (setDie s d x).peaks = s.peaks := by cases d <;> rfl
@[simp] theorem setDie_routes (s : State) (d : Die) (x : FieldDie) : (setDie s d x).routes = s.routes :=
  by cases d <;> rfl
@[simp] theorem setDie_fades (s : State) (d : Die) (x : FieldDie) : (setDie s d x).fades = s.fades := by cases d <;> rfl
@[simp] theorem setDie_routeWait (s : State) (d : Die) (x : FieldDie) : (setDie s d x).routeWait = s.routeWait :=
  by cases d <;> rfl
@[simp] theorem setDie_taps (s : State) (d : Die) (x : FieldDie) : (setDie s d x).taps = s.taps := by cases d <;> rfl
@[simp] theorem setDie_lines (s : State) (d : Die) (x : FieldDie) : (setDie s d x).lines = s.lines := by cases d <;> rfl
@[simp] theorem setDie_meters (s : State) (d : Die) (x : FieldDie) : (setDie s d x).meters = s.meters :=
  by cases d <;> rfl
@[simp] theorem setDie_meterIndex (s : State) (d : Die) (x : FieldDie) : (setDie s d x).meterIndex = s.meterIndex :=
  by cases d <;> rfl
@[simp] theorem setDie_meterClears (s : State) (d : Die) (x : FieldDie) : (setDie s d x).meterClears = s.meterClears :=
  by cases d <;> rfl
@[simp] theorem setDie_rods (s : State) (d : Die) (x : FieldDie) : (setDie s d x).rods = s.rods := by cases d <;> rfl
@[simp] theorem setDie_frameMem (s : State) (d : Die) (x : FieldDie) : (setDie s d x).frameMem = s.frameMem :=
  by cases d <;> rfl
@[simp] theorem setDie_banks (s : State) (d : Die) (x : FieldDie) : (setDie s d x).banks = s.banks := by cases d <;> rfl
@[simp] theorem setDie_loads (s : State) (d : Die) (x : FieldDie) : (setDie s d x).loads = s.loads := by cases d <;> rfl
@[simp] theorem setDie_nets (s : State) (d : Die) (x : FieldDie) : (setDie s d x).nets = s.nets := by cases d <;> rfl
@[simp] theorem setDie_posted (s : State) (d : Die) (x : FieldDie) : (setDie s d x).posted = s.posted :=
  by cases d <;> rfl
@[simp] theorem setDie_strRx (s : State) (d : Die) (x : FieldDie) : (setDie s d x).strRx = s.strRx := by cases d <;> rfl
@[simp] theorem setDie_strTx (s : State) (d : Die) (x : FieldDie) : (setDie s d x).strTx = s.strTx := by cases d <;> rfl
@[simp] theorem setDie_supplied (s : State) (d : Die) (x : FieldDie) : (setDie s d x).supplied = s.supplied :=
  by cases d <;> rfl
@[simp] theorem setDie_strClears (s : State) (d : Die) (x : FieldDie) : (setDie s d x).strClears = s.strClears :=
  by cases d <;> rfl
@[simp] theorem setDie_tallies (s : State) (d : Die) (x : FieldDie) : (setDie s d x).tallies = s.tallies :=
  by cases d <;> rfl
@[simp] theorem setDie_snap (s : State) (d : Die) (x : FieldDie) : (setDie s d x).snap = s.snap := by cases d <;> rfl
@[simp] theorem setDie_barA (s : State) (d : Die) (x : FieldDie) : (setDie s d x).barA = s.barA := by cases d <;> rfl
@[simp] theorem setDie_barB (s : State) (d : Die) (x : FieldDie) : (setDie s d x).barB = s.barB := by cases d <;> rfl
@[simp] theorem setDie_chmapPrev (s : State) (d : Die) (x : FieldDie) : (setDie s d x).chmapPrev = s.chmapPrev :=
  by cases d <;> rfl
@[simp] theorem setDie_chmapPlay (s : State) (d : Die) (x : FieldDie) : (setDie s d x).chmapPlay = s.chmapPlay :=
  by cases d <;> rfl
@[simp] theorem setDie_stk (s : State) (d : Die) (x : FieldDie) : (setDie s d x).stk = s.stk := by cases d <;> rfl
@[simp] theorem setDie_mgt (s : State) (d : Die) (x : FieldDie) : (setDie s d x).mgt = s.mgt := by cases d <;> rfl
@[simp] theorem setDie_flash (s : State) (d : Die) (x : FieldDie) : (setDie s d x).flash = s.flash := by cases d <;> rfl
@[simp] theorem setDie_boot (s : State) (d : Die) (x : FieldDie) : (setDie s d x).boot = s.boot := by cases d <;> rfl
@[simp] theorem setDie_qps (s : State) (d : Die) (x : FieldDie) : (setDie s d x).qps = s.qps := by cases d <;> rfl
@[simp] theorem setDie_diags (s : State) (d : Die) (x : FieldDie) : (setDie s d x).diags = s.diags := by cases d <;> rfl
@[simp] theorem setDie_turns (s : State) (d : Die) (x : FieldDie) : (setDie s d x).turns = s.turns := by cases d <;> rfl
@[simp] theorem setDie_doorbell (s : State) (d : Die) (x : FieldDie) : (setDie s d x).doorbell = s.doorbell :=
  by cases d <;> rfl
@[simp] theorem setDie_pageBad (s : State) (d : Die) (x : FieldDie) : (setDie s d x).pageBad = s.pageBad :=
  by cases d <;> rfl
@[simp] theorem setDie_hostMem (s : State) (d : Die) (x : FieldDie) : (setDie s d x).hostMem = s.hostMem :=
  by cases d <;> rfl
@[simp] theorem setDie_sent (s : State) (d : Die) (x : FieldDie) : (setDie s d x).sent = s.sent := by cases d <;> rfl
@[simp] theorem setDie_pending (s : State) (d : Die) (x : FieldDie) : (setDie s d x).pending = s.pending :=
  by cases d <;> rfl
@[simp] theorem setDie_free (s : State) (d : Die) (x : FieldDie) : (setDie s d x).free = s.free := by cases d <;> rfl
@[simp] theorem barAt_setBar (s : State) (d : Die) (b : BarHost) : barAt (setBar s d b) d = b := by cases d <;> rfl
@[simp] theorem dieAt_setDie (s : State) (d : Die) (x : FieldDie) : dieAt (setDie s d x) d = x := by cases d <;> rfl

/-! ## Registers, and parts read through an update of something else -/

@[simp] theorem rd_setRod (s : State) (g : Nat) (r : Rod) (k : Nat) : rd (setRod s g r) k = rd s k := rfl
@[simp] theorem rget_setRod (s : State) (g : Nat) (r : Rod) (k : Nat) (h : Fld) : rget (setRod s g r) k h = rget s k h :=
  rfl
@[simp] theorem ron_setRod (s : State) (g : Nat) (r : Rod) (k : Nat) (h : Fld) : ron (setRod s g r) k h = ron s k h :=
  rfl
@[simp] theorem rd_setPort (s : State) (t : Nat) (p : PortState) (k : Nat) : rd (setPort s t p) k = rd s k := rfl
@[simp] theorem rget_setPort (s : State) (t : Nat) (p : PortState) (k : Nat) (h : Fld) : rget (setPort s t p) k h = rget s k h :=
  rfl
@[simp] theorem ron_setPort (s : State) (t : Nat) (p : PortState) (k : Nat) (h : Fld) : ron (setPort s t p) k h = ron s k h :=
  rfl
@[simp] theorem rd_setChan (s : State) (c : Nat) (x : ChanState) (k : Nat) : rd (setChan s c x) k = rd s k := rfl
@[simp] theorem rget_setChan (s : State) (c : Nat) (x : ChanState) (k : Nat) (h : Fld) : rget (setChan s c x) k h = rget s k h :=
  rfl
@[simp] theorem ron_setChan (s : State) (c : Nat) (x : ChanState) (k : Nat) (h : Fld) : ron (setChan s c x) k h = ron s k h :=
  rfl
@[simp] theorem rd_setTap (s : State) (t : Nat) (x : TapRun) (k : Nat) : rd (setTap s t x) k = rd s k := rfl
@[simp] theorem rget_setTap (s : State) (t : Nat) (x : TapRun) (k : Nat) (h : Fld) : rget (setTap s t x) k h = rget s k h :=
  rfl
@[simp] theorem ron_setTap (s : State) (t : Nat) (x : TapRun) (k : Nat) (h : Fld) : ron (setTap s t x) k h = ron s k h :=
  rfl
@[simp] theorem rd_setXp (s : State) (e : Nat) (x : XpRun) (k : Nat) : rd (setXp s e x) k = rd s k := rfl
@[simp] theorem rget_setXp (s : State) (e : Nat) (x : XpRun) (k : Nat) (h : Fld) : rget (setXp s e x) k h = rget s k h :=
  rfl
@[simp] theorem ron_setXp (s : State) (e : Nat) (x : XpRun) (k : Nat) (h : Fld) : ron (setXp s e x) k h = ron s k h :=
  rfl
@[simp] theorem rd_setBus (s : State) (b : Nat) (x : BusRun) (k : Nat) : rd (setBus s b x) k = rd s k := rfl
@[simp] theorem rget_setBus (s : State) (b : Nat) (x : BusRun) (k : Nat) (h : Fld) : rget (setBus s b x) k h = rget s k h :=
  rfl
@[simp] theorem ron_setBus (s : State) (b : Nat) (x : BusRun) (k : Nat) (h : Fld) : ron (setBus s b x) k h = ron s k h :=
  rfl
@[simp] theorem rd_setMeter (s : State) (i : Nat) (m : Meter) (k : Nat) : rd (setMeter s i m) k = rd s k := rfl
@[simp] theorem rget_setMeter (s : State) (i : Nat) (m : Meter) (k : Nat) (h : Fld) : rget (setMeter s i m) k h = rget s k h :=
  rfl
@[simp] theorem ron_setMeter (s : State) (i : Nat) (m : Meter) (k : Nat) (h : Fld) : ron (setMeter s i m) k h = ron s k h :=
  rfl
@[simp] theorem rd_setRoute (s : State) (r : Nat) (x : RouteRun) (k : Nat) : rd (setRoute s r x) k = rd s k := rfl
@[simp] theorem rget_setRoute (s : State) (r : Nat) (x : RouteRun) (k : Nat) (h : Fld) : rget (setRoute s r x) k h = rget s k h :=
  rfl
@[simp] theorem ron_setRoute (s : State) (r : Nat) (x : RouteRun) (k : Nat) (h : Fld) : ron (setRoute s r x) k h = ron s k h :=
  rfl
@[simp] theorem rd_setNet (s : State) (p : Nat) (x : NetPort) (k : Nat) : rd (setNet s p x) k = rd s k := rfl
@[simp] theorem rget_setNet (s : State) (p : Nat) (x : NetPort) (k : Nat) (h : Fld) : rget (setNet s p x) k h = rget s k h :=
  rfl
@[simp] theorem ron_setNet (s : State) (p : Nat) (x : NetPort) (k : Nat) (h : Fld) : ron (setNet s p x) k h = ron s k h :=
  rfl
@[simp] theorem rd_setStrRx (s : State) (r : Nat) (x : StrRx) (k : Nat) : rd (setStrRx s r x) k = rd s k := rfl
@[simp] theorem rget_setStrRx (s : State) (r : Nat) (x : StrRx) (k : Nat) (h : Fld) : rget (setStrRx s r x) k h = rget s k h :=
  rfl
@[simp] theorem ron_setStrRx (s : State) (r : Nat) (x : StrRx) (k : Nat) (h : Fld) : ron (setStrRx s r x) k h = ron s k h :=
  rfl
@[simp] theorem rd_setStrTx (s : State) (t : Nat) (x : StrTx) (k : Nat) : rd (setStrTx s t x) k = rd s k := rfl
@[simp] theorem rget_setStrTx (s : State) (t : Nat) (x : StrTx) (k : Nat) (h : Fld) : rget (setStrTx s t x) k h = rget s k h :=
  rfl
@[simp] theorem ron_setStrTx (s : State) (t : Nat) (x : StrTx) (k : Nat) (h : Fld) : ron (setStrTx s t x) k h = ron s k h :=
  rfl
@[simp] theorem rd_setRx (s : State) (p : Nat) (x : RxPort) (k : Nat) : rd (setRx s p x) k = rd s k := rfl
@[simp] theorem rget_setRx (s : State) (p : Nat) (x : RxPort) (k : Nat) (h : Fld) : rget (setRx s p x) k h = rget s k h :=
  rfl
@[simp] theorem ron_setRx (s : State) (p : Nat) (x : RxPort) (k : Nat) (h : Fld) : ron (setRx s p x) k h = ron s k h :=
  rfl
@[simp] theorem rd_setTx (s : State) (n : Nat) (x : TxPort) (k : Nat) : rd (setTx s n x) k = rd s k := rfl
@[simp] theorem rget_setTx (s : State) (n : Nat) (x : TxPort) (k : Nat) (h : Fld) : rget (setTx s n x) k h = rget s k h :=
  rfl
@[simp] theorem ron_setTx (s : State) (n : Nat) (x : TxPort) (k : Nat) (h : Fld) : ron (setTx s n x) k h = ron s k h :=
  rfl
@[simp] theorem rd_setQp (s : State) (n : Nat) (q : QpState) (k : Nat) : rd (setQp s n q) k = rd s k := rfl
@[simp] theorem rget_setQp (s : State) (n : Nat) (q : QpState) (k : Nat) (h : Fld) : rget (setQp s n q) k h = rget s k h :=
  rfl
@[simp] theorem ron_setQp (s : State) (n : Nat) (q : QpState) (k : Nat) (h : Fld) : ron (setQp s n q) k h = ron s k h :=
  rfl
@[simp] theorem rd_setTally (s : State) (id : Nat) (t : Tally) (k : Nat) : rd (setTally s id t) k = rd s k := rfl
@[simp] theorem rget_setTally (s : State) (id : Nat) (t : Tally) (k : Nat) (h : Fld) : rget (setTally s id t) k h = rget s k h :=
  rfl
@[simp] theorem ron_setTally (s : State) (id : Nat) (t : Tally) (k : Nat) (h : Fld) : ron (setTally s id t) k h = ron s k h :=
  rfl
@[simp] theorem rd_setPword (s : State) (t e w : Nat) (v : Word) (k : Nat) : rd (setPword s t e w v) k = rd s k := rfl
@[simp] theorem rget_setPword (s : State) (t e w : Nat) (v : Word) (k : Nat) (h : Fld) : rget (setPword s t e w v) k h = rget s k h :=
  rfl
@[simp] theorem ron_setPword (s : State) (t e w : Nat) (v : Word) (k : Nat) (h : Fld) : ron (setPword s t e w v) k h = ron s k h :=
  rfl
@[simp] theorem rd_setStk (s : State) (x : StkState) (k : Nat) : rd (setStk s x) k = rd s k := rfl
@[simp] theorem rget_setStk (s : State) (x : StkState) (k : Nat) (h : Fld) : rget (setStk s x) k h = rget s k h := rfl
@[simp] theorem ron_setStk (s : State) (x : StkState) (k : Nat) (h : Fld) : ron (setStk s x) k h = ron s k h := rfl
@[simp] theorem rd_setMgt (s : State) (m : MgtState) (k : Nat) : rd (setMgt s m) k = rd s k := rfl
@[simp] theorem rget_setMgt (s : State) (m : MgtState) (k : Nat) (h : Fld) : rget (setMgt s m) k h = rget s k h := rfl
@[simp] theorem ron_setMgt (s : State) (m : MgtState) (k : Nat) (h : Fld) : ron (setMgt s m) k h = ron s k h := rfl
@[simp] theorem rd_sendOut (s : State) (m : OutMsg) (k : Nat) : rd (sendOut s m) k = rd s k := rfl
@[simp] theorem rget_sendOut (s : State) (m : OutMsg) (k : Nat) (h : Fld) : rget (sendOut s m) k h = rget s k h := rfl
@[simp] theorem ron_sendOut (s : State) (m : OutMsg) (k : Nat) (h : Fld) : ron (sendOut s m) k h = ron s k h := rfl
@[simp] theorem rd_hostPut (s : State) (a : Nat) (bs : List Byte) (k : Nat) : rd (hostPut s a bs) k = rd s k := rfl
@[simp] theorem rget_hostPut (s : State) (a : Nat) (bs : List Byte) (k : Nat) (h : Fld) : rget (hostPut s a bs) k h = rget s k h :=
  rfl
@[simp] theorem ron_hostPut (s : State) (a : Nat) (bs : List Byte) (k : Nat) (h : Fld) : ron (hostPut s a bs) k h = ron s k h :=
  rfl
@[simp] theorem rd_flashWrite (s : State) (a : Nat) (bs : List Byte) (k : Nat) : rd (flashWrite s a bs) k = rd s k :=
  rfl
@[simp] theorem rget_flashWrite (s : State) (a : Nat) (bs : List Byte) (k : Nat) (h : Fld) : rget (flashWrite s a bs) k h = rget s k h :=
  rfl
@[simp] theorem ron_flashWrite (s : State) (a : Nat) (bs : List Byte) (k : Nat) (h : Fld) : ron (flashWrite s a bs) k h = ron s k h :=
  rfl
@[simp] theorem rd_flashErase (s : State) (a n : Nat) (k : Nat) : rd (flashErase s a n) k = rd s k := rfl
@[simp] theorem rget_flashErase (s : State) (a n : Nat) (k : Nat) (h : Fld) : rget (flashErase s a n) k h = rget s k h :=
  rfl
@[simp] theorem ron_flashErase (s : State) (a n : Nat) (k : Nat) (h : Fld) : ron (flashErase s a n) k h = ron s k h :=
  rfl
@[simp] theorem rd_setBucket (s : State) (code : Nat) (b : Bucket) (k : Nat) : rd (setBucket s code b) k = rd s k := rfl
@[simp] theorem rget_setBucket (s : State) (code : Nat) (b : Bucket) (k : Nat) (h : Fld) : rget (setBucket s code b) k h = rget s k h :=
  rfl
@[simp] theorem ron_setBucket (s : State) (code : Nat) (b : Bucket) (k : Nat) (h : Fld) : ron (setBucket s code b) k h = ron s k h :=
  rfl
@[simp] theorem rd_setFlips (s : State) (id m : Nat) (k : Nat) : rd (setFlips s id m) k = rd s k := rfl
@[simp] theorem rget_setFlips (s : State) (id m : Nat) (k : Nat) (h : Fld) : rget (setFlips s id m) k h = rget s k h :=
  rfl
@[simp] theorem ron_setFlips (s : State) (id m : Nat) (k : Nat) (h : Fld) : ron (setFlips s id m) k h = ron s k h := rfl
@[simp] theorem rd_setMask (s : State) (id m : Nat) (k : Nat) : rd (setMask s id m) k = rd s k := rfl
@[simp] theorem rget_setMask (s : State) (id m : Nat) (k : Nat) (h : Fld) : rget (setMask s id m) k h = rget s k h :=
  rfl
@[simp] theorem ron_setMask (s : State) (id m : Nat) (k : Nat) (h : Fld) : ron (setMask s id m) k h = ron s k h := rfl
@[simp] theorem rd_setBar (s : State) (d : Die) (b : BarHost) (k : Nat) : rd (setBar s d b) k = rd s k :=
  by cases d <;> rfl
@[simp] theorem rget_setBar (s : State) (d : Die) (b : BarHost) (k : Nat) (h : Fld) : rget (setBar s d b) k h = rget s k h :=
  by cases d <;> rfl
@[simp] theorem ron_setBar (s : State) (d : Die) (b : BarHost) (k : Nat) (h : Fld) : ron (setBar s d b) k h = ron s k h :=
  by cases d <;> rfl
@[simp] theorem rd_setDie (s : State) (d : Die) (x : FieldDie) (k : Nat) : rd (setDie s d x) k = rd s k :=
  by cases d <;> rfl
@[simp] theorem rget_setDie (s : State) (d : Die) (x : FieldDie) (k : Nat) (h : Fld) : rget (setDie s d x) k h = rget s k h :=
  by cases d <;> rfl
@[simp] theorem ron_setDie (s : State) (d : Die) (x : FieldDie) (k : Nat) (h : Fld) : ron (setDie s d x) k h = ron s k h :=
  by cases d <;> rfl
@[simp] theorem rodAt_wr (s : State) (a : Nat) (w : Word) (k : Nat) : rodAt (wr s a w) k = rodAt s k := rfl
@[simp] theorem rodAt_rput (s : State) (a : Nat) (f : Fld) (v : Nat) (k : Nat) : rodAt (rput s a f v) k = rodAt s k :=
  rfl
@[simp] theorem rodAt_rset (s : State) (a : Nat) (f : Fld) (k : Nat) : rodAt (rset s a f) k = rodAt s k := rfl
@[simp] theorem rodAt_rclr (s : State) (a : Nat) (f : Fld) (k : Nat) : rodAt (rclr s a f) k = rodAt s k := rfl
@[simp] theorem rodAt_rbit (s : State) (a : Nat) (f : Fld) (b : Bool) (k : Nat) : rodAt (rbit s a f b) k = rodAt s k :=
  rfl
@[simp] theorem rodAt_radd (s : State) (a : Nat) (f : Fld) (n : Nat) (k : Nat) : rodAt (radd s a f n) k = rodAt s k :=
  rfl
@[simp] theorem portAt_wr (s : State) (a : Nat) (w : Word) (k : Nat) : portAt (wr s a w) k = portAt s k := rfl
@[simp] theorem portAt_rput (s : State) (a : Nat) (f : Fld) (v : Nat) (k : Nat) : portAt (rput s a f v) k = portAt s k :=
  rfl
@[simp] theorem portAt_rset (s : State) (a : Nat) (f : Fld) (k : Nat) : portAt (rset s a f) k = portAt s k := rfl
@[simp] theorem portAt_rclr (s : State) (a : Nat) (f : Fld) (k : Nat) : portAt (rclr s a f) k = portAt s k := rfl
@[simp] theorem portAt_rbit (s : State) (a : Nat) (f : Fld) (b : Bool) (k : Nat) : portAt (rbit s a f b) k = portAt s k :=
  rfl
@[simp] theorem portAt_radd (s : State) (a : Nat) (f : Fld) (n : Nat) (k : Nat) : portAt (radd s a f n) k = portAt s k :=
  rfl
@[simp] theorem chanAt_wr (s : State) (a : Nat) (w : Word) (k : Nat) : chanAt (wr s a w) k = chanAt s k := rfl
@[simp] theorem chanAt_rput (s : State) (a : Nat) (f : Fld) (v : Nat) (k : Nat) : chanAt (rput s a f v) k = chanAt s k :=
  rfl
@[simp] theorem chanAt_rset (s : State) (a : Nat) (f : Fld) (k : Nat) : chanAt (rset s a f) k = chanAt s k := rfl
@[simp] theorem chanAt_rclr (s : State) (a : Nat) (f : Fld) (k : Nat) : chanAt (rclr s a f) k = chanAt s k := rfl
@[simp] theorem chanAt_rbit (s : State) (a : Nat) (f : Fld) (b : Bool) (k : Nat) : chanAt (rbit s a f b) k = chanAt s k :=
  rfl
@[simp] theorem chanAt_radd (s : State) (a : Nat) (f : Fld) (n : Nat) (k : Nat) : chanAt (radd s a f n) k = chanAt s k :=
  rfl
@[simp] theorem netAt_wr (s : State) (a : Nat) (w : Word) (k : Nat) : netAt (wr s a w) k = netAt s k := rfl
@[simp] theorem netAt_rput (s : State) (a : Nat) (f : Fld) (v : Nat) (k : Nat) : netAt (rput s a f v) k = netAt s k :=
  rfl
@[simp] theorem netAt_rset (s : State) (a : Nat) (f : Fld) (k : Nat) : netAt (rset s a f) k = netAt s k := rfl
@[simp] theorem netAt_rclr (s : State) (a : Nat) (f : Fld) (k : Nat) : netAt (rclr s a f) k = netAt s k := rfl
@[simp] theorem netAt_rbit (s : State) (a : Nat) (f : Fld) (b : Bool) (k : Nat) : netAt (rbit s a f b) k = netAt s k :=
  rfl
@[simp] theorem netAt_radd (s : State) (a : Nat) (f : Fld) (n : Nat) (k : Nat) : netAt (radd s a f n) k = netAt s k :=
  rfl
@[simp] theorem rxAt_wr (s : State) (a : Nat) (w : Word) (k : Nat) : rxAt (wr s a w) k = rxAt s k := rfl
@[simp] theorem rxAt_rput (s : State) (a : Nat) (f : Fld) (v : Nat) (k : Nat) : rxAt (rput s a f v) k = rxAt s k := rfl
@[simp] theorem rxAt_rset (s : State) (a : Nat) (f : Fld) (k : Nat) : rxAt (rset s a f) k = rxAt s k := rfl
@[simp] theorem rxAt_rclr (s : State) (a : Nat) (f : Fld) (k : Nat) : rxAt (rclr s a f) k = rxAt s k := rfl
@[simp] theorem rxAt_rbit (s : State) (a : Nat) (f : Fld) (b : Bool) (k : Nat) : rxAt (rbit s a f b) k = rxAt s k := rfl
@[simp] theorem rxAt_radd (s : State) (a : Nat) (f : Fld) (n : Nat) (k : Nat) : rxAt (radd s a f n) k = rxAt s k := rfl
@[simp] theorem txAt_wr (s : State) (a : Nat) (w : Word) (k : Nat) : txAt (wr s a w) k = txAt s k := rfl
@[simp] theorem txAt_rput (s : State) (a : Nat) (f : Fld) (v : Nat) (k : Nat) : txAt (rput s a f v) k = txAt s k := rfl
@[simp] theorem txAt_rset (s : State) (a : Nat) (f : Fld) (k : Nat) : txAt (rset s a f) k = txAt s k := rfl
@[simp] theorem txAt_rclr (s : State) (a : Nat) (f : Fld) (k : Nat) : txAt (rclr s a f) k = txAt s k := rfl
@[simp] theorem txAt_rbit (s : State) (a : Nat) (f : Fld) (b : Bool) (k : Nat) : txAt (rbit s a f b) k = txAt s k := rfl
@[simp] theorem txAt_radd (s : State) (a : Nat) (f : Fld) (n : Nat) (k : Nat) : txAt (radd s a f n) k = txAt s k := rfl
@[simp] theorem qpAt_wr (s : State) (a : Nat) (w : Word) (k : Nat) : qpAt (wr s a w) k = qpAt s k := rfl
@[simp] theorem qpAt_rput (s : State) (a : Nat) (f : Fld) (v : Nat) (k : Nat) : qpAt (rput s a f v) k = qpAt s k := rfl
@[simp] theorem qpAt_rset (s : State) (a : Nat) (f : Fld) (k : Nat) : qpAt (rset s a f) k = qpAt s k := rfl
@[simp] theorem qpAt_rclr (s : State) (a : Nat) (f : Fld) (k : Nat) : qpAt (rclr s a f) k = qpAt s k := rfl
@[simp] theorem qpAt_rbit (s : State) (a : Nat) (f : Fld) (b : Bool) (k : Nat) : qpAt (rbit s a f b) k = qpAt s k := rfl
@[simp] theorem qpAt_radd (s : State) (a : Nat) (f : Fld) (n : Nat) (k : Nat) : qpAt (radd s a f n) k = qpAt s k := rfl
@[simp] theorem tallyAt_wr (s : State) (a : Nat) (w : Word) (k : Nat) : tallyAt (wr s a w) k = tallyAt s k := rfl
@[simp] theorem tallyAt_rput (s : State) (a : Nat) (f : Fld) (v : Nat) (k : Nat) : tallyAt (rput s a f v) k = tallyAt s k :=
  rfl
@[simp] theorem tallyAt_rset (s : State) (a : Nat) (f : Fld) (k : Nat) : tallyAt (rset s a f) k = tallyAt s k := rfl
@[simp] theorem tallyAt_rclr (s : State) (a : Nat) (f : Fld) (k : Nat) : tallyAt (rclr s a f) k = tallyAt s k := rfl
@[simp] theorem tallyAt_rbit (s : State) (a : Nat) (f : Fld) (b : Bool) (k : Nat) : tallyAt (rbit s a f b) k = tallyAt s k :=
  rfl
@[simp] theorem tallyAt_radd (s : State) (a : Nat) (f : Fld) (n : Nat) (k : Nat) : tallyAt (radd s a f n) k = tallyAt s k :=
  rfl
@[simp] theorem routeAt_wr (s : State) (a : Nat) (w : Word) (k : Nat) : routeAt (wr s a w) k = routeAt s k := rfl
@[simp] theorem routeAt_rput (s : State) (a : Nat) (f : Fld) (v : Nat) (k : Nat) : routeAt (rput s a f v) k = routeAt s k :=
  rfl
@[simp] theorem routeAt_rset (s : State) (a : Nat) (f : Fld) (k : Nat) : routeAt (rset s a f) k = routeAt s k := rfl
@[simp] theorem routeAt_rclr (s : State) (a : Nat) (f : Fld) (k : Nat) : routeAt (rclr s a f) k = routeAt s k := rfl
@[simp] theorem routeAt_rbit (s : State) (a : Nat) (f : Fld) (b : Bool) (k : Nat) : routeAt (rbit s a f b) k = routeAt s k :=
  rfl
@[simp] theorem routeAt_radd (s : State) (a : Nat) (f : Fld) (n : Nat) (k : Nat) : routeAt (radd s a f n) k = routeAt s k :=
  rfl
@[simp] theorem barAt_wr (s : State) (a : Nat) (w : Word) (k : Die) : barAt (wr s a w) k = barAt s k :=
  by cases k <;> rfl
@[simp] theorem barAt_rput (s : State) (a : Nat) (f : Fld) (v : Nat) (k : Die) : barAt (rput s a f v) k = barAt s k :=
  by cases k <;> rfl
@[simp] theorem barAt_rset (s : State) (a : Nat) (f : Fld) (k : Die) : barAt (rset s a f) k = barAt s k :=
  by cases k <;> rfl
@[simp] theorem barAt_rclr (s : State) (a : Nat) (f : Fld) (k : Die) : barAt (rclr s a f) k = barAt s k :=
  by cases k <;> rfl
@[simp] theorem barAt_rbit (s : State) (a : Nat) (f : Fld) (b : Bool) (k : Die) : barAt (rbit s a f b) k = barAt s k :=
  by cases k <;> rfl
@[simp] theorem barAt_radd (s : State) (a : Nat) (f : Fld) (n : Nat) (k : Die) : barAt (radd s a f n) k = barAt s k :=
  by cases k <;> rfl
@[simp] theorem dieAt_wr (s : State) (a : Nat) (w : Word) (k : Die) : dieAt (wr s a w) k = dieAt s k :=
  by cases k <;> rfl
@[simp] theorem dieAt_rput (s : State) (a : Nat) (f : Fld) (v : Nat) (k : Die) : dieAt (rput s a f v) k = dieAt s k :=
  by cases k <;> rfl
@[simp] theorem dieAt_rset (s : State) (a : Nat) (f : Fld) (k : Die) : dieAt (rset s a f) k = dieAt s k :=
  by cases k <;> rfl
@[simp] theorem dieAt_rclr (s : State) (a : Nat) (f : Fld) (k : Die) : dieAt (rclr s a f) k = dieAt s k :=
  by cases k <;> rfl
@[simp] theorem dieAt_rbit (s : State) (a : Nat) (f : Fld) (b : Bool) (k : Die) : dieAt (rbit s a f b) k = dieAt s k :=
  by cases k <;> rfl
@[simp] theorem dieAt_radd (s : State) (a : Nat) (f : Fld) (n : Nat) (k : Die) : dieAt (radd s a f n) k = dieAt s k :=
  by cases k <;> rfl

end Sys2Proof.Machine
end

