-- ==== Sys2Proof/Machine/Balls.lean ====
section
/-! DEFINITION. The states of the host-side balls (R559, R560, Table 17-8). -/

namespace Sys2Proof.Machine
open Sys2Proof

/-- The host-side balls of Table 17-8, by row: a network port's or a stack link's transmitter, the PCIe lanes, a TDM port's
clocks and outputs, a biphase output, PPS_OUT, CARRY_OUT, FAULT_N, the management lines, the flash's reset and its other
lines, TDO. -/
inductive Ball where
  | netTx (p : Fin 8) | stkTx (l : Fin 4) | pcie | tdmClocks (n : Fin 16) | tdmOut (n : Fin 16) | bphOut (n : Fin 16)
  | ppsOut | carryOut | faultN | sda | scl | xspiReset | xspi | tdo
  deriving DecidableEq, Repr

/-- What a ball does: not driven; a squelched transmitter; a link down or up; inputs with pull-down; a level; released to its
pull-up; driven by the ROM; driven as its own chapter says. -/
inductive BallState where
  | undriven | squelched | linkDown | linkUp | pulledDown | low | high | released | byRom | byChapter
  deriving DecidableEq, Repr

/-- Table 17-8: "Reset" lasts up to the end of step 1 of the ROM, and for a ball that the supervisor sets up until that runs. -/
def ballState (s : State) (b : Ball) : BallState :=
  let ready := s.boot.supervisor
  match b with
  | .faultN =>
    if s.powered then (if faultNLow s then .low else .released)
    else if ron s Reg.FLT_STAT F.FLT_STAT_FAULT_N_LOW then .low else .undriven
  | .netTx p => if !s.powered then .undriven else if ready && ron s (Reg.NET_STAT p) F.NET_STAT_LINK then .byChapter else .squelched
  | .stkTx l =>
    if !s.powered then .undriven
    else if ready && ron s Reg.STK_CTRL F.STK_CTRL_EN && !ron s (Reg.STK_LINK_STAT l) F.STK_LINK_STAT_FENCED then .byChapter
    else .squelched
  | .pcie => if !s.powered then .undriven else if s.pcieUp then .linkUp else .linkDown
  | .tdmClocks n => if !s.powered then .undriven else if ready && ptState s n != ptOff then .byChapter else .pulledDown
  | .tdmOut n => if !s.powered then .undriven else if ready && ptState s n != ptOff then .byChapter else .low
  | .bphOut n => if !s.powered then .undriven else if ready && ptState s (16 + n) != ptOff then .byChapter else .low
  | .ppsOut => if !s.powered then .undriven else if s.time.ppsHigh then .high else .low
  | .carryOut => if !s.powered then .undriven else if s.snap.coutHigh then .high else .low
  | .sda => if !s.powered then .undriven else if s.mgt.pulse.isSome then .low else if s.mgt.answers then .byChapter else .released
  | .scl => if !s.powered then .undriven else .released
  | .xspiReset => if !s.powered then .undriven else if s.boot.resetting then .low else .high
  | .xspi => if !s.powered then .undriven else if s.boot.resetting then .low else if ready then .byChapter else .byRom
  | .tdo => .undriven

end Sys2Proof.Machine
end

