-- ==== Sys2Proof/WellFormed.lean ====
section
/-! DEFINITION. Which commands are well formed: operands whose type is wider than what the hardware can present. A
command that is not well formed stands for no event of the hardware; the meanings are total on it all the same. -/

namespace Sys2Proof

/-- Every word of a message fits its 64 bits, and the message has a header and no more than `n` payload words. -/
def wordsOk (n : Nat) (ws : List Nat) : Bool :=
  ws.all (fun w => decide (w < 2 ^ 64)) && decide (1 ≤ ws.length) && decide (ws.length ≤ n + 1)

/-- A barrier or twin message has at most 15 payload words (Table 09-1). -/
def barrierOk (ws : List Nat) : Bool := wordsOk 15 ws

/-- A CMD is a message, and its earlier sends had SEQs of 16 bits (R331). -/
def copyOk (m : CmdCopy) : Bool := barrierOk m.words && m.copies.all (fun q => decide (q < 65536))

/-- A stack message has at most 4,095 payload words and its CRC word (Table 13-1). -/
def stackOk (ws : List Nat) : Bool := wordsOk 4096 ws

/-- The bytes read for an input buffer, where it could be read, number at most `n`. -/
def inputOk (n : Nat) (data : Option (List Byte)) : Bool :=
  match data with
  | none => true
  | some bs => decide (bs.length ≤ n)

/-- Sense bits come for each of the 32 channels (R383). -/
def senseOk (v : SenseIn) : Bool := decide (v.vs.length = 32) && decide (v.is.length = 32)

/-- A frame on the line is 60 to 16,384 bytes without preamble and FCS. -/
def frameOk (bs : List Byte) : Bool := decide (bs.length ≤ 16384)

/-- Whether a command is well formed. -/
def Instr.wellFormed : Instr → Bool
  | .samples _ ws | .param _ ws | .sealMsg _ ws | .barrierHeartbeat _ ws | .cmdUnknown _ ws | .twinSamples _ ws
  | .twinDigest _ ws | .twinStatus _ ws | .sense _ ws | .status _ ws _ | .fault _ ws | .ack _ ws
  | .diagResult _ ws => barrierOk ws
  | .cmdTallyCommit _ m | .tallyDiscard _ m | .cmdCarry _ m | .forceSafe _ m | .release _ m | .cmdRead _ m
  | .sealTighten _ m | .tripClear _ m | .pwmCntClr _ m | .diagSweep _ m | .diagAbort _ m | .protClear _ m
  | .zrefCapture _ m => copyOk m
  | .rawWrite _ m => copyOk m.msg
  | .hello _ m => stackOk m.words
  | .stackHeartbeat _ ws | .memberStatus _ ws | .timeSync _ ws _ | .delayReq _ ws | .delayResp _ ws
  | .subscribe _ ws | .beads _ ws | .vote _ ws | .decisionLog _ ws | .logAck _ ws | .decision _ ws | .query _ ws
  | .answer _ ws | .carrySched _ ws | .splitReport _ ws | .stackStart _ ws => stackOk ws
  | .fieldTick _ v => senseOk v
  | .thermalModelUpdate _ ones => decide (ones.length = 4) && ones.all (fun n => decide (n ≤ 24000))
  | .frameReceive _ r => frameOk r.bytes
  | .doorbellRead page => inputOk 512 page
  | .descriptorFetch _ bytes _ => inputOk 64 bytes
  | .updateBlock _ data => inputOk 65536 data
  | .bootMbBlock _ data => inputOk 65536 data
  | .configSave _ data => inputOk 4190208 data
  | .netTx _ data => inputOk 65536 data
  | _ => true

end Sys2Proof
end

