-- ==== Sys2Proof/Tests/Slice0.lean ====
section
/-! SUPPORT. Tests: for each statement's clauses a state and operands that meet all their hypotheses together, the
checks of WellFormed, and small worked examples of the spec. -/

namespace Sys2Proof.Tests
open Sys2Proof Sys2Proof.Machine Sys2Proof.Safety

set_option Elab.async false

/-- The 64 bytes of a descriptor, from their value as a number. -/
def descOf (v : Nat) : List Byte := (List.range 64).map (fun i => BitVec.ofNat 8 (v / 256 ^ i))

/-- A state with one descriptor fetched in slot 0 of queue pair 0, its turn to be accepted. -/
def posted (v : Nat) (s : State := State.reset) : State :=
  { s with qps := [(0, { qpReset 0 with flights := [⟨0, descOf v, false, none⟩], due := [0] })] }

/-- A state with some register fields put to values. -/
def put (l : List (Nat × Fld × Nat)) (s : State := State.reset) : State := l.foldl (fun s e => rput s e.1 e.2.1 e.2.2) s

/-- The pipeline runs. -/
def going : State := put [(Reg.SYS_PIPE, F.SYS_PIPE_RUNNING, 1)]

/-- A rod in its pass, about to issue one instruction word at address 8. -/
def atWord (g w : Nat) (r : Rod := rodReset 0) : State :=
  setRod going g { r with p := [(8, BitVec.ofNat 64 w)], pc := 8, phase := .inPass }

/-- A LOAD_PROGRAM image of frame 0, rod 0: one P section with END. -/
def endImage : List Byte :=
  let body (crc : Nat) : List Byte := (List.range 88).map (fun i => BitVec.ofNat 8 ((0x50545245 + 2 ^ 32 + 2 ^ 56 + 15 * 2 ^ 64
    + 7 * 2 ^ 72 + 2 ^ 80 + 88 * 2 ^ 96 + crc * 2 ^ (8 * 0x30) + 2 ^ (8 * 0x40) + 8 * 2 ^ (8 * 0x48) + 80 * 2 ^ (8 * 0x4C)
    + (0x3F * 2 ^ 58) * 2 ^ (8 * 0x50)) / 256 ^ i))
  body (imageCrc (body 0))

/-- A configuration-store image of one empty section. -/
def storeImage : List Byte := [1, 0, 0, 0, 0, 0, 0, 0]

/-- A hundred seconds of operation later. -/
def later : State := { State.reset with recorder := { State.reset.recorder with optime := 25600 } }

/-- The ROM has started the supervisor, which does not run yet. -/
def romUpState : State := { State.reset with boot := { bootReset with romUp := true } }


/-! ## What is not well formed -/

/-- Each check of `Instr.wellFormed` refuses a term: no header, more words than the format has, a word past 64 bits. -/
theorem test_wf_messages :
    (Instr.samples .a []).wellFormed = false ∧ (Instr.sense .a (List.replicate 17 0)).wellFormed = false ∧
    (Instr.twinStatus .a [2 ^ 64]).wellFormed = false ∧ (Instr.hello 0 ⟨[], ⟨[], false⟩⟩).wellFormed = false ∧
    (Instr.vote 0 [2 ^ 64]).wellFormed = false ∧ (Instr.cmdCarry .a ⟨[0], [65536]⟩).wellFormed = false ∧
    (Instr.rawWrite .a ⟨⟨[], []⟩, 0⟩).wellFormed = false ∧ (Instr.samples .a [0, 1]).wellFormed = true := by decide

/-- Input buffers, frames and sensor lists past their length are refused. -/
theorem test_wf_lengths :
    inputOk 512 (some (List.replicate 513 0)) = false ∧ inputOk 64 (some (List.replicate 65 0)) = false ∧
    frameOk (List.replicate 16385 0) = false ∧ senseOk ⟨[], [], 0, 0⟩ = false ∧
    (Instr.doorbellRead (some (List.replicate 513 0))).wellFormed = false ∧
    (Instr.descriptorFetch 0 (some (List.replicate 65 0)) false).wellFormed = false ∧
    (Instr.thermalModelUpdate .a [0, 0, 0, 24001]).wellFormed = false ∧ (Instr.fieldTick .a ⟨[], [], 0, 0⟩).wellFormed = false := by
  decide +kernel

/-- The long buffers of updates, saves and sends. -/
theorem test_wf_buffers :
    (Instr.updateBlock ⟨0, 0⟩ (some (List.replicate 65537 0))).wellFormed = false ∧
    (Instr.bootMbBlock 0 (some (List.replicate 65537 0))).wellFormed = false ∧
    (Instr.netTx ⟨0, 0⟩ (some (List.replicate 65537 0))).wellFormed = false ∧
    inputOk 65536 none = true ∧ inputOk 65536 (some [0]) = true := by decide +kernel

/-! ## The spec's own worked values -/

/-- The block index of T = 1,234,567,890.500 050 s at 96 kHz, BLK = 8 (01_node_architecture.md, worked example). -/
theorem test_block_index : indexOf State.reset (mkTime 1234567890 500050000) = 14814814686000 := by decide +kernel

/-- M3's priority at T8 is MTX_PRI_LO at 0x140, bits [15:12], and reads 12 (01_node_architecture.md, after R58). -/
theorem test_matrix_priority : fldGet ⟨12, 4⟩ (priorityWord 8 0) = 12 := by decide +kernel

/-- The words the spec spells (05_rod_instructions.md: R180, Table 05-15, R199). -/
theorem test_rod_words :
    decodeRod true 0x0430000000000000 = some .ldi ∧ decodeRod true 0x0B01400000000000 = some .movr ∧
    decodeRod false 0x40120000C300C300 = some .tap2 ∧ decodeRod true 0x40120000C300C300 = none ∧
    decodeRod false 0x6000001F00000000 = some .rep ∧ decodeRod false 0x6400000900080000 = some .loop ∧
    decodeRod false 0x0000000029000000 = some .nop ∧ decodeRod false 0x0000000041000000 = some .nop ∧
    decodeRod false 0x0000000071000000 = some .nop ∧ decodeRod false 0xFC00000000000000 = some .endPass := by
  decide +kernel

/-- XA0 leaves section 4 at 0x0_004C + 5, which the 12-word buffer at 0x0_0043 maps to 0x0_0045
(05_rod_instructions.md, cascade of four biquads). -/
theorem test_circular_buffer : bufMod 0x43 12 0x4C 5 = 0x45 := by decide +kernel

/-- The rs values of 0.30, −0.62, 0.71, 0.55, −0.80, 0.12, 0.05, −0.40 in Q1.31 (05_rod_instructions.md, limiter gain). -/
theorem test_redundant_sign :
    ([644245094, -1331439862, 1524713390, 1181116006, -1717986918, 257698038, 107374182, -858993459].map
      (redundantSign 32)) = [1, 0, 0, 0, 0, 3, 4, 1] := by decide +kernel

/-- T / peak by 31 steps of DIVS: 0x4000_0000 over 0x6666_6666 gives 0x5000_0000 (05_rod_instructions.md, Table 05-17). -/
theorem test_division :
    (List.range 31).foldl (fun v _ => ((effDivs ⟨0, fun _ => 0x66666666#32, fun _ => v, fun _ => v, false, 0,
      0#32, 0#32, 0#32, 0#32⟩).a.headD (0, 0)).2) (0x40000000 * 2 ^ 32) % 2 ^ 32 = 0x50000000 := by decide +kernel

/-- Law 2 at N = 12 (06_mix_delay_meter.md, scaling a 12-input bus). -/
theorem test_scale_target : scaleTarget 2 12 = 0x24F34E8B := by decide +kernel

/-- The limiter at x2 = 1.154701 gives 0.844307, to 10^-6 (the same example). -/
theorem test_limiter :
    ((limiter 0x78D6FC9E 0x558C4BD4 0 0 2479701507).2.1 * 1000000 + 2 ^ 30) / 2 ^ 31 = 844307 := by decide +kernel

/-- Six hours of holdover: REF_STEER reads 1,469,907 (02_clocks_time_references.md, worked example). -/
theorem test_holdover : holdoverSteer { put [(Reg.REF_TEMP, F.REF_TEMP_THETA, 656),
      (Reg.REF_HOLDINFO_T, F.REF_HOLDINFO_T_THETA_H, 560), (Reg.REF_THETA0, F.REF_THETA0_THETA0, 400),
      (Reg.REF_TCOEF, F.REF_TCOEF_K1, 2048), (Reg.REF_TCOEF, F.REF_TCOEF_K2, 1024),
      (Reg.REF_HOLDINFO_S, F.REF_HOLDINFO_S_S_H, 1374389), (Reg.REF_AGE, F.REF_AGE_AGE_MODE, 1),
      (Reg.REF_AGE, F.REF_AGE_A, 2 ^ 16 - 128)] with
    time := { timeReset with cnt := 21910 * 393216000 } } = 1469907 := by decide +kernel

/-- The check value of CRC-32C over the digits 1 to 9 is 0xE306_9283 (the published check value of that code). -/
theorem test_crc32c : crc32c [49, 50, 51, 52, 53, 54, 55, 56, 57] = 0xE3069283 := by decide +kernel

set_option maxRecDepth 100000 in
/-- SHA-384 of the three bytes 'abc' (FIPS 180-4's published example). -/
theorem test_sha384 : sha384 [0x61, 0x62, 0x63] =
    0xcb00753f45a35e8bb5a03d699ac65007272c32ab0eded1631a8b605a43ff5bed8086072ba1e7cc2358baeca134c825a7 := by
  decide +kernel

set_option maxRecDepth 100000 in
/-- A signature over that digest, made outside the model with P-384's published numbers. -/
theorem test_ecdsa : ecdsaP384
    0xd5136d1655c65b914e665c9ed35e4e01d1d8da847736957a6a751ea4cf2f80a1380f08c2ae239bc498d1b1bb3fba744f0e746b1ce69a33ebe8e8a90604f1b2804397cf0410fed1beb08a12e00f8e7f3ec07a6774569844826d0370826f7f1f9f
    0xcb00753f45a35e8bb5a03d699ac65007272c32ab0eded1631a8b605a43ff5bed8086072ba1e7cc2358baeca134c825a7
    0x4e47a237cc608f03d38bf953c2c25c8cb99de4bbada9288a6b43656520b2559143f1fd344dde210802bbc630315996be
    0xd93920079e8c2fe46a8f4a0cbe87e73b7f5d711dcf51da3224ad3180602cbe18b8c7069b1db0dfda4f2d3a5ac98df91c = true := by
  decide +kernel

/-! ## One step each -/

/-- On an empty queue one cycle of TIME_CLK passes (R60). -/
theorem test_idle_step : ∃ t : State, step State.reset = .next t ∧ t.time.cnt = 1 :=
  ⟨_, rfl, by decide +kernel⟩

/-- A command at the front of the queue leaves it. -/
theorem test_step_takes_front : ∃ t : State, step { State.reset with pending := [.xoInLost] } = .next t ∧ t.pending = [] :=
  ⟨_, rfl, by decide +kernel⟩


/-- A state and operands that meet the hypotheses of `MemoryFormKept`. -/
theorem witness_MemoryFormKept : ∃ (s : State) (t : State),
    Memory.wf s = true ∧
    step s = .next t :=
  ⟨State.reset, _, by decide +kernel, rfl⟩

/-- States and operands that meet the hypotheses of each clause of `ClocksAndReferencesComplete`, in their order. -/
theorem witness_ClocksAndReferencesComplete :
    (∃ (s : State), s.pending = [] ∧ s.powered = true ∧ s.time.xoLost = false) ∧
    (∃ (s : State), s.pending = [] ∧ s.powered = true ∧ s.time.xoLost = true) ∧
    (∃ (s : State), s.pending = [] ∧ s.powered = false) ∧
    (∃ (s : State), s.powered = true) ∧
    (∃ (s : State), s.powered = true) ∧
    (∃ (c : Fin 22) (s : State) (u : State) (v : State), live s = true ∧ c.val < 6 ∧
      u = noteCands (rclr s (Reg.REF_CSTAT c) F.REF_CSTAT_ACTIVE) ∧
      ron u (Reg.REF_CSTAT c) F.REF_CSTAT_QUALIFIED = true ∧
      v = { u with loop := { u.loop with qualSince := u.loop.qualSince.filter (fun p => p.1 != c.val) } }) ∧
    (∃ (c : Fin 22) (s : State) (u : State), live s = true ∧ c.val < 6 ∧
      u = noteCands (rclr s (Reg.REF_CSTAT c) F.REF_CSTAT_ACTIVE) ∧
      ron u (Reg.REF_CSTAT c) F.REF_CSTAT_QUALIFIED = false) ∧
    (∃ (c : Fin 22) (s : State), live s = true ∧ c.val < 6) ∧
    (∃ (c : Fin 22), 6 ≤ c.val) ∧
    (∃ (c : Fin 22) (x : Int) (s : State) (u : State), live s = true ∧ (c.val ≠ 4 ∧ c.val ≠ 5) ∧
      u = noteCands (rputI s (Reg.REF_CSTAT c) F.REF_CSTAT_FOFS x)) ∧
    (∃ (c : Fin 22) (l : List (Nat × Nat)) (s : State), live s = true ∧ candEnabled s c = true ∧
      ron s (Reg.REF_CSTAT c) F.REF_CSTAT_ACTIVE = true ∧ fofsAbs s c ≤ 10 * rget s Reg.REF_LIMITS
      F.REF_LIMITS_ACCEPT ∧ ron s (Reg.REF_CSTAT c) F.REF_CSTAT_STEP_REFUSED = false ∧
      ron s (Reg.REF_CSTAT c) F.REF_CSTAT_QUALIFIED = false ∧ stoodFor s s.loop.goodSince c (qualTicks s c) = true ∧
      l = (c.val, s.time.cnt) :: s.loop.qualSince.filter (fun p => p.1 != c.val)) ∧
    (∃ (c : Fin 22) (s : State), live s = true ∧ stoodFor s s.loop.goodSince c (qualTicks s c) = false) ∧
    (∃ (c : Fin 22) (s : State), live s = true ∧ ron s Reg.REF_CTRL F.REF_CTRL_EN = true ∧
      ron s Reg.REF_CTRL F.REF_CTRL_MODE = false ∧ ron s Reg.REF_CTRL F.REF_CTRL_REVERT = true ∧
      candEligible s c = true ∧ selected s ≠ noCand ∧ stoodFor s s.loop.qualSince c (393216000 * rget s
      Reg.REF_LIMITS F.REF_LIMITS_REVERT_WAIT) = true ∧ rget s (Reg.REF_CAND (selected s)) F.REF_CAND_PRIO < rget s
      (Reg.REF_CAND c) F.REF_CAND_PRIO) ∧
    (∃ (c : Fin 22) (s : State), live s = true ∧ stoodFor s s.loop.qualSince c (393216000 * rget s Reg.REF_LIMITS
      F.REF_LIMITS_REVERT_WAIT) = false) :=
  ⟨⟨State.reset, by decide +kernel⟩,
    ⟨{ State.reset with time := { timeReset with xoLost := true } }, by decide +kernel⟩,
    ⟨{ State.reset with powered := false }, by decide +kernel⟩,
    ⟨State.reset, by decide +kernel⟩,
    ⟨State.reset, by decide +kernel⟩,
    ⟨5, (put [(Reg.REF_CSTAT 5, F.REF_CSTAT_QUALIFIED, 1), (Reg.REF_CSTAT 5, F.REF_CSTAT_ACTIVE, 1)]), _, _,
      by decide +kernel, by decide +kernel, rfl, by decide +kernel, rfl⟩,
    ⟨5, (put [(Reg.REF_CSTAT 5, F.REF_CSTAT_ACTIVE, 1)]), _, by decide +kernel, by decide +kernel, rfl,
      by decide +kernel⟩,
    ⟨5, State.reset, by decide +kernel⟩,
    ⟨6, by decide +kernel⟩,
    ⟨21, -2147483648, State.reset, _, by decide +kernel, by decide +kernel, rfl⟩,
    ⟨4, _,
      { (put [(Reg.REF_CAND 4, F.REF_CAND_EN, 1), (Reg.REF_CSTAT 4, F.REF_CSTAT_ACTIVE, 1), (Reg.REF_LIMITS, F.REF_LIMITS_QUAL_TIME, 0)]) with loop := { loopReset with goodSince := [(4, 0)] } },
      by decide +kernel, by decide +kernel, by decide +kernel, by decide +kernel, by decide +kernel,
      by decide +kernel, by decide +kernel, rfl⟩,
    ⟨4, State.reset, by decide +kernel⟩,
    ⟨4, { (put [(Reg.REF_CTRL, F.REF_CTRL_EN, 1), (Reg.REF_CTRL, F.REF_CTRL_REVERT, 1), (Reg.REF_CAND 4, F.REF_CAND_EN, 1), (Reg.REF_CAND 4, F.REF_CAND_PRIO, 1), (Reg.REF_CSTAT 4, F.REF_CSTAT_QUALIFIED, 1), (Reg.REF_STAT, F.REF_STAT_SEL, 5), (Reg.REF_LIMITS, F.REF_LIMITS_REVERT_WAIT, 0)]) with loop := { loopReset with qualSince := [(4, 0)] } },
      by decide +kernel⟩,
    ⟨4, State.reset, by decide +kernel⟩⟩

/-- States and operands that meet the hypotheses of each clause of `PowerAndResetComplete`, in their order. -/
theorem witness_PowerAndResetComplete :
    (∃ (s : State), s.powered = true) ∧
    (∃ (s : State), s.powered = true) ∧
    (∃ (id : Nat) (s : State), s.powered = true ∧ s.collector.chipReset = some id) ∧
    (∃ (s : State), s.powered = true ∧ s.collector.selfTripBusy = true) :=
  ⟨⟨State.reset, by decide +kernel⟩,
    ⟨State.reset, by decide +kernel⟩,
    ⟨0, { State.reset with collector := { collectorReset with chipReset := some 0 } }, by decide +kernel⟩,
    ⟨{ State.reset with collector := { collectorReset with selfTripBusy := true } }, by decide +kernel⟩⟩

/-- States and operands that meet the hypotheses of each clause of `PcieLinkComplete`, in their order. -/
theorem witness_PcieLinkComplete :
    (∃ (s : State), s.powered = true) ∧
    (∃ (s : State), s.powered = true ∧ s.perstLow = false) ∧
    (∃ (s : State), s.powered = true ∧ s.perstLow = true) ∧
    (∃ (s : State), s.powered = true ∧ s.pcieUp = true) ∧
    (∃ (v : LinkSpeed) (w : LinkWidth) (ctl : PcieControl) (s : State) (u : State), s.powered = true ∧
      s.perstLow = false ∧ s.boot.resetting = false ∧ u = setControl
      { rput (rput s Reg.HIF_STAT F.HIF_STAT_SPEED (speedCode v)) Reg.HIF_STAT F.HIF_STAT_WIDTH (widthCode w) with pcieUp := true }
      ctl) ∧
    (∃ (s : State), (s.perstLow = true ∨ s.boot.resetting = true)) :=
  ⟨⟨State.reset, by decide +kernel⟩,
    ⟨State.reset, by decide +kernel⟩,
    ⟨{ State.reset with perstLow := true }, by decide +kernel⟩,
    ⟨{ State.reset with pcieUp := true }, by decide +kernel⟩,
    ⟨.gen4, .x4, ⟨true, false, 0⟩, { State.reset with boot := { bootReset with resetting := false } }, _,
      by decide +kernel, by decide +kernel, by decide +kernel, rfl⟩,
    ⟨{ State.reset with boot := { bootReset with resetting := true } }, by decide +kernel⟩⟩

/-- States and operands that meet the hypotheses of each clause of `SysComplete`, in their order. -/
theorem witness_SysComplete :
    (∃ (w : Word) (s : State), hostMay s ∧ fldGet F.SYS_LOCK_LOCK w = 1 ∧ ron s Reg.SYS_LOCK F.SYS_LOCK_LOCK = false) ∧
    (∃ (w : Word) (s : State) (u : State), hostMay s ∧ ron s Reg.SYS_LOCK F.SYS_LOCK_LOCK = false ∧
      running s = false ∧ fldGet F.SYS_BLKCFG_REFUSED w = 0 ∧ fldGet F.SYS_BLKCFG_FS w ≠ 3 ∧
      (¬(fldGet F.SYS_BLKCFG_FS w = rget s Reg.SYS_BLKCFG F.SYS_BLKCFG_FS ∧
      fldGet F.SYS_BLKCFG_BLK w = rget s Reg.SYS_BLKCFG F.SYS_BLKCFG_BLK)) ∧
      u = rput (rput s Reg.SYS_BLKCFG F.SYS_BLKCFG_FS (fldGet F.SYS_BLKCFG_FS w)) Reg.SYS_BLKCFG F.SYS_BLKCFG_BLK
      (fldGet F.SYS_BLKCFG_BLK w) ∧ threatens s u = false) ∧
    (∃ (w : Word) (s : State), hostMay s ∧ ron s Reg.SYS_LOCK F.SYS_LOCK_LOCK = false ∧ running s = true ∧
      fldGet F.SYS_BLKCFG_REFUSED w = 0) ∧
    (∃ (w : Word) (s : State) (u : State), hostMay s ∧ u = rwrite s Reg.SYS_PIPE w ∧
      ron s Reg.SYS_PIPE F.SYS_PIPE_RUN = false ∧ ron u Reg.SYS_PIPE F.SYS_PIPE_RUN = true ∧ running u = false) ∧
    (∃ (w : Word) (s : State) (u : State), hostMay s ∧ u = rwrite s Reg.SYS_PIPE w ∧
      ron s Reg.SYS_PIPE F.SYS_PIPE_RUN = true ∧ ron u Reg.SYS_PIPE F.SYS_PIPE_RUN = false) ∧
    (∃ (s : State), hostMay s) :=
  ⟨⟨1, State.reset, by unfold hostMay; decide +kernel, by decide +kernel⟩,
    ⟨2, State.reset, _, by unfold hostMay; decide +kernel, by decide +kernel, by decide +kernel, by decide +kernel,
      by decide +kernel, by decide +kernel, rfl, by decide +kernel⟩,
    ⟨0, going, by unfold hostMay; decide +kernel, by decide +kernel⟩,
    ⟨1, State.reset, _, by unfold hostMay; decide +kernel, rfl, by decide +kernel⟩,
    ⟨0, (put [(Reg.SYS_PIPE, F.SYS_PIPE_RUN, 1)]), _, by unfold hostMay; decide +kernel, rfl, by decide +kernel⟩,
    ⟨State.reset, by unfold hostMay; decide +kernel⟩⟩

/-- States and operands that meet the hypotheses of each clause of `MemoryErrorsComplete`, in their order. -/
theorem witness_MemoryErrorsComplete :
    (∃ (c : MemClass) (u : Fin 2048) (a : Nat) (s : State), s.powered = true ∧ u.val < (memSize c).2 ∧
      a < (memSize c).1) ∧
    (∃ (u : Fin 2048) (a : Nat) (s : State) (m : SMap Bool), s.powered = true ∧ u.val < 8 ∧ a < 2097152 ∧
      m = mapSet (fun _ => false) (mapSet (fun _ => false) s.poison (framePoisonKey u (a / 8 * 2)) true)
      (framePoisonKey u (a / 8 * 2 + 1)) true) ∧
    (∃ (u : Fin 2048) (a : Nat) (s : State) (m : SMap Bool), s.powered = true ∧ u.val < 4 ∧ a < 536870912 ∧
      m = mapSet (fun _ => false) (mapSet (fun _ => false) s.poison (dramPoisonKey (u.val * 2 ^ 27 + a / 8 * 2))
      true) (dramPoisonKey (u.val * 2 ^ 27 + a / 8 * 2 + 1)) true) ∧
    (∃ (b : Fin 2048) (s : State), s.powered = true ∧ b.val < 4) ∧
    (∃ (b : Fin 2048) (s : State), s.powered = true ∧ b.val < 256) ∧
    (∃ (r : Fin 2048) (s : State), s.powered = true ∧ r.val < 64) ∧
    (∃ (s : State), s.powered = true) ∧
    (∃ (w : Word) (s : State), hostMay s ∧ fldGet F.SYS_ECC_CE_ROD_CLR w = 1) ∧
    (∃ (s : State), s.powered = true) ∧
    (∃ (u : Fin 2048) (a : Nat) (ks : List Nat) (s : State), s.powered = true ∧ u.val < 8 ∧ a < 4194304 ∧
      ks = [bankWord u (4 * (a / 8 * 2)), bankWord u (4 * (a / 8 * 2)) + 1]) ∧
    (∃ (a : Nat) (s : State) (u : State), s.powered = true ∧ a < 262144 ∧ a / 16 < s.recorder.buffer.length ∧
      u = { s with recorder := { s.recorder with buffer := s.recorder.buffer.eraseIdx (a / 16) } }) ∧
    (∃ (u : Fin 2048) (a : Nat) (s : State), s.powered = true ∧ u.val < 8 ∧ a < 2 ^ 23) ∧
    (∃ (s : State), s.powered = true ∧ s.boot.supervisor = true) :=
  ⟨⟨.frame, 7, 2097151, State.reset, by decide +kernel⟩,
    ⟨7, 2097151, State.reset, _, by decide +kernel, by decide +kernel, by decide +kernel, rfl⟩,
    ⟨3, 536870911, State.reset, _, by decide +kernel, by decide +kernel, by decide +kernel, rfl⟩,
    ⟨0, State.reset, by decide +kernel⟩,
    ⟨0, State.reset, by decide +kernel⟩,
    ⟨0, State.reset, by decide +kernel⟩,
    ⟨State.reset, by decide +kernel⟩,
    ⟨2147483648, State.reset, by unfold hostMay; decide +kernel, by decide +kernel⟩,
    ⟨State.reset, by decide +kernel⟩,
    ⟨7, 4194303, _, State.reset, by decide +kernel, by decide +kernel, by decide +kernel, rfl⟩,
    ⟨16,
      { State.reset with recorder := { State.reset.recorder with buffer := [⟨1, 0, false, 0, 0, 0, 0⟩, ⟨2, 0, false, 0, 0, 0, 0⟩] } },
      _, by decide +kernel, by decide +kernel, by decide +kernel, rfl⟩,
    ⟨7, (2 ^ 23 - 1), State.reset, by decide +kernel⟩,
    ⟨{ State.reset with boot := { bootReset with supervisor := true } }, by decide +kernel⟩⟩

/-- States and operands that meet the hypotheses of each clause of `MatrixComplete`, in their order. -/
theorem witness_MatrixComplete :
    (∃ (x : Fin 24) (r : BusReq) (s : State) (u : State), s.powered = true ∧ (portAt s x).waiting = [] ∧
      mapWf portReset s.ports = true ∧ u = setPort s x { portAt s x with waiting := [] } ∧
      requestError u r.master x (r.addr + 64 * (r.beats.val + 1)) = 0) ∧
    (∃ (x : Fin 24) (r : BusReq) (s : State) (u : State), s.powered = true ∧ (portAt s x).waiting = [] ∧
      mapWf portReset s.ports = true ∧ u = setPort s x { portAt s x with waiting := [] } ∧
      requestError u r.master x (r.addr + 64 * (r.beats.val + 1)) = 3) ∧
    (∃ (x : Fin 24) (n : Nat) (s : State), s.powered = true ∧ timeoutCycles s ≤ n ∧ (portAt s x).waiting = []) ∧
    (∃ (n : Nat) (s : State), n < timeoutCycles s) ∧
    (∃ (w : Word) (s : State), hostMay s ∧ fldGet F.MTX_ERR_INFO_VALID w = 1) :=
  ⟨⟨0, ⟨9, 0, 0, none⟩, State.reset, _, by decide +kernel, by decide +kernel, by decide +kernel, rfl,
    by decide +kernel⟩,
    ⟨0, ⟨9, 0, 0, none⟩, (put [(Reg.MTX_FENCE_M, ⟨9, 1⟩, 1)]), _, by decide +kernel, by decide +kernel,
      by decide +kernel, rfl, by decide +kernel⟩,
    ⟨0, 4096, State.reset, by decide +kernel⟩,
    ⟨4095, State.reset, by decide +kernel⟩,
    ⟨2147483648, State.reset, by unfold hostMay; decide +kernel, by decide +kernel⟩⟩

/-- States and operands that meet the hypotheses of each clause of `RegisterWriteComplete`, in their order. -/
theorem witness_RegisterWriteComplete :
    (∃ (a : Fin 262144) (s : State), hostMay s ∧ writeActs (4 * a.val) = false ∧ absentBlock s (4 * a.val) = false) ∧
    (∃ (a : Nat) (r : RegRow) (f : FieldRow) (s : State), Memory.wf s = true ∧ hostRow a = some r ∧ f ∈ r.fields) ∧
    (∃ (a : Nat) (i : Nat) (r : RegRow) (s : State), Memory.wf s = true ∧ hostRow a = some r ∧ (∀ f ∈ r.fields,
      i < f.lo ∨ f.lo + f.width ≤ i)) ∧
    (∃ (a : Nat) (b : Nat) (s : State), Memory.wf s = true ∧ b ≠ a) ∧
    (∃ (a : Nat), hostRow a = none) ∧
    (∃ (s : State), hostMay s) ∧
    (∃ (a : Fin 262144) (s : State), s.powered = true ∧ live s = false ∧ a.val < 0x1800) ∧
    (∃ (a : Fin 262144) (s : State), s.powered = true ∧ live s = false ∧ 0x1800 ≤ a.val ∧ a.val < 0x1C00) ∧
    (∃ (s : State), live s = true ∧ barOpen s = false) :=
  ⟨⟨0, State.reset, by unfold hostMay; decide +kernel, by decide +kernel⟩,
    ⟨Reg.SYS_LOCK, _, _, State.reset, by decide +kernel, rfl, .head _⟩,
    ⟨Reg.SYS_LOCK, 31, _, State.reset, by decide +kernel, rfl, by decide +kernel⟩,
    ⟨1, 0, State.reset, by decide +kernel⟩,
    ⟨0x1FFFFFFF, by decide +kernel⟩,
    ⟨State.reset, by unfold hostMay; decide +kernel⟩,
    ⟨0x17FF, (put [(Reg.BOOT_STAT, F.BOOT_STAT_MODE, 1)]), by decide +kernel⟩,
    ⟨0x1BFF, (put [(Reg.BOOT_STAT, F.BOOT_STAT_MODE, 1)]), by decide +kernel⟩,
    ⟨(put [(Reg.MTX_FENCE_M, ⟨9, 1⟩, 1)]), by decide +kernel⟩⟩

/-- States and operands that meet the hypotheses of each clause of `BoundaryComplete`, in their order. -/
theorem witness_BoundaryComplete :
    (∃ (s : State) (u : State) (v : State) (w : State) (x : State), live s = true ∧
      u = clearTimed (openCycle s (timedCauses s (boundaryAt s))) (boundaryAt s) ∧
      v = endPeriod (tallyCarry (settleTallies (gatherRaises u) (nextBoundary s)) (nextBoundary s)) ∧
      w = applyTallies (releaseUnits (startStop (advanceBlock v (nextBoundary s)))) (nextBoundary s) ∧
      x = flushRaises (beginPeriod w u.grid.index (rget u Reg.SYS_EPOCH F.SYS_EPOCH_EPOCH))) ∧
    (∃ (s : State), live s = true ∧ s.boot.load = none ∧ s.boot.settings = []) ∧
    (∃ (s : State), running s = false ∧ s.grid.startIn = some 1) :=
  ⟨⟨State.reset, _, _, _, _, by decide +kernel, rfl, rfl, rfl, rfl⟩,
    ⟨State.reset, by decide +kernel⟩,
    ⟨{ State.reset with grid := { gridReset with startIn := some 1 } }, by decide +kernel⟩⟩

/-- States and operands that meet the hypotheses of each clause of `LoopComplete`, in their order. -/
theorem witness_LoopComplete :
    (∃ (s : State), live s = true ∧ selected s ≠ noCand ∧ loopState s = stFreeRun) ∧
    (∃ (s : State), live s = true ∧ selected s ≠ noCand ∧ (loopState s = stAcquiring ∨ loopState s = stLocked) ∧
      s.loop.cand = selected s) ∧
    (∃ (s : State), live s = true ∧ s.loop.fast = true ∧ loopState s = stAcquiring ∧ s.loop.dwellBad = false ∧
      5000 * 393216000 ≤ (s.time.cnt - s.loop.dwellAt) * bandwidthMilli s.loop.bw ∧ s.loop.bw ≠ 0) ∧
    (∃ (s : State), live s = true ∧ (s.time.cnt - s.loop.dwellAt) * bandwidthMilli s.loop.bw < 5000 * 393216000) ∧
    (∃ (s : State), live s = true ∧ loopState s = stHoldover) ∧
    (∃ (s : State), live s = true ∧ Memory.wf s = true) ∧
    (∃ (s : State) (u : State), live s = true ∧ u =
      { s with loop := { s.loop with temps := s.loop.temps ++ (if loopState s = stLocked then [(rgetI s Reg.REF_TEMP F.REF_TEMP_THETA, s.time.cnt)] else []) } }) ∧
    (∃ (s : State) (u : State), live s = true ∧ ron s Reg.REF_TEMP F.REF_TEMP_XO_TEMP_BAD = false ∧
      u =
      { s with loop := { s.loop with temps := s.loop.temps ++ (if loopState s = stLocked then [(rgetI s Reg.REF_TEMP F.REF_TEMP_THETA, s.time.cnt)] else []) } }) ∧
    (∃ (s : State), hostMay s) :=
  ⟨⟨(put [(Reg.REF_STAT, F.REF_STAT_SEL, 4)]), by decide +kernel⟩,
    ⟨{ put [(Reg.REF_STAT, F.REF_STAT_SEL, 4), (Reg.REF_STAT, F.REF_STAT_STATE, 1)] with loop := { loopReset with cand := 4 } },
      by decide +kernel⟩,
    ⟨{ (put [(Reg.REF_STAT, F.REF_STAT_STATE, 1)]) with loop := { loopReset with fast := true, bw := 18 }, time := { timeReset with cnt := 10 ^ 18 } },
      by decide +kernel⟩,
    ⟨{ State.reset with loop := { loopReset with bw := 18 } }, by decide +kernel⟩,
    ⟨(put [(Reg.REF_STAT, F.REF_STAT_STATE, 3)]), by decide +kernel⟩,
    ⟨State.reset, by decide +kernel⟩,
    ⟨State.reset, _, by decide +kernel, rfl⟩,
    ⟨State.reset, _, by decide +kernel, by decide +kernel, rfl⟩,
    ⟨State.reset, by unfold hostMay; decide +kernel⟩⟩

/-- States and operands that meet the hypotheses of each clause of `TimeComplete`, in their order. -/
theorem witness_TimeComplete :
    (∃ (w : Word) (s : State) (u : State), hostMay s ∧ ron s Reg.REF_CTRL F.REF_CTRL_TIME_FOLLOW = false ∧
      w.toInt.natAbs ≤ 274877907 ∧ u = settleCredits s) ∧
    (∃ (w : Word) (s : State), hostMay s ∧ ron s Reg.REF_CTRL F.REF_CTRL_TIME_FOLLOW = false ∧
      274877907 < w.toInt.natAbs) ∧
    (∃ (w : Word) (s : State), hostMay s ∧ fldGet F.TIME_ADJ_GO_GO w = 1 ∧ fldGet F.TIME_ADJ_GO_ABS w = 0 ∧
      ron s Reg.TIME_STAT F.TIME_STAT_ADJ_BUSY = false) ∧
    (∃ (w : Word) (s : State) (u : State), hostMay s ∧ u = rwrite s Reg.TIME_CTRL w) ∧
    (∃ (s : State), s.powered = true) ∧
    (∃ (s : State) (v : Int) (d : DescRef) (rest : List StepReq), s.powered = true ∧ s.time.steps = ⟨.timeSet, false,
      v, false, some d⟩ :: rest ∧ ron s Reg.TIME_STAT F.TIME_STAT_VALID = true ∧
      v.natAbs ≤ rget s Reg.TIME_JUMP_MAX F.TIME_JUMP_MAX_NS * 65536 ∧
      rget s Reg.TIME_JUMP_MAX F.TIME_JUMP_MAX_NS ≠ 0) ∧
    (∃ (s : State) (u : State) (v : Int) (d : DescRef) (rest : List StepReq), s.powered = true ∧
      s.time.steps = ⟨.timeSet, false, v, false, some d⟩ :: rest ∧ ron s Reg.TIME_STAT F.TIME_STAT_VALID = true ∧
      ron s Reg.TIME_CTRL F.TIME_CTRL_FORCE = false ∧ rget s Reg.TIME_JUMP_MAX F.TIME_JUMP_MAX_NS * 65536 < v.natAbs
      ∧ u = rputI (rset { s with time := { s.time with steps := rest } } Reg.TIME_STAT F.TIME_STAT_JUMP_REFUSED)
      Reg.TIME_REFUSED_NS F.TIME_REFUSED_NS_DELTA (deltaNs v)) ∧
    (∃ (d : DescRef) (bs : List Byte) (s : State), ready s d 0x50 bs ∧ par bs 8 0 1 = 0 ∧
      stepPending s .timeSet = false) ∧
    (∃ (d : DescRef) (bs : List Byte) (s : State), ready s d 0x50 bs ∧ par bs 8 0 1 = 1 ∧
      par bs 24 0 30 ≤ 999999999 ∧ stepPending s .timeSet = false) ∧
    (∃ (s : State), hostMay s) ∧
    (∃ (s : State), s.powered = true ∧ ppsGate s = true ∧ timeAt s (s.time.cnt - 1) < ppsSecond s * secUnits + rgetI
      s Reg.TIME_PPS F.TIME_PPS_OFS * 65536 ∧ (∀ j, s.time.ppsLast = some j → j < ppsSecond s)) ∧
    (∃ (s : State), s.powered = true ∧ s.time.ppsEnd ≤ s.time.cnt) :=
  ⟨⟨274877907, (put [(Reg.REF_CTRL, F.REF_CTRL_TIME_FOLLOW, 0)]), _, by unfold hostMay; decide +kernel,
    by decide +kernel, by decide +kernel, rfl⟩,
    ⟨274877908, (put [(Reg.REF_CTRL, F.REF_CTRL_TIME_FOLLOW, 0)]), by unfold hostMay; decide +kernel,
      by decide +kernel⟩,
    ⟨1, State.reset, by unfold hostMay; decide +kernel, by decide +kernel⟩,
    ⟨0, State.reset, _, by unfold hostMay; decide +kernel, rfl⟩,
    ⟨State.reset, by decide +kernel⟩,
    ⟨{ put [(Reg.TIME_STAT, F.TIME_STAT_VALID, 1), (Reg.TIME_JUMP_MAX, F.TIME_JUMP_MAX_NS, 1)] with time := { timeReset with steps := [⟨.timeSet, false, 65536, false, some ⟨0, 0⟩⟩] } },
      65536, ⟨0, 0⟩, [], by decide +kernel⟩,
    ⟨{ put [(Reg.TIME_STAT, F.TIME_STAT_VALID, 1), (Reg.TIME_JUMP_MAX, F.TIME_JUMP_MAX_NS, 1)] with time := { timeReset with steps := [⟨.timeSet, false, 65537, false, some ⟨0, 0⟩⟩] } },
      _, 65537, ⟨0, 0⟩, [], by decide +kernel, by decide +kernel, by decide +kernel, by decide +kernel,
      by decide +kernel, rfl⟩,
    ⟨⟨0, 0⟩, (descOf 0x50), (posted 0x50), by unfold ready; decide +kernel, by decide +kernel⟩,
    ⟨⟨0, 0⟩, (descOf (0x50 + 2 ^ 64 + 999999999 * 2 ^ 192)), (posted (0x50 + 2 ^ 64 + 999999999 * 2 ^ 192)),
      by unfold ready; decide +kernel, by decide +kernel⟩,
    ⟨State.reset, by unfold hostMay; decide +kernel⟩,
    ⟨{ put [(Reg.TIME_CTRL, F.TIME_CTRL_PPS_EN, 1), (Reg.TIME_CTRL, F.TIME_CTRL_PPS_GATE, 0), (Reg.TIME_STAT, F.TIME_STAT_VALID, 1)] with time := { timeReset with cnt := 393216000 }, boot := { bootReset with supervisor := true } },
      by decide +kernel, by decide +kernel, by decide +kernel, fun _ h => nomatch h⟩,
    ⟨State.reset, by decide +kernel⟩⟩

/-- States and operands that meet the hypotheses of each clause of `FabricComplete`, in their order. -/
theorem witness_FabricComplete :
    (∃ (cls : Fin 10) (inst : Fin 4096) (c : Fin 1024) (b : Fin 4) (j : Fin 32) (s : State), live s = true ∧
      j.val < blk s ∧ owns s cls inst c = true ∧ b.val = writeBuf s ∧ running s = true ∧ (∀ m,
      producerMaster cls inst = some m → fabError s m b c j = 0)) ∧
    (∃ (cls : Fin 10) (inst : Fin 4096) (c : Fin 1024) (b : Fin 4) (j : Fin 32) (s : State), live s = true ∧
      j.val < blk s ∧ owns s cls inst c = true ∧ b.val ≠ writeBuf s ∧ (∀ m,
      producerMaster cls inst = some m → fabError s m b c j = 0)) ∧
    (∃ (cls : Fin 10) (inst : Fin 4096) (c : Fin 1024) (b : Fin 4) (j : Fin 32) (s : State), live s = true ∧
      j.val < blk s ∧ owns s cls inst c = false ∧ (∀ m, producerMaster cls inst = some m → fabError s m b c j = 0)) ∧
    (∃ (j : Fin 32) (s : State), live s = true ∧ j.val < blk s) ∧
    (∃ (w : Word) (s : State), hostMay s ∧ fldGet F.FAB_MISS_CNT_CLR w = 1) ∧
    (∃ (w : Word) (s : State), hostMay s ∧ fldGet F.FAB_MISS_CNT_CLR w = 0) :=
  ⟨⟨1, 5, 1023, (Fin.ofNat 4 (writeBuf (put [(Reg.FAB_OWNER 1023, F.FAB_OWNER_CLASS, 1), (Reg.FAB_OWNER 1023,
    F.FAB_OWNER_INST, 5), (Reg.SYS_PIPE, F.SYS_PIPE_RUNNING, 1)]))), 3, (put [(Reg.FAB_OWNER 1023, F.FAB_OWNER_CLASS,
    1), (Reg.FAB_OWNER 1023, F.FAB_OWNER_INST, 5), (Reg.SYS_PIPE, F.SYS_PIPE_RUNNING, 1)]), by decide +kernel,
    by decide +kernel, by decide +kernel, by decide +kernel, by decide +kernel,
    fun m h => by injection h with h; subst h; decide +kernel⟩,
    ⟨1, 5, 1023, 1, 3, (put [(Reg.FAB_OWNER 1023, F.FAB_OWNER_CLASS, 1), (Reg.FAB_OWNER 1023, F.FAB_OWNER_INST, 5)]),
      by decide +kernel, by decide +kernel, by decide +kernel, by decide +kernel,
      fun m h => by injection h with h; subst h; decide +kernel⟩,
    ⟨1, 6, 1023, 0, 3, (put [(Reg.FAB_OWNER 1023, F.FAB_OWNER_CLASS, 1), (Reg.FAB_OWNER 1023, F.FAB_OWNER_INST, 5)]),
      by decide +kernel, by decide +kernel, by decide +kernel,
      fun m h => by injection h with h; subst h; decide +kernel⟩,
    ⟨3, State.reset, by decide +kernel⟩,
    ⟨2147483648, State.reset, by unfold hostMay; decide +kernel, by decide +kernel⟩,
    ⟨0, State.reset, by unfold hostMay; decide +kernel, by decide +kernel⟩⟩

/-- States and operands that meet the hypotheses of each clause of `TdmComplete`, in their order. -/
theorem witness_TdmComplete :
    (∃ (n : Fin 16) (w : Word) (s : State) (u : State), hostMay s ∧
      (fldGet F.TDM_CTRL_MODE w = 0 ∨ fldGet F.TDM_CTRL_MODE w = 3) ∧ ptState s n ≠ ptOff ∧
      u = (if fldPut F.TDM_CTRL_MODE 0 ((w &&& 0x001F0FFF) ||| (rd s (Reg.TDM_CTRL n) &&& ~~~0x001F0FFF)) = fldPut
      F.TDM_CTRL_MODE 0 (rd s (Reg.TDM_CTRL n)) then s else rset s (Reg.TDM_STAT n) F.TDM_STAT_REFUSED) ∧
      portHeld u (ron u (Reg.TDM_STAT n) F.TDM_STAT_FENCED) (unitTdm n) = false) ∧
    (∃ (n : Fin 16) (w : Word) (s : State) (u : State), hostMay s ∧ ptState s n = ptOff ∧
      (fldGet F.TDM_CTRL_MODE w = 1 ∨ fldGet F.TDM_CTRL_MODE w = 2) ∧
      u = wr s (Reg.TDM_CTRL n) (fldPut F.TDM_CTRL_MODE (fldGet F.TDM_CTRL_MODE (rd s (Reg.TDM_CTRL n))) ((w &&&
      0x001F0FFF) ||| (rd s (Reg.TDM_CTRL n) &&& ~~~0x001F0FFF))) ∧
      portHeld u (ron u (Reg.TDM_STAT n) F.TDM_STAT_FENCED) (unitTdm n) = false ∧
      tdmFormatOk (rclr u (Reg.TDM_STAT n) F.TDM_STAT_FENCED) n (fldGet F.TDM_CTRL_MODE w) = true) ∧
    (∃ (n : Fin 16) (j : Fin 32) (s : State), live s = true ∧ ptState s n = ptRunning ∧ isMaster s n = true ∧
      j.val < blk s) ∧
    (∃ (n : Fin 16) (s : State), live s = true ∧ ptState s n = ptLost) ∧
    (∃ (n : Fin 16) (nom : Nat) (s : State), live s = true ∧ ptState s n = ptRunning ∧ (rxAt s n).skip = false ∧
      nom = (rget s (Reg.TDM_CTRL n) F.TDM_CTRL_SLOTS + 1) * 32) ∧
    (∃ (n : Fin 16) (w : Word) (s : State) (u : State), hostMay s ∧ fldGet F.TDM_RAW_CTRL_ARM w = 1 ∧
      u = rclr (rclr (rwrite s (Reg.TDM_RAW_CTRL n) w) (Reg.TDM_RAW_WPTR n) F.TDM_RAW_WPTR_WPTR) (Reg.TDM_RAW_FRAMES
      n) F.TDM_RAW_FRAMES_FRAMES) :=
  ⟨⟨15, 3, (put [(Reg.TDM_STAT 15, F.TDM_STAT_STATE, 2)]), _, by unfold hostMay; decide +kernel, by decide +kernel,
    by decide +kernel, rfl, by decide +kernel⟩,
    ⟨15, 2, State.reset, _, by unfold hostMay; decide +kernel, by decide +kernel, by decide +kernel, rfl,
      by decide +kernel⟩,
    ⟨15, 3, (put [(Reg.TDM_STAT 15, F.TDM_STAT_STATE, 2), (Reg.TDM_CTRL 15, F.TDM_CTRL_MASTER, 1)]),
      by decide +kernel⟩,
    ⟨15, (setPtState State.reset 15 ptLost), by decide +kernel⟩,
    ⟨15, _, (put [(Reg.TDM_STAT 15, F.TDM_STAT_STATE, 2)]), by decide +kernel, by decide +kernel, by decide +kernel,
      rfl⟩,
    ⟨15, 4, State.reset, _, by unfold hostMay; decide +kernel, by decide +kernel, rfl⟩⟩

/-- States and operands that meet the hypotheses of each clause of `PortStatesComplete`, in their order. -/
theorem witness_PortStatesComplete :
    (∃ (p : Fin 32) (s : State), live s = true ∧ ptState s p = ptQualifying ∧ isGridMaster s p = false ∧
      qualGates s ≤ (rxAt s p).gates) ∧
    (∃ (p : Fin 32) (s : State), live s = true ∧ p.val < 16 ∧ ptState s p = ptRunning ∧ isMaster s p = false) ∧
    (∃ (p : Fin 32) (s : State) (u : State), live s = true ∧ 16 ≤ p.val ∧
      u = followLock (rclr (setRx s p { rxAt s p with good := 0 }) (Reg.BPH_RX_STAT (p.val - 16)) F.BPH_RX_STAT_LOCK)
      (p.val - 16) ∧ ptState u p = ptRunning ∧ isMaster u p = false) ∧
    (∃ (p : Fin 32) (x : Int) (s : State) (u : State), live s = true ∧ ptState s p = ptQualifying ∧
      isGridMaster s p = false ∧ u = rputI s (ptFofs p) F.TDM_FOFS_FOFS x) ∧
    (∃ (p : Fin 32) (x : Int) (s : State) (u : State) (v : State), live s = true ∧ ptState s p = ptRunning ∧
      isGridMaster s p = false ∧ u = rputI s (ptFofs p) F.TDM_FOFS_FOFS x ∧ ptAsrc u p = false ∧
      v = setRx u p { rxAt u p with gates := if x.natAbs ≤ portAccept u p then (rxAt u p).gates + 1 else 0 }) ∧
    (∃ (s : State), hostMay s) ∧
    (∃ (p : Fin 32) (s : State), live s = true ∧ ptState s p = ptRunning ∧ ptAsrc s p = true) ∧
    (∃ (p : Fin 32) (s : State), live s = true ∧ ron s (Reg.ASRC_STAT p) F.ASRC_STAT_LOCK = true) :=
  ⟨⟨31, (setPtState (setRx State.reset 31 { rxAt State.reset 31 with gates := 10 }) 31 ptQualifying),
    by decide +kernel⟩,
    ⟨15, (setPtState State.reset 15 ptRunning), by decide +kernel⟩,
    ⟨31, (setPtState State.reset 31 ptRunning), _, by decide +kernel, by decide +kernel, rfl, by decide +kernel⟩,
    ⟨31, 0, (setPtState State.reset 31 ptQualifying), _, by decide +kernel, by decide +kernel, by decide +kernel, rfl⟩,
    ⟨31, 0, (setPtState State.reset 31 ptRunning), _, _, by decide +kernel, by decide +kernel, by decide +kernel,
      rfl, by decide +kernel, rfl⟩,
    ⟨State.reset, by unfold hostMay; decide +kernel⟩,
    ⟨31, (setPtState (put [(Reg.BPH_RX_CTRL 15, F.BPH_RX_CTRL_ASRC, 1)]) 31 ptRunning), by decide +kernel⟩,
    ⟨31, (put [(Reg.ASRC_STAT 31, F.ASRC_STAT_LOCK, 1)]), by decide +kernel⟩⟩

/-- States and operands that meet the hypotheses of each clause of `BiphaseComplete`, in their order. -/
theorem witness_BiphaseComplete :
    (∃ (n : Fin 16) (w : Word) (s : State) (u : State), hostMay s ∧ ptState s (16 + n.val) ≠ ptOff ∧
      portHeld s (rxAt s (16 + n.val)).fenced (unitBph n) = false ∧ fldGet F.BPH_RX_CTRL_EN w = 0 ∧
      u = setRx s (16 + n.val) { rxAt s (16 + n.val) with fenced := false }) ∧
    (∃ (n : Fin 16) (w : Word) (s : State) (u : State) (v : State), hostMay s ∧ ptState s (16 + n.val) = ptOff ∧
      u = wr s (Reg.BPH_RX_CTRL n) (fldPut F.BPH_RX_CTRL_EN (rget s (Reg.BPH_RX_CTRL n) F.BPH_RX_CTRL_EN) (w &&&
      0x03FF0007)) ∧ portHeld u (rxAt u (16 + n.val)).fenced (unitBph n) = false ∧ fldGet F.BPH_RX_CTRL_EN w = 1 ∧
      v = setRx u (16 + n.val) { rxAt u (16 + n.val) with fenced := false } ∧
      rget v (Reg.BPH_RX_CTRL n) F.BPH_RX_CTRL_CH_BASE ≤ 1022 ∧
      (ptAsrc v (16 + n.val) = true ∨ rget v (Reg.BPH_RX_RATE n) F.BPH_RX_RATE_NOM_HZ = 0)) ∧
    (∃ (n : Fin 16) (s : State), live s = true ∧ ptState s (16 + n.val) = ptLost) ∧
    (∃ (n : Fin 16) (s : State), live s = true ∧ (ptState s (16 + n.val) = ptQualifying ∨ ptState s (16 + n.val) =
      ptRunning)) ∧
    (∃ (n : Fin 16) (s : State) (a : CsBlock) (b : CsBlock), hostMay s ∧ a = mapGet csReset s.cs (2 * n.val) ∧
      b = mapGet csReset s.cs (2 * n.val + 1)) ∧
    (∃ (n : Fin 16) (w : Word) (s : State) (u : State) (v : State), hostMay s ∧
      u = wr s (Reg.BPH_TX_CTRL n) (fldPut F.BPH_TX_CTRL_EN (rget s (Reg.BPH_TX_CTRL n) F.BPH_TX_CTRL_EN) (w &&&
      0x03FF000F)) ∧ portHeld u (ron u (Reg.BPH_TX_STAT n) F.BPH_TX_STAT_FENCED) (unitBph n) = false ∧
      v = rclr u (Reg.BPH_TX_STAT n) F.BPH_TX_STAT_FENCED ∧ fldGet F.BPH_TX_CTRL_EN w = 1 ∧
      rget v (Reg.BPH_TX_CTRL n) F.BPH_TX_CTRL_CH_BASE ≤ 1022 ∧
      ron v (Reg.BPH_TX_STAT n) F.BPH_TX_STAT_RUNNING = false) ∧
    (∃ (n : Fin 16) (j : Fin 32) (s : State), live s = true ∧
      ron s (Reg.BPH_TX_STAT n) F.BPH_TX_STAT_RUNNING = true ∧ j.val < blk s) ∧
    (∃ (n : Fin 16) (w : Word) (s : State) (u : State) (v : State), hostMay s ∧
      u = wr s (Reg.BPH_TX_CTRL n) (fldPut F.BPH_TX_CTRL_EN (rget s (Reg.BPH_TX_CTRL n) F.BPH_TX_CTRL_EN) (w &&&
      0x03FF000F)) ∧ portHeld u (ron u (Reg.BPH_TX_STAT n) F.BPH_TX_STAT_FENCED) (unitBph n) = false ∧
      v = rclr u (Reg.BPH_TX_STAT n) F.BPH_TX_STAT_FENCED ∧ fldGet F.BPH_TX_CTRL_EN w = 0) ∧
    (∃ (w : Word) (s : State), hostMay s ∧ fldGet F.BPH_TX_CSGO_GO w = 1) :=
  ⟨⟨15, 0, (setPtState State.reset 31 ptRunning), _, by unfold hostMay; decide +kernel, by decide +kernel,
    by decide +kernel, by decide +kernel, rfl⟩,
    ⟨15, 1, State.reset, _, _, by unfold hostMay; decide +kernel, by decide +kernel, rfl, by decide +kernel,
      by decide +kernel, rfl, by decide +kernel⟩,
    ⟨15, (setPtState State.reset 31 ptLost), by decide +kernel⟩,
    ⟨15, (setPtState State.reset 31 ptQualifying), by decide +kernel⟩,
    ⟨0, State.reset, _, _, by unfold hostMay; decide +kernel, rfl, rfl⟩,
    ⟨15, 1, State.reset, _, _, by unfold hostMay; decide +kernel, rfl, by decide +kernel, rfl, by decide +kernel⟩,
    ⟨15, 3, (put [(Reg.BPH_TX_STAT 15, F.BPH_TX_STAT_RUNNING, 1)]), by decide +kernel⟩,
    ⟨15, 0, State.reset, _, _, by unfold hostMay; decide +kernel, rfl, by decide +kernel, rfl, by decide +kernel⟩,
    ⟨1, State.reset, by unfold hostMay; decide +kernel, by decide +kernel⟩⟩

/-- States and operands that meet the hypotheses of each clause of `AluInstructionsComplete`, in their order. -/
theorem witness_AluInstructionsComplete :
    (∃ (g : Fin 64) (s : State), clean s g .nop) ∧
    (∃ (g : Fin 64) (s : State) (r : Rod) (w : Nat), clean s g .ldi ∧ r = rodAt (atIssue s g) g ∧ w = nextWord r) ∧
    (∃ (g : Fin 64) (s : State) (r : Rod) (w : Nat), clean s g .movr ∧ r = rodAt (atIssue s g) g ∧ w = nextWord r) ∧
    (∃ (g : Fin 64) (s : State), clean s g .add) ∧
    (∃ (g : Fin 64) (s : State), clean s g .sub) ∧
    (∃ (g : Fin 64) (s : State), clean s g .addi) ∧
    (∃ (g : Fin 64) (s : State), clean s g .subi) ∧
    (∃ (g : Fin 64) (s : State), clean s g .cmp) ∧
    (∃ (g : Fin 64) (s : State), clean s g .and) ∧
    (∃ (g : Fin 64) (s : State), clean s g .or) ∧
    (∃ (g : Fin 64) (s : State), clean s g .xor) ∧
    (∃ (g : Fin 64) (s : State), clean s g .not) ∧
    (∃ (g : Fin 64) (s : State), clean s g .asl) ∧
    (∃ (g : Fin 64) (s : State), clean s g .asr) ∧
    (∃ (g : Fin 64) (s : State), clean s g .lsl) ∧
    (∃ (g : Fin 64) (s : State), clean s g .lsr) ∧
    (∃ (g : Fin 64) (s : State), clean s g .abs) ∧
    (∃ (g : Fin 64) (s : State), clean s g .neg) ∧
    (∃ (g : Fin 64) (s : State), clean s g .min) ∧
    (∃ (g : Fin 64) (s : State), clean s g .max) ∧
    (∃ (g : Fin 64) (s : State), clean s g .amax) :=
  ⟨⟨63, (atWord 63 0x0000000000000000), by unfold clean; decide +kernel⟩,
    ⟨63, (atWord 63 0x0400000000000000), _, _, by unfold clean; decide +kernel, rfl, rfl⟩,
    ⟨63, (atWord 63 0x0800000000000000), _, _, by unfold clean; decide +kernel, rfl, rfl⟩,
    ⟨63, (atWord 63 0x1000000000000000), by unfold clean; decide +kernel⟩,
    ⟨63, (atWord 63 0x1010000000000000), by unfold clean; decide +kernel⟩,
    ⟨63, (atWord 63 0x1020000000000000), by unfold clean; decide +kernel⟩,
    ⟨63, (atWord 63 0x1030000000000000), by unfold clean; decide +kernel⟩,
    ⟨63, (atWord 63 0x1040000000000000), by unfold clean; decide +kernel⟩,
    ⟨63, (atWord 63 0x1050000000000000), by unfold clean; decide +kernel⟩,
    ⟨63, (atWord 63 0x1060000000000000), by unfold clean; decide +kernel⟩,
    ⟨63, (atWord 63 0x1070000000000000), by unfold clean; decide +kernel⟩,
    ⟨63, (atWord 63 0x1080000000000000), by unfold clean; decide +kernel⟩,
    ⟨63, (atWord 63 0x1090000000000000), by unfold clean; decide +kernel⟩,
    ⟨63, (atWord 63 0x10A0000000000000), by unfold clean; decide +kernel⟩,
    ⟨63, (atWord 63 0x10B0000000000000), by unfold clean; decide +kernel⟩,
    ⟨63, (atWord 63 0x10C0000000000000), by unfold clean; decide +kernel⟩,
    ⟨63, (atWord 63 0x10D0000000000000), by unfold clean; decide +kernel⟩,
    ⟨63, (atWord 63 0x10E0000000000000), by unfold clean; decide +kernel⟩,
    ⟨63, (atWord 63 0x10F0000000000000), by unfold clean; decide +kernel⟩,
    ⟨63, (atWord 63 0x1100000000000000), by unfold clean; decide +kernel⟩,
    ⟨63, (atWord 63 0x1110000000000000), by unfold clean; decide +kernel⟩⟩

/-- States and operands that meet the hypotheses of each clause of `AccInstructionsComplete`, in their order. -/
theorem witness_AccInstructionsComplete :
    (∃ (g : Fin 64) (s : State), clean s g .clr) ∧
    (∃ (g : Fin 64) (s : State), clean s g .mova) ∧
    (∃ (g : Fin 64) (s : State), clean s g .adda) ∧
    (∃ (g : Fin 64) (s : State), clean s g .suba) ∧
    (∃ (g : Fin 64) (s : State), clean s g .nega) ∧
    (∃ (g : Fin 64) (s : State), clean s g .absa) ∧
    (∃ (g : Fin 64) (s : State), clean s g .shla) ∧
    (∃ (g : Fin 64) (s : State), clean s g .shra) ∧
    (∃ (g : Fin 64) (s : State), clean s g .rnda) ∧
    (∃ (g : Fin 64) (s : State), clean s g .sata) ∧
    (∃ (g : Fin 64) (s : State), clean s g .lda) ∧
    (∃ (g : Fin 64) (s : State), clean s g .ldal) ∧
    (∃ (g : Fin 64) (s : State), clean s g .ext) ∧
    (∃ (g : Fin 64) (s : State), clean s g .extl) ∧
    (∃ (g : Fin 64) (s : State), clean s g .extg) ∧
    (∃ (g : Fin 64) (s : State), clean s g .tsta) :=
  ⟨⟨63, (atWord 63 0x2000000000000000), by unfold clean; decide +kernel⟩,
    ⟨63, (atWord 63 0x2010000000000000), by unfold clean; decide +kernel⟩,
    ⟨63, (atWord 63 0x2020000000000000), by unfold clean; decide +kernel⟩,
    ⟨63, (atWord 63 0x2030000000000000), by unfold clean; decide +kernel⟩,
    ⟨63, (atWord 63 0x2040000000000000), by unfold clean; decide +kernel⟩,
    ⟨63, (atWord 63 0x2050000000000000), by unfold clean; decide +kernel⟩,
    ⟨63, (atWord 63 0x2060000000000000), by unfold clean; decide +kernel⟩,
    ⟨63, (atWord 63 0x2070000000000000), by unfold clean; decide +kernel⟩,
    ⟨63, (atWord 63 0x2080000000000000), by unfold clean; decide +kernel⟩,
    ⟨63, (atWord 63 0x2090000000000000), by unfold clean; decide +kernel⟩,
    ⟨63, (atWord 63 0x20A0000000000000), by unfold clean; decide +kernel⟩,
    ⟨63, (atWord 63 0x20B0000000000000), by unfold clean; decide +kernel⟩,
    ⟨63, (atWord 63 0x20C0000000000000), by unfold clean; decide +kernel⟩,
    ⟨63, (atWord 63 0x20D0000000000000), by unfold clean; decide +kernel⟩,
    ⟨63, (atWord 63 0x20E0000000000000), by unfold clean; decide +kernel⟩,
    ⟨63, (atWord 63 0x20F0000000000000), by unfold clean; decide +kernel⟩⟩

/-- States and operands that meet the hypotheses of each clause of `MacInstructionsComplete`, in their order. -/
theorem witness_MacInstructionsComplete :
    (∃ (g : Fin 64) (s : State), clean s g .mpy) ∧
    (∃ (g : Fin 64) (s : State), clean s g .mac) ∧
    (∃ (g : Fin 64) (s : State), clean s g .msu) ∧
    (∃ (g : Fin 64) (s : State), clean s g .mpy2) ∧
    (∃ (g : Fin 64) (s : State), clean s g .mac2) ∧
    (∃ (g : Fin 64) (s : State), clean s g .msu2) ∧
    (∃ (g : Fin 64) (s : State), clean s g .mpyx) ∧
    (∃ (g : Fin 64) (s : State), clean s g .macx) ∧
    (∃ (g : Fin 64) (s : State), clean s g .tap) ∧
    (∃ (g : Fin 64) (s : State), clean s g .tap2) ∧
    (∃ (g : Fin 64) (s : State), clean s g .tapm) ∧
    (∃ (g : Fin 64) (s : State), clean s g .exp) ∧
    (∃ (g : Fin 64) (s : State), clean s g .bexp) ∧
    (∃ (g : Fin 64) (s : State), clean s g .norm) ∧
    (∃ (g : Fin 64) (s : State), clean s g .divs) :=
  ⟨⟨63, (atWord 63 0x3000000000000000), by unfold clean; decide +kernel⟩,
    ⟨63, (atWord 63 0x3010000000000000), by unfold clean; decide +kernel⟩,
    ⟨63, (atWord 63 0x3020000000000000), by unfold clean; decide +kernel⟩,
    ⟨63, (atWord 63 0x3030000000000000), by unfold clean; decide +kernel⟩,
    ⟨63, (atWord 63 0x3040000000000000), by unfold clean; decide +kernel⟩,
    ⟨63, (atWord 63 0x3050000000000000), by unfold clean; decide +kernel⟩,
    ⟨63, (atWord 63 0x3060000000000000), by unfold clean; decide +kernel⟩,
    ⟨63, (atWord 63 0x3070000000000000), by unfold clean; decide +kernel⟩,
    ⟨0, (atWord 0 0x40000000C000C000), by unfold clean; decide +kernel⟩,
    ⟨0, (atWord 0 0x40100000C000C000), by unfold clean; decide +kernel⟩,
    ⟨0, (atWord 0 0x40200000C000C000), by unfold clean; decide +kernel⟩,
    ⟨63, (atWord 63 0x5000000000000000), by unfold clean; decide +kernel⟩,
    ⟨63, (atWord 63 0x5010000000000000), by unfold clean; decide +kernel⟩,
    ⟨63, (atWord 63 0x5020000000000000), by unfold clean; decide +kernel⟩,
    ⟨63, (atWord 63 0x5030000000000000), by unfold clean; decide +kernel⟩⟩

/-- States and operands that meet the hypotheses of each clause of `FlowInstructionsComplete`, in their order. -/
theorem witness_FlowInstructionsComplete :
    (∃ (g : Fin 64) (s : State) (r : Rod) (w : Nat) (c : Nat), clean s g .rep ∧ r = rodAt (atIssue s g) g ∧
      w = nextWord r ∧ c = (if bitOf w 57 then regSeen r (bitsOf w 53 4) (r.n + 2) % 1024 else bitsOf w 32 10)) ∧
    (∃ (g : Fin 64) (s : State) (r : Rod) (w : Nat) (c : Nat), clean s g .loop ∧ r = rodAt (atIssue s g) g ∧
      w = nextWord r ∧ c = (if bitOf w 57 then regSeen r (bitsOf w 53 4) (r.n + 2) % 65536 else bitsOf w 16 16) ∧
      inHandler r = false ∧ (c = 0 ∨ r.depth < 4)) ∧
    (∃ (g : Fin 64) (s : State) (r : Rod), clean s g .endl ∧ r = rodAt (atIssue s g) g ∧ inHandler r = false ∧
      r.depth ≠ 0) ∧
    (∃ (g : Fin 64) (s : State) (r : Rod) (w : Nat) (t : Nat), clean s g .b ∧ r = rodAt (atIssue s g) g ∧
      w = nextWord r ∧ t = (if bitOf w 53 then regSeen r (bitsOf w 49 4) (r.n + 3) else bitsOf w 32 13)) ∧
    (∃ (g : Fin 64) (s : State) (r : Rod) (w : Nat) (t : Nat), clean s g .call ∧ r = rodAt (atIssue s g) g ∧
      w = nextWord r ∧ t = (if bitOf w 53 then regSeen r (bitsOf w 49 4) (r.n + 3) else bitsOf w 32 13)) ∧
    (∃ (g : Fin 64) (s : State) (r : Rod) (w : Nat), clean s g .ret ∧ r = rodAt (atIssue s g) g ∧ w = nextWord r) ∧
    (∃ (g : Fin 64) (s : State) (r : Rod), clean s g .rti ∧ r = rodAt (atIssue s g) g) ∧
    (∃ (g : Fin 64) (s : State), Memory.wf s = true ∧ clean s g .trap ∧ bitOf (srNow (rodAt s g)) 19 = false) ∧
    (∃ (g : Fin 64) (s : State), Memory.wf s = true ∧ clean s g .endPass) :=
  ⟨⟨63, (atWord 63 0x6000000000000000), _, _, _, by unfold clean; decide +kernel, rfl, rfl, rfl⟩,
    ⟨63, (atWord 63 0x6400006400050000 { rodReset 0 with depth := 3, iter := true }), _, _, _,
      by unfold clean; decide +kernel, rfl, rfl, rfl, by decide +kernel⟩,
    ⟨63, (atWord 63 0x6800000000000000 { rodReset 0 with depth := 1, iter := true }), _,
      by unfold clean; decide +kernel, rfl, by decide +kernel⟩,
    ⟨63, (atWord 63 0x8000000000000000), _, _, _, by unfold clean; decide +kernel, rfl, rfl, rfl⟩,
    ⟨63, (atWord 63 0x8400000000000000), _, _, _, by unfold clean; decide +kernel, rfl, rfl, rfl⟩,
    ⟨63, (atWord 63 0x8800000000000000), _, _, by unfold clean; decide +kernel, rfl, rfl⟩,
    ⟨63, (atWord 63 0x8C00000000000000), _, by unfold clean; decide +kernel, rfl⟩,
    ⟨63, (atWord 63 0x9000000000000000), by decide +kernel, by unfold clean; decide +kernel, by decide +kernel⟩,
    ⟨63, (atWord 63 0xFC00000000000000), by decide +kernel, by unfold clean; decide +kernel⟩⟩

/-- States and operands that meet the hypotheses of each clause of `PassCommandsComplete`, in their order. -/
theorem witness_PassCommandsComplete :
    (∃ (g : Fin 64) (doneAt : Nat) (s : State) (u : State) (v : State), live s = true ∧ runsPass s g = true ∧
      importsNow s g doneAt = true ∧ configOk s (rodAt s g) = true ∧ dmaFenced s (rodFrame g) = false ∧
      runImports s g none (rodAt s g).imports = (u, none) ∧ v = rput u (Reg.ROD_FIMPDONE (rodFrame g))
      F.ROD_FIMPDONE_CYCLES (satNat 20 doneAt) ∧ doneAt ≤ windowCycles u) ∧
    (∃ (g : Fin 64) (doneAt : Nat) (s : State), live s = true ∧ runsPass s g = true ∧ importsNow s g doneAt = true ∧
      configOk s (rodAt s g) = false) ∧
    (∃ (g : Fin 64) (s : State), live s = true ∧ running s = true ∧ rodState s g = rdActive ∧
      rget s (rodReg Reg.ROD_WARN g) F.ROD_WARN_CYCLES ≠ 0 ∧
      ((rodAt s g).phase = .inPass → rget s (rodReg Reg.ROD_WARN g) F.ROD_WARN_CYCLES ≤ (rodAt s g).cyc)) ∧
    (∃ (s : State), live s = true ∧ running s = true) ∧
    (∃ (g : Fin 64) (v : Nat) (f : Fld) (s : State) (u : State) (r : Rod) (sr : Nat), live s = true ∧
      (rodAt s g).phase = .inPass ∧ (rodAt s g).wants = [] ∧ atAcceptance (rodAt s g) = true ∧
      haltAsked s g = false ∧ takeable s g = some (v, f) ∧ u = landAll (rclr s (rodReg Reg.ROD_IPEND g) f) g ∧
      r = rodAt u g ∧ sr = mapGet (fun _ => 0) r.file 0x30) ∧
    (∃ (g : Fin 64) (s : State), live s = true ∧ (rodAt s g).phase = .inPass ∧ (rodAt s g).wants = [] ∧
      atAcceptance (rodAt s g) = true ∧ haltAsked s g = true) ∧
    (∃ (g : Fin 64) (s : State), live s = true ∧ mayIssue s g = true ∧
      decodeRod (isControl g) (nextWord (rodAt s g)) = none) :=
  ⟨⟨0, 0, (setRod (put [(rodReg Reg.ROD_STAT 0, F.ROD_STAT_STATE,
    3)] going) 0 { rodReset 0 with blkMask := 15, fsMask := 7 }), _, _, by decide +kernel, by decide +kernel,
    by decide +kernel, by decide +kernel, by decide +kernel, rfl, rfl, by decide +kernel⟩,
    ⟨0, 0, (put [(rodReg Reg.ROD_STAT 0, F.ROD_STAT_STATE, 3)] going), by decide +kernel⟩,
    ⟨0, (put [(rodReg Reg.ROD_STAT 0, F.ROD_STAT_STATE, 3), (rodReg Reg.ROD_WARN 0, F.ROD_WARN_CYCLES, 1)] going),
      by decide +kernel⟩,
    ⟨going, by decide +kernel⟩,
    ⟨0, _, _, (put [(rodReg Reg.ROD_IPEND 0, F.ROD_IPEND_TRAP, 1)] (atWord 0 0)), _, _, _, by decide +kernel,
      by decide +kernel, by decide +kernel, by decide +kernel, by decide +kernel, rfl, rfl, rfl, rfl⟩,
    ⟨0, (put [(rodReg Reg.ROD_CTRL 0, F.ROD_CTRL_HALT_REQ, 1)] (atWord 0 0)), by decide +kernel⟩,
    ⟨0, (atWord 0 0x0C00000000000000), by decide +kernel⟩⟩

/-- States and operands that meet the hypotheses of each clause of `RodControlComplete`, in their order. -/
theorem witness_RodControlComplete :
    (∃ (g : Fin 64) (w : Word) (s : State) (u : State), hostMay s ∧ u = rwrite s (rodReg Reg.ROD_CTRL g) w ∧
      ron u (rodReg Reg.ROD_CTRL g) F.ROD_CTRL_EN ≠ ron s (rodReg Reg.ROD_CTRL g) F.ROD_CTRL_EN) ∧
    (∃ (s : State), hostMay s) ∧
    (∃ (g : Fin 64) (w : Word) (s : State) (u : State), hostMay s ∧ fldGet F.ROD_CTRL_UNFENCE w = 1 ∧
      rodState s g = 5 ∧ statusOf s (0x1C0 + g.val) = false ∧
      u = rput (setRodState s g (if enNow s g then 3 else 2)) (rodReg Reg.ROD_STAT g) F.ROD_STAT_FAILS 0) ∧
    (∃ (g : Fin 64) (w : Word) (s : State), hostMay s ∧ fldGet F.ROD_CTRL_UNFENCE w = 1 ∧ rodState s g = 5 ∧
      statusOf s (0x1C0 + g.val) = true) ∧
    (∃ (w : Word) (s : State), hostMay s ∧ fldGet F.ROD_CTRL_CLR_STATS w = 1) ∧
    (∃ (d : DescRef) (bs : List Byte) (im : List Byte) (s : State), ready s d 0x20 bs ∧ im.length = leAt bs 8 4 ∧
      loadVerdict (markAccepted s d) (leAt bs 8 4) im = stOk) ∧
    (∃ (d : DescRef) (bs : List Byte) (im : List Byte) (s : State), ready s d 0x20 bs ∧ im.length = leAt bs 8 4 ∧
      loadVerdict (markAccepted s d) (leAt bs 8 4) im ≠ stOk) ∧
    (∃ (f : Fin 8) (l : LoadState) (s : State), live s = true ∧ s.loads.find? (fun e => e.1 == f.val) = some (f.val,
      l)) :=
  ⟨⟨0, 1, State.reset, _, by unfold hostMay; decide +kernel, rfl, by decide +kernel⟩,
    ⟨State.reset, by unfold hostMay; decide +kernel⟩,
    ⟨63, (fldPut F.ROD_CTRL_UNFENCE 1 0), (put [(rodReg Reg.ROD_STAT 63, F.ROD_STAT_STATE, 5)]), _,
      by unfold hostMay; decide +kernel, by decide +kernel, by decide +kernel, by decide +kernel, rfl⟩,
    ⟨63, (fldPut F.ROD_CTRL_UNFENCE 1 0), (latchPlain (put [(rodReg Reg.ROD_STAT 63, F.ROD_STAT_STATE,
      5)]) 0x1FF false), by unfold hostMay; decide +kernel, by decide +kernel⟩,
    ⟨(fldPut F.ROD_CTRL_CLR_STATS 1 0), State.reset, by unfold hostMay; decide +kernel, by decide +kernel⟩,
    ⟨⟨0, 0⟩, (descOf (0x20 + 88 * 2 ^ 64)), endImage, (posted (0x20 + 88 * 2 ^ 64)), by unfold ready; decide +kernel,
      by decide +kernel⟩,
    ⟨⟨0, 0⟩, (descOf 0x20), [], (posted 0x20), by unfold ready; decide +kernel, by decide +kernel⟩,
    ⟨7, ⟨none, 1, 0⟩, { State.reset with loads := [(7, ⟨none, 1, 0⟩)] }, by decide +kernel⟩⟩

/-- A state and operands that meet the hypotheses of `DivisionBySteps`. -/
theorem witness_DivisionBySteps : ∃ (e : RodEnv) (n : Nat) (q : Nat),
    n < q ∧
    q < 2 ^ 31 ∧
    (e.d (ctlDA e.w)).toNat = q :=
  ⟨⟨0, fun _ => 7, fun _ => 0, fun _ => 0, false, 0, 0, 0, 0, 0⟩, 6, 7, by decide +kernel⟩

/-- States and operands that meet the hypotheses of each clause of `RodFrame`, in their order. -/
theorem witness_RodFrame :
    (∃ (g : Fin 64) (s : State) (t : State) (op : RodOp), Memory.wf s = true ∧ clean s g op ∧
      exec (issueOf g op) s = .next t ∧ (op = .trap → bitOf (srNow (rodAt s g)) 19 = false) ∧
      (op ≠ .endPass → (rodAt t g).phase = .inPass)) ∧
    (∃ (g : Fin 64) (s : State) (t : State) (op : RodOp) (h : Nat), Memory.wf s = true ∧ clean s g op ∧
      exec (issueOf g op) s = .next t ∧ (op = .trap → bitOf (srNow (rodAt s g)) 19 = false) ∧
      (op ≠ .endPass → (rodAt t g).phase = .inPass) ∧ h ≠ g.val) ∧
    (∃ (g : Fin 64) (s : State) (t : State) (op : RodOp) (a : Nat), Memory.wf s = true ∧ clean s g op ∧
      exec (issueOf g op) s = .next t ∧ (op = .trap → bitOf (srNow (rodAt s g)) 19 = false) ∧
      (op ≠ .endPass → (rodAt t g).phase = .inPass) ∧ (∀ k, k < 8 → a ≠ Reg.ROD_IPEND (rodFrame g) k) ∧
      (op = .endPass → a ∉ [rodReg Reg.ROD_STAT g, rodReg Reg.ROD_CYC_LAST g, rodReg Reg.ROD_CYC_MAX g])) ∧
    (∃ (g : Fin 64) (s : State) (t : State) (op : RodOp) (k : Nat), Memory.wf s = true ∧ clean s g op ∧
      exec (issueOf g op) s = .next t ∧ (op = .trap → bitOf (srNow (rodAt s g)) 19 = false) ∧
      (op ≠ .endPass → (rodAt t g).phase = .inPass) ∧ (∀ x ∈ (rodAt s g).pend, ∀ w,
      x.loc = .f w → op = .endPass ∨ x.land < (rodAt s g).n + 2 → k ≠ rodFrame g * frameWords + w % frameWords)) :=
  ⟨⟨63, (atWord 63 0x1000000000000000), _, .add, by decide +kernel, by unfold clean; decide +kernel, rfl,
    (fun h => nomatch h), by decide +kernel⟩,
    ⟨63, (atWord 63 0x1000000000000000), _, .add, 62, by decide +kernel, by unfold clean; decide +kernel, rfl,
      (fun h => nomatch h), by decide +kernel⟩,
    ⟨63, (atWord 63 0x1000000000000000), _, .add, 0, by decide +kernel, by unfold clean; decide +kernel, rfl,
      (fun h => nomatch h), by decide +kernel, fun k h => by decide +revert +kernel, (fun h => nomatch h)⟩,
    ⟨63, (atWord 63 0x1000000000000000), _, .add, 6, by decide +kernel, by unfold clean; decide +kernel, rfl,
      (fun h => nomatch h), by decide +kernel, (fun x h => nomatch h)⟩⟩

/-- States and operands that meet the hypotheses of each clause of `ArithmeticLaws`, in their order. -/
theorem witness_ArithmeticLaws :
    (∃ (e : RodEnv) (a : Word) (b : Word) (x : Int), a = e.d (bitsOf e.w 43 4) ∧ b = aluB e ∧ x = a.toInt + b.toInt) ∧
    (∃ (e : RodEnv) (a : Word) (b : Word) (x : Int), a = e.d (bitsOf e.w 43 4) ∧ b = aluB e ∧ x = a.toInt - b.toInt) ∧
    (∃ (e : RodEnv) (a : Word) (c : Nat) (x : Int), a = e.d (bitsOf e.w 43 4) ∧ c = (aluB e).toNat % 64 ∧
      x = a.toInt * 2 ^ c) ∧
    (∃ (e : RodEnv) (a : Word) (b : Word), a = e.d (bitsOf e.w 46 4) ∧ b = e.d (bitsOf e.w 42 4)) ∧
    (∃ (e : RodEnv) (x : Int), x = e.accF (opAN e.w) + e.accF (opAM e.w) ∧ (-(2 ^ 71) ≤ x ∧ x < 2 ^ 71)) ∧
    (∃ (e : RodEnv) (x : Int), x = e.accF (opAN e.w) + e.accF (opAM e.w) ∧ 2 ^ 71 ≤ x ∧ e.sat = true) ∧
    (∃ (e : RodEnv) (x : Int), x = e.accF (opAN e.w) + e.accF (opAM e.w) ∧ x < -(2 ^ 71) ∧ e.sat = true) ∧
    (∃ (e : RodEnv) (x : Int), x = e.accF (opAN e.w) + e.accF (opAM e.w) ∧ (x < -(2 ^ 71) ∨ 2 ^ 71 ≤ x) ∧
      e.sat = false) ∧
    (∃ (e : RodEnv) (v : Int), v = e.accF (opAM e.w)) ∧
    (∃ (e : RodEnv) (v : Int), v = e.accF (opAM e.w) ∧ (-(2 ^ 63) ≤ v ∧ v < 2 ^ 63)) ∧
    (∃ (e : RodEnv) (v : Int), v = e.accF (opAM e.w) ∧ 2 ^ 63 ≤ v) ∧
    (∃ (e : RodEnv) (v : Int), v = e.accF (opAM e.w) ∧ v < -(2 ^ 63)) :=
  ⟨⟨⟨0, fun _ => 0x7FFFFFFF, fun _ => 0, fun _ => 0, false, 0, 0, 0, 0, 0⟩, _, _, _, rfl, rfl, rfl⟩,
    ⟨⟨0, fun _ => 0x7FFFFFFF, fun _ => 0, fun _ => 0, false, 0, 0, 0, 0, 0⟩, _, _, _, rfl, rfl, rfl⟩,
    ⟨⟨0, fun _ => 0x7FFFFFFF, fun _ => 0, fun _ => 0, false, 0, 0, 0, 0, 0⟩, _, _, _, rfl, rfl, rfl⟩,
    ⟨⟨0, fun _ => 0x7FFFFFFF, fun _ => 0, fun _ => 0, false, 0, 0, 0, 0, 0⟩, _, _, rfl, rfl⟩,
    ⟨⟨0, fun _ => 0x7FFFFFFF, fun _ => 2 ^ 69, fun _ => 0, false, 0, 0, 0, 0, 0⟩, _, rfl, by decide +kernel⟩,
    ⟨⟨0, fun _ => 0x7FFFFFFF, fun _ => 2 ^ 70, fun _ => 0, true, 0, 0, 0, 0, 0⟩, _, rfl, by decide +kernel⟩,
    ⟨⟨0, fun _ => 0x7FFFFFFF, fun _ => -(2 ^ 70) - 1, fun _ => 0, true, 0, 0, 0, 0, 0⟩, _, rfl, by decide +kernel⟩,
    ⟨⟨0, fun _ => 0x7FFFFFFF, fun _ => 2 ^ 70, fun _ => 0, false, 0, 0, 0, 0, 0⟩, _, rfl, by decide +kernel⟩,
    ⟨⟨0, fun _ => 0x7FFFFFFF, fun _ => 0, fun _ => 0, false, 0, 0, 0, 0, 0⟩, _, rfl⟩,
    ⟨⟨0, fun _ => 0x7FFFFFFF, fun _ => 2 ^ 63 - 1, fun _ => 0, false, 0, 0, 0, 0, 0⟩, _, rfl, by decide +kernel⟩,
    ⟨⟨0, fun _ => 0x7FFFFFFF, fun _ => 2 ^ 63, fun _ => 0, false, 0, 0, 0, 0, 0⟩, _, rfl, by decide +kernel⟩,
    ⟨⟨0, fun _ => 0x7FFFFFFF, fun _ => -(2 ^ 63) - 1, fun _ => 0, false, 0, 0, 0, 0, 0⟩, _, rfl, by decide +kernel⟩⟩

/-- States and operands that meet the hypotheses of each clause of `BufferAddresses`, in their order. -/
theorem witness_BufferAddresses :
    (∃ (b : Nat) (l : Nat) (a : Nat), b + l ≤ 2 ^ 20 ∧ b ≤ a ∧ a < b + l) ∧
    (∃ (b : Nat) (l : Nat) (a : Nat), (l = 0 ∨ a < b ∨ b + l ≤ a)) ∧
    (∃ (a : Nat) (x : Gather), 0x8000 ≤ a ∧ a < 0x80000 ∧ x.fail = none) :=
  ⟨⟨524288, 524288, 1048575, by decide +kernel⟩,
    ⟨1, 1, 2, by decide +kernel⟩,
    ⟨0x7FFFF, {}, by decide +kernel⟩⟩

/-- States and operands that meet the hypotheses of each clause of `MixAndDirectComplete`, in their order. -/
theorem witness_MixAndDirectComplete :
    (∃ (s : State), hostMay s) ∧
    (∃ (r : Fin 64) (s : State), live s = true ∧ (routeAt s r).vox = true ∧
      (routeAt s r).loudAt + 393216 * pget s P.MIX_DR_VOX_HOLD r ≤ s.time.cnt) ∧
    (∃ (w : Word) (s : State) (u : State) (first : Nat), hostMay s ∧ u = rwrite s Reg.MIX_MCLR w ∧
      fldGet F.MIX_MCLR_GO w = 1 ∧ first = rget u Reg.MIX_MCLR F.MIX_MCLR_FIRST) ∧
    (∃ (w : Word) (s : State), hostMay s ∧ fldGet F.MIX_CLIPCNT_CLR w = 1) ∧
    (∃ (d : DescRef) (bs : List Byte) (n : Nat) (s : State) (u : State), ready s d 0x32 bs ∧ u = markAccepted s d ∧
      n = par bs 12 0 11 - par bs 8 0 11 + 1) ∧
    (∃ (d : DescRef) (bs : List Byte) (r : Nat) (m : Nat) (s : State) (u : State) (v : State), ready s d 0x28 bs ∧
      u = markAccepted s d ∧ r = par bs 8 0 6 ∧ m = par bs 12 0 10 ∧
      v =
      { u with routeWait := u.routeWait ++ [⟨r, bitOf m 1 || bitOf m 2, ((List.range 10).filter (bitOf m)).map (fun w => (w, BitVec.ofNat 32 (leAt bs (16 + 4 * w) 4)))⟩] }) :=
  ⟨⟨State.reset, by unfold hostMay; decide +kernel⟩,
    ⟨63,
      { State.reset with routes := [(63, { routeAt State.reset 63 with vox := true })], time := { timeReset with cnt := 393216 * 100000 } },
      by decide +kernel⟩,
    ⟨(fldPut F.MIX_MCLR_GO 1 0), State.reset, _, _, by unfold hostMay; decide +kernel, rfl, by decide +kernel, rfl⟩,
    ⟨(fldPut F.MIX_CLIPCNT_CLR 1 0), State.reset, by unfold hostMay; decide +kernel, by decide +kernel⟩,
    ⟨⟨0, 0⟩, (descOf (0x32 + 1343 * 2 ^ 96)), _, (posted (0x32 + 1343 * 2 ^ 96)), _, by unfold ready; decide +kernel,
      rfl, rfl⟩,
    ⟨⟨0, 0⟩, (descOf (0x28 + 63 * 2 ^ 64 + 1023 * 2 ^ 96)), _, _, (posted (0x28 + 63 * 2 ^ 64 + 1023 * 2 ^ 96)), _,
      _, by unfold ready; decide +kernel, rfl, rfl, rfl, rfl⟩⟩

/-- States and operands that meet the hypotheses of each clause of `CarriesComplete`, in their order. -/
theorem witness_CarriesComplete :
    (∃ (w : Word) (s : State), hostMay s ∧ s.snap.fired = none ∧ fldGet F.SNP_FIRE_GO w = 1 ∧ ron s Reg.SNP_CTRL ⟨0,
      1⟩ = true) ∧
    (∃ (w : Word) (s : State), hostMay s ∧ fldGet F.SNP_FIRE_GO w = 1 ∧ ron s Reg.SNP_CTRL ⟨0, 1⟩ = false) ∧
    (∃ (up : Bool) (s : State), live s = true ∧ s.snap.fired = none ∧ ron s Reg.SNP_CIN F.SNP_CIN_POL = !up ∧
      ron s Reg.SNP_CTRL ⟨3, 1⟩ = true) ∧
    (∃ (s : State) (u : State), live s = true ∧ ron s Reg.SNP_MATCH_CTRL F.SNP_MATCH_CTRL_ARM = true ∧
      matchTime s ≤ now s ∧ fabCycle (matchTime s) ≠ fabCycle (boundaryAt s) ∧ s.snap.scheduled = [] ∧
      ron s Reg.SNP_CTRL ⟨4, 1⟩ = true ∧ u = rclr { s with snap := { s.snap with armed := none } } Reg.SNP_MATCH_CTRL
      F.SNP_MATCH_CTRL_ARM) ∧
    (∃ (s : State) (u : State) (c : Int × Nat × Option DescRef), live s = true ∧ s.snap.scheduled = [c] ∧
      c.1 ≤ now s ∧ fabCycle c.1 ≠ fabCycle (boundaryAt s) ∧ ron s Reg.SNP_MATCH_CTRL F.SNP_MATCH_CTRL_ARM = false ∧
      ron s Reg.SNP_CTRL ⟨5, 1⟩ = true ∧ u = { s with snap := { s.snap with scheduled := [] } }) ∧
    (∃ (s : State), live s = true ∧ fabCycle (matchTime s) = fabCycle (boundaryAt s)) ∧
    (∃ (w : Word) (s : State), hostMay s ∧ fldGet F.SNP_MATCH_CTRL_ARM w = 1 ∧ now s ≤ matchTime s) ∧
    (∃ (w : Word) (s : State), hostMay s ∧ fldGet F.SNP_MATCH_CTRL_ARM w = 1 ∧ matchTime s < now s) ∧
    (∃ (w : Word) (s : State) (u : State) (b : Bank), hostMay s ∧ u = rwrite s Reg.SNP_HOLD w ∧
      ron u Reg.SNP_HOLD F.SNP_HOLD_HOLD = false ∧ s.snap.latest = some b) ∧
    (∃ (s : State), live s = true ∧ s.snap.coutHigh = true ∧ coutOver s = true) ∧
    (∃ (d : DescRef) (bs : List Byte) (s : State) (u : State) (t : State), ready s d 0x30 bs ∧ par bs 8 0 2 = 0 ∧
      u = markAccepted s d ∧ ron u Reg.SNP_CTRL ⟨0, 1⟩ = true ∧ u.snap.fired = none ∧
      t = carryWith raise u 1 (posNow u) 0) ∧
    (∃ (d : DescRef) (bs : List Byte) (s : State) (u : State), ready s d 0x30 bs ∧ par bs 8 0 2 = 1 ∧
      par bs 24 0 30 ≤ 999999999 ∧ ron (markAccepted s d) Reg.SNP_MATCH_CTRL F.SNP_MATCH_CTRL_ARM = false ∧
      u = rput (rput (rput (markAccepted s d) Reg.SNP_MATCH_NS F.SNP_MATCH_NS_NS (par bs 24 0 30))
      Reg.SNP_MATCH_SEC_LO F.SNP_MATCH_SEC_LO_SEC_LO (par bs 16 0 32)) Reg.SNP_MATCH_SEC_HI F.SNP_MATCH_SEC_HI_SEC_HI
      (par bs 16 32 16) ∧ now u ≤ mkTime (par bs 16 0 48) (par bs 24 0 30)) ∧
    (∃ (d : DescRef) (bs : List Byte) (out : List Byte) (s : State), ready s d 0x31 bs ∧ (∀ e ∈ [(8, Die.a), (9,
      Die.b)], par bs 8 e.1 1 = 1 → s.snap.valid = true → fieldReady s.snap.presented e.2 = true ∨ fieldInvalid
      s.snap.presented e.2 = true) ∧ out = (((List.range 10).filter (bitOf (par bs 8 0 10))).map (sectionOut
      (markAccepted s d) s.snap.presented)).flatten ∧ out.length ≤ leAt bs 24 4) ∧
    (∃ (d : DescRef) (bs : List Byte) (s : State) (k : Nat) (x : Die), ready s d 0x31 bs ∧ (k, x) ∈ [(8, Die.a), (9,
      Die.b)] ∧ par bs 8 k 1 = 1 ∧ s.snap.valid = true ∧ fieldReady s.snap.presented x = false ∧
      fieldInvalid s.snap.presented x = false) ∧
    (∃ (s : State), live s = true) :=
  ⟨⟨(fldPut F.SNP_FIRE_GO 1 0), (put [(Reg.SNP_CTRL, ⟨0, 1⟩, 1)]), by unfold hostMay; decide +kernel,
    by decide +kernel⟩,
    ⟨(fldPut F.SNP_FIRE_GO 1 0), (put [(Reg.SNP_CTRL, ⟨0, 1⟩, 0)]), by unfold hostMay; decide +kernel,
      by decide +kernel⟩,
    ⟨true, (put [(Reg.SNP_CTRL, ⟨3, 1⟩, 1), (Reg.SNP_CIN, F.SNP_CIN_POL, 0)]), by decide +kernel⟩,
    ⟨(put [(Reg.SNP_CTRL, ⟨4, 1⟩, 1), (Reg.SNP_MATCH_CTRL, F.SNP_MATCH_CTRL_ARM, 1)]), _, by decide +kernel,
      by decide +kernel, by decide +kernel, by decide +kernel, by decide +kernel, by decide +kernel, rfl⟩,
    ⟨{ put [(Reg.SNP_CTRL, ⟨5, 1⟩, 1)] with snap := { State.reset.snap with scheduled := [(0, 0, none)] } }, _, (0,
      0, none), by decide +kernel, by decide +kernel, by decide +kernel, by decide +kernel, by decide +kernel,
      by decide +kernel, rfl⟩,
    ⟨{ put [(Reg.SNP_MATCH_SEC_LO, F.SNP_MATCH_SEC_LO_SEC_LO, 1)] with grid := { gridReset with index := 11999 } },
      by decide +kernel⟩,
    ⟨(fldPut F.SNP_MATCH_CTRL_ARM 1 0), State.reset, by unfold hostMay; decide +kernel, by decide +kernel⟩,
    ⟨(fldPut F.SNP_MATCH_CTRL_ARM 1 0), { State.reset with time := { timeReset with cnt := 1 } },
      by unfold hostMay; decide +kernel, by decide +kernel⟩,
    ⟨0, { put [(Reg.SNP_HOLD, F.SNP_HOLD_HOLD, 1)] with snap := { State.reset.snap with latest := some State.reset.snap.presented } },
      _, State.reset.snap.presented, by unfold hostMay; decide +kernel, rfl, by decide +kernel⟩,
    ⟨{ State.reset with snap := { State.reset.snap with coutHigh := true }, time := { timeReset with cnt := 393216000 } },
      by decide +kernel⟩,
    ⟨⟨0, 0⟩, (descOf (0x30)), (posted (0x30) (put [(Reg.SNP_CTRL, ⟨0, 1⟩, 1)])), _, _,
      by unfold ready; decide +kernel, by decide +kernel, rfl, by decide +kernel, by decide +kernel, rfl⟩,
    ⟨⟨0, 0⟩, (descOf (0x30 + 2 ^ 64 + 999999999 * 2 ^ 192)), (posted (0x30 + 2 ^ 64 + 999999999 * 2 ^ 192)), _,
      by unfold ready; decide +kernel, by decide +kernel, by decide +kernel, by decide +kernel, rfl,
      by decide +kernel⟩,
    ⟨⟨0, 0⟩, (descOf (0x31 + 0x101 * 2 ^ 64 + 4096 * 2 ^ 192)), _,
      { posted (0x31 + 0x101 * 2 ^ 64 + 4096 * 2 ^ 192) with snap := { State.reset.snap with valid := true, presented := { State.reset.snap.presented with invalidA := true } } },
      by unfold ready; decide +kernel, by decide +kernel, rfl, by decide +kernel⟩,
    ⟨⟨0, 0⟩, (descOf (0x31 + 0x203 * 2 ^ 64)),
      { posted (0x31 + 0x203 * 2 ^ 64) with snap := { State.reset.snap with valid := true, presented := { State.reset.snap.presented with invalidB := false } } },
      9, .b, by unfold ready; decide +kernel, by decide +kernel⟩,
    ⟨State.reset, by decide +kernel⟩⟩

/-- States and operands that meet the hypotheses of each clause of `TallyDescriptorsComplete`, in their order. -/
theorem witness_TallyDescriptorsComplete :
    (∃ (d : DescRef) (bs : List Byte) (id : Nat) (s : State) (u : State), ready s d 0x10 bs ∧ u = markAccepted s d ∧
      tallyFenced u = false ∧ id = par bs 8 0 4 ∧ tyState u id = 0) ∧
    (∃ (d : DescRef) (bs : List Byte) (id : Nat) (s : State) (u : State), ready s d 0x10 bs ∧ u = markAccepted s d ∧
      tallyFenced u = false ∧ id = par bs 8 0 4 ∧ tyState u id ≠ 0) ∧
    (∃ (d : DescRef) (bs : List Byte) (s : State), ready s d 0x10 bs ∧ tallyFenced (markAccepted s d) = true) ∧
    (∃ (d : DescRef) (bs : List Byte) (s : State), ready s d 0x11 bs ∧ tallyFenced (markAccepted s d) = true) ∧
    (∃ (d : DescRef) (bs : List Byte) (s : State), ready s d 0x12 bs ∧ tallyFenced (markAccepted s d) = true) ∧
    (∃ (d : DescRef) (bs : List Byte) (s : State), ready s d 0x13 bs ∧ tallyFenced (markAccepted s d) = true) ∧
    (∃ (d : DescRef) (bs : List Byte) (recs : List Byte) (id : Nat) (s : State) (u : State), ready s d 0x11 bs ∧
      u = markAccepted s d ∧ tallyFenced u = false ∧ id = par bs 8 0 4 ∧ tyState u id = 1 ∧
      recs.length = 16 * leAt bs 12 4 ∧ namesAbsent u ((List.range (leAt bs 12 4)).map (readRecord recs)) = false) ∧
    (∃ (d : DescRef) (bs : List Byte) (id : Nat) (stack : Bool) (s : State) (u : State), ready s d 0x12 bs ∧
      u = markAccepted s d ∧ tallyFenced u = false ∧ id = par bs 8 0 4 ∧ tyState u id = 1 ∧
      (par bs 8 4 2 = 1 → par bs 24 0 30 ≤ 999999999) ∧ stack = (par bs 8 6 1 == 1)) ∧
    (∃ (d : DescRef) (bs : List Byte) (id : Nat) (s : State) (u : State), ready s d 0x13 bs ∧ u = markAccepted s d ∧
      tallyFenced u = false ∧ id = par bs 8 0 4 ∧ (tyState u id = 1 ∨ tyState u id = 3 ∧
      (tallyAt u id).decided = false ∧ tyStack u id = false) ∧ (tallyAt u id).abortRef = none) :=
  ⟨⟨⟨0, 0⟩, (descOf (0x10 + 15 * 2 ^ 64)), _, (posted (0x10 + 15 * 2 ^ 64)), _, by unfold ready; decide +kernel, rfl,
    by decide +kernel, rfl, by decide +kernel⟩,
    ⟨⟨0, 0⟩, (descOf (0x10 + 15 * 2 ^ 64)), _, (posted (0x10 + 15 * 2 ^ 64) (put [(Reg.TLY_T_STAT 15,
      F.TLY_T_STAT_STATE, 1)])), _, by unfold ready; decide +kernel, rfl, by decide +kernel, rfl, by decide +kernel⟩,
    ⟨⟨0, 0⟩, (descOf (0x10 + 15 * 2 ^ 64)), (posted (0x10 + 15 * 2 ^ 64) (put [(Reg.MTX_FENCE_M, ⟨11, 1⟩, 1)])),
      by unfold ready; decide +kernel, by decide +kernel⟩,
    ⟨⟨0, 0⟩, (descOf (0x11 + 15 * 2 ^ 64 + 2 ^ 96)), (posted (0x11 + 15 * 2 ^ 64 + 2 ^ 96) (put [(Reg.MTX_FENCE_M,
      ⟨11, 1⟩, 1)])), by unfold ready; decide +kernel, by decide +kernel⟩,
    ⟨⟨0, 0⟩, (descOf (0x12 + 15 * 2 ^ 64)), (posted (0x12 + 15 * 2 ^ 64) (put [(Reg.MTX_FENCE_M, ⟨11, 1⟩, 1)])),
      by unfold ready; decide +kernel, by decide +kernel⟩,
    ⟨⟨0, 0⟩, (descOf (0x13 + 15 * 2 ^ 64)), (posted (0x13 + 15 * 2 ^ 64) (put [(Reg.MTX_FENCE_M, ⟨11, 1⟩, 1)])),
      by unfold ready; decide +kernel, by decide +kernel⟩,
    ⟨⟨0, 0⟩, (descOf (0x11 + 15 * 2 ^ 64 + 2 ^ 96)), (List.replicate 16 0), _,
      (posted (0x11 + 15 * 2 ^ 64 + 2 ^ 96) (put [(Reg.TLY_T_STAT 15, F.TLY_T_STAT_STATE, 1)])), _,
      by unfold ready; decide +kernel, rfl, by decide +kernel, rfl, by decide +kernel⟩,
    ⟨⟨0, 0⟩, (descOf (0x12 + 15 * 2 ^ 64)), _, _, (posted (0x12 + 15 * 2 ^ 64) (put [(Reg.TLY_T_STAT 15,
      F.TLY_T_STAT_STATE, 1)])), _, by unfold ready; decide +kernel, rfl, by decide +kernel, rfl, by decide +kernel,
      by decide +kernel, rfl⟩,
    ⟨⟨0, 0⟩, (descOf (0x13 + 15 * 2 ^ 64)), _, (posted (0x13 + 15 * 2 ^ 64) (put [(Reg.TLY_T_STAT 15,
      F.TLY_T_STAT_STATE, 1)])), _, by unfold ready; decide +kernel, rfl, by decide +kernel, rfl, by decide +kernel⟩⟩

/-- States and operands that meet the hypotheses of each clause of `TallyTimesComplete`, in their order. -/
theorem witness_TallyTimesComplete :
    (∃ (bad : List (Fin 8 × Nat)) (s : State) (u : State) (v : State), live s = true ∧
      u = forEach bad s shadowError ∧ v = forEach (dueTallies u 2 (nextBoundary s)) u enterDoubt) ∧
    (∃ (id : Fin 16) (s : State), live s = true ∧ tyState s id = 4 ∧
      (tallyAt s id).asked + max 1 (rget s Reg.TLY_CTRL F.TLY_CTRL_QUERY_INT) ≤ s.grid.index) ∧
    (∃ (s : State), live s = true ∧ tallyIds.any (fun id => tyState s id == 4) = false) ∧
    (∃ (s : State), live s = true ∧ tallyIds.any (fun id => tyState s id == 4) = true) :=
  ⟨⟨[], State.reset, _, _, by decide +kernel, rfl, rfl⟩,
    ⟨15, { put [(Reg.TLY_T_STAT 15, F.TLY_T_STAT_STATE, 4)] with grid := { State.reset.grid with index := 100000 } },
      by decide +kernel⟩,
    ⟨State.reset, by decide +kernel⟩,
    ⟨(put [(Reg.TLY_T_STAT 15, F.TLY_T_STAT_STATE, 4)]), by decide +kernel⟩⟩

/-- States and operands that meet the hypotheses of each clause of `NetworkLinksComplete`, in their order. -/
theorem witness_NetworkLinksComplete :
    (∃ (p : Fin 8) (w : Word) (s : State) (u : State), hostMay s ∧ u = updateCredits s p ∧
      slopesExceed (rwrite u (Reg.NET_CTRL p) w) p = false) ∧
    (∃ (p : Fin 8) (w : Word) (s : State) (u : State), hostMay s ∧ u = updateCredits s p ∧
      slopesExceed (rwrite u (Reg.NET_CTRL p) w) p = true) ∧
    (∃ (p : Fin 8) (s : State), live s = true ∧ netLink s p = false ∧ netFenced s p = false ∧
      rget s (Reg.NET_CTRL p) F.NET_CTRL_MODE ≠ 0 ∧ inReset s (unitNet p) = false) ∧
    (∃ (p : Fin 8) (us : Nat) (s : State) (u : State), live s = true ∧ netLink s p = true ∧
      max 1 (rget s (Reg.NET_LINK p) F.NET_LINK_DOWN_US) ≤ us ∧ u = linkClearWith raise s p) ∧
    (∃ (p : Fin 8) (us : Nat) (s : State), us < max 1 (rget s (Reg.NET_LINK p) F.NET_LINK_DOWN_US)) ∧
    (∃ (w : Word) (s : State), hostMay s ∧ w.toNat % 2 = 1 ∧ mapWf hostReset s.regs = true) :=
  ⟨⟨7, 0, State.reset, _, by unfold hostMay; decide +kernel, rfl, by decide +kernel⟩,
    ⟨7, (fldPut F.NET_CTRL_MODE 1 0), (put [(Reg.NET_Q_CTRL 7 0, F.NET_Q_CTRL_CBS_EN, 1), (Reg.NET_Q_SLOPE 7 0,
      F.NET_Q_SLOPE_IDLE_SLOPE, 4000000)]), _, by unfold hostMay; decide +kernel, rfl, by decide +kernel⟩,
    ⟨7, (put [(Reg.NET_CTRL 7, F.NET_CTRL_MODE, 1)]), by decide +kernel⟩,
    ⟨7, 4294967295, (put [(Reg.NET_CTRL 7, F.NET_CTRL_MODE, 1), (Reg.NET_STAT 7, F.NET_STAT_LINK, 1)]), _,
      by decide +kernel, by decide +kernel, by decide +kernel, rfl⟩,
    ⟨0, 0, State.reset, by decide +kernel⟩,
    ⟨1, State.reset, by unfold hostMay; decide +kernel, by decide +kernel⟩⟩

/-- States and operands that meet the hypotheses of each clause of `NetworkReceptionComplete`, in their order. -/
theorem witness_NetworkReceptionComplete :
    (∃ (p : Fin 8) (s : State), live s = true ∧ netOn s p = true ∧ netLink s p = true ∧ netFenced s p = false) ∧
    (∃ (p : Fin 8) (bs : List Byte) (corr : Nat) (c : Nat) (s : State) (u : State), live s = true ∧
      netOn s p = true ∧ netLink s p = true ∧ netFenced s p = false ∧
      (c = (if rget s (Reg.NET_CTRL p) F.NET_CTRL_MODE = 3 ∧
      (rget s (Reg.NET_CTRL p) F.NET_CTRL_FEC = 1 ∨ rget s (Reg.NET_CTRL p) F.NET_CTRL_FEC = 2) then corr else 0)) ∧
      u = countErrors (radd (radd (radd s (Reg.NET_FEC_CORR p) F.NET_FEC_CORR_COUNT c) (Reg.NET_FEC_UNCORR p)
      F.NET_FEC_UNCORR_COUNT 0) (Reg.NET_RX_FCS p) F.NET_RX_FCS_COUNT 0) p 0 (rd (radd (radd (radd s
      (Reg.NET_FEC_CORR p) F.NET_FEC_CORR_COUNT c) (Reg.NET_FEC_UNCORR p) F.NET_FEC_UNCORR_COUNT 0) (Reg.NET_RX_FCS
      p) F.NET_RX_FCS_COUNT 0) (Reg.NET_FEC_UNCORR p)).toNat ∧ 60 ≤ bs.length ∧ bs.length + 4 ≤ maxFrame u p) ∧
    (∃ (p : Fin 8) (c : Nat) (s : State), live s = true ∧ (netAt s p).pauseFrom = some c ∧
      (netAt s p).pauseQuanta * 512 * 393216000 ≤ (s.time.cnt - c) * lineRate s p) ∧
    (∃ (p : Fin 8) (c : Nat) (s : State) (u : State), live s = true ∧ (netAt s p).pauseAt = some c ∧
      rget s (Reg.NET_PAUSE p) F.NET_PAUSE_PAUSE_MAX * 393216 < (s.time.cnt - c) * 1000 ∧
      u = radd (rset (setNet (endPause s p) p { netAt (endPause s p) p with deafSince := some s.time.cnt })
      (Reg.NET_STAT p) F.NET_STAT_WD_FIRED) (Reg.NET_WD_COUNT p) F.NET_WD_COUNT_COUNT 1) ∧
    (∃ (d : DescRef) (bs : List Byte) (s : State), ready s d 0x49 bs ∧ (∀ p,
      p < 8 → netFenced (markAccepted s d) p = false)) ∧
    (∃ (u : ServoReport) (s : State), live s = true ∧ Memory.wf s = true ∧ ptpServed s = true ∧
      s.boot.restarting = false ∧ u.states = [] ∧ u.delays = []) ∧
    (∃ (u : ServoReport) (s : State) (p : Nat), p < 8 ∧ ptpStateOk s p (reportedState u p) = false) ∧
    (∃ (s : State), s.boot.restarting = true) :=
  ⟨⟨7, (put [(Reg.NET_CTRL 7, F.NET_CTRL_MODE, 1), (Reg.NET_STAT 7, F.NET_STAT_LINK, 1)]), by decide +kernel⟩,
    ⟨7, (List.replicate 60 0), 0, _, (put [(Reg.NET_CTRL 7, F.NET_CTRL_MODE, 1), (Reg.NET_STAT 7, F.NET_STAT_LINK,
      1)]), _, by decide +kernel, by decide +kernel, by decide +kernel, by decide +kernel, rfl, rfl,
      by decide +kernel⟩,
    ⟨7, 0,
      { put [(Reg.NET_CTRL 7, F.NET_CTRL_MODE, 1), (Reg.NET_STAT 7, F.NET_STAT_LINK, 1)] with nets := [(7, { netAt State.reset 7 with pauseFrom := some 0, pauseQuanta := 1 })], time := { timeReset with cnt := 393216000 } },
      by decide +kernel⟩,
    ⟨7, 0,
      { put [(Reg.NET_CTRL 7, F.NET_CTRL_MODE, 1), (Reg.NET_STAT 7, F.NET_STAT_LINK, 1)] with nets := [(7, { netAt State.reset 7 with pauseAt := some 0 })], time := { timeReset with cnt := 393216000000 } },
      _, by decide +kernel, by decide +kernel, by decide +kernel, rfl⟩,
    ⟨⟨0, 0⟩, (descOf (0x49 + 64 * 2 ^ 64)), (posted (0x49 + 64 * 2 ^ 64)), by unfold ready; decide +kernel,
      fun p h => (by decide +kernel : ∀ p : Fin 8, netFenced (markAccepted (posted (0x49 + 64 * 2 ^ 64)) ⟨0,
      0⟩) p = false) ⟨p, h⟩⟩,
    ⟨⟨0, 0, 0, [], []⟩, (put [(Reg.NET_PTP_CTRL, F.NET_PTP_CTRL_EN, 1)]), by decide +kernel⟩,
    ⟨⟨0, 0, 0, [1], []⟩, State.reset, 0, by decide +kernel⟩,
    ⟨{ State.reset with boot := { bootReset with restarting := true } }, by decide +kernel⟩⟩

/-- States and operands that meet the hypotheses of each clause of `NetworkTransmissionComplete`, in their order. -/
theorem witness_NetworkTransmissionComplete :
    (∃ (p : Fin 8) (q : Nat) (s : State) (u : State), live s = true ∧ u = updateCredits s p ∧ portFree u p = true ∧
      eligibleQueue u p = some q) ∧
    (∃ (p : Fin 8) (q : Nat) (seg : Nat) (d : DescRef) (f : TxFrame) (s : State) (u : State) (v : State),
      live s = true ∧ (netAt s p).line = some (q, f) ∧ f.owner = .host d seg (seg + 1) ∧ f.stamp = false ∧
      u = updateCredits s p ∧ v = setNet u p
      { netAt u p with line := none, pauseFrom := if (netAt u p).pauseAt.isSome && (netAt u p).pauseFrom.isNone then some u.time.cnt else (netAt u p).pauseFrom }) ∧
    (∃ (p : Fin 8) (q : Nat) (t : Nat) (b : Bool) (f : TxFrame) (s : State) (u : State) (v : State), live s = true ∧
      (netAt s p).line = some (q, f) ∧ f.owner = .stream t b ∧ u = updateCredits s p ∧
      v = setNet u p
      { netAt u p with line := none, pauseFrom := if (netAt u p).pauseAt.isSome && (netAt u p).pauseFrom.isNone then some u.time.cnt else (netAt u p).pauseFrom }) ∧
    (∃ (p : Fin 8) (q : Fin 8) (f : TxFrame) (rest : List TxFrame) (l : Int) (s : State) (u : State), live s = true ∧
      netQueue s p q = f :: rest ∧ f.launch = some l ∧ f.owner = .unowned ∧
      rget s (Reg.NET_LT p) F.NET_LT_LATE_MAX ≠ 0 ∧ timeValid s = true ∧
      l + rget s (Reg.NET_LT p) F.NET_LT_LATE_MAX * 65536000 ≤ now s ∧
      u = radd (setQueue (updateCredits s p) p q rest) (Reg.NET_TX_LATE_DROP p) F.NET_TX_LATE_DROP_COUNT 1) ∧
    (∃ (p : Fin 8) (q : Fin 8) (f : TxFrame) (rest : List TxFrame) (l : Int) (t : Nat) (b : Bool) (s : State) (u :
      State) (v : State), live s = true ∧ netQueue s p q = f :: rest ∧ f.launch = some l ∧ f.owner = .stream t b ∧
      rget s (Reg.NET_LT p) F.NET_LT_LATE_MAX ≠ 0 ∧ timeValid s = true ∧
      l + rget s (Reg.NET_LT p) F.NET_LT_LATE_MAX * 65536000 ≤ now s ∧
      u = radd (setQueue (updateCredits s p) p q rest) (Reg.NET_TX_LATE_DROP p) F.NET_TX_LATE_DROP_COUNT 1 ∧
      v = raise u (0x303 + 8 * p) p (rd u (Reg.NET_TX_LATE_DROP p)).toNat) ∧
    (∃ (p : Fin 8) (q : Fin 8) (f : TxFrame) (rest : List TxFrame) (l : Int) (d : DescRef) (seg : Nat) (n : Nat) (s :
      State) (u : State) (v : State), live s = true ∧ netQueue s p q = f :: rest ∧ f.launch = some l ∧
      f.owner = .host d seg n ∧ rget s (Reg.NET_LT p) F.NET_LT_LATE_MAX ≠ 0 ∧ timeValid s = true ∧
      l + rget s (Reg.NET_LT p) F.NET_LT_LATE_MAX * 65536000 ≤ now s ∧
      u = radd (setQueue (updateCredits s p) p q rest) (Reg.NET_TX_LATE_DROP p) F.NET_TX_LATE_DROP_COUNT 1 ∧
      v = raise u (0x303 + 8 * p) p (rd u (Reg.NET_TX_LATE_DROP p)).toNat) ∧
    (∃ (p : Fin 8) (s : State), rget s (Reg.NET_LT p) F.NET_LT_LATE_MAX = 0) ∧
    (∃ (d : DescRef) (bs : List Byte) (f : List Byte) (p : Nat) (s : State) (u : State), ready s d 0x48 bs ∧
      u = markAccepted s d ∧ p = par bs 8 0 3 ∧ par bs 8 6 1 = 0 ∧ par bs 8 8 1 = 0 ∧ par bs 8 9 1 = 0 ∧
      par bs 8 10 1 = 0 ∧ f.length = leAt bs 12 4 ∧ isPtp f = false ∧ f.length + 4 ≤ maxFrame u p ∧
      netFenced u p = false ∧ netLink u p = true) ∧
    (∃ (d : DescRef) (bs : List Byte) (f : List Byte) (p : Nat) (s : State) (u : State), ready s d 0x48 bs ∧
      u = markAccepted s d ∧ p = par bs 8 0 3 ∧ par bs 8 6 1 = 0 ∧ par bs 8 10 1 = 0 ∧ f.length = leAt bs 12 4 ∧
      isPtp f = false ∧ f.length + 4 ≤ maxFrame u p ∧ netFenced u p = false ∧ netLink u p = false) :=
  ⟨⟨7, 0,
    { put [(Reg.NET_CTRL 7, F.NET_CTRL_MODE, 1), (Reg.NET_STAT 7, F.NET_STAT_LINK, 1)] with nets := [(7, { netAt State.reset 7 with queues := [(0, [(⟨List.replicate 60 0, none, .unowned, false, none⟩ : TxFrame)])] })] },
    _, by decide +kernel, rfl, by decide +kernel, rfl⟩,
    ⟨7, 0, 0, ⟨0, 0⟩, ⟨List.replicate 60 0, none, .host ⟨0, 0⟩ 0 1, false, none⟩,
      { put [(Reg.NET_CTRL 7, F.NET_CTRL_MODE, 1), (Reg.NET_STAT 7, F.NET_STAT_LINK, 1)] with nets := [(7, { netAt State.reset 7 with line := some (0, ⟨List.replicate 60 0, none, .host ⟨0, 0⟩ 0 1, false, none⟩) })] },
      _, _, by decide +kernel, by decide +kernel, by decide +kernel, by decide +kernel, rfl, rfl⟩,
    ⟨7, 7, 127, true, ⟨List.replicate 60 0, none, .stream 127 true, false, none⟩,
      { put [(Reg.NET_CTRL 7, F.NET_CTRL_MODE, 1), (Reg.NET_STAT 7, F.NET_STAT_LINK, 1)] with nets := [(7, { netAt State.reset 7 with line := some (7, ⟨List.replicate 60 0, none, .stream 127 true, false, none⟩) })] },
      _, _, by decide +kernel, by decide +kernel, by decide +kernel, rfl, rfl⟩,
    ⟨7, 7, ⟨List.replicate 60 0, some 0, .unowned, false, none⟩, [], 0,
      { put [(Reg.TIME_STAT, F.TIME_STAT_VALID, 1), (Reg.NET_LT 7, F.NET_LT_LATE_MAX, 1)] with nets := [(7, { netAt State.reset 7 with queues := [(7, [⟨List.replicate 60 0, some 0, .unowned, false, none⟩])] })], time := { timeReset with cnt := 393216000 } },
      _, by decide +kernel, by decide +kernel, by decide +kernel, by decide +kernel, by decide +kernel,
      by decide +kernel, by decide +kernel, rfl⟩,
    ⟨7, 7, ⟨List.replicate 60 0, some 0, .stream 127 true, false, none⟩, [], 0, 127, true,
      { put [(Reg.TIME_STAT, F.TIME_STAT_VALID, 1), (Reg.NET_LT 7, F.NET_LT_LATE_MAX, 1)] with nets := [(7, { netAt State.reset 7 with queues := [(7, [⟨List.replicate 60 0, some 0, .stream 127 true, false, none⟩])] })], time := { timeReset with cnt := 393216000 } },
      _, _, by decide +kernel, by decide +kernel, by decide +kernel, by decide +kernel, by decide +kernel,
      by decide +kernel, by decide +kernel, rfl, rfl⟩,
    ⟨7, 7, ⟨List.replicate 60 0, some 0, .host ⟨0, 0⟩ 0 1, false, none⟩, [], 0, ⟨0, 0⟩, 0, 1,
      { put [(Reg.TIME_STAT, F.TIME_STAT_VALID, 1), (Reg.NET_LT 7, F.NET_LT_LATE_MAX, 1)] with nets := [(7, { netAt State.reset 7 with queues := [(7, [⟨List.replicate 60 0, some 0, .host ⟨0, 0⟩ 0 1, false, none⟩])] })], time := { timeReset with cnt := 393216000 } },
      _, _, by decide +kernel, by decide +kernel, by decide +kernel, by decide +kernel, by decide +kernel,
      by decide +kernel, by decide +kernel, rfl, rfl⟩,
    ⟨7, (put [(Reg.NET_LT 7, F.NET_LT_LATE_MAX, 0)]), by decide +kernel⟩,
    ⟨⟨0, 0⟩, (descOf (0x48 + 7 * 2 ^ 64 + 60 * 2 ^ 96)), (List.replicate 60 0), _,
      (posted (0x48 + 7 * 2 ^ 64 + 60 * 2 ^ 96) (put [(Reg.NET_CTRL 7, F.NET_CTRL_MODE, 1), (Reg.NET_STAT 7,
      F.NET_STAT_LINK, 1)])), _, by unfold ready; decide +kernel, rfl, rfl, by decide +kernel⟩,
    ⟨⟨0, 0⟩, (descOf (0x48 + 7 * 2 ^ 64 + 60 * 2 ^ 96)), (List.replicate 60 0), _,
      (posted (0x48 + 7 * 2 ^ 64 + 60 * 2 ^ 96)), _, by unfold ready; decide +kernel, rfl, rfl, by decide +kernel⟩⟩

/-- States and operands that meet the hypotheses of each clause of `StreamsComplete`, in their order. -/
theorem witness_StreamsComplete :
    (∃ (d : DescRef) (bs : List Byte) (im : List Byte) (n : Nat) (s : State) (u : State) (v : State),
      ready s d 0x29 bs ∧ u = markAccepted s d ∧ n = par bs 8 0 10 ∧ n < 512 ∧ im.length = 96 ∧
      ron u Reg.STR_STAT F.STR_STAT_FENCED = false ∧ pon u P.STR_RX_EN n = false ∧
      v = writeImage u 0x0D01 n 24 (par bs 12 0 24) im 1 ∧ threatens u v = false) ∧
    (∃ (d : DescRef) (bs : List Byte) (im : List Byte) (n : Nat) (s : State) (u : State) (v : State),
      ready s d 0x29 bs ∧ u = markAccepted s d ∧ n = par bs 8 0 10 ∧ 512 ≤ n ∧ im.length = 64 ∧
      ron u Reg.STR_STAT F.STR_STAT_FENCED = false ∧ pon u P.STR_TX_EN (n - 512) = false ∧
      v = writeImage u 0x0D02 (n - 512) 16 (par bs 12 0 24) im 1 ∧ threatens u v = false) ∧
    (∃ (d : DescRef) (bs : List Byte) (im : List Byte) (s : State) (u : State), ready s d 0x29 bs ∧
      u = markAccepted s d ∧ par bs 8 0 10 < 512 ∧ im.length = 96 ∧ ron u Reg.STR_STAT F.STR_STAT_FENCED = false ∧
      pon u P.STR_RX_EN (par bs 8 0 10) = true) ∧
    (∃ (d : DescRef) (bs : List Byte) (im : List Byte) (s : State) (u : State), ready s d 0x29 bs ∧
      u = markAccepted s d ∧ 512 ≤ par bs 8 0 10 ∧ im.length = 64 ∧ ron u Reg.STR_STAT F.STR_STAT_FENCED = false ∧
      pon u P.STR_TX_EN (par bs 8 0 10 - 512) = true) ∧
    (∃ (bad : List (Fin 1024 × Fin 32)) (s : State) (u : State), live s = true ∧ running s = true ∧
      u = forEach bad s (fun s e => uncorrectable s .dram (strStoreWord s e.1 ((s.grid.index * blk s + e.2) % 1024) /
      2 ^ 27 % 4) (dramByte (strStoreWord s e.1 ((s.grid.index * blk s + e.2) % 1024))))) ∧
    (∃ (w : Word) (s : State) (u : State), hostMay s ∧ u = rwrite s Reg.STR_CLR w ∧ fldGet F.STR_CLR_GO w = 1) :=
  ⟨⟨⟨0, 0⟩, (descOf (0x29 + 511 * 2 ^ 64)), (List.replicate 96 0), _, (posted (0x29 + 511 * 2 ^ 64)), _, _,
    by unfold ready; decide +kernel, rfl, rfl, by decide +kernel, by decide +kernel, by decide +kernel,
    by decide +kernel, rfl, by decide +kernel⟩,
    ⟨⟨0, 0⟩, (descOf (0x29 + 512 * 2 ^ 64)), (List.replicate 64 0), _, (posted (0x29 + 512 * 2 ^ 64)), _, _,
      by unfold ready; decide +kernel, rfl, rfl, by decide +kernel, by decide +kernel, by decide +kernel,
      by decide +kernel, rfl, by decide +kernel⟩,
    ⟨⟨0, 0⟩, (descOf (0x29 + 511 * 2 ^ 64)), (List.replicate 96 0),
      (posted (0x29 + 511 * 2 ^ 64) (pput State.reset P.STR_RX_EN 511 1)), _, by unfold ready; decide +kernel, rfl,
      by decide +kernel⟩,
    ⟨⟨0, 0⟩, (descOf (0x29 + 1023 * 2 ^ 64)), (List.replicate 64 0),
      (posted (0x29 + 1023 * 2 ^ 64) (pput State.reset P.STR_TX_EN 511 1)), _, by unfold ready; decide +kernel, rfl,
      by decide +kernel⟩,
    ⟨[], going, _, by decide +kernel, by decide +kernel, rfl⟩,
    ⟨(fldPut F.STR_CLR_GO 1 0), State.reset, _, by unfold hostMay; decide +kernel, rfl, by decide +kernel⟩⟩

/-- States and operands that meet the hypotheses of each clause of `BarrierLinksComplete`, in their order. -/
theorem witness_BarrierLinksComplete :
    (∃ (d : Die) (s : State) (l : Lane) (i : Nat), live s = true ∧ diePresent s d = true ∧ (l, i) ∈ [(Lane.ul0, 0),
      (Lane.ul1, 1)]) ∧
    (∃ (d : Die) (s : State) (l : Lane) (i : Nat), dieHere s d = true ∧ (l, i) ∈ [(Lane.dl0, 0), (Lane.dl1, 1),
      (Lane.twin0, 2), (Lane.twin1, 3)]) ∧
    (∃ (d : Die) (s : State) (u : State) (l : Lane) (f : Fld) (i : Nat), live s = true ∧ diePresent s d = true ∧
      Memory.wf s = true ∧ (l, f, i) ∈ [(Lane.ul0, F.BAR_STAT_UL0, 0), (Lane.ul1, F.BAR_STAT_UL1, 1)] ∧
      barLink s d ≠ lkUp ∧ ron s (Reg.BAR_STAT (dieNum d)) f = false ∧ mapGet (fun _ => (0,
      0)) (barAt s d).sync i = (63, 0) ∧ u = rbit (setBar s d
      { barAt s d with sync := mapSet (fun _ => (0, 0)) (barAt s d).sync i (0, 0) }) (Reg.BAR_STAT (dieNum d)) f true) ∧
    (∃ (d : Die) (s : State) (u : State) (l : Lane) (f : Fld) (i : Nat) (n : Nat), live s = true ∧
      diePresent s d = true ∧ Memory.wf s = true ∧ (l, f, i) ∈ [(Lane.ul0, F.BAR_STAT_UL0, 0), (Lane.ul1,
      F.BAR_STAT_UL1, 1)] ∧ barLink s d = lkUp ∧ ron s (Reg.BAR_STAT (dieNum d)) f = true ∧ mapGet (fun _ => (0,
      0)) (barAt s d).sync i = (n, 15) ∧ u = rbit (setBar s d
      { barAt s d with sync := mapSet (fun _ => (0, 0)) (barAt s d).sync i (0, 0) }) (Reg.BAR_STAT (dieNum d)) f
      false) ∧
    (∃ (d : Die) (s : State) (l : Lane) (f : Fld) (i : Nat), live s = true ∧ diePresent s d = true ∧ (l, f,
      i) ∈ [(Lane.ul0, F.BAR_STAT_UL0, 0), (Lane.ul1, F.BAR_STAT_UL1, 1)] ∧ ron s (Reg.BAR_STAT (dieNum d)) f = false) ∧
    (∃ (ms : List (List Nat)), (∀ m ∈ ms, m ≠ [] ∧ ∀ w ∈ m, w < 2 ^ 64)) ∧
    (∃ (d : Die) (s : State) (u : State), live s = true ∧ barUp s d = true ∧
      (linkSilent s d = true ∨ 4 ≤ (barAt s d).blocks) ∧ u = setBar s d { barAt s d with upAt := none }) ∧
    (∃ (s : State), live s = true) ∧
    (∃ (d : Die) (q : Fin 65536) (w : BarWait) (s : State), live s = true ∧
      (barAt s d).waits.find? (fun w => w.seq == q.val && ackDue s d w) = some w ∧
      w.tries < rget s (Reg.BAR_CTRL (dieNum d)) F.BAR_CTRL_RETRIES) ∧
    (∃ (d : Die) (q : Fin 65536) (w : BarWait) (s : State), live s = true ∧
      (barAt s d).waits.find? (fun w => w.seq == q.val && ackDue s d w) = some w ∧
      rget s (Reg.BAR_CTRL (dieNum d)) F.BAR_CTRL_RETRIES ≤ w.tries) ∧
    (∃ (d : Die) (c : Nat) (s : State), live s = true ∧ (barAt s d).upAt = some c ∧ barUp s d = true ∧
      ron s (Reg.BAR_STAT (dieNum d)) F.BAR_STAT_SEALED = false ∧ ticksReach (s.time.cnt - c) 1000000 = true) ∧
    (∃ (d : Die) (w : Word) (s : State), hostMay s ∧ diePresent s d = true ∧ fldGet F.BAR_CNT_CLR_GO w = 1) :=
  ⟨⟨.b, State.reset, .ul1, 1, by decide +kernel⟩,
    ⟨.b, State.reset, .twin1, 3, by decide +kernel⟩,
    ⟨.b, (setBar (put [(Reg.BAR_STAT 1, F.BAR_STAT_LINK, 0)]) .b
      { barAt State.reset .b with sync := [(1, (63, 0))] }), _, .ul1, F.BAR_STAT_UL1, 1, by decide +kernel,
      by decide +kernel, by decide +kernel, by decide +kernel, by decide +kernel, by decide +kernel,
      by decide +kernel, rfl⟩,
    ⟨.b, (setBar (put [(Reg.BAR_STAT 1, F.BAR_STAT_LINK, 2), (Reg.BAR_STAT 1, F.BAR_STAT_UL1,
      1)]) .b { barAt State.reset .b with sync := [(1, (63, 15))] }), _, .ul1, F.BAR_STAT_UL1, 1, 63,
      by decide +kernel, by decide +kernel, by decide +kernel, by decide +kernel, by decide +kernel,
      by decide +kernel, by decide +kernel, rfl⟩,
    ⟨.b, State.reset, .ul0, F.BAR_STAT_UL0, 0, by decide +kernel⟩,
    ⟨[], by decide +kernel⟩,
    ⟨.b, (setBar (put [(Reg.BAR_STAT 1, F.BAR_STAT_LINK, 2), (Reg.BAR_STAT 1, F.BAR_STAT_UL1,
      1)]) .b { barAt State.reset .b with blocks := 4 }), _, by decide +kernel, by decide +kernel, by decide +kernel,
      rfl⟩,
    ⟨State.reset, by decide +kernel⟩,
    ⟨.b, 65535, ⟨65535, 3, 4, 0, [], 0, 0, [], .other⟩,
      { setBar State.reset .b { barAt State.reset .b with waits := [⟨65535, 3, 4, 0, [], 0, 0, [], .other⟩] } with time := { timeReset with cnt := 393216000 } },
      by decide +kernel⟩,
    ⟨.b, 65535, ⟨65535, 3, 4, 0, [], 3, 0, [], .other⟩,
      { setBar State.reset .b { barAt State.reset .b with waits := [⟨65535, 3, 4, 0, [], 3, 0, [], .other⟩] } with time := { timeReset with cnt := 393216000 } },
      by decide +kernel⟩,
    ⟨.b, 0,
      { setBar (put [(Reg.BAR_STAT 1, F.BAR_STAT_LINK, 2), (Reg.BAR_STAT 1, F.BAR_STAT_UL1, 1)]) .b { barAt State.reset .b with upAt := some 0 } with time := { timeReset with cnt := 393216000 } },
      by decide +kernel⟩,
    ⟨.b, (fldPut F.BAR_CNT_CLR_GO 1 0), State.reset, by unfold hostMay; decide +kernel, by decide +kernel⟩⟩

/-- States and operands that meet the hypotheses of each clause of `UpstreamMessagesComplete`, in their order. -/
theorem witness_UpstreamMessagesComplete :
    (∃ (d : Die) (ws : List Nat) (s : State), heardUp s d ws btSense) ∧
    (∃ (d : Die) (ws : List Nat) (o : Option (Fin 16)) (s : State) (u : State), heardUp s d ws btStatus ∧
      u = afterUp s d ws ∧ msgArgA ws = 0 ∧ o = none) ∧
    (∃ (d : Die) (ws : List Nat) (o : Option (Fin 16)) (s : State) (u : State) (i : Fin 16),
      heardUp s d ws btStatus ∧ u = afterUp s d ws ∧ msgArgA ws = 0 ∧ o = some i) ∧
    (∃ (d : Die) (ws : List Nat) (s : State) (u : State), heardUp s d ws btStatus ∧ u = afterUp s d ws ∧
      msgArgA ws = 1) ∧
    (∃ (d : Die) (ws : List Nat) (s : State) (u : State), heardUp s d ws btStatus ∧ u = afterUp s d ws ∧
      2 ≤ msgArgA ws) ∧
    (∃ (d : Die) (ws : List Nat) (s : State) (u : State) (a : Nat), heardUp s d ws btFault ∧
      a = Reg.BAR_FAULT_LAST (dieNum d) ∧ u = rset (rput (rput (afterUp s d ws) a F.BAR_FAULT_LAST_INDEX (msgArgA
      ws)) a F.BAR_FAULT_LAST_CHANNEL (msgArgB ws)) a F.BAR_FAULT_LAST_VALID) ∧
    (∃ (d : Die) (ws : List Nat) (w : BarWait) (s : State) (u : State), heardUp s d ws btAck ∧ u = afterUp s d ws ∧
      (barAt u d).waits.find? (fun w => w.seq == msgArgA ws) = some w) ∧
    (∃ (d : Die) (ws : List Nat) (r : DiagRun) (q : DiagRun) (s : State) (u : State) (v : State),
      heardUp s d ws btDiag ∧ u = afterUp s d ws ∧ u.diags.find? (fun r => r.die == d && r.run == msgArgA ws && bitOf
      r.mask (msgArgB ws / 8)) = some r ∧ q =
      { r with parts := mapSet (fun _ => []) r.parts (16 * (msgArgB ws / 8) + msgArgB ws % 8) ws.tail } ∧
      v = { u with diags := u.diags.map (fun x => if x.ref = r.ref then q else x) }) :=
  ⟨⟨.b, (barMessage btSense 0 3 1 (List.replicate 9 0)), State.reset, by unfold heardUp; decide +kernel⟩,
    ⟨.b, (barMessage btStatus 0 0 1 [0, 0, 0]), _, State.reset, _, by unfold heardUp; decide +kernel, rfl,
      by decide +kernel, rfl⟩,
    ⟨.b, (barMessage btStatus 0 0 1 [0, 0, 0]), (some 15), State.reset, _, 15, by unfold heardUp; decide +kernel,
      rfl, by decide +kernel⟩,
    ⟨.b, (barMessage btStatus 1 0 1 [0, 0, 0]), State.reset, _, by unfold heardUp; decide +kernel, rfl,
      by decide +kernel⟩,
    ⟨.b, (barMessage btStatus 0x10F 0 1 (List.replicate 9 0)), State.reset, _, by unfold heardUp; decide +kernel,
      rfl, by decide +kernel⟩,
    ⟨.b, (barMessage btFault 63 255 1 [0, 0]), State.reset, _, _, by unfold heardUp; decide +kernel, rfl, rfl⟩,
    ⟨.b, (barMessage btAck 65535 0 1 []), ⟨65535, 3, 4, 0, [], 0, 0, [], .other⟩,
      (setBar State.reset .b { barAt State.reset .b with waits := [⟨65535, 3, 4, 0, [], 0, 0, [], .other⟩] }), _,
      by unfold heardUp; decide +kernel, rfl, by decide +kernel⟩,
    ⟨.b, (barMessage btDiag 7 248 1 [0, 0]), ⟨⟨0, 0⟩, .b, 2 ^ 31, 7, 0, [], 0⟩, _,
      { State.reset with diags := [⟨⟨0, 0⟩, .b, 2 ^ 31, 7, 0, [], 0⟩] }, _, _, by unfold heardUp; decide +kernel,
      rfl, by decide +kernel, rfl, rfl⟩⟩

/-- States and operands that meet the hypotheses of each clause of `FieldMessagesComplete`, in their order. -/
theorem witness_FieldMessagesComplete :
    (∃ (d : Die) (ws : List Nat) (s : State) (u : State), heardDown s d ws (isType btSamples) ∧
      u = takeSamples (afterDown s d ws) d false ws) ∧
    (∃ (d : Die) (ws : List Nat) (s : State) (u : State) (x : FieldDie), heardDown s d ws (isType btHeartbeat) ∧
      u = afterDown s d ws ∧ x =
      { dieAt u d with beats := ((msgW ws 0, bitsOf (msgW ws 1) 0 32) :: (dieAt u d).beats).take 3, beatNew := true, fs := min 2 (bitsOf (msgArgA ws) 1 2), blkCode := bitsOf (msgArgA ws) 3 2, missed := 0, tick := some ((msgW ws 0 - 1) * (4 * 2 ^ bitsOf (msgArgA ws) 3 2)) }) ∧
    (∃ (d : Die) (ws : List Nat) (s : State) (u : State) (x : State × Nat), heardDown s d ws (isType btSeal) ∧
      u = afterDown s d ws ∧ x = sealStep u d (msgArgA ws) (bitOf (msgArgB ws) 0) (BitVec.ofNat 32 (msgW ws 0))) ∧
    (∃ (d : Die) (ws : List Nat) (s : State) (u : State) (r : StagedRec) (o : List StagedRec),
      heardDown s d ws (isType btParam) ∧ u = afterDown s d ws ∧ r = ⟨msgArgB ws % 16, msgW ws 0,
      bitsOf (msgW ws 1) 0 32, bitsOf (msgW ws 1) 32 32, msgArgA ws, BitVec.ofNat 32 (bitsOf (msgW ws 2) 32 32),
      BitVec.ofNat 32 (bitsOf (msgW ws 2) 0 32), false⟩ ∧ o = (dieAt u d).staged.filter (fun x => !(x.id == r.id &&
      x.n == r.n && x.ord == r.ord)) ∧ judgeParam u d r o = akAccepted) ∧
    (∃ (d : Die) (ws : List Nat) (s : State) (u : State) (r : StagedRec) (o : List StagedRec),
      heardDown s d ws (isType btParam) ∧ u = afterDown s d ws ∧ r = ⟨msgArgB ws % 16, msgW ws 0,
      bitsOf (msgW ws 1) 0 32, bitsOf (msgW ws 1) 32 32, msgArgA ws, BitVec.ofNat 32 (bitsOf (msgW ws 2) 32 32),
      BitVec.ofNat 32 (bitsOf (msgW ws 2) 0 32), false⟩ ∧ o = (dieAt u d).staged.filter (fun x => !(x.id == r.id &&
      x.n == r.n && x.ord == r.ord)) ∧ judgeParam u d r o ≠ akAccepted) ∧
    (∃ (d : Die) (ws : List Nat) (s : State), heardDown s d ws (fun ws => msgType ws == btCmd && (cmdShape (msgArgA
      ws)).isNone)) ∧
    (∃ (d : Die) (ws : List Nat) (s : State) (u : State), heardTwin s d ws btTwinSamples ∧ u = afterTwin s d ws ∧
      twinEn u d = true ∧ isShadow u d = false) ∧
    (∃ (d : Die) (ws : List Nat) (s : State) (u : State) (v : State) (m : DigestMsg), heardTwin s d ws btTwinDigest ∧
      u = afterTwin s d ws ∧ m = ⟨msgW ws 0, msgArgB ws % 2, bitsOf (msgW ws 1) 0 32, bitsOf (msgW ws 1) 32 16,
      (List.range 16).map (fun i => bitsOf (msgW ws (2 + i / 2)) (32 * (i % 2)) 32)⟩ ∧
      v = setDie u d
      { dieAt u d with peerDig := m :: (dieAt u d).peerDig.filter (fun y => !(y.n == m.n && y.half == m.half)) }) ∧
    (∃ (d : Die) (ws : List Nat) (s : State) (u : State) (v : State), heardTwin s d ws btTwinStatus ∧
      u = afterTwin s d ws ∧ v = fbit (fbit (fbit (fbit u d Reg.FLD_TWIN_STAT F.FLD_TWIN_STAT_TWIN_UP true) d
      Reg.FLD_TWIN_STAT F.FLD_TWIN_STAT_P_ROLE (bitOf (msgArgA ws) 0)) d Reg.FLD_TWIN_STAT F.FLD_TWIN_STAT_P_SAFE
      (bitOf (msgArgA ws) 1)) d Reg.FLD_TWIN_STAT F.FLD_TWIN_STAT_P_EN (bitOf (msgArgA ws) 2)) ∧
    (∃ (d : Die) (s : State), dieHere s d = true) ∧
    (∃ (d : Die) (s : State), dieHere s d = true ∧ twinUp s d = true) :=
  ⟨⟨.b, (barMessage btSamples 0 1 1 (List.replicate 9 0)), State.reset, _, by unfold heardDown; decide +kernel, rfl⟩,
    ⟨.b, (barMessage btHeartbeat 31 0 1 [1, 1]), State.reset, _, _, by unfold heardDown; decide +kernel, rfl, rfl⟩,
    ⟨.b, (barMessage btSeal 0 1 1 [0]), State.reset, _, _, by unfold heardDown; decide +kernel, rfl, rfl⟩,
    ⟨.b, (barMessage btParam (Reg.PWM_CH_PHASE 31) 0 1 [5, 0, 0]), (setFldState State.reset .b fdSafe), _, _, _,
      by unfold heardDown; decide +kernel, rfl, rfl, rfl, by decide +kernel⟩,
    ⟨.b, (barMessage btParam 0xFFFF 0 1 [5, 0, 0]), State.reset, _, _, _, by unfold heardDown; decide +kernel, rfl,
      rfl, rfl, by decide +kernel⟩,
    ⟨.b, (barMessage btCmd 0x300 0 1 []), State.reset, by unfold heardDown; decide +kernel⟩,
    ⟨.b, (barMessage btTwinSamples 0 1 1 (List.replicate 9 0)),
      (fbit (fbit State.reset .b Reg.FLD_TWIN_CTRL F.FLD_TWIN_CTRL_EN true) .b Reg.FLD_TWIN_CTRL F.FLD_TWIN_CTRL_ROLE
      false), _, by unfold heardTwin; decide +kernel, rfl, by decide +kernel⟩,
    ⟨.b, (barMessage btTwinDigest 0 1 1 (List.replicate 10 0)), State.reset, _, _, _,
      by unfold heardTwin; decide +kernel, rfl, rfl, rfl⟩,
    ⟨.b, (barMessage btTwinStatus 15 0 1 [0]), State.reset, _, _, by unfold heardTwin; decide +kernel, rfl, rfl⟩,
    ⟨.b, State.reset, by decide +kernel⟩,
    ⟨.b, (fbit State.reset .b Reg.FLD_TWIN_STAT F.FLD_TWIN_STAT_TWIN_UP true), by decide +kernel⟩⟩

/-- States and operands that meet the hypotheses of each clause of `FieldCommandsComplete`, in their order. -/
theorem witness_FieldCommandsComplete :
    (∃ (d : Die) (m : CmdCopy) (s : State) (u : State), heardCmd s d m 1 ∧ u = afterDown s d m.words ∧
      msgArgB m.words ≤ 15) ∧
    (∃ (d : Die) (m : CmdCopy) (s : State) (u : State), heardCmd s d m 2 ∧ u = afterDown s d m.words ∧
      msgArgB m.words ≤ 15) ∧
    (∃ (d : Die) (m : CmdCopy) (s : State) (u : State), heardCmd s d m 3 ∧ u = afterDown s d m.words ∧
      (dieAt u d).carries.contains (msgW m.words 0) = false ∧ (dieAt u d).latched.contains (msgW m.words 0) = false) ∧
    (∃ (d : Die) (m : CmdCopy) (s : State) (u : State), heardCmd s d m 4 ∧ u = afterDown s d m.words ∧
      fldState u d = fdUnsealed) ∧
    (∃ (d : Die) (m : CmdCopy) (s : State) (u : State), heardCmd s d m 4 ∧ u = afterDown s d m.words ∧
      fldState u d ≠ fdUnsealed) ∧
    (∃ (d : Die) (m : CmdCopy) (s : State) (u : State) (v : State), heardCmd s d m 5 ∧ u = afterDown s d m.words ∧
      v = (if fldState u d = fdForced then leaveSafe (setFldState u d fdSafe) d else u)) ∧
    (∃ (d : Die) (m : CmdCopy) (s : State) (u : State) (a : Nat), heardCmd s d m 6 ∧ u = afterDown s d m.words ∧
      a = bitsOf (msgW m.words 0) 0 16 ∧ (fieldRow a).isSome = true) ∧
    (∃ (d : Die) (m : CmdCopy) (s : State) (u : State) (v : State) (a : Nat) (w : Word), heardCmd s d m 7 ∧
      u = afterDown s d m.words ∧ a = bitsOf (msgW m.words 0) 0 16 ∧
      w = BitVec.ofNat 32 (bitsOf (msgW m.words 0) 32 32) ∧ (limitsOf a).isEmpty = false ∧ (∀ l ∈ limitsOf a,
      pastTight l w = false ∧ looser l w (sealOf u d a) = false) ∧ fon u d Reg.FLD_STAT F.FLD_STAT_SEALED = true ∧
      v = setSeal u d a (copyLimits (limitsOf a) w (sealOf u d a))) ∧
    (∃ (d : Die) (m : CmdCopy) (s : State) (u : State) (l : List Nat), heardCmd s d m 0x100 ∧
      u = afterDown s d m.words ∧ l = (maskChans (msgW m.words 0)).filter (fun c => pwState u d c == pwTripped)) ∧
    (∃ (d : Die) (m : CmdCopy) (t : Nat) (a : Nat) (c : Nat) (duty : Bool) (s : State) (u : State) (w : Word) (row :
      RegRow) (x : FieldChan) (y : FieldChan) (per : Option Word) (dut : Option Word), heardCmd s d m 0x101 ∧
      u = afterDown s d m.words ∧ c = bitsOf (msgW m.words 0) 0 5 ∧ bitOf (msgW m.words 0) 5 = duty ∧
      a = (if duty = true then Reg.PWM_CH_RAW_DUTY c else Reg.PWM_CH_RAW_PER c) ∧ fieldRow a = some row ∧
      w = recWordOf row 0 (BitVec.allOnes 32) (BitVec.ofNat 32 (bitsOf (msgW m.words 0) 32 32)) ∧
      rangeOk u d a w = true ∧ (pwState u d c = pwRaw ∨ pwState u d c = pwDisabled) ∧ x = fch u d c ∧
      per = (if duty = true then x.pendPer else some w) ∧ dut = (if duty = true then some w else x.pendDuty) ∧
      (∃ p q, per = some p ∧ dut = some q ∧ fldGet F.PWM_CH_RAW_PER_GEN p = fldGet F.PWM_CH_RAW_DUTY_GEN q) ∧
      y =
      { x with pendPer := none, pendDuty := none, duePer := per, dueDuty := dut, dueLone := false, dueNext := decide (x.per ≤ t + 4) }) ∧
    (∃ (d : Die) (m : CmdCopy) (a : Nat) (c : Nat) (duty : Bool) (s : State) (u : State) (w : Word) (row :
      RegRow) (x : FieldChan) (y : FieldChan) (per : Option Word) (dut : Option Word), heardCmd s d m 0x101 ∧
      u = afterDown s d m.words ∧ c = bitsOf (msgW m.words 0) 0 5 ∧ bitOf (msgW m.words 0) 5 = duty ∧
      a = (if duty = true then Reg.PWM_CH_RAW_DUTY c else Reg.PWM_CH_RAW_PER c) ∧ fieldRow a = some row ∧
      w = recWordOf row 0 (BitVec.allOnes 32) (BitVec.ofNat 32 (bitsOf (msgW m.words 0) 32 32)) ∧
      rangeOk u d a w = true ∧ (pwState u d c = pwRaw ∨ pwState u d c = pwDisabled) ∧ x = fch u d c ∧
      per = (if duty = true then x.pendPer else some w) ∧ dut = (if duty = true then some w else x.pendDuty) ∧
      (∀ p q, per = some p → dut = some q → fldGet F.PWM_CH_RAW_PER_GEN p ≠ fldGet F.PWM_CH_RAW_DUTY_GEN q) ∧
      y = (if duty = true then { x with pendDuty := dut, ageDuty := 0 } else { x with pendPer := per, agePer := 0 })) ∧
    (∃ (d : Die) (m : CmdCopy) (s : State), heardCmd s d m 0x102) ∧
    (∃ (d : Die) (m : CmdCopy) (s : State) (u : State) (v : State) (w : State), heardCmd s d m 0x200 ∧
      u = afterDown s d m.words ∧ (maskChans (msgW m.words 0)).isEmpty = false ∧ (dieAt u d).sweep = none ∧
      (∀ c ∈ maskChans (msgW m.words 0), fon u d (Reg.PWM_CH_STAT c) F.PWM_CH_STAT_GATES_ON = true ∧
      (fcState u d c = fcOwn ∨ fcState u d c = fcTwin)) ∧ fon u d Reg.FLD_TWIN_CTRL F.FLD_TWIN_CTRL_ROLE = false ∧
      v = setDie u d { dieAt u d with sweep := some ⟨bitsOf (msgW m.words 0) 32 16, 0, 0, true, 0, 0, false⟩ } ∧
      w = forEach (maskChans (msgW m.words 0)) v (fun v c => setFch v d c
      { fch v d c with sweep := some ⟨0, [], demodZero, none, false⟩ })) ∧
    (∃ (d : Die) (m : CmdCopy) (s : State), heardCmd s d m 0x201) ∧
    (∃ (d : Die) (m : CmdCopy) (s : State) (u : State), heardCmd s d m 0x202 ∧ u = afterDown s d m.words ∧
      bitsOf (msgW m.words 0) 32 3 = 2 ∧ bitsOf (msgW m.words 0) 0 32 ≠ 0) ∧
    (∃ (d : Die) (m : CmdCopy) (s : State) (u : State), heardCmd s d m 0x202 ∧ u = afterDown s d m.words ∧
      bitsOf (msgW m.words 0) 32 3 = 4 ∧ bitsOf (msgW m.words 0) 0 32 ≠ 0) ∧
    (∃ (d : Die) (m : CmdCopy) (s : State) (u : State), heardCmd s d m 0x202 ∧ u = afterDown s d m.words ∧
      bitsOf (msgW m.words 0) 32 3 = 1 ∧ bitsOf (msgW m.words 0) 0 32 ≠ 0) ∧
    (∃ (d : Die) (m : CmdCopy) (s : State) (u : State) (c : Nat) (z : Nat), heardCmd s d m 0x203 ∧
      u = afterDown s d m.words ∧ maskChans (msgW m.words 0) = [c] ∧ (fch u d c).zpil = some z) ∧
    (∃ (d : Die) (m : CmdCopy) (t : Nat) (r : Nat) (s : State) (u : State) (x : Nat × Instr),
      u = afterDown s d m.words ∧ x ∈ [(1, Instr.cmdTallyCommit d m), (2, .tallyDiscard d m), (3, .cmdCarry d m), (4,
      .forceSafe d m), (5, .release d m), (7, .sealTighten d m), (0x100, .tripClear d m), (0x101, .rawWrite d ⟨m,
      t⟩), (0x102, .pwmCntClr d m), (0x200, .diagSweep d m), (0x201, .diagAbort d m), (0x202, .protClear d m),
      (0x203, .zrefCapture d m)] ∧ repeatOf u d m = some r ∧ heardDown s d m.words (isCmd x.1)) :=
  ⟨⟨.b, ⟨(barMessage btCmd 1 15 1 [5]), []⟩, State.reset, _, by unfold heardCmd heardDown; decide +kernel, rfl,
    by decide +kernel⟩,
    ⟨.b, ⟨(barMessage btCmd 2 15 1 [5]), []⟩, State.reset, _, by unfold heardCmd heardDown; decide +kernel, rfl,
      by decide +kernel⟩,
    ⟨.b, ⟨(barMessage btCmd 3 0 1 [5]), []⟩, State.reset, _, by unfold heardCmd heardDown; decide +kernel, rfl,
      by decide +kernel⟩,
    ⟨.b, ⟨(barMessage btCmd 4 0 1 []), []⟩, State.reset, _, by unfold heardCmd heardDown; decide +kernel, rfl,
      by decide +kernel⟩,
    ⟨.b, ⟨(barMessage btCmd 4 0 1 []), []⟩, (setFldState State.reset .b fdSafe), _,
      by unfold heardCmd heardDown; decide +kernel, rfl, by decide +kernel⟩,
    ⟨.b, ⟨(barMessage btCmd 5 0 1 []), []⟩, State.reset, _, _, by unfold heardCmd heardDown; decide +kernel, rfl, rfl⟩,
    ⟨.b, ⟨(barMessage btCmd 6 0 1 [Reg.FLD_STAT]), []⟩, State.reset, _, _,
      by unfold heardCmd heardDown; decide +kernel, rfl, rfl, by decide +kernel⟩,
    ⟨.b, ⟨(barMessage btCmd 7 0 1 [Reg.PRT_CH_VOUT 31 + 100 * 2 ^ 48]), []⟩,
      (fbit (setDie State.reset .b { dieAt State.reset .b with seals := [(Reg.PRT_CH_VOUT 31, 200 * 2 ^ 16)] }) .b
      Reg.FLD_STAT F.FLD_STAT_SEALED true), _, _, _, _, by unfold heardCmd heardDown; decide +kernel, rfl, rfl, rfl,
      by decide +kernel, by decide +kernel, by decide +kernel, rfl⟩,
    ⟨.b, ⟨(barMessage btCmd 0x100 0 1 [2 ^ 31]), []⟩, (setPwState State.reset .b 31 pwTripped), _, _,
      by unfold heardCmd heardDown; decide +kernel, rfl, rfl⟩,
    ⟨.b, ⟨(barMessage btCmd 0x101 0 1 [31 + 1000 * 2 ^ 32]), []⟩, 0, _, _, false,
      (setPwState (setFch State.reset .b 31 { fch State.reset .b 31 with pendDuty := some 0 }) .b 31 pwRaw), _, _,
      ((fieldRow (Reg.PWM_CH_RAW_PER 31)).get (by decide +kernel)), _, _, _, _,
      by unfold heardCmd heardDown; decide +kernel, rfl, rfl, by decide +kernel, rfl, by decide +kernel, rfl,
      by decide +kernel, by decide +kernel, rfl, rfl, rfl, ⟨1000, 0, by decide +kernel, by decide +kernel,
      by decide +kernel⟩, rfl⟩,
    ⟨.b, ⟨(barMessage btCmd 0x101 0 1 [31 + 1000 * 2 ^ 32]), []⟩, _, _, false, (setPwState State.reset .b 31 pwRaw),
      _, _, ((fieldRow (Reg.PWM_CH_RAW_PER 31)).get (by decide +kernel)), _, _, _, _,
      by unfold heardCmd heardDown; decide +kernel, rfl, rfl, by decide +kernel, rfl, by decide +kernel, rfl,
      by decide +kernel, by decide +kernel, rfl, rfl, rfl, fun _ q _ h => absurd (h.symm.trans (by decide +kernel :
      _ = none)) (Option.some_ne_none q), rfl⟩,
    ⟨.b, ⟨(barMessage btCmd 0x102 0 1 [2 ^ 31]), []⟩, State.reset, by unfold heardCmd heardDown; decide +kernel⟩,
    ⟨.b, ⟨(barMessage btCmd 0x200 0 1 [2 ^ 31 + 7 * 2 ^ 32]), []⟩,
      (fbit (fbit (setFcState State.reset .b 31 fcOwn) .b (Reg.PWM_CH_STAT 31) F.PWM_CH_STAT_GATES_ON true) .b
      Reg.FLD_TWIN_CTRL F.FLD_TWIN_CTRL_ROLE false), _, _, _, by unfold heardCmd heardDown; decide +kernel, rfl,
      by decide +kernel, by decide +kernel, by decide +kernel, by decide +kernel, rfl, rfl⟩,
    ⟨.b, ⟨(barMessage btCmd 0x201 0 1 []), []⟩, State.reset, by unfold heardCmd heardDown; decide +kernel⟩,
    ⟨.b, ⟨(barMessage btCmd 0x202 0 1 [2 ^ 31 + 2 * 2 ^ 32]), []⟩, State.reset, _,
      by unfold heardCmd heardDown; decide +kernel, rfl, by decide +kernel⟩,
    ⟨.b, ⟨(barMessage btCmd 0x202 0 1 [2 ^ 31 + 4 * 2 ^ 32]), []⟩, State.reset, _,
      by unfold heardCmd heardDown; decide +kernel, rfl, by decide +kernel⟩,
    ⟨.b, ⟨(barMessage btCmd 0x202 0 1 [2 ^ 31 + 2 ^ 32]), []⟩, State.reset, _,
      by unfold heardCmd heardDown; decide +kernel, rfl, by decide +kernel⟩,
    ⟨.b, ⟨(barMessage btCmd 0x203 0 1 [2 ^ 31]), []⟩, (setFch State.reset .b 31
      { fch State.reset .b 31 with zpil := some 5 }), _, 31, 5, by unfold heardCmd heardDown; decide +kernel, rfl,
      by decide +kernel⟩,
    ⟨.b, ⟨(barMessage btCmd 0x203 0 2 [0]), [1]⟩, 0, 1, (setDie State.reset .b
      { dieAt State.reset .b with did := [(1, 1)] }), _, (0x203, .zrefCapture .b ⟨(barMessage btCmd 0x203 0 2 [0]),
      [1]⟩), rfl, by decide +kernel, by decide +kernel, by unfold heardDown; decide +kernel⟩⟩

/-- States and operands that meet the hypotheses of each clause of `FieldSafetyComplete`, in their order. -/
theorem witness_FieldSafetyComplete :
    (∃ (d : Die) (k : Nat) (s : State), dieHere s d = true ∧ (dieAt s d).tick = some k ∧ (dieAt s d).clkBad = false) ∧
    (∃ (d : Die) (s : State) (u : State) (v : State), dieHere s d = true ∧
      u = setDie s d { dieAt s d with clkBad := true } ∧ v = setDie s d { dieAt s d with rodBad := true }) ∧
    (∃ (d : Die) (r : Fin 4) (s : State), dieHere s d = true ∧ fget s d Reg.FLD_STAT F.FLD_STAT_PLL_REF ≠ r.val ∧
      r.val = (if (dieAt s d).clkBad = true then 3 else pllChoice s d)) ∧
    (∃ (d : Die) (r : Fin 3) (s : State) (u : State), dieHere s d = true ∧ (dieAt s d).clkBad = true ∧
      r.val = pllChoice s d ∧ u = setDie s d { dieAt s d with clkBad := false }) ∧
    (∃ (d : Die) (s : State) (u : State), dieHere s d = true ∧ (dieAt s d).rodBad = true ∧
      u = setDie s d { dieAt s d with rodBad := false }) ∧
    (∃ (d : Die) (s : State), dieHere s d = true) ∧
    (∃ (d : Die) (s : State), diePresent s d = true ∧ (dieAt s d).on = false ∧ (dieAt s d).uv = false) ∧
    (∃ (d : Die) (s : State), diePresent s d = true ∧ (dieAt s d).on = false ∧ (dieAt s d).uv = true) ∧
    (∃ (d : Die) (c : Fin 32) (s : State), dieHere s d = true ∧ lossActs s d c = true ∧ fcState s d c = fcHold ∧
      dieBlk s d ≤ (fch s d c).held) ∧
    (∃ (d : Die) (c : Fin 32) (s : State), dieHere s d = true ∧ lossActs s d c = true ∧ fcState s d c = fcFade ∧
      (fch s d c).pos ≤ 1) ∧
    (∃ (d : Die) (c : Fin 32) (s : State), dieHere s d = true ∧ lossActs s d c = true ∧ fcState s d c = fcIdle ∧
      idleTicks s d ≤ (fch s d c).idle) ∧
    (∃ (d : Die) (c : Fin 32) (s : State) (u : State), dieHere s d = true ∧ lossActs s d c = true ∧
      (fcState s d c = fcLossSafe ∨ fcState s d c = fcOff) ∧ dieBlk s d ≤ (fch s d c).good ∧
      (fon s d Reg.FLD_LOSS F.FLD_LOSS_AUTO_REARM = true ∨ (fch s d c).armed = true) ∧ eventSafe s d = false ∧
      u = setFch s d c { fch s d c with pos := rampStart, armed := false, good := 0 }) ∧
    (∃ (d : Die) (s : State) (u : State), dieHere s d = true ∧ 3 ≤ (dieAt s d).missed ∧
      fon s d Reg.FLD_STAT F.FLD_STAT_HOST_LOST = false ∧ u = fldRaise (fbit s d Reg.FLD_STAT F.FLD_STAT_HOST_LOST
      true) d 0x0F 0xFF 0) :=
  ⟨⟨.b, 0, (setDie State.reset .b { dieAt State.reset .b with tick := some 0 }), by decide +kernel⟩,
    ⟨.b, State.reset, _, _, by decide +kernel, rfl, rfl⟩,
    ⟨.b, 3, (fput (setDie State.reset .b { dieAt State.reset .b with clkBad := true }) .b Reg.FLD_STAT
      F.FLD_STAT_PLL_REF 0), by decide +kernel⟩,
    ⟨.b, 2, (setDie State.reset .b { dieAt State.reset .b with clkBad := true }), _, by decide +kernel,
      by decide +kernel, by decide +kernel, rfl⟩,
    ⟨.b, (setDie State.reset .b { dieAt State.reset .b with rodBad := true }), _, by decide +kernel,
      by decide +kernel, rfl⟩,
    ⟨.b, State.reset, by decide +kernel⟩,
    ⟨.b, (setDie State.reset .b { dieAt State.reset .b with on := false }), by decide +kernel⟩,
    ⟨.b, (setDie State.reset .b { dieAt State.reset .b with on := false, uv := true }), by decide +kernel⟩,
    ⟨.b, 31, (setFcState (setFch State.reset .b 31 { fch State.reset .b 31 with held := 128 }) .b 31 fcHold),
      by decide +kernel⟩,
    ⟨.b, 31, (setFcState (setFch State.reset .b 31 { fch State.reset .b 31 with pos := 1 }) .b 31 fcFade),
      by decide +kernel⟩,
    ⟨.b, 31, (setFcState (setFch State.reset .b 31 { fch State.reset .b 31 with idle := 1000000 }) .b 31 fcIdle),
      by decide +kernel⟩,
    ⟨.b, 31, (setFch State.reset .b 31 { fch State.reset .b 31 with good := 128, armed := true }), _,
      by decide +kernel, by decide +kernel, by decide +kernel, by decide +kernel, by decide +kernel,
      by decide +kernel, rfl⟩,
    ⟨.b, (setDie State.reset .b { dieAt State.reset .b with missed := 3 }), _, by decide +kernel, by decide +kernel,
      by decide +kernel, rfl⟩⟩

/-- States and operands that meet the hypotheses of each clause of `ModulatorsComplete`, in their order. -/
theorem witness_ModulatorsComplete :
    (∃ (d : Die) (s : State), dieHere s d = true) ∧
    (∃ (d : Die) (c : Fin 32) (t : Nat) (b : Bool) (s : State) (u : State), dieHere s d = true ∧
      (pwState s d c = pwRunning ∨ pwState s d c = pwRaw) ∧ (fon s d (Reg.PWM_CH_STAT c) F.PWM_CH_STAT_GATES_ON =
      true ∨ b = true ∧ (fch s d c).safeOff = true) ∧ tripIn s d c = true ∧ blanked (fch s d c) t = false ∧
      u = fadd s d (Reg.PWM_CH_CNT c) F.PWM_CH_CNT_TRIPS 1 ∧ fldGet F.PWM_CH_CTRL_TRIP_LATCH (fch s d c).ctrl = 1) ∧
    (∃ (d : Die) (c : Fin 32) (t : Nat) (b : Bool) (s : State) (u : State) (v : State) (x : FieldChan),
      dieHere s d = true ∧ (pwState s d c = pwRunning ∨ pwState s d c = pwRaw) ∧
      (fon s d (Reg.PWM_CH_STAT c) F.PWM_CH_STAT_GATES_ON = true ∨ b = true ∧ (fch s d c).safeOff = true) ∧
      tripIn s d c = true ∧ blanked (fch s d c) t = false ∧ u = fadd s d (Reg.PWM_CH_CNT c) F.PWM_CH_CNT_TRIPS 1 ∧
      fldGet F.PWM_CH_CTRL_TRIP_LATCH (fch s d c).ctrl ≠ 1 ∧
      x = { fch s d c with soft := (fch s d c).soft + 1, tripAt := some t } ∧ v = cutGatesAt (setFch u d c x) d c t) ∧
    (∃ (d : Die) (c : Fin 32) (t : Nat) (s : State), dieHere s d = true ∧
      fldGet F.PWM_CH_CTRL_READBACK_EN (fch s d c).ctrl ≠ 0 ∧ pwState s d c = pwTripped ∧ (fch s d c).tripAt = some t) ∧
    (∃ (d : Die) (c : Fin 32) (s : State), dieHere s d = true ∧
      fldGet F.PWM_CH_CTRL_READBACK_EN (fch s d c).ctrl ≠ 0 ∧ (pwState s d c = pwRunning ∨ pwState s d c = pwRaw)) ∧
    (∃ (d : Die) (c : Fin 32) (b : Bool) (s : State) (u : State), dieHere s d = true ∧
      u = fbit s d (Reg.PWM_CH_STAT c) F.PWM_CH_STAT_TRIP_IN b ∧ (b = false ∨ pwState u d c ≠ pwRearming)) ∧
    (∃ (d : Die) (c : Fin 32) (b : Bool) (s : State) (u : State), dieHere s d = true ∧
      u = fbit s d (Reg.PWM_CH_STAT c) F.PWM_CH_STAT_TRIP_IN b ∧ b = true ∧ pwState u d c = pwRearming) ∧
    (∃ (d : Die) (c : Fin 32) (s : State), dieHere s d = true ∧ pwState s d c = pwRearming ∧ tripIn s d c = false ∧
      fon s d (Reg.PWM_CH_CTRL c) F.PWM_CH_CTRL_EN = false) ∧
    (∃ (d : Die) (c : Fin 32) (s : State), dieHere s d = true ∧ pwState s d c = pwRearming ∧ tripIn s d c = false ∧
      fon s d (Reg.PWM_CH_CTRL c) F.PWM_CH_CTRL_EN = true ∧ fon s d (Reg.PWM_CH_CTRL c) F.PWM_CH_CTRL_RAW = true) ∧
    (∃ (d : Die) (c : Fin 32) (s : State), dieHere s d = true ∧ pwState s d c = pwRearming ∧ tripIn s d c = false ∧
      fon s d (Reg.PWM_CH_CTRL c) F.PWM_CH_CTRL_EN = true ∧ fon s d (Reg.PWM_CH_CTRL c) F.PWM_CH_CTRL_RAW = false) ∧
    (∃ (d : Die) (c : Fin 32) (duty : Bool) (s : State) (u : State) (x : FieldChan) (y : FieldChan),
      dieHere s d = true ∧ x = fch s d c ∧ rawAlone x duty = true ∧
      (duty = true → y = { x with dueDuty := x.pendDuty, pendDuty := none, dueLone := true }) ∧
      (duty = false → y = { x with duePer := x.pendPer, pendPer := none, dueLone := true }) ∧
      u = fbit (setFch s d c y) d (Reg.PWM_CH_STAT c) F.PWM_CH_STAT_PAIR_SPLIT true) ∧
    (∃ (d : Die) (c : Fin 32) (bits : Nat) (s : State), dieHere s d = true ∧ (fch s d c).driven = true ∧
      fget s d (Reg.PRT_CH_OC c) F.PRT_CH_OC_OC_THR * 2 ^ 15 ≤ (fastPath bits).natAbs * fget s d Reg.PRT_SCALE
      F.PRT_SCALE_IS_FS) :=
  ⟨⟨.b, State.reset, by decide +kernel⟩,
    ⟨.b, 31, 5, false, (fbit (fbit (setPwState (setFch State.reset .b 31
      { fch State.reset .b 31 with ctrl := fldPut F.PWM_CH_CTRL_TRIP_LATCH 1 0 }) .b 31 pwRunning) .b
      (Reg.PWM_CH_STAT 31) F.PWM_CH_STAT_GATES_ON true) .b (Reg.PWM_CH_STAT 31) F.PWM_CH_STAT_TRIP_IN true), _,
      by decide +kernel, by decide +kernel, by decide +kernel, by decide +kernel, by decide +kernel, rfl,
      by decide +kernel⟩,
    ⟨.b, 31, 5, false, (fbit (fbit (setPwState (setFch State.reset .b 31 { fch State.reset .b 31 with ctrl := 0 }) .b
      31 pwRunning) .b (Reg.PWM_CH_STAT 31) F.PWM_CH_STAT_GATES_ON true) .b (Reg.PWM_CH_STAT 31)
      F.PWM_CH_STAT_TRIP_IN true), _, _, _, by decide +kernel, by decide +kernel, by decide +kernel,
      by decide +kernel, by decide +kernel, rfl, by decide +kernel, rfl, rfl⟩,
    ⟨.b, 31, 5, (setPwState (setFch State.reset .b 31
      { fch State.reset .b 31 with ctrl := fldPut F.PWM_CH_CTRL_READBACK_EN 1 0, tripAt := some 5 }) .b 31
      pwTripped), by decide +kernel⟩,
    ⟨.b, 31, (setPwState (setFch State.reset .b 31
      { fch State.reset .b 31 with ctrl := fldPut F.PWM_CH_CTRL_READBACK_EN 1 0 }) .b 31 pwRunning),
      by decide +kernel⟩,
    ⟨.b, 31, false, State.reset, _, by decide +kernel, rfl, by decide +kernel⟩,
    ⟨.b, 31, _, (setPwState State.reset .b 31 pwRearming), _, by decide +kernel, rfl, rfl, by decide +kernel⟩,
    ⟨.b, 31, (fbit (fbit (setPwState State.reset .b 31 pwRearming) .b (Reg.PWM_CH_CTRL 31) F.PWM_CH_CTRL_EN false) .b
      (Reg.PWM_CH_CTRL 31) F.PWM_CH_CTRL_RAW false), by decide +kernel⟩,
    ⟨.b, 31, (fbit (fbit (setPwState State.reset .b 31 pwRearming) .b (Reg.PWM_CH_CTRL 31) F.PWM_CH_CTRL_EN true) .b
      (Reg.PWM_CH_CTRL 31) F.PWM_CH_CTRL_RAW true), by decide +kernel⟩,
    ⟨.b, 31, (fbit (fbit (setPwState State.reset .b 31 pwRearming) .b (Reg.PWM_CH_CTRL 31) F.PWM_CH_CTRL_EN true) .b
      (Reg.PWM_CH_CTRL 31) F.PWM_CH_CTRL_RAW false), by decide +kernel⟩,
    ⟨.b, 31, true, (setFch State.reset .b 31 { fch State.reset .b 31 with pendDuty := some 0, ageDuty := 2 }), _, _,
      { fch (setFch State.reset .b 31 { fch State.reset .b 31 with pendDuty := some 0, ageDuty := 2 }) .b 31 with dueDuty := some 0, pendDuty := none, dueLone := true },
      by decide +kernel, rfl, by decide +kernel, fun _ => by decide +kernel, fun h => Bool.noConfusion h, rfl⟩,
    ⟨.b, 31, 0, (setFch State.reset .b 31 { fch State.reset .b 31 with driven := true }), by decide +kernel⟩⟩

/-- States and operands that meet the hypotheses of each clause of `LegsNeverOverlap`, in their order. -/
theorem witness_LegsNeverOverlap :
    (∃ (ball : Nat) (rise : Nat) (fall : Nat) (n : Nat) (l : Leg) (m : Leg) (chs : List (Nat × Bool)) (es :
      List (Nat × Nat × Bool)), (l.hi = true → l.cmd = some true ∧ l.due = none) ∧
      (l.lo = true → l.cmd = some false ∧ l.due = none) ∧ (l.cmd = none → l.due = none) ∧
      legPeriod ball rise fall n l chs = (m, es)) ∧
    (∃ (ball : Nat) (rise : Nat) (fall : Nat) (n : Nat) (l : Leg) (m : Leg) (chs : List (Nat × Bool)) (es :
      List (Nat × Nat × Bool)), (l.hi = true → l.cmd = some true ∧ l.due = none) ∧
      (l.lo = true → l.cmd = some false ∧ l.due = none) ∧ (l.cmd = none → l.due = none) ∧
      legPeriod ball rise fall n l chs = (m, es) ∧ m.hi = true) ∧
    (∃ (ball : Nat) (rise : Nat) (fall : Nat) (n : Nat) (l : Leg) (m : Leg) (chs : List (Nat × Bool)) (es :
      List (Nat × Nat × Bool)), (l.hi = true → l.cmd = some true ∧ l.due = none) ∧
      (l.lo = true → l.cmd = some false ∧ l.due = none) ∧ (l.cmd = none → l.due = none) ∧
      legPeriod ball rise fall n l chs = (m, es) ∧ m.lo = true) ∧
    (∃ (ball : Nat) (rise : Nat) (fall : Nat) (n : Nat) (l : Leg) (m : Leg) (chs : List (Nat × Bool)) (es :
      List (Nat × Nat × Bool)), (l.hi = true → l.cmd = some true ∧ l.due = none) ∧
      (l.lo = true → l.cmd = some false ∧ l.due = none) ∧ (l.cmd = none → l.due = none) ∧
      legPeriod ball rise fall n l chs = (m, es) ∧ m.cmd = none) :=
  ⟨⟨0, 1, 1, 4, ⟨none, false, false, none⟩, _, [], _, by decide +kernel, by decide +kernel, by decide +kernel, rfl⟩,
    ⟨0, 1, 1, 4, ⟨some true, true, false, none⟩, _, [], _, by decide +kernel, by decide +kernel, by decide +kernel,
      rfl, by decide +kernel⟩,
    ⟨0, 1, 1, 4, ⟨some false, false, true, none⟩, _, [], _, by decide +kernel, by decide +kernel, by decide +kernel,
      rfl, by decide +kernel⟩,
    ⟨0, 1, 1, 4, ⟨none, false, false, none⟩, _, [], _, by decide +kernel, by decide +kernel, by decide +kernel, rfl,
      by decide +kernel⟩⟩

/-- States and operands that meet the hypotheses of each clause of `RequantizerErrorBounded`, in their order. -/
theorem witness_RequantizerErrorBounded :
    (∃ (dither : Bool) (j : Nat) (err : List Int) (v : Int) (u : Int) (next : List Int),
      requantStep dither j err v = (u, next)) ∧
    (∃ (j : Nat) (err : List Int) (v : Int) (u : Int) (next : List Int), requantStep false j err v = (u, next)) :=
  ⟨⟨true, 0, [], 0x40000, _, _, rfl⟩,
    ⟨0, [], 0x40000, _, _, rfl⟩⟩

/-- States and operands that meet the hypotheses of each clause of `ProtectionComplete`, in their order. -/
theorem witness_ProtectionComplete :
    (∃ (d : Die) (c : Fin 32) (t : Nat) (s : State), dieHere s d = true ∧ (fch s d c).checkAt = some t ∧
      t ≤ (dieAt s d).ticks) ∧
    (∃ (d : Die) (c : Fin 32) (s : State), dieHere s d = true ∧
      ((fch s d c).dueHost = true ∨ (fch s d c).dueAuto = true ∧
      fon s d (Reg.PRT_CH_CTRL c) F.PRT_CH_CTRL_AUTO_RETRY = true) ∧ (fch s d c).check = none ∧
      gateOthers s d c = true ∧ latchBits s d c = 4) ∧
    (∃ (d : Die) (c : Fin 32) (q : CheckRun) (s : State), dieHere s d = true ∧ (fch s d c).check = some q ∧
      dieFs s d / 100 ≤ q.ticks) ∧
    (∃ (d : Die) (c : Fin 32) (s : State), dieHere s d = true ∧ dcOutDue s d c = true) ∧
    (∃ (d : Die) (c : Fin 32) (s : State), dieHere s d = true ∧ dcStreamDue s d c = true) ∧
    (∃ (d : Die) (ones : List Nat) (s : State) (u : State), dieHere s d = true ∧ (dieAt s d).thermalDue = true ∧
      u = setDie s d { dieAt s d with ts := (List.range 4).map (fun m => tsValue s d (ones.getD m 0)) }) ∧
    (∃ (d : Die) (s : State), dieHere s d = true ∧ (dieAt s d).trimDue = true) ∧
    (∃ (d : Die) (s : State), dieHere s d = true ∧ (dieAt s d).pilotDue = true) ∧
    (∃ (d : Die) (s : State) (r : DieSweep), dieHere s d = true ∧ (dieAt s d).sweep = some r ∧ r.due = true) ∧
    (∃ (d : Die) (c : Fin 32) (s : State), dieHere s d = true ∧
      fon s d (Reg.PRT_CH_STAT c) F.PRT_CH_STAT_VS_BAD = false) ∧
    (∃ (d : Die) (c : Fin 32) (s : State), dieHere s d = true ∧
      fon s d (Reg.PRT_CH_STAT c) F.PRT_CH_STAT_IS_BAD = false) ∧
    (∃ (d : Die) (s : State) (x : SenseStream) (f : Fld), dieHere s d = true ∧ (x, f) ∈ [(SenseStream.railP,
      F.PRT_SENSE_BAD_RAILP), (SenseStream.railN, F.PRT_SENSE_BAD_RAILN)]) ∧
    (∃ (d : Die) (s : State), dieHere s d = true) ∧
    (∃ (d : Die) (s : State), dieHere s d = true) ∧
    (∃ (d : Die) (s : State) (x : SenseStream) (f : Fld) (g : Fld), dieHere s d = true ∧ (x, f,
      g) ∈ [(SenseStream.railP, F.PRT_SENSE_BAD_RAILP, F.PRT_SENSE_BAD_RAILN), (SenseStream.railN,
      F.PRT_SENSE_BAD_RAILN, F.PRT_SENSE_BAD_RAILP)]) :=
  ⟨⟨.b, 31, 0, (setFch State.reset .b 31 { fch State.reset .b 31 with checkAt := some 0 }), by decide +kernel⟩,
    ⟨.b, 31, (fbit (setPwState (setFldState (setFch State.reset .b 31 { fch State.reset .b 31 with dueHost := true })
      .b fdActive) .b 31 pwRaw) .b (Reg.PRT_CH_STAT 31) ⟨2, 1⟩ true), by decide +kernel⟩,
    ⟨.b, 31, ⟨1920, false, demodZero⟩, (setFch State.reset .b 31
      { fch State.reset .b 31 with check := some ⟨1920, false, demodZero⟩ }), by decide +kernel⟩,
    ⟨.b, 31, (setFch State.reset .b 31 { fch State.reset .b 31 with dcOutRun := 10000000 }), by decide +kernel⟩,
    ⟨.b, 31, (setFch State.reset .b 31 { fch State.reset .b 31 with dcStrRun := 10000000 }), by decide +kernel⟩,
    ⟨.b, [], (setDie State.reset .b { dieAt State.reset .b with thermalDue := true }), _, by decide +kernel,
      by decide +kernel, rfl⟩,
    ⟨.b, (setDie State.reset .b { dieAt State.reset .b with trimDue := true }), by decide +kernel⟩,
    ⟨.b, (setDie State.reset .b { dieAt State.reset .b with pilotDue := true }), by decide +kernel⟩,
    ⟨.b, (setDie State.reset .b { dieAt State.reset .b with sweep := some ⟨7, 0, 0, false, 0, 0, true⟩ }), ⟨7, 0, 0,
      false, 0, 0, true⟩, by decide +kernel⟩,
    ⟨.b, 31, State.reset, by decide +kernel⟩,
    ⟨.b, 31, State.reset, by decide +kernel⟩,
    ⟨.b, State.reset, .railN, F.PRT_SENSE_BAD_RAILN, by decide +kernel⟩,
    ⟨.b, State.reset, by decide +kernel⟩,
    ⟨.b, State.reset, by decide +kernel⟩,
    ⟨.b, State.reset, .railN, F.PRT_SENSE_BAD_RAILN, F.PRT_SENSE_BAD_RAILP, by decide +kernel⟩⟩

/-- States and operands that meet the hypotheses of each clause of `FenceWaits`, in their order. -/
theorem witness_FenceWaits :
    (∃ (d : DescRef) (s : State), (∃ f ∈ (qpAt s d.qp).flights.takeWhile (fun f => f.slot != d.slot.val),
      f.result = none)) ∧
    (∃ (d : DescRef) (s : State), (∃ f ∈ (qpAt s d.qp).flights.takeWhile (fun f => f.slot != d.slot.val),
      opcodeOf f = 0x02 ∧ f.result = none)) ∧
    (∃ (d : DescRef) (s : State), (∃ f ∈ (qpAt s d.qp).flights.takeWhile (fun f => f.slot != d.slot.val),
      opcodeOf f = 0x02 ∧ f.result = none)) ∧
    (∃ (d : DescRef) (bs : List Byte) (s : State), ready s d 0x02 bs) :=
  ⟨⟨⟨0, 1⟩,
    { State.reset with qps := [(0, { qpReset 0 with flights := [⟨0, descOf 0x02, true, none⟩, ⟨1, descOf 0x02, false, none⟩], due := [0] })] },
    ⟨⟨0, descOf 0x02, true, none⟩, by decide +kernel, by decide +kernel⟩⟩,
    ⟨⟨0, 1⟩,
      { State.reset with qps := [(0, { qpReset 0 with flights := [⟨0, descOf 0x02, true, none⟩, ⟨1, descOf 0x02, false, none⟩], due := [0] })] },
      ⟨⟨0, descOf 0x02, true, none⟩, by decide +kernel, by decide +kernel, by decide +kernel⟩⟩,
    ⟨⟨0, 1⟩,
      { State.reset with qps := [(0, { qpReset 0 with flights := [⟨0, descOf 0x02, true, none⟩, ⟨1, descOf 0x02, false, none⟩], due := [0] })] },
      ⟨⟨0, descOf 0x02, true, none⟩, by decide +kernel, by decide +kernel, by decide +kernel⟩⟩,
    ⟨⟨0, 0⟩, (descOf (0x02)), (posted (0x02)), by unfold ready; decide +kernel⟩⟩

/-- States and operands that meet the hypotheses of each clause of `RingsComplete`, in their order. -/
theorem witness_RingsComplete :
    (∃ (w : Word) (s : State), hostMay s ∧ fldGet F.HIF_KICK_GO w = 1 ∧ anyQueue s = true ∧
      ron s Reg.HIF_STAT F.HIF_STAT_BME = true) ∧
    (∃ (s : State) (u : State), live s = true ∧ s.doorbell = true ∧ mayDma s = true ∧ anyQueue s = true ∧
      u = { s with doorbell := false, pageBad := false, turns := { s.turns with reads := s.turns.reads + 1 } }) ∧
    (∃ (d : DescRef) (m : Nat) (r : Nat) (x : Nat) (s : State), m < 64 ∧ (qpAt s d.qp).due.head? = some x ∧
      (qpAt s m).due.head? = some r ∧ (r < x ∨ r = x ∧ m ∈ turnsBefore (if s.turns.read = x then s.turns.next else 0)
      d.qp ∧ canTurn s m = true)) ∧
    (∃ (q : Fin 64) (bs : List Byte) (s : State), live s = true ∧ mayFetch s q = true ∧ bs.length = 64) ∧
    (∃ (q : Fin 64) (bs : List Byte) (s : State), live s = true ∧ mayFetch s q = true ∧ bs.length = 64 ∧
      qpStateOf s q ≠ 4) ∧
    (∃ (q : Fin 64) (f : Flight) (rest : List Flight) (r : Nat × Nat) (s : State) (u : State) (x : QpState),
      live s = true ∧ (qpAt s q).flights = f :: rest ∧ f.result = some r ∧ mayDma s = true ∧
      (qpAt s q).unread < cqDepth s q ∧ u = putEntry s (entryAddr s q (qpAt s q).cq) (entryBytes f r.1 r.2 (qpAt s
      q).phase) ∧ ((qpAt s q).cq + 1 ≠ cqDepth u q → x =
      { qpAt s q with flights := rest, cq := (qpAt s q).cq + 1, unread := (qpAt s q).unread + 1 }) ∧
      ((qpAt s q).cq + 1 = cqDepth u q → x =
      { qpAt s q with flights := rest, cq := 0, phase := !(qpAt s q).phase, unread := (qpAt s q).unread + 1 })) ∧
    (∃ (q : Fin 64) (s : State), live s = true ∧ qpIrqEn s q = true ∧
      rget s (Reg.HIF_QP_CFG q) F.HIF_QP_CFG_MOD_TIME ≠ 0 ∧ (qpAt s q).unsignalled ≠ 0 ∧
      10 * rget s (Reg.HIF_QP_CFG q) F.HIF_QP_CFG_MOD_TIME * 393216 ≤ (s.time.cnt - (qpAt s q).oldest) * 1000) ∧
    (∃ (q : Fin 64) (w : Word) (s : State) (u : State), hostMay s ∧ qpStateOf s q = 0 ∧
      fldGet F.HIF_QP_CTRL_EN w = 1 ∧ fldGet F.HIF_QP_CTRL_RECOVER w = 0 ∧
      u = rclr s (Reg.HIF_QP_CTRL q) F.HIF_QP_CTRL_RECOVER ∧
      depthOk (rget u (Reg.HIF_QP_CFG q) F.HIF_QP_CFG_SQ_LOG2) = true ∧
      depthOk (rget u (Reg.HIF_QP_CFG q) F.HIF_QP_CFG_CQ_LOG2) = true) ∧
    (∃ (q : Fin 64) (w : Word) (s : State) (u : State), hostMay s ∧ qpStateOf s q = 0 ∧
      fldGet F.HIF_QP_CTRL_EN w = 1 ∧ fldGet F.HIF_QP_CTRL_RECOVER w = 1 ∧
      u = rput s (Reg.HIF_QP_CTRL q) F.HIF_QP_CTRL_RECOVER 1 ∧
      depthOk (rget u (Reg.HIF_QP_CFG q) F.HIF_QP_CFG_SQ_LOG2) = true ∧
      depthOk (rget u (Reg.HIF_QP_CFG q) F.HIF_QP_CFG_CQ_LOG2) = true ∧ Memory.wf s = true) ∧
    (∃ (q : Fin 64) (w : Word) (s : State), hostMay s ∧ qpStateOf s q = 1 ∧ fldGet F.HIF_QP_CTRL_EN w = 0 ∧
      fldGet F.HIF_QP_CTRL_RECOVER w = rget s (Reg.HIF_QP_CTRL q) F.HIF_QP_CTRL_RECOVER) ∧
    (∃ (s : State), live s = true) :=
  ⟨⟨1,
    { put [(Reg.HIF_STAT, F.HIF_STAT_BME, 1), (Reg.HIF_QP_STAT 63, F.HIF_QP_STAT_STATE, 1), (Reg.HIF_QP_CFG 63, F.HIF_QP_CFG_SQ_LOG2, 6), (Reg.HIF_QP_CFG 63, F.HIF_QP_CFG_CQ_LOG2, 6)] with pcieUp := true },
    by unfold hostMay; decide +kernel, by decide +kernel⟩,
    ⟨{ put [(Reg.HIF_STAT, F.HIF_STAT_BME, 1), (Reg.HIF_QP_STAT 63, F.HIF_QP_STAT_STATE, 1), (Reg.HIF_QP_CFG 63, F.HIF_QP_CFG_SQ_LOG2, 6), (Reg.HIF_QP_CFG 63, F.HIF_QP_CFG_CQ_LOG2, 6)] with pcieUp := true, doorbell := true },
      _, by decide +kernel, by decide +kernel, by decide +kernel, by decide +kernel, rfl⟩,
    ⟨⟨63, 0⟩, 0, 4, 5,
      { State.reset with qps := [(0, { qpReset 0 with due := [4] }), (63, { qpReset 63 with due := [5] })] },
      by decide +kernel⟩,
    ⟨63, (List.replicate 64 0),
      { put [(Reg.HIF_STAT, F.HIF_STAT_BME, 1), (Reg.HIF_QP_STAT 63, F.HIF_QP_STAT_STATE, 1), (Reg.HIF_QP_CFG 63, F.HIF_QP_CFG_SQ_LOG2, 6), (Reg.HIF_QP_CFG 63, F.HIF_QP_CFG_CQ_LOG2, 6)] with pcieUp := true, qps := [(63, { qpReset 63 with tail := 1 })] },
      by decide +kernel⟩,
    ⟨63, (List.replicate 64 0),
      { put [(Reg.HIF_STAT, F.HIF_STAT_BME, 1), (Reg.HIF_QP_STAT 63, F.HIF_QP_STAT_STATE, 1), (Reg.HIF_QP_CFG 63, F.HIF_QP_CFG_SQ_LOG2, 6), (Reg.HIF_QP_CFG 63, F.HIF_QP_CFG_CQ_LOG2, 6)] with pcieUp := true, qps := [(63, { qpReset 63 with tail := 1 })] },
      by decide +kernel⟩,
    ⟨63, ⟨0, descOf 1, true, some (0, 0)⟩, [], (0, 0),
      { put [(Reg.HIF_STAT, F.HIF_STAT_BME, 1), (Reg.HIF_QP_STAT 63, F.HIF_QP_STAT_STATE, 1), (Reg.HIF_QP_CFG 63, F.HIF_QP_CFG_SQ_LOG2, 6), (Reg.HIF_QP_CFG 63, F.HIF_QP_CFG_CQ_LOG2, 6)] with pcieUp := true, qps := [(63, { qpReset 63 with flights := [⟨0, descOf 1, true, some (0, 0)⟩] })] },
      _, _, by decide +kernel, by decide +kernel, by decide +kernel, by decide +kernel, by decide +kernel, rfl,
      (fun _ => rfl), (fun h => nomatch (by decide +kernel : ¬ _) h)⟩,
    ⟨63,
      { put [(Reg.HIF_QP_CFG 63, F.HIF_QP_CFG_MOD_TIME, 1), (Reg.HIF_QP_CFG 63, F.HIF_QP_CFG_IRQ_EN, 1)] with qps := [(63, { qpReset 63 with unsignalled := 1 })], time := { timeReset with cnt := 393216000 } },
      by decide +kernel⟩,
    ⟨63, (fldPut F.HIF_QP_CTRL_EN 1 0), (put [(Reg.HIF_QP_CFG 63, F.HIF_QP_CFG_SQ_LOG2, 6), (Reg.HIF_QP_CFG 63,
      F.HIF_QP_CFG_CQ_LOG2, 12)]), _, by unfold hostMay; decide +kernel, by decide +kernel, by decide +kernel,
      by decide +kernel, rfl, by decide +kernel⟩,
    ⟨63, (fldPut F.HIF_QP_CTRL_RECOVER 1 (fldPut F.HIF_QP_CTRL_EN 1 0)), (put [(Reg.HIF_QP_CFG 63,
      F.HIF_QP_CFG_SQ_LOG2, 6), (Reg.HIF_QP_CFG 63, F.HIF_QP_CFG_CQ_LOG2, 12)]), _,
      by unfold hostMay; decide +kernel, by decide +kernel, by decide +kernel, by decide +kernel, rfl,
      by decide +kernel⟩,
    ⟨63, 0, (put [(Reg.HIF_QP_STAT 63, F.HIF_QP_STAT_STATE, 1)]), by unfold hostMay; decide +kernel,
      by decide +kernel⟩,
    ⟨State.reset, by decide +kernel⟩⟩

/-- States and operands that meet the hypotheses of each clause of `PlainDescriptorsComplete`, in their order. -/
theorem witness_PlainDescriptorsComplete :
    (∃ (d : DescRef) (bs : List Byte) (s : State), ready s d 0x01 bs) ∧
    (∃ (d : DescRef) (bs : List Byte) (s : State), ready s d 0x02 bs) ∧
    (∃ (d : DescRef) (bs : List Byte) (s : State), ready s d 0x18 bs ∧ par bs 8 0 4 = 1) ∧
    (∃ (d : DescRef) (bs : List Byte) (x : Die) (s : State) (u : State), ready s d 0x18 bs ∧ par bs 8 0 4 = 3 ∧
      leAt bs 16 8 &&& (0xF00000010000FFFF : Nat) = leAt bs 16 8 ∧ u = markAccepted s d ∧
      x = dieBit (par bs 20 0 1) ∧ diePresent u x = true ∧ barFenced u x = false ∧ barLink u x = lkUp) ∧
    (∃ (d : DescRef) (bs : List Byte) (x : Die) (s : State) (u : State), ready s d 0x68 bs ∧ u = markAccepted s d ∧
      x = dieBit (par bs 8 0 1) ∧ fieldCodeOk (leAt bs 10 2) (par bs 12 0 4) = true ∧ leAt bs 10 2 ≠ 6 ∧
      par bs 12 0 4 = 0 ∧ diePresent u x = true ∧ barFenced u x = false ∧ barLink u x = lkUp) ∧
    (∃ (d : DescRef) (bs : List Byte) (x : Die) (s : State) (u : State), ready s d 0x68 bs ∧ u = markAccepted s d ∧
      x = dieBit (par bs 8 0 1) ∧ fieldCodeOk (leAt bs 10 2) (par bs 12 0 4) = true ∧ diePresent u x = true ∧
      barFenced u x = false ∧ barLink u x ≠ lkUp) ∧
    (∃ (d : DescRef) (bs : List Byte) (x : Die) (s : State) (u : State), ready s d 0x18 bs ∧ par bs 8 0 4 = 3 ∧
      leAt bs 16 8 &&& (0xF00000010000FFFF : Nat) = leAt bs 16 8 ∧ u = markAccepted s d ∧
      x = dieBit (par bs 20 0 1) ∧ diePresent u x = true ∧ barFenced u x = false ∧ barLink u x ≠ lkUp) ∧
    (∃ (d : DescRef) (bs : List Byte) (x : Die) (s : State) (u : State), ready s d 0x38 bs ∧ u = markAccepted s d ∧
      x = dieBit (par bs 8 0 1) ∧ diePresent u x = true ∧ barFenced u x = false ∧ barLink u x ≠ lkUp) ∧
    (∃ (d : DescRef) (bs : List Byte) (x : Die) (s : State) (u : State) (v : State), ready s d 0x38 bs ∧
      u = markAccepted s d ∧ x = dieBit (par bs 8 0 1) ∧ diePresent u x = true ∧ barFenced u x = false ∧
      barLink u x = lkUp ∧ v =
      { u with diags := u.diags ++ [⟨d, x, leAt bs 12 4, leAt bs 16 2, leAt bs 24 8, [], u.time.cnt⟩] }) ∧
    (∃ (d : DescRef) (r : DiagRun) (s : State), live s = true ∧ s.diags.find? (fun r => r.ref == d) = some r ∧
      20000000 * 393216 ≤ (s.time.cnt - r.since) * 1000) :=
  ⟨⟨⟨0, 0⟩, (descOf (0x01)), (posted (0x01)), by unfold ready; decide +kernel⟩,
    ⟨⟨0, 0⟩, (descOf (0x02)), (posted (0x02)), by unfold ready; decide +kernel⟩,
    ⟨⟨0, 0⟩, (descOf (0x18 + 2 ^ 64 + 2 ^ 188 + 4096 * 2 ^ 192)),
      (posted (0x18 + 2 ^ 64 + 2 ^ 188 + 4096 * 2 ^ 192)), by unfold ready; decide +kernel, by decide +kernel⟩,
    ⟨⟨0, 0⟩, (descOf (0x18 + 3 * 2 ^ 64 + 3 * 2 ^ 188 + 2 ^ 160 + 16 * 2 ^ 192)), _,
      (posted (0x18 + 3 * 2 ^ 64 + 3 * 2 ^ 188 + 2 ^ 160 + 16 * 2 ^ 192) (put [(Reg.BAR_STAT 1, F.BAR_STAT_LINK,
      2)])), _, by unfold ready; decide +kernel, by decide +kernel, by decide +kernel, rfl, rfl, by decide +kernel⟩,
    ⟨⟨0, 0⟩, (descOf (0x68 + 2 ^ 64 + 4 * 2 ^ 80)), _, (posted (0x68 + 2 ^ 64 + 4 * 2 ^ 80) (put [(Reg.BAR_STAT 1,
      F.BAR_STAT_LINK, 2)])), _, by unfold ready; decide +kernel, rfl, rfl, by decide +kernel⟩,
    ⟨⟨0, 0⟩, (descOf (0x68 + 2 ^ 64 + 4 * 2 ^ 80)), _, (posted (0x68 + 2 ^ 64 + 4 * 2 ^ 80)), _,
      by unfold ready; decide +kernel, rfl, rfl, by decide +kernel⟩,
    ⟨⟨0, 0⟩, (descOf (0x18 + 3 * 2 ^ 64 + 3 * 2 ^ 188 + 2 ^ 160 + 16 * 2 ^ 192)), _,
      (posted (0x18 + 3 * 2 ^ 64 + 3 * 2 ^ 188 + 2 ^ 160 + 16 * 2 ^ 192)), _, by unfold ready; decide +kernel,
      by decide +kernel, by decide +kernel, rfl, rfl, by decide +kernel⟩,
    ⟨⟨0, 0⟩, (descOf (0x38 + 2 ^ 64)), _, (posted (0x38 + 2 ^ 64)), _, by unfold ready; decide +kernel, rfl, rfl,
      by decide +kernel⟩,
    ⟨⟨0, 0⟩, (descOf (0x38 + 2 ^ 64)), _, (posted (0x38 + 2 ^ 64) (put [(Reg.BAR_STAT 1, F.BAR_STAT_LINK, 2)])), _,
      _, by unfold ready; decide +kernel, rfl, rfl, by decide +kernel, by decide +kernel, by decide +kernel, rfl⟩,
    ⟨⟨0, 0⟩, ⟨⟨0, 0⟩, .b, 1, 7, 0, [], 0⟩,
      { State.reset with diags := [⟨⟨0, 0⟩, .b, 1, 7, 0, [], 0⟩], time := { timeReset with cnt := 7864320000 } },
      by decide +kernel⟩⟩

/-- States and operands that meet the hypotheses of each clause of `StackLinksComplete`, in their order. -/
theorem witness_StackLinksComplete :
    (∃ (l : Fin 4) (s : State) (u : State), live s = true ∧ stkUp s l = false ∧ inReset s (unitStk l) = false ∧
      u = raise (rput s (Reg.STK_LINK_STAT l) F.STK_LINK_STAT_STATE 2) (0x4C0 + l.val) l 0 ∧ [0, 1, 2,
      3].any (stkHears s) = true) ∧
    (∃ (l : Fin 4) (s : State) (u : State), live s = true ∧ stkUp s l = false ∧ inReset s (unitStk l) = false ∧
      u = raise (rput s (Reg.STK_LINK_STAT l) F.STK_LINK_STAT_STATE 2) (0x4C0 + l.val) l 0 ∧ [0, 1, 2,
      3].any (stkHears s) = false ∧ stkHears u l = true ∧ ron u Reg.STK_STAT F.STK_STAT_DUP_ID = false) ∧
    (∃ (l : Fin 4) (s : State) (u : State), live s = true ∧ rget s (Reg.STK_LINK_STAT l) F.STK_LINK_STAT_STATE ≠ 0 ∧
      u = wr s (Reg.STK_LINK_STAT l) (fldPut F.STK_LINK_STAT_FENCED (rget s (Reg.STK_LINK_STAT l)
      F.STK_LINK_STAT_FENCED) 0)) ∧
    (∃ (s : State), live s = true) ∧
    (∃ (s : State) (c : Nat), live s = true ∧ s.stk.discover = some c ∧
      ticksReach (s.time.cnt - c) (1000 * max 1 (rget s Reg.STK_CTRL F.STK_CTRL_DISC_WAIT)) = true ∧
      s.boot.restarting = false ∧ stkAlone s = false ∧ (idsOf (mapNow s)).headD 0 = myId s) ∧
    (∃ (s : State) (u : State), live s = true ∧ isStkMaster s = false ∧ ron s Reg.STK_STAT F.STK_STAT_FORMED = true ∧
      beatCame s = false ∧ beatDue s = true ∧ u = raise (radd (radd
      { s with stk := { s.stk with beat := some s.grid.index } } Reg.STK_HB F.STK_HB_MISSED 1) Reg.STK_HB
      F.STK_HB_MISS_CNT 1) 0x4CD 0x3FF 0 ∧ rget u Reg.STK_HB F.STK_HB_MISSED = 1) ∧
    (∃ (w : Word) (s : State) (u : State) (k : Nat), hostMay s ∧
      u = stackEnabled (rwrite s Reg.STK_CTRL w) (ron s Reg.STK_CTRL F.STK_CTRL_EN) ∧
      fldGet F.STK_CTRL_HANDOVER w = 1 ∧ k = rget u Reg.STK_CTRL F.STK_CTRL_HANDOVER_ID ∧ isStkMaster u = true ∧
      k ≠ myId u ∧ bitOf (stkMembers u) k = true ∧ bitOf u.stk.statusLocked k = true ∧
      u.stk.statusDoubt &&& stkMembers u = 0 ∧ u.stk.votes = [] ∧ u.stk.logging = [] ∧ (∀ t ∈ tallyIds,
      tyStack u t = true → tyState u t ≠ tyPrepared ∧ tyState u t ≠ tyInDoubt)) ∧
    (∃ (w : Word) (s : State) (u : State) (k : Nat), hostMay s ∧
      u = stackEnabled (rwrite s Reg.STK_CTRL w) (ron s Reg.STK_CTRL F.STK_CTRL_EN) ∧
      fldGet F.STK_CTRL_HANDOVER w = 1 ∧ k = rget u Reg.STK_CTRL F.STK_CTRL_HANDOVER_ID ∧
      (isStkMaster u = false ∨ bitOf (stkMembers u) k = false ∨ bitOf u.stk.statusLocked k = false ∨ k = myId u ∨ (∃
      t ∈ tallyIds, tyStack u t = true ∧ (tyState u t = tyPrepared ∨ tyState u t = tyInDoubt)) ∨ u.stk.statusDoubt
      &&& stkMembers u ≠ 0)) ∧
    (∃ (s : State), live s = true ∧ isStkMaster s = false ∧ s.stk.lateJoin = true ∧ autostarts s = true ∧
      s.boot.started = false ∧ loopState s = stLocked) ∧
    (∃ (s : State) (u : State), live s = true ∧ isStkMaster s = true ∧ autostarts s = true ∧ s.boot.started = false ∧
      s.stk.startXid = none ∧ readyToStart s = true ∧ u = stkSend s toAll smStart [s.grid.index + 8,
      s.stk.starts % 2 ^ 32]) ∧
    (∃ (s : State) (u : State) (v : State) (w : State), live s = true ∧
      u = { s with stk := { s.stk with waits := s.stk.waits.filter (fun w => !waitLapsed s w) } } ∧
      v = forEach (u.stk.waits.filter (fun w => decide (w.block + 8 ≤ u.grid.index))) u sendAgain ∧
      w = inquiriesLost
      { v with stk := { v.stk with waits := v.stk.waits.map (fun w => if w.block + 8 ≤ v.grid.index then { w with block := v.grid.index } else w) } }) :=
  ⟨⟨0, (put [(Reg.STK_CTRL, F.STK_CTRL_EN, 1), (Reg.STK_LINK_STAT 3, F.STK_LINK_STAT_STATE, 2)]), _,
    by decide +kernel, by decide +kernel, by decide +kernel, rfl, by decide +kernel⟩,
    ⟨3, (put [(Reg.STK_CTRL, F.STK_CTRL_EN, 1)]), _, by decide +kernel, by decide +kernel, by decide +kernel, rfl,
      by decide +kernel⟩,
    ⟨3, (put [(Reg.STK_CTRL, F.STK_CTRL_EN, 1), (Reg.STK_LINK_STAT 3, F.STK_LINK_STAT_STATE, 2)]), _,
      by decide +kernel, by decide +kernel, rfl⟩,
    ⟨State.reset, by decide +kernel⟩,
    ⟨{ put [(Reg.STK_CTRL, F.STK_CTRL_EN, 1), (Reg.STK_LINK_STAT 3, F.STK_LINK_STAT_STATE, 2)] with stk := { State.reset.stk with discover := some 0 }, time := { timeReset with cnt := 393216000000 } },
      0, by decide +kernel⟩,
    ⟨{ put [(Reg.STK_STAT, F.STK_STAT_MASTER, 0), (Reg.STK_STAT, F.STK_STAT_FORMED, 1)] with time := { timeReset with cnt := 393216000 } },
      _, by decide +kernel, by decide +kernel, by decide +kernel, by decide +kernel, by decide +kernel, rfl,
      by decide +kernel⟩,
    ⟨(fldPut F.STK_CTRL_HANDOVER 1 (fldPut F.STK_CTRL_HANDOVER_ID 7 0)),
      { put [(Reg.STK_STAT, F.STK_STAT_MASTER, 1), (Reg.STK_MEMBERS, F.STK_MEMBERS_PRESENT, 129)] with stk := { State.reset.stk with statusLocked := 128 } },
      _, 7, by unfold hostMay; decide +kernel, rfl, by decide +kernel⟩,
    ⟨(fldPut F.STK_CTRL_HANDOVER 1 0), (put [(Reg.STK_STAT, F.STK_STAT_MASTER, 0)]), _, _,
      by unfold hostMay; decide +kernel, rfl, by decide +kernel, rfl, by decide +kernel⟩,
    ⟨{ put [(Reg.STK_STAT, F.STK_STAT_MASTER, 0), (Reg.REF_STAT, F.REF_STAT_STATE, 2), (Reg.BOOT_STAT, F.BOOT_STAT_AUTOSTART, 1)] with boot := { bootReset with supervisor := true }, stk := { State.reset.stk with lateJoin := true } },
      by decide +kernel⟩,
    ⟨{ put [(Reg.STK_STAT, F.STK_STAT_MASTER, 1), (Reg.REF_STAT, F.REF_STAT_STATE, 2), (Reg.STK_MEMBERS, F.STK_MEMBERS_PRESENT, 1), (Reg.BOOT_STAT, F.BOOT_STAT_AUTOSTART, 1)] with boot := { bootReset with supervisor := true } },
      _, by decide +kernel, by decide +kernel, by decide +kernel, by decide +kernel, by decide +kernel,
      by decide +kernel, rfl⟩,
    ⟨State.reset, _, _, _, by decide +kernel, rfl, rfl, rfl⟩⟩

/-- States and operands that meet the hypotheses of each clause of `StackMessagesComplete`, in their order. -/
theorem witness_StackMessagesComplete :
    (∃ (l : Fin 4) (ws : List Nat) (view : StackView) (s : State) (t : State) (u : State) (v : State),
      heardStack s l ws smHello ∧ u = afterStack s l ws ∧ v = rput (rput (rset u (Reg.STK_LINK_STAT l)
      F.STK_LINK_STAT_PEER_VALID) (Reg.STK_LINK_STAT l) F.STK_LINK_STAT_PEER_ID (smW ws 1 % 8)) (Reg.STK_LINK_STAT l)
      F.STK_LINK_STAT_PEER_LINK (bitsOf (smW ws 1) 4 2) ∧ t = noteView
      { v with stk := { v.stk with peers := mapSet (fun _ => (0, false)) v.stk.peers l (smW ws 0, bitOf (smW ws 1) 8) } }
      l view ∧ (smW ws 1 % 8 ≠ myId t ∨ smW ws 0 = t.boot.identity % 2 ^ 64)) ∧
    (∃ (l : Fin 4) (ws : List Nat) (view : StackView) (s : State) (t : State) (u : State) (v : State),
      heardStack s l ws smHello ∧ u = afterStack s l ws ∧ v = rput (rput (rset u (Reg.STK_LINK_STAT l)
      F.STK_LINK_STAT_PEER_VALID) (Reg.STK_LINK_STAT l) F.STK_LINK_STAT_PEER_ID (smW ws 1 % 8)) (Reg.STK_LINK_STAT l)
      F.STK_LINK_STAT_PEER_LINK (bitsOf (smW ws 1) 4 2) ∧ t = noteView
      { v with stk := { v.stk with peers := mapSet (fun _ => (0, false)) v.stk.peers l (smW ws 0, bitOf (smW ws 1) 8) } }
      l view ∧ smW ws 1 % 8 = myId t ∧ smW ws 0 ≠ t.boot.identity % 2 ^ 64) ∧
    (∃ (l : Fin 4) (ws : List Nat) (s : State) (u : State), heardStack s l ws smHeartbeat ∧ u = afterStack s l ws ∧
      isStkMaster u = true ∧ smSrc ws < myId u) ∧
    (∃ (l : Fin 4) (ws : List Nat) (s : State) (u : State), heardStack s l ws smHeartbeat ∧ u = afterStack s l ws ∧
      isStkMaster u = false ∧ (smSrc ws ≤ masterId u ∨ ron u Reg.STK_STAT F.STK_STAT_FORMED = false ∨ 3 ≤ rget u
      Reg.STK_HB F.STK_HB_MISSED)) ∧
    (∃ (l : Fin 4) (ws : List Nat) (s : State) (u : State) (v : State) (k : Nat), heardStack s l ws smStatus ∧
      u = afterStack s l ws ∧ isStkMaster u = true ∧ k = smSrc ws ∧
      v =
      { u with stk := { u.stk with statusLocked := (u.stk.statusLocked &&& (0xFF ^^^ 2 ^ k)) + 2 ^ k * b2n (bitsOf (smW ws 1) 32 3 == stLocked), statusDoubt := (u.stk.statusDoubt &&& (0xFF ^^^ 2 ^ k)) + 2 ^ k * b2n (bitsOf (smW ws 1) 36 4 != 0) } }) ∧
    (∃ (l : Fin 4) (ws : List Nat) (s : State) (u : State), heardStack s l ws smTimeSync ∧ u = afterStack s l ws ∧
      isStkMaster u = false ∧ smSeen u ws = false ∧ smSrc ws = masterId u) ∧
    (∃ (l : Fin 4) (ws : List Nat) (s : State) (u : State) (v : State), heardStack s l ws smDelayReq ∧
      u = afterStack s l ws ∧ v =
      { u with stk := { u.stk with back := mapSet (fun _ => 0) u.stk.back l (now u - wordsTime (smW ws 0) (smW ws 1)) } }) ∧
    (∃ (l : Fin 4) (ws : List Nat) (s : State) (u : State) (mean : Int), heardStack s l ws smDelayResp ∧
      u = afterStack s l ws ∧ mean = (wordsTime (smW ws 2) (smW ws 3) - wordsTime (smW ws 0) (smW ws 1) + mapGet (fun
      _ => 0) u.stk.back l) / 2) ∧
    (∃ (l : Fin 4) (ws : List Nat) (s : State) (u : State) (e : Nat × Nat) (rs : List (Nat × Nat)),
      heardStack s l ws smSubscribe ∧ u = afterStack s l ws ∧ e = (smSrc ws, smW ws 0 % 1024) ∧
      rs = u.stk.readers.filter (fun x => x != e)) ∧
    (∃ (l : Fin 4) (ws : List Nat) (s : State), heardStack s l ws smBeads) ∧
    (∃ (s : State), live s = true ∧ running s = true) :=
  ⟨⟨3, (stkMessage smHello 1 0 1 [5, 1]), ⟨[], false⟩, (put [(Reg.STK_CTRL, F.STK_CTRL_EN, 1), (Reg.STK_LINK_STAT 3,
    F.STK_LINK_STAT_STATE, 2)]), _, _, _, by unfold heardStack; decide +kernel, rfl, rfl, rfl, by decide +kernel⟩,
    ⟨3, (stkMessage smHello 1 0 1 [5, 0]), ⟨[], false⟩, (put [(Reg.STK_CTRL, F.STK_CTRL_EN, 1), (Reg.STK_LINK_STAT 3,
      F.STK_LINK_STAT_STATE, 2)]), _, _, _, by unfold heardStack; decide +kernel, rfl, rfl, rfl, by decide +kernel⟩,
    ⟨3, (stkMessage smHeartbeat 1 toAll 1 [5, 1]), (put [(Reg.STK_STAT, F.STK_STAT_MASTER, 1), (Reg.STK_STAT,
      F.STK_STAT_MY_ID, 3)] (put [(Reg.STK_CTRL, F.STK_CTRL_EN, 1), (Reg.STK_LINK_STAT 3, F.STK_LINK_STAT_STATE,
      2)])), _, by unfold heardStack; decide +kernel, rfl, by decide +kernel⟩,
    ⟨3, (stkMessage smHeartbeat 1 toAll 1 [5, 1]), (put [(Reg.STK_STAT, F.STK_STAT_MASTER, 0), (Reg.STK_STAT,
      F.STK_STAT_MY_ID, 3)] (put [(Reg.STK_CTRL, F.STK_CTRL_EN, 1), (Reg.STK_LINK_STAT 3, F.STK_LINK_STAT_STATE,
      2)])), _, by unfold heardStack; decide +kernel, rfl, by decide +kernel⟩,
    ⟨3, (stkMessage smStatus 7 0 1 [5, 1]), (put [(Reg.STK_STAT, F.STK_STAT_MASTER, 1), (Reg.STK_CTRL, F.STK_CTRL_EN,
      1), (Reg.STK_LINK_STAT 3, F.STK_LINK_STAT_STATE, 2)]), _, _, 7, by unfold heardStack; decide +kernel, rfl,
      by decide +kernel, by decide +kernel, rfl⟩,
    ⟨3, (stkMessage smTimeSync 1 0 1 [5, 1, 0]), (put [(Reg.STK_STAT, F.STK_STAT_MASTER, 0), (Reg.STK_STAT,
      F.STK_STAT_MASTER_ID, 1)] (put [(Reg.STK_CTRL, F.STK_CTRL_EN, 1), (Reg.STK_LINK_STAT 3, F.STK_LINK_STAT_STATE,
      2)])), _, by unfold heardStack; decide +kernel, rfl, by decide +kernel⟩,
    ⟨3, (stkMessage smDelayReq 1 0 1 [5, 1]), (put [(Reg.STK_CTRL, F.STK_CTRL_EN, 1), (Reg.STK_LINK_STAT 3,
      F.STK_LINK_STAT_STATE, 2)]), _, _, by unfold heardStack; decide +kernel, rfl, rfl⟩,
    ⟨3, (stkMessage smDelayResp 1 0 1 [5, 1, 5, 2]), (put [(Reg.STK_CTRL, F.STK_CTRL_EN, 1), (Reg.STK_LINK_STAT 3,
      F.STK_LINK_STAT_STATE, 2)]), _, _, by unfold heardStack; decide +kernel, rfl, rfl⟩,
    ⟨3, (stkMessage smSubscribe 1 0 1 [65536 + 1023]), (put [(Reg.STK_CTRL, F.STK_CTRL_EN, 1), (Reg.STK_LINK_STAT 3,
      F.STK_LINK_STAT_STATE, 2)]), _, _, _, by unfold heardStack; decide +kernel, rfl, rfl, rfl⟩,
    ⟨3, (stkMessage smBeads 1 0 1 (List.replicate (4 + blk State.reset / 2) 0)), (put [(Reg.STK_CTRL, F.STK_CTRL_EN,
      1), (Reg.STK_LINK_STAT 3, F.STK_LINK_STAT_STATE, 2)]), by unfold heardStack; decide +kernel⟩,
    ⟨going, by decide +kernel⟩⟩

/-- States and operands that meet the hypotheses of each clause of `StackTalliesComplete`, in their order. -/
theorem witness_StackTalliesComplete :
    (∃ (l : Fin 4) (ws : List Nat) (s : State) (u : State) (v : StkVote), heardStack s l ws smVote ∧
      u = afterStack s l ws ∧ isStkMaster u = true ∧ knownDecision u (smW ws 0 % 2 ^ 32) = none ∧
      v = ⟨smW ws 0 % 2 ^ 32, smSrc ws, bitOf (smW ws 1) 8, smW ws 1 % 256, bitsOf (smW ws 1) 16 48⟩) ∧
    (∃ (l : Fin 4) (ws : List Nat) (s : State), heardStack s l ws smLog) ∧
    (∃ (l : Fin 4) (ws : List Nat) (d : StkDecision) (s : State), heardStack s l ws smLogAck ∧
      (afterStack s l ws).stk.logging.find? (fun d => d.xid == smW ws 0 % 2 ^ 32) = some d) ∧
    (∃ (l : Fin 4) (ws : List Nat) (s : State), heardStack s l ws smDecision) ∧
    (∃ (l : Fin 4) (ws : List Nat) (s : State), heardStack s l ws smQuery ∧ bitOf (smW ws 1) 0 = false ∧
      isStkMaster (afterStack s l ws) = true) ∧
    (∃ (l : Fin 4) (ws : List Nat) (s : State) (u : State) (x : Nat), heardStack s l ws smQuery ∧
      u = afterStack s l ws ∧ bitOf (smW ws 1) 0 = true ∧ x = smW ws 0 % 2 ^ 32) ∧
    (∃ (l : Fin 4) (ws : List Nat) (s : State) (u : State) (v : State), heardStack s l ws smAnswer ∧
      u = afterStack s l ws ∧ (u.stk.inquiries.filter (fun q => q.xid == smW ws 0 % 2 ^ 32 && bitOf q.waiting (smSrc
      ws))) = [] ∧ v =
      { u with stk := { u.stk with waits := u.stk.waits.filter (fun w => !(w.type == smQuery && w.xid == smW ws 0 % 2 ^ 32 && w.dst == smSrc ws)) } }
      ∧ bitOf (smW ws 1) 1 = true) ∧
    (∃ (l : Fin 4) (ws : List Nat) (s : State) (u : State) (v : State), heardStack s l ws smAnswer ∧
      u = afterStack s l ws ∧ (u.stk.inquiries.filter (fun q => q.xid == smW ws 0 % 2 ^ 32 && bitOf q.waiting (smSrc
      ws))) = [] ∧ v =
      { u with stk := { u.stk with waits := u.stk.waits.filter (fun w => !(w.type == smQuery && w.xid == smW ws 0 % 2 ^ 32 && w.dst == smSrc ws)) } }
      ∧ bitOf (smW ws 1) 1 = false) ∧
    (∃ (l : Fin 4) (ws : List Nat) (s : State) (u : State) (x : Int), heardStack s l ws smCarry ∧
      u = afterStack s l ws ∧ x = mkTime (smW ws 0 % 2 ^ 48) (bitsOf (smW ws 1) 0 30) ∧ now u ≤ x) ∧
    (∃ (l : Fin 4) (ws : List Nat) (s : State), heardStack s l ws smSplit) ∧
    (∃ (l : Fin 4) (ws : List Nat) (s : State), heardStack s l ws smStart ∧ autostarts (afterStack s l ws) = true) :=
  ⟨⟨3, (stkMessage smVote 1 0 1 [5, 256]), (put [(Reg.STK_STAT, F.STK_STAT_MASTER, 1)] (put [(Reg.STK_CTRL,
    F.STK_CTRL_EN, 1), (Reg.STK_LINK_STAT 3, F.STK_LINK_STAT_STATE, 2)])), _, _,
    by unfold heardStack; decide +kernel, rfl, by decide +kernel, by decide +kernel, rfl⟩,
    ⟨3, (stkMessage smLog 1 0 1 [5, 1]), (put [(Reg.STK_CTRL, F.STK_CTRL_EN, 1), (Reg.STK_LINK_STAT 3,
      F.STK_LINK_STAT_STATE, 2)]), by unfold heardStack; decide +kernel⟩,
    ⟨3, (stkMessage smLogAck 1 0 1 [5]), ⟨5, true, 9⟩,
      { put [(Reg.STK_CTRL, F.STK_CTRL_EN, 1), (Reg.STK_LINK_STAT 3, F.STK_LINK_STAT_STATE, 2)] with stk := { State.reset.stk with logging := [⟨5, true, 9⟩] } },
      by unfold heardStack; decide +kernel, by decide +kernel⟩,
    ⟨3, (stkMessage smDecision 1 0 1 [5, 1]), (put [(Reg.STK_CTRL, F.STK_CTRL_EN, 1), (Reg.STK_LINK_STAT 3,
      F.STK_LINK_STAT_STATE, 2)]), by unfold heardStack; decide +kernel⟩,
    ⟨3, (stkMessage smQuery 1 0 1 [5, 0]), (put [(Reg.STK_STAT, F.STK_STAT_MASTER, 1)] (put [(Reg.STK_CTRL,
      F.STK_CTRL_EN, 1), (Reg.STK_LINK_STAT 3, F.STK_LINK_STAT_STATE, 2)])), by unfold heardStack; decide +kernel,
      by decide +kernel⟩,
    ⟨3, (stkMessage smQuery 1 0 1 [5, 1]), (put [(Reg.STK_CTRL, F.STK_CTRL_EN, 1), (Reg.STK_LINK_STAT 3,
      F.STK_LINK_STAT_STATE, 2)]), _, _, by unfold heardStack; decide +kernel, rfl, by decide +kernel, rfl⟩,
    ⟨3, (stkMessage smAnswer 1 0 1 [5, 2]), (put [(Reg.STK_CTRL, F.STK_CTRL_EN, 1), (Reg.STK_LINK_STAT 3,
      F.STK_LINK_STAT_STATE, 2)]), _, _, by unfold heardStack; decide +kernel, rfl, by decide +kernel, rfl,
      by decide +kernel⟩,
    ⟨3, (stkMessage smAnswer 1 0 1 [5, 0]), (put [(Reg.STK_CTRL, F.STK_CTRL_EN, 1), (Reg.STK_LINK_STAT 3,
      F.STK_LINK_STAT_STATE, 2)]), _, _, by unfold heardStack; decide +kernel, rfl, by decide +kernel, rfl,
      by decide +kernel⟩,
    ⟨3, (stkMessage smCarry 1 0 1 [5, 1, 0]), (put [(Reg.STK_CTRL, F.STK_CTRL_EN, 1), (Reg.STK_LINK_STAT 3,
      F.STK_LINK_STAT_STATE, 2)]), _, _, by unfold heardStack; decide +kernel, rfl, rfl, by decide +kernel⟩,
    ⟨3, (stkMessage smSplit 1 0 1 [5, 1]), (put [(Reg.STK_CTRL, F.STK_CTRL_EN, 1), (Reg.STK_LINK_STAT 3,
      F.STK_LINK_STAT_STATE, 2)]), by unfold heardStack; decide +kernel⟩,
    ⟨3, (stkMessage smStart 1 0 1 [5, 1]),
      { put [(Reg.BOOT_STAT, F.BOOT_STAT_AUTOSTART, 1)] (put [(Reg.STK_CTRL, F.STK_CTRL_EN, 1), (Reg.STK_LINK_STAT 3, F.STK_LINK_STAT_STATE, 2)]) with boot := { bootReset with supervisor := true } },
      by unfold heardStack; decide +kernel, by decide +kernel⟩⟩

/-- States and operands that meet the hypotheses of each clause of `FaultClearingComplete`, in their order. -/
theorem witness_FaultClearingComplete :
    (∃ (s : State), hostMay s) ∧
    (∃ (w : Word) (s : State), hostMay s ∧ fldGet F.FLT_CLR_GRP_GO w = 1) ∧
    (∃ (w : Word) (s : State), hostMay s ∧ fldGet F.FLT_CNT_CLR w = 1) ∧
    (∃ (id : Nat) (s : State) (u : State), hostMay s ∧ u = endSelftest s ∧ id = rget u Reg.FLT_SEL F.FLT_SEL_ID ∧
      ron u Reg.SYS_LOCK F.SYS_LOCK_LOCK = false ∧ id ≠ 0x610 ∧ sourceExists u id = true) ∧
    (∃ (id : Nat) (s : State) (u : State), hostMay s ∧ u = endSelftest s ∧ id = rget u Reg.FLT_SEL F.FLT_SEL_ID ∧
      ron u Reg.SYS_LOCK F.SYS_LOCK_LOCK = false ∧ (id = 0x610 ∨ sourceExists u id = false)) ∧
    (∃ (w : Word) (s : State) (u : State), hostMay s ∧ u = rwrite (endSelftest s) Reg.FLT_CFG_GRP w ∧
      fldGet F.FLT_CFG_GRP_GO w = 1 ∧ ron u Reg.SYS_LOCK F.SYS_LOCK_LOCK = false) ∧
    (∃ (s : State), hostMay s ∧ ron (endSelftest s) Reg.SYS_LOCK F.SYS_LOCK_LOCK = true) ∧
    (∃ (w : Word) (s : State) (u : State), hostMay s ∧ u = rwrite (endSelftest s) Reg.FLT_CFG_GRP w ∧
      ron u Reg.SYS_LOCK F.SYS_LOCK_LOCK = true) :=
  ⟨⟨State.reset, by unfold hostMay; decide +kernel⟩,
    ⟨(fldPut F.FLT_CLR_GRP_GO 1 0), State.reset, by unfold hostMay; decide +kernel, by decide +kernel⟩,
    ⟨(fldPut F.FLT_CNT_CLR 1 0), State.reset, by unfold hostMay; decide +kernel, by decide +kernel⟩,
    ⟨_, (put [(Reg.FLT_SEL, F.FLT_SEL_ID, 0x100)]), _, by unfold hostMay; decide +kernel, rfl, rfl, by decide +kernel⟩,
    ⟨_, (put [(Reg.FLT_SEL, F.FLT_SEL_ID, 0x610)]), _, by unfold hostMay; decide +kernel, rfl, rfl, by decide +kernel⟩,
    ⟨(fldPut F.FLT_CFG_GRP_GO 1 0), State.reset, _, by unfold hostMay; decide +kernel, rfl, by decide +kernel⟩,
    ⟨(put [(Reg.SYS_LOCK, F.SYS_LOCK_LOCK, 1)]), by unfold hostMay; decide +kernel, by decide +kernel⟩,
    ⟨0, (put [(Reg.SYS_LOCK, F.SYS_LOCK_LOCK, 1)]), _, by unfold hostMay; decide +kernel, rfl, by decide +kernel⟩⟩

/-- States and operands that meet the hypotheses of each clause of `FaultInjectionComplete`, in their order. -/
theorem witness_FaultInjectionComplete :
    (∃ (w : Word) (id : Nat) (s : State) (u : State), hostMay s ∧ u = compareCtrl (endSelftest s) ∧
      id = fldGet F.FLT_FORCE_ID w ∧ fldGet F.FLT_FORCE_GO w = 1 ∧ ron u Reg.FLT_CTRL F.FLT_CTRL_INJ_EN = true ∧
      sourceExists u id = true ∧ id ≠ 0x610) ∧
    (∃ (w : Word) (s : State) (u : State), hostMay s ∧ u = compareCtrl (endSelftest s) ∧
      fldGet F.FLT_FORCE_ID w = 0x610 ∧ fldGet F.FLT_FORCE_GO w = 1 ∧ ron u Reg.FLT_CTRL F.FLT_CTRL_INJ_EN = true) ∧
    (∃ (w : Word) (s : State) (u : State), hostMay s ∧ u = compareCtrl (endSelftest s) ∧
      fldGet F.FLT_FORCE_GO w = 1 ∧ (ron u Reg.FLT_CTRL F.FLT_CTRL_INJ_EN = false ∨ sourceExists u (fldGet
      F.FLT_FORCE_ID w) = false)) ∧
    (∃ (w : Word) (s : State) (u : State), hostMay s ∧ u = compareCtrl s ∧ fldGet F.FLT_SELFTEST_KEY w = 0x5E1F ∧
      ron u Reg.FLT_CTRL F.FLT_CTRL_INJ_EN = true) ∧
    (∃ (w : Word) (s : State) (u : State), hostMay s ∧ u = compareCtrl s ∧ fldGet F.FLT_SELFTEST_KEY w = 0xA1E5 ∧
      ron u Reg.FLT_CTRL F.FLT_CTRL_INJ_EN = true ∧ u.collector.testKey = true) ∧
    (∃ (x : ConfigUpset) (k : Nat) (n : Nat) (s : State) (u : State), s.powered = true ∧
      configKey s x.word = some (k, n) ∧ u = setFlips s k (flipsAt s k ^^^ (x.bits.toNat % 2 ^ n))) ∧
    (∃ (s : State), s.powered = true) ∧
    (∃ (s : State) (u : State) (c : Nat), s.powered = true ∧ u = compareCtrl s ∧ u.collector.faultNHold = some c ∧
      ticksReach (recorderNow u - c) (1000 * max 1 (rget u Reg.FLT_CTRL F.FLT_CTRL_FN_MIN)) = true) ∧
    (∃ (w : Word) (id : Nat) (us : List Nat) (s : State) (u : State), hostMay s ∧ u = endSelftest s ∧
      id = fldGet F.FLT_UNFENCE_ID w ∧ us = unfenceUnits u id ∧ fldGet F.FLT_UNFENCE_GO w = 1 ∧
      sourceExists u id = true ∧ us ≠ [] ∧ us.any (unitHeld u) = false) ∧
    (∃ (w : Word) (id : Nat) (s : State) (u : State), hostMay s ∧ u = endSelftest s ∧
      id = fldGet F.FLT_UNFENCE_ID w ∧ fldGet F.FLT_UNFENCE_GO w = 1 ∧ (unfenceUnits u id).any (unitHeld u) = true) :=
  ⟨⟨(fldPut F.FLT_FORCE_GO 1 (fldPut F.FLT_FORCE_ID 0x100 0)), _, (put [(Reg.FLT_CTRL, F.FLT_CTRL_INJ_EN, 1)]), _,
    by unfold hostMay; decide +kernel, rfl, rfl, by decide +kernel⟩,
    ⟨(fldPut F.FLT_FORCE_GO 1 (fldPut F.FLT_FORCE_ID 0x610 0)), (put [(Reg.FLT_CTRL, F.FLT_CTRL_INJ_EN, 1)]), _,
      by unfold hostMay; decide +kernel, rfl, by decide +kernel⟩,
    ⟨(fldPut F.FLT_FORCE_GO 1 (fldPut F.FLT_FORCE_ID 0xFFF 0)), (put [(Reg.FLT_CTRL, F.FLT_CTRL_INJ_EN, 1)]), _,
      by unfold hostMay; decide +kernel, rfl, by decide +kernel⟩,
    ⟨(fldPut F.FLT_SELFTEST_KEY 0x5E1F 0), (put [(Reg.FLT_CTRL, F.FLT_CTRL_INJ_EN, 1)]), _,
      by unfold hostMay; decide +kernel, rfl, by decide +kernel⟩,
    ⟨(fldPut F.FLT_SELFTEST_KEY 0xA1E5 0),
      { put [(Reg.FLT_CTRL, F.FLT_CTRL_INJ_EN, 1)] with collector := { collectorReset with testKey := true } }, _,
      by unfold hostMay; decide +kernel, rfl, by decide +kernel⟩,
    ⟨⟨.therm, 2 ^ 31⟩, _, _, State.reset, _, by decide +kernel, rfl, rfl⟩,
    ⟨State.reset, by decide +kernel⟩,
    ⟨{ later with collector := { collectorReset with faultNHold := some 0 } }, _, 0, by decide +kernel, rfl,
      by decide +kernel⟩,
    ⟨(fldPut F.FLT_UNFENCE_GO 1 (fldPut F.FLT_UNFENCE_ID 0x300 0)), _, _, State.reset, _,
      by unfold hostMay; decide +kernel, rfl, rfl, rfl, by decide +kernel⟩,
    ⟨(fldPut F.FLT_UNFENCE_GO 1 (fldPut F.FLT_UNFENCE_ID 0x300 0)), _,
      (latchPlain { State.reset with collector := { collectorReset with fencers := [(768, 0x300)] } } 0x300 false),
      _, by unfold hostMay; decide +kernel, rfl, rfl, by decide +kernel⟩⟩

/-- States and operands that meet the hypotheses of each clause of `SensorsAndLimitsComplete`, in their order. -/
theorem witness_SensorsAndLimitsComplete :
    (∃ (r : BitVec 16) (s : State) (u : State), s.powered = true ∧
      u = noteSensor (rput s Reg.FLT_THERM_DRAM F.FLT_THERM_DRAM_DRAM (wrapTo 16 r.toInt)) 4 true) ∧
    (∃ (n : Fin 5) (r : BitVec 16) (s : State) (u : State) (warn : Int) (crit : Int), s.powered = true ∧ n.val < 4 ∧
      flipsAt s thermKey = 0 ∧ u = noteSensor (rput s (thermPlace n).1 (thermPlace n).2 (wrapTo 16 r.toInt)) n true ∧
      warn = 16 * rget u Reg.FLT_THERM F.FLT_THERM_WARN ∧ crit = max warn (16 * rget u Reg.FLT_THERM
      F.FLT_THERM_CRIT)) ∧
    (∃ (n : Fin 5) (k : Nat) (rest : List Nat) (v : Int) (s : State) (u : State), s.powered = true ∧
      (List.range 5).filter (fun k => k != n.val && !bitOf s.collector.sensorBad k) = k :: rest ∧
      v = (rest.map (thermOf s)).foldl max (thermOf s k) ∧ u = noteSensor (rput s (thermPlace n).1 (thermPlace n).2
      (wrapTo 16 v)) n false) ∧
    (∃ (s : State) (u : State) (x : StkState), s.powered = true ∧ s.boot.supervisor = true ∧
      x = { s.stk with discover := s.stk.discover.map (fun _ => s.time.cnt) } ∧
      u = { s with boot := { s.boot with restarting := true }, stk := x, mgt := { s.mgt with refreshed := false } }) ∧
    (∃ (s : State), s.powered = true) ∧
    (∃ (s : State), s.powered = true ∧ s.boot.supervisor = true) ∧
    (∃ (s : State) (t : Nat), s.powered = true ∧ s.recorder.marked = some t ∧ t + dayOptime ≤ s.recorder.optime) ∧
    (∃ (s : State), hostMay s) :=
  ⟨⟨0, State.reset, _, by decide +kernel, rfl⟩,
    ⟨3, 0x7FFF, State.reset, _, _, _, by decide +kernel, by decide +kernel, by decide +kernel, rfl, rfl, rfl⟩,
    ⟨4, 0, _, _, State.reset, _, by decide +kernel, rfl, rfl, rfl⟩,
    ⟨{ State.reset with boot := { bootReset with supervisor := true } }, _, _, by decide +kernel, by decide +kernel,
      rfl, rfl⟩,
    ⟨State.reset, by decide +kernel⟩,
    ⟨{ State.reset with boot := { bootReset with supervisor := true } }, by decide +kernel⟩,
    ⟨{ State.reset with recorder := { State.reset.recorder with marked := some 0, optime := dayOptime } }, 0,
      by decide +kernel⟩,
    ⟨State.reset, by unfold hostMay; decide +kernel⟩⟩

/-- States and operands that meet the hypotheses of each clause of `EventLogComplete`, in their order. -/
theorem witness_EventLogComplete :
    (∃ (w : Word) (s : State) (u : State), hostMay s ∧ u = rwrite s Reg.EVR_HOST w ∧ fldGet F.EVR_HOST_GO w = 1) ∧
    (∃ (s : State), s.powered = true ∧ supervisorRuns s = true ∧ commitDue s = true) ∧
    (∃ (d : DescRef) (bs : List Byte) (n : Nat) (total : Nat) (s : State) (u : State), ready s d 0x40 bs ∧
      u = markAccepted s d ∧ total = rget u Reg.EVR_COUNT F.EVR_COUNT_RECORDS ∧
      n = min (leAt bs 12 4) (total - leAt bs 8 4)) ∧
    (∃ (w : Word) (s : State), hostMay s ∧ fldGet F.EVR_CLEAR_KEY w = 0xC1EA ∧
      ron s Reg.SYS_LOCK F.SYS_LOCK_LOCK = false ∧ ron s Reg.EVR_STAT F.EVR_STAT_CLEAR_BUSY = false) ∧
    (∃ (w : Word) (c : Nat) (s : State), hostMay s ∧ fldGet F.EVR_CLEAR_KEY w = 0x1EAC ∧
      ron s Reg.SYS_LOCK F.SYS_LOCK_LOCK = false ∧ ron s Reg.EVR_STAT F.EVR_STAT_CLEAR_BUSY = false ∧
      s.recorder.clearKey = some c ∧ s.time.cnt ≤ c + 393216) ∧
    (∃ (s : State), s.powered = true ∧ ron s Reg.EVR_STAT F.EVR_STAT_CLEAR_BUSY = true ∧
      ron s Reg.BOOT_PFAIL F.BOOT_PFAIL_LEVEL = true ∧ s.recorder.buffer.length < 16384) :=
  ⟨⟨(fldPut F.EVR_HOST_GO 1 0), State.reset, _, by unfold hostMay; decide +kernel, rfl, by decide +kernel⟩,
    ⟨{ (rclr State.reset Reg.BOOT_PFAIL F.BOOT_PFAIL_LEVEL) with boot := { bootReset with supervisor := true } },
      by decide +kernel⟩,
    ⟨⟨0, 0⟩, (descOf (0x40 + 2 ^ 96)), _, _, (posted (0x40 + 2 ^ 96)), _, by unfold ready; decide +kernel, rfl, rfl,
      rfl⟩,
    ⟨(fldPut F.EVR_CLEAR_KEY 0xC1EA 0), State.reset, by unfold hostMay; decide +kernel, by decide +kernel⟩,
    ⟨(fldPut F.EVR_CLEAR_KEY 0x1EAC 0), 0,
      { State.reset with recorder := { State.reset.recorder with clearKey := some 0 }, time := { timeReset with cnt := 393216 } },
      by unfold hostMay; decide +kernel, by decide +kernel⟩,
    ⟨(put [(Reg.EVR_STAT, F.EVR_STAT_CLEAR_BUSY, 1)]), by decide +kernel⟩⟩

/-- States and operands that meet the hypotheses of each clause of `HostEventRecorded`, in their order. -/
theorem witness_HostEventRecorded :
    (∃ (w : Word) (s : State) (u : State), hostMay s ∧ u = rwrite s Reg.EVR_HOST w ∧ fldGet F.EVR_HOST_GO w = 1) ∧
    (∃ (w : Word) (s : State), hostMay s ∧ fldGet F.EVR_HOST_GO w = 0) ∧
    (∃ (n : Nat) (s : State) (b : Bucket), n < 16 ∧ b = bucketAt (bucketOf s (0x18F0 + n)) (rateLimit s (0x18F0 + n))
      (recorderNow s) ∧ b.tokens = 0) ∧
    (∃ (n : Nat) (s : State) (b : Bucket), n < 16 ∧ b = bucketAt (bucketOf s (0x18F0 + n)) (rateLimit s (0x18F0 + n))
      (recorderNow s) ∧ 0 < b.tokens ∧ s.recorder.buffer.length < bufferSize ∧
      ron s Reg.EVR_STAT F.EVR_STAT_LOG_FULL = false) :=
  ⟨⟨(fldPut F.EVR_HOST_GO 1 0), State.reset, _, by unfold hostMay; decide +kernel, rfl, by decide +kernel⟩,
    ⟨0, State.reset, by unfold hostMay; decide +kernel, by decide +kernel⟩,
    ⟨15,
      { State.reset with recorder := { State.reset.recorder with buckets := [(0x18FF, ⟨0, 0, (rateLimit State.reset 0x18FF).1, (rateLimit State.reset 0x18FF).2, 0, 0⟩)] } },
      _, by decide +kernel, rfl, by decide +kernel⟩,
    ⟨15, State.reset, _, by decide +kernel, rfl, by decide +kernel⟩⟩

/-- States and operands that meet the hypotheses of each clause of `RaiseMarksItsSource`, in their order. -/
theorem witness_RaiseMarksItsSource :
    (∃ (s : State) (t : State) (id : Nat) (forced : Bool), Memory.wf s = true ∧ id < 4096 ∧
      t = latchPlain s id forced) ∧
    (∃ (s : State) (t : State) (id : Nat) (forced : Bool), Memory.wf s = true ∧ id < 4096 ∧
      t = latchPlain s id forced ∧ ron s Reg.FLT_FIRST F.FLT_FIRST_VALID = false) ∧
    (∃ (s : State) (t : State) (id : Nat) (forced : Bool), Memory.wf s = true ∧ id < 4096 ∧
      t = latchPlain s id forced ∧ ron s Reg.FLT_FIRST F.FLT_FIRST_VALID = true) ∧
    (∃ (s : State) (t : State) (id : Nat) (forced : Bool) (k : Nat), Memory.wf s = true ∧ id < 4096 ∧
      t = latchPlain s id forced ∧ k < 4096 ∧ k ≠ id) ∧
    (∃ (s : State) (t : State) (id : Nat) (forced : Bool) (g : Nat), Memory.wf s = true ∧ id < 4096 ∧
      t = latchPlain s id forced ∧ g < 64 ∧ g ≠ id / 64) :=
  ⟨⟨State.reset, _, 4095, true, by decide +kernel, by decide +kernel, rfl⟩,
    ⟨State.reset, _, 4095, true, by decide +kernel, by decide +kernel, rfl, by decide +kernel⟩,
    ⟨(latchPlain State.reset 0 false), _, 4095, true, by decide +kernel, by decide +kernel, rfl, by decide +kernel⟩,
    ⟨State.reset, _, 4095, true, 0, by decide +kernel, by decide +kernel, rfl, by decide +kernel⟩,
    ⟨State.reset, _, 4095, true, 0, by decide +kernel, by decide +kernel, rfl, by decide +kernel⟩⟩

/-- States and operands that meet the hypotheses of each clause of `PowerFailComplete`, in their order. -/
theorem witness_PowerFailComplete :
    (∃ (s : State) (u : State), s.powered = true ∧ ron s Reg.BOOT_PFAIL F.BOOT_PFAIL_LEVEL = true ∧
      u = recordEvent (radd (rclr s Reg.BOOT_PFAIL F.BOOT_PFAIL_LEVEL) Reg.BOOT_PFAIL F.BOOT_PFAIL_FALLS 1) 0x1842
      0x3FF false 0) ∧
    (∃ (s : State), s.powered = true ∧ s.boot.repairDue = false) ∧
    (∃ (s : State), s.powered = true ∧ s.boot.repairDue = true) ∧
    (∃ (s : State), s.powered = true ∧ ron s Reg.BOOT_PFAIL F.BOOT_PFAIL_ACTIVE = true) :=
  ⟨⟨State.reset, _, by decide +kernel, by decide +kernel, rfl⟩,
    ⟨State.reset, by decide +kernel⟩,
    ⟨{ State.reset with boot := { bootReset with repairDue := true } }, by decide +kernel⟩,
    ⟨(put [(Reg.BOOT_PFAIL, F.BOOT_PFAIL_ACTIVE, 1)]), by decide +kernel⟩⟩

/-- States and operands that meet the hypotheses of each clause of `BootComplete`, in their order. -/
theorem witness_BootComplete :
    (∃ (f : RomFlash) (s : State) (u : State) (v : State) (w : State), s.powered = true ∧ s.boot.romUp = false ∧
      s.boot.supervisor = false ∧ ron s Reg.BOOT_STAT F.BOOT_STAT_MODE = false ∧
      u = refreshFaultN { s with boot := { s.boot with coming := false, resetting := false } } ∧
      v = reportOtp { u with mgt := { u.mgt with answers := true, idleAt := some (recorderNow u) } } ∧
      (f.otpBad = none → w = v) ∧ (∀ a, f.otpBad = some a → w = raise v 0x606 noInst a.toNat) ∧ f.identified = false) ∧
    (∃ (f : RomFlash) (s : State) (u : State) (v : State) (w : State), s.powered = true ∧ s.boot.romUp = false ∧
      s.boot.supervisor = false ∧ ron s Reg.BOOT_STAT F.BOOT_STAT_MODE = false ∧
      u = refreshFaultN { s with boot := { s.boot with coming := false, resetting := false } } ∧
      v = reportOtp { u with mgt := { u.mgt with answers := true, idleAt := some (recorderNow u) } } ∧
      (f.otpBad = none → w = v) ∧ (∀ a, f.otpBad = some a → w = raise v 0x606 noInst a.toNat) ∧ f.identified = true ∧
      (w.boot.powerOn = false ∨ ron w Reg.BOOT_PFAIL F.BOOT_PFAIL_LEVEL = true ∧ f.cut ≠ some .record)) ∧
    (∃ (f : RomFlash) (s : State) (u : State) (v : State) (w : State), s.powered = true ∧ s.boot.romUp = false ∧
      s.boot.supervisor = false ∧ ron s Reg.BOOT_STAT F.BOOT_STAT_MODE = false ∧
      u = refreshFaultN { s with boot := { s.boot with coming := false, resetting := false } } ∧
      v = reportOtp { u with mgt := { u.mgt with answers := true, idleAt := some (recorderNow u) } } ∧
      (f.otpBad = none → w = v) ∧ (∀ a, f.otpBad = some a → w = raise v 0x606 noInst a.toNat) ∧ f.identified = true ∧
      w.boot.powerOn = true ∧ ron w Reg.BOOT_PFAIL F.BOOT_PFAIL_LEVEL = true ∧ f.cut = some .record) ∧
    (∃ (f : RomFlash) (s : State) (u : State) (v : State) (w : State), s.powered = true ∧ s.boot.romUp = false ∧
      s.boot.supervisor = false ∧ ron s Reg.BOOT_STAT F.BOOT_STAT_MODE = false ∧
      u = refreshFaultN { s with boot := { s.boot with coming := false, resetting := false } } ∧
      v = reportOtp { u with mgt := { u.mgt with answers := true, idleAt := some (recorderNow u) } } ∧
      (f.otpBad = none → w = v) ∧ (∀ a, f.otpBad = some a → w = raise v 0x606 noInst a.toNat) ∧ f.identified = true ∧
      w.boot.powerOn = true ∧ ron w Reg.BOOT_PFAIL F.BOOT_PFAIL_LEVEL = false) ∧
    (∃ (s : State) (u : State) (v : State) (w : State), s.powered = true ∧ s.boot.romUp = true ∧
      s.boot.supervisor = false ∧ u = resetRange (rclr
      { s with boot := { s.boot with supervisor := true, load := some 0 } } Reg.BOOT_STAT F.BOOT_STAT_MODE)
      Reg.BOOT_MB_ADDR_LO (Reg.BOOT_MB_STAT + 4) ∧ (s.boot.copied = none → v = u) ∧ (∀ n,
      s.boot.copied = some n → v = recordEvent u 0x1542 noInst false n) ∧
      w = (if clearPending v = true then refreshFlashBusy (rset v Reg.EVR_STAT F.EVR_STAT_CLEAR_BUSY) else v)) ∧
    (∃ (w : Word) (bs : List Byte) (offset : Nat) (len : Nat) (s : State) (u : State) (v : State),
      inRecovery s = true ∧ u = rwrite s Reg.BOOT_MB_CMD w ∧ offset = (rd u Reg.BOOT_MB_OFFSET).toNat ∧
      len = (rd u Reg.BOOT_MB_LEN).toNat ∧ fldGet F.BOOT_MB_CMD_GO w = 1 ∧ fldGet F.BOOT_MB_CMD_OP w = 1 ∧
      offset % 4096 = 0 ∧ len ≠ 0 ∧ len ≤ 65536 ∧ offset + len ≤ 25165824 ∧ mailboxBusy u = false ∧
      mailboxRefusal u = none ∧ crc32c (bytesAt bs 0 len) = (rd (undoActivation u) Reg.BOOT_MB_CRC).toNat ∧
      v = undoActivation u) ∧
    (∃ (o : Nat) (bs : List Byte) (s : State) (u : State), inRecovery s = true ∧ s.boot.work = some (.block o bs,
      none) ∧ u = refreshFlashBusy (stageBlock { s with boot := { s.boot with work := none } } o bs) ∧
      inRecovery u = true) ∧
    (∃ (w : Word) (s : State) (u : State) (v : Nat), inRecovery s = true ∧ u = rwrite s Reg.BOOT_MB_CMD w ∧
      fldGet F.BOOT_MB_CMD_GO w = 1 ∧ fldGet F.BOOT_MB_CMD_OP w = 2 ∧ mailboxBusy u = false ∧
      mailboxRefusal u = none ∧ v = (if (rd u Reg.BOOT_MB_LEN).toNat = imLength u stagingAt then imVerdict u
      stagingAt else stInvalidParam)) :=
  ⟨⟨⟨none, false, [], [], none⟩, (put [(Reg.BOOT_PFAIL, F.BOOT_PFAIL_LEVEL, 1)]), _, _, _, by decide +kernel,
    by decide +kernel, by decide +kernel, by decide +kernel, rfl, rfl, (fun _ => rfl), (fun _ h => nomatch h),
    by decide +kernel⟩,
    ⟨⟨none, true, [], [], none⟩, (put [(Reg.BOOT_PFAIL, F.BOOT_PFAIL_LEVEL, 1)]), _, _, _, by decide +kernel,
      by decide +kernel, by decide +kernel, by decide +kernel, rfl, rfl, (fun _ => rfl), (fun _ h => nomatch h),
      by decide +kernel⟩,
    ⟨⟨none, true, [], [], some .record⟩,
      { put [(Reg.BOOT_PFAIL, F.BOOT_PFAIL_LEVEL, 1)] with boot := { bootReset with powerOn := true } }, _, _, _,
      by decide +kernel, by decide +kernel, by decide +kernel, by decide +kernel, rfl, rfl, (fun _ => rfl),
      (fun _ h => nomatch h), by decide +kernel⟩,
    ⟨⟨none, true, [], [], none⟩,
      { put [(Reg.BOOT_PFAIL, F.BOOT_PFAIL_LEVEL, 0)] with boot := { bootReset with powerOn := true } }, _, _, _,
      by decide +kernel, by decide +kernel, by decide +kernel, by decide +kernel, rfl, rfl, (fun _ => rfl),
      (fun _ h => nomatch h), by decide +kernel⟩,
    ⟨romUpState, _, (resetRange (rclr
      { romUpState with boot := { romUpState.boot with supervisor := true, load := some 0 } } Reg.BOOT_STAT
      F.BOOT_STAT_MODE) Reg.BOOT_MB_ADDR_LO (Reg.BOOT_MB_STAT + 4)), _, by decide +kernel, by decide +kernel,
      by decide +kernel, rfl, fun _ => rfl, fun n h => absurd h.symm (Option.some_ne_none n), rfl⟩,
    ⟨(fldPut F.BOOT_MB_CMD_GO 1 (fldPut F.BOOT_MB_CMD_OP 1 0)), [0xA5], _, _, (wr (wr (put [(Reg.BOOT_STAT,
      F.BOOT_STAT_MODE, 1), (Reg.HIF_STAT, F.HIF_STAT_BME, 1), (Reg.BOOT_CTRL, F.BOOT_CTRL_FLASH_WR_EN,
      1)] ) Reg.BOOT_MB_LEN 1) Reg.BOOT_MB_CRC (BitVec.ofNat 32 (crc32c [0xA5]))), _, _, by decide +kernel, rfl, rfl,
      rfl, by decide +kernel, by decide +kernel, by decide +kernel, by decide +kernel, by decide +kernel,
      by decide +kernel, by decide +kernel, by decide +kernel, by decide +kernel, rfl⟩,
    ⟨0, [0xA5],
      { put [(Reg.BOOT_STAT, F.BOOT_STAT_MODE, 1)] with boot := { bootReset with work := some (.block 0 [0xA5], none) } },
      _, by decide +kernel, by decide +kernel, rfl, by decide +kernel⟩,
    ⟨(fldPut F.BOOT_MB_CMD_GO 1 (fldPut F.BOOT_MB_CMD_OP 2 0)), (put [(Reg.BOOT_STAT, F.BOOT_STAT_MODE, 1),
      (Reg.HIF_STAT, F.HIF_STAT_BME, 1), (Reg.BOOT_CTRL, F.BOOT_CTRL_FLASH_WR_EN, 1)] ), _, _, by decide +kernel,
      rfl, by decide +kernel, by decide +kernel, by decide +kernel, by decide +kernel, rfl⟩⟩

/-- States and operands that meet the hypotheses of each clause of `FlashWorkComplete`, in their order. -/
theorem witness_FlashWorkComplete :
    (∃ (d : DescRef) (bs : List Byte) (im : List Byte) (s : State) (u : State), ready s d 0x58 bs ∧
      u = markAccepted s d ∧ ron u Reg.BOOT_CTRL F.BOOT_CTRL_FLASH_WR_EN = true ∧ flashBusy u = false ∧
      im.length = leAt bs 8 4 ∧ crc32c im = leAt bs 24 4 ∧ (storeSections im).isSome = true) ∧
    (∃ (d : DescRef) (bs : List Byte) (block : List Byte) (s : State) (u : State), ready s d 0x60 bs ∧
      ron (markAccepted s d) Reg.BOOT_CTRL F.BOOT_CTRL_FLASH_WR_EN = true ∧ flashBusy (markAccepted s d) = false ∧
      leAt bs 8 4 + leAt bs 12 4 ≤ 25165824 ∧ block.length = leAt bs 12 4 ∧ crc32c block = leAt bs 24 4 ∧
      u = undoActivation (markAccepted s d)) ∧
    (∃ (d : DescRef) (bs : List Byte) (s : State) (u : State) (v : Nat), ready s d 0x61 bs ∧ u = markAccepted s d ∧
      ron u Reg.BOOT_CTRL F.BOOT_CTRL_FLASH_WR_EN = true ∧ flashBusy u = false ∧
      v = (if leAt bs 8 4 = imLength u stagingAt then imVerdict u stagingAt else stInvalidParam)) ∧
    (∃ (d : DescRef) (bs : List Byte) (s : State) (u : State), u = markAccepted s d ∧
      ron u Reg.BOOT_CTRL F.BOOT_CTRL_FLASH_WR_EN = false ∧ ready s d 0x58 bs) ∧
    (∃ (d : DescRef) (bs : List Byte) (s : State) (u : State), u = markAccepted s d ∧
      ron u Reg.BOOT_CTRL F.BOOT_CTRL_FLASH_WR_EN = false ∧ ready s d 0x60 bs) ∧
    (∃ (d : DescRef) (bs : List Byte) (s : State) (u : State), u = markAccepted s d ∧
      ron u Reg.BOOT_CTRL F.BOOT_CTRL_FLASH_WR_EN = false ∧ ready s d 0x61 bs) ∧
    (∃ (d : DescRef) (bs : List Byte) (s : State) (u : State), u = markAccepted s d ∧
      ron u Reg.BOOT_CTRL F.BOOT_CTRL_FLASH_WR_EN = true ∧ flashBusy u = true ∧ ready s d 0x58 bs) ∧
    (∃ (d : DescRef) (bs : List Byte) (s : State) (u : State), u = markAccepted s d ∧
      ron u Reg.BOOT_CTRL F.BOOT_CTRL_FLASH_WR_EN = true ∧ flashBusy u = true ∧ ready s d 0x60 bs ∧
      leAt bs 8 4 + leAt bs 12 4 ≤ 25165824) ∧
    (∃ (d : DescRef) (bs : List Byte) (s : State) (u : State), u = markAccepted s d ∧
      ron u Reg.BOOT_CTRL F.BOOT_CTRL_FLASH_WR_EN = true ∧ flashBusy u = true ∧ ready s d 0x61 bs) ∧
    (∃ (im : List Byte) (auto : Bool) (d : Option DescRef) (s : State) (u : State) (v : State) (h : StoreHeader),
      live s = true ∧ s.boot.work = some (.save im auto, d) ∧ u = { s with boot := { s.boot with work := none } } ∧
      h = ⟨storeGen u + 1, im.length, crc32c im, auto⟩ ∧ v = (copyOrder u).foldl (fun s c => writeCopy s h im c) u) ∧
    (∃ (j : FlashJob) (d : Option DescRef) (s : State) (u : State) (st : BitVec 8), live s = true ∧
      s.boot.work = some (j, d) ∧ (st, u) = takeFree (refreshFlashBusy (spoilWork s)) 8) ∧
    (∃ (o : Nat) (bs : List Byte) (d : Option DescRef) (s : State) (u : State), live s = true ∧
      s.boot.work = some (.block o bs, d) ∧ u = stageBlock { s with boot := { s.boot with work := none } } o bs) ∧
    (∃ (n : Nat) (d : Option DescRef) (s : State) (u : State), live s = true ∧ s.boot.work = some (.activate n, d) ∧
      u = activateStaged { s with boot := { s.boot with work := none } }) :=
  ⟨⟨⟨0, 0⟩, (descOf (0x58 + 8 * 2 ^ 64 + crc32c storeImage * 2 ^ 192)), storeImage,
    (posted (0x58 + 8 * 2 ^ 64 + crc32c storeImage * 2 ^ 192) (put [(Reg.BOOT_CTRL, F.BOOT_CTRL_FLASH_WR_EN, 1)])),
    _, by unfold ready; decide +kernel, rfl, by decide +kernel⟩,
    ⟨⟨0, 0⟩, (descOf (0x60 + 2 ^ 96 + crc32c [0xA5] * 2 ^ 192)), [0xA5],
      (posted (0x60 + 2 ^ 96 + crc32c [0xA5] * 2 ^ 192) (put [(Reg.BOOT_CTRL, F.BOOT_CTRL_FLASH_WR_EN, 1)])), _,
      by unfold ready; decide +kernel, by decide +kernel, by decide +kernel, by decide +kernel, by decide +kernel,
      by decide +kernel, rfl⟩,
    ⟨⟨0, 0⟩, (descOf (0x61)), (posted (0x61) (put [(Reg.BOOT_CTRL, F.BOOT_CTRL_FLASH_WR_EN, 1)])), _, _,
      by unfold ready; decide +kernel, rfl, by decide +kernel, by decide +kernel, rfl⟩,
    ⟨⟨0, 0⟩, (descOf (0x58 + 8 * 2 ^ 64)), (posted (0x58 + 8 * 2 ^ 64) (put [(Reg.BOOT_CTRL, F.BOOT_CTRL_FLASH_WR_EN,
      0)])), _, rfl, by decide +kernel, by unfold ready; decide +kernel⟩,
    ⟨⟨0, 0⟩, (descOf (0x60 + 2 ^ 96)), (posted (0x60 + 2 ^ 96) (put [(Reg.BOOT_CTRL, F.BOOT_CTRL_FLASH_WR_EN, 0)])),
      _, rfl, by decide +kernel, by unfold ready; decide +kernel⟩,
    ⟨⟨0, 0⟩, (descOf (0x61)), (posted (0x61) (put [(Reg.BOOT_CTRL, F.BOOT_CTRL_FLASH_WR_EN, 0)])), _, rfl,
      by decide +kernel, by unfold ready; decide +kernel⟩,
    ⟨⟨0, 0⟩, (descOf (0x58 + 8 * 2 ^ 64)), (posted (0x58 + 8 * 2 ^ 64)
      { put [(Reg.BOOT_CTRL, F.BOOT_CTRL_FLASH_WR_EN, 1)] with boot := { bootReset with work := some (.activate 0, none) } }),
      _, rfl, by decide +kernel, by decide +kernel, by unfold ready; decide +kernel⟩,
    ⟨⟨0, 0⟩, (descOf (0x60 + 2 ^ 96)), (posted (0x60 + 2 ^ 96)
      { put [(Reg.BOOT_CTRL, F.BOOT_CTRL_FLASH_WR_EN, 1)] with boot := { bootReset with work := some (.activate 0, none) } }),
      _, rfl, by decide +kernel, by decide +kernel, by unfold ready; decide +kernel, by decide +kernel⟩,
    ⟨⟨0, 0⟩, (descOf (0x61)), (posted (0x61)
      { put [(Reg.BOOT_CTRL, F.BOOT_CTRL_FLASH_WR_EN, 1)] with boot := { bootReset with work := some (.activate 0, none) } }),
      _, rfl, by decide +kernel, by decide +kernel, by unfold ready; decide +kernel⟩,
    ⟨storeImage, true, none,
      { State.reset with boot := { bootReset with work := some (.save storeImage true, none) } }, _, _, _,
      by decide +kernel, by decide +kernel, rfl, rfl, rfl⟩,
    ⟨.activate 4096, none, { State.reset with boot := { bootReset with work := some (.activate 4096, none) } }, _, _,
      by decide +kernel, by decide +kernel, rfl⟩,
    ⟨4096, [0xA5], none, { State.reset with boot := { bootReset with work := some (.block 4096 [0xA5], none) } }, _,
      by decide +kernel, by decide +kernel, rfl⟩,
    ⟨4096, none, { State.reset with boot := { bootReset with work := some (.activate 4096, none) } }, _,
      by decide +kernel, by decide +kernel, rfl⟩⟩

/-- States and operands that meet the hypotheses of each clause of `ManagementComplete`, in their order. -/
theorem witness_ManagementComplete :
    (∃ (a : Fin 128) (s : State), s.powered = true ∧ s.mgt.answers = true ∧
      mgtMatches (endTransfer (busTaken s)) a = false) ∧
    (∃ (a : Fin 128) (s : State) (u : State) (v : State), s.powered = true ∧ s.mgt.answers = true ∧
      u = endTransfer (busTaken s) ∧ mgtMatches u a = true ∧
      v = rput (rset u Reg.MGT_STAT F.MGT_STAT_BUSY) Reg.MGT_STAT F.MGT_STAT_LAST_ADDR a) ∧
    (∃ (a : Fin 128) (s : State) (u : State), s.powered = true ∧ s.mgt.answers = true ∧
      u = endTransfer (busTaken s) ∧ mgtMatches u a = true ∧ Memory.wf s = true) ∧
    (∃ (g : Bool) (x : Option Nat) (s : State) (u : State), s.powered = true ∧ s.mgt.answers = true ∧
      s.mgt.transfer = .writing 0 g x ∧ u = bytePassed s) ∧
    (∃ (n : Nat) (x : Option Nat) (s : State) (u : State), s.powered = true ∧ s.mgt.answers = true ∧
      u = bytePassed s ∧ s.mgt.transfer = .writing (n + 1) false x ∧ s.mgt.pointer < 0xC0) ∧
    (∃ (b : Byte) (n : Nat) (p : Nat) (g : Bool) (x : Option Nat) (s : State) (u : State) (v : State),
      s.powered = true ∧ s.mgt.answers = true ∧ s.mgt.transfer = .writing (n + 1) g x ∧ p = s.mgt.pointer ∧
      0xC0 < p ∧ u = sendOut (bytePassed s) (.mgtAck true) ∧
      v = rset (rput u (Reg.MGT_CTRLBUF ((p - 0xC0) / 4)) ⟨8 * (p % 4), 8⟩ b.toNat) Reg.MGT_STAT F.MGT_STAT_RX_BUSY) ∧
    (∃ (s : State) (u : State), s.powered = true ∧ s.mgt.answers = true ∧ s.mgt.transfer = .reading ∧
      u = bytePassed s) ∧
    (∃ (s : State), s.powered = true ∧ s.mgt.answers = true) ∧
    (∃ (s : State) (u : State), s.powered = true ∧ s.mgt.answers = true ∧ s.mgt.transfer ≠ .idle ∧ u = busTaken s) ∧
    (∃ (s : State), s.powered = true ∧ s.mgt.answers = true ∧ s.mgt.transfer ≠ .idle ∧
      ticksReach (recorderNow s - s.mgt.lastAt) (1000 * max 1 (rget s Reg.MGT_TIMEOUT F.MGT_TIMEOUT_SDA_MS)) = true) ∧
    (∃ (s : State), hostMay s) ∧
    (∃ (w : Word) (s : State) (u : State), hostMay s ∧ u = rwrite s Reg.MGT_ADDR w) ∧
    (∃ (s : State), s.powered = true ∧ s.mgt.answers = true ∧ ron s Reg.MGT_ATTN F.MGT_ATTN_PENDING = true ∧
      s.mgt.pulse = none ∧ s.mgt.transfer = .idle ∧ mgtIdle s = true) ∧
    (∃ (s : State) (c : Nat), s.powered = true ∧ s.mgt.answers = true ∧ s.mgt.pulse = some c ∧
      ticksReach (recorderNow s - c) (max 1 (rget s Reg.MGT_ATTN_CFG F.MGT_ATTN_CFG_WIDTH_US)) = true) ∧
    (∃ (s : State) (u : State) (v : State), s.mgt.again = false ∧
      u = sendOut (busIdle { s with mgt := { s.mgt with pulse := none, again := false } }) (.mgtSda false) ∧
      v = rset (rclr u Reg.MGT_ATTN F.MGT_ATTN_PENDING) Reg.MGT_ATTN F.MGT_ATTN_SENT) ∧
    (∃ (s : State) (u : State) (c : Nat), s.powered = true ∧ s.mgt.answers = true ∧ s.mgt.pulse = some c ∧
      u = sendOut (busTaken { s with mgt := { s.mgt with pulse := none, again := false } }) (.mgtSda false)) ∧
    (∃ (s : State) (t : Nat), s.powered = true ∧ s.mgt.answers = true ∧
      t = rget s Reg.MGT_ATTN_CFG F.MGT_ATTN_CFG_REPEAT ∧ t ≠ 0 ∧ mgtEnabled s ≠ 0 ∧
      ticksReach (recorderNow s - s.mgt.repeatAt) (1000000 * t) = true) ∧
    (∃ (s : State), hostMay s) ∧
    (∃ (s : State), s.powered = true ∧ s.mgt.answers = true ∧ supervisorRuns s = true) :=
  ⟨⟨7, { State.reset with mgt := { State.reset.mgt with answers := true } }, by decide +kernel⟩,
    ⟨0x48, { State.reset with mgt := { State.reset.mgt with answers := true } }, _, _, by decide +kernel,
      by decide +kernel, rfl, by decide +kernel, rfl⟩,
    ⟨0x48, { State.reset with mgt := { State.reset.mgt with answers := true } }, _, by decide +kernel,
      by decide +kernel, rfl, by decide +kernel⟩,
    ⟨false, none,
      { State.reset with mgt := { State.reset.mgt with answers := true, transfer := .writing 0 false none } }, _,
      by decide +kernel, by decide +kernel, by decide +kernel, rfl⟩,
    ⟨0, none,
      { State.reset with mgt := { State.reset.mgt with answers := true, transfer := .writing 1 false none, pointer := 0xBF } },
      _, by decide +kernel, by decide +kernel, rfl, by decide +kernel⟩,
    ⟨0, 0, _, false, none,
      { State.reset with mgt := { State.reset.mgt with answers := true, transfer := .writing 1 false none, pointer := 0xC1 } },
      _, _, by decide +kernel, by decide +kernel, by decide +kernel, rfl, by decide +kernel, rfl, rfl⟩,
    ⟨{ State.reset with mgt := { State.reset.mgt with answers := true, transfer := .reading } }, _,
      by decide +kernel, by decide +kernel, by decide +kernel, rfl⟩,
    ⟨{ State.reset with mgt := { State.reset.mgt with answers := true } }, by decide +kernel⟩,
    ⟨{ State.reset with mgt := { State.reset.mgt with answers := true, transfer := .reading } }, _,
      by decide +kernel, by decide +kernel, by decide +kernel, rfl⟩,
    ⟨{ later with mgt := { State.reset.mgt with answers := true, transfer := .reading, lastAt := 0 } },
      by decide +kernel⟩,
    ⟨State.reset, by unfold hostMay; decide +kernel⟩,
    ⟨0, State.reset, _, by unfold hostMay; decide +kernel, rfl⟩,
    ⟨{ put [(Reg.MGT_ATTN, F.MGT_ATTN_PENDING, 1)] later with mgt := { State.reset.mgt with answers := true, idleAt := some 0 } },
      by decide +kernel⟩,
    ⟨{ later with mgt := { State.reset.mgt with answers := true, pulse := some 0 } }, 0, by decide +kernel⟩,
    ⟨State.reset, _, _, by decide +kernel, rfl, rfl⟩,
    ⟨{ State.reset with mgt := { State.reset.mgt with answers := true, pulse := some 0 } }, _, 0, by decide +kernel,
      by decide +kernel, by decide +kernel, rfl⟩,
    ⟨{ put [(Reg.MGT_ATTN_CFG, F.MGT_ATTN_CFG_REPEAT, 1), (Reg.MGT_ATTN_CFG, F.MGT_ATTN_CFG_EN, 1), (Reg.MGT_ATTN, F.MGT_ATTN_CAUSE, 1)] later with mgt := { State.reset.mgt with answers := true } },
      _, by decide +kernel, by decide +kernel, rfl, by decide +kernel⟩,
    ⟨State.reset, by unfold hostMay; decide +kernel⟩,
    ⟨{ State.reset with mgt := { State.reset.mgt with answers := true }, boot := { bootReset with supervisor := true } },
      by decide +kernel⟩⟩

end Sys2Proof.Tests
end

/-! PROOFS. Writes of BAR0 words: what a write leaves in each field of a register, which registers the blocks of BAR0
take under their access codes alone, and what REGISTER_WRITE does in each state of the host die. -/

namespace Sys2Proof.Machine
open Sys2Proof Sys2Proof.Safety

/-! ## The fields of one register -/

/-- The fields of a register lie within its word, each apart from the others. -/
abbrev fieldsApart (fs : List FieldRow) : Prop :=
  (∀ f ∈ fs, f.lo + f.width ≤ 32) ∧ fs.Pairwise (fun f g => f.lo + f.width ≤ g.lo ∨ g.lo + g.width ≤ f.lo)

/-- Every register table of BAR0 keeps its fields apart. -/
theorem hostBlocks_fieldsApart : ∀ b ∈ hostBlocks, ∀ r ∈ b.2.2, fieldsApart r.fields := by decide +kernel

theorem hostRow_fieldsApart {a : Nat} {r : RegRow} (h : hostRow a = some r) : fieldsApart r.fields := by
  unfold hostRow at h
  split at h
  · cases h
  · rename_i b hb
    exact hostBlocks_fieldsApart b (List.mem_of_find?_eq_some hb) r (List.mem_of_find?_eq_some h)

theorem fldPut_getLsbD_outside {f : Fld} {v : Nat} {w : Word} {i : Nat} (h : i < f.lo ∨ f.lo + f.width ≤ i) :
    (fldPut f v w).getLsbD i = w.getLsbD i := by
  by_cases hi : i < 32
  · rw [fldPut_getLsbD f v w i hi, if_neg (by omega)]
  · rw [BitVec.getLsbD_of_ge _ _ (by omega), BitVec.getLsbD_of_ge _ _ (by omega)]

/-- A field that takes its value from another word reads what that word holds there. -/
theorem fldGet_fldPut_fldGet {f : Fld} {v w : Word} (h : f.lo + f.width ≤ 32) :
    fldGet f (fldPut f (fldGet f v) w) = fldGet f v := by
  rw [fldGet_fldPut_same h, fldGet, Nat.mod_mod]

/-- What one field's access code makes of a word under a write: the step of `writeFields`. -/
def writeField (locked : Bool) (old new w : Word) (f : FieldRow) : Word :=
  match f.acc with
  | .rw => fldPut ⟨f.lo, f.width⟩ (fldGet ⟨f.lo, f.width⟩ new) w
  | .rwl => if locked then w else fldPut ⟨f.lo, f.width⟩ (fldGet ⟨f.lo, f.width⟩ new) w
  | .w1c => fldPut ⟨f.lo, f.width⟩ (fldGet ⟨f.lo, f.width⟩ (old &&& ~~~new)) w
  | .ro | .wo => w

theorem writeFields_eq_foldl (fs : List FieldRow) (locked : Bool) (old new : Word) :
    writeFields fs locked old new = fs.foldl (writeField locked old new) old := rfl

/-- One field's write keeps the word or puts some value into the field. -/
theorem writeField_cases (locked : Bool) (old new w : Word) (f : FieldRow) :
    writeField locked old new w f = w ∨ ∃ v, writeField locked old new w f = fldPut ⟨f.lo, f.width⟩ v w := by
  unfold writeField
  cases f.acc with
  | rw => exact .inr ⟨_, rfl⟩
  | rwl => cases locked with
    | false => exact .inr ⟨_, rfl⟩
    | true => exact .inl rfl
  | w1c => exact .inr ⟨_, rfl⟩
  | ro => exact .inl rfl
  | wo => exact .inl rfl

theorem writeField_getLsbD_outside {locked : Bool} {old new w : Word} {f : FieldRow} {i : Nat}
    (h : i < f.lo ∨ f.lo + f.width ≤ i) : (writeField locked old new w f).getLsbD i = w.getLsbD i := by
  obtain e | ⟨v, e⟩ := writeField_cases locked old new w f
  · rw [e]
  · rw [e, fldPut_getLsbD_outside h]

theorem fldGet_writeField_other {locked : Bool} {old new w : Word} {f g : FieldRow} (hg : g.lo + g.width ≤ 32)
    (h : f.lo + f.width ≤ g.lo ∨ g.lo + g.width ≤ f.lo) :
    fldGet ⟨g.lo, g.width⟩ (writeField locked old new w f) = fldGet ⟨g.lo, g.width⟩ w := by
  obtain e | ⟨v, e⟩ := writeField_cases locked old new w f
  · rw [e]
  · rw [e, fldGet_fldPut_other hg h]

/-- A field's own write leaves in it what its access code says, if the field still held its old value (R15). -/
theorem fldGet_writeField_same {locked : Bool} {old new w : Word} {f : FieldRow} (hf : f.lo + f.width ≤ 32)
    (hw : fldGet ⟨f.lo, f.width⟩ w = fldGet ⟨f.lo, f.width⟩ old) :
    fldGet ⟨f.lo, f.width⟩ (writeField locked old new w f) = fieldAfter f locked old new := by
  unfold writeField fieldAfter
  cases f.acc with
  | rw => exact fldGet_fldPut_fldGet hf
  | rwl => cases locked with
    | false => exact fldGet_fldPut_fldGet hf
    | true => exact hw
  | w1c => exact fldGet_fldPut_fldGet hf
  | ro => exact hw
  | wo => exact hw

/-- A field apart from all those written keeps what it held. -/
theorem fldGet_foldl_writeField_other {locked : Bool} {old new : Word} {g : FieldRow} (hg : g.lo + g.width ≤ 32) :
    ∀ (fs : List FieldRow) (w : Word), (∀ f ∈ fs, g.lo + g.width ≤ f.lo ∨ f.lo + f.width ≤ g.lo) →
      fldGet ⟨g.lo, g.width⟩ (fs.foldl (writeField locked old new) w) = fldGet ⟨g.lo, g.width⟩ w
  | [], _, _ => rfl
  | f :: fs, w, h => by
    obtain ⟨hf, hfs⟩ := List.forall_mem_cons.mp h
    rw [List.foldl_cons, fldGet_foldl_writeField_other hg fs _ hfs, fldGet_writeField_other hg hf.symm]

/-- Each field reads what its access code says, once the fields of a register have been written one after another
onto a word that holds the old fields. -/
theorem fldGet_foldl_writeField {locked : Bool} {old new : Word} :
    ∀ (fs : List FieldRow) (w : Word), fieldsApart fs →
      (∀ f ∈ fs, fldGet ⟨f.lo, f.width⟩ w = fldGet ⟨f.lo, f.width⟩ old) →
      ∀ f ∈ fs, fldGet ⟨f.lo, f.width⟩ (fs.foldl (writeField locked old new) w) = fieldAfter f locked old new
  | [], _, _, _, _, hf => absurd hf List.not_mem_nil
  | g :: fs, w, ⟨hin, hapart⟩, hold, f, hf => by
    obtain ⟨hg, hfs⟩ := List.forall_mem_cons.mp hin
    obtain ⟨hgfs, hpair⟩ := List.pairwise_cons.mp hapart
    obtain ⟨holdg, holdfs⟩ := List.forall_mem_cons.mp hold
    rw [List.foldl_cons]
    obtain rfl | hf := List.mem_cons.mp hf
    · rw [fldGet_foldl_writeField_other hg fs _ hgfs, fldGet_writeField_same hg holdg]
    · refine fldGet_foldl_writeField fs _ ⟨hfs, hpair⟩ (fun k hk => ?_) f hf
      rw [fldGet_writeField_other (hfs k hk) (hgfs k hk), holdfs k hk]

/-- A write of a register leaves in each field what its access code says (R15). -/
theorem fldGet_writeFields {fs : List FieldRow} {f : FieldRow} {locked : Bool} {old new : Word} (h : fieldsApart fs)
    (hf : f ∈ fs) : fldGet ⟨f.lo, f.width⟩ (writeFields fs locked old new) = fieldAfter f locked old new := by
  rw [writeFields_eq_foldl, fldGet_foldl_writeField fs old h (fun _ _ => rfl) f hf]

theorem foldl_writeField_getLsbD_outside {locked : Bool} {old new : Word} {i : Nat} :
    ∀ (fs : List FieldRow) (w : Word), (∀ f ∈ fs, i < f.lo ∨ f.lo + f.width ≤ i) →
      (fs.foldl (writeField locked old new) w).getLsbD i = w.getLsbD i
  | [], _, _ => rfl
  | f :: fs, w, h => by
    obtain ⟨hf, hfs⟩ := List.forall_mem_cons.mp h
    rw [List.foldl_cons, foldl_writeField_getLsbD_outside fs _ hfs, writeField_getLsbD_outside hf]

/-- A write of a register keeps every bit outside its fields (R16). -/
theorem writeFields_getLsbD_outside {fs : List FieldRow} {locked : Bool} {old new : Word} {i : Nat}
    (h : ∀ f ∈ fs, i < f.lo ∨ f.lo + f.width ≤ i) : (writeFields fs locked old new).getLsbD i = old.getLsbD i := by
  rw [writeFields_eq_foldl, foldl_writeField_getLsbD_outside fs old h]

/-! ## `rwrite` -/

theorem rwrite_no_row {s : State} {a : Nat} {w : Word} (h : hostRow a = none) : rwrite s a w = s := by
  rw [rwrite, h]

theorem rwrite_row {s : State} {a : Nat} {w : Word} {r : RegRow} (h : hostRow a = some r) :
    rwrite s a w = wr s a (writeFields r.fields (ron s Reg.SYS_LOCK F.SYS_LOCK_LOCK) (rd s a) w) := by
  rw [rwrite, h]

theorem rd_rwrite_same {s : State} {a : Nat} {w : Word} {r : RegRow} (hs : Memory.wf s = true) (h : hostRow a = some r) :
    rd (rwrite s a w) a = writeFields r.fields (ron s Reg.SYS_LOCK F.SYS_LOCK_LOCK) (rd s a) w := by
  rw [rwrite_row h, rd_wr_same hs]

theorem rd_rwrite_other {s : State} {a b : Nat} {w : Word} (hs : Memory.wf s = true) (n : b ≠ a) :
    rd (rwrite s a w) b = rd s b := by
  cases h : hostRow a with
  | none => rw [rwrite_no_row h]
  | some r => rw [rwrite_row h, rd_wr_other hs n]

/-! ## Registers whose write acts

A register for which `writeActs` is false is none of those that the blocks of BAR0 single out. -/

section Plain
variable {s : State} {a : Nat} {w : Word}

/-- An acting register is another one; that a named register acts is found by evaluation. -/
theorem ne_of_writeActs {r : Nat} (h : writeActs a = false) (hr : writeActs r = true := by decide +kernel) : a ≠ r := by
  rintro rfl
  exact Bool.false_ne_true (h.symm.trans hr)

theorem copyAt_eq_none {f : Nat → Nat} {n : Nat} (h : writeActs a = false)
    (hf : ∀ i < n, writeActs (f i) = true := by decide +kernel) : copyAt f n a = none := by
  refine List.find?_eq_none.mpr fun i hi => ?_
  have hne := ne_of_writeActs h (hf i (List.mem_range.mp hi))
  simpa using hne.symm

theorem sharedWrite_eq_none (h : writeActs a = false) : sharedWrite a = none := by
  cases hw : sharedWrite a with
  | none => rfl
  | some f => simp [writeActs, hw] at h

theorem not_ref_of_writeActs (h : writeActs a = false) : ¬(0x2000 ≤ a ∧ a < 0x3000) := by
  rintro ⟨lo, hi⟩
  simp [writeActs, lo, hi] at h

theorem not_flt_of_writeActs (h : writeActs a = false) : ¬(0x4000 ≤ a ∧ a < 0x5000) := by
  rintro ⟨lo, hi⟩
  simp [writeActs, lo, hi] at h

theorem not_queuePair_of_writeActs (h : writeActs a = false) : ¬(Reg.HIF_QP_SQ_LO 0 ≤ a ∧ a < 0x2000) := by
  rintro ⟨lo, hi⟩
  simp [writeActs, lo, hi] at h

theorem not_mailbox_of_writeActs (h : writeActs a = false) : ¬(Reg.BOOT_MB_ADDR_LO ≤ a ∧ a ≤ Reg.BOOT_MB_STAT) := by
  rintro ⟨lo, hi⟩
  simp [writeActs, lo, hi] at h

theorem not_priority_of_writeActs (h : writeActs a = false) : ¬(Reg.MTX_PRI_LO 0 ≤ a ∧ a < Reg.MTX_PRI_LO 24) := by
  rintro ⟨lo, hi⟩
  simp [writeActs, lo, hi] at h

theorem not_tdmSetting_of_writeActs {n : Nat} (h : writeActs a = false) (hn : n < 16) :
    ¬(Reg.TDM_RATE n ≤ a ∧ a ≤ Reg.TDM_CHBASE n) := by
  rintro ⟨lo, hi⟩
  have hany : (List.range 16).any (fun n => decide (Reg.TDM_RATE n ≤ a) && decide (a ≤ Reg.TDM_CHBASE n)) = true :=
    List.any_eq_true.mpr ⟨n, List.mem_range.mpr hn, by rw [decide_eq_true lo, decide_eq_true hi]; rfl⟩
  simp only [writeActs, hany, Bool.or_true, Bool.true_or, Bool.true_eq_false] at h

/-! ## The blocks of BAR0 take a register that does not act under its access codes -/

theorem writeSys_eq_rwrite (h : writeActs a = false) : writeSys s a w = rwrite s a w := by
  have hecc : [MemClass.rod, .frame, .gsram, .dram, .brass].find? (fun c => ecReg c == a) = none := by
    refine List.find?_eq_none.mpr fun c _ => ?_
    have hc : writeActs (ecReg c) = true := by cases c <;> decide +kernel
    simpa using (ne_of_writeActs h hc).symm
  rw [writeSys, if_neg (ne_of_writeActs h), if_neg (ne_of_writeActs h), if_neg (ne_of_writeActs h), hecc]

theorem writeHif_eq_rwrite (h : writeActs a = false) (hi : a < 0x2000) : writeHif s a w = rwrite s a w := by
  have hq : a < Reg.HIF_QP_SQ_LO 0 := Nat.not_le.mp fun hq => not_queuePair_of_writeActs h ⟨hq, hi⟩
  rw [writeHif, if_neg (ne_of_writeActs h), if_pos hq]

theorem writeTime_eq_rwrite (h : writeActs a = false) : writeTime s a w = rwrite s a w := by
  rw [writeTime, if_neg (ne_of_writeActs h), if_neg (ne_of_writeActs h), if_neg (ne_of_writeActs h)]

theorem writeEvr_eq_rwrite (h : writeActs a = false) : writeEvr s a w = rwrite s a w := by
  rw [writeEvr, if_neg (ne_of_writeActs h), if_neg (ne_of_writeActs h)]

theorem writeBoot_eq_rwrite (h : writeActs a = false) : writeBoot s a w = rwrite s a w :=
  if_neg (not_mailbox_of_writeActs h)

theorem writeMgt_eq_rwrite (h : writeActs a = false) : writeMgt s a w = rwrite s a w := by
  rw [writeMgt, if_neg (ne_of_writeActs h), if_neg (ne_of_writeActs h)]

theorem writeStk_eq_rwrite (h : writeActs a = false) : writeStk s a w = rwrite s a w :=
  if_neg (ne_of_writeActs h)

theorem writeMtx_eq_rwrite (h : writeActs a = false) : writeMtx s a w = rwrite s a w := by
  rw [writeMtx, if_neg (ne_of_writeActs h), if_neg (not_priority_of_writeActs h)]

theorem writeNet_eq_rwrite (h : writeActs a = false) : writeNet s a w = rwrite s a w := by
  rw [writeNet, copyAt_eq_none h]

theorem writeStr_eq_rwrite (h : writeActs a = false) : writeStr s a w = rwrite s a w :=
  if_neg (ne_of_writeActs h)

theorem tdmStat_acts : ∀ n < 16, writeActs (Reg.TDM_STAT n) = true := by decide +kernel

theorem tdmRawCtrl_acts : ∀ n < 16, writeActs (Reg.TDM_RAW_CTRL n) = true := by decide +kernel

theorem writeTdm_eq_rwrite (h : writeActs a = false) (hi : a < 0x24000) : writeTdm s a w = rwrite s a w := by
  have hn : (a - Reg.TDM_CTRL 0) / 0x400 < 16 := by
    show (a - 0x20000) / 0x400 < 16
    omega
  rw [writeTdm, if_neg (ne_of_writeActs h (tdmStat_acts _ hn)), if_neg (ne_of_writeActs h (tdmRawCtrl_acts _ hn)),
    if_neg (not_tdmSetting_of_writeActs h hn)]

theorem writeBph_eq_rwrite (h : writeActs a = false) : writeBph s a w = rwrite s a w := by
  rw [writeBph, copyAt_eq_none h, copyAt_eq_none h, copyAt_eq_none h]

theorem writeFab_eq_rwrite (h : writeActs a = false) : writeFab s a w = rwrite s a w := by
  rw [writeFab, if_neg (ne_of_writeActs h), if_neg (ne_of_writeActs h)]

theorem writeRod_eq_rwrite (h : writeActs a = false) : writeRod s a w = rwrite s a w := by
  rw [writeRod, copyAt_eq_none h]

theorem writeMix_eq_rwrite (h : writeActs a = false) : writeMix s a w = rwrite s a w := by
  rw [writeMix, if_neg (ne_of_writeActs h), if_neg (ne_of_writeActs h),
    if_neg (ne_of_writeActs h), if_neg (ne_of_writeActs h)]

theorem writeSnp_eq_rwrite (h : writeActs a = false) : writeSnp s a w = rwrite s a w := by
  rw [writeSnp, if_neg (ne_of_writeActs h), if_neg (ne_of_writeActs h),
    if_neg (ne_of_writeActs h)]

theorem barCntClr_acts (d : Die) : writeActs (Reg.BAR_CNT_CLR (dieNum d)) = true := by
  cases d <;> decide +kernel

theorem writeBar_eq_rwrite (h : writeActs a = false) (hd : absentBlock s a = false) : writeBar s a w = rwrite s a w := by
  rw [writeBar, if_neg (ne_true_of_eq_false hd), if_neg (ne_of_writeActs h (barCntClr_acts _))]

theorem writeMsix_eq_rwrite (h : writeActs a = false) : writeMsix s a w = rwrite s a w := by
  rw [writeMsix, copyAt_eq_none h]

/-- The blocks of BAR0 give a register that does not act no meaning but its access codes. -/
theorem blockWrites_eq_rwrite (h : writeActs a = false) (hd : absentBlock s a = false) :
    ∀ b ∈ blockWrites, b.1 ≤ a → a < b.2.1 → b.2.2 s a w = rwrite s a w := by
  simp only [blockWrites, List.forall_mem_cons]
  exact ⟨fun _ _ => writeSys_eq_rwrite h, fun _ hi => writeHif_eq_rwrite h hi,
    fun lo hi => absurd ⟨lo, hi⟩ (not_ref_of_writeActs h), fun _ _ => writeTime_eq_rwrite h,
    fun lo hi => absurd ⟨lo, hi⟩ (not_flt_of_writeActs h), fun _ _ => writeEvr_eq_rwrite h,
    fun _ _ => writeBoot_eq_rwrite h, fun _ _ => writeMgt_eq_rwrite h, fun _ _ => writeStk_eq_rwrite h,
    fun _ _ => writeMtx_eq_rwrite h, fun _ _ => writeNet_eq_rwrite h, fun _ _ => writeStr_eq_rwrite h,
    fun _ hi => writeTdm_eq_rwrite h hi, fun _ _ => writeBph_eq_rwrite h, fun _ _ => writeFab_eq_rwrite h,
    fun _ _ => writeRod_eq_rwrite h, fun _ _ => writeMix_eq_rwrite h, fun _ _ => writeSnp_eq_rwrite h,
    fun _ _ => writeBar_eq_rwrite h hd, fun _ _ => writeMsix_eq_rwrite h, fun _ hb => absurd hb List.not_mem_nil⟩

/-- A register that does not act is written under its access codes wherever it lies (R15, R420). -/
theorem busWrite_eq_rwrite (h : writeActs a = false) (hd : absentBlock s a = false) :
    busWrite s a w = rwrite s a w := by
  rw [busWrite, sharedWrite_eq_none h]
  cases hb : blockWrites.find? (fun b => decide (b.1 ≤ a) && decide (a < b.2.1)) with
  | none => rfl
  | some b =>
    have hin := List.find?_some hb
    rw [Bool.and_eq_true, decide_eq_true_eq, decide_eq_true_eq] at hin
    exact blockWrites_eq_rwrite h hd b (List.mem_of_find?_eq_some hb) hin.1 hin.2

end Plain

/-! ## The selector's control register and the mailbox -/

theorem busWrite_refCtrl (s : State) (w : Word) :
    busWrite s Reg.REF_CTRL w = afterRefWrite (rwrite s Reg.REF_CTRL w) Reg.REF_CTRL := by
  have hshared : sharedWrite Reg.REF_CTRL = none := by decide +kernel
  rw [busWrite, hshared]
  rfl

theorem busWrite_mbOffset (s : State) (w : Word) : busWrite s Reg.BOOT_MB_OFFSET w = s := by
  have hshared : sharedWrite Reg.BOOT_MB_OFFSET = none := rfl
  rw [busWrite, hshared]
  rfl

/-! ## REGISTER_WRITE -/

section Exec
variable {a : Fin 262144} {w : Word} {s : State}

theorem powered_of_live (h : live s = true) : s.powered = true := (Bool.and_eq_true_iff.mp h).1

theorem registerWrite_may (h : hostMay s) : exec (.registerWrite a w) s = .next (busWrite s (4 * a.val) w) := by
  obtain ⟨hlive, hopen⟩ := h
  show execRegisterWrite a w s = _
  simp [execRegisterWrite, powered_of_live hlive, hlive, hopen]

theorem registerWrite_recovery (hp : s.powered = true) (hl : live s = false) :
    exec (.registerWrite a w) s = .next (recoveryWrite s (4 * a.val) w) := by
  show execRegisterWrite a w s = _
  simp [execRegisterWrite, hp, hl]

/-- A write that the bus matrix does not let through fails with its error (R46, R53). -/
theorem registerWrite_closed (hl : live s = true) (hb : barOpen s = false) : exec (.registerWrite a w) s =
    .next (requestFails s 9 20 (4 * a.val) (requestError s 9 20 0)) := by
  show execRegisterWrite a w s = _
  simp [execRegisterWrite, powered_of_live hl, hl, hb]

end Exec

/-- Settles O10: each clause is what REGISTER_WRITE gives in one state of the host die, and what `writeFields` leaves
in a register whose fields lie apart. -/
theorem registerWriteComplete : Obligations.RegisterWriteComplete := by
  unfold Obligations.RegisterWriteComplete
  refine ⟨?plain, ?field, ?outside, ?others, ?noRow, ?refCtrl, ?mailbox, ?recoveryBelow, ?recoveryBoot, ?closed⟩
  case plain =>
    intro a w s hmay hplain hhere
    rw [registerWrite_may hmay, busWrite_eq_rwrite hplain hhere]
  case field =>
    intro a r f w s hs hrow hf
    rw [rd_rwrite_same hs hrow, fldGet_writeFields (hostRow_fieldsApart hrow) hf]
  case outside =>
    intro a i r w s hs hrow hi
    rw [rd_rwrite_same hs hrow, writeFields_getLsbD_outside hi]
  case others => exact fun a b w s hs hne => rd_rwrite_other hs hne
  case noRow => exact fun a w s hrow => rwrite_no_row hrow
  case refCtrl =>
    intro w s hmay
    rw [registerWrite_may hmay]
    exact congrArg _ (busWrite_refCtrl s w)
  case mailbox =>
    intro w s hmay
    rw [registerWrite_may hmay]
    exact congrArg _ (busWrite_mbOffset s w)
  case recoveryBelow =>
    intro a w s hp hl hlow
    rw [registerWrite_recovery hp hl, recoveryWrite, if_neg (by omega)]
  case recoveryBoot =>
    intro a w s hp hl hlo hhi
    rw [registerWrite_recovery hp hl, recoveryWrite, if_pos (by omega)]
  case closed => exact fun a w s hl hb => registerWrite_closed hl hb

end Sys2Proof.Machine

/-! PROOFS. Every step keeps the canonical form of the memories: the laws of Laws/Keeps*.lean, one for each command. -/

namespace Sys2Proof.Machine
open Sys2Proof Sys2Proof.Safety

/-- Every command keeps the canonical form: the law of its own meaning says so. -/
theorem exec_wf {i : Instr} {s : State} (h : Keep memKept s = true) : OW memKept (exec i s) :=
  match i with
  | .powerOn .. => execPowerOn_wf h
  | .powerDown => execPowerDown_wf h
  | .rstN .. => execRstN_wf h
  | .hostRailMonitor .. => execHostRailMonitor_wf h
  | .perstN => execPerstN_wf h
  | .functionLevelReset => execFunctionLevelReset_wf h
  | .pcieLinkDown => execPcieLinkDown_wf h
  | .chipReset .. => execChipReset_wf h
  | .pfailFall => execPfailFall_wf h
  | .pfailRise => execPfailRise_wf h
  | .xoInLost => execXoInLost_wf h
  | .xoInReturn => execXoInReturn_wf h
  | .blockBoundary => execBlockBoundary_wf h
  | .rodPassStart .. => execRodPassStart_wf h
  | .warnThreshold .. => execWarnThreshold_wf h
  | .computeBudgetEnd .. => execComputeBudgetEnd_wf h
  | .exportWindowEnd => execExportWindowEnd_wf h
  | .interruptAccept .. => execInterruptAccept_wf h
  | .rodHalt .. => execRodHalt_wf h
  | .rodNop .. => execRodNop_wf h
  | .rodLdi .. => execRodLdi_wf h
  | .rodMovr .. => execRodMovr_wf h
  | .rodAdd .. => execRodAdd_wf h
  | .rodSub .. => execRodSub_wf h
  | .rodAddi .. => execRodAddi_wf h
  | .rodSubi .. => execRodSubi_wf h
  | .rodCmp .. => execRodCmp_wf h
  | .rodAnd .. => execRodAnd_wf h
  | .rodOr .. => execRodOr_wf h
  | .rodXor .. => execRodXor_wf h
  | .rodNot .. => execRodNot_wf h
  | .rodAsl .. => execRodAsl_wf h
  | .rodAsr .. => execRodAsr_wf h
  | .rodLsl .. => execRodLsl_wf h
  | .rodLsr .. => execRodLsr_wf h
  | .rodAbs .. => execRodAbs_wf h
  | .rodNeg .. => execRodNeg_wf h
  | .rodMin .. => execRodMin_wf h
  | .rodMax .. => execRodMax_wf h
  | .rodAmax .. => execRodAmax_wf h
  | .rodClr .. => execRodClr_wf h
  | .rodMova .. => execRodMova_wf h
  | .rodAdda .. => execRodAdda_wf h
  | .rodSuba .. => execRodSuba_wf h
  | .rodNega .. => execRodNega_wf h
  | .rodAbsa .. => execRodAbsa_wf h
  | .rodShla .. => execRodShla_wf h
  | .rodShra .. => execRodShra_wf h
  | .rodRnda .. => execRodRnda_wf h
  | .rodSata .. => execRodSata_wf h
  | .rodLda .. => execRodLda_wf h
  | .rodLdal .. => execRodLdal_wf h
  | .rodExt .. => execRodExt_wf h
  | .rodExtl .. => execRodExtl_wf h
  | .rodExtg .. => execRodExtg_wf h
  | .rodTsta .. => execRodTsta_wf h
  | .rodMpy .. => execRodMpy_wf h
  | .rodMac .. => execRodMac_wf h
  | .rodMsu .. => execRodMsu_wf h
  | .rodMpy2 .. => execRodMpy2_wf h
  | .rodMac2 .. => execRodMac2_wf h
  | .rodMsu2 .. => execRodMsu2_wf h
  | .rodMpyx .. => execRodMpyx_wf h
  | .rodMacx .. => execRodMacx_wf h
  | .rodTap .. => execRodTap_wf h
  | .rodTap2 .. => execRodTap2_wf h
  | .rodTapm .. => execRodTapm_wf h
  | .rodExp .. => execRodExp_wf h
  | .rodBexp .. => execRodBexp_wf h
  | .rodNorm .. => execRodNorm_wf h
  | .rodDivs .. => execRodDivs_wf h
  | .rodRep .. => execRodRep_wf h
  | .rodLoop .. => execRodLoop_wf h
  | .rodEndl .. => execRodEndl_wf h
  | .rodB .. => execRodB_wf h
  | .rodCall .. => execRodCall_wf h
  | .rodRet .. => execRodRet_wf h
  | .rodRti .. => execRodRti_wf h
  | .rodTrap .. => execRodTrap_wf h
  | .rodEnd .. => execRodEnd_wf h
  | .illegalEncoding .. => execIllegalEncoding_wf h
  | .rodCtrlEn .. => execRodCtrlEn_wf h
  | .haltReq .. => execHaltReq_wf h
  | .unfence .. => execUnfence_wf h
  | .clrStats .. => execClrStats_wf h
  | .loadProgram .. => execLoadProgram_wf h
  | .sampleSendInstant .. => execSampleSendInstant_wf h
  | .fabricWrite .. => execFabricWrite_wf h
  | .sysLock .. => execSysLock_wf h
  | .sysBlkcfgWrite .. => execSysBlkcfgWrite_wf h
  | .pipeRunWrite .. => execPipeRunWrite_wf h
  | .sysBlkidxLoRead => execSysBlkidxLoRead_wf h
  | .eccCeClr .. => execEccCeClr_wf h
  | .patrolScrub .. => execPatrolScrub_wf h
  | .busRequest .. => execBusRequest_wf h
  | .matrixTimeout .. => execMatrixTimeout_wf h
  | .mtxErrClear .. => execMtxErrClear_wf h
  | .refActivityLost .. => execRefActivityLost_wf h
  | .refFrequencyGate .. => execRefFrequencyGate_wf h
  | .refQualified .. => execRefQualified_wf h
  | .revertWaitExpiry .. => execRevertWaitExpiry_wf h
  | .loopUpdate .. => execLoopUpdate_wf h
  | .fastAcquireDwellEnd => execFastAcquireDwellEnd_wf h
  | .holdoverEvaluation => execHoldoverEvaluation_wf h
  | .ageingRefit => execAgeingRefit_wf h
  | .temperatureReading .. => execTemperatureReading_wf h
  | .refPstep .. => execRefPstep_wf h
  | .timeRateWrite .. => execTimeRateWrite_wf h
  | .timeAdjGo .. => execTimeAdjGo_wf h
  | .force .. => execForce_wf h
  | .forceExpiry => execForceExpiry_wf h
  | .timeStepApply => execTimeStepApply_wf h
  | .servoUpdate .. => execServoUpdate_wf h
  | .timeNowFracRead => execTimeNowFracRead_wf h
  | .timeCntLoRead => execTimeCntLoRead_wf h
  | .timeBaseCntLoRead => execTimeBaseCntLoRead_wf h
  | .ppsPulse => execPpsPulse_wf h
  | .ppsPulseEnd => execPpsPulseEnd_wf h
  | .tdmModeWrite .. => execTdmModeWrite_wf h
  | .tdmMasterFrameStart .. => execTdmMasterFrameStart_wf h
  | .tdmFrameReceive .. => execTdmFrameReceive_wf h
  | .tdmRawArm .. => execTdmRawArm_wf h
  | .portQualified .. => execPortQualified_wf h
  | .portClockLost .. => execPortClockLost_wf h
  | .portFrequencyGate .. => execPortFrequencyGate_wf h
  | .fabAgrpMemWrite .. => execFabAgrpMemWrite_wf h
  | .fabMissClr .. => execFabMissClr_wf h
  | .bphRxEnWrite .. => execBphRxEnWrite_wf h
  | .bphRxFrame .. => execBphRxFrame_wf h
  | .bphRxCsseqRead .. => execBphRxCsseqRead_wf h
  | .bphTxEnWrite .. => execBphTxEnWrite_wf h
  | .bphTxFrame .. => execBphTxFrame_wf h
  | .bphTxCsgo .. => execBphTxCsgo_wf h
  | .asrcLock .. => execAsrcLock_wf h
  | .routeCfg .. => execRouteCfg_wf h
  | .mixDrEngageWrite .. => execMixDrEngageWrite_wf h
  | .voxHoldExpiry .. => execVoxHoldExpiry_wf h
  | .mixMclrGo .. => execMixMclrGo_wf h
  | .mixClipClr .. => execMixClipClr_wf h
  | .tallyOpen .. => execTallyOpen_wf h
  | .tallyWrite .. => execTallyWrite_wf h
  | .tallyCommit .. => execTallyCommit_wf h
  | .tallyAbort .. => execTallyAbort_wf h
  | .decisionPoint .. => execDecisionPoint_wf h
  | .inDoubtQuery .. => execInDoubtQuery_wf h
  | .snpFire .. => execSnpFire_wf h
  | .carryInEdge .. => execCarryInEdge_wf h
  | .snpMatchReached => execSnpMatchReached_wf h
  | .stackCarryTime => execStackCarryTime_wf h
  | .snpMatchArm .. => execSnpMatchArm_wf h
  | .snpHoldWrite .. => execSnpHoldWrite_wf h
  | .carryOutEnd => execCarryOutEnd_wf h
  | .fieldSectionTimeout .. => execFieldSectionTimeout_wf h
  | .snapshotArm .. => execSnapshotArm_wf h
  | .snapshotRead .. => execSnapshotRead_wf h
  | .netModeWrite .. => execNetModeWrite_wf h
  | .netLinkUp .. => execNetLinkUp_wf h
  | .netLinkDown .. => execNetLinkDown_wf h
  | .frameReceive .. => execFrameReceive_wf h
  | .pauseExpiry .. => execPauseExpiry_wf h
  | .pauseWatchdog .. => execPauseWatchdog_wf h
  | .frameTransmit .. => execFrameTransmit_wf h
  | .transmitComplete .. => execTransmitComplete_wf h
  | .launchLateDiscard .. => execLaunchLateDiscard_wf h
  | .netTx .. => execNetTx_wf h
  | .netRxPost .. => execNetRxPost_wf h
  | .netCntClr .. => execNetCntClr_wf h
  | .streamCfg .. => execStreamCfg_wf h
  | .streamBeadDeadline .. => execStreamBeadDeadline_wf h
  | .strClr .. => execStrClr_wf h
  | .barrierLaneLock .. => execBarrierLaneLock_wf h
  | .samples .. => execSamples_wf h
  | .param .. => execParam_wf h
  | .sealMsg .. => execSealMsg_wf h
  | .barrierHeartbeat .. => execBarrierHeartbeat_wf h
  | .hostLost .. => execHostLost_wf h
  | .cmdTallyCommit .. => execCmdTallyCommit_wf h
  | .tallyDiscard .. => execTallyDiscard_wf h
  | .cmdCarry .. => execCmdCarry_wf h
  | .forceSafe .. => execForceSafe_wf h
  | .release .. => execRelease_wf h
  | .cmdRead .. => execCmdRead_wf h
  | .sealTighten .. => execSealTighten_wf h
  | .cmdUnknown .. => execCmdUnknown_wf h
  | .tripClear .. => execTripClear_wf h
  | .rawWrite .. => execRawWrite_wf h
  | .pwmCntClr .. => execPwmCntClr_wf h
  | .diagSweep .. => execDiagSweep_wf h
  | .diagAbort .. => execDiagAbort_wf h
  | .protClear .. => execProtClear_wf h
  | .zrefCapture .. => execZrefCapture_wf h
  | .fieldTick .. => execFieldTick_wf h
  | .lossHoldEnd .. => execLossHoldEnd_wf h
  | .lossFadeEnd .. => execLossFadeEnd_wf h
  | .lossIdleEnd .. => execLossIdleEnd_wf h
  | .lossRearm .. => execLossRearm_wf h
  | .twinSamples .. => execTwinSamples_wf h
  | .twinDigest .. => execTwinDigest_wf h
  | .twinStatus .. => execTwinStatus_wf h
  | .twinStatusSend .. => execTwinStatusSend_wf h
  | .twinLinkTimeout .. => execTwinLinkTimeout_wf h
  | .pwmClkLoss .. => execPwmClkLoss_wf h
  | .fieldRodFault .. => execFieldRodFault_wf h
  | .fieldPllRefChange .. => execFieldPllRefChange_wf h
  | .fieldPllLock .. => execFieldPllLock_wf h
  | .fieldUndervoltage .. => execFieldUndervoltage_wf h
  | .fieldDiePowerOn .. => execFieldDiePowerOn_wf h
  | .sense .. => execSense_wf h
  | .status .. => execStatus_wf h
  | .fault .. => execFault_wf h
  | .ack .. => execAck_wf h
  | .ackTimeout .. => execAckTimeout_wf h
  | .diagResult .. => execDiagResult_wf h
  | .barrierLinkTimeout .. => execBarrierLinkTimeout_wf h
  | .barCntClr .. => execBarCntClr_wf h
  | .carrierValley .. => execCarrierValley_wf h
  | .tripInputChange .. => execTripInputChange_wf h
  | .tripHonoured .. => execTripHonoured_wf h
  | .readbackMismatch .. => execReadbackMismatch_wf h
  | .tripQuietExpiry .. => execTripQuietExpiry_wf h
  | .rawPairTimeout .. => execRawPairTimeout_wf h
  | .overcurrent .. => execOvercurrent_wf h
  | .checkStart .. => execCheckStart_wf h
  | .checkEnd .. => execCheckEnd_wf h
  | .checkDue .. => execCheckDue_wf h
  | .thermalModelUpdate .. => execThermalModelUpdate_wf h
  | .senseStreamBad .. => execSenseStreamBad_wf h
  | .senseStreamGood .. => execSenseStreamGood_wf h
  | .dcOutDetect .. => execDcOutDetect_wf h
  | .dcStreamDetect .. => execDcStreamDetect_wf h
  | .trimUpdate .. => execTrimUpdate_wf h
  | .pilotWindowEnd .. => execPilotWindowEnd_wf h
  | .sweepPointEnd .. => execSweepPointEnd_wf h
  | .nop .. => execNop_wf h
  | .fence .. => execFence_wf h
  | .paramRead .. => execParamRead_wf h
  | .meterRead .. => execMeterRead_wf h
  | .diagRun .. => execDiagRun_wf h
  | .diagRunTimeout .. => execDiagRunTimeout_wf h
  | .eventRead .. => execEventRead_wf h
  | .timeSet .. => execTimeSet_wf h
  | .fieldCmd .. => execFieldCmd_wf h
  | .configSave .. => execConfigSave_wf h
  | .updateBlock .. => execUpdateBlock_wf h
  | .updateActivate .. => execUpdateActivate_wf h
  | .hifKick .. => execHifKick_wf h
  | .doorbellRead .. => execDoorbellRead_wf h
  | .descriptorFetch .. => execDescriptorFetch_wf h
  | .completionWrite .. => execCompletionWrite_wf h
  | .modTimeExpiry .. => execModTimeExpiry_wf h
  | .queueEnable .. => execQueueEnable_wf h
  | .queueRecover .. => execQueueRecover_wf h
  | .queueDisable .. => execQueueDisable_wf h
  | .bar0NarrowWrite => execBar0NarrowWrite_wf h
  | .stackLinkUp .. => execStackLinkUp_wf h
  | .stackLinkDown .. => execStackLinkDown_wf h
  | .helloSend => execHelloSend_wf h
  | .hello .. => execHello_wf h
  | .discoveryWaitExpiry => execDiscoveryWaitExpiry_wf h
  | .stackHeartbeat .. => execStackHeartbeat_wf h
  | .heartbeatWindowExpiry => execHeartbeatWindowExpiry_wf h
  | .memberStatus .. => execMemberStatus_wf h
  | .timeSync .. => execTimeSync_wf h
  | .delayReq .. => execDelayReq_wf h
  | .delayResp .. => execDelayResp_wf h
  | .subscribe .. => execSubscribe_wf h
  | .beads .. => execBeads_wf h
  | .remoteBeadDeadline => execRemoteBeadDeadline_wf h
  | .vote .. => execVote_wf h
  | .decisionLog .. => execDecisionLog_wf h
  | .logAck .. => execLogAck_wf h
  | .decision .. => execDecision_wf h
  | .query .. => execQuery_wf h
  | .answer .. => execAnswer_wf h
  | .carrySched .. => execCarrySched_wf h
  | .splitReport .. => execSplitReport_wf h
  | .stackStart .. => execStackStart_wf h
  | .startSend => execStartSend_wf h
  | .stackRetransmit => execStackRetransmit_wf h
  | .handover .. => execHandover_wf h
  | .fltForce .. => execFltForce_wf h
  | .fltStatClear .. => execFltStatClear_wf h
  | .fltClrGrp .. => execFltClrGrp_wf h
  | .fltCfg .. => execFltCfg_wf h
  | .fltCfgGrp .. => execFltCfgGrp_wf h
  | .fltUnfence .. => execFltUnfence_wf h
  | .fltSelftest .. => execFltSelftest_wf h
  | .fltCntClr .. => execFltCntClr_wf h
  | .configurationScan .. => execConfigurationScan_wf h
  | .selfTripReset .. => execSelfTripReset_wf h
  | .faultNMinExpiry => execFaultNMinExpiry_wf h
  | .thermalSensorReading .. => execThermalSensorReading_wf h
  | .supervisorWatchdog => execSupervisorWatchdog_wf h
  | .tokenRefill .. => execTokenRefill_wf h
  | .eventCommit .. => execEventCommit_wf h
  | .optimeSave .. => execOptimeSave_wf h
  | .timeMark => execTimeMark_wf h
  | .evrHost .. => execEvrHost_wf h
  | .evrClear .. => execEvrClear_wf h
  | .logEraseDone => execLogEraseDone_wf h
  | .evrOptimeFRead => execEvrOptimeFRead_wf h
  | .bootRomStart .. => execBootRomStart_wf h
  | .supervisorStart => execSupervisorStart_wf h
  | .bootMbBlock .. => execBootMbBlock_wf h
  | .bootMbActivate .. => execBootMbActivate_wf h
  | .mgtAddress .. => execMgtAddress_wf h
  | .mgtWriteByte .. => execMgtWriteByte_wf h
  | .mgtReadByte .. => execMgtReadByte_wf h
  | .mgtStop => execMgtStop_wf h
  | .mgtBusError => execMgtBusError_wf h
  | .mgtSdaTimeout => execMgtSdaTimeout_wf h
  | .mgtAttentionPulse => execMgtAttentionPulse_wf h
  | .mgtPulseEnd => execMgtPulseEnd_wf h
  | .mgtPulseAbandon => execMgtPulseAbandon_wf h
  | .mgtAttnRepeat => execMgtAttnRepeat_wf h
  | .mgtAttnGo .. => execMgtAttnGo_wf h
  | .mgtPageRefresh => execMgtPageRefresh_wf h
  | .supervisionRead => execSupervisionRead_wf h
  | .mgtHostbufWrite .. => execMgtHostbufWrite_wf h
  | .mgtAddrWrite .. => execMgtAddrWrite_wf h
  | .registerWrite .. => execRegisterWrite_wf h
  | .refActivityRestored .. => execRefActivityRestored_wf h
  | .msynOutOfLock .. => execMsynOutOfLock_wf h
  | .timePllOutOfLock .. => execTimePllOutOfLock_wf h
  | .dramLinkFailure .. => execDramLinkFailure_wf h
  | .fieldRodRestart .. => execFieldRodRestart_wf h
  | .perstNRelease => execPerstNRelease_wf h
  | .pcieLinkTrained .. => execPcieLinkTrained_wf h
  | .dieUnsealedTimeout .. => execDieUnsealedTimeout_wf h
  | .hostFlashWorkDone .. => execHostFlashWorkDone_wf h
  | .programLoadDone .. => execProgramLoadDone_wf h
  | .pfailSetDone .. => execPfailSetDone_wf h

/-- Settles O2: a step is a cycle of TIME_CLK or the command at the front, and both keep the canonical form. -/
theorem memoryFormKept : Obligations.MemoryFormKept := by
  unfold Obligations.MemoryFormKept
  intro s t hwf hstep
  rw [← keep_mem] at hwf ⊢
  cases hp : s.pending with
  | nil =>
    rw [step, hp, Host.Outcome.next.injEq] at hstep
    exact hstep ▸ tick_wf hwf
  | cons c rest =>
    rw [step, hp] at hstep
    exact exec_wf (s := { s with pending := rest }) hwf t hstep

end Sys2Proof.Machine

/-! PROOFS. What recording an event leaves as it was: everything but what the recorder and the plain reactions of source
0x604 write (R476, R494). -/

namespace Sys2Proof.Machine
open Sys2Proof Sys2Proof.Safety

/-- `t` is `s` but for the registers and the recorder's own state: what putting a record into the buffer writes. -/
def Buffered (s t : State) : Prop := ∃ regs recorder, t = { s with regs := regs, recorder := recorder }

/-- `t` is `s` but for what an event writes even when its record finds the buffer full, so that source 0x604 is latched:
the registers, the collector, the recorder, the attention request and what was sent (R476, R494). -/
def Recorded (s t : State) : Prop :=
  ∃ regs collector recorder mgt sent,
    t = { s with regs := regs, collector := collector, recorder := recorder, mgt := mgt, sent := sent }

section Frame
variable {s t u : State} {a : Nat} {f : Fld}

theorem Buffered.trans (h : Buffered s t) (k : Buffered t u) : Buffered s u := by
  obtain ⟨_, _, rfl⟩ := h
  obtain ⟨_, _, rfl⟩ := k
  exact ⟨_, _, rfl⟩

theorem Recorded.trans (h : Recorded s t) (k : Recorded t u) : Recorded s u := by
  obtain ⟨_, _, _, _, _, rfl⟩ := h
  obtain ⟨_, _, _, _, _, rfl⟩ := k
  exact ⟨_, _, _, _, _, rfl⟩

theorem Buffered.recorded (h : Buffered s t) : Recorded s t := by
  obtain ⟨_, _, rfl⟩ := h
  exact ⟨_, _, _, _, _, rfl⟩

theorem Recorded.refl (s : State) : Recorded s s := ⟨_, _, _, _, _, rfl⟩

theorem Recorded.ite {c : Prop} [Decidable c] (h : Recorded s t) (k : Recorded s u) : Recorded s (if c then t else u) :=
  iteInduction (motive := Recorded s) (fun _ => h) fun _ => k

theorem recorded_rput (s : State) (a : Nat) (f : Fld) (v : Nat) : Recorded s (rput s a f v) := ⟨_, _, _, _, _, rfl⟩

theorem Recorded.put {v : Nat} (h : Recorded s t) : Recorded s (rput t a f v) := h.trans (recorded_rput ..)

theorem recorded_sendOut (s : State) (m : OutMsg) : Recorded s (sendOut s m) := ⟨_, _, _, _, _, rfl⟩
theorem recorded_setBacklog (s : State) : Recorded s (setBacklog s) := recorded_rput ..
theorem recorded_refreshFaultN (s : State) : Recorded s (refreshFaultN s) := (recorded_rput ..).put

/-- A record that enters the buffer, or finds it or the log full, writes registers and the buffer alone (R494, R496). -/
theorem buffered_enterBuffer (s : State) (r : EvRec) : Buffered s (enterBuffer s r).1 := by
  unfold enterBuffer
  split
  · exact ⟨_, _, rfl⟩
  · split
    · exact ⟨_, _, rfl⟩
    · dsimp only
      split <;> exact ⟨_, _, rfl⟩

theorem buffered_offer (s : State) (code inst : Nat) (forced : Bool) (datum : Nat) :
    Buffered s (offer s code inst forced datum).1 := by
  have hbucket (b : Bucket) : Buffered s (setBucket s code b) := ⟨_, _, rfl⟩
  unfold offer
  dsimp only
  split
  · exact buffered_enterBuffer _ _
  · split
    · exact (hbucket _).trans ⟨_, _, rfl⟩
    · exact (hbucket _).trans (buffered_enterBuffer _ _)

theorem recorded_mgtRequest (s : State) : Recorded s (mgtRequest s) := .ite ⟨_, _, _, _, _, rfl⟩ (recorded_rput ..)

theorem recorded_mgtCause (s : State) (i : Nat) : Recorded s (mgtCause s i) := by
  unfold mgtCause
  extract_lets c mgt v w
  have hv : Recorded s v := .ite ⟨_, _, _, _, _, rfl⟩ (.refl s)
  have hw : Recorded s w := hv.put
  exact .ite (.refl s) (.ite (hw.trans (recorded_mgtRequest w)) hw)

theorem recorded_driveFaultN (s : State) : Recorded s (driveFaultN s) :=
  .ite (.refl s) (.trans (t := { s with collector := { s.collector with faultNHold := some (recorderNow s) } })
    ⟨_, _, _, _, _, rfl⟩ (recorded_mgtCause _ 1))

theorem recorded_msixSignal (s : State) (v : Nat) : Recorded s (msixSignal s v) :=
  .ite (recorded_sendOut ..) (recorded_rput ..)

theorem recorded_faultInt (s : State) : Recorded s (faultInt s) := by
  unfold faultInt
  extract_lets v collector u
  have hu : Recorded s u := ⟨_, _, _, _, _, rfl⟩
  exact .ite (recorded_msixSignal s v) (.ite hu (hu.trans (recorded_msixSignal u v)))

theorem recorded_latchPlain (s : State) (id : Nat) (forced : Bool) : Recorded s (latchPlain s id forced) := by
  unfold latchPlain
  extract_lets first s1 s2 s3 s4 m s5 collector s6 s7
  have h2 : Recorded s s2 := (recorded_rput ..).put
  have h3 : Recorded s s3 := .ite h2 h2.put.put
  have h4 : Recorded s s4 := h3.put.put.put
  have h5 : Recorded s s5 := .ite (h4.trans (recorded_faultInt s4)) h4
  have h6 : Recorded s s6 := .ite (h5.trans ⟨_, _, _, _, _, rfl⟩) h5
  have h7 : Recorded s s7 := h6.trans (recorded_driveFaultN s6)
  exact .ite h4 (.ite (h7.trans ⟨_, _, _, _, _, rfl⟩) h6)

theorem recorded_storeEvent (s : State) (code inst : Nat) (forced : Bool) (datum : Nat) :
    Recorded s (storeEvent s code inst forced datum) := by
  have hoffer (u : State) (c i : Nat) (b : Bool) (d : Nat) : Recorded u (offer u c i b d).1 :=
    (buffered_offer u c i b d).recorded
  unfold storeEvent
  dsimp only
  have h1 := hoffer s code inst forced datum
  have h2 := h1.trans ((recorded_latchPlain _ 0x604 false).trans (recorded_refreshFaultN _))
  have h3 := h2.trans (hoffer _ 0x1804 0x3FF false 0)
  exact .ite (.ite (h3.trans (hoffer ..)) h3) h1

/-- Recording an event, held back or not, writes what `Recorded` names (R476, R494). -/
theorem recorded_recordEvent (s : State) (code inst : Nat) (forced : Bool) (datum : Nat) :
    Recorded s (recordEvent s code inst forced datum) := by
  unfold recordEvent
  split
  · exact recorded_storeEvent ..
  · exact ⟨_, _, _, _, _, rfl⟩

end Frame

end Sys2Proof.Machine

/-! PROOFS. Power, the resets and the PCIe link: the state after reset, what each reset leaves, and the branches of the
link's commands. -/

namespace Sys2Proof.Machine
open Sys2Proof Sys2Proof.Safety

/-- Settles O1: no map of `State.reset` lists a key, so every read gives what an unlisted key reads as. -/
theorem resetState : Obligations.ResetState := by
  unfold Obligations.ResetState
  refine ⟨rfl, rfl, rfl, rfl, fun _ => rfl, fun _ => rfl, fun _ => rfl, ?pri0, ?pri8, ?ptp, ?stack, ?clk, ?dies, ?gates,
    fun _ => rfl⟩
  case pri0 => decide +kernel
  case pri8 => decide +kernel
  case ptp => decide +kernel
  case stack => decide +kernel
  case clk => decide +kernel
  case dies => intro d; cases d <;> exact ⟨by decide +kernel, rfl⟩
  case gates => intro d c; cases d <;> rfl

/-! ## What precedes a reset: the balls are released and the work on the flash ends -/

/-- `t` is `s` but for what work on the flash writes: the flash, its state, the registers and the free values taken. -/
def Flashed (s t : State) : Prop :=
  ∃ regs flash boot free, t = { s with regs := regs, flash := flash, boot := boot, free := free }

theorem Flashed.trans {s t u : State} (h : Flashed s t) (k : Flashed t u) : Flashed s u := by
  obtain ⟨_, _, _, _, rfl⟩ := h
  obtain ⟨_, _, _, _, rfl⟩ := k
  exact ⟨_, _, _, _, rfl⟩

theorem flashed_takeFree (s : State) (w : Nat) : Flashed s (takeFree s w).2 := ⟨_, _, _, _, rfl⟩
theorem flashed_flashErase (s : State) (a n : Nat) : Flashed s (flashErase s a n) := ⟨_, _, _, _, rfl⟩
theorem flashed_flashWrite (s : State) (a : Nat) (l : List Byte) : Flashed s (flashWrite s a l) := ⟨_, _, _, _, rfl⟩
theorem flashed_setStage (s : State) (st : Nat) : Flashed s (setStage s st) := ⟨_, _, _, _, rfl⟩
theorem flashed_endWork (s : State) : Flashed s { s with boot := { s.boot with work := none } } := ⟨_, _, _, _, rfl⟩

theorem flashed_freeBytes (s : State) : ∀ n, Flashed s (freeBytes s n).2
  | 0 => ⟨_, _, _, _, rfl⟩
  | n + 1 => (flashed_takeFree s 8).trans (flashed_freeBytes _ n)

theorem flashed_flashSpoil (s : State) (a n : Nat) : Flashed s (flashSpoil s a n) :=
  (flashed_freeBytes s n).trans (flashed_flashWrite ..)

theorem flashed_spoilCopy (s : State) (len c : Nat) : Flashed s (spoilCopy s len c) :=
  (flashed_flashSpoil ..).trans (flashed_flashErase ..)

theorem flashed_writeCopy (s : State) (h : StoreHeader) (im : List Byte) (c : Nat) : Flashed s (writeCopy s h im c) :=
  (flashed_flashErase ..).trans ((flashed_flashWrite ..).trans (flashed_flashWrite ..))

/-- Work that is cut short writes what `Flashed` names (R512, Table 15-8). -/
theorem flashed_spoilWork (s : State) : Flashed s (spoilWork s) := by
  unfold spoilWork
  split
  · exact ⟨_, _, _, _, rfl⟩
  · rename_i j _ _
    refine Flashed.trans ?_ (flashed_endWork _)
    cases j with
    | block offset data => exact flashed_flashSpoil ..
    | activate _ => exact (flashed_flashSpoil ..).trans ((flashed_flashErase ..).trans (flashed_setStage ..))
    | save im auto =>
      refine (flashed_takeFree s 1).trans ?_
      generalize takeFree s 1 = taken
      obtain ⟨one, u⟩ := taken
      dsimp only
      split
      · split
        · exact (flashed_writeCopy ..).trans (flashed_spoilCopy ..)
        · exact flashed_spoilCopy ..
      · exact ⟨_, _, _, _, rfl⟩

/-- `t` is `s` but for what the balls that are released write: SDA's pulse and what was sent. -/
def Released (s t : State) : Prop := ∃ mgt sent, t = { s with mgt := mgt, sent := sent }

theorem Released.trans {s t u : State} (h : Released s t) (k : Released t u) : Released s u := by
  obtain ⟨_, _, rfl⟩ := h
  obtain ⟨_, _, rfl⟩ := k
  exact ⟨_, _, rfl⟩

theorem Released.ite {s t u : State} {c : Prop} [Decidable c] (h : Released s t) (k : Released s u) :
    Released s (if c then t else u) :=
  iteInduction (motive := Released s) (fun _ => h) fun _ => k

theorem released_releaseBalls (s : State) : Released s (releaseBalls s) := by
  have hsda : Released s (releaseSda s) := .ite ⟨_, _, rfl⟩ ⟨_, _, rfl⟩
  have hcarry : Released s
      (if (releaseSda s).snap.coutHigh then sendOut (releaseSda s) (.carryOut false) else releaseSda s) :=
    .ite (hsda.trans ⟨_, _, rfl⟩) hsda
  unfold releaseBalls
  exact List.foldlRecOn (motive := Released s) _ _ hcarry fun u hu p _ => hu.trans ⟨_, _, rfl⟩

/-! ## Records of a reset -/

/-- The record of an exempt code enters a buffer that is not full and raises nothing (R491, R493, R494). -/
theorem recordEvent_exempt {s : State} {code inst datum : Nat} (hheld : s.collector.held = none)
    (hcode : exemptCode code = true) (hroom : s.recorder.buffer.length < bufferSize) :
    ∃ r, recordEvent s code inst false datum = (enterBuffer s r).1 := by
  have hfull (r : EvRec) : (enterBuffer s r).2 = false := by
    unfold enterBuffer
    split
    · rfl
    · rw [if_neg (by omega)]
  refine ⟨⟨code, inst % 1024, false, 0, s.recorder.optime, s.recorder.pcc, datum % 2 ^ 32⟩, ?_⟩
  rw [recordEvent, hheld]
  simp only [storeEvent, offer, hcode, if_true, hfull, Bool.false_eq_true, if_false]

section Registers
variable {s : State} {a b : Nat} {f : Fld}

theorem regs_wr {w : Word} (h : mapWf hostReset s.regs = true) : mapWf hostReset (wr s a w).regs = true := mapWf_set h

theorem regs_rput {v : Nat} (h : mapWf hostReset s.regs = true) : mapWf hostReset (rput s a f v).regs = true :=
  mapWf_set h

theorem rd_wr_apart {w : Word} (h : mapWf hostReset s.regs = true) (hne : b ≠ a) : rd (wr s a w) b = rd s b :=
  mapGet_set_other h hne

theorem rd_rput_apart {v : Nat} (h : mapWf hostReset s.regs = true) (hne : b ≠ a) : rd (rput s a f v) b = rd s b :=
  mapGet_set_other h hne

theorem rget_rput_listed {v : Nat} (h : mapWf hostReset s.regs = true) (hf : f.lo + f.width ≤ 32) :
    rget (rput s a f v) a f = v % 2 ^ f.width :=
  (congrArg (fldGet f) (mapGet_set_same h)).trans (fldGet_fldPut_same hf)

/-- Entering a record leaves every register outside the event recorder's block. -/
theorem rd_enterBuffer {r : EvRec} (h : mapWf hostReset s.regs = true) (ha : a < 0x5000 ∨ 0x6000 ≤ a) :
    rd (enterBuffer s r).1 a = rd s a := by
  have hdrop : a ≠ Reg.EVR_DROPPED := by simp only [Reg.EVR_DROPPED]; omega
  have hbuf : a ≠ Reg.EVR_BUF_DROP := by simp only [Reg.EVR_BUF_DROP]; omega
  have hstat : a ≠ Reg.EVR_STAT := by simp only [Reg.EVR_STAT]; omega
  have hcount : a ≠ Reg.EVR_COUNT := by simp only [Reg.EVR_COUNT]; omega
  unfold enterBuffer
  split
  · exact rd_rput_apart h hdrop
  · split
    · exact (rd_rput_apart (regs_rput h) hstat).trans (rd_rput_apart h hbuf)
    · extract_lets recorder u c v
      have hv : mapWf hostReset v.regs = true ∧ rd v a = rd s a :=
        iteInduction (motive := fun t : State => mapWf hostReset t.regs = true ∧ rd t a = rd s a)
          (fun _ => ⟨h, rfl⟩) fun _ => ⟨regs_rput h, rd_rput_apart (s := u) h hcount⟩
      exact (rd_rput_apart hv.1 hstat).trans hv.2

theorem regs_firstReadings (h : mapWf hostReset s.regs = true) : mapWf hostReset (firstReadings s).regs = true :=
  mapWf_set (mapWf_set (mapWf_set (mapWf_set h)))

theorem regs_restoreLog (h : mapWf hostReset s.regs = true) : mapWf hostReset (restoreLog s).regs = true := by
  unfold restoreLog
  exact mapWf_set (mapWf_set (mapWf_set (mapWf_set (mapWf_set (mapWf_set (mapWf_set h))))))

theorem regs_readStraps {k : Nat} (h : mapWf hostReset s.regs = true) : mapWf hostReset (readStraps s k).regs = true :=
  regs_rput (regs_rput (regs_rput h))

theorem regs_alignGrid (h : mapWf hostReset s.regs = true) : mapWf hostReset (alignGrid s).regs = true := mapWf_set h

theorem rd_alignGrid (h : mapWf hostReset s.regs = true) (hne : a ≠ Reg.SYS_BLKIDX_LO) :
    rd (alignGrid s) a = rd s a :=
  rd_wr_apart (s := { s with grid := _ }) h hne

/-- The straps give MY_ID (R457). -/
theorem myId_readStraps (k : Fin 8) (h : mapWf hostReset s.regs = true) :
    rget (alignGrid (readStraps s k)) Reg.STK_STAT F.STK_STAT_MY_ID = k.val := by
  have h1 : mapWf hostReset (rput s Reg.STK_STAT F.STK_STAT_MY_ID k).regs = true := regs_rput h
  have hmgt : Reg.STK_STAT ≠ Reg.MGT_ADDR := by decide
  calc rget (alignGrid (readStraps s k)) Reg.STK_STAT F.STK_STAT_MY_ID
      = rget (readStraps s k) Reg.STK_STAT F.STK_STAT_MY_ID :=
        congrArg (fldGet _) (rd_alignGrid (regs_readStraps h) (by decide))
    _ = rget (rput s Reg.STK_STAT F.STK_STAT_MY_ID k) Reg.STK_STAT F.STK_STAT_MY_ID :=
        congrArg (fldGet _) ((rd_rput_apart (regs_rput h1) hmgt).trans (rd_rput_apart h1 hmgt))
    _ = k.val % 2 ^ 3 := rget_rput_listed h (by decide)
    _ = k.val := Nat.mod_eq_of_lt k.isLt

end Registers

theorem recorded_pendHeld (s : State) : Recorded s (pendHeld s) := .ite (recorded_rput ..) (.refl s)

/-- The balls released and the work on the flash ended, `s` but for what the two write. -/
theorem spoilWork_releaseBalls (s : State) : ∃ regs mgt flash boot sent free, spoilWork (releaseBalls s) =
    { s with regs := regs, mgt := mgt, flash := flash, boot := boot, sent := sent, free := free } := by
  obtain ⟨regs, flash, boot, free, hflash⟩ := flashed_spoilWork (releaseBalls s)
  obtain ⟨mgt, sent, hballs⟩ := released_releaseBalls s
  exact ⟨regs, mgt, flash, boot, sent, free, by rw [hflash, hballs]⟩

/-- `t` is `s` but for what the straps, the first readings, the log's counts and the grid write. -/
def Started (s t : State) : Prop := ∃ regs grid free, t = { s with regs := regs, grid := grid, free := free }

theorem Started.trans {s t u : State} (h : Started s t) (k : Started t u) : Started s u := by
  obtain ⟨_, _, _, rfl⟩ := h
  obtain ⟨_, _, _, rfl⟩ := k
  exact ⟨_, _, _, rfl⟩

theorem started_wr (s : State) (a : Nat) (w : Word) : Started s (wr s a w) := ⟨_, _, _, rfl⟩

theorem Started.wr {s t : State} {a : Nat} {w : Word} (h : Started s t) : Started s (wr t a w) :=
  h.trans (started_wr ..)

theorem started_readStraps (s : State) (k : Nat) : Started s (readStraps s k) := (started_wr ..).wr.wr

theorem started_alignGrid (s : State) : Started s (alignGrid s) := ⟨_, _, _, rfl⟩

theorem started_firstReadings (s : State) : Started s (firstReadings s) :=
  have hfree : Started s { s with free := s.free + 1 + 1 + 1 + 1 } := ⟨_, _, _, rfl⟩
  hfree.wr.wr.wr.wr

theorem started_restoreLog (s : State) : Started s (restoreLog s) := (started_wr ..).wr.wr.wr.wr.wr.wr

/-- What a reset of the host die leaves (R23, R71). -/
theorem hostDieReset_eq (s : State) (k : Nat) (low : Bool) (cause : Nat) (tripped : Bool) :
    ∃ regs grid collector recorder mgt sent poison boot free, hostDieReset s k low cause tripped = { State.reset with
      variant := s.variant, perstLow := s.perstLow, regs := regs, time := { dropSteps s.time with ppsHigh := false },
      grid := grid, loop := keptLoop (spoilWork (releaseBalls s)), collector := collector, recorder := recorder,
      dram := s.dram, poison := poison, mgt := mgt, dieA := s.dieA, dieB := s.dieB,
      flash := (spoilWork (releaseBalls s)).flash, boot := boot, hostMem := s.hostMem, sent := sent,
      pending := s.pending, free := free } := by
  have hw := spoilWork_releaseBalls s
  unfold hostDieReset
  generalize spoilWork (releaseBalls s) = w at hw ⊢
  obtain ⟨_, _, _, _, _, _, rfl⟩ := hw
  extract_lets u kept v t0 time collector recorder boot t1 t2 t3
  have hrecord : Recorded (alignGrid (readStraps t2 k)) (refreshFaultN (setBacklog
      (recordEvent t3 0x1841 noInst false (cause + 65536 * b2n tripped)))) :=
    (recorded_pendHeld _).trans
      ((recorded_recordEvent ..).trans ((recorded_setBacklog _).trans (recorded_refreshFaultN _)))
  have hstart : Started t1 (alignGrid (readStraps t2 k)) :=
    (started_firstReadings t1).wr.trans ((started_readStraps t2 k).trans (started_alignGrid _))
  obtain ⟨_, _, _, hstart⟩ := hstart
  obtain ⟨_, _, _, _, _, hrecord⟩ := hrecord
  rw [hrecord, hstart]
  exact ⟨_, _, _, _, _, _, _, _, _, rfl⟩

/-- The first record after power-on enters the buffer, and leaves the straps' register (R457, R491). -/
theorem recordEvent_first {s : State} {datum : Nat} (hheld : s.collector.held = none) (hempty : s.recorder.buffer = [])
    (hregs : mapWf hostReset s.regs = true) :
    ∃ regs recorder, recordEvent s 0x1840 noInst false datum = { s with regs := regs, recorder := recorder } ∧
      mapGet hostReset regs Reg.STK_STAT = rd s Reg.STK_STAT := by
  obtain ⟨r, hrecord⟩ := recordEvent_exempt (code := 0x1840) (inst := noInst) (datum := datum) hheld rfl
    (by rw [hempty]; decide)
  obtain ⟨regs, recorder, hbuffer⟩ := buffered_enterBuffer s r
  have hstk : rd (enterBuffer s r).1 Reg.STK_STAT = rd s Reg.STK_STAT := rd_enterBuffer hregs (.inr (by decide))
  rw [hbuffer] at hstk
  exact ⟨regs, recorder, hrecord.trans hbuffer, hstk⟩

/-- What power-on leaves (R23): its one record finds an empty buffer. -/
theorem powerOn_eq (s : State) (k : Fin 8) (low : Bool) :
    ∃ regs grid recorder flash boot free, powerOn s k low = { State.reset with
      variant := s.variant, perstLow := s.perstLow, regs := regs, grid := grid, recorder := recorder, dieA := s.dieA,
      dieB := s.dieB, flash := flash, boot := boot, hostMem := s.hostMem, sent := s.sent, pending := s.pending,
      free := free } ∧ fldGet F.STK_STAT_MY_ID (mapGet hostReset regs Reg.STK_STAT) = k.val := by
  have hw : Flashed s (takeFree (spoilWork s) 19).2 := (flashed_spoilWork s).trans (flashed_takeFree ..)
  unfold powerOn
  generalize takeFree (spoilWork s) 19 = taken at hw ⊢
  obtain ⟨old, u⟩ := taken
  dsimp -zeta only at hw ⊢
  extract_lets t0 recorder boot t1 t2
  have h0 : mapWf hostReset t0.regs = true := regs_firstReadings (s := keepOutside u State.reset) rfl
  have h1 : mapWf hostReset (restoreLog t1).regs = true := regs_restoreLog (s := t1) h0
  have hstart0 : Started (keepOutside u State.reset) t0 := started_firstReadings _
  have h2 : mapWf hostReset t2.regs = true := regs_alignGrid (regs_readStraps h1)
  have hmyId : rget t2 Reg.STK_STAT F.STK_STAT_MY_ID = k.val := myId_readStraps k h1
  have hstart2 : Started t1 t2 := (started_restoreLog t1).trans ((started_readStraps ..).trans (started_alignGrid _))
  clear_value t2 t0
  obtain ⟨_, _, _, hstart0⟩ := hstart0
  obtain ⟨_, _, _, hstart2⟩ := hstart2
  obtain ⟨regs, rec, hrecord, hstk⟩ := recordEvent_first (s := t2)
    (datum := (fldPut F.SYS_ID_VARIANT t2.variant (rd t2 Reg.SYS_ID)).toNat)
    ((congrArg (fun t => t.collector.held) hstart2).trans (congrArg (fun t => t.collector.held) hstart0))
    (congrArg (fun t => t.recorder.buffer) hstart2) h2
  obtain ⟨_, _, _, _, rfl⟩ := hw
  subst hstart0
  rw [hrecord, hstart2]
  exact ⟨_, _, _, _, _, _, rfl, (congrArg (fldGet _) hstk).trans hmyId⟩

/-- What power-down leaves (R548, R560): the registers at their reset values, but for FAULT_N, which is driven. -/
theorem powerDown_eq {s : State} (h : s.powered = true) :
    ∃ boot free, exec .powerDown s = .next (rset { State.reset with
      variant := s.variant, powered := false, perstLow := s.perstLow, dieA := s.dieA, dieB := s.dieB,
      flash := (spoilWork (releaseBalls s)).flash, boot := boot, hostMem := s.hostMem,
      sent := (spoilWork (releaseBalls s)).sent, pending := s.pending, free := free }
      Reg.FLT_STAT F.FLT_STAT_FAULT_N_LOW) := by
  have hw := spoilWork_releaseBalls s
  change ∃ boot free, execPowerDown s = _
  unfold execPowerDown
  generalize spoilWork (releaseBalls s) = w at hw ⊢
  obtain ⟨_, _, _, _, _, _, rfl⟩ := hw
  rw [if_neg (by simp [h])]
  exact ⟨_, _, rfl⟩

/-- Settles O5: `powerOn_eq`, `powerDown_eq` and `hostDieReset_eq` name every field that the three leave. -/
theorem powerAndResetComplete : Obligations.PowerAndResetComplete := by
  unfold Obligations.PowerAndResetComplete
  refine ⟨?powerOn, ?powerDown, ?rstN, ?chipReset, ?selfTrip⟩
  case powerOn =>
    intro k low s
    obtain ⟨_, _, _, _, _, _, heq, hmyId⟩ := powerOn_eq s k low
    exact ⟨_, congrArg Host.Outcome.next heq, rfl, rfl, rfl, rfl, rfl, rfl, rfl, rfl, rfl, hmyId, rfl, rfl, rfl⟩
  case powerDown =>
    intro s hp
    obtain ⟨_, _, heq⟩ := powerDown_eq hp
    refine ⟨_, heq, rfl, ?low, fun a ha => mapGet_set_other rfl ha, rfl, rfl, rfl, rfl, rfl⟩
    case low => rw [ron, rset, rget_rput_listed rfl (by decide)]; rfl
  case rstN =>
    intro k low s hp
    obtain ⟨_, _, _, _, _, _, _, _, _, heq⟩ := hostDieReset_eq s k low 0xFFF false
    have hnext : exec (.rstN k low) s = .next _ := congrArg Host.Outcome.next ((if_pos hp).trans heq)
    exact ⟨_, hnext, hnext, rfl, rfl, rfl, rfl, rfl, rfl, rfl, rfl, rfl, rfl, rfl, rfl, rfl, rfl⟩
  case chipReset =>
    intro k low id s hp hid
    change execChipReset k low s = _
    rw [execChipReset, if_neg (by simp [hp]), hid]
  case selfTrip =>
    intro k low s hp hb
    change execSelfTripReset k low s = _
    rw [execSelfTripReset, if_neg (by simp [hp, hb])]

theorem mapGet_of_absent {α} {d : Nat → α} {k : Nat} : ∀ {m : SMap α}, (∀ e ∈ m, e.1 ≠ k) → mapGet d m k = d k
  | [], _ => rfl
  | (j, v) :: m, h => by
    have hne : k ≠ j := fun e => h (j, v) List.mem_cons_self e.symm
    have ih := mapGet_of_absent (d := d) (fun e he => h e (List.mem_cons_of_mem _ he))
    simp [mapGet, hne, ih]

/-- Every register of the HIF block and the MSI-X table reads its reset value after an endpoint reset (R23, R451). -/
theorem rd_endpointReset {s : State} {a : Nat} (h : 0x1000 ≤ a ∧ a < 0x2000 ∨ 0xF0000 ≤ a ∧ a < 0xF9000) :
    rd (endpointReset s) a = hostReset a := by
  refine mapGet_of_absent fun e he => ?_
  simp only [endpointReset, resetRange, mapKeep, List.mem_filter, Bool.or_eq_true, decide_eq_true_eq] at he
  omega

/-- The link trains: the function's configuration takes effect and what waited goes out (R419, R450). -/
theorem pcieLinkTrained_trains {v : LinkSpeed} {w : LinkWidth} {ctl : PcieControl} {s u : State} (hp : s.powered = true)
    (hl : s.perstLow = false) (hb : s.boot.resetting = false)
    (hu : u = setControl { rput (rput s Reg.HIF_STAT F.HIF_STAT_SPEED (speedCode v)) Reg.HIF_STAT F.HIF_STAT_WIDTH
      (widthCode w) with pcieUp := true } ctl) :
    exec (.pcieLinkTrained v w ctl) s = .next
      (if (s.pcieUp && rget s Reg.HIF_STAT F.HIF_STAT_SPEED == speedCode v &&
          rget s Reg.HIF_STAT F.HIF_STAT_WIDTH == widthCode w) = true ∨ (v = .gen4 ∧ w = .x4)
        then forEach (List.range 64) u msixPending
        else raise (forEach (List.range 64) u msixPending) 0x481 noInst 0) := by
  subst hu
  exact congrArg _ (if_neg (by simp [hp, hl, hb]))

/-- Settles O6: each command is one branch of its meaning, and the two resets of a range leave no register of the
endpoint listed. -/
theorem pcieLinkComplete : Obligations.PcieLinkComplete := by
  unfold Obligations.PcieLinkComplete
  refine ⟨?perst, ?flr, ?release, ?down, ?trained, ?held⟩
  case perst =>
    intro s hp
    exact ⟨{ endpointReset s with perstLow := true }, congrArg Host.Outcome.next (if_pos hp), rfl, rfl, rfl, rfl, rfl,
      rfl, fun a ha => rd_endpointReset ha⟩
  case flr => exact fun s hp hl => congrArg _ (if_pos (by simp [hp, hl]))
  case release => exact fun s hp hl => congrArg _ (if_pos (by simp [hp, hl]))
  case down => exact fun s hp hup => congrArg _ (if_pos (by simp [hp, hup]))
  case trained =>
    intro v w ctl s u hp hl hb hu
    rw [pcieLinkTrained_trains hp hl hb hu]
    simp only [Bool.and_eq_true, beq_iff_eq, and_assoc]
  case held =>
    intro v w ctl s h
    refine congrArg _ (if_pos ?_)
    obtain hl | hb := h <;> simp [*]

end Sys2Proof.Machine

/-! PROOFS. The block clock: the registers of the SYS block, and the boundary of a block. -/

namespace Sys2Proof.Machine
open Sys2Proof Sys2Proof.Safety

/-- A write of SYS_PIPE that changes RUN makes a start due or calls it off (R57). -/
theorem writePipe_of_changed {s : State} {w : Word} {before run : Bool}
    (hb : ron s Reg.SYS_PIPE F.SYS_PIPE_RUN = before)
    (hr : ron (rwrite s Reg.SYS_PIPE w) Reg.SYS_PIPE F.SYS_PIPE_RUN = run)
    (hne : before ≠ run) :
    writePipe s w = { rwrite s Reg.SYS_PIPE w with grid := { (rwrite s Reg.SYS_PIPE w).grid with
      startIn := if run && !running (rwrite s Reg.SYS_PIPE w) then some 2 else none } } := by
  simp [writePipe, hb, hr, hne]

/-- A write of SYS_BLKCFG, not locked out, that does not clear REFUSED stores the new geometry or is refused (R57). -/
theorem writeBlkcfg_unlocked {s u : State} {w : Word} (hl : ron s Reg.SYS_LOCK F.SYS_LOCK_LOCK = false)
    (hw : fldGet F.SYS_BLKCFG_REFUSED w = 0)
    (hu : u = rput (rput s Reg.SYS_BLKCFG F.SYS_BLKCFG_FS (fldGet F.SYS_BLKCFG_FS w)) Reg.SYS_BLKCFG F.SYS_BLKCFG_BLK
      (fldGet F.SYS_BLKCFG_BLK w)) :
    writeBlkcfg s w = if running s || fldGet F.SYS_BLKCFG_FS w == 3 || threatens s u then
        rset s Reg.SYS_BLKCFG F.SYS_BLKCFG_REFUSED
      else
        let v := if fldGet F.SYS_BLKCFG_FS w = 2 then resetRange u (Reg.FAB_OWNER 512) (Reg.FAB_OWNER 1024) else u
        if fldGet F.SYS_BLKCFG_FS w = rget s Reg.SYS_BLKCFG F.SYS_BLKCFG_FS ∧
          fldGet F.SYS_BLKCFG_BLK w = rget s Reg.SYS_BLKCFG F.SYS_BLKCFG_BLK then v
        else countRate (refreshAllCounts (alignGrid v)) := by
  subst hu
  simp [writeBlkcfg, hl, hw]

/-- Settles O7: each command is the host's access to its register, and each clause one branch of its write. -/
theorem sysComplete : Obligations.SysComplete := by
  unfold Obligations.SysComplete
  refine ⟨?lock, ?change, ?refused, ?start, ?stop, ?latch⟩
  case lock =>
    intro w s hmay hw hl
    refine (onBar_may hmay).trans (congrArg _ ?_)
    rw [hostSysLock, if_neg (by simp [hw, hl])]
    rfl
  case change =>
    intro w s u hmay hl hstopped hw hfs hnew hu hthreat
    refine (onBar_may hmay).trans (congrArg _ ?_)
    rw [hostSysBlkcfgWrite, writeBlkcfg_unlocked hl hw hu, if_neg (by simp [hstopped, hfs, hthreat])]
    exact if_neg hnew
  case refused =>
    intro w s hmay hl hrun hw
    refine (onBar_may hmay).trans (congrArg _ ?_)
    rw [hostSysBlkcfgWrite, writeBlkcfg_unlocked hl hw rfl, if_pos (by simp [hrun])]
  case start =>
    rintro w s u hmay rfl hbefore hrun hstopped
    refine (onBar_may hmay).trans (congrArg _ ?_)
    rw [hostPipeRunWrite, writePipe_of_changed hbefore hrun (by decide), hstopped]
    rfl
  case stop =>
    rintro w s u hmay rfl hbefore hrun
    refine (onBar_may hmay).trans (congrArg _ ?_)
    rw [hostPipeRunWrite, writePipe_of_changed hbefore hrun (by decide)]
    rfl
  case latch => exact fun s hmay => onBar_may hmay

/-! ## A carry and the end of a boundary's cycle keep a state, whatever state they latch -/

section Carry
variable {qk : Kept} {rz : State → Nat → Nat → Nat → State} {old s : State} {stag : Nat}

theorem carryFrom_keeps {cause pos : Nat} (hrz : ∀ u a b c, Keep qk u = true → Keep qk (rz u a b c) = true)
    (h : Keep qk s = true) : Keep qk (carryFrom rz old s cause pos stag) = true := by
  unfold carryFrom
  extract_lets seq kc b snap s1 again snap2 s2 s3 s4
  have h1 : Keep qk s1 = true := rset_wf h
  have h2 : Keep qk s2 = true := h1
  have h3 : Keep qk s3 = true := wf_ite (wf_ite (hrz _ _ _ _ (radd_wf (rset_wf h2))) h2) (showBank_wf h1)
  have h4 : Keep qk s4 = true := wf_forEach (fun _ _ hu => askField_wf hu) h3
  exact wf_ite (sendOut_wf h4) h4

theorem closeCycle_keeps (hrz : ∀ u a b c, Keep qk u = true → Keep qk (rz u a b c) = true) (h : Keep qk s = true) :
    Keep qk (closeCycle rz old s stag) = true :=
  wf_ite h (carryFrom_keeps hrz h)

theorem finishTimed_keeps {u : State} {t : Int} (h : Keep qk u = true) : Keep qk (finishTimed s u t) = true :=
  wf_forEach (fun _ _ hv => finishCarry_wf hv) (finishCarry_wf h)

end Carry

/-! ## The generator passes a boundary -/

/-- The grid once the boundary of block `n` is passed at count `cnt` (R24, R27, R28). -/
def passed (g : GridState) (n cnt : Nat) : GridState :=
  { g with index := n, ordinal := g.ordinal + 1, extra := 0, slew := slewAfter g.slew 1, began := cnt }

/-- Passing a boundary moves the grid and writes what `Recorded` names. -/
theorem recorded_advanceBlock (s : State) (n : Nat) :
    Recorded { s with grid := passed s.grid n s.time.cnt } (advanceBlock s n) := by
  unfold advanceBlock
  extract_lets k slew old grid s1 s2
  have h2 : Recorded { s with grid := passed s.grid n s.time.cnt } s2 := ⟨_, _, _, _, _, rfl⟩
  exact .ite h2 ((h2.trans (recorded_rput ..)).trans (recorded_recordEvent ..))

theorem advanceBlock_keeps {s : State} {g : GridState} (n : Nat) (h : Keep ⟨false, some g⟩ s = true) :
    Keep ⟨false, some (passed g n s.time.cnt)⟩ (advanceBlock s n) = true := by
  obtain ⟨hgrid, hload, hsettings⟩ := keep_grid.mp h
  obtain ⟨_, _, _, _, _, heq⟩ := recorded_advanceBlock s n
  rw [heq]
  exact keep_grid.mpr ⟨congrArg (passed · n s.time.cnt) hgrid, hload, hsettings⟩

/-- A start or stop of the pipeline leaves the index, and the ordinal too where no start is due (R57). -/
theorem startStop_keeps {s : State} {g : GridState} (h : Keep ⟨false, some g⟩ s = true) :
    ∃ g', Keep ⟨false, some g'⟩ (startStop s) = true ∧ g'.index = g.index ∧
      (g.startIn = none → g'.ordinal = g.ordinal) := by
  obtain ⟨rfl, hload, hsettings⟩ := keep_grid.mp h
  unfold startStop
  split
  · exact ⟨s.grid, rclr_wf h, rfl, fun _ => rfl⟩
  · split
    · exact ⟨s.grid, h, rfl, fun _ => rfl⟩
    · rename_i k hk
      refine ⟨_, keep_grid.mpr ⟨rfl, hload, hsettings⟩, rfl, fun hn => ?_⟩
      simp [hk] at hn
    · rename_i hk
      refine ⟨_, rset_wf (clearFabric_wf (keep_grid.mpr ⟨rfl, hload, hsettings⟩)), rfl, fun hn => ?_⟩
      simp [hk] at hn

/-- What comes before the index advances keeps the grid; what comes after it keeps the grid of the new period. -/
theorem crossBoundary_keeps {s : State} {g : GridState} (n : Nat) (h : Keep ⟨false, some g⟩ s = true) :
    ∃ g', Keep ⟨false, some g'⟩ (crossBoundary s n) = true ∧ g'.index = n ∧
      (g.startIn = none → g'.ordinal = g.ordinal + 1) := by
  have hend := endPeriod_wf (tallyCarry_wf (n := n) (settleTallies_wf (n := n) (gatherRaises_wf h)))
  obtain ⟨g', hstart, hindex, hordinal⟩ := startStop_keeps (advanceBlock_keeps n hend)
  refine ⟨g', ?_, hindex, hordinal⟩
  unfold crossBoundary
  exact beginPeriod_wf (applyTallies_wf (releaseUnits_wf hstart))

/-- The cycle's opening and its end keep the grid too. -/
theorem blockBoundary_grid {s : State} (hload : s.boot.load = none) (hsettings : s.boot.settings = []) :
    (blockBoundary s).grid.index = nextBoundary s ∧
      (s.grid.startIn = none → (blockBoundary s).grid.ordinal = s.grid.ordinal + 1) := by
  have hidle : Keep ⟨false, some s.grid⟩ s = true := keep_grid.mpr ⟨rfl, hload, hsettings⟩
  have hopen := clearTimed_wf (t := boundaryAt s) (openCycle_wf (m := timedCauses s (boundaryAt s)) hidle)
  obtain ⟨g, hcross, hindex, hordinal⟩ := crossBoundary_keeps (nextBoundary s) hopen
  have hclosed : Keep ⟨false, some g⟩ (blockBoundary s) = true := by
    unfold blockBoundary
    exact finishTimed_keeps (closeCycle_keeps (fun _ _ _ _ => raise_wf) (flushRaises_wf hcross))
  obtain ⟨hgrid, -, -⟩ := keep_grid.mp hclosed
  rw [hgrid]
  exact ⟨hindex, hordinal⟩

/-- SYS_ORDINAL shows the ordinal, but in recovery mode (R28, R421, R514). -/
theorem busRead_ordinal (s : State) : busRead s Reg.SYS_ORDINAL =
    if ron s Reg.BOOT_STAT F.BOOT_STAT_MODE = true then Config.deadRead Reg.SYS_ORDINAL else s.grid.ordinal := by
  have hread : wordRead s Reg.SYS_ORDINAL = s.grid.ordinal := rfl
  have hoff : (!(decide (0x6000 ≤ Reg.SYS_ORDINAL) && decide (Reg.SYS_ORDINAL < 0x7000))) = true := by decide
  rw [busRead, hread, hoff, Bool.and_true]

/-- Settles O11: only `advanceBlock` and `startStop` move the grid, and everything else of the boundary keeps it. -/
theorem boundaryComplete : Obligations.BoundaryComplete := by
  unfold Obligations.BoundaryComplete
  refine ⟨?order, ?grid, ?advance, ?start⟩
  case order =>
    intro s u v w x hl hu hv hw hx
    rw [hx, hw, hv, hu]
    exact onHost_live hl
  case grid =>
    intro s hl hload hsettings
    exact ⟨_, onHost_live hl, blockBoundary_grid hload hsettings⟩
  case advance =>
    intro s n
    obtain ⟨_, _, _, _, _, heq⟩ := recorded_advanceBlock s n
    rw [busRead_ordinal, heq]
    exact ⟨rfl, rfl, rfl, rfl, rfl, rfl, rfl, rfl, rfl⟩
  case start =>
    intro s hstopped hdue
    refine ⟨clearFabric { s with grid := { s.grid with startIn := none, ordinal := 0 } }, ?_, rfl, rfl⟩
    simp only [startStop, hstopped, hdue, Bool.false_and, Bool.false_eq_true, if_false]

end Sys2Proof.Machine

/-! PROOFS. The memories' error codes and the bus matrix. -/

namespace Sys2Proof.Machine
open Sys2Proof Sys2Proof.Safety

/-- A finding at a memory that a powered device has. -/
theorem patrolScrub_mem {c : MemClass} {unit : Fin 2048} {a : Nat} {ecc : EccResult} {s : State} (hp : s.powered = true)
    (hu : unit.val < (memSize c).2) (ha : a < (memSize c).1) :
    exec (.patrolScrub (.mem c) unit a ecc) s = .next (eccFound s c unit a ecc) :=
  congrArg _ ((if_neg (by simp [hp])).trans (if_pos ⟨hu, ha⟩))

/-- An uncorrectable word of the brass RAM that holds a waiting record takes the record with it (R494). -/
theorem uncorrectable_brass {s u : State} {unit a : Nat} (h : a / 16 < s.recorder.buffer.length)
    (hu : u = { s with recorder := { s.recorder with buffer := s.recorder.buffer.eraseIdx (a / 16) } }) :
    uncorrectable s .brass unit a = raise (setBacklog (radd (rput u Reg.EVR_COUNT F.EVR_COUNT_RECORDS
      (rget u Reg.EVR_COUNT F.EVR_COUNT_RECORDS - 1)) Reg.EVR_BUF_DROP F.EVR_BUF_DROP_COUNT 1)) 0x518 noInst
      (a % 2 ^ 32) := by
  subst hu
  simp [uncorrectable, poisonKeys, forEach, h]

/-- Settles O8: a finding in a memory acts by the memory's class, one in a parameter memory by its unit. -/
theorem memoryErrorsComplete : Obligations.MemoryErrorsComplete := by
  unfold Obligations.MemoryErrorsComplete
  refine ⟨?found, ?frame, ?dram, ?tags, ?bus, ?route, ?tap, ?clear, ?link, ?gsram, ?brass, ?rod, ?supervisor⟩
  case found => exact fun c u a s hp hu ha => ⟨patrolScrub_mem hp hu ha, patrolScrub_mem hp hu ha⟩
  case frame =>
    rintro u a s m hp hu ha rfl
    exact patrolScrub_mem (c := .frame) hp hu ha
  case dram =>
    rintro u a s m hp hu ha rfl
    exact patrolScrub_mem (c := .dram) hp hu ha
  case tags =>
    intro b a s hp hb
    have hbad : ¬(EccResult.uncorrectable = .good ∨ 4 ≤ b.val) := by
      rintro (hgood | hmany)
      · cases hgood
      · omega
    change execPatrolScrub .tags b a .uncorrectable s = _
    rw [execPatrolScrub, if_neg (by simp only [hp]; decide)]
    simp only [if_neg hbad]
  case bus => exact fun b a s hp hb => congrArg _ ((if_neg (by simp [hp])).trans (if_pos ⟨rfl, hb⟩))
  case route => exact fun r a s hp hr => congrArg _ ((if_neg (by simp [hp])).trans (if_pos ⟨rfl, hr⟩))
  case tap => exact fun k a s hp => congrArg _ ((if_neg (by simp [hp])).trans (if_pos rfl))
  case clear => exact fun c w s hmay hw => (onBar_may hmay).trans (congrArg _ (if_pos hw))
  case link => exact fun c s hp => congrArg _ (if_pos hp)
  case gsram =>
    rintro u a ks s hp hu ha rfl
    exact patrolScrub_mem (c := .gsram) hp hu ha
  case brass =>
    intro a s u hp ha hrec hu
    rw [patrolScrub_mem (c := .brass) hp (by decide) ha]
    exact congrArg _ (uncorrectable_brass hrec hu)
  case rod =>
    intro u a s hp hu ha
    exact patrolScrub_mem (c := .rod) hp hu ha
  case supervisor =>
    exact fun u a s hp hb => congrArg _ ((if_neg (by simp [hp])).trans (if_pos ⟨rfl, hb⟩))

section Port
variable {s : State} {t : Nat}

theorem portAt_setPort_same {p : PortState} (h : mapWf portReset s.ports = true) : portAt (setPort s t p) t = p :=
  mapGet_set_same h

theorem ports_setPort {p : PortState} (h : mapWf portReset s.ports = true) :
    mapWf portReset (setPort s t p).ports = true := mapWf_set h

@[simp] theorem portAt_captureError {m x kind k : Nat} : portAt (captureError s m x kind) k = portAt s k := by
  have hports : (captureError s m x kind).ports = s.ports := by
    unfold captureError
    dsimp only
    split <;> simp only [rset_ports, rput_ports, radd_ports]
  rw [portAt, hports, portAt]

/-- Time passing at an idle port does nothing (R52, R53). -/
theorem portAges_idle {n : Nat} (h : (portAt s t).waiting = []) :
    portAges s t n = setPort s t { portAt s t with waiting := [] } := by
  simp [portAges, h, forEach]

/-- A request that meets no error waits at the port (R47). -/
theorem arrive_waits {r : BusReq} (h : requestError s r.master t (r.addr + 64 * (r.beats.val + 1)) = 0) :
    arrive s t r = setPort s t { portAt s t with waiting := (portAt s t).waiting ++ [(r, 0)] } := by
  simp [arrive, h]

/-- A request of a fenced master completes at once with its error captured (R53). -/
theorem arrive_fenced {r : BusReq} (h : requestError s r.master t (r.addr + 64 * (r.beats.val + 1)) = 3) :
    arrive s t r = captureError s r.master t 3 := by
  simp [arrive, h, requestFails]

/-- A request that meets no error may be granted (R48). -/
theorem grantable_of_noError {r : BusReq} {age last : Nat} (h : requestError s r.master t last = 0) :
    grantable s t (r, age) = true := by
  simp only [requestError, masterFenced] at h
  grind [grantable]

/-- The only request at a port, if it may be granted, wins (R48). -/
theorem winner_single {x : BusReq × Nat} (h : (portAt s t).waiting = [x]) (hg : grantable s t x = true) :
    winner s t = some x := by
  simp [winner, h, hg]

theorem winner_idle (h : (portAt s t).waiting = []) : winner s t = none := by
  simp [winner, h]

end Port

/-- What a port does with what waits after its arrivals, whether it is parked on its last master or not (R48, R49). -/
def arbitrate (u v : State) (x : Nat) (ecc : EccResult) : State :=
  match if (portAt u x).waiting.isEmpty && ron v Reg.MTX_CTRL F.MTX_CTRL_PARK_EN then
    ((portAt v x).waiting.filter (grantable v x)).find? (fun y => y.1.master.val == (portAt u x).last) else none with
  | some y => grant v x y ecc
  | none => match winner v x with
    | some y => grant v x y ecc
    | none => v

/-- A single arrival at an idle port of a powered device is all that the port arbitrates. -/
theorem busRequest_single {x : Fin 24} {r : BusReq} {n : Nat} {ecc : EccResult} {s u : State} (hp : s.powered = true)
    (hidle : (portAt s x).waiting = []) (hu : u = setPort s x { portAt s x with waiting := [] }) :
    exec (.busRequest x [r] n ecc) s = .next (arbitrate u (arrive u x r) x ecc) := by
  change execBusRequest x [r] n ecc s = _
  simp only [execBusRequest, hp, portAges_idle hidle, ← hu]
  rfl

/-- A port grants the only request that waits, whether it is parked or not. -/
theorem arbitrate_single {u v : State} {x : Nat} {ecc : EccResult} {y : BusReq × Nat}
    (hw : (portAt v x).waiting = [y]) (hg : grantable v x y = true) : arbitrate u v x ecc = grant v x y ecc := by
  rw [arbitrate, hw, winner_single hw hg]
  simp only [List.filter_cons, hg, if_true, List.filter_nil]
  split
  · rename_i z hz
    split at hz
    · rw [List.mem_singleton.mp (List.mem_of_find?_eq_some hz)]
    · cases hz
  · rfl

theorem arbitrate_idle {u v : State} {x : Nat} {ecc : EccResult} (hw : (portAt v x).waiting = []) :
    arbitrate u v x ecc = v := by
  simp [arbitrate, hw, winner_idle hw]

/-- Settles O9: the only request at an idle port waits and is granted, or completes with its error and leaves nothing to
arbitrate. -/
theorem matrixComplete : Obligations.MatrixComplete := by
  unfold Obligations.MatrixComplete
  refine ⟨?granted, ?fenced, ?timeout, ?early, ?clear⟩
  case granted =>
    intro x r n ecc s u hp hidle hwf hu herr
    have hidleU : (portAt u x).waiting = [] := by rw [hu, portAt_setPort_same hwf]
    have hwfU : mapWf portReset u.ports = true := hu ▸ ports_setPort hwf
    have hwaits : arrive u x r = setPort u x { portAt u x with waiting := [(r, 0)] } := by
      rw [arrive_waits herr, hidleU, List.nil_append]
    have hport : (portAt (arrive u x r) x).waiting = [(r, 0)] := by rw [hwaits, portAt_setPort_same hwfU]
    have hmay : grantable (arrive u x r) x (r, 0) = true := by
      rw [hwaits]
      exact grantable_of_noError (s := u) herr
    rw [busRequest_single hp hidle hu, arbitrate_single hport hmay, grant, hport, ← hwaits]
    simp
  case fenced =>
    intro x r n ecc s u hp hidle hwf hu herr
    have hidleU : (portAt u x).waiting = [] := by rw [hu, portAt_setPort_same hwf]
    rw [busRequest_single hp hidle hu, arrive_fenced herr, arbitrate_idle (by simp [hidleU])]
  case timeout =>
    intro m x a n s hp hlong hidle
    change execMatrixTimeout m x ⟨a, n⟩ s = _
    simp only [execMatrixTimeout, hp, hidle, List.find?_nil, transactionLost]
    exact congrArg _ (if_neg (by simp [hlong]))
  case early =>
    intro m x a n s hshort
    exact congrArg _ (if_pos (by simp [hshort]))
  case clear =>
    intro w s hmay hw
    exact (onBar_may hmay).trans (congrArg _ (if_pos hw))

end Sys2Proof.Machine

/-! PROOFS. Writes to the sample fabric, and the streams' entries, deadline and clears. -/

namespace Sys2Proof.Machine
open Sys2Proof Sys2Proof.Safety

/-- A producer's write that the matrix takes is judged by owner, buffer and pipeline, in that order (R53, R57, R101). -/
theorem fabWriteAt_taken {s : State} {cls inst c b j : Nat} {w : Word} {repaired : Bool}
    (h : ∀ m, producerMaster cls inst = some m → fabError s m b c j = 0) :
    fabWriteAt s cls inst c b j w repaired =
      if !owns s cls inst c then nonOwner s c
      else if b ≠ writeBuf s then lateWrite s c
      else if !running s then s
      else setChan (gsSet s (beadWord s b c j) w) c { chanAt s c with
        written := (chanAt s c).written ||| 2 ^ j, repaired := (chanAt s c).repaired || repaired } := by
  rw [fabWriteAt, if_neg]
  cases hm : producerMaster cls inst with
  | none => simp
  | some m => simp [h m hm]

/-- A unit's write of a sample within the block, which the matrix takes. -/
theorem fabricWrite_unit {cls : Fin 10} {inst : Fin 4096} {c : Fin 1024} {b : Fin 4} {j : Fin 32} {w : Word} {s : State}
    (hl : live s = true) (hj : j.val < blk s) :
    exec (.fabricWrite (some (cls, inst)) c b j w) s = .next (fabWriteAt s cls inst c b j w false) := by
  change execFabricWrite (some (cls, inst)) c b j w s = _
  rw [execFabricWrite, onHost_live hl, if_neg (by omega)]

/-- Settles O14: a write within the block is judged by its owner, its buffer and the state of the pipeline. -/
theorem fabricComplete : Obligations.FabricComplete := by
  unfold Obligations.FabricComplete
  refine ⟨?stored, ?late, ?nonOwner, ?host, ?clear, ?keep⟩
  case stored =>
    intro cls inst c b j w s hl hj hown hbuf hrun htaken
    rw [fabricWrite_unit hl hj, fabWriteAt_taken htaken, if_neg (by simp [hown]), if_neg (by simp [hbuf]),
      if_neg (by simp [hrun]), Bool.or_false]
  case late =>
    intro cls inst c b j w s hl hj hown hbuf htaken
    rw [fabricWrite_unit hl hj, fabWriteAt_taken htaken, if_neg (by simp [hown]), if_pos hbuf, lateWrite]
  case nonOwner =>
    intro cls inst c b j w s hl hj hown htaken
    rw [fabricWrite_unit hl hj, fabWriteAt_taken htaken, if_pos (by simp [hown]), nonOwner]
  case host =>
    intro c b j w s hl hj
    change execFabricWrite none c b j w s = _
    rw [execFabricWrite, onHost_live hl, if_neg (by omega)]
    rfl
  case clear =>
    intro w s hmay hw
    exact (onBar_may hmay).trans (congrArg _ (if_pos hw))
  case keep =>
    intro w s hmay hw
    exact (onBar_may hmay).trans (congrArg _ (if_neg (by omega)))

theorem bytesAt_all {bs : List Byte} {n : Nat} (h : bs.length = n) : bytesAt bs 0 n = bs := by
  subst h
  simp [bytesAt]

/-- A STREAM_CFG of a receive stream, its image read and the engine not fenced (R305). -/
theorem streamCfg_rx {d : DescRef} {bs im : List Byte} {s u : State} (h : ready s d 0x29 bs) (hu : u = markAccepted s d)
    (hn : par bs 8 0 10 < 512) (him : im.length = 96) (hf : ron u Reg.STR_STAT F.STR_STAT_FENCED = false) :
    exec (.streamCfg d (some im)) s = .next (
      let v := writeImage u 0x0D01 (par bs 8 0 10) 24 (par bs 12 0 24) im 1
      if pon u P.STR_RX_EN (par bs 8 0 10) || threatens u v then finish u d stInvalidParam 0
      else finish v d stOk 0) := by
  refine (onDesc_ready h).trans (congrArg _ ?_)
  simp [withInput, ← hu, hn, bytesAt_all him, hf]

/-- A STREAM_CFG of a transmit stream, its image read and the engine not fenced (R305). -/
theorem streamCfg_tx {d : DescRef} {bs im : List Byte} {s u : State} (h : ready s d 0x29 bs) (hu : u = markAccepted s d)
    (hn : 512 ≤ par bs 8 0 10) (him : im.length = 64) (hf : ron u Reg.STR_STAT F.STR_STAT_FENCED = false) :
    exec (.streamCfg d (some im)) s = .next (
      let v := writeImage u 0x0D02 (par bs 8 0 10 - 512) 16 (par bs 12 0 24) im 1
      if pon u P.STR_TX_EN (par bs 8 0 10 - 512) || threatens u v then finish u d stInvalidParam 0
      else finish v d stOk 0) := by
  refine (onDesc_ready h).trans (congrArg _ ?_)
  simp [withInput, ← hu, Nat.not_lt.mpr hn, bytesAt_all him, hf]

/-- Settles O35: a STREAM_CFG is judged by its stream's EN and the pending tallies; the deadline and the clear are their
commands' own branches. -/
theorem streamsComplete : Obligations.StreamsComplete := by
  unfold Obligations.StreamsComplete
  refine ⟨?rx, ?tx, ?rxEnabled, ?txEnabled, ?deadline, ?clear⟩
  case rx =>
    rintro d bs im n s u v h hu rfl hn him hf hen rfl hthreat
    exact (streamCfg_rx h hu hn him hf).trans (congrArg _ (if_neg (by simp only [hen, hthreat]; decide)))
  case tx =>
    rintro d bs im n s u v h hu rfl hn him hf hen rfl hthreat
    exact (streamCfg_tx h hu hn him hf).trans (congrArg _ (if_neg (by simp only [hen, hthreat]; decide)))
  case rxEnabled =>
    intro d bs im s u h hu hn him hf hen
    simp [streamCfg_rx h hu hn him hf, hen]
  case txEnabled =>
    intro d bs im s u h hu hn him hf hen
    simp [streamCfg_tx h hu hn him hf, hen]
  case deadline =>
    rintro bad s u hl hrun rfl
    change execStreamBeadDeadline bad s = _
    rw [execStreamBeadDeadline, onHost_live hl, if_neg (by simp [hrun])]
  case clear =>
    rintro w s u hmay rfl hw
    exact (onBar_may hmay).trans (congrArg _ (if_pos hw))

end Sys2Proof.Machine

/-! PROOFS. Clocks, control rods, supplies and lost samples of a field die. -/

namespace Sys2Proof.Machine
open Sys2Proof Sys2Proof.Safety

/-- The answer of an event at a die that is here, by the state that its meaning makes. -/
theorem onDie_gives {s u : State} {d : Die} {f : State → State} (h : dieHere s d = true) (hf : f s = u) :
    onDie s d f = .next (settleDie s u d) := by
  rw [onDie_here h, hf]

/-- A reference other than the one shown is shown and raised (R338). -/
theorem setPllRef_changed {s : State} {d : Die} {r : Nat} (h : fget s d Reg.FLD_STAT F.FLD_STAT_PLL_REF ≠ r) :
    setPllRef s d r = fldRaise (fput s d Reg.FLD_STAT F.FLD_STAT_PLL_REF r) d 0x03 0xFF r := if_neg h

/-- Settles O40: each command acts on a die that is here, and each clause is the branch its hypotheses choose. -/
theorem fieldSafetyComplete : Obligations.FieldSafetyComplete := by
  unfold Obligations.FieldSafetyComplete
  refine ⟨?tick, ?faults, ?pllRef, ?pllLock, ?rodRestart, ?undervoltage, ?powerOn, ?hold, ?fade, ?idle, ?rearm,
    ?hostLost⟩
  case tick =>
    intro d i k s hd ht hc
    change execFieldTick d i s = _
    exact onDie_gives hd (by simp [ht, hc])
  case faults =>
    rintro d s u v hd rfl rfl
    constructor
    · change execPwmClkLoss d s = _
      rw [execPwmClkLoss, onDie_here hd]
      simp only [makeSafe]
    · change execFieldRodFault d s = _
      rw [execFieldRodFault, onDie_here hd]
      simp only [makeSafe]
  case pllRef =>
    intro d r s hd hnew hr
    change execFieldPllRefChange d r s = _
    exact onDie_gives hd ((if_pos hr).trans (setPllRef_changed hnew))
  case pllLock =>
    rintro d r s u hd hbad hr rfl
    change execFieldPllLock d r s = _
    exact onDie_gives hd ((if_neg (fun hother => hother hr)).trans (if_pos hbad))
  case rodRestart =>
    rintro d s u hd hbad rfl
    change execFieldRodRestart d s = _
    exact onDie_gives hd (if_pos hbad)
  case undervoltage => exact fun d s hd => congrArg _ (if_pos hd)
  case powerOn =>
    intro d s hd hoff
    have hstarts : (diePresent s d && !(dieAt s d).on) = true := by simp [hd, hoff]
    exact ⟨fun huv => congrArg _ ((if_pos hstarts).trans (if_neg (by simp [huv]))),
      fun huv => congrArg _ ((if_pos hstarts).trans (if_pos huv))⟩
  case hold =>
    intro d c s hd hacts hst hlong
    change execLossHoldEnd d c s = _
    exact onDie_gives hd (if_pos ⟨hacts, hst, hlong⟩)
  case fade =>
    intro d c s hd hacts hst hpos
    change execLossFadeEnd d c s = _
    exact onDie_gives hd (if_pos ⟨hacts, hst, hpos⟩)
  case idle =>
    intro d c s hd hacts hst hlong
    change execLossIdleEnd d c s = _
    exact onDie_gives hd (if_pos ⟨hacts, hst, hlong⟩)
  case rearm =>
    rintro d c s u hd hacts hst hlong harm hsafe rfl
    change execLossRearm d c s = _
    exact onDie_gives hd (if_pos ⟨hacts, hst, hlong, harm, by simp [hsafe]⟩)
  case hostLost =>
    rintro d s u hd hmissed hlost rfl
    change execHostLost d s = _
    exact onDie_gives hd (if_neg (by simp [hlost, hmissed]))

end Sys2Proof.Machine

/-! PROOFS. The clocks of the brass island, and the reference candidates: what each event does to a candidate, and the
selector's move to a better one. -/

namespace Sys2Proof.Machine
open Sys2Proof Sys2Proof.Safety

/-- The answer of a command on the host die, by the state that its meaning makes. -/
theorem onHost_gives {s u : State} {f : State → State} (h : live s = true) (hf : f s = u) : onHost s f = .next u := by
  rw [onHost_live h, hf]

/-- The answer of an event in the brass island, by the state that its meaning makes. -/
theorem onIsland_gives {s u : State} {f : State → State} (h : s.powered = true) (hf : f s = u) :
    onIsland s f = .next u := by
  rw [onIsland_powered h, hf]

section Clocks
variable {s : State}

/-- With nothing waiting a step is a cycle of TIME_CLK. -/
theorem step_idle (h : s.pending = []) : step s = .next (tick s) := by rw [step, h]

/-- Without a supply a cycle only lets FAULT_N go (R560). -/
theorem tick_unpowered (h : s.powered = false) : tick s = rclr s Reg.FLT_STAT F.FLT_STAT_FAULT_N_LOW :=
  if_pos (by simp [h])

/-- A powered device counts its operating time, and device time while XO_IN runs (R62, R63, R492). -/
theorem tick_powered (h : s.powered = true) : tick s =
    if s.time.xoLost then { s with recorder := countOptime s.recorder }
    else { s with recorder := countOptime s.recorder, time := { s.time with cnt := (s.time.cnt + 1) % 2 ^ 64 } } :=
  if_neg (by simp [h])

/-- A lock bit follows its synthesizer, and its loss raises a source (R93). -/
theorem lockBit_follows (s : State) (a : Nat) (f : Fld) (b : Bool) (id : Nat) :
    (if b then rbit s a f b else raise (rbit s a f b) id noInst 0) =
      if b then rset s a f else raise (rclr s a f) id noInst 0 := by
  cases b with
  | true => rw [if_pos rfl, if_pos rfl, rbit, b2n, if_pos rfl, rset]
  | false => rw [if_neg Bool.false_ne_true, if_neg Bool.false_ne_true, rbit, b2n, if_neg Bool.false_ne_true, rclr]

end Clocks

section Candidates
variable {s : State} {n : Nat}

theorem disqualify_qualified (h : ron (noteCands s) (Reg.REF_CSTAT n) F.REF_CSTAT_QUALIFIED = true) :
    disqualify s n = reselect (raise (rset (rclr { noteCands s with loop := { (noteCands s).loop with
      qualSince := (noteCands s).loop.qualSince.filter (fun p => p.1 != n) } } (Reg.REF_CSTAT n) F.REF_CSTAT_QUALIFIED)
      (Reg.REF_CSTAT n) F.REF_CSTAT_DISQ) (0x080 + n) n 0) := if_pos h

theorem disqualify_unqualified (h : ron (noteCands s) (Reg.REF_CSTAT n) F.REF_CSTAT_QUALIFIED = false) :
    disqualify s n = noteCands s := if_neg (ne_true_of_eq_false h)

/-- A good candidate that was not qualified, and has no step refused, is qualified from this count on (R75). -/
theorem qualify_good (hgood : candGood s n = true)
    (hstep : ron s (Reg.REF_CSTAT n) F.REF_CSTAT_STEP_REFUSED = false)
    (hnew : ron s (Reg.REF_CSTAT n) F.REF_CSTAT_QUALIFIED = false) :
    qualify s n = reselect (rset { s with loop := { s.loop with
      qualSince := (n, s.time.cnt) :: s.loop.qualSince.filter (fun p => p.1 != n) } }
      (Reg.REF_CSTAT n) F.REF_CSTAT_QUALIFIED) := by
  simp [qualify, hgood, hstep, hnew]

/-- The selector moves to another candidate: SEL names it, and the loop finds it at its next update (R76, R82). -/
theorem selectCandidate_other (hne : n ≠ selected s) (hc : n ≠ noCand) :
    selectCandidate s n = rput s Reg.REF_STAT F.REF_STAT_SEL n :=
  (if_neg hne).trans (if_neg hc)

/-- A candidate of higher priority than the selected one is another one. -/
theorem ne_selected_of_prio (h : rget s (Reg.REF_CAND (selected s)) F.REF_CAND_PRIO <
    rget s (Reg.REF_CAND n) F.REF_CAND_PRIO) : n ≠ selected s := by
  rintro rfl
  exact Nat.lt_irrefl _ h

end Candidates

/-- Settles O4: a step with nothing waiting is a tick; each event of the island or of a candidate takes the branch that
its hypotheses choose. -/
theorem clocksAndReferencesComplete : Obligations.ClocksAndReferencesComplete := by
  unfold Obligations.ClocksAndReferencesComplete
  refine ⟨⟨?runs, ?holds, ?unpowered⟩, ⟨?xoLost, ?xoReturn, ?msyn, ?timePll⟩,
    ?lostQualified, ?lostUnqualified, ?restored, ?biphase, ?gate, ?qualified, ?early, ?revert, ?waiting⟩
  case runs =>
    intro s hidle hp hx
    rw [step_idle hidle, tick_powered hp, if_neg (ne_true_of_eq_false hx)]
  case holds =>
    intro s hidle hp hx
    rw [step_idle hidle, tick_powered hp, if_pos hx]
  case unpowered =>
    intro s hidle hp
    rw [step_idle hidle, tick_unpowered hp]
  case xoLost =>
    intro s hp
    change execXoInLost s = _
    exact onIsland_gives hp rfl
  case xoReturn =>
    intro s hp
    change execXoInReturn s = _
    exact onIsland_gives hp rfl
  case msyn =>
    intro b s hp
    change execMsynOutOfLock b s = _
    exact onIsland_gives hp (lockBit_follows ..)
  case timePll =>
    intro b s hp
    change execTimePllOutOfLock b s = _
    exact onIsland_gives hp (lockBit_follows ..)
  case lostQualified =>
    rintro c s u v hl hc rfl hq rfl
    change execRefActivityLost c s = _
    exact onHost_gives hl ((if_neg (Nat.not_le.mpr hc)).trans (disqualify_qualified hq))
  case lostUnqualified =>
    rintro c s u hl hc rfl hq
    change execRefActivityLost c s = _
    exact onHost_gives hl ((if_neg (Nat.not_le.mpr hc)).trans (disqualify_unqualified hq))
  case restored =>
    intro c s hl hc
    change execRefActivityRestored c s = _
    exact onHost_gives hl (if_neg (Nat.not_le.mpr hc))
  case biphase =>
    intro c s hc
    constructor
    · change execRefActivityLost c s = _
      simp only [execRefActivityLost, onHost, if_pos hc, ite_self]
    · change execRefActivityRestored c s = _
      simp only [execRefActivityRestored, onHost, if_pos hc, ite_self]
  case gate =>
    rintro c x s u hl hc rfl
    change execRefFrequencyGate c x s = _
    exact onHost_gives hl (if_neg (not_or.mpr hc))
  case qualified =>
    rintro c l s hl hen hact hofs hstep hnew hstood rfl
    have hgood : candGood s c = true := by simp [candGood, hen, hact, hofs]
    change execRefQualified c s = _
    exact onHost_gives hl ((if_pos hstood).trans (qualify_good hgood hstep hnew))
  case early =>
    intro c s hl hstood
    change execRefQualified c s = _
    exact onHost_gives hl (if_neg (ne_true_of_eq_false hstood))
  case revert =>
    intro c s hl hen hmode hrev helig hsel hstood hprio
    have hreal : c.val ≠ noCand := Nat.ne_of_lt (Nat.lt_trans c.isLt (by decide))
    change execRevertWaitExpiry c s = _
    refine onHost_gives hl (.trans (if_pos ?_) (selectCandidate_other (ne_selected_of_prio hprio) hreal))
    simp [hen, hmode, hrev, helig, hsel, tickRate, hstood, hprio]
  case waiting =>
    intro c s hl hstood
    change execRevertWaitExpiry c s = _
    refine onHost_gives hl (if_neg ?_)
    simp [tickRate, hstood]

end Sys2Proof.Machine

/-! PROOFS. The clean-up loop: its update in each state, fast acquire's dwell, the hourly refit and the temperature. -/

namespace Sys2Proof.Machine
open Sys2Proof Sys2Proof.Safety

section Loop
variable {s : State} {x : Int} {rate : Nat}

/-- In a state that tracks no candidate an update of the selected one starts acquisition (R82, R84). -/
theorem loopStep_starts (hsel : selected s ≠ noCand) (hst : loopState s = stFreeRun) :
    loopStep s x rate = startAcquire s (selected s) rate (reducePhase s (selected s)
      ((x + rgetI s Reg.REF_POFS F.REF_POFS_POFS * 65536 : Int) : Rat)) := by
  have huntracked : loopState s ≠ stAcquiring ∧ loopState s ≠ stLocked := by rw [hst]; decide
  exact (if_neg hsel).trans (if_pos huntracked)

/-- An update of the candidate that the loop follows runs the filter (R77, R85). -/
theorem loopStep_filters (hsel : selected s ≠ noCand) (hst : loopState s = stAcquiring ∨ loopState s = stLocked)
    (hcand : s.loop.cand = selected s) :
    loopStep s x rate = filterUpdate s (selected s) rate (reducePhase s (selected s)
      (((x + rgetI s Reg.REF_POFS F.REF_POFS_POFS * 65536 : Int) : Rat) - decayBuildout s (selected s)))
      (decayBuildout s (selected s)) := by
  have htracked : ¬(loopState s ≠ stAcquiring ∧ loopState s ≠ stLocked) :=
    fun ⟨hacq, hlock⟩ => hst.elim hacq hlock
  exact (if_neg hsel).trans ((if_neg htracked).trans (if_neg (not_not_intro hcand)))

/-- Another bandwidth code begins a dwell of its own (R80). -/
theorem setBw_other {code : Nat} (h : code ≠ s.loop.bw) : setBw s code =
    { rput s Reg.REF_STAT F.REF_STAT_BW_NOW code with loop := { s.loop with bw := code, dwellAt := s.time.cnt } } := by
  simp [setBw, h]

/-- A refit closes the hour and writes, of the registers, REF_AGE alone (R90). -/
theorem refitAge_eq (s : State) : ∃ v pts slope, refitAge s = { rput s Reg.REF_AGE F.REF_AGE_A_VALID v with
    loop := { s.loop with
      hours := s.loop.hours + 1, hourly := pts, hourSum := 0, hourN := 0, learnedA := slope } } := by
  unfold refitAge
  extract_lets l win hours pts pts' s1 s2
  split
  · exact ⟨_, _, _, rfl⟩
  · exact ⟨_, _, _, rfl⟩

end Loop

/-- Settles O12: an update takes the branch of the loop's state, and each timed event of the loop the branch that its
hypotheses choose. -/
theorem loopComplete : Obligations.LoopComplete := by
  unfold Obligations.LoopComplete
  refine ⟨?starts, ?filters, ?narrows, ?dwelling, ?holdover, ?refit, ?reading, ?openDiode, ?pstep⟩
  case starts =>
    intro x rate s hl hsel hst
    change execLoopUpdate x rate s = _
    refine onHost_gives hl ((loopStep_starts hsel hst).trans ?_)
    push_cast
    rfl
  case filters =>
    intro x rate s hl hsel hst hcand
    change execLoopUpdate x rate s = _
    refine onHost_gives hl ((loopStep_filters hsel hst hcand).trans ?_)
    push_cast
    rfl
  case narrows =>
    intro s hl hfast hst hclean hover hbw
    have hfull : decide ((s.time.cnt - s.loop.dwellAt) * bandwidthMilli s.loop.bw < 5000 * tickRate) = false :=
      decide_eq_false (Nat.not_lt.mpr hover)
    change execFastAcquireDwellEnd s = _
    refine onHost_gives hl ((if_neg ?_).trans ((if_neg (ne_true_of_eq_false hclean)).trans (setBw_other ?_)))
    · simp [hfast, hst, hfull]
    · exact Nat.ne_of_lt (Nat.sub_one_lt hbw)
  case dwelling =>
    intro s hl hshort
    change execFastAcquireDwellEnd s = _
    refine onHost_gives hl (if_pos ?_)
    simp [tickRate, hshort]
  case holdover =>
    intro s hl hst
    change execHoldoverEvaluation s = _
    exact onHost_gives hl (if_pos hst)
  case refit =>
    intro s hl hwf
    obtain ⟨v, pts, slope, hrefit⟩ := refitAge_eq s
    refine ⟨_, onHost_gives hl hrefit, rfl, rfl, rfl, ?_, rfl, rfl, rfl, rfl, rfl⟩
    exact fun a ha =>
      rd_rput_other (s := s) (f := F.REF_AGE_A_VALID) (v := v) hwf (List.ne_of_not_mem_cons ha)
  case reading =>
    rintro die v s u hl rfl
    change execTemperatureReading die (some v) s = _
    exact onHost_gives hl (if_neg Bool.false_ne_true)
  case openDiode =>
    rintro die s u hl hgood rfl
    change execTemperatureReading die none s = _
    refine onHost_gives hl ((if_pos (by simp [hgood])).trans ?_)
    rw [Option.getD_none, ite_self]
    rfl
  case pstep => exact fun w s hmay => onBar_may hmay

end Sys2Proof.Machine

/-! PROOFS. Device time: the requests to the step unit, the steps that it applies and refuses, and PPS_OUT. -/

namespace Sys2Proof.Machine
open Sys2Proof Sys2Proof.Safety

section Time
variable {s : State} {v : Int} {d : DescRef} {rest : List StepReq}

/-- A register write leaves device time alone. -/
theorem rwrite_time (s : State) (a : Nat) (w : Word) : (rwrite s a w).time = s.time := by
  cases h : hostRow a with
  | none => rw [rwrite_no_row h]
  | some r => rw [rwrite_row h, wr_time]

theorem takeTurn_time (s : State) (n : Nat) : (takeTurn s n).time = s.time := by
  unfold takeTurn
  split
  · rfl
  · rfl

/-- Accepting a descriptor leaves device time alone. -/
theorem markAccepted_time (s : State) (d : DescRef) : (markAccepted s d).time = s.time := takeTurn_time s d.qp

theorem stepPending_markAccepted (s : State) (d : DescRef) (o : StepOrigin) :
    stepPending (markAccepted s d) o = stepPending s o := by
  rw [stepPending, markAccepted_time, stepPending]

/-- The request of a TIME_SET waits behind those there are (R70). -/
theorem submitStep_timeSet (s : State) (absolute force : Bool) (ref : Option DescRef) :
    submitStep s ⟨.timeSet, absolute, v, force, ref⟩ =
      { s with time := { s.time with steps := s.time.steps ++ [⟨.timeSet, absolute, v, force, ref⟩] } } := rfl

/-- The step unit's limit as the model compares it. -/
theorem jumpLimit_natAbs (s : State) : ((rget s Reg.TIME_JUMP_MAX F.TIME_JUMP_MAX_NS : Int) * 65536).natAbs =
    rget s Reg.TIME_JUMP_MAX F.TIME_JUMP_MAX_NS * 65536 := by omega

/-- The oldest request, a relative step of a TIME_SET within the limit, is applied and its descriptor completes
(R67). -/
theorem runStep_applies (hsteps : s.time.steps = ⟨.timeSet, false, v, false, some d⟩ :: rest)
    (hin : v.natAbs ≤ rget s Reg.TIME_JUMP_MAX F.TIME_JUMP_MAX_NS * 65536)
    (hmax : rget s Reg.TIME_JUMP_MAX F.TIME_JUMP_MAX_NS ≠ 0) :
    runStep s = finish (applyStep { s with time := { s.time with steps := rest } } v) d stOk
      (wrapTo 64 (Int.tdiv v 65536)) := by
  have happly : (!ron s Reg.TIME_STAT F.TIME_STAT_VALID ||
      (decide (v.natAbs ≤ ((rget s Reg.TIME_JUMP_MAX F.TIME_JUMP_MAX_NS : Int) * 65536).natAbs) &&
        (rget s Reg.TIME_JUMP_MAX F.TIME_JUMP_MAX_NS : Int) != 0)) = true := by
    simp [jumpLimit_natAbs, hin, hmax]
  rw [runStep, hsteps]
  exact if_pos happly

/-- A larger step is refused while time is valid and nothing forces it (R67). -/
theorem runStep_refuses {u : State} (hsteps : s.time.steps = ⟨.timeSet, false, v, false, some d⟩ :: rest)
    (hvalid : ron s Reg.TIME_STAT F.TIME_STAT_VALID = true)
    (hforce : ron s Reg.TIME_CTRL F.TIME_CTRL_FORCE = false)
    (hout : rget s Reg.TIME_JUMP_MAX F.TIME_JUMP_MAX_NS * 65536 < v.natAbs)
    (hu : u = rputI (rset { s with time := { s.time with steps := rest } } Reg.TIME_STAT F.TIME_STAT_JUMP_REFUSED)
      Reg.TIME_REFUSED_NS F.TIME_REFUSED_NS_DELTA (deltaNs v)) :
    runStep s = finish (raise u 0x0C0 noInst (wrapTo 32 (deltaNs v))) d stInvalidParam
      (wrapTo 64 (Int.tdiv v 65536)) := by
  have hlarge : ¬(!ron s Reg.TIME_STAT F.TIME_STAT_VALID ||
      (decide (v.natAbs ≤ ((rget s Reg.TIME_JUMP_MAX F.TIME_JUMP_MAX_NS : Int) * 65536).natAbs) &&
        (rget s Reg.TIME_JUMP_MAX F.TIME_JUMP_MAX_NS : Int) != 0)) = true := by
    simp [jumpLimit_natAbs, hvalid, Nat.not_le.mpr hout]
  rw [runStep, hsteps, hu]
  exact (if_neg hlarge).trans (if_neg (ne_true_of_eq_false hforce))

end Time

/-- Settles O13: a write or read of a time register is the host's access to it, a TIME_SET waits behind the requests
there are, and the step unit and PPS_OUT take the branch that their hypotheses choose. -/
theorem timeComplete : Obligations.TimeComplete := by
  unfold Obligations.TimeComplete
  refine ⟨⟨?rate, ?rateRefused, ?adjGo, ?force, ?forceExpiry, ?applied, ?refused, ?setRelative, ?setAbsolute⟩,
    ?nowRead, ?cntRead, ?baseRead, ?pulse, ?pulseEnd⟩
  case rate =>
    rintro w s u hmay hfollow hin rfl
    refine (onBar_may hmay).trans (congrArg _ ?_)
    exact (if_neg (ne_true_of_eq_false hfollow)).trans (if_neg (Nat.not_lt.mpr hin))
  case rateRefused =>
    intro w s hmay hfollow hout
    refine (onBar_may hmay).trans (congrArg _ ?_)
    exact (if_neg (ne_true_of_eq_false hfollow)).trans (if_pos hout)
  case adjGo =>
    intro w s hmay hgo habs hbusy
    refine (onBar_may hmay).trans (congrArg _ ?_)
    rw [hostTimeAdjGo, if_neg (by simp [hgo, hbusy]), if_neg (by simp [habs])]
    rfl
  case force =>
    rintro w s u hmay rfl
    refine (onBar_may hmay).trans (congrArg _ ?_)
    rw [hostForce, rwrite_time]
  case forceExpiry =>
    intro s hp
    change execForceExpiry s = _
    exact onIsland_gives hp rfl
  case applied =>
    intro s v d rest hp hsteps _ hin hmax
    change execTimeStepApply s = _
    exact onIsland_gives hp (runStep_applies hsteps hin hmax)
  case refused =>
    intro s u v d rest hp hsteps hvalid hforce hout hu
    change execTimeStepApply s = _
    exact onIsland_gives hp (runStep_refuses hsteps hvalid hforce hout hu)
  case setRelative =>
    intro d bs s h hrel hfree
    refine (onDesc_ready h).trans (congrArg _ ((if_neg (by omega)).trans ?_))
    rw [stepPending_markAccepted, if_neg (ne_true_of_eq_false hfree), submitStep_timeSet, markAccepted_time]
  case setAbsolute =>
    intro d bs s h habs hns hfree
    refine (onDesc_ready h).trans (congrArg _ ((if_pos habs).trans ((if_neg (Nat.not_lt.mpr hns)).trans ?_)))
    rw [stepPending_markAccepted, if_neg (ne_true_of_eq_false hfree), submitStep_timeSet, markAccepted_time]
  case nowRead => exact fun s hmay => onBar_may hmay
  case cntRead => exact fun s hmay => onBar_may hmay
  case baseRead => exact fun s hmay => onBar_may hmay
  case pulse =>
    intro s hp hgate hfirst hfresh
    change execPpsPulse s = _
    refine onIsland_gives hp (if_pos ?_)
    cases hlast : s.time.ppsLast with
    | none => simp [hgate, hfirst]
    | some j => simp [hgate, hfirst, hfresh j hlast]
  case pulseEnd =>
    intro s hp hover
    change execPpsPulseEnd s = _
    exact onIsland_gives hp (if_pos hover)

end Sys2Proof.Machine

/-! PROOFS. The audio ports: writes of their control registers, the frames they take and send, their states and groups,
and the ASRC's lock. -/

namespace Sys2Proof.Machine
open Sys2Proof Sys2Proof.Safety

section Tdm
variable {s u v : State} {n : Nat} {w : Word}

/-- MODE 0 or 3 takes a port that is not OFF, and that nothing holds, OFF; the other fields only set REFUSED where the
write would change them (R116, R119, R135). -/
theorem writeTdmCtrl_stops (hon : ptState s n ≠ ptOff)
    (hmode : fldGet F.TDM_CTRL_MODE w = 0 ∨ fldGet F.TDM_CTRL_MODE w = 3)
    (hu : u = if fldPut F.TDM_CTRL_MODE 0 ((w &&& 0x001F0FFF) ||| (rd s (Reg.TDM_CTRL n) &&& ~~~0x001F0FFF)) =
      fldPut F.TDM_CTRL_MODE 0 (rd s (Reg.TDM_CTRL n)) then s else rset s (Reg.TDM_STAT n) F.TDM_STAT_REFUSED)
    (hfree : portHeld u (ron u (Reg.TDM_STAT n) F.TDM_STAT_FENCED) (unitTdm n) = false) :
    writeTdmCtrl s n w = rput (rxOff (portLeft (rclr u (Reg.TDM_STAT n) F.TDM_STAT_FENCED) n) n) (Reg.TDM_CTRL n)
      F.TDM_CTRL_MODE (fldGet F.TDM_CTRL_MODE w) := by
  simp only [writeTdmCtrl, decide_eq_false hon, Bool.false_eq_true, if_false, ← hu, hfree]
  exact if_pos hmode

/-- MODE 1 or 2, with settings that R106 and R108 allow, starts an OFF port that nothing holds (R116). -/
theorem writeTdmCtrl_starts (hoff : ptState s n = ptOff)
    (hmode : fldGet F.TDM_CTRL_MODE w = 1 ∨ fldGet F.TDM_CTRL_MODE w = 2)
    (hu : u = wr s (Reg.TDM_CTRL n) (fldPut F.TDM_CTRL_MODE (fldGet F.TDM_CTRL_MODE (rd s (Reg.TDM_CTRL n)))
      ((w &&& 0x001F0FFF) ||| (rd s (Reg.TDM_CTRL n) &&& ~~~0x001F0FFF))))
    (hfree : portHeld u (ron u (Reg.TDM_STAT n) F.TDM_STAT_FENCED) (unitTdm n) = false)
    (hv : v = rclr u (Reg.TDM_STAT n) F.TDM_STAT_FENCED)
    (hok : tdmFormatOk v n (fldGet F.TDM_CTRL_MODE w) = true) :
    writeTdmCtrl s n w =
      setPtState (rput v (Reg.TDM_CTRL n) F.TDM_CTRL_MODE (fldGet F.TDM_CTRL_MODE w)) n ptQualifying := by
  have hruns : ¬(fldGet F.TDM_CTRL_MODE w = 0 ∨ fldGet F.TDM_CTRL_MODE w = 3) := by omega
  simp only [writeTdmCtrl, decide_eq_true hoff, if_true, ← hu, hfree, Bool.false_eq_true, if_false, ← hv, hok]
  exact if_neg hruns

/-- An edge or a valid preamble wakes a LOST port (Table 03-3). -/
theorem wakeLost_lost (h : ptState s n = ptLost) : wakeLost s n = setPtState s n ptQualifying := if_pos h

theorem wakeLost_other (h : ptState s n ≠ ptLost) : wakeLost s n = s := if_neg h

end Tdm

/-- Settles O15: a write of TDM_CTRL or TDM_RAW_CTRL is the host's access to it, and a frame takes the branch of its
port's state. -/
theorem tdmComplete : Obligations.TdmComplete := by
  unfold Obligations.TdmComplete
  refine ⟨?stops, ?starts, ?sends, ?wakes, ?receives, ?arms⟩
  case stops =>
    intro n w s u hmay hmode hon hu hfree
    exact (onBar_may hmay).trans (congrArg _ (writeTdmCtrl_stops hon hmode hu hfree))
  case starts =>
    intro n w s u hmay hoff hmode hu hfree hok
    exact (onBar_may hmay).trans (congrArg _ (writeTdmCtrl_starts hoff hmode hu hfree rfl hok))
  case sends =>
    intro n j s hl hrun hmaster hj
    change execTdmMasterFrameStart n j s = _
    exact onHost_gives hl (if_pos ⟨hrun, hmaster, hj⟩)
  case wakes =>
    intro n pos k ws s hl hlost
    change execTdmFrameReceive n pos k ws s = _
    exact onHost_gives hl ((if_pos hlost).trans (wakeLost_lost hlost))
  case receives =>
    rintro n pos k _ ws s hl hrun hskip rfl
    have hnotLost : ptState s n ≠ ptLost := by rw [hrun]; decide
    have hnotOff : ptState s n ≠ ptOff := by rw [hrun]; decide
    have hqualified : ptState s n ≠ ptQualifying := by rw [hrun]; decide
    change execTdmFrameReceive n pos k ws s = _
    refine onHost_gives hl ?_
    dsimp only
    rw [if_neg hnotLost, if_neg hnotOff, if_neg (ne_true_of_eq_false hskip), if_neg hqualified]
  case arms =>
    rintro n w s u hmay harm rfl
    exact (onBar_may hmay).trans (congrArg _ (if_pos harm))

/-- A port's 10 ms gate while RUNNING without the converter: the offset is stored and the gate counted, and an offset
beyond REJECT ends RUNNING (R109, R116). -/
theorem portFrequencyGate_running {p : Fin 32} {x : Int} {s u v : State} (hl : live s = true)
    (hrun : ptState s p = ptRunning) (hgrid : isGridMaster s p = false)
    (hu : u = rputI s (ptFofs p) F.TDM_FOFS_FOFS x) (hasrc : ptAsrc u p = false)
    (hv : v = setRx u p { rxAt u p with gates := if x.natAbs ≤ portAccept u p then (rxAt u p).gates + 1 else 0 }) :
    execPortFrequencyGate p x s =
      .next (if portReject u p < x.natAbs then dropOut v p ptQualifying (windowSource p) else v) := by
  have hasrcV : ptAsrc v p = false := by rw [hv]; exact hasrc
  refine onHost_gives hl ((if_pos ⟨.inl hrun, by simp [hgrid]⟩).trans ?_)
  simp [← hu, ← hv, hrun, hasrcV]

/-- Settles O16: each event of a port takes the branch of its state, and a group's membership is written or refused by
`groupOk`. -/
theorem portStatesComplete : Obligations.PortStatesComplete := by
  unfold Obligations.PortStatesComplete
  refine ⟨?qualified, ?tdmLost, ?biphaseLost, ?gateQualifying, ?gateRunning, ?group, ?settled, ?unlocked⟩
  case qualified =>
    intro p s hl hst hgrid hgates
    change execPortQualified p s = _
    exact onHost_gives hl (if_pos ⟨hst, by simp [hgrid], hgates⟩)
  case tdmLost =>
    intro p s hl hp hrun hmaster
    have htdm : isTdm p = true := decide_eq_true hp
    change execPortClockLost p s = _
    refine onHost_gives hl ?_
    simp only [htdm, hmaster, hrun, if_true, Bool.false_eq_true, if_false]
  case biphaseLost =>
    intro p s u hl hp hu hrun hmaster
    have htdm : isTdm p = false := decide_eq_false (Nat.not_lt.mpr hp)
    change execPortClockLost p s = _
    refine onHost_gives hl ?_
    simp only [htdm, ← hu, hmaster, hrun, if_true, Bool.false_eq_true, if_false]
  case gateQualifying =>
    rintro p x s u hl hst hgrid rfl
    change execPortFrequencyGate p x s = _
    refine onHost_gives hl ((if_pos ⟨.inr hst, by simp [hgrid]⟩).trans ?_)
    simp [hst, ptQualifying, ptRunning]
  case gateRunning =>
    intro p x s u v hl hrun hgrid hu hasrc hv
    exact portFrequencyGate_running hl hrun hgrid hu hasrc hv
  case group =>
    intro g w s hmay
    refine (onBar_may hmay).trans (congrArg _ ?_)
    change writeAgrpMem s g w = _
    rw [writeAgrpMem]
    cases groupOk s g w with
    | true => rfl
    | false => rfl
  case settled =>
    intro p x s hl hrun hasrc
    change execAsrcLock p true x s = _
    exact onHost_gives hl ((if_pos rfl).trans (if_pos ⟨hrun, hasrc⟩))
  case unlocked =>
    intro p x s hl hlock
    change execAsrcLock p false x s = _
    exact onHost_gives hl ((if_neg Bool.false_ne_true).trans (if_pos hlock))

section Biphase
variable {s u v : State} {n : Nat} {w : Word}

/-- Clearing EN takes a receiver that is not OFF, and that nothing holds, OFF (R116). -/
theorem writeBphRxCtrl_stops (hon : ptState s (16 + n) ≠ ptOff)
    (hfree : portHeld s (rxAt s (16 + n)).fenced (unitBph n) = false) (hen : fldGet F.BPH_RX_CTRL_EN w = 0)
    (hu : u = setRx s (16 + n) { rxAt s (16 + n) with fenced := false }) :
    writeBphRxCtrl s n w =
      rclr (followLock (rxOff (portLeft u (16 + n)) (16 + n)) n) (Reg.BPH_RX_CTRL n) F.BPH_RX_CTRL_EN := by
  simp only [writeBphRxCtrl, decide_eq_false hon, Bool.false_eq_true, if_false, hfree, ← hu]
  exact if_pos hen

/-- Setting EN, with a channel pair that exists and NOM_HZ only beside ASRC, starts an OFF receiver that nothing holds
(R116, R124, R136). -/
theorem writeBphRxCtrl_starts (hoff : ptState s (16 + n) = ptOff)
    (hu : u = wr s (Reg.BPH_RX_CTRL n)
      (fldPut F.BPH_RX_CTRL_EN (rget s (Reg.BPH_RX_CTRL n) F.BPH_RX_CTRL_EN) (w &&& 0x03FF0007)))
    (hfree : portHeld u (rxAt u (16 + n)).fenced (unitBph n) = false) (hen : fldGet F.BPH_RX_CTRL_EN w = 1)
    (hv : v = setRx u (16 + n) { rxAt u (16 + n) with fenced := false })
    (hbase : rget v (Reg.BPH_RX_CTRL n) F.BPH_RX_CTRL_CH_BASE ≤ 1022)
    (hrate : ptAsrc v (16 + n) = true ∨ rget v (Reg.BPH_RX_RATE n) F.BPH_RX_RATE_NOM_HZ = 0) :
    writeBphRxCtrl s n w = setPtState (rset v (Reg.BPH_RX_CTRL n) F.BPH_RX_CTRL_EN) (16 + n) ptQualifying := by
  have hset : ¬fldGet F.BPH_RX_CTRL_EN w = 0 := by omega
  have hallowed : ¬(rget v (Reg.BPH_RX_CTRL n) F.BPH_RX_CTRL_CH_BASE > 1022 ∨
      (!ptAsrc v (16 + n)) = true ∧ rget v (Reg.BPH_RX_RATE n) F.BPH_RX_RATE_NOM_HZ ≠ 0) := by
    rintro (hover | ⟨hsync, hnom⟩)
    · exact Nat.not_le.mpr hover hbase
    · exact hrate.elim (fun hasrc => by simp [hasrc] at hsync) hnom
  simp only [writeBphRxCtrl, decide_eq_true hoff, if_true, ← hu, hfree, Bool.false_eq_true, if_false, ← hv]
  exact (if_neg hset).trans (if_neg hallowed)

/-- A write of BPH_TX_CTRL to a transmitter that nothing holds takes it out of its fence and acts by EN, CH_BASE and
RUNNING, in that order (R128, R136). -/
theorem writeBphTxCtrl_free
    (hu : u = wr s (Reg.BPH_TX_CTRL n)
      (fldPut F.BPH_TX_CTRL_EN (rget s (Reg.BPH_TX_CTRL n) F.BPH_TX_CTRL_EN) (w &&& 0x03FF000F)))
    (hfree : portHeld u (ron u (Reg.BPH_TX_STAT n) F.BPH_TX_STAT_FENCED) (unitBph n) = false)
    (hv : v = rclr u (Reg.BPH_TX_STAT n) F.BPH_TX_STAT_FENCED) :
    writeBphTxCtrl s n w =
      if fldGet F.BPH_TX_CTRL_EN w = 0 then rclr (txOff v n) (Reg.BPH_TX_CTRL n) F.BPH_TX_CTRL_EN
      else if rget v (Reg.BPH_TX_CTRL n) F.BPH_TX_CTRL_CH_BASE > 1022 then v
      else if ron v (Reg.BPH_TX_STAT n) F.BPH_TX_STAT_RUNNING then rset v (Reg.BPH_TX_CTRL n) F.BPH_TX_CTRL_EN
      else rset (rset (setTx v n { txAt v n with frame := 0 }) (Reg.BPH_TX_CTRL n) F.BPH_TX_CTRL_EN)
        (Reg.BPH_TX_STAT n) F.BPH_TX_STAT_RUNNING := by
  simp only [writeBphTxCtrl, ← hu, hfree, Bool.false_eq_true, if_false, ← hv]

end Biphase

/-- Settles O17: a write or read of a biphase register is the host's access to it, and a frame takes the branch of its
port's state. -/
theorem biphaseComplete : Obligations.BiphaseComplete := by
  unfold Obligations.BiphaseComplete
  refine ⟨?rxStops, ?rxStarts, ?wakes, ?receives, ?copies, ?txStarts, ?sends, ?txStops, ?asks⟩
  case rxStops =>
    intro n w s u hmay hon hfree hen hu
    exact (onBar_may hmay).trans (congrArg _ (writeBphRxCtrl_stops hon hfree hen hu))
  case rxStarts =>
    intro n w s u v hmay hoff hu hfree hen hv hbase hrate
    exact (onBar_may hmay).trans (congrArg _ (writeBphRxCtrl_starts hoff hu hfree hen hv hbase hrate))
  case wakes =>
    intro n pos z a b s hl hlost
    have hnotOff : ptState s (16 + n.val) ≠ ptOff := by rw [hlost]; decide
    change execBphRxFrame n pos z false a b s = _
    refine onHost_gives hl ((if_neg hnotOff).trans ((if_neg fun h => Bool.false_ne_true h.2).trans ?_))
    rw [wakeLost_lost hlost]
  case receives =>
    intro n pos z mis a b s hl hst
    have hnotOff : ptState s (16 + n.val) ≠ ptOff := by obtain h | h := hst <;> rw [h] <;> decide
    have hnotLost : ptState s (16 + n.val) ≠ ptLost := by obtain h | h := hst <;> rw [h] <;> decide
    change execBphRxFrame n pos z mis a b s = _
    refine onHost_gives hl ((if_neg hnotOff).trans ((if_neg fun h => hnotLost h.1).trans ?_))
    rw [wakeLost_other hnotLost]
  case copies =>
    rintro n s _ _ hmay rfl rfl
    exact onBar_may hmay
  case txStarts =>
    intro n w s u v hmay hu hfree hv hen hbase hidle
    refine (onBar_may hmay).trans (congrArg _ ((writeBphTxCtrl_free hu hfree hv).trans ?_))
    rw [if_neg (by omega), if_neg (Nat.not_lt.mpr hbase), if_neg (ne_true_of_eq_false hidle)]
  case sends =>
    intro n j s hl hrun hj
    change execBphTxFrame n j s = _
    exact onHost_gives hl (if_pos ⟨hrun, hj⟩)
  case txStops =>
    intro n w s u v hmay hu hfree hv hen
    exact (onBar_may hmay).trans (congrArg _ ((writeBphTxCtrl_free hu hfree hv).trans (if_pos hen)))
  case asks =>
    intro n w s hmay hgo
    exact (onBar_may hmay).trans (congrArg _ (if_pos hgo))

end Sys2Proof.Machine

/-! PROOFS. The rods: what the issue of each instruction leaves, the passes with their budgets, interrupts and halts, and
ROD_CTRL with the loader. -/

namespace Sys2Proof.Machine
open Sys2Proof Sys2Proof.Safety

/-- The answer of an instruction command whose moves meet no failure and whose control step answers `r'`. -/
theorem onHost_issue_clean {s : State} {g : Nat} {op : RodOp} {control : Nat → Rod → Except Nat Rod} {r' : Rod}
    (h : clean s g op) (k : control (nextWord (rodAt (atIssue s g) g)) (rodAt (atIssue s g) g) = .ok r') :
    onHost s (fun s => issue s g op effNone control) = .next (issued s g op {} r') :=
  onHost_gives h.1 (issue_clean h k)

/-- Settles O18: an issue whose moves meet no failure leaves what `issue_clean` says; LDI and MOVR write their register in
their control step. -/
theorem aluInstructionsComplete : Obligations.AluInstructionsComplete := by
  unfold Obligations.AluInstructionsComplete
  refine ⟨fun _ _ => onIssue_clean, ?ldi, ?movr, fun _ _ => onIssue_clean, fun _ _ => onIssue_clean,
    fun _ _ => onIssue_clean, fun _ _ => onIssue_clean, fun _ _ => onIssue_clean, fun _ _ => onIssue_clean,
    fun _ _ => onIssue_clean, fun _ _ => onIssue_clean, fun _ _ => onIssue_clean, fun _ _ => onIssue_clean,
    fun _ _ => onIssue_clean, fun _ _ => onIssue_clean, fun _ _ => onIssue_clean, fun _ _ => onIssue_clean,
    fun _ _ => onIssue_clean, fun _ _ => onIssue_clean, fun _ _ => onIssue_clean, fun _ _ => onIssue_clean⟩
  case ldi =>
    rintro g s _ _ h rfl rfl
    exact onHost_issue_clean h rfl
  case movr =>
    rintro g s _ _ h rfl rfl
    exact onHost_issue_clean h rfl

/-- Settles O19: each operation is an ordinary issue, and `onIssue_clean` says what that leaves. -/
theorem accInstructionsComplete : Obligations.AccInstructionsComplete := by
  unfold Obligations.AccInstructionsComplete
  exact ⟨fun _ _ => onIssue_clean, fun _ _ => onIssue_clean, fun _ _ => onIssue_clean, fun _ _ => onIssue_clean,
    fun _ _ => onIssue_clean, fun _ _ => onIssue_clean, fun _ _ => onIssue_clean, fun _ _ => onIssue_clean,
    fun _ _ => onIssue_clean, fun _ _ => onIssue_clean, fun _ _ => onIssue_clean, fun _ _ => onIssue_clean,
    fun _ _ => onIssue_clean, fun _ _ => onIssue_clean, fun _ _ => onIssue_clean, fun _ _ => onIssue_clean⟩

/-- Settles O20: each operation is an ordinary issue, and `onIssue_clean` says what that leaves. -/
theorem macInstructionsComplete : Obligations.MacInstructionsComplete := by
  unfold Obligations.MacInstructionsComplete
  exact ⟨fun _ _ => onIssue_clean, fun _ _ => onIssue_clean, fun _ _ => onIssue_clean, fun _ _ => onIssue_clean,
    fun _ _ => onIssue_clean, fun _ _ => onIssue_clean, fun _ _ => onIssue_clean, fun _ _ => onIssue_clean,
    fun _ _ => onIssue_clean, fun _ _ => onIssue_clean, fun _ _ => onIssue_clean, fun _ _ => onIssue_clean,
    fun _ _ => onIssue_clean, fun _ _ => onIssue_clean, fun _ _ => onIssue_clean⟩

/-! ## Control flow -/

section Flow
variable {s : State} {g w : Nat} {op : RodOp} {r r' : Rod}

theorem repControl_ok {c : Nat}
    (hc : c = if bitOf w 57 then regSeen r (bitsOf w 53 4) (r.n + 2) % 1024 else bitsOf w 32 10) :
    repControl w r = .ok (if c = 0 then { r with pc := (r.pc + 2) % 8192, iter := false }
      else { r with pc := (r.pc + 1) % 8192, repeating := true, iter := false,
                    pend := insertWrite ⟨r.n + 1, .reg 0x33, 0x3FF, c, .plain⟩ r.pend }) := by
  rw [repControl, ← hc, ← apply_ite Except.ok]

/-- LOOP outside a handler, with a level left or a count of zero, does not fail (R152). -/
theorem loopControl_ok {c : Nat}
    (hc : c = if bitOf w 57 then regSeen r (bitsOf w 53 4) (r.n + 2) % 65536 else bitsOf w 16 16)
    (hout : inHandler r = false) (hlevel : c = 0 ∨ r.depth < 4) :
    loopControl w r = .ok (if c = 0 then { r with pc := (bitsOf w 32 13 + 1) % 8192, iter := false }
      else addWrites { r with pc := (r.pc + 1) % 8192, depth := r.depth + 1, iter := true }
        [⟨r.n + 2, .reg (0x34 + r.depth), 0xFFFF, c, .plain⟩,
         ⟨r.n + 2, .reg (0x38 + r.depth), 0x1FFF, (r.pc + 1) % 8192, .plain⟩,
         ⟨r.n + 2, .reg (0x3C + r.depth), 0x1FFF, bitsOf w 32 13, .plain⟩]) := by
  rw [loopControl, ← hc, hout, if_neg Bool.false_ne_true]
  by_cases h0 : c = 0
  · rw [if_pos h0, if_pos h0]
  · rw [if_neg h0, if_neg h0, if_neg (Nat.not_le.mpr (hlevel.resolve_left h0))]

theorem endlControl_ok (hout : inHandler r = false) (hlevel : r.depth ≠ 0) :
    endlControl w r = .ok { advance r with depth := r.depth - 1 } := by
  rw [endlControl, hout, if_neg Bool.false_ne_true, if_neg hlevel]

/-- A rod that issues is in its pass. -/
theorem issues_inPass (h : issues s g op = true) : (rodAt s g).phase = .inPass := by
  rw [issues, mayIssue] at h
  simp only [Bool.and_eq_true, beq_iff_eq] at h
  obtain ⟨⟨⟨⟨hphase, -⟩, -⟩, -⟩, -⟩ := h
  exact hphase

theorem advance_phase (r : Rod) : (advance r).phase = r.phase := by
  unfold advance
  dsimp only
  split
  · rfl
  · repeat' split
    all_goals rfl

theorem sameButBanks_phase (h : sameButBanks r r') : r'.phase = r.phase := by
  obtain ⟨_, _, rfl⟩ := h
  rfl

theorem sameButBanks_pend (h : sameButBanks r r') : r'.pend = r.pend := by
  obtain ⟨_, _, rfl⟩ := h
  rfl

/-- The rod that has issued an operation, but for its bank accounts: its next address and the results in its pipeline. -/
theorem issued_rod {x : RodResult} (hs : Memory.wf s = true) :
    sameButBanks { addWrites r (resultWrites (rodAt (atIssue s g) g).n x ++ (movesOf s g op).1.writes ++
      (movesOf s g op).2.writes) with n := r.n + 1 } (rodAt (issued s g op x r) g) := by
  have hwf := (landBefore_rods (g := g) (t := (rodAt s g).n + 2) (wf_rods hs)).1
  have hcount := (countIssue_rods (g := g) (frame := (movesOf s g op).1.frame ++ (movesOf s g op).2.frame)
    (rods_setRod (g := g) (r := addWrites r (resultWrites (rodAt (atIssue s g) g).n x ++ (movesOf s g op).1.writes ++
      (movesOf s g op).2.writes)) hwf)).2.2
  rwa [rodAt_setRod_same hwf] at hcount

/-- A rod that has issued an operation that leaves the sequence alone is still in its pass. -/
theorem ran_inPass {eff : RodEnv → RodResult} (hs : Memory.wf s = true) (h : clean s g op) :
    (rodAt (ran s g op eff) g).phase = .inPass := by
  obtain ⟨-, hissues, -⟩ := h
  obtain ⟨-, -, hsame, -⟩ := landBefore_rods (g := g) (t := (rodAt s g).n + 2) (wf_rods hs)
  obtain ⟨-, -, -, -, -, -, -, -, hphase, -⟩ := hsame
  have hrod := issued_rod (g := g) (op := op) (x := eff (readsOf s g op)) (r := advance (rodAt (atIssue s g) g)) hs
  calc (rodAt (ran s g op eff) g).phase
      = (advance (rodAt (atIssue s g) g)).phase := (sameButBanks_phase hrod :)
    _ = (rodAt (atIssue s g) g).phase := advance_phase _
    _ = .inPass := hphase.trans (issues_inPass hissues)

end Flow

section Ends
variable {s : State} {g : Fin 64}

/-- TRAP outside a handler makes its interrupt pending (R153). -/
theorem exec_trap_clean (hs : Memory.wf s = true) (h : clean s g .trap) (hout : bitOf (srNow (rodAt s g)) 19 = false) :
    exec (.rodTrap g) s = .next (rset (ran s g .trap effNone) (rodReg Reg.ROD_IPEND g) F.ROD_IPEND_TRAP) := by
  change execRodTrap g s = _
  refine onHost_gives h.1 ((if_neg (by simp [h.2.1])).trans ((if_neg (by simp [hout])).trans ?_))
  rw [issue_clean h rfl]
  exact if_pos (ran_inPass hs h)

/-- END ends the pass of its rod (R178). -/
theorem exec_end_clean (hs : Memory.wf s = true) (h : clean s g .endPass) :
    exec (.rodEnd g) s = .next (endPass (ran s g .endPass effNone) g) := by
  change execRodEnd g s = _
  refine onHost_gives h.1 ((if_neg (by simp [h.2.1])).trans ?_)
  rw [issue_clean h rfl]
  exact if_pos (ran_inPass hs h)

end Ends

/-- Settles O21: where the control step of an instruction meets no failure, `onHost_issue_clean` says what its issue
leaves; TRAP and END go on from an ordinary issue. -/
theorem flowInstructionsComplete : Obligations.FlowInstructionsComplete := by
  unfold Obligations.FlowInstructionsComplete
  refine ⟨?rep, ?loop, ?endl, ?b, ?call, ?ret, ?rti, ?trap, ?endPass⟩
  case rep =>
    rintro g s _ _ c h rfl rfl hc
    exact onHost_issue_clean h (repControl_ok hc)
  case loop =>
    rintro g s _ _ c h rfl rfl hc hout hlevel
    exact onHost_issue_clean h (loopControl_ok hc hout hlevel)
  case endl =>
    rintro g s _ h rfl hout hlevel
    exact onHost_issue_clean h (endlControl_ok hout hlevel)
  case b =>
    rintro g s _ _ _ h rfl rfl rfl
    exact onHost_issue_clean h rfl
  case call =>
    rintro g s _ _ _ h rfl rfl rfl
    exact onHost_issue_clean h rfl
  case ret =>
    rintro g s _ _ h rfl rfl
    exact onHost_issue_clean h rfl
  case rti =>
    rintro g s _ h rfl
    exact onHost_issue_clean h rfl
  case trap => exact fun g s hs h hout => exec_trap_clean hs h hout
  case endPass => exact fun g s hs h => exec_end_clean hs h

/-! ## Passes -/

/-- Settles O22: each command takes the branch of its meaning that its hypotheses choose. -/
theorem passCommandsComplete : Obligations.PassCommandsComplete := by
  unfold Obligations.PassCommandsComplete
  refine ⟨?starts, ?misfits, ?warns, ?budget, ?interrupts, ?halts, ?illegal⟩
  case starts =>
    intro g doneAt s u v hl hruns hnow hconfig hfree himports hv hintime
    change execRodPassStart g ⟨doneAt, none⟩ s = _
    have hlate : doneAt - windowCycles u = 0 := Nat.sub_eq_zero_of_le hintime
    refine onHost_gives hl ?_
    simp only [startPass, hruns, hnow, hconfig, hfree, Option.map_none, himports, hlate, ← hv, Bool.not_true,
      Bool.or_self, Bool.false_eq_true, Nat.lt_irrefl, gt_iff_lt, if_false]
  case misfits =>
    intro g doneAt lost s hl hruns hnow hconfig
    change execRodPassStart g ⟨doneAt, lost⟩ s = _
    refine onHost_gives hl ?_
    simp only [startPass, hruns, hnow, hconfig, Bool.not_true, Bool.not_false, Bool.or_self, Bool.false_eq_true, if_false,
      if_true]
  case warns =>
    intro g s hl hrun hactive hset hreached
    exact onHost_gives hl (if_pos ⟨hrun, hactive, hset, hreached⟩)
  case budget =>
    intro late lost s hl hrun
    change execComputeBudgetEnd ⟨late, lost⟩ s = _
    exact onHost_gives hl (if_neg (by simp [hrun]))
  case interrupts =>
    rintro g v f s _ _ _ hl hpass hwants hpoint hhalt htake rfl rfl rfl
    refine onHost_gives hl ((if_pos ⟨hpass, hwants, hpoint, by simp [hhalt]⟩).trans ?_)
    rw [htake]
  case halts =>
    intro g s hl hpass hwants hpoint hhalt
    exact onHost_gives hl (if_pos ⟨hpass, hwants, hpoint, hhalt⟩)
  case illegal =>
    intro g s hl hmay hnone
    exact onHost_gives hl (if_pos ⟨hmay, hnone⟩)

/-! ## ROD_CTRL and the loader -/

theorem writeRodCtrl_changes {s u : State} {g : Nat} {w : Word} (hu : u = rwrite s (rodReg Reg.ROD_CTRL g) w)
    (hen : ron u (rodReg Reg.ROD_CTRL g) F.ROD_CTRL_EN ≠ ron s (rodReg Reg.ROD_CTRL g) F.ROD_CTRL_EN) :
    writeRodCtrl s g w = setRod u g { rodAt u g with
      enPend := (rodAt u g).enPend ++ [(2, ron u (rodReg Reg.ROD_CTRL g) F.ROD_CTRL_EN)] } := by
  simp only [writeRodCtrl, ← hu, beq_eq_false_iff_ne.mpr hen, Bool.false_eq_true, if_false]

/-- A fenced rod that is told to leave its fence does so unless its source still stands (R161, R482). -/
theorem hostUnfence_fenced {s : State} {g : Fin 64} {w : Word} (hset : fldGet F.ROD_CTRL_UNFENCE w = 1)
    (hfenced : rodState s g = 5) :
    hostUnfence g w s = if statusOf s (0x1C0 + g.val) then rset s Reg.FLT_STAT F.FLT_STAT_REFUSED
      else
        let u := rput (setRodState s g (if enNow s g then rdActive else rdReady)) (rodReg Reg.ROD_STAT g)
          F.ROD_STAT_FAILS 0
        setRod u g { rodAt u g with wait := 2 } :=
  if_neg (by simp [hset, hfenced, rdFenced])

/-- LOAD_PROGRAM with an image of the stated length goes on to the loader's checks (R169). -/
theorem loadProgram_checks {d : DescRef} {bs im : List Byte} {s : State} (h : ready s d 0x20 bs)
    (hlen : im.length = leAt bs 8 4) :
    exec (.loadProgram d (some im)) s = .next (loadChecked (markAccepted s d) d (leAt bs 8 4) im) := by
  refine (onDesc_ready h).trans (congrArg _ ?_)
  rw [withInput, bytesAt_all hlen]

/-- Settles O23: a write of ROD_CTRL is the host's access to it, and a load is begun, refused or ended by what the loader
finds. -/
theorem rodControlComplete : Obligations.RodControlComplete := by
  unfold Obligations.RodControlComplete
  refine ⟨?en, ?halt, ?unfences, ?refuses, ?clears, ?loads, ?rejects, ?ends⟩
  case en =>
    intro g w s u hmay hu hen
    exact (onBar_may hmay).trans (congrArg _ (writeRodCtrl_changes hu hen))
  case halt => exact fun g w s hmay => onBar_may hmay
  case unfences =>
    rintro g w s _ hmay hset hfenced hclear rfl
    exact (onBar_may hmay).trans (congrArg _ ((hostUnfence_fenced hset hfenced).trans
      (if_neg (ne_true_of_eq_false hclear))))
  case refuses =>
    intro g w s hmay hset hfenced hraised
    exact (onBar_may hmay).trans (congrArg _ ((hostUnfence_fenced hset hfenced).trans (if_pos hraised)))
  case clears =>
    intro g w s hmay hset
    exact (onBar_may hmay).trans (congrArg _ (if_pos hset))
  case loads =>
    intro d bs im s h hlen hok
    exact (loadProgram_checks h hlen).trans (congrArg _ (if_pos hok))
  case rejects =>
    intro d bs im s h hlen hbad
    exact (loadProgram_checks h hlen).trans (congrArg _ (if_neg hbad))
  case ends =>
    intro f x l s hl hload
    change execProgramLoadDone f x s = _
    refine onHost_gives hl ?_
    rw [hload]

end Sys2Proof.Machine

/-! PROOFS. A failing rod is out of its pass: what sets a rod's phase, and what raising the rod's source leaves of it. -/

namespace Sys2Proof.Machine
open Sys2Proof Sys2Proof.Safety

/-! ## Phases -/

section Phase
variable {s t : State} {g : Nat}

/-- A rod's phase is set; the other rods move at most in their bank accounts. -/
theorem setPhase'_rods {ph : RodPhase} (h : mapWf rodReset s.rods = true) :
    mapWf rodReset (setPhase' s g ph).rods = true ∧
      (∀ k, k ≠ g → sameButBanks (rodAt s k) (rodAt (setPhase' s g ph) k)) ∧
      sameButBanks { rodAt s g with phase := ph } (rodAt (setPhase' s g ph) g) := by
  have hbanks : banksOnly (setRod s g { rodAt s g with phase := ph, wants := [] }) (setPhase' s g ph) := by
    unfold setPhase'
    split
    · exact banksOnly_of_rods (rods_setRod h) rfl
    · exact settleBanks_rods (rods_setRod h)
  obtain ⟨hwf, hsame⟩ := hbanks
  refine ⟨hwf, fun k hk => ?_, ?_⟩
  · have hother := hsame k
    rwa [rodAt_setRod_other h hk] at hother
  · have hown := hsame g
    rw [rodAt_setRod_same h] at hown
    exact sameButBanks_trans ⟨_, _, rfl⟩ hown

theorem setPhase'_phase {ph : RodPhase} (h : mapWf rodReset s.rods = true) :
    (rodAt (setPhase' s g ph) g).phase = ph :=
  (sameButBanks_phase (setPhase'_rods h).2.2 :)

/-- Rod `g` is in no pass. -/
def OutOfPass (s : State) (g : Nat) : Prop := mapWf rodReset s.rods = true ∧ (rodAt s g).phase ≠ .inPass

theorem OutOfPass.of_rods (h : OutOfPass s g) (hrods : t.rods = s.rods) : OutOfPass t g := by
  unfold OutOfPass rodAt
  rw [hrods]
  exact h

theorem OutOfPass.put {a v : Nat} {f : Fld} (h : OutOfPass s g) : OutOfPass (rput s a f v) g := h.of_rods (rput_rods ..)

theorem OutOfPass.ite {c : Prop} [Decidable c] (h : OutOfPass s g) (k : OutOfPass t g) :
    OutOfPass (if c then s else t) g := iteInduction (motive := fun u => OutOfPass u g) (fun _ => h) fun _ => k

theorem outOfPass_setPhase' {ph : RodPhase} (h : mapWf rodReset s.rods = true) (hph : ph ≠ .inPass) :
    OutOfPass (setPhase' s g ph) g :=
  ⟨(setPhase'_rods h).1, by rwa [setPhase'_phase h]⟩

theorem outOfPass_dropPass (h : mapWf rodReset s.rods = true) : OutOfPass (dropPass s g) g := by
  refine outOfPass_setPhase' (rods_setRod h) ?_
  split
  · decide
  · assumption

theorem setRodState_rods (s : State) (g st : Nat) : (setRodState s g st).rods = s.rods := by
  unfold setRodState
  dsimp only
  split <;> rfl

theorem forEach_rods {α : Type} {f : State → α → State} (hf : ∀ u x, (f u x).rods = u.rods) (l : List α) (s : State) :
    (forEach l s f).rods = s.rods :=
  List.foldlRecOn (motive := fun u => u.rods = s.rods) l f rfl fun u hu x _ => (hf u x).trans hu

theorem refreshFrameCounts_rods (s : State) (f : Nat) : (refreshFrameCounts s f).rods = s.rods := by
  unfold refreshFrameCounts
  extract_lets imp exp s1 s2
  have h1 : s1.rods = s.rods := forEach_rods (fun u r => (rput_rods ..).trans (rput_rods ..)) _ s
  have h2 : s2.rods = s1.rods := (rput_rods ..).trans (rput_rods ..)
  exact (rput_rods ..).trans ((rput_rods ..).trans (h2.trans h1))

theorem finishOpt_rods (s : State) (d : Option DescRef) (st r : Nat) : (finishOpt s d st r).rods = s.rods := by
  unfold finishOpt
  split
  · rfl
  · exact setQp_rods ..

theorem abandonLoad_rods (s : State) (g : Nat) : (abandonLoad s g).rods = s.rods := by
  unfold abandonLoad
  split
  · rfl
  · rw [finishOpt_rods, loadEmpties, refreshFrameCounts_rods, forEach_rods fun u x => setRodState_rods ..]
    rfl

theorem outOfPass_rodFence (h : mapWf rodReset s.rods = true) : OutOfPass (rodFence s g) g :=
  (outOfPass_dropPass h).of_rods (setRodState_rods ..)

theorem outOfPass_rodEmpty (h : mapWf rodReset s.rods = true) : OutOfPass (rodEmpty s g) g := by
  have hdrop : OutOfPass (setRodState (dropPass (abandonLoad s g) g) g rdEmpty) g :=
    (outOfPass_dropPass ((congrArg (mapWf rodReset) (abandonLoad_rods s g)).trans h)).of_rods (setRodState_rods ..)
  unfold rodEmpty
  extract_lets s1 src s2
  have hempty : OutOfPass s2 g := ⟨rods_setRod hdrop.1, by rw [rodAt_setRod_same hdrop.1]; exact RodPhase.noConfusion⟩
  exact hempty.of_rods (refreshFrameCounts_rods ..)

end Phase

/-! ## Raising a source leaves the rods alone, but for the unit that owns it -/

section Raise
variable {s t : State} {rz : State → Nat → Nat → Nat → State} {g : Nat}

theorem Recorded.rods (h : Recorded s t) : t.rods = s.rods := by
  obtain ⟨_, _, _, _, _, rfl⟩ := h
  rfl

theorem recorded_selfTrip (s : State) (forced : Bool) : Recorded s (selfTrip s forced) := by
  unfold selfTrip
  extract_lets collector s1 s2 s3 s4
  have h2 : Recorded s s2 := Recorded.put (Recorded.trans (t := s1) ⟨_, _, _, _, _, rfl⟩ (recorded_driveFaultN _))
  have h4 : Recorded s s4 := (h2.trans (recorded_latchPlain ..)).trans (recorded_storeEvent ..)
  have hsent (l : List Die) : Recorded s (l.foldl (fun s d => sendOut s (.forceSafe d)) s4) :=
    List.foldlRecOn (motive := Recorded s) l _ h4 fun u hu d _ => hu.trans (recorded_sendOut u _)
  exact .ite (.refl s) ((hsent _).trans (recorded_refreshFaultN _))

theorem recorded_compareWord (s : State) (k : Nat) : Recorded s (compareWord s k) :=
  .ite (.refl s) (recorded_selfTrip s false)

theorem recorded_latch (s : State) (id inst datum : Nat) (forced : Bool) : Recorded s (latch s id inst datum forced) := by
  unfold latch
  extract_lets code m s1 s2 s3 s4
  have h1 : Recorded s s1 := recorded_latchPlain ..
  have h2 : Recorded s s2 := .ite h1.put h1
  have h3 : Recorded s s3 := h2.trans (recorded_storeEvent ..)
  have h4 : Recorded s s4 := .ite (h3.trans (recorded_storeEvent ..)) h3
  exact .ite (.refl s) (Recorded.trans (.ite (h4.trans (recorded_compareWord ..)) h4) (recorded_refreshFaultN _))

theorem barCmd_rods (s : State) (d : Die) (code argB : Nat) (payload : List Nat) (use : BarUse) :
    (barCmd s d code argB payload use).rods = s.rods := by
  have hemit (type argA : Nat) : (barEmit s d type argA argB payload).1.rods = s.rods := by
    unfold barEmit
    split
    · rfl
    · exact setBar_rods ..
  unfold barCmd barAsk
  rw [setBar_rods]
  exact hemit _ _

theorem carryFrom_rods {old : State} {cause pos stag : Nat} (hrz : ∀ u, (rz u 0x2C0 0x3FF 0).rods = u.rods) :
    (carryFrom rz old s cause pos stag).rods = s.rods := by
  have hask (u : State) (d : Die) (k : Nat) : (askField u d k).rods = u.rods := by
    unfold askField
    split
    · exact barCmd_rods ..
    · rfl
  unfold carryFrom
  extract_lets seq kc b snap s1 again snap2 s2 s3 s4
  have h1 : s1.rods = s.rods := rset_rods ..
  have h2 : s2.rods = s.rods := h1
  have hover : (rz (radd (rset s2 Reg.SNP_STAT F.SNP_STAT_OVERWRITTEN) Reg.SNP_OVR_CNT F.SNP_OVR_CNT_COUNT 1)
      0x2C0 0x3FF 0).rods = s.rods := (hrz _).trans ((radd_rods ..).trans ((rset_rods ..).trans h2))
  have hshow : (showBank s1 b).rods = s.rods := by
    unfold showBank
    simp only [rput_rods]
    exact h1
  have h3 : s3.rods = s.rods := by
    refine iteInduction (motive := fun u : State => u.rods = s.rods) (fun _ => ?_) fun _ => hshow
    exact iteInduction (motive := fun u : State => u.rods = s.rods) (fun _ => hover) fun _ => h2
  have h4 : s4.rods = s.rods := (forEach_rods (fun u d => hask u d kc) _ s3).trans h3
  exact iteInduction (motive := fun u : State => u.rods = s.rods) (fun _ => h4) fun _ => h4

theorem reactCarry_rods {id : Nat} (hrz : ∀ u, (rz u 0x2C0 0x3FF 0).rods = u.rods) :
    (reactCarry rz s id).rods = s.rods := by
  unfold reactCarry fireWith
  dsimp only
  split
  · split
    · rfl
    · split
      · exact carryFrom_rods hrz
      · rfl
  · rfl

/-- A raise reaches the owning unit, if it does, with the rods as they were. -/
theorem raiseBody_cases {id inst datum : Nat} {forced : Bool} (hrz : ∀ u, (rz u 0x2C0 0x3FF 0).rods = u.rods) :
    ∃ u, u.rods = s.rods ∧ (raiseBody rz forced s id inst datum = u ∨
      raiseBody rz forced s id inst datum = reactUnit rz u id inst) := by
  unfold raiseBody
  extract_lets s1 s2
  have h1 : s1.rods = s.rods := (recorded_compareWord ..).rods
  have h2 : s2.rods = s.rods := by
    refine (recorded_latch ..).rods.trans ?_
    split
    · exact h1
    · exact (reactCarry_rods hrz).trans h1
  refine ⟨s2, h2, ?_⟩
  split
  · exact .inl rfl
  · exact .inr rfl

/-- A carry that overwrites the bank raises a source without an owning unit, so that no rod changes. -/
theorem raiseN_overwritten_rods : ∀ (k : Nat) (forced : Bool) (s : State), (raiseN k forced s 0x2C0 0x3FF 0).rods = s.rods
  | 0, _, _ => (recorded_latch ..).rods
  | k + 1, forced, s => by
    unfold raiseN
    split
    · obtain ⟨u, hu, he | he⟩ := raiseBody_cases (s := s) (id := 0x2C0) (inst := 0x3FF) (forced := forced)
        (datum := faultDatum s 0x2C0 0x3FF 0) (raiseN_overwritten_rods k false)
      · rw [he, hu]
      · have hnone : reactUnit (raiseN k false) u 0x2C0 0x3FF = u := rfl
        rw [he, hnone, hu]
    · rfl

theorem resetUnit_rod (hg : g < 64) : resetUnit rz s g = rodEmpty s g := by
  have hkind : g / 256 = 0 := by omega
  simp only [resetUnit, hkind]

theorem fenceUnit_rod (hg : g < 64) : fenceUnit rz s g = rodFence s g := by
  have hkind : g / 256 = 0 := by omega
  simp only [fenceUnit, hkind]

theorem owningUnit_rod {inst : Nat} (hg : g < 64) : owningUnit (0x1C0 + g) inst = some g := by
  rw [owningUnit, if_pos (by omega), Nat.add_sub_cancel_left]

theorem OutOfPass.collector {c : CollectorState} (h : OutOfPass s g) : OutOfPass { s with collector := c } g :=
  h.of_rods rfl

/-- The reaction of a rod's source fences the rod, returns it to EMPTY or leaves it as it was. -/
theorem outOfPass_reactUnit {inst : Nat} (hg : g < 64) (h : OutOfPass s g) :
    OutOfPass (reactUnit rz s (0x1C0 + g) inst) g := by
  unfold reactUnit
  rw [owningUnit_rod hg]
  dsimp only
  rw [resetUnit_rod hg, fenceUnit_rod hg]
  refine OutOfPass.ite ?empties (OutOfPass.ite ?fences h)
  case empties => exact OutOfPass.collector (outOfPass_rodEmpty h.1)
  case fences => exact outOfPass_rodFence h.1

/-- Raising a rod's source starts no pass of it. -/
theorem outOfPass_raise {inst d : Nat} (hg : g < 64) (h : OutOfPass s g) : OutOfPass (raise s (0x1C0 + g) inst d) g := by
  unfold raise
  split
  · exact h
  · split
    · unfold raiseN
      split
      · obtain ⟨u, hu, he | he⟩ := raiseBody_cases (s := s) (id := 0x1C0 + g) (inst := inst) (forced := false)
          (datum := faultDatum s (0x1C0 + g) inst d) (raiseN_overwritten_rods 2 false)
        · rw [he]
          exact h.of_rods hu
        · rw [he]
          exact outOfPass_reactUnit hg (h.of_rods hu)
      · exact h
    · exact h.of_rods rfl

/-- A rod whose block fails is out of its pass (R160). -/
theorem outOfPass_failRod {cause pc : Nat} (hg : g < 64) (h : mapWf rodReset s.rods = true) :
    OutOfPass (failRod s g cause pc) g := by
  unfold failRod
  extract_lets s1 c s2 s3 s4 o s5 s6 s7 ecc s8
  have h1 : OutOfPass s1 g := outOfPass_setPhase' (outOfPass_dropPass h).1 (by decide)
  have h5 : OutOfPass s5 g := (OutOfPass.of_rods h1.put.put.put (wr_rods ..)).put.put
  have h7 : OutOfPass s7 g := (OutOfPass.ite h5.put h5).put
  have h8 : OutOfPass s8 g := .ite (outOfPass_rodFence h7.1) h7
  exact outOfPass_raise hg h8

end Raise

end Sys2Proof.Machine

/-! PROOFS. The frame of a rod instruction: what the landing of results, the count of an issue and the end of a pass write,
and what an instruction reaches in each of its outcomes. -/

namespace Sys2Proof.Machine
open Sys2Proof Sys2Proof.Safety

/-- `t` is `s` but for the parts of the state that a rod instruction writes. -/
def RodParts (s t : State) : Prop := ∃ rods regs frameMem poison banks free,
  t = { s with rods := rods, regs := regs, frameMem := frameMem, poison := poison, banks := banks, free := free }

/-- From `s`, rod `g` reaches `t`: beside the parts that a rod instruction writes nothing has moved, the other rods differ
at most in their bank accounts, no register outside `R` and no word of frame SRAM outside `K` has changed. -/
structure RodReach (g : Nat) (R K : Nat → Prop) (s t : State) : Prop where
  wf : Memory.wf t = true
  parts : RodParts s t
  others : ∀ k, k ≠ g → sameButBanks (rodAt s k) (rodAt t k)
  regs : ∀ a, ¬R a → rd t a = rd s a
  words : ∀ k, ¬K k → mapGet (fun _ => 0) t.frameMem k = mapGet (fun _ => 0) s.frameMem k

section Reach
variable {s t u : State} {g : Nat} {R K : Nat → Prop} {r : Rod}

theorem RodParts.trans (h : RodParts s t) (k : RodParts t u) : RodParts s u := by
  obtain ⟨_, _, _, _, _, _, rfl⟩ := h
  obtain ⟨_, _, _, _, _, _, rfl⟩ := k
  exact ⟨_, _, _, _, _, _, rfl⟩

theorem RodReach.refl (h : Memory.wf s = true) : RodReach g R K s s :=
  ⟨h, ⟨_, _, _, _, _, _, rfl⟩, fun _ _ => sameButBanks_refl _, fun _ _ => rfl, fun _ _ => rfl⟩

theorem RodReach.trans (h : RodReach g R K s t) (k : RodReach g R K t u) : RodReach g R K s u where
  wf := k.wf
  parts := h.parts.trans k.parts
  others i hi := sameButBanks_trans (h.others i hi) (k.others i hi)
  regs a ha := (k.regs a ha).trans (h.regs a ha)
  words i hi := (k.words i hi).trans (h.words i hi)

theorem RodReach.ite {c : Prop} [Decidable c] (h : RodReach g R K s t) (k : RodReach g R K s u) :
    RodReach g R K s (if c then t else u) := iteInduction (motive := RodReach g R K s) (fun _ => h) fun _ => k

/-- Steps of a fold over a list are steps of its elements. -/
theorem RodReach.forEach {α : Type} {f : State → α → State} (l : List α) (h : RodReach g R K s t)
    (hf : ∀ x ∈ l, ∀ u, RodReach g R K s u → RodReach g R K s (f u x)) : RodReach g R K s (forEach l t f) :=
  List.foldlRecOn (motive := RodReach g R K s) l f h fun u hu x hx => hf x hx u hu

theorem wf_mem_setRod (h : Memory.wf s = true) : Memory.wf (setRod s g r) = true :=
  keep_mem.symm.trans (setRod_wf (keep_mem.trans h))

/-- The rod itself may become any rod. -/
theorem RodReach.setRod (h : RodReach g R K s t) : RodReach g R K s (setRod t g r) :=
  h.trans ⟨wf_mem_setRod h.wf, ⟨_, _, _, _, _, _, rfl⟩,
    fun _ hk => (rodAt_setRod_other (wf_rods h.wf) hk).symm ▸ sameButBanks_refl _, fun _ _ => rfl, fun _ _ => rfl⟩

theorem RodReach.rput {a v : Nat} {f : Fld} (h : RodReach g R K s t) (ha : R a) : RodReach g R K s (rput t a f v) :=
  h.trans ⟨keep_mem.symm.trans (rput_wf (keep_mem.trans h.wf)), ⟨_, _, _, _, _, _, rfl⟩, fun _ _ => sameButBanks_refl _,
    fun _ hb => rd_rput_other h.wf (fun e => hb (e ▸ ha)), fun _ _ => rfl⟩

/-! ## Frame SRAM -/

theorem RodReach.frameMem {k : Nat} {v : Word} (h : RodReach g R K s t) (hk : K k) :
    RodReach g R K s { t with frameMem := mapSet (fun _ => 0) t.frameMem k v } :=
  have hframe : mapWf (fun _ => 0) t.frameMem = true := ((keeps_iff.mp (keep_mem.trans h.wf)).1 rfl).2.2.2.1
  h.trans ⟨keep_mem.symm.trans (keeps_frame (keep_mem.trans h.wf)), ⟨_, _, _, _, _, _, rfl⟩,
    fun _ _ => sameButBanks_refl _, fun _ _ => rfl, fun _ hi => mapGet_set_other hframe (fun e => hi (e ▸ hk))⟩

theorem RodReach.poison {p : SMap Bool} (h : RodReach g R K s t) : RodReach g R K s { t with poison := p } :=
  h.trans ⟨h.wf, ⟨_, _, _, _, _, _, rfl⟩, fun _ _ => sameButBanks_refl _, fun _ _ => rfl, fun _ _ => rfl⟩

/-- A store to frame SRAM writes its word and, for a mailbox word, the MBOX bit of its rod (R144). -/
theorem RodReach.frameSet {f w : Nat} {v : Word} (h : RodReach g R K s t) (hR : ∀ k < 8, R (Reg.ROD_IPEND f k))
    (hK : K (f * frameWords + w % frameWords)) : RodReach g R K s (frameSet t f w v) := by
  have hlt : w % frameWords < 0x80000 := Nat.mod_lt _ (by decide)
  unfold Machine.frameSet
  extract_lets w' s1 s2
  have h1 : RodReach g R K s s1 := h.frameMem hK
  have h2 : RodReach g R K s s2 := .ite h1 h1.poison
  exact .ite (h2.rput (hR _ (by omega))) h2

/-- A result that takes effect writes its place in its rod or in the rod's frame SRAM. -/
theorem RodReach.landWrite {x : RodWrite} (h : RodReach g R K s t) (hR : ∀ k < 8, R (Reg.ROD_IPEND (rodFrame g) k))
    (hK : ∀ w, x.loc = .f w → K (rodFrame g * frameWords + w % frameWords)) : RodReach g R K s (landWrite t g x) := by
  unfold Machine.landWrite
  dsimp only
  split
  case h_5 w hw => exact h.frameSet hR (hK w hw)
  all_goals exact h.setRod

theorem RodReach.landBefore {n : Nat} (h : RodReach g R K s t) (hR : ∀ k < 8, R (Reg.ROD_IPEND (rodFrame g) k))
    (hK : ∀ x ∈ (rodAt t g).pend, x.land < n → ∀ w, x.loc = .f w → K (rodFrame g * frameWords + w % frameWords)) :
    RodReach g R K s (landBefore t g n) := by
  refine (h.forEach _ fun x hx u hu => hu.landWrite hR ?_).setRod
  obtain ⟨hpend, hland⟩ := List.mem_filter.mp hx
  exact hK x hpend (of_decide_eq_true hland)

theorem RodReach.landAll (h : RodReach g R K s t) (hR : ∀ k < 8, R (Reg.ROD_IPEND (rodFrame g) k))
    (hK : ∀ x ∈ (rodAt t g).pend, ∀ w, x.loc = .f w → K (rodFrame g * frameWords + w % frameWords)) :
    RodReach g R K s (landAll t g) :=
  (h.forEach _ fun x hx _ hu => hu.landWrite hR (hK x hx)).setRod

/-! ## Banks -/

theorem RodReach.banks {b : SMap (Nat × Nat)} (h : RodReach g R K s t) : RodReach g R K s { t with banks := b } :=
  h.trans ⟨h.wf, ⟨_, _, _, _, _, _, rfl⟩, fun _ _ => sameButBanks_refl _, fun _ _ => rfl, fun _ _ => rfl⟩

theorem RodReach.takeFree {n : Nat} (h : RodReach g R K s t) : RodReach g R K s (takeFree t n).2 :=
  h.trans ⟨h.wf, ⟨_, _, _, _, _, _, rfl⟩, fun _ _ => sameButBanks_refl _, fun _ _ => rfl, fun _ _ => rfl⟩

/-- Any rod's bank accounts may move. -/
theorem RodReach.account {k c : Nat} {w : List Nat} (h : RodReach g R K s t) :
    RodReach g R K s (Machine.setRod t k { rodAt t k with cyc := c, wants := w }) :=
  h.trans ⟨wf_mem_setRod h.wf, ⟨_, _, _, _, _, _, rfl⟩,
    fun i _ => (banksOnly_setRod (banksOnly_of_rods (wf_rods h.wf) rfl)).2 i, fun _ _ => rfl, fun _ _ => rfl⟩

theorem RodReach.grantBank {f b n : Nat} (h : RodReach g R K s t) : RodReach g R K s (grantBank t f b n) := by
  unfold Machine.grantBank
  split
  next port u hport =>
    have hu : RodReach g R K s u := by
      split at hport
      · cases hport
        exact h.takeFree (n := 1)
      · cases hport
        exact h
    extract_lets asks
    split
    · exact hu
    · split
      · exact hu.banks
      · exact hu.banks.account

theorem RodReach.settleBanks {f : Nat} : ∀ (n : Nat) {t : State}, RodReach g R K s t →
    RodReach g R K s (settleBanks f n t)
  | 0, _, h => h
  | n + 1, _, h => by
    unfold Machine.settleBanks
    split
    · exact h
    · exact h.grantBank.settleBanks n

/-! ## Issues and the end of a pass -/

theorem RodReach.countIssue {frame : List Nat} (h : RodReach g R K s t) : RodReach g R K s (countIssue t g frame) :=
  h.setRod.settleBanks 64

theorem RodReach.setPhase' {ph : RodPhase} (h : RodReach g R K s t) (hR : R (rodReg Reg.ROD_STAT g)) :
    RodReach g R K s (setPhase' t g ph) := by
  have hbit : RodReach g R K s (rbit (Machine.setRod t g { rodAt t g with phase := ph, wants := [] })
      (rodReg Reg.ROD_STAT g) F.ROD_STAT_IN_PASS (ph == .inPass)) := h.setRod.rput hR
  exact .ite hbit (hbit.settleBanks 64)

theorem RodReach.endPass (h : RodReach g R K s t) (hR : ∀ k < 8, R (Reg.ROD_IPEND (rodFrame g) k))
    (hstat : R (rodReg Reg.ROD_STAT g)) (hlast : R (rodReg Reg.ROD_CYC_LAST g)) (hmax : R (rodReg Reg.ROD_CYC_MAX g))
    (hK : ∀ x ∈ (rodAt t g).pend, ∀ w, x.loc = .f w → K (rodFrame g * frameWords + w % frameWords)) :
    RodReach g R K s (endPass t g) :=
  ((((h.landAll hR hK).setPhase' hstat).rput hstat).rput hlast).rput hmax

end Reach

/-! ## The pipeline of a rod that has issued -/

section Pipeline
variable {s : State} {g : Nat} {op : RodOp} {r : Rod} {x y : RodWrite}

theorem mem_insertWrite {l : List RodWrite} (h : y ∈ insertWrite x l) : y = x ∨ y ∈ l := by
  induction l with
  | nil => exact .inl (List.mem_singleton.mp h)
  | cons z zs ih =>
    unfold insertWrite at h
    split at h
    · obtain rfl | hzs := List.mem_cons.mp h
      · exact .inr List.mem_cons_self
      · exact (ih hzs).imp_right (List.mem_cons_of_mem _)
    · exact List.mem_cons.mp h

/-- The step to the next address puts no store into the pipeline. -/
theorem mem_advance_pend {w : Nat} (h : x ∈ (advance r).pend) (hw : x.loc = .f w) : x ∈ r.pend := by
  have hreg {l : List RodWrite} {n a m v : Nat} (hx : x ∈ insertWrite ⟨n, .reg a, m, v, .plain⟩ l) : x ∈ l := by
    obtain rfl | hl := mem_insertWrite hx
    · cases hw
    · exact hl
  unfold advance at h
  extract_lets rpt r1 n atEnd lc back ls r2 seq at h
  split at h
  · exact hreg h
  · have h2 : x ∈ r2.pend := by
      repeat' split at h
      all_goals exact h
    have h1 : x ∈ r1.pend := by
      unfold r2 at h2
      repeat' split at h2
      · exact hreg h2
      · exact h2
      · exact h2
    unfold r1 at h1
    split at h1
    · exact hreg h1
    · exact h1

/-- After END, the stores in the pipeline are those that stood there before it issued. -/
theorem mem_endPass_pend {w : Nat} (hs : Memory.wf s = true) (h : x ∈ (rodAt (ran s g .endPass effNone) g).pend)
    (hw : x.loc = .f w) : x ∈ (rodAt s g).pend := by
  have hrod := issued_rod (g := g) (op := .endPass) (x := {}) (r := advance (rodAt (atIssue s g) g)) hs
  have hpend : (rodAt (ran s g .endPass effNone) g).pend = (advance (rodAt (atIssue s g) g)).pend :=
    (sameButBanks_pend hrod :)
  obtain ⟨-, -, -, hbefore⟩ := landBefore_rods (g := g) (t := (rodAt s g).n + 2) (wf_rods hs)
  rw [hpend] at h
  have hissue : x ∈ (rodAt (atIssue s g) g).pend := mem_advance_pend h hw
  rw [atIssue, hbefore] at hissue
  exact (List.mem_filter.mp hissue).1

end Pipeline

/-! ## The outcomes of an instruction whose moves meet no failure -/

section Outcome
variable {s : State} {g : Nat} {op : RodOp}

/-- An issue whose control step fails, fails its rod. -/
theorem issue_fails {eff : RodEnv → RodResult} {control : Nat → Rod → Except Nat Rod} {c : Nat} (h : clean s g op)
    (k : control (nextWord (rodAt (atIssue s g) g)) (rodAt (atIssue s g) g) = .error c) :
    issue s g op eff control = failIssue (atIssue s g) g c 2 := by
  obtain ⟨-, hissues, hplace, hx, hy⟩ := h
  have hallowed : (restricted op && (decide ((rodAt (atIssue s g) g).slots ≠ 0) || (rodAt (atIssue s g) g).repeating ||
      inLoopTail (rodAt (atIssue s g) g))) = false := by
    cases hr : restricted op with
    | false => rfl
    | true =>
      obtain ⟨hslots, hrepeat, htail⟩ := hplace hr
      simp [hslots, hrepeat, htail]
  unfold atIssue at *
  unfold issue
  simp only [hissues, hallowed, hx, hy, k, Bool.not_true, Bool.false_eq_true, if_false, Option.isSome_none]

/-- The instructions beside TRAP and END issue with an effect and a control step of their own. -/
theorem exec_issueOf {g : Fin 64} (htrap : op ≠ .trap) (hend : op ≠ .endPass) :
    ∃ eff control, exec (issueOf g op) s = onHost s (fun s => issue s g op eff control) := by
  cases op
  case trap => exact absurd rfl htrap
  case endPass => exact absurd rfl hend
  all_goals exact ⟨_, _, rfl⟩

/-- The registers of rod `g` and its frame that an instruction may change: mailbox and trap bits, and by END the rod's
status and cycle counts. -/
def ownRegister (g : Nat) (op : RodOp) (a : Nat) : Prop :=
  (∃ k < 8, a = Reg.ROD_IPEND (rodFrame g) k) ∨
    (op = .endPass ∧ a ∈ [rodReg Reg.ROD_STAT g, rodReg Reg.ROD_CYC_LAST g, rodReg Reg.ROD_CYC_MAX g])

/-- The words of frame SRAM that the stores in rod `g`'s pipeline reach when it issues: those that land by then, and by END
all of them. -/
def storeReaches (s : State) (g : Nat) (op : RodOp) (k : Nat) : Prop :=
  ∃ x ∈ (rodAt s g).pend, ∃ w, x.loc = .f w ∧ (op = .endPass ∨ x.land < (rodAt s g).n + 2) ∧
    k = rodFrame g * frameWords + w % frameWords

theorem ownRegister_ipend : ∀ k < 8, ownRegister g op (Reg.ROD_IPEND (rodFrame g) k) := fun k hk => .inl ⟨k, hk, rfl⟩

theorem reach_issued {x : RodResult} {r : Rod} (hs : Memory.wf s = true) :
    RodReach g (ownRegister g op) (storeReaches s g op) s (issued s g op x r) := by
  have hissue : RodReach g (ownRegister g op) (storeReaches s g op) s (atIssue s g) :=
    (RodReach.refl hs).landBefore ownRegister_ipend fun x hx hland w hw => ⟨x, hx, w, hw, .inr hland, rfl⟩
  exact hissue.setRod.countIssue

theorem reach_trap (hs : Memory.wf s = true) : RodReach g (ownRegister g .trap) (storeReaches s g .trap) s
    (rset (ran s g .trap effNone) (rodReg Reg.ROD_IPEND g) F.ROD_IPEND_TRAP) :=
  (reach_issued hs).rput (ownRegister_ipend _ (Nat.mod_lt _ (by decide)))

theorem reach_end (hs : Memory.wf s = true) : RodReach g (ownRegister g .endPass) (storeReaches s g .endPass) s
    (endPass (ran s g .endPass effNone) g) :=
  (reach_issued hs).endPass ownRegister_ipend (.inr ⟨rfl, by simp⟩) (.inr ⟨rfl, by simp⟩) (.inr ⟨rfl, by simp⟩)
    fun x hx w hw => ⟨x, mem_endPass_pend hs hx hw, w, hw, .inl rfl, rfl⟩

/-- What an instruction reaches whose moves and whose control step meet no failure: a failing control step would leave the
rod out of its pass. -/
theorem reach_exec {g : Fin 64} {t : State} (hs : Memory.wf s = true) (h : clean s g op)
    (hexec : exec (issueOf g op) s = .next t) (hout : op = .trap → bitOf (srNow (rodAt s g)) 19 = false)
    (hpass : op ≠ .endPass → (rodAt t g).phase = .inPass) :
    RodReach g (ownRegister g op) (storeReaches s g op) s t := by
  by_cases htrap : op = .trap
  · subst htrap
    obtain rfl := Host.Outcome.next.inj ((exec_trap_clean hs h (hout rfl)).symm.trans hexec)
    exact reach_trap hs
  by_cases hend : op = .endPass
  · subst hend
    obtain rfl := Host.Outcome.next.inj ((exec_end_clean hs h).symm.trans hexec)
    exact reach_end hs
  obtain ⟨eff, control, hissue⟩ := exec_issueOf (s := s) (g := g) htrap hend
  obtain rfl := Host.Outcome.next.inj ((onHost_live h.1).symm.trans (hissue.symm.trans hexec))
  cases hcontrol : control (nextWord (rodAt (atIssue s g) g)) (rodAt (atIssue s g) g) with
  | ok r =>
    rw [issue_clean h hcontrol]
    exact reach_issued hs
  | error c =>
    have hfail := hpass hend
    rw [issue_fails h hcontrol] at hfail
    have hwf : mapWf rodReset (atIssue s g).rods = true := (landBefore_rods (wf_rods hs)).1
    exact absurd hfail (outOfPass_failRod g.isLt (landBefore_rods hwf).1).2

end Outcome

/-- Settles O25: `reach_exec` says what an instruction reaches. -/
theorem rodInstructionFrame : Obligations.RodFrame := by
  unfold Obligations.RodFrame
  intro g s t op hs h hexec hout hpass
  obtain ⟨-, hparts, hothers, hregs, hwords⟩ := reach_exec hs h hexec hout hpass
  refine ⟨?parts, hothers, fun a hipend hstat => hregs a ?other, fun k hk => hwords k ?unreached⟩
  case parts =>
    obtain ⟨_, _, _, _, _, _, rfl⟩ := hparts
    rfl
  case other =>
    rintro (⟨i, hi, rfl⟩ | ⟨hend, ha⟩)
    · exact hipend i hi rfl
    · exact hstat hend ha
  case unreached =>
    rintro ⟨x, hx, w, hw, hland, rfl⟩
    exact hk x hx w hw hland rfl

end Sys2Proof.Machine

/-! PROOFS. The arithmetic of the rods: values in two's complement fields, results fitted to a word or to an accumulator,
and rounding (R188 to R197). -/

namespace Sys2Proof.Machine
open Sys2Proof

/-! ## Two's complement fields -/

theorem two_pow_eq {n : Nat} (hn : 0 < n) : (2 : Int) ^ n = 2 * 2 ^ (n - 1) := by
  obtain ⟨k, rfl⟩ : ∃ k, n = k + 1 := ⟨n - 1, by omega⟩
  rw [Int.pow_succ, Int.mul_comm, Nat.add_sub_cancel]

/-- A value held in a field of `n` bits reads as its representative in [-2^(n-1), 2^(n-1)). -/
theorem signed_wrapTo {n : Nat} (hn : 0 < n) (x : Int) :
    signed n (wrapTo n x) = (x + 2 ^ (n - 1)) % 2 ^ n - 2 ^ (n - 1) := by
  have hpow : (2 : Int) ^ n = 2 * 2 ^ (n - 1) := two_pow_eq hn
  have hpos : (0 : Int) < 2 ^ (n - 1) := Int.pow_pos (by decide)
  have hlt : x % 2 ^ n < 2 ^ n := Int.emod_lt_of_pos x (by omega)
  have hnonneg : 0 ≤ x % 2 ^ n := Int.emod_nonneg x (by omega)
  have hnat : ((2 ^ n : Nat) : Int) = 2 ^ n := Int.natCast_pow 2 n
  have hcast : (wrapTo n x : Int) = x % 2 ^ n := Int.toNat_of_nonneg hnonneg
  have hread : wrapTo n x % 2 ^ n = wrapTo n x := Nat.mod_eq_of_lt (Int.ofNat_lt.mp (by rwa [hcast, hnat]))
  have hhigh : 2 * wrapTo n x ≥ 2 ^ n ↔ (2 : Int) ^ n ≤ 2 * (x % 2 ^ n) := by
    rw [← hcast, ← hnat]
    exact Int.ofNat_le.symm
  unfold signed
  simp only [hread, hcast, hhigh]
  rw [← Int.emod_add_emod x (2 ^ n)]
  generalize x % 2 ^ n = m at *
  by_cases hneg : m < 2 ^ (n - 1)
  · rw [if_neg (by omega), Int.emod_eq_of_lt (by omega) (by omega)]
    omega
  · rw [if_pos (by omega), ← Int.sub_emod_right, Int.emod_eq_of_lt (by omega) (by omega)]
    omega

theorem signed_wrapTo_of_mem {n : Nat} {x : Int} (hn : 0 < n) (hlo : -(2 ^ (n - 1)) ≤ x) (hhi : x < 2 ^ (n - 1)) :
    signed n (wrapTo n x) = x := by
  have hpow : (2 : Int) ^ n = 2 * 2 ^ (n - 1) := two_pow_eq hn
  rw [signed_wrapTo hn, Int.emod_eq_of_lt (by omega) (by omega)]
  omega

/-- A 72-bit field reads as a number of its range that differs from what was put there by a multiple of 2^72. -/
theorem signed_wrapTo_72_wraps (x : Int) : -(2 ^ 71) ≤ signed 72 (wrapTo 72 x) ∧ signed 72 (wrapTo 72 x) < 2 ^ 71 ∧
    ∃ k : Int, signed 72 (wrapTo 72 x) = x + k * 2 ^ 72 := by
  rw [signed_wrapTo (by decide)]
  exact ⟨by omega, by omega, -((x + 2 ^ 71) / 2 ^ 72), by omega⟩

/-! ## Q1.31 results -/

section Q31
variable {sat : Bool} {x : Int}

/-- The word of a result in the Q1.31 range is the result. -/
theorem toInt_q31_of_mem (hlo : -(2 ^ 31) ≤ x) (hhi : x < 2 ^ 31) : (q31 sat x).1.toInt = x := by
  rw [q31, if_neg (by omega), if_neg (by omega)]
  exact BitVec.toInt_ofInt_eq_self (by decide) hlo hhi

theorem q31_of_ge (h : 2 ^ 31 ≤ x) : (q31 sat x).1 = if sat = true then 0x7FFFFFFF else BitVec.ofInt 32 x := by
  rw [q31, if_pos (by omega)]
  rfl

theorem q31_of_lt (h : x < -(2 ^ 31)) : (q31 sat x).1 = if sat = true then 0x80000000 else BitVec.ofInt 32 x := by
  rw [q31, if_neg (by omega), if_pos h]
  rfl

/-- V of a Q1.31 result. -/
theorem q31_overflow : (q31 sat x).2 = !decide (-(2 ^ 31) ≤ x ∧ x < 2 ^ 31) := by
  by_cases hhi : x > 2 ^ 31 - 1
  · rw [q31, if_pos hhi, decide_eq_false (by omega)]
    rfl
  by_cases hlo : x < -(2 ^ 31)
  · rw [q31, if_neg hhi, if_pos hlo, decide_eq_false (by omega)]
    rfl
  · rw [q31, if_neg hhi, if_neg hlo, decide_eq_true (by omega)]
    rfl

end Q31

/-- What ADD, SUB and ASL write for the exact result `x`, with the carry `c` (R191, R193). -/
def q31Result (e : RodEnv) (x : Int) (c : Option Bool) : RodResult :=
  aluResult e (q31 e.sat x).1 (some (q31 e.sat x).2) c ((q31 e.sat x).2 && e.sat)

theorem effAdd_eq (e : RodEnv) : effAdd e = q31Result e ((aluA e).toInt + (aluB e).toInt)
    (some (decide ((aluA e).toNat + (aluB e).toNat ≥ 2 ^ 32))) := rfl

theorem effSub_eq (e : RodEnv) : effSub e = q31Result e ((aluA e).toInt - (aluB e).toInt)
    (some (decide ((aluA e).toNat ≥ (aluB e).toNat))) := rfl

theorem effAsl_eq (e : RodEnv) : effAsl e = q31Result e ((aluA e).toInt * 2 ^ shiftC e)
    (carryLeft (aluA e) (shiftC e)) := rfl

/-- What a Q1.31 result writes, for its carry given as a proposition `P` and its wrapped word `u`. -/
theorem exists_q31Result (e : RodEnv) (x : Int) (u : Word) {c : Option Bool} {P : Prop} [Decidable P] {mask : Nat}
    (hu : BitVec.ofInt 32 x = u) (hmask : mask = if c = none then 0x700 else 0xF00) (hc : c = some true ↔ P) :
    ∃ r : Word, q31Result e x c = { d := [(opDD e.w, r)], mask := mask, stickyEx :=
        (if -(2 ^ 31) ≤ x ∧ x < 2 ^ 31 then 0 else if e.sat = true then 0x3000 else 0x1000), val :=
        (if r = 0 then 0x100 else 0) + (if r.msb = true then 0x200 else 0) +
        (if -(2 ^ 31) ≤ x ∧ x < 2 ^ 31 then 0 else 0x400) + (if P then 0x800 else 0) } ∧
      (-(2 ^ 31) ≤ x ∧ x < 2 ^ 31 → r.toInt = x) ∧
      (2 ^ 31 ≤ x → r = if e.sat = true then 0x7FFFFFFF else u) ∧
      (x < -(2 ^ 31) → r = if e.sat = true then 0x80000000 else u) := by
  subst hu
  refine ⟨(q31 e.sat x).1, ?writes, fun ⟨hlo, hhi⟩ => toInt_q31_of_mem hlo hhi, q31_of_ge, q31_of_lt⟩
  have hflags : srZ + srN + srV + (if c.isSome = true then srC else 0) = mask := by
    rw [hmask]
    cases c <;> rfl
  unfold q31Result aluResult znOf
  simp only [q31_overflow, hc, hflags, Option.isSome_some, if_true]
  by_cases hx : -(2 ^ 31) ≤ x ∧ x < 2 ^ 31
  · simp only [hx, decide_true, and_self, Bool.not_true, Bool.false_and, if_true]
    rfl
  · simp only [hx, decide_false, Bool.not_false, Bool.true_and, if_true, if_false]
    cases e.sat <;> rfl

/-- C of a left shift is the last bit shifted out; from a shift by more than 32 it is 0. -/
theorem carryLeft_eq_true_iff {a : Word} {c : Nat} :
    carryLeft a c = some true ↔ 0 < c ∧ c ≤ 32 ∧ a.getLsbD (32 - c) = true := by
  by_cases hzero : c = 0
  · rw [carryLeft, if_pos hzero]
    exact ⟨nofun, fun ⟨hpos, _⟩ => absurd hzero (Nat.ne_of_gt hpos)⟩
  by_cases hle : c ≤ 32
  · rw [carryLeft, if_neg hzero, if_pos hle]
    exact ⟨fun h => ⟨Nat.pos_of_ne_zero hzero, hle, Option.some.inj h⟩, fun ⟨_, _, h⟩ => congrArg some h⟩
  · rw [carryLeft, if_neg hzero, if_neg hle]
    exact ⟨nofun, fun ⟨_, h, _⟩ => absurd h hle⟩

theorem carryLeft_eq_none_iff {a : Word} {c : Nat} : carryLeft a c = none ↔ c = 0 := by
  by_cases hzero : c = 0
  · rw [carryLeft, if_pos hzero]
    exact iff_of_true rfl hzero
  · rw [carryLeft, if_neg hzero]
    exact iff_of_false (by split <;> nofun) hzero

theorem ofInt_toInt_mul_two_pow (a : Word) (c : Nat) : BitVec.ofInt 32 (a.toInt * 2 ^ c) = a <<< c := by
  have hpow : BitVec.ofInt 32 (2 ^ c) = BitVec.twoPow 32 c := by
    apply BitVec.eq_of_toNat_eq
    rw [BitVec.toNat_twoPow]
    exact congrArg BitVec.toNat (BitVec.ofInt_natCast 32 (2 ^ c))
  rw [BitVec.shiftLeft_eq_mul_twoPow, BitVec.ofInt_mul, BitVec.ofInt_toInt, hpow]

theorem ofInt_toInt_add (a b : Word) : BitVec.ofInt 32 (a.toInt + b.toInt) = a + b := by
  rw [BitVec.ofInt_add, BitVec.ofInt_toInt, BitVec.ofInt_toInt]

theorem ofInt_toInt_sub (a b : Word) : BitVec.ofInt 32 (a.toInt - b.toInt) = a - b := by
  rw [Int.sub_eq_add_neg, BitVec.ofInt_add, BitVec.ofInt_neg, BitVec.ofInt_toInt, BitVec.ofInt_toInt,
    BitVec.sub_eq_add_neg]

/-! ## Accumulators -/

section Fit
variable {sat : Bool} {x : Int}

theorem fit72_of_mem (hlo : -(2 ^ 71) ≤ x) (hhi : x < 2 ^ 71) : fit72 sat x = (x, 0) := by
  rw [fit72, if_neg (by omega)]

theorem fit72_true_of_ge (h : 2 ^ 71 ≤ x) : fit72 true x = (2 ^ 71 - 1, 0x3000) := by
  rw [fit72, if_pos (by omega), if_pos rfl, if_neg (by omega)]
  rfl

theorem fit72_true_of_lt (h : x < -(2 ^ 71)) : fit72 true x = (-(2 ^ 71), 0x3000) := by
  rw [fit72, if_pos (by omega), if_pos rfl, if_pos (by omega)]
  rfl

/-- Unsaturated, a value out of range wraps. -/
theorem fit72_false_of_not_mem (h : x < -(2 ^ 71) ∨ 2 ^ 71 ≤ x) :
    fit72 false x = (signed 72 (wrapTo 72 x), 0x1000) := by
  rw [fit72, if_pos (by omega), if_neg (by decide), signed_wrapTo (by decide)]
  rfl

end Fit

theorem accResult_of_fit72 {e : RodEnv} {x y : Int} {sticky : Nat} (h : fit72 e.sat x = (y, sticky)) :
    accResult e x = { a := [(opAN e.w, y)], stickyWb := sticky } := by
  simp only [accResult, h]

/-- The product that PSH scales. -/
theorem product_eq (psh : Nat) (a b : Word) :
    product psh a b = a.toInt * b.toInt * (if psh = 0 then 2 else if psh = 1 then 4 else 1) := by
  match psh with
  | 0 => rfl
  | 1 => rfl
  | n + 2 =>
    rw [if_neg (by omega), if_neg (by omega)]
    rfl

theorem natAbs_toInt_le (w : Word) : w.toInt.natAbs ≤ 2 ^ 31 := by
  have hlo : -(2 ^ 31) ≤ w.toInt := w.le_toInt
  have hhi : w.toInt < 2 ^ 31 := w.toInt_lt
  omega

/-- Every product fits the accumulator (R189). -/
theorem product_mem (psh : Nat) (a b : Word) : -(2 ^ 71) ≤ product psh a b ∧ product psh a b < 2 ^ 71 := by
  have hab : (a.toInt * b.toInt).natAbs ≤ 2 ^ 31 * 2 ^ 31 := by
    rw [Int.natAbs_mul]
    exact Nat.mul_le_mul (natAbs_toInt_le a) (natAbs_toInt_le b)
  rw [product_eq]
  generalize a.toInt * b.toInt = p at *
  split
  · omega
  split
  · omega
  · omega

/-- Rounding at bit 32 gives a multiple of 2^32: below the value, nearest with halves up, nearest with halves to even
(R192). -/
theorem exists_roundAt32 (rnd : Nat) (v : Int) : ∃ q : Int, roundAt32 rnd v = q * 2 ^ 32 ∧
    (rnd = 0 → q * 2 ^ 32 ≤ v ∧ v < q * 2 ^ 32 + 2 ^ 32) ∧
    (rnd = 1 → q * 2 ^ 32 - 2 ^ 31 ≤ v ∧ v < q * 2 ^ 32 + 2 ^ 31) ∧
    (2 ≤ rnd → q * 2 ^ 32 - 2 ^ 31 ≤ v ∧ v ≤ q * 2 ^ 32 + 2 ^ 31 ∧
      (v = q * 2 ^ 32 - 2 ^ 31 ∨ v = q * 2 ^ 32 + 2 ^ 31 → q % 2 = 0)) := by
  match rnd with
  | 0 => exact ⟨_, rfl, by omega, nofun, nofun⟩
  | 1 => exact ⟨_, rfl, nofun, by omega, nofun⟩
  | n + 2 =>
    refine ⟨_, rfl, nofun, by omega, fun _ => ?_⟩
    by_cases hodd : v % 2 ^ 32 = 2 ^ 31 ∧ (v + 2 ^ 31) / 2 ^ 32 % 2 = 1
    · rw [if_pos hodd]
      omega
    · rw [if_neg hodd]
      omega

/-! ## The instructions -/

/-- Settles O26: `exists_q31Result` for results in D registers, the cases of `fit72` for accumulators, and
`exists_roundAt32`. -/
theorem arithmeticLaws : Obligations.ArithmeticLaws := by
  unfold Obligations.ArithmeticLaws
  refine ⟨?add, ?sub, ?asl, ?mpy, ?adda, ?rnda, ?sata⟩
  case add =>
    rintro e _ _ _ (rfl : _ = aluA e) rfl rfl
    rw [effAdd_eq]
    exact exists_q31Result e _ _ (ofInt_toInt_add ..) rfl (Option.some_inj.trans decide_eq_true_iff)
  case sub =>
    rintro e _ _ _ (rfl : _ = aluA e) rfl rfl
    rw [effSub_eq]
    exact exists_q31Result e _ _ (ofInt_toInt_sub ..) rfl (Option.some_inj.trans decide_eq_true_iff)
  case asl =>
    rintro e _ _ _ (rfl : _ = aluA e) (rfl : _ = shiftC e) rfl
    rw [effAsl_eq]
    exact exists_q31Result e _ _ (ofInt_toInt_mul_two_pow ..) (by simp only [carryLeft_eq_none_iff]) carryLeft_eq_true_iff
  case mpy =>
    rintro e _ _ rfl rfl
    obtain ⟨hlo, hhi⟩ := product_mem (bitsOf e.w 32 2) (e.d (bitsOf e.w 46 4)) (e.d (bitsOf e.w 42 4))
    rw [← product_eq]
    exact accResult_of_fit72 (fit72_of_mem hlo hhi)
  case adda =>
    rintro e _ rfl
    refine ⟨fun ⟨hlo, hhi⟩ => ?fits, fun h hsat => ?above, fun h hsat => ?below, fun h hsat => ?wraps⟩
    case fits => exact accResult_of_fit72 (fit72_of_mem hlo hhi)
    case above => exact accResult_of_fit72 (hsat ▸ fit72_true_of_ge h)
    case below => exact accResult_of_fit72 (hsat ▸ fit72_true_of_lt h)
    case wraps =>
      obtain ⟨hlo, hhi, k, hk⟩ := signed_wrapTo_72_wraps (e.accF (opAN e.w) + e.accF (opAM e.w))
      exact ⟨_, k, accResult_of_fit72 (hsat ▸ fit72_false_of_not_mem h), hlo, hhi, hk⟩
  case rnda =>
    rintro e _ rfl
    obtain ⟨q, hq, hdown, hup, heven⟩ := exists_roundAt32 e.rnd (e.accF (opAM e.w))
    rw [effRnda, hq]
    refine ⟨q, hdown, hup, heven, fun ⟨hlo, hhi⟩ => ?fits, fun h hsat => ?above⟩
    case fits => exact accResult_of_fit72 (fit72_of_mem hlo hhi)
    case above => exact accResult_of_fit72 (hsat ▸ fit72_true_of_ge h)
  case sata =>
    rintro e _ rfl
    refine ⟨fun ⟨hlo, hhi⟩ => ?fits, fun h => ?above, fun h => ?below⟩ <;> unfold effSata
    case fits => rw [if_neg (by omega), if_neg (by omega)]
    case above =>
      rw [if_pos h]
      rfl
    case below =>
      rw [if_neg (by omega), if_pos h]
      rfl

end Sys2Proof.Machine

/-! PROOFS. Division by steps of DIVS (R201). -/

namespace Sys2Proof.Machine
open Sys2Proof

/-- Wrapping the 40 bits above the lowest 32 wraps all 72. -/
theorem signed_wrapTo_upper {t lo : Int} (hlo : 0 ≤ lo) (hhi : lo < 2 ^ 32) :
    signed 72 (wrapTo 72 (t * 2 ^ 32 + lo)) = signed 40 (wrapTo 40 t) * 2 ^ 32 + lo := by
  rw [signed_wrapTo (by decide), signed_wrapTo (by decide)]
  omega

/-- What one step of restoring division by `d` makes of an accumulator (R201). -/
def divsStep (d v : Int) : Int :=
  let sh := signed 72 (wrapTo 72 (v * 2))
  let t := sh / 2 ^ 32 - d
  if 0 ≤ t then signed 72 (wrapTo 72 (t * 2 ^ 32 + (sh % 2 ^ 32 - sh % 2 + 1))) else sh

/-- DIVS writes its step's accumulator and nothing else: wrapping the upper 40 bits alone is wrapping all 72. -/
theorem effDivs_eq (e : RodEnv) :
    effDivs e = { a := [(opAN e.w, divsStep (e.d (ctlDA e.w)).toInt (e.accF (opAN e.w)))] } := by
  have hsh : (e.accF (opAN e.w) * 2 + 2 ^ 71) % 2 ^ 72 - 2 ^ 71 = signed 72 (wrapTo 72 (e.accF (opAN e.w) * 2)) :=
    (signed_wrapTo (n := 72) (by decide) _).symm
  unfold effDivs divsStep
  rw [hsh]
  generalize signed 72 (wrapTo 72 (e.accF (opAN e.w) * 2)) = sh
  have hlow : sh % 2 ^ 32 / 2 * 2 + 1 = sh % 2 ^ 32 - sh % 2 + 1 := by omega
  simp only [hlow, ge_iff_le]
  rw [signed_wrapTo_upper (by omega) (by omega)]
  rfl

/-- The accumulator after `k` steps of dividing `n` by `q`: the remainder of n × 2^k in H, the quotient in L. -/
def partialDivision (n q k : Nat) : Int := (n * 2 ^ k % q : Nat) * 2 ^ 32 + (n * 2 ^ k / q : Nat)

/-- A step in which nothing overflows: it doubles the remainder `r` and the quotient `c`, and takes `q` from the
remainder where it can. -/
theorem divsStep_of_lt {q r c : Nat} (hr : r < 2 ^ 31) (hc : c < 2 ^ 31) :
    divsStep q ((r : Int) * 2 ^ 32 + c) =
      if q ≤ 2 * r then (2 * (r : Int) - q) * 2 ^ 32 + (2 * c + 1) else 2 * (r : Int) * 2 ^ 32 + 2 * c := by
  have hsh : signed 72 (wrapTo 72 (((r : Int) * 2 ^ 32 + c) * 2)) = 2 * r * 2 ^ 32 + 2 * c := by
    rw [signed_wrapTo_of_mem (by decide) (by omega) (by omega)]
    omega
  have hhigh : (2 * (r : Int) * 2 ^ 32 + 2 * c) / 2 ^ 32 = 2 * r := by omega
  have hlow : (2 * (r : Int) * 2 ^ 32 + 2 * c) % 2 ^ 32 - (2 * (r : Int) * 2 ^ 32 + 2 * c) % 2 + 1 = 2 * c + 1 := by
    omega
  unfold divsStep
  simp only [hsh, hhigh, hlow]
  by_cases hq : q ≤ 2 * r
  · rw [if_pos (by omega), if_pos hq, signed_wrapTo_of_mem (by decide) (by omega) (by omega)]
  · rw [if_neg (by omega), if_neg hq]

/-- Each of the first 31 steps brings one more bit of the quotient. -/
theorem divsStep_partialDivision {n q k : Nat} (hn : n < q) (hq : q < 2 ^ 31) (hk : k < 31) :
    divsStep q (partialDivision n q k) = partialDivision n q (k + 1) := by
  have hpos : 0 < q := by omega
  have hrem : n * 2 ^ k % q < q := Nat.mod_lt _ hpos
  have hquot : n * 2 ^ k / q < 2 ^ 31 :=
    calc n * 2 ^ k / q < 2 ^ k := Nat.div_lt_of_lt_mul (Nat.mul_lt_mul_of_pos_right hn (Nat.two_pow_pos k))
      _ ≤ 2 ^ 31 := Nat.pow_le_pow_right (by decide) (Nat.le_of_lt hk)
  have hnext : n * 2 ^ (k + 1) = 2 * (n * 2 ^ k % q) + q * (2 * (n * 2 ^ k / q)) :=
    calc n * 2 ^ (k + 1) = 2 * (n * 2 ^ k) := by rw [Nat.pow_succ, ← Nat.mul_assoc, Nat.mul_comm]
      _ = 2 * (n * 2 ^ k % q + q * (n * 2 ^ k / q)) := by rw [Nat.mod_add_div]
      _ = 2 * (n * 2 ^ k % q) + q * (2 * (n * 2 ^ k / q)) := by rw [Nat.mul_add, Nat.mul_left_comm 2 q]
  unfold partialDivision
  rw [divsStep_of_lt (by omega) hquot, hnext, Nat.add_mul_div_left _ _ hpos, Nat.add_mul_mod_self_left]
  generalize n * 2 ^ k % q = r at *
  generalize n * 2 ^ k / q = c at *
  by_cases hsub : q ≤ 2 * r
  · have hone : 2 * r / q = 1 := Nat.div_eq_of_lt_le (by omega) (by omega)
    rw [if_pos hsub, hone, Nat.mod_eq_sub_mod hsub, Nat.mod_eq_of_lt (by omega)]
    omega
  · rw [if_neg hsub, Nat.div_eq_of_lt (by omega), Nat.mod_eq_of_lt (by omega)]
    omega

theorem repeat_divsStep {n q k : Nat} (hn : n < q) (hq : q < 2 ^ 31) (hk : k ≤ 31) :
    Nat.repeat (divsStep q) k ((n : Int) * 2 ^ 32) = partialDivision n q k := by
  induction k with
  | zero =>
    rw [Nat.repeat, partialDivision, Nat.pow_zero, Nat.mul_one, Nat.mod_eq_of_lt hn, Nat.div_eq_of_lt hn]
    exact (Int.add_zero _).symm
  | succ k ih => rw [Nat.repeat, ih (by omega), divsStep_partialDivision hn hq (by omega)]

/-- Settles O24: each step extends the partial division by one bit, and 31 of them make it whole. -/
theorem divisionBySteps : Obligations.DivisionBySteps := by
  unfold Obligations.DivisionBySteps
  refine ⟨fun e => ⟨_, effDivs_eq e, ?step⟩, fun e n q hn hq hd => ?divide⟩
  case step =>
    rintro sh t rfl rfl
    rfl
  case divide =>
    have hdivisor : (e.d (ctlDA e.w)).toInt = q := by
      rw [BitVec.toInt_eq_toNat_of_lt (by omega), hd]
    simp only [effDivs_eq, List.map_cons, List.headD_cons, hdivisor]
    exact repeat_divsStep hn hq (Nat.le_refl 31)

end Sys2Proof.Machine

/-! PROOFS. Addresses of the rods: post-modification inside and outside a buffer, and words that lie in no memory
(R185, R141). -/

namespace Sys2Proof.Machine
open Sys2Proof

theorem bufMod_of_mem {b l a : Nat} (d : Int) (hspace : b + l ≤ 2 ^ 20) (hlo : b ≤ a) (hhi : a < b + l) :
    bufMod b l a d = b + (((a : Int) - b + d) % (l : Int)).toNat ∧ (((a : Int) - b + d) % (l : Int)).toNat < l := by
  have hnonneg : 0 ≤ ((a : Int) - b + d) % (l : Int) := Int.emod_nonneg _ (by omega)
  have hlt : ((a : Int) - b + d) % (l : Int) < l := Int.emod_lt_of_pos _ (by omega)
  rw [bufMod, if_pos ⟨by omega, hlo, hhi⟩, Int.ofNat_sub hlo]
  omega

theorem bufMod_of_not_mem {b l a : Nat} (d : Int) (h : l = 0 ∨ a < b ∨ b + l ≤ a) :
    bufMod b l a d = (((a : Int) + d) % 2 ^ 20).toNat := by
  rw [bufMod, if_neg (by omega)]

/-- The words between the local memories and frame SRAM lie in no memory (Table 04-2). -/
theorem wordLoc_eq_none {y : Bool} {a : Nat} (hlo : 0x8000 ≤ a) (hhi : a < 0x80000) : wordLoc y a = none := by
  rw [wordLoc, if_neg (by omega), if_pos hhi]

theorem gatherFail_unmapped {a : Nat} {x : Gather} (hx : x.fail = none) :
    (gatherFail caUnmapped a x).fail = some (caUnmapped, 3) := by
  rw [gatherFail, hx]
  rfl

section Unmapped
variable {s : State} {g a : Nat} {y : Bool} {x : Gather}

theorem readWord_of_wordLoc_eq_none (h : wordLoc y a = none) : readWord s g y a = .error caUnmapped := by
  simp only [readWord, h]

theorem gatherLoad_of_wordLoc_eq_none {r : Nat} (h : wordLoc y a = none) :
    gatherLoad s g y a r x = gatherFail caUnmapped a x := by
  rw [gatherLoad, readWord_of_wordLoc_eq_none h]

theorem gatherTap_of_wordLoc_eq_none (h : wordLoc y a = none) :
    gatherTap s g y a x = gatherFail caUnmapped a x := by
  rw [gatherTap, readWord_of_wordLoc_eq_none h]

theorem gatherStore_of_wordLoc_eq_none {v : Word} (h : wordLoc y a = none) :
    gatherStore s g y a v x = gatherFail caUnmapped a x := by
  rw [gatherStore, h]

end Unmapped

/-- Settles O27: the two cases of `bufMod`, and a failure with UNMAPPED where a word has no place. -/
theorem bufferAddresses : Obligations.BufferAddresses := by
  unfold Obligations.BufferAddresses
  refine ⟨fun b l a d hspace hlo hhi => ?inside, fun b l a d hout => ?outside,
    fun s g y a r v x hlo hhi hx => ?unmapped⟩
  case inside =>
    obtain ⟨heq, hlt⟩ := bufMod_of_mem d hspace hlo hhi
    exact ⟨heq, by omega, by omega⟩
  case outside =>
    rw [bufMod_of_not_mem d hout]
    omega
  case unmapped =>
    have hnone : wordLoc y a = none := wordLoc_eq_none hlo hhi
    rw [gatherLoad_of_wordLoc_eq_none hnone, gatherTap_of_wordLoc_eq_none hnone, gatherStore_of_wordLoc_eq_none hnone]
    exact ⟨gatherFail_unmapped hx, gatherFail_unmapped hx, gatherFail_unmapped hx⟩

end Sys2Proof.Machine

/-! PROOFS. Carries and snapshot banks: the sources that fire, the armed match and the scheduled stack carries, and the
sections that a host reads (R272 to R279). -/

namespace Sys2Proof.Machine
open Sys2Proof Sys2Proof.Safety

section Sources
variable {s : State} {src stag : Nat}

/-- Outside a boundary cycle an enabled source makes a carry of its own (R272). -/
theorem fire_enabled (hfired : s.snap.fired = none) (hen : carryEnabled s src = true) :
    fire s src stag = carryWith raise s (2 ^ src) (posNow s) stag := by
  simp only [fire, fireWith, hfired, hen, Bool.not_true, Bool.false_eq_true, if_false]

theorem fire_disabled (hen : carryEnabled s src = false) : fire s src stag = s := by
  simp only [fire, fireWith, hen, Bool.not_false, if_true]

theorem finishCarry_none (enabled : Bool) (s : State) (stag : Nat) : finishCarry enabled s none stag = s := by
  cases enabled <;> rfl

end Sources

section Timed
variable {s : State} {t : Int} {c : Int × Nat × Option DescRef}

/-- What fires by its time, outside the cycle of the next boundary, makes a carry with all its causes (R272). -/
theorem timedCarry_outside (hcycle : fabCycle t ≠ fabCycle (boundaryAt s)) (hfires : timedCauses s t ≠ 0) :
    timedCarry s t = finishTimed s (carryWith raise (clearTimed s t) (timedCauses s t) (posNow (clearTimed s t))
      (timedTag s t)) t := by
  rw [timedCarry, if_neg hcycle]
  exact congrArg (finishTimed s · t) (if_neg hfires)

theorem matchAt_matchTime (harm : ron s Reg.SNP_MATCH_CTRL F.SNP_MATCH_CTRL_ARM = true) :
    matchAt s (matchTime s) = true := by
  rw [matchAt, harm, beq_self_eq_true, Bool.and_true]

theorem matchAt_unarmed (harm : ron s Reg.SNP_MATCH_CTRL F.SNP_MATCH_CTRL_ARM = false) : matchAt s t = false := by
  rw [matchAt, harm, Bool.false_and]

theorem stackAt_empty (hwaits : s.snap.scheduled = []) : stackAt s t = [] := by
  rw [stackAt, hwaits, List.filter_nil]

theorem stackAt_single (hwaits : s.snap.scheduled = [c]) : stackAt s c.1 = [c] := by
  rw [stackAt, hwaits]
  exact List.filter_cons_of_pos (beq_self_eq_true (fabCycle c.1))

/-- An armed match with no stack carry scheduled carries with its own cause, disarms itself and completes its descriptor
(R278). -/
theorem timedCarry_match (harm : ron s Reg.SNP_MATCH_CTRL F.SNP_MATCH_CTRL_ARM = true)
    (hcycle : fabCycle (matchTime s) ≠ fabCycle (boundaryAt s)) (hwaits : s.snap.scheduled = [])
    (hen : carryEnabled s csMatch = true) :
    timedCarry s (matchTime s) = finishCarry true (carryWith raise (disarm s) 16 (posNow (disarm s)) 0)
      s.snap.armed 0 := by
  have hmatch := matchAt_matchTime harm
  have hstack : stackAt s (matchTime s) = [] := stackAt_empty hwaits
  have hcauses : timedCauses s (matchTime s) = 16 := by
    rw [timedCauses, hmatch, hstack, hen]
    rfl
  have htag : timedTag s (matchTime s) = 0 := by simp [timedTag, hstack]
  have hclear : clearTimed s (matchTime s) = disarm s := by
    simp only [clearTimed, hmatch, if_true, hwaits, List.filter_nil]
    rw [← hwaits]
  rw [timedCarry_outside hcycle (by omega), hcauses, htag, hclear]
  simp only [finishTimed, hmatch, hstack, htag, hen, if_true, forEach, List.foldl_nil]

/-- A scheduled stack carry with no match armed carries with its own cause and tag, waits no longer and completes its
descriptor (R277). -/
theorem timedCarry_stack (hwaits : s.snap.scheduled = [c]) (hcycle : fabCycle c.1 ≠ fabCycle (boundaryAt s))
    (harm : ron s Reg.SNP_MATCH_CTRL F.SNP_MATCH_CTRL_ARM = false) (hen : carryEnabled s csStack = true) {u : State}
    (hu : u = { s with snap := { s.snap with scheduled := [] } }) :
    timedCarry s c.1 = finishCarry true (carryWith raise u 32 (posNow u) c.2.1) c.2.2 c.2.1 := by
  have hmatch : matchAt s c.1 = false := matchAt_unarmed harm
  have hstack := stackAt_single hwaits
  have hcauses : timedCauses s c.1 = 32 := by
    rw [timedCauses, hmatch, hstack, hen]
    rfl
  have htag : timedTag s c.1 = c.2.1 := by simp [timedTag, hstack, hen]
  have hclear : clearTimed s c.1 = u := by simp [clearTimed, hmatch, hwaits, hu]
  rw [timedCarry_outside hcycle (by omega), hcauses, htag, hclear]
  simp [finishTimed, hmatch, hstack, htag, hen, forEach, finishCarry_none]

end Timed

section Banks
variable {s : State} {bs : List Byte} {k : Nat} {x : Die}

/-- A register write leaves the snapshot banks alone. -/
theorem rwrite_snap (s : State) (a : Nat) (w : Word) : (rwrite s a w).snap = s.snap := by
  cases h : hostRow a with
  | none => rw [rwrite_no_row h]
  | some r => rw [rwrite_row h, wr_snap]

theorem takeTurn_snap (s : State) (n : Nat) : (takeTurn s n).snap = s.snap := by
  unfold takeTurn
  split
  · rfl
  · rfl

/-- Accepting a descriptor leaves the snapshot banks alone. -/
theorem markAccepted_snap (s : State) (d : DescRef) : (markAccepted s d).snap = s.snap := takeTurn_snap s d.qp

/-- A write of SNP_HOLD that ends the hold shows the latest bank (R273). -/
theorem hostSnpHoldWrite_released {u : State} {w : Word} {b : Bank} (hu : u = rwrite s Reg.SNP_HOLD w)
    (hheld : ron u Reg.SNP_HOLD F.SNP_HOLD_HOLD = false) (hlatest : s.snap.latest = some b) :
    hostSnpHoldWrite w s = showBank { rclr u Reg.SNP_STAT F.SNP_STAT_HELD with
      snap := { s.snap with latest := none } } b := by
  have hsnap : (rbit u Reg.SNP_STAT F.SNP_STAT_HELD false).snap = s.snap := by rw [rbit_snap, hu, rwrite_snap]
  simp only [hostSnpHoldWrite, ← hu, hheld, hsnap, hlatest, Bool.false_eq_true, if_false]
  rfl

/-- A mask's bit `k` is the one-bit parameter at that place. -/
theorem bitOf_par (h : k < 10) : bitOf (par bs 8 0 10) k = true ↔ par bs 8 k 1 = 1 := by
  simp only [bitOf, par, bitsOf, Nat.testBit_mod_two_pow, h, decide_true, Bool.true_and, Nat.shiftRight_zero]
  simp only [Nat.testBit_eq_decide_div_mod_eq, decide_eq_true_eq, Nat.shiftRight_eq_div_pow, Nat.pow_one]

/-- The section of a field die is asked for and on its way: neither whole nor marked invalid (R276). -/
def sectionAwaited (s : State) (bs : List Byte) (k : Nat) (x : Die) : Bool :=
  ((List.range 10).filter (bitOf (par bs 8 0 10))).contains k && s.snap.valid && !fieldReady s.snap.presented x &&
    !fieldInvalid s.snap.presented x

theorem sectionAwaited_iff (h : k < 10) : sectionAwaited s bs k x = true ↔ par bs 8 k 1 = 1 ∧ s.snap.valid = true ∧
    fieldReady s.snap.presented x = false ∧ fieldInvalid s.snap.presented x = false := by
  simp [sectionAwaited, h, bitOf_par, and_assoc]

/-- A SNAPSHOT_READ that may be accepted is judged by the field sections on their way and by its buffer (R275, R276). -/
theorem snapshotRead_ready {d : DescRef} {out : List Byte} (h : ready s d 0x31 bs)
    (hout : out = (((List.range 10).filter (bitOf (par bs 8 0 10))).map
      (sectionOut (markAccepted s d) s.snap.presented)).flatten) :
    exec (.snapshotRead d) s = .next (
      if sectionAwaited s bs 8 .a || sectionAwaited s bs 9 .b then finish (markAccepted s d) d stNotReady 0
      else if leAt bs 24 4 < out.length then finish (markAccepted s d) d stInvalidParam 0
      else finish (hostWrite (markAccepted s d) (leAt bs 16 8) out) d stOk
        (s.snap.presented.seq + 2 ^ 32 * b2n s.snap.valid)) := by
  refine (onDesc_ready h).trans (congrArg _ ?_)
  simp only [markAccepted_snap, ← hout, sectionAwaited]
  rfl

end Banks

/-- Settles O29: a source that fires alone makes its own carry, and each other clause is the branch of its command that
its hypotheses choose. -/
theorem carriesComplete : Obligations.CarriesComplete := by
  unfold Obligations.CarriesComplete
  refine ⟨⟨?fire, ?fireDisabled, ?edge, ?reached, ?stack, ?reachedBoundary, ?arm, ?armPassed, ?release, ?outEnd⟩,
    ?armNow, ?armMatch, ?read, ?readWaits, ?timeout⟩
  case fire =>
    intro w s hmay hfired hgo hen
    exact (onBar_may hmay).trans (congrArg _ ((if_pos hgo).trans (fire_enabled hfired hen)))
  case fireDisabled =>
    intro w s hmay hgo hen
    exact (onBar_may hmay).trans (congrArg _ ((if_pos hgo).trans (fire_disabled hen)))
  case edge =>
    intro up s hl hfired hpol hen
    exact onHost_gives hl ((if_pos (by cases up <;> simp [hpol])).trans (fire_enabled hfired hen))
  case reached =>
    rintro s u hl harm hdue hcycle hwaits hen rfl
    change execSnpMatchReached s = _
    exact onHost_gives hl ((if_neg (by simp [harm, hdue])).trans (timedCarry_match harm hcycle hwaits hen))
  case stack =>
    intro s u c hl hwaits hdue hcycle harm hen hu
    change execStackCarryTime s = _
    refine onHost_gives hl ?_
    have hfirst : s.snap.scheduled.find? (fun c => decide (c.1 ≤ now s)) = some c := by simp [hwaits, hdue]
    simp only [hfirst, timedCarry_stack hwaits hcycle harm hen hu]
  case reachedBoundary =>
    intro s hl hcycle
    change execSnpMatchReached s = _
    refine onHost_gives hl ?_
    rw [timedCarry, if_pos hcycle, ite_self]
  case arm =>
    intro w s hmay harm hahead
    exact (onBar_may hmay).trans (congrArg _ ((if_neg (by omega)).trans (if_neg (by omega))))
  case armPassed =>
    intro w s hmay harm hpassed
    exact (onBar_may hmay).trans (congrArg _ ((if_neg (by omega)).trans (if_pos hpassed)))
  case release =>
    intro w s u b hmay hu hheld hlatest
    exact (onBar_may hmay).trans (congrArg _ (hostSnpHoldWrite_released hu hheld hlatest))
  case outEnd =>
    intro s hl hhigh hover
    exact onHost_gives hl (if_pos (by rw [hhigh, hover]; rfl))
  case armNow =>
    rintro d bs s u t h hkind rfl hen hfired rfl
    refine (onDesc_ready h).trans (congrArg _ ?_)
    have hcarries : carryEnabled (markAccepted s d) csReg = true := hen
    simp only [hkind, hcarries, fire_enabled hfired hcarries]
    rfl
  case armMatch =>
    rintro d bs s u h hkind hns harm rfl hahead
    refine (onDesc_ready h).trans (congrArg _ ?_)
    simp only [hkind]
    rw [if_neg (by omega), if_neg (ne_true_of_eq_false harm), if_neg (by omega)]
  case read =>
    intro d bs out s h hfields hout hfits
    have hhere : ∀ e ∈ [(8, Die.a), (9, Die.b)], sectionAwaited s bs e.1 e.2 = false := by
      intro e he
      have hlt : e.1 < 10 := by revert e; decide
      rw [← Bool.not_eq_true, sectionAwaited_iff hlt]
      rintro ⟨hasked, hvalid, hready, hinvalid⟩
      simpa [hready, hinvalid] using hfields e he hasked hvalid
    rw [snapshotRead_ready h hout, hhere (8, .a) (by simp), hhere (9, .b) (by simp), if_neg (by simp),
      if_neg (Nat.not_lt.mpr hfits)]
  case readWaits =>
    intro d bs s k x h hmem hasked hvalid hready hinvalid
    have hwaits (hlt : k < 10) : sectionAwaited s bs k x = true :=
      (sectionAwaited_iff hlt).mpr ⟨hasked, hvalid, hready, hinvalid⟩
    rw [snapshotRead_ready h rfl, if_pos]
    simp only [List.mem_cons, Prod.mk.injEq, List.not_mem_nil, or_false] at hmem
    obtain ⟨rfl, rfl⟩ | ⟨rfl, rfl⟩ := hmem <;> simp [hwaits]
  case timeout =>
    intro x s hl
    change execFieldSectionTimeout x s = _
    exact onHost_live hl

end Sys2Proof.Machine

/-! PROOFS. Tallies: their descriptors, and their times within the block (R247 to R260, R267, R270, R482). -/

namespace Sys2Proof.Machine
open Sys2Proof Sys2Proof.Safety

section Descriptors
variable {s : State} {d : DescRef} {op : Nat} {bs : List Byte} {f : State → List Byte → Nat → State}

/-- While the tally engine is fenced every tally descriptor completes with that (R482). -/
theorem onTally_fenced (h : ready s d op bs) (hf : tallyFenced (markAccepted s d) = true) :
    onTally s d op f = .next (finish (markAccepted s d) d stTargetFenced 0) := by
  rw [onTally_ready h, if_pos hf]

/-- Without a fence a tally descriptor acts on the tally it names. -/
theorem onTally_unfenced {u v : State} (h : ready s d op bs) (hu : u = markAccepted s d) (hf : tallyFenced u = false)
    (hv : f u bs (par bs 8 0 4) = v) : onTally s d op f = .next v := by
  rw [onTally_ready h, ← hu, if_neg (ne_true_of_eq_false hf), hv]

end Descriptors

/-- Settles O30: the fence answers first, then each descriptor takes the branch that its tally's state chooses. -/
theorem tallyDescriptorsComplete : Obligations.TallyDescriptorsComplete := by
  unfold Obligations.TallyDescriptorsComplete
  refine ⟨?opens, ?openBusy, ?openFenced, ?writeFenced, ?commitFenced, ?abortFenced, ?write, ?commit, ?abort⟩
  case opens =>
    rintro d bs id s u h hu hf rfl hfree
    change execTallyOpen d s = _
    exact onTally_unfenced h hu hf (if_neg (not_not_intro hfree))
  case openBusy =>
    rintro d bs id s u h hu hf rfl hused
    change execTallyOpen d s = _
    exact onTally_unfenced h hu hf (if_pos hused)
  case openFenced =>
    intro d bs s h hf
    change execTallyOpen d s = _
    exact onTally_fenced h hf
  case writeFenced =>
    intro d bs recs s h hf
    change execTallyWrite d recs s = _
    exact onTally_fenced h hf
  case commitFenced =>
    intro d bs s h hf
    change execTallyCommit d s = _
    exact onTally_fenced h hf
  case abortFenced =>
    intro d bs s h hf
    change execTallyAbort d s = _
    exact onTally_fenced h hf
  case write =>
    rintro d bs recs id s u h hu hf rfl hopen hlen hpresent
    change execTallyWrite d (some recs) s = _
    refine onTally_unfenced h hu hf ((if_neg (not_not_intro hopen)).trans ?_)
    simp only [withInput, bytesAt_all hlen]
    exact if_neg (ne_true_of_eq_false hpresent)
  case commit =>
    rintro d bs id stack s u h hu hf rfl hopen htime rfl
    change execTallyCommit d s = _
    refine onTally_unfenced h hu hf (if_neg ?_)
    rintro (hclosed | ⟨hmode, hns⟩)
    · exact hclosed hopen
    · exact absurd (htime hmode) (Nat.not_le.mpr hns)
  case abort =>
    rintro d bs id s u h hu hf rfl hst hnone
    change execTallyAbort d s = _
    have hmay : tyState u (par bs 8 0 4) = 1 ∨ tyState u (par bs 8 0 4) = 3 := hst.imp_right And.left
    refine onTally_unfenced h hu hf ((if_neg ?_).trans (if_neg ?_))
    · simp only [tyFree, tyInDoubt, tyAccepted, hnone]
      rcases hst with hst | ⟨hst, hundecided, hown⟩
      · simp [hst]
      · simp [hst, hundecided, hown]
    · simp only [tyPrepared]
      omega

/-- Settles O31: each command is one branch of its meaning on a live device. -/
theorem tallyTimesComplete : Obligations.TallyTimesComplete := by
  unfold Obligations.TallyTimesComplete
  refine ⟨?decision, ?query, ?frames, ?blocked⟩
  case decision =>
    rintro bad s u v hl rfl rfl
    change execDecisionPoint bad s = _
    exact onHost_live hl
  case query =>
    intro id s hl hdoubt hlong
    change execInDoubtQuery id s = _
    exact onHost_gives hl (if_pos ⟨hdoubt, hlong⟩)
  case frames =>
    intro s hl hnone
    change execExportWindowEnd s = _
    exact onHost_gives hl (if_neg (ne_true_of_eq_false hnone))
  case blocked =>
    intro s hl hsome
    change execExportWindowEnd s = _
    exact onHost_gives hl (if_pos hsome)

end Sys2Proof.Machine

/-! PROOFS. CMD messages at a field die (R331, R344, R369, R375, R403, R412, R414). -/

namespace Sys2Proof.Machine
open Sys2Proof Sys2Proof.Safety

section Commands
variable {s u v : State} {d : Die} {m : CmdCopy} {c : Nat}

/-- A CMD that the die has not acted on before: its effect and its result, by what its meaning gives (R331). -/
theorem onCmd_gives {code r : Nat} {f : State → State × Nat} (h : heardCmd s d m code)
    (hu : u = afterDown s d m.words) (hf : f u = (v, r)) :
    onCmd s d code m f = .next (settleDie s (answered v d m r) d) := by
  rw [onCmd_heard h, ← hu, hf]

/-- The waiting writes of a raw pair once one has come: both become due with equal generations, else the new one waits
(R375). -/
def rawPaired (x : FieldChan) (duty : Bool) (per dut : Option Word) (tick : Nat) : FieldChan :=
  let gen (o : Option Word) : Option Nat := o.map (fldGet F.PWM_CH_RAW_PER_GEN)
  if per.isSome && gen per == gen dut then
    { x with pendPer := none, pendDuty := none, duePer := per, dueDuty := dut, dueLone := false,
             dueNext := decide (x.per ≤ tick + 4) }
  else if duty then { x with pendDuty := dut, ageDuty := 0 }
  else { x with pendPer := per, agePer := 0 }

theorem rawPaired_equal {x : FieldChan} {duty : Bool} {per dut : Option Word} {tick : Nat}
    (h : ∃ p q, per = some p ∧ dut = some q ∧ fldGet F.PWM_CH_RAW_PER_GEN p = fldGet F.PWM_CH_RAW_DUTY_GEN q) :
    rawPaired x duty per dut tick = { x with pendPer := none, pendDuty := none, duePer := per, dueDuty := dut,
                                             dueLone := false, dueNext := decide (x.per ≤ tick + 4) } := by
  obtain ⟨p, q, rfl, rfl, hgen⟩ := h
  exact if_pos (by simp [hgen])

theorem rawPaired_unequal {x : FieldChan} {duty : Bool} {per dut : Option Word} {tick : Nat}
    (h : ∀ p q, per = some p → dut = some q → fldGet F.PWM_CH_RAW_PER_GEN p ≠ fldGet F.PWM_CH_RAW_DUTY_GEN q) :
    rawPaired x duty per dut tick =
      if duty = true then { x with pendDuty := dut, ageDuty := 0 } else { x with pendPer := per, agePer := 0 } := by
  refine if_neg ?_
  cases per with
  | none => simp
  | some p =>
    cases dut with
    | none => simp
    | some q => simpa using h p q rfl rfl

/-- A RAW_WRITE in its range, of a channel in RAW or DISABLED, joins what waits for its pair (R375). -/
theorem rawWrite_takes {t a : Nat} {duty : Bool} {w : Word} {row : RegRow} {per dut : Option Word}
    (h : heardCmd s d m 0x101) (hu : u = afterDown s d m.words) (hc : c = bitsOf (msgW m.words 0) 0 5)
    (hduty : bitOf (msgW m.words 0) 5 = duty)
    (ha : a = if duty = true then Reg.PWM_CH_RAW_DUTY c else Reg.PWM_CH_RAW_PER c) (hrow : fieldRow a = some row)
    (hw : w = recWordOf row 0 (BitVec.allOnes 32) (BitVec.ofNat 32 (bitsOf (msgW m.words 0) 32 32)))
    (hrange : rangeOk u d a w = true) (hst : pwState u d c = pwRaw ∨ pwState u d c = pwDisabled)
    (hper : per = if duty = true then (fch u d c).pendPer else some w)
    (hdut : dut = if duty = true then some w else (fch u d c).pendDuty) :
    exec (.rawWrite d ⟨m, t⟩) s = .next (settleDie s (answered
      (showPend (setFch u d c (rawPaired (fch u d c) duty per dut t)) d c) d m akAccepted) d) := by
  have hword : (match fieldRow a with
      | none => 0
      | some row => recWordOf row 0 (BitVec.allOnes 32) (BitVec.ofNat 32 (bitsOf (msgW m.words 0) 32 32))) = w := by
    rw [hrow, hw]
  subst hc hduty ha hper hdut hword
  change execRawWrite d ⟨m, t⟩ s = _
  refine onCmd_gives h hu ((if_neg ?_).trans (if_neg ?_))
  · exact ne_true_of_eq_false (congrArg Bool.not hrange)
  · rintro ⟨hraw, hdisabled⟩
    exact hst.elim hraw hdisabled

/-- A SEAL_TIGHTEN that no limit of its register refuses, of a sealed die, moves the seal and the working value
(R344). -/
theorem sealTighten_moves {a : Nat} {w : Word} (h : heardCmd s d m 7) (hu : u = afterDown s d m.words)
    (ha : a = bitsOf (msgW m.words 0) 0 16) (hw : w = BitVec.ofNat 32 (bitsOf (msgW m.words 0) 32 32))
    (hsome : (limitsOf a).isEmpty = false)
    (hin : ∀ l ∈ limitsOf a, pastTight l w = false ∧ looser l w (sealOf u d a) = false)
    (hsealed : fon u d Reg.FLD_STAT F.FLD_STAT_SEALED = true)
    (hv : v = setSeal u d a (copyLimits (limitsOf a) w (sealOf u d a))) :
    exec (.sealTighten d m) s = .next (settleDie s (answered (fwr v d a
      (copyLimits ((limitsOf a).filter (fun l => looser l (frd v d a) w)) w (frd v d a))) d m akAccepted) d) := by
  have htight : (limitsOf a).any (fun l => pastTight l w) = false :=
    List.any_eq_false.mpr fun l hl => ne_true_of_eq_false (hin l hl).1
  have hloose : (limitsOf a).any (fun l => looser l w (sealOf u d a)) = false :=
    List.any_eq_false.mpr fun l hl => ne_true_of_eq_false (hin l hl).2
  subst ha hw hv
  change execSealTighten d m s = _
  refine onCmd_gives h hu ((if_neg ?_).trans ((if_neg ?_).trans ((if_neg ?_).trans (if_neg ?_))))
  · exact ne_true_of_eq_false hsome
  · exact ne_true_of_eq_false htight
  · exact ne_true_of_eq_false hloose
  · exact ne_true_of_eq_false (congrArg Bool.not hsealed)

/-- A DIAG_SWEEP of channels that all may sweep, with no sweep in progress and no twin role, starts (R412). -/
theorem diagSweep_starts {cs : List Nat} {run : Nat} {w : State} (h : heardCmd s d m 0x200)
    (hu : u = afterDown s d m.words) (hcs : cs = maskChans (msgW m.words 0))
    (hrun : run = bitsOf (msgW m.words 0) 32 16) (hsome : cs.isEmpty = false) (hidle : (dieAt u d).sweep = none)
    (hfit : ∀ c ∈ cs, fon u d (Reg.PWM_CH_STAT c) F.PWM_CH_STAT_GATES_ON = true ∧
      (fcState u d c = fcOwn ∨ fcState u d c = fcTwin))
    (hrole : fon u d Reg.FLD_TWIN_CTRL F.FLD_TWIN_CTRL_ROLE = false)
    (hv : v = setDie u d { dieAt u d with sweep := some ⟨run, 0, 0, true, 0, 0, false⟩ })
    (hw : w = forEach cs v (fun v c => setFch v d c { fch v d c with
      sweep := some ⟨0, [], demodZero, none, false⟩ })) :
    exec (.diagSweep d m) s = .next (settleDie s (answered (fput (fput (fbit w d Reg.DIAG_STAT F.DIAG_STAT_SWEEP_BUSY
      true) d Reg.DIAG_STAT F.DIAG_STAT_POINT 0) d Reg.DIAG_STAT F.DIAG_STAT_RUN run) d m akAccepted) d) := by
  have hall : cs.all (fun c => fon u d (Reg.PWM_CH_STAT c) F.PWM_CH_STAT_GATES_ON &&
      (fcState u d c == fcOwn || fcState u d c == fcTwin)) = true :=
    List.all_eq_true.mpr fun c hc => by simpa using hfit c hc
  subst hcs hrun hw hv
  change execDiagSweep d m s = _
  refine onCmd_gives h hu ((if_neg (ne_true_of_eq_false hsome)).trans (if_neg ?_))
  simp only [hidle, hall, hrole]
  decide

/-- What PROT_CLEAR does to one channel: it clears those of its three latches that the message names (R403,
R414). -/
def clearLatches (d : Die) (short dcOut dcStream : Bool) : State → Nat → State := fun s c =>
  let s := if short && fon s d (Reg.PRT_CH_STAT c) F.PRT_CH_STAT_CH_SHORT then
      setFch s d c { fch s d c with dueHost := true } else s
  let s := if dcOut && fon s d (Reg.PRT_CH_STAT c) F.PRT_CH_STAT_DC_OUT then
      setFch (fbit s d (Reg.PRT_CH_STAT c) F.PRT_CH_STAT_DC_OUT false) d c { fch s d c with dcOutRun := 0 } else s
  if dcStream && fon s d (Reg.PRT_CH_STAT c) F.PRT_CH_STAT_DC_STREAM then
    setFch (fbit s d (Reg.PRT_CH_STAT c) F.PRT_CH_STAT_DC_STREAM false) d c { fch s d c with dcStrRun := 0 } else s

/-- Bits 32 to 34 of a PROT_CLEAR name the latches. -/
theorem bitOf_latches {w n k : Nat} (h : bitsOf w 32 3 = n) (hk : k < 3) : bitOf w (32 + k) = n.testBit k := by
  rw [← h, bitOf, bitsOf, Nat.testBit_mod_two_pow, Nat.testBit_shiftRight]
  simp [hk]

theorem testBit_latches : ∀ x y z : Bool, (b2n x + 2 * b2n y + 4 * b2n z).testBit 0 = x ∧
    (b2n x + 2 * b2n y + 4 * b2n z).testBit 1 = y ∧ (b2n x + 2 * b2n y + 4 * b2n z).testBit 2 = z := by
  decide

/-- A PROT_CLEAR that names a channel clears the latches it names of each. -/
theorem protClear_clears (short dcOut dcStream : Bool) (h : heardCmd s d m 0x202) (hu : u = afterDown s d m.words)
    (hn : bitsOf (msgW m.words 0) 32 3 = b2n short + 2 * b2n dcOut + 4 * b2n dcStream)
    (hsome : bitsOf (msgW m.words 0) 0 32 ≠ 0) :
    exec (.protClear d m) s = .next (settleDie s (answered (forEach (maskChans (bitsOf (msgW m.words 0) 0 32)) u
      (clearLatches d short dcOut dcStream)) d m akAccepted) d) := by
  obtain ⟨h0, h1, h2⟩ := testBit_latches short dcOut dcStream
  have hshort : bitOf (msgW m.words 0) 32 = short := (bitOf_latches hn (k := 0) (by decide)).trans h0
  have hdcOut : bitOf (msgW m.words 0) 33 = dcOut := (bitOf_latches hn (k := 1) (by decide)).trans h1
  have hdcStream : bitOf (msgW m.words 0) 34 = dcStream := (bitOf_latches hn (k := 2) (by decide)).trans h2
  rw [← hshort, ← hdcOut, ← hdcStream]
  change execProtClear d m s = _
  exact onCmd_gives h hu (if_neg hsome)

/-- The result of a TRIP_CLEAR is a refusal where a trip of a named channel is still active (R369). -/
theorem tripClear_result (l : List Nat) (p : Nat → Bool) :
    (if (l.filter p).isEmpty = true then akAccepted else akState) = if l.any p = true then akState else akAccepted := by
  have hempty : (l.filter p).isEmpty = !l.any p := by
    rw [Bool.eq_iff_iff]
    simp
  rw [hempty]
  cases l.any p <;> rfl

/-- Each CMD but READ, sent again after the die acted on it, is only answered again (R331). -/
theorem cmd_repeated {t r : Nat} {x : Nat × Instr} (hu : u = afterDown s d m.words)
    (hx : x ∈ [(1, Instr.cmdTallyCommit d m), (2, .tallyDiscard d m), (3, .cmdCarry d m), (4, .forceSafe d m),
      (5, .release d m), (7, .sealTighten d m), (0x100, .tripClear d m), (0x101, .rawWrite d ⟨m, t⟩),
      (0x102, .pwmCntClr d m), (0x200, .diagSweep d m), (0x201, .diagAbort d m), (0x202, .protClear d m),
      (0x203, .zrefCapture d m)])
    (hr : repeatOf u d m = some r) (h : heardDown s d m.words (isCmd x.1)) :
    exec x.2 s = .next (settleDie s (answered u d m r) d) := by
  subst hu
  simp only [List.mem_cons, List.not_mem_nil, or_false] at hx
  rcases hx with rfl | rfl | rfl | rfl | rfl | rfl | rfl | rfl | rfl | rfl | rfl | rfl | rfl
  · exact show execCmdTallyCommit d m s = _ from onCmd_repeated h hr
  · exact show execTallyDiscard d m s = _ from onCmd_repeated h hr
  · exact show execCmdCarry d m s = _ from onCmd_repeated h hr
  · exact show execForceSafe d m s = _ from onCmd_repeated h hr
  · exact show execRelease d m s = _ from onCmd_repeated h hr
  · exact show execSealTighten d m s = _ from onCmd_repeated h hr
  · change execTripClear d m s = _
    rw [execTripClear]
    exact onCmd_repeated h hr
  · exact show execRawWrite d ⟨m, t⟩ s = _ from onCmd_repeated h hr
  · exact show execPwmCntClr d m s = _ from onCmd_repeated h hr
  · exact show execDiagSweep d m s = _ from onCmd_repeated h hr
  · exact show execDiagAbort d m s = _ from onCmd_repeated h hr
  · exact show execProtClear d m s = _ from onCmd_repeated h hr
  · exact show execZrefCapture d m s = _ from onCmd_repeated h hr

end Commands

/-- Settles O39: each CMD that is new to the die takes the branch its hypotheses choose, and one sent again none. -/
theorem fieldCommandsComplete : Obligations.FieldCommandsComplete := by
  unfold Obligations.FieldCommandsComplete
  refine ⟨?commit, ?discard, ?carry, ?forceSafe, ?release, ?read, ?tighten, ?tripClear, ?rawWrite, ?cntClr, ?sweep,
    ?abort, ?clearDcOut, ?clearDcStream, ?clearShort, ?zref, ?again⟩
  case commit =>
    intro d m s u h hu hid
    change execCmdTallyCommit d m s = _
    exact onCmd_gives h hu (if_neg (Nat.not_lt.mpr hid))
  case discard =>
    intro d m s u h hu hid
    change execTallyDiscard d m s = _
    exact onCmd_gives h hu (if_neg (Nat.not_lt.mpr hid))
  case carry =>
    intro d m s u h hu hnew hunlatched
    change execCmdCarry d m s = _
    exact onCmd_gives h hu (if_neg (by rw [hnew, hunlatched]; decide))
  case forceSafe =>
    intro d m s u h hu
    change (_ → execForceSafe d m s = _) ∧ (_ → execForceSafe d m s = _)
    exact ⟨fun hunsealed => onCmd_gives h hu (if_pos hunsealed), fun hsealed => onCmd_gives h hu (if_neg hsealed)⟩
  case release =>
    rintro d m s u v h hu rfl
    change execRelease d m s = _
    exact onCmd_gives h hu rfl
  case read =>
    rintro d m s u a h hu rfl hrow
    change execCmdRead d m s = _
    exact onCmd_gives h hu (if_neg (by simp [Option.isSome_iff_ne_none.mp hrow]))
  case tighten =>
    intro d m s u v a w h hu ha hw hsome hin hsealed hv
    exact sealTighten_moves h hu ha hw hsome hin hsealed hv
  case tripClear =>
    rintro d m s u l h hu rfl
    change execTripClear d m s = _
    rw [execTripClear]
    exact onCmd_gives h hu (congrArg (Prod.mk _) (tripClear_result _ _))
  case rawWrite =>
    rintro d m t a c duty s u w row x y per dut h hu hc hduty ha hrow hw hrange hst rfl hper hdut
    rw [rawWrite_takes h hu hc hduty ha hrow hw hrange hst hper hdut]
    constructor
    · rintro hequal rfl
      rw [rawPaired_equal hequal]
    · rintro hunequal rfl
      rw [rawPaired_unequal hunequal]
  case cntClr =>
    intro d m s h
    change execPwmCntClr d m s = _
    exact onCmd_gives h rfl rfl
  case sweep =>
    intro d m s u v w h hu hsome hidle hfit hrole hv hw
    exact diagSweep_starts h hu rfl rfl hsome hidle hfit hrole hv hw
  case abort =>
    intro d m s h
    change execDiagAbort d m s = _
    exact onCmd_gives h rfl rfl
  case clearDcOut =>
    intro d m s u h hu hlatch hsome
    rw [protClear_clears false true false h hu hlatch hsome]
    rfl
  case clearDcStream =>
    intro d m s u h hu hlatch hsome
    rw [protClear_clears false false true h hu hlatch hsome]
    rfl
  case clearShort =>
    intro d m s u h hu hlatch hsome
    rw [protClear_clears true false false h hu hlatch hsome]
    rfl
  case zref =>
    intro d m s u c z h hu hone hz
    change execZrefCapture d m s = _
    refine onCmd_gives h hu ((if_neg (by simp [hone])).trans ?_)
    simp only [hone, hz, forEach, List.foldl_cons, List.foldl_nil, List.all_cons, List.all_nil,
      Option.isSome_some, Bool.and_true, if_true]
  case again =>
    intro d m t r s u x hu hx hr h
    exact cmd_repeated hu hx hr h

end Sys2Proof.Machine

/-! PROOFS. Votes, decisions and the other messages of stack tallies (R265 to R271, R277, R470). -/

namespace Sys2Proof.Machine
open Sys2Proof Sys2Proof.Safety

/-- The answer of a stack message that this member takes, by the state that its meaning makes. -/
theorem onStack_gives {s u : State} {l type : Nat} {ws : List Nat} {f : State → State} (h : heardStack s l ws type)
    (hf : f (afterStack s l ws) = u) : onStack s l ws type f = .next u := by
  rw [onStack_heard h, hf]

/-- An answer to a part's own query ends its wait, and settles the part where the answer knows (R267). -/
theorem answer_own {s u v : State} {l : Fin 4} {ws : List Nat} (h : heardStack s l ws smAnswer)
    (hu : u = afterStack s l ws)
    (hown : u.stk.inquiries.filter (fun q => q.xid == smW ws 0 % 2 ^ 32 && bitOf q.waiting (smSrc ws)) = [])
    (hv : v = { u with stk := { u.stk with waits := u.stk.waits.filter (fun w =>
      !(w.type == smQuery && w.xid == smW ws 0 % 2 ^ 32 && w.dst == smSrc ws)) } }) :
    exec (.answer l ws) s = .next (if bitOf (smW ws 1) 1 = true then v
      else decidePart (noteDecision v ⟨smW ws 0 % 2 ^ 32, bitOf (smW ws 1) 0, partBoundary v (smW ws 0 % 2 ^ 32)⟩)
        (smW ws 0 % 2 ^ 32) (bitOf (smW ws 1) 0)) := by
  change execAnswer l ws s = _
  refine onStack_gives h ?_
  simp only [← hu, hown, setStk, ← hv]
  exact if_neg (by decide)

/-- Settles O50: each message that this member takes has the effect of its kind, in the branch its hypotheses choose. -/
theorem stackTalliesComplete : Obligations.StackTalliesComplete := by
  unfold Obligations.StackTalliesComplete
  refine ⟨?vote, ?log, ?logAck, ?decision, ?queryMaster, ?queryMember, ?answer, ?carry, ?split, ?start⟩
  case vote =>
    rintro l ws s u v h hu hmaster hopen rfl
    change execVote l ws s = _
    refine onStack_gives h ?_
    simp only [← hu, hmaster, hopen, Bool.not_true, Bool.false_eq_true, if_false]
    rfl
  case log =>
    intro l ws s h
    change execDecisionLog l ws s = _
    exact onStack_heard h
  case logAck =>
    intro l ws d s h hlogged
    change execLogAck l ws s = _
    refine onStack_gives h ?_
    simp only [hlogged]
  case decision =>
    intro l ws s h
    change execDecision l ws s = _
    exact onStack_heard h
  case queryMaster =>
    intro l ws s h hmember hmaster
    change execQuery l ws s = _
    exact onStack_gives h ((if_neg (ne_true_of_eq_false hmember)).trans (if_pos hmaster))
  case queryMember =>
    rintro l ws s u x h rfl hmember rfl
    change execQuery l ws s = _
    exact onStack_gives h (if_pos hmember)
  case answer =>
    intro l ws s u v h hu hown hv
    rw [answer_own h hu hown hv]
    exact ⟨fun hunknown => by rw [if_pos hunknown], fun hknows => by rw [if_neg (ne_true_of_eq_false hknows)]⟩
  case carry =>
    rintro l ws s u x h rfl rfl hahead
    change execCarrySched l ws s = _
    exact onStack_gives h (if_neg (Int.not_lt.mpr hahead))
  case split =>
    intro l ws s h
    change execSplitReport l ws s = _
    exact onStack_heard h
  case start =>
    intro l ws s h hauto
    change execStackStart l ws s = _
    exact onStack_gives h (if_pos hauto)

end Sys2Proof.Machine

/-! PROOFS. The network ports: their links and counters, the frames they receive, PAUSE, the time servo without a slave
port, and the frames they send (R283 to R303, R320, R324). -/

namespace Sys2Proof.Machine
open Sys2Proof Sys2Proof.Safety

/-! ## Links and counters -/

/-- A command on the host die that finds nothing to do leaves the state as it is, live or not (log entry 3). -/
theorem onHost_unchanged {s : State} {f : State → State} (h : f s = s) : onHost s f = .next s := by
  rw [onHost, h, ite_self]

/-- What a map reads once only the entries that pass a test are kept. -/
theorem mapGet_keep {α} [DecidableEq α] {d : Nat → α} {keep : Nat → Bool} {k : Nat} :
    ∀ {m : SMap α} {lo : Nat}, mapWfFrom d lo m = true →
      mapGet d (mapKeep keep m) k = if keep k = true then mapGet d m k else d k
  | [], _, _ => (ite_self _).symm
  | (j, v) :: m, lo, h => by
    simp only [mapWfFrom, Bool.and_eq_true] at h
    have ih := mapGet_keep (keep := keep) (k := k) h.2
    by_cases hj : keep j = true
    · have hkept : mapKeep keep ((j, v) :: m) = (j, v) :: mapKeep keep m := by simp [mapKeep, hj]
      rw [hkept, mapGet, ih, mapGet]
      grind
    · have hgone : mapKeep keep ((j, v) :: m) = mapKeep keep m := by simp [mapKeep, hj]
      rw [hgone, ih, mapGet]
      have hbelow : k < j → mapGet d m k = d k := fun hlt => mapGet_below h.2 (by omega)
      grind

/-- A range of registers that is reset reads its reset values, and no other register changes. -/
theorem rd_resetRange {s : State} {lo hi a : Nat} (h : mapWf hostReset s.regs = true) :
    rd (resetRange s lo hi) a = if lo ≤ a ∧ a < hi then hostReset a else rd s a := by
  rw [rd, resetRange, mapGet_keep h]
  simp only [rd, Bool.or_eq_true, decide_eq_true_eq]
  grind

/-- Settles O32: each command is one branch of its meaning; the clear resets the range of the port's counters. -/
theorem networkLinksComplete : Obligations.NetworkLinksComplete := by
  unfold Obligations.NetworkLinksComplete
  refine ⟨?write, ?refused, ?up, ?down, ?brief, ?clear⟩
  case write =>
    rintro p w s u hmay rfl hfits
    exact (onBar_may hmay).trans (congrArg _ (if_neg (ne_true_of_eq_false hfits)))
  case refused =>
    rintro p w s u hmay rfl hexceeds
    exact (onBar_may hmay).trans (congrArg _ (if_pos hexceeds))
  case up =>
    intro p s hl hlink hfence hmode hreset
    change execNetLinkUp p s = _
    exact onHost_gives hl (if_neg (by simp [hlink, hfence, hmode, hreset]))
  case down =>
    rintro p us s u hl hlink hlong rfl
    change execNetLinkDown ⟨p, us⟩ s = _
    exact onHost_gives hl ((if_neg (Nat.not_lt.mpr hlong)).trans (if_pos hlink))
  case brief =>
    intro p us s hbrief
    change execNetLinkDown ⟨p, us⟩ s = _
    exact onHost_unchanged (if_pos hbrief)
  case clear =>
    intro p w s hmay hgo hwf
    have hgo : fldGet F.NET_CNT_CLR_GO w = 1 := by simpa [fldGet] using hgo
    exact ⟨_, (onBar_may hmay).trans (congrArg _ (if_pos hgo)), rfl, fun a => rd_resetRange hwf⟩

/-! ## Reception and PAUSE -/

/-- Accepting a descriptor writes its queue pair and the turns alone (R433, R434). -/
theorem markAccepted_parts (s : State) (d : DescRef) :
    ∃ qps turns, markAccepted s d = { s with qps := qps, turns := turns } := by
  unfold markAccepted takeTurn
  split
  · exact ⟨_, _, rfl⟩
  · exact ⟨_, _, rfl⟩

theorem markAccepted_posted (s : State) (d : DescRef) : (markAccepted s d).posted = s.posted := by
  obtain ⟨_, _, h⟩ := markAccepted_parts s d
  rw [h]

/-- The codewords that a frame without an uncorrectable one adds to the counters (Table 08-10). -/
theorem fecCounts_corrected {s : State} {p corr c : Nat} {bs : List Byte} {ok lost : Bool}
    (hc : c = if rget s (Reg.NET_CTRL p) F.NET_CTRL_MODE = 3 ∧ (rget s (Reg.NET_CTRL p) F.NET_CTRL_FEC = 1 ∨
      rget s (Reg.NET_CTRL p) F.NET_CTRL_FEC = 2) then corr else 0) :
    fecCounts s p ⟨bs, ok, corr, 0, lost⟩ = (c, 0) := by
  rw [fecCounts, hc]
  split
  · rfl
  · rfl

/-- A port may always be disabled (Table 08-10). -/
theorem ptpStateOk_zero (s : State) (p : Nat) : ptpStateOk s p 0 = true := by
  unfold ptpStateOk
  split
  · rfl
  · rfl

/-- A loop whose every round writes registers alone writes registers alone. -/
theorem forEach_regs {α : Type} {f : State → α → State} (hf : ∀ u x, ∃ regs, f u x = { u with regs := regs }) :
    ∀ (l : List α) (s : State), ∃ regs, forEach l s f = { s with regs := regs }
  | [], s => ⟨s.regs, rfl⟩
  | x :: l, s => by
    obtain ⟨_, hx⟩ := hf s x
    obtain ⟨regs, hl⟩ := forEach_regs hf l (f s x)
    exact ⟨regs, hl.trans (by rw [hx])⟩

/-- The registers that an update of the servo writes whatever its ports are: the grandmaster's identity, and the state
and the delay of each port (R303). -/
def servoRegisters (s : State) (u : ServoReport) : State :=
  let s := rput s Reg.NET_PTP_GM_LO F.NET_PTP_GM_LO_GM_LO u.grandmaster
  let s := rput s Reg.NET_PTP_GM_HI F.NET_PTP_GM_HI_GM_HI (u.grandmaster / 2 ^ 32)
  forEach (List.range 8) s (fun s p =>
    let s := rput s (Reg.NET_PTP_PORT p) F.NET_PTP_PORT_STATE (reportedState u p)
    rput s (Reg.NET_PTP_PDLY p) F.NET_PTP_PDLY_DELAY (u.delays.getD p 0))

theorem servoRegisters_regs (s : State) (u : ServoReport) : ∃ regs, servoRegisters s u = { s with regs := regs } := by
  obtain ⟨regs, h⟩ := forEach_regs (fun v p => ⟨_, rfl⟩) (List.range 8) _
  exact ⟨regs, h⟩

theorem servoRegisters_wf {s : State} {u : ServoReport} (h : Memory.wf s = true) :
    Memory.wf (servoRegisters s u) = true := by
  rw [← keep_mem] at h ⊢
  exact wf_forEach (fun v p hv => rput_wf (rput_wf hv)) (rput_wf (rput_wf h))

/-- An update of the servo that leaves every port disabled has no slave port to report (R303). -/
theorem servoUpdate_disabled {u : ServoReport} {s : State} (hl : live s = true) (hserved : ptpServed s = true)
    (hruns : s.boot.restarting = false) (hstates : u.states = []) :
    exec (.servoUpdate u) s = .next (wr (servoRegisters s u) Reg.NET_PTP_SLV 0) := by
  have hzero (p : Nat) : reportedState u p = 0 := by simp [reportedState, hstates]
  have hslave : (List.range 8).find? (fun p => reportedState u p == 3) = none := by simp [hzero]
  have hok : (List.range 8).all (fun p => ptpStateOk s p (reportedState u p)) = true := by
    simp [hzero, ptpStateOk_zero]
  change execServoUpdate u s = _
  refine onHost_gives hl ((if_neg (by simp [hserved, hruns, hok])).trans ?_)
  simp only [hslave]
  rfl

/-- Settles O33: a received frame passes or fails its checks in turn; a servo's update writes registers alone,
NET_PTP_SLV last. -/
theorem networkReceptionComplete : Obligations.NetworkReceptionComplete := by
  unfold Obligations.NetworkReceptionComplete
  refine ⟨?wrongFcs, ?received, ?expiry, ?watchdog, ?post, ?servo, ?state, ?restart⟩
  case wrongFcs =>
    intro p bs s hl hon hlink hfence
    change execFrameReceive p _ s = _
    refine onHost_gives hl ((if_neg (by simp [hon, hlink, hfence])).trans ?_)
    simp only [fecCounts_corrected (ite_self 0).symm]
    rfl
  case received =>
    rintro p bs corr c s u hl hon hlink hfence hc rfl hshort hlong
    change execFrameReceive p _ s = _
    refine onHost_gives hl ((if_neg (by simp [hon, hlink, hfence])).trans ?_)
    simp only [fecCounts_corrected hc]
    have hlength : ¬(bs.length + 4 < 64 ∨ _ < bs.length + 4) := not_or_intro (by omega) (Nat.not_lt.mpr hlong)
    exact (if_neg (by decide)).trans ((if_neg hlength).trans (if_neg (by decide)))
  case expiry =>
    intro p c s hl hfrom hover
    change execPauseExpiry p s = _
    refine onHost_gives hl ?_
    simp only [hfrom]
    exact if_pos hover
  case watchdog =>
    rintro p c s u hl hat hover rfl
    change execPauseWatchdog p s = _
    refine onHost_gives hl ?_
    simp only [hat]
    exact if_pos (decide_eq_true hover)
  case post =>
    intro d bs s h hopen
    change execNetRxPost d s = _
    rw [execNetRxPost, onDesc_ready h, if_neg ?fenced, markAccepted_posted]
    case fenced =>
      simp only [Bool.and_eq_true, Bool.not_eq_true', List.isEmpty_eq_false_iff_exists_mem, List.all_eq_true]
      rintro ⟨⟨p, hp⟩, hall⟩
      have hlt : p < 8 := List.mem_range.mp (List.mem_filter.mp hp).1
      exact Bool.false_ne_true ((hopen p hlt).symm.trans (hall p hp))
  case servo =>
    intro u s hl hwf hserved hruns hstates _
    obtain ⟨regs, hregs⟩ := servoRegisters_regs s u
    refine ⟨_, servoUpdate_disabled hl hserved hruns hstates, rd_wr_same (servoRegisters_wf hwf), ?_⟩
    rw [hregs]
    exact ⟨rfl, rfl, rfl, rfl, rfl, rfl⟩
  case state =>
    intro u s p hp hbad
    have hnot : (List.range 8).all (fun p => ptpStateOk s p (reportedState u p)) = false :=
      List.all_eq_false.mpr ⟨p, List.mem_range.mpr hp, ne_true_of_eq_false hbad⟩
    change execServoUpdate u s = _
    exact onHost_unchanged (if_pos (by rw [hnot, Bool.not_false, Bool.or_true]))
  case restart =>
    intro u s hrestart
    change execServoUpdate u s = _
    exact onHost_unchanged (if_pos (by rw [hrestart, Bool.or_true, Bool.true_or]))

/-! ## Transmission -/

/-- A frame that is dropped late ends as its owner has it (R293, R299, R320). -/
def endLate (s : State) (p : Nat) : TxOwner → State
  | .stream t _ => strTxDrop (paddSat s P.STR_TX_LATE_DROP t 1) t
  | .host d seg _ => endNetTx s p d stTimeout seg
  | .unowned => s

section Late
variable {p q : Fin 8} {f : TxFrame} {rest : List TxFrame} {l : Int} {s u : State}

/-- A head frame that has waited past its launch time and LATE_MAX leaves its queue, is counted and raised (R293). -/
theorem launchLateDiscard_drops (hl : live s = true) (hq : netQueue s p q = f :: rest) (hlaunch : f.launch = some l)
    (hmax : rget s (Reg.NET_LT p) F.NET_LT_LATE_MAX ≠ 0) (hvalid : timeValid s = true)
    (hlate : l + rget s (Reg.NET_LT p) F.NET_LT_LATE_MAX * 65536000 ≤ now s)
    (hu : u = radd (setQueue (updateCredits s p) p q rest) (Reg.NET_TX_LATE_DROP p) F.NET_TX_LATE_DROP_COUNT 1) :
    exec (.launchLateDiscard p q) s =
      .next (endLate (raise u (0x303 + 8 * p) p (rd u (Reg.NET_TX_LATE_DROP p)).toNat) p f.owner) := by
  subst hu
  change execLaunchLateDiscard p q s = _
  refine onHost_gives hl ?_
  simp only [hq, hlaunch]
  refine (if_neg ?_).trans ?_
  · simp [hmax, hvalid, Int.not_lt.mpr hlate]
  · cases f.owner with
    | stream t b => rfl
    | host d seg n => rfl
    | unowned => rfl

end Late

section Sends
variable {d : DescRef} {bs f : List Byte} {p : Nat} {s u : State}

/-- A NET_TX of one whole frame without a launch time, to a port that is not fenced: the link is down, or the frame goes
to its queue with the checksums that it asks for (R297, R299). -/
theorem netTx_whole (h : ready s d 0x48 bs) (hu : u = markAccepted s d) (hp : p = par bs 8 0 3)
    (hlaunch : par bs 8 6 1 = 0) (hwhole : par bs 8 10 1 = 0) (hlen : f.length = leAt bs 12 4) (hptp : isPtp f = false)
    (hfits : f.length + 4 ≤ maxFrame u p) (hfence : netFenced u p = false) :
    exec (.netTx d (some f)) s = .next (
      if netLink u p = false then finish u d stNotReady 0
      else
        let f := if par bs 8 8 1 = 1 then putIpSum f else f
        queueHost u d p (par bs 8 3 3) none (par bs 8 7 1 == 1) [if par bs 8 9 1 = 1 then putL4Sum f else f]) := by
  subst hp
  refine (onDesc_ready h).trans (congrArg _ ?_)
  simp [withInput, ← hu, hlaunch, hwhole, bytesAt_all hlen, hptp, hfence, Nat.not_lt.mpr hfits]

end Sends

/-- Settles O34: a frame that starts, has left the line or is dropped late ends as its owner has it, and a NET_TX of one
frame goes by its flags and its port's link. -/
theorem networkTransmissionComplete : Obligations.NetworkTransmissionComplete := by
  unfold Obligations.NetworkTransmissionComplete
  refine ⟨?start, ?sentHost, ?sentStream, ?late, ?lateStream, ?lateHost, ?never, ?queued, ?down⟩
  case start =>
    rintro p q b s u hl rfl hfree hq
    change execFrameTransmit p none b s = _
    refine onHost_gives hl ((if_neg (by simp [hfree])).trans ?_)
    simp only [hq]
  case sentHost =>
    rintro p q seg d f s u v hl hline howner hstamp rfl rfl
    change execTransmitComplete p s = _
    refine onHost_gives hl ?_
    simp only [hline, howner, hstamp, if_true, Bool.false_eq_true, if_false]
  case sentStream =>
    rintro p q t b f s u v hl hline howner rfl rfl
    change execTransmitComplete p s = _
    refine onHost_gives hl ?_
    simp only [hline, howner]
  case late =>
    intro p q f rest l s u hl hq hlaunch howner hmax hvalid hlate hu
    rw [launchLateDiscard_drops hl hq hlaunch hmax hvalid hlate hu, howner, endLate]
  case lateStream =>
    rintro p q f rest l t b s u v hl hq hlaunch howner hmax hvalid hlate hu rfl
    rw [launchLateDiscard_drops hl hq hlaunch hmax hvalid hlate hu, howner, endLate]
  case lateHost =>
    rintro p q f rest l d seg n s u v hl hq hlaunch howner hmax hvalid hlate hu rfl
    rw [launchLateDiscard_drops hl hq hlaunch hmax hvalid hlate hu, howner, endLate]
    exact ⟨rfl, _, rfl⟩
  case never =>
    intro p q s hmax
    change execLaunchLateDiscard p q s = _
    refine onHost_unchanged ?_
    dsimp only
    split
    · rfl
    · split
      · rfl
      · exact if_pos (.inl hmax)
  case queued =>
    intro d bs f p s u h hu hp hlaunch hip hl4 hwhole hlen hptp hfits hfence hlink
    rw [netTx_whole h hu hp hlaunch hwhole hlen hptp hfits hfence, if_neg (ne_false_of_eq_true hlink)]
    simp [hip, hl4]
  case down =>
    intro d bs f p s u h hu hp hlaunch hwhole hlen hptp hfits hfence hlink
    rw [netTx_whole h hu hp hlaunch hwhole hlen hptp hfits hfence, if_pos hlink]

end Sys2Proof.Machine

/-! PROOFS. The barrier's lanes and links at the host die: block lock, the scrambler and the blocks of messages, what ends
a link or a wait for an ACK, and the messages that a field die sends (R326 to R337, R342, R354, R413). -/

namespace Sys2Proof.Machine
open Sys2Proof Sys2Proof.Safety

/-! ## Block lock of the upstream lanes (R326, R337) -/

section UpperLanes
variable {s : State} {d : Die} {i : Nat}

/-- The bit of BAR_STAT that shows the lock of an upstream lane. -/
def upperFld (i : Nat) : Fld := if i = 0 then F.BAR_STAT_UL0 else F.BAR_STAT_UL1

/-- The bit as the lanes' operations write it. -/
theorem upperFld_eq (i : Nat) : (if i = 0 then F.BAR_STAT_UL0 else F.BAR_STAT_UL1) = upperFld i := rfl

theorem upperFld_place (i : Nat) : (upperFld i).width = 1 ∧ ((upperFld i).lo = 2 ∨ (upperFld i).lo = 3) := by
  unfold upperFld
  split
  · exact ⟨rfl, .inl rfl⟩
  · exact ⟨rfl, .inr rfl⟩

/-- The upstream lanes as a statement lists them, each with its bit. -/
theorem upperLane_listed {l : Lane} {f : Fld}
    (h : (l, f, i) ∈ [(Lane.ul0, F.BAR_STAT_UL0, 0), (Lane.ul1, F.BAR_STAT_UL1, 1)]) :
    (l, i) ∈ [(Lane.ul0, 0), (Lane.ul1, 1)] ∧ f = upperFld i := by
  simp only [List.mem_cons, List.not_mem_nil, or_false, Prod.mk.injEq] at h
  rcases h with ⟨rfl, rfl, rfl⟩ | ⟨rfl, rfl, rfl⟩
  · exact ⟨by decide, rfl⟩
  · exact ⟨by decide, rfl⟩

theorem setBar_memory {b : BarHost} (h : Memory.wf s = true) : Memory.wf (setBar s d b) = true :=
  keep_mem.symm.trans (setBar_wf (keep_mem.trans h))

theorem rbit_memory {a : Nat} {f : Fld} {b : Bool} (h : Memory.wf s = true) : Memory.wf (rbit s a f b) = true :=
  keep_mem.symm.trans (rbit_wf (keep_mem.trans h))

/-- The lock bits lie apart from LINK. -/
theorem barLink_rbit_upperFld {b : Bool} (h : Memory.wf s = true) :
    barLink (rbit s (Reg.BAR_STAT (dieNum d)) (upperFld i) b) d = barLink s d :=
  rget_rput_field h (by decide) (.inr (by have := upperFld_place i; show 0 + 2 ≤ _; omega))

/-- A locked upstream lane keeps the link TRAINING at least. -/
theorem laneLink_rbit_upperFld (h : Memory.wf s = true) :
    laneLink (rbit s (Reg.BAR_STAT (dieNum d)) (upperFld i) true) d = lkTraining := by
  obtain ⟨hwidth, hlo⟩ := upperFld_place i
  have hlock : ron (rbit s (Reg.BAR_STAT (dieNum d)) (upperFld i) true) (Reg.BAR_STAT (dieNum d)) (upperFld i) = true :=
    ron_rbit_same h (by omega) (by omega)
  refine if_pos ?_
  by_cases hi : i = 0
  · subst hi
    exact .inl hlock
  · rw [show upperFld i = F.BAR_STAT_UL1 from if_neg hi] at hlock ⊢
    exact .inr hlock

/-- The lock bits read what they read when LINK is written. -/
theorem laneLink_setLink {l : Nat} (h : Memory.wf s = true) : laneLink (setLink s d l) d = laneLink s d := by
  rw [laneLink, setLink, ron_rput_field h (by decide) (by decide), ron_rput_field h (by decide) (by decide), laneLink]

/-- An upstream lane that gains lock on a link that is not UP has it train, and nothing is raised. -/
theorem upperLock_gains (h : Memory.wf s = true) (hlink : barLink s d ≠ lkUp) :
    upperLock s d i true = setLink (rbit s (Reg.BAR_STAT (dieNum d)) (upperFld i) true) d lkTraining := by
  have hwf : Memory.wf (rbit s (Reg.BAR_STAT (dieNum d)) (upperFld i) true) = true := rbit_memory h
  have htrains := laneLink_rbit_upperFld (d := d) (i := i) h
  unfold upperLock
  simp only [upperFld_eq, barLink_rbit_upperFld h, if_neg hlink, laneLink_setLink hwf, htrains]
  simp [lkTraining, lkDown]

/-- An upstream lane of a link that is UP raises its source as it loses lock; with neither lane locked no die status is
known any more. -/
theorem upperLock_loses {u : State} (h : Memory.wf s = true) (hlink : barLink s d = lkUp)
    (hlock : ron s (Reg.BAR_STAT (dieNum d)) (upperFld i) = true)
    (hu : u = rbit s (Reg.BAR_STAT (dieNum d)) (upperFld i) false) :
    upperLock s d i false = barRaise (if laneLink u d = lkDown then setBar u d { barAt u d with status := false } else u)
      d i 0 := by
  subst hu
  unfold upperLock
  simp only [upperFld_eq, barLink_rbit_upperFld h, if_pos hlink, hlock]
  rfl

/-- A header whose test leaves the lock as it is moves the lane's counts only. -/
theorem upperHeader_keeps {valid : Bool} {x : Nat × Nat}
    (h : lockStep (ron s (Reg.BAR_STAT (dieNum d)) (upperFld i)) (mapGet (fun _ => (0, 0)) (barAt s d).sync i) valid =
      (ron s (Reg.BAR_STAT (dieNum d)) (upperFld i), x)) :
    upperHeader d i s valid =
      setBar s d { barAt s d with sync := mapSet (fun _ => (0, 0)) (barAt s d).sync i x } := by
  unfold upperHeader
  simp only [upperFld_eq, h]
  simp

/-- A header whose test gives or takes the lock moves the lane's counts, and then its lock. -/
theorem upperHeader_changes {valid now : Bool} {x : Nat × Nat}
    (hnow : now ≠ ron s (Reg.BAR_STAT (dieNum d)) (upperFld i))
    (h : lockStep (ron s (Reg.BAR_STAT (dieNum d)) (upperFld i)) (mapGet (fun _ => (0, 0)) (barAt s d).sync i) valid =
      (now, x)) :
    upperHeader d i s valid = upperLock
      (setBar s d { barAt s d with sync := mapSet (fun _ => (0, 0)) (barAt s d).sync i x }) d i now := by
  unfold upperHeader
  simp only [upperFld_eq, h]
  simp [hnow]

/-- Sync headers of an upstream lane of a die that this variant has. -/
theorem exec_upperLane {l : Lane} {headers : List Bool} (hl : live s = true) (hd : diePresent s d = true)
    (hlane : (l, i) ∈ [(Lane.ul0, 0), (Lane.ul1, 1)]) :
    exec (.barrierLaneLock d l headers) s = .next (forEach headers s (upperHeader d i)) := by
  change execBarrierLaneLock d l headers s = _
  simp only [List.mem_cons, List.not_mem_nil, or_false, Prod.mk.injEq] at hlane
  rcases hlane with ⟨rfl, rfl⟩ | ⟨rfl, rfl⟩
  all_goals simp [execBarrierLaneLock, onHost_live hl, hd]

/-- One sync header of an upstream lane. -/
theorem exec_upperHeader {l : Lane} {valid : Bool} (hl : live s = true) (hd : diePresent s d = true)
    (hlane : (l, i) ∈ [(Lane.ul0, 0), (Lane.ul1, 1)]) :
    exec (.barrierLaneLock d l [valid]) s = .next (upperHeader d i s valid) :=
  exec_upperLane hl hd hlane

end UpperLanes

/-- Sync headers of a lane that a field die receives. -/
theorem exec_lowerLane {s : State} {d : Die} {l : Lane} {i : Nat} {headers : List Bool} (hd : dieHere s d = true)
    (hlane : (l, i) ∈ [(Lane.dl0, 0), (Lane.dl1, 1), (Lane.twin0, 2), (Lane.twin1, 3)]) :
    exec (.barrierLaneLock d l headers) s = .next (settleDie s (forEach headers s (lowerHeader d i)) d) := by
  change execBarrierLaneLock d l headers s = _
  simp only [List.mem_cons, List.not_mem_nil, or_false, Prod.mk.injEq] at hlane
  rcases hlane with ⟨rfl, rfl⟩ | ⟨rfl, rfl⟩ | ⟨rfl, rfl⟩ | ⟨rfl, rfl⟩
  all_goals simp only [execBarrierLaneLock, onDie_here hd]

/-- The 64th valid header in a row gives lock. -/
theorem lockStep_locks : lockStep false (63, 0) true = (true, 0, 0) := rfl

/-- The sixteenth header of a window that is not valid takes the lock. -/
theorem lockStep_unlocks (n : Nat) : lockStep true (n, 15) false = (false, 0, 0) := rfl

/-- Without lock, a header that is not valid starts the count again. -/
theorem lockStep_restarts (x : Nat × Nat) : lockStep false x false = (false, 0, 0) := rfl

/-! ## The coding of the lanes (R326, R328) -/

/-- A scrambled bit gives its bit back under any state whose 58 places are those of the scrambler's. -/
theorem scrambleBit_scrambleBit {st far : List Bool} (h : far.take 58 = st.take 58) (x : Bool) :
    scrambleBit far (scrambleBit st x) = x := by
  have hplace : ∀ k < 58, far.getD k false = st.getD k false := by
    intro k hk
    have hget := congrArg (·[k]?) h
    simp only [List.getElem?_take, if_pos hk] at hget
    simp only [List.getD_eq_getElem?_getD, hget]
  have hcancel : ∀ x a b : Bool, ((((x != a) != b) != a) != b) = x := by decide
  rw [scrambleBit, scrambleBit, hplace 38 (by decide), hplace 57 (by decide), hcancel]

/-- States that agree on `k` places agree on one more after a bit that both take. -/
theorem take_state_succ {st far : List Bool} {k : Nat} (hk : k < 58) (h : far.take k = st.take k) (y : Bool) :
    ((y :: far).take 58).take (k + 1) = ((y :: st).take 58).take (k + 1) := by
  rw [List.take_take, List.take_take, Nat.min_eq_left (by omega), List.take_succ_cons, List.take_succ_cons, h]

/-- A receiver that knows all but `n` of the scrambler's 58 places finds every bit after the first `n`: each bit received
gives it one place more. -/
theorem drop_descramble_scramble (xs : List Bool) : ∀ {n : Nat} {st far : List Bool}, n ≤ 58 →
    far.take (58 - n) = st.take (58 - n) → (descramble far (scramble st xs)).drop n = xs.drop n := by
  induction xs with
  | nil => exact fun _ _ => rfl
  | cons x xs ih =>
    intro n st far hn h
    rw [scramble, descramble]
    cases n with
    | zero =>
      have hfewer : far.take 57 = st.take 57 := by simpa [List.take_take] using congrArg (List.take 57) h
      have htail := ih (n := 0) (by decide) (take_state_succ (by decide) hfewer (scrambleBit st x))
      rw [List.drop_zero, List.drop_zero] at htail
      rw [List.drop_zero, List.drop_zero, scrambleBit_scrambleBit h, htail]
    | succ m =>
      have hplaces : 58 - m = 58 - (m + 1) + 1 := by omega
      rw [List.drop_succ_cons, List.drop_succ_cons]
      refine ih (by omega) ?_
      rw [hplaces]
      exact take_state_succ (by omega) h _

/-- Data blocks join the run before them. -/
theorem laneMessages_data {ws : List Nat} {bs : List LaneBlock} (h : ∀ w ∈ ws, w < 2 ^ 64) : ∀ run : List Nat,
    laneMessages (ws.map (fun w => ⟨true, w % 2 ^ 64⟩) ++ bs) run = laneMessages bs (run ++ ws) := by
  induction ws with
  | nil => simp
  | cons w ws ih =>
    intro run
    have hw : w % 2 ^ 64 = w := Nat.mod_eq_of_lt (h w List.mem_cons_self)
    rw [List.map_cons, List.cons_append, laneMessages, if_pos rfl, hw,
      ih (fun v hv => h v (List.mem_cons_of_mem _ hv)), List.append_assoc, List.singleton_append]

/-- The blocks of a message before others give it first: the idle block ends its run. -/
theorem laneMessages_message {m : List Nat} {bs : List LaneBlock} (hsome : m ≠ []) (h : ∀ w ∈ m, w < 2 ^ 64) :
    laneMessages (messageBlocks m ++ bs) [] = m :: laneMessages bs [] := by
  rw [messageBlocks, List.append_assoc, laneMessages_data h, List.nil_append, List.singleton_append, laneMessages,
    if_neg (by decide), if_neg (by simpa using hsome)]

theorem laneMessages_flatMap (ms : List (List Nat)) (h : ∀ m ∈ ms, m ≠ [] ∧ ∀ w ∈ m, w < 2 ^ 64) :
    laneMessages (ms.flatMap messageBlocks) [] = ms := by
  induction ms with
  | nil => rfl
  | cons m ms ih =>
    obtain ⟨hsome, hwords⟩ := h m List.mem_cons_self
    rw [List.flatMap_cons, laneMessages_message hsome hwords, ih fun x hx => h x (List.mem_cons_of_mem _ hx)]

/-! ## The links -/

/-- Settles O36: the lanes' clauses are headers that change a lane's lock or leave it; the other commands take the branch
their hypotheses choose. -/
theorem barrierLinksComplete : Obligations.BarrierLinksComplete := by
  unfold Obligations.BarrierLinksComplete
  refine ⟨?upper, ?lower, ?locks, ?unlocks, ?restarts, ?scrambler, ?blocks, ?timeout, ?samples, ?ack, ?unsealed, ?clear⟩
  case upper => exact fun d s l i headers hl hd hlane => exec_upperLane hl hd hlane
  case lower => exact fun d s l i headers hd hlane => exec_lowerLane hd hlane
  case locks =>
    rintro d s u l f i hl hd hwf hlane hlink hlock hsync rfl
    obtain ⟨hlisted, rfl⟩ := upperLane_listed hlane
    rw [exec_upperHeader hl hd hlisted,
      upperHeader_changes (now := true) (by simp [hlock]) (by rw [hlock, hsync, lockStep_locks]),
      upperLock_gains (setBar_memory hwf) (by rwa [barLink, rget_setBar])]
  case unlocks =>
    rintro d s u l f i n hl hd hwf hlane hlink hlock hsync hu
    obtain ⟨hlisted, rfl⟩ := upperLane_listed hlane
    rw [exec_upperHeader hl hd hlisted,
      upperHeader_changes (now := false) (by simp [hlock]) (by rw [hlock, hsync, lockStep_unlocks]),
      upperLock_loses (setBar_memory hwf) (by rwa [barLink, rget_setBar]) (by rwa [ron_setBar]) hu]
  case restarts =>
    intro d s l f i hl hd hlane hlock
    obtain ⟨hlisted, rfl⟩ := upperLane_listed hlane
    rw [exec_upperHeader hl hd hlisted, upperHeader_keeps (by rw [hlock, lockStep_restarts])]
  case scrambler =>
    exact fun st far xs => ⟨drop_descramble_scramble xs (n := 0) (by decide) rfl,
      drop_descramble_scramble xs (n := 58) (by decide) rfl⟩
  case blocks => exact laneMessages_flatMap
  case timeout =>
    rintro d s u hl hup hlost rfl
    have hlane : laneLink (setBar s d { barAt s d with upAt := none }) d = laneLink s d := by
      rw [laneLink, ron_setBar, ron_setBar, laneLink]
    change execBarrierLinkTimeout d s = _
    refine onHost_gives hl ((if_pos (by simpa [hup] using hlost)).trans ?_)
    rw [hlane, linkLost]
  case samples =>
    intro d j s hl
    change execSampleSendInstant d j s = _
    exact onHost_live hl
  case ack =>
    intro d q w s hl hfind
    change (_ → execAckTimeout d q s = _) ∧ (_ → execAckTimeout d q s = _)
    constructor
    · intro htries
      exact onHost_gives hl (by simp only [hfind, if_pos htries])
    · intro htries
      exact onHost_gives hl (by simp only [hfind, if_neg (Nat.not_lt.mpr htries)])
  case unsealed =>
    intro d c s hl hsince hup hopen hlong
    change execDieUnsealedTimeout d s = _
    refine onHost_gives hl ?_
    simp [hsince, hup, hopen, hlong]
  case clear =>
    intro d w s hmay hd hgo
    exact (onBar_may hmay).trans (congrArg _ (if_pos (by simp [hd, hgo])))

/-! ## The messages from a field die -/

/-- The answer of an upstream message that the host die accepts, by the state that its meaning makes. -/
theorem onUp_gives {s u v : State} {d : Die} {ws : List Nat} {type : Nat} {f : State → State} (h : heardUp s d ws type)
    (hu : u = afterUp s d ws) (hf : f u = v) : onUp s d ws type f = .next v := by
  rw [onUp_heard h, ← hu, hf]

/-- Settles O37: each message acts on the state after its acceptance, by the branch that its hypotheses choose. -/
theorem upstreamMessagesComplete : Obligations.UpstreamMessagesComplete := by
  unfold Obligations.UpstreamMessagesComplete
  refine ⟨?sense, ?status, ?fault, ?ack, ?diag⟩
  case sense =>
    intro d ws s h
    change execSense d ws s = _
    exact onUp_heard h
  case status =>
    intro d ws o s u h hu
    change (_ → _ → execStatus d ws o s = _) ∧ (∀ i, _ → _ → execStatus d ws o s = _) ∧ (_ → execStatus d ws o s = _) ∧
      (_ → execStatus d ws o s = _)
    refine ⟨?_, ?_, ?_, ?_⟩
    · rintro hkind rfl
      exact onUp_gives h hu (if_pos hkind)
    · rintro i hkind rfl
      exact onUp_gives h hu (if_pos hkind)
    · intro hkind
      exact onUp_gives h hu ((if_neg (by omega)).trans (if_pos hkind))
    · intro hkind
      exact onUp_gives h hu ((if_neg (by omega)).trans (if_neg (by omega)))
  case fault =>
    rintro d ws s u a h rfl rfl
    change execFault d ws s = _
    exact onUp_gives h rfl rfl
  case ack =>
    intro d ws w s u h hu hfind
    change execAck d ws s = _
    exact onUp_gives h hu (by simp only [hfind])
  case diag =>
    rintro d ws r q s u v h hu hfind rfl rfl
    change execDiagResult d ws s = _
    exact onUp_gives h hu (by simp only [hfind])

end Sys2Proof.Machine

/-! PROOFS. The messages that a field die accepts from its barrier and from its twin (R329 to R333, R343, R346 to R350,
R566). -/

namespace Sys2Proof.Machine
open Sys2Proof Sys2Proof.Safety

/-- The answer of a downstream message that a field die accepts, by the state that its meaning makes. -/
theorem onDown_gives {s u v : State} {d : Die} {ws : List Nat} {mine : List Nat → Bool} {f : State → State}
    (h : heardDown s d ws mine) (hu : u = afterDown s d ws) (hf : f u = v) :
    onDown s d ws mine f = .next (settleDie s v d) := by
  rw [onDown_heard h, ← hu, hf]

/-- The answer of a twin message that a field die accepts, by the state that its meaning makes. -/
theorem onTwin_gives {s u v : State} {d : Die} {ws : List Nat} {type : Nat} {f : State → State}
    (h : heardTwin s d ws type) (hu : u = afterTwin s d ws) (hf : f u = v) :
    onTwin s d ws type f = .next (settleDie s v d) := by
  rw [onTwin_heard h, ← hu, hf]

/-- Settles O38: each message acts on the state after its acceptance, by the branch that its hypotheses choose. -/
theorem fieldMessagesComplete : Obligations.FieldMessagesComplete := by
  unfold Obligations.FieldMessagesComplete
  refine ⟨?samples, ?heartbeat, ?sealed, ?param, ?unknown, ?twinSamples, ?twinDigest, ?twinStatus, ?twinLink⟩
  case samples =>
    rintro d ws s u h rfl
    change execSamples d ws s = _
    exact onDown_gives h rfl (by simp only [Bool.and_eq_true])
  case heartbeat =>
    rintro d ws s u x h hu rfl
    change execBarrierHeartbeat d ws s = _
    exact onDown_gives h hu rfl
  case sealed =>
    rintro d ws s u x h hu rfl
    change execSealMsg d ws s = _
    exact onDown_gives h hu rfl
  case param =>
    rintro d ws s u r o h hu rfl rfl
    change (_ → execParam d ws s = _) ∧ (_ → execParam d ws s = _)
    constructor
    · intro hgood
      refine onDown_gives h hu ?_
      simp only [hgood, if_true]
    · intro hbad
      refine onDown_gives h hu ?_
      simp only [if_neg hbad]
  case unknown =>
    intro d ws s h
    change execCmdUnknown d ws s = _
    exact onDown_heard h
  case twinSamples =>
    intro d ws s u h hu hen hdrives
    change execTwinSamples d ws s = _
    exact onTwin_gives h hu (if_pos (by simp [hen, hdrives]))
  case twinDigest =>
    rintro d ws s u v m h hu rfl rfl
    change execTwinDigest d ws s = _
    exact onTwin_gives h hu rfl
  case twinStatus =>
    rintro d ws s u v h hu rfl
    change execTwinStatus d ws s = _
    refine onTwin_gives h hu ?_
    simp only [Bool.and_eq_true, Bool.not_eq_true']
  case twinLink =>
    intro d s hd
    change execTwinStatusSend d s = _ ∧ (_ → execTwinLinkTimeout d s = _)
    exact ⟨onDie_here hd, fun hup => onDie_gives hd (if_neg (by simp [hup]))⟩

end Sys2Proof.Machine

/-! PROOFS. The modulators of a field die: the gates of a leg, the error of the requantizer, and the trips, raw values
and limited periods of a channel (R358, R359, R363 to R371, R375, R400). -/

namespace Sys2Proof.Machine
open Sys2Proof Sys2Proof.Safety

/-! ## The gates of a leg (R365) -/

/-- A gate is high only as the leg's command says and with no edge pending, and a leg without a command has no edge
pending. -/
structure LegOrdered (l : Leg) : Prop where
  high : l.hi = true → l.cmd = some true ∧ l.due = none
  low : l.lo = true → l.cmd = some false ∧ l.due = none
  idle : l.cmd = none → l.due = none

section Legs
variable {l : Leg}

theorem LegOrdered.not_both (h : LegOrdered l) : ¬(l.hi = true ∧ l.lo = true) := by
  rintro ⟨hhi, hlo⟩
  have hcmd : some true = some false := (h.high hhi).1.symm.trans (h.low hlo).1
  exact absurd hcmd (by decide)

theorem LegOrdered.hi_off (h : LegOrdered l) (hcmd : l.cmd ≠ some true) : l.hi = false :=
  Bool.eq_false_iff.mpr fun hhi => hcmd (h.high hhi).1

theorem LegOrdered.lo_off (h : LegOrdered l) (hcmd : l.cmd ≠ some false) : l.lo = false :=
  Bool.eq_false_iff.mpr fun hlo => hcmd (h.low hlo).1

theorem LegOrdered.off_of_due (h : LegOrdered l) {u : Nat} (hdue : l.due = some u) : l.hi = false ∧ l.lo = false :=
  have hpending : l.due ≠ none := by simp [hdue]
  ⟨Bool.eq_false_iff.mpr fun hhi => hpending (h.high hhi).2, Bool.eq_false_iff.mpr fun hlo => hpending (h.low hlo).2⟩

/-- The edge that is pending is the high side's or the low side's. -/
theorem LegOrdered.cmd_false (h : LegOrdered l) {u : Nat} (hdue : l.due = some u) (hcmd : l.cmd ≠ some true) :
    l.cmd = some false := by
  match hc : l.cmd with
  | none => exact absurd (hdue.symm.trans (h.idle hc)) (Option.some_ne_none u)
  | some false => rfl
  | some true => exact absurd hc hcmd

/-- A leg with both gates low and a command is in order, whatever edge is pending. -/
theorem legOrdered_off (b : Bool) (o : Option Nat) : LegOrdered ⟨some b, false, false, o⟩ where
  high h := Bool.noConfusion h
  low h := Bool.noConfusion h
  idle h := absurd h (Option.some_ne_none b)

/-- Both gates are low while an edge is pending, so the edge that comes raises the only gate that is high. -/
theorem LegOrdered.settle (h : LegOrdered l) (ball t : Nat) : LegOrdered (legSettle ball t l).1 := by
  unfold legSettle
  split
  case h_1 => exact h
  case h_2 u hdue =>
    obtain ⟨hhi, hlo⟩ := h.off_of_due hdue
    by_cases hlater : t ≤ u
    · rw [if_pos hlater]
      exact h
    · rw [if_neg hlater]
      by_cases hcmd : l.cmd = some true
      · rw [if_pos hcmd]
        exact ⟨fun _ => ⟨hcmd, rfl⟩, fun hl => absurd (hlo.symm.trans hl) (by decide), fun _ => rfl⟩
      · rw [if_neg hcmd]
        have hfalse : l.cmd = some false := h.cmd_false hdue hcmd
        exact ⟨fun hl => absurd (hhi.symm.trans hl) (by decide), fun _ => ⟨hfalse, rfl⟩, fun _ => rfl⟩

/-- A change takes low the gate of the old command; the other gate was low under it. -/
theorem LegOrdered.change (h : LegOrdered l) (ball rise fall : Nat) (ch : Nat × Bool) :
    LegOrdered (legChange ball rise fall l ch).1 := by
  obtain ⟨t, b⟩ := ch
  have hm := h.settle ball t
  unfold legChange
  generalize legSettle ball t l = p at hm
  obtain ⟨m, es⟩ := p
  dsimp only at hm ⊢
  by_cases hsame : m.cmd = some b
  · rw [if_pos hsame]
    exact hm
  · rw [if_neg hsame]
    cases b with
    | true => simpa [hm.hi_off hsame] using legOrdered_off true _
    | false => simpa [hm.lo_off hsame] using legOrdered_off false _

/-- A period keeps a leg in order, whatever command changes it has. -/
theorem LegOrdered.period (h : LegOrdered l) (ball rise fall n : Nat) (chs : List (Nat × Bool)) :
    LegOrdered (legPeriod ball rise fall n l chs).1 := by
  have hchanges := List.foldlRecOn (motive := fun acc : Leg × List (Nat × Nat × Bool) => LegOrdered acc.1) chs
    (fun acc ch => ((legChange ball rise fall acc.1 ch).1, acc.2 ++ (legChange ball rise fall acc.1 ch).2))
    (b := (l, [])) h (fun acc hacc ch _ => hacc.change ball rise fall ch)
  obtain ⟨hhigh, hlow, hidle⟩ := hchanges.settle ball n
  exact ⟨fun hhi => ⟨(hhigh hhi).1, congrArg (Option.map (· - n)) (hhigh hhi).2⟩,
    fun hlo => ⟨(hlow hlo).1, congrArg (Option.map (· - n)) (hlow hlo).2⟩,
    fun hcmd => congrArg (Option.map (· - n)) (hidle hcmd)⟩

end Legs

/-- Settles O42: the order of a leg's gates and its command holds after every period. -/
theorem legsNeverOverlap : Obligations.LegsNeverOverlap := by
  unfold Obligations.LegsNeverOverlap
  intro ball rise fall n l m chs es hhigh hlow hidle hrun
  have hm : LegOrdered m := by
    simpa only [hrun] using LegOrdered.period ⟨hhigh, hlow, hidle⟩ ball rise fall n chs
  exact ⟨hm.not_both, hm.high, hm.low, hm.idle⟩

/-! ## The error of the requantizer (R359) -/

/-- Without dither the quantizer rounds to the nearest tick, half a tick up. -/
theorem quantize_nearest (j : Nat) (w : Int) :
    -2 ^ 19 < quantize false j w * 2 ^ 20 - w ∧ quantize false j w * 2 ^ 20 - w ≤ 2 ^ 19 := by
  simp only [quantize, Bool.false_eq_true, if_false]
  omega

/-- With dither the quantizer takes the tick at or below its input, or the one above it where the input lies above a
tick. -/
theorem quantize_dither_near (j : Nat) (w : Int) :
    -2 ^ 20 < quantize true j w * 2 ^ 20 - w ∧ quantize true j w * 2 ^ 20 - w < 2 ^ 20 := by
  simp only [quantize, if_true]
  by_cases hup : (w % 2 ^ 20 * 16 / 2 ^ 20).toNat > ditherRank j
  · rw [if_pos hup]
    have hfrac : 0 < w % 2 ^ 20 := by omega
    omega
  · rw [if_neg hup]
    omega

/-- With dither or without, the output lies less than a tick from the quantizer's input: a strict bound. -/
theorem quantize_near (dither : Bool) (j : Nat) (w : Int) :
    -2 ^ 20 < quantize dither j w * 2 ^ 20 - w ∧ quantize dither j w * 2 ^ 20 - w < 2 ^ 20 := by
  cases dither with
  | false =>
    obtain ⟨hlo, hhi⟩ := quantize_nearest j w
    omega
  | true => exact quantize_dither_near j w

/-- The input that the five newest errors filter, newest first (R359). -/
def filteredInput (err : List Int) (v : Int) : Int :=
  v - 5 * err.getD 0 0 + 10 * err.getD 1 0 - 10 * err.getD 2 0 + 5 * err.getD 3 0 - err.getD 4 0

/-- A carrier period quantizes the filtered input and keeps its error as the newest. -/
theorem requantStep_eq (dither : Bool) (j : Nat) (err : List Int) (v : Int) :
    requantStep dither j err v = (quantize dither j (filteredInput err v),
      ((quantize dither j (filteredInput err v) * 2 ^ 20 - filteredInput err v) :: err).take 5) := rfl

/-- Settles O43: the newest error is the quantizer's, which its bounds hold. -/
theorem requantizerErrorBounded : Obligations.RequantizerErrorBounded := by
  unfold Obligations.RequantizerErrorBounded
  constructor
  · intro dither j err v u next hstep
    obtain ⟨rfl, rfl⟩ := Prod.mk.inj ((requantStep_eq dither j err v).symm.trans hstep)
    obtain ⟨hlo, hhi⟩ := quantize_near dither j (filteredInput err v)
    exact ⟨_, rfl, hlo, Int.le_of_lt hhi, Int.sub_sub_self _ _⟩
  · intro j err v u next hstep
    obtain ⟨rfl, rfl⟩ := Prod.mk.inj ((requantStep_eq false j err v).symm.trans hstep)
    exact quantize_nearest j (filteredInput err v)

/-! ## Trips, raw values and limited periods -/

/-- Settles O41: each command acts on a die that is here, and each clause is the branch its hypotheses choose. -/
theorem modulatorsComplete : Obligations.ModulatorsComplete := by
  unfold Obligations.ModulatorsComplete
  refine ⟨?valley, ?trip, ?readback, ?input, ?quiet, ?raw, ?overcurrent⟩
  case valley =>
    intro d c m s hd
    change execCarrierValley d c m s = _
    exact onDie_here hd
  case trip =>
    rintro d c t b s u hd hst hon hin hblank rfl
    change (_ → execTripHonoured d c ⟨t, b⟩ s = _) ∧ (∀ v x, _ → _ → _ → execTripHonoured d c ⟨t, b⟩ s = _)
    have hruns : (pwState s d c == pwRunning || pwState s d c == pwRaw) = true := by simpa using hst
    have hgates : (fon s d (Reg.PWM_CH_STAT c) F.PWM_CH_STAT_GATES_ON || (b && (fch s d c).safeOff)) = true := by
      simpa using hon
    rw [execTripHonoured, onDie_here hd]
    constructor
    · intro hlatch
      simp only [hruns, hgates, hin, hblank, hlatch, Bool.and_self, Bool.not_true, Bool.or_self, Bool.false_eq_true,
        if_false, if_true]
    · rintro v x hsoft rfl rfl
      simp only [hruns, hgates, hin, hblank, hsoft, Bool.and_self, Bool.not_true, Bool.or_self, Bool.false_eq_true,
        if_false]
  case readback =>
    intro d c t s hd hen
    change (_ → _ → execReadbackMismatch d c t s = _) ∧ (_ → execReadbackMismatch d c t s = _)
    constructor
    · intro htripped hsame
      exact onDie_gives hd ((if_neg hen).trans (if_pos ⟨htripped, hsame⟩))
    · intro hst
      have hnot : ¬(pwState s d c = pwTripped ∧ (fch s d c).tripAt = some t) := by
        rintro ⟨htripped, -⟩
        rw [htripped] at hst
        exact absurd hst (by decide)
      exact onDie_gives hd ((if_neg hen).trans ((if_neg hnot).trans (if_pos hst)))
  case input =>
    rintro d c b s u hd rfl
    change (_ → execTripInputChange d c b s = _) ∧ (_ → _ → execTripInputChange d c b s = _)
    constructor
    · intro hquiet
      exact onDie_gives hd (if_neg (by simpa [Decidable.imp_iff_not_or] using hquiet))
    · intro hactive hst
      exact onDie_gives hd (if_pos (by simp [hactive, ← hst]))
  case quiet =>
    intro d c s hd hst hin
    change (_ → execTripQuietExpiry d c s = _) ∧ (_ → _ → execTripQuietExpiry d c s = _) ∧
      (_ → _ → execTripQuietExpiry d c s = _)
    have hends : ¬(pwState s d c ≠ pwRearming ∨ tripIn s d c = true) := by simp [hst, hin]
    refine ⟨?_, ?_, ?_⟩
    · intro hen
      exact onDie_gives hd ((if_neg hends).trans (if_pos (by simp [hen])))
    · intro hen hraw
      exact onDie_gives hd ((if_neg hends).trans ((if_neg (by simp [hen])).trans (if_pos hraw)))
    · intro hen hraw
      exact onDie_gives hd ((if_neg hends).trans ((if_neg (by simp [hen])).trans (if_neg (by simp [hraw]))))
  case raw =>
    rintro d c duty s u x y hd rfl halone hduty hper rfl
    change execRawPairTimeout d c duty s = _
    have hy : y = if duty = true then
          { fch s d c with dueDuty := (fch s d c).pendDuty, pendDuty := none, dueLone := true }
        else { fch s d c with duePer := (fch s d c).pendPer, pendPer := none, dueLone := true } := by
      cases duty with
      | true => exact hduty rfl
      | false => exact hper rfl
    rw [hy]
    exact onDie_gives hd (if_neg (by simp [halone]))
  case overcurrent =>
    intro d c t bits s hd hdriven hover
    change execOvercurrent d c t bits s = _
    exact onDie_gives hd (if_neg (by simpa [hdriven] using hover))

end Sys2Proof.Machine

/-! PROOFS. The queue of commands: first in, first out (log entry 1). -/

namespace Sys2Proof.Machine
open Sys2Proof

theorem step_cons {c : Instr} {rest : List Instr} {s : State} (h : s.pending = c :: rest) :
    step s = exec c { s with pending := rest } := by rw [step, h]

/-- Settles O3: the command at the front is taken off, which leaves the state as it was before it was put there. -/
theorem stepRunsFront : Obligations.StepRunsFront := by
  unfold Obligations.StepRunsFront
  intro c s
  exact step_cons (s := { s with pending := c :: s.pending }) rfl

end Sys2Proof.Machine

/-! PROOFS. What a raise marks: the STATUS bit, the group's counter, FLT_FIRST and FLT_LAST, and that its reactions leave
the collector's registers alone (R476, R477, R487). -/

namespace Sys2Proof.Machine
open Sys2Proof Sys2Proof.Safety

/-- `t` reads the collector's registers as `s` does, and lists its registers in their canonical form. -/
def CollectorKept (s t : State) : Prop :=
  mapWf hostReset t.regs = true ∧ ∀ a, 0x4000 ≤ a → a < 0x5000 → rd t a = rd s a

section Reactions
variable {s t u : State} {a : Nat} {f : Fld}

theorem CollectorKept.refl (h : mapWf hostReset s.regs = true) : CollectorKept s s := ⟨h, fun _ _ _ => rfl⟩

theorem CollectorKept.trans (h : CollectorKept s t) (k : CollectorKept t u) : CollectorKept s u :=
  ⟨k.1, fun a hlo hhi => (k.2 a hlo hhi).trans (h.2 a hlo hhi)⟩

theorem CollectorKept.of_regs (h : CollectorKept s t) (hregs : u.regs = t.regs) : CollectorKept s u := by
  refine h.trans ⟨hregs ▸ h.1, fun a _ _ => ?_⟩
  rw [rd, rd, hregs]

theorem CollectorKept.ite {c : Prop} [Decidable c] (h : CollectorKept s t) (k : CollectorKept s u) :
    CollectorKept s (if c then t else u) := iteInduction (motive := CollectorKept s) (fun _ => h) fun _ => k

theorem CollectorKept.put {v : Nat} (h : CollectorKept s t) (ha : a < 0x4000 ∨ 0x5000 ≤ a) :
    CollectorKept s (rput t a f v) :=
  h.trans ⟨regs_rput h.1, fun b hlo hhi => rd_rput_apart h.1 (by omega)⟩

theorem CollectorKept.mgtCause {i : Nat} (h : CollectorKept s t) : CollectorKept s (mgtCause t i) := by
  unfold Machine.mgtCause
  extract_lets c mgt v w
  have hv : CollectorKept s v := .ite (h.of_regs rfl) h
  have hw : CollectorKept s w := hv.put (.inr (by decide))
  have hrequest : CollectorKept s (mgtRequest w) := .ite (hw.of_regs rfl) (hw.put (.inr (by decide)))
  exact .ite h (.ite hrequest hw)

theorem CollectorKept.driveFaultN (h : CollectorKept s t) : CollectorKept s (driveFaultN t) :=
  .ite h (CollectorKept.mgtCause (h.of_regs rfl))

theorem CollectorKept.msixSignal {v : Nat} (h : CollectorKept s t) : CollectorKept s (msixSignal t v) :=
  .ite (h.of_regs rfl) (h.put (.inr (by simp only [Reg.MSIX_PBA]; omega)))

theorem CollectorKept.faultInt (h : CollectorKept s t) : CollectorKept s (faultInt t) := by
  unfold Machine.faultInt
  extract_lets v collector u
  have hu : CollectorKept s u := h.of_regs rfl
  exact .ite h.msixSignal (.ite hu hu.msixSignal)

end Reactions

/-! ## The marks of a raise -/

/-- The STATUS bit of a raised source set, and its group's counter one higher (R476, R477). -/
def countRaise (s : State) (id : Nat) : State :=
  radd (rset s (statusReg id) (statusFld id)) (Reg.FLT_CNT (id / 64 % 64)) F.FLT_CNT_COUNT 1

/-- FLT_FIRST names a source if it named none (R487). -/
def nameFirst (s : State) (id : Nat) : State :=
  if ron s Reg.FLT_FIRST F.FLT_FIRST_VALID then s
  else rset (rput s Reg.FLT_FIRST F.FLT_FIRST_ID id) Reg.FLT_FIRST F.FLT_FIRST_VALID

/-- FLT_LAST names a source and whether it was forced (R487). -/
def nameLast (s : State) (id : Nat) (forced : Bool) : State :=
  rset (rbit (rput s Reg.FLT_LAST F.FLT_LAST_ID id) Reg.FLT_LAST F.FLT_LAST_FORCED forced) Reg.FLT_LAST F.FLT_LAST_VALID

section Marks
variable {s : State} {id a : Nat} {forced : Bool}

/-- The reactions of a raise leave the collector's registers as the marks left them. -/
theorem latchPlain_marks (h : mapWf hostReset (nameLast (nameFirst (countRaise s id) id) id forced).regs = true) :
    CollectorKept (nameLast (nameFirst (countRaise s id) id) id forced) (latchPlain s id forced) := by
  unfold latchPlain
  extract_lets first s1 s2 s3 s4 m s5 collector s6 s7
  have h4 : CollectorKept s4 s4 := .refl h
  have h5 : CollectorKept s4 s5 := .ite h4.faultInt h4
  have h6 : CollectorKept s4 s6 := .ite (h5.of_regs rfl) h5
  have h7 : CollectorKept s4 s7 := h6.driveFaultN
  exact .ite h4 (.ite (h7.of_regs rfl) h6)

theorem regs_countRaise (h : mapWf hostReset s.regs = true) : mapWf hostReset (countRaise s id).regs = true :=
  regs_rput (regs_rput h)

theorem regs_nameFirst (h : mapWf hostReset s.regs = true) : mapWf hostReset (nameFirst s id).regs = true :=
  iteInduction (motive := fun t : State => mapWf hostReset t.regs = true) (fun _ => h) fun _ => regs_rput (regs_rput h)

theorem regs_nameLast (h : mapWf hostReset s.regs = true) : mapWf hostReset (nameLast s id forced).regs = true :=
  regs_rput (regs_rput (regs_rput h))

theorem rd_nameFirst (h : mapWf hostReset s.regs = true) (ha : a ≠ Reg.FLT_FIRST) : rd (nameFirst s id) a = rd s a :=
  iteInduction (motive := fun t : State => rd t a = rd s a) (fun _ => rfl) fun _ =>
    (rd_rput_apart (regs_rput h) ha).trans (rd_rput_apart h ha)

theorem rd_nameLast (h : mapWf hostReset s.regs = true) (ha : a ≠ Reg.FLT_LAST) :
    rd (nameLast s id forced) a = rd s a :=
  (rd_rput_apart (regs_rput (regs_rput h)) ha).trans ((rd_rput_apart (regs_rput h) ha).trans (rd_rput_apart h ha))

theorem rget_rput_apart {f g : Fld} {v : Nat} (h : mapWf hostReset s.regs = true) (hg : g.lo + g.width ≤ 32)
    (hfg : f.lo + f.width ≤ g.lo ∨ g.lo + g.width ≤ f.lo) : rget (rput s a f v) a g = rget s a g :=
  (congrArg (fldGet g) (mapGet_set_same h)).trans (fldGet_fldPut_other hg hfg)

theorem nameLast_names (h : mapWf hostReset s.regs = true) (hid : id < 4096) :
    rget (nameLast s id forced) Reg.FLT_LAST F.FLT_LAST_ID = id ∧
      ron (nameLast s id forced) Reg.FLT_LAST F.FLT_LAST_VALID = true ∧
      ron (nameLast s id forced) Reg.FLT_LAST F.FLT_LAST_FORCED = forced := by
  have h1 := regs_rput (a := Reg.FLT_LAST) (f := F.FLT_LAST_ID) (v := id) h
  have h2 := regs_rput (a := Reg.FLT_LAST) (f := F.FLT_LAST_FORCED) (v := b2n forced) h1
  refine ⟨?_, ?_, ?_⟩
  · calc rget (nameLast s id forced) Reg.FLT_LAST F.FLT_LAST_ID
      _ = rget (rput s Reg.FLT_LAST F.FLT_LAST_ID id) Reg.FLT_LAST F.FLT_LAST_ID :=
        (rget_rput_apart h2 (by decide) (by decide)).trans (rget_rput_apart h1 (by decide) (by decide))
      _ = id := (rget_rput_listed h (by decide)).trans (Nat.mod_eq_of_lt hid)
  · exact congrArg (· != 0) (rget_rput_listed h2 (by decide))
  · have hbit : b2n forced % 2 ^ 1 = b2n forced := by cases forced <;> rfl
    have hforced : rget (nameLast s id forced) Reg.FLT_LAST F.FLT_LAST_FORCED = b2n forced :=
      (rget_rput_apart h2 (by decide) (by decide)).trans ((rget_rput_listed h1 (by decide)).trans hbit)
    rw [ron, hforced]
    cases forced <;> rfl

theorem nameFirst_names (h : mapWf hostReset s.regs = true) (hid : id < 4096)
    (hfree : ron s Reg.FLT_FIRST F.FLT_FIRST_VALID = false) :
    rget (nameFirst s id) Reg.FLT_FIRST F.FLT_FIRST_ID = id ∧
      ron (nameFirst s id) Reg.FLT_FIRST F.FLT_FIRST_VALID = true := by
  have h1 := regs_rput (a := Reg.FLT_FIRST) (f := F.FLT_FIRST_ID) (v := id) h
  rw [nameFirst, if_neg (by simp [hfree])]
  exact ⟨(rget_rput_apart h1 (by decide) (by decide)).trans
    ((rget_rput_listed h (by decide)).trans (Nat.mod_eq_of_lt hid)), congrArg (· != 0) (rget_rput_listed h1 (by decide))⟩

theorem statusReg_mem (id : Nat) : 0x4200 ≤ statusReg id ∧ statusReg id < 0x4400 := by
  simp only [statusReg, Reg.FLT_STAT_LO, Reg.FLT_STAT_HI]
  split <;> omega

/-- Two sources with one STATUS register and one bit of it are one source. -/
theorem statusReg_apart {k : Nat} (hk : k < 4096) (hid : id < 4096) (hne : k ≠ id) (hreg : statusReg k = statusReg id) :
    (statusFld k).lo ≠ (statusFld id).lo := by
  simp only [statusReg, statusFld, Reg.FLT_STAT_LO, Reg.FLT_STAT_HI] at hreg ⊢
  split at hreg <;> split at hreg <;> omega

theorem statusOf_countRaise_same (h : mapWf hostReset s.regs = true) : statusOf (countRaise s id) id = true := by
  have hcnt : statusReg id ≠ Reg.FLT_CNT (id / 64 % 64) := by
    have hmem := statusReg_mem id
    simp only [Reg.FLT_CNT]
    omega
  have hfld : (statusFld id).lo + (statusFld id).width ≤ 32 := by simp only [statusFld]; omega
  have hset : rget (countRaise s id) (statusReg id) (statusFld id) = 1 % 2 ^ 1 :=
    (congrArg (fldGet (statusFld id)) (rd_rput_apart (regs_rput h) hcnt)).trans (rget_rput_listed h hfld)
  exact congrArg (· != 0) hset

theorem statusOf_countRaise_other {k : Nat} (h : mapWf hostReset s.regs = true) (hk : k < 4096) (hid : id < 4096)
    (hne : k ≠ id) : statusOf (countRaise s id) k = statusOf s k := by
  have hcnt : statusReg k ≠ Reg.FLT_CNT (id / 64 % 64) := by
    have hmem := statusReg_mem k
    simp only [Reg.FLT_CNT]
    omega
  have hset : rget (rset s (statusReg id) (statusFld id)) (statusReg k) (statusFld k) =
      rget s (statusReg k) (statusFld k) := by
    by_cases hreg : statusReg k = statusReg id
    · have hbit := statusReg_apart hk hid hne hreg
      rw [hreg]
      refine rget_rput_apart h ?_ ?_ <;> simp only [statusFld] at hbit ⊢ <;> omega
    · exact congrArg (fldGet (statusFld k)) (rd_rput_apart h hreg)
  exact congrArg (· != 0) ((congrArg (fldGet (statusFld k)) (rd_rput_apart (regs_rput h) hcnt)).trans hset)

theorem countRaise_counts (h : mapWf hostReset s.regs = true) (hid : id < 4096) :
    rget (countRaise s id) (Reg.FLT_CNT (id / 64)) F.FLT_CNT_COUNT =
      min (rget s (Reg.FLT_CNT (id / 64)) F.FLT_CNT_COUNT + 1) (2 ^ F.FLT_CNT_COUNT.width - 1) := by
  have hgroup : id / 64 % 64 = id / 64 := by omega
  have hcnt : Reg.FLT_CNT (id / 64) ≠ statusReg id := by
    have hmem := statusReg_mem id
    simp only [Reg.FLT_CNT]
    omega
  have hread : rget (rset s (statusReg id) (statusFld id)) (Reg.FLT_CNT (id / 64)) F.FLT_CNT_COUNT =
      rget s (Reg.FLT_CNT (id / 64)) F.FLT_CNT_COUNT := congrArg (fldGet F.FLT_CNT_COUNT) (rd_rput_apart h hcnt)
  have hset : mapWf hostReset (rset s (statusReg id) (statusFld id)).regs = true := regs_rput h
  rw [countRaise, hgroup, radd, rget_rput_listed hset (by decide), hread]
  simp only [satNat]
  omega

theorem rd_countRaise (h : mapWf hostReset s.regs = true) (hstat : a < 0x4200 ∨ 0x4400 ≤ a)
    (hcnt : a ≠ Reg.FLT_CNT (id / 64 % 64)) : rd (countRaise s id) a = rd s a := by
  have hmem := statusReg_mem id
  exact (rd_rput_apart (regs_rput h) hcnt).trans (rd_rput_apart h (by omega))

end Marks

/-- Settles O56: the marks are four writes to the collector's registers, which the reactions leave alone. -/
theorem raiseMarksItsSource : Obligations.RaiseMarksItsSource := by
  unfold Obligations.RaiseMarksItsSource
  rintro s t id forced hwf hid rfl
  have h0 := wf_regs hwf
  have h1 := regs_countRaise (id := id) h0
  have h2 := regs_nameFirst (id := id) h1
  obtain ⟨-, hkept⟩ := latchPlain_marks (regs_nameLast (id := id) (forced := forced) h2)
  have hcount {a : Nat} (hlo : 0x4200 ≤ a) (hhi : a < 0x5000) : rd (latchPlain s id forced) a = rd (countRaise s id) a :=
    (hkept a (by omega) hhi).trans ((rd_nameLast h2 (by simp only [Reg.FLT_LAST]; omega)).trans
      (rd_nameFirst h1 (by simp only [Reg.FLT_FIRST]; omega)))
  have hstatus (k : Nat) : statusOf (latchPlain s id forced) k = statusOf (countRaise s id) k := by
    obtain ⟨hlo, hhi⟩ := statusReg_mem k
    rw [statusOf, ron, rget, hcount hlo (by omega), statusOf, ron, rget]
  have hlast : rd (latchPlain s id forced) Reg.FLT_LAST =
      rd (nameLast (nameFirst (countRaise s id) id) id forced) Reg.FLT_LAST := hkept _ (by decide) (by decide)
  have hfirst : rd (latchPlain s id forced) Reg.FLT_FIRST = rd (nameFirst (countRaise s id) id) Reg.FLT_FIRST :=
    (hkept _ (by decide) (by decide)).trans (rd_nameLast h2 (by decide))
  have hbefore : rd (countRaise s id) Reg.FLT_FIRST = rd s Reg.FLT_FIRST :=
    rd_countRaise h0 (.inl (by decide)) (by simp only [Reg.FLT_FIRST, Reg.FLT_CNT]; omega)
  have hvalid : ron (countRaise s id) Reg.FLT_FIRST F.FLT_FIRST_VALID = ron s Reg.FLT_FIRST F.FLT_FIRST_VALID := by
    rw [ron, rget, hbefore, ron, rget]
  obtain ⟨hlastId, hlastValid, hlastForced⟩ := nameLast_names (forced := forced) h2 hid
  refine ⟨?status, ?count, ?last, ?lastValid, ?lastForced, ?firstFree, ?firstTaken, ?otherStatus, ?otherCount⟩
  case status => exact (hstatus id).trans (statusOf_countRaise_same h0)
  case count =>
    rw [rget, hcount (by simp only [Reg.FLT_CNT]; omega) (by simp only [Reg.FLT_CNT]; omega), ← rget]
    exact countRaise_counts h0 hid
  case last => rw [rget, hlast]; exact hlastId
  case lastValid => rw [ron, rget, hlast]; exact hlastValid
  case lastForced => rw [ron, rget, hlast]; exact hlastForced
  case firstFree =>
    intro hfree
    rw [ron, rget, rget, hfirst]
    exact nameFirst_names h1 hid (hvalid.trans hfree)
  case firstTaken =>
    intro htaken
    rw [hfirst, nameFirst, if_pos (hvalid.trans htaken), hbefore]
  case otherStatus =>
    intro k hk hne
    exact (hstatus k).trans (statusOf_countRaise_other h0 hk hid hne)
  case otherCount =>
    intro g hg hne
    rw [hcount (by simp only [Reg.FLT_CNT]; omega) (by simp only [Reg.FLT_CNT]; omega)]
    exact rd_countRaise h0 (.inr (by simp only [Reg.FLT_CNT]; omega)) (by simp only [Reg.FLT_CNT]; omega)

end Sys2Proof.Machine

/-! PROOFS. The rings: the acceptance of a descriptor, FENCE, the queue pairs' states, doorbells, fetches and completions,
and the descriptors that ask a field die (R412, R421 to R449). -/

namespace Sys2Proof.Machine
open Sys2Proof Sys2Proof.Safety

/-! ## Acceptance (R433 to R435) -/

section Acceptance
variable {s : State} {d : DescRef} {op : Nat}

/-- An acceptable descriptor waits in flight with its opcode, the fences before it let it, and it is its queue pair's
turn. -/
theorem acceptable_parts (h : acceptable s d op = true) : ∃ f, opcodeOf f = op ∧
    fenceAllows ((qpAt s d.qp).flights.takeWhile (fun g => g.slot != d.slot.val)) f = true ∧ myTurn s d.qp = true := by
  unfold acceptable at h
  cases hf : flightAt s d with
  | none =>
    rw [hf] at h
    exact absurd h Bool.false_ne_true
  | some f =>
    simp only [hf, Bool.and_eq_true, beq_iff_eq] at h
    obtain ⟨⟨⟨⟨-, hop⟩, -⟩, hfence⟩, hturn⟩ := h
    exact ⟨f, hop, hfence, hturn⟩

/-- A descriptor that cannot be accepted now has no effect (log entry 3). -/
theorem onDesc_waits {k : State → List Byte → State} (h : acceptable s d op = false) : onDesc s d op k = .next s :=
  onHost_unchanged (if_neg (ne_true_of_eq_false h))

/-- A FENCE waits for every earlier descriptor of its queue pair. -/
theorem acceptable_fence_false
    (h : ∃ f ∈ (qpAt s d.qp).flights.takeWhile (fun f => f.slot != d.slot.val), f.result = none) :
    acceptable s d 0x02 = false := by
  refine Bool.eq_false_iff.mpr fun hacc => ?_
  obtain ⟨e, he, hrun⟩ := h
  obtain ⟨f, hop, hfence, -⟩ := acceptable_parts hacc
  simp only [fenceAllows, Bool.and_eq_true, hop, bne_self_eq_false, Bool.false_or, List.all_eq_true] at hfence
  have hdone : e.result.isSome = true := hfence.2 e he
  rw [hrun] at hdone
  exact absurd hdone (by decide)

/-- Behind a FENCE that runs no descriptor is accepted. -/
theorem acceptable_behind_fence (h : ∃ f ∈ (qpAt s d.qp).flights.takeWhile (fun f => f.slot != d.slot.val),
    opcodeOf f = 0x02 ∧ f.result = none) : acceptable s d op = false := by
  refine Bool.eq_false_iff.mpr fun hacc => ?_
  obtain ⟨e, he, hop, hrun⟩ := h
  obtain ⟨f, -, hfence, -⟩ := acceptable_parts hacc
  simp only [fenceAllows, Bool.and_eq_true, List.all_eq_true] at hfence
  have hpassed : (opcodeOf e != 0x02 || e.result.isSome) = true := hfence.1 e he
  rw [hop, hrun] at hpassed
  exact absurd hpassed (by decide)

/-- No descriptor is accepted out of its queue pair's turn (R434). -/
theorem acceptable_false_of_earlier {m r x : Nat} (hm : m < 64) (hown : (qpAt s d.qp).due.head? = some x)
    (hother : (qpAt s m).due.head? = some r)
    (h : r < x ∨ r = x ∧ m ∈ turnsBefore (if s.turns.read = x then s.turns.next else 0) d.qp ∧ canTurn s m = true) :
    acceptable s d op = false := by
  refine Bool.eq_false_iff.mpr fun hacc => ?_
  obtain ⟨-, -, -, hturn⟩ := acceptable_parts hacc
  simp only [myTurn, hown, Bool.and_eq_true, List.all_eq_true, List.mem_range] at hturn
  obtain ⟨hreads, hturns⟩ := hturn
  rcases h with hless | ⟨heq, hbefore, hcan⟩
  · have hle : x ≤ r := by simpa [hother] using hreads m hm
    omega
  · have hpassed : (!dueOf s x m || !canTurn s m) = true := hturns m hbefore
    rw [dueOf, hother, heq, hcan] at hpassed
    simp at hpassed

end Acceptance

/-- Settles O45: the inversion of acceptance, whose FENCE condition the running descriptor breaks. -/
theorem fenceWaits : Obligations.FenceWaits := by
  unfold Obligations.FenceWaits
  refine ⟨?fence, ?behind, ?accepted⟩
  case fence => exact fun d s h => ⟨acceptable_fence_false h, onDesc_waits (acceptable_fence_false h)⟩
  case behind =>
    exact fun d s h => ⟨fun op => acceptable_behind_fence h, fun op k => onDesc_waits (acceptable_behind_fence h)⟩
  case accepted => exact fun d bs s h => onDesc_ready h

/-! ## Descriptors without an effect, and those that ask a field die (R412, R438 to R440) -/

section Barrier
variable {s : State} {d : DescRef} {x : Die} {f : State → State}

theorem onBarrier_up (hdie : diePresent s x = true) (hfence : barFenced s x = false) (hlink : barLink s x = lkUp) :
    onBarrier s d x f = f s := by
  simp [onBarrier, hdie, hfence, hlink]

theorem onBarrier_notUp (hdie : diePresent s x = true) (hfence : barFenced s x = false) (hlink : barLink s x ≠ lkUp) :
    onBarrier s d x f = finish s d stNotReady 0 := by
  simp [onBarrier, hdie, hfence, hlink]

/-- A PARAM_READ of a field die asks the die over its barrier (R438). -/
theorem paramRead_field {bs : List Byte} (h : ready s d 0x18 bs) (hkind : par bs 8 0 4 = 3)
    (hmask : leAt bs 16 8 &&& (0xF00000010000FFFF : Nat) = leAt bs 16 8) :
    exec (.paramRead d) s =
      .next (onBarrier (markAccepted s d) d (dieBit (par bs 20 0 1)) (fun s => sendRead s d bs 0)) := by
  change execParamRead d s = _
  refine (onDesc_ready h).trans (congrArg _ ((if_neg ?_).trans (if_neg (not_not.mpr hmask))))
  rw [hkind]
  decide

/-- A FIELD_CMD with a code and a count that may be asks the die over its barrier (R439). -/
theorem fieldCmd_asks {bs : List Byte} (h : ready s d 0x68 bs)
    (hcode : fieldCodeOk (leAt bs 10 2) (par bs 12 0 4) = true) :
    exec (.fieldCmd d) s = .next (onBarrier (markAccepted s d) d (dieBit (par bs 8 0 1)) (fun s =>
      barCmd (if leAt bs 10 2 = 6 then noReply s (dieBit (par bs 8 0 1)) (leAt bs 16 8 % 65536) else s)
        (dieBit (par bs 8 0 1)) (leAt bs 10 2) 0 (if par bs 12 0 4 = 1 then [leAt bs 16 8] else []) (.command d))) := by
  change execFieldCmd d s = _
  refine (onDesc_ready h).trans (congrArg _ (if_neg ?_))
  simp [hcode]

end Barrier

theorem markAccepted_grid (s : State) (d : DescRef) : (markAccepted s d).grid = s.grid := by
  obtain ⟨_, _, h⟩ := markAccepted_parts s d
  rw [h]

/-- Settles O47: an accepted descriptor with good parameters runs, and one that asks a die does so over its barrier. -/
theorem plainDescriptorsComplete : Obligations.PlainDescriptorsComplete := by
  unfold Obligations.PlainDescriptorsComplete
  refine ⟨?nop, ?fence, ?table, ?field, ?command, ?commandDown, ?fieldDown, ?diagDown, ?diag, ?timeout⟩
  case nop =>
    intro d bs s h
    change execNop d s = _
    rw [execNop, onDesc_ready h, markAccepted_grid]
    rfl
  case fence => exact fun d bs s h => onDesc_ready h
  case table => exact fun d bs s h hkind => (onDesc_ready h).trans (congrArg _ (if_pos hkind))
  case field =>
    rintro d bs x s u h hkind hmask rfl rfl hdie hfence hlink
    rw [paramRead_field h hkind hmask, onBarrier_up hdie hfence hlink]
  case command =>
    rintro d bs x s u h rfl rfl hcode hplain hempty hdie hfence hlink
    rw [fieldCmd_asks h hcode, onBarrier_up hdie hfence hlink, if_neg hplain, hempty]
    rfl
  case commandDown =>
    rintro d bs x s u h rfl rfl hcode hdie hfence hlink
    rw [fieldCmd_asks h hcode, onBarrier_notUp hdie hfence hlink]
  case fieldDown =>
    rintro d bs x s u h hkind hmask rfl rfl hdie hfence hlink
    rw [paramRead_field h hkind hmask, onBarrier_notUp hdie hfence hlink]
  case diagDown =>
    rintro d bs x s u h rfl rfl hdie hfence hlink
    exact (onDesc_ready h).trans (congrArg _ (onBarrier_notUp hdie hfence hlink))
  case diag =>
    rintro d bs x s u v h rfl rfl hdie hfence hlink rfl
    exact (onDesc_ready h).trans (congrArg _ (onBarrier_up hdie hfence hlink))
  case timeout =>
    intro d r s hl hrun hlong
    change execDiagRunTimeout d s = _
    refine onHost_gives hl ?_
    simp only [hrun]
    exact if_pos (decide_eq_true hlong)

/-! ## Queue pairs -/

section Queues
variable {s u : State} {q : Fin 64} {w : Word}

/-- An entry goes to the next CQ index, which after the last goes back to 0 with PHASE inverted (R430, R431). -/
theorem writeCompletion_writes {f : Flight} {rest : List Flight} {r : Nat × Nat} {x : QpState}
    (hflights : (qpAt s q).flights = f :: rest) (hresult : f.result = some r) (hdma : mayDma s = true)
    (hroom : (qpAt s q).unread < cqDepth s q)
    (hu : u = putEntry s (entryAddr s q (qpAt s q).cq) (entryBytes f r.1 r.2 (qpAt s q).phase))
    (hnext : (qpAt s q).cq + 1 ≠ cqDepth u q →
      x = { qpAt s q with flights := rest, cq := (qpAt s q).cq + 1, unread := (qpAt s q).unread + 1 })
    (hwraps : (qpAt s q).cq + 1 = cqDepth u q →
      x = { qpAt s q with flights := rest, cq := 0, phase := !(qpAt s q).phase, unread := (qpAt s q).unread + 1 }) :
    writeCompletion s q = settleQueue (countCompletion (setRing u q x) q (par f.bytes 1 0 1 == 1)) q := by
  have hmay : ¬((!mayDma s || decide (cqDepth s q ≤ (qpAt s q).unread)) = true) := by simp [hdma, hroom]
  simp only [writeCompletion, hflights, hresult, if_neg hmay, ← hu]
  by_cases hlast : (qpAt s q).cq + 1 = cqDepth u q
  · simp [hwraps hlast, hlast]
  · simp [hnext hlast, hlast]

theorem depthOk_both (hsq : depthOk (rget s (Reg.HIF_QP_CFG q) F.HIF_QP_CFG_SQ_LOG2) = true)
    (hcq : depthOk (rget s (Reg.HIF_QP_CFG q) F.HIF_QP_CFG_CQ_LOG2) = true) :
    ¬((!depthOk (rget s (Reg.HIF_QP_CFG q) F.HIF_QP_CFG_SQ_LOG2) ||
      !depthOk (rget s (Reg.HIF_QP_CFG q) F.HIF_QP_CFG_CQ_LOG2)) = true) := by simp [hsq, hcq]

/-- EN = 1 in DISABLED first takes RECOVER as written (R424, R447). -/
theorem writeQpCtrl_enables (hst : qpStateOf s q = 0) (hen : fldGet F.HIF_QP_CTRL_EN w = 1) :
    writeQpCtrl s q w = enableQueue (rput s (Reg.HIF_QP_CTRL q) F.HIF_QP_CTRL_RECOVER
      (fldGet F.HIF_QP_CTRL_RECOVER w)) q (fldGet F.HIF_QP_CTRL_RECOVER w == 1) := by
  simp only [writeQpCtrl, hen]
  exact (if_pos hst).trans (if_pos rfl)

/-- A queue pair that recovers stands at the indices and the phase of its RESUME register (R447). -/
theorem enableQueue_recovers {i : Nat}
    (hsq : depthOk (rget u (Reg.HIF_QP_CFG q) F.HIF_QP_CFG_SQ_LOG2) = true)
    (hcq : depthOk (rget u (Reg.HIF_QP_CFG q) F.HIF_QP_CFG_CQ_LOG2) = true)
    (hwf : Memory.wf s = true) (hu : u = rput s (Reg.HIF_QP_CTRL q) F.HIF_QP_CTRL_RECOVER i) :
    enableQueue u q true = { setRing (setQpState (rset u (Reg.HIF_QP_CTRL q) F.HIF_QP_CTRL_EN) q 3) q
      ⟨rget s (Reg.HIF_QP_RESUME q) F.HIF_QP_RESUME_SQ_IDX % sqDepth s q,
        rget s (Reg.HIF_QP_RESUME q) F.HIF_QP_RESUME_CQ_IDX % cqDepth s q,
        ron s (Reg.HIF_QP_RESUME q) F.HIF_QP_RESUME_PHASE,
        rget s (Reg.HIF_QP_RESUME q) F.HIF_QP_RESUME_SQ_IDX % sqDepth s q,
        rget s (Reg.HIF_QP_RESUME q) F.HIF_QP_RESUME_CQ_IDX % cqDepth s q, 0, [], 0, 0, false, false, []⟩ with
      doorbell := true } := by
  have hkept {a : Nat} (ha : a ≠ Reg.HIF_QP_CTRL q) : rd (rset u (Reg.HIF_QP_CTRL q) F.HIF_QP_CTRL_EN) a = rd s a := by
    rw [hu]
    exact (rd_rput_apart (regs_rput (wf_regs hwf)) ha).trans (rd_rput_apart (wf_regs hwf) ha)
  have hresume := hkept (a := Reg.HIF_QP_RESUME q) (by simp only [Reg.HIF_QP_RESUME, Reg.HIF_QP_CTRL]; omega)
  have hcfg := hkept (a := Reg.HIF_QP_CFG q) (by simp only [Reg.HIF_QP_CFG, Reg.HIF_QP_CTRL]; omega)
  rw [enableQueue, if_neg (depthOk_both hsq hcq)]
  simp only [if_true, ron, rget, sqDepth, cqDepth, hresume, hcfg, qpRecovering]

end Queues

/-- Settles O46: each command is the branch of its meaning that the hypotheses choose. -/
theorem ringsComplete : Obligations.RingsComplete := by
  unfold Obligations.RingsComplete
  refine ⟨?kick, ?doorbell, ?turns, ?fetch, ?completion, ?modTime, ?enable, ?recover, ?disable, ?narrow⟩
  case kick =>
    intro w s hmay hgo hany hbme
    refine (onBar_may hmay).trans (congrArg _ ((if_pos hgo).trans (if_pos ?_)))
    rw [hany, hbme, Bool.and_self]
  case doorbell =>
    rintro bs s u hl hasked hdma hany rfl
    change execDoorbellRead (some bs) s = _
    refine onHost_gives hl ((if_neg ?_).trans (if_neg ?_)) <;> simp [hasked, hdma, hany]
  case turns => exact fun d op m r x s hm hown hother h => acceptable_false_of_earlier hm hown hother h
  case fetch =>
    intro q bs s hl hfetch hlen
    have hmay : ¬((!mayFetch s q) = true) := by simp [hfetch]
    have hbytes : bytesAt bs 0 64 = bs := bytesAt_all hlen
    change execDescriptorFetch q (some bs) false s = _ ∧ execDescriptorFetch q (some bs) true s = _ ∧
      (_ → execDescriptorFetch q none false s = _)
    refine ⟨?_, ?_, ?_⟩
    · refine onHost_gives hl ((if_neg hmay).trans ?_)
      simp only [hbytes, Bool.false_eq_true, if_false]
    · refine onHost_gives hl ((if_neg hmay).trans ?_)
      simp only [hbytes, if_true]
    · intro herror
      exact onHost_gives hl ((if_neg hmay).trans (if_neg herror))
  case completion =>
    intro q f rest r s u x hl hflights hresult hdma hroom hu hnext hwraps
    change execCompletionWrite q s = _
    exact onHost_gives hl (writeCompletion_writes hflights hresult hdma hroom hu hnext hwraps)
  case modTime =>
    intro q s hl hirq htime hcount hlong
    change execModTimeExpiry q s = _
    refine onHost_gives hl (if_pos ?_)
    simpa [hirq, htime, hcount, ticksReach] using hlong
  case enable =>
    rintro q w s u hmay hst hen hplain rfl hsq hcq
    refine (onBar_may hmay).trans (congrArg _ ((writeQpCtrl_enables hst hen).trans ?_))
    rw [hplain]
    exact if_neg (depthOk_both hsq hcq)
  case recover =>
    intro q w s u hmay hst hen hrecover hu hsq hcq hwf
    have hwrite := writeQpCtrl_enables hst hen
    rw [hrecover, ← hu] at hwrite
    have hrun := (onBar_may (a := Reg.HIF_QP_CTRL q) (f := hostQueueRecover q w) hmay).trans
      (congrArg _ (hwrite.trans (enableQueue_recovers hsq hcq hwf hu)))
    exact ⟨_, hrun, rfl, rfl, rfl, rfl, rfl, rfl, rfl⟩
  case disable =>
    intro q w s hmay hst hen hsame
    refine (onBar_may hmay).trans (congrArg _ ?_)
    have hon : qpStateOf s q ≠ qpDisabled := by rw [hst]; decide
    simp only [hostQueueDisable, writeQpCtrl, hen]
    exact (if_neg hon).trans ((if_neg (not_not.mpr hsame)).trans ((if_neg (by decide)).trans (if_pos hst)))
  case narrow =>
    intro s hl
    change execBar0NarrowWrite s = _
    exact onHost_live hl

end Sys2Proof.Machine

/-! PROOFS. The fault collector: clearing, masks, injection, the self-test, scans and leaving a fence, and the temperature
sensors (R475 to R486, R500). -/

namespace Sys2Proof.Machine
open Sys2Proof Sys2Proof.Safety

/-! ## Clearing and masks (R477, R479, R480, R500) -/

section Masks
variable {s : State} {w : Word}

theorem hostFltCfg_refuses (hopen : ron s Reg.SYS_LOCK F.SYS_LOCK_LOCK = false)
    (h : rget s Reg.FLT_SEL F.FLT_SEL_ID = 0x610 ∨ sourceExists s (rget s Reg.FLT_SEL F.FLT_SEL_ID) = false) :
    hostFltCfg w s = rset s Reg.FLT_STAT F.FLT_STAT_REFUSED :=
  (if_neg (ne_true_of_eq_false hopen)).trans (if_pos (h.imp_right (Bool.not_eq_true' _).mpr))

theorem hostFltCfg_stores (hopen : ron s Reg.SYS_LOCK F.SYS_LOCK_LOCK = false)
    (hfree : rget s Reg.FLT_SEL F.FLT_SEL_ID ≠ 0x610)
    (hex : sourceExists s (rget s Reg.FLT_SEL F.FLT_SEL_ID) = true) :
    hostFltCfg w s = setMask s (rget s Reg.FLT_SEL F.FLT_SEL_ID) (fldGet F.FLT_CFG_MASK w) := by
  refine (if_neg (ne_true_of_eq_false hopen)).trans (if_neg ?_)
  rintro (hfixed | hnone)
  · exact hfree hfixed
  · simp [hex] at hnone

end Masks

/-- Settles O51: a write of the collector's registers ends a self-test and does the branch its bits choose. -/
theorem faultClearingComplete : Obligations.FaultClearingComplete := by
  unfold Obligations.FaultClearingComplete
  refine ⟨?status, ?group, ?count, ?mask, ?refused, ?masks, ?locked, ?lockedGroup⟩
  case status => exact fun g hi w s hmay => onFlt_may hmay
  case group => exact fun w s hmay hgo => (onFlt_may hmay).trans (congrArg _ (if_pos hgo))
  case count => exact fun g w s hmay hclr => (onFlt_may hmay).trans (congrArg _ (if_pos hclr))
  case mask =>
    rintro w id s u hmay rfl rfl hopen hfree hex
    exact (onFlt_may hmay).trans (congrArg _ (hostFltCfg_stores hopen hfree hex))
  case refused =>
    rintro w id s u hmay rfl rfl hopen h
    exact (onFlt_may hmay).trans (congrArg _ (hostFltCfg_refuses hopen h))
  case masks =>
    rintro w s u hmay rfl hgo hopen
    refine (onFlt_may hmay).trans (congrArg _ (if_neg ?_))
    rw [hgo, hopen]
    decide
  case locked => exact fun w s hmay hlock => (onFlt_may hmay).trans (congrArg _ (if_pos hlock))
  case lockedGroup =>
    rintro w s u hmay rfl hlock
    exact (onFlt_may hmay).trans (congrArg _ (if_pos (.inr hlock)))

/-! ## Injection, the self-test and scans (R484 to R486) -/

section Injection
variable {s : State} {w : Word}

theorem hostFltForce_refuses (hgo : fldGet F.FLT_FORCE_GO w = 1)
    (h : ron (compareCtrl s) Reg.FLT_CTRL F.FLT_CTRL_INJ_EN = false ∨
      sourceExists (compareCtrl s) (fldGet F.FLT_FORCE_ID w) = false) :
    hostFltForce w s = rset (compareCtrl s) Reg.FLT_STAT F.FLT_STAT_REFUSED := by
  refine (if_neg (by omega)).trans (if_pos ?_)
  simpa only [Bool.or_eq_true, Bool.not_eq_true'] using h

/-- With INJ_EN a source that exists is forced; the fixed one starts the self-protection path (R486). -/
theorem hostFltForce_forces (hgo : fldGet F.FLT_FORCE_GO w = 1)
    (hinj : ron (compareCtrl s) Reg.FLT_CTRL F.FLT_CTRL_INJ_EN = true)
    (hex : sourceExists (compareCtrl s) (fldGet F.FLT_FORCE_ID w) = true) :
    hostFltForce w s = if fldGet F.FLT_FORCE_ID w = 0x610 then selfTrip (compareCtrl s) true
      else raiseForced (compareCtrl s) (fldGet F.FLT_FORCE_ID w) (forcedInst (fldGet F.FLT_FORCE_ID w))
        (forcedDatum (compareCtrl s) (fldGet F.FLT_FORCE_ID w)) := by
  refine (if_neg (by omega)).trans (if_neg ?_)
  simp [hinj, hex]

theorem hostFltUnfence_refuses (hgo : fldGet F.FLT_UNFENCE_GO w = 1)
    (hheld : (unfenceUnits s (fldGet F.FLT_UNFENCE_ID w)).any (unitHeld s) = true) :
    hostFltUnfence w s = rset s Reg.FLT_STAT F.FLT_STAT_REFUSED := by
  refine (if_neg (by omega)).trans (if_pos ?_)
  rw [hheld, Bool.or_true]

theorem hostFltUnfence_leaves (hgo : fldGet F.FLT_UNFENCE_GO w = 1)
    (hex : sourceExists s (fldGet F.FLT_UNFENCE_ID w) = true) (hsome : unfenceUnits s (fldGet F.FLT_UNFENCE_ID w) ≠ [])
    (hfree : (unfenceUnits s (fldGet F.FLT_UNFENCE_ID w)).any (unitHeld s) = false) :
    hostFltUnfence w s =
      forEach ((unfenceUnits s (fldGet F.FLT_UNFENCE_ID w)).filter (unitFenced s)) s unfenceUnit := by
  refine (if_neg (by omega)).trans (if_neg ?_)
  simp [hex, hfree, hsome]

end Injection

/-- Settles O52: each write compares FLT_CTRL or ends a self-test first, and then does the branch its fields choose. -/
theorem faultInjectionComplete : Obligations.FaultInjectionComplete := by
  unfold Obligations.FaultInjectionComplete
  refine ⟨?force, ?trip, ?refused, ?firstKey, ?secondKey, ?upset, ?scan, ?release, ?unfence, ?held⟩
  case force =>
    rintro w id s u hmay rfl rfl hgo hinj hex hfree
    exact (onFlt_may hmay).trans (congrArg _ ((hostFltForce_forces hgo hinj hex).trans (if_neg hfree)))
  case trip =>
    rintro w s u hmay rfl hid hgo hinj
    have hex : sourceExists (compareCtrl (endSelftest s)) (fldGet F.FLT_FORCE_ID w) = true := by rw [hid]; rfl
    exact (onFlt_may hmay).trans (congrArg _ ((hostFltForce_forces hgo hinj hex).trans (if_pos hid)))
  case refused =>
    rintro w s u hmay rfl hgo h
    exact (onFlt_may hmay).trans (congrArg _ (hostFltForce_refuses hgo h))
  case firstKey =>
    rintro w s u hmay rfl hkey hinj
    exact (onBar_may hmay).trans (congrArg _ (if_pos ⟨hkey, hinj⟩))
  case secondKey =>
    rintro w s u hmay rfl hkey hinj hfirst
    refine (onBar_may hmay).trans (congrArg _ ((if_neg ?_).trans (if_pos ⟨hkey, hinj, hfirst⟩)))
    rw [hkey]
    exact fun h => absurd h.1 (by decide)
  case upset =>
    rintro x k n s u hp hkey rfl
    change execConfigurationScan (some x) s = _
    refine congrArg _ ((if_neg (by simp [hp])).trans ?_)
    simp only [upsetConfig, hkey]
    rfl
  case scan =>
    intro s hp
    change execConfigurationScan none s = _
    exact congrArg _ (if_neg (by simp [hp]))
  case release =>
    rintro s u c hp rfl hhold hlong
    change execFaultNMinExpiry s = _
    refine congrArg _ ((if_neg (by simp [hp])).trans ?_)
    simp only [hhold]
    exact if_pos hlong
  case unfence =>
    rintro w id us s u hmay rfl rfl rfl hgo hex hsome hfree
    exact (onFlt_may hmay).trans (congrArg _ (hostFltUnfence_leaves hgo hex hsome hfree))
  case held =>
    rintro w id s u hmay rfl rfl hgo hheld
    exact (onFlt_may hmay).trans (congrArg _ (hostFltUnfence_refuses hgo hheld))

/-! ## The temperature sensors, the watchdog and the recorder's times (R475, R491 to R496) -/

section Sensors
variable {s : State} {n : Fin 5}

/-- A reading is stored and judged (R475). -/
theorem execThermalSensorReading_some {r : BitVec 16} (hp : s.powered = true) :
    exec (.thermalSensorReading n (some r)) s = .next (judgeReading
      (noteSensor (rput s (thermPlace n).1 (thermPlace n).2 (wrapTo 16 r.toInt)) n true) n r.toInt) := by
  change execThermalSensorReading n (some r) s = _
  exact congrArg _ (if_neg (by simp [hp]))

/-- Where FLT_THERM's copies agree, a reading of H0 to H3 is judged against WARN and CRIT as they stand (R475, R484). -/
theorem judgeReading_host {k : Nat} {v : Int} (hk : k < 4) (hflips : flipsAt s thermKey = 0) :
    judgeReading s k v = thermJudge (thermJudge s (0x5C0 + k) k v (16 * rget s Reg.FLT_THERM F.FLT_THERM_WARN)
        (decide (16 * (rget s Reg.FLT_THERM F.FLT_THERM_WARN : Int) ≤ v))) (0x5C4 + k) k v
      (max (16 * rget s Reg.FLT_THERM F.FLT_THERM_WARN) (16 * rget s Reg.FLT_THERM F.FLT_THERM_CRIT))
      (decide (max (16 * (rget s Reg.FLT_THERM F.FLT_THERM_WARN : Int)) (16 * rget s Reg.FLT_THERM F.FLT_THERM_CRIT) ≤
        v)) := by
  have hkeep : compareWord s thermKey = s := if_pos hflips
  rw [judgeReading, if_neg (by omega)]
  simp only [hkeep]

end Sensors

/-- Settles O53: each command is the branch of its meaning that the hypotheses choose. -/
theorem sensorsAndLimitsComplete : Obligations.SensorsAndLimitsComplete := by
  unfold Obligations.SensorsAndLimitsComplete
  refine ⟨?dram, ?host, ?failed, ?watchdog, ?refill, ?save, ?saveFails, ?mark, ?latch⟩
  case dram =>
    rintro r s u hp rfl
    exact execThermalSensorReading_some hp
  case host =>
    rintro n r s u warn crit hp hn hflips rfl rfl rfl
    rw [execThermalSensorReading_some hp]
    exact congrArg _ (judgeReading_host hn hflips)
  case failed =>
    rintro n k rest v s u hp hothers rfl rfl
    change execThermalSensorReading n none s = _
    refine congrArg _ ((if_neg (by simp [hp])).trans ?_)
    simp only [highestValid, hothers]
    rfl
  case watchdog =>
    rintro s u x hp hsup rfl rfl
    change execSupervisorWatchdog s = _
    exact congrArg _ (if_neg (by simp [hp, hsup]))
  case refill =>
    intro k s hp
    change execTokenRefill k s = _
    exact congrArg _ (if_pos hp)
  case save =>
    intro s hp hsup
    change execOptimeSave true s = _
    exact congrArg _ ((if_neg (by simp [hp, hsup])).trans (if_neg (by decide)))
  case saveFails =>
    intro s hp hsup
    change execOptimeSave false s = _
    exact congrArg _ ((if_neg (by simp [hp, hsup])).trans (if_pos rfl))
  case mark =>
    intro s t hp hmarked hday
    change execTimeMark s = _
    simp only [execTimeMark, hmarked]
    exact congrArg _ (if_pos (by simp [hp, hday]))
  case latch => exact fun s hmay => onBar_may hmay

end Sys2Proof.Machine

/-! PROOFS. The event recorder and PFAIL_N: host events, commits, reads and clears of the log, and the fall and the rise of
the supply (R491 to R499, R521, R523). -/

namespace Sys2Proof.Machine
open Sys2Proof Sys2Proof.Safety

/-! ## The log -/

/-- `t` is `s` but for what a record of the counters' ring writes: the flash and the ring's place (R519). -/
def Saved (s t : State) : Prop :=
  ∃ flash ring, t = { s with flash := flash, recorder := { s.recorder with ring := ring } }

section Saved
variable {s t u : State}

theorem Saved.trans (h : Saved s t) (k : Saved t u) : Saved s u := by
  obtain ⟨_, _, rfl⟩ := h
  obtain ⟨_, _, rfl⟩ := k
  exact ⟨_, _, rfl⟩

theorem saved_flashErase (s : State) (a n : Nat) : Saved s (flashErase s a n) := ⟨_, _, rfl⟩

theorem saved_putRecord (s : State) (type : Nat) (payload : List Byte) : Saved s (putRecord s type payload) :=
  ⟨_, _, rfl⟩

theorem saved_appendRecord (s : State) (type : Nat) (payload : List Byte) : Saved s (appendRecord s type payload) := by
  have hput := saved_putRecord s type payload
  have hcopied (l : List (List Byte)) : Saved s (forEach l (putRecord s type payload)
      (fun s b => putRecord s (leAt b 0 1) (bytesAt b 8 20))) :=
    List.foldlRecOn (motive := Saved s) l _ hput fun u hu b _ => hu.trans (saved_putRecord ..)
  exact iteInduction (motive := Saved s) (fun _ => (hcopied _).trans (saved_flashErase ..)) fun _ => hput

theorem saved_saveEpoch (s : State) (clearing : Bool) : Saved s (saveEpoch s clearing) := saved_appendRecord ..

end Saved

/-- After the erase record 0 is LOG_CLEARED and the records that waited follow it, all of which the buffer holds (R499). -/
theorem execLogEraseDone_clears {s : State} (hp : s.powered = true)
    (hbusy : ron s Reg.EVR_STAT F.EVR_STAT_CLEAR_BUSY = true) (hlevel : ron s Reg.BOOT_PFAIL F.BOOT_PFAIL_LEVEL = true)
    (hroom : s.recorder.buffer.length < 16384) : ∃ t, execLogEraseDone s = .next t ∧
      t.recorder.buffer = ⟨0x1843, 0x3FF, false, 0, s.recorder.optime, s.recorder.pcc, s.recorder.clearOld⟩ ::
        s.recorder.buffer ∧
      t.recorder.voids = [] ∧ t.recorder.seals = [] ∧ t.gsram = s.gsram ∧ t.dram = s.dram ∧ t.hostMem = s.hostMem := by
  obtain ⟨flash, ring, hsaved⟩ := (saved_flashErase s logAt logBytes).trans (saved_saveEpoch _ false)
  have hlost : (s.recorder.buffer.length + 1) - bufferSize = 0 := by simp only [bufferSize]; omega
  have hall : s.recorder.buffer.take (bufferSize - 1) = s.recorder.buffer :=
    List.take_of_length_le (by simp only [bufferSize]; omega)
  refine ⟨_, congrArg Host.Outcome.next (if_neg (by simp [hp, hbusy, hlevel])), ?_⟩
  rw [hsaved]
  simp only [List.length_cons, hlost, if_true]
  exact ⟨congrArg _ hall, rfl, rfl, rfl, rfl, rfl⟩

/-- Settles O54: each command is the branch of its meaning that the hypotheses choose. -/
theorem eventLogComplete : Obligations.EventLogComplete := by
  unfold Obligations.EventLogComplete
  refine ⟨?host, ?commit, ?read, ?firstKey, ?secondKey, ?erased⟩
  case host =>
    rintro w s u hmay rfl hgo
    exact (onBar_may hmay).trans (congrArg _ (if_pos hgo))
  case commit =>
    intro fs s hp hruns hdue
    change execEventCommit fs s = _
    exact congrArg _ (if_pos (by simp [hp, hruns, hdue]))
  case read =>
    rintro d bs n total s u h rfl rfl rfl
    exact onDesc_ready h
  case firstKey =>
    intro w s hmay hkey hopen hidle
    exact (onBar_may hmay).trans (congrArg _ ((if_neg (by simp [hopen, hidle])).trans (if_pos hkey)))
  case secondKey =>
    intro w c s hmay hkey hopen hidle hfirst hsoon
    have hother : fldGet F.EVR_CLEAR_KEY w ≠ 0xC1EA := by rw [hkey]; decide
    refine (onBar_may hmay).trans (congrArg _ ((if_neg (by simp [hopen, hidle])).trans ?_))
    refine (if_neg hother).trans ((if_pos hkey).trans ?_)
    simp only [hfirst]
    exact if_pos hsoon
  case erased => exact fun s hp hbusy hlevel hroom => execLogEraseDone_clears hp hbusy hlevel hroom

/-! ## Rate limits of host events (R493, R495) -/

section Offer
variable {s : State} {r : EvRec} {code inst d : Nat} {forced : Bool}

theorem enterBuffer_room (hfull : ron s Reg.EVR_STAT F.EVR_STAT_LOG_FULL = false)
    (hroom : s.recorder.buffer.length < bufferSize) :
    (enterBuffer s r).1.recorder = { s.recorder with buffer := s.recorder.buffer ++ [r] } := by
  unfold enterBuffer
  rw [if_neg (ne_true_of_eq_false hfull), if_neg (Nat.not_le.mpr hroom)]
  dsimp only
  split <;> rfl

/-- None of the sixteen host codes is exempt from its bucket. -/
theorem exemptCode_host {n : Nat} (hn : n < 16) : exemptCode (0x18F0 + n) = false := by
  have hrange : ¬0x18F0 + n ≤ 0x1843 := by omega
  have hlone : 0x18F0 + n ≠ 0x1810 := by omega
  simp [exemptCode, hrange, hlone]

theorem offer_suppressed {b : Bucket} (hcode : exemptCode code = false)
    (hb : b = bucketAt (bucketOf s code) (rateLimit s code) (recorderNow s)) (hempty : b.tokens = 0) :
    (offer s code inst forced d).1 = radd (setBucket s code { b with suppressed := b.suppressed + 1 })
      Reg.EVR_SUPP_TOTAL F.EVR_SUPP_TOTAL_COUNT 1 := by
  simp only [offer, hcode, ← hb, hempty, Bool.false_eq_true, if_false, if_true]

theorem offer_taken {b : Bucket} (hcode : exemptCode code = false)
    (hb : b = bucketAt (bucketOf s code) (rateLimit s code) (recorderNow s)) (htoken : 0 < b.tokens) :
    offer s code inst forced d = enterBuffer (setBucket s code { b with tokens := b.tokens - 1, suppressed := 0 })
      ⟨code, inst % 1024, forced, suppCode b.suppressed, s.recorder.optime, s.recorder.pcc, d % 2 ^ 32⟩ := by
  simp only [offer, hcode, ← hb, Nat.ne_of_gt htoken, Bool.false_eq_true, if_false]

end Offer

/-- Settles O55: GO chooses the branch of the write, and the token that of the offered record. -/
theorem hostEventRecorded : Obligations.HostEventRecorded := by
  unfold Obligations.HostEventRecorded
  refine ⟨?records, ?idle, ?bucket⟩
  case records =>
    rintro w s u hmay rfl hgo
    exact (onBar_may hmay).trans (congrArg _ (if_pos hgo))
  case idle =>
    intro w s hmay hgo
    exact (onBar_may hmay).trans (congrArg _ (if_neg (by omega)))
  case bucket =>
    intro n inst d s b hn hb
    constructor
    · intro hempty
      rw [offer_suppressed (exemptCode_host hn) hb hempty]
      exact ⟨rfl, rfl⟩
    · intro htoken hroom hfull
      rw [offer_taken (exemptCode_host hn) hb htoken, enterBuffer_room (s := setBucket s _ _) hfull hroom]
      exact ⟨rfl, rfl⟩

/-! ## PFAIL_N -/

/-- Settles O57: each command is the branch that PFAIL_N's bits choose. -/
theorem powerFailComplete : Obligations.PowerFailComplete := by
  unfold Obligations.PowerFailComplete
  refine ⟨?fall, ?rise, ?done⟩
  case fall =>
    rintro s u hp hlevel rfl
    change execPfailFall s = _
    exact congrArg _ (if_neg (by simp [hp, hlevel]))
  case rise =>
    intro s hp
    change (_ → execPfailRise s = _) ∧ (_ → execPfailRise s = _)
    have hrises : execPfailRise s = .next (if s.boot.repairDue = true then
        repairStore (rset s Reg.BOOT_PFAIL F.BOOT_PFAIL_LEVEL) else rset s Reg.BOOT_PFAIL F.BOOT_PFAIL_LEVEL) :=
      congrArg _ (if_neg (by simp [hp]))
    constructor
    · intro hnone
      rw [hrises, if_neg (ne_true_of_eq_false hnone)]
    · intro hdue
      rw [hrises, if_pos hdue]
  case done =>
    intro us s hp hactive
    change execPfailSetDone us s = _
    exact congrArg _ (if_pos (by simp [hp, hactive]))

end Sys2Proof.Machine

/-! PROOFS. The boot ROM, recovery mode and its mailbox, the supervisor's start, and flash work from the host (R504 to
R518, R528). -/

namespace Sys2Proof.Machine
open Sys2Proof Sys2Proof.Safety

/-! ## The ROM and the supervisor's start -/

section Rom
variable {s w : State} {f : RomFlash}

/-- The ROM reports what it found of the OTP and goes on from step 3, or ends with a flash error (R504, R514). -/
theorem execBootRomStart_eq (hp : s.powered = true) (hrom : s.boot.romUp = false) (hsup : s.boot.supervisor = false)
    (hmode : ron s Reg.BOOT_STAT F.BOOT_STAT_MODE = false) (hgood : f.otpBad = none → w = romStepOne s)
    (hbad : ∀ a, f.otpBad = some a → w = raise (romStepOne s) 0x606 noInst a.toNat) :
    exec (.bootRomStart f) s = .next (if f.identified = true then romFromCount w f
      else enterRecovery (raise w 0x547 noInst 0) 4) := by
  have hstart : exec (.bootRomStart f) s = .next (if (!f.identified) = true then
      enterRecovery (raise w 0x547 noInst 0) 4 else romFromCount w f) := by
    change execBootRomStart f s = _
    refine congrArg _ ((if_neg (by simp [hp, hrom, hsup, hmode])).trans ?_)
    cases hotp : f.otpBad with
    | none => simp only [hgood hotp]
    | some a => simp only [hbad a hotp]
  rw [hstart]
  cases f.identified <;> rfl

theorem romFromCount_counts (h : w.boot.powerOn = false ∨
    ron w Reg.BOOT_PFAIL F.BOOT_PFAIL_LEVEL = true ∧ f.cut ≠ some .record) :
    romFromCount w f = if (countPower w).boot.recovLow = true then recoverAsked (countPower w)
      else romFromCopy (countPower w) f := by
  refine (if_neg ?_).trans (if_neg ?_)
  · rcases h with hoff | ⟨hlevel, -⟩
    · simp [hoff]
    · simp [hlevel]
  · rcases h with hoff | ⟨-, hwhole⟩
    · simp [hoff]
    · simp [hwhole]

theorem romFromCount_spoils (hon : w.boot.powerOn = true) (hlevel : ron w Reg.BOOT_PFAIL F.BOOT_PFAIL_LEVEL = true)
    (hcut : f.cut = some .record) : romFromCount w f = spoilRecord w :=
  (if_neg (by simp [hlevel])).trans (if_pos (by simp [hon, hcut]))

theorem romFromCount_waits (hon : w.boot.powerOn = true) (hlevel : ron w Reg.BOOT_PFAIL F.BOOT_PFAIL_LEVEL = false) :
    romFromCount w f = w := if_pos (by simp [hon, hlevel])

end Rom

/-! ## The mailbox (R514, R515) -/

section Mailbox
variable {s u : State} {w : Word}

/-- An activation's check gives the staged image's verdict, and a refusal undoes an activation (R510, R511). -/
theorem checkStaged_eq {len v : Nat}
    (hv : v = if len = imLength s stagingAt then imVerdict s stagingAt else stInvalidParam) :
    checkStaged s len = if v = stOk then (s, v) else (raise (undoActivation s) 0x545 noInst 0, v) := by
  simp only [checkStaged, ite_not, ← hv]

/-- A block that passes the mailbox's checks becomes the work in progress (R509, R515). -/
theorem execBootMbBlock_starts {bs : List Byte} {offset len : Nat} (hrec : inRecovery s = true)
    (hu : u = rwrite s Reg.BOOT_MB_CMD w) (hoffset : offset = (rd u Reg.BOOT_MB_OFFSET).toNat)
    (hlen : len = (rd u Reg.BOOT_MB_LEN).toNat) (hgo : fldGet F.BOOT_MB_CMD_GO w = 1)
    (hop : fldGet F.BOOT_MB_CMD_OP w = 1) (hplace : offset % 4096 = 0) (hsome : len ≠ 0) (hmost : len ≤ 65536)
    (hinside : offset + len ≤ 25165824) (hidle : mailboxBusy u = false) (hmay : mailboxRefusal u = none)
    (hcrc : crc32c (bytesAt bs 0 len) = (rd (undoActivation u) Reg.BOOT_MB_CRC).toNat) :
    execBootMbBlock w (some bs) s = .next (refreshFlashBusy (rset
      { undoActivation u with boot := { (undoActivation u).boot with work := some (.block offset (bytesAt bs 0 len), none) } }
      Reg.BOOT_MB_STAT F.BOOT_MB_STAT_BUSY)) := by
  have hasked : ¬(fldGet F.BOOT_MB_CMD_GO w = 0 ∨ fldGet F.BOOT_MB_CMD_OP w ≠ 1 ∨ mailboxBusy u = true) := by
    simp [hgo, hop, hidle]
  have hfits : ¬(offset % 4096 ≠ 0 ∨ len = 0 ∨ 65536 < len ∨ imageMax < offset + len) := by
    simp only [imageMax]
    omega
  refine congrArg _ ((if_neg (by simp [hrec])).trans ?_)
  simp only [← hu, ← hoffset, ← hlen, if_neg hasked, if_neg hfits, hmay]
  exact if_neg (not_not.mpr hcrc)

theorem execBootMbActivate_checks {f : RomFlash} {v : Nat} (hrec : inRecovery s = true)
    (hu : u = rwrite s Reg.BOOT_MB_CMD w) (hgo : fldGet F.BOOT_MB_CMD_GO w = 1) (hop : fldGet F.BOOT_MB_CMD_OP w = 2)
    (hidle : mailboxBusy u = false) (hmay : mailboxRefusal u = none)
    (hv : v = if (rd u Reg.BOOT_MB_LEN).toNat = imLength u stagingAt then imVerdict u stagingAt else stInvalidParam) :
    execBootMbActivate w f s = .next (if v = stOk then romFromCopy (mailboxEnd (activateStaged u) stOk) f
      else mailboxEnd (raise (undoActivation u) 0x545 noInst 0) v) := by
  have hasked : ¬(fldGet F.BOOT_MB_CMD_GO w = 0 ∨ fldGet F.BOOT_MB_CMD_OP w ≠ 2 ∨ mailboxBusy u = true) := by
    simp [hgo, hop, hidle]
  refine congrArg _ ((if_neg (by simp [hrec])).trans ?_)
  simp only [← hu, if_neg hasked, hmay, checkStaged_eq hv]
  by_cases hok : v = stOk
  · simp [hok]
  · simp [hok]

end Mailbox

/-- Settles O58: each command is the branch of its meaning that the hypotheses choose. -/
theorem bootComplete : Obligations.BootComplete := by
  unfold Obligations.BootComplete
  refine ⟨?rom, ?supervisor, ?block, ?blockDone, ?activate⟩
  case rom =>
    rintro f s u v w hp hrom hsup hmode rfl rfl hgood hbad
    have hstart := execBootRomStart_eq hp hrom hsup hmode hgood hbad
    refine ⟨?_, ?_, ?_, ?_⟩
    · intro hunknown
      rw [hstart, if_neg (ne_true_of_eq_false hunknown)]
    · intro hknown h
      rw [hstart, if_pos hknown, romFromCount_counts h]
    · intro hknown hon hlevel hcut
      rw [hstart, if_pos hknown, romFromCount_spoils hon hlevel hcut]
    · intro hknown hon hlevel
      rw [hstart, if_pos hknown, romFromCount_waits hon hlevel]
  case supervisor =>
    rintro s u v w hp hrom hsup rfl hfresh hcopied rfl
    change execSupervisorStart s = _
    refine congrArg _ ((if_neg (by simp [hp, hrom])).trans ((if_neg (ne_true_of_eq_false hsup)).trans ?_))
    cases hc : s.boot.copied with
    | none =>
      rw [hfresh hc]
      simp only [resetRange, rclr, rput, wr, hc]
    | some n =>
      rw [hcopied n hc]
      simp only [resetRange, rclr, rput, wr, hc]
  case block =>
    rintro w bs offset len s u v hrec hu hoffset hlen hgo hop hplace hsome hmost hinside hidle hmay hcrc rfl
    change execBootMbBlock w (some bs) s = _
    exact execBootMbBlock_starts hrec hu hoffset hlen hgo hop hplace hsome hmost hinside hidle hmay hcrc
  case blockDone =>
    rintro o bs s u hrec hwork rfl hstill
    change execHostFlashWorkDone true s = _
    refine congrArg _ ((if_neg (by simp [hrec])).trans ?_)
    simp only [hwork]
    exact if_pos hstill
  case activate =>
    intro w f s u v hrec hu hgo hop hidle hmay hv
    change execBootMbActivate w f s = _
    exact execBootMbActivate_checks hrec hu hgo hop hidle hmay hv

end Sys2Proof.Machine

/-! PROOFS. The end of flash work, in a state that the host's registers are listed twice in (R509, R515). -/

namespace Sys2Proof.Machine
open Sys2Proof Sys2Proof.Safety

/-- A state outside the canonical form: BOOT_STAT is listed twice, first with FLASH_BUSY set and MODE clear, then with
MODE set. A block from the host has just been stored. -/
def bootStatTwice : State := { State.reset with
  regs := [(Reg.BOOT_STAT, fldPut F.BOOT_STAT_FLASH_BUSY 1 0), (Reg.BOOT_STAT, fldPut F.BOOT_STAT_MODE 1 0)]
  boot := { State.reset.boot with romUp := false, work := some (.block 0 [], none) } }

/-- The block's end clears FLASH_BUSY, so that the first entry is dropped as holding the reset value, and MODE reads 1:
the mailbox's operation ends, which DONE counts, where no descriptor completes. -/
theorem hostFlashWorkDone_bootStatTwice : ∃ t, execHostFlashWorkDone true bootStatTwice = .next t ∧
    rget t Reg.BOOT_MB_STAT F.BOOT_MB_STAT_DONE = 1 := ⟨_, rfl, by decide +kernel⟩

/-- Refutes O59: the work of a running supervisor does not end as the host's descriptor where BOOT_STAT is listed twice,
since the statement does not ask for the canonical form of the memories, in which MODE stays 0. -/
theorem not_flashWorkComplete : ¬ Obligations.FlashWorkComplete := by
  unfold Obligations.FlashWorkComplete
  rintro ⟨-, -, -, -, -, -, -, hblock, -⟩
  obtain ⟨t, ht, hdone⟩ := hostFlashWorkDone_bootStatTwice
  have hends : execHostFlashWorkDone true bootStatTwice = .next (finishOpt (refreshFlashBusy
      (stageBlock { bootStatTwice with boot := { bootStatTwice.boot with work := none } } 0 [])) none stOk 0) :=
    hblock 0 [] none bootStatTwice _ (by decide +kernel) rfl rfl
  rw [Host.Outcome.next.inj (ht.symm.trans hends)] at hdone
  exact absurd hdone (by decide +kernel)

end Sys2Proof.Machine

/-! PROOFS. The management port: its transfers, the attention pulse and the page (R529 to R540). -/

namespace Sys2Proof.Machine
open Sys2Proof Sys2Proof.Safety

section Port
variable {s u : State}

/-- The answer of a command at the port, by the state that its meaning makes. -/
theorem onMgt_gives {f : State → State} (hp : s.powered = true) (hans : s.mgt.answers = true) (hf : f s = u) :
    onMgt s f = .next u := by
  rw [onMgt_answers hp hans, hf]

/-- An address that matches is acknowledged and counted (R530); the transfer that begins is `x`. -/
def takenAddress (s : State) (a : Nat) (x : MgtState → MgtState) : State :=
  let v := rput (rset s Reg.MGT_STAT F.MGT_STAT_BUSY) Reg.MGT_STAT F.MGT_STAT_LAST_ADDR a
  { rput v Reg.MGT_CNT F.MGT_CNT_TRANSFERS (rget v Reg.MGT_CNT F.MGT_CNT_TRANSFERS + 1) with
    sent := .mgtAck true :: s.sent, mgt := x s.mgt }

theorem mgtAddress_writes {a : Nat} (hu : u = endTransfer (busTaken s)) (hmatch : mgtMatches u a = true) :
    mgtAddress s a false = takenAddress u a (fun m => { m with transfer := .writing 0 false none }) := by
  simp only [mgtAddress, ← hu]
  exact (if_neg (by simp [hmatch])).trans (if_neg (by decide))

theorem mgtAddress_reads {a : Nat} (hu : u = endTransfer (busTaken s)) (hmatch : mgtMatches u a = true) :
    ∃ latch, mgtAddress s a true = takenAddress u a (fun m => { m with transfer := .reading, latch := latch }) := by
  simp only [mgtAddress, ← hu, if_true]
  exact ⟨_, if_neg (by simp [hmatch])⟩

theorem takenAddress_regs (s : State) (a : Nat) (x : MgtState → MgtState) : ∃ n, (takenAddress s a x).regs =
    (rput (rput (rset s Reg.MGT_STAT F.MGT_STAT_BUSY) Reg.MGT_STAT F.MGT_STAT_LAST_ADDR a) Reg.MGT_CNT
      F.MGT_CNT_TRANSFERS n).regs := ⟨_, rfl⟩

/-- An acknowledged address writes the port's status and its count of transfers alone. -/
theorem rd_takenAddress {a b : Nat} {x : MgtState → MgtState} (h : mapWf hostReset u.regs = true)
    (hb : b ∉ [Reg.MGT_STAT, Reg.MGT_CNT]) : rd (takenAddress u a x) b = rd u b := by
  simp only [List.mem_cons, List.not_mem_nil, or_false, not_or] at hb
  obtain ⟨hstat, hcnt⟩ := hb
  obtain ⟨n, hregs⟩ := takenAddress_regs u a x
  rw [rd, hregs]
  exact (rd_rput_apart (regs_rput (regs_rput h)) hcnt).trans
    ((rd_rput_apart (regs_rput h) hstat).trans (rd_rput_apart h hstat))

theorem takenAddress_memories (s : State) (a : Nat) (x : MgtState → MgtState) : memoriesKept s (takenAddress s a x) := by
  simp [memoriesKept, takenAddress]

/-! ## Bytes -/

section Bytes
variable {b : Byte} {n p : Nat} {gone : Bool} {x : Option Nat}

/-- A written byte is acknowledged; the first sets the pointer, and a later one is stored or discarded (R531, R533). -/
theorem execMgtWriteByte_takes (hp : s.powered = true) (hans : s.mgt.answers = true)
    (hwrites : s.mgt.transfer = .writing n gone x) : execMgtWriteByte b s =
      .next (if n = 0 then { bytePassed s with
          sent := .mgtAck true :: s.sent, mgt := { (bytePassed s).mgt with pointer := b.toNat, transfer := .writing 1 gone x } }
        else mgtStore (sendOut (bytePassed s) (.mgtAck true)) n gone x b) := by
  refine onMgt_gives hp hans ?_
  simp only [hwrites]
  rfl

theorem mgtStore_below (hplace : s.mgt.pointer < 0xC0) : mgtStore s n false x b =
    raise (setMgt s { s.mgt with pointer := (s.mgt.pointer + 1) % 256, transfer := .writing (n + 1) true x })
      0x583 noInst 0 := (if_pos hplace).trans (if_neg (by decide))

theorem mgtStore_above (hp : p = s.mgt.pointer) (hplace : 0xC0 < p)
    (hu : u = rset (rput s (Reg.MGT_CTRLBUF ((p - 0xC0) / 4)) ⟨8 * (p % 4), 8⟩ b.toNat) Reg.MGT_STAT
      F.MGT_STAT_RX_BUSY) : mgtStore s n gone x b = setMgt u { u.mgt with
        pointer := (p + 1) % 256, transfer := .writing (n + 1) gone (if x.isSome = true then x else some p) } := by
  subst hp hu
  exact (if_neg (by omega)).trans (if_neg (by omega))

theorem mgtError_ends {id : Nat} (hbusy : s.mgt.transfer ≠ .idle) :
    mgtError s id = raise (radd (endTransfer s) Reg.MGT_CNT F.MGT_CNT_ERRORS 1) id noInst 0 := if_neg hbusy

end Bytes

end Port

/-- Settles O60: each command acts on a port that answers, in the branch its hypotheses choose. -/
theorem managementComplete : Obligations.ManagementComplete := by
  unfold Obligations.ManagementComplete
  refine ⟨⟨?other, ?write, ?read, ?first, ?below, ?above, ?readByte, ?stop, ?busError, ?stuck, ?hostbuf, ?addr⟩,
    ?pulse, ?pulseEnd, ?sent, ?abandon, ?again, ?go, ?page, ?supervision⟩
  case other =>
    intro a r s hp hans hother
    change execMgtAddress a r s = _
    exact onMgt_gives hp hans (if_pos (by simp [hother]))
  case write =>
    rintro a s u v hp hans hu hmatch rfl
    change execMgtAddress a false s = _
    exact onMgt_gives hp hans (mgtAddress_writes hu hmatch)
  case read =>
    intro a s u hp hans hu hmatch hwf
    obtain ⟨latch, hread⟩ := mgtAddress_reads hu hmatch
    have hkept : Memory.wf u = true := by
      rw [← keep_mem] at hwf ⊢
      exact hu ▸ endTransfer_wf (busTaken_wf hwf)
    have hruns : execMgtAddress a true s = .next (takenAddress u a _) := onMgt_gives hp hans hread
    exact ⟨_, hruns, rfl, rfl, rfl, fun b hb => rd_takenAddress (wf_regs hkept) hb,
      takenAddress_memories ..⟩
  case first =>
    rintro b g x s u hp hans hwrites rfl
    change execMgtWriteByte b s = _
    rw [execMgtWriteByte_takes hp hans hwrites, if_pos rfl]
  case below =>
    rintro b n x s u hp hans rfl hwrites hplace
    change execMgtWriteByte b s = _
    rw [execMgtWriteByte_takes hp hans hwrites, if_neg (Nat.succ_ne_zero n)]
    exact congrArg _ (mgtStore_below hplace)
  case above =>
    rintro b n p g x s u v hp hans hwrites hpointer hplace rfl hv
    change execMgtWriteByte b s = _
    rw [execMgtWriteByte_takes hp hans hwrites, if_neg (Nat.succ_ne_zero n)]
    exact congrArg _ (mgtStore_above hpointer hplace hv)
  case readByte =>
    rintro s u hp hans hreads rfl
    change execMgtReadByte false s = _
    refine onMgt_gives hp hans ?_
    simp only [hreads]
    rfl
  case stop =>
    intro s hp hans
    change execMgtStop s = _
    exact onMgt_answers hp hans
  case busError =>
    rintro s u hp hans hbusy rfl
    change execMgtBusError s = _
    exact onMgt_gives hp hans (mgtError_ends (s := busTaken s) hbusy)
  case stuck =>
    intro s hp hans hbusy hlong
    change execMgtSdaTimeout s = _
    exact onMgt_gives hp hans ((if_pos hlong).trans (mgtError_ends hbusy))
  case hostbuf => exact fun n w s hmay => onBar_may hmay
  case addr =>
    rintro w s u hmay rfl
    exact onBar_may hmay
  case pulse =>
    intro s hp hans hpending hfree hidle hquiet
    change execMgtAttentionPulse s = _
    exact onMgt_gives hp hans (if_pos (by simp [hpending, hfree, hidle, hquiet]))
  case pulseEnd =>
    intro s c hp hans hpulse hlong
    change execMgtPulseEnd s = _
    refine onMgt_gives hp hans ?_
    simp only [hpulse]
    exact if_pos hlong
  case sent =>
    rintro s u v hlast rfl rfl
    exact if_neg (ne_true_of_eq_false hlast)
  case abandon =>
    rintro s u c hp hans hpulse rfl
    change execMgtPulseAbandon s = _
    exact onMgt_gives hp hans (if_neg (by simp [hpulse]))
  case again =>
    rintro s t hp hans rfl hon hcause hlong
    change execMgtAttnRepeat s = _
    exact onMgt_gives hp hans (if_pos ⟨hon, hcause, hlong⟩)
  case go => exact fun w s hmay => onBar_may hmay
  case page =>
    intro s hp hans hruns
    change execMgtPageRefresh s = _
    exact onMgt_gives hp hans (if_pos hruns)
  case supervision =>
    intro s hp hans hruns
    change execSupervisionRead s = _
    exact onMgt_gives hp hans (if_neg (by simp [hruns]))

end Sys2Proof.Machine

/-! PROOFS. Loudspeaker protection on a field die: checks, the detectors of DC, the models' updates and the sense
bitstreams (R384 to R412). -/

namespace Sys2Proof.Machine
open Sys2Proof Sys2Proof.Safety

section Checks
variable {s : State} {d : Die} {c : Nat}

theorem checkDue_comes {t : Nat} (hwaits : (fch s d c).checkAt = some t) (hdue : t ≤ (dieAt s d).ticks) :
    checkDue s d c = setFch s d c { fch s d c with
      checkAt := none
      dueAuto := (fch s d c).dueAuto || (fon s d (Reg.PRT_CH_CTRL c) F.PRT_CH_CTRL_AUTO_RETRY &&
        fon s d (Reg.PRT_CH_STAT c) F.PRT_CH_STAT_CH_SHORT && !fon s d (Reg.PRT_CH_STAT c) F.PRT_CH_STAT_FINAL) } := by
  simp only [checkDue, hwaits]
  exact if_neg (Nat.not_lt.mpr hdue)

/-- A check that waits for the host, or for itself while AUTO_RETRY is 1 (R403). -/
theorem checkWaits_of (h : (fch s d c).dueHost = true ∨
    (fch s d c).dueAuto = true ∧ fon s d (Reg.PRT_CH_CTRL c) F.PRT_CH_CTRL_AUTO_RETRY = true) :
    checkWaits s d c = true := by
  simpa only [checkWaits, Bool.or_eq_true, Bool.and_eq_true] using h

theorem endCheck_ends {q : CheckRun} (hruns : (fch s d c).check = some q) (hlong : dieFs s d / 100 ≤ q.ticks) :
    endCheck s d c = match impedance s d q.sums with
      | none => passCheck s d c
      | some z => if fget s d (Reg.PRT_CH_CHECK c) F.PRT_CH_CHECK_CHECK_ZMIN ≤ magnitude z then passCheck s d c
        else failCheck s d c := by
  simp only [endCheck, hruns, if_neg (Nat.not_lt.mpr hlong)]
  cases impedance s d q.sums with
  | none => rfl
  | some z => exact if_congr decide_eq_true_iff rfl rfl

end Checks

/-- Settles O44: each event acts on a die that is here, and each clause is the branch its hypotheses choose. -/
theorem protectionComplete : Obligations.ProtectionComplete := by
  unfold Obligations.ProtectionComplete
  refine ⟨?due, ?start, ?ends, ?dcOut, ?dcStream, ?thermal, ?windows, ?vsBad, ?isBad, ?railBad, ?tsBad, ?channelGood,
    ?tsGood, ?railGood⟩
  case due =>
    intro d c t s hd hwaits hdue
    change execCheckDue d c s = _
    exact onDie_gives hd (checkDue_comes hwaits hdue)
  case start =>
    intro d c s hd hwaits hfree hgates hshort
    change execCheckStart d c s = _
    exact onDie_gives hd (if_pos (by simp [checkWaits_of hwaits, hfree, hgates, hshort]))
  case ends =>
    intro d c q s hd hruns hlong
    change execCheckEnd d c s = _
    exact onDie_gives hd (endCheck_ends hruns hlong)
  case dcOut =>
    intro d c s hd hdue
    change execDcOutDetect d c s = _
    exact onDie_gives hd (if_pos hdue)
  case dcStream =>
    intro d c s hd hdue
    change execDcStreamDetect d c s = _
    exact onDie_gives hd (if_pos hdue)
  case thermal =>
    rintro d ones s u hd hdue rfl
    change execThermalModelUpdate d ones s = _
    exact onDie_gives hd (if_neg (by simp [hdue]))
  case windows =>
    intro d s hd
    change (_ → execTrimUpdate d s = _) ∧ (_ → execPilotWindowEnd d s = _) ∧ (∀ r, _ → _ → execSweepPointEnd d s = _)
    exact ⟨fun _ => onDie_here hd, fun _ => onDie_here hd, fun _ _ _ => onDie_here hd⟩
  case vsBad =>
    intro d c s hd hgood
    change execSenseStreamBad d (.vs c) s = _
    exact onDie_gives hd (if_neg (ne_true_of_eq_false hgood))
  case isBad =>
    intro d c s hd hgood
    change execSenseStreamBad d (.is c) s = _
    exact onDie_gives hd (if_neg (ne_true_of_eq_false hgood))
  case railBad =>
    intro d s x f hd hx
    change execSenseStreamBad d x s = _
    rw [execSenseStreamBad, onDie_here hd]
    simp only [List.mem_cons, List.not_mem_nil, or_false, Prod.mk.injEq] at hx
    rcases hx with ⟨rfl, rfl⟩ | ⟨rfl, rfl⟩ <;> rfl
  case tsBad =>
    intro d m s hd
    change execSenseStreamBad d (.ts m) s = _
    exact onDie_here hd
  case channelGood =>
    intro d c s hd
    change execSenseStreamGood d (.vs c) s = _ ∧ execSenseStreamGood d (.is c) s = _
    exact ⟨onDie_here hd, onDie_here hd⟩
  case tsGood =>
    intro d m s hd
    change execSenseStreamGood d (.ts m) s = _
    exact onDie_here hd
  case railGood =>
    intro d s x f g hd hx
    change execSenseStreamGood d x s = _
    rw [execSenseStreamGood, onDie_here hd]
    simp only [List.mem_cons, List.not_mem_nil, or_false, Prod.mk.injEq] at hx
    rcases hx with ⟨rfl, rfl, rfl⟩ | ⟨rfl, rfl, rfl⟩ <;> rfl

end Sys2Proof.Machine

/-! PROOFS. Stacking: its links, mastership and messages (R452 to R470). -/

namespace Sys2Proof.Machine
open Sys2Proof Sys2Proof.Safety

section Links
variable {s u : State} {l : Fin 4}

/-- The meaning of a link that comes up, from the state `u` in which its source has been raised. -/
theorem execStackLinkUp_raised (hlive : live s = true) (hdown : stkUp s l = false)
    (hreset : inReset s (unitStk l) = false)
    (hu : u = raise (rput s (Reg.STK_LINK_STAT l) F.STK_LINK_STAT_STATE 2) (0x4C0 + l.val) l 0) :
    execStackLinkUp l s =
      .next (sendHello (if !([0, 1, 2, 3].any (stkHears s)) && stkHears u l then discover u else u) l) := by
  subst hu
  exact onHost_gives hlive (if_neg (by simp [hdown, hreset]))

theorem discover_unique (hdup : ron u Reg.STK_STAT F.STK_STAT_DUP_ID = false) :
    discover u = setStk (rclr u Reg.STK_STAT F.STK_STAT_MASTER) { u.stk with discover := some u.time.cnt } :=
  if_neg (by simp [hdup])

theorem discoveryWaitExpiry_ends {c : Nat} (hlive : live s = true) (hdisc : s.stk.discover = some c)
    (hwait : ticksReach (s.time.cnt - c) (1000 * max 1 (rget s Reg.STK_CTRL F.STK_CTRL_DISC_WAIT)) = true)
    (hrestart : s.boot.restarting = false) (halone : stkAlone s = false) (hlowest : (idsOf (mapNow s)).headD 0 = myId s) :
    execDiscoveryWaitExpiry s = .next (refreshMap (becomeMaster s)) := by
  refine onHost_gives hlive ?_
  simp only [hdisc]
  exact if_pos (by simp only [hwait, hrestart, halone, hlowest, BEq.rfl, Bool.not_false, Bool.and_self])

/-- One missed heartbeat drops no time and lets no member take over (R459). -/
theorem heartbeatWindowExpiry_once (hlive : live s = true) (hmember : isStkMaster s = false)
    (hformed : ron s Reg.STK_STAT F.STK_STAT_FORMED = true) (hcame : beatCame s = false) (hdue : beatDue s = true)
    (hu : u = raise (radd (radd { s with stk := { s.stk with beat := some s.grid.index } } Reg.STK_HB F.STK_HB_MISSED 1)
      Reg.STK_HB F.STK_HB_MISS_CNT 1) 0x4CD 0x3FF 0) (honce : rget u Reg.STK_HB F.STK_HB_MISSED = 1) :
    execHeartbeatWindowExpiry s = .next u := by
  subst hu
  refine onHost_gives hlive ((if_neg (by simp [hmember, hformed, hcame, hdue])).trans ?_)
  refine (if_neg ?_).trans (if_neg ?_)
  all_goals simp only [setStk, noInst, honce]; omega

end Links

/-! ## The handover (R461) -/

section Handover
variable {s u : State} {w : Word}

/-- The answer of a host access, by the state that its meaning makes. -/
theorem onBar_gives {a : Nat} {f : State → State} (h : hostMay s) (hf : f s = u) : onBar s a f = .next u := by
  rw [onBar_may h, hf]

theorem stackBusy_of_tally (h : ∃ t ∈ tallyIds, tyStack u t = true ∧ (tyState u t = tyPrepared ∨ tyState u t = tyInDoubt)) :
    stackBusy u = true := by
  have hany : tallyIds.any (fun t => tyStack u t && (tyState u t == tyPrepared || tyState u t == tyInDoubt)) = true := by
    simpa only [List.any_eq_true, Bool.and_eq_true, Bool.or_eq_true, beq_iff_eq] using h
  rw [stackBusy, hany]
  rfl

theorem stackBusy_of_report (h : u.stk.statusDoubt &&& stkMembers u ≠ 0) : stackBusy u = true := by
  simp [stackBusy, h]

theorem stackBusy_free (hdoubt : u.stk.statusDoubt &&& stkMembers u = 0) (hvotes : u.stk.votes = [])
    (hlogging : u.stk.logging = [])
    (htallies : ∀ t ∈ tallyIds, tyStack u t = true → tyState u t ≠ tyPrepared ∧ tyState u t ≠ tyInDoubt) :
    stackBusy u = false := by
  have hany : tallyIds.any (fun t => tyStack u t && (tyState u t == tyPrepared || tyState u t == tyInDoubt)) = false := by
    simpa only [List.any_eq_false, Bool.and_eq_true, Bool.or_eq_true, beq_iff_eq, not_and, not_or] using htallies
  simp only [stackBusy, hany, hdoubt, hvotes, hlogging, List.isEmpty_nil]
  rfl

/-- HANDOVER is decided by the state that the write leaves. -/
theorem hostHandover_asked (hu : u = stackEnabled (rwrite s Reg.STK_CTRL w) (ron s Reg.STK_CTRL F.STK_CTRL_EN))
    (hask : fldGet F.STK_CTRL_HANDOVER w = 1) {k : Nat} (hk : k = rget u Reg.STK_CTRL F.STK_CTRL_HANDOVER_ID) :
    hostHandover w s =
      if !isStkMaster u || k == myId u || !bitOf (stkMembers u) k || !bitOf u.stk.statusLocked k || stackBusy u then
        rset u Reg.STK_STAT F.STK_STAT_REFUSED
      else setStk u { u.stk with handover := some (u.grid.index + 8, k) } := by
  subst hk hu
  exact if_neg (by rw [hask]; decide)

/-- What makes a handover refused: each reason of R461 meets the test of the write. -/
theorem handover_refused {k : Nat}
    (h : isStkMaster u = false ∨ bitOf (stkMembers u) k = false ∨ bitOf u.stk.statusLocked k = false ∨ k = myId u ∨
      (∃ t ∈ tallyIds, tyStack u t = true ∧ (tyState u t = tyPrepared ∨ tyState u t = tyInDoubt)) ∨
      u.stk.statusDoubt &&& stkMembers u ≠ 0) :
    (!isStkMaster u || k == myId u || !bitOf (stkMembers u) k || !bitOf u.stk.statusLocked k || stackBusy u) = true := by
  rcases h with hmember | haway | hunlocked | hself | htally | hreport
  · simp only [hmember, Bool.not_false, Bool.true_or]
  · simp only [haway, Bool.not_false, Bool.true_or, Bool.or_true]
  · simp only [hunlocked, Bool.not_false, Bool.true_or, Bool.or_true]
  · simp only [hself, BEq.rfl, Bool.true_or, Bool.or_true]
  · simp only [stackBusy_of_tally htally, Bool.or_true]
  · simp only [stackBusy_of_report hreport, Bool.or_true]

end Handover

/-! ## The start (R470) -/

section Start
variable {s u : State}

theorem startSend_member (hlive : live s = true) (hmember : isStkMaster s = false) (hlate : s.stk.lateJoin = true)
    (hauto : autostarts s = true) (hstarted : s.boot.started = false) (hlocked : loopState s = stLocked) :
    execStartSend s = .next (startAlone s) :=
  onHost_gives hlive ((if_neg (by simp [hmember])).trans
    (if_pos (by simp only [hmember, hlate, hauto, hstarted, hlocked, BEq.rfl, Bool.not_false, Bool.and_self])))

theorem startSend_master (hlive : live s = true) (hmaster : isStkMaster s = true) (hauto : autostarts s = true)
    (hstarted : s.boot.started = false) (hunsent : s.stk.startXid = none) (hready : readyToStart s = true)
    (hu : u = stkSend s toAll smStart [s.grid.index + 8, s.stk.starts % 2 ^ 32]) :
    execStartSend s = .next (startPart { u with stk := { u.stk with starts := s.stk.starts + 1 } } (s.grid.index + 8)
      (s.stk.starts % 2 ^ 32)) := by
  subst hu
  exact onHost_gives hlive
    (if_pos (by simp only [hmaster, hauto, hstarted, hunsent, hready, Option.isNone_none, Bool.not_false, Bool.and_self]))

end Start

/-- Settles O48: each clause is one branch of its command's meaning. -/
theorem stackLinksComplete : Obligations.StackLinksComplete := by
  unfold Obligations.StackLinksComplete
  refine ⟨?up, ?down, ?hello, ?discovered, ?missed, ?handed, ?refused, ?joined, ?started, ?again⟩
  case up =>
    intro l s u hlive hdown hreset hu
    change (_ → execStackLinkUp l s = _) ∧ (_ → _ → _ → execStackLinkUp l s = _)
    rw [execStackLinkUp_raised hlive hdown hreset hu]
    refine ⟨fun hheard => ?_, fun hfirst hhears hdup => ?_⟩
    · rw [if_neg (by simp only [hheard, Bool.not_true, Bool.false_and, Bool.false_eq_true, not_false_eq_true])]
    · rw [if_pos (by simp only [hfirst, hhears, Bool.not_false, Bool.and_self]), discover_unique hdup]
  case down =>
    rintro l s u hlive hstate rfl
    change execStackLinkDown l s = _
    exact onHost_gives hlive (if_neg hstate)
  case hello =>
    intro s hlive
    change execHelloSend s = _
    exact onHost_live hlive
  case discovered =>
    intro s c hlive hdisc hwait hrestart halone hlowest
    exact discoveryWaitExpiry_ends hlive hdisc hwait hrestart halone hlowest
  case missed =>
    intro s u hlive hmember hformed hcame hdue hu honce
    exact heartbeatWindowExpiry_once hlive hmember hformed hcame hdue hu honce
  case handed =>
    intro w s u k hmay hu hask hk hmaster hself hmember hlocked hdoubt hvotes hlogging htallies
    refine onBar_gives hmay ((hostHandover_asked hu hask hk).trans (if_neg ?_))
    simp only [hmaster, beq_false_of_ne hself, hmember, hlocked, stackBusy_free hdoubt hvotes hlogging htallies,
      Bool.not_true, Bool.or_self, Bool.false_eq_true, not_false_eq_true]
  case refused =>
    intro w s u k hmay hu hask hk hwhy
    exact onBar_gives hmay ((hostHandover_asked hu hask hk).trans (if_pos (handover_refused hwhy)))
  case joined =>
    intro s hlive hmember hlate hauto hstarted hlocked
    exact startSend_member hlive hmember hlate hauto hstarted hlocked
  case started =>
    intro s u hlive hmaster hauto hstarted hunsent hready hu
    exact startSend_master hlive hmaster hauto hstarted hunsent hready hu
  case again =>
    rintro s u v w hlive rfl rfl rfl
    change execStackRetransmit s = _
    exact onHost_live hlive

/-! ## Messages of members and time (R457 to R467) -/

/-- Settles O49: each message that this member takes is its meaning from the state after its reception. -/
theorem stackMessagesComplete : Obligations.StackMessagesComplete := by
  unfold Obligations.StackMessagesComplete
  refine ⟨?hello, ?yields, ?accepts, ?status, ?time, ?asked, ?answered, ?subscribe, ?beads, ?late⟩
  case hello =>
    rintro l ws view s t u v h rfl rfl rfl
    change (_ → execHello l ⟨ws, view⟩ s = _) ∧ (_ → _ → execHello l ⟨ws, view⟩ s = _)
    refine ⟨fun hown => onStack_gives h (if_neg ?_), fun hid hother => onStack_gives h (if_pos ⟨hid, hother⟩)⟩
    rintro ⟨hid, hother⟩
    exact hown.elim (fun hne => hne hid) hother
  case yields =>
    rintro l ws s u h rfl hmaster hlower
    change execStackHeartbeat l ws s = _
    exact onStack_gives h ((if_pos hmaster).trans (if_pos hlower))
  case accepts =>
    rintro l ws s u h rfl hmember hwhy
    change execStackHeartbeat l ws s = _
    refine onStack_gives h ((if_neg (by simp [hmember])).trans (if_pos ?_))
    rcases hwhy with hlower | hunformed | hmissed
    · exact .inr (.inl hlower)
    · exact .inl (by rw [hunformed]; rfl)
    · exact .inr (.inr hmissed)
  case status =>
    rintro l ws s u v k h rfl hmaster rfl rfl
    change execMemberStatus l ws s = _
    exact onStack_gives h (if_neg (by simp [hmaster]))
  case time =>
    rintro l ws n f s u h rfl hmember hnew hsrc
    change execTimeSync l ws ⟨n, f⟩ s = _
    exact onStack_gives h (if_neg (by simp [hmember, hnew, hsrc]))
  case asked =>
    rintro l ws s u v h rfl rfl
    change execDelayReq l ws s = _
    exact onStack_heard h
  case answered =>
    rintro l ws s u mean h rfl rfl
    change execDelayResp l ws s = _
    exact onStack_heard h
  case subscribe =>
    rintro l ws s u e rs h rfl rfl rfl
    change execSubscribe l ws s = _
    exact onStack_heard h
  case beads =>
    intro l ws s h
    change execBeads l ws s = _
    exact onStack_heard h
  case late =>
    intro s hlive hrun
    change execRemoteBeadDeadline s = _
    exact onHost_gives hlive (if_neg (by simp [hrun]))

end Sys2Proof.Machine

/-! PROOFS. The direct routes, the clears of the mix, METER_READ and ROUTE_CFG (R207, R222, R224, R241, R244, R255). -/

namespace Sys2Proof.Machine
open Sys2Proof Sys2Proof.Safety

theorem markAccepted_meterIndex (s : State) (d : DescRef) : (markAccepted s d).meterIndex = s.meterIndex := by
  obtain ⟨_, _, h⟩ := markAccepted_parts s d
  rw [h]

/-- The period that METER_READ reports is the same whether its records go out or wait (R442). -/
theorem hostWrite_meterIndex (s : State) (addr : Nat) (bs : List Byte) :
    (hostWrite s addr bs).meterIndex = s.meterIndex := by
  unfold hostWrite
  split
  · exact hostPut_meterIndex s addr bs
  · rfl

theorem hostMixMclrGo_queues {s : State} {w : Word} (hgo : fldGet F.MIX_MCLR_GO w = 1) :
    hostMixMclrGo w s =
      let u := rwrite s Reg.MIX_MCLR w
      let first := rget u Reg.MIX_MCLR F.MIX_MCLR_FIRST
      rset { u with meterClears := u.meterClears ++ [(first, max first (rget u Reg.MIX_MCLR F.MIX_MCLR_LAST))] }
        Reg.MIX_STAT F.MIX_STAT_MCLR_BUSY :=
  if_neg (by omega)

/-- ROUTE_CFG's two tests refuse exactly where the entry is not valid or a pending tally is threatened (R222, R255). -/
theorem ite_refused_eq_ite_taken {α : Type} (ok threat : Bool) (x y : α) :
    (if (!ok || threat) = true then x else y) = if ok = true ∧ threat = false then y else x := by
  cases ok with
  | false => rfl
  | true => cases threat <;> rfl

/-- Settles O28: the writes are the host's access to their register, and each other command takes the branch that its
hypotheses choose. -/
theorem mixAndDirectComplete : Obligations.MixAndDirectComplete := by
  unfold Obligations.MixAndDirectComplete
  refine ⟨⟨?engage, ?vox⟩, ?clear, ?clip, ?meters, ?route⟩
  case engage =>
    intro hi w s hmay
    change execMixDrEngageWrite hi w s = _
    exact onBar_may hmay
  case vox =>
    intro r s hlive hvox hquiet
    change execVoxHoldExpiry r s = _
    exact onHost_gives hlive (if_pos (by rw [hvox, decide_eq_true hquiet]; rfl))
  case clear =>
    rintro w s u first hmay rfl hgo rfl
    change execMixMclrGo w s = _
    exact onBar_gives hmay (hostMixMclrGo_queues hgo)
  case clip =>
    intro w s hmay hclr
    change execMixClipClr w s = _
    exact onBar_gives hmay (if_pos hclr)
  case meters =>
    rintro d bs n s u h rfl rfl
    change execMeterRead d s = _
    simp only [execMeterRead, onDesc_ready h, hostWrite_meterIndex, markAccepted_meterIndex]
  case route =>
    rintro d bs r m s u v h rfl rfl rfl rfl
    change execRouteCfg d s = _
    exact (onDesc_ready h).trans (congrArg _ (ite_refused_eq_ite_taken _ _ _ _))

end Sys2Proof.Machine
